-- ==== Sys2Proof/Word.lean ====
section
/-!
DEFINITION. The smallest words of the model: octets, and the unit numbers of Table 0-2 (R2) as bounded numbers.
-/
set_option Elab.async false
namespace Sys2Proof

/-- One octet of a frame, a message or a stored record. -/
abbrev Octet := BitVec 8

/-- A port number, 4q + s (R2, R3). -/
abbrev PortNo := Fin 512
/-- A pair engine number (R2). -/
abbrev PeNo := Fin 512
/-- A quad number (R2). -/
abbrev QuadNo := Fin 128
/-- A tile number (R2). -/
abbrev TileNo := Fin 16
/-- A host lane number (R2). -/
abbrev LaneNo := Fin 256
/-- A Wale port number (R2). -/
abbrev WlNo := Fin 6
/-- A QDR channel number (R2). -/
abbrev QcNo := Fin 136
/-- A management core number (R2). -/
abbrev CoreNo := Fin 4

end Sys2Proof
end

