-- ==== Sys2Proof/Syntax.lean ====
section
/-!
DEFINITION. The commands that the block takes, one constructor for each row of the table of operations and events, and
the data that come with them. What the world outside decides (a received frame, a measured value, the path of a request)
is an operand.
-/
set_option Elab.async false
namespace Sys2Proof.Machine

/-- Line modes of Table 2-1 (R25). -/
inductive LineMode where
  | w50 | w25 | w12 | t40g | t25g | t10g | t5g | t2g5 | t1000 | t100
deriving DecidableEq, Repr

/-- Severities of event records (R398). -/
inductive Sev where
  | alarm | warning | notice | trace
deriving DecidableEq, Repr

/-- The events that the rules raise, each named for the rule's condition. -/
inductive EvName where
  | recoveryEntered
  | cfgReverted | cfgRolledBack
  | clkswForced | handshakeBound | handshakeRefused | wakeFault | tileIsolated
  | alarmOverflow | limiterFull | coreRestart
  | timeStepped | timeValidTrue | timeValidFalse | trimLimit | trimHoldover | refInLost
  | taMark | taDone | taLate | taRefused | taFailed
  | fabricFull | noAddress | addressChanged | tooFar | upstreamLost
  | pairDropped
  | storedBadCrc | linkUp | linkDown | downshifted | downCause
  | storeRefreshFail
  | slotsFull | tapsDiscarded | copyBadCrc | pinnedCleared | mapChanged
  | charFailed | refreshFailed
  | cableChanged | marginLow | marginLowClear | uncorrHigh | uncorrHighClear | skewHigh | skewHighClear
  | reflectChange
  | undersized | laneLeftFault | laneRemapped | hostDown | lsCalMismatch
  | neverFit | lateDiscard | residenceDiscard | gateOverrun | mmFailed
  | missedGuarantee | guaranteeReduced | channelRetired | readDiscard
  | calRejected | elementRetired | noSpare | recordDiscarded
  | bistRepaired | bistUnusable | bistUnusableAlarm
  | thermWarn | thermWarnClear | thermOver | lidOver | vinLow | vinHigh
deriving DecidableEq, Repr

/-- Severity of an event (R400: fixed per code). -/
def EvName.sev : EvName → Sev
  | .recoveryEntered | .wakeFault | .tileIsolated | .alarmOverflow | .coreRestart | .fabricFull | .noAddress | .hostDown
  | .missedGuarantee | .bistUnusableAlarm | .thermOver => .alarm
  | .cfgReverted | .clkswForced | .handshakeBound | .timeValidFalse | .trimLimit | .trimHoldover | .refInLost | .taRefused
  | .taFailed | .tooFar | .upstreamLost | .pairDropped | .linkDown | .downshifted | .storeRefreshFail | .marginLow
  | .uncorrHigh | .reflectChange | .laneLeftFault | .laneRemapped | .lsCalMismatch | .neverFit | .gateOverrun | .mmFailed
  | .guaranteeReduced | .channelRetired | .readDiscard | .elementRetired | .noSpare | .bistRepaired | .bistUnusable
  | .thermWarn | .lidOver | .vinLow | .vinHigh => .warning
  | .tapsDiscarded | .mapChanged | .taDone => .trace
  | .cfgRolledBack | .handshakeRefused | .limiterFull | .timeStepped | .timeValidTrue | .taMark | .taLate
  | .addressChanged | .storedBadCrc | .linkUp | .downCause | .slotsFull | .copyBadCrc | .pinnedCleared | .charFailed
  | .refreshFailed | .cableChanged | .marginLowClear | .uncorrHighClear | .skewHigh | .skewHighClear
  | .undersized | .lateDiscard | .residenceDiscard | .calRejected | .recordDiscarded
  | .thermWarnClear => .notice

/-- Code group of an event: the chapter that governs it (Table 17-2). -/
def EvName.group : EvName → Nat
  | .recoveryEntered => 0x01
  | .cfgReverted | .cfgRolledBack => 0x02
  | .clkswForced | .handshakeBound | .handshakeRefused | .wakeFault | .tileIsolated => 0x03
  | .alarmOverflow | .limiterFull | .coreRestart => 0x04
  | .timeStepped | .timeValidTrue | .timeValidFalse | .trimLimit | .trimHoldover | .refInLost | .taMark | .taDone
  | .taLate | .taRefused | .taFailed => 0x05
  | .fabricFull | .noAddress | .addressChanged | .tooFar | .upstreamLost => 0x06
  | .pairDropped => 0x08
  | .storedBadCrc | .linkUp | .linkDown | .downshifted | .downCause => 0x09
  | .storeRefreshFail => 0x0A
  | .slotsFull | .tapsDiscarded | .copyBadCrc | .pinnedCleared | .mapChanged => 0x0B
  | .charFailed | .refreshFailed => 0x0C
  | .cableChanged | .marginLow | .marginLowClear | .uncorrHigh | .uncorrHighClear | .skewHigh | .skewHighClear
  | .reflectChange => 0x0D
  | .undersized | .laneLeftFault | .laneRemapped | .hostDown | .lsCalMismatch => 0x0E
  | .neverFit | .lateDiscard | .residenceDiscard | .gateOverrun | .mmFailed => 0x0F
  | .missedGuarantee | .guaranteeReduced | .channelRetired | .readDiscard => 0x10
  | .calRejected | .elementRetired | .noSpare | .recordDiscarded => 0x11
  | .bistRepaired | .bistUnusable | .bistUnusableAlarm => 0x12
  | .thermWarn | .thermWarnClear | .thermOver | .lidOver | .vinLow | .vinHigh => 0x13

/-- What the world decides of one start (R376): the failed attempts of wake steps 3 and 4 (3 means that the step failed for
good), the tiles whose regulator fails three times, how many POST stages end within the step (with nothing found in them),
the microseconds from the start to the lock of the root PLL, and which MRAM contents are found damaged: calibration copies by
pair engine, stored records, the weave map copy and the owner policy. -/
structure BootInputs where
  refFails : Fin 4 := 0
  pllFails : Fin 4 := 0
  isolated : List TileNo := []
  stages : Fin 6 := 5
  lockUs : Nat := 0
  calBad : List (PeNo × Bool) := []
  storedBad : List PeNo := []
  weaveBad : Bool := false
  policyBad : Bool := false
deriving DecidableEq, Repr

/-- What the partner's base page says (R58, R60): 100BASE-TX full duplex, and Next Page. -/
structure BasePage where
  tx100 : Bool
  nextPage : Bool
deriving DecidableEq, Repr

/-- The partner's OUI-tagged pages: the unformatted pages UP1 to UP4 of Clause 28 (Table 3-3), or the unformatted fields of the
two next pages of Clause 98 (R60). -/
inductive WPages where
  | none
  | up (up1 up2 up3 up4 : BitVec 11)
  | dme (first second : BitVec 32)
deriving DecidableEq, Repr

/-- What the partner's next pages say (R58 to R63): the standard modes offered in the bit layout of `PORT_ABILITY` bits 6
to 0, the OUI-tagged pages, the EEE ability, the partner's master-slave setting in the coding of `MS_CONFIG`, and whether this
end's seed is the higher one where two equal automatic settings leave the roles to the seeds (R63). -/
structure NextPages where
  std : BitVec 7
  w : WPages
  eee : Bool
  ms : Fin 4
  seed : Bool
deriving DecidableEq, Repr

/-- What `TRAIN_T1` leaves on a pair (R100, R101): the partner's frequency offset in 0.001 ppm, and the precoder taps computed for
the partner's transmitter, b[1] first. -/
structure T1Meas where
  freq : Int
  taps : List (BitVec 16)
deriving DecidableEq, Repr

/-- What `TRAIN_T1` leaves on the pairs of a port: which are inverted (R66), and the measurements, by position of the pair. -/
structure T1Result where
  inverted : BitVec 4
  meas : List T1Meas
deriving DecidableEq, Repr

/-- What a pair engine measures over one 64 µs window (R108, Tables 2-3, 4-10, 5-5): margins and gains in 1/256 dB, the
mean of iterations in 1/16, the phase as U0.16, the offset in 0.001 ppm, the skew in root periods. -/
structure WindowMeas where
  snr : Int
  iterMean : Nat
  echo : Int
  pga : Nat
  phase : Nat
  freq : Int
  skew : Int
  ancGain : Int
  slotGains : List Int
deriving DecidableEq, Repr

/-- What a refresh finds in a store row (R112). -/
inductive RowFound where
  | clean | corrected | uncorrectable | overdue
deriving DecidableEq, Repr

/-- A candidate as a learning pass ranks it (R124 to R126): its pair engine, its contribution X in 1/256 dB, and its best
lag. -/
structure Candidate where
  pe : PeNo
  x : Int
  lag : Fin 256
deriving DecidableEq, Repr

/-- What the probe returns (R155, R159): a round-trip delay from the MDI lands in ps, a reflection coefficient or coupling
ratio as S0.15, whether it is energy of another pair of the port, and whether the noise is too high to place events. -/
structure Echo where
  delay : Nat
  rho : Int
  cross : Bool
deriving DecidableEq, Repr

/-- What a pair's probe finds (R159, R163): its reflections, the noise floor in 1/256 dB and whether it is too high to place
any event, for how long in µs the partner's probe was received in the short-probe interval, the loss at the five frequencies in 1/256 dB,
and the losses of the bands of 125 MHz from 0 up, in 1/256 dB. -/
structure PairProbe where
  echoes : List Echo
  noise : Int
  noisy : Bool
  seenUs : Nat
  loss : List Nat
  bands : List Nat
deriving DecidableEq, Repr

/-- What a probe of a port finds, pair by pair, and which records read from MRAM at the end of `TRAIN_T0` fail their checks:
the stored record of each pair, and the fingerprint (R76, R165). -/
structure T0Probe where
  pairs : List PairProbe
  badStored : BitVec 4
  badPrint : Bool
deriving DecidableEq, Repr

/-- What a pair of a port in a standard mode has counted in a second (R170): receive symbol errors; and of its LDPC frames those
corrected, those uncorrectable, the bits corrected, and the frames by iterations as `LDPC_ITER_HIST` counts them. -/
structure StdCounts where
  symbol : Nat
  corrected : Nat
  uncorrectable : Nat
  bits : Nat
  hist : List Nat
deriving DecidableEq, Repr

/-- A frame from a host lane: its six preamble octets, its start-of-frame delimiter, the octets from destination address to FCS,
and whether it contains an error block or a decoding error (R12, R189, R192). -/
structure HostFrame where
  pre : List Octet
  octets : List Octet
  error : Bool
  sfd : Octet := 0xD5
deriving DecidableEq, Repr

/-- What arrives from the line (R195, R250, R252): a frame, preemptable or express, with the fragments it came in after its
first; an assembly that failed; or a fragment with a faulty SMD or fragment count. -/
inductive LineKind where
  | express
  | preemptable (frags : Nat)
  | assemblyError
  | smdError
  | cut
deriving DecidableEq, Repr

/-- A frame from the line: the octets from destination address to FCS, and the time-base value of its receive timestamp
before the pipe delay is taken off (R214). `full` says that an octet found the receive FIFO full (R195), and `error` that the frame
contains an error block (R44). -/
structure LineFrame where
  octets : List Octet
  stamp : Nat
  full : Bool
  kind : LineKind := .express
  error : Bool := false
deriving DecidableEq, Repr

/-- The objects that a PFC setting write may name (R197). -/
inductive PfcSetting where
  | enable | priorityMap | headroom | quanta
deriving DecidableEq, Repr

/-- A shaper of R235: a flow shaper, a service shaper of a port, or a port shaper. -/
inductive ShaperSel where
  | flow (n : Fin 65536)
  | svc (p : PortNo) (v : Fin 8)
  | port (p : PortNo)
deriving DecidableEq, Repr

/-- What a launch read found (R273, R274): no error, a corrected one, or an uncorrectable one, with the channel. -/
inductive ReadResult where
  | clean
  | corrected (h : QcNo)
  | uncorrectable (h : QcNo)
deriving DecidableEq, Repr

/-- Fill of a channel group's write queue (R265): below 75 %, from 75 %, full. -/
inductive WriteFill where
  | low | high | full
deriving DecidableEq, Repr

/-- What a scrub read found (R273, R274): no error; a corrected one; or an uncorrectable one, with the frame that holds the cell, if one does. -/
inductive ScrubFound where
  | clean
  | corrected
  | uncorrectable (frame : Option Nat)
deriving DecidableEq, Repr

/-- A 66-bit word of a Wale lane after descrambling (R277): the sync header, its left bit first on the wire as bit 1, and the payload. -/
structure WlWord where
  header : BitVec 2
  payload : BitVec 64
deriving DecidableEq, Repr

/-- An outcome record of a timed commit (R396), as decoded: tag, state and cause. The layout of these records is not stated. -/
structure OutcomeIn where
  tag : BitVec 32
  state : Fin 8
  cause : BitVec 8
deriving DecidableEq, Repr

/-- Which records an `EVENT` packet carries (R300, R396). -/
inductive EventBatch where
  | alarms | others | outcomes
deriving DecidableEq, Repr

/-- Access paths (Tables 13-10, 16-7). -/
inductive Path where
  | host | mgmt | wale | line | spi
deriving DecidableEq, Repr

/-- By which path a message of the access protocol comes (R325): in a host lane's stream or a line of a port, on the management
port, in a Wale packet from an address, or on SPI. On the Ethernet paths and in a Wale packet it is a frame, from destination
address to FCS. -/
inductive DapVia where
  | host (p : PortNo)
  | mgmt
  | line (p : PortNo)
  | wale (src : BitVec 8)
  | spi
deriving DecidableEq, Repr

/-- Wake sources (Table 14-9): on a line pair, energy alone or the wake pattern of R147; on a Wale port, signal detect alone or a
`WC_WAKE` word. -/
inductive WakeKind where
  | line (p : PortNo) (pattern : Bool)
  | wale (w : WlNo) (word : Bool)
  | mgmt
  | hostLane (h : LaneNo)
  | spi
deriving DecidableEq, Repr

/-- What a calibration visit measures of an element (Table 15-2): of a sub-ADC its offset, gain, skew and the comparator
candidates of its stages; of a DAC segment its gain and timing. -/
inductive Quantity where
  | offset | gain | skew | timing
  | cmp (stage : Fin 8) (cand : Fin 2)
deriving DecidableEq, Repr

/-- What foreground calibration measures of a pair engine (R365): offset, gain and skew of the 18 sub-ADCs, gain and timing of
the 66 segments, the offsets of the 288 candidates in record order, the candidates in use by sub-ADC, the 15 front-end words,
the transmit and receive delays of the 10 modes in ps, and the junction temperature in 1/16 °C. -/
structure FgMeas where
  adc : List (Int × Int × Int)
  dac : List (Int × Int)
  cmp : List Int
  sel : List (BitVec 8)
  fe : List (BitVec 16)
  delays : List (BitVec 32 × BitVec 32)
  temp : Int
deriving DecidableEq, Repr

/-- Where a self-test failed (`LG_ADDR` of Table 15-8). -/
inductive FailAt where
  | row (r : Nat)
  | memory (m r : Nat)
  | cell (cell : Fin 65536) (word : Fin 8)
  | word (w : Nat)
  | adc (e : Fin 18)
  | dac (n : Fin 66)
  | cmp (e : Fin 18) (stage : Fin 8) (cand : Fin 2)
  | other
deriving DecidableEq, Repr

/-- A failure that a test found: its place, the failing bit (0xFF for none or several), the cause, and whether a spare column
rather than a spare row suits it (Table 15-7). -/
structure Finding where
  place : FailAt
  failBit : BitVec 8
  cause : Fin 4
  column : Bool
deriving DecidableEq, Repr

/-- How a test ended (R367): terminal count, or stopped with its cause (1 budget, 2 wake, 3 power change, 4 software). -/
inductive TestEnd where
  | terminal
  | stopped (cause : Fin 5)
deriving DecidableEq, Repr

/-- The tests of Table 15-5 on their instances. -/
inductive TestOn where
  | coefStore (e : PeNo)
  | schedSram (q : Fin 4)
  | qdr (h : QcNo)
  | mram
  | lbistTile (t : TileNo)
  | lbistCore (q : Fin 4)
  | peLoopback (e : PeNo)
  | hybrid (e : PeNo)
  | regulator (t : TileNo)
  | reference
  | pll
  | hlane (h : LaneNo)
  | wale (w : WlNo) (tx rx : BitVec 32)
deriving DecidableEq, Repr

/-- An edge at PPS_IN (R212): its polarity, whether its pulse is shorter than 100 ns, and the root edge, of the eight that a D33 edge
counts, at which it comes. -/
structure PpsEdge where
  falling : Bool
  short : Bool
  sub : Fin 8
deriving DecidableEq, Repr

/-- Whose entry is complete (R344, R347): a tile's, or the device's, with the inputs of the start that follows where a request for
`ACTIVE` is pending. -/
inductive EntryDone where
  | tile (t : TileNo)
  | device (boot : BootInputs)
deriving DecidableEq, Repr

/-- Targets of in-service slices (R370). -/
inductive SliceOn where
  | store (e : PeNo)
  | sched (q : Fin 4)
  | cells (h : QcNo)
deriving DecidableEq, Repr

end Sys2Proof.Machine

namespace Sys2Proof
open Sys2Proof.Machine

/-- The commands. -/
inductive Instr where
  | vinGoodRise (boot : BootInputs)
  | vinGoodFall
  | resetNAssert
  | resetNRelease (boot : BootInputs)
  | deviceReset (v : BitVec 8) (boot : BootInputs)
  | hwWatchdogReset (boot : BootInputs)
  | fwWatchdogExpire (core : Fin 4) (trainings : List PortNo) (boot : BootInputs)
  | basePagesExchanged (p : PortNo) (page : BasePage)
  | nextPagesDone (p : PortNo) (pages : NextPages)
  | flpDetected (p : PortNo)
  | parallelDetect (p : PortNo)
  | t0TimerEnd (p : PortNo) (r : T0Probe)
  | t1Converged (p : PortNo) (r : T1Result)
  | t1Timeout (p : PortNo) (converged : BitVec 4) (r : T1Result)
  | infofieldReceived (e : PeNo) (copy0 copy1 copy2 : BitVec 160)
  | t2Timeout (p : PortNo)
  | countdownEnd (p : PortNo)
  | t3VerifyPass (p : PortNo) (pick : BitVec 8)
  | t3Timeout (p : PortNo) (failed : BitVec 4)
  | partnerLost (p : PortNo)
  | stdTrainComplete (p : PortNo) (ok : Bool)
  | stdLinkFail (p : PortNo)
  | linkBreakEnd (p : PortNo)
  | linkFailEnd (p : PortNo)
  | noEnergy2s (p : PortNo)
  | wakePatternRetrain (p : PortNo)
  | fastRetrainNoReply (p : PortNo)
  | trainRestartFull (p : PortNo)
  | trainRestartFast (p : PortNo)
  | trainRestartRenegotiate (p : PortNo)
  | portModeWrite (p : PortNo) (v : BitVec 8)
  | portAbilityWrite (p : PortNo) (v : BitVec 16)
  | portEnableWrite (p : PortNo) (v : BitVec 8)
  | quadFormationWrite (q : QuadNo) (v : BitVec 8)
  | receiveCodeword (e : PeNo) (decoded : BitVec 2048) (iterations corrected : Nat)
  | uncorrectableRun (e : PeNo) (pick : BitVec 8)
  | auxcrcLimitExceeded (e : PeNo) (pick : BitVec 8)
  | marginWindowEnd (e : PeNo) (m : WindowMeas) (pick : BitVec 8)
  | mcPairDropReq (e : PeNo) (msg : BitVec 128) (pick : BitVec 8)
  | mcPairDropAck (e : PeNo) (msg : BitVec 128)
  | pairDropSwitch (p : PortNo) (transmit : Bool)
  | mcLaneStatus (e : PeNo) (msg : BitVec 128)
  | mcPrecoder (e : PeNo) (msg : BitVec 128)
  | precoderUpdateStart (e : PeNo) (taps : List (BitVec 16)) (pick : BitVec 8)
  | precoderSwitch (e : PeNo) (transmitter : Bool)
  | storeRefresh (e : PeNo) (row : Fin 2048) (found : RowFound)
  | refreshSlowReturn (t : TileNo)
  | coefWriteback (e : PeNo) (words : List (BitVec 13 × BitVec 16))
  | peCoefFreezeWrite (e : PeNo) (v : BitVec 8)
  | coefFreezeExpire (e : PeNo)
  | captureEqualised (e : PeNo)
  | captureRaw (e : PeNo)
  | captureDone (e : PeNo) (samples : List (BitVec 16))
  | ancPassStart (v : PeNo)
  | ancPassEnd (v : PeNo) (ranked : List Candidate)
  | probationEnd (v : PeNo) (slot : Fin 8) (x : Int)
  | frozenThaw (v : PeNo) (slot : Fin 8)
  | ancHoldExpire (v : PeNo) (slot : Fin 8)
  | weaveMapCopyWrite
  | ancSlotWrite (v : PeNo) (row : Nat) (value : BitVec 64)
  | ancEnableWrite (p : PortNo) (value : BitVec 8)
  | ancMapClear (value : BitVec 8)
  | ancMapPersistWrite (value : BitVec 8)
  | lpiSleepRequest (p : PortNo) (id : BitVec 8)
  | sleepReq (p : PortNo) (msg : BitVec 128) (lane : Fin 4)
  | sleepAck (p : PortNo) (msg : BitVec 128)
  | sleepNak (p : PortNo) (msg : BitVec 128)
  | lpiQuietPoint (p : PortNo) (partner : Bool)
  | lpiRefreshStart (p : PortNo)
  | lpiRefreshEnd (p : PortNo)
  | partnerRefreshEnd (p : PortNo) (margins : List (Option Int))
  | lpiWakeStart (p : PortNo) (planned : Bool)
  | lpiPartnerChirp (p : PortNo)
  | lpiWakeEnd (p : PortNo) (partner : Bool)
  | heldAwakeEnd (p : PortNo)
  | lpiEnableWrite (p : PortNo) (v : BitVec 8)
  | rxLpi (p : PortNo) (asserted : Bool)
  | tdrStart (p : PortNo) (v : BitVec 8)
  | tdrDone (p : PortNo) (r : T0Probe)
  | reflectCompute (e : PeNo)
  | reflectBaselineSet (e : PeNo)
  | reflectDone (e : PeNo) (rows : List (BitVec 16)) (origin : Nat)
  | reflectWatchTick (e : PeNo) (rows : List (BitVec 16)) (origin : Nat)
  | lqSecondEnd (p : PortNo) (std : List StdCounts)
  | lqReset (p : PortNo) (v : BitVec 8)
  | plantMapBuild (v : BitVec 8)
  | plantMapDone
  | ledLocateTick (q : QuadNo)
  | ledBlinkEnd (p : PortNo)
  | frameFromHost (p : PortNo) (f : HostFrame)
  | hostPauseEnd (p : PortNo)
  | hostLocalFaultRx (p : PortNo) (asserted : Bool)
  | pfcFrameSend (p : PortNo)
  | pfcRefresh (p : PortNo) (prio : Fin 8)
  | receiveFrame (p : PortNo) (f : LineFrame)
  | forwardToHost (p : PortNo)
  | hlLaneUp (h : LaneNo)
  | hlLaneFault (h : LaneNo)
  | hlForceFailWrite (h : LaneNo) (v : BitVec 8)
  | lsMarkerReceived (h : LaneNo) (block : BitVec 66) (inProgress : List PortNo)
  | hlMapWrite (p : PortNo) (entries : Bool) (v : BitVec 32)
  | hlPrbsGenWrite (h : LaneNo) (v : BitVec 8)
  | hlPrbsChkWrite (h : LaneNo) (v : BitVec 8)
  | pfcSettingWrite (p : PortNo) (which : PfcSetting) (v : BitVec 32)
  | fecLockChange (h : LaneNo) (signal fec am : Bool) (corrected uncorrected prbs : Nat)
  | timeSet (v : BitVec 96)
  | timeStep (v : BitVec 64)
  | timeSnapshot (v : BitVec 8)
  | timeServoInput (v : BitVec 64)
  | timeValidWrite (v : BitVec 8)
  | timeSourceWrite (mode : Bool) (v : BitVec 8)
  | servoInputTimeout
  | holdoverValidExpire
  | rootDisciplineWrite (v : BitVec 8)
  | trimResume
  | refInLost
  | ppsInEdge (edge : PpsEdge)
  | ppsOutPulse
  | ppsOutEnd
  | taPost (row : Nat) (v : BitVec 320) (path : Path) (src : BitVec 8)
  | taNone (row : Nat) (v : BitVec 320)
  | taWrite (row : Fin 256)
  | taCommit (row : Fin 256)
  | taMark (row : Fin 256)
  | taCancel (v : BitVec 16)
  | refInPresent
  | startDecision (p : PortNo) (pos : Nat) (ready : Bool)
  | expressDecision (p : PortNo) (pos : Nat) (ready : Bool)
  | launchReadComplete (p : PortNo) (frame : Nat) (r : ReadResult)
  | frameEndOnWire (p : PortNo)
  | queueHeadJudge (p : PortNo)
  | gateEdge (p : PortNo)
  | gateSwapExecute (p : PortNo)
  | qBlocksWrite (p : PortNo) (row : Nat) (v : BitVec 16)
  | qDefaultWrite (p : PortNo) (v : BitVec 16)
  | qFlush (p : PortNo) (v : BitVec 8)
  | qConfigWrite (p : PortNo) (row : Nat) (v : BitVec 128)
  | shaperWrite (which : ShaperSel) (v : BitVec 64)
  | shaperDebtEnd (which : ShaperSel)
  | gateEnableTrue (p : PortNo)
  | gateEnableFalse (p : PortNo)
  | gateSwapRequest (p : PortNo) (v : BitVec 8)
  | gateSwapCancel (p : PortNo)
  | mmEnableTrue (p : PortNo)
  | mmEnableFalse (p : PortNo)
  | mmVerifyTimer (p : PortNo)
  | mmVerifyReceived (p : PortNo) (respond : Bool)
  | mtrConfigWrite (row : Nat) (v : BitVec 128)
  | rxMeterRangeWrite (p : PortNo) (count : Bool) (v : BitVec 16)
  | admitCell (p : PortNo) (h : QcNo) (fill : WriteFill)
  | scrubRead (h : QcNo) (cell : Fin 65536) (found : ScrubFound)
  | scrubWriteback (h : QcNo) (cell : Fin 65536)
  | qcRetire (h : QcNo) (v : BitVec 8)
  | channelDrained (h : QcNo)
  | bufReevaluate (v : BitVec 8)
  | wlEnableWrite (w : Option WlNo) (v : BitVec 8)
  | wlHeaderLock (w : WlNo) (pos : Fin 66)
  | wlHeaderLockLost (w : WlNo) (invalid : Nat) (valid : Fin 65) (signal : Bool)
  | wlAligned (w : WlNo) (inverted : Bool)
  | wlSlip (w : WlNo) (v : BitVec 8)
  | wlHelloSend (w : WlNo)
  | hello (w : WlNo) (payload : BitVec 256)
  | wlHelloTimeout (w : WlNo)
  | wlSquelchEnd (w : WlNo)
  | wlQuietSearch (w : WlNo)
  | wlWakeSend (w : WlNo) (v : BitVec 8)
  | wlPacketReceived (w : WlNo) (words : List WlWord)
  | wlPacketTransmit (w : WlNo)
  | lsa (w : WlNo) (payload : List Octet)
  | lsaOriginate
  | lsaRefresh
  | lsaAgeOut (id : BitVec 64)
  | routeRecompute
  | waleConverged
  | addressPersist
  | sync
  | dreq
  | wcTs (w : WlNo) (kind : BitVec 8) (seq : BitVec 16) (frac : Fin 16)
  | time (w : WlNo) (payload : BitVec 192)
  | timeReportTimeout (w : WlNo) (dreq : Bool)
  | event (src : BitVec 8) (records : List (BitVec 256)) (outcomes : List OutcomeIn)
  | eventPacketSend (batch : EventBatch)
  | upsettTagWrite (v : BitVec 32)
  | statusClear (inst : BitVec 12) (miss : Bool) (v : BitVec 64)
  | dapRequest (via : DapVia) (octets : List Octet)
  | read (addr : BitVec 40) (row : BitVec 24) (held : Bool)
  | write (addr : BitVec 40) (row : BitVec 24) (value : List Octet) (path : Path) (src : BitVec 8)
  | describe (addr : BitVec 40) (row : BitVec 24)
  | dapResponseReceived (octets : List Octet)
  | registerWrite (addr : BitVec 40) (row : BitVec 24) (value : List Octet) (path : Path)
  | snapshot (inst : BitVec 12) (v : BitVec 8)
  | spiReadStatus
  | spiWriteReq (length : BitVec 16) (octets : List Octet) (crc : BitVec 32)
  | spiReadResp (complete : Bool)
  | mgmtAnComplete (negotiated : Bool)
  | mgmtSyncLoss (signal : Bool)
  | pwrRequestActive
  | pwrRequestStandby
  | pwrRequestOff
  | pwrDirectActive
  | pwrDirectStandby
  | pwrDirectOff
  | tileRequestRun (t : TileNo)
  | tileRequestSleep (t : TileNo)
  | handshakeAnswer (tile : Option TileNo) (block : Fin 11)
  | handshakeBoundExpire (tile : Option TileNo) (block : Fin 11)
  | powerEntryComplete (entry : EntryDone)
  | wakeSource (k : WakeKind) (boot : BootInputs)
  | wakeStepDone (tile : Option TileNo) (us : Nat) (kHz : BitVec 32)
  | wakeStepTimeout (tile : Option TileNo) (us : Nat)
  | plLowerTimer (t : TileNo)
  | plChangeComplete (t : TileNo)
  | tilePlWrite (t : TileNo) (set : Bool) (v : BitVec 8)
  | legacyGateWrite (v : BitVec 32)
  | clkswForce (d : Fin 60)
  | regulatorFailureInService (t : TileNo)
  | rootPllLockLoss (reference : Bool)
  | postStageEnd
  | bistTestDone (t : TestOn) (e : TestEnd) (found : List Finding)
  | bistSliceStart (t : SliceOn)
  | bistSliceEnd (t : SliceOn) (e : TestEnd) (found : List Finding)
  | bistRequest (v : BitVec 32)
  | foregroundGroupStart
  | foregroundCalDone (e : PeNo) (m : FgMeas)
  | calStart (e : PeNo) (v : BitVec 8)
  | calRoundStart (e : PeNo) (dac : Bool)
  | calVisitPhaseEnd (e : PeNo) (dac : Bool) (results matched : List (Quantity × Int))
  | calCorrectionUpdate (e : PeNo)
  | calRecordStore (e : PeNo)
  | imageWrite (row : Nat) (v : List Octet)
  | imageErase (v : BitVec 8)
  | imageVerify (v : BitVec 8)
  | imageVerifyDone
  | imageSelectNext (v : BitVec 8)
  | imageConfirm (v : BitVec 8)
  | ownerKeySubmit (v : BitVec 16)
  | ownerPolicySubmit (v : BitVec 16)
  | attestNonce (v : BitVec 256)
  | attestReportDone
  | cfgCandidateWrite (row : Nat) (v : List Octet)
  | cfgCapture (v : BitVec 8)
  | cfgLoadFactory (v : BitVec 8)
  | cfgCheck (v : BitVec 8)
  | cfgCheckDone
  | cfgCommit (v : BitVec 8)
  | cfgConfirm (v : BitVec 32)
  | cfgConfirmDeadline
  | cfgRollback (v : BitVec 8)
  | coalesceWindowClose (inst : Nat) (ev : EvName)
  | evReadCountWrite (v : BitVec 64)
  | thermSensorSample (t : TileNo) (temp lid : BitVec 16) (coreMv : BitVec 16) (mw : BitVec 32)
  | thermTrip (t : TileNo)
  | vinMonitor (mv : BitVec 16) (ma mw : BitVec 32)
deriving DecidableEq, Repr

end Sys2Proof
end

