-- ==== Sys2Proof/Decode.lean ====
section
/-!
DEFINITION. The decoder of table words. The table of operations and events gives no row any bits (its rows are accesses,
frames, pins and instants, and no words), so no word spells a command.
-/
set_option Elab.async false
namespace Sys2Proof

/-- The command that a word of `nbits` bits spells by the table's bits: no row of the table has any. -/
def decodeTableWord (_nbits _w : Nat) : Option Instr := none

end Sys2Proof
end

