-- ==== Sys2Proof/Config.lean ====
section
/-!
DEFINITION. What the spec leaves to the part, to its manufacture or to a standard it only cites: constants without a
body, so that no statement can rest on their values.
-/
set_option Elab.async false
namespace Sys2Proof

/-- The 8-bit SECDED check code of a coefficient-store row: which code it is is not stated (R109). -/
opaque Config.secded : BitVec 64 → BitVec 8

/-- A value the spec leaves open, one for every draw: a random nonce, a chosen epoch, an unstated number. -/
opaque Config.free : Nat → Nat

/-- Low octet of the code of an event (R400 states the groups and three codes only). -/
opaque Config.evLow : Nat → Octet

/-- Places of two values that a rule puts into one `EV_DATA` without stating them. -/
opaque Config.pack : Nat → Nat → Nat

/-- T_w of Clause 78 for a standard mode, by mode code, in ps; the clause is cited and not restated. -/
opaque Config.clauseTw : Nat → Nat

/-- The fixed low-pass reference filter of an alien-NEXT slot, by victim mode code: its output at a root edge for an input by root
edge; only its cut-off is stated (R123). -/
opaque Config.refFilter : Nat → (Nat → Int) → Nat → Int

/-- What a pair's DAC drives in a standard mode, by pair engine and root edge: the clauses are cited and not restated (R93, R121). -/
opaque Config.clauseDac : Nat → Nat → Int

/-- Coefficient of a reflectogram's row, as S0.15, from the copied echo, replica and gain words, the mode code and the pair engine, whose
hybrid's calibrated response it holds: the computation is not stated (R167, R168). -/
opaque Config.reflRow : List Nat → Nat → Nat → Nat → BitVec 16

/-- Row of a reflectogram that lies at the origin, by mode code and pair engine: its computation is not stated (R168). -/
opaque Config.reflOrigin : Nat → Nat → Nat

/-- The factory slath sets, by class, mode code and store word: they are held in the boot image, and their values are not
stated (R76, Table 4-9). -/
opaque Config.slath : Nat → Nat → Nat → BitVec 16

/-- Whether an external clock (D56, D59) has edges, by root edge and domain: it is as supplied (Table 14-1). -/
opaque Config.extClock : Nat → Nat → Bool

/-- A recorded delay corrected for a junction temperature by the factory coefficients of the boot image, in ps (R363). -/
opaque Config.delayAt : Nat → Int → Nat

/-- Which event a row of `EV_CODES` lists, as a place in the list of events: the order is set at manufacture (R400). -/
opaque Config.evRow : Nat → Nat

/-- The image of manufacture in slot A, octet by octet: its contents are not stated (R378). -/
opaque Config.shipped : Nat → Octet

/-- Whether automatic gating has stopped a domain, by root edge and domain (R333): when a block has work is not stated. -/
opaque Config.autoGated : Nat → Nat → Bool

/-- Whether a figure that is not whole, and whose rounding is not stated, is rounded up. -/
opaque Config.roundUp : Nat → Bool

/-- `DEVICE_ID`, set at manufacture (Table 13-12). -/
opaque Config.deviceId : BitVec 64
/-- `VENDOR_OUI`, the maker's identifier (Table 13-12). -/
opaque Config.vendorOui : BitVec 24
/-- `PART_NUMBER` is "OVF-S512-MX" instead of "OVF-S512-MC" (Table 13-12). -/
opaque Config.partMX : Bool
/-- `SERIAL_NUMBER`, set at manufacture. -/
opaque Config.serialNumber : BitVec 128
/-- `DEVICE_PUBKEY`, set at manufacture. -/
opaque Config.devicePubkey : List Octet
/-- `DEVICE_CERT`, set at manufacture. -/
opaque Config.deviceCert : List Octet
/-- The four maker's image keys (R380). -/
opaque Config.milholtKey : Nat → List Octet

/-- SHAKE256 with an output of 64 octets; its standard is cited and not restated. -/
opaque Config.shake256 : List Octet → BitVec 512
/-- ML-DSA-65 verification: public key, message, signature; its standard is cited and not restated. -/
opaque Config.mldsaVerify : List Octet → List Octet → List Octet → Bool
/-- ML-DSA-65 signing with the device key. -/
opaque Config.mldsaSign : List Octet → List Octet

end Sys2Proof
end

