-- ==== Sys2Proof/Machine/Operands.lean ====
section
/-!
DEFINITION. The operand forms: bit fields of a value, signed reading, octet lists in the device's order (most
significant octet first, R5), and the checksums of R36, R38, R113 and R277.
-/
set_option Elab.async false
namespace Sys2Proof.Machine

/-- The field `hi` down to `lo` of a value. -/
def bits (v hi lo : Nat) : Nat := (v >>> lo) % 2 ^ (hi + 1 - lo)

/-- The value with field `hi` down to `lo` replaced. -/
def setBits (v hi lo x : Nat) : Nat :=
  (v >>> (hi + 1)) <<< (hi + 1) ||| (x % 2 ^ (hi + 1 - lo)) <<< lo ||| v % 2 ^ lo

/-- One bit of a value. -/
def bit (v i : Nat) : Bool := v.testBit i

/-- The value with one bit set or cleared. -/
def withBit (v i : Nat) (b : Bool) : Nat := setBits v i i (if b then 1 else 0)

/-- One bit as a number. -/
def b2n (b : Bool) : Nat := if b then 1 else 0

/-- The signed reading of a raw value of `w` bits. -/
def toInt (w v : Nat) : Int := if v.testBit (w - 1) then (v : Int) - 2 ^ w else v

/-- The raw value of `w` bits of a signed number. -/
def ofInt (w : Nat) (x : Int) : Nat := (x % (2 ^ w : Int)).toNat

/-- The number that octets spell, most significant first (R5). -/
def octetsToNat (l : List Octet) : Nat := l.foldl (fun a o => a * 256 + o.toNat) 0

/-- The octets of a number, most significant first (R5). -/
def natToOctets : Nat → Nat → List Octet
  | 0, _ => []
  | n + 1, v => BitVec.ofNat 8 (v / 256 ^ n) :: natToOctets n v

/-- `n` octets of a list from octet `i` on, padded with zero octets. -/
def octs (l : List Octet) (i n : Nat) : List Octet :=
  let t := (l.drop i).take n
  t ++ List.replicate (n - t.length) 0

/-- The big-endian number in `n` octets from octet `i` on. -/
def octNat (l : List Octet) (i n : Nat) : Nat := octetsToNat (octs l i n)

/-- The field of a row value of `total` octets held as a number: `n` octets from octet `i` on. -/
def rowField (total v i n : Nat) : Nat := bits v (8 * (total - i) - 1) (8 * (total - i - n))

/-- The row value with `n` octets from octet `i` on replaced. -/
def setRowField (total v i n x : Nat) : Nat := setBits v (8 * (total - i) - 1) (8 * (total - i - n)) x

/-- Floor of a quotient of integers by a positive number. -/
def idiv (a : Int) (b : Nat) : Int := Int.fdiv a b

/-- Quotient rounded up. -/
def cdiv (a b : Nat) : Nat := if b = 0 then 0 else (a + b - 1) / b

/-- Bits of a number, least significant first. -/
def natBits : Nat → Nat → List Bool
  | 0, _ => []
  | n + 1, v => (v % 2 = 1) :: natBits n (v / 2)

/-- The number whose bits, least significant first, are given. -/
def bitsNat (l : List Bool) : Nat := l.foldr (fun b a => a * 2 + (if b then 1 else 0)) 0

/-- The bits of an octet, least significant first. -/
def octetBits (o : Octet) : List Bool := natBits 8 o.toNat

/-- Least common rule of the reflected 32-bit check: one bit through the register, polynomial 0xEDB8_8320. -/
def crc32Bit (c : Nat) (b : Bool) : Nat :=
  let f := (c % 2 = 1) != b
  if f then (c / 2) ^^^ 0xEDB88320 else c / 2

/-- The CRC-32 of R113: the 802.3 frame check over the octets, each least significant bit first. -/
def crc32 (l : List Octet) : Nat :=
  (l.foldl (fun c o => (octetBits o).foldl crc32Bit c) 0xFFFFFFFF) ^^^ 0xFFFFFFFF

/-- One bit through an unreflected CRC register of `w` bits. -/
def crcBit (w poly c : Nat) (b : Bool) : Nat :=
  let f := c.testBit (w - 1) != b
  let c' := (c * 2) % 2 ^ w
  if f then c' ^^^ poly else c'

/-- An unreflected CRC over bits in the order given. -/
def crcBits (w poly init : Nat) (l : List Bool) : Nat := l.foldl (crcBit w poly) init

end Sys2Proof.Machine
end

