-- ==== Sys2Proof/Machine/Reg.lean ====
section
/-!
DEFINITION. The objects of the dictionary: one name per object of the chapters' object tables (R7, R305), with the
class, index, subindex, type, access class, persistence, default and directly writable range that its row states.
-/
set_option Elab.async false
namespace Sys2Proof.Machine

/-- Instance classes of Table 0-4 (R8). -/
inductive Cls where
  | dev | tile | quad | port | pe | wl | mgmt | spi | hlane | qc
deriving DecidableEq, Repr

/-- First instance number of a class (Table 0-4). -/
def Cls.base : Cls → Nat
  | .dev => 0x000 | .tile => 0x010 | .quad => 0x100 | .port => 0x200 | .pe => 0x400
  | .wl => 0x800 | .mgmt => 0x810 | .spi => 0x811 | .hlane => 0x900 | .qc => 0xA00

/-- Number of instances of a class (Table 0-4). -/
def Cls.count : Cls → Nat
  | .dev => 1 | .tile => 16 | .quad => 128 | .port => 512 | .pe => 512
  | .wl => 6 | .mgmt => 1 | .spi => 1 | .hlane => 256 | .qc => 136

/-- Value types of Table 13-2; for a TABLE, the type of one row. -/
inductive Ty where
  | u8 | u16 | u32 | u64 | s16 | s32 | s64 | bool | bits16 | bits32 | bits64 | time96 | octets | string
deriving DecidableEq, Repr

/-- Type codes of Table 13-2. -/
def Ty.code : Ty → Nat
  | .u8 => 0x01 | .u16 => 0x02 | .u32 => 0x03 | .u64 => 0x04 | .s16 => 0x06 | .s32 => 0x07 | .s64 => 0x08
  | .bool => 0x09 | .bits16 => 0x0A | .bits32 => 0x0B | .bits64 => 0x0C | .time96 => 0x0D | .octets => 0x0E
  | .string => 0x0F

/-- Whether values of the type are signed. -/
def Ty.signed : Ty → Bool
  | .s16 | .s32 | .s64 => true
  | _ => false

/-- Access classes of Table 13-3. -/
inductive Acc where
  | ro | rw | wo | const | rws | sc
deriving DecidableEq, Repr

/-- Access codes of Table 13-3. -/
def Acc.code : Acc → Nat
  | .ro => 0 | .rw => 1 | .wo => 2 | .const => 3 | .rws => 4 | .sc => 5

/-- Persistence of an object (R309); `none` where its row states none. -/
inductive Pers where
  | volatile | persistent | nonVolatile | none
deriving DecidableEq, Repr

/-- What one row of an object table states about the object. `rows` is 0 for an object that is no table; `octets` is the
width of a value; `fields`, where the row reserves bits, has a 1 for every bit that is not reserved; `range` bounds the
accepted values where they are not the whole type. -/
structure RegInfo where
  cls : Cls
  idx : Nat
  sub : Nat
  ty : Ty
  rows : Nat
  octets : Nat
  acc : Acc
  pers : Pers
  dflt : Nat
  fields : Option Nat
  range : Option (Int × Int)
  counter : Bool
deriving DecidableEq, Repr

/-- The objects, by the names of the object tables. Objects that several classes hold carry the class as a suffix. -/
inductive Reg where
  | QUAD_FORMATION | PORT_MODE | PORT_ENABLE | PORT_ABILITY | PORT_MODE_ACTIVE | PORT_PAIRS_ACTIVE | PORT_LANE_MAP
  | PORT_PAIR_DOWNSHIFT | PORT_MIN_PAIRS | PORT_PAYLOAD_RATE | PE_TX_SCR_SEED | PE_RX_SCR_SEED | PE_TX_LANE
  | PE_RX_LANE | PE_LANE_STATUS | PE_RX_SKEW | AN_STATUS | AN_PARTNER_ABILITY | AN_PARTNER_WA | MS_CONFIG | MS_RESULT
  | PAUSE_ADV | LINK_STATE | LINK_UP | TRAIN_SOURCE | TRAIN_CLASS | TRAIN_TIME | LINK_EPOCH | TRAIN_RESTART
  | DOWNSHIFT_ENABLE | DOWNSHIFT_ATTEMPTS | DOWNSHIFT_CEILING | AUXCRC_LIMIT | LINK_DOWN_CAUSE | TRAIN_CLASS_GATE
  | FAST_RETRAIN_ENABLE | TIME_LAST_UP | T3_MARGIN_MIN | TRAIN_COUNT | TRAIN_FAIL_COUNT | FAST_COUNT
  | FAST_FAIL_COUNT | LINK_DOWN_COUNT | PE_TRAIN_PHASE | PE_TRAIN_STATUS | PE_T3_MARGIN | TX_PIPE_DELAY | PE_SNR
  | PE_MARGIN | PE_ECHO_RESIDUAL | PE_PGA_GAIN | PE_TIMING_PHASE | PE_FREQ_OFFSET | PE_LDPC_ITER_LIMIT
  | PE_LDPC_ITER_MEAN | PE_TX_BACKOFF | PE_COEF | PE_COEF_FREEZE | PE_CAPTURE_TRIGGER | PE_CAPTURE
  | PE_PRECODER_APPLIED | PE_PRECODER_ABANDONED | PE_STORE_STATUS | PE_STORE_SEC_COUNT | PE_STORE_DED_COUNT
  | PE_RX_PIPE_DELAY | ANC_ADMIT | ANC_DROP | ANC_SCAN_PERIOD | ANC_HOLD_TIME | ANC_MAP_PERSIST | ANC_MAP_CLEAR
  | ANC_MAP_STATUS | ANC_MAP_VERSION | WEAVE_MAP | ANC_ENABLE | ANC_SLOT | ANC_STATUS | ANC_GAIN | ANC_PASS_COUNT
  | ANC_ADMIT_COUNT | ANC_DROP_COUNT | ANC_DISCARD_COUNT | LPI_ENABLE | LPI_WAKE_GUARD | LPI_MIN_QUIET
  | LPI_REFRESH_MIN_MARGIN | LPI_STATE | LPI_STATUS | LPI_WAKE_TIME | LPI_NEXT_WAKE | LPI_ENTRY_COUNT
  | LPI_QUIET_TIME | LPI_WAKE_TIMED_COUNT | LPI_WAKE_PARTNER_COUNT | LPI_WAKE_OTHER_COUNT | LPI_LATE_WAKE_COUNT
  | LPI_REFRESH_FAIL_COUNT | PE_LPI_REFRESH_MARGIN | PLANT_ADJ_MIN | PLANT_MAP_BUILD | PLANT_MAP | PLANT_MAP_ROWS
  | PLANT_MAP_VERSION | LED_ENABLE | LED_CONFIG | LED_LOCATE | TDR_START | TDR_STATUS | TDR_NVP | TDR_ORIGIN
  | CABLE_FINGERPRINT | CABLE_FP_STORED | REFLECT_WATCH_PERIOD | REFLECT_ALARM | LQ_MARGIN_WARN | LQ_UNCORR_WARN
  | LQ_STATUS | LQ_RESET | SKEW_SPAN | SKEW_SPAN_MAX | TDR_RESULT | TDR_FAULT | TDR_FAULT_DIST | TDR_NOISE | CW_COUNT
  | CW_CORRECTED | CW_UNCORRECTABLE | CW_AUXCRC_FAIL | BITS_CORRECTED | MGMT_DISCARD | LDPC_ITER_HIST | REALIGN_COUNT
  | PE_MARGIN_MIN | PE_MARGIN_MAX | LOW_MARGIN_TIME | SYMBOL_ERR_COUNT | REFLECT_TRIGGER | REFLECTOGRAM | REFLECT_BIN
  | REFLECT_ORIGIN | REFLECT_CHANGE_DIST | HL_AUTO_REMAP | TAG_GRACE | HOST_PAUSE_HONOUR | HL_MAP | HL_ENTRIES
  | HL_MAP_ACTIVE | HL_CAPACITY | HL_PORT_STATUS | TX_TAG_ENABLE | RX_TAG_ENABLE | TX_TAG_MALFORMED | TX_QUEUE_MISS
  | HOST_RX_ERROR | MAC_CTRL_DISCARD | RX_FIFO_DROP | RX_MAX_FRAME | RX_OVERSIZE | PFC_ENABLE | PFC_PRIORITY_MAP
  | PFC_HEADROOM | PFC_QUANTA | PFC_STATUS | PFC_FRAME_COUNT | HL_STATUS | HL_POLARITY | HL_TX_EQ | HL_FORCE_FAIL
  | HL_PRBS_GEN | HL_PRBS_CHK | HL_PRBS_ERR | HL_FEC_CORRECTED | HL_FEC_UNCORR | HL_LS_MARKER_ERR | HL_FAULT_COUNT
  | TIME_NOW | TIME_SNAPSHOT | TIME_SNAPSHOT_VALUE | TIME_SET | TIME_STEP | TIME_RATE_ADJ | TIME_VALID | TIME_SOURCE
  | TIME_SERVO_MODE | TIME_SERVO_STATE | TIME_SERVO_INPUT | TIME_STEP_THRESHOLD | TIME_VALID_LIMIT
  | TIME_INPUT_TIMEOUT | TIME_HOLDOVER_VALID | TIME_OFFSET_LAST | TIME_FREQ_CORR | TIME_LAST_STEP | TIME_STEP_COUNT
  | ROOT_DISCIPLINE | ROOT_LINE_PORT | ROOT_TRIM | ROOT_STATUS | REF_IN_FREQ | PPS_IN_POLARITY | PPS_IN_DELAY
  | PPS_IN_TIME | PPS_IN_COUNT | PPS_OUT_MODE | PPS_OUT_OFFSET | PPS_OUT_WIDTH | TA_TABLE | TA_CANCEL
  | TA_LATE_WINDOW_DEFAULT | TA_ARMED_COUNT | TA_LATE_COUNT | TA_REFUSED_COUNT | TA_FAILED_COUNT | PTP_ENABLE
  | PTP_TX_MODE | PTP_RX_CORRECT | PTP_CORRECT_MASK | PTP_TX_DEFAULT | TS_MSG_OFFSET | TS_STATUS | TS_REF_PE
  | TX_TS_REPORT | TX_TS_SEQ | PTP_RX_COUNT | PTP_TX_COUNT | PTP_MODIFIED_COUNT | PTP_MALFORMED | Q_BLOCK_OWNER
  | Q_BLOCKS | Q_DEFAULT | Q_FLUSH | Q_OOO_COUNT | Q_CONFIG | Q_COUNTERS | SVC_CONFIG | SVC_COUNTERS | FLOW_SHAPER
  | FLOW_SHAPER_STATE | SVC_SHAPER | SVC_SHAPER_STATE | PORT_SHAPER | PORT_SHAPER_STATE | SHAPER_OVERHEAD
  | GATE_ENABLE | GATE_SWAP | GATE_STATUS | GATE_SWAP_TIME | GATE_OVERRUN_COUNT | GCL0_BASE | GCL0_CYCLE
  | GCL0_LENGTH | GCL0_ENTRY | GCL1_BASE | GCL1_CYCLE | GCL1_LENGTH | GCL1_ENTRY | MM_ENABLE | MM_VERIFY_TIME
  | MM_ADD_FRAG_SIZE | MM_STATUS | MM_FRAG_TX | MM_FRAG_RX | MM_ASSEMBLY_OK | MM_ASSEMBLY_ERR | MM_SMD_ERR
  | MTR_CONFIG | MTR_COUNTS | RX_FLOW_SELECT | RX_METER_BASE | RX_METER_COUNT | RX_RED_DISCARD | BUF_STATUS
  | BUF_ACTIVE_CHANNELS | BUF_CELLS_TOTAL | BUF_CELLS_FREE | BUF_DELIVERABLE | BUF_DEMAND | BUF_COMMIT_REASON
  | BUF_MISS_STATUS | BUF_REEVALUATE | BUF_EXCESS_FLOOR | BUF_SCRUB_PERIOD | BUF_CE_LIMIT | BUF_DESC_FREE
  | PORT_BUF_LIMIT | PORT_BUF_OCC | SVC_BUF | SVC_BUF_STATE | QC_STATE | QC_CE_COUNT | QC_UE_COUNT | QC_RETIRE
  | QC_REPLACED_BY | WALE_ENABLE | WALE_ROOT_PRIORITY | WALE_ADDR_REQUEST | WALE_ADDRESS | WALE_ROOT_ID
  | WALE_ROOT_DISTANCE | WALE_UPSTREAM | WALE_STATUS | WALE_DEVICE_COUNT | WALE_LSDB | WALE_ROUTES
  | WALE_SYNC_INTERVAL | WALE_DELAY_INTERVAL | WALE_EVENT_DEST | WALE_EVENT_MIN | WALE_NO_ROUTE | WALE_ADDR_CHANGES
  | WALE_LSA_SEQ | WL_ENABLE | WL_STATE | WL_STATUS | WL_SLIP_MODE | WL_SLIP | WL_SLIP_POS | WL_HDR_VALID
  | WL_TX_INVERT | WL_TX_EQ | WL_COST | WL_DELAY_ASYM | WL_LINK_DELAY | WL_PARTNER_ID | WL_PARTNER_PORT
  | WL_WAKE_SEND | WL_HDR_ERR | WL_CRC_ERR | WL_DROP | WL_TX_PACKETS | WL_RX_PACKETS | WL_LINK_DOWN_COUNT | DEVICE_ID
  | PART_NUMBER | MODULE_REVISION | VENDOR_OUI | SERIAL_NUMBER | DICT_VERSION | SNAPSHOT_DEV | SNAPSHOT_PORT
  | SNAPSHOT_HLANE | SNAPSHOT_WL | SNAPSHOT_QC | SNAPSHOT_MGMT | SNAPSHOT_SPI | SNAP_TIME_DEV | SNAP_TIME_PORT
  | SNAP_TIME_HLANE | SNAP_TIME_WL | SNAP_TIME_QC | SNAP_TIME_MGMT | SNAP_TIME_SPI | SNAP_STATUS_DEV
  | SNAP_STATUS_PORT | SNAP_STATUS_HLANE | SNAP_STATUS_WL | SNAP_STATUS_QC | SNAP_STATUS_MGMT | SNAP_STATUS_SPI
  | EV_STATUS_DEV | EV_STATUS_TILE | EV_STATUS_QUAD | EV_STATUS_PORT | EV_STATUS_PE | EV_STATUS_WL | EV_STATUS_MGMT
  | EV_STATUS_SPI | EV_STATUS_HLANE | EV_STATUS_QC | DAP_MAC | DAP_ETHERTYPE | DAP_HOST_ENABLE | DAP_REQUESTS
  | DAP_MALFORMED | DAP_REPLAYS | DAP_RELAYED | DAP_LINE_ENABLE | MGMT_ENABLE | MGMT_AN_ENABLE | MGMT_STATUS
  | MGMT_RX_DISCARD | SPI_STATUS | SPI_CRC_ERR | PWR_REQUEST | PWR_STATUS | PWR_DIRECT | PWR_TEST_MODE | PWR_REFUSE
  | PWR_REFUSE_COUNT | PWR_TRANSITION_COUNT | WAKE_SOURCES | WAKE_LINE_QUAL | WAKE_WALE_QUAL | WAKE_CAUSE | WAKE_TIME
  | WAKE_STEP_FAIL | TILE_STATE | TILE_REQUEST | TILE_PL_MODE | TILE_PL_SET | TILE_PL_ACTIVE | TILE_PWR_STATUS
  | TILE_REG_FAIL_COUNT | CLK_DOMAIN | LEGACY_GATE | CLKSW_FORCED_COUNT | FRO_FREQ | CAL_ENABLE | CAL_STORE_PERIOD
  | CAL_STATUS | CAL_WALE_DELAY | CAL_START | CAL_PE_STATUS | CAL_RECORD | CAL_RECORD_STORED | CAL_VISIT_COUNT
  | CAL_REJECT_COUNT | CAL_ROUND_TIME | POST_SELECT | POST_SUMMARY | POST_TIME | BIST_INSERVICE_ENABLE
  | BIST_SLICE_TIME | BIST_SLICE_INTERVAL | BIST_REQUEST | BIST_LOG | BIST_LOG_COUNT | SCHED_QUAD_STATE
  | BIST_SLICE_COUNT | BIST_INCOMPLETE_COUNT | BIST_STATE_TILE | BIST_STATE_PE | BIST_STATE_HLANE | BIST_STATE_WL
  | BIST_STATE_QC | BIST_LAST_TILE | BIST_LAST_PE | BIST_LAST_HLANE | BIST_LAST_WL | BIST_LAST_QC | BOOT_STATUS
  | RESET_CAUSE | DEVICE_RESET | START_TIME | BOOT_PREFER | ANTI_ROLLBACK | MILHOLT_KEY_REVOKED | IMAGE_INFO
  | IMAGE_WRITE | IMAGE_ERASE | IMAGE_VERIFY | IMAGE_SELECT_NEXT | IMAGE_CONFIRM | OWNER_KEY_ID | OWNER_KEY_STAGE
  | OWNER_KEY_SUBMIT | OWNER_SEQ | OWNER_POLICY_STAGE | OWNER_POLICY_SUBMIT | PROT_MAP | PROT_MAP_DIGEST
  | DEVICE_PUBKEY | DEVICE_CERT | DEVICE_CERT_LENGTH | ATTEST_NONCE | ATTEST_REPORT | ATTEST_STATUS | CFG_CANDIDATE
  | CFG_CHECK | CFG_CHECK_RESULT | CFG_COMMIT | CFG_COMMIT_REASON | CFG_COMMIT_DETAIL | CFG_CONFIRM | CFG_ROLLBACK
  | CFG_CAPTURE | CFG_LOAD_FACTORY | CFG_CONFIRM_TIMEOUT | CFG_STATE | CFG_SLOTS | CFG_DEADLINE | CFG_REVERT_COUNT
  | UPSETT_TAG | UPSETT_REPORT | EV_RING | EV_WRITE_COUNT | EV_READ_COUNT | EV_FILL | EV_RING_MODE
  | EV_COALESCE_WINDOW | EV_DROP | EV_COALESCED_COUNT | EV_OVERWRITTEN | EV_OVERFLOW | EV_PENDING_MAP | EV_CODES
  | INT_ENABLE | INT_FILL_LEVEL | FAULT_ENABLE | FAULT_STATUS | WDT_TIMEOUT | WDT_RESTART_COUNT | VIN_VOLTAGE
  | VIN_CURRENT | VIN_POWER | LID_TEMP | THERM_WARN | MON_STATUS | TEMP_PEAK | TILE_TEMP | TILE_CORE_V | TILE_POWER
deriving DecidableEq, Repr, Ord

/-- The row of no object: what a chapter's table answers for an object of another chapter. -/
def RegInfo.absent : RegInfo := ⟨.dev, 0, 0, .u8, 0, 1, .ro, .none, 0, .none, .none, false⟩

/-- Objects of chapter 2: the rows of its object tables. -/
def Reg.info02 : Reg → RegInfo
  | .QUAD_FORMATION => ⟨.quad, 0x6000, 0x01, .u8, 0, 1, .rws, .persistent, 0, .none, (some (0, 2)), false⟩
  | .PORT_MODE => ⟨.port, 0x6000, 0x01, .u8, 0, 1, .rw, .persistent, 0, .none, .none, false⟩
  | .PORT_ENABLE => ⟨.port, 0x6000, 0x02, .bool, 0, 1, .rw, .persistent, 1, .none, (some (0, 1)), false⟩
  | .PORT_ABILITY => ⟨.port, 0x6000, 0x03, .bits16, 0, 2, .rw, .persistent, 0, (some 0x77f), .none, false⟩
  | .PORT_MODE_ACTIVE => ⟨.port, 0x6000, 0x04, .u8, 0, 1, .ro, .volatile, 255, .none, .none, false⟩
  | .PORT_PAIRS_ACTIVE => ⟨.port, 0x6000, 0x05, .u8, 0, 1, .ro, .volatile, 0, .none, .none, false⟩
  | .PORT_LANE_MAP => ⟨.port, 0x6000, 0x06, .bits16, 0, 2, .ro, .volatile, 0, .none, .none, false⟩
  | .PORT_PAIR_DOWNSHIFT => ⟨.port, 0x6000, 0x07, .bool, 0, 1, .rw, .persistent, 1, .none, (some (0, 1)), false⟩
  | .PORT_MIN_PAIRS => ⟨.port, 0x6000, 0x08, .u8, 0, 1, .rw, .persistent, 1, .none, (some (1, 4)), false⟩
  | .PORT_PAYLOAD_RATE => ⟨.port, 0x6000, 0x09, .u32, 0, 4, .ro, .volatile, 0, .none, .none, false⟩
  | .PE_TX_SCR_SEED => ⟨.pe, 0x6000, 0x01, .u64, 0, 8, .rw, .persistent, 0x155555555555000, (some 0x3ffffffffffffff), .none, false⟩
  | .PE_RX_SCR_SEED => ⟨.pe, 0x6000, 0x02, .u64, 0, 8, .ro, .volatile, 0, .none, .none, false⟩
  | .PE_TX_LANE => ⟨.pe, 0x6000, 0x03, .u8, 0, 1, .ro, .volatile, 255, .none, .none, false⟩
  | .PE_RX_LANE => ⟨.pe, 0x6000, 0x04, .u8, 0, 1, .ro, .volatile, 255, .none, .none, false⟩
  | .PE_LANE_STATUS => ⟨.pe, 0x6000, 0x05, .bits16, 0, 2, .ro, .volatile, 0, .none, .none, false⟩
  | .PE_RX_SKEW => ⟨.pe, 0x6000, 0x06, .s16, 0, 2, .ro, .volatile, 0, .none, .none, false⟩
  | _ => .absent

/-- Objects of chapter 3: the rows of its object tables. -/
def Reg.info03 : Reg → RegInfo
  | .AN_STATUS => ⟨.port, 0x6000, 0x10, .bits16, 0, 2, .ro, .volatile, 0, .none, .none, false⟩
  | .AN_PARTNER_ABILITY => ⟨.port, 0x6000, 0x11, .bits16, 0, 2, .ro, .volatile, 0, .none, .none, false⟩
  | .AN_PARTNER_WA => ⟨.port, 0x6000, 0x12, .u32, 0, 4, .ro, .volatile, 0, .none, .none, false⟩
  | .MS_CONFIG => ⟨.port, 0x6000, 0x13, .u8, 0, 1, .rw, .persistent, 0, .none, (some (0, 3)), false⟩
  | .MS_RESULT => ⟨.port, 0x6000, 0x14, .u8, 0, 1, .ro, .volatile, 0, .none, .none, false⟩
  | .PAUSE_ADV => ⟨.port, 0x6000, 0x15, .u8, 0, 1, .rw, .persistent, 0, (some 0x3), .none, false⟩
  | .LINK_STATE => ⟨.port, 0x6100, 0x01, .u8, 0, 1, .ro, .volatile, 0, .none, .none, false⟩
  | .LINK_UP => ⟨.port, 0x6100, 0x02, .bool, 0, 1, .ro, .volatile, 0, .none, (some (0, 1)), false⟩
  | .TRAIN_SOURCE => ⟨.port, 0x6100, 0x03, .u8, 0, 1, .ro, .volatile, 0, .none, .none, false⟩
  | .TRAIN_CLASS => ⟨.port, 0x6100, 0x04, .u8, 0, 1, .ro, .volatile, 0, .none, .none, false⟩
  | .TRAIN_TIME => ⟨.port, 0x6100, 0x05, .u32, 0, 4, .ro, .volatile, 0, .none, .none, false⟩
  | .LINK_EPOCH => ⟨.port, 0x6100, 0x06, .u16, 0, 2, .ro, .volatile, 0, .none, .none, false⟩
  | .TRAIN_RESTART => ⟨.port, 0x6100, 0x07, .u8, 0, 1, .sc, .volatile, 0, .none, (some (0, 3)), false⟩
  | .DOWNSHIFT_ENABLE => ⟨.port, 0x6100, 0x08, .bool, 0, 1, .rw, .persistent, 1, .none, (some (0, 1)), false⟩
  | .DOWNSHIFT_ATTEMPTS => ⟨.port, 0x6100, 0x09, .u8, 0, 1, .rw, .persistent, 2, .none, (some (1, 8)), false⟩
  | .DOWNSHIFT_CEILING => ⟨.port, 0x6100, 0x0A, .u8, 0, 1, .ro, .volatile, 255, .none, .none, false⟩
  | .AUXCRC_LIMIT => ⟨.port, 0x6100, 0x0B, .u16, 0, 2, .rw, .persistent, 16, .none, (some (1, 1024)), false⟩
  | .LINK_DOWN_CAUSE => ⟨.port, 0x6100, 0x0C, .u8, 0, 1, .ro, .volatile, 0, .none, .none, false⟩
  | .TRAIN_CLASS_GATE => ⟨.port, 0x6100, 0x0D, .bool, 0, 1, .rw, .persistent, 1, .none, (some (0, 1)), false⟩
  | .FAST_RETRAIN_ENABLE => ⟨.port, 0x6100, 0x0E, .bool, 0, 1, .rw, .persistent, 1, .none, (some (0, 1)), false⟩
  | .TIME_LAST_UP => ⟨.port, 0x6100, 0x0F, .time96, 0, 12, .ro, .volatile, 0, .none, .none, false⟩
  | .T3_MARGIN_MIN => ⟨.port, 0x6100, 0x10, .s16, 0, 2, .ro, .volatile, 0, .none, .none, false⟩
  | .TRAIN_COUNT => ⟨.port, 0x6100, 0x11, .u32, 0, 4, .ro, .volatile, 0, .none, .none, true⟩
  | .TRAIN_FAIL_COUNT => ⟨.port, 0x6100, 0x12, .u32, 0, 4, .ro, .volatile, 0, .none, .none, true⟩
  | .FAST_COUNT => ⟨.port, 0x6100, 0x13, .u32, 0, 4, .ro, .volatile, 0, .none, .none, true⟩
  | .FAST_FAIL_COUNT => ⟨.port, 0x6100, 0x14, .u32, 0, 4, .ro, .volatile, 0, .none, .none, true⟩
  | .LINK_DOWN_COUNT => ⟨.port, 0x6100, 0x15, .u32, 0, 4, .ro, .volatile, 0, .none, .none, true⟩
  | .PE_TRAIN_PHASE => ⟨.pe, 0x6100, 0x01, .u8, 0, 1, .ro, .volatile, 0, .none, .none, false⟩
  | .PE_TRAIN_STATUS => ⟨.pe, 0x6100, 0x02, .bits16, 0, 2, .ro, .volatile, 0, .none, .none, false⟩
  | .PE_T3_MARGIN => ⟨.pe, 0x6100, 0x03, .s16, 0, 2, .ro, .volatile, 0, .none, .none, false⟩
  | _ => .absent

/-- Objects of chapter 4: the rows of its object tables. -/
def Reg.info04 : Reg → RegInfo
  | .TX_PIPE_DELAY => ⟨.port, 0x6200, 0x01, .u32, 0, 4, .ro, .volatile, 0, .none, .none, false⟩
  | .PE_SNR => ⟨.pe, 0x6200, 0x01, .s16, 0, 2, .ro, .volatile, 0, .none, .none, false⟩
  | .PE_MARGIN => ⟨.pe, 0x6200, 0x02, .s16, 0, 2, .ro, .volatile, 0, .none, .none, false⟩
  | .PE_ECHO_RESIDUAL => ⟨.pe, 0x6200, 0x03, .s16, 0, 2, .ro, .volatile, 0, .none, .none, false⟩
  | .PE_PGA_GAIN => ⟨.pe, 0x6200, 0x04, .u16, 0, 2, .ro, .volatile, 0, .none, .none, false⟩
  | .PE_TIMING_PHASE => ⟨.pe, 0x6200, 0x05, .u16, 0, 2, .ro, .volatile, 0, .none, .none, false⟩
  | .PE_FREQ_OFFSET => ⟨.pe, 0x6200, 0x06, .s32, 0, 4, .ro, .volatile, 0, .none, .none, false⟩
  | .PE_LDPC_ITER_LIMIT => ⟨.pe, 0x6200, 0x07, .u8, 0, 1, .rw, .persistent, 0, .none, (some (0, 16)), false⟩
  | .PE_LDPC_ITER_MEAN => ⟨.pe, 0x6200, 0x08, .u16, 0, 2, .ro, .volatile, 0, .none, .none, false⟩
  | .PE_TX_BACKOFF => ⟨.pe, 0x6200, 0x09, .u8, 0, 1, .rw, .persistent, 0, .none, (some (0, 12)), false⟩
  | .PE_COEF => ⟨.pe, 0x6200, 0x0A, .u16, 8192, 2, .ro, .volatile, 0, .none, .none, false⟩
  | .PE_COEF_FREEZE => ⟨.pe, 0x6200, 0x0B, .bool, 0, 1, .rws, .volatile, 0, .none, (some (0, 1)), false⟩
  | .PE_CAPTURE_TRIGGER => ⟨.pe, 0x6200, 0x0C, .u8, 0, 1, .sc, .volatile, 0, .none, (some (0, 2)), false⟩
  | .PE_CAPTURE => ⟨.pe, 0x6200, 0x0D, .s16, 1024, 2, .ro, .volatile, 0, .none, .none, false⟩
  | .PE_PRECODER_APPLIED => ⟨.pe, 0x6200, 0x0E, .u32, 0, 4, .ro, .volatile, 0, .none, .none, true⟩
  | .PE_PRECODER_ABANDONED => ⟨.pe, 0x6200, 0x0F, .u32, 0, 4, .ro, .volatile, 0, .none, .none, true⟩
  | .PE_STORE_STATUS => ⟨.pe, 0x6200, 0x10, .bits16, 0, 2, .ro, .volatile, 0, .none, .none, false⟩
  | .PE_STORE_SEC_COUNT => ⟨.pe, 0x6200, 0x11, .u32, 0, 4, .ro, .volatile, 0, .none, .none, true⟩
  | .PE_STORE_DED_COUNT => ⟨.pe, 0x6200, 0x12, .u32, 0, 4, .ro, .volatile, 0, .none, .none, true⟩
  | .PE_RX_PIPE_DELAY => ⟨.pe, 0x6200, 0x13, .u32, 0, 4, .ro, .volatile, 0, .none, .none, false⟩
  | _ => .absent

/-- Objects of chapter 5: the rows of its object tables. -/
def Reg.info05 : Reg → RegInfo
  | .ANC_ADMIT => ⟨.dev, 0x6300, 0x01, .s16, 0, 2, .rw, .persistent, 60416, .none, (some ((-10240), 0)), false⟩
  | .ANC_DROP => ⟨.dev, 0x6300, 0x02, .s16, 0, 2, .rw, .persistent, 57856, .none, (some ((-12800), (-768))), false⟩
  | .ANC_SCAN_PERIOD => ⟨.dev, 0x6300, 0x03, .u32, 0, 4, .rw, .persistent, 10000, .none, (some (2000, 0x927c0)), false⟩
  | .ANC_HOLD_TIME => ⟨.dev, 0x6300, 0x04, .u32, 0, 4, .rw, .persistent, 60000, .none, (some (1000, 0x36ee80)), false⟩
  | .ANC_MAP_PERSIST => ⟨.dev, 0x6300, 0x05, .bool, 0, 1, .rw, .persistent, 1, .none, (some (0, 1)), false⟩
  | .ANC_MAP_CLEAR => ⟨.dev, 0x6300, 0x06, .u8, 0, 1, .sc, .volatile, 0, .none, (some (0, 1)), false⟩
  | .ANC_MAP_STATUS => ⟨.dev, 0x6300, 0x07, .bits16, 0, 2, .ro, .volatile, 0, .none, .none, false⟩
  | .ANC_MAP_VERSION => ⟨.dev, 0x6300, 0x08, .u32, 0, 4, .ro, .volatile, 0, .none, .none, false⟩
  | .WEAVE_MAP => ⟨.dev, 0x6300, 0x0A, .u64, 4096, 8, .ro, .volatile, 0, .none, .none, false⟩
  | .ANC_ENABLE => ⟨.port, 0x6300, 0x01, .bool, 0, 1, .rw, .persistent, 1, .none, (some (0, 1)), false⟩
  | .ANC_SLOT => ⟨.pe, 0x6300, 0x01, .u64, 8, 8, .rw, .persistent, 0, .none, .none, false⟩
  | .ANC_STATUS => ⟨.pe, 0x6300, 0x02, .bits16, 0, 2, .ro, .volatile, 0, .none, .none, false⟩
  | .ANC_GAIN => ⟨.pe, 0x6300, 0x03, .s16, 0, 2, .ro, .volatile, 0, .none, .none, false⟩
  | .ANC_PASS_COUNT => ⟨.pe, 0x6300, 0x04, .u32, 0, 4, .ro, .volatile, 0, .none, .none, true⟩
  | .ANC_ADMIT_COUNT => ⟨.pe, 0x6300, 0x05, .u32, 0, 4, .ro, .volatile, 0, .none, .none, true⟩
  | .ANC_DROP_COUNT => ⟨.pe, 0x6300, 0x06, .u32, 0, 4, .ro, .volatile, 0, .none, .none, true⟩
  | .ANC_DISCARD_COUNT => ⟨.pe, 0x6300, 0x07, .u32, 0, 4, .ro, .volatile, 0, .none, .none, true⟩
  | _ => .absent

/-- Objects of chapter 6: the rows of its object tables. -/
def Reg.info06 : Reg → RegInfo
  | .LPI_ENABLE => ⟨.port, 0x6400, 0x01, .bool, 0, 1, .rw, .persistent, 1, .none, (some (0, 1)), false⟩
  | .LPI_WAKE_GUARD => ⟨.port, 0x6400, 0x02, .u32, 0, 4, .rw, .persistent, 500, .none, (some (0, 0x186a0)), false⟩
  | .LPI_MIN_QUIET => ⟨.port, 0x6400, 0x03, .u32, 0, 4, .rw, .persistent, 50, .none, (some (10, 0x186a0)), false⟩
  | .LPI_REFRESH_MIN_MARGIN => ⟨.port, 0x6400, 0x04, .s16, 0, 2, .rw, .persistent, 384, .none, (some (0, 2560)), false⟩
  | .LPI_STATE => ⟨.port, 0x6400, 0x05, .u8, 0, 1, .ro, .volatile, 0, .none, .none, false⟩
  | .LPI_STATUS => ⟨.port, 0x6400, 0x06, .bits16, 0, 2, .ro, .volatile, 0, .none, .none, false⟩
  | .LPI_WAKE_TIME => ⟨.port, 0x6400, 0x07, .u32, 0, 4, .ro, .volatile, 0, .none, .none, false⟩
  | .LPI_NEXT_WAKE => ⟨.port, 0x6400, 0x08, .time96, 0, 12, .ro, .volatile, 0, .none, .none, false⟩
  | .LPI_ENTRY_COUNT => ⟨.port, 0x6400, 0x09, .u32, 0, 4, .ro, .volatile, 0, .none, .none, true⟩
  | .LPI_QUIET_TIME => ⟨.port, 0x6400, 0x0A, .u32, 0, 4, .ro, .volatile, 0, .none, .none, true⟩
  | .LPI_WAKE_TIMED_COUNT => ⟨.port, 0x6400, 0x0B, .u32, 0, 4, .ro, .volatile, 0, .none, .none, true⟩
  | .LPI_WAKE_PARTNER_COUNT => ⟨.port, 0x6400, 0x0C, .u32, 0, 4, .ro, .volatile, 0, .none, .none, true⟩
  | .LPI_WAKE_OTHER_COUNT => ⟨.port, 0x6400, 0x0D, .u32, 0, 4, .ro, .volatile, 0, .none, .none, true⟩
  | .LPI_LATE_WAKE_COUNT => ⟨.port, 0x6400, 0x0E, .u32, 0, 4, .ro, .volatile, 0, .none, .none, true⟩
  | .LPI_REFRESH_FAIL_COUNT => ⟨.port, 0x6400, 0x0F, .u32, 0, 4, .ro, .volatile, 0, .none, .none, true⟩
  | .PE_LPI_REFRESH_MARGIN => ⟨.pe, 0x6400, 0x01, .s16, 0, 2, .ro, .volatile, 0, .none, .none, false⟩
  | _ => .absent

/-- Objects of chapter 7, part 1: the rows of its object tables. -/
def Reg.info07a : Reg → RegInfo
  | .PLANT_ADJ_MIN => ⟨.dev, 0x6500, 0x01, .s16, 0, 2, .rw, .persistent, 59136, .none, (some ((-12800), 0)), false⟩
  | .PLANT_MAP_BUILD => ⟨.dev, 0x6500, 0x02, .u8, 0, 1, .sc, .volatile, 0, .none, (some (0, 1)), false⟩
  | .PLANT_MAP => ⟨.dev, 0x6500, 0x03, .u64, 4096, 8, .ro, .volatile, 0, .none, .none, false⟩
  | .PLANT_MAP_ROWS => ⟨.dev, 0x6500, 0x04, .u16, 0, 2, .ro, .volatile, 0, .none, .none, false⟩
  | .PLANT_MAP_VERSION => ⟨.dev, 0x6500, 0x05, .u32, 0, 4, .ro, .volatile, 0, .none, .none, false⟩
  | .LED_ENABLE => ⟨.dev, 0x6500, 0x06, .bool, 0, 1, .rw, .persistent, 1, .none, (some (0, 1)), false⟩
  | .LED_CONFIG => ⟨.quad, 0x6500, 0x01, .bits32, 0, 4, .rw, .persistent, 0xf405f403, .none, .none, false⟩
  | .LED_LOCATE => ⟨.quad, 0x6500, 0x02, .u16, 0, 2, .rw, .volatile, 0, .none, .none, false⟩
  | .TDR_START => ⟨.port, 0x6500, 0x01, .u8, 0, 1, .sc, .volatile, 0, .none, (some (0, 1)), false⟩
  | .TDR_STATUS => ⟨.port, 0x6500, 0x02, .bits16, 0, 2, .ro, .volatile, 0, .none, .none, false⟩
  | .TDR_NVP => ⟨.port, 0x6500, 0x03, .u16, 0, 2, .rw, .persistent, 717, .none, (some (512, 944)), false⟩
  | .TDR_ORIGIN => ⟨.port, 0x6500, 0x04, .u16, 0, 2, .rw, .persistent, 0, .none, (some (0, 5000)), false⟩
  | .CABLE_FINGERPRINT => ⟨.port, 0x6500, 0x05, .octets, 0, 64, .ro, .volatile, 0xffffffffffffffffffffffffffff0000ffffffffffffffffffffffffffff0000ffffffffffffffffffffffffffff0000ffffffffffffffffffffffffffff0000, .none, .none, false⟩
  | .CABLE_FP_STORED => ⟨.port, 0x6500, 0x06, .octets, 0, 64, .ro, .volatile, 0, .none, .none, false⟩
  | .REFLECT_WATCH_PERIOD => ⟨.port, 0x6500, 0x07, .u32, 0, 4, .rw, .persistent, 1000, .none, .none, false⟩
  | .REFLECT_ALARM => ⟨.port, 0x6500, 0x08, .u16, 0, 2, .rw, .persistent, 983, .none, (some (164, 16384)), false⟩
  | .LQ_MARGIN_WARN => ⟨.port, 0x6500, 0x10, .s16, 0, 2, .rw, .persistent, 384, .none, (some (0, 2560)), false⟩
  | .LQ_UNCORR_WARN => ⟨.port, 0x6500, 0x11, .u32, 0, 4, .rw, .persistent, 1, .none, (some (0, 0xf4240)), false⟩
  | .LQ_STATUS => ⟨.port, 0x6500, 0x12, .bits16, 0, 2, .ro, .volatile, 0, .none, .none, false⟩
  | .LQ_RESET => ⟨.port, 0x6500, 0x13, .u8, 0, 1, .sc, .volatile, 0, .none, (some (0, 1)), false⟩
  | .SKEW_SPAN => ⟨.port, 0x6500, 0x14, .u16, 0, 2, .ro, .volatile, 0, .none, .none, false⟩
  | .SKEW_SPAN_MAX => ⟨.port, 0x6500, 0x15, .u16, 0, 2, .ro, .volatile, 0, .none, .none, false⟩
  | .TDR_RESULT => ⟨.pe, 0x6500, 0x01, .u64, 8, 8, .ro, .volatile, 0, .none, .none, false⟩
  | .TDR_FAULT => ⟨.pe, 0x6500, 0x02, .u8, 0, 1, .ro, .volatile, 0, .none, .none, false⟩
  | .TDR_FAULT_DIST => ⟨.pe, 0x6500, 0x03, .u32, 0, 4, .ro, .volatile, 0, .none, .none, false⟩
  | .TDR_NOISE => ⟨.pe, 0x6500, 0x04, .s16, 0, 2, .ro, .volatile, 0, .none, .none, false⟩
  | .CW_COUNT => ⟨.pe, 0x6500, 0x10, .u64, 0, 8, .ro, .volatile, 0, .none, .none, true⟩
  | .CW_CORRECTED => ⟨.pe, 0x6500, 0x11, .u64, 0, 8, .ro, .volatile, 0, .none, .none, true⟩
  | .CW_UNCORRECTABLE => ⟨.pe, 0x6500, 0x12, .u32, 0, 4, .ro, .volatile, 0, .none, .none, true⟩
  | .CW_AUXCRC_FAIL => ⟨.pe, 0x6500, 0x13, .u32, 0, 4, .ro, .volatile, 0, .none, .none, true⟩
  | _ => .absent

/-- Objects of chapter 7, part 2: the rows of its object tables. -/
def Reg.info07b : Reg → RegInfo
  | .BITS_CORRECTED => ⟨.pe, 0x6500, 0x14, .u64, 0, 8, .ro, .volatile, 0, .none, .none, true⟩
  | .MGMT_DISCARD => ⟨.pe, 0x6500, 0x15, .u32, 0, 4, .ro, .volatile, 0, .none, .none, true⟩
  | .LDPC_ITER_HIST => ⟨.pe, 0x6500, 0x16, .u32, 18, 4, .ro, .volatile, 0, .none, .none, true⟩
  | .REALIGN_COUNT => ⟨.pe, 0x6500, 0x17, .u32, 0, 4, .ro, .volatile, 0, .none, .none, true⟩
  | .PE_MARGIN_MIN => ⟨.pe, 0x6500, 0x18, .s16, 0, 2, .ro, .volatile, 0, .none, .none, false⟩
  | .PE_MARGIN_MAX => ⟨.pe, 0x6500, 0x19, .s16, 0, 2, .ro, .volatile, 0, .none, .none, false⟩
  | .LOW_MARGIN_TIME => ⟨.pe, 0x6500, 0x1A, .u32, 0, 4, .ro, .volatile, 0, .none, .none, true⟩
  | .SYMBOL_ERR_COUNT => ⟨.pe, 0x6500, 0x1B, .u32, 0, 4, .ro, .volatile, 0, .none, .none, true⟩
  | .REFLECT_TRIGGER => ⟨.pe, 0x6500, 0x20, .u8, 0, 1, .sc, .volatile, 0, .none, (some (0, 2)), false⟩
  | .REFLECTOGRAM => ⟨.pe, 0x6500, 0x21, .s16, 3072, 2, .ro, .volatile, 0, .none, .none, false⟩
  | .REFLECT_BIN => ⟨.pe, 0x6500, 0x22, .u32, 0, 4, .ro, .volatile, 0, .none, .none, false⟩
  | .REFLECT_ORIGIN => ⟨.pe, 0x6500, 0x23, .u16, 0, 2, .ro, .volatile, 0, .none, .none, false⟩
  | .REFLECT_CHANGE_DIST => ⟨.pe, 0x6500, 0x24, .u32, 0, 4, .ro, .volatile, 0, .none, .none, false⟩
  | _ => .absent

/-- Objects of chapter 8, part 1: the rows of its object tables. -/
def Reg.info08a : Reg → RegInfo
  | .HL_AUTO_REMAP => ⟨.dev, 0x7000, 0x01, .bool, 0, 1, .rw, .persistent, 1, .none, (some (0, 1)), false⟩
  | .TAG_GRACE => ⟨.dev, 0x7000, 0x02, .u32, 0, 4, .rw, .persistent, 1000, .none, (some (0, 10000)), false⟩
  | .HOST_PAUSE_HONOUR => ⟨.dev, 0x7000, 0x03, .bool, 0, 1, .rw, .persistent, 1, .none, (some (0, 1)), false⟩
  | .HL_MAP => ⟨.port, 0x7000, 0x01, .bits32, 0, 4, .rws, .persistent, 0, (some 0xc0ffff00), .none, false⟩
  | .HL_ENTRIES => ⟨.port, 0x7000, 0x02, .bits32, 0, 4, .rws, .persistent, 0, .none, .none, false⟩
  | .HL_MAP_ACTIVE => ⟨.port, 0x7000, 0x03, .bits32, 0, 4, .ro, .volatile, 0, .none, .none, false⟩
  | .HL_CAPACITY => ⟨.port, 0x7000, 0x04, .u32, 0, 4, .ro, .volatile, 0, .none, .none, false⟩
  | .HL_PORT_STATUS => ⟨.port, 0x7000, 0x05, .bits16, 0, 2, .ro, .volatile, 0, .none, .none, false⟩
  | .TX_TAG_ENABLE => ⟨.port, 0x7000, 0x06, .bool, 0, 1, .rw, .persistent, 1, .none, (some (0, 1)), false⟩
  | .RX_TAG_ENABLE => ⟨.port, 0x7000, 0x07, .bool, 0, 1, .rw, .persistent, 1, .none, (some (0, 1)), false⟩
  | .TX_TAG_MALFORMED => ⟨.port, 0x7000, 0x08, .u32, 0, 4, .ro, .volatile, 0, .none, .none, true⟩
  | .TX_QUEUE_MISS => ⟨.port, 0x7000, 0x09, .u32, 0, 4, .ro, .volatile, 0, .none, .none, true⟩
  | .HOST_RX_ERROR => ⟨.port, 0x7000, 0x0A, .u32, 0, 4, .ro, .volatile, 0, .none, .none, true⟩
  | .MAC_CTRL_DISCARD => ⟨.port, 0x7000, 0x0B, .u32, 0, 4, .ro, .volatile, 0, .none, .none, true⟩
  | .RX_FIFO_DROP => ⟨.port, 0x7000, 0x0C, .u32, 0, 4, .ro, .volatile, 0, .none, .none, true⟩
  | .RX_MAX_FRAME => ⟨.port, 0x7000, 0x0D, .u16, 0, 2, .rw, .persistent, 16384, .none, (some (64, 16384)), false⟩
  | .RX_OVERSIZE => ⟨.port, 0x7000, 0x0E, .u32, 0, 4, .ro, .volatile, 0, .none, .none, true⟩
  | .PFC_ENABLE => ⟨.port, 0x7000, 0x10, .bits16, 0, 2, .rw, .persistent, 255, (some 0xff), .none, false⟩
  | .PFC_PRIORITY_MAP => ⟨.port, 0x7000, 0x11, .u32, 0, 4, .rw, .persistent, 0x76543210, .none, .none, false⟩
  | .PFC_HEADROOM => ⟨.port, 0x7000, 0x12, .u32, 0, 4, .rw, .persistent, 2048, .none, (some (64, 0x40000)), false⟩
  | .PFC_QUANTA => ⟨.port, 0x7000, 0x13, .u16, 0, 2, .rw, .persistent, 65535, .none, (some (1, 65535)), false⟩
  | .PFC_STATUS => ⟨.port, 0x7000, 0x14, .bits16, 0, 2, .ro, .volatile, 0, .none, .none, false⟩
  | .PFC_FRAME_COUNT => ⟨.port, 0x7000, 0x15, .u32, 0, 4, .ro, .volatile, 0, .none, .none, true⟩
  | .HL_STATUS => ⟨.hlane, 0x7000, 0x01, .bits16, 0, 2, .ro, .volatile, 0, .none, .none, false⟩
  | .HL_POLARITY => ⟨.hlane, 0x7000, 0x02, .bits16, 0, 2, .rw, .persistent, 0, (some 0x3), .none, false⟩
  | .HL_TX_EQ => ⟨.hlane, 0x7000, 0x03, .bits32, 0, 4, .rw, .persistent, 1024, (some 0x1f1f), .none, false⟩
  | .HL_FORCE_FAIL => ⟨.hlane, 0x7000, 0x04, .bool, 0, 1, .rw, .volatile, 0, .none, (some (0, 1)), false⟩
  | .HL_PRBS_GEN => ⟨.hlane, 0x7000, 0x05, .u8, 0, 1, .rw, .volatile, 0, .none, (some (0, 2)), false⟩
  | .HL_PRBS_CHK => ⟨.hlane, 0x7000, 0x06, .u8, 0, 1, .rw, .volatile, 0, .none, (some (0, 2)), false⟩
  | .HL_PRBS_ERR => ⟨.hlane, 0x7000, 0x07, .u64, 0, 8, .ro, .volatile, 0, .none, .none, true⟩
  | _ => .absent

/-- Objects of chapter 8, part 2: the rows of its object tables. -/
def Reg.info08b : Reg → RegInfo
  | .HL_FEC_CORRECTED => ⟨.hlane, 0x7000, 0x08, .u64, 0, 8, .ro, .volatile, 0, .none, .none, true⟩
  | .HL_FEC_UNCORR => ⟨.hlane, 0x7000, 0x09, .u32, 0, 4, .ro, .volatile, 0, .none, .none, true⟩
  | .HL_LS_MARKER_ERR => ⟨.hlane, 0x7000, 0x0A, .u32, 0, 4, .ro, .volatile, 0, .none, .none, true⟩
  | .HL_FAULT_COUNT => ⟨.hlane, 0x7000, 0x0B, .u32, 0, 4, .ro, .volatile, 0, .none, .none, true⟩
  | _ => .absent

/-- Objects of chapter 9, part 1: the rows of its object tables. -/
def Reg.info09a : Reg → RegInfo
  | .TIME_NOW => ⟨.dev, 0x4000, 0x01, .time96, 0, 12, .ro, .volatile, 0, .none, .none, false⟩
  | .TIME_SNAPSHOT => ⟨.dev, 0x4000, 0x02, .u8, 0, 1, .sc, .volatile, 0, .none, (some (0, 1)), false⟩
  | .TIME_SNAPSHOT_VALUE => ⟨.dev, 0x4000, 0x03, .time96, 0, 12, .ro, .volatile, 0, .none, .none, false⟩
  | .TIME_SET => ⟨.dev, 0x4000, 0x04, .time96, 0, 12, .wo, .volatile, 0, .none, .none, false⟩
  | .TIME_STEP => ⟨.dev, 0x4000, 0x05, .s64, 0, 8, .wo, .volatile, 0, .none, .none, false⟩
  | .TIME_RATE_ADJ => ⟨.dev, 0x4000, 0x06, .s32, 0, 4, .rws, .volatile, 0, .none, (some ((-100000000), 0x5f5e100)), false⟩
  | .TIME_VALID => ⟨.dev, 0x4000, 0x07, .bool, 0, 1, .rws, .volatile, 0, .none, (some (0, 1)), false⟩
  | .TIME_SOURCE => ⟨.dev, 0x4000, 0x08, .u8, 0, 1, .rw, .persistent, 0, .none, (some (0, 4)), false⟩
  | .TIME_SERVO_MODE => ⟨.dev, 0x4000, 0x09, .u8, 0, 1, .rw, .persistent, 1, .none, (some (0, 1)), false⟩
  | .TIME_SERVO_STATE => ⟨.dev, 0x4000, 0x0A, .u8, 0, 1, .ro, .volatile, 1, .none, .none, false⟩
  | .TIME_SERVO_INPUT => ⟨.dev, 0x4000, 0x0B, .s64, 0, 8, .wo, .volatile, 0, .none, .none, false⟩
  | .TIME_STEP_THRESHOLD => ⟨.dev, 0x4000, 0x0C, .u32, 0, 4, .rw, .persistent, 1000, .none, (some (10, 0x3b9aca00)), false⟩
  | .TIME_VALID_LIMIT => ⟨.dev, 0x4000, 0x0D, .u32, 0, 4, .rw, .persistent, 100, .none, (some (1, 0xf4240)), false⟩
  | .TIME_INPUT_TIMEOUT => ⟨.dev, 0x4000, 0x0E, .u32, 0, 4, .rw, .persistent, 3000, .none, (some (100, 60000)), false⟩
  | .TIME_HOLDOVER_VALID => ⟨.dev, 0x4000, 0x0F, .u32, 0, 4, .rw, .persistent, 60000, .none, (some (0, 0x5265c00)), false⟩
  | .TIME_OFFSET_LAST => ⟨.dev, 0x4000, 0x10, .s64, 0, 8, .ro, .volatile, 0, .none, .none, false⟩
  | .TIME_FREQ_CORR => ⟨.dev, 0x4000, 0x11, .s32, 0, 4, .ro, .volatile, 0, .none, .none, false⟩
  | .TIME_LAST_STEP => ⟨.dev, 0x4000, 0x12, .s64, 0, 8, .ro, .volatile, 0, .none, .none, false⟩
  | .TIME_STEP_COUNT => ⟨.dev, 0x4000, 0x13, .u32, 0, 4, .ro, .volatile, 0, .none, .none, true⟩
  | .ROOT_DISCIPLINE => ⟨.dev, 0x4000, 0x20, .u8, 0, 1, .rw, .persistent, 1, .none, (some (0, 3)), false⟩
  | .ROOT_LINE_PORT => ⟨.dev, 0x4000, 0x21, .u16, 0, 2, .rw, .persistent, 0, .none, (some (0, 511)), false⟩
  | .ROOT_TRIM => ⟨.dev, 0x4000, 0x22, .s32, 0, 4, .ro, .volatile, 0, .none, .none, false⟩
  | .ROOT_STATUS => ⟨.dev, 0x4000, 0x23, .bits16, 0, 2, .ro, .volatile, 0, .none, .none, false⟩
  | .REF_IN_FREQ => ⟨.dev, 0x4000, 0x24, .u8, 0, 1, .rw, .persistent, 0, .none, (some (0, 2)), false⟩
  | .PPS_IN_POLARITY => ⟨.dev, 0x4000, 0x30, .u8, 0, 1, .rw, .persistent, 0, .none, (some (0, 1)), false⟩
  | .PPS_IN_DELAY => ⟨.dev, 0x4000, 0x31, .s32, 0, 4, .rw, .persistent, 0, .none, (some ((-1000000), 0xf4240)), false⟩
  | .PPS_IN_TIME => ⟨.dev, 0x4000, 0x32, .time96, 0, 12, .ro, .volatile, 0, .none, .none, false⟩
  | .PPS_IN_COUNT => ⟨.dev, 0x4000, 0x33, .u32, 0, 4, .ro, .volatile, 0, .none, .none, true⟩
  | .PPS_OUT_MODE => ⟨.dev, 0x4000, 0x34, .u8, 0, 1, .rw, .persistent, 1, .none, (some (0, 2)), false⟩
  | .PPS_OUT_OFFSET => ⟨.dev, 0x4000, 0x35, .s32, 0, 4, .rw, .persistent, 0, .none, (some ((-500000000), 0x1dcd6500)), false⟩
  | _ => .absent

/-- Objects of chapter 9, part 2: the rows of its object tables. -/
def Reg.info09b : Reg → RegInfo
  | .PPS_OUT_WIDTH => ⟨.dev, 0x4000, 0x36, .u32, 0, 4, .rw, .persistent, 1000, .none, (some (1, 0x7a120)), false⟩
  | .TA_TABLE => ⟨.dev, 0x4000, 0x40, .octets, 256, 40, .rw, .volatile, 0, .none, .none, false⟩
  | .TA_CANCEL => ⟨.dev, 0x4000, 0x41, .u16, 0, 2, .sc, .volatile, 0, .none, (some (0, 255)), false⟩
  | .TA_LATE_WINDOW_DEFAULT => ⟨.dev, 0x4000, 0x42, .u32, 0, 4, .rw, .persistent, 1000, .none, (some (1, 0x989680)), false⟩
  | .TA_ARMED_COUNT => ⟨.dev, 0x4000, 0x43, .u16, 0, 2, .ro, .volatile, 0, .none, .none, false⟩
  | .TA_LATE_COUNT => ⟨.dev, 0x4000, 0x44, .u32, 0, 4, .ro, .volatile, 0, .none, .none, true⟩
  | .TA_REFUSED_COUNT => ⟨.dev, 0x4000, 0x45, .u32, 0, 4, .ro, .volatile, 0, .none, .none, true⟩
  | .TA_FAILED_COUNT => ⟨.dev, 0x4000, 0x46, .u32, 0, 4, .ro, .volatile, 0, .none, .none, true⟩
  | .PTP_ENABLE => ⟨.port, 0x4000, 0x01, .bool, 0, 1, .rw, .persistent, 1, .none, (some (0, 1)), false⟩
  | .PTP_TX_MODE => ⟨.port, 0x4000, 0x02, .u8, 0, 1, .rw, .persistent, 1, .none, (some (0, 2)), false⟩
  | .PTP_RX_CORRECT => ⟨.port, 0x4000, 0x03, .bool, 0, 1, .rw, .persistent, 1, .none, (some (0, 1)), false⟩
  | .PTP_CORRECT_MASK => ⟨.port, 0x4000, 0x04, .bits16, 0, 2, .rw, .persistent, 3, (some 0xf), .none, false⟩
  | .PTP_TX_DEFAULT => ⟨.port, 0x4000, 0x05, .bool, 0, 1, .rw, .persistent, 1, .none, (some (0, 1)), false⟩
  | .TS_MSG_OFFSET => ⟨.port, 0x4000, 0x06, .u32, 0, 4, .ro, .volatile, 0, .none, .none, false⟩
  | .TS_STATUS => ⟨.port, 0x4000, 0x07, .bits16, 0, 2, .ro, .volatile, 0, .none, .none, false⟩
  | .TS_REF_PE => ⟨.port, 0x4000, 0x08, .u16, 0, 2, .ro, .volatile, 65535, .none, .none, false⟩
  | .TX_TS_REPORT => ⟨.port, 0x4000, 0x09, .octets, 64, 24, .ro, .volatile, 0xf00000000000, .none, .none, false⟩
  | .TX_TS_SEQ => ⟨.port, 0x4000, 0x0A, .u32, 0, 4, .ro, .volatile, 0, .none, .none, false⟩
  | .PTP_RX_COUNT => ⟨.port, 0x4000, 0x0B, .u32, 0, 4, .ro, .volatile, 0, .none, .none, true⟩
  | .PTP_TX_COUNT => ⟨.port, 0x4000, 0x0C, .u32, 0, 4, .ro, .volatile, 0, .none, .none, true⟩
  | .PTP_MODIFIED_COUNT => ⟨.port, 0x4000, 0x0D, .u32, 0, 4, .ro, .volatile, 0, .none, .none, true⟩
  | .PTP_MALFORMED => ⟨.port, 0x4000, 0x0E, .u32, 0, 4, .ro, .volatile, 0, .none, .none, true⟩
  | _ => .absent

/-- Objects of chapter 10, part 1: the rows of its object tables. -/
def Reg.info10a : Reg → RegInfo
  | .Q_BLOCK_OWNER => ⟨.dev, 0x8000, 0x01, .u16, 512, 2, .ro, .volatile, 0, .none, .none, false⟩
  | .Q_BLOCKS => ⟨.port, 0x8000, 0x01, .u16, 8, 2, .rws, .persistent, 0, .none, .none, false⟩
  | .Q_DEFAULT => ⟨.port, 0x8000, 0x02, .u16, 0, 2, .rw, .persistent, 0, .none, .none, false⟩
  | .Q_FLUSH => ⟨.port, 0x8000, 0x03, .u8, 0, 1, .sc, .volatile, 0, .none, (some (0, 1)), false⟩
  | .Q_OOO_COUNT => ⟨.port, 0x8000, 0x04, .u32, 0, 4, .ro, .volatile, 0, .none, .none, true⟩
  | .Q_CONFIG => ⟨.port, 0x8000, 0x10, .octets, 4096, 16, .rw, .persistent, 0x100000000186a003e8000000000000, (some 0xffffffffffffffffffff000000000000), .none, false⟩
  | .Q_COUNTERS => ⟨.port, 0x8000, 0x11, .octets, 4096, 32, .ro, .volatile, 0, .none, .none, true⟩
  | .SVC_CONFIG => ⟨.port, 0x8000, 0x20, .u32, 8, 4, .rw, .persistent, 0x80000010, (some 0xc00003ff), .none, false⟩
  | .SVC_COUNTERS => ⟨.port, 0x8000, 0x21, .octets, 8, 16, .ro, .volatile, 0, .none, .none, true⟩
  | .FLOW_SHAPER => ⟨.dev, 0x8100, 0x01, .octets, 65536, 8, .rw, .persistent, 0, .none, .none, false⟩
  | .FLOW_SHAPER_STATE => ⟨.dev, 0x8100, 0x02, .octets, 65536, 8, .ro, .volatile, 0, .none, .none, false⟩
  | .SVC_SHAPER => ⟨.port, 0x8100, 0x01, .octets, 8, 8, .rw, .persistent, 0, .none, .none, false⟩
  | .SVC_SHAPER_STATE => ⟨.port, 0x8100, 0x02, .octets, 8, 8, .ro, .volatile, 0, .none, .none, false⟩
  | .PORT_SHAPER => ⟨.port, 0x8100, 0x03, .octets, 0, 8, .rw, .persistent, 0, .none, .none, false⟩
  | .PORT_SHAPER_STATE => ⟨.port, 0x8100, 0x04, .octets, 0, 8, .ro, .volatile, 0, .none, .none, false⟩
  | .SHAPER_OVERHEAD => ⟨.port, 0x8100, 0x05, .u8, 0, 1, .rw, .persistent, 20, .none, (some (0, 64)), false⟩
  | .GATE_ENABLE => ⟨.port, 0x8100, 0x10, .bool, 0, 1, .rw, .persistent, 0, .none, (some (0, 1)), false⟩
  | .GATE_SWAP => ⟨.port, 0x8100, 0x11, .u8, 0, 1, .sc, .volatile, 0, .none, .none, false⟩
  | .GATE_STATUS => ⟨.port, 0x8100, 0x12, .bits16, 0, 2, .ro, .volatile, 0, .none, .none, false⟩
  | .GATE_SWAP_TIME => ⟨.port, 0x8100, 0x13, .time96, 0, 12, .ro, .volatile, 0, .none, .none, false⟩
  | .GATE_OVERRUN_COUNT => ⟨.port, 0x8100, 0x14, .u32, 0, 4, .ro, .volatile, 0, .none, .none, true⟩
  | .GCL0_BASE => ⟨.port, 0x8100, 0x20, .time96, 0, 12, .rws, .persistent, 0, .none, .none, false⟩
  | .GCL0_CYCLE => ⟨.port, 0x8100, 0x21, .u32, 0, 4, .rws, .persistent, 0xf4240, .none, .none, false⟩
  | .GCL0_LENGTH => ⟨.port, 0x8100, 0x22, .u16, 0, 2, .rws, .persistent, 1, .none, .none, false⟩
  | .GCL0_ENTRY => ⟨.port, 0x8100, 0x23, .u64, 1024, 8, .rws, .persistent, 0xff00000000000000, (some 0xff000000ffffffff), .none, false⟩
  | .GCL1_BASE => ⟨.port, 0x8100, 0x28, .time96, 0, 12, .rws, .persistent, 0, .none, .none, false⟩
  | .GCL1_CYCLE => ⟨.port, 0x8100, 0x29, .u32, 0, 4, .rws, .persistent, 0xf4240, .none, .none, false⟩
  | .GCL1_LENGTH => ⟨.port, 0x8100, 0x2A, .u16, 0, 2, .rws, .persistent, 1, .none, .none, false⟩
  | .GCL1_ENTRY => ⟨.port, 0x8100, 0x2B, .u64, 1024, 8, .rws, .persistent, 0xff00000000000000, (some 0xff000000ffffffff), .none, false⟩
  | .MM_ENABLE => ⟨.port, 0x8100, 0x30, .bool, 0, 1, .rw, .persistent, 0, .none, (some (0, 1)), false⟩
  | _ => .absent

/-- Objects of chapter 10, part 2: the rows of its object tables. -/
def Reg.info10b : Reg → RegInfo
  | .MM_VERIFY_TIME => ⟨.port, 0x8100, 0x31, .u8, 0, 1, .rw, .persistent, 10, .none, (some (1, 128)), false⟩
  | .MM_ADD_FRAG_SIZE => ⟨.port, 0x8100, 0x32, .u8, 0, 1, .rw, .persistent, 0, .none, (some (0, 3)), false⟩
  | .MM_STATUS => ⟨.port, 0x8100, 0x33, .u8, 0, 1, .ro, .volatile, 0, .none, .none, false⟩
  | .MM_FRAG_TX => ⟨.port, 0x8100, 0x34, .u32, 0, 4, .ro, .volatile, 0, .none, .none, true⟩
  | .MM_FRAG_RX => ⟨.port, 0x8100, 0x35, .u32, 0, 4, .ro, .volatile, 0, .none, .none, true⟩
  | .MM_ASSEMBLY_OK => ⟨.port, 0x8100, 0x36, .u32, 0, 4, .ro, .volatile, 0, .none, .none, true⟩
  | .MM_ASSEMBLY_ERR => ⟨.port, 0x8100, 0x37, .u32, 0, 4, .ro, .volatile, 0, .none, .none, true⟩
  | .MM_SMD_ERR => ⟨.port, 0x8100, 0x38, .u32, 0, 4, .ro, .volatile, 0, .none, .none, true⟩
  | .MTR_CONFIG => ⟨.dev, 0x8200, 0x01, .octets, 65536, 16, .rw, .persistent, 0, .none, .none, false⟩
  | .MTR_COUNTS => ⟨.dev, 0x8200, 0x02, .octets, 65536, 24, .ro, .volatile, 0, .none, .none, true⟩
  | .RX_FLOW_SELECT => ⟨.port, 0x8200, 0x01, .u8, 0, 1, .rw, .persistent, 0, .none, (some (0, 3)), false⟩
  | .RX_METER_BASE => ⟨.port, 0x8200, 0x02, .u16, 0, 2, .rw, .persistent, 0, .none, .none, false⟩
  | .RX_METER_COUNT => ⟨.port, 0x8200, 0x03, .u16, 0, 2, .rw, .persistent, 0, .none, (some (0, 4096)), false⟩
  | .RX_RED_DISCARD => ⟨.port, 0x8200, 0x04, .bool, 0, 1, .rw, .persistent, 0, .none, (some (0, 1)), false⟩
  | _ => .absent

/-- Objects of chapter 11: the rows of its object tables. -/
def Reg.info11 : Reg → RegInfo
  | .BUF_STATUS => ⟨.dev, 0x8300, 0x01, .bits16, 0, 2, .ro, .volatile, 0, .none, .none, false⟩
  | .BUF_ACTIVE_CHANNELS => ⟨.dev, 0x8300, 0x02, .u8, 0, 1, .ro, .volatile, 128, .none, .none, false⟩
  | .BUF_CELLS_TOTAL => ⟨.dev, 0x8300, 0x03, .u32, 0, 4, .ro, .volatile, 0x800000, .none, .none, false⟩
  | .BUF_CELLS_FREE => ⟨.dev, 0x8300, 0x04, .u32, 0, 4, .ro, .volatile, 0x800000, .none, .none, false⟩
  | .BUF_DELIVERABLE => ⟨.dev, 0x8300, 0x05, .u32, 0, 4, .ro, .volatile, 0x3dd420, .none, .none, false⟩
  | .BUF_DEMAND => ⟨.dev, 0x8300, 0x06, .u32, 0, 4, .ro, .volatile, 0, .none, .none, false⟩
  | .BUF_COMMIT_REASON => ⟨.dev, 0x8300, 0x07, .u8, 0, 1, .ro, .volatile, 0, .none, .none, false⟩
  | .BUF_MISS_STATUS => ⟨.dev, 0x8300, 0x08, .bits64, 0, 8, .rw, .volatile, 0, .none, .none, false⟩
  | .BUF_REEVALUATE => ⟨.dev, 0x8300, 0x09, .u8, 0, 1, .sc, .volatile, 0, .none, (some (0, 1)), false⟩
  | .BUF_EXCESS_FLOOR => ⟨.dev, 0x8300, 0x0A, .u32, 0, 4, .rw, .persistent, 0x40000, .none, (some (0, 0x400000)), false⟩
  | .BUF_SCRUB_PERIOD => ⟨.dev, 0x8300, 0x0B, .u32, 0, 4, .rw, .persistent, 10, .none, (some (1, 3600)), false⟩
  | .BUF_CE_LIMIT => ⟨.dev, 0x8300, 0x0C, .u32, 0, 4, .rw, .persistent, 1024, .none, (some (1, 0xf4240)), false⟩
  | .BUF_DESC_FREE => ⟨.dev, 0x8300, 0x0D, .u32, 4, 4, .ro, .volatile, 0x100000, .none, .none, false⟩
  | .PORT_BUF_LIMIT => ⟨.port, 0x8300, 0x01, .u32, 0, 4, .rw, .persistent, 0x80000, .none, (some (1, 0x800000)), false⟩
  | .PORT_BUF_OCC => ⟨.port, 0x8300, 0x02, .u32, 0, 4, .ro, .volatile, 0, .none, .none, false⟩
  | .SVC_BUF => ⟨.port, 0x8300, 0x03, .octets, 8, 16, .rws, .persistent, 0x4001000000000000020000, .none, .none, false⟩
  | .SVC_BUF_STATE => ⟨.port, 0x8300, 0x04, .octets, 8, 32, .ro, .volatile, 0xffff000000000000000000000000000000000000, .none, .none, true⟩
  | .QC_STATE => ⟨.qc, 0x8300, 0x01, .u8, 0, 1, .ro, .volatile, 0, .none, .none, false⟩
  | .QC_CE_COUNT => ⟨.qc, 0x8300, 0x02, .u32, 0, 4, .ro, .volatile, 0, .none, .none, true⟩
  | .QC_UE_COUNT => ⟨.qc, 0x8300, 0x03, .u32, 0, 4, .ro, .volatile, 0, .none, .none, true⟩
  | .QC_RETIRE => ⟨.qc, 0x8300, 0x04, .u8, 0, 1, .sc, .volatile, 0, .none, (some (0, 1)), false⟩
  | .QC_REPLACED_BY => ⟨.qc, 0x8300, 0x05, .u16, 0, 2, .ro, .volatile, 65535, .none, .none, false⟩
  | _ => .absent

/-- Objects of chapter 12, part 1: the rows of its object tables. -/
def Reg.info12a : Reg → RegInfo
  | .WALE_ENABLE => ⟨.dev, 0x5000, 0x01, .bool, 0, 1, .rw, .persistent, 1, .none, (some (0, 1)), false⟩
  | .WALE_ROOT_PRIORITY => ⟨.dev, 0x5000, 0x02, .u8, 0, 1, .rw, .persistent, 128, .none, .none, false⟩
  | .WALE_ADDR_REQUEST => ⟨.dev, 0x5000, 0x03, .u8, 0, 1, .rw, .persistent, 0, .none, .none, false⟩
  | .WALE_ADDRESS => ⟨.dev, 0x5000, 0x04, .u8, 0, 1, .ro, .volatile, 0, .none, .none, false⟩
  | .WALE_ROOT_ID => ⟨.dev, 0x5000, 0x05, .u64, 0, 8, .ro, .volatile, 0, .none, .none, false⟩
  | .WALE_ROOT_DISTANCE => ⟨.dev, 0x5000, 0x06, .u8, 0, 1, .ro, .volatile, 255, .none, .none, false⟩
  | .WALE_UPSTREAM => ⟨.dev, 0x5000, 0x07, .u8, 0, 1, .ro, .volatile, 255, .none, .none, false⟩
  | .WALE_STATUS => ⟨.dev, 0x5000, 0x08, .bits16, 0, 2, .ro, .volatile, 0, .none, .none, false⟩
  | .WALE_DEVICE_COUNT => ⟨.dev, 0x5000, 0x09, .u16, 0, 2, .ro, .volatile, 1, .none, .none, false⟩
  | .WALE_LSDB => ⟨.dev, 0x5000, 0x0A, .octets, 256, 88, .ro, .volatile, 0, .none, .none, false⟩
  | .WALE_ROUTES => ⟨.dev, 0x5000, 0x0B, .u16, 256, 2, .ro, .volatile, 65535, .none, .none, false⟩
  | .WALE_SYNC_INTERVAL => ⟨.dev, 0x5000, 0x0C, .u16, 0, 2, .rw, .persistent, 1, .none, (some (1, 1000)), false⟩
  | .WALE_DELAY_INTERVAL => ⟨.dev, 0x5000, 0x0D, .u16, 0, 2, .rw, .persistent, 8, .none, (some (1, 10000)), false⟩
  | .WALE_EVENT_DEST => ⟨.dev, 0x5000, 0x0E, .u8, 0, 1, .rw, .persistent, 1, .none, .none, false⟩
  | .WALE_EVENT_MIN => ⟨.dev, 0x5000, 0x0F, .u8, 0, 1, .rw, .persistent, 1, .none, (some (0, 3)), false⟩
  | .WALE_NO_ROUTE => ⟨.dev, 0x5000, 0x10, .u32, 0, 4, .ro, .volatile, 0, .none, .none, true⟩
  | .WALE_ADDR_CHANGES => ⟨.dev, 0x5000, 0x11, .u32, 0, 4, .ro, .volatile, 0, .none, .none, true⟩
  | .WALE_LSA_SEQ => ⟨.dev, 0x5000, 0x12, .u32, 0, 4, .ro, .volatile, 1, .none, .none, false⟩
  | .WL_ENABLE => ⟨.wl, 0x5000, 0x01, .bool, 0, 1, .rw, .persistent, 1, .none, (some (0, 1)), false⟩
  | .WL_STATE => ⟨.wl, 0x5000, 0x02, .u8, 0, 1, .ro, .volatile, 0, .none, .none, false⟩
  | .WL_STATUS => ⟨.wl, 0x5000, 0x03, .bits16, 0, 2, .ro, .volatile, 0, .none, .none, false⟩
  | .WL_SLIP_MODE => ⟨.wl, 0x5000, 0x04, .u8, 0, 1, .rw, .volatile, 0, .none, (some (0, 1)), false⟩
  | .WL_SLIP => ⟨.wl, 0x5000, 0x05, .u8, 0, 1, .sc, .volatile, 0, .none, (some (0, 1)), false⟩
  | .WL_SLIP_POS => ⟨.wl, 0x5000, 0x06, .u8, 0, 1, .ro, .volatile, 0, .none, .none, false⟩
  | .WL_HDR_VALID => ⟨.wl, 0x5000, 0x07, .u8, 0, 1, .ro, .volatile, 0, .none, .none, false⟩
  | .WL_TX_INVERT => ⟨.wl, 0x5000, 0x08, .bool, 0, 1, .rw, .persistent, 0, .none, (some (0, 1)), false⟩
  | .WL_TX_EQ => ⟨.wl, 0x5000, 0x09, .bits32, 0, 4, .rw, .persistent, 4, (some 0x1f1f), .none, false⟩
  | .WL_COST => ⟨.wl, 0x5000, 0x0A, .u8, 0, 1, .rw, .persistent, 1, .none, (some (1, 255)), false⟩
  | .WL_DELAY_ASYM => ⟨.wl, 0x5000, 0x0B, .s32, 0, 4, .rw, .persistent, 0, .none, (some ((-100000), 0x186a0)), false⟩
  | .WL_LINK_DELAY => ⟨.wl, 0x5000, 0x0C, .u32, 0, 4, .ro, .volatile, 0, .none, .none, false⟩
  | _ => .absent

/-- Objects of chapter 12, part 2: the rows of its object tables. -/
def Reg.info12b : Reg → RegInfo
  | .WL_PARTNER_ID => ⟨.wl, 0x5000, 0x0D, .u64, 0, 8, .ro, .volatile, 0, .none, .none, false⟩
  | .WL_PARTNER_PORT => ⟨.wl, 0x5000, 0x0E, .u8, 0, 1, .ro, .volatile, 255, .none, .none, false⟩
  | .WL_WAKE_SEND => ⟨.wl, 0x5000, 0x0F, .u8, 0, 1, .sc, .volatile, 0, .none, (some (0, 1)), false⟩
  | .WL_HDR_ERR => ⟨.wl, 0x5000, 0x10, .u32, 0, 4, .ro, .volatile, 0, .none, .none, true⟩
  | .WL_CRC_ERR => ⟨.wl, 0x5000, 0x11, .u32, 0, 4, .ro, .volatile, 0, .none, .none, true⟩
  | .WL_DROP => ⟨.wl, 0x5000, 0x12, .u32, 4, 4, .ro, .volatile, 0, .none, .none, true⟩
  | .WL_TX_PACKETS => ⟨.wl, 0x5000, 0x13, .u64, 0, 8, .ro, .volatile, 0, .none, .none, true⟩
  | .WL_RX_PACKETS => ⟨.wl, 0x5000, 0x14, .u64, 0, 8, .ro, .volatile, 0, .none, .none, true⟩
  | .WL_LINK_DOWN_COUNT => ⟨.wl, 0x5000, 0x15, .u32, 0, 4, .ro, .volatile, 0, .none, .none, true⟩
  | _ => .absent

/-- Objects of chapter 13, part 1: the rows of its object tables. -/
def Reg.info13a : Reg → RegInfo
  | .DEVICE_ID => ⟨.dev, 0x1000, 0x01, .u64, 0, 8, .const, .none, 0, .none, .none, false⟩
  | .PART_NUMBER => ⟨.dev, 0x1000, 0x02, .string, 0, 16, .const, .none, 0, .none, .none, false⟩
  | .MODULE_REVISION => ⟨.dev, 0x1000, 0x03, .string, 0, 4, .const, .none, 0x41300000, .none, .none, false⟩
  | .VENDOR_OUI => ⟨.dev, 0x1000, 0x04, .u32, 0, 4, .const, .none, 0, .none, .none, false⟩
  | .SERIAL_NUMBER => ⟨.dev, 0x1000, 0x05, .string, 0, 16, .const, .none, 0, .none, .none, false⟩
  | .DICT_VERSION => ⟨.dev, 0x1000, 0x06, .u16, 0, 2, .const, .none, 256, .none, .none, false⟩
  | .SNAPSHOT_DEV => ⟨.dev, 0x3100, 0x01, .u8, 0, 1, .sc, .volatile, 0, .none, (some (0, 1)), false⟩
  | .SNAPSHOT_PORT => ⟨.port, 0x3100, 0x01, .u8, 0, 1, .sc, .volatile, 0, .none, (some (0, 1)), false⟩
  | .SNAPSHOT_HLANE => ⟨.hlane, 0x3100, 0x01, .u8, 0, 1, .sc, .volatile, 0, .none, (some (0, 1)), false⟩
  | .SNAPSHOT_WL => ⟨.wl, 0x3100, 0x01, .u8, 0, 1, .sc, .volatile, 0, .none, (some (0, 1)), false⟩
  | .SNAPSHOT_QC => ⟨.qc, 0x3100, 0x01, .u8, 0, 1, .sc, .volatile, 0, .none, (some (0, 1)), false⟩
  | .SNAPSHOT_MGMT => ⟨.mgmt, 0x3100, 0x01, .u8, 0, 1, .sc, .volatile, 0, .none, (some (0, 1)), false⟩
  | .SNAPSHOT_SPI => ⟨.spi, 0x3100, 0x01, .u8, 0, 1, .sc, .volatile, 0, .none, (some (0, 1)), false⟩
  | .SNAP_TIME_DEV => ⟨.dev, 0x3100, 0x02, .time96, 0, 12, .ro, .volatile, 0, .none, .none, false⟩
  | .SNAP_TIME_PORT => ⟨.port, 0x3100, 0x02, .time96, 0, 12, .ro, .volatile, 0, .none, .none, false⟩
  | .SNAP_TIME_HLANE => ⟨.hlane, 0x3100, 0x02, .time96, 0, 12, .ro, .volatile, 0, .none, .none, false⟩
  | .SNAP_TIME_WL => ⟨.wl, 0x3100, 0x02, .time96, 0, 12, .ro, .volatile, 0, .none, .none, false⟩
  | .SNAP_TIME_QC => ⟨.qc, 0x3100, 0x02, .time96, 0, 12, .ro, .volatile, 0, .none, .none, false⟩
  | .SNAP_TIME_MGMT => ⟨.mgmt, 0x3100, 0x02, .time96, 0, 12, .ro, .volatile, 0, .none, .none, false⟩
  | .SNAP_TIME_SPI => ⟨.spi, 0x3100, 0x02, .time96, 0, 12, .ro, .volatile, 0, .none, .none, false⟩
  | .SNAP_STATUS_DEV => ⟨.dev, 0x3100, 0x03, .bits16, 0, 2, .ro, .volatile, 0, .none, .none, false⟩
  | .SNAP_STATUS_PORT => ⟨.port, 0x3100, 0x03, .bits16, 0, 2, .ro, .volatile, 0, .none, .none, false⟩
  | .SNAP_STATUS_HLANE => ⟨.hlane, 0x3100, 0x03, .bits16, 0, 2, .ro, .volatile, 0, .none, .none, false⟩
  | .SNAP_STATUS_WL => ⟨.wl, 0x3100, 0x03, .bits16, 0, 2, .ro, .volatile, 0, .none, .none, false⟩
  | .SNAP_STATUS_QC => ⟨.qc, 0x3100, 0x03, .bits16, 0, 2, .ro, .volatile, 0, .none, .none, false⟩
  | .SNAP_STATUS_MGMT => ⟨.mgmt, 0x3100, 0x03, .bits16, 0, 2, .ro, .volatile, 0, .none, .none, false⟩
  | .SNAP_STATUS_SPI => ⟨.spi, 0x3100, 0x03, .bits16, 0, 2, .ro, .volatile, 0, .none, .none, false⟩
  | .EV_STATUS_DEV => ⟨.dev, 0x3080, 0x01, .bits64, 0, 8, .rw, .volatile, 0, .none, .none, false⟩
  | .EV_STATUS_TILE => ⟨.tile, 0x3080, 0x01, .bits64, 0, 8, .rw, .volatile, 0, .none, .none, false⟩
  | .EV_STATUS_QUAD => ⟨.quad, 0x3080, 0x01, .bits64, 0, 8, .rw, .volatile, 0, .none, .none, false⟩
  | _ => .absent

/-- Objects of chapter 13, part 2: the rows of its object tables. -/
def Reg.info13b : Reg → RegInfo
  | .EV_STATUS_PORT => ⟨.port, 0x3080, 0x01, .bits64, 0, 8, .rw, .volatile, 0, .none, .none, false⟩
  | .EV_STATUS_PE => ⟨.pe, 0x3080, 0x01, .bits64, 0, 8, .rw, .volatile, 0, .none, .none, false⟩
  | .EV_STATUS_WL => ⟨.wl, 0x3080, 0x01, .bits64, 0, 8, .rw, .volatile, 0, .none, .none, false⟩
  | .EV_STATUS_MGMT => ⟨.mgmt, 0x3080, 0x01, .bits64, 0, 8, .rw, .volatile, 0, .none, .none, false⟩
  | .EV_STATUS_SPI => ⟨.spi, 0x3080, 0x01, .bits64, 0, 8, .rw, .volatile, 0, .none, .none, false⟩
  | .EV_STATUS_HLANE => ⟨.hlane, 0x3080, 0x01, .bits64, 0, 8, .rw, .volatile, 0, .none, .none, false⟩
  | .EV_STATUS_QC => ⟨.qc, 0x3080, 0x01, .bits64, 0, 8, .rw, .volatile, 0, .none, .none, false⟩
  | .DAP_MAC => ⟨.dev, 0x5100, 0x01, .u64, 0, 8, .ro, .volatile, 0, .none, .none, false⟩
  | .DAP_ETHERTYPE => ⟨.dev, 0x5100, 0x02, .u16, 0, 2, .rw, .persistent, 34997, .none, .none, false⟩
  | .DAP_HOST_ENABLE => ⟨.dev, 0x5100, 0x03, .bool, 0, 1, .rw, .persistent, 1, .none, (some (0, 1)), false⟩
  | .DAP_REQUESTS => ⟨.dev, 0x5100, 0x04, .u32, 0, 4, .ro, .volatile, 0, .none, .none, true⟩
  | .DAP_MALFORMED => ⟨.dev, 0x5100, 0x05, .u32, 0, 4, .ro, .volatile, 0, .none, .none, true⟩
  | .DAP_REPLAYS => ⟨.dev, 0x5100, 0x06, .u32, 0, 4, .ro, .volatile, 0, .none, .none, true⟩
  | .DAP_RELAYED => ⟨.dev, 0x5100, 0x07, .u32, 0, 4, .ro, .volatile, 0, .none, .none, true⟩
  | .DAP_LINE_ENABLE => ⟨.port, 0x5100, 0x01, .bool, 0, 1, .rw, .persistent, 0, .none, (some (0, 1)), false⟩
  | .MGMT_ENABLE => ⟨.mgmt, 0x5100, 0x01, .bool, 0, 1, .rw, .persistent, 1, .none, (some (0, 1)), false⟩
  | .MGMT_AN_ENABLE => ⟨.mgmt, 0x5100, 0x02, .bool, 0, 1, .rw, .persistent, 1, .none, (some (0, 1)), false⟩
  | .MGMT_STATUS => ⟨.mgmt, 0x5100, 0x03, .bits16, 0, 2, .ro, .volatile, 0, .none, .none, false⟩
  | .MGMT_RX_DISCARD => ⟨.mgmt, 0x5100, 0x04, .u32, 0, 4, .ro, .volatile, 0, .none, .none, true⟩
  | .SPI_STATUS => ⟨.spi, 0x5100, 0x01, .bits16, 0, 2, .ro, .volatile, 0, .none, .none, false⟩
  | .SPI_CRC_ERR => ⟨.spi, 0x5100, 0x02, .u32, 0, 4, .ro, .volatile, 0, .none, .none, true⟩
  | _ => .absent

/-- Objects of chapter 14: the rows of its object tables. -/
def Reg.info14 : Reg → RegInfo
  | .PWR_REQUEST => ⟨.dev, 0x2000, 0x01, .u8, 0, 1, .sc, .volatile, 0, .none, (some (0, 3)), false⟩
  | .PWR_STATUS => ⟨.dev, 0x2000, 0x02, .bits32, 0, 4, .ro, .volatile, 0x1000000, .none, .none, false⟩
  | .PWR_DIRECT => ⟨.dev, 0x2000, 0x03, .u8, 0, 1, .sc, .volatile, 0, .none, (some (0, 3)), false⟩
  | .PWR_TEST_MODE => ⟨.dev, 0x2000, 0x04, .bool, 0, 1, .rw, .volatile, 0, .none, (some (0, 1)), false⟩
  | .PWR_REFUSE => ⟨.dev, 0x2000, 0x05, .u16, 0, 2, .ro, .volatile, 0, .none, .none, false⟩
  | .PWR_REFUSE_COUNT => ⟨.dev, 0x2000, 0x06, .u32, 0, 4, .ro, .volatile, 0, .none, .none, true⟩
  | .PWR_TRANSITION_COUNT => ⟨.dev, 0x2000, 0x07, .u32, 0, 4, .ro, .volatile, 0, .none, .none, true⟩
  | .WAKE_SOURCES => ⟨.dev, 0x2000, 0x08, .bits16, 0, 2, .rw, .persistent, 55, (some 0x3f), .none, false⟩
  | .WAKE_LINE_QUAL => ⟨.dev, 0x2000, 0x09, .u8, 0, 1, .rw, .persistent, 2, .none, (some (0, 2)), false⟩
  | .WAKE_WALE_QUAL => ⟨.dev, 0x2000, 0x0A, .u8, 0, 1, .rw, .persistent, 2, .none, (some (0, 2)), false⟩
  | .WAKE_CAUSE => ⟨.dev, 0x2000, 0x0B, .u8, 0, 1, .ro, .volatile, 255, .none, .none, false⟩
  | .WAKE_TIME => ⟨.dev, 0x2000, 0x0C, .u32, 0, 4, .ro, .volatile, 0, .none, .none, false⟩
  | .WAKE_STEP_FAIL => ⟨.dev, 0x2000, 0x0D, .bits16, 0, 2, .ro, .volatile, 0, .none, .none, false⟩
  | .TILE_STATE => ⟨.tile, 0x2000, 0x01, .u8, 0, 1, .ro, .volatile, 0, .none, .none, false⟩
  | .TILE_REQUEST => ⟨.tile, 0x2000, 0x02, .u8, 0, 1, .sc, .volatile, 0, .none, (some (0, 2)), false⟩
  | .TILE_PL_MODE => ⟨.tile, 0x2000, 0x03, .u8, 0, 1, .rw, .persistent, 0, .none, (some (0, 1)), false⟩
  | .TILE_PL_SET => ⟨.tile, 0x2000, 0x04, .u8, 0, 1, .rws, .persistent, 0, .none, (some (0, 3)), false⟩
  | .TILE_PL_ACTIVE => ⟨.tile, 0x2000, 0x05, .u8, 0, 1, .ro, .volatile, 3, .none, .none, false⟩
  | .TILE_PWR_STATUS => ⟨.tile, 0x2000, 0x06, .bits16, 0, 2, .ro, .volatile, 0, .none, .none, false⟩
  | .TILE_REG_FAIL_COUNT => ⟨.tile, 0x2000, 0x07, .u32, 0, 4, .ro, .volatile, 0, .none, .none, true⟩
  | .CLK_DOMAIN => ⟨.dev, 0x2100, 0x01, .bits32, 60, 4, .ro, .volatile, 0, .none, .none, false⟩
  | .LEGACY_GATE => ⟨.dev, 0x2100, 0x02, .bits32, 0, 4, .rw, .volatile, 0xffffff7f, .none, .none, false⟩
  | .CLKSW_FORCED_COUNT => ⟨.dev, 0x2100, 0x03, .u32, 0, 4, .ro, .volatile, 0, .none, .none, true⟩
  | .FRO_FREQ => ⟨.dev, 0x2100, 0x04, .u32, 0, 4, .ro, .volatile, 0, .none, .none, false⟩
  | _ => .absent

/-- Objects of chapter 15, part 1: the rows of its object tables. -/
def Reg.info15a : Reg → RegInfo
  | .CAL_ENABLE => ⟨.dev, 0x9000, 0x01, .bool, 0, 1, .rw, .persistent, 1, .none, (some (0, 1)), false⟩
  | .CAL_STORE_PERIOD => ⟨.dev, 0x9000, 0x02, .u32, 0, 4, .rw, .persistent, 3600, .none, (some (60, 86400)), false⟩
  | .CAL_STATUS => ⟨.dev, 0x9000, 0x03, .bits16, 0, 2, .ro, .volatile, 0, .none, .none, false⟩
  | .CAL_WALE_DELAY => ⟨.dev, 0x9000, 0x04, .octets, 6, 8, .ro, .volatile, 0, .none, .none, false⟩
  | .CAL_START => ⟨.pe, 0x9000, 0x01, .u8, 0, 1, .sc, .volatile, 0, .none, (some (0, 1)), false⟩
  | .CAL_PE_STATUS => ⟨.pe, 0x9000, 0x02, .bits16, 0, 2, .ro, .volatile, 0, .none, .none, false⟩
  | .CAL_RECORD => ⟨.pe, 0x9000, 0x03, .octets, 0, 1024, .ro, .volatile, 0, .none, .none, false⟩
  | .CAL_RECORD_STORED => ⟨.pe, 0x9000, 0x04, .octets, 0, 1024, .ro, .volatile, 0, .none, .none, false⟩
  | .CAL_VISIT_COUNT => ⟨.pe, 0x9000, 0x05, .u32, 0, 4, .ro, .volatile, 0, .none, .none, true⟩
  | .CAL_REJECT_COUNT => ⟨.pe, 0x9000, 0x06, .u32, 0, 4, .ro, .volatile, 0, .none, .none, true⟩
  | .CAL_ROUND_TIME => ⟨.pe, 0x9000, 0x07, .u32, 0, 4, .ro, .volatile, 0, .none, .none, false⟩
  | .POST_SELECT => ⟨.dev, 0x9100, 0x01, .bits16, 0, 2, .rw, .persistent, 63, (some 0x3f), .none, false⟩
  | .POST_SUMMARY => ⟨.dev, 0x9100, 0x02, .bits16, 0, 2, .ro, .volatile, 0, .none, .none, false⟩
  | .POST_TIME => ⟨.dev, 0x9100, 0x03, .u32, 0, 4, .ro, .volatile, 0, .none, .none, false⟩
  | .BIST_INSERVICE_ENABLE => ⟨.dev, 0x9100, 0x04, .bool, 0, 1, .rw, .persistent, 1, .none, (some (0, 1)), false⟩
  | .BIST_SLICE_TIME => ⟨.dev, 0x9100, 0x05, .u32, 0, 4, .rw, .persistent, 2000, .none, (some (500, 10000)), false⟩
  | .BIST_SLICE_INTERVAL => ⟨.dev, 0x9100, 0x06, .u32, 0, 4, .rw, .persistent, 1000, .none, (some (100, 0xf4240)), false⟩
  | .BIST_REQUEST => ⟨.dev, 0x9100, 0x07, .bits32, 0, 4, .sc, .volatile, 0, (some 0xff00ffff), .none, false⟩
  | .BIST_LOG => ⟨.dev, 0x9100, 0x08, .octets, 256, 24, .ro, .volatile, 0, .none, .none, false⟩
  | .BIST_LOG_COUNT => ⟨.dev, 0x9100, 0x09, .u32, 0, 4, .ro, .volatile, 0, .none, .none, true⟩
  | .SCHED_QUAD_STATE => ⟨.dev, 0x9100, 0x0A, .u8, 4, 1, .ro, .volatile, 0, .none, .none, false⟩
  | .BIST_SLICE_COUNT => ⟨.dev, 0x9100, 0x0B, .u32, 0, 4, .ro, .volatile, 0, .none, .none, true⟩
  | .BIST_INCOMPLETE_COUNT => ⟨.dev, 0x9100, 0x0C, .u32, 0, 4, .ro, .volatile, 0, .none, .none, true⟩
  | .BIST_STATE_TILE => ⟨.tile, 0x9100, 0x01, .u8, 0, 1, .ro, .volatile, 0, .none, .none, false⟩
  | .BIST_STATE_PE => ⟨.pe, 0x9100, 0x01, .u8, 0, 1, .ro, .volatile, 0, .none, .none, false⟩
  | .BIST_STATE_HLANE => ⟨.hlane, 0x9100, 0x01, .u8, 0, 1, .ro, .volatile, 0, .none, .none, false⟩
  | .BIST_STATE_WL => ⟨.wl, 0x9100, 0x01, .u8, 0, 1, .ro, .volatile, 0, .none, .none, false⟩
  | .BIST_STATE_QC => ⟨.qc, 0x9100, 0x01, .u8, 0, 1, .ro, .volatile, 0, .none, .none, false⟩
  | .BIST_LAST_TILE => ⟨.tile, 0x9100, 0x02, .u8, 0, 1, .ro, .volatile, 4, .none, .none, false⟩
  | .BIST_LAST_PE => ⟨.pe, 0x9100, 0x02, .u8, 0, 1, .ro, .volatile, 4, .none, .none, false⟩
  | _ => .absent

/-- Objects of chapter 15, part 2: the rows of its object tables. -/
def Reg.info15b : Reg → RegInfo
  | .BIST_LAST_HLANE => ⟨.hlane, 0x9100, 0x02, .u8, 0, 1, .ro, .volatile, 4, .none, .none, false⟩
  | .BIST_LAST_WL => ⟨.wl, 0x9100, 0x02, .u8, 0, 1, .ro, .volatile, 4, .none, .none, false⟩
  | .BIST_LAST_QC => ⟨.qc, 0x9100, 0x02, .u8, 0, 1, .ro, .volatile, 4, .none, .none, false⟩
  | _ => .absent

/-- Objects of chapter 16, part 1: the rows of its object tables. -/
def Reg.info16a : Reg → RegInfo
  | .BOOT_STATUS => ⟨.dev, 0x1100, 0x01, .bits32, 0, 4, .ro, .volatile, 0, .none, .none, false⟩
  | .RESET_CAUSE => ⟨.dev, 0x1100, 0x02, .u8, 0, 1, .ro, .volatile, 0, .none, .none, false⟩
  | .DEVICE_RESET => ⟨.dev, 0x1100, 0x03, .u8, 0, 1, .sc, .volatile, 0, .none, (some (0, 1)), false⟩
  | .START_TIME => ⟨.dev, 0x1100, 0x04, .u32, 0, 4, .ro, .volatile, 0, .none, .none, false⟩
  | .BOOT_PREFER => ⟨.dev, 0x1100, 0x05, .u8, 0, 1, .ro, .nonVolatile, 0, .none, .none, false⟩
  | .ANTI_ROLLBACK => ⟨.dev, 0x1100, 0x06, .u32, 0, 4, .ro, .nonVolatile, 0, .none, .none, false⟩
  | .MILHOLT_KEY_REVOKED => ⟨.dev, 0x1100, 0x07, .bits16, 0, 2, .ro, .nonVolatile, 0, .none, .none, false⟩
  | .IMAGE_INFO => ⟨.dev, 0x1100, 0x10, .octets, 2, 80, .ro, .volatile, 0, .none, .none, false⟩
  | .IMAGE_WRITE => ⟨.dev, 0x1100, 0x11, .octets, 8192, 1024, .wo, .nonVolatile, 0, .none, .none, false⟩
  | .IMAGE_ERASE => ⟨.dev, 0x1100, 0x12, .u8, 0, 1, .sc, .none, 0, .none, (some (0, 1)), false⟩
  | .IMAGE_VERIFY => ⟨.dev, 0x1100, 0x13, .u8, 0, 1, .sc, .none, 0, .none, (some (0, 1)), false⟩
  | .IMAGE_SELECT_NEXT => ⟨.dev, 0x1100, 0x14, .u8, 0, 1, .sc, .none, 0, .none, (some (0, 1)), false⟩
  | .IMAGE_CONFIRM => ⟨.dev, 0x1100, 0x15, .u8, 0, 1, .sc, .none, 0, .none, (some (0, 1)), false⟩
  | .OWNER_KEY_ID => ⟨.dev, 0x1100, 0x20, .octets, 0, 32, .ro, .nonVolatile, 0, .none, .none, false⟩
  | .OWNER_KEY_STAGE => ⟨.dev, 0x1100, 0x21, .octets, 6, 1024, .rw, .volatile, 0, .none, .none, false⟩
  | .OWNER_KEY_SUBMIT => ⟨.dev, 0x1100, 0x22, .u16, 0, 2, .sc, .none, 0, .none, .none, false⟩
  | .OWNER_SEQ => ⟨.dev, 0x1100, 0x23, .u32, 0, 4, .ro, .nonVolatile, 0, .none, .none, false⟩
  | .OWNER_POLICY_STAGE => ⟨.dev, 0x1100, 0x24, .octets, 4, 1024, .rw, .volatile, 0, .none, .none, false⟩
  | .OWNER_POLICY_SUBMIT => ⟨.dev, 0x1100, 0x25, .u16, 0, 2, .sc, .none, 0, .none, .none, false⟩
  | .PROT_MAP => ⟨.dev, 0x1100, 0x26, .u64, 64, 8, .ro, .volatile, 0, .none, .none, false⟩
  | .PROT_MAP_DIGEST => ⟨.dev, 0x1100, 0x27, .octets, 0, 64, .ro, .volatile, 0, .none, .none, false⟩
  | .DEVICE_PUBKEY => ⟨.dev, 0x1100, 0x30, .octets, 0, 1952, .const, .none, 0, .none, .none, false⟩
  | .DEVICE_CERT => ⟨.dev, 0x1100, 0x31, .octets, 8, 1024, .const, .none, 0, .none, .none, false⟩
  | .DEVICE_CERT_LENGTH => ⟨.dev, 0x1100, 0x32, .u16, 0, 2, .const, .none, 0, .none, .none, false⟩
  | .ATTEST_NONCE => ⟨.dev, 0x1100, 0x33, .octets, 0, 32, .wo, .volatile, 0, .none, .none, false⟩
  | .ATTEST_REPORT => ⟨.dev, 0x1100, 0x34, .octets, 4, 1024, .ro, .volatile, 0, .none, .none, false⟩
  | .ATTEST_STATUS => ⟨.dev, 0x1100, 0x35, .bits16, 0, 2, .ro, .volatile, 0, .none, .none, false⟩
  | .CFG_CANDIDATE => ⟨.dev, 0x1200, 0x01, .octets, 2048, 1024, .rws, .nonVolatile, 0, .none, .none, false⟩
  | .CFG_CHECK => ⟨.dev, 0x1200, 0x02, .u8, 0, 1, .sc, .none, 0, .none, (some (0, 1)), false⟩
  | .CFG_CHECK_RESULT => ⟨.dev, 0x1200, 0x03, .u8, 0, 1, .ro, .volatile, 0, .none, .none, false⟩
  | _ => .absent

/-- Objects of chapter 16, part 2: the rows of its object tables. -/
def Reg.info16b : Reg → RegInfo
  | .CFG_COMMIT => ⟨.dev, 0x1200, 0x04, .u8, 0, 1, .sc, .none, 0, .none, (some (0, 1)), false⟩
  | .CFG_COMMIT_REASON => ⟨.dev, 0x1200, 0x05, .u8, 0, 1, .ro, .volatile, 0, .none, .none, false⟩
  | .CFG_COMMIT_DETAIL => ⟨.dev, 0x1200, 0x06, .u32, 0, 4, .ro, .volatile, 0, .none, .none, false⟩
  | .CFG_CONFIRM => ⟨.dev, 0x1200, 0x07, .u32, 0, 4, .wo, .none, 0, .none, .none, false⟩
  | .CFG_ROLLBACK => ⟨.dev, 0x1200, 0x08, .u8, 0, 1, .sc, .none, 0, .none, (some (0, 1)), false⟩
  | .CFG_CAPTURE => ⟨.dev, 0x1200, 0x09, .u8, 0, 1, .sc, .none, 0, .none, (some (0, 1)), false⟩
  | .CFG_LOAD_FACTORY => ⟨.dev, 0x1200, 0x0A, .u8, 0, 1, .sc, .none, 0, .none, (some (0, 1)), false⟩
  | .CFG_CONFIRM_TIMEOUT => ⟨.dev, 0x1200, 0x0B, .u32, 0, 4, .rw, .persistent, 60, .none, (some (1, 86400)), false⟩
  | .CFG_STATE => ⟨.dev, 0x1200, 0x0C, .bits32, 0, 4, .ro, .volatile, 0, .none, .none, false⟩
  | .CFG_SLOTS => ⟨.dev, 0x1200, 0x0D, .octets, 4, 80, .ro, .volatile, 0, .none, .none, false⟩
  | .CFG_DEADLINE => ⟨.dev, 0x1200, 0x0E, .time96, 0, 12, .ro, .volatile, 0xffffffffffffffffffffffff, .none, .none, false⟩
  | .CFG_REVERT_COUNT => ⟨.dev, 0x1200, 0x0F, .u32, 0, 4, .ro, .volatile, 0, .none, .none, true⟩
  | .UPSETT_TAG => ⟨.dev, 0x1200, 0x10, .u32, 0, 4, .rw, .volatile, 0, .none, .none, false⟩
  | .UPSETT_REPORT => ⟨.dev, 0x1200, 0x11, .u16, 256, 2, .ro, .volatile, 0, .none, .none, false⟩
  | _ => .absent

/-- Objects of chapter 17: the rows of its object tables. -/
def Reg.info17 : Reg → RegInfo
  | .EV_RING => ⟨.dev, 0x3000, 0x01, .octets, 4096, 32, .ro, .volatile, 0, .none, .none, false⟩
  | .EV_WRITE_COUNT => ⟨.dev, 0x3000, 0x02, .u64, 0, 8, .ro, .volatile, 0, .none, .none, false⟩
  | .EV_READ_COUNT => ⟨.dev, 0x3000, 0x03, .u64, 0, 8, .rw, .volatile, 0, .none, .none, false⟩
  | .EV_FILL => ⟨.dev, 0x3000, 0x04, .u16, 0, 2, .ro, .volatile, 0, .none, .none, false⟩
  | .EV_RING_MODE => ⟨.dev, 0x3000, 0x05, .u8, 0, 1, .rw, .persistent, 0, .none, (some (0, 1)), false⟩
  | .EV_COALESCE_WINDOW => ⟨.dev, 0x3000, 0x06, .u32, 0, 4, .rw, .persistent, 10, .none, (some (1, 1000)), false⟩
  | .EV_DROP => ⟨.dev, 0x3000, 0x07, .u32, 4, 4, .ro, .volatile, 0, .none, .none, true⟩
  | .EV_COALESCED_COUNT => ⟨.dev, 0x3000, 0x08, .u32, 0, 4, .ro, .volatile, 0, .none, .none, true⟩
  | .EV_OVERWRITTEN => ⟨.dev, 0x3000, 0x09, .u32, 0, 4, .ro, .volatile, 0, .none, .none, true⟩
  | .EV_OVERFLOW => ⟨.dev, 0x3000, 0x0A, .octets, 0, 32, .ro, .volatile, 0, .none, .none, false⟩
  | .EV_PENDING_MAP => ⟨.dev, 0x3000, 0x0B, .bits64, 64, 8, .ro, .volatile, 0, .none, .none, false⟩
  | .EV_CODES => ⟨.dev, 0x3000, 0x0C, .u32, 1024, 4, .const, .none, 0, .none, .none, false⟩
  | .INT_ENABLE => ⟨.dev, 0x3000, 0x10, .bits64, 0, 8, .rw, .persistent, 0xc00000000000, (some 0xffffffffffff), .none, false⟩
  | .INT_FILL_LEVEL => ⟨.dev, 0x3000, 0x11, .u16, 0, 2, .rw, .persistent, 2048, .none, (some (0, 4096)), false⟩
  | .FAULT_ENABLE => ⟨.dev, 0x3000, 0x12, .bits16, 0, 2, .rw, .persistent, 63, (some 0x3f), .none, false⟩
  | .FAULT_STATUS => ⟨.dev, 0x3000, 0x13, .bits16, 0, 2, .ro, .volatile, 0, .none, .none, false⟩
  | .WDT_TIMEOUT => ⟨.dev, 0x3000, 0x20, .u32, 0, 4, .rw, .persistent, 100, .none, (some (10, 10000)), false⟩
  | .WDT_RESTART_COUNT => ⟨.dev, 0x3000, 0x21, .u32, 0, 4, .ro, .volatile, 0, .none, .none, true⟩
  | _ => .absent

/-- Objects of chapter 18: the rows of its object tables. -/
def Reg.info18 : Reg → RegInfo
  | .VIN_VOLTAGE => ⟨.dev, 0xA000, 0x01, .u16, 0, 2, .ro, .volatile, 0, .none, .none, false⟩
  | .VIN_CURRENT => ⟨.dev, 0xA000, 0x02, .u32, 0, 4, .ro, .volatile, 0, .none, .none, false⟩
  | .VIN_POWER => ⟨.dev, 0xA000, 0x03, .u32, 0, 4, .ro, .volatile, 0, .none, .none, false⟩
  | .LID_TEMP => ⟨.dev, 0xA000, 0x04, .s16, 0, 2, .ro, .volatile, 0, .none, .none, false⟩
  | .THERM_WARN => ⟨.dev, 0xA000, 0x05, .s16, 0, 2, .rw, .persistent, 1680, .none, (some (1360, 1760)), false⟩
  | .MON_STATUS => ⟨.dev, 0xA000, 0x06, .bits16, 0, 2, .ro, .volatile, 0, .none, .none, false⟩
  | .TEMP_PEAK => ⟨.dev, 0xA000, 0x07, .s16, 0, 2, .ro, .volatile, 0, .none, .none, false⟩
  | .TILE_TEMP => ⟨.tile, 0xA000, 0x01, .s16, 0, 2, .ro, .volatile, 0, .none, .none, false⟩
  | .TILE_CORE_V => ⟨.tile, 0xA000, 0x02, .u16, 0, 2, .ro, .volatile, 0, .none, .none, false⟩
  | .TILE_POWER => ⟨.tile, 0xA000, 0x03, .u32, 0, 4, .ro, .volatile, 0, .none, .none, false⟩
  | _ => .absent

/-- The row of its object table for every object. -/
def Reg.info (r : Reg) : RegInfo :=
  let n := r.ctorIdx
  if n < 16 then r.info02
  else if n < 46 then r.info03
  else if n < 66 then r.info04
  else if n < 83 then r.info05
  else if n < 99 then r.info06
  else if n < 129 then r.info07a
  else if n < 142 then r.info07b
  else if n < 172 then r.info08a
  else if n < 176 then r.info08b
  else if n < 206 then r.info09a
  else if n < 228 then r.info09b
  else if n < 258 then r.info10a
  else if n < 272 then r.info10b
  else if n < 294 then r.info11
  else if n < 324 then r.info12a
  else if n < 333 then r.info12b
  else if n < 363 then r.info13a
  else if n < 384 then r.info13b
  else if n < 408 then r.info14
  else if n < 438 then r.info15a
  else if n < 441 then r.info15b
  else if n < 471 then r.info16a
  else if n < 485 then r.info16b
  else if n < 503 then r.info17
  else r.info18

/-- Objects of chapter 2. -/
def Reg.chapter02 : List Reg :=
  [
   .QUAD_FORMATION, .PORT_MODE, .PORT_ENABLE, .PORT_ABILITY, .PORT_MODE_ACTIVE, .PORT_PAIRS_ACTIVE, .PORT_LANE_MAP,
   .PORT_PAIR_DOWNSHIFT, .PORT_MIN_PAIRS, .PORT_PAYLOAD_RATE, .PE_TX_SCR_SEED, .PE_RX_SCR_SEED, .PE_TX_LANE,
   .PE_RX_LANE, .PE_LANE_STATUS, .PE_RX_SKEW]

/-- Objects of chapter 3. -/
def Reg.chapter03 : List Reg :=
  [
   .AN_STATUS, .AN_PARTNER_ABILITY, .AN_PARTNER_WA, .MS_CONFIG, .MS_RESULT, .PAUSE_ADV, .LINK_STATE, .LINK_UP,
   .TRAIN_SOURCE, .TRAIN_CLASS, .TRAIN_TIME, .LINK_EPOCH, .TRAIN_RESTART, .DOWNSHIFT_ENABLE, .DOWNSHIFT_ATTEMPTS,
   .DOWNSHIFT_CEILING, .AUXCRC_LIMIT, .LINK_DOWN_CAUSE, .TRAIN_CLASS_GATE, .FAST_RETRAIN_ENABLE, .TIME_LAST_UP,
   .T3_MARGIN_MIN, .TRAIN_COUNT, .TRAIN_FAIL_COUNT, .FAST_COUNT, .FAST_FAIL_COUNT, .LINK_DOWN_COUNT, .PE_TRAIN_PHASE,
   .PE_TRAIN_STATUS, .PE_T3_MARGIN]

/-- Objects of chapter 4. -/
def Reg.chapter04 : List Reg :=
  [
   .TX_PIPE_DELAY, .PE_SNR, .PE_MARGIN, .PE_ECHO_RESIDUAL, .PE_PGA_GAIN, .PE_TIMING_PHASE, .PE_FREQ_OFFSET,
   .PE_LDPC_ITER_LIMIT, .PE_LDPC_ITER_MEAN, .PE_TX_BACKOFF, .PE_COEF, .PE_COEF_FREEZE, .PE_CAPTURE_TRIGGER,
   .PE_CAPTURE, .PE_PRECODER_APPLIED, .PE_PRECODER_ABANDONED, .PE_STORE_STATUS, .PE_STORE_SEC_COUNT,
   .PE_STORE_DED_COUNT, .PE_RX_PIPE_DELAY]

/-- Objects of chapter 5. -/
def Reg.chapter05 : List Reg :=
  [
   .ANC_ADMIT, .ANC_DROP, .ANC_SCAN_PERIOD, .ANC_HOLD_TIME, .ANC_MAP_PERSIST, .ANC_MAP_CLEAR, .ANC_MAP_STATUS,
   .ANC_MAP_VERSION, .WEAVE_MAP, .ANC_ENABLE, .ANC_SLOT, .ANC_STATUS, .ANC_GAIN, .ANC_PASS_COUNT, .ANC_ADMIT_COUNT,
   .ANC_DROP_COUNT, .ANC_DISCARD_COUNT]

/-- Objects of chapter 6. -/
def Reg.chapter06 : List Reg :=
  [
   .LPI_ENABLE, .LPI_WAKE_GUARD, .LPI_MIN_QUIET, .LPI_REFRESH_MIN_MARGIN, .LPI_STATE, .LPI_STATUS, .LPI_WAKE_TIME,
   .LPI_NEXT_WAKE, .LPI_ENTRY_COUNT, .LPI_QUIET_TIME, .LPI_WAKE_TIMED_COUNT, .LPI_WAKE_PARTNER_COUNT,
   .LPI_WAKE_OTHER_COUNT, .LPI_LATE_WAKE_COUNT, .LPI_REFRESH_FAIL_COUNT, .PE_LPI_REFRESH_MARGIN]

/-- Objects of chapter 7. -/
def Reg.chapter07 : List Reg :=
  [
   .PLANT_ADJ_MIN, .PLANT_MAP_BUILD, .PLANT_MAP, .PLANT_MAP_ROWS, .PLANT_MAP_VERSION, .LED_ENABLE, .LED_CONFIG,
   .LED_LOCATE, .TDR_START, .TDR_STATUS, .TDR_NVP, .TDR_ORIGIN, .CABLE_FINGERPRINT, .CABLE_FP_STORED,
   .REFLECT_WATCH_PERIOD, .REFLECT_ALARM, .LQ_MARGIN_WARN, .LQ_UNCORR_WARN, .LQ_STATUS, .LQ_RESET, .SKEW_SPAN,
   .SKEW_SPAN_MAX, .TDR_RESULT, .TDR_FAULT, .TDR_FAULT_DIST, .TDR_NOISE, .CW_COUNT, .CW_CORRECTED, .CW_UNCORRECTABLE,
   .CW_AUXCRC_FAIL, .BITS_CORRECTED, .MGMT_DISCARD, .LDPC_ITER_HIST, .REALIGN_COUNT, .PE_MARGIN_MIN, .PE_MARGIN_MAX,
   .LOW_MARGIN_TIME, .SYMBOL_ERR_COUNT, .REFLECT_TRIGGER, .REFLECTOGRAM, .REFLECT_BIN, .REFLECT_ORIGIN,
   .REFLECT_CHANGE_DIST]

/-- Objects of chapter 8. -/
def Reg.chapter08 : List Reg :=
  [
   .HL_AUTO_REMAP, .TAG_GRACE, .HOST_PAUSE_HONOUR, .HL_MAP, .HL_ENTRIES, .HL_MAP_ACTIVE, .HL_CAPACITY,
   .HL_PORT_STATUS, .TX_TAG_ENABLE, .RX_TAG_ENABLE, .TX_TAG_MALFORMED, .TX_QUEUE_MISS, .HOST_RX_ERROR,
   .MAC_CTRL_DISCARD, .RX_FIFO_DROP, .RX_MAX_FRAME, .RX_OVERSIZE, .PFC_ENABLE, .PFC_PRIORITY_MAP, .PFC_HEADROOM,
   .PFC_QUANTA, .PFC_STATUS, .PFC_FRAME_COUNT, .HL_STATUS, .HL_POLARITY, .HL_TX_EQ, .HL_FORCE_FAIL, .HL_PRBS_GEN,
   .HL_PRBS_CHK, .HL_PRBS_ERR, .HL_FEC_CORRECTED, .HL_FEC_UNCORR, .HL_LS_MARKER_ERR, .HL_FAULT_COUNT]

/-- Objects of chapter 9. -/
def Reg.chapter09 : List Reg :=
  [
   .TIME_NOW, .TIME_SNAPSHOT, .TIME_SNAPSHOT_VALUE, .TIME_SET, .TIME_STEP, .TIME_RATE_ADJ, .TIME_VALID, .TIME_SOURCE,
   .TIME_SERVO_MODE, .TIME_SERVO_STATE, .TIME_SERVO_INPUT, .TIME_STEP_THRESHOLD, .TIME_VALID_LIMIT,
   .TIME_INPUT_TIMEOUT, .TIME_HOLDOVER_VALID, .TIME_OFFSET_LAST, .TIME_FREQ_CORR, .TIME_LAST_STEP, .TIME_STEP_COUNT,
   .ROOT_DISCIPLINE, .ROOT_LINE_PORT, .ROOT_TRIM, .ROOT_STATUS, .REF_IN_FREQ, .PPS_IN_POLARITY, .PPS_IN_DELAY,
   .PPS_IN_TIME, .PPS_IN_COUNT, .PPS_OUT_MODE, .PPS_OUT_OFFSET, .PPS_OUT_WIDTH, .TA_TABLE, .TA_CANCEL,
   .TA_LATE_WINDOW_DEFAULT, .TA_ARMED_COUNT, .TA_LATE_COUNT, .TA_REFUSED_COUNT, .TA_FAILED_COUNT, .PTP_ENABLE,
   .PTP_TX_MODE, .PTP_RX_CORRECT, .PTP_CORRECT_MASK, .PTP_TX_DEFAULT, .TS_MSG_OFFSET, .TS_STATUS, .TS_REF_PE,
   .TX_TS_REPORT, .TX_TS_SEQ, .PTP_RX_COUNT, .PTP_TX_COUNT, .PTP_MODIFIED_COUNT, .PTP_MALFORMED]

/-- Objects of chapter 10. -/
def Reg.chapter10 : List Reg :=
  [
   .Q_BLOCK_OWNER, .Q_BLOCKS, .Q_DEFAULT, .Q_FLUSH, .Q_OOO_COUNT, .Q_CONFIG, .Q_COUNTERS, .SVC_CONFIG, .SVC_COUNTERS,
   .FLOW_SHAPER, .FLOW_SHAPER_STATE, .SVC_SHAPER, .SVC_SHAPER_STATE, .PORT_SHAPER, .PORT_SHAPER_STATE,
   .SHAPER_OVERHEAD, .GATE_ENABLE, .GATE_SWAP, .GATE_STATUS, .GATE_SWAP_TIME, .GATE_OVERRUN_COUNT, .GCL0_BASE,
   .GCL0_CYCLE, .GCL0_LENGTH, .GCL0_ENTRY, .GCL1_BASE, .GCL1_CYCLE, .GCL1_LENGTH, .GCL1_ENTRY, .MM_ENABLE,
   .MM_VERIFY_TIME, .MM_ADD_FRAG_SIZE, .MM_STATUS, .MM_FRAG_TX, .MM_FRAG_RX, .MM_ASSEMBLY_OK, .MM_ASSEMBLY_ERR,
   .MM_SMD_ERR, .MTR_CONFIG, .MTR_COUNTS, .RX_FLOW_SELECT, .RX_METER_BASE, .RX_METER_COUNT, .RX_RED_DISCARD]

/-- Objects of chapter 11. -/
def Reg.chapter11 : List Reg :=
  [
   .BUF_STATUS, .BUF_ACTIVE_CHANNELS, .BUF_CELLS_TOTAL, .BUF_CELLS_FREE, .BUF_DELIVERABLE, .BUF_DEMAND,
   .BUF_COMMIT_REASON, .BUF_MISS_STATUS, .BUF_REEVALUATE, .BUF_EXCESS_FLOOR, .BUF_SCRUB_PERIOD, .BUF_CE_LIMIT,
   .BUF_DESC_FREE, .PORT_BUF_LIMIT, .PORT_BUF_OCC, .SVC_BUF, .SVC_BUF_STATE, .QC_STATE, .QC_CE_COUNT, .QC_UE_COUNT,
   .QC_RETIRE, .QC_REPLACED_BY]

/-- Objects of chapter 12. -/
def Reg.chapter12 : List Reg :=
  [
   .WALE_ENABLE, .WALE_ROOT_PRIORITY, .WALE_ADDR_REQUEST, .WALE_ADDRESS, .WALE_ROOT_ID, .WALE_ROOT_DISTANCE,
   .WALE_UPSTREAM, .WALE_STATUS, .WALE_DEVICE_COUNT, .WALE_LSDB, .WALE_ROUTES, .WALE_SYNC_INTERVAL,
   .WALE_DELAY_INTERVAL, .WALE_EVENT_DEST, .WALE_EVENT_MIN, .WALE_NO_ROUTE, .WALE_ADDR_CHANGES, .WALE_LSA_SEQ,
   .WL_ENABLE, .WL_STATE, .WL_STATUS, .WL_SLIP_MODE, .WL_SLIP, .WL_SLIP_POS, .WL_HDR_VALID, .WL_TX_INVERT, .WL_TX_EQ,
   .WL_COST, .WL_DELAY_ASYM, .WL_LINK_DELAY, .WL_PARTNER_ID, .WL_PARTNER_PORT, .WL_WAKE_SEND, .WL_HDR_ERR,
   .WL_CRC_ERR, .WL_DROP, .WL_TX_PACKETS, .WL_RX_PACKETS, .WL_LINK_DOWN_COUNT]

/-- Objects of chapter 13. -/
def Reg.chapter13 : List Reg :=
  [
   .DEVICE_ID, .PART_NUMBER, .MODULE_REVISION, .VENDOR_OUI, .SERIAL_NUMBER, .DICT_VERSION, .SNAPSHOT_DEV,
   .SNAPSHOT_PORT, .SNAPSHOT_HLANE, .SNAPSHOT_WL, .SNAPSHOT_QC, .SNAPSHOT_MGMT, .SNAPSHOT_SPI, .SNAP_TIME_DEV,
   .SNAP_TIME_PORT, .SNAP_TIME_HLANE, .SNAP_TIME_WL, .SNAP_TIME_QC, .SNAP_TIME_MGMT, .SNAP_TIME_SPI,
   .SNAP_STATUS_DEV, .SNAP_STATUS_PORT, .SNAP_STATUS_HLANE, .SNAP_STATUS_WL, .SNAP_STATUS_QC, .SNAP_STATUS_MGMT,
   .SNAP_STATUS_SPI, .EV_STATUS_DEV, .EV_STATUS_TILE, .EV_STATUS_QUAD, .EV_STATUS_PORT, .EV_STATUS_PE, .EV_STATUS_WL,
   .EV_STATUS_MGMT, .EV_STATUS_SPI, .EV_STATUS_HLANE, .EV_STATUS_QC, .DAP_MAC, .DAP_ETHERTYPE, .DAP_HOST_ENABLE,
   .DAP_REQUESTS, .DAP_MALFORMED, .DAP_REPLAYS, .DAP_RELAYED, .DAP_LINE_ENABLE, .MGMT_ENABLE, .MGMT_AN_ENABLE,
   .MGMT_STATUS, .MGMT_RX_DISCARD, .SPI_STATUS, .SPI_CRC_ERR]

/-- Objects of chapter 14. -/
def Reg.chapter14 : List Reg :=
  [
   .PWR_REQUEST, .PWR_STATUS, .PWR_DIRECT, .PWR_TEST_MODE, .PWR_REFUSE, .PWR_REFUSE_COUNT, .PWR_TRANSITION_COUNT,
   .WAKE_SOURCES, .WAKE_LINE_QUAL, .WAKE_WALE_QUAL, .WAKE_CAUSE, .WAKE_TIME, .WAKE_STEP_FAIL, .TILE_STATE,
   .TILE_REQUEST, .TILE_PL_MODE, .TILE_PL_SET, .TILE_PL_ACTIVE, .TILE_PWR_STATUS, .TILE_REG_FAIL_COUNT, .CLK_DOMAIN,
   .LEGACY_GATE, .CLKSW_FORCED_COUNT, .FRO_FREQ]

/-- Objects of chapter 15. -/
def Reg.chapter15 : List Reg :=
  [
   .CAL_ENABLE, .CAL_STORE_PERIOD, .CAL_STATUS, .CAL_WALE_DELAY, .CAL_START, .CAL_PE_STATUS, .CAL_RECORD,
   .CAL_RECORD_STORED, .CAL_VISIT_COUNT, .CAL_REJECT_COUNT, .CAL_ROUND_TIME, .POST_SELECT, .POST_SUMMARY, .POST_TIME,
   .BIST_INSERVICE_ENABLE, .BIST_SLICE_TIME, .BIST_SLICE_INTERVAL, .BIST_REQUEST, .BIST_LOG, .BIST_LOG_COUNT,
   .SCHED_QUAD_STATE, .BIST_SLICE_COUNT, .BIST_INCOMPLETE_COUNT, .BIST_STATE_TILE, .BIST_STATE_PE, .BIST_STATE_HLANE,
   .BIST_STATE_WL, .BIST_STATE_QC, .BIST_LAST_TILE, .BIST_LAST_PE, .BIST_LAST_HLANE, .BIST_LAST_WL, .BIST_LAST_QC]

/-- Objects of chapter 16. -/
def Reg.chapter16 : List Reg :=
  [
   .BOOT_STATUS, .RESET_CAUSE, .DEVICE_RESET, .START_TIME, .BOOT_PREFER, .ANTI_ROLLBACK, .MILHOLT_KEY_REVOKED,
   .IMAGE_INFO, .IMAGE_WRITE, .IMAGE_ERASE, .IMAGE_VERIFY, .IMAGE_SELECT_NEXT, .IMAGE_CONFIRM, .OWNER_KEY_ID,
   .OWNER_KEY_STAGE, .OWNER_KEY_SUBMIT, .OWNER_SEQ, .OWNER_POLICY_STAGE, .OWNER_POLICY_SUBMIT, .PROT_MAP,
   .PROT_MAP_DIGEST, .DEVICE_PUBKEY, .DEVICE_CERT, .DEVICE_CERT_LENGTH, .ATTEST_NONCE, .ATTEST_REPORT,
   .ATTEST_STATUS, .CFG_CANDIDATE, .CFG_CHECK, .CFG_CHECK_RESULT, .CFG_COMMIT, .CFG_COMMIT_REASON,
   .CFG_COMMIT_DETAIL, .CFG_CONFIRM, .CFG_ROLLBACK, .CFG_CAPTURE, .CFG_LOAD_FACTORY, .CFG_CONFIRM_TIMEOUT,
   .CFG_STATE, .CFG_SLOTS, .CFG_DEADLINE, .CFG_REVERT_COUNT, .UPSETT_TAG, .UPSETT_REPORT]

/-- Objects of chapter 17. -/
def Reg.chapter17 : List Reg :=
  [
   .EV_RING, .EV_WRITE_COUNT, .EV_READ_COUNT, .EV_FILL, .EV_RING_MODE, .EV_COALESCE_WINDOW, .EV_DROP,
   .EV_COALESCED_COUNT, .EV_OVERWRITTEN, .EV_OVERFLOW, .EV_PENDING_MAP, .EV_CODES, .INT_ENABLE, .INT_FILL_LEVEL,
   .FAULT_ENABLE, .FAULT_STATUS, .WDT_TIMEOUT, .WDT_RESTART_COUNT]

/-- Objects of chapter 18. -/
def Reg.chapter18 : List Reg :=
  [
   .VIN_VOLTAGE, .VIN_CURRENT, .VIN_POWER, .LID_TEMP, .THERM_WARN, .MON_STATUS, .TEMP_PEAK, .TILE_TEMP, .TILE_CORE_V,
   .TILE_POWER]

/-- Every object of the dictionary. -/
def Reg.all : List Reg :=
  Reg.chapter02 ++ Reg.chapter03 ++ Reg.chapter04 ++ Reg.chapter05 ++ Reg.chapter06 ++ Reg.chapter07 ++ Reg.chapter08 ++ Reg.chapter09 ++ Reg.chapter10 ++ Reg.chapter11 ++ Reg.chapter12 ++ Reg.chapter13 ++ Reg.chapter14 ++ Reg.chapter15 ++ Reg.chapter16 ++ Reg.chapter17 ++ Reg.chapter18

end Sys2Proof.Machine
end

