-- ==== Sys2Proof/Machine/Tab.lean ====
section
/-!
DEFINITION. Sparse tables: a list of keys with their values, sorted by key, no key twice. `get?` looks a key up, `put`
writes one, `del` removes one. A table with a default reads the default where it lists nothing.
-/
set_option Elab.async false
namespace Sys2Proof.Machine

/-- A sparse table. -/
abbrev Tab (κ α : Type) := List (κ × α)

/-- The value a table lists for a key. -/
def Tab.get? {κ α : Type} [DecidableEq κ] : Tab κ α → κ → Option α
  | [], _ => none
  | (k', v) :: t, k => if k = k' then some v else Tab.get? t k

/-- The value of a key, or the default. -/
def Tab.getD {κ α : Type} [DecidableEq κ] (t : Tab κ α) (k : κ) (d : α) : α :=
  match t.get? k with
  | some v => v
  | none => d

/-- Write a key: replace its entry, or insert one before the first greater key. -/
def Tab.put {κ α : Type} [DecidableEq κ] [Ord κ] : Tab κ α → κ → α → Tab κ α
  | [], k, v => [(k, v)]
  | (k', v') :: t, k, v =>
    if k = k' then (k, v) :: t
    else if compare k k' = .lt then (k, v) :: (k', v') :: t
    else (k', v') :: Tab.put t k v

/-- Remove a key. -/
def Tab.del {κ α : Type} [DecidableEq κ] : Tab κ α → κ → Tab κ α
  | [], _ => []
  | (k', v') :: t, k => if k = k' then Tab.del t k else (k', v') :: Tab.del t k

/-- Write a key in a table whose unlisted keys read `d`: the default itself is not listed, so that tables with equal
contents are equal. -/
def Tab.set {κ α : Type} [DecidableEq κ] [Ord κ] [DecidableEq α] (t : Tab κ α) (k : κ) (v d : α) : Tab κ α :=
  if v = d then t.del k else t.put k v

/-- Change the value of a key, read with the default `d`. -/
def Tab.upd {κ α : Type} [DecidableEq κ] [Ord κ] [DecidableEq α] (t : Tab κ α) (k : κ) (d : α) (f : α → α) : Tab κ α :=
  t.set k (f (t.getD k d)) d

/-- The keys stand in strictly rising order. -/
def Tab.sorted {κ α : Type} [Ord κ] : Tab κ α → Bool
  | [] => true
  | [_] => true
  | (a, _) :: (b, v) :: t => compare a b = .lt && Tab.sorted ((b, v) :: t)

end Sys2Proof.Machine
end

