-- ==== Sys2Proof/Machine/State.lean ====
section
/-!
DEFINITION. The state of the block as plain data: the objects of the dictionary, what the chapters describe beside them,
the non-volatile memory, and the queue of waiting commands. Field defaults are the values at reset.
-/
set_option Elab.async false
namespace Sys2Proof.Machine

/-- One cell of the dictionary: an object, the instance number within its class, and the row (R7). -/
structure Key where
  reg : Reg
  inst : Nat
  row : Nat
deriving DecidableEq, Repr, Ord

/-- Abort codes (Table 13-8); `notAttempted` is the 0xFF of an operation that was not carried out (R321). -/
inductive Abort where
  | ok | noObject | noSubindex | readOnly | writeOnly | range | wrongType | guarded | state | asleep | stale | busy
  | commitRefused | row | notAttempted
deriving DecidableEq, Repr

/-- The result of the latest dictionary access: its abort code and the value it returned, as octets. -/
structure Access where
  abort : Abort := .ok
  value : List Octet := []
deriving DecidableEq, Repr

/-- An event record (Table 17-1). `time` is a TIME96 value and `last` is in nanoseconds. -/
structure EvRec where
  seq : Nat
  time : Nat
  sev : Sev
  coalesced : Bool
  timeValid : Bool
  inst : Nat
  code : Nat
  data : Nat
  count : Nat
  last : Nat
  src : Nat
deriving DecidableEq, Repr

/-- An occurrence raised within a command and not yet taken by the event engine. -/
structure Occ where
  inst : Nat
  ev : EvName
  data : Nat
deriving DecidableEq, Repr

/-- An open coalescing window of the rate limiter (R401): its key, and what has been folded into it. `first` and `last`
are time-base values in units of 2^-48 ns. -/
structure Window where
  inst : Nat
  ev : EvName
  folded : Nat := 0
  first : Nat := 0
  firstValid : Bool := false
  firstData : Nat := 0
  last : Nat := 0
deriving DecidableEq, Repr

/-- The event engine (chapter 17): the ring by row, the open windows with the least recently opened first, the overflow
record being gathered (R403), and the root edge of the latest LIMITER_FULL record (R401). -/
structure EventEngine where
  ring : Tab Nat EvRec := []
  windows : List Window := []
  overflow : Option EvRec := none
  overflowFrom : Nat := 0
  seq : Nat := 0
  limiterAt : Option Nat := none
  raised : List Occ := []
deriving DecidableEq, Repr

/-- States of a neighbour slot (Table 5-2). -/
inductive SlotState where
  | empty | probation | active | frozen
deriving DecidableEq, Repr

/-- A neighbour slot (Table 5-4); `below` says that X was below `ANC_DROP` at the end of the previous pass (R126). -/
structure Slot where
  state : SlotState := .empty
  pinned : Bool := false
  neighbour : Nat := 0
  mode : Nat := 0
  lag : Nat := 0
  x : Int := 0
  gain : Int := 0
  below : Bool := false
deriving DecidableEq, Repr

/-- What the alien-NEXT canceller of a victim keeps: its slots, whether a pass runs and whether it is a first pass, whether a first
pass has completed, and whether `ANC_MAP_CLEAR` came during the pass (R125, R136); the root edge at which the latest pass since
`LINK_UP` started; and `SLOTS_FULL`. -/
structure AncSt where
  slots : Tab Nat Slot := []
  passing : Bool := false
  passFirst : Bool := false
  cleared : Bool := false
  firstDone : Bool := false
  startAt : Option Nat := none
  full : Bool := false
deriving DecidableEq, Repr

/-- An entry of the MRAM copy of the weave map (R132). -/
structure WeaveEntry where
  victim : Nat
  slot : Nat
  neighbour : Nat
  mode : Nat
  lag : Nat
  pinned : Bool
deriving DecidableEq, Repr

/-- Device states (Table 14-5). -/
inductive PwrState where
  | active | standby | off | wakeFault
deriving DecidableEq, Repr

/-- Tile states (Table 14-6). -/
inductive TileState where
  | run | sleep | isolated | down
deriving DecidableEq, Repr

/-- What the power controller keeps of a tile (R339 to R346): its state, the pending request, the blocks that have agreed to
its handshake if one is in progress, whether its entry to sleep or its wake has started, failed regulator attempts, its level,
the level it is changing to and the one kept for later. -/
structure TileSt where
  st : TileState := .down
  pending : Option TileState := none
  agreed : Option (List Nat) := none
  entering : Bool := false
  waking : Bool := false
  tries : Nat := 0
  level : Nat := 3
  levelTarget : Option Nat := none
  levelPending : Option Nat := none
  regFault : Bool := false
deriving DecidableEq, Repr

/-- Steps of the wake of Table 14-10 that complete or fail: 1, 3, 4, 5, and 6 for each tile group. -/
inductive WakeStep where
  | fro | reference | pll | domains | group (g : Fin 4)
deriving DecidableEq, Repr

/-- What the power controller keeps of the device (R331 to R352). -/
structure PowerSt where
  state : PwrState := .active
  /-- State that a handshake or an entry in progress leads to. -/
  target : PwrState := .active
  pending : Option PwrState := none
  /-- The pending request came by `PWR_DIRECT`; the state in force was entered by the direct path (R348). -/
  pendingDirect : Bool := false
  /-- `WAKE_CAUSE` of the pending request: the bit of its source, or 0x10 (R345). -/
  pendingCause : Nat := 0x10
  direct : Bool := false
  /-- Blocks that have agreed to the handshake in progress, if one is. -/
  agreed : Option (List Nat) := none
  /-- Entry to `STANDBY` or `OFF` has started (R347). -/
  entering : Bool := false
  /-- Wake step in progress, and attempts of it that failed. -/
  waking : Option WakeStep := none
  tries : Nat := 0
  /-- The steps in progress are attempts to lock again after a loss in service (R23). -/
  relock : Bool := false
  tiles : Tab Nat TileSt := []
  /-- The FRO runs (Table 14-1). -/
  fro : Bool := false
  /-- The root PLL is locked and D00 runs. -/
  rootOn : Bool := false
  /-- The host PLL is locked. -/
  hostPll : Bool := false
  /-- Domains that show `CLKSW_FORCED`, and those forced in a switch still in progress (R336). -/
  forced : List Nat := []
  forcedNow : List Nat := []
  /-- Levels of INT_N and FAULT_N kept from the entry to `STANDBY` or `OFF` (R408): true is low. -/
  pins : Option (Bool × Bool) := none
  /-- Root edges of the latest restarts of management cores, latest first, with the core (R409). -/
  restarts : List (Nat × Nat) := []
deriving DecidableEq, Repr

/-- States of a port's transmitter in LPI (Table 6-1). -/
inductive LpiState where
  | awake | sleep | quiet | refresh | wake
deriving DecidableEq, Repr

/-- Why a wake starts (R152). -/
inductive WakeCause where
  | partner | timed | other
deriving DecidableEq, Repr

/-- What a port keeps for low-power idle (chapter 6). -/
structure LpiSt where
  state : LpiState := .awake
  /-- The partner advertised `WA_LPI`, and EEE for the resolved standard mode; this end did, as it negotiated (R140). -/
  partnerW : Bool := false
  partnerEee : Bool := false
  localW : Bool := false
  localEee : Bool := false
  /-- Root edge of the entry to `LINK_UP` (R140), and that of the latest request refused or left unanswered (R145). -/
  upFrom : Nat := 0
  backFrom : Option Nat := none
  /-- Number of the partner's latest request acted on (R39), and of the first codeword of the present phase (Table 6-1). -/
  reqIn : Option Nat := none
  phaseCw : Nat := 0
  /-- Root edge of the partner's quiet point (R143). -/
  partnerAt : Nat := 0
  /-- Lanes that met a link-down criterion while this end was committed, and its cause: handled after the wake (R145). -/
  failed : List Nat := []
  failCause : Nat := 0
  /-- Last `LPI_REQ_ID` used, the own quiet point, whether this end asked, and whether a `SLEEP_ACK` has arrived (R145). -/
  reqId : Nat := 0
  quietSeq : Nat := 0
  asked : Bool := false
  acked : Bool := false
  /-- The partner's quiet point, once it named one, and whether its transmitter is in LPI (`RX_LPI`). -/
  partnerSeq : Option Nat := none
  partnerQuiet : Bool := false
  /-- A wake that is due at the quiet point (R145). -/
  due : Option WakeCause := none
  /-- A characterisation runs; its refresh margin was enough, once that is known; its wake has started (R141). -/
  charRun : Bool := false
  charOk : Option Bool := none
  charWoke : Bool := false
  /-- Lanes whose first window after that wake has not ended. -/
  charLeft : List Nat := []
  /-- `LPI_OP` of the latest `MC_LPI` message sent (Table 6-2). -/
  sent : Nat := 0
  /-- Root edges spent in `LPI_QUIET`, and the root edge at which the present quiet phase began. -/
  quietEdges : Nat := 0
  quietFrom : Nat := 0
  /-- Consecutive refreshes that were missing (R146). -/
  miss : Nat := 0
  /-- The next needed instant as last computed and the instant at which it became known, both as time-base values; none
  while it is infinite (R150, R152). -/
  next : Option Nat := none
  known : Nat := 0
  /-- The planned wake (R151). -/
  plan : Option Nat := none
deriving DecidableEq, Repr

/-- States of the port link state machine (Table 3-10). -/
inductive LinkState where
  | disabled | anAbility | anNextPage | trainT0 | trainT1 | trainT2 | trainT3 | stdTrain | up | brk | fail | held
deriving DecidableEq, Repr

/-- Which negotiation protocol a port runs (R56). -/
inductive AnProto where
  | flp | dme
deriving DecidableEq, Repr

/-- A pair-drop switch of R48, this end's or the partner's: the request's number, the pair engines kept, the switch point
announced, and for this end's the number of that codeword since `TRAIN_T3`. -/
structure DropReq where
  id : Nat
  keep : List Nat
  switchSeq : Nat
  cw : Nat := 0
deriving DecidableEq, Repr

/-- What the link controller of a port keeps (chapters 2 and 3). -/
structure PortSt where
  /-- Link state (Table 3-10). -/
  link : LinkState := .disabled
  /-- Resolved, forced or last mode. -/
  mode : Option LineMode := none
  /-- Negotiation protocol (R56). -/
  proto : AnProto := .flp
  /-- The training in progress, or the last one, is a fast retrain. -/
  fast : Bool := false
  /-- `LINK_BREAK` or `LINK_HELD` is not left for a fast retrain (R81, R85). -/
  noFast : Bool := false
  /-- Mode chosen, the training waits for the tile level (R62, R27); it is a fast retrain. -/
  waitLevel : Bool := false
  waitFast : Bool := false
  /-- Mode whose failed full trainings are counted, and how many failed (R82). -/
  failMode : Option LineMode := none
  failCount : Nat := 0
  /-- Root edge of the entry to `TRAIN_T0` (R79, `TRAIN_TIME`). -/
  t0Root : Nat := 0
  /-- Own nonce and proposed or held epoch (R69, R70). -/
  nonce : Nat := 0
  epoch : Nat := 0
  /-- A valid partner base infofield has been received in this training (R434). -/
  gotBase : Bool := false
  /-- Root edges of the entries to `TRAIN_T1`, whose first symbol opens the training frames, to `TRAIN_T2` and to `TRAIN_T3` (R65,
  R72). -/
  t1Root : Nat := 0
  t2Root : Nat := 0
  t3Root : Nat := 0
  /-- Partner's port-level infofield values (Table 3-5). -/
  ifMode : Nat := 0
  ifNonce : Nat := 0
  ifEpoch : Nat := 0
  ifKeep : Nat := 0
  ifWidth : Nat := 0
  ifDownshift : Bool := false
  ifAck : Bool := false
  /-- `IF_ACK` = 1 is being sent. -/
  ackSent : Bool := false
  /-- Own keep set: lanes of the partner whose pair has completed `TRAIN_T1`. -/
  ownKeep : Nat := 0
  /-- Pair-loss downshift permitted at both ends (R47, R73). -/
  downshiftAgreed : Bool := false
  /-- Active pair engines in lane order (R45); empty when none. -/
  lanes : List Nat := []
  /-- PAM-16 is being sent in `TRAIN_T3` (R72); root edge of symbol s_0 of the codeword with number 0 (R35). -/
  pam16 : Bool := false
  seqAt : Nat := 0
  /-- Root edge from which the partner's codewords are expected, once a countdown frame has come (R72). -/
  rxAt : Option Nat := none
  /-- Active pair engines as the receiver deals them (R48). -/
  rxLanes : List Nat := []
  /-- Own pair-drop request, whether it has been acknowledged, and the partner's (R48). -/
  dropReq : Option DropReq := none
  dropAcked : Bool := false
  partnerDrop : Option DropReq := none
  /-- Switches announced in the own acknowledgement and in the partner's (R48, R49). -/
  dropAns : Option DropReq := none
  partnerAns : Option DropReq := none
  /-- Port-level messages that wait to be sent on every lane, oldest first: pair drop, and low-power idle (R39, R106). -/
  outDrop : List (BitVec 128) := []
  outLpi : List (BitVec 128) := []
  /-- Last `REQ_ID` used and last one acted on (R39). -/
  reqId : Nat := 0
  lastReqIn : Option Nat := none
  /-- Low-power idle. -/
  lpi : LpiSt := {}
deriving DecidableEq, Repr

/-- A precoder update being collected at the end whose transmitter is updated (R104). -/
structure PreIn where
  id : Nat
  switchSeq : Nat
  taps : Tab Nat Nat
deriving DecidableEq, Repr

/-- A precoder update sent by the end that computes taps (R103, R105). -/
structure PreOut where
  id : Nat
  switchSeq : Nat
  acked : Bool
deriving DecidableEq, Repr

/-- One 65-bit block delivered to the port, or an error block (R33, R44). -/
inductive RxBlock where
  | data (b : BitVec 65)
  | error
deriving DecidableEq, Repr

/-- What a pair engine keeps (chapters 2 to 4). -/
structure PeSt where
  /-- Words of the coefficient store that are not zero (R109). -/
  store : Tab Nat Nat := []
  /-- Register copies not yet written back (R109). -/
  copies : Tab Nat Nat := []
  /-- Adaptation is running (R98). -/
  adapting : Bool := false
  /-- Descrambler state (R37). -/
  rxScr : BitVec 58 := 0
  /-- Transmit seed and backoff in force since the latest training (R37, R65, R93). -/
  txSeed : Nat := 0
  backoff : Nat := 0
  /-- Precoder outputs, latest first, as S5.10 numbers (R94). -/
  hist : List Int := []
  /-- The codeword last sent, and the management message being sent (R34, R38). -/
  txCw : Option (BitVec 2048) := none
  msgOut : Option (BitVec 128) := none
  /-- `SEQ` expected in the lane's next codeword (R44, R46). -/
  rxSeq : Nat := 0
  /-- The latest management message that passed its checks (R39). -/
  msgIn : Option (BitVec 128) := none
  /-- `MGMT` words of the message being received, latest last, and whether every codeword of it converged (R38, R39). -/
  mgmtWords : List (BitVec 16) := []
  mgmtOk : Bool := true
  /-- Blocks of the latest codeword, as delivered (R44). -/
  blocks : List RxBlock := []
  /-- Consecutive uncorrectable codewords (R80) and consecutive `SEQ` mismatches (R46). -/
  uncorrRun : Nat := 0
  seqMiss : Nat := 0
  /-- Consecutive margin windows below 0 dB (R108). -/
  lowWindows : Nat := 0
  /-- Root edges of the latest `AUX_CRC` failures, latest first (R80). -/
  auxAt : List Nat := []
  /-- Partner's lane index, seed and class learned in this training (Table 3-5). -/
  ifLane : Option Nat := none
  ifSeed : Nat := 0
  ifClass : Nat := 0
  /-- Precoder segments of the last complete cycle, by index, those of the present cycle, and how many the partner sends
  (Table 3-6, R101). -/
  segs : Tab Nat Nat := []
  segsNew : Tab Nat Nat := []
  segCount : Nat := 0
  /-- The present verification window of `TRAIN_T3` (Table 3-7): a codeword failed in it, the lowest own margin, and the
  lowest margin that the partner reported. -/
  t3Bad : Bool := false
  t3Margin : Option Int := none
  t3Partner : Option Int := none
  gotIf : Bool := false
  /-- Partner's margin and iterations as last reported (Table 2-6). -/
  partnerMargin : Int := 0
  partnerIter : Nat := 0
  /-- The pair engine has been dropped from its port (R47, R73). -/
  dropped : Bool := false
  /-- Precoder updates in progress. -/
  preIn : Option PreIn := none
  preOut : Option PreOut := none
  preId : Nat := 0
  /-- First taps of the update's messages still to be sent, and the root edge of the latest update's switch (R103). -/
  preSend : List Nat := []
  preLast : Option Nat := none
  /-- Taps that the partner's transmitter uses, as this end last had them applied (R103), and those of the update sent. -/
  reqTaps : List Nat := []
  newTaps : List Nat := []
  /-- Consecutive refreshes below `LPI_REFRESH_MIN_MARGIN` (R146). -/
  lpiLow : Nat := 0
  /-- Consecutive windows below `LQ_MARGIN_WARN`, and at least 0.5 dB above it (Table 7-8). -/
  lqLow : Nat := 0
  lqGood : Nat := 0
  /-- Time below `LQ_MARGIN_WARN`, in µs (`LOW_MARGIN_TIME`). -/
  lowUs : Nat := 0
  /-- A window has been measured since the last restart of the extremes (R172). -/
  lqSeen : Bool := false
  /-- `CW_UNCORRECTABLE` at the latest whole second (Table 7-8). -/
  uncorrAt : Nat := 0
  /-- Capture in progress: 1 equalised, 2 raw (R117). -/
  capturing : Option Nat := none
deriving DecidableEq, Repr

/-- A stored training record in MRAM (R76), with its check word. -/
structure StoredRec where
  cls : Nat
  mode : LineMode
  epoch : Nat
  words : Tab Nat Nat
  check : Nat
deriving DecidableEq, Repr

/-- A reflectogram computation in progress: the echo, replica and gain words copied at the trigger, and whether its result
becomes the baseline (R167). -/
structure ReflRun where
  taps : List Nat
  base : Bool
deriving DecidableEq, Repr

/-- What diagnostics keep (chapter 7): ports with a standalone test running since a root edge, reflectogram computations and baselines by pair
engine, the plant map being built with its version, and by port the root edge of the latest activity blink and whether it
is on. -/
structure DiagSt where
  tdr : Tab Nat Nat := []
  refl : Tab Nat ReflRun := []
  base : Tab Nat (List Int) := []
  /-- Pair engines whose baseline of 10 s after `LINK_UP` has been taken (R169). -/
  watched : List Nat := []
  plant : Option (List Nat × Nat) := none
  blinkFrom : Tab Nat Nat := []
  blinkOn : List Nat := []
deriving DecidableEq, Repr

/-- A received frame in the receive FIFO: its octets, the receive tag of Table 8-7 as decided, and what a correction at the
departure needs (R219): whether the frame is corrected, and its message timestamp instant. -/
structure RxFrame where
  octets : List Octet
  tag : Nat
  correct : Bool := false
  inst : Nat := 0
deriving DecidableEq, Repr

/-- What the host side of a port keeps (chapter 8). -/
structure HostSt where
  /-- PFC priorities whose state changed and that the next PFC frame carries (R197, R198). -/
  pfcNew : List Nat := []
  /-- The receive FIFO, oldest first (R17, R195). -/
  fifo : List RxFrame := []
  /-- DAP responses that wait for the to-host direction (R194, R325). -/
  dapOut : List RxFrame := []
  /-- The port's capacity was below its payload when last judged (R183). -/
  undersized : Bool := false
  /-- The running mapping of a port that was moved to another lane, in the layout of `HL_MAP` (R184). -/
  moved : Option Nat := none
  /-- Latest frame sent toward the host, from its preamble on, the octet of the port's block stream at which it starts, and the octet of
  its /T/ (R188). -/
  toHost : List Octet := []
  toHostAt : Nat := 0
  streamEnd : Nat := 0
  /-- Frames forwarded with an FCS error (R17). -/
  fcsBad : Nat := 0
  /-- Root edge at which the host's pause has run out (R194). -/
  pauseUntil : Nat := 0
  /-- The port left `LINK_UP`, and a frame that was arriving then has not been counted (R194). -/
  cut : Bool := false
deriving DecidableEq, Repr

/-- What a host lane keeps (chapter 8): the root edge since which it is up, the period of the lane-sharing receiver's latest
marker, and its consecutive bad markers. -/
structure LaneSt where
  upFrom : Option Nat := none
  period : Option Nat := none
  bad : Nat := 0
  /-- It has been out of lock for 1 ms (R179). -/
  lockFault : Bool := false
deriving DecidableEq, Repr

/-- What the time base's servo, the trim and the pins keep (chapter 9): consecutive measurements within `TIME_VALID_LIMIT`, consecutive ones
above four times it, the latest PPS_IN pulse taken as a reference, and the PPS_OUT pin. -/
structure TimeSt where
  good : Nat := 0
  bad : Nat := 0
  ppsLast : Option Nat := none
  ppsOut : Bool := false
  /-- Root edge at which a pulse instant was crossed by counting and its pulse has not begun (R213). -/
  ppsDue : Option Nat := none
  /-- Root edge at which the pulse on PPS_OUT ends (R213). -/
  ppsEnd : Nat := 0
  /-- The servo's phase estimate in 2^-16 ns (R205), and its frequency estimate in units of 10^-12 (R209). -/
  phase : Int := 0
  freq : Int := 0
  /-- Values of the trim, latest first, each with the root edge from which it stood (R210), as far as the last 10 s. -/
  trims : List (Nat × Int) := []
  /-- Mean of the trim at the entry to holdover (R210). -/
  held : Int := 0
  /-- In holdover, the root edge since which the source of the discipline is present again (R210). -/
  srcFrom : Option Nat := none
deriving DecidableEq, Repr

/-- A frame from the host, and what its descriptor holds (R257, R259). -/
structure Frame where
  id : Nat
  port : Nat
  /-- Port-local queue and flow queue (R11). -/
  lq : Nat
  fq : Nat
  /-- Octets from destination address to FCS. -/
  octets : List Octet
  /-- Start-of-frame delimiter, as the host sent it (R12). -/
  sfd : Octet := 0xD5
  /-- Launch time as a time-base value (R191); none without one. -/
  launch : Option Nat := none
  tsReq : Bool := false
  /-- The transmit tag was read, and its `TT_PTP_SKIP` (R217). -/
  tagged : Bool := false
  ptpSkip : Bool := false
  /-- Instant at which the /S/ block arrived at the host lane lands (R218). -/
  arrive : Nat := 0
  /-- Channels of the cells written so far, latest first (R258). -/
  cells : List Nat := []
  inProfile : Bool := false
  /-- Time base and root edge at which the last cell was written (R12). -/
  elig : Nat := 0
  eligRoot : Nat := 0
  /-- The port's `LPI_STATE` was other than `LPI_AWAKE` at some instant since then (R153). -/
  slept : Bool := false
  /-- A read found the frame bad (R274); its launch read has completed (R265). -/
  bad : Bool := false
  read : Bool := false
  /-- Window close at which it was last counted as held (R241). -/
  heldAt : Option Nat := none
  /-- It was launched above its mode's bound (R243), and it is a recognised PTP message (R217). -/
  late : Bool := false
  ptp : Bool := false
deriving DecidableEq, Repr

/-- A frame or fragment on the wire: its start position, octets on the wire, octets of the frame carried by it and by the
fragments before it, whether it is the last one, and the root edges of its wire instant, its end and its gate's close. -/
structure Frag where
  frame : Frame
  start : Nat
  oct : Nat
  total : Nat
  frag : Nat
  final : Bool
  wire : Nat
  /-- Time base at the wire instant of the frame's first fragment (R214, R250). -/
  wireTb : Nat
  done : Nat
  close : Option Nat
  pre : Bool
  /-- Octets sent before the dealing changed (R50). -/
  base : Nat := 0
  /-- PTP event message modified at the launch (R218). -/
  modified : Bool := false
  /-- Octets of the frame sent before this fragment, and the number modulo 4 of the preemptable frame (R250). -/
  from_ : Nat := 0
  smd : Nat := 0
deriving DecidableEq, Repr

/-- A frame suspended by preemption: octets still to send, and the number of its next fragment (R251). -/
structure Susp where
  frame : Frame
  rem : Nat
  frag : Nat
  wireTb : Nat
  modified : Bool := false
  smd : Nat := 0
deriving DecidableEq, Repr

/-- A round of deficit round robin: its deficits, its place, and whether the quantum of that place's visit is already added
(R242). -/
structure Round where
  deficit : Tab Nat Nat := []
  place : Option Nat := none
  added : Bool := false
deriving DecidableEq, Repr

/-- A gate swap that is pending: the bank, and its swap instant as a time-base value (R248). -/
structure Swap where
  bank : Nat
  instant : Nat
deriving DecidableEq, Repr

/-- What the scheduler keeps of a port (chapter 10). -/
structure SchedSt where
  /-- Frames whose cells are still arriving, oldest first. -/
  arriving : List Frame := []
  live : List Frag := []
  susp : Option Susp := none
  /-- Fragments that ended within the codeword being sent, and the number modulo 4 of the next preemptable frame (R250). -/
  ended : List Frag := []
  smdNext : Nat := 0
  /-- Root edge of symbol s_0 of the first codeword of the present dealing, or of start point 0 of a standard mode. -/
  gridAt : Nat := 0
  /-- First free octet of the stream (W modes), or first free root edge (standard modes) (R238). -/
  free : Nat := 0
  /-- Root edge after which start points have not been decided (R238). -/
  decided : Nat := 0
  /-- Rounds of the services, and of the queues of each service. -/
  svc : Round := {}
  queues : Tab Nat Round := []
  /-- Active gate bank, start instant of gating, a pending swap, and the gate states of the latest gate edge. -/
  bank : Nat := 0
  gateFrom : Nat := 0
  swap : Option Swap := none
  gates : Nat := 0xFF
  /-- Verify frames sent; the partner's respond frame is awaited (R250). Preemption goes on until no preemptable frame is
  left, after `MM_ENABLE` false. -/
  verifies : Nat := 0
  draining : Bool := false
  /-- Mode most recently in force on the port since reset (R243). -/
  lastMode : Option LineMode := none
  /-- Transmit timestamp reports written (R221). -/
  reports : Nat := 0
  /-- Latest MAC merge control frame sent: 0 none, 1 verify, 2 respond (R250). -/
  mmOut : Nat := 0
  /-- Octets of the latest frame or fragment started on the line, from its preamble on. -/
  lineOut : List Octet := []
deriving DecidableEq, Repr

/-- A token-bucket shaper (R235, R237): its bucket in units of 1/128,000,000 octet as of a root edge, the end of a debt
period left by a rate change, and the charges taken in it. -/
structure Shaper where
  acc : Int := 0
  at_ : Nat := 0
  debt : Option Nat := none
  charge : Int := 0
deriving DecidableEq, Repr

/-- A receive meter's buckets, in units of 1/(8,000,000 × 2^48) octet, as of a time-base value (R254). A meter that is not
listed is full. -/
structure Meter where
  tp : Int
  tc : Int
  at_ : Nat
deriving DecidableEq, Repr

/-- A request to a port of a channel (Table 11-2): its label Ln, and whether it is of an in-profile or timed frame (R264). -/
structure QcReq where
  label : Nat
  urgent : Bool
deriving DecidableEq, Repr

/-- The frame buffer (chapter 11): cells withdrawn for testing by channel (R263), guarantee buckets by 8 p + s (R260),
in-profile cell octets not served in the last 100 µs with their root edges (R269), scrub reads whose correction
waits to be written back, with the channel and cell (R273), requests that wait at a channel's write port (R258, R264), and root edges of a
channel's corrected errors in the last second (R271). -/
structure BufSt where
  writes : Tab Nat (List QcReq) := []
  ces : Tab Nat (List Nat) := []
  withdrawn : Tab Nat Nat := []
  bucket : Tab Nat Shaper := []
  unserved : List (Nat × Nat) := []
  writeBack : List (Nat × Nat) := []
deriving DecidableEq, Repr

/-- A Wale packet (Table 12-4): header fields and payload. -/
structure WlPacket where
  dest : Nat
  src : Nat
  cls : Nat
  kind : Nat
  hops : Nat := 0
  bseq : Nat := 0
  payload : List Octet
deriving DecidableEq, Repr

/-- A link entry of an advertisement (Table 12-7). -/
structure LsaLink where
  port : Nat
  nbPort : Nat
  cost : Nat
  nbId : Nat
deriving DecidableEq, Repr

/-- A link-state advertisement (Table 12-7); its originator is its key. -/
structure Lsa where
  addr : Nat := 0
  prio : Nat := 128
  seq : Nat := 1
  links : List LsaLink := []
deriving DecidableEq, Repr

/-- What a Wale port keeps (chapter 12). -/
structure WlSt where
  /-- It sends nothing after a loss, or only 1 ms in 100 ms (R284). -/
  squelch : Bool := false
  quiet : Bool := false
  /-- Root edge since which `WC_WAKE` replaces `WC_ALIGN` (R284). -/
  wakeFrom : Option Nat := none
  /-- Identity and port last received, with the partner's address, priority and cost (R288). -/
  heard : Option (Nat × Nat) := none
  addr : Nat := 0
  prio : Nat := 0
  cost : Nat := 0
  /-- Transmit queues by class, oldest first, and consecutive alarm packets sent while a dictionary packet waits (R287). -/
  queues : Tab Nat (List WlPacket) := []
  alarmRun : Nat := 0
  /-- Latest packet sent, with its words as they went out, and the words sent since the latest `WC_SKIP` (R279, R285). -/
  sent : Option WlPacket := none
  sentWords : List WlWord := []
  sinceSkip : Nat := 0
  /-- Latest `TS_SEQ` of `SYNC` and `DREQ` sent (R296). -/
  syncSeq : Nat := 0
  dreqSeq : Nat := 0
  /-- A received `SYNC` with its arrival, and a sent `DREQ` with its instant, that wait for their `TIME` packets; the latest
  complete `DREQ` exchange (t3, t4). Time-base values. -/
  syncIn : Option (Nat × Nat) := none
  dreqOut : Option (Nat × Nat) := none
  dreqDone : Option (Nat × Nat) := none
deriving DecidableEq, Repr

/-- Outcome of a timed commit for the device that posted it (R396): address, tag, state and cause. -/
structure Outcome where
  dest : Nat
  tag : Nat
  state : Nat
  cause : Nat
deriving DecidableEq, Repr

/-- What the device keeps of the fabric (chapter 12): the advertisements of the other devices by identity, its own, whether an
address has been claimed, whether a new advertisement is due, the last broadcast number, broadcasts accepted with their root
edges, the latest packet taken for this device, and the event records and outcomes that wait for a packet (R300, R396). -/
structure FabricSt where
  ports : Tab Nat WlSt := []
  lsdb : Tab Nat Lsa := []
  own : Lsa := {}
  claimed : Bool := false
  dirty : Bool := false
  bseq : Nat := 0
  seen : List (Nat × Nat × Nat) := []
  inbox : Option WlPacket := none
  alarms : List EvRec := []
  traces : List EvRec := []
  outcomes : List Outcome := []
deriving DecidableEq, Repr

/-- A response kept for replay (R323): its requester and transaction, the request as received, the response, and the root edge
of its keeping. -/
structure DapReply where
  requester : Nat
  txn : Nat
  request : List Octet
  response : List Octet
  at_ : Nat
deriving DecidableEq, Repr

/-- A request relayed over Wale, whose responses return on the path it came by (R328): transaction, the address it names, the
path, the requester's address and its VLAN tags. -/
structure DapRelay where
  txn : Nat
  dest : Nat
  via : DapVia
  mac : Nat
  tags : List Octet
deriving DecidableEq, Repr

/-- What the management paths keep (R321 to R328): responses kept by path, requests relayed, the SPI response that waits and
the SPI flags, and the latest frames sent on the management port. -/
structure DapSt where
  kept : Tab Nat (List DapReply) := []
  relays : List DapRelay := []
  spiOut : Option (List Octet) := none
  spiBusy : Bool := false
  spiCrcErr : Bool := false
  spiOverrun : Bool := false
  /-- A request that came on SPI in `STANDBY` or `OFF`, carried out after the wake (Table 14-9). -/
  spiHeld : Option (List Octet) := none
  mgmtOut : List (List Octet) := []
deriving DecidableEq, Repr

/-- Phases of a calibration visit that take time (Table 15-1); the check is part of the measurement's end. -/
inductive VisitPhase where
  | standIn | measure | back
deriving DecidableEq, Repr

/-- A visit: the element, its phase, the spare that stands in for it (none for a visit to a spare), the quad's divider at its
start, and the results accepted at its check, by octet offset in the record. -/
structure Visit where
  elem : Nat
  phase : VisitPhase
  stand : Option Nat
  divider : Nat
  results : List (Nat × Int) := []
deriving DecidableEq, Repr

/-- One rotation of background calibration (R356): the elements still to visit in the round, the visit in progress, whether a
round is in progress and the root edge at which it started, and whether a spare was missing (R359). -/
structure Rotation where
  left : List Nat := []
  visit : Option Visit := none
  round : Bool := false
  from_ : Nat := 0
  noSpare : Bool := false
deriving DecidableEq, Repr

/-- One copy of a calibration record in MRAM: its generation, and its octets 0 to 1,019 as a sparse table over Table 15-3's
reset values. -/
structure CalCopy where
  gen : Nat
  octets : Tab Nat Nat
deriving DecidableEq, Repr

/-- Calibration of a pair engine (chapter 15): the record in force, by octet; the corrections toward which it moves and the
last accepted results, by octet offset; consecutive rejections by element; the two rotations; and whether the record is valid,
foreground calibration runs, the record was discarded, and the record has changed
since it was stored. Rejections are kept by element: e for a sub-ADC, 100 + n for a segment, 1,000 + 16 e + 2 k + c for a
comparator candidate. -/
structure CalSt where
  octets : Tab Nat Nat := []
  target : Tab Nat Int := []
  accepted : Tab Nat Int := []
  rejects : Tab Nat Nat := []
  adc : Rotation := {}
  dac : Rotation := {}
  valid : Bool := false
  fg : Bool := false
  discarded : Bool := false
  changed : Bool := false
deriving DecidableEq, Repr

/-- Self-test (chapter 15): the stage of POST in progress (0 for D, 1 to 4 for G0 to G3) and the root edge of its start, the
on-demand test in progress (code and instance), the cells or rows of the slices in progress and each target's next row, by
test × 4,096 + unit, the spare rows and columns used, by test, unit and memory, and the tile groups whose foreground calibration is
still to start. -/
structure BistSt where
  post : Option Nat := none
  postFrom : Nat := 0
  demand : Option (Nat × Nat) := none
  slices : Tab Nat Nat := []
  next : Tab Nat Nat := []
  /-- Root edge at which each target's latest slice started (R370). -/
  from_ : Tab Nat Nat := []
  rows : Tab Nat Nat := []
  cols : Tab Nat Nat := []
  fgGroups : List Nat := []
  /-- `POST_SELECT` as the start took it (R368). -/
  select : Nat := 0x3F
deriving DecidableEq, Repr

/-- How far the start-up sequence of Table 16-1 has come. -/
inductive BootPhase where
  | noPower | inReset | clocks | recovery | ramp | post | running
deriving DecidableEq, Repr

/-- Start-up and security (chapter 16): VIN good, RESET_N high, the phase, what the world decides of the start, the running
image, the flags of `BOOT_STATUS`, the protection map in force, the staged records, and the checks in progress. -/
structure BootSt where
  vinGood : Bool := true
  resetHigh : Bool := false
  phase : BootPhase := .inReset
  inputs : BootInputs := {}
  /-- Step 7 has applied the configuration (R377). -/
  applied : Bool := false
  firmware : Bool := false
  runningB : Bool := false
  trialRunning : Bool := false
  fellBack : Bool := false
  mapLocked : Bool := false
  policyDefault : Bool := false
  map : List Nat := [0x40000FFF100012FF, 0xFC000FFF0000FFFF]
  /-- The image slot being written, and the one being checked (R383). -/
  updating : Bool := false
  /-- The owner key that the image check applies: the one enrolled at the start (R386). -/
  imageKey : Option (List Octet) := none
  verifying : Bool := false
  /-- The nonce of the report being produced (R390). -/
  attesting : Option Nat := none
  /-- Microseconds from the start to the root's lock. -/
  lockUs : Nat := 0
  /-- `START_TIME` has been recorded (R376). -/
  timed : Bool := false
  /-- `DEVICE_RESET` = 1 was written by a path; the reset follows its response (R375). -/
  resetDue : Bool := false
  /-- RESET_N ended `STANDBY` or `OFF` (Table 14-9). -/
  byReset : Bool := false
deriving DecidableEq, Repr

/-- A configuration slot: its rows of 1,024 octets, none while it is a copy of `FACTORY`, and whether it is confirmed. -/
structure CfgSlot where
  rows : Option (Tab Nat Nat) := none
  confirmed : Bool := true
deriving DecidableEq, Repr

/-- The three slots that have changing roles (R391, R393). -/
structure CfgRoles where
  active : CfgSlot := {}
  previous : CfgSlot := {}
  candidate : CfgSlot := { confirmed := false }
deriving DecidableEq, Repr

/-- The configuration slots as the interior holds them (chapter 16): a check in progress, the staged values of a checked
candidate (by cell), the confirmation's deadline as a time-base value, and the row of an armed timed commit. -/
structure CfgSt where
  checking : Bool := false
  staged : Option (List (Key × Nat)) := none
  deadline : Option Nat := none
  /-- The commit that awaits confirmation came by a `TA_COMMIT` row with the `FABRIC` flag: its poster and its tag (R396). -/
  upsett : Option (Nat × Nat) := none
  /-- Posters of the timed commits that came over Wale, by row (R396); a row that is not listed was posted here. -/
  posters : Tab Nat Nat := []
  /-- The roles as they stood before a commit, and its root edge: until the role record has reached MRAM, a reset starts with
  these (R393). -/
  before : Option (CfgRoles × Nat) := none
  /-- The values of one edge are being brought into force: what rests on several of them is judged once all are (R393). -/
  applying : Bool := false
deriving DecidableEq, Repr

/-- An image slot: the rows of 1,024 octets written since it was last erased, whether the other rows are those of the image of
manufacture, whose octets the spec does not give, and the result code of its last check (Table 16-5). -/
structure ImageSlot where
  shipped : Bool := false
  rows : Tab Nat Nat := []
  code : Nat := 1
deriving DecidableEq, Repr

/-- An owner policy in MRAM (R387): its octets. -/
structure OwnerPolicy where
  octets : List Octet
deriving DecidableEq, Repr

/-- The non-volatile memory (MRAM); reset leaves it as it is. -/
structure Nv where
  /-- Stored training records, by pair engine (R76). -/
  stored : Tab Nat StoredRec := []
  /-- Copy of the weave map in MRAM (R132); none when it is erased or was never written. -/
  weave : Option (List WeaveEntry) := none
  /-- Stored fingerprints with their check words, by port (R165). -/
  prints : Tab Nat (Nat × Nat) := []
  /-- Calibration records, by pair engine: the two copies (R361). -/
  cal : Tab Nat (Option CalCopy × Option CalCopy) := []
  /-- MRAM rows withdrawn, and spare rows used by MiB (Table 15-7). -/
  mramRows : Tab Nat Nat := []
  /-- Image slots A and B (R378). -/
  imageA : ImageSlot := { shipped := true, code := 0 }
  imageB : ImageSlot := {}
  /-- `BOOT_PREFER`, and the slot armed as the trial (R382). -/
  preferB : Bool := false
  trialB : Option Bool := none
  /-- `ANTI_ROLLBACK` and the revocation bits (R383). -/
  antiRollback : Nat := 0
  revoked : BitVec 4 := 0
  /-- The owner key, its request number, and the owner policy (R386, R387). -/
  ownerKey : Option (List Octet) := none
  ownerSeq : Nat := 0
  policy : Option OwnerPolicy := none
  /-- Configuration slots `ACTIVE`, `PREVIOUS` and `CANDIDATE` (R391). -/
  cfg : CfgRoles := {}
  /-- The last fabric address (R291). -/
  lastWale : Option Nat := none
deriving DecidableEq, Repr

/-- Everything the block holds but the queue of commands. -/
structure Chip where
  /-- Values of the objects that hold something other than their default (chapter 13). -/
  dict : Tab Key Nat := []
  /-- Holding copies of the counters (R317): the value captured, or none where the latest snapshot of its scope could not
  capture the counter. -/
  held : Tab Key (Option Nat) := []
  /-- Result of the latest dictionary access. -/
  access : Access := {}
  /-- MODEL'S OWN: draws of free values taken so far. No statement rests on its value. -/
  draws : Nat := 0
  /-- Root edges counted since the root last started (R202). -/
  root : Nat := 0
  /-- The time base, in units of 2^-48 ns: TIME96 with its 32 further fraction bits (R202). -/
  tb : Nat := 0
  /-- The event engine. -/
  ev : EventEngine := {}
  /-- The power controller and the clocks (chapter 14). -/
  pwr : PowerSt := {}
  /-- Link controllers, by port number. -/
  ports : Tab Nat PortSt := []
  /-- Pair engines, by number. -/
  pes : Tab Nat PeSt := []
  /-- Alien-NEXT cancellers, by victim (chapter 5). -/
  anc : Tab Nat AncSt := []
  /-- Diagnostics (chapter 7). -/
  diag : DiagSt := {}
  /-- Host sides of the ports, and the host lanes. -/
  host : Tab Nat HostSt := []
  hlane : Tab Nat LaneSt := []
  /-- Servo and pins of the time base (chapter 9). -/
  time : TimeSt := {}
  /-- Schedulers, by port (chapter 10). -/
  sched : Tab Nat SchedSt := []
  /-- Flow queues, by number, head first (R10, R233). -/
  queues : Tab Nat (List Frame) := []
  /-- Number of the next frame. -/
  frameNo : Nat := 0
  /-- Flow shapers by number, service shapers by 8 p + s, and port shapers (R235). -/
  flowSh : Tab Nat Shaper := []
  svcSh : Tab Nat Shaper := []
  portSh : Tab Nat Shaper := []
  /-- Receive meters (R254). -/
  meters : Tab Nat Meter := []
  /-- The frame buffer. -/
  buf : BufSt := {}
  /-- The Wale fabric (chapter 12). -/
  wale : FabricSt := {}
  /-- The management paths (chapter 13). -/
  dap : DapSt := {}
  /-- Calibration, by pair engine (chapter 15). -/
  cal : Tab Nat CalSt := []
  /-- Self-test (chapter 15). -/
  bist : BistSt := {}
  /-- Start-up and security (chapter 16). -/
  boot : BootSt := {}
  /-- Configuration slots in progress (chapter 16). -/
  cfg : CfgSt := {}
  /-- Non-volatile memory. -/
  nv : Nv := {}
deriving DecidableEq, Repr

/-- The whole state: the block, and the commands that wait, first in first out. -/
structure State where
  chip : Chip := {}
  pending : List Instr := []
deriving DecidableEq, Repr

/-- Why a step faults. No rule stops the block with a fault, so there is no reason: a refused access answers an abort code
(R312) and everything else has an effect. -/
inductive Fault where
deriving DecidableEq, Repr

/-- Why a step refuses a command. -/
inductive Refusal where
  /-- The command has no meaning in this model yet; raised by `exec` for an arm that is not modelled. Safe: the machine
  stops where the hardware goes on. -/
  | notModelled (mnemonic : String)
deriving DecidableEq, Repr

/-- The machine right after reset: every field at the value of its declaration, and no command waiting. -/
def State.reset : State := {}

end Sys2Proof.Machine
end

