-- ==== Sys2Proof/Machine/Ops.lean ====
section
/-!
DEFINITION. The named operations on the machine: reading and writing objects, drawing free values, reading the time
base, raising events, and reaching the per-unit records. Every meaning is built from these.
-/
set_option Elab.async false
namespace Sys2Proof.Machine

/-- Instance number in a dictionary address of unit `i` of the class (R8). -/
def Cls.addr (c : Cls) (i : Nat) : Nat := c.base + i

/-- Width in bits of a value of the object. -/
def Reg.width (r : Reg) : Nat := 8 * r.info.octets

/-- The class of a mode code of Table 2-1. -/
def LineMode.code : LineMode → Nat
  | .w50 => 0x12 | .w25 => 0x11 | .w12 => 0x10 | .t40g => 0x07 | .t25g => 0x06 | .t10g => 0x05 | .t5g => 0x04
  | .t2g5 => 0x03 | .t1000 => 0x02 | .t100 => 0x01

/-- The modes in the ranking of R61, highest first. -/
def LineMode.ranked : List LineMode := [.w50, .w25, .w12, .t40g, .t25g, .t10g, .t5g, .t2g5, .t1000, .t100]

/-- The mode of a code (Table 2-1). -/
def LineMode.ofCode (c : Nat) : Option LineMode := LineMode.ranked.find? fun m => m.code = c

/-- Place in the ranking of R61; 0 is the highest. -/
def LineMode.rank (m : LineMode) : Nat := LineMode.ranked.idxOf m

/-- W mode, as against a standard mode. -/
def LineMode.isW : LineMode → Bool
  | .w50 | .w25 | .w12 => true
  | _ => false

/-- Bit of `PORT_ABILITY` (R32). -/
def LineMode.abilityBit : LineMode → Nat
  | .t100 => 0 | .t1000 => 1 | .t2g5 => 2 | .t5g => 3 | .t10g => 4 | .t25g => 5 | .t40g => 6 | .w12 => 8 | .w25 => 9
  | .w50 => 10

/-- Port widths that carry the mode (Table 2-1, R29). -/
def LineMode.runsOn (m : LineMode) (width : Nat) : Bool :=
  match m with
  | .w50 | .w25 | .w12 => width = 4 || width = 2 || width = 1
  | .t100 => width = 4 || width = 2
  | _ => width = 4

/-- Slowest tile level that runs the mode (Table 2-1). -/
def LineMode.level : LineMode → Nat
  | .w50 => 0 | .w25 => 1 | .w12 | .t40g | .t25g => 2 | _ => 3

/-- Payload of one pair of a W mode, or of the port in a standard mode, in Mbit/s (Tables 2-1, 2-11). -/
def LineMode.rate : LineMode → Nat
  | .w50 => 50000 | .w25 => 25000 | .w12 => 12500 | .t40g => 40000 | .t25g => 25000 | .t10g => 10000 | .t5g => 5000
  | .t2g5 => 2500 | .t1000 => 1000 | .t100 => 100

/-- Payload of a port of `n` working pairs, in Mbit/s (Table 2-11). -/
def LineMode.payload (m : LineMode) (n : Nat) : Nat := if m.isW then n * m.rate else m.rate

/-- The `PORT_ABILITY` value of every mode that a width allows (Table 2-3). -/
def abilityOf (width : Nat) : Nat :=
  (LineMode.ranked.filter fun m => m.runsOn width).foldl (fun a m => a + 2 ^ m.abilityBit) 0

/-- Quad of a port or pair engine (R2). -/
def quadOf (p : Nat) : Nat := p / 4

/-- Tile of a port or pair engine (R2). -/
def tileOf (p : Nat) : Nat := p / 32

/-- Width of port `p` under a formation (Table 2-2); 0 where the formation leaves the number unused. -/
def widthIn (formation p : Nat) : Nat :=
  match formation with
  | 0 => if p % 4 = 0 then 4 else 0
  | 1 => if p % 2 = 0 then 2 else 0
  | _ => 1

/-- Raw value held for a cell, if it is listed. -/
def Chip.raw (c : Chip) (r : Reg) (i row : Nat) : Option Nat := c.dict.get? ⟨r, i, row⟩

/-- Formation of a quad. -/
def Chip.formation (c : Chip) (q : Nat) : Nat :=
  match c.raw .QUAD_FORMATION q 0 with
  | some v => v
  | none => 0

/-- Width of a port under its quad's formation (R28); 0 for an unused number. -/
def Chip.width (c : Chip) (p : Nat) : Nat := widthIn (c.formation (quadOf p)) p

/-- First host lane of the default mapping of quad `q` (Table 8-3): a = 2q, b = 2q + 1. -/
def laneA (q : Nat) : Nat := 2 * q

/-- `HL_MAP` value of a kind and lanes (Table 8-2: 1 dedicated, 2 pair, 3 shared). -/
def hlMap (kind a b : Nat) : Nat := kind * 2 ^ 30 + b * 2 ^ 16 + a * 2 ^ 8

/-- Default of `HL_MAP` (Table 8-3). -/
def hlMapDefault (formation p : Nat) : Nat :=
  let a := laneA (quadOf p)
  match formation with
  | 0 => if p % 4 = 0 then hlMap 2 a (a + 1) else 0
  | 1 => if p % 4 = 0 then hlMap 1 a 0 else if p % 4 = 2 then hlMap 1 (a + 1) 0 else 0
  | _ => if p % 4 < 2 then hlMap 3 a 0 else hlMap 3 (a + 1) 0

/-- Default of `HL_ENTRIES` (Table 8-3). -/
def hlEntriesDefault (formation p : Nat) : Nat :=
  if formation = 2 then (if p % 2 = 0 then 0x55555555 else 0xAAAAAAAA) else 0

/-- Default of a cell: that of the object table, or the one its row computes from the instance and the formation. -/
def Chip.dflt (c : Chip) (r : Reg) (i row : Nat) : Nat :=
  match r with
  | .PORT_ABILITY => abilityOf (c.width i)
  | .HL_MAP => hlMapDefault (c.formation (quadOf i)) i
  | .HL_ENTRIES => hlEntriesDefault (c.formation (quadOf i)) i
  | .PE_TX_SCR_SEED => 0x0155555555555000 ^^^ i
  | .Q_BLOCKS => if row = 0 then i else 0xFFFF
  | .Q_BLOCK_OWNER => row
  | .QC_STATE => if i % 34 < 32 then 0 else 1
  | .PROT_MAP => if row = 0 then 0x40000FFF100012FF else if row = 1 then 0xFC000FFF0000FFFF else 0
  | _ => r.info.dflt

/-- Value of an object's cell (R309). -/
def Chip.rd (c : Chip) (r : Reg) (i : Nat := 0) (row : Nat := 0) : Nat :=
  match c.raw r i row with
  | some v => v
  | none => c.dflt r i row

/-- Signed value of an object's cell. -/
def Chip.rdInt (c : Chip) (r : Reg) (i : Nat := 0) (row : Nat := 0) : Int := toInt r.width (c.rd r i row)

/-- Whether a BOOL object is true. -/
def Chip.rdBool (c : Chip) (r : Reg) (i : Nat := 0) : Bool := c.rd r i != 0

/-- One bit of an object. -/
def Chip.rdBit (c : Chip) (r : Reg) (b : Nat) (i : Nat := 0) : Bool := (c.rd r i).testBit b

/-- Whether the default of an object depends on the formation, so that a value written is kept even where it equals the
present default. -/
def Reg.formDependent : Reg → Bool
  | .PORT_ABILITY | .HL_MAP | .HL_ENTRIES => true
  | _ => false

/-- Write a row of an object; the value is taken to the object's width (counters wrap). -/
def Chip.wrRow (c : Chip) (r : Reg) (i row v : Nat) : Chip :=
  let w := v % 2 ^ r.width
  if r.formDependent = false ∧ w = c.dflt r i row then { c with dict := c.dict.del ⟨r, i, row⟩ }
  else { c with dict := c.dict.put ⟨r, i, row⟩ w }

/-- Write an object of an instance. -/
def Chip.wr (c : Chip) (r : Reg) (i v : Nat) : Chip := c.wrRow r i 0 v

/-- Write an object of the device. -/
def Chip.wrDev (c : Chip) (r : Reg) (v : Nat) : Chip := c.wrRow r 0 0 v

/-- Write a signed value. -/
def Chip.wrInt (c : Chip) (r : Reg) (i : Nat) (x : Int) : Chip := c.wr r i (ofInt r.width x)

/-- Write a BOOL object. -/
def Chip.wrBool (c : Chip) (r : Reg) (i : Nat) (b : Bool) : Chip := c.wr r i (b2n b)

/-- Add to a counter, which wraps at its width (R87 and the like). -/
def Chip.addRow (c : Chip) (r : Reg) (i row n : Nat) : Chip := c.wrRow r i row (c.rd r i row + n)

/-- Count one. -/
def Chip.inc (c : Chip) (r : Reg) (i : Nat := 0) : Chip := c.addRow r i 0 1

/-- Add to a counter of an instance. -/
def Chip.add (c : Chip) (r : Reg) (i n : Nat) : Chip := c.addRow r i 0 n

/-- Set or clear one bit of an object. -/
def Chip.setBit (c : Chip) (r : Reg) (i b : Nat) (x : Bool) : Chip := c.wr r i (withBit (c.rd r i) b x)

/-- Forget what a cell holds, so that it reads its default. -/
def Chip.clr (c : Chip) (r : Reg) (i row : Nat) : Chip := { c with dict := c.dict.del ⟨r, i, row⟩ }

/-- Forget every row of an object of an instance. -/
def Chip.clrAll (c : Chip) (r : Reg) (i : Nat) : Chip :=
  { c with dict := c.dict.filter fun e => !(e.1.reg = r ∧ e.1.inst = i) }

/-- Octet field of a row of a table of OCTETS: `n` octets from octet `o` on. -/
def Chip.rdField (c : Chip) (r : Reg) (i row o n : Nat) : Nat := rowField r.info.octets (c.rd r i row) o n

/-- Replace an octet field of a row. -/
def Chip.wrField (c : Chip) (r : Reg) (i row o n x : Nat) : Chip :=
  c.wrRow r i row (setRowField r.info.octets (c.rd r i row) o n x)

/-- Add to a counter held in an octet field of a row; it wraps at its width. -/
def Chip.addField (c : Chip) (r : Reg) (i row o n k : Nat) : Chip :=
  c.wrField r i row o n (c.rdField r i row o n + k)

/-- Draw a free value. -/
def Chip.draw (c : Chip) : Nat × Chip := (Config.free c.draws, { c with draws := c.draws + 1 })

/-- Fold an operation over a list of units. -/
def Chip.each {α : Type} (c : Chip) (l : List α) (f : Chip → α → Chip) : Chip := l.foldl f c

/-- Units of the time base in one second: 2^48 per nanosecond. -/
def tbSecond : Nat := 1000000000 * 2 ^ 48

/-- TIME96 value of a time-base value (Table 9-1); the 32 further fraction bits are dropped. -/
def time96 (t : Nat) : Nat :=
  let s := t / tbSecond
  let r := t % tbSecond
  (s % 2 ^ 48) * 2 ^ 48 + (r / 2 ^ 48) * 2 ^ 16 + (r / 2 ^ 32) % 2 ^ 16

/-- Time-base value of a TIME96 value. -/
def ofTime96 (v : Nat) : Nat := bits v 95 48 * tbSecond + bits v 47 16 * 2 ^ 48 + bits v 15 0 * 2 ^ 32

/-- A TIME96 value whose nanoseconds lie in range (R201). -/
def time96Ok (v : Nat) : Bool := bits v 47 16 < 1000000000

/-- Time-base units of a number of nanoseconds, microseconds and milliseconds. -/
def tbNs (n : Nat) : Nat := n * 2 ^ 48
def tbUs (n : Nat) : Nat := tbNs (n * 1000)
def tbMs (n : Nat) : Nat := tbNs (n * 1000000)

/-- Root edges in a number of microseconds: 16,000 per microsecond (R202). -/
def rootUs (n : Nat) : Nat := n * 16000

/-- The present time as TIME96. -/
def Chip.now96 (c : Chip) : Nat := time96 c.tb

/-- Raise an event on an instance; the event engine takes it at the end of the command. -/
def Chip.raise (c : Chip) (e : EvName) (inst : Nat) (data : Nat := 0) : Chip :=
  { c with ev := { c.ev with raised := c.ev.raised ++ [⟨inst, e, data⟩] } }

/-- Link controller of a port. -/
def Chip.port (c : Chip) (p : Nat) : PortSt := c.ports.getD p {}

/-- Change the link controller of a port. -/
def Chip.setPort (c : Chip) (p : Nat) (f : PortSt → PortSt) : Chip := { c with ports := c.ports.upd p {} f }

/-- Pair engine. -/
def Chip.pe (c : Chip) (e : Nat) : PeSt := c.pes.getD e {}

/-- Change a pair engine. -/
def Chip.setPe (c : Chip) (e : Nat) (f : PeSt → PeSt) : Chip := { c with pes := c.pes.upd e {} f }

/-- Pair engines of port `p` in MDI pair order (Table 2-2); none for an unused number. -/
def Chip.pesOf (c : Chip) (p : Nat) : List Nat := (List.range (c.width p)).map fun k => p + k

/-- Port that pair engine `e` belongs to under its quad's formation (R3). -/
def Chip.portOf (c : Chip) (e : Nat) : Nat :=
  match c.formation (quadOf e) with
  | 0 => e - e % 4
  | 1 => e - e % 2
  | _ => e

/-- Formed ports of a quad. -/
def Chip.portsOfQuad (c : Chip) (q : Nat) : List Nat :=
  (List.range 4).map (fun k => 4 * q + k) |>.filter fun p => c.width p != 0

/-- Formed ports of a tile. -/
def Chip.portsOfTile (c : Chip) (t : Nat) : List Nat :=
  (List.range 32).map (fun k => 32 * t + k) |>.filter fun p => c.width p != 0

/-- Every formed port of the device. -/
def Chip.portsAll (c : Chip) : List Nat := (List.range 512).filter fun p => c.width p != 0

/-- Code of a link state (Table 3-10). -/
def LinkState.code : LinkState → Nat
  | .disabled => 0x00 | .anAbility => 0x01 | .anNextPage => 0x02 | .trainT0 => 0x10 | .trainT1 => 0x11
  | .trainT2 => 0x12 | .trainT3 => 0x13 | .stdTrain => 0x20 | .up => 0x14 | .brk => 0x30 | .fail => 0x31 | .held => 0x32

/-- Link is up. -/
def Chip.up (c : Chip) (p : Nat) : Bool := (c.port p).link = .up

/-- Link state is a W-mode training phase. -/
def LinkState.training : LinkState → Bool
  | .trainT0 | .trainT1 | .trainT2 | .trainT3 => true
  | _ => false

/-- `DAP_MAC` (R318). -/
def dapMac : Nat := 0x02 * 2 ^ 40 + Config.deviceId.toNat % 2 ^ 40

/-- Code of a severity (R398). -/
def Sev.code : Sev → Nat
  | .alarm => 0 | .warning => 1 | .notice => 2 | .trace => 3

/-- Code of an abort (Table 13-8). -/
def Abort.code : Abort → Nat
  | .ok => 0x00 | .noObject => 0x01 | .noSubindex => 0x02 | .readOnly => 0x03 | .writeOnly => 0x04 | .range => 0x05
  | .wrongType => 0x06 | .guarded => 0x07 | .state => 0x08 | .asleep => 0x09 | .stale => 0x0A | .busy => 0x0B
  | .commitRefused => 0x0C | .row => 0x0D | .notAttempted => 0xFF

end Sys2Proof.Machine
end

