-- ==== Sys2Proof/Machine/Pairlane.lean ====
section
/-!
DEFINITION. The W-mode pair lane to the bit (chapter 2): the codeword layout, the scrambler, the check fields, the LDPC
code, the wire order, the PAM-16 levels, the precoder, block dealing and start points. In a codeword, bit i of the bit
vector is c[i] (R34).
-/
set_option Elab.async false
namespace Sys2Proof.Machine

/-- A codeword: c[0] is bit 0. -/
abbrev Codeword := BitVec 2048

/-- Bits c[a] to c[a + n - 1], in index order. -/
def cwBits (c : Codeword) (a n : Nat) : List Bool := (List.range n).map fun k => c.getLsbD (a + k)

/-- The number whose most significant bit comes first (R34: within a field the most significant bit has the lowest
index). -/
def msbNat (l : List Bool) : Nat := l.foldl (fun a b => 2 * a + b2n b) 0

/-- `n` bits of a number, most significant first. -/
def msbBits (n v : Nat) : List Bool := (List.range n).map fun k => v.testBit (n - 1 - k)

/-- `SEQ` (Table 2-4). -/
def cwSeq (c : Codeword) : Nat := msbNat (cwBits c 1625 8)
/-- `MGMT` (Table 2-4). -/
def cwMgmt (c : Codeword) : BitVec 16 := BitVec.ofNat 16 (msbNat (cwBits c 1633 16))
/-- `AUX_CRC` (Table 2-4). -/
def cwAux (c : Codeword) : Nat := msbNat (cwBits c 1649 15)

/-- Feedback bit of the scrambler, s57 xor s38 (R37). -/
def scrOut (s : BitVec 58) : Bool := s.getLsbD 57 != s.getLsbD 38

/-- One scrambler step (R37). -/
def scrStep (s : BitVec 58) : BitVec 58 := (s <<< 1) ||| (if scrOut s then 1#58 else 0#58)

/-- Scramble or descramble bits in order; the scrambler is side-stream, so both are the same (R37). -/
def scramble : BitVec 58 → List Bool → List Bool × BitVec 58
  | s, [] => ([], s)
  | s, b :: l =>
    let r := scramble (scrStep s) l
    ((b != scrOut s) :: r.1, r.2)

/-- The check of R36 over the 1,625 unscrambled block bits. -/
def auxCrc (l : List Bool) : Nat := crcBits 15 0x4599 0x7FFF l

/-- The `MSG_CRC` rule of Table 2-5 over the bits of a field, most significant first. -/
def msgCrc (l : List Bool) : Nat := crcBits 16 0x1021 0xFFFF l

/-- Circulant shift s(i, j) of R40. -/
def ldpcShift (i j : Nat) : Nat := (13 * i * j + 5 * i + j) % 64

/-- 64-bit block column j of a codeword (R40). -/
def cwBlock (c : Codeword) (j : Nat) : BitVec 64 := c.extractLsb' (64 * j) 64

/-- Row i of the information part: t[i] of R40. -/
def ldpcT (c : Codeword) (i : Nat) : BitVec 64 :=
  (List.range 26).foldl (fun a j => a ^^^ (cwBlock c j).rotateRight (ldpcShift i j)) 0

/-- Syndrome of block row i: the information part and the parity blocks that the row covers (R40). -/
def ldpcSyndrome (c : Codeword) (i : Nat) : BitVec 64 :=
  if i = 0 then ldpcT c 0 ^^^ cwBlock c 26 else ldpcT c i ^^^ cwBlock c (25 + i) ^^^ cwBlock c (26 + i)

/-- Every parity check of R40 holds. -/
def ldpcOk (c : Codeword) : Bool := (List.range 6).all fun i => ldpcSyndrome c i = 0

/-- Parity block k of the encoder (R40). -/
def ldpcParity (c : Codeword) : Nat → BitVec 64
  | 0 => ldpcT c 0
  | k + 1 => ldpcT c (k + 1) ^^^ ldpcParity c k

/-- The codeword of 1,664 information bits, given in bits 0 to 1,663 (R40). -/
def ldpcEncode (info : Codeword) : Codeword :=
  let u : Codeword := info &&& (BitVec.ofNat 2048 (2 ^ 1664 - 1))
  (List.range 6).foldl (fun a k => a ||| ((ldpcParity u k).setWidth 2048 <<< (1664 + 64 * k))) u

/-- The bits as a codeword, first bit c[0]. -/
def cwOfBits (l : List Bool) : Codeword := BitVec.ofNat 2048 (bitsNat l)

/-- Build a codeword: 1,625 block bits scrambled from state `s`, `SEQ`, `MGMT`, `AUX_CRC` and parity (R34 to R40). The
scrambler is loaded with the seed at `SEQ` 0 (R37). -/
def cwBuild (s seed : BitVec 58) (seq : Nat) (mgmt : BitVec 16) (blocks : List Bool) : Codeword × BitVec 58 :=
  let s0 := if seq % 256 = 0 then seed else s
  let r := scramble s0 blocks
  (ldpcEncode (cwOfBits (r.1 ++ msbBits 8 seq ++ msbBits 16 mgmt.toNat ++ msbBits 15 (auxCrc blocks))), r.2)

/-- Start symbol of segment j (R41). -/
def segStart (j : Nat) : Nat := 512 * j / 25

/-- Bits of segment j of a codeword in wire order (R41): block j, then the next bits of c[1625] onward. -/
def segBits (c : Codeword) (j : Nat) : List Bool :=
  let used := 4 * segStart j - 65 * j
  let n := 4 * (segStart (j + 1) - segStart j) - 65
  cwBits c (65 * j) 65 ++ cwBits c (1625 + used) n

/-- The 2,048 bits of a codeword in wire order (R41). -/
def wireBits (c : Codeword) : List Bool := (List.range 25).flatMap (segBits c)

/-- Index whose Gray code is the group g3 g2 g1 g0 (R42). -/
def grayIndex (g : Nat) : Nat := ((List.range 16).find? fun i => i ^^^ (i / 2) = g).getD 0

/-- PAM-16 level of a group (R42). -/
def pam16 (g : Nat) : Int := 2 * (grayIndex g : Int) - 15

/-- The levels of bits in wire order, four bits a symbol, g3 first (R41, R42). -/
def levels : List Bool → List Int
  | g3 :: g2 :: g1 :: g0 :: l => pam16 (msbNat [g3, g2, g1, g0]) :: levels l
  | _ => []

/-- One precoder output (R94): level `a`, taps b[1] to b[K] as S2.13 numbers, earlier outputs as S5.10 numbers with the
latest first. The result is S5.10. -/
def precode (a : Int) (taps hist : List Int) : Int :=
  let v := a * 2 ^ 23 - ((taps.zip hist).map fun (b, x) => b * x).sum
  let r := Int.fdiv (v + 2 ^ 12) (2 ^ 13)
  r - 32768 * Int.fdiv (r + 16384) 32768

/-- DAC code of an S5.10 transmit value (R92). -/
def dacCode (x : Int) : Int := Int.fdiv (x + 16384) 8

/-- Block b of a port's stream on N lanes (R45): codeword, block slot, lane. -/
def dealCodeword (n b : Nat) : Nat := b / (25 * n)
def dealSlot (n b : Nat) : Nat := (b % (25 * n)) / n
def dealLane (n b : Nat) : Nat := b % n

/-- Symbol of start point m of block slot j (R43). -/
def startSymbol (j m : Nat) : Nat := segStart j + 8 * m

/-- A sample in S5.10 reduced into the range −16 inclusive to +16 exclusive (R42, R99). -/
def reduce32 (x : Int) : Int := x - 32768 * Int.fdiv (x + 16384) 32768

/-- The PAM-16 level nearest to a reduced sample, halfway values taken upward (R99). -/
def nearLevel (x : Int) : Int := max (-15) (min 15 (2 * Int.fdiv x 2048 + 1))

/-- Slicer error of an equalised sample in S5.10: from the reduced sample to the nearest PAM-16 level (R99). -/
def slicerError (x : Int) : Int := reduce32 x - 1024 * nearLevel (reduce32 x)

/-- Squared distance of a reduced sample from the nearest level whose group has bit `k` equal to `b`. -/
def bitDistance (x : Int) (k : Nat) (b : Bool) : Nat :=
  (((List.range 16).filter fun g => g.testBit k = b).map fun g => ((x - 1024 * pam16 g) ^ 2).toNat).foldl min (2 ^ 40)

/-- Soft information of the four bits of a symbol, g3 first: by how much the distance under 1 exceeds that under 0 (R99). The
rule does not state the measure: the squared distance (DESIGN CHOICE, log entry 120). -/
def softBits (x : Int) : List Int :=
  [3, 2, 1, 0].map fun k =>
    (bitDistance (reduce32 x) k true : Int) - bitDistance (reduce32 x) k false

/-- Root edges in a symbol period of a W mode (Table 2-9). -/
def LineMode.symbolRoot : LineMode → Nat
  | .w50 => 1 | .w25 => 2 | .w12 => 4 | _ => 1

/-- `TX_PIPE_DELAY` of the W modes, in ps (Table 4-12); the standard modes report a measured value. -/
def LineMode.pipeDelay : LineMode → Nat
  | .w50 => 124000 | .w25 => 148000 | .w12 => 200000 | _ => 0

/-- Launch-lateness bound of a mode, in ps (R13, Table 2-12). -/
def LineMode.lateBound : LineMode → Nat
  | .w50 => 1280 | .w25 => 2560 | .w12 => 5120 | .t40g => 1875 | .t25g => 3000 | .t10g => 7500 | .t5g => 15000
  | .t2g5 => 30000 | .t1000 => 8000 | .t100 => 40000

/-- Sample divider of a mode (Table 4-1). -/
def LineMode.divider : LineMode → Nat
  | .w50 => 1 | .w25 => 2 | .w12 => 4 | .t40g => 5 | .t25g => 8 | .t10g | .t5g | .t2g5 => 20 | .t1000 | .t100 => 128

/-- Iteration limit of the mode's decoder, at most (Table 4-6). -/
def LineMode.iterMax : LineMode → Nat
  | .w50 => 12 | .w25 => 14 | .w12 => 16 | .t1000 | .t100 => 0 | _ => 12

/-- Reference SNR in units of 1/256 dB (Table 4-6). -/
def LineMode.refSnr : LineMode → Int
  | .w50 | .w25 | .w12 => 24 * 256 | .t40g | .t25g => 47 * 128 | .t10g | .t5g | .t2g5 => 23 * 256 | .t1000 => 17 * 256
  | .t100 => 14 * 256

/-- Tap counts of a mode's sections (Table 4-2); `pre` of the FFE taps are precursor taps. -/
structure TapPlan where
  replica : Nat
  echo : Nat
  next : Nat
  alien : Nat
  ffe : Nat
  pre : Nat
  dfe : Nat
deriving DecidableEq, Repr

/-- Table 4-2. -/
def LineMode.taps : LineMode → TapPlan
  | .w50 => ⟨16, 2048, 512, 128, 48, 8, 0⟩
  | .w25 => ⟨16, 3072, 512, 128, 48, 8, 0⟩
  | .w12 => ⟨16, 1536, 256, 64, 32, 6, 0⟩
  | .t40g => ⟨16, 1536, 256, 64, 32, 6, 0⟩
  | .t25g => ⟨16, 1024, 128, 32, 32, 6, 0⟩
  | .t10g => ⟨16, 1024, 256, 32, 32, 6, 0⟩
  | .t5g | .t2g5 => ⟨16, 1024, 256, 32, 32, 8, 0⟩
  | .t1000 => ⟨16, 256, 128, 0, 16, 4, 16⟩
  | .t100 => ⟨0, 0, 128, 0, 16, 4, 8⟩

/-- NEXT cancellers that a pair engine of a port of width `w` runs (R91): one for each other pair, and one in 100BASE-TX. -/
def LineMode.nexts (m : LineMode) (w : Nat) : Nat := if m = .t100 then 1 else w - 1

/-- Precoder taps K of a W mode (Table 4-2). -/
def LineMode.preTaps : LineMode → Nat
  | .w50 => 40 | .w25 => 32 | .w12 => 24 | _ => 0

/-- Precoder segments that a W mode exchanges in a full training (R101). -/
def LineMode.preSegs : LineMode → Nat
  | .w50 => 5 | .w25 => 4 | .w12 => 3 | _ => 0

/-- Marker of a training frame, most significant bit first (R65). -/
def trainMarker : Nat := 0xE2B46D19

/-- Levels of a training frame: the marker, then 480 data bits scrambled (R65). -/
def trainFrame (s : BitVec 58) (d : List Bool) : List Int × BitVec 58 :=
  let lv := fun b : Bool => if b then (15 : Int) else -15
  let r := scramble s d
  ((msbBits 32 trainMarker).map lv ++ r.1.map lv, r.2)

/-- Bits of an infofield, most significant first. -/
def ifBits (v : BitVec 160) : List Bool := msbBits 160 v.toNat

/-- `IF_CRC` is right (R67): the `MSG_CRC` rule over bits 159 to 16. -/
def ifCheck (v : BitVec 160) : Bool := msgCrc ((ifBits v).take 144) = v.toNat % 65536

/-- The infofield with its check word (R67). -/
def ifSeal (v : BitVec 160) : BitVec 160 :=
  let u := (v >>> 16) <<< 16
  u ||| BitVec.ofNat 160 (msgCrc ((ifBits u).take 144))

/-- The majority of the three copies of each bit (R66). -/
def ifMajority (a b c : BitVec 160) : BitVec 160 := (a &&& b) ||| (a &&& c) ||| (b &&& c)

/-- A base infofield with its check word (Table 3-5). -/
def ifBase (countdown ack fast : Bool) (mode width lane : Nat) (down : Bool) (keep count cls seed epoch nonce segs : Nat) :
    BitVec 160 :=
  ifSeal (BitVec.ofNat 160 ((2 + b2n countdown) * 2 ^ 154 + b2n ack * 2 ^ 153 + b2n fast * 2 ^ 152 + (mode % 256) * 2 ^ 144
    + (width % 8) * 2 ^ 141 + (lane % 4) * 2 ^ 139 + b2n down * 2 ^ 138 + (keep % 16) * 2 ^ 134 + (count % 16) * 2 ^ 130
    + (cls % 256) * 2 ^ 122 + (seed % 2 ^ 58) * 2 ^ 64 + (epoch % 4096) * 2 ^ 52 + (nonce % 65536) * 2 ^ 36
    + (segs % 256) * 2 ^ 28))

/-- A precoder segment infofield with its check word (Table 3-6). -/
def ifSegment (index data : Nat) : BitVec 160 :=
  ifSeal (BitVec.ofNat 160 (2 ^ 156 + 2 * 2 ^ 154 + (index % 256) * 2 ^ 144 + (data % 2 ^ 128) * 2 ^ 16))

/-- `IF_SEG_DATA` of segment `k` of a tap set: taps b[8k + 1] to b[8k + 8], the first highest (R101). -/
def segData (taps : List Nat) (k : Nat) : Nat :=
  (List.range 8).foldl (fun a i => a * 65536 + (taps.getD (8 * k + i) 0) % 65536) 0

/-- The 480 data bits of a training frame that carries an infofield three times, or zeros (R65). -/
def frameData : Option (BitVec 160) → List Bool
  | none => List.replicate 480 false
  | some v => ifBits v ++ ifBits v ++ ifBits v

/-- Descrambler state that 58 received data bits of zero-data frames load, the first received highest (R66). -/
def lockState (l : List Bool) : BitVec 58 := (l.take 58).foldl (fun a b => (a <<< 1) ||| (if b then 1#58 else 0#58)) 0

/-- Lock on zero-data frames: 58 received bits are loaded, and the next 1,024 agree with the descrambler (R66). -/
def lockConfirmed (l : List Bool) : Bool :=
  l.length ≥ 1082 && !((scramble (lockState l) ((l.drop 58).take 1024)).1.any id)

/-- A field of an infofield (Tables 3-5, 3-6). -/
def ifField (v : BitVec 160) (hi lo : Nat) : Nat := bits v.toNat hi lo

/-- A management message of eight `MGMT` words, the first most significant (R38). -/
def mgmtMsg (w : List (BitVec 16)) : BitVec 128 := w.foldl (fun a x => (a <<< 16) ||| x.setWidth 128) 0

/-- `MSG_CRC` is right (Table 2-5). -/
def mgmtCheck (m : BitVec 128) : Bool := msgCrc ((msbBits 128 m.toNat).take 112) = m.toNat % 65536

/-- The management message of a type and a 104-bit body, with its check (Table 2-5). -/
def mgmtBuild (ty body : Nat) : BitVec 128 :=
  let v := (ty % 256) * 2 ^ 120 + (body % 2 ^ 104) * 2 ^ 16
  BitVec.ofNat 128 (v + msgCrc ((msbBits 128 v).take 112))

/-- `MSG_TYPE` (Table 2-6). -/
def mgmtType (m : BitVec 128) : Nat := bits m.toNat 127 120

/-- Body of `MC_LANE_STATUS` (Table 2-6): transmit lane index, margin in 1/256 dB, mean iterations in 1/16. -/
def laneStatusMsg (lane : Nat) (margin : Int) (iter : Nat) : BitVec 128 :=
  mgmtBuild 0x01 ((lane % 16) * 2 ^ 100 + ofInt 16 margin * 2 ^ 80 + (min iter 255) * 2 ^ 72)

/-- `MC_PAIR_DROP_REQ`, or `MC_PAIR_DROP_ACK` (Table 2-6). -/
def pairDropMsg (ack : Bool) (id keep seq : Nat) : BitVec 128 :=
  mgmtBuild (if ack then 0x03 else 0x02) ((id % 256) * 2 ^ 96 + (keep % 16) * 2 ^ 92 + (seq % 256) * 2 ^ 80)

/-- `MC_PRECODER` (Table 4-4): the message of an update whose first tap is `first`, with zero for taps above K; 0 makes an
acknowledgement. -/
def precoderMsg (id first seq k : Nat) (taps : List Nat) : BitVec 128 :=
  let f := fun i : Nat => if first = 0 || first + i > k then 0 else taps.getD (first + i - 1) 0 % 65536
  mgmtBuild 0x04 ((id % 256) * 2 ^ 96 + (first % 64) * 2 ^ 90 + f 0 * 2 ^ 72 + f 1 * 2 ^ 56 + f 2 * 2 ^ 40 + f 3 * 2 ^ 24
    + f 4 * 2 ^ 8 + seq % 256)

/-- First taps of the messages of an update of K taps, in ascending order (R102, R103). -/
def precoderFirsts (k : Nat) : List Nat := (List.range (cdiv k 5)).map fun i => 5 * i + 1

-- Blocks of 64B/66B streams (R33).

/-- What an octet of a port's stream carries (R33): an octet of a frame, /S/, /T/ or an idle character. -/
inductive StreamOctet where
  | octet (o : Octet)
  | start
  | term
  | idle
deriving DecidableEq, Repr

/-- Value of a stream octet in a data position. -/
def StreamOctet.val : StreamOctet → Nat
  | .octet o => o.toNat
  | _ => 0

/-- Type octet of the block in which /T/ stands in octet `k` (R33: the formats are those of 802.3 Clause 49; PRESUMED, log entry
92). -/
def termType (k : Nat) : Nat := [0x87, 0x99, 0xAA, 0xB4, 0xCC, 0xD2, 0xE1, 0xFF].getD k 0

/-- Octets packed from bit `at_` on, eight bits each, the first lowest. -/
def packOctets (at_ : Nat) (l : List StreamOctet) : Nat :=
  l.zipIdx.foldl (fun a x => a + x.1.val * 2 ^ (at_ + 8 * x.2)) 0

/-- The 65-bit block of eight stream octets (R33): H, then the payload in Clause 49 transmission order. Idle characters are 0. -/
def blockOf (l : List StreamOctet) : BitVec 65 :=
  let ctrl := fun t v : Nat => BitVec.ofNat 65 (1 + 2 * (t + v))
  match l.idxOf? .term with
  | some k => ctrl (termType k) (packOctets 8 (l.take k))
  | none =>
    if l.head? = some .start then ctrl 0x78 (packOctets 8 (l.drop 1))
    else if l[4]? = some .start then ctrl 0x33 (packOctets 40 (l.drop 5))
    else if l.contains .idle then ctrl 0x1E 0
    else BitVec.ofNat 65 (2 * packOctets 0 l)

/-- An ordered set with O code 0 and data octet `d` last (R33, R194: Local Fault is 1 and Remote Fault 2 in 802.3 Clause 81). -/
def orderedSet (d : Nat) : BitVec 65 := BitVec.ofNat 65 (1 + 2 * (0x4B + d * 2 ^ 24))

/-- A 65-bit block with the sync header that H stands for (R33), bit 0 first on the wire: 0b01 for data and 0b10 for control. -/
def syncBlock (b : BitVec 65) : BitVec 66 := ((b >>> 1).setWidth 66 <<< 2) ||| (if b.getLsbD 0 then 1 else 2)

end Sys2Proof.Machine
end

