-- ==== Sys2Proof/Machine/PeStore.lean ====
section
/-!
DEFINITION. The coefficient store of a pair engine (chapter 4): its words, the check word and the seal of R113, the
retained and the stored records (R76, R77).
-/
set_option Elab.async false
namespace Sys2Proof.Machine

/-- Bits that a word of the store holds: reserved words and bits hold zero (Table 4-7, R364, R6). -/
def wordMask (w : Nat) : Nat :=
  if w = 0 || w = 2 || w = 3 then 0xFFFF
  else if w = 1 then 0x0FFF
  else if w = 4 then 0x0003
  else if w = 5 then 0x00FF
  else if (0x10 ≤ w && w < 0x29) || (0x30 ≤ w && w < 0x33) || (0x40 ≤ w && w < 0x70) || (0x80 ≤ w && w < 0xB8)
    || (0x100 ≤ w && w < 0x1700) then 0xFFFF
  else 0

/-- A word of the store (R109); reserved words and bits read zero (R6). -/
def PeSt.word (s : PeSt) (w : Nat) : Nat := s.store.getD w 0 &&& wordMask w

/-- Write a word of the store. -/
def PeSt.putWord (s : PeSt) (w v : Nat) : PeSt := { s with store := s.store.set w (v % 65536 &&& wordMask w) 0 }

/-- Check code that row `r` of the store holds with its four words (R109). -/
def PeSt.rowCheck (s : PeSt) (r : Nat) : BitVec 8 :=
  Config.secded (BitVec.ofNat 64 ((List.range 4).foldl (fun a k => a * 65536 + s.word (4 * r + k)) 0))

/-- Words of the store that the structure of a mode uses on a port of width `w` (Tables 4-2 and 4-7, R90, R91); the words of the
sections that it does not use, and those above the tap counts, hold zero. -/
def LineMode.usesWord (m : LineMode) (w word : Nat) : Bool :=
  let t := m.taps
  if word < 0x20 then word - 0x10 < t.replica
  else if word < 0x33 then true
  else if word < 0x80 then word - 0x40 < t.ffe
  else if word < 0x90 then word - 0x80 < t.dfe
  else if word < 0x100 then word - 0x90 < m.preTaps
  else if word < 0x700 then (word - 0x100) / 0x200 < m.nexts w && (word - 0x100) % 0x200 < t.next
  else if word < 0xB00 then (word - 0x700) % 0x80 < t.alien
  else word - 0xB00 < t.echo

/-- Words whose sections run from register copies (R109): all but the taps of the echo, NEXT and alien-NEXT cancellers. -/
def copiedWord (w : Nat) : Bool := w < 0x100

/-- `RETAINED_VALID` of word 0x0004 (Table 4-7). -/
def PeSt.retained (s : PeSt) : Bool := (s.word 4).testBit 0
/-- `SEALED` of word 0x0004 (Table 4-7). -/
def PeSt.isSealed (s : PeSt) : Bool := (s.word 4).testBit 1
/-- Epoch of the retained coefficients (word 0x0001). -/
def PeSt.retEpoch (s : PeSt) : Nat := s.word 1 % 4096
/-- Mode of the retained coefficients (word 0x0000). -/
def PeSt.retMode (s : PeSt) : Nat := s.word 0 % 256

/-- Octets of the words that the check word covers, in order (R113). -/
def PeSt.checkOctets (s : PeSt) : List Octet :=
  let ws := [0x0000, 0x0001] ++ (List.range (0x1700 - 4)).map fun k => k + 4
  ws.flatMap fun w => natToOctets 2 (if w = 4 then setBits (s.word 4) 1 0 0 else s.word w)

/-- The check word as computed from the store's contents (R113). -/
def PeSt.checkWord (s : PeSt) : Nat := crc32 s.checkOctets

/-- The check word held in words 0x0002 and 0x0003. -/
def PeSt.checkHeld (s : PeSt) : Nat := s.word 2 * 65536 + s.word 3

/-- Write the register copies back to the store (R109). -/
def PeSt.writeBack (s : PeSt) : PeSt :=
  { s.copies.foldl (fun a e => a.putWord e.1 e.2) s with copies := [] }

/-- Seal the store: adaptation stops, copies are written back, the check word is computed and `SEALED` set (R113). -/
def PeSt.sealStore (s : PeSt) : PeSt :=
  let s := { s.writeBack with adapting := false }
  let k := s.checkWord
  let s := (s.putWord 2 (k / 65536)).putWord 3 (k % 65536)
  s.putWord 4 (withBit (s.word 4) 1 true)

/-- Adaptation resumes, and the seal is cleared (R113). -/
def PeSt.resume (s : PeSt) : PeSt := { s with adapting := true }.putWord 4 (withBit (s.word 4) 1 false)

/-- Retained coefficients become invalid (R77). -/
def PeSt.invalidate (s : PeSt) : PeSt := s.putWord 4 (withBit (s.word 4) 0 false)

/-- The retention check: sealed, and the check word agrees (R113). -/
def PeSt.retentionOk (s : PeSt) : Bool := s.isSealed && s.checkWord = s.checkHeld

/-- Words that the stored record keeps: all sections but the alien-NEXT taps and the timing phase (R110). -/
def storedWord (w : Nat) : Bool := w ≠ 0x30 && !(0x0700 ≤ w && w < 0x0B00)

end Sys2Proof.Machine
end

