-- ==== Sys2Proof/Machine/Events.lean ====
section
/-!
DEFINITION. The event engine (chapter 17): codes, the rate limiter, the ring with its drop thresholds and overflow
record, the event status of every instance, and the two pins that follow from them.
-/
set_option Elab.async false
namespace Sys2Proof.Machine

/-- Low octet of an event code: the three codes of group 0x04 that R400 states, else the part's own. -/
def EvName.low : EvName → Nat
  | .alarmOverflow => 0x01
  | .limiterFull => 0x02
  | .coreRestart => 0x10
  | e => (Config.evLow e.ctorIdx).toNat

/-- Event code: group in bits 15 to 8, event in bits 7 to 0 (R398). -/
def EvName.code (e : EvName) : Nat := e.group * 256 + e.low

/-- Class and unit of an instance number (Table 0-4). -/
def clsOf (inst : Nat) : Option (Cls × Nat) :=
  [Cls.dev, .tile, .quad, .port, .pe, .wl, .mgmt, .spi, .hlane, .qc].findSome? fun k =>
    if k.base ≤ inst ∧ inst < k.base + k.count then some (k, inst - k.base) else none

/-- The `EV_STATUS` object of a class (R314). -/
def Cls.evStatus : Cls → Reg
  | .dev => .EV_STATUS_DEV | .tile => .EV_STATUS_TILE | .quad => .EV_STATUS_QUAD | .port => .EV_STATUS_PORT
  | .pe => .EV_STATUS_PE | .wl => .EV_STATUS_WL | .mgmt => .EV_STATUS_MGMT | .spi => .EV_STATUS_SPI
  | .hlane => .EV_STATUS_HLANE | .qc => .EV_STATUS_QC

/-- Sequence number of a status object's value (R313). -/
def statusSeq (v : Nat) : Nat := bits v 63 48

/-- A status object's value after an event that sets the flags and fields in `f`, a number below 2^48 (R313). -/
def statusEvent (v f : Nat) : Nat := ((statusSeq v + 1) % 65536) * 2 ^ 48 + ((v % 2 ^ 48) ||| f)

/-- A status object's value after a clear: `SEQ` stays, everything below bit 48 is cleared (R313). -/
def statusCleared (v : Nat) : Nat := statusSeq v * 2 ^ 48

/-- The ring's fill: records written and not acknowledged; 0 in ring mode 1 (R402, R404). -/
def Chip.evFill (c : Chip) : Nat :=
  if c.rd .EV_RING_MODE = 1 then 0 else c.rd .EV_WRITE_COUNT - c.rd .EV_READ_COUNT

/-- Fill at which a record of a severity is dropped (Table 17-3); ALARM records are never dropped. -/
def Sev.dropAt : Sev → Option Nat
  | .trace => some 3072
  | .notice => some 3687
  | .warning => some 4032
  | .alarm => none

/-- Append a record to the ring at the row that follows the last one (R404). In ring mode 1 the oldest record is
overwritten, and counted when it was not acknowledged. -/
def Chip.ringPut (c : Chip) (r : EvRec) : Chip :=
  let k := c.rd .EV_WRITE_COUNT
  let c := if k - c.rd .EV_READ_COUNT ≥ 4096 then c.inc .EV_OVERWRITTEN else c
  let c : Chip := { c with ev := { c.ev with ring := c.ev.ring.put (k % 4096) r } }
  c.wrDev .EV_WRITE_COUNT (k + 1)

/-- Fold an ALARM record that found the ring full into the overflow record of this device (R403): `EV_LAST` is the time from its
`EV_TIME` to the last occurrence that any record folded stands for. -/
def Chip.overflowFold (c : Chip) (r : EvRec) : Chip :=
  let c := c.add .EV_COALESCED_COUNT 0 1
  match c.ev.overflow with
  | none =>
    { c with ev := { c.ev with overflow := some { r with code := EvName.alarmOverflow.code, seq := 0, src := 0 },
                                overflowFrom := ofTime96 r.time } }
  | some o =>
    { c with ev := { c.ev with
        overflow := some { o with count := min 65535 (o.count + r.count),
                                  last := max o.last (r.last + (ofTime96 r.time - c.ev.overflowFrom) / 2 ^ 48) } } }

/-- A record of this device is also sent over Wale when its severity is at least `WALE_EVENT_MIN` and there is another device
to send it to (R300). -/
def Chip.waleOffer (c : Chip) (r : EvRec) : Chip :=
  let d := c.rd .WALE_EVENT_DEST
  if r.sev.code > c.rd .WALE_EVENT_MIN || d = 0 || d = c.rd .WALE_ADDRESS then c
  else if r.sev = .alarm then { c with wale := { c.wale with alarms := c.wale.alarms ++ [r] } }
  else { c with wale := { c.wale with traces := c.wale.traces ++ [r] } }

/-- A record of this device enters the ring with the next `EV_SEQ` (R399). -/
def Chip.ringOwn (c : Chip) (r : EvRec) : Chip :=
  let r := { r with seq := c.ev.seq }
  let c := c.ringPut r
  ({ c with ev := { c.ev with seq := (c.ev.seq + 1) % 2 ^ 32 } }).waleOffer r

/-- Write a record into the ring, drop it by its severity, or fold it into the overflow record (R402, R403). A record of
this device takes the next `EV_SEQ` only when it is written (R399). -/
def Chip.emitRec (c : Chip) (r : EvRec) (own : Bool) : Chip :=
  let fill := c.evFill
  match r.sev.dropAt with
  | some n =>
    if fill ≥ n then c.addRow .EV_DROP 0 r.sev.code r.count
    else if own then c.ringOwn r else c.ringPut r
  | none =>
    if fill ≥ 4096 then c.overflowFold r
    else if own then c.ringOwn r else c.ringPut r

/-- A single record of an occurrence, timed now (Table 17-1). -/
def Chip.single (c : Chip) (o : Occ) : EvRec :=
  { seq := 0, time := c.now96, sev := o.ev.sev, coalesced := false, timeValid := c.rdBool .TIME_VALID, inst := o.inst,
    code := o.ev.code, data := o.data % 2 ^ 32, count := 1, last := 0, src := 0 }

/-- The coalesced record of a window (R401). -/
def Window.record (w : Window) : EvRec :=
  { seq := 0, time := time96 w.first, sev := w.ev.sev, coalesced := true, timeValid := w.firstValid, inst := w.inst,
    code := w.ev.code, data := w.firstData, count := min 65535 w.folded, last := (w.last - w.first) / 2 ^ 48, src := 0 }

/-- An ALARM or WARNING occurrence sets its instance's status (R405). -/
def Chip.markStatus (c : Chip) (o : Occ) : Chip :=
  match o.ev.sev, clsOf o.inst with
  | .alarm, some (k, u) =>
    c.wr k.evStatus u (statusEvent (c.rd k.evStatus u) (2 ^ 47 ||| 2 ^ (o.ev.group - 1)))
  | .warning, some (k, u) =>
    c.wr k.evStatus u (statusEvent (c.rd k.evStatus u) (2 ^ 46 ||| 2 ^ (o.ev.group - 1)))
  | _, _ => c

/-- Root edges of the coalescing window. -/
def Chip.coalesceRoot (c : Chip) : Nat := rootUs (1000 * c.rd .EV_COALESCE_WINDOW)

/-- A first occurrence that finds every limiter key in use closes the least recently opened window (R401). -/
def Chip.displace (c : Chip) : Chip :=
  if c.ev.windows.length < 1024 then c
  else match c.ev.windows with
    | [] => c
    | w :: ws =>
      let c : Chip := { c with ev := { c.ev with windows := ws } }
      let c := if w.folded = 0 then c else c.emitRec w.record true
      let quiet := match c.ev.limiterAt with
        | none => false
        | some at0 => c.root - at0 < c.coalesceRoot
      if quiet then c.inc .EV_COALESCED_COUNT
      else
        let c := c.emitRec (c.single ⟨0, .limiterFull, (w.inst % 4096) * 2 ^ 16 + w.ev.code⟩) true
        { c with ev := { c.ev with limiterAt := some c.root } }

/-- Fold an occurrence into its open window (R401). -/
def Window.fold (w : Window) (t : Nat) (valid : Bool) (o : Occ) : Window :=
  if w.folded = 0 then { w with folded := 1, first := t, firstValid := valid, firstData := o.data % 2 ^ 32, last := t }
  else { w with folded := w.folded + 1, last := t }

/-- One occurrence reaches the event engine: status, then the rate limiter, then the ring (R401, R405). -/
def Chip.occur (c : Chip) (o : Occ) : Chip :=
  let c := c.markStatus o
  if c.ev.windows.any fun w => w.inst = o.inst ∧ w.ev = o.ev then
    let valid := c.rdBool .TIME_VALID
    let ws := c.ev.windows.map fun w => if w.inst = o.inst ∧ w.ev = o.ev then w.fold c.tb valid o else w
    ({ c with ev := { c.ev with windows := ws } }).inc .EV_COALESCED_COUNT
  else
    let c := c.displace
    let c : Chip := { c with ev := { c.ev with windows := c.ev.windows ++ [({ inst := o.inst, ev := o.ev } : Window)] } }
    c.emitRec (c.single o) true

/-- Occurrences of one edge are taken in ascending order of instance, then of code (R399). -/
def Occ.le (a b : Occ) : Bool := a.inst < b.inst || (a.inst = b.inst && (a.ev = b.ev || a.ev.code ≤ b.ev.code))

/-- Insert an occurrence in the order of R399, after its equals. -/
def Occ.insert (o : Occ) : List Occ → List Occ
  | [] => [o]
  | x :: l => if x.le o then x :: Occ.insert o l else o :: x :: l

/-- The occurrences in the order of R399. -/
def Occ.sort (l : List Occ) : List Occ := l.foldl (fun a o => o.insert a) []

/-- The event engine takes every occurrence that a command raised. -/
def Chip.flush (c : Chip) : Chip :=
  let l := Occ.sort c.ev.raised
  ({ c with ev := { c.ev with raised := [] } }).each l Chip.occur

/-- The overflow record is written into the ring once the fill is below 4,096 (R403). -/
def Chip.overflowDrain (c : Chip) : Chip :=
  match c.ev.overflow with
  | none => c
  | some o =>
    if c.evFill < 4096 then
      ({ c with ev := { c.ev with overflow := none } } : Chip).ringOwn o
    else c

/-- Row value of a record (Table 17-1): 32 octets. -/
def EvRec.toNat (r : EvRec) : Nat :=
  octetsToNat (natToOctets 4 r.seq ++ natToOctets 12 r.time
    ++ natToOctets 2 (r.sev.code * 2 ^ 14 + b2n r.coalesced * 2 ^ 13 + b2n r.timeValid * 2 ^ 12 + r.inst % 4096)
    ++ natToOctets 2 r.code ++ natToOctets 4 r.data ++ natToOctets 2 r.count ++ natToOctets 4 r.last
    ++ natToOctets 1 r.src ++ [0])

/-- The record that a row value spells (Table 17-1). -/
def EvRec.ofOctets (l : List Octet) : EvRec :=
  let f := octNat l 16 2
  { seq := octNat l 0 4, time := octNat l 4 12,
    sev := match f / 2 ^ 14 with
      | 0 => .alarm
      | 1 => .warning
      | 2 => .notice
      | _ => .trace,
    coalesced := f.testBit 13, timeValid := f.testBit 12, inst := f % 4096, code := octNat l 18 2, data := octNat l 20 4,
    count := octNat l 24 2, last := octNat l 26 4, src := octNat l 30 1 }

/-- Whether an instance has any flag set (R405). -/
def Chip.evFlags (c : Chip) (inst : Nat) : Nat :=
  match clsOf inst with
  | some (k, u) => c.rd k.evStatus u % 2 ^ 48
  | none => 0

/-- Row `row` of `EV_PENDING_MAP` (R405). -/
def Chip.pendingMap (c : Chip) (row : Nat) : Nat :=
  (List.range 64).foldl (fun a b => if c.evFlags (64 * row + b) = 0 then a else a + 2 ^ b) 0

/-- Some instance's status has a flag that `INT_ENABLE` enables (R406). -/
def Chip.intStatus (c : Chip) : Bool :=
  c.dict.any fun e =>
    e.1.reg = e.1.reg.info.cls.evStatus && (e.2 % 2 ^ 48) &&& c.rd .INT_ENABLE != 0

/-- INT_N is low by R406. -/
def Chip.intLow (c : Chip) : Bool :=
  c.intStatus || (c.rd .INT_FILL_LEVEL != 0 && c.evFill ≥ c.rd .INT_FILL_LEVEL)

/-- COALESCE_WINDOW_CLOSE: a window closes; what it folded is emitted as one record and a new window opens, or the key is
released (R401). -/
def Chip.closeWindow (c : Chip) (inst : Nat) (e : EvName) : Chip :=
  match c.ev.windows.find? fun w => w.inst = inst ∧ w.ev = e with
  | none => c
  | some w =>
    let rest := c.ev.windows.filter fun w => !(w.inst = inst ∧ w.ev = e)
    if w.folded = 0 then { c with ev := { c.ev with windows := rest } }
    else
      let c : Chip := { c with ev := { c.ev with windows := rest ++ [({ inst := inst, ev := e } : Window)] } }
      c.emitRec w.record true

end Sys2Proof.Machine
end

