-- ==== Sys2Proof/Machine/PowerBase.lean ====
section
/-!
DEFINITION. Tile states, performance levels and calibration as the other chapters ask about them (R27, R339 to R343, R365).
-/
set_option Elab.async false
namespace Sys2Proof.Machine

/-- What the power controller keeps of a tile. -/
def Chip.tile (c : Chip) (t : Nat) : TileSt := c.pwr.tiles.getD t {}

/-- Change what is kept of a tile. -/
def Chip.setTile (c : Chip) (t : Nat) (f : TileSt → TileSt) : Chip :=
  { c with pwr := { c.pwr with tiles := c.pwr.tiles.upd t {} f } }

/-- Change what is kept of the device. -/
def Chip.setPwr (c : Chip) (f : PowerSt → PowerSt) : Chip := { c with pwr := f c.pwr }

/-- Step 7 of the start-up has applied the configuration (R377). -/
def Chip.cfgApplied (c : Chip) : Bool := c.boot.applied

/-- The tile is in `TILE_RUN` and its clocks run. -/
def Chip.tileRuns (c : Chip) (t : Nat) : Bool := (c.tile t).st = .run && c.pwr.rootOn

/-- The store of a tile's pair engines is powered and refreshed: not in an isolated tile, nor in `OFF` (R111, R349). -/
def Chip.storePowered (c : Chip) (t : Nat) : Bool := (c.tile t).st != .isolated && c.pwr.state != .off

/-- The tile's level is set by hand (R340). -/
def Chip.levelManual (c : Chip) (t : Nat) : Bool := c.rd .TILE_PL_MODE t = 1

/-- A mode may run on the tile: under a manual level only modes that the level runs (R27, R340). -/
def Chip.levelAllows (c : Chip) (t : Nat) (m : LineMode) : Bool :=
  !c.levelManual t || c.rd .TILE_PL_SET t ≤ m.level

/-- The level that runs the mode, or a faster one, is in force and stays so (R27, R62). -/
def Chip.levelInForce (c : Chip) (t : Nat) (m : LineMode) : Bool :=
  let s := c.tile t
  s.st = .run && s.level ≤ m.level && (match s.levelTarget with
    | some l => l ≤ m.level
    | none => true)

/-- The link states whose ports need their mode's divider and level (R88). -/
def LinkState.clocked : LinkState → Bool
  | .trainT0 | .trainT1 | .trainT2 | .trainT3 | .stdTrain | .up => true
  | _ => false

/-- Level that a port needs, if it needs one (R339). -/
def Chip.portNeed (c : Chip) (p : Nat) : Option Nat :=
  let s := c.port p
  if s.link.clocked || s.waitLevel then s.mode.map LineMode.level else none

/-- Calibration of a pair engine. -/
def Chip.calOf (c : Chip) (e : Nat) : CalSt := c.cal.getD e {}

/-- Change the calibration of a pair engine. -/
def Chip.setCal (c : Chip) (e : Nat) (f : CalSt → CalSt) : Chip := { c with cal := c.cal.upd e {} f }

/-- A pair engine of the tile is in foreground calibration, which holds the tile at PL0 (R365). -/
def Chip.tileCalibrates (c : Chip) (t : Nat) : Bool := c.cal.any fun e => e.2.fg && tileOf e.1 = t

/-- Highest need of a tile; PL3 when there is none, PL0 during foreground calibration (R339, R365). -/
def Chip.tileNeed (c : Chip) (t : Nat) : Nat :=
  if c.tileCalibrates t then 0
  else (c.portsOfTile t).foldl (fun a p => match c.portNeed p with
    | some l => min a l
    | none => a) 3

/-- Start a level change, or keep it for the end of the one in progress or for the next entry to `TILE_RUN` (R341). -/
def Chip.changeLevel (c : Chip) (t l : Nat) : Chip :=
  let s := c.tile t
  if s.st ≠ .run ∨ s.levelTarget.isSome then c.setTile t fun s => { s with levelPending := some l }
  else if s.level = l then c
  else c.setTile t fun s => { s with levelTarget := some l }

/-- A level change that the tile's leaving `TILE_RUN` overtakes is kept for its next entry (R341). -/
def TileSt.levelKept (s : TileSt) : TileSt := { s with levelTarget := none, levelPending := s.levelPending <|> s.levelTarget }

/-- Level in force once every change already asked for is made. -/
def TileSt.levelGoal (s : TileSt) : Nat :=
  match s.levelPending, s.levelTarget with
  | some l, _ => l
  | none, some l => l
  | none, none => s.level

/-- A raise starts as soon as the tile's need rises (R339, R365). -/
def Chip.tileRaised (c : Chip) (t : Nat) : Chip :=
  if (!c.levelManual t || c.tileCalibrates t) && c.tileNeed t < (c.tile t).levelGoal then c.changeLevel t (c.tileNeed t)
  else c

/-- A raise starts as soon as a port's need rises (R339). -/
def Chip.needRaised (c : Chip) (p : Nat) : Chip := c.tileRaised (tileOf p)

/-- Every pair engine of the port's formation has a valid calibration record or is marked unusable, and none is in foreground
calibration (R365, R366). -/
def Chip.calReady (c : Chip) (p : Nat) : Bool :=
  (c.pesOf p).all fun e => c.rd .BIST_STATE_PE e = 2 || ((c.calOf e).valid && !(c.calOf e).fg)

/-- A port samples with divider 1 for its probe: in a full `TRAIN_T0`, or while a standalone test runs (R156). -/
def Chip.probing (c : Chip) (p : Nat) : Bool :=
  ((c.port p).link = .trainT0 && !(c.port p).fast) || (c.diag.tdr.get? p).isSome

/-- Sample divider of a quad (R88, R156). -/
def Chip.quadDivider (c : Chip) (q : Nat) : Nat :=
  let l := (c.portsOfQuad q).filterMap fun p =>
    if c.probing p then some 1
    else if (c.port p).link.clocked then (c.port p).mode.map LineMode.divider else none
  match l with
  | [] => 128
  | d :: l => l.foldl Nat.gcd d

/-- A block of Table 14-7 has quiesced for the device, or for a tile: it starts no work until it resumes (R346). -/
def Chip.blockQuiet (c : Chip) (t b : Nat) : Bool :=
  let s := c.tile t
  c.pwr.entering || s.entering || (c.pwr.agreed.getD []).contains b || (s.agreed.getD []).contains b

/-- A rotation of a pair engine's calibration. -/
def CalSt.rot (s : CalSt) (dac : Bool) : Rotation := if dac then s.dac else s.adc
def CalSt.setRot (s : CalSt) (dac : Bool) (f : Rotation → Rotation) : CalSt :=
  if dac then { s with dac := f s.dac } else { s with adc := f s.adc }

/-- A round with no visit left to make, nor one in progress, ends (R356). -/
def Chip.roundEnd (c : Chip) (e : Nat) (dac : Bool) : Chip :=
  let r := (c.calOf e).rot dac
  if !r.round || r.visit.isSome || !r.left.isEmpty then c
  else
    (c.wr .CAL_ROUND_TIME e ((c.root - r.from_) / 16000)).setCal e fun k => k.setRot dac fun r => { r with round := false }

/-- A handshake for the device, or its entry to another state, is in progress: no new start decision (Table 14-7). -/
def Chip.quiescing (c : Chip) : Bool := c.pwr.agreed.isSome || c.pwr.entering

end Sys2Proof.Machine
end

