-- ==== Sys2Proof/Machine/Anc.lean ====
section
/-!
DEFINITION. Bundle cancellation (chapter 5): the neighbour slots, the happenings of Table 5-3, and the weave map.
-/
set_option Elab.async false
namespace Sys2Proof.Machine

/-- Alien-NEXT canceller of a victim. -/
def Chip.ancOf (c : Chip) (v : Nat) : AncSt := c.anc.getD v {}

/-- Change a victim's canceller. -/
def Chip.setAnc (c : Chip) (v : Nat) (f : AncSt → AncSt) : Chip := { c with anc := c.anc.upd v {} f }

/-- Slot k of a canceller. -/
def AncSt.slot (a : AncSt) (k : Nat) : Slot := a.slots.getD k {}

/-- Change slot k of a victim. -/
def Chip.setSlot (c : Chip) (v k : Nat) (f : Slot → Slot) : Chip :=
  c.setAnc v fun a => { a with slots := a.slots.upd k {} f }

/-- Code of a slot state (Table 5-2). -/
def SlotState.code : SlotState → Nat
  | .empty => 0 | .probation => 1 | .active => 2 | .frozen => 3

/-- Taps of slot k become zero (words 0x0700 + 0x80 k onward, Table 4-7). -/
def Chip.zeroTaps (c : Chip) (v k : Nat) : Chip :=
  c.setPe v fun s => { s with store := s.store.filter fun e => !(0x700 + 0x80 * k ≤ e.1 && e.1 < 0x780 + 0x80 * k) }

/-- A pair engine runs a loop-back test on demand, during which it drives no signal (R121, R138; codes of Table 15-5). -/
def Chip.inLoopback (c : Chip) (e : Nat) : Bool :=
  match c.bist.demand with
  | some (code, inst) => (code = 0x10 || code = 0x11) && inst = Cls.pe.addr e
  | none => false

/-- The mode under which a pair drives a signal that a slot can subtract: training frames, data, refresh and wake; none in
LPI quiet, in negotiation, under a loop-back test, when the pair is marked unusable, or when it is not a lane of its port (R96,
R121, R127). -/
def Chip.drives (c : Chip) (n : Nat) : Option LineMode :=
  let p := c.portOf n
  let s := c.port p
  if (match s.link with
      | .trainT1 | .trainT2 | .trainT3 | .stdTrain => true
      | .up => s.lpi.state ≠ .quiet
      | _ => false) && s.lanes.contains n && c.tileRuns (tileOf n) && c.rd .BIST_STATE_PE n != 2 && !c.inLoopback n
  then s.mode else none

/-- A neighbour drives a signal under a mode, and is not in LPI sleep, which Table 5-3 counts with the quiet period (row 6). -/
def Chip.signals (c : Chip) (n mode : Nat) : Bool :=
  (c.port (c.portOf n)).lpi.state ≠ .sleep && (match c.drives n with
    | some m => m.code = mode
    | none => false)

/-- Modes whose receivers have neighbour slots (R122). -/
def LineMode.hasSlots : LineMode → Bool
  | .t1000 | .t100 => false
  | _ => true

/-- A victim's port runs or trains in a mode that has neighbour slots (R122, R139). -/
def Chip.ancMode (c : Chip) (v : Nat) : Bool :=
  match (c.port (c.portOf v)).mode with
  | some m => m.hasSlots
  | none => false

/-- Sample period of a victim in root edges (Table 5-1). -/
def LineMode.victimSample : LineMode → Nat
  | .w50 => 1 | .w25 => 2 | .w12 => 4 | .t40g => 5 | .t25g => 8 | _ => 20

/-- Root edges, after a neighbour's symbol leaves its MDI, up to which a slot with lag `lag` covers coupling (Table 5-1). -/
def LineMode.slotReach (m : LineMode) (lag : Nat) : Nat := (lag + m.taps.alien) * m.victimSample

/-- A pair may be a neighbour of a victim: the same or an adjacent tile, and another port (R122). -/
def Chip.reach (c : Chip) (v n : Nat) : Bool :=
  n < 512 && tileOf n ≤ tileOf v + 1 && tileOf v ≤ tileOf n + 1 && c.portOf n != c.portOf v

/-- A change of membership: counted, recorded as TRACE, and due to be copied (R132, R136, R137). -/
def Chip.memberChange (c : Chip) (v k : Nat) : Chip :=
  let c := c.inc .ANC_MAP_VERSION
  let c := if c.rdBool .ANC_MAP_PERSIST then c.setBit .ANC_MAP_STATUS 0 2 true else c
  c.raise .mapChanged (Cls.pe.addr v) k

/-- A slot becomes `EMPTY` with taps zero (R126, R128, R134). -/
def Chip.emptySlot (c : Chip) (v k : Nat) : Chip :=
  let s := (c.ancOf v).slot k
  if s.state = .empty then c
  else
    let c := if s.state = .probation then c else c.inc .ANC_DROP_COUNT v
    ((c.setSlot v k fun _ => {}).zeroTaps v k).memberChange v k

/-- A slot is filled and enters `PROBATION` with taps zero; `NEIGHBOUR_MODE` is that of a neighbour that drives a signal
(R126, R133). -/
def Chip.fillSlot (c : Chip) (v k : Nat) (s : Slot) : Chip :=
  let mode := match c.drives s.neighbour with
    | some m => m.code
    | none => 0
  let c := (c.setSlot v k fun _ => { s with state := .probation, mode := if s.mode = 0 then mode else s.mode }).zeroTaps v k
  c.memberChange v k

/-- A slot goes back to `PROBATION` with taps zero, its neighbour and lag kept. -/
def Chip.reprobe (c : Chip) (v k : Nat) : Chip :=
  if ((c.ancOf v).slot k).state = .empty then c
  else (c.setSlot v k fun s => { s with state := .probation, gain := 0, below := false }).zeroTaps v k

/-- A slot is emptied, or a pinned one re-enters `PROBATION` (Tables 5-2 and 5-3). -/
def Chip.releaseSlot (c : Chip) (v k : Nat) : Chip :=
  if ((c.ancOf v).slot k).pinned then c.reprobe v k else c.emptySlot v k

/-- Slots of a victim that name a neighbour. -/
def AncSt.naming (a : AncSt) (n : Nat) : List Nat :=
  (List.range 8).filter fun k => (a.slot k).state != .empty && (a.slot k).neighbour = n

/-- Do something to every slot that names a neighbour. -/
def Chip.eachSlotOf (c : Chip) (n : Nat) (f : Chip → Nat → Nat → Chip) : Chip :=
  c.each c.anc fun c e => c.each (e.2.naming n) fun c k => f c e.1 k

/-- Happenings 4 of Table 5-3: the victim's retained coefficients are invalidated, or it starts a full training. -/
def Chip.ancVictimReset (c : Chip) (v : Nat) : Chip :=
  c.each (List.range 8) fun c k => c.reprobe v k

/-- Happening 5 of Table 5-3: neighbour `n` begins to drive a signal under mode `m`. The first signal since a slot was
filled only sets `NEIGHBOUR_MODE`. -/
def Chip.ancDrives (c : Chip) (n : Nat) (m : LineMode) : Chip :=
  c.eachSlotOf n fun c v k =>
    let s := (c.ancOf v).slot k
    if s.mode = m.code then c
    else if s.mode = 0 then c.setSlot v k fun s => { s with mode := m.code }
    else
      let c := (c.reprobe v k).setSlot v k fun s => { s with mode := m.code }
      (c.inc .ANC_DISCARD_COUNT v).raise .tapsDiscarded (Cls.pe.addr v) k

/-- Happening 6 of Table 5-3: neighbour `n` stops driving a signal. -/
def Chip.ancStops (c : Chip) (n : Nat) : Chip :=
  c.eachSlotOf n fun c v k =>
    if ((c.ancOf v).slot k).state = .active then c.setSlot v k fun s => { s with state := .frozen, gain := 0 } else c

/-- The pairs of a port that drive a signal begin to, as neighbours (Table 5-3). -/
def Chip.ancPortDrives (c : Chip) (p : Nat) : Chip :=
  c.each (c.pesOf p) fun c e => match c.drives e with
    | some m => c.ancDrives e m
    | none => c

/-- A port leaves `LINK_UP`: its pairs stop as neighbours, and its passes stop (R125). -/
def Chip.ancPortDown (c : Chip) (p : Nat) : Chip :=
  c.each (c.pesOf p) fun c e =>
    (c.ancStops e).setAnc e fun a => { a with passing := false, cleared := false, startAt := none }

/-- A pair engine is dropped from its port (Table 5-3). -/
def Chip.ancPeDown (c : Chip) (e : Nat) : Chip := c.ancStops e

/-- Happenings 1 and 2 of Table 5-3: a pair engine is marked unusable or its tile isolated. -/
def Chip.ancUnusable (c : Chip) (e : Nat) : Chip :=
  let c := c.each (List.range 8) fun c k => c.releaseSlot e k
  let c := c.setAnc e fun a => { a with passing := false }
  c.eachSlotOf e fun c v k => c.releaseSlot v k

/-- Results of a window (Table 5-5): the whole gain and each slot's, 0 for slots that are not `ACTIVE`. -/
def Chip.ancGains (c : Chip) (v : Nat) (gain : Int) (each : List Int) : Chip :=
  let any := (List.range 8).any fun k => ((c.ancOf v).slot k).state = .active
  let c := c.wrInt .ANC_GAIN v (if any then gain else 0)
  c.each (List.range 8) fun c k =>
    if ((c.ancOf v).slot k).state = .active then c.setSlot v k fun s => { s with gain := each.getD k 0 } else c

/-- A slot that a new formation makes unlawful is emptied and unpinned (R135). -/
def Chip.ancFormation (c : Chip) (q : Nat) : Chip :=
  c.each (List.range 4) fun c i =>
    let v := 4 * q + i
    c.each (List.range 8) fun c k =>
      let s := (c.ancOf v).slot k
      if s.state ≠ .empty && !c.reach v s.neighbour then
        let c := if s.pinned then c.raise .pinnedCleared (Cls.pe.addr v) k else c
        c.emptySlot v k
      else c

/-- Value of a slot's row (Table 5-4). -/
def Slot.row (s : Slot) : Nat :=
  s.state.code * 2 ^ 61 + b2n s.pinned * 2 ^ 60 + (s.neighbour % 512) * 2 ^ 48 + (s.mode % 256) * 2 ^ 40
    + (s.lag % 256) * 2 ^ 32 + ofInt 16 s.x * 2 ^ 16 + ofInt 16 s.gain

/-- `ANC_STATUS` (Table 5-5). -/
def AncSt.status (a : AncSt) : Nat :=
  b2n (a.passing && a.passFirst) + 2 * b2n ((List.range 8).any fun k => (a.slot k).state = .active)
    + 4 * b2n ((List.range 8).any fun k => (a.slot k).state = .frozen) + 8 * b2n a.full

/-- A slot subtracts its estimate from the data path (R122, R127, R128, R130, R139): the victim has reached `TRAIN_T1` in a mode with
slots, and the neighbour drives a signal under `NEIGHBOUR_MODE`. -/
def Chip.slotSubtracts (c : Chip) (v k : Nat) : Bool :=
  let s := (c.ancOf v).slot k
  (s.state = .active || s.state = .frozen) && c.ancMode v && c.rdBool .ANC_ENABLE (c.portOf v)
    && (match (c.port (c.portOf v)).link with
        | .trainT1 | .trainT2 | .trainT3 | .stdTrain | .up => true
        | _ => false)
    && (match c.drives s.neighbour with
        | some m => m.code = s.mode
        | none => false)

/-- A slot's taps adapt (R122, R127, R128): the victim in `LINK_UP` in a mode with slots and receiving, with no freeze and no self-test
slice on its store; the neighbour in `LINK_UP` under `NEIGHBOUR_MODE` and driving. -/
def Chip.slotAdapts (c : Chip) (v k : Nat) : Bool :=
  let s := (c.ancOf v).slot k
  (s.state = .active || s.state = .probation) && c.ancMode v && c.rdBool .ANC_ENABLE (c.portOf v) && c.up (c.portOf v)
    && (c.port (c.portOf v)).lpi.partnerQuiet = false && !c.rdBool .PE_COEF_FREEZE v
    && (c.bist.slices.get? (0x01 * 4096 + v)).isNone && c.up (c.portOf s.neighbour) && c.signals s.neighbour s.mode

/-- What a slot takes from the victim's signal at sample `j`, in products of its taps (S2.13, Table 4-8) with the reference: the
neighbour's bus value through the reference filter, at the victim's sample instants, the first tap applied to the reference delayed
by `BULK_DELAY` samples (R123). `bus` gives the bus value of a pair at a root edge. -/
def Chip.slotEstimate (c : Chip) (bus : Nat → Nat → Int) (v k j : Nat) : Int :=
  let s := (c.ancOf v).slot k
  match (c.port (c.portOf v)).mode with
  | none => 0
  | some m =>
    if !c.slotSubtracts v k then 0
    else
      (List.range m.taps.alien).foldl (fun a i =>
        a + toInt 16 ((c.pe v).word (0x700 + 0x80 * k + i))
          * Config.refFilter m.code (bus s.neighbour) ((j - s.lag - i) * m.victimSample)) 0

/-- A write of `ANC_SLOT` (R134). No pass has measured a lag for a neighbour that software pins, and the rules name none: `BULK_DELAY` is
0 (DESIGN CHOICE, log entry 94). -/
def Chip.writeAncSlot (c : Chip) (v k val : Nat) : Abort × Chip :=
  let n := bits val 56 48
  if val.testBit 60 then
    if !c.reach v n || ((c.ancOf v).naming n).any (fun j => j != k) then (.range, c)
    else (.ok, (c.emptySlot v k).fillSlot v k { neighbour := n, pinned := true })
  else (.ok, c.emptySlot v k)

/-- A write of `ANC_ENABLE` (R128). -/
def Chip.writeAncEnable (c : Chip) (p x : Nat) : Abort × Chip :=
  if x > 1 then (.range, c)
  else
    let c := c.wr .ANC_ENABLE p x
    if x = 1 then (.ok, c)
    else (.ok, c.each (c.pesOf p) fun c v =>
      let c := c.each (List.range 8) fun c k => if ((c.ancOf v).slot k).pinned then c else c.emptySlot v k
      c.setAnc v fun a => { a with passing := false })

/-- The entries that the MRAM copy holds (R132). -/
def Chip.weaveEntries (c : Chip) : List WeaveEntry :=
  c.anc.flatMap fun e => (List.range 8).filterMap fun k =>
    let s := e.2.slot k
    if s.state = .empty then none else some ⟨e.1, k, s.neighbour, s.mode, s.lag, s.pinned⟩

/-- The MRAM copy is written (R132). -/
def Chip.weaveCopy (c : Chip) : Chip :=
  ({ c with nv := { c.nv with weave := some c.weaveEntries } }).setBit .ANC_MAP_STATUS 0 2 false

/-- At power-up a valid copy is restored; a copy that fails its check is discarded (R132, R135). Restoring what the copy
holds is no change since the copy was written. An entry whose neighbour a pinned slot of the victim already holds is restored
beside it (DESIGN CHOICE, log entry 96). -/
def Chip.weaveRestore (c : Chip) (bad : Bool) : Chip :=
  match c.nv.weave with
  | none => c
  | some l =>
    if bad then
      (({ c with nv := { c.nv with weave := none } }).setBit .ANC_MAP_STATUS 0 1 true).raise .copyBadCrc 0
    else
      let c := c.each l fun c w =>
        if c.reach w.victim w.neighbour && ((c.ancOf w.victim).slot w.slot).state = .empty then
          c.fillSlot w.victim w.slot { neighbour := w.neighbour, mode := w.mode, lag := w.lag, pinned := w.pinned }
        else c
      (c.setBit .ANC_MAP_STATUS 0 2 false).setBit .ANC_MAP_STATUS 0 0 true

/-- A write of `ANC_MAP_CLEAR` (Table 5-5). -/
def Chip.writeMapClear (c : Chip) (x : Nat) : Abort × Chip :=
  if x = 0 then (.ok, c)
  else if x > 1 then (.range, c)
  else
    let c := c.each c.anc fun c e =>
      let c := c.each (List.range 8) fun c k => if ((c.ancOf e.1).slot k).pinned then c else c.emptySlot e.1 k
      c.setAnc e.1 fun a => { a with firstDone := false, cleared := a.passing }
    (.ok, if c.rdBool .ANC_MAP_PERSIST then c.weaveCopy else c)

/-- A write of `ANC_MAP_PERSIST` (Table 5-5). -/
def Chip.writeMapPersist (c : Chip) (x : Nat) : Abort × Chip :=
  if x > 1 then (.range, c)
  else
    let c := c.wr .ANC_MAP_PERSIST 0 x
    (.ok, if x = 0 then ({ c with nv := { c.nv with weave := none } }).setBit .ANC_MAP_STATUS 0 2 false else c)

/-- Insert a candidate behind those that rank at least as high. -/
def Candidate.insert (x : Candidate) : List Candidate → List Candidate
  | [] => [x]
  | y :: l => if y.x ≥ x.x then y :: Candidate.insert x l else x :: y :: l

/-- Candidates, highest X first; equals keep the order in which they are given. -/
def Candidate.rank (l : List Candidate) : List Candidate := l.foldl (fun a x => x.insert a) []

/-- The unpinned `ACTIVE` slot with the lowest X (R126); of several with the same X the lowest slot number, which the rule does not say
(DESIGN CHOICE, log entry 95). -/
def AncSt.weakest (a : AncSt) : Option Nat :=
  (List.range 8).foldl (fun (m : Option Nat) k =>
    let s := a.slot k
    if s.state = .active && !s.pinned then
      match m with
      | some j => if s.x < (a.slot j).x then some k else some j
      | none => some k
    else m) none

/-- A contribution in 1/256 dB as R124 has it: 0 dB or less, and within the S16 of Table 5-4. -/
def contribution (x : Int) : Int := max (-32768) (min 0 x)

/-- A candidate takes a slot: the lowest `EMPTY` one, or that of a neighbour at least 3 dB weaker (R126). -/
def Chip.takeSlot (c : Chip) (v : Nat) (x : Candidate) : Chip :=
  let a := c.ancOf v
  let s : Slot := { neighbour := x.pe, lag := x.lag, x := x.x }
  match (List.range 8).find? fun k => (a.slot k).state = .empty with
  | some k => c.fillSlot v k s
  | none =>
    match a.weakest with
    | some k => if x.x ≥ (a.slot k).x + 768 then (c.emptySlot v k).fillSlot v k s else c
    | none => c

/-- The candidates of a pass that are ranked, highest X first: in reach, usable, their tile not isolated (R122, R126, Table 5-3). -/
def Chip.ranked (c : Chip) (v : Nat) (l : List Candidate) : List Candidate :=
  Candidate.rank ((l.filter fun x => c.reach v x.pe && c.rd .BIST_STATE_PE x.pe != 2
    && (c.tile (tileOf x.pe)).st != .isolated).map fun x => { x with x := contribution x.x })

/-- Qualifying candidates that hold no slot (R126). -/
def Chip.wanting (c : Chip) (v : Nat) (l : List Candidate) : List Candidate :=
  l.filter fun x => x.x ≥ c.rdInt .ANC_ADMIT && ((c.ancOf v).naming x.pe).isEmpty

/-- The end of a pass: measure, drop, fill, displace, report (R126). A neighbour displaced in the pass is a candidate without a slot, too. -/
def Chip.passEnd (c : Chip) (v : Nat) (ranked : List Candidate) : Chip :=
  let l := c.ranked v ranked
  let drop := c.rdInt .ANC_DROP
  let c := c.each (List.range 8) fun c k =>
    let s := (c.ancOf v).slot k
    if s.state = .empty then c
    else match l.find? fun x => x.pe.val = s.neighbour with
      | some x =>
        if s.state = .active && !s.pinned && x.x < drop && s.below then c.emptySlot v k
        else c.setSlot v k fun s => { s with x := x.x, below := x.x < drop }
      | none => c.setSlot v k fun s => { s with below := false }
  let c := c.each (c.wanting v l) fun c x => c.takeSlot v x
  let full := !(c.wanting v l).isEmpty
  let c := c.setAnc v fun a => { a with passing := false, firstDone := !a.cleared, cleared := false, full := full }
  let c := if full then c.raise .slotsFull (Cls.pe.addr v) else c
  c.inc .ANC_PASS_COUNT v

/-- The shadow period of a slot ends with contribution `x` (Table 5-2): its 20 ms accumulate only while the slot adapts. -/
def Chip.probationEnd (c : Chip) (v k : Nat) (x : Int) : Chip :=
  if ((c.ancOf v).slot k).state ≠ .probation || !c.slotAdapts v k then c
  else
    let c := c.setSlot v k fun s => { s with x := contribution x }
    if contribution x ≥ c.rdInt .ANC_ADMIT then
      (c.setSlot v k fun s => { s with state := .active, below := false }).inc .ANC_ADMIT_COUNT v
    else c.releaseSlot v k

end Sys2Proof.Machine
end

