-- ==== Sys2Proof/Machine/Gate.lean ====
section
/-!
DEFINITION. What every command shares: the domain check of R312, the access result, what follows a command at once wherever
its cause lies (R336, R360), and the event engine's turn at the command's end.
-/
set_option Elab.async false
namespace Sys2Proof.Machine

/-- Index ranges served before the configuration is applied (R377). -/
def Reg.servedEarly (r : Reg) : Bool := r.info.idx / 256 = 0x10 || r.info.idx / 256 = 0x11

/-- Owner-key and policy objects, which recovery does not serve (R384). -/
def Reg.ownerObject (r : Reg) : Bool := r.info.idx = 0x1100 && 0x20 ≤ r.info.sub && r.info.sub ≤ 0x25

/-- Objects served in `WAKE_FAULT`: those of the interior, of the always-on domain and of D52, D53, D57 and D58 (R352), and the weave
map, which is always readable (R137). -/
def Reg.servedInFault (r : Reg) : Bool :=
  [0x10, 0x11, 0x12, 0x20, 0x21, 0x30, 0x31, 0x90, 0x91, 0xA0].contains (r.info.idx / 256)
    || (r.info.idx / 256 = 0x51 && (r.info.cls = .dev || r.info.cls = .spi)) || r = .WEAVE_MAP

/-- Objects that the chapters place in a tile's DSP domain (R114, R137, R177, R374). -/
def Reg.inTileDsp : Reg → Bool
  | .PE_COEF | .ANC_SLOT | .ANC_GAIN | .CAL_RECORD | .CAL_ROUND_TIME => true
  | .TDR_RESULT | .TDR_FAULT | .TDR_FAULT_DIST => false
  | r => r.info.cls = .pe && r.info.idx / 256 = 0x65

/-- The object's domain is powered down, or the object is not served in the device's present condition (R22, R352, R377). While the
root is lost in `ACTIVE` its divisions do not run, and what they serve is refused as in `WAKE_FAULT` (DEDUCED, log entry 97). -/
def Chip.asleep (c : Chip) (r : Reg) (i : Nat) : Bool :=
  match c.boot.phase with
  | .noPower | .inReset => true
  | _ =>
    match c.pwr.state with
    | .standby | .off => true
    | .wakeFault => !r.servedInFault || r.inTileDsp
    | .active =>
      if c.boot.phase = .recovery && r.ownerObject then true
      else if !c.boot.applied then !r.servedEarly
      else (!c.pwr.rootOn && (!r.servedInFault || r.inTileDsp)) || (r.inTileDsp && !c.tileRuns (tileOf i))

/-- The domain check, then the rest of an access (R312). -/
def Chip.gated (c : Chip) (r : Reg) (i : Nat) (f : Chip → Abort × Chip) : Abort × Chip :=
  if c.asleep r i then (.asleep, c) else f c

/-- The row check, the domain check, then the rest of an access to a table (R306, R312). -/
def Chip.gatedRow (c : Chip) (r : Reg) (i row : Nat) (f : Chip → Abort × Chip) : Abort × Chip :=
  if row ≥ max 1 r.info.rows then (.row, c) else c.gated r i f

/-- Link states in which a calibration visit may run (R356). -/
def LinkState.visits : LinkState → Bool
  | .trainT1 | .trainT2 | .trainT3 | .up => true
  | _ => false

/-- A visit goes on while its port stays in the states of R356 and its quad's divider stays, or once it is returning (R360). -/
def Chip.visitStays (c : Chip) (e : Nat) (v : Visit) : Bool :=
  v.phase = .back || ((c.port (c.portOf e)).link.visits && c.quadDivider (quadOf e) = v.divider)

/-- A rotation after the visits that do not stay are abandoned; a round of which the last visit was abandoned is over (R356, R360). -/
def Rotation.settle (stays : Visit → Bool) (r : Rotation) : Rotation :=
  let v := r.visit.filter stays
  { r with visit := v, round := r.round && (v.isSome || !r.left.isEmpty) }

/-- Rotations whose round `settle` ends, by the root edge at which the round started. -/
def CalSt.settled (stays : Visit → Bool) (x : CalSt) : List Nat :=
  [x.adc, x.dac].filterMap fun r => if r.round && !(r.settle stays).round then some r.from_ else none

/-- The rounds that end as their last visits are abandoned write their time. -/
def Chip.roundsSettle (c : Chip) : Chip :=
  c.each c.cal fun d x => d.each (x.2.settled (c.visitStays x.1)) fun d t => d.wr .CAL_ROUND_TIME x.1 ((c.root - t) / 16000)

/-- Abandon the visits that R360 ends. The element returns with its previous correction; a round of which it was the last visit is
over. -/
def Chip.visitsSettle (c : Chip) : Chip :=
  if c.cal.all fun x => x.2.adc.visit.isNone && x.2.dac.visit.isNone then c
  else { c.roundsSettle with cal := c.cal.map fun x =>
    (x.1, { x.2 with adc := x.2.adc.settle (c.visitStays x.1), dac := x.2.dac.settle (c.visitStays x.1) }) }

/-- Sample dividers of a tile's quads. -/
def Chip.tileDividers (c : Chip) (t : Nat) : List Nat := (List.range 8).map fun k => c.quadDivider (8 * t + k)

/-- A switch of a tile's sample clock that is acknowledged clears `CLKSW_FORCED` (R89, R336). -/
def Chip.forcedSettle (c old : Chip) : Chip :=
  if old.pwr.forced.all fun d => d < 1 || 16 < d then c
  else c.setPwr fun p => { p with forced := p.forced.filter fun d =>
    !(old.pwr.forced.contains d && 1 ≤ d && d ≤ 16 && c.tileDividers (d - 1) != old.tileDividers (d - 1)) }

/-- The outcome type of a meaning. -/
abbrev Out := Host.Outcome State Fault Refusal

/-- A command's effect on the block: what follows from it at once, then the event engine takes what was raised; the queue
stays. -/
def State.run (s : State) (f : Chip → Chip) : Out :=
  .next { s with chip := (((f s.chip).visitsSettle).forcedSettle s.chip).flush }

/-- What an access leaves: an abort changes nothing but the access result (R312). A refused commit also leaves its reason
(Table 16-10). -/
def Chip.answer (c : Chip) (r : Abort × Chip) (v : List Octet := []) : Chip :=
  match r.1 with
  | .ok => { r.2 with access := ⟨.ok, v⟩ }
  | .commitRefused => { r.2 with access := ⟨.commitRefused, []⟩ }
  | a => { c with access := ⟨a, []⟩ }

/-- A write's effect on the block: its abort code is the access result, and an abort changes nothing else (R312). -/
def State.runWr (s : State) (f : Chip → Abort × Chip) : Out := s.run fun c => c.answer (f c)

end Sys2Proof.Machine
end

