-- ==== Sys2Proof/Machine/AncEvents.lean ====
section
/-!
DEFINITION. The meanings of the events and writes of bundle cancellation (chapter 5).
-/
set_option Elab.async false
namespace Sys2Proof.Machine

/-- A pass may start (R125): the first since `LINK_UP` at once, a later one `ANC_SCAN_PERIOD` after the previous one's start. -/
def Chip.passDue (c : Chip) (v : Nat) : Bool :=
  match (c.ancOf v).startAt with
  | some r => c.root ≥ r + rootUs (1000 * c.rd .ANC_SCAN_PERIOD)
  | none => true

/-- ANC_PASS_START (R125): the victim's port is in `LINK_UP` in a mode with slots, `ANC_ENABLE` is true and the tile
runs. -/
def execAncPassStart (v : PeNo) (s : State) : Out := s.run fun c =>
  let p := c.portOf v
  if c.up p && c.ancMode v && c.rdBool .ANC_ENABLE p && c.tileRuns (tileOf v) && (c.port p).lanes.contains v.val
      && !(c.ancOf v).passing && c.passDue v then
    c.setAnc v fun a => { a with passing := true, passFirst := !a.firstDone, cleared := false, startAt := some c.root }
  else c

/-- ANC_PASS_END (R125, R126): the candidates with at least 2 s of signal, as measured. -/
def execAncPassEnd (v : PeNo) (ranked : List Candidate) (s : State) : Out := s.run fun c =>
  if (c.ancOf v).passing then c.passEnd v ranked else c

/-- PROBATION_END (R127): 20 ms of shadow adaptation have accumulated. -/
def execProbationEnd (v : PeNo) (slot : Fin 8) (x : Int) (s : State) : Out := s.run fun c => c.probationEnd v slot x

/-- FROZEN_THAW (R127): the neighbour has driven a signal in `LINK_UP` under `NEIGHBOUR_MODE` for 10 µs. -/
def execFrozenThaw (v : PeNo) (slot : Fin 8) (s : State) : Out := s.run fun c =>
  let x := (c.ancOf v).slot slot
  if x.state = .frozen && c.up (c.portOf x.neighbour) && c.signals x.neighbour x.mode then
    (c.setSlot v slot fun s => { s with state := .active }).inc .ANC_ADMIT_COUNT v
  else c

/-- ANC_HOLD_EXPIRE (R131): the hold time has reached `ANC_HOLD_TIME`; it accumulates only while the neighbour's port is
outside `LINK_UP`, its tile runs and the device is `ACTIVE`. -/
def execAncHoldExpire (v : PeNo) (slot : Fin 8) (s : State) : Out := s.run fun c =>
  let x := (c.ancOf v).slot slot
  if x.state = .frozen && !c.up (c.portOf x.neighbour) && c.tileRuns (tileOf x.neighbour) && c.pwr.state = .active then
    c.releaseSlot v slot
  else c

/-- WEAVE_MAP_COPY_WRITE (R132). -/
def execWeaveMapCopyWrite (s : State) : Out := s.run fun c =>
  if c.rdBool .ANC_MAP_PERSIST && c.rdBit .ANC_MAP_STATUS 2 then c.weaveCopy else c

/-- ANC_SLOT_WRITE (R134, R136). -/
def execAncSlotWrite (v : PeNo) (row : Nat) (value : BitVec 64) (s : State) : Out :=
  s.runWr fun c => c.gatedRow .ANC_SLOT v row fun c => c.writeAncSlot v row value.toNat

/-- ANC_ENABLE_WRITE (R128). -/
def execAncEnableWrite (p : PortNo) (value : BitVec 8) (s : State) : Out :=
  s.runWr fun c => c.gated .ANC_ENABLE p fun c => c.writeAncEnable p value.toNat

/-- ANC_MAP_CLEAR (R136). -/
def execAncMapClear (value : BitVec 8) (s : State) : Out :=
  s.runWr fun c => c.gated .ANC_MAP_CLEAR 0 fun c => c.writeMapClear value.toNat

/-- ANC_MAP_PERSIST_WRITE (R136). -/
def execAncMapPersistWrite (value : BitVec 8) (s : State) : Out :=
  s.runWr fun c => c.gated .ANC_MAP_PERSIST 0 fun c => c.writeMapPersist value.toNat

end Sys2Proof.Machine
end

