-- ==== Sys2Proof/Machine/Diag.lean ====
section
/-!
DEFINITION. Cable diagnostics and link monitoring (chapter 7): the probe's results, the class decision, the fingerprint,
link quality, the reflectogram, and the LED outputs.
-/
set_option Elab.async false
namespace Sys2Proof.Machine

/-- Change what diagnostics keep. -/
def Chip.setDiag (c : Chip) (f : DiagSt → DiagSt) : Chip := { c with diag := f c.diag }

/-- Nearest whole number of a quotient. -/
def rdiv (a b : Nat) : Nat := (a + b / 2) / b

/-- One-way distance in mm of a one-way delay in ps, at `TDR_NVP` × c (R161). -/
def nvpMm (nvp ps : Nat) : Nat := rdiv (ps * nvp * 299792458) (1024 * 1000000000)

/-- An event placed from its echo: class (Table 7-2), distance in mm, ρ, accuracy bound (R161, Table 7-4). -/
structure TdrEvent where
  cls : Nat
  dist : Nat
  rho : Int
  acc : Nat

/-- Row value of an event (Table 7-3). -/
def TdrEvent.row (e : TdrEvent) : Nat :=
  e.cls * 2 ^ 60 + (e.dist % 2 ^ 24) * 2 ^ 32 + ofInt 16 e.rho * 2 ^ 16 + e.acc % 2 ^ 16

/-- Range in mm of the short probe at a velocity (R161, Table 7-4): half of its period of 8,191 symbols of 62.5 ps. -/
def tdrShortRange (nvp : Nat) : Nat := rdiv (8191 * 625 * nvp * 299792458) (20 * 1024 * 1000000000)

/-- Accuracy bound in mm at a distance: the short probe's within its range, the long probe's beyond (Table 7-4). -/
def tdrAcc (nvp mm : Nat) : Nat := if mm ≤ tdrShortRange nvp then 100 + mm / 100 else 500 + mm / 50

/-- Class of a reflection of at least 0.15, as S0.15 (Table 7-2). -/
def reflClass (rho : Int) : Nat :=
  if rho ≥ 19661 then 1 else if rho ≤ -19661 then 2 else if rho > 0 then 3 else 4

/-- Insert an event into a list in ascending order of distance. -/
def TdrEvent.insert (x : TdrEvent) : List TdrEvent → List TdrEvent
  | [] => [x]
  | y :: l => if y.dist ≤ x.dist then y :: TdrEvent.insert x l else x :: y :: l

/-- Number of events of a list with a greater |ρ|, or an equal one nearer to the origin. -/
def TdrEvent.above (x : TdrEvent) (l : List TdrEvent) : Nat :=
  (l.filter fun y => y.rho.natAbs > x.rho.natAbs || (y.rho.natAbs = x.rho.natAbs && y.dist < x.dist)).length

/-- The delay in ps, one way, from the origin to an echo. -/
def Echo.oneWay (origin : Nat) (x : Echo) : Nat := (x.delay - 2 * origin) / 2

/-- The events of a pair, at most eight, in ascending order of distance (R159). -/
def pairEvents (nvp origin : Nat) (r : PairProbe) : List TdrEvent :=
  if r.noisy then [⟨7, 0, 0, 0⟩]
  else
    let mk := fun (k : Nat) (x : Echo) =>
      let d := nvpMm nvp (x.oneWay origin)
      (⟨k, d, x.rho, tdrAcc nvp d⟩ : TdrEvent)
    let seen := r.echoes.filter fun x => !x.cross && x.rho.natAbs ≥ 656
    let far := seen.foldl (fun a x => max a x.delay) 0
    let l := r.echoes.filterMap fun x =>
      if x.cross then (if x.rho.natAbs ≥ 3277 then some (mk 5 x) else none)
      else if x.rho.natAbs ≥ 4916 then some (mk (reflClass x.rho) x)
      else if x.rho.natAbs ≥ 656 && x.delay = far then some (mk 6 x)
      else none
    let s := l.foldl (fun a x => x.insert a) []
    s.filter fun x => x.above s < 8

/-- `TDR_FAULT` and `TDR_FAULT_DIST` (R160). -/
def tdrFault (l : List TdrEvent) : Nat × Nat :=
  match l.find? fun x => x.cls = 1 || x.cls = 2 || x.cls = 5 with
  | some x => (x.cls, x.dist)
  | none => match l.find? fun x => x.cls = 3 || x.cls = 4 with
    | some x => (x.cls, x.dist)
    | none => (0, 0)

/-- The probe result of pair `k` of a port. -/
def T0Probe.pair (r : T0Probe) (k : Nat) : PairProbe := r.pairs.getD k ⟨[], 0, false, 0, [], []⟩

/-- The results of a probe replace the previous ones (R159, R160, R162). -/
def Chip.tdrResults (c : Chip) (p : Nat) (r : T0Probe) : Chip :=
  c.each (c.pesOf p) fun c e =>
    let x := r.pair (e - p)
    let l := pairEvents (c.rd .TDR_NVP p) (c.rd .TDR_ORIGIN p) x
    let c := c.each (List.range 8) fun c k => c.wrRow .TDR_RESULT e k (((l.map TdrEvent.row)[k]?).getD 0)
    let f := tdrFault l
    ((c.wr .TDR_FAULT e f.1).wr .TDR_FAULT_DIST e f.2).wrInt .TDR_NOISE e x.noise

/-- The partner's probe was seen on the pair: for at least 1 ms of the short-probe interval (R163). -/
def PairProbe.seen (x : PairProbe) : Bool := x.seenUs ≥ 1000

/-- Least-squares fit of a√f + b·f to losses (R163): `l` holds √f and f in a fixed-point scale, and the loss. Every loss must lie within
384 units, 1.5 dB, of the fit; the normal equations are kept free of quotients. -/
def fitsWithin (l : List (Int × Int × Int)) : Bool :=
  let s := fun f : Int × Int × Int → Int => (l.map f).foldl (· + ·) 0
  let ss := s fun x => x.1 * x.1
  let sf := s fun x => x.1 * x.2.1
  let ff := s fun x => x.2.1 * x.2.1
  let sy := s fun x => x.1 * x.2.2
  let fy := s fun x => x.2.1 * x.2.2
  let d := ss * ff - sf * sf
  l.all fun x => (x.2.2 * d - (sy * ff - fy * sf) * x.1 - (fy * ss - sy * sf) * x.2.1).natAbs ≤ 384 * d.natAbs

/-- The pair is smooth to `f` MHz (R163): over the bands from 100 MHz to `f` whose loss is at most 50 dB. The bands counted are those that
lie in that range whole, a band stands at its middle, and the fit is that of least squares (DESIGN CHOICE, log entry 109). -/
def PairProbe.smoothTo (x : PairProbe) (f : Nat) : Bool :=
  fitsWithin (((x.bands.zipIdx).filter fun b => 1 ≤ b.2 && 125 * (b.2 + 1) ≤ f && b.1 ≤ 12800).map fun b =>
    (((2 * b.2 + 1) * 2 ^ 20).sqrt, (2 * b.2 + 1) * 2 ^ 10, b.1))

/-- Loss of a pair at a place of the list of frequencies; above 50 dB it reads as 50 dB (R163). -/
def PairProbe.lossAt (x : PairProbe) (k : Nat) : Nat := min 12800 (x.loss.getD k 12800)

/-- The counted pairs of R164, by position. -/
def Chip.countedPairs (c : Chip) (p : Nat) (r : T0Probe) : List Nat :=
  let act := (c.port p).lanes.map fun e => e - p
  let seen := act.filter fun k => (r.pair k).seen
  if c.rdBool .PORT_PAIR_DOWNSHIFT p && seen.length ≥ c.rd .PORT_MIN_PAIRS p && seen.length < act.length then seen else act

/-- `TRAIN_CLASS` by Table 7-6 (R164). -/
def Chip.classOf (c : Chip) (p : Nat) (r : T0Probe) : Nat :=
  let act := (c.port p).lanes.map fun e => e - p
  let seen := act.filter fun k => (r.pair k).seen
  let cnt := c.countedPairs p r
  let ev := fun k => pairEvents (c.rd .TDR_NVP p) (c.rd .TDR_ORIGIN p) (r.pair k)
  let broken := cnt.any fun k => (ev k).any fun x => x.cls = 1 || x.cls = 2 || (x.cls = 6 && x.dist > 30000)
  let row := fun (f lim smooth : Nat) =>
    cnt.all fun k => (r.pair k).seen && (r.pair k).lossAt f ≤ lim && (r.pair k).smoothTo smooth
  if broken || (!seen.isEmpty && seen.length < act.length && cnt.length = act.length)
      || (!seen.isEmpty && seen.length < c.rd .PORT_MIN_PAIRS p) then 7
  else if cnt.isEmpty then 6
  else if row 4 6400 8000 then 1
  else if row 3 8192 8000 then 2
  else if row 3 8192 2000 then 3
  else if row 2 10240 2000 then 4
  else if row 2 10240 500 then 5
  else 6

/-- Modes that the class gate allows (Table 3-8). -/
def classAllows (cls : Nat) (m : LineMode) : Bool :=
  match cls with
  | 1 => m.isW
  | 2 | 3 => m = .w25 || m = .w12
  | 4 | 5 => m = .w12
  | _ => false

/-- Fingerprint entry of a pair, 16 octets (Table 7-7). A distance or a delay beyond its 16 bits wraps: the rules do not say what happens
then (DESIGN CHOICE, log entry 111). -/
def fpEntry (nvp origin cls : Nat) (x : PairProbe) : Nat :=
  let l := pairEvents nvp origin x
  let far := l.find? fun e => e.cls = 6
  let delay := match (x.echoes.filter fun y => !y.cross && y.rho.natAbs ≥ 656).foldl (fun a y => max a y.delay) 0 with
    | d => rdiv ((d - 2 * origin) * 2) 125
  let il := (List.range 5).foldl (fun a k => a * 65536 + (if x.seen then x.lossAt k else 0xFFFF)) 0
  let d := match far with
    | some e => (rdiv e.dist 10) % 65536 * 65536 + delay % 65536
    | none => 0xFFFFFFFF
  let fault := l.any fun e => e.cls = 1 || e.cls = 2 || e.cls = 5
  (il * 2 ^ 32 + d) * 2 ^ 16 + (cls % 256) * 256 + b2n x.seen + 2 * b2n fault

/-- The cable fingerprint of a port, 64 octets; pairs beyond the width read zero (R165). -/
def Chip.fingerprint (c : Chip) (p cls : Nat) (r : T0Probe) : Nat :=
  (List.range 4).foldl (fun a k =>
    a * 2 ^ 128 + (if k < c.width p then fpEntry (c.rd .TDR_NVP p) (c.rd .TDR_ORIGIN p) cls (r.pair k) else 0)) 0

/-- Entry of pair `k` in a fingerprint. -/
def fpPair (v k : Nat) : Nat := bits v (128 * (4 - k) - 1) (128 * (3 - k))

/-- A fingerprint with the entries of pairs beyond the width read as zero (R165). -/
def fpMask (w v : Nat) : Nat := if w < 4 then v / 2 ^ (128 * (4 - w)) * 2 ^ (128 * (4 - w)) else v

/-- Check word of a stored fingerprint: the CRC-32 of R113 over its 64 octets (R165). -/
def fpCheck (v : Nat) : Nat := crc32 (natToOctets 64 v)

/-- Whether two entries of a pair differ as R166 states: delays by more than 8 units or present in one only, losses
measured in both by more than 1.5 dB. -/
def fpPairDiffers (a b : Nat) : Bool :=
  let da := bits a 31 16
  let db := bits b 31 16
  (if da = 0xFFFF || db = 0xFFFF then da != db else ((da : Int) - db).natAbs > 8)
  || (List.range 5).any fun k =>
    let x := bits a (127 - 16 * k) (112 - 16 * k)
    let y := bits b (127 - 16 * k) (112 - 16 * k)
    x != 0xFFFF && y != 0xFFFF && ((x : Int) - y).natAbs > 384

/-- Whether two fingerprints of a port of `w` pairs differ (R166). -/
def fpDiffers (w a b : Nat) : Bool :=
  bits (fpPair a 0) 15 8 != bits (fpPair b 0) 15 8 || (List.range w).any fun k => fpPairDiffers (fpPair a k) (fpPair b k)

/-- The stored fingerprint of a port, when it passes its check (R165, R166). -/
def Chip.storedPrint (c : Chip) (p : Nat) : Option Nat :=
  match c.nv.prints.get? p with
  | some x => if x.2 = fpCheck x.1 then some x.1 else none
  | none => none

/-- The end of a `TRAIN_T0` that carries a probe: results, class, fingerprint, and its comparison with the stored copy (R162,
R164 to R166). -/
def Chip.classDecision (c : Chip) (p : Nat) (r : T0Probe) : Chip :=
  let c := (c.tdrResults p r).wr .TDR_STATUS p 6
  let cls := c.classOf p r
  let fp := c.fingerprint p cls r
  let c := (c.wr .TRAIN_CLASS p cls).wr .CABLE_FINGERPRINT p fp
  let c := if r.badPrint then { c with nv := { c.nv with prints := c.nv.prints.del p } } else c
  match c.storedPrint p with
  | some old =>
    if fpDiffers (c.width p) fp old then (c.setBit .LQ_STATUS p 3 true).raise .cableChanged (Cls.port.addr p) else c
  | none => c

/-- The fingerprint goes to MRAM with the stored records (R165). -/
def Chip.fpStore (c : Chip) (p : Nat) : Chip :=
  { c with nv := { c.nv with prints := c.nv.prints.put p (c.rd .CABLE_FINGERPRINT p, fpCheck (c.rd .CABLE_FINGERPRINT p)) } }

/-- A write of `TDR_START` (R162). `DONE`, `FROM_T0` and `ABORTED` of an earlier probe stay until this one ends: the rules do not say that
the start clears them (DESIGN CHOICE, log entry 112). -/
def Chip.writeTdrStart (c : Chip) (p v : Nat) : Abort × Chip :=
  if v = 0 then (.ok, c)
  else if v > 1 then (.range, c)
  else if (c.port p).link ≠ .disabled ∨ !c.tileRuns (tileOf p) ∨ c.width p = 0 ∨ !c.rdBit .LEGACY_GATE (16 + tileOf p) then
    (.state, c)
  else if (c.diag.tdr.get? p).isSome then (.busy, c)
  else (.ok, (c.setDiag fun d => { d with tdr := d.tdr.put p c.root }).setBit .TDR_STATUS p 0 true)

/-- The standalone test ends with its results (R162). -/
def Chip.tdrFinish (c : Chip) (p : Nat) (r : T0Probe) : Chip :=
  if (c.diag.tdr.get? p).isSome then
    let c := c.setDiag fun d => { d with tdr := d.tdr.del p }
    (c.tdrResults p r).wr .TDR_STATUS p 2
  else c

/-- `PORT_ENABLE` true during the test aborts it (R162). -/
def Chip.tdrAbort (c : Chip) (p : Nat) : Chip :=
  if (c.diag.tdr.get? p).isSome then
    let c := c.setDiag fun d => { d with tdr := d.tdr.del p }
    (c.setBit .TDR_STATUS p 0 false).setBit .TDR_STATUS p 3 true
  else c

/-- Extremes of a pair engine restart (R172). -/
def Chip.lqRestart (c : Chip) (e : Nat) : Chip :=
  ((c.wr .PE_MARGIN_MIN e 0).wr .PE_MARGIN_MAX e 0).setPe e fun s => { s with lqSeen := false }

/-- Entry to `LINK_UP`: the minimum, the maximum and the span restart (R172), and the thresholds count afresh. -/
def Chip.lqLinkUp (c : Chip) (p : Nat) : Chip :=
  let c := c.each (c.pesOf p) fun c e =>
    (c.lqRestart e).setPe e fun s => { s with lqLow := 0, lqGood := 0, uncorrAt := c.rd .CW_UNCORRECTABLE e }
  c.wr .SKEW_SPAN_MAX p 0

/-- Clear a flag of `LQ_STATUS` with its NOTICE (R173). -/
def Chip.lqClear (c : Chip) (p b : Nat) (e : EvName) : Chip :=
  if c.rdBit .LQ_STATUS b p then (c.setBit .LQ_STATUS p b false).raise e (Cls.port.addr p) else c

/-- Set a flag of `LQ_STATUS` with its event (R173). -/
def Chip.lqSet (c : Chip) (p b : Nat) (e : EvName) : Chip :=
  if c.rdBit .LQ_STATUS b p then c else (c.setBit .LQ_STATUS p b true).raise e (Cls.port.addr p)

/-- The port leaves `LINK_UP`: two flags clear (Table 7-8), and baselines are discarded (R169). -/
def Chip.lqDown (c : Chip) (p : Nat) : Chip :=
  let c := (c.lqClear p 0 .marginLowClear).lqClear p 1 .uncorrHighClear
  c.setDiag fun d => { d with
    base := d.base.filter fun x => !((c.pesOf p).contains x.1), watched := d.watched.filter fun x => !((c.pesOf p).contains x) }

/-- The span of `PE_RX_SKEW` among active lanes, in root periods (Table 7-9). -/
def Chip.skewSpan (c : Chip) (p : Nat) : Nat :=
  match (c.port p).lanes.map fun e => c.rdInt .PE_RX_SKEW e with
  | [] => 0
  | x :: l => (l.foldl max x - l.foldl min x).toNat

/-- A margin window of a lane counts toward link quality (R172, R173, Table 7-8). -/
def Chip.lqWindow (c : Chip) (p e : Nat) (margin : Int) : Chip :=
  let s := c.pe e
  let warn := c.rdInt .LQ_MARGIN_WARN p
  let c := if !s.lqSeen || margin < c.rdInt .PE_MARGIN_MIN e then c.wrInt .PE_MARGIN_MIN e margin else c
  let c := if !s.lqSeen || margin > c.rdInt .PE_MARGIN_MAX e then c.wrInt .PE_MARGIN_MAX e margin else c
  let us := if margin < warn then s.lowUs + 64 else s.lowUs
  let c := c.setPe e fun s =>
    { s with lqSeen := true, lowUs := us, lqLow := if margin < warn then s.lqLow + 1 else 0,
             lqGood := if margin ≥ warn + 128 then s.lqGood + 1 else 0 }
  let c := c.wr .LOW_MARGIN_TIME e (us / 1000)
  let c := if !c.up p then c
    else if (c.pe e).lqLow ≥ 1024 then c.lqSet p 0 .marginLow
    else if (c.port p).lanes.all fun x => (c.pe x).lqGood ≥ 1024 then c.lqClear p 0 .marginLowClear
    else c
  let span := c.skewSpan p
  let c := (c.wr .SKEW_SPAN p span).wr .SKEW_SPAN_MAX p (max span (c.rd .SKEW_SPAN_MAX p))
  match (c.port p).mode with
  | some m =>
    if !m.isW then c
    else if span > 384 * m.symbolRoot then c.lqSet p 2 .skewHigh
    else if span ≤ 352 * m.symbolRoot then c.lqClear p 2 .skewHighClear
    else c
  | none => c

/-- Counts of a pair in a standard mode (R170): symbol errors in the modes without LDPC, and the outcomes of the frames in the
others. -/
def Chip.stdCount (c : Chip) (m : LineMode) (e : Nat) (x : StdCounts) : Chip :=
  if m.isW then c
  else if m = .t100 || m = .t1000 then c.add .SYMBOL_ERR_COUNT e x.symbol
  else
    let h := x.hist.take 18
    let c := (c.add .CW_COUNT e (h.foldl (fun a n => a + n) 0)).add .CW_CORRECTED e x.corrected
    let c := (c.add .CW_UNCORRECTABLE e x.uncorrectable).add .BITS_CORRECTED e x.bits
    c.each (List.range h.length) fun c k => c.addRow .LDPC_ITER_HIST e k (h.getD k 0)

/-- Counts of the pairs of a port that is up in a standard mode. -/
def Chip.stdCounts (c : Chip) (p : Nat) (l : List StdCounts) : Chip :=
  match c.up p, (c.port p).mode with
  | true, some m => c.each ((c.pesOf p).zip l) fun c x => c.stdCount m x.1 x.2
  | _, _ => c

/-- A whole second of the time base ends (Table 7-8). -/
def Chip.lqSecond (c : Chip) (p : Nat) : Chip :=
  let lim := c.rd .LQ_UNCORR_WARN p
  let counts := (c.port p).lanes.map fun e => (c.rd .CW_UNCORRECTABLE e + 2 ^ 32 - (c.pe e).uncorrAt) % 2 ^ 32
  let c := c.each (c.pesOf p) fun c e => c.setPe e fun s => { s with uncorrAt := c.rd .CW_UNCORRECTABLE e }
  if !c.up p then c
  else if lim != 0 && counts.any fun n => n ≥ lim then c.lqSet p 1 .uncorrHigh
  else if counts.all fun n => n < lim then c.lqClear p 1 .uncorrHighClear
  else c

/-- A write of `LQ_RESET` (R172). -/
def Chip.writeLqReset (c : Chip) (p v : Nat) : Abort × Chip :=
  if v = 0 then (.ok, c)
  else if v > 1 then (.range, c)
  else
    let c := c.each (c.pesOf p) fun c e => (c.lqRestart e).clrAll .LDPC_ITER_HIST e
    let c := c.wr .SKEW_SPAN_MAX p 0
    (.ok, (c.setBit .LQ_STATUS p 3 false).setBit .LQ_STATUS p 4 false)

/-- Echo canceller taps of a mode (Table 4-2). -/
def LineMode.echoTaps : LineMode → Nat
  | .w50 => 2048 | .w25 => 3072 | .w12 | .t40g => 1536 | .t25g | .t10g | .t5g | .t2g5 => 1024 | .t1000 => 256 | .t100 => 0

/-- `REFLECT_BIN` of a mode in µm (R168): that of a sample period of 62.5 ps times the mode's divider. -/
def LineMode.reflBin (m : LineMode) (nvp : Nat) : Nat :=
  rdiv (3125 * nvp * 299792458) (100 * 1024 * 1000000) * m.divider

/-- Mode of a pair engine's port while it is in `LINK_UP` with an echo canceller (R167). -/
def Chip.reflMode (c : Chip) (e : Nat) : Option LineMode :=
  if c.up (c.portOf e) && (c.port (c.portOf e)).lanes.contains e then
    match (c.port (c.portOf e)).mode with
    | some m => if m.echoTaps = 0 then none else some m
    | none => none
  else none

/-- The words that a reflectogram is computed from, at one edge (R167): echo taps, then replica taps and the PGA gain. -/
def Chip.reflTaps (c : Chip) (e : Nat) (m : LineMode) : List Nat :=
  let x := c.pe e
  ((List.range m.echoTaps).map (fun k => 0xB00 + k) ++ (List.range 17).map fun k => 0x10 + k).map fun w =>
    (x.copies.get? w).getD (x.word w)

/-- A reflectogram computed from copied taps, one S0.15 word for each row of the mode (R167, R168). -/
def reflWords (taps : List Nat) (m : LineMode) (e : Nat) : List (BitVec 16) :=
  (List.range m.echoTaps).map fun k => Config.reflRow taps m.code e k

@[inherit_doc reflWords]
def reflRows (taps : List Nat) (m : LineMode) (e : Nat) : List Int := (reflWords taps m e).map BitVec.toInt

/-- Row at the origin of a reflectogram (R168). -/
def reflStart (m : LineMode) (e : Nat) : Nat := Config.reflOrigin m.code e % 2 ^ 16

/-- A computation delivers what the copied words give; a command that names another result changes nothing (log entry 127). -/
def reflAgrees (rows : List (BitVec 16)) (origin : Nat) (taps : List Nat) (m : LineMode) (e : Nat) : Bool :=
  rows = reflWords taps m e && origin = reflStart m e

/-- A write of `REFLECT_TRIGGER` (R167). -/
def Chip.writeReflect (c : Chip) (e v : Nat) : Abort × Chip :=
  if v = 0 then (.ok, c)
  else if v > 2 then (.range, c)
  else match c.reflMode e with
    | none => (.state, c)
    | some m =>
      if (c.diag.refl.get? e).isSome then (.busy, c)
      else
        let run : ReflRun := ⟨c.reflTaps e m, v = 2⟩
        (.ok, c.setDiag fun d => { d with refl := d.refl.put e run })

/-- A reflectogram is written: rows beyond the mode's tap count read zero (R168). -/
def Chip.reflWrite (c : Chip) (e : Nat) (m : LineMode) (rows : List Int) : Chip :=
  let c := (c.clrAll .REFLECTOGRAM e).each (List.range m.echoTaps) fun c k =>
    c.wrRow .REFLECTOGRAM e k (ofInt 16 (rows.getD k 0))
  (c.wr .REFLECT_BIN e (m.reflBin (c.rd .TDR_NVP (c.portOf e)))).wr .REFLECT_ORIGIN e (reflStart m e)

/-- Whether the averages over 8 adjacent rows from row `k` on differ by more than `REFLECT_ALARM` (R169). How the eight rows lie about the
averaged one is not stated: they are rows k to k + 7, placed at row k (DESIGN CHOICE, log entry 113). -/
def reflDiffers (base rows : List Int) (alarm k : Nat) : Bool :=
  let d := ((rows.drop k).take 8).sum - ((base.drop k).take 8).sum
  d.natAbs > 8 * alarm

/-- Distance of row `k` in mm, when it is farther than 0.3 m from the origin. -/
def reflDist (bin origin k : Nat) : Option Nat :=
  let um := (k - origin) * bin
  if um > 300000 then some (um / 1000) else none

/-- The watch compares a new reflectogram with the baseline (R169). -/
def Chip.reflWatch (c : Chip) (e : Nat) (m : LineMode) (base rows : List Int) : Chip :=
  let p := c.portOf e
  let origin := c.rd .REFLECT_ORIGIN e
  let bin := m.reflBin (c.rd .TDR_NVP p)
  let hit := (List.range (m.echoTaps - 7)).findSome? fun k =>
    match reflDist bin origin k with
    | some d => if reflDiffers base rows (c.rd .REFLECT_ALARM p) k then some d else none
    | none => none
  match hit with
  | some d => ((c.setBit .LQ_STATUS p 4 true).wr .REFLECT_CHANGE_DIST e d).raise .reflectChange (Cls.port.addr p)
  | none => c

/-- The slots that link pairs of ports `a` and `b`, in either direction, and qualify (R174): victim and slot. -/
def Chip.plantSlots (c : Chip) : List (Nat × Nat × Nat × Slot) :=
  let min := c.rdInt .PLANT_ADJ_MIN
  c.anc.flatMap fun e => (List.range 8).filterMap fun k =>
    let s := e.2.slot k
    let a := c.portOf e.1
    let b := c.portOf s.neighbour
    if s.state = .empty || s.x < min then none else some (Nat.min a b, Nat.max a b, e.1, s)

/-- `COUPLING_DIST` of a slot in cm (Table 7-10). -/
def Chip.couplingCm (c : Chip) (v : Nat) (s : Slot) : Nat :=
  match (c.port (c.portOf v)).mode with
  | some m =>
    let p := c.portOf v
    let ps10 := s.lag * 625 * m.divider
    rdiv (nvpMm (c.rd .TDR_NVP p) ((ps10 - 20 * c.rd .TDR_ORIGIN p) / 20)) 10 % 65536
  | none => 0

/-- One row of the plant map (Table 7-10). -/
def Chip.plantRow (c : Chip) (a b : Nat) (l : List (Nat × Slot)) : Nat :=
  match l with
  | [] => 0
  | x :: t =>
    let best := t.foldl (fun m y => if y.2.x > m.2.x then y else m) x
    a * 2 ^ 55 + b * 2 ^ 46 + (min 63 l.length) * 2 ^ 40 + ofInt 16 best.2.x * 2 ^ 24 + c.couplingCm best.1 best.2 * 256

/-- The rows of the plant map from the weave map, by `PORT_A` and then `PORT_B` (R174). -/
def Chip.plantRows (c : Chip) : List Nat :=
  let l := c.plantSlots
  (List.range 512).flatMap fun a =>
    let la := l.filter fun x => x.1 = a
    if la.isEmpty then []
    else (List.range 512).filterMap fun b =>
      match la.filter fun x => x.2.1 = b with
      | [] => none
      | lb => some (c.plantRow a b (lb.map fun x => (x.2.2.1, x.2.2.2)))

/-- A write of `PLANT_MAP_BUILD` (R174). -/
def Chip.writePlantBuild (c : Chip) (v : Nat) : Abort × Chip :=
  if v = 0 then (.ok, c)
  else if v > 1 then (.range, c)
  else if c.diag.plant.isSome then (.busy, c)
  else (.ok, c.setDiag fun d => { d with plant := some (c.plantRows.take 4096, c.rd .ANC_MAP_VERSION) })

/-- The build ends: the new table replaces the old one at one instant (R174). -/
def Chip.plantDone (c : Chip) : Chip :=
  match c.diag.plant with
  | none => c
  | some (rows, ver) =>
    let c := (c.setDiag fun d => { d with plant := none }).clrAll .PLANT_MAP 0
    let c := c.each ((List.range rows.length).zip rows) fun c x => c.wrRow .PLANT_MAP 0 x.1 x.2
    (c.wrDev .PLANT_MAP_ROWS rows.length).wrDev .PLANT_MAP_VERSION ver

/-- Root edges of the activity blink, and of a blink with the pause that follows it (R175). -/
def blinkRoot : Nat := rootUs 40000

/-- A frame starts on the wire in either direction: the activity blink starts, unless it is on or its pause lasts (R175). -/
def Chip.blink (c : Chip) (p : Nat) : Chip :=
  if c.diag.blinkOn.contains p then c
  else match c.diag.blinkFrom.get? p with
    | some r => if c.root < r + 2 * blinkRoot then c
      else c.setDiag fun d => { d with blinkOn := d.blinkOn ++ [p], blinkFrom := d.blinkFrom.put p c.root }
    | none => c.setDiag fun d => { d with blinkOn := d.blinkOn ++ [p], blinkFrom := d.blinkFrom.put p c.root }

/-- An LED function is true for a port (Table 7-12). -/
def Chip.ledPort (c : Chip) (p f : Nat) : Bool :=
  let up := c.up p
  let s := c.port p
  let act := c.diag.blinkOn.contains p
  match f with
  | 0x01 => true
  | 0x02 => up
  | 0x03 => up && !act
  | 0x04 => act
  | 0x05 => up && (match s.mode with
      | some m => m.isW
      | none => false)
  | 0x06 => up && (match s.mode with
      | some m => m.payload s.lanes.length ≥ 10000
      | none => false)
  | 0x07 => up && (s.lanes.length < c.width p || c.rd .DOWNSHIFT_CEILING p != 0xFF)
  | 0x08 => c.rdBit .LQ_STATUS 0 p || c.rdBit .LQ_STATUS 1 p
  | 0x09 => s.link = .fail || (c.pesOf p).any (fun e => c.rd .BIST_STATE_PE e = 2)
      || (c.tile (tileOf p)).st = .isolated
      || (c.pesOf p).any fun e => c.rd .TDR_FAULT e = 1 || c.rd .TDR_FAULT e = 2 || c.rd .TDR_FAULT e = 5
  | 0x0A => s.lpi.state ≠ .awake
  | _ => false

/-- What an LED output does: off, on for `n` of every 16 periods, or alternating with the other output (R175, R176). -/
inductive LedOut where
  | off
  | duty (n : Nat)
  | alternate
deriving DecidableEq, Repr

/-- LED output `k` of quad `q` (R175, R176). -/
def Chip.led (c : Chip) (q k : Nat) : LedOut :=
  let f := bits (c.rd .LED_CONFIG q) (16 * k + 15) (16 * k)
  if !c.rdBool .LED_ENABLE || c.pwr.state ≠ .active || !c.cfgApplied then .off
  else if c.rd .LED_LOCATE q != 0 then .alternate
  else
    let src := bits f 10 8
    let on := if src < 4 then c.width (4 * q + src) != 0 && c.ledPort (4 * q + src) (bits f 4 0)
      else (c.portsOfQuad q).any fun p => c.ledPort p (bits f 4 0)
    if on != f.testBit 11 then .duty (bits f 15 12 + 1) else .off

end Sys2Proof.Machine
end

