-- ==== Sys2Proof/Machine/Grid.lean ====
section
/-!
DEFINITION. Instants and start points: root edges and time-base values (R202), and the positions at which a port may start
a frame (R43, R45, R238).
-/
set_option Elab.async false
namespace Sys2Proof.Machine

/-- INC of R202 in units of 2^-48 ns: 62.5 ps times (1 + `TIME_RATE_ADJ` × 10^-12). -/
def Chip.inc1 (c : Chip) : Nat := ((2 ^ 44 : Int) + idiv (2 ^ 44 * c.rdInt .TIME_RATE_ADJ) (10 ^ 12)).toNat

/-- Time base at a root edge, at the present rate (R202). -/
def Chip.edgeTb (c : Chip) (e : Nat) : Nat :=
  if c.root ≤ e then c.tb + (e - c.root) * c.inc1 else c.tb - (c.root - e) * c.inc1

/-- First root edge at or after a time-base value (R246); edges before the present one are not needed. -/
def Chip.tbEdge (c : Chip) (t : Nat) : Nat := if t ≤ c.tb then c.root else c.root + cdiv (t - c.tb) c.inc1

/-- The start points of a port: those of R43 in W modes, on `n` lanes, or the block-interval grid of Table 2-12. Instants
are root edges. -/
structure Grid where
  w : Bool
  n : Nat
  sym : Nat
  at_ : Nat
  step : Nat
  rate : Nat
deriving DecidableEq, Repr

/-- Grid of a port in `LINK_UP` at its present dealing. -/
def Chip.grid (c : Chip) (p : Nat) : Option Grid :=
  let s := c.port p
  match s.link, s.mode with
  | .up, some m =>
    let at_ := (c.sched.getD p {}).gridAt
    if m.isW then some ⟨true, max 1 s.lanes.length, m.symbolRoot, at_, 0, m.payload s.lanes.length⟩
    else some ⟨false, 1, 1, at_, m.lateBound * 16 / 1000, m.rate⟩
  | _, _ => none

/-- Root edge of a start position: in W modes position 2 b + m is start point m of block b (R43, R45). -/
def Grid.instant (g : Grid) (pos : Nat) : Nat :=
  if g.w then
    let b := pos / 2
    g.at_ + g.sym * (512 * dealCodeword g.n b + startSymbol (dealSlot g.n b) (pos % 2))
  else g.at_ + g.step * pos

/-- First octet of a start position in the stream of a W mode (R43). -/
def startOctet (pos : Nat) : Nat := 4 * pos

/-- Bit of a block with which octet `i` of a frame ends there: a full block carries data, a shorter one opens with its type
octet (R33). -/
def octetEndBit (i : Nat) : Nat := if i = 7 then 64 else 16 + 8 * i

/-- Root edge by which `oct` octets from a start position have been sent on every lane (R45). -/
def Grid.sent (g : Grid) (pos oct : Nat) : Nat :=
  if oct = 0 then g.instant pos
  else if g.w then
    let o := startOctet pos + oct - 1
    let b := o / 8
    let bitEnd := if dealLane g.n b > 0 && b - 1 ≥ pos / 2 then 64 else octetEndBit (o % 8)
    g.at_ + g.sym * (512 * dealCodeword g.n b + segStart (dealSlot g.n b) + bitEnd / 4 + 1)
  else g.at_ + g.step * pos + cdiv (128000 * oct) g.rate

/-- First free octet (W modes) or root edge (standard modes) after `oct` octets and the gap (R45, R238). -/
def Grid.after (g : Grid) (pos oct : Nat) : Nat :=
  if g.w then startOctet pos + oct + 12 else g.at_ + g.step * pos + cdiv (128000 * (oct + 12)) g.rate

/-- A start position is free. -/
def Grid.isFree (g : Grid) (free pos : Nat) : Bool := if g.w then startOctet pos ≥ free else g.instant pos ≥ free

/-- Start positions of codeword `k`, in the order in which they reach the MDI, the lowest free block of each instant (R43). -/
def Grid.candidates (g : Grid) (free k : Nat) : List Nat :=
  (List.range 50).filterMap fun x =>
    ((List.range g.n).map fun l => 2 * (25 * g.n * k + g.n * (x / 2) + l) + x % 2).find? fun pos => startOctet pos ≥ free

/-- The free start position that reaches the MDI first at or after root edge `e` (R43). -/
def Grid.first (g : Grid) (e free : Nat) : Nat :=
  if g.w then
    let k := max ((e - g.at_) / (512 * g.sym)) (free / 8 / (25 * g.n))
    ((g.candidates free k ++ g.candidates free (k + 1)).find? fun pos => g.instant pos ≥ e).getD (50 * g.n * (k + 2))
  else max (cdiv (e - g.at_) g.step) (cdiv (free - g.at_) g.step)

/-- Octets from a start position that have been sent by root edge `e`, of at most `len` (R45, R251). -/
def Grid.fit (g : Grid) (pos len e : Nat) : Nat :=
  -- the end instant never falls as octets are added: halve the interval
  let rec go : Nat → Nat → Nat → Nat
    | 0, lo, _ => lo
    | f + 1, lo, hi =>
      if hi ≤ lo then lo
      else
        let mid := (lo + hi + 1) / 2
        if g.sent pos mid ≤ e then go f mid hi else go f lo (mid - 1)
  go 20 0 len

end Sys2Proof.Machine
end

