-- ==== Sys2Proof/Machine/Gates.lean ====
section
/-!
DEFINITION. Gate schedules (R246 to R249): the banks, their cycles, and when a service's gate is open.
-/
set_option Elab.async false
namespace Sys2Proof.Machine

/-- What the scheduler keeps of a port. -/
def Chip.sch (c : Chip) (p : Nat) : SchedSt := c.sched.getD p {}

/-- Change what the scheduler keeps of a port. -/
def Chip.setSch (c : Chip) (p : Nat) (f : SchedSt → SchedSt) : Chip := { c with sched := c.sched.upd p {} f }

/-- Objects of a gate bank (Table 10-8). -/
def gclBase (b : Nat) : Reg := if b = 0 then .GCL0_BASE else .GCL1_BASE
def gclCycle (b : Nat) : Reg := if b = 0 then .GCL0_CYCLE else .GCL1_CYCLE
def gclLength (b : Nat) : Reg := if b = 0 then .GCL0_LENGTH else .GCL1_LENGTH
def gclEntry (b : Nat) : Reg := if b = 0 then .GCL0_ENTRY else .GCL1_ENTRY

/-- Base and cycle of a bank, in time-base units. -/
def Chip.bankBase (c : Chip) (p b : Nat) : Nat := ofTime96 (c.rd (gclBase b) p)
def Chip.bankCycle (c : Chip) (p b : Nat) : Nat := tbNs (c.rd (gclCycle b) p)

/-- Gate states and duration of the entries of non-zero duration within the bank's length, in order (Table 10-5). -/
def Chip.bankEntries (c : Chip) (p b : Nat) : List (Nat × Nat) :=
  (c.dict.filter fun e => e.1.reg = gclEntry b && e.1.inst = p && e.1.row < c.rd (gclLength b) p
      && bits e.2 31 0 != 0).map fun e => (bits e.2 63 56, tbNs (bits e.2 31 0))

/-- Cut the entries at the cycle's end; the last one lasts to it (R246). -/
def cutEntries (cycle : Nat) : Nat → List (Nat × Nat) → List (Nat × Nat × Nat)
  | _, [] => []
  | o, [(m, _)] => if o < cycle then [(m, o, cycle)] else []
  | o, (m, d) :: l =>
    if o ≥ cycle then [] else (m, o, min cycle (o + d)) :: cutEntries cycle (o + d) l

/-- One cycle of a bank: gate states, start and end of each entry. -/
def Chip.bankSegs (c : Chip) (p b : Nat) : List (Nat × Nat × Nat) := cutEntries (c.bankCycle p b) 0 (c.bankEntries p b)

/-- A bank may run: its parameters are in range and some entry within its length has a duration (R247, R248). -/
def Chip.bankOk (c : Chip) (p b : Nat) : Bool :=
  time96Ok (c.rd (gclBase b) p) && 1000 ≤ c.rd (gclCycle b) p && c.rd (gclCycle b) p ≤ 1000000000
    && 1 ≤ c.rd (gclLength b) p && c.rd (gclLength b) p ≤ 1024 && !(c.bankEntries p b).isEmpty

/-- Start instant of a bank for a request at `t` (R247). -/
def Chip.bankStart (c : Chip) (p b t : Nat) : Nat :=
  let base := c.bankBase p b
  if base ≥ t then base else base + cdiv (t - base) (c.bankCycle p b) * c.bankCycle p b

/-- Entries of a bank from `t` on, over three cycles. -/
def Chip.segsFrom (c : Chip) (p b t : Nat) : List (Nat × Int × Int) :=
  let cy : Int := c.bankCycle p b
  let c0 : Int := t - ((t : Int) - c.bankBase p b) % cy
  ((List.range 4).flatMap fun k : Nat => (c.bankSegs p b).map fun s : Nat × Nat × Nat =>
      (s.1, c0 + (k : Int) * cy + (s.2.1 : Int), c0 + (k : Int) * cy + (s.2.2 : Int))).filter fun s => s.2.2 > t

/-- Entries as gate states with the instant from which each holds, `t` at the earliest. -/
def lineFrom (t : Nat) (l : List (Nat × Int × Int)) : List (Nat × Int) :=
  l.map fun x => (x.1, max (t : Int) x.2.1)

/-- Gate states from `t` on: the state, and the instant from which it holds. With gating off every gate is open; before the
start instant too; a pending swap cuts the running bank (R247, R248). -/
def Chip.gateLine (c : Chip) (p t : Nat) : List (Nat × Int) :=
  if !c.rdBool .GATE_ENABLE p then [(0xFF, t)]
  else
    let s := c.sch p
    let pre : List (Nat × Int) := if t < s.gateFrom then [(0xFF, t)] else []
    let t0 := max t s.gateFrom
    pre ++ (match s.swap with
      | none => lineFrom t0 (c.segsFrom p s.bank t0)
      | some w =>
        if t0 ≥ w.instant then lineFrom t0 (c.segsFrom p w.bank t0)
        else lineFrom t0 ((c.segsFrom p s.bank t0).filter fun x => x.2.1 < w.instant)
          ++ lineFrom w.instant (c.segsFrom p w.bank w.instant))

/-- Gate states at a time-base value. -/
def Chip.gatesAt (c : Chip) (p t : Nat) : Nat :=
  match c.gateLine p t with
  | [] => 0xFF
  | x :: _ => x.1

/-- A service's gate is open at a root edge. -/
def Chip.gateOpen (c : Chip) (p v e : Nat) : Bool := (c.gatesAt p (c.edgeTb e)).testBit v

/-- Root edge at which a service's gate next closes, at or after root edge `e`; none when it never does (R241). -/
def Chip.gateClose (c : Chip) (p v e : Nat) : Option Nat :=
  ((c.gateLine p (c.edgeTb e)).find? fun x => !x.1.testBit v).map fun x => max e (c.tbEdge x.2.toNat)

/-- Root edge at which a service's gate is next open, at or after root edge `e`. -/
def Chip.gateNext (c : Chip) (p v e : Nat) : Option Nat :=
  ((c.gateLine p (c.edgeTb e)).find? fun x => x.1.testBit v).map fun x => max e (c.tbEdge x.2.toNat)

/-- Lengths of the runs of entries in which a service is open, as they stand in a list. -/
def openRuns (v : Nat) (l : List (Nat × Nat × Nat)) : List Nat :=
  (l.foldl (fun (a : Nat × List Nat) s =>
    if s.1.testBit v then (a.1 + (s.2.2 - s.2.1), (a.1 + (s.2.2 - s.2.1)) :: a.2) else (0, a.2)) (0, [])).2

/-- Longest window of a service in the running bank, in time-base units; none when it is unbounded, 0 when the service has
no window (R241). -/
def Chip.longestWindow (c : Chip) (p v : Nat) : Option Nat :=
  if !c.rdBool .GATE_ENABLE p then none
  else
    let l := c.bankSegs p (c.sch p).bank
    if l.all fun s => s.1.testBit v then none else some ((openRuns v (l ++ l)).foldl max 0)

end Sys2Proof.Machine
end

