-- ==== Sys2Proof/Machine/Shapers.lean ====
section
/-!
DEFINITION. Token-bucket shapers (R235 to R237) and receive meters (R252 to R254).
-/
set_option Elab.async false
namespace Sys2Proof.Machine

/-- Units of a shaper's bucket in one octet: rate in kbit/s times root edges is in units of 1/128,000,000 octet. -/
def shUnit : Nat := 128000000

/-- Bucket at a root edge under a rate and a burst; frozen in a debt period, restarted at its end (R235, R237). -/
def Shaper.value (s : Shaper) (rate burst e : Nat) : Int :=
  if rate = 0 then 0
  else match s.debt with
    | some u => if e < u then s.acc else min (burst * shUnit : Nat) (rate * (e - u : Nat) - s.charge)
    | none => min (burst * shUnit : Nat) (s.acc + rate * (e - s.at_ : Nat))

/-- Eligible: off, or not in a debt period and the bucket at least zero (R235, R237). -/
def Shaper.eligible (s : Shaper) (rate burst e : Nat) : Bool :=
  rate = 0 || ((match s.debt with
    | some u => u ≤ e
    | none => true) && 0 ≤ s.value rate burst e)

/-- Charge octets at a root edge; an off shaper is not charged, and a charge in a debt period is kept for its end. -/
def Shaper.take (s : Shaper) (rate burst e n : Nat) : Shaper :=
  if rate = 0 then s
  else match s.debt with
    | some u =>
      if e < u then { s with charge := s.charge + (n * shUnit : Nat) }
      else { acc := s.value rate burst e - (n * shUnit : Nat), at_ := e }
    | none => { acc := s.value rate burst e - (n * shUnit : Nat), at_ := e }

/-- A row write changes the shaper by Table 10-3. -/
def Shaper.change (s : Shaper) (rate burst rate' burst' e : Nat) : Shaper :=
  let open_ : Bool := match s.debt with
    | some u => e < u
    | none => false
  if open_ then s
  else
    let v := s.value rate burst e
    if rate' ≠ rate then
      if 0 ≤ v then { acc := 0, at_ := e }
      else { acc := v, at_ := e, debt := some (e + cdiv v.natAbs rate) }
    else { acc := if 0 ≤ v then min v (burst' * shUnit : Nat) else v, at_ := e }

/-- The debt period ends: the bucket restarts at minus the charges taken in it (Table 10-3). -/
def Shaper.debtEnd (s : Shaper) (e : Nat) : Shaper :=
  match s.debt with
  | some u => { acc := - s.charge, at_ := max u e }
  | none => s

/-- The three kinds of shaper (R235). -/
inductive ShRef where
  | flow (n : Nat)
  | svc (p v : Nat)
  | port (p : Nat)
deriving DecidableEq, Repr

/-- Row of a shaper. -/
def Chip.shRow (c : Chip) : ShRef → Nat
  | .flow n => c.rd .FLOW_SHAPER 0 n
  | .svc p v => c.rd .SVC_SHAPER p v
  | .port p => c.rd .PORT_SHAPER p

/-- Rate and burst of a row (Table 10-4). -/
def shRate (v : Nat) : Nat := bits v 63 32
def shBurst (v : Nat) : Nat := bits v 31 0

/-- State of a shaper. -/
def Chip.shaper (c : Chip) : ShRef → Shaper
  | .flow n => c.flowSh.getD n {}
  | .svc p v => c.svcSh.getD (8 * p + v) {}
  | .port p => c.portSh.getD p {}

/-- Set the state of a shaper. -/
def Chip.setShaper (c : Chip) (r : ShRef) (s : Shaper) : Chip :=
  match r with
  | .flow n => { c with flowSh := c.flowSh.set n s {} }
  | .svc p v => { c with svcSh := c.svcSh.set (8 * p + v) s {} }
  | .port p => { c with portSh := c.portSh.set p s {} }

/-- A shaper is eligible at a root edge. -/
def Chip.shOk (c : Chip) (r : ShRef) (e : Nat) : Bool :=
  (c.shaper r).eligible (shRate (c.shRow r)) (shBurst (c.shRow r)) e

/-- Charge a frame of `n` octets, with the port's overhead already added (R235). -/
def Chip.shTake (c : Chip) (r : ShRef) (e n : Nat) : Chip :=
  c.setShaper r ((c.shaper r).take (shRate (c.shRow r)) (shBurst (c.shRow r)) e n)

/-- State row of a shaper (Table 10-4). -/
def Chip.shState (c : Chip) (r : ShRef) : Nat :=
  let s := c.shaper r
  let v := s.value (shRate (c.shRow r)) (shBurst (c.shRow r)) c.root
  let left := match s.debt with
    | some u => (u - c.root) / 16
    | none => 0
  ofInt 32 (idiv v shUnit) * 2 ^ 32 + left % 2 ^ 32

/-- Write a shaper's row (R237, Table 10-4). -/
def Chip.writeShaper (c : Chip) (r : ShRef) (v : Nat) : Abort × Chip :=
  if shRate v > 200000000 ∨ shBurst v > 16777215 then (.range, c)
  else
    let old := c.shRow r
    let s := (c.shaper r).change (shRate old) (shBurst old) (shRate v) (shBurst v) c.root
    let c := match r with
      | .flow n => c.wrRow .FLOW_SHAPER 0 n v
      | .svc p k => c.wrRow .SVC_SHAPER p k v
      | .port p => c.wr .PORT_SHAPER p v
    (.ok, c.setShaper r s)

/-- Root edge from which a shaper is eligible, at or after `e`. -/
def Chip.shWhen (c : Chip) (r : ShRef) (e : Nat) : Nat :=
  let rate := shRate (c.shRow r)
  let s := c.shaper r
  if rate = 0 then e
  else
    let e1 := match s.debt with
      | some u => max e u
      | none => e
    let v := s.value rate (shBurst (c.shRow r)) e1
    if 0 ≤ v then e1 else e1 + cdiv v.natAbs rate

/-- Units of a meter's bucket in one octet: rate in kbit/s times time-base units. -/
def mtrUnit : Nat := 8000000 * 2 ^ 48

/-- Colours of R254 in the code of `RT_COLOUR` (Table 8-7). -/
inductive Colour where
  | green | yellow | red
deriving DecidableEq, Repr

/-- Code of a colour. -/
def Colour.code : Colour → Nat
  | .green => 0 | .yellow => 1 | .red => 2

/-- The meter of R254 judges a frame of `b` octets at timestamp `t`. -/
def meterJudge (row : Nat) (m : Option Meter) (b t : Nat) : Colour × Meter :=
  let cir := bits row 127 96
  let pir := bits row 95 64
  let cbs : Int := (bits row 63 32 * mtrUnit : Nat)
  let pbs : Int := (bits row 31 0 * mtrUnit : Nat)
  let r : Int × Int := match m with
    | none => (pbs, cbs)
    | some x => (min pbs (x.tp + pir * ((t : Int) - x.at_)), min cbs (x.tc + cir * ((t : Int) - x.at_)))
  let n : Int := (b * mtrUnit : Nat)
  if n > r.1 then (.red, ⟨r.1, r.2, t⟩)
  else if n > r.2 then (.yellow, ⟨r.1 - n, r.2, t⟩)
  else (.green, ⟨r.1 - n, r.2 - n, t⟩)

/-- Write a meter's row; both buckets are full afterwards (R254). -/
def Chip.writeMeter (c : Chip) (j v : Nat) : Abort × Chip :=
  if bits v 127 96 > 200000000 ∨ bits v 95 64 > 200000000 ∨ bits v 95 64 < bits v 127 96 ∨ bits v 63 32 > 16777215
      ∨ bits v 31 0 > 16777215 then (.range, c)
  else
    let c := c.wrRow .MTR_CONFIG 0 j v
    (.ok, { c with meters := c.meters.del j })

/-- Octet `i` of a frame. -/
def fOct (f : List Octet) (i : Nat) : Nat := octNat f i 1

/-- TPID of a VLAN tag (R217, R252). -/
def isTpid (t : Nat) : Bool := t = 0x8100 || t = 0x88A8

/-- Offset of the EtherType after at most two tags. -/
def etherAt (f : List Octet) : Nat :=
  if isTpid (octNat f 12 2) then (if isTpid (octNat f 16 2) then 20 else 16) else 12

/-- Receive flow index (R252). -/
def flowIndex (sel : Nat) (f : List Octet) : Nat :=
  let tagged := isTpid (octNat f 12 2)
  match sel with
  | 0 => 0
  | 1 => if tagged then fOct f 14 / 32 else 8
  | 2 => if tagged then octNat f 14 2 % 4096 else 0
  | _ =>
    let o := etherAt f
    if octNat f o 2 = 0x0800 then fOct f (o + 3) / 4
    else if octNat f o 2 = 0x86DD then bits (octNat f (o + 2) 2) 11 6
    else 64

end Sys2Proof.Machine
end

