-- ==== Sys2Proof/Machine/Queues.lean ====
section
/-!
DEFINITION. Flow queues and the frames in them (R10, R11, R230 to R233, R243 to R245), the cells they hold, and the priority
flow control that follows the occupancy (R197).
-/
set_option Elab.async false
namespace Sys2Proof.Machine

/-- `Q_CONFIG` fields of a port-local queue (Table 10-1). -/
def Chip.qRow (c : Chip) (p lq : Nat) : Nat := c.rd .Q_CONFIG p lq
def Chip.qService (c : Chip) (p lq : Nat) : Nat := bits (c.qRow p lq) 127 125
def Chip.qTimed (c : Chip) (p lq : Nat) : Bool := (c.qRow p lq).testBit 124
def Chip.qSend (c : Chip) (p lq : Nat) : Bool := (c.qRow p lq).testBit 123
def Chip.qShaped (c : Chip) (p lq : Nat) : Bool := (c.qRow p lq).testBit 122
def Chip.qWeight (c : Chip) (p lq : Nat) : Nat := bits (c.qRow p lq) 121 112
def Chip.qShaper (c : Chip) (p lq : Nat) : Nat := bits (c.qRow p lq) 111 96
def Chip.qResidence (c : Chip) (p lq : Nat) : Nat := bits (c.qRow p lq) 95 64
def Chip.qLate (c : Chip) (p lq : Nat) : Nat := bits (c.qRow p lq) 63 48

/-- `SVC_CONFIG` fields of a service (Table 10-2). -/
def Chip.svcStrict (c : Chip) (p v : Nat) : Bool := (c.rd .SVC_CONFIG p v).testBit 31
def Chip.svcPreemptable (c : Chip) (p v : Nat) : Bool := (c.rd .SVC_CONFIG p v).testBit 30
def Chip.svcWeight (c : Chip) (p v : Nat) : Nat := bits (c.rd .SVC_CONFIG p v) 9 0

/-- Blocks of a port in allotment order (R11, R230); a scheduler quadrant that self-test has marked unusable serves no queue
(Table 15-7). -/
def Chip.blocks (c : Chip) (p : Nat) : List Nat :=
  if c.rd .SCHED_QUAD_STATE 0 (p / 128) = 2 then []
  else ((List.range 8).map fun i => c.rd .Q_BLOCKS p i).takeWhile fun b => b != 0xFFFF

/-- Flow queue of a port-local queue number, if it is allotted (R11). -/
def Chip.flowQueue (c : Chip) (p lq : Nat) : Option Nat :=
  ((c.blocks p)[lq / 512]?).map fun b => 512 * b + lq % 512

/-- Length of a frame from destination address to FCS. -/
def Frame.len (f : Frame) : Nat := f.octets.length

/-- Frames of a flow queue, head first. -/
def Chip.queue (c : Chip) (fq : Nat) : List Frame := c.queues.getD fq []

/-- Replace the frames of a flow queue. -/
def Chip.setQueue (c : Chip) (fq : Nat) (l : List Frame) : Chip := { c with queues := c.queues.set fq l [] }

/-- Queue heads of a port. -/
def Chip.heads (c : Chip) (p : Nat) : List Frame :=
  c.queues.filterMap fun e => match e.2 with
    | f :: _ => if f.port = p then some f else none
    | [] => none

/-- Frames that hold cells for a port's scheduler: arriving, on the wire to their end, or suspended. -/
def SchedSt.held (s : SchedSt) : List Frame :=
  s.arriving ++ ((s.live.filter fun r => r.final).map fun r => r.frame) ++ (match s.susp with
    | some x => [x.frame]
    | none => [])

/-- Every frame that holds cells. -/
def Chip.frames (c : Chip) : List Frame :=
  c.queues.flatMap (fun e => e.2) ++ c.sched.flatMap fun e => e.2.held

/-- Cells that a service of a port holds (R261). -/
def Chip.occ (c : Chip) (p v : Nat) : Nat :=
  (c.frames.filter fun f => f.port = p && c.qService p f.lq = v).foldl (fun a f => a + f.cells.length) 0

/-- Cells that a port holds. -/
def Chip.portOcc (c : Chip) (p : Nat) : Nat :=
  (c.frames.filter fun f => f.port = p).foldl (fun a f => a + f.cells.length) 0

/-- Host side of a port. -/
def Chip.hostOf (c : Chip) (p : Nat) : HostSt := c.host.getD p {}

/-- Change the host side of a port. -/
def Chip.setHost (c : Chip) (p : Nat) (f : HostSt → HostSt) : Chip := { c with host := c.host.upd p {} f }

/-- PFC priority of a service (Table 8-8). -/
def Chip.pfcPrio (c : Chip) (p s : Nat) : Nat := bits (c.rd .PFC_PRIORITY_MAP p) (4 * s + 3) (4 * s)

/-- A priority's state changed, and the next PFC frame carries it (R198). -/
def Chip.pfcQueue (c : Chip) (p prio : Nat) : Chip :=
  c.setHost p fun h => if h.pfcNew.contains prio then h else { h with pfcNew := h.pfcNew ++ [prio] }

/-- XOFF and XON of a port's services against their occupancy (R197). While the values of one edge are brought into force it waits for the
last of them (R393). -/
def Chip.pfcEval (c : Chip) (p : Nat) : Chip :=
  if c.cfg.applying then c
  else c.each (List.range 8) fun c s =>
    let on := c.rdBit .PFC_STATUS s p
    let enabled := c.rdBit .PFC_ENABLE s p
    if !on && !enabled then c
    else
      let m := rowField 16 (c.rd .SVC_BUF p s) 12 4
      let h := c.rd .PFC_HEADROOM p
      let o := c.occ p s
      if !on then
        if o + h ≥ m then (c.setBit .PFC_STATUS p s true).pfcQueue p (c.pfcPrio p s) else c
      else if !enabled || o + 2 * h ≤ m then (c.setBit .PFC_STATUS p s false).pfcQueue p (c.pfcPrio p s) else c

/-- Count in a queue's `Q_COUNTERS` row: octet offset, width, amount (Table 10-8). -/
def Chip.qCount (c : Chip) (p lq o n k : Nat) : Chip := c.addField .Q_COUNTERS p lq o n k

/-- Why a waiting frame is discarded, with the counter of its queue. -/
inductive DropKind where
  | late | residence | other
deriving DecidableEq, Repr

/-- Octet offset of a discard counter in `Q_COUNTERS`. -/
def DropKind.offset : DropKind → Nat
  | .late => 20 | .residence => 24 | .other => 28

/-- Discard a waiting frame: its cells return, and its queue counts it once (R15, R231, R241, R243, R244, R274). -/
def Chip.dropQueued (c : Chip) (f : Frame) (k : DropKind) : Chip :=
  let c := c.setQueue f.fq ((c.queue f.fq).filter fun x => x.id != f.id)
  (c.qCount f.port f.lq k.offset 4 1).pfcEval f.port

/-- Highest-ranked mode that a port's ability and width allow (R243). -/
def Chip.bestMode (c : Chip) (p : Nat) : Option LineMode :=
  LineMode.ranked.find? fun m => (c.rd .PORT_ABILITY p).testBit m.abilityBit && m.runsOn (c.width p)

/-- Mode whose bound of R13 a port's late limit takes (R243). -/
def Chip.boundMode (c : Chip) (p : Nat) : Option LineMode :=
  if c.up p then (c.port p).mode
  else match (c.sch p).lastMode with
    | some m => some m
    | none => c.bestMode p

/-- Late limit of a queue in time-base units (R243). -/
def Chip.lateLimit (c : Chip) (p lq : Nat) : Nat :=
  if c.qLate p lq = 0 then
    match c.boundMode p with
    | some m => m.lateBound * 2 ^ 48 / 1000
    | none => 0
  else tbUs (c.qLate p lq)

/-- Launch time of a frame of a timed queue; one without a launch time takes the instant it became eligible (R233). -/
def Frame.due (f : Frame) : Nat := f.launch.getD f.elig

/-- Instant at which a timed head is due under the time-not-valid policy; none when it is held (R245). -/
def Chip.dueAt (c : Chip) (f : Frame) : Option Nat :=
  if c.rdBool .TIME_VALID then some f.due
  else if c.qSend f.port f.lq then some f.elig else none

/-- How a queue head is judged at an instant: discarded, or kept (R243, R244, R274). -/
def Chip.headFate (c : Chip) (f : Frame) (edge : Nat) : Option (DropKind × EvName) :=
  let late := c.qTimed f.port f.lq && c.rdBool .TIME_VALID && (match f.launch with
    | some l => c.edgeTb edge > l + c.lateLimit f.port f.lq
    | none => false)
  if f.bad then some (.other, .readDiscard)
  else if late then some (.late, .lateDiscard)
  else if edge - f.eligRoot ≥ rootUs (c.qResidence f.port f.lq) then some (.residence, .residenceDiscard)
  else none

/-- Judge the frames of a queue from its head on, until one is kept. -/
def Chip.judgeQueue (c : Chip) (edge : Nat) : List Frame → Chip
  | [] => c
  | f :: l =>
    match c.headFate f edge with
    | some (k, e) => ((c.dropQueued f k).raise e (Cls.port.addr f.port) f.lq).judgeQueue edge l
    | none => c

/-- Judge every queue of a port (R243, R244). -/
def Chip.judgeHeads (c : Chip) (p edge : Nat) : Chip :=
  c.each (c.queues.filter fun e => e.2.any fun f => f.port = p) fun c e => c.judgeQueue edge e.2

/-- Every waiting frame of a port is discarded (R231). -/
def Chip.flushPort (c : Chip) (p : Nat) : Chip :=
  c.each (c.queues.flatMap fun e => e.2.filter fun f => f.port = p) fun c f => c.dropQueued f .other

end Sys2Proof.Machine
end

