-- ==== Sys2Proof/Machine/Ptp.lean ====
section
/-!
DEFINITION. PTP recognition and correction (R216 to R220), on the octets of a frame from destination address to FCS.
-/
set_option Elab.async false
namespace Sys2Proof.Machine

/-- `TS_MSG_OFFSET` in ps: 64 bit periods of a standard mode's payload rate; 0 in W modes (R216). -/
def LineMode.msgOffset (m : LineMode) : Nat := if m.isW then 0 else 64 * 1000000 / m.rate

/-- `TS_MSG_OFFSET` of a port; 0 outside `LINK_UP`. -/
def Chip.msgOffset (c : Chip) (p : Nat) : Nat :=
  if c.up p then
    match (c.port p).mode with
    | some m => m.msgOffset
    | none => 0
  else 0

/-- Message timestamp instant: the timestamp plus `TS_MSG_OFFSET` (R216). -/
def Chip.msgInstant (c : Chip) (p t : Nat) : Nat := t + c.msgOffset p * 2 ^ 48 / 1000

/-- A recognised PTP message: where its header starts, the UDP header if any, whether over IPv6, and whether it is an event
message (R217, Table 9-6). -/
structure PtpMsg where
  at_ : Nat
  udp : Option Nat
  v6 : Bool
  event : Bool

/-- Recognition by the frame's contents (R217, Table 9-6); the FCS is no part of the message. -/
def ptpFind (f : List Octet) : Option PtpMsg :=
  let o := etherAt f
  let n := f.length - 4
  let et := octNat f o 2
  let found : Option (Nat × Option Nat × Bool) :=
    if et = 0x88F7 then some (o + 2, none, false)
    else if et = 0x0800 then
      let ip := o + 2
      let u := ip + 4 * (fOct f ip % 16)
      let port := octNat f (u + 2) 2
      if fOct f (ip + 9) = 17 && octNat f (ip + 6) 2 % 2 ^ 14 = 0 && (port = 319 || port = 320) then
        some (u + 8, some u, false) else none
    else if et = 0x86DD then
      let u := o + 42
      let port := octNat f (u + 2) 2
      if fOct f (o + 8) = 17 && (port = 319 || port = 320) then some (u + 8, some u, true) else none
    else none
  match found with
  | none => none
  | some (h, u, v6) =>
    if h + 34 ≤ n && fOct f (h + 1) % 16 = 2 then
      let ev := fOct f h % 16 ≤ 3 && (match u with
        | some x => octNat f (x + 2) 2 = 319
        | none => true)
      some ⟨h, u, v6, ev⟩
    else none

/-- `messageType`, `twoStepFlag`, `sequenceId` and `domainNumber` of a recognised message. -/
def PtpMsg.type (m : PtpMsg) (f : List Octet) : Nat := fOct f m.at_ % 16
def PtpMsg.twoStep (m : PtpMsg) (f : List Octet) : Bool := (fOct f (m.at_ + 6)).testBit 1
def PtpMsg.seqId (m : PtpMsg) (f : List Octet) : Nat := octNat f (m.at_ + 30) 2
def PtpMsg.domain (m : PtpMsg) (f : List Octet) : Nat := fOct f (m.at_ + 4)

/-- Replace octets of a frame. -/
def putOctets (f : List Octet) (i : Nat) (l : List Octet) : List Octet := f.take i ++ l ++ f.drop (i + l.length)

/-- One's complement sum of 16-bit words, folded. -/
def onesAdd (a b : Nat) : Nat :=
  let s := a + b
  s % 65536 + s / 65536

/-- A UDP checksum updated for a changed field, by the method of RFC 1624 (R220). -/
def udpUpdate (ck : Nat) (old new : List Octet) : Nat :=
  let words := (List.range (old.length / 2)).map fun k => (octNat old (2 * k) 2, octNat new (2 * k) 2)
  let s := words.foldl (fun a w => onesAdd (onesAdd a (0xFFFF - w.1)) w.2) (0xFFFF - ck)
  let r := 0xFFFF - s
  if r = 0 then 0xFFFF else r

/-- The FCS value in a frame's last four octets, least significant octet first. -/
def fcsOf (f : List Octet) : Nat := octetsToNat ((octs f (f.length - 4) 4).reverse)

/-- The FCS agrees with the octets before it. -/
def fcsOk (f : List Octet) : Bool := f.length ≥ 4 && crc32 (f.take (f.length - 4)) = fcsOf f

/-- Adjust the FCS by the CRC-32 difference of the change from `f` to `g` (R220). -/
def fcsAdjust (f g : List Octet) : List Octet :=
  let n := f.length - 4
  let d := crc32 (f.take n) ^^^ crc32 (g.take n)
  g.take n ++ (natToOctets 4 (fcsOf f ^^^ d)).reverse

/-- Replace a field of a message, with the UDP checksum and the FCS (R220). -/
def ptpPut (m : PtpMsg) (f : List Octet) (o : Nat) (new : List Octet) : List Octet :=
  let i := m.at_ + o
  let old := octs f i new.length
  let g := putOctets f i new
  let g := match m.udp with
    | none => g
    | some u =>
      let ck := octNat f (u + 6) 2
      if ck = 0 && !m.v6 then g else putOctets g (u + 6) (natToOctets 2 (udpUpdate ck old new))
  fcsAdjust f g

/-- Add to `correctionField`, in units of 2^-16 ns, saturating at the greatest value (R220). -/
def ptpCorrect (m : PtpMsg) (f : List Octet) (x : Int) : List Octet :=
  let v := toInt 64 (octNat f (m.at_ + 8) 8) + x
  ptpPut m f 8 (natToOctets 8 (ofInt 64 (min v (2 ^ 63 - 1))))

/-- A difference of two time-base values in units of 2^-16 ns, as the time-base fields give them (R220). -/
def tbDiff (a b : Nat) : Int := (a / 2 ^ 32 : Nat) - (b / 2 ^ 32 : Nat)

/-- A frame from the host may be recognised as its tag says (R217). -/
def Chip.ptpTxOn (c : Chip) (f : Frame) : Bool :=
  c.rdBool .PTP_ENABLE f.port && (if f.tagged then !f.ptpSkip else c.rdBool .PTP_TX_DEFAULT f.port)

/-- What a launch does to a frame's octets at wire time `t` (R218, R220): the octets, and whether they were modified. -/
def Chip.ptpLaunch (c : Chip) (f : Frame) (t : Nat) : List Octet × Bool × Chip :=
  let p := f.port
  match (if c.ptpTxOn f then ptpFind f.octets else none) with
  | none => (f.octets, false, c)
  | some m =>
    let c := c.inc .PTP_TX_COUNT p
    let ty := m.type f.octets
    let e := c.msgInstant p t
    if !m.event || m.twoStep f.octets || !(c.rdBit .PTP_CORRECT_MASK ty p) then (f.octets, false, c)
    else match c.rd .PTP_TX_MODE p with
      | 1 => (ptpCorrect m f.octets (tbDiff e f.arrive), true, c.inc .PTP_MODIFIED_COUNT p)
      | 2 =>
        if ty ≠ 0 then (f.octets, false, c)
        else if m.at_ + 44 > f.octets.length - 4 then (f.octets, false, c.inc .PTP_MALFORMED p)
        else
          let v := time96 e
          let g := ptpPut m f.octets 34 (natToOctets 6 (bits v 95 48) ++ natToOctets 4 (bits v 47 16))
          (ptpCorrect m g (bits v 15 0 : Nat), true, c.inc .PTP_MODIFIED_COUNT p)
      | _ => (f.octets, false, c)

end Sys2Proof.Machine
end

