-- ==== Sys2Proof/Machine/HostMap.lean ====
section
/-!
DEFINITION. The host side (chapter 8): lanes, the mapping of ports to lanes, remapping, lane sharing, and flow control
frames.
-/
set_option Elab.async false
namespace Sys2Proof.Machine

/-- Fields of a mapping value (Table 8-8). -/
def mapKind (v : Nat) : Nat := bits v 31 30
def mapA (v : Nat) : Nat := bits v 15 8
def mapB (v : Nat) : Nat := bits v 23 16

/-- Lanes that a mapping value names (Table 8-2). -/
def mapLanes (v : Nat) : List Nat :=
  match mapKind v with
  | 0 => []
  | 2 => [mapA v, mapB v]
  | _ => [mapA v]

/-- Running mapping of a port (R184): that of a move, else `HL_MAP`; none for an unformed port. -/
def Chip.running (c : Chip) (p : Nat) : Nat :=
  if c.width p = 0 then 0 else (c.hostOf p).moved.getD (c.rd .HL_MAP p)

/-- Change what a lane keeps. -/
def Chip.laneOf (c : Chip) (h : Nat) : LaneSt := c.hlane.getD h {}
def Chip.setLane (c : Chip) (h : Nat) (f : LaneSt → LaneSt) : Chip := { c with hlane := c.hlane.upd h {} f }

/-- Formed ports of a host lane group (R2). -/
def Chip.groupPorts (c : Chip) (g : Nat) : List Nat :=
  (List.range 64).map (fun k => 64 * g + k) |>.filter fun p => c.width p != 0

/-- Ports carried on a lane. -/
def Chip.laneUsers (c : Chip) (h : Nat) : List Nat :=
  (c.groupPorts (h / 32)).filter fun p => (mapLanes (c.running p)).contains h

/-- Bits of `HL_STATUS`. -/
def Chip.laneUp (c : Chip) (h : Nat) : Bool := c.rdBit .HL_STATUS 3 h
def Chip.laneFault (c : Chip) (h : Nat) : Bool := c.rdBit .HL_STATUS 4 h
def Chip.laneTest (c : Chip) (h : Nat) : Bool := c.rdBit .HL_STATUS 7 h

/-- Calendar entries of a value. -/
def entryCount (v : Nat) : Nat := ((List.range 32).filter fun k => v.testBit k).length

/-- Host capacity in units of 1/1,024 Mbit/s (Table 8-2). -/
def Chip.capacity1024 (c : Chip) (p : Nat) : Nat :=
  match mapKind (c.running p) with
  | 0 => 0
  | 1 => 100000 * 1024
  | 2 => 200000 * 1024
  | _ => entryCount (c.rd .HL_ENTRIES p) * 3125 * 1023

/-- `HL_CAPACITY` in Mbit/s, rounded down (Table 8-8). -/
def Chip.capacity (c : Chip) (p : Nat) : Nat := c.capacity1024 p / 1024

/-- Blocks of a lane reach the port (R184, R187, R199): its lanes run and, when shared, the calendar agrees. -/
def Chip.hostUp (c : Chip) (p : Nat) : Bool :=
  let l := mapLanes (c.running p)
  !l.isEmpty && l.all fun h => c.laneUp h && !c.laneFault h && !c.laneTest h
    && (mapKind (c.running p) != 3 || (c.rdBit .HL_STATUS 5 h && !c.rdBit .HL_STATUS 6 h))

/-- The port's to-host stream reaches the host (R180, R184, R199): it is carried, no lane of it is in fault and none generates a
pattern. That a lane in fault carries none of its ports' frames is a DESIGN CHOICE (log entry 99). -/
def Chip.hostOut (c : Chip) (p : Nat) : Bool :=
  let l := mapLanes (c.running p)
  !l.isEmpty && l.all fun h => !c.laneFault h && c.rd .HL_PRBS_GEN h = 0

/-- `HOST_DOWN` (R180, R184, R199): no lane, a lane in fault, or a lane in test. -/
def Chip.hostDown (c : Chip) (p : Nat) : Bool :=
  let l := mapLanes (c.running p)
  l.isEmpty || l.any fun h => c.laneFault h || c.laneTest h

/-- Highest payload that a port's width and ability allow, in Mbit/s (R183). -/
def Chip.bestPayload (c : Chip) (p : Nat) : Nat :=
  (LineMode.ranked.filter fun m => (c.rd .PORT_ABILITY p).testBit m.abilityBit && m.runsOn (c.width p)).foldl
    (fun a m => max a (m.payload (c.width p))) 0

/-- `UNDERSIZED` is judged; when it becomes set a NOTICE is raised (R183). While the values of one edge are brought into force it
waits for the last of them (R393). -/
def Chip.undersizedEval (c : Chip) (p : Nat) : Chip :=
  if c.cfg.applying then c
  else if c.width p = 0 then c.setHost p fun h => { h with undersized := false }
  else if c.capacity1024 p < 1024 * c.bestPayload p then
    if (c.hostOf p).undersized then c
    else (c.setHost p fun h => { h with undersized := true }).raise .undersized (Cls.port.addr p)
  else c.setHost p fun h => { h with undersized := false }

/-- `HL_PORT_STATUS` (Table 8-8); bits 4 and 5 are held. -/
def Chip.hostStatus (c : Chip) (p : Nat) : Nat :=
  if c.width p = 0 then 0
  else b2n (c.hostUp p) + 2 * b2n (c.hostOf p).undersized + 4 * b2n (c.hostOf p).moved.isSome + 8 * b2n (c.hostDown p)
    + (c.rd .HL_PORT_STATUS p / 16) * 16

/-- A lane is shared by the running mapping. -/
def Chip.laneShared (c : Chip) (h : Nat) : Bool := (c.laneUsers h).any fun p => mapKind (c.running p) = 3

/-- A lane of the group that is no longer shared has no lane-sharing receiver: what that one held ends (R187). -/
def Chip.lsSettle (c : Chip) (g : Nat) : Chip :=
  c.each (((List.range 32).map fun k => 32 * g + k).filter fun h =>
      (c.rdBit .HL_STATUS 5 h || c.rdBit .HL_STATUS 6 h || (c.laneOf h).period.isSome) && !c.laneShared h) fun c h =>
    ((c.setBit .HL_STATUS h 5 false).setBit .HL_STATUS h 6 false).setLane h fun l => { l with period := none, bad := 0 }

/-- The running mapping is `HL_MAP` again (R184). A lane that `HL_MAP` names may carry another port by then: the rules do not say what
happens, and both are carried on it (DESIGN CHOICE, log entry 100). -/
def Chip.mapReturn (c : Chip) (p : Nat) : Chip :=
  ((c.setHost p fun h => { h with moved := none }).lsSettle (p / 64)).undersizedEval p

/-- A new formation's default mapping is in force (R181). -/
def Chip.hostMapReset (c : Chip) (q : Nat) : Chip := c.each (List.range 4) fun c k => c.mapReturn (4 * q + k)

/-- Two ports may share the lanes they name (R182): none in common, or both shared with disjoint entries. -/
def mapsAgree (a b : Nat × Nat) : Bool :=
  let common := (mapLanes a.1).any fun h => (mapLanes b.1).contains h
  !common || (mapKind a.1 = 3 && mapKind b.1 = 3 && a.2 &&& b.2 = 0)

/-- A mapping value with its entries is one that a port of the group may have (R182). -/
def mapShapeOk (p v e : Nat) : Bool :=
  (mapLanes v).all (fun h => h / 32 = p / 64) && (mapKind v != 3 || e != 0) && (mapKind v != 2 || mapA v != mapB v)

/-- A set of ports with mappings and entries is valid (R182): the first port that is not, if any. -/
def mapsBad (l : List (Nat × Nat × Nat)) : Option Nat :=
  (l.find? fun x => !mapShapeOk x.1 x.2.1 x.2.2
    || (l.any fun y => y.1 != x.1 && !mapsAgree x.2 y.2)
    || (mapKind x.2.1 = 3 && (l.filter fun y => mapKind y.2.1 = 3 && mapA y.2.1 = mapA x.2.1).length > 4)).map fun x => x.1

/-- A direct write of `HL_MAP` or `HL_ENTRIES` (R182). A move stays in force (R184). Entries written for a port that is not `SHARED`
are kept, since a write of `HL_MAP` with `SHARED` needs them, and `HL_ENTRIES` reads zero until then (DESIGN CHOICE, log entry 101). -/
def Chip.writeHlMap (c : Chip) (p : Nat) (entries : Bool) (v : Nat) : Abort × Chip :=
  let m := if entries then c.rd .HL_MAP p else v &&& 0xC0FFFF00
  let e := if entries then v else c.rd .HL_ENTRIES p
  let others := ((c.groupPorts (p / 64)).filter fun x => x != p).map fun x => (x, c.running x, c.rd .HL_ENTRIES x)
  let clash := c.width p != 0 && (others.any (fun y => !mapsAgree (m, e) y.2)
    || (mapKind m = 3 && (others.filter fun y => mapKind y.2.1 = 3 && mapA y.2.1 = mapA m).length > 3))
  if !mapShapeOk p m e then (.range, c)
  else if c.rdBool .PORT_ENABLE p || clash then (.state, c)
  else (.ok, ((if entries then c.wr .HL_ENTRIES p e else c.wr .HL_MAP p m).lsSettle (p / 64)).undersizedEval p)

/-- A free lane of a group: up for at least 1 s, not in fault or test, carrying no port (R184). -/
def Chip.freeLane (c : Chip) (g : Nat) : Option Nat :=
  ((List.range 32).map fun k => 32 * g + k).find? fun h =>
    c.laneUp h && !c.laneFault h && !c.laneTest h && (c.laneUsers h).isEmpty && (match (c.laneOf h).upFrom with
      | some r => c.root ≥ r + rootUs 1000000
      | none => false)

/-- A mapping value with lane `h` replaced by lane `n` (R184). -/
def mapMove (v h n : Nat) : Nat :=
  if mapKind v = 2 && mapB v = h then setBits v 23 16 n else setBits v 15 8 n

/-- A lane enters fault: its ports move to a free lane, or set `HOST_DOWN` (R184). -/
def Chip.laneFaultEnter (c : Chip) (h : Nat) : Chip :=
  if c.laneFault h then c
  else
    let c := (c.setBit .HL_STATUS h 4 true).inc .HL_FAULT_COUNT h
    let users := c.laneUsers h
    if users.isEmpty then c
    else match (if c.rdBool .HL_AUTO_REMAP then c.freeLane (h / 32) else none) with
      | some n => (c.each users fun c p =>
          (c.setHost p fun x => { x with moved := some (mapMove (c.running p) h n) }).raise .laneRemapped (Cls.port.addr p)
            (Config.pack h n)).lsSettle (h / 32)
      | none => c.each users fun c p => c.raise .hostDown (Cls.port.addr p) h

/-- The conditions of a lane's fault (R179). -/
def Chip.laneBad (c : Chip) (h : Nat) : Bool :=
  (c.laneOf h).lockFault || c.rdBool .HL_FORCE_FAIL h || c.rd .BIST_STATE_HLANE h = 2

/-- A lane's fault follows its conditions (R179); leaving fault raises a WARNING. -/
def Chip.laneEval (c : Chip) (h : Nat) : Chip :=
  if c.laneBad h then c.laneFaultEnter h
  else if c.laneFault h then (c.setBit .HL_STATUS h 4 false).raise .laneLeftFault (Cls.hlane.addr h)
  else c

/-- The lane-sharing receiver loses lock (R187): frames in progress are discarded and counted. -/
def Chip.lsUnlock (c : Chip) (h : Nat) (inProgress : List Nat) : Chip :=
  let was := c.rdBit .HL_STATUS 5 h
  let c := (c.setBit .HL_STATUS h 5 false).setLane h fun l => { l with bad := 0, period := none }
  if was then c.each (inProgress.filter fun p => (c.laneUsers h).contains p) fun c p => c.inc .HOST_RX_ERROR p else c

/-- One bit through the CRC-8 of Table 8-4. -/
def lsCrc (l : List Bool) : Nat := crcBits 8 0x07 0xFF l

/-- Fields of a marker block, bit i of the block being the i-th transmitted (R186): sync header in bits 0 and 1, block type
in bits 2 to 9, D1 to D3 in bits 10 to 33, the O code in bits 34 to 37, `LS_TAIL` in bits 38 to 65. -/
def lsField (b : BitVec 66) (i n : Nat) : Nat := (b.extractLsb' i n).toNat

/-- The block is a lane-sharing marker with a valid `LS_CRC` (R186). -/
def lsMarkerOk (b : BitVec 66) : Bool :=
  let tail := lsField b 38 28
  lsField b 0 2 = 1 && lsField b 2 8 = 0x4B && lsField b 10 8 = 0x4D && lsField b 34 4 = 0xC
    && lsField b 26 8 / 16 = 1
    && lsCrc (msbBits 8 (lsField b 10 8) ++ msbBits 8 (lsField b 18 8) ++ msbBits 8 (lsField b 26 8)
        ++ msbBits 16 (bits tail 27 12)) = tail % 256

/-- Owner of calendar entry `e` of a lane, as its sub-channel; 0xFF when it is unassigned (Table 8-4). -/
def Chip.lsOwner (c : Chip) (h e : Nat) : Nat :=
  let l := c.laneUsers h
  match l.find? fun p => (c.rd .HL_ENTRIES p).testBit e with
  | some p => l.idxOf p
  | none => 0xFF

/-- `LS_CAL_DIGEST` of a lane's running mapping (Table 8-4). -/
def Chip.lsDigest (c : Chip) (h : Nat) : Nat :=
  msgCrc ((List.range 32).flatMap fun e => msbBits 8 (c.lsOwner h e))

/-- The marker that the device sends at the start of period `n` of a lane (R185, R186). -/
def Chip.lsMarker (c : Chip) (h n : Nat) : BitVec 66 :=
  let d := c.lsDigest h
  let d3 := 16 + (c.laneUsers h).length % 16
  let crc := lsCrc (msbBits 8 0x4D ++ msbBits 8 (n % 256) ++ msbBits 8 d3 ++ msbBits 16 d)
  BitVec.ofNat 66 (1 + 0x4B * 2 ^ 2 + 0x4D * 2 ^ 10 + (n % 256) * 2 ^ 18 + d3 * 2 ^ 26 + 0xC * 2 ^ 34
    + (d * 2 ^ 12 + crc) * 2 ^ 38)

/-- Port to which block `k` of period `n` of a shared lane belongs (R185). -/
def Chip.lsPort (c : Chip) (h n k : Nat) : Option Nat :=
  if k % 1024 = 0 then none
  else (c.laneUsers h).find? fun p => (c.rd .HL_ENTRIES p).testBit ((k + n) % 32)

/-- A marker position of a shared lane (R187): the block found there. -/
def Chip.lsMarkerTake (c : Chip) (h : Nat) (b : BitVec 66) (inProgress : List Nat) : Chip :=
  let l := c.laneOf h
  let locked := c.rdBit .HL_STATUS 5 h
  let n := lsField b 18 8
  if lsMarkerOk b then
    let next := l.period = some ((n + 255) % 256)
    let c := c.setLane h fun l => { l with period := some n, bad := 0 }
    let c := if !locked && next then c.setBit .HL_STATUS h 5 true else c
    if !(locked || next) then c
    else
      let diff := bits (lsField b 38 28) 27 12 != c.lsDigest h
      let c := if diff && !c.rdBit .HL_STATUS 6 h then c.raise .lsCalMismatch (Cls.hlane.addr h) else c
      c.setBit .HL_STATUS h 6 diff
  else
    let c := c.inc .HL_LS_MARKER_ERR h
    if !locked then c.setLane h fun l => { l with period := none }
    else if l.bad + 1 ≥ 3 then c.lsUnlock h inProgress
    else c.setLane h fun l => { l with bad := l.bad + 1, period := l.period.map fun x => (x + 1) % 256 }

/-- A frame with its FCS appended, least significant octet first. -/
def sealFrame (l : List Octet) : List Octet := l ++ (natToOctets 4 (crc32 l)).reverse

/-- Pad a frame to the least length before its FCS. -/
def padFrame (l : List Octet) : List Octet := l ++ List.replicate (60 - l.length) 0

/-- A preamble of six octets with /S/ before it and the SFD after it. -/
def withPreamble (tag : Nat) (l : List Octet) : List Octet := 0xFB :: natToOctets 6 tag ++ 0xD5 :: l

/-- Time of a priority in a PFC frame: `PFC_QUANTA` while a service with XOFF maps to it, else 0 (R197). -/
def Chip.pfcTime (c : Chip) (p prio : Nat) : Nat :=
  if (List.range 8).any fun s => c.rdBit .PFC_STATUS s p && c.pfcPrio p s = prio then c.rd .PFC_QUANTA p else 0

/-- The PFC frame that carries the priorities listed (R197). -/
def Chip.pfcFrame (c : Chip) (p : Nat) (l : List Nat) : List Octet :=
  let enable := l.foldl (fun a k => a ||| 2 ^ k) 0
  let times := (List.range 8).flatMap fun k => natToOctets 2 (if l.contains k then c.pfcTime p k else 0)
  sealFrame (padFrame (natToOctets 6 0x0180C2000001 ++ natToOctets 6 dapMac ++ natToOctets 2 0x8808
    ++ natToOctets 2 0x0101 ++ natToOctets 2 enable ++ times))

/-- Octets that the receive FIFO holds (R195). -/
def Chip.fifoOctets (c : Chip) (p : Nat) : Nat := (c.hostOf p).fifo.foldl (fun a f => a + f.octets.length) 0

/-- Gap in octets before the next frame toward the host, /T/ included (R188). -/
def Chip.hostGap (c : Chip) (p : Nat) : Nat :=
  if c.fifoOctets p > 16384 then (if mapKind (c.running p) = 3 then 1 else 8) else 12

/-- Octet of the port's to-host stream that passes now, counted at the host capacity from root edge 0 (DESIGN CHOICE, log entry
102: the rules give the stream's order, gaps and start positions, no place in time). -/
def Chip.streamNow (c : Chip) (p : Nat) : Nat := c.root * c.capacity1024 p / 131072000

/-- Octet of the to-host stream at which the next frame starts (R188): after the gap, at octet 0 or 4 of a block. -/
def Chip.toHostStart (c : Chip) (p : Nat) : Nat :=
  4 * cdiv (max (c.streamNow p) ((c.hostOf p).streamEnd + c.hostGap p)) 4

/-- A frame goes out in the port's to-host stream (R188). -/
def Chip.sendToHost (c : Chip) (p tag : Nat) (l : List Octet) : Chip :=
  let f := withPreamble tag l
  let o := c.toHostStart p
  c.setHost p fun h => { h with toHost := f, toHostAt := o, streamEnd := o + f.length }

/-- The PFC frame that is due is sent (R197, R198). -/
def Chip.pfcSend (c : Chip) (p : Nat) : Chip :=
  let l := (c.hostOf p).pfcNew
  if l.isEmpty then c
  else ((c.sendToHost p 0x555555555555 (c.pfcFrame p l)).setHost p fun h => { h with pfcNew := [] }).inc .PFC_FRAME_COUNT p

/-- Every service with PFC enabled keeps 2 × `PFC_HEADROOM` below its limit (R197). -/
def pfcFits (c : Chip) (p enable headroom : Nat) : Bool :=
  (List.range 8).all fun s => !(enable.testBit s) || 2 * headroom < rowField 16 (c.rd .SVC_BUF p s) 12 4

/-- A change of `PFC_PRIORITY_MAP` while XOFF stands (R197): old and new priorities go into one frame. -/
def Chip.pfcRemap (c : Chip) (p v : Nat) : Chip :=
  let c' := c.wr .PFC_PRIORITY_MAP p v
  c'.each ((List.range 8).filter fun s => c.rdBit .PFC_STATUS s p && c.pfcPrio p s != c'.pfcPrio p s) fun k s =>
    let old := c.pfcPrio p s
    let k := if (List.range 8).any fun s' => k.rdBit .PFC_STATUS s' p && k.pfcPrio p s' = old then k else k.pfcQueue p old
    k.pfcQueue p (k.pfcPrio p s)

/-- A write of one of the PFC settings (R197, Table 8-8). -/
def Chip.writePfc (c : Chip) (p : Nat) (which : PfcSetting) (v : Nat) : Abort × Chip :=
  match which with
  | .enable =>
    let e := v % 256
    if !pfcFits c p e (c.rd .PFC_HEADROOM p) then (.state, c) else (.ok, (c.wr .PFC_ENABLE p e).pfcEval p)
  | .headroom =>
    if v < 64 ∨ v > 262144 then (.range, c)
    else if !pfcFits c p (c.rd .PFC_ENABLE p) v then (.state, c)
    else (.ok, (c.wr .PFC_HEADROOM p v).pfcEval p)
  | .quanta => if v = 0 ∨ v > 65535 then (.range, c) else (.ok, c.wr .PFC_QUANTA p v)
  | .priorityMap =>
    if (List.range 8).any fun s => bits v (4 * s + 3) (4 * s) > 7 then (.range, c) else (.ok, c.pfcRemap p v)

/-- On leaving `LINK_UP` the receive FIFO is emptied, each frame counted once (R194); a frame still arriving is counted when the line
tells of it. -/
def Chip.hostLinkDown (c : Chip) (p : Nat) : Chip :=
  (c.add .RX_FIFO_DROP p (c.hostOf p).fifo.length).setHost p fun h => { h with fifo := [], cut := true }

/-- What a port's to-host stream carries in positions that carry no frame (R194). -/
inductive HostFill where
  | idle | localFault | remoteFault | pattern
deriving DecidableEq, Repr

/-- The filling of a port's to-host stream (R194, R199). -/
def Chip.hostFill (c : Chip) (p : Nat) : HostFill :=
  if (mapLanes (c.running p)).any fun h => c.rd .HL_PRBS_GEN h != 0 then .pattern
  else if !c.up p then .localFault
  else if c.rdBit .HL_PORT_STATUS 5 p then .remoteFault
  else .idle

/-- Octet `o` of a port's to-host stream (R188): of the latest frame, its /T/, or none. -/
def Chip.hostOctet (c : Chip) (p o : Nat) : StreamOctet :=
  let h := c.hostOf p
  if o < h.toHostAt || h.streamEnd < o || h.toHost.isEmpty then .idle
  else if o = h.streamEnd then .term
  else if o = h.toHostAt then .start
  else .octet (h.toHost.getD (o - h.toHostAt) 0)

/-- Block `b` of a port's to-host stream (R188, R194): blocks that carry nothing of a frame hold the filling. -/
def Chip.hostBlock (c : Chip) (p b : Nat) : BitVec 65 :=
  let l := (List.range 8).map fun k => c.hostOctet p (8 * b + k)
  if l.all fun x => x = .idle then
    match c.hostFill p with
    | .localFault => orderedSet 1
    | .remoteFault => orderedSet 2
    | _ => blockOf l
  else blockOf l

/-- Blocks of a port on a shared lane before block `k` of period `n`, both counted from period 0 (R185). -/
def Chip.lsIndex (c : Chip) (h p n k : Nat) : Nat :=
  n / 32 * 1023 * entryCount (c.rd .HL_ENTRIES p)
    + ((List.range (1024 * (n % 32) + k)).filter fun x => c.lsPort h (x / 1024) (x % 1024) = some p).length

/-- Block `k` of period `n` that a shared lane sends (R185 to R188): the marker, the owner's next block, or idle. -/
def Chip.lsBlock (c : Chip) (h n k : Nat) : BitVec 66 :=
  if k = 0 then c.lsMarker h n
  else match c.lsPort h n k with
    | some p => syncBlock (c.hostBlock p (c.lsIndex h p n k))
    | none => syncBlock (blockOf (List.replicate 8 .idle))

/-- What a lane's to-host direction carries while its group's clock domain runs (R179, R199): a pattern, the streams of its ports, or idle
on a lane to which no port is mapped. -/
inductive LaneFill where
  | pattern (which : Nat)
  | ports (l : List Nat)
  | idle
deriving DecidableEq, Repr

/-- The content of a lane's to-host direction (R179, R199). -/
def Chip.laneFill (c : Chip) (h : Nat) : LaneFill :=
  if c.rd .HL_PRBS_GEN h != 0 then .pattern (c.rd .HL_PRBS_GEN h)
  else if (c.laneUsers h).isEmpty then .idle
  else .ports (c.laneUsers h)

end Sys2Proof.Machine
end

