-- ==== Sys2Proof/Machine/Buffer.lean ====
section
/-!
DEFINITION. The frame buffer (chapter 11): channels and cells, admission, guaranteed rates and their reduction, channel
sparing.
-/
set_option Elab.async false
namespace Sys2Proof.Machine

/-- Channels in `QC_ACTIVE` (Table 11-6). -/
def Chip.activeChannels (c : Chip) : List Nat := (List.range 136).filter fun h => c.rd .QC_STATE h = 0

/-- Cells of a channel that frames hold. -/
def Chip.chUsed (c : Chip) (h : Nat) : Nat :=
  c.frames.foldl (fun a f => a + (f.cells.filter fun x => x = h).length) 0

/-- Free cells of a channel (R258, R263). -/
def Chip.chFree (c : Chip) (h : Nat) : Nat := 65536 - c.chUsed h - c.buf.withdrawn.getD h 0

/-- Active cells (R256). -/
def Chip.cellsTotal (c : Chip) : Nat := 65536 * c.activeChannels.length

/-- Cells withdrawn for testing on active channels (R263). -/
def Chip.cellsWithdrawn (c : Chip) : Nat :=
  (c.buf.withdrawn.filter fun e => c.rd .QC_STATE e.1 = 0).foldl (fun a e => a + e.2) 0

/-- Free cells of the active channels. -/
def Chip.cellsFree (c : Chip) : Nat :=
  c.cellsTotal - c.cellsWithdrawn
    - c.frames.foldl (fun a f => a + (f.cells.filter fun h => c.rd .QC_STATE h = 0).length) 0

/-- Fields of `SVC_BUF` (Table 11-8). -/
def Chip.sbGuarantee (c : Chip) (p v : Nat) : Nat := rowField 16 (c.rd .SVC_BUF p v) 0 4
def Chip.sbMinFrame (c : Chip) (p v : Nat) : Nat := rowField 16 (c.rd .SVC_BUF p v) 4 2
def Chip.sbBurst (c : Chip) (p v : Nat) : Nat := rowField 16 (c.rd .SVC_BUF p v) 6 2
def Chip.sbReserve (c : Chip) (p v : Nat) : Nat := rowField 16 (c.rd .SVC_BUF p v) 8 4
def Chip.sbLimit (c : Chip) (p v : Nat) : Nat := rowField 16 (c.rd .SVC_BUF p v) 12 4

/-- Fields of `SVC_BUF_STATE` (Table 11-9). -/
def Chip.ssEffective (c : Chip) (p v : Nat) : Nat := c.rdField .SVC_BUF_STATE p v 8 4
def Chip.ssMinSeen (c : Chip) (p v : Nat) : Nat := c.rdField .SVC_BUF_STATE p v 12 2
def Chip.ssFlags (c : Chip) (p v : Nat) : Nat := c.rdField .SVC_BUF_STATE p v 14 2

/-- Services that hold cells or have a reserve. -/
def Chip.usedServices (c : Chip) : List (Nat × Nat) :=
  ((c.frames.map fun f => (f.port, c.qService f.port f.lq))
    ++ (c.dict.filter fun e => e.1.reg = .SVC_BUF).map fun e => (e.1.inst, e.1.row)).eraseDups

/-- Shared free cells (R261). -/
def Chip.sharedFree (c : Chip) : Nat :=
  c.cellsTotal - c.cellsWithdrawn
    - c.usedServices.foldl (fun a x => a + max (c.occ x.1 x.2) (c.sbReserve x.1 x.2)) 0

/-- Free descriptors of a scheduler quadrant (R259). -/
def Chip.descFree (c : Chip) (k : Nat) : Nat := 1048576 - (c.frames.filter fun f => f.port / 128 = k && !f.cells.isEmpty).length

/-- Why an arriving frame is discarded (R261). -/
inductive BufCause where
  | limit | pool | rate
deriving DecidableEq, Repr

/-- Octet offset of a cause's counter in `SVC_BUF_STATE`. -/
def BufCause.offset : BufCause → Nat
  | .limit => 16 | .pool => 20 | .rate => 24

/-- Guarantee bucket now (R260). -/
def Chip.guaranteeBucket (c : Chip) (p v : Nat) : Int :=
  (c.buf.bucket.getD (8 * p + v) {}).value (c.ssEffective p v) (64 * c.sbBurst p v) c.root

/-- A frame whose first cell arrives now is in-profile (R260). -/
def Chip.inProfileNow (c : Chip) (p v : Nat) : Bool := c.ssEffective p v != 0 && 0 ≤ c.guaranteeBucket p v

/-- Charge the guarantee bucket at a frame's last cell (R260). -/
def Chip.guaranteeCharge (c : Chip) (p v n : Nat) : Chip :=
  if c.ssEffective p v = 0 then c
  else
    let b := (c.buf.bucket.getD (8 * p + v) {}).take (c.ssEffective p v) (64 * c.sbBurst p v) c.root n
    { c with buf := { c.buf with bucket := c.buf.bucket.set (8 * p + v) b {} } }

/-- E(F) of R266 as a ratio. -/
def expansion (f : Nat) : Rat :=
  let n := cdiv f 64
  max (mkRat (64 * n : Nat) f) (mkRat (64 * (n + 1) : Nat) (64 * n + 1))

/-- Deliverable bandwidth in MB/s, exactly (R265). -/
def Chip.deliverable (c : Chip) : Rat := mkRat (126625 * c.activeChannels.length : Nat) 4

/-- 90 % of the deliverable bandwidth (R267). -/
def Chip.demandLimit (c : Chip) : Rat := c.deliverable * mkRat 9 10

/-- Frame size with which a service's demand is computed (R267, R268). -/
def Chip.sizeFor (c : Chip) (p v : Nat) : Nat :=
  if (c.ssFlags p v).testBit 0 then c.ssMinSeen p v else c.sbMinFrame p v

/-- Services of formed ports whose row is not the default one. -/
def Chip.guaranteed (c : Chip) : List (Nat × Nat) :=
  ((c.dict.filter fun e => e.1.reg = .SVC_BUF && c.width e.1.inst != 0).map fun e => (e.1.inst, e.1.row))

/-- Demand of one service of a port under its effective guarantee, in MB/s (R267, R269). -/
def Chip.demandOf (c : Chip) (p v : Nat) : Rat := mkRat (c.ssEffective p v) 8000 * expansion (c.sizeFor p v)

/-- Demand of service `v` over every port (R270). -/
def Chip.demandSvc (c : Chip) (v : Nat) : Rat :=
  (c.guaranteed.filter fun x => x.2 = v).foldl (fun a x => a + c.demandOf x.1 x.2) 0

/-- Demand D (R267). -/
def Chip.demand (c : Chip) : Rat := c.guaranteed.foldl (fun a x => a + c.demandOf x.1 x.2) 0

/-- Set a service's effective guarantee; its bucket restarts at zero when the rate changes (R260). -/
def Chip.setEffective (c : Chip) (p v g : Nat) : Chip :=
  if c.ssEffective p v = g then c
  else
    let c := c.wrField .SVC_BUF_STATE p v 8 4 g
    { c with buf := { c.buf with bucket := c.buf.bucket.set (8 * p + v) { acc := 0, at_ := c.root } {} } }

/-- Scale every port's service `v` (R270). -/
def Chip.scaleService (c : Chip) (v : Nat) (k : Rat) : Chip :=
  c.each (c.guaranteed.filter fun x => x.2 = v && c.ssEffective x.1 x.2 != 0) fun c x =>
    let g := ((mkRat (c.ssEffective x.1 x.2) 1) * k).floor.toNat
    let c := c.setEffective x.1 x.2 g
    c.wrField .SVC_BUF_STATE x.1 x.2 14 2 ((c.ssFlags x.1 x.2) ||| 2)

/-- The ordered reduction over the services listed, in which a service without demand counts as not reduced (DEDUCED from the example of
R270, log entry 116); the last one scaled and its scale in thousandths (R270). -/
def Chip.reduceOver (c : Chip) (t : Rat) (last : Option (Nat × Rat)) : List Nat → Chip × Option (Nat × Rat)
  | [] => (c, last)
  | v :: l =>
    if c.demand ≤ t then (c, last)
    else
      let d := c.demandSvc v
      let rest := c.demand - d
      if d = 0 then c.reduceOver t last l
      else
        let k := if rest ≤ t then (t - rest) / d else 0
        (c.scaleService v k).reduceOver t (some (v, k)) l

/-- Reduce the effective guarantees until the demand fits (R270). -/
def Chip.reduce (c : Chip) : Chip :=
  let r := c.reduceOver c.demandLimit none (List.range 8)
  match r.2 with
  | none => r.1
  | some (v, k) => (r.1.setBit .BUF_STATUS 0 0 true).raise .guaranteeReduced 0 (Config.pack v (k * 1000).floor.toNat)

/-- A missed guarantee: labels, kind, cause, deficit in MB/s (R269, Table 11-5). -/
def Chip.missed (c : Chip) (labels kind cause deficit : Nat) : Chip :=
  let seq := (bits (c.rd .BUF_MISS_STATUS) 63 48 + 1) % 65536
  let c := c.wrDev .BUF_MISS_STATUS
    (seq * 2 ^ 48 + labels * 2 ^ 44 + kind * 2 ^ 42 + cause * 2 ^ 40 + min deficit (2 ^ 32 - 1))
  c.raise .missedGuarantee 0 (labels * 2 ^ 28 + kind * 2 ^ 26 + cause * 2 ^ 24 + min deficit 16777215)

/-- The device recomputes D after a capacity fall (cause 1) or a size breach (cause 2), and reduces when it does not fit
(R269). -/
def Chip.missPredict (c : Chip) (cause : Nat) : Chip :=
  let excess : Rat := c.demand - c.demandLimit
  if (0 : Rat) < excess then (c.missed 3 1 cause (Rat.ceil excess).toNat).reduce else c

/-- An in-profile or timed request of label `n` was not served (R269); `octets` in-profile cell octets add to the deficit
of the last 100 µs. -/
def Chip.missObserved (c : Chip) (n octets : Nat) : Chip :=
  let recent := (c.buf.unserved.filter fun x => c.root - x.1 ≤ rootUs 100) ++ (if octets = 0 then [] else [(c.root, octets)])
  let sum := recent.foldl (fun a x => a + x.2) 0
  let c : Chip := { c with buf := { c.buf with unserved := recent } }
  let c := c.missed (2 ^ n) 2 3 (cdiv sum 100)
  if c.demand > c.demandLimit then c.reduce else c

/-- An in-profile frame of a service has been admitted: its size, and a new breach (R268, R269). -/
def Chip.sizeSeen (c : Chip) (p v len : Nat) : Chip :=
  let c := if len < c.ssMinSeen p v then c.wrField .SVC_BUF_STATE p v 12 2 len else c
  if len < c.sbMinFrame p v ∧ !(c.ssFlags p v).testBit 0 then
    let c := c.wrField .SVC_BUF_STATE p v 14 2 ((c.ssFlags p v) ||| 1)
    (c.setBit .BUF_STATUS 0 1 true).missPredict 2
  else c

/-- Re-evaluation (R270): breaches cleared, guarantees from the configured values, reduced again where needed. -/
def Chip.reevaluate (c : Chip) : Chip :=
  let stale := (c.dict.filter fun e => e.1.reg = .SVC_BUF_STATE).map fun e => (e.1.inst, e.1.row)
  let c := c.each ((c.guaranteed ++ stale).eraseDups) fun c x =>
    let c := c.wrField .SVC_BUF_STATE x.1 x.2 12 2 0xFFFF
    let c := c.wrField .SVC_BUF_STATE x.1 x.2 14 2 0
    c.setEffective x.1 x.2 (if c.width x.1 = 0 then 0 else c.sbGuarantee x.1 x.2)
  let c := (c.setBit .BUF_STATUS 0 0 false).setBit .BUF_STATUS 0 1 false
  if c.demand > c.demandLimit then c.reduce else c

/-- The lowest-numbered spare of its group takes a channel's place; without one the capacity falls and R269 applies (R271). -/
def Chip.replaced (c : Chip) (h : Nat) : Chip :=
  match ((List.range 34).map fun k => 34 * (h / 34) + k).find? fun x => c.rd .QC_STATE x = 1 with
  | some s => ((c.wr .QC_STATE s 0).wr .QC_REPLACED_BY h s).raise .channelRetired (Cls.qc.addr h) s
  | none => ((c.setBit .BUF_STATUS 0 2 true).raise .channelRetired (Cls.qc.addr h) 0xFFFF).missPredict 1

/-- A channel is retired (R271). -/
def Chip.retire (c : Chip) (h : Nat) : Chip :=
  if c.rd .QC_STATE h ≠ 0 then c
  else
    let empty := c.chUsed h = 0
    (c.wr .QC_STATE h (if empty then 3 else 2)).replaced h

/-- A corrected error of a channel: it is counted, and more than `BUF_CE_LIMIT` within a second retire the channel (R271, R274). -/
def Chip.corrected (c : Chip) (h : Nat) : Chip :=
  let l := c.root :: (c.buf.ces.getD h []).filter fun r => c.root < r + rootUs 1000000
  let c := (c.inc .QC_CE_COUNT h : Chip)
  let c : Chip := { c with buf := { c.buf with ces := c.buf.ces.set h l [] } }
  if l.length > c.rd .BUF_CE_LIMIT then c.retire h else c

/-- Place of the request of a list that slot `n` of a channel's read or write port serves (R264): L2 in its ten slots, L3 in slot 1,000,
otherwise L0 or L1 with in-profile and timed frames first, and L3 in a slot that nothing else asks for. -/
def slotServe (read : Bool) (n : Nat) (l : List QcReq) : Option Nat :=
  let own := if read then 0 else 1
  let plain := ((l.findIdx? fun x => x.label = own && x.urgent).orElse fun _ => l.findIdx? fun x => x.label = own).orElse
    fun _ => l.findIdx? fun x => x.label = 3
  if n % 100 = 0 && n ≤ 900 then (l.findIdx? fun x => x.label = 2).orElse fun _ => plain
  else if n = 1000 then (l.findIdx? fun x => x.label = 3).orElse fun _ => plain
  else plain

/-- Requests that wait at a channel's write port: cell writes, and write-backs of the scrubber (R264, R273). -/
def Chip.writeReqs (c : Chip) (h : Nat) : List QcReq :=
  c.buf.writes.getD h [] ++ (c.buf.writeBack.filter fun x => x.1 = h).map fun _ => ⟨2, false⟩

/-- A slot of a channel's write port passes: what it serves is performed (R264). -/
def Chip.writeSlot (c : Chip) (n h : Nat) : Chip :=
  let w := c.buf.writes.getD h []
  match slotServe false n (c.writeReqs h) with
  | none => c
  | some k =>
    if k < w.length then { c with buf := { c.buf with writes := c.buf.writes.set h (w.eraseIdx k) [] } }
    else match c.buf.writeBack.find? fun x => x.1 = h with
      | some x => { c with buf := { c.buf with writeBack := c.buf.writeBack.erase x } }
      | none => c

/-- A slot of 2 ns passes on every write port that has a request; slots are counted from root edge 0 on every port (R256, R264; DESIGN
CHOICE, log entry 118). -/
def Chip.slotPass (c : Chip) : Chip :=
  c.each (((c.buf.writes.map fun e => e.1) ++ c.buf.writeBack.map fun e => e.1).eraseDups) fun c h =>
    c.writeSlot (c.root / 32 % 1024) h

/-- A draining channel whose last cell is freed becomes `QC_UNUSABLE` (Table 11-6). -/
def Chip.drained (c : Chip) (h : Nat) : Chip :=
  if c.rd .QC_STATE h = 2 ∧ c.chUsed h = 0 then c.wr .QC_STATE h 3 else c

/-- A frame that is being written is discarded under a cause (R261). -/
def Chip.dropArriving (c : Chip) (p : Nat) (f : Frame) (v : Nat) (cause : BufCause) (inProfile : Bool) : Chip :=
  let c := c.setSch p fun s => { s with arriving := s.arriving.filter fun x => x.id != f.id }
  let c := c.qCount p f.lq 28 4 1
  let c := c.addField .SVC_BUF_STATE p v cause.offset 4 1
  let c := if inProfile then c.addField .SVC_BUF_STATE p v 28 4 1 else c
  c.pfcEval p

end Sys2Proof.Machine
end

