-- ==== Sys2Proof/Machine/Sched.lean ====
section
/-!
DEFINITION. Start decisions (R238 to R245), preemption (R250, R251), rate changes under a frame (R50), and the next needed
instant (R150).
-/
set_option Elab.async false
namespace Sys2Proof.Machine

/-- Preemption is active (R250): verification has succeeded, or a preemptable frame begun before `MM_ENABLE` false is still
in progress or suspended. -/
def Chip.mmActive (c : Chip) (p : Nat) : Bool := c.rd .MM_STATUS p = 2 || (c.sch p).draining

/-- A service is preemptable now (R234). -/
def Chip.isPre (c : Chip) (p v : Nat) : Bool := c.mmActive p && c.svcPreemptable p v

/-- Service of a frame. -/
def Chip.svcOf (c : Chip) (f : Frame) : Nat := c.qService f.port f.lq

/-- Octets on the wire before the destination address or before a fragment: preamble and SFD or SMD. -/
def preOctets : Nat := 8

/-- Octets of the mCRC that closes a fragment that is not the last. -/
def mcrcOctets : Nat := 4

/-- Least octets of the frame in a fragment that is not the last (R251): with its mCRC it reaches
64 × (1 + `MM_ADD_FRAG_SIZE`). -/
def Chip.leastCut (c : Chip) (p : Nat) : Nat := 64 * (1 + c.rd .MM_ADD_FRAG_SIZE p) - mcrcOctets

/-- What is to be started: octets on the wire, octets of the frame in it, and whether it ends the frame. -/
structure Pick where
  oct : Nat
  data : Nat
  final : Bool
deriving DecidableEq, Repr

/-- A candidate: a queue head, or the continuation of the suspended frame. -/
structure Cand where
  frame : Frame
  cont : Option Susp
deriving DecidableEq, Repr

/-- Octets of the frame that a candidate has still to send. -/
def Cand.rem (x : Cand) : Nat :=
  match x.cont with
  | some s => s.rem
  | none => x.frame.len

/-- Verdict of `judge`, with what judging did to the block (R239). -/
inductive Verdict where
  | skip
  | start (k : Pick)

/-- Root edge of the first start point at which the port is free again (R239: `next_start`). -/
def Grid.nextStart (g : Grid) (free : Nat) : Nat := g.instant (g.first 0 free)

/-- A number is below a limit, or there is none. -/
def within (x : Nat) : Option Nat → Bool
  | some l => x ≤ l
  | none => true

/-- The greatest d with lo ≤ d ≤ hi that a property holds for, when it holds up to some d and no further. -/
def greatest (f : Nat → Bool) : Nat → Nat → Nat → Option Nat
  | 0, lo, hi => if lo ≤ hi && f lo then some lo else none
  | k + 1, lo, hi =>
    if hi < lo || !f lo then none
    else if lo = hi then some lo
    else
      let mid := (lo + hi + 1) / 2
      if f mid then greatest f k mid hi else greatest f k lo (mid - 1)

/-- Latest cut of a candidate started at `pos` (R251): both minimums hold, the fragment has been sent by the close `cl`, and
the port is free again by the reservation `r`. -/
def Chip.latestCut (c : Chip) (g : Grid) (pos p total : Nat) (cl r : Option Nat) : Option Nat :=
  if cl.isNone && r.isNone then none
  else
    greatest (fun d => within (g.sent pos (preOctets + d + mcrcOctets)) cl
      && (r.isNone || within (g.nextStart (g.after pos (preOctets + d + mcrcOctets))) r)) 15 (c.leastCut p) (total - 64)

/-- Least wire time of a frame started at `pos`, in root edges: the whole frame, or its smallest first fragment (R241). -/
def Chip.minWire (c : Chip) (g : Grid) (pos p len : Nat) (pre : Bool) : Nat :=
  let oct := if pre && len ≥ c.leastCut p + 64 then preOctets + c.leastCut p + mcrcOctets else preOctets + len
  g.sent pos oct - g.instant pos

/-- Shapers that an untimed frame waits for are eligible (R236). -/
def Chip.shapersOk (c : Chip) (f : Frame) (e : Nat) : Bool :=
  (!c.qShaped f.port f.lq || c.shOk (.flow (c.qShaper f.port f.lq)) e) && c.shOk (.svc f.port (c.svcOf f)) e
    && c.shOk (.port f.port) e

/-- A frame is held for its service's next window; it counts once per window (R241). -/
def Chip.countHeld (c : Chip) (f : Frame) (close : Nat) : Chip :=
  if f.heldAt = some close then c
  else
    let c := c.setQueue f.fq ((c.queue f.fq).map fun x => if x.id = f.id then { x with heldAt := some close } else x)
    c.addField .SVC_COUNTERS f.port (c.svcOf f) 8 4 1

/-- `judge` of R239: candidate `x` at start position `pos` under reservation `r`. -/
def Chip.judge (c : Chip) (g : Grid) (p pos : Nat) (x : Cand) (r : Option Nat) : Verdict × Chip :=
  let f := x.frame
  let v := c.svcOf f
  let s := g.instant pos
  let fresh := x.cont.isNone
  if !c.gateOpen p v s || (fresh && !c.qTimed p f.lq && !c.shapersOk f s) then (.skip, c)
  else
    let pre := c.isPre p v
    let total := x.rem
    let never := fresh && (match c.longestWindow p v with
      | some w => w != 0 && c.minWire g pos p total pre * c.inc1 > w
      | none => false)
    if never then
      let c := (c.dropQueued f .other).addField .SVC_COUNTERS p v 12 4 1
      (.skip, c.raise .neverFit (Cls.port.addr p) v)
    else
      let cl := c.gateClose p v s
      let e := g.sent pos (preOctets + total)
      if within e cl && (r.isNone || within (g.nextStart (g.after pos (preOctets + total))) r) then
        (.start ⟨preOctets + total, total, true⟩, c)
      else match (if pre then c.latestCut g pos p total cl r else none) with
        | some d => (.start ⟨preOctets + d + mcrcOctets, d, false⟩, c)
        | none =>
          if fresh && !within e cl then (.skip, c.countHeld f (cl.getD 0)) else (.skip, c)

/-- Order of due timed frames: launch time, then service 7 to 0, then queue number (R239). -/
def Chip.dueBefore (c : Chip) (a b : Frame) : Bool :=
  let la := (c.dueAt a).getD 0
  let lb := (c.dueAt b).getD 0
  la < lb || (la = lb && (c.svcOf b < c.svcOf a || (c.svcOf a = c.svcOf b && a.lq ≤ b.lq)))

/-- Insert a frame in the order of the due timed frames. -/
def Chip.dueInsert (c : Chip) (x : Frame) : List Frame → List Frame
  | [] => [x]
  | y :: l => if c.dueBefore y x then y :: c.dueInsert x l else x :: y :: l

/-- Due timed heads at a root edge, in order (R239, R245). -/
def Chip.dueTimed (c : Chip) (p s : Nat) : List Frame :=
  ((c.heads p).filter fun f => c.qTimed p f.lq && (match c.dueAt f with
    | some l => l ≤ c.edgeTb s
    | none => false)).foldl (fun a x => c.dueInsert x a) []

/-- Launch reservation of a decision at root edge `s` (R240). -/
def Chip.reservation (c : Chip) (g : Grid) (p s : Nat) : Option Nat :=
  (c.heads p).foldl (fun (a : Option Nat) f =>
    if !c.qTimed p f.lq then a
    else match c.dueAt f with
      | none => a
      | some l =>
        if l ≤ c.edgeTb s then a
        else match c.gateNext p (c.svcOf f) (c.tbEdge l) with
          | none => a
          | some e =>
            let x := g.instant (g.first (max e (s + 1)) 0)
            match a with
            | some y => some (min x y)
            | none => some x) none

/-- A member of a round: its key, the length of its head, its quantum, and the head. -/
structure Member where
  key : Nat
  len : Nat
  quantum : Nat
  head : Frame

/-- Deficit of a key. -/
def Round.def_ (r : Round) (k : Nat) : Nat := r.deficit.getD k 0

/-- Members in the order of the round from its present place on (R242). -/
def Round.ring (r : Round) (l : List Member) : List Member :=
  match r.place with
  | none => l
  | some k => l.filter (fun m => k ≤ m.key) ++ l.filter fun m => m.key < k

/-- The visit of a member's present place whose quantum is already added. -/
def Round.here (r : Round) (m : Member) : Bool := r.added && r.place = some m.key

/-- Rounds walked before a member can be served, from deficit round robin (R242). -/
def Round.wait (r : Round) (m : Member) : Nat :=
  let need := cdiv (m.len - r.def_ m.key) m.quantum
  if r.here m then need else need - 1

/-- Members by the walk: fewest rounds first, then the ring (R242). -/
def Round.walk (r : Round) (l : List Member) : List (Nat × Nat × Member) :=
  let xs := ((r.ring l).zipIdx).map fun x => (r.wait x.1, x.2, x.1)
  xs.foldl (fun a x =>
    let rec ins : List (Nat × Nat × Member) → List (Nat × Nat × Member)
      | [] => [x]
      | y :: t => if y.1 < x.1 || (y.1 = x.1 && y.2.1 ≤ x.2.1) then y :: ins t else x :: y :: t
    ins a) []

/-- The walk is committed: every member gains the quanta of its visits, and the one served is charged (R242). -/
def Round.commit (r : Round) (l : List Member) (key : Nat) : Round :=
  let w := r.walk l
  match w.find? fun x => x.2.2.key = key with
  | none => r
  | some (n, rot, m) =>
    let d := w.foldl (fun d x =>
      let visits := if x.2.1 ≤ rot then n + 1 else n
      let adds := if r.here x.2.2 then visits - 1 else visits
      d.set x.2.2.key (r.def_ x.2.2.key + adds * x.2.2.quantum) 0) r.deficit
    { deficit := d.set key (d.getD key 0 - m.len) 0, place := some key, added := true }

/-- A member started after others were passed over gains the fewest quanta it needs, and nothing else moves (R239). -/
def Round.serveOne (r : Round) (m : Member) : Round :=
  let d := r.def_ m.key
  { r with deficit := r.deficit.set m.key (d + cdiv (m.len - d) m.quantum * m.quantum - m.len) 0 }

/-- Untimed queues of a service with a head, by queue number (R239). -/
def Chip.queueMembers (c : Chip) (p v : Nat) : List Member :=
  let l := (c.heads p).filter fun f => !c.qTimed p f.lq && c.svcOf f = v
  let ms := l.map fun f => (⟨f.lq, f.len, 64 * c.qWeight p f.lq, f⟩ : Member)
  ms.foldl (fun a m =>
    let rec ins : List Member → List Member
      | [] => [m]
      | y :: t => if y.key ≤ m.key then y :: ins t else m :: y :: t
    ins a) []

/-- Round of the queues of a service. -/
def SchedSt.round (s : SchedSt) (v : Nat) : Round := s.queues.getD v {}

/-- `dwrr_head` of R239. -/
def Chip.dwrrHead (c : Chip) (p v : Nat) : Option Frame :=
  (((c.sch p).round v).walk (c.queueMembers p v)).head?.map fun x => x.2.2.head

/-- Weighted services among those listed, as members of the round of services. -/
def Chip.svcMembers (c : Chip) (p : Nat) (vs : List Nat) : List Member :=
  vs.filterMap fun v => if c.svcStrict p v then none
    else (c.dwrrHead p v).map fun f => ⟨v, f.len, 64 * c.svcWeight p v, f⟩

/-- Services of a class in the order of R239: strict 7 to 0, then weighted by the walk. -/
def Chip.svcOrder (c : Chip) (p : Nat) (vs : List Nat) : List Nat :=
  (((List.range 8).reverse).filter fun v => vs.contains v && c.svcStrict p v)
    ++ ((c.sch p).svc.walk (c.svcMembers p vs)).map fun x => x.2.2.key

/-- Try candidates one after the other until one judges `start`; `pass` marks weighted services passed over. -/
def Chip.tryAll (c : Chip) (g : Grid) (p pos : Nat) (r : Option Nat) (pass : Bool) :
    List (Cand × Bool) → Option (Cand × Pick × Bool) × Bool × Chip
  | [] => (none, pass, c)
  | x :: l =>
    let j := c.judge g p pos x.1 r
    match j.1 with
    | .start k => (some (x.1, k, pass), pass, j.2)
    | .skip => j.2.tryAll g p pos r (pass || x.2) l

/-- Candidates of a class of services. -/
def Chip.classCands (c : Chip) (p : Nat) (vs : List Nat) : List (Cand × Bool) :=
  (c.svcOrder p vs).filterMap fun v => (c.dwrrHead p v).map fun f => (⟨f, none⟩, !c.svcStrict p v)

/-- `choose` of R239 at start position `pos`; with `express` only the candidates of R251 that may cut a frame. -/
def Chip.choose (c : Chip) (g : Grid) (p pos : Nat) (express : Bool) : Option (Cand × Pick × Bool) × Chip :=
  let s := g.instant pos
  let susp := (c.sch p).susp
  let skipPre := fun v : Nat => (express || susp.isSome) && c.isPre p v
  let due := (c.dueTimed p s).filter fun f => !skipPre (c.svcOf f)
  let a := c.tryAll g p pos none false (due.map fun f => (⟨f, none⟩, false))
  match a.1 with
  | some x => (some x, a.2.2)
  | none =>
    let c := a.2.2
    let r := c.reservation g p s
    let vx := (List.range 8).filter fun v => !c.isPre p v
    let vp := (List.range 8).filter fun v => c.isPre p v
    let cont : List (Cand × Bool) := match susp with
      | some x => [(⟨x.frame, some x⟩, false)]
      | none => []
    let l := c.classCands p vx ++ (if express then [] else cont ++ (if susp.isSome then [] else c.classCands p vp))
    let b := c.tryAll g p pos r false l
    (b.1, b.2.2)

/-- Rounds after a frame of service `v` starts (R239, R242). -/
def Chip.commitRounds (c : Chip) (p : Nat) (f : Frame) (vs : List Nat) (passed : Bool) : Chip :=
  let v := c.svcOf f
  let ms := c.svcMembers p vs
  let qs := c.queueMembers p v
  c.setSch p fun s =>
    let svc := if c.svcStrict p v then s.svc
      else if passed then
        match ms.find? fun m => m.key = v with
        | some m => s.svc.serveOne m
        | none => s.svc
      else s.svc.commit ms v
    { s with svc := svc, queues := s.queues.set v ((s.round v).commit qs f.lq) {} }

/-- Queues and weighted services that have emptied set their deficits to zero (R242). -/
def Chip.emptiedRounds (c : Chip) (p : Nat) : Chip :=
  let hs := (c.heads p).filter fun f => !c.qTimed p f.lq
  c.setSch p fun s =>
    { s with svc := { s.svc with deficit := s.svc.deficit.filter fun e => hs.any fun f => c.svcOf f = e.1 },
             queues := s.queues.map fun q =>
               (q.1, { q.2 with deficit := q.2.deficit.filter fun e => hs.any fun f => f.lq = e.1 }) }

/-- Lateness of a launch at wire time `t` is above the mode's bound (R13, R243). -/
def Chip.lateLaunch (c : Chip) (f : Frame) (t : Nat) : Bool :=
  c.qTimed f.port f.lq && c.rdBool .TIME_VALID && (match f.launch, (c.port f.port).mode with
    | some l, some m => t > l + m.lateBound * 2 ^ 48 / 1000
    | _, _ => false)

/-- SMD of a first fragment and of a later one by the frame's number modulo 4, and a fragment's count (R250: the values of 802.3 Clause
99, which the rule cites and does not restate; PRESUMED, log entry 90). -/
def smdStart (n : Nat) : Octet := ([0xE6, 0x4C, 0x7F, 0xB3] : List Octet).getD (n % 4) 0
@[inherit_doc smdStart]
def smdCont (n : Nat) : Octet := ([0x61, 0x52, 0x9E, 0x2A] : List Octet).getD (n % 4) 0
@[inherit_doc smdStart]
def fragCount (n : Nat) : Octet := ([0xE6, 0x4C, 0x7F, 0xB3] : List Octet).getD (n % 4) 0

/-- The eight octets before a frame or a fragment: standard preamble octets in place of the tag, and the host's SFD (R12), or the SMD of
a preemptable frame (R250). -/
def Frag.head (r : Frag) : List Octet :=
  if r.frag = 0 then List.replicate 7 0x55 ++ [if r.pre then smdStart r.smd else r.frame.sfd]
  else List.replicate 6 0x55 ++ [smdCont r.smd, fragCount (r.frag - 1)]

/-- Octets that a frame or fragment puts on the line, from its preamble on; one that is not the last closes with the mCRC, which is the
check of the frame's octets so far with its low half inverted (R251, Clause 99). -/
def Frag.content (r : Frag) : List Octet :=
  r.head ++ (r.frame.octets.drop r.from_).take r.total
    ++ (if r.final then []
        else (natToOctets 4 (crc32 (r.frame.octets.take (r.from_ + r.total)) ^^^ 0x0000FFFF)).reverse)

/-- `start_frame` of R239: a queue head leaves its queue, is charged, and its first symbol is set; a continuation goes on. -/
def Chip.startCand (c : Chip) (g : Grid) (p pos : Nat) (x : Cand) (k : Pick) (passed : Bool) : Chip :=
  let s := g.instant pos
  let f := x.frame
  let v := c.svcOf f
  let pre := c.isPre p v
  let close := c.gateClose p v s
  match x.cont with
  | some y =>
    let fr : Frag := { frame := f, start := pos, oct := k.oct, total := k.data, frag := y.frag, final := k.final, wire := s,
                       wireTb := y.wireTb, done := g.sent pos k.oct, close := close, pre := pre, modified := y.modified,
                       from_ := f.len - y.rem, smd := y.smd }
    c.setSch p fun st =>
      { st with live := st.live ++ [fr], free := g.after pos k.oct,
                susp := if k.final then none else some { y with rem := y.rem - k.data, frag := y.frag + 1 },
                lineOut := fr.content }
  | none =>
    let t := c.edgeTb s
    let vs := (List.range 8).filter fun w => !c.mmActive p || c.isPre p w = c.isPre p v
    let n := f.len + c.rd .SHAPER_OVERHEAD p
    let timed := c.qTimed p f.lq
    let late := c.lateLaunch f t
    let c := if timed then c else c.commitRounds p f vs passed
    let c := c.setQueue f.fq ((c.queue f.fq).filter fun y => y.id != f.id)
    let c := c.emptiedRounds p
    let c := if c.qShaped p f.lq && !timed then c.shTake (.flow (c.qShaper p f.lq)) s n else c
    let c := (c.shTake (.svc p v) s n).shTake (.port p) s n
    let c := if late then c.qCount p f.lq 16 4 1 else c
    let c := if late && f.slept then c.inc .LPI_LATE_WAKE_COUNT p else c
    let r := c.ptpLaunch f t
    let f := { f with octets := r.1, late := late, ptp := c.ptpTxOn f && (ptpFind f.octets).isSome }
    let fr : Frag := { frame := f, start := pos, oct := k.oct, total := k.data, frag := 0, final := k.final, wire := s,
                       wireTb := t, done := g.sent pos k.oct, close := close, pre := pre, modified := r.2.1,
                       smd := (c.sch p).smdNext }
    r.2.2.setSch p fun st =>
      { st with live := st.live ++ [fr], free := g.after pos k.oct,
                susp := if k.final then st.susp
                  else some { frame := f, rem := f.len - k.data, frag := 1, wireTb := t, modified := r.2.1, smd := fr.smd },
                smdNext := if pre then (st.smdNext + 1) % 4 else st.smdNext,
                lineOut := fr.content }

/-- Decisions may be taken (R238): in `LINK_UP` with `LPI_STATE` at `LPI_AWAKE`, and no
handshake of the device asks for quiet (Table 14-7). -/
def Chip.mayDecide (c : Chip) (p : Nat) : Bool := c.up p && (c.port p).lpi.state = .awake && !c.quiescing

/-- `TX_PIPE_DELAY` of a mode in root edges (R119): a value of 62.5 ps each in W modes; a standard mode's decisions are taken at the
start point itself, since R119 gives the release for W modes only (DEDUCED, log entry 93). -/
def LineMode.pipeRoot (m : LineMode) : Nat := if m.isW then 2 * m.pipeDelay / 125 else 0

/-- First root edge at which a start point lies whose release (R119) is still to come and which has not been decided: in W modes the
frames of a codeword are released `TX_PIPE_DELAY` before its symbol s_0. -/
def Chip.decideFrom (c : Chip) (g : Grid) (p : Nat) : Nat :=
  let due := c.root + (match (c.port p).mode with
    | some m => m.pipeRoot
    | none => 0) + 1
  max ((c.sch p).decided + 1) (if g.w then g.at_ + 512 * g.sym * cdiv (due - g.at_) (512 * g.sym) else due)

/-- Cut a fragment on the wire after `d` octets of the frame (R251). -/
def Chip.cutLive (c : Chip) (g : Grid) (p : Nat) (r : Frag) (d : Nat) : Chip :=
  let oct := preOctets + d + mcrcOctets
  let cut := fun y : Frag => { y with oct := oct, total := d, final := false, done := g.sent y.start (oct - y.base) }
  c.setSch p fun s =>
    { s with
      live := s.live.map fun y => if y.frame.id = r.frame.id && y.frag = r.frag then cut y else y,
      lineOut := (cut r).content,
      susp := some { frame := r.frame,
                     rem := (if r.final then r.total else r.total + (match s.susp with
                       | some x => x.rem
                       | none => 0)) - d,
                     frag := r.frag + 1, wireTb := r.wireTb, modified := r.modified, smd := r.smd },
      free := g.after r.start (oct - r.base) }

/-- Octets of the frame that a fragment and what is suspended of the frame still make up. -/
def SchedSt.whole (s : SchedSt) (r : Frag) : Nat :=
  if r.final then r.total else r.total + (match s.susp with
    | some x => x.rem
    | none => 0)

/-- Octets of the frame that have gone out of a fragment by root edge `e`. -/
def Frag.outBy (g : Grid) (r : Frag) (e : Nat) : Nat :=
  r.base + (if e > r.wire then g.fit r.start (r.oct - r.base) e else 0) - preOctets

/-- The latest fragment on the wire. -/
def SchedSt.running (s : SchedSt) : Option Frag := s.live.getLast?

/-- A preemptable frame whose gate closes before its end is cut where a valid cut exists (R50, R249, R251). -/
def Chip.recut (c : Chip) (p : Nat) : Chip :=
  match c.grid p, (c.sch p).running with
  | some g, some r =>
    match r.close with
    | none => c
    | some cl =>
      if !r.pre || !c.mmActive p || r.done ≤ cl || cl < c.root then c
      else
        let whole := (c.sch p).whole r
        let lo := max (c.leastCut p) (r.outBy g c.root)
        match greatest (fun d => g.sent r.start (preOctets + d + mcrcOctets - r.base) ≤ cl) 15 lo
            (min r.total (whole - 64)) with
        | some d => c.cutLive g p r d
        | none => c
  | _, _ => c

/-- The gates of a port change otherwise than by its running bank: the close of what is on the wire moves (R249). -/
def Chip.gateMoved (c : Chip) (p : Nat) : Chip :=
  let c' := c.setSch p fun s =>
    { s with gates := c.gatesAt p c.tb,
             live := s.live.map fun r =>
               if r.done ≤ c.root then r
               else
                 let t := max c.root r.wire
                 let v := c.svcOf r.frame
                 let n := if c.gateOpen p v t then c.gateClose p v t else some t
                 { r with close := match r.close with
                     | some x => if x ≤ c.root then some x else n
                     | none => n } }
  c'.recut p

/-- Dealing changes at a switch codeword whose symbol s_0 leaves at root edge `at_`: the stream goes on unbroken on the kept lanes,
and frames on the wire end later (R50). `old` is the dealing before. -/
def Chip.redeal (c : Chip) (p : Nat) (old : Grid) (at_ : Nat) : Chip :=
  match c.grid p with
  | none => c
  | some g0 =>
    let gone := 200 * old.n * ((at_ - old.at_) / (512 * old.sym))
    let g := { g0 with at_ := at_ }
    let c := c.setSch p fun s =>
      { s with gridAt := at_, free := s.free - gone, ended := [],
               live := s.live.map fun r =>
                 if r.done ≤ at_ then r
                 else
                   let o := startOctet r.start
                   if o ≥ gone then
                     let pos := (o - gone) / 4
                     { r with start := pos, wire := g.instant pos, done := g.sent pos (r.oct - r.base) }
                   else
                     let base := r.base + (gone - o)
                     { r with start := 0, base := base, done := g.sent 0 (r.oct - base) } }
    c.recut p

/-- The port leaves `LINK_UP`: what is on the wire or suspended is discarded, each frame once (R15). -/
def Chip.schedStop (c : Chip) (p : Nat) : Chip :=
  let s := c.sch p
  let lost := ((s.live.map fun r => r.frame) ++ (match s.susp with
    | some x => [x.frame]
    | none => [])).foldl (fun (a : List Frame) f => if a.any fun x => x.id = f.id then a else a ++ [f]) []
  let c := c.each lost fun c f => c.qCount p f.lq 28 4 1
  let c := c.setSch p fun s =>
    { s with live := [], ended := [], susp := none, free := 0, decided := 0, draining := false, verifies := 0 }
  c.pfcEval p

/-- Verification starts (R250). -/
def Chip.mmStart (c : Chip) (p : Nat) : Chip :=
  if c.rdBool .MM_ENABLE p then (c.setSch p fun s => { s with verifies := 0, draining := false }).wr .MM_STATUS p 1
  else c.wr .MM_STATUS p 0

/-- The port enters `LINK_UP`: the start points begin, and verification runs (R250). W modes keep the grid that the first
PAM-16 codeword set. -/
def Chip.schedUp (c : Chip) (p : Nat) : Chip :=
  let m := (c.port p).mode
  let w := match m with
    | some x => x.isW
    | none => false
  let c := c.setSch p fun s => { s with gridAt := if w then s.gridAt else c.root, free := 0, lastMode := m }
  let c := match c.grid p with
    | some g => if w then c.setSch p fun s => { s with free := startOctet (g.first c.root 0) } else c
    | none => c
  c.mmStart p

/-- Symbol s_0 of the first PAM-16 codeword leaves at root edge `at_` (R72). -/
def Chip.gridStart (c : Chip) (p at_ : Nat) : Chip := c.setSch p fun s => { s with gridAt := at_ }

/-- Earliest root edge at which a candidate could start, from `e` on: due, its gate open, its shapers eligible (R150). -/
def Chip.earliest (c : Chip) (x : Cand) (e : Nat) : Option Nat :=
  let f := x.frame
  let v := c.svcOf f
  let when_ := fun e : Nat =>
    let a := c.shWhen (.svc f.port v) (c.shWhen (.port f.port) e)
    if c.qShaped f.port f.lq then c.shWhen (.flow (c.qShaper f.port f.lq)) a else a
  if x.cont.isSome then c.gateNext f.port v e
  else if c.qTimed f.port f.lq then
    match c.dueAt f with
    | none => none
    | some l => c.gateNext f.port v (max e (c.tbEdge l))
  else
    match c.gateNext f.port v (when_ e) with
    | none => none
    | some a => if when_ a > a then c.gateNext f.port v (when_ a) else some a

/-- First root edge from `e` on at which a candidate fits its window, whole or by a valid cut, looking past windows it does not fit
(R150, R238); after so many windows the edge reached, which lies before N. -/
def Chip.firstFit (c : Chip) (g : Grid) (p : Nat) (x : Cand) : Nat → Nat → Option Nat
  | 0, e => some e
  | k + 1, e =>
    match c.earliest x e with
    | none => none
    | some a =>
      let pos := g.first a (c.sch p).free
      let s := g.instant pos
      match c.gateClose p (c.svcOf x.frame) s with
      | none => some s
      | some cl =>
        if g.sent pos (preOctets + x.rem) ≤ cl
            || (c.isPre p (c.svcOf x.frame) && (c.latestCut g pos p x.rem (some cl) none).isSome) then some s
        else c.firstFit g p x k (cl + 1)

/-- A candidate's service never has a window that it fits (R241). -/
def Chip.neverFits (c : Chip) (g : Grid) (p : Nat) (x : Cand) : Bool :=
  let v := c.svcOf x.frame
  match c.longestWindow p v with
  | some w => w = 0 || c.minWire g (g.first c.root (c.sch p).free) p x.rem (c.isPre p v) * c.inc1 > w
  | none => false

/-- The first start point from root edge `e` on at which the procedure of R239, with its reservations and cuts, would start one of the
candidates (R238, R150); none when none can ever start. After so many start points the edge reached, which lies before N. -/
def Chip.neededFrom (c : Chip) (g : Grid) (p : Nat) (l : List Cand) : Nat → Nat → Option Nat
  | 0, e => some e
  | k + 1, e =>
    match (l.filterMap fun x => c.firstFit g p x 64 e).foldl (fun (a : Option Nat) x => match a with
        | some y => some (min x y)
        | none => some x) none with
    | none => none
    | some a =>
      let pos := g.first a (c.sch p).free
      if (c.choose g p pos false).1.isSome then some (g.instant pos) else c.neededFrom g p l k (g.instant pos + 1)

/-- The next needed instant N of a port as a time-base value; none when it is infinite (R150). -/
def Chip.nextNeeded (c : Chip) (p : Nat) : Option Nat :=
  match c.grid p with
  | none => none
  | some g =>
    let l := ((c.heads p).map fun f => (⟨f, none⟩ : Cand)) ++ (match (c.sch p).susp with
      | some x => [(⟨x.frame, some x⟩ : Cand)]
      | none => [])
    (c.neededFrom g p (l.filter fun x => !c.neverFits g p x) 64 c.root).map fun e => c.edgeTb e

/-- Nothing of the port is on the wire or suspended, and the port is free at the next start point (R150, R238). -/
def Chip.wireIdle (c : Chip) (p : Nat) : Bool :=
  let s := c.sch p
  s.susp.isNone && (s.live.all fun r => r.done ≤ c.root) && (match c.grid p with
    | some g => g.isFree s.free (g.first c.root 0)
    | none => false)

end Sys2Proof.Machine
end

