-- ==== Sys2Proof/Machine/Lpi.lean ====
section
/-!
DEFINITION. Low-power idle on the line (chapter 6): when a port may sleep, its phases, its wake and the wake's planning.
-/
set_option Elab.async false
namespace Sys2Proof.Machine

/-- Change a port's LPI part. -/
def Chip.setLpi (c : Chip) (p : Nat) (f : LpiSt → LpiSt) : Chip := c.setPort p fun s => { s with lpi := f s.lpi }

/-- The port runs a W mode. -/
def Chip.runsW (c : Chip) (p : Nat) : Bool :=
  match (c.port p).mode with
  | some m => m.isW
  | none => false

/-- This end advertised LPI for the mode, as it negotiated (R140). -/
def Chip.lpiOffered (c : Chip) (p : Nat) : Bool :=
  if c.runsW p then (c.port p).lpi.localW else (c.port p).lpi.localEee

/-- `PARTNER_CAPABLE` (R140, Table 6-4). -/
def Chip.lpiCapable (c : Chip) (p : Nat) : Bool :=
  if c.runsW p then (c.port p).lpi.partnerW else (c.port p).lpi.partnerEee

/-- Root edges of a nominal time in µs, rounded up to whole codewords of the port (R142). -/
def Chip.wholeCw (c : Chip) (p us : Nat) : Nat :=
  match (c.port p).mode with
  | some m => cdiv (rootUs us) (512 * m.symbolRoot) * (512 * m.symbolRoot)
  | none => 0

/-- Codewords of a phase of a nominal time in µs (Table 6-1). -/
def Chip.phaseCws (c : Chip) (p us : Nat) : Nat :=
  match (c.port p).mode with
  | some m => cdiv (rootUs us) (512 * m.symbolRoot)
  | none => 0

/-- Codewords of the sleep, quiet, refresh and wake phases (Table 6-1). -/
def Chip.sleepCws (c : Chip) (p : Nat) : Nat := c.phaseCws p 8
@[inherit_doc Chip.sleepCws]
def Chip.quietCws (c : Chip) (p : Nat) : Nat := c.phaseCws p 500
@[inherit_doc Chip.sleepCws]
def Chip.refreshCws (c : Chip) (p : Nat) : Nat := c.phaseCws p 4
@[inherit_doc Chip.sleepCws]
def Chip.wakeCws (c : Chip) (p : Nat) : Nat := c.phaseCws p 6

/-- Root edges in a training frame or a codeword of a port's W mode: 512 symbols (R41, R65). -/
def Chip.frameEdges (c : Chip) (p : Nat) : Nat :=
  match (c.port p).mode with
  | some m => 512 * m.symbolRoot
  | none => 512

/-- Number, since `TRAIN_T3`, of the codeword that a port's lanes are sending (R35, R43). -/
def Chip.txCw (c : Chip) (p : Nat) : Nat := (c.root - (c.port p).seqAt) / c.frameEdges p

/-- Number of the codeword at whose boundary the port stands, or of the next one (R148). -/
def Chip.boundaryCw (c : Chip) (p : Nat) : Nat := cdiv (c.root - (c.port p).seqAt) (c.frameEdges p)

/-- Number of the first codeword of the message that comes after `k` others: a message begins in a codeword whose number is a multiple
of 8 (R35, R38). -/
def Chip.msgCw (c : Chip) (p k : Nat) : Nat := 8 * (c.txCw p / 8 + 1 + k)

/-- Number of the codeword with which the phase after the present quiet or refresh begins (R142, R143). -/
def Chip.phaseEnd (c : Chip) (p : Nat) : Nat :=
  let l := (c.port p).lpi
  match l.state with
  | .quiet => l.phaseCw + c.quietCws p
  | .refresh => l.phaseCw + c.refreshCws p
  | .wake => l.phaseCw + c.wakeCws p
  | _ => l.phaseCw

/-- Codeword `n` of the port's grid is sent as a codeword (Table 6-1, R143). -/
def Chip.sendsCw (c : Chip) (p n : Nat) : Bool :=
  let l := (c.port p).lpi
  match l.state with
  | .awake | .refresh => true
  | .sleep => true
  | .quiet | .wake => n < l.phaseCw

/-- The partner's transmitter is in one of its refreshes, which count from its quiet point (R143). -/
def Chip.partnerRefreshing (c : Chip) (p : Nat) : Bool :=
  let l := (c.port p).lpi
  l.partnerQuiet
    && ((c.root - l.partnerAt) / c.frameEdges p) % (c.quietCws p + c.refreshCws p) ≥ c.quietCws p

/-- Adaptation of the section that word `w` of the store belongs to is not paused by LPI (R98, R146): in an own refresh the echo and
NEXT cancellers adapt, in a partner's refresh the FFE, the PGA and timing recovery. -/
def Chip.lpiAdapts (c : Chip) (p w : Nat) : Bool :=
  let st := (c.port p).lpi.state
  let own := st = .awake || st = .sleep || st = .wake
  let rx := !(c.port p).lpi.partnerQuiet
  if (0x100 ≤ w && w < 0x700) || 0xB00 ≤ w then own || st = .refresh
  else if 0x700 ≤ w && w < 0xB00 then own && rx
  else if 0x10 ≤ w && w < 0x20 then own
  else if w = 0x20 || (0x30 ≤ w && w < 0x33) || (0x40 ≤ w && w < 0x70) then rx || c.partnerRefreshing p
  else rx

/-- Wake length in time-base units: that of Table 6-1, or T_w (R149, R150). -/
def Chip.wakeLen (c : Chip) (p : Nat) : Nat :=
  if c.runsW p then c.wholeCw p 6 * 2 ^ 44
  else match (c.port p).mode with
    | some m => Config.clauseTw m.code * 2 ^ 48 / 1000
    | none => 0

/-- Sleep length in time-base units; in a standard mode T_w stands for both lengths (R150). -/
def Chip.sleepLen (c : Chip) (p : Nat) : Nat := if c.runsW p then c.wholeCw p 8 * 2 ^ 44 else 0

/-- `LPI_WAKE_TIME` in ps (Table 6-4). -/
def Chip.wakeTime (c : Chip) (p : Nat) : Nat :=
  if !c.up p then 0
  else match (c.port p).mode with
    | some m => if m.isW then 6016000 else Config.clauseTw m.code
    | none => 0

/-- `LPI_WAKE_GUARD` in time-base units. -/
def Chip.wakeGuard (c : Chip) (p : Nat) : Nat := tbNs (c.rd .LPI_WAKE_GUARD p)

/-- The port may use LPI (R140, R141): enabled, offered by both ends, in `LINK_UP` for 1 s, and not barred by its characterisation,
whose first window after the wake must have ended before the next period. -/
def Chip.lpiAllowed (c : Chip) (p : Nat) : Bool :=
  c.up p && c.rdBool .LPI_ENABLE p && c.lpiOffered p && c.lpiCapable p && !c.rdBit .LPI_STATUS 3 p && !c.rdBit .LPI_STATUS 4 p
    && (c.port p).lpi.upFrom + rootUs 1000000 ≤ c.root && !(c.port p).lpi.charWoke

/-- An end may sleep, or acknowledge a sleep request (R150). -/
def Chip.maySleep (c : Chip) (p : Nat) : Bool :=
  c.lpiAllowed p && (c.port p).lpi.state = .awake && c.wireIdle p && (match c.nextNeeded p with
    | none => true
    | some n => n ≥ c.tb + c.sleepLen p + tbUs (c.rd .LPI_MIN_QUIET p) + c.wakeLen p + c.wakeGuard p)

/-- Code of an LPI state (Table 6-4). -/
def LpiState.code : LpiState → Nat
  | .awake => 0 | .sleep => 1 | .quiet => 2 | .refresh => 3 | .wake => 4

/-- Every eligible frame of the port has seen a state other than `LPI_AWAKE` (R153). -/
def Chip.markSlept (c : Chip) (p : Nat) : Chip :=
  { c with queues := c.queues.map fun e => (e.1, e.2.map fun f => if f.port = p then { f with slept := true } else f) }

/-- Enter an LPI state; time in `LPI_QUIET` adds up (R154). -/
def Chip.lpiEnter (c : Chip) (p : Nat) (st : LpiState) : Chip :=
  let c := if (c.port p).lpi.state = .awake && st ≠ .awake then c.markSlept p else c
  c.setLpi p fun l =>
    let l := if l.state = .quiet && st ≠ .quiet then { l with quietEdges := l.quietEdges + (c.root - l.quietFrom) } else l
    { l with state := st, quietFrom := if st = .quiet then c.root else l.quietFrom, phaseCw := c.boundaryCw p }

/-- Latest codeword boundary of the port's grid at which a wake may start for a needed instant, or the next one; in a
standard mode the instant of deassertion (R151). -/
def Chip.wakeInstant (c : Chip) (p n : Nat) : Nat :=
  let last := n - (c.wakeLen p + c.wakeGuard p)
  match c.grid p with
  | some g =>
    if g.w then
      let cw := 512 * g.sym
      let soon := cdiv (c.root - g.at_) cw
      -- whole root edges from now to the latest permitted start
      let e := c.root + (last - c.tb) / c.inc1
      c.edgeTb (g.at_ + cw * (if last < c.tb then soon else max soon ((e - g.at_) / cw)))
    else max c.tb last
  | none => last

/-- N and the planned wake are recomputed (R150 to R152). -/
def Chip.lpiReplan (c : Chip) (p : Nat) : Chip :=
  if !c.up p then c
  else
    let n := c.nextNeeded p
    let c := c.setLpi p fun l => if l.next = n then l else { l with next := n, known := c.tb }
    match (c.port p).lpi.state with
    | .awake | .wake => c
    | _ =>
      let plan := n.map fun x => c.wakeInstant p x
      (c.setLpi p fun l => { l with plan := plan }).wr .LPI_NEXT_WAKE p (match plan with
        | some x => time96 x
        | none => 2 ^ 96 - 1)

/-- Cause of a planned wake: timed when N was known a wake length and the guard in advance (R152). -/
def Chip.plannedCause (c : Chip) (p : Nat) : WakeCause :=
  let l := (c.port p).lpi
  match l.next with
  | some n => if n ≥ l.known + c.wakeLen p + c.wakeGuard p then .timed else .other
  | none => .other

/-- Counter of a wake cause. -/
def WakeCause.counter : WakeCause → Reg
  | .partner => .LPI_WAKE_PARTNER_COUNT | .timed => .LPI_WAKE_TIMED_COUNT | .other => .LPI_WAKE_OTHER_COUNT

/-- The wake pattern starts (R148, R151, R152). A wake before the refresh of a characterisation has ended leaves it open
(R141). In a standard mode LPI is deasserted. -/
def Chip.lpiWake (c : Chip) (p : Nat) (w : WakeCause) : Chip :=
  let c := if c.runsW p then c.inc w.counter p else c
  let c := (c.lpiEnter p .wake).setLpi p fun l =>
    { l with due := none, plan := none, charRun := l.charRun && l.charWoke }
  (c.wr .LPI_NEXT_WAKE p (2 ^ 96 - 1)).ancPortDrives p

/-- Order of precedence of the causes (R152). -/
def WakeCause.rank : WakeCause → Nat
  | .partner => 0 | .timed => 1 | .other => 2

/-- The cause of two that comes first (R152). -/
def WakeCause.first (a b : WakeCause) : WakeCause := if a.rank ≤ b.rank then a else b

/-- A wake for a cause: now in quiet or refresh, at the quiet point before it (R145, R148). -/
def Chip.lpiWakeNow (c : Chip) (p : Nat) (w : WakeCause) : Chip :=
  match (c.port p).lpi.state with
  | .quiet | .refresh => c.lpiWake p w
  | .sleep => c.setLpi p fun l => { l with due := some (match l.due with
      | some x => x.first w
      | none => w) }
  | _ => c

/-- Entry to sleep: the first codeword of the first `SLEEP_REQ` or `SLEEP_ACK` (R145). A period that is not yet
characterised is the characterisation (R141). -/
def Chip.lpiSleep (c : Chip) (p : Nat) (quietSeq : Nat) (asked acked : Bool) (op : Nat) : Chip :=
  let run := !c.rdBit .LPI_STATUS 2 p
  let c := ((c.each (c.pesOf p) fun c e => c.ancStops e).lpiEnter p .sleep).setLpi p fun l =>
    { l with quietSeq := quietSeq, asked := asked, acked := acked, sent := op, due := none, charRun := run, charOk := none,
             charWoke := false, charLeft := [], miss := 0, failed := [] }
  let c := c.each (c.pesOf p) fun c e => c.setPe e fun x => { x with lpiLow := 0 }
  c.lpiReplan p

/-- `HELD_AWAKE` is set, and the port wakes (R146). -/
def Chip.lpiHold (c : Chip) (p : Nat) : Chip := (c.setBit .LPI_STATUS p 4 true).lpiWakeNow p .other

/-- A failed store refresh on a pair in LPI (R146). -/
def Chip.lpiStoreFail (c : Chip) (p e : Nat) : Chip :=
  if c.up p && (c.port p).lanes.contains e && (c.port p).lpi.state ≠ .awake then c.lpiHold p else c

/-- The characterisation is over, judged or not. -/
def Chip.charEnd (c : Chip) (p : Nat) : Chip :=
  c.setLpi p fun l => { l with charRun := false, charWoke := false, charLeft := [] }

/-- The first complete margin window of a lane after a characterisation's wake (R141). When the partner's refresh never ended, so that
no refresh margin was measured, the characterisation neither passes nor fails (DEDUCED, log entry 86). -/
def Chip.lpiWindow (c : Chip) (p e : Nat) (margin : Int) : Chip :=
  let l := (c.port p).lpi
  if !l.charWoke || l.state ≠ .awake || l.partnerQuiet || !l.charLeft.contains e then c
  else match l.charOk with
    | none => c.charEnd p
    | some ok =>
      let left := l.charLeft.filter fun x => x != e
      if margin < c.rdInt .LPI_REFRESH_MIN_MARGIN p || !ok then
        ((c.charEnd p).setBit .LPI_STATUS p 3 true).raise .charFailed (Cls.port.addr p)
      else if left.isEmpty then (c.charEnd p).setBit .LPI_STATUS p 2 true
      else c.setLpi p fun l => { l with charLeft := left }

/-- What the partner advertised, and with it what this end did (R140): `WA_LPI` is `LPI_ENABLE`, and EEE goes out for the modes of
`PORT_ABILITY` while `LPI_ENABLE` is true. -/
def Chip.lpiPartner (c : Chip) (p : Nat) (w eee : Bool) : Chip :=
  let en := c.rdBool .LPI_ENABLE p
  c.setLpi p fun l => { l with partnerW := w, partnerEee := eee, localW := en, localEee := en }

/-- What of the LPI part outlasts a link: what negotiation brought, the request number and the time spent quiet. -/
def LpiSt.fresh (l : LpiSt) : LpiSt :=
  { partnerW := l.partnerW, partnerEee := l.partnerEee, localW := l.localW, localEee := l.localEee, quietEdges := l.quietEdges,
    reqId := l.reqId }

/-- Entry to `LINK_UP`: bits 2 to 4 of `LPI_STATUS` clear, and nothing is planned (Table 6-4). -/
def Chip.lpiUp (c : Chip) (p : Nat) : Chip :=
  let c := c.setLpi p fun l => { l.fresh with known := c.tb, upFrom := c.root }
  (c.wr .LPI_STATUS p 0).wr .LPI_NEXT_WAKE p (2 ^ 96 - 1)

/-- The port leaves `LINK_UP`: LPI ends. -/
def Chip.lpiDown (c : Chip) (p : Nat) : Chip :=
  let c := (c.lpiEnter p .awake).setLpi p LpiSt.fresh
  c.wr .LPI_NEXT_WAKE p (2 ^ 96 - 1)

/-- The partner's transmitter is in LPI, so margin windows hold (R146, R172). -/
def Chip.rxQuiet (c : Chip) (p : Nat) : Bool := (c.port p).lpi.partnerQuiet

/-- `LPI_STATUS` (Table 6-4). -/
def Chip.lpiStatus (c : Chip) (p : Nat) : Nat :=
  (c.rd .LPI_STATUS p / 4) * 4 + b2n (c.port p).lpi.partnerQuiet + 2 * b2n (c.lpiCapable p)

/-- `LPI_QUIET_TIME` in ms (Table 6-4). -/
def Chip.quietMs (c : Chip) (p : Nat) : Nat :=
  let l := (c.port p).lpi
  (l.quietEdges + (if l.state = .quiet then c.root - l.quietFrom else 0)) / 16000000

/-- An `MC_LPI` message (Table 6-2): operation, request number, `SEQ` of the first quiet codeword, mode code. -/
def lpiMsg (op id seq mode : Nat) : BitVec 128 :=
  mgmtBuild 0x05 ((op % 256) * 2 ^ 96 + (id % 256) * 2 ^ 88 + (seq % 256) * 2 ^ 80 + (mode % 256) * 2 ^ 72)

/-- An `MC_LPI` message is queued for every lane (R39, R144). -/
def Chip.sendLpi (c : Chip) (p op id seq : Nat) : Chip :=
  let m := match (c.port p).mode with
    | some m => m.code
    | none => 0
  c.setPort p fun s => { s with outLpi := s.outLpi ++ [lpiMsg op id seq m], lpi := { s.lpi with sent := op } }

/-- Number of the first codeword of the `MC_LPI` message queued next: pair-drop messages go first (R106). -/
def Chip.lpiCw (c : Chip) (p : Nat) : Nat := c.msgCw p ((c.port p).outDrop.length + (c.port p).outLpi.length)

/-- Fields of an `MC_LPI` message (Table 6-2). -/
def lpiFields (m : BitVec 128) : Nat × Nat × Nat × Nat :=
  (bits m.toNat 119 112, bits m.toNat 111 104, bits m.toNat 103 96, bits m.toNat 95 88)

/-- A valid `MC_LPI` message in the mode in use, with the operation given (R144). -/
def Chip.lpiMsgOk (c : Chip) (p : Nat) (m : BitVec 128) (op : Nat) : Bool :=
  mgmtCheck m && mgmtType m = 0x05 && (lpiFields m).1 = op && c.up p && (match (c.port p).mode with
    | some k => k.isW && (lpiFields m).2.2.2 = k.code
    | none => false)

end Sys2Proof.Machine
end

