-- ==== Sys2Proof/Machine/Time.lean ====
section
/-!
DEFINITION. The time base (chapter 9): steps, the servo and `TIME_VALID`, the discipline of the root, and the time pins. A
step also runs timed actions, whose targets are writes; `Ta.lean` closes that circle, and until then what a step does is a
parameter.
-/
set_option Elab.async false
namespace Sys2Proof.Machine

/-- Reference lane's pair engine (R214): it receives the partner's lane 0. -/
def Chip.refPe (c : Chip) (p : Nat) : Nat :=
  if c.up p then (c.port p).rxLanes.headD 0xFFFF else 0xFFFF

/-- Ports that hold something that depends on the time base: a link, a schedule, or gating. -/
def Chip.livePorts (c : Chip) : List Nat :=
  ((c.ports.map fun e => e.1) ++ (c.sched.map fun e => e.1)
    ++ (c.dict.filter fun e => e.1.reg = .GATE_ENABLE).map fun e => e.1.inst).eraseDups

/-- N and the planned wakes are recomputed on every port (R152). -/
def Chip.replanAll (c : Chip) : Chip := c.each c.livePorts fun c p => c.lpiReplan p

/-- The pending swap of a port is performed (R248). -/
def Chip.swapExec (c : Chip) (p : Nat) : Chip :=
  match (c.sch p).swap with
  | none => c
  | some w =>
    let c := c.setSch p fun s => { s with bank := w.bank, swap := none, gateFrom := min s.gateFrom w.instant }
    (c.gateMoved p).lpiReplan p

/-- A pending swap whose instant the time base has reached is performed (R248). -/
def Chip.swapDue (c : Chip) (p : Nat) : Chip :=
  match (c.sch p).swap with
  | some w => if c.tb ≥ w.instant then c.swapExec p else c
  | none => c

/-- Change what the servo and the pins keep. -/
def Chip.setTime (c : Chip) (f : TimeSt → TimeSt) : Chip := { c with time := f c.time }

/-- `TIME_VALID` becomes `b`: a change raises its event (R208). -/
def Chip.setValid (c : Chip) (b : Bool) : Chip :=
  if c.rdBool .TIME_VALID = b then c
  else ((c.wrBool .TIME_VALID 0 b).raise (if b then .timeValidTrue else .timeValidFalse) 0).replanAll

/-- Units of the time base in one cycle of its 48 bits of seconds (R201). -/
def tbCycle : Nat := 2 ^ 48 * tbSecond

/-- `TIME_LAST_STEP` of an amount in 2^-16 ns: an amount outside its 64 bits has no stated value. -/
def Chip.lastStep (c : Chip) (x : Int) : Nat × Chip :=
  if -(2 ^ 63) ≤ x ∧ x < 2 ^ 63 then (ofInt 64 x, c)
  else
    let d := c.draw
    (d.1 % 2 ^ 64, d.2)

/-- What a step does to the time base, to its status and to the functions of Table 9-2; timed actions follow by R226. The servo's phase
estimate takes the step in automatic mode, and the latest PPS_IN reference moves with the time base, so that the spacing of the next pulse
is judged in elapsed time (DEDUCED, log entry 106). -/
def Chip.stepTo (c : Chip) (new : Nat) (amount : Int) : Chip :=
  let l := c.lastStep amount
  let c := { l.2 with tb := new }
  let c := (c.wrDev .TIME_LAST_STEP l.1).inc .TIME_STEP_COUNT
  let c := c.setTime fun t => { t with
    phase := if c.rd .TIME_SERVO_MODE = 1 then t.phase + amount else t.phase
    ppsLast := t.ppsLast.map fun x => (((x : Int) + amount * 2 ^ 32) % (tbCycle : Int)).toNat }
  let c := c.raise .timeStepped 0 (Config.pack l.1 0)
  (c.each c.livePorts fun c p => (c.gateMoved p).swapDue p).replanAll

/-- The time base after a signed amount in 2^-16 ns is added (R204). -/
def Chip.steppedTb (c : Chip) (x : Int) : Nat := (((c.tb : Int) + x * 2 ^ 32) % (tbCycle : Int)).toNat

/-- What a step does: the state, the new time base and the amount in 2^-16 ns. -/
abbrev Stepper := Chip → Nat → Int → Chip

/-- Add a signed amount (R204). -/
def Chip.stepBy (c : Chip) (st : Stepper) (x : Int) : Chip := st c (c.steppedTb x) x

/-- A write of `TIME_STEP` (R204). -/
def Chip.writeTimeStep (c : Chip) (st : Stepper) (v : Nat) : Abort × Chip := (.ok, c.stepBy st (toInt 64 v))

/-- A write of `TIME_SET` (R201, R204). -/
def Chip.writeTimeSet (c : Chip) (st : Stepper) (v : Nat) : Abort × Chip :=
  if !time96Ok v then (.range, c)
  else (.ok, st c (ofTime96 v) (tbDiff (ofTime96 v) c.tb))

/-- A write of `TIME_SNAPSHOT` (R203). -/
def Chip.writeTimeSnapshot (c : Chip) (v : Nat) : Abort × Chip :=
  if v = 0 then (.ok, c) else if v > 1 then (.range, c) else (.ok, c.wrDev .TIME_SNAPSHOT_VALUE c.now96)

/-- Sources of Table 9-3 as they apply. -/
inductive TimeSource where
  | free | software | pps | wale
deriving DecidableEq, Repr

/-- The source that `TIME_SOURCE` selects; `AUTO` is `WALE` while a Wale port is up and the device is not the root (Table
9-3). -/
def Chip.timeSource (c : Chip) : TimeSource :=
  match c.rd .TIME_SOURCE with
  | 1 => .free
  | 2 => .software
  | 3 => .pps
  | 4 => .wale
  | _ =>
    if ((List.range 6).any fun k => c.rd .WL_STATE k = 4) && !c.rdBit .WALE_STATUS 1 then .wale else .software

/-- Highest trim (R209), in units of 10^-12. -/
def trimMax : Int := 20000000

/-- A frequency held within the trim's limits (R209). -/
def trimClamp (x : Int) : Int := max (-trimMax) (min trimMax x)

/-- Sum of the trim over the root edges from `lo` to `hi`: `l` holds its values, latest first. -/
def trimSum (lo : Nat) : Nat → List (Nat × Int) → Int
  | _, [] => 0
  | hi, x :: l => if x.1 ≤ lo then x.2 * ((hi : Int) - lo) else x.2 * ((hi : Int) - x.1) + trimSum lo x.1 l

/-- Mean of the trim over the last 10 s, or since the root runs when that is less (R210); rounded down (DESIGN CHOICE, log entry
107). -/
def Chip.trimMean (c : Chip) : Int :=
  let lo := max (c.root - rootUs 10000000) ((c.time.trims.getLast?.map fun x => x.1).getD c.root)
  if c.root ≤ lo then c.rdInt .ROOT_TRIM else Int.fdiv (trimSum lo c.root c.time.trims) ((c.root : Int) - lo)

/-- Values of the trim that the last 10 s need: those, and the one that stood before them. -/
def trimsKeep (lo : Nat) : List (Nat × Int) → List (Nat × Int)
  | [] => []
  | x :: l => if x.1 ≤ lo then [x] else x :: trimsKeep lo l

/-- The trim takes a value (R209): at a limit `TRIM_LIMIT` is set and a WARNING raised. `TIME_FREQ_CORR` is trim plus rate. -/
def Chip.setTrim (c : Chip) (x : Int) : Chip :=
  let lim := x = trimMax || x = -trimMax
  let old := if c.time.trims.isEmpty then [(0, c.rdInt .ROOT_TRIM)] else c.time.trims
  let c := (c.wrInt .ROOT_TRIM 0 x).setTime fun t =>
    { t with trims := trimsKeep (c.root - rootUs 10000000) ((c.root, x) :: old) }
  let c := if lim && !c.rdBit .ROOT_STATUS 4 then c.raise .trimLimit 0 else c
  (c.setBit .ROOT_STATUS 0 4 lim).wrInt .TIME_FREQ_CORR 0 (x + c.rdInt .TIME_RATE_ADJ)

/-- A rate that the device sets (R202, R209). -/
def Chip.setRate (c : Chip) (x : Int) : Chip :=
  (c.wrInt .TIME_RATE_ADJ 0 x).wrInt .TIME_FREQ_CORR 0 (c.rdInt .ROOT_TRIM + x)

/-- `TIME_RATE_ADJ` carries what the trim does not of the servo's frequency (R209, Table 9-5): under `ROOT_TIME` what the slew limit has
not yet reached, so none once the trim has settled. -/
def Chip.carryRate (c : Chip) : Chip := c.setRate (c.time.freq - c.rdInt .ROOT_TRIM)

/-- The trim enters holdover: it keeps its mean over the last 10 s, toward which it moves as R209 lets it, and a WARNING is raised
except under `ROOT_TIME` (R210). In holdover, a source that goes again is not present without interruption. -/
def Chip.trimHold (c : Chip) : Chip :=
  if c.rdBit .ROOT_STATUS 1 then c.setTime fun t => { t with srcFrom := none }
  else
    let m := c.trimMean
    let c := (c.setTime fun t => { t with held := m, srcFrom := none }).setBit .ROOT_STATUS 0 1 true
    if c.rd .ROOT_DISCIPLINE = 1 then c else c.raise .trimHoldover 0

/-- Enter a servo state (Table 9-4, R210). In `SERVO_FREE` the time base runs from the root alone: no rate is set (DEDUCED from Table 9-3,
log entry 108). -/
def Chip.servoEnter (c : Chip) (k : Nat) : Chip :=
  let c := (c.wrDev .TIME_SERVO_STATE k).setTime fun t => { t with good := 0, bad := 0 }
  let c := if k = 0 then c.setRate 0 else c
  if c.rd .ROOT_DISCIPLINE = 1 && (k = 0 || k = 3 || k = 4) then c.trimHold else c

/-- The servo starts: manual, free without a source, or acquiring (R207). -/
def Chip.servoRestart (c : Chip) : Chip :=
  let c := c.setValid false
  if c.rd .TIME_SERVO_MODE = 0 then c.servoEnter 4
  else if c.timeSource = .free then c.servoEnter 0
  else c.servoEnter 1

/-- A correction by rate (R207, R209): the loop's numbers are typical ones, so the new frequency estimate is a free value within the range
of `TIME_RATE_ADJ`; the trim and the rate share it by Table 9-5. -/
def Chip.servoRate (c : Chip) : Chip :=
  let d := c.draw
  (d.2.setTime fun t => { t with freq := (d.1 % 160000001 : Nat) - 80000000 }).carryRate

/-- Limits of Table 9-4 in 2^-16 ns. -/
def Chip.stepLimit (c : Chip) : Nat := c.rd .TIME_STEP_THRESHOLD * 65536
def Chip.validLimit (c : Chip) : Nat := c.rd .TIME_VALID_LIMIT * 65536

/-- What `SERVO_ACQUIRE` does with a measurement (Table 9-4): it is removed by a step or corrected. -/
def Chip.servoCorrect (c : Chip) (st : Stepper) (x : Int) : Chip :=
  if x.natAbs > c.stepLimit then c.stepBy st (-x) else c.servoRate

/-- Measurements counted toward the 8 of Table 9-4, with this one. -/
def Chip.servoGood (c : Chip) (x : Int) : Nat := if x.natAbs ≤ c.validLimit then c.time.good + 1 else 0

/-- A measurement under `SERVO_TRACK` (Table 9-4): corrected by rate, or it ends tracking and is handled as `SERVO_ACQUIRE` does. -/
def Chip.servoTrack (c : Chip) (st : Stepper) (x : Int) : Chip :=
  let bad := if x.natAbs > 4 * c.validLimit then c.time.bad + 1 else 0
  if x.natAbs > c.stepLimit || bad ≥ 3 then
    let c := (c.servoEnter 1).setValid false
    let good := c.servoGood x
    (c.servoCorrect st x).setTime fun t => { t with good := good }
  else (c.setTime fun t => { t with bad := bad }).servoRate

/-- A measurement under `SERVO_ACQUIRE` (Table 9-4): the 8th good one ends it and is handled as `SERVO_TRACK` does (R207). -/
def Chip.servoAcquire (c : Chip) (st : Stepper) (x : Int) : Chip :=
  let good := c.servoGood x
  if good ≥ 8 then ((c.servoEnter 2).setValid true).servoTrack st x
  else (c.servoCorrect st x).setTime fun t => { t with good := good }

/-- A measurement taken by the servo: local time less reference, in 2^-16 ns (R207, Table 9-4). -/
def Chip.servoTake (c : Chip) (st : Stepper) (x : Int) : Chip :=
  let c := (c.wrInt .TIME_OFFSET_LAST 0 x).setTime fun t => { t with phase := x }
  match c.rd .TIME_SERVO_STATE with
  | 1 => c.servoAcquire st x
  | 2 => c.servoTrack st x
  | 3 =>
    if x.natAbs ≤ c.validLimit && c.rdBool .TIME_VALID then (c.servoEnter 2).servoRate
    else (c.servoEnter 1).servoAcquire st x
  | _ => c

/-- A write of `TIME_SERVO_INPUT`: ignored unless the source is `SOFTWARE` (Table 9-3). -/
def Chip.writeServoInput (c : Chip) (st : Stepper) (v : Nat) : Abort × Chip :=
  (.ok, if c.timeSource = .software then c.servoTake st (toInt 64 v) else c)

/-- A write of `TIME_VALID` (R208). -/
def Chip.writeTimeValid (c : Chip) (v : Nat) : Abort × Chip :=
  if v > 1 then (.range, c)
  else if c.rd .TIME_SERVO_MODE ≠ 0 then (.state, c)
  else (.ok, c.setValid (v = 1))

/-- A write of `TIME_RATE_ADJ` (R202, Table 9-12): in `SERVO_MANUAL` only. -/
def Chip.writeRate (c : Chip) (v : Nat) : Abort × Chip :=
  let x := toInt 32 v
  if x < -100000000 ∨ x > 100000000 then (.range, c)
  else if c.rd .TIME_SERVO_STATE ≠ 4 then (.state, c)
  else (.ok, ((c.wr .TIME_RATE_ADJ 0 v).wrInt .TIME_FREQ_CORR 0 (c.rdInt .ROOT_TRIM + x)).replanAll)

/-- A write of `TIME_SOURCE` or `TIME_SERVO_MODE` (R207): `SERVO_MANUAL` is left for `SERVO_ACQUIRE` (Table 9-4). -/
def Chip.writeTimeSource (c : Chip) (mode : Bool) (v : Nat) : Abort × Chip :=
  if v > (if mode then 1 else 4) then (.range, c)
  else
    let manual := c.rd .TIME_SERVO_STATE = 4
    let c := c.wrDev (if mode then .TIME_SERVO_MODE else .TIME_SOURCE) v
    (.ok, if mode && v = 1 && manual then (c.setValid false).servoEnter 1 else c.servoRestart)

/-- No measurement within `TIME_INPUT_TIMEOUT` (Table 9-4). -/
def Chip.servoTimeout (c : Chip) : Chip := if c.rd .TIME_SERVO_STATE = 2 then c.servoEnter 3 else c

/-- The source of the root's discipline is present (R209 to R211). -/
def Chip.trimSource (c : Chip) : Bool :=
  match c.rd .ROOT_DISCIPLINE with
  | 0 => true
  | 1 => c.rd .TIME_SERVO_STATE = 1 || c.rd .TIME_SERVO_STATE = 2
  | 2 => c.rdBit .ROOT_STATUS 2
  | _ => c.width (c.rd .ROOT_LINE_PORT) != 0 && c.up (c.rd .ROOT_LINE_PORT)

/-- A write of `ROOT_DISCIPLINE`: the new source starts from the present trim (R210). -/
def Chip.writeDiscipline (c : Chip) (v : Nat) : Abort × Chip :=
  if v > 3 then (.range, c)
  else
    let c := (c.wrDev .ROOT_DISCIPLINE v).setBit .ROOT_STATUS 0 1 false
    (.ok, if c.trimSource then c else c.trimHold)

/-- A write of `ROOT_LINE_PORT` (Table 9-12, R210). -/
def Chip.writeRootPort (c : Chip) (v : Nat) : Abort × Chip :=
  if v > 511 then (.range, c)
  else
    let c := c.wrDev .ROOT_LINE_PORT v
    (.ok, if c.rd .ROOT_DISCIPLINE = 3 && !c.trimSource then c.trimHold else c)

/-- The port leaves `LINK_UP`: under `ROOT_LINE` the trim holds over when it is the named one (R210). -/
def Chip.rootLineDown (c : Chip) (p : Nat) : Chip :=
  if c.rd .ROOT_DISCIPLINE = 3 && c.rd .ROOT_LINE_PORT = p then c.trimHold else c

/-- Discipline resumes when the source has been present for 10 s without interruption (R210). -/
def Chip.trimBack (c : Chip) : Chip :=
  match c.time.srcFrom with
  | some r =>
    if c.rdBit .ROOT_STATUS 1 && c.trimSource && r + rootUs 10000000 ≤ c.root then
      (c.setTime fun t => { t with srcFrom := none }).setBit .ROOT_STATUS 0 1 false
    else c
  | none => c

/-- In holdover, the presence of the source is timed (R210). -/
def Chip.trimPresence (c : Chip) : Chip :=
  if !c.rdBit .ROOT_STATUS 1 then c
  else c.setTime fun t => { t with srcFrom := if c.trimSource then some (t.srcFrom.getD c.root) else none }

/-- What the trim moves toward (R209, R210, Table 9-5), if it moves: in holdover its mean; else the servo's frequency, what REF_IN asks
for, which no rule gives as a number and is a free value, or what cancels `PE_FREQ_OFFSET`, partner less local in 0.001 ppm, of the named
port's reference lane. -/
def Chip.trimGoal (c : Chip) : Option Int × Chip :=
  if c.rd .ROOT_DISCIPLINE = 0 then (none, c)
  else if c.rdBit .ROOT_STATUS 1 then (some c.time.held, c)
  else match c.rd .ROOT_DISCIPLINE with
    | 1 => (some (trimClamp c.time.freq), c)
    | 2 =>
      let d := c.draw
      (some (trimClamp ((d.1 % 80000001 : Nat) - 40000000)), d.2)
    | _ => (some (trimClamp (c.rdInt .ROOT_TRIM + 1000 * c.rdInt .PE_FREQ_OFFSET (c.refPe (c.rd .ROOT_LINE_PORT)))), c)

/-- One unit of 10^-12 of the trim's motion, which at 0.5 ppm per second takes 32,000 root edges (R209). That the trim moves at the
highest speed allowed is a DESIGN CHOICE (log entry 107). -/
def Chip.trimStep (c : Chip) : Chip :=
  let g := c.trimGoal
  let c := g.2
  let t := c.rdInt .ROOT_TRIM
  match g.1 with
  | none => c
  | some x =>
    let c := if x = t then c else c.setTrim (if t < x then t + 1 else t - 1)
    if c.rd .TIME_SERVO_STATE ≠ 4 && c.rd .TIME_SERVO_STATE ≠ 0 then c.carryRate else c

/-- REF_IN is lost (R211). -/
def Chip.refLost (c : Chip) : Chip :=
  let c := ((c.setBit .ROOT_STATUS 0 2 false).setBit .ROOT_STATUS 0 3 true).raise .refInLost 0
  if c.rd .ROOT_DISCIPLINE = 2 then c.trimHold else c

/-- Edges return on REF_IN (R211). -/
def Chip.refPresent (c : Chip) : Chip := (c.setBit .ROOT_STATUS 0 2 true).setBit .ROOT_STATUS 0 3 false

/-- A difference in units of 2^-48 ns rounded down to 2^-16 ns. -/
def toNs16 (x : Int) : Int := idiv x (2 ^ 32)

/-- A PPS_IN edge of the selected polarity, `sub` root edges after the present D33 edge (R212): the stamp, resolved to 62.5 ps, the
count, and the offset of an accepted pulse. -/
def Chip.ppsIn (c : Chip) (st : Stepper) (sub : Nat) : Chip :=
  let t := ((c.tb : Int) + sub * c.inc1 - idiv (c.rdInt .PPS_IN_DELAY * 2 ^ 48) 1000) % (tbCycle : Int)
  let t := t.toNat
  let c := (c.wrDev .PPS_IN_TIME (time96 t)).inc .PPS_IN_COUNT
  match c.time.ppsLast with
  | none => c.setTime fun s => { s with ppsLast := some t }
  | some l =>
    let lo := l + tbSecond - tbMs 1
    let hi := l + tbSecond + tbMs 1
    if l ≤ t && t < lo then c
    else
      let c := c.setTime fun s => { s with ppsLast := some t }
      if lo ≤ t && t ≤ hi && c.timeSource = .pps then
        let r := t % tbSecond
        let off : Int := if 2 * r < tbSecond then r else (r : Int) - tbSecond
        c.servoTake st (toNs16 off)
      else c

-- PPS_OUT.

/-- Counting over the next D33 edge carries the time base to a whole second plus `PPS_OUT_OFFSET`: the root edge (R213). -/
def Chip.ppsCross (c : Chip) : Option Nat :=
  let d := ((c.rdInt .PPS_OUT_OFFSET * 2 ^ 48 - c.tb - 1) % (tbSecond : Int)).toNat + 1
  if d ≤ 8 * c.inc1 then some (c.root + cdiv d c.inc1) else none

/-- The pulse whose instant was crossed begins, in the modes that pulse, and its end is known (R213). -/
def Chip.ppsBegin (c : Chip) : Chip :=
  match c.time.ppsDue with
  | none => c
  | some r =>
    let m := c.rd .PPS_OUT_MODE
    let c := c.setTime fun t => { t with ppsDue := none }
    if m = 2 || (m = 1 && c.rdBool .TIME_VALID) then
      c.setTime fun t => { t with ppsOut := true, ppsEnd := r + 16000 * c.rd .PPS_OUT_WIDTH }
    else c

/-- The pulse ends when `PPS_OUT_WIDTH` has passed (R213). -/
def Chip.ppsStop (c : Chip) : Chip := if c.root < c.time.ppsEnd then c else c.setTime fun t => { t with ppsOut := false }

end Sys2Proof.Machine
end

