-- ==== Sys2Proof/Machine/SchedRegs.lean ====
section
/-!
DEFINITION. Writes of the objects of queues, services, gates, preemption and meters (chapter 10), and the report of a
launched frame (R221).
-/
set_option Elab.async false
namespace Sys2Proof.Machine

/-- Waiting frames of a port take the local numbers of its present allotment (R11, R232). -/
def Chip.renumber (c : Chip) (p : Nat) : Chip :=
  let bs := c.blocks p
  ({ c with queues := c.queues.map fun e =>
      (e.1, e.2.map fun f => if f.port = p then { f with lq := 512 * bs.idxOf (e.1 / 512) + e.1 % 512 } else f) } : Chip).pfcEval p

/-- Rows of `Q_BLOCKS` with one replaced. -/
def Chip.blockRows (c : Chip) (p row v : Nat) : List Nat :=
  (List.range 8).map fun i => if i = row then v else c.rd .Q_BLOCKS p i

/-- Rows are packed: no block stands behind a 0xFFFF (R230). -/
def rowsPacked (l : List Nat) : Bool := (l.dropWhile fun b => b != 0xFFFF).all fun b => b = 0xFFFF

/-- Owners of the blocks follow a port's rows (Table 10-8). -/
def Chip.ownBlocks (c : Chip) (p : Nat) (old new : List Nat) : Chip :=
  let c := c.each (old.filter fun b => b != 0xFFFF && !new.contains b) fun c b => c.wrRow .Q_BLOCK_OWNER 0 b 0xFFFF
  c.each (new.filter fun b => b != 0xFFFF) fun c b => c.wrRow .Q_BLOCK_OWNER 0 b p

/-- Some queue of a block holds a frame. -/
def Chip.blockHolds (c : Chip) (b : Nat) : Bool := c.queues.any fun e => e.1 / 512 = b && !e.2.isEmpty

/-- A direct write of a row of `Q_BLOCKS` (R230). -/
def Chip.writeQBlocks (c : Chip) (p row v : Nat) : Abort × Chip :=
  let old := (List.range 8).map fun i => c.rd .Q_BLOCKS p i
  let new := c.blockRows p row v
  let owner := if v > 511 then 0xFFFF else c.rd .Q_BLOCK_OWNER 0 v
  let leaving := old.filter fun b => b != 0xFFFF && !new.contains b
  let m := (new.filter fun b => b != 0xFFFF).length
  if (v > 511 ∧ v ≠ 0xFFFF) ∨ !rowsPacked new ∨ (v ≠ 0xFFFF ∧ owner ≠ 0xFFFF ∧ owner ≠ p) then (.range, c)
  else if c.rdBool .PORT_ENABLE p || (leaving.any fun b => c.blockHolds b) || (m ≥ 1 && c.rd .Q_DEFAULT p ≥ 512 * m) then
    (.state, c)
  else (.ok, ((c.wrRow .Q_BLOCKS p row v).ownBlocks p old new).renumber p)

/-- A direct write of `Q_DEFAULT` (R231). -/
def Chip.writeQDefault (c : Chip) (p v : Nat) : Abort × Chip :=
  let m := (c.blocks p).length
  if v > 4095 then (.range, c)
  else if m ≥ 1 ∧ v ≥ 512 * m then (.state, c)
  else (.ok, c.wr .Q_DEFAULT p v)

/-- A write of `Q_FLUSH` (R231). -/
def Chip.writeQFlush (c : Chip) (p v : Nat) : Abort × Chip :=
  if v = 0 then (.ok, c) else if v > 1 then (.range, c) else (.ok, (c.flushPort p).lpiReplan p)

/-- A row of `Q_CONFIG` lies in its ranges (Table 10-1); `p` is the port. -/
def qRowOk (p v : Nat) : Bool :=
  bits v 121 112 != 0 && (!v.testBit 122 || bits v 111 96 / 16384 = p / 128)
    && 1 ≤ bits v 95 64 && bits v 95 64 ≤ 10000000

/-- A write of a row of `Q_CONFIG` (R232). -/
def Chip.writeQConfig (c : Chip) (p row v : Nat) : Abort × Chip :=
  if !qRowOk p v then (.range, c)
  else (.ok, ((c.wrRow .Q_CONFIG p row (setBits v 47 0 0)).pfcEval p).lpiReplan p)

/-- A write of a row of `SVC_CONFIG` (R234). -/
def Chip.writeSvcConfig (c : Chip) (p row v : Nat) : Abort × Chip :=
  if bits v 9 0 = 0 then (.range, c)
  else (.ok, (c.wrRow .SVC_CONFIG p row (v &&& 0xC00003FF)).lpiReplan p)

/-- A shaper named by an operand. -/
def ShaperSel.ref : ShaperSel → ShRef
  | .flow n => .flow n
  | .svc p v => .svc p v
  | .port p => .port p

/-- Ports that a shaper concerns. -/
def Chip.shaperPorts (c : Chip) (r : ShRef) : List Nat :=
  match r with
  | .flow _ => c.livePorts
  | .svc p _ => [p]
  | .port p => [p]

/-- A write of a shaper's row, after which the planned wakes are recomputed (R152, R237). -/
def Chip.writeShaperRow (c : Chip) (r : ShRef) (v : Nat) : Abort × Chip :=
  let w := c.writeShaper r v
  (w.1, if w.1 = .ok then w.2.each (w.2.shaperPorts r) fun c p => c.lpiReplan p else w.2)

/-- A debt period ends (Table 10-3). -/
def Chip.debtEnd (c : Chip) (r : ShRef) : Chip := c.setShaper r ((c.shaper r).debtEnd c.root)

/-- A write of true to `GATE_ENABLE` (R247). -/
def Chip.gateOn (c : Chip) (p : Nat) : Abort × Chip :=
  let b := (c.sch p).bank
  if !c.bankOk p b then (.range, c)
  else
    let c := (c.wrBool .GATE_ENABLE p true).setSch p fun s => { s with gateFrom := c.bankStart p b c.tb }
    (.ok, (c.gateMoved p).lpiReplan p)

/-- A write of false to `GATE_ENABLE` (R247). -/
def Chip.gateOff (c : Chip) (p : Nat) : Abort × Chip :=
  (.ok, (((c.wrBool .GATE_ENABLE p false).setSch p fun s => { s with gateFrom := 0 }).gateMoved p).lpiReplan p)

/-- A write of `GATE_ENABLE`. -/
def Chip.writeGateEnable (c : Chip) (p v : Nat) : Abort × Chip :=
  match v with
  | 0 => c.gateOff p
  | 1 => c.gateOn p
  | _ => (.range, c)

/-- A write of `GATE_SWAP` (R248). -/
def Chip.writeGateSwap (c : Chip) (p v : Nat) : Abort × Chip :=
  let s := c.sch p
  if v = 0xFF then
    if s.swap.isNone then (.state, c)
    else (.ok, ((c.setSch p fun s => { s with swap := none }).gateMoved p).lpiReplan p)
  else if v > 1 then (.range, c)
  else if !c.bankOk p v then (.range, c)
  else if v = s.bank then (.state, c)
  else if s.swap.isSome then (.busy, c)
  else
    let i := c.bankStart p v c.tb
    let c := (c.setSch p fun s => { s with swap := some ⟨v, i⟩ }).wr .GATE_SWAP_TIME p (time96 i)
    (.ok, (c.gateMoved p).lpiReplan p)

/-- Bank of a gate parameter. -/
def Reg.gclBank : Reg → Option Nat
  | .GCL0_BASE | .GCL0_CYCLE | .GCL0_LENGTH | .GCL0_ENTRY => some 0
  | .GCL1_BASE | .GCL1_CYCLE | .GCL1_LENGTH | .GCL1_ENTRY => some 1
  | _ => none

/-- A write of a gate parameter (R246, R248): not of the running bank, nor of the pending one. -/
def Chip.writeGcl (c : Chip) (r : Reg) (b p row v : Nat) : Abort × Chip :=
  let s := c.sch p
  let bad := match r with
    | .GCL0_BASE | .GCL1_BASE => !time96Ok v
    | .GCL0_CYCLE | .GCL1_CYCLE => v < 1000 || v > 1000000000
    | .GCL0_LENGTH | .GCL1_LENGTH => v < 1 || v > 1024
    | _ => false
  if bad then (.range, c)
  else if (c.rdBool .GATE_ENABLE p && s.bank = b) || (match s.swap with
      | some w => w.bank = b
      | none => false) then (.state, c)
  else
    let v := match r with
      | .GCL0_ENTRY | .GCL1_ENTRY => v &&& 0xFF000000FFFFFFFF
      | _ => v
    (.ok, c.wrRow r p row v)

/-- A write of true to `MM_ENABLE` (R250). -/
def Chip.mmOn (c : Chip) (p : Nat) : Chip :=
  let c := c.wrBool .MM_ENABLE p true
  if c.up p then c.mmStart p else c

/-- A write of false to `MM_ENABLE` (R250): preemption ends once no preemptable frame is in progress or suspended. -/
def Chip.mmOff (c : Chip) (p : Nat) : Chip :=
  let s := c.sch p
  let on := c.mmActive p && (s.susp.isSome || s.live.any fun r => r.pre && r.done > c.root)
  ((c.wrBool .MM_ENABLE p false).setSch p fun s => { s with draining := on, verifies := 0 }).wr .MM_STATUS p 0

/-- A write of `MM_ENABLE`. -/
def Chip.writeMmEnable (c : Chip) (p v : Nat) : Abort × Chip :=
  match v with
  | 0 => (.ok, c.mmOff p)
  | 1 => (.ok, c.mmOn p)
  | _ => (.range, c)

/-- Ranges of meters are disjoint and end at or below 65,536 (R253). -/
def meterRangesOk (l : List (Nat × Nat × Nat)) : Bool :=
  l.all fun x => x.2.2 = 0 || (x.2.1 + x.2.2 ≤ 65536 && l.all fun y =>
    y.1 = x.1 || y.2.2 = 0 || x.2.1 + x.2.2 ≤ y.2.1 || y.2.1 + y.2.2 ≤ x.2.1)

/-- Ports with a meter range, and their ranges. -/
def Chip.meterRanges (c : Chip) : List (Nat × Nat × Nat) :=
  (c.dict.filter fun e => e.1.reg = .RX_METER_COUNT).map fun e => (e.1.inst, c.rd .RX_METER_BASE e.1.inst, e.2)

/-- A direct write of `RX_METER_BASE` or `RX_METER_COUNT` (R253). -/
def Chip.writeMeterRange (c : Chip) (p : Nat) (count : Bool) (v : Nat) : Abort × Chip :=
  let b := if count then c.rd .RX_METER_BASE p else v
  let n := if count then v else c.rd .RX_METER_COUNT p
  let l := (p, b, n) :: (c.meterRanges.filter fun x => x.1 != p)
  if n > 4096 ∨ !meterRangesOk l then (.range, c)
  else (.ok, c.wr (if count then .RX_METER_COUNT else .RX_METER_BASE) p v)

/-- The transmit timestamp report of a launched frame (R221, Table 9-8). -/
def Chip.txReport (c : Chip) (r : Frag) : Chip :=
  let p := r.frame.port
  let f := r.frame
  let n := (c.sch p).reports
  let e := c.msgInstant p r.wireTb
  let res : Nat × Chip :=
    if e < f.arrive then
      let d := c.draw
      (d.1 % 2 ^ 32, d.2)
    else (min ((e - f.arrive) / 2 ^ 44) (2 ^ 32 - 1), c)
  let m := if f.ptp then ptpFind f.octets else none
  let id := match m with
    | some x => x.seqId f.octets
    | none => n % 65536
  let ty := match m with
    | some x => x.type f.octets
    | none => 15
  let dom := match m with
    | some x => x.domain f.octets
    | none => 0
  let row := octetsToNat (natToOctets 12 (time96 r.wireTb) ++ natToOctets 4 res.1 ++ natToOctets 2 id
    ++ natToOctets 1 (ty * 16 + b2n f.late + 2 * b2n r.modified) ++ natToOctets 1 dom ++ natToOctets 4 n)
  let c := (res.2.wrRow .TX_TS_REPORT p (n % 64) row).wr .TX_TS_SEQ p n
  c.setSch p fun s => { s with reports := (n + 1) % 2 ^ 32 }

/-- A frame or fragment has ended on the wire (R12, R221, R249, R250). -/
def Chip.fragEnd (c : Chip) (p : Nat) (r : Frag) : Chip :=
  let f := r.frame
  let c := c.setSch p fun s => { s with live := s.live.drop 1, ended := s.ended ++ [r] }
  let past := match r.close with
    | some cl => decide (r.done > cl)
    | none => false
  let c := if past then (c.inc .GATE_OVERRUN_COUNT p).raise .gateOverrun (Cls.port.addr p) (c.svcOf f) else c
  let c := if r.frag != 0 || !r.final then c.inc .MM_FRAG_TX p else c
  let c := if !r.final then c
    else
      let c := (c.qCount p f.lq 0 8 1).qCount p f.lq 8 8 f.len
      let c := c.addField .SVC_COUNTERS p (c.svcOf f) 0 8 1
      let c := if f.tsReq then c.txReport r else c
      c.pfcEval p
  c.setSch p fun s =>
    if s.draining && s.susp.isNone && !(s.live.any fun x => x.pre) then { s with draining := false } else s

end Sys2Proof.Machine
end

