-- ==== Sys2Proof/Machine/BufferEvents.lean ====
section
/-!
DEFINITION. The meanings of the events and writes of the frame buffer (chapter 11).
-/
set_option Elab.async false
namespace Sys2Proof.Machine

/-- Channels that may take the next cell of a frame (R258): active ones with free cells, other than that of the cell before
while there is another. -/
def Chip.cellChannels (c : Chip) (f : Frame) : List Nat :=
  let l := c.activeChannels.filter fun h => c.chFree h != 0
  let k := l.filter fun h => f.cells.head? != some h
  if k.isEmpty then l else k

/-- Cause under which the next cell of a frame is refused (R257, R261, R265). -/
def Chip.admitCause (c : Chip) (p v : Nat) (f : Frame) (inProfile : Bool) (fill : WriteFill) : Option BufCause :=
  let first := f.cells.isEmpty
  let o := c.occ p v
  if f.cells.length = 256 then some .limit
  else if first && c.descFree (p / 128) = 0 then some .pool
  else if o ≥ c.sbReserve p v && (o ≥ c.sbLimit p v || c.portOcc p ≥ c.rd .PORT_BUF_LIMIT p) then some .limit
  else if o ≥ c.sbReserve p v && c.sharedFree = 0 then some .pool
  else if o ≥ c.sbReserve p v && !inProfile && c.sharedFree ≤ c.rd .BUF_EXCESS_FLOOR then some .pool
  else if (c.cellChannels f).isEmpty then some .pool
  else if first && (fill = .full || (fill = .high && !inProfile)) then some .rate
  else none

/-- The last cell of a frame is written: the frame is eligible (R12, R233, R260, R268). -/
def Chip.frameEligible (c : Chip) (p v : Nat) (f : Frame) : Chip :=
  let f := { f with elig := c.tb, eligRoot := c.root, slept := (c.port p).lpi.state != .awake }
  let ooo := c.qTimed p f.lq && (match (c.queue f.fq).getLast?, f.launch with
    | some y, some l => decide (l < y.due)
    | _, _ => false)
  let c := if ooo then c.inc .Q_OOO_COUNT p else c
  let c := c.setSch p fun s => { s with arriving := s.arriving.filter fun x => x.id != f.id }
  let c := c.setQueue f.fq (c.queue f.fq ++ [f])
  let c := c.guaranteeCharge p v f.len
  let c := if f.inProfile then c.sizeSeen p v f.len else c
  c.lpiReplan p

/-- The channel that takes the next cell: of those that may, the one with the fewest writes pending, and the lowest number on a tie
(R258). -/
def Chip.chooseChannel (c : Chip) (f : Frame) : Nat :=
  let n := fun h => (c.buf.writes.getD h []).length
  match c.cellChannels f with
  | [] => 0
  | h :: l => l.foldl (fun a x => if n x < n a then x else a) h

/-- ADMIT_CELL (R257 to R262, R265): the next cell of the port's oldest arriving frame is written, or its frame is discarded. Its write
waits for a slot of the channel's port; the frame counts as written with the command (DESIGN CHOICE, log entry 118). `h` names the
channel: R258 leaves no choice, and a command that names another one writes nothing (DESIGN CHOICE, log entry 127). -/
def execAdmitCell (p : PortNo) (h : QcNo) (fill : WriteFill) (s : State) : Out := s.run fun c =>
  match (c.sch p).arriving with
  | [] => c
  | f :: _ =>
    let v := c.svcOf f
    let inP := if f.cells.isEmpty then c.inProfileNow p v else f.inProfile
    match c.admitCause p v f inP fill with
    | some k =>
      let c := c.dropArriving p f v k inP
      if k = .rate && (inP || c.qTimed p f.lq) then c.missObserved 1 (if inP then 64 * cdiv f.len 64 else 0) else c
    | none =>
      if h.val ≠ c.chooseChannel f then c
      else
        let c : Chip := { c with buf := { c.buf with
          writes := c.buf.writes.set h (c.buf.writes.getD h [] ++ [⟨1, inP || c.qTimed p f.lq⟩]) [] } }
        let f' := { f with cells := h.val :: f.cells, inProfile := inP }
        let c := c.setSch p fun st => { st with arriving := st.arriving.map fun x => if x.id = f.id then f' else x }
        let c := if 64 * f'.cells.length ≥ f.len then c.frameEligible p v f' else c
        c.pfcEval p

/-- SCRUB_READ (R271, R273, R274). -/
def execScrubRead (h : QcNo) (cell : Fin 65536) (found : ScrubFound) (s : State) : Out := s.run fun c =>
  if c.rd .QC_STATE h = 3 || !c.pwr.rootOn || !c.rdBit .LEGACY_GATE 4 then c
  else match found with
    | .clean => c
    | .corrected => ({ c with buf := { c.buf with writeBack := c.buf.writeBack ++ [(h.val, cell.val)] } } : Chip).corrected h
    | .uncorrectable fr =>
      let c := (c.inc .QC_UE_COUNT h).retire h
      match fr with
      | none => c
      | some id => { c with queues := c.queues.map fun e =>
          (e.1, e.2.map fun f => if f.id = id && f.cells.contains h.val then { f with bad := true } else f) }

/-- SCRUB_WRITEBACK (R273): the corrected word is written, or dropped; its slot has passed either way. -/
def execScrubWriteback (h : QcNo) (cell : Fin 65536) (s : State) : Out := s.run fun c =>
  { c with buf := { c.buf with writeBack := c.buf.writeBack.filter fun x => x != (h.val, cell.val) } }

/-- A write of `QC_RETIRE` (R271). -/
def Chip.writeQcRetire (c : Chip) (h v : Nat) : Abort × Chip :=
  if v = 0 then (.ok, c)
  else if v > 1 then (.range, c)
  else if c.rd .QC_STATE h ≠ 0 then (.state, c)
  else (.ok, c.retire h)

/-- QC_RETIRE (R271). -/
def execQcRetire (h : QcNo) (v : BitVec 8) (s : State) : Out :=
  s.runWr fun c => c.gated .QC_RETIRE h fun c => c.writeQcRetire h v.toNat

/-- CHANNEL_DRAINED (R271, Table 11-6). -/
def execChannelDrained (h : QcNo) (s : State) : Out := s.run fun c => c.drained h

/-- A write of `BUF_REEVALUATE` (R270). -/
def Chip.writeReevaluate (c : Chip) (v : Nat) : Abort × Chip :=
  if v = 0 then (.ok, c) else if v > 1 then (.range, c) else (.ok, c.reevaluate)

/-- BUF_REEVALUATE (R270). -/
def execBufReevaluate (v : BitVec 8) (s : State) : Out :=
  s.runWr fun c => c.gated .BUF_REEVALUATE 0 fun c => c.writeReevaluate v.toNat

end Sys2Proof.Machine
end

