-- ==== Sys2Proof/Machine/Store.lean ====
section
/-!
DEFINITION. The coefficient stores of the device's pair engines (chapter 4): sealing, retention, the stored records, the
initial values of a training and refresh failures.
-/
set_option Elab.async false
namespace Sys2Proof.Machine

/-- Retained coefficients of one pair engine become invalid, and `RETAINED_VALID` follows (R77, Table 3-12); valid ones that
do take the slots of the pair with them (Table 5-3). -/
def Chip.invalidate (c : Chip) (e : Nat) : Chip :=
  let was := (c.pe e).retained
  let c := (c.setPe e PeSt.invalidate).setBit .PE_TRAIN_STATUS e 5 false
  if was then c.ancVictimReset e else c

/-- Seal the stores of the port's pair engines (R113); `SEALED` and `CHECK_OK` of `PE_STORE_STATUS` follow. -/
def Chip.sealPort (c : Chip) (p : Nat) : Chip :=
  c.each (c.pesOf p) fun c e => ((c.setPe e PeSt.sealStore).setBit .PE_STORE_STATUS e 1 true).setBit .PE_STORE_STATUS e 2 true

/-- Adaptation of the listed pair engines resumes. -/
def Chip.resumeAll (c : Chip) (l : List Nat) : Chip :=
  c.each l fun c e => (c.setPe e PeSt.resume).setBit .PE_STORE_STATUS e 1 false

/-- Retention check of a pair engine; its outcome shows in `CHECK_OK`, and a failure invalidates (R113, R77). -/
def Chip.retentionCheck (c : Chip) (e : Nat) : Bool × Chip :=
  let ok := (c.pe e).retentionOk
  let c := c.setBit .PE_STORE_STATUS e 2 ok
  (ok, if ok then c else c.invalidate e)

/-- Write the retained coefficients of an active lane at the entry to `LINK_UP` (R76): identification words and
`RETAINED_VALID`. -/
def Chip.retain (c : Chip) (e : Nat) (m : LineMode) (epoch cls : Nat) : Chip :=
  let lane := c.rd .PE_RX_LANE e % 256
  (c.setPe e fun s =>
    let s := s.writeBack
    let s := (s.putWord 0 (lane * 256 + m.code)).putWord 1 (epoch % 4096)
    let s := s.putWord 5 (cls % 256)
    s.putWord 4 (withBit (s.word 4) 0 true)).setBit .PE_TRAIN_STATUS e 5 true

/-- Check word of a stored record: the CRC-32 of R113 over its class, mode, epoch and words (R76). The order of the octets is not
stated: class, mode, epoch and then every word of Table 4-7 in order (DESIGN CHOICE, log entry 110). -/
def recordCheck (cls : Nat) (m : LineMode) (epoch : Nat) (ws : Tab Nat Nat) : Nat :=
  crc32 (natToOctets 1 cls ++ natToOctets 1 m.code ++ natToOctets 2 epoch
    ++ (List.range 0x1700).flatMap fun w => natToOctets 2 (ws.getD w 0))

/-- The stored record passes its check. -/
def StoredRec.sound (r : StoredRec) : Bool := r.check = recordCheck r.cls r.mode r.epoch r.words

/-- Write the stored record of a pair engine (R76). -/
def Chip.storeRecord (c : Chip) (e : Nat) (m : LineMode) (epoch cls : Nat) : Chip :=
  let ws := (c.pe e).store.filter fun x => storedWord x.1
  let nv := { c.nv with stored := c.nv.stored.put e ⟨cls, m, epoch, ws, recordCheck cls m epoch ws⟩ }
  ({ c with nv := nv }.setBit .PE_TRAIN_STATUS e 6 true).setBit .PE_TRAIN_STATUS e 7 false

/-- The record that MRAM holds for a pair engine fails its check: its check word disagrees, or the word read was damaged (`bad`),
which is the world's. -/
def Chip.storedBad (c : Chip) (e : Nat) (bad : Bool) : Bool :=
  match c.nv.stored.get? e with
  | some r => bad || !r.sound
  | none => false

/-- A stored record that fails its check, as read at the end of `TRAIN_T0`, is ignored and reported (R77, Table 3-12). -/
def Chip.checkStored (c : Chip) (e : Nat) (bad : Bool) : Chip :=
  if c.storedBad e bad then (c.setBit .PE_TRAIN_STATUS e 7 true).raise .storedBadCrc (Cls.pe.addr e) else c

/-- A valid stored record for the mode and the class (Table 3-9). -/
def Chip.storedFits (c : Chip) (e : Nat) (m : LineMode) (cls : Nat) (bad : Bool) : Bool :=
  !c.storedBad e bad && (match c.nv.stored.get? e with
    | some r => r.mode = m && r.cls = cls
    | none => false)

/-- Words that start from the slath set or the stored record (Table 4-9): replica, PGA, offsets, FFE, DFE, NEXT and echo
taps. -/
def initialWord (w : Nat) : Bool :=
  (0x10 ≤ w && w < 0x30) || (0x40 ≤ w && w < 0x90) || (0x100 ≤ w && w < 0x700) || (0xB00 ≤ w && w < 0x1700)

/-- The front-end trims that describe the pair engine: words 0x0023 to 0x0028 from `CR_FE` (R364). -/
def Chip.feTrims (c : Chip) (e : Nat) : Chip :=
  let r := (c.calOf e).octets
  c.setPe e fun s => (List.range 6).foldl (fun a k =>
    a.putWord (0x23 + k) (r.getD (798 + 2 * k) 0 * 256 + r.getD (799 + 2 * k) 0)) s

/-- Initial values at the start of `TRAIN_T1` of a full training (R110, R364): from the stored record, or from the slath set
of the class and mode; words that the mode's structure does not use hold zero (R109). The precoder words await `TRAIN_T2`, and the
alien-NEXT taps and the timing phase are zero. Class 0x07 has no slath set (Table 3-8): with `TRAIN_CLASS_GATE` false a training may
need one, and the model then takes the free constant at class 7 (DESIGN CHOICE, log entry 77). -/
def Chip.loadInitial (c : Chip) (e : Nat) (m : LineMode) (cls : Nat) (hit : Bool) : Chip :=
  let n := c.width (c.portOf e)
  let keep := fun w : Nat => !(initialWord w || (0x700 ≤ w && w < 0xB00) || w = 0x30 || w = 0x31 || w = 0x32)
  let rec_ : Tab Nat Nat := match c.nv.stored.get? e with
    | some r => r.words
    | none => []
  let c := c.setPe e fun s =>
    let s := { s with store := s.store.filter fun x => keep x.1, copies := [] }
    if hit then
      (rec_.filter fun x => (initialWord x.1 && m.usesWord n x.1) || x.1 = 0x31 || x.1 = 0x32).foldl
        (fun a x => a.putWord x.1 x.2) s
    else
      ((List.range 0x1700).filter fun w => initialWord w && m.usesWord n w).foldl
        (fun a w => a.putWord w (Config.slath cls m.code w).toNat) s
  c.feTrims e

/-- A failed refresh of a store row (R112); an uncorrectable row is zeroed. -/
def Chip.refreshFail (c : Chip) (e row : Nat) (uncorrectable : Bool) : Chip :=
  let c := c.setBit .PE_STORE_STATUS e 3 true
  let c := if uncorrectable then
      c.setPe e fun s => (List.range 4).foldl (fun a k => a.putWord (4 * row + k) 0) s
    else c
  let c := c.invalidate e
  (c.inc .PE_STORE_DED_COUNT e).raise .storeRefreshFail (Cls.pe.addr e) row

end Sys2Proof.Machine
end

