-- ==== Sys2Proof/Machine/LinkHooks.lean ====
section
/-!
DEFINITION. The parts of the device that the link state machine drives; this file only gathers them.
-/
set_option Elab.async false
end

