-- ==== Sys2Proof/Machine/Link.lean ====
section
/-!
DEFINITION. Negotiation, training and link state (chapter 3), with port formation and pair-loss downshift (chapter 2).
The operations that several events share come first; then one meaning for each event and register of the chapters.
-/
set_option Elab.async false
namespace Sys2Proof.Machine

/-- Set the link state. -/
def Chip.setLink (c : Chip) (p : Nat) (l : LinkState) : Chip := c.setPort p fun s => { s with link := l }

/-- Record a link-down cause (R86). -/
def Chip.setCause (c : Chip) (p code : Nat) : Chip := c.wr .LINK_DOWN_CAUSE p code

/-- Record the cause of a failed training or fast retrain; a change raises a NOTICE with the code (R86). -/
def Chip.failCause (c : Chip) (p code : Nat) : Chip :=
  let c' := c.setCause p code
  if c.rd .LINK_DOWN_CAUSE p = code then c' else c'.raise .downCause (Cls.port.addr p) code

/-- Mode that `PORT_MODE` forces, if any (R64). -/
def Chip.forced (c : Chip) (p : Nat) : Option LineMode := LineMode.ofCode (c.rd .PORT_MODE p)

/-- W mode that `PORT_MODE` forces. -/
def Chip.forcedW (c : Chip) (p : Nat) : Bool :=
  match c.forced p with
  | some m => m.isW
  | none => false

/-- A mode ranks at or below the ceiling (R61). -/
def Chip.underCeiling (c : Chip) (p : Nat) (m : LineMode) : Bool :=
  match LineMode.ofCode (c.rd .DOWNSHIFT_CEILING p) with
  | some k => k.rank ≤ m.rank
  | none => true

/-- Pair engines of the port that self-test has not marked unusable (R47). -/
def Chip.usablePes (c : Chip) (p : Nat) : List Nat := (c.pesOf p).filter fun e => c.rd .BIST_STATE_PE e != 2

/-- The usable pairs can carry the mode: W modes run on the pairs that remain when downshift is permitted (R47), 100BASE-TX
on pairs A and B, and the other modes on all four. -/
def Chip.pairsCarry (c : Chip) (p : Nat) (m : LineMode) : Bool :=
  let n := (c.usablePes p).length
  if m.isW then n = c.width p || (c.rdBool .PORT_PAIR_DOWNSHIFT p && n ≥ c.rd .PORT_MIN_PAIRS p && n ≥ 1)
  else if m = .t100 then c.rd .BIST_STATE_PE p != 2 && c.rd .BIST_STATE_PE (p + 1) != 2
  else n = 4

/-- Modes that the port may offer or accept, apart from the protocol: in `PORT_ABILITY`, and the forced mode where one is forced;
allowed by the width, the tile level and the ceiling (R27, R29, R61, R64, R82). -/
def Chip.mayRun (c : Chip) (p : Nat) (m : LineMode) : Bool :=
  (c.rd .PORT_ABILITY p).testBit m.abilityBit && (c.forced p).all (fun f => f = m)
  && m.runsOn (c.width p) && c.levelAllows (tileOf p) m && c.underCeiling p m && c.pairsCarry p m

/-- Modes that the port advertises under its protocol: W modes under both, standard modes by pages on a 4-pair port, and
100BASE-TX on a 2-pair port under Clause 28 (R56, R58, R60). -/
def Chip.offers (c : Chip) (p : Nat) : List LineMode :=
  LineMode.ranked.filter fun m => c.mayRun p m
    && ((c.port p).proto = .flp || m.isW)

/-- Modes in the bit layout of `PORT_ABILITY`. -/
def abilityBits (l : List LineMode) : Nat := l.foldl (fun a m => a + 2 ^ m.abilityBit) 0

/-- Lane set for retained coefficients: the current lanes, or every usable pair (R76). -/
def Chip.laneSet (c : Chip) (p : Nat) : List Nat :=
  if (c.port p).lanes.isEmpty then c.usablePes p else (c.port p).lanes

/-- The port holds retained coefficients for a mode: every pair of its lane set has valid ones of one epoch (R76). -/
def Chip.holdsRetained (c : Chip) (p : Nat) (m : LineMode) : Bool :=
  match c.laneSet p with
  | [] => false
  | e :: l => (e :: l).all fun x =>
      (c.pe x).retained && (c.pe x).retMode = m.code && (c.pe x).retEpoch = (c.pe e).retEpoch

/-- Epoch of the port's retained coefficients; 0 if none. -/
def Chip.heldEpoch (c : Chip) (p : Nat) : Nat :=
  match c.laneSet p with
  | [] => 0
  | e :: _ => if (c.pe e).retained then (c.pe e).retEpoch else 0

/-- Highest phase reached by the port's pairs (Table 3-12). -/
def Chip.phase (c : Chip) (p n : Nat) : Chip :=
  c.each (c.laneSet p) fun c e => c.wr .PE_TRAIN_PHASE e (max n (c.rd .PE_TRAIN_PHASE e))

/-- Nothing of a pair drop is in progress, and no port-level message waits (R48). -/
def PortSt.noDrop (s : PortSt) : PortSt :=
  { s with dropReq := none, dropAcked := false, partnerDrop := none, dropAns := none, partnerAns := none, outDrop := [],
           outLpi := [], lastReqIn := none }

/-- What leaving `LINK_UP` ends: frames stop where they stand (R15), freezes end (R115), precoder updates are abandoned
(R106), LPI, alien-NEXT, the root's line source and the MAC merge state follow their own rules; one exit is counted (R86). -/
def Chip.leaveUp (c : Chip) (p : Nat) : Chip :=
  let c := c.each (c.pesOf p) fun c e =>
    let s := c.pe e
    let n := b2n s.preIn.isSome + b2n s.preOut.isSome
    let c := c.add .PE_PRECODER_ABANDONED e n
    let c := c.setPe e fun s =>
      { s.writeBack with preIn := none, preOut := none, preSend := [], uncorrRun := 0, seqMiss := 0, lowWindows := 0, auxAt := [],
                         msgOut := none }
    c.wr .PE_COEF_FREEZE e 0
  let c := c.setPort p PortSt.noDrop
  let c := c.inc .LINK_DOWN_COUNT p
  (((((c.schedStop p).lpiDown p).ancPortDown p).rootLineDown p).lqDown p).hostLinkDown p

/-- Leave whatever state the port is in for one in which it is not up. -/
def Chip.leave (c : Chip) (p : Nat) : Chip :=
  let c := if c.up p then c.leaveUp p else c
  c.setPort p fun s => { s with waitLevel := false, waitFast := false, pam16 := false, rxAt := none }

/-- Enter `LINK_BREAK`: pairs quiet, stores sealed (R81, R96, R113). -/
def Chip.toBreak (c : Chip) (p : Nat) (noFast : Bool) : Chip :=
  ((c.leave p).setPort p fun s => { s with link := .brk, noFast := noFast }).sealPort p

/-- The link goes down by R80: cause, WARNING, `LINK_BREAK`. -/
def Chip.linkDown (c : Chip) (p cause : Nat) (noFast : Bool := false) : Chip :=
  ((c.setCause p cause).raise .linkDown (Cls.port.addr p) cause).toBreak p noFast

/-- Failed fast retrain: counted, not toward downshift; the port passes through `LINK_BREAK` and then negotiates (R78). -/
def Chip.fastFail (c : Chip) (p cause : Nat) : Chip :=
  ((c.failCause p cause).inc .FAST_FAIL_COUNT p).toBreak p true

/-- Next mode below a failed one that is in `PORT_ABILITY` and allowed by the width (R82). -/
def Chip.nextBelow (c : Chip) (p : Nat) (m : LineMode) : Option LineMode :=
  LineMode.ranked.find? fun k =>
    m.rank < k.rank && (c.rd .PORT_ABILITY p).testBit k.abilityBit && k.runsOn (c.width p)

/-- Failed full training (R82, R86): counted, and after `DOWNSHIFT_ATTEMPTS` in one mode the ceiling falls or the port
enters `LINK_FAIL`. A forced W mode is never downshifted (R64). R82 has every failed training followed by `LINK_BREAK`, and the port
enter `LINK_FAIL` after the lowest mode's last failure: the model enters `LINK_FAIL` directly, in which the pairs are quiet as in
`LINK_BREAK` (DESIGN CHOICE, log entry 78). -/
def Chip.fullFail (c : Chip) (p cause : Nat) : Chip :=
  let c := (c.failCause p cause).inc .TRAIN_FAIL_COUNT p
  match (c.port p).mode with
  | none => c.toBreak p (c.port p).noFast
  | some m =>
    if !c.rdBool .DOWNSHIFT_ENABLE p || c.forcedW p then c.toBreak p (c.port p).noFast
    else
      let n := if (c.port p).failMode = some m then (c.port p).failCount + 1 else 1
      let c := c.setPort p fun s => { s with failMode := some m, failCount := n }
      if n < c.rd .DOWNSHIFT_ATTEMPTS p then c.toBreak p (c.port p).noFast
      else
        let c := c.setPort p fun s => { s with failCount := 0 }
        match c.nextBelow p m with
        | some k =>
          ((c.wr .DOWNSHIFT_CEILING p k.code).raise .downshifted (Cls.port.addr p) k.code).toBreak p (c.port p).noFast
        | none => (c.leave p).setLink p .fail

/-- A training fails: a fast retrain by R78, a full training by R82. -/
def Chip.trainFail (c : Chip) (p cause : Nat) : Chip :=
  if (c.port p).fast then c.fastFail p 0x0F else c.fullFail p cause

/-- The verification window of `TRAIN_T3` starts (Table 3-7, R73). -/
def PeSt.window (s : PeSt) : PeSt := { s with t3Bad := false, t3Margin := none, t3Partner := none }

/-- A W-mode training starts with the pair engines `lanes`, and what the phases have learned is forgotten. The seed and the
backoff written before take effect (Table 2-3, R93). Pair engines outside `lanes` are dropped: in a fast retrain those that the
link had dropped, since only a full training lets a pair rejoin (R51), in a full one those marked unusable (R47). -/
def Chip.trainStart (c : Chip) (p : Nat) (fast : Bool) (lanes : List Nat) : Chip :=
  let c := c.setPort p fun s =>
    { s.noDrop with
      link := .trainT0, fast := fast, waitLevel := false, waitFast := false, t0Root := c.root, gotBase := false, ifAck := false,
      ackSent := false, ownKeep := 0, pam16 := false, rxAt := none, lanes := lanes, rxLanes := [], ifKeep := 0, ifWidth := 0 }
  c.each (c.pesOf p) fun c e =>
    let c := c.setPe e fun s =>
      { s.window with
        ifLane := none, segs := [], segsNew := [], segCount := 0, gotIf := false, dropped := !lanes.contains e,
        partnerMargin := 0, uncorrRun := 0, seqMiss := 0, lowWindows := 0, auxAt := [], mgmtWords := [], mgmtOk := true,
        preIn := none, preOut := none, preSend := [], msgOut := none, txSeed := c.rd .PE_TX_SCR_SEED e,
        backoff := c.rd .PE_TX_BACKOFF e }
    let c := c.wr .PE_TRAIN_PHASE e 0
    let c := c.wr .PE_TRAIN_STATUS e ((c.rd .PE_TRAIN_STATUS e / 32) * 32)
    let c := c.setBit .PE_LANE_STATUS e 2 (!lanes.contains e)
    if fast then c else c.ancVictimReset e

/-- `TRAIN_T0` of a full training begins (R71, R82). -/
def Chip.fullStart (c : Chip) (p : Nat) : Chip :=
  let c := c.leave p
  (c.trainStart p false (c.usablePes p)).inc .TRAIN_COUNT p

/-- A fast retrain starts: the retention check of every pair of the lane set, then `TRAIN_T0` with the wake pattern (R78,
R113). A failed check fails the retrain with cause `RETENTION`. -/
def Chip.fastStart (c : Chip) (p : Nat) : Chip :=
  let c := c.inc .FAST_COUNT p
  let set := c.laneSet p
  let r := set.foldl (fun (a : Bool × Chip) e => let k := a.2.retentionCheck e; (a.1 && k.1, k.2)) (true, c)
  if r.1 then
    (((r.2.leave p).trainStart p true set).wr .TRAIN_SOURCE p 1).wr .TRAIN_CLASS p 0
  else r.2.fastFail p 0x10

/-- Start the clause training of a standard mode (Table 3-10); it is a full training (R82), which the victims' alien-NEXT slots do
not outlast (R128). -/
def Chip.stdStart (c : Chip) (p : Nat) (m : LineMode) : Chip :=
  let lanes := if m = .t100 then [p, p + 1] else c.pesOf p
  let c := (c.leave p).setPort p fun s =>
    { s with link := .stdTrain, mode := some m, fast := false, lanes := lanes, rxLanes := lanes, t0Root := c.root }
  let c := c.each (c.pesOf p) fun c e => c.ancVictimReset e
  ((c.wr .TRAIN_SOURCE p 4).inc .TRAIN_COUNT p).ancPortDrives p

/-- The training that the port waits for, or is to run now: a fast retrain, a full training, or a clause training. -/
def Chip.trainNow (c : Chip) (p : Nat) (m : LineMode) (fast : Bool) : Chip :=
  if !m.isW then c.stdStart p m else if fast then c.fastStart p else c.fullStart p

/-- Train in a mode, as soon as the tile's level runs it (R27, R62). R62 has only W modes wait; that the other modes and a fast
retrain wait too, in the state in which the training was asked for, follows from R27 (DEDUCED, log entry 79). -/
def Chip.begin_ (c : Chip) (p : Nat) (m : LineMode) (fast : Bool) : Chip :=
  let c := c.setPort p fun s => { s with mode := some m }
  if c.levelInForce (tileOf p) m then c.trainNow p m fast
  else (c.setPort p fun s => { s with waitLevel := true, waitFast := fast }).needRaised p

/-- Start the full training of a W mode (R62). -/
def Chip.beginW (c : Chip) (p : Nat) (m : LineMode) : Chip := c.begin_ p m false

/-- Start the clause training of a standard mode (Table 3-10). -/
def Chip.beginStd (c : Chip) (p : Nat) (m : LineMode) : Chip := (c.begin_ p m false).needRaised p

/-- Negotiation starts: FLP on a 4-pair port, DME on the narrower ones (R56). -/
def Chip.negotiate (c : Chip) (p : Nat) : Chip :=
  let c := (c.leave p).setPort p fun s =>
    { s with link := .anAbility, proto := if c.width p = 4 then .flp else .dme }
  ((c.wr .AN_STATUS p (if c.width p = 4 then 0 else 4)).wr .AN_PARTNER_ABILITY p 0).wr .AN_PARTNER_WA p 0

/-- A port starts: training of a forced W mode, 100BASE-TX idle when that is forced, or negotiation (R64, R84). -/
def Chip.startLink (c : Chip) (p : Nat) : Chip :=
  match c.forced p with
  | some m =>
    if m.isW then (c.lpiPartner p false false).beginW p m
    else if m = .t100 then (c.lpiPartner p false false).beginStd p m else c.negotiate p
  | none => c.negotiate p

/-- The port goes to `LINK_HELD` with cause `TILE`, unless it is disabled (R85). -/
def Chip.holdPort (c : Chip) (p : Nat) : Chip :=
  if (c.port p).link = .disabled || (c.port p).link = .held then c
  else
    let was := c.up p
    let c := (c.leave p).setCause p 0x09
    let c := if was then c.raise .linkDown (Cls.port.addr p) 0x09 else c
    (c.setPort p fun s => { s with link := .held, noFast := false }).sealPort p

/-- Fast retrain at the end of `LINK_BREAK` or of `LINK_HELD`, else negotiation or a forced start (R78, R81, R84). -/
def Chip.resumeLink (c : Chip) (p : Nat) : Chip :=
  match (c.port p).mode with
  | some m =>
    if m.isW && !(c.port p).noFast && c.rdBool .FAST_RETRAIN_ENABLE p && c.holdsRetained p m && c.levelAllows (tileOf p) m
    then c.begin_ p m true else c.startLink p
  | none => c.startLink p

/-- Master-slave result (R63): a forced role stands, or opposes the partner's; else a multiport device is master of a single-port
one, and the higher seed of two alike. The clauses are cited and not restated: this is the resolution of 802.3 Clause 40 (PRESUMED,
log entry 80). -/
def msResolve (own partner : Nat) (seed : Bool) : Nat :=
  if own ≥ 2 && partner ≥ 2 then (if own = partner then 3 else own - 1)
  else if own ≥ 2 then own - 1
  else if partner ≥ 2 then 4 - partner
  else if own = partner then (if seed then 1 else 2)
  else own + 1

/-- Resolution (R61): the highest mode that both ends offer and the port may run; `ms` is the master-slave result of a mode that has
one. -/
def Chip.resolve (c : Chip) (p : Nat) (partner : Nat) (ms : Nat) : Chip :=
  let c := (c.wr .AN_PARTNER_ABILITY p partner).setBit .AN_STATUS p 0 true
  match (c.offers p).find? fun m => partner.testBit m.abilityBit with
  | none => ((c.setCause p 0x0A).leave p).setLink p .fail
  | some m =>
    let c := c.wr .MS_RESULT p (if m.isW || m = .t100 then 0 else ms)
    if m.isW then
      if c.rdBool .FAST_RETRAIN_ENABLE p && !(c.port p).noFast && c.holdsRetained p m && c.rdBit .AN_STATUS 4 p
          && c.rdBit .AN_STATUS 5 p
      then c.begin_ p m true
      else c.beginW p m
    else c.beginStd p m

/-- Entry to `LINK_UP` (R79). -/
def Chip.enterUp (c : Chip) (p : Nat) : Chip :=
  let s := c.port p
  match s.mode with
  | none => c
  | some m =>
    let full := !s.fast
    let epoch := if m.isW then (if full then (if s.nonce > s.ifNonce then s.epoch else s.ifEpoch) else c.heldEpoch p) else 0
    let cls := c.rd .TRAIN_CLASS p
    let c := c.setPort p fun s => { s with link := .up, noFast := false }
    let c := c.wr .TIME_LAST_UP p c.now96
    let c := c.wr .TRAIN_TIME p ((c.root - s.t0Root) / 16000)
    let c := c.each s.lanes fun c e => c.retain e m epoch cls
    let c := if full && m.isW then
        (c.each s.lanes fun c e => c.storeRecord e m epoch cls).wr .LINK_EPOCH p epoch
      else c
    let c := c.resumeAll s.lanes
    let c := c.phase p 4
    let c := c.raise .linkUp (Cls.port.addr p) m.code
    let c := (((c.lpiUp p).ancPortDrives p).schedUp p).lqLinkUp p
    if full && m.isW then c.fpStore p else c

/-- Enter `TRAIN_T2` with the pairs that have converged (R71, R73): the nonce and, in a full training, the epoch are drawn
(R69, R70). -/
def Chip.toT2 (c : Chip) (p keep : Nat) : Chip :=
  let bar := c.rd .LINK_EPOCH p :: (c.pesOf p).flatMap fun e =>
    (c.pe e).retEpoch :: (match c.nv.stored.get? e with
      | some r => [r.epoch]
      | none => [])
  let cand := (List.range 4096).filter fun x => x != 0 && !bar.contains x
  let d1 := c.draw
  let d2 := d1.2.draw
  let epoch := if (c.port p).fast then c.heldEpoch p else cand.getD (d2.1 % cand.length) 1
  (d2.2.setPort p fun s =>
    { s with link := .trainT2, t2Root := c.root, ownKeep := keep, nonce := d1.1 % 65536, epoch := epoch, gotBase := false }).phase p 2

/-- Lane index of a pair engine before any pair is dropped (`IF_LANE`). -/
def laneIndex (p e : Nat) : Nat := e - p

/-- A pair is kept when this end has converged on it and the partner has too (R73). -/
def Chip.pairKept (c : Chip) (p e : Nat) : Bool :=
  let s := c.port p
  s.ownKeep.testBit (laneIndex p e) && (c.pe e).ifLane.isSome && s.ifKeep.testBit (laneIndex p e)

/-- A pair engine is dropped from its port: `DROPPED`, adaptation stops with a last write-back (R109), precoder updates are
abandoned (R106), its retained coefficients become invalid, and its neighbours' slots follow (R50, R73, R77). -/
def Chip.dropPe (c : Chip) (e : Nat) : Chip :=
  let n := b2n (c.pe e).preIn.isSome + b2n (c.pe e).preOut.isSome
  let c := c.add .PE_PRECODER_ABANDONED e n
  let c := c.setPe e fun s =>
    { s.writeBack with dropped := true, preIn := none, preOut := none, preSend := [], adapting := false, msgOut := none }
  ((c.setBit .PE_LANE_STATUS e 2 true).invalidate e).ancPeDown e

/-- Pair engines in the order of the partner's lanes on them (R45, R73, R74). -/
def Chip.byPartner (c : Chip) (l : List Nat) : List Nat :=
  (List.range 4).flatMap fun k => l.filter fun e => (c.pe e).ifLane = some k

/-- The receiver deals the partner's stream over these pair engines, in the order of the partner's lanes; `PE_RX_LANE` shows the
partner's lane index as renumbered (R45, R73). -/
def Chip.setRxLanes (c : Chip) (p : Nat) (l : List Nat) : Chip :=
  let c := c.setPort p fun s => { s with rxLanes := l }
  c.each l.zipIdx fun c x => c.wr .PE_RX_LANE x.1 (x.2 + 128 * b2n (c.rdBit .PE_TRAIN_STATUS 2 x.1))

/-- Precoder taps received as segments go to the store of the transmitter that uses them (R101). -/
def Chip.takeSegments (c : Chip) (e : Nat) : Chip :=
  c.each (c.pe e).segs fun c sg =>
    c.setPe e fun s => (List.range 8).foldl
      (fun a k => a.putWord (0x90 + 8 * sg.1 + k) (bits sg.2 (127 - 16 * k) (112 - 16 * k))) s

/-- `TRAIN_T2` ends and `TRAIN_T3` begins: pairs not kept are dropped where downshift is permitted at both ends, else the training
fails; segments are taken, the partner's lanes are mapped by `IF_LANE`, the countdown starts (R71 to R74). -/
def Chip.toT3 (c : Chip) (p : Nat) : Chip :=
  let keep := (c.port p).lanes.filter fun e => c.pairKept p e
  let gone := (c.port p).lanes.filter fun e => !c.pairKept p e
  if keep.length < c.rd .PORT_MIN_PAIRS p || keep.isEmpty then c.trainFail p 0x04
  else if !gone.isEmpty && !(c.port p).downshiftAgreed then c.trainFail p 0x0C
  else
    let c := c.each gone fun c e => c.dropPe e
    let c := if (c.port p).fast then c else c.each keep fun c e => c.takeSegments e
    let c := c.setPort p fun s => { s with link := .trainT3, lanes := keep, pam16 := false, t3Root := c.root }
    let c := c.each keep fun c e => c.setPe e PeSt.window
    (c.setRxLanes p (c.byPartner keep)).phase p 3

/-- Both ends acknowledge: `TRAIN_T2` is left (Table 3-7). -/
def Chip.tryT3 (c : Chip) (p : Nat) : Chip :=
  let s := c.port p
  let held := s.lanes.all fun e =>
    !s.ownKeep.testBit (laneIndex p e) || ((c.pe e).gotIf && (c.pe e).segs.length = (c.pe e).segCount)
  let c := c.setPort p fun s => { s with ackSent := s.gotBase && held }
  if held && s.gotBase && s.ifAck then c.toT3 p else c

/-- A countdown frame of the partner with `IF_COUNT` = `n` ends now: its first codeword, with `SEQ` 0, comes `n` frames later. An
end that loses frames counts forward from the last one it received (R72). The descramblers load the partner's seeds, learned in
`TRAIN_T2` (R37). -/
def Chip.takeCountdown (c : Chip) (p n : Nat) : Chip :=
  let c := c.setPort p fun s => { s with rxAt := some (c.root + n * c.frameEdges p) }
  c.each (c.port p).rxLanes fun c e =>
    (c.setPe e fun x => { x with rxScr := BitVec.ofNat 58 x.ifSeed, rxSeq := 0, mgmtWords := [], mgmtOk := true }).wr
      .PE_LANE_STATUS e 1

/-- What a base infofield says is kept (Table 3-5). -/
def Chip.storeBase (c : Chip) (p e : Nat) (v : BitVec 160) : Chip :=
  let inv := c.rdBit .PE_TRAIN_STATUS 2 e
  let lane := ifField v 140 139
  let c := c.setPe e fun x =>
    { x with ifLane := some lane, ifSeed := ifField v 121 64, ifClass := ifField v 129 122, gotIf := true,
             segCount := ifField v 35 28, segsNew := [] }
  let c := c.wr .PE_RX_SCR_SEED e (ifField v 121 64)
  let c := c.wr .PE_RX_LANE e (lane + 128 * b2n inv)
  c.setPort p fun s =>
    { s with gotBase := true, ifMode := ifField v 151 144, ifNonce := ifField v 51 36, ifEpoch := ifField v 63 52,
             ifKeep := ifField v 137 134, ifWidth := ifField v 143 141, ifDownshift := (ifField v 138 138 = 1),
             ifAck := (ifField v 153 153 = 1),
             downshiftAgreed := (ifField v 138 138 = 1) && c.rdBool .PORT_PAIR_DOWNSHIFT p }

/-- A base infofield is taken on pair engine `e` of port `p` in `TRAIN_T2` (R66 to R70, R74, R78). -/
def Chip.takeBase (c : Chip) (p e : Nat) (v : BitVec 160) : Chip :=
  let s := c.port p
  let c := c.storeBase p e v
  let agreed := (c.port p).downshiftAgreed
  if s.fast && (ifField v 152 152 = 0 || ifField v 63 52 ≠ s.epoch) then c.fastFail p 0x0F
  else if !agreed && ifField v 143 141 ≠ c.width p then c.trainFail p 0x0E
  else if !agreed && !(s.lanes.all fun x => s.ownKeep.testBit (laneIndex p x)) then c.trainFail p 0x0C
  else if ifField v 51 36 = s.nonce then
    let d := c.draw
    (d.2.setPort p fun s => { s with nonce := d.1 % 65536 })
  else c.tryT3 p

/-- Data of a segment infofield are taken: they make a complete cycle when every index from 0 to `IF_PRE_SEGS` − 1 has come since
the cycle began (R101); an index that is not below `IF_PRE_SEGS` is ignored. -/
def PeSt.takeSeg (x : PeSt) (k d : Nat) : PeSt :=
  if k ≥ x.segCount then x
  else
    let t := if (x.segsNew.get? k).isSome then ([(k, d)] : Tab Nat Nat) else x.segsNew.put k d
    if t.length = x.segCount then { x with segsNew := t, segs := t } else { x with segsNew := t }

/-- Switch point of an own announcement (R48): the number of a codeword 64 to 128 after the message's first; `pick` is the choice. -/
def switchPoint (cw pick : Nat) : Nat := cw + 64 + pick % 65

/-- `KEEP` of an own message: each pair named by the lane index that the partner transmits on it (R48). -/
def Chip.keepOut (c : Chip) (p : Nat) (keep : List Nat) : Nat :=
  (c.port p).rxLanes.zipIdx.foldl (fun a x => if keep.contains x.1 then a ||| 2 ^ x.2 else a) 0

/-- Pairs that a received `KEEP` names, by the lane index that this end transmits (R48). -/
def Chip.keepIn (c : Chip) (p keep : Nat) : List Nat :=
  ((c.port p).lanes.zipIdx.filter fun x => keep.testBit x.2).map fun x => x.1

/-- One end's request to drop pairs (R48): a new number, the kept pairs and the switch point, in `MC_PAIR_DROP_REQ` on every lane. -/
def Chip.requestDrop (c : Chip) (p : Nat) (keep : List Nat) (pick : Nat) : Chip :=
  let cw := switchPoint (c.msgCw p (c.port p).outDrop.length) pick
  let id := ((c.port p).reqId + 1) % 256
  let msg := pairDropMsg false id (c.keepOut p keep) (cw % 256)
  c.setPort p fun s =>
    { s with dropReq := some ⟨id, keep, cw % 256, cw⟩, reqId := id, dropAcked := false, outDrop := s.outDrop ++ [msg] }

/-- The kept pairs of every announced switch shrink to those of a further set (R49: both ends use the intersection of all sets). -/
def PortSt.intersect (s : PortSt) (keep : List Nat) : PortSt :=
  let f := fun r : DropReq => { r with keep := r.keep.filter fun e => keep.contains e }
  { s with dropReq := s.dropReq.map f, dropAns := s.dropAns.map f, partnerDrop := s.partnerDrop.map f,
           partnerAns := s.partnerAns.map f }

/-- Pairs that stay once every announced switch has been made. -/
def PortSt.kept (s : PortSt) : List Nat :=
  [s.dropReq, s.dropAns, s.partnerDrop, s.partnerAns].foldl
    (fun l r => match r with
      | some x => l.filter fun e => x.keep.contains e
      | none => l) s.lanes

/-- The link goes down, or in training the training fails, with a cause. -/
def Chip.goDown (c : Chip) (p cause : Nat) : Chip := if c.up p then c.linkDown p cause else c.trainFail p cause

/-- Lanes of a port that have met a criterion are removed together in one request, or the link goes down (R47, R49, R80). -/
def Chip.lanesFail (c : Chip) (p : Nat) (bad : List Nat) (cause pick : Nat) : Chip :=
  let s := c.port p
  match s.mode with
  | none => c
  | some m =>
    let keep := s.kept.filter fun e => !bad.contains e
    if !m.isW || !s.downshiftAgreed || keep.isEmpty then c.goDown p cause
    else if keep.length < c.rd .PORT_MIN_PAIRS p then c.goDown p 0x04
    else if keep = s.kept then c
    else c.requestDrop p keep pick

/-- Dealing changes to the kept lanes (R50). -/
def Chip.switchLanes (c : Chip) (p : Nat) (keep : List Nat) : Chip :=
  let gone := (c.port p).lanes.filter fun e => !keep.contains e
  let c := c.each gone fun c e => c.dropPe e
  let c := c.setPort p fun s => { s with lanes := s.lanes.filter fun e => keep.contains e }
  if gone.isEmpty then c else c.raise .pairDropped (Cls.port.addr p) (gone.foldl (fun a e => a + 2 ^ (e % 4)) 0)

/-- A write of `PORT_MODE`, `PORT_ABILITY` or `TRAIN_RESTART` 1 or 3 restarts the link (R85): `LINK_DISABLED` and
`LINK_HELD` stay, every other state goes to `LINK_BREAK` with cause `SOFTWARE`. A port that is enabled and only waits there for its
tile's level starts anew by what was written. -/
def Chip.softRestart (c : Chip) (p : Nat) : Chip :=
  let waits := (c.port p).waitLevel
  match (c.port p).link with
  | .disabled =>
    if waits then (c.setPort p fun s => { s with waitLevel := false, waitFast := false }).startLink p else c
  | .held =>
    let c := c.setPort p fun s => { s with noFast := true, waitLevel := false, waitFast := false }
    if waits then c.startLink p else c
  | .up => c.linkDown p 0x08 true
  | _ => (c.setCause p 0x08).toBreak p true

/-- The ceiling returns to none (R83). -/
def Chip.ceilingReset (c : Chip) (p : Nat) : Chip := c.wr .DOWNSHIFT_CEILING p 0xFF

/-- The retained coefficients of every pair of a port become invalid (R77). -/
def Chip.invalidatePort (c : Chip) (p : Nat) : Chip := c.each (c.pesOf p) fun c e => c.invalidate e

/-- Effect of a change of `PORT_MODE` (R77, R83, R85); the value has been checked. -/
def Chip.applyPortMode (c : Chip) (p v : Nat) : Chip :=
  (((c.wr .PORT_MODE p v).invalidatePort p).ceilingReset p).softRestart p

/-- A write of `PORT_MODE`: its range and state rules (Table 2-3, R27), then its effect. An unformed port has neither width nor
mode to judge; its value is kept for a later formation (R30). -/
def Chip.writePortMode (c : Chip) (p v : Nat) : Abort × Chip :=
  if v = 0 then (.ok, c.applyPortMode p 0)
  else match LineMode.ofCode v with
    | none => (.range, c)
    | some m =>
      if c.width p = 0 || (m.runsOn (c.width p) && c.levelAllows (tileOf p) m) then (.ok, c.applyPortMode p v) else (.state, c)

/-- Effect of a write of `PORT_ABILITY` (R83, R85). -/
def Chip.applyPortAbility (c : Chip) (p v : Nat) : Chip :=
  (((c.wr .PORT_ABILITY p (v &&& 0x77F)).ceilingReset p).softRestart p).undersizedEval p

/-- An enabled port in `LINK_DISABLED` starts: not before the configuration is applied and its pair engines are calibrated
(R365, R366); in `LINK_HELD` while its tile does not run (R343). -/
def Chip.startEnabled (c : Chip) (p : Nat) : Chip :=
  if !c.cfgApplied || !c.calReady p then c
  else if c.tileRuns (tileOf p) then c.startLink p
  else ((c.setCause p 0x09).setPort p fun s => { s with link := .held, noFast := false }).sealPort p

/-- Effect of a write of `PORT_ENABLE` (R83, R84, R85): a moved host mapping returns when the port becomes enabled (R184); a port whose pair engines are not
all calibrated stays disabled until they are (R365, R366). -/
def Chip.applyPortEnable (c : Chip) (p : Nat) (v : Bool) : Chip :=
  let was := c.rdBool .PORT_ENABLE p
  let c := (c.wrBool .PORT_ENABLE p v).ceilingReset p
  if c.width p = 0 then c
  else if v then
    let c := if was then c else c.mapReturn p
    if (c.port p).link ≠ .disabled then c else (c.tdrAbort p).startEnabled p
  else ((c.leave p).setLink p .disabled)

/-- The legacy gates of a port's tile and host lane group are on (Table 14-2, R335). -/
def Chip.gatesOn (c : Chip) (p : Nat) : Bool :=
  c.rdBit .LEGACY_GATE (16 + tileOf p) && c.rdBit .LEGACY_GATE (8 + quadOf p / 16) && c.rdBit .LEGACY_GATE 3

/-- A write of `PORT_ENABLE`: enabling a port of a gated tile, host lane group or scheduler is refused (R335). -/
def Chip.writePortEnable (c : Chip) (p v : Nat) : Abort × Chip :=
  if v > 1 then (.range, c)
  else if v = 1 && !c.gatesOn p then (.state, c)
  else (.ok, c.applyPortEnable p (v = 1))

/-- Effect of a change of formation (R30, R77, R135, R181): the new ports, the default host mapping, slots that become
unlawful cleared. The quad's ports are disabled. A port that the formation newly forms may have `PORT_ENABLE` true, by its default or
a kept write; Table 3-10 starts a port when `PORT_ENABLE` becomes true, and the rules do not say that such a port starts: the model
leaves it in `LINK_DISABLED` until `PORT_ENABLE` is written (DESIGN CHOICE, log entry 81). -/
def Chip.applyFormation (c : Chip) (q v : Nat) : Chip :=
  let c := c.each (List.range 4) fun c k => c.invalidate (4 * q + k)
  let c := c.wr .QUAD_FORMATION q v
  let c := c.each (List.range 4) fun c k =>
    let p := 4 * q + k
    let c := c.setPort p fun _ => {}
    let c := (c.clr .HL_MAP p 0).clr .HL_ENTRIES p 0
    c.setPe p fun s => { s with dropped := false, ifLane := none }
  (c.hostMapReset q).ancFormation q

/-- A write of `QUAD_FORMATION` (R30, Table 2-3). -/
def Chip.writeFormation (c : Chip) (q v : Nat) : Abort × Chip :=
  if v > 2 then (.range, c)
  else if (c.portsOfQuad q).any fun p => c.rdBool .PORT_ENABLE p then (.state, c)
  else (.ok, c.applyFormation q v)

/-- A write of `TRAIN_RESTART` (Table 3-12, R78, R85); value 0 does nothing (R308). -/
def Chip.writeTrainRestart (c : Chip) (p v : Nat) : Abort × Chip :=
  if v = 0 then (.ok, c)
  else if v > 3 then (.range, c)
  else if (c.port p).link = .disabled then (.state, c)
  else if v = 1 then (.ok, ((c.invalidatePort p).ceilingReset p).softRestart p)
  else if v = 3 then (.ok, (c.ceilingReset p).softRestart p)
  else match (c.port p).mode with
    | some m =>
      if c.up p && m.isW && c.holdsRetained p m && c.rdBool .FAST_RETRAIN_ENABLE p then
        let c := (c.setCause p 0x08).raise .linkDown (Cls.port.addr p) 0x08
        (.ok, (c.sealPort p).begin_ p m true)
      else (.state, c)
    | none => (.state, c)

end Sys2Proof.Machine
end

