-- ==== Sys2Proof/Machine/Lanes.lean ====
section
/-!
DEFINITION. The pair lane in service (chapters 2 and 4): received codewords, link-down criteria, pair drop, precoder
updates, the coefficient store's refresh and write-back, and captures.
-/
set_option Elab.async false
namespace Sys2Proof.Machine

/-- The partner's codewords come in on the pair engine: it is a lane that the receiver deals (R48), in `LINK_UP` or once the partner's
countdown has ended (R72). -/
def Chip.laneLive (c : Chip) (e : Nat) : Bool :=
  let s := c.port (c.portOf e)
  (s.link = .up || (s.link = .trainT3 && s.rxAt.any fun r => r ≤ c.root)) && s.rxLanes.contains e
    && (match s.mode with
        | some m => m.isW
        | none => false)

/-- Iteration limit in force (R107): 0, and any value above the mode's maximum, act as the maximum. -/
def Chip.iterLimit (c : Chip) (e : Nat) : Nat :=
  match (c.port (c.portOf e)).mode with
  | some m =>
    let l := c.rd .PE_LDPC_ITER_LIMIT e
    if l = 0 then m.iterMax else min l m.iterMax
  | none => 0

/-- The 25 blocks of descrambled block bits (R33, R34). -/
def blocksOf (l : List Bool) : List RxBlock :=
  (List.range 25).map fun j => .data (BitVec.ofNat 65 (bitsNat ((l.drop (65 * j)).take 65)))

/-- An error block: a control block of type 0x1E with eight /E/ characters of seven bits, 0x1E each, in Clause 49 transmission order, the
type octet first (R33, R44). -/
def errorBlock : BitVec 65 :=
  BitVec.ofNat 65 (1 + 2 * 0x1E + 2 ^ 9 * (List.range 8).foldl (fun a k => a + 0x1E * 2 ^ (7 * k)) 0)

/-- 25 error blocks (Table 2-10). -/
def errorBlocks : List RxBlock := List.replicate 25 .error

/-- What a codeword yields (R37, R44): whether it converged, whether its `AUX_CRC` matches, the `SEQ` used, the block bits
and the descrambler state after it. -/
structure CwResult where
  converged : Bool
  auxOk : Bool
  seq : Nat
  blockBits : List Bool
  scr : BitVec 58

/-- Decode a codeword as the decoder left it (R37, R44). The descrambler reloads the partner's seed at `SEQ` 0. -/
def decodeCw (cw : Codeword) (ok : Bool) (scr seed : BitVec 58) (expected : Nat) : CwResult :=
  let conv := ok && ldpcOk cw
  let load := fun q : Nat => if q = 0 then seed else scr
  let rx := cwSeq cw
  let r := scramble (load rx) (cwBits cw 0 1625)
  if conv && auxCrc r.1 = cwAux cw then ⟨true, true, rx, r.1, r.2⟩
  else
    let r' := scramble (load expected) (cwBits cw 0 1625)
    ⟨conv, false, expected, [], r'.2⟩

/-- The management channel takes the 16 bits of a codeword, or learns that the message is spoiled (R38, R39). -/
def Chip.mgmtTake (c : Chip) (e seq : Nat) (w : BitVec 16) (ok : Bool) : Chip :=
  let c := if seq % 8 = 0 then c.setPe e fun s => { s with mgmtWords := [], mgmtOk := true } else c
  let c := c.setPe e fun s => { s with mgmtWords := s.mgmtWords ++ [w], mgmtOk := s.mgmtOk && ok }
  if seq % 8 ≠ 7 then c
  else
    let s := c.pe e
    let m := mgmtMsg s.mgmtWords
    if s.mgmtOk && s.mgmtWords.length = 8 && mgmtCheck m then c.setPe e fun s => { s with msgIn := some m }
    else c.inc .MGMT_DISCARD e

/-- `SEQ` that the port expects, from a lane that is aligned: its next codeword (R46). -/
def Chip.portSeq (c : Chip) (e : Nat) : Option Nat :=
  (((c.port (c.portOf e)).rxLanes.filter fun x => x != e && !c.rdBit .PE_LANE_STATUS 1 x).head?).map fun x => (c.pe x).rxSeq

/-- A realigning lane is aligned again when its codeword lies within one codeword, the skew that R46 corrects, of what the port's
aligned lanes expect; where no lane is aligned, when a codeword follows the one before it (DESIGN CHOICE, log entry 15). -/
def Chip.rejoins (c : Chip) (e rx : Nat) : Bool :=
  match c.portSeq e with
  | some q => (rx + 257 - q) % 256 ≤ 2
  | none => rx = (c.pe e).rxSeq

/-- Alignment of a lane by `SEQ` (R46): four mismatches with the port's expected value in a row lose it, and a lane that realigns takes
the received value. -/
def Chip.alignTake (c : Chip) (e rx : Nat) : Chip :=
  let s := c.pe e
  if c.rdBit .PE_LANE_STATUS 1 e then
    let c := if c.rejoins e rx then (c.setBit .PE_LANE_STATUS e 1 false).setBit .PE_LANE_STATUS e 0 true else c
    c.setPe e fun s => { s with seqMiss := 0, rxSeq := (rx + 1) % 256 }
  else if rx = s.rxSeq then c.setPe e fun s => { s with seqMiss := 0, rxSeq := (rx + 1) % 256 }
  else if s.seqMiss + 1 < 4 then c.setPe e fun s => { s with seqMiss := s.seqMiss + 1, rxSeq := (s.rxSeq + 1) % 256 }
  else
    let c := ((c.setBit .PE_LANE_STATUS e 0 false).setBit .PE_LANE_STATUS e 1 true).setBit .PE_LANE_STATUS e 3 true
    (c.setPe e fun s => { s with seqMiss := 0, rxSeq := (rx + 1) % 256 }).inc .REALIGN_COUNT e

/-- RECEIVE_CODEWORD (R44, R46, R50, R170, R171): the decoder's output word, the iterations it took and the bits it changed. A
word whose parity checks fail, or that took more iterations than the limit, has not converged. A lane that this end has dropped, and
that the partner still deals, delivers error blocks. -/
def execReceiveCodeword (e : PeNo) (decoded : BitVec 2048) (iterations corrected : Nat) (s : State) : Out :=
  s.run fun c =>
    if !c.laneLive e then c
    else
      let st := c.pe e
      let seed := BitVec.ofNat 58 (c.rd .PE_RX_SCR_SEED e)
      let r := decodeCw decoded (iterations ≤ c.iterLimit e) st.rxScr seed st.rxSeq
      let c := c.inc .CW_COUNT e
      let c := c.addRow .LDPC_ITER_HIST e (if r.converged then min iterations 16 else 17) 1
      let c := if r.converged then c.add .BITS_CORRECTED e corrected else c.inc .CW_UNCORRECTABLE e
      let c := if r.converged && r.auxOk && corrected > 0 then c.inc .CW_CORRECTED e else c
      let c := if r.converged && !r.auxOk then c.inc .CW_AUXCRC_FAIL e else c
      let c := c.setPe e fun x =>
        { x with uncorrRun := if r.converged then 0 else x.uncorrRun + 1, rxScr := r.scr,
                 auxAt := if r.converged && !r.auxOk then (c.root :: x.auxAt).take 1025 else x.auxAt,
                 t3Bad := x.t3Bad || !r.auxOk }
      let c := if r.auxOk && r.seq = 0 then c.setBit .PE_LANE_STATUS e 3 false else c
      let c := c.mgmtTake e r.seq (cwMgmt decoded) r.auxOk
      let c := if r.auxOk then c.alignTake e r.seq else c.setPe e fun x => { x with rxSeq := (x.rxSeq + 1) % 256 }
      let good := r.auxOk && !c.rdBit .PE_LANE_STATUS 1 e && !(c.pe e).dropped
      c.setPe e fun x => { x with blocks := if good then blocksOf r.blockBits else errorBlocks }

/-- More than `AUXCRC_LIMIT` converged codewords with failing `AUX_CRC` fall within the latest 1 ms (R80). -/
def Chip.auxOver (c : Chip) (e : Nat) : Bool :=
  match (c.pe e).auxAt[c.rd .AUXCRC_LIMIT (c.portOf e)]? with
  | some r => c.root < r + rootUs 1000
  | none => false

/-- A lane meets a link-down criterion (R80). In training Table 3-7 judges the lanes instead, and while the partner's transmitter is in
low-power idle R146 does. -/
def Chip.criterion (c : Chip) (e : Nat) : Bool :=
  let x := c.pe e
  c.up (c.portOf e) && c.laneLive e && !(c.port (c.portOf e)).lpi.partnerQuiet
    && (x.lowWindows ≥ 32 || x.uncorrRun ≥ 16 || c.auxOver e)

/-- A criterion of R80 is met on lane `e`: every lane that now meets one is removed with it (R47). An end that is committed to sleep, or
whose transmitter is in LPI, wakes first, and removes them after the wake (R145). -/
def Chip.lanesJudge (c : Chip) (e cause pick : Nat) : Chip :=
  let p := c.portOf e
  if !c.criterion e then c
  else
    let bad := (c.port p).lanes.filter fun x => c.criterion x
    if (c.port p).lpi.state = .awake then c.lanesFail p bad cause pick
    else (c.setLpi p fun l => { l with failed := bad, failCause := cause }).lpiWakeNow p .other

/-- UNCORRECTABLE_RUN (R47, R80): 16 consecutive uncorrectable codewords. -/
def execUncorrectableRun (e : PeNo) (pick : BitVec 8) (s : State) : Out := s.run fun c =>
  if (c.pe e).uncorrRun ≥ 16 then c.lanesJudge e 0x02 pick.toNat else c

/-- AUXCRC_LIMIT_EXCEEDED (R47, R80): more than `AUXCRC_LIMIT` failures within 1 ms. -/
def execAuxcrcLimitExceeded (e : PeNo) (pick : BitVec 8) (s : State) : Out := s.run fun c =>
  if c.auxOver e then c.lanesJudge e 0x03 pick.toNat else c

/-- Registers of the sections that a window reports are copies of the store's words, to be written back (R109, Table 4-7). -/
def PeSt.copyWindow (x : PeSt) (m : WindowMeas) (freq : Int) : PeSt :=
  if x.adapting then
    let f := ofInt 32 freq
    { x with copies := (((x.copies.put 0x20 m.pga).put 0x30 (m.phase % 65536)).put 0x31 (f / 65536)).put 0x32 (f % 65536) }
  else x

/-- The offset that the timing loop tracks (R100): up to 50 ppm in W modes and 200 ppm in standard modes, in 0.001 ppm. -/
def LineMode.freqRange (m : LineMode) : Int := if m.isW then 50000 else 200000

/-- MARGIN_WINDOW_END (R108): the window's measurements, with the phase in steps of 1/64 symbol and the offset within the loop's range
(R100), the link-quality flags (R172, R173), and the link-down criterion
of 32 consecutive windows below 0 dB (R80). Windows in an LPI quiet period are held (R146, R172). -/
def execMarginWindowEnd (e : PeNo) (m : WindowMeas) (pick : BitVec 8) (s : State) : Out := s.run fun c =>
  let p := c.portOf e
  let st := c.port p
  match st.mode with
  | none => c
  | some md =>
    if !st.lanes.contains e.val || !(st.link = .up || st.link = .trainT3 || st.link = .stdTrain) || c.rxQuiet p then c
    else
      let margin := m.snr - md.refSnr
      let c := c.wrInt .PE_SNR e m.snr
      let c := c.wrInt .PE_MARGIN e margin
      let c := c.wrInt .PE_ECHO_RESIDUAL e m.echo
      let c := c.wr .PE_PGA_GAIN e m.pga
      let phase := m.phase % 65536 / 1024 * 1024
      let freq := max (-md.freqRange) (min md.freqRange m.freq)
      let c := c.wr .PE_TIMING_PHASE e phase
      let c := c.wrInt .PE_FREQ_OFFSET e freq
      let c := c.setPe e fun x =>
        { x.copyWindow { m with phase := phase } freq with
          t3Margin := some (match x.t3Margin with
            | some y => min y margin
            | none => margin) }
      let c := c.wr .PE_LDPC_ITER_MEAN e m.iterMean
      let c := c.wrInt .PE_RX_SKEW e m.skew
      let c := c.ancGains e m.ancGain m.slotGains
      let c := (c.lqWindow p e margin).lpiWindow p e margin
      let low := if margin < 0 then (c.pe e).lowWindows + 1 else 0
      let c := c.setPe e fun x => { x with lowWindows := low }
      if low ≥ 32 && md.isW then c.lanesJudge e 0x01 pick.toNat else c

/-- Body fields of a pair-drop message (Table 2-6): `REQ_ID`, `KEEP`, `SWITCH_SEQ`. -/
def dropFields (m : BitVec 128) : Nat × Nat × Nat :=
  (bits m.toNat 119 112, bits m.toNat 111 108, bits m.toNat 103 96)

/-- A kept set is too small for the port to run on (R49). -/
def Chip.tooFew (c : Chip) (p : Nat) (keep : List Nat) : Bool := keep.isEmpty || keep.length < c.rd .PORT_MIN_PAIRS p

/-- MC_PAIR_DROP_REQ (R39, R48, R49): the first copy that passes its check is acknowledged with the intersection of its set and the own
view of working pairs, and an own switch point; an own request that is outstanding stays, with the intersection. A set below
`PORT_MIN_PAIRS` takes the port down. -/
def execMcPairDropReq (e : PeNo) (msg : BitVec 128) (pick : BitVec 8) (s : State) : Out := s.run fun c =>
  let p := c.portOf e
  let st := c.port p
  let f := dropFields msg
  if !c.laneLive e || !mgmtCheck msg || mgmtType msg ≠ 0x02 || st.lastReqIn = some f.1 then c
  else
    let mine := st.kept.filter fun x => !c.criterion x
    let keep := (c.keepIn p f.2.1).filter fun x => mine.contains x
    let c := c.setPort p fun st => { st with lastReqIn := some f.1 }
    if c.tooFew p keep || !st.downshiftAgreed then c.goDown p 0x04
    else
      let cw := switchPoint (c.msgCw p st.outDrop.length) pick.toNat
      let ack := pairDropMsg true f.1 (c.keepOut p keep) (cw % 256)
      c.setPort p fun st =>
        { st.intersect keep with
          dropAns := some ⟨f.1, keep, cw % 256, cw⟩, partnerDrop := some ⟨f.1, keep, f.2.2, 0⟩,
          outDrop := st.outDrop ++ [ack] }

/-- MC_PAIR_DROP_ACK (R39, R48): the first copy confirms the own request; both ends use the intersection. -/
def execMcPairDropAck (e : PeNo) (msg : BitVec 128) (s : State) : Out := s.run fun c =>
  let p := c.portOf e
  let st := c.port p
  let f := dropFields msg
  match st.dropReq with
  | some r =>
    if !c.laneLive e || !mgmtCheck msg || mgmtType msg ≠ 0x03 || r.id ≠ f.1 || st.dropAcked then c
    else
      let keep := (c.keepIn p f.2.1).filter fun x => r.keep.contains x
      if c.tooFew p keep then c.goDown p 0x04
      else c.setPort p fun st =>
        { st.intersect keep with dropAcked := true, partnerAns := some ⟨f.1, keep, f.2.2, 0⟩ }
  | none => c

/-- Transmit dealing changes to the kept lanes at codeword `cw` (R50); in `TRAIN_T3` the verification window restarts (R73). -/
def Chip.switchTx (c : Chip) (p : Nat) (keep : List Nat) (cw : Nat) : Chip :=
  let old := c.grid p
  let at_ := (c.port p).seqAt + cw * c.frameEdges p
  if (c.port p).lanes.all fun e => keep.contains e then c
  else
    let c := c.switchLanes p keep
    let c := match old with
      | some g => c.redeal p g at_
      | none => c.gridStart p at_
    let c := if c.up p then c else c.each keep fun c e => c.setPe e PeSt.window
    c.lpiReplan p

/-- The own switch that comes next: a request's or an answer's, the one with the lower codeword number, and whether it is the
request's (R48, R49). -/
def PortSt.nextSwitch (s : PortSt) : Option (Bool × DropReq) :=
  match s.dropReq, s.dropAns with
  | some r, some a => some (if r.cw ≤ a.cw then (true, r) else (false, a))
  | some r, none => some (true, r)
  | none, some a => some (false, a)
  | none, none => none

/-- PAIR_DROP_SWITCH (R48, R50): at an own switch codeword dealing changes to the kept lanes, or the link goes down when a request
was not acknowledged; at the partner's switch codeword the receiver's dealing changes. -/
def execPairDropSwitch (p : PortNo) (transmit : Bool) (s : State) : Out := s.run fun c =>
  let st := c.port p
  if !(st.link = .up || st.link = .trainT3) then c
  else if transmit then
    match st.nextSwitch with
    | none => c
    | some (true, r) =>
      if st.dropAcked then
        (c.setPort p fun st => { st with dropReq := none, dropAcked := false }).switchTx p r.keep r.cw
      else c.goDown p 0x05
    | some (false, r) => (c.setPort p fun st => { st with dropAns := none }).switchTx p r.keep r.cw
  else
    let deal := fun (c : Chip) (r : DropReq) => c.setRxLanes p ((c.port p).rxLanes.filter fun e => r.keep.contains e)
    match st.partnerDrop, st.partnerAns with
    | some r, _ => deal (c.setPort p fun st => { st with partnerDrop := none }) r
    | none, some r => deal (c.setPort p fun st => { st with partnerAns := none }) r
    | none, none => c

/-- MC_LANE_STATUS (Table 2-6): the partner's margin and iterations on a lane. -/
def execMcLaneStatus (e : PeNo) (msg : BitVec 128) (s : State) : Out := s.run fun c =>
  if c.laneLive e && mgmtCheck msg && mgmtType msg = 0x01 then
    let m := toInt 16 (bits msg.toNat 111 96)
    c.setPe e fun x =>
      { x with partnerMargin := m, partnerIter := bits msg.toNat 95 88,
               t3Partner := some (match x.t3Partner with
                 | some y => min y m
                 | none => m) }
  else c

/-- MC_PRECODER (R102, R104): a message of an update is collected, or an acknowledgement of an own update is taken. -/
def execMcPrecoder (e : PeNo) (msg : BitVec 128) (s : State) : Out := s.run fun c =>
  let v := msg.toNat
  let id := bits v 119 112
  let first := bits v 111 106
  let sw := bits v 23 16
  match (c.port (c.portOf e)).mode with
  | none => c
  | some m =>
    if !c.laneLive e || !mgmtCheck msg || mgmtType msg ≠ 0x04 then c
    else if first = 0 then
      c.setPe e fun x => { x with preOut := x.preOut.map fun u =>
        if u.id = id && u.switchSeq = sw then { u with acked := true } else u }
    else
      c.setPe e fun x =>
        let u := match x.preIn with
          | some u => if u.id = id then u else ⟨id, sw, []⟩
          | none => ⟨id, sw, []⟩
        let taps := (List.range 5).foldl (fun t k =>
          if first + k ≤ m.preTaps then t.put (first + k) (bits v (103 - 16 * k) (88 - 16 * k)) else t) u.taps
        { x with preIn := some { u with taps := taps } }

/-- Difference of two S2.13 taps in units of 2^-13. -/
def tapDiff (a b : Nat) : Nat := (toInt 16 a - toInt 16 b).natAbs

/-- An update of the partner's taps starts (R102, R103): a new number, the messages to send, and the switch codeword 112 to 192 after
the `SEQ` of the codeword received last; `pick` is the choice. -/
def Chip.startUpdate (c : Chip) (e k : Nat) (taps : List Nat) (pick : Nat) : Chip :=
  c.setPe e fun x =>
    let id := (x.preId + 1) % 256
    { x with preOut := some ⟨id, (x.rxSeq + 255 + 112 + pick % 81) % 256, false⟩, preId := id, newTaps := taps,
             preSend := precoderFirsts k }

/-- Taps have moved by more than 2^-9 from those in use (R103). -/
def tapsMoved (new old : List Nat) : Bool :=
  (List.range new.length).any fun k => tapDiff (new.getD k 0) (old.getD k 0) > 16

/-- PRECODER_UPDATE_START (R103): the computed set, which is complete, differs from the one in use; none is outstanding, and 1 ms has
passed since the switch codeword of the latest. -/
def execPrecoderUpdateStart (e : PeNo) (taps : List (BitVec 16)) (pick : BitVec 8) (s : State) : Out := s.run fun c =>
  let x := c.pe e
  match (c.port (c.portOf e)).mode with
  | none => c
  | some m =>
    let new := taps.map BitVec.toNat
    if !c.up (c.portOf e) || !c.laneLive e || x.dropped || x.preOut.isSome || new.length ≠ m.preTaps || !tapsMoved new x.reqTaps
        || x.preLast.any (fun r => c.root < r + rootUs 1000) then c
    else c.startUpdate e m.preTaps new pick.toNat

/-- The transmitter's side of a switch codeword (R104, R106). -/
def Chip.preApply (c : Chip) (e : Nat) (u : PreIn) (m : LineMode) : Chip :=
  if u.taps.length = m.preTaps && !c.rdBool .PE_COEF_FREEZE e && c.up (c.portOf e) then
    (c.setPe e fun x => { u.taps.foldl (fun a t => a.putWord (0x8F + t.1) t.2) x with preIn := none }).inc
      .PE_PRECODER_APPLIED e
  else (c.setPe e fun x => { x with preIn := none }).inc .PE_PRECODER_ABANDONED e

/-- The requester's side of a switch codeword (R105, R106): it adjusts to an acknowledged update. An update whose messages were not all
sent by then is abandoned, as is one under a freeze; without an acknowledgement a new update follows. That an update given up
without an acknowledgement counts in `PE_PRECODER_ABANDONED` is not stated (DESIGN CHOICE, log entry 85). -/
def Chip.preAdjust (c : Chip) (e : Nat) (u : PreOut) (m : LineMode) : Chip :=
  let x := c.pe e
  let frozen := c.rdBool .PE_COEF_FREEZE e
  let c := c.setPe e fun x => { x with preOut := none, preSend := [], preLast := some c.root }
  if u.acked && !frozen && x.preSend.isEmpty then c.setPe e fun x => { x with reqTaps := x.newTaps }
  else
    let c := c.inc .PE_PRECODER_ABANDONED e
    if u.acked || frozen || !c.up (c.portOf e) then c else c.draw.2.startUpdate e m.preTaps x.newTaps c.draw.1

/-- PRECODER_SWITCH (R104 to R106): at the switch codeword the transmitter applies a complete update, and the requester
adjusts its equaliser to an acknowledged one; otherwise the update is abandoned. -/
def execPrecoderSwitch (e : PeNo) (transmitter : Bool) (s : State) : Out := s.run fun c =>
  match (c.port (c.portOf e)).mode with
  | none => c
  | some m =>
    if transmitter then
      match (c.pe e).preIn with
      | some u => c.preApply e u m
      | none => c
    else
      match (c.pe e).preOut with
      | some u => c.preAdjust e u m
      | none => c

/-- The store of a pair engine is refreshed: not that of one marked unusable, nor in an isolated tile, nor in `OFF` (R96,
R111). -/
def Chip.refreshed (c : Chip) (e : Nat) : Bool :=
  c.rd .BIST_STATE_PE e != 2 && c.storePowered (tileOf e)

/-- STORE_REFRESH (R111, R112). -/
def execStoreRefresh (e : PeNo) (row : Fin 2048) (found : RowFound) (s : State) : Out := s.run fun c =>
  if !c.refreshed e then c
  else match found with
    | .clean => c
    | .corrected => c.inc .PE_STORE_SEC_COUNT e
    | .uncorrectable => (c.refreshFail e row true).lpiStoreFail (c.portOf e) e
    | .overdue => (c.refreshFail e row false).lpiStoreFail (c.portOf e) e

/-- REFRESH_SLOW_RETURN (R111): after 1 s at or below 83 °C the tile's stores return to the 256 µs interval. -/
def execRefreshSlowReturn (t : TileNo) (s : State) : Out := s.run fun c =>
  if c.rdInt .TILE_TEMP t ≤ 83 * 16 then
    c.each (List.range 32) fun c k => c.setBit .PE_STORE_STATUS (32 * t.val + k) 0 false
  else c

/-- Words that adaptation changes (R98, Table 4-7): the analogue replica, the PGA, timing recovery, the FFE, the DFE and the
cancellers, and in training the two front-end words that describe the channel (R364). -/
def adaptedWord (training : Bool) (w : Nat) : Bool :=
  (0x10 ≤ w && w < 0x21) || (training && (w = 0x21 || w = 0x22)) || (0x30 ≤ w && w < 0x33) || (0x40 ≤ w && w < 0x90)
    || (0x100 ≤ w && w < 0x1700)

/-- Adaptation may change a word of a pair engine now (R98, R90, R109): it runs, and is not frozen; the mode uses the word; in a
low-power-idle phase the section's signal is there (R146); an alien-NEXT slot adapts by chapter 5. That the pause for an element
under calibration touches no word of the store is chapter 15's: its correction is no coefficient. -/
def Chip.adaptsWord (c : Chip) (e w : Nat) : Bool :=
  let p := c.portOf e
  match (c.port p).mode with
  | none => false
  | some m =>
    (c.pe e).adapting && !c.rdBool .PE_COEF_FREEZE e && adaptedWord ((c.port p).link.training) w
      && m.usesWord (c.width p) w && c.lpiAdapts p w
      && (!(0x700 ≤ w && w < 0xB00) || c.slotAdapts e ((w - 0x700) / 0x80))

/-- COEF_WRITEBACK (R98, R109): the words that adaptation has changed; the sections that run from register copies are written back, and
the cancellers write the store itself. -/
def execCoefWriteback (e : PeNo) (words : List (BitVec 13 × BitVec 16)) (s : State) : Out := s.run fun c =>
  if !(c.pe e).adapting || c.rdBool .PE_COEF_FREEZE e then c
  else
    let l := (words.map fun w => (w.1.toNat, w.2.toNat)).filter fun w : Nat × Nat => c.adaptsWord e w.1
    let regs := l.filter fun w : Nat × Nat => copiedWord w.1
    let taps := l.filter fun w : Nat × Nat => !copiedWord w.1
    c.setPe e fun x =>
      let x := { x with copies := regs.foldl (fun (t : Tab Nat Nat) (w : Nat × Nat) => t.put w.1 w.2) x.copies }
      taps.foldl (fun a (w : Nat × Nat) => a.putWord w.1 w.2) x.writeBack

/-- A write of `PE_COEF_FREEZE` (R115): allowed only in `LINK_UP`; adaptation pauses, after a last write-back (R109), or resumes. -/
def Chip.writeFreeze (c : Chip) (e v : Nat) : Abort × Chip :=
  if v > 1 then (.range, c)
  else if !c.up (c.portOf e) then (.state, c)
  else
    let c := c.wr .PE_COEF_FREEZE e v
    (.ok, c.setPe e fun x => { x.writeBack with adapting := v = 0 && (c.port (c.portOf e)).lanes.contains e })

/-- PE_COEF_FREEZE_WRITE (R115). -/
def execPeCoefFreezeWrite (e : PeNo) (v : BitVec 8) (s : State) : Out :=
  s.runWr fun c => c.gated .PE_COEF_FREEZE e fun c => c.writeFreeze e v.toNat

/-- COEF_FREEZE_EXPIRE (R115): after 10 ms the freeze ends. -/
def execCoefFreezeExpire (e : PeNo) (s : State) : Out := s.run fun c =>
  if c.rdBool .PE_COEF_FREEZE e then
    let c := c.wr .PE_COEF_FREEZE e 0
    c.setPe e fun x => { x with adapting := (c.port (c.portOf e)).lanes.contains e }
  else c

/-- A write of `PE_CAPTURE_TRIGGER` (R117): refused outside `TRAIN_T1` to `LINK_UP`, and while a capture runs. -/
def Chip.writeCapture (c : Chip) (e v : Nat) : Abort × Chip :=
  if v = 0 then (.ok, c)
  else if v > 2 then (.range, c)
  else
    let l := (c.port (c.portOf e)).link
    if !(l = .trainT1 || l = .trainT2 || l = .trainT3 || l = .up) then (.state, c)
    else if (c.pe e).capturing.isSome then (.busy, c)
    else (.ok, c.setPe e fun x => { x with capturing := some v })

/-- CAPTURE_EQUALISED (R117). -/
def execCaptureEqualised (e : PeNo) (s : State) : Out :=
  s.runWr fun c => c.gated .PE_CAPTURE_TRIGGER e fun c => c.writeCapture e 1

/-- CAPTURE_RAW (R117). -/
def execCaptureRaw (e : PeNo) (s : State) : Out :=
  s.runWr fun c => c.gated .PE_CAPTURE_TRIGGER e fun c => c.writeCapture e 2

/-- CAPTURE_DONE (R117): 1,024 samples; a raw sample is an 8-bit code, sign-extended (Table 4-8). -/
def execCaptureDone (e : PeNo) (samples : List (BitVec 16)) (s : State) : Out := s.run fun c =>
  match (c.pe e).capturing with
  | none => c
  | some k =>
    let c := c.setPe e fun x => { x with capturing := none }
    c.each (List.range 1024) fun c i =>
      let v := (samples.getD i 0).toNat
      c.wrRow .PE_CAPTURE e i (if k = 2 then ofInt 16 (toInt 8 (v % 256)) else v)

end Sys2Proof.Machine
end

