-- ==== Sys2Proof/Machine/LinkEvents.lean ====
section
/-!
DEFINITION. The meanings of the events and writes of negotiation, training and link state (chapter 3) and of port
formation (chapter 2). An event whose condition the state does not meet leaves the state unchanged.
-/
set_option Elab.async false
namespace Sys2Proof.Machine

/-- BASE_PAGES_EXCHANGED (R56, R58, R60): next pages follow when both ends set Next Page, else resolution. -/
def execBasePagesExchanged (p : PortNo) (pg : BasePage) (s : State) : Out := s.run fun c =>
  let st := c.port p
  if st.link ≠ .anAbility then c
  else
    let ownNp := st.proto = .dme || (c.offers p).any fun m => m ≠ .t100
    let c := (c.wr .AN_PARTNER_ABILITY p (b2n (pg.tx100 && st.proto = .flp))).lpiPartner p false false
    if ownNp && pg.nextPage then c.setLink p .anNextPage
    else c.resolve p (b2n (pg.tx100 && st.proto = .flp)) 0

/-- OUI and `WA` that the partner's pages carry (Table 3-3, R60). -/
def WPages.oui : WPages → Nat
  | .none => 0
  | .up a b d _ => a.toNat * 2 ^ 13 + b.toNat * 2 ^ 2 + bits d.toNat 10 9
  | .dme m _ => bits m.toNat 31 8

@[inherit_doc WPages.oui]
def WPages.wa : WPages → Nat
  | .none => 0
  | .up _ _ d e => bits d.toNat 8 0 * 2 ^ 11 + e.toNat
  | .dme _ u => bits u.toNat 19 0

/-- The pages carry the device's OUI (R61). -/
def WPages.ours (w : WPages) : Bool := w != .none && w.oui = Config.vendorOui.toNat

/-- Modes that the partner offers by its pages, in the bit layout of `PORT_ABILITY` (R61): W modes only when the OUI is ours and
`WA_VERSION` is not 0b00. -/
def NextPages.offered (np : NextPages) (flp : Bool) (base : Nat) : Nat :=
  let wa := np.w.wa
  base % 2 ||| (if flp then (np.std.toNat / 2) * 2 else 0)
    ||| (if np.w.ours && bits wa 19 18 != 0 then
          bits wa 17 17 * 2 ^ 10 + bits wa 16 16 * 2 ^ 9 + bits wa 15 15 * 2 ^ 8 else 0)

/-- NEXT_PAGES_DONE (R58 to R63): what the partner offers is recorded, and the mode is resolved. -/
def execNextPagesDone (p : PortNo) (np : NextPages) (s : State) : Out := s.run fun c =>
  if (c.port p).link ≠ .anNextPage then c
  else
    let wa := np.w.wa
    let w := np.w.ours && bits wa 19 18 != 0
    let partner := np.offered ((c.port p).proto = .flp) (c.rd .AN_PARTNER_ABILITY p)
    let c := c.wr .AN_PARTNER_WA p (if np.w.ours then wa else 0)
    let c := c.setBit .AN_STATUS p 3 w
    let c := c.setBit .AN_STATUS p 4 (w && bits wa 13 13 = 1)
    let c := c.setBit .AN_STATUS p 5 (w && bits wa 11 0 != 0 && bits wa 11 0 = c.heldEpoch p)
    let c := c.lpiPartner p (w && bits wa 14 14 = 1) np.eee
    c.resolve p partner (msResolve (c.rd .MS_CONFIG p) np.ms.val np.seed)

/-- FLP_DETECTED (R56): a 2-pair port that sends DME continues under Clause 28. -/
def execFlpDetected (p : PortNo) (s : State) : Out := s.run fun c =>
  let ab := c.rd .PORT_ABILITY p
  if (c.port p).link = .anAbility && c.width p = 2 && (c.port p).proto = .dme && ((ab &&& 0x701) != 0) then
    (c.setPort p fun st => { st with proto := .flp }).setBit .AN_STATUS p 2 false
  else c

/-- PARALLEL_DETECT (R57): 100BASE-TX by parallel detection, full duplex. -/
def execParallelDetect (p : PortNo) (s : State) : Out := s.run fun c =>
  if (c.port p).link = .anAbility && c.mayRun p .t100 then
    let c := c.setBit .AN_STATUS p 1 true
    (((c.wr .AN_PARTNER_ABILITY p 1).wr .MS_RESULT p 0).lpiPartner p false false).beginStd p .t100
  else c

/-- `TRAIN_T1` begins: training frames start (R65), and adaptation resumes. -/
def Chip.enterT1 (c : Chip) (p : Nat) : Chip :=
  let c := c.setPort p fun s => { s with link := .trainT1, t1Root := c.root }
  ((c.resumeAll (c.port p).lanes).phase p 1).ancPortDrives p

/-- T0_TIMER_END (R71, R75, R76): the class is decided and gated, the source chosen, and `TRAIN_T1` begins. -/
def execT0TimerEnd (p : PortNo) (r : T0Probe) (s : State) : Out := s.run fun c =>
  match (c.port p).link, (c.port p).mode with
  | .trainT0, some m =>
    if (c.port p).fast then
      (c.each (c.port p).lanes fun c e => c.feTrims e).enterT1 p
    else
      let c := c.classDecision p r
      let cls := c.rd .TRAIN_CLASS p
      if c.rdBool .TRAIN_CLASS_GATE p && !classAllows cls m then c.trainFail p 0x0B
      else
        let bad := fun e : Nat => r.badStored.toNat.testBit (laneIndex p e)
        let c := c.each (c.port p).lanes fun c e => c.checkStored e (bad e)
        let hit := (c.port p).lanes.all fun e => c.storedFits e m cls (bad e)
        let src := if hit then 2 else 3
        let c := c.wr .TRAIN_SOURCE p src
        let c := c.invalidatePort p
        (c.each (c.port p).lanes fun c e => c.loadInitial e m cls hit).enterT1 p
  | _, _ => c

/-- Mark pairs of a port in `PE_TRAIN_STATUS` from a map of its pair positions. -/
def Chip.markPairs (c : Chip) (p b map : Nat) : Chip :=
  c.each (c.port p).lanes fun c e => if map.testBit (laneIndex p e) then c.setBit .PE_TRAIN_STATUS e b true else c

/-- The partner's frequency offset is one that the loop tracks in W modes (R100). -/
def T1Meas.tracked (m : T1Meas) : Bool := m.freq.natAbs ≤ 50000

/-- The measurement of a pair of a port, by its position. -/
def measOf (meas : List T1Meas) (p e : Nat) : T1Meas := meas.getD (laneIndex p e) ⟨0, []⟩

/-- What `TRAIN_T1` has found of the pairs of `mask` is kept: `T1_DONE`, the offset, and in a full training the taps that the partner's
transmitter is sent (R101, R103). -/
def Chip.t1Done (c : Chip) (p mask : Nat) (meas : List T1Meas) : Chip :=
  let c := c.markPairs p 0 mask
  c.each ((c.port p).lanes.filter fun e => mask.testBit (laneIndex p e)) fun c e =>
    let m := measOf meas p e
    let c := c.wrInt .PE_FREQ_OFFSET e m.freq
    if (c.port p).fast then c
    else c.setPe e fun x => { x with reqTaps := m.taps.map BitVec.toNat, newTaps := m.taps.map BitVec.toNat }

/-- T1_CONVERGED (R434): every pair meets the exit condition of `TRAIN_T1`. A partner outside
the range of R100 does not complete `TRAIN_T1`. -/
def execT1Converged (p : PortNo) (r : T1Result) (s : State) : Out := s.run fun c =>
  let l := (c.port p).lanes
  if (c.port p).link ≠ .trainT1 || !(l.all fun e => (measOf r.meas p e).tracked) then c
  else
    let all := l.foldl (fun a e => a ||| 2 ^ laneIndex p e) 0
    ((c.t1Done p all r.meas).markPairs p 2 r.inverted.toNat).toT2 p all

/-- T1_TIMEOUT (R73, R434): pairs in `conv` have converged. The port goes on with them when downshift is permitted and
enough remain, else the training fails. An end in `TRAIN_T2` without a partner infofield fails. -/
def execT1Timeout (p : PortNo) (conv : BitVec 4) (r : T1Result) (s : State) : Out := s.run fun c =>
  let st := c.port p
  match st.link with
  | .trainT1 =>
    let ok := fun e : Nat => conv.toNat.testBit (laneIndex p e) && (measOf r.meas p e).tracked
    let good := st.lanes.filter ok
    let mask := good.foldl (fun a e => a ||| 2 ^ laneIndex p e) 0
    let bad := st.lanes.foldl (fun a e => if ok e then a else a ||| 2 ^ laneIndex p e) 0
    let c := ((c.t1Done p mask r.meas).markPairs p 2 r.inverted.toNat).markPairs p 3 bad
    if bad = 0 then c.toT2 p mask
    else if !st.fast && c.rdBool .PORT_PAIR_DOWNSHIFT p && good.length ≥ c.rd .PORT_MIN_PAIRS p && !good.isEmpty
    then c.toT2 p mask else c.trainFail p 0x0C
  | .trainT2 => if st.gotBase then c else c.trainFail p 0x0C
  | _ => c

/-- A checked base infofield in `TRAIN_T2` or `TRAIN_T3` (R66 to R74). One of a full training with epoch 0x000 counts as failing its
check (R70), and one with a reserved `IF_PHASE` is ignored (DESIGN CHOICE, log entry 82). -/
def Chip.baseIn (c : Chip) (p e : Nat) (v : BitVec 160) : Chip :=
  let ph := ifField v 155 154
  if ph < 2 || (!(c.port p).fast && ifField v 63 52 = 0) then c
  else
    let c := if (c.port p).link = .trainT2 then c.takeBase p e v else c
    if ph = 3 && (c.port p).link = .trainT3 then c.takeCountdown p (ifField v 133 130) else c

/-- INFOFIELD_RECEIVED (R66 to R72, R101): three copies of an infofield on a pair; the majority is checked and taken. -/
def execInfofieldReceived (e : PeNo) (a b d : BitVec 160) (s : State) : Out := s.run fun c =>
  let p := c.portOf e
  let v := ifMajority a b d
  let st := c.port p
  if !(st.link = .trainT2 || st.link = .trainT3) || !st.lanes.contains e.val || !ifCheck v then c
  else match ifField v 159 156 with
    | 0 => c.baseIn p e v
    | 1 =>
      if st.link = .trainT2 then (c.setPe e fun x => x.takeSeg (ifField v 151 144) (ifField v 143 16)).tryT3 p else c
    | _ => c

/-- T2_TIMEOUT (R71, R434): the timer runs from the first valid partner base infofield. -/
def execT2Timeout (p : PortNo) (s : State) : Out := s.run fun c =>
  if (c.port p).link = .trainT2 && (c.port p).gotBase then c.trainFail p 0x0C else c

/-- Root edge at which the own PAM-16 starts: 16 countdown frames after the first frame boundary from the entry to `TRAIN_T3` on
(Table 3-7, R72). Training frames follow one another from the entry to `TRAIN_T1` on. -/
def Chip.pamEdge (c : Chip) (p : Nat) : Nat :=
  let s := c.port p
  s.t1Root + c.frameEdges p * (cdiv (s.t3Root - s.t1Root) (c.frameEdges p) + 16)

/-- COUNTDOWN_END (R35, R72): the own PAM-16 starts with `SEQ` 0, on all lanes at one root edge (R43), and the precoder's history is
zero (R94). The receiver follows the partner's countdown on its own. -/
def execCountdownEnd (p : PortNo) (s : State) : Out := s.run fun c =>
  if (c.port p).link ≠ .trainT3 || (c.port p).pam16 then c
  else
    let at_ := c.pamEdge p
    let c := (c.setPort p fun st => { st with pam16 := true, seqAt := at_ }).gridStart p at_
    c.each (c.port p).lanes fun c e => c.setPe e fun x => { x with hist := [], msgOut := none }

/-- Skew that the receiver corrects, in root edges: 512 symbols (R46). -/
def Chip.skewOk (c : Chip) (p e : Nat) : Bool := (c.rdInt .PE_RX_SKEW e).natAbs ≤ c.frameEdges p

/-- A lane has met the exit condition of `TRAIN_T3` over the present window (Table 3-7, R108): both margins at least 3 dB, no
uncorrectable codeword, no `AUX_CRC` failure, skew within R46. -/
def Chip.t3Pass (c : Chip) (p e : Nat) : Bool :=
  let x := c.pe e
  !x.t3Bad && x.t3Margin.any (fun m => m ≥ 768) && x.t3Partner.any (fun m => m ≥ 768) && c.skewOk p e

/-- T3_VERIFY_PASS (R71, R73): a verification window ends. When every active lane has passed, the port enters `LINK_UP`. In a full
training with downshift agreed, lanes that failed while another passed are removed together by R48. Otherwise a new window starts,
and the phase timer decides; a fast retrain whose margin fails has failed (R78). The margin of a window is the lowest of its
64 µs windows (DESIGN CHOICE, log entry 83). -/
def execT3VerifyPass (p : PortNo) (pick : BitVec 8) (s : State) : Out := s.run fun c =>
  let st := c.port p
  if st.link ≠ .trainT3 || !st.pam16 || !st.rxAt.any (fun r => r ≤ c.root) || st.lanes = [] then c
  else
    let c := c.each st.lanes fun c e => match (c.pe e).t3Margin with
      | some m => c.wrInt .PE_T3_MARGIN e m
      | none => c
    let ms := st.lanes.filterMap fun e => (c.pe e).t3Margin
    let c := if ms = [] then c else c.wrInt .T3_MARGIN_MIN p (ms.foldl min (ms.headD 0))
    let bad := st.lanes.filter fun e => !c.t3Pass p e
    if bad = [] then (c.each st.lanes fun c e => c.setBit .PE_TRAIN_STATUS e 1 true).enterUp p
    else if st.fast && ms.any (fun m => m < 768) then c.fastFail p 0x0F
    else
      let c := c.each st.lanes fun c e => c.setPe e PeSt.window
      if !st.fast && st.downshiftAgreed && bad.length < st.lanes.length then c.lanesFail p bad 0x0C pick.toNat else c

/-- T3_TIMEOUT (R71): the training fails, and `T3_FAILED` shows the lanes that have not passed by what the complete 64 µs windows told, and
those, by position in `failed`, that the receiver has lost since (DESIGN CHOICE, log entry 127). -/
def execT3Timeout (p : PortNo) (failed : BitVec 4) (s : State) : Out := s.run fun c =>
  if (c.port p).link ≠ .trainT3 then c
  else
    let c := c.each ((c.port p).lanes.filter fun e => failed.toNat.testBit (laneIndex p e) || !c.t3Pass p e) fun c e =>
      c.setBit .PE_TRAIN_STATUS e 4 true
    c.trainFail p 0x0C

/-- PARTNER_LOST (R75): the partner goes quiet or sends negotiation pages in `TRAIN_T1` to `TRAIN_T3`. -/
def execPartnerLost (p : PortNo) (s : State) : Out := s.run fun c =>
  match (c.port p).link with
  | .trainT1 | .trainT2 | .trainT3 => c.trainFail p 0x0D
  | _ => c

/-- STD_TRAIN_COMPLETE (R79, R84): the clause training succeeds, or fails; master-slave resolution follows the clause. -/
def execStdTrainComplete (p : PortNo) (ok : Bool) (s : State) : Out := s.run fun c =>
  if (c.port p).link ≠ .stdTrain then c
  else if ok then c.enterUp p else c.fullFail p 0x07

/-- STD_LINK_FAIL (R80): a standard-mode link goes down by its clause's rules. -/
def execStdLinkFail (p : PortNo) (s : State) : Out := s.run fun c =>
  match (c.port p).link, (c.port p).mode with
  | .up, some m => if m.isW then c else c.linkDown p 0x07
  | _, _ => c

/-- LINK_BREAK_END (R81): after 1 ms the port starts again. -/
def execLinkBreakEnd (p : PortNo) (s : State) : Out := s.run fun c =>
  if (c.port p).link ≠ .brk then c else c.resumeLink p

/-- LINK_FAIL_END (R82, R83): after 2 s the ceiling resets and negotiation restarts. -/
def execLinkFailEnd (p : PortNo) (s : State) : Out := s.run fun c =>
  if (c.port p).link ≠ .fail then c else (c.ceilingReset p).negotiate p

/-- NO_ENERGY_2S (R83): the pairs see no energy for 2 s and the ceiling resets. -/
def execNoEnergy2s (p : PortNo) (s : State) : Out := s.run fun c => c.ceilingReset p

/-- WAKE_PATTERN_RETRAIN (R78): a wake pattern longer than 20 µs joins the port into a fast retrain. R78 names the retained
coefficients as the condition for joining and says nothing of `FAST_RETRAIN_ENABLE` there; the model joins whatever that object holds
(DESIGN CHOICE, log entry 84). -/
def execWakePatternRetrain (p : PortNo) (s : State) : Out := s.run fun c =>
  match (c.port p).link, (c.port p).mode with
  | .anAbility, some m => if m.isW && c.holdsRetained p m && c.levelAllows (tileOf p) m then c.begin_ p m true else c
  | .anNextPage, some m => if m.isW && c.holdsRetained p m && c.levelAllows (tileOf p) m then c.begin_ p m true else c
  | .up, some m =>
    if m.isW then
      let c := (c.setCause p 0x06).raise .linkDown (Cls.port.addr p) 0x06
      (c.sealPort p).begin_ p m true
    else c
  | _, _ => c

/-- FAST_RETRAIN_NO_REPLY (R78): no reply within 4 ms. -/
def execFastRetrainNoReply (p : PortNo) (s : State) : Out := s.run fun c =>
  if (c.port p).link = .trainT0 && (c.port p).fast then c.fastFail p 0x0F else c

/-- TRAIN_RESTART_FULL: a write of 1 to `TRAIN_RESTART` (R77, R83, R85). -/
def execTrainRestartFull (p : PortNo) (s : State) : Out :=
  s.runWr fun c => c.gated .TRAIN_RESTART p fun c => c.writeTrainRestart p 1

/-- TRAIN_RESTART_FAST: a write of 2 to `TRAIN_RESTART` (R78). -/
def execTrainRestartFast (p : PortNo) (s : State) : Out :=
  s.runWr fun c => c.gated .TRAIN_RESTART p fun c => c.writeTrainRestart p 2

/-- TRAIN_RESTART_RENEGOTIATE: a write of 3 to `TRAIN_RESTART` (R83, R85). -/
def execTrainRestartRenegotiate (p : PortNo) (s : State) : Out :=
  s.runWr fun c => c.gated .TRAIN_RESTART p fun c => c.writeTrainRestart p 3

/-- PORT_MODE_WRITE (R27, R64, R85). -/
def execPortModeWrite (p : PortNo) (v : BitVec 8) (s : State) : Out :=
  s.runWr fun c => c.gated .PORT_MODE p fun c => c.writePortMode p v.toNat

/-- PORT_ABILITY_WRITE (R32, R83, R85); reserved bits are ignored (R6). -/
def execPortAbilityWrite (p : PortNo) (v : BitVec 16) (s : State) : Out :=
  s.runWr fun c => c.gated .PORT_ABILITY p fun c => (.ok, c.applyPortAbility p v.toNat)

/-- PORT_ENABLE_WRITE (R83 to R85); a BOOL other than 0 or 1 gives `ABORT_RANGE` (R307). -/
def execPortEnableWrite (p : PortNo) (v : BitVec 8) (s : State) : Out :=
  s.runWr fun c => c.gated .PORT_ENABLE p fun c =>
    c.writePortEnable p v.toNat

/-- QUAD_FORMATION_WRITE (R28, R30, R181). -/
def execQuadFormationWrite (q : QuadNo) (v : BitVec 8) (s : State) : Out :=
  s.runWr fun c => c.gated .QUAD_FORMATION q fun c => c.writeFormation q v.toNat

end Sys2Proof.Machine
end

