-- ==== Sys2Proof/Machine/LpiEvents.lean ====
section
/-!
DEFINITION. The meanings of the events and writes of low-power idle (chapter 6).
-/
set_option Elab.async false
namespace Sys2Proof.Machine

/-- 100 µs have passed since a request was refused or left unanswered (R145). -/
def Chip.mayAsk (c : Chip) (p : Nat) : Bool := (c.port p).lpi.backFrom.all fun r => r + rootUs 100 ≤ c.root

/-- LPI_SLEEP_REQUEST (R145, R149, R150): an end that may sleep sends `SLEEP_REQ` with a new number and its quiet point; in a standard
mode it asserts LPI. `id` is the number chosen, and the next one where it is not new (DESIGN CHOICE, log entry 127). -/
def execLpiSleepRequest (p : PortNo) (id : BitVec 8) (s : State) : Out := s.run fun c =>
  if !c.maySleep p || !c.mayAsk p then c
  else if c.runsW p then
    let id := if id.toNat = (c.port p).lpi.reqId then (id.toNat + 1) % 256 else id.toNat
    let q := c.lpiCw p + c.sleepCws p
    ((c.sendLpi p 1 id (q % 256)).setLpi p fun l => { l with reqId := id }).lpiSleep p (q % 256) true false 1
  else c.lpiSleep p 0 true true 0

/-- SLEEP_REQ (R39, R145): the first copy, on any lane that the receiver deals, is answered with `SLEEP_ACK` by an end that may sleep, taken as the acknowledgement of a
simultaneous request, or answered with `SLEEP_NAK`. -/
def execSleepReq (p : PortNo) (msg : BitVec 128) (lane : Fin 4) (s : State) : Out := s.run fun c =>
  let f := lpiFields msg
  let l := (c.port p).lpi
  if !c.lpiMsgOk p msg 1 || l.reqIn = some f.2.1 || (c.port p).rxLanes.length ≤ lane then c
  else
    let c := c.setLpi p fun l => { l with reqIn := some f.2.1 }
    if l.state = .sleep && l.asked then c.setLpi p fun l => { l with acked := true, partnerSeq := some f.2.2.1 }
    else if c.maySleep p then
      let q := c.lpiCw p + c.sleepCws p
      let c := (c.sendLpi p 2 f.2.1 (q % 256)).lpiSleep p (q % 256) false true 2
      c.setLpi p fun l => { l with partnerSeq := some f.2.2.1 }
    else c.sendLpi p 3 f.2.1 0

/-- SLEEP_ACK (R145). -/
def execSleepAck (p : PortNo) (msg : BitVec 128) (s : State) : Out := s.run fun c =>
  let f := lpiFields msg
  let l := (c.port p).lpi
  if c.lpiMsgOk p msg 2 && l.state = .sleep && l.asked && l.reqId = f.2.1 then
    c.setLpi p fun l => { l with acked := true, partnerSeq := some f.2.2.1 }
  else c

/-- SLEEP_NAK (R145): the requester stays awake at its quiet point, and asks again after 100 µs at the earliest. -/
def execSleepNak (p : PortNo) (msg : BitVec 128) (s : State) : Out := s.run fun c =>
  let l := (c.port p).lpi
  if c.lpiMsgOk p msg 3 && l.state = .sleep && l.asked && l.reqId = (lpiFields msg).2.1 then
    c.setLpi p fun l => { l with acked := false, partnerSeq := none, backFrom := some c.root }
  else c

/-- Precoder updates of a port are abandoned (R106, R145). -/
def Chip.abandonUpdates (c : Chip) (p : Nat) : Chip :=
  c.each (c.pesOf p) fun c e =>
    let x := c.pe e
    (c.add .PE_PRECODER_ABANDONED e (b2n x.preIn.isSome + b2n x.preOut.isSome)).setPe e fun x =>
      { x with preIn := none, preOut := none, preSend := [] }

/-- The own transmitter goes quiet (R142): the slots that it serves freeze (Table 5-3). -/
def Chip.lpiGoQuiet (c : Chip) (p : Nat) : Chip := (c.each (c.pesOf p) fun c e => c.ancStops e).lpiEnter p .quiet

/-- The cause of the wake that is due at the quiet point: the first in precedence of what has come and of a planned wake whose
boundary has passed (R145, R152). -/
def Chip.dueCause (c : Chip) (p : Nat) : Option WakeCause :=
  let l := (c.port p).lpi
  let planned := match l.plan with
    | some b => if b ≤ c.tb then some (c.plannedCause p) else none
    | none => none
  match l.due, planned with
  | some a, some b => some (a.first b)
  | some a, none => some a
  | none, b => b

/-- 1000BASE-T goes quiet only while both ends assert LPI (R149: the symmetry is the clause's; PRESUMED, log entry 87). -/
def Chip.quietAlone (c : Chip) (p : Nat) : Bool := (c.port p).mode ≠ some .t1000 || (c.port p).lpi.partnerQuiet

/-- LPI_QUIET_POINT (R145): an end goes quiet, starts a wake that fell due, or stays awake for want of an acknowledgement;
at the partner's quiet point its transmitter is in LPI. -/
def execLpiQuietPoint (p : PortNo) (partner : Bool) (s : State) : Out := s.run fun c =>
  let l := (c.port p).lpi
  if !c.up p then c
  else if partner then
    if l.partnerSeq.isSome && !l.partnerQuiet then c.setLpi p fun l => { l with partnerQuiet := true, partnerAt := c.root } else c
  else if l.state ≠ .sleep then c
  else if l.asked && !l.acked then
    let c := (c.lpiEnter p .awake).setLpi p fun l =>
      { l with asked := false, charRun := false, due := none, plan := none, backFrom := some c.root }
    c.wr .LPI_NEXT_WAKE p (2 ^ 96 - 1)
  else
    let c := c.abandonUpdates p
    match c.dueCause p with
    | some w => c.lpiWake p w
    | none => if c.quietAlone p then (c.lpiGoQuiet p).inc .LPI_ENTRY_COUNT p else c

/-- LPI_REFRESH_START (R142, R148): the refresh follows the quiet phase, with the precoder's history zero; a wake that falls due at
the same boundary replaces it. -/
def execLpiRefreshStart (p : PortNo) (s : State) : Out := s.run fun c =>
  if (c.port p).lpi.state = .quiet then
    match c.dueCause p with
    | some w => c.lpiWake p w
    | none =>
      let c := c.each (c.port p).lanes fun c e => c.setPe e fun x => { x with hist := [] }
      (c.lpiEnter p .refresh).ancPortDrives p
  else c

/-- LPI_REFRESH_END (R141, R142): the next quiet phase starts, or the characterisation wakes the port. -/
def execLpiRefreshEnd (p : PortNo) (s : State) : Out := s.run fun c =>
  if (c.port p).lpi.state ≠ .refresh then c
  else if (c.port p).lpi.charRun then
    (c.setLpi p fun l => { l with charWoke := true, charLeft := (c.port p).lanes }).lpiWake p .other
  else c.lpiGoQuiet p

/-- PARTNER_REFRESH_END (R146): margins of the lanes in lane order; none where there was no signal. A low margin counts lane by lane, as
the rule has it. The rule names "the partner's expected refresh" for a missing one, without saying whether every lane or one must
miss: the model counts a refresh as missing when any active lane's is, one count for the port (DESIGN CHOICE, log entry 88). -/
def execPartnerRefreshEnd (p : PortNo) (margins : List (Option Int)) (s : State) : Out := s.run fun c =>
  let st := c.port p
  if !c.up p || !st.lpi.partnerQuiet || margins.length ≠ st.lanes.length then c
  else
    let min_ := c.rdInt .LPI_REFRESH_MIN_MARGIN p
    let c := c.each (st.lanes.zip margins) fun c em => match em.2 with
      | some m => c.wrInt .PE_LPI_REFRESH_MARGIN em.1 m
      | none => c
    let missing := margins.any fun m => match m with
      | some x => x < 0
      | none => true
    let low := fun m : Option Int => match m with
      | some x => decide (x < min_)
      | none => true
    let c := c.each (st.lanes.zip margins) fun c em =>
      c.setPe em.1 fun x => { x with lpiLow := if low em.2 then x.lpiLow + 1 else 0 }
    let c := c.setLpi p fun l =>
      { l with miss := if missing then l.miss + 1 else 0,
               charOk := if l.charRun && l.charOk.isNone then some (!margins.any low) else l.charOk }
    if (c.port p).lpi.miss ≥ 2 then c.linkDown p 0x01
    else if st.lanes.any fun e => (c.pe e).lpiLow ≥ 2 then
      let c := c.each st.lanes fun c e => c.setPe e fun x => { x with lpiLow := 0 }
      ((c.inc .LPI_REFRESH_FAIL_COUNT p).raise .refreshFailed (Cls.port.addr p)).lpiHold p
    else c

/-- LPI_WAKE_START (R151, R152): at the planned boundary, or for another cause. -/
def execLpiWakeStart (p : PortNo) (planned : Bool) (s : State) : Out := s.run fun c =>
  if !c.up p then c
  else c.lpiWakeNow p (if planned then c.plannedCause p else .other)

/-- LPI_PARTNER_CHIRP (R145, R148): the partner's chirp, or codewords where its quiet was expected. -/
def execLpiPartnerChirp (p : PortNo) (s : State) : Out := s.run fun c =>
  if c.up p && c.runsW p then c.lpiWakeNow p .partner else c

/-- Scrambler state at the start of the codeword with `SEQ` `q` (R37): the seed, advanced by 1,625 steps for each codeword since
`SEQ` 0. -/
def scrAt (seed : BitVec 58) (q : Nat) : BitVec 58 := (List.range (1625 * (q % 256))).foldl (fun s _ => scrStep s) seed

/-- Level of symbol `k` of the wake pattern's chirp (R147). -/
def chirpLevel (k : Nat) : Int := if ((k % 64) ^ 2 + 64) % 256 < 128 then 15 else -15

/-- Levels of a codeword position of the wake phase: eight chirps, inverted in the last position (R147). -/
def chirpCw (inverted : Bool) : List Int :=
  (List.range 512).map fun k => if inverted then -chirpLevel k else chirpLevel k

/-- Precoder history after a wake: the last K levels of the wake pattern, as S5.10, latest first (R148). -/
def wakeHist (k : Nat) : List Int := ((chirpCw true).reverse.take k).map fun x => x * 1024

/-- The receiver resumes with the `SEQ` that R143 predicts: that of the partner's first quiet codeword, and one more for each codeword
of its grid since, counted here at the device's own rate (DESIGN CHOICE, log entry 89). -/
def Chip.resumeRx (c : Chip) (p : Nat) : Chip :=
  let l := (c.port p).lpi
  let f := c.frameEdges p
  let q := (l.partnerSeq.getD 0 + (c.root - l.partnerAt + f / 2) / f) % 256
  c.each (c.port p).rxLanes fun c e =>
    c.setPe e fun x => { x with rxSeq := q, rxScr := scrAt (BitVec.ofNat 58 x.ifSeed) q, seqMiss := 0, mgmtWords := [] }

/-- LPI_WAKE_END (R145, R147, R148): the inverted codeword is sent and the port is awake, and a pair that failed in the meantime is
handled; the partner's ends its LPI. -/
def execLpiWakeEnd (p : PortNo) (partner : Bool) (s : State) : Out := s.run fun c =>
  if !c.up p then c
  else if partner then
    let c := if c.runsW p && (c.port p).lpi.partnerQuiet then c.resumeRx p else c
    c.setLpi p fun l => { l with partnerQuiet := false, partnerSeq := none }
  else if (c.port p).lpi.state = .wake then
    let l := (c.port p).lpi
    let k := match (c.port p).mode with
      | some m => m.preTaps
      | none => 0
    let c := c.each (c.port p).lanes fun c e => c.setPe e fun x => { x with hist := wakeHist k }
    let c := (c.lpiEnter p .awake).setLpi p fun l => { l with asked := false, acked := false, failed := [] }
    if l.failed.isEmpty then c
    else
      let d := c.draw
      d.2.lanesFail p l.failed l.failCause d.1
  else c

/-- HELD_AWAKE_END (R146). -/
def execHeldAwakeEnd (p : PortNo) (s : State) : Out := s.run fun c => c.setBit .LPI_STATUS p 4 false

/-- A write of `LPI_ENABLE` (R152). -/
def Chip.writeLpiEnable (c : Chip) (p v : Nat) : Abort × Chip :=
  if v > 1 then (.range, c)
  else
    let c := c.wr .LPI_ENABLE p v
    (.ok, if v = 0 && c.up p then c.lpiWakeNow p .other else c.lpiReplan p)

/-- LPI_ENABLE_WRITE (R152). -/
def execLpiEnableWrite (p : PortNo) (v : BitVec 8) (s : State) : Out :=
  s.runWr fun c => c.gated .LPI_ENABLE p fun c => c.writeLpiEnable p v.toNat

/-- RX_LPI (R149, Table 6-4): in a standard mode the partner asserts or deasserts LPI; in 1000BASE-T both ends leave quiet together. -/
def execRxLpi (p : PortNo) (asserted : Bool) (s : State) : Out := s.run fun c =>
  if c.up p && !c.runsW p then
    let c := c.setLpi p fun l => { l with partnerQuiet := asserted }
    if !asserted && !c.quietAlone p then c.lpiWakeNow p .partner else c
  else c

end Sys2Proof.Machine
end

