-- ==== Sys2Proof/Machine/Wale.lean ====
section
/-!
DEFINITION. The Wale fabric (chapter 12): ports, packets and their queues, advertisements, routes and addresses, time transport
and event packets.
-/
set_option Elab.async false
namespace Sys2Proof.Machine

/-- A Wale port, and a change of it. -/
def Chip.wl (c : Chip) (w : Nat) : WlSt := c.wale.ports.getD w {}
def Chip.setWale (c : Chip) (f : FabricSt → FabricSt) : Chip := { c with wale := f c.wale }
def Chip.setWl (c : Chip) (w : Nat) (f : WlSt → WlSt) : Chip := c.setWale fun x => { x with ports := x.ports.upd w {} f }

/-- Codes of `WL_STATE` (Table 12-3). -/
def wlOff : Nat := 0
def wlSearch : Nat := 1
def wlAlign : Nat := 2
def wlHello : Nat := 3
def wlUp : Nat := 4

/-- State of a Wale port. -/
def Chip.wlState (c : Chip) (w : Nat) : Nat := c.rd .WL_STATE w

/-- Ports in `WL_UP`. -/
def Chip.wlUps (c : Chip) : List Nat := (List.range 6).filter fun w => c.wlState w = wlUp

/-- This device's identity. -/
def Chip.ownId (_ : Chip) : Nat := Config.deviceId.toNat

/-- Class queues of a port, and the space of a class in octets (R287). A packet takes its words of 8 octets. -/
def WlPacket.octets (p : WlPacket) : Nat := 8 * (2 + cdiv p.payload.length 8)
def classSpace (k : Nat) : Nat := if k = 0 then 4096 else 65536
def WlSt.queue (s : WlSt) (k : Nat) : List WlPacket := s.queues.getD k []

/-- Put a packet into its class queue, or discard it when the queue is full (R287). -/
def Chip.wlQueue (c : Chip) (w : Nat) (p : WlPacket) : Chip :=
  let q := (c.wl w).queue p.cls
  if (q.foldl (fun a x => a + x.octets) 0) + p.octets > classSpace p.cls then c.addRow .WL_DROP w p.cls 1
  else c.setWl w fun s => { s with queues := s.queues.set p.cls (q ++ [p]) [] }

/-- First-hop port toward an address: the route, or before convergence the direct neighbour that holds it (R292, R293). -/
def Chip.wlRoute (c : Chip) (a : Nat) : Option Nat :=
  if c.rdBit .WALE_STATUS 0 then
    let r := c.rd .WALE_ROUTES 0 a
    if r % 256 < 6 then some (r % 256) else none
  else if a = 0 then none else c.wlUps.find? fun w => (c.wl w).addr = a

/-- A packet toward a fabric address, or discarded without a route (R294). -/
def Chip.wlForward (c : Chip) (p : WlPacket) : Chip :=
  match c.wlRoute p.dest with
  | some w => c.wlQueue w p
  | none => c.inc .WALE_NO_ROUTE

/-- The device sends a packet of its own: to an address, or as a broadcast on every port that is up (R294, R295). -/
def Chip.wlSend (c : Chip) (p : WlPacket) : Chip :=
  let p := { p with src := c.rd .WALE_ADDRESS }
  if p.dest = 0xFF then
    let n := (c.wale.bseq + 1) % 4096
    let c := c.setWale fun x => { x with bseq := n }
    c.each c.wlUps fun c w => c.wlQueue w { p with bseq := n }
  else c.wlForward p

/-- A packet for the device at the other end of a link. -/
def Chip.wlLocal (c : Chip) (w cls kind : Nat) (payload : List Octet) : Chip :=
  c.wlQueue w { dest := 0, src := c.rd .WALE_ADDRESS, cls := cls, kind := kind, payload := payload }

/-- Payload of an advertisement (Table 12-7). -/
def Lsa.octets (id : Nat) (a : Lsa) : List Octet :=
  natToOctets 8 id ++ natToOctets 1 a.addr ++ natToOctets 1 a.prio ++ natToOctets 4 a.seq ++ [0]
    ++ natToOctets 1 a.links.length
    ++ a.links.flatMap fun l => natToOctets 1 l.port ++ natToOctets 1 l.nbPort ++ natToOctets 1 l.cost ++ [0]
        ++ natToOctets 8 l.nbId

/-- The identity and the advertisement that a payload spells, if its length agrees with `LA_COUNT`. -/
def Lsa.ofOctets (l : List Octet) : Option (Nat × Lsa) :=
  let n := octNat l 15 1
  if n > 6 ∨ l.length ≠ 16 + 12 * n then none
  else some (octNat l 0 8,
    { addr := octNat l 8 1, prio := octNat l 9 1, seq := octNat l 10 4,
      links := (List.range n).map fun k =>
        ⟨octNat l (16 + 12 * k) 1, octNat l (17 + 12 * k) 1, octNat l (18 + 12 * k) 1, octNat l (20 + 12 * k) 8⟩ })

/-- The database, this device's own advertisement included. -/
def Chip.lsdbAll (c : Chip) : Tab Nat Lsa := c.wale.lsdb.put c.ownId c.wale.own

/-- Election key (R290). -/
def electionKey (id : Nat) (a : Lsa) : Nat := a.prio * 2 ^ 64 + id

/-- Links as they are: every port that is up, with its partner (Table 12-7). -/
def Chip.ownLinks (c : Chip) : List LsaLink :=
  c.wlUps.filterMap fun w => (c.wl w).heard.map fun h => ⟨w, h.2, c.rd .WL_COST w, h.1⟩

/-- A database entry goes out on every listed port (R289). -/
def Chip.flood (c : Chip) (ports : List Nat) (id : Nat) (a : Lsa) : Chip :=
  c.each ports fun c w => c.wlLocal w 1 0x02 (a.octets id)

/-- A new advertisement of this device with a sequence number of its own (R289). -/
def Chip.originate (c : Chip) (links : List LsaLink) (seq : Nat) : Chip :=
  let a : Lsa :=
    { addr := c.rd .WALE_ADDRESS, prio := c.rd .WALE_ROOT_PRIORITY, seq := seq % 2 ^ 32, links := links }
  let c := (c.wrDev .WALE_LSA_SEQ seq).setWale fun x => { x with own := a, dirty := false }
  c.flood c.wlUps c.ownId a

/-- The next advertisement. -/
def Chip.originateNext (c : Chip) (links : List LsaLink) : Chip := c.originate links (c.rd .WALE_LSA_SEQ + 1)

/-- Something that the advertisement carries has changed (R289). -/
def Chip.lsaDue (c : Chip) : Chip := c.setWale fun x => { x with dirty := true }

/-- `FABRIC_FULL` (R289). -/
def Chip.fabricFull (c : Chip) : Chip := (c.setBit .WALE_STATUS 0 4 true).raise .fabricFull 0

/-- Entry with the highest election key. -/
def lsdbWorst (l : Tab Nat Lsa) : Option (Nat × Lsa) :=
  l.foldl (fun a x => match a with
    | none => some x
    | some y => if electionKey x.1 x.2 > electionKey y.1 y.2 then some x else some y) none

/-- A received advertisement (R289). -/
def Chip.lsaTake (c : Chip) (w id : Nat) (a : Lsa) : Chip :=
  let others := c.wlUps.filter fun k => k != w
  if id = c.ownId then
    if a.seq > c.rd .WALE_LSA_SEQ then c.originate c.ownLinks (a.seq + 1) else c
  else match c.wale.lsdb.get? id with
    | some b =>
      if a.seq > b.seq then (c.setWale fun x => { x with lsdb := x.lsdb.put id a }).flood others id a else c
    | none =>
      if c.wale.lsdb.length < 255 then (c.setWale fun x => { x with lsdb := x.lsdb.put id a }).flood others id a
      else
        let c := c.fabricFull
        match lsdbWorst c.wale.lsdb with
        | none => c
        | some y =>
          if electionKey id a < electionKey y.1 y.2 then
            (c.setWale fun x => { x with lsdb := (x.lsdb.del y.1).put id a }).flood others id a
          else c

/-- A link entry counts when the neighbour's advertisement lists it too (R289). -/
def linkBoth (db : Tab Nat Lsa) (id : Nat) (l : LsaLink) : Bool :=
  match db.get? l.nbId with
  | some b => b.links.any fun k => k.port = l.nbPort && k.nbPort = l.port && k.nbId = id
  | none => false

/-- What is known of the best path to a device: cost, first-hop port, hops. -/
abbrev PathCost := Nat × Nat × Nat

/-- A path is preferred by its cost, then by its first-hop port (R293), then by its hops. -/
def pathLess (a b : PathCost) : Bool :=
  a.1 < b.1 || (a.1 = b.1 && (a.2.1 < b.2.1 || (a.2.1 = b.2.1 && a.2.2 < b.2.2)))

/-- Offer a path to a device. -/
def pathOffer (t : Tab Nat PathCost) (id : Nat) (x : PathCost) : Tab Nat PathCost :=
  match t.get? id with
  | some y => if pathLess x y then t.put id x else t
  | none => t.put id x

/-- One round over every link: the cost of a link is that of the device at which it is entered (R293). -/
def pathRound (db : Tab Nat Lsa) (self : Nat) (t : Tab Nat PathCost) : Tab Nat PathCost :=
  db.foldl (fun t e => e.2.links.foldl (fun t l =>
    if l.nbId = self ∨ !linkBoth db e.1 l then t
    else if e.1 = self then pathOffer t l.nbId (l.cost, l.port, 1)
    else match t.get? e.1 with
      | some x => pathOffer t l.nbId (x.1 + l.cost, x.2.1, x.2.2 + 1)
      | none => t) t) t

/-- Rounds until nothing changes, at most one for each device. -/
def pathRounds (db : Tab Nat Lsa) (self : Nat) : Nat → Tab Nat PathCost → Tab Nat PathCost
  | 0, t => t
  | n + 1, t => let t' := pathRound db self t; if t' = t then t else pathRounds db self n t'

/-- Least-cost paths to every reachable device (R293). -/
def Chip.paths (c : Chip) : Tab Nat PathCost := pathRounds c.lsdbAll c.ownId c.lsdbAll.length []

/-- Reachable devices with their advertisements, this one excluded. -/
def Chip.reachable (c : Chip) : Tab Nat Lsa :=
  let t := c.paths
  c.wale.lsdb.filter fun e => (t.get? e.1).isSome

/-- The elected root (R290). -/
def Chip.rootOf (c : Chip) : Nat :=
  (c.reachable.foldl (fun (a : Nat × Nat) e => let k := electionKey e.1 e.2; if k < a.1 then (k, e.1) else a)
    (electionKey c.ownId c.wale.own, c.ownId)).2

/-- Lowest address from 0x02 upward that no reachable advertisement claims (R291); 0 when none is free. -/
def Chip.freeAddress (c : Chip) : Nat :=
  let used := c.reachable.map fun e => e.2.addr
  (((List.range 253).map fun k => k + 2).find? fun a => !used.contains a).getD 0

/-- A reachable device with a lower election key claims the address (R291). -/
def Chip.outclaimed (c : Chip) (a : Nat) : Bool :=
  c.reachable.any fun e => e.2.addr = a && electionKey e.1 e.2 < electionKey c.ownId c.wale.own

/-- The address that the device claims (R291). -/
def Chip.claimOf (c : Chip) : Nat :=
  let a := c.rd .WALE_ADDRESS
  let free := c.freeAddress
  if c.rootOf = c.ownId then 1
  else if !c.wale.claimed || a = 0 then
    let want := if c.rd .WALE_ADDR_REQUEST ≠ 0 then c.rd .WALE_ADDR_REQUEST else c.nv.lastWale.getD 0
    let want := if c.wale.claimed || want < 2 then free else want
    if c.outclaimed want then free else want
  else if a = 1 || c.outclaimed a then free
  else a

/-- The claim, its count and its events (R291). -/
def Chip.claim (c : Chip) : Chip :=
  let a := c.claimOf
  let was := c.rd .WALE_ADDRESS
  let c := c.setWale fun x => { x with claimed := true }
  let c := if a = 0 ∧ !c.rdBit .WALE_STATUS 2 then c.raise .noAddress 0 else c
  let c := (c.wrDev .WALE_ADDRESS a).setBit .WALE_STATUS 0 2 (a = 0)
  let c := if a = 0 then c.setBit .WALE_STATUS 0 0 false else c
  if a = was then c else ((c.inc .WALE_ADDR_CHANGES).raise .addressChanged 0 a).lsaDue

/-- The claimant to which an address is routed: the one with the lowest key (R293). -/
def claimant (l : Tab Nat Lsa) (a : Nat) : Option (Nat × Lsa) :=
  (l.filter fun e => e.2.addr = a).foldl (fun b x => match b with
    | none => some x
    | some y => if electionKey x.1 x.2 < electionKey y.1 y.2 then some x else some y) none

/-- Row of `WALE_ROUTES` for an address (R293). -/
def routeRow (paths : Tab Nat PathCost) (l : Tab Nat Lsa) (a : Nat) : Nat :=
  match claimant l a with
  | some e => match paths.get? e.1 with
    | some x => (x.2.2 % 256) * 256 + x.2.1
    | none => 0xFFFF
  | none => 0xFFFF

/-- The time exchanges of a port are forgotten: offsets resume after a new `DREQ` exchange (R297, R301). -/
def Chip.exchangeReset (c : Chip) (w : Nat) : Chip :=
  c.setWl w fun s => { s with syncIn := none, dreqOut := none, dreqDone := none }

/-- The upstream port is the first hop of the route to address 0x01 (chapter 12, time transport). -/
def Chip.setUpstream (c : Chip) (u : Nat) : Chip :=
  if c.rd .WALE_UPSTREAM = u then c
  else
    let c := c.wrDev .WALE_UPSTREAM u
    c.each (List.range 6) fun c w => (c.setBit .WL_STATUS w 4 (w = u)).exchangeReset w

/-- Packets that wait on a port that is not up are placed on the routes, or discarded and counted (R301). -/
def Chip.replace (c : Chip) : Chip :=
  c.each ((List.range 6).filter fun w => c.wlState w != wlUp && !(c.wl w).queues.isEmpty) fun c w =>
    let l := [0, 1, 2, 3].flatMap fun k => (c.wl w).queue k
    (c.setWl w fun s => { s with queues := [] }).each l fun c p =>
      if p.dest = 0 ∨ p.dest = 0xFF then c.inc .WALE_NO_ROUTE else c.wlForward p

/-- ROUTE_RECOMPUTE: routes, root, claim and upstream port follow the database (R290 to R293, R298, R301). -/
def Chip.recompute (c : Chip) : Chip :=
  let paths := c.paths
  let near := c.reachable
  let root := c.rootOf
  let isRoot := root = c.ownId
  let c := (c.wrDev .WALE_ROOT_ID root).wrDev .WALE_DEVICE_COUNT (near.length + 1)
  let c := c.setBit .WALE_STATUS 0 1 isRoot
  let c := c.each (List.range 256) fun c a => c.wrRow .WALE_ROUTES 0 a (if a = 0 ∨ a = 0xFF then 0xFFFF else routeRow paths near a)
  let dist := if isRoot then 0 else match paths.get? root with
    | some x => min 255 x.2.2
    | none => 0xFF
  let c := c.wrDev .WALE_ROOT_DISTANCE dist
  let far := 16 < dist && dist != 0xFF
  let c := if far && !c.rdBit .WALE_STATUS 3 then c.raise .tooFar 0 dist else c
  let c := c.setBit .WALE_STATUS 0 3 far
  let c := c.claim
  let r1 := c.rd .WALE_ROUTES 0 1
  let c := c.setUpstream (if isRoot || r1 = 0xFFFF then 0xFF else r1 % 256)
  c.replace

/-- A port leaves its link: counters, the partner, and what depends on it (R284, R301, Table 12-3). -/
def Chip.wlDrop (c : Chip) (w dest : Nat) : Chip :=
  let st := c.wlState w
  let c := c.setWl w fun s => { s with squelch := dest = wlSearch && (st = wlUp || st = wlHello), quiet := false }
  let c := ((c.wr .WL_STATE w dest).setBit .WL_STATUS w 1 false).setBit .WL_STATUS w 2 false
  if st ≠ wlUp then c.setWl w fun s => { s with heard := none, addr := 0 }
  else
    let up := c.rd .WALE_UPSTREAM = w
    let c := ((c.setBit .WL_STATUS w 3 false).inc .WL_LINK_DOWN_COUNT w).wr .WL_PARTNER_ID w 0
    let c := (c.wr .WL_PARTNER_PORT w 0xFF).setWl w fun s => { s with heard := none, addr := 0 }
    let c := if up then c.raise .upstreamLost (Cls.wl.addr w) else c
    let c := if c.wlUps.isEmpty then c.setBit .WALE_STATUS 0 0 false else c
    (c.exchangeReset w).lsaDue

/-- A port is enabled (Table 12-3), and self-test has not marked it unusable (Table 15-7). -/
def Chip.wlMayRun (c : Chip) (w : Nat) : Bool :=
  c.rdBool .WALE_ENABLE && c.rdBool .WL_ENABLE w && c.rd .BIST_STATE_WL w != 2

/-- A port starts or stops with its enables (Table 12-3, R283). -/
def Chip.wlFollow (c : Chip) (w : Nat) : Chip :=
  if c.wlMayRun w then (if c.wlState w = wlOff then c.wr .WL_STATE w wlSearch else c)
  else if c.wlState w = wlOff then c
  else (c.wlDrop w wlOff).wr .WL_STATUS w 0

/-- Every port stops, or starts with its enables: D50 stops and runs (Table 14-10, R347). -/
def Chip.wlStopAll (c : Chip) : Chip :=
  c.each (List.range 6) fun c w => if c.wlState w = wlOff then c else (c.wlDrop w wlOff).wr .WL_STATUS w 0
def Chip.wlStartAll (c : Chip) : Chip := c.each (List.range 6) fun c w => c.wlFollow w

/-- A write of `WL_ENABLE` of a port, or of `WALE_ENABLE` (R283, R335). -/
def Chip.writeWlEnable (c : Chip) (w : Option Nat) (v : Nat) : Abort × Chip :=
  if v > 1 then (.range, c)
  else match w with
    | some w => (.ok, (c.wr .WL_ENABLE w v).wlFollow w)
    | none =>
      if v = 1 && !c.rdBit .LEGACY_GATE 5 then (.state, c)
      else (.ok, (c.wrDev .WALE_ENABLE v).wlStartAll)

/-- A write of `WL_SLIP` (R281). -/
def Chip.writeWlSlip (c : Chip) (w v : Nat) : Abort × Chip :=
  if v = 0 then (.ok, c)
  else if v > 1 then (.range, c)
  else if c.rd .WL_SLIP_MODE w ≠ 1 || !(c.wlState w = wlSearch || c.wlState w = wlAlign) then (.state, c)
  else
    let d := (c.wr .WL_SLIP_POS w ((c.rd .WL_SLIP_POS w + 1) % 66)).draw
    (.ok, d.2.wr .WL_HDR_VALID w (d.1 % 65))

/-- A write of `WL_WAKE_SEND` (R284). -/
def Chip.writeWlWake (c : Chip) (w v : Nat) : Abort × Chip :=
  if v = 0 then (.ok, c)
  else if v > 1 then (.range, c)
  else if c.wlState w = wlOff then (.state, c)
  else (.ok, c.setWl w fun s => { s with wakeFrom := some c.root })

/-- Writes of what an advertisement carries (R289, Table 12-10). -/
def Chip.writeRootPriority (c : Chip) (v : Nat) : Abort × Chip := (.ok, (c.wrDev .WALE_ROOT_PRIORITY v).lsaDue)
def Chip.writeWlCost (c : Chip) (w v : Nat) : Abort × Chip :=
  if v = 0 ∨ v > 255 then (.range, c) else (.ok, (c.wr .WL_COST w v).lsaDue)

/-- A write of `WALE_ADDR_REQUEST` (Table 12-10). -/
def Chip.writeAddrRequest (c : Chip) (v : Nat) : Abort × Chip :=
  if v = 1 ∨ v > 0xFE then (.range, c) else (.ok, c.wrDev .WALE_ADDR_REQUEST v)

/-- A `HELLO` of this device on a port (Table 12-6). -/
def Chip.helloOctets (c : Chip) (w : Nat) : List Octet :=
  let h := (c.wl w).heard.getD (0, 0xFF)
  natToOctets 8 c.ownId ++ natToOctets 1 w ++ natToOctets 1 (c.rd .WALE_ADDRESS) ++ natToOctets 1 (c.rd .WALE_ROOT_PRIORITY)
    ++ natToOctets 1 (c.rd .WL_COST w) ++ natToOctets 8 h.1 ++ natToOctets 1 h.2 ++ List.replicate 11 0

/-- Entry to `WL_UP`: the partner, and every advertisement held (R288, R289). -/
def Chip.wlEnterUp (c : Chip) (w id port : Nat) : Chip :=
  let c := ((c.wr .WL_STATE w wlUp).setBit .WL_STATUS w 3 true).wr .WL_PARTNER_ID w id
  let c := (c.wr .WL_PARTNER_PORT w port).lsaDue
  c.each c.lsdbAll fun c e => c.flood [w] e.1 e.2

/-- A received `HELLO` (R283, R288). -/
def Chip.helloTake (c : Chip) (w : Nat) (l : List Octet) : Chip :=
  let id := octNat l 0 8
  let port := octNat l 8 1
  let heardId := octNat l 12 8
  let heardPort := octNat l 20 1
  let note := fun c : Chip => c.setWl w fun s =>
    { s with heard := some (id, port), addr := octNat l 9 1, prio := octNat l 10 1, cost := octNat l 11 1 }
  if c.wlState w = wlHello then
    if heardId = c.ownId ∧ heardPort = w then (note c).wlEnterUp w id port else note c
  else if c.wlState w = wlUp then
    if (c.wl w).heard ≠ some (id, port) ∨ heardId ≠ c.ownId then c.wlDrop w wlSearch else note c
  else c

/-- Classes that a packet kind may have (Table 12-5). -/
def kindClasses (kind : Nat) : List Nat :=
  match kind with
  | 1 | 2 => [1]
  | 3 => [0]
  | 4 => [2]
  | 5 => [1, 3]
  | _ => []

-- Words (R277 to R279, R285).

/-- A data word, and a control word of a type with its content (Table 12-2). -/
def wlData (v : Nat) : WlWord := ⟨1, BitVec.ofNat 64 v⟩
def wlCtrl (type content : Nat) : WlWord := ⟨2, BitVec.ofNat 64 (type * 2 ^ 56 + content % 2 ^ 56)⟩

/-- Control words of Table 12-2 with a fixed content. -/
def wcIdle : WlWord := wlCtrl 0x1E 0
def wcSkip : WlWord := wlCtrl 0x2D 0
def wcAlign : WlWord := wlCtrl 0x33 0x5AC3F096A50F3C
def wcWake : WlWord := wlCtrl 0x78 0x00FF00FF00FF00

/-- A `WC_TS` word of a kind with its sequence number. -/
def wcTs (kind seq : Nat) : WlWord := wlCtrl 0x66 (kind % 256 * 2 ^ 48 + seq % 65536 * 2 ^ 32)

/-- The self-synchronising scrambler of Clause 49, x^58 + x^39 + 1, over bits in transmission order: what is sent, and the state, the last
58 bits sent (R277). -/
def wlScramble : BitVec 58 → List Bool → List Bool × BitVec 58
  | s, [] => ([], s)
  | s, b :: l =>
    let o := (b != s.getLsbD 38) != s.getLsbD 57
    let r := wlScramble ((s <<< 1) ||| (if o then 1 else 0)) l
    (o :: r.1, r.2)

/-- The descrambler: its state is the last 58 bits received (R277). -/
def wlDescramble : BitVec 58 → List Bool → List Bool × BitVec 58
  | s, [] => ([], s)
  | s, b :: l =>
    let o := (b != s.getLsbD 38) != s.getLsbD 57
    let r := wlDescramble ((s <<< 1) ||| (if b then 1 else 0)) l
    (o :: r.1, r.2)

/-- The 66 bits of a word on the wire, first sent first: the header unscrambled and its left bit first, then the payload from bit 63
(R277). `inv` inverts the transmitter (R282). -/
def WlWord.wire (inv : Bool) (s : BitVec 58) (w : WlWord) : List Bool × BitVec 58 :=
  let r := wlScramble s ((List.range 64).map fun k => w.payload.getLsbD (63 - k))
  (([w.header.getLsbD 1, w.header.getLsbD 0] ++ r.1).map fun b => b != inv, r.2)

/-- The word that 66 received bits spell (R277). -/
def WlWord.ofWire (s : BitVec 58) (l : List Bool) : WlWord × BitVec 58 :=
  let r := wlDescramble s (l.drop 2)
  (⟨BitVec.ofNat 2 (2 * b2n (l.getD 0 false) + b2n (l.getD 1 false)),
    BitVec.ofNat 64 (r.1.foldl (fun a b => 2 * a + b2n b) 0)⟩, r.2)

/-- Header of a packet, the content of its `WC_SOP` (Table 12-4). -/
def WlPacket.header (p : WlPacket) : Nat :=
  p.dest % 256 * 2 ^ 48 + p.src % 256 * 2 ^ 40 + p.cls % 4 * 2 ^ 38 + p.kind % 64 * 2 ^ 32 + p.hops % 256 * 2 ^ 24
    + p.payload.length % 4096 * 2 ^ 12 + p.bseq % 4096

/-- CRC of a packet: over the seven octets of its header and its payload (R285). -/
def wlCrc (header : Nat) (payload : List Octet) : Nat := crc32 (natToOctets 7 header ++ payload)

/-- Words of a packet (R285): `WC_SOP`, the payload padded with zeros, `WC_EOP`. -/
def WlPacket.words (p : WlPacket) : List WlWord :=
  wlCtrl 0x4B p.header :: ((List.range (cdiv p.payload.length 8)).map fun j =>
    wlData (octetsToNat ((List.range 8).map fun k => p.payload.getD (8 * j + k) 0)))
    ++ [wlCtrl 0x55 (wlCrc p.header p.payload * 2 ^ 24)]

/-- Words with a `WC_SKIP` put in wherever 4,095 others have gone since the latest one (R279), and the words since the last. -/
def withSkips : Nat → List WlWord → List WlWord × Nat
  | n, [] => ([], n)
  | n, w :: l =>
    let r := if n ≥ 4095 then withSkips 1 l else withSkips (n + 1) l
    (if n ≥ 4095 then wcSkip :: w :: r.1 else w :: r.1, r.2)

/-- The elastic buffer deletes or repeats the first `WC_SKIP` that it meets, and no other word (R279). -/
def elastic (repeat_ : Bool) : List WlWord → List WlWord
  | [] => []
  | w :: l => if w = wcSkip then (if repeat_ then w :: w :: l else l) else w :: elastic repeat_ l

/-- Type of a control word. -/
def WlWord.type (w : WlWord) : Nat := bits w.payload.toNat 63 56

/-- Content of a control word. -/
def WlWord.content (w : WlWord) : Nat := bits w.payload.toNat 55 0

/-- The word stands in a packet's way (R285): a control word other than `WC_SKIP` and `WC_TS`. One of a type that Table 12-2 does not have
is ignored (R278). -/
def WlWord.foreign (w : WlWord) : Bool := w.header = 2 && [0x1E, 0x33, 0x4B, 0x78].contains w.type

/-- A packet as its words spell it (R285): the header, the data words, the CRC of its `WC_EOP`, and whether nothing foreign stands inside
and it was closed. -/
structure WlRaw where
  header : Nat
  data : List Nat
  crc : Nat
  shape : Bool
deriving DecidableEq, Repr

/-- Data words up to `WC_EOP`: them, the CRC, and whether the packet is sound so far. -/
def wlBody : List WlWord → List Nat × Nat × Bool
  | [] => ([], 0, false)
  | w :: l =>
    if w.header = 1 then
      let r := wlBody l
      (w.payload.toNat :: r.1, r.2)
    else if w.header = 2 && w.type = 0x55 then ([], bits w.content 55 24, true)
    else if w.foreign then ([], 0, false)
    else wlBody l

/-- The packet that a run of words opens with its first `WC_SOP`, if it has one (R285). -/
def wlParse : List WlWord → Option WlRaw
  | [] => none
  | w :: l =>
    if w.header = 2 && w.type = 0x4B then
      let b := wlBody l
      some ⟨w.content, b.1, b.2.1, b.2.2⟩
    else wlParse l

/-- Words with an invalid header (R277). -/
def wlInvalid (l : List WlWord) : Nat := (l.filter fun w => w.header = 0 || w.header = 3).length

/-- `PK_LENGTH`, and the payload octets of a packet (R285). -/
def WlRaw.length (r : WlRaw) : Nat := bits r.header 23 12
def WlRaw.payload (r : WlRaw) : List Octet := (r.data.flatMap fun v => natToOctets 8 v).take r.length

/-- Fields of a `WC_SOP` content (Table 12-4), and the packet. -/
def WlRaw.packet (r : WlRaw) : WlPacket :=
  let h := r.header
  { dest := bits h 55 48, src := bits h 47 40, cls := bits h 39 38, kind := bits h 37 32, hops := bits h 31 24,
    bseq := bits h 11 0, payload := r.payload }

/-- The packet passes the checks of R285. -/
def WlRaw.good (r : WlRaw) : Bool :=
  r.shape && 1 ≤ r.length && r.length ≤ 2048 && r.data.length = cdiv r.length 8 && wlCrc r.header r.payload = r.crc

/-- The device takes a packet for itself; the rows of its kind carry out what it holds. -/
def Chip.wlTake (c : Chip) (p : WlPacket) : Chip := c.setWale fun x => { x with inbox := some p }

/-- A packet relayed once more. -/
def WlPacket.relayed (p : WlPacket) : WlPacket := { p with hops := p.hops + 1 }

/-- A broadcast (R295). -/
def Chip.wlBroadcast (c : Chip) (w : Nat) (p : WlPacket) : Chip :=
  if p.src = 0 then c.inc .WALE_NO_ROUTE
  else
    let fresh := c.wale.seen.filter fun x => c.root < x.2.2 + rootUs 100000
    if c.wlRoute p.src ≠ some w || fresh.any fun x => x.1 = p.src && x.2.1 = p.bseq then c
    else
      let c := (c.setWale fun x => { x with seen := (p.src, p.bseq, c.root) :: fresh }).wlTake p
      if p.hops ≥ 32 then c.inc .WALE_NO_ROUTE
      else c.each (c.wlUps.filter fun k => k != w) fun c k => c.wlQueue k p.relayed

/-- A received packet (R285, R286, R292, R294, R295). -/
def Chip.wlPacket (c : Chip) (w : Nat) (r : WlRaw) : Chip :=
  let p := r.packet
  if !r.good then c.inc .WL_CRC_ERR w
  else
    let c := c.inc .WL_RX_PACKETS w
    if !(kindClasses p.kind).contains p.cls then c.inc .WL_CRC_ERR w
    else if p.dest = 0 then c.wlTake p
    else if p.dest = 0xFF then c.wlBroadcast w p
    else if p.dest = c.rd .WALE_ADDRESS then c.wlTake p
    else if p.hops ≥ 32 then c.inc .WALE_NO_ROUTE
    else c.wlForward p.relayed

/-- Words of a lane in header lock (R277, R285, Table 12-10): invalid headers are counted, and the first packet among the words is taken, in
`WL_HELLO` only a `HELLO`. -/
def Chip.wlReceive (c : Chip) (w : Nat) (l : List WlWord) : Chip :=
  let c := if c.rdBit .WL_STATUS 1 w then c.add .WL_HDR_ERR w (wlInvalid l) else c
  match wlParse l with
  | some r => if c.wlState w = wlUp || (c.wlState w = wlHello && r.packet.kind = 1) then c.wlPacket w r else c
  | none => c

/-- Class from which the next packet is taken (R287). -/
def WlSt.nextClass (s : WlSt) : Option Nat :=
  let has := fun k => !(s.queue k).isEmpty
  if has 0 then some 0
  else if has 2 && s.alarmRun ≥ 7 then some 2
  else [1, 2, 3].find? has

/-- A packet goes out on a port, with `WC_SKIP` words among its words as R279 requires. -/
def Chip.wlPut (c : Chip) (w : Nat) (p : WlPacket) : Chip :=
  (c.setWl w fun s =>
    let r := withSkips s.sinceSkip p.words
    { s with sent := some p, sentWords := r.1, sinceSkip := r.2 }).inc .WL_TX_PACKETS w

/-- The next packet goes out (R287). In `WL_HELLO` only `HELLO` packets go. -/
def Chip.wlTransmit (c : Chip) (w : Nat) : Chip :=
  let s := c.wl w
  if s.squelch then c
  else if c.wlState w = wlHello then
    match (s.queue 1).find? fun p => p.kind = 1 with
    | none => c
    | some p => (c.setWl w fun s => { s with queues := s.queues.set 1 ((s.queue 1).erase p) [] }).wlPut w p
  else if c.wlState w = wlUp then
    match s.nextClass with
    | none => c
    | some k => match s.queue k with
      | [] => c
      | p :: l => (c.setWl w fun s =>
          { s with queues := s.queues.set k l [],
                   alarmRun := if k = 1 && !(s.queue 2).isEmpty then s.alarmRun + 1 else 0 }).wlPut w p
  else c

/-- `TIME` payload (Table 12-8). -/
def Chip.timeOctets (c : Chip) (seq kind t : Nat) : List Octet :=
  natToOctets 2 seq ++ natToOctets 1 kind ++ natToOctets 1 (b2n (c.rdBool .TIME_VALID) + 2 * b2n (c.rdBit .WALE_STATUS 1))
    ++ natToOctets 1 (c.rd .WALE_ROOT_DISTANCE) ++ List.replicate 7 0 ++ natToOctets 12 (time96 t)

/-- Calibrated delay of a port's transmit or receive lane, in units of 2^-48 ns (R296, R368). -/
def Chip.laneDelay (c : Chip) (w : Nat) (rx : Bool) : Nat :=
  rowField 8 (c.rd .CAL_WALE_DELAY 0 w) (if rx then 4 else 0) 4 * 2 ^ 48 / 1000

/-- Instant at which a word sent now crosses the lands, and one at which a word that arrives `frac` sixteenths of a bit after the present
edge crossed them (R296). -/
def Chip.tsOut (c : Chip) (w : Nat) : Nat := (c.tb + c.laneDelay w false) % tbCycle
def Chip.tsIn (c : Chip) (w frac : Nat) : Nat := (c.tb + frac * 2 ^ 40 + tbCycle - c.laneDelay w true % tbCycle) % tbCycle

/-- A `SYNC` word on every port that is up, with its follow-up (R296). -/
def Chip.syncAll (c : Chip) : Chip :=
  c.each c.wlUps fun c w =>
    let n := ((c.wl w).syncSeq + 1) % 65536
    (c.setWl w fun s => { s with syncSeq := n }).wlLocal w 0 0x03 (c.timeOctets n 1 (c.tsOut w))

/-- Upstream port that is up, of a device that is not the root. -/
def Chip.upstreamUp (c : Chip) : Option Nat :=
  let u := c.rd .WALE_UPSTREAM
  if !c.rdBit .WALE_STATUS 1 && u < 6 && c.wlState u = wlUp then some u else none

/-- A `DREQ` word (R296). -/
def Chip.dreqSend (c : Chip) : Chip :=
  match c.upstreamUp with
  | none => c
  | some w =>
    let n := ((c.wl w).dreqSeq + 1) % 65536
    c.setWl w fun s => { s with dreqSeq := n, dreqOut := some (n, c.tsOut w) }

/-- An arriving `WC_TS` word, its instant resolved to 1/16 of a bit (R296). -/
def Chip.tsTake (c : Chip) (w kind seq frac : Nat) : Chip :=
  let t := c.tsIn w frac
  if c.wlState w ≠ wlUp then c
  else if kind = 1 then c.setWl w fun s => { s with syncIn := some (seq, t) }
  else if kind = 2 then c.wlLocal w 0 0x03 (c.timeOctets seq 2 t)
  else c

/-- A complete `SYNC` exchange on the upstream port gives a delay and an offset (R297, R298), in units of 2^-48 ns. -/
def Chip.exchange (c : Chip) (st : Stepper) (w t1 t2 flags : Nat) : Chip :=
  match (c.wl w).dreqDone with
  | none => c
  | some (t3, t4) =>
    let down : Int := (t2 : Int) - t1
    let d := idiv (down + ((t4 : Int) - t3)) 2
    let c := c.wr .WL_LINK_DELAY w ((idiv (d * 1000) (2 ^ 48)) % 2 ^ 32).toNat
    let o := down - d - idiv (c.rdInt .WL_DELAY_ASYM w * 2 ^ 48) 2000
    if c.rdBit .WALE_STATUS 3 || flags % 2 = 0 || c.timeSource ≠ .wale then c else c.servoTake st (toNs16 o)

/-- A received `TIME` packet (R296, R297). -/
def Chip.timeTake (c : Chip) (st : Stepper) (w : Nat) (l : List Octet) : Chip :=
  let seq := octNat l 0 2
  let t := ofTime96 (octNat l 12 12)
  let s := c.wl w
  if c.upstreamUp ≠ some w then c
  else if octNat l 2 1 = 1 then
    match s.syncIn with
    | some (n, t2) =>
      if n = seq then (c.setWl w fun s => { s with syncIn := none }).exchange st w t t2 (octNat l 3 1) else c
    | none => c
  else if octNat l 2 1 = 2 then
    match s.dreqOut with
    | some (n, t3) => if n = seq then c.setWl w fun s => { s with dreqOut := none, dreqDone := some (t3, t) } else c
    | none => c
  else c

/-- Records that wait go into one `EVENT` packet (R300). -/
def Chip.eventSend (c : Chip) (cls : Nat) (l : List EvRec) : Chip :=
  let d := c.rd .WALE_EVENT_DEST
  if l.isEmpty || d = 0 || d = c.rd .WALE_ADDRESS then c
  else c.wlSend { dest := d, src := 0, cls := cls, kind := 0x05, payload := l.flatMap fun r => natToOctets 32 r.toNat }

/-- Outcome of a timed commit at the device that posted it (R396). -/
def Chip.outcomeTake (c : Chip) (a tag state cause : Nat) : Chip :=
  if c.rd .UPSETT_TAG = tag then
    c.wrRow .UPSETT_REPORT 0 a (state * 4096 + (if state = 3 || state = 4 then cause else 0))
  else c

/-- An outcome goes to the poster's address, or is taken here (R396). -/
def Chip.outcome (c : Chip) (dest tag state cause : Nat) : Chip :=
  if dest = c.rd .WALE_ADDRESS then c.outcomeTake dest tag state cause
  else c.setWale fun x => { x with outcomes := x.outcomes ++ [⟨dest, tag, state, cause⟩] }

/-- The outcomes that wait for one address go into a packet; the layout of their records is not stated. -/
def Chip.outcomesSend (c : Chip) : Chip :=
  match c.wale.outcomes with
  | [] => c
  | o :: _ =>
    let mine := (c.wale.outcomes.filter fun x => x.dest = o.dest).take 32
    let c := c.setWale fun x => { x with outcomes := mine.foldl (fun a y => a.erase y) x.outcomes }
    let r := mine.foldl (fun (a : List Octet × Chip) _ => let d := a.2.draw; (a.1 ++ natToOctets 32 d.1, d.2)) ([], c)
    r.2.wlSend { dest := o.dest, src := 0, cls := 3, kind := 0x05, payload := r.1 }

/-- EVENT_PACKET_SEND (R300, R396). -/
def Chip.eventPacket (c : Chip) (b : EventBatch) : Chip :=
  match b with
  | .alarms =>
    (c.setWale fun x => { x with alarms := x.alarms.drop 32 }).eventSend 1 (c.wale.alarms.take 32)
  | .others =>
    (c.setWale fun x => { x with traces := x.traces.drop 32 }).eventSend 3 (c.wale.traces.take 32)
  | .outcomes => c.outcomesSend

/-- A write of `UPSETT_TAG` clears every row of `UPSETT_REPORT` (R396). -/
def Chip.writeUpsettTag (c : Chip) (v : Nat) : Abort × Chip :=
  (.ok, (c.clrAll .UPSETT_REPORT 0).wrDev .UPSETT_TAG v)

end Sys2Proof.Machine
end

