-- ==== Sys2Proof/Machine/Cal.lean ====
section
/-!
DEFINITION. Calibration (chapter 15): the record of a pair engine, its redundant elements, background visits and foreground
calibration.
-/
set_option Elab.async false
namespace Sys2Proof.Machine

/-- Octets of a fresh record (R354, Table 15-3). -/
def crDflt (o : Nat) : Nat :=
  if 32 ≤ o ∧ o < 50 then (if o < 48 then o - 32 else 0x40)
  else if o = 114 ∨ o = 115 then 0x40
  else 0

/-- Octet of a record, a write of one, and the two-octet values. -/
def crGet (r : Tab Nat Nat) (o : Nat) : Nat := r.getD o (crDflt o)
def crPut (r : Tab Nat Nat) (o v : Nat) : Tab Nat Nat := r.set o (v % 256) (crDflt o)
def crGet16 (r : Tab Nat Nat) (o : Nat) : Int := toInt 16 (crGet r o * 256 + crGet r (o + 1))
def crPut16 (r : Tab Nat Nat) (o : Nat) (x : Int) : Tab Nat Nat :=
  let v := ofInt 16 x
  crPut (crPut r o (v / 256)) (o + 1) (v % 256)

/-- Octets of a list from an offset on. -/
def crPutList (r : Tab Nat Nat) (o : Nat) (l : List Octet) : Tab Nat Nat :=
  (l.foldl (fun (a : Tab Nat Nat × Nat) x => (crPut a.1 a.2 x.toNat, a.2 + 1)) (r, o)).1

/-- Number of elements of a rotation, and the octet of an element's state. -/
def elemCount (dac : Bool) : Nat := if dac then 66 else 18
def stateOctet (dac : Bool) (n : Nat) : Nat := if dac then 50 + n else 32 + n

/-- State of an element: 0 in use, 1 spare, 2 retired, 3 under calibration. -/
def elemState (r : Tab Nat Nat) (dac : Bool) (n : Nat) : Nat := crGet r (stateOctet dac n) / 64
def setElem (r : Tab Nat Nat) (dac : Bool) (n st : Nat) : Tab Nat Nat :=
  crPut r (stateOctet dac n) (st * 64 + crGet r (stateOctet dac n) % 64)

/-- Lowest-numbered spare (R355). -/
def spareOf (r : Tab Nat Nat) (dac : Bool) : Option Nat :=
  (List.range (elemCount dac)).find? fun n => elemState r dac n = 1

/-- Retire an element: the lowest-numbered spare takes its place (R355). -/
def retireElem (r : Tab Nat Nat) (dac : Bool) (n : Nat) : Tab Nat Nat :=
  let slot := crGet r (stateOctet dac n) % 64
  let r' := crPut r (stateOctet dac n) 0x80
  if elemState r dac n = 1 then r'
  else match spareOf r' dac with
    | some s => crPut r' (stateOctet dac s) slot
    | none => r'

/-- Octet of a quantity of an element in the record (Table 15-3). -/
def Quantity.octet (q : Quantity) (n : Nat) : Nat :=
  match q with
  | .offset => 116 + 6 * n
  | .gain => 118 + 6 * n
  | .skew => 120 + 6 * n
  | .timing => 226 + 4 * n
  | .cmp k c => 488 + 16 * n + 2 * k.val + c.val

/-- Octet of a quantity in either rotation: the gain of a segment stands elsewhere than that of a sub-ADC. -/
def qOctet (dac : Bool) (q : Quantity) (n : Nat) : Nat :=
  match dac, q with
  | true, .gain => 224 + 4 * n
  | _, q => q.octet n

/-- A quantity belongs to a rotation (Table 15-2). -/
def Quantity.of (dac : Bool) : Quantity → Bool
  | .gain => true
  | .timing => dac
  | _ => !dac

/-- Absolute window, greatest change, and step per update (Table 15-2). -/
def qWindow (dac : Bool) : Quantity → Nat × Nat × Nat
  | .offset => (2048, 256, 4)
  | .gain => if dac then (655, 66, 8) else (983, 82, 4)
  | .skew => (2097, 210, 2)
  | .timing => (3146, 315, 2)
  | .cmp _ _ => (96, 8, 0)

/-- Correction in force of a quantity. -/
def CalSt.current (s : CalSt) (dac : Bool) (q : Quantity) (n : Nat) : Int :=
  match q with
  | .cmp _ _ => toInt 8 (crGet s.octets (qOctet dac q n))
  | _ => crGet16 s.octets (qOctet dac q n)

/-- Last accepted result of a quantity: of a visit, or else what the record holds of it from its foreground calibration or its load. -/
def CalSt.lastAccepted (s : CalSt) (dac : Bool) (q : Quantity) (n : Nat) : Int :=
  s.accepted.getD (qOctet dac q n) (s.current dac q n)

/-- A result lies in both windows (R359). -/
def CalSt.accepts (s : CalSt) (dac : Bool) (q : Quantity) (n : Nat) (x : Int) : Bool :=
  let w := qWindow dac q
  x.natAbs ≤ w.1 && (x - s.lastAccepted dac q n).natAbs ≤ w.2.1

/-- A stage with a retired candidate is no longer calibrated (R355). -/
def stageHeld (r : Tab Nat Nat) (n k : Nat) : Bool := crGet r (488 + 16 * n + 2 * k) = 0x80 || crGet r (489 + 16 * n + 2 * k) = 0x80

/-- A candidate is retired: the other one of its stage stays in use (R355). -/
def retireCmp (r : Tab Nat Nat) (n k d : Nat) : Tab Nat Nat :=
  crPut (crPut r (488 + 16 * n + 2 * k + d) 0x80) (776 + n) (withBit (crGet r (776 + n)) k (d = 0))

/-- The measurement of a sub-ADC exchanges the candidates of every stage still calibrated (Table 15-1): the other one of each stays in
use. -/
def exchangeCmp (r : Tab Nat Nat) (n : Nat) : Tab Nat Nat :=
  (List.range 8).foldl (fun r k =>
    if stageHeld r n k then r else crPut r (776 + n) (withBit (crGet r (776 + n)) k (!(crGet r (776 + n)).testBit k))) r

/-- A visit may start (R356). -/
def Chip.mayVisit (c : Chip) (e : Nat) (dac : Bool) : Bool :=
  let s := c.port (c.portOf e)
  c.rdBool .CAL_ENABLE && s.link.visits && !(s.link = .trainT3 && s.pam16) && !c.rdBool .PE_COEF_FREEZE e
    && c.rd .BIST_STATE_PE e != 2 && !((c.calOf e).rot dac).noSpare && (c.calOf e).valid && !c.blockQuiet (tileOf e) 5

/-- The next visit of the round starts, if one is left and may start (R356, Table 15-1). -/
def Chip.visitStart (c : Chip) (e : Nat) (dac : Bool) : Chip :=
  let k := c.calOf e
  let r := k.rot dac
  if r.visit.isSome || !r.round || !c.mayVisit e dac then c
  else match r.left with
    | [] => c
    | n :: l =>
      let spare := elemState k.octets dac n = 1
      let stand := if spare then none else spareOf k.octets dac
      let v : Visit := { elem := n, phase := if spare then .measure else .standIn, stand := stand, divider := c.quadDivider (quadOf e) }
      c.setCal e fun k => (k.setRot dac fun r => { r with left := l, visit := some v })

/-- CAL_ROUND_START (R356): not within 10 ms of the start of the round before. -/
def Chip.roundStart (c : Chip) (e : Nat) (dac : Bool) : Chip :=
  let k := c.calOf e
  let r := k.rot dac
  if !c.rdBool .CAL_ENABLE || r.round || r.noSpare || !k.valid || c.rd .BIST_STATE_PE e = 2
    || (r.from_ ≠ 0 && c.root < r.from_ + rootUs 10000) then c
  else
    let all := (List.range (elemCount dac)).filter fun n => elemState k.octets dac n != 2
    (c.setCal e fun k => k.setRot dac fun r => { r with left := all, round := true, from_ := c.root }).visitStart e dac

/-- A visit ends: the round goes on with its next element, or ends (R356). -/
def Chip.visitEnd (c : Chip) (e : Nat) (dac : Bool) : Chip :=
  let c := (c.setCal e fun k => k.setRot dac fun r => { r with visit := none }).inc .CAL_VISIT_COUNT e
  (c.roundEnd e dac).visitStart e dac

/-- No spare of a kind is left: the rotation stops (R359). -/
def Chip.spareGone (c : Chip) (e : Nat) (dac : Bool) : Chip :=
  let k := c.calOf e
  if (k.rot dac).noSpare || (spareOf k.octets dac).isSome then c
  else (c.setCal e fun k =>
    { k.setRot dac fun r => { r with noSpare := true, left := [], round := false } with
      octets := crPut k.octets 31 (crGet k.octets 31 ||| (if dac then 4 else 2)) }).raise .noSpare (Cls.pe.addr e)

/-- A pair engine is marked unusable (R369, Table 15-7). -/
def Chip.peUnusable (c : Chip) (e : Nat) : Chip :=
  if c.rd .BIST_STATE_PE e = 2 then c
  else
    let c := ((c.wr .BIST_STATE_PE e 2).raise .bistUnusable (Cls.pe.addr e)).setPe e fun s => { s with adapting := false }
    (c.invalidate e).ancUnusable e

/-- Too few elements are left (R366), or both candidates of a stage are retired. -/
def recordUnusable (r : Tab Nat Nat) : Bool :=
  ((List.range 18).filter fun n => elemState r false n != 2).length < 16
    || ((List.range 66).filter fun n => elemState r true n != 2).length < 64
    || (List.range 18).any fun n => elemState r false n != 2 && (List.range 8).any fun k =>
        crGet r (488 + 16 * n + 2 * k) = 0x80 && crGet r (489 + 16 * n + 2 * k) = 0x80

/-- An element, or a candidate, has been retired (R355, R359). -/
def Chip.elemRetired (c : Chip) (e : Nat) (code : Nat) : Chip :=
  let c := (c.setCal e fun k => { k with changed := true }).raise .elementRetired (Cls.pe.addr e) code
  if recordUnusable (c.calOf e).octets then c.peUnusable e else c

/-- One result of a visit is accepted, or rejected and counted (R359). After a rejection the element goes back to its previous
correction from the one that matched its stand-in. -/
def Chip.resultTake (c : Chip) (e : Nat) (dac : Bool) (v : Visit) (x : Quantity × Int) : Chip :=
  let o := qOctet dac x.1 v.elem
  let held := match x.1 with
    | .cmp s _ => stageHeld (c.calOf e).octets v.elem s
    | _ => false
  if !(x.1.of dac) || held then c
  else if (c.calOf e).accepts dac x.1 v.elem x.2 then
    c.setCal e fun k =>
      let k := { k with accepted := k.accepted.put o x.2, changed := true }
      match x.1 with
      | .cmp s d =>
        { k with octets := crPut k.octets o (ofInt 8 x.2), rejects := k.rejects.del (1000 + 16 * v.elem + 2 * s.val + d.val) }
      | _ => if v.stand.isNone then { k with octets := crPut16 k.octets o x.2 } else { k with target := k.target.put o x.2 }
  else
    let c := (c.inc .CAL_REJECT_COUNT e).raise .calRejected (Cls.pe.addr e) (Config.pack v.elem o)
    match x.1 with
    | .cmp s d => c.setCal e fun k =>
        { k with rejects := k.rejects.upd (1000 + 16 * v.elem + 2 * s.val + d.val) 0 fun n => n + 1 }
    | q => if v.stand.isNone then c
      else c.setCal e fun k => { k with target := k.target.put o (k.target.getD o (k.current dac q v.elem)) }

/-- A candidate rejected at three consecutive visits is retired: the other of its stage stays in use (R355, R359). -/
def Chip.candidatesRetire (c : Chip) (e n : Nat) : Chip :=
  c.each (((c.calOf e).rejects.filter fun x => 1000 ≤ x.1 && (x.1 - 1000) / 16 = n && x.2 ≥ 3).map fun x => x.1 - 1000)
    fun c i =>
      (c.setCal e fun s =>
        { s with octets := retireCmp s.octets n (i % 16 / 2) (i % 2), rejects := s.rejects.del (1000 + i) }).elemRetired e (0x200 + i)

/-- The check at the end of a measurement (R359). -/
def Chip.visitCheck (c : Chip) (e : Nat) (dac : Bool) (v : Visit) (l : List (Quantity × Int)) : Chip :=
  let key := if dac then 100 + v.elem else v.elem
  let bad : Bool := l.any fun x => x.1.of dac && !(c.calOf e).accepts dac x.1 v.elem x.2
    && (match x.1 with
      | .cmp _ _ => false
      | _ => true)
  let c := c.each l fun c x => c.resultTake e dac v x
  let c := c.setCal e fun k =>
    { k with rejects := if bad then k.rejects.upd key 0 (fun n => n + 1) else k.rejects.del key,
             octets := if dac then k.octets else exchangeCmp k.octets v.elem }
  let c := if dac then c else c.candidatesRetire e v.elem
  if (c.calOf e).rejects.getD key 0 ≥ 3 then
    let c := (c.setCal e fun k =>
      { k with octets := retireElem k.octets dac v.elem, rejects := k.rejects.del key }).elemRetired e
        (if dac then 0x100 + v.elem else v.elem)
    (c.visitEnd e dac).spareGone e dac
  else if v.stand.isNone then c.visitEnd e dac
  else c.setCal e fun k => k.setRot dac fun r => { r with visit := some { v with phase := .back } }

/-- Corrections set so that one element matches another (Table 15-1). -/
def matchElem (r : Tab Nat Nat) (dac : Bool) (n : Nat) (l : List (Quantity × Int)) : Tab Nat Nat :=
  l.foldl (fun r x => match x.1 with
    | .cmp _ _ => r
    | q => if q.of dac then crPut16 r (qOctet dac q n) x.2 else r) r

/-- A spare that is set to match another element keeps its own last accepted results. -/
def CalSt.keepAccepted (k : CalSt) (dac : Bool) (n : Nat) (l : List (Quantity × Int)) : Tab Nat Int :=
  l.foldl (fun a x => match x.1 with
    | .cmp _ _ => a
    | q => if q.of dac then a.put (qOctet dac q n) (k.lastAccepted dac q n) else a) k.accepted

/-- CAL_VISIT_PHASE_END (Table 15-1). -/
def Chip.visitPhase (c : Chip) (e : Nat) (dac : Bool) (results matched : List (Quantity × Int)) : Chip :=
  match ((c.calOf e).rot dac).visit with
  | none => c.visitStart e dac
  | some v => match v.phase with
    | .standIn => c.setCal e fun k =>
        let k := k.setRot dac fun r => { r with visit := some { v with phase := .measure } }
        match v.stand with
        | some s => { k with octets := matchElem k.octets dac s matched, accepted := k.keepAccepted dac s matched }
        | none => k
    | .measure => c.visitCheck e dac v results
    | .back => (c.setCal e fun k => { k with octets := matchElem k.octets dac v.elem matched }).visitEnd e dac

/-- One step of a correction toward its result. -/
def stepToward (step : Nat) (x t : Int) : Int :=
  if (t - x).natAbs ≤ step then t else if x < t then x + step else x - step

/-- Step of the value at an octet of the record (Table 15-2). -/
def octetStep (o : Nat) : Nat :=
  if o < 224 then (if (o - 116) % 6 = 4 then 2 else 4) else if (o - 224) % 4 = 2 then 2 else 8

/-- Rotation and element to which a correction belongs. -/
def octetElem (o : Nat) : Bool × Nat := if o < 224 then (false, (o - 116) / 6) else (true, (o - 224) / 4)

/-- CAL_CORRECTION_UPDATE: every correction in the data path moves one step toward its result (R358). -/
def CalSt.update (k : CalSt) : CalSt :=
  k.target.foldl (fun k x =>
    let o := x.1
    let el := octetElem o
    let visiting : Bool := match (k.rot el.1).visit with
      | some v => v.elem = el.2
      | none => false
    if visiting then k
    else
      let y := stepToward (octetStep o) (crGet16 k.octets o) x.2
      { k with octets := crPut16 k.octets o y, target := if y = x.2 then k.target.del o else k.target, changed := true }) k

/-- Octet of the record as `CAL_RECORD` shows it: an element out of the data path reads as under calibration. -/
def CalSt.shown (k : CalSt) (o : Nat) : Nat :=
  let mark := fun (dac : Bool) => match (k.rot dac).visit with
    | some v => v.phase = .measure && stateOctet dac v.elem = o
    | none => false
  if mark false || mark true then 0xC0 + crGet k.octets o % 64 else crGet k.octets o

/-- The 1,024 octets of a record (Table 15-3): version, pair engine, identity and check are computed. -/
def recordOctets (e : Nat) (f : Nat → Nat) : List Octet :=
  let l := natToOctets 2 1 ++ natToOctets 2 e ++ natToOctets 8 Config.deviceId.toNat
    ++ (List.range 1008).map fun k => BitVec.ofNat 8 (f (k + 12))
  l ++ natToOctets 4 (crc32 l)

/-- Newest copy of a record in MRAM (R361). -/
def CalCopy.newer (a b : Option CalCopy) : Option CalCopy :=
  match a, b with
  | some x, some y => if y.gen > x.gen then some y else some x
  | some x, none => some x
  | none, y => y

/-- CAL_RECORD_STORE: a record that has changed goes to the copy that is not the newest one, with the next generation (R361). -/
def Chip.recordStore (c : Chip) (e : Nat) : Chip :=
  let k := c.calOf e
  if !k.valid || !k.changed then c
  else
    let x := c.nv.cal.getD e (none, none)
    let g := match CalCopy.newer x.1 x.2 with
      | some y => y.gen + 1
      | none => 1
    let r := crPutList (crPutList k.octets 12 (natToOctets 12 c.now96)) 24 (natToOctets 4 g)
    let new := some (⟨g, r⟩ : CalCopy)
    let first := match x.1, x.2 with
      | none, _ => true
      | some _, none => false
      | some a, some b => a.gen < b.gen
    let y := if first then (new, x.2) else (x.1, new)
    ({ c with nv := { c.nv with cal := c.nv.cal.put e y } } : Chip).setCal e fun k => { k with octets := r, changed := false }

/-- `NO_SPARE` of both rotations follows the record's flags (Table 15-3). -/
def CalSt.noSpares (k : CalSt) : CalSt :=
  let f := crGet k.octets 31
  { k with adc := { k.adc with noSpare := f.testBit 1 }, dac := { k.dac with noSpare := f.testBit 2 } }

/-- CAL_RECORD_LOAD at a start: the valid copy with the higher generation, or a discarded record (R362). `bad` names the copies
found damaged. -/
def Chip.recordLoad (c : Chip) (bad : List (PeNo × Bool)) (e : Nat) : Chip :=
  let hit := fun (second : Bool) => bad.any fun x => x.1.val = e && x.2 = second
  let x := c.nv.cal.getD e (none, none)
  let a := if hit false then none else x.1
  let b := if hit true then none else x.2
  match CalCopy.newer a b with
  | some y => c.setCal e fun k => { k with octets := y.octets, valid := true }.noSpares
  | none =>
    if x.1.isNone && x.2.isNone then c
    else (c.setCal e fun k => { k with discarded := true }).raise .recordDiscarded (Cls.pe.addr e)

/-- A port that is enabled and waited for calibration starts (R365, R366). -/
def Chip.startWaiting (c : Chip) (p : Nat) : Chip :=
  if c.rdBool .PORT_ENABLE p && (c.port p).link = .disabled then c.startEnabled p else c

/-- CAL_START (R366). -/
def Chip.writeCalStart (c : Chip) (e v : Nat) : Abort × Chip :=
  if v = 0 then (.ok, c)
  else if v > 1 then (.range, c)
  else if (c.calOf e).fg then (.busy, c)
  else if (c.port (c.portOf e)).link ≠ .disabled || !c.tileRuns (tileOf e) || !c.rdBit .LEGACY_GATE (16 + tileOf e) then (.state, c)
  else (.ok, (c.setCal e fun k => { k with fg := true }).tileRaised (tileOf e))

/-- FOREGROUND_GROUP_START: the next tile group with a pair engine to calibrate starts (R365). -/
def Chip.fgGroupStart (c : Chip) : Chip :=
  match c.bist.fgGroups with
  | [] => c
  | g :: l =>
    let c : Chip := { c with bist := { c.bist with fgGroups := l } }
    let pes := (List.range 128).map fun k => 128 * g + k
    let pes := pes.filter fun e => !(c.calOf e).valid && c.tileRuns (tileOf e) && c.rd .BIST_STATE_PE e != 2
    let c := c.each pes fun c e => c.setCal e fun k => { k with fg := true }
    c.each ((List.range 4).map fun k => 4 * g + k) fun c t => c.tileRaised t

/-- The record that foreground calibration makes, and the elements that its results retire (R366). -/
def fgRecord (r : Tab Nat Nat) (m : FgMeas) : Tab Nat Nat × List Nat :=
  let z := (List.range 18).zip m.adc
  let r := z.foldl (fun r x => crPut16 (crPut16 (crPut16 r (116 + 6 * x.1) x.2.1) (118 + 6 * x.1) x.2.2.1) (120 + 6 * x.1) x.2.2.2) r
  let y := (List.range 66).zip m.dac
  let r := y.foldl (fun r x => crPut16 (crPut16 r (224 + 4 * x.1) x.2.1) (226 + 4 * x.1) x.2.2) r
  let w := (List.range 288).zip m.cmp
  let r := w.foldl (fun r x =>
    if crGet r (488 + x.1) = 0x80 || x.2.natAbs > 96 then crPut r (488 + x.1) 0x80 else crPut r (488 + x.1) (ofInt 8 x.2)) r
  let r := crPutList r 776 m.sel
  let r := crPutList r 794 (m.fe.flatMap fun x => natToOctets 2 x.toNat)
  let r := crPutList r 824 (m.delays.flatMap fun x => natToOctets 4 x.1.toNat ++ natToOctets 4 x.2.toNat)
  let r := crPut (crPut16 r 28 m.temp) 31 (crGet r 31 ||| 1)
  let badA := (z.filter fun x => x.2.1.natAbs > 2048 || x.2.2.1.natAbs > 983 || x.2.2.2.natAbs > 2097).map fun x => x.1
  let badD := (y.filter fun x => x.2.1.natAbs > 655 || x.2.2.natAbs > 3146).map fun x => x.1
  let badA := badA.filter fun n => elemState r false n != 2
  let badD := badD.filter fun n => elemState r true n != 2
  let r := badA.foldl (fun r n => retireElem r false n) r
  let r := badD.foldl (fun r n => retireElem r true n) r
  (r, badA ++ badD.map fun n => 0x100 + n)

/-- A W-mode transmit delay above its `TX_PIPE_DELAY` (R366): entries 7 to 9 of `CR_DELAY`. -/
def delayTooLong (m : FgMeas) : Bool :=
  [(7, LineMode.w12), (8, .w25), (9, .w50)].any fun x => match m.delays[x.1]? with
    | some d => d.1.toNat > x.2.pipeDelay
    | none => false

/-- A tile whose level is set by hand goes back to it when no pair engine of it calibrates any more (R340, R365). -/
def Chip.manualBack (c : Chip) (t : Nat) : Chip :=
  if c.levelManual t && !c.tileCalibrates t then c.changeLevel t (c.rd .TILE_PL_SET t) else c

/-- FOREGROUND_CAL_DONE (R365, R366). -/
def Chip.fgDone (c : Chip) (e : Nat) (m : FgMeas) : Chip :=
  if !(c.calOf e).fg || !c.tileRuns (tileOf e) then c
  else
    let f := fgRecord (c.calOf e).octets m
    let c := c.setCal e fun k =>
      { k with octets := f.1, target := [], accepted := [], rejects := [], fg := false, changed := true, valid := true }
    let c := c.each f.2 fun c n => c.raise .elementRetired (Cls.pe.addr e) n
    let c := (c.spareGone e false).spareGone e true
    let c := if recordUnusable f.1 || delayTooLong m then c.peUnusable e else c
    (c.manualBack (tileOf e)).startWaiting (c.portOf e)

/-- A visit that is abandoned, unless it is returning (R360). -/
def Rotation.abandon (r : Rotation) : Rotation :=
  { r with visit := match r.visit with
    | some v => if v.phase = .back then some v else none
    | none => none }

/-- The calibration engine of a tile quiesces: visits end, their elements return as they were (R360, Table 14-7). -/
def Chip.calQuiesce (c : Chip) (tile : Option Nat) : Chip :=
  { c with cal := c.cal.map fun x =>
      if tile.isNone || tile = some (tileOf x.1) then (x.1, { x.2 with adc := x.2.adc.abandon, dac := x.2.dac.abandon }) else x }

end Sys2Proof.Machine
end

