-- ==== Sys2Proof/Machine/Tile.lean ====
section
/-!
DEFINITION. Tile power: running, isolation and level changes (R339 to R343, R352), and the conditions of FAULT_N (R407).
-/
set_option Elab.async false
namespace Sys2Proof.Machine

/-- Formed ports of a tile that are not disabled. -/
def Chip.tilePorts (c : Chip) (t : Nat) : List Nat := c.portsOfTile t

/-- A port stops without sealing its stores: the direct path and a lost clock or regulator (R348); adaptation stops with its last
write-back (R109). -/
def Chip.cutPort (c : Chip) (p : Nat) : Chip :=
  if (c.port p).link = .disabled || (c.port p).link = .held then c
  else
    let was := c.up p
    let c := (c.leave p).setCause p 0x09
    let c := if was then c.raise .linkDown (Cls.port.addr p) 0x09 else c
    let c := c.setPort p fun s => { s with link := .held, noFast := false }
    c.each (c.pesOf p) fun c e => c.setPe e fun s => { s.writeBack with adapting := false }

/-- A tile enters `TILE_ISOLATED` (Table 14-6, R77, R352): its ports go to `LINK_HELD`, its stores lose what they held, its pair
engines leave every weave-map slot (Table 5-3), and an ALARM is raised. -/
def Chip.isolate (c : Chip) (t : Nat) : Chip :=
  if (c.tile t).st = .isolated then c
  else
    let c := c.each (c.tilePorts t) fun c p => c.cutPort p
    let c := c.each ((List.range 32).map fun k => 32 * t + k) fun c e => (c.invalidate e).ancUnusable e
    let c : Chip := { c with cal := c.cal.map fun x => if tileOf x.1 = t then (x.1, { x.2 with fg := false }) else x }
    (c.setTile t fun s =>
      { s with st := .isolated, pending := none, agreed := none, entering := false, waking := false, levelTarget := none,
               levelPending := none }).raise .tileIsolated (Cls.tile.addr t)

/-- A tile's regulator has failed for good: `REG_FAULT`, and isolation (R23, R352). -/
def Chip.regFailed (c : Chip) (t : Nat) : Chip := (c.setTile t fun s => { s with regFault := true }).isolate t

/-- A held port whose tile runs starts again (R84, R343, R351). -/
def Chip.wakePort (c : Chip) (p : Nat) : Chip :=
  if (c.port p).link = .held && c.cfgApplied && c.calReady p then c.resumeLink p else c

/-- A tile enters `TILE_RUN`: a kept level change is carried out, and its ports start (R341, R343, R351). -/
def Chip.tileRun (c : Chip) (t : Nat) : Chip :=
  let lvl := (c.tile t).levelPending
  let c := c.setTile t fun s =>
    { s with st := .run, waking := false, tries := 0, levelPending := none, regFault := false }
  let c := match lvl with
    | some l => c.changeLevel t l
    | none => c
  let c := c.tileRaised t
  c.each (c.tilePorts t) fun c p => c.wakePort p

/-- A level change completes: `TILE_PL_ACTIVE` changes, a kept change starts, and ports that waited for the level start
the training they waited for (R27, R62, R341). The switch of D(17 + t) that it made was acknowledged, unless it was forced (R336). -/
def Chip.levelDone (c : Chip) (t : Nat) : Chip :=
  match (c.tile t).levelTarget with
  | none => c
  | some l =>
    let next := (c.tile t).levelPending
    let c := c.setTile t fun s => { s with level := l, levelTarget := none, levelPending := none }
    let d := 17 + t
    let c := c.setPwr fun p =>
      { p with forced := if p.forcedNow.contains d then p.forced else p.forced.filter fun x => x != d,
               forcedNow := p.forcedNow.filter fun x => x != d }
    let c := match next with
      | some n => c.changeLevel t n
      | none => c
    c.each (c.tilePorts t) fun c p =>
      if !(c.port p).waitLevel then c
      else match (c.port p).mode with
        | some m => if c.levelInForce t m then c.trainNow p m (c.port p).waitFast else c
        | none => c

/-- PL_LOWER_TIMER: the need has stayed below the level for 1 s (R339). -/
def Chip.levelLower (c : Chip) (t : Nat) : Chip :=
  if c.levelManual t || c.tileNeed t ≤ (c.tile t).levelGoal then c else c.changeLevel t (c.tileNeed t)

/-- A mode that runs on the tile cannot run at a level (R27, R340). -/
def Chip.levelBreaks (c : Chip) (t l : Nat) : Bool :=
  (c.tilePorts t).any fun p => match c.portNeed p with
    | some n => n < l
    | none => false

/-- A write of `TILE_PL_MODE` or `TILE_PL_SET` (R340, Table 14-12). -/
def Chip.writeTilePl (c : Chip) (t : Nat) (set : Bool) (v : Nat) : Abort × Chip :=
  if set then
    if v > 3 then (.range, c)
    else if !c.levelManual t || c.levelBreaks t v then (.state, c)
    else (.ok, (c.wr .TILE_PL_SET t v).changeLevel t (if c.tileCalibrates t then 0 else v))
  else if v > 1 then (.range, c)
  else if v = 1 then
    let l := c.rd .TILE_PL_SET t
    if c.levelBreaks t l then (.state, c)
    else (.ok, (c.wr .TILE_PL_MODE t 1).changeLevel t (if c.tileCalibrates t then 0 else l))
  else (.ok, (c.wr .TILE_PL_MODE t 0).tileRaised t)

/-- Tiles in `TILE_ISOLATED`. -/
def Chip.anyIsolated (c : Chip) : Bool := c.pwr.tiles.any fun x => x.2.st = .isolated

/-- The conditions of Table 17-4; `FT_THERMAL` is set and cleared with `THERM_OVER` (R431). -/
def Chip.faultStatus (c : Chip) : Nat :=
  b2n (c.pwr.state = .wakeFault) + 2 * b2n (c.boot.phase = .recovery) + 4 * b2n c.anyIsolated
    + 8 * b2n ((List.range 4).any fun q => c.rd .SCHED_QUAD_STATE 0 q = 2) + 16 * b2n (c.rdBit .BUF_STATUS 2)
    + 32 * b2n (c.rdBit .MON_STATUS 3)

/-- FAULT_N is low (R407, R408): from VIN good to the end of step 2, and while an enabled condition holds. -/
def Chip.faultLow (c : Chip) : Bool :=
  match c.boot.phase with
  | .noPower | .inReset => true
  | .clocks => true
  | _ => match c.pwr.pins with
    | some x => x.2
    | none => c.faultStatus &&& (c.rd .FAULT_ENABLE ||| 3) != 0

/-- INT_N is low (R406, R408). -/
def Chip.intPin (c : Chip) : Bool :=
  match c.boot.phase with
  | .noPower | .inReset => false
  | _ => match c.pwr.pins with
    | some x => x.1
    | none => c.intLow

end Sys2Proof.Machine
end

