-- ==== Sys2Proof/Machine/Bist.lean ====
section
/-!
DEFINITION. Self-test (chapter 15): results, repair from spares, unusable blocks, in-service slices and the log.
-/
set_option Elab.async false
namespace Sys2Proof.Machine

/-- Code of a test, its instance number and its scheduler quadrant (Table 15-5). -/
def TestOn.code : TestOn → Nat
  | .coefStore _ => 0x01 | .schedSram _ => 0x02 | .qdr _ => 0x03 | .mram => 0x04 | .lbistTile _ => 0x05 | .lbistCore _ => 0x06
  | .peLoopback _ => 0x10 | .hybrid _ => 0x11 | .regulator _ => 0x12 | .reference => 0x13 | .pll => 0x14 | .hlane _ => 0x15
  | .wale _ _ _ => 0x16
def TestOn.instNo : TestOn → Nat
  | .coefStore e | .peLoopback e | .hybrid e => Cls.pe.addr e
  | .qdr h => Cls.qc.addr h
  | .lbistTile t | .regulator t => Cls.tile.addr t
  | .hlane h => Cls.hlane.addr h
  | .wale w _ _ => Cls.wl.addr w
  | _ => 0
def TestOn.quadrant : TestOn → Nat
  | .schedSram q | .lbistCore q => q
  | _ => 0

/-- The test of an in-service slice. -/
def SliceOn.test : SliceOn → TestOn
  | .store e => .coefStore e
  | .sched q => .schedSram q
  | .cells h => .qdr h

/-- Key of a test's target: its code and its unit. -/
def TestOn.key : TestOn → Nat
  | .coefStore e => 0x01 * 4096 + e.val
  | .schedSram q => 0x02 * 4096 + q.val
  | .qdr h => 0x03 * 4096 + h.val
  | .mram => 0x04 * 4096
  | t => t.code * 4096

/-- `LG_ADDR` of a place (Table 15-8). -/
def FailAt.addr : FailAt → Nat
  | .row r => r
  | .memory m r => m * 2 ^ 20 + r
  | .cell k w => k.val * 8 + w.val
  | .word w => w
  | .adc e => e.val
  | .dac n => 0x100 + n.val
  | .cmp e k d => 0x200 + 16 * e.val + 2 * k.val + d.val
  | .other => 0

/-- `BIST_STATE` and `BIST_LAST` of a test's instance. -/
def TestOn.stateReg : TestOn → Option (Reg × Reg × Nat)
  | .coefStore e | .peLoopback e | .hybrid e => some (.BIST_STATE_PE, .BIST_LAST_PE, e)
  | .qdr h => some (.BIST_STATE_QC, .BIST_LAST_QC, h)
  | .lbistTile t | .regulator t => some (.BIST_STATE_TILE, .BIST_LAST_TILE, t)
  | .hlane h => some (.BIST_STATE_HLANE, .BIST_LAST_HLANE, h)
  | .wale w _ _ => some (.BIST_STATE_WL, .BIST_LAST_WL, w)
  | _ => none

/-- `BIST_STATE` of the block: of its instance, or of its scheduler quadrant. -/
def Chip.blockState (c : Chip) (t : TestOn) : Nat :=
  match t, t.stateReg with
  | .schedSram q, _ | .lbistCore q, _ => c.rd .SCHED_QUAD_STATE 0 q
  | _, some (r, _, i) => c.rd r i
  | _, none => 0

/-- Set the state of a test's block. -/
def Chip.setBlock (c : Chip) (t : TestOn) (v : Nat) : Chip :=
  match t, t.stateReg with
  | .schedSram q, _ | .lbistCore q, _ => c.wrRow .SCHED_QUAD_STATE 0 q v
  | _, some (r, _, i) => c.wr r i v
  | _, none => c

/-- A block is marked unusable, with the consequence and the event of Table 15-7. -/
def Chip.markUnusable (c : Chip) (t : TestOn) : Chip :=
  if c.blockState t = 2 then c
  else match t with
    | .coefStore e | .peLoopback e | .hybrid e => (c.peUnusable e).startWaiting (c.portOf e)
    | .schedSram _ | .lbistCore _ => (c.setBlock t 2).raise .bistUnusableAlarm 0 t.quadrant
    | .qdr h =>
      let c := if c.rd .QC_STATE h = 1 then c.wr .QC_STATE h 3 else c
      (c.setBlock t 2).raise .bistUnusable t.instNo
    | .mram => c.raise .bistUnusableAlarm 0
    | .lbistTile k | .regulator k => ((c.setBlock t 2).raise .bistUnusableAlarm t.instNo).isolate k
    | .hlane h => ((c.setBlock t 2).raise .bistUnusable t.instNo).laneEval h
    | .wale w _ _ => ((c.setBlock t 2).raise .bistUnusable t.instNo).wlFollow w
    | .reference | .pll => c

/-- Use one of `n` spares of a kind. -/
def Chip.useRow (c : Chip) (key n : Nat) : Option Chip :=
  if c.bist.rows.getD key 0 < n then some { c with bist := { c.bist with rows := c.bist.rows.upd key 0 fun k => k + 1 } } else none
def Chip.useCol (c : Chip) (key n : Nat) : Option Chip :=
  if c.bist.cols.getD key 0 < n then some { c with bist := { c.bist with cols := c.bist.cols.upd key 0 fun k => k + 1 } } else none

/-- A row of an image slot is lost: it holds no stated value. -/
def ImageSlot.lose (s : ImageSlot) (r v : Nat) : ImageSlot :=
  if s.shipped || !s.rows.isEmpty then { s with rows := s.rows.put r v } else s

/-- The content of a withdrawn MRAM row is lost, and a record held in it is treated as missing (Table 15-7), by the areas of Table 16-2.
A row of 1,024 octets is lost, calibration records lie two copies to a pair engine in order, and stored records 12 KiB to a pair
engine (DESIGN CHOICE, log entry 119); where the records of the other areas lie is not stated, and they stay. -/
def Chip.mramLose (c : Chip) (w : Nat) : Chip :=
  let o := 8 * w
  let d := c.draw
  let v := d.1 % 2 ^ 8192
  if 0x40000 ≤ o && o < 0x840000 then
    { d.2 with nv := { d.2.nv with imageA := d.2.nv.imageA.lose ((o - 0x40000) / 1024) v } }
  else if 0x840000 ≤ o && o < 0x1040000 then
    { d.2 with nv := { d.2.nv with imageB := d.2.nv.imageB.lose ((o - 0x840000) / 1024) v } }
  else if 0x1840000 ≤ o && o < 0x1940000 then
    let k := (o - 0x1840000) / 1024
    let x := c.nv.cal.getD (k / 2) (none, none)
    { c with nv := { c.nv with cal := c.nv.cal.set (k / 2) (if k % 2 = 0 then (none, x.2) else (x.1, none)) (none, none) } }
  else if 0x1940000 ≤ o && o < 0x1F40000 then
    { c with nv := { c.nv with stored := c.nv.stored.del ((o - 0x1940000) / 12288) } }
  else c

/-- Repair of one failure (Table 15-7): the code of the repair (`LG_REPAIR`; 0 when none remains) and the chip. -/
def Chip.repair (c : Chip) (t : TestOn) (f : Finding) : Nat × Chip :=
  let ofRow := fun (o : Option Chip) (k : Nat) => match o with
    | some x => (k, x)
    | none => (0, c)
  match t, f.place with
  | .coefStore _, .row _ => ofRow (c.useRow t.key 32) 1
  | .schedSram q, .memory m _ =>
    let key := 2 ^ 20 + q.val * 4096 + m
    if f.column then ofRow (c.useCol key 16) 2 else ofRow (c.useRow key 16) 1
  | .qdr h, _ =>
    if c.rd .QC_STATE h ≠ 0 then (0, c)
    else
      let spare := (List.range 34).any fun k => c.rd .QC_STATE (34 * (h.val / 34) + k) = 1
      (if spare then 5 else 0, c.retire h)
  | .mram, .word w =>
    let mib := w / 131072
    let c := c.mramLose w
    if c.nv.mramRows.getD mib 0 < 64 then
      (1, { c with nv := { c.nv with mramRows := c.nv.mramRows.upd mib 0 fun k => k + 1 } })
    else (0, c)
  | .peLoopback e, .adc n =>
    if (spareOf (c.calOf e).octets false).isSome then
      (4, (c.setCal e fun k => { k with octets := retireElem k.octets false n, changed := true }).spareGone e false)
    else (0, c)
  | .peLoopback e, .dac n =>
    if (spareOf (c.calOf e).octets true).isSome then
      (3, (c.setCal e fun k => { k with octets := retireElem k.octets true n, changed := true }).spareGone e true)
    else (0, c)
  | .peLoopback e, .cmp n k d =>
    let o := 488 + 16 * n.val + 2 * k.val
    if crGet (c.calOf e).octets (o + (1 - d.val)) = 0x80 then (0, c)
    else (6, c.setCal e fun s => { s with octets := retireCmp s.octets n k d, changed := true })
  | .hlane _, _ => (0, c)
  | _, _ => (0, c)

/-- Row of the log (Table 15-8). -/
def Chip.logRow (c : Chip) (t : TestOn) (result addr fbit cause repair flags : Nat) : Chip :=
  let n := c.rd .BIST_LOG_COUNT
  let v := octetsToNat (natToOctets 12 c.now96 ++ natToOctets 1 t.code ++ natToOctets 1 result
    ++ natToOctets 2 (t.quadrant * 4096 + t.instNo % 4096) ++ natToOctets 4 addr ++ natToOctets 1 fbit ++ natToOctets 1 cause
    ++ natToOctets 1 repair ++ natToOctets 1 flags)
  (c.wrRow .BIST_LOG 0 (n % 256) v).wrDev .BIST_LOG_COUNT (n + 1)

/-- Who ran a test (`LG_FLAGS`). -/
inductive TestBy where
  | post | service | demand
deriving DecidableEq, Repr
def TestBy.flag : TestBy → Nat
  | .post => 1 | .service => 2 | .demand => 4

/-- Repairs of the findings, in order: each with its repair code. -/
def Chip.repairAll (c : Chip) (t : TestOn) (l : List Finding) : List (Finding × Nat) × Chip :=
  l.foldl (fun a f => let r := a.2.repair t f; (a.1 ++ [(f, r.1)], r.2)) ([], c)

/-- The result of a test is judged, repaired or marked, and logged (R367, R369, R373). -/
def Chip.testResult (c : Chip) (t : TestOn) (e : TestEnd) (found : List Finding) (by_ : TestBy) : Nat × Chip :=
  let r := c.repairAll t found
  let failed := r.1.any fun x => x.2 = 0
  let result := match e with
    | .stopped _ => 2
    | .terminal => if found.isEmpty then 0 else if failed then 1 else 3
  let cause := match e with
    | .stopped k => k.val
    | .terminal => 0
  let c := r.2
  let c := if failed then c.markUnusable t
    else if found.isEmpty then c
    else
      let c := c.raise .bistRepaired t.instNo
      if c.blockState t = 0 then c.setBlock t 1 else c
  let c := match t.stateReg with
    | some (_, last, i) => c.wr last i result
    | none => c
  let flags := by_.flag + 8 * b2n failed
  let c := c.each r.1 fun c x =>
    c.logRow t result x.1.place.addr x.1.failBit.toNat (if result = 2 then cause else x.1.cause.val) x.2 flags
  let plain := found.isEmpty && ((result = 2 && by_ = .post) || by_ = .demand)
  (result, if plain then c.logRow t result 0 0xFF cause 0 flags else c)

/-- The Wale loop-back also measures lane delays (Table 15-5, R368). -/
def Chip.waleDelays (c : Chip) (t : TestOn) : Chip :=
  match t with
  | .wale w tx rx => c.wrRow .CAL_WALE_DELAY 0 w (tx.toNat * 2 ^ 32 + rx.toNat)
  | _ => c

/-- The stage of POST that runs a test (Table 15-6), where `POST_SELECT` chooses it (R368). -/
def Chip.postRuns (c : Chip) (t : TestOn) : Bool :=
  let at_ := fun (k bit : Nat) => c.bist.post = some k && c.bist.select.testBit bit
  match t with
  | .mram | .schedSram _ | .qdr _ => at_ 0 0
  | .lbistCore _ => at_ 0 1
  | .hlane _ => at_ 0 4
  | .wale _ _ _ => c.bist.post = some 0
  | .lbistTile k => at_ (k / 4 + 1) 1
  | .regulator k => at_ (k / 4 + 1) 3
  | .coefStore e => at_ (tileOf e / 4 + 1) 0
  | .peLoopback e | .hybrid e => at_ (tileOf e / 4 + 1) 2
  | .reference | .pll => c.bist.post.isSome

/-- BIST_TEST_DONE: a test of POST or an on-demand test (R367 to R373). -/
def Chip.testDone (c : Chip) (t : TestOn) (e : TestEnd) (found : List Finding) : Chip :=
  if c.bist.demand = some (t.code, t.instNo) then
    let c : Chip := { c with bist := { c.bist with demand := none } }
    ((c.testResult t e found .demand).2).waleDelays t
  else if c.postRuns t then
    let r := c.testResult t e found .post
    let c := r.2.waleDelays t
    let sum := c.rd .POST_SUMMARY ||| (if r.1 = 3 then 2 else if r.1 = 1 then 4 else if r.1 = 2 then 8 else 0)
    let sum := if found.isEmpty || c.blockState t ≠ 2 then sum else sum ||| 4
    c.wrDev .POST_SUMMARY sum
  else c

/-- A slice may start (R335, R346, R370): the BIST controller runs and has not quiesced, the target is not gated, and its latest slice
started at least `BIST_SLICE_INTERVAL` ago. -/
def Chip.mayRunSlice (c : Chip) (t : SliceOn) : Bool :=
  let free := match c.bist.from_.get? t.test.key with
    | some r => r + rootUs (c.rd .BIST_SLICE_INTERVAL) ≤ c.root
    | none => true
  let quiet := match t with
    | .store e => c.blockQuiet (tileOf e) 6
    | _ => c.quiescing && (c.pwr.entering || (c.pwr.agreed.getD []).contains 6)
  c.rdBool .BIST_INSERVICE_ENABLE && c.boot.applied && c.pwr.state = .active && c.pwr.rootOn && free && !quiet && (match t with
    | .store e => c.storePowered (tileOf e) && c.rdBit .LEGACY_GATE (16 + tileOf e)
    | .sched _ => c.rdBit .LEGACY_GATE 3
    | .cells h => c.rdBit .LEGACY_GATE 4 && c.rd .QC_STATE h = 0)

/-- BIST_SLICE_START (R263, R370): rows are saved, or cells withdrawn. -/
def Chip.sliceStart (c : Chip) (t : SliceOn) : Chip :=
  let key := t.test.key
  if !c.mayRunSlice t || (c.bist.slices.get? key).isSome || c.bist.post.isSome then c
  else
    let n := match t with
      | .store _ => 64
      | .sched _ => 1024
      | .cells h => min (min 4096 (c.rd .BIST_SLICE_TIME / 16)) (c.chFree h)
    let c : Chip := { c with bist := { c.bist with slices := c.bist.slices.put key n, from_ := c.bist.from_.put key c.root } }
    match t with
    | .cells h => { c with buf := { c.buf with withdrawn := c.buf.withdrawn.upd h.val 0 fun k => k + n } }
    | _ => c

/-- A slice gives back its cells. -/
def Chip.sliceFree (c : Chip) (key : Nat) : Chip :=
  let n := c.bist.slices.getD key 0
  let c : Chip := { c with bist := { c.bist with slices := c.bist.slices.del key } }
  if key / 4096 = 3 then { c with buf := { c.buf with withdrawn := c.buf.withdrawn.upd (key % 4096) 0 fun k => k - n } } else c

/-- BIST_SLICE_END (R370, R371). -/
def Chip.sliceEnd (c : Chip) (t : SliceOn) (e : TestEnd) (found : List Finding) : Chip :=
  let key := t.test.key
  if (c.bist.slices.get? key).isNone then c
  else
    let c := c.sliceFree key
    match e with
    | .stopped _ =>
      let c := c.inc .BIST_INCOMPLETE_COUNT
      if found.isEmpty then c else (c.testResult t.test e found .service).2
    | .terminal =>
      let c := (c.inc .BIST_SLICE_COUNT)
      let c : Chip := { c with bist := { c.bist with next := c.bist.next.upd key 0 fun k => (k + 64) % 2080 } }
      (c.testResult t.test e found .service).2

/-- The BIST controller quiesces: slices stop and are restored, `INCOMPLETE` (Table 14-7, R370). -/
def Chip.sliceQuiesce (c : Chip) (tile : Option Nat) : Chip :=
  let l := (c.bist.slices.map fun x => x.1).filter fun k =>
    tile.isNone || (k / 4096 = 1 && tile = some (tileOf (k % 4096)))
  c.each l fun c k => (c.sliceFree k).inc .BIST_INCOMPLETE_COUNT

/-- The instance that a write of `BIST_REQUEST` names is out of service, or why not (R372); a gated block takes no work (R335). -/
def Chip.demandOk (c : Chip) (code inst : Nat) : Abort :=
  match clsOf inst with
  | none => .range
  | some (k, u) =>
    if code = 0x01 || code = 0x10 || code = 0x11 then
      if k ≠ .pe then .range
      else if (c.port (c.portOf u)).link = .disabled && c.tileRuns (tileOf u) && c.rdBit .LEGACY_GATE (16 + tileOf u) then .ok
      else .state
    else if code = 0x03 then
      if k ≠ .qc then .range else if (c.rd .QC_STATE u = 1 || c.rd .QC_STATE u = 3) && c.rdBit .LEGACY_GATE 4 then .ok else .state
    else if code = 0x15 then
      if k ≠ .hlane then .range else if (c.laneUsers u).isEmpty && !c.laneTest u && c.rdBit .LEGACY_GATE (8 + u / 32) then .ok
      else .state
    else if code = 0x16 then
      if k ≠ .wl then .range else if c.wlState u = wlOff && c.rdBit .LEGACY_GATE 5 then .ok else .state
    else .state

/-- A write of `BIST_REQUEST` (R372); a pair engine under a loop-back test drives no signal (R138). -/
def Chip.writeBistRequest (c : Chip) (v : Nat) : Abort × Chip :=
  if v = 0 then (.ok, c)
  else
    let code := bits v 31 24
    let inst := bits v 11 0
    match c.demandOk code inst with
    | .ok => if c.bist.demand.isSome then (.busy, c)
      else
        let c : Chip := { c with bist := { c.bist with demand := some (code, inst) } }
        (.ok, if code = 0x10 || code = 0x11 then c.ancStops (inst - Cls.pe.base) else c)
    | a => (a, c)

/-- A POST stage ends (Table 15-6): the next one starts, or POST is done. True when it is done. -/
def Chip.postStage (c : Chip) : Bool × Chip :=
  match c.bist.post with
  | none => (false, c)
  | some k =>
    if k < 4 then (false, { c with bist := { c.bist with post := some (k + 1) } })
    else
      let c := (c.setBit .POST_SUMMARY 0 0 true).wrDev .POST_TIME ((c.root - c.bist.postFrom) / 16000)
      (true, { c with bist := { c.bist with post := none } })

end Sys2Proof.Machine
end

