-- ==== Sys2Proof/Machine/Nvm.lean ====
section
/-!
DEFINITION. Areas held in rows of 1,024 octets: configuration slots and image slots, their headers and digests (R379,
R381, R391), and the protection map (R387, R388).
-/
set_option Elab.async false
namespace Sys2Proof.Machine

/-- Octet `i` of an area held in rows of 1,024 octets; a row that is not listed reads zero. -/
def areaOctet (t : Tab Nat Nat) (i : Nat) : Octet := BitVec.ofNat 8 (t.getD (i / 1024) 0 >>> (8 * (1023 - i % 1024)))

/-- `n` octets of an area from octet `i` on. -/
def areaOctets (t : Tab Nat Nat) (i n : Nat) : List Octet := (List.range n).map fun k => areaOctet t (i + k)

/-- The rows of a list of octets, padded with zero octets. -/
def areaRows (k : Nat) : Nat → List Octet → Tab Nat Nat
  | 0, _ => []
  | n + 1, l => if l.isEmpty then [] else (k, octNat l 0 1024) :: areaRows (k + 1) n (l.drop 1024)

/-- SHAKE256 with 64 octets of output, as octets. -/
def shake (l : List Octet) : List Octet := natToOctets 64 (Config.shake256 l).toNat

/-- Key identifier of a public key (R379). -/
def keyId (k : List Octet) : List Octet := (shake k).take 32

/-- Octets of a text. -/
def ascii (s : String) : List Octet := s.toList.map fun c => BitVec.ofNat 8 c.toNat

/-- The message that a context signs: its context string, then the digest (R380, R386, R387, R390). -/
def signedMessage (context : String) (l : List Octet) : List Octet := ascii context ++ shake l

-- Configuration slots.

/-- The header of a configuration image of a version, length, record count and scope (R391). -/
def cfgHeader (version length count device : Nat) : List Octet :=
  natToOctets 2 1 ++ natToOctets 2 0 ++ natToOctets 4 version ++ natToOctets 4 length ++ natToOctets 4 count
    ++ natToOctets 2 0x0100 ++ natToOctets 6 0 ++ natToOctets 8 device

/-- An image: its header, its records and its CRC-32 (R391). -/
def cfgImage (version count device : Nat) (records : List Octet) : List Octet :=
  let l := cfgHeader version (records.length + 36) count device ++ records
  l ++ natToOctets 4 (crc32 l)

/-- The `FACTORY` configuration: it names no object and has version 0. -/
def factoryImage : List Octet := cfgImage 0 0 0 []

/-- The rows of a slot; a slot without its own content is a copy of `FACTORY`. -/
def CfgSlot.area (s : CfgSlot) : Tab Nat Nat := s.rows.getD (areaRows 0 1 factoryImage)

/-- Fields of a slot's header (R391). -/
def CfgSlot.version (s : CfgSlot) : Nat := octNat (areaOctets s.area 4 4) 0 4
def CfgSlot.length (s : CfgSlot) : Nat := octNat (areaOctets s.area 8 4) 0 4
def CfgSlot.count (s : CfgSlot) : Nat := octNat (areaOctets s.area 12 4) 0 4

/-- Largest image (R391). -/
def cfgMax : Nat := 2 * 1024 * 1024

/-- A slot's image: as long as its header says, and at most 2 MiB. -/
def CfgSlot.image (s : CfgSlot) : List Octet := areaOctets s.area 0 (min s.length cfgMax)

/-- Header, length and CRC of an image are valid (R391, R392). -/
def CfgSlot.formatOk (s : CfgSlot) : Bool :=
  let l := s.image
  36 ≤ s.length && s.length ≤ cfgMax && octNat l 0 2 = 1
    && crc32 (l.take (l.length - 4)) = octNat l (l.length - 4) 4

/-- A row of `CFG_SLOTS`: version, length, digest, valid, confirmed (Table 16-12). -/
def CfgSlot.row (s : CfgSlot) : List Octet :=
  natToOctets 4 s.version ++ natToOctets 4 s.length ++ shake s.image ++ natToOctets 1 (b2n s.formatOk)
    ++ natToOctets 1 (b2n s.confirmed) ++ List.replicate 6 0

-- Image slots.

/-- Octet `i` of an image slot; an erased row reads zero. -/
def ImageSlot.octet (s : ImageSlot) (i : Nat) : Octet :=
  match s.rows.get? (i / 1024) with
  | some v => BitVec.ofNat 8 (v >>> (8 * (1023 - i % 1024)))
  | none => if s.shipped then Config.shipped i else 0

/-- `n` octets of an image slot from octet `i` on. -/
def ImageSlot.octets (s : ImageSlot) (i n : Nat) : List Octet := (List.range n).map fun k => s.octet (i + k)

/-- The slot holds the image of manufacture as it was shipped. -/
def ImageSlot.pristine (s : ImageSlot) : Bool := s.shipped && s.rows.isEmpty

/-- Header fields of Table 16-3. -/
def ImageSlot.header (s : ImageSlot) : List Octet := s.octets 0 256
def ImageSlot.svn (s : ImageSlot) : Nat := octNat s.header 8 4
def ImageSlot.bodyLength (s : ImageSlot) : Nat := octNat s.header 16 4
def ImageSlot.flags (s : ImageSlot) : Nat := octNat s.header 20 1
def ImageSlot.revoke (s : ImageSlot) : Nat := octNat s.header 21 1

/-- Check 1 of Table 16-5. -/
def headerOk (h : List Octet) : Bool :=
  let n := octNat h 16 4
  octNat h 0 4 = 0x53415A52 && octNat h 4 2 = 1 && octNat h 6 2 = 256 && 64 ≤ n && n ≤ 8381568 && n % 64 = 0
    && octNat h 20 1 / 2 = 0 && octNat h 21 1 / 16 = 0 && octNat h 22 2 = 0 && (octs h 96 160).all fun o => o = 0

/-- The four maker's keys by number. -/
def milholtKeys : List (Nat × List Octet) := (List.range 4).map fun k => (k, Config.milholtKey k)

/-- Result code of an image slot (R381, Table 16-5): the first check that fails, 0x00 when it verifies. The checks 1 to 3 of
the image of manufacture, and its maker's signature, hold. -/
def Nv.verify (n : Nv) (s : ImageSlot) : Nat :=
  let h := s.header
  let len := s.bodyLength
  let block := s.octets (256 + len) 3392
  let owner := s.octets (256 + len + 3392) 3392
  let key := milholtKeys.find? fun k => keyId k.2 = octs block 4 32
  let made := s.pristine
  if !s.shipped && s.rows.isEmpty then 1
  else if !made && !headerOk h then 2
  else if !made && !(octNat h 24 8 = 0 || octNat h 24 8 = Config.deviceId.toNat) then 3
  else if !made && shake (s.octets 256 len) ≠ octs h 32 64 then 4
  else if !(match key with
      | some k => !n.revoked.getLsbD k.1 && (made || (!(s.revoke.testBit k.1) && octNat block 0 2 = 1
          && Config.mldsaVerify k.2 (signedMessage "OVF-S512 image" h) (octs block 36 3309)))
      | none => made) then 5
  else if !(match n.ownerKey with
      | none => true
      | some k => s.flags.testBit 0 && octs owner 4 32 = keyId k && octNat owner 0 2 = 2
          && Config.mldsaVerify k (signedMessage "OVF-S512 owner" (h ++ block)) (octs owner 36 3309)) then 6
  else if s.svn < n.antiRollback then 7
  else 0

/-- The slot that runs, and the other one. -/
def Chip.runningSlot (c : Chip) : ImageSlot := if c.boot.runningB then c.nv.imageB else c.nv.imageA
def Chip.otherSlot (c : Chip) : ImageSlot := if c.boot.runningB then c.nv.imageA else c.nv.imageB

/-- Change the slot that does not run. -/
def Chip.setOther (c : Chip) (f : ImageSlot → ImageSlot) : Chip :=
  if c.boot.runningB then { c with nv := { c.nv with imageA := f c.nv.imageA } }
  else { c with nv := { c.nv with imageB := f c.nv.imageB } }

/-- A row of `IMAGE_INFO` (Table 16-12). -/
def ImageSlot.row (s : ImageSlot) : List Octet :=
  shake s.header ++ octs s.header 8 4 ++ octs s.header 12 4 ++ natToOctets 1 s.code ++ natToOctets 1 (octNat s.header 20 1 % 2)
    ++ List.replicate 6 0

-- The protection map.

/-- Bit of a path in `PM_PATHS` (Table 16-7). -/
def Path.bit : Path → Nat
  | .host => 59 | .mgmt => 60 | .wale => 61 | .line => 62 | .spi => 63

/-- An entry holds a write of an instance and index on a path (R388). -/
def mapHolds (e : Nat) (p : Path) (inst idx : Nat) : Bool :=
  e.testBit p.bit && bits e 55 44 ≤ inst && inst ≤ bits e 43 32 && bits e 31 16 ≤ idx && idx ≤ bits e 15 0

/-- The objects that SPI may always write (R385). -/
def spiAlways (inst idx sub : Nat) : Bool :=
  inst = 0 && idx = 0x1100 && [0x03, 0x11, 0x12, 0x13, 0x14].contains sub

/-- The protection map permits a write (R385, R388); an owner object is excluded in recovery (R384). -/
def Chip.permits (c : Chip) (p : Path) (inst idx sub : Nat) : Bool :=
  if p = .spi && spiAlways inst idx sub then true
  else match c.boot.map.find? fun e => mapHolds e p inst idx with
    | some e => e.testBit 58
    | none => false

/-- The 64 rows of the map in force, as octets (R387). -/
def Chip.mapOctets (c : Chip) : List Octet := (List.range 64).flatMap fun k => natToOctets 8 (c.boot.map.getD k 0)

end Sys2Proof.Machine
end

