-- ==== Sys2Proof/Machine/Power.lean ====
section
/-!
DEFINITION. Power states (chapter 14): requests and the pending rule, the handshake, entry to `STANDBY` and `OFF`, the direct
path, wake, and what R22 to R23 say of a lost clock.
-/
set_option Elab.async false
namespace Sys2Proof.Machine

/-- Codes of device states (Table 14-5) and tile states (Table 14-6). -/
def PwrState.code : PwrState → Nat
  | .active => 1 | .standby => 2 | .off => 3 | .wakeFault => 4
def TileState.code : TileState → Nat
  | .run => 0 | .sleep => 1 | .isolated => 2 | .down => 3

/-- Blocks asked by a handshake for the device, or for a tile (Table 14-7). -/
def handshakeBlocks (tile : Bool) : List Nat := if tile then [1, 5, 6] else [1, 2, 3, 4, 5, 6, 7, 8, 9, 10]

/-- Reason for which a block refuses (Table 14-7); 0 when it does not. -/
def Chip.refusal (c : Chip) (b : Nat) : Nat :=
  if b = 6 && c.bist.post.isSome then 1
  else if b = 7 && c.boot.updating then 2
  else if b = 8 && c.cfg.deadline.isSome then 3
  else 0

/-- What a block does before it agrees (Table 14-7). -/
def Chip.quiesceBlock (c : Chip) (tile : Option Nat) (b : Nat) : Chip :=
  match b with
  | 1 =>
    let ports := match tile with
      | some t => c.tilePorts t
      | none => c.portsAll
    c.each ports fun c p => c.holdPort p
  | 4 => { c with buf := { c.buf with writeBack := [] } }
  | 5 => c.calQuiesce tile
  | 6 => c.sliceQuiesce tile
  | 7 => if c.rdBool .ANC_MAP_PERSIST then c.weaveCopy else c
  | 9 => c.originateNext []
  | _ => c

/-- A block that had agreed resumes (R346). -/
def Chip.resumeBlock (c : Chip) (tile : Option Nat) (b : Nat) : Chip :=
  match b with
  | 1 =>
    let ports := match tile with
      | some t => c.tilePorts t
      | none => c.portsAll
    c.each ports fun c p => if c.tileRuns (tileOf p) then c.wakePort p else c
  | 9 => c.originateNext c.ownLinks
  | _ => c

/-- The device is on its way to another state, or asks for one. -/
def Chip.inTransition (c : Chip) : Bool := c.pwr.agreed.isSome || c.pwr.entering || c.pwr.waking.isSome

/-- Wake from `STANDBY` starts: step 1 (Table 14-10). -/
def Chip.startWake (c : Chip) (cause : Nat) (step : WakeStep := .fro) : Chip :=
  ((c.wrDev .WAKE_CAUSE cause).wrDev .WAKE_STEP_FAIL 0).setPwr fun p =>
    { p with waking := some step, tries := 0, target := .active, direct := false, agreed := none }

/-- Entry to `STANDBY` or `OFF` starts (R347). -/
def Chip.startEntry (c : Chip) (s : PwrState) (direct : Bool) : Chip :=
  c.setPwr fun p => { p with agreed := none, entering := true, target := s, direct := direct, waking := none }

/-- The direct path: blocks stop where they are (R348). -/
def Chip.directEntry (c : Chip) (s : PwrState) : Chip :=
  let c := c.each c.portsAll fun c p => c.cutPort p
  (c.sliceQuiesce none).startEntry s true

/-- Keep a request until the transition in progress completes; the last writer wins (R344). -/
def Chip.keepRequest (c : Chip) (s : PwrState) (direct : Bool) (cause : Nat := 0x10) : Chip :=
  c.setPwr fun p => { p with pending := some s, pendingDirect := direct, pendingCause := cause }

/-- A request for a device state (R344, R346, R347, R352); `cause` is the `WAKE_CAUSE` of a wake from `STANDBY`. -/
def Chip.requestState (c : Chip) (s : PwrState) (cause : Nat := 0x10) : Chip :=
  if c.inTransition then c.keepRequest s false
  else if c.pwr.state = s then c
  else match c.pwr.state with
    | .active => c.setPwr fun p => { p with agreed := some [], target := s, direct := false }
    | .standby => if s = .active then c.startWake cause else c.startEntry s false
    | .wakeFault => if s = .active then c.startWake 0x10 .reference else c.directEntry s
    | .off => c

/-- `PWR_DIRECT` may be written (R348). -/
def Chip.directAllowed (c : Chip) : Bool :=
  c.rdBool .PWR_TEST_MODE || c.pwr.state = .wakeFault || !c.cfgApplied

/-- A write of a state to `PWR_DIRECT` (R348). -/
def Chip.writeDirect (c : Chip) (s : PwrState) : Abort × Chip :=
  if !c.directAllowed then (.state, c)
  else if c.inTransition then (.ok, c.keepRequest s true)
  else if c.pwr.state = s then (.ok, c)
  else if s = .active then (.ok, c.startWake 0x10 .reference)
  else (.ok, c.directEntry s)

/-- The pending request is carried out, or dropped when it names the state just reached (R344). -/
def Chip.carryDevice (c : Chip) : Chip :=
  match c.pwr.pending with
  | none => c
  | some s =>
    let direct := c.pwr.pendingDirect
    let cause := c.pwr.pendingCause
    let c := c.setPwr fun p => { p with pending := none, pendingDirect := false, pendingCause := 0x10 }
    if s = c.pwr.state then c
    else if direct && s != .active then c.directEntry s
    else c.requestState s cause

/-- A request for a tile state that may be carried out now (R344); a wake ends the slices on its stores (R370). -/
def Chip.tileStart (c : Chip) (t : Nat) (s : TileState) : Chip :=
  if (c.tile t).st = s then c
  else if s = .run then (c.sliceQuiesce (some t)).setTile t fun x => { x with waking := true, tries := 0 }
  else c.setTile t fun x => { x with agreed := some [] }

/-- The tile is on its way to another state. -/
def Chip.tileBusy (c : Chip) (t : Nat) : Bool :=
  let x := c.tile t
  x.agreed.isSome || x.entering || x.waking

/-- A write of `TILE_REQUEST` (R344, R345). -/
def Chip.writeTileRequest (c : Chip) (t : Nat) (s : TileState) : Abort × Chip :=
  if (c.tile t).st = .isolated then (.state, c)
  else if c.inTransition || c.tileBusy t then (.ok, c.setTile t fun x => { x with pending := some s })
  else if c.pwr.state ≠ .active then (.state, c)
  else (.ok, c.tileStart t s)

/-- A tile's pending request is carried out, or dropped when it names the state just reached (R344, R345). -/
def Chip.carryTile (c : Chip) (t : Nat) : Chip :=
  match (c.tile t).pending with
  | none => c
  | some s =>
    let c := c.setTile t fun x => { x with pending := none }
    if c.pwr.state ≠ .active || (c.tile t).st = s || (c.tile t).st = .isolated then c else c.tileStart t s

/-- Every tile's pending request, at the end of a device transition (R345). -/
def Chip.carryTiles (c : Chip) : Chip := c.each (List.range 16) fun c t => c.carryTile t

/-- A block refuses, or has not answered by its bound: the agreed blocks resume (R346). -/
def Chip.refuse (c : Chip) (tile : Option Nat) (b reason : Nat) : Chip :=
  let agreed := match tile with
    | some t => (c.tile t).agreed.getD []
    | none => c.pwr.agreed.getD []
  let c := match tile with
    | some t => c.setTile t fun x => { x with agreed := none }
    | none => c.setPwr fun p => { p with agreed := none, target := p.state }
  let c := c.each agreed fun c k => c.resumeBlock tile k
  let inst := match tile with
    | some t => Cls.tile.addr t
    | none => 0
  let c := ((c.wrDev .PWR_REFUSE (b * 256 + reason)).inc .PWR_REFUSE_COUNT).raise .handshakeRefused inst (b * 256 + reason)
  match tile with
  | some t => c.carryTile t
  | none => (c.carryDevice).carryTiles

/-- A block answers (R346): it refuses for the reason of its state, or agrees; when all have agreed the transition starts. -/
def Chip.handshakeAnswer (c : Chip) (tile : Option Nat) (b : Nat) : Chip :=
  let agreed := match tile with
    | some t => (c.tile t).agreed
    | none => c.pwr.agreed
  match agreed with
  | none => c
  | some l =>
    if !(handshakeBlocks tile.isSome).contains b || l.contains b then c
    else
      let r := c.refusal b
      if r ≠ 0 then c.refuse tile b r
      else
        let c := c.quiesceBlock tile b
        let l := l ++ [b]
        let all := (handshakeBlocks tile.isSome).all fun k => l.contains k
        match tile with
        | some t =>
          if all then c.setTile t fun x => { x with agreed := none, entering := true }
          else c.setTile t fun x => { x with agreed := some l }
        | none =>
          if all then c.startEntry c.pwr.target false else c.setPwr fun p => { p with agreed := some l }

/-- A block has neither agreed nor refused by its bound (R346). -/
def Chip.handshakeBound (c : Chip) (tile : Option Nat) (b : Nat) : Chip :=
  let agreed := match tile with
    | some t => (c.tile t).agreed
    | none => c.pwr.agreed
  let inst := match tile with
    | some t => Cls.tile.addr t
    | none => 0
  match agreed with
  | none => c
  | some l =>
    if !(handshakeBlocks tile.isSome).contains b || l.contains b then c
    else (c.raise .handshakeBound inst b).refuse tile b 0xFF

/-- Every tile that is not isolated goes to `TILE_DOWN`; its ports are held (R343, R347). -/
def Chip.tilesDown (c : Chip) : Chip :=
  c.each (List.range 16) fun c t =>
    if (c.tile t).st = .isolated then c
    else
      let c := c.each (c.tilePorts t) fun c p => c.holdPort p
      c.setTile t fun x => { x.levelKept with st := .down, pending := none, agreed := none, entering := false, waking := false }

/-- The host lanes stop with the host PLL: no lane holds a lock (R179, R347). -/
def Chip.lanesStop (c : Chip) : Chip :=
  c.each ((c.dict.filter fun e => e.1.reg = .HL_STATUS).map fun e => e.1.inst) fun c h =>
    (c.wr .HL_STATUS h (c.rd .HL_STATUS h &&& 0x90)).setLane h fun l => { l with upFrom := none, period := none, bad := 0 }

/-- The management port stops with the root: it runs on a division of it (R326). -/
def Chip.mgmtStop (c : Chip) : Chip := c.wr .MGMT_STATUS 0 0

/-- A switch of D52, D53, D57 and D58 between the FRO and their root divisions is complete: it was acknowledged, unless it was forced
(R336). -/
def Chip.coreSwitched (c : Chip) : Chip :=
  let core := fun d : Nat => [52, 53, 57, 58].contains d
  c.setPwr fun p => { p with forced := p.forced.filter fun d => !core d || p.forcedNow.contains d,
                             forcedNow := p.forcedNow.filter fun d => !core d }

/-- The clocks stop (R347, Table 14-1): Wale lanes, host lanes, management port, host PLL, root and FRO. -/
def Chip.clocksStop (c : Chip) : Chip :=
  ((((c.wlStopAll).lanesStop).mgmtStop).coreSwitched).setPwr fun p => { p with rootOn := false, hostPll := false, fro := false }

/-- What `OFF` keeps: the non-volatile memory (Table 14-8), an SPI request that waits for the wake, and a pending request for `ACTIVE`
(R344, R345); any other pending request is dropped, since `OFF` leads to none but `ACTIVE`. -/
def Chip.loseAll (c : Chip) : Chip :=
  { nv := c.nv, draws := c.draws, dap := { spiBusy := c.dap.spiBusy, spiHeld := c.dap.spiHeld }, boot := { vinGood := c.boot.vinGood, resetHigh := c.boot.resetHigh, phase := .running },
    pwr := { state := .off, target := .off, pins := c.pwr.pins, direct := c.pwr.direct,
             pending := if c.pwr.pending = some .active then some .active else none, pendingCause := c.pwr.pendingCause } }

/-- Entry to `STANDBY` or `OFF` completes (R344, R347, R349, R408). -/
def Chip.deviceEntered (c : Chip) : Chip :=
  if !c.pwr.entering then c
  else
    let s := c.pwr.target
    let pins := c.pwr.pins.getD (c.intPin, c.faultLow)
    let c := c.tilesDown
    let c := c.each ((c.host.map fun x => x.1)) fun c p => c.setHost p fun h => { h with fifo := [] }
    let c := (c.clocksStop).inc .PWR_TRANSITION_COUNT
    let c := c.setPwr fun p => { p with state := s, entering := false, pins := some pins }
    if s = .off then c.loseAll else c.carryDevice

/-- A tile's entry to `TILE_SLEEP` completes. -/
def Chip.tileEntered (c : Chip) (t : Nat) : Chip :=
  if !(c.tile t).entering then c
  else
    let c := c.setTile t fun x => { x.levelKept with st := .sleep, entering := false }
    let c := c.each (c.tilePorts t) fun c p => c.holdPort p
    c.carryTile t

/-- Tiles of a group (R9). -/
def groupTiles (g : Nat) : List Nat := (List.range 4).map fun k => 4 * g + k

/-- Tile groups ramp in order: when every tile of a group runs or is isolated the next one starts; after the last one the device
enters `ACTIVE` (R351). -/
def Chip.groupsGo (c : Chip) (us : Nat) : Nat → Chip
  | 0 => c
  | n + 1 => match c.pwr.waking with
    | some (.group g) =>
      if (groupTiles g).all fun t => (c.tile t).st = .run || (c.tile t).st = .isolated then
        if h : g.val + 1 < 4 then
          Chip.groupsGo (c.setPwr fun p => { p with waking := some (.group ⟨g.val + 1, h⟩) }) us n
        else
          let c := c.setPwr fun p => { p with waking := none, state := .active, pins := none }
          (((c.wrDev .WAKE_TIME us).inc .PWR_TRANSITION_COUNT).carryDevice).carryTiles
      else c
    | _ => c

/-- The root runs again: time resumes from its held value, with `TIME_VALID` false and the servo restarted (R349). -/
def Chip.rootReturn (c : Chip) (kHz : Nat) : Chip :=
  ((c.setPwr fun p => { p with rootOn := true, hostPll := true }).wrDev .FRO_FREQ kHz).servoRestart

/-- The root is back after a loss in service: ports of tiles that run start again. -/
def Chip.relocked (c : Chip) (kHz : Nat) : Chip :=
  let c := (c.rootReturn kHz).coreSwitched.setPwr fun p => { p with waking := none, relock := false, tries := 0 }
  let c := c.each c.portsAll fun c p => if c.tileRuns (tileOf p) then c.wakePort p else c
  c.carryDevice.carryTiles

/-- A wake step of the device is complete (Table 14-10); `us` is the time since the source and `kHz` the measured FRO
frequency. -/
def Chip.deviceStepDone (c : Chip) (us kHz : Nat) : Chip :=
  match c.pwr.waking with
  | some .fro => c.setPwr fun p => { p with fro := true, waking := some .reference, tries := 0 }
  | some .reference => c.setPwr fun p => { p with waking := some .pll, tries := 0 }
  | some .pll =>
    if c.pwr.relock then c.relocked kHz
    else
      let c := (c.rootReturn kHz).setPwr fun p => { p with waking := some .domains, tries := 0 }
      c.each c.portsAll fun c p => if c.tileRuns (tileOf p) then c.wakePort p else c
  | some .domains =>
    ((c.wlStartAll).coreSwitched.setPwr fun p => { p with waking := some (.group 0), tries := 0, fro := true }).groupsGo us 5
  | _ => c

/-- A tile's regulator is up: in the wake of the device, or of the tile alone. -/
def Chip.tileStepDone (c : Chip) (t us : Nat) : Chip :=
  match c.pwr.waking with
  | some (.group g) =>
    if (groupTiles g).contains t && (c.tile t).st ≠ .isolated && (c.tile t).st ≠ .run then (c.tileRun t).groupsGo us 5 else c
  | some _ => c
  | none => if (c.tile t).waking then (c.tileRun t).carryTile t else c

/-- The device enters `WAKE_FAULT` (R352). -/
def Chip.wakeFaulted (c : Chip) (us : Nat) : Chip :=
  let c := c.tilesDown
  let c := (((c.wlStopAll).lanesStop).mgmtStop).setPwr fun p =>
    { p with state := .wakeFault, waking := none, tries := 0, rootOn := false, hostPll := false, relock := false,
             pins := none }
  (((c.wrDev .WAKE_TIME us).inc .PWR_TRANSITION_COUNT).raise .wakeFault 0).carryDevice

/-- A step of the device's wake has timed out (R352). -/
def Chip.deviceStepFail (c : Chip) (us : Nat) : Chip :=
  let fail := fun (hi lo : Nat) =>
    let n := c.pwr.tries + 1
    let c := c.wrDev .WAKE_STEP_FAIL (setBits (c.rd .WAKE_STEP_FAIL) hi lo n)
    if n ≥ 3 then c.wakeFaulted us else c.setPwr fun p => { p with tries := n }
  match c.pwr.waking with
  | some .reference => fail 1 0
  | some .pll => fail 3 2
  | _ => c

/-- A regulator attempt of a tile has timed out; after the third the tile is isolated and the others proceed (R352). -/
def Chip.tileStepFail (c : Chip) (t us : Nat) : Chip :=
  let due := match c.pwr.waking with
    | some (.group g) => (groupTiles g).contains t && (c.tile t).st = .down
    | some _ => false
    | none => (c.tile t).waking
  if !due then c
  else
    let n := (c.tile t).tries + 1
    let c := (c.inc .TILE_REG_FAIL_COUNT t).setTile t fun x => { x with tries := n }
    if n < 3 then c
    else ((c.regFailed t).setBit .WAKE_STEP_FAIL 0 4 true).groupsGo us 5

/-- A wake source is enabled and qualified (Table 14-9). -/
def Chip.wakeQualified (c : Chip) (k : WakeKind) : Bool :=
  match k with
  | .line p pattern =>
    c.rdBit .WAKE_SOURCES 0 && c.width p != 0 && c.rdBool .PORT_ENABLE p
      && (c.rd .WAKE_LINE_QUAL = 1 || (c.rd .WAKE_LINE_QUAL = 2 && pattern))
  | .wale w word =>
    c.rdBit .WAKE_SOURCES 1 && c.rdBool .WL_ENABLE w && (c.rd .WAKE_WALE_QUAL = 1 || (c.rd .WAKE_WALE_QUAL = 2 && word))
  | .mgmt => c.rdBit .WAKE_SOURCES 2 && c.rdBool .MGMT_ENABLE
  | .hostLane h => c.rdBit .WAKE_SOURCES 3 && !(c.laneUsers h).isEmpty
  | .spi => true

/-- Bit of `WAKE_SOURCES` of a source. -/
def WakeKind.bit : WakeKind → Nat
  | .line _ _ => 0 | .wale _ _ => 1 | .mgmt => 2 | .hostLane _ => 3 | .spi => 4

/-- A wake source arrives (R343, R345, R350). -/
def Chip.wakeSource (c : Chip) (k : WakeKind) : Chip :=
  if !c.wakeQualified k then c
  else if c.pwr.entering then c.keepRequest .active false k.bit
  else match c.pwr.state with
    | .standby => if c.pwr.waking.isSome then c else c.startWake k.bit
    | .active => match k with
      | .line p _ =>
        let t := tileOf p
        if (c.tile t).st = .sleep && !c.tileBusy t then c.tileStart t .run else c
      | _ => c
    | _ => c

/-- ROOT_PLL_LOCK_LOSS: the line ports go down, the time base stands, and relock attempts follow (R23, Table 1-8). A loss within a wake
takes it back to the step that locks, and the ports of tiles that run start again after it. -/
def Chip.rootLost (c : Chip) (reference : Bool) : Chip :=
  if !c.pwr.rootOn then c
  else
    let c := (c.each c.portsAll fun c p => c.holdPort p).mgmtStop
    c.setPwr fun p =>
      { p with rootOn := false, relock := p.waking.isNone, waking := some (if reference then .reference else .pll), tries := 0 }

/-- A write of `LEGACY_GATE` is judged on the whole value that results (R334, Table 14-2). -/
def Chip.gateLeafIdle (c : Chip) (b : Nat) : Bool :=
  let idle := fun (ports : List Nat) => ports.all fun p => !c.rdBool .PORT_ENABLE p
  if 16 ≤ b then
    let t := b - 16
    idle (c.portsOfTile t) && !c.diag.tdr.any fun x => tileOf x.1 = t
  else if 8 ≤ b then
    let g := b - 8
    idle (c.groupPorts g) && (List.range 32).all fun k => !c.laneTest (32 * g + k)
  else match b with
    | 6 => !c.rdBool .MGMT_ENABLE
    | 5 => !c.rdBool .WALE_ENABLE
    | 4 => c.cellsFree = c.cellsTotal
    | 3 => idle c.portsAll
    | _ => true

/-- Parent of a gate (Table 14-2). -/
def gateParent (b : Nat) : Option Nat :=
  if 16 ≤ b then some 1 else if 8 ≤ b then some 2 else match b with
    | 6 | 5 | 4 | 2 | 1 => some 0
    | 3 => some 4
    | _ => none

/-- The gates of the tree; bit 7 is reserved. -/
def gateBits : List Nat := (List.range 32).filter fun b => b != 7

/-- The resulting value of a write is lawful (R334). -/
def Chip.gatesLawful (c : Chip) (v : Nat) : Bool :=
  let old := c.rd .LEGACY_GATE
  gateBits.all fun b =>
    (!v.testBit b || match gateParent b with
      | some p => v.testBit p
      | none => true)
    && (v.testBit b || !old.testBit b || c.gateLeafIdle b)

/-- A write of `LEGACY_GATE` (R334). -/
def Chip.writeLegacyGate (c : Chip) (v : Nat) : Abort × Chip :=
  let v := v &&& 0xFFFFFF7F
  if c.gatesLawful v then (.ok, c.wrDev .LEGACY_GATE v) else (.state, c)

/-- CLKSW_FORCE: the old clock has given no acknowledgement (R336). -/
def Chip.switchForced (c : Chip) (d : Nat) : Chip :=
  let changing := (17 ≤ d && d ≤ 32 && (c.tile (d - 17)).levelTarget.isSome)
    || ([52, 53, 57, 58].contains d && (c.pwr.waking = some .domains || c.pwr.entering || c.pwr.relock))
  let c := c.setPwr fun p =>
    { p with forced := if p.forced.contains d then p.forced else p.forced ++ [d],
             forcedNow := if changing && !p.forcedNow.contains d then p.forcedNow ++ [d] else p.forcedNow }
  (c.inc .CLKSW_FORCED_COUNT).raise .clkswForced 0 d

/-- A reading above 85 °C moves the tile's stores to the short refresh interval (R111). -/
def Chip.refreshTemp (c : Chip) (t : Nat) (temp : Int) : Chip :=
  if temp > 85 * 16 then c.each (List.range 32) fun c k => c.setBit .PE_STORE_STATUS (32 * t + k) 0 true else c

/-- THERM_SENSOR_SAMPLE (R111, R431): the tile's hottest junction, the lid, the core rail and its power. -/
def Chip.thermSample (c : Chip) (t : Nat) (temp lid : Int) (mv mw : Nat) : Chip :=
  let c := ((c.wrInt .TILE_TEMP t temp).wr .TILE_CORE_V t mv).wr .TILE_POWER t mw
  let c := c.wrInt .LID_TEMP 0 lid
  let c := if temp > c.rdInt .TEMP_PEAK then c.wrInt .TEMP_PEAK 0 temp else c
  let warn := c.rdInt .THERM_WARN
  let every := fun (x : Int) => (List.range 16).all fun k => c.rdInt .TILE_TEMP k ≤ x
  let was := c.rd .MON_STATUS
  let c := if temp ≥ warn && !was.testBit 2 then (c.setBit .MON_STATUS 0 2 true).raise .thermWarn (Cls.tile.addr t)
    else if was.testBit 2 && every (warn - 32) then (c.setBit .MON_STATUS 0 2 false).raise .thermWarnClear 0
    else c
  let c := if temp > 1760 && !was.testBit 3 then (c.setBit .MON_STATUS 0 3 true).raise .thermOver (Cls.tile.addr t)
    else if was.testBit 3 && every 1728 then c.setBit .MON_STATUS 0 3 false
    else c
  let max : Int := if Config.partMX then 1520 else 1360
  let c := if lid > max then
      (if was.testBit 4 then c else (c.setBit .MON_STATUS 0 4 true).raise .lidOver 0)
    else c.setBit .MON_STATUS 0 4 false
  c.refreshTemp t temp

/-- VIN_MONITOR (R432): the averages, and VIN outside its range for 1 ms. -/
def Chip.vinMonitor (c : Chip) (mv ma mw : Nat) : Chip :=
  let was := c.rd .MON_STATUS
  let c := ((c.wrDev .VIN_VOLTAGE mv).wrDev .VIN_CURRENT ma).wrDev .VIN_POWER mw
  let c := if mv < 10800 && !was.testBit 0 then c.raise .vinLow 0 mv else c
  let c := if mv > 13200 && !was.testBit 1 then c.raise .vinHigh 0 mv else c
  (c.setBit .MON_STATUS 0 0 (mv < 10800)).setBit .MON_STATUS 0 1 (mv > 13200)

end Sys2Proof.Machine
end

