-- ==== Sys2Proof/Machine/View.lean ====
section
/-!
DEFINITION. The value that a read of an object shows (R309, R312): what the dictionary holds, and what the chapters derive
from the rest of the state; the counters' holding copies (R315 to R317).
-/
set_option Elab.async false
namespace Sys2Proof.Machine

/-- Gates of Table 14-2 that hold a clock domain. -/
def legacyBit (d : Nat) : Option Nat :=
  if 1 ≤ d && d ≤ 16 then some (15 + d)
  else if 17 ≤ d && d ≤ 32 then some (d - 1)
  else if 34 ≤ d && d ≤ 37 then some 3
  else if 38 ≤ d && d ≤ 41 then some 4
  else if 42 ≤ d && d ≤ 49 then some (d - 34)
  else if d = 50 then some 5
  else if d = 51 then some 6
  else none

/-- `CK_SOURCE` of a domain (Tables 14-1, 14-3). -/
def Chip.clockSource (c : Chip) (d : Nat) : Nat :=
  if d = 0 then 5
  else if 42 ≤ d && d ≤ 49 then 2
  else if d = 54 then 1
  else if d = 55 then 4
  else if d = 56 || d = 59 then 3
  else if [52, 53, 57, 58].contains d && !c.pwr.rootOn then 1
  else 0

/-- Root divider of a domain (Table 14-1). -/
def Chip.clockDivider (c : Chip) (d : Nat) : Nat :=
  if 1 ≤ d && d ≤ 16 then (c.tileDividers (d - 1)).foldl min 128
  else if d ≤ 32 then [8, 16, 40, 80].getD (c.tile (d - 17)).level 80
  else if d ≤ 41 then 8
  else match d with
    | 50 | 53 => 64
    | 51 => 128
    | 52 | 58 => 32
    | 57 => 16
    | _ => 0

/-- A domain's logic is powered (Table 14-3, R22). -/
def Chip.clockPowered (c : Chip) (d : Nat) : Bool :=
  if 1 ≤ d && d ≤ 16 then c.tileRuns (d - 1)
  else if 17 ≤ d && d ≤ 32 then c.tileRuns (d - 17)
  else if 42 ≤ d && d ≤ 49 then c.pwr.hostPll
  else d ≥ 52 || c.pwr.rootOn

/-- Row of `CLK_DOMAIN` (R337, Table 14-3). -/
def Chip.clockRow (c : Chip) (d : Nat) : Nat :=
  let src := c.clockSource d
  let legacy := match legacyBit d with
    | some b => !c.rdBit .LEGACY_GATE b
    | none => false
  let gateable := (1 ≤ d && d ≤ 32) || (34 ≤ d && d ≤ 53) || d = 57 || d = 58
  let auto := gateable && Config.autoGated c.root d
  let source := match src with
    | 1 => c.pwr.fro
    | 2 => c.pwr.hostPll
    | 3 => Config.extClock c.root d
    | 4 => true
    | _ => c.pwr.rootOn
  let powered := c.clockPowered d
  let running := source && powered && !legacy && !auto
  let switching := 17 ≤ d && d ≤ 32 && (c.tile (d - 17)).levelTarget.isSome
  src * 2 ^ 28 + b2n running * 2 ^ 27 + b2n auto * 2 ^ 26 + b2n legacy * 2 ^ 25 + b2n powered * 2 ^ 24
    + b2n (c.pwr.forced.contains d) * 2 ^ 23 + b2n switching * 2 ^ 22
    + (if src = 0 then (if d = 0 then 1 else c.clockDivider d) else 0)

/-- `PWR_STATUS` (Table 14-12). -/
def Chip.pwrStatus (c : Chip) : Nat :=
  c.pwr.state.code * 2 ^ 24 + (if c.inTransition then c.pwr.target.code else 0) * 2 ^ 16
    + (match c.pwr.pending with
      | some s => s.code
      | none => 0) * 2 ^ 8
    + b2n c.pwr.direct * 4 + b2n (c.pwr.state = .active && c.anyIsolated) * 2 + b2n c.pwr.agreed.isSome

/-- `TILE_PWR_STATUS` (Table 14-12). -/
def Chip.tilePwrStatus (c : Chip) (t : Nat) : Nat :=
  let s := c.tile t
  let target := if s.waking then TileState.run else if s.agreed.isSome || s.entering then .sleep else s.st
  target.code * 2 ^ 12
    + (match s.pending with
      | some x => x.code
      | none => 0xF) * 2 ^ 8
    + s.levelPending.getD 0 % 4 * 64 + b2n s.levelPending.isSome * 32 + b2n s.regFault * 16

/-- Tile junction temperature in 1/16 °C. -/
def Chip.tileTemp (c : Chip) (t : Nat) : Int := c.rdInt .TILE_TEMP t

/-- Place of a mode in `CR_DELAY` (Table 15-3). -/
def LineMode.delayEntry (m : LineMode) : Nat := if m.isW then m.code - 9 else m.code - 1

/-- A delay of the record in force, corrected for the temperature (R363): transmit at octet 0 of the entry, receive at 4. -/
def Chip.calDelay (c : Chip) (e : Nat) (m : LineMode) (o : Nat) : Nat :=
  let at_ := 824 + 8 * m.delayEntry + o
  Config.delayAt (octetsToNat ((List.range 4).map fun k => BitVec.ofNat 8 ((c.calOf e).shown (at_ + k)))) (c.tileTemp (tileOf e))

/-- `PE_RX_PIPE_DELAY` (Table 4-10, R363), for the mode of the port's link; 0 outside `LINK_UP`. -/
def Chip.rxPipe (c : Chip) (e : Nat) : Nat :=
  let p := c.portOf e
  match c.up p, (c.port p).mode with
  | true, some m => c.calDelay e m 4
  | _, _ => 0

/-- `TX_PIPE_DELAY` (Table 4-10, R363). -/
def Chip.txPipe (c : Chip) (p : Nat) : Nat :=
  match c.up p, (c.port p).mode with
  | true, some m => if m.isW then m.pipeDelay else (c.pesOf p).foldl (fun a e => max a (c.calDelay e m 0)) 0
  | _, _ => 0

/-- `TS_CALIBRATED` (R215, R363): every active pair engine has a loaded record. -/
def Chip.tsCalibrated (c : Chip) (p : Nat) : Bool :=
  c.up p && (if (c.port p).lanes.isEmpty then c.pesOf p else (c.port p).lanes).all fun e => (c.calOf e).valid

/-- `CAL_PE_STATUS` (Table 15-9). -/
def Chip.calPeStatus (c : Chip) (e : Nat) : Nat :=
  let s := c.calOf e
  b2n s.valid + 2 * b2n s.fg + 4 * b2n (s.adc.round || s.dac.round) + 8 * b2n (s.adc.noSpare || s.dac.noSpare)
    + 16 * b2n s.discarded

/-- `CAL_STATUS` (Table 15-9). -/
def Chip.calStatus (c : Chip) : Nat :=
  b2n (c.cal.any fun e => e.2.fg) + 2 * b2n (c.cal.any fun e => e.2.discarded) + 4 * b2n (!c.bist.fgGroups.isEmpty)

/-- `GATE_STATUS` (Table 10-6). -/
def Chip.gateStatus (c : Chip) (p : Nat) : Nat :=
  let s := c.sch p
  s.bank + 2 * b2n s.swap.isSome + 4 * b2n (c.rdBool .GATE_ENABLE p && c.tb ≥ s.gateFrom) + 256 * (c.gatesAt p c.tb % 256)

/-- Rows of `TA_TABLE` in `TA_ARMED`, in ascending order. -/
def Chip.taArmed (c : Chip) : List Nat :=
  (c.dict.filter fun e => e.1.reg = .TA_TABLE && rowField 40 e.2 13 1 = 1).map fun e => e.1.row

/-- A `TA_COMMIT` row is armed. -/
def Chip.commitArmed (c : Chip) : Bool := c.taArmed.any fun r => c.rdField .TA_TABLE 0 r 12 1 = 2

/-- `CFG_STATE` (Table 16-12); bits 3 and 4 are held. -/
def Chip.cfgState (c : Chip) : Nat :=
  setBits (c.rd .CFG_STATE) 2 0 (b2n c.cfg.deadline.isSome + 2 * b2n c.commitArmed + 4 * b2n c.cfg.staged.isSome)

/-- `BOOT_STATUS` (Table 16-12). -/
def Chip.bootStatus (c : Chip) : Nat :=
  let stage := if c.boot.phase = .recovery then 2 else b2n c.boot.firmware
  stage * 2 ^ 24 + b2n c.boot.runningB + 2 * b2n c.boot.trialRunning + 4 * b2n c.boot.fellBack + 8 * b2n c.boot.mapLocked
    + 16 * b2n c.nv.ownerKey.isSome + 32 * b2n c.boot.policyDefault

/-- The status octet of the SPI port (R327). -/
def Chip.spiStatus (c : Chip) : Nat :=
  b2n c.dap.spiOut.isSome + 2 * b2n c.dap.spiBusy + 4 * b2n c.dap.spiCrcErr + 8 * b2n c.dap.spiOverrun

/-- Every event. -/
def EvName.all : List EvName :=
  [.recoveryEntered, .cfgReverted, .cfgRolledBack, .clkswForced, .handshakeBound, .handshakeRefused, .wakeFault,
   .tileIsolated, .alarmOverflow, .limiterFull, .coreRestart, .timeStepped, .timeValidTrue, .timeValidFalse, .trimLimit,
   .trimHoldover, .refInLost, .taMark, .taDone, .taLate, .taRefused, .taFailed, .fabricFull, .noAddress, .addressChanged,
   .tooFar, .upstreamLost, .pairDropped, .storedBadCrc, .linkUp, .linkDown, .downshifted, .downCause, .storeRefreshFail,
   .slotsFull, .tapsDiscarded, .copyBadCrc, .pinnedCleared, .mapChanged, .charFailed, .refreshFailed, .cableChanged,
   .marginLow, .marginLowClear, .uncorrHigh, .uncorrHighClear, .skewHigh, .skewHighClear, .reflectChange, .undersized,
   .laneLeftFault, .laneRemapped, .hostDown, .lsCalMismatch, .neverFit, .lateDiscard, .residenceDiscard, .gateOverrun,
   .mmFailed, .missedGuarantee, .guaranteeReduced, .channelRetired, .readDiscard, .calRejected, .elementRetired, .noSpare,
   .recordDiscarded, .bistRepaired, .bistUnusable, .bistUnusableAlarm, .thermWarn, .thermWarnClear, .thermOver, .lidOver,
   .vinLow, .vinHigh]

/-- Events that also set a condition of Table 17-4 (R400). -/
def EvName.setsFault : EvName → Bool
  | .recoveryEntered | .wakeFault | .tileIsolated | .bistUnusableAlarm | .thermOver => true
  | _ => false

/-- Row of `EV_CODES` (R400). -/
def evCodeRow (row : Nat) : Nat :=
  match EvName.all[Config.evRow row]? with
  | some e => e.code * 2 ^ 16 + e.sev.code * 2 ^ 14 + b2n e.setsFault * 2 ^ 13
  | none => 0

/-- Rows of `WALE_LSDB`: the entries' payloads padded to 88 octets. -/
def Chip.lsdbRow (c : Chip) (row : Nat) : Nat :=
  match c.lsdbAll[row]? with
  | some e => octNat (e.2.octets e.1) 0 88
  | none => 0

/-- Status of a port number that its quad's formation leaves unused: it reads as link down, with zero counts (R30). -/
def Chip.unformed (c : Chip) (r : Reg) (i : Nat) : Bool :=
  r.info.cls = .port && r.info.acc = .ro && r.info.pers = .volatile && c.width i = 0

/-- The value of an object's cell as the block holds or computes it. -/
def Chip.shown (c : Chip) (r : Reg) (i row : Nat) : Nat :=
  match r with
  | .PORT_MODE_ACTIVE => if c.up i then (match (c.port i).mode with
      | some m => m.code
      | none => 0xFF) else 0xFF
  | .PORT_PAIRS_ACTIVE => if c.up i then (c.port i).lanes.length else 0
  | .PORT_LANE_MAP => if c.up i then (c.port i).lanes.foldl (fun a e => a ||| 2 ^ (e % 4)) 0 else 0
  | .PORT_PAYLOAD_RATE => if c.up i then (match (c.port i).mode with
      | some m => m.payload (c.port i).lanes.length
      | none => 0) else 0
  | .PE_TX_LANE =>
    let s := c.port (c.portOf i)
    if c.up (c.portOf i) && s.lanes.contains i then s.lanes.idxOf i else 0xFF
  | .LINK_STATE => (c.port i).link.code
  | .LINK_UP => b2n (c.up i)
  | .TX_PIPE_DELAY => c.txPipe i
  | .PE_RX_PIPE_DELAY => c.rxPipe i
  | .PE_COEF => (c.pe i).word row
  | .ANC_SLOT => ((c.ancOf i).slot row).row
  | .WEAVE_MAP => ((c.ancOf (row / 8)).slot (row % 8)).row
  | .ANC_STATUS => (c.ancOf i).status
  | .LPI_STATE => (c.port i).lpi.state.code
  | .LPI_STATUS => c.lpiStatus i
  | .LPI_WAKE_TIME => c.wakeTime i
  | .LPI_QUIET_TIME => c.quietMs i % 2 ^ 32
  | .CABLE_FINGERPRINT => fpMask (c.width i) (c.rd .CABLE_FINGERPRINT i)
  | .CABLE_FP_STORED => (c.storedPrint i).getD 0
  | .HL_ENTRIES => if mapKind (c.rd .HL_MAP i) = 3 then c.rd .HL_ENTRIES i else 0
  | .HL_MAP_ACTIVE => c.running i
  | .HL_CAPACITY => c.capacity i
  | .HL_PORT_STATUS => c.hostStatus i
  | .TIME_NOW => c.now96
  | .TA_ARMED_COUNT => c.taArmed.length
  | .TS_MSG_OFFSET => c.msgOffset i
  | .TS_STATUS => b2n (c.tsCalibrated i)
  | .TS_REF_PE => c.refPe i
  | .FLOW_SHAPER_STATE => c.shState (.flow row)
  | .SVC_SHAPER_STATE => c.shState (.svc i row)
  | .PORT_SHAPER_STATE => c.shState (.port i)
  | .GATE_STATUS => c.gateStatus i
  | .BUF_ACTIVE_CHANNELS => c.activeChannels.length
  | .BUF_CELLS_TOTAL => c.cellsTotal
  | .BUF_CELLS_FREE => c.cellsFree
  | .BUF_DELIVERABLE => c.deliverable.floor.toNat
  | .BUF_DEMAND => c.demand.ceil.toNat
  | .BUF_DESC_FREE => c.descFree row
  | .PORT_BUF_OCC => c.portOcc i
  | .SVC_BUF_STATE => setRowField 32 (c.rd .SVC_BUF_STATE i row) 0 4 (c.occ i row)
  | .WALE_LSDB => c.lsdbRow row
  | .DEVICE_ID => Config.deviceId.toNat
  | .PART_NUMBER => octetsToNat (ascii (if Config.partMX then "OVF-S512-MX" else "OVF-S512-MC"))
  | .MODULE_REVISION => octetsToNat (ascii "A0")
  | .VENDOR_OUI => Config.vendorOui.toNat
  | .SERIAL_NUMBER => Config.serialNumber.toNat
  | .DICT_VERSION => 0x0100
  | .DAP_MAC => dapMac
  | .SPI_STATUS => c.spiStatus
  | .PWR_STATUS => c.pwrStatus
  | .TILE_STATE => (c.tile i).st.code
  | .TILE_PL_ACTIVE => (c.tile i).level
  | .TILE_CORE_V => if (c.tile i).st = .run then c.rd .TILE_CORE_V i else 0
  | .TILE_PWR_STATUS => c.tilePwrStatus i
  | .CLK_DOMAIN => c.clockRow row
  | .CAL_STATUS => c.calStatus
  | .CAL_PE_STATUS => c.calPeStatus i
  | .CAL_RECORD => octetsToNat (recordOctets i (c.calOf i).shown)
  | .CAL_RECORD_STORED =>
    let copies := c.nv.cal.getD i (none, none)
    match CalCopy.newer copies.1 copies.2 with
    | some k => octetsToNat (recordOctets i (crGet k.octets))
    | none => 0
  | .BOOT_STATUS => c.bootStatus
  | .BOOT_PREFER => b2n c.nv.preferB
  | .ANTI_ROLLBACK => c.nv.antiRollback
  | .MILHOLT_KEY_REVOKED => c.nv.revoked.toNat
  | .IMAGE_INFO => octetsToNat (if row = 0 then c.nv.imageA.row else c.nv.imageB.row)
  | .OWNER_KEY_ID => match c.nv.ownerKey with
      | some k => octetsToNat (keyId k)
      | none => 0
  | .OWNER_SEQ => c.nv.ownerSeq
  | .PROT_MAP => c.boot.map.getD row 0
  | .PROT_MAP_DIGEST => octetsToNat (shake c.mapOctets)
  | .DEVICE_PUBKEY => octNat Config.devicePubkey 0 1952
  | .DEVICE_CERT => octNat Config.deviceCert (1024 * row) 1024
  | .DEVICE_CERT_LENGTH => Config.deviceCert.length
  | .ATTEST_STATUS => setBits (c.rd .ATTEST_STATUS) 1 1 (b2n c.boot.attesting.isSome)
  | .CFG_CANDIDATE => c.nv.cfg.candidate.area.getD row 0
  | .CFG_STATE => c.cfgState
  | .CFG_SLOTS => octetsToNat (match row with
      | 0 => c.nv.cfg.active.row
      | 1 => c.nv.cfg.previous.row
      | 2 => c.nv.cfg.candidate.row
      | _ => ({} : CfgSlot).row)
  | .CFG_DEADLINE => match c.cfg.deadline with
      | some t => time96 t
      | none => 2 ^ 96 - 1
  | .EV_RING => match c.ev.ring.get? row with
      | some e => e.toNat
      | none => 0
  | .EV_FILL => c.evFill
  | .EV_OVERFLOW => match c.ev.overflow with
      | some e => e.toNat
      | none => 0
  | .EV_PENDING_MAP => c.pendingMap row
  | .EV_CODES => evCodeRow row
  | .FAULT_STATUS => c.faultStatus
  | _ => if r.info.acc = .sc then 0 else c.rd r i row

/-- The value of an object's cell as a read shows it, as a number of the object's width. -/
def Chip.value (c : Chip) (r : Reg) (i row : Nat) : Nat := if c.unformed r i then c.dflt r i row else c.shown r i row

/-- Octets of a STRING (R307): no terminator and no padding. -/
def Chip.stringOctets (c : Chip) (r : Reg) : List Octet :=
  (natToOctets r.info.octets (c.value r 0 0)).dropWhile fun o => o = 0

/-- The value of a read, as octets (R307). -/
def Chip.readOctets (c : Chip) (r : Reg) (i row : Nat) : List Octet :=
  if r.info.ty = .string then c.stringOctets r else natToOctets r.info.octets (c.value r i row)

-- Snapshots.

/-- The object is a counter, and it lies in a scope (R315, R317). -/
def Reg.counts (r : Reg) : Bool := r.info.counter

/-- Every counter. -/
def Reg.counters : List Reg := Reg.all.filter Reg.counts

/-- Instances of a class whose counters a snapshot of instance `i` of class `k` covers (Table 13-4). -/
def Chip.snapInsts (c : Chip) (k : Cls) (i : Nat) (x : Cls) : List Nat :=
  match k with
  | .dev => List.range x.count
  | .port => if x = .port then [i] else if x = .pe then c.pesOf i else []
  | _ => if x = k then [i] else []

/-- Snapshot objects of a class (Table 13-4): `SNAP_TIME` and `SNAP_STATUS`. -/
def Cls.snapRegs : Cls → Option (Reg × Reg)
  | .dev => some (.SNAP_TIME_DEV, .SNAP_STATUS_DEV)
  | .port => some (.SNAP_TIME_PORT, .SNAP_STATUS_PORT)
  | .hlane => some (.SNAP_TIME_HLANE, .SNAP_STATUS_HLANE)
  | .wl => some (.SNAP_TIME_WL, .SNAP_STATUS_WL)
  | .qc => some (.SNAP_TIME_QC, .SNAP_STATUS_QC)
  | .mgmt => some (.SNAP_TIME_MGMT, .SNAP_STATUS_MGMT)
  | .spi => some (.SNAP_TIME_SPI, .SNAP_STATUS_SPI)
  | _ => none

/-- Capture one cell of a counter: its value, or nothing while its domain is powered down (R316). A copy that holds the
default is not listed. -/
def Chip.hold (c : Chip) (r : Reg) (i row : Nat) : Chip :=
  let v : Option Nat := if c.asleep r i then none else some (c.value r i row)
  { c with held := c.held.set ⟨r, i, row⟩ v (some r.info.dflt) }

/-- Cells of a counter that hold anything now or in a holding copy: every other one reads its default. -/
def Chip.heldRows (c : Chip) (r : Reg) (i : Nat) : List Nat :=
  if r.info.rows = 0 then [0]
  else if c.asleep r i then List.range r.info.rows
  else (((c.dict.filter fun e => e.1.reg = r ∧ e.1.inst = i).map fun e => e.1.row)
    ++ (c.held.filter fun e => e.1.reg = r ∧ e.1.inst = i).map fun e => e.1.row).eraseDups

/-- A snapshot of an instance's scope (R316). -/
def Chip.snapshot (c : Chip) (k : Cls) (i : Nat) : Chip :=
  let c := c.each Reg.counters fun c r => c.each (c.snapInsts k i r.info.cls) fun c j =>
    c.each (c.heldRows r j) fun c row => c.hold r j row
  let partly := fun (c : Chip) (x : Cls) (j : Nat) =>
    Reg.counters.any fun r => (c.snapInsts x j r.info.cls).any fun u => c.asleep r u
  let mark := fun (c : Chip) (x : Cls) (j : Nat) => match x.snapRegs with
    | some (t, s) => (c.wr t j c.now96).wr s j (1 + 2 * b2n (partly c x j))
    | none => c
  if k = .dev then
    c.each [Cls.dev, .port, .hlane, .wl, .qc, .mgmt, .spi] fun c x => c.each (List.range x.count) fun c j => mark c x j
  else mark c k i

end Sys2Proof.Machine
end

