-- ==== Sys2Proof/Machine/Base.lean ====
section
/-!
DEFINITION. A write's checks after the domain check, and its effect, object by object (R308 to R313): the range, then the
state, then what the object's rule says. The objects of chapter 16 and the timed-action table are written elsewhere.
-/
set_option Elab.async false
namespace Sys2Proof.Machine

/-- A status object (R313). -/
def Reg.isStatus (r : Reg) : Bool := r = .BUF_MISS_STATUS || (r.info.idx = 0x3080 && r.info.sub = 0x01)

/-- The raw value lies in the object's stated range (R307, R312). -/
def Reg.inRange (r : Reg) (v : Nat) : Bool :=
  let ok := match r.info.range with
    | none => true
    | some (lo, hi) =>
      let x : Int := if r.info.ty.signed then toInt r.width v else v
      decide (lo ≤ x) && decide (x ≤ hi)
  ok && (r.info.ty != .time96 || time96Ok v)

/-- A field of `LED_CONFIG` is valid (Tables 7-11, 7-12). -/
def ledFieldOk (f : Nat) : Bool := bits f 10 8 ≤ 4 && bits f 4 0 ≤ 0x0A

/-- Ranges that an object's rule states beside its row: equalisers, LEDs, thresholds that stand apart, the port's width. -/
def Chip.rangeRule (c : Chip) (r : Reg) (i v : Nat) : Bool :=
  match r with
  | .PE_TX_SCR_SEED => v % 2 ^ 58 != 0
  | .PORT_MIN_PAIRS => c.width i = 0 || v ≤ c.width i
  | .ANC_ADMIT => toInt 16 v ≥ c.rdInt .ANC_DROP + 768
  | .ANC_DROP => toInt 16 v + 768 ≤ c.rdInt .ANC_ADMIT
  | .REFLECT_WATCH_PERIOD => v = 0 || (100 ≤ v && v ≤ 3600000)
  | .DAP_ETHERTYPE => v ≥ 0x0600 && !([0x0800, 0x86DD, 0x8100, 0x88A8, 0x8808, 0x88F7].contains v)
  | .HL_TX_EQ | .WL_TX_EQ => bits v 12 8 ≤ 15
  | .LED_CONFIG => ledFieldOk (v % 65536) && ledFieldOk (v / 65536)
  | .EV_READ_COUNT => c.rd .EV_READ_COUNT ≤ v && v ≤ c.rd .EV_WRITE_COUNT
  | _ => true

/-- Conditions on the device's state for a stored value: a gated block is given no work (R335). -/
def Chip.stateRule (c : Chip) (r : Reg) (i v : Nat) : Bool :=
  match r with
  | .MGMT_ENABLE => v = 0 || c.rdBit .LEGACY_GATE 6
  | .HL_PRBS_GEN | .HL_PRBS_CHK => v = 0 || c.rdBit .LEGACY_GATE (8 + i / 32)
  | _ => true

/-- Bits of a stored value that read as a rule says whatever is written. -/
def Reg.fixedBits : Reg → Nat
  | .WAKE_SOURCES => 0x30
  | .POST_SELECT => 0x08
  | _ => 0

/-- The value stored: reserved bits keep what they hold (R6, R308). -/
def Chip.storedValue (c : Chip) (r : Reg) (i row v : Nat) : Nat :=
  (match r.info.fields with
  | some m => (c.rd r i row &&& (2 ^ r.width - 1 - m)) ||| (v &&& m)
  | none => if r = .LED_CONFIG then v &&& 0xFF1FFF1F else v) ||| r.fixedBits

/-- The lane is in test while a pattern is generated or checked (R199). -/
def Chip.laneTestSet (c : Chip) (h : Nat) : Chip :=
  c.setBit .HL_STATUS h 7 (c.rd .HL_PRBS_GEN h != 0 || c.rd .HL_PRBS_CHK h != 0)

/-- What follows a stored value at once. -/
def Chip.afterStore (c : Chip) (r : Reg) (i v : Nat) : Chip :=
  match r with
  | .LPI_WAKE_GUARD | .LPI_MIN_QUIET | .SHAPER_OVERHEAD => c.lpiReplan i
  | .MGMT_ENABLE => if v = 0 then c.wr .MGMT_STATUS i 0 else c
  | .MGMT_AN_ENABLE =>
    if v = 0 then (c.setBit .MGMT_STATUS i 2 false).setBit .MGMT_STATUS i 3 (c.rdBit .MGMT_STATUS 1 i)
    else c.setBit .MGMT_STATUS i 3 (c.rdBit .MGMT_STATUS 2 i)
  | .HL_FORCE_FAIL => c.laneEval i
  | .HL_PRBS_GEN => c.laneTestSet i
  | .HL_PRBS_CHK => (c.wr .HL_PRBS_ERR i 0).laneTestSet i
  | .EV_READ_COUNT | .EV_RING_MODE => c.overflowDrain
  | _ => c

/-- A value is stored by its access class (R308). -/
def Chip.store (c : Chip) (r : Reg) (i row v : Nat) : Abort × Chip :=
  if !r.inRange v || !c.rangeRule r i v then (.range, c)
  else if !c.stateRule r i v then (.state, c)
  else (.ok, (c.wrRow r i row (c.storedValue r i row v)).afterStore r i v)

/-- Clearing a status object (R313). -/
def Chip.clearStatus (c : Chip) (r : Reg) (i v : Nat) : Abort × Chip :=
  let old := c.rd r i
  if statusSeq v ≠ statusSeq old then (.stale, c) else (.ok, c.wr r i (statusCleared old))

/-- A row of `SVC_BUF` lies in its ranges (Table 11-8). -/
def svcBufOk (v : Nat) : Bool :=
  rowField 16 v 0 4 ≤ 200000000 && 64 ≤ rowField 16 v 4 2 && rowField 16 v 4 2 ≤ 16384 && 1 ≤ rowField 16 v 6 2
    && rowField 16 v 8 4 ≤ 4194304 && 1 ≤ rowField 16 v 12 4 && rowField 16 v 12 4 ≤ 8388608

/-- Device states by the codes of `PWR_REQUEST` (R344). -/
def PwrState.ofRequest : Nat → Option PwrState
  | 1 => some .active
  | 2 => some .standby
  | 3 => some .off
  | _ => none

/-- A write of `PWR_REQUEST` or `PWR_DIRECT` (R344, R348). -/
def Chip.writePower (c : Chip) (direct : Bool) (v : Nat) : Abort × Chip :=
  if v = 0 then (.ok, c)
  else match PwrState.ofRequest v with
    | none => (.range, c)
    | some s => if direct then c.writeDirect s else (.ok, c.requestState s)

/-- A write of `TILE_REQUEST` (R344). -/
def Chip.writeTile (c : Chip) (t v : Nat) : Abort × Chip :=
  match v with
  | 0 => (.ok, c)
  | 1 => c.writeTileRequest t .run
  | 2 => c.writeTileRequest t .sleep
  | _ => (.range, c)

/-- A write of a `SNAPSHOT` (R315). -/
def Chip.writeSnapshot (c : Chip) (k : Cls) (i v : Nat) : Abort × Chip :=
  if v = 0 then (.ok, c) else if v > 1 then (.range, c) else (.ok, c.snapshot k i)

/-- A write through view 0 of any object but those of chapter 16 and the timed-action table, from the range check on (R312).
`st` carries out a step of the time base. -/
def Chip.writeBase (c : Chip) (st : Stepper) (r : Reg) (i row v : Nat) : Abort × Chip :=
  if r.isStatus then c.clearStatus r i v
  else match r with
  | .QUAD_FORMATION => c.writeFormation i v
  | .PORT_MODE => c.writePortMode i v
  | .PORT_ENABLE => c.writePortEnable i v
  | .PORT_ABILITY => (.ok, c.applyPortAbility i v)
  | .TRAIN_RESTART => c.writeTrainRestart i v
  | .PE_COEF_FREEZE => c.writeFreeze i v
  | .PE_CAPTURE_TRIGGER => c.writeCapture i v
  | .ANC_MAP_PERSIST => c.writeMapPersist v
  | .ANC_MAP_CLEAR => c.writeMapClear v
  | .ANC_ENABLE => c.writeAncEnable i v
  | .ANC_SLOT => c.writeAncSlot i row v
  | .LPI_ENABLE => c.writeLpiEnable i v
  | .PLANT_MAP_BUILD => c.writePlantBuild v
  | .TDR_START => c.writeTdrStart i v
  | .LQ_RESET => c.writeLqReset i v
  | .REFLECT_TRIGGER => c.writeReflect i v
  | .HL_MAP => c.writeHlMap i false v
  | .HL_ENTRIES => c.writeHlMap i true v
  | .PFC_ENABLE => c.writePfc i .enable v
  | .PFC_PRIORITY_MAP => c.writePfc i .priorityMap v
  | .PFC_HEADROOM => c.writePfc i .headroom v
  | .PFC_QUANTA => c.writePfc i .quanta v
  | .TIME_SNAPSHOT => c.writeTimeSnapshot v
  | .TIME_SET => c.writeTimeSet st v
  | .TIME_STEP => c.writeTimeStep st v
  | .TIME_RATE_ADJ => c.writeRate v
  | .TIME_VALID => c.writeTimeValid v
  | .TIME_SOURCE => c.writeTimeSource false v
  | .TIME_SERVO_MODE => c.writeTimeSource true v
  | .TIME_SERVO_INPUT => c.writeServoInput st v
  | .ROOT_DISCIPLINE => c.writeDiscipline v
  | .ROOT_LINE_PORT => c.writeRootPort v
  | .Q_BLOCKS => c.writeQBlocks i row v
  | .Q_DEFAULT => c.writeQDefault i v
  | .Q_FLUSH => c.writeQFlush i v
  | .Q_CONFIG => c.writeQConfig i row v
  | .SVC_CONFIG => c.writeSvcConfig i row v
  | .FLOW_SHAPER => c.writeShaperRow (.flow row) v
  | .SVC_SHAPER => c.writeShaperRow (.svc i row) v
  | .PORT_SHAPER => c.writeShaperRow (.port i) v
  | .GATE_ENABLE => c.writeGateEnable i v
  | .GATE_SWAP => c.writeGateSwap i v
  | .GCL0_BASE | .GCL0_CYCLE | .GCL0_LENGTH | .GCL0_ENTRY => c.writeGcl r 0 i row v
  | .GCL1_BASE | .GCL1_CYCLE | .GCL1_LENGTH | .GCL1_ENTRY => c.writeGcl r 1 i row v
  | .MM_ENABLE => c.writeMmEnable i v
  | .MTR_CONFIG => c.writeMeter row v
  | .RX_METER_BASE => c.writeMeterRange i false v
  | .RX_METER_COUNT => c.writeMeterRange i true v
  | .BUF_REEVALUATE => c.writeReevaluate v
  | .SVC_BUF => if svcBufOk v then (.state, c) else (.range, c)
  | .QC_RETIRE => c.writeQcRetire i v
  | .WALE_ENABLE => c.writeWlEnable none v
  | .WL_ENABLE => c.writeWlEnable (some i) v
  | .WALE_ROOT_PRIORITY => c.writeRootPriority v
  | .WALE_ADDR_REQUEST => c.writeAddrRequest v
  | .WL_SLIP => c.writeWlSlip i v
  | .WL_COST => c.writeWlCost i v
  | .WL_WAKE_SEND => c.writeWlWake i v
  | .PWR_REQUEST => c.writePower false v
  | .PWR_DIRECT => c.writePower true v
  | .TILE_REQUEST => c.writeTile i v
  | .TILE_PL_MODE => c.writeTilePl i false v
  | .TILE_PL_SET => c.writeTilePl i true v
  | .LEGACY_GATE => c.writeLegacyGate v
  | .CAL_START => c.writeCalStart i v
  | .BIST_REQUEST => c.writeBistRequest v
  | .UPSETT_TAG => c.writeUpsettTag v
  | .SNAPSHOT_DEV => c.writeSnapshot .dev i v
  | .SNAPSHOT_PORT => c.writeSnapshot .port i v
  | .SNAPSHOT_HLANE => c.writeSnapshot .hlane i v
  | .SNAPSHOT_WL => c.writeSnapshot .wl i v
  | .SNAPSHOT_QC => c.writeSnapshot .qc i v
  | .SNAPSHOT_MGMT => c.writeSnapshot .mgmt i v
  | .SNAPSHOT_SPI => c.writeSnapshot .spi i v
  | _ => c.store r i row v

/-- A raw value written through a view, as the value of view 0 that it stands for (R310). -/
def Chip.viewed (c : Chip) (view : Nat) (r : Reg) (i row v : Nat) : Nat :=
  let old := c.value r i row
  let m := match r.info.fields with
    | some f => v &&& f
    | none => v
  match view with
  | 0 => v
  | 1 => old ||| m
  | 2 => old &&& (2 ^ r.width - 1 - m)
  | _ => old ^^^ m

end Sys2Proof.Machine
end

