-- ==== Sys2Proof/Machine/Cfg.lean ====
section
/-!
DEFINITION. Configuration slots: parsing and checking an image, staging it, bringing it into force, confirmation, revert and
rollback (R391 to R396).
-/
set_option Elab.async false
namespace Sys2Proof.Machine

/-- A record of a configuration image (R391): address, row and value. -/
structure CfgRec where
  addr : Nat
  row : Nat
  value : List Octet
deriving DecidableEq, Repr

/-- Records of an image; none where one runs past the end (R391). -/
def cfgRecords : Nat → List Octet → Option (List CfgRec)
  | _, [] => some []
  | 0, _ :: _ => none
  | n + 1, l =>
    let len := octNat l 8 2
    let size := 10 + 4 * cdiv len 4
    if l.length < size then none
    else match cfgRecords n (l.drop size) with
      | some t => some (⟨octNat l 0 5, octNat l 5 3, octs l 10 len⟩ :: t)
      | none => none

/-- The records of a slot whose format is valid (R391, R392). -/
def CfgSlot.records (s : CfgSlot) : Option (List CfgRec) :=
  if !s.formatOk then none
  else
    let body := (s.image.drop 32).take (s.length - 36)
    match cfgRecords (body.length / 10 + 1) body with
    | some l => if l.length = s.count then some l else none
    | none => none

/-- The object of an address in view 0 (R304, R305). -/
def regAt (inst idx sub : Nat) : Option (Reg × Nat) :=
  match clsOf inst with
  | none => none
  | some (k, i) => (Reg.all.find? fun r => r.info.cls = k && r.info.idx = idx && r.info.sub = sub).map fun r => (r, i)

/-- The persistent cell that a record names (R392). -/
def CfgRec.cell (x : CfgRec) : Option Key :=
  if x.addr / 2 ^ 36 ≠ 0 then none
  else match regAt (bits x.addr 35 24) (bits x.addr 23 8) (bits x.addr 7 0) with
    | some (r, i) => if r.info.pers = .persistent && x.row < max 1 r.info.rows then some ⟨r, i, x.row⟩ else none
    | none => none

/-- A record of a cell and its value (R391). -/
def cfgRecord (k : Key) (v : Nat) : List Octet :=
  let n := k.reg.info.octets
  natToOctets 5 (k.reg.info.cls.addr k.inst * 2 ^ 24 + k.reg.info.idx * 2 ^ 8 + k.reg.info.sub) ++ natToOctets 3 k.row
    ++ natToOctets 2 n ++ natToOctets n v ++ List.replicate (4 * cdiv n 4 - n) 0

/-- A device as it would run, with no work in progress, on which a configuration is judged: every tile runs, every value is
its default, and the channels are those of the device (R392). -/
def Chip.blank (c : Chip) : Chip :=
  { boot := { c.boot with phase := .running, applied := true },
    pwr := { rootOn := true, fro := true, hostPll := true, tiles := (List.range 16).map fun t => (t, { st := .run }) },
    dict := c.dict.filter fun e => e.1.reg = .QC_STATE }

/-- Put a value of a configuration into the device on which it is judged. -/
def Chip.judged (c : Chip) (x : Key × Nat) : Chip :=
  if x.1.reg = .ANC_SLOT then
    if x.2.testBit 60 then c.setSlot x.1.inst x.1.row fun _ => { state := .probation, neighbour := bits x.2 56 48, pinned := true }
    else c
  else c.wrRow x.1.reg x.1.inst x.1.row (c.storedValue x.1.reg x.1.inst x.1.row x.2)

/-- The device with a configuration's values: formations first, for the defaults that follow them. -/
def Chip.withValues (c : Chip) (l : List (Key × Nat)) : Chip :=
  let f := l.filter fun x => x.1.reg = .QUAD_FORMATION
  let rest := l.filter fun x => x.1.reg != .QUAD_FORMATION
  (c.blank.each f Chip.judged).each rest Chip.judged

/-- A value is one that a direct write would accept, judged against the configuration's own values; the state of an RWS object
and the rules over several objects are left to others (R392), the reach of `Q_DEFAULT` to R230 among them (assumption 72). -/
def Chip.valueOk (k : Chip) (x : Key × Nat) : Bool :=
  match x.1.reg with
  | .SVC_BUF => svcBufOk x.2
  | .Q_BLOCKS => x.2 ≤ 511 || x.2 = 0xFFFF
  | .Q_DEFAULT => x.2 ≤ 4095
  | .RX_METER_BASE => true
  | .RX_METER_COUNT => x.2 ≤ 4096
  | r =>
    match (k.writeBase Chip.stepTo r x.1.inst x.1.row x.2).1 with
    | .ok => true
    | .state => r.info.acc = .rws || r = .PFC_ENABLE || r = .PFC_HEADROOM
    | _ => false

/-- First record that is no value of a persistent object (R392): reason and record number, or the cells with their values. -/
def cfgCells : Nat → List CfgRec → (Nat × Nat) ⊕ List (Key × Nat)
  | _, [] => .inr []
  | n, x :: l =>
    match x.cell with
    | none => .inl (2, n)
    | some k =>
      if x.value.length ≠ k.reg.info.octets then .inl (3, n)
      else match cfgCells (n + 1) l with
        | .inl e => .inl e
        | .inr t => .inr ((k, octetsToNat x.value) :: t)

/-- First port that a rule finds at fault. -/
def firstPort (f : Nat → Bool) : Option Nat := (List.range 512).find? f

/-- Blocks named by a port's rows. -/
def Chip.rowsOf (c : Chip) (p : Nat) : List Nat := (List.range 8).map fun i => c.rd .Q_BLOCKS p i

/-- Allotments as a whole (R230): packed rows, no block held twice, and `Q_DEFAULT` within the queues of a port with blocks. -/
def Chip.blocksBad (k : Chip) : Option Nat :=
  let all := (List.range 512).flatMap fun p => (k.rowsOf p).filter fun b => b != 0xFFFF
  firstPort fun p => !rowsPacked (k.rowsOf p)
    || ((k.rowsOf p).any fun b => b != 0xFFFF && (all.filter fun x => x = b).length > 1)
    || (!((k.rowsOf p).all fun b => b = 0xFFFF)
        && k.rd .Q_DEFAULT p ≥ 512 * ((k.rowsOf p).filter fun b => b != 0xFFFF).length)

/-- Meter ranges as a whole (R253). -/
def Chip.metersBad (k : Chip) : Option Nat :=
  let l := k.meterRanges
  if meterRangesOk l then none
  else (l.find? fun x => x.2.2 != 0 && (x.2.1 + x.2.2 > 65536 || l.any fun y =>
    !(y.1 = x.1 || y.2.2 = 0 || x.2.1 + x.2.2 ≤ y.2.1 || y.2.1 + y.2.2 ≤ x.2.1))).map fun x => x.1

/-- Mappings as a whole (R182). -/
def Chip.mapsAllBad (k : Chip) : Option Nat :=
  mapsBad (k.portsAll.map fun p => (p, k.rd .HL_MAP p, k.rd .HL_ENTRIES p))

/-- Demand of a configuration (R267). -/
def Chip.demandConfigured (k : Chip) : Rat :=
  k.guaranteed.foldl (fun a x => a + mkRat (k.sbGuarantee x.1 x.2) 8000 * expansion (k.sbMinFrame x.1 x.2)) 0

/-- Reason of Table 11-4 for which the reserves of a configuration are refused (R262). -/
def Chip.reserveReason (k : Chip) : Nat :=
  let rows := (k.dict.filter fun e => e.1.reg = .SVC_BUF).map fun e => (e.1.inst, e.1.row)
  if 2 * rows.foldl (fun a x => a + k.sbReserve x.1 x.2) 0 > k.cellsTotal then 2
  else if rows.any fun x => k.sbReserve x.1 x.2 > k.sbLimit x.1 x.2 then 3
  else 0

/-- Reason of Table 11-4 for which a commit is refused, on the channels now active (R262, R267). -/
def Chip.bufReason (k : Chip) : Nat :=
  if k.reserveReason ≠ 0 then k.reserveReason
  else if k.demandConfigured > k.demandLimit then 1
  else 0

/-- The rules over several objects that a check judges (R182, R197, R230, R253, R262): reason and detail of the first that
fails. The demand of R267 is judged at the commit (assumption 73). -/
def Chip.crossBad (k : Chip) : Option (Nat × Nat) :=
  match k.mapsAllBad with
  | some p => some (5, p)
  | none =>
  match k.blocksBad with
  | some p => some (6, p)
  | none =>
  match k.metersBad with
  | some p => some (7, p)
  | none =>
  if k.reserveReason ≠ 0 then some (8, k.reserveReason)
  else match (firstPort fun p => !pfcFits k p (k.rd .PFC_ENABLE p) (k.rd .PFC_HEADROOM p)) with
    | some p => some (0x0A, p)
    | none => none

/-- The check of a configuration (R392, Table 16-10): the reason and detail of its first failure, or its cells' values. -/
def Chip.judgeSlot (c : Chip) (s : CfgSlot) : (Nat × Nat) ⊕ List (Key × Nat) :=
  match s.records with
  | none => .inl (1, 0)
  | some l =>
    let head := s.image
    if octNat head 16 2 ≠ 0x0100 || !(octNat head 24 8 = 0 || octNat head 24 8 = Config.deviceId.toNat) then .inl (4, 0)
    else match cfgCells 0 l with
      | .inl e => .inl e
      | .inr cells =>
        let k := c.withValues cells
        match (List.range cells.length).find? fun n => !(cells[n]?.any k.valueOk) with
        | some n => .inl (3, n)
        | none =>
          match k.crossBad with
          | some e => .inl e
          | none => .inr cells

/-- Values of a slot that has passed its check. -/
def CfgSlot.values (s : CfgSlot) : List (Key × Nat) :=
  match s.records with
  | none => []
  | some l => match cfgCells 0 l with
    | .inr cells => cells
    | .inl _ => []

-- Bringing values into force.

/-- Pinned slots with their neighbours. -/
def Chip.pinned (c : Chip) : List (Nat × Nat × Nat) :=
  c.anc.flatMap fun e => (List.range 8).filterMap fun k =>
    let s := e.2.slot k
    if s.pinned then some (e.1, k, s.neighbour) else none

/-- Cells of persistent objects that hold something other than their default. -/
def Chip.persistentKeys (c : Chip) : List Key :=
  (c.dict.filter fun e => e.1.reg.info.pers = .persistent).map fun e => e.1

/-- Place of an object in the order in which the values of one edge are worked through: disabling ports first, then
formations, rows that other objects rest on, the rest, gating, and enabling ports last. -/
def applyPhase (r : Reg) (v : Nat) : Nat :=
  match r with
  | .PORT_ENABLE => if v = 0 then 0 else 5
  | .QUAD_FORMATION => 1
  | .SVC_BUF | .TILE_PL_SET => 2
  | .GATE_ENABLE => 4
  | _ => if r.gclBank.isSome then 2 else 3

/-- The effect of one value (R393): that of a direct write, without the state rules of RWS objects. -/
def Chip.applyCell (c : Chip) (st : Stepper) (k : Key) (v : Nat) : Chip :=
  match k.reg with
  | .QUAD_FORMATION =>
    let c := c.each (c.portsOfQuad k.inst) fun c p => (c.leave p).setLink p .disabled
    c.applyFormation k.inst v
  | .PORT_ENABLE => c.applyPortEnable k.inst (v = 1)
  | .PORT_MODE => c.applyPortMode k.inst v
  | .HL_MAP | .HL_ENTRIES => c.wr k.reg k.inst v
  | .TILE_PL_SET =>
    let c := c.wr .TILE_PL_SET k.inst v
    if c.levelManual k.inst && !c.tileCalibrates k.inst then c.changeLevel k.inst v else c
  | .SVC_BUF => (c.wrRow .SVC_BUF k.inst k.row v).pfcEval k.inst
  | .PFC_ENABLE | .PFC_HEADROOM => (c.wr k.reg k.inst v).pfcEval k.inst
  | .RX_METER_BASE | .RX_METER_COUNT | .Q_DEFAULT => c.wr k.reg k.inst v
  | r =>
    if r.gclBank.isSome then c.wrRow r k.inst k.row v
    else match c.writeBase st r k.inst k.row v with
      | (.ok, c') => c'
      | _ => c.wrRow r k.inst k.row v

/-- One cell takes the value of the configuration; a cell that it does not name goes back to its default. -/
def Chip.applyKey (c : Chip) (st : Stepper) (named : List (Key × Nat)) (new : Chip) (k : Key) : Chip :=
  let v := new.rd k.reg k.inst k.row
  let c := if c.rd k.reg k.inst k.row = v then c else c.applyCell st k v
  if named.any fun x => x.1 = k then c else if k.reg.formDependent then c.clr k.reg k.inst k.row else c

/-- Pinned slots follow the configuration (R134). The neighbour of a committed entry may be one that another slot of the victim holds:
the rules do not say what happens then, and both slots name it (DESIGN CHOICE, log entry 96). -/
def Chip.applyPinned (c : Chip) (new : List (Nat × Nat × Nat)) : Chip :=
  let c := c.each (c.pinned.filter fun x => !new.contains x) fun c x => c.emptySlot x.1 x.2.1
  c.each (new.filter fun x => !c.pinned.contains x) fun c x =>
    (c.emptySlot x.1 x.2.1).fillSlot x.1 x.2.1 { neighbour := x.2.2, pinned := true }

/-- Allotments follow the configuration (R230): frames in a block that leaves its port are discarded. -/
def Chip.applyBlocks (c : Chip) (new : Chip) : Chip :=
  let ports := (List.range 512).filter fun p => c.rowsOf p != new.rowsOf p
  let c := c.each ports fun c p =>
    let leaving := (c.rowsOf p).filter fun b => b != 0xFFFF && !(new.rowsOf p).contains b
    let c := c.each (c.queues.flatMap fun e => if leaving.contains (e.1 / 512) then e.2.filter fun f => f.port = p else [])
      fun c f => c.dropQueued f .other
    c.each leaving fun c b => c.wrRow .Q_BLOCK_OWNER 0 b 0xFFFF
  c.each ports fun c p =>
    let rows := new.rowsOf p
    let c := c.each (List.range 8) fun c i => c.wrRow .Q_BLOCKS p i (rows.getD i 0xFFFF)
    let c := c.each (rows.filter fun b => b != 0xFFFF) fun c b => c.wrRow .Q_BLOCK_OWNER 0 b p
    c.renumber p

/-- Ports whose running gate bank a list of cells belongs to. -/
def Chip.runningBankPorts (c : Chip) (l : List Key) : List Nat :=
  ((l.filter fun k => match k.reg.gclBank with
    | some b => (c.sch k.inst).bank = b && c.rdBool .GATE_ENABLE k.inst
    | none => false).map fun k => k.inst).eraseDups

/-- Ports whose host side or flow control a change of an object may touch. -/
def Chip.touchedPorts (k : Key) : List Nat :=
  match k.reg.info.cls with
  | .port => [k.inst]
  | .quad => (List.range 4).map fun i => 4 * k.inst + i
  | _ => []

/-- A configuration's values take effect at one edge (R393): what rests on several of them, the host mappings (R183, R184) and the flow
control thresholds (R197), is judged once all are in force. -/
def Chip.applyValues (c : Chip) (st : Stepper) (l : List (Key × Nat)) : Chip :=
  let new := c.withValues l
  let moved := (c.host.filter fun e => e.2.moved.isSome).map fun e => e.1
  let blocks := (List.range 512).filter fun p => c.rowsOf p != new.rowsOf p
  let c : Chip := { c with cfg := { c.cfg with applying := true } }
  let keys := ((c.persistentKeys ++ new.persistentKeys).filter fun k => k.reg != .Q_BLOCKS).eraseDups
  let changed := keys.filter fun k => c.rd k.reg k.inst k.row != new.rd k.reg k.inst k.row
  let formed := (changed.filter fun k => k.reg = .QUAD_FORMATION).map fun k => k.inst
  let c := c.each [0, 1, 2, 3] fun c ph =>
    c.each (keys.filter fun k => applyPhase k.reg (new.rd k.reg k.inst k.row) = ph) fun c k => c.applyKey st l new k
  let c := (c.applyBlocks new).applyPinned new.pinned
  let c := c.each [4, 5] fun c ph =>
    c.each (keys.filter fun k => applyPhase k.reg (new.rd k.reg k.inst k.row) = ph) fun c k => c.applyKey st l new k
  let c := c.each formed fun c q => c.each (c.portsOfQuad q) fun c p =>
    if c.rdBool .PORT_ENABLE p && (c.port p).link = .disabled then c.startEnabled p else c
  let c := c.each (c.runningBankPorts changed) fun c p => (c.gateOn p).2
  let c := c.each moved fun c p => c.mapReturn p
  let c : Chip := { c with cfg := { c.cfg with applying := false } }
  let ports := (moved ++ blocks ++ changed.flatMap Chip.touchedPorts).eraseDups
  let c := c.each ports fun c p => ((c.lsSettle (p / 64)).undersizedEval p).pfcEval p
  (c.reevaluate).replanAll

-- The candidate, check and commit.

/-- The staging is discarded and the candidate counts as not checked (R392). -/
def Chip.unstage (c : Chip) : Chip :=
  ({ c with cfg := { c.cfg with checking := false, staged := none } }).wrDev .CFG_CHECK_RESULT 0

/-- Replace the candidate. -/
def Chip.setCandidate (c : Chip) (s : CfgSlot) : Chip :=
  ({ c with nv := { c.nv with cfg := { c.nv.cfg with candidate := s } } } : Chip).unstage

/-- A write of a row of `CFG_CANDIDATE` (R392). -/
def Chip.writeCandidate (c : Chip) (row v : Nat) : Abort × Chip :=
  if c.commitArmed then (.state, c)
  else (.ok, c.setCandidate { rows := some (c.nv.cfg.candidate.area.set row v 0), confirmed := false })

/-- The values in force, as an image (R391). -/
def Chip.captureImage (c : Chip) : List Octet × Chip :=
  let d := c.draw
  let keys := c.persistentKeys.filter fun k => c.rd k.reg k.inst k.row != c.dflt k.reg k.inst k.row
  let recs := (keys.flatMap fun k => cfgRecord k (c.rd k.reg k.inst k.row))
    ++ c.pinned.flatMap fun x => cfgRecord ⟨.ANC_SLOT, x.1, x.2.1⟩ (2 ^ 60 + x.2.2 * 2 ^ 48)
  let v := (c.nv.cfg.active.version + 1) % 2 ^ 32
  (cfgImage v (keys.length + c.pinned.length) (if d.1 % 2 = 0 then 0 else Config.deviceId.toNat) recs, d.2)

/-- A write of `CFG_CAPTURE` (R391). -/
def Chip.writeCapture' (c : Chip) (v : Nat) : Abort × Chip :=
  if v = 0 then (.ok, c)
  else if v > 1 then (.range, c)
  else if c.commitArmed then (.state, c)
  else
    let x := c.captureImage
    (.ok, x.2.setCandidate { rows := some (areaRows 0 2048 x.1), confirmed := false })

/-- A write of `CFG_LOAD_FACTORY` (R391). -/
def Chip.writeLoadFactory (c : Chip) (v : Nat) : Abort × Chip :=
  if v = 0 then (.ok, c)
  else if v > 1 then (.range, c)
  else if c.commitArmed then (.state, c)
  else (.ok, c.setCandidate { confirmed := false })

/-- A write of `CFG_CHECK` (R392). -/
def Chip.writeCfgCheck (c : Chip) (v : Nat) : Abort × Chip :=
  if v = 0 then (.ok, c)
  else if v > 1 then (.range, c)
  else if c.commitArmed then (.state, c)
  else if c.cfg.checking then (.busy, c)
  else (.ok, ({ c.unstage with cfg := { c.cfg with checking := true, staged := none } } : Chip).wrDev .CFG_CHECK_RESULT 1)

/-- Reason and detail of the latest check or commit (Table 16-10). -/
def Chip.setReason (c : Chip) (reason detail : Nat) : Chip :=
  (c.wrDev .CFG_COMMIT_REASON reason).wrDev .CFG_COMMIT_DETAIL detail

/-- CFG_CHECK_DONE: the check completes (R392). -/
def Chip.cfgCheckDone (c : Chip) : Chip :=
  if !c.cfg.checking then c
  else
    let c : Chip := { c with cfg := { c.cfg with checking := false } }
    match c.judgeSlot c.nv.cfg.candidate with
    | .inl e => (c.setReason e.1 e.2).wrDev .CFG_CHECK_RESULT 3
    | .inr l => (({ c with cfg := { c.cfg with staged := some l } } : Chip).setReason 0 0).wrDev .CFG_CHECK_RESULT 2

/-- The confirmation that a commit awaits ends. -/
def Chip.endPending (c : Chip) : Chip := { c with cfg := { c.cfg with deadline := none } }

/-- The slots move and the staged values take effect (R393, R394). -/
def Chip.takeStaged (c : Chip) (st : Stepper) (l : List (Key × Nat)) : Chip :=
  let wait := c.rd .CFG_CONFIRM_TIMEOUT * tbSecond
  let old := c.nv.cfg
  let c := c.applyValues st l
  let c : Chip := { c with
    nv := { c.nv with cfg := { active := { old.candidate with confirmed := false }, previous := old.active,
                               candidate := old.previous } },
    cfg := { c.cfg with staged := none, deadline := some (c.tb + wait), upsett := none, before := some (old, c.root) } }
  (((c.wrDev .CFG_CHECK_RESULT 0).setReason 0 0).wrDev .BUF_COMMIT_REASON 0).wrDev .CFG_STATE 0

/-- A commit of a candidate whose check failed on its reserves reports the reason of Table 11-4 (R262). -/
def Chip.reportReserves (c : Chip) : Chip :=
  if c.rd .CFG_CHECK_RESULT = 3 ∧ c.rd .CFG_COMMIT_REASON = 8 then c.wrDev .BUF_COMMIT_REASON (c.rd .CFG_COMMIT_DETAIL) else c

/-- A commit, immediate or by a timed action (R393): not while a confirmation is pending; refused without a passed check, or
when the buffer's rules fail on the channels now active. -/
def Chip.commit (c : Chip) (st : Stepper) : Abort × Chip :=
  if c.cfg.deadline.isSome then (.state, c)
  else match c.cfg.staged with
    | none => (.commitRefused, c.reportReserves.setReason 9 0)
    | some l =>
      let r := (c.withValues l).bufReason
      if r ≠ 0 then (.commitRefused, (c.setReason 8 r).wrDev .BUF_COMMIT_REASON r)
      else (.ok, c.takeStaged st l)

/-- A write of `CFG_COMMIT` (R393). -/
def Chip.writeCommit (c : Chip) (st : Stepper) (v : Nat) : Abort × Chip :=
  if v = 0 then (.ok, c)
  else if v > 1 then (.range, c)
  else if c.commitArmed then (.state, c)
  else c.commit st

/-- An outcome for the device that posted a timed commit (R396): 0 stands for this device. Without an address of its own a
device has no row for its own outcomes. -/
def Chip.tell (c : Chip) (poster tag state cause : Nat) : Chip :=
  let a := if poster = 0 then c.rd .WALE_ADDRESS else poster
  if a = 0 then c else c.outcome a tag state cause

/-- An outcome of the commit in force (R396). -/
def Chip.tellPoster (c : Chip) (state : Nat) : Chip :=
  match c.cfg.upsett with
  | some (a, tag) => c.tell a tag state 0
  | none => c

/-- A write of `CFG_CONFIRM` (R394). -/
def Chip.writeConfirm (c : Chip) (v : Nat) : Abort × Chip :=
  if c.cfg.deadline.isNone || v ≠ c.nv.cfg.active.version then (.state, c)
  else
    let c : Chip := { c with nv := { c.nv with cfg := { c.nv.cfg with active := { c.nv.cfg.active with confirmed := true } } } }
    (.ok, (c.endPending).tellPoster 5)

/-- `PREVIOUS` becomes `ACTIVE` and the former `ACTIVE` becomes `CANDIDATE` (R394, R395). -/
def Chip.slotsBack (c : Chip) : Chip :=
  let s := c.nv.cfg
  ({ c with nv := { c.nv with cfg := { s with active := s.previous, candidate := s.active } } } : Chip).unstage.endPending

/-- A revert, before its values take effect (R394). -/
def Chip.revertSlots (c : Chip) : Chip :=
  let c := c.slotsBack
  ((c.setBit .CFG_STATE 0 3 true).inc .CFG_REVERT_COUNT).raise .cfgReverted 0 c.nv.cfg.active.version

/-- CFG_CONFIRM_DEADLINE: the deadline has passed without a confirmation (R394). -/
def Chip.deadlineRevert (c : Chip) (st : Stepper) : Chip :=
  match c.cfg.deadline with
  | none => c
  | some t =>
    if c.tb < t then c
    else
      let c := c.revertSlots
      let c := c.applyValues st c.nv.cfg.active.values
      let c := c.tellPoster 6
      { c with cfg := { c.cfg with upsett := none } }

/-- Armed `TA_COMMIT` rows are cancelled (R395). -/
def Chip.cancelCommits (c : Chip) : Chip :=
  c.each (c.taArmed.filter fun r => c.rdField .TA_TABLE 0 r 12 1 = 2) fun c r => c.wrField .TA_TABLE 0 r 13 1 6

/-- A write of `CFG_ROLLBACK` (R395). -/
def Chip.writeRollback (c : Chip) (st : Stepper) (v : Nat) : Abort × Chip :=
  if v = 0 then (.ok, c)
  else if v > 1 then (.range, c)
  else
    let c := c.cancelCommits
    let c := if c.nv.cfg.active.area = c.nv.cfg.previous.area ∧ c.cfg.deadline.isNone then c else c.slotsBack
    let c := c.applyValues st c.nv.cfg.active.values
    let c := (c.setBit .CFG_STATE 0 4 true).raise .cfgRolledBack 0 c.nv.cfg.active.version
    let c := c.tellPoster 7
    (.ok, { c with cfg := { c.cfg with upsett := none } })

end Sys2Proof.Machine
end

