-- ==== Sys2Proof/Machine/Ta.lean ====
section
/-!
DEFINITION. Timed actions (R222 to R227): posting, judging, running and cancelling rows of `TA_TABLE`, and what a step of the
time base does to them.
-/
set_option Elab.async false
namespace Sys2Proof.Machine

/-- States of a row (Table 9-9). -/
def taFree : Nat := 0
def taArmedState : Nat := 1
def taDone : Nat := 2
def taDoneLate : Nat := 3
def taRefused : Nat := 4
def taFailed : Nat := 5
def taCancelled : Nat := 6

/-- `TA_TIME` of a row, as a time-base value. -/
def Chip.taTime (c : Chip) (r : Nat) : Nat := ofTime96 (c.rdField .TA_TABLE 0 r 0 12)

/-- A row is armed. -/
def Chip.taIsArmed (c : Chip) (r : Nat) : Bool := c.rdField .TA_TABLE 0 r 13 1 = taArmedState

/-- `TA_TAG` of a row. -/
def Chip.taTag (c : Chip) (r : Nat) : Nat := c.rdField .TA_TABLE 0 r 36 4

/-- The row's late window, in units of the time base (Table 9-9). -/
def Chip.taWindow (c : Chip) (r : Nat) : Nat :=
  let w := c.rdField .TA_TABLE 0 r 16 4
  tbUs (if w = 0 then c.rd .TA_LATE_WINDOW_DEFAULT else w)

/-- The object lies in a clocked island whose domain is a division of D00, or is one that R223 names. -/
def Reg.timed (r : Reg) : Bool :=
  r = .TIME_SNAPSHOT || r.info.idx = 0x3100
    || !([0x10, 0x11, 0x12, 0x20, 0x21, 0x30, 0x70, 0xA0].contains (r.info.idx / 256)
      || (r.info.idx / 256 = 0x51 && (r.info.cls = .dev || r.info.cls = .port)) || r.info.cls = .spi)

/-- Views 1 to 3 exist for an object (R305, R310). -/
def Reg.hasViews (r : Reg) : Bool :=
  (r.info.ty = .bits16 || r.info.ty = .bits32 || r.info.ty = .bits64) && (r.info.acc = .rw || r.info.acc = .rws)

/-- What an address names (R304, R305): the view, the object and its unit. -/
def addrTarget (addr : Nat) : Option (Nat × Reg × Nat) :=
  if addr / 2 ^ 38 ≠ 0 then none
  else match regAt (bits addr 35 24) (bits addr 23 8) (bits addr 7 0) with
    | none => none
    | some (r, i) =>
      let view := bits addr 37 36
      if view = 0 || r.hasViews then some (view, r, i) else none

/-- Units that a timed write covers (Table 9-9, R223); none when the range is not lawful. -/
def taUnits (inst last : Nat) : Option (List Nat) :=
  match clsOf inst with
  | none => none
  | some (k, i) =>
    if last = 0 || last = inst then some [i]
    else match clsOf last with
      | some (x, j) => if x = k && inst < last then some ((List.range (j + 1 - i)).map fun n => i + n) else none
      | none => none

/-- Writing a row number to `TA_CANCEL` (R225). -/
def Chip.writeTaCancel (c : Chip) (v : Nat) : Abort × Chip :=
  if v > 255 then (.range, c)
  else if !c.taIsArmed v then (.state, c)
  else (.ok, c.wrField .TA_TABLE 0 v 13 1 taCancelled)

/-- A timed write's effect on one unit: what a direct write through the view does, from the range check on. -/
def Chip.taEffect (c : Chip) (st : Stepper) (view : Nat) (r : Reg) (i v : Nat) : Abort × Chip :=
  let v := c.viewed view r i 0 (v % 2 ^ r.width)
  if r = .TA_CANCEL then c.writeTaCancel v
  else if r.info.acc = .sc && r != .GATE_SWAP && v = 0 then (.ok, c)
  else c.writeBase st r i 0 v

/-- The checks of a `TA_WRITE` target when it is posted (R223): the first abort in the order of R312. -/
def Chip.taTarget (c : Chip) (st : Stepper) (path : Path) (target last v : Nat) : Abort :=
  match addrTarget target with
  | none => .noObject
  | some (view, r, i) =>
    let inst := bits target 35 24
    let units := taUnits inst last
    if r.info.acc = .ro || r.info.acc = .const then .readOnly
    else if !((units.getD [i]).all fun j => c.permits path (r.info.cls.addr j) r.info.idx r.info.sub) then .guarded
    else if r.info.octets > 8 || r.info.ty = .string || (r.isStatus && view ≠ 0) then .wrongType
    else match units with
      | none => .range
      | some l =>
        if !r.timed || l.any fun j => (c.taEffect st view r j v).1 = .range then .range else .ok

/-- A row ends refused (R224 to R226). -/
def Chip.taRefuse (c : Chip) (r cause : Nat) : Chip :=
  let c := (c.wrField .TA_TABLE 0 r 13 1 taRefused).wrField .TA_TABLE 0 r 27 1 cause
  (c.inc .TA_REFUSED_COUNT).raise .taRefused 0 (c.taTag r)

/-- The poster of a commit's row hears how it ended (R396). -/
def Chip.taTell (c : Chip) (r state cause : Nat) : Chip :=
  if c.rdField .TA_TABLE 0 r 12 1 = 2 then c.tell (c.cfg.posters.getD r 0) (c.taTag r) state cause else c

/-- What a row does: a write of every unit of its range, a commit, or a mark (Table 9-9, R225). The first abort is its cause;
the other units are written all the same. -/
def Chip.taAct (c : Chip) (st : Stepper) (r : Nat) : Abort × Chip :=
  match c.rdField .TA_TABLE 0 r 12 1 with
  | 1 =>
    let target := c.rdField .TA_TABLE 0 r 20 5
    let v := c.rdField .TA_TABLE 0 r 28 8
    match addrTarget target, taUnits (bits target 35 24) (c.rdField .TA_TABLE 0 r 25 2) with
    | some (view, g, _), some l =>
      l.foldl (fun (a : Abort × Chip) j =>
        let x := a.2.gated g j fun c => c.taEffect st view g j v
        if x.1 = .ok then (a.1, x.2) else (if a.1 = .ok then x.1 else a.1, a.2)) (.ok, c)
    | _, _ => (.noObject, c)
  | 2 =>
    match c.commit st with
    | (.ok, c) => (.ok, { c with cfg := { c.cfg with upsett := some (c.cfg.posters.getD r 0, c.taTag r) } })
    | x => x
  | _ => (.ok, c.raise .taMark 0 (c.taTag r))

/-- An action runs (R224 to R226): at its time, or late, also after a forward step. The row is marked before it acts, so that
what it does meets it as run. -/
def Chip.taRun (c : Chip) (st : Stepper) (r : Nat) (late stepped : Bool) : Chip :=
  let flags := c.rdField .TA_TABLE 0 r 14 2
  if flags.testBit 3 && !c.rdBool .TIME_VALID then (c.taRefuse r 2).taTell r 3 2
  else
    let tag := c.taTag r
    let done := if late then taDoneLate else taDone
    let c := c.wrField .TA_TABLE 0 r 14 2 (withBit (withBit flags 0 late) 1 stepped)
    let c := c.wrField .TA_TABLE 0 r 13 1 done
    match c.taAct st r with
    | (.ok, c) =>
      let c := if late then (c.inc .TA_LATE_COUNT).raise .taLate 0 tag else c.raise .taDone 0 tag
      c.taTell r (if late then 2 else 1) 0
    | (a, c) =>
      let c := (c.wrField .TA_TABLE 0 r 13 1 taFailed).wrField .TA_TABLE 0 r 27 1 a.code
      ((c.inc .TA_FAILED_COUNT).raise .taFailed 0 tag).taTell r 4 a.code

/-- A row is judged against the present time, as when it is posted (R224). -/
def Chip.taJudge (c : Chip) (st : Stepper) (r : Nat) : Chip :=
  let t := c.taTime r
  if t > c.tb then c.wrField .TA_TABLE 0 r 13 1 taArmedState
  else if c.tb - t ≤ c.taWindow r then c.taRun st r true false
  else (c.taRefuse r 1).taTell r 3 1

/-- A row that a forward step has passed is judged with its lateness at the step's end (R226). -/
def Chip.taPassed (c : Chip) (st : Stepper) (r : Nat) : Chip :=
  if !c.taIsArmed r then c
  else if c.tb - c.taTime r ≤ c.taWindow r then c.taRun st r true true
  else (c.taRefuse r 3).taTell r 3 3

/-- An armed row whose time has come runs (R225). -/
def Chip.taDue (c : Chip) (st : Stepper) (r : Nat) : Chip :=
  if c.taIsArmed r && c.taTime r ≤ c.tb then c.taRun st r false false else c

/-- A step of the time base with what R226 says of timed actions: the other rows due at its edge run before it, and the rows
that it passes are judged after it. `n` bounds the steps that actions make within a step; each such action is a row that does
not run again, so 257 is enough. -/
def Chip.stepN : Nat → Stepper
  | 0 => Chip.stepTo
  | n + 1 => fun c new amount =>
    let st := Chip.stepN n
    let c := c.each c.taArmed fun c r => c.taDue st r
    let old := c.tb
    let c := c.stepTo new amount
    c.each (c.taArmed.filter fun r => old < c.taTime r && c.taTime r ≤ c.tb) fun c r => c.taPassed st r

/-- A step of the time base (R204, R226). -/
def stepAll : Stepper := Chip.stepN 257

/-- Fields of a posted row that lie outside their ranges (Table 9-9). -/
def taFieldsOk (v : Nat) : Bool :=
  rowField 40 v 12 1 ≤ 3 && rowField 40 v 16 4 ≤ 10000000 && rowField 40 v 25 2 < 4096 && time96Ok (rowField 40 v 0 12)

/-- What the kind of a post requires (R223, R393). -/
def Chip.taKind (c : Chip) (path : Path) (v : Nat) : Abort :=
  match rowField 40 v 12 1 with
  | 1 => c.taTarget stepAll path (rowField 40 v 20 5) (rowField 40 v 25 2) (rowField 40 v 28 8)
  | 2 => if c.cfg.deadline.isSome || c.commitArmed || c.cfg.staged.isNone then .state else .ok
  | _ => .ok

/-- The row that a post leaves in the table: the device sets the state, the cause and the read-only flags. -/
def taStored (v : Nat) (fabric : Bool) : Nat :=
  let v := setRowField 40 v 13 1 0
  let v := setRowField 40 v 14 2 (rowField 40 v 14 2 &&& 8 ||| 4 * b2n fabric)
  setRowField 40 v 27 1 0

/-- A write of a row of `TA_TABLE`, from the range check on (R222 to R224). -/
def Chip.writeTa (c : Chip) (row v : Nat) (path : Path) (src : Nat) : Abort × Chip :=
  if !taFieldsOk v then (.range, c)
  else if c.taIsArmed row then (.state, c)
  else if rowField 40 v 12 1 = 0 then
    (.ok, c.wrRow .TA_TABLE 0 row (taStored v (path = .wale)))
  else match c.taKind path v with
    | .ok =>
      let c := c.wrRow .TA_TABLE 0 row (taStored v (path = .wale))
      let c : Chip := { c with cfg := { c.cfg with
        posters := if path = .wale then c.cfg.posters.set row src 0 else c.cfg.posters.del row } }
      (.ok, c.taJudge stepAll row)
    | a => (a, c)

/-- Armed rows whose time passed while the time base stood are judged as though posted now (R226). -/
def Chip.taResume (c : Chip) : Chip :=
  c.each (c.taArmed.filter fun r => c.taTime r ≤ c.tb) fun c r => c.taJudge stepAll r

end Sys2Proof.Machine
end

