-- ==== Sys2Proof/Machine/Boot.lean ====
section
/-!
DEFINITION. Reset and the start-up sequence of Table 16-1 (R375 to R377, R382, R384, R387, R394, R408), and the firmware
watchdog (R409).
-/
set_option Elab.async false
namespace Sys2Proof.Machine

/-- Change what is kept of the start-up. -/
def Chip.setBoot (c : Chip) (f : BootSt → BootSt) : Chip := { c with boot := f c.boot }

-- Reset.

/-- The role record as a reset finds it: a commit's record takes up to 10 ms to reach MRAM (R393), and within that time either
state may be found. -/
def Chip.rolesAtReset (c : Chip) : Chip :=
  match c.cfg.before with
  | none => c
  | some (old, r0) =>
    if c.root < r0 + rootUs 10000 then
      let d := c.draw
      if d.1 % 2 = 0 then { d.2 with nv := { d.2.nv with cfg := old } } else d.2
    else c

/-- Classes of `POST_SELECT` that a block's mark rests on (R368, R369). -/
def markClasses : Reg → Option Nat
  | .BIST_STATE_TILE => some 0x02
  | .BIST_STATE_PE => some 0x05
  | .BIST_STATE_QC => some 0x01
  | .BIST_STATE_HLANE => some 0x10
  | .BIST_STATE_WL => some 0x20
  | .SCHED_QUAD_STATE => some 0x03
  | _ => none

/-- `POST_SELECT` of a start: from the `ACTIVE` slot, or its default (R368). -/
def Nv.postSelect (n : Nv) : Nat :=
  match n.cfg.active.values.find? fun x => x.1.reg = .POST_SELECT with
  | some x => (x.2 &&& 0x3F) ||| 8
  | none => 0x3F

/-- Marks that a reset keeps: those of blocks that its POST does not test (R369), and the channels that were retired (Table 11-6). -/
def Chip.keptMarks (c : Chip) : Tab Key Nat :=
  let sel := c.nv.postSelect
  let out := fun (h : Nat) => 2 ≤ c.rd .QC_STATE h || c.rd .BIST_STATE_QC h = 2
  let marks := c.dict.filter fun e => e.2 = 2 && (match markClasses e.1.reg with
    | some m => m &&& sel != m
    | none => false)
  if sel.testBit 0 then marks
  else ((List.range 136).filter out).foldl (fun (d : Tab Key Nat) h => d.put ⟨.QC_STATE, h, 0⟩ 3) marks

/-- Spares take the places of the channels that a reset keeps unusable, in ascending order (R271). -/
def Chip.keptReplaced (c : Chip) : Chip :=
  c.each ((List.range 136).filter fun h => c.rd .QC_STATE h = 3 && h % 34 < 32) fun c h => c.replaced h

/-- Everything that a reset discards is discarded (Table 14-8, R375): what stays is the non-volatile memory, the marks of
R369 and the pins that hold the device in reset. -/
def Chip.discard (c : Chip) (phase : BootPhase) : Chip :=
  let c := c.rolesAtReset
  { nv := c.nv, draws := c.draws, dict := c.keptMarks,
    boot := { vinGood := c.boot.vinGood, resetHigh := c.boot.resetHigh, phase := phase, byReset := c.boot.byReset } }

-- The steps of Table 16-1.

/-- The attempts of wake steps 3 and 4 that failed (Table 14-12). -/
def BootInputs.stepFail (b : BootInputs) : Nat := b.refFails.val + 4 * b.pllFails.val

/-- Policy entries of Table 16-7 in an owner policy (R387). -/
def policyEntries (l : List Octet) : List Nat :=
  (List.range (octNat l 2 2)).map fun k => setBits (octNat l (16 + 8 * k) 8) 57 56 0

/-- An owner policy is well formed, is for this device, and is signed with the owner's key (R387). -/
def policyValid (key l : List Octet) : Bool :=
  l.length = 3837 && octNat l 0 2 = 1 && 1 ≤ octNat l 2 2 && octNat l 2 2 ≤ 64
    && (octNat l 8 8 = 0 || octNat l 8 8 = Config.deviceId.toNat)
    && (octs l (16 + 8 * octNat l 2 2) (8 * (64 - octNat l 2 2))).all (fun o => o = 0)
    && Config.mldsaVerify key (signedMessage "OVF-S512 policy" (l.take 528)) (octs l 528 3309)

/-- The map that permits every write from the management port and SPI and no other write (R387). -/
def closedMap : List Nat := [0x94000FFF0000FFFF]

/-- The default map (Table 16-8). -/
def defaultMap : List Nat := [0x40000FFF100012FF, 0xFC000FFF0000FFFF]

/-- Step 3: the protection map is loaded and locked (R387). -/
def Chip.mapLoad (c : Chip) (bad : Bool) : Chip :=
  match c.nv.ownerKey with
  | none => c.setBoot fun b => { b with map := defaultMap, mapLocked := true, policyDefault := false }
  | some k =>
    let l := match c.nv.policy with
      | some p => p.octets
      | none => []
    if !bad && policyValid k l then
      c.setBoot fun b => { b with map := policyEntries l, mapLocked := true, policyDefault := false }
    else c.setBoot fun b => { b with map := closedMap, mapLocked := true, policyDefault := true }

/-- Result codes of both slots as this start finds them. -/
def Chip.slotCodes (c : Chip) : Nat × Nat := (c.nv.verify c.nv.imageA, c.nv.verify c.nv.imageB)

/-- Step 4: an image is selected (R382); none: recovery (R384). -/
def Chip.selectImage (c : Chip) : Chip :=
  let trial := c.nv.trialB
  let first := trial.getD c.nv.preferB
  let codes := c.slotCodes
  let code := fun (b : Bool) => if b then codes.2 else codes.1
  let failed := code first ≠ 0
  let n := { c.nv with trialB := none }
  let n := if !first || failed then { n with imageA := { n.imageA with code := codes.1 } } else n
  let n := if first || failed then { n with imageB := { n.imageB with code := codes.2 } } else n
  let c : Chip := { c with nv := n }
  if code first = 0 then
    c.setBoot fun b => { b with runningB := first, trialRunning := trial.isSome, fellBack := false, phase := .ramp }
  else if code (!first) = 0 then
    c.setBoot fun b => { b with runningB := !first, trialRunning := false, fellBack := true, phase := .ramp }
  else (c.setBoot fun b => { b with phase := .recovery }).raise .recoveryEntered 0

/-- Step 5: the tile regulators ramp; a tile whose regulator fails three times is isolated (R351, R352). -/
def Chip.rampTiles (c : Chip) (isolated : List TileNo) : Chip :=
  c.each (List.range 16) fun c t =>
    if isolated.any fun k => k.val = t then
      ((c.add .TILE_REG_FAIL_COUNT t 3).regFailed t).setBit .WAKE_STEP_FAIL 0 4 true
    else c.tileRun t

/-- Tests of a stage's class have passed on instances `i` to `i + n - 1`. -/
def Chip.passed (c : Chip) (bit : Nat) (last : Reg) (i n : Nat) : Chip :=
  if c.nv.postSelect.testBit bit then
    c.each (List.range n) fun c k => if c.rd last (i + k) = 4 then c.wr last (i + k) 0 else c
  else c

/-- A stage of POST in which nothing was found: its tests have passed (Table 15-6). Instances of the stage whose test has
already ended keep their result; the Wale delays measured have no stated value. -/
def Chip.stagePassed (c : Chip) (k : Nat) : Chip :=
  if k = 0 then
    let c := ((c.passed 0 .BIST_LAST_QC 0 136).passed 4 .BIST_LAST_HLANE 0 256).passed 5 .BIST_LAST_WL 0 6
    c.each (List.range 6) fun c w =>
      if c.rd .CAL_WALE_DELAY 0 w ≠ 0 then c
      else
        let d := c.draw
        d.2.wrRow .CAL_WALE_DELAY 0 w (d.1 % 2 ^ 64)
  else
    let c := c.passed 3 .BIST_LAST_TILE (4 * (k - 1)) 4
    let e := 128 * (k - 1)
    if c.nv.postSelect.testBit 2 then c.passed 2 .BIST_LAST_PE e 128 else c.passed 0 .BIST_LAST_PE e 128

/-- The records are loaded in stage D (R362). -/
def Chip.recordsLoad (c : Chip) : Chip := c.each (List.range 512) fun c e => c.recordLoad c.boot.inputs.calBad e

/-- A valid stored record becomes the pair engine's retained coefficients; a damaged one is ignored and reported (R76, R77). -/
def Chip.storedLoad (c : Chip) (bad : List PeNo) : Chip :=
  c.each c.nv.stored fun c x =>
    let e := x.1
    if bad.any fun k => k.val = e then c.checkStored e true
    else
      let c := c.setPe e fun s =>
        let s := { s with store := x.2.words }
        (s.putWord 4 (withBit (s.word 4) 0 true)).sealStore
      (c.setBit .PE_TRAIN_STATUS e 5 true).setBit .PE_TRAIN_STATUS e 6 true

/-- Every formed port may start negotiation: its pair engines hold valid records or are marked unusable. `START_TIME` reports the
time of the last one (R376). -/
def Chip.startTimed (c : Chip) : Chip :=
  if !c.boot.applied || c.boot.timed || !c.portsAll.all c.calReady then c
  else (c.wrDev .START_TIME ((c.boot.lockUs + c.root / 16000) / 1000)).setBoot fun b => { b with timed := true }

/-- Tile groups with a pair engine to calibrate (R365). -/
def Chip.groupsToCalibrate (c : Chip) : List Nat :=
  (List.range 4).filter fun g => (List.range 128).any fun k =>
    let e := 128 * g + k
    !(c.calOf e).valid && c.tileRuns (tileOf e) && c.rd .BIST_STATE_PE e != 2

/-- Step 7: the `ACTIVE` configuration is applied, after a revert when it is unconfirmed (R377, R394); foreground calibration of
what has no valid record is due (R365), and a lane whose unusable mark is kept is in fault (R179). The rules do not order the loading of the stored records and the configuration: the records
are loaded first, so that a `PORT_MODE` or `QUAD_FORMATION` applied with a value other than the default invalidates them as a write
does (R76, R77; DESIGN CHOICE, log entry 98). -/
def Chip.applyStart (c : Chip) : Chip :=
  let c := if c.nv.cfg.active.confirmed then c else c.revertSlots
  let c := (c.storedLoad c.boot.inputs.storedBad).setBoot fun b => { b with phase := .running, applied := true }
  let c := c.applyValues stepAll c.nv.cfg.active.values
  let c := c.each ((c.dict.filter fun e => e.1.reg = .BIST_STATE_HLANE && e.2 = 2).map fun e => e.1.inst) fun c h => c.laneEval h
  let c := c.weaveRestore c.boot.inputs.weaveBad
  let c := c.wlStartAll
  let c : Chip := { c with bist := { c.bist with fgGroups := c.groupsToCalibrate } }
  c.startTimed

/-- A POST stage ends; after the last one step 7 follows. -/
def Chip.postEnd (c : Chip) : Chip :=
  match c.bist.post with
  | none => c
  | some k =>
    let c := c.stagePassed k
    let c := if k = 0 then c.recordsLoad else c
    let r := c.postStage
    if r.1 then r.2.applyStart else r.2

/-- The stages that end within the start's own step. -/
def Chip.postStages (c : Chip) : Nat → Chip
  | 0 => c
  | n + 1 => c.postEnd.postStages n

/-- Steps 3 to 7, once the clocks run. -/
def Chip.startFirmware (c : Chip) : Chip :=
  let b := c.boot.inputs
  let c := c.setBoot fun s => { s with imageKey := c.nv.ownerKey }
  let c := (c.mapLoad b.policyBad).selectImage
  if c.boot.phase = .recovery then c
  else
    let c := (c.rampTiles b.isolated).setBoot fun s => { s with firmware := true, phase := .post }
    let c : Chip := { c with bist := { c.bist with post := some 0, postFrom := c.root, select := c.nv.postSelect } }
    c.keptReplaced.postStages b.stages.val

/-- The clocks run from the end of step 2: the root and the host PLL are locked, the time base counts from zero and the servo
starts (R202, R207, R376). -/
def Chip.clocksUp (c : Chip) : Chip :=
  let c := c.setPwr fun p => { p with state := .active, fro := true, rootOn := true, hostPll := true, waking := none, tries := 0 }
  (c.setBoot fun b => { b with phase := .ramp }).servoRestart

/-- Start-up (R376, Table 16-1), with its cause (R375). A reference or a PLL that fails three times leads to `WAKE_FAULT`
(R352). -/
def Chip.start (c : Chip) (cause : Nat) (b : BootInputs) : Chip :=
  let byReset := c.boot.byReset
  let c := (c.discard .clocks).setBoot fun s => { s with inputs := b, lockUs := b.lockUs, byReset := false }
  let c := (c.wrDev .RESET_CAUSE cause).wrDev .WAKE_STEP_FAIL b.stepFail
  let c := if byReset then c.wrDev .WAKE_CAUSE 5 else c
  let c := c.setPwr fun p => { p with fro := true }
  if b.refFails = 3 || b.pllFails = 3 then c.wakeFaulted b.lockUs else c.clocksUp.startFirmware

/-- The device is held in reset, or has no supply. -/
def Chip.inReset (c : Chip) : Bool := c.boot.phase = .inReset || c.boot.phase = .noPower

-- Watchdogs.

/-- The restart of a core counts toward a reset (Table 17-5): the core's own restart within `WDT_TIMEOUT`, or the third restart
of any core within 10 s. -/
def Chip.watchdogResets (c : Chip) (core : Nat) : Bool :=
  let l := c.pwr.restarts.filter fun x => c.root ≤ x.1 + rootUs 10000000
  l.length ≥ 2 || l.any fun x => x.2 = core && c.root ≤ x.1 + rootUs (1000 * c.rd .WDT_TIMEOUT)

/-- A training that its core no longer runs restarts at `LINK_BREAK` (R409). -/
def Chip.trainingMoves (c : Chip) (p : Nat) : Chip :=
  if (c.port p).link.training || (c.port p).link = .stdTrain then c.toBreak p false else c

/-- FW_WATCHDOG_EXPIRE (R409). -/
def Chip.watchdog (c : Chip) (core : Nat) (l : List PortNo) (b : BootInputs) : Chip :=
  if c.inReset || !c.boot.firmware then c
  else if c.watchdogResets core then c.start 3 b
  else
    let c := (c.inc .WDT_RESTART_COUNT).raise .coreRestart 0 core
    let c := c.setPwr fun p => { p with restarts := (c.root, core) :: p.restarts.filter fun x => c.root ≤ x.1 + rootUs 10000000 }
    c.each l fun c p => c.trainingMoves p

end Sys2Proof.Machine
end

