-- ==== Sys2Proof/Machine/Image.lean ====
section
/-!
DEFINITION. Firmware images, the owner key and policy, and attestation (R383, R386, R387, R390).
-/
set_option Elab.async false
namespace Sys2Proof.Machine

/-- Result code of a slot written after its last check (Table 16-5). -/
def imageUnchecked : Nat := 8

/-- A row of `IMAGE_WRITE` goes to the slot not running (R383). -/
def Chip.writeImageRow (c : Chip) (row v : Nat) : Abort × Chip :=
  if c.boot.verifying then (.busy, c)
  else (.ok, (c.setOther fun s => { s with rows := s.rows.put row v, code := imageUnchecked }).setBoot fun b =>
    { b with updating := true })

/-- A write of `IMAGE_ERASE` (R383). -/
def Chip.writeImageErase (c : Chip) (v : Nat) : Abort × Chip :=
  if v = 0 then (.ok, c)
  else if v > 1 then (.range, c)
  else (.ok, (c.setOther fun _ => {}).setBoot fun b => { b with updating := false })

/-- A write of `IMAGE_VERIFY` (R383). -/
def Chip.writeImageVerify (c : Chip) (v : Nat) : Abort × Chip :=
  if v = 0 then (.ok, c)
  else if v > 1 then (.range, c)
  else if c.boot.verifying then (.busy, c)
  else (.ok, c.setBoot fun b => { b with verifying := true })

/-- IMAGE_VERIFY_DONE: the check of the slot not running is complete (R381, R383). -/
def Chip.imageVerified (c : Chip) : Chip :=
  if !c.boot.verifying then c
  else
    let code := ({ c.nv with ownerKey := c.boot.imageKey } : Nv).verify c.otherSlot
    (c.setOther fun s => { s with code := code }).setBoot fun b => { b with verifying := false, updating := false }

/-- A write of `IMAGE_SELECT_NEXT` (R383). -/
def Chip.writeSelectNext (c : Chip) (v : Nat) : Abort × Chip :=
  if v = 0 then (.ok, c)
  else if v > 1 then (.range, c)
  else if c.otherSlot.code ≠ 0 then (.state, c)
  else (.ok, { c with nv := { c.nv with trialB := some (!c.boot.runningB) } })

/-- What a confirmed image does to the non-volatile memory (R383): it is preferred, and the counter and the revocations only
rise. -/
def Nv.confirmImage (n : Nv) (b : Bool) (s : ImageSlot) : Nv :=
  { n with preferB := b, antiRollback := max n.antiRollback s.svn, revoked := n.revoked ||| BitVec.ofNat 4 s.revoke }

/-- A write of `IMAGE_CONFIRM` (R383). -/
def Chip.writeImageConfirm (c : Chip) (v : Nat) : Abort × Chip :=
  if v = 0 then (.ok, c)
  else if v > 1 then (.range, c)
  else if !c.boot.trialRunning then (.state, c)
  else
    let c : Chip := { c with nv := c.nv.confirmImage c.boot.runningB c.runningSlot }
    (.ok, c.setBoot fun b => { b with trialRunning := false })

-- Owner key and policy.

/-- The first `n` octets staged in the rows of a table. -/
def Chip.stagedOctets (c : Chip) (r : Reg) (n : Nat) : List Octet :=
  ((List.range r.info.rows).flatMap fun k => natToOctets 1024 (c.rd r 0 k)).take n

/-- The key that must have signed an owner key request, if the request's operation is allowed now (R386). -/
def Nv.requestSigner (n : Nv) (l : List Octet) : Option (List Octet) :=
  match octNat l 0 2, n.ownerKey with
  | 1, none => some (octs l 16 1952)
  | 2, some k => some k
  | 3, some k => some k
  | _, _ => none

/-- An owner key request passes its checks (R386). -/
def Nv.requestOk (n : Nv) (l : List Octet) : Bool :=
  octNat l 4 8 = Config.deviceId.toNat && octNat l 12 4 > n.ownerSeq
    && (match n.requestSigner l with
      | some k => Config.mldsaVerify k (signedMessage "OVF-S512 owner key" (l.take 1968)) (octs l 1968 3309)
      | none => false)

/-- An accepted owner key request (R386); a removal also discards the policy. -/
def Nv.takeRequest (n : Nv) (l : List Octet) : Nv :=
  let n := { n with ownerSeq := octNat l 12 4 }
  if octNat l 0 2 = 3 then { n with ownerKey := none, policy := none }
  else { n with ownerKey := some (octs l 16 1952) }

/-- A write of `OWNER_KEY_SUBMIT` (R386). -/
def Chip.writeOwnerKey (c : Chip) (v : Nat) : Abort × Chip :=
  if v = 0 then (.ok, c)
  else if v ≠ 5277 then (.range, c)
  else
    let l := c.stagedOctets .OWNER_KEY_STAGE 5277
    if c.nv.requestOk l then (.ok, { c with nv := c.nv.takeRequest l }) else (.guarded, c)

/-- Number of a stored policy; none is below every number. -/
def Nv.policyNumber (n : Nv) : Option Nat := n.policy.map fun p => octNat p.octets 4 4

/-- A write of `OWNER_POLICY_SUBMIT` (R387). -/
def Chip.writeOwnerPolicy (c : Chip) (v : Nat) : Abort × Chip :=
  if v = 0 then (.ok, c)
  else if v ≠ 3837 then (.range, c)
  else
    let l := c.stagedOctets .OWNER_POLICY_STAGE 3837
    let newer := match c.nv.policyNumber with
      | none => true
      | some n => octNat l 4 4 > n
    match c.nv.ownerKey with
    | none => (.guarded, c)
    | some k => if newer && policyValid k l then (.ok, { c with nv := { c.nv with policy := some ⟨l⟩ } }) else (.guarded, c)

-- Attestation.

/-- A write of `ATTEST_NONCE` (R390). -/
def Chip.writeNonce (c : Chip) (v : Nat) : Abort × Chip :=
  if c.boot.attesting.isSome then (.busy, c)
  else (.ok, (c.setBit .ATTEST_STATUS 0 0 false).setBoot fun b => { b with attesting := some v })

/-- Octets 0 to 319 of the report (Table 16-9). -/
def Chip.reportBody (c : Chip) (nonce : Nat) : List Octet :=
  let flags := b2n (c.rdBool .TIME_VALID) + 2 * b2n c.boot.trialRunning + 4 * b2n c.boot.policyDefault
    + 8 * b2n c.cfg.deadline.isSome
  let zeros := fun (n : Nat) => List.replicate n (0 : Octet)
  natToOctets 2 1 ++ natToOctets 2 3629 ++ natToOctets 8 Config.deviceId.toNat ++ natToOctets 12 c.now96
    ++ natToOctets 1 flags ++ zeros 3 ++ natToOctets 32 nonce ++ shake c.runningSlot.header
    ++ natToOctets 4 c.runningSlot.svn ++ natToOctets 4 c.nv.antiRollback ++ natToOctets 1 (b2n c.boot.runningB) ++ zeros 3
    ++ shake c.mapOctets ++ natToOctets 4 c.nv.cfg.active.version ++ shake c.nv.cfg.active.image ++ zeros 4
    ++ (match c.nv.ownerKey with
      | some k => keyId k
      | none => zeros 32)
    ++ zeros 16

/-- ATTEST_REPORT_DONE: the report replaces the previous one (R390). -/
def Chip.reportDone (c : Chip) : Chip :=
  match c.boot.attesting with
  | none => c
  | some n =>
    let body := c.reportBody n
    let l := body ++ (Config.mldsaSign (signedMessage "OVF-S512 attest" body)).take 3309
    let c := c.each (List.range 4) fun c k => c.wrRow .ATTEST_REPORT 0 k (octNat l (1024 * k) 1024)
    (c.setBit .ATTEST_STATUS 0 0 true).setBoot fun b => { b with attesting := none }

end Sys2Proof.Machine
end

