-- ==== Sys2Proof/Machine/Access.lean ====
section
/-!
DEFINITION. The operations of the dictionary: READ, WRITE and DESCRIBE with the checks of R312 in their order, clearing a status
object (R313), and a snapshot (R315).
-/
set_option Elab.async false
namespace Sys2Proof.Machine

/-- A write through view 0 of any object, from the range check on (R312). -/
def Chip.writeFull (c : Chip) (path : Path) (src : Nat) (r : Reg) (i row v : Nat) : Abort × Chip :=
  match r with
  | .TA_TABLE => c.writeTa row v path src
  | .TA_CANCEL => c.writeTaCancel v
  | .IMAGE_WRITE => c.writeImageRow row v
  | .IMAGE_ERASE => c.writeImageErase v
  | .IMAGE_VERIFY => c.writeImageVerify v
  | .IMAGE_SELECT_NEXT => c.writeSelectNext v
  | .IMAGE_CONFIRM => c.writeImageConfirm v
  | .OWNER_KEY_SUBMIT => c.writeOwnerKey v
  | .OWNER_POLICY_SUBMIT => c.writeOwnerPolicy v
  | .ATTEST_NONCE => c.writeNonce v
  | .CFG_CANDIDATE => c.writeCandidate row v
  | .CFG_CAPTURE => c.writeCapture' v
  | .CFG_LOAD_FACTORY => c.writeLoadFactory v
  | .CFG_CHECK => c.writeCfgCheck v
  | .CFG_COMMIT => c.writeCommit stepAll v
  | .CFG_CONFIRM => c.writeConfirm v
  | .CFG_ROLLBACK => c.writeRollback stepAll v
  | .DEVICE_RESET => if v > 1 then (.range, c) else (.ok, c.setBoot fun b => { b with resetDue := true })
  | r => c.writeBase stepAll r i row v

/-- A write of an object that is not found by its address, once the checks up to the domain check have passed: value 0 of an SC
object does nothing (R308). -/
def Chip.writeValue (c : Chip) (path : Path) (src : Nat) (view : Nat) (r : Reg) (i row v : Nat) : Abort × Chip :=
  if r.info.acc = .sc && r != .GATE_SWAP && r != .TA_CANCEL && v = 0 then (.ok, c)
  else c.writeFull path src r i row (c.viewed view r i row v)

/-- A WRITE operation with the checks of R312 in their order. -/
def Chip.writeAddr (c : Chip) (path : Path) (src addr row : Nat) (value : List Octet) : Abort × Chip :=
  match addrTarget addr with
  | none => (.noObject, c)
  | some (view, r, i) =>
    if row ≥ max 1 r.info.rows then (.row, c)
    else if r.info.acc = .ro || r.info.acc = .const then (.readOnly, c)
    else if !c.permits path (r.info.cls.addr i) r.info.idx r.info.sub then (.guarded, c)
    else if value.length ≠ r.info.octets || (r.isStatus && view ≠ 0) then (.wrongType, c)
    else c.gated r i fun c => c.writeValue path src view r i row (octetsToNat value)

/-- The holding copy of a counter (R317): nothing where the latest snapshot could not capture it. -/
def Chip.heldCopy (c : Chip) (r : Reg) (i row : Nat) : Option Nat := c.held.getD ⟨r, i, row⟩ (some r.info.dflt)

/-- A READ operation with the checks of R312 in their order: the abort and the value. -/
def Chip.readAddr (c : Chip) (addr row : Nat) (held : Bool) : Abort × List Octet :=
  match addrTarget addr with
  | none => (.noObject, [])
  | some (view, r, i) =>
    if held && !r.counts then (.noObject, [])
    else if row ≥ max 1 r.info.rows then (.row, [])
    else if view ≠ 0 || r.info.acc = .wo then (.writeOnly, [])
    else if held then
      match c.heldCopy r i row with
      | some v => (.ok, natToOctets r.info.octets v)
      | none => (.asleep, [])
    else if c.asleep r i then (.asleep, [])
    else (.ok, c.readOctets r i row)

/-- The descriptor of an object (Table 13-7). -/
def Reg.descriptor (r : Reg) (view : Nat) : List Octet :=
  let table := r.info.rows ≠ 0
  let flags := b2n (r.info.pers = .persistent) + 2 * b2n r.hasViews + 4 * b2n r.isStatus + 8 * b2n r.counts
  natToOctets 1 (if table then 0x10 else r.info.ty.code) ++ natToOctets 1 (if table then r.info.ty.code else 0)
    ++ natToOctets 1 (if view ≠ 0 then 2 else r.info.acc.code) ++ natToOctets 1 flags ++ natToOctets 2 r.info.octets
    ++ natToOctets 3 r.info.rows ++ [0, 0, 0]

/-- A DESCRIBE operation, which passes only the first two checks (R312). -/
def describeAddr (addr row : Nat) : Abort × List Octet :=
  match addrTarget addr with
  | none => (.noObject, [])
  | some (view, r, _) => if row ≥ max 1 r.info.rows then (.row, []) else (.ok, r.descriptor view)

/-- What a READ or a DESCRIBE leaves as the access result. -/
def Chip.result (c : Chip) (x : Abort × List Octet) : Chip := { c with access := ⟨x.1, x.2⟩ }

/-- The status object that a clear names: `BUF_MISS_STATUS`, or the `EV_STATUS` of an instance (R313, R314). -/
def statusNamed (inst : Nat) (miss : Bool) : Option (Reg × Nat) :=
  if miss then (if inst = 0 then some (.BUF_MISS_STATUS, 0) else none)
  else (clsOf inst).map fun x => (x.1.evStatus, x.2)

/-- A clear of a status object, with its checks (R312, R313). -/
def Chip.statusClear (c : Chip) (inst : Nat) (miss : Bool) (v : Nat) : Abort × Chip :=
  match statusNamed inst miss with
  | none => (.noObject, c)
  | some (r, i) => c.gated r i fun c => c.clearStatus r i v

/-- `SNAPSHOT` of a class (Table 13-4). -/
def Cls.snapshotReg : Cls → Option Reg
  | .dev => some .SNAPSHOT_DEV
  | .port => some .SNAPSHOT_PORT
  | .hlane => some .SNAPSHOT_HLANE
  | .wl => some .SNAPSHOT_WL
  | .qc => some .SNAPSHOT_QC
  | .mgmt => some .SNAPSHOT_MGMT
  | .spi => some .SNAPSHOT_SPI
  | _ => none

/-- A write of a `SNAPSHOT` object, with its checks (R312, R315). -/
def Chip.snapshotWrite (c : Chip) (inst v : Nat) : Abort × Chip :=
  match clsOf inst with
  | none => (.noObject, c)
  | some (k, i) =>
    match k.snapshotReg with
    | none => (.noObject, c)
    | some r => c.gated r i fun c => c.writeSnapshot k i v

end Sys2Proof.Machine
end

