-- ==== Sys2Proof/Machine/Dap.lean ====
section
/-!
DEFINITION. The Dictionary Access Protocol (R318 to R328): messages, their operations, responses, replays, relaying over Wale,
and the SPI port.
-/
set_option Elab.async false
namespace Sys2Proof.Machine

/-- An operation of a request (Table 13-6); `head` is its first octet. -/
structure DapOp where
  head : Nat
  addr : Nat
  row : Nat
  value : List Octet
deriving DecidableEq, Repr

/-- Operation code and `HELD` (Table 13-6). -/
def DapOp.code (o : DapOp) : Nat := o.head % 16
def DapOp.held (o : DapOp) : Bool := o.head.testBit 4

/-- Operations of a message (Table 13-6); none where one extends past it. -/
def dapOps : Nat → List Octet → Option (List DapOp)
  | 0, _ => some []
  | n + 1, l =>
    let len := octNat l 10 2
    let size := 12 + 4 * cdiv len 4
    if l.length < size then none
    else match dapOps n (l.drop size) with
      | some t => some (⟨octNat l 0 1, octNat l 2 5, octNat l 7 3, octs l 12 len⟩ :: t)
      | none => none

/-- Octets of operations as they stand in a message. -/
def dapSize (l : List DapOp) : Nat := l.foldl (fun a o => a + 12 + 4 * cdiv o.value.length 4) 8

/-- A message (Tables 13-5, 13-6); `raw` leaves the padding out. -/
structure DapMsg where
  flags : Nat
  txn : Nat
  dest : Nat
  src : Nat
  ops : List DapOp
  raw : List Octet
deriving DecidableEq, Repr

/-- The message at the front of octets, with its version and type; none when it is malformed for another reason (R324). -/
def dapParse (kind : Nat) (l : List Octet) : Option DapMsg :=
  let n := octNat l 6 1
  if l.length < 8 || octNat l 0 1 ≠ kind || n = 0 || n > 32 then none
  else match dapOps n (l.drop 8) with
    | none => none
    | some ops =>
      if (ops.any fun o => o.code = 0 || o.code > 3) || dapSize ops > 2000 then none
      else some ⟨octNat l 1 1, octNat l 2 2, octNat l 4 1, octNat l 5 1, ops, l.take (dapSize ops)⟩

/-- A message's path (Tables 13-10, 16-7), and the place of its kept responses. -/
def DapVia.path : DapVia → Path
  | .host _ => .host
  | .mgmt => .mgmt
  | .line _ => .line
  | .wale _ => .wale
  | .spi => .spi

def DapVia.place : DapVia → Nat
  | .host _ => 0
  | .mgmt => 1
  | .line _ => 2
  | .wale _ => 3
  | .spi => 4

/-- Fabric address from which a message came; 0 for this device. -/
def DapVia.source : DapVia → Nat
  | .wale a => a.toNat
  | _ => 0

/-- A request as taken: its path, and what its frame says of the requester (R322). -/
structure DapReq where
  via : DapVia
  mac : Nat := 0
  tags : List Octet := []
  ether : Nat := 0
  body : List Octet
deriving DecidableEq, Repr

/-- A frame's EtherType and message, after its VLAN tags (R318). -/
def frameEther (f : List Octet) : Nat := octNat f (etherAt f) 2
def frameTags (f : List Octet) : List Octet := octs f 12 (etherAt f - 12)
def frameBody (f : List Octet) : List Octet := (f.take (f.length - 4)).drop (etherAt f + 2)

/-- The frame is a DAP frame for the device (R318). -/
def Chip.isDap (c : Chip) (f : List Octet) : Bool :=
  fcsOk f && octNat f 0 6 = dapMac && frameEther f = c.rd .DAP_ETHERTYPE && f.length ≥ etherAt f + 6

/-- The request that a frame carries. -/
def dapReqOf (via : DapVia) (f : List Octet) : DapReq := ⟨via, octNat f 6 6, frameTags f, frameEther f, frameBody f⟩

/-- A frame that carries a message (R322, R328). -/
def dapFrameOf (dest : Nat) (tags : List Octet) (ether : Nat) (msg : List Octet) : List Octet :=
  sealFrame (padFrame (natToOctets 6 dest ++ natToOctets 6 dapMac ++ tags ++ natToOctets 2 ether ++ msg))

/-- Low 30 bits of a time in units of 62.5 ps (R191). -/
def tagTime (t : Nat) : Nat := t / 2 ^ 44 % 2 ^ 30

-- Paths.

/-- The device serves the path in its present condition (R325, R326, R352, R377, Table 14-5). -/
def Chip.pathOpen (c : Chip) (via : DapVia) : Bool :=
  if c.boot.phase = .noPower || c.boot.phase = .inReset then false
  else match c.pwr.state with
    | .standby | .off => false
    | .wakeFault => via = .spi
    | .active =>
      match via with
      | .spi => true
      | .mgmt => c.pwr.rootOn
      | _ => c.boot.applied

/-- A write that takes effect after its response has been sent (R325): one that disables the path carrying it, or of
`DAP_ETHERTYPE`. -/
def Chip.lateWrite (c : Chip) (via : DapVia) (op : DapOp) : Bool :=
  match addrTarget op.addr with
  | none => false
  | some (_, r, i) =>
    r = .DAP_ETHERTYPE || (octetsToNat op.value = 0 && (match via with
      | .host _ => r = .DAP_HOST_ENABLE
      | .mgmt => r = .MGMT_ENABLE
      | .line p => r = .DAP_LINE_ENABLE && i = p.val
      | .wale a => r = .WALE_ENABLE || (r = .WL_ENABLE && c.wlRoute a.toNat = some i)
      | .spi => false))

-- A frame toward the line.

/-- A frame for a port-local queue begins to arrive (R11, R231, R257): a queue-range miss goes to the default queue, and a port
without blocks discards the frame. -/
def Chip.arrive (c : Chip) (p lq : Nat) (f : Frame) : Chip :=
  let place := fun (c : Chip) (lq fq : Nat) =>
    let f := { f with id := c.frameNo, port := p, lq := lq, fq := fq }
    ({ c with frameNo := c.frameNo + 1 } : Chip).setSch p fun s => { s with arriving := s.arriving ++ [f] }
  match c.flowQueue p lq with
  | some fq => place c lq fq
  | none =>
    let c := c.inc .TX_QUEUE_MISS p
    let d := c.rd .Q_DEFAULT p
    match c.flowQueue p d with
    | some fq => place c d fq
    | none => c

/-- A frame with nothing known of it but its octets. -/
def plainFrame (l : List Octet) (t : Nat) : Frame := { id := 0, port := 0, lq := 0, fq := 0, octets := l, arrive := t }

-- Responses.

/-- A message goes out on a path (R322, R325, R327). -/
def Chip.dapDeliver (c : Chip) (q : DapReq) (msg : List Octet) : Chip :=
  let f := dapFrameOf q.mac q.tags q.ether msg
  match q.via with
  | .host p => c.setHost p fun h =>
      { h with dapOut := h.dapOut ++ [{ octets := f, tag := 0x8 * 2 ^ 44 + tagTime c.tb * 2 ^ 14 + 3 * 2 ^ 12 }] }
  | .mgmt => { c with dap := { c.dap with mgmtOut := [f] } }
  | .line p => c.arrive p (c.rd .Q_DEFAULT p) (plainFrame f c.tb)
  | .wale a => c.wlSend { dest := a.toNat, src := 0, cls := 2, kind := 4, payload := f }
  | .spi => if c.dap.spiOut.isSome then c else { c with dap := { c.dap with spiOut := some msg } }

/-- The response leaves before a late write takes its path away: on Wale it goes out at once. -/
def Chip.dapDeliverNow (c : Chip) (q : DapReq) (msg : List Octet) : Chip :=
  match q.via with
  | .wale a =>
    match c.wlRoute a.toNat with
    | none => c.inc .WALE_NO_ROUTE
    | some w =>
      let p : WlPacket := ⟨a.toNat, c.rd .WALE_ADDRESS, 2, 4, 0, 0, dapFrameOf q.mac q.tags q.ether msg⟩
      (c.setWl w fun s => { s with sent := some p }).inc .WL_TX_PACKETS w
  | _ => c.dapDeliver q msg

/-- An operation's result in a response (R320, Table 13-6). -/
def DapOp.result (o : DapOp) (a : Abort) (v : List Octet) : List Octet :=
  natToOctets 1 (o.head % 32) ++ natToOctets 1 a.code ++ natToOctets 5 o.addr ++ natToOctets 3 o.row ++ natToOctets 2 v.length
    ++ v ++ List.replicate (4 * cdiv v.length 4 - v.length) 0

/-- Carry out one operation: its abort, the value it returns, and whether its effect waits for the response. -/
def Chip.dapOp (c : Chip) (via : DapVia) (o : DapOp) : Abort × List Octet × Bool × Chip :=
  match o.code with
  | 1 =>
    let x := c.readAddr o.addr o.row o.held
    (x.1, x.2, false, c.result x)
  | 2 =>
    let x := c.writeAddr via.path via.source o.addr o.row o.value
    if x.1 = .ok && c.lateWrite via o then (.ok, [], true, { c with access := ⟨.ok, []⟩ }) else (x.1, [], false, c.answer x)
  | _ =>
    let x := describeAddr o.addr o.row
    (x.1, x.2, false, c.result x)

/-- Operations that are not attempted (R321). -/
def dapSkipped (l : List DapOp) : List Octet := l.flatMap fun o => o.result .notAttempted []

/-- Carry out a request's operations in their order (R321): the results, the writes whose effect waits, and the device. `used`
counts the response's octets. -/
def dapRun (via : DapVia) (stop : Bool) : List DapOp → Nat → Chip → List Octet × List DapOp × Chip
  | [], _, c => ([], [], c)
  | o :: l, used, c =>
    let x := c.dapOp via o
    let res := o.result x.1 x.2.1
    if used + res.length + 12 * l.length > 2000 then (dapSkipped (o :: l), [], c)
    else
      let late := if x.2.2.1 then [o] else []
      if stop && x.1 != .ok then (res ++ dapSkipped l, late, x.2.2.2)
      else
        let t := dapRun via stop l (used + res.length) x.2.2.2
        (res ++ t.1, late ++ t.2.1, t.2.2)

/-- The response's header (R322, Table 13-5). The place of `DAP_FAB_DEST` is 0 when the request's is; what it holds otherwise is
not stated, a free value (log entry 61). -/
def Chip.dapHeader (c : Chip) (m : DapMsg) : List Octet × Chip :=
  let d := if m.dest = 0 then (0, c) else c.draw
  (natToOctets 1 0x12 ++ natToOctets 1 (m.flags % 2) ++ natToOctets 2 m.txn ++ natToOctets 1 d.1
    ++ natToOctets 1 (c.rd .WALE_ADDRESS) ++ natToOctets 1 m.ops.length ++ [0], d.2)

/-- Responses kept for a path that are still valid (R323). -/
def Chip.dapKept (c : Chip) (via : DapVia) : List DapReply :=
  (c.dap.kept.getD via.place []).filter fun k => c.root < k.at_ + rootUs 1000000

/-- Requester of a request (R323). -/
def DapReq.requester (q : DapReq) (m : DapMsg) : Nat :=
  match q.via with
  | .wale _ => m.src
  | .spi => 0
  | _ => q.mac

/-- Carry out a request, keep its response and send it (R321 to R323, R325). -/
def Chip.dapCarry (c : Chip) (q : DapReq) (m : DapMsg) : Chip :=
  let h := c.dapHeader m
  let x := dapRun q.via (m.flags.testBit 0) m.ops 8 h.2
  let msg := h.1 ++ x.1
  let c := x.2.2
  let who := q.requester m
  let kept := ((⟨who, m.txn, m.raw, msg, c.root⟩ : DapReply)
    :: (c.dapKept q.via).filter fun k => !(k.requester = who && k.txn = m.txn)).take 16
  let c : Chip := { c with dap := { c.dap with kept := c.dap.kept.set q.via.place kept [] } }
  if x.2.1.isEmpty then c.dapDeliver q msg
  else (c.dapDeliverNow q msg).each x.2.1 fun c o =>
    c.answer (c.writeAddr q.via.path q.via.source o.addr o.row o.value)

/-- A request for this device: answered from the kept responses when it repeats one octet for octet (R323), else carried out. -/
def Chip.dapLocal (c : Chip) (q : DapReq) (m : DapMsg) : Chip :=
  match (c.dapKept q.via).find? fun k => k.requester = q.requester m && k.txn = m.txn && k.request = m.raw with
  | some k => (c.inc .DAP_REPLAYS).dapDeliver q k.response
  | none => c.dapCarry q m

/-- A request for another device is relayed over Wale (R299, R328). -/
def Chip.dapRelayed (c : Chip) (q : DapReq) (m : DapMsg) : Chip :=
  let own := c.rd .WALE_ADDRESS
  let msg := (m.raw.take 1) ++ natToOctets 1 (withBit m.flags 1 true) ++ octs m.raw 2 3 ++ natToOctets 1 own ++ m.raw.drop 6
  let f := dapFrameOf 0xFFFFFFFFFFFF [] (c.rd .DAP_ETHERTYPE) msg
  let rec' : DapRelay := ⟨m.txn, m.dest, q.via, q.mac, q.tags⟩
  let old := c.dap.relays.filter fun r => !(r.txn = m.txn && r.via = q.via && r.mac = q.mac)
  let c : Chip := { c with dap := { c.dap with relays := rec' :: old } }
  (c.inc .DAP_RELAYED).wlSend { dest := m.dest, src := own, cls := 2, kind := 4, payload := f }

/-- A request is taken (R299, R321, R324, R328): malformed, for this device, for another, or for every device. -/
def Chip.dapServe (c : Chip) (q : DapReq) : Chip :=
  match dapParse 0x11 q.body with
  | none => c.inc .DAP_MALFORMED
  | some m =>
    let own := c.rd .WALE_ADDRESS
    if m.dest = 0 || (own ≠ 0 && m.dest = own) then (c.inc .DAP_REQUESTS).dapLocal q m
    else if q.via.path = .wale then (if m.dest = 0xFF then (c.inc .DAP_REQUESTS).dapLocal q m else c)
    else if own = 0 then c.inc .DAP_MALFORMED
    else
      let c := (c.inc .DAP_REQUESTS).dapRelayed q m
      if m.dest = 0xFF then c.dapLocal q m else c

/-- A response from the fabric returns on the path of the request that it answers; any other is discarded (R324, R328). -/
def Chip.dapResponse (c : Chip) (f : List Octet) : Chip :=
  match dapParse 0x12 (frameBody f) with
  | none => c.inc .DAP_MALFORMED
  | some m =>
    match c.dap.relays.find? fun r => r.txn = m.txn && (r.dest = m.src || r.dest = 0xFF) with
    | none => c
    | some r =>
      let msg := (m.raw.take 1) ++ natToOctets 1 (withBit m.flags 1 true) ++ m.raw.drop 2
      if r.via = .mgmt && !(c.pathOpen .mgmt && c.rdBool .MGMT_ENABLE) then c
      else c.dapDeliver ⟨r.via, r.mac, r.tags, c.rd .DAP_ETHERTYPE, []⟩ msg

-- The SPI port.

/-- A request on SPI is carried out, or waits for the wake that it starts (R327, R347, Table 14-9). -/
def Chip.spiTake (c : Chip) (l : List Octet) : Chip :=
  match c.pwr.state with
  | .standby | .off =>
    let c : Chip := { c with dap := { c.dap with spiBusy := true, spiHeld := some l } }
    c.wakeSource .spi
  | _ => if l.length > 2000 then c.inc .DAP_MALFORMED else c.dapServe { via := .spi, body := l }

/-- The SPI port runs (R327). -/
def Chip.spiRuns (c : Chip) : Bool := c.boot.phase != .noPower && c.boot.phase != .inReset

/-- SPI_WRITE_REQ (R327). -/
def Chip.spiWrite (c : Chip) (length : Nat) (l : List Octet) (crc : Nat) : Chip :=
  if !c.spiRuns then c
  else
    let c : Chip := { c with dap := { c.dap with spiCrcErr := false, spiOverrun := false } }
    if c.dap.spiBusy || c.dap.spiOut.isSome then { c with dap := { c.dap with spiOverrun := true } }
    else if length ≠ l.length || crc32 (natToOctets 2 length ++ l) ≠ crc then
      ({ c with dap := { c.dap with spiCrcErr := true } } : Chip).inc .SPI_CRC_ERR
    else c.spiTake l

/-- A request held through a wake is carried out from `ACTIVE`, or in `WAKE_FAULT`, where SPI is served (Table 14-9, R352). -/
def Chip.spiCarry (c : Chip) : Chip :=
  match c.dap.spiHeld with
  | none => c
  | some l =>
    if !c.pathOpen .spi then c
    else ({ c with dap := { c.dap with spiBusy := false, spiHeld := none } } : Chip).spiTake l

/-- SPI_READ_RESP (R327): the message sent, with its length and its CRC-32; a complete read clears `READY`. -/
def Chip.spiRead (c : Chip) (complete : Bool) : Chip :=
  if !c.spiRuns then c
  else
    let l := c.dap.spiOut.getD []
    let body := natToOctets 2 l.length ++ l
    let c := c.result (.ok, body ++ natToOctets 4 (crc32 body))
    if complete then { c with dap := { c.dap with spiOut := none } } else c

-- The frames of the Ethernet paths.

/-- A request by its path (R318, R324 to R327). On Wale a packet's frame is taken whatever its destination. -/
def Chip.dapTake (c : Chip) (via : DapVia) (f : List Octet) : Chip :=
  match via with
  | .spi => if c.dap.spiBusy || c.dap.spiOut.isSome || !c.spiRuns then c else c.spiTake f
  | .mgmt =>
    if !c.pathOpen .mgmt || !c.rdBool .MGMT_ENABLE then c
    else if !c.isDap f then c.inc .MGMT_RX_DISCARD
    else c.dapServe (dapReqOf .mgmt f)
  | .host p =>
    if !c.pathOpen via || !c.hostUp p || !c.isDap f then c
    else if !c.rdBool .DAP_HOST_ENABLE then c.inc .DAP_MALFORMED
    else c.dapServe (dapReqOf via f)
  | .line p =>
    if !c.pathOpen via || !c.up p || !c.rdBool .DAP_LINE_ENABLE p || !c.isDap f then c else c.dapServe (dapReqOf via f)
  | .wale _ => if !c.pathOpen via || !c.rdBool .WALE_ENABLE then c else c.dapServe (dapReqOf via f)

/-- The management port's status follows its PCS and its negotiation (R326). -/
def Chip.mgmtUp (c : Chip) (negotiated : Bool) : Chip :=
  if !c.pathOpen .mgmt || !c.rdBool .MGMT_ENABLE then c
  else
    let an := c.rdBool .MGMT_AN_ENABLE
    c.wr .MGMT_STATUS 0 (3 + 4 * b2n (an && negotiated) + 8 * b2n (!an || negotiated))

/-- The management port's receiver loses synchronisation (R326). -/
def Chip.mgmtLost (c : Chip) (signal : Bool) : Chip :=
  if !c.pathOpen .mgmt || !c.rdBool .MGMT_ENABLE then c else c.wr .MGMT_STATUS 0 (b2n signal)

end Sys2Proof.Machine
end

