-- ==== Sys2Proof/Machine/BootEvents.lean ====
section
/-!
DEFINITION. The meanings of supply, reset and watchdog rows (R352, R375, R376, R409, R427).
-/
set_option Elab.async false
namespace Sys2Proof.Machine

/-- VIN rises into its operating range: the start follows when RESET_N is released too (R375, R376). -/
def Chip.vinRise (c : Chip) (b : BootInputs) : Chip :=
  if c.boot.vinGood then c
  else
    let c := c.setBoot fun x => { x with vinGood := true }
    if c.boot.resetHigh then c.start 0 b else c.setBoot fun x => { x with phase := .inReset }

/-- VIN leaves its operating range: only the non-volatile memory stays (Table 14-8). -/
def Chip.vinFall (c : Chip) : Chip :=
  if !c.boot.vinGood then c else (c.discard .noPower).setBoot fun x => { x with vinGood := false, byReset := false }

/-- RESET_N is asserted: everything that a reset discards is discarded (R375, R427). -/
def Chip.resetAssert (c : Chip) : Chip :=
  if !c.boot.resetHigh then c
  else
    let slept := c.pwr.state = .standby || c.pwr.state = .off
    let c := if c.boot.vinGood then c.discard .inReset else c
    c.setBoot fun x => { x with resetHigh := false, byReset := slept }

/-- RESET_N is released (R375, R376). -/
def Chip.resetRelease (c : Chip) (b : BootInputs) : Chip :=
  if c.boot.resetHigh then c
  else
    let c := c.setBoot fun x => { x with resetHigh := true }
    if c.boot.vinGood then c.start 1 b else c

/-- VIN_GOOD_RISE (R375). -/
def execVinGoodRise (boot : BootInputs) (s : State) : Out := s.run fun c => c.vinRise boot

/-- VIN_GOOD_FALL (R375). -/
def execVinGoodFall (s : State) : Out := s.run fun c => c.vinFall

/-- RESET_N_ASSERT (R427). -/
def execResetNAssert (s : State) : Out := s.run fun c => c.resetAssert

/-- RESET_N_RELEASE (R375). -/
def execResetNRelease (boot : BootInputs) (s : State) : Out := s.run fun c => c.resetRelease boot

/-- A write of `DEVICE_RESET`: 1 resets the device, and so does one that a path has written before and whose response has gone
out (R375, Table 16-12). -/
def Chip.deviceReset (c : Chip) (v : Nat) (b : BootInputs) : Abort × Chip :=
  if c.boot.resetDue then (.ok, c.start 4 b)
  else if c.asleep .DEVICE_RESET 0 then (.asleep, c)
  else if v = 0 then (.ok, c)
  else if v > 1 then (.range, c)
  else (.ok, c.start 4 b)

/-- DEVICE_RESET (R375). -/
def execDeviceReset (v : BitVec 8) (boot : BootInputs) (s : State) : Out := s.runWr fun c => c.deviceReset v.toNat boot

/-- HW_WATCHDOG_RESET (R352, R375): a device held in reset has no watchdog to expire. -/
def execHwWatchdogReset (boot : BootInputs) (s : State) : Out :=
  s.run fun c => if c.inReset then c else c.start 2 boot

/-- FW_WATCHDOG_EXPIRE (R409). -/
def execFwWatchdogExpire (core : Fin 4) (trainings : List PortNo) (boot : BootInputs) (s : State) : Out :=
  s.run fun c => c.watchdog core trainings boot

end Sys2Proof.Machine
end

