-- ==== Sys2Proof/Machine/CalEvents.lean ====
section
/-!
DEFINITION. The meanings of the calibration and self-test rows (chapter 15).
-/
set_option Elab.async false
namespace Sys2Proof.Machine

/-- POST_STAGE_END (R368, R376): a stage of POST ends; after the last one the configuration is applied. -/
def execPostStageEnd (s : State) : Out := s.run fun c => c.postEnd.startTimed

/-- BIST_TEST_DONE (R367 to R373). A pair engine marked unusable no longer delays the start (R376). -/
def execBistTestDone (t : TestOn) (e : TestEnd) (found : List Finding) (s : State) : Out :=
  s.run fun c => (c.testDone t e found).startTimed

/-- BIST_SLICE_START (R370). -/
def execBistSliceStart (t : SliceOn) (s : State) : Out := s.run fun c => c.sliceStart t

/-- BIST_SLICE_END (R370, R371). -/
def execBistSliceEnd (t : SliceOn) (e : TestEnd) (found : List Finding) (s : State) : Out :=
  s.run fun c => c.sliceEnd t e found

/-- A write of `BIST_REQUEST` (R372). -/
def execBistRequest (v : BitVec 32) (s : State) : Out :=
  s.runWr fun c => c.gated .BIST_REQUEST 0 fun c => c.writeBistRequest v.toNat

/-- FOREGROUND_GROUP_START (R365). -/
def execForegroundGroupStart (s : State) : Out := s.run fun c => c.fgGroupStart

/-- FOREGROUND_CAL_DONE (R365, R366). -/
def execForegroundCalDone (e : PeNo) (m : FgMeas) (s : State) : Out := s.run fun c => (c.fgDone e m).startTimed

/-- A write of `CAL_START` (R366). -/
def execCalStart (e : PeNo) (v : BitVec 8) (s : State) : Out :=
  s.runWr fun c => c.gated .CAL_START e fun c => c.writeCalStart e v.toNat

/-- CAL_ROUND_START (R356). -/
def execCalRoundStart (e : PeNo) (dac : Bool) (s : State) : Out := s.run fun c => c.roundStart e dac

/-- CAL_VISIT_PHASE_END (R357, R359, Table 15-1). -/
def execCalVisitPhaseEnd (e : PeNo) (dac : Bool) (results matched : List (Quantity × Int)) (s : State) : Out :=
  s.run fun c => c.visitPhase e dac results matched

/-- CAL_CORRECTION_UPDATE (R356, R358): `CAL_ENABLE` false holds every correction. -/
def execCalCorrectionUpdate (e : PeNo) (s : State) : Out :=
  s.run fun c => if c.rdBool .CAL_ENABLE then c.setCal e CalSt.update else c

/-- CAL_RECORD_STORE (R361). -/
def execCalRecordStore (e : PeNo) (s : State) : Out := s.run fun c => c.recordStore e

end Sys2Proof.Machine
end

