-- ==== Sys2Proof/Machine/CfgEvents.lean ====
section
/-!
DEFINITION. The meanings of the rows of images, ownership, attestation and configuration (chapter 16).
-/
set_option Elab.async false
namespace Sys2Proof.Machine

/-- The row, the length and the domain of a written row of 1,024 octets, in the order of R312, then the rest. -/
def Chip.gatedOctets (c : Chip) (r : Reg) (row : Nat) (l : List Octet) (f : Chip → Nat → Abort × Chip) : Abort × Chip :=
  if row ≥ r.info.rows then (.row, c)
  else if l.length ≠ r.info.octets then (.wrongType, c)
  else c.gated r 0 fun c => f c (octetsToNat l)

/-- A write of a row of `IMAGE_WRITE` (R383). -/
def execImageWrite (row : Nat) (v : List Octet) (s : State) : Out :=
  s.runWr fun c => c.gatedOctets .IMAGE_WRITE row v fun c v => c.writeImageRow row v

/-- A write of `IMAGE_ERASE` (R383). -/
def execImageErase (v : BitVec 8) (s : State) : Out :=
  s.runWr fun c => c.gated .IMAGE_ERASE 0 fun c => c.writeImageErase v.toNat

/-- A write of `IMAGE_VERIFY` (R383). -/
def execImageVerify (v : BitVec 8) (s : State) : Out :=
  s.runWr fun c => c.gated .IMAGE_VERIFY 0 fun c => c.writeImageVerify v.toNat

/-- IMAGE_VERIFY_DONE (R381, R383). -/
def execImageVerifyDone (s : State) : Out := s.run fun c => c.imageVerified

/-- A write of `IMAGE_SELECT_NEXT` (R383). -/
def execImageSelectNext (v : BitVec 8) (s : State) : Out :=
  s.runWr fun c => c.gated .IMAGE_SELECT_NEXT 0 fun c => c.writeSelectNext v.toNat

/-- A write of `IMAGE_CONFIRM` (R383). -/
def execImageConfirm (v : BitVec 8) (s : State) : Out :=
  s.runWr fun c => c.gated .IMAGE_CONFIRM 0 fun c => c.writeImageConfirm v.toNat

/-- A write of `OWNER_KEY_SUBMIT` (R386). -/
def execOwnerKeySubmit (v : BitVec 16) (s : State) : Out :=
  s.runWr fun c => c.gated .OWNER_KEY_SUBMIT 0 fun c => c.writeOwnerKey v.toNat

/-- A write of `OWNER_POLICY_SUBMIT` (R387). -/
def execOwnerPolicySubmit (v : BitVec 16) (s : State) : Out :=
  s.runWr fun c => c.gated .OWNER_POLICY_SUBMIT 0 fun c => c.writeOwnerPolicy v.toNat

/-- A write of `ATTEST_NONCE` (R390). -/
def execAttestNonce (v : BitVec 256) (s : State) : Out :=
  s.runWr fun c => c.gated .ATTEST_NONCE 0 fun c => c.writeNonce v.toNat

/-- ATTEST_REPORT_DONE (R390). -/
def execAttestReportDone (s : State) : Out := s.run fun c => c.reportDone

/-- A write of a row of `CFG_CANDIDATE` (R391, R392). -/
def execCfgCandidateWrite (row : Nat) (v : List Octet) (s : State) : Out :=
  s.runWr fun c => c.gatedOctets .CFG_CANDIDATE row v fun c v => c.writeCandidate row v

/-- A write of `CFG_CAPTURE` (R391). -/
def execCfgCapture (v : BitVec 8) (s : State) : Out :=
  s.runWr fun c => c.gated .CFG_CAPTURE 0 fun c => c.writeCapture' v.toNat

/-- A write of `CFG_LOAD_FACTORY` (R391). -/
def execCfgLoadFactory (v : BitVec 8) (s : State) : Out :=
  s.runWr fun c => c.gated .CFG_LOAD_FACTORY 0 fun c => c.writeLoadFactory v.toNat

/-- A write of `CFG_CHECK` (R392). -/
def execCfgCheck (v : BitVec 8) (s : State) : Out :=
  s.runWr fun c => c.gated .CFG_CHECK 0 fun c => c.writeCfgCheck v.toNat

/-- CFG_CHECK_DONE (R392). -/
def execCfgCheckDone (s : State) : Out := s.run fun c => c.cfgCheckDone

/-- A write of `CFG_COMMIT` (R393). -/
def execCfgCommit (v : BitVec 8) (s : State) : Out :=
  s.runWr fun c => c.gated .CFG_COMMIT 0 fun c => c.writeCommit stepAll v.toNat

/-- A write of `CFG_CONFIRM` (R394). -/
def execCfgConfirm (v : BitVec 32) (s : State) : Out :=
  s.runWr fun c => c.gated .CFG_CONFIRM 0 fun c => c.writeConfirm v.toNat

/-- CFG_CONFIRM_DEADLINE (R394). -/
def execCfgConfirmDeadline (s : State) : Out := s.run fun c => c.deadlineRevert stepAll

/-- A write of `CFG_ROLLBACK` (R395). -/
def execCfgRollback (v : BitVec 8) (s : State) : Out :=
  s.runWr fun c => c.gated .CFG_ROLLBACK 0 fun c => c.writeRollback stepAll v.toNat

end Sys2Proof.Machine
end

