-- ==== Sys2Proof/Machine/DapEvents.lean ====
section
/-!
DEFINITION. The meanings of the rows of the dictionary, its protocol and its ports (chapter 13), and of the event ring's
(chapter 17).
-/
set_option Elab.async false
namespace Sys2Proof.Machine

/-- STATUS_CLEAR (R313). -/
def execStatusClear (inst : BitVec 12) (miss : Bool) (v : BitVec 64) (s : State) : Out :=
  s.runWr fun c => c.statusClear inst.toNat miss v.toNat

/-- DAP_REQUEST (R318 to R328). -/
def execDapRequest (via : DapVia) (octets : List Octet) (s : State) : Out := s.run fun c => c.dapTake via octets

/-- READ (R312, R320): the value stands in the access result. -/
def execRead (addr : BitVec 40) (row : BitVec 24) (held : Bool) (s : State) : Out :=
  s.run fun c => c.result (c.readAddr addr.toNat row.toNat held)

/-- WRITE (R312, R320). -/
def execWrite (addr : BitVec 40) (row : BitVec 24) (value : List Octet) (path : Path) (src : BitVec 8) (s : State) : Out :=
  s.runWr fun c => c.writeAddr path src.toNat addr.toNat row.toNat value

/-- DESCRIBE (R312, R320). -/
def execDescribe (addr : BitVec 40) (row : BitVec 24) (s : State) : Out :=
  s.run fun c => c.result (describeAddr addr.toNat row.toNat)

/-- DAP_RESPONSE_RECEIVED (R324, R328). -/
def execDapResponseReceived (octets : List Octet) (s : State) : Out :=
  s.run fun c => if c.pathOpen (.wale 0) then c.dapResponse octets else c

/-- REGISTER_WRITE (R308, R312): a write of this device's own software. -/
def execRegisterWrite (addr : BitVec 40) (row : BitVec 24) (value : List Octet) (path : Path) (s : State) : Out :=
  s.runWr fun c => c.writeAddr path 0 addr.toNat row.toNat value

/-- SNAPSHOT (R315, R316). -/
def execSnapshot (inst : BitVec 12) (v : BitVec 8) (s : State) : Out := s.runWr fun c => c.snapshotWrite inst.toNat v.toNat

/-- SPI_READ_STATUS (R327): the status octet stands in the access result. -/
def execSpiReadStatus (s : State) : Out :=
  s.run fun c => if c.spiRuns then c.result (.ok, natToOctets 1 c.spiStatus) else c

/-- SPI_WRITE_REQ (R327). -/
def execSpiWriteReq (length : BitVec 16) (octets : List Octet) (crc : BitVec 32) (s : State) : Out :=
  s.run fun c => c.spiWrite length.toNat octets crc.toNat

/-- SPI_READ_RESP (R327). -/
def execSpiReadResp (complete : Bool) (s : State) : Out := s.run fun c => c.spiRead complete

/-- MGMT_AN_COMPLETE (R326). -/
def execMgmtAnComplete (negotiated : Bool) (s : State) : Out := s.run fun c => c.mgmtUp negotiated

/-- MGMT_SYNC_LOSS (R326). -/
def execMgmtSyncLoss (signal : Bool) (s : State) : Out := s.run fun c => c.mgmtLost signal

/-- COALESCE_WINDOW_CLOSE (R401). -/
def execCoalesceWindowClose (inst : Nat) (ev : EvName) (s : State) : Out := s.run fun c => c.closeWindow inst ev

/-- A write of `EV_READ_COUNT` (R404). -/
def execEvReadCountWrite (v : BitVec 64) (s : State) : Out :=
  s.runWr fun c => c.gated .EV_READ_COUNT 0 fun c => c.writeBase stepAll .EV_READ_COUNT 0 0 v.toNat

end Sys2Proof.Machine
end

