-- ==== Sys2Proof/Machine/DiagEvents.lean ====
section
/-!
DEFINITION. The meanings of the events and writes of diagnostics, link quality, the plant map and the LEDs (chapter 7).
-/
set_option Elab.async false
namespace Sys2Proof.Machine

/-- TDR_START (R162). -/
def execTdrStart (p : PortNo) (v : BitVec 8) (s : State) : Out :=
  s.runWr fun c => c.gated .TDR_START p fun c => c.writeTdrStart p v.toNat

/-- TDR_DONE (R159 to R162). -/
def execTdrDone (p : PortNo) (r : T0Probe) (s : State) : Out := s.run fun c => c.tdrFinish p r

/-- REFLECT_COMPUTE: a write of 1 to `REFLECT_TRIGGER` (R167). -/
def execReflectCompute (e : PeNo) (s : State) : Out :=
  s.runWr fun c => c.gated .REFLECT_TRIGGER e fun c => c.writeReflect e 1

/-- REFLECT_BASELINE_SET: a write of 2 to `REFLECT_TRIGGER` (R167). -/
def execReflectBaselineSet (e : PeNo) (s : State) : Out :=
  s.runWr fun c => c.gated .REFLECT_TRIGGER e fun c => c.writeReflect e 2

/-- REFLECT_DONE (R167, R168): the coefficients computed from the taps that the trigger copied. -/
def execReflectDone (e : PeNo) (rows : List (BitVec 16)) (origin : Nat) (s : State) : Out := s.run fun c =>
  match c.diag.refl.get? e with
  | none => c
  | some run =>
    let ended := c.setDiag fun d => { d with refl := d.refl.del e }
    match (c.port (c.portOf e)).mode with
    | none => ended
    | some m =>
      if !reflAgrees rows origin run.taps m e then c
      else
        let l := reflRows run.taps m e
        let c := ended.reflWrite e m l
        if run.base && c.up (c.portOf e) then c.setDiag fun d => { d with base := d.base.put e l } else c

/-- The port has been in `LINK_UP` for 10 s (R169). -/
def Chip.upTenSeconds (c : Chip) (p : Nat) : Bool := (c.port p).lpi.upFrom + rootUs 10000000 ≤ c.root

/-- REFLECT_WATCH_TICK (R169): the baseline, 10 s after the entry to `LINK_UP` whatever baseline a trigger has made before, or a
comparison with it. -/
def execReflectWatchTick (e : PeNo) (rows : List (BitVec 16)) (origin : Nat) (s : State) : Out := s.run fun c =>
  let p := c.portOf e
  match c.reflMode e with
  | none => c
  | some m =>
    if c.rd .REFLECT_WATCH_PERIOD p = 0 || c.rdBool .PE_COEF_FREEZE e || (c.port p).lpi.state ≠ .awake || c.rxQuiet p
      || !c.upTenSeconds p || !reflAgrees rows origin (c.reflTaps e m) m e then c
    else
      let l := reflRows (c.reflTaps e m) m e
      let c := c.reflWrite e m l
      if !c.diag.watched.contains e.val then
        c.setDiag fun d => { d with base := d.base.put e l, watched := d.watched ++ [e.val] }
      else match c.diag.base.get? e with
        | none => c
        | some b => c.reflWatch e m b l

/-- LQ_SECOND_END (R173). -/
def execLqSecondEnd (p : PortNo) (std : List StdCounts) (s : State) : Out := s.run fun c => (c.stdCounts p std).lqSecond p

/-- LQ_RESET (R172). -/
def execLqReset (p : PortNo) (v : BitVec 8) (s : State) : Out :=
  s.runWr fun c => c.gated .LQ_RESET p fun c => c.writeLqReset p v.toNat

/-- PLANT_MAP_BUILD (R174). -/
def execPlantMapBuild (v : BitVec 8) (s : State) : Out :=
  s.runWr fun c => c.gated .PLANT_MAP_BUILD 0 fun c => c.writePlantBuild v.toNat

/-- PLANT_MAP_DONE (R174). -/
def execPlantMapDone (s : State) : Out := s.run Chip.plantDone

/-- LED_LOCATE_TICK (R176): once per second the locate count falls toward zero. -/
def execLedLocateTick (q : QuadNo) (s : State) : Out := s.run fun c => c.wr .LED_LOCATE q (c.rd .LED_LOCATE q - 1)

/-- LED_BLINK_END (R175): after 40 ms the activity blink ends. -/
def execLedBlinkEnd (p : PortNo) (s : State) : Out := s.run fun c =>
  c.setDiag fun d => { d with blinkOn := d.blinkOn.filter fun x => x != p.val }

end Sys2Proof.Machine
end

