-- ==== Sys2Proof/Machine/HostEvents.lean ====
section
/-!
DEFINITION. The meanings of the host side's rows (chapter 8), and of received frames (R17, R195, R196, R252 to R254).
-/
set_option Elab.async false
namespace Sys2Proof.Machine

-- From the host.

/-- Transmit tag of a frame from its preamble (Table 8-5). -/
def HostFrame.tag (f : HostFrame) : Nat := octNat f.pre 0 6

/-- The frame is untagged: all six preamble octets are 0x55 (R190). -/
def HostFrame.untagged (f : HostFrame) : Bool := f.tag = 0x555555555555

/-- Launch time of a `TX_TIMED` frame (R191): the instant of the grace's window that carries the tag's value. `a` is the arrival
and `grace` in units of the time base. -/
def launchOf (a grace field : Nat) : Nat :=
  let lo := (a : Int) - grace
  let first := idiv (lo + (2 ^ 44 - 1)) (2 ^ 44)
  let t := first + ((field : Int) - first) % (2 ^ 30 : Int)
  ((t * 2 ^ 44) % (tbCycle : Int)).toNat

/-- A frame with its tag read (R190, R191), and the queue that it names. -/
def Chip.taggedFrame (c : Chip) (p : Nat) (f : HostFrame) : Chip × Nat × Frame :=
  let base := { plainFrame f.octets c.tb with sfd := f.sfd }
  let d := c.rd .Q_DEFAULT p
  let v := f.tag
  let type := bits v 47 44
  if !c.rdBool .TX_TAG_ENABLE p || f.untagged then (c, d, base)
  else if type ≠ 1 && type ≠ 2 then (c.inc .TX_TAG_MALFORMED p, d, { base with tagged := true, ptpSkip := true })
  else
    let launch := if type = 2 then some (launchOf c.tb (tbUs (c.rd .TAG_GRACE)) (bits v 31 2)) else none
    (c, bits v 43 32, { base with launch := launch, tsReq := v.testBit 1, tagged := true, ptpSkip := v.testBit 0 })

/-- What a MAC control frame asks for (R194): quanta of a PAUSE frame, the longest enabled of a PFC frame; `some none` for a PFC frame that
enables no class, and none for another opcode. -/
def pauseQuanta (f : List Octet) : Option (Option Nat) :=
  match octNat f 14 2 with
  | 0x0001 => some (some (octNat f 16 2))
  | 0x0101 =>
    let l := (List.range 8).filter fun k => (octNat f 16 2).testBit k
    some (if l.isEmpty then none else some (l.foldl (fun a k => max a (octNat f (18 + 2 * k) 2)) 0))
  | _ => none

/-- Quanta in root edges at the carriage capacity (R194): a quantum is 512 bit times of 802.3. -/
def Chip.quantaRoot (c : Chip) (p q : Nat) : Nat := cdiv (q * 512 * 1024 * 16000) (c.capacity1024 p)

/-- A MAC control frame from the host (R194). A PFC frame that enables no class neither stops the port nor is discarded as another opcode
(DEDUCED, log entry 103). -/
def Chip.macControl (c : Chip) (p : Nat) (f : List Octet) : Chip :=
  match (if c.rdBool .HOST_PAUSE_HONOUR then pauseQuanta f else none) with
  | some (some q) => (c.setBit .HL_PORT_STATUS p 4 (q != 0)).setHost p fun h => { h with pauseUntil := c.root + c.quantaRoot p q }
  | some none => c
  | none => c.inc .MAC_CTRL_DISCARD p

/-- A frame from the host, in the order of Table 8-6. -/
def Chip.hostFrame (c : Chip) (p : Nat) (f : HostFrame) : Chip :=
  if !c.hostUp p then c
  else if f.error then c.inc .HOST_RX_ERROR p
  else if octNat f.octets 12 2 = 0x8808 then c.macControl p f.octets
  else if c.isDap f.octets then
    if !c.rdBool .DAP_HOST_ENABLE then c.inc .DAP_MALFORMED
    else if h : p < 512 then c.dapTake (.host ⟨p, h⟩) f.octets
    else c
  else
    let x := c.taggedFrame p f
    x.1.arrive p x.2.1 x.2.2

/-- FRAME_FROM_HOST (R189 to R192, R194, R231). -/
def execFrameFromHost (p : PortNo) (f : HostFrame) (s : State) : Out := s.run fun c => c.hostFrame p f

/-- HOST_PAUSE_END (R194): once the quanta time has run out. -/
def execHostPauseEnd (p : PortNo) (s : State) : Out := s.run fun c =>
  if c.root < (c.hostOf p).pauseUntil then c else c.setBit .HL_PORT_STATUS p 4 false

/-- HOST_LOCAL_FAULT_RX (R194): the host sends Local Fault, or stops sending it. -/
def execHostLocalFaultRx (p : PortNo) (asserted : Bool) (s : State) : Out :=
  s.run fun c => if c.hostUp p then c.setBit .HL_PORT_STATUS p 5 asserted else c

/-- PFC_FRAME_SEND (R197, R198): only while the port's stream reaches the host. R198 makes no exception for a host pause, and PFC frames
go through it (DESIGN CHOICE, log entry 104). -/
def execPfcFrameSend (p : PortNo) (s : State) : Out := s.run fun c => if c.hostOut p then c.pfcSend p else c

/-- PFC_REFRESH (R197): half of the quanta time has passed while XOFF stands for a priority. -/
def execPfcRefresh (p : PortNo) (prio : Fin 8) (s : State) : Out := s.run fun c =>
  if (List.range 8).any fun k => c.rdBit .PFC_STATUS k p && c.pfcPrio p k = prio then c.pfcQueue p prio else c

-- From the line.

/-- Receive timestamp of a frame (R214): in W modes less the reference lane's receive delay. -/
def Chip.rxTime (c : Chip) (p stamp : Nat) : Nat :=
  match (c.port p).mode with
  | some m =>
    if m.isW then ((stamp + tbCycle - c.rxPipe (c.refPe p) * 2 ^ 48 / 1000) % tbCycle) else stamp
  | none => stamp

/-- A frame is metered when its index lies in the port's range (R253, R254): its colour code and the device. -/
def Chip.meterFrame (c : Chip) (p index b t : Nat) : Nat × Chip :=
  if index ≥ c.rd .RX_METER_COUNT p then (3, c)
  else
    let j := c.rd .RX_METER_BASE p + index
    let r := meterJudge (c.rd .MTR_CONFIG 0 j) (c.meters.get? j) b t
    let c : Chip := { c with meters := c.meters.put j r.2 }
    (r.1.code, c.addField .MTR_COUNTS 0 j (8 * r.1.code) 8 1)

/-- A whole frame enters the receive FIFO with its tag (R193, R217, R219); one with an FCS error is counted (R17). -/
def Chip.rxStore (c : Chip) (p : Nat) (f : List Octet) (t : Nat) : Chip :=
  let good := fcsOk f
  let c := if good then c else c.setHost p fun h => { h with fcsBad := h.fcsBad + 1 }
  let index := flowIndex (c.rd .RX_FLOW_SELECT p) f
  let m := if good then c.meterFrame p index f.length t else (3, c)
  let c := m.2
  if m.1 = 2 && c.rdBool .RX_RED_DISCARD p then c
  else
    let ptp := if good && c.rdBool .PTP_ENABLE p then ptpFind f else none
    let c := if ptp.isSome then c.inc .PTP_RX_COUNT p else c
    let event := match ptp with
      | some x => x.event
      | none => false
    let correct := match ptp with
      | some x => x.event && !x.twoStep f && c.rdBit .PTP_CORRECT_MASK (x.type f) p && c.rdBool .PTP_RX_CORRECT p
      | none => false
    let type := if !good then 0xA else if event then 0x9 else 0x8
    let tag := type * 2 ^ 44 + tagTime t * 2 ^ 14 + m.1 * 2 ^ 12 + index % 4096
    c.setHost p fun h => { h with fifo := h.fifo ++ [⟨f, tag, correct, c.msgInstant p t⟩] }

/-- Fragments, reassemblies and SMD faults are counted (Table 10-8); whether a frame came of it. -/
def Chip.rxKind (c : Chip) (p : Nat) (k : LineKind) : Bool × Chip :=
  match k with
  | .express => (true, c)
  | .preemptable n => (true, (c.add .MM_FRAG_RX p n).inc .MM_ASSEMBLY_OK p)
  | .assemblyError => (false, c.inc .MM_ASSEMBLY_ERR p)
  | .smdError => (false, c.inc .MM_SMD_ERR p)
  | .cut => (false, c)

/-- A frame with an error block reaches the host with a bad FCS (R44): one whose octets happen to pass differs from them in a free, non-zero
way in its FCS (the content is not stated: DESIGN CHOICE, log entry 105). -/
def Chip.errorFcs (c : Chip) (f : List Octet) : List Octet × Chip :=
  if !fcsOk f then (f, c)
  else
    let d := c.draw
    let n := f.length - 4
    (f.take n ++ natToOctets 4 (octNat f n 4 ^^^ (1 + d.1 % (2 ^ 32 - 1))), d.2)

/-- A frame that was arriving when the port left `LINK_UP` is discarded and counted once (R194). -/
def Chip.lineCut (c : Chip) (p : Nat) : Chip :=
  if (c.hostOf p).cut then (c.inc .RX_FIFO_DROP p).setHost p fun h => { h with cut := false } else c

/-- A frame from the line (R17, R44, R194 to R196, R252 to R254, R325): its length is judged before it is taken as a DAP frame. -/
def Chip.lineFrame (c : Chip) (p : Nat) (f : LineFrame) : Chip :=
  if !c.up p then (if f.kind = .cut then c.lineCut p else c)
  else
    let k := (c.blink p).rxKind p f.kind
    let x := if f.error then k.2.errorFcs f.octets else (f.octets, k.2)
    let l := x.1
    let c := x.2
    let n := l.length
    let room := 32768 - c.fifoOctets p
    let max := c.rd .RX_MAX_FRAME p
    let dap := c.rdBool .DAP_LINE_ENABLE p && c.isDap l
    if !k.1 then c
    else if dap && n ≤ max then
      if h : p < 512 then c.dapTake (.line ⟨p, h⟩) l else c
    else if !dap && (f.full || (n > room && room ≤ max)) then c.inc .RX_FIFO_DROP p
    else if n > max then c.inc .RX_OVERSIZE p
    else c.rxStore p l (c.rxTime p f.stamp)

/-- RECEIVE_FRAME (R17, R195). -/
def execReceiveFrame (p : PortNo) (f : LineFrame) (s : State) : Out := s.run fun c => c.lineFrame p f

/-- Tag that a frame carries toward the host (R193). -/
def Chip.rxTag (c : Chip) (p tag : Nat) : Nat := if c.rdBool .RX_TAG_ENABLE p then tag else 0x555555555555

/-- A received frame leaves for the host, corrected by its time in the device (R219, R220). -/
def Chip.rxLeave (c : Chip) (p : Nat) (f : RxFrame) : Chip :=
  match (if f.correct then ptpFind f.octets else none) with
  | some m => (c.sendToHost p (c.rxTag p f.tag) (ptpCorrect m f.octets (tbDiff c.tb f.inst))).inc .PTP_MODIFIED_COUNT p
  | none => c.sendToHost p (c.rxTag p f.tag) f.octets

/-- The next frame toward the host (R17, R194, R198, R325): none while the host pauses the port or a PFC frame waits; DAP
responses first, which go even while the link is down. -/
def Chip.forward (c : Chip) (p : Nat) : Chip :=
  let h := c.hostOf p
  if !c.hostOut p || c.rdBit .HL_PORT_STATUS 4 p || !h.pfcNew.isEmpty then c
  else match h.dapOut, h.fifo with
    | f :: l, _ => (c.setHost p fun h => { h with dapOut := l }).sendToHost p (c.rxTag p f.tag) f.octets
    | [], f :: l => if c.up p then (c.setHost p fun h => { h with fifo := l }).rxLeave p f else c
    | [], [] => c

/-- FORWARD_TO_HOST (R17, R194). -/
def execForwardToHost (p : PortNo) (s : State) : Out := s.run fun c => c.forward p

-- Host lanes.

/-- A lane has FEC codeword lock and alignment-marker lock. -/
def Chip.laneLocked (c : Chip) (h : Nat) : Bool := c.rdBit .HL_STATUS 1 h && c.rdBit .HL_STATUS 2 h

/-- HL_LANE_UP (R179): 1 ms of continuous lock. -/
def execHlLaneUp (h : LaneNo) (s : State) : Out := s.run fun c =>
  if !c.laneLocked h || !c.pwr.hostPll then c
  else ((c.setBit .HL_STATUS h 3 true).setLane h fun l => { l with upFrom := some c.root, lockFault := false }).laneEval h

/-- HL_LANE_FAULT (R179, R184): 1 ms out of lock; not while the lane's pattern checker stands in the decoder's place (R199). -/
def execHlLaneFault (h : LaneNo) (s : State) : Out := s.run fun c =>
  if c.laneLocked h || c.rd .HL_PRBS_CHK h != 0 || !c.pwr.hostPll then c else (c.setLane h fun l => { l with lockFault := true }).laneEval h

/-- A write of `HL_FORCE_FAIL` (R179). -/
def execHlForceFailWrite (h : LaneNo) (v : BitVec 8) (s : State) : Out :=
  s.runWr fun c => c.gated .HL_FORCE_FAIL h fun c => c.writeBase stepAll .HL_FORCE_FAIL h 0 v.toNat

/-- LS_MARKER_RECEIVED (R186, R187): of a lane that the running mapping shares. -/
def execLsMarkerReceived (h : LaneNo) (block : BitVec 66) (inProgress : List PortNo) (s : State) : Out := s.run fun c =>
  if c.laneShared h then c.lsMarkerTake h block (inProgress.map fun p => p.val) else c

/-- A write of `HL_MAP` or `HL_ENTRIES` (R182). -/
def execHlMapWrite (p : PortNo) (entries : Bool) (v : BitVec 32) (s : State) : Out :=
  s.runWr fun c => c.gated (if entries then .HL_ENTRIES else .HL_MAP) p fun c => c.writeHlMap p entries v.toNat

/-- A write of `HL_PRBS_GEN` (R199). -/
def execHlPrbsGenWrite (h : LaneNo) (v : BitVec 8) (s : State) : Out :=
  s.runWr fun c => c.gated .HL_PRBS_GEN h fun c => c.writeBase stepAll .HL_PRBS_GEN h 0 v.toNat

/-- A write of `HL_PRBS_CHK` (R199). -/
def execHlPrbsChkWrite (h : LaneNo) (v : BitVec 8) (s : State) : Out :=
  s.runWr fun c => c.gated .HL_PRBS_CHK h fun c => c.writeBase stepAll .HL_PRBS_CHK h 0 v.toNat

/-- A write of a PFC setting (R197). -/
def execPfcSettingWrite (p : PortNo) (which : PfcSetting) (v : BitVec 32) (s : State) : Out :=
  s.runWr fun c => c.gated (match which with
    | .enable => .PFC_ENABLE
    | .priorityMap => .PFC_PRIORITY_MAP
    | .headroom => .PFC_HEADROOM
    | .quanta => .PFC_QUANTA) p fun c => c.writePfc p which v.toNat

/-- Signal and locks of a lane change, with what its decoder and its checker have counted since the last change (R178, R179,
R199): a lane out of lock is not up. -/
def Chip.laneLocks (c : Chip) (h : Nat) (signal fec am : Bool) (corrected uncorrected prbs : Nat) : Chip :=
  let c := ((c.setBit .HL_STATUS h 0 signal).setBit .HL_STATUS h 1 fec).setBit .HL_STATUS h 2 am
  let c := (c.add .HL_FEC_CORRECTED h corrected).add .HL_FEC_UNCORR h uncorrected
  let c := if c.rd .HL_PRBS_CHK h = 0 then c else c.add .HL_PRBS_ERR h prbs
  if fec && am then c else (c.setBit .HL_STATUS h 3 false).setLane h fun l => { l with upFrom := none }

/-- FEC_LOCK_CHANGE (R178, R179). -/
def execFecLockChange (h : LaneNo) (signal fec am : Bool) (corrected uncorrected prbs : Nat) (s : State) : Out :=
  s.run fun c => if !c.pwr.hostPll then c else c.laneLocks h signal fec am corrected uncorrected prbs

end Sys2Proof.Machine
end

