-- ==== Sys2Proof/Machine/PowerEvents.lean ====
section
/-!
DEFINITION. The meanings of the power, clock and monitor rows (chapters 14 and 18).
-/
set_option Elab.async false
namespace Sys2Proof.Machine

/-- A write of 1 to `PWR_REQUEST` (R344). -/
def execPwrRequestActive (s : State) : Out := s.runWr fun c => c.gated .PWR_REQUEST 0 fun c => c.writePower false 1

/-- A write of 2 to `PWR_REQUEST` (R344, R346). -/
def execPwrRequestStandby (s : State) : Out := s.runWr fun c => c.gated .PWR_REQUEST 0 fun c => c.writePower false 2

/-- A write of 3 to `PWR_REQUEST` (R344, R346). -/
def execPwrRequestOff (s : State) : Out := s.runWr fun c => c.gated .PWR_REQUEST 0 fun c => c.writePower false 3

/-- A write of 1 to `PWR_DIRECT` (R348). -/
def execPwrDirectActive (s : State) : Out := s.runWr fun c => c.gated .PWR_DIRECT 0 fun c => c.writePower true 1

/-- A write of 2 to `PWR_DIRECT` (R348). -/
def execPwrDirectStandby (s : State) : Out := s.runWr fun c => c.gated .PWR_DIRECT 0 fun c => c.writePower true 2

/-- A write of 3 to `PWR_DIRECT` (R348). -/
def execPwrDirectOff (s : State) : Out := s.runWr fun c => c.gated .PWR_DIRECT 0 fun c => c.writePower true 3

/-- A write of 1 to `TILE_REQUEST` (R343 to R345). -/
def execTileRequestRun (t : TileNo) (s : State) : Out := s.runWr fun c => c.gated .TILE_REQUEST t fun c => c.writeTile t 1

/-- A write of 2 to `TILE_REQUEST` (R343 to R346). -/
def execTileRequestSleep (t : TileNo) (s : State) : Out := s.runWr fun c => c.gated .TILE_REQUEST t fun c => c.writeTile t 2

/-- What follows an entry to `ACTIVE`, and what waits on SPI (R226, Table 14-9). -/
def Chip.afterWake (c old : Chip) : Chip :=
  (if old.pwr.state != .active && c.pwr.state = .active then c.taResume else c).spiCarry

/-- HANDSHAKE_ANSWER (R346). -/
def execHandshakeAnswer (tile : Option TileNo) (block : Fin 11) (s : State) : Out :=
  s.run fun c => c.handshakeAnswer (tile.map fun t => t.val) block

/-- HANDSHAKE_BOUND_EXPIRE (R346). -/
def execHandshakeBoundExpire (tile : Option TileNo) (block : Fin 11) (s : State) : Out :=
  s.run fun c => c.handshakeBound (tile.map fun t => t.val) block

/-- The start from `OFF`, by an SPI request or by a request that was pending (R345, R350): an SPI request stays to be carried out. -/
def Chip.wakeFromOff (c : Chip) (cause : Nat) (b : BootInputs) : Chip :=
  let held := c.dap.spiHeld
  let c := (c.start 0 b).wrDev .WAKE_CAUSE cause
  { c with dap := { c.dap with spiHeld := held, spiBusy := held.isSome } }

/-- The device's entry is complete; a pending request for `ACTIVE` then ends `OFF` at once (R344, R345). -/
def Chip.offLeave (c : Chip) (b : BootInputs) : Chip :=
  if c.pwr.state = .off && c.pwr.pending = some .active then (c.wakeFromOff c.pwr.pendingCause b).spiCarry else c

/-- POWER_ENTRY_COMPLETE (R344, R347). -/
def execPowerEntryComplete (entry : EntryDone) (s : State) : Out :=
  s.run fun c => match entry with
    | .tile t => c.tileEntered t
    | .device boot => if c.pwr.entering then c.deviceEntered.offLeave boot else c

/-- WAKE_SOURCE (R343, R345, R350). -/
def execWakeSource (k : WakeKind) (boot : BootInputs) (s : State) : Out :=
  s.run fun c =>
    if c.boot.phase = .noPower || c.boot.phase = .inReset then c
    else if c.pwr.state = .off then (if k = .spi then (c.wakeFromOff WakeKind.spi.bit boot).spiCarry else c)
    else c.wakeSource k

/-- A wake step of the device is complete; from a fault of the first start the start-up goes on (R351, R352, Table 16-1). -/
def Chip.wakeStep (c : Chip) (us kHz : Nat) : Chip :=
  if c.pwr.waking = some .domains && !c.boot.applied then
    let c := c.setPwr fun p => { p with waking := none, state := .active, tries := 0, pins := none }
    ((c.wrDev .WAKE_TIME us).inc .PWR_TRANSITION_COUNT).startFirmware
  else c.deviceStepDone us kHz

/-- WAKE_STEP_DONE (R351, Table 14-10). -/
def execWakeStepDone (tile : Option TileNo) (us : Nat) (kHz : BitVec 32) (s : State) : Out :=
  s.run fun c => (match tile with
    | some t => c.tileStepDone t us
    | none => c.wakeStep us kHz.toNat).afterWake c

/-- WAKE_STEP_TIMEOUT (R352). -/
def execWakeStepTimeout (tile : Option TileNo) (us : Nat) (s : State) : Out :=
  s.run fun c => (match tile with
    | some t => c.tileStepFail t us
    | none => c.deviceStepFail us).afterWake c

/-- PL_LOWER_TIMER (R339). -/
def execPlLowerTimer (t : TileNo) (s : State) : Out := s.run fun c => c.levelLower t

/-- PL_CHANGE_COMPLETE (R341, R342). -/
def execPlChangeComplete (t : TileNo) (s : State) : Out := s.run fun c => c.levelDone t

/-- A write of `TILE_PL_MODE` or `TILE_PL_SET` (R340). -/
def execTilePlWrite (t : TileNo) (set : Bool) (v : BitVec 8) (s : State) : Out :=
  s.runWr fun c => c.gated (if set then .TILE_PL_SET else .TILE_PL_MODE) t fun c => c.writeTilePl t set v.toNat

/-- A write of `LEGACY_GATE` (R334). -/
def execLegacyGateWrite (v : BitVec 32) (s : State) : Out :=
  s.runWr fun c => c.gated .LEGACY_GATE 0 fun c => c.writeLegacyGate v.toNat

/-- CLKSW_FORCE (R336). -/
def execClkswForce (d : Fin 60) (s : State) : Out := s.run fun c => c.switchForced d

/-- REGULATOR_FAILURE_IN_SERVICE (R352). -/
def execRegulatorFailureInService (t : TileNo) (s : State) : Out :=
  s.run fun c => if (c.tile t).st = .run then c.regFailed t else c

/-- ROOT_PLL_LOCK_LOSS (R23). -/
def execRootPllLockLoss (reference : Bool) (s : State) : Out := s.run fun c => c.rootLost reference

/-- THERM_SENSOR_SAMPLE (R111, R431). -/
def execThermSensorSample (t : TileNo) (temp lid coreMv : BitVec 16) (mw : BitVec 32) (s : State) : Out :=
  s.run fun c => c.thermSample t temp.toInt lid.toInt coreMv.toNat mw.toNat

/-- A tile's regulator shuts down at 118 °C: a regulator failure, which overrides what the tile was doing (R431). When it ends the
ramp of a wake, the time since the source is not known to the model. -/
def Chip.thermTripped (c : Chip) (t : Nat) : Chip :=
  if (c.tile t).st = .isolated then c
  else
    let c := c.regFailed t
    match c.pwr.waking with
    | some (.group _) =>
      let d := c.draw
      d.2.groupsGo (d.1 % 2 ^ 32) 5
    | _ => c

/-- THERM_TRIP (R431). -/
def execThermTrip (t : TileNo) (s : State) : Out := s.run fun c => c.thermTripped t

/-- VIN_MONITOR (R432). -/
def execVinMonitor (mv : BitVec 16) (ma mw : BitVec 32) (s : State) : Out :=
  s.run fun c => c.vinMonitor mv.toNat ma.toNat mw.toNat

end Sys2Proof.Machine
end

