-- ==== Sys2Proof/Machine/SchedEvents.lean ====
section
/-!
DEFINITION. The meanings of the events and writes of queues, scheduling, gates, preemption and meters (chapter 10).
-/
set_option Elab.async false
namespace Sys2Proof.Machine

/-- A read that is not complete holds a fresh frame's start; for an in-profile or timed frame it is an observed miss (R265,
R269). -/
def Chip.readLate (c : Chip) (f : Frame) : Chip :=
  if f.inProfile then c.missObserved 0 (64 * f.cells.length)
  else if c.qTimed f.port f.lq then c.missObserved 0 0 else c

/-- What was chosen starts, when its launch read is complete (R239, R265). -/
def Chip.startChosen (c : Chip) (g : Grid) (p pos : Nat) (x : Cand) (k : Pick) (passed ready : Bool) : Chip :=
  if x.cont.isNone && !x.frame.read && !ready then c.readLate x.frame
  else ((c.startCand g p pos x k passed).blink p).lpiReplan p

/-- START_DECISION (R13 to R15, R43, R119, R238 to R245): the decision for the first free start point still to be decided; the heads
are judged, and at most one frame starts there. `pos` names the start point: R43 leaves no choice, and a command that names another one
does nothing (DESIGN CHOICE, log entry 127). `ready` says that its launch read is complete by its release. -/
def execStartDecision (p : PortNo) (pos : Nat) (ready : Bool) (s : State) : Out := s.run fun c =>
  match c.grid p with
  | none => c
  | some g =>
    if !c.mayDecide p || pos ≠ g.first (c.decideFrom g p) (c.sch p).free then c
    else
      let c := (c.setSch p fun st => { st with decided := g.instant pos }).judgeHeads p (g.instant pos)
      let r := c.choose g p pos false
      match r.1 with
      | none => r.2
      | some (x, k, passed) => r.2.startChosen g p pos x k passed ready

/-- EXPRESS_DECISION (R251): the decision for the first start point still to be decided during the preemptable frame on the wire: an
express candidate that judges `start` after the earliest valid cut cuts the frame there. `pos` names the start point as in
START_DECISION. -/
def execExpressDecision (p : PortNo) (pos : Nat) (ready : Bool) (s : State) : Out := s.run fun c =>
  match c.grid p, (c.sch p).running with
  | some g, some r =>
    let at_ := g.instant pos
    if pos ≠ g.first (max r.wire (c.decideFrom g p)) 0 || !c.mayDecide p || !r.pre || !c.mmActive p || at_ ≥ r.done then c
    else
      let c := c.setSch p fun st => { st with decided := at_ }
      let d := max (c.leastCut p) (r.outBy g at_)
      if d + 64 > (c.sch p).whole r || d ≥ r.total then c
      else
        let pos' := g.first at_ (g.after r.start (preOctets + d + mcrcOctets - r.base))
        let k := c.choose g p pos' true
        match k.1 with
        | none => k.2
        | some (x, q, passed) =>
          if x.cont.isNone && !x.frame.read && !ready then k.2.readLate x.frame
          else k.2.cutLive g p r d |>.startChosen g p pos' x q passed ready
  | _, _ => c

/-- A frame of a port that waits or is on the wire. -/
def Chip.findFrame (c : Chip) (p id : Nat) : Option Frame :=
  (c.queues.flatMap fun e => e.2).find? fun f => f.port = p && f.id = id

/-- A frame that has begun on the wire ends there, or is no longer suspended (R15, R274). -/
def Chip.endBegun (c : Chip) (p id : Nat) : Chip :=
  (c.setSch p fun s =>
    { s with live := s.live.filter fun y => y.frame.id != id, susp := s.susp.filter fun y => y.frame.id != id }).pfcEval p

/-- LAUNCH_READ_COMPLETE (R265, R273, R274): the read is complete; an uncorrectable error retires the channel and ends the
frame, whether it is on the wire or suspended. -/
def execLaunchReadComplete (p : PortNo) (frame : Nat) (r : ReadResult) (s : State) : Out := s.run fun c =>
  let begun := (((c.sch p).live.map fun x => x.frame) ++ ((c.sch p).susp.map fun x => x.frame).toList).find? fun f => f.id = frame
  match r with
  | .uncorrectable h =>
    let c := (c.inc .QC_UE_COUNT h).retire h
    match c.findFrame p frame, begun with
    | some f, _ => (c.dropQueued f .other).raise .readDiscard (Cls.port.addr p) f.lq
    | none, some f => (c.qCount p f.lq 28 4 1).endBegun p frame
    | none, none => c
  | .corrected h =>
    let c := c.corrected h
    match c.findFrame p frame with
    | some f => c.setQueue f.fq ((c.queue f.fq).map fun x => if x.id = frame then { x with read := true } else x)
    | none => c
  | .clean =>
    match c.findFrame p frame with
    | some f => c.setQueue f.fq ((c.queue f.fq).map fun x => if x.id = frame then { x with read := true } else x)
    | none => c

/-- FRAME_END_ON_WIRE (R12, R197, R221, R249): the oldest frame or fragment on the wire ends. -/
def execFrameEndOnWire (p : PortNo) (s : State) : Out := s.run fun c =>
  match (c.sch p).live with
  | [] => c
  | r :: _ => (c.fragEnd p r).lpiReplan p

/-- QUEUE_HEAD_JUDGE (R243, R244): the heads are judged against the time base. -/
def execQueueHeadJudge (p : PortNo) (s : State) : Out := s.run fun c => (c.judgeHeads p c.root).lpiReplan p

/-- GATE_EDGE (R19, R246): the gate states follow the schedule. -/
def execGateEdge (p : PortNo) (s : State) : Out := s.run fun c => c.setSch p fun st => { st with gates := c.gatesAt p c.tb }

/-- GATE_SWAP_EXECUTE (R248). -/
def execGateSwapExecute (p : PortNo) (s : State) : Out := s.run fun c => c.swapDue p

/-- Q_BLOCKS_WRITE (R230). -/
def execQBlocksWrite (p : PortNo) (row : Nat) (v : BitVec 16) (s : State) : Out :=
  s.runWr fun c => c.gatedRow .Q_BLOCKS p row fun c => c.writeQBlocks p row v.toNat

/-- Q_DEFAULT_WRITE (R231). -/
def execQDefaultWrite (p : PortNo) (v : BitVec 16) (s : State) : Out :=
  s.runWr fun c => c.gated .Q_DEFAULT p fun c => c.writeQDefault p v.toNat

/-- Q_FLUSH (R231). -/
def execQFlush (p : PortNo) (v : BitVec 8) (s : State) : Out :=
  s.runWr fun c => c.gated .Q_FLUSH p fun c => c.writeQFlush p v.toNat

/-- Q_CONFIG_WRITE (R232). -/
def execQConfigWrite (p : PortNo) (row : Nat) (v : BitVec 128) (s : State) : Out :=
  s.runWr fun c => c.gatedRow .Q_CONFIG p row fun c => c.writeQConfig p row v.toNat

/-- Object of a shaper, and its instance. -/
def ShaperSel.obj : ShaperSel → Reg × Nat
  | .flow _ => (.FLOW_SHAPER, 0)
  | .svc p _ => (.SVC_SHAPER, p)
  | .port p => (.PORT_SHAPER, p)

/-- SHAPER_WRITE (R237). -/
def execShaperWrite (x : ShaperSel) (v : BitVec 64) (s : State) : Out :=
  s.runWr fun c => c.gated x.obj.1 x.obj.2 fun c => c.writeShaperRow x.ref v.toNat

/-- SHAPER_DEBT_END (R237). -/
def execShaperDebtEnd (x : ShaperSel) (s : State) : Out := s.run fun c => c.debtEnd x.ref

/-- GATE_ENABLE_TRUE (R247). -/
def execGateEnableTrue (p : PortNo) (s : State) : Out :=
  s.runWr fun c => c.gated .GATE_ENABLE p fun c => c.writeGateEnable p 1

/-- GATE_ENABLE_FALSE (R247). -/
def execGateEnableFalse (p : PortNo) (s : State) : Out :=
  s.runWr fun c => c.gated .GATE_ENABLE p fun c => c.writeGateEnable p 0

/-- GATE_SWAP_REQUEST (R248). -/
def execGateSwapRequest (p : PortNo) (v : BitVec 8) (s : State) : Out :=
  s.runWr fun c => c.gated .GATE_SWAP p fun c => c.writeGateSwap p v.toNat

/-- GATE_SWAP_CANCEL (R248). -/
def execGateSwapCancel (p : PortNo) (s : State) : Out :=
  s.runWr fun c => c.gated .GATE_SWAP p fun c => c.writeGateSwap p 0xFF

/-- MM_ENABLE_TRUE (R250). -/
def execMmEnableTrue (p : PortNo) (s : State) : Out :=
  s.runWr fun c => c.gated .MM_ENABLE p fun c => c.writeMmEnable p 1

/-- MM_ENABLE_FALSE (R250). -/
def execMmEnableFalse (p : PortNo) (s : State) : Out :=
  s.runWr fun c => c.gated .MM_ENABLE p fun c => c.writeMmEnable p 0

/-- MM_VERIFY_TIMER (R250): a verify frame, at most three; then verification has failed. -/
def execMmVerifyTimer (p : PortNo) (s : State) : Out := s.run fun c =>
  if c.rd .MM_STATUS p ≠ 1 || !c.up p then c
  else if (c.sch p).verifies < 3 then c.setSch p fun st => { st with verifies := st.verifies + 1, mmOut := 1 }
  else (c.wr .MM_STATUS p 3).raise .mmFailed (Cls.port.addr p)

/-- MM_VERIFY_RECEIVED (R250): a respond frame completes verification; a verify frame is answered. -/
def execMmVerifyReceived (p : PortNo) (respond : Bool) (s : State) : Out := s.run fun c =>
  if !c.up p then c
  else if respond then
    if c.rd .MM_STATUS p = 1 && (c.sch p).verifies != 0 then (c.wr .MM_STATUS p 2).lpiReplan p else c
  else c.setSch p fun st => { st with mmOut := 2 }

/-- MTR_CONFIG_WRITE (R254). -/
def execMtrConfigWrite (row : Nat) (v : BitVec 128) (s : State) : Out :=
  s.runWr fun c => c.gatedRow .MTR_CONFIG 0 row fun c => c.writeMeter row v.toNat

/-- RX_METER_RANGE_WRITE (R253). -/
def execRxMeterRangeWrite (p : PortNo) (count : Bool) (v : BitVec 16) (s : State) : Out :=
  s.runWr fun c => c.gated (if count then .RX_METER_COUNT else .RX_METER_BASE) p fun c => c.writeMeterRange p count v.toNat

end Sys2Proof.Machine
end

