-- ==== Sys2Proof/Machine/TimeEvents.lean ====
section
/-!
DEFINITION. The meanings of the time base's rows and of the timed actions (chapter 9).
-/
set_option Elab.async false
namespace Sys2Proof.Machine

/-- A write of `TIME_SET` (R204). -/
def execTimeSet (v : BitVec 96) (s : State) : Out :=
  s.runWr fun c => c.gated .TIME_SET 0 fun c => c.writeTimeSet stepAll v.toNat

/-- A write of `TIME_STEP` (R204). -/
def execTimeStep (v : BitVec 64) (s : State) : Out :=
  s.runWr fun c => c.gated .TIME_STEP 0 fun c => c.writeTimeStep stepAll v.toNat

/-- A write of `TIME_SNAPSHOT` (R203). -/
def execTimeSnapshot (v : BitVec 8) (s : State) : Out :=
  s.runWr fun c => c.gated .TIME_SNAPSHOT 0 fun c => c.writeTimeSnapshot v.toNat

/-- A write of `TIME_SERVO_INPUT` (R207, Table 9-3). -/
def execTimeServoInput (v : BitVec 64) (s : State) : Out :=
  s.runWr fun c => c.gated .TIME_SERVO_INPUT 0 fun c => c.writeServoInput stepAll v.toNat

/-- A write of `TIME_VALID` (R208). -/
def execTimeValidWrite (v : BitVec 8) (s : State) : Out :=
  s.runWr fun c => c.gated .TIME_VALID 0 fun c => c.writeTimeValid v.toNat

/-- A write of `TIME_SERVO_MODE` or `TIME_SOURCE` (R207). -/
def execTimeSourceWrite (mode : Bool) (v : BitVec 8) (s : State) : Out :=
  s.runWr fun c => c.gated (if mode then .TIME_SERVO_MODE else .TIME_SOURCE) 0 fun c => c.writeTimeSource mode v.toNat

/-- SERVO_INPUT_TIMEOUT (Table 9-4). -/
def execServoInputTimeout (s : State) : Out := s.run fun c => c.servoTimeout

/-- HOLDOVER_VALID_EXPIRE (R207). -/
def execHoldoverValidExpire (s : State) : Out := s.run fun c =>
  if c.rd .TIME_SERVO_STATE = 3 then c.setValid false else c

/-- A write of `ROOT_DISCIPLINE` (R210). -/
def execRootDisciplineWrite (v : BitVec 8) (s : State) : Out :=
  s.runWr fun c => c.gated .ROOT_DISCIPLINE 0 fun c => c.writeDiscipline v.toNat

/-- TRIM_RESUME (R210). -/
def execTrimResume (s : State) : Out := s.run fun c => c.trimBack

/-- REF_IN_LOST (R211). -/
def execRefInLost (s : State) : Out := s.run fun c => if c.pwr.rootOn then c.refLost else c

/-- REF_IN_PRESENT (R211). -/
def execRefInPresent (s : State) : Out := s.run fun c => if c.pwr.rootOn then c.refPresent else c

/-- PPS_IN_EDGE (R212): an edge of the polarity that is not selected is not taken, and a pulse shorter than 100 ns is ignored. -/
def execPpsInEdge (edge : PpsEdge) (s : State) : Out := s.run fun c =>
  if c.pwr.rootOn && (c.rd .PPS_IN_POLARITY = 1) = edge.falling && !edge.short then c.ppsIn stepAll edge.sub else c

/-- PPS_OUT_PULSE (R213): at the edge to which counting carried the time base. -/
def execPpsOutPulse (s : State) : Out := s.run fun c => if c.pwr.rootOn then c.ppsBegin else c

/-- PPS_OUT_END (R213): a pulse in progress is always completed. -/
def execPpsOutEnd (s : State) : Out := s.run fun c => c.ppsStop

/-- TA_POST (R222 to R224): a write of a row, with the posting path. -/
def execTaPost (row : Nat) (v : BitVec 320) (path : Path) (src : BitVec 8) (s : State) : Out :=
  s.runWr fun c =>
    if row ≥ 256 then (.row, c)
    else if !c.permits path 0 Reg.TA_TABLE.info.idx Reg.TA_TABLE.info.sub then (.guarded, c)
    else c.gated .TA_TABLE 0 fun c => c.writeTa row v.toNat path src.toNat

/-- TA_NONE (R222): a row written with kind 0 is freed. -/
def execTaNone (row : Nat) (v : BitVec 320) (s : State) : Out :=
  s.runWr fun c => c.gatedRow .TA_TABLE 0 row fun c => c.writeTa row (setRowField 40 v.toNat 12 1 0) .host 0

/-- An armed row of a kind runs when the time base has reached its time (R225). -/
def Chip.taRow (c : Chip) (row kind : Nat) : Chip :=
  if c.pwr.rootOn && c.pwr.state = .active && c.rdField .TA_TABLE 0 row 12 1 = kind then c.taDue stepAll row else c

/-- TA_WRITE (R225). -/
def execTaWrite (row : Fin 256) (s : State) : Out := s.run fun c => c.taRow row 1

/-- TA_COMMIT (R393). -/
def execTaCommit (row : Fin 256) (s : State) : Out := s.run fun c => c.taRow row 2

/-- TA_MARK (R222). -/
def execTaMark (row : Fin 256) (s : State) : Out := s.run fun c => c.taRow row 3

/-- A write of `TA_CANCEL` (R225). -/
def execTaCancel (v : BitVec 16) (s : State) : Out :=
  s.runWr fun c => c.gated .TA_CANCEL 0 fun c => c.writeTaCancel v.toNat

end Sys2Proof.Machine
end

