-- ==== Sys2Proof/Machine/WaleEvents.lean ====
section
/-!
DEFINITION. The meanings of the Wale fabric's rows (chapter 12) and of the writes that belong to it.
-/
set_option Elab.async false
namespace Sys2Proof.Machine

/-- A port has header lock (Table 12-3). -/
def Chip.wlLocked (c : Chip) (w : Nat) : Bool := c.wlState w ≥ wlAlign

/-- The fabric's logic runs: step 7 has applied the configuration, and D50 has its clock. -/
def Chip.waleRuns (c : Chip) : Bool := c.boot.applied && c.pwr.rootOn

/-- Header lock is gained (R280, R281, R284): automatic search has found the boundary `pos`. -/
def Chip.headerLock (c : Chip) (w pos : Nat) : Chip :=
  if c.wlState w ≠ wlSearch then c
  else
    let c := if c.rd .WL_SLIP_MODE w = 0 then c.wr .WL_SLIP_POS w pos else c
    let c := ((c.wr .WL_STATE w wlAlign).setBit .WL_STATUS w 0 true).setBit .WL_STATUS w 1 true
    (c.wr .WL_HDR_VALID w 64).setWl w fun s => { s with quiet := false }

/-- Header lock is lost (R280, R284): `invalid` headers were counted in lock, `valid` of the last 64 were valid. -/
def Chip.headerLost (c : Chip) (w invalid valid : Nat) (signal : Bool) : Chip :=
  if !c.wlLocked w then c
  else
    let c := ((c.add .WL_HDR_ERR w invalid).wr .WL_HDR_VALID w valid).wlDrop w wlSearch
    c.setBit .WL_STATUS w 0 signal

/-- A write of `WL_ENABLE` or `WALE_ENABLE` (R283). -/
def execWlEnableWrite (w : Option WlNo) (v : BitVec 8) (s : State) : Out :=
  s.runWr fun c => match w with
    | some w => c.gated .WL_ENABLE w fun c => c.writeWlEnable (some w.val) v.toNat
    | none => c.gated .WALE_ENABLE 0 fun c => c.writeWlEnable none v.toNat

/-- WL_HEADER_LOCK (R280). -/
def execWlHeaderLock (w : WlNo) (pos : Fin 66) (s : State) : Out := s.run fun c => c.headerLock w pos

/-- WL_HEADER_LOCK_LOST (R280, R284). -/
def execWlHeaderLockLost (w : WlNo) (invalid : Nat) (valid : Fin 65) (signal : Bool) (s : State) : Out :=
  s.run fun c => c.headerLost w invalid valid signal

/-- WL_ALIGNED (R282, R283): four `WC_ALIGN` words, upright or inverted. -/
def execWlAligned (w : WlNo) (inverted : Bool) (s : State) : Out := s.run fun c =>
  if c.wlState w ≠ wlAlign then c else (c.wr .WL_STATE w wlHello).setBit .WL_STATUS w 2 inverted

/-- A write of `WL_SLIP` (R281). -/
def execWlSlip (w : WlNo) (v : BitVec 8) (s : State) : Out :=
  s.runWr fun c => c.gated .WL_SLIP w fun c => c.writeWlSlip w v.toNat

/-- WL_HELLO_SEND (R283, R288). -/
def execWlHelloSend (w : WlNo) (s : State) : Out := s.run fun c =>
  if c.wlState w = wlHello || c.wlState w = wlUp then c.wlLocal w 1 0x01 (c.helloOctets w) else c

/-- HELLO (R283, R288). -/
def execHello (w : WlNo) (payload : BitVec 256) (s : State) : Out :=
  s.run fun c => c.helloTake w (natToOctets 32 payload.toNat)

/-- WL_HELLO_TIMEOUT (Table 12-3). -/
def execWlHelloTimeout (w : WlNo) (s : State) : Out := s.run fun c =>
  if c.wlState w = wlHello || c.wlState w = wlUp then c.wlDrop w wlSearch else c

/-- WL_SQUELCH_END (R284). -/
def execWlSquelchEnd (w : WlNo) (s : State) : Out := s.run fun c => c.setWl w fun x => { x with squelch := false }

/-- WL_QUIET_SEARCH (R284). -/
def execWlQuietSearch (w : WlNo) (s : State) : Out := s.run fun c =>
  if c.wlState w = wlSearch then c.setWl w fun x => { x with quiet := true } else c

/-- A write of `WL_WAKE_SEND` (R284). -/
def execWlWakeSend (w : WlNo) (v : BitVec 8) (s : State) : Out :=
  s.runWr fun c => c.gated .WL_WAKE_SEND w fun c => c.writeWlWake w v.toNat

/-- WL_PACKET_RECEIVED (R285, R286, R292, R294, R295). -/
def execWlPacketReceived (w : WlNo) (words : List WlWord) (s : State) : Out := s.run fun c => c.wlReceive w words

/-- WL_PACKET_TRANSMIT (R287). -/
def execWlPacketTransmit (w : WlNo) (s : State) : Out := s.run fun c => c.wlTransmit w

/-- LSA (R289): an advertisement received on a port that is up. -/
def execLsa (w : WlNo) (payload : List Octet) (s : State) : Out := s.run fun c =>
  if c.wlState w ≠ wlUp then c
  else match Lsa.ofOctets payload with
    | some x => c.lsaTake w x.1 x.2
    | none => c

/-- LSA_ORIGINATE (R289): the changes of the last 1 ms go into one advertisement. -/
def execLsaOriginate (s : State) : Out := s.run fun c =>
  if c.waleRuns && c.wale.dirty then c.originateNext c.ownLinks else c

/-- LSA_REFRESH (R289). -/
def execLsaRefresh (s : State) : Out := s.run fun c => if c.waleRuns then c.originateNext c.ownLinks else c

/-- LSA_AGE_OUT (R289): the deletion is not flooded. -/
def execLsaAgeOut (id : BitVec 64) (s : State) : Out :=
  s.run fun c => c.setWale fun x => { x with lsdb := x.lsdb.del id.toNat }

/-- ROUTE_RECOMPUTE (R290 to R293, R301). -/
def execRouteRecompute (s : State) : Out := s.run fun c => if c.waleRuns then c.recompute else c

/-- WALE_CONVERGED (R292). -/
def execWaleConverged (s : State) : Out := s.run fun c =>
  let a := c.rd .WALE_ADDRESS
  if a ≠ 0 && !c.outclaimed a && !c.wlUps.isEmpty then c.setBit .WALE_STATUS 0 0 true else c

/-- ADDRESS_PERSIST (R291). -/
def execAddressPersist (s : State) : Out := s.run fun c =>
  let a := c.rd .WALE_ADDRESS
  if a = 0 then c else { c with nv := { c.nv with lastWale := some a } }

/-- SYNC (R296). -/
def execSync (s : State) : Out := s.run fun c => c.syncAll

/-- DREQ (R296). -/
def execDreq (s : State) : Out := s.run fun c => c.dreqSend

/-- WC_TS (R296). -/
def execWcTs (w : WlNo) (kind : BitVec 8) (seq : BitVec 16) (frac : Fin 16) (s : State) : Out :=
  s.run fun c => c.tsTake w kind.toNat seq.toNat frac

/-- TIME (R296, R297). -/
def execTime (w : WlNo) (payload : BitVec 192) (s : State) : Out :=
  s.run fun c => c.timeTake stepAll w (natToOctets 24 payload.toNat)

/-- TIME_REPORT_TIMEOUT (R296): an exchange without its `TIME` packet is not used. -/
def execTimeReportTimeout (w : WlNo) (dreq : Bool) (s : State) : Out := s.run fun c =>
  c.setWl w fun x => if dreq then { x with dreqOut := none } else { x with syncIn := none }

/-- EVENT (R396, R399): the records go into the ring with the sender's address, and outcomes into `UPSETT_REPORT`. -/
def execEvent (src : BitVec 8) (records : List (BitVec 256)) (outcomes : List OutcomeIn) (s : State) : Out :=
  s.run fun c =>
    let c := c.each records fun c r =>
      c.emitRec { EvRec.ofOctets (natToOctets 32 r.toNat) with src := src.toNat } false
    c.each outcomes fun c o => c.outcomeTake src.toNat o.tag.toNat o.state o.cause.toNat

/-- EVENT_PACKET_SEND (R300, R396). -/
def execEventPacketSend (batch : EventBatch) (s : State) : Out := s.run fun c => c.eventPacket batch

/-- A write of `UPSETT_TAG` (R396). -/
def execUpsettTagWrite (v : BitVec 32) (s : State) : Out :=
  s.runWr fun c => c.gated .UPSETT_TAG 0 fun c => c.writeUpsettTag v.toNat

end Sys2Proof.Machine
end

