-- ==== Sys2Proof/Machine/Dispatch.lean ====
section
/-!
DEFINITION. Which meaning carries out which command: one arm for each row of the table of operations and events.
-/
namespace Sys2Proof.Machine

/-- The effect of a command on everything but the queue. -/
def exec (i : Instr) (s : State) : Host.Outcome State Fault Refusal :=
  match i with
  | .vinGoodRise boot => Sys2Proof.Machine.execVinGoodRise boot s
  | .vinGoodFall => Sys2Proof.Machine.execVinGoodFall s
  | .resetNAssert => Sys2Proof.Machine.execResetNAssert s
  | .resetNRelease boot => Sys2Proof.Machine.execResetNRelease boot s
  | .deviceReset v boot => Sys2Proof.Machine.execDeviceReset v boot s
  | .hwWatchdogReset boot => Sys2Proof.Machine.execHwWatchdogReset boot s
  | .fwWatchdogExpire core trainings boot => Sys2Proof.Machine.execFwWatchdogExpire core trainings boot s
  | .basePagesExchanged p page => Sys2Proof.Machine.execBasePagesExchanged p page s
  | .nextPagesDone p pages => Sys2Proof.Machine.execNextPagesDone p pages s
  | .flpDetected p => Sys2Proof.Machine.execFlpDetected p s
  | .parallelDetect p => Sys2Proof.Machine.execParallelDetect p s
  | .t0TimerEnd p r => Sys2Proof.Machine.execT0TimerEnd p r s
  | .t1Converged p r => Sys2Proof.Machine.execT1Converged p r s
  | .t1Timeout p converged r => Sys2Proof.Machine.execT1Timeout p converged r s
  | .infofieldReceived e copy0 copy1 copy2 => Sys2Proof.Machine.execInfofieldReceived e copy0 copy1 copy2 s
  | .t2Timeout p => Sys2Proof.Machine.execT2Timeout p s
  | .countdownEnd p => Sys2Proof.Machine.execCountdownEnd p s
  | .t3VerifyPass p pick => Sys2Proof.Machine.execT3VerifyPass p pick s
  | .t3Timeout p failed => Sys2Proof.Machine.execT3Timeout p failed s
  | .partnerLost p => Sys2Proof.Machine.execPartnerLost p s
  | .stdTrainComplete p ok => Sys2Proof.Machine.execStdTrainComplete p ok s
  | .stdLinkFail p => Sys2Proof.Machine.execStdLinkFail p s
  | .linkBreakEnd p => Sys2Proof.Machine.execLinkBreakEnd p s
  | .linkFailEnd p => Sys2Proof.Machine.execLinkFailEnd p s
  | .noEnergy2s p => Sys2Proof.Machine.execNoEnergy2s p s
  | .wakePatternRetrain p => Sys2Proof.Machine.execWakePatternRetrain p s
  | .fastRetrainNoReply p => Sys2Proof.Machine.execFastRetrainNoReply p s
  | .trainRestartFull p => Sys2Proof.Machine.execTrainRestartFull p s
  | .trainRestartFast p => Sys2Proof.Machine.execTrainRestartFast p s
  | .trainRestartRenegotiate p => Sys2Proof.Machine.execTrainRestartRenegotiate p s
  | .portModeWrite p v => Sys2Proof.Machine.execPortModeWrite p v s
  | .portAbilityWrite p v => Sys2Proof.Machine.execPortAbilityWrite p v s
  | .portEnableWrite p v => Sys2Proof.Machine.execPortEnableWrite p v s
  | .quadFormationWrite q v => Sys2Proof.Machine.execQuadFormationWrite q v s
  | .receiveCodeword e decoded iterations corrected => Sys2Proof.Machine.execReceiveCodeword e decoded iterations corrected s
  | .uncorrectableRun e pick => Sys2Proof.Machine.execUncorrectableRun e pick s
  | .auxcrcLimitExceeded e pick => Sys2Proof.Machine.execAuxcrcLimitExceeded e pick s
  | .marginWindowEnd e m pick => Sys2Proof.Machine.execMarginWindowEnd e m pick s
  | .mcPairDropReq e msg pick => Sys2Proof.Machine.execMcPairDropReq e msg pick s
  | .mcPairDropAck e msg => Sys2Proof.Machine.execMcPairDropAck e msg s
  | .pairDropSwitch p transmit => Sys2Proof.Machine.execPairDropSwitch p transmit s
  | .mcLaneStatus e msg => Sys2Proof.Machine.execMcLaneStatus e msg s
  | .mcPrecoder e msg => Sys2Proof.Machine.execMcPrecoder e msg s
  | .precoderUpdateStart e taps pick => Sys2Proof.Machine.execPrecoderUpdateStart e taps pick s
  | .precoderSwitch e transmitter => Sys2Proof.Machine.execPrecoderSwitch e transmitter s
  | .storeRefresh e row found => Sys2Proof.Machine.execStoreRefresh e row found s
  | .refreshSlowReturn t => Sys2Proof.Machine.execRefreshSlowReturn t s
  | .coefWriteback e words => Sys2Proof.Machine.execCoefWriteback e words s
  | .peCoefFreezeWrite e v => Sys2Proof.Machine.execPeCoefFreezeWrite e v s
  | .coefFreezeExpire e => Sys2Proof.Machine.execCoefFreezeExpire e s
  | .captureEqualised e => Sys2Proof.Machine.execCaptureEqualised e s
  | .captureRaw e => Sys2Proof.Machine.execCaptureRaw e s
  | .captureDone e samples => Sys2Proof.Machine.execCaptureDone e samples s
  | .ancPassStart v => Sys2Proof.Machine.execAncPassStart v s
  | .ancPassEnd v ranked => Sys2Proof.Machine.execAncPassEnd v ranked s
  | .probationEnd v slot x => Sys2Proof.Machine.execProbationEnd v slot x s
  | .frozenThaw v slot => Sys2Proof.Machine.execFrozenThaw v slot s
  | .ancHoldExpire v slot => Sys2Proof.Machine.execAncHoldExpire v slot s
  | .weaveMapCopyWrite => Sys2Proof.Machine.execWeaveMapCopyWrite s
  | .ancSlotWrite v row value => Sys2Proof.Machine.execAncSlotWrite v row value s
  | .ancEnableWrite p value => Sys2Proof.Machine.execAncEnableWrite p value s
  | .ancMapClear value => Sys2Proof.Machine.execAncMapClear value s
  | .ancMapPersistWrite value => Sys2Proof.Machine.execAncMapPersistWrite value s
  | .lpiSleepRequest p id => Sys2Proof.Machine.execLpiSleepRequest p id s
  | .sleepReq p msg lane => Sys2Proof.Machine.execSleepReq p msg lane s
  | .sleepAck p msg => Sys2Proof.Machine.execSleepAck p msg s
  | .sleepNak p msg => Sys2Proof.Machine.execSleepNak p msg s
  | .lpiQuietPoint p partner => Sys2Proof.Machine.execLpiQuietPoint p partner s
  | .lpiRefreshStart p => Sys2Proof.Machine.execLpiRefreshStart p s
  | .lpiRefreshEnd p => Sys2Proof.Machine.execLpiRefreshEnd p s
  | .partnerRefreshEnd p margins => Sys2Proof.Machine.execPartnerRefreshEnd p margins s
  | .lpiWakeStart p planned => Sys2Proof.Machine.execLpiWakeStart p planned s
  | .lpiPartnerChirp p => Sys2Proof.Machine.execLpiPartnerChirp p s
  | .lpiWakeEnd p partner => Sys2Proof.Machine.execLpiWakeEnd p partner s
  | .heldAwakeEnd p => Sys2Proof.Machine.execHeldAwakeEnd p s
  | .lpiEnableWrite p v => Sys2Proof.Machine.execLpiEnableWrite p v s
  | .rxLpi p asserted => Sys2Proof.Machine.execRxLpi p asserted s
  | .tdrStart p v => Sys2Proof.Machine.execTdrStart p v s
  | .tdrDone p r => Sys2Proof.Machine.execTdrDone p r s
  | .reflectCompute e => Sys2Proof.Machine.execReflectCompute e s
  | .reflectBaselineSet e => Sys2Proof.Machine.execReflectBaselineSet e s
  | .reflectDone e rows origin => Sys2Proof.Machine.execReflectDone e rows origin s
  | .reflectWatchTick e rows origin => Sys2Proof.Machine.execReflectWatchTick e rows origin s
  | .lqSecondEnd p std => Sys2Proof.Machine.execLqSecondEnd p std s
  | .lqReset p v => Sys2Proof.Machine.execLqReset p v s
  | .plantMapBuild v => Sys2Proof.Machine.execPlantMapBuild v s
  | .plantMapDone => Sys2Proof.Machine.execPlantMapDone s
  | .ledLocateTick q => Sys2Proof.Machine.execLedLocateTick q s
  | .ledBlinkEnd p => Sys2Proof.Machine.execLedBlinkEnd p s
  | .frameFromHost p f => Sys2Proof.Machine.execFrameFromHost p f s
  | .hostPauseEnd p => Sys2Proof.Machine.execHostPauseEnd p s
  | .hostLocalFaultRx p asserted => Sys2Proof.Machine.execHostLocalFaultRx p asserted s
  | .pfcFrameSend p => Sys2Proof.Machine.execPfcFrameSend p s
  | .pfcRefresh p prio => Sys2Proof.Machine.execPfcRefresh p prio s
  | .receiveFrame p f => Sys2Proof.Machine.execReceiveFrame p f s
  | .forwardToHost p => Sys2Proof.Machine.execForwardToHost p s
  | .hlLaneUp h => Sys2Proof.Machine.execHlLaneUp h s
  | .hlLaneFault h => Sys2Proof.Machine.execHlLaneFault h s
  | .hlForceFailWrite h v => Sys2Proof.Machine.execHlForceFailWrite h v s
  | .lsMarkerReceived h block inProgress => Sys2Proof.Machine.execLsMarkerReceived h block inProgress s
  | .hlMapWrite p entries v => Sys2Proof.Machine.execHlMapWrite p entries v s
  | .hlPrbsGenWrite h v => Sys2Proof.Machine.execHlPrbsGenWrite h v s
  | .hlPrbsChkWrite h v => Sys2Proof.Machine.execHlPrbsChkWrite h v s
  | .pfcSettingWrite p which v => Sys2Proof.Machine.execPfcSettingWrite p which v s
  | .fecLockChange h signal fec am corrected uncorrected prbs => Sys2Proof.Machine.execFecLockChange h signal fec am corrected uncorrected prbs s
  | .timeSet v => Sys2Proof.Machine.execTimeSet v s
  | .timeStep v => Sys2Proof.Machine.execTimeStep v s
  | .timeSnapshot v => Sys2Proof.Machine.execTimeSnapshot v s
  | .timeServoInput v => Sys2Proof.Machine.execTimeServoInput v s
  | .timeValidWrite v => Sys2Proof.Machine.execTimeValidWrite v s
  | .timeSourceWrite mode v => Sys2Proof.Machine.execTimeSourceWrite mode v s
  | .servoInputTimeout => Sys2Proof.Machine.execServoInputTimeout s
  | .holdoverValidExpire => Sys2Proof.Machine.execHoldoverValidExpire s
  | .rootDisciplineWrite v => Sys2Proof.Machine.execRootDisciplineWrite v s
  | .trimResume => Sys2Proof.Machine.execTrimResume s
  | .refInLost => Sys2Proof.Machine.execRefInLost s
  | .ppsInEdge edge => Sys2Proof.Machine.execPpsInEdge edge s
  | .ppsOutPulse => Sys2Proof.Machine.execPpsOutPulse s
  | .ppsOutEnd => Sys2Proof.Machine.execPpsOutEnd s
  | .taPost row v path src => Sys2Proof.Machine.execTaPost row v path src s
  | .taNone row v => Sys2Proof.Machine.execTaNone row v s
  | .taWrite row => Sys2Proof.Machine.execTaWrite row s
  | .taCommit row => Sys2Proof.Machine.execTaCommit row s
  | .taMark row => Sys2Proof.Machine.execTaMark row s
  | .taCancel v => Sys2Proof.Machine.execTaCancel v s
  | .refInPresent => Sys2Proof.Machine.execRefInPresent s
  | .startDecision p pos ready => Sys2Proof.Machine.execStartDecision p pos ready s
  | .expressDecision p pos ready => Sys2Proof.Machine.execExpressDecision p pos ready s
  | .launchReadComplete p frame r => Sys2Proof.Machine.execLaunchReadComplete p frame r s
  | .frameEndOnWire p => Sys2Proof.Machine.execFrameEndOnWire p s
  | .queueHeadJudge p => Sys2Proof.Machine.execQueueHeadJudge p s
  | .gateEdge p => Sys2Proof.Machine.execGateEdge p s
  | .gateSwapExecute p => Sys2Proof.Machine.execGateSwapExecute p s
  | .qBlocksWrite p row v => Sys2Proof.Machine.execQBlocksWrite p row v s
  | .qDefaultWrite p v => Sys2Proof.Machine.execQDefaultWrite p v s
  | .qFlush p v => Sys2Proof.Machine.execQFlush p v s
  | .qConfigWrite p row v => Sys2Proof.Machine.execQConfigWrite p row v s
  | .shaperWrite which v => Sys2Proof.Machine.execShaperWrite which v s
  | .shaperDebtEnd which => Sys2Proof.Machine.execShaperDebtEnd which s
  | .gateEnableTrue p => Sys2Proof.Machine.execGateEnableTrue p s
  | .gateEnableFalse p => Sys2Proof.Machine.execGateEnableFalse p s
  | .gateSwapRequest p v => Sys2Proof.Machine.execGateSwapRequest p v s
  | .gateSwapCancel p => Sys2Proof.Machine.execGateSwapCancel p s
  | .mmEnableTrue p => Sys2Proof.Machine.execMmEnableTrue p s
  | .mmEnableFalse p => Sys2Proof.Machine.execMmEnableFalse p s
  | .mmVerifyTimer p => Sys2Proof.Machine.execMmVerifyTimer p s
  | .mmVerifyReceived p respond => Sys2Proof.Machine.execMmVerifyReceived p respond s
  | .mtrConfigWrite row v => Sys2Proof.Machine.execMtrConfigWrite row v s
  | .rxMeterRangeWrite p count v => Sys2Proof.Machine.execRxMeterRangeWrite p count v s
  | .admitCell p h fill => Sys2Proof.Machine.execAdmitCell p h fill s
  | .scrubRead h cell found => Sys2Proof.Machine.execScrubRead h cell found s
  | .scrubWriteback h cell => Sys2Proof.Machine.execScrubWriteback h cell s
  | .qcRetire h v => Sys2Proof.Machine.execQcRetire h v s
  | .channelDrained h => Sys2Proof.Machine.execChannelDrained h s
  | .bufReevaluate v => Sys2Proof.Machine.execBufReevaluate v s
  | .wlEnableWrite w v => Sys2Proof.Machine.execWlEnableWrite w v s
  | .wlHeaderLock w pos => Sys2Proof.Machine.execWlHeaderLock w pos s
  | .wlHeaderLockLost w invalid valid signal => Sys2Proof.Machine.execWlHeaderLockLost w invalid valid signal s
  | .wlAligned w inverted => Sys2Proof.Machine.execWlAligned w inverted s
  | .wlSlip w v => Sys2Proof.Machine.execWlSlip w v s
  | .wlHelloSend w => Sys2Proof.Machine.execWlHelloSend w s
  | .hello w payload => Sys2Proof.Machine.execHello w payload s
  | .wlHelloTimeout w => Sys2Proof.Machine.execWlHelloTimeout w s
  | .wlSquelchEnd w => Sys2Proof.Machine.execWlSquelchEnd w s
  | .wlQuietSearch w => Sys2Proof.Machine.execWlQuietSearch w s
  | .wlWakeSend w v => Sys2Proof.Machine.execWlWakeSend w v s
  | .wlPacketReceived w words => Sys2Proof.Machine.execWlPacketReceived w words s
  | .wlPacketTransmit w => Sys2Proof.Machine.execWlPacketTransmit w s
  | .lsa w payload => Sys2Proof.Machine.execLsa w payload s
  | .lsaOriginate => Sys2Proof.Machine.execLsaOriginate s
  | .lsaRefresh => Sys2Proof.Machine.execLsaRefresh s
  | .lsaAgeOut id => Sys2Proof.Machine.execLsaAgeOut id s
  | .routeRecompute => Sys2Proof.Machine.execRouteRecompute s
  | .waleConverged => Sys2Proof.Machine.execWaleConverged s
  | .addressPersist => Sys2Proof.Machine.execAddressPersist s
  | .sync => Sys2Proof.Machine.execSync s
  | .dreq => Sys2Proof.Machine.execDreq s
  | .wcTs w kind seq frac => Sys2Proof.Machine.execWcTs w kind seq frac s
  | .time w payload => Sys2Proof.Machine.execTime w payload s
  | .timeReportTimeout w dreq => Sys2Proof.Machine.execTimeReportTimeout w dreq s
  | .event src records outcomes => Sys2Proof.Machine.execEvent src records outcomes s
  | .eventPacketSend batch => Sys2Proof.Machine.execEventPacketSend batch s
  | .upsettTagWrite v => Sys2Proof.Machine.execUpsettTagWrite v s
  | .statusClear inst miss v => Sys2Proof.Machine.execStatusClear inst miss v s
  | .dapRequest via octets => Sys2Proof.Machine.execDapRequest via octets s
  | .read addr row held => Sys2Proof.Machine.execRead addr row held s
  | .write addr row value path src => Sys2Proof.Machine.execWrite addr row value path src s
  | .describe addr row => Sys2Proof.Machine.execDescribe addr row s
  | .dapResponseReceived octets => Sys2Proof.Machine.execDapResponseReceived octets s
  | .registerWrite addr row value path => Sys2Proof.Machine.execRegisterWrite addr row value path s
  | .snapshot inst v => Sys2Proof.Machine.execSnapshot inst v s
  | .spiReadStatus => Sys2Proof.Machine.execSpiReadStatus s
  | .spiWriteReq length octets crc => Sys2Proof.Machine.execSpiWriteReq length octets crc s
  | .spiReadResp complete => Sys2Proof.Machine.execSpiReadResp complete s
  | .mgmtAnComplete negotiated => Sys2Proof.Machine.execMgmtAnComplete negotiated s
  | .mgmtSyncLoss signal => Sys2Proof.Machine.execMgmtSyncLoss signal s
  | .pwrRequestActive => Sys2Proof.Machine.execPwrRequestActive s
  | .pwrRequestStandby => Sys2Proof.Machine.execPwrRequestStandby s
  | .pwrRequestOff => Sys2Proof.Machine.execPwrRequestOff s
  | .pwrDirectActive => Sys2Proof.Machine.execPwrDirectActive s
  | .pwrDirectStandby => Sys2Proof.Machine.execPwrDirectStandby s
  | .pwrDirectOff => Sys2Proof.Machine.execPwrDirectOff s
  | .tileRequestRun t => Sys2Proof.Machine.execTileRequestRun t s
  | .tileRequestSleep t => Sys2Proof.Machine.execTileRequestSleep t s
  | .handshakeAnswer tile block => Sys2Proof.Machine.execHandshakeAnswer tile block s
  | .handshakeBoundExpire tile block => Sys2Proof.Machine.execHandshakeBoundExpire tile block s
  | .powerEntryComplete entry => Sys2Proof.Machine.execPowerEntryComplete entry s
  | .wakeSource k boot => Sys2Proof.Machine.execWakeSource k boot s
  | .wakeStepDone tile us kHz => Sys2Proof.Machine.execWakeStepDone tile us kHz s
  | .wakeStepTimeout tile us => Sys2Proof.Machine.execWakeStepTimeout tile us s
  | .plLowerTimer t => Sys2Proof.Machine.execPlLowerTimer t s
  | .plChangeComplete t => Sys2Proof.Machine.execPlChangeComplete t s
  | .tilePlWrite t set v => Sys2Proof.Machine.execTilePlWrite t set v s
  | .legacyGateWrite v => Sys2Proof.Machine.execLegacyGateWrite v s
  | .clkswForce d => Sys2Proof.Machine.execClkswForce d s
  | .regulatorFailureInService t => Sys2Proof.Machine.execRegulatorFailureInService t s
  | .rootPllLockLoss reference => Sys2Proof.Machine.execRootPllLockLoss reference s
  | .postStageEnd => Sys2Proof.Machine.execPostStageEnd s
  | .bistTestDone t e found => Sys2Proof.Machine.execBistTestDone t e found s
  | .bistSliceStart t => Sys2Proof.Machine.execBistSliceStart t s
  | .bistSliceEnd t e found => Sys2Proof.Machine.execBistSliceEnd t e found s
  | .bistRequest v => Sys2Proof.Machine.execBistRequest v s
  | .foregroundGroupStart => Sys2Proof.Machine.execForegroundGroupStart s
  | .foregroundCalDone e m => Sys2Proof.Machine.execForegroundCalDone e m s
  | .calStart e v => Sys2Proof.Machine.execCalStart e v s
  | .calRoundStart e dac => Sys2Proof.Machine.execCalRoundStart e dac s
  | .calVisitPhaseEnd e dac results matched => Sys2Proof.Machine.execCalVisitPhaseEnd e dac results matched s
  | .calCorrectionUpdate e => Sys2Proof.Machine.execCalCorrectionUpdate e s
  | .calRecordStore e => Sys2Proof.Machine.execCalRecordStore e s
  | .imageWrite row v => Sys2Proof.Machine.execImageWrite row v s
  | .imageErase v => Sys2Proof.Machine.execImageErase v s
  | .imageVerify v => Sys2Proof.Machine.execImageVerify v s
  | .imageVerifyDone => Sys2Proof.Machine.execImageVerifyDone s
  | .imageSelectNext v => Sys2Proof.Machine.execImageSelectNext v s
  | .imageConfirm v => Sys2Proof.Machine.execImageConfirm v s
  | .ownerKeySubmit v => Sys2Proof.Machine.execOwnerKeySubmit v s
  | .ownerPolicySubmit v => Sys2Proof.Machine.execOwnerPolicySubmit v s
  | .attestNonce v => Sys2Proof.Machine.execAttestNonce v s
  | .attestReportDone => Sys2Proof.Machine.execAttestReportDone s
  | .cfgCandidateWrite row v => Sys2Proof.Machine.execCfgCandidateWrite row v s
  | .cfgCapture v => Sys2Proof.Machine.execCfgCapture v s
  | .cfgLoadFactory v => Sys2Proof.Machine.execCfgLoadFactory v s
  | .cfgCheck v => Sys2Proof.Machine.execCfgCheck v s
  | .cfgCheckDone => Sys2Proof.Machine.execCfgCheckDone s
  | .cfgCommit v => Sys2Proof.Machine.execCfgCommit v s
  | .cfgConfirm v => Sys2Proof.Machine.execCfgConfirm v s
  | .cfgConfirmDeadline => Sys2Proof.Machine.execCfgConfirmDeadline s
  | .cfgRollback v => Sys2Proof.Machine.execCfgRollback v s
  | .coalesceWindowClose inst ev => Sys2Proof.Machine.execCoalesceWindowClose inst ev s
  | .evReadCountWrite v => Sys2Proof.Machine.execEvReadCountWrite v s
  | .thermSensorSample t temp lid coreMv mw => Sys2Proof.Machine.execThermSensorSample t temp lid coreMv mw s
  | .thermTrip t => Sys2Proof.Machine.execThermTrip t s
  | .vinMonitor mv ma mw => Sys2Proof.Machine.execVinMonitor mv ma mw s

end Sys2Proof.Machine
end

