-- ==== Sys2Proof/Machine/Sent.lean ====
section
/-!
DEFINITION. What the device sends on its pairs: negotiation pages (R58 to R60), training frames and infofields (R65 to R72), the
management channel (R38, R106), and codewords with the blocks of the frames on the wire (R33 to R45).
-/
set_option Elab.async false
namespace Sys2Proof.Machine

-- Negotiation pages.

/-- A base page (R58, R60): selector, technology bits with A0 lowest, pause bits C1 and C0 of Clause 98, remote fault, Next Page. -/
structure SentBase where
  selector : BitVec 5
  tech : BitVec 8
  pause : BitVec 2
  fault : Bool
  nextPage : Bool
deriving DecidableEq, Repr

/-- A next page as the device forms it (Table 3-1, R60); what the clauses' own pages carry is named by the modes and bits that they
tell. -/
inductive SentPage where
  | t1000 (ms : Nat)
  | multi (modes : List LineMode)
  | eee (modes : List LineMode)
  | message5
  | up (u : BitVec 11)
  | dme (u : BitVec 32)
  | null
deriving DecidableEq, Repr

/-- The Clause 28 base page (R58): A3 tells 100BASE-TX full duplex, A5 and A6 are `PAUSE_ADV`. -/
def Chip.basePage28 (c : Chip) (p : Nat) : SentBase :=
  let o := c.offers p
  { selector := 1, pause := 0, fault := false, nextPage := o.any fun m => m ≠ .t100,
    tech := BitVec.ofNat 8 (8 * b2n (o.contains .t100) + 32 * (c.rd .PAUSE_ADV p % 4)) }

/-- The Clause 98 base page (R60). -/
def Chip.basePage98 (c : Chip) (p : Nat) : SentBase :=
  { selector := 1, tech := 0, pause := BitVec.ofNat 2 (c.rd .PAUSE_ADV p), fault := false, nextPage := true }

/-- The W-ability word sent (Table 3-2, R140): `WA_FAST` and `WA_EPOCH` tell the retained coefficients for the port's last mode, and
the will to fast-retrain. -/
def Chip.waOut (c : Chip) (p : Nat) : Nat :=
  let o := c.offers p
  let held := match (c.port p).mode with
    | some m => m.isW && c.holdsRetained p m
    | none => false
  2 ^ 18 + 2 ^ 17 * b2n (o.contains .w50) + 2 ^ 16 * b2n (o.contains .w25) + 2 ^ 15 * b2n (o.contains .w12)
    + 2 ^ 14 * b2n (c.rdBool .LPI_ENABLE p) + 2 ^ 13 * b2n (held && c.rdBool .FAST_RETRAIN_ENABLE p)
    + (if held then c.heldEpoch p else 0)

/-- Unformatted pages UP1 to UP4 (Table 3-3). -/
def upPages (oui wa : Nat) : List SentPage :=
  [.up (BitVec.ofNat 11 (bits oui 23 13)), .up (BitVec.ofNat 11 (bits oui 12 2)),
   .up (BitVec.ofNat 11 (bits oui 1 0 * 2 ^ 9 + bits wa 19 11)), .up (BitVec.ofNat 11 (bits wa 10 0))]

/-- Clause 28 next pages in the order of Table 3-1; Null pages follow until the partner has finished. -/
def Chip.nextPages28 (c : Chip) (p : Nat) : List SentPage :=
  let o := c.offers p
  let multi := o.filter fun m => !m.isW && m ≠ .t1000 && m ≠ .t100
  let eee := LineMode.ranked.filter fun m => !m.isW && (c.rd .PORT_ABILITY p).testBit m.abilityBit
  (if o.contains .t1000 then [.t1000 (c.rd .MS_CONFIG p)] else [])
    ++ (if multi.isEmpty then [] else [.multi multi])
    ++ (if c.rdBool .LPI_ENABLE p then [.eee eee] else [])
    ++ (if o.any LineMode.isW then SentPage.message5 :: upPages Config.vendorOui.toNat (c.waOut p) else [])

/-- Clause 98 next pages (R60). -/
def Chip.nextPages98 (c : Chip) (p : Nat) : List SentPage :=
  [.dme (BitVec.ofNat 32 (Config.vendorOui.toNat * 256)), .dme (BitVec.ofNat 32 (c.waOut p))]

/-- Next page `k` of the port, from 0 (R58, R60). -/
def Chip.nextPage (c : Chip) (p k : Nat) : SentPage :=
  (if (c.port p).proto = .flp then c.nextPages28 p else c.nextPages98 p).getD k .null

-- Training frames.

/-- The scrambler after `n` steps (R37). -/
def scrSteps (n : Nat) (s : BitVec 58) : BitVec 58 := (List.range n).foldl (fun s _ => scrStep s) s

/-- `IF_KEEP` (Table 3-5): bit k for the partner's lane k on whose pair `TRAIN_T1` has completed. -/
def Chip.keepIf (c : Chip) (p : Nat) : Nat :=
  (c.port p).lanes.foldl (fun a e => match (c.pe e).ifLane with
    | some k => if (c.port p).ownKeep.testBit (laneIndex p e) then a ||| 2 ^ k else a
    | none => a) 0

/-- The own base infofield on a pair (Table 3-5, R68 to R70), with a countdown or none. -/
def Chip.baseOut (c : Chip) (p e : Nat) (count : Option Nat) : BitVec 160 :=
  let s := c.port p
  match s.mode with
  | none => 0
  | some m =>
    ifBase count.isSome s.ackSent s.fast m.code (c.width p) (laneIndex p e) (c.rdBool .PORT_PAIR_DOWNSHIFT p) (c.keepIf p)
      (count.getD 0) (c.rd .TRAIN_CLASS p) (c.pe e).txSeed s.epoch s.nonce (if s.fast then 0 else m.preSegs)

/-- The infofield cycle of a pair (R68): the base infofield, then the precoder segments. -/
def Chip.cycleOut (c : Chip) (p e : Nat) : List (BitVec 160) :=
  let k := match (c.port p).mode with
    | some m => if (c.port p).fast then 0 else m.preSegs
    | none => 0
  c.baseOut p e none :: (List.range k).map fun i => ifSegment i (segData (c.pe e).newTaps i)

/-- Infofield of training frame `n` since `TRAIN_T1` on a pair; none while the data bits are 0 (R65, R68, R434): the cycle, frame by
frame with zero-data frames until the partner's first base infofield, and in `TRAIN_T3` the sixteen countdown frames. -/
def Chip.frameInfo (c : Chip) (p e n : Nat) : Option (BitVec 160) :=
  let s := c.port p
  let f := c.frameEdges p
  let k := n - cdiv (s.t2Root - s.t1Root) f
  let cyc := c.cycleOut p e
  match s.link with
  | .trainT2 =>
    if s.gotBase then cyc[k % cyc.length]? else if k % 2 = 0 then none else cyc[k / 2 % cyc.length]?
  | .trainT3 =>
    let d := cdiv (s.t3Root - s.t1Root) f
    if n < d then cyc[k % cyc.length]? else if n < d + 16 then some (c.baseOut p e (some (15 - (n - d)))) else none
  | _ => none

/-- Levels of training frame `n` since `TRAIN_T1` on a pair (R65); the scrambler is loaded with the seed when `TRAIN_T1` starts. -/
def Chip.frameOut (c : Chip) (p e n : Nat) : List Int :=
  (trainFrame (scrSteps (480 * n) (BitVec.ofNat 58 (c.pe e).txSeed)) (frameData (c.frameInfo p e n))).1

-- The probe.

/-- Bits of the probe sequence from a state (R155): polynomial x^13 + x^12 + x^2 + x + 1; a bit is the sum of the bits 1, 2, 12 and 13
places before it, as the R37 scrambler's taps are read (PRESUMED, log entry 114). -/
def probeBits : Nat → BitVec 13 → List Bool
  | 0, _ => []
  | n + 1, s =>
    let b := (s.getLsbD 0 != s.getLsbD 1) != (s.getLsbD 11 != s.getLsbD 12)
    b :: probeBits n ((s <<< 1) ||| (if b then 1 else 0))

/-- Bit `k` of the probe's period (R155). -/
def probeBit (k : Nat) : Bool := (probeBits (k + 1) (BitVec.allOnes 13)).getD k false

/-- State that the sign scrambler is loaded with at the start of the probe (R155). -/
def Chip.probeSeed (c : Chip) (e : Nat) : BitVec 58 :=
  let s := BitVec.ofNat 58 (c.rd .PE_TX_SCR_SEED e) ^^^ Config.deviceId.setWidth 58
  if s = 0 then 1 else s

/-- Sign bit of period `n` since the start of the probe (R155): the scrambler advances once per period. -/
def Chip.probeSign (c : Chip) (e n : Nat) : Bool := scrOut (scrSteps n (c.probeSeed e))

/-- Level that a pair sends `r` root edges after the probe's start (Table 7-1): the short probe from 0.1 ms, the long one from 2.1 ms with
each bit held for 16 samples, and nothing else. The sign sequence goes on from the short periods to the long ones (DEDUCED, log entry
114). -/
def Chip.probeOut (c : Chip) (e r : Nat) : Int :=
  let level := fun (bit period : Nat) => if probeBit bit != c.probeSign e period then (15 : Int) else -15
  if 1600000 ≤ r && r < 1600000 + 3906 * 8191 then level ((r - 1600000) % 8191) ((r - 1600000) / 8191)
  else if 33600000 ≤ r && r < 33600000 + 219 * 8191 * 16 then
    level ((r - 33600000) / 16 % 8191) (3906 + (r - 33600000) / (8191 * 16))
  else 0

-- The management channel.

/-- `MC_LANE_STATUS` of a lane (Table 2-6). -/
def Chip.laneStatus (c : Chip) (p e : Nat) : BitVec 128 :=
  laneStatusMsg ((c.port p).lanes.idxOf e) (c.rdInt .PE_MARGIN e) (c.rd .PE_LDPC_ITER_MEAN e)

/-- The `MC_PRECODER` message that a lane is to send, if it is to send one, and what is left of its own update: an update that has
begun goes on in consecutive periods, and the acknowledgement of a complete one received fills the others (R103, R104). Which of the
two comes first is not stated (DESIGN CHOICE, log entry 91). -/
def PeSt.precoderNext (x : PeSt) (k : Nat) : Option (BitVec 128) × List Nat :=
  match x.preOut, x.preSend with
  | some u, f :: l => (some (precoderMsg u.id f u.switchSeq k x.newTaps), l)
  | _, _ => (match x.preIn with
      | some u => if u.taps.length = k then some (precoderMsg u.id 0 u.switchSeq k []) else none
      | none => none, x.preSend)

/-- A message period begins on a lane: what it sends, in the order of R106. -/
def Chip.lanePeriod (c : Chip) (p e : Nat) : Chip :=
  let s := c.port p
  let k := match s.mode with
    | some m => m.preTaps
    | none => 0
  match s.outDrop ++ s.outLpi with
  | m :: _ => c.setPe e fun x => { x with msgOut := some m }
  | [] =>
    let r := (c.pe e).precoderNext k
    let m := r.1.getD (c.laneStatus p e)
    c.setPe e fun x => { x with msgOut := some m, preSend := r.2 }

/-- A message period of a port begins with codeword `n`: a message goes out on every lane when all eight codewords are sent (R143), and a
port-level message is the same on each (R39). -/
def Chip.period (c : Chip) (p n : Nat) : Chip :=
  if (List.range 8).all fun k => c.sendsCw p (n + k) then
    let c := c.each (c.port p).lanes fun c e => c.lanePeriod p e
    c.setPort p fun s => match s.outDrop with
      | _ :: l => { s with outDrop := l }
      | [] => { s with outLpi := s.outLpi.drop 1 }
  else c.each (c.port p).lanes fun c e => c.setPe e fun x => { x with msgOut := none }

/-- `MGMT` of the codeword with `SEQ` `seq` (R38); zero where no message is being sent. -/
def PeSt.mgmtWord (x : PeSt) (seq : Nat) : BitVec 16 :=
  match x.msgOut with
  | some m => (m >>> (16 * (7 - seq % 8))).setWidth 16
  | none => 0

-- Blocks.

/-- Octet `o` of a port's stream (R43, R45): that of the frame or fragment that covers it, its /T/, or idle. -/
def Chip.streamOctet (c : Chip) (p o : Nat) : StreamOctet :=
  let s := c.sch p
  match (s.ended ++ s.live).find? fun r => startOctet r.start ≤ o && o ≤ startOctet r.start + (r.oct - r.base) with
  | none => .idle
  | some r =>
    let k := o - startOctet r.start + r.base
    if k = r.oct then .term else if k = 0 then .start else .octet (r.content.getD k 0)

/-- Block `b` of a port's stream. -/
def Chip.streamBlock (c : Chip) (p b : Nat) : BitVec 65 :=
  blockOf ((List.range 8).map fun k => c.streamOctet p (8 * b + k))

-- Codewords.

/-- The 1,625 block bits of lane `l` of `n` in codeword `k` of the present dealing (R34, R45). -/
def Chip.laneBlocks (c : Chip) (p l n k : Nat) : List Bool :=
  (List.range 25).flatMap fun j => (List.range 65).map fun i => (c.streamBlock p (25 * n * k + n * j + l)).getLsbD i

/-- Codeword with number `n` since `TRAIN_T3` on a lane (R34 to R41): a refresh carries idle blocks like every codeword in which no frame
stands. -/
def Chip.codewordOut (c : Chip) (p e n : Nat) : Codeword :=
  let s := c.port p
  let seed := BitVec.ofNat 58 (c.pe e).txSeed
  let k := n - ((c.sch p).gridAt - s.seqAt) / c.frameEdges p
  (cwBuild (scrAt seed n) seed (n % 256) ((c.pe e).mgmtWord n)
    (c.laneBlocks p (s.lanes.idxOf e) s.lanes.length k)).1

/-- Precode levels one after the other (R94): the outputs, and the history after them. -/
def precodeAll (taps : List Int) : List Int → List Int → List Int × List Int
  | hist, [] => ([], hist)
  | hist, a :: l =>
    let x := precode a taps hist
    let r := precodeAll taps ((x :: hist).take taps.length) l
    (x :: r.1, r.2)

/-- Precoder taps of a pair engine's own transmitter, b[1] first, as S2.13 (Table 4-7). -/
def PeSt.preTapsNow (x : PeSt) (k : Nat) : List Int := (List.range k).map fun i => toInt 16 (x.word (0x90 + i))

/-- What a lane puts on the line in codeword position `n` of its grid, as S5.10 level values (R42, R94, R142, R147): a precoded codeword,
the wake pattern unprecoded, or nothing. -/
def Chip.symbolsOut (c : Chip) (p e n : Nat) : List Int :=
  let l := (c.port p).lpi
  let k := match (c.port p).mode with
    | some m => m.preTaps
    | none => 0
  if c.sendsCw p n then
    (precodeAll ((c.pe e).preTapsNow k) (c.pe e).hist (levels (wireBits (c.codewordOut p e n)))).1
  else if l.state = .wake then (chirpCw (n + 1 = l.phaseCw + c.wakeCws p)).map fun x => x * 1024
  else List.replicate 512 0

/-- DAC codes of a lane in codeword position `n` (R92). -/
def Chip.dacOut (c : Chip) (p e n : Nat) : List Int := (c.symbolsOut p e n).map dacCode

-- The transmitter's output.

/-- The port's transmitter sends PAM-16 codewords, or stands in low-power idle between them (R72, R143). -/
def Chip.sendsPam (c : Chip) (p : Nat) : Bool :=
  let s := c.port p
  s.pam16 && (s.link = .up || s.link = .trainT3) && c.runsW p

/-- The ratio 10^(-n/40) of a backoff of `n` half decibels, in units of 2^-16, rounded to the nearest (R93). -/
def backoffScale (n : Nat) : Nat :=
  [65536, 61870, 58409, 55142, 52057, 49145, 46396, 43801, 41350, 39037, 36854, 34792, 32846].getD n 32846

/-- Differential voltage at the MDI of an S5.10 transmit value in a W mode, in µV (R93): +16 is 800 mV without backoff. -/
def PeSt.microvolts (x : PeSt) (v : Int) : Int := Int.fdiv (v * 800000 * backoffScale x.backoff) (16384 * 65536)

/-- Frequency of a port's transmit symbols less that of the local root, in 0.001 ppm (R100): in the standard modes whose clause has the slave
loop-time its transmitter, every one but 100BASE-TX (PRESUMED, log entry 115), a rate adapter resamples the slave's symbols onto the
recovered partner clock. -/
def Chip.txOffset (c : Chip) (p : Nat) : Int :=
  match (c.port p).mode with
  | some m => if !m.isW && m ≠ .t100 && c.rd .MS_RESULT p = 2 then c.rdInt .PE_FREQ_OFFSET (c.refPe p) else 0
  | none => 0

/-- Value on the neighbour bus of a pair engine at root edge `r` (R121), in S5.10 level units: what its DAC drives at the MDI as the state
now tells it, and zero while it drives no signal. -/
def Chip.busValue (c : Chip) (e r : Nat) : Int :=
  let p := c.portOf e
  let s := c.port p
  let f := c.frameEdges p
  if c.inLoopback e || !c.tileRuns (tileOf e) then 0
  else match c.diag.tdr.get? p, s.mode with
    | some r0, _ => c.probeOut e (r - r0) * 1024
    | none, none => 0
    | none, some m =>
      if s.link = .trainT0 && s.lanes.contains e && c.rd .BIST_STATE_PE e != 2 then
        if s.fast then (chirpCw false).getD ((r - s.t0Root) / m.symbolRoot % 512) 0 * 1024 else c.probeOut e (r - s.t0Root) * 1024
      else if (c.drives e).isNone then 0
      else if !m.isW then Config.clauseDac e r
      else if c.sendsPam p then (c.symbolsOut p e ((r - s.seqAt) / f)).getD ((r - s.seqAt) % f / m.symbolRoot) 0
      else (c.frameOut p e ((r - s.t1Root) / f)).getD ((r - s.t1Root) % f / m.symbolRoot) 0 * 1024

/-- What slot `k` takes from its victim's signal at sample `j`, in products of taps with the reference (R123). -/
def Chip.slotTakes (c : Chip) (v k j : Nat) : Int := c.slotEstimate c.busValue v k j

/-- A lane has sent codeword position `n`: the codeword and the precoder's history are kept (R34, R94). -/
def Chip.laneSent (c : Chip) (p e n : Nat) : Chip :=
  if c.sendsCw p n then
    let w := c.codewordOut p e n
    let h := c.symbolsOut p e n
    let k := match (c.port p).mode with
      | some m => m.preTaps
      | none => 0
    c.setPe e fun x => { x with txCw := some w, hist := (h.reverse.take k) }
  else c

/-- Codeword position `n` of a port has been sent; with the next one a message period may begin, and fragments that have ended are
forgotten. -/
def Chip.cwSent (c : Chip) (p n : Nat) : Chip :=
  let c := c.each (c.port p).lanes fun c e => c.laneSent p e n
  let c := c.setSch p fun s => { s with ended := s.ended.filter fun r => r.done > c.root }
  if (n + 1) % 8 = 0 then c.period p (n + 1) else c

/-- Codeword positions that end as the root goes from edge `c.root` to `c.root + 8`; the position that starts at `seqAt` begins a message
period too. -/
def Chip.portTick (c : Chip) (p : Nat) : Chip :=
  if !c.sendsPam p then c
  else
    let s := c.port p
    let f := c.frameEdges p
    let at_ := c.root + 8
    if at_ < s.seqAt then c
    else
      let c := if c.root ≤ s.seqAt && s.seqAt < at_ then c.period p 0 else c
      let n := (at_ - s.seqAt) / f
      if n > 0 && c.root < s.seqAt + n * f && s.seqAt + n * f ≤ at_ then c.cwSent p (n - 1) else c

end Sys2Proof.Machine
end

