-- ==== Sys2Proof/Machine/Tick.lean ====
section
/-!
DEFINITION. What the clock does when no command waits (R202): what falls due at the present D33 edge, then eight root edges (DESIGN
CHOICE, log entry 2).
-/
set_option Elab.async false
namespace Sys2Proof.Machine

/-- INC of R202 in units of 2^-48 ns: 62.5 ps times (1 + `TIME_RATE_ADJ` × 10^-12), to the 32 further fraction bits. -/
def incOf (adj : Int) : Int := Int.fdiv (2 ^ 44 * (10 ^ 12 + adj)) (10 ^ 12)

/-- The time base after one D33 edge. -/
def Chip.tbNext (c : Chip) : Nat := (((c.tb : Int) + 8 * incOf (c.rdInt .TIME_RATE_ADJ)) % (tbCycle : Int)).toNat

/-- Eight root edges are counted, and the time base advances. -/
def Chip.edges (c : Chip) : Chip := { c with root := c.root + 8, tb := c.tbNext }

/-- What falls due at the present edge and no command has carried out: gate swaps (R248), timed actions in ascending row order (R225),
the deadline of an unconfirmed configuration (R394), and the pulse pin (R213). -/
def Chip.dueNow (c : Chip) : Chip :=
  let c := c.each ((c.sched.filter fun e => e.2.swap.isSome).map fun e => e.1) fun c p => c.swapDue p
  let c := if c.pwr.state = .active then (c.each c.taArmed fun c r => c.taDue stepAll r).deadlineRevert stepAll else c
  c.ppsBegin.ppsStop

/-- Eight root edges pass (R202): the root edges are counted and the time base advances; a pulse instant may be crossed (R213), the
transmitters send on (R34), slots of the buffer pass (R264), and the trim moves (R209). -/
def Chip.advance (c : Chip) : Chip :=
  let c := c.each (c.ports.map fun e => e.1) fun c p => c.portTick p
  let pps := c.ppsCross
  let c := if pps.isSome then c.setTime fun t => { t with ppsDue := pps } else c
  let c := c.edges
  let c := if c.root % 32 < 8 then c.slotPass else c
  let c := c.trimPresence
  if c.root / 32000 = (c.root - 8) / 32000 then c else c.trimStep

/-- One D33 edge, while the root runs (R202). -/
def Chip.tick (c : Chip) : Chip := if c.pwr.rootOn then c.dueNow.advance else c

/-- A step on an empty queue: one D33 edge, and the event engine takes what was raised. -/
def State.tick (s : State) : Out := s.run Chip.tick

end Sys2Proof.Machine
end

