-- ==== Sys2Proof/Safety.lean ====
section
/-!
DEFINITION. The terms in which statements are made: what it is for a command to complete, what a command leaves as it was, and the
properties that a sound state has.
-/
set_option Elab.async false
namespace Sys2Proof.Machine

/-- Objects that what follows every command may write: those of the event engine when a command raises something (R401 to R405), and
the time of a calibration round whose last visit is abandoned (R356, R360). -/
def Reg.ofEvents : Reg → Bool
  | .EV_STATUS_DEV | .EV_STATUS_TILE | .EV_STATUS_QUAD | .EV_STATUS_PORT | .EV_STATUS_PE | .EV_STATUS_WL | .EV_STATUS_MGMT
  | .EV_STATUS_SPI | .EV_STATUS_HLANE | .EV_STATUS_QC | .EV_DROP | .EV_COALESCED_COUNT | .EV_OVERWRITTEN | .EV_READ_COUNT
  | .EV_WRITE_COUNT | .CAL_ROUND_TIME => true
  | _ => false

/-- A rotation without its visit in progress, and its round over where no visit is left to make. -/
def Rotation.still (r : Rotation) : Rotation := { r with visit := none, round := r.round && !r.left.isEmpty }

/-- Calibration of a pair engine without the visits in progress, which end by themselves when their port's condition ends
(R360). -/
def CalSt.still (x : CalSt) : CalSt := { x with adc := x.adc.still, dac := x.dac.still }

/-- The block without what any command may change beside its own effect: the objects (of which `Keeps` speaks), the access result,
the event engine with the records that wait for a Wale packet, calibration visits in progress (R360), and the list of domains that
show `CLKSW_FORCED` (R336). -/
def Chip.bare (c : Chip) : Chip :=
  { c with
    dict := [], access := {}, ev := {}, wale := { c.wale with alarms := [], traces := [] },
    pwr := { c.pwr with forced := [] }, cal := c.cal.map fun x => (x.1, x.2.still) }

/-- Every cell of the dictionary is held as before but those that `P` names and those of the event engine. -/
def Chip.Keeps (c d : Chip) (P : Key → Prop) : Prop :=
  ∀ k : Key, k.reg.ofEvents = false → ¬ P k → d.dict.get? k = c.dict.get? k

/-- Only the cells that `P` names have changed: every other object and every other part of the block is as before. -/
def Chip.ChangesOnly (c d : Chip) (P : Key → Prop) : Prop := d.bare = c.bare ∧ c.Keeps d P

/-- The command answers a next state: the queue is as it was, and the block is as `P` says. -/
def Answers (i : Instr) (s : State) (P : Chip → Prop) : Prop :=
  ∃ t : State, exec i s = .next t ∧ t.pending = s.pending ∧ P t.chip

/-- A counter of a unit has gone up by `n`, at its width. -/
def Counts (c d : Chip) (r : Reg) (i n : Nat) : Prop := d.rd r i = (c.rd r i + n) % 2 ^ r.width

/-- An object of a unit reads as before. -/
def Stays (c d : Chip) (r : Reg) (i : Nat) : Prop := d.rd r i = c.rd r i

/-- Of the parts beside the dictionary only the link controller of a port has changed. -/
def Chip.OnlyPort (c d : Chip) (p : Nat) : Prop := d.bare = { c.bare with ports := d.ports } ∧ ∀ q, q ≠ p → d.port q = c.port q

/-- Of the parts beside the dictionary only one pair engine has changed. -/
def Chip.OnlyPe (c d : Chip) (e : Nat) : Prop := d.bare = { c.bare with pes := d.pes } ∧ ∀ q, q ≠ e → d.pe q = c.pe q

/-- The access was turned away with an abort code, and nothing but the access result has changed. -/
def Chip.TurnedAway (c d : Chip) (a : Abort) : Prop := d.access = ⟨a, []⟩ ∧ c.ChangesOnly d fun _ => False

/-- The latest access was carried out. -/
def Chip.accepted (d : Chip) : Prop := d.access = ⟨.ok, []⟩

/-- The parts of the block beside the dictionary. -/
inductive Part where
  | held | access | draws | root | tb | ev | pwr | ports | pes | anc | diag | host | hlane | time | sched | queues | frameNo | flowSh | svcSh | portSh | meters | buf | wale | dap | cal | bist | boot | cfg | nv
deriving DecidableEq, Repr

/-- The part is as before. -/
def Part.same (p : Part) (c d : Chip) : Prop :=
  match p with
  | .held => d.held = c.held
  | .access => d.access = c.access
  | .draws => d.draws = c.draws
  | .root => d.root = c.root
  | .tb => d.tb = c.tb
  | .ev => d.ev = c.ev
  | .pwr => d.pwr = c.pwr
  | .ports => d.ports = c.ports
  | .pes => d.pes = c.pes
  | .anc => d.anc = c.anc
  | .diag => d.diag = c.diag
  | .host => d.host = c.host
  | .hlane => d.hlane = c.hlane
  | .time => d.time = c.time
  | .sched => d.sched = c.sched
  | .queues => d.queues = c.queues
  | .frameNo => d.frameNo = c.frameNo
  | .flowSh => d.flowSh = c.flowSh
  | .svcSh => d.svcSh = c.svcSh
  | .portSh => d.portSh = c.portSh
  | .meters => d.meters = c.meters
  | .buf => d.buf = c.buf
  | .wale => d.wale = c.wale
  | .dap => d.dap = c.dap
  | .cal => d.cal = c.cal
  | .bist => d.bist = c.bist
  | .boot => d.boot = c.boot
  | .cfg => d.cfg = c.cfg
  | .nv => d.nv = c.nv

/-- A command that answers a next state changes only the listed parts of the block and the listed objects, beside what any command
may change (`bare`, `Reg.ofEvents`). -/
def Frames (i : Instr) (ps : List Part) (rs : List Reg) : Prop :=
  ∀ s t : State, exec i s = .next t →
    (∀ p : Part, p ∉ ps → p.same s.chip.bare t.chip.bare) ∧ s.chip.Keeps t.chip fun k => k.reg ∈ rs

/-- The numbers that only rise, and the revocations that are never undone (R383, R386), are at least these. -/
def Nv.AtLeast (n : Nv) (antiRollback ownerSeq : Nat) (revoked : BitVec 4) : Prop :=
  antiRollback ≤ n.antiRollback ∧ ownerSeq ≤ n.ownerSeq ∧ revoked &&& n.revoked = revoked

/-- A command leaves the link controllers of the ports other than `p` as they were. -/
def LeavesOtherPorts (p : Nat) (i : Instr) : Prop :=
  ∀ s t : State, exec i s = .next t → ∀ q : Nat, q ≠ p → t.chip.port q = s.chip.port q

/-- Address of an object of unit `i` of its class, in a view (R7, Table 13-1). -/
def addrOf (view : Nat) (r : Reg) (i : Nat) : Nat :=
  view * 2 ^ 36 + r.info.cls.addr i * 2 ^ 24 + r.info.idx * 2 ^ 8 + r.info.sub

end Sys2Proof.Machine
end

