-- ==== Sys2Proof/Certificates/Slice0/Obligations.lean ====
section
/-!
DEFINITION. The statements about the model, each a proposition for a prover.
-/
set_option Elab.async false
open Sys2Proof Sys2Proof.Machine

/-- A step takes the command at the front of the queue and carries it out with the rest waiting. -/
def Obligations.StepRunsFrontCommand : Prop :=
  ∀ (i : Instr) (l : List Instr) (s : State), step { s with pending := i :: l } = exec i { s with pending := l }

/-- R202, and the choice of log 2: on an empty queue a step is one D33 edge, eight root edges, while the root runs; the time
base takes eight increments of R202. That a step is one edge, and that what falls due is carried out at it, is the model's
choice. A timed action or a configuration's deadline that falls due may itself write the time base, so the step is stated
where none is armed. -/
def Obligations.EmptyQueueCountsOneEdge : Prop :=
  ∀ s : State, s.pending = [] → s.chip.taArmed = [] → s.chip.cfg.deadline = none →
    ∃ t : State, step s = .next t ∧ t.pending = [] ∧
      (s.chip.pwr.rootOn = true →
        t.chip.root = s.chip.root + 8 ∧
        t.chip.tb = (((s.chip.tb : Int) + 8 * (2 ^ 44 * (10 ^ 12 + s.chip.rdInt .TIME_RATE_ADJ)).fdiv (10 ^ 12))
          % (tbCycle : Int)).toNat) ∧
      (s.chip.pwr.rootOn = false → s.chip.ChangesOnly t.chip fun _ => False)

/-- Every command answers a next state, and none changes the commands that wait. -/
def Obligations.EveryCommandAnswersAndKeepsTheQueue : Prop :=
  ∀ (i : Instr) (s : State), ∃ t : State, exec i s = .next t ∧ t.pending = s.pending

/-- R383, R386: `ANTI_ROLLBACK` and `OWNER_SEQ` never fall and no revocation is undone, whatever the step: an image's
confirmation, an owner request, a reset, a loss of supply. -/
def Obligations.NonVolatileNumbersNeverFall : Prop :=
  ∀ (a n : Nat) (r : BitVec 4) (s t : State), s.chip.nv.AtLeast a n r → step s = .next t → t.chip.nv.AtLeast a n r

/-- R309, R375, Table 16-1, Table 17-4: after reset every object reads its default, no object is served, FAULT_N is low and
INT_N high, every port is disabled, nothing waits, and the numbers of the non-volatile memory are those of manufacture. -/
def Obligations.ResetLeavesTheStatedState : Prop :=
  (∀ (r : Reg) (i row : Nat), State.reset.chip.rd r i row = State.reset.chip.dflt r i row) ∧
  (∀ (r : Reg) (i : Nat), State.reset.chip.asleep r i = true) ∧
  (∀ p : Nat, (State.reset.chip.port p).link = .disabled) ∧
  (∀ w : Nat, State.reset.chip.wlState w = 0) ∧
  State.reset.chip.ev.ring = [] ∧ State.reset.chip.ev.windows = [] ∧
  State.reset.chip.intPin = false ∧ State.reset.chip.faultLow = true ∧
  State.reset.pending = [] ∧ State.reset.chip.nv.AtLeast 0 0 0 ∧
  State.reset.chip.nv.antiRollback = 0 ∧ State.reset.chip.nv.ownerSeq = 0 ∧ State.reset.chip.nv.revoked = 0

/-- R44, R46, R170, R171: a codeword on a live lane is counted; one that does not converge, or whose check fails, gives 25
error blocks, and one in its place on an aligned lane gives its blocks; the histogram row of its iterations goes up by one. -/
def Obligations.ReceivedCodewordIsTaken : Prop :=
  ∀ (e : PeNo) (cw : BitVec 2048) (iterations corrected : Nat) (s : State), s.chip.laneLive e = true →
    let st := s.chip.pe e
    let r := decodeCw cw (iterations ≤ s.chip.iterLimit e) st.rxScr (BitVec.ofNat 58 (s.chip.rd .PE_RX_SCR_SEED e)) st.rxSeq
    let row := if r.converged then min iterations 16 else 17
    Answers (.receiveCodeword e cw iterations corrected) s fun d =>
      Counts s.chip d .CW_COUNT e 1 ∧
      d.rd .LDPC_ITER_HIST e row = (s.chip.rd .LDPC_ITER_HIST e row + 1) % 2 ^ Reg.width .LDPC_ITER_HIST ∧
      (d.pe e).rxScr = r.scr ∧
      (r.converged = true → Counts s.chip d .BITS_CORRECTED e corrected ∧ Stays s.chip d .CW_UNCORRECTABLE e ∧
        (d.pe e).uncorrRun = 0) ∧
      (r.converged = false → Counts s.chip d .CW_UNCORRECTABLE e 1 ∧ Stays s.chip d .BITS_CORRECTED e ∧
        (d.pe e).uncorrRun = st.uncorrRun + 1) ∧
      (r.auxOk = false → (d.pe e).blocks = errorBlocks ∧ (d.pe e).rxSeq = (st.rxSeq + 1) % 256) ∧
      (r.converged = true → r.auxOk = false → Counts s.chip d .CW_AUXCRC_FAIL e 1) ∧
      (r.auxOk = true → r.seq = st.rxSeq → s.chip.rdBit .PE_LANE_STATUS 1 e = false → st.dropped = false →
        (d.pe e).blocks = blocksOf r.blockBits ∧ (d.pe e).rxSeq = (r.seq + 1) % 256)

/-- R40, R36, R37, R44: what a transmitter builds, a receiver in step decodes without a correction: the codeword converges,
its check agrees, and it yields the `SEQ`, the 1,625 block bits and the scrambler state of the transmitter. -/
def Obligations.CodewordBuiltIsDecoded : Prop :=
  ∀ (scr seed : BitVec 58) (seq : Nat) (mgmt : BitVec 16) (blocks : List Bool), blocks.length = 1625 →
    let b := cwBuild scr seed seq mgmt blocks
    let r := decodeCw b.1 true scr seed (seq % 256)
    r.converged = true ∧ r.auxOk = true ∧ r.seq = seq % 256 ∧ r.blockBits = blocks ∧ r.scr = b.2 ∧ cwMgmt b.1 = mgmt

/-- R47 to R49, R80: the lanes that meet a link-down criterion are removed by pair drop where downshift is agreed and enough
pairs stay; otherwise the link goes down. -/
def Obligations.LaneFailureDropsOrBreaks : Prop :=
  (∀ (e : PeNo) (pick : BitVec 8) (s : State),
    let p := s.chip.portOf e;
      s.chip.laneLive e = true →
      (s.chip.port p).link = .up →
      (s.chip.port p).lpi.partnerQuiet = false →
      (s.chip.port p).lpi.state = .awake →
      16 ≤ (s.chip.pe e).uncorrRun →
      (s.chip.port p).downshiftAgreed = false →
    Answers (.uncorrectableRun e pick) s fun d =>
      (d.port p).link = .brk ∧
      d.rd .LINK_DOWN_CAUSE p = 0x02 ∧
      Counts s.chip d .LINK_DOWN_COUNT p 1 ∧
      (d.port p).noFast = false) ∧
  (∀ (e : PeNo) (pick : BitVec 8) (s : State),
    let p := s.chip.portOf e;
    let bad := (s.chip.port p).lanes.filter fun x => s.chip.criterion x;
    let keep := (s.chip.port p).kept.filter fun x => !bad.contains x;
      s.chip.laneLive e = true →
      (s.chip.port p).link = .up →
      (s.chip.port p).lpi.partnerQuiet = false →
      (s.chip.port p).lpi.state = .awake →
      16 ≤ (s.chip.pe e).uncorrRun →
      (s.chip.port p).downshiftAgreed = true →
      keep ≠ [] →
      keep.length < s.chip.rd .PORT_MIN_PAIRS p →
    Answers (.uncorrectableRun e pick) s fun d =>
      (d.port p).link = .brk ∧
      d.rd .LINK_DOWN_CAUSE p = 0x04 ∧
      Counts s.chip d .LINK_DOWN_COUNT p 1) ∧
  (∀ (e : PeNo) (pick : BitVec 8) (s : State),
    let p := s.chip.portOf e;
    let bad := (s.chip.port p).lanes.filter fun x => s.chip.criterion x;
    let keep := (s.chip.port p).kept.filter fun x => !bad.contains x;
    let id := ((s.chip.port p).reqId + 1) % 256;
    let cw := s.chip.msgCw p (s.chip.port p).outDrop.length + 64 + pick.toNat % 65;
      s.chip.laneLive e = true →
      (s.chip.port p).link = .up →
      (s.chip.port p).lpi.partnerQuiet = false →
      (s.chip.port p).lpi.state = .awake →
      16 ≤ (s.chip.pe e).uncorrRun →
      e.val ∈ (s.chip.port p).kept →
      (s.chip.port p).downshiftAgreed = true →
      keep ≠ [] →
      s.chip.rd .PORT_MIN_PAIRS p ≤ keep.length →
    Answers (.uncorrectableRun e pick) s fun d =>
      (d.port p).dropReq = some ⟨id, keep, cw % 256, cw⟩ ∧
      (d.port p).outDrop = (s.chip.port p).outDrop ++ [pairDropMsg false id (s.chip.keepOut p keep) (cw % 256)] ∧
      (d.port p).dropAcked = false ∧
      (d.port p).link = (s.chip.port p).link ∧
      (d.port p).lanes = (s.chip.port p).lanes ∧
      (s.chip.Keeps d fun _ => False)) ∧
  (∀ (e : PeNo) (pick : BitVec 8) (r : Nat) (s : State),
    let p := s.chip.portOf e;
      s.chip.laneLive e = true →
      (s.chip.port p).link = .up →
      (s.chip.port p).lpi.partnerQuiet = false →
      (s.chip.port p).lpi.state = .awake →
      (s.chip.pe e).auxAt[s.chip.rd .AUXCRC_LIMIT p]? = some r ∧ s.chip.root < r + 16000000 →
      (s.chip.port p).downshiftAgreed = false →
    Answers (.auxcrcLimitExceeded e pick) s fun d =>
      (d.port p).link = .brk ∧
      d.rd .LINK_DOWN_CAUSE p = 0x03 ∧
      Counts s.chip d .LINK_DOWN_COUNT p 1 ∧
      (d.port p).noFast = false) ∧
  (∀ (e : PeNo) (pick : BitVec 8) (r : Nat) (s : State),
    let p := s.chip.portOf e;
    let bad := (s.chip.port p).lanes.filter fun x => s.chip.criterion x;
    let keep := (s.chip.port p).kept.filter fun x => !bad.contains x;
      s.chip.laneLive e = true →
      (s.chip.port p).link = .up →
      (s.chip.port p).lpi.partnerQuiet = false →
      (s.chip.port p).lpi.state = .awake →
      (s.chip.pe e).auxAt[s.chip.rd .AUXCRC_LIMIT p]? = some r ∧ s.chip.root < r + 16000000 →
      (s.chip.port p).downshiftAgreed = true →
      keep ≠ [] →
      keep.length < s.chip.rd .PORT_MIN_PAIRS p →
    Answers (.auxcrcLimitExceeded e pick) s fun d =>
      (d.port p).link = .brk ∧
      d.rd .LINK_DOWN_CAUSE p = 0x04 ∧
      Counts s.chip d .LINK_DOWN_COUNT p 1) ∧
  (∀ (e : PeNo) (pick : BitVec 8) (r : Nat) (s : State),
    let p := s.chip.portOf e;
    let bad := (s.chip.port p).lanes.filter fun x => s.chip.criterion x;
    let keep := (s.chip.port p).kept.filter fun x => !bad.contains x;
    let id := ((s.chip.port p).reqId + 1) % 256;
    let cw := s.chip.msgCw p (s.chip.port p).outDrop.length + 64 + pick.toNat % 65;
      s.chip.laneLive e = true →
      (s.chip.port p).link = .up →
      (s.chip.port p).lpi.partnerQuiet = false →
      (s.chip.port p).lpi.state = .awake →
      (s.chip.pe e).auxAt[s.chip.rd .AUXCRC_LIMIT p]? = some r ∧ s.chip.root < r + 16000000 →
      e.val ∈ (s.chip.port p).kept →
      (s.chip.port p).downshiftAgreed = true →
      keep ≠ [] →
      s.chip.rd .PORT_MIN_PAIRS p ≤ keep.length →
    Answers (.auxcrcLimitExceeded e pick) s fun d =>
      (d.port p).dropReq = some ⟨id, keep, cw % 256, cw⟩ ∧
      (d.port p).outDrop = (s.chip.port p).outDrop ++ [pairDropMsg false id (s.chip.keepOut p keep) (cw % 256)] ∧
      (d.port p).dropAcked = false ∧
      (d.port p).link = (s.chip.port p).link ∧
      (d.port p).lanes = (s.chip.port p).lanes ∧
      (s.chip.Keeps d fun _ => False))

/-- R39, R48 to R50: requests and acknowledgements of pair drop, and the switch. -/
def Obligations.PairDropIsAgreedAndCarriedOut : Prop :=
  (∀ (e : PeNo) (msg : BitVec 128) (pick : BitVec 8) (s : State),
    let p := s.chip.portOf e;
    let f := dropFields msg;
    let mine := (s.chip.port p).kept.filter fun x => !s.chip.criterion x;
    let keep := (s.chip.keepIn p f.2.1).filter fun x => mine.contains x;
    let cw := s.chip.msgCw p (s.chip.port p).outDrop.length + 64 + pick.toNat % 65;
      s.chip.laneLive e = true →
      mgmtCheck msg = true →
      mgmtType msg = 0x02 →
      (s.chip.port p).lastReqIn ≠ some f.1 →
      (s.chip.port p).downshiftAgreed = true →
      keep ≠ [] →
      s.chip.rd .PORT_MIN_PAIRS p ≤ keep.length →
    Answers (.mcPairDropReq e msg pick) s fun d =>
      (d.port p).lastReqIn = some f.1 ∧
      (d.port p).partnerDrop = some ⟨f.1, keep, f.2.2, 0⟩ ∧
      (d.port p).dropAns = some ⟨f.1, keep, cw % 256, cw⟩ ∧
      (d.port p).outDrop = (s.chip.port p).outDrop ++ [pairDropMsg true f.1 (s.chip.keepOut p keep) (cw % 256)] ∧
      (d.port p).dropReq = ((s.chip.port p).intersect keep).dropReq ∧
      (d.port p).link = (s.chip.port p).link ∧
      (s.chip.Keeps d fun _ => False)) ∧
  (∀ (e : PeNo) (msg : BitVec 128) (pick : BitVec 8) (s : State),
    let p := s.chip.portOf e;
    let f := dropFields msg;
    let mine := (s.chip.port p).kept.filter fun x => !s.chip.criterion x;
    let keep := (s.chip.keepIn p f.2.1).filter fun x => mine.contains x;
      s.chip.laneLive e = true →
      (s.chip.port p).link = .up →
      mgmtCheck msg = true →
      mgmtType msg = 0x02 →
      (s.chip.port p).lastReqIn ≠ some f.1 →
      keep.length < s.chip.rd .PORT_MIN_PAIRS p →
    Answers (.mcPairDropReq e msg pick) s fun d =>
      (d.port p).link = .brk ∧
      d.rd .LINK_DOWN_CAUSE p = 0x04 ∧
      Counts s.chip d .LINK_DOWN_COUNT p 1) ∧
  (∀ (e : PeNo) (msg : BitVec 128) (r : DropReq) (s : State),
    let p := s.chip.portOf e;
    let f := dropFields msg;
    let keep := (s.chip.keepIn p f.2.1).filter fun x => r.keep.contains x;
      s.chip.laneLive e = true →
      mgmtCheck msg = true →
      mgmtType msg = 0x03 →
      (s.chip.port p).dropReq = some r →
      (s.chip.port p).dropAcked = false →
      r.id = f.1 →
      keep ≠ [] →
      s.chip.rd .PORT_MIN_PAIRS p ≤ keep.length →
    Answers (.mcPairDropAck e msg) s fun d =>
      d.port p = { (s.chip.port p).intersect keep with dropAcked := true, partnerAns := some ⟨f.1, keep, f.2.2, 0⟩ } ∧
      s.chip.OnlyPort d p ∧
      (s.chip.Keeps d fun _ => False)) ∧
  (∀ (p : PortNo) (r : DropReq) (s : State), ((s.chip.port p).link = .up ∨ (s.chip.port p).link = .trainT3) →
      (s.chip.port p).dropReq = some r →
      (s.chip.port p).dropAns = none →
      (s.chip.port p).dropAcked = true →
    Answers (.pairDropSwitch p true) s fun d =>
      ((d.port p).lanes = (s.chip.port p).lanes.filter fun e => r.keep.contains e) ∧
      (d.port p).dropReq = none ∧
      (d.port p).dropAcked = false ∧
      (d.port p).link = (s.chip.port p).link ∧
      (∀ e ∈ (s.chip.port p).lanes, e ∉ r.keep → (d.pe e).dropped = true ∧ (d.pe e).retained = false)) ∧
  (∀ (p : PortNo) (r : DropReq) (s : State), ((s.chip.port p).link = .up ∨ (s.chip.port p).link = .trainT3) →
      (s.chip.port p).dropReq = none →
      (s.chip.port p).dropAns = some r →
    Answers (.pairDropSwitch p true) s fun d =>
      ((d.port p).lanes = (s.chip.port p).lanes.filter fun e => r.keep.contains e) ∧
      (d.port p).dropAns = none ∧
      (d.port p).link = (s.chip.port p).link ∧
      (∀ e ∈ (s.chip.port p).lanes, e ∉ r.keep → (d.pe e).dropped = true ∧ (d.pe e).retained = false)) ∧
  (∀ (p : PortNo) (r : DropReq) (s : State), (s.chip.port p).link = .up →
      (s.chip.port p).dropReq = some r →
      (s.chip.port p).dropAns = none →
      (s.chip.port p).dropAcked = false →
    Answers (.pairDropSwitch p true) s fun d =>
      (d.port p).link = .brk ∧
      d.rd .LINK_DOWN_CAUSE p = 0x05 ∧
      Counts s.chip d .LINK_DOWN_COUNT p 1) ∧
  (∀ (p : PortNo) (r : DropReq) (s : State), ((s.chip.port p).link = .up ∨ (s.chip.port p).link = .trainT3) →
      (s.chip.port p).partnerDrop = some r →
    Answers (.pairDropSwitch p false) s fun d =>
      (d.port p = { s.chip.port p with rxLanes := (s.chip.port p).rxLanes.filter fun e => r.keep.contains e, partnerDrop := none }) ∧
      s.chip.OnlyPort d p ∧
      (s.chip.Keeps d fun k => k.reg = .PE_RX_LANE))

/-- R38, R39, R102 to R106, Table 2-6: lane status and precoder messages, the start of an update, and its switch. -/
def Obligations.LaneMessagesAndPrecoderUpdates : Prop :=
  (∀ (e : PeNo) (msg : BitVec 128) (s : State), s.chip.laneLive e = true →
      mgmtCheck msg = true →
      mgmtType msg = 0x01 →
    Answers (.mcLaneStatus e msg) s fun d =>
      d.pe e = { s.chip.pe e with partnerMargin := toInt 16 (bits msg.toNat 111 96), partnerIter := bits msg.toNat 95 88, t3Partner := (d.pe e).t3Partner } ∧
      s.chip.OnlyPe d e ∧
      (s.chip.Keeps d fun _ => False)) ∧
  (∀ (e : PeNo) (msg : BitVec 128) (u : PreOut) (s : State), s.chip.laneLive e = true →
      mgmtCheck msg = true →
      mgmtType msg = 0x04 →
      bits msg.toNat 111 106 = 0 →
      (s.chip.pe e).preOut = some u →
      u.id = bits msg.toNat 119 112 →
      u.switchSeq = bits msg.toNat 23 16 →
    Answers (.mcPrecoder e msg) s fun d =>
      d.pe e = { s.chip.pe e with preOut := some { u with acked := true } } ∧
      s.chip.OnlyPe d e ∧
      (s.chip.Keeps d fun _ => False)) ∧
  (∀ (e : PeNo) (msg : BitVec 128) (m : LineMode) (s : State),
    let first := bits msg.toNat 111 106;
      s.chip.laneLive e = true →
      mgmtCheck msg = true →
      mgmtType msg = 0x04 →
      first ≠ 0 →
      (s.chip.port (s.chip.portOf e)).mode = some m →
      (s.chip.pe e).preIn = none →
    Answers (.mcPrecoder e msg) s fun d =>
      (∃ u, (d.pe e).preIn = some u ∧ u.id = bits msg.toNat 119 112 ∧ u.switchSeq = bits msg.toNat 23 16 ∧ ∀ k : Fin 5, u.taps.getD (first + k) 0 = (if first + k ≤ m.preTaps then bits msg.toNat (103 - 16 * k) (88 - 16 * k) else 0)) ∧
      s.chip.OnlyPe d e ∧
      (s.chip.Keeps d fun _ => False)) ∧
  (∀ (e : PeNo) (taps : List (BitVec 16)) (pick : BitVec 8) (m : LineMode) (s : State), s.chip.up (s.chip.portOf e) = true →
      s.chip.laneLive e = true →
      (s.chip.pe e).dropped = false →
      (s.chip.port (s.chip.portOf e)).mode = some m →
      taps.length = m.preTaps →
      (s.chip.pe e).preOut = none →
      (∀ r, (s.chip.pe e).preLast = some r → r + 16000000 ≤ s.chip.root) →
      (∃ k, k < taps.length ∧ 16 < tapDiff ((taps.map BitVec.toNat).getD k 0) ((s.chip.pe e).reqTaps.getD k 0)) →
    Answers (.precoderUpdateStart e taps pick) s fun d =>
      (d.pe e).newTaps = taps.map BitVec.toNat ∧
      (d.pe e).preId = ((s.chip.pe e).preId + 1) % 256 ∧
      (d.pe e).preOut = some ⟨((s.chip.pe e).preId + 1) % 256, ((s.chip.pe e).rxSeq + 255 + 112 + pick.toNat % 81) % 256, false⟩ ∧
      (d.pe e).preSend = precoderFirsts m.preTaps ∧
      (s.chip.Keeps d fun _ => False)) ∧
  (∀ (e : PeNo) (u : PreIn) (m : LineMode) (s : State), (s.chip.pe e).preIn = some u →
      (s.chip.port (s.chip.portOf e)).mode = some m →
      (u.taps.map Prod.fst = (List.range m.preTaps).map fun k => k + 1) →
      s.chip.rdBool .PE_COEF_FREEZE e = false →
      s.chip.up (s.chip.portOf e) = true →
    Answers (.precoderSwitch e true) s fun d =>
      (∀ k, k < m.preTaps → (d.pe e).word (0x90 + k) = u.taps.getD (k + 1) 0 % 65536) ∧
      (d.pe e).preIn = none ∧
      Counts s.chip d .PE_PRECODER_APPLIED e 1 ∧
      Stays s.chip d .PE_PRECODER_ABANDONED e ∧
      s.chip.OnlyPe d e ∧
      (s.chip.Keeps d fun k => k = ⟨.PE_PRECODER_APPLIED, e, 0⟩)) ∧
  (∀ (e : PeNo) (u : PreIn) (m : LineMode) (s : State), (s.chip.pe e).preIn = some u →
      (s.chip.port (s.chip.portOf e)).mode = some m →
      u.taps.length ≠ m.preTaps →
    Answers (.precoderSwitch e true) s fun d =>
      d.pe e = { s.chip.pe e with preIn := none } ∧
      Counts s.chip d .PE_PRECODER_ABANDONED e 1 ∧
      s.chip.OnlyPe d e ∧
      (s.chip.Keeps d fun k => k = ⟨.PE_PRECODER_ABANDONED, e, 0⟩)) ∧
  (∀ (e : PeNo) (u : PreOut) (s : State), (s.chip.port (s.chip.portOf e)).mode ≠ none →
      (s.chip.pe e).preOut = some u →
      u.acked = true →
      (s.chip.pe e).preSend = [] →
      s.chip.rdBool .PE_COEF_FREEZE e = false →
    Answers (.precoderSwitch e false) s fun d =>
      d.pe e = { s.chip.pe e with preOut := none, preLast := some s.chip.root, reqTaps := (s.chip.pe e).newTaps } ∧
      s.chip.OnlyPe d e ∧
      (s.chip.Keeps d fun _ => False)) ∧
  (∀ (e : PeNo) (u : PreOut) (s : State), (s.chip.port (s.chip.portOf e)).mode ≠ none →
      (s.chip.pe e).preOut = some u →
      u.acked = false →
      s.chip.rdBool .PE_COEF_FREEZE e = false →
      s.chip.up (s.chip.portOf e) = true →
    Answers (.precoderSwitch e false) s fun d =>
      (d.pe e).reqTaps = (s.chip.pe e).reqTaps ∧
      (d.pe e).newTaps = (s.chip.pe e).newTaps ∧
      (∃ k, k ≤ 80 ∧ (d.pe e).preOut = some ⟨((s.chip.pe e).preId + 1) % 256, ((s.chip.pe e).rxSeq + 255 + 112 + k) % 256, false⟩) ∧
      (s.chip.Keeps d fun k => k = ⟨.PE_PRECODER_ABANDONED, e, 0⟩))

/-- R96, R98, R109, R111, R112, R115: refreshes of the store, its write-back, and the freeze of adaptation. -/
def Obligations.CoefficientStoreIsKept : Prop :=
  (∀ (e : PeNo) (row : Fin 2048) (s : State),
    Answers (.storeRefresh e row .clean) s fun d =>
      d.bare = s.chip.bare ∧
      (s.chip.ChangesOnly d fun _ => False)) ∧
  (∀ (e : PeNo) (row : Fin 2048) (s : State), s.chip.refreshed e = true →
    Answers (.storeRefresh e row .corrected) s fun d =>
      Counts s.chip d .PE_STORE_SEC_COUNT e 1 ∧
      (s.chip.ChangesOnly d fun k => k = ⟨.PE_STORE_SEC_COUNT, e, 0⟩)) ∧
  (∀ (e : PeNo) (row : Fin 2048) (s : State), s.chip.refreshed e = true →
    Answers (.storeRefresh e row .uncorrectable) s fun d =>
      Counts s.chip d .PE_STORE_DED_COUNT e 1 ∧
      d.rdBit .PE_STORE_STATUS 3 e = true ∧
      (d.pe e).retained = false ∧
      (∀ k : Fin 4, 4 * row.val + k.val ≠ 4 → (d.pe e).word (4 * row.val + k.val) = 0)) ∧
  (∀ (t : TileNo) (s : State), s.chip.rdInt .TILE_TEMP t ≤ 83 * 16 →
    Answers (.refreshSlowReturn t) s fun d =>
      (∀ k : Fin 32, d.rdBit .PE_STORE_STATUS 0 (32 * t.val + k.val) = false) ∧
      (s.chip.ChangesOnly d fun k => k.reg = .PE_STORE_STATUS ∧ tileOf k.inst = t.val)) ∧
  (∀ (e : PeNo) (w : BitVec 13 × BitVec 16) (s : State), s.chip.adaptsWord e w.1.toNat = true →
    Answers (.coefWriteback e [w]) s fun d =>
      (d.pe e).word w.1.toNat = w.2.toNat ∧
      (d.pe e).copies = [] ∧
      (d.pe e).adapting = true ∧
      s.chip.OnlyPe d e ∧
      (s.chip.Keeps d fun _ => False)) ∧
  (∀ (e : PeNo) (v : BitVec 8) (s : State), s.chip.asleep .PE_COEF_FREEZE e = false →
      v.toNat ≤ 1 →
      s.chip.up (s.chip.portOf e) = true →
    Answers (.peCoefFreezeWrite e v) s fun d =>
      d.accepted ∧
      d.rd .PE_COEF_FREEZE e = v.toNat ∧
      d.pe e = { (s.chip.pe e).writeBack with adapting := decide (v = 0) && (s.chip.port (s.chip.portOf e)).lanes.contains e.val } ∧
      s.chip.OnlyPe d e ∧
      (s.chip.Keeps d fun k => k = ⟨.PE_COEF_FREEZE, e, 0⟩)) ∧
  (∀ (e : PeNo) (v : BitVec 8) (s : State), s.chip.asleep .PE_COEF_FREEZE e = false →
      v.toNat ≤ 1 →
      s.chip.up (s.chip.portOf e) = false →
    Answers (.peCoefFreezeWrite e v) s fun d =>
      s.chip.TurnedAway d .state) ∧
  (∀ (e : PeNo) (s : State), s.chip.rdBool .PE_COEF_FREEZE e = true →
    Answers (.coefFreezeExpire e) s fun d =>
      d.rd .PE_COEF_FREEZE e = 0 ∧
      d.pe e = { s.chip.pe e with adapting := (s.chip.port (s.chip.portOf e)).lanes.contains e.val } ∧
      s.chip.OnlyPe d e ∧
      (s.chip.Keeps d fun k => k = ⟨.PE_COEF_FREEZE, e, 0⟩))

/-- R108, R117, R172: a margin window gives its measurements; captures start by their trigger and end with 1,024 samples. -/
def Obligations.MeasurementsAndCapturesAreShown : Prop :=
  (∀ (e : PeNo) (pick : BitVec 8) (m : WindowMeas) (k : LineMode) (s : State),
    let p := s.chip.portOf e;
      (s.chip.port p).link = .up →
      (s.chip.port p).mode = some k →
      (s.chip.port p).lanes.contains e.val = true →
      s.chip.rxQuiet p = false →
      (k.refSnr ≤ m.snr ∨ (s.chip.pe e).lowWindows < 31) →
    Answers (.marginWindowEnd e m pick) s fun d =>
      d.rd .PE_SNR e = ofInt (Reg.width .PE_SNR) m.snr ∧
      d.rd .PE_MARGIN e = ofInt (Reg.width .PE_MARGIN) (m.snr - k.refSnr) ∧
      d.rd .PE_ECHO_RESIDUAL e = ofInt (Reg.width .PE_ECHO_RESIDUAL) m.echo ∧
      d.rd .PE_PGA_GAIN e = m.pga % 2 ^ Reg.width .PE_PGA_GAIN ∧
      d.rd .PE_TIMING_PHASE e = m.phase % 65536 / 1024 * 1024 ∧
      d.rd .PE_FREQ_OFFSET e = ofInt (Reg.width .PE_FREQ_OFFSET) (max (-k.freqRange) (min k.freqRange m.freq)) ∧
      d.rd .PE_LDPC_ITER_MEAN e = m.iterMean % 2 ^ Reg.width .PE_LDPC_ITER_MEAN ∧
      d.rd .PE_RX_SKEW e = ofInt (Reg.width .PE_RX_SKEW) m.skew ∧
      ((d.pe e).lowWindows = (if m.snr < k.refSnr then (s.chip.pe e).lowWindows + 1 else 0)) ∧
      (d.port p).link = .up) ∧
  (∀ (e : PeNo) (s : State), s.chip.asleep .PE_CAPTURE_TRIGGER e = false →
      ((s.chip.port (s.chip.portOf e)).link = .trainT1 ∨ (s.chip.port (s.chip.portOf e)).link = .trainT2 ∨ (s.chip.port (s.chip.portOf e)).link = .trainT3 ∨ (s.chip.port (s.chip.portOf e)).link = .up) →
      (s.chip.pe e).capturing = none →
    Answers (.captureEqualised e) s fun d =>
      d.accepted ∧
      d.pe e = { s.chip.pe e with capturing := some 1 } ∧
      s.chip.OnlyPe d e ∧
      (s.chip.Keeps d fun _ => False)) ∧
  (∀ (e : PeNo) (s : State), s.chip.asleep .PE_CAPTURE_TRIGGER e = false →
      ((s.chip.port (s.chip.portOf e)).link = .trainT1 ∨ (s.chip.port (s.chip.portOf e)).link = .trainT2 ∨ (s.chip.port (s.chip.portOf e)).link = .trainT3 ∨ (s.chip.port (s.chip.portOf e)).link = .up) →
      (s.chip.pe e).capturing = none →
    Answers (.captureRaw e) s fun d =>
      d.accepted ∧
      d.pe e = { s.chip.pe e with capturing := some 2 } ∧
      s.chip.OnlyPe d e ∧
      (s.chip.Keeps d fun _ => False)) ∧
  (∀ (e : PeNo) (s : State), s.chip.asleep .PE_CAPTURE_TRIGGER e = false →
      ((s.chip.port (s.chip.portOf e)).link = .trainT1 ∨ (s.chip.port (s.chip.portOf e)).link = .trainT2 ∨ (s.chip.port (s.chip.portOf e)).link = .trainT3 ∨ (s.chip.port (s.chip.portOf e)).link = .up) →
      (s.chip.pe e).capturing ≠ none →
    Answers (.captureRaw e) s fun d =>
      s.chip.TurnedAway d .busy) ∧
  (∀ (e : PeNo) (samples : List (BitVec 16)) (k : Nat) (s : State), (s.chip.pe e).capturing = some k →
    Answers (.captureDone e samples) s fun d =>
      d.pe e = { s.chip.pe e with capturing := none } ∧
      (∀ i : Fin 1024, d.rd .PE_CAPTURE e i = (if k = 2 then ofInt 16 (toInt 8 ((samples.getD i 0).toNat % 256)) else (samples.getD i 0).toNat)) ∧
      s.chip.OnlyPe d e ∧
      (s.chip.Keeps d fun x => x.reg = .PE_CAPTURE ∧ x.inst = e.val))

/-- R56 to R63: a port in `AN_ABILITY` or `AN_NEXT_PAGE` goes on as the partner's pages, its FLP or its idle say. -/
def Obligations.NegotiationAdvances : Prop :=
  (∀ (p : PortNo) (pg : BasePage) (s : State), (s.chip.port p).link = .anAbility →
      (s.chip.port p).proto = .dme →
      pg.nextPage = true →
    Answers (.basePagesExchanged p pg) s fun d =>
      d.port p = { s.chip.port p with link := .anNextPage, lpi := (d.port p).lpi } ∧
      (d.port p).lpi.partnerW = false ∧
      (d.port p).lpi.partnerEee = false ∧
      d.rd .AN_PARTNER_ABILITY p = 0 ∧
      s.chip.OnlyPort d p ∧
      (s.chip.Keeps d fun k => k = ⟨.AN_PARTNER_ABILITY, p, 0⟩)) ∧
  (∀ (p : PortNo) (np : NextPages) (m : LineMode) (s : State),
    let partner := np.offered ((s.chip.port p).proto = .flp) (s.chip.rd .AN_PARTNER_ABILITY p);
      (s.chip.port p).link = .anNextPage →
      (((s.chip.offers p).find? fun k => partner.testBit k.abilityBit) = some m) →
      m.isW = false →
      s.chip.levelInForce (tileOf p) m = true →
    Answers (.nextPagesDone p np) s fun d =>
      (d.port p).link = .stdTrain ∧
      (d.port p).mode = some m ∧
      (d.port p).fast = false ∧
      d.rd .TRAIN_SOURCE p = 4 ∧
      d.rd .AN_PARTNER_ABILITY p = partner % 65536 ∧
      (d.rd .MS_RESULT p = (if m = .t100 then 0 else msResolve (s.chip.rd .MS_CONFIG p) np.ms.val np.seed % 256)) ∧
      d.rdBit .AN_STATUS 0 p = true ∧
      Counts s.chip d .TRAIN_COUNT p 1) ∧
  (∀ (p : PortNo) (np : NextPages) (m : LineMode) (s : State),
    let partner := np.offered ((s.chip.port p).proto = .flp) (s.chip.rd .AN_PARTNER_ABILITY p);
      (s.chip.port p).link = .anNextPage →
      (((s.chip.offers p).find? fun k => partner.testBit k.abilityBit) = some m) →
      m.isW = true →
      s.chip.levelInForce (tileOf p) m = true →
      s.chip.rdBool .FAST_RETRAIN_ENABLE p = false →
    Answers (.nextPagesDone p np) s fun d =>
      (d.port p).link = .trainT0 ∧
      (d.port p).mode = some m ∧
      (d.port p).fast = false ∧
      (d.port p).lanes = s.chip.usablePes p ∧
      d.rd .MS_RESULT p = 0 ∧
      d.rdBit .AN_STATUS 0 p = true ∧
      Counts s.chip d .TRAIN_COUNT p 1) ∧
  (∀ (p : PortNo) (np : NextPages) (s : State),
    let partner := np.offered ((s.chip.port p).proto = .flp) (s.chip.rd .AN_PARTNER_ABILITY p);
      (s.chip.port p).link = .anNextPage →
      (((s.chip.offers p).find? fun k => partner.testBit k.abilityBit) = none) →
    Answers (.nextPagesDone p np) s fun d =>
      (d.port p).link = .fail ∧
      d.rd .LINK_DOWN_CAUSE p = 0x0A ∧
      d.rd .AN_PARTNER_ABILITY p = partner % 65536) ∧
  (∀ (p : PortNo) (s : State), (s.chip.port p).link = .anAbility →
      s.chip.width p = 2 →
      (s.chip.port p).proto = .dme →
      s.chip.rd .PORT_ABILITY p &&& 0x701 ≠ 0 →
    Answers (.flpDetected p) s fun d =>
      d.port p = { s.chip.port p with proto := .flp } ∧
      d.rdBit .AN_STATUS 2 p = false ∧
      s.chip.OnlyPort d p ∧
      (s.chip.Keeps d fun k => k = ⟨.AN_STATUS, p, 0⟩)) ∧
  (∀ (p : PortNo) (s : State), (s.chip.port p).link = .anAbility →
      s.chip.mayRun p .t100 = true →
      s.chip.levelInForce (tileOf p) .t100 = true →
    Answers (.parallelDetect p) s fun d =>
      (d.port p).link = .stdTrain ∧
      (d.port p).mode = some .t100 ∧
      (d.port p).lanes = [p.val, p.val + 1] ∧
      d.rdBit .AN_STATUS 1 p = true ∧
      d.rd .AN_PARTNER_ABILITY p = 1 ∧
      d.rd .MS_RESULT p = 0 ∧
      d.rd .TRAIN_SOURCE p = 4 ∧
      Counts s.chip d .TRAIN_COUNT p 1)

/-- R66 to R75, R79, R434: the phases of a training follow one another, and its end is the entry to `LINK_UP`. -/
def Obligations.TrainingAdvances : Prop :=
  (∀ (p : PortNo) (r : T0Probe) (m : LineMode) (s : State), (s.chip.port p).link = .trainT0 →
      (s.chip.port p).mode = some m →
      ((s.chip.port p).fast = true ∨ s.chip.rdBool .TRAIN_CLASS_GATE p = false) →
    Answers (.t0TimerEnd p r) s fun d =>
      (d.port p).link = .trainT1 ∧
      (d.port p).mode = some m ∧
      (d.port p).fast = (s.chip.port p).fast ∧
      ((s.chip.port p).fast = false → d.rd .TRAIN_SOURCE p = 2 ∨ d.rd .TRAIN_SOURCE p = 3)) ∧
  (∀ (p : PortNo) (r : T1Result) (s : State), (s.chip.port p).link = .trainT1 →
      (∀ e ∈ (s.chip.port p).lanes, (measOf r.meas p e).freq.natAbs ≤ 50000) →
    Answers (.t1Converged p r) s fun d =>
      (d.port p).link = .trainT2 ∧
      ((d.port p).ownKeep = (s.chip.port p).lanes.foldl (fun a e => a ||| 2 ^ laneIndex p e) 0) ∧
      (d.port p).nonce < 65536 ∧
      (d.port p).gotBase = false ∧
      (((s.chip.port p).fast = false → 1 ≤ (d.port p).epoch ∧ (d.port p).epoch ≤ 4095))) ∧
  (∀ (p : PortNo) (conv : BitVec 4) (r : T1Result) (s : State), (s.chip.port p).link = .trainT1 →
      (s.chip.port p).lanes ≠ [] →
      (∀ e ∈ (s.chip.port p).lanes, conv.toNat.testBit (laneIndex p e) = true ∧ (measOf r.meas p e).freq.natAbs ≤ 50000) →
    Answers (.t1Timeout p conv r) s fun d =>
      (d.port p).link = .trainT2 ∧
      (d.port p).gotBase = false ∧
      (d.port p).lanes = (s.chip.port p).lanes) ∧
  (∀ (e : PeNo) (v : BitVec 160) (s : State), (s.chip.port (s.chip.portOf e)).link = .trainT2 →
      (s.chip.port (s.chip.portOf e)).lanes.contains e.val = true →
      ifCheck v = true →
      ifField v 159 156 = 1 →
      (s.chip.port (s.chip.portOf e)).ifAck = false →
    Answers (.infofieldReceived e v v v) s fun d =>
      d.pe e = (s.chip.pe e).takeSeg (ifField v 151 144) (ifField v 143 16) ∧
      (d.port (s.chip.portOf e)).link = .trainT2 ∧
      (s.chip.Keeps d fun _ => False)) ∧
  (∀ (e : PeNo) (v : BitVec 160) (s : State),
    let p := s.chip.portOf e;
      (s.chip.port p).link = .trainT2 →
      (s.chip.port p).lanes.contains e.val = true →
      ifCheck v = true →
      ifField v 159 156 = 0 →
      ifField v 155 154 = 2 →
      (s.chip.port p).fast = false →
      ifField v 63 52 ≠ 0 →
      ifField v 138 138 = 0 →
      ifField v 143 141 = s.chip.width p →
      (∀ x ∈ (s.chip.port p).lanes, (s.chip.port p).ownKeep.testBit (laneIndex p x) = true) →
      ifField v 51 36 ≠ (s.chip.port p).nonce →
      ifField v 153 153 = 0 →
    Answers (.infofieldReceived e v v v) s fun d =>
      (d.port p).link = .trainT2 ∧
      (d.port p).gotBase = true ∧
      (d.port p).ifNonce = ifField v 51 36 ∧
      (d.port p).ifEpoch = ifField v 63 52 ∧
      (d.port p).ifKeep = ifField v 137 134 ∧
      (d.port p).downshiftAgreed = false ∧
      (d.pe e).ifLane = some (ifField v 140 139) ∧
      (d.pe e).ifSeed = ifField v 121 64 ∧
      d.rd .PE_RX_SCR_SEED e = ifField v 121 64 ∧
      (d.port p).nonce = (s.chip.port p).nonce ∧
      (s.chip.Keeps d fun k => k = ⟨.PE_RX_SCR_SEED, e, 0⟩ ∨ k = ⟨.PE_RX_LANE, e, 0⟩)) ∧
  (∀ (e : PeNo) (v : BitVec 160) (s : State),
    let p := s.chip.portOf e;
      (s.chip.port p).link = .trainT3 →
      (s.chip.port p).lanes.contains e.val = true →
      ifCheck v = true →
      ifField v 159 156 = 0 →
      ifField v 155 154 = 3 →
      (ifField v 63 52 ≠ 0 ∨ (s.chip.port p).fast = true) →
    Answers (.infofieldReceived e v v v) s fun d =>
      d.port p = { s.chip.port p with rxAt := some (s.chip.root + ifField v 133 130 * s.chip.frameEdges p) } ∧
      (∀ x ∈ (s.chip.port p).rxLanes, (d.pe x).rxScr = BitVec.ofNat 58 (s.chip.pe x).ifSeed ∧ (d.pe x).rxSeq = 0 ∧ d.rd .PE_LANE_STATUS x = 1) ∧
      (s.chip.Keeps d fun k => k.reg = .PE_LANE_STATUS)) ∧
  (∀ (p : PortNo) (s : State), (s.chip.port p).link = .trainT3 →
      (s.chip.port p).pam16 = false →
    Answers (.countdownEnd p) s fun d =>
      d.port p = { s.chip.port p with pam16 := true, seqAt := s.chip.pamEdge p } ∧
      (∀ e ∈ (s.chip.port p).lanes, (d.pe e).hist = [] ∧ (d.pe e).msgOut = none) ∧
      (s.chip.Keeps d fun _ => False)) ∧
  (∀ (p : PortNo) (pick : BitVec 8) (m : LineMode) (r : Nat) (s : State),
    let ms := (s.chip.port p).lanes.filterMap fun e => (s.chip.pe e).t3Margin;
      (s.chip.port p).link = .trainT3 →
      (s.chip.port p).pam16 = true →
      (s.chip.port p).rxAt = some r →
      r ≤ s.chip.root →
      (s.chip.port p).mode = some m →
      (s.chip.port p).lanes ≠ [] →
      (∀ e ∈ (s.chip.port p).lanes, (s.chip.pe e).t3Bad = false ∧ (s.chip.rdInt .PE_RX_SKEW e).natAbs ≤ s.chip.frameEdges p ∧ ∃ a, a ∈ (s.chip.pe e).t3Margin ∧ 768 ≤ a) →
      (∀ e ∈ (s.chip.port p).lanes, ∃ b, b ∈ (s.chip.pe e).t3Partner ∧ 768 ≤ b) →
    Answers (.t3VerifyPass p pick) s fun d =>
      (d.port p).link = .up ∧
      (d.port p).noFast = false ∧
      d.rd .T3_MARGIN_MIN p = ofInt (Reg.width .T3_MARGIN_MIN) (ms.foldl min (ms.headD 0)) ∧
      d.rd .TIME_LAST_UP p = s.chip.now96 % 2 ^ 96) ∧
  (∀ (p : PortNo) (m : LineMode) (s : State), (s.chip.port p).link = .stdTrain →
      (s.chip.port p).mode = some m →
    Answers (.stdTrainComplete p true) s fun d =>
      (d.port p).link = .up ∧
      (d.port p).mode = some m ∧
      d.rd .TIME_LAST_UP p = s.chip.now96 % 2 ^ 96)

/-- R73, R75, R78, R82, R86: a failed fast retrain is counted as such with cause RETRAIN_FAIL; a failed full training is
counted with its cause; the port enters `LINK_BREAK`. -/
def Obligations.FailedTrainingIsCounted : Prop :=
  (∀ (p : PortNo) (s : State), (s.chip.port p).link = .trainT2 →
      (s.chip.port p).gotBase = true →
      (s.chip.port p).fast = true →
    Answers (.t2Timeout p) s fun d =>
      (d.port p).link = .brk ∧
      (d.port p).noFast = true ∧
      d.rd .LINK_DOWN_CAUSE p = 0x0F ∧
      Counts s.chip d .FAST_FAIL_COUNT p 1 ∧
      Stays s.chip d .TRAIN_FAIL_COUNT p) ∧
  (∀ (p : PortNo) (s : State), (s.chip.port p).link = .trainT2 →
      (s.chip.port p).gotBase = true →
      (s.chip.port p).fast = false →
      s.chip.rdBool .DOWNSHIFT_ENABLE p = false →
    Answers (.t2Timeout p) s fun d =>
      (d.port p).link = .brk ∧
      d.rd .LINK_DOWN_CAUSE p = 0x0C ∧
      Counts s.chip d .TRAIN_FAIL_COUNT p 1 ∧
      Stays s.chip d .DOWNSHIFT_CEILING p) ∧
  (∀ (p : PortNo) (failed : BitVec 4) (s : State), (s.chip.port p).link = .trainT3 →
      (s.chip.port p).fast = true →
    Answers (.t3Timeout p failed) s fun d =>
      (d.port p).link = .brk ∧
      (d.port p).noFast = true ∧
      d.rd .LINK_DOWN_CAUSE p = 0x0F ∧
      Counts s.chip d .FAST_FAIL_COUNT p 1 ∧
      Stays s.chip d .TRAIN_FAIL_COUNT p) ∧
  (∀ (p : PortNo) (failed : BitVec 4) (s : State), (s.chip.port p).link = .trainT3 →
      (s.chip.port p).fast = false →
      s.chip.rdBool .DOWNSHIFT_ENABLE p = false →
    Answers (.t3Timeout p failed) s fun d =>
      (d.port p).link = .brk ∧
      d.rd .LINK_DOWN_CAUSE p = 0x0C ∧
      Counts s.chip d .TRAIN_FAIL_COUNT p 1 ∧
      Stays s.chip d .DOWNSHIFT_CEILING p) ∧
  (∀ (p : PortNo) (s : State), ((s.chip.port p).link = .trainT1 ∨ (s.chip.port p).link = .trainT2 ∨ (s.chip.port p).link = .trainT3) →
      (s.chip.port p).fast = true →
    Answers (.partnerLost p) s fun d =>
      (d.port p).link = .brk ∧
      (d.port p).noFast = true ∧
      d.rd .LINK_DOWN_CAUSE p = 0x0F ∧
      Counts s.chip d .FAST_FAIL_COUNT p 1 ∧
      Stays s.chip d .TRAIN_FAIL_COUNT p) ∧
  (∀ (p : PortNo) (s : State), ((s.chip.port p).link = .trainT1 ∨ (s.chip.port p).link = .trainT2 ∨ (s.chip.port p).link = .trainT3) →
      (s.chip.port p).fast = false →
      s.chip.rdBool .DOWNSHIFT_ENABLE p = false →
    Answers (.partnerLost p) s fun d =>
      (d.port p).link = .brk ∧
      d.rd .LINK_DOWN_CAUSE p = 0x0D ∧
      Counts s.chip d .TRAIN_FAIL_COUNT p 1 ∧
      Stays s.chip d .DOWNSHIFT_CEILING p) ∧
  (∀ (p : PortNo) (s : State), (s.chip.port p).link = .trainT0 →
      (s.chip.port p).fast = true →
    Answers (.fastRetrainNoReply p) s fun d =>
      (d.port p).link = .brk ∧
      (d.port p).noFast = true ∧
      d.rd .LINK_DOWN_CAUSE p = 0x0F ∧
      Counts s.chip d .FAST_FAIL_COUNT p 1) ∧
  (∀ (p : PortNo) (s : State), (s.chip.port p).link = .stdTrain →
      s.chip.rdBool .DOWNSHIFT_ENABLE p = false →
    Answers (.stdTrainComplete p false) s fun d =>
      (d.port p).link = .brk ∧
      d.rd .LINK_DOWN_CAUSE p = 0x07 ∧
      Counts s.chip d .TRAIN_FAIL_COUNT p 1)

/-- R78, R80, R81, R82, R83: a standard link that goes down breaks with its cause; after the break, and after the time in
`LINK_FAIL`, negotiation starts; a ceiling is reset; a wake pattern starts a fast retrain. -/
def Obligations.LinkEndsAndStartsAgain : Prop :=
  (∀ (p : PortNo) (m : LineMode) (s : State), (s.chip.port p).link = .up →
      (s.chip.port p).mode = some m →
      m.isW = false →
    Answers (.stdLinkFail p) s fun d =>
      (d.port p).link = .brk ∧
      (d.port p).noFast = false ∧
      d.rd .LINK_DOWN_CAUSE p = 0x07 ∧
      Counts s.chip d .LINK_DOWN_COUNT p 1) ∧
  (∀ (p : PortNo) (s : State), (s.chip.port p).link = .brk →
      (s.chip.port p).noFast = true →
      s.chip.forced p = none →
    Answers (.linkBreakEnd p) s fun d =>
      (d.port p).link = .anAbility ∧
      ((d.port p).proto = (if s.chip.width p = 4 then .flp else .dme)) ∧
      d.rd .AN_PARTNER_ABILITY p = 0 ∧
      d.rd .AN_PARTNER_WA p = 0 ∧
      (d.rd .AN_STATUS p = (if s.chip.width p = 4 then 0 else 4)) ∧
      s.chip.OnlyPort d p ∧
      (s.chip.Keeps d fun k => k.inst = p.val ∧ (k.reg = .AN_STATUS ∨ k.reg = .AN_PARTNER_ABILITY ∨ k.reg = .AN_PARTNER_WA))) ∧
  (∀ (p : PortNo) (s : State), (s.chip.port p).link = .fail →
    Answers (.linkFailEnd p) s fun d =>
      (d.port p).link = .anAbility ∧
      d.rd .DOWNSHIFT_CEILING p = 0xFF ∧
      d.rd .AN_PARTNER_ABILITY p = 0 ∧
      s.chip.OnlyPort d p) ∧
  (∀ (p : PortNo) (s : State),
    Answers (.noEnergy2s p) s fun d =>
      d.rd .DOWNSHIFT_CEILING p = 0xFF ∧
      (s.chip.ChangesOnly d fun k => k = ⟨.DOWNSHIFT_CEILING, p, 0⟩)) ∧
  (∀ (p : PortNo) (m : LineMode) (s : State), (s.chip.port p).link = .anAbility →
      (s.chip.port p).mode = some m →
      m.isW = true →
      s.chip.holdsRetained p m = true →
      s.chip.levelAllows (tileOf p) m = true →
      s.chip.levelInForce (tileOf p) m = true →
      (∀ e ∈ s.chip.laneSet p, (s.chip.pe e).retentionOk = true) →
    Answers (.wakePatternRetrain p) s fun d =>
      (d.port p).link = .trainT0 ∧
      (d.port p).fast = true ∧
      (d.port p).lanes = s.chip.laneSet p ∧
      d.rd .TRAIN_SOURCE p = 1 ∧
      d.rd .TRAIN_CLASS p = 0 ∧
      Counts s.chip d .FAST_COUNT p 1 ∧
      Stays s.chip d .TRAIN_COUNT p)

/-- R28, R32, R64, R77, R83 to R85: accepted writes of the port and formation objects set the object and act on the link;
values out of range are turned away. -/
def Obligations.LinkWritesAreCarriedOut : Prop :=
  (∀ (p : PortNo) (s : State), s.chip.asleep .TRAIN_RESTART p = false →
      (s.chip.port p).link ≠ .disabled →
      (s.chip.port p).link ≠ .held →
      (s.chip.port p).link ≠ .up →
    Answers (.trainRestartFull p) s fun d =>
      d.accepted ∧
      (d.port p).link = .brk ∧
      (d.port p).noFast = true ∧
      d.rd .LINK_DOWN_CAUSE p = 0x08 ∧
      d.rd .DOWNSHIFT_CEILING p = 0xFF ∧
      Stays s.chip d .PORT_MODE p) ∧
  (∀ (p : PortNo) (s : State), s.chip.asleep .TRAIN_RESTART p = false →
      (s.chip.port p).link ≠ .disabled →
      (s.chip.port p).link ≠ .held →
      (s.chip.port p).link ≠ .up →
    Answers (.trainRestartRenegotiate p) s fun d =>
      d.accepted ∧
      (d.port p).link = .brk ∧
      (d.port p).noFast = true ∧
      d.rd .LINK_DOWN_CAUSE p = 0x08 ∧
      d.rd .DOWNSHIFT_CEILING p = 0xFF ∧
      Stays s.chip d .PORT_MODE p) ∧
  (∀ (p : PortNo) (m : LineMode) (s : State), s.chip.asleep .TRAIN_RESTART p = false →
      (s.chip.port p).link = .up →
      (s.chip.port p).mode = some m →
      m.isW = true →
      s.chip.holdsRetained p m = true →
      s.chip.rdBool .FAST_RETRAIN_ENABLE p = true →
      s.chip.levelInForce (tileOf p) m = true →
      (s.chip.port p).lanes ≠ [] →
      (∀ e ∈ (s.chip.port p).lanes, e ∈ s.chip.pesOf p) →
    Answers (.trainRestartFast p) s fun d =>
      d.accepted ∧
      (d.port p).link = .trainT0 ∧
      (d.port p).fast = true ∧
      d.rd .LINK_DOWN_CAUSE p = 0x08 ∧
      Counts s.chip d .FAST_COUNT p 1 ∧
      Counts s.chip d .LINK_DOWN_COUNT p 1) ∧
  (∀ (p : PortNo) (v : BitVec 8) (s : State), s.chip.asleep .PORT_MODE p = false →
      ((v = 0 ∨ ∃ m ∈ LineMode.ranked, LineMode.ofCode v.toNat = some m ∧ (s.chip.width p = 0 ∨ (m.runsOn (s.chip.width p) = true ∧ s.chip.levelAllows (tileOf p) m = true)))) →
      (s.chip.port p).link ≠ .up →
      (s.chip.port p).link ≠ .held →
      ((s.chip.port p).link = .disabled → (s.chip.port p).waitLevel = false) →
    Answers (.portModeWrite p v) s fun d =>
      d.accepted ∧
      d.rd .PORT_MODE p = v.toNat ∧
      d.rd .DOWNSHIFT_CEILING p = 0xFF ∧
      ((d.port p).link = (if (s.chip.port p).link = .disabled then .disabled else .brk))) ∧
  (∀ (p : PortNo) (v : BitVec 8) (s : State), s.chip.asleep .PORT_MODE p = false →
      v ≠ 0 →
      LineMode.ofCode v.toNat = none →
    Answers (.portModeWrite p v) s fun d =>
      d.access = ⟨.range, []⟩ ∧
      s.chip.TurnedAway d .range) ∧
  (∀ (p : PortNo) (v : BitVec 16) (s : State), s.chip.asleep .PORT_ABILITY p = false →
      (s.chip.port p).link ≠ .up →
      (s.chip.port p).link ≠ .held →
      ((s.chip.port p).link = .disabled → (s.chip.port p).waitLevel = false) →
    Answers (.portAbilityWrite p v) s fun d =>
      d.accepted ∧
      d.rd .PORT_ABILITY p = v.toNat &&& 0x77F ∧
      d.rd .DOWNSHIFT_CEILING p = 0xFF ∧
      ((d.port p).link = (if (s.chip.port p).link = .disabled then .disabled else .brk))) ∧
  (∀ (p : PortNo) (s : State), s.chip.asleep .PORT_ENABLE p = false →
      s.chip.width p ≠ 0 →
    Answers (.portEnableWrite p 0) s fun d =>
      d.accepted ∧
      d.rd .PORT_ENABLE p = 0 ∧
      d.rd .DOWNSHIFT_CEILING p = 0xFF ∧
      (d.port p).link = .disabled) ∧
  (∀ (p : PortNo) (s : State), s.chip.asleep .PORT_ENABLE p = false →
      s.chip.width p ≠ 0 →
      s.chip.gatesOn p = true →
      (s.chip.port p).link = .disabled →
      s.chip.cfgApplied = true →
      s.chip.calReady p = true →
      s.chip.tileRuns (tileOf p) = true →
      s.chip.forced p = none →
    Answers (.portEnableWrite p 1) s fun d =>
      d.accepted ∧
      d.rd .PORT_ENABLE p = 1 ∧
      (d.port p).link = .anAbility) ∧
  (∀ (p : PortNo) (v : BitVec 8) (s : State), s.chip.asleep .PORT_ENABLE p = false →
      1 < v.toNat →
    Answers (.portEnableWrite p v) s fun d =>
      d.access = ⟨.range, []⟩ ∧
      s.chip.TurnedAway d .range) ∧
  (∀ (q : QuadNo) (v : BitVec 8) (s : State), s.chip.asleep .QUAD_FORMATION q = false →
      v.toNat ≤ 2 →
      (∀ p ∈ s.chip.portsOfQuad q, s.chip.rdBool .PORT_ENABLE p = false) →
    Answers (.quadFormationWrite q v) s fun d =>
      d.accepted ∧
      d.formation q = v.toNat ∧
      (∀ k : Fin 4, d.port (4 * q.val + k.val) = ({} : PortSt)) ∧
      (∀ k : Fin 4, d.width (4 * q.val + k.val) = widthIn v.toNat (4 * q.val + k.val)) ∧
      (∀ p, quadOf p ≠ q.val → d.port p = s.chip.port p))

/-- R124 to R127, R131, Tables 5-2 and 5-3: passes of a victim, and the states of its slots. -/
def Obligations.CancellerSlotsFollowTheirStates : Prop :=
  (∀ (v : PeNo) (s : State),
    let p := s.chip.portOf v;
      s.chip.up p = true →
      s.chip.ancMode v = true →
      s.chip.rdBool .ANC_ENABLE p = true →
      s.chip.tileRuns (tileOf v) = true →
      (s.chip.port p).lanes.contains v.val = true →
      (s.chip.ancOf v).passing = false →
      (∀ r, (s.chip.ancOf v).startAt = some r → r + 16000 * (1000 * s.chip.rd .ANC_SCAN_PERIOD) ≤ s.chip.root) →
    Answers (.ancPassStart v) s fun d =>
      d.ancOf v = { s.chip.ancOf v with passing := true, passFirst := !(s.chip.ancOf v).firstDone, cleared := false, startAt := some s.chip.root } ∧
      (d.bare = { s.chip.bare with anc := d.anc } ∧ ∀ w, w ≠ v.val → d.ancOf w = s.chip.ancOf w) ∧
      (s.chip.Keeps d fun _ => False)) ∧
  (∀ (v : PeNo) (ranked : List Candidate) (s : State), (s.chip.ancOf v).passing = true →
    Answers (.ancPassEnd v ranked) s fun d =>
      (d.ancOf v).passing = false ∧
      (d.ancOf v).firstDone = !(s.chip.ancOf v).cleared ∧
      Counts s.chip d .ANC_PASS_COUNT v 1) ∧
  (∀ (v : PeNo) (x : Candidate) (s : State), (s.chip.ancOf v).passing = true →
      (s.chip.ancOf v).slots = [] →
      s.chip.reach v x.pe = true →
      s.chip.rd .BIST_STATE_PE x.pe ≠ 2 →
      (s.chip.tile (tileOf x.pe)).st ≠ .isolated →
      s.chip.rdInt .ANC_ADMIT ≤ contribution x.x →
    Answers (.ancPassEnd v [x]) s fun d =>
      ((d.ancOf v).slot 0).state = .probation ∧
      ((d.ancOf v).slot 0).neighbour = x.pe.val ∧
      ((d.ancOf v).slot 0).lag = x.lag.val ∧
      ((d.ancOf v).slot 0).x = contribution x.x ∧
      ((d.ancOf v).slot 0).pinned = false ∧
      (d.ancOf v).full = false ∧
      Counts s.chip d .ANC_MAP_VERSION 0 1) ∧
  (∀ (v : PeNo) (k : Fin 8) (x : Int) (s : State), ((s.chip.ancOf v).slot k).state = .probation →
      s.chip.slotAdapts v k = true →
      s.chip.rdInt .ANC_ADMIT ≤ contribution x →
    Answers (.probationEnd v k x) s fun d =>
      (d.ancOf v).slot k = { (s.chip.ancOf v).slot k with state := .active, x := contribution x, below := false } ∧
      (∀ j, j ≠ k.val → (d.ancOf v).slot j = (s.chip.ancOf v).slot j) ∧
      Counts s.chip d .ANC_ADMIT_COUNT v 1 ∧
      (d.bare = { s.chip.bare with anc := d.anc } ∧ ∀ w, w ≠ v.val → d.ancOf w = s.chip.ancOf w) ∧
      (s.chip.Keeps d fun k => k = ⟨.ANC_ADMIT_COUNT, v, 0⟩)) ∧
  (∀ (v : PeNo) (k : Fin 8) (x : Int) (s : State), ((s.chip.ancOf v).slot k).state = .probation →
      s.chip.slotAdapts v k = true →
      contribution x < s.chip.rdInt .ANC_ADMIT →
      ((s.chip.ancOf v).slot k).pinned = false →
    Answers (.probationEnd v k x) s fun d =>
      (d.ancOf v).slot k = {} ∧
      (∀ w, 0x700 + 0x80 * k.val ≤ w → w < 0x780 + 0x80 * k.val → (d.pe v).word w = 0) ∧
      Counts s.chip d .ANC_MAP_VERSION 0 1 ∧
      Stays s.chip d .ANC_DROP_COUNT v) ∧
  (∀ (v : PeNo) (k : Fin 8)  (s : State),
    let x := (s.chip.ancOf v).slot k;
      x.state = .frozen →
      s.chip.signals x.neighbour x.mode = true →
      s.chip.up (s.chip.portOf x.neighbour) = true →
    Answers (.frozenThaw v k) s fun d =>
      (d.ancOf v).slot k = { x with state := .active } ∧
      Counts s.chip d .ANC_ADMIT_COUNT v 1 ∧
      (d.bare = { s.chip.bare with anc := d.anc } ∧ ∀ w, w ≠ v.val → d.ancOf w = s.chip.ancOf w) ∧
      (s.chip.Keeps d fun k => k = ⟨.ANC_ADMIT_COUNT, v, 0⟩)) ∧
  (∀ (v : PeNo) (k : Fin 8) (s : State),
    let x := (s.chip.ancOf v).slot k;
      x.state = .frozen →
      s.chip.up (s.chip.portOf x.neighbour) = false →
      s.chip.tileRuns (tileOf x.neighbour) = true →
      s.chip.pwr.state = .active →
      x.pinned = false →
    Answers (.ancHoldExpire v k) s fun d =>
      (d.ancOf v).slot k = {} ∧
      Counts s.chip d .ANC_DROP_COUNT v 1 ∧
      Counts s.chip d .ANC_MAP_VERSION 0 1)

/-- R128, R132, R134, R136: writes of slots, of the enable, of the map clear and of the map's persistence, and the copy of
the map. -/
def Obligations.CancellerWritesAreCarriedOut : Prop :=
  (∀ (v : PeNo) (row : Nat) (x : BitVec 64) (s : State),
    let n := bits x.toNat 56 48;
      row < 8 →
      s.chip.asleep .ANC_SLOT v = false →
      x.toNat.testBit 60 = true →
      s.chip.reach v n = true →
      (∀ j ∈ (s.chip.ancOf v).naming n, j = row) →
    Answers (.ancSlotWrite v row x) s fun d =>
      d.accepted ∧
      ((d.ancOf v).slot row).pinned = true ∧
      ((d.ancOf v).slot row).neighbour = n ∧
      ((d.ancOf v).slot row).state = .probation ∧
      (∀ j, j ≠ row → (d.ancOf v).slot j = (s.chip.ancOf v).slot j)) ∧
  (∀ (v : PeNo) (row : Nat) (x : BitVec 64) (s : State), row < 8 →
      s.chip.asleep .ANC_SLOT v = false →
      x.toNat.testBit 60 = false →
    Answers (.ancSlotWrite v row x) s fun d =>
      d.accepted ∧
      ((d.ancOf v).slot row).state = .empty ∧
      (∀ j, j ≠ row → (d.ancOf v).slot j = (s.chip.ancOf v).slot j)) ∧
  (∀ (v : PeNo) (row : Nat) (x : BitVec 64) (s : State), 8 ≤ row →
    Answers (.ancSlotWrite v row x) s fun d =>
      s.chip.TurnedAway d .row) ∧
  (∀ (p : PortNo) (s : State), s.chip.asleep .ANC_ENABLE p = false →
    Answers (.ancEnableWrite p 1) s fun d =>
      d.accepted ∧
      d.rd .ANC_ENABLE p = 1 ∧
      (s.chip.Keeps d fun k => k = ⟨.ANC_ENABLE, p, 0⟩)) ∧
  (∀ (p : PortNo) (s : State), s.chip.asleep .ANC_ENABLE p = false →
    Answers (.ancEnableWrite p 0) s fun d =>
      d.accepted ∧
      d.rd .ANC_ENABLE p = 0 ∧
      (∀ v ∈ s.chip.pesOf p, (d.ancOf v).passing = false ∧ ∀ k, k < 8 → ((s.chip.ancOf v).slot k).pinned = false → ((d.ancOf v).slot k).state = .empty)) ∧
  (∀ (s : State), s.chip.asleep .ANC_MAP_CLEAR 0 = false →
    Answers (.ancMapClear 1) s fun d =>
      d.accepted ∧
      (∀ v k, k < 8 → ((s.chip.ancOf v).slot k).pinned = false → ((d.ancOf v).slot k).state = .empty) ∧
      (∀ v, (d.ancOf v).firstDone = false)) ∧
  (∀ (x : BitVec 8) (s : State), s.chip.asleep .ANC_MAP_PERSIST 0 = false →
      x.toNat ≤ 1 →
    Answers (.ancMapPersistWrite x) s fun d =>
      d.accepted ∧
      d.rd .ANC_MAP_PERSIST = x.toNat ∧
      (d.nv.weave = (if x = 0 then none else s.chip.nv.weave)) ∧
      (s.chip.Keeps d fun k => k = ⟨.ANC_MAP_PERSIST, 0, 0⟩ ∨ k = ⟨.ANC_MAP_STATUS, 0, 0⟩)) ∧
  (∀ (s : State), s.chip.rdBool .ANC_MAP_PERSIST = true →
      s.chip.rdBit .ANC_MAP_STATUS 2 = true →
    Answers (.weaveMapCopyWrite) s fun d =>
      d.nv.weave = some s.chip.weaveEntries ∧
      d.rdBit .ANC_MAP_STATUS 2 = false ∧
      d.bare = { s.chip.bare with nv := { s.chip.nv with weave := some s.chip.weaveEntries } } ∧
      (s.chip.Keeps d fun k => k = ⟨.ANC_MAP_STATUS, 0, 0⟩))

/-- R140, R144, R145, R149, R150, Table 6-2: how a port asks for low-power idle, answers, and is answered. -/
def Obligations.SleepIsAgreedByMessages : Prop :=
  (∀ (p : PortNo) (id : BitVec 8) (s : State),
    let nid := if id.toNat = (s.chip.port p).lpi.reqId then (id.toNat + 1) % 256 else id.toNat;
      s.chip.maySleep p = true →
      (∀ r, (s.chip.port p).lpi.backFrom = some r → r + 1600000 ≤ s.chip.root) →
      s.chip.runsW p = true →
    Answers (.lpiSleepRequest p id) s fun d =>
      (d.port p).lpi.state = .sleep ∧
      (d.port p).lpi.asked = true ∧
      (d.port p).lpi.acked = false ∧
      (d.port p).lpi.reqId = nid ∧
      (d.port p).lpi.quietSeq = (s.chip.lpiCw p + s.chip.sleepCws p) % 256 ∧
      (d.port p).lpi.sent = 1 ∧
      ((∃ m, (s.chip.port p).mode = some m ∧ (d.port p).outLpi = (s.chip.port p).outLpi ++ [lpiMsg 1 nid ((s.chip.lpiCw p + s.chip.sleepCws p) % 256) m.code])) ∧
      (d.port p).link = .up ∧
      (s.chip.Keeps d fun k => k = ⟨.LPI_NEXT_WAKE, p, 0⟩)) ∧
  (∀ (p : PortNo) (id : BitVec 8) (s : State), s.chip.maySleep p = true →
      (∀ r, (s.chip.port p).lpi.backFrom = some r → r + 1600000 ≤ s.chip.root) →
      s.chip.runsW p = false →
    Answers (.lpiSleepRequest p id) s fun d =>
      (d.port p).lpi.state = .sleep ∧
      (d.port p).lpi.asked = true ∧
      (d.port p).lpi.acked = true ∧
      (s.chip.Keeps d fun k => k = ⟨.LPI_NEXT_WAKE, p, 0⟩)) ∧
  (∀ (p : PortNo) (msg : BitVec 128) (lane : Fin 4) (s : State), s.chip.lpiMsgOk p msg 1 = true →
      lane.val < (s.chip.port p).rxLanes.length →
      (s.chip.port p).lpi.reqIn ≠ some (lpiFields msg).2.1 →
      (s.chip.port p).lpi.state = .sleep →
      (s.chip.port p).lpi.asked = true →
    Answers (.sleepReq p msg lane) s fun d =>
      d.port p = { s.chip.port p with lpi := { (s.chip.port p).lpi with reqIn := some (lpiFields msg).2.1, acked := true, partnerSeq := some (lpiFields msg).2.2.1 } } ∧
      s.chip.OnlyPort d p ∧
      (s.chip.Keeps d fun _ => False)) ∧
  (∀ (p : PortNo) (msg : BitVec 128) (lane : Fin 4) (s : State), s.chip.lpiMsgOk p msg 1 = true →
      lane.val < (s.chip.port p).rxLanes.length →
      (s.chip.port p).lpi.reqIn ≠ some (lpiFields msg).2.1 →
      s.chip.maySleep p = true →
    Answers (.sleepReq p msg lane) s fun d =>
      (d.port p).lpi.state = .sleep ∧
      (d.port p).lpi.asked = false ∧
      (d.port p).lpi.acked = true ∧
      (d.port p).lpi.sent = 2 ∧
      (d.port p).lpi.reqIn = some (lpiFields msg).2.1 ∧
      (d.port p).lpi.partnerSeq = some (lpiFields msg).2.2.1 ∧
      (d.port p).lpi.quietSeq = (s.chip.lpiCw p + s.chip.sleepCws p) % 256 ∧
      (d.port p).outLpi = (s.chip.port p).outLpi ++ [lpiMsg 2 (lpiFields msg).2.1 ((s.chip.lpiCw p + s.chip.sleepCws p) % 256) (lpiFields msg).2.2.2]) ∧
  (∀ (p : PortNo) (msg : BitVec 128) (lane : Fin 4) (s : State), s.chip.lpiMsgOk p msg 1 = true →
      lane.val < (s.chip.port p).rxLanes.length →
      (s.chip.port p).lpi.reqIn ≠ some (lpiFields msg).2.1 →
      s.chip.maySleep p = false →
      (s.chip.port p).lpi.state ≠ .sleep →
    Answers (.sleepReq p msg lane) s fun d =>
      d.port p = { s.chip.port p with outLpi := (s.chip.port p).outLpi ++ [lpiMsg 3 (lpiFields msg).2.1 0 (lpiFields msg).2.2.2], lpi := { (s.chip.port p).lpi with reqIn := some (lpiFields msg).2.1, sent := 3 } } ∧
      s.chip.OnlyPort d p ∧
      (s.chip.Keeps d fun _ => False)) ∧
  (∀ (p : PortNo) (msg : BitVec 128) (s : State), s.chip.lpiMsgOk p msg 2 = true →
      (s.chip.port p).lpi.state = .sleep →
      (s.chip.port p).lpi.asked = true →
      (s.chip.port p).lpi.reqId = (lpiFields msg).2.1 →
    Answers (.sleepAck p msg) s fun d =>
      d.port p = { s.chip.port p with lpi := { (s.chip.port p).lpi with acked := true, partnerSeq := some (lpiFields msg).2.2.1 } } ∧
      s.chip.OnlyPort d p ∧
      (s.chip.Keeps d fun _ => False)) ∧
  (∀ (p : PortNo) (msg : BitVec 128) (s : State), s.chip.lpiMsgOk p msg 3 = true →
      (s.chip.port p).lpi.state = .sleep →
      (s.chip.port p).lpi.asked = true →
      (s.chip.port p).lpi.reqId = (lpiFields msg).2.1 →
    Answers (.sleepNak p msg) s fun d =>
      d.port p = { s.chip.port p with lpi := { (s.chip.port p).lpi with acked := false, partnerSeq := none, backFrom := some s.chip.root } } ∧
      s.chip.OnlyPort d p ∧
      (s.chip.Keeps d fun _ => False)) ∧
  (∀ (p : PortNo) (b : Bool) (s : State), s.chip.up p = true →
      s.chip.runsW p = false →
      (b = true ∨ (s.chip.port p).mode ≠ some .t1000) →
    Answers (.rxLpi p b) s fun d =>
      d.port p = { s.chip.port p with lpi := { (s.chip.port p).lpi with partnerQuiet := b } } ∧
      s.chip.OnlyPort d p ∧
      (s.chip.Keeps d fun _ => False))

/-- R141, R142, R145 to R148, R151, R152: the quiet point, refreshes, wakes and their counts. -/
def Obligations.LowPowerIdlePhasesFollow : Prop :=
  (∀ (p : PortNo) (s : State), s.chip.up p = true →
      (s.chip.port p).lpi.state = .sleep →
      ((s.chip.port p).lpi.asked = false ∨ (s.chip.port p).lpi.acked = true) →
      (s.chip.port p).lpi.due = none →
      (s.chip.port p).lpi.plan = none →
      ((s.chip.port p).mode ≠ some .t1000 ∨ (s.chip.port p).lpi.partnerQuiet = true) →
    Answers (.lpiQuietPoint p false) s fun d =>
      (d.port p).lpi.state = .quiet ∧
      (d.port p).lpi.quietFrom = s.chip.root ∧
      Counts s.chip d .LPI_ENTRY_COUNT p 1) ∧
  (∀ (p : PortNo) (s : State), s.chip.up p = true →
      (s.chip.port p).lpi.state = .sleep →
      (s.chip.port p).lpi.asked = true →
      (s.chip.port p).lpi.acked = false →
    Answers (.lpiQuietPoint p false) s fun d =>
      (d.port p).lpi.state = .awake ∧
      (d.port p).lpi.asked = false ∧
      (d.port p).lpi.backFrom = some s.chip.root ∧
      d.rd .LPI_NEXT_WAKE p = 2 ^ 96 - 1 ∧
      s.chip.OnlyPort d p ∧
      (s.chip.Keeps d fun k => k = ⟨.LPI_NEXT_WAKE, p, 0⟩)) ∧
  (∀ (p : PortNo) (q : Nat) (s : State), s.chip.up p = true →
      (s.chip.port p).lpi.partnerSeq = some q →
      (s.chip.port p).lpi.partnerQuiet = false →
    Answers (.lpiQuietPoint p true) s fun d =>
      d.port p = { s.chip.port p with lpi := { (s.chip.port p).lpi with partnerQuiet := true, partnerAt := s.chip.root } } ∧
      s.chip.OnlyPort d p ∧
      (s.chip.Keeps d fun _ => False)) ∧
  (∀ (p : PortNo) (s : State), (s.chip.port p).lpi.state = .quiet →
      (s.chip.port p).lpi.due = none →
      (s.chip.port p).lpi.plan = none →
    Answers (.lpiRefreshStart p) s fun d =>
      (d.port p).lpi.state = .refresh ∧
      (∀ e ∈ (s.chip.port p).lanes, (d.pe e).hist = []) ∧
      (d.port p).lpi.quietEdges = (s.chip.port p).lpi.quietEdges + (s.chip.root - (s.chip.port p).lpi.quietFrom)) ∧
  (∀ (p : PortNo) (s : State), (s.chip.port p).lpi.state = .refresh →
      (s.chip.port p).lpi.charRun = false →
    Answers (.lpiRefreshEnd p) s fun d =>
      (d.port p).lpi.state = .quiet ∧
      (d.port p).lpi.quietFrom = s.chip.root) ∧
  (∀ (p : PortNo) (margins : List (Option Int)) (s : State), s.chip.up p = true →
      (s.chip.port p).lpi.partnerQuiet = true →
      margins.length = (s.chip.port p).lanes.length →
      (∀ m ∈ margins, ∃ x, m = some x ∧ 0 ≤ x ∧ s.chip.rdInt .LPI_REFRESH_MIN_MARGIN p ≤ x) →
    Answers (.partnerRefreshEnd p margins) s fun d =>
      (∀ e ∈ (s.chip.port p).lanes, (d.pe e).lpiLow = 0) ∧
      (d.port p).lpi.miss = 0 ∧
      (d.port p).link = .up ∧
      (s.chip.Keeps d fun k => k.reg = .PE_LPI_REFRESH_MARGIN)) ∧
  (∀ (p : PortNo) (margins : List (Option Int)) (s : State), s.chip.up p = true →
      (s.chip.port p).lpi.partnerQuiet = true →
      margins.length = (s.chip.port p).lanes.length →
      none ∈ margins →
      1 ≤ (s.chip.port p).lpi.miss →
    Answers (.partnerRefreshEnd p margins) s fun d =>
      (d.port p).link = .brk ∧
      d.rd .LINK_DOWN_CAUSE p = 0x01 ∧
      Counts s.chip d .LINK_DOWN_COUNT p 1) ∧
  (∀ (p : PortNo) (s : State), s.chip.up p = true →
      s.chip.runsW p = true →
      ((s.chip.port p).lpi.state = .quiet ∨ (s.chip.port p).lpi.state = .refresh) →
    Answers (.lpiWakeStart p false) s fun d =>
      (d.port p).lpi.state = .wake ∧
      Counts s.chip d .LPI_WAKE_OTHER_COUNT p 1 ∧
      Stays s.chip d .LPI_WAKE_PARTNER_COUNT p ∧
      d.rd .LPI_NEXT_WAKE p = 2 ^ 96 - 1) ∧
  (∀ (p : PortNo) (s : State), s.chip.up p = true →
      s.chip.runsW p = true →
      ((s.chip.port p).lpi.state = .quiet ∨ (s.chip.port p).lpi.state = .refresh) →
    Answers (.lpiPartnerChirp p) s fun d =>
      (d.port p).lpi.state = .wake ∧
      Counts s.chip d .LPI_WAKE_PARTNER_COUNT p 1 ∧
      Stays s.chip d .LPI_WAKE_OTHER_COUNT p) ∧
  (∀ (p : PortNo) (s : State), s.chip.up p = true →
      (s.chip.port p).lpi.state = .wake →
      (s.chip.port p).lpi.failed = [] →
    Answers (.lpiWakeEnd p false) s fun d =>
      (d.port p).lpi.state = .awake ∧
      (d.port p).lpi.asked = false ∧
      (d.port p).lpi.acked = false ∧
      (∀ m, (s.chip.port p).mode = some m → ∀ e ∈ (s.chip.port p).lanes, (d.pe e).hist = wakeHist m.preTaps) ∧
      (s.chip.Keeps d fun _ => False)) ∧
  (∀ (p : PortNo) (s : State), s.chip.up p = true →
    Answers (.lpiWakeEnd p true) s fun d =>
      d.port p = { s.chip.port p with lpi := { (s.chip.port p).lpi with partnerQuiet := false, partnerSeq := none } } ∧
      (∀ q, q ≠ p.val → d.port q = s.chip.port q) ∧
      (s.chip.Keeps d fun _ => False)) ∧
  (∀ (p : PortNo) (s : State),
    Answers (.heldAwakeEnd p) s fun d =>
      d.rdBit .LPI_STATUS 4 p = false ∧
      (∀ b, b ≠ 4 → b < Reg.width .LPI_STATUS → d.rdBit .LPI_STATUS b p = s.chip.rdBit .LPI_STATUS b p) ∧
      (s.chip.ChangesOnly d fun k => k = ⟨.LPI_STATUS, p, 0⟩)) ∧
  (∀ (p : PortNo) (v : BitVec 8) (s : State), s.chip.asleep .LPI_ENABLE p = false →
      v.toNat ≤ 1 →
    Answers (.lpiEnableWrite p v) s fun d =>
      d.accepted ∧
      d.rd .LPI_ENABLE p = v.toNat ∧
      (v = 0 → s.chip.up p = true → (s.chip.port p).lpi.state = .quiet → (d.port p).lpi.state = .wake))

/-- R159 to R162, R167 to R169: the standalone test and the reflectogram. -/
def Obligations.CableTestsGiveTheirResults : Prop :=
  (∀ (p : PortNo) (s : State), s.chip.asleep .TDR_START p = false →
      (s.chip.port p).link = .disabled →
      s.chip.tileRuns (tileOf p) = true →
      s.chip.width p ≠ 0 →
      s.chip.rdBit .LEGACY_GATE (16 + tileOf p) = true →
      s.chip.diag.tdr.get? p.val = none →
    Answers (.tdrStart p 1) s fun d =>
      d.accepted ∧
      d.diag.tdr.get? p.val = some s.chip.root ∧
      d.rdBit .TDR_STATUS 0 p = true ∧
      d.bare = { s.chip.bare with diag := d.diag } ∧
      (s.chip.Keeps d fun k => k = ⟨.TDR_STATUS, p, 0⟩)) ∧
  (∀ (p : PortNo) (s : State), s.chip.asleep .TDR_START p = false →
      (s.chip.port p).link ≠ .disabled →
    Answers (.tdrStart p 1) s fun d =>
      s.chip.TurnedAway d .state) ∧
  (∀ (p : PortNo) (r : T0Probe) (t : Nat) (s : State), s.chip.diag.tdr.get? p.val = some t →
    Answers (.tdrDone p r) s fun d =>
      d.diag.tdr.get? p.val = none ∧
      d.rd .TDR_STATUS p = 2 ∧
      (∀ e ∈ s.chip.pesOf p, d.rd .TDR_FAULT e = (tdrFault (pairEvents (s.chip.rd .TDR_NVP p) (s.chip.rd .TDR_ORIGIN p) (r.pair (e - p)))).1 % 2 ^ Reg.width .TDR_FAULT ∧ d.rd .TDR_FAULT_DIST e = (tdrFault (pairEvents (s.chip.rd .TDR_NVP p) (s.chip.rd .TDR_ORIGIN p) (r.pair (e - p)))).2 % 2 ^ Reg.width .TDR_FAULT_DIST ∧ d.rd .TDR_NOISE e = ofInt (Reg.width .TDR_NOISE) (r.pair (e - p)).noise) ∧
      d.bare = { s.chip.bare with diag := d.diag }) ∧
  (∀ (e : PeNo) (m : LineMode) (s : State), s.chip.asleep .REFLECT_TRIGGER e = false →
      s.chip.reflMode e = some m →
      s.chip.diag.refl.get? e.val = none →
    Answers (.reflectCompute e) s fun d =>
      d.accepted ∧
      ((d.diag.refl.get? e.val).map (fun r => r.base) = some false) ∧
      d.bare = { s.chip.bare with diag := d.diag } ∧
      (s.chip.Keeps d fun _ => False)) ∧
  (∀ (e : PeNo) (m : LineMode) (s : State), s.chip.asleep .REFLECT_TRIGGER e = false →
      s.chip.reflMode e = some m →
      s.chip.diag.refl.get? e.val = none →
    Answers (.reflectBaselineSet e) s fun d =>
      d.accepted ∧
      ((d.diag.refl.get? e.val).map (fun r => r.base) = some true) ∧
      d.bare = { s.chip.bare with diag := d.diag } ∧
      (s.chip.Keeps d fun _ => False)) ∧
  (∀ (e : PeNo) (run : ReflRun) (m : LineMode) (s : State),
    let rows := reflWords run.taps m e;
    let origin := reflStart m e;
      s.chip.diag.refl.get? e.val = some run →
      (s.chip.port (s.chip.portOf e)).mode = some m →
    Answers (.reflectDone e rows origin) s fun d =>
      d.diag.refl.get? e.val = none ∧
      (∀ k, k < m.echoTaps → d.rd .REFLECTOGRAM e k = ofInt 16 (Config.reflRow run.taps m.code e k).toInt) ∧
      d.rd .REFLECT_ORIGIN e = Config.reflOrigin m.code e % 2 ^ 16 ∧
      d.rd .REFLECT_BIN e = m.reflBin (s.chip.rd .TDR_NVP (s.chip.portOf e)) % 2 ^ Reg.width .REFLECT_BIN ∧
      (run.base = true → s.chip.up (s.chip.portOf e) = true → d.diag.base.get? e.val = some (reflRows run.taps m e)) ∧
      d.bare = { s.chip.bare with diag := d.diag } ∧
      (s.chip.Keeps d fun k => k.inst = e.val ∧ (k.reg = .REFLECTOGRAM ∨ k.reg = .REFLECT_ORIGIN ∨ k.reg = .REFLECT_BIN))) ∧
  (∀ (e : PeNo) (rows : List (BitVec 16)) (origin : Nat) (run : ReflRun) (m : LineMode) (s : State), s.chip.diag.refl.get? e.val = some run →
      (s.chip.port (s.chip.portOf e)).mode = some m →
      rows.length ≠ m.echoTaps →
    Answers (.reflectDone e rows origin) s fun d =>
      d.bare = s.chip.bare ∧
      (s.chip.Keeps d fun _ => False)) ∧
  (∀ (e : PeNo) (m : LineMode) (s : State),
    let p := s.chip.portOf e;
    let rows := reflWords (s.chip.reflTaps e m) m e;
    let origin := reflStart m e;
      s.chip.reflMode e = some m →
      s.chip.rd .REFLECT_WATCH_PERIOD p ≠ 0 →
      s.chip.rdBool .PE_COEF_FREEZE e = false →
      (s.chip.port p).lpi.state = .awake →
      s.chip.rxQuiet p = false →
      (s.chip.port p).lpi.upFrom + 160000000000 ≤ s.chip.root →
      s.chip.diag.watched.contains e.val = false →
    Answers (.reflectWatchTick e rows origin) s fun d =>
      d.diag.base.get? e.val = some (reflRows (s.chip.reflTaps e m) m e) ∧
      d.diag.watched.contains e.val = true ∧
      Stays s.chip d .LQ_STATUS p ∧
      d.bare = { s.chip.bare with diag := d.diag })

/-- R170, R172 to R176, Table 7-8: the second of link quality, its reset, the plant map, and the LEDs. -/
def Obligations.MonitorsAndIndicatorsAreKept : Prop :=
  (∀ (p : PortNo) (std : List StdCounts) (m : LineMode) (s : State), s.chip.up p = true →
      (s.chip.port p).mode = some m →
      m.isW = true →
      s.chip.rd .LQ_UNCORR_WARN p ≠ 0 →
      (∃ e ∈ (s.chip.port p).lanes, s.chip.rd .LQ_UNCORR_WARN p ≤ (s.chip.rd .CW_UNCORRECTABLE e + 2 ^ 32 - (s.chip.pe e).uncorrAt) % 2 ^ 32) →
    Answers (.lqSecondEnd p std) s fun d =>
      d.rdBit .LQ_STATUS 1 p = true ∧
      (∀ e ∈ s.chip.pesOf p, (d.pe e).uncorrAt = s.chip.rd .CW_UNCORRECTABLE e) ∧
      (s.chip.Keeps d fun k => k = ⟨.LQ_STATUS, p, 0⟩)) ∧
  (∀ (p : PortNo) (x : StdCounts) (l : List StdCounts) (s : State), s.chip.up p = true →
      (s.chip.port p).mode = some .t100 →
      s.chip.width p ≠ 0 →
    Answers (.lqSecondEnd p (x :: l)) s fun d =>
      Counts s.chip d .SYMBOL_ERR_COUNT p x.symbol) ∧
  (∀ (p : PortNo) (s : State), s.chip.asleep .LQ_RESET p = false →
    Answers (.lqReset p 1) s fun d =>
      d.accepted ∧
      (∀ e ∈ s.chip.pesOf p, d.rd .PE_MARGIN_MIN e = 0 ∧ d.rd .PE_MARGIN_MAX e = 0 ∧ (d.pe e).lqSeen = false ∧ ∀ k, d.rd .LDPC_ITER_HIST e k = 0) ∧
      d.rd .SKEW_SPAN_MAX p = 0 ∧
      d.rdBit .LQ_STATUS 3 p = false ∧
      d.rdBit .LQ_STATUS 4 p = false ∧
      d.rdBit .LQ_STATUS 0 p = s.chip.rdBit .LQ_STATUS 0 p) ∧
  (∀ (s : State), s.chip.asleep .PLANT_MAP_BUILD 0 = false →
      s.chip.diag.plant = none →
    Answers (.plantMapBuild 1) s fun d =>
      d.accepted ∧
      d.diag.plant = some (s.chip.plantRows.take 4096, s.chip.rd .ANC_MAP_VERSION) ∧
      d.bare = { s.chip.bare with diag := d.diag } ∧
      (s.chip.Keeps d fun _ => False)) ∧
  (∀ (s : State), s.chip.asleep .PLANT_MAP_BUILD 0 = false →
      s.chip.diag.plant ≠ none →
    Answers (.plantMapBuild 1) s fun d =>
      s.chip.TurnedAway d .busy) ∧
  (∀ (rows : List Nat) (ver : Nat) (s : State), s.chip.diag.plant = some (rows, ver) →
    Answers (.plantMapDone) s fun d =>
      d.diag.plant = none ∧
      d.rd .PLANT_MAP_ROWS = rows.length % 2 ^ Reg.width .PLANT_MAP_ROWS ∧
      d.rd .PLANT_MAP_VERSION = ver % 2 ^ Reg.width .PLANT_MAP_VERSION ∧
      (∀ k, k < rows.length → d.rd .PLANT_MAP 0 k = rows.getD k 0 % 2 ^ Reg.width .PLANT_MAP) ∧
      d.bare = { s.chip.bare with diag := d.diag }) ∧
  (∀ (q : QuadNo) (s : State),
    Answers (.ledLocateTick q) s fun d =>
      d.rd .LED_LOCATE q = (s.chip.rd .LED_LOCATE q - 1) % 2 ^ Reg.width .LED_LOCATE ∧
      (s.chip.ChangesOnly d fun k => k = ⟨.LED_LOCATE, q, 0⟩)) ∧
  (∀ (p : PortNo) (s : State),
    Answers (.ledBlinkEnd p) s fun d =>
      d.diag.blinkOn.contains p.val = false ∧
      (∀ q, q ≠ p.val → d.diag.blinkOn.contains q = s.chip.diag.blinkOn.contains q) ∧
      d.bare = { s.chip.bare with diag := d.diag } ∧
      (s.chip.Keeps d fun _ => False))

/-- R189 to R192, R194, R231: frames from the host by their kind, the pause, and Local Fault. -/
def Obligations.HostFramesAreTaken : Prop :=
  (∀ (p : PortNo) (f : HostFrame) (fq : Nat) (s : State), s.chip.hostUp p = true →
      f.error = false →
      octNat f.octets 12 2 ≠ 0x8808 →
      s.chip.isDap f.octets = false →
      (s.chip.rdBool .TX_TAG_ENABLE p = false ∨ f.untagged = true) →
      s.chip.flowQueue p (s.chip.rd .Q_DEFAULT p) = some fq →
    Answers (.frameFromHost p f) s fun d =>
      d.sch p = { s.chip.sch p with arriving := (s.chip.sch p).arriving ++ [{ plainFrame f.octets s.chip.tb with sfd := f.sfd, id := s.chip.frameNo, port := p, lq := s.chip.rd .Q_DEFAULT p, fq := fq }] } ∧
      d.frameNo = s.chip.frameNo + 1 ∧
      d.bare = { s.chip.bare with sched := d.sched, frameNo := s.chip.frameNo + 1 } ∧
      (∀ q, q ≠ p.val → d.sch q = s.chip.sch q) ∧
      (s.chip.Keeps d fun _ => False)) ∧
  (∀ (p : PortNo) (f : HostFrame) (fq : Nat) (s : State), s.chip.hostUp p = true →
      f.error = false →
      octNat f.octets 12 2 ≠ 0x8808 →
      s.chip.isDap f.octets = false →
      s.chip.rdBool .TX_TAG_ENABLE p = true →
      f.untagged = false →
      bits f.tag 47 44 = 1 →
      s.chip.flowQueue p (bits f.tag 43 32) = some fq →
    Answers (.frameFromHost p f) s fun d =>
      d.sch p = { s.chip.sch p with arriving := (s.chip.sch p).arriving ++ [{ plainFrame f.octets s.chip.tb with sfd := f.sfd, id := s.chip.frameNo, port := p, lq := bits f.tag 43 32, fq := fq, tagged := true, tsReq := f.tag.testBit 1, ptpSkip := f.tag.testBit 0 }] } ∧
      (s.chip.Keeps d fun _ => False)) ∧
  (∀ (p : PortNo) (f : HostFrame) (s : State), s.chip.hostUp p = true →
      f.error = true →
    Answers (.frameFromHost p f) s fun d =>
      Counts s.chip d .HOST_RX_ERROR p 1 ∧
      (s.chip.ChangesOnly d fun k => k = ⟨.HOST_RX_ERROR, p, 0⟩)) ∧
  (∀ (p : PortNo) (f : HostFrame) (q : Nat) (s : State), s.chip.hostUp p = true →
      f.error = false →
      octNat f.octets 12 2 = 0x8808 →
      s.chip.rdBool .HOST_PAUSE_HONOUR p = true →
      pauseQuanta f.octets = some (some q) →
    Answers (.frameFromHost p f) s fun d =>
      d.rdBit .HL_PORT_STATUS 4 p = decide (q ≠ 0) ∧
      d.hostOf p = { s.chip.hostOf p with pauseUntil := s.chip.root + s.chip.quantaRoot p q } ∧
      (d.bare = { s.chip.bare with host := d.host } ∧ ∀ q, q ≠ p.val → d.hostOf q = s.chip.hostOf q) ∧
      (s.chip.Keeps d fun k => k = ⟨.HL_PORT_STATUS, p, 0⟩)) ∧
  (∀ (p : PortNo) (s : State), (s.chip.hostOf p).pauseUntil ≤ s.chip.root →
    Answers (.hostPauseEnd p) s fun d =>
      d.rdBit .HL_PORT_STATUS 4 p = false ∧
      d.rdBit .HL_PORT_STATUS 5 p = s.chip.rdBit .HL_PORT_STATUS 5 p ∧
      (s.chip.ChangesOnly d fun k => k = ⟨.HL_PORT_STATUS, p, 0⟩)) ∧
  (∀ (p : PortNo) (b : Bool) (s : State), s.chip.hostUp p = true →
    Answers (.hostLocalFaultRx p b) s fun d =>
      d.rdBit .HL_PORT_STATUS 5 p = b ∧
      d.rdBit .HL_PORT_STATUS 4 p = s.chip.rdBit .HL_PORT_STATUS 4 p ∧
      (s.chip.ChangesOnly d fun k => k = ⟨.HL_PORT_STATUS, p, 0⟩))

/-- R17, R188, R193 to R195, R197, R198, R252 to R254: the receive FIFO, its drops, what leaves for the host, and PFC frames.
The place in time of the to-host stream is the choice of log entry 102, and that a lane in fault carries none the choice of
log entry 99. -/
def Obligations.ReceivedFramesReachTheHost : Prop :=
  (∀ (p : PortNo) (f : LineFrame) (s : State), s.chip.up p = true →
      f.kind = .express →
      (s.chip.rdBool .DAP_LINE_ENABLE p = false ∨ s.chip.isDap f.octets = false) →
      f.error = false →
      f.full = false →
      f.octets.length ≤ s.chip.rd .RX_MAX_FRAME p →
      s.chip.fifoOctets p + f.octets.length ≤ 32768 →
      s.chip.rdBool .RX_RED_DISCARD p = false →
    Answers (.receiveFrame p f) s fun d =>
      ((d.hostOf p).fifo.map (fun x => x.octets) = (s.chip.hostOf p).fifo.map (fun x => x.octets) ++ [f.octets]) ∧
      ((d.hostOf p).fcsBad = (s.chip.hostOf p).fcsBad + if fcsOk f.octets then 0 else 1) ∧
      (d.hostOf p).dapOut = (s.chip.hostOf p).dapOut ∧
      (d.hostOf p).toHost = (s.chip.hostOf p).toHost ∧
      (d.bare = { s.chip.bare with host := d.host, diag := d.diag, meters := d.meters } ∧ ∀ q, q ≠ p.val → d.hostOf q = s.chip.hostOf q) ∧
      (s.chip.Keeps d fun k => k = ⟨.PTP_RX_COUNT, p, 0⟩ ∨ k.reg = .MTR_COUNTS)) ∧
  (∀ (p : PortNo) (f : LineFrame) (s : State), s.chip.up p = true →
      f.kind = .express →
      (s.chip.rdBool .DAP_LINE_ENABLE p = false ∨ s.chip.isDap f.octets = false) →
      f.error = false →
      fcsOk f.octets = false →
      f.full = false →
      f.octets.length ≤ s.chip.rd .RX_MAX_FRAME p →
      s.chip.fifoOctets p + f.octets.length ≤ 32768 →
    let t := s.chip.rxTime p f.stamp
    Answers (.receiveFrame p f) s fun d =>
      d.hostOf p = { s.chip.hostOf p with fcsBad := (s.chip.hostOf p).fcsBad + 1, fifo := (s.chip.hostOf p).fifo ++ [⟨f.octets, 0xA * 2 ^ 44 + tagTime t * 2 ^ 14 + 3 * 2 ^ 12 + flowIndex (s.chip.rd .RX_FLOW_SELECT p) f.octets % 4096, false, s.chip.msgInstant p t⟩] } ∧
      (d.bare = { s.chip.bare with host := d.host, diag := d.diag, meters := d.meters } ∧ ∀ q, q ≠ p.val → d.hostOf q = s.chip.hostOf q) ∧
      (s.chip.Keeps d fun _ => False)) ∧
  (∀ (p : PortNo) (f : LineFrame) (s : State), s.chip.up p = true →
      f.kind = .express →
      (s.chip.rdBool .DAP_LINE_ENABLE p = false ∨ s.chip.isDap f.octets = false) →
      f.error = false →
      f.full = false →
      s.chip.rd .RX_MAX_FRAME p < f.octets.length →
      s.chip.fifoOctets p + f.octets.length ≤ 32768 →
    Answers (.receiveFrame p f) s fun d =>
      Counts s.chip d .RX_OVERSIZE p 1 ∧
      d.bare = { s.chip.bare with diag := d.diag } ∧
      (s.chip.Keeps d fun k => k = ⟨.RX_OVERSIZE, p, 0⟩)) ∧
  (∀ (p : PortNo) (f : LineFrame) (s : State), s.chip.up p = true →
      f.kind = .express →
      (s.chip.rdBool .DAP_LINE_ENABLE p = false ∨ s.chip.isDap f.octets = false) →
      f.error = false →
      f.full = true →
    Answers (.receiveFrame p f) s fun d =>
      Counts s.chip d .RX_FIFO_DROP p 1 ∧
      d.bare = { s.chip.bare with diag := d.diag } ∧
      (s.chip.Keeps d fun k => k = ⟨.RX_FIFO_DROP, p, 0⟩)) ∧
  (∀ (p : PortNo) (x : RxFrame) (l : List RxFrame) (s : State), s.chip.hostOut p = true →
      s.chip.rdBit .HL_PORT_STATUS 4 p = false →
      (s.chip.hostOf p).pfcNew = [] →
      (s.chip.hostOf p).dapOut = [] →
      (s.chip.hostOf p).fifo = x :: l →
      s.chip.up p = true →
      x.correct = false →
    let o := 4 * cdiv (max (s.chip.streamNow p) ((s.chip.hostOf p).streamEnd + (s.chip.setHost p fun h => { h with fifo := l }).hostGap p)) 4
    let w := withPreamble (if s.chip.rdBool .RX_TAG_ENABLE p then x.tag else 0x555555555555) x.octets
    Answers (.forwardToHost p) s fun d =>
      d.hostOf p = { s.chip.hostOf p with fifo := l, toHost := w, toHostAt := o, streamEnd := o + w.length } ∧
      (d.bare = { s.chip.bare with host := d.host } ∧ ∀ q, q ≠ p.val → d.hostOf q = s.chip.hostOf q) ∧
      (s.chip.Keeps d fun _ => False)) ∧
  (∀ (p : PortNo) (x : RxFrame) (l : List RxFrame) (s : State), s.chip.hostOut p = true →
      s.chip.rdBit .HL_PORT_STATUS 4 p = false →
      (s.chip.hostOf p).pfcNew = [] →
      (s.chip.hostOf p).dapOut = x :: l →
    let o := 4 * cdiv (max (s.chip.streamNow p) ((s.chip.hostOf p).streamEnd + s.chip.hostGap p)) 4
    let w := withPreamble (if s.chip.rdBool .RX_TAG_ENABLE p then x.tag else 0x555555555555) x.octets
    Answers (.forwardToHost p) s fun d =>
      d.hostOf p = { s.chip.hostOf p with dapOut := l, toHost := w, toHostAt := o, streamEnd := o + w.length } ∧
      (d.bare = { s.chip.bare with host := d.host } ∧ ∀ q, q ≠ p.val → d.hostOf q = s.chip.hostOf q) ∧
      (s.chip.Keeps d fun _ => False)) ∧
  (∀ (p : PortNo) (s : State), s.chip.hostOut p = true →
      (s.chip.hostOf p).pfcNew ≠ [] →
    let w := withPreamble 0x555555555555 (s.chip.pfcFrame p (s.chip.hostOf p).pfcNew)
    Answers (.pfcFrameSend p) s fun d =>
      d.hostOf p = { s.chip.hostOf p with pfcNew := [], toHost := w, toHostAt := s.chip.toHostStart p, streamEnd := s.chip.toHostStart p + w.length } ∧
      Counts s.chip d .PFC_FRAME_COUNT p 1 ∧
      (d.bare = { s.chip.bare with host := d.host } ∧ ∀ q, q ≠ p.val → d.hostOf q = s.chip.hostOf q) ∧
      (s.chip.Keeps d fun k => k = ⟨.PFC_FRAME_COUNT, p, 0⟩)) ∧
  (∀ (p : PortNo) (prio : Fin 8) (v : Fin 8) (s : State), s.chip.rdBit .PFC_STATUS v p = true →
      s.chip.pfcPrio p v = prio.val →
    Answers (.pfcRefresh p prio) s fun d =>
      (d.hostOf p).pfcNew.contains prio.val = true ∧
      (d.hostOf p).fifo = (s.chip.hostOf p).fifo ∧
      (d.bare = { s.chip.bare with host := d.host } ∧ ∀ q, q ≠ p.val → d.hostOf q = s.chip.hostOf q) ∧
      (s.chip.Keeps d fun _ => False))

/-- R179, R182, R186, R187, R197, R199: host lanes, their mapping, lane-sharing markers, test patterns and PFC settings. -/
def Obligations.HostLanesFollowTheirConditions : Prop :=
  (∀ (h : LaneNo) (s : State), s.chip.pwr.hostPll = true →
      s.chip.laneLocked h = true →
      s.chip.rdBool .HL_FORCE_FAIL h = false →
      s.chip.rd .BIST_STATE_HLANE h ≠ 2 →
    Answers (.hlLaneUp h) s fun d =>
      d.rdBit .HL_STATUS 3 h = true ∧
      d.rdBit .HL_STATUS 4 h = false ∧
      d.laneOf h = { s.chip.laneOf h with upFrom := some s.chip.root, lockFault := false } ∧
      d.bare = { s.chip.bare with hlane := d.hlane } ∧
      (s.chip.Keeps d fun k => k = ⟨.HL_STATUS, h, 0⟩)) ∧
  (∀ (h : LaneNo) (s : State), s.chip.pwr.hostPll = true →
      s.chip.laneLocked h = false →
      s.chip.laneFault h = false →
      s.chip.rd .HL_PRBS_CHK h = 0 →
    Answers (.hlLaneFault h) s fun d =>
      d.rdBit .HL_STATUS 4 h = true ∧
      Counts s.chip d .HL_FAULT_COUNT h 1 ∧
      (d.laneOf h).lockFault = true) ∧
  (∀ (h : LaneNo) (v : BitVec 8) (s : State), s.chip.asleep .HL_FORCE_FAIL h = false →
      v.toNat ≤ 1 →
    Answers (.hlForceFailWrite h v) s fun d =>
      d.accepted ∧
      d.rd .HL_FORCE_FAIL h = v.toNat ∧
      (v = 1 → d.rdBit .HL_STATUS 4 h = true) ∧
      (v = 0 → (s.chip.laneOf h).lockFault = false → s.chip.rd .BIST_STATE_HLANE h ≠ 2 → d.rdBit .HL_STATUS 4 h = false)) ∧
  (∀ (h : LaneNo) (a b m : Bool) (x y z : Nat) (s : State), s.chip.pwr.hostPll = true →
    Answers (.fecLockChange h a b m x y z) s fun d =>
      d.rdBit .HL_STATUS 0 h = a ∧
      d.rdBit .HL_STATUS 1 h = b ∧
      d.rdBit .HL_STATUS 2 h = m ∧
      ((b = false ∨ m = false) → d.rdBit .HL_STATUS 3 h = false ∧ (d.laneOf h).upFrom = none) ∧
      Counts s.chip d .HL_FEC_CORRECTED h x ∧
      Counts s.chip d .HL_FEC_UNCORR h y ∧
      (s.chip.rd .HL_PRBS_CHK h ≠ 0 → Counts s.chip d .HL_PRBS_ERR h z) ∧
      d.bare = { s.chip.bare with hlane := d.hlane } ∧
      (s.chip.Keeps d fun k => k.inst = h.val ∧ (k.reg = .HL_STATUS ∨ k.reg = .HL_FEC_CORRECTED ∨ k.reg = .HL_FEC_UNCORR ∨ k.reg = .HL_PRBS_ERR))) ∧
  (∀ (h : LaneNo) (b : BitVec 66) (l : List PortNo) (s : State), s.chip.laneShared h = true →
      lsMarkerOk b = true →
      (s.chip.rdBit .HL_STATUS 5 h = true ∨ (s.chip.laneOf h).period = some ((lsField b 18 8 + 255) % 256)) →
    Answers (.lsMarkerReceived h b l) s fun d =>
      (d.laneOf h).period = some (lsField b 18 8) ∧
      (d.laneOf h).bad = 0 ∧
      d.rdBit .HL_STATUS 5 h = true ∧
      d.rdBit .HL_STATUS 6 h = decide (bits (lsField b 38 28) 27 12 ≠ s.chip.lsDigest h) ∧
      d.bare = { s.chip.bare with hlane := d.hlane } ∧
      (s.chip.Keeps d fun k => k = ⟨.HL_STATUS, h, 0⟩)) ∧
  (∀ (h : LaneNo) (b : BitVec 66) (l : List PortNo) (s : State), s.chip.laneShared h = true →
      lsMarkerOk b = false →
      s.chip.rdBit .HL_STATUS 5 h = true →
      (s.chip.laneOf h).bad < 2 →
    Answers (.lsMarkerReceived h b l) s fun d =>
      Counts s.chip d .HL_LS_MARKER_ERR h 1 ∧
      d.rdBit .HL_STATUS 5 h = true ∧
      (d.laneOf h).bad = (s.chip.laneOf h).bad + 1 ∧
      d.bare = { s.chip.bare with hlane := d.hlane } ∧
      (s.chip.Keeps d fun k => k = ⟨.HL_LS_MARKER_ERR, h, 0⟩)) ∧
  (∀ (h : LaneNo) (b : BitVec 66) (l : List PortNo) (s : State), s.chip.laneShared h = true →
      lsMarkerOk b = false →
      s.chip.rdBit .HL_STATUS 5 h = true →
      2 ≤ (s.chip.laneOf h).bad →
    Answers (.lsMarkerReceived h b l) s fun d =>
      Counts s.chip d .HL_LS_MARKER_ERR h 1 ∧
      d.rdBit .HL_STATUS 5 h = false ∧
      (d.laneOf h).period = none ∧
      d.bare = { s.chip.bare with hlane := d.hlane } ∧
      (s.chip.Keeps d fun k => k = ⟨.HL_LS_MARKER_ERR, h, 0⟩ ∨ k = ⟨.HL_STATUS, h, 0⟩ ∨ k.reg = .HOST_RX_ERROR)) ∧
  (∀ (p : PortNo) (entries : Bool) (v : BitVec 32) (s : State),
    let m := if entries then s.chip.rd .HL_MAP p else v.toNat &&& 0xC0FFFF00;
    let e := if entries then v.toNat else s.chip.rd .HL_ENTRIES p;
      (s.chip.asleep (if entries then .HL_ENTRIES else .HL_MAP) p = false) →
      mapShapeOk p m e = true →
      s.chip.rdBool .PORT_ENABLE p = false →
      (∀ q ∈ s.chip.groupPorts (p / 64), q ≠ p.val → mapsAgree (m, e) (s.chip.running q, s.chip.rd .HL_ENTRIES q) = true) →
      (mapKind m = 3 → ((s.chip.groupPorts (p / 64)).filter fun q => decide (q ≠ p.val ∧ mapKind (s.chip.running q) = 3 ∧ mapA (s.chip.running q) = mapA m)).length ≤ 3) →
    Answers (.hlMapWrite p entries v) s fun d =>
      d.accepted ∧
      (entries = false → d.rd .HL_MAP p = m % 2 ^ 32) ∧
      (entries = true → d.rd .HL_ENTRIES p = e % 2 ^ 32) ∧
      (d.hostOf p).moved = (s.chip.hostOf p).moved ∧
      d.bare = { s.chip.bare with host := d.host, hlane := d.hlane } ∧
      (s.chip.Keeps d fun k => k.inst = p.val ∧ (k.reg = .HL_MAP ∨ k.reg = .HL_ENTRIES) ∨ k.reg = .HL_STATUS ∧ k.inst / 32 = p.val / 64)) ∧
  (∀ (p : PortNo) (entries : Bool) (v : BitVec 32) (s : State),
    let m := if entries then s.chip.rd .HL_MAP p else v.toNat &&& 0xC0FFFF00;
    let e := if entries then v.toNat else s.chip.rd .HL_ENTRIES p;
      (s.chip.asleep (if entries then .HL_ENTRIES else .HL_MAP) p = false) →
      mapShapeOk p m e = true →
      s.chip.rdBool .PORT_ENABLE p = true →
    Answers (.hlMapWrite p entries v) s fun d =>
      s.chip.TurnedAway d .state) ∧
  (∀ (h : LaneNo) (v : BitVec 8) (s : State), s.chip.asleep .HL_PRBS_GEN h = false →
      v.toNat ≤ 2 →
      (v = 0 ∨ s.chip.rdBit .LEGACY_GATE (8 + h / 32) = true) →
    Answers (.hlPrbsGenWrite h v) s fun d =>
      d.accepted ∧
      d.rd .HL_PRBS_GEN h = v.toNat ∧
      (d.rdBit .HL_STATUS 7 h = decide (v ≠ 0 ∨ s.chip.rd .HL_PRBS_CHK h ≠ 0)) ∧
      (s.chip.ChangesOnly d fun k => k = ⟨.HL_PRBS_GEN, h, 0⟩ ∨ k = ⟨.HL_STATUS, h, 0⟩)) ∧
  (∀ (h : LaneNo) (v : BitVec 8) (s : State), s.chip.asleep .HL_PRBS_CHK h = false →
      v.toNat ≤ 2 →
      (v = 0 ∨ s.chip.rdBit .LEGACY_GATE (8 + h / 32) = true) →
    Answers (.hlPrbsChkWrite h v) s fun d =>
      d.accepted ∧
      d.rd .HL_PRBS_CHK h = v.toNat ∧
      d.rd .HL_PRBS_ERR h = 0 ∧
      (d.rdBit .HL_STATUS 7 h = decide (s.chip.rd .HL_PRBS_GEN h ≠ 0 ∨ v ≠ 0)) ∧
      (s.chip.Keeps d fun k => k.inst = h.val ∧ (k.reg = .HL_PRBS_CHK ∨ k.reg = .HL_PRBS_ERR ∨ k.reg = .HL_STATUS))) ∧
  (∀ (h : LaneNo) (v : BitVec 8) (s : State), s.chip.asleep .HL_PRBS_CHK h = false →
      2 < v.toNat →
    Answers (.hlPrbsChkWrite h v) s fun d =>
      s.chip.TurnedAway d .range) ∧
  (∀ (p : PortNo) (v : BitVec 32) (s : State), s.chip.asleep .PFC_QUANTA p = false →
      1 ≤ v.toNat →
      v.toNat ≤ 65535 →
    Answers (.pfcSettingWrite p .quanta v) s fun d =>
      d.accepted ∧
      d.rd .PFC_QUANTA p = v.toNat ∧
      (s.chip.Keeps d fun k => k = ⟨.PFC_QUANTA, p, 0⟩)) ∧
  (∀ (p : PortNo) (v : BitVec 32) (s : State), s.chip.asleep .PFC_ENABLE p = false →
      pfcFits s.chip p (v.toNat % 256) (s.chip.rd .PFC_HEADROOM p) = true →
    Answers (.pfcSettingWrite p .enable v) s fun d =>
      d.accepted ∧
      d.rd .PFC_ENABLE p = v.toNat % 256 ∧
      (s.chip.Keeps d fun k => k.inst = p.val ∧ (k.reg = .PFC_ENABLE ∨ k.reg = .PFC_STATUS))) ∧
  (∀ (p : PortNo) (v : BitVec 32) (s : State), s.chip.asleep .PFC_HEADROOM p = false →
      64 ≤ v.toNat →
      v.toNat ≤ 262144 →
      pfcFits s.chip p (s.chip.rd .PFC_ENABLE p) v.toNat = true →
    Answers (.pfcSettingWrite p .headroom v) s fun d =>
      d.accepted ∧
      d.rd .PFC_HEADROOM p = v.toNat ∧
      (s.chip.Keeps d fun k => k.inst = p.val ∧ (k.reg = .PFC_HEADROOM ∨ k.reg = .PFC_STATUS))) ∧
  (∀ (p : PortNo) (v : BitVec 32) (s : State), s.chip.asleep .PFC_PRIORITY_MAP p = false →
      (∀ k, k < 8 → bits v.toNat (4 * k + 3) (4 * k) ≤ 7) →
    Answers (.pfcSettingWrite p .priorityMap v) s fun d =>
      d.accepted ∧
      d.rd .PFC_PRIORITY_MAP p = v.toNat % 2 ^ Reg.width .PFC_PRIORITY_MAP ∧
      (s.chip.Keeps d fun k => k = ⟨.PFC_PRIORITY_MAP, p, 0⟩))

/-- R203, R204, R207, R208, Table 9-4: direct writes of the time base, its servo, its validity and its snapshot. -/
def Obligations.TimeBaseIsSetAndSteered : Prop :=
  (∀ (v : BitVec 96) (s : State), s.chip.asleep .TIME_SET 0 = false →
      time96Ok v.toNat = true →
      s.chip.taArmed = [] →
    Answers (.timeSet v) s fun d =>
      d.accepted ∧
      d.tb = ofTime96 v.toNat ∧
      Counts s.chip d .TIME_STEP_COUNT 0 1 ∧
      (-(2 ^ 63) ≤ tbDiff (ofTime96 v.toNat) s.chip.tb → tbDiff (ofTime96 v.toNat) s.chip.tb < 2 ^ 63 → d.rd .TIME_LAST_STEP = ofInt 64 (tbDiff (ofTime96 v.toNat) s.chip.tb))) ∧
  (∀ (v : BitVec 96) (s : State), s.chip.asleep .TIME_SET 0 = false →
      time96Ok v.toNat = false →
    Answers (.timeSet v) s fun d =>
      s.chip.TurnedAway d .range) ∧
  (∀ (v : BitVec 64) (s : State), s.chip.asleep .TIME_STEP 0 = false →
      s.chip.taArmed = [] →
    Answers (.timeStep v) s fun d =>
      d.accepted ∧
      d.tb = s.chip.steppedTb (toInt 64 v.toNat) ∧
      Counts s.chip d .TIME_STEP_COUNT 0 1 ∧
      d.rd .TIME_LAST_STEP = v.toNat) ∧
  (∀ (s : State), s.chip.asleep .TIME_SNAPSHOT 0 = false →
    Answers (.timeSnapshot 1) s fun d =>
      d.accepted ∧
      d.rd .TIME_SNAPSHOT_VALUE = s.chip.now96 % 2 ^ 96 ∧
      (s.chip.ChangesOnly d fun k => k = ⟨.TIME_SNAPSHOT_VALUE, 0, 0⟩)) ∧
  (∀ (v : BitVec 64) (s : State), s.chip.asleep .TIME_SERVO_INPUT 0 = false →
      s.chip.timeSource = .software →
      s.chip.rd .TIME_SERVO_STATE = 1 →
      (toInt 64 v.toNat).natAbs ≤ s.chip.stepLimit →
      (s.chip.time.good < 7 ∨ s.chip.validLimit < (toInt 64 v.toNat).natAbs) →
    Answers (.timeServoInput v) s fun d =>
      d.accepted ∧
      d.tb = s.chip.tb ∧
      d.rd .TIME_OFFSET_LAST = v.toNat ∧
      (d.time.good = if (toInt 64 v.toNat).natAbs ≤ s.chip.validLimit then s.chip.time.good + 1 else 0) ∧
      d.time.phase = toInt 64 v.toNat ∧
      d.time.freq.natAbs ≤ 80000000 ∧
      Stays s.chip d .TIME_SERVO_STATE 0) ∧
  (∀ (v : BitVec 64) (s : State), s.chip.asleep .TIME_SERVO_INPUT 0 = false →
      s.chip.timeSource = .software →
      s.chip.rd .TIME_SERVO_STATE = 1 →
      s.chip.time.good = 7 →
      (toInt 64 v.toNat).natAbs ≤ s.chip.validLimit →
      (toInt 64 v.toNat).natAbs ≤ s.chip.stepLimit →
    Answers (.timeServoInput v) s fun d =>
      d.accepted ∧
      d.tb = s.chip.tb ∧
      d.rd .TIME_OFFSET_LAST = v.toNat ∧
      d.rd .TIME_SERVO_STATE = 2 ∧
      d.rdBool .TIME_VALID = true ∧
      d.time.good = 0) ∧
  (∀ (v : BitVec 64) (s : State), s.chip.asleep .TIME_SERVO_INPUT 0 = false →
      s.chip.timeSource = .software →
      s.chip.rd .TIME_SERVO_STATE = 1 →
      s.chip.taArmed = [] →
      s.chip.stepLimit < (toInt 64 v.toNat).natAbs →
      s.chip.validLimit < (toInt 64 v.toNat).natAbs →
    Answers (.timeServoInput v) s fun d =>
      d.accepted ∧
      d.tb = s.chip.steppedTb (-(toInt 64 v.toNat)) ∧
      Counts s.chip d .TIME_STEP_COUNT 0 1 ∧
      Stays s.chip d .TIME_SERVO_STATE 0 ∧
      d.time.good = 0) ∧
  (∀ (v : BitVec 64) (s : State), s.chip.asleep .TIME_SERVO_INPUT 0 = false →
      s.chip.timeSource ≠ .software →
    Answers (.timeServoInput v) s fun d =>
      d.accepted ∧
      d.bare = s.chip.bare ∧
      (s.chip.Keeps d fun _ => False)) ∧
  (∀ (v : BitVec 8) (s : State), s.chip.asleep .TIME_VALID 0 = false →
      v.toNat ≤ 1 →
      s.chip.rd .TIME_SERVO_MODE = 0 →
    Answers (.timeValidWrite v) s fun d =>
      d.accepted ∧
      d.rdBool .TIME_VALID = decide (v = 1)) ∧
  (∀ (v : BitVec 8) (s : State), s.chip.asleep .TIME_VALID 0 = false →
      v.toNat ≤ 1 →
      s.chip.rd .TIME_SERVO_MODE ≠ 0 →
    Answers (.timeValidWrite v) s fun d =>
      s.chip.TurnedAway d .state) ∧
  (∀ (v : BitVec 8) (s : State), s.chip.asleep .TIME_SOURCE 0 = false →
      v.toNat ≤ 4 →
    Answers (.timeSourceWrite false v) s fun d =>
      d.accepted ∧
      d.rd .TIME_SOURCE = v.toNat ∧
      d.rdBool .TIME_VALID = false ∧
      d.time.good = 0 ∧
      (d.rd .TIME_SERVO_STATE = (if s.chip.rd .TIME_SERVO_MODE = 0 then 4 else if v = 1 then 0 else 1))) ∧
  (∀ (v : BitVec 8) (s : State), s.chip.asleep .TIME_SERVO_MODE 0 = false →
      v.toNat ≤ 1 →
    Answers (.timeSourceWrite true v) s fun d =>
      d.accepted ∧
      d.rd .TIME_SERVO_MODE = v.toNat ∧
      d.rdBool .TIME_VALID = false ∧
      (v = 0 → d.rd .TIME_SERVO_STATE = 4) ∧
      (v = 1 → s.chip.rd .TIME_SERVO_STATE = 4 → d.rd .TIME_SERVO_STATE = 1)) ∧
  (∀ (s : State), s.chip.rd .TIME_SERVO_STATE = 2 →
    Answers (.servoInputTimeout) s fun d =>
      d.rd .TIME_SERVO_STATE = 3 ∧
      d.time.good = 0 ∧
      d.time.bad = 0) ∧
  (∀ (s : State), s.chip.rd .TIME_SERVO_STATE = 3 →
    Answers (.holdoverValidExpire) s fun d =>
      d.rdBool .TIME_VALID = false ∧
      Stays s.chip d .TIME_SERVO_STATE 0)

/-- R209 to R213: the discipline of the root clock, REF_IN, PPS_IN and PPS_OUT. -/
def Obligations.TimePinsAndRootDiscipline : Prop :=
  (∀ (v : BitVec 8) (s : State), s.chip.asleep .ROOT_DISCIPLINE 0 = false →
      v.toNat ≤ 3 →
    Answers (.rootDisciplineWrite v) s fun d =>
      d.accepted ∧
      d.rd .ROOT_DISCIPLINE = v.toNat ∧
      (v = 0 → d.rdBit .ROOT_STATUS 1 = false) ∧
      d.bare = { s.chip.bare with time := d.time } ∧
      (s.chip.Keeps d fun k => k = ⟨.ROOT_DISCIPLINE, 0, 0⟩ ∨ k = ⟨.ROOT_STATUS, 0, 0⟩)) ∧
  (∀ (v : BitVec 8) (s : State), s.chip.asleep .ROOT_DISCIPLINE 0 = false →
      3 < v.toNat →
    Answers (.rootDisciplineWrite v) s fun d =>
      s.chip.TurnedAway d .range) ∧
  (∀ (r : Nat) (s : State), s.chip.rdBit .ROOT_STATUS 1 = true →
      s.chip.trimSource = true →
      s.chip.time.srcFrom = some r →
      r + rootUs 10000000 ≤ s.chip.root →
    Answers (.trimResume) s fun d =>
      d.rdBit .ROOT_STATUS 1 = false ∧
      d.time = { s.chip.time with srcFrom := none } ∧
      d.bare = { s.chip.bare with time := d.time } ∧
      (s.chip.Keeps d fun k => k = ⟨.ROOT_STATUS, 0, 0⟩)) ∧
  (∀ (s : State), s.chip.pwr.rootOn = true →
    Answers (.refInLost) s fun d =>
      d.rdBit .ROOT_STATUS 2 = false ∧
      d.rdBit .ROOT_STATUS 3 = true ∧
      (s.chip.rd .ROOT_DISCIPLINE = 2 → d.rdBit .ROOT_STATUS 1 = true) ∧
      (s.chip.rd .ROOT_DISCIPLINE = 2 → s.chip.rdBit .ROOT_STATUS 1 = false → d.time.held = s.chip.trimMean) ∧
      d.bare = { s.chip.bare with time := d.time } ∧
      (s.chip.Keeps d fun k => k = ⟨.ROOT_STATUS, 0, 0⟩)) ∧
  (∀ (s : State), s.chip.pwr.rootOn = true →
    Answers (.refInPresent) s fun d =>
      d.rdBit .ROOT_STATUS 2 = true ∧
      d.rdBit .ROOT_STATUS 3 = false ∧
      (s.chip.ChangesOnly d fun k => k = ⟨.ROOT_STATUS, 0, 0⟩)) ∧
  (∀ (b : Bool) (sub : Fin 8) (s : State),
    let t := (((s.chip.tb : Int) + sub.val * s.chip.inc1 - idiv (s.chip.rdInt .PPS_IN_DELAY * 2 ^ 48) 1000) % (tbCycle : Int)).toNat;
      s.chip.pwr.rootOn = true →
      b = decide (s.chip.rd .PPS_IN_POLARITY = 1) →
      s.chip.time.ppsLast = none →
    Answers (.ppsInEdge ⟨b, false, sub⟩) s fun d =>
      Counts s.chip d .PPS_IN_COUNT 0 1 ∧
      d.rd .PPS_IN_TIME = time96 t % 2 ^ 96 ∧
      d.time.ppsLast = some t ∧
      d.bare = { s.chip.bare with time := d.time } ∧
      (s.chip.Keeps d fun k => k = ⟨.PPS_IN_COUNT, 0, 0⟩ ∨ k = ⟨.PPS_IN_TIME, 0, 0⟩)) ∧
  (∀ (b : Bool) (sub : Fin 8) (s : State),
    Answers (.ppsInEdge ⟨b, true, sub⟩) s fun d =>
      d.bare = s.chip.bare ∧
      (s.chip.Keeps d fun _ => False)) ∧
  (∀ (r : Nat) (s : State), s.chip.pwr.rootOn = true →
      s.chip.time.ppsDue = some r →
      (s.chip.rd .PPS_OUT_MODE = 2 ∨ (s.chip.rd .PPS_OUT_MODE = 1 ∧ s.chip.rdBool .TIME_VALID = true)) →
    Answers (.ppsOutPulse) s fun d =>
      d.time = { s.chip.time with ppsDue := none, ppsOut := true, ppsEnd := r + 16000 * s.chip.rd .PPS_OUT_WIDTH } ∧
      d.bare = { s.chip.bare with time := d.time } ∧
      (s.chip.Keeps d fun _ => False)) ∧
  (∀ (s : State), s.chip.time.ppsEnd ≤ s.chip.root →
    Answers (.ppsOutEnd) s fun d =>
      d.time = { s.chip.time with ppsOut := false } ∧
      d.bare = { s.chip.bare with time := d.time } ∧
      (s.chip.Keeps d fun _ => False))

/-- R222 to R226: posting, freeing, running and cancelling rows of `TA_TABLE`. -/
def Obligations.TimedActionsArePostedRunAndCancelled : Prop :=
  (∀ (row : Nat) (v : BitVec 320) (path : Path) (src : BitVec 8) (s : State), row < 256 →
      s.chip.permits path 0 Reg.TA_TABLE.info.idx Reg.TA_TABLE.info.sub = true →
      s.chip.asleep .TA_TABLE 0 = false →
      taFieldsOk v.toNat = true →
      s.chip.taIsArmed row = false →
      rowField 40 v.toNat 12 1 = 3 →
      s.chip.tb < ofTime96 (rowField 40 v.toNat 0 12) →
    Answers (.taPost row v path src) s fun d =>
      d.accepted ∧
      d.taIsArmed row = true ∧
      d.rdField .TA_TABLE 0 row 0 12 = rowField 40 v.toNat 0 12 ∧
      d.taTag row = rowField 40 v.toNat 36 4 ∧
      (s.chip.Keeps d fun k => k = ⟨.TA_TABLE, 0, row⟩)) ∧
  (∀ (row : Nat) (v : BitVec 320) (path : Path) (src : BitVec 8) (s : State), 256 ≤ row →
    Answers (.taPost row v path src) s fun d =>
      s.chip.TurnedAway d .row) ∧
  (∀ (row : Nat) (v : BitVec 320) (path : Path) (src : BitVec 8) (s : State), row < 256 →
      s.chip.permits path 0 Reg.TA_TABLE.info.idx Reg.TA_TABLE.info.sub = true →
      s.chip.asleep .TA_TABLE 0 = false →
      taFieldsOk v.toNat = true →
      s.chip.taIsArmed row = false →
      rowField 40 v.toNat 12 1 = 3 →
      ofTime96 (rowField 40 v.toNat 0 12) + tbUs (rowField 40 v.toNat 16 4) < s.chip.tb →
      rowField 40 v.toNat 16 4 ≠ 0 →
    Answers (.taPost row v path src) s fun d =>
      d.accepted ∧
      d.rdField .TA_TABLE 0 row 13 1 = 4 ∧
      d.rdField .TA_TABLE 0 row 27 1 = 1 ∧
      Counts s.chip d .TA_REFUSED_COUNT 0 1) ∧
  (∀ (row : Nat) (v : BitVec 320) (s : State), row < 256 →
      s.chip.asleep .TA_TABLE 0 = false →
      taFieldsOk (setRowField 40 v.toNat 12 1 0) = true →
      s.chip.taIsArmed row = false →
    Answers (.taNone row v) s fun d =>
      d.accepted ∧
      d.rdField .TA_TABLE 0 row 12 1 = 0 ∧
      d.rdField .TA_TABLE 0 row 13 1 = 0 ∧
      (s.chip.ChangesOnly d fun k => k = ⟨.TA_TABLE, 0, row⟩)) ∧
  (∀ (row : Fin 256) (i : Nat) (s : State), s.chip.pwr.rootOn = true →
      s.chip.pwr.state = .active →
      s.chip.taIsArmed row = true →
      s.chip.taTime row ≤ s.chip.tb →
      ((s.chip.rdField .TA_TABLE 0 row 14 2).testBit 3 = false ∨ s.chip.rdBool .TIME_VALID = true) →
      s.chip.rdField .TA_TABLE 0 row 12 1 = 1 →
      addrTarget (s.chip.rdField .TA_TABLE 0 row 20 5) = some (0, .DOWNSHIFT_ENABLE, i) →
      taUnits (bits (s.chip.rdField .TA_TABLE 0 row 20 5) 35 24) (s.chip.rdField .TA_TABLE 0 row 25 2) = some [i] →
      s.chip.rdField .TA_TABLE 0 row 28 8 ≤ 1 →
      s.chip.asleep .DOWNSHIFT_ENABLE i = false →
    Answers (.taWrite row) s fun d =>
      d.rd .DOWNSHIFT_ENABLE i = s.chip.rdField .TA_TABLE 0 row 28 8 ∧
      d.rdField .TA_TABLE 0 row 13 1 = 2 ∧
      (s.chip.Keeps d fun k => k = ⟨.TA_TABLE, 0, row⟩ ∨ k = ⟨.DOWNSHIFT_ENABLE, i, 0⟩)) ∧
  (∀ (row : Fin 256) (l : List (Key × Nat)) (s : State), s.chip.pwr.rootOn = true →
      s.chip.pwr.state = .active →
      s.chip.taIsArmed row = true →
      s.chip.taTime row ≤ s.chip.tb →
      ((s.chip.rdField .TA_TABLE 0 row 14 2).testBit 3 = false ∨ s.chip.rdBool .TIME_VALID = true) →
      s.chip.rdField .TA_TABLE 0 row 12 1 = 2 →
      s.chip.cfg.deadline = none →
      s.chip.cfg.staged = some l →
      (s.chip.withValues l).bufReason = 0 →
    Answers (.taCommit row) s fun d =>
      d.nv.cfg = { active := { s.chip.nv.cfg.candidate with confirmed := false }, previous := s.chip.nv.cfg.active, candidate := s.chip.nv.cfg.previous } ∧
      d.cfg.staged = none ∧
      d.cfg.deadline.isSome = true ∧
      d.cfg.upsett = some (s.chip.cfg.posters.getD row 0, s.chip.taTag row)) ∧
  (∀ (row : Fin 256) (s : State), s.chip.pwr.rootOn = true →
      s.chip.pwr.state = .active →
      s.chip.taIsArmed row = true →
      s.chip.taTime row ≤ s.chip.tb →
      ((s.chip.rdField .TA_TABLE 0 row 14 2).testBit 3 = false ∨ s.chip.rdBool .TIME_VALID = true) →
      s.chip.rdField .TA_TABLE 0 row 12 1 = 3 →
    Answers (.taMark row) s fun d =>
      d.rdField .TA_TABLE 0 row 13 1 = 2 ∧
      d.taTag row = s.chip.taTag row ∧
      d.bare = s.chip.bare ∧
      (s.chip.ChangesOnly d fun k => k = ⟨.TA_TABLE, 0, row⟩)) ∧
  (∀ (v : BitVec 16) (s : State), s.chip.asleep .TA_CANCEL 0 = false →
      v.toNat ≤ 255 →
      s.chip.taIsArmed v.toNat = true →
    Answers (.taCancel v) s fun d =>
      d.accepted ∧
      d.rdField .TA_TABLE 0 v.toNat 13 1 = 6 ∧
      (s.chip.ChangesOnly d fun k => k = ⟨.TA_TABLE, 0, v.toNat⟩)) ∧
  (∀ (v : BitVec 16) (s : State), s.chip.asleep .TA_CANCEL 0 = false →
      v.toNat ≤ 255 →
      s.chip.taIsArmed v.toNat = false →
    Answers (.taCancel v) s fun d =>
      s.chip.TurnedAway d .state)

/-- R12 to R15, R238, R239, R243, R244, R249, R251, R265, R274: start decisions, cuts, reads, ends and the judging of heads. -/
def Obligations.FramesStartAndEndOnTheWire : Prop :=
  (∀ (p : PortNo) (ready : Bool) (g : Grid) (x : Cand) (k : Pick) (b : Bool) (s : State),
    let pos := g.first (s.chip.decideFrom g p) (s.chip.sch p).free;
    let c := (s.chip.setSch p fun st => { st with decided := g.instant pos }).judgeHeads p (g.instant pos);
      s.chip.grid p = some g →
      s.chip.mayDecide p = true →
      (c.choose g p pos false).1 = some (x, k, b) →
      (ready = true ∨ x.cont.isSome = true ∨ x.frame.read = true) →
    Answers (.startDecision p pos ready) s fun d =>
      (((d.sch p).live.getLast?.map fun y => (y.frame.id, y.start)) = some (x.frame.id, pos)) ∧
      (d.sch p).live.length = (s.chip.sch p).live.length + 1 ∧
      (d.sch p).free = g.after pos k.oct ∧
      (d.sch p).decided = g.instant pos) ∧
  (∀ (p : PortNo) (ready : Bool) (g : Grid) (s : State),
    let pos := g.first (s.chip.decideFrom g p) (s.chip.sch p).free;
    let c := (s.chip.setSch p fun st => { st with decided := g.instant pos }).judgeHeads p (g.instant pos);
      s.chip.grid p = some g →
      s.chip.mayDecide p = true →
      (c.choose g p pos false).1.isNone = true →
    Answers (.startDecision p pos ready) s fun d =>
      (d.sch p).live = (s.chip.sch p).live ∧
      (d.sch p).free = (s.chip.sch p).free ∧
      (d.sch p).decided = g.instant pos) ∧
  (∀ (p : PortNo) (ready : Bool) (g : Grid) (r : Frag) (x : Cand) (k : Pick) (b : Bool) (s : State),
    let q := g.first (max r.wire (s.chip.decideFrom g p)) 0;
    let e := g.instant q;
    let c := s.chip.setSch p fun st => { st with decided := e };
    let cut := max (s.chip.leastCut p) (r.outBy g e);
    let pos := g.first e (g.after r.start (preOctets + cut + mcrcOctets - r.base));
      s.chip.grid p = some g →
      (s.chip.sch p).running = some r →
      s.chip.mayDecide p = true →
      r.pre = true →
      s.chip.mmActive p = true →
      e < r.done →
      cut + 64 ≤ (s.chip.sch p).whole r →
      cut < r.total →
      (c.choose g p pos true).1 = some (x, k, b) →
      x.cont = none →
      k.final = true →
      (ready = true ∨ x.frame.read = true) →
    Answers (.expressDecision p q ready) s fun d =>
      (((d.sch p).live.getLast?.map fun y => (y.frame.id, y.start)) = some (x.frame.id, pos)) ∧
      (((d.sch p).susp.map fun y => (y.frame.id, y.frag)) = some (r.frame.id, r.frag + 1)) ∧
      (d.sch p).free = g.after pos k.oct ∧
      (d.sch p).decided = e) ∧
  (∀ (p : PortNo) (pos : Nat) (ready : Bool) (g : Grid) (s : State), s.chip.grid p = some g →
      pos ≠ g.first (s.chip.decideFrom g p) (s.chip.sch p).free →
    Answers (.startDecision p pos ready) s fun d =>
      d.bare = s.chip.bare ∧
      (s.chip.Keeps d fun _ => False)) ∧
  (∀ (p : PortNo) (pos : Nat) (ready : Bool) (g : Grid) (r : Frag) (s : State), s.chip.grid p = some g →
      (s.chip.sch p).running = some r →
      pos ≠ g.first (max r.wire (s.chip.decideFrom g p)) 0 →
    Answers (.expressDecision p pos ready) s fun d =>
      d.bare = s.chip.bare ∧
      (s.chip.Keeps d fun _ => False)) ∧
  (∀ (p : PortNo) (n : Nat) (f : Frame) (s : State), s.chip.findFrame p n = some f →
    Answers (.launchReadComplete p n .clean) s fun d =>
      (d.queue f.fq = (s.chip.queue f.fq).map fun x => if x.id = n then { x with read := true } else x) ∧
      d.bare = { s.chip.bare with queues := d.queues } ∧
      (s.chip.Keeps d fun _ => False)) ∧
  (∀ (p : PortNo) (n : Nat) (h : QcNo) (f : Frame) (s : State), s.chip.findFrame p n = some f →
    Answers (.launchReadComplete p n (.uncorrectable h)) s fun d =>
      (∀ x ∈ d.queue f.fq, x.id ≠ f.id) ∧
      Counts s.chip d .QC_UE_COUNT h 1 ∧
      (s.chip.rd .QC_STATE h = 0 → d.rd .QC_STATE h ≠ 0)) ∧
  (∀ (p : PortNo) (n : Nat) (h : QcNo) (f : Frame) (s : State), s.chip.findFrame p n = some f →
      s.chip.rd .QC_STATE h = 3 →
    Answers (.launchReadComplete p n (.corrected h)) s fun d =>
      (d.queue f.fq = (s.chip.queue f.fq).map fun x => if x.id = n then { x with read := true } else x) ∧
      Counts s.chip d .QC_CE_COUNT h 1 ∧
      (s.chip.Keeps d fun k => k = ⟨.QC_CE_COUNT, h, 0⟩)) ∧
  (∀ (p : PortNo) (n : Nat) (h : QcNo) (x : Susp) (s : State), s.chip.findFrame p n = none →
      (s.chip.sch p).live = [] →
      (s.chip.sch p).susp = some x →
      x.frame.id = n →
    Answers (.launchReadComplete p n (.uncorrectable h)) s fun d =>
      (d.sch p).susp = none ∧
      Counts s.chip d .QC_UE_COUNT h 1 ∧
      d.rdField .Q_COUNTERS p x.frame.lq 28 4 = (s.chip.rdField .Q_COUNTERS p x.frame.lq 28 4 + 1) % 2 ^ 32) ∧
  (∀ (p : PortNo) (r : Frag) (l : List Frag) (s : State), (s.chip.sch p).live = r :: l →
      r.final = true →
    Answers (.frameEndOnWire p) s fun d =>
      (d.sch p).live = l ∧
      d.rdField .Q_COUNTERS p r.frame.lq 0 8 = (s.chip.rdField .Q_COUNTERS p r.frame.lq 0 8 + 1) % 2 ^ 64 ∧
      d.rdField .Q_COUNTERS p r.frame.lq 8 8 = (s.chip.rdField .Q_COUNTERS p r.frame.lq 8 8 + r.frame.len) % 2 ^ 64) ∧
  (∀ (p : PortNo) (r : Frag) (l : List Frag) (s : State), (s.chip.sch p).live = r :: l →
      r.final = false →
    Answers (.frameEndOnWire p) s fun d =>
      (d.sch p).live = l ∧
      Counts s.chip d .MM_FRAG_TX p 1 ∧
      d.queues = s.chip.queues) ∧
  (∀ (p : PortNo) (f : Frame) (k : DropKind) (e : EvName) (s : State), s.chip.queues = [(f.fq, [f])] →
      f.port = p.val →
      s.chip.headFate f s.chip.root = some (k, e) →
    Answers (.queueHeadJudge p) s fun d =>
      d.queue f.fq = [] ∧
      d.rdField .Q_COUNTERS p f.lq k.offset 4 = (s.chip.rdField .Q_COUNTERS p f.lq k.offset 4 + 1) % 2 ^ 32) ∧
  (∀ (p : PortNo) (f : Frame) (l : List Frame) (s : State), s.chip.queues = [(f.fq, f :: l)] →
      s.chip.headFate f s.chip.root = none →
    Answers (.queueHeadJudge p) s fun d =>
      d.queues = s.chip.queues ∧
      (s.chip.Keeps d fun k => k = ⟨.LPI_NEXT_WAKE, p, 0⟩))

/-- R246 to R248, R250: gating, bank swaps and the verification of preemption. -/
def Obligations.GatesAndPreemptionFollowTheirWrites : Prop :=
  (∀ (p : PortNo) (s : State),
    Answers (.gateEdge p) s fun d =>
      d.sch p = { s.chip.sch p with gates := s.chip.gatesAt p s.chip.tb } ∧
      (d.bare = { s.chip.bare with sched := d.sched } ∧ ∀ q, q ≠ p.val → d.sch q = s.chip.sch q) ∧
      (s.chip.Keeps d fun _ => False)) ∧
  (∀ (p : PortNo) (w : Swap) (s : State), (s.chip.sch p).swap = some w →
      w.instant ≤ s.chip.tb →
    Answers (.gateSwapExecute p) s fun d =>
      (d.sch p).bank = w.bank ∧
      (d.sch p).swap = none) ∧
  (∀ (p : PortNo) (s : State), s.chip.asleep .GATE_ENABLE p = false →
      s.chip.bankOk p (s.chip.sch p).bank = true →
    Answers (.gateEnableTrue p) s fun d =>
      d.accepted ∧
      d.rdBool .GATE_ENABLE p = true ∧
      (d.sch p).gateFrom = s.chip.bankStart p (s.chip.sch p).bank s.chip.tb) ∧
  (∀ (p : PortNo) (s : State), s.chip.asleep .GATE_ENABLE p = false →
      s.chip.bankOk p (s.chip.sch p).bank = false →
    Answers (.gateEnableTrue p) s fun d =>
      s.chip.TurnedAway d .range) ∧
  (∀ (p : PortNo) (s : State), s.chip.asleep .GATE_ENABLE p = false →
    Answers (.gateEnableFalse p) s fun d =>
      d.accepted ∧
      d.rdBool .GATE_ENABLE p = false ∧
      (d.sch p).gateFrom = 0 ∧
      (d.sch p).gates = 0xFF) ∧
  (∀ (p : PortNo) (v : BitVec 8) (s : State), s.chip.asleep .GATE_SWAP p = false →
      v.toNat ≤ 1 →
      s.chip.bankOk p v.toNat = true →
      v.toNat ≠ (s.chip.sch p).bank →
      (s.chip.sch p).swap = none →
    Answers (.gateSwapRequest p v) s fun d =>
      d.accepted ∧
      (d.sch p).swap = some ⟨v.toNat, s.chip.bankStart p v.toNat s.chip.tb⟩ ∧
      d.rd .GATE_SWAP_TIME p = time96 (s.chip.bankStart p v.toNat s.chip.tb) % 2 ^ 96 ∧
      (d.sch p).bank = (s.chip.sch p).bank) ∧
  (∀ (p : PortNo) (w : Swap) (s : State), s.chip.asleep .GATE_SWAP p = false →
      (s.chip.sch p).swap = some w →
    Answers (.gateSwapCancel p) s fun d =>
      d.accepted ∧
      (d.sch p).swap = none ∧
      (d.sch p).bank = (s.chip.sch p).bank) ∧
  (∀ (p : PortNo) (s : State), s.chip.asleep .GATE_SWAP p = false →
      (s.chip.sch p).swap = none →
    Answers (.gateSwapCancel p) s fun d =>
      s.chip.TurnedAway d .state) ∧
  (∀ (p : PortNo) (s : State), s.chip.asleep .MM_ENABLE p = false →
    Answers (.mmEnableTrue p) s fun d =>
      d.accepted ∧
      d.rdBool .MM_ENABLE p = true ∧
      (s.chip.up p = true → d.rd .MM_STATUS p = 1 ∧ (d.sch p).verifies = 0)) ∧
  (∀ (p : PortNo) (s : State), s.chip.asleep .MM_ENABLE p = false →
    Answers (.mmEnableFalse p) s fun d =>
      d.accepted ∧
      d.rdBool .MM_ENABLE p = false ∧
      d.rd .MM_STATUS p = 0 ∧
      (d.sch p).verifies = 0) ∧
  (∀ (p : PortNo) (s : State), s.chip.rd .MM_STATUS p = 1 →
      s.chip.up p = true →
      (s.chip.sch p).verifies < 3 →
    Answers (.mmVerifyTimer p) s fun d =>
      d.sch p = { s.chip.sch p with verifies := (s.chip.sch p).verifies + 1, mmOut := 1 } ∧
      (d.bare = { s.chip.bare with sched := d.sched } ∧ ∀ q, q ≠ p.val → d.sch q = s.chip.sch q) ∧
      (s.chip.Keeps d fun _ => False)) ∧
  (∀ (p : PortNo) (s : State), s.chip.rd .MM_STATUS p = 1 →
      s.chip.up p = true →
      3 ≤ (s.chip.sch p).verifies →
    Answers (.mmVerifyTimer p) s fun d =>
      d.rd .MM_STATUS p = 3 ∧
      d.bare = s.chip.bare ∧
      (s.chip.Keeps d fun k => k = ⟨.MM_STATUS, p, 0⟩)) ∧
  (∀ (p : PortNo) (s : State), s.chip.up p = true →
      s.chip.rd .MM_STATUS p = 1 →
      (s.chip.sch p).verifies ≠ 0 →
    Answers (.mmVerifyReceived p true) s fun d =>
      d.rd .MM_STATUS p = 2 ∧
      (s.chip.Keeps d fun k => k = ⟨.MM_STATUS, p, 0⟩ ∨ k = ⟨.LPI_NEXT_WAKE, p, 0⟩)) ∧
  (∀ (p : PortNo) (s : State), s.chip.up p = true →
    Answers (.mmVerifyReceived p false) s fun d =>
      d.sch p = { s.chip.sch p with mmOut := 2 } ∧
      (d.bare = { s.chip.bare with sched := d.sched } ∧ ∀ q, q ≠ p.val → d.sch q = s.chip.sch q) ∧
      (s.chip.Keeps d fun _ => False))

/-- R230 to R232, R235, R237, R253, R254: writes of blocks, queues, shapers and meters. -/
def Obligations.QueueAndShaperWritesAreCarriedOut : Prop :=
  (∀ (p : PortNo) (row : Nat) (v : BitVec 16) (s : State),
    let new := s.chip.blockRows p row v.toNat;
      row < 8 →
      s.chip.asleep .Q_BLOCKS p = false →
      rowsPacked new = true →
      (v.toNat = 0xFFFF ∨ (v.toNat ≤ 511 ∧ (s.chip.rd .Q_BLOCK_OWNER 0 v.toNat = 0xFFFF ∨ s.chip.rd .Q_BLOCK_OWNER 0 v.toNat = p.val))) →
      s.chip.rdBool .PORT_ENABLE p = false →
      (∀ b ∈ s.chip.rowsOf p, b ∉ new → b ≠ 0xFFFF → s.chip.blockHolds b = false) →
      ((new.filter fun b => b != 0xFFFF) = [] ∨ s.chip.rd .Q_DEFAULT p < 512 * (new.filter fun b => b != 0xFFFF).length) →
    Answers (.qBlocksWrite p row v) s fun d =>
      d.accepted ∧
      d.rd .Q_BLOCKS p row = v.toNat ∧
      (v.toNat ≠ 0xFFFF → d.rd .Q_BLOCK_OWNER 0 v.toNat = p.val) ∧
      (s.chip.Keeps d fun k => k = ⟨.Q_BLOCKS, p, row⟩ ∨ k.reg = .Q_BLOCK_OWNER)) ∧
  (∀ (p : PortNo) (v : BitVec 16) (s : State), s.chip.asleep .Q_DEFAULT p = false →
      v.toNat ≤ 4095 →
      (s.chip.blocks p = [] ∨ v.toNat < 512 * (s.chip.blocks p).length) →
    Answers (.qDefaultWrite p v) s fun d =>
      d.accepted ∧
      d.rd .Q_DEFAULT p = v.toNat ∧
      (s.chip.ChangesOnly d fun k => k = ⟨.Q_DEFAULT, p, 0⟩)) ∧
  (∀ (p : PortNo) (s : State), s.chip.asleep .Q_FLUSH p = false →
    Answers (.qFlush p 1) s fun d =>
      d.accepted ∧
      (∀ e ∈ s.chip.queues, ∀ f ∈ e.2, f.port = p.val → ∀ x ∈ d.queue f.fq, x.id ≠ f.id)) ∧
  (∀ (p : PortNo) (row : Nat) (v : BitVec 128) (s : State), row < 4096 →
      s.chip.asleep .Q_CONFIG p = false →
      qRowOk p v.toNat = true →
    Answers (.qConfigWrite p row v) s fun d =>
      d.accepted ∧
      d.rd .Q_CONFIG p row = setBits v.toNat 47 0 0 % 2 ^ 128) ∧
  (∀ (p : PortNo) (row : Nat) (v : BitVec 128) (s : State), row < 4096 →
      s.chip.asleep .Q_CONFIG p = false →
      bits v.toNat 121 112 = 0 →
    Answers (.qConfigWrite p row v) s fun d =>
      s.chip.TurnedAway d .range) ∧
  (∀ (x : ShaperSel) (v : BitVec 64) (s : State), s.chip.asleep x.obj.1 x.obj.2 = false →
      shRate v.toNat ≤ 200000000 →
      shBurst v.toNat ≤ 16777215 →
    Answers (.shaperWrite x v) s fun d =>
      d.accepted ∧
      d.shRow x.ref = v.toNat ∧
      d.shaper x.ref = (s.chip.shaper x.ref).change (shRate (s.chip.shRow x.ref)) (shBurst (s.chip.shRow x.ref)) (shRate v.toNat) (shBurst v.toNat) s.chip.root) ∧
  (∀ (x : ShaperSel) (v : BitVec 64) (s : State), s.chip.asleep x.obj.1 x.obj.2 = false →
      200000000 < shRate v.toNat →
    Answers (.shaperWrite x v) s fun d =>
      s.chip.TurnedAway d .range) ∧
  (∀ (x : ShaperSel) (s : State),
    Answers (.shaperDebtEnd x) s fun d =>
      d.shaper x.ref = (s.chip.shaper x.ref).debtEnd s.chip.root ∧
      (∀ y : ShaperSel, y ≠ x → d.shaper y.ref = s.chip.shaper y.ref) ∧
      (s.chip.Keeps d fun _ => False)) ∧
  (∀ (row : Nat) (v : BitVec 128) (s : State), row < 65536 →
      s.chip.asleep .MTR_CONFIG 0 = false →
      bits v.toNat 95 64 ≤ 200000000 →
      bits v.toNat 127 96 ≤ bits v.toNat 95 64 →
      bits v.toNat 63 32 ≤ 16777215 →
      bits v.toNat 31 0 ≤ 16777215 →
    Answers (.mtrConfigWrite row v) s fun d =>
      d.accepted ∧
      d.rd .MTR_CONFIG 0 row = v.toNat ∧
      d.meters.get? row = none ∧
      (s.chip.Keeps d fun k => k = ⟨.MTR_CONFIG, 0, row⟩)) ∧
  (∀ (p : PortNo) (count : Bool) (v : BitVec 16) (s : State), (s.chip.asleep (if count then .RX_METER_COUNT else .RX_METER_BASE) p = false) →
      ((if count then v.toNat else s.chip.rd .RX_METER_COUNT p) ≤ 4096) →
      (meterRangesOk ((p.val, (if count then s.chip.rd .RX_METER_BASE p else v.toNat), (if count then v.toNat else s.chip.rd .RX_METER_COUNT p)) :: s.chip.meterRanges.filter fun x => x.1 != p.val) = true) →
    Answers (.rxMeterRangeWrite p count v) s fun d =>
      d.accepted ∧
      (d.rd (if count then .RX_METER_COUNT else .RX_METER_BASE) p = v.toNat) ∧
      (s.chip.ChangesOnly d fun k => k = ⟨if count then .RX_METER_COUNT else .RX_METER_BASE, p, 0⟩))

/-- R12, R233, R257 to R261, R270, R271, R273, R274, Table 11-6: cells of arriving frames, scrubbing, retirement and
re-evaluation. -/
def Obligations.CellsAreAdmittedAndChannelsRetired : Prop :=
  (∀ (p : PortNo) (h : QcNo) (fill : WriteFill) (f : Frame) (l : List Frame) (s : State),
    let inP := if f.cells.isEmpty then s.chip.inProfileNow p (s.chip.svcOf f) else f.inProfile;
      (s.chip.sch p).arriving = f :: l →
      h.val = s.chip.chooseChannel f →
      s.chip.admitCause p (s.chip.svcOf f) f inP fill = none →
      64 * (f.cells.length + 1) < f.len →
    Answers (.admitCell p h fill) s fun d =>
      (d.sch p).arriving.head? = some { f with cells := h.val :: f.cells, inProfile := inP } ∧
      d.queues = s.chip.queues ∧
      (d.buf.writes.getD h.val []).length = (s.chip.buf.writes.getD h.val []).length + 1) ∧
  (∀ (p : PortNo) (h : QcNo) (fill : WriteFill) (f : Frame) (l : List Frame) (s : State),
    let inP := if f.cells.isEmpty then s.chip.inProfileNow p (s.chip.svcOf f) else f.inProfile;
      (s.chip.sch p).arriving = f :: l →
      h.val = s.chip.chooseChannel f →
      s.chip.admitCause p (s.chip.svcOf f) f inP fill = none →
      f.len ≤ 64 * (f.cells.length + 1) →
    Answers (.admitCell p h fill) s fun d =>
      (((d.queue f.fq).getLast?.map fun x => (x.id, x.elig, x.eligRoot, x.cells.length)) = some (f.id, s.chip.tb, s.chip.root, f.cells.length + 1)) ∧
      (d.queue f.fq).length = (s.chip.queue f.fq).length + 1 ∧
      (∀ x ∈ (d.sch p).arriving, x.id ≠ f.id)) ∧
  (∀ (p : PortNo) (h : QcNo) (fill : WriteFill) (f : Frame) (l : List Frame) (k : BufCause) (s : State),
    let inP := if f.cells.isEmpty then s.chip.inProfileNow p (s.chip.svcOf f) else f.inProfile;
      (s.chip.sch p).arriving = f :: l →
      s.chip.admitCause p (s.chip.svcOf f) f inP fill = some k →
      inP = false →
      k ≠ .rate →
    Answers (.admitCell p h fill) s fun d =>
      (∀ x ∈ (d.sch p).arriving, x.id ≠ f.id) ∧
      d.queues = s.chip.queues ∧
      d.rdField .SVC_BUF_STATE p (s.chip.svcOf f) k.offset 4 = (s.chip.rdField .SVC_BUF_STATE p (s.chip.svcOf f) k.offset 4 + 1) % 2 ^ 32 ∧
      d.rdField .Q_COUNTERS p f.lq 28 4 = (s.chip.rdField .Q_COUNTERS p f.lq 28 4 + 1) % 2 ^ 32) ∧
  (∀ (h : QcNo) (x : Fin 65536) (s : State),
    Answers (.scrubRead h x .clean) s fun d =>
      d.bare = s.chip.bare ∧
      (s.chip.Keeps d fun _ => False)) ∧
  (∀ (h : QcNo) (x : Fin 65536) (s : State), s.chip.rd .QC_STATE h ≠ 3 →
      s.chip.pwr.rootOn = true →
      s.chip.rdBit .LEGACY_GATE 4 = true →
      (((s.chip.buf.ces.getD h []).filter fun r => s.chip.root < r + rootUs 1000000).length < s.chip.rd .BUF_CE_LIMIT) →
    Answers (.scrubRead h x .corrected) s fun d =>
      Counts s.chip d .QC_CE_COUNT h 1 ∧
      d.buf = { s.chip.buf with writeBack := s.chip.buf.writeBack ++ [(h.val, x.val)], ces := d.buf.ces } ∧
      (d.buf.ces.getD h []).head? = some s.chip.root ∧
      d.bare = { s.chip.bare with buf := d.buf } ∧
      (s.chip.Keeps d fun k => k = ⟨.QC_CE_COUNT, h, 0⟩)) ∧
  (∀ (h : QcNo) (x : Fin 65536) (s : State), s.chip.rd .QC_STATE h = 0 →
      s.chip.pwr.rootOn = true →
      s.chip.rdBit .LEGACY_GATE 4 = true →
      (s.chip.rd .BUF_CE_LIMIT ≤ ((s.chip.buf.ces.getD h []).filter fun r => s.chip.root < r + rootUs 1000000).length) →
    Answers (.scrubRead h x .corrected) s fun d =>
      Counts s.chip d .QC_CE_COUNT h 1 ∧
      (d.rd .QC_STATE h = (if s.chip.chUsed h = 0 then 3 else 2))) ∧
  (∀ (h : QcNo) (x : Fin 65536) (n : Option Nat) (s : State), s.chip.rd .QC_STATE h = 0 →
      s.chip.pwr.rootOn = true →
      s.chip.rdBit .LEGACY_GATE 4 = true →
    Answers (.scrubRead h x (.uncorrectable n)) s fun d =>
      Counts s.chip d .QC_UE_COUNT h 1 ∧
      (d.rd .QC_STATE h = (if s.chip.chUsed h = 0 then 3 else 2))) ∧
  (∀ (h : QcNo) (x : Fin 65536) (s : State),
    Answers (.scrubWriteback h x) s fun d =>
      (d.buf = { s.chip.buf with writeBack := s.chip.buf.writeBack.filter fun y => y != (h.val, x.val) }) ∧
      d.bare = { s.chip.bare with buf := d.buf } ∧
      (s.chip.Keeps d fun _ => False)) ∧
  (∀ (h : QcNo) (s : State), s.chip.asleep .QC_RETIRE h = false →
      s.chip.rd .QC_STATE h = 0 →
    Answers (.qcRetire h 1) s fun d =>
      d.accepted ∧
      (d.rd .QC_STATE h = (if s.chip.chUsed h = 0 then 3 else 2))) ∧
  (∀ (h : QcNo) (s : State), s.chip.asleep .QC_RETIRE h = false →
      s.chip.rd .QC_STATE h ≠ 0 →
    Answers (.qcRetire h 1) s fun d =>
      s.chip.TurnedAway d .state) ∧
  (∀ (h : QcNo) (s : State), s.chip.rd .QC_STATE h = 2 →
      s.chip.chUsed h = 0 →
    Answers (.channelDrained h) s fun d =>
      d.rd .QC_STATE h = 3 ∧
      (s.chip.ChangesOnly d fun k => k = ⟨.QC_STATE, h, 0⟩)) ∧
  (∀ (s : State), s.chip.asleep .BUF_REEVALUATE 0 = false →
    Answers (.bufReevaluate 1) s fun d =>
      d.accepted ∧
      d.rdBit .BUF_STATUS 1 = false ∧
      (∀ x ∈ s.chip.guaranteed, d.ssMinSeen x.1 x.2 = 0xFFFF))

/-- R280 to R284, R288, Table 12-3: Wale ports leave and enter their states. -/
def Obligations.WalePortsGainLoseAndEndLinks : Prop :=
  (∀ (w : WlNo) (s : State), s.chip.asleep .WL_ENABLE w = false →
      s.chip.wlState w = 0 →
      s.chip.rdBool .WALE_ENABLE = true →
      s.chip.rd .BIST_STATE_WL w ≠ 2 →
    Answers (.wlEnableWrite (some w) 1) s fun d =>
      d.accepted ∧
      d.rdBool .WL_ENABLE w = true ∧
      d.wlState w = 1 ∧
      d.bare = s.chip.bare ∧
      (s.chip.Keeps d fun k => k = ⟨.WL_ENABLE, w, 0⟩ ∨ k = ⟨.WL_STATE, w, 0⟩)) ∧
  (∀ (w : WlNo) (s : State), s.chip.asleep .WL_ENABLE w = false →
      s.chip.wlState w ≠ 0 →
    Answers (.wlEnableWrite (some w) 0) s fun d =>
      d.accepted ∧
      d.rdBool .WL_ENABLE w = false ∧
      d.wlState w = 0 ∧
      d.rd .WL_STATUS w = 0 ∧
      (s.chip.wlState w = 4 → d.rd .WL_LINK_DOWN_COUNT w = (s.chip.rd .WL_LINK_DOWN_COUNT w + 1) % 2 ^ 32 ∧ d.rd .WL_PARTNER_ID w = 0 ∧ d.rd .WL_PARTNER_PORT w = 0xFF)) ∧
  (∀ (s : State), s.chip.asleep .WALE_ENABLE 0 = false →
    Answers (.wlEnableWrite none 0) s fun d =>
      d.accepted ∧
      d.rdBool .WALE_ENABLE = false ∧
      (∀ w : WlNo, d.wlState w = 0)) ∧
  (∀ (s : State), s.chip.asleep .WALE_ENABLE 0 = false →
      s.chip.rdBit .LEGACY_GATE 5 = false →
    Answers (.wlEnableWrite none 1) s fun d =>
      s.chip.TurnedAway d .state) ∧
  (∀ (w : WlNo) (x : Fin 66) (s : State), s.chip.wlState w = 1 →
    Answers (.wlHeaderLock w x) s fun d =>
      d.wlState w = 2 ∧
      d.rdBit .WL_STATUS 1 w = true ∧
      d.rd .WL_HDR_VALID w = 64 ∧
      (d.rd .WL_SLIP_POS w = (if s.chip.rd .WL_SLIP_MODE w = 0 then x.val else s.chip.rd .WL_SLIP_POS w)) ∧
      (s.chip.Keeps d fun k => k = ⟨.WL_STATE, w, 0⟩ ∨ k = ⟨.WL_STATUS, w, 0⟩ ∨ k = ⟨.WL_HDR_VALID, w, 0⟩ ∨ k = ⟨.WL_SLIP_POS, w, 0⟩) ∧
      (∀ k : Nat, k ≠ w.val → d.wl k = s.chip.wl k)) ∧
  (∀ (w : WlNo) (n : Nat) (v : Fin 65) (b : Bool) (s : State), 2 ≤ s.chip.wlState w →
    Answers (.wlHeaderLockLost w n v b) s fun d =>
      d.wlState w = 1 ∧
      d.rdBit .WL_STATUS 1 w = false ∧
      d.rdBit .WL_STATUS 0 w = b ∧
      Counts s.chip d .WL_HDR_ERR w n ∧
      d.rd .WL_HDR_VALID w = v.val ∧
      (d.wl w).squelch = (s.chip.wlState w == 4 || s.chip.wlState w == 3) ∧
      (s.chip.wlState w = 4 → d.rd .WL_LINK_DOWN_COUNT w = (s.chip.rd .WL_LINK_DOWN_COUNT w + 1) % 2 ^ 32) ∧
      (∀ k : Nat, k ≠ w.val → d.wl k = s.chip.wl k)) ∧
  (∀ (w : WlNo) (b : Bool) (s : State), s.chip.wlState w = 2 →
    Answers (.wlAligned w b) s fun d =>
      d.wlState w = 3 ∧
      d.rdBit .WL_STATUS 2 w = b ∧
      d.bare = s.chip.bare ∧
      (s.chip.Keeps d fun k => k = ⟨.WL_STATE, w, 0⟩ ∨ k = ⟨.WL_STATUS, w, 0⟩)) ∧
  (∀ (w : WlNo) (s : State), s.chip.asleep .WL_SLIP w = false →
      s.chip.rd .WL_SLIP_MODE w = 1 →
      (s.chip.wlState w = 1 ∨ s.chip.wlState w = 2) →
    Answers (.wlSlip w 1) s fun d =>
      d.accepted ∧
      d.rd .WL_SLIP_POS w = (s.chip.rd .WL_SLIP_POS w + 1) % 66 ∧
      d.rd .WL_HDR_VALID w ≤ 64 ∧
      (s.chip.Keeps d fun k => k = ⟨.WL_SLIP_POS, w, 0⟩ ∨ k = ⟨.WL_HDR_VALID, w, 0⟩)) ∧
  (∀ (w : WlNo) (s : State), s.chip.asleep .WL_SLIP w = false →
      (s.chip.rd .WL_SLIP_MODE w ≠ 1 ∨ (s.chip.wlState w ≠ 1 ∧ s.chip.wlState w ≠ 2)) →
    Answers (.wlSlip w 1) s fun d =>
      s.chip.TurnedAway d .state) ∧
  (∀ (w : WlNo) (s : State), (s.chip.wlState w = 3 ∨ s.chip.wlState w = 4) →
      (s.chip.wl w).queue 1 = [] →
    Answers (.wlHelloSend w) s fun d =>
      (d.wl w).queue 1 = [{ dest := 0, src := s.chip.rd .WALE_ADDRESS, cls := 1, kind := 1, payload := s.chip.helloOctets w }] ∧
      d.bare = { s.chip.bare with wale := d.bare.wale } ∧
      (∀ k : Nat, k ≠ w.val → d.wl k = s.chip.wl k) ∧
      (s.chip.Keeps d fun _ => False)) ∧
  (∀ (w : WlNo) (x : BitVec 256) (s : State),
    let l := natToOctets 32 x.toNat;
      s.chip.wlState w = 3 →
      octNat l 12 8 = s.chip.ownId →
      octNat l 20 1 = w.val →
    Answers (.hello w x) s fun d =>
      d.wlState w = 4 ∧
      d.rdBit .WL_STATUS 3 w = true ∧
      d.rd .WL_PARTNER_ID w = octNat l 0 8 ∧
      d.rd .WL_PARTNER_PORT w = octNat l 8 1 ∧
      (d.wl w).heard = some (octNat l 0 8, octNat l 8 1) ∧
      d.wale.dirty = true) ∧
  (∀ (w : WlNo) (x : BitVec 256) (s : State),
    let l := natToOctets 32 x.toNat;
      s.chip.wlState w = 4 →
      (s.chip.wl w).heard ≠ some (octNat l 0 8, octNat l 8 1) →
    Answers (.hello w x) s fun d =>
      d.wlState w = 1 ∧
      d.rd .WL_PARTNER_ID w = 0 ∧
      (d.wl w).heard = none ∧
      Counts s.chip d .WL_LINK_DOWN_COUNT w 1) ∧
  (∀ (w : WlNo) (s : State), (s.chip.wlState w = 3 ∨ s.chip.wlState w = 4) →
    Answers (.wlHelloTimeout w) s fun d =>
      d.wlState w = 1 ∧
      (d.wl w).heard = none ∧
      (d.wl w).squelch = true ∧
      (s.chip.wlState w = 4 → d.rd .WL_LINK_DOWN_COUNT w = (s.chip.rd .WL_LINK_DOWN_COUNT w + 1) % 2 ^ 32)) ∧
  (∀ (w : WlNo) (s : State),
    Answers (.wlSquelchEnd w) s fun d =>
      d.wl w = { s.chip.wl w with squelch := false } ∧
      (∀ k : Nat, k ≠ w.val → d.wl k = s.chip.wl k) ∧
      d.bare = { s.chip.bare with wale := d.bare.wale } ∧
      d.bare.wale = { s.chip.bare.wale with ports := d.bare.wale.ports } ∧
      (s.chip.Keeps d fun _ => False)) ∧
  (∀ (w : WlNo) (s : State), s.chip.wlState w = 1 →
    Answers (.wlQuietSearch w) s fun d =>
      d.wl w = { s.chip.wl w with quiet := true } ∧
      (∀ k : Nat, k ≠ w.val → d.wl k = s.chip.wl k) ∧
      d.bare = { s.chip.bare with wale := d.bare.wale } ∧
      d.bare.wale = { s.chip.bare.wale with ports := d.bare.wale.ports } ∧
      (s.chip.Keeps d fun _ => False)) ∧
  (∀ (w : WlNo) (s : State), s.chip.asleep .WL_WAKE_SEND w = false →
      s.chip.wlState w ≠ 0 →
    Answers (.wlWakeSend w 1) s fun d =>
      d.accepted ∧
      d.wl w = { s.chip.wl w with wakeFrom := some s.chip.root } ∧
      (∀ k : Nat, k ≠ w.val → d.wl k = s.chip.wl k) ∧
      (s.chip.Keeps d fun _ => False)) ∧
  (∀ (w : WlNo) (s : State), s.chip.asleep .WL_WAKE_SEND w = false →
      s.chip.wlState w = 0 →
    Answers (.wlWakeSend w 1) s fun d =>
      s.chip.TurnedAway d .state)

/-- R285 to R287, R292, R294, R295, R300: packets on Wale links. -/
def Obligations.WalePacketsAreCheckedTakenAndRelayed : Prop :=
  (∀ (w : WlNo) (l : List WlWord) (r : WlRaw) (s : State), s.chip.wlState w = 4 →
      wlParse l = some r →
      r.good = false →
    Answers (.wlPacketReceived w l) s fun d =>
      Counts s.chip d .WL_CRC_ERR w 1 ∧
      d.bare = s.chip.bare ∧
      (d.rd .WL_HDR_ERR w = if s.chip.rdBit .WL_STATUS 1 w then (s.chip.rd .WL_HDR_ERR w + wlInvalid l) % 2 ^ Reg.width .WL_HDR_ERR else s.chip.rd .WL_HDR_ERR w) ∧
      (s.chip.Keeps d fun k => k = ⟨.WL_CRC_ERR, w, 0⟩ ∨ k = ⟨.WL_HDR_ERR, w, 0⟩)) ∧
  (∀ (w : WlNo) (l : List WlWord) (r : WlRaw) (s : State), s.chip.wlState w = 4 →
      wlParse l = some r →
      r.good = true →
      (kindClasses r.packet.kind).contains r.packet.cls = false →
    Answers (.wlPacketReceived w l) s fun d =>
      Counts s.chip d .WL_CRC_ERR w 1 ∧
      Counts s.chip d .WL_RX_PACKETS w 1 ∧
      d.wale.inbox = s.chip.wale.inbox ∧
      d.bare = s.chip.bare) ∧
  (∀ (w : WlNo) (l : List WlWord) (r : WlRaw) (s : State), s.chip.wlState w = 4 →
      wlParse l = some r →
      r.good = true →
      (kindClasses r.packet.kind).contains r.packet.cls = true →
      (r.packet.dest = 0 ∨ (r.packet.dest ≠ 0xFF ∧ r.packet.dest = s.chip.rd .WALE_ADDRESS)) →
    Answers (.wlPacketReceived w l) s fun d =>
      Counts s.chip d .WL_RX_PACKETS w 1 ∧
      d.wale.inbox = some r.packet ∧
      (∀ k, d.wl k = s.chip.wl k) ∧
      (s.chip.Keeps d fun k => k = ⟨.WL_RX_PACKETS, w, 0⟩ ∨ k = ⟨.WL_HDR_ERR, w, 0⟩)) ∧
  (∀ (w : WlNo) (l : List WlWord) (r : WlRaw) (s : State), s.chip.wlState w = 4 →
      wlParse l = some r →
      r.good = true →
      (kindClasses r.packet.kind).contains r.packet.cls = true →
      r.packet.dest ≠ 0 →
      r.packet.dest ≠ 0xFF →
      r.packet.dest ≠ s.chip.rd .WALE_ADDRESS →
      (32 ≤ r.packet.hops ∨ s.chip.wlRoute r.packet.dest = none) →
    Answers (.wlPacketReceived w l) s fun d =>
      Counts s.chip d .WALE_NO_ROUTE 0 1 ∧
      Counts s.chip d .WL_RX_PACKETS w 1 ∧
      (∀ k, d.wl k = s.chip.wl k) ∧
      d.wale.inbox = s.chip.wale.inbox) ∧
  (∀ (w : WlNo) (l : List WlWord) (r : WlRaw) (v : Nat) (s : State), s.chip.wlState w = 4 →
      wlParse l = some r →
      r.good = true →
      (kindClasses r.packet.kind).contains r.packet.cls = true →
      r.packet.dest ≠ 0 →
      r.packet.dest ≠ 0xFF →
      r.packet.dest ≠ s.chip.rd .WALE_ADDRESS →
      r.packet.hops < 32 →
      s.chip.wlRoute r.packet.dest = some v →
      (s.chip.wl v).queue r.packet.cls = [] →
    Answers (.wlPacketReceived w l) s fun d =>
      (d.wl v).queue r.packet.cls = [{ r.packet with hops := r.packet.hops + 1 }] ∧
      Counts s.chip d .WL_RX_PACKETS w 1 ∧
      d.wale.inbox = s.chip.wale.inbox ∧
      (∀ k, k ≠ v → d.wl k = s.chip.wl k)) ∧
  (∀ (w : WlNo) (l : List WlWord) (s : State), s.chip.wlState w ≠ 4 →
      s.chip.wlState w ≠ 3 →
    Answers (.wlPacketReceived w l) s fun d =>
      d.bare = s.chip.bare ∧
      (d.rd .WL_HDR_ERR w = if s.chip.rdBit .WL_STATUS 1 w then (s.chip.rd .WL_HDR_ERR w + wlInvalid l) % 2 ^ Reg.width .WL_HDR_ERR else s.chip.rd .WL_HDR_ERR w) ∧
      (s.chip.Keeps d fun k => k = ⟨.WL_HDR_ERR, w, 0⟩)) ∧
  (∀ (w : WlNo) (l : List WlWord) (s : State), wlParse l = none →
    Answers (.wlPacketReceived w l) s fun d =>
      d.bare = s.chip.bare ∧
      (d.rd .WL_HDR_ERR w = if s.chip.rdBit .WL_STATUS 1 w then (s.chip.rd .WL_HDR_ERR w + wlInvalid l) % 2 ^ Reg.width .WL_HDR_ERR else s.chip.rd .WL_HDR_ERR w) ∧
      (s.chip.Keeps d fun k => k = ⟨.WL_HDR_ERR, w, 0⟩)) ∧
  (∀ (w : WlNo) (x : WlPacket) (l : List WlPacket) (s : State), s.chip.wlState w = 4 →
      (s.chip.wl w).squelch = false →
      (s.chip.wl w).queue 0 = x :: l →
    Answers (.wlPacketTransmit w) s fun d =>
      (d.wl w).sent = some x ∧
      (d.wl w).sentWords = (withSkips (s.chip.wl w).sinceSkip x.words).1 ∧
      (d.wl w).queue 0 = l ∧
      (∀ k, k ≠ 0 → (d.wl w).queue k = (s.chip.wl w).queue k) ∧
      Counts s.chip d .WL_TX_PACKETS w 1 ∧
      (∀ k : Nat, k ≠ w.val → d.wl k = s.chip.wl k) ∧
      (s.chip.Keeps d fun k => k = ⟨.WL_TX_PACKETS, w, 0⟩)) ∧
  (∀ (w : WlNo) (x : WlPacket) (l : List WlPacket) (s : State), s.chip.wlState w = 4 →
      (s.chip.wl w).squelch = false →
      (s.chip.wl w).queue 0 = [] →
      (s.chip.wl w).queue 1 = x :: l →
      ((s.chip.wl w).queue 2 = [] ∨ (s.chip.wl w).alarmRun < 7) →
    Answers (.wlPacketTransmit w) s fun d =>
      (d.wl w).sent = some x ∧
      (d.wl w).sentWords = (withSkips (s.chip.wl w).sinceSkip x.words).1 ∧
      (d.wl w).queue 1 = l ∧
      (∀ k, k ≠ 1 → (d.wl w).queue k = (s.chip.wl w).queue k) ∧
      ((d.wl w).alarmRun = (if (s.chip.wl w).queue 2 = [] then 0 else (s.chip.wl w).alarmRun + 1)) ∧
      Counts s.chip d .WL_TX_PACKETS w 1 ∧
      (∀ k : Nat, k ≠ w.val → d.wl k = s.chip.wl k)) ∧
  (∀ (w : WlNo) (x : WlPacket) (l : List WlPacket) (s : State), s.chip.wlState w = 4 →
      (s.chip.wl w).squelch = false →
      (s.chip.wl w).queue 0 = [] →
      (s.chip.wl w).queue 2 = x :: l →
      7 ≤ (s.chip.wl w).alarmRun →
    Answers (.wlPacketTransmit w) s fun d =>
      (d.wl w).sent = some x ∧
      (d.wl w).sentWords = (withSkips (s.chip.wl w).sinceSkip x.words).1 ∧
      (d.wl w).queue 2 = l ∧
      (d.wl w).alarmRun = 0 ∧
      Counts s.chip d .WL_TX_PACKETS w 1) ∧
  (∀ (v : Nat) (s : State), s.chip.wale.alarms ≠ [] →
      s.chip.rd .WALE_EVENT_DEST ≠ 0 →
      s.chip.rd .WALE_EVENT_DEST ≠ 0xFF →
      s.chip.rd .WALE_EVENT_DEST ≠ s.chip.rd .WALE_ADDRESS →
      s.chip.wlRoute (s.chip.rd .WALE_EVENT_DEST) = some v →
      (s.chip.wl v).queue 1 = [] →
    Answers (.eventPacketSend .alarms) s fun d =>
      d.wale.alarms = s.chip.wale.alarms.drop 32 ∧
      ((d.wl v).queue 1 = [{ dest := s.chip.rd .WALE_EVENT_DEST, src := s.chip.rd .WALE_ADDRESS, cls := 1, kind := 5, payload := (s.chip.wale.alarms.take 32).flatMap fun r => natToOctets 32 r.toNat }])) ∧
  (∀ (x : BitVec 8) (t : BitVec 32) (st : Fin 8) (cs : BitVec 8) (s : State), s.chip.rd .UPSETT_TAG = t.toNat →
    Answers (.event x [] [⟨t, st, cs⟩]) s fun d =>
      (d.rd .UPSETT_REPORT 0 x.toNat = st.val * 4096 + (if st.val = 3 ∨ st.val = 4 then cs.toNat else 0)) ∧
      d.bare = s.chip.bare ∧
      (s.chip.Keeps d fun k => k = ⟨.UPSETT_REPORT, 0, x.toNat⟩)) ∧
  (∀ (x : BitVec 8) (r : BitVec 256) (s : State), s.chip.ev.raised = [] →
      s.chip.rd .EV_RING_MODE = 0 →
      s.chip.evFill < 3072 →
    Answers (.event x [r] []) s fun d =>
      d.ev.ring.get? (s.chip.rd .EV_WRITE_COUNT % 4096) = some { EvRec.ofOctets (natToOctets 32 r.toNat) with src := x.toNat } ∧
      d.rd .EV_WRITE_COUNT = (s.chip.rd .EV_WRITE_COUNT + 1) % 2 ^ 64 ∧
      d.bare = s.chip.bare) ∧
  (∀ (v : BitVec 32) (s : State), s.chip.asleep .UPSETT_TAG 0 = false →
    Answers (.upsettTagWrite v) s fun d =>
      d.accepted ∧
      d.rd .UPSETT_TAG = v.toNat ∧
      (∀ a : Fin 256, d.rd .UPSETT_REPORT 0 a = 0) ∧
      (s.chip.ChangesOnly d fun k => k = ⟨.UPSETT_TAG, 0, 0⟩ ∨ k.reg = .UPSETT_REPORT))

/-- R289 to R293, R298, R301: advertisements, the database, routes, the root and addresses. -/
def Obligations.AdvertisementsRoutesAndAddressesFollow : Prop :=
  (∀ (w : WlNo) (l : List Octet) (i : Nat) (a b : Lsa) (s : State), s.chip.wlState w = 4 →
      Lsa.ofOctets l = some (i, a) →
      i ≠ s.chip.ownId →
      s.chip.wale.lsdb.get? i = some b →
      b.seq < a.seq →
    Answers (.lsa w l) s fun d =>
      d.wale.lsdb.get? i = some a ∧
      (∀ j, j ≠ i → d.wale.lsdb.get? j = s.chip.wale.lsdb.get? j) ∧
      d.wl w = s.chip.wl w) ∧
  (∀ (w : WlNo) (l : List Octet) (i : Nat) (a b : Lsa) (s : State), s.chip.wlState w = 4 →
      Lsa.ofOctets l = some (i, a) →
      i ≠ s.chip.ownId →
      s.chip.wale.lsdb.get? i = some b →
      a.seq ≤ b.seq →
    Answers (.lsa w l) s fun d =>
      d.bare = s.chip.bare ∧
      (s.chip.Keeps d fun _ => False)) ∧
  (∀ (w : WlNo) (l : List Octet) (i : Nat) (a : Lsa) (s : State), s.chip.wlState w = 4 →
      Lsa.ofOctets l = some (i, a) →
      i ≠ s.chip.ownId →
      s.chip.wale.lsdb.get? i = none →
      s.chip.wale.lsdb.length < 255 →
    Answers (.lsa w l) s fun d =>
      d.wale.lsdb.get? i = some a ∧
      (∀ j, j ≠ i → d.wale.lsdb.get? j = s.chip.wale.lsdb.get? j)) ∧
  (∀ (s : State), s.chip.boot.applied = true →
      s.chip.pwr.rootOn = true →
      s.chip.wale.dirty = true →
    Answers (.lsaOriginate) s fun d =>
      d.wale.own = { addr := s.chip.rd .WALE_ADDRESS, prio := s.chip.rd .WALE_ROOT_PRIORITY, seq := (s.chip.rd .WALE_LSA_SEQ + 1) % 2 ^ 32, links := s.chip.ownLinks } ∧
      d.rd .WALE_LSA_SEQ = (s.chip.rd .WALE_LSA_SEQ + 1) % 2 ^ 32 ∧
      d.wale.dirty = false ∧
      d.wale.lsdb = s.chip.wale.lsdb) ∧
  (∀ (s : State), s.chip.wale.dirty = false →
    Answers (.lsaOriginate) s fun d =>
      d.bare = s.chip.bare ∧
      (s.chip.Keeps d fun _ => False)) ∧
  (∀ (s : State), s.chip.boot.applied = true →
      s.chip.pwr.rootOn = true →
    Answers (.lsaRefresh) s fun d =>
      d.wale.own = { addr := s.chip.rd .WALE_ADDRESS, prio := s.chip.rd .WALE_ROOT_PRIORITY, seq := (s.chip.rd .WALE_LSA_SEQ + 1) % 2 ^ 32, links := s.chip.ownLinks } ∧
      d.rd .WALE_LSA_SEQ = (s.chip.rd .WALE_LSA_SEQ + 1) % 2 ^ 32 ∧
      d.wale.lsdb = s.chip.wale.lsdb) ∧
  (∀ (x : BitVec 64) (s : State),
    Answers (.lsaAgeOut x) s fun d =>
      d.wale.lsdb.get? x.toNat = none ∧
      (∀ j, j ≠ x.toNat → d.wale.lsdb.get? j = s.chip.wale.lsdb.get? j) ∧
      d.bare = { s.chip.bare with wale := d.bare.wale } ∧
      (∀ k, d.wl k = s.chip.wl k) ∧
      (s.chip.Keeps d fun _ => False)) ∧
  (∀ (s : State), s.chip.boot.applied = true →
      s.chip.pwr.rootOn = true →
    Answers (.routeRecompute) s fun d =>
      d.rd .WALE_ROOT_ID = s.chip.rootOf % 2 ^ 64 ∧
      d.rd .WALE_DEVICE_COUNT = (s.chip.reachable.length + 1) % 2 ^ 16 ∧
      (∀ a : Fin 256, d.rd .WALE_ROUTES 0 a = (if a.val = 0 ∨ a.val = 0xFF then 0xFFFF else routeRow s.chip.paths s.chip.reachable a.val % 2 ^ 16)) ∧
      d.rdBit .WALE_STATUS 1 = decide (s.chip.rootOf = s.chip.ownId) ∧
      (s.chip.rootOf = s.chip.ownId → d.rd .WALE_ROOT_DISTANCE = 0 ∧ d.rd .WALE_UPSTREAM = 0xFF) ∧
      d.wale.lsdb = s.chip.wale.lsdb) ∧
  (∀ (s : State), s.chip.rd .WALE_ADDRESS ≠ 0 →
      s.chip.outclaimed (s.chip.rd .WALE_ADDRESS) = false →
      s.chip.wlUps ≠ [] →
    Answers (.waleConverged) s fun d =>
      d.rdBit .WALE_STATUS 0 = true ∧
      d.bare = s.chip.bare ∧
      (s.chip.Keeps d fun k => k = ⟨.WALE_STATUS, 0, 0⟩)) ∧
  (∀ (s : State), s.chip.rd .WALE_ADDRESS ≠ 0 →
    Answers (.addressPersist) s fun d =>
      d.nv = { s.chip.nv with lastWale := some (s.chip.rd .WALE_ADDRESS) } ∧
      d.bare = { s.chip.bare with nv := d.nv } ∧
      (s.chip.Keeps d fun _ => False))

/-- R296, R297: time words, their follow-up packets and what an exchange gives. -/
def Obligations.WaleTimeExchangesGiveDelays : Prop :=
  (∀ (w : WlNo) (s : State), s.chip.wlUps = [w.val] →
      (s.chip.wl w).queue 0 = [] →
    Answers (.sync) s fun d =>
      (d.wl w).syncSeq = ((s.chip.wl w).syncSeq + 1) % 65536 ∧
      (d.wl w).queue 0 = [{ dest := 0, src := s.chip.rd .WALE_ADDRESS, cls := 0, kind := 3, payload := s.chip.timeOctets (((s.chip.wl w).syncSeq + 1) % 65536) 1 (s.chip.tsOut w) }] ∧
      (∀ k : Nat, k ≠ w.val → d.wl k = s.chip.wl k) ∧
      (s.chip.Keeps d fun _ => False)) ∧
  (∀ (w : WlNo) (s : State), s.chip.upstreamUp = some w.val →
    Answers (.dreq) s fun d =>
      d.wl w = { s.chip.wl w with dreqSeq := ((s.chip.wl w).dreqSeq + 1) % 65536, dreqOut := some (((s.chip.wl w).dreqSeq + 1) % 65536, s.chip.tsOut w) } ∧
      (∀ k : Nat, k ≠ w.val → d.wl k = s.chip.wl k) ∧
      d.bare = { s.chip.bare with wale := d.bare.wale } ∧
      d.bare.wale = { s.chip.bare.wale with ports := d.bare.wale.ports } ∧
      (s.chip.Keeps d fun _ => False)) ∧
  (∀ (s : State), s.chip.upstreamUp = none →
    Answers (.dreq) s fun d =>
      d.bare = s.chip.bare ∧
      (s.chip.Keeps d fun _ => False)) ∧
  (∀ (w : WlNo) (q : BitVec 16) (f : Fin 16) (s : State), s.chip.wlState w = 4 →
    Answers (.wcTs w 1 q f) s fun d =>
      d.wl w = { s.chip.wl w with syncIn := some (q.toNat, s.chip.tsIn w f) } ∧
      (∀ k : Nat, k ≠ w.val → d.wl k = s.chip.wl k) ∧
      d.bare = { s.chip.bare with wale := d.bare.wale } ∧
      d.bare.wale = { s.chip.bare.wale with ports := d.bare.wale.ports } ∧
      (s.chip.Keeps d fun _ => False)) ∧
  (∀ (w : WlNo) (q : BitVec 16) (f : Fin 16) (s : State), s.chip.wlState w = 4 →
      (s.chip.wl w).queue 0 = [] →
    Answers (.wcTs w 2 q f) s fun d =>
      (d.wl w).queue 0 = [{ dest := 0, src := s.chip.rd .WALE_ADDRESS, cls := 0, kind := 3, payload := s.chip.timeOctets q.toNat 2 (s.chip.tsIn w f) }] ∧
      (∀ k : Nat, k ≠ w.val → d.wl k = s.chip.wl k) ∧
      (s.chip.Keeps d fun _ => False)) ∧
  (∀ (w : WlNo) (x : BitVec 192) (n t : Nat) (s : State),
    let l := natToOctets 24 x.toNat;
      s.chip.upstreamUp = some w.val →
      octNat l 2 1 = 2 →
      (s.chip.wl w).dreqOut = some (n, t) →
      n = octNat l 0 2 →
    Answers (.time w x) s fun d =>
      d.wl w = { s.chip.wl w with dreqOut := none, dreqDone := some (t, ofTime96 (octNat l 12 12)) } ∧
      (∀ k : Nat, k ≠ w.val → d.wl k = s.chip.wl k) ∧
      d.bare = { s.chip.bare with wale := d.bare.wale } ∧
      (s.chip.Keeps d fun _ => False)) ∧
  (∀ (w : WlNo) (x : BitVec 192) (n t : Nat) (s : State),
    let l := natToOctets 24 x.toNat;
      s.chip.upstreamUp = some w.val →
      octNat l 2 1 = 1 →
      (s.chip.wl w).syncIn = some (n, t) →
      n = octNat l 0 2 →
      (s.chip.wl w).dreqDone = none →
    Answers (.time w x) s fun d =>
      d.wl w = { s.chip.wl w with syncIn := none } ∧
      (∀ k : Nat, k ≠ w.val → d.wl k = s.chip.wl k) ∧
      d.bare = { s.chip.bare with wale := d.bare.wale } ∧
      (s.chip.Keeps d fun _ => False)) ∧
  (∀ (w : WlNo) (x : BitVec 192) (n t t3 t4 : Nat) (s : State),
    let l := natToOctets 24 x.toNat;
      s.chip.upstreamUp = some w.val →
      octNat l 2 1 = 1 →
      (s.chip.wl w).syncIn = some (n, t) →
      n = octNat l 0 2 →
      (s.chip.wl w).dreqDone = some (t3, t4) →
      octNat l 3 1 % 2 = 0 →
    Answers (.time w x) s fun d =>
      d.rd .WL_LINK_DELAY w = ((idiv (idiv (((t : Int) - ofTime96 (octNat l 12 12)) + ((t4 : Int) - t3)) 2 * 1000) (2 ^ 48)) % 2 ^ 32).toNat ∧
      (d.wl w).syncIn = none ∧
      (s.chip.Keeps d fun k => k = ⟨.WL_LINK_DELAY, w, 0⟩)) ∧
  (∀ (w : WlNo) (x : BitVec 192) (n t : Nat) (s : State),
    let l := natToOctets 24 x.toNat;
      s.chip.upstreamUp = some w.val →
      octNat l 2 1 = 1 →
      (s.chip.wl w).syncIn = some (n, t) →
      n ≠ octNat l 0 2 →
    Answers (.time w x) s fun d =>
      d.bare = s.chip.bare ∧
      (s.chip.Keeps d fun _ => False)) ∧
  (∀ (w : WlNo) (b : Bool) (s : State),
    Answers (.timeReportTimeout w b) s fun d =>
      (d.wl w = (if b then { s.chip.wl w with dreqOut := none } else { s.chip.wl w with syncIn := none })) ∧
      (∀ k : Nat, k ≠ w.val → d.wl k = s.chip.wl k) ∧
      d.bare = { s.chip.bare with wale := d.bare.wale } ∧
      (s.chip.Keeps d fun _ => False))

/-- R305, R306, R310, R312, R317: the checks of a READ in their order, and what it returns. -/
def Obligations.ReadsAreCheckedInOrder : Prop :=
  (∀ (a : BitVec 40) (row : BitVec 24) (b : Bool) (s : State), addrTarget a.toNat = none →
    Answers (.read a row b) s fun d =>
      d.access = ⟨.noObject, []⟩ ∧
      (s.chip.ChangesOnly d fun _ => False)) ∧
  (∀ (a : BitVec 40) (row : BitVec 24) (w : Nat) (r : Reg) (i : Nat) (s : State), addrTarget a.toNat = some (w, r, i) →
      r.counts = false →
    Answers (.read a row true) s fun d =>
      d.access = ⟨.noObject, []⟩ ∧
      (s.chip.ChangesOnly d fun _ => False)) ∧
  (∀ (a : BitVec 40) (row : BitVec 24) (b : Bool) (w : Nat) (r : Reg) (i : Nat) (s : State), addrTarget a.toNat = some (w, r, i) →
      (b = true → r.counts = true) →
      max 1 r.info.rows ≤ row.toNat →
    Answers (.read a row b) s fun d =>
      d.access = ⟨.row, []⟩ ∧
      (s.chip.ChangesOnly d fun _ => False)) ∧
  (∀ (a : BitVec 40) (row : BitVec 24) (b : Bool) (w : Nat) (r : Reg) (i : Nat) (s : State), addrTarget a.toNat = some (w, r, i) →
      (b = true → r.counts = true) →
      row.toNat < max 1 r.info.rows →
      (w ≠ 0 ∨ r.info.acc = .wo) →
    Answers (.read a row b) s fun d =>
      d.access = ⟨.writeOnly, []⟩ ∧
      (s.chip.ChangesOnly d fun _ => False)) ∧
  (∀ (a : BitVec 40) (row : BitVec 24) (w : Nat) (r : Reg) (i : Nat) (s : State), addrTarget a.toNat = some (w, r, i) →
      row.toNat < max 1 r.info.rows →
      w = 0 →
      r.info.acc ≠ .wo →
      s.chip.asleep r i = true →
    Answers (.read a row false) s fun d =>
      d.access = ⟨.asleep, []⟩ ∧
      (s.chip.ChangesOnly d fun _ => False)) ∧
  (∀ (a : BitVec 40) (row : BitVec 24) (w : Nat) (r : Reg) (i : Nat) (s : State), addrTarget a.toNat = some (w, r, i) →
      row.toNat < max 1 r.info.rows →
      w = 0 →
      r.info.acc ≠ .wo →
      s.chip.asleep r i = false →
    Answers (.read a row false) s fun d =>
      d.access = ⟨.ok, s.chip.readOctets r i row.toNat⟩ ∧
      (s.chip.ChangesOnly d fun _ => False)) ∧
  (∀ (a : BitVec 40) (row : BitVec 24) (v : Nat) (w : Nat) (r : Reg) (i : Nat) (s : State), addrTarget a.toNat = some (w, r, i) →
      row.toNat < max 1 r.info.rows →
      w = 0 →
      r.counts = true →
      r.info.acc ≠ .wo →
      s.chip.heldCopy r i row.toNat = some v →
    Answers (.read a row true) s fun d =>
      d.access = ⟨.ok, natToOctets r.info.octets v⟩ ∧
      (s.chip.ChangesOnly d fun _ => False)) ∧
  (∀ (a : BitVec 40) (row : BitVec 24) (w : Nat) (r : Reg) (i : Nat) (s : State), addrTarget a.toNat = some (w, r, i) →
      row.toNat < max 1 r.info.rows →
      w = 0 →
      r.counts = true →
      r.info.acc ≠ .wo →
      s.chip.heldCopy r i row.toNat = none →
    Answers (.read a row true) s fun d =>
      d.access = ⟨.asleep, []⟩ ∧
      (s.chip.ChangesOnly d fun _ => False)) ∧
  (∀ (a : BitVec 40) (row : BitVec 24) (w : Nat) (r : Reg) (i : Nat) (s : State), addrTarget a.toNat = some (w, r, i) →
      row.toNat < max 1 r.info.rows →
    Answers (.describe a row) s fun d =>
      d.access = ⟨.ok, r.descriptor w⟩ ∧
      (s.chip.ChangesOnly d fun _ => False)) ∧
  (∀ (a : BitVec 40) (row : BitVec 24) (s : State), addrTarget a.toNat = none →
    Answers (.describe a row) s fun d =>
      d.access = ⟨.noObject, []⟩ ∧
      (s.chip.ChangesOnly d fun _ => False))

/-- R305 to R310, R312, R388: the checks of a WRITE in their order, through the fabric and by the device's own software. -/
def Obligations.WritesAreCheckedInOrder : Prop :=
  (∀ (a : BitVec 40) (row : BitVec 24) (v : List Octet) (pa : Path) (x : BitVec 8) (s : State), addrTarget a.toNat = none →
    Answers (.write a row v pa x) s fun d =>
      d.access = ⟨.noObject, []⟩ ∧
      (s.chip.ChangesOnly d fun _ => False)) ∧
  (∀ (a : BitVec 40) (row : BitVec 24) (v : List Octet) (pa : Path) (x : BitVec 8) (w : Nat) (r : Reg) (i : Nat) (s : State), addrTarget a.toNat = some (w, r, i) →
      max 1 r.info.rows ≤ row.toNat →
    Answers (.write a row v pa x) s fun d =>
      d.access = ⟨.row, []⟩ ∧
      (s.chip.ChangesOnly d fun _ => False)) ∧
  (∀ (a : BitVec 40) (row : BitVec 24) (v : List Octet) (pa : Path) (x : BitVec 8) (w : Nat) (r : Reg) (i : Nat) (s : State), addrTarget a.toNat = some (w, r, i) →
      row.toNat < max 1 r.info.rows →
      (r.info.acc = .ro ∨ r.info.acc = .const) →
    Answers (.write a row v pa x) s fun d =>
      d.access = ⟨.readOnly, []⟩ ∧
      (s.chip.ChangesOnly d fun _ => False)) ∧
  (∀ (a : BitVec 40) (row : BitVec 24) (v : List Octet) (pa : Path) (x : BitVec 8) (w : Nat) (r : Reg) (i : Nat) (s : State), addrTarget a.toNat = some (w, r, i) →
      row.toNat < max 1 r.info.rows →
      r.info.acc ≠ .ro →
      r.info.acc ≠ .const →
      s.chip.permits pa (r.info.cls.addr i) r.info.idx r.info.sub = false →
    Answers (.write a row v pa x) s fun d =>
      d.access = ⟨.guarded, []⟩ ∧
      (s.chip.ChangesOnly d fun _ => False)) ∧
  (∀ (a : BitVec 40) (row : BitVec 24) (v : List Octet) (pa : Path) (x : BitVec 8) (w : Nat) (r : Reg) (i : Nat) (s : State), addrTarget a.toNat = some (w, r, i) →
      row.toNat < max 1 r.info.rows →
      r.info.acc ≠ .ro →
      r.info.acc ≠ .const →
      s.chip.permits pa (r.info.cls.addr i) r.info.idx r.info.sub = true →
      (v.length ≠ r.info.octets ∨ (r.isStatus = true ∧ w ≠ 0)) →
    Answers (.write a row v pa x) s fun d =>
      d.access = ⟨.wrongType, []⟩ ∧
      (s.chip.ChangesOnly d fun _ => False)) ∧
  (∀ (a : BitVec 40) (row : BitVec 24) (v : List Octet) (pa : Path) (x : BitVec 8) (w : Nat) (r : Reg) (i : Nat) (s : State), addrTarget a.toNat = some (w, r, i) →
      row.toNat < max 1 r.info.rows →
      r.info.acc ≠ .ro →
      r.info.acc ≠ .const →
      s.chip.permits pa (r.info.cls.addr i) r.info.idx r.info.sub = true →
      v.length = r.info.octets →
      (r.isStatus = true → w = 0) →
      s.chip.asleep r i = true →
    Answers (.write a row v pa x) s fun d =>
      d.access = ⟨.asleep, []⟩ ∧
      (s.chip.ChangesOnly d fun _ => False)) ∧
  (∀ (a : BitVec 40) (row : BitVec 24) (v : List Octet) (pa : Path) (x : BitVec 8) (w : Nat) (r : Reg) (i : Nat) (s : State), addrTarget a.toNat = some (w, r, i) →
      row.toNat < max 1 r.info.rows →
      r.info.acc ≠ .ro →
      r.info.acc ≠ .const →
      s.chip.permits pa (r.info.cls.addr i) r.info.idx r.info.sub = true →
      v.length = r.info.octets →
      (r.isStatus = true → w = 0) →
      s.chip.asleep r i = false →
      r.info.acc = .sc →
      r ≠ .GATE_SWAP →
      r ≠ .TA_CANCEL →
      octetsToNat v = 0 →
    Answers (.write a row v pa x) s fun d =>
      d.access = ⟨.ok, []⟩ ∧
      (s.chip.ChangesOnly d fun _ => False)) ∧
  (∀ (a : BitVec 40) (row : BitVec 24) (v : List Octet) (pa : Path) (x : BitVec 8) (w : Nat) (r : Reg) (i : Nat) (s : State), addrTarget a.toNat = some (w, r, i) →
      row.toNat < max 1 r.info.rows →
      r.info.acc ≠ .ro →
      r.info.acc ≠ .const →
      s.chip.permits pa (r.info.cls.addr i) r.info.idx r.info.sub = true →
      v.length = r.info.octets →
      s.chip.asleep r i = false →
      r = .HL_POLARITY →
    Answers (.write a row v pa x) s fun d =>
      d.access = ⟨.ok, []⟩ ∧
      (d.rd .HL_POLARITY i = (let old := s.chip.rd .HL_POLARITY i; let m := octetsToNat v &&& 3; (old &&& 0xFFFC) ||| ((if w = 0 then m else if w = 1 then old ||| m else if w = 2 then old &&& (0xFFFF - m) else old ^^^ m) &&& 3))) ∧
      (s.chip.ChangesOnly d fun k => k = ⟨.HL_POLARITY, i, 0⟩)) ∧
  (∀ (a : BitVec 40) (row : BitVec 24) (v : List Octet) (pa : Path) (x : BitVec 8) (w : Nat) (r : Reg) (i : Nat) (s : State), addrTarget a.toNat = some (w, r, i) →
      row.toNat < max 1 r.info.rows →
      r.info.acc ≠ .ro →
      r.info.acc ≠ .const →
      s.chip.permits pa (r.info.cls.addr i) r.info.idx r.info.sub = true →
      v.length = r.info.octets →
      s.chip.asleep r i = false →
      r = .EV_COALESCE_WINDOW →
      w = 0 →
      1 ≤ octetsToNat v →
      octetsToNat v ≤ 1000 →
    Answers (.write a row v pa x) s fun d =>
      d.access = ⟨.ok, []⟩ ∧
      d.rd .EV_COALESCE_WINDOW = octetsToNat v ∧
      (s.chip.ChangesOnly d fun k => k = ⟨.EV_COALESCE_WINDOW, 0, 0⟩)) ∧
  (∀ (a : BitVec 40) (row : BitVec 24) (v : List Octet) (pa : Path) (x : BitVec 8) (w : Nat) (r : Reg) (i : Nat) (s : State), addrTarget a.toNat = some (w, r, i) →
      row.toNat < max 1 r.info.rows →
      r.info.acc ≠ .ro →
      r.info.acc ≠ .const →
      s.chip.permits pa (r.info.cls.addr i) r.info.idx r.info.sub = true →
      v.length = r.info.octets →
      s.chip.asleep r i = false →
      r = .EV_COALESCE_WINDOW →
      w = 0 →
      (octetsToNat v = 0 ∨ 1000 < octetsToNat v) →
    Answers (.write a row v pa x) s fun d =>
      d.access = ⟨.range, []⟩ ∧
      (s.chip.ChangesOnly d fun _ => False)) ∧
  (∀ (a : BitVec 40) (row : BitVec 24) (v : List Octet) (pa : Path) (s : State), addrTarget a.toNat = none →
    Answers (.registerWrite a row v pa) s fun d =>
      d.access = ⟨.noObject, []⟩ ∧
      (s.chip.ChangesOnly d fun _ => False)) ∧
  (∀ (a : BitVec 40) (row : BitVec 24) (v : List Octet) (pa : Path) (w : Nat) (r : Reg) (i : Nat) (s : State), addrTarget a.toNat = some (w, r, i) →
      max 1 r.info.rows ≤ row.toNat →
    Answers (.registerWrite a row v pa) s fun d =>
      d.access = ⟨.row, []⟩ ∧
      (s.chip.ChangesOnly d fun _ => False)) ∧
  (∀ (a : BitVec 40) (row : BitVec 24) (v : List Octet) (pa : Path) (w : Nat) (r : Reg) (i : Nat) (s : State), addrTarget a.toNat = some (w, r, i) →
      row.toNat < max 1 r.info.rows →
      (r.info.acc = .ro ∨ r.info.acc = .const) →
    Answers (.registerWrite a row v pa) s fun d =>
      d.access = ⟨.readOnly, []⟩ ∧
      (s.chip.ChangesOnly d fun _ => False)) ∧
  (∀ (a : BitVec 40) (row : BitVec 24) (v : List Octet) (pa : Path) (w : Nat) (r : Reg) (i : Nat) (s : State), addrTarget a.toNat = some (w, r, i) →
      row.toNat < max 1 r.info.rows →
      r.info.acc ≠ .ro →
      r.info.acc ≠ .const →
      s.chip.permits pa (r.info.cls.addr i) r.info.idx r.info.sub = false →
    Answers (.registerWrite a row v pa) s fun d =>
      d.access = ⟨.guarded, []⟩ ∧
      (s.chip.ChangesOnly d fun _ => False)) ∧
  (∀ (a : BitVec 40) (row : BitVec 24) (v : List Octet) (pa : Path) (w : Nat) (r : Reg) (i : Nat) (s : State), addrTarget a.toNat = some (w, r, i) →
      row.toNat < max 1 r.info.rows →
      r.info.acc ≠ .ro →
      r.info.acc ≠ .const →
      s.chip.permits pa (r.info.cls.addr i) r.info.idx r.info.sub = true →
      (v.length ≠ r.info.octets ∨ (r.isStatus = true ∧ w ≠ 0)) →
    Answers (.registerWrite a row v pa) s fun d =>
      d.access = ⟨.wrongType, []⟩ ∧
      (s.chip.ChangesOnly d fun _ => False)) ∧
  (∀ (a : BitVec 40) (row : BitVec 24) (v : List Octet) (pa : Path) (w : Nat) (r : Reg) (i : Nat) (s : State), addrTarget a.toNat = some (w, r, i) →
      row.toNat < max 1 r.info.rows →
      r.info.acc ≠ .ro →
      r.info.acc ≠ .const →
      s.chip.permits pa (r.info.cls.addr i) r.info.idx r.info.sub = true →
      v.length = r.info.octets →
      (r.isStatus = true → w = 0) →
      s.chip.asleep r i = true →
    Answers (.registerWrite a row v pa) s fun d =>
      d.access = ⟨.asleep, []⟩ ∧
      (s.chip.ChangesOnly d fun _ => False)) ∧
  (∀ (a : BitVec 40) (row : BitVec 24) (v : List Octet) (pa : Path) (w : Nat) (r : Reg) (i : Nat) (s : State), addrTarget a.toNat = some (w, r, i) →
      row.toNat < max 1 r.info.rows →
      r.info.acc ≠ .ro →
      r.info.acc ≠ .const →
      s.chip.permits pa (r.info.cls.addr i) r.info.idx r.info.sub = true →
      v.length = r.info.octets →
      (r.isStatus = true → w = 0) →
      s.chip.asleep r i = false →
      r.info.acc = .sc →
      r ≠ .GATE_SWAP →
      r ≠ .TA_CANCEL →
      octetsToNat v = 0 →
    Answers (.registerWrite a row v pa) s fun d =>
      d.access = ⟨.ok, []⟩ ∧
      (s.chip.ChangesOnly d fun _ => False)) ∧
  (∀ (a : BitVec 40) (row : BitVec 24) (v : List Octet) (pa : Path) (w : Nat) (r : Reg) (i : Nat) (s : State), addrTarget a.toNat = some (w, r, i) →
      row.toNat < max 1 r.info.rows →
      r.info.acc ≠ .ro →
      r.info.acc ≠ .const →
      s.chip.permits pa (r.info.cls.addr i) r.info.idx r.info.sub = true →
      v.length = r.info.octets →
      s.chip.asleep r i = false →
      r = .HL_POLARITY →
    Answers (.registerWrite a row v pa) s fun d =>
      d.access = ⟨.ok, []⟩ ∧
      (d.rd .HL_POLARITY i = (let old := s.chip.rd .HL_POLARITY i; let m := octetsToNat v &&& 3; (old &&& 0xFFFC) ||| ((if w = 0 then m else if w = 1 then old ||| m else if w = 2 then old &&& (0xFFFF - m) else old ^^^ m) &&& 3))) ∧
      (s.chip.ChangesOnly d fun k => k = ⟨.HL_POLARITY, i, 0⟩)) ∧
  (∀ (a : BitVec 40) (row : BitVec 24) (v : List Octet) (pa : Path) (w : Nat) (r : Reg) (i : Nat) (s : State), addrTarget a.toNat = some (w, r, i) →
      row.toNat < max 1 r.info.rows →
      r.info.acc ≠ .ro →
      r.info.acc ≠ .const →
      s.chip.permits pa (r.info.cls.addr i) r.info.idx r.info.sub = true →
      v.length = r.info.octets →
      s.chip.asleep r i = false →
      r = .EV_COALESCE_WINDOW →
      w = 0 →
      1 ≤ octetsToNat v →
      octetsToNat v ≤ 1000 →
    Answers (.registerWrite a row v pa) s fun d =>
      d.access = ⟨.ok, []⟩ ∧
      d.rd .EV_COALESCE_WINDOW = octetsToNat v ∧
      (s.chip.ChangesOnly d fun k => k = ⟨.EV_COALESCE_WINDOW, 0, 0⟩)) ∧
  (∀ (a : BitVec 40) (row : BitVec 24) (v : List Octet) (pa : Path) (w : Nat) (r : Reg) (i : Nat) (s : State), addrTarget a.toNat = some (w, r, i) →
      row.toNat < max 1 r.info.rows →
      r.info.acc ≠ .ro →
      r.info.acc ≠ .const →
      s.chip.permits pa (r.info.cls.addr i) r.info.idx r.info.sub = true →
      v.length = r.info.octets →
      s.chip.asleep r i = false →
      r = .EV_COALESCE_WINDOW →
      w = 0 →
      (octetsToNat v = 0 ∨ 1000 < octetsToNat v) →
    Answers (.registerWrite a row v pa) s fun d =>
      d.access = ⟨.range, []⟩ ∧
      (s.chip.ChangesOnly d fun _ => False))

/-- R313 to R317: clears of status objects by their sequence number, and snapshots. -/
def Obligations.StatusObjectsAndSnapshotsFollow : Prop :=
  (∀ (x : BitVec 12) (v : BitVec 64) (k : Cls) (i : Nat) (s : State), clsOf x.toNat = some (k, i) →
      s.chip.asleep k.evStatus i = false →
      statusSeq v.toNat = statusSeq (s.chip.rd k.evStatus i) →
      s.chip.rd k.evStatus i < 2 ^ 64 →
    Answers (.statusClear x false v) s fun d =>
      d.accepted ∧
      d.rd k.evStatus i = statusSeq (s.chip.rd k.evStatus i) * 2 ^ 48 ∧
      d.bare = s.chip.bare ∧
      (∀ k2 : Key, k2 ≠ ⟨k.evStatus, i, 0⟩ → d.dict.get? k2 = s.chip.dict.get? k2)) ∧
  (∀ (x : BitVec 12) (v : BitVec 64) (k : Cls) (i : Nat) (s : State), clsOf x.toNat = some (k, i) →
      s.chip.asleep k.evStatus i = false →
      statusSeq v.toNat ≠ statusSeq (s.chip.rd k.evStatus i) →
    Answers (.statusClear x false v) s fun d =>
      s.chip.TurnedAway d .stale) ∧
  (∀ (v : BitVec 64) (s : State), s.chip.asleep .BUF_MISS_STATUS 0 = false →
      statusSeq v.toNat = statusSeq (s.chip.rd .BUF_MISS_STATUS) →
      s.chip.rd .BUF_MISS_STATUS < 2 ^ 64 →
    Answers (.statusClear 0 true v) s fun d =>
      d.accepted ∧
      d.rd .BUF_MISS_STATUS = statusSeq (s.chip.rd .BUF_MISS_STATUS) * 2 ^ 48 ∧
      (s.chip.ChangesOnly d fun k => k = ⟨.BUF_MISS_STATUS, 0, 0⟩)) ∧
  (∀ (x : BitVec 12) (i : Nat) (s : State), clsOf x.toNat = some (.port, i) →
      s.chip.asleep .SNAPSHOT_PORT i = false →
    Answers (.snapshot x 1) s fun d =>
      d.accepted ∧
      d.rd .SNAP_TIME_PORT i = s.chip.now96 % 2 ^ 96 ∧
      d.rd .SNAP_STATUS_PORT i % 2 = 1 ∧
      (∀ r ∈ Reg.counters, r.info.cls = .port → r.info.rows = 0 → s.chip.asleep r i = false → d.heldCopy r i 0 = some (s.chip.value r i 0)) ∧
      (∀ r ∈ Reg.counters, d.rd r i = s.chip.rd r i) ∧
      d.bare = { s.chip.bare with held := d.held }) ∧
  (∀ (x : BitVec 12) (k : Cls) (i : Nat) (r : Reg) (s : State), clsOf x.toNat = some (k, i) →
      k.snapshotReg = some r →
      s.chip.asleep r i = false →
    Answers (.snapshot x 0) s fun d =>
      d.accepted ∧
      (s.chip.ChangesOnly d fun _ => False)) ∧
  (∀ (x : BitVec 12) (v : BitVec 8) (k : Cls) (i : Nat) (r : Reg) (s : State), clsOf x.toNat = some (k, i) →
      k.snapshotReg = some r →
      s.chip.asleep r i = false →
      1 < v.toNat →
    Answers (.snapshot x v) s fun d =>
      s.chip.TurnedAway d .range)

/-- R318 to R328: DAP requests and responses, and the SPI port. -/
def Obligations.DapRequestsAreCarriedOutAndAnswered : Prop :=
  (∀ (p : PortNo) (f : List Octet) (s : State), s.chip.pathOpen (.host p) = true →
      s.chip.hostUp p = true →
      s.chip.isDap f = true →
      s.chip.rdBool .DAP_HOST_ENABLE = true →
      dapParse 0x11 (frameBody f) = none →
    Answers (.dapRequest (.host p) f) s fun d =>
      Counts s.chip d .DAP_MALFORMED 0 1 ∧
      d.bare = s.chip.bare ∧
      (s.chip.Keeps d fun k => k = ⟨.DAP_MALFORMED, 0, 0⟩)) ∧
  (∀ (l : List Octet) (m : DapMsg) (o : DapOp) (s : State),
    let x := (s.chip.inc .DAP_REQUESTS).readAddr o.addr o.row o.held;
      s.chip.boot.phase ≠ .noPower →
      s.chip.boot.phase ≠ .inReset →
      s.chip.pwr.state ≠ .standby →
      s.chip.pwr.state ≠ .off →
      s.chip.dap.spiBusy = false →
      s.chip.dap.spiOut = none →
      l.length ≤ 2000 →
      dapParse 0x11 l = some m →
      m.dest = 0 →
      m.ops = [o] →
      o.code = 1 →
      (s.chip.dapKept .spi) = [] →
      8 + (o.result x.1 x.2).length ≤ 2000 →
    Answers (.dapRequest .spi l) s fun d =>
      d.dap.spiOut = some (natToOctets 1 0x12 ++ natToOctets 1 (m.flags % 2) ++ natToOctets 2 m.txn ++ [0] ++ natToOctets 1 (s.chip.rd .WALE_ADDRESS) ++ [1, 0] ++ o.result x.1 x.2) ∧
      Counts s.chip d .DAP_REQUESTS 0 1 ∧
      ((d.dap.kept.getD 4 []).head?.map (fun k => (k.txn, k.request)) = some (m.txn, m.raw)) ∧
      (s.chip.Keeps d fun k => k = ⟨.DAP_REQUESTS, 0, 0⟩)) ∧
  (∀ (l : List Octet) (m : DapMsg) (k : DapReply) (s : State), s.chip.boot.phase ≠ .noPower →
      s.chip.boot.phase ≠ .inReset →
      s.chip.pwr.state ≠ .standby →
      s.chip.pwr.state ≠ .off →
      s.chip.dap.spiBusy = false →
      s.chip.dap.spiOut = none →
      l.length ≤ 2000 →
      dapParse 0x11 l = some m →
      m.dest = 0 →
      s.chip.dapKept .spi = [k] →
      k.requester = 0 →
      k.txn = m.txn →
      k.request = m.raw →
    Answers (.dapRequest .spi l) s fun d =>
      d.dap.spiOut = some k.response ∧
      Counts s.chip d .DAP_REPLAYS 0 1 ∧
      Counts s.chip d .DAP_REQUESTS 0 1 ∧
      (s.chip.Keeps d fun k => k = ⟨.DAP_REQUESTS, 0, 0⟩ ∨ k = ⟨.DAP_REPLAYS, 0, 0⟩)) ∧
  (∀ (n : BitVec 16) (l : List Octet) (x : BitVec 32) (s : State), s.chip.boot.phase ≠ .noPower →
      s.chip.boot.phase ≠ .inReset →
      s.chip.pwr.state ≠ .standby →
      s.chip.pwr.state ≠ .off →
      s.chip.dap.spiBusy = false →
      s.chip.dap.spiOut = none →
      n.toNat = l.length →
      crc32 (natToOctets 2 l.length ++ l) = x.toNat →
      l.length ≤ 2000 →
      dapParse 0x11 l = none →
    Answers (.spiWriteReq n l x) s fun d =>
      Counts s.chip d .DAP_MALFORMED 0 1 ∧
      d.dap.spiCrcErr = false ∧
      d.dap.spiOverrun = false ∧
      d.dap.spiOut = none ∧
      (s.chip.Keeps d fun k => k = ⟨.DAP_MALFORMED, 0, 0⟩)) ∧
  (∀ (n : BitVec 16) (x : BitVec 32) (l : List Octet) (m : DapMsg) (o : DapOp) (s : State), s.chip.boot.phase ≠ .noPower →
      s.chip.boot.phase ≠ .inReset →
      s.chip.pwr.state ≠ .standby →
      s.chip.pwr.state ≠ .off →
      s.chip.dap.spiBusy = false →
      s.chip.dap.spiOut = none →
      n.toNat = l.length →
      crc32 (natToOctets 2 l.length ++ l) = x.toNat →
      l.length ≤ 2000 →
      dapParse 0x11 l = some m →
      m.dest = 0 →
      m.ops = [o] →
      o.code = 3 →
      (s.chip.dapKept .spi) = [] →
      s.chip.dap.spiCrcErr = false →
    Answers (.spiWriteReq n l x) s fun d =>
      (∃ e, d.dap.spiOut = some (e ++ o.result (describeAddr o.addr o.row).1 (describeAddr o.addr o.row).2)) ∧
      Counts s.chip d .DAP_REQUESTS 0 1 ∧
      (s.chip.Keeps d fun k => k = ⟨.DAP_REQUESTS, 0, 0⟩)) ∧
  (∀ (n : BitVec 16) (l : List Octet) (x : BitVec 32) (s : State), s.chip.boot.phase ≠ .noPower →
      s.chip.boot.phase ≠ .inReset →
      s.chip.dap.spiBusy = false →
      s.chip.dap.spiOut = none →
      (n.toNat ≠ l.length ∨ crc32 (natToOctets 2 n.toNat ++ l) ≠ x.toNat) →
    Answers (.spiWriteReq n l x) s fun d =>
      d.dap.spiCrcErr = true ∧
      d.dap.spiOut = none ∧
      Counts s.chip d .SPI_CRC_ERR 0 1 ∧
      (s.chip.Keeps d fun k => k = ⟨.SPI_CRC_ERR, 0, 0⟩)) ∧
  (∀ (n : BitVec 16) (l : List Octet) (x : BitVec 32) (m : List Octet) (s : State), s.chip.boot.phase ≠ .noPower →
      s.chip.boot.phase ≠ .inReset →
      s.chip.dap.spiOut = some m →
    Answers (.spiWriteReq n l x) s fun d =>
      d.dap = { s.chip.dap with spiCrcErr := false, spiOverrun := true } ∧
      (s.chip.Keeps d fun _ => False)) ∧
  (∀ (s : State), s.chip.boot.phase ≠ .noPower →
      s.chip.boot.phase ≠ .inReset →
    Answers (.spiReadStatus) s fun d =>
      d.access = ⟨.ok, natToOctets 1 s.chip.spiStatus⟩ ∧
      (s.chip.ChangesOnly d fun _ => False)) ∧
  (∀ (b : Bool) (l : List Octet) (s : State), s.chip.boot.phase ≠ .noPower →
      s.chip.boot.phase ≠ .inReset →
      s.chip.dap.spiOut = some l →
    Answers (.spiReadResp b) s fun d =>
      d.access = ⟨.ok, (natToOctets 2 l.length ++ l) ++ natToOctets 4 (crc32 (natToOctets 2 l.length ++ l))⟩ ∧
      (d.dap = (if b then { s.chip.dap with spiOut := none } else s.chip.dap)) ∧
      d.bare = { s.chip.bare with dap := d.dap } ∧
      (s.chip.Keeps d fun _ => False)) ∧
  (∀ (f : List Octet) (s : State), s.chip.pathOpen (.wale 0) = true →
      dapParse 0x12 (frameBody f) = none →
    Answers (.dapResponseReceived f) s fun d =>
      Counts s.chip d .DAP_MALFORMED 0 1 ∧
      d.bare = s.chip.bare ∧
      (s.chip.Keeps d fun k => k = ⟨.DAP_MALFORMED, 0, 0⟩)) ∧
  (∀ (f : List Octet) (m : DapMsg) (s : State), s.chip.pathOpen (.wale 0) = true →
      dapParse 0x12 (frameBody f) = some m →
      s.chip.dap.relays = [] →
    Answers (.dapResponseReceived f) s fun d =>
      d.bare = s.chip.bare ∧
      (s.chip.Keeps d fun _ => False)) ∧
  (∀ (f : List Octet) (m : DapMsg) (k : DapRelay) (s : State), s.chip.pathOpen (.wale 0) = true →
      dapParse 0x12 (frameBody f) = some m →
      s.chip.dap.relays = [k] →
      k.txn = m.txn →
      k.dest = m.src →
      k.via = .spi →
      s.chip.dap.spiOut = none →
    Answers (.dapResponseReceived f) s fun d =>
      d.dap.spiOut = some (m.raw.take 1 ++ natToOctets 1 (withBit m.flags 1 true) ++ m.raw.drop 2) ∧
      (s.chip.Keeps d fun _ => False)) ∧
  (∀ (b : Bool) (s : State), s.chip.pathOpen .mgmt = true →
      s.chip.rdBool .MGMT_ENABLE = true →
    Answers (.mgmtAnComplete b) s fun d =>
      (d.rd .MGMT_STATUS = 3 + (if s.chip.rdBool .MGMT_AN_ENABLE && b then 4 else 0) + (if !s.chip.rdBool .MGMT_AN_ENABLE || b then 8 else 0)) ∧
      (s.chip.ChangesOnly d fun k => k = ⟨.MGMT_STATUS, 0, 0⟩)) ∧
  (∀ (b : Bool) (s : State), s.chip.pathOpen .mgmt = true →
      s.chip.rdBool .MGMT_ENABLE = true →
    Answers (.mgmtSyncLoss b) s fun d =>
      (d.rd .MGMT_STATUS = (if b then 1 else 0)) ∧
      (s.chip.ChangesOnly d fun k => k = ⟨.MGMT_STATUS, 0, 0⟩)) ∧
  (∀ (n : Nat) (e : EvName) (x : Window) (s : State), s.chip.ev.windows = [x] →
      x.inst = n →
      x.ev = e →
      x.folded = 0 →
      s.chip.ev.raised = [] →
    Answers (.coalesceWindowClose n e) s fun d =>
      d.ev = { s.chip.ev with windows := [] } ∧
      d.bare = s.chip.bare ∧
      (s.chip.Keeps d fun _ => False)) ∧
  (∀ (n : Nat) (e : EvName) (x : Window) (s : State), s.chip.ev.windows = [x] →
      x.inst = n →
      x.ev = e →
      x.folded ≠ 0 →
      s.chip.ev.raised = [] →
      s.chip.rd .EV_RING_MODE = 0 →
      s.chip.evFill < 3072 →
      s.chip.rd .WALE_EVENT_DEST = 0 →
    Answers (.coalesceWindowClose n e) s fun d =>
      d.ev.windows = [{ inst := n, ev := e }] ∧
      d.ev.ring.get? (s.chip.rd .EV_WRITE_COUNT % 4096) = some { x.record with seq := s.chip.ev.seq } ∧
      d.ev.seq = (s.chip.ev.seq + 1) % 2 ^ 32) ∧
  (∀ (v : BitVec 64) (s : State), s.chip.asleep .EV_READ_COUNT 0 = false →
      s.chip.rd .EV_READ_COUNT ≤ v.toNat →
      v.toNat ≤ s.chip.rd .EV_WRITE_COUNT →
      s.chip.ev.overflow = none →
    Answers (.evReadCountWrite v) s fun d =>
      d.accepted ∧
      d.rd .EV_READ_COUNT = v.toNat ∧
      d.bare = s.chip.bare ∧
      (s.chip.Keeps d fun _ => False)) ∧
  (∀ (v : BitVec 64) (s : State), s.chip.asleep .EV_READ_COUNT 0 = false →
      (v.toNat < s.chip.rd .EV_READ_COUNT ∨ s.chip.rd .EV_WRITE_COUNT < v.toNat) →
    Answers (.evReadCountWrite v) s fun d =>
      s.chip.TurnedAway d .range)

/-- R343 to R345, R348, R352: requests for device and tile states. -/
def Obligations.PowerRequestsStartOrWait : Prop :=
  (∀ (s : State), s.chip.asleep .PWR_REQUEST 0 = false →
      s.chip.inTransition = false →
      s.chip.pwr.state = .active →
    Answers (.pwrRequestStandby) s fun d =>
      d.accepted ∧
      d.pwr = { s.chip.pwr with agreed := some [], target := .standby, direct := false } ∧
      (s.chip.Keeps d fun _ => False) ∧
      d.bare = { s.chip.bare with pwr := d.bare.pwr }) ∧
  (∀ (s : State), s.chip.asleep .PWR_REQUEST 0 = false →
      s.chip.inTransition = false →
      s.chip.pwr.state = .active →
    Answers (.pwrRequestOff) s fun d =>
      d.accepted ∧
      d.pwr = { s.chip.pwr with agreed := some [], target := .off, direct := false } ∧
      (s.chip.Keeps d fun _ => False) ∧
      d.bare = { s.chip.bare with pwr := d.bare.pwr }) ∧
  (∀ (s : State), s.chip.asleep .PWR_REQUEST 0 = false →
      s.chip.inTransition = true →
    Answers (.pwrRequestStandby) s fun d =>
      d.accepted ∧
      d.pwr = { s.chip.pwr with pending := some .standby, pendingDirect := false, pendingCause := 0x10 } ∧
      (s.chip.Keeps d fun _ => False) ∧
      d.bare = { s.chip.bare with pwr := d.bare.pwr }) ∧
  (∀ (s : State), s.chip.asleep .PWR_REQUEST 0 = false →
      s.chip.inTransition = true →
    Answers (.pwrRequestOff) s fun d =>
      d.accepted ∧
      d.pwr = { s.chip.pwr with pending := some .off, pendingDirect := false, pendingCause := 0x10 } ∧
      (s.chip.Keeps d fun _ => False) ∧
      d.bare = { s.chip.bare with pwr := d.bare.pwr }) ∧
  (∀ (s : State), s.chip.asleep .PWR_REQUEST 0 = false →
      s.chip.inTransition = true →
    Answers (.pwrRequestActive) s fun d =>
      d.accepted ∧
      d.pwr = { s.chip.pwr with pending := some .active, pendingDirect := false, pendingCause := 0x10 } ∧
      (s.chip.Keeps d fun _ => False) ∧
      d.bare = { s.chip.bare with pwr := d.bare.pwr }) ∧
  (∀ (s : State), s.chip.asleep .PWR_REQUEST 0 = false →
      s.chip.inTransition = false →
      s.chip.pwr.state = .active →
    Answers (.pwrRequestActive) s fun d =>
      d.accepted ∧
      (s.chip.ChangesOnly d fun _ => False)) ∧
  (∀ (s : State), s.chip.asleep .PWR_REQUEST 0 = false →
      s.chip.inTransition = false →
      s.chip.pwr.state = .wakeFault →
    Answers (.pwrRequestActive) s fun d =>
      d.accepted ∧
      d.pwr = { s.chip.pwr with waking := some .reference, tries := 0, target := .active, direct := false, agreed := none } ∧
      d.rd .WAKE_CAUSE = 0x10 ∧
      d.rd .WAKE_STEP_FAIL = 0 ∧
      (s.chip.Keeps d fun k => k = ⟨.WAKE_CAUSE, 0, 0⟩ ∨ k = ⟨.WAKE_STEP_FAIL, 0, 0⟩) ∧
      d.bare = { s.chip.bare with pwr := d.bare.pwr }) ∧
  (∀ (s : State), s.chip.asleep .PWR_DIRECT 0 = false →
      s.chip.inTransition = false →
      s.chip.pwr.state = .wakeFault →
    Answers (.pwrDirectActive) s fun d =>
      d.accepted ∧
      d.pwr = { s.chip.pwr with waking := some .reference, tries := 0, target := .active, direct := false, agreed := none } ∧
      d.rd .WAKE_CAUSE = 0x10 ∧
      (s.chip.Keeps d fun k => k = ⟨.WAKE_CAUSE, 0, 0⟩ ∨ k = ⟨.WAKE_STEP_FAIL, 0, 0⟩) ∧
      d.bare = { s.chip.bare with pwr := d.bare.pwr }) ∧
  (∀ (s : State), s.chip.asleep .PWR_DIRECT 0 = false →
      s.chip.rdBool .PWR_TEST_MODE = true →
      s.chip.inTransition = false →
      s.chip.pwr.state = .active →
    Answers (.pwrDirectStandby) s fun d =>
      d.accepted ∧
      d.pwr.entering = true ∧
      d.pwr.target = .standby ∧
      d.pwr.direct = true ∧
      ((∀ p ∈ s.chip.portsAll, (d.port p).link = .disabled ∨ (d.port p).link = .held))) ∧
  (∀ (s : State), s.chip.asleep .PWR_DIRECT 0 = false →
      s.chip.rdBool .PWR_TEST_MODE = true →
      s.chip.inTransition = false →
      s.chip.pwr.state = .active →
    Answers (.pwrDirectOff) s fun d =>
      d.accepted ∧
      d.pwr.entering = true ∧
      d.pwr.target = .off ∧
      d.pwr.direct = true ∧
      ((∀ p ∈ s.chip.portsAll, (d.port p).link = .disabled ∨ (d.port p).link = .held))) ∧
  (∀ (s : State), s.chip.asleep .PWR_DIRECT 0 = false →
      s.chip.directAllowed = false →
    Answers (.pwrDirectActive) s fun d =>
      s.chip.TurnedAway d .state) ∧
  (∀ (s : State), s.chip.asleep .PWR_DIRECT 0 = false →
      s.chip.directAllowed = false →
    Answers (.pwrDirectStandby) s fun d =>
      s.chip.TurnedAway d .state) ∧
  (∀ (s : State), s.chip.asleep .PWR_DIRECT 0 = false →
      s.chip.directAllowed = false →
    Answers (.pwrDirectOff) s fun d =>
      s.chip.TurnedAway d .state) ∧
  (∀ (t : TileNo) (s : State), s.chip.asleep .TILE_REQUEST t = false →
      s.chip.inTransition = false →
      s.chip.pwr.state = .active →
      s.chip.tileBusy t = false →
      ((s.chip.tile t).st = .sleep ∨ (s.chip.tile t).st = .down) →
    Answers (.tileRequestRun t) s fun d =>
      d.accepted ∧
      d.tile t = { s.chip.tile t with waking := true, tries := 0 } ∧
      (∀ k : Nat, k ≠ t.val → d.tile k = s.chip.tile k) ∧
      (s.chip.Keeps d fun k => k = ⟨.BIST_INCOMPLETE_COUNT, 0, 0⟩) ∧
      d.bare = { s.chip.bare with pwr := d.bare.pwr, bist := d.bare.bist }) ∧
  (∀ (t : TileNo) (s : State), s.chip.asleep .TILE_REQUEST t = false →
      s.chip.inTransition = false →
      s.chip.pwr.state = .active →
      s.chip.tileBusy t = false →
      (s.chip.tile t).st = .run →
    Answers (.tileRequestSleep t) s fun d =>
      d.accepted ∧
      d.tile t = { s.chip.tile t with agreed := some [] } ∧
      (∀ k : Nat, k ≠ t.val → d.tile k = s.chip.tile k) ∧
      (s.chip.Keeps d fun _ => False) ∧
      d.bare = { s.chip.bare with pwr := d.bare.pwr }) ∧
  (∀ (t : TileNo) (s : State), s.chip.asleep .TILE_REQUEST t = false →
      (s.chip.tile t).st = .isolated →
    Answers (.tileRequestRun t) s fun d =>
      s.chip.TurnedAway d .state) ∧
  (∀ (t : TileNo) (s : State), s.chip.asleep .TILE_REQUEST t = false →
      (s.chip.tile t).st = .isolated →
    Answers (.tileRequestSleep t) s fun d =>
      s.chip.TurnedAway d .state) ∧
  (∀ (t : TileNo) (s : State), s.chip.asleep .TILE_REQUEST t = false →
      (s.chip.tile t).st ≠ .isolated →
      s.chip.tileBusy t = true →
    Answers (.tileRequestRun t) s fun d =>
      d.accepted ∧
      d.tile t = { s.chip.tile t with pending := some .run } ∧
      (∀ k : Nat, k ≠ t.val → d.tile k = s.chip.tile k) ∧
      (s.chip.Keeps d fun _ => False) ∧
      d.bare = { s.chip.bare with pwr := d.bare.pwr }) ∧
  (∀ (t : TileNo) (s : State), s.chip.asleep .TILE_REQUEST t = false →
      (s.chip.tile t).st ≠ .isolated →
      s.chip.tileBusy t = true →
    Answers (.tileRequestSleep t) s fun d =>
      d.accepted ∧
      d.tile t = { s.chip.tile t with pending := some .sleep } ∧
      (∀ k : Nat, k ≠ t.val → d.tile k = s.chip.tile k) ∧
      (s.chip.Keeps d fun _ => False) ∧
      d.bare = { s.chip.bare with pwr := d.bare.pwr })

/-- R343 to R347, R350 to R352: answers, refusals, entries, wake sources and wake steps. -/
def Obligations.HandshakesEntriesAndWakesFollowTheirSteps : Prop :=
  (∀ (b : Fin 11) (l : List Nat) (s : State), s.chip.pwr.agreed = some l →
      (handshakeBlocks false).contains b.val = true →
      l.contains b.val = false →
      s.chip.refusal b.val = 0 →
    Answers (.handshakeAnswer none b) s fun d =>
      (d.pwr.agreed = (if ((handshakeBlocks false).all fun k => (l ++ [b.val]).contains k) then none else some (l ++ [b.val]))) ∧
      (d.pwr.entering = (((handshakeBlocks false).all fun k => (l ++ [b.val]).contains k) || s.chip.pwr.entering)) ∧
      d.rd .PWR_REFUSE_COUNT = s.chip.rd .PWR_REFUSE_COUNT) ∧
  (∀ (t : TileNo) (b : Fin 11) (l : List Nat) (s : State), (s.chip.tile t).agreed = some l →
      (handshakeBlocks true).contains b.val = true →
      l.contains b.val = false →
      s.chip.refusal b.val = 0 →
    Answers (.handshakeAnswer (some t) b) s fun d =>
      ((d.tile t).agreed = (if ((handshakeBlocks true).all fun k => (l ++ [b.val]).contains k) then none else some (l ++ [b.val]))) ∧
      ((d.tile t).entering = (((handshakeBlocks true).all fun k => (l ++ [b.val]).contains k) || (s.chip.tile t).entering)) ∧
      (∀ k : Nat, k ≠ t.val → d.tile k = s.chip.tile k)) ∧
  (∀ (b : Fin 11) (l : List Nat) (s : State), s.chip.pwr.agreed = some l →
      (handshakeBlocks false).contains b.val = true →
      l.contains b.val = false →
      s.chip.refusal b.val ≠ 0 →
      s.chip.pwr.pending = none →
    Answers (.handshakeAnswer none b) s fun d =>
      d.pwr.agreed = none ∧
      d.rd .PWR_REFUSE = b.val * 256 + s.chip.refusal b.val ∧
      Counts s.chip d .PWR_REFUSE_COUNT 0 1 ∧
      d.pwr.state = s.chip.pwr.state) ∧
  (∀ (b : Fin 11) (l : List Nat) (s : State), s.chip.pwr.agreed = some l →
      (handshakeBlocks false).contains b.val = true →
      l.contains b.val = false →
      s.chip.pwr.pending = none →
    Answers (.handshakeBoundExpire none b) s fun d =>
      d.pwr.agreed = none ∧
      d.rd .PWR_REFUSE = b.val * 256 + 0xFF ∧
      Counts s.chip d .PWR_REFUSE_COUNT 0 1 ∧
      d.pwr.state = s.chip.pwr.state) ∧
  (∀ (b : Fin 11) (s : State), s.chip.pwr.agreed = none →
    Answers (.handshakeBoundExpire none b) s fun d =>
      d.bare = s.chip.bare ∧
      (s.chip.Keeps d fun _ => False)) ∧
  (∀ (b : BootInputs) (s : State), s.chip.pwr.entering = true →
      s.chip.pwr.target = .standby →
      s.chip.pwr.pending = none →
    Answers (.powerEntryComplete (.device b)) s fun d =>
      d.pwr.state = .standby ∧
      d.pwr.entering = false ∧
      d.pwr.rootOn = false ∧
      d.pwr.hostPll = false ∧
      d.pwr.fro = false ∧
      Counts s.chip d .PWR_TRANSITION_COUNT 0 1 ∧
      (∀ t : TileNo, (d.tile t).st = (if (s.chip.tile t).st = .isolated then .isolated else .down)) ∧
      (∀ t : TileNo, (s.chip.tile t).st ≠ .isolated → ∀ p ∈ s.chip.portsOfTile t, (d.port p).link = .disabled ∨ (d.port p).link = .held)) ∧
  (∀ (b : BootInputs) (s : State), s.chip.pwr.entering = true →
      s.chip.pwr.target = .off →
      s.chip.pwr.pending ≠ some .active →
    Answers (.powerEntryComplete (.device b)) s fun d =>
      d.pwr.state = .off ∧
      d.pwr.entering = false ∧
      d.pwr.rootOn = false ∧
      d.nv = s.chip.nv ∧
      d.dict = []) ∧
  (∀ (t : TileNo) (s : State), (s.chip.tile t).entering = true →
      (s.chip.tile t).pending = none →
    Answers (.powerEntryComplete (.tile t)) s fun d =>
      (d.tile t).st = .sleep ∧
      (d.tile t).entering = false ∧
      (∀ p ∈ s.chip.portsOfTile t, (d.port p).link = .disabled ∨ (d.port p).link = .held) ∧
      (∀ k : Nat, k ≠ t.val → d.tile k = s.chip.tile k)) ∧
  (∀ (k : WakeKind) (b : BootInputs) (s : State), s.chip.boot.phase ≠ .noPower →
      s.chip.boot.phase ≠ .inReset →
      s.chip.pwr.state = .standby →
      s.chip.pwr.entering = false →
      s.chip.pwr.waking = none →
      s.chip.wakeQualified k = true →
    Answers (.wakeSource k b) s fun d =>
      d.pwr = { s.chip.pwr with waking := some .fro, tries := 0, target := .active, direct := false, agreed := none } ∧
      d.rd .WAKE_CAUSE = k.bit ∧
      d.rd .WAKE_STEP_FAIL = 0 ∧
      (s.chip.Keeps d fun k => k = ⟨.WAKE_CAUSE, 0, 0⟩ ∨ k = ⟨.WAKE_STEP_FAIL, 0, 0⟩) ∧
      d.bare = { s.chip.bare with pwr := d.bare.pwr }) ∧
  (∀ (k : WakeKind) (b : BootInputs) (s : State), s.chip.pwr.state ≠ .off →
      s.chip.wakeQualified k = false →
    Answers (.wakeSource k b) s fun d =>
      d.bare = s.chip.bare ∧
      (s.chip.Keeps d fun _ => False)) ∧
  (∀ (p : PortNo) (b : Bool) (c : BootInputs) (s : State), s.chip.boot.phase ≠ .noPower →
      s.chip.boot.phase ≠ .inReset →
      s.chip.pwr.state = .active →
      s.chip.pwr.entering = false →
      s.chip.wakeQualified (.line p b) = true →
      (s.chip.tile (tileOf p)).st = .sleep →
      s.chip.tileBusy (tileOf p) = false →
    Answers (.wakeSource (.line p b) c) s fun d =>
      d.tile (tileOf p) = { s.chip.tile (tileOf p) with waking := true, tries := 0 } ∧
      (s.chip.Keeps d fun k => k = ⟨.BIST_INCOMPLETE_COUNT, 0, 0⟩) ∧
      d.bare = { s.chip.bare with pwr := d.bare.pwr, bist := d.bare.bist }) ∧
  (∀ (n : Nat) (v : BitVec 32) (s : State), s.chip.pwr.waking = some .fro →
      s.chip.dap.spiHeld = none →
    Answers (.wakeStepDone none n v) s fun d =>
      d.pwr = { s.chip.pwr with fro := true, waking := some .reference, tries := 0 } ∧
      (s.chip.Keeps d fun _ => False) ∧
      d.bare = { s.chip.bare with pwr := d.bare.pwr }) ∧
  (∀ (n : Nat) (v : BitVec 32) (s : State), s.chip.pwr.waking = some .reference →
      s.chip.dap.spiHeld = none →
    Answers (.wakeStepDone none n v) s fun d =>
      d.pwr = { s.chip.pwr with waking := some .pll, tries := 0 } ∧
      (s.chip.Keeps d fun _ => False) ∧
      d.bare = { s.chip.bare with pwr := d.bare.pwr }) ∧
  (∀ (n : Nat) (v : BitVec 32) (s : State), s.chip.pwr.waking = some .pll →
      s.chip.pwr.relock = false →
      s.chip.dap.spiHeld = none →
    Answers (.wakeStepDone none n v) s fun d =>
      d.pwr.waking = some .domains ∧
      d.pwr.tries = 0 ∧
      d.pwr.rootOn = true ∧
      d.pwr.hostPll = true ∧
      d.rd .FRO_FREQ = v.toNat) ∧
  (∀ (n : Nat) (v : BitVec 32) (s : State), s.chip.pwr.waking = some .domains →
      s.chip.boot.applied = true →
      s.chip.dap.spiHeld = none →
      (s.chip.tile 0).st = .down →
    Answers (.wakeStepDone none n v) s fun d =>
      d.pwr.waking = some (.group 0) ∧
      d.pwr.tries = 0 ∧
      d.pwr.fro = true ∧
      d.pwr.tiles = s.chip.pwr.tiles) ∧
  (∀ (t : TileNo) (n : Nat) (v : BitVec 32) (s : State), s.chip.pwr.waking = none →
      (s.chip.tile t).waking = true →
      (s.chip.tile t).pending = none →
      s.chip.dap.spiHeld = none →
      s.chip.pwr.rootOn = true →
    Answers (.wakeStepDone (some t) n v) s fun d =>
      (d.tile t).st = .run ∧
      (d.tile t).waking = false ∧
      (d.tile t).tries = 0 ∧
      d.tileRuns t = true ∧
      (∀ k : Nat, k ≠ t.val → d.tile k = s.chip.tile k)) ∧
  (∀ (n : Nat) (s : State), s.chip.pwr.waking = some .reference →
      s.chip.dap.spiHeld = none →
      s.chip.pwr.tries < 2 →
    Answers (.wakeStepTimeout none n) s fun d =>
      d.pwr = { s.chip.pwr with tries := s.chip.pwr.tries + 1 } ∧
      d.rd .WAKE_STEP_FAIL = setBits (s.chip.rd .WAKE_STEP_FAIL) 1 0 (s.chip.pwr.tries + 1) % 2 ^ 16 ∧
      (s.chip.Keeps d fun k => k = ⟨.WAKE_STEP_FAIL, 0, 0⟩)) ∧
  (∀ (n : Nat) (s : State), s.chip.pwr.waking = some .pll →
      s.chip.dap.spiHeld = none →
      2 ≤ s.chip.pwr.tries →
      s.chip.pwr.pending = none →
    Answers (.wakeStepTimeout none n) s fun d =>
      d.pwr.state = .wakeFault ∧
      d.pwr.waking = none ∧
      d.pwr.rootOn = false ∧
      d.rd .WAKE_TIME = n % 2 ^ 32 ∧
      Counts s.chip d .PWR_TRANSITION_COUNT 0 1 ∧
      (∀ t : TileNo, (d.tile t).st = (if (s.chip.tile t).st = .isolated then .isolated else .down))) ∧
  (∀ (t : TileNo) (n : Nat) (s : State), s.chip.pwr.waking = none →
      (s.chip.tile t).waking = true →
      s.chip.dap.spiHeld = none →
      (s.chip.tile t).tries < 2 →
    Answers (.wakeStepTimeout (some t) n) s fun d =>
      d.tile t = { s.chip.tile t with tries := (s.chip.tile t).tries + 1 } ∧
      Counts s.chip d .TILE_REG_FAIL_COUNT t 1 ∧
      (∀ k : Nat, k ≠ t.val → d.tile k = s.chip.tile k)) ∧
  (∀ (t : TileNo) (n : Nat) (s : State), s.chip.pwr.waking = none →
      (s.chip.tile t).waking = true →
      (s.chip.tile t).st ≠ .isolated →
      s.chip.dap.spiHeld = none →
      2 ≤ (s.chip.tile t).tries →
    Answers (.wakeStepTimeout (some t) n) s fun d =>
      (d.tile t).st = .isolated ∧
      (d.tile t).regFault = true ∧
      Counts s.chip d .TILE_REG_FAIL_COUNT t 1 ∧
      d.rdBit .WAKE_STEP_FAIL 4 = true ∧
      (∀ k : Nat, k ≠ t.val → d.tile k = s.chip.tile k))

/-- R23, R27, R334, R336, R339 to R342, R352, R431, R432: performance levels, clock gates, lost clocks and the monitors. -/
def Obligations.LevelsClocksAndMonitorsFollow : Prop :=
  (∀ (t : TileNo) (s : State), s.chip.levelManual t = false →
      (s.chip.tile t).st = .run →
      (s.chip.tile t).levelTarget = none →
      (s.chip.tile t).levelPending = none →
      (s.chip.tile t).level < s.chip.tileNeed t →
    Answers (.plLowerTimer t) s fun d =>
      d.tile t = { s.chip.tile t with levelTarget := some (s.chip.tileNeed t) } ∧
      (∀ k : Nat, k ≠ t.val → d.tile k = s.chip.tile k) ∧
      (s.chip.Keeps d fun _ => False) ∧
      d.bare = { s.chip.bare with pwr := d.bare.pwr }) ∧
  (∀ (t : TileNo) (s : State), (s.chip.levelManual t = true ∨ s.chip.tileNeed t ≤ (s.chip.tile t).levelGoal) →
    Answers (.plLowerTimer t) s fun d =>
      d.bare = s.chip.bare ∧
      (s.chip.Keeps d fun _ => False)) ∧
  (∀ (t : TileNo) (l : Nat) (s : State), (s.chip.tile t).levelTarget = some l →
      (s.chip.tile t).levelPending = none →
      (∀ p ∈ s.chip.portsOfTile t, (s.chip.port p).waitLevel = false) →
    Answers (.plChangeComplete t) s fun d =>
      d.tile t = { s.chip.tile t with level := l, levelTarget := none } ∧
      (∀ k : Nat, k ≠ t.val → d.tile k = s.chip.tile k) ∧
      (s.chip.Keeps d fun _ => False) ∧
      d.bare = { s.chip.bare with pwr := d.bare.pwr }) ∧
  (∀ (t : TileNo) (v : BitVec 8) (s : State), s.chip.asleep .TILE_PL_SET t = false →
      v.toNat ≤ 3 →
      s.chip.levelManual t = true →
      s.chip.levelBreaks t v.toNat = false →
      s.chip.tileCalibrates t = false →
      (s.chip.tile t).st = .run →
      (s.chip.tile t).levelTarget = none →
      (s.chip.tile t).level ≠ v.toNat →
    Answers (.tilePlWrite t true v) s fun d =>
      d.accepted ∧
      d.rd .TILE_PL_SET t = v.toNat ∧
      d.tile t = { s.chip.tile t with levelTarget := some v.toNat } ∧
      (∀ k : Nat, k ≠ t.val → d.tile k = s.chip.tile k) ∧
      (s.chip.Keeps d fun k => k = ⟨.TILE_PL_SET, t, 0⟩) ∧
      d.bare = { s.chip.bare with pwr := d.bare.pwr }) ∧
  (∀ (t : TileNo) (v : BitVec 8) (s : State), s.chip.asleep .TILE_PL_SET t = false →
      v.toNat ≤ 3 →
      (s.chip.levelManual t = false ∨ s.chip.levelBreaks t v.toNat = true) →
    Answers (.tilePlWrite t true v) s fun d =>
      s.chip.TurnedAway d .state) ∧
  (∀ (t : TileNo) (s : State), s.chip.asleep .TILE_PL_MODE t = false →
      (s.chip.tile t).levelGoal ≤ s.chip.tileNeed t →
    Answers (.tilePlWrite t false 0) s fun d =>
      d.accepted ∧
      d.rd .TILE_PL_MODE t = 0 ∧
      (s.chip.ChangesOnly d fun k => k = ⟨.TILE_PL_MODE, t, 0⟩)) ∧
  (∀ (t : TileNo) (b : Bool) (v : BitVec 8) (s : State), (s.chip.asleep (if b then .TILE_PL_SET else .TILE_PL_MODE) t = false) →
      ((if b then 3 else 1) < v.toNat) →
    Answers (.tilePlWrite t b v) s fun d =>
      s.chip.TurnedAway d .range) ∧
  (∀ (v : BitVec 32) (s : State), s.chip.asleep .LEGACY_GATE 0 = false →
      s.chip.gatesLawful (v.toNat &&& 0xFFFFFF7F) = true →
    Answers (.legacyGateWrite v) s fun d =>
      d.accepted ∧
      d.rd .LEGACY_GATE = v.toNat &&& 0xFFFFFF7F ∧
      (s.chip.ChangesOnly d fun k => k = ⟨.LEGACY_GATE, 0, 0⟩)) ∧
  (∀ (v : BitVec 32) (b : Nat) (a : Nat) (s : State), s.chip.asleep .LEGACY_GATE 0 = false →
      gateBits.contains b = true →
      gateParent b = some a →
      v.toNat.testBit b = true →
      (v.toNat &&& 0xFFFFFF7F).testBit a = false →
    Answers (.legacyGateWrite v) s fun d =>
      s.chip.TurnedAway d .state) ∧
  (∀ (x : Fin 60) (s : State),
    Answers (.clkswForce x) s fun d =>
      Counts s.chip d .CLKSW_FORCED_COUNT 0 1 ∧
      d.pwr.forced.contains x.val = true ∧
      d.pwr.tiles = s.chip.pwr.tiles ∧
      (s.chip.Keeps d fun k => k = ⟨.CLKSW_FORCED_COUNT, 0, 0⟩) ∧
      d.bare = { s.chip.bare with pwr := d.bare.pwr }) ∧
  (∀ (t : TileNo) (s : State), (s.chip.tile t).st = .run →
    Answers (.regulatorFailureInService t) s fun d =>
      (d.tile t).st = .isolated ∧
      (d.tile t).regFault = true ∧
      (∀ p ∈ s.chip.portsOfTile t, (d.port p).link = .disabled ∨ (d.port p).link = .held) ∧
      (∀ k : Nat, k ≠ t.val → d.tile k = s.chip.tile k)) ∧
  (∀ (t : TileNo) (s : State), (s.chip.tile t).st ≠ .run →
    Answers (.regulatorFailureInService t) s fun d =>
      d.bare = s.chip.bare ∧
      (s.chip.Keeps d fun _ => False)) ∧
  (∀ (b : Bool) (s : State), s.chip.pwr.rootOn = true →
    Answers (.rootPllLockLoss b) s fun d =>
      d.pwr.rootOn = false ∧
      d.pwr.relock = s.chip.pwr.waking.isNone ∧
      (d.pwr.waking = some (if b then .reference else .pll)) ∧
      d.pwr.tries = 0 ∧
      d.tb = s.chip.tb ∧
      ((∀ p ∈ s.chip.portsAll, (d.port p).link = .disabled ∨ (d.port p).link = .held))) ∧
  (∀ (b : Bool) (s : State), s.chip.pwr.rootOn = false →
    Answers (.rootPllLockLoss b) s fun d =>
      d.bare = s.chip.bare ∧
      (s.chip.Keeps d fun _ => False)) ∧
  (∀ (t : TileNo) (x y v : BitVec 16) (w : BitVec 32) (s : State),
    Answers (.thermSensorSample t x y v w) s fun d =>
      d.rd .TILE_TEMP t = x.toNat ∧
      d.rd .LID_TEMP = y.toNat ∧
      d.rd .TILE_CORE_V t = v.toNat ∧
      d.rd .TILE_POWER t = w.toNat ∧
      d.rdInt .TEMP_PEAK = max (s.chip.rdInt .TEMP_PEAK) x.toInt ∧
      (s.chip.rdInt .THERM_WARN ≤ x.toInt → d.rdBit .MON_STATUS 2 = true) ∧
      (1760 < x.toInt → d.rdBit .MON_STATUS 3 = true) ∧
      d.pwr = s.chip.pwr) ∧
  (∀ (t : TileNo) (s : State), (s.chip.tile t).st ≠ .isolated →
      s.chip.pwr.waking = none →
    Answers (.thermTrip t) s fun d =>
      (d.tile t).st = .isolated ∧
      (d.tile t).regFault = true ∧
      (∀ k : Nat, k ≠ t.val → d.tile k = s.chip.tile k)) ∧
  (∀ (x : BitVec 16) (y z : BitVec 32) (s : State),
    Answers (.vinMonitor x y z) s fun d =>
      d.rd .VIN_VOLTAGE = x.toNat ∧
      d.rd .VIN_CURRENT = y.toNat ∧
      d.rd .VIN_POWER = z.toNat ∧
      d.rdBit .MON_STATUS 0 = decide (x.toNat < 10800) ∧
      d.rdBit .MON_STATUS 1 = decide (13200 < x.toNat) ∧
      d.bare = s.chip.bare ∧
      (s.chip.Keeps d fun k => k = ⟨.VIN_VOLTAGE, 0, 0⟩ ∨ k = ⟨.VIN_CURRENT, 0, 0⟩ ∨ k = ⟨.VIN_POWER, 0, 0⟩ ∨ k = ⟨.MON_STATUS, 0, 0⟩))

/-- R355 to R359, R361, R365, R366: rounds, visits, results, foreground calibration and stored records. -/
def Obligations.CalibrationRoundsVisitsAndRecords : Prop :=
  (∀ (e : PeNo) (s : State), s.chip.asleep .CAL_START e = false →
      (s.chip.calOf e).fg = false →
      (s.chip.port (s.chip.portOf e)).link = .disabled →
      s.chip.tileRuns (tileOf e) = true →
      s.chip.rdBit .LEGACY_GATE (16 + tileOf e) = true →
    Answers (.calStart e 1) s fun d =>
      d.accepted ∧
      (d.calOf e).still = { (s.chip.calOf e).still with fg := true } ∧
      (∀ k : Nat, k ≠ e.val → (d.calOf k).still = (s.chip.calOf k).still) ∧
      (s.chip.Keeps d fun _ => False)) ∧
  (∀ (e : PeNo) (s : State), s.chip.asleep .CAL_START e = false →
      (s.chip.calOf e).fg = true →
    Answers (.calStart e 1) s fun d =>
      s.chip.TurnedAway d .busy) ∧
  (∀ (e : PeNo) (s : State), s.chip.asleep .CAL_START e = false →
      (s.chip.calOf e).fg = false →
      ((s.chip.port (s.chip.portOf e)).link ≠ .disabled ∨ s.chip.tileRuns (tileOf e) = false ∨ s.chip.rdBit .LEGACY_GATE (16 + tileOf e) = false) →
    Answers (.calStart e 1) s fun d =>
      s.chip.TurnedAway d .state) ∧
  (∀ (g : Fin 4) (l : List Nat) (s : State), s.chip.bist.fgGroups = g.val :: l →
    Answers (.foregroundGroupStart) s fun d =>
      d.bist = { s.chip.bist with fgGroups := l } ∧
      (∀ e : PeNo, e.val / 128 = g.val → (s.chip.calOf e).valid = false → s.chip.tileRuns (tileOf e) = true → s.chip.rd .BIST_STATE_PE e ≠ 2 → (d.calOf e).fg = true) ∧
      (∀ e : PeNo, e.val / 128 ≠ g.val → (d.calOf e).still = (s.chip.calOf e).still) ∧
      (s.chip.Keeps d fun _ => False)) ∧
  (∀ (s : State), s.chip.bist.fgGroups = [] →
    Answers (.foregroundGroupStart) s fun d =>
      d.bare = s.chip.bare ∧
      (s.chip.Keeps d fun _ => False)) ∧
  (∀ (e : PeNo) (m : FgMeas) (s : State), (s.chip.calOf e).fg = true →
      s.chip.tileRuns (tileOf e) = true →
      recordUnusable (fgRecord (s.chip.calOf e).octets m).1 = false →
      delayTooLong m = false →
      (spareOf (fgRecord (s.chip.calOf e).octets m).1 false).isSome = true →
      (spareOf (fgRecord (s.chip.calOf e).octets m).1 true).isSome = true →
    Answers (.foregroundCalDone e m) s fun d =>
      (d.calOf e).octets = (fgRecord (s.chip.calOf e).octets m).1 ∧
      (d.calOf e).fg = false ∧
      (d.calOf e).valid = true ∧
      (d.calOf e).changed = true ∧
      (∀ k : Nat, k ≠ e.val → (d.calOf k).still = (s.chip.calOf k).still)) ∧
  (∀ (e : PeNo) (m : FgMeas) (s : State), (s.chip.calOf e).fg = true →
      s.chip.tileRuns (tileOf e) = true →
      (recordUnusable (fgRecord (s.chip.calOf e).octets m).1 = true ∨ delayTooLong m = true) →
    Answers (.foregroundCalDone e m) s fun d =>
      d.rd .BIST_STATE_PE e = 2 ∧
      (d.calOf e).fg = false ∧
      (d.calOf e).valid = true) ∧
  (∀ (e : PeNo) (b : Bool) (s : State), (((List.range (elemCount b)).any fun n => elemState (s.chip.calOf e).octets b n != 2) = true) →
      (((s.chip.calOf e).rot b).from_ = 0 ∨ ((s.chip.calOf e).rot b).from_ + rootUs 10000 ≤ s.chip.root) →
      s.chip.rdBool .CAL_ENABLE = true →
      ((s.chip.calOf e).rot b).round = false →
      ((s.chip.calOf e).rot b).noSpare = false →
      (s.chip.calOf e).valid = true →
      s.chip.rd .BIST_STATE_PE e ≠ 2 →
    Answers (.calRoundStart e b) s fun d =>
      ((d.calOf e).rot b).round = true ∧
      ((d.calOf e).rot b).from_ = s.chip.root ∧
      (d.calOf e).octets = (s.chip.calOf e).octets ∧
      (∀ k : Nat, k ≠ e.val → (d.calOf k).still = (s.chip.calOf k).still) ∧
      (s.chip.Keeps d fun _ => False)) ∧
  (∀ (e : PeNo) (b : Bool) (s : State), (s.chip.rdBool .CAL_ENABLE = false ∨ ((s.chip.calOf e).rot b).round = true ∨ (s.chip.calOf e).valid = false ∨ (((s.chip.calOf e).rot b).from_ ≠ 0 ∧ s.chip.root < ((s.chip.calOf e).rot b).from_ + rootUs 10000)) →
    Answers (.calRoundStart e b) s fun d =>
      d.bare = s.chip.bare ∧
      (s.chip.Keeps d fun _ => False)) ∧
  (∀ (e : PeNo) (b : Bool) (l m : List (Quantity × Int)) (v : Visit) (t : Nat) (s : State), ((s.chip.calOf e).rot b).visit = some v →
      s.chip.visitStays e v = true →
      v.phase = .standIn →
      v.stand = some t →
    Answers (.calVisitPhaseEnd e b l m) s fun d =>
      ((d.calOf e).rot b).visit = some { v with phase := .measure } ∧
      (d.calOf e).octets = matchElem (s.chip.calOf e).octets b t m ∧
      (∀ k : Nat, k ≠ e.val → (d.calOf k).still = (s.chip.calOf k).still) ∧
      (s.chip.Keeps d fun _ => False)) ∧
  (∀ (e : PeNo) (b : Bool) (x : Int) (m : List (Quantity × Int)) (v : Visit) (t : Nat) (s : State), ((s.chip.calOf e).rot b).visit = some v →
      s.chip.visitStays e v = true →
      v.phase = .measure →
      v.stand = some t →
      (s.chip.calOf e).accepts b .gain v.elem x = true →
      (s.chip.calOf e).rejects = [] →
    Answers (.calVisitPhaseEnd e b [(.gain, x)] m) s fun d =>
      ((d.calOf e).rot b).visit = some { v with phase := .back } ∧
      (d.calOf e).accepted.get? (qOctet b .gain v.elem) = some x ∧
      (d.calOf e).target.get? (qOctet b .gain v.elem) = some x ∧
      ((d.calOf e).octets = if b then (s.chip.calOf e).octets else exchangeCmp (s.chip.calOf e).octets v.elem) ∧
      (∀ k : Nat, k ≠ e.val → (d.calOf k).still = (s.chip.calOf k).still) ∧
      (s.chip.Keeps d fun _ => False)) ∧
  (∀ (e : PeNo) (b : Bool) (x : Int) (m : List (Quantity × Int)) (v : Visit) (t : Nat) (s : State), ((s.chip.calOf e).rot b).visit = some v →
      s.chip.visitStays e v = true →
      v.phase = .measure →
      v.stand = some t →
      (s.chip.calOf e).accepts b .gain v.elem x = false →
      (s.chip.calOf e).rejects = [] →
    Answers (.calVisitPhaseEnd e b [(.gain, x)] m) s fun d =>
      Counts s.chip d .CAL_REJECT_COUNT e 1 ∧
      ((d.calOf e).rejects.getD (if b then 100 + v.elem else v.elem) 0 = 1) ∧
      ((d.calOf e).octets = if b then (s.chip.calOf e).octets else exchangeCmp (s.chip.calOf e).octets v.elem) ∧
      (d.calOf e).target = (s.chip.calOf e).target.put (qOctet b .gain v.elem) ((s.chip.calOf e).target.getD (qOctet b .gain v.elem) ((s.chip.calOf e).current b .gain v.elem)) ∧
      (d.calOf e).accepted = (s.chip.calOf e).accepted ∧
      (s.chip.Keeps d fun k => k = ⟨.CAL_REJECT_COUNT, e, 0⟩)) ∧
  (∀ (e : PeNo) (b : Bool) (l m : List (Quantity × Int)) (v : Visit) (s : State), ((s.chip.calOf e).rot b).visit = some v →
      s.chip.visitStays e v = true →
      v.phase = .back →
    Answers (.calVisitPhaseEnd e b l m) s fun d =>
      Counts s.chip d .CAL_VISIT_COUNT e 1 ∧
      (d.calOf e).octets = matchElem (s.chip.calOf e).octets b v.elem m ∧
      (((s.chip.calOf e).rot b).left = [] → ((d.calOf e).rot b).round = false) ∧
      (((s.chip.calOf e).rot b).left = [] → ((s.chip.calOf e).rot b).round = true → ((s.chip.calOf e).rot (!b)).round = false → d.rd .CAL_ROUND_TIME e = (s.chip.root - ((s.chip.calOf e).rot b).from_) / 16000 % 2 ^ Reg.width .CAL_ROUND_TIME) ∧
      (∀ k : Nat, k ≠ e.val → (d.calOf k).still = (s.chip.calOf k).still)) ∧
  (∀ (e : PeNo) (s : State), s.chip.rdBool .CAL_ENABLE = false →
    Answers (.calCorrectionUpdate e) s fun d =>
      d.bare = s.chip.bare ∧
      (s.chip.Keeps d fun _ => False)) ∧
  (∀ (e : PeNo) (s : State), s.chip.rdBool .CAL_ENABLE = true →
    Answers (.calCorrectionUpdate e) s fun d =>
      (d.calOf e).still = ((s.chip.calOf e).update).still ∧
      (∀ k : Nat, k ≠ e.val → (d.calOf k).still = (s.chip.calOf k).still) ∧
      (s.chip.Keeps d fun _ => False)) ∧
  (∀ (e : PeNo) (g : Nat) (t : Tab Nat Nat) (s : State), (s.chip.calOf e).valid = true →
      (s.chip.calOf e).changed = true →
      s.chip.nv.cal.getD e (none, none) = (some ⟨g, t⟩, none) →
    Answers (.calRecordStore e) s fun d =>
      (((d.nv.cal.getD e (none, none)).2.map fun y => y.gen) = some (g + 1)) ∧
      (d.nv.cal.getD e (none, none)).1 = some ⟨g, t⟩ ∧
      (d.calOf e).changed = false ∧
      (∀ k : Nat, k ≠ e.val → d.nv.cal.get? k = s.chip.nv.cal.get? k) ∧
      (s.chip.Keeps d fun _ => False)) ∧
  (∀ (e : PeNo) (s : State), ((s.chip.calOf e).valid = false ∨ (s.chip.calOf e).changed = false) →
    Answers (.calRecordStore e) s fun d =>
      d.bare = s.chip.bare ∧
      (s.chip.Keeps d fun _ => False))

/-- R367 to R373, R376, Table 15-6: POST stages, test results, repairs and marks, slices and on-demand tests. -/
def Obligations.SelfTestRunsAndRecordsItsResults : Prop :=
  (∀ (k : Nat) (s : State), s.chip.bist.post = some k →
      k < 4 →
    Answers (.postStageEnd) s fun d =>
      d.bist.post = some (k + 1) ∧
      d.boot.phase = s.chip.boot.phase) ∧
  (∀ (k : Nat) (s : State), s.chip.bist.post = some k →
      4 ≤ k →
    Answers (.postStageEnd) s fun d =>
      d.bist.post = none ∧
      d.boot.applied = true ∧
      d.boot.phase = .running ∧
      d.rdBit .POST_SUMMARY 0 = true) ∧
  (∀ (t : TestOn) (r l : Reg) (i : Nat) (s : State), s.chip.bist.demand = some (t.code, t.instNo) →
      t.stateReg = some (r, l, i) →
    Answers (.bistTestDone t .terminal []) s fun d =>
      d.bist = { s.chip.bist with demand := none } ∧
      d.rd l i = 0 ∧
      d.rd r i = s.chip.rd r i ∧
      d.rd .BIST_LOG_COUNT = (s.chip.rd .BIST_LOG_COUNT + 1) % 2 ^ 32) ∧
  (∀ (e : PeNo) (n : Nat) (x : BitVec 8) (y : Fin 4) (z : Bool) (s : State), s.chip.bist.demand = some (0x01, Cls.pe.addr e) →
      s.chip.bist.rows.getD (TestOn.coefStore e).key 0 < 32 →
      s.chip.rd .BIST_STATE_PE e = 0 →
    Answers (.bistTestDone (.coefStore e) .terminal [⟨.row n, x, y, z⟩]) s fun d =>
      d.rd .BIST_STATE_PE e = 1 ∧
      d.rd .BIST_LAST_PE e = 3 ∧
      d.bist.rows.getD (TestOn.coefStore e).key 0 = s.chip.bist.rows.getD (TestOn.coefStore e).key 0 + 1 ∧
      d.rd .BIST_LOG_COUNT = (s.chip.rd .BIST_LOG_COUNT + 1) % 2 ^ 32) ∧
  (∀ (h : LaneNo) (x : BitVec 8) (y : Fin 4) (z : Bool) (s : State), s.chip.bist.demand = none →
      s.chip.bist.post = some 0 →
      s.chip.bist.select.testBit 4 = true →
    Answers (.bistTestDone (.hlane h) .terminal [⟨.other, x, y, z⟩]) s fun d =>
      d.rd .BIST_STATE_HLANE h = 2 ∧
      d.rd .BIST_LAST_HLANE h = 1 ∧
      d.rdBit .POST_SUMMARY 2 = true) ∧
  (∀ (t : TestOn) (e : TestEnd) (l : List Finding) (s : State), s.chip.bist.demand = none →
      s.chip.bist.post = none →
      s.chip.boot.timed = true →
    Answers (.bistTestDone t e l) s fun d =>
      d.bare = s.chip.bare ∧
      (s.chip.Keeps d fun _ => False)) ∧
  (∀ (e : PeNo) (s : State), s.chip.mayRunSlice (.store e) = true →
      s.chip.bist.slices.get? (TestOn.coefStore e).key = none →
      s.chip.bist.post = none →
    Answers (.bistSliceStart (.store e)) s fun d =>
      d.bist = { s.chip.bist with slices := s.chip.bist.slices.put (TestOn.coefStore e).key 64, from_ := s.chip.bist.from_.put (TestOn.coefStore e).key s.chip.root } ∧
      d.bare = { s.chip.bare with bist := d.bist } ∧
      (s.chip.Keeps d fun _ => False)) ∧
  (∀ (h : QcNo) (s : State), s.chip.mayRunSlice (.cells h) = true →
      s.chip.bist.slices.get? (TestOn.qdr h).key = none →
      s.chip.bist.post = none →
    Answers (.bistSliceStart (.cells h)) s fun d =>
      d.buf.withdrawn.getD h 0 = s.chip.buf.withdrawn.getD h 0 + min (min 4096 (s.chip.rd .BIST_SLICE_TIME / 16)) (s.chip.chFree h) ∧
      (s.chip.Keeps d fun _ => False)) ∧
  (∀ (t : SliceOn) (s : State), s.chip.mayRunSlice t = false →
    Answers (.bistSliceStart t) s fun d =>
      d.bare = s.chip.bare ∧
      (s.chip.Keeps d fun _ => False)) ∧
  (∀ (t : SliceOn) (n : Nat) (s : State), s.chip.bist.slices.get? t.test.key = some n →
    Answers (.bistSliceEnd t .terminal []) s fun d =>
      d.bist.slices.get? t.test.key = none ∧
      Counts s.chip d .BIST_SLICE_COUNT 0 1) ∧
  (∀ (t : SliceOn) (n : Nat) (x : Fin 5) (s : State), s.chip.bist.slices.get? t.test.key = some n →
    Answers (.bistSliceEnd t (.stopped x) []) s fun d =>
      d.bist.slices.get? t.test.key = none ∧
      Counts s.chip d .BIST_INCOMPLETE_COUNT 0 1 ∧
      (s.chip.Keeps d fun k => k = ⟨.BIST_INCOMPLETE_COUNT, 0, 0⟩)) ∧
  (∀ (v : BitVec 32) (s : State), s.chip.asleep .BIST_REQUEST 0 = false →
      v.toNat ≠ 0 →
      s.chip.demandOk (bits v.toNat 31 24) (bits v.toNat 11 0) = .ok →
      s.chip.bist.demand = none →
    Answers (.bistRequest v) s fun d =>
      d.accepted ∧
      d.bist = { s.chip.bist with demand := some (bits v.toNat 31 24, bits v.toNat 11 0) } ∧
      (bits v.toNat 31 24 ≠ 0x10 → bits v.toNat 31 24 ≠ 0x11 → d.bare = { s.chip.bare with bist := d.bist }) ∧
      (s.chip.Keeps d fun _ => False)) ∧
  (∀ (v : BitVec 32) (s : State), s.chip.asleep .BIST_REQUEST 0 = false →
      v.toNat ≠ 0 →
      s.chip.demandOk (bits v.toNat 31 24) (bits v.toNat 11 0) = .ok →
      s.chip.bist.demand ≠ none →
    Answers (.bistRequest v) s fun d =>
      s.chip.TurnedAway d .busy) ∧
  (∀ (v : BitVec 32) (e : PeNo) (s : State), s.chip.asleep .BIST_REQUEST 0 = false →
      v.toNat = 0x10 * 2 ^ 24 + Cls.pe.addr e →
      (s.chip.port (s.chip.portOf e)).link ≠ .disabled →
    Answers (.bistRequest v) s fun d =>
      s.chip.TurnedAway d .state)

/-- R352, R375, R376, R409, R417, R427: VIN good, RESET_N, and the resets of software and watchdogs. -/
def Obligations.SupplyResetsAndWatchdogsStartTheDevice : Prop :=
  (∀ (b : BootInputs) (s : State), s.chip.boot.vinGood = false →
      s.chip.boot.resetHigh = true →
      b.refFails = 0 →
      b.pllFails = 0 →
      s.chip.cfg.before = none →
    Answers (.vinGoodRise b) s fun d =>
      d.rd .RESET_CAUSE = 0 ∧
      d.pwr.state = .active ∧
      d.pwr.rootOn = true ∧
      d.boot.mapLocked = true ∧
      d.boot.imageKey = s.chip.nv.ownerKey ∧
      (d.boot.phase = .recovery ∨ d.boot.firmware = true) ∧
      d.nv.ownerKey = s.chip.nv.ownerKey) ∧
  (∀ (b : BootInputs) (s : State), s.chip.boot.vinGood = false →
      s.chip.boot.resetHigh = false →
    Answers (.vinGoodRise b) s fun d =>
      d.boot = { s.chip.boot with vinGood := true, phase := .inReset } ∧
      d.bare = { s.chip.bare with boot := d.boot } ∧
      (s.chip.Keeps d fun _ => False)) ∧
  (∀ (s : State), s.chip.boot.vinGood = true →
      s.chip.cfg.before = none →
    Answers (.vinGoodFall) s fun d =>
      d.boot.vinGood = false ∧
      d.boot.phase = .noPower ∧
      d.boot.resetHigh = s.chip.boot.resetHigh ∧
      d.nv = s.chip.nv ∧
      d.pwr = {} ∧
      d.ports = [] ∧
      (∀ r i, d.asleep r i = true)) ∧
  (∀ (s : State), s.chip.boot.vinGood = true →
      s.chip.boot.resetHigh = true →
      s.chip.cfg.before = none →
    Answers (.resetNAssert) s fun d =>
      d.boot.resetHigh = false ∧
      d.boot.phase = .inReset ∧
      d.boot.vinGood = true ∧
      d.nv = s.chip.nv ∧
      d.pwr = {} ∧
      d.ports = [] ∧
      d.queues = []) ∧
  (∀ (b : BootInputs) (s : State), s.chip.boot.vinGood = true →
      s.chip.boot.resetHigh = false →
      b.refFails = 0 →
      b.pllFails = 0 →
      s.chip.cfg.before = none →
    Answers (.resetNRelease b) s fun d =>
      d.boot.resetHigh = true ∧
      d.rd .RESET_CAUSE = 1 ∧
      d.pwr.state = .active ∧
      d.pwr.rootOn = true ∧
      d.boot.mapLocked = true ∧
      d.boot.imageKey = s.chip.nv.ownerKey ∧
      (d.boot.phase = .recovery ∨ d.boot.firmware = true) ∧
      d.nv.ownerKey = s.chip.nv.ownerKey) ∧
  (∀ (b : BootInputs) (s : State), s.chip.boot.vinGood = true →
      s.chip.boot.resetHigh = false →
      b.refFails = 3 →
      s.chip.cfg.before = none →
    Answers (.resetNRelease b) s fun d =>
      d.pwr.state = .wakeFault ∧
      d.pwr.rootOn = false ∧
      d.rd .RESET_CAUSE = 1) ∧
  (∀ (b : BootInputs) (s : State), s.chip.asleep .DEVICE_RESET 0 = false →
      b.refFails = 0 →
      b.pllFails = 0 →
      s.chip.cfg.before = none →
    Answers (.deviceReset 1 b) s fun d =>
      d.accepted ∧
      d.rd .RESET_CAUSE = 4 ∧
      d.pwr.state = .active ∧
      d.pwr.rootOn = true ∧
      d.boot.mapLocked = true ∧
      d.boot.imageKey = s.chip.nv.ownerKey ∧
      (d.boot.phase = .recovery ∨ d.boot.firmware = true) ∧
      d.nv.ownerKey = s.chip.nv.ownerKey) ∧
  (∀ (b : BootInputs) (s : State), s.chip.asleep .DEVICE_RESET 0 = false →
      s.chip.boot.resetDue = false →
    Answers (.deviceReset 0 b) s fun d =>
      d.accepted ∧
      (s.chip.ChangesOnly d fun _ => False)) ∧
  (∀ (b : BootInputs) (s : State), s.chip.inReset = false →
      b.refFails = 0 →
      b.pllFails = 0 →
      s.chip.cfg.before = none →
    Answers (.hwWatchdogReset b) s fun d =>
      d.rd .RESET_CAUSE = 2 ∧
      d.pwr.state = .active ∧
      d.pwr.rootOn = true ∧
      d.boot.mapLocked = true ∧
      d.boot.imageKey = s.chip.nv.ownerKey ∧
      (d.boot.phase = .recovery ∨ d.boot.firmware = true) ∧
      d.nv.ownerKey = s.chip.nv.ownerKey) ∧
  (∀ (x : Fin 4) (l : List PortNo) (b : BootInputs) (s : State), s.chip.inReset = false →
      s.chip.boot.firmware = true →
      s.chip.pwr.restarts = [] →
      (∀ p ∈ l, (s.chip.port p).link = .disabled) →
    Answers (.fwWatchdogExpire x l b) s fun d =>
      d.pwr = { s.chip.pwr with restarts := [(s.chip.root, x.val)] } ∧
      Counts s.chip d .WDT_RESTART_COUNT 0 1 ∧
      (s.chip.Keeps d fun k => k = ⟨.WDT_RESTART_COUNT, 0, 0⟩)) ∧
  (∀ (x : Fin 4) (l : List PortNo) (b : BootInputs) (s : State), s.chip.inReset = false →
      s.chip.boot.firmware = true →
      s.chip.watchdogResets x = true →
      b.refFails = 0 →
      b.pllFails = 0 →
      s.chip.cfg.before = none →
    Answers (.fwWatchdogExpire x l b) s fun d =>
      d.rd .RESET_CAUSE = 3 ∧
      d.pwr.state = .active ∧
      d.pwr.rootOn = true ∧
      d.boot.mapLocked = true ∧
      d.boot.imageKey = s.chip.nv.ownerKey ∧
      (d.boot.phase = .recovery ∨ d.boot.firmware = true) ∧
      d.nv.ownerKey = s.chip.nv.ownerKey)

/-- R383, R386, R387, R390: image slots, owner requests and attestation. -/
def Obligations.ImagesAreWrittenCheckedTriedAndConfirmed : Prop :=
  (∀ (row : Nat) (v : List Octet) (s : State), row < 8192 →
      v.length = 1024 →
      s.chip.asleep .IMAGE_WRITE 0 = false →
      s.chip.boot.verifying = false →
    Answers (.imageWrite row v) s fun d =>
      d.accepted ∧
      (d.nv = (if s.chip.boot.runningB then { s.chip.nv with imageA := { s.chip.nv.imageA with rows := s.chip.nv.imageA.rows.put row (octetsToNat v), code := 8 } } else { s.chip.nv with imageB := { s.chip.nv.imageB with rows := s.chip.nv.imageB.rows.put row (octetsToNat v), code := 8 } })) ∧
      d.boot = { s.chip.boot with updating := true } ∧
      (s.chip.Keeps d fun _ => False)) ∧
  (∀ (row : Nat) (v : List Octet) (s : State), 8192 ≤ row →
    Answers (.imageWrite row v) s fun d =>
      s.chip.TurnedAway d .row) ∧
  (∀ (s : State), s.chip.asleep .IMAGE_ERASE 0 = false →
    Answers (.imageErase 1) s fun d =>
      d.accepted ∧
      (d.nv = (if s.chip.boot.runningB then { s.chip.nv with imageA := {} } else { s.chip.nv with imageB := {} })) ∧
      d.boot = { s.chip.boot with updating := false } ∧
      (s.chip.Keeps d fun _ => False)) ∧
  (∀ (s : State), s.chip.asleep .IMAGE_VERIFY 0 = false →
      s.chip.boot.verifying = false →
    Answers (.imageVerify 1) s fun d =>
      d.accepted ∧
      d.boot = { s.chip.boot with verifying := true } ∧
      d.bare = { s.chip.bare with boot := d.boot } ∧
      (s.chip.Keeps d fun _ => False)) ∧
  (∀ (s : State), s.chip.asleep .IMAGE_VERIFY 0 = false →
      s.chip.boot.verifying = true →
    Answers (.imageVerify 1) s fun d =>
      s.chip.TurnedAway d .busy) ∧
  (∀ (s : State), s.chip.boot.verifying = true →
    Answers (.imageVerifyDone) s fun d =>
      d.otherSlot = { s.chip.otherSlot with code := ({ s.chip.nv with ownerKey := s.chip.boot.imageKey } : Nv).verify s.chip.otherSlot } ∧
      d.runningSlot = s.chip.runningSlot ∧
      d.boot = { s.chip.boot with verifying := false, updating := false } ∧
      (s.chip.Keeps d fun _ => False)) ∧
  (∀ (s : State), s.chip.asleep .IMAGE_SELECT_NEXT 0 = false →
      s.chip.otherSlot.code = 0 →
    Answers (.imageSelectNext 1) s fun d =>
      d.accepted ∧
      d.nv = { s.chip.nv with trialB := some (!s.chip.boot.runningB) } ∧
      d.bare = { s.chip.bare with nv := d.nv } ∧
      (s.chip.Keeps d fun _ => False)) ∧
  (∀ (s : State), s.chip.asleep .IMAGE_SELECT_NEXT 0 = false →
      s.chip.otherSlot.code ≠ 0 →
    Answers (.imageSelectNext 1) s fun d =>
      s.chip.TurnedAway d .state) ∧
  (∀ (s : State), s.chip.asleep .IMAGE_CONFIRM 0 = false →
      s.chip.boot.trialRunning = true →
    Answers (.imageConfirm 1) s fun d =>
      d.accepted ∧
      d.nv = { s.chip.nv with preferB := s.chip.boot.runningB, antiRollback := max s.chip.nv.antiRollback s.chip.runningSlot.svn, revoked := s.chip.nv.revoked ||| BitVec.ofNat 4 s.chip.runningSlot.revoke } ∧
      d.boot = { s.chip.boot with trialRunning := false } ∧
      (s.chip.Keeps d fun _ => False)) ∧
  (∀ (s : State), s.chip.asleep .IMAGE_CONFIRM 0 = false →
      s.chip.boot.trialRunning = false →
    Answers (.imageConfirm 1) s fun d =>
      s.chip.TurnedAway d .state) ∧
  (∀ (s : State),
    let l := s.chip.stagedOctets .OWNER_KEY_STAGE 5277;
      s.chip.asleep .OWNER_KEY_SUBMIT 0 = false →
    Answers (.ownerKeySubmit 5277) s fun d =>
      (d.nv = (if s.chip.nv.requestOk l then s.chip.nv.takeRequest l else s.chip.nv)) ∧
      (d.access = ⟨if s.chip.nv.requestOk l then .ok else .guarded, []⟩) ∧
      (s.chip.Keeps d fun _ => False) ∧
      d.bare = { s.chip.bare with nv := d.nv }) ∧
  (∀ (q : List Octet) (s : State),
    let l := s.chip.stagedOctets .OWNER_POLICY_STAGE 3837;
      s.chip.asleep .OWNER_POLICY_SUBMIT 0 = false →
      s.chip.nv.ownerKey = some q →
      s.chip.nv.policy = none →
    Answers (.ownerPolicySubmit 3837) s fun d =>
      (d.nv = (if policyValid q l then { s.chip.nv with policy := some ⟨l⟩ } else s.chip.nv)) ∧
      (d.access = ⟨if policyValid q l then .ok else .guarded, []⟩) ∧
      (s.chip.Keeps d fun _ => False) ∧
      d.bare = { s.chip.bare with nv := d.nv }) ∧
  (∀ (s : State), s.chip.asleep .OWNER_POLICY_SUBMIT 0 = false →
      s.chip.nv.ownerKey = none →
    Answers (.ownerPolicySubmit 3837) s fun d =>
      s.chip.TurnedAway d .guarded) ∧
  (∀ (v : BitVec 256) (s : State), s.chip.asleep .ATTEST_NONCE 0 = false →
      s.chip.boot.attesting = none →
    Answers (.attestNonce v) s fun d =>
      d.accepted ∧
      d.boot = { s.chip.boot with attesting := some v.toNat } ∧
      d.rdBit .ATTEST_STATUS 0 = false ∧
      d.bare = { s.chip.bare with boot := d.boot } ∧
      (s.chip.Keeps d fun k => k = ⟨.ATTEST_STATUS, 0, 0⟩)) ∧
  (∀ (v : BitVec 256) (s : State), s.chip.asleep .ATTEST_NONCE 0 = false →
      s.chip.boot.attesting ≠ none →
    Answers (.attestNonce v) s fun d =>
      s.chip.TurnedAway d .busy) ∧
  (∀ (n : Nat) (s : State), s.chip.boot.attesting = some n →
    Answers (.attestReportDone) s fun d =>
      d.boot = { s.chip.boot with attesting := none } ∧
      d.rdBit .ATTEST_STATUS 0 = true ∧
      (∀ k : Fin 4, d.rd .ATTEST_REPORT 0 k = octNat (s.chip.reportBody n ++ (Config.mldsaSign (signedMessage "OVF-S512 attest" (s.chip.reportBody n))).take 3309) (1024 * k.val) 1024 % 2 ^ 8192) ∧
      d.bare = { s.chip.bare with boot := d.boot } ∧
      (s.chip.Keeps d fun k => k.reg = .ATTEST_REPORT ∨ k.reg = .ATTEST_STATUS)) ∧
  (∀ (s : State), s.chip.boot.attesting = none →
    Answers (.attestReportDone) s fun d =>
      d.bare = s.chip.bare ∧
      (s.chip.Keeps d fun _ => False))

/-- R391 to R395: the candidate, its check, commit, confirmation, revert and rollback. -/
def Obligations.ConfigurationsAreStagedCheckedCommittedAndReverted : Prop :=
  (∀ (row : Nat) (v : List Octet) (s : State), row < 2048 →
      v.length = 1024 →
      s.chip.asleep .CFG_CANDIDATE 0 = false →
      s.chip.commitArmed = false →
    Answers (.cfgCandidateWrite row v) s fun d =>
      d.accepted ∧
      d.nv.cfg.candidate = { rows := some (s.chip.nv.cfg.candidate.area.set row (octetsToNat v) 0), confirmed := false } ∧
      d.cfg.staged = none ∧
      d.cfg.checking = false ∧
      d.rd .CFG_CHECK_RESULT = 0 ∧
      d.nv.cfg.active = s.chip.nv.cfg.active ∧
      d.nv.cfg.previous = s.chip.nv.cfg.previous ∧
      (s.chip.Keeps d fun k => k = ⟨.CFG_CHECK_RESULT, 0, 0⟩)) ∧
  (∀ (row : Nat) (v : List Octet) (s : State), row < 2048 →
      v.length = 1024 →
      s.chip.asleep .CFG_CANDIDATE 0 = false →
      s.chip.commitArmed = true →
    Answers (.cfgCandidateWrite row v) s fun d =>
      s.chip.TurnedAway d .state) ∧
  (∀ (s : State), s.chip.asleep .CFG_CAPTURE 0 = false →
      s.chip.commitArmed = false →
    Answers (.cfgCapture 1) s fun d =>
      d.accepted ∧
      d.nv.cfg.candidate = { rows := some (areaRows 0 2048 s.chip.captureImage.1), confirmed := false } ∧
      d.cfg.staged = none ∧
      d.cfg.checking = false ∧
      d.rd .CFG_CHECK_RESULT = 0 ∧
      d.nv.cfg.active = s.chip.nv.cfg.active ∧
      d.nv.cfg.previous = s.chip.nv.cfg.previous ∧
      (s.chip.Keeps d fun k => k = ⟨.CFG_CHECK_RESULT, 0, 0⟩)) ∧
  (∀ (s : State), s.chip.asleep .CFG_LOAD_FACTORY 0 = false →
      s.chip.commitArmed = false →
    Answers (.cfgLoadFactory 1) s fun d =>
      d.accepted ∧
      d.nv.cfg.candidate = { rows := none, confirmed := false } ∧
      d.cfg.staged = none ∧
      d.cfg.checking = false ∧
      d.rd .CFG_CHECK_RESULT = 0 ∧
      d.nv.cfg.active = s.chip.nv.cfg.active ∧
      d.nv.cfg.previous = s.chip.nv.cfg.previous ∧
      (s.chip.Keeps d fun k => k = ⟨.CFG_CHECK_RESULT, 0, 0⟩)) ∧
  (∀ (s : State), s.chip.asleep .CFG_CHECK 0 = false →
      s.chip.commitArmed = false →
      s.chip.cfg.checking = false →
    Answers (.cfgCheck 1) s fun d =>
      d.accepted ∧
      d.cfg = { s.chip.cfg with checking := true, staged := none } ∧
      d.rd .CFG_CHECK_RESULT = 1 ∧
      d.nv = s.chip.nv ∧
      (s.chip.Keeps d fun k => k = ⟨.CFG_CHECK_RESULT, 0, 0⟩)) ∧
  (∀ (s : State), s.chip.asleep .CFG_CHECK 0 = false →
      s.chip.commitArmed = false →
      s.chip.cfg.checking = true →
    Answers (.cfgCheck 1) s fun d =>
      s.chip.TurnedAway d .busy) ∧
  (∀ (s : State), s.chip.cfg.checking = true →
      s.chip.nv.cfg.candidate.records = none →
    Answers (.cfgCheckDone) s fun d =>
      d.cfg = { s.chip.cfg with checking := false } ∧
      d.rd .CFG_CHECK_RESULT = 3 ∧
      d.rd .CFG_COMMIT_REASON = 1 ∧
      d.rd .CFG_COMMIT_DETAIL = 0 ∧
      (s.chip.Keeps d fun k => k = ⟨.CFG_CHECK_RESULT, 0, 0⟩ ∨ k = ⟨.CFG_COMMIT_REASON, 0, 0⟩ ∨ k = ⟨.CFG_COMMIT_DETAIL, 0, 0⟩)) ∧
  (∀ (s : State), s.chip.cfg.checking = true →
    Answers (.cfgCheckDone) s fun d =>
      d.cfg.checking = false ∧
      (∀ l, ({ s.chip with cfg := { s.chip.cfg with checking := false } } : Chip).judgeSlot s.chip.nv.cfg.candidate = .inr l → d.cfg.staged = some l ∧ d.rd .CFG_CHECK_RESULT = 2 ∧ d.rd .CFG_COMMIT_REASON = 0) ∧
      d.nv = s.chip.nv ∧
      (s.chip.Keeps d fun k => k = ⟨.CFG_CHECK_RESULT, 0, 0⟩ ∨ k = ⟨.CFG_COMMIT_REASON, 0, 0⟩ ∨ k = ⟨.CFG_COMMIT_DETAIL, 0, 0⟩)) ∧
  (∀ (s : State), s.chip.asleep .CFG_COMMIT 0 = false →
      s.chip.commitArmed = false →
      s.chip.cfg.deadline = none →
      s.chip.cfg.staged = none →
    Answers (.cfgCommit 1) s fun d =>
      d.access = ⟨.commitRefused, []⟩ ∧
      d.rd .CFG_COMMIT_REASON = 9 ∧
      d.rd .CFG_COMMIT_DETAIL = 0 ∧
      d.bare = s.chip.bare ∧
      (s.chip.Keeps d fun k => k = ⟨.CFG_COMMIT_REASON, 0, 0⟩ ∨ k = ⟨.CFG_COMMIT_DETAIL, 0, 0⟩ ∨ k = ⟨.BUF_COMMIT_REASON, 0, 0⟩)) ∧
  (∀ (n : Nat) (s : State), s.chip.asleep .CFG_COMMIT 0 = false →
      s.chip.commitArmed = false →
      s.chip.cfg.deadline = some n →
    Answers (.cfgCommit 1) s fun d =>
      s.chip.TurnedAway d .state) ∧
  (∀ (l : List (Key × Nat)) (s : State), s.chip.asleep .CFG_COMMIT 0 = false →
      s.chip.commitArmed = false →
      s.chip.cfg.deadline = none →
      s.chip.cfg.staged = some l →
      (s.chip.withValues l).bufReason = 0 →
    Answers (.cfgCommit 1) s fun d =>
      d.accepted ∧
      d.nv.cfg = { active := { s.chip.nv.cfg.candidate with confirmed := false }, previous := s.chip.nv.cfg.active, candidate := s.chip.nv.cfg.previous } ∧
      d.cfg.staged = none ∧
      d.cfg.deadline = some (d.tb + s.chip.rd .CFG_CONFIRM_TIMEOUT * tbSecond) ∧
      d.rd .CFG_CHECK_RESULT = 0) ∧
  (∀ (v : BitVec 32) (n : Nat) (s : State), s.chip.asleep .CFG_CONFIRM 0 = false →
      s.chip.cfg.deadline = some n →
      s.chip.cfg.upsett = none →
      v.toNat = s.chip.nv.cfg.active.version →
    Answers (.cfgConfirm v) s fun d =>
      d.accepted ∧
      d.cfg = { s.chip.cfg with deadline := none } ∧
      d.nv.cfg = { s.chip.nv.cfg with active := { s.chip.nv.cfg.active with confirmed := true } } ∧
      (s.chip.Keeps d fun _ => False)) ∧
  (∀ (v : BitVec 32) (s : State), s.chip.asleep .CFG_CONFIRM 0 = false →
      (s.chip.cfg.deadline = none ∨ v.toNat ≠ s.chip.nv.cfg.active.version) →
    Answers (.cfgConfirm v) s fun d =>
      s.chip.TurnedAway d .state) ∧
  (∀ (n : Nat) (s : State), s.chip.cfg.deadline = some n →
      n ≤ s.chip.tb →
    Answers (.cfgConfirmDeadline) s fun d =>
      d.nv.cfg = { s.chip.nv.cfg with active := s.chip.nv.cfg.previous, candidate := s.chip.nv.cfg.active } ∧
      d.cfg.deadline = none ∧
      d.cfg.staged = none ∧
      d.rdBit .CFG_STATE 3 = true ∧
      Counts s.chip d .CFG_REVERT_COUNT 0 1) ∧
  (∀ (n : Nat) (s : State), s.chip.cfg.deadline = some n →
      s.chip.tb < n →
    Answers (.cfgConfirmDeadline) s fun d =>
      d.bare = s.chip.bare ∧
      (s.chip.Keeps d fun _ => False)) ∧
  (∀ (n : Nat) (s : State), s.chip.asleep .CFG_ROLLBACK 0 = false →
      s.chip.cfg.deadline = some n →
    Answers (.cfgRollback 1) s fun d =>
      d.accepted ∧
      d.nv.cfg = { s.chip.nv.cfg with active := s.chip.nv.cfg.previous, candidate := s.chip.nv.cfg.active } ∧
      d.cfg.deadline = none ∧
      d.rdBit .CFG_STATE 4 = true)

/-- R304, R305, R7, R8: the address of an object in an existing view names that object, and nothing else names it. -/
def Obligations.AddressesNameTheirObjects : Prop :=
  (∀ (w : Nat) (r : Reg) (i : Nat), i < r.info.cls.count → w ≤ 3 → (w = 0 ∨ r.hasViews = true) →
    addrTarget (addrOf w r i) = some (w, r, i)) ∧
  (∀ (w : Nat) (r : Reg) (i : Nat), i < r.info.cls.count → 1 ≤ w → w ≤ 3 → r.hasViews = false →
    addrTarget (addrOf w r i) = none) ∧
  (∀ (a w : Nat) (r : Reg) (i : Nat), addrTarget a = some (w, r, i) →
    a = addrOf w r i ∧ i < r.info.cls.count ∧ w ≤ 3)

/-- R306: a row outside the stated range gives `ABORT_ROW`, for a table and for any other object. -/
def Obligations.RowsOutsideTheRangeAreRefused : Prop :=
  ∀ (a : BitVec 40) (row : BitVec 24) (w : Nat) (r : Reg) (i : Nat) (s : State), addrTarget a.toNat = some (w, r, i) →
    (if r.info.rows = 0 then row.toNat ≠ 0 else r.info.rows ≤ row.toNat) →
    Answers (.read a row false) s (fun d => s.chip.TurnedAway d .row) ∧
    (r.counts = true → Answers (.read a row true) s fun d => s.chip.TurnedAway d .row) ∧
    Answers (.describe a row) s (fun d => s.chip.TurnedAway d .row) ∧
    (∀ (v : List Octet) (pa : Path), Answers (.registerWrite a row v pa) s fun d => s.chip.TurnedAway d .row) ∧
    (∀ (v : List Octet) (pa : Path) (x : BitVec 8), Answers (.write a row v pa x) s fun d => s.chip.TurnedAway d .row)

/-- R311: views 1, 2 and 3 of a status object exist, but take no write and give no read. -/
def Obligations.StatusObjectsTakeOnlyViewZero : Prop :=
  (∀ (w : Nat) (r : Reg) (i : Nat), r.isStatus = true → w ≤ 3 → i < r.info.cls.count →
    addrTarget (addrOf w r i) = some (w, r, i)) ∧
  (∀ (a : BitVec 40) (w : Nat) (r : Reg) (i : Nat) (s : State), addrTarget a.toNat = some (w, r, i) → r.isStatus = true →
    (w ≠ 0 → Answers (.read a 0 false) s fun d => s.chip.TurnedAway d .writeOnly) ∧
    (∀ (v : List Octet) (pa : Path) (x : BitVec 8), s.chip.permits pa (r.info.cls.addr i) r.info.idx r.info.sub = true →
      (w ≠ 0 → Answers (.write a 0 v pa x) s fun d => s.chip.TurnedAway d .wrongType) ∧
      (w ≠ 0 → Answers (.registerWrite a 0 v pa) s fun d => s.chip.TurnedAway d .wrongType) ∧
      (w = 0 → v.length = 8 → s.chip.asleep r i = false → statusSeq (octetsToNat v) = statusSeq (s.chip.rd r i) →
        Answers (.write a 0 v pa x) s fun d => d.accepted)))

/-- R385: no protection map keeps SPI from the image slots and the reset. -/
def Obligations.SpiAlwaysReachesTheImageObjects : Prop :=
  ∀ (a : BitVec 40) (row : BitVec 24) (w : Nat) (r : Reg) (i : Nat) (v : List Octet) (x : BitVec 8) (s : State),
    addrTarget a.toNat = some (w, r, i) →
    r ∈ [Reg.IMAGE_WRITE, .IMAGE_ERASE, .IMAGE_VERIFY, .IMAGE_SELECT_NEXT, .DEVICE_RESET] →
    Answers (.write a row v .spi x) s (fun d => d.access.abort ≠ .guarded) ∧
    Answers (.registerWrite a row v .spi) s fun d => d.access.abort ≠ .guarded

/-- R399, R401, R402, R404, R405, shown on the supply's WARNING: status, rate limiter, drop threshold and ring. -/
def Obligations.EventsReachStatusLimiterAndRing : Prop :=
  (∀ (x : BitVec 16) (y z : BitVec 32) (s : State), x.toNat < 10800 →
      s.chip.rdBit .MON_STATUS 0 = false →
      s.chip.ev.raised = [] →
      s.chip.ev.windows = [] →
      s.chip.rd .EV_RING_MODE = 0 →
      s.chip.evFill < 4032 →
      s.chip.rd .WALE_EVENT_DEST = 0 →
    Answers (.vinMonitor x y z) s fun d =>
      d.rd .EV_STATUS_DEV = ((bits (s.chip.rd .EV_STATUS_DEV) 63 48 + 1) % 65536 * 2 ^ 48 + (s.chip.rd .EV_STATUS_DEV % 2 ^ 48 ||| (2 ^ 46 ||| 2 ^ (EvName.vinLow.group - 1)))) % 2 ^ 64 ∧
      d.ev.ring.get? (s.chip.rd .EV_WRITE_COUNT % 4096) = some ({ seq := s.chip.ev.seq, time := s.chip.now96, sev := EvName.vinLow.sev, coalesced := false, timeValid := s.chip.rdBool .TIME_VALID, inst := 0, code := EvName.vinLow.code, data := x.toNat, count := 1, last := 0, src := 0 } : EvRec) ∧
      d.rd .EV_WRITE_COUNT = (s.chip.rd .EV_WRITE_COUNT + 1) % 2 ^ 64 ∧
      d.ev.seq = (s.chip.ev.seq + 1) % 2 ^ 32 ∧
      d.ev.windows = [{ inst := 0, ev := .vinLow }]) ∧
  (∀ (x : BitVec 16) (y z : BitVec 32) (s : State), x.toNat < 10800 →
      s.chip.rdBit .MON_STATUS 0 = false →
      s.chip.ev.raised = [] →
      s.chip.ev.windows = [{ inst := 0, ev := .vinLow }] →
    Answers (.vinMonitor x y z) s fun d =>
      d.rd .EV_STATUS_DEV = ((bits (s.chip.rd .EV_STATUS_DEV) 63 48 + 1) % 65536 * 2 ^ 48 + (s.chip.rd .EV_STATUS_DEV % 2 ^ 48 ||| (2 ^ 46 ||| 2 ^ (EvName.vinLow.group - 1)))) % 2 ^ 64 ∧
      d.ev.ring = s.chip.ev.ring ∧
      d.ev.seq = s.chip.ev.seq ∧
      Counts s.chip d .EV_COALESCED_COUNT 0 1 ∧
      d.ev.windows = [{ inst := 0, ev := .vinLow, folded := 1, first := s.chip.tb, firstValid := s.chip.rdBool .TIME_VALID, firstData := x.toNat, last := s.chip.tb }]) ∧
  (∀ (x : BitVec 16) (y z : BitVec 32) (s : State), x.toNat < 10800 →
      s.chip.rdBit .MON_STATUS 0 = false →
      s.chip.ev.raised = [] →
      s.chip.ev.windows = [] →
      s.chip.rd .EV_RING_MODE = 0 →
      4032 ≤ s.chip.evFill →
    Answers (.vinMonitor x y z) s fun d =>
      d.rd .EV_STATUS_DEV = ((bits (s.chip.rd .EV_STATUS_DEV) 63 48 + 1) % 65536 * 2 ^ 48 + (s.chip.rd .EV_STATUS_DEV % 2 ^ 48 ||| (2 ^ 46 ||| 2 ^ (EvName.vinLow.group - 1)))) % 2 ^ 64 ∧
      d.ev.ring = s.chip.ev.ring ∧
      d.ev.seq = s.chip.ev.seq ∧
      d.rd .EV_DROP 0 1 = (s.chip.rd .EV_DROP 0 1 + 1) % 2 ^ 32)

/-- Frames of the commands of links, lanes, cancellers, low-power idle and diagnostics: what each may change, and that
nothing else changes. -/
def Obligations.LineCommandFrames : Prop :=
  (∀ (v : PeNo), Frames (.ancPassStart v) [.anc] []) ∧
  (∀ (v : PeNo) (ranked : List Candidate), Frames (.ancPassEnd v ranked) [.pes, .anc] 
    [.ANC_DROP_COUNT, .ANC_MAP_STATUS, .ANC_MAP_VERSION, .ANC_PASS_COUNT]) ∧
  (∀ (v : PeNo) (slot : Fin 8) (x : Int), Frames (.probationEnd v slot x) [.pes, .anc] 
    [.ANC_ADMIT_COUNT, .ANC_DROP_COUNT, .ANC_MAP_STATUS, .ANC_MAP_VERSION]) ∧
  (∀ (v : PeNo) (slot : Fin 8), Frames (.frozenThaw v slot) [.anc] [.ANC_ADMIT_COUNT]) ∧
  (∀ (v : PeNo) (slot : Fin 8), Frames (.ancHoldExpire v slot) [.pes, .anc] 
    [.ANC_DROP_COUNT, .ANC_MAP_STATUS, .ANC_MAP_VERSION]) ∧
  (Frames .weaveMapCopyWrite [.nv] [.ANC_MAP_STATUS]) ∧
  (∀ (v : PeNo) (row : Nat) (value : BitVec 64), Frames (.ancSlotWrite v row value) [.pes, .anc] 
    [.ANC_DROP_COUNT, .ANC_MAP_STATUS, .ANC_MAP_VERSION]) ∧
  (∀ (p : PortNo) (value : BitVec 8), Frames (.ancEnableWrite p value) [.pes, .anc] 
    [.ANC_DROP_COUNT, .ANC_ENABLE, .ANC_MAP_STATUS, .ANC_MAP_VERSION]) ∧
  (∀ (value : BitVec 8), Frames (.ancMapClear value) [.pes, .anc, .nv] [.ANC_DROP_COUNT, .ANC_MAP_STATUS, .ANC_MAP_VERSION]) ∧
  (∀ (value : BitVec 8), Frames (.ancMapPersistWrite value) [.nv] [.ANC_MAP_PERSIST, .ANC_MAP_STATUS]) ∧
  (∀ (e : PeNo) (decoded : BitVec 2048) (iterations : Nat) (corrected : Nat), Frames (.receiveCodeword e decoded iterations corrected) [.pes, .buf] 
    [.BITS_CORRECTED, .BUF_MISS_STATUS, .BUF_STATUS, .CW_AUXCRC_FAIL, .CW_CORRECTED, .CW_COUNT, .CW_UNCORRECTABLE,
     .LDPC_ITER_HIST, .MGMT_DISCARD, .PE_LANE_STATUS, .QC_CE_COUNT, .QC_REPLACED_BY, .QC_STATE, .REALIGN_COUNT,
     .SVC_BUF_STATE]) ∧
  (∀ (e : PeNo) (pick : BitVec 8), Frames (.uncorrectableRun e pick) [.held, .ports, .pes, .anc, .diag, .host, .time, .sched, .queues] 
    [.ANC_DISCARD_COUNT, .DOWNSHIFT_CEILING, .FAST_FAIL_COUNT, .LINK_DOWN_CAUSE, .LINK_DOWN_COUNT, .LPI_NEXT_WAKE,
     .LPI_WAKE_OTHER_COUNT, .LPI_WAKE_PARTNER_COUNT, .LPI_WAKE_TIMED_COUNT, .LQ_STATUS, .PE_COEF_FREEZE,
     .PE_PRECODER_ABANDONED, .PE_STORE_STATUS, .PFC_STATUS, .Q_COUNTERS, .ROOT_STATUS, .RX_FIFO_DROP, .TRAIN_FAIL_COUNT]) ∧
  (∀ (e : PeNo) (pick : BitVec 8), Frames (.auxcrcLimitExceeded e pick) [.held, .ports, .pes, .anc, .diag, .host, .time, .sched, .queues] 
    [.ANC_DISCARD_COUNT, .DOWNSHIFT_CEILING, .FAST_FAIL_COUNT, .LINK_DOWN_CAUSE, .LINK_DOWN_COUNT, .LPI_NEXT_WAKE,
     .LPI_WAKE_OTHER_COUNT, .LPI_WAKE_PARTNER_COUNT, .LPI_WAKE_TIMED_COUNT, .LQ_STATUS, .PE_COEF_FREEZE,
     .PE_PRECODER_ABANDONED, .PE_STORE_STATUS, .PFC_STATUS, .Q_COUNTERS, .ROOT_STATUS, .RX_FIFO_DROP, .TRAIN_FAIL_COUNT]) ∧
  (∀ (e : PeNo) (m : WindowMeas) (pick : BitVec 8), Frames (.marginWindowEnd e m pick) [.held, .ports, .pes, .anc, .diag, .host, .time, .sched, .queues] 
    [.ANC_DISCARD_COUNT, .ANC_GAIN, .DOWNSHIFT_CEILING, .FAST_FAIL_COUNT, .LINK_DOWN_CAUSE, .LINK_DOWN_COUNT,
     .LOW_MARGIN_TIME, .LPI_NEXT_WAKE, .LPI_STATUS, .LPI_WAKE_OTHER_COUNT, .LPI_WAKE_PARTNER_COUNT, .LPI_WAKE_TIMED_COUNT,
     .LQ_STATUS, .PE_COEF_FREEZE, .PE_ECHO_RESIDUAL, .PE_FREQ_OFFSET, .PE_LDPC_ITER_MEAN, .PE_MARGIN, .PE_MARGIN_MAX,
     .PE_MARGIN_MIN, .PE_PGA_GAIN, .PE_PRECODER_ABANDONED, .PE_RX_SKEW, .PE_SNR, .PE_STORE_STATUS, .PE_TIMING_PHASE,
     .PE_TRAIN_PHASE, .PFC_STATUS, .Q_COUNTERS, .ROOT_STATUS, .RX_FIFO_DROP, .SKEW_SPAN, .SKEW_SPAN_MAX, .TRAIN_FAIL_COUNT]) ∧
  (∀ (e : PeNo) (msg : BitVec 128) (pick : BitVec 8), Frames (.mcPairDropReq e msg pick) [.held, .ports, .pes, .anc, .diag, .host, .time, .sched, .queues] 
    [.DOWNSHIFT_CEILING, .FAST_FAIL_COUNT, .LINK_DOWN_CAUSE, .LINK_DOWN_COUNT, .LPI_NEXT_WAKE, .LQ_STATUS, .PE_COEF_FREEZE,
     .PE_PRECODER_ABANDONED, .PE_STORE_STATUS, .PFC_STATUS, .Q_COUNTERS, .ROOT_STATUS, .RX_FIFO_DROP, .TRAIN_FAIL_COUNT]) ∧
  (∀ (e : PeNo) (msg : BitVec 128), Frames (.mcPairDropAck e msg) [.held, .ports, .pes, .anc, .diag, .host, .time, .sched, .queues] 
    [.DOWNSHIFT_CEILING, .FAST_FAIL_COUNT, .LINK_DOWN_CAUSE, .LINK_DOWN_COUNT, .LPI_NEXT_WAKE, .LQ_STATUS, .PE_COEF_FREEZE,
     .PE_PRECODER_ABANDONED, .PE_STORE_STATUS, .PFC_STATUS, .Q_COUNTERS, .ROOT_STATUS, .RX_FIFO_DROP, .TRAIN_FAIL_COUNT]) ∧
  (∀ (p : PortNo) (transmit : Bool), Frames (.pairDropSwitch p transmit) [.held, .ports, .pes, .anc, .diag, .host, .time, .sched, .queues] 
    [.DOWNSHIFT_CEILING, .FAST_FAIL_COUNT, .LINK_DOWN_CAUSE, .LINK_DOWN_COUNT, .LPI_NEXT_WAKE, .LQ_STATUS, .PE_COEF_FREEZE,
     .PE_LANE_STATUS, .PE_PRECODER_ABANDONED, .PE_RX_LANE, .PE_STORE_STATUS, .PE_TRAIN_STATUS, .PFC_STATUS, .Q_COUNTERS,
     .ROOT_STATUS, .RX_FIFO_DROP, .TRAIN_FAIL_COUNT]) ∧
  (∀ (e : PeNo) (msg : BitVec 128), Frames (.mcLaneStatus e msg) [.pes] []) ∧
  (∀ (e : PeNo) (msg : BitVec 128), Frames (.mcPrecoder e msg) [.pes] []) ∧
  (∀ (e : PeNo) (taps : List (BitVec 16)) (pick : BitVec 8), Frames (.precoderUpdateStart e taps pick) [.pes] []) ∧
  (∀ (e : PeNo) (transmitter : Bool), Frames (.precoderSwitch e transmitter) [.draws, .pes] 
    [.PE_PRECODER_ABANDONED, .PE_PRECODER_APPLIED]) ∧
  (∀ (e : PeNo) (row : Fin 2048) (found : RowFound), Frames (.storeRefresh e row found) [.ports, .pes, .anc, .queues, .buf] 
    [.ANC_DISCARD_COUNT, .BUF_MISS_STATUS, .BUF_STATUS, .LPI_NEXT_WAKE, .LPI_STATUS, .LPI_WAKE_OTHER_COUNT,
     .LPI_WAKE_PARTNER_COUNT, .LPI_WAKE_TIMED_COUNT, .PE_STORE_DED_COUNT, .PE_STORE_SEC_COUNT, .PE_STORE_STATUS,
     .PE_TRAIN_STATUS, .QC_CE_COUNT, .QC_REPLACED_BY, .QC_STATE, .SVC_BUF_STATE]) ∧
  (∀ (t : TileNo), Frames (.refreshSlowReturn t) [] [.PE_STORE_STATUS]) ∧
  (∀ (e : PeNo) (words : List (BitVec 13 × BitVec 16)), Frames (.coefWriteback e words) [.pes] []) ∧
  (∀ (e : PeNo) (v : BitVec 8), Frames (.peCoefFreezeWrite e v) [.pes] [.PE_COEF_FREEZE]) ∧
  (∀ (e : PeNo), Frames (.coefFreezeExpire e) [.pes] [.PE_COEF_FREEZE]) ∧
  (∀ (e : PeNo), Frames (.captureEqualised e) [.pes] []) ∧
  (∀ (e : PeNo), Frames (.captureRaw e) [.pes] []) ∧
  (∀ (e : PeNo) (samples : List (BitVec 16)), Frames (.captureDone e samples) [.pes] [.PE_CAPTURE]) ∧
  (∀ (p : PortNo) (pg : BasePage), Frames (.basePagesExchanged p pg) [.held, .pwr, .ports, .pes, .anc, .diag, .host, .time, .sched, .queues] 
    [.ANC_DISCARD_COUNT, .AN_PARTNER_ABILITY, .AN_STATUS, .FAST_COUNT, .FAST_FAIL_COUNT, .LINK_DOWN_CAUSE, .LINK_DOWN_COUNT,
     .LPI_NEXT_WAKE, .LQ_STATUS, .MS_RESULT, .PE_COEF_FREEZE, .PE_LANE_STATUS, .PE_PRECODER_ABANDONED, .PE_STORE_STATUS,
     .PE_TRAIN_PHASE, .PE_TRAIN_STATUS, .PFC_STATUS, .Q_COUNTERS, .ROOT_STATUS, .RX_FIFO_DROP, .TRAIN_CLASS, .TRAIN_COUNT,
     .TRAIN_SOURCE]) ∧
  (∀ (p : PortNo) (np : NextPages), Frames (.nextPagesDone p np) [.held, .pwr, .ports, .pes, .anc, .diag, .host, .time, .sched, .queues] 
    [.ANC_DISCARD_COUNT, .AN_PARTNER_ABILITY, .AN_PARTNER_WA, .AN_STATUS, .FAST_COUNT, .FAST_FAIL_COUNT, .LINK_DOWN_CAUSE,
     .LINK_DOWN_COUNT, .LPI_NEXT_WAKE, .LQ_STATUS, .MS_RESULT, .PE_COEF_FREEZE, .PE_LANE_STATUS, .PE_PRECODER_ABANDONED,
     .PE_STORE_STATUS, .PE_TRAIN_PHASE, .PE_TRAIN_STATUS, .PFC_STATUS, .Q_COUNTERS, .ROOT_STATUS, .RX_FIFO_DROP,
     .TRAIN_CLASS, .TRAIN_COUNT, .TRAIN_SOURCE]) ∧
  (∀ (p : PortNo), Frames (.flpDetected p) [.ports] [.AN_STATUS]) ∧
  (∀ (p : PortNo), Frames (.parallelDetect p) [.held, .pwr, .ports, .pes, .anc, .diag, .host, .time, .sched, .queues] 
    [.ANC_DISCARD_COUNT, .AN_PARTNER_ABILITY, .AN_STATUS, .FAST_COUNT, .FAST_FAIL_COUNT, .LINK_DOWN_CAUSE, .LINK_DOWN_COUNT,
     .LPI_NEXT_WAKE, .LQ_STATUS, .MS_RESULT, .PE_COEF_FREEZE, .PE_LANE_STATUS, .PE_PRECODER_ABANDONED, .PE_STORE_STATUS,
     .PE_TRAIN_PHASE, .PE_TRAIN_STATUS, .PFC_STATUS, .Q_COUNTERS, .ROOT_STATUS, .RX_FIFO_DROP, .TRAIN_CLASS, .TRAIN_COUNT,
     .TRAIN_SOURCE]) ∧
  (∀ (p : PortNo) (r : T0Probe), Frames (.t0TimerEnd p r) [.held, .ports, .pes, .anc, .diag, .host, .time, .sched, .queues, .nv] 
    [.ANC_DISCARD_COUNT, .CABLE_FINGERPRINT, .DOWNSHIFT_CEILING, .FAST_FAIL_COUNT, .LINK_DOWN_CAUSE, .LINK_DOWN_COUNT,
     .LPI_NEXT_WAKE, .LQ_STATUS, .PE_COEF_FREEZE, .PE_PRECODER_ABANDONED, .PE_STORE_STATUS, .PE_TRAIN_PHASE,
     .PE_TRAIN_STATUS, .PFC_STATUS, .Q_COUNTERS, .ROOT_STATUS, .RX_FIFO_DROP, .TDR_FAULT, .TDR_FAULT_DIST, .TDR_NOISE,
     .TDR_RESULT, .TDR_STATUS, .TRAIN_CLASS, .TRAIN_FAIL_COUNT, .TRAIN_SOURCE]) ∧
  (∀ (p : PortNo) (r : T1Result), Frames (.t1Converged p r) [.draws, .ports, .pes] 
    [.PE_FREQ_OFFSET, .PE_TRAIN_PHASE, .PE_TRAIN_STATUS]) ∧
  (∀ (p : PortNo) (conv : BitVec 4) (r : T1Result), Frames (.t1Timeout p conv r) [.held, .draws, .ports, .pes, .anc, .diag, .host, .time, .sched, .queues] 
    [.DOWNSHIFT_CEILING, .FAST_FAIL_COUNT, .LINK_DOWN_CAUSE, .LINK_DOWN_COUNT, .LPI_NEXT_WAKE, .LQ_STATUS, .PE_COEF_FREEZE,
     .PE_FREQ_OFFSET, .PE_PRECODER_ABANDONED, .PE_STORE_STATUS, .PE_TRAIN_PHASE, .PE_TRAIN_STATUS, .PFC_STATUS, .Q_COUNTERS,
     .ROOT_STATUS, .RX_FIFO_DROP, .TRAIN_FAIL_COUNT]) ∧
  (∀ (e : PeNo) (a : BitVec 160) (b : BitVec 160) (d : BitVec 160), Frames (.infofieldReceived e a b d) [.held, .draws, .ports, .pes, .anc, .diag, .host, .time, .sched, .queues] 
    [.DOWNSHIFT_CEILING, .FAST_FAIL_COUNT, .LINK_DOWN_CAUSE, .LINK_DOWN_COUNT, .LPI_NEXT_WAKE, .LQ_STATUS, .PE_COEF_FREEZE,
     .PE_LANE_STATUS, .PE_PRECODER_ABANDONED, .PE_RX_LANE, .PE_RX_SCR_SEED, .PE_STORE_STATUS, .PE_TRAIN_PHASE,
     .PE_TRAIN_STATUS, .PFC_STATUS, .Q_COUNTERS, .ROOT_STATUS, .RX_FIFO_DROP, .TRAIN_FAIL_COUNT]) ∧
  (∀ (p : PortNo), Frames (.t2Timeout p) [.held, .ports, .pes, .anc, .diag, .host, .time, .sched, .queues] 
    [.DOWNSHIFT_CEILING, .FAST_FAIL_COUNT, .LINK_DOWN_CAUSE, .LINK_DOWN_COUNT, .LPI_NEXT_WAKE, .LQ_STATUS, .PE_COEF_FREEZE,
     .PE_PRECODER_ABANDONED, .PE_STORE_STATUS, .PFC_STATUS, .Q_COUNTERS, .ROOT_STATUS, .RX_FIFO_DROP, .TRAIN_FAIL_COUNT]) ∧
  (∀ (p : PortNo), Frames (.countdownEnd p) [.ports, .pes, .sched] []) ∧
  (∀ (p : PortNo) (pick : BitVec 8), Frames (.t3VerifyPass p pick) [.held, .ports, .pes, .anc, .diag, .host, .time, .sched, .queues, .nv] 
    [.ANC_DISCARD_COUNT, .DOWNSHIFT_CEILING, .FAST_FAIL_COUNT, .LINK_DOWN_CAUSE, .LINK_DOWN_COUNT, .LINK_EPOCH,
     .LPI_NEXT_WAKE, .LPI_STATUS, .LQ_STATUS, .MM_STATUS, .PE_COEF_FREEZE, .PE_MARGIN_MAX, .PE_MARGIN_MIN,
     .PE_PRECODER_ABANDONED, .PE_STORE_STATUS, .PE_T3_MARGIN, .PE_TRAIN_PHASE, .PE_TRAIN_STATUS, .PFC_STATUS, .Q_COUNTERS,
     .ROOT_STATUS, .RX_FIFO_DROP, .SKEW_SPAN_MAX, .T3_MARGIN_MIN, .TIME_LAST_UP, .TRAIN_FAIL_COUNT, .TRAIN_TIME]) ∧
  (∀ (p : PortNo) (failed : BitVec 4), Frames (.t3Timeout p failed) [.held, .ports, .pes, .anc, .diag, .host, .time, .sched, .queues] 
    [.DOWNSHIFT_CEILING, .FAST_FAIL_COUNT, .LINK_DOWN_CAUSE, .LINK_DOWN_COUNT, .LPI_NEXT_WAKE, .LQ_STATUS, .PE_COEF_FREEZE,
     .PE_PRECODER_ABANDONED, .PE_STORE_STATUS, .PE_TRAIN_STATUS, .PFC_STATUS, .Q_COUNTERS, .ROOT_STATUS, .RX_FIFO_DROP,
     .TRAIN_FAIL_COUNT]) ∧
  (∀ (p : PortNo), Frames (.partnerLost p) [.held, .ports, .pes, .anc, .diag, .host, .time, .sched, .queues] 
    [.DOWNSHIFT_CEILING, .FAST_FAIL_COUNT, .LINK_DOWN_CAUSE, .LINK_DOWN_COUNT, .LPI_NEXT_WAKE, .LQ_STATUS, .PE_COEF_FREEZE,
     .PE_PRECODER_ABANDONED, .PE_STORE_STATUS, .PFC_STATUS, .Q_COUNTERS, .ROOT_STATUS, .RX_FIFO_DROP, .TRAIN_FAIL_COUNT]) ∧
  (∀ (p : PortNo) (ok : Bool), Frames (.stdTrainComplete p ok) [.held, .ports, .pes, .anc, .diag, .host, .time, .sched, .queues, .nv] 
    [.ANC_DISCARD_COUNT, .DOWNSHIFT_CEILING, .LINK_DOWN_CAUSE, .LINK_DOWN_COUNT, .LINK_EPOCH, .LPI_NEXT_WAKE, .LPI_STATUS,
     .LQ_STATUS, .MM_STATUS, .PE_COEF_FREEZE, .PE_MARGIN_MAX, .PE_MARGIN_MIN, .PE_PRECODER_ABANDONED, .PE_STORE_STATUS,
     .PE_TRAIN_PHASE, .PE_TRAIN_STATUS, .PFC_STATUS, .Q_COUNTERS, .ROOT_STATUS, .RX_FIFO_DROP, .SKEW_SPAN_MAX,
     .TIME_LAST_UP, .TRAIN_FAIL_COUNT, .TRAIN_TIME]) ∧
  (∀ (p : PortNo), Frames (.stdLinkFail p) [.held, .ports, .pes, .anc, .diag, .host, .time, .sched, .queues] 
    [.LINK_DOWN_CAUSE, .LINK_DOWN_COUNT, .LPI_NEXT_WAKE, .LQ_STATUS, .PE_COEF_FREEZE, .PE_PRECODER_ABANDONED,
     .PE_STORE_STATUS, .PFC_STATUS, .Q_COUNTERS, .ROOT_STATUS, .RX_FIFO_DROP]) ∧
  (∀ (p : PortNo), Frames (.linkBreakEnd p) [.held, .pwr, .ports, .pes, .anc, .diag, .host, .time, .sched, .queues] 
    [.ANC_DISCARD_COUNT, .AN_PARTNER_ABILITY, .AN_PARTNER_WA, .AN_STATUS, .FAST_COUNT, .FAST_FAIL_COUNT, .LINK_DOWN_CAUSE,
     .LINK_DOWN_COUNT, .LPI_NEXT_WAKE, .LQ_STATUS, .PE_COEF_FREEZE, .PE_LANE_STATUS, .PE_PRECODER_ABANDONED,
     .PE_STORE_STATUS, .PE_TRAIN_PHASE, .PE_TRAIN_STATUS, .PFC_STATUS, .Q_COUNTERS, .ROOT_STATUS, .RX_FIFO_DROP,
     .TRAIN_CLASS, .TRAIN_COUNT, .TRAIN_SOURCE]) ∧
  (∀ (p : PortNo), Frames (.linkFailEnd p) [.held, .ports, .pes, .anc, .diag, .host, .time, .sched, .queues] 
    [.AN_PARTNER_ABILITY, .AN_PARTNER_WA, .AN_STATUS, .DOWNSHIFT_CEILING, .LINK_DOWN_COUNT, .LPI_NEXT_WAKE, .LQ_STATUS,
     .PE_COEF_FREEZE, .PE_PRECODER_ABANDONED, .PFC_STATUS, .Q_COUNTERS, .ROOT_STATUS, .RX_FIFO_DROP]) ∧
  (∀ (p : PortNo), Frames (.noEnergy2s p) [] [.DOWNSHIFT_CEILING]) ∧
  (∀ (p : PortNo), Frames (.wakePatternRetrain p) [.held, .pwr, .ports, .pes, .anc, .diag, .host, .time, .sched, .queues] 
    [.ANC_DISCARD_COUNT, .FAST_COUNT, .FAST_FAIL_COUNT, .LINK_DOWN_CAUSE, .LINK_DOWN_COUNT, .LPI_NEXT_WAKE, .LQ_STATUS,
     .PE_COEF_FREEZE, .PE_LANE_STATUS, .PE_PRECODER_ABANDONED, .PE_STORE_STATUS, .PE_TRAIN_PHASE, .PE_TRAIN_STATUS,
     .PFC_STATUS, .Q_COUNTERS, .ROOT_STATUS, .RX_FIFO_DROP, .TRAIN_CLASS, .TRAIN_COUNT, .TRAIN_SOURCE]) ∧
  (∀ (p : PortNo), Frames (.fastRetrainNoReply p) [.held, .ports, .pes, .anc, .diag, .host, .time, .sched, .queues] 
    [.FAST_FAIL_COUNT, .LINK_DOWN_CAUSE, .LINK_DOWN_COUNT, .LPI_NEXT_WAKE, .LQ_STATUS, .PE_COEF_FREEZE,
     .PE_PRECODER_ABANDONED, .PE_STORE_STATUS, .PFC_STATUS, .Q_COUNTERS, .ROOT_STATUS, .RX_FIFO_DROP]) ∧
  (∀ (p : PortNo), Frames (.trainRestartFull p) [.held, .pwr, .ports, .pes, .anc, .diag, .host, .time, .sched, .queues] 
    [.ANC_DISCARD_COUNT, .AN_PARTNER_ABILITY, .AN_PARTNER_WA, .AN_STATUS, .DOWNSHIFT_CEILING, .FAST_COUNT, .FAST_FAIL_COUNT,
     .LINK_DOWN_CAUSE, .LINK_DOWN_COUNT, .LPI_NEXT_WAKE, .LQ_STATUS, .PE_COEF_FREEZE, .PE_LANE_STATUS,
     .PE_PRECODER_ABANDONED, .PE_STORE_STATUS, .PE_TRAIN_PHASE, .PE_TRAIN_STATUS, .PFC_STATUS, .Q_COUNTERS, .ROOT_STATUS,
     .RX_FIFO_DROP, .TRAIN_CLASS, .TRAIN_COUNT, .TRAIN_SOURCE]) ∧
  (∀ (p : PortNo), Frames (.trainRestartFast p) [.held, .pwr, .ports, .pes, .anc, .diag, .host, .time, .sched, .queues] 
    [.ANC_DISCARD_COUNT, .AN_PARTNER_ABILITY, .AN_PARTNER_WA, .AN_STATUS, .DOWNSHIFT_CEILING, .FAST_COUNT, .FAST_FAIL_COUNT,
     .LINK_DOWN_CAUSE, .LINK_DOWN_COUNT, .LPI_NEXT_WAKE, .LQ_STATUS, .PE_COEF_FREEZE, .PE_LANE_STATUS,
     .PE_PRECODER_ABANDONED, .PE_STORE_STATUS, .PE_TRAIN_PHASE, .PE_TRAIN_STATUS, .PFC_STATUS, .Q_COUNTERS, .ROOT_STATUS,
     .RX_FIFO_DROP, .TRAIN_CLASS, .TRAIN_COUNT, .TRAIN_SOURCE]) ∧
  (∀ (p : PortNo), Frames (.trainRestartRenegotiate p) [.held, .pwr, .ports, .pes, .anc, .diag, .host, .time, .sched, .queues] 
    [.ANC_DISCARD_COUNT, .AN_PARTNER_ABILITY, .AN_PARTNER_WA, .AN_STATUS, .DOWNSHIFT_CEILING, .FAST_COUNT, .FAST_FAIL_COUNT,
     .LINK_DOWN_CAUSE, .LINK_DOWN_COUNT, .LPI_NEXT_WAKE, .LQ_STATUS, .PE_COEF_FREEZE, .PE_LANE_STATUS,
     .PE_PRECODER_ABANDONED, .PE_STORE_STATUS, .PE_TRAIN_PHASE, .PE_TRAIN_STATUS, .PFC_STATUS, .Q_COUNTERS, .ROOT_STATUS,
     .RX_FIFO_DROP, .TRAIN_CLASS, .TRAIN_COUNT, .TRAIN_SOURCE]) ∧
  (∀ (p : PortNo) (v : BitVec 8), Frames (.portModeWrite p v) [.held, .pwr, .ports, .pes, .anc, .diag, .host, .time, .sched, .queues] 
    [.ANC_DISCARD_COUNT, .AN_PARTNER_ABILITY, .AN_PARTNER_WA, .AN_STATUS, .DOWNSHIFT_CEILING, .FAST_COUNT, .FAST_FAIL_COUNT,
     .LINK_DOWN_CAUSE, .LINK_DOWN_COUNT, .LPI_NEXT_WAKE, .LQ_STATUS, .PE_COEF_FREEZE, .PE_LANE_STATUS,
     .PE_PRECODER_ABANDONED, .PE_STORE_STATUS, .PE_TRAIN_PHASE, .PE_TRAIN_STATUS, .PFC_STATUS, .PORT_MODE, .Q_COUNTERS,
     .ROOT_STATUS, .RX_FIFO_DROP, .TRAIN_CLASS, .TRAIN_COUNT, .TRAIN_SOURCE]) ∧
  (∀ (p : PortNo) (v : BitVec 16), Frames (.portAbilityWrite p v) [.held, .pwr, .ports, .pes, .anc, .diag, .host, .time, .sched, .queues] 
    [.ANC_DISCARD_COUNT, .AN_PARTNER_ABILITY, .AN_PARTNER_WA, .AN_STATUS, .DOWNSHIFT_CEILING, .FAST_COUNT, .FAST_FAIL_COUNT,
     .LINK_DOWN_CAUSE, .LINK_DOWN_COUNT, .LPI_NEXT_WAKE, .LQ_STATUS, .PE_COEF_FREEZE, .PE_LANE_STATUS,
     .PE_PRECODER_ABANDONED, .PE_STORE_STATUS, .PE_TRAIN_PHASE, .PE_TRAIN_STATUS, .PFC_STATUS, .PORT_ABILITY, .Q_COUNTERS,
     .ROOT_STATUS, .RX_FIFO_DROP, .TRAIN_CLASS, .TRAIN_COUNT, .TRAIN_SOURCE]) ∧
  (∀ (p : PortNo) (v : BitVec 8), Frames (.portEnableWrite p v) [.held, .pwr, .ports, .pes, .anc, .diag, .host, .hlane, .time, .sched, .queues] 
    [.ANC_DISCARD_COUNT, .AN_PARTNER_ABILITY, .AN_PARTNER_WA, .AN_STATUS, .DOWNSHIFT_CEILING, .FAST_COUNT, .FAST_FAIL_COUNT,
     .HL_STATUS, .LINK_DOWN_CAUSE, .LINK_DOWN_COUNT, .LPI_NEXT_WAKE, .LQ_STATUS, .PE_COEF_FREEZE, .PE_LANE_STATUS,
     .PE_PRECODER_ABANDONED, .PE_STORE_STATUS, .PE_TRAIN_PHASE, .PE_TRAIN_STATUS, .PFC_STATUS, .PORT_ENABLE, .Q_COUNTERS,
     .ROOT_STATUS, .RX_FIFO_DROP, .TDR_STATUS, .TRAIN_CLASS, .TRAIN_COUNT, .TRAIN_SOURCE]) ∧
  (∀ (q : QuadNo) (v : BitVec 8), Frames (.quadFormationWrite q v) [.ports, .pes, .anc, .host, .hlane] 
    [.ANC_DROP_COUNT, .ANC_MAP_STATUS, .ANC_MAP_VERSION, .HL_ENTRIES, .HL_MAP, .HL_STATUS, .PE_TRAIN_STATUS, .QUAD_FORMATION]) ∧
  (∀ (p : PortNo) (id : BitVec 8), Frames (.lpiSleepRequest p id) [.ports, .pes, .anc, .queues] [.LPI_NEXT_WAKE]) ∧
  (∀ (p : PortNo) (msg : BitVec 128) (lane : Fin 4), Frames (.sleepReq p msg lane) [.ports, .pes, .anc, .queues] 
    [.LPI_NEXT_WAKE]) ∧
  (∀ (p : PortNo) (msg : BitVec 128), Frames (.sleepAck p msg) [.ports] []) ∧
  (∀ (p : PortNo) (msg : BitVec 128), Frames (.sleepNak p msg) [.ports] []) ∧
  (∀ (p : PortNo) (partner : Bool), Frames (.lpiQuietPoint p partner) [.ports, .pes, .anc, .queues] 
    [.ANC_DISCARD_COUNT, .LPI_ENTRY_COUNT, .LPI_NEXT_WAKE, .LPI_WAKE_OTHER_COUNT, .LPI_WAKE_PARTNER_COUNT,
     .LPI_WAKE_TIMED_COUNT, .PE_PRECODER_ABANDONED]) ∧
  (∀ (p : PortNo), Frames (.lpiRefreshStart p) [.ports, .pes, .anc, .queues] 
    [.ANC_DISCARD_COUNT, .LPI_NEXT_WAKE, .LPI_WAKE_OTHER_COUNT, .LPI_WAKE_PARTNER_COUNT, .LPI_WAKE_TIMED_COUNT]) ∧
  (∀ (p : PortNo), Frames (.lpiRefreshEnd p) [.ports, .pes, .anc, .queues] 
    [.ANC_DISCARD_COUNT, .LPI_NEXT_WAKE, .LPI_WAKE_OTHER_COUNT, .LPI_WAKE_PARTNER_COUNT, .LPI_WAKE_TIMED_COUNT]) ∧
  (∀ (p : PortNo) (margins : List (Option Int)), Frames (.partnerRefreshEnd p margins) [.held, .ports, .pes, .anc, .diag, .host, .time, .sched, .queues] 
    [.ANC_DISCARD_COUNT, .LINK_DOWN_CAUSE, .LINK_DOWN_COUNT, .LPI_NEXT_WAKE, .LPI_REFRESH_FAIL_COUNT, .LPI_STATUS,
     .LPI_WAKE_OTHER_COUNT, .LPI_WAKE_PARTNER_COUNT, .LPI_WAKE_TIMED_COUNT, .LQ_STATUS, .PE_COEF_FREEZE,
     .PE_LPI_REFRESH_MARGIN, .PE_PRECODER_ABANDONED, .PE_STORE_STATUS, .PFC_STATUS, .Q_COUNTERS, .ROOT_STATUS, .RX_FIFO_DROP]) ∧
  (∀ (p : PortNo) (planned : Bool), Frames (.lpiWakeStart p planned) [.ports, .pes, .anc, .queues] 
    [.ANC_DISCARD_COUNT, .LPI_NEXT_WAKE, .LPI_WAKE_OTHER_COUNT, .LPI_WAKE_PARTNER_COUNT, .LPI_WAKE_TIMED_COUNT]) ∧
  (∀ (p : PortNo), Frames (.lpiPartnerChirp p) [.ports, .pes, .anc, .queues] 
    [.ANC_DISCARD_COUNT, .LPI_NEXT_WAKE, .LPI_WAKE_OTHER_COUNT, .LPI_WAKE_PARTNER_COUNT, .LPI_WAKE_TIMED_COUNT]) ∧
  (∀ (p : PortNo) (partner : Bool), Frames (.lpiWakeEnd p partner) [.held, .draws, .ports, .pes, .anc, .diag, .host, .time, .sched, .queues] 
    [.DOWNSHIFT_CEILING, .FAST_FAIL_COUNT, .LINK_DOWN_CAUSE, .LINK_DOWN_COUNT, .LPI_NEXT_WAKE, .LQ_STATUS, .PE_COEF_FREEZE,
     .PE_PRECODER_ABANDONED, .PE_STORE_STATUS, .PFC_STATUS, .Q_COUNTERS, .ROOT_STATUS, .RX_FIFO_DROP, .TRAIN_FAIL_COUNT]) ∧
  (∀ (p : PortNo), Frames (.heldAwakeEnd p) [] [.LPI_STATUS]) ∧
  (∀ (p : PortNo) (v : BitVec 8), Frames (.lpiEnableWrite p v) [.ports, .pes, .anc, .queues] 
    [.ANC_DISCARD_COUNT, .LPI_ENABLE, .LPI_NEXT_WAKE, .LPI_WAKE_OTHER_COUNT, .LPI_WAKE_PARTNER_COUNT, .LPI_WAKE_TIMED_COUNT]) ∧
  (∀ (p : PortNo) (asserted : Bool), Frames (.rxLpi p asserted) [.ports, .pes, .anc, .queues] 
    [.ANC_DISCARD_COUNT, .LPI_NEXT_WAKE, .LPI_WAKE_OTHER_COUNT, .LPI_WAKE_PARTNER_COUNT, .LPI_WAKE_TIMED_COUNT]) ∧
  (∀ (p : PortNo) (v : BitVec 8), Frames (.tdrStart p v) [.diag] [.TDR_STATUS]) ∧
  (∀ (p : PortNo) (r : T0Probe), Frames (.tdrDone p r) [.diag] 
    [.TDR_FAULT, .TDR_FAULT_DIST, .TDR_NOISE, .TDR_RESULT, .TDR_STATUS]) ∧
  (∀ (e : PeNo), Frames (.reflectCompute e) [.diag] []) ∧
  (∀ (e : PeNo), Frames (.reflectBaselineSet e) [.diag] []) ∧
  (∀ (e : PeNo) (rows : List (BitVec 16)) (origin : Nat), Frames (.reflectDone e rows origin) [.diag] 
    [.REFLECTOGRAM, .REFLECT_BIN, .REFLECT_ORIGIN]) ∧
  (∀ (e : PeNo) (rows : List (BitVec 16)) (origin : Nat), Frames (.reflectWatchTick e rows origin) [.diag] 
    [.LQ_STATUS, .REFLECTOGRAM, .REFLECT_BIN, .REFLECT_CHANGE_DIST, .REFLECT_ORIGIN]) ∧
  (∀ (p : PortNo) (std : List StdCounts), Frames (.lqSecondEnd p std) [.pes] 
    [.BITS_CORRECTED, .CW_CORRECTED, .CW_COUNT, .CW_UNCORRECTABLE, .LDPC_ITER_HIST, .LQ_STATUS, .SYMBOL_ERR_COUNT]) ∧
  (∀ (p : PortNo) (v : BitVec 8), Frames (.lqReset p v) [.pes] 
    [.LDPC_ITER_HIST, .LQ_STATUS, .PE_MARGIN_MAX, .PE_MARGIN_MIN, .SKEW_SPAN_MAX]) ∧
  (∀ (v : BitVec 8), Frames (.plantMapBuild v) [.diag] []) ∧
  (Frames .plantMapDone [.diag] [.PLANT_MAP, .PLANT_MAP_ROWS, .PLANT_MAP_VERSION]) ∧
  (∀ (q : QuadNo), Frames (.ledLocateTick q) [] [.LED_LOCATE]) ∧
  (∀ (p : PortNo), Frames (.ledBlinkEnd p) [.diag] [])

/-- Frames of the commands of the host lanes, time, scheduling and the buffer: what each may change, and that nothing else
changes. -/
def Obligations.TimeAndTrafficFrames : Prop :=
  (∀ (p : PortNo) (h : QcNo) (fill : WriteFill), Frames (.admitCell p h fill) [.ports, .host, .sched, .queues, .buf] 
    [.BUF_MISS_STATUS, .BUF_STATUS, .LPI_NEXT_WAKE, .PFC_STATUS, .Q_COUNTERS, .Q_OOO_COUNT, .SVC_BUF_STATE]) ∧
  (∀ (h : QcNo) (cell : Fin 65536) (found : ScrubFound), Frames (.scrubRead h cell found) [.queues, .buf] 
    [.BUF_MISS_STATUS, .BUF_STATUS, .QC_CE_COUNT, .QC_REPLACED_BY, .QC_STATE, .QC_UE_COUNT, .SVC_BUF_STATE]) ∧
  (∀ (h : QcNo) (cell : Fin 65536), Frames (.scrubWriteback h cell) [.buf] []) ∧
  (∀ (h : QcNo) (v : BitVec 8), Frames (.qcRetire h v) [.buf] 
    [.BUF_MISS_STATUS, .BUF_STATUS, .QC_REPLACED_BY, .QC_STATE, .SVC_BUF_STATE]) ∧
  (∀ (h : QcNo), Frames (.channelDrained h) [] [.QC_STATE]) ∧
  (∀ (v : BitVec 8), Frames (.bufReevaluate v) [.buf] [.BUF_STATUS, .SVC_BUF_STATE]) ∧
  (∀ (p : PortNo), Frames (.hostPauseEnd p) [] [.HL_PORT_STATUS]) ∧
  (∀ (p : PortNo) (asserted : Bool), Frames (.hostLocalFaultRx p asserted) [] [.HL_PORT_STATUS]) ∧
  (∀ (p : PortNo), Frames (.pfcFrameSend p) [.host] [.PFC_FRAME_COUNT]) ∧
  (∀ (p : PortNo) (prio : Fin 8), Frames (.pfcRefresh p prio) [.host] []) ∧
  (∀ (p : PortNo), Frames (.forwardToHost p) [.host] [.PTP_MODIFIED_COUNT]) ∧
  (∀ (h : LaneNo), Frames (.hlLaneUp h) [.host, .hlane] [.HL_FAULT_COUNT, .HL_STATUS]) ∧
  (∀ (h : LaneNo), Frames (.hlLaneFault h) [.host, .hlane] [.HL_FAULT_COUNT, .HL_STATUS]) ∧
  (∀ (h : LaneNo) (block : BitVec 66) (inProgress : List PortNo), Frames (.lsMarkerReceived h block inProgress) [.hlane] 
    [.HL_LS_MARKER_ERR, .HL_STATUS, .HOST_RX_ERROR]) ∧
  (∀ (p : PortNo) (entries : Bool) (v : BitVec 32), Frames (.hlMapWrite p entries v) [.host, .hlane] 
    [.HL_ENTRIES, .HL_MAP, .HL_STATUS]) ∧
  (∀ (p : PortNo) (which : PfcSetting) (v : BitVec 32), Frames (.pfcSettingWrite p which v) [.host] 
    [.PFC_ENABLE, .PFC_HEADROOM, .PFC_PRIORITY_MAP, .PFC_QUANTA, .PFC_STATUS]) ∧
  (∀ (h : LaneNo) (signal : Bool) (fec : Bool) (am : Bool) (corrected : Nat) (uncorrected : Nat) (prbs : Nat), Frames (.fecLockChange h signal fec am corrected uncorrected prbs) [.hlane, .buf] 
    [.BUF_MISS_STATUS, .BUF_STATUS, .HL_FEC_CORRECTED, .HL_FEC_UNCORR, .HL_PRBS_ERR, .HL_STATUS, .QC_CE_COUNT,
     .QC_REPLACED_BY, .QC_STATE, .SVC_BUF_STATE]) ∧
  (∀ (p : PortNo) (frame : Nat) (r : ReadResult), Frames (.launchReadComplete p frame r) [.host, .sched, .queues, .buf] 
    [.BUF_MISS_STATUS, .BUF_STATUS, .PFC_STATUS, .QC_CE_COUNT, .QC_REPLACED_BY, .QC_STATE, .QC_UE_COUNT, .Q_COUNTERS,
     .SVC_BUF_STATE]) ∧
  (∀ (p : PortNo), Frames (.frameEndOnWire p) [.draws, .ports, .host, .sched] 
    [.GATE_OVERRUN_COUNT, .LPI_NEXT_WAKE, .MM_FRAG_TX, .PFC_STATUS, .Q_COUNTERS, .SVC_COUNTERS, .TX_TS_REPORT, .TX_TS_SEQ]) ∧
  (∀ (p : PortNo), Frames (.queueHeadJudge p) [.ports, .host, .queues] [.LPI_NEXT_WAKE, .PFC_STATUS, .Q_COUNTERS]) ∧
  (∀ (p : PortNo), Frames (.gateEdge p) [.sched] []) ∧
  (∀ (p : PortNo), Frames (.gateSwapExecute p) [.ports, .sched] [.LPI_NEXT_WAKE]) ∧
  (∀ (p : PortNo) (row : Nat) (v : BitVec 16), Frames (.qBlocksWrite p row v) [.host, .queues] 
    [.PFC_STATUS, .Q_BLOCKS, .Q_BLOCK_OWNER]) ∧
  (∀ (p : PortNo) (v : BitVec 16), Frames (.qDefaultWrite p v) [] [.Q_DEFAULT]) ∧
  (∀ (p : PortNo) (v : BitVec 8), Frames (.qFlush p v) [.ports, .host, .queues] [.LPI_NEXT_WAKE, .PFC_STATUS, .Q_COUNTERS]) ∧
  (∀ (p : PortNo) (row : Nat) (v : BitVec 128), Frames (.qConfigWrite p row v) [.ports, .host] 
    [.LPI_NEXT_WAKE, .PFC_STATUS, .Q_CONFIG]) ∧
  (∀ (x : ShaperSel) (v : BitVec 64), Frames (.shaperWrite x v) [.ports, .flowSh, .svcSh, .portSh] 
    [.FLOW_SHAPER, .LPI_NEXT_WAKE, .PORT_SHAPER, .SVC_SHAPER]) ∧
  (∀ (x : ShaperSel), Frames (.shaperDebtEnd x) [.flowSh, .svcSh, .portSh] []) ∧
  (∀ (p : PortNo), Frames (.gateEnableTrue p) [.ports, .sched] [.GATE_ENABLE, .LPI_NEXT_WAKE]) ∧
  (∀ (p : PortNo), Frames (.gateEnableFalse p) [.ports, .sched] [.GATE_ENABLE, .LPI_NEXT_WAKE]) ∧
  (∀ (p : PortNo) (v : BitVec 8), Frames (.gateSwapRequest p v) [.ports, .sched] [.GATE_SWAP_TIME, .LPI_NEXT_WAKE]) ∧
  (∀ (p : PortNo), Frames (.gateSwapCancel p) [.ports, .sched] [.GATE_SWAP_TIME, .LPI_NEXT_WAKE]) ∧
  (∀ (p : PortNo), Frames (.mmEnableTrue p) [.sched] [.MM_ENABLE, .MM_STATUS]) ∧
  (∀ (p : PortNo), Frames (.mmEnableFalse p) [.sched] [.MM_ENABLE, .MM_STATUS]) ∧
  (∀ (p : PortNo), Frames (.mmVerifyTimer p) [.sched] [.MM_STATUS]) ∧
  (∀ (p : PortNo) (respond : Bool), Frames (.mmVerifyReceived p respond) [.ports, .sched] [.LPI_NEXT_WAKE, .MM_STATUS]) ∧
  (∀ (row : Nat) (v : BitVec 128), Frames (.mtrConfigWrite row v) [.meters] [.MTR_CONFIG]) ∧
  (∀ (p : PortNo) (count : Bool) (v : BitVec 16), Frames (.rxMeterRangeWrite p count v) [] [.RX_METER_BASE, .RX_METER_COUNT]) ∧
  (∀ (v : BitVec 8), Frames (.timeSnapshot v) [] [.TIME_SNAPSHOT_VALUE]) ∧
  (∀ (v : BitVec 8), Frames (.timeValidWrite v) [.ports] [.LPI_NEXT_WAKE, .TIME_VALID]) ∧
  (∀ (mode : Bool) (v : BitVec 8), Frames (.timeSourceWrite mode v) [.held, .ports, .time] 
    [.LPI_NEXT_WAKE, .ROOT_STATUS, .TIME_FREQ_CORR, .TIME_RATE_ADJ, .TIME_SERVO_MODE, .TIME_SERVO_STATE, .TIME_SOURCE,
     .TIME_VALID]) ∧
  (Frames .servoInputTimeout [.held, .time] [.ROOT_STATUS, .TIME_FREQ_CORR, .TIME_RATE_ADJ, .TIME_SERVO_STATE]) ∧
  (Frames .holdoverValidExpire [.ports] [.LPI_NEXT_WAKE, .TIME_VALID]) ∧
  (∀ (v : BitVec 8), Frames (.rootDisciplineWrite v) [.held, .time] [.ROOT_DISCIPLINE, .ROOT_STATUS]) ∧
  (Frames .trimResume [.time] [.ROOT_STATUS]) ∧
  (Frames .refInLost [.held, .time] [.ROOT_STATUS]) ∧
  (Frames .refInPresent [] [.ROOT_STATUS]) ∧
  (Frames .ppsOutPulse [.time] []) ∧
  (Frames .ppsOutEnd [.time] []) ∧
  (∀ (v : BitVec 16), Frames (.taCancel v) [] [.TA_TABLE])

/-- Frames of the commands of the Wale fabric, the dictionary and power: what each may change, and that nothing else changes. -/
def Obligations.FabricAndDictionaryFrames : Prop :=
  (∀ (addr : BitVec 40) (row : BitVec 24) (held : Bool), Frames (.read addr row held) [] []) ∧
  (∀ (addr : BitVec 40) (row : BitVec 24), Frames (.describe addr row) [] []) ∧
  (∀ (octets : List Octet), Frames (.dapResponseReceived octets) [.host, .sched, .queues, .frameNo, .wale, .dap] 
    [.DAP_MALFORMED, .TX_QUEUE_MISS, .WALE_NO_ROUTE, .WL_DROP]) ∧
  (Frames .spiReadStatus [] []) ∧
  (∀ (complete : Bool), Frames (.spiReadResp complete) [.dap] []) ∧
  (∀ (negotiated : Bool), Frames (.mgmtAnComplete negotiated) [] [.MGMT_STATUS]) ∧
  (∀ (signal : Bool), Frames (.mgmtSyncLoss signal) [] [.MGMT_STATUS]) ∧
  (∀ (inst : Nat) (ev : EvName), Frames (.coalesceWindowClose inst ev) [.wale] []) ∧
  (Frames .pwrRequestActive [.held, .pwr, .ports, .pes, .anc, .diag, .host, .time, .sched, .queues, .buf, .bist] 
    [.BIST_INCOMPLETE_COUNT, .LINK_DOWN_CAUSE, .LINK_DOWN_COUNT, .LPI_NEXT_WAKE, .LQ_STATUS, .PE_COEF_FREEZE,
     .PE_PRECODER_ABANDONED, .PE_STORE_STATUS, .PFC_STATUS, .Q_COUNTERS, .ROOT_STATUS, .RX_FIFO_DROP, .WAKE_CAUSE,
     .WAKE_STEP_FAIL]) ∧
  (Frames .pwrRequestStandby [.held, .pwr, .ports, .pes, .anc, .diag, .host, .time, .sched, .queues, .buf, .bist] 
    [.BIST_INCOMPLETE_COUNT, .LINK_DOWN_CAUSE, .LINK_DOWN_COUNT, .LPI_NEXT_WAKE, .LQ_STATUS, .PE_COEF_FREEZE,
     .PE_PRECODER_ABANDONED, .PE_STORE_STATUS, .PFC_STATUS, .Q_COUNTERS, .ROOT_STATUS, .RX_FIFO_DROP, .WAKE_CAUSE,
     .WAKE_STEP_FAIL]) ∧
  (Frames .pwrRequestOff [.held, .pwr, .ports, .pes, .anc, .diag, .host, .time, .sched, .queues, .buf, .bist] 
    [.BIST_INCOMPLETE_COUNT, .LINK_DOWN_CAUSE, .LINK_DOWN_COUNT, .LPI_NEXT_WAKE, .LQ_STATUS, .PE_COEF_FREEZE,
     .PE_PRECODER_ABANDONED, .PE_STORE_STATUS, .PFC_STATUS, .Q_COUNTERS, .ROOT_STATUS, .RX_FIFO_DROP, .WAKE_CAUSE,
     .WAKE_STEP_FAIL]) ∧
  (Frames .pwrDirectActive [.held, .pwr, .ports, .pes, .anc, .diag, .host, .time, .sched, .queues, .buf, .bist] 
    [.BIST_INCOMPLETE_COUNT, .LINK_DOWN_CAUSE, .LINK_DOWN_COUNT, .LPI_NEXT_WAKE, .LQ_STATUS, .PE_COEF_FREEZE,
     .PE_PRECODER_ABANDONED, .PE_STORE_STATUS, .PFC_STATUS, .Q_COUNTERS, .ROOT_STATUS, .RX_FIFO_DROP, .WAKE_CAUSE,
     .WAKE_STEP_FAIL]) ∧
  (Frames .pwrDirectStandby [.held, .pwr, .ports, .pes, .anc, .diag, .host, .time, .sched, .queues, .buf, .bist] 
    [.BIST_INCOMPLETE_COUNT, .LINK_DOWN_CAUSE, .LINK_DOWN_COUNT, .LPI_NEXT_WAKE, .LQ_STATUS, .PE_COEF_FREEZE,
     .PE_PRECODER_ABANDONED, .PE_STORE_STATUS, .PFC_STATUS, .Q_COUNTERS, .ROOT_STATUS, .RX_FIFO_DROP, .WAKE_CAUSE,
     .WAKE_STEP_FAIL]) ∧
  (Frames .pwrDirectOff [.held, .pwr, .ports, .pes, .anc, .diag, .host, .time, .sched, .queues, .buf, .bist] 
    [.BIST_INCOMPLETE_COUNT, .LINK_DOWN_CAUSE, .LINK_DOWN_COUNT, .LPI_NEXT_WAKE, .LQ_STATUS, .PE_COEF_FREEZE,
     .PE_PRECODER_ABANDONED, .PE_STORE_STATUS, .PFC_STATUS, .Q_COUNTERS, .ROOT_STATUS, .RX_FIFO_DROP, .WAKE_CAUSE,
     .WAKE_STEP_FAIL]) ∧
  (∀ (t : TileNo), Frames (.tileRequestRun t) [.pwr, .buf, .bist] [.BIST_INCOMPLETE_COUNT]) ∧
  (∀ (t : TileNo), Frames (.tileRequestSleep t) [.pwr, .buf, .bist] [.BIST_INCOMPLETE_COUNT]) ∧
  (∀ (tile : Option TileNo) (block : Fin 11), Frames (.handshakeAnswer tile block) [.held, .pwr, .ports, .pes, .anc, .diag, .host, .time, .sched, .queues, .buf, .wale, .cal, .bist, .nv] 
    [.ANC_DISCARD_COUNT, .ANC_MAP_STATUS, .AN_PARTNER_ABILITY, .AN_PARTNER_WA, .AN_STATUS, .BIST_INCOMPLETE_COUNT,
     .FAST_COUNT, .FAST_FAIL_COUNT, .LINK_DOWN_CAUSE, .LINK_DOWN_COUNT, .LPI_NEXT_WAKE, .LQ_STATUS, .PE_COEF_FREEZE,
     .PE_LANE_STATUS, .PE_PRECODER_ABANDONED, .PE_STORE_STATUS, .PE_TRAIN_PHASE, .PE_TRAIN_STATUS, .PFC_STATUS, .PWR_REFUSE,
     .PWR_REFUSE_COUNT, .Q_COUNTERS, .ROOT_STATUS, .RX_FIFO_DROP, .TRAIN_CLASS, .TRAIN_COUNT, .TRAIN_SOURCE, .WAKE_CAUSE,
     .WAKE_STEP_FAIL, .WALE_LSA_SEQ, .WL_DROP]) ∧
  (∀ (tile : Option TileNo) (block : Fin 11), Frames (.handshakeBoundExpire tile block) [.held, .pwr, .ports, .pes, .anc, .diag, .host, .time, .sched, .queues, .buf, .wale, .bist] 
    [.ANC_DISCARD_COUNT, .AN_PARTNER_ABILITY, .AN_PARTNER_WA, .AN_STATUS, .BIST_INCOMPLETE_COUNT, .FAST_COUNT,
     .FAST_FAIL_COUNT, .LINK_DOWN_CAUSE, .LINK_DOWN_COUNT, .LPI_NEXT_WAKE, .LQ_STATUS, .PE_COEF_FREEZE, .PE_LANE_STATUS,
     .PE_PRECODER_ABANDONED, .PE_STORE_STATUS, .PE_TRAIN_PHASE, .PE_TRAIN_STATUS, .PFC_STATUS, .PWR_REFUSE,
     .PWR_REFUSE_COUNT, .Q_COUNTERS, .ROOT_STATUS, .RX_FIFO_DROP, .TRAIN_CLASS, .TRAIN_COUNT, .TRAIN_SOURCE, .WAKE_CAUSE,
     .WAKE_STEP_FAIL, .WALE_LSA_SEQ, .WL_DROP]) ∧
  (∀ (t : TileNo), Frames (.plLowerTimer t) [.pwr] []) ∧
  (∀ (t : TileNo), Frames (.plChangeComplete t) [.held, .pwr, .ports, .pes, .anc, .diag, .host, .time, .sched, .queues] 
    [.ANC_DISCARD_COUNT, .FAST_COUNT, .FAST_FAIL_COUNT, .LINK_DOWN_CAUSE, .LINK_DOWN_COUNT, .LPI_NEXT_WAKE, .LQ_STATUS,
     .PE_COEF_FREEZE, .PE_LANE_STATUS, .PE_PRECODER_ABANDONED, .PE_STORE_STATUS, .PE_TRAIN_PHASE, .PE_TRAIN_STATUS,
     .PFC_STATUS, .Q_COUNTERS, .ROOT_STATUS, .RX_FIFO_DROP, .TRAIN_CLASS, .TRAIN_COUNT, .TRAIN_SOURCE]) ∧
  (∀ (t : TileNo) (set : Bool) (v : BitVec 8), Frames (.tilePlWrite t set v) [.pwr] [.TILE_PL_MODE, .TILE_PL_SET]) ∧
  (∀ (v : BitVec 32), Frames (.legacyGateWrite v) [] [.LEGACY_GATE]) ∧
  (∀ (d : Fin 60), Frames (.clkswForce d) [.pwr] [.CLKSW_FORCED_COUNT]) ∧
  (∀ (t : TileNo), Frames (.regulatorFailureInService t) [.held, .pwr, .ports, .pes, .anc, .diag, .host, .time, .sched, .queues, .cal] 
    [.ANC_DROP_COUNT, .ANC_MAP_STATUS, .ANC_MAP_VERSION, .LINK_DOWN_CAUSE, .LINK_DOWN_COUNT, .LPI_NEXT_WAKE, .LQ_STATUS,
     .PE_COEF_FREEZE, .PE_PRECODER_ABANDONED, .PE_STORE_STATUS, .PE_TRAIN_STATUS, .PFC_STATUS, .Q_COUNTERS, .ROOT_STATUS,
     .RX_FIFO_DROP]) ∧
  (∀ (reference : Bool), Frames (.rootPllLockLoss reference) [.held, .pwr, .ports, .pes, .anc, .diag, .host, .time, .sched, .queues] 
    [.LINK_DOWN_CAUSE, .LINK_DOWN_COUNT, .LPI_NEXT_WAKE, .LQ_STATUS, .MGMT_STATUS, .PE_COEF_FREEZE, .PE_PRECODER_ABANDONED,
     .PE_STORE_STATUS, .PFC_STATUS, .Q_COUNTERS, .ROOT_STATUS, .RX_FIFO_DROP]) ∧
  (∀ (t : TileNo) (temp : BitVec 16) (lid : BitVec 16) (coreMv : BitVec 16) (mw : BitVec 32), Frames (.thermSensorSample t temp lid coreMv mw) [] 
    [.LID_TEMP, .MON_STATUS, .PE_STORE_STATUS, .TEMP_PEAK, .TILE_CORE_V, .TILE_POWER, .TILE_TEMP]) ∧
  (∀ (t : TileNo), Frames (.thermTrip t) [.held, .draws, .pwr, .ports, .pes, .anc, .diag, .host, .time, .sched, .queues, .buf, .cal, .bist] 
    [.ANC_DROP_COUNT, .ANC_MAP_STATUS, .ANC_MAP_VERSION, .BIST_INCOMPLETE_COUNT, .LINK_DOWN_CAUSE, .LINK_DOWN_COUNT,
     .LPI_NEXT_WAKE, .LQ_STATUS, .PE_COEF_FREEZE, .PE_PRECODER_ABANDONED, .PE_STORE_STATUS, .PE_TRAIN_STATUS, .PFC_STATUS,
     .PWR_TRANSITION_COUNT, .Q_COUNTERS, .ROOT_STATUS, .RX_FIFO_DROP, .WAKE_CAUSE, .WAKE_STEP_FAIL, .WAKE_TIME]) ∧
  (∀ (mv : BitVec 16) (ma : BitVec 32) (mw : BitVec 32), Frames (.vinMonitor mv ma mw) [] 
    [.MON_STATUS, .VIN_CURRENT, .VIN_POWER, .VIN_VOLTAGE]) ∧
  (∀ (w : Option WlNo) (v : BitVec 8), Frames (.wlEnableWrite w v) [.wale] 
    [.WALE_ENABLE, .WALE_STATUS, .WL_ENABLE, .WL_LINK_DOWN_COUNT, .WL_PARTNER_ID, .WL_PARTNER_PORT, .WL_STATE, .WL_STATUS]) ∧
  (∀ (w : WlNo) (pos : Fin 66), Frames (.wlHeaderLock w pos) [.wale] [.WL_HDR_VALID, .WL_SLIP_POS, .WL_STATE, .WL_STATUS]) ∧
  (∀ (w : WlNo) (invalid : Nat) (valid : Fin 65) (signal : Bool), Frames (.wlHeaderLockLost w invalid valid signal) [.wale] 
    [.WALE_STATUS, .WL_HDR_ERR, .WL_HDR_VALID, .WL_LINK_DOWN_COUNT, .WL_PARTNER_ID, .WL_PARTNER_PORT, .WL_STATE, .WL_STATUS]) ∧
  (∀ (w : WlNo) (inverted : Bool), Frames (.wlAligned w inverted) [] [.WL_STATE, .WL_STATUS]) ∧
  (∀ (w : WlNo) (v : BitVec 8), Frames (.wlSlip w v) [.draws] [.WL_HDR_VALID, .WL_SLIP_POS]) ∧
  (∀ (w : WlNo), Frames (.wlHelloSend w) [.queues, .wale] [.WL_DROP]) ∧
  (∀ (w : WlNo) (payload : BitVec 256), Frames (.hello w payload) [.queues, .wale] 
    [.WALE_STATUS, .WL_DROP, .WL_LINK_DOWN_COUNT, .WL_PARTNER_ID, .WL_PARTNER_PORT, .WL_STATE, .WL_STATUS]) ∧
  (∀ (w : WlNo), Frames (.wlHelloTimeout w) [.wale] 
    [.WALE_STATUS, .WL_LINK_DOWN_COUNT, .WL_PARTNER_ID, .WL_PARTNER_PORT, .WL_STATE, .WL_STATUS]) ∧
  (∀ (w : WlNo), Frames (.wlSquelchEnd w) [.wale] []) ∧
  (∀ (w : WlNo), Frames (.wlQuietSearch w) [.wale] []) ∧
  (∀ (w : WlNo) (v : BitVec 8), Frames (.wlWakeSend w v) [.wale] []) ∧
  (∀ (w : WlNo) (words : List WlWord), Frames (.wlPacketReceived w words) [.queues, .wale] 
    [.WALE_NO_ROUTE, .WL_CRC_ERR, .WL_DROP, .WL_HDR_ERR, .WL_RX_PACKETS]) ∧
  (∀ (w : WlNo), Frames (.wlPacketTransmit w) [.queues, .wale] [.WL_TX_PACKETS]) ∧
  (∀ (w : WlNo) (payload : List Octet), Frames (.lsa w payload) [.queues, .wale] [.WALE_LSA_SEQ, .WALE_STATUS, .WL_DROP]) ∧
  (Frames .lsaOriginate [.queues, .wale] [.WALE_LSA_SEQ, .WL_DROP]) ∧
  (Frames .lsaRefresh [.queues, .wale] [.WALE_LSA_SEQ, .WL_DROP]) ∧
  (∀ (id : BitVec 64), Frames (.lsaAgeOut id) [.wale] []) ∧
  (Frames .routeRecompute [.queues, .wale] 
    [.WALE_ADDRESS, .WALE_ADDR_CHANGES, .WALE_DEVICE_COUNT, .WALE_NO_ROUTE, .WALE_ROOT_DISTANCE, .WALE_ROOT_ID,
     .WALE_ROUTES, .WALE_STATUS, .WALE_UPSTREAM, .WL_DROP, .WL_STATUS]) ∧
  (Frames .waleConverged [] [.WALE_STATUS]) ∧
  (Frames .addressPersist [.nv] []) ∧
  (Frames .sync [.queues, .wale] [.WL_DROP]) ∧
  (Frames .dreq [.wale] []) ∧
  (∀ (w : WlNo) (kind : BitVec 8) (seq : BitVec 16) (frac : Fin 16), Frames (.wcTs w kind seq frac) [.queues, .wale] 
    [.WL_DROP]) ∧
  (∀ (w : WlNo) (dreq : Bool), Frames (.timeReportTimeout w dreq) [.wale] []) ∧
  (∀ (src : BitVec 8) (records : List (BitVec 256)) (outcomes : List OutcomeIn), Frames (.event src records outcomes) [.wale] 
    [.UPSETT_REPORT]) ∧
  (∀ (batch : EventBatch), Frames (.eventPacketSend batch) [.draws, .queues, .wale] [.WALE_NO_ROUTE, .WL_DROP]) ∧
  (∀ (v : BitVec 32), Frames (.upsettTagWrite v) [] [.UPSETT_REPORT, .UPSETT_TAG])

/-- Frames of the commands of calibration, self-test, images and configurations: what each may change, and that nothing else
changes. -/
def Obligations.CalibrationAndBootFrames : Prop :=
  (∀ (t : SliceOn), Frames (.bistSliceStart t) [.buf, .bist] []) ∧
  (∀ (v : BitVec 32), Frames (.bistRequest v) [.anc, .bist] []) ∧
  (Frames .foregroundGroupStart [.pwr, .cal, .bist] []) ∧
  (∀ (e : PeNo) (m : FgMeas), Frames (.foregroundCalDone e m) [.held, .pwr, .ports, .pes, .anc, .diag, .host, .time, .sched, .queues, .cal, .boot] 
    [.ANC_DISCARD_COUNT, .ANC_DROP_COUNT, .ANC_MAP_STATUS, .ANC_MAP_VERSION, .AN_PARTNER_ABILITY, .AN_PARTNER_WA,
     .AN_STATUS, .BIST_STATE_PE, .FAST_COUNT, .FAST_FAIL_COUNT, .LINK_DOWN_CAUSE, .LINK_DOWN_COUNT, .LPI_NEXT_WAKE,
     .LQ_STATUS, .PE_COEF_FREEZE, .PE_LANE_STATUS, .PE_PRECODER_ABANDONED, .PE_STORE_STATUS, .PE_TRAIN_PHASE,
     .PE_TRAIN_STATUS, .PFC_STATUS, .Q_COUNTERS, .ROOT_STATUS, .RX_FIFO_DROP, .START_TIME, .TRAIN_CLASS, .TRAIN_COUNT,
     .TRAIN_SOURCE]) ∧
  (∀ (e : PeNo) (v : BitVec 8), Frames (.calStart e v) [.pwr, .cal] []) ∧
  (∀ (e : PeNo) (dac : Bool), Frames (.calRoundStart e dac) [.cal] [.PE_TRAIN_PHASE]) ∧
  (∀ (e : PeNo) (dac : Bool) (results : List (Quantity × Int)) (matched : List (Quantity × Int)), Frames (.calVisitPhaseEnd e dac results matched) [.pes, .anc, .cal] 
    [.ANC_DROP_COUNT, .ANC_MAP_STATUS, .ANC_MAP_VERSION, .BIST_STATE_PE, .CAL_REJECT_COUNT, .CAL_ROUND_TIME,
     .CAL_VISIT_COUNT, .PE_TRAIN_PHASE, .PE_TRAIN_STATUS]) ∧
  (∀ (e : PeNo), Frames (.calCorrectionUpdate e) [.cal] []) ∧
  (∀ (e : PeNo), Frames (.calRecordStore e) [.cal, .nv] []) ∧
  (∀ (row : Nat) (v : List Octet), Frames (.imageWrite row v) [.boot, .nv] []) ∧
  (∀ (v : BitVec 8), Frames (.imageErase v) [.boot, .nv] []) ∧
  (∀ (v : BitVec 8), Frames (.imageVerify v) [.boot] []) ∧
  (Frames .imageVerifyDone [.boot, .nv] []) ∧
  (∀ (v : BitVec 8), Frames (.imageSelectNext v) [.nv] []) ∧
  (∀ (v : BitVec 8), Frames (.imageConfirm v) [.boot, .nv] []) ∧
  (∀ (v : BitVec 16), Frames (.ownerKeySubmit v) [.nv] []) ∧
  (∀ (v : BitVec 16), Frames (.ownerPolicySubmit v) [.nv] []) ∧
  (∀ (v : BitVec 256), Frames (.attestNonce v) [.boot] [.ATTEST_STATUS]) ∧
  (Frames .attestReportDone [.boot] [.ATTEST_REPORT, .ATTEST_STATUS]) ∧
  (∀ (row : Nat) (v : List Octet), Frames (.cfgCandidateWrite row v) [.cfg, .nv] [.CFG_CHECK_RESULT]) ∧
  (∀ (v : BitVec 8), Frames (.cfgCapture v) [.draws, .cfg, .nv] [.CFG_CHECK_RESULT]) ∧
  (∀ (v : BitVec 8), Frames (.cfgLoadFactory v) [.cfg, .nv] [.CFG_CHECK_RESULT]) ∧
  (∀ (v : BitVec 8), Frames (.cfgCheck v) [.cfg] [.CFG_CHECK_RESULT]) ∧
  (Frames .cfgCheckDone [.cfg] [.CFG_CHECK_RESULT, .CFG_COMMIT_DETAIL, .CFG_COMMIT_REASON]) ∧
  (∀ (v : BitVec 32), Frames (.cfgConfirm v) [.wale, .cfg, .nv] [.UPSETT_REPORT])

/-- R2, R28: a command that names a port leaves the link controller of every other port as it was. -/
def Obligations.PortCommandsLeaveOtherPortsAlone : Prop :=
  (∀ (p : PortNo) (transmit : Bool), LeavesOtherPorts p (.pairDropSwitch p transmit)) ∧
  (∀ (p : PortNo) (pg : BasePage), LeavesOtherPorts p (.basePagesExchanged p pg)) ∧
  (∀ (p : PortNo) (np : NextPages), LeavesOtherPorts p (.nextPagesDone p np)) ∧
  (∀ (p : PortNo), LeavesOtherPorts p (.flpDetected p)) ∧
  (∀ (p : PortNo), LeavesOtherPorts p (.parallelDetect p)) ∧
  (∀ (p : PortNo) (r : T0Probe), LeavesOtherPorts p (.t0TimerEnd p r)) ∧
  (∀ (p : PortNo) (r : T1Result), LeavesOtherPorts p (.t1Converged p r)) ∧
  (∀ (p : PortNo) (conv : BitVec 4) (r : T1Result), LeavesOtherPorts p (.t1Timeout p conv r)) ∧
  (∀ (p : PortNo), LeavesOtherPorts p (.t2Timeout p)) ∧
  (∀ (p : PortNo), LeavesOtherPorts p (.countdownEnd p)) ∧
  (∀ (p : PortNo) (pick : BitVec 8), LeavesOtherPorts p (.t3VerifyPass p pick)) ∧
  (∀ (p : PortNo) (failed : BitVec 4), LeavesOtherPorts p (.t3Timeout p failed)) ∧
  (∀ (p : PortNo), LeavesOtherPorts p (.partnerLost p)) ∧
  (∀ (p : PortNo) (ok : Bool), LeavesOtherPorts p (.stdTrainComplete p ok)) ∧
  (∀ (p : PortNo), LeavesOtherPorts p (.stdLinkFail p)) ∧
  (∀ (p : PortNo), LeavesOtherPorts p (.linkBreakEnd p)) ∧
  (∀ (p : PortNo), LeavesOtherPorts p (.linkFailEnd p)) ∧
  (∀ (p : PortNo), LeavesOtherPorts p (.wakePatternRetrain p)) ∧
  (∀ (p : PortNo), LeavesOtherPorts p (.fastRetrainNoReply p)) ∧
  (∀ (p : PortNo), LeavesOtherPorts p (.trainRestartFull p)) ∧
  (∀ (p : PortNo), LeavesOtherPorts p (.trainRestartFast p)) ∧
  (∀ (p : PortNo), LeavesOtherPorts p (.trainRestartRenegotiate p)) ∧
  (∀ (p : PortNo) (v : BitVec 8), LeavesOtherPorts p (.portModeWrite p v)) ∧
  (∀ (p : PortNo) (v : BitVec 16), LeavesOtherPorts p (.portAbilityWrite p v)) ∧
  (∀ (p : PortNo) (v : BitVec 8), LeavesOtherPorts p (.portEnableWrite p v)) ∧
  (∀ (p : PortNo) (id : BitVec 8), LeavesOtherPorts p (.lpiSleepRequest p id)) ∧
  (∀ (p : PortNo) (msg : BitVec 128) (lane : Fin 4), LeavesOtherPorts p (.sleepReq p msg lane)) ∧
  (∀ (p : PortNo) (msg : BitVec 128), LeavesOtherPorts p (.sleepAck p msg)) ∧
  (∀ (p : PortNo) (msg : BitVec 128), LeavesOtherPorts p (.sleepNak p msg)) ∧
  (∀ (p : PortNo) (partner : Bool), LeavesOtherPorts p (.lpiQuietPoint p partner)) ∧
  (∀ (p : PortNo), LeavesOtherPorts p (.lpiRefreshStart p)) ∧
  (∀ (p : PortNo), LeavesOtherPorts p (.lpiRefreshEnd p)) ∧
  (∀ (p : PortNo) (margins : List (Option Int)), LeavesOtherPorts p (.partnerRefreshEnd p margins)) ∧
  (∀ (p : PortNo) (planned : Bool), LeavesOtherPorts p (.lpiWakeStart p planned)) ∧
  (∀ (p : PortNo), LeavesOtherPorts p (.lpiPartnerChirp p)) ∧
  (∀ (p : PortNo) (partner : Bool), LeavesOtherPorts p (.lpiWakeEnd p partner)) ∧
  (∀ (p : PortNo) (v : BitVec 8), LeavesOtherPorts p (.lpiEnableWrite p v)) ∧
  (∀ (p : PortNo) (asserted : Bool), LeavesOtherPorts p (.rxLpi p asserted))
end

