-- ==== Sys2Proof/Laws/Tab.lean ====
section
/-!
SUPPORT. The laws of sparse tables: what a look-up finds after a key was written or removed. None needs the table to be sorted.
-/
namespace Sys2Proof.Machine
set_option Elab.async false

variable {κ α : Type} [DecidableEq κ]

@[simp] theorem Tab.get?_nil (k : κ) : Tab.get? ([] : Tab κ α) k = none := rfl

theorem Tab.get?_cons (e : κ × α) (t : Tab κ α) (k : κ) :
    Tab.get? (e :: t) k = if k = e.1 then some e.2 else Tab.get? t k := by cases e; rfl

@[simp] theorem Tab.get?_put_same [Ord κ] (t : Tab κ α) (k : κ) (v : α) : (t.put k v).get? k = some v := by
  induction t with
  | nil => simp [Tab.put, Tab.get?]
  | cons e t ih =>
    obtain ⟨k', v'⟩ := e
    unfold Tab.put
    split
    · simp [Tab.get?]
    · split
      · simp [Tab.get?]
      · simp [Tab.get?_cons, *]

theorem Tab.get?_put_other [Ord κ] (t : Tab κ α) (k j : κ) (v : α) (h : j ≠ k) : (t.put k v).get? j = t.get? j := by
  induction t with
  | nil => simp [Tab.put, Tab.get?, h]
  | cons e t ih =>
    obtain ⟨k', v'⟩ := e
    unfold Tab.put
    split
    · subst_vars; simp [Tab.get?_cons, h]
    · split
      · simp [Tab.get?_cons, h]
      · simp [Tab.get?_cons, ih]

@[simp] theorem Tab.get?_del_same (t : Tab κ α) (k : κ) : (t.del k).get? k = none := by
  induction t with
  | nil => rfl
  | cons e t ih =>
    obtain ⟨k', v'⟩ := e
    unfold Tab.del
    split
    · exact ih
    · simp [Tab.get?_cons, *]

theorem Tab.get?_del_other (t : Tab κ α) (k j : κ) (h : j ≠ k) : (t.del k).get? j = t.get? j := by
  induction t with
  | nil => rfl
  | cons e t ih =>
    obtain ⟨k', v'⟩ := e
    unfold Tab.del
    split
    · subst_vars; simp [Tab.get?_cons, h, ih]
    · simp [Tab.get?_cons, ih]

theorem Tab.getD_def (t : Tab κ α) (k : κ) (d : α) : t.getD k d = (t.get? k).getD d := by
  unfold Tab.getD; cases t.get? k <;> rfl

@[simp] theorem Tab.getD_nil (k : κ) (d : α) : Tab.getD ([] : Tab κ α) k d = d := rfl

@[simp] theorem Tab.getD_set_same [Ord κ] [DecidableEq α] (t : Tab κ α) (k : κ) (v d : α) : (t.set k v d).getD k d = v := by
  unfold Tab.set
  split <;> simp [Tab.getD_def, *]

theorem Tab.getD_set_other [Ord κ] [DecidableEq α] (t : Tab κ α) (k j : κ) (v d d' : α) (h : j ≠ k) :
    (t.set k v d).getD j d' = t.getD j d' := by
  unfold Tab.set
  split <;> simp [Tab.getD_def, Tab.get?_put_other, Tab.get?_del_other, h]

@[simp] theorem Tab.getD_upd_same [Ord κ] [DecidableEq α] (t : Tab κ α) (k : κ) (d : α) (f : α → α) :
    (t.upd k d f).getD k d = f (t.getD k d) := Tab.getD_set_same ..

theorem Tab.getD_upd_other [Ord κ] [DecidableEq α] (t : Tab κ α) (k j : κ) (d d' : α) (f : α → α) (h : j ≠ k) :
    (t.upd k d f).getD j d' = t.getD j d' := Tab.getD_set_other _ _ _ _ _ _ h

/-- A filter on the keys keeps the entries it keeps and no other. -/
theorem Tab.get?_filter (t : Tab κ α) (P : κ → Bool) (k : κ) :
    Tab.get? (t.filter fun e => P e.1) k = if P k then t.get? k else none := by
  induction t with
  | nil => simp
  | cons e t ih =>
    obtain ⟨k', v'⟩ := e
    by_cases hk : P k' <;> by_cases he : k = k' <;> simp_all [Tab.get?_cons]

end Sys2Proof.Machine
end

