-- ==== Sys2Proof/Laws/State.lean ====
section
/-!
SUPPORT. What each named update leaves as it was, field by field, and what reading an object finds after a write: the lemmas that
spare later proofs the unfolding of a record update.
-/
set_option Elab.async false
namespace Sys2Proof.Machine

/-! The updates of one field: every other field stays. -/

@[simp] theorem Chip.clr_held (c : Chip) (r : Reg) (i row : Nat) : (c.clr r i row).held = c.held := rfl
@[simp] theorem Chip.clr_access (c : Chip) (r : Reg) (i row : Nat) : (c.clr r i row).access = c.access := rfl
@[simp] theorem Chip.clr_draws (c : Chip) (r : Reg) (i row : Nat) : (c.clr r i row).draws = c.draws := rfl
@[simp] theorem Chip.clr_root (c : Chip) (r : Reg) (i row : Nat) : (c.clr r i row).root = c.root := rfl
@[simp] theorem Chip.clr_tb (c : Chip) (r : Reg) (i row : Nat) : (c.clr r i row).tb = c.tb := rfl
@[simp] theorem Chip.clr_ev (c : Chip) (r : Reg) (i row : Nat) : (c.clr r i row).ev = c.ev := rfl
@[simp] theorem Chip.clr_pwr (c : Chip) (r : Reg) (i row : Nat) : (c.clr r i row).pwr = c.pwr := rfl
@[simp] theorem Chip.clr_ports (c : Chip) (r : Reg) (i row : Nat) : (c.clr r i row).ports = c.ports := rfl
@[simp] theorem Chip.clr_pes (c : Chip) (r : Reg) (i row : Nat) : (c.clr r i row).pes = c.pes := rfl
@[simp] theorem Chip.clr_anc (c : Chip) (r : Reg) (i row : Nat) : (c.clr r i row).anc = c.anc := rfl
@[simp] theorem Chip.clr_diag (c : Chip) (r : Reg) (i row : Nat) : (c.clr r i row).diag = c.diag := rfl
@[simp] theorem Chip.clr_host (c : Chip) (r : Reg) (i row : Nat) : (c.clr r i row).host = c.host := rfl
@[simp] theorem Chip.clr_hlane (c : Chip) (r : Reg) (i row : Nat) : (c.clr r i row).hlane = c.hlane := rfl
@[simp] theorem Chip.clr_time (c : Chip) (r : Reg) (i row : Nat) : (c.clr r i row).time = c.time := rfl
@[simp] theorem Chip.clr_sched (c : Chip) (r : Reg) (i row : Nat) : (c.clr r i row).sched = c.sched := rfl
@[simp] theorem Chip.clr_queues (c : Chip) (r : Reg) (i row : Nat) : (c.clr r i row).queues = c.queues := rfl
@[simp] theorem Chip.clr_frameNo (c : Chip) (r : Reg) (i row : Nat) : (c.clr r i row).frameNo = c.frameNo := rfl
@[simp] theorem Chip.clr_flowSh (c : Chip) (r : Reg) (i row : Nat) : (c.clr r i row).flowSh = c.flowSh := rfl
@[simp] theorem Chip.clr_svcSh (c : Chip) (r : Reg) (i row : Nat) : (c.clr r i row).svcSh = c.svcSh := rfl
@[simp] theorem Chip.clr_portSh (c : Chip) (r : Reg) (i row : Nat) : (c.clr r i row).portSh = c.portSh := rfl
@[simp] theorem Chip.clr_meters (c : Chip) (r : Reg) (i row : Nat) : (c.clr r i row).meters = c.meters := rfl
@[simp] theorem Chip.clr_buf (c : Chip) (r : Reg) (i row : Nat) : (c.clr r i row).buf = c.buf := rfl
@[simp] theorem Chip.clr_wale (c : Chip) (r : Reg) (i row : Nat) : (c.clr r i row).wale = c.wale := rfl
@[simp] theorem Chip.clr_dap (c : Chip) (r : Reg) (i row : Nat) : (c.clr r i row).dap = c.dap := rfl
@[simp] theorem Chip.clr_cal (c : Chip) (r : Reg) (i row : Nat) : (c.clr r i row).cal = c.cal := rfl
@[simp] theorem Chip.clr_bist (c : Chip) (r : Reg) (i row : Nat) : (c.clr r i row).bist = c.bist := rfl
@[simp] theorem Chip.clr_boot (c : Chip) (r : Reg) (i row : Nat) : (c.clr r i row).boot = c.boot := rfl
@[simp] theorem Chip.clr_cfg (c : Chip) (r : Reg) (i row : Nat) : (c.clr r i row).cfg = c.cfg := rfl
@[simp] theorem Chip.clr_nv (c : Chip) (r : Reg) (i row : Nat) : (c.clr r i row).nv = c.nv := rfl

@[simp] theorem Chip.clrAll_held (c : Chip) (r : Reg) (i : Nat) : (c.clrAll r i).held = c.held := rfl
@[simp] theorem Chip.clrAll_access (c : Chip) (r : Reg) (i : Nat) : (c.clrAll r i).access = c.access := rfl
@[simp] theorem Chip.clrAll_draws (c : Chip) (r : Reg) (i : Nat) : (c.clrAll r i).draws = c.draws := rfl
@[simp] theorem Chip.clrAll_root (c : Chip) (r : Reg) (i : Nat) : (c.clrAll r i).root = c.root := rfl
@[simp] theorem Chip.clrAll_tb (c : Chip) (r : Reg) (i : Nat) : (c.clrAll r i).tb = c.tb := rfl
@[simp] theorem Chip.clrAll_ev (c : Chip) (r : Reg) (i : Nat) : (c.clrAll r i).ev = c.ev := rfl
@[simp] theorem Chip.clrAll_pwr (c : Chip) (r : Reg) (i : Nat) : (c.clrAll r i).pwr = c.pwr := rfl
@[simp] theorem Chip.clrAll_ports (c : Chip) (r : Reg) (i : Nat) : (c.clrAll r i).ports = c.ports := rfl
@[simp] theorem Chip.clrAll_pes (c : Chip) (r : Reg) (i : Nat) : (c.clrAll r i).pes = c.pes := rfl
@[simp] theorem Chip.clrAll_anc (c : Chip) (r : Reg) (i : Nat) : (c.clrAll r i).anc = c.anc := rfl
@[simp] theorem Chip.clrAll_diag (c : Chip) (r : Reg) (i : Nat) : (c.clrAll r i).diag = c.diag := rfl
@[simp] theorem Chip.clrAll_host (c : Chip) (r : Reg) (i : Nat) : (c.clrAll r i).host = c.host := rfl
@[simp] theorem Chip.clrAll_hlane (c : Chip) (r : Reg) (i : Nat) : (c.clrAll r i).hlane = c.hlane := rfl
@[simp] theorem Chip.clrAll_time (c : Chip) (r : Reg) (i : Nat) : (c.clrAll r i).time = c.time := rfl
@[simp] theorem Chip.clrAll_sched (c : Chip) (r : Reg) (i : Nat) : (c.clrAll r i).sched = c.sched := rfl
@[simp] theorem Chip.clrAll_queues (c : Chip) (r : Reg) (i : Nat) : (c.clrAll r i).queues = c.queues := rfl
@[simp] theorem Chip.clrAll_frameNo (c : Chip) (r : Reg) (i : Nat) : (c.clrAll r i).frameNo = c.frameNo := rfl
@[simp] theorem Chip.clrAll_flowSh (c : Chip) (r : Reg) (i : Nat) : (c.clrAll r i).flowSh = c.flowSh := rfl
@[simp] theorem Chip.clrAll_svcSh (c : Chip) (r : Reg) (i : Nat) : (c.clrAll r i).svcSh = c.svcSh := rfl
@[simp] theorem Chip.clrAll_portSh (c : Chip) (r : Reg) (i : Nat) : (c.clrAll r i).portSh = c.portSh := rfl
@[simp] theorem Chip.clrAll_meters (c : Chip) (r : Reg) (i : Nat) : (c.clrAll r i).meters = c.meters := rfl
@[simp] theorem Chip.clrAll_buf (c : Chip) (r : Reg) (i : Nat) : (c.clrAll r i).buf = c.buf := rfl
@[simp] theorem Chip.clrAll_wale (c : Chip) (r : Reg) (i : Nat) : (c.clrAll r i).wale = c.wale := rfl
@[simp] theorem Chip.clrAll_dap (c : Chip) (r : Reg) (i : Nat) : (c.clrAll r i).dap = c.dap := rfl
@[simp] theorem Chip.clrAll_cal (c : Chip) (r : Reg) (i : Nat) : (c.clrAll r i).cal = c.cal := rfl
@[simp] theorem Chip.clrAll_bist (c : Chip) (r : Reg) (i : Nat) : (c.clrAll r i).bist = c.bist := rfl
@[simp] theorem Chip.clrAll_boot (c : Chip) (r : Reg) (i : Nat) : (c.clrAll r i).boot = c.boot := rfl
@[simp] theorem Chip.clrAll_cfg (c : Chip) (r : Reg) (i : Nat) : (c.clrAll r i).cfg = c.cfg := rfl
@[simp] theorem Chip.clrAll_nv (c : Chip) (r : Reg) (i : Nat) : (c.clrAll r i).nv = c.nv := rfl

@[simp] theorem Chip.raise_dict (c : Chip) (e : EvName) (n d : Nat) : (c.raise e n d).dict = c.dict := rfl
@[simp] theorem Chip.raise_held (c : Chip) (e : EvName) (n d : Nat) : (c.raise e n d).held = c.held := rfl
@[simp] theorem Chip.raise_access (c : Chip) (e : EvName) (n d : Nat) : (c.raise e n d).access = c.access := rfl
@[simp] theorem Chip.raise_draws (c : Chip) (e : EvName) (n d : Nat) : (c.raise e n d).draws = c.draws := rfl
@[simp] theorem Chip.raise_root (c : Chip) (e : EvName) (n d : Nat) : (c.raise e n d).root = c.root := rfl
@[simp] theorem Chip.raise_tb (c : Chip) (e : EvName) (n d : Nat) : (c.raise e n d).tb = c.tb := rfl
@[simp] theorem Chip.raise_pwr (c : Chip) (e : EvName) (n d : Nat) : (c.raise e n d).pwr = c.pwr := rfl
@[simp] theorem Chip.raise_ports (c : Chip) (e : EvName) (n d : Nat) : (c.raise e n d).ports = c.ports := rfl
@[simp] theorem Chip.raise_pes (c : Chip) (e : EvName) (n d : Nat) : (c.raise e n d).pes = c.pes := rfl
@[simp] theorem Chip.raise_anc (c : Chip) (e : EvName) (n d : Nat) : (c.raise e n d).anc = c.anc := rfl
@[simp] theorem Chip.raise_diag (c : Chip) (e : EvName) (n d : Nat) : (c.raise e n d).diag = c.diag := rfl
@[simp] theorem Chip.raise_host (c : Chip) (e : EvName) (n d : Nat) : (c.raise e n d).host = c.host := rfl
@[simp] theorem Chip.raise_hlane (c : Chip) (e : EvName) (n d : Nat) : (c.raise e n d).hlane = c.hlane := rfl
@[simp] theorem Chip.raise_time (c : Chip) (e : EvName) (n d : Nat) : (c.raise e n d).time = c.time := rfl
@[simp] theorem Chip.raise_sched (c : Chip) (e : EvName) (n d : Nat) : (c.raise e n d).sched = c.sched := rfl
@[simp] theorem Chip.raise_queues (c : Chip) (e : EvName) (n d : Nat) : (c.raise e n d).queues = c.queues := rfl
@[simp] theorem Chip.raise_frameNo (c : Chip) (e : EvName) (n d : Nat) : (c.raise e n d).frameNo = c.frameNo := rfl
@[simp] theorem Chip.raise_flowSh (c : Chip) (e : EvName) (n d : Nat) : (c.raise e n d).flowSh = c.flowSh := rfl
@[simp] theorem Chip.raise_svcSh (c : Chip) (e : EvName) (n d : Nat) : (c.raise e n d).svcSh = c.svcSh := rfl
@[simp] theorem Chip.raise_portSh (c : Chip) (e : EvName) (n d : Nat) : (c.raise e n d).portSh = c.portSh := rfl
@[simp] theorem Chip.raise_meters (c : Chip) (e : EvName) (n d : Nat) : (c.raise e n d).meters = c.meters := rfl
@[simp] theorem Chip.raise_buf (c : Chip) (e : EvName) (n d : Nat) : (c.raise e n d).buf = c.buf := rfl
@[simp] theorem Chip.raise_wale (c : Chip) (e : EvName) (n d : Nat) : (c.raise e n d).wale = c.wale := rfl
@[simp] theorem Chip.raise_dap (c : Chip) (e : EvName) (n d : Nat) : (c.raise e n d).dap = c.dap := rfl
@[simp] theorem Chip.raise_cal (c : Chip) (e : EvName) (n d : Nat) : (c.raise e n d).cal = c.cal := rfl
@[simp] theorem Chip.raise_bist (c : Chip) (e : EvName) (n d : Nat) : (c.raise e n d).bist = c.bist := rfl
@[simp] theorem Chip.raise_boot (c : Chip) (e : EvName) (n d : Nat) : (c.raise e n d).boot = c.boot := rfl
@[simp] theorem Chip.raise_cfg (c : Chip) (e : EvName) (n d : Nat) : (c.raise e n d).cfg = c.cfg := rfl
@[simp] theorem Chip.raise_nv (c : Chip) (e : EvName) (n d : Nat) : (c.raise e n d).nv = c.nv := rfl

@[simp] theorem Chip.result_dict (c : Chip) (x : Abort × List Octet) : (c.result x).dict = c.dict := rfl
@[simp] theorem Chip.result_held (c : Chip) (x : Abort × List Octet) : (c.result x).held = c.held := rfl
@[simp] theorem Chip.result_draws (c : Chip) (x : Abort × List Octet) : (c.result x).draws = c.draws := rfl
@[simp] theorem Chip.result_root (c : Chip) (x : Abort × List Octet) : (c.result x).root = c.root := rfl
@[simp] theorem Chip.result_tb (c : Chip) (x : Abort × List Octet) : (c.result x).tb = c.tb := rfl
@[simp] theorem Chip.result_ev (c : Chip) (x : Abort × List Octet) : (c.result x).ev = c.ev := rfl
@[simp] theorem Chip.result_pwr (c : Chip) (x : Abort × List Octet) : (c.result x).pwr = c.pwr := rfl
@[simp] theorem Chip.result_ports (c : Chip) (x : Abort × List Octet) : (c.result x).ports = c.ports := rfl
@[simp] theorem Chip.result_pes (c : Chip) (x : Abort × List Octet) : (c.result x).pes = c.pes := rfl
@[simp] theorem Chip.result_anc (c : Chip) (x : Abort × List Octet) : (c.result x).anc = c.anc := rfl
@[simp] theorem Chip.result_diag (c : Chip) (x : Abort × List Octet) : (c.result x).diag = c.diag := rfl
@[simp] theorem Chip.result_host (c : Chip) (x : Abort × List Octet) : (c.result x).host = c.host := rfl
@[simp] theorem Chip.result_hlane (c : Chip) (x : Abort × List Octet) : (c.result x).hlane = c.hlane := rfl
@[simp] theorem Chip.result_time (c : Chip) (x : Abort × List Octet) : (c.result x).time = c.time := rfl
@[simp] theorem Chip.result_sched (c : Chip) (x : Abort × List Octet) : (c.result x).sched = c.sched := rfl
@[simp] theorem Chip.result_queues (c : Chip) (x : Abort × List Octet) : (c.result x).queues = c.queues := rfl
@[simp] theorem Chip.result_frameNo (c : Chip) (x : Abort × List Octet) : (c.result x).frameNo = c.frameNo := rfl
@[simp] theorem Chip.result_flowSh (c : Chip) (x : Abort × List Octet) : (c.result x).flowSh = c.flowSh := rfl
@[simp] theorem Chip.result_svcSh (c : Chip) (x : Abort × List Octet) : (c.result x).svcSh = c.svcSh := rfl
@[simp] theorem Chip.result_portSh (c : Chip) (x : Abort × List Octet) : (c.result x).portSh = c.portSh := rfl
@[simp] theorem Chip.result_meters (c : Chip) (x : Abort × List Octet) : (c.result x).meters = c.meters := rfl
@[simp] theorem Chip.result_buf (c : Chip) (x : Abort × List Octet) : (c.result x).buf = c.buf := rfl
@[simp] theorem Chip.result_wale (c : Chip) (x : Abort × List Octet) : (c.result x).wale = c.wale := rfl
@[simp] theorem Chip.result_dap (c : Chip) (x : Abort × List Octet) : (c.result x).dap = c.dap := rfl
@[simp] theorem Chip.result_cal (c : Chip) (x : Abort × List Octet) : (c.result x).cal = c.cal := rfl
@[simp] theorem Chip.result_bist (c : Chip) (x : Abort × List Octet) : (c.result x).bist = c.bist := rfl
@[simp] theorem Chip.result_boot (c : Chip) (x : Abort × List Octet) : (c.result x).boot = c.boot := rfl
@[simp] theorem Chip.result_cfg (c : Chip) (x : Abort × List Octet) : (c.result x).cfg = c.cfg := rfl
@[simp] theorem Chip.result_nv (c : Chip) (x : Abort × List Octet) : (c.result x).nv = c.nv := rfl

@[simp] theorem Chip.setPort_dict (c : Chip) (p : Nat) (f : PortSt → PortSt) : (c.setPort p f).dict = c.dict := rfl
@[simp] theorem Chip.setPort_held (c : Chip) (p : Nat) (f : PortSt → PortSt) : (c.setPort p f).held = c.held := rfl
@[simp] theorem Chip.setPort_access (c : Chip) (p : Nat) (f : PortSt → PortSt) : (c.setPort p f).access = c.access := rfl
@[simp] theorem Chip.setPort_draws (c : Chip) (p : Nat) (f : PortSt → PortSt) : (c.setPort p f).draws = c.draws := rfl
@[simp] theorem Chip.setPort_root (c : Chip) (p : Nat) (f : PortSt → PortSt) : (c.setPort p f).root = c.root := rfl
@[simp] theorem Chip.setPort_tb (c : Chip) (p : Nat) (f : PortSt → PortSt) : (c.setPort p f).tb = c.tb := rfl
@[simp] theorem Chip.setPort_ev (c : Chip) (p : Nat) (f : PortSt → PortSt) : (c.setPort p f).ev = c.ev := rfl
@[simp] theorem Chip.setPort_pwr (c : Chip) (p : Nat) (f : PortSt → PortSt) : (c.setPort p f).pwr = c.pwr := rfl
@[simp] theorem Chip.setPort_pes (c : Chip) (p : Nat) (f : PortSt → PortSt) : (c.setPort p f).pes = c.pes := rfl
@[simp] theorem Chip.setPort_anc (c : Chip) (p : Nat) (f : PortSt → PortSt) : (c.setPort p f).anc = c.anc := rfl
@[simp] theorem Chip.setPort_diag (c : Chip) (p : Nat) (f : PortSt → PortSt) : (c.setPort p f).diag = c.diag := rfl
@[simp] theorem Chip.setPort_host (c : Chip) (p : Nat) (f : PortSt → PortSt) : (c.setPort p f).host = c.host := rfl
@[simp] theorem Chip.setPort_hlane (c : Chip) (p : Nat) (f : PortSt → PortSt) : (c.setPort p f).hlane = c.hlane := rfl
@[simp] theorem Chip.setPort_time (c : Chip) (p : Nat) (f : PortSt → PortSt) : (c.setPort p f).time = c.time := rfl
@[simp] theorem Chip.setPort_sched (c : Chip) (p : Nat) (f : PortSt → PortSt) : (c.setPort p f).sched = c.sched := rfl
@[simp] theorem Chip.setPort_queues (c : Chip) (p : Nat) (f : PortSt → PortSt) : (c.setPort p f).queues = c.queues := rfl
@[simp] theorem Chip.setPort_frameNo (c : Chip) (p : Nat) (f : PortSt → PortSt) : (c.setPort p f).frameNo = c.frameNo := rfl
@[simp] theorem Chip.setPort_flowSh (c : Chip) (p : Nat) (f : PortSt → PortSt) : (c.setPort p f).flowSh = c.flowSh := rfl
@[simp] theorem Chip.setPort_svcSh (c : Chip) (p : Nat) (f : PortSt → PortSt) : (c.setPort p f).svcSh = c.svcSh := rfl
@[simp] theorem Chip.setPort_portSh (c : Chip) (p : Nat) (f : PortSt → PortSt) : (c.setPort p f).portSh = c.portSh := rfl
@[simp] theorem Chip.setPort_meters (c : Chip) (p : Nat) (f : PortSt → PortSt) : (c.setPort p f).meters = c.meters := rfl
@[simp] theorem Chip.setPort_buf (c : Chip) (p : Nat) (f : PortSt → PortSt) : (c.setPort p f).buf = c.buf := rfl
@[simp] theorem Chip.setPort_wale (c : Chip) (p : Nat) (f : PortSt → PortSt) : (c.setPort p f).wale = c.wale := rfl
@[simp] theorem Chip.setPort_dap (c : Chip) (p : Nat) (f : PortSt → PortSt) : (c.setPort p f).dap = c.dap := rfl
@[simp] theorem Chip.setPort_cal (c : Chip) (p : Nat) (f : PortSt → PortSt) : (c.setPort p f).cal = c.cal := rfl
@[simp] theorem Chip.setPort_bist (c : Chip) (p : Nat) (f : PortSt → PortSt) : (c.setPort p f).bist = c.bist := rfl
@[simp] theorem Chip.setPort_boot (c : Chip) (p : Nat) (f : PortSt → PortSt) : (c.setPort p f).boot = c.boot := rfl
@[simp] theorem Chip.setPort_cfg (c : Chip) (p : Nat) (f : PortSt → PortSt) : (c.setPort p f).cfg = c.cfg := rfl
@[simp] theorem Chip.setPort_nv (c : Chip) (p : Nat) (f : PortSt → PortSt) : (c.setPort p f).nv = c.nv := rfl

@[simp] theorem Chip.setPe_dict (c : Chip) (p : Nat) (f : PeSt → PeSt) : (c.setPe p f).dict = c.dict := rfl
@[simp] theorem Chip.setPe_held (c : Chip) (p : Nat) (f : PeSt → PeSt) : (c.setPe p f).held = c.held := rfl
@[simp] theorem Chip.setPe_access (c : Chip) (p : Nat) (f : PeSt → PeSt) : (c.setPe p f).access = c.access := rfl
@[simp] theorem Chip.setPe_draws (c : Chip) (p : Nat) (f : PeSt → PeSt) : (c.setPe p f).draws = c.draws := rfl
@[simp] theorem Chip.setPe_root (c : Chip) (p : Nat) (f : PeSt → PeSt) : (c.setPe p f).root = c.root := rfl
@[simp] theorem Chip.setPe_tb (c : Chip) (p : Nat) (f : PeSt → PeSt) : (c.setPe p f).tb = c.tb := rfl
@[simp] theorem Chip.setPe_ev (c : Chip) (p : Nat) (f : PeSt → PeSt) : (c.setPe p f).ev = c.ev := rfl
@[simp] theorem Chip.setPe_pwr (c : Chip) (p : Nat) (f : PeSt → PeSt) : (c.setPe p f).pwr = c.pwr := rfl
@[simp] theorem Chip.setPe_ports (c : Chip) (p : Nat) (f : PeSt → PeSt) : (c.setPe p f).ports = c.ports := rfl
@[simp] theorem Chip.setPe_anc (c : Chip) (p : Nat) (f : PeSt → PeSt) : (c.setPe p f).anc = c.anc := rfl
@[simp] theorem Chip.setPe_diag (c : Chip) (p : Nat) (f : PeSt → PeSt) : (c.setPe p f).diag = c.diag := rfl
@[simp] theorem Chip.setPe_host (c : Chip) (p : Nat) (f : PeSt → PeSt) : (c.setPe p f).host = c.host := rfl
@[simp] theorem Chip.setPe_hlane (c : Chip) (p : Nat) (f : PeSt → PeSt) : (c.setPe p f).hlane = c.hlane := rfl
@[simp] theorem Chip.setPe_time (c : Chip) (p : Nat) (f : PeSt → PeSt) : (c.setPe p f).time = c.time := rfl
@[simp] theorem Chip.setPe_sched (c : Chip) (p : Nat) (f : PeSt → PeSt) : (c.setPe p f).sched = c.sched := rfl
@[simp] theorem Chip.setPe_queues (c : Chip) (p : Nat) (f : PeSt → PeSt) : (c.setPe p f).queues = c.queues := rfl
@[simp] theorem Chip.setPe_frameNo (c : Chip) (p : Nat) (f : PeSt → PeSt) : (c.setPe p f).frameNo = c.frameNo := rfl
@[simp] theorem Chip.setPe_flowSh (c : Chip) (p : Nat) (f : PeSt → PeSt) : (c.setPe p f).flowSh = c.flowSh := rfl
@[simp] theorem Chip.setPe_svcSh (c : Chip) (p : Nat) (f : PeSt → PeSt) : (c.setPe p f).svcSh = c.svcSh := rfl
@[simp] theorem Chip.setPe_portSh (c : Chip) (p : Nat) (f : PeSt → PeSt) : (c.setPe p f).portSh = c.portSh := rfl
@[simp] theorem Chip.setPe_meters (c : Chip) (p : Nat) (f : PeSt → PeSt) : (c.setPe p f).meters = c.meters := rfl
@[simp] theorem Chip.setPe_buf (c : Chip) (p : Nat) (f : PeSt → PeSt) : (c.setPe p f).buf = c.buf := rfl
@[simp] theorem Chip.setPe_wale (c : Chip) (p : Nat) (f : PeSt → PeSt) : (c.setPe p f).wale = c.wale := rfl
@[simp] theorem Chip.setPe_dap (c : Chip) (p : Nat) (f : PeSt → PeSt) : (c.setPe p f).dap = c.dap := rfl
@[simp] theorem Chip.setPe_cal (c : Chip) (p : Nat) (f : PeSt → PeSt) : (c.setPe p f).cal = c.cal := rfl
@[simp] theorem Chip.setPe_bist (c : Chip) (p : Nat) (f : PeSt → PeSt) : (c.setPe p f).bist = c.bist := rfl
@[simp] theorem Chip.setPe_boot (c : Chip) (p : Nat) (f : PeSt → PeSt) : (c.setPe p f).boot = c.boot := rfl
@[simp] theorem Chip.setPe_cfg (c : Chip) (p : Nat) (f : PeSt → PeSt) : (c.setPe p f).cfg = c.cfg := rfl
@[simp] theorem Chip.setPe_nv (c : Chip) (p : Nat) (f : PeSt → PeSt) : (c.setPe p f).nv = c.nv := rfl

@[simp] theorem Chip.setAnc_dict (c : Chip) (p : Nat) (f : AncSt → AncSt) : (c.setAnc p f).dict = c.dict := rfl
@[simp] theorem Chip.setAnc_held (c : Chip) (p : Nat) (f : AncSt → AncSt) : (c.setAnc p f).held = c.held := rfl
@[simp] theorem Chip.setAnc_access (c : Chip) (p : Nat) (f : AncSt → AncSt) : (c.setAnc p f).access = c.access := rfl
@[simp] theorem Chip.setAnc_draws (c : Chip) (p : Nat) (f : AncSt → AncSt) : (c.setAnc p f).draws = c.draws := rfl
@[simp] theorem Chip.setAnc_root (c : Chip) (p : Nat) (f : AncSt → AncSt) : (c.setAnc p f).root = c.root := rfl
@[simp] theorem Chip.setAnc_tb (c : Chip) (p : Nat) (f : AncSt → AncSt) : (c.setAnc p f).tb = c.tb := rfl
@[simp] theorem Chip.setAnc_ev (c : Chip) (p : Nat) (f : AncSt → AncSt) : (c.setAnc p f).ev = c.ev := rfl
@[simp] theorem Chip.setAnc_pwr (c : Chip) (p : Nat) (f : AncSt → AncSt) : (c.setAnc p f).pwr = c.pwr := rfl
@[simp] theorem Chip.setAnc_ports (c : Chip) (p : Nat) (f : AncSt → AncSt) : (c.setAnc p f).ports = c.ports := rfl
@[simp] theorem Chip.setAnc_pes (c : Chip) (p : Nat) (f : AncSt → AncSt) : (c.setAnc p f).pes = c.pes := rfl
@[simp] theorem Chip.setAnc_diag (c : Chip) (p : Nat) (f : AncSt → AncSt) : (c.setAnc p f).diag = c.diag := rfl
@[simp] theorem Chip.setAnc_host (c : Chip) (p : Nat) (f : AncSt → AncSt) : (c.setAnc p f).host = c.host := rfl
@[simp] theorem Chip.setAnc_hlane (c : Chip) (p : Nat) (f : AncSt → AncSt) : (c.setAnc p f).hlane = c.hlane := rfl
@[simp] theorem Chip.setAnc_time (c : Chip) (p : Nat) (f : AncSt → AncSt) : (c.setAnc p f).time = c.time := rfl
@[simp] theorem Chip.setAnc_sched (c : Chip) (p : Nat) (f : AncSt → AncSt) : (c.setAnc p f).sched = c.sched := rfl
@[simp] theorem Chip.setAnc_queues (c : Chip) (p : Nat) (f : AncSt → AncSt) : (c.setAnc p f).queues = c.queues := rfl
@[simp] theorem Chip.setAnc_frameNo (c : Chip) (p : Nat) (f : AncSt → AncSt) : (c.setAnc p f).frameNo = c.frameNo := rfl
@[simp] theorem Chip.setAnc_flowSh (c : Chip) (p : Nat) (f : AncSt → AncSt) : (c.setAnc p f).flowSh = c.flowSh := rfl
@[simp] theorem Chip.setAnc_svcSh (c : Chip) (p : Nat) (f : AncSt → AncSt) : (c.setAnc p f).svcSh = c.svcSh := rfl
@[simp] theorem Chip.setAnc_portSh (c : Chip) (p : Nat) (f : AncSt → AncSt) : (c.setAnc p f).portSh = c.portSh := rfl
@[simp] theorem Chip.setAnc_meters (c : Chip) (p : Nat) (f : AncSt → AncSt) : (c.setAnc p f).meters = c.meters := rfl
@[simp] theorem Chip.setAnc_buf (c : Chip) (p : Nat) (f : AncSt → AncSt) : (c.setAnc p f).buf = c.buf := rfl
@[simp] theorem Chip.setAnc_wale (c : Chip) (p : Nat) (f : AncSt → AncSt) : (c.setAnc p f).wale = c.wale := rfl
@[simp] theorem Chip.setAnc_dap (c : Chip) (p : Nat) (f : AncSt → AncSt) : (c.setAnc p f).dap = c.dap := rfl
@[simp] theorem Chip.setAnc_cal (c : Chip) (p : Nat) (f : AncSt → AncSt) : (c.setAnc p f).cal = c.cal := rfl
@[simp] theorem Chip.setAnc_bist (c : Chip) (p : Nat) (f : AncSt → AncSt) : (c.setAnc p f).bist = c.bist := rfl
@[simp] theorem Chip.setAnc_boot (c : Chip) (p : Nat) (f : AncSt → AncSt) : (c.setAnc p f).boot = c.boot := rfl
@[simp] theorem Chip.setAnc_cfg (c : Chip) (p : Nat) (f : AncSt → AncSt) : (c.setAnc p f).cfg = c.cfg := rfl
@[simp] theorem Chip.setAnc_nv (c : Chip) (p : Nat) (f : AncSt → AncSt) : (c.setAnc p f).nv = c.nv := rfl

@[simp] theorem Chip.setBoot_dict (c : Chip) (f : BootSt → BootSt) : (c.setBoot f).dict = c.dict := rfl
@[simp] theorem Chip.setBoot_held (c : Chip) (f : BootSt → BootSt) : (c.setBoot f).held = c.held := rfl
@[simp] theorem Chip.setBoot_access (c : Chip) (f : BootSt → BootSt) : (c.setBoot f).access = c.access := rfl
@[simp] theorem Chip.setBoot_draws (c : Chip) (f : BootSt → BootSt) : (c.setBoot f).draws = c.draws := rfl
@[simp] theorem Chip.setBoot_root (c : Chip) (f : BootSt → BootSt) : (c.setBoot f).root = c.root := rfl
@[simp] theorem Chip.setBoot_tb (c : Chip) (f : BootSt → BootSt) : (c.setBoot f).tb = c.tb := rfl
@[simp] theorem Chip.setBoot_ev (c : Chip) (f : BootSt → BootSt) : (c.setBoot f).ev = c.ev := rfl
@[simp] theorem Chip.setBoot_pwr (c : Chip) (f : BootSt → BootSt) : (c.setBoot f).pwr = c.pwr := rfl
@[simp] theorem Chip.setBoot_ports (c : Chip) (f : BootSt → BootSt) : (c.setBoot f).ports = c.ports := rfl
@[simp] theorem Chip.setBoot_pes (c : Chip) (f : BootSt → BootSt) : (c.setBoot f).pes = c.pes := rfl
@[simp] theorem Chip.setBoot_anc (c : Chip) (f : BootSt → BootSt) : (c.setBoot f).anc = c.anc := rfl
@[simp] theorem Chip.setBoot_diag (c : Chip) (f : BootSt → BootSt) : (c.setBoot f).diag = c.diag := rfl
@[simp] theorem Chip.setBoot_host (c : Chip) (f : BootSt → BootSt) : (c.setBoot f).host = c.host := rfl
@[simp] theorem Chip.setBoot_hlane (c : Chip) (f : BootSt → BootSt) : (c.setBoot f).hlane = c.hlane := rfl
@[simp] theorem Chip.setBoot_time (c : Chip) (f : BootSt → BootSt) : (c.setBoot f).time = c.time := rfl
@[simp] theorem Chip.setBoot_sched (c : Chip) (f : BootSt → BootSt) : (c.setBoot f).sched = c.sched := rfl
@[simp] theorem Chip.setBoot_queues (c : Chip) (f : BootSt → BootSt) : (c.setBoot f).queues = c.queues := rfl
@[simp] theorem Chip.setBoot_frameNo (c : Chip) (f : BootSt → BootSt) : (c.setBoot f).frameNo = c.frameNo := rfl
@[simp] theorem Chip.setBoot_flowSh (c : Chip) (f : BootSt → BootSt) : (c.setBoot f).flowSh = c.flowSh := rfl
@[simp] theorem Chip.setBoot_svcSh (c : Chip) (f : BootSt → BootSt) : (c.setBoot f).svcSh = c.svcSh := rfl
@[simp] theorem Chip.setBoot_portSh (c : Chip) (f : BootSt → BootSt) : (c.setBoot f).portSh = c.portSh := rfl
@[simp] theorem Chip.setBoot_meters (c : Chip) (f : BootSt → BootSt) : (c.setBoot f).meters = c.meters := rfl
@[simp] theorem Chip.setBoot_buf (c : Chip) (f : BootSt → BootSt) : (c.setBoot f).buf = c.buf := rfl
@[simp] theorem Chip.setBoot_wale (c : Chip) (f : BootSt → BootSt) : (c.setBoot f).wale = c.wale := rfl
@[simp] theorem Chip.setBoot_dap (c : Chip) (f : BootSt → BootSt) : (c.setBoot f).dap = c.dap := rfl
@[simp] theorem Chip.setBoot_cal (c : Chip) (f : BootSt → BootSt) : (c.setBoot f).cal = c.cal := rfl
@[simp] theorem Chip.setBoot_bist (c : Chip) (f : BootSt → BootSt) : (c.setBoot f).bist = c.bist := rfl
@[simp] theorem Chip.setBoot_cfg (c : Chip) (f : BootSt → BootSt) : (c.setBoot f).cfg = c.cfg := rfl
@[simp] theorem Chip.setBoot_nv (c : Chip) (f : BootSt → BootSt) : (c.setBoot f).nv = c.nv := rfl

@[simp] theorem Chip.setDiag_dict (c : Chip) (f : DiagSt → DiagSt) : (c.setDiag f).dict = c.dict := rfl
@[simp] theorem Chip.setDiag_held (c : Chip) (f : DiagSt → DiagSt) : (c.setDiag f).held = c.held := rfl
@[simp] theorem Chip.setDiag_access (c : Chip) (f : DiagSt → DiagSt) : (c.setDiag f).access = c.access := rfl
@[simp] theorem Chip.setDiag_draws (c : Chip) (f : DiagSt → DiagSt) : (c.setDiag f).draws = c.draws := rfl
@[simp] theorem Chip.setDiag_root (c : Chip) (f : DiagSt → DiagSt) : (c.setDiag f).root = c.root := rfl
@[simp] theorem Chip.setDiag_tb (c : Chip) (f : DiagSt → DiagSt) : (c.setDiag f).tb = c.tb := rfl
@[simp] theorem Chip.setDiag_ev (c : Chip) (f : DiagSt → DiagSt) : (c.setDiag f).ev = c.ev := rfl
@[simp] theorem Chip.setDiag_pwr (c : Chip) (f : DiagSt → DiagSt) : (c.setDiag f).pwr = c.pwr := rfl
@[simp] theorem Chip.setDiag_ports (c : Chip) (f : DiagSt → DiagSt) : (c.setDiag f).ports = c.ports := rfl
@[simp] theorem Chip.setDiag_pes (c : Chip) (f : DiagSt → DiagSt) : (c.setDiag f).pes = c.pes := rfl
@[simp] theorem Chip.setDiag_anc (c : Chip) (f : DiagSt → DiagSt) : (c.setDiag f).anc = c.anc := rfl
@[simp] theorem Chip.setDiag_host (c : Chip) (f : DiagSt → DiagSt) : (c.setDiag f).host = c.host := rfl
@[simp] theorem Chip.setDiag_hlane (c : Chip) (f : DiagSt → DiagSt) : (c.setDiag f).hlane = c.hlane := rfl
@[simp] theorem Chip.setDiag_time (c : Chip) (f : DiagSt → DiagSt) : (c.setDiag f).time = c.time := rfl
@[simp] theorem Chip.setDiag_sched (c : Chip) (f : DiagSt → DiagSt) : (c.setDiag f).sched = c.sched := rfl
@[simp] theorem Chip.setDiag_queues (c : Chip) (f : DiagSt → DiagSt) : (c.setDiag f).queues = c.queues := rfl
@[simp] theorem Chip.setDiag_frameNo (c : Chip) (f : DiagSt → DiagSt) : (c.setDiag f).frameNo = c.frameNo := rfl
@[simp] theorem Chip.setDiag_flowSh (c : Chip) (f : DiagSt → DiagSt) : (c.setDiag f).flowSh = c.flowSh := rfl
@[simp] theorem Chip.setDiag_svcSh (c : Chip) (f : DiagSt → DiagSt) : (c.setDiag f).svcSh = c.svcSh := rfl
@[simp] theorem Chip.setDiag_portSh (c : Chip) (f : DiagSt → DiagSt) : (c.setDiag f).portSh = c.portSh := rfl
@[simp] theorem Chip.setDiag_meters (c : Chip) (f : DiagSt → DiagSt) : (c.setDiag f).meters = c.meters := rfl
@[simp] theorem Chip.setDiag_buf (c : Chip) (f : DiagSt → DiagSt) : (c.setDiag f).buf = c.buf := rfl
@[simp] theorem Chip.setDiag_wale (c : Chip) (f : DiagSt → DiagSt) : (c.setDiag f).wale = c.wale := rfl
@[simp] theorem Chip.setDiag_dap (c : Chip) (f : DiagSt → DiagSt) : (c.setDiag f).dap = c.dap := rfl
@[simp] theorem Chip.setDiag_cal (c : Chip) (f : DiagSt → DiagSt) : (c.setDiag f).cal = c.cal := rfl
@[simp] theorem Chip.setDiag_bist (c : Chip) (f : DiagSt → DiagSt) : (c.setDiag f).bist = c.bist := rfl
@[simp] theorem Chip.setDiag_boot (c : Chip) (f : DiagSt → DiagSt) : (c.setDiag f).boot = c.boot := rfl
@[simp] theorem Chip.setDiag_cfg (c : Chip) (f : DiagSt → DiagSt) : (c.setDiag f).cfg = c.cfg := rfl
@[simp] theorem Chip.setDiag_nv (c : Chip) (f : DiagSt → DiagSt) : (c.setDiag f).nv = c.nv := rfl

@[simp] theorem Chip.setHost_dict (c : Chip) (p : Nat) (f : HostSt → HostSt) : (c.setHost p f).dict = c.dict := rfl
@[simp] theorem Chip.setHost_held (c : Chip) (p : Nat) (f : HostSt → HostSt) : (c.setHost p f).held = c.held := rfl
@[simp] theorem Chip.setHost_access (c : Chip) (p : Nat) (f : HostSt → HostSt) : (c.setHost p f).access = c.access := rfl
@[simp] theorem Chip.setHost_draws (c : Chip) (p : Nat) (f : HostSt → HostSt) : (c.setHost p f).draws = c.draws := rfl
@[simp] theorem Chip.setHost_root (c : Chip) (p : Nat) (f : HostSt → HostSt) : (c.setHost p f).root = c.root := rfl
@[simp] theorem Chip.setHost_tb (c : Chip) (p : Nat) (f : HostSt → HostSt) : (c.setHost p f).tb = c.tb := rfl
@[simp] theorem Chip.setHost_ev (c : Chip) (p : Nat) (f : HostSt → HostSt) : (c.setHost p f).ev = c.ev := rfl
@[simp] theorem Chip.setHost_pwr (c : Chip) (p : Nat) (f : HostSt → HostSt) : (c.setHost p f).pwr = c.pwr := rfl
@[simp] theorem Chip.setHost_ports (c : Chip) (p : Nat) (f : HostSt → HostSt) : (c.setHost p f).ports = c.ports := rfl
@[simp] theorem Chip.setHost_pes (c : Chip) (p : Nat) (f : HostSt → HostSt) : (c.setHost p f).pes = c.pes := rfl
@[simp] theorem Chip.setHost_anc (c : Chip) (p : Nat) (f : HostSt → HostSt) : (c.setHost p f).anc = c.anc := rfl
@[simp] theorem Chip.setHost_diag (c : Chip) (p : Nat) (f : HostSt → HostSt) : (c.setHost p f).diag = c.diag := rfl
@[simp] theorem Chip.setHost_hlane (c : Chip) (p : Nat) (f : HostSt → HostSt) : (c.setHost p f).hlane = c.hlane := rfl
@[simp] theorem Chip.setHost_time (c : Chip) (p : Nat) (f : HostSt → HostSt) : (c.setHost p f).time = c.time := rfl
@[simp] theorem Chip.setHost_sched (c : Chip) (p : Nat) (f : HostSt → HostSt) : (c.setHost p f).sched = c.sched := rfl
@[simp] theorem Chip.setHost_queues (c : Chip) (p : Nat) (f : HostSt → HostSt) : (c.setHost p f).queues = c.queues := rfl
@[simp] theorem Chip.setHost_frameNo (c : Chip) (p : Nat) (f : HostSt → HostSt) : (c.setHost p f).frameNo = c.frameNo := rfl
@[simp] theorem Chip.setHost_flowSh (c : Chip) (p : Nat) (f : HostSt → HostSt) : (c.setHost p f).flowSh = c.flowSh := rfl
@[simp] theorem Chip.setHost_svcSh (c : Chip) (p : Nat) (f : HostSt → HostSt) : (c.setHost p f).svcSh = c.svcSh := rfl
@[simp] theorem Chip.setHost_portSh (c : Chip) (p : Nat) (f : HostSt → HostSt) : (c.setHost p f).portSh = c.portSh := rfl
@[simp] theorem Chip.setHost_meters (c : Chip) (p : Nat) (f : HostSt → HostSt) : (c.setHost p f).meters = c.meters := rfl
@[simp] theorem Chip.setHost_buf (c : Chip) (p : Nat) (f : HostSt → HostSt) : (c.setHost p f).buf = c.buf := rfl
@[simp] theorem Chip.setHost_wale (c : Chip) (p : Nat) (f : HostSt → HostSt) : (c.setHost p f).wale = c.wale := rfl
@[simp] theorem Chip.setHost_dap (c : Chip) (p : Nat) (f : HostSt → HostSt) : (c.setHost p f).dap = c.dap := rfl
@[simp] theorem Chip.setHost_cal (c : Chip) (p : Nat) (f : HostSt → HostSt) : (c.setHost p f).cal = c.cal := rfl
@[simp] theorem Chip.setHost_bist (c : Chip) (p : Nat) (f : HostSt → HostSt) : (c.setHost p f).bist = c.bist := rfl
@[simp] theorem Chip.setHost_boot (c : Chip) (p : Nat) (f : HostSt → HostSt) : (c.setHost p f).boot = c.boot := rfl
@[simp] theorem Chip.setHost_cfg (c : Chip) (p : Nat) (f : HostSt → HostSt) : (c.setHost p f).cfg = c.cfg := rfl
@[simp] theorem Chip.setHost_nv (c : Chip) (p : Nat) (f : HostSt → HostSt) : (c.setHost p f).nv = c.nv := rfl

@[simp] theorem Chip.setLane_dict (c : Chip) (p : Nat) (f : LaneSt → LaneSt) : (c.setLane p f).dict = c.dict := rfl
@[simp] theorem Chip.setLane_held (c : Chip) (p : Nat) (f : LaneSt → LaneSt) : (c.setLane p f).held = c.held := rfl
@[simp] theorem Chip.setLane_access (c : Chip) (p : Nat) (f : LaneSt → LaneSt) : (c.setLane p f).access = c.access := rfl
@[simp] theorem Chip.setLane_draws (c : Chip) (p : Nat) (f : LaneSt → LaneSt) : (c.setLane p f).draws = c.draws := rfl
@[simp] theorem Chip.setLane_root (c : Chip) (p : Nat) (f : LaneSt → LaneSt) : (c.setLane p f).root = c.root := rfl
@[simp] theorem Chip.setLane_tb (c : Chip) (p : Nat) (f : LaneSt → LaneSt) : (c.setLane p f).tb = c.tb := rfl
@[simp] theorem Chip.setLane_ev (c : Chip) (p : Nat) (f : LaneSt → LaneSt) : (c.setLane p f).ev = c.ev := rfl
@[simp] theorem Chip.setLane_pwr (c : Chip) (p : Nat) (f : LaneSt → LaneSt) : (c.setLane p f).pwr = c.pwr := rfl
@[simp] theorem Chip.setLane_ports (c : Chip) (p : Nat) (f : LaneSt → LaneSt) : (c.setLane p f).ports = c.ports := rfl
@[simp] theorem Chip.setLane_pes (c : Chip) (p : Nat) (f : LaneSt → LaneSt) : (c.setLane p f).pes = c.pes := rfl
@[simp] theorem Chip.setLane_anc (c : Chip) (p : Nat) (f : LaneSt → LaneSt) : (c.setLane p f).anc = c.anc := rfl
@[simp] theorem Chip.setLane_diag (c : Chip) (p : Nat) (f : LaneSt → LaneSt) : (c.setLane p f).diag = c.diag := rfl
@[simp] theorem Chip.setLane_host (c : Chip) (p : Nat) (f : LaneSt → LaneSt) : (c.setLane p f).host = c.host := rfl
@[simp] theorem Chip.setLane_time (c : Chip) (p : Nat) (f : LaneSt → LaneSt) : (c.setLane p f).time = c.time := rfl
@[simp] theorem Chip.setLane_sched (c : Chip) (p : Nat) (f : LaneSt → LaneSt) : (c.setLane p f).sched = c.sched := rfl
@[simp] theorem Chip.setLane_queues (c : Chip) (p : Nat) (f : LaneSt → LaneSt) : (c.setLane p f).queues = c.queues := rfl
@[simp] theorem Chip.setLane_frameNo (c : Chip) (p : Nat) (f : LaneSt → LaneSt) : (c.setLane p f).frameNo = c.frameNo := rfl
@[simp] theorem Chip.setLane_flowSh (c : Chip) (p : Nat) (f : LaneSt → LaneSt) : (c.setLane p f).flowSh = c.flowSh := rfl
@[simp] theorem Chip.setLane_svcSh (c : Chip) (p : Nat) (f : LaneSt → LaneSt) : (c.setLane p f).svcSh = c.svcSh := rfl
@[simp] theorem Chip.setLane_portSh (c : Chip) (p : Nat) (f : LaneSt → LaneSt) : (c.setLane p f).portSh = c.portSh := rfl
@[simp] theorem Chip.setLane_meters (c : Chip) (p : Nat) (f : LaneSt → LaneSt) : (c.setLane p f).meters = c.meters := rfl
@[simp] theorem Chip.setLane_buf (c : Chip) (p : Nat) (f : LaneSt → LaneSt) : (c.setLane p f).buf = c.buf := rfl
@[simp] theorem Chip.setLane_wale (c : Chip) (p : Nat) (f : LaneSt → LaneSt) : (c.setLane p f).wale = c.wale := rfl
@[simp] theorem Chip.setLane_dap (c : Chip) (p : Nat) (f : LaneSt → LaneSt) : (c.setLane p f).dap = c.dap := rfl
@[simp] theorem Chip.setLane_cal (c : Chip) (p : Nat) (f : LaneSt → LaneSt) : (c.setLane p f).cal = c.cal := rfl
@[simp] theorem Chip.setLane_bist (c : Chip) (p : Nat) (f : LaneSt → LaneSt) : (c.setLane p f).bist = c.bist := rfl
@[simp] theorem Chip.setLane_boot (c : Chip) (p : Nat) (f : LaneSt → LaneSt) : (c.setLane p f).boot = c.boot := rfl
@[simp] theorem Chip.setLane_cfg (c : Chip) (p : Nat) (f : LaneSt → LaneSt) : (c.setLane p f).cfg = c.cfg := rfl
@[simp] theorem Chip.setLane_nv (c : Chip) (p : Nat) (f : LaneSt → LaneSt) : (c.setLane p f).nv = c.nv := rfl

@[simp] theorem Chip.setTime_dict (c : Chip) (f : TimeSt → TimeSt) : (c.setTime f).dict = c.dict := rfl
@[simp] theorem Chip.setTime_held (c : Chip) (f : TimeSt → TimeSt) : (c.setTime f).held = c.held := rfl
@[simp] theorem Chip.setTime_access (c : Chip) (f : TimeSt → TimeSt) : (c.setTime f).access = c.access := rfl
@[simp] theorem Chip.setTime_draws (c : Chip) (f : TimeSt → TimeSt) : (c.setTime f).draws = c.draws := rfl
@[simp] theorem Chip.setTime_root (c : Chip) (f : TimeSt → TimeSt) : (c.setTime f).root = c.root := rfl
@[simp] theorem Chip.setTime_tb (c : Chip) (f : TimeSt → TimeSt) : (c.setTime f).tb = c.tb := rfl
@[simp] theorem Chip.setTime_ev (c : Chip) (f : TimeSt → TimeSt) : (c.setTime f).ev = c.ev := rfl
@[simp] theorem Chip.setTime_pwr (c : Chip) (f : TimeSt → TimeSt) : (c.setTime f).pwr = c.pwr := rfl
@[simp] theorem Chip.setTime_ports (c : Chip) (f : TimeSt → TimeSt) : (c.setTime f).ports = c.ports := rfl
@[simp] theorem Chip.setTime_pes (c : Chip) (f : TimeSt → TimeSt) : (c.setTime f).pes = c.pes := rfl
@[simp] theorem Chip.setTime_anc (c : Chip) (f : TimeSt → TimeSt) : (c.setTime f).anc = c.anc := rfl
@[simp] theorem Chip.setTime_diag (c : Chip) (f : TimeSt → TimeSt) : (c.setTime f).diag = c.diag := rfl
@[simp] theorem Chip.setTime_host (c : Chip) (f : TimeSt → TimeSt) : (c.setTime f).host = c.host := rfl
@[simp] theorem Chip.setTime_hlane (c : Chip) (f : TimeSt → TimeSt) : (c.setTime f).hlane = c.hlane := rfl
@[simp] theorem Chip.setTime_sched (c : Chip) (f : TimeSt → TimeSt) : (c.setTime f).sched = c.sched := rfl
@[simp] theorem Chip.setTime_queues (c : Chip) (f : TimeSt → TimeSt) : (c.setTime f).queues = c.queues := rfl
@[simp] theorem Chip.setTime_frameNo (c : Chip) (f : TimeSt → TimeSt) : (c.setTime f).frameNo = c.frameNo := rfl
@[simp] theorem Chip.setTime_flowSh (c : Chip) (f : TimeSt → TimeSt) : (c.setTime f).flowSh = c.flowSh := rfl
@[simp] theorem Chip.setTime_svcSh (c : Chip) (f : TimeSt → TimeSt) : (c.setTime f).svcSh = c.svcSh := rfl
@[simp] theorem Chip.setTime_portSh (c : Chip) (f : TimeSt → TimeSt) : (c.setTime f).portSh = c.portSh := rfl
@[simp] theorem Chip.setTime_meters (c : Chip) (f : TimeSt → TimeSt) : (c.setTime f).meters = c.meters := rfl
@[simp] theorem Chip.setTime_buf (c : Chip) (f : TimeSt → TimeSt) : (c.setTime f).buf = c.buf := rfl
@[simp] theorem Chip.setTime_wale (c : Chip) (f : TimeSt → TimeSt) : (c.setTime f).wale = c.wale := rfl
@[simp] theorem Chip.setTime_dap (c : Chip) (f : TimeSt → TimeSt) : (c.setTime f).dap = c.dap := rfl
@[simp] theorem Chip.setTime_cal (c : Chip) (f : TimeSt → TimeSt) : (c.setTime f).cal = c.cal := rfl
@[simp] theorem Chip.setTime_bist (c : Chip) (f : TimeSt → TimeSt) : (c.setTime f).bist = c.bist := rfl
@[simp] theorem Chip.setTime_boot (c : Chip) (f : TimeSt → TimeSt) : (c.setTime f).boot = c.boot := rfl
@[simp] theorem Chip.setTime_cfg (c : Chip) (f : TimeSt → TimeSt) : (c.setTime f).cfg = c.cfg := rfl
@[simp] theorem Chip.setTime_nv (c : Chip) (f : TimeSt → TimeSt) : (c.setTime f).nv = c.nv := rfl

@[simp] theorem Chip.setSch_dict (c : Chip) (p : Nat) (f : SchedSt → SchedSt) : (c.setSch p f).dict = c.dict := rfl
@[simp] theorem Chip.setSch_held (c : Chip) (p : Nat) (f : SchedSt → SchedSt) : (c.setSch p f).held = c.held := rfl
@[simp] theorem Chip.setSch_access (c : Chip) (p : Nat) (f : SchedSt → SchedSt) : (c.setSch p f).access = c.access := rfl
@[simp] theorem Chip.setSch_draws (c : Chip) (p : Nat) (f : SchedSt → SchedSt) : (c.setSch p f).draws = c.draws := rfl
@[simp] theorem Chip.setSch_root (c : Chip) (p : Nat) (f : SchedSt → SchedSt) : (c.setSch p f).root = c.root := rfl
@[simp] theorem Chip.setSch_tb (c : Chip) (p : Nat) (f : SchedSt → SchedSt) : (c.setSch p f).tb = c.tb := rfl
@[simp] theorem Chip.setSch_ev (c : Chip) (p : Nat) (f : SchedSt → SchedSt) : (c.setSch p f).ev = c.ev := rfl
@[simp] theorem Chip.setSch_pwr (c : Chip) (p : Nat) (f : SchedSt → SchedSt) : (c.setSch p f).pwr = c.pwr := rfl
@[simp] theorem Chip.setSch_ports (c : Chip) (p : Nat) (f : SchedSt → SchedSt) : (c.setSch p f).ports = c.ports := rfl
@[simp] theorem Chip.setSch_pes (c : Chip) (p : Nat) (f : SchedSt → SchedSt) : (c.setSch p f).pes = c.pes := rfl
@[simp] theorem Chip.setSch_anc (c : Chip) (p : Nat) (f : SchedSt → SchedSt) : (c.setSch p f).anc = c.anc := rfl
@[simp] theorem Chip.setSch_diag (c : Chip) (p : Nat) (f : SchedSt → SchedSt) : (c.setSch p f).diag = c.diag := rfl
@[simp] theorem Chip.setSch_host (c : Chip) (p : Nat) (f : SchedSt → SchedSt) : (c.setSch p f).host = c.host := rfl
@[simp] theorem Chip.setSch_hlane (c : Chip) (p : Nat) (f : SchedSt → SchedSt) : (c.setSch p f).hlane = c.hlane := rfl
@[simp] theorem Chip.setSch_time (c : Chip) (p : Nat) (f : SchedSt → SchedSt) : (c.setSch p f).time = c.time := rfl
@[simp] theorem Chip.setSch_queues (c : Chip) (p : Nat) (f : SchedSt → SchedSt) : (c.setSch p f).queues = c.queues := rfl
@[simp] theorem Chip.setSch_frameNo (c : Chip) (p : Nat) (f : SchedSt → SchedSt) : (c.setSch p f).frameNo = c.frameNo := rfl
@[simp] theorem Chip.setSch_flowSh (c : Chip) (p : Nat) (f : SchedSt → SchedSt) : (c.setSch p f).flowSh = c.flowSh := rfl
@[simp] theorem Chip.setSch_svcSh (c : Chip) (p : Nat) (f : SchedSt → SchedSt) : (c.setSch p f).svcSh = c.svcSh := rfl
@[simp] theorem Chip.setSch_portSh (c : Chip) (p : Nat) (f : SchedSt → SchedSt) : (c.setSch p f).portSh = c.portSh := rfl
@[simp] theorem Chip.setSch_meters (c : Chip) (p : Nat) (f : SchedSt → SchedSt) : (c.setSch p f).meters = c.meters := rfl
@[simp] theorem Chip.setSch_buf (c : Chip) (p : Nat) (f : SchedSt → SchedSt) : (c.setSch p f).buf = c.buf := rfl
@[simp] theorem Chip.setSch_wale (c : Chip) (p : Nat) (f : SchedSt → SchedSt) : (c.setSch p f).wale = c.wale := rfl
@[simp] theorem Chip.setSch_dap (c : Chip) (p : Nat) (f : SchedSt → SchedSt) : (c.setSch p f).dap = c.dap := rfl
@[simp] theorem Chip.setSch_cal (c : Chip) (p : Nat) (f : SchedSt → SchedSt) : (c.setSch p f).cal = c.cal := rfl
@[simp] theorem Chip.setSch_bist (c : Chip) (p : Nat) (f : SchedSt → SchedSt) : (c.setSch p f).bist = c.bist := rfl
@[simp] theorem Chip.setSch_boot (c : Chip) (p : Nat) (f : SchedSt → SchedSt) : (c.setSch p f).boot = c.boot := rfl
@[simp] theorem Chip.setSch_cfg (c : Chip) (p : Nat) (f : SchedSt → SchedSt) : (c.setSch p f).cfg = c.cfg := rfl
@[simp] theorem Chip.setSch_nv (c : Chip) (p : Nat) (f : SchedSt → SchedSt) : (c.setSch p f).nv = c.nv := rfl

@[simp] theorem Chip.setQueue_dict (c : Chip) (q : Nat) (l : List Frame) : (c.setQueue q l).dict = c.dict := rfl
@[simp] theorem Chip.setQueue_held (c : Chip) (q : Nat) (l : List Frame) : (c.setQueue q l).held = c.held := rfl
@[simp] theorem Chip.setQueue_access (c : Chip) (q : Nat) (l : List Frame) : (c.setQueue q l).access = c.access := rfl
@[simp] theorem Chip.setQueue_draws (c : Chip) (q : Nat) (l : List Frame) : (c.setQueue q l).draws = c.draws := rfl
@[simp] theorem Chip.setQueue_root (c : Chip) (q : Nat) (l : List Frame) : (c.setQueue q l).root = c.root := rfl
@[simp] theorem Chip.setQueue_tb (c : Chip) (q : Nat) (l : List Frame) : (c.setQueue q l).tb = c.tb := rfl
@[simp] theorem Chip.setQueue_ev (c : Chip) (q : Nat) (l : List Frame) : (c.setQueue q l).ev = c.ev := rfl
@[simp] theorem Chip.setQueue_pwr (c : Chip) (q : Nat) (l : List Frame) : (c.setQueue q l).pwr = c.pwr := rfl
@[simp] theorem Chip.setQueue_ports (c : Chip) (q : Nat) (l : List Frame) : (c.setQueue q l).ports = c.ports := rfl
@[simp] theorem Chip.setQueue_pes (c : Chip) (q : Nat) (l : List Frame) : (c.setQueue q l).pes = c.pes := rfl
@[simp] theorem Chip.setQueue_anc (c : Chip) (q : Nat) (l : List Frame) : (c.setQueue q l).anc = c.anc := rfl
@[simp] theorem Chip.setQueue_diag (c : Chip) (q : Nat) (l : List Frame) : (c.setQueue q l).diag = c.diag := rfl
@[simp] theorem Chip.setQueue_host (c : Chip) (q : Nat) (l : List Frame) : (c.setQueue q l).host = c.host := rfl
@[simp] theorem Chip.setQueue_hlane (c : Chip) (q : Nat) (l : List Frame) : (c.setQueue q l).hlane = c.hlane := rfl
@[simp] theorem Chip.setQueue_time (c : Chip) (q : Nat) (l : List Frame) : (c.setQueue q l).time = c.time := rfl
@[simp] theorem Chip.setQueue_sched (c : Chip) (q : Nat) (l : List Frame) : (c.setQueue q l).sched = c.sched := rfl
@[simp] theorem Chip.setQueue_frameNo (c : Chip) (q : Nat) (l : List Frame) : (c.setQueue q l).frameNo = c.frameNo := rfl
@[simp] theorem Chip.setQueue_flowSh (c : Chip) (q : Nat) (l : List Frame) : (c.setQueue q l).flowSh = c.flowSh := rfl
@[simp] theorem Chip.setQueue_svcSh (c : Chip) (q : Nat) (l : List Frame) : (c.setQueue q l).svcSh = c.svcSh := rfl
@[simp] theorem Chip.setQueue_portSh (c : Chip) (q : Nat) (l : List Frame) : (c.setQueue q l).portSh = c.portSh := rfl
@[simp] theorem Chip.setQueue_meters (c : Chip) (q : Nat) (l : List Frame) : (c.setQueue q l).meters = c.meters := rfl
@[simp] theorem Chip.setQueue_buf (c : Chip) (q : Nat) (l : List Frame) : (c.setQueue q l).buf = c.buf := rfl
@[simp] theorem Chip.setQueue_wale (c : Chip) (q : Nat) (l : List Frame) : (c.setQueue q l).wale = c.wale := rfl
@[simp] theorem Chip.setQueue_dap (c : Chip) (q : Nat) (l : List Frame) : (c.setQueue q l).dap = c.dap := rfl
@[simp] theorem Chip.setQueue_cal (c : Chip) (q : Nat) (l : List Frame) : (c.setQueue q l).cal = c.cal := rfl
@[simp] theorem Chip.setQueue_bist (c : Chip) (q : Nat) (l : List Frame) : (c.setQueue q l).bist = c.bist := rfl
@[simp] theorem Chip.setQueue_boot (c : Chip) (q : Nat) (l : List Frame) : (c.setQueue q l).boot = c.boot := rfl
@[simp] theorem Chip.setQueue_cfg (c : Chip) (q : Nat) (l : List Frame) : (c.setQueue q l).cfg = c.cfg := rfl
@[simp] theorem Chip.setQueue_nv (c : Chip) (q : Nat) (l : List Frame) : (c.setQueue q l).nv = c.nv := rfl

@[simp] theorem Chip.setPwr_dict (c : Chip) (f : PowerSt → PowerSt) : (c.setPwr f).dict = c.dict := rfl
@[simp] theorem Chip.setPwr_held (c : Chip) (f : PowerSt → PowerSt) : (c.setPwr f).held = c.held := rfl
@[simp] theorem Chip.setPwr_access (c : Chip) (f : PowerSt → PowerSt) : (c.setPwr f).access = c.access := rfl
@[simp] theorem Chip.setPwr_draws (c : Chip) (f : PowerSt → PowerSt) : (c.setPwr f).draws = c.draws := rfl
@[simp] theorem Chip.setPwr_root (c : Chip) (f : PowerSt → PowerSt) : (c.setPwr f).root = c.root := rfl
@[simp] theorem Chip.setPwr_tb (c : Chip) (f : PowerSt → PowerSt) : (c.setPwr f).tb = c.tb := rfl
@[simp] theorem Chip.setPwr_ev (c : Chip) (f : PowerSt → PowerSt) : (c.setPwr f).ev = c.ev := rfl
@[simp] theorem Chip.setPwr_ports (c : Chip) (f : PowerSt → PowerSt) : (c.setPwr f).ports = c.ports := rfl
@[simp] theorem Chip.setPwr_pes (c : Chip) (f : PowerSt → PowerSt) : (c.setPwr f).pes = c.pes := rfl
@[simp] theorem Chip.setPwr_anc (c : Chip) (f : PowerSt → PowerSt) : (c.setPwr f).anc = c.anc := rfl
@[simp] theorem Chip.setPwr_diag (c : Chip) (f : PowerSt → PowerSt) : (c.setPwr f).diag = c.diag := rfl
@[simp] theorem Chip.setPwr_host (c : Chip) (f : PowerSt → PowerSt) : (c.setPwr f).host = c.host := rfl
@[simp] theorem Chip.setPwr_hlane (c : Chip) (f : PowerSt → PowerSt) : (c.setPwr f).hlane = c.hlane := rfl
@[simp] theorem Chip.setPwr_time (c : Chip) (f : PowerSt → PowerSt) : (c.setPwr f).time = c.time := rfl
@[simp] theorem Chip.setPwr_sched (c : Chip) (f : PowerSt → PowerSt) : (c.setPwr f).sched = c.sched := rfl
@[simp] theorem Chip.setPwr_queues (c : Chip) (f : PowerSt → PowerSt) : (c.setPwr f).queues = c.queues := rfl
@[simp] theorem Chip.setPwr_frameNo (c : Chip) (f : PowerSt → PowerSt) : (c.setPwr f).frameNo = c.frameNo := rfl
@[simp] theorem Chip.setPwr_flowSh (c : Chip) (f : PowerSt → PowerSt) : (c.setPwr f).flowSh = c.flowSh := rfl
@[simp] theorem Chip.setPwr_svcSh (c : Chip) (f : PowerSt → PowerSt) : (c.setPwr f).svcSh = c.svcSh := rfl
@[simp] theorem Chip.setPwr_portSh (c : Chip) (f : PowerSt → PowerSt) : (c.setPwr f).portSh = c.portSh := rfl
@[simp] theorem Chip.setPwr_meters (c : Chip) (f : PowerSt → PowerSt) : (c.setPwr f).meters = c.meters := rfl
@[simp] theorem Chip.setPwr_buf (c : Chip) (f : PowerSt → PowerSt) : (c.setPwr f).buf = c.buf := rfl
@[simp] theorem Chip.setPwr_wale (c : Chip) (f : PowerSt → PowerSt) : (c.setPwr f).wale = c.wale := rfl
@[simp] theorem Chip.setPwr_dap (c : Chip) (f : PowerSt → PowerSt) : (c.setPwr f).dap = c.dap := rfl
@[simp] theorem Chip.setPwr_cal (c : Chip) (f : PowerSt → PowerSt) : (c.setPwr f).cal = c.cal := rfl
@[simp] theorem Chip.setPwr_bist (c : Chip) (f : PowerSt → PowerSt) : (c.setPwr f).bist = c.bist := rfl
@[simp] theorem Chip.setPwr_boot (c : Chip) (f : PowerSt → PowerSt) : (c.setPwr f).boot = c.boot := rfl
@[simp] theorem Chip.setPwr_cfg (c : Chip) (f : PowerSt → PowerSt) : (c.setPwr f).cfg = c.cfg := rfl
@[simp] theorem Chip.setPwr_nv (c : Chip) (f : PowerSt → PowerSt) : (c.setPwr f).nv = c.nv := rfl

@[simp] theorem Chip.setCal_dict (c : Chip) (e : Nat) (f : CalSt → CalSt) : (c.setCal e f).dict = c.dict := rfl
@[simp] theorem Chip.setCal_held (c : Chip) (e : Nat) (f : CalSt → CalSt) : (c.setCal e f).held = c.held := rfl
@[simp] theorem Chip.setCal_access (c : Chip) (e : Nat) (f : CalSt → CalSt) : (c.setCal e f).access = c.access := rfl
@[simp] theorem Chip.setCal_draws (c : Chip) (e : Nat) (f : CalSt → CalSt) : (c.setCal e f).draws = c.draws := rfl
@[simp] theorem Chip.setCal_root (c : Chip) (e : Nat) (f : CalSt → CalSt) : (c.setCal e f).root = c.root := rfl
@[simp] theorem Chip.setCal_tb (c : Chip) (e : Nat) (f : CalSt → CalSt) : (c.setCal e f).tb = c.tb := rfl
@[simp] theorem Chip.setCal_ev (c : Chip) (e : Nat) (f : CalSt → CalSt) : (c.setCal e f).ev = c.ev := rfl
@[simp] theorem Chip.setCal_pwr (c : Chip) (e : Nat) (f : CalSt → CalSt) : (c.setCal e f).pwr = c.pwr := rfl
@[simp] theorem Chip.setCal_ports (c : Chip) (e : Nat) (f : CalSt → CalSt) : (c.setCal e f).ports = c.ports := rfl
@[simp] theorem Chip.setCal_pes (c : Chip) (e : Nat) (f : CalSt → CalSt) : (c.setCal e f).pes = c.pes := rfl
@[simp] theorem Chip.setCal_anc (c : Chip) (e : Nat) (f : CalSt → CalSt) : (c.setCal e f).anc = c.anc := rfl
@[simp] theorem Chip.setCal_diag (c : Chip) (e : Nat) (f : CalSt → CalSt) : (c.setCal e f).diag = c.diag := rfl
@[simp] theorem Chip.setCal_host (c : Chip) (e : Nat) (f : CalSt → CalSt) : (c.setCal e f).host = c.host := rfl
@[simp] theorem Chip.setCal_hlane (c : Chip) (e : Nat) (f : CalSt → CalSt) : (c.setCal e f).hlane = c.hlane := rfl
@[simp] theorem Chip.setCal_time (c : Chip) (e : Nat) (f : CalSt → CalSt) : (c.setCal e f).time = c.time := rfl
@[simp] theorem Chip.setCal_sched (c : Chip) (e : Nat) (f : CalSt → CalSt) : (c.setCal e f).sched = c.sched := rfl
@[simp] theorem Chip.setCal_queues (c : Chip) (e : Nat) (f : CalSt → CalSt) : (c.setCal e f).queues = c.queues := rfl
@[simp] theorem Chip.setCal_frameNo (c : Chip) (e : Nat) (f : CalSt → CalSt) : (c.setCal e f).frameNo = c.frameNo := rfl
@[simp] theorem Chip.setCal_flowSh (c : Chip) (e : Nat) (f : CalSt → CalSt) : (c.setCal e f).flowSh = c.flowSh := rfl
@[simp] theorem Chip.setCal_svcSh (c : Chip) (e : Nat) (f : CalSt → CalSt) : (c.setCal e f).svcSh = c.svcSh := rfl
@[simp] theorem Chip.setCal_portSh (c : Chip) (e : Nat) (f : CalSt → CalSt) : (c.setCal e f).portSh = c.portSh := rfl
@[simp] theorem Chip.setCal_meters (c : Chip) (e : Nat) (f : CalSt → CalSt) : (c.setCal e f).meters = c.meters := rfl
@[simp] theorem Chip.setCal_buf (c : Chip) (e : Nat) (f : CalSt → CalSt) : (c.setCal e f).buf = c.buf := rfl
@[simp] theorem Chip.setCal_wale (c : Chip) (e : Nat) (f : CalSt → CalSt) : (c.setCal e f).wale = c.wale := rfl
@[simp] theorem Chip.setCal_dap (c : Chip) (e : Nat) (f : CalSt → CalSt) : (c.setCal e f).dap = c.dap := rfl
@[simp] theorem Chip.setCal_bist (c : Chip) (e : Nat) (f : CalSt → CalSt) : (c.setCal e f).bist = c.bist := rfl
@[simp] theorem Chip.setCal_boot (c : Chip) (e : Nat) (f : CalSt → CalSt) : (c.setCal e f).boot = c.boot := rfl
@[simp] theorem Chip.setCal_cfg (c : Chip) (e : Nat) (f : CalSt → CalSt) : (c.setCal e f).cfg = c.cfg := rfl
@[simp] theorem Chip.setCal_nv (c : Chip) (e : Nat) (f : CalSt → CalSt) : (c.setCal e f).nv = c.nv := rfl

@[simp] theorem Chip.setWale_dict (c : Chip) (f : FabricSt → FabricSt) : (c.setWale f).dict = c.dict := rfl
@[simp] theorem Chip.setWale_held (c : Chip) (f : FabricSt → FabricSt) : (c.setWale f).held = c.held := rfl
@[simp] theorem Chip.setWale_access (c : Chip) (f : FabricSt → FabricSt) : (c.setWale f).access = c.access := rfl
@[simp] theorem Chip.setWale_draws (c : Chip) (f : FabricSt → FabricSt) : (c.setWale f).draws = c.draws := rfl
@[simp] theorem Chip.setWale_root (c : Chip) (f : FabricSt → FabricSt) : (c.setWale f).root = c.root := rfl
@[simp] theorem Chip.setWale_tb (c : Chip) (f : FabricSt → FabricSt) : (c.setWale f).tb = c.tb := rfl
@[simp] theorem Chip.setWale_ev (c : Chip) (f : FabricSt → FabricSt) : (c.setWale f).ev = c.ev := rfl
@[simp] theorem Chip.setWale_pwr (c : Chip) (f : FabricSt → FabricSt) : (c.setWale f).pwr = c.pwr := rfl
@[simp] theorem Chip.setWale_ports (c : Chip) (f : FabricSt → FabricSt) : (c.setWale f).ports = c.ports := rfl
@[simp] theorem Chip.setWale_pes (c : Chip) (f : FabricSt → FabricSt) : (c.setWale f).pes = c.pes := rfl
@[simp] theorem Chip.setWale_anc (c : Chip) (f : FabricSt → FabricSt) : (c.setWale f).anc = c.anc := rfl
@[simp] theorem Chip.setWale_diag (c : Chip) (f : FabricSt → FabricSt) : (c.setWale f).diag = c.diag := rfl
@[simp] theorem Chip.setWale_host (c : Chip) (f : FabricSt → FabricSt) : (c.setWale f).host = c.host := rfl
@[simp] theorem Chip.setWale_hlane (c : Chip) (f : FabricSt → FabricSt) : (c.setWale f).hlane = c.hlane := rfl
@[simp] theorem Chip.setWale_time (c : Chip) (f : FabricSt → FabricSt) : (c.setWale f).time = c.time := rfl
@[simp] theorem Chip.setWale_sched (c : Chip) (f : FabricSt → FabricSt) : (c.setWale f).sched = c.sched := rfl
@[simp] theorem Chip.setWale_queues (c : Chip) (f : FabricSt → FabricSt) : (c.setWale f).queues = c.queues := rfl
@[simp] theorem Chip.setWale_frameNo (c : Chip) (f : FabricSt → FabricSt) : (c.setWale f).frameNo = c.frameNo := rfl
@[simp] theorem Chip.setWale_flowSh (c : Chip) (f : FabricSt → FabricSt) : (c.setWale f).flowSh = c.flowSh := rfl
@[simp] theorem Chip.setWale_svcSh (c : Chip) (f : FabricSt → FabricSt) : (c.setWale f).svcSh = c.svcSh := rfl
@[simp] theorem Chip.setWale_portSh (c : Chip) (f : FabricSt → FabricSt) : (c.setWale f).portSh = c.portSh := rfl
@[simp] theorem Chip.setWale_meters (c : Chip) (f : FabricSt → FabricSt) : (c.setWale f).meters = c.meters := rfl
@[simp] theorem Chip.setWale_buf (c : Chip) (f : FabricSt → FabricSt) : (c.setWale f).buf = c.buf := rfl
@[simp] theorem Chip.setWale_dap (c : Chip) (f : FabricSt → FabricSt) : (c.setWale f).dap = c.dap := rfl
@[simp] theorem Chip.setWale_cal (c : Chip) (f : FabricSt → FabricSt) : (c.setWale f).cal = c.cal := rfl
@[simp] theorem Chip.setWale_bist (c : Chip) (f : FabricSt → FabricSt) : (c.setWale f).bist = c.bist := rfl
@[simp] theorem Chip.setWale_boot (c : Chip) (f : FabricSt → FabricSt) : (c.setWale f).boot = c.boot := rfl
@[simp] theorem Chip.setWale_cfg (c : Chip) (f : FabricSt → FabricSt) : (c.setWale f).cfg = c.cfg := rfl
@[simp] theorem Chip.setWale_nv (c : Chip) (f : FabricSt → FabricSt) : (c.setWale f).nv = c.nv := rfl

@[simp] theorem Chip.setWl_dict (c : Chip) (w : Nat) (f : WlSt → WlSt) : (c.setWl w f).dict = c.dict := rfl
@[simp] theorem Chip.setWl_held (c : Chip) (w : Nat) (f : WlSt → WlSt) : (c.setWl w f).held = c.held := rfl
@[simp] theorem Chip.setWl_access (c : Chip) (w : Nat) (f : WlSt → WlSt) : (c.setWl w f).access = c.access := rfl
@[simp] theorem Chip.setWl_draws (c : Chip) (w : Nat) (f : WlSt → WlSt) : (c.setWl w f).draws = c.draws := rfl
@[simp] theorem Chip.setWl_root (c : Chip) (w : Nat) (f : WlSt → WlSt) : (c.setWl w f).root = c.root := rfl
@[simp] theorem Chip.setWl_tb (c : Chip) (w : Nat) (f : WlSt → WlSt) : (c.setWl w f).tb = c.tb := rfl
@[simp] theorem Chip.setWl_ev (c : Chip) (w : Nat) (f : WlSt → WlSt) : (c.setWl w f).ev = c.ev := rfl
@[simp] theorem Chip.setWl_pwr (c : Chip) (w : Nat) (f : WlSt → WlSt) : (c.setWl w f).pwr = c.pwr := rfl
@[simp] theorem Chip.setWl_ports (c : Chip) (w : Nat) (f : WlSt → WlSt) : (c.setWl w f).ports = c.ports := rfl
@[simp] theorem Chip.setWl_pes (c : Chip) (w : Nat) (f : WlSt → WlSt) : (c.setWl w f).pes = c.pes := rfl
@[simp] theorem Chip.setWl_anc (c : Chip) (w : Nat) (f : WlSt → WlSt) : (c.setWl w f).anc = c.anc := rfl
@[simp] theorem Chip.setWl_diag (c : Chip) (w : Nat) (f : WlSt → WlSt) : (c.setWl w f).diag = c.diag := rfl
@[simp] theorem Chip.setWl_host (c : Chip) (w : Nat) (f : WlSt → WlSt) : (c.setWl w f).host = c.host := rfl
@[simp] theorem Chip.setWl_hlane (c : Chip) (w : Nat) (f : WlSt → WlSt) : (c.setWl w f).hlane = c.hlane := rfl
@[simp] theorem Chip.setWl_time (c : Chip) (w : Nat) (f : WlSt → WlSt) : (c.setWl w f).time = c.time := rfl
@[simp] theorem Chip.setWl_sched (c : Chip) (w : Nat) (f : WlSt → WlSt) : (c.setWl w f).sched = c.sched := rfl
@[simp] theorem Chip.setWl_queues (c : Chip) (w : Nat) (f : WlSt → WlSt) : (c.setWl w f).queues = c.queues := rfl
@[simp] theorem Chip.setWl_frameNo (c : Chip) (w : Nat) (f : WlSt → WlSt) : (c.setWl w f).frameNo = c.frameNo := rfl
@[simp] theorem Chip.setWl_flowSh (c : Chip) (w : Nat) (f : WlSt → WlSt) : (c.setWl w f).flowSh = c.flowSh := rfl
@[simp] theorem Chip.setWl_svcSh (c : Chip) (w : Nat) (f : WlSt → WlSt) : (c.setWl w f).svcSh = c.svcSh := rfl
@[simp] theorem Chip.setWl_portSh (c : Chip) (w : Nat) (f : WlSt → WlSt) : (c.setWl w f).portSh = c.portSh := rfl
@[simp] theorem Chip.setWl_meters (c : Chip) (w : Nat) (f : WlSt → WlSt) : (c.setWl w f).meters = c.meters := rfl
@[simp] theorem Chip.setWl_buf (c : Chip) (w : Nat) (f : WlSt → WlSt) : (c.setWl w f).buf = c.buf := rfl
@[simp] theorem Chip.setWl_dap (c : Chip) (w : Nat) (f : WlSt → WlSt) : (c.setWl w f).dap = c.dap := rfl
@[simp] theorem Chip.setWl_cal (c : Chip) (w : Nat) (f : WlSt → WlSt) : (c.setWl w f).cal = c.cal := rfl
@[simp] theorem Chip.setWl_bist (c : Chip) (w : Nat) (f : WlSt → WlSt) : (c.setWl w f).bist = c.bist := rfl
@[simp] theorem Chip.setWl_boot (c : Chip) (w : Nat) (f : WlSt → WlSt) : (c.setWl w f).boot = c.boot := rfl
@[simp] theorem Chip.setWl_cfg (c : Chip) (w : Nat) (f : WlSt → WlSt) : (c.setWl w f).cfg = c.cfg := rfl
@[simp] theorem Chip.setWl_nv (c : Chip) (w : Nat) (f : WlSt → WlSt) : (c.setWl w f).nv = c.nv := rfl

/-! A write of an object changes the dictionary only. -/

@[simp] theorem Chip.wrRow_held (c : Chip) (r : Reg) (i row v : Nat) : (c.wrRow r i row v).held = c.held := by
  unfold Chip.wrRow; simp only []; split <;> rfl
@[simp] theorem Chip.wrRow_access (c : Chip) (r : Reg) (i row v : Nat) : (c.wrRow r i row v).access = c.access := by
  unfold Chip.wrRow; simp only []; split <;> rfl
@[simp] theorem Chip.wrRow_draws (c : Chip) (r : Reg) (i row v : Nat) : (c.wrRow r i row v).draws = c.draws := by
  unfold Chip.wrRow; simp only []; split <;> rfl
@[simp] theorem Chip.wrRow_root (c : Chip) (r : Reg) (i row v : Nat) : (c.wrRow r i row v).root = c.root := by
  unfold Chip.wrRow; simp only []; split <;> rfl
@[simp] theorem Chip.wrRow_tb (c : Chip) (r : Reg) (i row v : Nat) : (c.wrRow r i row v).tb = c.tb := by
  unfold Chip.wrRow; simp only []; split <;> rfl
@[simp] theorem Chip.wrRow_ev (c : Chip) (r : Reg) (i row v : Nat) : (c.wrRow r i row v).ev = c.ev := by
  unfold Chip.wrRow; simp only []; split <;> rfl
@[simp] theorem Chip.wrRow_pwr (c : Chip) (r : Reg) (i row v : Nat) : (c.wrRow r i row v).pwr = c.pwr := by
  unfold Chip.wrRow; simp only []; split <;> rfl
@[simp] theorem Chip.wrRow_ports (c : Chip) (r : Reg) (i row v : Nat) : (c.wrRow r i row v).ports = c.ports := by
  unfold Chip.wrRow; simp only []; split <;> rfl
@[simp] theorem Chip.wrRow_pes (c : Chip) (r : Reg) (i row v : Nat) : (c.wrRow r i row v).pes = c.pes := by
  unfold Chip.wrRow; simp only []; split <;> rfl
@[simp] theorem Chip.wrRow_anc (c : Chip) (r : Reg) (i row v : Nat) : (c.wrRow r i row v).anc = c.anc := by
  unfold Chip.wrRow; simp only []; split <;> rfl
@[simp] theorem Chip.wrRow_diag (c : Chip) (r : Reg) (i row v : Nat) : (c.wrRow r i row v).diag = c.diag := by
  unfold Chip.wrRow; simp only []; split <;> rfl
@[simp] theorem Chip.wrRow_host (c : Chip) (r : Reg) (i row v : Nat) : (c.wrRow r i row v).host = c.host := by
  unfold Chip.wrRow; simp only []; split <;> rfl
@[simp] theorem Chip.wrRow_hlane (c : Chip) (r : Reg) (i row v : Nat) : (c.wrRow r i row v).hlane = c.hlane := by
  unfold Chip.wrRow; simp only []; split <;> rfl
@[simp] theorem Chip.wrRow_time (c : Chip) (r : Reg) (i row v : Nat) : (c.wrRow r i row v).time = c.time := by
  unfold Chip.wrRow; simp only []; split <;> rfl
@[simp] theorem Chip.wrRow_sched (c : Chip) (r : Reg) (i row v : Nat) : (c.wrRow r i row v).sched = c.sched := by
  unfold Chip.wrRow; simp only []; split <;> rfl
@[simp] theorem Chip.wrRow_queues (c : Chip) (r : Reg) (i row v : Nat) : (c.wrRow r i row v).queues = c.queues := by
  unfold Chip.wrRow; simp only []; split <;> rfl
@[simp] theorem Chip.wrRow_frameNo (c : Chip) (r : Reg) (i row v : Nat) : (c.wrRow r i row v).frameNo = c.frameNo := by
  unfold Chip.wrRow; simp only []; split <;> rfl
@[simp] theorem Chip.wrRow_flowSh (c : Chip) (r : Reg) (i row v : Nat) : (c.wrRow r i row v).flowSh = c.flowSh := by
  unfold Chip.wrRow; simp only []; split <;> rfl
@[simp] theorem Chip.wrRow_svcSh (c : Chip) (r : Reg) (i row v : Nat) : (c.wrRow r i row v).svcSh = c.svcSh := by
  unfold Chip.wrRow; simp only []; split <;> rfl
@[simp] theorem Chip.wrRow_portSh (c : Chip) (r : Reg) (i row v : Nat) : (c.wrRow r i row v).portSh = c.portSh := by
  unfold Chip.wrRow; simp only []; split <;> rfl
@[simp] theorem Chip.wrRow_meters (c : Chip) (r : Reg) (i row v : Nat) : (c.wrRow r i row v).meters = c.meters := by
  unfold Chip.wrRow; simp only []; split <;> rfl
@[simp] theorem Chip.wrRow_buf (c : Chip) (r : Reg) (i row v : Nat) : (c.wrRow r i row v).buf = c.buf := by
  unfold Chip.wrRow; simp only []; split <;> rfl
@[simp] theorem Chip.wrRow_wale (c : Chip) (r : Reg) (i row v : Nat) : (c.wrRow r i row v).wale = c.wale := by
  unfold Chip.wrRow; simp only []; split <;> rfl
@[simp] theorem Chip.wrRow_dap (c : Chip) (r : Reg) (i row v : Nat) : (c.wrRow r i row v).dap = c.dap := by
  unfold Chip.wrRow; simp only []; split <;> rfl
@[simp] theorem Chip.wrRow_cal (c : Chip) (r : Reg) (i row v : Nat) : (c.wrRow r i row v).cal = c.cal := by
  unfold Chip.wrRow; simp only []; split <;> rfl
@[simp] theorem Chip.wrRow_bist (c : Chip) (r : Reg) (i row v : Nat) : (c.wrRow r i row v).bist = c.bist := by
  unfold Chip.wrRow; simp only []; split <;> rfl
@[simp] theorem Chip.wrRow_boot (c : Chip) (r : Reg) (i row v : Nat) : (c.wrRow r i row v).boot = c.boot := by
  unfold Chip.wrRow; simp only []; split <;> rfl
@[simp] theorem Chip.wrRow_cfg (c : Chip) (r : Reg) (i row v : Nat) : (c.wrRow r i row v).cfg = c.cfg := by
  unfold Chip.wrRow; simp only []; split <;> rfl
@[simp] theorem Chip.wrRow_nv (c : Chip) (r : Reg) (i row v : Nat) : (c.wrRow r i row v).nv = c.nv := by
  unfold Chip.wrRow; simp only []; split <;> rfl

/-! The other writes are writes of a row. -/

theorem Chip.wr_eq (c : Chip) (r : Reg) (i v : Nat) : c.wr r i v = c.wrRow r i 0 v := rfl
theorem Chip.wrDev_eq (c : Chip) (r : Reg) (v : Nat) : c.wrDev r v = c.wrRow r 0 0 v := rfl
theorem Chip.wrInt_eq (c : Chip) (r : Reg) (i : Nat) (x : Int) : c.wrInt r i x = c.wrRow r i 0 (ofInt r.width x) := rfl
theorem Chip.wrBool_eq (c : Chip) (r : Reg) (i : Nat) (b : Bool) : c.wrBool r i b = c.wrRow r i 0 (b2n b) := rfl
theorem Chip.addRow_eq (c : Chip) (r : Reg) (i row n : Nat) :
    c.addRow r i row n = c.wrRow r i row (c.rd r i row + n) := rfl
theorem Chip.inc_eq (c : Chip) (r : Reg) (i : Nat) : c.inc r i = c.wrRow r i 0 (c.rd r i + 1) := rfl
theorem Chip.add_eq (c : Chip) (r : Reg) (i n : Nat) : c.add r i n = c.wrRow r i 0 (c.rd r i + n) := rfl
theorem Chip.setBit_eq (c : Chip) (r : Reg) (i b : Nat) (x : Bool) :
    c.setBit r i b x = c.wrRow r i 0 (withBit (c.rd r i) b x) := rfl
theorem Chip.wrField_eq (c : Chip) (r : Reg) (i row o n x : Nat) :
    c.wrField r i row o n x = c.wrRow r i row (setRowField r.info.octets (c.rd r i row) o n x) := rfl
theorem Chip.addField_eq (c : Chip) (r : Reg) (i row o n k : Nat) :
    c.addField r i row o n k
      = c.wrRow r i row (setRowField r.info.octets (c.rd r i row) o n (c.rdField r i row o n + k)) := rfl

/-! Reading after writing. -/

theorem Chip.rd_eq (c : Chip) (r : Reg) (i row : Nat) : c.rd r i row = (c.raw r i row).getD (c.dflt r i row) := by
  unfold Chip.rd; cases c.raw r i row <;> rfl

theorem Chip.raw_wrRow_other (c : Chip) (r r' : Reg) (i i' row row' v : Nat) (h : (⟨r', i', row'⟩ : Key) ≠ ⟨r, i, row⟩) :
    (c.wrRow r i row v).raw r' i' row' = c.raw r' i' row' := by
  unfold Chip.wrRow Chip.raw
  simp only []
  split
  · exact Tab.get?_del_other _ _ _ h
  · exact Tab.get?_put_other _ _ _ _ h

/-- The default of an object depends on the formations alone. -/
theorem Chip.dflt_congr (c d : Chip) (h : ∀ q, d.formation q = c.formation q) (r : Reg) (i row : Nat) :
    d.dflt r i row = c.dflt r i row := by
  cases r <;> simp [Chip.dflt, Chip.width, h]

/-- The default of an object that does not depend on the formation. -/
theorem Chip.dflt_fixed (c d : Chip) (r : Reg) (hr : r.formDependent = false) (i row : Nat) :
    d.dflt r i row = c.dflt r i row := by
  cases r <;> first | rfl | (simp [Reg.formDependent] at hr)

/-- A cell reads what was written to it, at the object's width. -/
theorem Chip.rd_wrRow_same (c : Chip) (r : Reg) (i row v : Nat) : (c.wrRow r i row v).rd r i row = v % 2 ^ r.width := by
  rw [Chip.rd_eq]
  unfold Chip.wrRow
  simp only []
  split
  · rename_i h
    simp only [Chip.raw, Tab.get?_del_same, Option.getD_none]
    rw [h.2]
    exact Chip.dflt_fixed _ _ _ h.1 _ _
  · simp [Chip.raw]

/-- A cell that a write does not name reads as before, unless the write changes the formation its default depends on. -/
theorem Chip.rd_wrRow_other (c : Chip) (r r' : Reg) (i i' row row' v : Nat)
    (h : (⟨r', i', row'⟩ : Key) ≠ ⟨r, i, row⟩) (hq : r ≠ .QUAD_FORMATION ∨ r'.formDependent = false) :
    (c.wrRow r i row v).rd r' i' row' = c.rd r' i' row' := by
  rw [Chip.rd_eq, Chip.rd_eq, Chip.raw_wrRow_other _ _ _ _ _ _ _ _ h]
  congr 1
  rcases hq with hq | hq
  · refine Chip.dflt_congr _ _ (fun q => ?_) _ _ _
    have : (c.wrRow r i row v).raw .QUAD_FORMATION q 0 = c.raw .QUAD_FORMATION q 0 :=
      Chip.raw_wrRow_other _ _ _ _ _ _ _ _ (by simp [Ne.symm hq])
    simp [Chip.formation, this]
  · exact Chip.dflt_fixed _ _ _ hq _ _

/-- A write of another object leaves an object as it was. -/
@[simp] theorem Chip.rd_wrRow_reg (c : Chip) (r r' : Reg) (i i' row row' v : Nat) (h : r' ≠ r)
    (hq : r ≠ .QUAD_FORMATION) : (c.wrRow r i row v).rd r' i' row' = c.rd r' i' row' :=
  Chip.rd_wrRow_other _ _ _ _ _ _ _ _ (by simp [h]) (.inl hq)

/-- What was read depends on the dictionary alone. -/
theorem Chip.rd_congr (c d : Chip) (h : d.dict = c.dict) (r : Reg) (i row : Nat) : d.rd r i row = c.rd r i row := by
  have hr : ∀ r i row, d.raw r i row = c.raw r i row := fun _ _ _ => by simp [Chip.raw, h]
  rw [Chip.rd_eq, Chip.rd_eq, hr, Chip.dflt_congr c d (fun q => by simp [Chip.formation, hr])]

/-- A property that every turn of a loop keeps holds after the loop. -/
theorem Chip.each_keeps {α : Type} (P : Chip → Prop) (f : Chip → α → Chip) (hf : ∀ c a, P c → P (f c a)) (l : List α) (c : Chip)
    (hc : P c) : P (c.each l f) := by
  unfold Chip.each
  induction l generalizing c with
  | nil => exact hc
  | cons a l ih => exact ih _ (hf _ _ hc)

/-- What every turn of a loop leaves as it was, the loop leaves as it was. -/
theorem Chip.each_same {α β : Type} (g : Chip → β) (f : Chip → α → Chip) (hf : ∀ c a, g (f c a) = g c) (l : List α) (c : Chip) :
    g (c.each l f) = g c :=
  Chip.each_keeps (fun d => g d = g c) f (fun _ _ h => (hf _ _).trans h) l c rfl

/-! The per-unit records. -/

@[simp] theorem Chip.setPort_same (c : Chip) (p : Nat) (f : PortSt → PortSt) : (c.setPort p f).port p = f (c.port p) := by
  simp [Chip.setPort, Chip.port]
theorem Chip.setPort_other (c : Chip) (p q : Nat) (f : PortSt → PortSt) (h : q ≠ p) : (c.setPort p f).port q = c.port q := by
  simp [Chip.setPort, Chip.port, Tab.getD_upd_other _ _ _ _ _ _ h]
@[simp] theorem Chip.setPe_same (c : Chip) (p : Nat) (f : PeSt → PeSt) : (c.setPe p f).pe p = f (c.pe p) := by
  simp [Chip.setPe, Chip.pe]
theorem Chip.setPe_other (c : Chip) (p q : Nat) (f : PeSt → PeSt) (h : q ≠ p) : (c.setPe p f).pe q = c.pe q := by
  simp [Chip.setPe, Chip.pe, Tab.getD_upd_other _ _ _ _ _ _ h]

end Sys2Proof.Machine
end

