-- ==== Sys2Proof/Laws/Run.lean ====
section
/-!
SUPPORT. What every command has in common: what the event engine, the calibration visits and the forced-switch flags do after the
command's own effect, said once.
-/
namespace Sys2Proof.Machine
set_option Elab.async false

/-- What the event engine's turn leaves as it was. -/
structure EvFrame (c d : Chip) : Prop where
  bare : d.bare = c.bare
  access : d.access = c.access
  cells : c.Keeps d fun _ => False

theorem EvFrame.refl (c : Chip) : EvFrame c c := ⟨rfl, rfl, fun _ _ _ => rfl⟩

theorem EvFrame.trans {c d e : Chip} (h : EvFrame c d) (g : EvFrame d e) : EvFrame c e :=
  ⟨g.bare.trans h.bare, g.access.trans h.access, fun k hk hP => (g.cells k hk hP).trans (h.cells k hk hP)⟩

/-- A write of an object of the event engine. -/
theorem EvFrame.wrRow {b c : Chip} (h : EvFrame b c) {r : Reg} (hr : r.ofEvents = true) (i row v : Nat) :
    EvFrame b (c.wrRow r i row v) := by
  refine h.trans ⟨by simp [Chip.bare], by simp, fun k hk _ => ?_⟩
  have : k ≠ ⟨r, i, row⟩ := by rintro rfl; simp [hr] at hk
  obtain ⟨a, b, e⟩ := k
  exact Chip.raw_wrRow_other _ _ _ _ _ _ _ _ this

/-- A change of the event engine's own state. -/
theorem EvFrame.ev {b c : Chip} (h : EvFrame b c) (x : EventEngine) : EvFrame b { c with ev := x } :=
  h.trans ⟨rfl, rfl, fun _ _ _ => rfl⟩

/-- An ALARM or another record waits for a Wale packet. -/
theorem EvFrame.offer {b c : Chip} (h : EvFrame b c) (r : EvRec) : EvFrame b (c.waleOffer r) := by
  refine h.trans ?_
  unfold Chip.waleOffer
  simp only []
  split
  · exact .refl c
  · split <;> exact ⟨rfl, rfl, fun _ _ _ => rfl⟩

theorem EvFrame.ringPut {b c : Chip} (h : EvFrame b c) (r : EvRec) : EvFrame b (c.ringPut r) := by
  unfold Chip.ringPut
  simp only [Chip.wrDev_eq, Chip.inc_eq]
  refine EvFrame.wrRow (EvFrame.ev ?_ _) rfl ..
  split
  · exact h.wrRow rfl ..
  · exact h

theorem EvFrame.ringOwn {b c : Chip} (h : EvFrame b c) (r : EvRec) : EvFrame b (c.ringOwn r) := by
  unfold Chip.ringOwn
  exact EvFrame.offer (EvFrame.ev (h.ringPut _) _) _

theorem EvFrame.overflowFold {b c : Chip} (h : EvFrame b c) (r : EvRec) : EvFrame b (c.overflowFold r) := by
  unfold Chip.overflowFold
  simp only [Chip.add_eq]
  split <;> exact EvFrame.ev (h.wrRow rfl ..) _

theorem EvFrame.emitRec {b c : Chip} (h : EvFrame b c) (r : EvRec) (own : Bool) : EvFrame b (c.emitRec r own) := by
  unfold Chip.emitRec
  simp only [Chip.addRow_eq]
  split <;> split
  · exact h.wrRow rfl ..
  · split
    · exact h.ringOwn _
    · exact h.ringPut _
  · exact h.overflowFold _
  · split
    · exact h.ringOwn _
    · exact h.ringPut _

theorem Cls.evStatus_ofEvents (k : Cls) : k.evStatus.ofEvents = true := by cases k <;> rfl

theorem EvFrame.markStatus {b c : Chip} (h : EvFrame b c) (o : Occ) : EvFrame b (c.markStatus o) := by
  unfold Chip.markStatus
  split
  · exact h.wrRow (Cls.evStatus_ofEvents _) ..
  · exact h.wrRow (Cls.evStatus_ofEvents _) ..
  · exact h

theorem EvFrame.displace {b c : Chip} (h : EvFrame b c) : EvFrame b c.displace := by
  unfold Chip.displace
  split
  · exact h
  · split
    · exact h
    · simp only [Chip.inc_eq]
      repeat' split
      all_goals first
        | exact (h.ev _).wrRow rfl ..
        | exact ((h.ev _).emitRec _ _).wrRow rfl ..
        | exact ((h.ev _).emitRec _ _).ev _
        | exact (((h.ev _).emitRec _ _).emitRec _ _).ev _

theorem EvFrame.occur {b c : Chip} (h : EvFrame b c) (o : Occ) : EvFrame b (c.occur o) := by
  unfold Chip.occur
  simp only [Chip.inc_eq]
  split
  · exact EvFrame.wrRow (EvFrame.ev (h.markStatus o) _) rfl ..
  · exact EvFrame.emitRec (EvFrame.ev (h.markStatus o).displace _) _ _

/-- The event engine's turn. -/
theorem EvFrame.flush {b c : Chip} (h : EvFrame b c) : EvFrame b c.flush := by
  unfold Chip.flush
  exact Chip.each_keeps (fun d => EvFrame b d) _ (fun d o g => g.occur o) _ _ (h.ev _)

theorem Rotation.still_settle (stays : Visit → Bool) (r : Rotation) : (r.settle stays).still = r.still := by
  unfold Rotation.settle Rotation.still
  cases r.round <;> cases r.left.isEmpty <;> simp

theorem CalSt.still_settle (stays : Visit → Bool) (x : CalSt) :
    ({ x with adc := x.adc.settle stays, dac := x.dac.settle stays } : CalSt).still = x.still := by
  simp [CalSt.still, Rotation.still_settle]

theorem EvFrame.roundsSettle (c : Chip) : EvFrame c c.roundsSettle := by
  unfold Chip.roundsSettle
  exact Chip.each_keeps (fun d => EvFrame c d) _ (fun d x g => Chip.each_keeps (fun d => EvFrame c d) _
    (fun d t g => EvFrame.wrRow g rfl ..) _ _ g) _ _ (.refl c)

theorem EvFrame.visitsSettle (c : Chip) : EvFrame c c.visitsSettle := by
  unfold Chip.visitsSettle
  split
  · exact .refl c
  · have h := EvFrame.roundsSettle c
    refine ⟨?_, h.access, h.cells⟩
    rw [← h.bare]
    have hm : ∀ d : Chip, d.bare = c.bare → ({ d with cal := c.cal.map fun x =>
        (x.1, ({ x.2 with adc := x.2.adc.settle (c.visitStays x.1), dac := x.2.dac.settle (c.visitStays x.1) } : CalSt)) } : Chip).bare
          = d.bare := by
      intro d hd
      have hc : d.bare.cal = c.cal.map fun x => (x.1, x.2.still) := by rw [hd]; rfl
      calc _ = ({ d.bare with cal := c.cal.map fun x => (x.1, x.2.still) } : Chip) := by
              simp [Chip.bare, List.map_map, Function.comp_def, CalSt.still_settle]
        _ = d.bare := by rw [← hc]
    exact hm _ h.bare

theorem EvFrame.forcedSettle (c old : Chip) : EvFrame c (c.forcedSettle old) := by
  unfold Chip.forcedSettle
  split
  · exact .refl c
  · exact ⟨rfl, rfl, fun _ _ _ => rfl⟩

/-- What follows every command's own effect leaves the rest of the block as the command left it. -/
theorem EvFrame.after (c old : Chip) : EvFrame c ((c.visitsSettle).forcedSettle old).flush :=
  ((EvFrame.visitsSettle c).trans (EvFrame.forcedSettle _ old)).flush

/-- An object outside the event engine reads as the command's own effect left it. -/
theorem EvFrame.rd {c d : Chip} (h : EvFrame c d) (r : Reg) (hr : r.ofEvents = false) (i row : Nat) : d.rd r i row = c.rd r i row := by
  have hf : ∀ q, d.formation q = c.formation q := fun q => by
    simp [Chip.formation, Chip.raw, h.cells ⟨.QUAD_FORMATION, q, 0⟩ rfl id]
  rw [Chip.rd_eq, Chip.rd_eq, Chip.dflt_congr c d hf]
  simp [Chip.raw, h.cells ⟨r, i, row⟩ hr id]

/-- A part of the block that the bare block shows is as the command's own effect left it. -/
theorem EvFrame.part {α : Type} {c d : Chip} (h : EvFrame c d) (g : Chip → α) (hg : ∀ e : Chip, g e = g e.bare) : g d = g c := by
  rw [hg d, hg c, h.bare]

/-- What every command does: it answers a next state with the queue as it was, whose block is as the command's own effect left it
but for what follows every command. -/
theorem State.run_answers (s : State) (f : Chip → Chip) :
    ∃ t : State, s.run f = .next t ∧ t.pending = s.pending ∧ EvFrame (f s.chip) t.chip :=
  ⟨_, rfl, rfl, EvFrame.after _ _⟩

/-- The same for an access. -/
theorem State.runWr_answers (s : State) (f : Chip → Abort × Chip) :
    ∃ t : State, s.runWr f = .next t ∧ t.pending = s.pending ∧ EvFrame (s.chip.answer (f s.chip)) t.chip :=
  State.run_answers s _

end Sys2Proof.Machine
end

