-- ==== Sys2Proof/Laws/Within.lean ====
section
/-!
SUPPORT. Frames: which parts of the block and which objects an operation may change, and how frames of operations compose.
-/
set_option Elab.async false
namespace Sys2Proof.Machine

/-- What an operation may change: parts of the block, and objects, each set held as the bits of a number. -/
structure Fx where
  parts : Nat
  regs : Nat

/-- The set of the parts and objects that are listed. -/
def Fx.of (ps : List Part) (rs : List Reg) : Fx :=
  ⟨ps.foldl (fun a p => a ||| 2 ^ p.ctorIdx) 0, rs.foldl (fun a r => a ||| 2 ^ r.ctorIdx) 0⟩

/-- Everything that one of two operations may change. -/
def Fx.or (x y : Fx) : Fx := ⟨x.parts ||| y.parts, x.regs ||| y.regs⟩

/-- Everything that one of several operations may change. -/
def Fx.union (l : List Fx) : Fx := l.foldl Fx.or ⟨0, 0⟩

/-- Every object, with these parts. -/
def Fx.everyReg (ps : List Part) : Fx := ⟨(Fx.of ps []).parts, 2 ^ 1024 - 1⟩

/-- Nothing is in the first set and not in the second. -/
def Fx.le (x y : Fx) : Bool := x.parts &&& y.parts == x.parts && x.regs &&& y.regs == x.regs

/-- The set names the part. -/
def Fx.hasPart (x : Fx) (p : Part) : Bool := x.parts.testBit p.ctorIdx

/-- The set names the object. -/
def Fx.hasReg (x : Fx) (r : Reg) : Bool := x.regs.testBit r.ctorIdx

/-- Only what the set names has changed. -/
structure Within (x : Fx) (c d : Chip) : Prop where
  part : ∀ p : Part, x.hasPart p = false → p.same c d
  cell : ∀ k : Key, x.hasReg k.reg = false → d.dict.get? k = c.dict.get? k

variable {x : Fx} {b c d : Chip}

theorem Part.same_refl (p : Part) (c : Chip) : p.same c c := by cases p <;> rfl

theorem Part.same_trans {p : Part} (h : p.same b c) (g : p.same c d) : p.same b d := by
  cases p <;> exact Eq.trans g h

theorem Within.refl (x : Fx) (c : Chip) : Within x c c := ⟨fun p _ => p.same_refl c, fun _ _ => rfl⟩

theorem Within.trans (h : Within x b c) (g : Within x c d) : Within x b d :=
  ⟨fun p hp => Part.same_trans (h.part p hp) (g.part p hp), fun k hk => (g.cell k hk).trans (h.cell k hk)⟩

theorem Nat.testBit_of_land_eq {m n i : Nat} (h : m &&& n = m) (hn : n.testBit i = false) : m.testBit i = false := by
  rw [← h, Nat.testBit_and, hn, Bool.and_false]

theorem Fx.le_iff {x y : Fx} : x.le y = true ↔ x.parts &&& y.parts = x.parts ∧ x.regs &&& y.regs = x.regs := by
  simp [Fx.le]

theorem Within.mono {y : Fx} (hx : x.le y = true) (h : Within x c d) : Within y c d :=
  ⟨fun p hp => h.part p (Nat.testBit_of_land_eq (Fx.le_iff.1 hx).1 hp),
   fun k hk => h.cell k (Nat.testBit_of_land_eq (Fx.le_iff.1 hx).2 hk)⟩

theorem Within.ite {p : Prop} [Decidable p] (h : Within x b c) (g : Within x b d) : Within x b (if p then c else d) := by
  split <;> assumption

theorem Within.each {α : Type} {f : Chip → α → Chip} {l : List α} (hf : ∀ d a, Within x b d → Within x b (f d a)) (h : Within x b c) :
    Within x b (c.each l f) := Chip.each_keeps _ f (fun d a hd => hf d a hd) l c h

theorem Within.foldl {α β : Type} {f : β × Chip → α → β × Chip} {l : List α} {z : β × Chip}
    (hf : ∀ z a, Within x b z.2 → Within x b (f z a).2) (h : Within x b z.2) : Within x b (l.foldl f z).2 := by
  induction l generalizing z with
  | nil => exact h
  | cons a l ih => exact ih (hf _ _ h)

theorem Within.foldl1 {α β : Type} {f : Chip × β → α → Chip × β} {l : List α} {z : Chip × β}
    (hf : ∀ z a, Within x b z.1 → Within x b (f z a).1) (h : Within x b z.1) : Within x b (l.foldl f z).1 := by
  induction l generalizing z with
  | nil => exact h
  | cons a l ih => exact ih (hf _ _ h)

theorem Within.fold {α : Type} {f : Chip → α → Chip} {l : List α} {z : Chip}
    (hf : ∀ z a, Within x b z → Within x b (f z a)) (h : Within x b z) : Within x b (l.foldl f z) := by
  induction l generalizing z with
  | nil => exact h
  | cons a l ih => exact ih (hf _ _ h)

/-- Cells of one object change. -/
theorem Within.dict {m : Tab Key Nat} {r : Reg} (h : Within x b c) (hr : (Fx.of [] [r]).le x = true)
    (hm : ∀ k : Key, k.reg ≠ r → m.get? k = c.dict.get? k) : Within x b { c with dict := m } := by
  refine h.trans ⟨fun p _ => by cases p <;> rfl, fun k hk => hm k ?_⟩
  rintro rfl
  have := Nat.testBit_of_land_eq (Fx.le_iff.1 hr).2 hk
  simp [Fx.of, Nat.testBit_two_pow_self] at this

theorem Within.wrRow {r : Reg} {i row v : Nat} (h : Within x b c) (hr : (Fx.of [] [r]).le x = true) : Within x b (c.wrRow r i row v) := by
  unfold Chip.wrRow
  simp only []
  split
  · exact h.dict hr fun k hk => Tab.get?_del_other _ _ _ (by rintro rfl; simp at hk)
  · exact h.dict hr fun k hk => Tab.get?_put_other _ _ _ _ (by rintro rfl; simp at hk)

theorem Within.wr {r : Reg} {i v : Nat} (h : Within x b c) (hr : (Fx.of [] [r]).le x = true) : Within x b (c.wr r i v) := h.wrRow hr
theorem Within.wrDev {r : Reg} {v : Nat} (h : Within x b c) (hr : (Fx.of [] [r]).le x = true) : Within x b (c.wrDev r v) := h.wrRow hr
theorem Within.wrInt {r : Reg} {i : Nat} {v : Int} (h : Within x b c) (hr : (Fx.of [] [r]).le x = true) : Within x b (c.wrInt r i v) :=
  h.wrRow hr
theorem Within.wrBool {r : Reg} {i : Nat} {v : Bool} (h : Within x b c) (hr : (Fx.of [] [r]).le x = true) :
    Within x b (c.wrBool r i v) := h.wrRow hr
theorem Within.addRow {r : Reg} {i row n : Nat} (h : Within x b c) (hr : (Fx.of [] [r]).le x = true) :
    Within x b (c.addRow r i row n) := h.wrRow hr
theorem Within.inc {r : Reg} {i : Nat} (h : Within x b c) (hr : (Fx.of [] [r]).le x = true) : Within x b (c.inc r i) := h.wrRow hr
theorem Within.add {r : Reg} {i n : Nat} (h : Within x b c) (hr : (Fx.of [] [r]).le x = true) : Within x b (c.add r i n) := h.wrRow hr
theorem Within.setBit {r : Reg} {i k : Nat} {v : Bool} (h : Within x b c) (hr : (Fx.of [] [r]).le x = true) :
    Within x b (c.setBit r i k v) := h.wrRow hr
theorem Within.wrField {r : Reg} {i row o n v : Nat} (h : Within x b c) (hr : (Fx.of [] [r]).le x = true) :
    Within x b (c.wrField r i row o n v) := h.wrRow hr
theorem Within.addField {r : Reg} {i row o n v : Nat} (h : Within x b c) (hr : (Fx.of [] [r]).le x = true) :
    Within x b (c.addField r i row o n v) := h.wrRow hr
theorem Within.clr {r : Reg} {i row : Nat} (h : Within x b c) (hr : (Fx.of [] [r]).le x = true) : Within x b (c.clr r i row) :=
  h.dict hr fun k hk => Tab.get?_del_other _ _ _ (by rintro rfl; simp at hk)
theorem Within.clrAll {r : Reg} {i : Nat} (h : Within x b c) (hr : (Fx.of [] [r]).le x = true) : Within x b (c.clrAll r i) :=
  h.dict hr fun k hk => by
    rw [Tab.get?_filter _ (fun e : Key => !(decide (e.reg = r ∧ e.inst = i))) k]; simp [hk]

theorem Within.upd_held {v} (h : Within x b c) (hx : (Fx.of [.held] []).le x = true) : Within x b { c with held := v } := by
  refine h.trans ⟨fun p hp => ?_, fun _ _ => rfl⟩
  cases p
  case held => have := Nat.testBit_of_land_eq (Fx.le_iff.1 hx).1 hp; simp [Fx.of, Nat.testBit_two_pow_self] at this
  all_goals rfl

theorem Within.upd_access {v} (h : Within x b c) (hx : (Fx.of [.access] []).le x = true) : Within x b { c with access := v } := by
  refine h.trans ⟨fun p hp => ?_, fun _ _ => rfl⟩
  cases p
  case access => have := Nat.testBit_of_land_eq (Fx.le_iff.1 hx).1 hp; simp [Fx.of, Nat.testBit_two_pow_self] at this
  all_goals rfl

theorem Within.upd_draws {v} (h : Within x b c) (hx : (Fx.of [.draws] []).le x = true) : Within x b { c with draws := v } := by
  refine h.trans ⟨fun p hp => ?_, fun _ _ => rfl⟩
  cases p
  case draws => have := Nat.testBit_of_land_eq (Fx.le_iff.1 hx).1 hp; simp [Fx.of, Nat.testBit_two_pow_self] at this
  all_goals rfl

theorem Within.upd_root {v} (h : Within x b c) (hx : (Fx.of [.root] []).le x = true) : Within x b { c with root := v } := by
  refine h.trans ⟨fun p hp => ?_, fun _ _ => rfl⟩
  cases p
  case root => have := Nat.testBit_of_land_eq (Fx.le_iff.1 hx).1 hp; simp [Fx.of, Nat.testBit_two_pow_self] at this
  all_goals rfl

theorem Within.upd_tb {v} (h : Within x b c) (hx : (Fx.of [.tb] []).le x = true) : Within x b { c with tb := v } := by
  refine h.trans ⟨fun p hp => ?_, fun _ _ => rfl⟩
  cases p
  case tb => have := Nat.testBit_of_land_eq (Fx.le_iff.1 hx).1 hp; simp [Fx.of, Nat.testBit_two_pow_self] at this
  all_goals rfl

theorem Within.upd_ev {v} (h : Within x b c) (hx : (Fx.of [.ev] []).le x = true) : Within x b { c with ev := v } := by
  refine h.trans ⟨fun p hp => ?_, fun _ _ => rfl⟩
  cases p
  case ev => have := Nat.testBit_of_land_eq (Fx.le_iff.1 hx).1 hp; simp [Fx.of, Nat.testBit_two_pow_self] at this
  all_goals rfl

theorem Within.upd_pwr {v} (h : Within x b c) (hx : (Fx.of [.pwr] []).le x = true) : Within x b { c with pwr := v } := by
  refine h.trans ⟨fun p hp => ?_, fun _ _ => rfl⟩
  cases p
  case pwr => have := Nat.testBit_of_land_eq (Fx.le_iff.1 hx).1 hp; simp [Fx.of, Nat.testBit_two_pow_self] at this
  all_goals rfl

theorem Within.upd_ports {v} (h : Within x b c) (hx : (Fx.of [.ports] []).le x = true) : Within x b { c with ports := v } := by
  refine h.trans ⟨fun p hp => ?_, fun _ _ => rfl⟩
  cases p
  case ports => have := Nat.testBit_of_land_eq (Fx.le_iff.1 hx).1 hp; simp [Fx.of, Nat.testBit_two_pow_self] at this
  all_goals rfl

theorem Within.upd_pes {v} (h : Within x b c) (hx : (Fx.of [.pes] []).le x = true) : Within x b { c with pes := v } := by
  refine h.trans ⟨fun p hp => ?_, fun _ _ => rfl⟩
  cases p
  case pes => have := Nat.testBit_of_land_eq (Fx.le_iff.1 hx).1 hp; simp [Fx.of, Nat.testBit_two_pow_self] at this
  all_goals rfl

theorem Within.upd_anc {v} (h : Within x b c) (hx : (Fx.of [.anc] []).le x = true) : Within x b { c with anc := v } := by
  refine h.trans ⟨fun p hp => ?_, fun _ _ => rfl⟩
  cases p
  case anc => have := Nat.testBit_of_land_eq (Fx.le_iff.1 hx).1 hp; simp [Fx.of, Nat.testBit_two_pow_self] at this
  all_goals rfl

theorem Within.upd_diag {v} (h : Within x b c) (hx : (Fx.of [.diag] []).le x = true) : Within x b { c with diag := v } := by
  refine h.trans ⟨fun p hp => ?_, fun _ _ => rfl⟩
  cases p
  case diag => have := Nat.testBit_of_land_eq (Fx.le_iff.1 hx).1 hp; simp [Fx.of, Nat.testBit_two_pow_self] at this
  all_goals rfl

theorem Within.upd_host {v} (h : Within x b c) (hx : (Fx.of [.host] []).le x = true) : Within x b { c with host := v } := by
  refine h.trans ⟨fun p hp => ?_, fun _ _ => rfl⟩
  cases p
  case host => have := Nat.testBit_of_land_eq (Fx.le_iff.1 hx).1 hp; simp [Fx.of, Nat.testBit_two_pow_self] at this
  all_goals rfl

theorem Within.upd_hlane {v} (h : Within x b c) (hx : (Fx.of [.hlane] []).le x = true) : Within x b { c with hlane := v } := by
  refine h.trans ⟨fun p hp => ?_, fun _ _ => rfl⟩
  cases p
  case hlane => have := Nat.testBit_of_land_eq (Fx.le_iff.1 hx).1 hp; simp [Fx.of, Nat.testBit_two_pow_self] at this
  all_goals rfl

theorem Within.upd_time {v} (h : Within x b c) (hx : (Fx.of [.time] []).le x = true) : Within x b { c with time := v } := by
  refine h.trans ⟨fun p hp => ?_, fun _ _ => rfl⟩
  cases p
  case time => have := Nat.testBit_of_land_eq (Fx.le_iff.1 hx).1 hp; simp [Fx.of, Nat.testBit_two_pow_self] at this
  all_goals rfl

theorem Within.upd_sched {v} (h : Within x b c) (hx : (Fx.of [.sched] []).le x = true) : Within x b { c with sched := v } := by
  refine h.trans ⟨fun p hp => ?_, fun _ _ => rfl⟩
  cases p
  case sched => have := Nat.testBit_of_land_eq (Fx.le_iff.1 hx).1 hp; simp [Fx.of, Nat.testBit_two_pow_self] at this
  all_goals rfl

theorem Within.upd_queues {v} (h : Within x b c) (hx : (Fx.of [.queues] []).le x = true) : Within x b { c with queues := v } := by
  refine h.trans ⟨fun p hp => ?_, fun _ _ => rfl⟩
  cases p
  case queues => have := Nat.testBit_of_land_eq (Fx.le_iff.1 hx).1 hp; simp [Fx.of, Nat.testBit_two_pow_self] at this
  all_goals rfl

theorem Within.upd_frameNo {v} (h : Within x b c) (hx : (Fx.of [.frameNo] []).le x = true) : Within x b { c with frameNo := v } := by
  refine h.trans ⟨fun p hp => ?_, fun _ _ => rfl⟩
  cases p
  case frameNo => have := Nat.testBit_of_land_eq (Fx.le_iff.1 hx).1 hp; simp [Fx.of, Nat.testBit_two_pow_self] at this
  all_goals rfl

theorem Within.upd_flowSh {v} (h : Within x b c) (hx : (Fx.of [.flowSh] []).le x = true) : Within x b { c with flowSh := v } := by
  refine h.trans ⟨fun p hp => ?_, fun _ _ => rfl⟩
  cases p
  case flowSh => have := Nat.testBit_of_land_eq (Fx.le_iff.1 hx).1 hp; simp [Fx.of, Nat.testBit_two_pow_self] at this
  all_goals rfl

theorem Within.upd_svcSh {v} (h : Within x b c) (hx : (Fx.of [.svcSh] []).le x = true) : Within x b { c with svcSh := v } := by
  refine h.trans ⟨fun p hp => ?_, fun _ _ => rfl⟩
  cases p
  case svcSh => have := Nat.testBit_of_land_eq (Fx.le_iff.1 hx).1 hp; simp [Fx.of, Nat.testBit_two_pow_self] at this
  all_goals rfl

theorem Within.upd_portSh {v} (h : Within x b c) (hx : (Fx.of [.portSh] []).le x = true) : Within x b { c with portSh := v } := by
  refine h.trans ⟨fun p hp => ?_, fun _ _ => rfl⟩
  cases p
  case portSh => have := Nat.testBit_of_land_eq (Fx.le_iff.1 hx).1 hp; simp [Fx.of, Nat.testBit_two_pow_self] at this
  all_goals rfl

theorem Within.upd_meters {v} (h : Within x b c) (hx : (Fx.of [.meters] []).le x = true) : Within x b { c with meters := v } := by
  refine h.trans ⟨fun p hp => ?_, fun _ _ => rfl⟩
  cases p
  case meters => have := Nat.testBit_of_land_eq (Fx.le_iff.1 hx).1 hp; simp [Fx.of, Nat.testBit_two_pow_self] at this
  all_goals rfl

theorem Within.upd_buf {v} (h : Within x b c) (hx : (Fx.of [.buf] []).le x = true) : Within x b { c with buf := v } := by
  refine h.trans ⟨fun p hp => ?_, fun _ _ => rfl⟩
  cases p
  case buf => have := Nat.testBit_of_land_eq (Fx.le_iff.1 hx).1 hp; simp [Fx.of, Nat.testBit_two_pow_self] at this
  all_goals rfl

theorem Within.upd_wale {v} (h : Within x b c) (hx : (Fx.of [.wale] []).le x = true) : Within x b { c with wale := v } := by
  refine h.trans ⟨fun p hp => ?_, fun _ _ => rfl⟩
  cases p
  case wale => have := Nat.testBit_of_land_eq (Fx.le_iff.1 hx).1 hp; simp [Fx.of, Nat.testBit_two_pow_self] at this
  all_goals rfl

theorem Within.upd_dap {v} (h : Within x b c) (hx : (Fx.of [.dap] []).le x = true) : Within x b { c with dap := v } := by
  refine h.trans ⟨fun p hp => ?_, fun _ _ => rfl⟩
  cases p
  case dap => have := Nat.testBit_of_land_eq (Fx.le_iff.1 hx).1 hp; simp [Fx.of, Nat.testBit_two_pow_self] at this
  all_goals rfl

theorem Within.upd_cal {v} (h : Within x b c) (hx : (Fx.of [.cal] []).le x = true) : Within x b { c with cal := v } := by
  refine h.trans ⟨fun p hp => ?_, fun _ _ => rfl⟩
  cases p
  case cal => have := Nat.testBit_of_land_eq (Fx.le_iff.1 hx).1 hp; simp [Fx.of, Nat.testBit_two_pow_self] at this
  all_goals rfl

theorem Within.upd_bist {v} (h : Within x b c) (hx : (Fx.of [.bist] []).le x = true) : Within x b { c with bist := v } := by
  refine h.trans ⟨fun p hp => ?_, fun _ _ => rfl⟩
  cases p
  case bist => have := Nat.testBit_of_land_eq (Fx.le_iff.1 hx).1 hp; simp [Fx.of, Nat.testBit_two_pow_self] at this
  all_goals rfl

theorem Within.upd_boot {v} (h : Within x b c) (hx : (Fx.of [.boot] []).le x = true) : Within x b { c with boot := v } := by
  refine h.trans ⟨fun p hp => ?_, fun _ _ => rfl⟩
  cases p
  case boot => have := Nat.testBit_of_land_eq (Fx.le_iff.1 hx).1 hp; simp [Fx.of, Nat.testBit_two_pow_self] at this
  all_goals rfl

theorem Within.upd_cfg {v} (h : Within x b c) (hx : (Fx.of [.cfg] []).le x = true) : Within x b { c with cfg := v } := by
  refine h.trans ⟨fun p hp => ?_, fun _ _ => rfl⟩
  cases p
  case cfg => have := Nat.testBit_of_land_eq (Fx.le_iff.1 hx).1 hp; simp [Fx.of, Nat.testBit_two_pow_self] at this
  all_goals rfl

theorem Within.upd_nv {v} (h : Within x b c) (hx : (Fx.of [.nv] []).le x = true) : Within x b { c with nv := v } := by
  refine h.trans ⟨fun p hp => ?_, fun _ _ => rfl⟩
  cases p
  case nv => have := Nat.testBit_of_land_eq (Fx.le_iff.1 hx).1 hp; simp [Fx.of, Nat.testBit_two_pow_self] at this
  all_goals rfl

theorem Within.setPort {p f} (h : Within x b c) (hx : (Fx.of [.ports] []).le x = true) : Within x b (c.setPort p f) := h.upd_ports hx
theorem Within.setPe {p f} (h : Within x b c) (hx : (Fx.of [.pes] []).le x = true) : Within x b (c.setPe p f) := h.upd_pes hx
theorem Within.setAnc {p f} (h : Within x b c) (hx : (Fx.of [.anc] []).le x = true) : Within x b (c.setAnc p f) := h.upd_anc hx
theorem Within.setBoot {f} (h : Within x b c) (hx : (Fx.of [.boot] []).le x = true) : Within x b (c.setBoot f) := h.upd_boot hx
theorem Within.setDiag {f} (h : Within x b c) (hx : (Fx.of [.diag] []).le x = true) : Within x b (c.setDiag f) := h.upd_diag hx
theorem Within.setHost {p f} (h : Within x b c) (hx : (Fx.of [.host] []).le x = true) : Within x b (c.setHost p f) := h.upd_host hx
theorem Within.setLane {p f} (h : Within x b c) (hx : (Fx.of [.hlane] []).le x = true) : Within x b (c.setLane p f) := h.upd_hlane hx
theorem Within.setTime {f} (h : Within x b c) (hx : (Fx.of [.time] []).le x = true) : Within x b (c.setTime f) := h.upd_time hx
theorem Within.setSch {p f} (h : Within x b c) (hx : (Fx.of [.sched] []).le x = true) : Within x b (c.setSch p f) := h.upd_sched hx
theorem Within.setQueue {q l} (h : Within x b c) (hx : (Fx.of [.queues] []).le x = true) : Within x b (c.setQueue q l) := h.upd_queues hx
theorem Within.setPwr {f} (h : Within x b c) (hx : (Fx.of [.pwr] []).le x = true) : Within x b (c.setPwr f) := h.upd_pwr hx
theorem Within.setTile {p f} (h : Within x b c) (hx : (Fx.of [.pwr] []).le x = true) : Within x b (c.setTile p f) := h.upd_pwr hx
theorem Within.setCal {p f} (h : Within x b c) (hx : (Fx.of [.cal] []).le x = true) : Within x b (c.setCal p f) := h.upd_cal hx
theorem Within.setWale {f} (h : Within x b c) (hx : (Fx.of [.wale] []).le x = true) : Within x b (c.setWale f) := h.upd_wale hx
theorem Within.setWl {p f} (h : Within x b c) (hx : (Fx.of [.wale] []).le x = true) : Within x b (c.setWl p f) := h.upd_wale hx
theorem Within.raise {e n k} (h : Within x b c) (hx : (Fx.of [.ev] []).le x = true) : Within x b (c.raise e n k) := h.upd_ev hx
theorem Within.result {r} (h : Within x b c) (hx : (Fx.of [.access] []).le x = true) : Within x b (c.result r) := h.upd_access hx

/-- The block with another `held`. -/
def Chip.put_held (c : Chip) (v : Tab Key (Option Nat)) : Chip := { c with held := v }
theorem Chip.fold_held (c : Chip) (v : Tab Key (Option Nat)) : ({ c with held := v } : Chip) = c.put_held v := rfl
theorem Within.put_held {v} (h : Within x b c) (hx : (Fx.of [.held] []).le x = true) : Within x b (c.put_held v) := h.upd_held hx

/-- The block with another `access`. -/
def Chip.put_access (c : Chip) (v : Access) : Chip := { c with access := v }
theorem Chip.fold_access (c : Chip) (v : Access) : ({ c with access := v } : Chip) = c.put_access v := rfl
theorem Within.put_access {v} (h : Within x b c) (hx : (Fx.of [.access] []).le x = true) : Within x b (c.put_access v) := h.upd_access hx

/-- The block with another `draws`. -/
def Chip.put_draws (c : Chip) (v : Nat) : Chip := { c with draws := v }
theorem Chip.fold_draws (c : Chip) (v : Nat) : ({ c with draws := v } : Chip) = c.put_draws v := rfl
theorem Within.put_draws {v} (h : Within x b c) (hx : (Fx.of [.draws] []).le x = true) : Within x b (c.put_draws v) := h.upd_draws hx

/-- The block with another `root`. -/
def Chip.put_root (c : Chip) (v : Nat) : Chip := { c with root := v }
theorem Chip.fold_root (c : Chip) (v : Nat) : ({ c with root := v } : Chip) = c.put_root v := rfl
theorem Within.put_root {v} (h : Within x b c) (hx : (Fx.of [.root] []).le x = true) : Within x b (c.put_root v) := h.upd_root hx

/-- The block with another `tb`. -/
def Chip.put_tb (c : Chip) (v : Nat) : Chip := { c with tb := v }
theorem Chip.fold_tb (c : Chip) (v : Nat) : ({ c with tb := v } : Chip) = c.put_tb v := rfl
theorem Within.put_tb {v} (h : Within x b c) (hx : (Fx.of [.tb] []).le x = true) : Within x b (c.put_tb v) := h.upd_tb hx

/-- The block with another `ev`. -/
def Chip.put_ev (c : Chip) (v : EventEngine) : Chip := { c with ev := v }
theorem Chip.fold_ev (c : Chip) (v : EventEngine) : ({ c with ev := v } : Chip) = c.put_ev v := rfl
theorem Within.put_ev {v} (h : Within x b c) (hx : (Fx.of [.ev] []).le x = true) : Within x b (c.put_ev v) := h.upd_ev hx

/-- The block with another `pwr`. -/
def Chip.put_pwr (c : Chip) (v : PowerSt) : Chip := { c with pwr := v }
theorem Chip.fold_pwr (c : Chip) (v : PowerSt) : ({ c with pwr := v } : Chip) = c.put_pwr v := rfl
theorem Within.put_pwr {v} (h : Within x b c) (hx : (Fx.of [.pwr] []).le x = true) : Within x b (c.put_pwr v) := h.upd_pwr hx

/-- The block with another `ports`. -/
def Chip.put_ports (c : Chip) (v : Tab Nat PortSt) : Chip := { c with ports := v }
theorem Chip.fold_ports (c : Chip) (v : Tab Nat PortSt) : ({ c with ports := v } : Chip) = c.put_ports v := rfl
theorem Within.put_ports {v} (h : Within x b c) (hx : (Fx.of [.ports] []).le x = true) : Within x b (c.put_ports v) := h.upd_ports hx

/-- The block with another `pes`. -/
def Chip.put_pes (c : Chip) (v : Tab Nat PeSt) : Chip := { c with pes := v }
theorem Chip.fold_pes (c : Chip) (v : Tab Nat PeSt) : ({ c with pes := v } : Chip) = c.put_pes v := rfl
theorem Within.put_pes {v} (h : Within x b c) (hx : (Fx.of [.pes] []).le x = true) : Within x b (c.put_pes v) := h.upd_pes hx

/-- The block with another `anc`. -/
def Chip.put_anc (c : Chip) (v : Tab Nat AncSt) : Chip := { c with anc := v }
theorem Chip.fold_anc (c : Chip) (v : Tab Nat AncSt) : ({ c with anc := v } : Chip) = c.put_anc v := rfl
theorem Within.put_anc {v} (h : Within x b c) (hx : (Fx.of [.anc] []).le x = true) : Within x b (c.put_anc v) := h.upd_anc hx

/-- The block with another `diag`. -/
def Chip.put_diag (c : Chip) (v : DiagSt) : Chip := { c with diag := v }
theorem Chip.fold_diag (c : Chip) (v : DiagSt) : ({ c with diag := v } : Chip) = c.put_diag v := rfl
theorem Within.put_diag {v} (h : Within x b c) (hx : (Fx.of [.diag] []).le x = true) : Within x b (c.put_diag v) := h.upd_diag hx

/-- The block with another `host`. -/
def Chip.put_host (c : Chip) (v : Tab Nat HostSt) : Chip := { c with host := v }
theorem Chip.fold_host (c : Chip) (v : Tab Nat HostSt) : ({ c with host := v } : Chip) = c.put_host v := rfl
theorem Within.put_host {v} (h : Within x b c) (hx : (Fx.of [.host] []).le x = true) : Within x b (c.put_host v) := h.upd_host hx

/-- The block with another `hlane`. -/
def Chip.put_hlane (c : Chip) (v : Tab Nat LaneSt) : Chip := { c with hlane := v }
theorem Chip.fold_hlane (c : Chip) (v : Tab Nat LaneSt) : ({ c with hlane := v } : Chip) = c.put_hlane v := rfl
theorem Within.put_hlane {v} (h : Within x b c) (hx : (Fx.of [.hlane] []).le x = true) : Within x b (c.put_hlane v) := h.upd_hlane hx

/-- The block with another `time`. -/
def Chip.put_time (c : Chip) (v : TimeSt) : Chip := { c with time := v }
theorem Chip.fold_time (c : Chip) (v : TimeSt) : ({ c with time := v } : Chip) = c.put_time v := rfl
theorem Within.put_time {v} (h : Within x b c) (hx : (Fx.of [.time] []).le x = true) : Within x b (c.put_time v) := h.upd_time hx

/-- The block with another `sched`. -/
def Chip.put_sched (c : Chip) (v : Tab Nat SchedSt) : Chip := { c with sched := v }
theorem Chip.fold_sched (c : Chip) (v : Tab Nat SchedSt) : ({ c with sched := v } : Chip) = c.put_sched v := rfl
theorem Within.put_sched {v} (h : Within x b c) (hx : (Fx.of [.sched] []).le x = true) : Within x b (c.put_sched v) := h.upd_sched hx

/-- The block with another `queues`. -/
def Chip.put_queues (c : Chip) (v : Tab Nat (List Frame)) : Chip := { c with queues := v }
theorem Chip.fold_queues (c : Chip) (v : Tab Nat (List Frame)) : ({ c with queues := v } : Chip) = c.put_queues v := rfl
theorem Within.put_queues {v} (h : Within x b c) (hx : (Fx.of [.queues] []).le x = true) : Within x b (c.put_queues v) := h.upd_queues hx

/-- The block with another `frameNo`. -/
def Chip.put_frameNo (c : Chip) (v : Nat) : Chip := { c with frameNo := v }
theorem Chip.fold_frameNo (c : Chip) (v : Nat) : ({ c with frameNo := v } : Chip) = c.put_frameNo v := rfl
theorem Within.put_frameNo {v} (h : Within x b c) (hx : (Fx.of [.frameNo] []).le x = true) : Within x b (c.put_frameNo v) := h.upd_frameNo hx

/-- The block with another `flowSh`. -/
def Chip.put_flowSh (c : Chip) (v : Tab Nat Shaper) : Chip := { c with flowSh := v }
theorem Chip.fold_flowSh (c : Chip) (v : Tab Nat Shaper) : ({ c with flowSh := v } : Chip) = c.put_flowSh v := rfl
theorem Within.put_flowSh {v} (h : Within x b c) (hx : (Fx.of [.flowSh] []).le x = true) : Within x b (c.put_flowSh v) := h.upd_flowSh hx

/-- The block with another `svcSh`. -/
def Chip.put_svcSh (c : Chip) (v : Tab Nat Shaper) : Chip := { c with svcSh := v }
theorem Chip.fold_svcSh (c : Chip) (v : Tab Nat Shaper) : ({ c with svcSh := v } : Chip) = c.put_svcSh v := rfl
theorem Within.put_svcSh {v} (h : Within x b c) (hx : (Fx.of [.svcSh] []).le x = true) : Within x b (c.put_svcSh v) := h.upd_svcSh hx

/-- The block with another `portSh`. -/
def Chip.put_portSh (c : Chip) (v : Tab Nat Shaper) : Chip := { c with portSh := v }
theorem Chip.fold_portSh (c : Chip) (v : Tab Nat Shaper) : ({ c with portSh := v } : Chip) = c.put_portSh v := rfl
theorem Within.put_portSh {v} (h : Within x b c) (hx : (Fx.of [.portSh] []).le x = true) : Within x b (c.put_portSh v) := h.upd_portSh hx

/-- The block with another `meters`. -/
def Chip.put_meters (c : Chip) (v : Tab Nat Meter) : Chip := { c with meters := v }
theorem Chip.fold_meters (c : Chip) (v : Tab Nat Meter) : ({ c with meters := v } : Chip) = c.put_meters v := rfl
theorem Within.put_meters {v} (h : Within x b c) (hx : (Fx.of [.meters] []).le x = true) : Within x b (c.put_meters v) := h.upd_meters hx

/-- The block with another `buf`. -/
def Chip.put_buf (c : Chip) (v : BufSt) : Chip := { c with buf := v }
theorem Chip.fold_buf (c : Chip) (v : BufSt) : ({ c with buf := v } : Chip) = c.put_buf v := rfl
theorem Within.put_buf {v} (h : Within x b c) (hx : (Fx.of [.buf] []).le x = true) : Within x b (c.put_buf v) := h.upd_buf hx

/-- The block with another `wale`. -/
def Chip.put_wale (c : Chip) (v : FabricSt) : Chip := { c with wale := v }
theorem Chip.fold_wale (c : Chip) (v : FabricSt) : ({ c with wale := v } : Chip) = c.put_wale v := rfl
theorem Within.put_wale {v} (h : Within x b c) (hx : (Fx.of [.wale] []).le x = true) : Within x b (c.put_wale v) := h.upd_wale hx

/-- The block with another `dap`. -/
def Chip.put_dap (c : Chip) (v : DapSt) : Chip := { c with dap := v }
theorem Chip.fold_dap (c : Chip) (v : DapSt) : ({ c with dap := v } : Chip) = c.put_dap v := rfl
theorem Within.put_dap {v} (h : Within x b c) (hx : (Fx.of [.dap] []).le x = true) : Within x b (c.put_dap v) := h.upd_dap hx

/-- The block with another `cal`. -/
def Chip.put_cal (c : Chip) (v : Tab Nat CalSt) : Chip := { c with cal := v }
theorem Chip.fold_cal (c : Chip) (v : Tab Nat CalSt) : ({ c with cal := v } : Chip) = c.put_cal v := rfl
theorem Within.put_cal {v} (h : Within x b c) (hx : (Fx.of [.cal] []).le x = true) : Within x b (c.put_cal v) := h.upd_cal hx

/-- The block with another `bist`. -/
def Chip.put_bist (c : Chip) (v : BistSt) : Chip := { c with bist := v }
theorem Chip.fold_bist (c : Chip) (v : BistSt) : ({ c with bist := v } : Chip) = c.put_bist v := rfl
theorem Within.put_bist {v} (h : Within x b c) (hx : (Fx.of [.bist] []).le x = true) : Within x b (c.put_bist v) := h.upd_bist hx

/-- The block with another `boot`. -/
def Chip.put_boot (c : Chip) (v : BootSt) : Chip := { c with boot := v }
theorem Chip.fold_boot (c : Chip) (v : BootSt) : ({ c with boot := v } : Chip) = c.put_boot v := rfl
theorem Within.put_boot {v} (h : Within x b c) (hx : (Fx.of [.boot] []).le x = true) : Within x b (c.put_boot v) := h.upd_boot hx

/-- The block with another `cfg`. -/
def Chip.put_cfg (c : Chip) (v : CfgSt) : Chip := { c with cfg := v }
theorem Chip.fold_cfg (c : Chip) (v : CfgSt) : ({ c with cfg := v } : Chip) = c.put_cfg v := rfl
theorem Within.put_cfg {v} (h : Within x b c) (hx : (Fx.of [.cfg] []).le x = true) : Within x b (c.put_cfg v) := h.upd_cfg hx

/-- The block with another `nv`. -/
def Chip.put_nv (c : Chip) (v : Nv) : Chip := { c with nv := v }
theorem Chip.fold_nv (c : Chip) (v : Nv) : ({ c with nv := v } : Chip) = c.put_nv v := rfl
theorem Within.put_nv {v} (h : Within x b c) (hx : (Fx.of [.nv] []).le x = true) : Within x b (c.put_nv v) := h.upd_nv hx

/-- What a command leaves: its own effect is within `x`, and what follows every command comes after it. -/
def AfterOut (x : Fx) (s : State) (o : Out) : Prop :=
  ∃ t : State, o = .next t ∧ t.pending = s.pending ∧ ∃ m : Chip, Within x s.chip m ∧ EvFrame m t.chip

theorem State.run_after {s : State} {f : Chip → Chip} (h : ∀ c, Within x c (f c)) : AfterOut x s (s.run f) :=
  ⟨_, rfl, rfl, f s.chip, h _, EvFrame.after _ _⟩

theorem State.runWr_after {s : State} {f : Chip → Abort × Chip} (hx : (Fx.of [.access] []).le x = true)
    (h : ∀ c, Within x c (f c).2) : AfterOut x s (s.runWr f) := by
  refine State.run_after fun c => ?_
  unfold Chip.answer
  split
  · exact (h c).upd_access hx
  · exact (h c).upd_access hx
  · exact (Within.refl _ _).upd_access hx

/-- Everything. -/
def Fx.all : Fx := ⟨2 ^ 64 - 1, 2 ^ 1024 - 1⟩

theorem Part.idx_lt (p : Part) : p.ctorIdx < 64 := by cases p <;> decide

theorem Reg.idx_lt (r : Reg) : r.ctorIdx < 1024 := by cases r <;> decide

/-- Every object is in a set that holds them all. -/
theorem Fx.reg_le {x : Fx} (r : Reg) (h : x.regs = 2 ^ 1024 - 1) : (Fx.of [] [r]).le x = true := by
  rw [Fx.le_iff]
  refine ⟨by simp [Fx.of], ?_⟩
  apply Nat.eq_of_testBit_eq
  intro i
  simp only [Fx.of, List.foldl, Nat.zero_or, Nat.testBit_and, h, Nat.testBit_two_pow_sub_one, Nat.testBit_two_pow]
  by_cases hi : r.ctorIdx = i
  · subst hi; simp [r.idx_lt]
  · simp [hi]

/-- Whatever an operation does is within everything. -/
theorem Within.all (c d : Chip) : Within .all c d :=
  ⟨fun p hp => by simp only [Fx.hasPart, Fx.all, Nat.testBit_two_pow_sub_one, p.idx_lt, decide_true] at hp; exact absurd hp (by decide),
   fun k hk => by simp only [Fx.hasReg, Fx.all, Nat.testBit_two_pow_sub_one, k.reg.idx_lt, decide_true] at hk; exact absurd hk (by decide)⟩

theorem Within.draw (h : Within x b c) (hx : (Fx.of [.draws] []).le x = true) : Within x b c.draw.2 := h.upd_draws hx

end Sys2Proof.Machine
end

