-- ==== Sys2Proof/Laws/Answers.lean ====
section
/-!
SUPPORT. How a statement that a command answers a next state is proved: from the command's own effect, since what follows every
command leaves the parts that statements speak of as they are.
-/
set_option Elab.async false
namespace Sys2Proof.Machine

variable {b c d : Chip}

theorem EvFrame.held_eq (h : EvFrame c d) : d.held = c.held := h.part (·.held) fun _ => rfl
theorem EvFrame.draws_eq (h : EvFrame c d) : d.draws = c.draws := h.part (·.draws) fun _ => rfl
theorem EvFrame.root_eq (h : EvFrame c d) : d.root = c.root := h.part (·.root) fun _ => rfl
theorem EvFrame.tb_eq (h : EvFrame c d) : d.tb = c.tb := h.part (·.tb) fun _ => rfl
theorem EvFrame.ports_eq (h : EvFrame c d) : d.ports = c.ports := h.part (·.ports) fun _ => rfl
theorem EvFrame.pes_eq (h : EvFrame c d) : d.pes = c.pes := h.part (·.pes) fun _ => rfl
theorem EvFrame.anc_eq (h : EvFrame c d) : d.anc = c.anc := h.part (·.anc) fun _ => rfl
theorem EvFrame.diag_eq (h : EvFrame c d) : d.diag = c.diag := h.part (·.diag) fun _ => rfl
theorem EvFrame.host_eq (h : EvFrame c d) : d.host = c.host := h.part (·.host) fun _ => rfl
theorem EvFrame.hlane_eq (h : EvFrame c d) : d.hlane = c.hlane := h.part (·.hlane) fun _ => rfl
theorem EvFrame.time_eq (h : EvFrame c d) : d.time = c.time := h.part (·.time) fun _ => rfl
theorem EvFrame.sched_eq (h : EvFrame c d) : d.sched = c.sched := h.part (·.sched) fun _ => rfl
theorem EvFrame.queues_eq (h : EvFrame c d) : d.queues = c.queues := h.part (·.queues) fun _ => rfl
theorem EvFrame.frameNo_eq (h : EvFrame c d) : d.frameNo = c.frameNo := h.part (·.frameNo) fun _ => rfl
theorem EvFrame.flowSh_eq (h : EvFrame c d) : d.flowSh = c.flowSh := h.part (·.flowSh) fun _ => rfl
theorem EvFrame.svcSh_eq (h : EvFrame c d) : d.svcSh = c.svcSh := h.part (·.svcSh) fun _ => rfl
theorem EvFrame.portSh_eq (h : EvFrame c d) : d.portSh = c.portSh := h.part (·.portSh) fun _ => rfl
theorem EvFrame.meters_eq (h : EvFrame c d) : d.meters = c.meters := h.part (·.meters) fun _ => rfl
theorem EvFrame.buf_eq (h : EvFrame c d) : d.buf = c.buf := h.part (·.buf) fun _ => rfl
theorem EvFrame.dap_eq (h : EvFrame c d) : d.dap = c.dap := h.part (·.dap) fun _ => rfl
theorem EvFrame.bist_eq (h : EvFrame c d) : d.bist = c.bist := h.part (·.bist) fun _ => rfl
theorem EvFrame.boot_eq (h : EvFrame c d) : d.boot = c.boot := h.part (·.boot) fun _ => rfl
theorem EvFrame.cfg_eq (h : EvFrame c d) : d.cfg = c.cfg := h.part (·.cfg) fun _ => rfl
theorem EvFrame.nv_eq (h : EvFrame c d) : d.nv = c.nv := h.part (·.nv) fun _ => rfl

theorem EvFrame.port_eq (h : EvFrame c d) (p : Nat) : d.port p = c.port p := by simp [Chip.port, h.ports_eq]
theorem EvFrame.pe_eq (h : EvFrame c d) (e : Nat) : d.pe e = c.pe e := by simp [Chip.pe, h.pes_eq]
theorem EvFrame.tile_eq (h : EvFrame c d) (t : Nat) : d.tile t = c.tile t := by
  have := h.part (fun e => e.pwr.tiles) fun _ => rfl
  simp only [Chip.tile]; rw [this]
theorem EvFrame.pwrState_eq (h : EvFrame c d) : d.pwr.state = c.pwr.state := h.part (fun e => e.pwr.state) fun _ => rfl
theorem EvFrame.walePorts_eq (h : EvFrame c d) : d.wale.ports = c.wale.ports := h.part (fun e => e.wale.ports) fun _ => rfl

/-- An object that an operation does not name reads as before it. -/
theorem Within.rd {x : Fx} (h : Within x c d) {r : Reg} (hr : x.hasReg r = false) (hq : x.hasReg .QUAD_FORMATION = false)
    (i row : Nat) : d.rd r i row = c.rd r i row := by
  have hf : ∀ q, d.formation q = c.formation q := fun q => by
    simp [Chip.formation, Chip.raw, h.cell ⟨.QUAD_FORMATION, q, 0⟩ hq]
  rw [Chip.rd_eq, Chip.rd_eq, Chip.dflt_congr c d hf]
  simp [Chip.raw, h.cell ⟨r, i, row⟩ hr]

/-- A command answers a next state with whatever its own effect makes true. -/
theorem Answers.of_run {i : Instr} {s : State} {f : Chip → Chip} {P : Chip → Prop} (he : exec i s = s.run f)
    (h : ∀ d, EvFrame (f s.chip) d → P d) : Answers i s P := by
  obtain ⟨t, ht, hp, hf⟩ := State.run_answers s f
  exact ⟨t, he.trans ht, hp, h _ hf⟩

/-- A write that passes every check answers a next state with whatever its effect makes true. -/
theorem Answers.of_write {i : Instr} {s : State} {r : Reg} {n : Nat} {f : Chip → Abort × Chip} {P : Chip → Prop} (m : Chip)
    (he : exec i s = s.runWr fun c => c.gated r n f) (hs : s.chip.asleep r n = false) (hf : f s.chip = (.ok, m))
    (h : ∀ d, EvFrame { m with access := ⟨.ok, []⟩ } d → P d) : Answers i s P := by
  obtain ⟨t, ht, hp, hg⟩ := State.runWr_answers s fun c => c.gated r n f
  refine ⟨t, he.trans ht, hp, h _ ?_⟩
  simpa [Chip.gated, hs, hf, Chip.answer] using hg

/-- A write that a check turns away answers a next state in which the access result alone is new. -/
theorem Answers.of_abort {i : Instr} {s : State} {f : Chip → Abort × Chip} {P : Chip → Prop} {a : Abort} {m : Chip}
    (he : exec i s = s.runWr f) (hf : f s.chip = (a, m)) (ha : a ≠ .ok) (hc : a ≠ .commitRefused)
    (h : ∀ d, EvFrame { s.chip with access := ⟨a, []⟩ } d → P d) : Answers i s P := by
  obtain ⟨t, ht, hp, hg⟩ := State.runWr_answers s f
  refine ⟨t, he.trans ht, hp, h _ ?_⟩
  have : s.chip.answer (f s.chip) = { s.chip with access := ⟨a, []⟩ } := by
    rw [hf]; cases a <;> first | rfl | (exact absurd rfl ha) | (exact absurd rfl hc)
  rwa [this] at hg

/-- A command that changes nothing of its own. -/
theorem EvFrame.changesOnly {P : Key → Prop} (h : EvFrame c d) (hb : c.bare = b.bare)
    (hk : ∀ k : Key, k.reg.ofEvents = false → ¬ P k → c.dict.get? k = b.dict.get? k) : b.ChangesOnly d P :=
  ⟨h.bare.trans hb, fun k h1 h2 => (h.cells k h1 id).trans (hk k h1 h2)⟩

end Sys2Proof.Machine
end

