-- ==== Sys2Proof/Laws/FrameEvents.lean ====
section
/-!
SUPPORT. Frames of the operations of `Machine/Events.lean`: which parts and objects each may change.
-/
set_option Elab.async false
namespace Sys2Proof.Machine

/-- What `Chip.ringPut` may change. -/
def Chip.ringPut_fx : Fx := .of [.ev] [.EV_OVERWRITTEN, .EV_WRITE_COUNT]
theorem Chip.ringPut_in {X : Fx} {b0 c : Chip} {r : EvRec} (hW : Within X b0 c) (hX : Fx.le Chip.ringPut_fx X = true) : Within X b0 (Chip.ringPut c r) := by
  refine hW.trans (Within.mono hX ?_)
  unfold Chip.ringPut
  try dsimp only [Chip.fold_ev]
  repeat' first
    | with_reducible assumption
    | with_reducible exact .refl _ _
    | with_reducible refine Within.wrDev ?_ (by decide +kernel)
    | with_reducible refine Within.inc ?_ (by decide +kernel)
    | with_reducible refine Within.put_ev ?_ (by decide +kernel)
    | with_reducible refine Within.ite ?_ ?_
    | split
    | dsimp only


/-- What `Chip.overflowFold` may change. -/
def Chip.overflowFold_fx : Fx := .of [.ev] [.EV_COALESCED_COUNT]
theorem Chip.overflowFold_in {X : Fx} {b0 c : Chip} {r : EvRec} (hW : Within X b0 c) (hX : Fx.le Chip.overflowFold_fx X = true) : Within X b0 (Chip.overflowFold c r) := by
  refine hW.trans (Within.mono hX ?_)
  unfold Chip.overflowFold
  try dsimp only [Chip.fold_ev]
  repeat' first
    | with_reducible assumption
    | with_reducible exact .refl _ _
    | with_reducible refine Within.add ?_ (by decide +kernel)
    | with_reducible refine Within.put_ev ?_ (by decide +kernel)
    | with_reducible refine Within.ite ?_ ?_
    | split
    | dsimp only


/-- What `Chip.waleOffer` may change. -/
def Chip.waleOffer_fx : Fx := .of [.wale] []
theorem Chip.waleOffer_in {X : Fx} {b0 c : Chip} {r : EvRec} (hW : Within X b0 c) (hX : Fx.le Chip.waleOffer_fx X = true) : Within X b0 (Chip.waleOffer c r) := by
  refine hW.trans (Within.mono hX ?_)
  unfold Chip.waleOffer
  try dsimp only [Chip.fold_wale]
  repeat' first
    | with_reducible assumption
    | with_reducible exact .refl _ _
    | with_reducible refine Within.put_wale ?_ (by decide +kernel)
    | with_reducible refine Within.ite ?_ ?_
    | split
    | dsimp only


/-- What `Chip.ringOwn` may change. -/
def Chip.ringOwn_fx : Fx := .union [Chip.ringPut_fx, Chip.waleOffer_fx, .of [.ev] []]
theorem Chip.ringOwn_in {X : Fx} {b0 c : Chip} {r : EvRec} (hW : Within X b0 c) (hX : Fx.le Chip.ringOwn_fx X = true) : Within X b0 (Chip.ringOwn c r) := by
  refine hW.trans (Within.mono hX ?_)
  unfold Chip.ringOwn
  try dsimp only [Chip.fold_ev]
  repeat' first
    | with_reducible assumption
    | with_reducible exact .refl _ _
    | with_reducible refine Chip.ringPut_in ?_ (by decide +kernel)
    | with_reducible refine Chip.waleOffer_in ?_ (by decide +kernel)
    | with_reducible refine Within.put_ev ?_ (by decide +kernel)
    | with_reducible refine Within.ite ?_ ?_
    | split
    | dsimp only


/-- What `Chip.emitRec` may change. -/
def Chip.emitRec_fx : Fx := .union [Chip.overflowFold_fx, Chip.ringOwn_fx, Chip.ringPut_fx, .of [] [.EV_DROP]]
theorem Chip.emitRec_in {X : Fx} {b0 c : Chip} {r : EvRec} {own : Bool} (hW : Within X b0 c) (hX : Fx.le Chip.emitRec_fx X = true) : Within X b0 (Chip.emitRec c r own) := by
  refine hW.trans (Within.mono hX ?_)
  unfold Chip.emitRec
  try dsimp only
  repeat' first
    | with_reducible assumption
    | with_reducible exact .refl _ _
    | with_reducible refine Chip.overflowFold_in ?_ (by decide +kernel)
    | with_reducible refine Chip.ringOwn_in ?_ (by decide +kernel)
    | with_reducible refine Chip.ringPut_in ?_ (by decide +kernel)
    | with_reducible refine Within.addRow ?_ (by decide +kernel)
    | with_reducible refine Within.ite ?_ ?_
    | split
    | dsimp only


/-- What `Chip.markStatus` may change. -/
def Chip.markStatus_fx : Fx := .of [] [.EV_STATUS_DEV, .EV_STATUS_TILE, .EV_STATUS_QUAD, .EV_STATUS_PORT, .EV_STATUS_PE, .EV_STATUS_WL, .EV_STATUS_MGMT, .EV_STATUS_SPI, .EV_STATUS_HLANE, .EV_STATUS_QC]
theorem Chip.markStatus_in {x : Fx} {b c : Chip} {o : Occ} (h : Within x b c) (hx : Fx.le Chip.markStatus_fx x = true) :
    Within x b (c.markStatus o) := by
  refine h.trans (Within.mono hx ?_)
  have he : ∀ k : Cls, (Fx.of [] [k.evStatus]).le Chip.markStatus_fx = true := fun k => by cases k <;> decide +kernel
  unfold Chip.markStatus
  split
  · exact Within.wr (.refl _ _) (he _)
  · exact Within.wr (.refl _ _) (he _)
  · exact .refl _ _

/-- What `Chip.displace` may change. -/
def Chip.displace_fx : Fx := .union [Chip.emitRec_fx, .of [.ev] [.EV_COALESCED_COUNT]]
theorem Chip.displace_in {X : Fx} {b0 c : Chip}  (hW : Within X b0 c) (hX : Fx.le Chip.displace_fx X = true) : Within X b0 (Chip.displace c) := by
  refine hW.trans (Within.mono hX ?_)
  unfold Chip.displace
  try dsimp only [Chip.fold_ev]
  repeat' first
    | with_reducible assumption
    | with_reducible exact .refl _ _
    | with_reducible refine Chip.emitRec_in ?_ (by decide +kernel)
    | with_reducible refine Within.inc ?_ (by decide +kernel)
    | with_reducible refine Within.put_ev ?_ (by decide +kernel)
    | with_reducible refine Within.ite ?_ ?_
    | split
    | dsimp only


/-- What `Chip.occur` may change. -/
def Chip.occur_fx : Fx := .union [Chip.displace_fx, Chip.emitRec_fx, Chip.markStatus_fx, .of [.ev] [.EV_COALESCED_COUNT]]
theorem Chip.occur_in {X : Fx} {b0 c : Chip} {o : Occ} (hW : Within X b0 c) (hX : Fx.le Chip.occur_fx X = true) : Within X b0 (Chip.occur c o) := by
  refine hW.trans (Within.mono hX ?_)
  unfold Chip.occur
  try dsimp only [Chip.fold_ev]
  repeat' first
    | with_reducible assumption
    | with_reducible exact .refl _ _
    | with_reducible refine Chip.displace_in ?_ (by decide +kernel)
    | with_reducible refine Chip.emitRec_in ?_ (by decide +kernel)
    | with_reducible refine Chip.markStatus_in ?_ (by decide +kernel)
    | with_reducible refine Within.inc ?_ (by decide +kernel)
    | with_reducible refine Within.put_ev ?_ (by decide +kernel)
    | with_reducible refine Within.ite ?_ ?_
    | split
    | dsimp only


/-- What `Chip.flush` may change. -/
def Chip.flush_fx : Fx := .union [Chip.occur_fx, .of [.ev] []]
theorem Chip.flush_in {X : Fx} {b0 c : Chip}  (hW : Within X b0 c) (hX : Fx.le Chip.flush_fx X = true) : Within X b0 (Chip.flush c) := by
  refine hW.trans (Within.mono hX ?_)
  unfold Chip.flush
  try dsimp only [Chip.fold_ev]
  repeat' first
    | with_reducible assumption
    | with_reducible exact .refl _ _
    | with_reducible refine Chip.occur_in ?_ (by decide +kernel)
    | with_reducible refine Within.put_ev ?_ (by decide +kernel)
    | with_reducible refine Within.each (fun _ _ _ => ?_) ?_
    | with_reducible refine Within.ite ?_ ?_
    | split
    | dsimp only


/-- What `Chip.overflowDrain` may change. -/
def Chip.overflowDrain_fx : Fx := .union [Chip.ringOwn_fx, .of [.ev] []]
theorem Chip.overflowDrain_in {X : Fx} {b0 c : Chip}  (hW : Within X b0 c) (hX : Fx.le Chip.overflowDrain_fx X = true) : Within X b0 (Chip.overflowDrain c) := by
  refine hW.trans (Within.mono hX ?_)
  unfold Chip.overflowDrain
  try dsimp only [Chip.fold_ev]
  repeat' first
    | with_reducible assumption
    | with_reducible exact .refl _ _
    | with_reducible refine Chip.ringOwn_in ?_ (by decide +kernel)
    | with_reducible refine Within.put_ev ?_ (by decide +kernel)
    | with_reducible refine Within.ite ?_ ?_
    | split
    | dsimp only


/-- What `Chip.closeWindow` may change. -/
def Chip.closeWindow_fx : Fx := .union [Chip.emitRec_fx, .of [.ev] []]
theorem Chip.closeWindow_in {X : Fx} {b0 c : Chip} {inst : Nat} {e : EvName} (hW : Within X b0 c) (hX : Fx.le Chip.closeWindow_fx X = true) : Within X b0 (Chip.closeWindow c inst e) := by
  refine hW.trans (Within.mono hX ?_)
  unfold Chip.closeWindow
  try dsimp only [Chip.fold_ev]
  repeat' first
    | with_reducible assumption
    | with_reducible exact .refl _ _
    | with_reducible refine Chip.emitRec_in ?_ (by decide +kernel)
    | with_reducible refine Within.put_ev ?_ (by decide +kernel)
    | with_reducible refine Within.ite ?_ ?_
    | split
    | dsimp only


end Sys2Proof.Machine
end

