-- ==== Sys2Proof/Laws/FramePowerBase.lean ====
section
/-!
SUPPORT. Frames of the operations of `Machine/PowerBase.lean`: which parts and objects each may change.
-/
set_option Elab.async false
namespace Sys2Proof.Machine

/-- What `Chip.changeLevel` may change. -/
def Chip.changeLevel_fx : Fx := .of [.pwr] []
theorem Chip.changeLevel_in {X : Fx} {b0 c : Chip} {t : Nat} {l : Nat} (hW : Within X b0 c) (hX : Fx.le Chip.changeLevel_fx X = true) : Within X b0 (Chip.changeLevel c t l) := by
  refine hW.trans (Within.mono hX ?_)
  unfold Chip.changeLevel
  try dsimp only
  repeat' first
    | with_reducible assumption
    | with_reducible exact .refl _ _
    | with_reducible refine Within.setTile ?_ (by decide +kernel)
    | with_reducible refine Within.ite ?_ ?_
    | split
    | dsimp only


/-- What `Chip.tileRaised` may change. -/
def Chip.tileRaised_fx : Fx := Chip.changeLevel_fx
theorem Chip.tileRaised_in {X : Fx} {b0 c : Chip} {t : Nat} (hW : Within X b0 c) (hX : Fx.le Chip.tileRaised_fx X = true) : Within X b0 (Chip.tileRaised c t) := by
  refine hW.trans (Within.mono hX ?_)
  unfold Chip.tileRaised
  try dsimp only
  repeat' first
    | with_reducible assumption
    | with_reducible exact .refl _ _
    | with_reducible refine Chip.changeLevel_in ?_ (by decide +kernel)
    | with_reducible refine Within.ite ?_ ?_
    | split
    | dsimp only


/-- What `Chip.needRaised` may change. -/
def Chip.needRaised_fx : Fx := Chip.tileRaised_fx
theorem Chip.needRaised_in {X : Fx} {b0 c : Chip} {p : Nat} (hW : Within X b0 c) (hX : Fx.le Chip.needRaised_fx X = true) : Within X b0 (Chip.needRaised c p) := by
  refine hW.trans (Within.mono hX ?_)
  unfold Chip.needRaised
  try dsimp only
  repeat' first
    | with_reducible assumption
    | with_reducible exact .refl _ _
    | with_reducible refine Chip.tileRaised_in ?_ (by decide +kernel)
    | with_reducible refine Within.ite ?_ ?_
    | split
    | dsimp only


/-- What `Chip.roundEnd` may change. -/
def Chip.roundEnd_fx : Fx := .of [.cal] [.CAL_ROUND_TIME]
theorem Chip.roundEnd_in {X : Fx} {b0 c : Chip} {e : Nat} {dac : Bool} (hW : Within X b0 c) (hX : Fx.le Chip.roundEnd_fx X = true) : Within X b0 (Chip.roundEnd c e dac) := by
  refine hW.trans (Within.mono hX ?_)
  unfold Chip.roundEnd
  try dsimp only
  repeat' first
    | with_reducible assumption
    | with_reducible exact .refl _ _
    | with_reducible refine Within.wr ?_ (by decide +kernel)
    | with_reducible refine Within.setCal ?_ (by decide +kernel)
    | with_reducible refine Within.ite ?_ ?_
    | split
    | dsimp only


end Sys2Proof.Machine
end

