-- ==== Sys2Proof/Laws/FrameAnc.lean ====
section
/-!
SUPPORT. Frames of the operations of `Machine/Anc.lean`: which parts and objects each may change.
-/
set_option Elab.async false
namespace Sys2Proof.Machine

/-- What `Chip.setSlot` may change. -/
def Chip.setSlot_fx : Fx := .of [.anc] []
theorem Chip.setSlot_in {X : Fx} {b0 c : Chip} {v : Nat} {k : Nat} {f : Slot → Slot} (hW : Within X b0 c) (hX : Fx.le Chip.setSlot_fx X = true) : Within X b0 (Chip.setSlot c v k f) := by
  refine hW.trans (Within.mono hX ?_)
  unfold Chip.setSlot
  try dsimp only
  repeat' first
    | with_reducible assumption
    | with_reducible exact .refl _ _
    | with_reducible refine Within.setAnc ?_ (by decide +kernel)
    | with_reducible refine Within.ite ?_ ?_
    | split
    | dsimp only


/-- What `Chip.zeroTaps` may change. -/
def Chip.zeroTaps_fx : Fx := .of [.pes] []
theorem Chip.zeroTaps_in {X : Fx} {b0 c : Chip} {v : Nat} {k : Nat} (hW : Within X b0 c) (hX : Fx.le Chip.zeroTaps_fx X = true) : Within X b0 (Chip.zeroTaps c v k) := by
  refine hW.trans (Within.mono hX ?_)
  unfold Chip.zeroTaps
  try dsimp only
  repeat' first
    | with_reducible assumption
    | with_reducible exact .refl _ _
    | with_reducible refine Within.setPe ?_ (by decide +kernel)
    | with_reducible refine Within.ite ?_ ?_
    | split
    | dsimp only


/-- What `Chip.memberChange` may change. -/
def Chip.memberChange_fx : Fx := .of [.ev] [.ANC_MAP_STATUS, .ANC_MAP_VERSION]
theorem Chip.memberChange_in {X : Fx} {b0 c : Chip} {v : Nat} {k : Nat} (hW : Within X b0 c) (hX : Fx.le Chip.memberChange_fx X = true) : Within X b0 (Chip.memberChange c v k) := by
  refine hW.trans (Within.mono hX ?_)
  unfold Chip.memberChange
  try dsimp only
  repeat' first
    | with_reducible assumption
    | with_reducible exact .refl _ _
    | with_reducible refine Within.inc ?_ (by decide +kernel)
    | with_reducible refine Within.setBit ?_ (by decide +kernel)
    | with_reducible refine Within.raise ?_ (by decide +kernel)
    | with_reducible refine Within.ite ?_ ?_
    | split
    | dsimp only


/-- What `Chip.emptySlot` may change. -/
def Chip.emptySlot_fx : Fx := .union [Chip.memberChange_fx, Chip.setSlot_fx, Chip.zeroTaps_fx, .of [] [.ANC_DROP_COUNT]]
theorem Chip.emptySlot_in {X : Fx} {b0 c : Chip} {v : Nat} {k : Nat} (hW : Within X b0 c) (hX : Fx.le Chip.emptySlot_fx X = true) : Within X b0 (Chip.emptySlot c v k) := by
  refine hW.trans (Within.mono hX ?_)
  unfold Chip.emptySlot
  try dsimp only
  repeat' first
    | with_reducible assumption
    | with_reducible exact .refl _ _
    | with_reducible refine Chip.memberChange_in ?_ (by decide +kernel)
    | with_reducible refine Chip.setSlot_in ?_ (by decide +kernel)
    | with_reducible refine Chip.zeroTaps_in ?_ (by decide +kernel)
    | with_reducible refine Within.inc ?_ (by decide +kernel)
    | with_reducible refine Within.ite ?_ ?_
    | split
    | dsimp only


/-- What `Chip.fillSlot` may change. -/
def Chip.fillSlot_fx : Fx := .union [Chip.memberChange_fx, Chip.setSlot_fx, Chip.zeroTaps_fx]
theorem Chip.fillSlot_in {X : Fx} {b0 c : Chip} {v : Nat} {k : Nat} {s : Slot} (hW : Within X b0 c) (hX : Fx.le Chip.fillSlot_fx X = true) : Within X b0 (Chip.fillSlot c v k s) := by
  refine hW.trans (Within.mono hX ?_)
  unfold Chip.fillSlot
  try dsimp only
  repeat' first
    | with_reducible assumption
    | with_reducible exact .refl _ _
    | with_reducible refine Chip.memberChange_in ?_ (by decide +kernel)
    | with_reducible refine Chip.setSlot_in ?_ (by decide +kernel)
    | with_reducible refine Chip.zeroTaps_in ?_ (by decide +kernel)
    | with_reducible refine Within.ite ?_ ?_
    | split
    | dsimp only


/-- What `Chip.reprobe` may change. -/
def Chip.reprobe_fx : Fx := .union [Chip.setSlot_fx, Chip.zeroTaps_fx]
theorem Chip.reprobe_in {X : Fx} {b0 c : Chip} {v : Nat} {k : Nat} (hW : Within X b0 c) (hX : Fx.le Chip.reprobe_fx X = true) : Within X b0 (Chip.reprobe c v k) := by
  refine hW.trans (Within.mono hX ?_)
  unfold Chip.reprobe
  try dsimp only
  repeat' first
    | with_reducible assumption
    | with_reducible exact .refl _ _
    | with_reducible refine Chip.setSlot_in ?_ (by decide +kernel)
    | with_reducible refine Chip.zeroTaps_in ?_ (by decide +kernel)
    | with_reducible refine Within.ite ?_ ?_
    | split
    | dsimp only


/-- What `Chip.releaseSlot` may change. -/
def Chip.releaseSlot_fx : Fx := .union [Chip.emptySlot_fx, Chip.reprobe_fx]
theorem Chip.releaseSlot_in {X : Fx} {b0 c : Chip} {v : Nat} {k : Nat} (hW : Within X b0 c) (hX : Fx.le Chip.releaseSlot_fx X = true) : Within X b0 (Chip.releaseSlot c v k) := by
  refine hW.trans (Within.mono hX ?_)
  unfold Chip.releaseSlot
  try dsimp only
  repeat' first
    | with_reducible assumption
    | with_reducible exact .refl _ _
    | with_reducible refine Chip.emptySlot_in ?_ (by decide +kernel)
    | with_reducible refine Chip.reprobe_in ?_ (by decide +kernel)
    | with_reducible refine Within.ite ?_ ?_
    | split
    | dsimp only


/-- A loop over the slots that name a neighbour changes what its turns change. -/
theorem Chip.eachSlotOf_in {X : Fx} {b0 c : Chip} {n : Nat} {f : Chip → Nat → Nat → Chip}
    (hf : ∀ d v k, Within X b0 d → Within X b0 (f d v k)) (hW : Within X b0 c) : Within X b0 (c.eachSlotOf n f) := by
  unfold Chip.eachSlotOf
  repeat' first
    | with_reducible assumption
    | with_reducible refine Within.each (fun _ _ _ => ?_) ?_
    | with_reducible refine hf _ _ _ ?_
    | split
    | dsimp only

/-- What `Chip.ancVictimReset` may change. -/
def Chip.ancVictimReset_fx : Fx := Chip.reprobe_fx
theorem Chip.ancVictimReset_in {X : Fx} {b0 c : Chip} {v : Nat} (hW : Within X b0 c) (hX : Fx.le Chip.ancVictimReset_fx X = true) : Within X b0 (Chip.ancVictimReset c v) := by
  refine hW.trans (Within.mono hX ?_)
  unfold Chip.ancVictimReset
  try dsimp only
  repeat' first
    | with_reducible assumption
    | with_reducible exact .refl _ _
    | with_reducible refine Chip.reprobe_in ?_ (by decide +kernel)
    | with_reducible refine Within.each (fun _ _ _ => ?_) ?_
    | with_reducible refine Within.ite ?_ ?_
    | split
    | dsimp only


/-- What `Chip.ancDrives` may change. -/
def Chip.ancDrives_fx : Fx := .union [Chip.reprobe_fx, Chip.setSlot_fx, .of [.ev] [.ANC_DISCARD_COUNT]]
theorem Chip.ancDrives_in {X : Fx} {b0 c : Chip} {n : Nat} {m : LineMode} (hW : Within X b0 c) (hX : Fx.le Chip.ancDrives_fx X = true) : Within X b0 (Chip.ancDrives c n m) := by
  refine hW.trans (Within.mono hX ?_)
  unfold Chip.ancDrives
  try dsimp only
  repeat' first
    | with_reducible assumption
    | with_reducible exact .refl _ _
    | with_reducible refine Chip.eachSlotOf_in (fun _ _ _ _ => ?_) ?_
    | with_reducible refine Chip.reprobe_in ?_ (by decide +kernel)
    | with_reducible refine Chip.setSlot_in ?_ (by decide +kernel)
    | with_reducible refine Within.inc ?_ (by decide +kernel)
    | with_reducible refine Within.raise ?_ (by decide +kernel)
    | with_reducible refine Within.each (fun _ _ _ => ?_) ?_
    | with_reducible refine Within.ite ?_ ?_
    | split
    | dsimp only


/-- What `Chip.ancStops` may change. -/
def Chip.ancStops_fx : Fx := Chip.setSlot_fx
theorem Chip.ancStops_in {X : Fx} {b0 c : Chip} {n : Nat} (hW : Within X b0 c) (hX : Fx.le Chip.ancStops_fx X = true) : Within X b0 (Chip.ancStops c n) := by
  refine hW.trans (Within.mono hX ?_)
  unfold Chip.ancStops
  try dsimp only
  repeat' first
    | with_reducible assumption
    | with_reducible exact .refl _ _
    | with_reducible refine Chip.eachSlotOf_in (fun _ _ _ _ => ?_) ?_
    | with_reducible refine Chip.setSlot_in ?_ (by decide +kernel)
    | with_reducible refine Within.each (fun _ _ _ => ?_) ?_
    | with_reducible refine Within.ite ?_ ?_
    | split
    | dsimp only


/-- What `Chip.ancPortDrives` may change. -/
def Chip.ancPortDrives_fx : Fx := Chip.ancDrives_fx
theorem Chip.ancPortDrives_in {X : Fx} {b0 c : Chip} {p : Nat} (hW : Within X b0 c) (hX : Fx.le Chip.ancPortDrives_fx X = true) : Within X b0 (Chip.ancPortDrives c p) := by
  refine hW.trans (Within.mono hX ?_)
  unfold Chip.ancPortDrives
  try dsimp only
  repeat' first
    | with_reducible assumption
    | with_reducible exact .refl _ _
    | with_reducible refine Chip.ancDrives_in ?_ (by decide +kernel)
    | with_reducible refine Within.each (fun _ _ _ => ?_) ?_
    | with_reducible refine Within.ite ?_ ?_
    | split
    | dsimp only


/-- What `Chip.ancPortDown` may change. -/
def Chip.ancPortDown_fx : Fx := .union [Chip.ancStops_fx, .of [.anc] []]
theorem Chip.ancPortDown_in {X : Fx} {b0 c : Chip} {p : Nat} (hW : Within X b0 c) (hX : Fx.le Chip.ancPortDown_fx X = true) : Within X b0 (Chip.ancPortDown c p) := by
  refine hW.trans (Within.mono hX ?_)
  unfold Chip.ancPortDown
  try dsimp only
  repeat' first
    | with_reducible assumption
    | with_reducible exact .refl _ _
    | with_reducible refine Chip.ancStops_in ?_ (by decide +kernel)
    | with_reducible refine Within.setAnc ?_ (by decide +kernel)
    | with_reducible refine Within.each (fun _ _ _ => ?_) ?_
    | with_reducible refine Within.ite ?_ ?_
    | split
    | dsimp only


/-- What `Chip.ancPeDown` may change. -/
def Chip.ancPeDown_fx : Fx := Chip.ancStops_fx
theorem Chip.ancPeDown_in {X : Fx} {b0 c : Chip} {e : Nat} (hW : Within X b0 c) (hX : Fx.le Chip.ancPeDown_fx X = true) : Within X b0 (Chip.ancPeDown c e) := by
  refine hW.trans (Within.mono hX ?_)
  unfold Chip.ancPeDown
  try dsimp only
  repeat' first
    | with_reducible assumption
    | with_reducible exact .refl _ _
    | with_reducible refine Chip.ancStops_in ?_ (by decide +kernel)
    | with_reducible refine Within.ite ?_ ?_
    | split
    | dsimp only


/-- What `Chip.ancUnusable` may change. -/
def Chip.ancUnusable_fx : Fx := .union [Chip.releaseSlot_fx, .of [.anc] []]
theorem Chip.ancUnusable_in {X : Fx} {b0 c : Chip} {e : Nat} (hW : Within X b0 c) (hX : Fx.le Chip.ancUnusable_fx X = true) : Within X b0 (Chip.ancUnusable c e) := by
  refine hW.trans (Within.mono hX ?_)
  unfold Chip.ancUnusable
  try dsimp only
  repeat' first
    | with_reducible assumption
    | with_reducible exact .refl _ _
    | with_reducible refine Chip.eachSlotOf_in (fun _ _ _ _ => ?_) ?_
    | with_reducible refine Chip.releaseSlot_in ?_ (by decide +kernel)
    | with_reducible refine Within.setAnc ?_ (by decide +kernel)
    | with_reducible refine Within.each (fun _ _ _ => ?_) ?_
    | with_reducible refine Within.ite ?_ ?_
    | split
    | dsimp only


/-- What `Chip.ancGains` may change. -/
def Chip.ancGains_fx : Fx := .union [Chip.setSlot_fx, .of [] [.ANC_GAIN]]
theorem Chip.ancGains_in {X : Fx} {b0 c : Chip} {v : Nat} {gain : Int} {each : List Int} (hW : Within X b0 c) (hX : Fx.le Chip.ancGains_fx X = true) : Within X b0 (Chip.ancGains c v gain each) := by
  refine hW.trans (Within.mono hX ?_)
  unfold Chip.ancGains
  try dsimp only
  repeat' first
    | with_reducible assumption
    | with_reducible exact .refl _ _
    | with_reducible refine Chip.setSlot_in ?_ (by decide +kernel)
    | with_reducible refine Within.wrInt ?_ (by decide +kernel)
    | with_reducible refine Within.each (fun _ _ _ => ?_) ?_
    | with_reducible refine Within.ite ?_ ?_
    | split
    | dsimp only


/-- What `Chip.ancFormation` may change. -/
def Chip.ancFormation_fx : Fx := .union [Chip.emptySlot_fx, .of [.ev] []]
theorem Chip.ancFormation_in {X : Fx} {b0 c : Chip} {q : Nat} (hW : Within X b0 c) (hX : Fx.le Chip.ancFormation_fx X = true) : Within X b0 (Chip.ancFormation c q) := by
  refine hW.trans (Within.mono hX ?_)
  unfold Chip.ancFormation
  try dsimp only
  repeat' first
    | with_reducible assumption
    | with_reducible exact .refl _ _
    | with_reducible refine Chip.emptySlot_in ?_ (by decide +kernel)
    | with_reducible refine Within.raise ?_ (by decide +kernel)
    | with_reducible refine Within.each (fun _ _ _ => ?_) ?_
    | with_reducible refine Within.ite ?_ ?_
    | split
    | dsimp only


/-- What `Chip.writeAncSlot` may change. -/
def Chip.writeAncSlot_fx : Fx := .union [Chip.emptySlot_fx, Chip.fillSlot_fx]
theorem Chip.writeAncSlot_in {X : Fx} {b0 c : Chip} {v : Nat} {k : Nat} {val : Nat} (hW : Within X b0 c) (hX : Fx.le Chip.writeAncSlot_fx X = true) : Within X b0 (Chip.writeAncSlot c v k val).2 := by
  refine hW.trans (Within.mono hX ?_)
  unfold Chip.writeAncSlot
  try dsimp only
  repeat' first
    | with_reducible assumption
    | with_reducible exact .refl _ _
    | with_reducible refine Chip.emptySlot_in ?_ (by decide +kernel)
    | with_reducible refine Chip.fillSlot_in ?_ (by decide +kernel)
    | with_reducible refine Within.ite ?_ ?_
    | split
    | dsimp only


/-- What `Chip.writeAncEnable` may change. -/
def Chip.writeAncEnable_fx : Fx := .union [Chip.emptySlot_fx, .of [.anc] [.ANC_ENABLE]]
theorem Chip.writeAncEnable_in {X : Fx} {b0 c : Chip} {p : Nat} {x : Nat} (hW : Within X b0 c) (hX : Fx.le Chip.writeAncEnable_fx X = true) : Within X b0 (Chip.writeAncEnable c p x).2 := by
  refine hW.trans (Within.mono hX ?_)
  unfold Chip.writeAncEnable
  try dsimp only
  repeat' first
    | with_reducible assumption
    | with_reducible exact .refl _ _
    | with_reducible refine Chip.emptySlot_in ?_ (by decide +kernel)
    | with_reducible refine Within.wr ?_ (by decide +kernel)
    | with_reducible refine Within.setAnc ?_ (by decide +kernel)
    | with_reducible refine Within.each (fun _ _ _ => ?_) ?_
    | with_reducible refine Within.ite ?_ ?_
    | split
    | dsimp only


/-- What `Chip.weaveCopy` may change. -/
def Chip.weaveCopy_fx : Fx := .of [.nv] [.ANC_MAP_STATUS]
theorem Chip.weaveCopy_in {X : Fx} {b0 c : Chip}  (hW : Within X b0 c) (hX : Fx.le Chip.weaveCopy_fx X = true) : Within X b0 (Chip.weaveCopy c) := by
  refine hW.trans (Within.mono hX ?_)
  unfold Chip.weaveCopy
  try dsimp only [Chip.fold_nv]
  repeat' first
    | with_reducible assumption
    | with_reducible exact .refl _ _
    | with_reducible refine Within.setBit ?_ (by decide +kernel)
    | with_reducible refine Within.put_nv ?_ (by decide +kernel)
    | with_reducible refine Within.ite ?_ ?_
    | split
    | dsimp only


/-- What `Chip.weaveRestore` may change. -/
def Chip.weaveRestore_fx : Fx := .union [Chip.fillSlot_fx, .of [.ev, .nv] [.ANC_MAP_STATUS]]
theorem Chip.weaveRestore_in {X : Fx} {b0 c : Chip} {bad : Bool} (hW : Within X b0 c) (hX : Fx.le Chip.weaveRestore_fx X = true) : Within X b0 (Chip.weaveRestore c bad) := by
  refine hW.trans (Within.mono hX ?_)
  unfold Chip.weaveRestore
  try dsimp only [Chip.fold_nv]
  repeat' first
    | with_reducible assumption
    | with_reducible exact .refl _ _
    | with_reducible refine Chip.fillSlot_in ?_ (by decide +kernel)
    | with_reducible refine Within.setBit ?_ (by decide +kernel)
    | with_reducible refine Within.raise ?_ (by decide +kernel)
    | with_reducible refine Within.put_nv ?_ (by decide +kernel)
    | with_reducible refine Within.each (fun _ _ _ => ?_) ?_
    | with_reducible refine Within.ite ?_ ?_
    | split
    | dsimp only


/-- What `Chip.writeMapClear` may change. -/
def Chip.writeMapClear_fx : Fx := .union [Chip.emptySlot_fx, Chip.weaveCopy_fx, .of [.anc] []]
theorem Chip.writeMapClear_in {X : Fx} {b0 c : Chip} {x : Nat} (hW : Within X b0 c) (hX : Fx.le Chip.writeMapClear_fx X = true) : Within X b0 (Chip.writeMapClear c x).2 := by
  refine hW.trans (Within.mono hX ?_)
  unfold Chip.writeMapClear
  try dsimp only
  repeat' first
    | with_reducible assumption
    | with_reducible exact .refl _ _
    | with_reducible refine Chip.emptySlot_in ?_ (by decide +kernel)
    | with_reducible refine Chip.weaveCopy_in ?_ (by decide +kernel)
    | with_reducible refine Within.setAnc ?_ (by decide +kernel)
    | with_reducible refine Within.each (fun _ _ _ => ?_) ?_
    | with_reducible refine Within.ite ?_ ?_
    | split
    | dsimp only


/-- What `Chip.writeMapPersist` may change. -/
def Chip.writeMapPersist_fx : Fx := .of [.nv] [.ANC_MAP_PERSIST, .ANC_MAP_STATUS]
theorem Chip.writeMapPersist_in {X : Fx} {b0 c : Chip} {x : Nat} (hW : Within X b0 c) (hX : Fx.le Chip.writeMapPersist_fx X = true) : Within X b0 (Chip.writeMapPersist c x).2 := by
  refine hW.trans (Within.mono hX ?_)
  unfold Chip.writeMapPersist
  try dsimp only [Chip.fold_nv]
  repeat' first
    | with_reducible assumption
    | with_reducible exact .refl _ _
    | with_reducible refine Within.wr ?_ (by decide +kernel)
    | with_reducible refine Within.setBit ?_ (by decide +kernel)
    | with_reducible refine Within.put_nv ?_ (by decide +kernel)
    | with_reducible refine Within.ite ?_ ?_
    | split
    | dsimp only


/-- What `Chip.takeSlot` may change. -/
def Chip.takeSlot_fx : Fx := .union [Chip.emptySlot_fx, Chip.fillSlot_fx]
theorem Chip.takeSlot_in {X : Fx} {b0 c : Chip} {v : Nat} {x : Candidate} (hW : Within X b0 c) (hX : Fx.le Chip.takeSlot_fx X = true) : Within X b0 (Chip.takeSlot c v x) := by
  refine hW.trans (Within.mono hX ?_)
  unfold Chip.takeSlot
  try dsimp only
  repeat' first
    | with_reducible assumption
    | with_reducible exact .refl _ _
    | with_reducible refine Chip.emptySlot_in ?_ (by decide +kernel)
    | with_reducible refine Chip.fillSlot_in ?_ (by decide +kernel)
    | with_reducible refine Within.ite ?_ ?_
    | split
    | dsimp only


/-- What `Chip.passEnd` may change. -/
def Chip.passEnd_fx : Fx := .union [Chip.emptySlot_fx, Chip.setSlot_fx, Chip.takeSlot_fx, .of [.anc, .ev] [.ANC_PASS_COUNT]]
theorem Chip.passEnd_in {X : Fx} {b0 c : Chip} {v : Nat} {ranked : List Candidate} (hW : Within X b0 c) (hX : Fx.le Chip.passEnd_fx X = true) : Within X b0 (Chip.passEnd c v ranked) := by
  refine hW.trans (Within.mono hX ?_)
  unfold Chip.passEnd
  try dsimp only
  repeat' first
    | with_reducible assumption
    | with_reducible exact .refl _ _
    | with_reducible refine Chip.emptySlot_in ?_ (by decide +kernel)
    | with_reducible refine Chip.setSlot_in ?_ (by decide +kernel)
    | with_reducible refine Chip.takeSlot_in ?_ (by decide +kernel)
    | with_reducible refine Within.inc ?_ (by decide +kernel)
    | with_reducible refine Within.setAnc ?_ (by decide +kernel)
    | with_reducible refine Within.raise ?_ (by decide +kernel)
    | with_reducible refine Within.each (fun _ _ _ => ?_) ?_
    | with_reducible refine Within.ite ?_ ?_
    | split
    | dsimp only


/-- What `Chip.probationEnd` may change. -/
def Chip.probationEnd_fx : Fx := .union [Chip.releaseSlot_fx, Chip.setSlot_fx, .of [] [.ANC_ADMIT_COUNT]]
theorem Chip.probationEnd_in {X : Fx} {b0 c : Chip} {v : Nat} {k : Nat} {x : Int} (hW : Within X b0 c) (hX : Fx.le Chip.probationEnd_fx X = true) : Within X b0 (Chip.probationEnd c v k x) := by
  refine hW.trans (Within.mono hX ?_)
  unfold Chip.probationEnd
  try dsimp only
  repeat' first
    | with_reducible assumption
    | with_reducible exact .refl _ _
    | with_reducible refine Chip.releaseSlot_in ?_ (by decide +kernel)
    | with_reducible refine Chip.setSlot_in ?_ (by decide +kernel)
    | with_reducible refine Within.inc ?_ (by decide +kernel)
    | with_reducible refine Within.ite ?_ ?_
    | split
    | dsimp only


end Sys2Proof.Machine
end

