-- ==== Sys2Proof/Laws/FrameGate.lean ====
section
/-!
SUPPORT. Frames of the operations of `Machine/Gate.lean`: which parts and objects each may change.
-/
set_option Elab.async false
namespace Sys2Proof.Machine

/-- An access that passes the checks changes what its effect changes; one that does not changes nothing. -/
theorem Chip.gated_in {X : Fx} {b0 c : Chip} {r : Reg} {i : Nat} {f : Chip → Abort × Chip}
    (hf : ∀ d, Within X b0 d → Within X b0 (f d).2) (hW : Within X b0 c) : Within X b0 (c.gated r i f).2 := by
  unfold Chip.gated
  split
  · exact hW
  · exact hf _ hW

/-- An access that passes the checks changes what its effect changes; one that does not changes nothing. -/
theorem Chip.gatedRow_in {X : Fx} {b0 c : Chip} {r : Reg} {i row : Nat} {f : Chip → Abort × Chip}
    (hf : ∀ d, Within X b0 d → Within X b0 (f d).2) (hW : Within X b0 c) : Within X b0 (c.gatedRow r i row f).2 := by
  unfold Chip.gatedRow
  split
  · exact hW
  · exact Chip.gated_in hf hW

/-- What `Chip.roundsSettle` may change. -/
def Chip.roundsSettle_fx : Fx := .of [] [.CAL_ROUND_TIME]
theorem Chip.roundsSettle_in {X : Fx} {b0 c : Chip}  (hW : Within X b0 c) (hX : Fx.le Chip.roundsSettle_fx X = true) : Within X b0 (Chip.roundsSettle c) := by
  refine hW.trans (Within.mono hX ?_)
  unfold Chip.roundsSettle
  try dsimp only
  repeat' first
    | with_reducible assumption
    | with_reducible exact .refl _ _
    | with_reducible refine Within.wr ?_ (by decide +kernel)
    | with_reducible refine Within.each (fun _ _ _ => ?_) ?_
    | with_reducible refine Within.ite ?_ ?_
    | split
    | dsimp only


/-- What `Chip.visitsSettle` may change. -/
def Chip.visitsSettle_fx : Fx := .union [Chip.roundsSettle_fx, .of [.cal] []]
theorem Chip.visitsSettle_in {X : Fx} {b0 c : Chip}  (hW : Within X b0 c) (hX : Fx.le Chip.visitsSettle_fx X = true) : Within X b0 (Chip.visitsSettle c) := by
  refine hW.trans (Within.mono hX ?_)
  unfold Chip.visitsSettle
  try dsimp only [Chip.fold_cal]
  repeat' first
    | with_reducible assumption
    | with_reducible exact .refl _ _
    | with_reducible refine Chip.roundsSettle_in ?_ (by decide +kernel)
    | with_reducible refine Within.put_cal ?_ (by decide +kernel)
    | with_reducible refine Within.ite ?_ ?_
    | split
    | dsimp only


/-- What `Chip.forcedSettle` may change. -/
def Chip.forcedSettle_fx : Fx := .of [.pwr] []
theorem Chip.forcedSettle_in {X : Fx} {b0 c : Chip} {old : Chip} (hW : Within X b0 c) (hX : Fx.le Chip.forcedSettle_fx X = true) : Within X b0 (Chip.forcedSettle c old) := by
  refine hW.trans (Within.mono hX ?_)
  unfold Chip.forcedSettle
  try dsimp only
  repeat' first
    | with_reducible assumption
    | with_reducible exact .refl _ _
    | with_reducible refine Within.setPwr ?_ (by decide +kernel)
    | with_reducible refine Within.ite ?_ ?_
    | split
    | dsimp only


/-- What an access leaves is what its effect changes, and the access result. -/
theorem Chip.answer_in {X : Fx} {b0 c : Chip} {r : Abort × Chip} {v : List Octet} (hW : Within X b0 c) (hr : Within X b0 r.2)
    (hX : (Fx.of [.access] []).le X = true) : Within X b0 (c.answer r v) := by
  unfold Chip.answer
  split
  · exact hr.upd_access hX
  · exact hr.upd_access hX
  · exact hW.upd_access hX

end Sys2Proof.Machine
end

