-- ==== Sys2Proof/Laws/FrameDiag.lean ====
section
/-!
SUPPORT. Frames of the operations of `Machine/Diag.lean`: which parts and objects each may change.
-/
set_option Elab.async false
namespace Sys2Proof.Machine

/-- What `Chip.tdrResults` may change. -/
def Chip.tdrResults_fx : Fx := .of [] [.TDR_FAULT, .TDR_FAULT_DIST, .TDR_NOISE, .TDR_RESULT]
theorem Chip.tdrResults_in {X : Fx} {b0 c : Chip} {p : Nat} {r : T0Probe} (hW : Within X b0 c) (hX : Fx.le Chip.tdrResults_fx X = true) : Within X b0 (Chip.tdrResults c p r) := by
  refine hW.trans (Within.mono hX ?_)
  unfold Chip.tdrResults
  try dsimp only
  repeat' first
    | with_reducible assumption
    | with_reducible exact .refl _ _
    | with_reducible refine Within.wrRow ?_ (by decide +kernel)
    | with_reducible refine Within.wr ?_ (by decide +kernel)
    | with_reducible refine Within.wrInt ?_ (by decide +kernel)
    | with_reducible refine Within.each (fun _ _ _ => ?_) ?_
    | with_reducible refine Within.ite ?_ ?_
    | split
    | dsimp only


/-- What `Chip.classDecision` may change. -/
def Chip.classDecision_fx : Fx := .union [Chip.tdrResults_fx, .of [.ev, .nv] [.CABLE_FINGERPRINT, .LQ_STATUS, .TDR_STATUS, .TRAIN_CLASS]]
theorem Chip.classDecision_in {X : Fx} {b0 c : Chip} {p : Nat} {r : T0Probe} (hW : Within X b0 c) (hX : Fx.le Chip.classDecision_fx X = true) : Within X b0 (Chip.classDecision c p r) := by
  refine hW.trans (Within.mono hX ?_)
  unfold Chip.classDecision
  try dsimp only [Chip.fold_nv]
  repeat' first
    | with_reducible assumption
    | with_reducible exact .refl _ _
    | with_reducible refine Chip.tdrResults_in ?_ (by decide +kernel)
    | with_reducible refine Within.wr ?_ (by decide +kernel)
    | with_reducible refine Within.setBit ?_ (by decide +kernel)
    | with_reducible refine Within.raise ?_ (by decide +kernel)
    | with_reducible refine Within.put_nv ?_ (by decide +kernel)
    | with_reducible refine Within.ite ?_ ?_
    | split
    | dsimp only


/-- What `Chip.fpStore` may change. -/
def Chip.fpStore_fx : Fx := .of [.nv] []
theorem Chip.fpStore_in {X : Fx} {b0 c : Chip} {p : Nat} (hW : Within X b0 c) (hX : Fx.le Chip.fpStore_fx X = true) : Within X b0 (Chip.fpStore c p) := by
  refine hW.trans (Within.mono hX ?_)
  unfold Chip.fpStore
  try dsimp only [Chip.fold_nv]
  repeat' first
    | with_reducible assumption
    | with_reducible exact .refl _ _
    | with_reducible refine Within.put_nv ?_ (by decide +kernel)
    | with_reducible refine Within.ite ?_ ?_
    | split
    | dsimp only


/-- What `Chip.writeTdrStart` may change. -/
def Chip.writeTdrStart_fx : Fx := .of [.diag] [.TDR_STATUS]
theorem Chip.writeTdrStart_in {X : Fx} {b0 c : Chip} {p : Nat} {v : Nat} (hW : Within X b0 c) (hX : Fx.le Chip.writeTdrStart_fx X = true) : Within X b0 (Chip.writeTdrStart c p v).2 := by
  refine hW.trans (Within.mono hX ?_)
  unfold Chip.writeTdrStart
  try dsimp only
  repeat' first
    | with_reducible assumption
    | with_reducible exact .refl _ _
    | with_reducible refine Within.setBit ?_ (by decide +kernel)
    | with_reducible refine Within.setDiag ?_ (by decide +kernel)
    | with_reducible refine Within.ite ?_ ?_
    | split
    | dsimp only


/-- What `Chip.tdrFinish` may change. -/
def Chip.tdrFinish_fx : Fx := .union [Chip.tdrResults_fx, .of [.diag] [.TDR_STATUS]]
theorem Chip.tdrFinish_in {X : Fx} {b0 c : Chip} {p : Nat} {r : T0Probe} (hW : Within X b0 c) (hX : Fx.le Chip.tdrFinish_fx X = true) : Within X b0 (Chip.tdrFinish c p r) := by
  refine hW.trans (Within.mono hX ?_)
  unfold Chip.tdrFinish
  try dsimp only
  repeat' first
    | with_reducible assumption
    | with_reducible exact .refl _ _
    | with_reducible refine Chip.tdrResults_in ?_ (by decide +kernel)
    | with_reducible refine Within.wr ?_ (by decide +kernel)
    | with_reducible refine Within.setDiag ?_ (by decide +kernel)
    | with_reducible refine Within.ite ?_ ?_
    | split
    | dsimp only


/-- What `Chip.tdrAbort` may change. -/
def Chip.tdrAbort_fx : Fx := .of [.diag] [.TDR_STATUS]
theorem Chip.tdrAbort_in {X : Fx} {b0 c : Chip} {p : Nat} (hW : Within X b0 c) (hX : Fx.le Chip.tdrAbort_fx X = true) : Within X b0 (Chip.tdrAbort c p) := by
  refine hW.trans (Within.mono hX ?_)
  unfold Chip.tdrAbort
  try dsimp only
  repeat' first
    | with_reducible assumption
    | with_reducible exact .refl _ _
    | with_reducible refine Within.setBit ?_ (by decide +kernel)
    | with_reducible refine Within.setDiag ?_ (by decide +kernel)
    | with_reducible refine Within.ite ?_ ?_
    | split
    | dsimp only


/-- What `Chip.lqRestart` may change. -/
def Chip.lqRestart_fx : Fx := .of [.pes] [.PE_MARGIN_MAX, .PE_MARGIN_MIN]
theorem Chip.lqRestart_in {X : Fx} {b0 c : Chip} {e : Nat} (hW : Within X b0 c) (hX : Fx.le Chip.lqRestart_fx X = true) : Within X b0 (Chip.lqRestart c e) := by
  refine hW.trans (Within.mono hX ?_)
  unfold Chip.lqRestart
  try dsimp only
  repeat' first
    | with_reducible assumption
    | with_reducible exact .refl _ _
    | with_reducible refine Within.wr ?_ (by decide +kernel)
    | with_reducible refine Within.setPe ?_ (by decide +kernel)
    | with_reducible refine Within.ite ?_ ?_
    | split
    | dsimp only


/-- What `Chip.lqLinkUp` may change. -/
def Chip.lqLinkUp_fx : Fx := .union [Chip.lqRestart_fx, .of [.pes] [.SKEW_SPAN_MAX]]
theorem Chip.lqLinkUp_in {X : Fx} {b0 c : Chip} {p : Nat} (hW : Within X b0 c) (hX : Fx.le Chip.lqLinkUp_fx X = true) : Within X b0 (Chip.lqLinkUp c p) := by
  refine hW.trans (Within.mono hX ?_)
  unfold Chip.lqLinkUp
  try dsimp only
  repeat' first
    | with_reducible assumption
    | with_reducible exact .refl _ _
    | with_reducible refine Chip.lqRestart_in ?_ (by decide +kernel)
    | with_reducible refine Within.wr ?_ (by decide +kernel)
    | with_reducible refine Within.setPe ?_ (by decide +kernel)
    | with_reducible refine Within.each (fun _ _ _ => ?_) ?_
    | with_reducible refine Within.ite ?_ ?_
    | split
    | dsimp only


/-- What `Chip.lqClear` may change. -/
def Chip.lqClear_fx : Fx := .of [.ev] [.LQ_STATUS]
theorem Chip.lqClear_in {X : Fx} {b0 c : Chip} {p : Nat} {b : Nat} {e : EvName} (hW : Within X b0 c) (hX : Fx.le Chip.lqClear_fx X = true) : Within X b0 (Chip.lqClear c p b e) := by
  refine hW.trans (Within.mono hX ?_)
  unfold Chip.lqClear
  try dsimp only
  repeat' first
    | with_reducible assumption
    | with_reducible exact .refl _ _
    | with_reducible refine Within.setBit ?_ (by decide +kernel)
    | with_reducible refine Within.raise ?_ (by decide +kernel)
    | with_reducible refine Within.ite ?_ ?_
    | split
    | dsimp only


/-- What `Chip.lqSet` may change. -/
def Chip.lqSet_fx : Fx := .of [.ev] [.LQ_STATUS]
theorem Chip.lqSet_in {X : Fx} {b0 c : Chip} {p : Nat} {b : Nat} {e : EvName} (hW : Within X b0 c) (hX : Fx.le Chip.lqSet_fx X = true) : Within X b0 (Chip.lqSet c p b e) := by
  refine hW.trans (Within.mono hX ?_)
  unfold Chip.lqSet
  try dsimp only
  repeat' first
    | with_reducible assumption
    | with_reducible exact .refl _ _
    | with_reducible refine Within.setBit ?_ (by decide +kernel)
    | with_reducible refine Within.raise ?_ (by decide +kernel)
    | with_reducible refine Within.ite ?_ ?_
    | split
    | dsimp only


/-- What `Chip.lqDown` may change. -/
def Chip.lqDown_fx : Fx := .union [Chip.lqClear_fx, .of [.diag] []]
theorem Chip.lqDown_in {X : Fx} {b0 c : Chip} {p : Nat} (hW : Within X b0 c) (hX : Fx.le Chip.lqDown_fx X = true) : Within X b0 (Chip.lqDown c p) := by
  refine hW.trans (Within.mono hX ?_)
  unfold Chip.lqDown
  try dsimp only
  repeat' first
    | with_reducible assumption
    | with_reducible exact .refl _ _
    | with_reducible refine Chip.lqClear_in ?_ (by decide +kernel)
    | with_reducible refine Within.setDiag ?_ (by decide +kernel)
    | with_reducible refine Within.ite ?_ ?_
    | split
    | dsimp only


/-- What `Chip.lqWindow` may change. -/
def Chip.lqWindow_fx : Fx := .union [Chip.lqClear_fx, Chip.lqSet_fx, .of [.pes] [.LOW_MARGIN_TIME, .PE_MARGIN_MAX, .PE_MARGIN_MIN, .SKEW_SPAN, .SKEW_SPAN_MAX]]
theorem Chip.lqWindow_in {X : Fx} {b0 c : Chip} {p : Nat} {e : Nat} {margin : Int} (hW : Within X b0 c) (hX : Fx.le Chip.lqWindow_fx X = true) : Within X b0 (Chip.lqWindow c p e margin) := by
  refine hW.trans (Within.mono hX ?_)
  unfold Chip.lqWindow
  try dsimp only
  repeat' first
    | with_reducible assumption
    | with_reducible exact .refl _ _
    | with_reducible refine Chip.lqClear_in ?_ (by decide +kernel)
    | with_reducible refine Chip.lqSet_in ?_ (by decide +kernel)
    | with_reducible refine Within.wr ?_ (by decide +kernel)
    | with_reducible refine Within.wrInt ?_ (by decide +kernel)
    | with_reducible refine Within.setPe ?_ (by decide +kernel)
    | with_reducible refine Within.ite ?_ ?_
    | split
    | dsimp only


/-- What `Chip.stdCount` may change. -/
def Chip.stdCount_fx : Fx := .of [] [.BITS_CORRECTED, .CW_CORRECTED, .CW_COUNT, .CW_UNCORRECTABLE, .LDPC_ITER_HIST, .SYMBOL_ERR_COUNT]
theorem Chip.stdCount_in {X : Fx} {b0 c : Chip} {m : LineMode} {e : Nat} {x : StdCounts} (hW : Within X b0 c) (hX : Fx.le Chip.stdCount_fx X = true) : Within X b0 (Chip.stdCount c m e x) := by
  refine hW.trans (Within.mono hX ?_)
  unfold Chip.stdCount
  try dsimp only
  repeat' first
    | with_reducible assumption
    | with_reducible exact .refl _ _
    | with_reducible refine Within.addRow ?_ (by decide +kernel)
    | with_reducible refine Within.add ?_ (by decide +kernel)
    | with_reducible refine Within.each (fun _ _ _ => ?_) ?_
    | with_reducible refine Within.foldl (fun _ _ _ => ?_) ?_
    | with_reducible refine Within.foldl1 (fun _ _ _ => ?_) ?_
    | with_reducible refine Within.fold (fun _ _ _ => ?_) ?_
    | with_reducible refine Within.ite ?_ ?_
    | split
    | dsimp only


/-- What `Chip.stdCounts` may change. -/
def Chip.stdCounts_fx : Fx := Chip.stdCount_fx
theorem Chip.stdCounts_in {X : Fx} {b0 c : Chip} {p : Nat} {l : List StdCounts} (hW : Within X b0 c) (hX : Fx.le Chip.stdCounts_fx X = true) : Within X b0 (Chip.stdCounts c p l) := by
  refine hW.trans (Within.mono hX ?_)
  unfold Chip.stdCounts
  try dsimp only
  repeat' first
    | with_reducible assumption
    | with_reducible exact .refl _ _
    | with_reducible refine Chip.stdCount_in ?_ (by decide +kernel)
    | with_reducible refine Within.each (fun _ _ _ => ?_) ?_
    | with_reducible refine Within.ite ?_ ?_
    | split
    | dsimp only


/-- What `Chip.lqSecond` may change. -/
def Chip.lqSecond_fx : Fx := .union [Chip.lqClear_fx, Chip.lqSet_fx, .of [.pes] []]
theorem Chip.lqSecond_in {X : Fx} {b0 c : Chip} {p : Nat} (hW : Within X b0 c) (hX : Fx.le Chip.lqSecond_fx X = true) : Within X b0 (Chip.lqSecond c p) := by
  refine hW.trans (Within.mono hX ?_)
  unfold Chip.lqSecond
  try dsimp only
  repeat' first
    | with_reducible assumption
    | with_reducible exact .refl _ _
    | with_reducible refine Chip.lqClear_in ?_ (by decide +kernel)
    | with_reducible refine Chip.lqSet_in ?_ (by decide +kernel)
    | with_reducible refine Within.setPe ?_ (by decide +kernel)
    | with_reducible refine Within.each (fun _ _ _ => ?_) ?_
    | with_reducible refine Within.ite ?_ ?_
    | split
    | dsimp only


/-- What `Chip.writeLqReset` may change. -/
def Chip.writeLqReset_fx : Fx := .union [Chip.lqRestart_fx, .of [] [.LDPC_ITER_HIST, .LQ_STATUS, .SKEW_SPAN_MAX]]
theorem Chip.writeLqReset_in {X : Fx} {b0 c : Chip} {p : Nat} {v : Nat} (hW : Within X b0 c) (hX : Fx.le Chip.writeLqReset_fx X = true) : Within X b0 (Chip.writeLqReset c p v).2 := by
  refine hW.trans (Within.mono hX ?_)
  unfold Chip.writeLqReset
  try dsimp only
  repeat' first
    | with_reducible assumption
    | with_reducible exact .refl _ _
    | with_reducible refine Chip.lqRestart_in ?_ (by decide +kernel)
    | with_reducible refine Within.wr ?_ (by decide +kernel)
    | with_reducible refine Within.setBit ?_ (by decide +kernel)
    | with_reducible refine Within.clrAll ?_ (by decide +kernel)
    | with_reducible refine Within.each (fun _ _ _ => ?_) ?_
    | with_reducible refine Within.ite ?_ ?_
    | split
    | dsimp only


/-- What `Chip.writeReflect` may change. -/
def Chip.writeReflect_fx : Fx := .of [.diag] []
theorem Chip.writeReflect_in {X : Fx} {b0 c : Chip} {e : Nat} {v : Nat} (hW : Within X b0 c) (hX : Fx.le Chip.writeReflect_fx X = true) : Within X b0 (Chip.writeReflect c e v).2 := by
  refine hW.trans (Within.mono hX ?_)
  unfold Chip.writeReflect
  try dsimp only
  repeat' first
    | with_reducible assumption
    | with_reducible exact .refl _ _
    | with_reducible refine Within.setDiag ?_ (by decide +kernel)
    | with_reducible refine Within.ite ?_ ?_
    | split
    | dsimp only


/-- What `Chip.reflWrite` may change. -/
def Chip.reflWrite_fx : Fx := .of [] [.REFLECTOGRAM, .REFLECT_BIN, .REFLECT_ORIGIN]
theorem Chip.reflWrite_in {X : Fx} {b0 c : Chip} {e : Nat} {m : LineMode} {rows : List Int} (hW : Within X b0 c) (hX : Fx.le Chip.reflWrite_fx X = true) : Within X b0 (Chip.reflWrite c e m rows) := by
  refine hW.trans (Within.mono hX ?_)
  unfold Chip.reflWrite
  try dsimp only
  repeat' first
    | with_reducible assumption
    | with_reducible exact .refl _ _
    | with_reducible refine Within.wrRow ?_ (by decide +kernel)
    | with_reducible refine Within.wr ?_ (by decide +kernel)
    | with_reducible refine Within.clrAll ?_ (by decide +kernel)
    | with_reducible refine Within.each (fun _ _ _ => ?_) ?_
    | with_reducible refine Within.ite ?_ ?_
    | split
    | dsimp only


/-- What `Chip.reflWatch` may change. -/
def Chip.reflWatch_fx : Fx := .of [.ev] [.LQ_STATUS, .REFLECT_CHANGE_DIST]
theorem Chip.reflWatch_in {X : Fx} {b0 c : Chip} {e : Nat} {m : LineMode} {base : List Int} {rows : List Int} (hW : Within X b0 c) (hX : Fx.le Chip.reflWatch_fx X = true) : Within X b0 (Chip.reflWatch c e m base rows) := by
  refine hW.trans (Within.mono hX ?_)
  unfold Chip.reflWatch
  try dsimp only
  repeat' first
    | with_reducible assumption
    | with_reducible exact .refl _ _
    | with_reducible refine Within.wr ?_ (by decide +kernel)
    | with_reducible refine Within.setBit ?_ (by decide +kernel)
    | with_reducible refine Within.raise ?_ (by decide +kernel)
    | with_reducible refine Within.ite ?_ ?_
    | split
    | dsimp only


/-- What `Chip.writePlantBuild` may change. -/
def Chip.writePlantBuild_fx : Fx := .of [.diag] []
theorem Chip.writePlantBuild_in {X : Fx} {b0 c : Chip} {v : Nat} (hW : Within X b0 c) (hX : Fx.le Chip.writePlantBuild_fx X = true) : Within X b0 (Chip.writePlantBuild c v).2 := by
  refine hW.trans (Within.mono hX ?_)
  unfold Chip.writePlantBuild
  try dsimp only
  repeat' first
    | with_reducible assumption
    | with_reducible exact .refl _ _
    | with_reducible refine Within.setDiag ?_ (by decide +kernel)
    | with_reducible refine Within.ite ?_ ?_
    | split
    | dsimp only


/-- What `Chip.plantDone` may change. -/
def Chip.plantDone_fx : Fx := .of [.diag] [.PLANT_MAP, .PLANT_MAP_ROWS, .PLANT_MAP_VERSION]
theorem Chip.plantDone_in {X : Fx} {b0 c : Chip}  (hW : Within X b0 c) (hX : Fx.le Chip.plantDone_fx X = true) : Within X b0 (Chip.plantDone c) := by
  refine hW.trans (Within.mono hX ?_)
  unfold Chip.plantDone
  try dsimp only
  repeat' first
    | with_reducible assumption
    | with_reducible exact .refl _ _
    | with_reducible refine Within.wrRow ?_ (by decide +kernel)
    | with_reducible refine Within.wrDev ?_ (by decide +kernel)
    | with_reducible refine Within.clrAll ?_ (by decide +kernel)
    | with_reducible refine Within.setDiag ?_ (by decide +kernel)
    | with_reducible refine Within.each (fun _ _ _ => ?_) ?_
    | with_reducible refine Within.ite ?_ ?_
    | split
    | dsimp only


/-- What `Chip.blink` may change. -/
def Chip.blink_fx : Fx := .of [.diag] []
theorem Chip.blink_in {X : Fx} {b0 c : Chip} {p : Nat} (hW : Within X b0 c) (hX : Fx.le Chip.blink_fx X = true) : Within X b0 (Chip.blink c p) := by
  refine hW.trans (Within.mono hX ?_)
  unfold Chip.blink
  try dsimp only
  repeat' first
    | with_reducible assumption
    | with_reducible exact .refl _ _
    | with_reducible refine Within.setDiag ?_ (by decide +kernel)
    | with_reducible refine Within.ite ?_ ?_
    | split
    | dsimp only


end Sys2Proof.Machine
end

