-- ==== Sys2Proof/Laws/FrameShapers.lean ====
section
/-!
SUPPORT. Frames of the operations of `Machine/Shapers.lean`: which parts and objects each may change.
-/
set_option Elab.async false
namespace Sys2Proof.Machine

/-- What `Chip.setShaper` may change. -/
def Chip.setShaper_fx : Fx := .of [.flowSh, .portSh, .svcSh] []
theorem Chip.setShaper_in {X : Fx} {b0 c : Chip} {r : ShRef} {s : Shaper} (hW : Within X b0 c) (hX : Fx.le Chip.setShaper_fx X = true) : Within X b0 (Chip.setShaper c r s) := by
  refine hW.trans (Within.mono hX ?_)
  unfold Chip.setShaper
  try dsimp only [Chip.fold_flowSh, Chip.fold_portSh, Chip.fold_svcSh]
  repeat' first
    | with_reducible assumption
    | with_reducible exact .refl _ _
    | with_reducible refine Within.put_flowSh ?_ (by decide +kernel)
    | with_reducible refine Within.put_portSh ?_ (by decide +kernel)
    | with_reducible refine Within.put_svcSh ?_ (by decide +kernel)
    | with_reducible refine Within.ite ?_ ?_
    | split
    | dsimp only


/-- What `Chip.shTake` may change. -/
def Chip.shTake_fx : Fx := Chip.setShaper_fx
theorem Chip.shTake_in {X : Fx} {b0 c : Chip} {r : ShRef} {e : Nat} {n : Nat} (hW : Within X b0 c) (hX : Fx.le Chip.shTake_fx X = true) : Within X b0 (Chip.shTake c r e n) := by
  refine hW.trans (Within.mono hX ?_)
  unfold Chip.shTake
  try dsimp only
  repeat' first
    | with_reducible assumption
    | with_reducible exact .refl _ _
    | with_reducible refine Chip.setShaper_in ?_ (by decide +kernel)
    | with_reducible refine Within.ite ?_ ?_
    | split
    | dsimp only


/-- What `Chip.writeShaper` may change. -/
def Chip.writeShaper_fx : Fx := .union [Chip.setShaper_fx, .of [] [.FLOW_SHAPER, .PORT_SHAPER, .SVC_SHAPER]]
theorem Chip.writeShaper_in {X : Fx} {b0 c : Chip} {r : ShRef} {v : Nat} (hW : Within X b0 c) (hX : Fx.le Chip.writeShaper_fx X = true) : Within X b0 (Chip.writeShaper c r v).2 := by
  refine hW.trans (Within.mono hX ?_)
  unfold Chip.writeShaper
  try dsimp only
  repeat' first
    | with_reducible assumption
    | with_reducible exact .refl _ _
    | with_reducible refine Chip.setShaper_in ?_ (by decide +kernel)
    | with_reducible refine Within.wrRow ?_ (by decide +kernel)
    | with_reducible refine Within.wr ?_ (by decide +kernel)
    | with_reducible refine Within.ite ?_ ?_
    | split
    | dsimp only


/-- What `Chip.writeMeter` may change. -/
def Chip.writeMeter_fx : Fx := .of [.meters] [.MTR_CONFIG]
theorem Chip.writeMeter_in {X : Fx} {b0 c : Chip} {j : Nat} {v : Nat} (hW : Within X b0 c) (hX : Fx.le Chip.writeMeter_fx X = true) : Within X b0 (Chip.writeMeter c j v).2 := by
  refine hW.trans (Within.mono hX ?_)
  unfold Chip.writeMeter
  try dsimp only [Chip.fold_meters]
  repeat' first
    | with_reducible assumption
    | with_reducible exact .refl _ _
    | with_reducible refine Within.wrRow ?_ (by decide +kernel)
    | with_reducible refine Within.put_meters ?_ (by decide +kernel)
    | with_reducible refine Within.ite ?_ ?_
    | split
    | dsimp only


end Sys2Proof.Machine
end

