-- ==== Sys2Proof/Laws/FrameQueues.lean ====
section
/-!
SUPPORT. Frames of the operations of `Machine/Queues.lean`: which parts and objects each may change.
-/
set_option Elab.async false
namespace Sys2Proof.Machine

/-- What `Chip.pfcQueue` may change. -/
def Chip.pfcQueue_fx : Fx := .of [.host] []
theorem Chip.pfcQueue_in {X : Fx} {b0 c : Chip} {p : Nat} {prio : Nat} (hW : Within X b0 c) (hX : Fx.le Chip.pfcQueue_fx X = true) : Within X b0 (Chip.pfcQueue c p prio) := by
  refine hW.trans (Within.mono hX ?_)
  unfold Chip.pfcQueue
  try dsimp only
  repeat' first
    | with_reducible assumption
    | with_reducible exact .refl _ _
    | with_reducible refine Within.setHost ?_ (by decide +kernel)
    | with_reducible refine Within.ite ?_ ?_
    | split
    | dsimp only


/-- What `Chip.pfcEval` may change. -/
def Chip.pfcEval_fx : Fx := .union [Chip.pfcQueue_fx, .of [] [.PFC_STATUS]]
theorem Chip.pfcEval_in {X : Fx} {b0 c : Chip} {p : Nat} (hW : Within X b0 c) (hX : Fx.le Chip.pfcEval_fx X = true) : Within X b0 (Chip.pfcEval c p) := by
  refine hW.trans (Within.mono hX ?_)
  unfold Chip.pfcEval
  try dsimp only
  repeat' first
    | with_reducible assumption
    | with_reducible exact .refl _ _
    | with_reducible refine Chip.pfcQueue_in ?_ (by decide +kernel)
    | with_reducible refine Within.setBit ?_ (by decide +kernel)
    | with_reducible refine Within.each (fun _ _ _ => ?_) ?_
    | with_reducible refine Within.ite ?_ ?_
    | split
    | dsimp only


/-- What `Chip.qCount` may change. -/
def Chip.qCount_fx : Fx := .of [] [.Q_COUNTERS]
theorem Chip.qCount_in {X : Fx} {b0 c : Chip} {p : Nat} {lq : Nat} {o : Nat} {n : Nat} {k : Nat} (hW : Within X b0 c) (hX : Fx.le Chip.qCount_fx X = true) : Within X b0 (Chip.qCount c p lq o n k) := by
  refine hW.trans (Within.mono hX ?_)
  unfold Chip.qCount
  try dsimp only
  repeat' first
    | with_reducible assumption
    | with_reducible exact .refl _ _
    | with_reducible refine Within.addField ?_ (by decide +kernel)
    | with_reducible refine Within.ite ?_ ?_
    | split
    | dsimp only


/-- What `Chip.dropQueued` may change. -/
def Chip.dropQueued_fx : Fx := .union [Chip.pfcEval_fx, Chip.qCount_fx, .of [.queues] []]
theorem Chip.dropQueued_in {X : Fx} {b0 c : Chip} {f : Frame} {k : DropKind} (hW : Within X b0 c) (hX : Fx.le Chip.dropQueued_fx X = true) : Within X b0 (Chip.dropQueued c f k) := by
  refine hW.trans (Within.mono hX ?_)
  unfold Chip.dropQueued
  try dsimp only
  repeat' first
    | with_reducible assumption
    | with_reducible exact .refl _ _
    | with_reducible refine Chip.pfcEval_in ?_ (by decide +kernel)
    | with_reducible refine Chip.qCount_in ?_ (by decide +kernel)
    | with_reducible refine Within.setQueue ?_ (by decide +kernel)
    | with_reducible refine Within.ite ?_ ?_
    | split
    | dsimp only


/-- What `Chip.judgeQueue` may change. -/
def Chip.judgeQueue_fx : Fx := .union [Chip.dropQueued_fx, .of [.ev] []]
theorem Chip.judgeQueue_in {X : Fx} {b0 c : Chip} {edge : Nat} {l : List Frame} (hW : Within X b0 c)
    (hX : Fx.le Chip.judgeQueue_fx X = true) : Within X b0 (c.judgeQueue edge l) := by
  refine hW.trans (Within.mono hX ?_)
  clear hW
  induction l generalizing c with
  | nil => exact .refl _ _
  | cons f l ih =>
    unfold Chip.judgeQueue
    split
    · exact (Within.raise (Chip.dropQueued_in (.refl _ _) (by decide +kernel)) (by decide +kernel)).trans (ih)
    · exact .refl _ _

/-- What `Chip.judgeHeads` may change. -/
def Chip.judgeHeads_fx : Fx := Chip.judgeQueue_fx
theorem Chip.judgeHeads_in {X : Fx} {b0 c : Chip} {p : Nat} {edge : Nat} (hW : Within X b0 c) (hX : Fx.le Chip.judgeHeads_fx X = true) : Within X b0 (Chip.judgeHeads c p edge) := by
  refine hW.trans (Within.mono hX ?_)
  unfold Chip.judgeHeads
  try dsimp only
  repeat' first
    | with_reducible assumption
    | with_reducible exact .refl _ _
    | with_reducible refine Chip.judgeQueue_in ?_ (by decide +kernel)
    | with_reducible refine Within.each (fun _ _ _ => ?_) ?_
    | with_reducible refine Within.ite ?_ ?_
    | split
    | dsimp only


/-- What `Chip.flushPort` may change. -/
def Chip.flushPort_fx : Fx := Chip.dropQueued_fx
theorem Chip.flushPort_in {X : Fx} {b0 c : Chip} {p : Nat} (hW : Within X b0 c) (hX : Fx.le Chip.flushPort_fx X = true) : Within X b0 (Chip.flushPort c p) := by
  refine hW.trans (Within.mono hX ?_)
  unfold Chip.flushPort
  try dsimp only
  repeat' first
    | with_reducible assumption
    | with_reducible exact .refl _ _
    | with_reducible refine Chip.dropQueued_in ?_ (by decide +kernel)
    | with_reducible refine Within.each (fun _ _ _ => ?_) ?_
    | with_reducible refine Within.ite ?_ ?_
    | split
    | dsimp only


end Sys2Proof.Machine
end

