-- ==== Sys2Proof/Laws/FramePtp.lean ====
section
/-!
SUPPORT. Frames of the operations of `Machine/Ptp.lean`: which parts and objects each may change.
-/
set_option Elab.async false
namespace Sys2Proof.Machine

/-- What `Chip.ptpLaunch` may change. -/
def Chip.ptpLaunch_fx : Fx := .of [] [.PTP_MALFORMED, .PTP_MODIFIED_COUNT, .PTP_TX_COUNT]
theorem Chip.ptpLaunch_in {X : Fx} {b0 c : Chip} {f : Frame} {t : Nat} (hW : Within X b0 c) (hX : Fx.le Chip.ptpLaunch_fx X = true) : Within X b0 (Chip.ptpLaunch c f t).2.2 := by
  refine hW.trans (Within.mono hX ?_)
  unfold Chip.ptpLaunch
  try dsimp only
  repeat' first
    | with_reducible assumption
    | with_reducible exact .refl _ _
    | with_reducible refine Within.inc ?_ (by decide +kernel)
    | with_reducible refine Within.ite ?_ ?_
    | split
    | dsimp only


end Sys2Proof.Machine
end

