-- ==== Sys2Proof/Laws/FrameHostMap.lean ====
section
/-!
SUPPORT. Frames of the operations of `Machine/HostMap.lean`: which parts and objects each may change.
-/
set_option Elab.async false
namespace Sys2Proof.Machine

/-- What `Chip.undersizedEval` may change. -/
def Chip.undersizedEval_fx : Fx := .of [.ev, .host] []
theorem Chip.undersizedEval_in {X : Fx} {b0 c : Chip} {p : Nat} (hW : Within X b0 c) (hX : Fx.le Chip.undersizedEval_fx X = true) : Within X b0 (Chip.undersizedEval c p) := by
  refine hW.trans (Within.mono hX ?_)
  unfold Chip.undersizedEval
  try dsimp only
  repeat' first
    | with_reducible assumption
    | with_reducible exact .refl _ _
    | with_reducible refine Within.setHost ?_ (by decide +kernel)
    | with_reducible refine Within.raise ?_ (by decide +kernel)
    | with_reducible refine Within.ite ?_ ?_
    | split
    | dsimp only


/-- What `Chip.lsSettle` may change. -/
def Chip.lsSettle_fx : Fx := .of [.hlane] [.HL_STATUS]
theorem Chip.lsSettle_in {X : Fx} {b0 c : Chip} {g : Nat} (hW : Within X b0 c) (hX : Fx.le Chip.lsSettle_fx X = true) : Within X b0 (Chip.lsSettle c g) := by
  refine hW.trans (Within.mono hX ?_)
  unfold Chip.lsSettle
  try dsimp only
  repeat' first
    | with_reducible assumption
    | with_reducible exact .refl _ _
    | with_reducible refine Within.setBit ?_ (by decide +kernel)
    | with_reducible refine Within.setLane ?_ (by decide +kernel)
    | with_reducible refine Within.each (fun _ _ _ => ?_) ?_
    | with_reducible refine Within.ite ?_ ?_
    | split
    | dsimp only


/-- What `Chip.mapReturn` may change. -/
def Chip.mapReturn_fx : Fx := .union [Chip.lsSettle_fx, Chip.undersizedEval_fx, .of [.host] []]
theorem Chip.mapReturn_in {X : Fx} {b0 c : Chip} {p : Nat} (hW : Within X b0 c) (hX : Fx.le Chip.mapReturn_fx X = true) : Within X b0 (Chip.mapReturn c p) := by
  refine hW.trans (Within.mono hX ?_)
  unfold Chip.mapReturn
  try dsimp only
  repeat' first
    | with_reducible assumption
    | with_reducible exact .refl _ _
    | with_reducible refine Chip.lsSettle_in ?_ (by decide +kernel)
    | with_reducible refine Chip.undersizedEval_in ?_ (by decide +kernel)
    | with_reducible refine Within.setHost ?_ (by decide +kernel)
    | with_reducible refine Within.ite ?_ ?_
    | split
    | dsimp only


/-- What `Chip.hostMapReset` may change. -/
def Chip.hostMapReset_fx : Fx := Chip.mapReturn_fx
theorem Chip.hostMapReset_in {X : Fx} {b0 c : Chip} {q : Nat} (hW : Within X b0 c) (hX : Fx.le Chip.hostMapReset_fx X = true) : Within X b0 (Chip.hostMapReset c q) := by
  refine hW.trans (Within.mono hX ?_)
  unfold Chip.hostMapReset
  try dsimp only
  repeat' first
    | with_reducible assumption
    | with_reducible exact .refl _ _
    | with_reducible refine Chip.mapReturn_in ?_ (by decide +kernel)
    | with_reducible refine Within.each (fun _ _ _ => ?_) ?_
    | with_reducible refine Within.ite ?_ ?_
    | split
    | dsimp only


/-- What `Chip.writeHlMap` may change. -/
def Chip.writeHlMap_fx : Fx := .union [Chip.lsSettle_fx, Chip.undersizedEval_fx, .of [] [.HL_ENTRIES, .HL_MAP]]
theorem Chip.writeHlMap_in {X : Fx} {b0 c : Chip} {p : Nat} {entries : Bool} {v : Nat} (hW : Within X b0 c) (hX : Fx.le Chip.writeHlMap_fx X = true) : Within X b0 (Chip.writeHlMap c p entries v).2 := by
  refine hW.trans (Within.mono hX ?_)
  unfold Chip.writeHlMap
  try dsimp only
  repeat' first
    | with_reducible assumption
    | with_reducible exact .refl _ _
    | with_reducible refine Chip.lsSettle_in ?_ (by decide +kernel)
    | with_reducible refine Chip.undersizedEval_in ?_ (by decide +kernel)
    | with_reducible refine Within.wr ?_ (by decide +kernel)
    | with_reducible refine Within.ite ?_ ?_
    | split
    | dsimp only


/-- What `Chip.laneFaultEnter` may change. -/
def Chip.laneFaultEnter_fx : Fx := .union [Chip.lsSettle_fx, .of [.ev, .host] [.HL_FAULT_COUNT, .HL_STATUS]]
theorem Chip.laneFaultEnter_in {X : Fx} {b0 c : Chip} {h : Nat} (hW : Within X b0 c) (hX : Fx.le Chip.laneFaultEnter_fx X = true) : Within X b0 (Chip.laneFaultEnter c h) := by
  refine hW.trans (Within.mono hX ?_)
  unfold Chip.laneFaultEnter
  try dsimp only
  repeat' first
    | with_reducible assumption
    | with_reducible exact .refl _ _
    | with_reducible refine Chip.lsSettle_in ?_ (by decide +kernel)
    | with_reducible refine Within.inc ?_ (by decide +kernel)
    | with_reducible refine Within.setBit ?_ (by decide +kernel)
    | with_reducible refine Within.setHost ?_ (by decide +kernel)
    | with_reducible refine Within.raise ?_ (by decide +kernel)
    | with_reducible refine Within.each (fun _ _ _ => ?_) ?_
    | with_reducible refine Within.ite ?_ ?_
    | split
    | dsimp only


/-- What `Chip.laneEval` may change. -/
def Chip.laneEval_fx : Fx := .union [Chip.laneFaultEnter_fx, .of [.ev] [.HL_STATUS]]
theorem Chip.laneEval_in {X : Fx} {b0 c : Chip} {h : Nat} (hW : Within X b0 c) (hX : Fx.le Chip.laneEval_fx X = true) : Within X b0 (Chip.laneEval c h) := by
  refine hW.trans (Within.mono hX ?_)
  unfold Chip.laneEval
  try dsimp only
  repeat' first
    | with_reducible assumption
    | with_reducible exact .refl _ _
    | with_reducible refine Chip.laneFaultEnter_in ?_ (by decide +kernel)
    | with_reducible refine Within.setBit ?_ (by decide +kernel)
    | with_reducible refine Within.raise ?_ (by decide +kernel)
    | with_reducible refine Within.ite ?_ ?_
    | split
    | dsimp only


/-- What `Chip.lsUnlock` may change. -/
def Chip.lsUnlock_fx : Fx := .of [.hlane] [.HL_STATUS, .HOST_RX_ERROR]
theorem Chip.lsUnlock_in {X : Fx} {b0 c : Chip} {h : Nat} {inProgress : List Nat} (hW : Within X b0 c) (hX : Fx.le Chip.lsUnlock_fx X = true) : Within X b0 (Chip.lsUnlock c h inProgress) := by
  refine hW.trans (Within.mono hX ?_)
  unfold Chip.lsUnlock
  try dsimp only
  repeat' first
    | with_reducible assumption
    | with_reducible exact .refl _ _
    | with_reducible refine Within.inc ?_ (by decide +kernel)
    | with_reducible refine Within.setBit ?_ (by decide +kernel)
    | with_reducible refine Within.setLane ?_ (by decide +kernel)
    | with_reducible refine Within.each (fun _ _ _ => ?_) ?_
    | with_reducible refine Within.ite ?_ ?_
    | split
    | dsimp only


/-- What `Chip.lsMarkerTake` may change. -/
def Chip.lsMarkerTake_fx : Fx := .union [Chip.lsUnlock_fx, .of [.ev, .hlane] [.HL_LS_MARKER_ERR, .HL_STATUS]]
theorem Chip.lsMarkerTake_in {X : Fx} {b0 c : Chip} {h : Nat} {b : BitVec 66} {inProgress : List Nat} (hW : Within X b0 c) (hX : Fx.le Chip.lsMarkerTake_fx X = true) : Within X b0 (Chip.lsMarkerTake c h b inProgress) := by
  refine hW.trans (Within.mono hX ?_)
  unfold Chip.lsMarkerTake
  try dsimp only
  repeat' first
    | with_reducible assumption
    | with_reducible exact .refl _ _
    | with_reducible refine Chip.lsUnlock_in ?_ (by decide +kernel)
    | with_reducible refine Within.inc ?_ (by decide +kernel)
    | with_reducible refine Within.setBit ?_ (by decide +kernel)
    | with_reducible refine Within.setLane ?_ (by decide +kernel)
    | with_reducible refine Within.raise ?_ (by decide +kernel)
    | with_reducible refine Within.ite ?_ ?_
    | split
    | dsimp only


/-- What `Chip.sendToHost` may change. -/
def Chip.sendToHost_fx : Fx := .of [.host] []
theorem Chip.sendToHost_in {X : Fx} {b0 c : Chip} {p : Nat} {tag : Nat} {l : List Octet} (hW : Within X b0 c) (hX : Fx.le Chip.sendToHost_fx X = true) : Within X b0 (Chip.sendToHost c p tag l) := by
  refine hW.trans (Within.mono hX ?_)
  unfold Chip.sendToHost
  try dsimp only
  repeat' first
    | with_reducible assumption
    | with_reducible exact .refl _ _
    | with_reducible refine Within.setHost ?_ (by decide +kernel)
    | with_reducible refine Within.ite ?_ ?_
    | split
    | dsimp only


/-- What `Chip.pfcSend` may change. -/
def Chip.pfcSend_fx : Fx := .union [Chip.sendToHost_fx, .of [.host] [.PFC_FRAME_COUNT]]
theorem Chip.pfcSend_in {X : Fx} {b0 c : Chip} {p : Nat} (hW : Within X b0 c) (hX : Fx.le Chip.pfcSend_fx X = true) : Within X b0 (Chip.pfcSend c p) := by
  refine hW.trans (Within.mono hX ?_)
  unfold Chip.pfcSend
  try dsimp only
  repeat' first
    | with_reducible assumption
    | with_reducible exact .refl _ _
    | with_reducible refine Chip.sendToHost_in ?_ (by decide +kernel)
    | with_reducible refine Within.inc ?_ (by decide +kernel)
    | with_reducible refine Within.setHost ?_ (by decide +kernel)
    | with_reducible refine Within.ite ?_ ?_
    | split
    | dsimp only


/-- What `Chip.pfcRemap` may change. -/
def Chip.pfcRemap_fx : Fx := .union [Chip.pfcQueue_fx, .of [] [.PFC_PRIORITY_MAP]]
theorem Chip.pfcRemap_in {X : Fx} {b0 c : Chip} {p : Nat} {v : Nat} (hW : Within X b0 c) (hX : Fx.le Chip.pfcRemap_fx X = true) : Within X b0 (Chip.pfcRemap c p v) := by
  refine hW.trans (Within.mono hX ?_)
  unfold Chip.pfcRemap
  try dsimp only
  repeat' first
    | with_reducible assumption
    | with_reducible exact .refl _ _
    | with_reducible refine Chip.pfcQueue_in ?_ (by decide +kernel)
    | with_reducible refine Within.wr ?_ (by decide +kernel)
    | with_reducible refine Within.each (fun _ _ _ => ?_) ?_
    | with_reducible refine Within.ite ?_ ?_
    | split
    | dsimp only


/-- What `Chip.writePfc` may change. -/
def Chip.writePfc_fx : Fx := .union [Chip.pfcEval_fx, Chip.pfcRemap_fx, .of [] [.PFC_ENABLE, .PFC_HEADROOM, .PFC_QUANTA]]
theorem Chip.writePfc_in {X : Fx} {b0 c : Chip} {p : Nat} {which : PfcSetting} {v : Nat} (hW : Within X b0 c) (hX : Fx.le Chip.writePfc_fx X = true) : Within X b0 (Chip.writePfc c p which v).2 := by
  refine hW.trans (Within.mono hX ?_)
  unfold Chip.writePfc
  try dsimp only
  repeat' first
    | with_reducible assumption
    | with_reducible exact .refl _ _
    | with_reducible refine Chip.pfcEval_in ?_ (by decide +kernel)
    | with_reducible refine Chip.pfcRemap_in ?_ (by decide +kernel)
    | with_reducible refine Within.wr ?_ (by decide +kernel)
    | with_reducible refine Within.ite ?_ ?_
    | split
    | dsimp only


/-- What `Chip.hostLinkDown` may change. -/
def Chip.hostLinkDown_fx : Fx := .of [.host] [.RX_FIFO_DROP]
theorem Chip.hostLinkDown_in {X : Fx} {b0 c : Chip} {p : Nat} (hW : Within X b0 c) (hX : Fx.le Chip.hostLinkDown_fx X = true) : Within X b0 (Chip.hostLinkDown c p) := by
  refine hW.trans (Within.mono hX ?_)
  unfold Chip.hostLinkDown
  try dsimp only
  repeat' first
    | with_reducible assumption
    | with_reducible exact .refl _ _
    | with_reducible refine Within.add ?_ (by decide +kernel)
    | with_reducible refine Within.setHost ?_ (by decide +kernel)
    | with_reducible refine Within.ite ?_ ?_
    | split
    | dsimp only


end Sys2Proof.Machine
end

