-- ==== Sys2Proof/Laws/FrameBuffer.lean ====
section
/-!
SUPPORT. Frames of the operations of `Machine/Buffer.lean`: which parts and objects each may change.
-/
set_option Elab.async false
namespace Sys2Proof.Machine

/-- What `Chip.guaranteeCharge` may change. -/
def Chip.guaranteeCharge_fx : Fx := .of [.buf] []
theorem Chip.guaranteeCharge_in {X : Fx} {b0 c : Chip} {p : Nat} {v : Nat} {n : Nat} (hW : Within X b0 c) (hX : Fx.le Chip.guaranteeCharge_fx X = true) : Within X b0 (Chip.guaranteeCharge c p v n) := by
  refine hW.trans (Within.mono hX ?_)
  unfold Chip.guaranteeCharge
  try dsimp only [Chip.fold_buf]
  repeat' first
    | with_reducible assumption
    | with_reducible exact .refl _ _
    | with_reducible refine Within.put_buf ?_ (by decide +kernel)
    | with_reducible refine Within.ite ?_ ?_
    | split
    | dsimp only


/-- What `Chip.setEffective` may change. -/
def Chip.setEffective_fx : Fx := .of [.buf] [.SVC_BUF_STATE]
theorem Chip.setEffective_in {X : Fx} {b0 c : Chip} {p : Nat} {v : Nat} {g : Nat} (hW : Within X b0 c) (hX : Fx.le Chip.setEffective_fx X = true) : Within X b0 (Chip.setEffective c p v g) := by
  refine hW.trans (Within.mono hX ?_)
  unfold Chip.setEffective
  try dsimp only [Chip.fold_buf]
  repeat' first
    | with_reducible assumption
    | with_reducible exact .refl _ _
    | with_reducible refine Within.wrField ?_ (by decide +kernel)
    | with_reducible refine Within.put_buf ?_ (by decide +kernel)
    | with_reducible refine Within.ite ?_ ?_
    | split
    | dsimp only


/-- What `Chip.scaleService` may change. -/
def Chip.scaleService_fx : Fx := .union [Chip.setEffective_fx, .of [] [.SVC_BUF_STATE]]
theorem Chip.scaleService_in {X : Fx} {b0 c : Chip} {v : Nat} {k : Rat} (hW : Within X b0 c) (hX : Fx.le Chip.scaleService_fx X = true) : Within X b0 (Chip.scaleService c v k) := by
  refine hW.trans (Within.mono hX ?_)
  unfold Chip.scaleService
  try dsimp only
  repeat' first
    | with_reducible assumption
    | with_reducible exact .refl _ _
    | with_reducible refine Chip.setEffective_in ?_ (by decide +kernel)
    | with_reducible refine Within.wrField ?_ (by decide +kernel)
    | with_reducible refine Within.each (fun _ _ _ => ?_) ?_
    | with_reducible refine Within.ite ?_ ?_
    | split
    | dsimp only


/-- What `Chip.reduceOver` may change. -/
def Chip.reduceOver_fx : Fx := Chip.scaleService_fx
theorem Chip.reduceOver_in {X : Fx} {b0 c : Chip} {t : Rat} {last : Option (Nat × Rat)} {l : List Nat} (hW : Within X b0 c)
    (hX : Fx.le Chip.reduceOver_fx X = true) : Within X b0 (c.reduceOver t last l).1 := by
  refine hW.trans (Within.mono hX ?_)
  clear hW
  induction l generalizing c last with
  | nil => exact .refl _ _
  | cons v l ih =>
    unfold Chip.reduceOver
    dsimp only
    repeat' split
    all_goals first
      | exact .refl _ _
      | exact ih
      | exact (Chip.scaleService_in (.refl _ _) (by decide +kernel)).trans (ih)

/-- What `Chip.reduce` may change. -/
def Chip.reduce_fx : Fx := .union [Chip.reduceOver_fx, .of [.ev] [.BUF_STATUS]]
theorem Chip.reduce_in {X : Fx} {b0 c : Chip}  (hW : Within X b0 c) (hX : Fx.le Chip.reduce_fx X = true) : Within X b0 (Chip.reduce c) := by
  refine hW.trans (Within.mono hX ?_)
  unfold Chip.reduce
  try dsimp only
  repeat' first
    | with_reducible assumption
    | with_reducible exact .refl _ _
    | with_reducible refine Chip.reduceOver_in ?_ (by decide +kernel)
    | with_reducible refine Within.setBit ?_ (by decide +kernel)
    | with_reducible refine Within.raise ?_ (by decide +kernel)
    | with_reducible refine Within.ite ?_ ?_
    | split
    | dsimp only


/-- What `Chip.missed` may change. -/
def Chip.missed_fx : Fx := .of [.ev] [.BUF_MISS_STATUS]
theorem Chip.missed_in {X : Fx} {b0 c : Chip} {labels : Nat} {kind : Nat} {cause : Nat} {deficit : Nat} (hW : Within X b0 c) (hX : Fx.le Chip.missed_fx X = true) : Within X b0 (Chip.missed c labels kind cause deficit) := by
  refine hW.trans (Within.mono hX ?_)
  unfold Chip.missed
  try dsimp only
  repeat' first
    | with_reducible assumption
    | with_reducible exact .refl _ _
    | with_reducible refine Within.wrDev ?_ (by decide +kernel)
    | with_reducible refine Within.raise ?_ (by decide +kernel)
    | with_reducible refine Within.ite ?_ ?_
    | split
    | dsimp only


/-- What `Chip.missPredict` may change. -/
def Chip.missPredict_fx : Fx := .union [Chip.missed_fx, Chip.reduce_fx]
theorem Chip.missPredict_in {X : Fx} {b0 c : Chip} {cause : Nat} (hW : Within X b0 c) (hX : Fx.le Chip.missPredict_fx X = true) : Within X b0 (Chip.missPredict c cause) := by
  refine hW.trans (Within.mono hX ?_)
  unfold Chip.missPredict
  try dsimp only
  repeat' first
    | with_reducible assumption
    | with_reducible exact .refl _ _
    | with_reducible refine Chip.missed_in ?_ (by decide +kernel)
    | with_reducible refine Chip.reduce_in ?_ (by decide +kernel)
    | with_reducible refine Within.ite ?_ ?_
    | split
    | dsimp only


/-- What `Chip.missObserved` may change. -/
def Chip.missObserved_fx : Fx := .union [Chip.missed_fx, Chip.reduce_fx, .of [.buf] []]
theorem Chip.missObserved_in {X : Fx} {b0 c : Chip} {n : Nat} {octets : Nat} (hW : Within X b0 c) (hX : Fx.le Chip.missObserved_fx X = true) : Within X b0 (Chip.missObserved c n octets) := by
  refine hW.trans (Within.mono hX ?_)
  unfold Chip.missObserved
  try dsimp only [Chip.fold_buf]
  repeat' first
    | with_reducible assumption
    | with_reducible exact .refl _ _
    | with_reducible refine Chip.missed_in ?_ (by decide +kernel)
    | with_reducible refine Chip.reduce_in ?_ (by decide +kernel)
    | with_reducible refine Within.put_buf ?_ (by decide +kernel)
    | with_reducible refine Within.foldl (fun _ _ _ => ?_) ?_
    | with_reducible refine Within.foldl1 (fun _ _ _ => ?_) ?_
    | with_reducible refine Within.fold (fun _ _ _ => ?_) ?_
    | with_reducible refine Within.ite ?_ ?_
    | split
    | dsimp only


/-- What `Chip.sizeSeen` may change. -/
def Chip.sizeSeen_fx : Fx := .union [Chip.missPredict_fx, .of [] [.BUF_STATUS, .SVC_BUF_STATE]]
theorem Chip.sizeSeen_in {X : Fx} {b0 c : Chip} {p : Nat} {v : Nat} {len : Nat} (hW : Within X b0 c) (hX : Fx.le Chip.sizeSeen_fx X = true) : Within X b0 (Chip.sizeSeen c p v len) := by
  refine hW.trans (Within.mono hX ?_)
  unfold Chip.sizeSeen
  try dsimp only
  repeat' first
    | with_reducible assumption
    | with_reducible exact .refl _ _
    | with_reducible refine Chip.missPredict_in ?_ (by decide +kernel)
    | with_reducible refine Within.setBit ?_ (by decide +kernel)
    | with_reducible refine Within.wrField ?_ (by decide +kernel)
    | with_reducible refine Within.ite ?_ ?_
    | split
    | dsimp only


/-- What `Chip.reevaluate` may change. -/
def Chip.reevaluate_fx : Fx := .union [Chip.reduce_fx, Chip.setEffective_fx, .of [] [.BUF_STATUS, .SVC_BUF_STATE]]
theorem Chip.reevaluate_in {X : Fx} {b0 c : Chip}  (hW : Within X b0 c) (hX : Fx.le Chip.reevaluate_fx X = true) : Within X b0 (Chip.reevaluate c) := by
  refine hW.trans (Within.mono hX ?_)
  unfold Chip.reevaluate
  try dsimp only
  repeat' first
    | with_reducible assumption
    | with_reducible exact .refl _ _
    | with_reducible refine Chip.reduce_in ?_ (by decide +kernel)
    | with_reducible refine Chip.setEffective_in ?_ (by decide +kernel)
    | with_reducible refine Within.setBit ?_ (by decide +kernel)
    | with_reducible refine Within.wrField ?_ (by decide +kernel)
    | with_reducible refine Within.each (fun _ _ _ => ?_) ?_
    | with_reducible refine Within.ite ?_ ?_
    | split
    | dsimp only


/-- What `Chip.replaced` may change. -/
def Chip.replaced_fx : Fx := .union [Chip.missPredict_fx, .of [.ev] [.BUF_STATUS, .QC_REPLACED_BY, .QC_STATE]]
theorem Chip.replaced_in {X : Fx} {b0 c : Chip} {h : Nat} (hW : Within X b0 c) (hX : Fx.le Chip.replaced_fx X = true) : Within X b0 (Chip.replaced c h) := by
  refine hW.trans (Within.mono hX ?_)
  unfold Chip.replaced
  try dsimp only
  repeat' first
    | with_reducible assumption
    | with_reducible exact .refl _ _
    | with_reducible refine Chip.missPredict_in ?_ (by decide +kernel)
    | with_reducible refine Within.wr ?_ (by decide +kernel)
    | with_reducible refine Within.setBit ?_ (by decide +kernel)
    | with_reducible refine Within.raise ?_ (by decide +kernel)
    | with_reducible refine Within.ite ?_ ?_
    | split
    | dsimp only


/-- What `Chip.retire` may change. -/
def Chip.retire_fx : Fx := .union [Chip.replaced_fx, .of [] [.QC_STATE]]
theorem Chip.retire_in {X : Fx} {b0 c : Chip} {h : Nat} (hW : Within X b0 c) (hX : Fx.le Chip.retire_fx X = true) : Within X b0 (Chip.retire c h) := by
  refine hW.trans (Within.mono hX ?_)
  unfold Chip.retire
  try dsimp only
  repeat' first
    | with_reducible assumption
    | with_reducible exact .refl _ _
    | with_reducible refine Chip.replaced_in ?_ (by decide +kernel)
    | with_reducible refine Within.wr ?_ (by decide +kernel)
    | with_reducible refine Within.ite ?_ ?_
    | split
    | dsimp only


/-- What `Chip.corrected` may change. -/
def Chip.corrected_fx : Fx := .union [Chip.retire_fx, .of [.buf] [.QC_CE_COUNT]]
theorem Chip.corrected_in {X : Fx} {b0 c : Chip} {h : Nat} (hW : Within X b0 c) (hX : Fx.le Chip.corrected_fx X = true) : Within X b0 (Chip.corrected c h) := by
  refine hW.trans (Within.mono hX ?_)
  unfold Chip.corrected
  try dsimp only [Chip.fold_buf]
  repeat' first
    | with_reducible assumption
    | with_reducible exact .refl _ _
    | with_reducible refine Chip.retire_in ?_ (by decide +kernel)
    | with_reducible refine Within.inc ?_ (by decide +kernel)
    | with_reducible refine Within.put_buf ?_ (by decide +kernel)
    | with_reducible refine Within.ite ?_ ?_
    | split
    | dsimp only


/-- What `Chip.writeSlot` may change. -/
def Chip.writeSlot_fx : Fx := .of [.buf] []
theorem Chip.writeSlot_in {X : Fx} {b0 c : Chip} {n : Nat} {h : Nat} (hW : Within X b0 c) (hX : Fx.le Chip.writeSlot_fx X = true) : Within X b0 (Chip.writeSlot c n h) := by
  refine hW.trans (Within.mono hX ?_)
  unfold Chip.writeSlot
  try dsimp only [Chip.fold_buf]
  repeat' first
    | with_reducible assumption
    | with_reducible exact .refl _ _
    | with_reducible refine Within.put_buf ?_ (by decide +kernel)
    | with_reducible refine Within.ite ?_ ?_
    | split
    | dsimp only


/-- What `Chip.slotPass` may change. -/
def Chip.slotPass_fx : Fx := Chip.writeSlot_fx
theorem Chip.slotPass_in {X : Fx} {b0 c : Chip}  (hW : Within X b0 c) (hX : Fx.le Chip.slotPass_fx X = true) : Within X b0 (Chip.slotPass c) := by
  refine hW.trans (Within.mono hX ?_)
  unfold Chip.slotPass
  try dsimp only
  repeat' first
    | with_reducible assumption
    | with_reducible exact .refl _ _
    | with_reducible refine Chip.writeSlot_in ?_ (by decide +kernel)
    | with_reducible refine Within.each (fun _ _ _ => ?_) ?_
    | with_reducible refine Within.ite ?_ ?_
    | split
    | dsimp only


/-- What `Chip.drained` may change. -/
def Chip.drained_fx : Fx := .of [] [.QC_STATE]
theorem Chip.drained_in {X : Fx} {b0 c : Chip} {h : Nat} (hW : Within X b0 c) (hX : Fx.le Chip.drained_fx X = true) : Within X b0 (Chip.drained c h) := by
  refine hW.trans (Within.mono hX ?_)
  unfold Chip.drained
  try dsimp only
  repeat' first
    | with_reducible assumption
    | with_reducible exact .refl _ _
    | with_reducible refine Within.wr ?_ (by decide +kernel)
    | with_reducible refine Within.ite ?_ ?_
    | split
    | dsimp only


/-- What `Chip.dropArriving` may change. -/
def Chip.dropArriving_fx : Fx := .union [Chip.pfcEval_fx, Chip.qCount_fx, .of [.sched] [.SVC_BUF_STATE]]
theorem Chip.dropArriving_in {X : Fx} {b0 c : Chip} {p : Nat} {f : Frame} {v : Nat} {cause : BufCause} {inProfile : Bool} (hW : Within X b0 c) (hX : Fx.le Chip.dropArriving_fx X = true) : Within X b0 (Chip.dropArriving c p f v cause inProfile) := by
  refine hW.trans (Within.mono hX ?_)
  unfold Chip.dropArriving
  try dsimp only
  repeat' first
    | with_reducible assumption
    | with_reducible exact .refl _ _
    | with_reducible refine Chip.pfcEval_in ?_ (by decide +kernel)
    | with_reducible refine Chip.qCount_in ?_ (by decide +kernel)
    | with_reducible refine Within.addField ?_ (by decide +kernel)
    | with_reducible refine Within.setSch ?_ (by decide +kernel)
    | with_reducible refine Within.ite ?_ ?_
    | split
    | dsimp only


end Sys2Proof.Machine
end

