-- ==== Sys2Proof/Laws/FrameSched.lean ====
section
/-!
SUPPORT. Frames of the operations of `Machine/Sched.lean`: which parts and objects each may change.
-/
set_option Elab.async false
namespace Sys2Proof.Machine

/-- What `Chip.countHeld` may change. -/
def Chip.countHeld_fx : Fx := .of [.queues] [.SVC_COUNTERS]
theorem Chip.countHeld_in {X : Fx} {b0 c : Chip} {f : Frame} {close : Nat} (hW : Within X b0 c) (hX : Fx.le Chip.countHeld_fx X = true) : Within X b0 (Chip.countHeld c f close) := by
  refine hW.trans (Within.mono hX ?_)
  unfold Chip.countHeld
  try dsimp only
  repeat' first
    | with_reducible assumption
    | with_reducible exact .refl _ _
    | with_reducible refine Within.addField ?_ (by decide +kernel)
    | with_reducible refine Within.setQueue ?_ (by decide +kernel)
    | with_reducible refine Within.ite ?_ ?_
    | split
    | dsimp only


/-- What `Chip.judge` may change. -/
def Chip.judge_fx : Fx := .union [Chip.countHeld_fx, Chip.dropQueued_fx, .of [.ev] [.SVC_COUNTERS]]
theorem Chip.judge_in {X : Fx} {b0 c : Chip} {g : Grid} {p : Nat} {pos : Nat} {x : Cand} {r : Option Nat} (hW : Within X b0 c) (hX : Fx.le Chip.judge_fx X = true) : Within X b0 (Chip.judge c g p pos x r).2 := by
  refine hW.trans (Within.mono hX ?_)
  unfold Chip.judge
  try dsimp only
  repeat' first
    | with_reducible assumption
    | with_reducible exact .refl _ _
    | with_reducible refine Chip.countHeld_in ?_ (by decide +kernel)
    | with_reducible refine Chip.dropQueued_in ?_ (by decide +kernel)
    | with_reducible refine Within.addField ?_ (by decide +kernel)
    | with_reducible refine Within.raise ?_ (by decide +kernel)
    | with_reducible refine Within.ite ?_ ?_
    | split
    | dsimp only


/-- What `Chip.tryAll` may change. -/
def Chip.tryAll_fx : Fx := Chip.judge_fx
theorem Chip.tryAll_in {X : Fx} {b0 c : Chip} {g : Grid} {p pos : Nat} {r : Option Nat} {pass : Bool} {l : List (Cand × Bool)}
    (hW : Within X b0 c) (hX : Fx.le Chip.tryAll_fx X = true) : Within X b0 (c.tryAll g p pos r pass l).2.2 := by
  refine hW.trans (Within.mono hX ?_)
  clear hW
  induction l generalizing c pass with
  | nil => exact .refl _ _
  | cons v l ih =>
    unfold Chip.tryAll
    dsimp only
    split
    · exact Chip.judge_in (.refl _ _) (by decide +kernel)
    · exact (Chip.judge_in (.refl _ _) (by decide +kernel)).trans (ih)

/-- What `Chip.choose` may change. -/
def Chip.choose_fx : Fx := Chip.tryAll_fx
theorem Chip.choose_in {X : Fx} {b0 c : Chip} {g : Grid} {p : Nat} {pos : Nat} {express : Bool} (hW : Within X b0 c) (hX : Fx.le Chip.choose_fx X = true) : Within X b0 (Chip.choose c g p pos express).2 := by
  refine hW.trans (Within.mono hX ?_)
  unfold Chip.choose
  try dsimp only
  repeat' first
    | with_reducible assumption
    | with_reducible exact .refl _ _
    | with_reducible refine Chip.tryAll_in ?_ (by decide +kernel)
    | with_reducible refine Within.ite ?_ ?_
    | split
    | dsimp only


/-- What `Chip.commitRounds` may change. -/
def Chip.commitRounds_fx : Fx := .of [.sched] []
theorem Chip.commitRounds_in {X : Fx} {b0 c : Chip} {p : Nat} {f : Frame} {vs : List Nat} {passed : Bool} (hW : Within X b0 c) (hX : Fx.le Chip.commitRounds_fx X = true) : Within X b0 (Chip.commitRounds c p f vs passed) := by
  refine hW.trans (Within.mono hX ?_)
  unfold Chip.commitRounds
  try dsimp only
  repeat' first
    | with_reducible assumption
    | with_reducible exact .refl _ _
    | with_reducible refine Within.setSch ?_ (by decide +kernel)
    | with_reducible refine Within.ite ?_ ?_
    | split
    | dsimp only


/-- What `Chip.emptiedRounds` may change. -/
def Chip.emptiedRounds_fx : Fx := .of [.sched] []
theorem Chip.emptiedRounds_in {X : Fx} {b0 c : Chip} {p : Nat} (hW : Within X b0 c) (hX : Fx.le Chip.emptiedRounds_fx X = true) : Within X b0 (Chip.emptiedRounds c p) := by
  refine hW.trans (Within.mono hX ?_)
  unfold Chip.emptiedRounds
  try dsimp only
  repeat' first
    | with_reducible assumption
    | with_reducible exact .refl _ _
    | with_reducible refine Within.setSch ?_ (by decide +kernel)
    | with_reducible refine Within.ite ?_ ?_
    | split
    | dsimp only


/-- What `Chip.startCand` may change. -/
def Chip.startCand_fx : Fx := .union [Chip.commitRounds_fx, Chip.emptiedRounds_fx, Chip.ptpLaunch_fx, Chip.qCount_fx, Chip.shTake_fx, .of [.queues, .sched] [.LPI_LATE_WAKE_COUNT]]
theorem Chip.startCand_in {X : Fx} {b0 c : Chip} {g : Grid} {p : Nat} {pos : Nat} {x : Cand} {k : Pick} {passed : Bool} (hW : Within X b0 c) (hX : Fx.le Chip.startCand_fx X = true) : Within X b0 (Chip.startCand c g p pos x k passed) := by
  refine hW.trans (Within.mono hX ?_)
  unfold Chip.startCand
  try dsimp only
  repeat' first
    | with_reducible assumption
    | with_reducible exact .refl _ _
    | with_reducible refine Chip.commitRounds_in ?_ (by decide +kernel)
    | with_reducible refine Chip.emptiedRounds_in ?_ (by decide +kernel)
    | with_reducible refine Chip.ptpLaunch_in ?_ (by decide +kernel)
    | with_reducible refine Chip.qCount_in ?_ (by decide +kernel)
    | with_reducible refine Chip.shTake_in ?_ (by decide +kernel)
    | with_reducible refine Within.inc ?_ (by decide +kernel)
    | with_reducible refine Within.setSch ?_ (by decide +kernel)
    | with_reducible refine Within.setQueue ?_ (by decide +kernel)
    | with_reducible refine Within.ite ?_ ?_
    | split
    | dsimp only


/-- What `Chip.cutLive` may change. -/
def Chip.cutLive_fx : Fx := .of [.sched] []
theorem Chip.cutLive_in {X : Fx} {b0 c : Chip} {g : Grid} {p : Nat} {r : Frag} {d : Nat} (hW : Within X b0 c) (hX : Fx.le Chip.cutLive_fx X = true) : Within X b0 (Chip.cutLive c g p r d) := by
  refine hW.trans (Within.mono hX ?_)
  unfold Chip.cutLive
  try dsimp only
  repeat' first
    | with_reducible assumption
    | with_reducible exact .refl _ _
    | with_reducible refine Within.setSch ?_ (by decide +kernel)
    | with_reducible refine Within.ite ?_ ?_
    | split
    | dsimp only


/-- What `Chip.recut` may change. -/
def Chip.recut_fx : Fx := Chip.cutLive_fx
theorem Chip.recut_in {X : Fx} {b0 c : Chip} {p : Nat} (hW : Within X b0 c) (hX : Fx.le Chip.recut_fx X = true) : Within X b0 (Chip.recut c p) := by
  refine hW.trans (Within.mono hX ?_)
  unfold Chip.recut
  try dsimp only
  repeat' first
    | with_reducible assumption
    | with_reducible exact .refl _ _
    | with_reducible refine Chip.cutLive_in ?_ (by decide +kernel)
    | with_reducible refine Within.ite ?_ ?_
    | split
    | dsimp only


/-- What `Chip.gateMoved` may change. -/
def Chip.gateMoved_fx : Fx := .union [Chip.recut_fx, .of [.sched] []]
theorem Chip.gateMoved_in {X : Fx} {b0 c : Chip} {p : Nat} (hW : Within X b0 c) (hX : Fx.le Chip.gateMoved_fx X = true) : Within X b0 (Chip.gateMoved c p) := by
  refine hW.trans (Within.mono hX ?_)
  unfold Chip.gateMoved
  try dsimp only
  repeat' first
    | with_reducible assumption
    | with_reducible exact .refl _ _
    | with_reducible refine Chip.recut_in ?_ (by decide +kernel)
    | with_reducible refine Within.setSch ?_ (by decide +kernel)
    | with_reducible refine Within.ite ?_ ?_
    | split
    | dsimp only


/-- What `Chip.redeal` may change. -/
def Chip.redeal_fx : Fx := .union [Chip.recut_fx, .of [.sched] []]
theorem Chip.redeal_in {X : Fx} {b0 c : Chip} {p : Nat} {old : Grid} {at_ : Nat} (hW : Within X b0 c) (hX : Fx.le Chip.redeal_fx X = true) : Within X b0 (Chip.redeal c p old at_) := by
  refine hW.trans (Within.mono hX ?_)
  unfold Chip.redeal
  try dsimp only
  repeat' first
    | with_reducible assumption
    | with_reducible exact .refl _ _
    | with_reducible refine Chip.recut_in ?_ (by decide +kernel)
    | with_reducible refine Within.setSch ?_ (by decide +kernel)
    | with_reducible refine Within.ite ?_ ?_
    | split
    | dsimp only


/-- What `Chip.schedStop` may change. -/
def Chip.schedStop_fx : Fx := .union [Chip.pfcEval_fx, Chip.qCount_fx, .of [.sched] []]
theorem Chip.schedStop_in {X : Fx} {b0 c : Chip} {p : Nat} (hW : Within X b0 c) (hX : Fx.le Chip.schedStop_fx X = true) : Within X b0 (Chip.schedStop c p) := by
  refine hW.trans (Within.mono hX ?_)
  unfold Chip.schedStop
  try dsimp only
  repeat' first
    | with_reducible assumption
    | with_reducible exact .refl _ _
    | with_reducible refine Chip.pfcEval_in ?_ (by decide +kernel)
    | with_reducible refine Chip.qCount_in ?_ (by decide +kernel)
    | with_reducible refine Within.setSch ?_ (by decide +kernel)
    | with_reducible refine Within.each (fun _ _ _ => ?_) ?_
    | with_reducible refine Within.foldl (fun _ _ _ => ?_) ?_
    | with_reducible refine Within.foldl1 (fun _ _ _ => ?_) ?_
    | with_reducible refine Within.fold (fun _ _ _ => ?_) ?_
    | with_reducible refine Within.ite ?_ ?_
    | split
    | dsimp only


/-- What `Chip.mmStart` may change. -/
def Chip.mmStart_fx : Fx := .of [.sched] [.MM_STATUS]
theorem Chip.mmStart_in {X : Fx} {b0 c : Chip} {p : Nat} (hW : Within X b0 c) (hX : Fx.le Chip.mmStart_fx X = true) : Within X b0 (Chip.mmStart c p) := by
  refine hW.trans (Within.mono hX ?_)
  unfold Chip.mmStart
  try dsimp only
  repeat' first
    | with_reducible assumption
    | with_reducible exact .refl _ _
    | with_reducible refine Within.wr ?_ (by decide +kernel)
    | with_reducible refine Within.setSch ?_ (by decide +kernel)
    | with_reducible refine Within.ite ?_ ?_
    | split
    | dsimp only


/-- What `Chip.schedUp` may change. -/
def Chip.schedUp_fx : Fx := .union [Chip.mmStart_fx, .of [.sched] []]
theorem Chip.schedUp_in {X : Fx} {b0 c : Chip} {p : Nat} (hW : Within X b0 c) (hX : Fx.le Chip.schedUp_fx X = true) : Within X b0 (Chip.schedUp c p) := by
  refine hW.trans (Within.mono hX ?_)
  unfold Chip.schedUp
  try dsimp only
  repeat' first
    | with_reducible assumption
    | with_reducible exact .refl _ _
    | with_reducible refine Chip.mmStart_in ?_ (by decide +kernel)
    | with_reducible refine Within.setSch ?_ (by decide +kernel)
    | with_reducible refine Within.ite ?_ ?_
    | split
    | dsimp only


/-- What `Chip.gridStart` may change. -/
def Chip.gridStart_fx : Fx := .of [.sched] []
theorem Chip.gridStart_in {X : Fx} {b0 c : Chip} {p : Nat} {at_ : Nat} (hW : Within X b0 c) (hX : Fx.le Chip.gridStart_fx X = true) : Within X b0 (Chip.gridStart c p at_) := by
  refine hW.trans (Within.mono hX ?_)
  unfold Chip.gridStart
  try dsimp only
  repeat' first
    | with_reducible assumption
    | with_reducible exact .refl _ _
    | with_reducible refine Within.setSch ?_ (by decide +kernel)
    | with_reducible refine Within.ite ?_ ?_
    | split
    | dsimp only


end Sys2Proof.Machine
end

