-- ==== Sys2Proof/Laws/FrameLpi.lean ====
section
/-!
SUPPORT. Frames of the operations of `Machine/Lpi.lean`: which parts and objects each may change.
-/
set_option Elab.async false
namespace Sys2Proof.Machine

/-- What `Chip.setLpi` may change. -/
def Chip.setLpi_fx : Fx := .of [.ports] []
theorem Chip.setLpi_in {X : Fx} {b0 c : Chip} {p : Nat} {f : LpiSt → LpiSt} (hW : Within X b0 c) (hX : Fx.le Chip.setLpi_fx X = true) : Within X b0 (Chip.setLpi c p f) := by
  refine hW.trans (Within.mono hX ?_)
  unfold Chip.setLpi
  try dsimp only
  repeat' first
    | with_reducible assumption
    | with_reducible exact .refl _ _
    | with_reducible refine Within.setPort ?_ (by decide +kernel)
    | with_reducible refine Within.ite ?_ ?_
    | split
    | dsimp only


/-- What `Chip.markSlept` may change. -/
def Chip.markSlept_fx : Fx := .of [.queues] []
theorem Chip.markSlept_in {X : Fx} {b0 c : Chip} {p : Nat} (hW : Within X b0 c) (hX : Fx.le Chip.markSlept_fx X = true) : Within X b0 (Chip.markSlept c p) := by
  refine hW.trans (Within.mono hX ?_)
  unfold Chip.markSlept
  try dsimp only [Chip.fold_queues]
  repeat' first
    | with_reducible assumption
    | with_reducible exact .refl _ _
    | with_reducible refine Within.put_queues ?_ (by decide +kernel)
    | with_reducible refine Within.ite ?_ ?_
    | split
    | dsimp only


/-- What `Chip.lpiEnter` may change. -/
def Chip.lpiEnter_fx : Fx := .union [Chip.markSlept_fx, Chip.setLpi_fx]
theorem Chip.lpiEnter_in {X : Fx} {b0 c : Chip} {p : Nat} {st : LpiState} (hW : Within X b0 c) (hX : Fx.le Chip.lpiEnter_fx X = true) : Within X b0 (Chip.lpiEnter c p st) := by
  refine hW.trans (Within.mono hX ?_)
  unfold Chip.lpiEnter
  try dsimp only
  repeat' first
    | with_reducible assumption
    | with_reducible exact .refl _ _
    | with_reducible refine Chip.markSlept_in ?_ (by decide +kernel)
    | with_reducible refine Chip.setLpi_in ?_ (by decide +kernel)
    | with_reducible refine Within.ite ?_ ?_
    | split
    | dsimp only


/-- What `Chip.lpiReplan` may change. -/
def Chip.lpiReplan_fx : Fx := .union [Chip.setLpi_fx, .of [] [.LPI_NEXT_WAKE]]
theorem Chip.lpiReplan_in {X : Fx} {b0 c : Chip} {p : Nat} (hW : Within X b0 c) (hX : Fx.le Chip.lpiReplan_fx X = true) : Within X b0 (Chip.lpiReplan c p) := by
  refine hW.trans (Within.mono hX ?_)
  unfold Chip.lpiReplan
  try dsimp only
  repeat' first
    | with_reducible assumption
    | with_reducible exact .refl _ _
    | with_reducible refine Chip.setLpi_in ?_ (by decide +kernel)
    | with_reducible refine Within.wr ?_ (by decide +kernel)
    | with_reducible refine Within.ite ?_ ?_
    | split
    | dsimp only


/-- What `Chip.lpiWake` may change. -/
def Chip.lpiWake_fx : Fx := .union [Chip.ancPortDrives_fx, Chip.lpiEnter_fx, Chip.setLpi_fx, .of [] [.LPI_NEXT_WAKE, .LPI_WAKE_OTHER_COUNT, .LPI_WAKE_PARTNER_COUNT, .LPI_WAKE_TIMED_COUNT]]
theorem Chip.lpiWake_in {X : Fx} {b0 c : Chip} {p : Nat} {w : WakeCause} (hW : Within X b0 c) (hX : Fx.le Chip.lpiWake_fx X = true) : Within X b0 (Chip.lpiWake c p w) := by
  refine hW.trans (Within.mono hX ?_)
  unfold Chip.lpiWake
  try dsimp only
  repeat' first
    | with_reducible assumption
    | with_reducible exact .refl _ _
    | with_reducible refine Chip.ancPortDrives_in ?_ (by decide +kernel)
    | with_reducible refine Chip.lpiEnter_in ?_ (by decide +kernel)
    | with_reducible refine Chip.setLpi_in ?_ (by decide +kernel)
    | with_reducible refine Within.inc ?_ (by cases w <;> decide +kernel)
    | with_reducible refine Within.wr ?_ (by decide +kernel)
    | with_reducible refine Within.inc ?_ (by decide +kernel)
    | with_reducible refine Within.ite ?_ ?_
    | split
    | dsimp only


/-- What `Chip.lpiWakeNow` may change. -/
def Chip.lpiWakeNow_fx : Fx := .union [Chip.lpiWake_fx, Chip.setLpi_fx]
theorem Chip.lpiWakeNow_in {X : Fx} {b0 c : Chip} {p : Nat} {w : WakeCause} (hW : Within X b0 c) (hX : Fx.le Chip.lpiWakeNow_fx X = true) : Within X b0 (Chip.lpiWakeNow c p w) := by
  refine hW.trans (Within.mono hX ?_)
  unfold Chip.lpiWakeNow
  try dsimp only
  repeat' first
    | with_reducible assumption
    | with_reducible exact .refl _ _
    | with_reducible refine Chip.lpiWake_in ?_ (by decide +kernel)
    | with_reducible refine Chip.setLpi_in ?_ (by decide +kernel)
    | with_reducible refine Within.ite ?_ ?_
    | split
    | dsimp only


/-- What `Chip.lpiSleep` may change. -/
def Chip.lpiSleep_fx : Fx := .union [Chip.ancStops_fx, Chip.lpiEnter_fx, Chip.lpiReplan_fx, Chip.setLpi_fx, .of [.pes] []]
theorem Chip.lpiSleep_in {X : Fx} {b0 c : Chip} {p : Nat} {quietSeq : Nat} {asked : Bool} {acked : Bool} {op : Nat} (hW : Within X b0 c) (hX : Fx.le Chip.lpiSleep_fx X = true) : Within X b0 (Chip.lpiSleep c p quietSeq asked acked op) := by
  refine hW.trans (Within.mono hX ?_)
  unfold Chip.lpiSleep
  try dsimp only
  repeat' first
    | with_reducible assumption
    | with_reducible exact .refl _ _
    | with_reducible refine Chip.ancStops_in ?_ (by decide +kernel)
    | with_reducible refine Chip.lpiEnter_in ?_ (by decide +kernel)
    | with_reducible refine Chip.lpiReplan_in ?_ (by decide +kernel)
    | with_reducible refine Chip.setLpi_in ?_ (by decide +kernel)
    | with_reducible refine Within.setPe ?_ (by decide +kernel)
    | with_reducible refine Within.each (fun _ _ _ => ?_) ?_
    | with_reducible refine Within.ite ?_ ?_
    | split
    | dsimp only


/-- What `Chip.lpiHold` may change. -/
def Chip.lpiHold_fx : Fx := .union [Chip.lpiWakeNow_fx, .of [] [.LPI_STATUS]]
theorem Chip.lpiHold_in {X : Fx} {b0 c : Chip} {p : Nat} (hW : Within X b0 c) (hX : Fx.le Chip.lpiHold_fx X = true) : Within X b0 (Chip.lpiHold c p) := by
  refine hW.trans (Within.mono hX ?_)
  unfold Chip.lpiHold
  try dsimp only
  repeat' first
    | with_reducible assumption
    | with_reducible exact .refl _ _
    | with_reducible refine Chip.lpiWakeNow_in ?_ (by decide +kernel)
    | with_reducible refine Within.setBit ?_ (by decide +kernel)
    | with_reducible refine Within.ite ?_ ?_
    | split
    | dsimp only


/-- What `Chip.lpiStoreFail` may change. -/
def Chip.lpiStoreFail_fx : Fx := Chip.lpiHold_fx
theorem Chip.lpiStoreFail_in {X : Fx} {b0 c : Chip} {p : Nat} {e : Nat} (hW : Within X b0 c) (hX : Fx.le Chip.lpiStoreFail_fx X = true) : Within X b0 (Chip.lpiStoreFail c p e) := by
  refine hW.trans (Within.mono hX ?_)
  unfold Chip.lpiStoreFail
  try dsimp only
  repeat' first
    | with_reducible assumption
    | with_reducible exact .refl _ _
    | with_reducible refine Chip.lpiHold_in ?_ (by decide +kernel)
    | with_reducible refine Within.ite ?_ ?_
    | split
    | dsimp only


/-- What `Chip.charEnd` may change. -/
def Chip.charEnd_fx : Fx := Chip.setLpi_fx
theorem Chip.charEnd_in {X : Fx} {b0 c : Chip} {p : Nat} (hW : Within X b0 c) (hX : Fx.le Chip.charEnd_fx X = true) : Within X b0 (Chip.charEnd c p) := by
  refine hW.trans (Within.mono hX ?_)
  unfold Chip.charEnd
  try dsimp only
  repeat' first
    | with_reducible assumption
    | with_reducible exact .refl _ _
    | with_reducible refine Chip.setLpi_in ?_ (by decide +kernel)
    | with_reducible refine Within.ite ?_ ?_
    | split
    | dsimp only


/-- What `Chip.lpiWindow` may change. -/
def Chip.lpiWindow_fx : Fx := .union [Chip.charEnd_fx, Chip.setLpi_fx, .of [.ev] [.LPI_STATUS]]
theorem Chip.lpiWindow_in {X : Fx} {b0 c : Chip} {p : Nat} {e : Nat} {margin : Int} (hW : Within X b0 c) (hX : Fx.le Chip.lpiWindow_fx X = true) : Within X b0 (Chip.lpiWindow c p e margin) := by
  refine hW.trans (Within.mono hX ?_)
  unfold Chip.lpiWindow
  try dsimp only
  repeat' first
    | with_reducible assumption
    | with_reducible exact .refl _ _
    | with_reducible refine Chip.charEnd_in ?_ (by decide +kernel)
    | with_reducible refine Chip.setLpi_in ?_ (by decide +kernel)
    | with_reducible refine Within.setBit ?_ (by decide +kernel)
    | with_reducible refine Within.raise ?_ (by decide +kernel)
    | with_reducible refine Within.ite ?_ ?_
    | split
    | dsimp only


/-- What `Chip.lpiPartner` may change. -/
def Chip.lpiPartner_fx : Fx := Chip.setLpi_fx
theorem Chip.lpiPartner_in {X : Fx} {b0 c : Chip} {p : Nat} {w : Bool} {eee : Bool} (hW : Within X b0 c) (hX : Fx.le Chip.lpiPartner_fx X = true) : Within X b0 (Chip.lpiPartner c p w eee) := by
  refine hW.trans (Within.mono hX ?_)
  unfold Chip.lpiPartner
  try dsimp only
  repeat' first
    | with_reducible assumption
    | with_reducible exact .refl _ _
    | with_reducible refine Chip.setLpi_in ?_ (by decide +kernel)
    | with_reducible refine Within.ite ?_ ?_
    | split
    | dsimp only


/-- What `Chip.lpiUp` may change. -/
def Chip.lpiUp_fx : Fx := .union [Chip.setLpi_fx, .of [] [.LPI_NEXT_WAKE, .LPI_STATUS]]
theorem Chip.lpiUp_in {X : Fx} {b0 c : Chip} {p : Nat} (hW : Within X b0 c) (hX : Fx.le Chip.lpiUp_fx X = true) : Within X b0 (Chip.lpiUp c p) := by
  refine hW.trans (Within.mono hX ?_)
  unfold Chip.lpiUp
  try dsimp only
  repeat' first
    | with_reducible assumption
    | with_reducible exact .refl _ _
    | with_reducible refine Chip.setLpi_in ?_ (by decide +kernel)
    | with_reducible refine Within.wr ?_ (by decide +kernel)
    | with_reducible refine Within.ite ?_ ?_
    | split
    | dsimp only


/-- What `Chip.lpiDown` may change. -/
def Chip.lpiDown_fx : Fx := .union [Chip.lpiEnter_fx, Chip.setLpi_fx, .of [] [.LPI_NEXT_WAKE]]
theorem Chip.lpiDown_in {X : Fx} {b0 c : Chip} {p : Nat} (hW : Within X b0 c) (hX : Fx.le Chip.lpiDown_fx X = true) : Within X b0 (Chip.lpiDown c p) := by
  refine hW.trans (Within.mono hX ?_)
  unfold Chip.lpiDown
  try dsimp only
  repeat' first
    | with_reducible assumption
    | with_reducible exact .refl _ _
    | with_reducible refine Chip.lpiEnter_in ?_ (by decide +kernel)
    | with_reducible refine Chip.setLpi_in ?_ (by decide +kernel)
    | with_reducible refine Within.wr ?_ (by decide +kernel)
    | with_reducible refine Within.ite ?_ ?_
    | split
    | dsimp only


/-- What `Chip.sendLpi` may change. -/
def Chip.sendLpi_fx : Fx := .of [.ports] []
theorem Chip.sendLpi_in {X : Fx} {b0 c : Chip} {p : Nat} {op : Nat} {id : Nat} {seq : Nat} (hW : Within X b0 c) (hX : Fx.le Chip.sendLpi_fx X = true) : Within X b0 (Chip.sendLpi c p op id seq) := by
  refine hW.trans (Within.mono hX ?_)
  unfold Chip.sendLpi
  try dsimp only
  repeat' first
    | with_reducible assumption
    | with_reducible exact .refl _ _
    | with_reducible refine Within.setPort ?_ (by decide +kernel)
    | with_reducible refine Within.ite ?_ ?_
    | split
    | dsimp only


end Sys2Proof.Machine
end

