-- ==== Sys2Proof/Laws/FrameTime.lean ====
section
/-!
SUPPORT. Frames of the operations of `Machine/Time.lean`: which parts and objects each may change.
-/
set_option Elab.async false
namespace Sys2Proof.Machine

/-- What `Chip.replanAll` may change. -/
def Chip.replanAll_fx : Fx := Chip.lpiReplan_fx
theorem Chip.replanAll_in {X : Fx} {b0 c : Chip}  (hW : Within X b0 c) (hX : Fx.le Chip.replanAll_fx X = true) : Within X b0 (Chip.replanAll c) := by
  refine hW.trans (Within.mono hX ?_)
  unfold Chip.replanAll
  try dsimp only
  repeat' first
    | with_reducible assumption
    | with_reducible exact .refl _ _
    | with_reducible refine Chip.lpiReplan_in ?_ (by decide +kernel)
    | with_reducible refine Within.each (fun _ _ _ => ?_) ?_
    | with_reducible refine Within.ite ?_ ?_
    | split
    | dsimp only


/-- What `Chip.swapExec` may change. -/
def Chip.swapExec_fx : Fx := .union [Chip.gateMoved_fx, Chip.lpiReplan_fx, .of [.sched] []]
theorem Chip.swapExec_in {X : Fx} {b0 c : Chip} {p : Nat} (hW : Within X b0 c) (hX : Fx.le Chip.swapExec_fx X = true) : Within X b0 (Chip.swapExec c p) := by
  refine hW.trans (Within.mono hX ?_)
  unfold Chip.swapExec
  try dsimp only
  repeat' first
    | with_reducible assumption
    | with_reducible exact .refl _ _
    | with_reducible refine Chip.gateMoved_in ?_ (by decide +kernel)
    | with_reducible refine Chip.lpiReplan_in ?_ (by decide +kernel)
    | with_reducible refine Within.setSch ?_ (by decide +kernel)
    | with_reducible refine Within.ite ?_ ?_
    | split
    | dsimp only


/-- What `Chip.swapDue` may change. -/
def Chip.swapDue_fx : Fx := Chip.swapExec_fx
theorem Chip.swapDue_in {X : Fx} {b0 c : Chip} {p : Nat} (hW : Within X b0 c) (hX : Fx.le Chip.swapDue_fx X = true) : Within X b0 (Chip.swapDue c p) := by
  refine hW.trans (Within.mono hX ?_)
  unfold Chip.swapDue
  try dsimp only
  repeat' first
    | with_reducible assumption
    | with_reducible exact .refl _ _
    | with_reducible refine Chip.swapExec_in ?_ (by decide +kernel)
    | with_reducible refine Within.ite ?_ ?_
    | split
    | dsimp only


/-- What `Chip.setValid` may change. -/
def Chip.setValid_fx : Fx := .union [Chip.replanAll_fx, .of [.ev] [.TIME_VALID]]
theorem Chip.setValid_in {X : Fx} {b0 c : Chip} {b : Bool} (hW : Within X b0 c) (hX : Fx.le Chip.setValid_fx X = true) : Within X b0 (Chip.setValid c b) := by
  refine hW.trans (Within.mono hX ?_)
  unfold Chip.setValid
  try dsimp only
  repeat' first
    | with_reducible assumption
    | with_reducible exact .refl _ _
    | with_reducible refine Chip.replanAll_in ?_ (by decide +kernel)
    | with_reducible refine Within.wrBool ?_ (by decide +kernel)
    | with_reducible refine Within.raise ?_ (by decide +kernel)
    | with_reducible refine Within.ite ?_ ?_
    | split
    | dsimp only


/-- What `Chip.lastStep` may change. -/
def Chip.lastStep_fx : Fx := .of [.draws] []
theorem Chip.lastStep_in {X : Fx} {b0 c : Chip} {x : Int} (hW : Within X b0 c) (hX : Fx.le Chip.lastStep_fx X = true) : Within X b0 (Chip.lastStep c x).2 := by
  refine hW.trans (Within.mono hX ?_)
  unfold Chip.lastStep
  try dsimp only
  repeat' first
    | with_reducible assumption
    | with_reducible exact .refl _ _
    | with_reducible refine Within.draw ?_ (by decide +kernel)
    | with_reducible refine Within.ite ?_ ?_
    | split
    | dsimp only


/-- What `Chip.stepTo` may change. -/
def Chip.stepTo_fx : Fx := .union [Chip.gateMoved_fx, Chip.lastStep_fx, Chip.replanAll_fx, Chip.swapDue_fx, .of [.ev, .tb, .time] [.TIME_LAST_STEP, .TIME_STEP_COUNT]]
theorem Chip.stepTo_in {X : Fx} {b0 c : Chip} {new : Nat} {amount : Int} (hW : Within X b0 c) (hX : Fx.le Chip.stepTo_fx X = true) : Within X b0 (Chip.stepTo c new amount) := by
  refine hW.trans (Within.mono hX ?_)
  unfold Chip.stepTo
  try dsimp only [Chip.fold_tb]
  repeat' first
    | with_reducible assumption
    | with_reducible exact .refl _ _
    | with_reducible refine Chip.gateMoved_in ?_ (by decide +kernel)
    | with_reducible refine Chip.lastStep_in ?_ (by decide +kernel)
    | with_reducible refine Chip.replanAll_in ?_ (by decide +kernel)
    | with_reducible refine Chip.swapDue_in ?_ (by decide +kernel)
    | with_reducible refine Within.wrDev ?_ (by decide +kernel)
    | with_reducible refine Within.inc ?_ (by decide +kernel)
    | with_reducible refine Within.setTime ?_ (by decide +kernel)
    | with_reducible refine Within.raise ?_ (by decide +kernel)
    | with_reducible refine Within.put_tb ?_ (by decide +kernel)
    | with_reducible refine Within.each (fun _ _ _ => ?_) ?_
    | with_reducible refine Within.ite ?_ ?_
    | split
    | dsimp only


/-- What `Chip.stepBy` may change. -/
def Chip.stepBy_fx : Fx := .all
theorem Chip.stepBy_in {X : Fx} {b0 c : Chip} {st : Stepper} {x : Int} (hW : Within X b0 c) (hX : Fx.le Chip.stepBy_fx X = true) : Within X b0 (Chip.stepBy c st x) := by
  refine hW.trans (Within.mono hX ?_)
  exact Within.all _ _


/-- What `Chip.writeTimeStep` may change. -/
def Chip.writeTimeStep_fx : Fx := .all
theorem Chip.writeTimeStep_in {X : Fx} {b0 c : Chip} {st : Stepper} {v : Nat} (hW : Within X b0 c) (hX : Fx.le Chip.writeTimeStep_fx X = true) : Within X b0 (Chip.writeTimeStep c st v).2 := by
  refine hW.trans (Within.mono hX ?_)
  exact Within.all _ _


/-- What `Chip.writeTimeSet` may change. -/
def Chip.writeTimeSet_fx : Fx := .all
theorem Chip.writeTimeSet_in {X : Fx} {b0 c : Chip} {st : Stepper} {v : Nat} (hW : Within X b0 c) (hX : Fx.le Chip.writeTimeSet_fx X = true) : Within X b0 (Chip.writeTimeSet c st v).2 := by
  refine hW.trans (Within.mono hX ?_)
  exact Within.all _ _


/-- What `Chip.writeTimeSnapshot` may change. -/
def Chip.writeTimeSnapshot_fx : Fx := .of [] [.TIME_SNAPSHOT_VALUE]
theorem Chip.writeTimeSnapshot_in {X : Fx} {b0 c : Chip} {v : Nat} (hW : Within X b0 c) (hX : Fx.le Chip.writeTimeSnapshot_fx X = true) : Within X b0 (Chip.writeTimeSnapshot c v).2 := by
  refine hW.trans (Within.mono hX ?_)
  unfold Chip.writeTimeSnapshot
  try dsimp only
  repeat' first
    | with_reducible assumption
    | with_reducible exact .refl _ _
    | with_reducible refine Within.wrDev ?_ (by decide +kernel)
    | with_reducible refine Within.ite ?_ ?_
    | split
    | dsimp only


/-- What `Chip.setTrim` may change. -/
def Chip.setTrim_fx : Fx := .of [.ev, .time] [.ROOT_STATUS, .ROOT_TRIM, .TIME_FREQ_CORR]
theorem Chip.setTrim_in {X : Fx} {b0 c : Chip} {x : Int} (hW : Within X b0 c) (hX : Fx.le Chip.setTrim_fx X = true) : Within X b0 (Chip.setTrim c x) := by
  refine hW.trans (Within.mono hX ?_)
  unfold Chip.setTrim
  try dsimp only
  repeat' first
    | with_reducible assumption
    | with_reducible exact .refl _ _
    | with_reducible refine Within.wrInt ?_ (by decide +kernel)
    | with_reducible refine Within.setBit ?_ (by decide +kernel)
    | with_reducible refine Within.setTime ?_ (by decide +kernel)
    | with_reducible refine Within.raise ?_ (by decide +kernel)
    | with_reducible refine Within.ite ?_ ?_
    | split
    | dsimp only


/-- What `Chip.setRate` may change. -/
def Chip.setRate_fx : Fx := .of [] [.TIME_FREQ_CORR, .TIME_RATE_ADJ]
theorem Chip.setRate_in {X : Fx} {b0 c : Chip} {x : Int} (hW : Within X b0 c) (hX : Fx.le Chip.setRate_fx X = true) : Within X b0 (Chip.setRate c x) := by
  refine hW.trans (Within.mono hX ?_)
  unfold Chip.setRate
  try dsimp only
  repeat' first
    | with_reducible assumption
    | with_reducible exact .refl _ _
    | with_reducible refine Within.wrInt ?_ (by decide +kernel)
    | with_reducible refine Within.ite ?_ ?_
    | split
    | dsimp only


/-- What `Chip.carryRate` may change. -/
def Chip.carryRate_fx : Fx := Chip.setRate_fx
theorem Chip.carryRate_in {X : Fx} {b0 c : Chip}  (hW : Within X b0 c) (hX : Fx.le Chip.carryRate_fx X = true) : Within X b0 (Chip.carryRate c) := by
  refine hW.trans (Within.mono hX ?_)
  unfold Chip.carryRate
  try dsimp only
  repeat' first
    | with_reducible assumption
    | with_reducible exact .refl _ _
    | with_reducible refine Chip.setRate_in ?_ (by decide +kernel)
    | with_reducible refine Within.ite ?_ ?_
    | split
    | dsimp only


/-- What `Chip.trimHold` may change. -/
def Chip.trimHold_fx : Fx := .of [.ev, .held, .time] [.ROOT_STATUS]
theorem Chip.trimHold_in {X : Fx} {b0 c : Chip}  (hW : Within X b0 c) (hX : Fx.le Chip.trimHold_fx X = true) : Within X b0 (Chip.trimHold c) := by
  refine hW.trans (Within.mono hX ?_)
  unfold Chip.trimHold
  try dsimp only [Chip.fold_held]
  repeat' first
    | with_reducible assumption
    | with_reducible exact .refl _ _
    | with_reducible refine Within.setBit ?_ (by decide +kernel)
    | with_reducible refine Within.setTime ?_ (by decide +kernel)
    | with_reducible refine Within.raise ?_ (by decide +kernel)
    | with_reducible refine Within.put_held ?_ (by decide +kernel)
    | with_reducible refine Within.ite ?_ ?_
    | split
    | dsimp only


/-- What `Chip.servoEnter` may change. -/
def Chip.servoEnter_fx : Fx := .union [Chip.setRate_fx, Chip.trimHold_fx, .of [.time] [.TIME_SERVO_STATE]]
theorem Chip.servoEnter_in {X : Fx} {b0 c : Chip} {k : Nat} (hW : Within X b0 c) (hX : Fx.le Chip.servoEnter_fx X = true) : Within X b0 (Chip.servoEnter c k) := by
  refine hW.trans (Within.mono hX ?_)
  unfold Chip.servoEnter
  try dsimp only
  repeat' first
    | with_reducible assumption
    | with_reducible exact .refl _ _
    | with_reducible refine Chip.setRate_in ?_ (by decide +kernel)
    | with_reducible refine Chip.trimHold_in ?_ (by decide +kernel)
    | with_reducible refine Within.wrDev ?_ (by decide +kernel)
    | with_reducible refine Within.setTime ?_ (by decide +kernel)
    | with_reducible refine Within.ite ?_ ?_
    | split
    | dsimp only


/-- What `Chip.servoRestart` may change. -/
def Chip.servoRestart_fx : Fx := .union [Chip.servoEnter_fx, Chip.setValid_fx]
theorem Chip.servoRestart_in {X : Fx} {b0 c : Chip}  (hW : Within X b0 c) (hX : Fx.le Chip.servoRestart_fx X = true) : Within X b0 (Chip.servoRestart c) := by
  refine hW.trans (Within.mono hX ?_)
  unfold Chip.servoRestart
  try dsimp only
  repeat' first
    | with_reducible assumption
    | with_reducible exact .refl _ _
    | with_reducible refine Chip.servoEnter_in ?_ (by decide +kernel)
    | with_reducible refine Chip.setValid_in ?_ (by decide +kernel)
    | with_reducible refine Within.ite ?_ ?_
    | split
    | dsimp only


/-- What `Chip.servoRate` may change. -/
def Chip.servoRate_fx : Fx := .union [Chip.carryRate_fx, .of [.draws, .time] []]
theorem Chip.servoRate_in {X : Fx} {b0 c : Chip}  (hW : Within X b0 c) (hX : Fx.le Chip.servoRate_fx X = true) : Within X b0 (Chip.servoRate c) := by
  refine hW.trans (Within.mono hX ?_)
  unfold Chip.servoRate
  try dsimp only
  repeat' first
    | with_reducible assumption
    | with_reducible exact .refl _ _
    | with_reducible refine Chip.carryRate_in ?_ (by decide +kernel)
    | with_reducible refine Within.setTime ?_ (by decide +kernel)
    | with_reducible refine Within.draw ?_ (by decide +kernel)
    | with_reducible refine Within.ite ?_ ?_
    | split
    | dsimp only


/-- What `Chip.servoCorrect` may change. -/
def Chip.servoCorrect_fx : Fx := .all
theorem Chip.servoCorrect_in {X : Fx} {b0 c : Chip} {st : Stepper} {x : Int} (hW : Within X b0 c) (hX : Fx.le Chip.servoCorrect_fx X = true) : Within X b0 (Chip.servoCorrect c st x) := by
  refine hW.trans (Within.mono hX ?_)
  exact Within.all _ _


/-- What `Chip.servoTrack` may change. -/
def Chip.servoTrack_fx : Fx := .all
theorem Chip.servoTrack_in {X : Fx} {b0 c : Chip} {st : Stepper} {x : Int} (hW : Within X b0 c) (hX : Fx.le Chip.servoTrack_fx X = true) : Within X b0 (Chip.servoTrack c st x) := by
  refine hW.trans (Within.mono hX ?_)
  exact Within.all _ _


/-- What `Chip.servoAcquire` may change. -/
def Chip.servoAcquire_fx : Fx := .all
theorem Chip.servoAcquire_in {X : Fx} {b0 c : Chip} {st : Stepper} {x : Int} (hW : Within X b0 c) (hX : Fx.le Chip.servoAcquire_fx X = true) : Within X b0 (Chip.servoAcquire c st x) := by
  refine hW.trans (Within.mono hX ?_)
  exact Within.all _ _


/-- What `Chip.servoTake` may change. -/
def Chip.servoTake_fx : Fx := .all
theorem Chip.servoTake_in {X : Fx} {b0 c : Chip} {st : Stepper} {x : Int} (hW : Within X b0 c) (hX : Fx.le Chip.servoTake_fx X = true) : Within X b0 (Chip.servoTake c st x) := by
  refine hW.trans (Within.mono hX ?_)
  exact Within.all _ _


/-- What `Chip.writeServoInput` may change. -/
def Chip.writeServoInput_fx : Fx := .all
theorem Chip.writeServoInput_in {X : Fx} {b0 c : Chip} {st : Stepper} {v : Nat} (hW : Within X b0 c) (hX : Fx.le Chip.writeServoInput_fx X = true) : Within X b0 (Chip.writeServoInput c st v).2 := by
  refine hW.trans (Within.mono hX ?_)
  exact Within.all _ _


/-- What `Chip.writeTimeValid` may change. -/
def Chip.writeTimeValid_fx : Fx := Chip.setValid_fx
theorem Chip.writeTimeValid_in {X : Fx} {b0 c : Chip} {v : Nat} (hW : Within X b0 c) (hX : Fx.le Chip.writeTimeValid_fx X = true) : Within X b0 (Chip.writeTimeValid c v).2 := by
  refine hW.trans (Within.mono hX ?_)
  unfold Chip.writeTimeValid
  try dsimp only
  repeat' first
    | with_reducible assumption
    | with_reducible exact .refl _ _
    | with_reducible refine Chip.setValid_in ?_ (by decide +kernel)
    | with_reducible refine Within.ite ?_ ?_
    | split
    | dsimp only


/-- What `Chip.writeRate` may change. -/
def Chip.writeRate_fx : Fx := .union [Chip.replanAll_fx, .of [] [.TIME_FREQ_CORR, .TIME_RATE_ADJ]]
theorem Chip.writeRate_in {X : Fx} {b0 c : Chip} {v : Nat} (hW : Within X b0 c) (hX : Fx.le Chip.writeRate_fx X = true) : Within X b0 (Chip.writeRate c v).2 := by
  refine hW.trans (Within.mono hX ?_)
  unfold Chip.writeRate
  try dsimp only
  repeat' first
    | with_reducible assumption
    | with_reducible exact .refl _ _
    | with_reducible refine Chip.replanAll_in ?_ (by decide +kernel)
    | with_reducible refine Within.wr ?_ (by decide +kernel)
    | with_reducible refine Within.wrInt ?_ (by decide +kernel)
    | with_reducible refine Within.ite ?_ ?_
    | split
    | dsimp only


/-- What `Chip.writeTimeSource` may change. -/
def Chip.writeTimeSource_fx : Fx := .union [Chip.servoEnter_fx, Chip.servoRestart_fx, Chip.setValid_fx, .of [] [.TIME_SERVO_MODE, .TIME_SOURCE]]
theorem Chip.writeTimeSource_in {X : Fx} {b0 c : Chip} {mode : Bool} {v : Nat} (hW : Within X b0 c) (hX : Fx.le Chip.writeTimeSource_fx X = true) : Within X b0 (Chip.writeTimeSource c mode v).2 := by
  refine hW.trans (Within.mono hX ?_)
  unfold Chip.writeTimeSource
  try dsimp only
  repeat' first
    | with_reducible assumption
    | with_reducible exact .refl _ _
    | with_reducible refine Chip.servoEnter_in ?_ (by decide +kernel)
    | with_reducible refine Chip.servoRestart_in ?_ (by decide +kernel)
    | with_reducible refine Chip.setValid_in ?_ (by decide +kernel)
    | with_reducible refine Within.wrDev ?_ (by cases mode <;> decide +kernel)
    | with_reducible refine Within.wrDev ?_ (by decide +kernel)
    | with_reducible refine Within.ite ?_ ?_
    | split
    | dsimp only


/-- What `Chip.servoTimeout` may change. -/
def Chip.servoTimeout_fx : Fx := Chip.servoEnter_fx
theorem Chip.servoTimeout_in {X : Fx} {b0 c : Chip}  (hW : Within X b0 c) (hX : Fx.le Chip.servoTimeout_fx X = true) : Within X b0 (Chip.servoTimeout c) := by
  refine hW.trans (Within.mono hX ?_)
  unfold Chip.servoTimeout
  try dsimp only
  repeat' first
    | with_reducible assumption
    | with_reducible exact .refl _ _
    | with_reducible refine Chip.servoEnter_in ?_ (by decide +kernel)
    | with_reducible refine Within.ite ?_ ?_
    | split
    | dsimp only


/-- What `Chip.writeDiscipline` may change. -/
def Chip.writeDiscipline_fx : Fx := .union [Chip.trimHold_fx, .of [] [.ROOT_DISCIPLINE, .ROOT_STATUS]]
theorem Chip.writeDiscipline_in {X : Fx} {b0 c : Chip} {v : Nat} (hW : Within X b0 c) (hX : Fx.le Chip.writeDiscipline_fx X = true) : Within X b0 (Chip.writeDiscipline c v).2 := by
  refine hW.trans (Within.mono hX ?_)
  unfold Chip.writeDiscipline
  try dsimp only
  repeat' first
    | with_reducible assumption
    | with_reducible exact .refl _ _
    | with_reducible refine Chip.trimHold_in ?_ (by decide +kernel)
    | with_reducible refine Within.wrDev ?_ (by decide +kernel)
    | with_reducible refine Within.setBit ?_ (by decide +kernel)
    | with_reducible refine Within.ite ?_ ?_
    | split
    | dsimp only


/-- What `Chip.writeRootPort` may change. -/
def Chip.writeRootPort_fx : Fx := .union [Chip.trimHold_fx, .of [] [.ROOT_LINE_PORT]]
theorem Chip.writeRootPort_in {X : Fx} {b0 c : Chip} {v : Nat} (hW : Within X b0 c) (hX : Fx.le Chip.writeRootPort_fx X = true) : Within X b0 (Chip.writeRootPort c v).2 := by
  refine hW.trans (Within.mono hX ?_)
  unfold Chip.writeRootPort
  try dsimp only
  repeat' first
    | with_reducible assumption
    | with_reducible exact .refl _ _
    | with_reducible refine Chip.trimHold_in ?_ (by decide +kernel)
    | with_reducible refine Within.wrDev ?_ (by decide +kernel)
    | with_reducible refine Within.ite ?_ ?_
    | split
    | dsimp only


/-- What `Chip.rootLineDown` may change. -/
def Chip.rootLineDown_fx : Fx := Chip.trimHold_fx
theorem Chip.rootLineDown_in {X : Fx} {b0 c : Chip} {p : Nat} (hW : Within X b0 c) (hX : Fx.le Chip.rootLineDown_fx X = true) : Within X b0 (Chip.rootLineDown c p) := by
  refine hW.trans (Within.mono hX ?_)
  unfold Chip.rootLineDown
  try dsimp only
  repeat' first
    | with_reducible assumption
    | with_reducible exact .refl _ _
    | with_reducible refine Chip.trimHold_in ?_ (by decide +kernel)
    | with_reducible refine Within.ite ?_ ?_
    | split
    | dsimp only


/-- What `Chip.trimBack` may change. -/
def Chip.trimBack_fx : Fx := .of [.time] [.ROOT_STATUS]
theorem Chip.trimBack_in {X : Fx} {b0 c : Chip}  (hW : Within X b0 c) (hX : Fx.le Chip.trimBack_fx X = true) : Within X b0 (Chip.trimBack c) := by
  refine hW.trans (Within.mono hX ?_)
  unfold Chip.trimBack
  try dsimp only
  repeat' first
    | with_reducible assumption
    | with_reducible exact .refl _ _
    | with_reducible refine Within.setBit ?_ (by decide +kernel)
    | with_reducible refine Within.setTime ?_ (by decide +kernel)
    | with_reducible refine Within.ite ?_ ?_
    | split
    | dsimp only


/-- What `Chip.trimPresence` may change. -/
def Chip.trimPresence_fx : Fx := .of [.time] []
theorem Chip.trimPresence_in {X : Fx} {b0 c : Chip}  (hW : Within X b0 c) (hX : Fx.le Chip.trimPresence_fx X = true) : Within X b0 (Chip.trimPresence c) := by
  refine hW.trans (Within.mono hX ?_)
  unfold Chip.trimPresence
  try dsimp only
  repeat' first
    | with_reducible assumption
    | with_reducible exact .refl _ _
    | with_reducible refine Within.setTime ?_ (by decide +kernel)
    | with_reducible refine Within.ite ?_ ?_
    | split
    | dsimp only


/-- What `Chip.trimGoal` may change. -/
def Chip.trimGoal_fx : Fx := .of [.draws] []
theorem Chip.trimGoal_in {X : Fx} {b0 c : Chip}  (hW : Within X b0 c) (hX : Fx.le Chip.trimGoal_fx X = true) : Within X b0 (Chip.trimGoal c).2 := by
  refine hW.trans (Within.mono hX ?_)
  unfold Chip.trimGoal
  try dsimp only
  repeat' first
    | with_reducible assumption
    | with_reducible exact .refl _ _
    | with_reducible refine Within.draw ?_ (by decide +kernel)
    | with_reducible refine Within.ite ?_ ?_
    | split
    | dsimp only


/-- What `Chip.trimStep` may change. -/
def Chip.trimStep_fx : Fx := .union [Chip.carryRate_fx, Chip.setTrim_fx, Chip.trimGoal_fx]
theorem Chip.trimStep_in {X : Fx} {b0 c : Chip}  (hW : Within X b0 c) (hX : Fx.le Chip.trimStep_fx X = true) : Within X b0 (Chip.trimStep c) := by
  refine hW.trans (Within.mono hX ?_)
  unfold Chip.trimStep
  try dsimp only
  repeat' first
    | with_reducible assumption
    | with_reducible exact .refl _ _
    | with_reducible refine Chip.carryRate_in ?_ (by decide +kernel)
    | with_reducible refine Chip.setTrim_in ?_ (by decide +kernel)
    | with_reducible refine Chip.trimGoal_in ?_ (by decide +kernel)
    | with_reducible refine Within.ite ?_ ?_
    | split
    | dsimp only


/-- What `Chip.refLost` may change. -/
def Chip.refLost_fx : Fx := .union [Chip.trimHold_fx, .of [.ev] [.ROOT_STATUS]]
theorem Chip.refLost_in {X : Fx} {b0 c : Chip}  (hW : Within X b0 c) (hX : Fx.le Chip.refLost_fx X = true) : Within X b0 (Chip.refLost c) := by
  refine hW.trans (Within.mono hX ?_)
  unfold Chip.refLost
  try dsimp only
  repeat' first
    | with_reducible assumption
    | with_reducible exact .refl _ _
    | with_reducible refine Chip.trimHold_in ?_ (by decide +kernel)
    | with_reducible refine Within.setBit ?_ (by decide +kernel)
    | with_reducible refine Within.raise ?_ (by decide +kernel)
    | with_reducible refine Within.ite ?_ ?_
    | split
    | dsimp only


/-- What `Chip.refPresent` may change. -/
def Chip.refPresent_fx : Fx := .of [] [.ROOT_STATUS]
theorem Chip.refPresent_in {X : Fx} {b0 c : Chip}  (hW : Within X b0 c) (hX : Fx.le Chip.refPresent_fx X = true) : Within X b0 (Chip.refPresent c) := by
  refine hW.trans (Within.mono hX ?_)
  unfold Chip.refPresent
  try dsimp only
  repeat' first
    | with_reducible assumption
    | with_reducible exact .refl _ _
    | with_reducible refine Within.setBit ?_ (by decide +kernel)
    | with_reducible refine Within.ite ?_ ?_
    | split
    | dsimp only


/-- What `Chip.ppsIn` may change. -/
def Chip.ppsIn_fx : Fx := .all
theorem Chip.ppsIn_in {X : Fx} {b0 c : Chip} {st : Stepper} {sub : Nat} (hW : Within X b0 c) (hX : Fx.le Chip.ppsIn_fx X = true) : Within X b0 (Chip.ppsIn c st sub) := by
  refine hW.trans (Within.mono hX ?_)
  exact Within.all _ _


/-- What `Chip.ppsBegin` may change. -/
def Chip.ppsBegin_fx : Fx := .of [.time] []
theorem Chip.ppsBegin_in {X : Fx} {b0 c : Chip}  (hW : Within X b0 c) (hX : Fx.le Chip.ppsBegin_fx X = true) : Within X b0 (Chip.ppsBegin c) := by
  refine hW.trans (Within.mono hX ?_)
  unfold Chip.ppsBegin
  try dsimp only
  repeat' first
    | with_reducible assumption
    | with_reducible exact .refl _ _
    | with_reducible refine Within.setTime ?_ (by decide +kernel)
    | with_reducible refine Within.ite ?_ ?_
    | split
    | dsimp only


/-- What `Chip.ppsStop` may change. -/
def Chip.ppsStop_fx : Fx := .of [.time] []
theorem Chip.ppsStop_in {X : Fx} {b0 c : Chip}  (hW : Within X b0 c) (hX : Fx.le Chip.ppsStop_fx X = true) : Within X b0 (Chip.ppsStop c) := by
  refine hW.trans (Within.mono hX ?_)
  unfold Chip.ppsStop
  try dsimp only
  repeat' first
    | with_reducible assumption
    | with_reducible exact .refl _ _
    | with_reducible refine Within.setTime ?_ (by decide +kernel)
    | with_reducible refine Within.ite ?_ ?_
    | split
    | dsimp only


end Sys2Proof.Machine
end

