-- ==== Sys2Proof/Laws/FrameSchedRegs.lean ====
section
/-!
SUPPORT. Frames of the operations of `Machine/SchedRegs.lean`: which parts and objects each may change.
-/
set_option Elab.async false
namespace Sys2Proof.Machine

/-- What `Chip.renumber` may change. -/
def Chip.renumber_fx : Fx := .union [Chip.pfcEval_fx, .of [.queues] []]
theorem Chip.renumber_in {X : Fx} {b0 c : Chip} {p : Nat} (hW : Within X b0 c) (hX : Fx.le Chip.renumber_fx X = true) : Within X b0 (Chip.renumber c p) := by
  refine hW.trans (Within.mono hX ?_)
  unfold Chip.renumber
  try dsimp only [Chip.fold_queues]
  repeat' first
    | with_reducible assumption
    | with_reducible exact .refl _ _
    | with_reducible refine Chip.pfcEval_in ?_ (by decide +kernel)
    | with_reducible refine Within.put_queues ?_ (by decide +kernel)
    | with_reducible refine Within.ite ?_ ?_
    | split
    | dsimp only


/-- What `Chip.ownBlocks` may change. -/
def Chip.ownBlocks_fx : Fx := .of [] [.Q_BLOCK_OWNER]
theorem Chip.ownBlocks_in {X : Fx} {b0 c : Chip} {p : Nat} {old : List Nat} {new : List Nat} (hW : Within X b0 c) (hX : Fx.le Chip.ownBlocks_fx X = true) : Within X b0 (Chip.ownBlocks c p old new) := by
  refine hW.trans (Within.mono hX ?_)
  unfold Chip.ownBlocks
  try dsimp only
  repeat' first
    | with_reducible assumption
    | with_reducible exact .refl _ _
    | with_reducible refine Within.wrRow ?_ (by decide +kernel)
    | with_reducible refine Within.each (fun _ _ _ => ?_) ?_
    | with_reducible refine Within.ite ?_ ?_
    | split
    | dsimp only


/-- What `Chip.writeQBlocks` may change. -/
def Chip.writeQBlocks_fx : Fx := .union [Chip.ownBlocks_fx, Chip.renumber_fx, .of [] [.Q_BLOCKS]]
theorem Chip.writeQBlocks_in {X : Fx} {b0 c : Chip} {p : Nat} {row : Nat} {v : Nat} (hW : Within X b0 c) (hX : Fx.le Chip.writeQBlocks_fx X = true) : Within X b0 (Chip.writeQBlocks c p row v).2 := by
  refine hW.trans (Within.mono hX ?_)
  unfold Chip.writeQBlocks
  try dsimp only
  repeat' first
    | with_reducible assumption
    | with_reducible exact .refl _ _
    | with_reducible refine Chip.ownBlocks_in ?_ (by decide +kernel)
    | with_reducible refine Chip.renumber_in ?_ (by decide +kernel)
    | with_reducible refine Within.wrRow ?_ (by decide +kernel)
    | with_reducible refine Within.ite ?_ ?_
    | split
    | dsimp only


/-- What `Chip.writeQDefault` may change. -/
def Chip.writeQDefault_fx : Fx := .of [] [.Q_DEFAULT]
theorem Chip.writeQDefault_in {X : Fx} {b0 c : Chip} {p : Nat} {v : Nat} (hW : Within X b0 c) (hX : Fx.le Chip.writeQDefault_fx X = true) : Within X b0 (Chip.writeQDefault c p v).2 := by
  refine hW.trans (Within.mono hX ?_)
  unfold Chip.writeQDefault
  try dsimp only
  repeat' first
    | with_reducible assumption
    | with_reducible exact .refl _ _
    | with_reducible refine Within.wr ?_ (by decide +kernel)
    | with_reducible refine Within.ite ?_ ?_
    | split
    | dsimp only


/-- What `Chip.writeQFlush` may change. -/
def Chip.writeQFlush_fx : Fx := .union [Chip.flushPort_fx, Chip.lpiReplan_fx]
theorem Chip.writeQFlush_in {X : Fx} {b0 c : Chip} {p : Nat} {v : Nat} (hW : Within X b0 c) (hX : Fx.le Chip.writeQFlush_fx X = true) : Within X b0 (Chip.writeQFlush c p v).2 := by
  refine hW.trans (Within.mono hX ?_)
  unfold Chip.writeQFlush
  try dsimp only
  repeat' first
    | with_reducible assumption
    | with_reducible exact .refl _ _
    | with_reducible refine Chip.flushPort_in ?_ (by decide +kernel)
    | with_reducible refine Chip.lpiReplan_in ?_ (by decide +kernel)
    | with_reducible refine Within.ite ?_ ?_
    | split
    | dsimp only


/-- What `Chip.writeQConfig` may change. -/
def Chip.writeQConfig_fx : Fx := .union [Chip.lpiReplan_fx, Chip.pfcEval_fx, .of [] [.Q_CONFIG]]
theorem Chip.writeQConfig_in {X : Fx} {b0 c : Chip} {p : Nat} {row : Nat} {v : Nat} (hW : Within X b0 c) (hX : Fx.le Chip.writeQConfig_fx X = true) : Within X b0 (Chip.writeQConfig c p row v).2 := by
  refine hW.trans (Within.mono hX ?_)
  unfold Chip.writeQConfig
  try dsimp only
  repeat' first
    | with_reducible assumption
    | with_reducible exact .refl _ _
    | with_reducible refine Chip.lpiReplan_in ?_ (by decide +kernel)
    | with_reducible refine Chip.pfcEval_in ?_ (by decide +kernel)
    | with_reducible refine Within.wrRow ?_ (by decide +kernel)
    | with_reducible refine Within.ite ?_ ?_
    | split
    | dsimp only


/-- What `Chip.writeSvcConfig` may change. -/
def Chip.writeSvcConfig_fx : Fx := .union [Chip.lpiReplan_fx, .of [] [.SVC_CONFIG]]
theorem Chip.writeSvcConfig_in {X : Fx} {b0 c : Chip} {p : Nat} {row : Nat} {v : Nat} (hW : Within X b0 c) (hX : Fx.le Chip.writeSvcConfig_fx X = true) : Within X b0 (Chip.writeSvcConfig c p row v).2 := by
  refine hW.trans (Within.mono hX ?_)
  unfold Chip.writeSvcConfig
  try dsimp only
  repeat' first
    | with_reducible assumption
    | with_reducible exact .refl _ _
    | with_reducible refine Chip.lpiReplan_in ?_ (by decide +kernel)
    | with_reducible refine Within.wrRow ?_ (by decide +kernel)
    | with_reducible refine Within.ite ?_ ?_
    | split
    | dsimp only


/-- What `Chip.writeShaperRow` may change. -/
def Chip.writeShaperRow_fx : Fx := .union [Chip.lpiReplan_fx, Chip.writeShaper_fx]
theorem Chip.writeShaperRow_in {X : Fx} {b0 c : Chip} {r : ShRef} {v : Nat} (hW : Within X b0 c) (hX : Fx.le Chip.writeShaperRow_fx X = true) : Within X b0 (Chip.writeShaperRow c r v).2 := by
  refine hW.trans (Within.mono hX ?_)
  unfold Chip.writeShaperRow
  try dsimp only
  repeat' first
    | with_reducible assumption
    | with_reducible exact .refl _ _
    | with_reducible refine Chip.lpiReplan_in ?_ (by decide +kernel)
    | with_reducible refine Chip.writeShaper_in ?_ (by decide +kernel)
    | with_reducible refine Within.each (fun _ _ _ => ?_) ?_
    | with_reducible refine Within.ite ?_ ?_
    | split
    | dsimp only


/-- What `Chip.debtEnd` may change. -/
def Chip.debtEnd_fx : Fx := Chip.setShaper_fx
theorem Chip.debtEnd_in {X : Fx} {b0 c : Chip} {r : ShRef} (hW : Within X b0 c) (hX : Fx.le Chip.debtEnd_fx X = true) : Within X b0 (Chip.debtEnd c r) := by
  refine hW.trans (Within.mono hX ?_)
  unfold Chip.debtEnd
  try dsimp only
  repeat' first
    | with_reducible assumption
    | with_reducible exact .refl _ _
    | with_reducible refine Chip.setShaper_in ?_ (by decide +kernel)
    | with_reducible refine Within.ite ?_ ?_
    | split
    | dsimp only


/-- What `Chip.gateOn` may change. -/
def Chip.gateOn_fx : Fx := .union [Chip.gateMoved_fx, Chip.lpiReplan_fx, .of [.sched] [.GATE_ENABLE]]
theorem Chip.gateOn_in {X : Fx} {b0 c : Chip} {p : Nat} (hW : Within X b0 c) (hX : Fx.le Chip.gateOn_fx X = true) : Within X b0 (Chip.gateOn c p).2 := by
  refine hW.trans (Within.mono hX ?_)
  unfold Chip.gateOn
  try dsimp only
  repeat' first
    | with_reducible assumption
    | with_reducible exact .refl _ _
    | with_reducible refine Chip.gateMoved_in ?_ (by decide +kernel)
    | with_reducible refine Chip.lpiReplan_in ?_ (by decide +kernel)
    | with_reducible refine Within.wrBool ?_ (by decide +kernel)
    | with_reducible refine Within.setSch ?_ (by decide +kernel)
    | with_reducible refine Within.ite ?_ ?_
    | split
    | dsimp only


/-- What `Chip.gateOff` may change. -/
def Chip.gateOff_fx : Fx := .union [Chip.gateMoved_fx, Chip.lpiReplan_fx, .of [.sched] [.GATE_ENABLE]]
theorem Chip.gateOff_in {X : Fx} {b0 c : Chip} {p : Nat} (hW : Within X b0 c) (hX : Fx.le Chip.gateOff_fx X = true) : Within X b0 (Chip.gateOff c p).2 := by
  refine hW.trans (Within.mono hX ?_)
  unfold Chip.gateOff
  try dsimp only
  repeat' first
    | with_reducible assumption
    | with_reducible exact .refl _ _
    | with_reducible refine Chip.gateMoved_in ?_ (by decide +kernel)
    | with_reducible refine Chip.lpiReplan_in ?_ (by decide +kernel)
    | with_reducible refine Within.wrBool ?_ (by decide +kernel)
    | with_reducible refine Within.setSch ?_ (by decide +kernel)
    | with_reducible refine Within.ite ?_ ?_
    | split
    | dsimp only


/-- What `Chip.writeGateEnable` may change. -/
def Chip.writeGateEnable_fx : Fx := .union [Chip.gateOff_fx, Chip.gateOn_fx]
theorem Chip.writeGateEnable_in {X : Fx} {b0 c : Chip} {p : Nat} {v : Nat} (hW : Within X b0 c) (hX : Fx.le Chip.writeGateEnable_fx X = true) : Within X b0 (Chip.writeGateEnable c p v).2 := by
  refine hW.trans (Within.mono hX ?_)
  unfold Chip.writeGateEnable
  try dsimp only
  repeat' first
    | with_reducible assumption
    | with_reducible exact .refl _ _
    | with_reducible refine Chip.gateOff_in ?_ (by decide +kernel)
    | with_reducible refine Chip.gateOn_in ?_ (by decide +kernel)
    | with_reducible refine Within.ite ?_ ?_
    | split
    | dsimp only


/-- What `Chip.writeGateSwap` may change. -/
def Chip.writeGateSwap_fx : Fx := .union [Chip.gateMoved_fx, Chip.lpiReplan_fx, .of [.sched] [.GATE_SWAP_TIME]]
theorem Chip.writeGateSwap_in {X : Fx} {b0 c : Chip} {p : Nat} {v : Nat} (hW : Within X b0 c) (hX : Fx.le Chip.writeGateSwap_fx X = true) : Within X b0 (Chip.writeGateSwap c p v).2 := by
  refine hW.trans (Within.mono hX ?_)
  unfold Chip.writeGateSwap
  try dsimp only
  repeat' first
    | with_reducible assumption
    | with_reducible exact .refl _ _
    | with_reducible refine Chip.gateMoved_in ?_ (by decide +kernel)
    | with_reducible refine Chip.lpiReplan_in ?_ (by decide +kernel)
    | with_reducible refine Within.wr ?_ (by decide +kernel)
    | with_reducible refine Within.setSch ?_ (by decide +kernel)
    | with_reducible refine Within.ite ?_ ?_
    | split
    | dsimp only


/-- What `Chip.writeGcl` may change. -/
def Chip.writeGcl_fx : Fx := .everyReg []
theorem Chip.writeGcl_in {X : Fx} {b0 c : Chip} {r : Reg} {b : Nat} {p : Nat} {row : Nat} {v : Nat} (hW : Within X b0 c) (hX : Fx.le Chip.writeGcl_fx X = true) : Within X b0 (Chip.writeGcl c r b p row v).2 := by
  refine hW.trans (Within.mono hX ?_)
  unfold Chip.writeGcl
  try dsimp only
  repeat' first
    | with_reducible assumption
    | with_reducible exact .refl _ _
    | with_reducible refine Within.wrRow ?_ (Fx.reg_le _ (by decide +kernel))
    | with_reducible refine Within.wr ?_ (Fx.reg_le _ (by decide +kernel))
    | with_reducible refine Within.wrDev ?_ (Fx.reg_le _ (by decide +kernel))
    | with_reducible refine Within.inc ?_ (Fx.reg_le _ (by decide +kernel))
    | with_reducible refine Within.add ?_ (Fx.reg_le _ (by decide +kernel))
    | with_reducible refine Within.addRow ?_ (Fx.reg_le _ (by decide +kernel))
    | with_reducible refine Within.clr ?_ (Fx.reg_le _ (by decide +kernel))
    | with_reducible refine Within.wrRow ?_ (by decide +kernel)
    | with_reducible refine Within.ite ?_ ?_
    | split
    | dsimp only


/-- What `Chip.mmOn` may change. -/
def Chip.mmOn_fx : Fx := .union [Chip.mmStart_fx, .of [] [.MM_ENABLE]]
theorem Chip.mmOn_in {X : Fx} {b0 c : Chip} {p : Nat} (hW : Within X b0 c) (hX : Fx.le Chip.mmOn_fx X = true) : Within X b0 (Chip.mmOn c p) := by
  refine hW.trans (Within.mono hX ?_)
  unfold Chip.mmOn
  try dsimp only
  repeat' first
    | with_reducible assumption
    | with_reducible exact .refl _ _
    | with_reducible refine Chip.mmStart_in ?_ (by decide +kernel)
    | with_reducible refine Within.wrBool ?_ (by decide +kernel)
    | with_reducible refine Within.ite ?_ ?_
    | split
    | dsimp only


/-- What `Chip.mmOff` may change. -/
def Chip.mmOff_fx : Fx := .of [.sched] [.MM_ENABLE, .MM_STATUS]
theorem Chip.mmOff_in {X : Fx} {b0 c : Chip} {p : Nat} (hW : Within X b0 c) (hX : Fx.le Chip.mmOff_fx X = true) : Within X b0 (Chip.mmOff c p) := by
  refine hW.trans (Within.mono hX ?_)
  unfold Chip.mmOff
  try dsimp only
  repeat' first
    | with_reducible assumption
    | with_reducible exact .refl _ _
    | with_reducible refine Within.wr ?_ (by decide +kernel)
    | with_reducible refine Within.wrBool ?_ (by decide +kernel)
    | with_reducible refine Within.setSch ?_ (by decide +kernel)
    | with_reducible refine Within.ite ?_ ?_
    | split
    | dsimp only


/-- What `Chip.writeMmEnable` may change. -/
def Chip.writeMmEnable_fx : Fx := .union [Chip.mmOff_fx, Chip.mmOn_fx]
theorem Chip.writeMmEnable_in {X : Fx} {b0 c : Chip} {p : Nat} {v : Nat} (hW : Within X b0 c) (hX : Fx.le Chip.writeMmEnable_fx X = true) : Within X b0 (Chip.writeMmEnable c p v).2 := by
  refine hW.trans (Within.mono hX ?_)
  unfold Chip.writeMmEnable
  try dsimp only
  repeat' first
    | with_reducible assumption
    | with_reducible exact .refl _ _
    | with_reducible refine Chip.mmOff_in ?_ (by decide +kernel)
    | with_reducible refine Chip.mmOn_in ?_ (by decide +kernel)
    | with_reducible refine Within.ite ?_ ?_
    | split
    | dsimp only


/-- What `Chip.writeMeterRange` may change. -/
def Chip.writeMeterRange_fx : Fx := .of [] [.RX_METER_BASE, .RX_METER_COUNT]
theorem Chip.writeMeterRange_in {X : Fx} {b0 c : Chip} {p : Nat} {count : Bool} {v : Nat} (hW : Within X b0 c) (hX : Fx.le Chip.writeMeterRange_fx X = true) : Within X b0 (Chip.writeMeterRange c p count v).2 := by
  refine hW.trans (Within.mono hX ?_)
  unfold Chip.writeMeterRange
  try dsimp only
  repeat' first
    | with_reducible assumption
    | with_reducible exact .refl _ _
    | with_reducible refine Within.wr ?_ (by cases count <;> decide +kernel)
    | with_reducible refine Within.wr ?_ (by decide +kernel)
    | with_reducible refine Within.ite ?_ ?_
    | split
    | dsimp only


/-- What `Chip.txReport` may change. -/
def Chip.txReport_fx : Fx := .of [.draws, .sched] [.TX_TS_REPORT, .TX_TS_SEQ]
theorem Chip.txReport_in {X : Fx} {b0 c : Chip} {r : Frag} (hW : Within X b0 c) (hX : Fx.le Chip.txReport_fx X = true) : Within X b0 (Chip.txReport c r) := by
  refine hW.trans (Within.mono hX ?_)
  unfold Chip.txReport
  try dsimp only
  repeat' first
    | with_reducible assumption
    | with_reducible exact .refl _ _
    | with_reducible refine Within.wrRow ?_ (by decide +kernel)
    | with_reducible refine Within.wr ?_ (by decide +kernel)
    | with_reducible refine Within.setSch ?_ (by decide +kernel)
    | with_reducible refine Within.draw ?_ (by decide +kernel)
    | with_reducible refine Within.ite ?_ ?_
    | split
    | dsimp only


/-- What `Chip.fragEnd` may change. -/
def Chip.fragEnd_fx : Fx := .union [Chip.pfcEval_fx, Chip.qCount_fx, Chip.txReport_fx, .of [.ev, .sched] [.GATE_OVERRUN_COUNT, .MM_FRAG_TX, .SVC_COUNTERS]]
theorem Chip.fragEnd_in {X : Fx} {b0 c : Chip} {p : Nat} {r : Frag} (hW : Within X b0 c) (hX : Fx.le Chip.fragEnd_fx X = true) : Within X b0 (Chip.fragEnd c p r) := by
  refine hW.trans (Within.mono hX ?_)
  unfold Chip.fragEnd
  try dsimp only
  repeat' first
    | with_reducible assumption
    | with_reducible exact .refl _ _
    | with_reducible refine Chip.pfcEval_in ?_ (by decide +kernel)
    | with_reducible refine Chip.qCount_in ?_ (by decide +kernel)
    | with_reducible refine Chip.txReport_in ?_ (by decide +kernel)
    | with_reducible refine Within.inc ?_ (by decide +kernel)
    | with_reducible refine Within.addField ?_ (by decide +kernel)
    | with_reducible refine Within.setSch ?_ (by decide +kernel)
    | with_reducible refine Within.raise ?_ (by decide +kernel)
    | with_reducible refine Within.ite ?_ ?_
    | split
    | dsimp only


end Sys2Proof.Machine
end

