-- ==== Sys2Proof/Laws/FrameBufferEvents.lean ====
section
/-!
SUPPORT. Frames of the operations of `Machine/BufferEvents.lean`: which parts and objects each may change.
-/
set_option Elab.async false
namespace Sys2Proof.Machine

/-- What `Chip.frameEligible` may change. -/
def Chip.frameEligible_fx : Fx := .union [Chip.guaranteeCharge_fx, Chip.lpiReplan_fx, Chip.sizeSeen_fx, .of [.queues, .sched] [.Q_OOO_COUNT]]
theorem Chip.frameEligible_in {X : Fx} {b0 c : Chip} {p : Nat} {v : Nat} {f : Frame} (hW : Within X b0 c) (hX : Fx.le Chip.frameEligible_fx X = true) : Within X b0 (Chip.frameEligible c p v f) := by
  refine hW.trans (Within.mono hX ?_)
  unfold Chip.frameEligible
  try dsimp only
  repeat' first
    | with_reducible assumption
    | with_reducible exact .refl _ _
    | with_reducible refine Chip.guaranteeCharge_in ?_ (by decide +kernel)
    | with_reducible refine Chip.lpiReplan_in ?_ (by decide +kernel)
    | with_reducible refine Chip.sizeSeen_in ?_ (by decide +kernel)
    | with_reducible refine Within.inc ?_ (by decide +kernel)
    | with_reducible refine Within.setSch ?_ (by decide +kernel)
    | with_reducible refine Within.setQueue ?_ (by decide +kernel)
    | with_reducible refine Within.ite ?_ ?_
    | split
    | dsimp only


/-- What `Chip.writeQcRetire` may change. -/
def Chip.writeQcRetire_fx : Fx := Chip.retire_fx
theorem Chip.writeQcRetire_in {X : Fx} {b0 c : Chip} {h : Nat} {v : Nat} (hW : Within X b0 c) (hX : Fx.le Chip.writeQcRetire_fx X = true) : Within X b0 (Chip.writeQcRetire c h v).2 := by
  refine hW.trans (Within.mono hX ?_)
  unfold Chip.writeQcRetire
  try dsimp only
  repeat' first
    | with_reducible assumption
    | with_reducible exact .refl _ _
    | with_reducible refine Chip.retire_in ?_ (by decide +kernel)
    | with_reducible refine Within.ite ?_ ?_
    | split
    | dsimp only


/-- What `Chip.writeReevaluate` may change. -/
def Chip.writeReevaluate_fx : Fx := Chip.reevaluate_fx
theorem Chip.writeReevaluate_in {X : Fx} {b0 c : Chip} {v : Nat} (hW : Within X b0 c) (hX : Fx.le Chip.writeReevaluate_fx X = true) : Within X b0 (Chip.writeReevaluate c v).2 := by
  refine hW.trans (Within.mono hX ?_)
  unfold Chip.writeReevaluate
  try dsimp only
  repeat' first
    | with_reducible assumption
    | with_reducible exact .refl _ _
    | with_reducible refine Chip.reevaluate_in ?_ (by decide +kernel)
    | with_reducible refine Within.ite ?_ ?_
    | split
    | dsimp only


end Sys2Proof.Machine
end

