-- ==== Sys2Proof/Laws/FrameStore.lean ====
section
/-!
SUPPORT. Frames of the operations of `Machine/Store.lean`: which parts and objects each may change.
-/
set_option Elab.async false
namespace Sys2Proof.Machine

/-- What `Chip.invalidate` may change. -/
def Chip.invalidate_fx : Fx := .union [Chip.ancVictimReset_fx, .of [.pes] [.PE_TRAIN_STATUS]]
theorem Chip.invalidate_in {X : Fx} {b0 c : Chip} {e : Nat} (hW : Within X b0 c) (hX : Fx.le Chip.invalidate_fx X = true) : Within X b0 (Chip.invalidate c e) := by
  refine hW.trans (Within.mono hX ?_)
  unfold Chip.invalidate
  try dsimp only
  repeat' first
    | with_reducible assumption
    | with_reducible exact .refl _ _
    | with_reducible refine Chip.ancVictimReset_in ?_ (by decide +kernel)
    | with_reducible refine Within.setBit ?_ (by decide +kernel)
    | with_reducible refine Within.setPe ?_ (by decide +kernel)
    | with_reducible refine Within.ite ?_ ?_
    | split
    | dsimp only


/-- What `Chip.sealPort` may change. -/
def Chip.sealPort_fx : Fx := .of [.pes] [.PE_STORE_STATUS]
theorem Chip.sealPort_in {X : Fx} {b0 c : Chip} {p : Nat} (hW : Within X b0 c) (hX : Fx.le Chip.sealPort_fx X = true) : Within X b0 (Chip.sealPort c p) := by
  refine hW.trans (Within.mono hX ?_)
  unfold Chip.sealPort
  try dsimp only
  repeat' first
    | with_reducible assumption
    | with_reducible exact .refl _ _
    | with_reducible refine Within.setBit ?_ (by decide +kernel)
    | with_reducible refine Within.setPe ?_ (by decide +kernel)
    | with_reducible refine Within.each (fun _ _ _ => ?_) ?_
    | with_reducible refine Within.ite ?_ ?_
    | split
    | dsimp only


/-- What `Chip.resumeAll` may change. -/
def Chip.resumeAll_fx : Fx := .of [.pes] [.PE_STORE_STATUS]
theorem Chip.resumeAll_in {X : Fx} {b0 c : Chip} {l : List Nat} (hW : Within X b0 c) (hX : Fx.le Chip.resumeAll_fx X = true) : Within X b0 (Chip.resumeAll c l) := by
  refine hW.trans (Within.mono hX ?_)
  unfold Chip.resumeAll
  try dsimp only
  repeat' first
    | with_reducible assumption
    | with_reducible exact .refl _ _
    | with_reducible refine Within.setBit ?_ (by decide +kernel)
    | with_reducible refine Within.setPe ?_ (by decide +kernel)
    | with_reducible refine Within.each (fun _ _ _ => ?_) ?_
    | with_reducible refine Within.ite ?_ ?_
    | split
    | dsimp only


/-- What `Chip.retentionCheck` may change. -/
def Chip.retentionCheck_fx : Fx := .union [Chip.invalidate_fx, .of [] [.PE_STORE_STATUS]]
theorem Chip.retentionCheck_in {X : Fx} {b0 c : Chip} {e : Nat} (hW : Within X b0 c) (hX : Fx.le Chip.retentionCheck_fx X = true) : Within X b0 (Chip.retentionCheck c e).2 := by
  refine hW.trans (Within.mono hX ?_)
  unfold Chip.retentionCheck
  try dsimp only
  repeat' first
    | with_reducible assumption
    | with_reducible exact .refl _ _
    | with_reducible refine Chip.invalidate_in ?_ (by decide +kernel)
    | with_reducible refine Within.setBit ?_ (by decide +kernel)
    | with_reducible refine Within.ite ?_ ?_
    | split
    | dsimp only


/-- What `Chip.retain` may change. -/
def Chip.retain_fx : Fx := .of [.pes] [.PE_TRAIN_STATUS]
theorem Chip.retain_in {X : Fx} {b0 c : Chip} {e : Nat} {m : LineMode} {epoch : Nat} {cls : Nat} (hW : Within X b0 c) (hX : Fx.le Chip.retain_fx X = true) : Within X b0 (Chip.retain c e m epoch cls) := by
  refine hW.trans (Within.mono hX ?_)
  unfold Chip.retain
  try dsimp only
  repeat' first
    | with_reducible assumption
    | with_reducible exact .refl _ _
    | with_reducible refine Within.setBit ?_ (by decide +kernel)
    | with_reducible refine Within.setPe ?_ (by decide +kernel)
    | with_reducible refine Within.ite ?_ ?_
    | split
    | dsimp only


/-- What `Chip.storeRecord` may change. -/
def Chip.storeRecord_fx : Fx := .of [.nv] [.PE_TRAIN_STATUS]
theorem Chip.storeRecord_in {X : Fx} {b0 c : Chip} {e : Nat} {m : LineMode} {epoch : Nat} {cls : Nat} (hW : Within X b0 c) (hX : Fx.le Chip.storeRecord_fx X = true) : Within X b0 (Chip.storeRecord c e m epoch cls) := by
  refine hW.trans (Within.mono hX ?_)
  unfold Chip.storeRecord
  try dsimp only [Chip.fold_nv]
  repeat' first
    | with_reducible assumption
    | with_reducible exact .refl _ _
    | with_reducible refine Within.setBit ?_ (by decide +kernel)
    | with_reducible refine Within.put_nv ?_ (by decide +kernel)
    | with_reducible refine Within.ite ?_ ?_
    | split
    | dsimp only


/-- What `Chip.checkStored` may change. -/
def Chip.checkStored_fx : Fx := .of [.ev] [.PE_TRAIN_STATUS]
theorem Chip.checkStored_in {X : Fx} {b0 c : Chip} {e : Nat} {bad : Bool} (hW : Within X b0 c) (hX : Fx.le Chip.checkStored_fx X = true) : Within X b0 (Chip.checkStored c e bad) := by
  refine hW.trans (Within.mono hX ?_)
  unfold Chip.checkStored
  try dsimp only
  repeat' first
    | with_reducible assumption
    | with_reducible exact .refl _ _
    | with_reducible refine Within.setBit ?_ (by decide +kernel)
    | with_reducible refine Within.raise ?_ (by decide +kernel)
    | with_reducible refine Within.ite ?_ ?_
    | split
    | dsimp only


/-- What `Chip.feTrims` may change. -/
def Chip.feTrims_fx : Fx := .of [.pes] []
theorem Chip.feTrims_in {X : Fx} {b0 c : Chip} {e : Nat} (hW : Within X b0 c) (hX : Fx.le Chip.feTrims_fx X = true) : Within X b0 (Chip.feTrims c e) := by
  refine hW.trans (Within.mono hX ?_)
  unfold Chip.feTrims
  try dsimp only
  repeat' first
    | with_reducible assumption
    | with_reducible exact .refl _ _
    | with_reducible refine Within.setPe ?_ (by decide +kernel)
    | with_reducible refine Within.foldl (fun _ _ _ => ?_) ?_
    | with_reducible refine Within.foldl1 (fun _ _ _ => ?_) ?_
    | with_reducible refine Within.fold (fun _ _ _ => ?_) ?_
    | with_reducible refine Within.ite ?_ ?_
    | split
    | dsimp only


/-- What `Chip.loadInitial` may change. -/
def Chip.loadInitial_fx : Fx := .union [Chip.feTrims_fx, .of [.pes] []]
theorem Chip.loadInitial_in {X : Fx} {b0 c : Chip} {e : Nat} {m : LineMode} {cls : Nat} {hit : Bool} (hW : Within X b0 c) (hX : Fx.le Chip.loadInitial_fx X = true) : Within X b0 (Chip.loadInitial c e m cls hit) := by
  refine hW.trans (Within.mono hX ?_)
  unfold Chip.loadInitial
  try dsimp only
  repeat' first
    | with_reducible assumption
    | with_reducible exact .refl _ _
    | with_reducible refine Chip.feTrims_in ?_ (by decide +kernel)
    | with_reducible refine Within.setPe ?_ (by decide +kernel)
    | with_reducible refine Within.foldl (fun _ _ _ => ?_) ?_
    | with_reducible refine Within.foldl1 (fun _ _ _ => ?_) ?_
    | with_reducible refine Within.fold (fun _ _ _ => ?_) ?_
    | with_reducible refine Within.ite ?_ ?_
    | split
    | dsimp only


/-- What `Chip.refreshFail` may change. -/
def Chip.refreshFail_fx : Fx := .union [Chip.invalidate_fx, .of [.ev, .pes] [.PE_STORE_DED_COUNT, .PE_STORE_STATUS]]
theorem Chip.refreshFail_in {X : Fx} {b0 c : Chip} {e : Nat} {row : Nat} {uncorrectable : Bool} (hW : Within X b0 c) (hX : Fx.le Chip.refreshFail_fx X = true) : Within X b0 (Chip.refreshFail c e row uncorrectable) := by
  refine hW.trans (Within.mono hX ?_)
  unfold Chip.refreshFail
  try dsimp only
  repeat' first
    | with_reducible assumption
    | with_reducible exact .refl _ _
    | with_reducible refine Chip.invalidate_in ?_ (by decide +kernel)
    | with_reducible refine Within.inc ?_ (by decide +kernel)
    | with_reducible refine Within.setBit ?_ (by decide +kernel)
    | with_reducible refine Within.setPe ?_ (by decide +kernel)
    | with_reducible refine Within.raise ?_ (by decide +kernel)
    | with_reducible refine Within.foldl (fun _ _ _ => ?_) ?_
    | with_reducible refine Within.foldl1 (fun _ _ _ => ?_) ?_
    | with_reducible refine Within.fold (fun _ _ _ => ?_) ?_
    | with_reducible refine Within.ite ?_ ?_
    | split
    | dsimp only


end Sys2Proof.Machine
end

