-- ==== Sys2Proof/Laws/FrameLink.lean ====
section
/-!
SUPPORT. Frames of the operations of `Machine/Link.lean`: which parts and objects each may change.
-/
set_option Elab.async false
namespace Sys2Proof.Machine

/-- What `Chip.setLink` may change. -/
def Chip.setLink_fx : Fx := .of [.ports] []
theorem Chip.setLink_in {X : Fx} {b0 c : Chip} {p : Nat} {l : LinkState} (hW : Within X b0 c) (hX : Fx.le Chip.setLink_fx X = true) : Within X b0 (Chip.setLink c p l) := by
  refine hW.trans (Within.mono hX ?_)
  unfold Chip.setLink
  try dsimp only
  repeat' first
    | with_reducible assumption
    | with_reducible exact .refl _ _
    | with_reducible refine Within.setPort ?_ (by decide +kernel)
    | with_reducible refine Within.ite ?_ ?_
    | split
    | dsimp only


/-- What `Chip.setCause` may change. -/
def Chip.setCause_fx : Fx := .of [] [.LINK_DOWN_CAUSE]
theorem Chip.setCause_in {X : Fx} {b0 c : Chip} {p : Nat} {code : Nat} (hW : Within X b0 c) (hX : Fx.le Chip.setCause_fx X = true) : Within X b0 (Chip.setCause c p code) := by
  refine hW.trans (Within.mono hX ?_)
  unfold Chip.setCause
  try dsimp only
  repeat' first
    | with_reducible assumption
    | with_reducible exact .refl _ _
    | with_reducible refine Within.wr ?_ (by decide +kernel)
    | with_reducible refine Within.ite ?_ ?_
    | split
    | dsimp only


/-- What `Chip.failCause` may change. -/
def Chip.failCause_fx : Fx := .union [Chip.setCause_fx, .of [.ev] []]
theorem Chip.failCause_in {X : Fx} {b0 c : Chip} {p : Nat} {code : Nat} (hW : Within X b0 c) (hX : Fx.le Chip.failCause_fx X = true) : Within X b0 (Chip.failCause c p code) := by
  refine hW.trans (Within.mono hX ?_)
  unfold Chip.failCause
  try dsimp only
  repeat' first
    | with_reducible assumption
    | with_reducible exact .refl _ _
    | with_reducible refine Chip.setCause_in ?_ (by decide +kernel)
    | with_reducible refine Within.raise ?_ (by decide +kernel)
    | with_reducible refine Within.ite ?_ ?_
    | split
    | dsimp only


/-- What `Chip.phase` may change. -/
def Chip.phase_fx : Fx := .of [] [.PE_TRAIN_PHASE]
theorem Chip.phase_in {X : Fx} {b0 c : Chip} {p : Nat} {n : Nat} (hW : Within X b0 c) (hX : Fx.le Chip.phase_fx X = true) : Within X b0 (Chip.phase c p n) := by
  refine hW.trans (Within.mono hX ?_)
  unfold Chip.phase
  try dsimp only
  repeat' first
    | with_reducible assumption
    | with_reducible exact .refl _ _
    | with_reducible refine Within.wr ?_ (by decide +kernel)
    | with_reducible refine Within.each (fun _ _ _ => ?_) ?_
    | with_reducible refine Within.ite ?_ ?_
    | split
    | dsimp only


/-- What `Chip.leaveUp` may change. -/
def Chip.leaveUp_fx : Fx := .union [Chip.ancPortDown_fx, Chip.hostLinkDown_fx, Chip.lpiDown_fx, Chip.lqDown_fx, Chip.rootLineDown_fx, Chip.schedStop_fx, .of [.pes, .ports] [.LINK_DOWN_COUNT, .PE_COEF_FREEZE, .PE_PRECODER_ABANDONED]]
theorem Chip.leaveUp_in {X : Fx} {b0 c : Chip} {p : Nat} (hW : Within X b0 c) (hX : Fx.le Chip.leaveUp_fx X = true) : Within X b0 (Chip.leaveUp c p) := by
  refine hW.trans (Within.mono hX ?_)
  unfold Chip.leaveUp
  try dsimp only
  repeat' first
    | with_reducible assumption
    | with_reducible exact .refl _ _
    | with_reducible refine Chip.ancPortDown_in ?_ (by decide +kernel)
    | with_reducible refine Chip.hostLinkDown_in ?_ (by decide +kernel)
    | with_reducible refine Chip.lpiDown_in ?_ (by decide +kernel)
    | with_reducible refine Chip.lqDown_in ?_ (by decide +kernel)
    | with_reducible refine Chip.rootLineDown_in ?_ (by decide +kernel)
    | with_reducible refine Chip.schedStop_in ?_ (by decide +kernel)
    | with_reducible refine Within.wr ?_ (by decide +kernel)
    | with_reducible refine Within.inc ?_ (by decide +kernel)
    | with_reducible refine Within.add ?_ (by decide +kernel)
    | with_reducible refine Within.setPort ?_ (by decide +kernel)
    | with_reducible refine Within.setPe ?_ (by decide +kernel)
    | with_reducible refine Within.each (fun _ _ _ => ?_) ?_
    | with_reducible refine Within.ite ?_ ?_
    | split
    | dsimp only


/-- What `Chip.leave` may change. -/
def Chip.leave_fx : Fx := .union [Chip.leaveUp_fx, .of [.ports] []]
theorem Chip.leave_in {X : Fx} {b0 c : Chip} {p : Nat} (hW : Within X b0 c) (hX : Fx.le Chip.leave_fx X = true) : Within X b0 (Chip.leave c p) := by
  refine hW.trans (Within.mono hX ?_)
  unfold Chip.leave
  try dsimp only
  repeat' first
    | with_reducible assumption
    | with_reducible exact .refl _ _
    | with_reducible refine Chip.leaveUp_in ?_ (by decide +kernel)
    | with_reducible refine Within.setPort ?_ (by decide +kernel)
    | with_reducible refine Within.ite ?_ ?_
    | split
    | dsimp only


/-- What `Chip.toBreak` may change. -/
def Chip.toBreak_fx : Fx := .union [Chip.leave_fx, Chip.sealPort_fx, .of [.ports] []]
theorem Chip.toBreak_in {X : Fx} {b0 c : Chip} {p : Nat} {noFast : Bool} (hW : Within X b0 c) (hX : Fx.le Chip.toBreak_fx X = true) : Within X b0 (Chip.toBreak c p noFast) := by
  refine hW.trans (Within.mono hX ?_)
  unfold Chip.toBreak
  try dsimp only
  repeat' first
    | with_reducible assumption
    | with_reducible exact .refl _ _
    | with_reducible refine Chip.leave_in ?_ (by decide +kernel)
    | with_reducible refine Chip.sealPort_in ?_ (by decide +kernel)
    | with_reducible refine Within.setPort ?_ (by decide +kernel)
    | with_reducible refine Within.ite ?_ ?_
    | split
    | dsimp only


/-- What `Chip.linkDown` may change. -/
def Chip.linkDown_fx : Fx := .union [Chip.setCause_fx, Chip.toBreak_fx, .of [.ev] []]
theorem Chip.linkDown_in {X : Fx} {b0 c : Chip} {p : Nat} {cause : Nat} {noFast : Bool} (hW : Within X b0 c) (hX : Fx.le Chip.linkDown_fx X = true) : Within X b0 (Chip.linkDown c p cause noFast) := by
  refine hW.trans (Within.mono hX ?_)
  unfold Chip.linkDown
  try dsimp only
  repeat' first
    | with_reducible assumption
    | with_reducible exact .refl _ _
    | with_reducible refine Chip.setCause_in ?_ (by decide +kernel)
    | with_reducible refine Chip.toBreak_in ?_ (by decide +kernel)
    | with_reducible refine Within.raise ?_ (by decide +kernel)
    | with_reducible refine Within.ite ?_ ?_
    | split
    | dsimp only


/-- What `Chip.fastFail` may change. -/
def Chip.fastFail_fx : Fx := .union [Chip.failCause_fx, Chip.toBreak_fx, .of [] [.FAST_FAIL_COUNT]]
theorem Chip.fastFail_in {X : Fx} {b0 c : Chip} {p : Nat} {cause : Nat} (hW : Within X b0 c) (hX : Fx.le Chip.fastFail_fx X = true) : Within X b0 (Chip.fastFail c p cause) := by
  refine hW.trans (Within.mono hX ?_)
  unfold Chip.fastFail
  try dsimp only
  repeat' first
    | with_reducible assumption
    | with_reducible exact .refl _ _
    | with_reducible refine Chip.failCause_in ?_ (by decide +kernel)
    | with_reducible refine Chip.toBreak_in ?_ (by decide +kernel)
    | with_reducible refine Within.inc ?_ (by decide +kernel)
    | with_reducible refine Within.ite ?_ ?_
    | split
    | dsimp only


/-- What `Chip.fullFail` may change. -/
def Chip.fullFail_fx : Fx := .union [Chip.failCause_fx, Chip.leave_fx, Chip.setLink_fx, Chip.toBreak_fx, .of [.ev, .ports] [.DOWNSHIFT_CEILING, .TRAIN_FAIL_COUNT]]
theorem Chip.fullFail_in {X : Fx} {b0 c : Chip} {p : Nat} {cause : Nat} (hW : Within X b0 c) (hX : Fx.le Chip.fullFail_fx X = true) : Within X b0 (Chip.fullFail c p cause) := by
  refine hW.trans (Within.mono hX ?_)
  unfold Chip.fullFail
  try dsimp only
  repeat' first
    | with_reducible assumption
    | with_reducible exact .refl _ _
    | with_reducible refine Chip.failCause_in ?_ (by decide +kernel)
    | with_reducible refine Chip.leave_in ?_ (by decide +kernel)
    | with_reducible refine Chip.setLink_in ?_ (by decide +kernel)
    | with_reducible refine Chip.toBreak_in ?_ (by decide +kernel)
    | with_reducible refine Within.wr ?_ (by decide +kernel)
    | with_reducible refine Within.inc ?_ (by decide +kernel)
    | with_reducible refine Within.setPort ?_ (by decide +kernel)
    | with_reducible refine Within.raise ?_ (by decide +kernel)
    | with_reducible refine Within.ite ?_ ?_
    | split
    | dsimp only


/-- What `Chip.trainFail` may change. -/
def Chip.trainFail_fx : Fx := .union [Chip.fastFail_fx, Chip.fullFail_fx]
theorem Chip.trainFail_in {X : Fx} {b0 c : Chip} {p : Nat} {cause : Nat} (hW : Within X b0 c) (hX : Fx.le Chip.trainFail_fx X = true) : Within X b0 (Chip.trainFail c p cause) := by
  refine hW.trans (Within.mono hX ?_)
  unfold Chip.trainFail
  try dsimp only
  repeat' first
    | with_reducible assumption
    | with_reducible exact .refl _ _
    | with_reducible refine Chip.fastFail_in ?_ (by decide +kernel)
    | with_reducible refine Chip.fullFail_in ?_ (by decide +kernel)
    | with_reducible refine Within.ite ?_ ?_
    | split
    | dsimp only


/-- What `Chip.trainStart` may change. -/
def Chip.trainStart_fx : Fx := .union [Chip.ancVictimReset_fx, .of [.pes, .ports] [.PE_LANE_STATUS, .PE_TRAIN_PHASE, .PE_TRAIN_STATUS]]
theorem Chip.trainStart_in {X : Fx} {b0 c : Chip} {p : Nat} {fast : Bool} {lanes : List Nat} (hW : Within X b0 c) (hX : Fx.le Chip.trainStart_fx X = true) : Within X b0 (Chip.trainStart c p fast lanes) := by
  refine hW.trans (Within.mono hX ?_)
  unfold Chip.trainStart
  try dsimp only
  repeat' first
    | with_reducible assumption
    | with_reducible exact .refl _ _
    | with_reducible refine Chip.ancVictimReset_in ?_ (by decide +kernel)
    | with_reducible refine Within.wr ?_ (by decide +kernel)
    | with_reducible refine Within.setBit ?_ (by decide +kernel)
    | with_reducible refine Within.setPort ?_ (by decide +kernel)
    | with_reducible refine Within.setPe ?_ (by decide +kernel)
    | with_reducible refine Within.each (fun _ _ _ => ?_) ?_
    | with_reducible refine Within.ite ?_ ?_
    | split
    | dsimp only


/-- What `Chip.fullStart` may change. -/
def Chip.fullStart_fx : Fx := .union [Chip.leave_fx, Chip.trainStart_fx, .of [] [.TRAIN_COUNT]]
theorem Chip.fullStart_in {X : Fx} {b0 c : Chip} {p : Nat} (hW : Within X b0 c) (hX : Fx.le Chip.fullStart_fx X = true) : Within X b0 (Chip.fullStart c p) := by
  refine hW.trans (Within.mono hX ?_)
  unfold Chip.fullStart
  try dsimp only
  repeat' first
    | with_reducible assumption
    | with_reducible exact .refl _ _
    | with_reducible refine Chip.leave_in ?_ (by decide +kernel)
    | with_reducible refine Chip.trainStart_in ?_ (by decide +kernel)
    | with_reducible refine Within.inc ?_ (by decide +kernel)
    | with_reducible refine Within.ite ?_ ?_
    | split
    | dsimp only


/-- What `Chip.fastStart` may change. -/
def Chip.fastStart_fx : Fx := .union [Chip.fastFail_fx, Chip.leave_fx, Chip.retentionCheck_fx, Chip.trainStart_fx, .of [] [.FAST_COUNT, .TRAIN_CLASS, .TRAIN_SOURCE]]
theorem Chip.fastStart_in {X : Fx} {b0 c : Chip} {p : Nat} (hW : Within X b0 c) (hX : Fx.le Chip.fastStart_fx X = true) : Within X b0 (Chip.fastStart c p) := by
  refine hW.trans (Within.mono hX ?_)
  unfold Chip.fastStart
  try dsimp only
  repeat' first
    | with_reducible assumption
    | with_reducible exact .refl _ _
    | with_reducible refine Chip.fastFail_in ?_ (by decide +kernel)
    | with_reducible refine Chip.leave_in ?_ (by decide +kernel)
    | with_reducible refine Chip.retentionCheck_in ?_ (by decide +kernel)
    | with_reducible refine Chip.trainStart_in ?_ (by decide +kernel)
    | with_reducible refine Within.wr ?_ (by decide +kernel)
    | with_reducible refine Within.inc ?_ (by decide +kernel)
    | with_reducible refine Within.foldl (fun _ _ _ => ?_) ?_
    | with_reducible refine Within.foldl1 (fun _ _ _ => ?_) ?_
    | with_reducible refine Within.fold (fun _ _ _ => ?_) ?_
    | with_reducible refine Within.ite ?_ ?_
    | split
    | dsimp only


/-- What `Chip.stdStart` may change. -/
def Chip.stdStart_fx : Fx := .union [Chip.ancPortDrives_fx, Chip.ancVictimReset_fx, Chip.leave_fx, .of [.ports] [.TRAIN_COUNT, .TRAIN_SOURCE]]
theorem Chip.stdStart_in {X : Fx} {b0 c : Chip} {p : Nat} {m : LineMode} (hW : Within X b0 c) (hX : Fx.le Chip.stdStart_fx X = true) : Within X b0 (Chip.stdStart c p m) := by
  refine hW.trans (Within.mono hX ?_)
  unfold Chip.stdStart
  try dsimp only
  repeat' first
    | with_reducible assumption
    | with_reducible exact .refl _ _
    | with_reducible refine Chip.ancPortDrives_in ?_ (by decide +kernel)
    | with_reducible refine Chip.ancVictimReset_in ?_ (by decide +kernel)
    | with_reducible refine Chip.leave_in ?_ (by decide +kernel)
    | with_reducible refine Within.wr ?_ (by decide +kernel)
    | with_reducible refine Within.inc ?_ (by decide +kernel)
    | with_reducible refine Within.setPort ?_ (by decide +kernel)
    | with_reducible refine Within.each (fun _ _ _ => ?_) ?_
    | with_reducible refine Within.ite ?_ ?_
    | split
    | dsimp only


/-- What `Chip.trainNow` may change. -/
def Chip.trainNow_fx : Fx := .union [Chip.fastStart_fx, Chip.fullStart_fx, Chip.stdStart_fx]
theorem Chip.trainNow_in {X : Fx} {b0 c : Chip} {p : Nat} {m : LineMode} {fast : Bool} (hW : Within X b0 c) (hX : Fx.le Chip.trainNow_fx X = true) : Within X b0 (Chip.trainNow c p m fast) := by
  refine hW.trans (Within.mono hX ?_)
  unfold Chip.trainNow
  try dsimp only
  repeat' first
    | with_reducible assumption
    | with_reducible exact .refl _ _
    | with_reducible refine Chip.fastStart_in ?_ (by decide +kernel)
    | with_reducible refine Chip.fullStart_in ?_ (by decide +kernel)
    | with_reducible refine Chip.stdStart_in ?_ (by decide +kernel)
    | with_reducible refine Within.ite ?_ ?_
    | split
    | dsimp only


/-- What `Chip.begin_` may change. -/
def Chip.begin__fx : Fx := .union [Chip.needRaised_fx, Chip.trainNow_fx, .of [.ports] []]
theorem Chip.begin__in {X : Fx} {b0 c : Chip} {p : Nat} {m : LineMode} {fast : Bool} (hW : Within X b0 c) (hX : Fx.le Chip.begin__fx X = true) : Within X b0 (Chip.begin_ c p m fast) := by
  refine hW.trans (Within.mono hX ?_)
  unfold Chip.begin_
  try dsimp only
  repeat' first
    | with_reducible assumption
    | with_reducible exact .refl _ _
    | with_reducible refine Chip.needRaised_in ?_ (by decide +kernel)
    | with_reducible refine Chip.trainNow_in ?_ (by decide +kernel)
    | with_reducible refine Within.setPort ?_ (by decide +kernel)
    | with_reducible refine Within.ite ?_ ?_
    | split
    | dsimp only


/-- What `Chip.beginW` may change. -/
def Chip.beginW_fx : Fx := Chip.begin__fx
theorem Chip.beginW_in {X : Fx} {b0 c : Chip} {p : Nat} {m : LineMode} (hW : Within X b0 c) (hX : Fx.le Chip.beginW_fx X = true) : Within X b0 (Chip.beginW c p m) := by
  refine hW.trans (Within.mono hX ?_)
  unfold Chip.beginW
  try dsimp only
  repeat' first
    | with_reducible assumption
    | with_reducible exact .refl _ _
    | with_reducible refine Chip.begin__in ?_ (by decide +kernel)
    | with_reducible refine Within.ite ?_ ?_
    | split
    | dsimp only


/-- What `Chip.beginStd` may change. -/
def Chip.beginStd_fx : Fx := .union [Chip.begin__fx, Chip.needRaised_fx]
theorem Chip.beginStd_in {X : Fx} {b0 c : Chip} {p : Nat} {m : LineMode} (hW : Within X b0 c) (hX : Fx.le Chip.beginStd_fx X = true) : Within X b0 (Chip.beginStd c p m) := by
  refine hW.trans (Within.mono hX ?_)
  unfold Chip.beginStd
  try dsimp only
  repeat' first
    | with_reducible assumption
    | with_reducible exact .refl _ _
    | with_reducible refine Chip.begin__in ?_ (by decide +kernel)
    | with_reducible refine Chip.needRaised_in ?_ (by decide +kernel)
    | with_reducible refine Within.ite ?_ ?_
    | split
    | dsimp only


/-- What `Chip.negotiate` may change. -/
def Chip.negotiate_fx : Fx := .union [Chip.leave_fx, .of [.ports] [.AN_PARTNER_ABILITY, .AN_PARTNER_WA, .AN_STATUS]]
theorem Chip.negotiate_in {X : Fx} {b0 c : Chip} {p : Nat} (hW : Within X b0 c) (hX : Fx.le Chip.negotiate_fx X = true) : Within X b0 (Chip.negotiate c p) := by
  refine hW.trans (Within.mono hX ?_)
  unfold Chip.negotiate
  try dsimp only
  repeat' first
    | with_reducible assumption
    | with_reducible exact .refl _ _
    | with_reducible refine Chip.leave_in ?_ (by decide +kernel)
    | with_reducible refine Within.wr ?_ (by decide +kernel)
    | with_reducible refine Within.setPort ?_ (by decide +kernel)
    | with_reducible refine Within.ite ?_ ?_
    | split
    | dsimp only


/-- What `Chip.startLink` may change. -/
def Chip.startLink_fx : Fx := .union [Chip.beginStd_fx, Chip.beginW_fx, Chip.lpiPartner_fx, Chip.negotiate_fx]
theorem Chip.startLink_in {X : Fx} {b0 c : Chip} {p : Nat} (hW : Within X b0 c) (hX : Fx.le Chip.startLink_fx X = true) : Within X b0 (Chip.startLink c p) := by
  refine hW.trans (Within.mono hX ?_)
  unfold Chip.startLink
  try dsimp only
  repeat' first
    | with_reducible assumption
    | with_reducible exact .refl _ _
    | with_reducible refine Chip.beginStd_in ?_ (by decide +kernel)
    | with_reducible refine Chip.beginW_in ?_ (by decide +kernel)
    | with_reducible refine Chip.lpiPartner_in ?_ (by decide +kernel)
    | with_reducible refine Chip.negotiate_in ?_ (by decide +kernel)
    | with_reducible refine Within.ite ?_ ?_
    | split
    | dsimp only


/-- What `Chip.holdPort` may change. -/
def Chip.holdPort_fx : Fx := .union [Chip.leave_fx, Chip.linkDown_fx, Chip.sealPort_fx, Chip.setCause_fx, .of [.ev, .ports] []]
theorem Chip.holdPort_in {X : Fx} {b0 c : Chip} {p : Nat} (hW : Within X b0 c) (hX : Fx.le Chip.holdPort_fx X = true) : Within X b0 (Chip.holdPort c p) := by
  refine hW.trans (Within.mono hX ?_)
  unfold Chip.holdPort
  try dsimp only
  repeat' first
    | with_reducible assumption
    | with_reducible exact .refl _ _
    | with_reducible refine Chip.leave_in ?_ (by decide +kernel)
    | with_reducible refine Chip.linkDown_in ?_ (by decide +kernel)
    | with_reducible refine Chip.sealPort_in ?_ (by decide +kernel)
    | with_reducible refine Chip.setCause_in ?_ (by decide +kernel)
    | with_reducible refine Within.setPort ?_ (by decide +kernel)
    | with_reducible refine Within.raise ?_ (by decide +kernel)
    | with_reducible refine Within.ite ?_ ?_
    | split
    | dsimp only


/-- What `Chip.resumeLink` may change. -/
def Chip.resumeLink_fx : Fx := .union [Chip.begin__fx, Chip.startLink_fx]
theorem Chip.resumeLink_in {X : Fx} {b0 c : Chip} {p : Nat} (hW : Within X b0 c) (hX : Fx.le Chip.resumeLink_fx X = true) : Within X b0 (Chip.resumeLink c p) := by
  refine hW.trans (Within.mono hX ?_)
  unfold Chip.resumeLink
  try dsimp only
  repeat' first
    | with_reducible assumption
    | with_reducible exact .refl _ _
    | with_reducible refine Chip.begin__in ?_ (by decide +kernel)
    | with_reducible refine Chip.startLink_in ?_ (by decide +kernel)
    | with_reducible refine Within.ite ?_ ?_
    | split
    | dsimp only


/-- What `Chip.resolve` may change. -/
def Chip.resolve_fx : Fx := .union [Chip.beginStd_fx, Chip.beginW_fx, Chip.begin__fx, Chip.leave_fx, Chip.setCause_fx, Chip.setLink_fx, .of [] [.AN_PARTNER_ABILITY, .AN_STATUS, .MS_RESULT]]
theorem Chip.resolve_in {X : Fx} {b0 c : Chip} {p : Nat} {partner : Nat} {ms : Nat} (hW : Within X b0 c) (hX : Fx.le Chip.resolve_fx X = true) : Within X b0 (Chip.resolve c p partner ms) := by
  refine hW.trans (Within.mono hX ?_)
  unfold Chip.resolve
  try dsimp only
  repeat' first
    | with_reducible assumption
    | with_reducible exact .refl _ _
    | with_reducible refine Chip.beginStd_in ?_ (by decide +kernel)
    | with_reducible refine Chip.beginW_in ?_ (by decide +kernel)
    | with_reducible refine Chip.begin__in ?_ (by decide +kernel)
    | with_reducible refine Chip.leave_in ?_ (by decide +kernel)
    | with_reducible refine Chip.setCause_in ?_ (by decide +kernel)
    | with_reducible refine Chip.setLink_in ?_ (by decide +kernel)
    | with_reducible refine Within.wr ?_ (by decide +kernel)
    | with_reducible refine Within.setBit ?_ (by decide +kernel)
    | with_reducible refine Within.ite ?_ ?_
    | split
    | dsimp only


/-- What `Chip.enterUp` may change. -/
def Chip.enterUp_fx : Fx := .union [Chip.ancPortDrives_fx, Chip.fpStore_fx, Chip.lpiUp_fx, Chip.lqLinkUp_fx, Chip.phase_fx, Chip.resumeAll_fx, Chip.retain_fx, Chip.schedUp_fx, Chip.storeRecord_fx, .of [.ev, .ports] [.LINK_EPOCH, .TIME_LAST_UP, .TRAIN_TIME]]
theorem Chip.enterUp_in {X : Fx} {b0 c : Chip} {p : Nat} (hW : Within X b0 c) (hX : Fx.le Chip.enterUp_fx X = true) : Within X b0 (Chip.enterUp c p) := by
  refine hW.trans (Within.mono hX ?_)
  unfold Chip.enterUp
  try dsimp only
  repeat' first
    | with_reducible assumption
    | with_reducible exact .refl _ _
    | with_reducible refine Chip.ancPortDrives_in ?_ (by decide +kernel)
    | with_reducible refine Chip.fpStore_in ?_ (by decide +kernel)
    | with_reducible refine Chip.lpiUp_in ?_ (by decide +kernel)
    | with_reducible refine Chip.lqLinkUp_in ?_ (by decide +kernel)
    | with_reducible refine Chip.phase_in ?_ (by decide +kernel)
    | with_reducible refine Chip.resumeAll_in ?_ (by decide +kernel)
    | with_reducible refine Chip.retain_in ?_ (by decide +kernel)
    | with_reducible refine Chip.schedUp_in ?_ (by decide +kernel)
    | with_reducible refine Chip.storeRecord_in ?_ (by decide +kernel)
    | with_reducible refine Within.wr ?_ (by decide +kernel)
    | with_reducible refine Within.setPort ?_ (by decide +kernel)
    | with_reducible refine Within.raise ?_ (by decide +kernel)
    | with_reducible refine Within.each (fun _ _ _ => ?_) ?_
    | with_reducible refine Within.ite ?_ ?_
    | split
    | dsimp only


/-- What `Chip.toT2` may change. -/
def Chip.toT2_fx : Fx := .union [Chip.phase_fx, .of [.draws, .ports] []]
theorem Chip.toT2_in {X : Fx} {b0 c : Chip} {p : Nat} {keep : Nat} (hW : Within X b0 c) (hX : Fx.le Chip.toT2_fx X = true) : Within X b0 (Chip.toT2 c p keep) := by
  refine hW.trans (Within.mono hX ?_)
  unfold Chip.toT2
  try dsimp only
  repeat' first
    | with_reducible assumption
    | with_reducible exact .refl _ _
    | with_reducible refine Chip.phase_in ?_ (by decide +kernel)
    | with_reducible refine Within.setPort ?_ (by decide +kernel)
    | with_reducible refine Within.draw ?_ (by decide +kernel)
    | with_reducible refine Within.ite ?_ ?_
    | split
    | dsimp only


/-- What `Chip.dropPe` may change. -/
def Chip.dropPe_fx : Fx := .union [Chip.ancPeDown_fx, Chip.invalidate_fx, .of [.pes] [.PE_LANE_STATUS, .PE_PRECODER_ABANDONED]]
theorem Chip.dropPe_in {X : Fx} {b0 c : Chip} {e : Nat} (hW : Within X b0 c) (hX : Fx.le Chip.dropPe_fx X = true) : Within X b0 (Chip.dropPe c e) := by
  refine hW.trans (Within.mono hX ?_)
  unfold Chip.dropPe
  try dsimp only
  repeat' first
    | with_reducible assumption
    | with_reducible exact .refl _ _
    | with_reducible refine Chip.ancPeDown_in ?_ (by decide +kernel)
    | with_reducible refine Chip.invalidate_in ?_ (by decide +kernel)
    | with_reducible refine Within.add ?_ (by decide +kernel)
    | with_reducible refine Within.setBit ?_ (by decide +kernel)
    | with_reducible refine Within.setPe ?_ (by decide +kernel)
    | with_reducible refine Within.ite ?_ ?_
    | split
    | dsimp only


/-- What `Chip.setRxLanes` may change. -/
def Chip.setRxLanes_fx : Fx := .of [.ports] [.PE_RX_LANE]
theorem Chip.setRxLanes_in {X : Fx} {b0 c : Chip} {p : Nat} {l : List Nat} (hW : Within X b0 c) (hX : Fx.le Chip.setRxLanes_fx X = true) : Within X b0 (Chip.setRxLanes c p l) := by
  refine hW.trans (Within.mono hX ?_)
  unfold Chip.setRxLanes
  try dsimp only
  repeat' first
    | with_reducible assumption
    | with_reducible exact .refl _ _
    | with_reducible refine Within.wr ?_ (by decide +kernel)
    | with_reducible refine Within.setPort ?_ (by decide +kernel)
    | with_reducible refine Within.each (fun _ _ _ => ?_) ?_
    | with_reducible refine Within.ite ?_ ?_
    | split
    | dsimp only


/-- What `Chip.takeSegments` may change. -/
def Chip.takeSegments_fx : Fx := .of [.pes] []
theorem Chip.takeSegments_in {X : Fx} {b0 c : Chip} {e : Nat} (hW : Within X b0 c) (hX : Fx.le Chip.takeSegments_fx X = true) : Within X b0 (Chip.takeSegments c e) := by
  refine hW.trans (Within.mono hX ?_)
  unfold Chip.takeSegments
  try dsimp only
  repeat' first
    | with_reducible assumption
    | with_reducible exact .refl _ _
    | with_reducible refine Within.setPe ?_ (by decide +kernel)
    | with_reducible refine Within.each (fun _ _ _ => ?_) ?_
    | with_reducible refine Within.foldl (fun _ _ _ => ?_) ?_
    | with_reducible refine Within.foldl1 (fun _ _ _ => ?_) ?_
    | with_reducible refine Within.fold (fun _ _ _ => ?_) ?_
    | with_reducible refine Within.ite ?_ ?_
    | split
    | dsimp only


/-- What `Chip.toT3` may change. -/
def Chip.toT3_fx : Fx := .union [Chip.dropPe_fx, Chip.phase_fx, Chip.setRxLanes_fx, Chip.takeSegments_fx, Chip.trainFail_fx, .of [.pes, .ports] []]
theorem Chip.toT3_in {X : Fx} {b0 c : Chip} {p : Nat} (hW : Within X b0 c) (hX : Fx.le Chip.toT3_fx X = true) : Within X b0 (Chip.toT3 c p) := by
  refine hW.trans (Within.mono hX ?_)
  unfold Chip.toT3
  try dsimp only
  repeat' first
    | with_reducible assumption
    | with_reducible exact .refl _ _
    | with_reducible refine Chip.dropPe_in ?_ (by decide +kernel)
    | with_reducible refine Chip.phase_in ?_ (by decide +kernel)
    | with_reducible refine Chip.setRxLanes_in ?_ (by decide +kernel)
    | with_reducible refine Chip.takeSegments_in ?_ (by decide +kernel)
    | with_reducible refine Chip.trainFail_in ?_ (by decide +kernel)
    | with_reducible refine Within.setPort ?_ (by decide +kernel)
    | with_reducible refine Within.setPe ?_ (by decide +kernel)
    | with_reducible refine Within.each (fun _ _ _ => ?_) ?_
    | with_reducible refine Within.ite ?_ ?_
    | split
    | dsimp only


/-- What `Chip.tryT3` may change. -/
def Chip.tryT3_fx : Fx := .union [Chip.toT3_fx, .of [.ports] []]
theorem Chip.tryT3_in {X : Fx} {b0 c : Chip} {p : Nat} (hW : Within X b0 c) (hX : Fx.le Chip.tryT3_fx X = true) : Within X b0 (Chip.tryT3 c p) := by
  refine hW.trans (Within.mono hX ?_)
  unfold Chip.tryT3
  try dsimp only
  repeat' first
    | with_reducible assumption
    | with_reducible exact .refl _ _
    | with_reducible refine Chip.toT3_in ?_ (by decide +kernel)
    | with_reducible refine Within.setPort ?_ (by decide +kernel)
    | with_reducible refine Within.ite ?_ ?_
    | split
    | dsimp only


/-- What `Chip.takeCountdown` may change. -/
def Chip.takeCountdown_fx : Fx := .of [.pes, .ports] [.PE_LANE_STATUS]
theorem Chip.takeCountdown_in {X : Fx} {b0 c : Chip} {p : Nat} {n : Nat} (hW : Within X b0 c) (hX : Fx.le Chip.takeCountdown_fx X = true) : Within X b0 (Chip.takeCountdown c p n) := by
  refine hW.trans (Within.mono hX ?_)
  unfold Chip.takeCountdown
  try dsimp only
  repeat' first
    | with_reducible assumption
    | with_reducible exact .refl _ _
    | with_reducible refine Within.wr ?_ (by decide +kernel)
    | with_reducible refine Within.setPort ?_ (by decide +kernel)
    | with_reducible refine Within.setPe ?_ (by decide +kernel)
    | with_reducible refine Within.each (fun _ _ _ => ?_) ?_
    | with_reducible refine Within.ite ?_ ?_
    | split
    | dsimp only


/-- What `Chip.storeBase` may change. -/
def Chip.storeBase_fx : Fx := .of [.pes, .ports] [.PE_RX_LANE, .PE_RX_SCR_SEED]
theorem Chip.storeBase_in {X : Fx} {b0 c : Chip} {p : Nat} {e : Nat} {v : BitVec 160} (hW : Within X b0 c) (hX : Fx.le Chip.storeBase_fx X = true) : Within X b0 (Chip.storeBase c p e v) := by
  refine hW.trans (Within.mono hX ?_)
  unfold Chip.storeBase
  try dsimp only
  repeat' first
    | with_reducible assumption
    | with_reducible exact .refl _ _
    | with_reducible refine Within.wr ?_ (by decide +kernel)
    | with_reducible refine Within.setPort ?_ (by decide +kernel)
    | with_reducible refine Within.setPe ?_ (by decide +kernel)
    | with_reducible refine Within.ite ?_ ?_
    | split
    | dsimp only


/-- What `Chip.takeBase` may change. -/
def Chip.takeBase_fx : Fx := .union [Chip.fastFail_fx, Chip.storeBase_fx, Chip.trainFail_fx, Chip.tryT3_fx, .of [.draws, .ports] []]
theorem Chip.takeBase_in {X : Fx} {b0 c : Chip} {p : Nat} {e : Nat} {v : BitVec 160} (hW : Within X b0 c) (hX : Fx.le Chip.takeBase_fx X = true) : Within X b0 (Chip.takeBase c p e v) := by
  refine hW.trans (Within.mono hX ?_)
  unfold Chip.takeBase
  try dsimp only
  repeat' first
    | with_reducible assumption
    | with_reducible exact .refl _ _
    | with_reducible refine Chip.fastFail_in ?_ (by decide +kernel)
    | with_reducible refine Chip.storeBase_in ?_ (by decide +kernel)
    | with_reducible refine Chip.trainFail_in ?_ (by decide +kernel)
    | with_reducible refine Chip.tryT3_in ?_ (by decide +kernel)
    | with_reducible refine Within.setPort ?_ (by decide +kernel)
    | with_reducible refine Within.draw ?_ (by decide +kernel)
    | with_reducible refine Within.ite ?_ ?_
    | split
    | dsimp only


/-- What `Chip.requestDrop` may change. -/
def Chip.requestDrop_fx : Fx := .of [.ports] []
theorem Chip.requestDrop_in {X : Fx} {b0 c : Chip} {p : Nat} {keep : List Nat} {pick : Nat} (hW : Within X b0 c) (hX : Fx.le Chip.requestDrop_fx X = true) : Within X b0 (Chip.requestDrop c p keep pick) := by
  refine hW.trans (Within.mono hX ?_)
  unfold Chip.requestDrop
  try dsimp only
  repeat' first
    | with_reducible assumption
    | with_reducible exact .refl _ _
    | with_reducible refine Within.setPort ?_ (by decide +kernel)
    | with_reducible refine Within.ite ?_ ?_
    | split
    | dsimp only


/-- What `Chip.goDown` may change. -/
def Chip.goDown_fx : Fx := .union [Chip.linkDown_fx, Chip.trainFail_fx]
theorem Chip.goDown_in {X : Fx} {b0 c : Chip} {p : Nat} {cause : Nat} (hW : Within X b0 c) (hX : Fx.le Chip.goDown_fx X = true) : Within X b0 (Chip.goDown c p cause) := by
  refine hW.trans (Within.mono hX ?_)
  unfold Chip.goDown
  try dsimp only
  repeat' first
    | with_reducible assumption
    | with_reducible exact .refl _ _
    | with_reducible refine Chip.linkDown_in ?_ (by decide +kernel)
    | with_reducible refine Chip.trainFail_in ?_ (by decide +kernel)
    | with_reducible refine Within.ite ?_ ?_
    | split
    | dsimp only


/-- What `Chip.lanesFail` may change. -/
def Chip.lanesFail_fx : Fx := .union [Chip.goDown_fx, Chip.requestDrop_fx]
theorem Chip.lanesFail_in {X : Fx} {b0 c : Chip} {p : Nat} {bad : List Nat} {cause : Nat} {pick : Nat} (hW : Within X b0 c) (hX : Fx.le Chip.lanesFail_fx X = true) : Within X b0 (Chip.lanesFail c p bad cause pick) := by
  refine hW.trans (Within.mono hX ?_)
  unfold Chip.lanesFail
  try dsimp only
  repeat' first
    | with_reducible assumption
    | with_reducible exact .refl _ _
    | with_reducible refine Chip.goDown_in ?_ (by decide +kernel)
    | with_reducible refine Chip.requestDrop_in ?_ (by decide +kernel)
    | with_reducible refine Within.ite ?_ ?_
    | split
    | dsimp only


/-- What `Chip.switchLanes` may change. -/
def Chip.switchLanes_fx : Fx := .union [Chip.dropPe_fx, .of [.ev, .ports] []]
theorem Chip.switchLanes_in {X : Fx} {b0 c : Chip} {p : Nat} {keep : List Nat} (hW : Within X b0 c) (hX : Fx.le Chip.switchLanes_fx X = true) : Within X b0 (Chip.switchLanes c p keep) := by
  refine hW.trans (Within.mono hX ?_)
  unfold Chip.switchLanes
  try dsimp only
  repeat' first
    | with_reducible assumption
    | with_reducible exact .refl _ _
    | with_reducible refine Chip.dropPe_in ?_ (by decide +kernel)
    | with_reducible refine Within.setPort ?_ (by decide +kernel)
    | with_reducible refine Within.raise ?_ (by decide +kernel)
    | with_reducible refine Within.each (fun _ _ _ => ?_) ?_
    | with_reducible refine Within.foldl (fun _ _ _ => ?_) ?_
    | with_reducible refine Within.foldl1 (fun _ _ _ => ?_) ?_
    | with_reducible refine Within.fold (fun _ _ _ => ?_) ?_
    | with_reducible refine Within.ite ?_ ?_
    | split
    | dsimp only


/-- What `Chip.softRestart` may change. -/
def Chip.softRestart_fx : Fx := .union [Chip.linkDown_fx, Chip.setCause_fx, Chip.startLink_fx, Chip.toBreak_fx, .of [.ports] []]
theorem Chip.softRestart_in {X : Fx} {b0 c : Chip} {p : Nat} (hW : Within X b0 c) (hX : Fx.le Chip.softRestart_fx X = true) : Within X b0 (Chip.softRestart c p) := by
  refine hW.trans (Within.mono hX ?_)
  unfold Chip.softRestart
  try dsimp only
  repeat' first
    | with_reducible assumption
    | with_reducible exact .refl _ _
    | with_reducible refine Chip.linkDown_in ?_ (by decide +kernel)
    | with_reducible refine Chip.setCause_in ?_ (by decide +kernel)
    | with_reducible refine Chip.startLink_in ?_ (by decide +kernel)
    | with_reducible refine Chip.toBreak_in ?_ (by decide +kernel)
    | with_reducible refine Within.setPort ?_ (by decide +kernel)
    | with_reducible refine Within.ite ?_ ?_
    | split
    | dsimp only


/-- What `Chip.ceilingReset` may change. -/
def Chip.ceilingReset_fx : Fx := .of [] [.DOWNSHIFT_CEILING]
theorem Chip.ceilingReset_in {X : Fx} {b0 c : Chip} {p : Nat} (hW : Within X b0 c) (hX : Fx.le Chip.ceilingReset_fx X = true) : Within X b0 (Chip.ceilingReset c p) := by
  refine hW.trans (Within.mono hX ?_)
  unfold Chip.ceilingReset
  try dsimp only
  repeat' first
    | with_reducible assumption
    | with_reducible exact .refl _ _
    | with_reducible refine Within.wr ?_ (by decide +kernel)
    | with_reducible refine Within.ite ?_ ?_
    | split
    | dsimp only


/-- What `Chip.invalidatePort` may change. -/
def Chip.invalidatePort_fx : Fx := Chip.invalidate_fx
theorem Chip.invalidatePort_in {X : Fx} {b0 c : Chip} {p : Nat} (hW : Within X b0 c) (hX : Fx.le Chip.invalidatePort_fx X = true) : Within X b0 (Chip.invalidatePort c p) := by
  refine hW.trans (Within.mono hX ?_)
  unfold Chip.invalidatePort
  try dsimp only
  repeat' first
    | with_reducible assumption
    | with_reducible exact .refl _ _
    | with_reducible refine Chip.invalidate_in ?_ (by decide +kernel)
    | with_reducible refine Within.each (fun _ _ _ => ?_) ?_
    | with_reducible refine Within.ite ?_ ?_
    | split
    | dsimp only


/-- What `Chip.applyPortMode` may change. -/
def Chip.applyPortMode_fx : Fx := .union [Chip.ceilingReset_fx, Chip.invalidatePort_fx, Chip.softRestart_fx, .of [] [.PORT_MODE]]
theorem Chip.applyPortMode_in {X : Fx} {b0 c : Chip} {p : Nat} {v : Nat} (hW : Within X b0 c) (hX : Fx.le Chip.applyPortMode_fx X = true) : Within X b0 (Chip.applyPortMode c p v) := by
  refine hW.trans (Within.mono hX ?_)
  unfold Chip.applyPortMode
  try dsimp only
  repeat' first
    | with_reducible assumption
    | with_reducible exact .refl _ _
    | with_reducible refine Chip.ceilingReset_in ?_ (by decide +kernel)
    | with_reducible refine Chip.invalidatePort_in ?_ (by decide +kernel)
    | with_reducible refine Chip.softRestart_in ?_ (by decide +kernel)
    | with_reducible refine Within.wr ?_ (by decide +kernel)
    | with_reducible refine Within.ite ?_ ?_
    | split
    | dsimp only


/-- What `Chip.writePortMode` may change. -/
def Chip.writePortMode_fx : Fx := Chip.applyPortMode_fx
theorem Chip.writePortMode_in {X : Fx} {b0 c : Chip} {p : Nat} {v : Nat} (hW : Within X b0 c) (hX : Fx.le Chip.writePortMode_fx X = true) : Within X b0 (Chip.writePortMode c p v).2 := by
  refine hW.trans (Within.mono hX ?_)
  unfold Chip.writePortMode
  try dsimp only
  repeat' first
    | with_reducible assumption
    | with_reducible exact .refl _ _
    | with_reducible refine Chip.applyPortMode_in ?_ (by decide +kernel)
    | with_reducible refine Within.ite ?_ ?_
    | split
    | dsimp only


/-- What `Chip.applyPortAbility` may change. -/
def Chip.applyPortAbility_fx : Fx := .union [Chip.ceilingReset_fx, Chip.softRestart_fx, Chip.undersizedEval_fx, .of [] [.PORT_ABILITY]]
theorem Chip.applyPortAbility_in {X : Fx} {b0 c : Chip} {p : Nat} {v : Nat} (hW : Within X b0 c) (hX : Fx.le Chip.applyPortAbility_fx X = true) : Within X b0 (Chip.applyPortAbility c p v) := by
  refine hW.trans (Within.mono hX ?_)
  unfold Chip.applyPortAbility
  try dsimp only
  repeat' first
    | with_reducible assumption
    | with_reducible exact .refl _ _
    | with_reducible refine Chip.ceilingReset_in ?_ (by decide +kernel)
    | with_reducible refine Chip.softRestart_in ?_ (by decide +kernel)
    | with_reducible refine Chip.undersizedEval_in ?_ (by decide +kernel)
    | with_reducible refine Within.wr ?_ (by decide +kernel)
    | with_reducible refine Within.ite ?_ ?_
    | split
    | dsimp only


/-- What `Chip.startEnabled` may change. -/
def Chip.startEnabled_fx : Fx := .union [Chip.sealPort_fx, Chip.setCause_fx, Chip.startLink_fx, .of [.ports] []]
theorem Chip.startEnabled_in {X : Fx} {b0 c : Chip} {p : Nat} (hW : Within X b0 c) (hX : Fx.le Chip.startEnabled_fx X = true) : Within X b0 (Chip.startEnabled c p) := by
  refine hW.trans (Within.mono hX ?_)
  unfold Chip.startEnabled
  try dsimp only
  repeat' first
    | with_reducible assumption
    | with_reducible exact .refl _ _
    | with_reducible refine Chip.sealPort_in ?_ (by decide +kernel)
    | with_reducible refine Chip.setCause_in ?_ (by decide +kernel)
    | with_reducible refine Chip.startLink_in ?_ (by decide +kernel)
    | with_reducible refine Within.setPort ?_ (by decide +kernel)
    | with_reducible refine Within.ite ?_ ?_
    | split
    | dsimp only


/-- What `Chip.applyPortEnable` may change. -/
def Chip.applyPortEnable_fx : Fx := .union [Chip.ceilingReset_fx, Chip.leave_fx, Chip.mapReturn_fx, Chip.setLink_fx, Chip.startEnabled_fx, Chip.tdrAbort_fx, .of [] [.PORT_ENABLE]]
theorem Chip.applyPortEnable_in {X : Fx} {b0 c : Chip} {p : Nat} {v : Bool} (hW : Within X b0 c) (hX : Fx.le Chip.applyPortEnable_fx X = true) : Within X b0 (Chip.applyPortEnable c p v) := by
  refine hW.trans (Within.mono hX ?_)
  unfold Chip.applyPortEnable
  try dsimp only
  repeat' first
    | with_reducible assumption
    | with_reducible exact .refl _ _
    | with_reducible refine Chip.ceilingReset_in ?_ (by decide +kernel)
    | with_reducible refine Chip.leave_in ?_ (by decide +kernel)
    | with_reducible refine Chip.mapReturn_in ?_ (by decide +kernel)
    | with_reducible refine Chip.setLink_in ?_ (by decide +kernel)
    | with_reducible refine Chip.startEnabled_in ?_ (by decide +kernel)
    | with_reducible refine Chip.tdrAbort_in ?_ (by decide +kernel)
    | with_reducible refine Within.wrBool ?_ (by decide +kernel)
    | with_reducible refine Within.ite ?_ ?_
    | split
    | dsimp only


/-- What `Chip.writePortEnable` may change. -/
def Chip.writePortEnable_fx : Fx := Chip.applyPortEnable_fx
theorem Chip.writePortEnable_in {X : Fx} {b0 c : Chip} {p : Nat} {v : Nat} (hW : Within X b0 c) (hX : Fx.le Chip.writePortEnable_fx X = true) : Within X b0 (Chip.writePortEnable c p v).2 := by
  refine hW.trans (Within.mono hX ?_)
  unfold Chip.writePortEnable
  try dsimp only
  repeat' first
    | with_reducible assumption
    | with_reducible exact .refl _ _
    | with_reducible refine Chip.applyPortEnable_in ?_ (by decide +kernel)
    | with_reducible refine Within.ite ?_ ?_
    | split
    | dsimp only


/-- What `Chip.applyFormation` may change. -/
def Chip.applyFormation_fx : Fx := .union [Chip.ancFormation_fx, Chip.hostMapReset_fx, Chip.invalidate_fx, .of [.pes, .ports] [.HL_ENTRIES, .HL_MAP, .QUAD_FORMATION]]
theorem Chip.applyFormation_in {X : Fx} {b0 c : Chip} {q : Nat} {v : Nat} (hW : Within X b0 c) (hX : Fx.le Chip.applyFormation_fx X = true) : Within X b0 (Chip.applyFormation c q v) := by
  refine hW.trans (Within.mono hX ?_)
  unfold Chip.applyFormation
  try dsimp only
  repeat' first
    | with_reducible assumption
    | with_reducible exact .refl _ _
    | with_reducible refine Chip.ancFormation_in ?_ (by decide +kernel)
    | with_reducible refine Chip.hostMapReset_in ?_ (by decide +kernel)
    | with_reducible refine Chip.invalidate_in ?_ (by decide +kernel)
    | with_reducible refine Within.wr ?_ (by decide +kernel)
    | with_reducible refine Within.clr ?_ (by decide +kernel)
    | with_reducible refine Within.setPort ?_ (by decide +kernel)
    | with_reducible refine Within.setPe ?_ (by decide +kernel)
    | with_reducible refine Within.each (fun _ _ _ => ?_) ?_
    | with_reducible refine Within.ite ?_ ?_
    | split
    | dsimp only


/-- What `Chip.writeFormation` may change. -/
def Chip.writeFormation_fx : Fx := Chip.applyFormation_fx
theorem Chip.writeFormation_in {X : Fx} {b0 c : Chip} {q : Nat} {v : Nat} (hW : Within X b0 c) (hX : Fx.le Chip.writeFormation_fx X = true) : Within X b0 (Chip.writeFormation c q v).2 := by
  refine hW.trans (Within.mono hX ?_)
  unfold Chip.writeFormation
  try dsimp only
  repeat' first
    | with_reducible assumption
    | with_reducible exact .refl _ _
    | with_reducible refine Chip.applyFormation_in ?_ (by decide +kernel)
    | with_reducible refine Within.ite ?_ ?_
    | split
    | dsimp only


/-- What `Chip.writeTrainRestart` may change. -/
def Chip.writeTrainRestart_fx : Fx := .union [Chip.begin__fx, Chip.ceilingReset_fx, Chip.invalidatePort_fx, Chip.linkDown_fx, Chip.sealPort_fx, Chip.setCause_fx, Chip.softRestart_fx, .of [.ev] []]
theorem Chip.writeTrainRestart_in {X : Fx} {b0 c : Chip} {p : Nat} {v : Nat} (hW : Within X b0 c) (hX : Fx.le Chip.writeTrainRestart_fx X = true) : Within X b0 (Chip.writeTrainRestart c p v).2 := by
  refine hW.trans (Within.mono hX ?_)
  unfold Chip.writeTrainRestart
  try dsimp only
  repeat' first
    | with_reducible assumption
    | with_reducible exact .refl _ _
    | with_reducible refine Chip.begin__in ?_ (by decide +kernel)
    | with_reducible refine Chip.ceilingReset_in ?_ (by decide +kernel)
    | with_reducible refine Chip.invalidatePort_in ?_ (by decide +kernel)
    | with_reducible refine Chip.linkDown_in ?_ (by decide +kernel)
    | with_reducible refine Chip.sealPort_in ?_ (by decide +kernel)
    | with_reducible refine Chip.setCause_in ?_ (by decide +kernel)
    | with_reducible refine Chip.softRestart_in ?_ (by decide +kernel)
    | with_reducible refine Within.raise ?_ (by decide +kernel)
    | with_reducible refine Within.ite ?_ ?_
    | split
    | dsimp only


end Sys2Proof.Machine
end

