-- ==== Sys2Proof/Laws/FrameLanes.lean ====
section
/-!
SUPPORT. Frames of the operations of `Machine/Lanes.lean`: which parts and objects each may change.
-/
set_option Elab.async false
namespace Sys2Proof.Machine

/-- What `Chip.mgmtTake` may change. -/
def Chip.mgmtTake_fx : Fx := .of [.pes] [.MGMT_DISCARD]
theorem Chip.mgmtTake_in {X : Fx} {b0 c : Chip} {e : Nat} {seq : Nat} {w : BitVec 16} {ok : Bool} (hW : Within X b0 c) (hX : Fx.le Chip.mgmtTake_fx X = true) : Within X b0 (Chip.mgmtTake c e seq w ok) := by
  refine hW.trans (Within.mono hX ?_)
  unfold Chip.mgmtTake
  try dsimp only
  repeat' first
    | with_reducible assumption
    | with_reducible exact .refl _ _
    | with_reducible refine Within.inc ?_ (by decide +kernel)
    | with_reducible refine Within.setPe ?_ (by decide +kernel)
    | with_reducible refine Within.ite ?_ ?_
    | split
    | dsimp only


/-- What `Chip.alignTake` may change. -/
def Chip.alignTake_fx : Fx := .of [.pes] [.PE_LANE_STATUS, .REALIGN_COUNT]
theorem Chip.alignTake_in {X : Fx} {b0 c : Chip} {e : Nat} {rx : Nat} (hW : Within X b0 c) (hX : Fx.le Chip.alignTake_fx X = true) : Within X b0 (Chip.alignTake c e rx) := by
  refine hW.trans (Within.mono hX ?_)
  unfold Chip.alignTake
  try dsimp only
  repeat' first
    | with_reducible assumption
    | with_reducible exact .refl _ _
    | with_reducible refine Within.inc ?_ (by decide +kernel)
    | with_reducible refine Within.setBit ?_ (by decide +kernel)
    | with_reducible refine Within.setPe ?_ (by decide +kernel)
    | with_reducible refine Within.ite ?_ ?_
    | split
    | dsimp only


/-- What `Chip.lanesJudge` may change. -/
def Chip.lanesJudge_fx : Fx := .union [Chip.failCause_fx, Chip.lanesFail_fx, Chip.lpiWakeNow_fx, Chip.setLpi_fx]
theorem Chip.lanesJudge_in {X : Fx} {b0 c : Chip} {e : Nat} {cause : Nat} {pick : Nat} (hW : Within X b0 c) (hX : Fx.le Chip.lanesJudge_fx X = true) : Within X b0 (Chip.lanesJudge c e cause pick) := by
  refine hW.trans (Within.mono hX ?_)
  unfold Chip.lanesJudge
  try dsimp only
  repeat' first
    | with_reducible assumption
    | with_reducible exact .refl _ _
    | with_reducible refine Chip.failCause_in ?_ (by decide +kernel)
    | with_reducible refine Chip.lanesFail_in ?_ (by decide +kernel)
    | with_reducible refine Chip.lpiWakeNow_in ?_ (by decide +kernel)
    | with_reducible refine Chip.setLpi_in ?_ (by decide +kernel)
    | with_reducible refine Within.ite ?_ ?_
    | split
    | dsimp only


/-- What `Chip.switchTx` may change. -/
def Chip.switchTx_fx : Fx := .union [Chip.gridStart_fx, Chip.lpiReplan_fx, Chip.redeal_fx, Chip.switchLanes_fx, .of [.pes] []]
theorem Chip.switchTx_in {X : Fx} {b0 c : Chip} {p : Nat} {keep : List Nat} {cw : Nat} (hW : Within X b0 c) (hX : Fx.le Chip.switchTx_fx X = true) : Within X b0 (Chip.switchTx c p keep cw) := by
  refine hW.trans (Within.mono hX ?_)
  unfold Chip.switchTx
  try dsimp only
  repeat' first
    | with_reducible assumption
    | with_reducible exact .refl _ _
    | with_reducible refine Chip.gridStart_in ?_ (by decide +kernel)
    | with_reducible refine Chip.lpiReplan_in ?_ (by decide +kernel)
    | with_reducible refine Chip.redeal_in ?_ (by decide +kernel)
    | with_reducible refine Chip.switchLanes_in ?_ (by decide +kernel)
    | with_reducible refine Within.setPe ?_ (by decide +kernel)
    | with_reducible refine Within.each (fun _ _ _ => ?_) ?_
    | with_reducible refine Within.ite ?_ ?_
    | split
    | dsimp only


/-- What `Chip.startUpdate` may change. -/
def Chip.startUpdate_fx : Fx := .of [.pes] []
theorem Chip.startUpdate_in {X : Fx} {b0 c : Chip} {e : Nat} {k : Nat} {taps : List Nat} {pick : Nat} (hW : Within X b0 c) (hX : Fx.le Chip.startUpdate_fx X = true) : Within X b0 (Chip.startUpdate c e k taps pick) := by
  refine hW.trans (Within.mono hX ?_)
  unfold Chip.startUpdate
  try dsimp only
  repeat' first
    | with_reducible assumption
    | with_reducible exact .refl _ _
    | with_reducible refine Within.setPe ?_ (by decide +kernel)
    | with_reducible refine Within.ite ?_ ?_
    | split
    | dsimp only


/-- What `Chip.preApply` may change. -/
def Chip.preApply_fx : Fx := .of [.pes] [.PE_PRECODER_ABANDONED, .PE_PRECODER_APPLIED]
theorem Chip.preApply_in {X : Fx} {b0 c : Chip} {e : Nat} {u : PreIn} {m : LineMode} (hW : Within X b0 c) (hX : Fx.le Chip.preApply_fx X = true) : Within X b0 (Chip.preApply c e u m) := by
  refine hW.trans (Within.mono hX ?_)
  unfold Chip.preApply
  try dsimp only
  repeat' first
    | with_reducible assumption
    | with_reducible exact .refl _ _
    | with_reducible refine Within.inc ?_ (by decide +kernel)
    | with_reducible refine Within.setPe ?_ (by decide +kernel)
    | with_reducible refine Within.foldl (fun _ _ _ => ?_) ?_
    | with_reducible refine Within.foldl1 (fun _ _ _ => ?_) ?_
    | with_reducible refine Within.fold (fun _ _ _ => ?_) ?_
    | with_reducible refine Within.ite ?_ ?_
    | split
    | dsimp only


/-- What `Chip.preAdjust` may change. -/
def Chip.preAdjust_fx : Fx := .union [Chip.startUpdate_fx, .of [.draws, .pes] [.PE_PRECODER_ABANDONED]]
theorem Chip.preAdjust_in {X : Fx} {b0 c : Chip} {e : Nat} {u : PreOut} {m : LineMode} (hW : Within X b0 c) (hX : Fx.le Chip.preAdjust_fx X = true) : Within X b0 (Chip.preAdjust c e u m) := by
  refine hW.trans (Within.mono hX ?_)
  unfold Chip.preAdjust
  try dsimp only
  repeat' first
    | with_reducible assumption
    | with_reducible exact .refl _ _
    | with_reducible refine Chip.startUpdate_in ?_ (by decide +kernel)
    | with_reducible refine Within.inc ?_ (by decide +kernel)
    | with_reducible refine Within.setPe ?_ (by decide +kernel)
    | with_reducible refine Within.draw ?_ (by decide +kernel)
    | with_reducible refine Within.ite ?_ ?_
    | split
    | dsimp only


/-- What `Chip.writeFreeze` may change. -/
def Chip.writeFreeze_fx : Fx := .of [.pes] [.PE_COEF_FREEZE]
theorem Chip.writeFreeze_in {X : Fx} {b0 c : Chip} {e : Nat} {v : Nat} (hW : Within X b0 c) (hX : Fx.le Chip.writeFreeze_fx X = true) : Within X b0 (Chip.writeFreeze c e v).2 := by
  refine hW.trans (Within.mono hX ?_)
  unfold Chip.writeFreeze
  try dsimp only
  repeat' first
    | with_reducible assumption
    | with_reducible exact .refl _ _
    | with_reducible refine Within.wr ?_ (by decide +kernel)
    | with_reducible refine Within.setPe ?_ (by decide +kernel)
    | with_reducible refine Within.ite ?_ ?_
    | split
    | dsimp only


/-- What `Chip.writeCapture` may change. -/
def Chip.writeCapture_fx : Fx := .of [.pes] []
theorem Chip.writeCapture_in {X : Fx} {b0 c : Chip} {e : Nat} {v : Nat} (hW : Within X b0 c) (hX : Fx.le Chip.writeCapture_fx X = true) : Within X b0 (Chip.writeCapture c e v).2 := by
  refine hW.trans (Within.mono hX ?_)
  unfold Chip.writeCapture
  try dsimp only
  repeat' first
    | with_reducible assumption
    | with_reducible exact .refl _ _
    | with_reducible refine Within.setPe ?_ (by decide +kernel)
    | with_reducible refine Within.ite ?_ ?_
    | split
    | dsimp only


end Sys2Proof.Machine
end

