-- ==== Sys2Proof/Laws/FrameLinkEvents.lean ====
section
/-!
SUPPORT. Frames of the operations of `Machine/LinkEvents.lean`: which parts and objects each may change.
-/
set_option Elab.async false
namespace Sys2Proof.Machine

/-- What `Chip.enterT1` may change. -/
def Chip.enterT1_fx : Fx := .union [Chip.ancPortDrives_fx, Chip.phase_fx, Chip.resumeAll_fx, .of [.ports] []]
theorem Chip.enterT1_in {X : Fx} {b0 c : Chip} {p : Nat} (hW : Within X b0 c) (hX : Fx.le Chip.enterT1_fx X = true) : Within X b0 (Chip.enterT1 c p) := by
  refine hW.trans (Within.mono hX ?_)
  unfold Chip.enterT1
  try dsimp only
  repeat' first
    | with_reducible assumption
    | with_reducible exact .refl _ _
    | with_reducible refine Chip.ancPortDrives_in ?_ (by decide +kernel)
    | with_reducible refine Chip.phase_in ?_ (by decide +kernel)
    | with_reducible refine Chip.resumeAll_in ?_ (by decide +kernel)
    | with_reducible refine Within.setPort ?_ (by decide +kernel)
    | with_reducible refine Within.ite ?_ ?_
    | split
    | dsimp only


/-- What `Chip.markPairs` may change. -/
def Chip.markPairs_fx : Fx := .of [] [.PE_TRAIN_STATUS]
theorem Chip.markPairs_in {X : Fx} {b0 c : Chip} {p : Nat} {b : Nat} {map : Nat} (hW : Within X b0 c) (hX : Fx.le Chip.markPairs_fx X = true) : Within X b0 (Chip.markPairs c p b map) := by
  refine hW.trans (Within.mono hX ?_)
  unfold Chip.markPairs
  try dsimp only
  repeat' first
    | with_reducible assumption
    | with_reducible exact .refl _ _
    | with_reducible refine Within.setBit ?_ (by decide +kernel)
    | with_reducible refine Within.each (fun _ _ _ => ?_) ?_
    | with_reducible refine Within.ite ?_ ?_
    | split
    | dsimp only


/-- What `Chip.t1Done` may change. -/
def Chip.t1Done_fx : Fx := .union [Chip.markPairs_fx, .of [.pes] [.PE_FREQ_OFFSET]]
theorem Chip.t1Done_in {X : Fx} {b0 c : Chip} {p : Nat} {mask : Nat} {meas : List T1Meas} (hW : Within X b0 c) (hX : Fx.le Chip.t1Done_fx X = true) : Within X b0 (Chip.t1Done c p mask meas) := by
  refine hW.trans (Within.mono hX ?_)
  unfold Chip.t1Done
  try dsimp only
  repeat' first
    | with_reducible assumption
    | with_reducible exact .refl _ _
    | with_reducible refine Chip.markPairs_in ?_ (by decide +kernel)
    | with_reducible refine Within.wrInt ?_ (by decide +kernel)
    | with_reducible refine Within.setPe ?_ (by decide +kernel)
    | with_reducible refine Within.each (fun _ _ _ => ?_) ?_
    | with_reducible refine Within.ite ?_ ?_
    | split
    | dsimp only


/-- What `Chip.baseIn` may change. -/
def Chip.baseIn_fx : Fx := .union [Chip.takeBase_fx, Chip.takeCountdown_fx]
theorem Chip.baseIn_in {X : Fx} {b0 c : Chip} {p : Nat} {e : Nat} {v : BitVec 160} (hW : Within X b0 c) (hX : Fx.le Chip.baseIn_fx X = true) : Within X b0 (Chip.baseIn c p e v) := by
  refine hW.trans (Within.mono hX ?_)
  unfold Chip.baseIn
  try dsimp only
  repeat' first
    | with_reducible assumption
    | with_reducible exact .refl _ _
    | with_reducible refine Chip.takeBase_in ?_ (by decide +kernel)
    | with_reducible refine Chip.takeCountdown_in ?_ (by decide +kernel)
    | with_reducible refine Within.ite ?_ ?_
    | split
    | dsimp only


end Sys2Proof.Machine
end

