-- ==== Sys2Proof/Laws/FrameLpiEvents.lean ====
section
/-!
SUPPORT. Frames of the operations of `Machine/LpiEvents.lean`: which parts and objects each may change.
-/
set_option Elab.async false
namespace Sys2Proof.Machine

/-- What `Chip.abandonUpdates` may change. -/
def Chip.abandonUpdates_fx : Fx := .of [.pes] [.PE_PRECODER_ABANDONED]
theorem Chip.abandonUpdates_in {X : Fx} {b0 c : Chip} {p : Nat} (hW : Within X b0 c) (hX : Fx.le Chip.abandonUpdates_fx X = true) : Within X b0 (Chip.abandonUpdates c p) := by
  refine hW.trans (Within.mono hX ?_)
  unfold Chip.abandonUpdates
  try dsimp only
  repeat' first
    | with_reducible assumption
    | with_reducible exact .refl _ _
    | with_reducible refine Within.add ?_ (by decide +kernel)
    | with_reducible refine Within.setPe ?_ (by decide +kernel)
    | with_reducible refine Within.each (fun _ _ _ => ?_) ?_
    | with_reducible refine Within.ite ?_ ?_
    | split
    | dsimp only


/-- What `Chip.lpiGoQuiet` may change. -/
def Chip.lpiGoQuiet_fx : Fx := .union [Chip.ancStops_fx, Chip.lpiEnter_fx]
theorem Chip.lpiGoQuiet_in {X : Fx} {b0 c : Chip} {p : Nat} (hW : Within X b0 c) (hX : Fx.le Chip.lpiGoQuiet_fx X = true) : Within X b0 (Chip.lpiGoQuiet c p) := by
  refine hW.trans (Within.mono hX ?_)
  unfold Chip.lpiGoQuiet
  try dsimp only
  repeat' first
    | with_reducible assumption
    | with_reducible exact .refl _ _
    | with_reducible refine Chip.ancStops_in ?_ (by decide +kernel)
    | with_reducible refine Chip.lpiEnter_in ?_ (by decide +kernel)
    | with_reducible refine Within.each (fun _ _ _ => ?_) ?_
    | with_reducible refine Within.ite ?_ ?_
    | split
    | dsimp only


/-- What `Chip.resumeRx` may change. -/
def Chip.resumeRx_fx : Fx := .of [.pes] []
theorem Chip.resumeRx_in {X : Fx} {b0 c : Chip} {p : Nat} (hW : Within X b0 c) (hX : Fx.le Chip.resumeRx_fx X = true) : Within X b0 (Chip.resumeRx c p) := by
  refine hW.trans (Within.mono hX ?_)
  unfold Chip.resumeRx
  try dsimp only
  repeat' first
    | with_reducible assumption
    | with_reducible exact .refl _ _
    | with_reducible refine Within.setPe ?_ (by decide +kernel)
    | with_reducible refine Within.each (fun _ _ _ => ?_) ?_
    | with_reducible refine Within.ite ?_ ?_
    | split
    | dsimp only


/-- What `Chip.writeLpiEnable` may change. -/
def Chip.writeLpiEnable_fx : Fx := .union [Chip.lpiReplan_fx, Chip.lpiWakeNow_fx, .of [] [.LPI_ENABLE]]
theorem Chip.writeLpiEnable_in {X : Fx} {b0 c : Chip} {p : Nat} {v : Nat} (hW : Within X b0 c) (hX : Fx.le Chip.writeLpiEnable_fx X = true) : Within X b0 (Chip.writeLpiEnable c p v).2 := by
  refine hW.trans (Within.mono hX ?_)
  unfold Chip.writeLpiEnable
  try dsimp only
  repeat' first
    | with_reducible assumption
    | with_reducible exact .refl _ _
    | with_reducible refine Chip.lpiReplan_in ?_ (by decide +kernel)
    | with_reducible refine Chip.lpiWakeNow_in ?_ (by decide +kernel)
    | with_reducible refine Within.wr ?_ (by decide +kernel)
    | with_reducible refine Within.ite ?_ ?_
    | split
    | dsimp only


end Sys2Proof.Machine
end

