-- ==== Sys2Proof/Laws/FrameWale.lean ====
section
/-!
SUPPORT. Frames of the operations of `Machine/Wale.lean`: which parts and objects each may change.
-/
set_option Elab.async false
namespace Sys2Proof.Machine

/-- What `Chip.wlQueue` may change. -/
def Chip.wlQueue_fx : Fx := .of [.queues, .wale] [.WL_DROP]
theorem Chip.wlQueue_in {X : Fx} {b0 c : Chip} {w : Nat} {p : WlPacket} (hW : Within X b0 c) (hX : Fx.le Chip.wlQueue_fx X = true) : Within X b0 (Chip.wlQueue c w p) := by
  refine hW.trans (Within.mono hX ?_)
  unfold Chip.wlQueue
  try dsimp only [Chip.fold_queues]
  repeat' first
    | with_reducible assumption
    | with_reducible exact .refl _ _
    | with_reducible refine Within.addRow ?_ (by decide +kernel)
    | with_reducible refine Within.setWl ?_ (by decide +kernel)
    | with_reducible refine Within.put_queues ?_ (by decide +kernel)
    | with_reducible refine Within.foldl (fun _ _ _ => ?_) ?_
    | with_reducible refine Within.foldl1 (fun _ _ _ => ?_) ?_
    | with_reducible refine Within.fold (fun _ _ _ => ?_) ?_
    | with_reducible refine Within.ite ?_ ?_
    | split
    | dsimp only


/-- What `Chip.wlForward` may change. -/
def Chip.wlForward_fx : Fx := .union [Chip.wlQueue_fx, .of [] [.WALE_NO_ROUTE]]
theorem Chip.wlForward_in {X : Fx} {b0 c : Chip} {p : WlPacket} (hW : Within X b0 c) (hX : Fx.le Chip.wlForward_fx X = true) : Within X b0 (Chip.wlForward c p) := by
  refine hW.trans (Within.mono hX ?_)
  unfold Chip.wlForward
  try dsimp only
  repeat' first
    | with_reducible assumption
    | with_reducible exact .refl _ _
    | with_reducible refine Chip.wlQueue_in ?_ (by decide +kernel)
    | with_reducible refine Within.inc ?_ (by decide +kernel)
    | with_reducible refine Within.ite ?_ ?_
    | split
    | dsimp only


/-- What `Chip.wlSend` may change. -/
def Chip.wlSend_fx : Fx := .union [Chip.wlForward_fx, Chip.wlQueue_fx, .of [.wale] []]
theorem Chip.wlSend_in {X : Fx} {b0 c : Chip} {p : WlPacket} (hW : Within X b0 c) (hX : Fx.le Chip.wlSend_fx X = true) : Within X b0 (Chip.wlSend c p) := by
  refine hW.trans (Within.mono hX ?_)
  unfold Chip.wlSend
  try dsimp only
  repeat' first
    | with_reducible assumption
    | with_reducible exact .refl _ _
    | with_reducible refine Chip.wlForward_in ?_ (by decide +kernel)
    | with_reducible refine Chip.wlQueue_in ?_ (by decide +kernel)
    | with_reducible refine Within.setWale ?_ (by decide +kernel)
    | with_reducible refine Within.each (fun _ _ _ => ?_) ?_
    | with_reducible refine Within.ite ?_ ?_
    | split
    | dsimp only


/-- What `Chip.wlLocal` may change. -/
def Chip.wlLocal_fx : Fx := Chip.wlQueue_fx
theorem Chip.wlLocal_in {X : Fx} {b0 c : Chip} {w : Nat} {cls : Nat} {kind : Nat} {payload : List Octet} (hW : Within X b0 c) (hX : Fx.le Chip.wlLocal_fx X = true) : Within X b0 (Chip.wlLocal c w cls kind payload) := by
  refine hW.trans (Within.mono hX ?_)
  unfold Chip.wlLocal
  try dsimp only
  repeat' first
    | with_reducible assumption
    | with_reducible exact .refl _ _
    | with_reducible refine Chip.wlQueue_in ?_ (by decide +kernel)
    | with_reducible refine Within.ite ?_ ?_
    | split
    | dsimp only


/-- What `Chip.flood` may change. -/
def Chip.flood_fx : Fx := Chip.wlLocal_fx
theorem Chip.flood_in {X : Fx} {b0 c : Chip} {ports : List Nat} {id : Nat} {a : Lsa} (hW : Within X b0 c) (hX : Fx.le Chip.flood_fx X = true) : Within X b0 (Chip.flood c ports id a) := by
  refine hW.trans (Within.mono hX ?_)
  unfold Chip.flood
  try dsimp only
  repeat' first
    | with_reducible assumption
    | with_reducible exact .refl _ _
    | with_reducible refine Chip.wlLocal_in ?_ (by decide +kernel)
    | with_reducible refine Within.each (fun _ _ _ => ?_) ?_
    | with_reducible refine Within.ite ?_ ?_
    | split
    | dsimp only


/-- What `Chip.originate` may change. -/
def Chip.originate_fx : Fx := .union [Chip.flood_fx, .of [.wale] [.WALE_LSA_SEQ]]
theorem Chip.originate_in {X : Fx} {b0 c : Chip} {links : List LsaLink} {seq : Nat} (hW : Within X b0 c) (hX : Fx.le Chip.originate_fx X = true) : Within X b0 (Chip.originate c links seq) := by
  refine hW.trans (Within.mono hX ?_)
  unfold Chip.originate
  try dsimp only
  repeat' first
    | with_reducible assumption
    | with_reducible exact .refl _ _
    | with_reducible refine Chip.flood_in ?_ (by decide +kernel)
    | with_reducible refine Within.wrDev ?_ (by decide +kernel)
    | with_reducible refine Within.setWale ?_ (by decide +kernel)
    | with_reducible refine Within.ite ?_ ?_
    | split
    | dsimp only


/-- What `Chip.originateNext` may change. -/
def Chip.originateNext_fx : Fx := Chip.originate_fx
theorem Chip.originateNext_in {X : Fx} {b0 c : Chip} {links : List LsaLink} (hW : Within X b0 c) (hX : Fx.le Chip.originateNext_fx X = true) : Within X b0 (Chip.originateNext c links) := by
  refine hW.trans (Within.mono hX ?_)
  unfold Chip.originateNext
  try dsimp only
  repeat' first
    | with_reducible assumption
    | with_reducible exact .refl _ _
    | with_reducible refine Chip.originate_in ?_ (by decide +kernel)
    | with_reducible refine Within.ite ?_ ?_
    | split
    | dsimp only


/-- What `Chip.lsaDue` may change. -/
def Chip.lsaDue_fx : Fx := .of [.wale] []
theorem Chip.lsaDue_in {X : Fx} {b0 c : Chip}  (hW : Within X b0 c) (hX : Fx.le Chip.lsaDue_fx X = true) : Within X b0 (Chip.lsaDue c) := by
  refine hW.trans (Within.mono hX ?_)
  unfold Chip.lsaDue
  try dsimp only
  repeat' first
    | with_reducible assumption
    | with_reducible exact .refl _ _
    | with_reducible refine Within.setWale ?_ (by decide +kernel)
    | with_reducible refine Within.ite ?_ ?_
    | split
    | dsimp only


/-- What `Chip.fabricFull` may change. -/
def Chip.fabricFull_fx : Fx := .of [.ev] [.WALE_STATUS]
theorem Chip.fabricFull_in {X : Fx} {b0 c : Chip}  (hW : Within X b0 c) (hX : Fx.le Chip.fabricFull_fx X = true) : Within X b0 (Chip.fabricFull c) := by
  refine hW.trans (Within.mono hX ?_)
  unfold Chip.fabricFull
  try dsimp only
  repeat' first
    | with_reducible assumption
    | with_reducible exact .refl _ _
    | with_reducible refine Within.setBit ?_ (by decide +kernel)
    | with_reducible refine Within.raise ?_ (by decide +kernel)
    | with_reducible refine Within.ite ?_ ?_
    | split
    | dsimp only


/-- What `Chip.lsaTake` may change. -/
def Chip.lsaTake_fx : Fx := .union [Chip.fabricFull_fx, Chip.flood_fx, Chip.originate_fx, .of [.wale] []]
theorem Chip.lsaTake_in {X : Fx} {b0 c : Chip} {w : Nat} {id : Nat} {a : Lsa} (hW : Within X b0 c) (hX : Fx.le Chip.lsaTake_fx X = true) : Within X b0 (Chip.lsaTake c w id a) := by
  refine hW.trans (Within.mono hX ?_)
  unfold Chip.lsaTake
  try dsimp only
  repeat' first
    | with_reducible assumption
    | with_reducible exact .refl _ _
    | with_reducible refine Chip.fabricFull_in ?_ (by decide +kernel)
    | with_reducible refine Chip.flood_in ?_ (by decide +kernel)
    | with_reducible refine Chip.originate_in ?_ (by decide +kernel)
    | with_reducible refine Within.setWale ?_ (by decide +kernel)
    | with_reducible refine Within.ite ?_ ?_
    | split
    | dsimp only


/-- What `Chip.claim` may change. -/
def Chip.claim_fx : Fx := .union [Chip.lsaDue_fx, .of [.ev, .wale] [.WALE_ADDRESS, .WALE_ADDR_CHANGES, .WALE_STATUS]]
theorem Chip.claim_in {X : Fx} {b0 c : Chip}  (hW : Within X b0 c) (hX : Fx.le Chip.claim_fx X = true) : Within X b0 (Chip.claim c) := by
  refine hW.trans (Within.mono hX ?_)
  unfold Chip.claim
  try dsimp only
  repeat' first
    | with_reducible assumption
    | with_reducible exact .refl _ _
    | with_reducible refine Chip.lsaDue_in ?_ (by decide +kernel)
    | with_reducible refine Within.wrDev ?_ (by decide +kernel)
    | with_reducible refine Within.inc ?_ (by decide +kernel)
    | with_reducible refine Within.setBit ?_ (by decide +kernel)
    | with_reducible refine Within.setWale ?_ (by decide +kernel)
    | with_reducible refine Within.raise ?_ (by decide +kernel)
    | with_reducible refine Within.ite ?_ ?_
    | split
    | dsimp only


/-- What `Chip.exchangeReset` may change. -/
def Chip.exchangeReset_fx : Fx := .of [.wale] []
theorem Chip.exchangeReset_in {X : Fx} {b0 c : Chip} {w : Nat} (hW : Within X b0 c) (hX : Fx.le Chip.exchangeReset_fx X = true) : Within X b0 (Chip.exchangeReset c w) := by
  refine hW.trans (Within.mono hX ?_)
  unfold Chip.exchangeReset
  try dsimp only
  repeat' first
    | with_reducible assumption
    | with_reducible exact .refl _ _
    | with_reducible refine Within.setWl ?_ (by decide +kernel)
    | with_reducible refine Within.ite ?_ ?_
    | split
    | dsimp only


/-- What `Chip.setUpstream` may change. -/
def Chip.setUpstream_fx : Fx := .union [Chip.exchangeReset_fx, .of [] [.WALE_UPSTREAM, .WL_STATUS]]
theorem Chip.setUpstream_in {X : Fx} {b0 c : Chip} {u : Nat} (hW : Within X b0 c) (hX : Fx.le Chip.setUpstream_fx X = true) : Within X b0 (Chip.setUpstream c u) := by
  refine hW.trans (Within.mono hX ?_)
  unfold Chip.setUpstream
  try dsimp only
  repeat' first
    | with_reducible assumption
    | with_reducible exact .refl _ _
    | with_reducible refine Chip.exchangeReset_in ?_ (by decide +kernel)
    | with_reducible refine Within.wrDev ?_ (by decide +kernel)
    | with_reducible refine Within.setBit ?_ (by decide +kernel)
    | with_reducible refine Within.each (fun _ _ _ => ?_) ?_
    | with_reducible refine Within.ite ?_ ?_
    | split
    | dsimp only


/-- What `Chip.replace` may change. -/
def Chip.replace_fx : Fx := .union [Chip.wlForward_fx, .of [.queues, .wale] [.WALE_NO_ROUTE]]
theorem Chip.replace_in {X : Fx} {b0 c : Chip}  (hW : Within X b0 c) (hX : Fx.le Chip.replace_fx X = true) : Within X b0 (Chip.replace c) := by
  refine hW.trans (Within.mono hX ?_)
  unfold Chip.replace
  try dsimp only [Chip.fold_queues]
  repeat' first
    | with_reducible assumption
    | with_reducible exact .refl _ _
    | with_reducible refine Chip.wlForward_in ?_ (by decide +kernel)
    | with_reducible refine Within.inc ?_ (by decide +kernel)
    | with_reducible refine Within.setWl ?_ (by decide +kernel)
    | with_reducible refine Within.put_queues ?_ (by decide +kernel)
    | with_reducible refine Within.each (fun _ _ _ => ?_) ?_
    | with_reducible refine Within.ite ?_ ?_
    | split
    | dsimp only


/-- What `Chip.recompute` may change. -/
def Chip.recompute_fx : Fx := .union [Chip.claim_fx, Chip.replace_fx, Chip.setUpstream_fx, .of [.ev] [.WALE_DEVICE_COUNT, .WALE_ROOT_DISTANCE, .WALE_ROOT_ID, .WALE_ROUTES, .WALE_STATUS]]
theorem Chip.recompute_in {X : Fx} {b0 c : Chip}  (hW : Within X b0 c) (hX : Fx.le Chip.recompute_fx X = true) : Within X b0 (Chip.recompute c) := by
  refine hW.trans (Within.mono hX ?_)
  unfold Chip.recompute
  try dsimp only
  repeat' first
    | with_reducible assumption
    | with_reducible exact .refl _ _
    | with_reducible refine Chip.claim_in ?_ (by decide +kernel)
    | with_reducible refine Chip.replace_in ?_ (by decide +kernel)
    | with_reducible refine Chip.setUpstream_in ?_ (by decide +kernel)
    | with_reducible refine Within.wrRow ?_ (by decide +kernel)
    | with_reducible refine Within.wrDev ?_ (by decide +kernel)
    | with_reducible refine Within.setBit ?_ (by decide +kernel)
    | with_reducible refine Within.raise ?_ (by decide +kernel)
    | with_reducible refine Within.each (fun _ _ _ => ?_) ?_
    | with_reducible refine Within.ite ?_ ?_
    | split
    | dsimp only


/-- What `Chip.wlDrop` may change. -/
def Chip.wlDrop_fx : Fx := .union [Chip.exchangeReset_fx, Chip.lsaDue_fx, .of [.ev, .wale] [.WALE_STATUS, .WL_LINK_DOWN_COUNT, .WL_PARTNER_ID, .WL_PARTNER_PORT, .WL_STATE, .WL_STATUS]]
theorem Chip.wlDrop_in {X : Fx} {b0 c : Chip} {w : Nat} {dest : Nat} (hW : Within X b0 c) (hX : Fx.le Chip.wlDrop_fx X = true) : Within X b0 (Chip.wlDrop c w dest) := by
  refine hW.trans (Within.mono hX ?_)
  unfold Chip.wlDrop
  try dsimp only
  repeat' first
    | with_reducible assumption
    | with_reducible exact .refl _ _
    | with_reducible refine Chip.exchangeReset_in ?_ (by decide +kernel)
    | with_reducible refine Chip.lsaDue_in ?_ (by decide +kernel)
    | with_reducible refine Within.wr ?_ (by decide +kernel)
    | with_reducible refine Within.inc ?_ (by decide +kernel)
    | with_reducible refine Within.setBit ?_ (by decide +kernel)
    | with_reducible refine Within.setWl ?_ (by decide +kernel)
    | with_reducible refine Within.raise ?_ (by decide +kernel)
    | with_reducible refine Within.ite ?_ ?_
    | split
    | dsimp only


/-- What `Chip.wlFollow` may change. -/
def Chip.wlFollow_fx : Fx := .union [Chip.wlDrop_fx, .of [] [.WL_STATE, .WL_STATUS]]
theorem Chip.wlFollow_in {X : Fx} {b0 c : Chip} {w : Nat} (hW : Within X b0 c) (hX : Fx.le Chip.wlFollow_fx X = true) : Within X b0 (Chip.wlFollow c w) := by
  refine hW.trans (Within.mono hX ?_)
  unfold Chip.wlFollow
  try dsimp only
  repeat' first
    | with_reducible assumption
    | with_reducible exact .refl _ _
    | with_reducible refine Chip.wlDrop_in ?_ (by decide +kernel)
    | with_reducible refine Within.wr ?_ (by decide +kernel)
    | with_reducible refine Within.ite ?_ ?_
    | split
    | dsimp only


/-- What `Chip.wlStopAll` may change. -/
def Chip.wlStopAll_fx : Fx := .union [Chip.wlDrop_fx, .of [] [.WL_STATUS]]
theorem Chip.wlStopAll_in {X : Fx} {b0 c : Chip}  (hW : Within X b0 c) (hX : Fx.le Chip.wlStopAll_fx X = true) : Within X b0 (Chip.wlStopAll c) := by
  refine hW.trans (Within.mono hX ?_)
  unfold Chip.wlStopAll
  try dsimp only
  repeat' first
    | with_reducible assumption
    | with_reducible exact .refl _ _
    | with_reducible refine Chip.wlDrop_in ?_ (by decide +kernel)
    | with_reducible refine Within.wr ?_ (by decide +kernel)
    | with_reducible refine Within.each (fun _ _ _ => ?_) ?_
    | with_reducible refine Within.ite ?_ ?_
    | split
    | dsimp only


/-- What `Chip.wlStartAll` may change. -/
def Chip.wlStartAll_fx : Fx := Chip.wlFollow_fx
theorem Chip.wlStartAll_in {X : Fx} {b0 c : Chip}  (hW : Within X b0 c) (hX : Fx.le Chip.wlStartAll_fx X = true) : Within X b0 (Chip.wlStartAll c) := by
  refine hW.trans (Within.mono hX ?_)
  unfold Chip.wlStartAll
  try dsimp only
  repeat' first
    | with_reducible assumption
    | with_reducible exact .refl _ _
    | with_reducible refine Chip.wlFollow_in ?_ (by decide +kernel)
    | with_reducible refine Within.each (fun _ _ _ => ?_) ?_
    | with_reducible refine Within.ite ?_ ?_
    | split
    | dsimp only


/-- What `Chip.writeWlEnable` may change. -/
def Chip.writeWlEnable_fx : Fx := .union [Chip.wlFollow_fx, Chip.wlStartAll_fx, .of [] [.WALE_ENABLE, .WL_ENABLE]]
theorem Chip.writeWlEnable_in {X : Fx} {b0 c : Chip} {w : Option Nat} {v : Nat} (hW : Within X b0 c) (hX : Fx.le Chip.writeWlEnable_fx X = true) : Within X b0 (Chip.writeWlEnable c w v).2 := by
  refine hW.trans (Within.mono hX ?_)
  unfold Chip.writeWlEnable
  try dsimp only
  repeat' first
    | with_reducible assumption
    | with_reducible exact .refl _ _
    | with_reducible refine Chip.wlFollow_in ?_ (by decide +kernel)
    | with_reducible refine Chip.wlStartAll_in ?_ (by decide +kernel)
    | with_reducible refine Within.wr ?_ (by decide +kernel)
    | with_reducible refine Within.wrDev ?_ (by decide +kernel)
    | with_reducible refine Within.ite ?_ ?_
    | split
    | dsimp only


/-- What `Chip.writeWlSlip` may change. -/
def Chip.writeWlSlip_fx : Fx := .of [.draws] [.WL_HDR_VALID, .WL_SLIP_POS]
theorem Chip.writeWlSlip_in {X : Fx} {b0 c : Chip} {w : Nat} {v : Nat} (hW : Within X b0 c) (hX : Fx.le Chip.writeWlSlip_fx X = true) : Within X b0 (Chip.writeWlSlip c w v).2 := by
  refine hW.trans (Within.mono hX ?_)
  unfold Chip.writeWlSlip
  try dsimp only
  repeat' first
    | with_reducible assumption
    | with_reducible exact .refl _ _
    | with_reducible refine Within.wr ?_ (by decide +kernel)
    | with_reducible refine Within.draw ?_ (by decide +kernel)
    | with_reducible refine Within.ite ?_ ?_
    | split
    | dsimp only


/-- What `Chip.writeWlWake` may change. -/
def Chip.writeWlWake_fx : Fx := .of [.wale] []
theorem Chip.writeWlWake_in {X : Fx} {b0 c : Chip} {w : Nat} {v : Nat} (hW : Within X b0 c) (hX : Fx.le Chip.writeWlWake_fx X = true) : Within X b0 (Chip.writeWlWake c w v).2 := by
  refine hW.trans (Within.mono hX ?_)
  unfold Chip.writeWlWake
  try dsimp only
  repeat' first
    | with_reducible assumption
    | with_reducible exact .refl _ _
    | with_reducible refine Within.setWl ?_ (by decide +kernel)
    | with_reducible refine Within.ite ?_ ?_
    | split
    | dsimp only


/-- What `Chip.writeRootPriority` may change. -/
def Chip.writeRootPriority_fx : Fx := .union [Chip.lsaDue_fx, .of [] [.WALE_ROOT_PRIORITY]]
theorem Chip.writeRootPriority_in {X : Fx} {b0 c : Chip} {v : Nat} (hW : Within X b0 c) (hX : Fx.le Chip.writeRootPriority_fx X = true) : Within X b0 (Chip.writeRootPriority c v).2 := by
  refine hW.trans (Within.mono hX ?_)
  unfold Chip.writeRootPriority
  try dsimp only
  repeat' first
    | with_reducible assumption
    | with_reducible exact .refl _ _
    | with_reducible refine Chip.lsaDue_in ?_ (by decide +kernel)
    | with_reducible refine Within.wrDev ?_ (by decide +kernel)
    | with_reducible refine Within.ite ?_ ?_
    | split
    | dsimp only


/-- What `Chip.writeWlCost` may change. -/
def Chip.writeWlCost_fx : Fx := .union [Chip.lsaDue_fx, .of [] [.WL_COST]]
theorem Chip.writeWlCost_in {X : Fx} {b0 c : Chip} {w : Nat} {v : Nat} (hW : Within X b0 c) (hX : Fx.le Chip.writeWlCost_fx X = true) : Within X b0 (Chip.writeWlCost c w v).2 := by
  refine hW.trans (Within.mono hX ?_)
  unfold Chip.writeWlCost
  try dsimp only
  repeat' first
    | with_reducible assumption
    | with_reducible exact .refl _ _
    | with_reducible refine Chip.lsaDue_in ?_ (by decide +kernel)
    | with_reducible refine Within.wr ?_ (by decide +kernel)
    | with_reducible refine Within.ite ?_ ?_
    | split
    | dsimp only


/-- What `Chip.writeAddrRequest` may change. -/
def Chip.writeAddrRequest_fx : Fx := .of [] [.WALE_ADDR_REQUEST]
theorem Chip.writeAddrRequest_in {X : Fx} {b0 c : Chip} {v : Nat} (hW : Within X b0 c) (hX : Fx.le Chip.writeAddrRequest_fx X = true) : Within X b0 (Chip.writeAddrRequest c v).2 := by
  refine hW.trans (Within.mono hX ?_)
  unfold Chip.writeAddrRequest
  try dsimp only
  repeat' first
    | with_reducible assumption
    | with_reducible exact .refl _ _
    | with_reducible refine Within.wrDev ?_ (by decide +kernel)
    | with_reducible refine Within.ite ?_ ?_
    | split
    | dsimp only


/-- What `Chip.wlEnterUp` may change. -/
def Chip.wlEnterUp_fx : Fx := .union [Chip.flood_fx, Chip.lsaDue_fx, .of [] [.WL_PARTNER_ID, .WL_PARTNER_PORT, .WL_STATE, .WL_STATUS]]
theorem Chip.wlEnterUp_in {X : Fx} {b0 c : Chip} {w : Nat} {id : Nat} {port : Nat} (hW : Within X b0 c) (hX : Fx.le Chip.wlEnterUp_fx X = true) : Within X b0 (Chip.wlEnterUp c w id port) := by
  refine hW.trans (Within.mono hX ?_)
  unfold Chip.wlEnterUp
  try dsimp only
  repeat' first
    | with_reducible assumption
    | with_reducible exact .refl _ _
    | with_reducible refine Chip.flood_in ?_ (by decide +kernel)
    | with_reducible refine Chip.lsaDue_in ?_ (by decide +kernel)
    | with_reducible refine Within.wr ?_ (by decide +kernel)
    | with_reducible refine Within.setBit ?_ (by decide +kernel)
    | with_reducible refine Within.each (fun _ _ _ => ?_) ?_
    | with_reducible refine Within.ite ?_ ?_
    | split
    | dsimp only


/-- What `Chip.helloTake` may change. -/
def Chip.helloTake_fx : Fx := .union [Chip.wlDrop_fx, Chip.wlEnterUp_fx, .of [.wale] []]
theorem Chip.helloTake_in {X : Fx} {b0 c : Chip} {w : Nat} {l : List Octet} (hW : Within X b0 c) (hX : Fx.le Chip.helloTake_fx X = true) : Within X b0 (Chip.helloTake c w l) := by
  refine hW.trans (Within.mono hX ?_)
  unfold Chip.helloTake
  try dsimp only
  repeat' first
    | with_reducible assumption
    | with_reducible exact .refl _ _
    | with_reducible refine Chip.wlDrop_in ?_ (by decide +kernel)
    | with_reducible refine Chip.wlEnterUp_in ?_ (by decide +kernel)
    | with_reducible refine Within.setWl ?_ (by decide +kernel)
    | with_reducible refine Within.ite ?_ ?_
    | split
    | dsimp only


/-- What `Chip.wlTake` may change. -/
def Chip.wlTake_fx : Fx := .of [.wale] []
theorem Chip.wlTake_in {X : Fx} {b0 c : Chip} {p : WlPacket} (hW : Within X b0 c) (hX : Fx.le Chip.wlTake_fx X = true) : Within X b0 (Chip.wlTake c p) := by
  refine hW.trans (Within.mono hX ?_)
  unfold Chip.wlTake
  try dsimp only
  repeat' first
    | with_reducible assumption
    | with_reducible exact .refl _ _
    | with_reducible refine Within.setWale ?_ (by decide +kernel)
    | with_reducible refine Within.ite ?_ ?_
    | split
    | dsimp only


/-- What `Chip.wlBroadcast` may change. -/
def Chip.wlBroadcast_fx : Fx := .union [Chip.wlQueue_fx, Chip.wlTake_fx, .of [.wale] [.WALE_NO_ROUTE]]
theorem Chip.wlBroadcast_in {X : Fx} {b0 c : Chip} {w : Nat} {p : WlPacket} (hW : Within X b0 c) (hX : Fx.le Chip.wlBroadcast_fx X = true) : Within X b0 (Chip.wlBroadcast c w p) := by
  refine hW.trans (Within.mono hX ?_)
  unfold Chip.wlBroadcast
  try dsimp only
  repeat' first
    | with_reducible assumption
    | with_reducible exact .refl _ _
    | with_reducible refine Chip.wlQueue_in ?_ (by decide +kernel)
    | with_reducible refine Chip.wlTake_in ?_ (by decide +kernel)
    | with_reducible refine Within.inc ?_ (by decide +kernel)
    | with_reducible refine Within.setWale ?_ (by decide +kernel)
    | with_reducible refine Within.each (fun _ _ _ => ?_) ?_
    | with_reducible refine Within.ite ?_ ?_
    | split
    | dsimp only


/-- What `Chip.wlPacket` may change. -/
def Chip.wlPacket_fx : Fx := .union [Chip.wlBroadcast_fx, Chip.wlForward_fx, Chip.wlTake_fx, .of [] [.WALE_NO_ROUTE, .WL_CRC_ERR, .WL_RX_PACKETS]]
theorem Chip.wlPacket_in {X : Fx} {b0 c : Chip} {w : Nat} {r : WlRaw} (hW : Within X b0 c) (hX : Fx.le Chip.wlPacket_fx X = true) : Within X b0 (Chip.wlPacket c w r) := by
  refine hW.trans (Within.mono hX ?_)
  unfold Chip.wlPacket
  try dsimp only
  repeat' first
    | with_reducible assumption
    | with_reducible exact .refl _ _
    | with_reducible refine Chip.wlBroadcast_in ?_ (by decide +kernel)
    | with_reducible refine Chip.wlForward_in ?_ (by decide +kernel)
    | with_reducible refine Chip.wlTake_in ?_ (by decide +kernel)
    | with_reducible refine Within.inc ?_ (by decide +kernel)
    | with_reducible refine Within.ite ?_ ?_
    | split
    | dsimp only


/-- What `Chip.wlReceive` may change. -/
def Chip.wlReceive_fx : Fx := .union [Chip.wlPacket_fx, .of [] [.WL_HDR_ERR]]
theorem Chip.wlReceive_in {X : Fx} {b0 c : Chip} {w : Nat} {l : List WlWord} (hW : Within X b0 c) (hX : Fx.le Chip.wlReceive_fx X = true) : Within X b0 (Chip.wlReceive c w l) := by
  refine hW.trans (Within.mono hX ?_)
  unfold Chip.wlReceive
  try dsimp only
  repeat' first
    | with_reducible assumption
    | with_reducible exact .refl _ _
    | with_reducible refine Chip.wlPacket_in ?_ (by decide +kernel)
    | with_reducible refine Within.add ?_ (by decide +kernel)
    | with_reducible refine Within.ite ?_ ?_
    | split
    | dsimp only


/-- What `Chip.wlPut` may change. -/
def Chip.wlPut_fx : Fx := .of [.wale] [.WL_TX_PACKETS]
theorem Chip.wlPut_in {X : Fx} {b0 c : Chip} {w : Nat} {p : WlPacket} (hW : Within X b0 c) (hX : Fx.le Chip.wlPut_fx X = true) : Within X b0 (Chip.wlPut c w p) := by
  refine hW.trans (Within.mono hX ?_)
  unfold Chip.wlPut
  try dsimp only
  repeat' first
    | with_reducible assumption
    | with_reducible exact .refl _ _
    | with_reducible refine Within.inc ?_ (by decide +kernel)
    | with_reducible refine Within.setWl ?_ (by decide +kernel)
    | with_reducible refine Within.ite ?_ ?_
    | split
    | dsimp only


/-- What `Chip.wlTransmit` may change. -/
def Chip.wlTransmit_fx : Fx := .union [Chip.wlPut_fx, .of [.queues, .wale] []]
theorem Chip.wlTransmit_in {X : Fx} {b0 c : Chip} {w : Nat} (hW : Within X b0 c) (hX : Fx.le Chip.wlTransmit_fx X = true) : Within X b0 (Chip.wlTransmit c w) := by
  refine hW.trans (Within.mono hX ?_)
  unfold Chip.wlTransmit
  try dsimp only [Chip.fold_queues]
  repeat' first
    | with_reducible assumption
    | with_reducible exact .refl _ _
    | with_reducible refine Chip.wlPut_in ?_ (by decide +kernel)
    | with_reducible refine Within.setWl ?_ (by decide +kernel)
    | with_reducible refine Within.put_queues ?_ (by decide +kernel)
    | with_reducible refine Within.ite ?_ ?_
    | split
    | dsimp only


/-- What `Chip.syncAll` may change. -/
def Chip.syncAll_fx : Fx := .union [Chip.wlLocal_fx, .of [.wale] []]
theorem Chip.syncAll_in {X : Fx} {b0 c : Chip}  (hW : Within X b0 c) (hX : Fx.le Chip.syncAll_fx X = true) : Within X b0 (Chip.syncAll c) := by
  refine hW.trans (Within.mono hX ?_)
  unfold Chip.syncAll
  try dsimp only
  repeat' first
    | with_reducible assumption
    | with_reducible exact .refl _ _
    | with_reducible refine Chip.wlLocal_in ?_ (by decide +kernel)
    | with_reducible refine Within.setWl ?_ (by decide +kernel)
    | with_reducible refine Within.each (fun _ _ _ => ?_) ?_
    | with_reducible refine Within.ite ?_ ?_
    | split
    | dsimp only


/-- What `Chip.dreqSend` may change. -/
def Chip.dreqSend_fx : Fx := .of [.wale] []
theorem Chip.dreqSend_in {X : Fx} {b0 c : Chip}  (hW : Within X b0 c) (hX : Fx.le Chip.dreqSend_fx X = true) : Within X b0 (Chip.dreqSend c) := by
  refine hW.trans (Within.mono hX ?_)
  unfold Chip.dreqSend
  try dsimp only
  repeat' first
    | with_reducible assumption
    | with_reducible exact .refl _ _
    | with_reducible refine Within.setWl ?_ (by decide +kernel)
    | with_reducible refine Within.ite ?_ ?_
    | split
    | dsimp only


/-- What `Chip.tsTake` may change. -/
def Chip.tsTake_fx : Fx := .union [Chip.wlLocal_fx, .of [.wale] []]
theorem Chip.tsTake_in {X : Fx} {b0 c : Chip} {w : Nat} {kind : Nat} {seq : Nat} {frac : Nat} (hW : Within X b0 c) (hX : Fx.le Chip.tsTake_fx X = true) : Within X b0 (Chip.tsTake c w kind seq frac) := by
  refine hW.trans (Within.mono hX ?_)
  unfold Chip.tsTake
  try dsimp only
  repeat' first
    | with_reducible assumption
    | with_reducible exact .refl _ _
    | with_reducible refine Chip.wlLocal_in ?_ (by decide +kernel)
    | with_reducible refine Within.setWl ?_ (by decide +kernel)
    | with_reducible refine Within.ite ?_ ?_
    | split
    | dsimp only


/-- What `Chip.exchange` may change. -/
def Chip.exchange_fx : Fx := .all
theorem Chip.exchange_in {X : Fx} {b0 c : Chip} {st : Stepper} {w : Nat} {t1 : Nat} {t2 : Nat} {flags : Nat} (hW : Within X b0 c) (hX : Fx.le Chip.exchange_fx X = true) : Within X b0 (Chip.exchange c st w t1 t2 flags) := by
  refine hW.trans (Within.mono hX ?_)
  exact Within.all _ _


/-- What `Chip.timeTake` may change. -/
def Chip.timeTake_fx : Fx := .all
theorem Chip.timeTake_in {X : Fx} {b0 c : Chip} {st : Stepper} {w : Nat} {l : List Octet} (hW : Within X b0 c) (hX : Fx.le Chip.timeTake_fx X = true) : Within X b0 (Chip.timeTake c st w l) := by
  refine hW.trans (Within.mono hX ?_)
  exact Within.all _ _


/-- What `Chip.eventSend` may change. -/
def Chip.eventSend_fx : Fx := Chip.wlSend_fx
theorem Chip.eventSend_in {X : Fx} {b0 c : Chip} {cls : Nat} {l : List EvRec} (hW : Within X b0 c) (hX : Fx.le Chip.eventSend_fx X = true) : Within X b0 (Chip.eventSend c cls l) := by
  refine hW.trans (Within.mono hX ?_)
  unfold Chip.eventSend
  try dsimp only
  repeat' first
    | with_reducible assumption
    | with_reducible exact .refl _ _
    | with_reducible refine Chip.wlSend_in ?_ (by decide +kernel)
    | with_reducible refine Within.ite ?_ ?_
    | split
    | dsimp only


/-- What `Chip.outcomeTake` may change. -/
def Chip.outcomeTake_fx : Fx := .of [] [.UPSETT_REPORT]
theorem Chip.outcomeTake_in {X : Fx} {b0 c : Chip} {a : Nat} {tag : Nat} {state : Nat} {cause : Nat} (hW : Within X b0 c) (hX : Fx.le Chip.outcomeTake_fx X = true) : Within X b0 (Chip.outcomeTake c a tag state cause) := by
  refine hW.trans (Within.mono hX ?_)
  unfold Chip.outcomeTake
  try dsimp only
  repeat' first
    | with_reducible assumption
    | with_reducible exact .refl _ _
    | with_reducible refine Within.wrRow ?_ (by decide +kernel)
    | with_reducible refine Within.ite ?_ ?_
    | split
    | dsimp only


/-- What `Chip.outcome` may change. -/
def Chip.outcome_fx : Fx := .union [Chip.outcomeTake_fx, .of [.wale] []]
theorem Chip.outcome_in {X : Fx} {b0 c : Chip} {dest : Nat} {tag : Nat} {state : Nat} {cause : Nat} (hW : Within X b0 c) (hX : Fx.le Chip.outcome_fx X = true) : Within X b0 (Chip.outcome c dest tag state cause) := by
  refine hW.trans (Within.mono hX ?_)
  unfold Chip.outcome
  try dsimp only
  repeat' first
    | with_reducible assumption
    | with_reducible exact .refl _ _
    | with_reducible refine Chip.outcomeTake_in ?_ (by decide +kernel)
    | with_reducible refine Within.setWale ?_ (by decide +kernel)
    | with_reducible refine Within.ite ?_ ?_
    | split
    | dsimp only


/-- What `Chip.outcomesSend` may change. -/
def Chip.outcomesSend_fx : Fx := .union [Chip.wlSend_fx, .of [.draws, .wale] []]
theorem Chip.outcomesSend_in {X : Fx} {b0 c : Chip}  (hW : Within X b0 c) (hX : Fx.le Chip.outcomesSend_fx X = true) : Within X b0 (Chip.outcomesSend c) := by
  refine hW.trans (Within.mono hX ?_)
  unfold Chip.outcomesSend
  try dsimp only
  repeat' first
    | with_reducible assumption
    | with_reducible exact .refl _ _
    | with_reducible refine Chip.wlSend_in ?_ (by decide +kernel)
    | with_reducible refine Within.setWale ?_ (by decide +kernel)
    | with_reducible refine Within.draw ?_ (by decide +kernel)
    | with_reducible refine Within.foldl (fun _ _ _ => ?_) ?_
    | with_reducible refine Within.foldl1 (fun _ _ _ => ?_) ?_
    | with_reducible refine Within.fold (fun _ _ _ => ?_) ?_
    | with_reducible refine Within.ite ?_ ?_
    | split
    | dsimp only


/-- What `Chip.eventPacket` may change. -/
def Chip.eventPacket_fx : Fx := .union [Chip.eventSend_fx, Chip.outcomesSend_fx, .of [.wale] []]
theorem Chip.eventPacket_in {X : Fx} {b0 c : Chip} {b : EventBatch} (hW : Within X b0 c) (hX : Fx.le Chip.eventPacket_fx X = true) : Within X b0 (Chip.eventPacket c b) := by
  refine hW.trans (Within.mono hX ?_)
  unfold Chip.eventPacket
  try dsimp only
  repeat' first
    | with_reducible assumption
    | with_reducible exact .refl _ _
    | with_reducible refine Chip.eventSend_in ?_ (by decide +kernel)
    | with_reducible refine Chip.outcomesSend_in ?_ (by decide +kernel)
    | with_reducible refine Within.setWale ?_ (by decide +kernel)
    | with_reducible refine Within.ite ?_ ?_
    | split
    | dsimp only


/-- What `Chip.writeUpsettTag` may change. -/
def Chip.writeUpsettTag_fx : Fx := .of [] [.UPSETT_REPORT, .UPSETT_TAG]
theorem Chip.writeUpsettTag_in {X : Fx} {b0 c : Chip} {v : Nat} (hW : Within X b0 c) (hX : Fx.le Chip.writeUpsettTag_fx X = true) : Within X b0 (Chip.writeUpsettTag c v).2 := by
  refine hW.trans (Within.mono hX ?_)
  unfold Chip.writeUpsettTag
  try dsimp only
  repeat' first
    | with_reducible assumption
    | with_reducible exact .refl _ _
    | with_reducible refine Within.wrDev ?_ (by decide +kernel)
    | with_reducible refine Within.clrAll ?_ (by decide +kernel)
    | with_reducible refine Within.ite ?_ ?_
    | split
    | dsimp only


end Sys2Proof.Machine
end

