-- ==== Sys2Proof/Laws/FrameCal.lean ====
section
/-!
SUPPORT. Frames of the operations of `Machine/Cal.lean`: which parts and objects each may change.
-/
set_option Elab.async false
namespace Sys2Proof.Machine

/-- What `Chip.visitStart` may change. -/
def Chip.visitStart_fx : Fx := .union [Chip.phase_fx, .of [.cal] []]
theorem Chip.visitStart_in {X : Fx} {b0 c : Chip} {e : Nat} {dac : Bool} (hW : Within X b0 c) (hX : Fx.le Chip.visitStart_fx X = true) : Within X b0 (Chip.visitStart c e dac) := by
  refine hW.trans (Within.mono hX ?_)
  unfold Chip.visitStart
  try dsimp only
  repeat' first
    | with_reducible assumption
    | with_reducible exact .refl _ _
    | with_reducible refine Chip.phase_in ?_ (by decide +kernel)
    | with_reducible refine Within.setCal ?_ (by decide +kernel)
    | with_reducible refine Within.ite ?_ ?_
    | split
    | dsimp only


/-- What `Chip.roundStart` may change. -/
def Chip.roundStart_fx : Fx := .union [Chip.visitStart_fx, .of [.cal] []]
theorem Chip.roundStart_in {X : Fx} {b0 c : Chip} {e : Nat} {dac : Bool} (hW : Within X b0 c) (hX : Fx.le Chip.roundStart_fx X = true) : Within X b0 (Chip.roundStart c e dac) := by
  refine hW.trans (Within.mono hX ?_)
  unfold Chip.roundStart
  try dsimp only
  repeat' first
    | with_reducible assumption
    | with_reducible exact .refl _ _
    | with_reducible refine Chip.visitStart_in ?_ (by decide +kernel)
    | with_reducible refine Within.setCal ?_ (by decide +kernel)
    | with_reducible refine Within.ite ?_ ?_
    | split
    | dsimp only


/-- What `Chip.visitEnd` may change. -/
def Chip.visitEnd_fx : Fx := .union [Chip.roundEnd_fx, Chip.visitStart_fx, .of [.cal] [.CAL_VISIT_COUNT]]
theorem Chip.visitEnd_in {X : Fx} {b0 c : Chip} {e : Nat} {dac : Bool} (hW : Within X b0 c) (hX : Fx.le Chip.visitEnd_fx X = true) : Within X b0 (Chip.visitEnd c e dac) := by
  refine hW.trans (Within.mono hX ?_)
  unfold Chip.visitEnd
  try dsimp only
  repeat' first
    | with_reducible assumption
    | with_reducible exact .refl _ _
    | with_reducible refine Chip.roundEnd_in ?_ (by decide +kernel)
    | with_reducible refine Chip.visitStart_in ?_ (by decide +kernel)
    | with_reducible refine Within.inc ?_ (by decide +kernel)
    | with_reducible refine Within.setCal ?_ (by decide +kernel)
    | with_reducible refine Within.ite ?_ ?_
    | split
    | dsimp only


/-- What `Chip.spareGone` may change. -/
def Chip.spareGone_fx : Fx := .of [.cal, .ev] []
theorem Chip.spareGone_in {X : Fx} {b0 c : Chip} {e : Nat} {dac : Bool} (hW : Within X b0 c) (hX : Fx.le Chip.spareGone_fx X = true) : Within X b0 (Chip.spareGone c e dac) := by
  refine hW.trans (Within.mono hX ?_)
  unfold Chip.spareGone
  try dsimp only
  repeat' first
    | with_reducible assumption
    | with_reducible exact .refl _ _
    | with_reducible refine Within.setCal ?_ (by decide +kernel)
    | with_reducible refine Within.raise ?_ (by decide +kernel)
    | with_reducible refine Within.ite ?_ ?_
    | split
    | dsimp only


/-- What `Chip.peUnusable` may change. -/
def Chip.peUnusable_fx : Fx := .union [Chip.ancUnusable_fx, Chip.invalidate_fx, .of [.ev, .pes] [.BIST_STATE_PE]]
theorem Chip.peUnusable_in {X : Fx} {b0 c : Chip} {e : Nat} (hW : Within X b0 c) (hX : Fx.le Chip.peUnusable_fx X = true) : Within X b0 (Chip.peUnusable c e) := by
  refine hW.trans (Within.mono hX ?_)
  unfold Chip.peUnusable
  try dsimp only
  repeat' first
    | with_reducible assumption
    | with_reducible exact .refl _ _
    | with_reducible refine Chip.ancUnusable_in ?_ (by decide +kernel)
    | with_reducible refine Chip.invalidate_in ?_ (by decide +kernel)
    | with_reducible refine Within.wr ?_ (by decide +kernel)
    | with_reducible refine Within.setPe ?_ (by decide +kernel)
    | with_reducible refine Within.raise ?_ (by decide +kernel)
    | with_reducible refine Within.ite ?_ ?_
    | split
    | dsimp only


/-- What `Chip.elemRetired` may change. -/
def Chip.elemRetired_fx : Fx := .union [Chip.peUnusable_fx, .of [.cal, .ev] []]
theorem Chip.elemRetired_in {X : Fx} {b0 c : Chip} {e : Nat} {code : Nat} (hW : Within X b0 c) (hX : Fx.le Chip.elemRetired_fx X = true) : Within X b0 (Chip.elemRetired c e code) := by
  refine hW.trans (Within.mono hX ?_)
  unfold Chip.elemRetired
  try dsimp only
  repeat' first
    | with_reducible assumption
    | with_reducible exact .refl _ _
    | with_reducible refine Chip.peUnusable_in ?_ (by decide +kernel)
    | with_reducible refine Within.setCal ?_ (by decide +kernel)
    | with_reducible refine Within.raise ?_ (by decide +kernel)
    | with_reducible refine Within.ite ?_ ?_
    | split
    | dsimp only


/-- What `Chip.resultTake` may change. -/
def Chip.resultTake_fx : Fx := .of [.cal, .ev] [.CAL_REJECT_COUNT]
theorem Chip.resultTake_in {X : Fx} {b0 c : Chip} {e : Nat} {dac : Bool} {v : Visit} {x : Quantity × Int} (hW : Within X b0 c) (hX : Fx.le Chip.resultTake_fx X = true) : Within X b0 (Chip.resultTake c e dac v x) := by
  refine hW.trans (Within.mono hX ?_)
  unfold Chip.resultTake
  try dsimp only
  repeat' first
    | with_reducible assumption
    | with_reducible exact .refl _ _
    | with_reducible refine Within.inc ?_ (by decide +kernel)
    | with_reducible refine Within.setCal ?_ (by decide +kernel)
    | with_reducible refine Within.raise ?_ (by decide +kernel)
    | with_reducible refine Within.ite ?_ ?_
    | split
    | dsimp only


/-- What `Chip.candidatesRetire` may change. -/
def Chip.candidatesRetire_fx : Fx := .union [Chip.elemRetired_fx, .of [.cal] []]
theorem Chip.candidatesRetire_in {X : Fx} {b0 c : Chip} {e : Nat} {n : Nat} (hW : Within X b0 c) (hX : Fx.le Chip.candidatesRetire_fx X = true) : Within X b0 (Chip.candidatesRetire c e n) := by
  refine hW.trans (Within.mono hX ?_)
  unfold Chip.candidatesRetire
  try dsimp only
  repeat' first
    | with_reducible assumption
    | with_reducible exact .refl _ _
    | with_reducible refine Chip.elemRetired_in ?_ (by decide +kernel)
    | with_reducible refine Within.setCal ?_ (by decide +kernel)
    | with_reducible refine Within.each (fun _ _ _ => ?_) ?_
    | with_reducible refine Within.ite ?_ ?_
    | split
    | dsimp only


/-- What `Chip.visitCheck` may change. -/
def Chip.visitCheck_fx : Fx := .union [Chip.candidatesRetire_fx, Chip.elemRetired_fx, Chip.phase_fx, Chip.resultTake_fx, Chip.spareGone_fx, Chip.visitEnd_fx, .of [.cal] []]
theorem Chip.visitCheck_in {X : Fx} {b0 c : Chip} {e : Nat} {dac : Bool} {v : Visit} {l : List (Quantity × Int)} (hW : Within X b0 c) (hX : Fx.le Chip.visitCheck_fx X = true) : Within X b0 (Chip.visitCheck c e dac v l) := by
  refine hW.trans (Within.mono hX ?_)
  unfold Chip.visitCheck
  try dsimp only
  repeat' first
    | with_reducible assumption
    | with_reducible exact .refl _ _
    | with_reducible refine Chip.candidatesRetire_in ?_ (by decide +kernel)
    | with_reducible refine Chip.elemRetired_in ?_ (by decide +kernel)
    | with_reducible refine Chip.phase_in ?_ (by decide +kernel)
    | with_reducible refine Chip.resultTake_in ?_ (by decide +kernel)
    | with_reducible refine Chip.spareGone_in ?_ (by decide +kernel)
    | with_reducible refine Chip.visitEnd_in ?_ (by decide +kernel)
    | with_reducible refine Within.setCal ?_ (by decide +kernel)
    | with_reducible refine Within.each (fun _ _ _ => ?_) ?_
    | with_reducible refine Within.ite ?_ ?_
    | split
    | dsimp only


/-- What `Chip.visitPhase` may change. -/
def Chip.visitPhase_fx : Fx := .union [Chip.phase_fx, Chip.visitCheck_fx, Chip.visitEnd_fx, Chip.visitStart_fx, .of [.cal] []]
theorem Chip.visitPhase_in {X : Fx} {b0 c : Chip} {e : Nat} {dac : Bool} {results : List (Quantity × Int)} {matched : List (Quantity × Int)} (hW : Within X b0 c) (hX : Fx.le Chip.visitPhase_fx X = true) : Within X b0 (Chip.visitPhase c e dac results matched) := by
  refine hW.trans (Within.mono hX ?_)
  unfold Chip.visitPhase
  try dsimp only
  repeat' first
    | with_reducible assumption
    | with_reducible exact .refl _ _
    | with_reducible refine Chip.phase_in ?_ (by decide +kernel)
    | with_reducible refine Chip.visitCheck_in ?_ (by decide +kernel)
    | with_reducible refine Chip.visitEnd_in ?_ (by decide +kernel)
    | with_reducible refine Chip.visitStart_in ?_ (by decide +kernel)
    | with_reducible refine Within.setCal ?_ (by decide +kernel)
    | with_reducible refine Within.ite ?_ ?_
    | split
    | dsimp only


/-- What `Chip.recordStore` may change. -/
def Chip.recordStore_fx : Fx := .of [.cal, .nv] []
theorem Chip.recordStore_in {X : Fx} {b0 c : Chip} {e : Nat} (hW : Within X b0 c) (hX : Fx.le Chip.recordStore_fx X = true) : Within X b0 (Chip.recordStore c e) := by
  refine hW.trans (Within.mono hX ?_)
  unfold Chip.recordStore
  try dsimp only [Chip.fold_cal, Chip.fold_nv]
  repeat' first
    | with_reducible assumption
    | with_reducible exact .refl _ _
    | with_reducible refine Within.setCal ?_ (by decide +kernel)
    | with_reducible refine Within.put_cal ?_ (by decide +kernel)
    | with_reducible refine Within.put_nv ?_ (by decide +kernel)
    | with_reducible refine Within.ite ?_ ?_
    | split
    | dsimp only


/-- What `Chip.recordLoad` may change. -/
def Chip.recordLoad_fx : Fx := .of [.cal, .ev] []
theorem Chip.recordLoad_in {X : Fx} {b0 c : Chip} {bad : List (PeNo × Bool)} {e : Nat} (hW : Within X b0 c) (hX : Fx.le Chip.recordLoad_fx X = true) : Within X b0 (Chip.recordLoad c bad e) := by
  refine hW.trans (Within.mono hX ?_)
  unfold Chip.recordLoad
  try dsimp only
  repeat' first
    | with_reducible assumption
    | with_reducible exact .refl _ _
    | with_reducible refine Within.setCal ?_ (by decide +kernel)
    | with_reducible refine Within.raise ?_ (by decide +kernel)
    | with_reducible refine Within.ite ?_ ?_
    | split
    | dsimp only


/-- What `Chip.startWaiting` may change. -/
def Chip.startWaiting_fx : Fx := Chip.startEnabled_fx
theorem Chip.startWaiting_in {X : Fx} {b0 c : Chip} {p : Nat} (hW : Within X b0 c) (hX : Fx.le Chip.startWaiting_fx X = true) : Within X b0 (Chip.startWaiting c p) := by
  refine hW.trans (Within.mono hX ?_)
  unfold Chip.startWaiting
  try dsimp only
  repeat' first
    | with_reducible assumption
    | with_reducible exact .refl _ _
    | with_reducible refine Chip.startEnabled_in ?_ (by decide +kernel)
    | with_reducible refine Within.ite ?_ ?_
    | split
    | dsimp only


/-- What `Chip.writeCalStart` may change. -/
def Chip.writeCalStart_fx : Fx := .union [Chip.tileRaised_fx, .of [.cal] []]
theorem Chip.writeCalStart_in {X : Fx} {b0 c : Chip} {e : Nat} {v : Nat} (hW : Within X b0 c) (hX : Fx.le Chip.writeCalStart_fx X = true) : Within X b0 (Chip.writeCalStart c e v).2 := by
  refine hW.trans (Within.mono hX ?_)
  unfold Chip.writeCalStart
  try dsimp only
  repeat' first
    | with_reducible assumption
    | with_reducible exact .refl _ _
    | with_reducible refine Chip.tileRaised_in ?_ (by decide +kernel)
    | with_reducible refine Within.setCal ?_ (by decide +kernel)
    | with_reducible refine Within.ite ?_ ?_
    | split
    | dsimp only


/-- What `Chip.fgGroupStart` may change. -/
def Chip.fgGroupStart_fx : Fx := .union [Chip.tileRaised_fx, .of [.bist, .cal] []]
theorem Chip.fgGroupStart_in {X : Fx} {b0 c : Chip}  (hW : Within X b0 c) (hX : Fx.le Chip.fgGroupStart_fx X = true) : Within X b0 (Chip.fgGroupStart c) := by
  refine hW.trans (Within.mono hX ?_)
  unfold Chip.fgGroupStart
  try dsimp only [Chip.fold_bist]
  repeat' first
    | with_reducible assumption
    | with_reducible exact .refl _ _
    | with_reducible refine Chip.tileRaised_in ?_ (by decide +kernel)
    | with_reducible refine Within.setCal ?_ (by decide +kernel)
    | with_reducible refine Within.put_bist ?_ (by decide +kernel)
    | with_reducible refine Within.each (fun _ _ _ => ?_) ?_
    | with_reducible refine Within.ite ?_ ?_
    | split
    | dsimp only


/-- What `Chip.manualBack` may change. -/
def Chip.manualBack_fx : Fx := Chip.changeLevel_fx
theorem Chip.manualBack_in {X : Fx} {b0 c : Chip} {t : Nat} (hW : Within X b0 c) (hX : Fx.le Chip.manualBack_fx X = true) : Within X b0 (Chip.manualBack c t) := by
  refine hW.trans (Within.mono hX ?_)
  unfold Chip.manualBack
  try dsimp only
  repeat' first
    | with_reducible assumption
    | with_reducible exact .refl _ _
    | with_reducible refine Chip.changeLevel_in ?_ (by decide +kernel)
    | with_reducible refine Within.ite ?_ ?_
    | split
    | dsimp only


/-- What `Chip.fgDone` may change. -/
def Chip.fgDone_fx : Fx := .union [Chip.manualBack_fx, Chip.peUnusable_fx, Chip.spareGone_fx, Chip.startWaiting_fx, .of [.cal, .ev] []]
theorem Chip.fgDone_in {X : Fx} {b0 c : Chip} {e : Nat} {m : FgMeas} (hW : Within X b0 c) (hX : Fx.le Chip.fgDone_fx X = true) : Within X b0 (Chip.fgDone c e m) := by
  refine hW.trans (Within.mono hX ?_)
  unfold Chip.fgDone
  try dsimp only
  repeat' first
    | with_reducible assumption
    | with_reducible exact .refl _ _
    | with_reducible refine Chip.manualBack_in ?_ (by decide +kernel)
    | with_reducible refine Chip.peUnusable_in ?_ (by decide +kernel)
    | with_reducible refine Chip.spareGone_in ?_ (by decide +kernel)
    | with_reducible refine Chip.startWaiting_in ?_ (by decide +kernel)
    | with_reducible refine Within.setCal ?_ (by decide +kernel)
    | with_reducible refine Within.raise ?_ (by decide +kernel)
    | with_reducible refine Within.each (fun _ _ _ => ?_) ?_
    | with_reducible refine Within.ite ?_ ?_
    | split
    | dsimp only


/-- What `Chip.calQuiesce` may change. -/
def Chip.calQuiesce_fx : Fx := .of [.cal] []
theorem Chip.calQuiesce_in {X : Fx} {b0 c : Chip} {tile : Option Nat} (hW : Within X b0 c) (hX : Fx.le Chip.calQuiesce_fx X = true) : Within X b0 (Chip.calQuiesce c tile) := by
  refine hW.trans (Within.mono hX ?_)
  unfold Chip.calQuiesce
  try dsimp only [Chip.fold_cal]
  repeat' first
    | with_reducible assumption
    | with_reducible exact .refl _ _
    | with_reducible refine Within.put_cal ?_ (by decide +kernel)
    | with_reducible refine Within.ite ?_ ?_
    | split
    | dsimp only


end Sys2Proof.Machine
end

