-- ==== Sys2Proof/Laws/FrameTile.lean ====
section
/-!
SUPPORT. Frames of the operations of `Machine/Tile.lean`: which parts and objects each may change.
-/
set_option Elab.async false
namespace Sys2Proof.Machine

/-- What `Chip.cutPort` may change. -/
def Chip.cutPort_fx : Fx := .union [Chip.leave_fx, Chip.linkDown_fx, Chip.setCause_fx, .of [.ev, .pes, .ports] []]
theorem Chip.cutPort_in {X : Fx} {b0 c : Chip} {p : Nat} (hW : Within X b0 c) (hX : Fx.le Chip.cutPort_fx X = true) : Within X b0 (Chip.cutPort c p) := by
  refine hW.trans (Within.mono hX ?_)
  unfold Chip.cutPort
  try dsimp only
  repeat' first
    | with_reducible assumption
    | with_reducible exact .refl _ _
    | with_reducible refine Chip.leave_in ?_ (by decide +kernel)
    | with_reducible refine Chip.linkDown_in ?_ (by decide +kernel)
    | with_reducible refine Chip.setCause_in ?_ (by decide +kernel)
    | with_reducible refine Within.setPort ?_ (by decide +kernel)
    | with_reducible refine Within.setPe ?_ (by decide +kernel)
    | with_reducible refine Within.raise ?_ (by decide +kernel)
    | with_reducible refine Within.each (fun _ _ _ => ?_) ?_
    | with_reducible refine Within.ite ?_ ?_
    | split
    | dsimp only


/-- What `Chip.isolate` may change. -/
def Chip.isolate_fx : Fx := .union [Chip.ancUnusable_fx, Chip.cutPort_fx, Chip.invalidate_fx, .of [.cal, .ev, .pwr] []]
theorem Chip.isolate_in {X : Fx} {b0 c : Chip} {t : Nat} (hW : Within X b0 c) (hX : Fx.le Chip.isolate_fx X = true) : Within X b0 (Chip.isolate c t) := by
  refine hW.trans (Within.mono hX ?_)
  unfold Chip.isolate
  try dsimp only [Chip.fold_cal]
  repeat' first
    | with_reducible assumption
    | with_reducible exact .refl _ _
    | with_reducible refine Chip.ancUnusable_in ?_ (by decide +kernel)
    | with_reducible refine Chip.cutPort_in ?_ (by decide +kernel)
    | with_reducible refine Chip.invalidate_in ?_ (by decide +kernel)
    | with_reducible refine Within.setTile ?_ (by decide +kernel)
    | with_reducible refine Within.raise ?_ (by decide +kernel)
    | with_reducible refine Within.put_cal ?_ (by decide +kernel)
    | with_reducible refine Within.each (fun _ _ _ => ?_) ?_
    | with_reducible refine Within.ite ?_ ?_
    | split
    | dsimp only


/-- What `Chip.regFailed` may change. -/
def Chip.regFailed_fx : Fx := .union [Chip.isolate_fx, .of [.pwr] []]
theorem Chip.regFailed_in {X : Fx} {b0 c : Chip} {t : Nat} (hW : Within X b0 c) (hX : Fx.le Chip.regFailed_fx X = true) : Within X b0 (Chip.regFailed c t) := by
  refine hW.trans (Within.mono hX ?_)
  unfold Chip.regFailed
  try dsimp only
  repeat' first
    | with_reducible assumption
    | with_reducible exact .refl _ _
    | with_reducible refine Chip.isolate_in ?_ (by decide +kernel)
    | with_reducible refine Within.setTile ?_ (by decide +kernel)
    | with_reducible refine Within.ite ?_ ?_
    | split
    | dsimp only


/-- What `Chip.wakePort` may change. -/
def Chip.wakePort_fx : Fx := Chip.resumeLink_fx
theorem Chip.wakePort_in {X : Fx} {b0 c : Chip} {p : Nat} (hW : Within X b0 c) (hX : Fx.le Chip.wakePort_fx X = true) : Within X b0 (Chip.wakePort c p) := by
  refine hW.trans (Within.mono hX ?_)
  unfold Chip.wakePort
  try dsimp only
  repeat' first
    | with_reducible assumption
    | with_reducible exact .refl _ _
    | with_reducible refine Chip.resumeLink_in ?_ (by decide +kernel)
    | with_reducible refine Within.ite ?_ ?_
    | split
    | dsimp only


/-- What `Chip.tileRun` may change. -/
def Chip.tileRun_fx : Fx := .union [Chip.changeLevel_fx, Chip.tileRaised_fx, Chip.wakePort_fx, .of [.pwr] []]
theorem Chip.tileRun_in {X : Fx} {b0 c : Chip} {t : Nat} (hW : Within X b0 c) (hX : Fx.le Chip.tileRun_fx X = true) : Within X b0 (Chip.tileRun c t) := by
  refine hW.trans (Within.mono hX ?_)
  unfold Chip.tileRun
  try dsimp only
  repeat' first
    | with_reducible assumption
    | with_reducible exact .refl _ _
    | with_reducible refine Chip.changeLevel_in ?_ (by decide +kernel)
    | with_reducible refine Chip.tileRaised_in ?_ (by decide +kernel)
    | with_reducible refine Chip.wakePort_in ?_ (by decide +kernel)
    | with_reducible refine Within.setTile ?_ (by decide +kernel)
    | with_reducible refine Within.each (fun _ _ _ => ?_) ?_
    | with_reducible refine Within.ite ?_ ?_
    | split
    | dsimp only


/-- What `Chip.levelDone` may change. -/
def Chip.levelDone_fx : Fx := .union [Chip.changeLevel_fx, Chip.trainNow_fx, .of [.pwr] []]
theorem Chip.levelDone_in {X : Fx} {b0 c : Chip} {t : Nat} (hW : Within X b0 c) (hX : Fx.le Chip.levelDone_fx X = true) : Within X b0 (Chip.levelDone c t) := by
  refine hW.trans (Within.mono hX ?_)
  unfold Chip.levelDone
  try dsimp only
  repeat' first
    | with_reducible assumption
    | with_reducible exact .refl _ _
    | with_reducible refine Chip.changeLevel_in ?_ (by decide +kernel)
    | with_reducible refine Chip.trainNow_in ?_ (by decide +kernel)
    | with_reducible refine Within.setPwr ?_ (by decide +kernel)
    | with_reducible refine Within.setTile ?_ (by decide +kernel)
    | with_reducible refine Within.each (fun _ _ _ => ?_) ?_
    | with_reducible refine Within.ite ?_ ?_
    | split
    | dsimp only


/-- What `Chip.levelLower` may change. -/
def Chip.levelLower_fx : Fx := Chip.changeLevel_fx
theorem Chip.levelLower_in {X : Fx} {b0 c : Chip} {t : Nat} (hW : Within X b0 c) (hX : Fx.le Chip.levelLower_fx X = true) : Within X b0 (Chip.levelLower c t) := by
  refine hW.trans (Within.mono hX ?_)
  unfold Chip.levelLower
  try dsimp only
  repeat' first
    | with_reducible assumption
    | with_reducible exact .refl _ _
    | with_reducible refine Chip.changeLevel_in ?_ (by decide +kernel)
    | with_reducible refine Within.ite ?_ ?_
    | split
    | dsimp only


/-- What `Chip.writeTilePl` may change. -/
def Chip.writeTilePl_fx : Fx := .union [Chip.changeLevel_fx, Chip.tileRaised_fx, .of [] [.TILE_PL_MODE, .TILE_PL_SET]]
theorem Chip.writeTilePl_in {X : Fx} {b0 c : Chip} {t : Nat} {set : Bool} {v : Nat} (hW : Within X b0 c) (hX : Fx.le Chip.writeTilePl_fx X = true) : Within X b0 (Chip.writeTilePl c t set v).2 := by
  refine hW.trans (Within.mono hX ?_)
  unfold Chip.writeTilePl
  try dsimp only
  repeat' first
    | with_reducible assumption
    | with_reducible exact .refl _ _
    | with_reducible refine Chip.changeLevel_in ?_ (by decide +kernel)
    | with_reducible refine Chip.tileRaised_in ?_ (by decide +kernel)
    | with_reducible refine Within.wr ?_ (by decide +kernel)
    | with_reducible refine Within.ite ?_ ?_
    | split
    | dsimp only


end Sys2Proof.Machine
end

