-- ==== Sys2Proof/Laws/FrameBist.lean ====
section
/-!
SUPPORT. Frames of the operations of `Machine/Bist.lean`: which parts and objects each may change.
-/
set_option Elab.async false
namespace Sys2Proof.Machine

/-- What `Chip.setBlock` may change. -/
def Chip.setBlock_fx : Fx := .of [] [.BIST_STATE_PE, .BIST_STATE_QC, .BIST_STATE_TILE, .BIST_STATE_HLANE, .BIST_STATE_WL, .SCHED_QUAD_STATE]
theorem Chip.setBlock_in {X : Fx} {b0 c : Chip} {t : TestOn} {v : Nat} (hW : Within X b0 c) (hX : Fx.le Chip.setBlock_fx X = true) :
    Within X b0 (c.setBlock t v) := by
  refine hW.trans (Within.mono hX ?_)
  unfold Chip.setBlock TestOn.stateReg
  cases t
  all_goals first
    | exact .refl _ _
    | exact Within.wr (.refl _ _) (by decide +kernel)
    | exact Within.wrRow (.refl _ _) (by decide +kernel)

/-- What `Chip.markUnusable` may change. -/
def Chip.markUnusable_fx : Fx := .union [Chip.isolate_fx, Chip.laneEval_fx, Chip.peUnusable_fx, Chip.setBlock_fx, Chip.startWaiting_fx, Chip.wlFollow_fx, .of [.ev] [.QC_STATE]]
theorem Chip.markUnusable_in {X : Fx} {b0 c : Chip} {t : TestOn} (hW : Within X b0 c) (hX : Fx.le Chip.markUnusable_fx X = true) : Within X b0 (Chip.markUnusable c t) := by
  refine hW.trans (Within.mono hX ?_)
  unfold Chip.markUnusable
  try dsimp only
  repeat' first
    | with_reducible assumption
    | with_reducible exact .refl _ _
    | with_reducible refine Chip.isolate_in ?_ (by decide +kernel)
    | with_reducible refine Chip.laneEval_in ?_ (by decide +kernel)
    | with_reducible refine Chip.peUnusable_in ?_ (by decide +kernel)
    | with_reducible refine Chip.setBlock_in ?_ (by decide +kernel)
    | with_reducible refine Chip.startWaiting_in ?_ (by decide +kernel)
    | with_reducible refine Chip.wlFollow_in ?_ (by decide +kernel)
    | with_reducible refine Within.wr ?_ (by decide +kernel)
    | with_reducible refine Within.raise ?_ (by decide +kernel)
    | with_reducible refine Within.ite ?_ ?_
    | split
    | dsimp only


/-- Using a spare changes the self-test's counts. -/
theorem Chip.useRow_in {X : Fx} {b0 c : Chip} {key n k : Nat} (hW : Within X b0 c) (hX : (Fx.of [.bist] []).le X = true) :
    Within X b0 (match c.useRow key n with
      | some x => ((k, x) : Nat × Chip)
      | none => (0, c)).2 := by
  unfold Chip.useRow
  by_cases h : c.bist.rows.getD key 0 < n
  · simp only [h, if_true]; exact hW.upd_bist hX
  · simp only [h, if_false]; exact hW

/-- Using a spare changes the self-test's counts. -/
theorem Chip.useCol_in {X : Fx} {b0 c : Chip} {key n k : Nat} (hW : Within X b0 c) (hX : (Fx.of [.bist] []).le X = true) :
    Within X b0 (match c.useCol key n with
      | some x => ((k, x) : Nat × Chip)
      | none => (0, c)).2 := by
  unfold Chip.useCol
  by_cases h : c.bist.cols.getD key 0 < n
  · simp only [h, if_true]; exact hW.upd_bist hX
  · simp only [h, if_false]; exact hW

/-- What `Chip.mramLose` may change. -/
def Chip.mramLose_fx : Fx := .of [.draws, .nv] []
theorem Chip.mramLose_in {X : Fx} {b0 c : Chip} {w : Nat} (hW : Within X b0 c) (hX : Fx.le Chip.mramLose_fx X = true) : Within X b0 (Chip.mramLose c w) := by
  refine hW.trans (Within.mono hX ?_)
  unfold Chip.mramLose
  try dsimp only [Chip.fold_nv]
  repeat' first
    | with_reducible assumption
    | with_reducible exact .refl _ _
    | with_reducible refine Within.draw ?_ (by decide +kernel)
    | with_reducible refine Within.put_nv ?_ (by decide +kernel)
    | with_reducible refine Within.ite ?_ ?_
    | split
    | dsimp only


/-- What `Chip.repair` may change. -/
def Chip.repair_fx : Fx := .union [Chip.retire_fx, Chip.mramLose_fx, Chip.spareGone_fx, .of [.bist, .nv, .cal] []]
theorem Chip.repair_in {X : Fx} {b0 c : Chip} {t : TestOn} {f : Finding} (hW : Within X b0 c) (hX : Fx.le Chip.repair_fx X = true) :
    Within X b0 (c.repair t f).2 := by
  refine hW.trans (Within.mono hX ?_)
  unfold Chip.repair
  obtain ⟨place, _, _, col⟩ := f
  cases t <;> cases place <;> dsimp only
  all_goals try exact .refl _ _
  all_goals try exact Chip.useRow_in (.refl _ _) (by decide +kernel)
  all_goals split
  all_goals first
    | exact .refl _ _
    | exact Chip.useRow_in (.refl _ _) (by decide +kernel)
    | exact Chip.useCol_in (.refl _ _) (by decide +kernel)
    | exact Chip.retire_in (.refl _ _) (by decide +kernel)
    | with_reducible exact Within.setCal (.refl _ _) (by decide +kernel)
    | with_reducible exact Within.upd_nv (.refl _ _) (by decide +kernel)
    | with_reducible exact Chip.spareGone_in (X := Chip.repair_fx) (Within.setCal (.refl _ _) (by decide +kernel)) (by decide +kernel)
    | with_reducible exact Chip.mramLose_in (X := Chip.repair_fx) (.refl _ _) (by decide +kernel)
    | with_reducible exact Within.upd_nv (Chip.mramLose_in (X := Chip.repair_fx) (.refl _ _) (by decide +kernel)) (by decide +kernel)

/-- What `Chip.logRow` may change. -/
def Chip.logRow_fx : Fx := .union [Chip.repair_fx, .of [] [.BIST_LOG, .BIST_LOG_COUNT]]
theorem Chip.logRow_in {X : Fx} {b0 c : Chip} {t : TestOn} {result : Nat} {addr : Nat} {fbit : Nat} {cause : Nat} {repair : Nat} {flags : Nat} (hW : Within X b0 c) (hX : Fx.le Chip.logRow_fx X = true) : Within X b0 (Chip.logRow c t result addr fbit cause repair flags) := by
  refine hW.trans (Within.mono hX ?_)
  unfold Chip.logRow
  try dsimp only
  repeat' first
    | with_reducible assumption
    | with_reducible exact .refl _ _
    | with_reducible refine Chip.repair_in ?_ (by decide +kernel)
    | with_reducible refine Within.wrRow ?_ (by decide +kernel)
    | with_reducible refine Within.wrDev ?_ (by decide +kernel)
    | with_reducible refine Within.ite ?_ ?_
    | split
    | dsimp only


/-- What `Chip.repairAll` may change. -/
def Chip.repairAll_fx : Fx := Chip.repair_fx
theorem Chip.repairAll_in {X : Fx} {b0 c : Chip} {t : TestOn} {l : List Finding} (hW : Within X b0 c) (hX : Fx.le Chip.repairAll_fx X = true) : Within X b0 (Chip.repairAll c t l).2 := by
  refine hW.trans (Within.mono hX ?_)
  unfold Chip.repairAll
  try dsimp only
  repeat' first
    | with_reducible assumption
    | with_reducible exact .refl _ _
    | with_reducible refine Chip.repair_in ?_ (by decide +kernel)
    | with_reducible refine Within.foldl (fun _ _ _ => ?_) ?_
    | with_reducible refine Within.foldl1 (fun _ _ _ => ?_) ?_
    | with_reducible refine Within.fold (fun _ _ _ => ?_) ?_
    | with_reducible refine Within.ite ?_ ?_
    | split
    | dsimp only


/-- What `Chip.testResult` may change. -/
def Chip.testResult_fx : Fx := .union [Chip.logRow_fx, Chip.markUnusable_fx, Chip.repairAll_fx, Chip.setBlock_fx, .everyReg [.ev]]
theorem Chip.testResult_in {X : Fx} {b0 c : Chip} {t : TestOn} {e : TestEnd} {found : List Finding} {by_ : TestBy} (hW : Within X b0 c) (hX : Fx.le Chip.testResult_fx X = true) : Within X b0 (Chip.testResult c t e found by_).2 := by
  refine hW.trans (Within.mono hX ?_)
  unfold Chip.testResult
  try dsimp only
  repeat' first
    | with_reducible assumption
    | with_reducible exact .refl _ _
    | with_reducible refine Chip.logRow_in ?_ (by decide +kernel)
    | with_reducible refine Chip.markUnusable_in ?_ (by decide +kernel)
    | with_reducible refine Chip.repairAll_in ?_ (by decide +kernel)
    | with_reducible refine Chip.setBlock_in ?_ (by decide +kernel)
    | with_reducible refine Within.wrRow ?_ (Fx.reg_le _ (by decide +kernel))
    | with_reducible refine Within.wr ?_ (Fx.reg_le _ (by decide +kernel))
    | with_reducible refine Within.wrDev ?_ (Fx.reg_le _ (by decide +kernel))
    | with_reducible refine Within.inc ?_ (Fx.reg_le _ (by decide +kernel))
    | with_reducible refine Within.add ?_ (Fx.reg_le _ (by decide +kernel))
    | with_reducible refine Within.addRow ?_ (Fx.reg_le _ (by decide +kernel))
    | with_reducible refine Within.clr ?_ (Fx.reg_le _ (by decide +kernel))
    | with_reducible refine Within.wr ?_ (by decide +kernel)
    | with_reducible refine Within.raise ?_ (by decide +kernel)
    | with_reducible refine Within.each (fun _ _ _ => ?_) ?_
    | with_reducible refine Within.ite ?_ ?_
    | split
    | dsimp only


/-- What `Chip.waleDelays` may change. -/
def Chip.waleDelays_fx : Fx := .of [] [.CAL_WALE_DELAY]
theorem Chip.waleDelays_in {X : Fx} {b0 c : Chip} {t : TestOn} (hW : Within X b0 c) (hX : Fx.le Chip.waleDelays_fx X = true) : Within X b0 (Chip.waleDelays c t) := by
  refine hW.trans (Within.mono hX ?_)
  unfold Chip.waleDelays
  try dsimp only
  repeat' first
    | with_reducible assumption
    | with_reducible exact .refl _ _
    | with_reducible refine Within.wrRow ?_ (by decide +kernel)
    | with_reducible refine Within.ite ?_ ?_
    | split
    | dsimp only


/-- What `Chip.testDone` may change. -/
def Chip.testDone_fx : Fx := .union [Chip.testResult_fx, Chip.waleDelays_fx, .of [.bist] [.POST_SUMMARY]]
theorem Chip.testDone_in {X : Fx} {b0 c : Chip} {t : TestOn} {e : TestEnd} {found : List Finding} (hW : Within X b0 c) (hX : Fx.le Chip.testDone_fx X = true) : Within X b0 (Chip.testDone c t e found) := by
  refine hW.trans (Within.mono hX ?_)
  unfold Chip.testDone
  try dsimp only [Chip.fold_bist]
  repeat' first
    | with_reducible assumption
    | with_reducible exact .refl _ _
    | with_reducible refine Chip.testResult_in ?_ (by decide +kernel)
    | with_reducible refine Chip.waleDelays_in ?_ (by decide +kernel)
    | with_reducible refine Within.wrDev ?_ (by decide +kernel)
    | with_reducible refine Within.put_bist ?_ (by decide +kernel)
    | with_reducible refine Within.ite ?_ ?_
    | split
    | dsimp only


/-- What `Chip.sliceStart` may change. -/
def Chip.sliceStart_fx : Fx := .of [.bist, .buf] []
theorem Chip.sliceStart_in {X : Fx} {b0 c : Chip} {t : SliceOn} (hW : Within X b0 c) (hX : Fx.le Chip.sliceStart_fx X = true) : Within X b0 (Chip.sliceStart c t) := by
  refine hW.trans (Within.mono hX ?_)
  unfold Chip.sliceStart
  try dsimp only [Chip.fold_bist, Chip.fold_buf]
  repeat' first
    | with_reducible assumption
    | with_reducible exact .refl _ _
    | with_reducible refine Within.put_bist ?_ (by decide +kernel)
    | with_reducible refine Within.put_buf ?_ (by decide +kernel)
    | with_reducible refine Within.ite ?_ ?_
    | split
    | dsimp only


/-- What `Chip.sliceFree` may change. -/
def Chip.sliceFree_fx : Fx := .of [.bist, .buf] []
theorem Chip.sliceFree_in {X : Fx} {b0 c : Chip} {key : Nat} (hW : Within X b0 c) (hX : Fx.le Chip.sliceFree_fx X = true) : Within X b0 (Chip.sliceFree c key) := by
  refine hW.trans (Within.mono hX ?_)
  unfold Chip.sliceFree
  try dsimp only [Chip.fold_bist, Chip.fold_buf]
  repeat' first
    | with_reducible assumption
    | with_reducible exact .refl _ _
    | with_reducible refine Within.put_bist ?_ (by decide +kernel)
    | with_reducible refine Within.put_buf ?_ (by decide +kernel)
    | with_reducible refine Within.ite ?_ ?_
    | split
    | dsimp only


/-- What `Chip.sliceEnd` may change. -/
def Chip.sliceEnd_fx : Fx := .union [Chip.sliceFree_fx, Chip.testResult_fx, .of [.bist] [.BIST_INCOMPLETE_COUNT, .BIST_SLICE_COUNT]]
theorem Chip.sliceEnd_in {X : Fx} {b0 c : Chip} {t : SliceOn} {e : TestEnd} {found : List Finding} (hW : Within X b0 c) (hX : Fx.le Chip.sliceEnd_fx X = true) : Within X b0 (Chip.sliceEnd c t e found) := by
  refine hW.trans (Within.mono hX ?_)
  unfold Chip.sliceEnd
  try dsimp only [Chip.fold_bist]
  repeat' first
    | with_reducible assumption
    | with_reducible exact .refl _ _
    | with_reducible refine Chip.sliceFree_in ?_ (by decide +kernel)
    | with_reducible refine Chip.testResult_in ?_ (by decide +kernel)
    | with_reducible refine Within.inc ?_ (by decide +kernel)
    | with_reducible refine Within.put_bist ?_ (by decide +kernel)
    | with_reducible refine Within.ite ?_ ?_
    | split
    | dsimp only


/-- What `Chip.sliceQuiesce` may change. -/
def Chip.sliceQuiesce_fx : Fx := .union [Chip.sliceFree_fx, .of [] [.BIST_INCOMPLETE_COUNT]]
theorem Chip.sliceQuiesce_in {X : Fx} {b0 c : Chip} {tile : Option Nat} (hW : Within X b0 c) (hX : Fx.le Chip.sliceQuiesce_fx X = true) : Within X b0 (Chip.sliceQuiesce c tile) := by
  refine hW.trans (Within.mono hX ?_)
  unfold Chip.sliceQuiesce
  try dsimp only
  repeat' first
    | with_reducible assumption
    | with_reducible exact .refl _ _
    | with_reducible refine Chip.sliceFree_in ?_ (by decide +kernel)
    | with_reducible refine Within.inc ?_ (by decide +kernel)
    | with_reducible refine Within.each (fun _ _ _ => ?_) ?_
    | with_reducible refine Within.ite ?_ ?_
    | split
    | dsimp only


/-- What `Chip.writeBistRequest` may change. -/
def Chip.writeBistRequest_fx : Fx := .union [Chip.ancStops_fx, .of [.bist] []]
theorem Chip.writeBistRequest_in {X : Fx} {b0 c : Chip} {v : Nat} (hW : Within X b0 c) (hX : Fx.le Chip.writeBistRequest_fx X = true) : Within X b0 (Chip.writeBistRequest c v).2 := by
  refine hW.trans (Within.mono hX ?_)
  unfold Chip.writeBistRequest
  try dsimp only [Chip.fold_bist]
  repeat' first
    | with_reducible assumption
    | with_reducible exact .refl _ _
    | with_reducible refine Chip.ancStops_in ?_ (by decide +kernel)
    | with_reducible refine Within.put_bist ?_ (by decide +kernel)
    | with_reducible refine Within.ite ?_ ?_
    | split
    | dsimp only


/-- What `Chip.postStage` may change. -/
def Chip.postStage_fx : Fx := .of [.bist] [.POST_SUMMARY, .POST_TIME]
theorem Chip.postStage_in {X : Fx} {b0 c : Chip}  (hW : Within X b0 c) (hX : Fx.le Chip.postStage_fx X = true) : Within X b0 (Chip.postStage c).2 := by
  refine hW.trans (Within.mono hX ?_)
  unfold Chip.postStage
  try dsimp only [Chip.fold_bist]
  repeat' first
    | with_reducible assumption
    | with_reducible exact .refl _ _
    | with_reducible refine Within.wrDev ?_ (by decide +kernel)
    | with_reducible refine Within.setBit ?_ (by decide +kernel)
    | with_reducible refine Within.put_bist ?_ (by decide +kernel)
    | with_reducible refine Within.ite ?_ ?_
    | split
    | dsimp only


end Sys2Proof.Machine
end

