-- ==== Sys2Proof/Laws/FrameNvm.lean ====
section
/-!
SUPPORT. Frames of the operations of `Machine/Nvm.lean`: which parts and objects each may change.
-/
set_option Elab.async false
namespace Sys2Proof.Machine

/-- What `Chip.setOther` may change. -/
def Chip.setOther_fx : Fx := .of [.nv] []
theorem Chip.setOther_in {X : Fx} {b0 c : Chip} {f : ImageSlot → ImageSlot} (hW : Within X b0 c) (hX : Fx.le Chip.setOther_fx X = true) : Within X b0 (Chip.setOther c f) := by
  refine hW.trans (Within.mono hX ?_)
  unfold Chip.setOther
  try dsimp only [Chip.fold_nv]
  repeat' first
    | with_reducible assumption
    | with_reducible exact .refl _ _
    | with_reducible refine Within.put_nv ?_ (by decide +kernel)
    | with_reducible refine Within.ite ?_ ?_
    | split
    | dsimp only


end Sys2Proof.Machine
end

