-- ==== Sys2Proof/Laws/FramePower.lean ====
section
/-!
SUPPORT. Frames of the operations of `Machine/Power.lean`: which parts and objects each may change.
-/
set_option Elab.async false
namespace Sys2Proof.Machine

/-- What `Chip.quiesceBlock` may change. -/
def Chip.quiesceBlock_fx : Fx := .union [Chip.calQuiesce_fx, Chip.holdPort_fx, Chip.originateNext_fx, Chip.sliceQuiesce_fx, Chip.weaveCopy_fx, .of [.buf] []]
theorem Chip.quiesceBlock_in {X : Fx} {b0 c : Chip} {tile : Option Nat} {b : Nat} (hW : Within X b0 c) (hX : Fx.le Chip.quiesceBlock_fx X = true) : Within X b0 (Chip.quiesceBlock c tile b) := by
  refine hW.trans (Within.mono hX ?_)
  unfold Chip.quiesceBlock
  try dsimp only [Chip.fold_buf]
  repeat' first
    | with_reducible assumption
    | with_reducible exact .refl _ _
    | with_reducible refine Chip.calQuiesce_in ?_ (by decide +kernel)
    | with_reducible refine Chip.holdPort_in ?_ (by decide +kernel)
    | with_reducible refine Chip.originateNext_in ?_ (by decide +kernel)
    | with_reducible refine Chip.sliceQuiesce_in ?_ (by decide +kernel)
    | with_reducible refine Chip.weaveCopy_in ?_ (by decide +kernel)
    | with_reducible refine Within.put_buf ?_ (by decide +kernel)
    | with_reducible refine Within.each (fun _ _ _ => ?_) ?_
    | with_reducible refine Within.ite ?_ ?_
    | split
    | dsimp only


/-- What `Chip.resumeBlock` may change. -/
def Chip.resumeBlock_fx : Fx := .union [Chip.originateNext_fx, Chip.wakePort_fx]
theorem Chip.resumeBlock_in {X : Fx} {b0 c : Chip} {tile : Option Nat} {b : Nat} (hW : Within X b0 c) (hX : Fx.le Chip.resumeBlock_fx X = true) : Within X b0 (Chip.resumeBlock c tile b) := by
  refine hW.trans (Within.mono hX ?_)
  unfold Chip.resumeBlock
  try dsimp only
  repeat' first
    | with_reducible assumption
    | with_reducible exact .refl _ _
    | with_reducible refine Chip.originateNext_in ?_ (by decide +kernel)
    | with_reducible refine Chip.wakePort_in ?_ (by decide +kernel)
    | with_reducible refine Within.each (fun _ _ _ => ?_) ?_
    | with_reducible refine Within.ite ?_ ?_
    | split
    | dsimp only


/-- What `Chip.startWake` may change. -/
def Chip.startWake_fx : Fx := .of [.pwr] [.WAKE_CAUSE, .WAKE_STEP_FAIL]
theorem Chip.startWake_in {X : Fx} {b0 c : Chip} {cause : Nat} {step : WakeStep} (hW : Within X b0 c) (hX : Fx.le Chip.startWake_fx X = true) : Within X b0 (Chip.startWake c cause step) := by
  refine hW.trans (Within.mono hX ?_)
  unfold Chip.startWake
  try dsimp only
  repeat' first
    | with_reducible assumption
    | with_reducible exact .refl _ _
    | with_reducible refine Within.wrDev ?_ (by decide +kernel)
    | with_reducible refine Within.setPwr ?_ (by decide +kernel)
    | with_reducible refine Within.ite ?_ ?_
    | split
    | dsimp only


/-- What `Chip.startEntry` may change. -/
def Chip.startEntry_fx : Fx := .of [.pwr] []
theorem Chip.startEntry_in {X : Fx} {b0 c : Chip} {s : PwrState} {direct : Bool} (hW : Within X b0 c) (hX : Fx.le Chip.startEntry_fx X = true) : Within X b0 (Chip.startEntry c s direct) := by
  refine hW.trans (Within.mono hX ?_)
  unfold Chip.startEntry
  try dsimp only
  repeat' first
    | with_reducible assumption
    | with_reducible exact .refl _ _
    | with_reducible refine Within.setPwr ?_ (by decide +kernel)
    | with_reducible refine Within.ite ?_ ?_
    | split
    | dsimp only


/-- What `Chip.directEntry` may change. -/
def Chip.directEntry_fx : Fx := .union [Chip.cutPort_fx, Chip.sliceQuiesce_fx, Chip.startEntry_fx]
theorem Chip.directEntry_in {X : Fx} {b0 c : Chip} {s : PwrState} (hW : Within X b0 c) (hX : Fx.le Chip.directEntry_fx X = true) : Within X b0 (Chip.directEntry c s) := by
  refine hW.trans (Within.mono hX ?_)
  unfold Chip.directEntry
  try dsimp only
  repeat' first
    | with_reducible assumption
    | with_reducible exact .refl _ _
    | with_reducible refine Chip.cutPort_in ?_ (by decide +kernel)
    | with_reducible refine Chip.sliceQuiesce_in ?_ (by decide +kernel)
    | with_reducible refine Chip.startEntry_in ?_ (by decide +kernel)
    | with_reducible refine Within.each (fun _ _ _ => ?_) ?_
    | with_reducible refine Within.ite ?_ ?_
    | split
    | dsimp only


/-- What `Chip.keepRequest` may change. -/
def Chip.keepRequest_fx : Fx := .of [.pwr] []
theorem Chip.keepRequest_in {X : Fx} {b0 c : Chip} {s : PwrState} {direct : Bool} {cause : Nat} (hW : Within X b0 c) (hX : Fx.le Chip.keepRequest_fx X = true) : Within X b0 (Chip.keepRequest c s direct cause) := by
  refine hW.trans (Within.mono hX ?_)
  unfold Chip.keepRequest
  try dsimp only
  repeat' first
    | with_reducible assumption
    | with_reducible exact .refl _ _
    | with_reducible refine Within.setPwr ?_ (by decide +kernel)
    | with_reducible refine Within.ite ?_ ?_
    | split
    | dsimp only


/-- What `Chip.requestState` may change. -/
def Chip.requestState_fx : Fx := .union [Chip.directEntry_fx, Chip.keepRequest_fx, Chip.startEntry_fx, Chip.startWake_fx, .of [.pwr] []]
theorem Chip.requestState_in {X : Fx} {b0 c : Chip} {s : PwrState} {cause : Nat} (hW : Within X b0 c) (hX : Fx.le Chip.requestState_fx X = true) : Within X b0 (Chip.requestState c s cause) := by
  refine hW.trans (Within.mono hX ?_)
  unfold Chip.requestState
  try dsimp only
  repeat' first
    | with_reducible assumption
    | with_reducible exact .refl _ _
    | with_reducible refine Chip.directEntry_in ?_ (by decide +kernel)
    | with_reducible refine Chip.keepRequest_in ?_ (by decide +kernel)
    | with_reducible refine Chip.startEntry_in ?_ (by decide +kernel)
    | with_reducible refine Chip.startWake_in ?_ (by decide +kernel)
    | with_reducible refine Within.setPwr ?_ (by decide +kernel)
    | with_reducible refine Within.ite ?_ ?_
    | split
    | dsimp only


/-- What `Chip.writeDirect` may change. -/
def Chip.writeDirect_fx : Fx := .union [Chip.directEntry_fx, Chip.keepRequest_fx, Chip.startWake_fx]
theorem Chip.writeDirect_in {X : Fx} {b0 c : Chip} {s : PwrState} (hW : Within X b0 c) (hX : Fx.le Chip.writeDirect_fx X = true) : Within X b0 (Chip.writeDirect c s).2 := by
  refine hW.trans (Within.mono hX ?_)
  unfold Chip.writeDirect
  try dsimp only
  repeat' first
    | with_reducible assumption
    | with_reducible exact .refl _ _
    | with_reducible refine Chip.directEntry_in ?_ (by decide +kernel)
    | with_reducible refine Chip.keepRequest_in ?_ (by decide +kernel)
    | with_reducible refine Chip.startWake_in ?_ (by decide +kernel)
    | with_reducible refine Within.ite ?_ ?_
    | split
    | dsimp only


/-- What `Chip.carryDevice` may change. -/
def Chip.carryDevice_fx : Fx := .union [Chip.directEntry_fx, Chip.requestState_fx, .of [.pwr] []]
theorem Chip.carryDevice_in {X : Fx} {b0 c : Chip}  (hW : Within X b0 c) (hX : Fx.le Chip.carryDevice_fx X = true) : Within X b0 (Chip.carryDevice c) := by
  refine hW.trans (Within.mono hX ?_)
  unfold Chip.carryDevice
  try dsimp only
  repeat' first
    | with_reducible assumption
    | with_reducible exact .refl _ _
    | with_reducible refine Chip.directEntry_in ?_ (by decide +kernel)
    | with_reducible refine Chip.requestState_in ?_ (by decide +kernel)
    | with_reducible refine Within.setPwr ?_ (by decide +kernel)
    | with_reducible refine Within.ite ?_ ?_
    | split
    | dsimp only


/-- What `Chip.tileStart` may change. -/
def Chip.tileStart_fx : Fx := .union [Chip.sliceQuiesce_fx, .of [.pwr] []]
theorem Chip.tileStart_in {X : Fx} {b0 c : Chip} {t : Nat} {s : TileState} (hW : Within X b0 c) (hX : Fx.le Chip.tileStart_fx X = true) : Within X b0 (Chip.tileStart c t s) := by
  refine hW.trans (Within.mono hX ?_)
  unfold Chip.tileStart
  try dsimp only
  repeat' first
    | with_reducible assumption
    | with_reducible exact .refl _ _
    | with_reducible refine Chip.sliceQuiesce_in ?_ (by decide +kernel)
    | with_reducible refine Within.setTile ?_ (by decide +kernel)
    | with_reducible refine Within.ite ?_ ?_
    | split
    | dsimp only


/-- What `Chip.writeTileRequest` may change. -/
def Chip.writeTileRequest_fx : Fx := .union [Chip.tileStart_fx, .of [.pwr] []]
theorem Chip.writeTileRequest_in {X : Fx} {b0 c : Chip} {t : Nat} {s : TileState} (hW : Within X b0 c) (hX : Fx.le Chip.writeTileRequest_fx X = true) : Within X b0 (Chip.writeTileRequest c t s).2 := by
  refine hW.trans (Within.mono hX ?_)
  unfold Chip.writeTileRequest
  try dsimp only
  repeat' first
    | with_reducible assumption
    | with_reducible exact .refl _ _
    | with_reducible refine Chip.tileStart_in ?_ (by decide +kernel)
    | with_reducible refine Within.setTile ?_ (by decide +kernel)
    | with_reducible refine Within.ite ?_ ?_
    | split
    | dsimp only


/-- What `Chip.carryTile` may change. -/
def Chip.carryTile_fx : Fx := .union [Chip.tileStart_fx, .of [.pwr] []]
theorem Chip.carryTile_in {X : Fx} {b0 c : Chip} {t : Nat} (hW : Within X b0 c) (hX : Fx.le Chip.carryTile_fx X = true) : Within X b0 (Chip.carryTile c t) := by
  refine hW.trans (Within.mono hX ?_)
  unfold Chip.carryTile
  try dsimp only
  repeat' first
    | with_reducible assumption
    | with_reducible exact .refl _ _
    | with_reducible refine Chip.tileStart_in ?_ (by decide +kernel)
    | with_reducible refine Within.setTile ?_ (by decide +kernel)
    | with_reducible refine Within.ite ?_ ?_
    | split
    | dsimp only


/-- What `Chip.carryTiles` may change. -/
def Chip.carryTiles_fx : Fx := Chip.carryTile_fx
theorem Chip.carryTiles_in {X : Fx} {b0 c : Chip}  (hW : Within X b0 c) (hX : Fx.le Chip.carryTiles_fx X = true) : Within X b0 (Chip.carryTiles c) := by
  refine hW.trans (Within.mono hX ?_)
  unfold Chip.carryTiles
  try dsimp only
  repeat' first
    | with_reducible assumption
    | with_reducible exact .refl _ _
    | with_reducible refine Chip.carryTile_in ?_ (by decide +kernel)
    | with_reducible refine Within.each (fun _ _ _ => ?_) ?_
    | with_reducible refine Within.ite ?_ ?_
    | split
    | dsimp only


/-- What `Chip.refuse` may change. -/
def Chip.refuse_fx : Fx := .union [Chip.carryDevice_fx, Chip.carryTile_fx, Chip.carryTiles_fx, Chip.resumeBlock_fx, .of [.ev, .pwr] [.PWR_REFUSE, .PWR_REFUSE_COUNT]]
theorem Chip.refuse_in {X : Fx} {b0 c : Chip} {tile : Option Nat} {b : Nat} {reason : Nat} (hW : Within X b0 c) (hX : Fx.le Chip.refuse_fx X = true) : Within X b0 (Chip.refuse c tile b reason) := by
  refine hW.trans (Within.mono hX ?_)
  unfold Chip.refuse
  try dsimp only
  repeat' first
    | with_reducible assumption
    | with_reducible exact .refl _ _
    | with_reducible refine Chip.carryDevice_in ?_ (by decide +kernel)
    | with_reducible refine Chip.carryTile_in ?_ (by decide +kernel)
    | with_reducible refine Chip.carryTiles_in ?_ (by decide +kernel)
    | with_reducible refine Chip.resumeBlock_in ?_ (by decide +kernel)
    | with_reducible refine Within.wrDev ?_ (by decide +kernel)
    | with_reducible refine Within.inc ?_ (by decide +kernel)
    | with_reducible refine Within.setPwr ?_ (by decide +kernel)
    | with_reducible refine Within.setTile ?_ (by decide +kernel)
    | with_reducible refine Within.raise ?_ (by decide +kernel)
    | with_reducible refine Within.each (fun _ _ _ => ?_) ?_
    | with_reducible refine Within.ite ?_ ?_
    | split
    | dsimp only


/-- What `Chip.handshakeAnswer` may change. -/
def Chip.handshakeAnswer_fx : Fx := .union [Chip.quiesceBlock_fx, Chip.refuse_fx, Chip.startEntry_fx, .of [.pwr] []]
theorem Chip.handshakeAnswer_in {X : Fx} {b0 c : Chip} {tile : Option Nat} {b : Nat} (hW : Within X b0 c) (hX : Fx.le Chip.handshakeAnswer_fx X = true) : Within X b0 (Chip.handshakeAnswer c tile b) := by
  refine hW.trans (Within.mono hX ?_)
  unfold Chip.handshakeAnswer
  try dsimp only
  repeat' first
    | with_reducible assumption
    | with_reducible exact .refl _ _
    | with_reducible refine Chip.quiesceBlock_in ?_ (by decide +kernel)
    | with_reducible refine Chip.refuse_in ?_ (by decide +kernel)
    | with_reducible refine Chip.startEntry_in ?_ (by decide +kernel)
    | with_reducible refine Within.setPwr ?_ (by decide +kernel)
    | with_reducible refine Within.setTile ?_ (by decide +kernel)
    | with_reducible refine Within.ite ?_ ?_
    | split
    | dsimp only


/-- What `Chip.handshakeBound` may change. -/
def Chip.handshakeBound_fx : Fx := .union [Chip.refuse_fx, .of [.ev] []]
theorem Chip.handshakeBound_in {X : Fx} {b0 c : Chip} {tile : Option Nat} {b : Nat} (hW : Within X b0 c) (hX : Fx.le Chip.handshakeBound_fx X = true) : Within X b0 (Chip.handshakeBound c tile b) := by
  refine hW.trans (Within.mono hX ?_)
  unfold Chip.handshakeBound
  try dsimp only
  repeat' first
    | with_reducible assumption
    | with_reducible exact .refl _ _
    | with_reducible refine Chip.refuse_in ?_ (by decide +kernel)
    | with_reducible refine Within.raise ?_ (by decide +kernel)
    | with_reducible refine Within.ite ?_ ?_
    | split
    | dsimp only


/-- What `Chip.tilesDown` may change. -/
def Chip.tilesDown_fx : Fx := .union [Chip.holdPort_fx, .of [.pwr] []]
theorem Chip.tilesDown_in {X : Fx} {b0 c : Chip}  (hW : Within X b0 c) (hX : Fx.le Chip.tilesDown_fx X = true) : Within X b0 (Chip.tilesDown c) := by
  refine hW.trans (Within.mono hX ?_)
  unfold Chip.tilesDown
  try dsimp only
  repeat' first
    | with_reducible assumption
    | with_reducible exact .refl _ _
    | with_reducible refine Chip.holdPort_in ?_ (by decide +kernel)
    | with_reducible refine Within.setTile ?_ (by decide +kernel)
    | with_reducible refine Within.each (fun _ _ _ => ?_) ?_
    | with_reducible refine Within.ite ?_ ?_
    | split
    | dsimp only


/-- What `Chip.lanesStop` may change. -/
def Chip.lanesStop_fx : Fx := .of [.hlane] [.HL_STATUS]
theorem Chip.lanesStop_in {X : Fx} {b0 c : Chip}  (hW : Within X b0 c) (hX : Fx.le Chip.lanesStop_fx X = true) : Within X b0 (Chip.lanesStop c) := by
  refine hW.trans (Within.mono hX ?_)
  unfold Chip.lanesStop
  try dsimp only
  repeat' first
    | with_reducible assumption
    | with_reducible exact .refl _ _
    | with_reducible refine Within.wr ?_ (by decide +kernel)
    | with_reducible refine Within.setLane ?_ (by decide +kernel)
    | with_reducible refine Within.each (fun _ _ _ => ?_) ?_
    | with_reducible refine Within.ite ?_ ?_
    | split
    | dsimp only


/-- What `Chip.mgmtStop` may change. -/
def Chip.mgmtStop_fx : Fx := .of [] [.MGMT_STATUS]
theorem Chip.mgmtStop_in {X : Fx} {b0 c : Chip}  (hW : Within X b0 c) (hX : Fx.le Chip.mgmtStop_fx X = true) : Within X b0 (Chip.mgmtStop c) := by
  refine hW.trans (Within.mono hX ?_)
  unfold Chip.mgmtStop
  try dsimp only
  repeat' first
    | with_reducible assumption
    | with_reducible exact .refl _ _
    | with_reducible refine Within.wr ?_ (by decide +kernel)
    | with_reducible refine Within.ite ?_ ?_
    | split
    | dsimp only


/-- What `Chip.coreSwitched` may change. -/
def Chip.coreSwitched_fx : Fx := .of [.pwr] []
theorem Chip.coreSwitched_in {X : Fx} {b0 c : Chip}  (hW : Within X b0 c) (hX : Fx.le Chip.coreSwitched_fx X = true) : Within X b0 (Chip.coreSwitched c) := by
  refine hW.trans (Within.mono hX ?_)
  unfold Chip.coreSwitched
  try dsimp only
  repeat' first
    | with_reducible assumption
    | with_reducible exact .refl _ _
    | with_reducible refine Within.setPwr ?_ (by decide +kernel)
    | with_reducible refine Within.ite ?_ ?_
    | split
    | dsimp only


/-- What `Chip.clocksStop` may change. -/
def Chip.clocksStop_fx : Fx := .union [Chip.coreSwitched_fx, Chip.lanesStop_fx, Chip.mgmtStop_fx, Chip.wlStopAll_fx, .of [.pwr] []]
theorem Chip.clocksStop_in {X : Fx} {b0 c : Chip}  (hW : Within X b0 c) (hX : Fx.le Chip.clocksStop_fx X = true) : Within X b0 (Chip.clocksStop c) := by
  refine hW.trans (Within.mono hX ?_)
  unfold Chip.clocksStop
  try dsimp only
  repeat' first
    | with_reducible assumption
    | with_reducible exact .refl _ _
    | with_reducible refine Chip.coreSwitched_in ?_ (by decide +kernel)
    | with_reducible refine Chip.lanesStop_in ?_ (by decide +kernel)
    | with_reducible refine Chip.mgmtStop_in ?_ (by decide +kernel)
    | with_reducible refine Chip.wlStopAll_in ?_ (by decide +kernel)
    | with_reducible refine Within.setPwr ?_ (by decide +kernel)
    | with_reducible refine Within.ite ?_ ?_
    | split
    | dsimp only


/-- What `Chip.loseAll` may change: everything but the non-volatile memory and the count of free values. -/
def Chip.loseAll_fx : Fx := .everyReg [.held, .access, .root, .tb, .ev, .pwr, .ports, .pes, .anc, .diag, .host, .hlane, .time, .sched,
  .queues, .frameNo, .flowSh, .svcSh, .portSh, .meters, .buf, .wale, .dap, .cal, .bist, .boot, .cfg]
theorem Chip.loseAll_in {X : Fx} {b0 c : Chip} (hW : Within X b0 c) (hX : Fx.le Chip.loseAll_fx X = true) : Within X b0 c.loseAll := by
  refine hW.trans (Within.mono hX ⟨fun p hp => ?_, fun k hk => ?_⟩)
  · cases p
    case nv => rfl
    case draws => rfl
    all_goals exact absurd hp (by decide +kernel)
  · simp only [Fx.hasReg, Chip.loseAll_fx, Fx.everyReg, Nat.testBit_two_pow_sub_one, k.reg.idx_lt, decide_true] at hk
    exact absurd hk (by decide)

/-- What `Chip.deviceEntered` may change. -/
def Chip.deviceEntered_fx : Fx := .union [Chip.carryDevice_fx, Chip.clocksStop_fx, Chip.loseAll_fx, Chip.tilesDown_fx, .of [.host, .pwr] [.PWR_TRANSITION_COUNT]]
theorem Chip.deviceEntered_in {X : Fx} {b0 c : Chip}  (hW : Within X b0 c) (hX : Fx.le Chip.deviceEntered_fx X = true) : Within X b0 (Chip.deviceEntered c) := by
  refine hW.trans (Within.mono hX ?_)
  unfold Chip.deviceEntered
  try dsimp only
  repeat' first
    | with_reducible assumption
    | with_reducible exact .refl _ _
    | with_reducible refine Chip.carryDevice_in ?_ (by decide +kernel)
    | with_reducible refine Chip.clocksStop_in ?_ (by decide +kernel)
    | with_reducible refine Chip.loseAll_in ?_ (by decide +kernel)
    | with_reducible refine Chip.tilesDown_in ?_ (by decide +kernel)
    | with_reducible refine Within.inc ?_ (by decide +kernel)
    | with_reducible refine Within.setHost ?_ (by decide +kernel)
    | with_reducible refine Within.setPwr ?_ (by decide +kernel)
    | with_reducible refine Within.each (fun _ _ _ => ?_) ?_
    | with_reducible refine Within.ite ?_ ?_
    | split
    | dsimp only


/-- What `Chip.tileEntered` may change. -/
def Chip.tileEntered_fx : Fx := .union [Chip.carryTile_fx, Chip.holdPort_fx, .of [.pwr] []]
theorem Chip.tileEntered_in {X : Fx} {b0 c : Chip} {t : Nat} (hW : Within X b0 c) (hX : Fx.le Chip.tileEntered_fx X = true) : Within X b0 (Chip.tileEntered c t) := by
  refine hW.trans (Within.mono hX ?_)
  unfold Chip.tileEntered
  try dsimp only
  repeat' first
    | with_reducible assumption
    | with_reducible exact .refl _ _
    | with_reducible refine Chip.carryTile_in ?_ (by decide +kernel)
    | with_reducible refine Chip.holdPort_in ?_ (by decide +kernel)
    | with_reducible refine Within.setTile ?_ (by decide +kernel)
    | with_reducible refine Within.each (fun _ _ _ => ?_) ?_
    | with_reducible refine Within.ite ?_ ?_
    | split
    | dsimp only


/-- What `Chip.groupsGo` may change. -/
def Chip.groupsGo_fx : Fx := .union [Chip.carryDevice_fx, Chip.carryTiles_fx, .of [.pwr] [.WAKE_TIME, .PWR_TRANSITION_COUNT]]
theorem Chip.groupsGo_in {X : Fx} {b0 c : Chip} {us n : Nat} (hW : Within X b0 c) (hX : Fx.le Chip.groupsGo_fx X = true) :
    Within X b0 (c.groupsGo us n) := by
  refine hW.trans (Within.mono hX ?_)
  clear hW
  induction n generalizing c with
  | zero => exact .refl _ _
  | succ n ih =>
    unfold Chip.groupsGo
    split
    · split
      · split
        · with_reducible refine Within.trans ?_ ih
          exact Within.setPwr (.refl _ _) (by decide +kernel)
        · dsimp only
          with_reducible refine Chip.carryTiles_in ?_ (by decide +kernel)
          with_reducible refine Chip.carryDevice_in ?_ (by decide +kernel)
          with_reducible refine Within.inc ?_ (by decide +kernel)
          with_reducible refine Within.wrDev ?_ (by decide +kernel)
          exact Within.setPwr (.refl _ _) (by decide +kernel)
      · exact .refl _ _
    · exact .refl _ _

/-- What `Chip.rootReturn` may change. -/
def Chip.rootReturn_fx : Fx := .union [Chip.servoRestart_fx, .of [.pwr] [.FRO_FREQ]]
theorem Chip.rootReturn_in {X : Fx} {b0 c : Chip} {kHz : Nat} (hW : Within X b0 c) (hX : Fx.le Chip.rootReturn_fx X = true) : Within X b0 (Chip.rootReturn c kHz) := by
  refine hW.trans (Within.mono hX ?_)
  unfold Chip.rootReturn
  try dsimp only
  repeat' first
    | with_reducible assumption
    | with_reducible exact .refl _ _
    | with_reducible refine Chip.servoRestart_in ?_ (by decide +kernel)
    | with_reducible refine Within.wrDev ?_ (by decide +kernel)
    | with_reducible refine Within.setPwr ?_ (by decide +kernel)
    | with_reducible refine Within.ite ?_ ?_
    | split
    | dsimp only


/-- What `Chip.relocked` may change. -/
def Chip.relocked_fx : Fx := .union [Chip.carryDevice_fx, Chip.carryTiles_fx, Chip.coreSwitched_fx, Chip.rootReturn_fx, Chip.wakePort_fx, .of [.pwr] []]
theorem Chip.relocked_in {X : Fx} {b0 c : Chip} {kHz : Nat} (hW : Within X b0 c) (hX : Fx.le Chip.relocked_fx X = true) : Within X b0 (Chip.relocked c kHz) := by
  refine hW.trans (Within.mono hX ?_)
  unfold Chip.relocked
  try dsimp only
  repeat' first
    | with_reducible assumption
    | with_reducible exact .refl _ _
    | with_reducible refine Chip.carryDevice_in ?_ (by decide +kernel)
    | with_reducible refine Chip.carryTiles_in ?_ (by decide +kernel)
    | with_reducible refine Chip.coreSwitched_in ?_ (by decide +kernel)
    | with_reducible refine Chip.rootReturn_in ?_ (by decide +kernel)
    | with_reducible refine Chip.wakePort_in ?_ (by decide +kernel)
    | with_reducible refine Within.setPwr ?_ (by decide +kernel)
    | with_reducible refine Within.each (fun _ _ _ => ?_) ?_
    | with_reducible refine Within.ite ?_ ?_
    | split
    | dsimp only


/-- What `Chip.deviceStepDone` may change. -/
def Chip.deviceStepDone_fx : Fx := .union [Chip.coreSwitched_fx, Chip.groupsGo_fx, Chip.relocked_fx, Chip.rootReturn_fx, Chip.wakePort_fx, Chip.wlStartAll_fx, .of [.pwr] []]
theorem Chip.deviceStepDone_in {X : Fx} {b0 c : Chip} {us : Nat} {kHz : Nat} (hW : Within X b0 c) (hX : Fx.le Chip.deviceStepDone_fx X = true) : Within X b0 (Chip.deviceStepDone c us kHz) := by
  refine hW.trans (Within.mono hX ?_)
  unfold Chip.deviceStepDone
  try dsimp only
  repeat' first
    | with_reducible assumption
    | with_reducible exact .refl _ _
    | with_reducible refine Chip.coreSwitched_in ?_ (by decide +kernel)
    | with_reducible refine Chip.groupsGo_in ?_ (by decide +kernel)
    | with_reducible refine Chip.relocked_in ?_ (by decide +kernel)
    | with_reducible refine Chip.rootReturn_in ?_ (by decide +kernel)
    | with_reducible refine Chip.wakePort_in ?_ (by decide +kernel)
    | with_reducible refine Chip.wlStartAll_in ?_ (by decide +kernel)
    | with_reducible refine Within.setPwr ?_ (by decide +kernel)
    | with_reducible refine Within.each (fun _ _ _ => ?_) ?_
    | with_reducible refine Within.ite ?_ ?_
    | split
    | dsimp only


/-- What `Chip.tileStepDone` may change. -/
def Chip.tileStepDone_fx : Fx := .union [Chip.carryTile_fx, Chip.groupsGo_fx, Chip.tileRun_fx]
theorem Chip.tileStepDone_in {X : Fx} {b0 c : Chip} {t : Nat} {us : Nat} (hW : Within X b0 c) (hX : Fx.le Chip.tileStepDone_fx X = true) : Within X b0 (Chip.tileStepDone c t us) := by
  refine hW.trans (Within.mono hX ?_)
  unfold Chip.tileStepDone
  try dsimp only
  repeat' first
    | with_reducible assumption
    | with_reducible exact .refl _ _
    | with_reducible refine Chip.carryTile_in ?_ (by decide +kernel)
    | with_reducible refine Chip.groupsGo_in ?_ (by decide +kernel)
    | with_reducible refine Chip.tileRun_in ?_ (by decide +kernel)
    | with_reducible refine Within.ite ?_ ?_
    | split
    | dsimp only


/-- What `Chip.wakeFaulted` may change. -/
def Chip.wakeFaulted_fx : Fx := .union [Chip.carryDevice_fx, Chip.lanesStop_fx, Chip.mgmtStop_fx, Chip.tilesDown_fx, Chip.wlStopAll_fx, .of [.ev, .pwr] [.PWR_TRANSITION_COUNT, .WAKE_TIME]]
theorem Chip.wakeFaulted_in {X : Fx} {b0 c : Chip} {us : Nat} (hW : Within X b0 c) (hX : Fx.le Chip.wakeFaulted_fx X = true) : Within X b0 (Chip.wakeFaulted c us) := by
  refine hW.trans (Within.mono hX ?_)
  unfold Chip.wakeFaulted
  try dsimp only
  repeat' first
    | with_reducible assumption
    | with_reducible exact .refl _ _
    | with_reducible refine Chip.carryDevice_in ?_ (by decide +kernel)
    | with_reducible refine Chip.lanesStop_in ?_ (by decide +kernel)
    | with_reducible refine Chip.mgmtStop_in ?_ (by decide +kernel)
    | with_reducible refine Chip.tilesDown_in ?_ (by decide +kernel)
    | with_reducible refine Chip.wlStopAll_in ?_ (by decide +kernel)
    | with_reducible refine Within.wrDev ?_ (by decide +kernel)
    | with_reducible refine Within.inc ?_ (by decide +kernel)
    | with_reducible refine Within.setPwr ?_ (by decide +kernel)
    | with_reducible refine Within.raise ?_ (by decide +kernel)
    | with_reducible refine Within.ite ?_ ?_
    | split
    | dsimp only


/-- What `Chip.deviceStepFail` may change. -/
def Chip.deviceStepFail_fx : Fx := .union [Chip.wakeFaulted_fx, .of [.pwr] [.WAKE_STEP_FAIL]]
theorem Chip.deviceStepFail_in {X : Fx} {b0 c : Chip} {us : Nat} (hW : Within X b0 c) (hX : Fx.le Chip.deviceStepFail_fx X = true) : Within X b0 (Chip.deviceStepFail c us) := by
  refine hW.trans (Within.mono hX ?_)
  unfold Chip.deviceStepFail
  try dsimp only
  repeat' first
    | with_reducible assumption
    | with_reducible exact .refl _ _
    | with_reducible refine Chip.wakeFaulted_in ?_ (by decide +kernel)
    | with_reducible refine Within.wrDev ?_ (by decide +kernel)
    | with_reducible refine Within.setPwr ?_ (by decide +kernel)
    | with_reducible refine Within.ite ?_ ?_
    | split
    | dsimp only


/-- What `Chip.tileStepFail` may change. -/
def Chip.tileStepFail_fx : Fx := .union [Chip.groupsGo_fx, Chip.regFailed_fx, .of [.pwr] [.TILE_REG_FAIL_COUNT, .WAKE_STEP_FAIL]]
theorem Chip.tileStepFail_in {X : Fx} {b0 c : Chip} {t : Nat} {us : Nat} (hW : Within X b0 c) (hX : Fx.le Chip.tileStepFail_fx X = true) : Within X b0 (Chip.tileStepFail c t us) := by
  refine hW.trans (Within.mono hX ?_)
  unfold Chip.tileStepFail
  try dsimp only
  repeat' first
    | with_reducible assumption
    | with_reducible exact .refl _ _
    | with_reducible refine Chip.groupsGo_in ?_ (by decide +kernel)
    | with_reducible refine Chip.regFailed_in ?_ (by decide +kernel)
    | with_reducible refine Within.inc ?_ (by decide +kernel)
    | with_reducible refine Within.setBit ?_ (by decide +kernel)
    | with_reducible refine Within.setTile ?_ (by decide +kernel)
    | with_reducible refine Within.ite ?_ ?_
    | split
    | dsimp only


/-- What `Chip.wakeSource` may change. -/
def Chip.wakeSource_fx : Fx := .union [Chip.keepRequest_fx, Chip.startWake_fx, Chip.tileStart_fx]
theorem Chip.wakeSource_in {X : Fx} {b0 c : Chip} {k : WakeKind} (hW : Within X b0 c) (hX : Fx.le Chip.wakeSource_fx X = true) : Within X b0 (Chip.wakeSource c k) := by
  refine hW.trans (Within.mono hX ?_)
  unfold Chip.wakeSource
  try dsimp only
  repeat' first
    | with_reducible assumption
    | with_reducible exact .refl _ _
    | with_reducible refine Chip.keepRequest_in ?_ (by decide +kernel)
    | with_reducible refine Chip.startWake_in ?_ (by decide +kernel)
    | with_reducible refine Chip.tileStart_in ?_ (by decide +kernel)
    | with_reducible refine Within.ite ?_ ?_
    | split
    | dsimp only


/-- What `Chip.rootLost` may change. -/
def Chip.rootLost_fx : Fx := .union [Chip.holdPort_fx, Chip.mgmtStop_fx, .of [.pwr] []]
theorem Chip.rootLost_in {X : Fx} {b0 c : Chip} {reference : Bool} (hW : Within X b0 c) (hX : Fx.le Chip.rootLost_fx X = true) : Within X b0 (Chip.rootLost c reference) := by
  refine hW.trans (Within.mono hX ?_)
  unfold Chip.rootLost
  try dsimp only
  repeat' first
    | with_reducible assumption
    | with_reducible exact .refl _ _
    | with_reducible refine Chip.holdPort_in ?_ (by decide +kernel)
    | with_reducible refine Chip.mgmtStop_in ?_ (by decide +kernel)
    | with_reducible refine Within.setPwr ?_ (by decide +kernel)
    | with_reducible refine Within.each (fun _ _ _ => ?_) ?_
    | with_reducible refine Within.ite ?_ ?_
    | split
    | dsimp only


/-- What `Chip.writeLegacyGate` may change. -/
def Chip.writeLegacyGate_fx : Fx := .of [] [.LEGACY_GATE]
theorem Chip.writeLegacyGate_in {X : Fx} {b0 c : Chip} {v : Nat} (hW : Within X b0 c) (hX : Fx.le Chip.writeLegacyGate_fx X = true) : Within X b0 (Chip.writeLegacyGate c v).2 := by
  refine hW.trans (Within.mono hX ?_)
  unfold Chip.writeLegacyGate
  try dsimp only
  repeat' first
    | with_reducible assumption
    | with_reducible exact .refl _ _
    | with_reducible refine Within.wrDev ?_ (by decide +kernel)
    | with_reducible refine Within.ite ?_ ?_
    | split
    | dsimp only


/-- What `Chip.switchForced` may change. -/
def Chip.switchForced_fx : Fx := .of [.ev, .pwr] [.CLKSW_FORCED_COUNT]
theorem Chip.switchForced_in {X : Fx} {b0 c : Chip} {d : Nat} (hW : Within X b0 c) (hX : Fx.le Chip.switchForced_fx X = true) : Within X b0 (Chip.switchForced c d) := by
  refine hW.trans (Within.mono hX ?_)
  unfold Chip.switchForced
  try dsimp only
  repeat' first
    | with_reducible assumption
    | with_reducible exact .refl _ _
    | with_reducible refine Within.inc ?_ (by decide +kernel)
    | with_reducible refine Within.setPwr ?_ (by decide +kernel)
    | with_reducible refine Within.raise ?_ (by decide +kernel)
    | with_reducible refine Within.ite ?_ ?_
    | split
    | dsimp only


/-- What `Chip.refreshTemp` may change. -/
def Chip.refreshTemp_fx : Fx := .of [] [.PE_STORE_STATUS]
theorem Chip.refreshTemp_in {X : Fx} {b0 c : Chip} {t : Nat} {temp : Int} (hW : Within X b0 c) (hX : Fx.le Chip.refreshTemp_fx X = true) : Within X b0 (Chip.refreshTemp c t temp) := by
  refine hW.trans (Within.mono hX ?_)
  unfold Chip.refreshTemp
  try dsimp only
  repeat' first
    | with_reducible assumption
    | with_reducible exact .refl _ _
    | with_reducible refine Within.setBit ?_ (by decide +kernel)
    | with_reducible refine Within.each (fun _ _ _ => ?_) ?_
    | with_reducible refine Within.ite ?_ ?_
    | split
    | dsimp only


/-- What `Chip.thermSample` may change. -/
def Chip.thermSample_fx : Fx := .union [Chip.refreshTemp_fx, .of [.ev] [.LID_TEMP, .MON_STATUS, .TEMP_PEAK, .TILE_CORE_V, .TILE_POWER, .TILE_TEMP]]
theorem Chip.thermSample_in {X : Fx} {b0 c : Chip} {t : Nat} {temp : Int} {lid : Int} {mv : Nat} {mw : Nat} (hW : Within X b0 c) (hX : Fx.le Chip.thermSample_fx X = true) : Within X b0 (Chip.thermSample c t temp lid mv mw) := by
  refine hW.trans (Within.mono hX ?_)
  unfold Chip.thermSample
  try dsimp only
  repeat' first
    | with_reducible assumption
    | with_reducible exact .refl _ _
    | with_reducible refine Chip.refreshTemp_in ?_ (by decide +kernel)
    | with_reducible refine Within.wr ?_ (by decide +kernel)
    | with_reducible refine Within.wrInt ?_ (by decide +kernel)
    | with_reducible refine Within.setBit ?_ (by decide +kernel)
    | with_reducible refine Within.raise ?_ (by decide +kernel)
    | with_reducible refine Within.ite ?_ ?_
    | split
    | dsimp only


/-- What `Chip.vinMonitor` may change. -/
def Chip.vinMonitor_fx : Fx := .of [.ev] [.MON_STATUS, .VIN_CURRENT, .VIN_POWER, .VIN_VOLTAGE]
theorem Chip.vinMonitor_in {X : Fx} {b0 c : Chip} {mv : Nat} {ma : Nat} {mw : Nat} (hW : Within X b0 c) (hX : Fx.le Chip.vinMonitor_fx X = true) : Within X b0 (Chip.vinMonitor c mv ma mw) := by
  refine hW.trans (Within.mono hX ?_)
  unfold Chip.vinMonitor
  try dsimp only
  repeat' first
    | with_reducible assumption
    | with_reducible exact .refl _ _
    | with_reducible refine Within.wrDev ?_ (by decide +kernel)
    | with_reducible refine Within.setBit ?_ (by decide +kernel)
    | with_reducible refine Within.raise ?_ (by decide +kernel)
    | with_reducible refine Within.ite ?_ ?_
    | split
    | dsimp only


end Sys2Proof.Machine
end

