-- ==== Sys2Proof/Laws/FrameView.lean ====
section
/-!
SUPPORT. Frames of the operations of `Machine/View.lean`: which parts and objects each may change.
-/
set_option Elab.async false
namespace Sys2Proof.Machine

/-- What `Chip.hold` may change. -/
def Chip.hold_fx : Fx := .of [.held] []
theorem Chip.hold_in {X : Fx} {b0 c : Chip} {r : Reg} {i : Nat} {row : Nat} (hW : Within X b0 c) (hX : Fx.le Chip.hold_fx X = true) : Within X b0 (Chip.hold c r i row) := by
  refine hW.trans (Within.mono hX ?_)
  unfold Chip.hold
  try dsimp only [Chip.fold_held]
  repeat' first
    | with_reducible assumption
    | with_reducible exact .refl _ _
    | with_reducible refine Within.put_held ?_ (by decide +kernel)
    | with_reducible refine Within.ite ?_ ?_
    | split
    | dsimp only


/-- What `Chip.snapshot` may change. -/
def Chip.snapshot_fx : Fx := .union [Chip.hold_fx, .everyReg []]
theorem Chip.snapshot_in {X : Fx} {b0 c : Chip} {k : Cls} {i : Nat} (hW : Within X b0 c) (hX : Fx.le Chip.snapshot_fx X = true) : Within X b0 (Chip.snapshot c k i) := by
  refine hW.trans (Within.mono hX ?_)
  unfold Chip.snapshot
  try dsimp only
  repeat' first
    | with_reducible assumption
    | with_reducible exact .refl _ _
    | with_reducible refine Chip.hold_in ?_ (by decide +kernel)
    | with_reducible refine Within.wrRow ?_ (Fx.reg_le _ (by decide +kernel))
    | with_reducible refine Within.wr ?_ (Fx.reg_le _ (by decide +kernel))
    | with_reducible refine Within.wrDev ?_ (Fx.reg_le _ (by decide +kernel))
    | with_reducible refine Within.inc ?_ (Fx.reg_le _ (by decide +kernel))
    | with_reducible refine Within.add ?_ (Fx.reg_le _ (by decide +kernel))
    | with_reducible refine Within.addRow ?_ (Fx.reg_le _ (by decide +kernel))
    | with_reducible refine Within.clr ?_ (Fx.reg_le _ (by decide +kernel))
    | with_reducible refine Within.wr ?_ (by decide +kernel)
    | with_reducible refine Within.each (fun _ _ _ => ?_) ?_
    | with_reducible refine Within.ite ?_ ?_
    | split
    | dsimp only


end Sys2Proof.Machine
end

