-- ==== Sys2Proof/Laws/FrameBase.lean ====
section
/-!
SUPPORT. Frames of the operations of `Machine/Base.lean`: which parts and objects each may change.
-/
set_option Elab.async false
namespace Sys2Proof.Machine

/-- What `Chip.laneTestSet` may change. -/
def Chip.laneTestSet_fx : Fx := .of [] [.HL_STATUS]
theorem Chip.laneTestSet_in {X : Fx} {b0 c : Chip} {h : Nat} (hW : Within X b0 c) (hX : Fx.le Chip.laneTestSet_fx X = true) : Within X b0 (Chip.laneTestSet c h) := by
  refine hW.trans (Within.mono hX ?_)
  unfold Chip.laneTestSet
  try dsimp only
  repeat' first
    | with_reducible assumption
    | with_reducible exact .refl _ _
    | with_reducible refine Within.setBit ?_ (by decide +kernel)
    | with_reducible refine Within.ite ?_ ?_
    | split
    | dsimp only


/-- What `Chip.afterStore` may change. -/
def Chip.afterStore_fx : Fx := .union [Chip.laneEval_fx, Chip.laneTestSet_fx, Chip.lpiReplan_fx, Chip.overflowDrain_fx, .of [] [.HL_PRBS_ERR, .MGMT_STATUS]]
theorem Chip.afterStore_in {X : Fx} {b0 c : Chip} {r : Reg} {i : Nat} {v : Nat} (hW : Within X b0 c) (hX : Fx.le Chip.afterStore_fx X = true) : Within X b0 (Chip.afterStore c r i v) := by
  refine hW.trans (Within.mono hX ?_)
  unfold Chip.afterStore
  try dsimp only
  repeat' first
    | with_reducible assumption
    | with_reducible exact .refl _ _
    | with_reducible refine Chip.laneEval_in ?_ (by decide +kernel)
    | with_reducible refine Chip.laneTestSet_in ?_ (by decide +kernel)
    | with_reducible refine Chip.lpiReplan_in ?_ (by decide +kernel)
    | with_reducible refine Chip.overflowDrain_in ?_ (by decide +kernel)
    | with_reducible refine Within.wr ?_ (by decide +kernel)
    | with_reducible refine Within.setBit ?_ (by decide +kernel)
    | with_reducible refine Within.ite ?_ ?_
    | split
    | dsimp only


/-- What `Chip.store` may change. -/
def Chip.store_fx : Fx := .union [Chip.afterStore_fx, .everyReg []]
theorem Chip.store_in {X : Fx} {b0 c : Chip} {r : Reg} {i : Nat} {row : Nat} {v : Nat} (hW : Within X b0 c) (hX : Fx.le Chip.store_fx X = true) : Within X b0 (Chip.store c r i row v).2 := by
  refine hW.trans (Within.mono hX ?_)
  unfold Chip.store
  try dsimp only
  repeat' first
    | with_reducible assumption
    | with_reducible exact .refl _ _
    | with_reducible refine Chip.afterStore_in ?_ (by decide +kernel)
    | with_reducible refine Within.wrRow ?_ (Fx.reg_le _ (by decide +kernel))
    | with_reducible refine Within.wr ?_ (Fx.reg_le _ (by decide +kernel))
    | with_reducible refine Within.wrDev ?_ (Fx.reg_le _ (by decide +kernel))
    | with_reducible refine Within.inc ?_ (Fx.reg_le _ (by decide +kernel))
    | with_reducible refine Within.add ?_ (Fx.reg_le _ (by decide +kernel))
    | with_reducible refine Within.addRow ?_ (Fx.reg_le _ (by decide +kernel))
    | with_reducible refine Within.clr ?_ (Fx.reg_le _ (by decide +kernel))
    | with_reducible refine Within.wrRow ?_ (by decide +kernel)
    | with_reducible refine Within.ite ?_ ?_
    | split
    | dsimp only


/-- What `Chip.clearStatus` may change. -/
def Chip.clearStatus_fx : Fx := .everyReg []
theorem Chip.clearStatus_in {X : Fx} {b0 c : Chip} {r : Reg} {i : Nat} {v : Nat} (hW : Within X b0 c) (hX : Fx.le Chip.clearStatus_fx X = true) : Within X b0 (Chip.clearStatus c r i v).2 := by
  refine hW.trans (Within.mono hX ?_)
  unfold Chip.clearStatus
  try dsimp only
  repeat' first
    | with_reducible assumption
    | with_reducible exact .refl _ _
    | with_reducible refine Within.wrRow ?_ (Fx.reg_le _ (by decide +kernel))
    | with_reducible refine Within.wr ?_ (Fx.reg_le _ (by decide +kernel))
    | with_reducible refine Within.wrDev ?_ (Fx.reg_le _ (by decide +kernel))
    | with_reducible refine Within.inc ?_ (Fx.reg_le _ (by decide +kernel))
    | with_reducible refine Within.add ?_ (Fx.reg_le _ (by decide +kernel))
    | with_reducible refine Within.addRow ?_ (Fx.reg_le _ (by decide +kernel))
    | with_reducible refine Within.clr ?_ (Fx.reg_le _ (by decide +kernel))
    | with_reducible refine Within.wr ?_ (by decide +kernel)
    | with_reducible refine Within.ite ?_ ?_
    | split
    | dsimp only


/-- What `Chip.writePower` may change. -/
def Chip.writePower_fx : Fx := .union [Chip.requestState_fx, Chip.writeDirect_fx]
theorem Chip.writePower_in {X : Fx} {b0 c : Chip} {direct : Bool} {v : Nat} (hW : Within X b0 c) (hX : Fx.le Chip.writePower_fx X = true) : Within X b0 (Chip.writePower c direct v).2 := by
  refine hW.trans (Within.mono hX ?_)
  unfold Chip.writePower
  try dsimp only
  repeat' first
    | with_reducible assumption
    | with_reducible exact .refl _ _
    | with_reducible refine Chip.requestState_in ?_ (by decide +kernel)
    | with_reducible refine Chip.writeDirect_in ?_ (by decide +kernel)
    | with_reducible refine Within.ite ?_ ?_
    | split
    | dsimp only


/-- What `Chip.writeTile` may change. -/
def Chip.writeTile_fx : Fx := Chip.writeTileRequest_fx
theorem Chip.writeTile_in {X : Fx} {b0 c : Chip} {t : Nat} {v : Nat} (hW : Within X b0 c) (hX : Fx.le Chip.writeTile_fx X = true) : Within X b0 (Chip.writeTile c t v).2 := by
  refine hW.trans (Within.mono hX ?_)
  unfold Chip.writeTile
  try dsimp only
  repeat' first
    | with_reducible assumption
    | with_reducible exact .refl _ _
    | with_reducible refine Chip.writeTileRequest_in ?_ (by decide +kernel)
    | with_reducible refine Within.ite ?_ ?_
    | split
    | dsimp only


/-- What `Chip.writeSnapshot` may change. -/
def Chip.writeSnapshot_fx : Fx := Chip.snapshot_fx
theorem Chip.writeSnapshot_in {X : Fx} {b0 c : Chip} {k : Cls} {i : Nat} {v : Nat} (hW : Within X b0 c) (hX : Fx.le Chip.writeSnapshot_fx X = true) : Within X b0 (Chip.writeSnapshot c k i v).2 := by
  refine hW.trans (Within.mono hX ?_)
  unfold Chip.writeSnapshot
  try dsimp only
  repeat' first
    | with_reducible assumption
    | with_reducible exact .refl _ _
    | with_reducible refine Chip.snapshot_in ?_ (by decide +kernel)
    | with_reducible refine Within.ite ?_ ?_
    | split
    | dsimp only


/-- What `Chip.writeBase` may change. -/
def Chip.writeBase_fx : Fx := .all
theorem Chip.writeBase_in {X : Fx} {b0 c : Chip} {st : Stepper} {r : Reg} {i : Nat} {row : Nat} {v : Nat} (hW : Within X b0 c) (hX : Fx.le Chip.writeBase_fx X = true) : Within X b0 (Chip.writeBase c st r i row v).2 := by
  refine hW.trans (Within.mono hX ?_)
  exact Within.all _ _


end Sys2Proof.Machine
end

