-- ==== Sys2Proof/Laws/FrameCfg.lean ====
section
/-!
SUPPORT. Frames of the operations of `Machine/Cfg.lean`: which parts and objects each may change.
-/
set_option Elab.async false
namespace Sys2Proof.Machine

/-- What `Chip.blank` may change. -/
def Chip.blank_fx : Fx := .all
theorem Chip.blank_in {X : Fx} {b0 c : Chip}  (hW : Within X b0 c) (hX : Fx.le Chip.blank_fx X = true) : Within X b0 (Chip.blank c) := by
  refine hW.trans (Within.mono hX ?_)
  exact Within.all _ _


/-- What `Chip.judged` may change. -/
def Chip.judged_fx : Fx := .union [Chip.setSlot_fx, .everyReg []]
theorem Chip.judged_in {X : Fx} {b0 c : Chip} {x : Key × Nat} (hW : Within X b0 c) (hX : Fx.le Chip.judged_fx X = true) : Within X b0 (Chip.judged c x) := by
  refine hW.trans (Within.mono hX ?_)
  unfold Chip.judged
  try dsimp only
  repeat' first
    | with_reducible assumption
    | with_reducible exact .refl _ _
    | with_reducible refine Chip.setSlot_in ?_ (by decide +kernel)
    | with_reducible refine Within.wrRow ?_ (Fx.reg_le _ (by decide +kernel))
    | with_reducible refine Within.wr ?_ (Fx.reg_le _ (by decide +kernel))
    | with_reducible refine Within.wrDev ?_ (Fx.reg_le _ (by decide +kernel))
    | with_reducible refine Within.inc ?_ (Fx.reg_le _ (by decide +kernel))
    | with_reducible refine Within.add ?_ (Fx.reg_le _ (by decide +kernel))
    | with_reducible refine Within.addRow ?_ (Fx.reg_le _ (by decide +kernel))
    | with_reducible refine Within.clr ?_ (Fx.reg_le _ (by decide +kernel))
    | with_reducible refine Within.wrRow ?_ (by decide +kernel)
    | with_reducible refine Within.ite ?_ ?_
    | split
    | dsimp only


/-- What `Chip.withValues` may change. -/
def Chip.withValues_fx : Fx := .union [Chip.blank_fx, Chip.judged_fx]
theorem Chip.withValues_in {X : Fx} {b0 c : Chip} {l : List (Key × Nat)} (hW : Within X b0 c) (hX : Fx.le Chip.withValues_fx X = true) : Within X b0 (Chip.withValues c l) := by
  refine hW.trans (Within.mono hX ?_)
  unfold Chip.withValues
  try dsimp only
  repeat' first
    | with_reducible assumption
    | with_reducible exact .refl _ _
    | with_reducible refine Chip.blank_in ?_ (by decide +kernel)
    | with_reducible refine Chip.judged_in ?_ (by decide +kernel)
    | with_reducible refine Within.each (fun _ _ _ => ?_) ?_
    | with_reducible refine Within.ite ?_ ?_
    | split
    | dsimp only


/-- What `Chip.applyCell` may change. -/
def Chip.applyCell_fx : Fx := .all
theorem Chip.applyCell_in {X : Fx} {b0 c : Chip} {st : Stepper} {k : Key} {v : Nat} (hW : Within X b0 c) (hX : Fx.le Chip.applyCell_fx X = true) : Within X b0 (Chip.applyCell c st k v) := by
  refine hW.trans (Within.mono hX ?_)
  exact Within.all _ _


/-- What `Chip.applyKey` may change. -/
def Chip.applyKey_fx : Fx := .all
theorem Chip.applyKey_in {X : Fx} {b0 c : Chip} {st : Stepper} {named : List (Key × Nat)} {new : Chip} {k : Key} (hW : Within X b0 c) (hX : Fx.le Chip.applyKey_fx X = true) : Within X b0 (Chip.applyKey c st named new k) := by
  refine hW.trans (Within.mono hX ?_)
  exact Within.all _ _


/-- What `Chip.applyPinned` may change. -/
def Chip.applyPinned_fx : Fx := .union [Chip.emptySlot_fx, Chip.fillSlot_fx]
theorem Chip.applyPinned_in {X : Fx} {b0 c : Chip} {new : List (Nat × Nat × Nat)} (hW : Within X b0 c) (hX : Fx.le Chip.applyPinned_fx X = true) : Within X b0 (Chip.applyPinned c new) := by
  refine hW.trans (Within.mono hX ?_)
  unfold Chip.applyPinned
  try dsimp only
  repeat' first
    | with_reducible assumption
    | with_reducible exact .refl _ _
    | with_reducible refine Chip.emptySlot_in ?_ (by decide +kernel)
    | with_reducible refine Chip.fillSlot_in ?_ (by decide +kernel)
    | with_reducible refine Within.each (fun _ _ _ => ?_) ?_
    | with_reducible refine Within.ite ?_ ?_
    | split
    | dsimp only


/-- What `Chip.applyBlocks` may change. -/
def Chip.applyBlocks_fx : Fx := .union [Chip.dropQueued_fx, Chip.renumber_fx, .of [] [.Q_BLOCKS, .Q_BLOCK_OWNER]]
theorem Chip.applyBlocks_in {X : Fx} {b0 c : Chip} {new : Chip} (hW : Within X b0 c) (hX : Fx.le Chip.applyBlocks_fx X = true) : Within X b0 (Chip.applyBlocks c new) := by
  refine hW.trans (Within.mono hX ?_)
  unfold Chip.applyBlocks
  try dsimp only
  repeat' first
    | with_reducible assumption
    | with_reducible exact .refl _ _
    | with_reducible refine Chip.dropQueued_in ?_ (by decide +kernel)
    | with_reducible refine Chip.renumber_in ?_ (by decide +kernel)
    | with_reducible refine Within.wrRow ?_ (by decide +kernel)
    | with_reducible refine Within.each (fun _ _ _ => ?_) ?_
    | with_reducible refine Within.ite ?_ ?_
    | split
    | dsimp only


/-- What `Chip.applyValues` may change. -/
def Chip.applyValues_fx : Fx := .all
theorem Chip.applyValues_in {X : Fx} {b0 c : Chip} {st : Stepper} {l : List (Key × Nat)} (hW : Within X b0 c) (hX : Fx.le Chip.applyValues_fx X = true) : Within X b0 (Chip.applyValues c st l) := by
  refine hW.trans (Within.mono hX ?_)
  exact Within.all _ _


/-- What `Chip.unstage` may change. -/
def Chip.unstage_fx : Fx := .of [.cfg] [.CFG_CHECK_RESULT]
theorem Chip.unstage_in {X : Fx} {b0 c : Chip}  (hW : Within X b0 c) (hX : Fx.le Chip.unstage_fx X = true) : Within X b0 (Chip.unstage c) := by
  refine hW.trans (Within.mono hX ?_)
  unfold Chip.unstage
  try dsimp only [Chip.fold_cfg]
  repeat' first
    | with_reducible assumption
    | with_reducible exact .refl _ _
    | with_reducible refine Within.wrDev ?_ (by decide +kernel)
    | with_reducible refine Within.put_cfg ?_ (by decide +kernel)
    | with_reducible refine Within.ite ?_ ?_
    | split
    | dsimp only


/-- What `Chip.setCandidate` may change. -/
def Chip.setCandidate_fx : Fx := .union [Chip.unstage_fx, .of [.nv] []]
theorem Chip.setCandidate_in {X : Fx} {b0 c : Chip} {s : CfgSlot} (hW : Within X b0 c) (hX : Fx.le Chip.setCandidate_fx X = true) : Within X b0 (Chip.setCandidate c s) := by
  refine hW.trans (Within.mono hX ?_)
  unfold Chip.setCandidate
  try dsimp only [Chip.fold_nv]
  repeat' first
    | with_reducible assumption
    | with_reducible exact .refl _ _
    | with_reducible refine Chip.unstage_in ?_ (by decide +kernel)
    | with_reducible refine Within.put_nv ?_ (by decide +kernel)
    | with_reducible refine Within.ite ?_ ?_
    | split
    | dsimp only


/-- What `Chip.writeCandidate` may change. -/
def Chip.writeCandidate_fx : Fx := Chip.setCandidate_fx
theorem Chip.writeCandidate_in {X : Fx} {b0 c : Chip} {row : Nat} {v : Nat} (hW : Within X b0 c) (hX : Fx.le Chip.writeCandidate_fx X = true) : Within X b0 (Chip.writeCandidate c row v).2 := by
  refine hW.trans (Within.mono hX ?_)
  unfold Chip.writeCandidate
  try dsimp only
  repeat' first
    | with_reducible assumption
    | with_reducible exact .refl _ _
    | with_reducible refine Chip.setCandidate_in ?_ (by decide +kernel)
    | with_reducible refine Within.ite ?_ ?_
    | split
    | dsimp only


/-- What `Chip.captureImage` may change. -/
def Chip.captureImage_fx : Fx := .of [.draws] []
theorem Chip.captureImage_in {X : Fx} {b0 c : Chip}  (hW : Within X b0 c) (hX : Fx.le Chip.captureImage_fx X = true) : Within X b0 (Chip.captureImage c).2 := by
  refine hW.trans (Within.mono hX ?_)
  unfold Chip.captureImage
  try dsimp only
  repeat' first
    | with_reducible assumption
    | with_reducible exact .refl _ _
    | with_reducible refine Within.draw ?_ (by decide +kernel)
    | with_reducible refine Within.ite ?_ ?_
    | split
    | dsimp only


/-- What `Chip.writeCapture'` may change. -/
def Chip.writeCapture'_fx : Fx := .union [Chip.captureImage_fx, Chip.setCandidate_fx]
theorem Chip.writeCapture'_in {X : Fx} {b0 c : Chip} {v : Nat} (hW : Within X b0 c) (hX : Fx.le Chip.writeCapture'_fx X = true) : Within X b0 (Chip.writeCapture' c v).2 := by
  refine hW.trans (Within.mono hX ?_)
  unfold Chip.writeCapture'
  try dsimp only
  repeat' first
    | with_reducible assumption
    | with_reducible exact .refl _ _
    | with_reducible refine Chip.captureImage_in ?_ (by decide +kernel)
    | with_reducible refine Chip.setCandidate_in ?_ (by decide +kernel)
    | with_reducible refine Within.ite ?_ ?_
    | split
    | dsimp only


/-- What `Chip.writeLoadFactory` may change. -/
def Chip.writeLoadFactory_fx : Fx := Chip.setCandidate_fx
theorem Chip.writeLoadFactory_in {X : Fx} {b0 c : Chip} {v : Nat} (hW : Within X b0 c) (hX : Fx.le Chip.writeLoadFactory_fx X = true) : Within X b0 (Chip.writeLoadFactory c v).2 := by
  refine hW.trans (Within.mono hX ?_)
  unfold Chip.writeLoadFactory
  try dsimp only
  repeat' first
    | with_reducible assumption
    | with_reducible exact .refl _ _
    | with_reducible refine Chip.setCandidate_in ?_ (by decide +kernel)
    | with_reducible refine Within.ite ?_ ?_
    | split
    | dsimp only


/-- What `Chip.writeCfgCheck` may change. -/
def Chip.writeCfgCheck_fx : Fx := .union [Chip.unstage_fx, .of [.cfg] [.CFG_CHECK_RESULT]]
theorem Chip.writeCfgCheck_in {X : Fx} {b0 c : Chip} {v : Nat} (hW : Within X b0 c) (hX : Fx.le Chip.writeCfgCheck_fx X = true) : Within X b0 (Chip.writeCfgCheck c v).2 := by
  refine hW.trans (Within.mono hX ?_)
  unfold Chip.writeCfgCheck
  try dsimp only [Chip.fold_cfg]
  repeat' first
    | with_reducible assumption
    | with_reducible exact .refl _ _
    | with_reducible refine Chip.unstage_in ?_ (by decide +kernel)
    | with_reducible refine Within.wrDev ?_ (by decide +kernel)
    | with_reducible refine Within.put_cfg ?_ (by decide +kernel)
    | with_reducible refine Within.ite ?_ ?_
    | split
    | dsimp only


/-- What `Chip.setReason` may change. -/
def Chip.setReason_fx : Fx := .of [] [.CFG_COMMIT_DETAIL, .CFG_COMMIT_REASON]
theorem Chip.setReason_in {X : Fx} {b0 c : Chip} {reason : Nat} {detail : Nat} (hW : Within X b0 c) (hX : Fx.le Chip.setReason_fx X = true) : Within X b0 (Chip.setReason c reason detail) := by
  refine hW.trans (Within.mono hX ?_)
  unfold Chip.setReason
  try dsimp only
  repeat' first
    | with_reducible assumption
    | with_reducible exact .refl _ _
    | with_reducible refine Within.wrDev ?_ (by decide +kernel)
    | with_reducible refine Within.ite ?_ ?_
    | split
    | dsimp only


/-- What `Chip.cfgCheckDone` may change. -/
def Chip.cfgCheckDone_fx : Fx := .union [Chip.setReason_fx, .of [.cfg] [.CFG_CHECK_RESULT]]
theorem Chip.cfgCheckDone_in {X : Fx} {b0 c : Chip}  (hW : Within X b0 c) (hX : Fx.le Chip.cfgCheckDone_fx X = true) : Within X b0 (Chip.cfgCheckDone c) := by
  refine hW.trans (Within.mono hX ?_)
  unfold Chip.cfgCheckDone
  try dsimp only [Chip.fold_cfg]
  repeat' first
    | with_reducible assumption
    | with_reducible exact .refl _ _
    | with_reducible refine Chip.setReason_in ?_ (by decide +kernel)
    | with_reducible refine Within.wrDev ?_ (by decide +kernel)
    | with_reducible refine Within.put_cfg ?_ (by decide +kernel)
    | with_reducible refine Within.ite ?_ ?_
    | split
    | dsimp only


/-- What `Chip.endPending` may change. -/
def Chip.endPending_fx : Fx := .of [.cfg] []
theorem Chip.endPending_in {X : Fx} {b0 c : Chip}  (hW : Within X b0 c) (hX : Fx.le Chip.endPending_fx X = true) : Within X b0 (Chip.endPending c) := by
  refine hW.trans (Within.mono hX ?_)
  unfold Chip.endPending
  try dsimp only [Chip.fold_cfg]
  repeat' first
    | with_reducible assumption
    | with_reducible exact .refl _ _
    | with_reducible refine Within.put_cfg ?_ (by decide +kernel)
    | with_reducible refine Within.ite ?_ ?_
    | split
    | dsimp only


/-- What `Chip.takeStaged` may change. -/
def Chip.takeStaged_fx : Fx := .all
theorem Chip.takeStaged_in {X : Fx} {b0 c : Chip} {st : Stepper} {l : List (Key × Nat)} (hW : Within X b0 c) (hX : Fx.le Chip.takeStaged_fx X = true) : Within X b0 (Chip.takeStaged c st l) := by
  refine hW.trans (Within.mono hX ?_)
  exact Within.all _ _


/-- What `Chip.reportReserves` may change. -/
def Chip.reportReserves_fx : Fx := .of [] [.BUF_COMMIT_REASON]
theorem Chip.reportReserves_in {X : Fx} {b0 c : Chip}  (hW : Within X b0 c) (hX : Fx.le Chip.reportReserves_fx X = true) : Within X b0 (Chip.reportReserves c) := by
  refine hW.trans (Within.mono hX ?_)
  unfold Chip.reportReserves
  try dsimp only
  repeat' first
    | with_reducible assumption
    | with_reducible exact .refl _ _
    | with_reducible refine Within.wrDev ?_ (by decide +kernel)
    | with_reducible refine Within.ite ?_ ?_
    | split
    | dsimp only


/-- What `Chip.commit` may change. -/
def Chip.commit_fx : Fx := .all
theorem Chip.commit_in {X : Fx} {b0 c : Chip} {st : Stepper} (hW : Within X b0 c) (hX : Fx.le Chip.commit_fx X = true) : Within X b0 (Chip.commit c st).2 := by
  refine hW.trans (Within.mono hX ?_)
  exact Within.all _ _


/-- What `Chip.writeCommit` may change. -/
def Chip.writeCommit_fx : Fx := .all
theorem Chip.writeCommit_in {X : Fx} {b0 c : Chip} {st : Stepper} {v : Nat} (hW : Within X b0 c) (hX : Fx.le Chip.writeCommit_fx X = true) : Within X b0 (Chip.writeCommit c st v).2 := by
  refine hW.trans (Within.mono hX ?_)
  exact Within.all _ _


/-- What `Chip.tell` may change. -/
def Chip.tell_fx : Fx := Chip.outcome_fx
theorem Chip.tell_in {X : Fx} {b0 c : Chip} {poster : Nat} {tag : Nat} {state : Nat} {cause : Nat} (hW : Within X b0 c) (hX : Fx.le Chip.tell_fx X = true) : Within X b0 (Chip.tell c poster tag state cause) := by
  refine hW.trans (Within.mono hX ?_)
  unfold Chip.tell
  try dsimp only
  repeat' first
    | with_reducible assumption
    | with_reducible exact .refl _ _
    | with_reducible refine Chip.outcome_in ?_ (by decide +kernel)
    | with_reducible refine Within.ite ?_ ?_
    | split
    | dsimp only


/-- What `Chip.tellPoster` may change. -/
def Chip.tellPoster_fx : Fx := Chip.tell_fx
theorem Chip.tellPoster_in {X : Fx} {b0 c : Chip} {state : Nat} (hW : Within X b0 c) (hX : Fx.le Chip.tellPoster_fx X = true) : Within X b0 (Chip.tellPoster c state) := by
  refine hW.trans (Within.mono hX ?_)
  unfold Chip.tellPoster
  try dsimp only
  repeat' first
    | with_reducible assumption
    | with_reducible exact .refl _ _
    | with_reducible refine Chip.tell_in ?_ (by decide +kernel)
    | with_reducible refine Within.ite ?_ ?_
    | split
    | dsimp only


/-- What `Chip.writeConfirm` may change. -/
def Chip.writeConfirm_fx : Fx := .union [Chip.endPending_fx, Chip.tellPoster_fx, .of [.nv] []]
theorem Chip.writeConfirm_in {X : Fx} {b0 c : Chip} {v : Nat} (hW : Within X b0 c) (hX : Fx.le Chip.writeConfirm_fx X = true) : Within X b0 (Chip.writeConfirm c v).2 := by
  refine hW.trans (Within.mono hX ?_)
  unfold Chip.writeConfirm
  try dsimp only [Chip.fold_nv]
  repeat' first
    | with_reducible assumption
    | with_reducible exact .refl _ _
    | with_reducible refine Chip.endPending_in ?_ (by decide +kernel)
    | with_reducible refine Chip.tellPoster_in ?_ (by decide +kernel)
    | with_reducible refine Within.put_nv ?_ (by decide +kernel)
    | with_reducible refine Within.ite ?_ ?_
    | split
    | dsimp only


/-- What `Chip.slotsBack` may change. -/
def Chip.slotsBack_fx : Fx := .union [Chip.endPending_fx, Chip.unstage_fx, .of [.nv] []]
theorem Chip.slotsBack_in {X : Fx} {b0 c : Chip}  (hW : Within X b0 c) (hX : Fx.le Chip.slotsBack_fx X = true) : Within X b0 (Chip.slotsBack c) := by
  refine hW.trans (Within.mono hX ?_)
  unfold Chip.slotsBack
  try dsimp only [Chip.fold_nv]
  repeat' first
    | with_reducible assumption
    | with_reducible exact .refl _ _
    | with_reducible refine Chip.endPending_in ?_ (by decide +kernel)
    | with_reducible refine Chip.unstage_in ?_ (by decide +kernel)
    | with_reducible refine Within.put_nv ?_ (by decide +kernel)
    | with_reducible refine Within.ite ?_ ?_
    | split
    | dsimp only


/-- What `Chip.revertSlots` may change. -/
def Chip.revertSlots_fx : Fx := .union [Chip.slotsBack_fx, .of [.ev] [.CFG_REVERT_COUNT, .CFG_STATE]]
theorem Chip.revertSlots_in {X : Fx} {b0 c : Chip}  (hW : Within X b0 c) (hX : Fx.le Chip.revertSlots_fx X = true) : Within X b0 (Chip.revertSlots c) := by
  refine hW.trans (Within.mono hX ?_)
  unfold Chip.revertSlots
  try dsimp only
  repeat' first
    | with_reducible assumption
    | with_reducible exact .refl _ _
    | with_reducible refine Chip.slotsBack_in ?_ (by decide +kernel)
    | with_reducible refine Within.inc ?_ (by decide +kernel)
    | with_reducible refine Within.setBit ?_ (by decide +kernel)
    | with_reducible refine Within.raise ?_ (by decide +kernel)
    | with_reducible refine Within.ite ?_ ?_
    | split
    | dsimp only


/-- What `Chip.deadlineRevert` may change. -/
def Chip.deadlineRevert_fx : Fx := .all
theorem Chip.deadlineRevert_in {X : Fx} {b0 c : Chip} {st : Stepper} (hW : Within X b0 c) (hX : Fx.le Chip.deadlineRevert_fx X = true) : Within X b0 (Chip.deadlineRevert c st) := by
  refine hW.trans (Within.mono hX ?_)
  exact Within.all _ _


/-- What `Chip.cancelCommits` may change. -/
def Chip.cancelCommits_fx : Fx := .of [] [.TA_TABLE]
theorem Chip.cancelCommits_in {X : Fx} {b0 c : Chip}  (hW : Within X b0 c) (hX : Fx.le Chip.cancelCommits_fx X = true) : Within X b0 (Chip.cancelCommits c) := by
  refine hW.trans (Within.mono hX ?_)
  unfold Chip.cancelCommits
  try dsimp only
  repeat' first
    | with_reducible assumption
    | with_reducible exact .refl _ _
    | with_reducible refine Within.wrField ?_ (by decide +kernel)
    | with_reducible refine Within.each (fun _ _ _ => ?_) ?_
    | with_reducible refine Within.ite ?_ ?_
    | split
    | dsimp only


/-- What `Chip.writeRollback` may change. -/
def Chip.writeRollback_fx : Fx := .all
theorem Chip.writeRollback_in {X : Fx} {b0 c : Chip} {st : Stepper} {v : Nat} (hW : Within X b0 c) (hX : Fx.le Chip.writeRollback_fx X = true) : Within X b0 (Chip.writeRollback c st v).2 := by
  refine hW.trans (Within.mono hX ?_)
  exact Within.all _ _


end Sys2Proof.Machine
end

