-- ==== Sys2Proof/Laws/FrameTa.lean ====
section
/-!
SUPPORT. Frames of the operations of `Machine/Ta.lean`: which parts and objects each may change.
-/
set_option Elab.async false
namespace Sys2Proof.Machine

/-- What `Chip.writeTaCancel` may change. -/
def Chip.writeTaCancel_fx : Fx := .of [] [.TA_TABLE]
theorem Chip.writeTaCancel_in {X : Fx} {b0 c : Chip} {v : Nat} (hW : Within X b0 c) (hX : Fx.le Chip.writeTaCancel_fx X = true) : Within X b0 (Chip.writeTaCancel c v).2 := by
  refine hW.trans (Within.mono hX ?_)
  unfold Chip.writeTaCancel
  try dsimp only
  repeat' first
    | with_reducible assumption
    | with_reducible exact .refl _ _
    | with_reducible refine Within.wrField ?_ (by decide +kernel)
    | with_reducible refine Within.ite ?_ ?_
    | split
    | dsimp only


/-- What `Chip.taEffect` may change. -/
def Chip.taEffect_fx : Fx := .all
theorem Chip.taEffect_in {X : Fx} {b0 c : Chip} {st : Stepper} {view : Nat} {r : Reg} {i : Nat} {v : Nat} (hW : Within X b0 c) (hX : Fx.le Chip.taEffect_fx X = true) : Within X b0 (Chip.taEffect c st view r i v).2 := by
  refine hW.trans (Within.mono hX ?_)
  exact Within.all _ _


/-- What `Chip.taRefuse` may change. -/
def Chip.taRefuse_fx : Fx := .of [.ev] [.TA_REFUSED_COUNT, .TA_TABLE]
theorem Chip.taRefuse_in {X : Fx} {b0 c : Chip} {r : Nat} {cause : Nat} (hW : Within X b0 c) (hX : Fx.le Chip.taRefuse_fx X = true) : Within X b0 (Chip.taRefuse c r cause) := by
  refine hW.trans (Within.mono hX ?_)
  unfold Chip.taRefuse
  try dsimp only
  repeat' first
    | with_reducible assumption
    | with_reducible exact .refl _ _
    | with_reducible refine Within.inc ?_ (by decide +kernel)
    | with_reducible refine Within.wrField ?_ (by decide +kernel)
    | with_reducible refine Within.raise ?_ (by decide +kernel)
    | with_reducible refine Within.ite ?_ ?_
    | split
    | dsimp only


/-- What `Chip.taTell` may change. -/
def Chip.taTell_fx : Fx := Chip.tell_fx
theorem Chip.taTell_in {X : Fx} {b0 c : Chip} {r : Nat} {state : Nat} {cause : Nat} (hW : Within X b0 c) (hX : Fx.le Chip.taTell_fx X = true) : Within X b0 (Chip.taTell c r state cause) := by
  refine hW.trans (Within.mono hX ?_)
  unfold Chip.taTell
  try dsimp only
  repeat' first
    | with_reducible assumption
    | with_reducible exact .refl _ _
    | with_reducible refine Chip.tell_in ?_ (by decide +kernel)
    | with_reducible refine Within.ite ?_ ?_
    | split
    | dsimp only


/-- What `Chip.taAct` may change. -/
def Chip.taAct_fx : Fx := .all
theorem Chip.taAct_in {X : Fx} {b0 c : Chip} {st : Stepper} {r : Nat} (hW : Within X b0 c) (hX : Fx.le Chip.taAct_fx X = true) : Within X b0 (Chip.taAct c st r).2 := by
  refine hW.trans (Within.mono hX ?_)
  exact Within.all _ _


/-- What `Chip.taRun` may change. -/
def Chip.taRun_fx : Fx := .all
theorem Chip.taRun_in {X : Fx} {b0 c : Chip} {st : Stepper} {r : Nat} {late : Bool} {stepped : Bool} (hW : Within X b0 c) (hX : Fx.le Chip.taRun_fx X = true) : Within X b0 (Chip.taRun c st r late stepped) := by
  refine hW.trans (Within.mono hX ?_)
  exact Within.all _ _


/-- What `Chip.taJudge` may change. -/
def Chip.taJudge_fx : Fx := .all
theorem Chip.taJudge_in {X : Fx} {b0 c : Chip} {st : Stepper} {r : Nat} (hW : Within X b0 c) (hX : Fx.le Chip.taJudge_fx X = true) : Within X b0 (Chip.taJudge c st r) := by
  refine hW.trans (Within.mono hX ?_)
  exact Within.all _ _


/-- What `Chip.taPassed` may change. -/
def Chip.taPassed_fx : Fx := .all
theorem Chip.taPassed_in {X : Fx} {b0 c : Chip} {st : Stepper} {r : Nat} (hW : Within X b0 c) (hX : Fx.le Chip.taPassed_fx X = true) : Within X b0 (Chip.taPassed c st r) := by
  refine hW.trans (Within.mono hX ?_)
  exact Within.all _ _


/-- What `Chip.taDue` may change. -/
def Chip.taDue_fx : Fx := .all
theorem Chip.taDue_in {X : Fx} {b0 c : Chip} {st : Stepper} {r : Nat} (hW : Within X b0 c) (hX : Fx.le Chip.taDue_fx X = true) : Within X b0 (Chip.taDue c st r) := by
  refine hW.trans (Within.mono hX ?_)
  exact Within.all _ _


/-- What `Chip.writeTa` may change. -/
def Chip.writeTa_fx : Fx := .union [Chip.taJudge_fx, .of [.cfg] [.TA_TABLE]]
theorem Chip.writeTa_in {X : Fx} {b0 c : Chip} {row : Nat} {v : Nat} {path : Path} {src : Nat} (hW : Within X b0 c) (hX : Fx.le Chip.writeTa_fx X = true) : Within X b0 (Chip.writeTa c row v path src).2 := by
  refine hW.trans (Within.mono hX ?_)
  unfold Chip.writeTa
  try dsimp only [Chip.fold_cfg]
  repeat' first
    | with_reducible assumption
    | with_reducible exact .refl _ _
    | with_reducible refine Chip.taJudge_in ?_ (by decide +kernel)
    | with_reducible refine Within.wrRow ?_ (by decide +kernel)
    | with_reducible refine Within.put_cfg ?_ (by decide +kernel)
    | with_reducible refine Within.ite ?_ ?_
    | split
    | dsimp only


/-- What `Chip.taResume` may change. -/
def Chip.taResume_fx : Fx := Chip.taJudge_fx
theorem Chip.taResume_in {X : Fx} {b0 c : Chip}  (hW : Within X b0 c) (hX : Fx.le Chip.taResume_fx X = true) : Within X b0 (Chip.taResume c) := by
  refine hW.trans (Within.mono hX ?_)
  unfold Chip.taResume
  try dsimp only
  repeat' first
    | with_reducible assumption
    | with_reducible exact .refl _ _
    | with_reducible refine Chip.taJudge_in ?_ (by decide +kernel)
    | with_reducible refine Within.each (fun _ _ _ => ?_) ?_
    | with_reducible refine Within.ite ?_ ?_
    | split
    | dsimp only


end Sys2Proof.Machine
end

