-- ==== Sys2Proof/Laws/FrameBoot.lean ====
section
/-!
SUPPORT. Frames of the operations of `Machine/Boot.lean`: which parts and objects each may change.
-/
set_option Elab.async false
namespace Sys2Proof.Machine

/-- What `Chip.rolesAtReset` may change. -/
def Chip.rolesAtReset_fx : Fx := .of [.draws, .nv] []
theorem Chip.rolesAtReset_in {X : Fx} {b0 c : Chip}  (hW : Within X b0 c) (hX : Fx.le Chip.rolesAtReset_fx X = true) : Within X b0 (Chip.rolesAtReset c) := by
  refine hW.trans (Within.mono hX ?_)
  unfold Chip.rolesAtReset
  try dsimp only [Chip.fold_nv]
  repeat' first
    | with_reducible assumption
    | with_reducible exact .refl _ _
    | with_reducible refine Within.draw ?_ (by decide +kernel)
    | with_reducible refine Within.put_nv ?_ (by decide +kernel)
    | with_reducible refine Within.ite ?_ ?_
    | split
    | dsimp only


/-- What `Chip.keptReplaced` may change. -/
def Chip.keptReplaced_fx : Fx := Chip.replaced_fx
theorem Chip.keptReplaced_in {X : Fx} {b0 c : Chip}  (hW : Within X b0 c) (hX : Fx.le Chip.keptReplaced_fx X = true) : Within X b0 (Chip.keptReplaced c) := by
  refine hW.trans (Within.mono hX ?_)
  unfold Chip.keptReplaced
  try dsimp only
  repeat' first
    | with_reducible assumption
    | with_reducible exact .refl _ _
    | with_reducible refine Chip.replaced_in ?_ (by decide +kernel)
    | with_reducible refine Within.each (fun _ _ _ => ?_) ?_
    | with_reducible refine Within.ite ?_ ?_
    | split
    | dsimp only


/-- What `Chip.discard` may change. -/
def Chip.discard_fx : Fx := .all
theorem Chip.discard_in {X : Fx} {b0 c : Chip} {phase : BootPhase} (hW : Within X b0 c) (hX : Fx.le Chip.discard_fx X = true) : Within X b0 (Chip.discard c phase) := by
  refine hW.trans (Within.mono hX ?_)
  exact Within.all _ _


/-- What `Chip.mapLoad` may change. -/
def Chip.mapLoad_fx : Fx := .of [.boot] []
theorem Chip.mapLoad_in {X : Fx} {b0 c : Chip} {bad : Bool} (hW : Within X b0 c) (hX : Fx.le Chip.mapLoad_fx X = true) : Within X b0 (Chip.mapLoad c bad) := by
  refine hW.trans (Within.mono hX ?_)
  unfold Chip.mapLoad
  try dsimp only
  repeat' first
    | with_reducible assumption
    | with_reducible exact .refl _ _
    | with_reducible refine Within.setBoot ?_ (by decide +kernel)
    | with_reducible refine Within.ite ?_ ?_
    | split
    | dsimp only


/-- What `Chip.selectImage` may change. -/
def Chip.selectImage_fx : Fx := .union [Chip.phase_fx, .of [.boot, .ev, .nv] []]
theorem Chip.selectImage_in {X : Fx} {b0 c : Chip}  (hW : Within X b0 c) (hX : Fx.le Chip.selectImage_fx X = true) : Within X b0 (Chip.selectImage c) := by
  refine hW.trans (Within.mono hX ?_)
  unfold Chip.selectImage
  try dsimp only [Chip.fold_nv]
  repeat' first
    | with_reducible assumption
    | with_reducible exact .refl _ _
    | with_reducible refine Chip.phase_in ?_ (by decide +kernel)
    | with_reducible refine Within.setBoot ?_ (by decide +kernel)
    | with_reducible refine Within.raise ?_ (by decide +kernel)
    | with_reducible refine Within.put_nv ?_ (by decide +kernel)
    | with_reducible refine Within.ite ?_ ?_
    | split
    | dsimp only


/-- What `Chip.rampTiles` may change. -/
def Chip.rampTiles_fx : Fx := .union [Chip.regFailed_fx, Chip.tileRun_fx, .of [] [.TILE_REG_FAIL_COUNT, .WAKE_STEP_FAIL]]
theorem Chip.rampTiles_in {X : Fx} {b0 c : Chip} {isolated : List TileNo} (hW : Within X b0 c) (hX : Fx.le Chip.rampTiles_fx X = true) : Within X b0 (Chip.rampTiles c isolated) := by
  refine hW.trans (Within.mono hX ?_)
  unfold Chip.rampTiles
  try dsimp only
  repeat' first
    | with_reducible assumption
    | with_reducible exact .refl _ _
    | with_reducible refine Chip.regFailed_in ?_ (by decide +kernel)
    | with_reducible refine Chip.tileRun_in ?_ (by decide +kernel)
    | with_reducible refine Within.add ?_ (by decide +kernel)
    | with_reducible refine Within.setBit ?_ (by decide +kernel)
    | with_reducible refine Within.each (fun _ _ _ => ?_) ?_
    | with_reducible refine Within.ite ?_ ?_
    | split
    | dsimp only


/-- What `Chip.passed` may change. -/
def Chip.passed_fx : Fx := .everyReg []
theorem Chip.passed_in {X : Fx} {b0 c : Chip} {bit : Nat} {last : Reg} {i : Nat} {n : Nat} (hW : Within X b0 c) (hX : Fx.le Chip.passed_fx X = true) : Within X b0 (Chip.passed c bit last i n) := by
  refine hW.trans (Within.mono hX ?_)
  unfold Chip.passed
  try dsimp only
  repeat' first
    | with_reducible assumption
    | with_reducible exact .refl _ _
    | with_reducible refine Within.wrRow ?_ (Fx.reg_le _ (by decide +kernel))
    | with_reducible refine Within.wr ?_ (Fx.reg_le _ (by decide +kernel))
    | with_reducible refine Within.wrDev ?_ (Fx.reg_le _ (by decide +kernel))
    | with_reducible refine Within.inc ?_ (Fx.reg_le _ (by decide +kernel))
    | with_reducible refine Within.add ?_ (Fx.reg_le _ (by decide +kernel))
    | with_reducible refine Within.addRow ?_ (Fx.reg_le _ (by decide +kernel))
    | with_reducible refine Within.clr ?_ (Fx.reg_le _ (by decide +kernel))
    | with_reducible refine Within.wr ?_ (by decide +kernel)
    | with_reducible refine Within.each (fun _ _ _ => ?_) ?_
    | with_reducible refine Within.ite ?_ ?_
    | split
    | dsimp only


/-- What `Chip.stagePassed` may change. -/
def Chip.stagePassed_fx : Fx := .union [Chip.passed_fx, .of [.draws] [.CAL_WALE_DELAY]]
theorem Chip.stagePassed_in {X : Fx} {b0 c : Chip} {k : Nat} (hW : Within X b0 c) (hX : Fx.le Chip.stagePassed_fx X = true) : Within X b0 (Chip.stagePassed c k) := by
  refine hW.trans (Within.mono hX ?_)
  unfold Chip.stagePassed
  try dsimp only
  repeat' first
    | with_reducible assumption
    | with_reducible exact .refl _ _
    | with_reducible refine Chip.passed_in ?_ (by decide +kernel)
    | with_reducible refine Within.wrRow ?_ (by decide +kernel)
    | with_reducible refine Within.draw ?_ (by decide +kernel)
    | with_reducible refine Within.each (fun _ _ _ => ?_) ?_
    | with_reducible refine Within.ite ?_ ?_
    | split
    | dsimp only


/-- What `Chip.recordsLoad` may change. -/
def Chip.recordsLoad_fx : Fx := Chip.recordLoad_fx
theorem Chip.recordsLoad_in {X : Fx} {b0 c : Chip}  (hW : Within X b0 c) (hX : Fx.le Chip.recordsLoad_fx X = true) : Within X b0 (Chip.recordsLoad c) := by
  refine hW.trans (Within.mono hX ?_)
  unfold Chip.recordsLoad
  try dsimp only
  repeat' first
    | with_reducible assumption
    | with_reducible exact .refl _ _
    | with_reducible refine Chip.recordLoad_in ?_ (by decide +kernel)
    | with_reducible refine Within.each (fun _ _ _ => ?_) ?_
    | with_reducible refine Within.ite ?_ ?_
    | split
    | dsimp only


/-- What `Chip.storedLoad` may change. -/
def Chip.storedLoad_fx : Fx := .union [Chip.checkStored_fx, Chip.store_fx, .of [.pes] [.PE_TRAIN_STATUS]]
theorem Chip.storedLoad_in {X : Fx} {b0 c : Chip} {bad : List PeNo} (hW : Within X b0 c) (hX : Fx.le Chip.storedLoad_fx X = true) : Within X b0 (Chip.storedLoad c bad) := by
  refine hW.trans (Within.mono hX ?_)
  unfold Chip.storedLoad
  try dsimp only
  repeat' first
    | with_reducible assumption
    | with_reducible exact .refl _ _
    | with_reducible refine Chip.checkStored_in ?_ (by decide +kernel)
    | with_reducible refine Chip.store_in ?_ (by decide +kernel)
    | with_reducible refine Within.setBit ?_ (by decide +kernel)
    | with_reducible refine Within.setPe ?_ (by decide +kernel)
    | with_reducible refine Within.each (fun _ _ _ => ?_) ?_
    | with_reducible refine Within.ite ?_ ?_
    | split
    | dsimp only


/-- What `Chip.startTimed` may change. -/
def Chip.startTimed_fx : Fx := .of [.boot] [.START_TIME]
theorem Chip.startTimed_in {X : Fx} {b0 c : Chip}  (hW : Within X b0 c) (hX : Fx.le Chip.startTimed_fx X = true) : Within X b0 (Chip.startTimed c) := by
  refine hW.trans (Within.mono hX ?_)
  unfold Chip.startTimed
  try dsimp only
  repeat' first
    | with_reducible assumption
    | with_reducible exact .refl _ _
    | with_reducible refine Within.wrDev ?_ (by decide +kernel)
    | with_reducible refine Within.setBoot ?_ (by decide +kernel)
    | with_reducible refine Within.ite ?_ ?_
    | split
    | dsimp only


/-- What `Chip.applyStart` may change. -/
def Chip.applyStart_fx : Fx := .union [Chip.applyValues_fx, Chip.laneEval_fx, Chip.phase_fx, Chip.revertSlots_fx, Chip.startTimed_fx, Chip.storedLoad_fx, Chip.weaveRestore_fx, Chip.wlStartAll_fx, .of [.bist, .boot] []]
theorem Chip.applyStart_in {X : Fx} {b0 c : Chip}  (hW : Within X b0 c) (hX : Fx.le Chip.applyStart_fx X = true) : Within X b0 (Chip.applyStart c) := by
  refine hW.trans (Within.mono hX ?_)
  unfold Chip.applyStart
  try dsimp only [Chip.fold_bist]
  repeat' first
    | with_reducible assumption
    | with_reducible exact .refl _ _
    | with_reducible refine Chip.applyValues_in ?_ (by decide +kernel)
    | with_reducible refine Chip.laneEval_in ?_ (by decide +kernel)
    | with_reducible refine Chip.phase_in ?_ (by decide +kernel)
    | with_reducible refine Chip.revertSlots_in ?_ (by decide +kernel)
    | with_reducible refine Chip.startTimed_in ?_ (by decide +kernel)
    | with_reducible refine Chip.storedLoad_in ?_ (by decide +kernel)
    | with_reducible refine Chip.weaveRestore_in ?_ (by decide +kernel)
    | with_reducible refine Chip.wlStartAll_in ?_ (by decide +kernel)
    | with_reducible refine Within.setBoot ?_ (by decide +kernel)
    | with_reducible refine Within.put_bist ?_ (by decide +kernel)
    | with_reducible refine Within.each (fun _ _ _ => ?_) ?_
    | with_reducible refine Within.ite ?_ ?_
    | split
    | dsimp only


/-- What `Chip.postEnd` may change. -/
def Chip.postEnd_fx : Fx := .union [Chip.applyStart_fx, Chip.postStage_fx, Chip.recordsLoad_fx, Chip.stagePassed_fx]
theorem Chip.postEnd_in {X : Fx} {b0 c : Chip}  (hW : Within X b0 c) (hX : Fx.le Chip.postEnd_fx X = true) : Within X b0 (Chip.postEnd c) := by
  refine hW.trans (Within.mono hX ?_)
  unfold Chip.postEnd
  try dsimp only
  repeat' first
    | with_reducible assumption
    | with_reducible exact .refl _ _
    | with_reducible refine Chip.applyStart_in ?_ (by decide +kernel)
    | with_reducible refine Chip.postStage_in ?_ (by decide +kernel)
    | with_reducible refine Chip.recordsLoad_in ?_ (by decide +kernel)
    | with_reducible refine Chip.stagePassed_in ?_ (by decide +kernel)
    | with_reducible refine Within.ite ?_ ?_
    | split
    | dsimp only


/-- What `Chip.postStages` may change. -/
def Chip.postStages_fx : Fx := Chip.postEnd_fx
theorem Chip.postStages_in {X : Fx} {b0 c : Chip} {n : Nat} (hW : Within X b0 c) (hX : Fx.le Chip.postStages_fx X = true) :
    Within X b0 (c.postStages n) := by
  refine hW.trans (Within.mono hX ?_)
  clear hW
  induction n generalizing c with
  | zero => exact .refl _ _
  | succ n ih =>
    unfold Chip.postStages
    exact (Chip.postEnd_in (.refl _ _) (by decide +kernel)).trans ih

/-- What `Chip.startFirmware` may change. -/
def Chip.startFirmware_fx : Fx := .union [Chip.keptReplaced_fx, Chip.mapLoad_fx, Chip.phase_fx, Chip.postStages_fx, Chip.rampTiles_fx, Chip.selectImage_fx, .of [.bist, .boot] []]
theorem Chip.startFirmware_in {X : Fx} {b0 c : Chip}  (hW : Within X b0 c) (hX : Fx.le Chip.startFirmware_fx X = true) : Within X b0 (Chip.startFirmware c) := by
  refine hW.trans (Within.mono hX ?_)
  unfold Chip.startFirmware
  try dsimp only [Chip.fold_bist]
  repeat' first
    | with_reducible assumption
    | with_reducible exact .refl _ _
    | with_reducible refine Chip.keptReplaced_in ?_ (by decide +kernel)
    | with_reducible refine Chip.mapLoad_in ?_ (by decide +kernel)
    | with_reducible refine Chip.phase_in ?_ (by decide +kernel)
    | with_reducible refine Chip.postStages_in ?_ (by decide +kernel)
    | with_reducible refine Chip.rampTiles_in ?_ (by decide +kernel)
    | with_reducible refine Chip.selectImage_in ?_ (by decide +kernel)
    | with_reducible refine Within.setBoot ?_ (by decide +kernel)
    | with_reducible refine Within.put_bist ?_ (by decide +kernel)
    | with_reducible refine Within.ite ?_ ?_
    | split
    | dsimp only


/-- What `Chip.clocksUp` may change. -/
def Chip.clocksUp_fx : Fx := .union [Chip.phase_fx, Chip.servoRestart_fx, .of [.boot, .pwr] []]
theorem Chip.clocksUp_in {X : Fx} {b0 c : Chip}  (hW : Within X b0 c) (hX : Fx.le Chip.clocksUp_fx X = true) : Within X b0 (Chip.clocksUp c) := by
  refine hW.trans (Within.mono hX ?_)
  unfold Chip.clocksUp
  try dsimp only
  repeat' first
    | with_reducible assumption
    | with_reducible exact .refl _ _
    | with_reducible refine Chip.phase_in ?_ (by decide +kernel)
    | with_reducible refine Chip.servoRestart_in ?_ (by decide +kernel)
    | with_reducible refine Within.setBoot ?_ (by decide +kernel)
    | with_reducible refine Within.setPwr ?_ (by decide +kernel)
    | with_reducible refine Within.ite ?_ ?_
    | split
    | dsimp only


/-- What `Chip.start` may change. -/
def Chip.start_fx : Fx := .union [Chip.clocksUp_fx, Chip.discard_fx, Chip.startFirmware_fx, Chip.wakeFaulted_fx, .of [.boot, .pwr] [.RESET_CAUSE, .WAKE_CAUSE, .WAKE_STEP_FAIL]]
theorem Chip.start_in {X : Fx} {b0 c : Chip} {cause : Nat} {b : BootInputs} (hW : Within X b0 c) (hX : Fx.le Chip.start_fx X = true) : Within X b0 (Chip.start c cause b) := by
  refine hW.trans (Within.mono hX ?_)
  unfold Chip.start
  try dsimp only
  repeat' first
    | with_reducible assumption
    | with_reducible exact .refl _ _
    | with_reducible refine Chip.clocksUp_in ?_ (by decide +kernel)
    | with_reducible refine Chip.discard_in ?_ (by decide +kernel)
    | with_reducible refine Chip.startFirmware_in ?_ (by decide +kernel)
    | with_reducible refine Chip.wakeFaulted_in ?_ (by decide +kernel)
    | with_reducible refine Within.wrDev ?_ (by decide +kernel)
    | with_reducible refine Within.setBoot ?_ (by decide +kernel)
    | with_reducible refine Within.setPwr ?_ (by decide +kernel)
    | with_reducible refine Within.ite ?_ ?_
    | split
    | dsimp only


/-- What `Chip.trainingMoves` may change. -/
def Chip.trainingMoves_fx : Fx := Chip.toBreak_fx
theorem Chip.trainingMoves_in {X : Fx} {b0 c : Chip} {p : Nat} (hW : Within X b0 c) (hX : Fx.le Chip.trainingMoves_fx X = true) : Within X b0 (Chip.trainingMoves c p) := by
  refine hW.trans (Within.mono hX ?_)
  unfold Chip.trainingMoves
  try dsimp only
  repeat' first
    | with_reducible assumption
    | with_reducible exact .refl _ _
    | with_reducible refine Chip.toBreak_in ?_ (by decide +kernel)
    | with_reducible refine Within.ite ?_ ?_
    | split
    | dsimp only


/-- What `Chip.watchdog` may change. -/
def Chip.watchdog_fx : Fx := .union [Chip.start_fx, Chip.trainingMoves_fx, .of [.ev, .pwr] [.WDT_RESTART_COUNT]]
theorem Chip.watchdog_in {X : Fx} {b0 c : Chip} {core : Nat} {l : List PortNo} {b : BootInputs} (hW : Within X b0 c) (hX : Fx.le Chip.watchdog_fx X = true) : Within X b0 (Chip.watchdog c core l b) := by
  refine hW.trans (Within.mono hX ?_)
  unfold Chip.watchdog
  try dsimp only
  repeat' first
    | with_reducible assumption
    | with_reducible exact .refl _ _
    | with_reducible refine Chip.start_in ?_ (by decide +kernel)
    | with_reducible refine Chip.trainingMoves_in ?_ (by decide +kernel)
    | with_reducible refine Within.inc ?_ (by decide +kernel)
    | with_reducible refine Within.setPwr ?_ (by decide +kernel)
    | with_reducible refine Within.raise ?_ (by decide +kernel)
    | with_reducible refine Within.each (fun _ _ _ => ?_) ?_
    | with_reducible refine Within.ite ?_ ?_
    | split
    | dsimp only


end Sys2Proof.Machine
end

