-- ==== Sys2Proof/Laws/FrameImage.lean ====
section
/-!
SUPPORT. Frames of the operations of `Machine/Image.lean`: which parts and objects each may change.
-/
set_option Elab.async false
namespace Sys2Proof.Machine

/-- What `Chip.writeImageRow` may change. -/
def Chip.writeImageRow_fx : Fx := .union [Chip.setOther_fx, .of [.boot] []]
theorem Chip.writeImageRow_in {X : Fx} {b0 c : Chip} {row : Nat} {v : Nat} (hW : Within X b0 c) (hX : Fx.le Chip.writeImageRow_fx X = true) : Within X b0 (Chip.writeImageRow c row v).2 := by
  refine hW.trans (Within.mono hX ?_)
  unfold Chip.writeImageRow
  try dsimp only
  repeat' first
    | with_reducible assumption
    | with_reducible exact .refl _ _
    | with_reducible refine Chip.setOther_in ?_ (by decide +kernel)
    | with_reducible refine Within.setBoot ?_ (by decide +kernel)
    | with_reducible refine Within.ite ?_ ?_
    | split
    | dsimp only


/-- What `Chip.writeImageErase` may change. -/
def Chip.writeImageErase_fx : Fx := .union [Chip.setOther_fx, .of [.boot] []]
theorem Chip.writeImageErase_in {X : Fx} {b0 c : Chip} {v : Nat} (hW : Within X b0 c) (hX : Fx.le Chip.writeImageErase_fx X = true) : Within X b0 (Chip.writeImageErase c v).2 := by
  refine hW.trans (Within.mono hX ?_)
  unfold Chip.writeImageErase
  try dsimp only
  repeat' first
    | with_reducible assumption
    | with_reducible exact .refl _ _
    | with_reducible refine Chip.setOther_in ?_ (by decide +kernel)
    | with_reducible refine Within.setBoot ?_ (by decide +kernel)
    | with_reducible refine Within.ite ?_ ?_
    | split
    | dsimp only


/-- What `Chip.writeImageVerify` may change. -/
def Chip.writeImageVerify_fx : Fx := .of [.boot] []
theorem Chip.writeImageVerify_in {X : Fx} {b0 c : Chip} {v : Nat} (hW : Within X b0 c) (hX : Fx.le Chip.writeImageVerify_fx X = true) : Within X b0 (Chip.writeImageVerify c v).2 := by
  refine hW.trans (Within.mono hX ?_)
  unfold Chip.writeImageVerify
  try dsimp only
  repeat' first
    | with_reducible assumption
    | with_reducible exact .refl _ _
    | with_reducible refine Within.setBoot ?_ (by decide +kernel)
    | with_reducible refine Within.ite ?_ ?_
    | split
    | dsimp only


/-- What `Chip.imageVerified` may change. -/
def Chip.imageVerified_fx : Fx := .union [Chip.setOther_fx, .of [.boot] []]
theorem Chip.imageVerified_in {X : Fx} {b0 c : Chip}  (hW : Within X b0 c) (hX : Fx.le Chip.imageVerified_fx X = true) : Within X b0 (Chip.imageVerified c) := by
  refine hW.trans (Within.mono hX ?_)
  unfold Chip.imageVerified
  try dsimp only
  repeat' first
    | with_reducible assumption
    | with_reducible exact .refl _ _
    | with_reducible refine Chip.setOther_in ?_ (by decide +kernel)
    | with_reducible refine Within.setBoot ?_ (by decide +kernel)
    | with_reducible refine Within.ite ?_ ?_
    | split
    | dsimp only


/-- What `Chip.writeSelectNext` may change. -/
def Chip.writeSelectNext_fx : Fx := .of [.nv] []
theorem Chip.writeSelectNext_in {X : Fx} {b0 c : Chip} {v : Nat} (hW : Within X b0 c) (hX : Fx.le Chip.writeSelectNext_fx X = true) : Within X b0 (Chip.writeSelectNext c v).2 := by
  refine hW.trans (Within.mono hX ?_)
  unfold Chip.writeSelectNext
  try dsimp only [Chip.fold_nv]
  repeat' first
    | with_reducible assumption
    | with_reducible exact .refl _ _
    | with_reducible refine Within.put_nv ?_ (by decide +kernel)
    | with_reducible refine Within.ite ?_ ?_
    | split
    | dsimp only


/-- What `Chip.writeImageConfirm` may change. -/
def Chip.writeImageConfirm_fx : Fx := .of [.boot, .nv] []
theorem Chip.writeImageConfirm_in {X : Fx} {b0 c : Chip} {v : Nat} (hW : Within X b0 c) (hX : Fx.le Chip.writeImageConfirm_fx X = true) : Within X b0 (Chip.writeImageConfirm c v).2 := by
  refine hW.trans (Within.mono hX ?_)
  unfold Chip.writeImageConfirm
  try dsimp only [Chip.fold_nv]
  repeat' first
    | with_reducible assumption
    | with_reducible exact .refl _ _
    | with_reducible refine Within.setBoot ?_ (by decide +kernel)
    | with_reducible refine Within.put_nv ?_ (by decide +kernel)
    | with_reducible refine Within.ite ?_ ?_
    | split
    | dsimp only


/-- What `Chip.writeOwnerKey` may change. -/
def Chip.writeOwnerKey_fx : Fx := .of [.nv] []
theorem Chip.writeOwnerKey_in {X : Fx} {b0 c : Chip} {v : Nat} (hW : Within X b0 c) (hX : Fx.le Chip.writeOwnerKey_fx X = true) : Within X b0 (Chip.writeOwnerKey c v).2 := by
  refine hW.trans (Within.mono hX ?_)
  unfold Chip.writeOwnerKey
  try dsimp only [Chip.fold_nv]
  repeat' first
    | with_reducible assumption
    | with_reducible exact .refl _ _
    | with_reducible refine Within.put_nv ?_ (by decide +kernel)
    | with_reducible refine Within.ite ?_ ?_
    | split
    | dsimp only


/-- What `Chip.writeOwnerPolicy` may change. -/
def Chip.writeOwnerPolicy_fx : Fx := .of [.nv] []
theorem Chip.writeOwnerPolicy_in {X : Fx} {b0 c : Chip} {v : Nat} (hW : Within X b0 c) (hX : Fx.le Chip.writeOwnerPolicy_fx X = true) : Within X b0 (Chip.writeOwnerPolicy c v).2 := by
  refine hW.trans (Within.mono hX ?_)
  unfold Chip.writeOwnerPolicy
  try dsimp only [Chip.fold_nv]
  repeat' first
    | with_reducible assumption
    | with_reducible exact .refl _ _
    | with_reducible refine Within.put_nv ?_ (by decide +kernel)
    | with_reducible refine Within.ite ?_ ?_
    | split
    | dsimp only


/-- What `Chip.writeNonce` may change. -/
def Chip.writeNonce_fx : Fx := .of [.boot] [.ATTEST_STATUS]
theorem Chip.writeNonce_in {X : Fx} {b0 c : Chip} {v : Nat} (hW : Within X b0 c) (hX : Fx.le Chip.writeNonce_fx X = true) : Within X b0 (Chip.writeNonce c v).2 := by
  refine hW.trans (Within.mono hX ?_)
  unfold Chip.writeNonce
  try dsimp only
  repeat' first
    | with_reducible assumption
    | with_reducible exact .refl _ _
    | with_reducible refine Within.setBit ?_ (by decide +kernel)
    | with_reducible refine Within.setBoot ?_ (by decide +kernel)
    | with_reducible refine Within.ite ?_ ?_
    | split
    | dsimp only


/-- What `Chip.reportDone` may change. -/
def Chip.reportDone_fx : Fx := .of [.boot] [.ATTEST_REPORT, .ATTEST_STATUS]
theorem Chip.reportDone_in {X : Fx} {b0 c : Chip}  (hW : Within X b0 c) (hX : Fx.le Chip.reportDone_fx X = true) : Within X b0 (Chip.reportDone c) := by
  refine hW.trans (Within.mono hX ?_)
  unfold Chip.reportDone
  try dsimp only
  repeat' first
    | with_reducible assumption
    | with_reducible exact .refl _ _
    | with_reducible refine Within.wrRow ?_ (by decide +kernel)
    | with_reducible refine Within.setBit ?_ (by decide +kernel)
    | with_reducible refine Within.setBoot ?_ (by decide +kernel)
    | with_reducible refine Within.each (fun _ _ _ => ?_) ?_
    | with_reducible refine Within.ite ?_ ?_
    | split
    | dsimp only


end Sys2Proof.Machine
end

