-- ==== Sys2Proof/Laws/FrameAccess.lean ====
section
/-!
SUPPORT. Frames of the operations of `Machine/Access.lean`: which parts and objects each may change.
-/
set_option Elab.async false
namespace Sys2Proof.Machine

/-- What `Chip.writeFull` may change. -/
def Chip.writeFull_fx : Fx := .union [Chip.writeBase_fx, Chip.writeCandidate_fx, Chip.writeCapture'_fx, Chip.writeCfgCheck_fx, Chip.writeCommit_fx, Chip.writeConfirm_fx, Chip.writeImageConfirm_fx, Chip.writeImageErase_fx, Chip.writeImageRow_fx, Chip.writeImageVerify_fx, Chip.writeLoadFactory_fx, Chip.writeNonce_fx, Chip.writeOwnerKey_fx, Chip.writeOwnerPolicy_fx, Chip.writeRollback_fx, Chip.writeSelectNext_fx, Chip.writeTa_fx, Chip.writeTaCancel_fx, .of [.boot] []]
theorem Chip.writeFull_in {X : Fx} {b0 c : Chip} {path : Path} {src : Nat} {r : Reg} {i : Nat} {row : Nat} {v : Nat} (hW : Within X b0 c) (hX : Fx.le Chip.writeFull_fx X = true) : Within X b0 (Chip.writeFull c path src r i row v).2 := by
  refine hW.trans (Within.mono hX ?_)
  unfold Chip.writeFull
  try dsimp only
  repeat' first
    | with_reducible assumption
    | with_reducible exact .refl _ _
    | with_reducible refine Chip.writeBase_in ?_ (by decide +kernel)
    | with_reducible refine Chip.writeCandidate_in ?_ (by decide +kernel)
    | with_reducible refine Chip.writeCapture'_in ?_ (by decide +kernel)
    | with_reducible refine Chip.writeCfgCheck_in ?_ (by decide +kernel)
    | with_reducible refine Chip.writeCommit_in ?_ (by decide +kernel)
    | with_reducible refine Chip.writeConfirm_in ?_ (by decide +kernel)
    | with_reducible refine Chip.writeImageConfirm_in ?_ (by decide +kernel)
    | with_reducible refine Chip.writeImageErase_in ?_ (by decide +kernel)
    | with_reducible refine Chip.writeImageRow_in ?_ (by decide +kernel)
    | with_reducible refine Chip.writeImageVerify_in ?_ (by decide +kernel)
    | with_reducible refine Chip.writeLoadFactory_in ?_ (by decide +kernel)
    | with_reducible refine Chip.writeNonce_in ?_ (by decide +kernel)
    | with_reducible refine Chip.writeOwnerKey_in ?_ (by decide +kernel)
    | with_reducible refine Chip.writeOwnerPolicy_in ?_ (by decide +kernel)
    | with_reducible refine Chip.writeRollback_in ?_ (by decide +kernel)
    | with_reducible refine Chip.writeSelectNext_in ?_ (by decide +kernel)
    | with_reducible refine Chip.writeTa_in ?_ (by decide +kernel)
    | with_reducible refine Chip.writeTaCancel_in ?_ (by decide +kernel)
    | with_reducible refine Within.setBoot ?_ (by decide +kernel)
    | with_reducible refine Within.ite ?_ ?_
    | split
    | dsimp only


/-- What `Chip.writeValue` may change. -/
def Chip.writeValue_fx : Fx := Chip.writeFull_fx
theorem Chip.writeValue_in {X : Fx} {b0 c : Chip} {path : Path} {src : Nat} {view : Nat} {r : Reg} {i : Nat} {row : Nat} {v : Nat} (hW : Within X b0 c) (hX : Fx.le Chip.writeValue_fx X = true) : Within X b0 (Chip.writeValue c path src view r i row v).2 := by
  refine hW.trans (Within.mono hX ?_)
  unfold Chip.writeValue
  try dsimp only
  repeat' first
    | with_reducible assumption
    | with_reducible exact .refl _ _
    | with_reducible refine Chip.writeFull_in ?_ (by decide +kernel)
    | with_reducible refine Within.ite ?_ ?_
    | split
    | dsimp only


/-- What `Chip.writeAddr` may change. -/
def Chip.writeAddr_fx : Fx := Chip.writeValue_fx
theorem Chip.writeAddr_in {X : Fx} {b0 c : Chip} {path : Path} {src : Nat} {addr : Nat} {row : Nat} {value : List Octet} (hW : Within X b0 c) (hX : Fx.le Chip.writeAddr_fx X = true) : Within X b0 (Chip.writeAddr c path src addr row value).2 := by
  refine hW.trans (Within.mono hX ?_)
  unfold Chip.writeAddr
  try dsimp only
  repeat' first
    | with_reducible assumption
    | with_reducible exact .refl _ _
    | with_reducible refine Chip.gated_in (fun _ _ => ?_) ?_
    | with_reducible refine Chip.writeValue_in ?_ (by decide +kernel)
    | with_reducible refine Within.ite ?_ ?_
    | split
    | dsimp only


/-- What `Chip.statusClear` may change. -/
def Chip.statusClear_fx : Fx := Chip.clearStatus_fx
theorem Chip.statusClear_in {X : Fx} {b0 c : Chip} {inst : Nat} {miss : Bool} {v : Nat} (hW : Within X b0 c) (hX : Fx.le Chip.statusClear_fx X = true) : Within X b0 (Chip.statusClear c inst miss v).2 := by
  refine hW.trans (Within.mono hX ?_)
  unfold Chip.statusClear
  try dsimp only
  repeat' first
    | with_reducible assumption
    | with_reducible exact .refl _ _
    | with_reducible refine Chip.clearStatus_in ?_ (by decide +kernel)
    | with_reducible refine Chip.gated_in (fun _ _ => ?_) ?_
    | with_reducible refine Within.ite ?_ ?_
    | split
    | dsimp only


/-- What `Chip.snapshotWrite` may change. -/
def Chip.snapshotWrite_fx : Fx := Chip.writeSnapshot_fx
theorem Chip.snapshotWrite_in {X : Fx} {b0 c : Chip} {inst : Nat} {v : Nat} (hW : Within X b0 c) (hX : Fx.le Chip.snapshotWrite_fx X = true) : Within X b0 (Chip.snapshotWrite c inst v).2 := by
  refine hW.trans (Within.mono hX ?_)
  unfold Chip.snapshotWrite
  try dsimp only
  repeat' first
    | with_reducible assumption
    | with_reducible exact .refl _ _
    | with_reducible refine Chip.gated_in (fun _ _ => ?_) ?_
    | with_reducible refine Chip.writeSnapshot_in ?_ (by decide +kernel)
    | with_reducible refine Within.ite ?_ ?_
    | split
    | dsimp only


end Sys2Proof.Machine
end

