-- ==== Sys2Proof/Laws/FrameDap.lean ====
section
/-!
SUPPORT. Frames of the operations of `Machine/Dap.lean`: which parts and objects each may change.
-/
set_option Elab.async false
namespace Sys2Proof.Machine

/-- What `Chip.arrive` may change. -/
def Chip.arrive_fx : Fx := .of [.frameNo, .sched] [.TX_QUEUE_MISS]
theorem Chip.arrive_in {X : Fx} {b0 c : Chip} {p : Nat} {lq : Nat} {f : Frame} (hW : Within X b0 c) (hX : Fx.le Chip.arrive_fx X = true) : Within X b0 (Chip.arrive c p lq f) := by
  refine hW.trans (Within.mono hX ?_)
  unfold Chip.arrive
  try dsimp only [Chip.fold_frameNo]
  repeat' first
    | with_reducible assumption
    | with_reducible exact .refl _ _
    | with_reducible refine Within.inc ?_ (by decide +kernel)
    | with_reducible refine Within.setSch ?_ (by decide +kernel)
    | with_reducible refine Within.put_frameNo ?_ (by decide +kernel)
    | with_reducible refine Within.ite ?_ ?_
    | split
    | dsimp only


/-- What `Chip.dapDeliver` may change. -/
def Chip.dapDeliver_fx : Fx := .union [Chip.arrive_fx, Chip.wlSend_fx, .of [.dap, .host] []]
theorem Chip.dapDeliver_in {X : Fx} {b0 c : Chip} {q : DapReq} {msg : List Octet} (hW : Within X b0 c) (hX : Fx.le Chip.dapDeliver_fx X = true) : Within X b0 (Chip.dapDeliver c q msg) := by
  refine hW.trans (Within.mono hX ?_)
  unfold Chip.dapDeliver
  try dsimp only [Chip.fold_dap]
  repeat' first
    | with_reducible assumption
    | with_reducible exact .refl _ _
    | with_reducible refine Chip.arrive_in ?_ (by decide +kernel)
    | with_reducible refine Chip.wlSend_in ?_ (by decide +kernel)
    | with_reducible refine Within.setHost ?_ (by decide +kernel)
    | with_reducible refine Within.put_dap ?_ (by decide +kernel)
    | with_reducible refine Within.ite ?_ ?_
    | split
    | dsimp only


/-- What `Chip.dapDeliverNow` may change. -/
def Chip.dapDeliverNow_fx : Fx := .union [Chip.dapDeliver_fx, .of [.wale] [.WALE_NO_ROUTE, .WL_TX_PACKETS]]
theorem Chip.dapDeliverNow_in {X : Fx} {b0 c : Chip} {q : DapReq} {msg : List Octet} (hW : Within X b0 c) (hX : Fx.le Chip.dapDeliverNow_fx X = true) : Within X b0 (Chip.dapDeliverNow c q msg) := by
  refine hW.trans (Within.mono hX ?_)
  unfold Chip.dapDeliverNow
  try dsimp only
  repeat' first
    | with_reducible assumption
    | with_reducible exact .refl _ _
    | with_reducible refine Chip.dapDeliver_in ?_ (by decide +kernel)
    | with_reducible refine Within.inc ?_ (by decide +kernel)
    | with_reducible refine Within.setWl ?_ (by decide +kernel)
    | with_reducible refine Within.ite ?_ ?_
    | split
    | dsimp only


/-- What `Chip.dapOp` may change. -/
def Chip.dapOp_fx : Fx := .union [Chip.writeAddr_fx, .of [.access] []]
theorem Chip.dapOp_in {X : Fx} {b0 c : Chip} {via : DapVia} {o : DapOp} (hW : Within X b0 c) (hX : Fx.le Chip.dapOp_fx X = true) : Within X b0 (Chip.dapOp c via o).2.2.2 := by
  refine hW.trans (Within.mono hX ?_)
  unfold Chip.dapOp
  try dsimp only [Chip.fold_access]
  repeat' first
    | with_reducible assumption
    | with_reducible exact .refl _ _
    | with_reducible refine Chip.answer_in ?_ ?_ (by decide +kernel)
    | with_reducible refine Chip.writeAddr_in ?_ (by decide +kernel)
    | with_reducible refine Within.result ?_ (by decide +kernel)
    | with_reducible refine Within.put_access ?_ (by decide +kernel)
    | with_reducible refine Within.ite ?_ ?_
    | split
    | dsimp only


/-- What `dapRun` may change: the operations write any object. -/
def dapRun_fx : Fx := .all
theorem dapRun_in {X : Fx} {b0 c : Chip} {via : DapVia} {stop : Bool} {l : List DapOp} {used : Nat} (hW : Within X b0 c)
    (hX : Fx.le dapRun_fx X = true) : Within X b0 (dapRun via stop l used c).2.2 := hW.trans (Within.mono hX (Within.all _ _))

/-- What `Chip.dapHeader` may change. -/
def Chip.dapHeader_fx : Fx := .of [.draws] []
theorem Chip.dapHeader_in {X : Fx} {b0 c : Chip} {m : DapMsg} (hW : Within X b0 c) (hX : Fx.le Chip.dapHeader_fx X = true) : Within X b0 (Chip.dapHeader c m).2 := by
  refine hW.trans (Within.mono hX ?_)
  unfold Chip.dapHeader
  try dsimp only
  repeat' first
    | with_reducible assumption
    | with_reducible exact .refl _ _
    | with_reducible refine Within.draw ?_ (by decide +kernel)
    | with_reducible refine Within.ite ?_ ?_
    | split
    | dsimp only


/-- What `Chip.dapCarry` may change. -/
def Chip.dapCarry_fx : Fx := .union [Chip.dapDeliver_fx, Chip.dapDeliverNow_fx, Chip.dapHeader_fx, Chip.writeAddr_fx, dapRun_fx, .of [.dap] []]
theorem Chip.dapCarry_in {X : Fx} {b0 c : Chip} {q : DapReq} {m : DapMsg} (hW : Within X b0 c) (hX : Fx.le Chip.dapCarry_fx X = true) : Within X b0 (Chip.dapCarry c q m) := by
  refine hW.trans (Within.mono hX ?_)
  unfold Chip.dapCarry
  try dsimp only [Chip.fold_dap]
  repeat' first
    | with_reducible assumption
    | with_reducible exact .refl _ _
    | with_reducible refine Chip.answer_in ?_ ?_ (by decide +kernel)
    | with_reducible refine Chip.dapDeliver_in ?_ (by decide +kernel)
    | with_reducible refine Chip.dapDeliverNow_in ?_ (by decide +kernel)
    | with_reducible refine Chip.dapHeader_in ?_ (by decide +kernel)
    | with_reducible refine Chip.writeAddr_in ?_ (by decide +kernel)
    | with_reducible refine dapRun_in ?_ (by decide +kernel)
    | with_reducible refine Within.put_dap ?_ (by decide +kernel)
    | with_reducible refine Within.each (fun _ _ _ => ?_) ?_
    | with_reducible refine Within.ite ?_ ?_
    | split
    | dsimp only


/-- What `Chip.dapLocal` may change. -/
def Chip.dapLocal_fx : Fx := .union [Chip.dapCarry_fx, Chip.dapDeliver_fx, .of [] [.DAP_REPLAYS]]
theorem Chip.dapLocal_in {X : Fx} {b0 c : Chip} {q : DapReq} {m : DapMsg} (hW : Within X b0 c) (hX : Fx.le Chip.dapLocal_fx X = true) : Within X b0 (Chip.dapLocal c q m) := by
  refine hW.trans (Within.mono hX ?_)
  unfold Chip.dapLocal
  try dsimp only
  repeat' first
    | with_reducible assumption
    | with_reducible exact .refl _ _
    | with_reducible refine Chip.dapCarry_in ?_ (by decide +kernel)
    | with_reducible refine Chip.dapDeliver_in ?_ (by decide +kernel)
    | with_reducible refine Within.inc ?_ (by decide +kernel)
    | with_reducible refine Within.ite ?_ ?_
    | split
    | dsimp only


/-- What `Chip.dapRelayed` may change. -/
def Chip.dapRelayed_fx : Fx := .union [Chip.wlSend_fx, .of [.dap] [.DAP_RELAYED]]
theorem Chip.dapRelayed_in {X : Fx} {b0 c : Chip} {q : DapReq} {m : DapMsg} (hW : Within X b0 c) (hX : Fx.le Chip.dapRelayed_fx X = true) : Within X b0 (Chip.dapRelayed c q m) := by
  refine hW.trans (Within.mono hX ?_)
  unfold Chip.dapRelayed
  try dsimp only [Chip.fold_dap]
  repeat' first
    | with_reducible assumption
    | with_reducible exact .refl _ _
    | with_reducible refine Chip.wlSend_in ?_ (by decide +kernel)
    | with_reducible refine Within.inc ?_ (by decide +kernel)
    | with_reducible refine Within.put_dap ?_ (by decide +kernel)
    | with_reducible refine Within.ite ?_ ?_
    | split
    | dsimp only


/-- What `Chip.dapServe` may change. -/
def Chip.dapServe_fx : Fx := .union [Chip.dapLocal_fx, Chip.dapRelayed_fx, .of [] [.DAP_MALFORMED, .DAP_REQUESTS]]
theorem Chip.dapServe_in {X : Fx} {b0 c : Chip} {q : DapReq} (hW : Within X b0 c) (hX : Fx.le Chip.dapServe_fx X = true) : Within X b0 (Chip.dapServe c q) := by
  refine hW.trans (Within.mono hX ?_)
  unfold Chip.dapServe
  try dsimp only
  repeat' first
    | with_reducible assumption
    | with_reducible exact .refl _ _
    | with_reducible refine Chip.dapLocal_in ?_ (by decide +kernel)
    | with_reducible refine Chip.dapRelayed_in ?_ (by decide +kernel)
    | with_reducible refine Within.inc ?_ (by decide +kernel)
    | with_reducible refine Within.ite ?_ ?_
    | split
    | dsimp only


/-- What `Chip.dapResponse` may change. -/
def Chip.dapResponse_fx : Fx := .union [Chip.dapDeliver_fx, .of [] [.DAP_MALFORMED]]
theorem Chip.dapResponse_in {X : Fx} {b0 c : Chip} {f : List Octet} (hW : Within X b0 c) (hX : Fx.le Chip.dapResponse_fx X = true) : Within X b0 (Chip.dapResponse c f) := by
  refine hW.trans (Within.mono hX ?_)
  unfold Chip.dapResponse
  try dsimp only
  repeat' first
    | with_reducible assumption
    | with_reducible exact .refl _ _
    | with_reducible refine Chip.dapDeliver_in ?_ (by decide +kernel)
    | with_reducible refine Within.inc ?_ (by decide +kernel)
    | with_reducible refine Within.ite ?_ ?_
    | split
    | dsimp only


/-- What `Chip.spiTake` may change. -/
def Chip.spiTake_fx : Fx := .union [Chip.dapServe_fx, Chip.wakeSource_fx, .of [.dap] [.DAP_MALFORMED]]
theorem Chip.spiTake_in {X : Fx} {b0 c : Chip} {l : List Octet} (hW : Within X b0 c) (hX : Fx.le Chip.spiTake_fx X = true) : Within X b0 (Chip.spiTake c l) := by
  refine hW.trans (Within.mono hX ?_)
  unfold Chip.spiTake
  try dsimp only [Chip.fold_dap]
  repeat' first
    | with_reducible assumption
    | with_reducible exact .refl _ _
    | with_reducible refine Chip.dapServe_in ?_ (by decide +kernel)
    | with_reducible refine Chip.wakeSource_in ?_ (by decide +kernel)
    | with_reducible refine Within.inc ?_ (by decide +kernel)
    | with_reducible refine Within.put_dap ?_ (by decide +kernel)
    | with_reducible refine Within.ite ?_ ?_
    | split
    | dsimp only


/-- What `Chip.spiWrite` may change. -/
def Chip.spiWrite_fx : Fx := .union [Chip.spiTake_fx, .of [.dap] [.SPI_CRC_ERR]]
theorem Chip.spiWrite_in {X : Fx} {b0 c : Chip} {length : Nat} {l : List Octet} {crc : Nat} (hW : Within X b0 c) (hX : Fx.le Chip.spiWrite_fx X = true) : Within X b0 (Chip.spiWrite c length l crc) := by
  refine hW.trans (Within.mono hX ?_)
  unfold Chip.spiWrite
  try dsimp only [Chip.fold_dap]
  repeat' first
    | with_reducible assumption
    | with_reducible exact .refl _ _
    | with_reducible refine Chip.spiTake_in ?_ (by decide +kernel)
    | with_reducible refine Within.inc ?_ (by decide +kernel)
    | with_reducible refine Within.put_dap ?_ (by decide +kernel)
    | with_reducible refine Within.ite ?_ ?_
    | split
    | dsimp only


/-- What `Chip.spiCarry` may change. -/
def Chip.spiCarry_fx : Fx := .union [Chip.spiTake_fx, .of [.dap] []]
theorem Chip.spiCarry_in {X : Fx} {b0 c : Chip}  (hW : Within X b0 c) (hX : Fx.le Chip.spiCarry_fx X = true) : Within X b0 (Chip.spiCarry c) := by
  refine hW.trans (Within.mono hX ?_)
  unfold Chip.spiCarry
  try dsimp only [Chip.fold_dap]
  repeat' first
    | with_reducible assumption
    | with_reducible exact .refl _ _
    | with_reducible refine Chip.spiTake_in ?_ (by decide +kernel)
    | with_reducible refine Within.put_dap ?_ (by decide +kernel)
    | with_reducible refine Within.ite ?_ ?_
    | split
    | dsimp only


/-- What `Chip.spiRead` may change. -/
def Chip.spiRead_fx : Fx := .of [.access, .dap] []
theorem Chip.spiRead_in {X : Fx} {b0 c : Chip} {complete : Bool} (hW : Within X b0 c) (hX : Fx.le Chip.spiRead_fx X = true) : Within X b0 (Chip.spiRead c complete) := by
  refine hW.trans (Within.mono hX ?_)
  unfold Chip.spiRead
  try dsimp only [Chip.fold_dap]
  repeat' first
    | with_reducible assumption
    | with_reducible exact .refl _ _
    | with_reducible refine Within.result ?_ (by decide +kernel)
    | with_reducible refine Within.put_dap ?_ (by decide +kernel)
    | with_reducible refine Within.ite ?_ ?_
    | split
    | dsimp only


/-- What `Chip.dapTake` may change. -/
def Chip.dapTake_fx : Fx := .union [Chip.dapServe_fx, Chip.spiTake_fx, .of [] [.DAP_MALFORMED, .MGMT_RX_DISCARD]]
theorem Chip.dapTake_in {X : Fx} {b0 c : Chip} {via : DapVia} {f : List Octet} (hW : Within X b0 c) (hX : Fx.le Chip.dapTake_fx X = true) : Within X b0 (Chip.dapTake c via f) := by
  refine hW.trans (Within.mono hX ?_)
  unfold Chip.dapTake
  try dsimp only
  repeat' first
    | with_reducible assumption
    | with_reducible exact .refl _ _
    | with_reducible refine Chip.dapServe_in ?_ (by decide +kernel)
    | with_reducible refine Chip.spiTake_in ?_ (by decide +kernel)
    | with_reducible refine Within.inc ?_ (by decide +kernel)
    | with_reducible refine Within.ite ?_ ?_
    | split
    | dsimp only


/-- What `Chip.mgmtUp` may change. -/
def Chip.mgmtUp_fx : Fx := .of [] [.MGMT_STATUS]
theorem Chip.mgmtUp_in {X : Fx} {b0 c : Chip} {negotiated : Bool} (hW : Within X b0 c) (hX : Fx.le Chip.mgmtUp_fx X = true) : Within X b0 (Chip.mgmtUp c negotiated) := by
  refine hW.trans (Within.mono hX ?_)
  unfold Chip.mgmtUp
  try dsimp only
  repeat' first
    | with_reducible assumption
    | with_reducible exact .refl _ _
    | with_reducible refine Within.wr ?_ (by decide +kernel)
    | with_reducible refine Within.ite ?_ ?_
    | split
    | dsimp only


/-- What `Chip.mgmtLost` may change. -/
def Chip.mgmtLost_fx : Fx := .of [] [.MGMT_STATUS]
theorem Chip.mgmtLost_in {X : Fx} {b0 c : Chip} {signal : Bool} (hW : Within X b0 c) (hX : Fx.le Chip.mgmtLost_fx X = true) : Within X b0 (Chip.mgmtLost c signal) := by
  refine hW.trans (Within.mono hX ?_)
  unfold Chip.mgmtLost
  try dsimp only
  repeat' first
    | with_reducible assumption
    | with_reducible exact .refl _ _
    | with_reducible refine Within.wr ?_ (by decide +kernel)
    | with_reducible refine Within.ite ?_ ?_
    | split
    | dsimp only


end Sys2Proof.Machine
end

