-- ==== Sys2Proof/Laws/FrameBootEvents.lean ====
section
/-!
SUPPORT. Frames of the operations of `Machine/BootEvents.lean`: which parts and objects each may change.
-/
set_option Elab.async false
namespace Sys2Proof.Machine

/-- What `Chip.vinRise` may change. -/
def Chip.vinRise_fx : Fx := .union [Chip.phase_fx, Chip.start_fx, .of [.boot] []]
theorem Chip.vinRise_in {X : Fx} {b0 c : Chip} {b : BootInputs} (hW : Within X b0 c) (hX : Fx.le Chip.vinRise_fx X = true) : Within X b0 (Chip.vinRise c b) := by
  refine hW.trans (Within.mono hX ?_)
  unfold Chip.vinRise
  try dsimp only
  repeat' first
    | with_reducible assumption
    | with_reducible exact .refl _ _
    | with_reducible refine Chip.phase_in ?_ (by decide +kernel)
    | with_reducible refine Chip.start_in ?_ (by decide +kernel)
    | with_reducible refine Within.setBoot ?_ (by decide +kernel)
    | with_reducible refine Within.ite ?_ ?_
    | split
    | dsimp only


/-- What `Chip.vinFall` may change. -/
def Chip.vinFall_fx : Fx := .union [Chip.discard_fx, .of [.boot] []]
theorem Chip.vinFall_in {X : Fx} {b0 c : Chip}  (hW : Within X b0 c) (hX : Fx.le Chip.vinFall_fx X = true) : Within X b0 (Chip.vinFall c) := by
  refine hW.trans (Within.mono hX ?_)
  unfold Chip.vinFall
  try dsimp only
  repeat' first
    | with_reducible assumption
    | with_reducible exact .refl _ _
    | with_reducible refine Chip.discard_in ?_ (by decide +kernel)
    | with_reducible refine Within.setBoot ?_ (by decide +kernel)
    | with_reducible refine Within.ite ?_ ?_
    | split
    | dsimp only


/-- What `Chip.resetAssert` may change. -/
def Chip.resetAssert_fx : Fx := .union [Chip.discard_fx, .of [.boot] []]
theorem Chip.resetAssert_in {X : Fx} {b0 c : Chip}  (hW : Within X b0 c) (hX : Fx.le Chip.resetAssert_fx X = true) : Within X b0 (Chip.resetAssert c) := by
  refine hW.trans (Within.mono hX ?_)
  unfold Chip.resetAssert
  try dsimp only
  repeat' first
    | with_reducible assumption
    | with_reducible exact .refl _ _
    | with_reducible refine Chip.discard_in ?_ (by decide +kernel)
    | with_reducible refine Within.setBoot ?_ (by decide +kernel)
    | with_reducible refine Within.ite ?_ ?_
    | split
    | dsimp only


/-- What `Chip.resetRelease` may change. -/
def Chip.resetRelease_fx : Fx := .union [Chip.start_fx, .of [.boot] []]
theorem Chip.resetRelease_in {X : Fx} {b0 c : Chip} {b : BootInputs} (hW : Within X b0 c) (hX : Fx.le Chip.resetRelease_fx X = true) : Within X b0 (Chip.resetRelease c b) := by
  refine hW.trans (Within.mono hX ?_)
  unfold Chip.resetRelease
  try dsimp only
  repeat' first
    | with_reducible assumption
    | with_reducible exact .refl _ _
    | with_reducible refine Chip.start_in ?_ (by decide +kernel)
    | with_reducible refine Within.setBoot ?_ (by decide +kernel)
    | with_reducible refine Within.ite ?_ ?_
    | split
    | dsimp only


/-- What `Chip.deviceReset` may change. -/
def Chip.deviceReset_fx : Fx := Chip.start_fx
theorem Chip.deviceReset_in {X : Fx} {b0 c : Chip} {v : Nat} {b : BootInputs} (hW : Within X b0 c) (hX : Fx.le Chip.deviceReset_fx X = true) : Within X b0 (Chip.deviceReset c v b).2 := by
  refine hW.trans (Within.mono hX ?_)
  unfold Chip.deviceReset
  try dsimp only
  repeat' first
    | with_reducible assumption
    | with_reducible exact .refl _ _
    | with_reducible refine Chip.start_in ?_ (by decide +kernel)
    | with_reducible refine Within.ite ?_ ?_
    | split
    | dsimp only


end Sys2Proof.Machine
end

