-- ==== Sys2Proof/Laws/FrameCfgEvents.lean ====
section
/-!
SUPPORT. Frames of the operations of `Machine/CfgEvents.lean`: which parts and objects each may change.
-/
set_option Elab.async false
namespace Sys2Proof.Machine

/-- A write of a row of octets changes what its effect changes. -/
theorem Chip.gatedOctets_in {X : Fx} {b0 c : Chip} {r : Reg} {row : Nat} {l : List Octet} {f : Chip → Nat → Abort × Chip}
    (hf : ∀ d v, Within X b0 d → Within X b0 (f d v).2) (hW : Within X b0 c) : Within X b0 (c.gatedOctets r row l f).2 := by
  unfold Chip.gatedOctets
  split
  · exact hW
  · split
    · exact hW
    · exact Chip.gated_in (fun d hd => hf _ _ hd) hW

end Sys2Proof.Machine
end

