-- ==== Sys2Proof/Laws/FrameHostEvents.lean ====
section
/-!
SUPPORT. Frames of the operations of `Machine/HostEvents.lean`: which parts and objects each may change.
-/
set_option Elab.async false
namespace Sys2Proof.Machine

/-- What `Chip.taggedFrame` may change. -/
def Chip.taggedFrame_fx : Fx := .of [] [.TX_TAG_MALFORMED]
theorem Chip.taggedFrame_in {X : Fx} {b0 c : Chip} {p : Nat} {f : HostFrame} (hW : Within X b0 c) (hX : Fx.le Chip.taggedFrame_fx X = true) : Within X b0 (Chip.taggedFrame c p f).1 := by
  refine hW.trans (Within.mono hX ?_)
  unfold Chip.taggedFrame
  try dsimp only
  repeat' first
    | with_reducible assumption
    | with_reducible exact .refl _ _
    | with_reducible refine Within.inc ?_ (by decide +kernel)
    | with_reducible refine Within.ite ?_ ?_
    | split
    | dsimp only


/-- What `Chip.macControl` may change. -/
def Chip.macControl_fx : Fx := .of [.host] [.HL_PORT_STATUS, .MAC_CTRL_DISCARD]
theorem Chip.macControl_in {X : Fx} {b0 c : Chip} {p : Nat} {f : List Octet} (hW : Within X b0 c) (hX : Fx.le Chip.macControl_fx X = true) : Within X b0 (Chip.macControl c p f) := by
  refine hW.trans (Within.mono hX ?_)
  unfold Chip.macControl
  try dsimp only
  repeat' first
    | with_reducible assumption
    | with_reducible exact .refl _ _
    | with_reducible refine Within.inc ?_ (by decide +kernel)
    | with_reducible refine Within.setBit ?_ (by decide +kernel)
    | with_reducible refine Within.setHost ?_ (by decide +kernel)
    | with_reducible refine Within.ite ?_ ?_
    | split
    | dsimp only


/-- What `Chip.hostFrame` may change. -/
def Chip.hostFrame_fx : Fx := .union [Chip.arrive_fx, Chip.dapTake_fx, Chip.macControl_fx, Chip.taggedFrame_fx, .of [] [.DAP_MALFORMED, .HOST_RX_ERROR]]
theorem Chip.hostFrame_in {X : Fx} {b0 c : Chip} {p : Nat} {f : HostFrame} (hW : Within X b0 c) (hX : Fx.le Chip.hostFrame_fx X = true) : Within X b0 (Chip.hostFrame c p f) := by
  refine hW.trans (Within.mono hX ?_)
  unfold Chip.hostFrame
  try dsimp only
  repeat' first
    | with_reducible assumption
    | with_reducible exact .refl _ _
    | with_reducible refine Chip.arrive_in ?_ (by decide +kernel)
    | with_reducible refine Chip.dapTake_in ?_ (by decide +kernel)
    | with_reducible refine Chip.macControl_in ?_ (by decide +kernel)
    | with_reducible refine Chip.taggedFrame_in ?_ (by decide +kernel)
    | with_reducible refine Within.inc ?_ (by decide +kernel)
    | with_reducible refine Within.ite ?_ ?_
    | split
    | dsimp only


/-- What `Chip.meterFrame` may change. -/
def Chip.meterFrame_fx : Fx := .of [.meters] [.MTR_COUNTS]
theorem Chip.meterFrame_in {X : Fx} {b0 c : Chip} {p : Nat} {index : Nat} {b : Nat} {t : Nat} (hW : Within X b0 c) (hX : Fx.le Chip.meterFrame_fx X = true) : Within X b0 (Chip.meterFrame c p index b t).2 := by
  refine hW.trans (Within.mono hX ?_)
  unfold Chip.meterFrame
  try dsimp only [Chip.fold_meters]
  repeat' first
    | with_reducible assumption
    | with_reducible exact .refl _ _
    | with_reducible refine Within.addField ?_ (by decide +kernel)
    | with_reducible refine Within.put_meters ?_ (by decide +kernel)
    | with_reducible refine Within.ite ?_ ?_
    | split
    | dsimp only


/-- What `Chip.rxStore` may change. -/
def Chip.rxStore_fx : Fx := .union [Chip.meterFrame_fx, .of [.host] [.PTP_RX_COUNT]]
theorem Chip.rxStore_in {X : Fx} {b0 c : Chip} {p : Nat} {f : List Octet} {t : Nat} (hW : Within X b0 c) (hX : Fx.le Chip.rxStore_fx X = true) : Within X b0 (Chip.rxStore c p f t) := by
  refine hW.trans (Within.mono hX ?_)
  unfold Chip.rxStore
  try dsimp only
  repeat' first
    | with_reducible assumption
    | with_reducible exact .refl _ _
    | with_reducible refine Chip.meterFrame_in ?_ (by decide +kernel)
    | with_reducible refine Within.inc ?_ (by decide +kernel)
    | with_reducible refine Within.setHost ?_ (by decide +kernel)
    | with_reducible refine Within.ite ?_ ?_
    | split
    | dsimp only


/-- What `Chip.rxKind` may change. -/
def Chip.rxKind_fx : Fx := .of [] [.MM_ASSEMBLY_ERR, .MM_ASSEMBLY_OK, .MM_FRAG_RX, .MM_SMD_ERR]
theorem Chip.rxKind_in {X : Fx} {b0 c : Chip} {p : Nat} {k : LineKind} (hW : Within X b0 c) (hX : Fx.le Chip.rxKind_fx X = true) : Within X b0 (Chip.rxKind c p k).2 := by
  refine hW.trans (Within.mono hX ?_)
  unfold Chip.rxKind
  try dsimp only
  repeat' first
    | with_reducible assumption
    | with_reducible exact .refl _ _
    | with_reducible refine Within.inc ?_ (by decide +kernel)
    | with_reducible refine Within.add ?_ (by decide +kernel)
    | with_reducible refine Within.ite ?_ ?_
    | split
    | dsimp only


/-- What `Chip.errorFcs` may change. -/
def Chip.errorFcs_fx : Fx := .of [.draws] []
theorem Chip.errorFcs_in {X : Fx} {b0 c : Chip} {f : List Octet} (hW : Within X b0 c) (hX : Fx.le Chip.errorFcs_fx X = true) : Within X b0 (Chip.errorFcs c f).2 := by
  refine hW.trans (Within.mono hX ?_)
  unfold Chip.errorFcs
  try dsimp only
  repeat' first
    | with_reducible assumption
    | with_reducible exact .refl _ _
    | with_reducible refine Within.draw ?_ (by decide +kernel)
    | with_reducible refine Within.ite ?_ ?_
    | split
    | dsimp only


/-- What `Chip.lineCut` may change. -/
def Chip.lineCut_fx : Fx := .of [.host] [.RX_FIFO_DROP]
theorem Chip.lineCut_in {X : Fx} {b0 c : Chip} {p : Nat} (hW : Within X b0 c) (hX : Fx.le Chip.lineCut_fx X = true) : Within X b0 (Chip.lineCut c p) := by
  refine hW.trans (Within.mono hX ?_)
  unfold Chip.lineCut
  try dsimp only
  repeat' first
    | with_reducible assumption
    | with_reducible exact .refl _ _
    | with_reducible refine Within.inc ?_ (by decide +kernel)
    | with_reducible refine Within.setHost ?_ (by decide +kernel)
    | with_reducible refine Within.ite ?_ ?_
    | split
    | dsimp only


/-- What `Chip.lineFrame` may change. -/
def Chip.lineFrame_fx : Fx := .union [Chip.blink_fx, Chip.dapTake_fx, Chip.errorFcs_fx, Chip.lineCut_fx, Chip.rxKind_fx, Chip.rxStore_fx, .of [] [.RX_FIFO_DROP, .RX_OVERSIZE]]
theorem Chip.lineFrame_in {X : Fx} {b0 c : Chip} {p : Nat} {f : LineFrame} (hW : Within X b0 c) (hX : Fx.le Chip.lineFrame_fx X = true) : Within X b0 (Chip.lineFrame c p f) := by
  refine hW.trans (Within.mono hX ?_)
  unfold Chip.lineFrame
  try dsimp only
  repeat' first
    | with_reducible assumption
    | with_reducible exact .refl _ _
    | with_reducible refine Chip.blink_in ?_ (by decide +kernel)
    | with_reducible refine Chip.dapTake_in ?_ (by decide +kernel)
    | with_reducible refine Chip.errorFcs_in ?_ (by decide +kernel)
    | with_reducible refine Chip.lineCut_in ?_ (by decide +kernel)
    | with_reducible refine Chip.rxKind_in ?_ (by decide +kernel)
    | with_reducible refine Chip.rxStore_in ?_ (by decide +kernel)
    | with_reducible refine Within.inc ?_ (by decide +kernel)
    | with_reducible refine Within.ite ?_ ?_
    | split
    | dsimp only


/-- What `Chip.rxLeave` may change. -/
def Chip.rxLeave_fx : Fx := .union [Chip.sendToHost_fx, .of [] [.PTP_MODIFIED_COUNT]]
theorem Chip.rxLeave_in {X : Fx} {b0 c : Chip} {p : Nat} {f : RxFrame} (hW : Within X b0 c) (hX : Fx.le Chip.rxLeave_fx X = true) : Within X b0 (Chip.rxLeave c p f) := by
  refine hW.trans (Within.mono hX ?_)
  unfold Chip.rxLeave
  try dsimp only
  repeat' first
    | with_reducible assumption
    | with_reducible exact .refl _ _
    | with_reducible refine Chip.sendToHost_in ?_ (by decide +kernel)
    | with_reducible refine Within.inc ?_ (by decide +kernel)
    | with_reducible refine Within.ite ?_ ?_
    | split
    | dsimp only


/-- What `Chip.forward` may change. -/
def Chip.forward_fx : Fx := .union [Chip.rxLeave_fx, Chip.sendToHost_fx, .of [.host] []]
theorem Chip.forward_in {X : Fx} {b0 c : Chip} {p : Nat} (hW : Within X b0 c) (hX : Fx.le Chip.forward_fx X = true) : Within X b0 (Chip.forward c p) := by
  refine hW.trans (Within.mono hX ?_)
  unfold Chip.forward
  try dsimp only
  repeat' first
    | with_reducible assumption
    | with_reducible exact .refl _ _
    | with_reducible refine Chip.rxLeave_in ?_ (by decide +kernel)
    | with_reducible refine Chip.sendToHost_in ?_ (by decide +kernel)
    | with_reducible refine Within.setHost ?_ (by decide +kernel)
    | with_reducible refine Within.ite ?_ ?_
    | split
    | dsimp only


/-- What `Chip.laneLocks` may change. -/
def Chip.laneLocks_fx : Fx := .union [Chip.corrected_fx, .of [.hlane] [.HL_FEC_CORRECTED, .HL_FEC_UNCORR, .HL_PRBS_ERR, .HL_STATUS]]
theorem Chip.laneLocks_in {X : Fx} {b0 c : Chip} {h : Nat} {signal : Bool} {fec : Bool} {am : Bool} {corrected : Nat} {uncorrected : Nat} {prbs : Nat} (hW : Within X b0 c) (hX : Fx.le Chip.laneLocks_fx X = true) : Within X b0 (Chip.laneLocks c h signal fec am corrected uncorrected prbs) := by
  refine hW.trans (Within.mono hX ?_)
  unfold Chip.laneLocks
  try dsimp only
  repeat' first
    | with_reducible assumption
    | with_reducible exact .refl _ _
    | with_reducible refine Chip.corrected_in ?_ (by decide +kernel)
    | with_reducible refine Within.add ?_ (by decide +kernel)
    | with_reducible refine Within.setBit ?_ (by decide +kernel)
    | with_reducible refine Within.setLane ?_ (by decide +kernel)
    | with_reducible refine Within.ite ?_ ?_
    | split
    | dsimp only


end Sys2Proof.Machine
end

