-- ==== Sys2Proof/Laws/FramePowerEvents.lean ====
section
/-!
SUPPORT. Frames of the operations of `Machine/PowerEvents.lean`: which parts and objects each may change.
-/
set_option Elab.async false
namespace Sys2Proof.Machine

/-- What `Chip.afterWake` may change. -/
def Chip.afterWake_fx : Fx := .union [Chip.spiCarry_fx, Chip.taResume_fx]
theorem Chip.afterWake_in {X : Fx} {b0 c : Chip} {old : Chip} (hW : Within X b0 c) (hX : Fx.le Chip.afterWake_fx X = true) : Within X b0 (Chip.afterWake c old) := by
  refine hW.trans (Within.mono hX ?_)
  unfold Chip.afterWake
  try dsimp only
  repeat' first
    | with_reducible assumption
    | with_reducible exact .refl _ _
    | with_reducible refine Chip.spiCarry_in ?_ (by decide +kernel)
    | with_reducible refine Chip.taResume_in ?_ (by decide +kernel)
    | with_reducible refine Within.ite ?_ ?_
    | split
    | dsimp only


/-- What `Chip.wakeFromOff` may change. -/
def Chip.wakeFromOff_fx : Fx := .union [Chip.start_fx, .of [.dap] [.WAKE_CAUSE]]
theorem Chip.wakeFromOff_in {X : Fx} {b0 c : Chip} {cause : Nat} {b : BootInputs} (hW : Within X b0 c) (hX : Fx.le Chip.wakeFromOff_fx X = true) : Within X b0 (Chip.wakeFromOff c cause b) := by
  refine hW.trans (Within.mono hX ?_)
  unfold Chip.wakeFromOff
  try dsimp only [Chip.fold_dap]
  repeat' first
    | with_reducible assumption
    | with_reducible exact .refl _ _
    | with_reducible refine Chip.start_in ?_ (by decide +kernel)
    | with_reducible refine Within.wrDev ?_ (by decide +kernel)
    | with_reducible refine Within.put_dap ?_ (by decide +kernel)
    | with_reducible refine Within.ite ?_ ?_
    | split
    | dsimp only


/-- What `Chip.offLeave` may change. -/
def Chip.offLeave_fx : Fx := .union [Chip.spiCarry_fx, Chip.wakeFromOff_fx]
theorem Chip.offLeave_in {X : Fx} {b0 c : Chip} {b : BootInputs} (hW : Within X b0 c) (hX : Fx.le Chip.offLeave_fx X = true) : Within X b0 (Chip.offLeave c b) := by
  refine hW.trans (Within.mono hX ?_)
  unfold Chip.offLeave
  try dsimp only
  repeat' first
    | with_reducible assumption
    | with_reducible exact .refl _ _
    | with_reducible refine Chip.spiCarry_in ?_ (by decide +kernel)
    | with_reducible refine Chip.wakeFromOff_in ?_ (by decide +kernel)
    | with_reducible refine Within.ite ?_ ?_
    | split
    | dsimp only


/-- What `Chip.wakeStep` may change. -/
def Chip.wakeStep_fx : Fx := .union [Chip.deviceStepDone_fx, Chip.startFirmware_fx, .of [.pwr] [.PWR_TRANSITION_COUNT, .WAKE_TIME]]
theorem Chip.wakeStep_in {X : Fx} {b0 c : Chip} {us : Nat} {kHz : Nat} (hW : Within X b0 c) (hX : Fx.le Chip.wakeStep_fx X = true) : Within X b0 (Chip.wakeStep c us kHz) := by
  refine hW.trans (Within.mono hX ?_)
  unfold Chip.wakeStep
  try dsimp only
  repeat' first
    | with_reducible assumption
    | with_reducible exact .refl _ _
    | with_reducible refine Chip.deviceStepDone_in ?_ (by decide +kernel)
    | with_reducible refine Chip.startFirmware_in ?_ (by decide +kernel)
    | with_reducible refine Within.wrDev ?_ (by decide +kernel)
    | with_reducible refine Within.inc ?_ (by decide +kernel)
    | with_reducible refine Within.setPwr ?_ (by decide +kernel)
    | with_reducible refine Within.ite ?_ ?_
    | split
    | dsimp only


/-- What `Chip.thermTripped` may change. -/
def Chip.thermTripped_fx : Fx := .union [Chip.groupsGo_fx, Chip.regFailed_fx, .of [.draws] []]
theorem Chip.thermTripped_in {X : Fx} {b0 c : Chip} {t : Nat} (hW : Within X b0 c) (hX : Fx.le Chip.thermTripped_fx X = true) : Within X b0 (Chip.thermTripped c t) := by
  refine hW.trans (Within.mono hX ?_)
  unfold Chip.thermTripped
  try dsimp only
  repeat' first
    | with_reducible assumption
    | with_reducible exact .refl _ _
    | with_reducible refine Chip.groupsGo_in ?_ (by decide +kernel)
    | with_reducible refine Chip.regFailed_in ?_ (by decide +kernel)
    | with_reducible refine Within.draw ?_ (by decide +kernel)
    | with_reducible refine Within.ite ?_ ?_
    | split
    | dsimp only


end Sys2Proof.Machine
end

