-- ==== Sys2Proof/Laws/FrameSchedEvents.lean ====
section
/-!
SUPPORT. Frames of the operations of `Machine/SchedEvents.lean`: which parts and objects each may change.
-/
set_option Elab.async false
namespace Sys2Proof.Machine

/-- What `Chip.readLate` may change. -/
def Chip.readLate_fx : Fx := Chip.missObserved_fx
theorem Chip.readLate_in {X : Fx} {b0 c : Chip} {f : Frame} (hW : Within X b0 c) (hX : Fx.le Chip.readLate_fx X = true) : Within X b0 (Chip.readLate c f) := by
  refine hW.trans (Within.mono hX ?_)
  unfold Chip.readLate
  try dsimp only
  repeat' first
    | with_reducible assumption
    | with_reducible exact .refl _ _
    | with_reducible refine Chip.missObserved_in ?_ (by decide +kernel)
    | with_reducible refine Within.ite ?_ ?_
    | split
    | dsimp only


/-- What `Chip.startChosen` may change. -/
def Chip.startChosen_fx : Fx := .union [Chip.blink_fx, Chip.lpiReplan_fx, Chip.passed_fx, Chip.readLate_fx, Chip.startCand_fx]
theorem Chip.startChosen_in {X : Fx} {b0 c : Chip} {g : Grid} {p : Nat} {pos : Nat} {x : Cand} {k : Pick} {passed : Bool} {ready : Bool} (hW : Within X b0 c) (hX : Fx.le Chip.startChosen_fx X = true) : Within X b0 (Chip.startChosen c g p pos x k passed ready) := by
  refine hW.trans (Within.mono hX ?_)
  unfold Chip.startChosen
  try dsimp only
  repeat' first
    | with_reducible assumption
    | with_reducible exact .refl _ _
    | with_reducible refine Chip.blink_in ?_ (by decide +kernel)
    | with_reducible refine Chip.lpiReplan_in ?_ (by decide +kernel)
    | with_reducible refine Chip.passed_in ?_ (by decide +kernel)
    | with_reducible refine Chip.readLate_in ?_ (by decide +kernel)
    | with_reducible refine Chip.startCand_in ?_ (by decide +kernel)
    | with_reducible refine Within.ite ?_ ?_
    | split
    | dsimp only


/-- What `Chip.endBegun` may change. -/
def Chip.endBegun_fx : Fx := .union [Chip.pfcEval_fx, .of [.sched] []]
theorem Chip.endBegun_in {X : Fx} {b0 c : Chip} {p : Nat} {id : Nat} (hW : Within X b0 c) (hX : Fx.le Chip.endBegun_fx X = true) : Within X b0 (Chip.endBegun c p id) := by
  refine hW.trans (Within.mono hX ?_)
  unfold Chip.endBegun
  try dsimp only
  repeat' first
    | with_reducible assumption
    | with_reducible exact .refl _ _
    | with_reducible refine Chip.pfcEval_in ?_ (by decide +kernel)
    | with_reducible refine Within.setSch ?_ (by decide +kernel)
    | with_reducible refine Within.ite ?_ ?_
    | split
    | dsimp only


end Sys2Proof.Machine
end

