-- ==== Sys2Proof/Laws/FrameTimeEvents.lean ====
section
/-!
SUPPORT. Frames of the operations of `Machine/TimeEvents.lean`: which parts and objects each may change.
-/
set_option Elab.async false
namespace Sys2Proof.Machine

/-- What `Chip.taRow` may change. -/
def Chip.taRow_fx : Fx := Chip.taDue_fx
theorem Chip.taRow_in {X : Fx} {b0 c : Chip} {row : Nat} {kind : Nat} (hW : Within X b0 c) (hX : Fx.le Chip.taRow_fx X = true) : Within X b0 (Chip.taRow c row kind) := by
  refine hW.trans (Within.mono hX ?_)
  unfold Chip.taRow
  try dsimp only
  repeat' first
    | with_reducible assumption
    | with_reducible exact .refl _ _
    | with_reducible refine Chip.taDue_in ?_ (by decide +kernel)
    | with_reducible refine Within.ite ?_ ?_
    | split
    | dsimp only


end Sys2Proof.Machine
end

