-- ==== Sys2Proof/Laws/FrameWaleEvents.lean ====
section
/-!
SUPPORT. Frames of the operations of `Machine/WaleEvents.lean`: which parts and objects each may change.
-/
set_option Elab.async false
namespace Sys2Proof.Machine

/-- What `Chip.headerLock` may change. -/
def Chip.headerLock_fx : Fx := .of [.wale] [.WL_HDR_VALID, .WL_SLIP_POS, .WL_STATE, .WL_STATUS]
theorem Chip.headerLock_in {X : Fx} {b0 c : Chip} {w : Nat} {pos : Nat} (hW : Within X b0 c) (hX : Fx.le Chip.headerLock_fx X = true) : Within X b0 (Chip.headerLock c w pos) := by
  refine hW.trans (Within.mono hX ?_)
  unfold Chip.headerLock
  try dsimp only
  repeat' first
    | with_reducible assumption
    | with_reducible exact .refl _ _
    | with_reducible refine Within.wr ?_ (by decide +kernel)
    | with_reducible refine Within.setBit ?_ (by decide +kernel)
    | with_reducible refine Within.setWl ?_ (by decide +kernel)
    | with_reducible refine Within.ite ?_ ?_
    | split
    | dsimp only


/-- What `Chip.headerLost` may change. -/
def Chip.headerLost_fx : Fx := .union [Chip.wlDrop_fx, .of [] [.WL_HDR_ERR, .WL_HDR_VALID, .WL_STATUS]]
theorem Chip.headerLost_in {X : Fx} {b0 c : Chip} {w : Nat} {invalid : Nat} {valid : Nat} {signal : Bool} (hW : Within X b0 c) (hX : Fx.le Chip.headerLost_fx X = true) : Within X b0 (Chip.headerLost c w invalid valid signal) := by
  refine hW.trans (Within.mono hX ?_)
  unfold Chip.headerLost
  try dsimp only
  repeat' first
    | with_reducible assumption
    | with_reducible exact .refl _ _
    | with_reducible refine Chip.wlDrop_in ?_ (by decide +kernel)
    | with_reducible refine Within.wr ?_ (by decide +kernel)
    | with_reducible refine Within.add ?_ (by decide +kernel)
    | with_reducible refine Within.setBit ?_ (by decide +kernel)
    | with_reducible refine Within.ite ?_ ?_
    | split
    | dsimp only


end Sys2Proof.Machine
end

