-- ==== Sys2Proof/Laws/FrameSent.lean ====
section
/-!
SUPPORT. Frames of the operations of `Machine/Sent.lean`: which parts and objects each may change.
-/
set_option Elab.async false
namespace Sys2Proof.Machine

/-- What `Chip.lanePeriod` may change. -/
def Chip.lanePeriod_fx : Fx := .of [.pes] []
theorem Chip.lanePeriod_in {X : Fx} {b0 c : Chip} {p : Nat} {e : Nat} (hW : Within X b0 c) (hX : Fx.le Chip.lanePeriod_fx X = true) : Within X b0 (Chip.lanePeriod c p e) := by
  refine hW.trans (Within.mono hX ?_)
  unfold Chip.lanePeriod
  try dsimp only
  repeat' first
    | with_reducible assumption
    | with_reducible exact .refl _ _
    | with_reducible refine Within.setPe ?_ (by decide +kernel)
    | with_reducible refine Within.ite ?_ ?_
    | split
    | dsimp only


/-- What `Chip.period` may change. -/
def Chip.period_fx : Fx := .union [Chip.lanePeriod_fx, .of [.pes, .ports] []]
theorem Chip.period_in {X : Fx} {b0 c : Chip} {p : Nat} {n : Nat} (hW : Within X b0 c) (hX : Fx.le Chip.period_fx X = true) : Within X b0 (Chip.period c p n) := by
  refine hW.trans (Within.mono hX ?_)
  unfold Chip.period
  try dsimp only
  repeat' first
    | with_reducible assumption
    | with_reducible exact .refl _ _
    | with_reducible refine Chip.lanePeriod_in ?_ (by decide +kernel)
    | with_reducible refine Within.setPort ?_ (by decide +kernel)
    | with_reducible refine Within.setPe ?_ (by decide +kernel)
    | with_reducible refine Within.each (fun _ _ _ => ?_) ?_
    | with_reducible refine Within.ite ?_ ?_
    | split
    | dsimp only


/-- What `Chip.laneSent` may change. -/
def Chip.laneSent_fx : Fx := .of [.pes] []
theorem Chip.laneSent_in {X : Fx} {b0 c : Chip} {p : Nat} {e : Nat} {n : Nat} (hW : Within X b0 c) (hX : Fx.le Chip.laneSent_fx X = true) : Within X b0 (Chip.laneSent c p e n) := by
  refine hW.trans (Within.mono hX ?_)
  unfold Chip.laneSent
  try dsimp only
  repeat' first
    | with_reducible assumption
    | with_reducible exact .refl _ _
    | with_reducible refine Within.setPe ?_ (by decide +kernel)
    | with_reducible refine Within.ite ?_ ?_
    | split
    | dsimp only


/-- What `Chip.cwSent` may change. -/
def Chip.cwSent_fx : Fx := .union [Chip.laneSent_fx, Chip.period_fx, .of [.sched] []]
theorem Chip.cwSent_in {X : Fx} {b0 c : Chip} {p : Nat} {n : Nat} (hW : Within X b0 c) (hX : Fx.le Chip.cwSent_fx X = true) : Within X b0 (Chip.cwSent c p n) := by
  refine hW.trans (Within.mono hX ?_)
  unfold Chip.cwSent
  try dsimp only
  repeat' first
    | with_reducible assumption
    | with_reducible exact .refl _ _
    | with_reducible refine Chip.laneSent_in ?_ (by decide +kernel)
    | with_reducible refine Chip.period_in ?_ (by decide +kernel)
    | with_reducible refine Within.setSch ?_ (by decide +kernel)
    | with_reducible refine Within.each (fun _ _ _ => ?_) ?_
    | with_reducible refine Within.ite ?_ ?_
    | split
    | dsimp only


/-- What `Chip.portTick` may change. -/
def Chip.portTick_fx : Fx := .union [Chip.cwSent_fx, Chip.period_fx]
theorem Chip.portTick_in {X : Fx} {b0 c : Chip} {p : Nat} (hW : Within X b0 c) (hX : Fx.le Chip.portTick_fx X = true) : Within X b0 (Chip.portTick c p) := by
  refine hW.trans (Within.mono hX ?_)
  unfold Chip.portTick
  try dsimp only
  repeat' first
    | with_reducible assumption
    | with_reducible exact .refl _ _
    | with_reducible refine Chip.cwSent_in ?_ (by decide +kernel)
    | with_reducible refine Chip.period_in ?_ (by decide +kernel)
    | with_reducible refine Within.ite ?_ ?_
    | split
    | dsimp only


end Sys2Proof.Machine
end

