-- ==== Sys2Proof/Laws/FrameTick.lean ====
section
/-!
SUPPORT. Frames of the operations of `Machine/Tick.lean`: which parts and objects each may change.
-/
set_option Elab.async false
namespace Sys2Proof.Machine

/-- What `Chip.edges` may change. -/
def Chip.edges_fx : Fx := .of [.root, .tb] []
theorem Chip.edges_in {X : Fx} {b0 c : Chip} (hW : Within X b0 c) (hX : Fx.le Chip.edges_fx X = true) : Within X b0 c.edges :=
  hW.trans (Within.mono hX (((Within.refl _ _).upd_root (v := c.root + 8) (by decide +kernel)).upd_tb (v := c.tbNext) (by decide +kernel)))

/-- What `Chip.dueNow` may change. -/
def Chip.dueNow_fx : Fx := .union [Chip.deadlineRevert_fx, Chip.ppsBegin_fx, Chip.ppsStop_fx, Chip.swapDue_fx, Chip.taDue_fx]
theorem Chip.dueNow_in {X : Fx} {b0 c : Chip}  (hW : Within X b0 c) (hX : Fx.le Chip.dueNow_fx X = true) : Within X b0 (Chip.dueNow c) := by
  refine hW.trans (Within.mono hX ?_)
  unfold Chip.dueNow
  try dsimp only
  repeat' first
    | with_reducible assumption
    | with_reducible exact .refl _ _
    | with_reducible refine Chip.deadlineRevert_in ?_ (by decide +kernel)
    | with_reducible refine Chip.ppsBegin_in ?_ (by decide +kernel)
    | with_reducible refine Chip.ppsStop_in ?_ (by decide +kernel)
    | with_reducible refine Chip.swapDue_in ?_ (by decide +kernel)
    | with_reducible refine Chip.taDue_in ?_ (by decide +kernel)
    | with_reducible refine Within.each (fun _ _ _ => ?_) ?_
    | with_reducible refine Within.ite ?_ ?_
    | split
    | dsimp only


/-- What `Chip.advance` may change. -/
def Chip.advance_fx : Fx := .union [Chip.edges_fx, Chip.portTick_fx, Chip.slotPass_fx, Chip.trimPresence_fx, Chip.trimStep_fx, .of [.time] []]
theorem Chip.advance_in {X : Fx} {b0 c : Chip}  (hW : Within X b0 c) (hX : Fx.le Chip.advance_fx X = true) : Within X b0 (Chip.advance c) := by
  refine hW.trans (Within.mono hX ?_)
  unfold Chip.advance
  try dsimp only
  repeat' first
    | with_reducible assumption
    | with_reducible exact .refl _ _
    | with_reducible refine Chip.edges_in ?_ (by decide +kernel)
    | with_reducible refine Chip.portTick_in ?_ (by decide +kernel)
    | with_reducible refine Chip.slotPass_in ?_ (by decide +kernel)
    | with_reducible refine Chip.trimPresence_in ?_ (by decide +kernel)
    | with_reducible refine Chip.trimStep_in ?_ (by decide +kernel)
    | with_reducible refine Within.setTime ?_ (by decide +kernel)
    | with_reducible refine Within.each (fun _ _ _ => ?_) ?_
    | with_reducible refine Within.ite ?_ ?_
    | split
    | dsimp only


/-- What `Chip.tick` may change. -/
def Chip.tick_fx : Fx := .union [Chip.advance_fx, Chip.dueNow_fx]
theorem Chip.tick_in {X : Fx} {b0 c : Chip}  (hW : Within X b0 c) (hX : Fx.le Chip.tick_fx X = true) : Within X b0 (Chip.tick c) := by
  refine hW.trans (Within.mono hX ?_)
  unfold Chip.tick
  try dsimp only
  repeat' first
    | with_reducible assumption
    | with_reducible exact .refl _ _
    | with_reducible refine Chip.advance_in ?_ (by decide +kernel)
    | with_reducible refine Chip.dueNow_in ?_ (by decide +kernel)
    | with_reducible refine Within.ite ?_ ?_
    | split
    | dsimp only


end Sys2Proof.Machine
end

