-- ==== Sys2Proof/Laws/FrameExecAncEvents.lean ====
section
/-!
SUPPORT. Frames of the commands of `Machine/AncEvents.lean`: which parts and objects each may change.
-/
set_option Elab.async false
namespace Sys2Proof.Machine

/-- What `execAncPassStart` may change. -/
def execAncPassStart_fx : Fx := .of [.anc] []
theorem execAncPassStart_after (v : PeNo) (s : State) : AfterOut execAncPassStart_fx s (execAncPassStart v s) := by
  unfold execAncPassStart
  refine State.run_after fun c => ?_
  try dsimp only
  repeat' first
    | with_reducible assumption
    | with_reducible exact .refl _ _
    | with_reducible refine Within.setAnc ?_ (by decide +kernel)
    | with_reducible refine Within.ite ?_ ?_
    | split
    | dsimp only

/-- What `execAncPassEnd` may change. -/
def execAncPassEnd_fx : Fx := Chip.passEnd_fx
theorem execAncPassEnd_after (v : PeNo) (ranked : List Candidate) (s : State) : AfterOut execAncPassEnd_fx s (execAncPassEnd v ranked s) := by
  unfold execAncPassEnd
  refine State.run_after fun c => ?_
  try dsimp only
  repeat' first
    | with_reducible assumption
    | with_reducible exact .refl _ _
    | with_reducible refine Chip.passEnd_in ?_ (by decide +kernel)
    | with_reducible refine Within.ite ?_ ?_
    | split
    | dsimp only

/-- What `execProbationEnd` may change. -/
def execProbationEnd_fx : Fx := Chip.probationEnd_fx
theorem execProbationEnd_after (v : PeNo) (slot : Fin 8) (x : Int) (s : State) : AfterOut execProbationEnd_fx s (execProbationEnd v slot x s) := by
  unfold execProbationEnd
  refine State.run_after fun c => ?_
  try dsimp only
  repeat' first
    | with_reducible assumption
    | with_reducible exact .refl _ _
    | with_reducible refine Chip.probationEnd_in ?_ (by decide +kernel)
    | with_reducible refine Within.ite ?_ ?_
    | split
    | dsimp only

/-- What `execFrozenThaw` may change. -/
def execFrozenThaw_fx : Fx := .union [Chip.setSlot_fx, .of [] [.ANC_ADMIT_COUNT]]
theorem execFrozenThaw_after (v : PeNo) (slot : Fin 8) (s : State) : AfterOut execFrozenThaw_fx s (execFrozenThaw v slot s) := by
  unfold execFrozenThaw
  refine State.run_after fun c => ?_
  try dsimp only
  repeat' first
    | with_reducible assumption
    | with_reducible exact .refl _ _
    | with_reducible refine Chip.setSlot_in ?_ (by decide +kernel)
    | with_reducible refine Within.inc ?_ (by decide +kernel)
    | with_reducible refine Within.ite ?_ ?_
    | split
    | dsimp only

/-- What `execAncHoldExpire` may change. -/
def execAncHoldExpire_fx : Fx := Chip.releaseSlot_fx
theorem execAncHoldExpire_after (v : PeNo) (slot : Fin 8) (s : State) : AfterOut execAncHoldExpire_fx s (execAncHoldExpire v slot s) := by
  unfold execAncHoldExpire
  refine State.run_after fun c => ?_
  try dsimp only
  repeat' first
    | with_reducible assumption
    | with_reducible exact .refl _ _
    | with_reducible refine Chip.releaseSlot_in ?_ (by decide +kernel)
    | with_reducible refine Within.ite ?_ ?_
    | split
    | dsimp only

/-- What `execWeaveMapCopyWrite` may change. -/
def execWeaveMapCopyWrite_fx : Fx := Chip.weaveCopy_fx
theorem execWeaveMapCopyWrite_after  (s : State) : AfterOut execWeaveMapCopyWrite_fx s (execWeaveMapCopyWrite s) := by
  unfold execWeaveMapCopyWrite
  refine State.run_after fun c => ?_
  try dsimp only
  repeat' first
    | with_reducible assumption
    | with_reducible exact .refl _ _
    | with_reducible refine Chip.weaveCopy_in ?_ (by decide +kernel)
    | with_reducible refine Within.ite ?_ ?_
    | split
    | dsimp only

/-- What `execAncSlotWrite` may change. -/
def execAncSlotWrite_fx : Fx := .union [Chip.writeAncSlot_fx, .of [.access] []]
theorem execAncSlotWrite_after (v : PeNo) (row : Nat) (value : BitVec 64) (s : State) : AfterOut execAncSlotWrite_fx s (execAncSlotWrite v row value s) := by
  unfold execAncSlotWrite
  refine State.runWr_after (by decide +kernel) fun c => ?_
  try dsimp only
  repeat' first
    | with_reducible assumption
    | with_reducible exact .refl _ _
    | with_reducible refine Chip.gatedRow_in (fun _ _ => ?_) ?_
    | with_reducible refine Chip.writeAncSlot_in ?_ (by decide +kernel)
    | with_reducible refine Within.ite ?_ ?_
    | split
    | dsimp only

/-- What `execAncEnableWrite` may change. -/
def execAncEnableWrite_fx : Fx := .union [Chip.writeAncEnable_fx, .of [.access] []]
theorem execAncEnableWrite_after (p : PortNo) (value : BitVec 8) (s : State) : AfterOut execAncEnableWrite_fx s (execAncEnableWrite p value s) := by
  unfold execAncEnableWrite
  refine State.runWr_after (by decide +kernel) fun c => ?_
  try dsimp only
  repeat' first
    | with_reducible assumption
    | with_reducible exact .refl _ _
    | with_reducible refine Chip.gated_in (fun _ _ => ?_) ?_
    | with_reducible refine Chip.writeAncEnable_in ?_ (by decide +kernel)
    | with_reducible refine Within.ite ?_ ?_
    | split
    | dsimp only

/-- What `execAncMapClear` may change. -/
def execAncMapClear_fx : Fx := .union [Chip.writeMapClear_fx, .of [.access] []]
theorem execAncMapClear_after (value : BitVec 8) (s : State) : AfterOut execAncMapClear_fx s (execAncMapClear value s) := by
  unfold execAncMapClear
  refine State.runWr_after (by decide +kernel) fun c => ?_
  try dsimp only
  repeat' first
    | with_reducible assumption
    | with_reducible exact .refl _ _
    | with_reducible refine Chip.gated_in (fun _ _ => ?_) ?_
    | with_reducible refine Chip.writeMapClear_in ?_ (by decide +kernel)
    | with_reducible refine Within.ite ?_ ?_
    | split
    | dsimp only

/-- What `execAncMapPersistWrite` may change. -/
def execAncMapPersistWrite_fx : Fx := .union [Chip.writeMapPersist_fx, .of [.access] []]
theorem execAncMapPersistWrite_after (value : BitVec 8) (s : State) : AfterOut execAncMapPersistWrite_fx s (execAncMapPersistWrite value s) := by
  unfold execAncMapPersistWrite
  refine State.runWr_after (by decide +kernel) fun c => ?_
  try dsimp only
  repeat' first
    | with_reducible assumption
    | with_reducible exact .refl _ _
    | with_reducible refine Chip.gated_in (fun _ _ => ?_) ?_
    | with_reducible refine Chip.writeMapPersist_in ?_ (by decide +kernel)
    | with_reducible refine Within.ite ?_ ?_
    | split
    | dsimp only

end Sys2Proof.Machine
end

