-- ==== Sys2Proof/Laws/FrameExecBufferEvents.lean ====
section
/-!
SUPPORT. Frames of the commands of `Machine/BufferEvents.lean`: which parts and objects each may change.
-/
set_option Elab.async false
namespace Sys2Proof.Machine

/-- What `execAdmitCell` may change. -/
def execAdmitCell_fx : Fx := .union [Chip.dropArriving_fx, Chip.frameEligible_fx, Chip.missObserved_fx, Chip.pfcEval_fx, .of [.buf, .sched] []]
theorem execAdmitCell_after (p : PortNo) (h : QcNo) (fill : WriteFill) (s : State) : AfterOut execAdmitCell_fx s (execAdmitCell p h fill s) := by
  unfold execAdmitCell
  refine State.run_after fun c => ?_
  try dsimp only [Chip.fold_buf]
  repeat' first
    | with_reducible assumption
    | with_reducible exact .refl _ _
    | with_reducible refine Chip.dropArriving_in ?_ (by decide +kernel)
    | with_reducible refine Chip.frameEligible_in ?_ (by decide +kernel)
    | with_reducible refine Chip.missObserved_in ?_ (by decide +kernel)
    | with_reducible refine Chip.pfcEval_in ?_ (by decide +kernel)
    | with_reducible refine Within.setSch ?_ (by decide +kernel)
    | with_reducible refine Within.put_buf ?_ (by decide +kernel)
    | with_reducible refine Within.ite ?_ ?_
    | split
    | dsimp only

/-- What `execScrubRead` may change. -/
def execScrubRead_fx : Fx := .union [Chip.corrected_fx, Chip.retire_fx, .of [.buf, .queues] [.QC_UE_COUNT]]
theorem execScrubRead_after (h : QcNo) (cell : Fin 65536) (found : ScrubFound) (s : State) : AfterOut execScrubRead_fx s (execScrubRead h cell found s) := by
  unfold execScrubRead
  refine State.run_after fun c => ?_
  try dsimp only [Chip.fold_buf, Chip.fold_queues]
  repeat' first
    | with_reducible assumption
    | with_reducible exact .refl _ _
    | with_reducible refine Chip.corrected_in ?_ (by decide +kernel)
    | with_reducible refine Chip.retire_in ?_ (by decide +kernel)
    | with_reducible refine Within.inc ?_ (by decide +kernel)
    | with_reducible refine Within.put_buf ?_ (by decide +kernel)
    | with_reducible refine Within.put_queues ?_ (by decide +kernel)
    | with_reducible refine Within.ite ?_ ?_
    | split
    | dsimp only

/-- What `execScrubWriteback` may change. -/
def execScrubWriteback_fx : Fx := .of [.buf] []
theorem execScrubWriteback_after (h : QcNo) (cell : Fin 65536) (s : State) : AfterOut execScrubWriteback_fx s (execScrubWriteback h cell s) := by
  unfold execScrubWriteback
  refine State.run_after fun c => ?_
  try dsimp only [Chip.fold_buf]
  repeat' first
    | with_reducible assumption
    | with_reducible exact .refl _ _
    | with_reducible refine Within.put_buf ?_ (by decide +kernel)
    | with_reducible refine Within.ite ?_ ?_
    | split
    | dsimp only

/-- What `execQcRetire` may change. -/
def execQcRetire_fx : Fx := .union [Chip.writeQcRetire_fx, .of [.access] []]
theorem execQcRetire_after (h : QcNo) (v : BitVec 8) (s : State) : AfterOut execQcRetire_fx s (execQcRetire h v s) := by
  unfold execQcRetire
  refine State.runWr_after (by decide +kernel) fun c => ?_
  try dsimp only
  repeat' first
    | with_reducible assumption
    | with_reducible exact .refl _ _
    | with_reducible refine Chip.gated_in (fun _ _ => ?_) ?_
    | with_reducible refine Chip.writeQcRetire_in ?_ (by decide +kernel)
    | with_reducible refine Within.ite ?_ ?_
    | split
    | dsimp only

/-- What `execChannelDrained` may change. -/
def execChannelDrained_fx : Fx := Chip.drained_fx
theorem execChannelDrained_after (h : QcNo) (s : State) : AfterOut execChannelDrained_fx s (execChannelDrained h s) := by
  unfold execChannelDrained
  refine State.run_after fun c => ?_
  try dsimp only
  repeat' first
    | with_reducible assumption
    | with_reducible exact .refl _ _
    | with_reducible refine Chip.drained_in ?_ (by decide +kernel)
    | with_reducible refine Within.ite ?_ ?_
    | split
    | dsimp only

/-- What `execBufReevaluate` may change. -/
def execBufReevaluate_fx : Fx := .union [Chip.writeReevaluate_fx, .of [.access] []]
theorem execBufReevaluate_after (v : BitVec 8) (s : State) : AfterOut execBufReevaluate_fx s (execBufReevaluate v s) := by
  unfold execBufReevaluate
  refine State.runWr_after (by decide +kernel) fun c => ?_
  try dsimp only
  repeat' first
    | with_reducible assumption
    | with_reducible exact .refl _ _
    | with_reducible refine Chip.gated_in (fun _ _ => ?_) ?_
    | with_reducible refine Chip.writeReevaluate_in ?_ (by decide +kernel)
    | with_reducible refine Within.ite ?_ ?_
    | split
    | dsimp only

end Sys2Proof.Machine
end

