-- ==== Sys2Proof/Laws/FrameExecLanes.lean ====
section
/-!
SUPPORT. Frames of the commands of `Machine/Lanes.lean`: which parts and objects each may change.
-/
set_option Elab.async false
namespace Sys2Proof.Machine

/-- What `execReceiveCodeword` may change. -/
def execReceiveCodeword_fx : Fx := .union [Chip.alignTake_fx, Chip.corrected_fx, Chip.mgmtTake_fx, .of [.pes] [.BITS_CORRECTED, .CW_AUXCRC_FAIL, .CW_CORRECTED, .CW_COUNT, .CW_UNCORRECTABLE, .LDPC_ITER_HIST, .PE_LANE_STATUS]]
theorem execReceiveCodeword_after (e : PeNo) (decoded : BitVec 2048) (iterations : Nat) (corrected : Nat) (s : State) : AfterOut execReceiveCodeword_fx s (execReceiveCodeword e decoded iterations corrected s) := by
  unfold execReceiveCodeword
  refine State.run_after fun c => ?_
  try dsimp only
  repeat' first
    | with_reducible assumption
    | with_reducible exact .refl _ _
    | with_reducible refine Chip.alignTake_in ?_ (by decide +kernel)
    | with_reducible refine Chip.corrected_in ?_ (by decide +kernel)
    | with_reducible refine Chip.mgmtTake_in ?_ (by decide +kernel)
    | with_reducible refine Within.addRow ?_ (by decide +kernel)
    | with_reducible refine Within.inc ?_ (by decide +kernel)
    | with_reducible refine Within.add ?_ (by decide +kernel)
    | with_reducible refine Within.setBit ?_ (by decide +kernel)
    | with_reducible refine Within.setPe ?_ (by decide +kernel)
    | with_reducible refine Within.ite ?_ ?_
    | split
    | dsimp only

/-- What `execUncorrectableRun` may change. -/
def execUncorrectableRun_fx : Fx := Chip.lanesJudge_fx
theorem execUncorrectableRun_after (e : PeNo) (pick : BitVec 8) (s : State) : AfterOut execUncorrectableRun_fx s (execUncorrectableRun e pick s) := by
  unfold execUncorrectableRun
  refine State.run_after fun c => ?_
  try dsimp only
  repeat' first
    | with_reducible assumption
    | with_reducible exact .refl _ _
    | with_reducible refine Chip.lanesJudge_in ?_ (by decide +kernel)
    | with_reducible refine Within.ite ?_ ?_
    | split
    | dsimp only

/-- What `execAuxcrcLimitExceeded` may change. -/
def execAuxcrcLimitExceeded_fx : Fx := Chip.lanesJudge_fx
theorem execAuxcrcLimitExceeded_after (e : PeNo) (pick : BitVec 8) (s : State) : AfterOut execAuxcrcLimitExceeded_fx s (execAuxcrcLimitExceeded e pick s) := by
  unfold execAuxcrcLimitExceeded
  refine State.run_after fun c => ?_
  try dsimp only
  repeat' first
    | with_reducible assumption
    | with_reducible exact .refl _ _
    | with_reducible refine Chip.lanesJudge_in ?_ (by decide +kernel)
    | with_reducible refine Within.ite ?_ ?_
    | split
    | dsimp only

/-- What `execMarginWindowEnd` may change. -/
def execMarginWindowEnd_fx : Fx := .union [Chip.ancGains_fx, Chip.lanesJudge_fx, Chip.lpiWindow_fx, Chip.lqWindow_fx, Chip.phase_fx, .of [.pes] [.PE_ECHO_RESIDUAL, .PE_FREQ_OFFSET, .PE_LDPC_ITER_MEAN, .PE_MARGIN, .PE_PGA_GAIN, .PE_RX_SKEW, .PE_SNR, .PE_TIMING_PHASE]]
theorem execMarginWindowEnd_after (e : PeNo) (m : WindowMeas) (pick : BitVec 8) (s : State) : AfterOut execMarginWindowEnd_fx s (execMarginWindowEnd e m pick s) := by
  unfold execMarginWindowEnd
  refine State.run_after fun c => ?_
  try dsimp only
  repeat' first
    | with_reducible assumption
    | with_reducible exact .refl _ _
    | with_reducible refine Chip.ancGains_in ?_ (by decide +kernel)
    | with_reducible refine Chip.lanesJudge_in ?_ (by decide +kernel)
    | with_reducible refine Chip.lpiWindow_in ?_ (by decide +kernel)
    | with_reducible refine Chip.lqWindow_in ?_ (by decide +kernel)
    | with_reducible refine Chip.phase_in ?_ (by decide +kernel)
    | with_reducible refine Within.wr ?_ (by decide +kernel)
    | with_reducible refine Within.wrInt ?_ (by decide +kernel)
    | with_reducible refine Within.setPe ?_ (by decide +kernel)
    | with_reducible refine Within.ite ?_ ?_
    | split
    | dsimp only

/-- What `execMcPairDropReq` may change. -/
def execMcPairDropReq_fx : Fx := .union [Chip.goDown_fx, .of [.ports] []]
theorem execMcPairDropReq_after (e : PeNo) (msg : BitVec 128) (pick : BitVec 8) (s : State) : AfterOut execMcPairDropReq_fx s (execMcPairDropReq e msg pick s) := by
  unfold execMcPairDropReq
  refine State.run_after fun c => ?_
  try dsimp only
  repeat' first
    | with_reducible assumption
    | with_reducible exact .refl _ _
    | with_reducible refine Chip.goDown_in ?_ (by decide +kernel)
    | with_reducible refine Within.setPort ?_ (by decide +kernel)
    | with_reducible refine Within.ite ?_ ?_
    | split
    | dsimp only

/-- What `execMcPairDropAck` may change. -/
def execMcPairDropAck_fx : Fx := .union [Chip.goDown_fx, .of [.ports] []]
theorem execMcPairDropAck_after (e : PeNo) (msg : BitVec 128) (s : State) : AfterOut execMcPairDropAck_fx s (execMcPairDropAck e msg s) := by
  unfold execMcPairDropAck
  refine State.run_after fun c => ?_
  try dsimp only
  repeat' first
    | with_reducible assumption
    | with_reducible exact .refl _ _
    | with_reducible refine Chip.goDown_in ?_ (by decide +kernel)
    | with_reducible refine Within.setPort ?_ (by decide +kernel)
    | with_reducible refine Within.ite ?_ ?_
    | split
    | dsimp only

/-- What `execPairDropSwitch` may change. -/
def execPairDropSwitch_fx : Fx := .union [Chip.goDown_fx, Chip.setRxLanes_fx, Chip.switchTx_fx, .of [.ports] []]
theorem execPairDropSwitch_after (p : PortNo) (transmit : Bool) (s : State) : AfterOut execPairDropSwitch_fx s (execPairDropSwitch p transmit s) := by
  unfold execPairDropSwitch
  refine State.run_after fun c => ?_
  try dsimp only
  repeat' first
    | with_reducible assumption
    | with_reducible exact .refl _ _
    | with_reducible refine Chip.goDown_in ?_ (by decide +kernel)
    | with_reducible refine Chip.setRxLanes_in ?_ (by decide +kernel)
    | with_reducible refine Chip.switchTx_in ?_ (by decide +kernel)
    | with_reducible refine Within.setPort ?_ (by decide +kernel)
    | with_reducible refine Within.ite ?_ ?_
    | split
    | dsimp only

/-- What `execMcLaneStatus` may change. -/
def execMcLaneStatus_fx : Fx := .of [.pes] []
theorem execMcLaneStatus_after (e : PeNo) (msg : BitVec 128) (s : State) : AfterOut execMcLaneStatus_fx s (execMcLaneStatus e msg s) := by
  unfold execMcLaneStatus
  refine State.run_after fun c => ?_
  try dsimp only
  repeat' first
    | with_reducible assumption
    | with_reducible exact .refl _ _
    | with_reducible refine Within.setPe ?_ (by decide +kernel)
    | with_reducible refine Within.ite ?_ ?_
    | split
    | dsimp only

/-- What `execMcPrecoder` may change. -/
def execMcPrecoder_fx : Fx := .of [.pes] []
theorem execMcPrecoder_after (e : PeNo) (msg : BitVec 128) (s : State) : AfterOut execMcPrecoder_fx s (execMcPrecoder e msg s) := by
  unfold execMcPrecoder
  refine State.run_after fun c => ?_
  try dsimp only
  repeat' first
    | with_reducible assumption
    | with_reducible exact .refl _ _
    | with_reducible refine Within.setPe ?_ (by decide +kernel)
    | with_reducible refine Within.foldl (fun _ _ _ => ?_) ?_
    | with_reducible refine Within.foldl1 (fun _ _ _ => ?_) ?_
    | with_reducible refine Within.fold (fun _ _ _ => ?_) ?_
    | with_reducible refine Within.ite ?_ ?_
    | split
    | dsimp only

/-- What `execPrecoderUpdateStart` may change. -/
def execPrecoderUpdateStart_fx : Fx := Chip.startUpdate_fx
theorem execPrecoderUpdateStart_after (e : PeNo) (taps : List (BitVec 16)) (pick : BitVec 8) (s : State) : AfterOut execPrecoderUpdateStart_fx s (execPrecoderUpdateStart e taps pick s) := by
  unfold execPrecoderUpdateStart
  refine State.run_after fun c => ?_
  try dsimp only
  repeat' first
    | with_reducible assumption
    | with_reducible exact .refl _ _
    | with_reducible refine Chip.startUpdate_in ?_ (by decide +kernel)
    | with_reducible refine Within.ite ?_ ?_
    | split
    | dsimp only

/-- What `execPrecoderSwitch` may change. -/
def execPrecoderSwitch_fx : Fx := .union [Chip.preAdjust_fx, Chip.preApply_fx]
theorem execPrecoderSwitch_after (e : PeNo) (transmitter : Bool) (s : State) : AfterOut execPrecoderSwitch_fx s (execPrecoderSwitch e transmitter s) := by
  unfold execPrecoderSwitch
  refine State.run_after fun c => ?_
  try dsimp only
  repeat' first
    | with_reducible assumption
    | with_reducible exact .refl _ _
    | with_reducible refine Chip.preAdjust_in ?_ (by decide +kernel)
    | with_reducible refine Chip.preApply_in ?_ (by decide +kernel)
    | with_reducible refine Within.ite ?_ ?_
    | split
    | dsimp only

/-- What `execStoreRefresh` may change. -/
def execStoreRefresh_fx : Fx := .union [Chip.corrected_fx, Chip.lpiStoreFail_fx, Chip.refreshFail_fx, .of [] [.PE_STORE_SEC_COUNT]]
theorem execStoreRefresh_after (e : PeNo) (row : Fin 2048) (found : RowFound) (s : State) : AfterOut execStoreRefresh_fx s (execStoreRefresh e row found s) := by
  unfold execStoreRefresh
  refine State.run_after fun c => ?_
  try dsimp only
  repeat' first
    | with_reducible assumption
    | with_reducible exact .refl _ _
    | with_reducible refine Chip.corrected_in ?_ (by decide +kernel)
    | with_reducible refine Chip.lpiStoreFail_in ?_ (by decide +kernel)
    | with_reducible refine Chip.refreshFail_in ?_ (by decide +kernel)
    | with_reducible refine Within.inc ?_ (by decide +kernel)
    | with_reducible refine Within.ite ?_ ?_
    | split
    | dsimp only

/-- What `execRefreshSlowReturn` may change. -/
def execRefreshSlowReturn_fx : Fx := .of [] [.PE_STORE_STATUS]
theorem execRefreshSlowReturn_after (t : TileNo) (s : State) : AfterOut execRefreshSlowReturn_fx s (execRefreshSlowReturn t s) := by
  unfold execRefreshSlowReturn
  refine State.run_after fun c => ?_
  try dsimp only
  repeat' first
    | with_reducible assumption
    | with_reducible exact .refl _ _
    | with_reducible refine Within.setBit ?_ (by decide +kernel)
    | with_reducible refine Within.each (fun _ _ _ => ?_) ?_
    | with_reducible refine Within.ite ?_ ?_
    | split
    | dsimp only

/-- What `execCoefWriteback` may change. -/
def execCoefWriteback_fx : Fx := .of [.pes] []
theorem execCoefWriteback_after (e : PeNo) (words : List (BitVec 13 × BitVec 16)) (s : State) : AfterOut execCoefWriteback_fx s (execCoefWriteback e words s) := by
  unfold execCoefWriteback
  refine State.run_after fun c => ?_
  try dsimp only
  repeat' first
    | with_reducible assumption
    | with_reducible exact .refl _ _
    | with_reducible refine Within.setPe ?_ (by decide +kernel)
    | with_reducible refine Within.foldl (fun _ _ _ => ?_) ?_
    | with_reducible refine Within.foldl1 (fun _ _ _ => ?_) ?_
    | with_reducible refine Within.fold (fun _ _ _ => ?_) ?_
    | with_reducible refine Within.ite ?_ ?_
    | split
    | dsimp only

/-- What `execPeCoefFreezeWrite` may change. -/
def execPeCoefFreezeWrite_fx : Fx := .union [Chip.writeFreeze_fx, .of [.access] []]
theorem execPeCoefFreezeWrite_after (e : PeNo) (v : BitVec 8) (s : State) : AfterOut execPeCoefFreezeWrite_fx s (execPeCoefFreezeWrite e v s) := by
  unfold execPeCoefFreezeWrite
  refine State.runWr_after (by decide +kernel) fun c => ?_
  try dsimp only
  repeat' first
    | with_reducible assumption
    | with_reducible exact .refl _ _
    | with_reducible refine Chip.gated_in (fun _ _ => ?_) ?_
    | with_reducible refine Chip.writeFreeze_in ?_ (by decide +kernel)
    | with_reducible refine Within.ite ?_ ?_
    | split
    | dsimp only

/-- What `execCoefFreezeExpire` may change. -/
def execCoefFreezeExpire_fx : Fx := .of [.pes] [.PE_COEF_FREEZE]
theorem execCoefFreezeExpire_after (e : PeNo) (s : State) : AfterOut execCoefFreezeExpire_fx s (execCoefFreezeExpire e s) := by
  unfold execCoefFreezeExpire
  refine State.run_after fun c => ?_
  try dsimp only
  repeat' first
    | with_reducible assumption
    | with_reducible exact .refl _ _
    | with_reducible refine Within.wr ?_ (by decide +kernel)
    | with_reducible refine Within.setPe ?_ (by decide +kernel)
    | with_reducible refine Within.ite ?_ ?_
    | split
    | dsimp only

/-- What `execCaptureEqualised` may change. -/
def execCaptureEqualised_fx : Fx := .union [Chip.writeCapture_fx, .of [.access] []]
theorem execCaptureEqualised_after (e : PeNo) (s : State) : AfterOut execCaptureEqualised_fx s (execCaptureEqualised e s) := by
  unfold execCaptureEqualised
  refine State.runWr_after (by decide +kernel) fun c => ?_
  try dsimp only
  repeat' first
    | with_reducible assumption
    | with_reducible exact .refl _ _
    | with_reducible refine Chip.gated_in (fun _ _ => ?_) ?_
    | with_reducible refine Chip.writeCapture_in ?_ (by decide +kernel)
    | with_reducible refine Within.ite ?_ ?_
    | split
    | dsimp only

/-- What `execCaptureRaw` may change. -/
def execCaptureRaw_fx : Fx := .union [Chip.writeCapture_fx, .of [.access] []]
theorem execCaptureRaw_after (e : PeNo) (s : State) : AfterOut execCaptureRaw_fx s (execCaptureRaw e s) := by
  unfold execCaptureRaw
  refine State.runWr_after (by decide +kernel) fun c => ?_
  try dsimp only
  repeat' first
    | with_reducible assumption
    | with_reducible exact .refl _ _
    | with_reducible refine Chip.gated_in (fun _ _ => ?_) ?_
    | with_reducible refine Chip.writeCapture_in ?_ (by decide +kernel)
    | with_reducible refine Within.ite ?_ ?_
    | split
    | dsimp only

/-- What `execCaptureDone` may change. -/
def execCaptureDone_fx : Fx := .of [.pes] [.PE_CAPTURE]
theorem execCaptureDone_after (e : PeNo) (samples : List (BitVec 16)) (s : State) : AfterOut execCaptureDone_fx s (execCaptureDone e samples s) := by
  unfold execCaptureDone
  refine State.run_after fun c => ?_
  try dsimp only
  repeat' first
    | with_reducible assumption
    | with_reducible exact .refl _ _
    | with_reducible refine Within.wrRow ?_ (by decide +kernel)
    | with_reducible refine Within.setPe ?_ (by decide +kernel)
    | with_reducible refine Within.each (fun _ _ _ => ?_) ?_
    | with_reducible refine Within.ite ?_ ?_
    | split
    | dsimp only

end Sys2Proof.Machine
end

