-- ==== Sys2Proof/Laws/FrameExecLinkEvents.lean ====
section
/-!
SUPPORT. Frames of the commands of `Machine/LinkEvents.lean`: which parts and objects each may change.
-/
set_option Elab.async false
namespace Sys2Proof.Machine

/-- What `execBasePagesExchanged` may change. -/
def execBasePagesExchanged_fx : Fx := .union [Chip.lpiPartner_fx, Chip.resolve_fx, Chip.setLink_fx, .of [] [.AN_PARTNER_ABILITY]]
theorem execBasePagesExchanged_after (p : PortNo) (pg : BasePage) (s : State) : AfterOut execBasePagesExchanged_fx s (execBasePagesExchanged p pg s) := by
  unfold execBasePagesExchanged
  refine State.run_after fun c => ?_
  try dsimp only
  repeat' first
    | with_reducible assumption
    | with_reducible exact .refl _ _
    | with_reducible refine Chip.lpiPartner_in ?_ (by decide +kernel)
    | with_reducible refine Chip.resolve_in ?_ (by decide +kernel)
    | with_reducible refine Chip.setLink_in ?_ (by decide +kernel)
    | with_reducible refine Within.wr ?_ (by decide +kernel)
    | with_reducible refine Within.ite ?_ ?_
    | split
    | dsimp only

/-- What `execNextPagesDone` may change. -/
def execNextPagesDone_fx : Fx := .union [Chip.lpiPartner_fx, Chip.resolve_fx, .of [] [.AN_PARTNER_WA, .AN_STATUS]]
theorem execNextPagesDone_after (p : PortNo) (np : NextPages) (s : State) : AfterOut execNextPagesDone_fx s (execNextPagesDone p np s) := by
  unfold execNextPagesDone
  refine State.run_after fun c => ?_
  try dsimp only
  repeat' first
    | with_reducible assumption
    | with_reducible exact .refl _ _
    | with_reducible refine Chip.lpiPartner_in ?_ (by decide +kernel)
    | with_reducible refine Chip.resolve_in ?_ (by decide +kernel)
    | with_reducible refine Within.wr ?_ (by decide +kernel)
    | with_reducible refine Within.setBit ?_ (by decide +kernel)
    | with_reducible refine Within.ite ?_ ?_
    | split
    | dsimp only

/-- What `execFlpDetected` may change. -/
def execFlpDetected_fx : Fx := .of [.ports] [.AN_STATUS]
theorem execFlpDetected_after (p : PortNo) (s : State) : AfterOut execFlpDetected_fx s (execFlpDetected p s) := by
  unfold execFlpDetected
  refine State.run_after fun c => ?_
  try dsimp only
  repeat' first
    | with_reducible assumption
    | with_reducible exact .refl _ _
    | with_reducible refine Within.setBit ?_ (by decide +kernel)
    | with_reducible refine Within.setPort ?_ (by decide +kernel)
    | with_reducible refine Within.ite ?_ ?_
    | split
    | dsimp only

/-- What `execParallelDetect` may change. -/
def execParallelDetect_fx : Fx := .union [Chip.beginStd_fx, Chip.lpiPartner_fx, .of [] [.AN_PARTNER_ABILITY, .AN_STATUS, .MS_RESULT]]
theorem execParallelDetect_after (p : PortNo) (s : State) : AfterOut execParallelDetect_fx s (execParallelDetect p s) := by
  unfold execParallelDetect
  refine State.run_after fun c => ?_
  try dsimp only
  repeat' first
    | with_reducible assumption
    | with_reducible exact .refl _ _
    | with_reducible refine Chip.beginStd_in ?_ (by decide +kernel)
    | with_reducible refine Chip.lpiPartner_in ?_ (by decide +kernel)
    | with_reducible refine Within.wr ?_ (by decide +kernel)
    | with_reducible refine Within.setBit ?_ (by decide +kernel)
    | with_reducible refine Within.ite ?_ ?_
    | split
    | dsimp only

/-- What `execT0TimerEnd` may change. -/
def execT0TimerEnd_fx : Fx := .union [Chip.checkStored_fx, Chip.classDecision_fx, Chip.enterT1_fx, Chip.feTrims_fx, Chip.invalidatePort_fx, Chip.loadInitial_fx, Chip.trainFail_fx, .of [] [.TRAIN_SOURCE]]
theorem execT0TimerEnd_after (p : PortNo) (r : T0Probe) (s : State) : AfterOut execT0TimerEnd_fx s (execT0TimerEnd p r s) := by
  unfold execT0TimerEnd
  refine State.run_after fun c => ?_
  try dsimp only
  repeat' first
    | with_reducible assumption
    | with_reducible exact .refl _ _
    | with_reducible refine Chip.checkStored_in ?_ (by decide +kernel)
    | with_reducible refine Chip.classDecision_in ?_ (by decide +kernel)
    | with_reducible refine Chip.enterT1_in ?_ (by decide +kernel)
    | with_reducible refine Chip.feTrims_in ?_ (by decide +kernel)
    | with_reducible refine Chip.invalidatePort_in ?_ (by decide +kernel)
    | with_reducible refine Chip.loadInitial_in ?_ (by decide +kernel)
    | with_reducible refine Chip.trainFail_in ?_ (by decide +kernel)
    | with_reducible refine Within.wr ?_ (by decide +kernel)
    | with_reducible refine Within.each (fun _ _ _ => ?_) ?_
    | with_reducible refine Within.ite ?_ ?_
    | split
    | dsimp only

/-- What `execT1Converged` may change. -/
def execT1Converged_fx : Fx := .union [Chip.markPairs_fx, Chip.t1Done_fx, Chip.toT2_fx]
theorem execT1Converged_after (p : PortNo) (r : T1Result) (s : State) : AfterOut execT1Converged_fx s (execT1Converged p r s) := by
  unfold execT1Converged
  refine State.run_after fun c => ?_
  try dsimp only
  repeat' first
    | with_reducible assumption
    | with_reducible exact .refl _ _
    | with_reducible refine Chip.markPairs_in ?_ (by decide +kernel)
    | with_reducible refine Chip.t1Done_in ?_ (by decide +kernel)
    | with_reducible refine Chip.toT2_in ?_ (by decide +kernel)
    | with_reducible refine Within.foldl (fun _ _ _ => ?_) ?_
    | with_reducible refine Within.foldl1 (fun _ _ _ => ?_) ?_
    | with_reducible refine Within.fold (fun _ _ _ => ?_) ?_
    | with_reducible refine Within.ite ?_ ?_
    | split
    | dsimp only

/-- What `execT1Timeout` may change. -/
def execT1Timeout_fx : Fx := .union [Chip.markPairs_fx, Chip.t1Done_fx, Chip.toT2_fx, Chip.trainFail_fx]
theorem execT1Timeout_after (p : PortNo) (conv : BitVec 4) (r : T1Result) (s : State) : AfterOut execT1Timeout_fx s (execT1Timeout p conv r s) := by
  unfold execT1Timeout
  refine State.run_after fun c => ?_
  try dsimp only
  repeat' first
    | with_reducible assumption
    | with_reducible exact .refl _ _
    | with_reducible refine Chip.markPairs_in ?_ (by decide +kernel)
    | with_reducible refine Chip.t1Done_in ?_ (by decide +kernel)
    | with_reducible refine Chip.toT2_in ?_ (by decide +kernel)
    | with_reducible refine Chip.trainFail_in ?_ (by decide +kernel)
    | with_reducible refine Within.foldl (fun _ _ _ => ?_) ?_
    | with_reducible refine Within.foldl1 (fun _ _ _ => ?_) ?_
    | with_reducible refine Within.fold (fun _ _ _ => ?_) ?_
    | with_reducible refine Within.ite ?_ ?_
    | split
    | dsimp only

/-- What `execInfofieldReceived` may change. -/
def execInfofieldReceived_fx : Fx := .union [Chip.baseIn_fx, Chip.tryT3_fx, .of [.pes] []]
theorem execInfofieldReceived_after (e : PeNo) (a : BitVec 160) (b : BitVec 160) (d : BitVec 160) (s : State) : AfterOut execInfofieldReceived_fx s (execInfofieldReceived e a b d s) := by
  unfold execInfofieldReceived
  refine State.run_after fun c => ?_
  try dsimp only
  repeat' first
    | with_reducible assumption
    | with_reducible exact .refl _ _
    | with_reducible refine Chip.baseIn_in ?_ (by decide +kernel)
    | with_reducible refine Chip.tryT3_in ?_ (by decide +kernel)
    | with_reducible refine Within.setPe ?_ (by decide +kernel)
    | with_reducible refine Within.ite ?_ ?_
    | split
    | dsimp only

/-- What `execT2Timeout` may change. -/
def execT2Timeout_fx : Fx := Chip.trainFail_fx
theorem execT2Timeout_after (p : PortNo) (s : State) : AfterOut execT2Timeout_fx s (execT2Timeout p s) := by
  unfold execT2Timeout
  refine State.run_after fun c => ?_
  try dsimp only
  repeat' first
    | with_reducible assumption
    | with_reducible exact .refl _ _
    | with_reducible refine Chip.trainFail_in ?_ (by decide +kernel)
    | with_reducible refine Within.ite ?_ ?_
    | split
    | dsimp only

/-- What `execCountdownEnd` may change. -/
def execCountdownEnd_fx : Fx := .union [Chip.gridStart_fx, .of [.pes, .ports] []]
theorem execCountdownEnd_after (p : PortNo) (s : State) : AfterOut execCountdownEnd_fx s (execCountdownEnd p s) := by
  unfold execCountdownEnd
  refine State.run_after fun c => ?_
  try dsimp only
  repeat' first
    | with_reducible assumption
    | with_reducible exact .refl _ _
    | with_reducible refine Chip.gridStart_in ?_ (by decide +kernel)
    | with_reducible refine Within.setPort ?_ (by decide +kernel)
    | with_reducible refine Within.setPe ?_ (by decide +kernel)
    | with_reducible refine Within.each (fun _ _ _ => ?_) ?_
    | with_reducible refine Within.ite ?_ ?_
    | split
    | dsimp only

/-- What `execT3VerifyPass` may change. -/
def execT3VerifyPass_fx : Fx := .union [Chip.enterUp_fx, Chip.fastFail_fx, Chip.lanesFail_fx, .of [.pes] [.PE_T3_MARGIN, .PE_TRAIN_STATUS, .T3_MARGIN_MIN]]
theorem execT3VerifyPass_after (p : PortNo) (pick : BitVec 8) (s : State) : AfterOut execT3VerifyPass_fx s (execT3VerifyPass p pick s) := by
  unfold execT3VerifyPass
  refine State.run_after fun c => ?_
  try dsimp only
  repeat' first
    | with_reducible assumption
    | with_reducible exact .refl _ _
    | with_reducible refine Chip.enterUp_in ?_ (by decide +kernel)
    | with_reducible refine Chip.fastFail_in ?_ (by decide +kernel)
    | with_reducible refine Chip.lanesFail_in ?_ (by decide +kernel)
    | with_reducible refine Within.wrInt ?_ (by decide +kernel)
    | with_reducible refine Within.setBit ?_ (by decide +kernel)
    | with_reducible refine Within.setPe ?_ (by decide +kernel)
    | with_reducible refine Within.each (fun _ _ _ => ?_) ?_
    | with_reducible refine Within.foldl (fun _ _ _ => ?_) ?_
    | with_reducible refine Within.foldl1 (fun _ _ _ => ?_) ?_
    | with_reducible refine Within.fold (fun _ _ _ => ?_) ?_
    | with_reducible refine Within.ite ?_ ?_
    | split
    | dsimp only

/-- What `execT3Timeout` may change. -/
def execT3Timeout_fx : Fx := .union [Chip.trainFail_fx, .of [] [.PE_TRAIN_STATUS]]
theorem execT3Timeout_after (p : PortNo) (failed : BitVec 4) (s : State) : AfterOut execT3Timeout_fx s (execT3Timeout p failed s) := by
  unfold execT3Timeout
  refine State.run_after fun c => ?_
  try dsimp only
  repeat' first
    | with_reducible assumption
    | with_reducible exact .refl _ _
    | with_reducible refine Chip.trainFail_in ?_ (by decide +kernel)
    | with_reducible refine Within.setBit ?_ (by decide +kernel)
    | with_reducible refine Within.each (fun _ _ _ => ?_) ?_
    | with_reducible refine Within.ite ?_ ?_
    | split
    | dsimp only

/-- What `execPartnerLost` may change. -/
def execPartnerLost_fx : Fx := Chip.trainFail_fx
theorem execPartnerLost_after (p : PortNo) (s : State) : AfterOut execPartnerLost_fx s (execPartnerLost p s) := by
  unfold execPartnerLost
  refine State.run_after fun c => ?_
  try dsimp only
  repeat' first
    | with_reducible assumption
    | with_reducible exact .refl _ _
    | with_reducible refine Chip.trainFail_in ?_ (by decide +kernel)
    | with_reducible refine Within.ite ?_ ?_
    | split
    | dsimp only

/-- What `execStdTrainComplete` may change. -/
def execStdTrainComplete_fx : Fx := .union [Chip.enterUp_fx, Chip.fullFail_fx]
theorem execStdTrainComplete_after (p : PortNo) (ok : Bool) (s : State) : AfterOut execStdTrainComplete_fx s (execStdTrainComplete p ok s) := by
  unfold execStdTrainComplete
  refine State.run_after fun c => ?_
  try dsimp only
  repeat' first
    | with_reducible assumption
    | with_reducible exact .refl _ _
    | with_reducible refine Chip.enterUp_in ?_ (by decide +kernel)
    | with_reducible refine Chip.fullFail_in ?_ (by decide +kernel)
    | with_reducible refine Within.ite ?_ ?_
    | split
    | dsimp only

/-- What `execStdLinkFail` may change. -/
def execStdLinkFail_fx : Fx := Chip.linkDown_fx
theorem execStdLinkFail_after (p : PortNo) (s : State) : AfterOut execStdLinkFail_fx s (execStdLinkFail p s) := by
  unfold execStdLinkFail
  refine State.run_after fun c => ?_
  try dsimp only
  repeat' first
    | with_reducible assumption
    | with_reducible exact .refl _ _
    | with_reducible refine Chip.linkDown_in ?_ (by decide +kernel)
    | with_reducible refine Within.ite ?_ ?_
    | split
    | dsimp only

/-- What `execLinkBreakEnd` may change. -/
def execLinkBreakEnd_fx : Fx := Chip.resumeLink_fx
theorem execLinkBreakEnd_after (p : PortNo) (s : State) : AfterOut execLinkBreakEnd_fx s (execLinkBreakEnd p s) := by
  unfold execLinkBreakEnd
  refine State.run_after fun c => ?_
  try dsimp only
  repeat' first
    | with_reducible assumption
    | with_reducible exact .refl _ _
    | with_reducible refine Chip.resumeLink_in ?_ (by decide +kernel)
    | with_reducible refine Within.ite ?_ ?_
    | split
    | dsimp only

/-- What `execLinkFailEnd` may change. -/
def execLinkFailEnd_fx : Fx := .union [Chip.ceilingReset_fx, Chip.negotiate_fx]
theorem execLinkFailEnd_after (p : PortNo) (s : State) : AfterOut execLinkFailEnd_fx s (execLinkFailEnd p s) := by
  unfold execLinkFailEnd
  refine State.run_after fun c => ?_
  try dsimp only
  repeat' first
    | with_reducible assumption
    | with_reducible exact .refl _ _
    | with_reducible refine Chip.ceilingReset_in ?_ (by decide +kernel)
    | with_reducible refine Chip.negotiate_in ?_ (by decide +kernel)
    | with_reducible refine Within.ite ?_ ?_
    | split
    | dsimp only

/-- What `execNoEnergy2s` may change. -/
def execNoEnergy2s_fx : Fx := Chip.ceilingReset_fx
theorem execNoEnergy2s_after (p : PortNo) (s : State) : AfterOut execNoEnergy2s_fx s (execNoEnergy2s p s) := by
  unfold execNoEnergy2s
  refine State.run_after fun c => ?_
  try dsimp only
  repeat' first
    | with_reducible assumption
    | with_reducible exact .refl _ _
    | with_reducible refine Chip.ceilingReset_in ?_ (by decide +kernel)
    | with_reducible refine Within.ite ?_ ?_
    | split
    | dsimp only

/-- What `execWakePatternRetrain` may change. -/
def execWakePatternRetrain_fx : Fx := .union [Chip.begin__fx, Chip.linkDown_fx, Chip.sealPort_fx, Chip.setCause_fx, .of [.ev] []]
theorem execWakePatternRetrain_after (p : PortNo) (s : State) : AfterOut execWakePatternRetrain_fx s (execWakePatternRetrain p s) := by
  unfold execWakePatternRetrain
  refine State.run_after fun c => ?_
  try dsimp only
  repeat' first
    | with_reducible assumption
    | with_reducible exact .refl _ _
    | with_reducible refine Chip.begin__in ?_ (by decide +kernel)
    | with_reducible refine Chip.linkDown_in ?_ (by decide +kernel)
    | with_reducible refine Chip.sealPort_in ?_ (by decide +kernel)
    | with_reducible refine Chip.setCause_in ?_ (by decide +kernel)
    | with_reducible refine Within.raise ?_ (by decide +kernel)
    | with_reducible refine Within.ite ?_ ?_
    | split
    | dsimp only

/-- What `execFastRetrainNoReply` may change. -/
def execFastRetrainNoReply_fx : Fx := Chip.fastFail_fx
theorem execFastRetrainNoReply_after (p : PortNo) (s : State) : AfterOut execFastRetrainNoReply_fx s (execFastRetrainNoReply p s) := by
  unfold execFastRetrainNoReply
  refine State.run_after fun c => ?_
  try dsimp only
  repeat' first
    | with_reducible assumption
    | with_reducible exact .refl _ _
    | with_reducible refine Chip.fastFail_in ?_ (by decide +kernel)
    | with_reducible refine Within.ite ?_ ?_
    | split
    | dsimp only

/-- What `execTrainRestartFull` may change. -/
def execTrainRestartFull_fx : Fx := .union [Chip.writeTrainRestart_fx, .of [.access] []]
theorem execTrainRestartFull_after (p : PortNo) (s : State) : AfterOut execTrainRestartFull_fx s (execTrainRestartFull p s) := by
  unfold execTrainRestartFull
  refine State.runWr_after (by decide +kernel) fun c => ?_
  try dsimp only
  repeat' first
    | with_reducible assumption
    | with_reducible exact .refl _ _
    | with_reducible refine Chip.gated_in (fun _ _ => ?_) ?_
    | with_reducible refine Chip.writeTrainRestart_in ?_ (by decide +kernel)
    | with_reducible refine Within.ite ?_ ?_
    | split
    | dsimp only

/-- What `execTrainRestartFast` may change. -/
def execTrainRestartFast_fx : Fx := .union [Chip.writeTrainRestart_fx, .of [.access] []]
theorem execTrainRestartFast_after (p : PortNo) (s : State) : AfterOut execTrainRestartFast_fx s (execTrainRestartFast p s) := by
  unfold execTrainRestartFast
  refine State.runWr_after (by decide +kernel) fun c => ?_
  try dsimp only
  repeat' first
    | with_reducible assumption
    | with_reducible exact .refl _ _
    | with_reducible refine Chip.gated_in (fun _ _ => ?_) ?_
    | with_reducible refine Chip.writeTrainRestart_in ?_ (by decide +kernel)
    | with_reducible refine Within.ite ?_ ?_
    | split
    | dsimp only

/-- What `execTrainRestartRenegotiate` may change. -/
def execTrainRestartRenegotiate_fx : Fx := .union [Chip.writeTrainRestart_fx, .of [.access] []]
theorem execTrainRestartRenegotiate_after (p : PortNo) (s : State) : AfterOut execTrainRestartRenegotiate_fx s (execTrainRestartRenegotiate p s) := by
  unfold execTrainRestartRenegotiate
  refine State.runWr_after (by decide +kernel) fun c => ?_
  try dsimp only
  repeat' first
    | with_reducible assumption
    | with_reducible exact .refl _ _
    | with_reducible refine Chip.gated_in (fun _ _ => ?_) ?_
    | with_reducible refine Chip.writeTrainRestart_in ?_ (by decide +kernel)
    | with_reducible refine Within.ite ?_ ?_
    | split
    | dsimp only

/-- What `execPortModeWrite` may change. -/
def execPortModeWrite_fx : Fx := .union [Chip.writePortMode_fx, .of [.access] []]
theorem execPortModeWrite_after (p : PortNo) (v : BitVec 8) (s : State) : AfterOut execPortModeWrite_fx s (execPortModeWrite p v s) := by
  unfold execPortModeWrite
  refine State.runWr_after (by decide +kernel) fun c => ?_
  try dsimp only
  repeat' first
    | with_reducible assumption
    | with_reducible exact .refl _ _
    | with_reducible refine Chip.gated_in (fun _ _ => ?_) ?_
    | with_reducible refine Chip.writePortMode_in ?_ (by decide +kernel)
    | with_reducible refine Within.ite ?_ ?_
    | split
    | dsimp only

/-- What `execPortAbilityWrite` may change. -/
def execPortAbilityWrite_fx : Fx := .union [Chip.applyPortAbility_fx, .of [.access] []]
theorem execPortAbilityWrite_after (p : PortNo) (v : BitVec 16) (s : State) : AfterOut execPortAbilityWrite_fx s (execPortAbilityWrite p v s) := by
  unfold execPortAbilityWrite
  refine State.runWr_after (by decide +kernel) fun c => ?_
  try dsimp only
  repeat' first
    | with_reducible assumption
    | with_reducible exact .refl _ _
    | with_reducible refine Chip.applyPortAbility_in ?_ (by decide +kernel)
    | with_reducible refine Chip.gated_in (fun _ _ => ?_) ?_
    | with_reducible refine Within.ite ?_ ?_
    | split
    | dsimp only

/-- What `execPortEnableWrite` may change. -/
def execPortEnableWrite_fx : Fx := .union [Chip.writePortEnable_fx, .of [.access] []]
theorem execPortEnableWrite_after (p : PortNo) (v : BitVec 8) (s : State) : AfterOut execPortEnableWrite_fx s (execPortEnableWrite p v s) := by
  unfold execPortEnableWrite
  refine State.runWr_after (by decide +kernel) fun c => ?_
  try dsimp only
  repeat' first
    | with_reducible assumption
    | with_reducible exact .refl _ _
    | with_reducible refine Chip.gated_in (fun _ _ => ?_) ?_
    | with_reducible refine Chip.writePortEnable_in ?_ (by decide +kernel)
    | with_reducible refine Within.ite ?_ ?_
    | split
    | dsimp only

/-- What `execQuadFormationWrite` may change. -/
def execQuadFormationWrite_fx : Fx := .union [Chip.writeFormation_fx, .of [.access] []]
theorem execQuadFormationWrite_after (q : QuadNo) (v : BitVec 8) (s : State) : AfterOut execQuadFormationWrite_fx s (execQuadFormationWrite q v s) := by
  unfold execQuadFormationWrite
  refine State.runWr_after (by decide +kernel) fun c => ?_
  try dsimp only
  repeat' first
    | with_reducible assumption
    | with_reducible exact .refl _ _
    | with_reducible refine Chip.gated_in (fun _ _ => ?_) ?_
    | with_reducible refine Chip.writeFormation_in ?_ (by decide +kernel)
    | with_reducible refine Within.ite ?_ ?_
    | split
    | dsimp only

end Sys2Proof.Machine
end

