-- ==== Sys2Proof/Laws/FrameExecLpiEvents.lean ====
section
/-!
SUPPORT. Frames of the commands of `Machine/LpiEvents.lean`: which parts and objects each may change.
-/
set_option Elab.async false
namespace Sys2Proof.Machine

/-- What `execLpiSleepRequest` may change. -/
def execLpiSleepRequest_fx : Fx := .union [Chip.lpiSleep_fx, Chip.sendLpi_fx, Chip.setLpi_fx]
theorem execLpiSleepRequest_after (p : PortNo) (id : BitVec 8) (s : State) : AfterOut execLpiSleepRequest_fx s (execLpiSleepRequest p id s) := by
  unfold execLpiSleepRequest
  refine State.run_after fun c => ?_
  try dsimp only
  repeat' first
    | with_reducible assumption
    | with_reducible exact .refl _ _
    | with_reducible refine Chip.lpiSleep_in ?_ (by decide +kernel)
    | with_reducible refine Chip.sendLpi_in ?_ (by decide +kernel)
    | with_reducible refine Chip.setLpi_in ?_ (by decide +kernel)
    | with_reducible refine Within.ite ?_ ?_
    | split
    | dsimp only

/-- What `execSleepReq` may change. -/
def execSleepReq_fx : Fx := .union [Chip.lpiSleep_fx, Chip.sendLpi_fx, Chip.setLpi_fx]
theorem execSleepReq_after (p : PortNo) (msg : BitVec 128) (lane : Fin 4) (s : State) : AfterOut execSleepReq_fx s (execSleepReq p msg lane s) := by
  unfold execSleepReq
  refine State.run_after fun c => ?_
  try dsimp only
  repeat' first
    | with_reducible assumption
    | with_reducible exact .refl _ _
    | with_reducible refine Chip.lpiSleep_in ?_ (by decide +kernel)
    | with_reducible refine Chip.sendLpi_in ?_ (by decide +kernel)
    | with_reducible refine Chip.setLpi_in ?_ (by decide +kernel)
    | with_reducible refine Within.ite ?_ ?_
    | split
    | dsimp only

/-- What `execSleepAck` may change. -/
def execSleepAck_fx : Fx := Chip.setLpi_fx
theorem execSleepAck_after (p : PortNo) (msg : BitVec 128) (s : State) : AfterOut execSleepAck_fx s (execSleepAck p msg s) := by
  unfold execSleepAck
  refine State.run_after fun c => ?_
  try dsimp only
  repeat' first
    | with_reducible assumption
    | with_reducible exact .refl _ _
    | with_reducible refine Chip.setLpi_in ?_ (by decide +kernel)
    | with_reducible refine Within.ite ?_ ?_
    | split
    | dsimp only

/-- What `execSleepNak` may change. -/
def execSleepNak_fx : Fx := Chip.setLpi_fx
theorem execSleepNak_after (p : PortNo) (msg : BitVec 128) (s : State) : AfterOut execSleepNak_fx s (execSleepNak p msg s) := by
  unfold execSleepNak
  refine State.run_after fun c => ?_
  try dsimp only
  repeat' first
    | with_reducible assumption
    | with_reducible exact .refl _ _
    | with_reducible refine Chip.setLpi_in ?_ (by decide +kernel)
    | with_reducible refine Within.ite ?_ ?_
    | split
    | dsimp only

/-- What `execLpiQuietPoint` may change. -/
def execLpiQuietPoint_fx : Fx := .union [Chip.abandonUpdates_fx, Chip.lpiEnter_fx, Chip.lpiGoQuiet_fx, Chip.lpiWake_fx, Chip.setLpi_fx, .of [] [.LPI_ENTRY_COUNT, .LPI_NEXT_WAKE]]
theorem execLpiQuietPoint_after (p : PortNo) (partner : Bool) (s : State) : AfterOut execLpiQuietPoint_fx s (execLpiQuietPoint p partner s) := by
  unfold execLpiQuietPoint
  refine State.run_after fun c => ?_
  try dsimp only
  repeat' first
    | with_reducible assumption
    | with_reducible exact .refl _ _
    | with_reducible refine Chip.abandonUpdates_in ?_ (by decide +kernel)
    | with_reducible refine Chip.lpiEnter_in ?_ (by decide +kernel)
    | with_reducible refine Chip.lpiGoQuiet_in ?_ (by decide +kernel)
    | with_reducible refine Chip.lpiWake_in ?_ (by decide +kernel)
    | with_reducible refine Chip.setLpi_in ?_ (by decide +kernel)
    | with_reducible refine Within.wr ?_ (by decide +kernel)
    | with_reducible refine Within.inc ?_ (by decide +kernel)
    | with_reducible refine Within.ite ?_ ?_
    | split
    | dsimp only

/-- What `execLpiRefreshStart` may change. -/
def execLpiRefreshStart_fx : Fx := .union [Chip.ancPortDrives_fx, Chip.lpiEnter_fx, Chip.lpiWake_fx, .of [.pes] []]
theorem execLpiRefreshStart_after (p : PortNo) (s : State) : AfterOut execLpiRefreshStart_fx s (execLpiRefreshStart p s) := by
  unfold execLpiRefreshStart
  refine State.run_after fun c => ?_
  try dsimp only
  repeat' first
    | with_reducible assumption
    | with_reducible exact .refl _ _
    | with_reducible refine Chip.ancPortDrives_in ?_ (by decide +kernel)
    | with_reducible refine Chip.lpiEnter_in ?_ (by decide +kernel)
    | with_reducible refine Chip.lpiWake_in ?_ (by decide +kernel)
    | with_reducible refine Within.setPe ?_ (by decide +kernel)
    | with_reducible refine Within.each (fun _ _ _ => ?_) ?_
    | with_reducible refine Within.ite ?_ ?_
    | split
    | dsimp only

/-- What `execLpiRefreshEnd` may change. -/
def execLpiRefreshEnd_fx : Fx := .union [Chip.lpiGoQuiet_fx, Chip.lpiWake_fx, Chip.setLpi_fx]
theorem execLpiRefreshEnd_after (p : PortNo) (s : State) : AfterOut execLpiRefreshEnd_fx s (execLpiRefreshEnd p s) := by
  unfold execLpiRefreshEnd
  refine State.run_after fun c => ?_
  try dsimp only
  repeat' first
    | with_reducible assumption
    | with_reducible exact .refl _ _
    | with_reducible refine Chip.lpiGoQuiet_in ?_ (by decide +kernel)
    | with_reducible refine Chip.lpiWake_in ?_ (by decide +kernel)
    | with_reducible refine Chip.setLpi_in ?_ (by decide +kernel)
    | with_reducible refine Within.ite ?_ ?_
    | split
    | dsimp only

/-- What `execPartnerRefreshEnd` may change. -/
def execPartnerRefreshEnd_fx : Fx := .union [Chip.linkDown_fx, Chip.lpiHold_fx, Chip.setLpi_fx, .of [.ev, .pes] [.LPI_REFRESH_FAIL_COUNT, .PE_LPI_REFRESH_MARGIN]]
theorem execPartnerRefreshEnd_after (p : PortNo) (margins : List (Option Int)) (s : State) : AfterOut execPartnerRefreshEnd_fx s (execPartnerRefreshEnd p margins s) := by
  unfold execPartnerRefreshEnd
  refine State.run_after fun c => ?_
  try dsimp only
  repeat' first
    | with_reducible assumption
    | with_reducible exact .refl _ _
    | with_reducible refine Chip.linkDown_in ?_ (by decide +kernel)
    | with_reducible refine Chip.lpiHold_in ?_ (by decide +kernel)
    | with_reducible refine Chip.setLpi_in ?_ (by decide +kernel)
    | with_reducible refine Within.wrInt ?_ (by decide +kernel)
    | with_reducible refine Within.inc ?_ (by decide +kernel)
    | with_reducible refine Within.setPe ?_ (by decide +kernel)
    | with_reducible refine Within.raise ?_ (by decide +kernel)
    | with_reducible refine Within.each (fun _ _ _ => ?_) ?_
    | with_reducible refine Within.ite ?_ ?_
    | split
    | dsimp only

/-- What `execLpiWakeStart` may change. -/
def execLpiWakeStart_fx : Fx := Chip.lpiWakeNow_fx
theorem execLpiWakeStart_after (p : PortNo) (planned : Bool) (s : State) : AfterOut execLpiWakeStart_fx s (execLpiWakeStart p planned s) := by
  unfold execLpiWakeStart
  refine State.run_after fun c => ?_
  try dsimp only
  repeat' first
    | with_reducible assumption
    | with_reducible exact .refl _ _
    | with_reducible refine Chip.lpiWakeNow_in ?_ (by decide +kernel)
    | with_reducible refine Within.ite ?_ ?_
    | split
    | dsimp only

/-- What `execLpiPartnerChirp` may change. -/
def execLpiPartnerChirp_fx : Fx := Chip.lpiWakeNow_fx
theorem execLpiPartnerChirp_after (p : PortNo) (s : State) : AfterOut execLpiPartnerChirp_fx s (execLpiPartnerChirp p s) := by
  unfold execLpiPartnerChirp
  refine State.run_after fun c => ?_
  try dsimp only
  repeat' first
    | with_reducible assumption
    | with_reducible exact .refl _ _
    | with_reducible refine Chip.lpiWakeNow_in ?_ (by decide +kernel)
    | with_reducible refine Within.ite ?_ ?_
    | split
    | dsimp only

/-- What `execLpiWakeEnd` may change. -/
def execLpiWakeEnd_fx : Fx := .union [Chip.failCause_fx, Chip.lanesFail_fx, Chip.lpiEnter_fx, Chip.resumeRx_fx, Chip.setLpi_fx, .of [.draws, .pes] []]
theorem execLpiWakeEnd_after (p : PortNo) (partner : Bool) (s : State) : AfterOut execLpiWakeEnd_fx s (execLpiWakeEnd p partner s) := by
  unfold execLpiWakeEnd
  refine State.run_after fun c => ?_
  try dsimp only
  repeat' first
    | with_reducible assumption
    | with_reducible exact .refl _ _
    | with_reducible refine Chip.failCause_in ?_ (by decide +kernel)
    | with_reducible refine Chip.lanesFail_in ?_ (by decide +kernel)
    | with_reducible refine Chip.lpiEnter_in ?_ (by decide +kernel)
    | with_reducible refine Chip.resumeRx_in ?_ (by decide +kernel)
    | with_reducible refine Chip.setLpi_in ?_ (by decide +kernel)
    | with_reducible refine Within.setPe ?_ (by decide +kernel)
    | with_reducible refine Within.draw ?_ (by decide +kernel)
    | with_reducible refine Within.each (fun _ _ _ => ?_) ?_
    | with_reducible refine Within.ite ?_ ?_
    | split
    | dsimp only

/-- What `execHeldAwakeEnd` may change. -/
def execHeldAwakeEnd_fx : Fx := .of [] [.LPI_STATUS]
theorem execHeldAwakeEnd_after (p : PortNo) (s : State) : AfterOut execHeldAwakeEnd_fx s (execHeldAwakeEnd p s) := by
  unfold execHeldAwakeEnd
  refine State.run_after fun c => ?_
  try dsimp only
  repeat' first
    | with_reducible assumption
    | with_reducible exact .refl _ _
    | with_reducible refine Within.setBit ?_ (by decide +kernel)
    | with_reducible refine Within.ite ?_ ?_
    | split
    | dsimp only

/-- What `execLpiEnableWrite` may change. -/
def execLpiEnableWrite_fx : Fx := .union [Chip.writeLpiEnable_fx, .of [.access] []]
theorem execLpiEnableWrite_after (p : PortNo) (v : BitVec 8) (s : State) : AfterOut execLpiEnableWrite_fx s (execLpiEnableWrite p v s) := by
  unfold execLpiEnableWrite
  refine State.runWr_after (by decide +kernel) fun c => ?_
  try dsimp only
  repeat' first
    | with_reducible assumption
    | with_reducible exact .refl _ _
    | with_reducible refine Chip.gated_in (fun _ _ => ?_) ?_
    | with_reducible refine Chip.writeLpiEnable_in ?_ (by decide +kernel)
    | with_reducible refine Within.ite ?_ ?_
    | split
    | dsimp only

/-- What `execRxLpi` may change. -/
def execRxLpi_fx : Fx := .union [Chip.lpiWakeNow_fx, Chip.setLpi_fx]
theorem execRxLpi_after (p : PortNo) (asserted : Bool) (s : State) : AfterOut execRxLpi_fx s (execRxLpi p asserted s) := by
  unfold execRxLpi
  refine State.run_after fun c => ?_
  try dsimp only
  repeat' first
    | with_reducible assumption
    | with_reducible exact .refl _ _
    | with_reducible refine Chip.lpiWakeNow_in ?_ (by decide +kernel)
    | with_reducible refine Chip.setLpi_in ?_ (by decide +kernel)
    | with_reducible refine Within.ite ?_ ?_
    | split
    | dsimp only

end Sys2Proof.Machine
end

