-- ==== Sys2Proof/Laws/FrameExecBootEvents.lean ====
section
/-!
SUPPORT. Frames of the commands of `Machine/BootEvents.lean`: which parts and objects each may change.
-/
set_option Elab.async false
namespace Sys2Proof.Machine

/-- What `execVinGoodRise` may change. -/
def execVinGoodRise_fx : Fx := Chip.vinRise_fx
theorem execVinGoodRise_after (boot : BootInputs) (s : State) : AfterOut execVinGoodRise_fx s (execVinGoodRise boot s) := by
  unfold execVinGoodRise
  refine State.run_after fun c => ?_
  try dsimp only
  repeat' first
    | with_reducible assumption
    | with_reducible exact .refl _ _
    | with_reducible refine Chip.vinRise_in ?_ (by decide +kernel)
    | with_reducible refine Within.ite ?_ ?_
    | split
    | dsimp only

/-- What `execVinGoodFall` may change. -/
def execVinGoodFall_fx : Fx := Chip.vinFall_fx
theorem execVinGoodFall_after  (s : State) : AfterOut execVinGoodFall_fx s (execVinGoodFall s) := by
  unfold execVinGoodFall
  refine State.run_after fun c => ?_
  try dsimp only
  repeat' first
    | with_reducible assumption
    | with_reducible exact .refl _ _
    | with_reducible refine Chip.vinFall_in ?_ (by decide +kernel)
    | with_reducible refine Within.ite ?_ ?_
    | split
    | dsimp only

/-- What `execResetNAssert` may change. -/
def execResetNAssert_fx : Fx := Chip.resetAssert_fx
theorem execResetNAssert_after  (s : State) : AfterOut execResetNAssert_fx s (execResetNAssert s) := by
  unfold execResetNAssert
  refine State.run_after fun c => ?_
  try dsimp only
  repeat' first
    | with_reducible assumption
    | with_reducible exact .refl _ _
    | with_reducible refine Chip.resetAssert_in ?_ (by decide +kernel)
    | with_reducible refine Within.ite ?_ ?_
    | split
    | dsimp only

/-- What `execResetNRelease` may change. -/
def execResetNRelease_fx : Fx := Chip.resetRelease_fx
theorem execResetNRelease_after (boot : BootInputs) (s : State) : AfterOut execResetNRelease_fx s (execResetNRelease boot s) := by
  unfold execResetNRelease
  refine State.run_after fun c => ?_
  try dsimp only
  repeat' first
    | with_reducible assumption
    | with_reducible exact .refl _ _
    | with_reducible refine Chip.resetRelease_in ?_ (by decide +kernel)
    | with_reducible refine Within.ite ?_ ?_
    | split
    | dsimp only

/-- What `execDeviceReset` may change. -/
def execDeviceReset_fx : Fx := .union [Chip.deviceReset_fx, .of [.access] []]
theorem execDeviceReset_after (v : BitVec 8) (boot : BootInputs) (s : State) : AfterOut execDeviceReset_fx s (execDeviceReset v boot s) := by
  unfold execDeviceReset
  refine State.runWr_after (by decide +kernel) fun c => ?_
  try dsimp only
  repeat' first
    | with_reducible assumption
    | with_reducible exact .refl _ _
    | with_reducible refine Chip.deviceReset_in ?_ (by decide +kernel)
    | with_reducible refine Within.ite ?_ ?_
    | split
    | dsimp only

/-- What `execHwWatchdogReset` may change. -/
def execHwWatchdogReset_fx : Fx := Chip.start_fx
theorem execHwWatchdogReset_after (boot : BootInputs) (s : State) : AfterOut execHwWatchdogReset_fx s (execHwWatchdogReset boot s) := by
  unfold execHwWatchdogReset
  refine State.run_after fun c => ?_
  try dsimp only
  repeat' first
    | with_reducible assumption
    | with_reducible exact .refl _ _
    | with_reducible refine Chip.start_in ?_ (by decide +kernel)
    | with_reducible refine Within.ite ?_ ?_
    | split
    | dsimp only

/-- What `execFwWatchdogExpire` may change. -/
def execFwWatchdogExpire_fx : Fx := Chip.watchdog_fx
theorem execFwWatchdogExpire_after (core : Fin 4) (trainings : List PortNo) (boot : BootInputs) (s : State) : AfterOut execFwWatchdogExpire_fx s (execFwWatchdogExpire core trainings boot s) := by
  unfold execFwWatchdogExpire
  refine State.run_after fun c => ?_
  try dsimp only
  repeat' first
    | with_reducible assumption
    | with_reducible exact .refl _ _
    | with_reducible refine Chip.watchdog_in ?_ (by decide +kernel)
    | with_reducible refine Within.ite ?_ ?_
    | split
    | dsimp only

end Sys2Proof.Machine
end

