-- ==== Sys2Proof/Laws/FrameExecCalEvents.lean ====
section
/-!
SUPPORT. Frames of the commands of `Machine/CalEvents.lean`: which parts and objects each may change.
-/
set_option Elab.async false
namespace Sys2Proof.Machine

/-- What `execPostStageEnd` may change. -/
def execPostStageEnd_fx : Fx := .union [Chip.postEnd_fx, Chip.startTimed_fx]
theorem execPostStageEnd_after  (s : State) : AfterOut execPostStageEnd_fx s (execPostStageEnd s) := by
  unfold execPostStageEnd
  refine State.run_after fun c => ?_
  try dsimp only
  repeat' first
    | with_reducible assumption
    | with_reducible exact .refl _ _
    | with_reducible refine Chip.postEnd_in ?_ (by decide +kernel)
    | with_reducible refine Chip.startTimed_in ?_ (by decide +kernel)
    | with_reducible refine Within.ite ?_ ?_
    | split
    | dsimp only

/-- What `execBistTestDone` may change. -/
def execBistTestDone_fx : Fx := .union [Chip.startTimed_fx, Chip.testDone_fx]
theorem execBistTestDone_after (t : TestOn) (e : TestEnd) (found : List Finding) (s : State) : AfterOut execBistTestDone_fx s (execBistTestDone t e found s) := by
  unfold execBistTestDone
  refine State.run_after fun c => ?_
  try dsimp only
  repeat' first
    | with_reducible assumption
    | with_reducible exact .refl _ _
    | with_reducible refine Chip.startTimed_in ?_ (by decide +kernel)
    | with_reducible refine Chip.testDone_in ?_ (by decide +kernel)
    | with_reducible refine Within.ite ?_ ?_
    | split
    | dsimp only

/-- What `execBistSliceStart` may change. -/
def execBistSliceStart_fx : Fx := Chip.sliceStart_fx
theorem execBistSliceStart_after (t : SliceOn) (s : State) : AfterOut execBistSliceStart_fx s (execBistSliceStart t s) := by
  unfold execBistSliceStart
  refine State.run_after fun c => ?_
  try dsimp only
  repeat' first
    | with_reducible assumption
    | with_reducible exact .refl _ _
    | with_reducible refine Chip.sliceStart_in ?_ (by decide +kernel)
    | with_reducible refine Within.ite ?_ ?_
    | split
    | dsimp only

/-- What `execBistSliceEnd` may change. -/
def execBistSliceEnd_fx : Fx := Chip.sliceEnd_fx
theorem execBistSliceEnd_after (t : SliceOn) (e : TestEnd) (found : List Finding) (s : State) : AfterOut execBistSliceEnd_fx s (execBistSliceEnd t e found s) := by
  unfold execBistSliceEnd
  refine State.run_after fun c => ?_
  try dsimp only
  repeat' first
    | with_reducible assumption
    | with_reducible exact .refl _ _
    | with_reducible refine Chip.sliceEnd_in ?_ (by decide +kernel)
    | with_reducible refine Within.ite ?_ ?_
    | split
    | dsimp only

/-- What `execBistRequest` may change. -/
def execBistRequest_fx : Fx := .union [Chip.writeBistRequest_fx, .of [.access] []]
theorem execBistRequest_after (v : BitVec 32) (s : State) : AfterOut execBistRequest_fx s (execBistRequest v s) := by
  unfold execBistRequest
  refine State.runWr_after (by decide +kernel) fun c => ?_
  try dsimp only
  repeat' first
    | with_reducible assumption
    | with_reducible exact .refl _ _
    | with_reducible refine Chip.gated_in (fun _ _ => ?_) ?_
    | with_reducible refine Chip.writeBistRequest_in ?_ (by decide +kernel)
    | with_reducible refine Within.ite ?_ ?_
    | split
    | dsimp only

/-- What `execForegroundGroupStart` may change. -/
def execForegroundGroupStart_fx : Fx := Chip.fgGroupStart_fx
theorem execForegroundGroupStart_after  (s : State) : AfterOut execForegroundGroupStart_fx s (execForegroundGroupStart s) := by
  unfold execForegroundGroupStart
  refine State.run_after fun c => ?_
  try dsimp only
  repeat' first
    | with_reducible assumption
    | with_reducible exact .refl _ _
    | with_reducible refine Chip.fgGroupStart_in ?_ (by decide +kernel)
    | with_reducible refine Within.ite ?_ ?_
    | split
    | dsimp only

/-- What `execForegroundCalDone` may change. -/
def execForegroundCalDone_fx : Fx := .union [Chip.fgDone_fx, Chip.startTimed_fx]
theorem execForegroundCalDone_after (e : PeNo) (m : FgMeas) (s : State) : AfterOut execForegroundCalDone_fx s (execForegroundCalDone e m s) := by
  unfold execForegroundCalDone
  refine State.run_after fun c => ?_
  try dsimp only
  repeat' first
    | with_reducible assumption
    | with_reducible exact .refl _ _
    | with_reducible refine Chip.fgDone_in ?_ (by decide +kernel)
    | with_reducible refine Chip.startTimed_in ?_ (by decide +kernel)
    | with_reducible refine Within.ite ?_ ?_
    | split
    | dsimp only

/-- What `execCalStart` may change. -/
def execCalStart_fx : Fx := .union [Chip.writeCalStart_fx, .of [.access] []]
theorem execCalStart_after (e : PeNo) (v : BitVec 8) (s : State) : AfterOut execCalStart_fx s (execCalStart e v s) := by
  unfold execCalStart
  refine State.runWr_after (by decide +kernel) fun c => ?_
  try dsimp only
  repeat' first
    | with_reducible assumption
    | with_reducible exact .refl _ _
    | with_reducible refine Chip.gated_in (fun _ _ => ?_) ?_
    | with_reducible refine Chip.writeCalStart_in ?_ (by decide +kernel)
    | with_reducible refine Within.ite ?_ ?_
    | split
    | dsimp only

/-- What `execCalRoundStart` may change. -/
def execCalRoundStart_fx : Fx := Chip.roundStart_fx
theorem execCalRoundStart_after (e : PeNo) (dac : Bool) (s : State) : AfterOut execCalRoundStart_fx s (execCalRoundStart e dac s) := by
  unfold execCalRoundStart
  refine State.run_after fun c => ?_
  try dsimp only
  repeat' first
    | with_reducible assumption
    | with_reducible exact .refl _ _
    | with_reducible refine Chip.roundStart_in ?_ (by decide +kernel)
    | with_reducible refine Within.ite ?_ ?_
    | split
    | dsimp only

/-- What `execCalVisitPhaseEnd` may change. -/
def execCalVisitPhaseEnd_fx : Fx := Chip.visitPhase_fx
theorem execCalVisitPhaseEnd_after (e : PeNo) (dac : Bool) (results : List (Quantity × Int)) (matched : List (Quantity × Int)) (s : State) : AfterOut execCalVisitPhaseEnd_fx s (execCalVisitPhaseEnd e dac results matched s) := by
  unfold execCalVisitPhaseEnd
  refine State.run_after fun c => ?_
  try dsimp only
  repeat' first
    | with_reducible assumption
    | with_reducible exact .refl _ _
    | with_reducible refine Chip.visitPhase_in ?_ (by decide +kernel)
    | with_reducible refine Within.ite ?_ ?_
    | split
    | dsimp only

/-- What `execCalCorrectionUpdate` may change. -/
def execCalCorrectionUpdate_fx : Fx := .of [.cal] []
theorem execCalCorrectionUpdate_after (e : PeNo) (s : State) : AfterOut execCalCorrectionUpdate_fx s (execCalCorrectionUpdate e s) := by
  unfold execCalCorrectionUpdate
  refine State.run_after fun c => ?_
  try dsimp only
  repeat' first
    | with_reducible assumption
    | with_reducible exact .refl _ _
    | with_reducible refine Within.setCal ?_ (by decide +kernel)
    | with_reducible refine Within.ite ?_ ?_
    | split
    | dsimp only

/-- What `execCalRecordStore` may change. -/
def execCalRecordStore_fx : Fx := Chip.recordStore_fx
theorem execCalRecordStore_after (e : PeNo) (s : State) : AfterOut execCalRecordStore_fx s (execCalRecordStore e s) := by
  unfold execCalRecordStore
  refine State.run_after fun c => ?_
  try dsimp only
  repeat' first
    | with_reducible assumption
    | with_reducible exact .refl _ _
    | with_reducible refine Chip.recordStore_in ?_ (by decide +kernel)
    | with_reducible refine Within.ite ?_ ?_
    | split
    | dsimp only

end Sys2Proof.Machine
end

