-- ==== Sys2Proof/Laws/FrameExecCfgEvents.lean ====
section
/-!
SUPPORT. Frames of the commands of `Machine/CfgEvents.lean`: which parts and objects each may change.
-/
set_option Elab.async false
namespace Sys2Proof.Machine

/-- What `execImageWrite` may change. -/
def execImageWrite_fx : Fx := .union [Chip.writeImageRow_fx, .of [.access] []]
theorem execImageWrite_after (row : Nat) (v : List Octet) (s : State) : AfterOut execImageWrite_fx s (execImageWrite row v s) := by
  unfold execImageWrite
  refine State.runWr_after (by decide +kernel) fun c => ?_
  try dsimp only
  repeat' first
    | with_reducible assumption
    | with_reducible exact .refl _ _
    | with_reducible refine Chip.gatedOctets_in (fun _ _ _ => ?_) ?_
    | with_reducible refine Chip.writeImageRow_in ?_ (by decide +kernel)
    | with_reducible refine Within.ite ?_ ?_
    | split
    | dsimp only

/-- What `execImageErase` may change. -/
def execImageErase_fx : Fx := .union [Chip.writeImageErase_fx, .of [.access] []]
theorem execImageErase_after (v : BitVec 8) (s : State) : AfterOut execImageErase_fx s (execImageErase v s) := by
  unfold execImageErase
  refine State.runWr_after (by decide +kernel) fun c => ?_
  try dsimp only
  repeat' first
    | with_reducible assumption
    | with_reducible exact .refl _ _
    | with_reducible refine Chip.gated_in (fun _ _ => ?_) ?_
    | with_reducible refine Chip.writeImageErase_in ?_ (by decide +kernel)
    | with_reducible refine Within.ite ?_ ?_
    | split
    | dsimp only

/-- What `execImageVerify` may change. -/
def execImageVerify_fx : Fx := .union [Chip.writeImageVerify_fx, .of [.access] []]
theorem execImageVerify_after (v : BitVec 8) (s : State) : AfterOut execImageVerify_fx s (execImageVerify v s) := by
  unfold execImageVerify
  refine State.runWr_after (by decide +kernel) fun c => ?_
  try dsimp only
  repeat' first
    | with_reducible assumption
    | with_reducible exact .refl _ _
    | with_reducible refine Chip.gated_in (fun _ _ => ?_) ?_
    | with_reducible refine Chip.writeImageVerify_in ?_ (by decide +kernel)
    | with_reducible refine Within.ite ?_ ?_
    | split
    | dsimp only

/-- What `execImageVerifyDone` may change. -/
def execImageVerifyDone_fx : Fx := Chip.imageVerified_fx
theorem execImageVerifyDone_after  (s : State) : AfterOut execImageVerifyDone_fx s (execImageVerifyDone s) := by
  unfold execImageVerifyDone
  refine State.run_after fun c => ?_
  try dsimp only
  repeat' first
    | with_reducible assumption
    | with_reducible exact .refl _ _
    | with_reducible refine Chip.imageVerified_in ?_ (by decide +kernel)
    | with_reducible refine Within.ite ?_ ?_
    | split
    | dsimp only

/-- What `execImageSelectNext` may change. -/
def execImageSelectNext_fx : Fx := .union [Chip.writeSelectNext_fx, .of [.access] []]
theorem execImageSelectNext_after (v : BitVec 8) (s : State) : AfterOut execImageSelectNext_fx s (execImageSelectNext v s) := by
  unfold execImageSelectNext
  refine State.runWr_after (by decide +kernel) fun c => ?_
  try dsimp only
  repeat' first
    | with_reducible assumption
    | with_reducible exact .refl _ _
    | with_reducible refine Chip.gated_in (fun _ _ => ?_) ?_
    | with_reducible refine Chip.writeSelectNext_in ?_ (by decide +kernel)
    | with_reducible refine Within.ite ?_ ?_
    | split
    | dsimp only

/-- What `execImageConfirm` may change. -/
def execImageConfirm_fx : Fx := .union [Chip.writeImageConfirm_fx, .of [.access] []]
theorem execImageConfirm_after (v : BitVec 8) (s : State) : AfterOut execImageConfirm_fx s (execImageConfirm v s) := by
  unfold execImageConfirm
  refine State.runWr_after (by decide +kernel) fun c => ?_
  try dsimp only
  repeat' first
    | with_reducible assumption
    | with_reducible exact .refl _ _
    | with_reducible refine Chip.gated_in (fun _ _ => ?_) ?_
    | with_reducible refine Chip.writeImageConfirm_in ?_ (by decide +kernel)
    | with_reducible refine Within.ite ?_ ?_
    | split
    | dsimp only

/-- What `execOwnerKeySubmit` may change. -/
def execOwnerKeySubmit_fx : Fx := .union [Chip.writeOwnerKey_fx, .of [.access] []]
theorem execOwnerKeySubmit_after (v : BitVec 16) (s : State) : AfterOut execOwnerKeySubmit_fx s (execOwnerKeySubmit v s) := by
  unfold execOwnerKeySubmit
  refine State.runWr_after (by decide +kernel) fun c => ?_
  try dsimp only
  repeat' first
    | with_reducible assumption
    | with_reducible exact .refl _ _
    | with_reducible refine Chip.gated_in (fun _ _ => ?_) ?_
    | with_reducible refine Chip.writeOwnerKey_in ?_ (by decide +kernel)
    | with_reducible refine Within.ite ?_ ?_
    | split
    | dsimp only

/-- What `execOwnerPolicySubmit` may change. -/
def execOwnerPolicySubmit_fx : Fx := .union [Chip.writeOwnerPolicy_fx, .of [.access] []]
theorem execOwnerPolicySubmit_after (v : BitVec 16) (s : State) : AfterOut execOwnerPolicySubmit_fx s (execOwnerPolicySubmit v s) := by
  unfold execOwnerPolicySubmit
  refine State.runWr_after (by decide +kernel) fun c => ?_
  try dsimp only
  repeat' first
    | with_reducible assumption
    | with_reducible exact .refl _ _
    | with_reducible refine Chip.gated_in (fun _ _ => ?_) ?_
    | with_reducible refine Chip.writeOwnerPolicy_in ?_ (by decide +kernel)
    | with_reducible refine Within.ite ?_ ?_
    | split
    | dsimp only

/-- What `execAttestNonce` may change. -/
def execAttestNonce_fx : Fx := .union [Chip.writeNonce_fx, .of [.access] []]
theorem execAttestNonce_after (v : BitVec 256) (s : State) : AfterOut execAttestNonce_fx s (execAttestNonce v s) := by
  unfold execAttestNonce
  refine State.runWr_after (by decide +kernel) fun c => ?_
  try dsimp only
  repeat' first
    | with_reducible assumption
    | with_reducible exact .refl _ _
    | with_reducible refine Chip.gated_in (fun _ _ => ?_) ?_
    | with_reducible refine Chip.writeNonce_in ?_ (by decide +kernel)
    | with_reducible refine Within.ite ?_ ?_
    | split
    | dsimp only

/-- What `execAttestReportDone` may change. -/
def execAttestReportDone_fx : Fx := Chip.reportDone_fx
theorem execAttestReportDone_after  (s : State) : AfterOut execAttestReportDone_fx s (execAttestReportDone s) := by
  unfold execAttestReportDone
  refine State.run_after fun c => ?_
  try dsimp only
  repeat' first
    | with_reducible assumption
    | with_reducible exact .refl _ _
    | with_reducible refine Chip.reportDone_in ?_ (by decide +kernel)
    | with_reducible refine Within.ite ?_ ?_
    | split
    | dsimp only

/-- What `execCfgCandidateWrite` may change. -/
def execCfgCandidateWrite_fx : Fx := .union [Chip.writeCandidate_fx, .of [.access] []]
theorem execCfgCandidateWrite_after (row : Nat) (v : List Octet) (s : State) : AfterOut execCfgCandidateWrite_fx s (execCfgCandidateWrite row v s) := by
  unfold execCfgCandidateWrite
  refine State.runWr_after (by decide +kernel) fun c => ?_
  try dsimp only
  repeat' first
    | with_reducible assumption
    | with_reducible exact .refl _ _
    | with_reducible refine Chip.gatedOctets_in (fun _ _ _ => ?_) ?_
    | with_reducible refine Chip.writeCandidate_in ?_ (by decide +kernel)
    | with_reducible refine Within.ite ?_ ?_
    | split
    | dsimp only

/-- What `execCfgCapture` may change. -/
def execCfgCapture_fx : Fx := .union [Chip.writeCapture'_fx, .of [.access] []]
theorem execCfgCapture_after (v : BitVec 8) (s : State) : AfterOut execCfgCapture_fx s (execCfgCapture v s) := by
  unfold execCfgCapture
  refine State.runWr_after (by decide +kernel) fun c => ?_
  try dsimp only
  repeat' first
    | with_reducible assumption
    | with_reducible exact .refl _ _
    | with_reducible refine Chip.gated_in (fun _ _ => ?_) ?_
    | with_reducible refine Chip.writeCapture'_in ?_ (by decide +kernel)
    | with_reducible refine Within.ite ?_ ?_
    | split
    | dsimp only

/-- What `execCfgLoadFactory` may change. -/
def execCfgLoadFactory_fx : Fx := .union [Chip.writeLoadFactory_fx, .of [.access] []]
theorem execCfgLoadFactory_after (v : BitVec 8) (s : State) : AfterOut execCfgLoadFactory_fx s (execCfgLoadFactory v s) := by
  unfold execCfgLoadFactory
  refine State.runWr_after (by decide +kernel) fun c => ?_
  try dsimp only
  repeat' first
    | with_reducible assumption
    | with_reducible exact .refl _ _
    | with_reducible refine Chip.gated_in (fun _ _ => ?_) ?_
    | with_reducible refine Chip.writeLoadFactory_in ?_ (by decide +kernel)
    | with_reducible refine Within.ite ?_ ?_
    | split
    | dsimp only

/-- What `execCfgCheck` may change. -/
def execCfgCheck_fx : Fx := .union [Chip.writeCfgCheck_fx, .of [.access] []]
theorem execCfgCheck_after (v : BitVec 8) (s : State) : AfterOut execCfgCheck_fx s (execCfgCheck v s) := by
  unfold execCfgCheck
  refine State.runWr_after (by decide +kernel) fun c => ?_
  try dsimp only
  repeat' first
    | with_reducible assumption
    | with_reducible exact .refl _ _
    | with_reducible refine Chip.gated_in (fun _ _ => ?_) ?_
    | with_reducible refine Chip.writeCfgCheck_in ?_ (by decide +kernel)
    | with_reducible refine Within.ite ?_ ?_
    | split
    | dsimp only

/-- What `execCfgCheckDone` may change. -/
def execCfgCheckDone_fx : Fx := Chip.cfgCheckDone_fx
theorem execCfgCheckDone_after  (s : State) : AfterOut execCfgCheckDone_fx s (execCfgCheckDone s) := by
  unfold execCfgCheckDone
  refine State.run_after fun c => ?_
  try dsimp only
  repeat' first
    | with_reducible assumption
    | with_reducible exact .refl _ _
    | with_reducible refine Chip.cfgCheckDone_in ?_ (by decide +kernel)
    | with_reducible refine Within.ite ?_ ?_
    | split
    | dsimp only

/-- What `execCfgCommit` may change. -/
def execCfgCommit_fx : Fx := .union [Chip.writeCommit_fx, .of [.access] []]
theorem execCfgCommit_after (v : BitVec 8) (s : State) : AfterOut execCfgCommit_fx s (execCfgCommit v s) := by
  unfold execCfgCommit
  refine State.runWr_after (by decide +kernel) fun c => ?_
  try dsimp only
  repeat' first
    | with_reducible assumption
    | with_reducible exact .refl _ _
    | with_reducible refine Chip.gated_in (fun _ _ => ?_) ?_
    | with_reducible refine Chip.writeCommit_in ?_ (by decide +kernel)
    | with_reducible refine Within.ite ?_ ?_
    | split
    | dsimp only

/-- What `execCfgConfirm` may change. -/
def execCfgConfirm_fx : Fx := .union [Chip.writeConfirm_fx, .of [.access] []]
theorem execCfgConfirm_after (v : BitVec 32) (s : State) : AfterOut execCfgConfirm_fx s (execCfgConfirm v s) := by
  unfold execCfgConfirm
  refine State.runWr_after (by decide +kernel) fun c => ?_
  try dsimp only
  repeat' first
    | with_reducible assumption
    | with_reducible exact .refl _ _
    | with_reducible refine Chip.gated_in (fun _ _ => ?_) ?_
    | with_reducible refine Chip.writeConfirm_in ?_ (by decide +kernel)
    | with_reducible refine Within.ite ?_ ?_
    | split
    | dsimp only

/-- What `execCfgConfirmDeadline` may change. -/
def execCfgConfirmDeadline_fx : Fx := Chip.deadlineRevert_fx
theorem execCfgConfirmDeadline_after  (s : State) : AfterOut execCfgConfirmDeadline_fx s (execCfgConfirmDeadline s) := by
  unfold execCfgConfirmDeadline
  refine State.run_after fun c => ?_
  try dsimp only
  repeat' first
    | with_reducible assumption
    | with_reducible exact .refl _ _
    | with_reducible refine Chip.deadlineRevert_in ?_ (by decide +kernel)
    | with_reducible refine Within.ite ?_ ?_
    | split
    | dsimp only

/-- What `execCfgRollback` may change. -/
def execCfgRollback_fx : Fx := .union [Chip.writeRollback_fx, .of [.access] []]
theorem execCfgRollback_after (v : BitVec 8) (s : State) : AfterOut execCfgRollback_fx s (execCfgRollback v s) := by
  unfold execCfgRollback
  refine State.runWr_after (by decide +kernel) fun c => ?_
  try dsimp only
  repeat' first
    | with_reducible assumption
    | with_reducible exact .refl _ _
    | with_reducible refine Chip.gated_in (fun _ _ => ?_) ?_
    | with_reducible refine Chip.writeRollback_in ?_ (by decide +kernel)
    | with_reducible refine Within.ite ?_ ?_
    | split
    | dsimp only

end Sys2Proof.Machine
end

