-- ==== Sys2Proof/Laws/FrameExecDapEvents.lean ====
section
/-!
SUPPORT. Frames of the commands of `Machine/DapEvents.lean`: which parts and objects each may change.
-/
set_option Elab.async false
namespace Sys2Proof.Machine

/-- What `execStatusClear` may change. -/
def execStatusClear_fx : Fx := .union [Chip.statusClear_fx, .of [.access] []]
theorem execStatusClear_after (inst : BitVec 12) (miss : Bool) (v : BitVec 64) (s : State) : AfterOut execStatusClear_fx s (execStatusClear inst miss v s) := by
  unfold execStatusClear
  refine State.runWr_after (by decide +kernel) fun c => ?_
  try dsimp only
  repeat' first
    | with_reducible assumption
    | with_reducible exact .refl _ _
    | with_reducible refine Chip.statusClear_in ?_ (by decide +kernel)
    | with_reducible refine Within.ite ?_ ?_
    | split
    | dsimp only

/-- What `execDapRequest` may change. -/
def execDapRequest_fx : Fx := Chip.dapTake_fx
theorem execDapRequest_after (via : DapVia) (octets : List Octet) (s : State) : AfterOut execDapRequest_fx s (execDapRequest via octets s) := by
  unfold execDapRequest
  refine State.run_after fun c => ?_
  try dsimp only
  repeat' first
    | with_reducible assumption
    | with_reducible exact .refl _ _
    | with_reducible refine Chip.dapTake_in ?_ (by decide +kernel)
    | with_reducible refine Within.ite ?_ ?_
    | split
    | dsimp only

/-- What `execRead` may change. -/
def execRead_fx : Fx := .of [.access] []
theorem execRead_after (addr : BitVec 40) (row : BitVec 24) (held : Bool) (s : State) : AfterOut execRead_fx s (execRead addr row held s) := by
  unfold execRead
  refine State.run_after fun c => ?_
  try dsimp only
  repeat' first
    | with_reducible assumption
    | with_reducible exact .refl _ _
    | with_reducible refine Within.result ?_ (by decide +kernel)
    | with_reducible refine Within.ite ?_ ?_
    | split
    | dsimp only

/-- What `execWrite` may change. -/
def execWrite_fx : Fx := .union [Chip.writeAddr_fx, .of [.access] []]
theorem execWrite_after (addr : BitVec 40) (row : BitVec 24) (value : List Octet) (path : Path) (src : BitVec 8) (s : State) : AfterOut execWrite_fx s (execWrite addr row value path src s) := by
  unfold execWrite
  refine State.runWr_after (by decide +kernel) fun c => ?_
  try dsimp only
  repeat' first
    | with_reducible assumption
    | with_reducible exact .refl _ _
    | with_reducible refine Chip.writeAddr_in ?_ (by decide +kernel)
    | with_reducible refine Within.ite ?_ ?_
    | split
    | dsimp only

/-- What `execDescribe` may change. -/
def execDescribe_fx : Fx := .of [.access] []
theorem execDescribe_after (addr : BitVec 40) (row : BitVec 24) (s : State) : AfterOut execDescribe_fx s (execDescribe addr row s) := by
  unfold execDescribe
  refine State.run_after fun c => ?_
  try dsimp only
  repeat' first
    | with_reducible assumption
    | with_reducible exact .refl _ _
    | with_reducible refine Within.result ?_ (by decide +kernel)
    | with_reducible refine Within.ite ?_ ?_
    | split
    | dsimp only

/-- What `execDapResponseReceived` may change. -/
def execDapResponseReceived_fx : Fx := Chip.dapResponse_fx
theorem execDapResponseReceived_after (octets : List Octet) (s : State) : AfterOut execDapResponseReceived_fx s (execDapResponseReceived octets s) := by
  unfold execDapResponseReceived
  refine State.run_after fun c => ?_
  try dsimp only
  repeat' first
    | with_reducible assumption
    | with_reducible exact .refl _ _
    | with_reducible refine Chip.dapResponse_in ?_ (by decide +kernel)
    | with_reducible refine Within.ite ?_ ?_
    | split
    | dsimp only

/-- What `execRegisterWrite` may change. -/
def execRegisterWrite_fx : Fx := .union [Chip.writeAddr_fx, .of [.access] []]
theorem execRegisterWrite_after (addr : BitVec 40) (row : BitVec 24) (value : List Octet) (path : Path) (s : State) : AfterOut execRegisterWrite_fx s (execRegisterWrite addr row value path s) := by
  unfold execRegisterWrite
  refine State.runWr_after (by decide +kernel) fun c => ?_
  try dsimp only
  repeat' first
    | with_reducible assumption
    | with_reducible exact .refl _ _
    | with_reducible refine Chip.writeAddr_in ?_ (by decide +kernel)
    | with_reducible refine Within.ite ?_ ?_
    | split
    | dsimp only

/-- What `execSnapshot` may change. -/
def execSnapshot_fx : Fx := .union [Chip.snapshotWrite_fx, .of [.access] []]
theorem execSnapshot_after (inst : BitVec 12) (v : BitVec 8) (s : State) : AfterOut execSnapshot_fx s (execSnapshot inst v s) := by
  unfold execSnapshot
  refine State.runWr_after (by decide +kernel) fun c => ?_
  try dsimp only
  repeat' first
    | with_reducible assumption
    | with_reducible exact .refl _ _
    | with_reducible refine Chip.snapshotWrite_in ?_ (by decide +kernel)
    | with_reducible refine Within.ite ?_ ?_
    | split
    | dsimp only

/-- What `execSpiReadStatus` may change. -/
def execSpiReadStatus_fx : Fx := .of [.access] []
theorem execSpiReadStatus_after  (s : State) : AfterOut execSpiReadStatus_fx s (execSpiReadStatus s) := by
  unfold execSpiReadStatus
  refine State.run_after fun c => ?_
  try dsimp only
  repeat' first
    | with_reducible assumption
    | with_reducible exact .refl _ _
    | with_reducible refine Within.result ?_ (by decide +kernel)
    | with_reducible refine Within.ite ?_ ?_
    | split
    | dsimp only

/-- What `execSpiWriteReq` may change. -/
def execSpiWriteReq_fx : Fx := Chip.spiWrite_fx
theorem execSpiWriteReq_after (length : BitVec 16) (octets : List Octet) (crc : BitVec 32) (s : State) : AfterOut execSpiWriteReq_fx s (execSpiWriteReq length octets crc s) := by
  unfold execSpiWriteReq
  refine State.run_after fun c => ?_
  try dsimp only
  repeat' first
    | with_reducible assumption
    | with_reducible exact .refl _ _
    | with_reducible refine Chip.spiWrite_in ?_ (by decide +kernel)
    | with_reducible refine Within.ite ?_ ?_
    | split
    | dsimp only

/-- What `execSpiReadResp` may change. -/
def execSpiReadResp_fx : Fx := Chip.spiRead_fx
theorem execSpiReadResp_after (complete : Bool) (s : State) : AfterOut execSpiReadResp_fx s (execSpiReadResp complete s) := by
  unfold execSpiReadResp
  refine State.run_after fun c => ?_
  try dsimp only
  repeat' first
    | with_reducible assumption
    | with_reducible exact .refl _ _
    | with_reducible refine Chip.spiRead_in ?_ (by decide +kernel)
    | with_reducible refine Within.ite ?_ ?_
    | split
    | dsimp only

/-- What `execMgmtAnComplete` may change. -/
def execMgmtAnComplete_fx : Fx := Chip.mgmtUp_fx
theorem execMgmtAnComplete_after (negotiated : Bool) (s : State) : AfterOut execMgmtAnComplete_fx s (execMgmtAnComplete negotiated s) := by
  unfold execMgmtAnComplete
  refine State.run_after fun c => ?_
  try dsimp only
  repeat' first
    | with_reducible assumption
    | with_reducible exact .refl _ _
    | with_reducible refine Chip.mgmtUp_in ?_ (by decide +kernel)
    | with_reducible refine Within.ite ?_ ?_
    | split
    | dsimp only

/-- What `execMgmtSyncLoss` may change. -/
def execMgmtSyncLoss_fx : Fx := Chip.mgmtLost_fx
theorem execMgmtSyncLoss_after (signal : Bool) (s : State) : AfterOut execMgmtSyncLoss_fx s (execMgmtSyncLoss signal s) := by
  unfold execMgmtSyncLoss
  refine State.run_after fun c => ?_
  try dsimp only
  repeat' first
    | with_reducible assumption
    | with_reducible exact .refl _ _
    | with_reducible refine Chip.mgmtLost_in ?_ (by decide +kernel)
    | with_reducible refine Within.ite ?_ ?_
    | split
    | dsimp only

/-- What `execCoalesceWindowClose` may change. -/
def execCoalesceWindowClose_fx : Fx := Chip.closeWindow_fx
theorem execCoalesceWindowClose_after (inst : Nat) (ev : EvName) (s : State) : AfterOut execCoalesceWindowClose_fx s (execCoalesceWindowClose inst ev s) := by
  unfold execCoalesceWindowClose
  refine State.run_after fun c => ?_
  try dsimp only
  repeat' first
    | with_reducible assumption
    | with_reducible exact .refl _ _
    | with_reducible refine Chip.closeWindow_in ?_ (by decide +kernel)
    | with_reducible refine Within.ite ?_ ?_
    | split
    | dsimp only

/-- What `execEvReadCountWrite` may change. -/
def execEvReadCountWrite_fx : Fx := .union [Chip.writeBase_fx, .of [.access] []]
theorem execEvReadCountWrite_after (v : BitVec 64) (s : State) : AfterOut execEvReadCountWrite_fx s (execEvReadCountWrite v s) := by
  unfold execEvReadCountWrite
  refine State.runWr_after (by decide +kernel) fun c => ?_
  try dsimp only
  repeat' first
    | with_reducible assumption
    | with_reducible exact .refl _ _
    | with_reducible refine Chip.gated_in (fun _ _ => ?_) ?_
    | with_reducible refine Chip.writeBase_in ?_ (by decide +kernel)
    | with_reducible refine Within.ite ?_ ?_
    | split
    | dsimp only

end Sys2Proof.Machine
end

