-- ==== Sys2Proof/Laws/FrameExecDiagEvents.lean ====
section
/-!
SUPPORT. Frames of the commands of `Machine/DiagEvents.lean`: which parts and objects each may change.
-/
set_option Elab.async false
namespace Sys2Proof.Machine

/-- What `execTdrStart` may change. -/
def execTdrStart_fx : Fx := .union [Chip.writeTdrStart_fx, .of [.access] []]
theorem execTdrStart_after (p : PortNo) (v : BitVec 8) (s : State) : AfterOut execTdrStart_fx s (execTdrStart p v s) := by
  unfold execTdrStart
  refine State.runWr_after (by decide +kernel) fun c => ?_
  try dsimp only
  repeat' first
    | with_reducible assumption
    | with_reducible exact .refl _ _
    | with_reducible refine Chip.gated_in (fun _ _ => ?_) ?_
    | with_reducible refine Chip.writeTdrStart_in ?_ (by decide +kernel)
    | with_reducible refine Within.ite ?_ ?_
    | split
    | dsimp only

/-- What `execTdrDone` may change. -/
def execTdrDone_fx : Fx := Chip.tdrFinish_fx
theorem execTdrDone_after (p : PortNo) (r : T0Probe) (s : State) : AfterOut execTdrDone_fx s (execTdrDone p r s) := by
  unfold execTdrDone
  refine State.run_after fun c => ?_
  try dsimp only
  repeat' first
    | with_reducible assumption
    | with_reducible exact .refl _ _
    | with_reducible refine Chip.tdrFinish_in ?_ (by decide +kernel)
    | with_reducible refine Within.ite ?_ ?_
    | split
    | dsimp only

/-- What `execReflectCompute` may change. -/
def execReflectCompute_fx : Fx := .union [Chip.writeReflect_fx, .of [.access] []]
theorem execReflectCompute_after (e : PeNo) (s : State) : AfterOut execReflectCompute_fx s (execReflectCompute e s) := by
  unfold execReflectCompute
  refine State.runWr_after (by decide +kernel) fun c => ?_
  try dsimp only
  repeat' first
    | with_reducible assumption
    | with_reducible exact .refl _ _
    | with_reducible refine Chip.gated_in (fun _ _ => ?_) ?_
    | with_reducible refine Chip.writeReflect_in ?_ (by decide +kernel)
    | with_reducible refine Within.ite ?_ ?_
    | split
    | dsimp only

/-- What `execReflectBaselineSet` may change. -/
def execReflectBaselineSet_fx : Fx := .union [Chip.writeReflect_fx, .of [.access] []]
theorem execReflectBaselineSet_after (e : PeNo) (s : State) : AfterOut execReflectBaselineSet_fx s (execReflectBaselineSet e s) := by
  unfold execReflectBaselineSet
  refine State.runWr_after (by decide +kernel) fun c => ?_
  try dsimp only
  repeat' first
    | with_reducible assumption
    | with_reducible exact .refl _ _
    | with_reducible refine Chip.gated_in (fun _ _ => ?_) ?_
    | with_reducible refine Chip.writeReflect_in ?_ (by decide +kernel)
    | with_reducible refine Within.ite ?_ ?_
    | split
    | dsimp only

/-- What `execReflectDone` may change. -/
def execReflectDone_fx : Fx := .union [Chip.reflWrite_fx, .of [.diag] []]
theorem execReflectDone_after (e : PeNo) (rows : List (BitVec 16)) (origin : Nat) (s : State) : AfterOut execReflectDone_fx s (execReflectDone e rows origin s) := by
  unfold execReflectDone
  refine State.run_after fun c => ?_
  try dsimp only
  repeat' first
    | with_reducible assumption
    | with_reducible exact .refl _ _
    | with_reducible refine Chip.reflWrite_in ?_ (by decide +kernel)
    | with_reducible refine Within.setDiag ?_ (by decide +kernel)
    | with_reducible refine Within.ite ?_ ?_
    | split
    | dsimp only

/-- What `execReflectWatchTick` may change. -/
def execReflectWatchTick_fx : Fx := .union [Chip.reflWatch_fx, Chip.reflWrite_fx, .of [.diag] []]
theorem execReflectWatchTick_after (e : PeNo) (rows : List (BitVec 16)) (origin : Nat) (s : State) : AfterOut execReflectWatchTick_fx s (execReflectWatchTick e rows origin s) := by
  unfold execReflectWatchTick
  refine State.run_after fun c => ?_
  try dsimp only
  repeat' first
    | with_reducible assumption
    | with_reducible exact .refl _ _
    | with_reducible refine Chip.reflWatch_in ?_ (by decide +kernel)
    | with_reducible refine Chip.reflWrite_in ?_ (by decide +kernel)
    | with_reducible refine Within.setDiag ?_ (by decide +kernel)
    | with_reducible refine Within.ite ?_ ?_
    | split
    | dsimp only

/-- What `execLqSecondEnd` may change. -/
def execLqSecondEnd_fx : Fx := .union [Chip.lqSecond_fx, Chip.stdCounts_fx]
theorem execLqSecondEnd_after (p : PortNo) (std : List StdCounts) (s : State) : AfterOut execLqSecondEnd_fx s (execLqSecondEnd p std s) := by
  unfold execLqSecondEnd
  refine State.run_after fun c => ?_
  try dsimp only
  repeat' first
    | with_reducible assumption
    | with_reducible exact .refl _ _
    | with_reducible refine Chip.lqSecond_in ?_ (by decide +kernel)
    | with_reducible refine Chip.stdCounts_in ?_ (by decide +kernel)
    | with_reducible refine Within.ite ?_ ?_
    | split
    | dsimp only

/-- What `execLqReset` may change. -/
def execLqReset_fx : Fx := .union [Chip.writeLqReset_fx, .of [.access] []]
theorem execLqReset_after (p : PortNo) (v : BitVec 8) (s : State) : AfterOut execLqReset_fx s (execLqReset p v s) := by
  unfold execLqReset
  refine State.runWr_after (by decide +kernel) fun c => ?_
  try dsimp only
  repeat' first
    | with_reducible assumption
    | with_reducible exact .refl _ _
    | with_reducible refine Chip.gated_in (fun _ _ => ?_) ?_
    | with_reducible refine Chip.writeLqReset_in ?_ (by decide +kernel)
    | with_reducible refine Within.ite ?_ ?_
    | split
    | dsimp only

/-- What `execPlantMapBuild` may change. -/
def execPlantMapBuild_fx : Fx := .union [Chip.writePlantBuild_fx, .of [.access] []]
theorem execPlantMapBuild_after (v : BitVec 8) (s : State) : AfterOut execPlantMapBuild_fx s (execPlantMapBuild v s) := by
  unfold execPlantMapBuild
  refine State.runWr_after (by decide +kernel) fun c => ?_
  try dsimp only
  repeat' first
    | with_reducible assumption
    | with_reducible exact .refl _ _
    | with_reducible refine Chip.gated_in (fun _ _ => ?_) ?_
    | with_reducible refine Chip.writePlantBuild_in ?_ (by decide +kernel)
    | with_reducible refine Within.ite ?_ ?_
    | split
    | dsimp only

/-- What `execPlantMapDone` may change. -/
def execPlantMapDone_fx : Fx := Chip.plantDone_fx
theorem execPlantMapDone_after  (s : State) : AfterOut execPlantMapDone_fx s (execPlantMapDone s) := by
  unfold execPlantMapDone
  refine State.run_after fun c => ?_
  try dsimp only
  repeat' first
    | with_reducible assumption
    | with_reducible exact .refl _ _
    | with_reducible refine Chip.plantDone_in ?_ (by decide +kernel)
    | with_reducible refine Within.ite ?_ ?_
    | split
    | dsimp only

/-- What `execLedLocateTick` may change. -/
def execLedLocateTick_fx : Fx := .of [] [.LED_LOCATE]
theorem execLedLocateTick_after (q : QuadNo) (s : State) : AfterOut execLedLocateTick_fx s (execLedLocateTick q s) := by
  unfold execLedLocateTick
  refine State.run_after fun c => ?_
  try dsimp only
  repeat' first
    | with_reducible assumption
    | with_reducible exact .refl _ _
    | with_reducible refine Within.wr ?_ (by decide +kernel)
    | with_reducible refine Within.ite ?_ ?_
    | split
    | dsimp only

/-- What `execLedBlinkEnd` may change. -/
def execLedBlinkEnd_fx : Fx := .of [.diag] []
theorem execLedBlinkEnd_after (p : PortNo) (s : State) : AfterOut execLedBlinkEnd_fx s (execLedBlinkEnd p s) := by
  unfold execLedBlinkEnd
  refine State.run_after fun c => ?_
  try dsimp only
  repeat' first
    | with_reducible assumption
    | with_reducible exact .refl _ _
    | with_reducible refine Within.setDiag ?_ (by decide +kernel)
    | with_reducible refine Within.ite ?_ ?_
    | split
    | dsimp only

end Sys2Proof.Machine
end

