-- ==== Sys2Proof/Laws/FrameExecHostEvents.lean ====
section
/-!
SUPPORT. Frames of the commands of `Machine/HostEvents.lean`: which parts and objects each may change.
-/
set_option Elab.async false
namespace Sys2Proof.Machine

/-- What `execFrameFromHost` may change. -/
def execFrameFromHost_fx : Fx := Chip.hostFrame_fx
theorem execFrameFromHost_after (p : PortNo) (f : HostFrame) (s : State) : AfterOut execFrameFromHost_fx s (execFrameFromHost p f s) := by
  unfold execFrameFromHost
  refine State.run_after fun c => ?_
  try dsimp only
  repeat' first
    | with_reducible assumption
    | with_reducible exact .refl _ _
    | with_reducible refine Chip.hostFrame_in ?_ (by decide +kernel)
    | with_reducible refine Within.ite ?_ ?_
    | split
    | dsimp only

/-- What `execHostPauseEnd` may change. -/
def execHostPauseEnd_fx : Fx := .of [] [.HL_PORT_STATUS]
theorem execHostPauseEnd_after (p : PortNo) (s : State) : AfterOut execHostPauseEnd_fx s (execHostPauseEnd p s) := by
  unfold execHostPauseEnd
  refine State.run_after fun c => ?_
  try dsimp only
  repeat' first
    | with_reducible assumption
    | with_reducible exact .refl _ _
    | with_reducible refine Within.setBit ?_ (by decide +kernel)
    | with_reducible refine Within.ite ?_ ?_
    | split
    | dsimp only

/-- What `execHostLocalFaultRx` may change. -/
def execHostLocalFaultRx_fx : Fx := .of [] [.HL_PORT_STATUS]
theorem execHostLocalFaultRx_after (p : PortNo) (asserted : Bool) (s : State) : AfterOut execHostLocalFaultRx_fx s (execHostLocalFaultRx p asserted s) := by
  unfold execHostLocalFaultRx
  refine State.run_after fun c => ?_
  try dsimp only
  repeat' first
    | with_reducible assumption
    | with_reducible exact .refl _ _
    | with_reducible refine Within.setBit ?_ (by decide +kernel)
    | with_reducible refine Within.ite ?_ ?_
    | split
    | dsimp only

/-- What `execPfcFrameSend` may change. -/
def execPfcFrameSend_fx : Fx := Chip.pfcSend_fx
theorem execPfcFrameSend_after (p : PortNo) (s : State) : AfterOut execPfcFrameSend_fx s (execPfcFrameSend p s) := by
  unfold execPfcFrameSend
  refine State.run_after fun c => ?_
  try dsimp only
  repeat' first
    | with_reducible assumption
    | with_reducible exact .refl _ _
    | with_reducible refine Chip.pfcSend_in ?_ (by decide +kernel)
    | with_reducible refine Within.ite ?_ ?_
    | split
    | dsimp only

/-- What `execPfcRefresh` may change. -/
def execPfcRefresh_fx : Fx := Chip.pfcQueue_fx
theorem execPfcRefresh_after (p : PortNo) (prio : Fin 8) (s : State) : AfterOut execPfcRefresh_fx s (execPfcRefresh p prio s) := by
  unfold execPfcRefresh
  refine State.run_after fun c => ?_
  try dsimp only
  repeat' first
    | with_reducible assumption
    | with_reducible exact .refl _ _
    | with_reducible refine Chip.pfcQueue_in ?_ (by decide +kernel)
    | with_reducible refine Within.ite ?_ ?_
    | split
    | dsimp only

/-- What `execReceiveFrame` may change. -/
def execReceiveFrame_fx : Fx := Chip.lineFrame_fx
theorem execReceiveFrame_after (p : PortNo) (f : LineFrame) (s : State) : AfterOut execReceiveFrame_fx s (execReceiveFrame p f s) := by
  unfold execReceiveFrame
  refine State.run_after fun c => ?_
  try dsimp only
  repeat' first
    | with_reducible assumption
    | with_reducible exact .refl _ _
    | with_reducible refine Chip.lineFrame_in ?_ (by decide +kernel)
    | with_reducible refine Within.ite ?_ ?_
    | split
    | dsimp only

/-- What `execForwardToHost` may change. -/
def execForwardToHost_fx : Fx := Chip.forward_fx
theorem execForwardToHost_after (p : PortNo) (s : State) : AfterOut execForwardToHost_fx s (execForwardToHost p s) := by
  unfold execForwardToHost
  refine State.run_after fun c => ?_
  try dsimp only
  repeat' first
    | with_reducible assumption
    | with_reducible exact .refl _ _
    | with_reducible refine Chip.forward_in ?_ (by decide +kernel)
    | with_reducible refine Within.ite ?_ ?_
    | split
    | dsimp only

/-- What `execHlLaneUp` may change. -/
def execHlLaneUp_fx : Fx := .union [Chip.laneEval_fx, .of [.hlane] [.HL_STATUS]]
theorem execHlLaneUp_after (h : LaneNo) (s : State) : AfterOut execHlLaneUp_fx s (execHlLaneUp h s) := by
  unfold execHlLaneUp
  refine State.run_after fun c => ?_
  try dsimp only
  repeat' first
    | with_reducible assumption
    | with_reducible exact .refl _ _
    | with_reducible refine Chip.laneEval_in ?_ (by decide +kernel)
    | with_reducible refine Within.setBit ?_ (by decide +kernel)
    | with_reducible refine Within.setLane ?_ (by decide +kernel)
    | with_reducible refine Within.ite ?_ ?_
    | split
    | dsimp only

/-- What `execHlLaneFault` may change. -/
def execHlLaneFault_fx : Fx := .union [Chip.laneEval_fx, .of [.hlane] []]
theorem execHlLaneFault_after (h : LaneNo) (s : State) : AfterOut execHlLaneFault_fx s (execHlLaneFault h s) := by
  unfold execHlLaneFault
  refine State.run_after fun c => ?_
  try dsimp only
  repeat' first
    | with_reducible assumption
    | with_reducible exact .refl _ _
    | with_reducible refine Chip.laneEval_in ?_ (by decide +kernel)
    | with_reducible refine Within.setLane ?_ (by decide +kernel)
    | with_reducible refine Within.ite ?_ ?_
    | split
    | dsimp only

/-- What `execHlForceFailWrite` may change. -/
def execHlForceFailWrite_fx : Fx := .union [Chip.writeBase_fx, .of [.access] []]
theorem execHlForceFailWrite_after (h : LaneNo) (v : BitVec 8) (s : State) : AfterOut execHlForceFailWrite_fx s (execHlForceFailWrite h v s) := by
  unfold execHlForceFailWrite
  refine State.runWr_after (by decide +kernel) fun c => ?_
  try dsimp only
  repeat' first
    | with_reducible assumption
    | with_reducible exact .refl _ _
    | with_reducible refine Chip.gated_in (fun _ _ => ?_) ?_
    | with_reducible refine Chip.writeBase_in ?_ (by decide +kernel)
    | with_reducible refine Within.ite ?_ ?_
    | split
    | dsimp only

/-- What `execLsMarkerReceived` may change. -/
def execLsMarkerReceived_fx : Fx := Chip.lsMarkerTake_fx
theorem execLsMarkerReceived_after (h : LaneNo) (block : BitVec 66) (inProgress : List PortNo) (s : State) : AfterOut execLsMarkerReceived_fx s (execLsMarkerReceived h block inProgress s) := by
  unfold execLsMarkerReceived
  refine State.run_after fun c => ?_
  try dsimp only
  repeat' first
    | with_reducible assumption
    | with_reducible exact .refl _ _
    | with_reducible refine Chip.lsMarkerTake_in ?_ (by decide +kernel)
    | with_reducible refine Within.ite ?_ ?_
    | split
    | dsimp only

/-- What `execHlMapWrite` may change. -/
def execHlMapWrite_fx : Fx := .union [Chip.writeHlMap_fx, .of [.access] []]
theorem execHlMapWrite_after (p : PortNo) (entries : Bool) (v : BitVec 32) (s : State) : AfterOut execHlMapWrite_fx s (execHlMapWrite p entries v s) := by
  unfold execHlMapWrite
  refine State.runWr_after (by decide +kernel) fun c => ?_
  try dsimp only
  repeat' first
    | with_reducible assumption
    | with_reducible exact .refl _ _
    | with_reducible refine Chip.gated_in (fun _ _ => ?_) ?_
    | with_reducible refine Chip.writeHlMap_in ?_ (by decide +kernel)
    | with_reducible refine Within.ite ?_ ?_
    | split
    | dsimp only

/-- What `execHlPrbsGenWrite` may change. -/
def execHlPrbsGenWrite_fx : Fx := .union [Chip.writeBase_fx, .of [.access] []]
theorem execHlPrbsGenWrite_after (h : LaneNo) (v : BitVec 8) (s : State) : AfterOut execHlPrbsGenWrite_fx s (execHlPrbsGenWrite h v s) := by
  unfold execHlPrbsGenWrite
  refine State.runWr_after (by decide +kernel) fun c => ?_
  try dsimp only
  repeat' first
    | with_reducible assumption
    | with_reducible exact .refl _ _
    | with_reducible refine Chip.gated_in (fun _ _ => ?_) ?_
    | with_reducible refine Chip.writeBase_in ?_ (by decide +kernel)
    | with_reducible refine Within.ite ?_ ?_
    | split
    | dsimp only

/-- What `execHlPrbsChkWrite` may change. -/
def execHlPrbsChkWrite_fx : Fx := .union [Chip.writeBase_fx, .of [.access] []]
theorem execHlPrbsChkWrite_after (h : LaneNo) (v : BitVec 8) (s : State) : AfterOut execHlPrbsChkWrite_fx s (execHlPrbsChkWrite h v s) := by
  unfold execHlPrbsChkWrite
  refine State.runWr_after (by decide +kernel) fun c => ?_
  try dsimp only
  repeat' first
    | with_reducible assumption
    | with_reducible exact .refl _ _
    | with_reducible refine Chip.gated_in (fun _ _ => ?_) ?_
    | with_reducible refine Chip.writeBase_in ?_ (by decide +kernel)
    | with_reducible refine Within.ite ?_ ?_
    | split
    | dsimp only

/-- What `execPfcSettingWrite` may change. -/
def execPfcSettingWrite_fx : Fx := .union [Chip.writePfc_fx, .of [.access] []]
theorem execPfcSettingWrite_after (p : PortNo) (which : PfcSetting) (v : BitVec 32) (s : State) : AfterOut execPfcSettingWrite_fx s (execPfcSettingWrite p which v s) := by
  unfold execPfcSettingWrite
  refine State.runWr_after (by decide +kernel) fun c => ?_
  try dsimp only
  repeat' first
    | with_reducible assumption
    | with_reducible exact .refl _ _
    | with_reducible refine Chip.gated_in (fun _ _ => ?_) ?_
    | with_reducible refine Chip.writePfc_in ?_ (by decide +kernel)
    | with_reducible refine Within.ite ?_ ?_
    | split
    | dsimp only

/-- What `execFecLockChange` may change. -/
def execFecLockChange_fx : Fx := .union [Chip.corrected_fx, Chip.laneLocks_fx]
theorem execFecLockChange_after (h : LaneNo) (signal : Bool) (fec : Bool) (am : Bool) (corrected : Nat) (uncorrected : Nat) (prbs : Nat) (s : State) : AfterOut execFecLockChange_fx s (execFecLockChange h signal fec am corrected uncorrected prbs s) := by
  unfold execFecLockChange
  refine State.run_after fun c => ?_
  try dsimp only
  repeat' first
    | with_reducible assumption
    | with_reducible exact .refl _ _
    | with_reducible refine Chip.corrected_in ?_ (by decide +kernel)
    | with_reducible refine Chip.laneLocks_in ?_ (by decide +kernel)
    | with_reducible refine Within.ite ?_ ?_
    | split
    | dsimp only

end Sys2Proof.Machine
end

