-- ==== Sys2Proof/Laws/FrameExecPowerEvents.lean ====
section
/-!
SUPPORT. Frames of the commands of `Machine/PowerEvents.lean`: which parts and objects each may change.
-/
set_option Elab.async false
namespace Sys2Proof.Machine

/-- What `execPwrRequestActive` may change. -/
def execPwrRequestActive_fx : Fx := .union [Chip.writePower_fx, .of [.access] []]
theorem execPwrRequestActive_after  (s : State) : AfterOut execPwrRequestActive_fx s (execPwrRequestActive s) := by
  unfold execPwrRequestActive
  refine State.runWr_after (by decide +kernel) fun c => ?_
  try dsimp only
  repeat' first
    | with_reducible assumption
    | with_reducible exact .refl _ _
    | with_reducible refine Chip.gated_in (fun _ _ => ?_) ?_
    | with_reducible refine Chip.writePower_in ?_ (by decide +kernel)
    | with_reducible refine Within.ite ?_ ?_
    | split
    | dsimp only

/-- What `execPwrRequestStandby` may change. -/
def execPwrRequestStandby_fx : Fx := .union [Chip.writePower_fx, .of [.access] []]
theorem execPwrRequestStandby_after  (s : State) : AfterOut execPwrRequestStandby_fx s (execPwrRequestStandby s) := by
  unfold execPwrRequestStandby
  refine State.runWr_after (by decide +kernel) fun c => ?_
  try dsimp only
  repeat' first
    | with_reducible assumption
    | with_reducible exact .refl _ _
    | with_reducible refine Chip.gated_in (fun _ _ => ?_) ?_
    | with_reducible refine Chip.writePower_in ?_ (by decide +kernel)
    | with_reducible refine Within.ite ?_ ?_
    | split
    | dsimp only

/-- What `execPwrRequestOff` may change. -/
def execPwrRequestOff_fx : Fx := .union [Chip.writePower_fx, .of [.access] []]
theorem execPwrRequestOff_after  (s : State) : AfterOut execPwrRequestOff_fx s (execPwrRequestOff s) := by
  unfold execPwrRequestOff
  refine State.runWr_after (by decide +kernel) fun c => ?_
  try dsimp only
  repeat' first
    | with_reducible assumption
    | with_reducible exact .refl _ _
    | with_reducible refine Chip.gated_in (fun _ _ => ?_) ?_
    | with_reducible refine Chip.writePower_in ?_ (by decide +kernel)
    | with_reducible refine Within.ite ?_ ?_
    | split
    | dsimp only

/-- What `execPwrDirectActive` may change. -/
def execPwrDirectActive_fx : Fx := .union [Chip.writePower_fx, .of [.access] []]
theorem execPwrDirectActive_after  (s : State) : AfterOut execPwrDirectActive_fx s (execPwrDirectActive s) := by
  unfold execPwrDirectActive
  refine State.runWr_after (by decide +kernel) fun c => ?_
  try dsimp only
  repeat' first
    | with_reducible assumption
    | with_reducible exact .refl _ _
    | with_reducible refine Chip.gated_in (fun _ _ => ?_) ?_
    | with_reducible refine Chip.writePower_in ?_ (by decide +kernel)
    | with_reducible refine Within.ite ?_ ?_
    | split
    | dsimp only

/-- What `execPwrDirectStandby` may change. -/
def execPwrDirectStandby_fx : Fx := .union [Chip.writePower_fx, .of [.access] []]
theorem execPwrDirectStandby_after  (s : State) : AfterOut execPwrDirectStandby_fx s (execPwrDirectStandby s) := by
  unfold execPwrDirectStandby
  refine State.runWr_after (by decide +kernel) fun c => ?_
  try dsimp only
  repeat' first
    | with_reducible assumption
    | with_reducible exact .refl _ _
    | with_reducible refine Chip.gated_in (fun _ _ => ?_) ?_
    | with_reducible refine Chip.writePower_in ?_ (by decide +kernel)
    | with_reducible refine Within.ite ?_ ?_
    | split
    | dsimp only

/-- What `execPwrDirectOff` may change. -/
def execPwrDirectOff_fx : Fx := .union [Chip.writePower_fx, .of [.access] []]
theorem execPwrDirectOff_after  (s : State) : AfterOut execPwrDirectOff_fx s (execPwrDirectOff s) := by
  unfold execPwrDirectOff
  refine State.runWr_after (by decide +kernel) fun c => ?_
  try dsimp only
  repeat' first
    | with_reducible assumption
    | with_reducible exact .refl _ _
    | with_reducible refine Chip.gated_in (fun _ _ => ?_) ?_
    | with_reducible refine Chip.writePower_in ?_ (by decide +kernel)
    | with_reducible refine Within.ite ?_ ?_
    | split
    | dsimp only

/-- What `execTileRequestRun` may change. -/
def execTileRequestRun_fx : Fx := .union [Chip.writeTile_fx, .of [.access] []]
theorem execTileRequestRun_after (t : TileNo) (s : State) : AfterOut execTileRequestRun_fx s (execTileRequestRun t s) := by
  unfold execTileRequestRun
  refine State.runWr_after (by decide +kernel) fun c => ?_
  try dsimp only
  repeat' first
    | with_reducible assumption
    | with_reducible exact .refl _ _
    | with_reducible refine Chip.gated_in (fun _ _ => ?_) ?_
    | with_reducible refine Chip.writeTile_in ?_ (by decide +kernel)
    | with_reducible refine Within.ite ?_ ?_
    | split
    | dsimp only

/-- What `execTileRequestSleep` may change. -/
def execTileRequestSleep_fx : Fx := .union [Chip.writeTile_fx, .of [.access] []]
theorem execTileRequestSleep_after (t : TileNo) (s : State) : AfterOut execTileRequestSleep_fx s (execTileRequestSleep t s) := by
  unfold execTileRequestSleep
  refine State.runWr_after (by decide +kernel) fun c => ?_
  try dsimp only
  repeat' first
    | with_reducible assumption
    | with_reducible exact .refl _ _
    | with_reducible refine Chip.gated_in (fun _ _ => ?_) ?_
    | with_reducible refine Chip.writeTile_in ?_ (by decide +kernel)
    | with_reducible refine Within.ite ?_ ?_
    | split
    | dsimp only

/-- What `execHandshakeAnswer` may change. -/
def execHandshakeAnswer_fx : Fx := Chip.handshakeAnswer_fx
theorem execHandshakeAnswer_after (tile : Option TileNo) (block : Fin 11) (s : State) : AfterOut execHandshakeAnswer_fx s (execHandshakeAnswer tile block s) := by
  unfold execHandshakeAnswer
  refine State.run_after fun c => ?_
  try dsimp only
  repeat' first
    | with_reducible assumption
    | with_reducible exact .refl _ _
    | with_reducible refine Chip.handshakeAnswer_in ?_ (by decide +kernel)
    | with_reducible refine Within.ite ?_ ?_
    | split
    | dsimp only

/-- What `execHandshakeBoundExpire` may change. -/
def execHandshakeBoundExpire_fx : Fx := Chip.handshakeBound_fx
theorem execHandshakeBoundExpire_after (tile : Option TileNo) (block : Fin 11) (s : State) : AfterOut execHandshakeBoundExpire_fx s (execHandshakeBoundExpire tile block s) := by
  unfold execHandshakeBoundExpire
  refine State.run_after fun c => ?_
  try dsimp only
  repeat' first
    | with_reducible assumption
    | with_reducible exact .refl _ _
    | with_reducible refine Chip.handshakeBound_in ?_ (by decide +kernel)
    | with_reducible refine Within.ite ?_ ?_
    | split
    | dsimp only

/-- What `execPowerEntryComplete` may change. -/
def execPowerEntryComplete_fx : Fx := .union [Chip.deviceEntered_fx, Chip.offLeave_fx, Chip.tileEntered_fx]
theorem execPowerEntryComplete_after (entry : EntryDone) (s : State) : AfterOut execPowerEntryComplete_fx s (execPowerEntryComplete entry s) := by
  unfold execPowerEntryComplete
  refine State.run_after fun c => ?_
  try dsimp only
  repeat' first
    | with_reducible assumption
    | with_reducible exact .refl _ _
    | with_reducible refine Chip.deviceEntered_in ?_ (by decide +kernel)
    | with_reducible refine Chip.offLeave_in ?_ (by decide +kernel)
    | with_reducible refine Chip.tileEntered_in ?_ (by decide +kernel)
    | with_reducible refine Within.ite ?_ ?_
    | split
    | dsimp only

/-- What `execWakeSource` may change. -/
def execWakeSource_fx : Fx := .union [Chip.phase_fx, Chip.spiCarry_fx, Chip.wakeFromOff_fx, Chip.wakeSource_fx]
theorem execWakeSource_after (k : WakeKind) (boot : BootInputs) (s : State) : AfterOut execWakeSource_fx s (execWakeSource k boot s) := by
  unfold execWakeSource
  refine State.run_after fun c => ?_
  try dsimp only
  repeat' first
    | with_reducible assumption
    | with_reducible exact .refl _ _
    | with_reducible refine Chip.phase_in ?_ (by decide +kernel)
    | with_reducible refine Chip.spiCarry_in ?_ (by decide +kernel)
    | with_reducible refine Chip.wakeFromOff_in ?_ (by decide +kernel)
    | with_reducible refine Chip.wakeSource_in ?_ (by decide +kernel)
    | with_reducible refine Within.ite ?_ ?_
    | split
    | dsimp only

/-- What `execWakeStepDone` may change. -/
def execWakeStepDone_fx : Fx := .union [Chip.afterWake_fx, Chip.tileStepDone_fx, Chip.wakeStep_fx]
theorem execWakeStepDone_after (tile : Option TileNo) (us : Nat) (kHz : BitVec 32) (s : State) : AfterOut execWakeStepDone_fx s (execWakeStepDone tile us kHz s) := by
  unfold execWakeStepDone
  refine State.run_after fun c => ?_
  try dsimp only
  repeat' first
    | with_reducible assumption
    | with_reducible exact .refl _ _
    | with_reducible refine Chip.afterWake_in ?_ (by decide +kernel)
    | with_reducible refine Chip.tileStepDone_in ?_ (by decide +kernel)
    | with_reducible refine Chip.wakeStep_in ?_ (by decide +kernel)
    | with_reducible refine Within.ite ?_ ?_
    | split
    | dsimp only

/-- What `execWakeStepTimeout` may change. -/
def execWakeStepTimeout_fx : Fx := .union [Chip.afterWake_fx, Chip.deviceStepFail_fx, Chip.tileStepFail_fx]
theorem execWakeStepTimeout_after (tile : Option TileNo) (us : Nat) (s : State) : AfterOut execWakeStepTimeout_fx s (execWakeStepTimeout tile us s) := by
  unfold execWakeStepTimeout
  refine State.run_after fun c => ?_
  try dsimp only
  repeat' first
    | with_reducible assumption
    | with_reducible exact .refl _ _
    | with_reducible refine Chip.afterWake_in ?_ (by decide +kernel)
    | with_reducible refine Chip.deviceStepFail_in ?_ (by decide +kernel)
    | with_reducible refine Chip.tileStepFail_in ?_ (by decide +kernel)
    | with_reducible refine Within.ite ?_ ?_
    | split
    | dsimp only

/-- What `execPlLowerTimer` may change. -/
def execPlLowerTimer_fx : Fx := Chip.levelLower_fx
theorem execPlLowerTimer_after (t : TileNo) (s : State) : AfterOut execPlLowerTimer_fx s (execPlLowerTimer t s) := by
  unfold execPlLowerTimer
  refine State.run_after fun c => ?_
  try dsimp only
  repeat' first
    | with_reducible assumption
    | with_reducible exact .refl _ _
    | with_reducible refine Chip.levelLower_in ?_ (by decide +kernel)
    | with_reducible refine Within.ite ?_ ?_
    | split
    | dsimp only

/-- What `execPlChangeComplete` may change. -/
def execPlChangeComplete_fx : Fx := Chip.levelDone_fx
theorem execPlChangeComplete_after (t : TileNo) (s : State) : AfterOut execPlChangeComplete_fx s (execPlChangeComplete t s) := by
  unfold execPlChangeComplete
  refine State.run_after fun c => ?_
  try dsimp only
  repeat' first
    | with_reducible assumption
    | with_reducible exact .refl _ _
    | with_reducible refine Chip.levelDone_in ?_ (by decide +kernel)
    | with_reducible refine Within.ite ?_ ?_
    | split
    | dsimp only

/-- What `execTilePlWrite` may change. -/
def execTilePlWrite_fx : Fx := .union [Chip.writeTilePl_fx, .of [.access] []]
theorem execTilePlWrite_after (t : TileNo) (set : Bool) (v : BitVec 8) (s : State) : AfterOut execTilePlWrite_fx s (execTilePlWrite t set v s) := by
  unfold execTilePlWrite
  refine State.runWr_after (by decide +kernel) fun c => ?_
  try dsimp only
  repeat' first
    | with_reducible assumption
    | with_reducible exact .refl _ _
    | with_reducible refine Chip.gated_in (fun _ _ => ?_) ?_
    | with_reducible refine Chip.writeTilePl_in ?_ (by decide +kernel)
    | with_reducible refine Within.ite ?_ ?_
    | split
    | dsimp only

/-- What `execLegacyGateWrite` may change. -/
def execLegacyGateWrite_fx : Fx := .union [Chip.writeLegacyGate_fx, .of [.access] []]
theorem execLegacyGateWrite_after (v : BitVec 32) (s : State) : AfterOut execLegacyGateWrite_fx s (execLegacyGateWrite v s) := by
  unfold execLegacyGateWrite
  refine State.runWr_after (by decide +kernel) fun c => ?_
  try dsimp only
  repeat' first
    | with_reducible assumption
    | with_reducible exact .refl _ _
    | with_reducible refine Chip.gated_in (fun _ _ => ?_) ?_
    | with_reducible refine Chip.writeLegacyGate_in ?_ (by decide +kernel)
    | with_reducible refine Within.ite ?_ ?_
    | split
    | dsimp only

/-- What `execClkswForce` may change. -/
def execClkswForce_fx : Fx := Chip.switchForced_fx
theorem execClkswForce_after (d : Fin 60) (s : State) : AfterOut execClkswForce_fx s (execClkswForce d s) := by
  unfold execClkswForce
  refine State.run_after fun c => ?_
  try dsimp only
  repeat' first
    | with_reducible assumption
    | with_reducible exact .refl _ _
    | with_reducible refine Chip.switchForced_in ?_ (by decide +kernel)
    | with_reducible refine Within.ite ?_ ?_
    | split
    | dsimp only

/-- What `execRegulatorFailureInService` may change. -/
def execRegulatorFailureInService_fx : Fx := Chip.regFailed_fx
theorem execRegulatorFailureInService_after (t : TileNo) (s : State) : AfterOut execRegulatorFailureInService_fx s (execRegulatorFailureInService t s) := by
  unfold execRegulatorFailureInService
  refine State.run_after fun c => ?_
  try dsimp only
  repeat' first
    | with_reducible assumption
    | with_reducible exact .refl _ _
    | with_reducible refine Chip.regFailed_in ?_ (by decide +kernel)
    | with_reducible refine Within.ite ?_ ?_
    | split
    | dsimp only

/-- What `execRootPllLockLoss` may change. -/
def execRootPllLockLoss_fx : Fx := Chip.rootLost_fx
theorem execRootPllLockLoss_after (reference : Bool) (s : State) : AfterOut execRootPllLockLoss_fx s (execRootPllLockLoss reference s) := by
  unfold execRootPllLockLoss
  refine State.run_after fun c => ?_
  try dsimp only
  repeat' first
    | with_reducible assumption
    | with_reducible exact .refl _ _
    | with_reducible refine Chip.rootLost_in ?_ (by decide +kernel)
    | with_reducible refine Within.ite ?_ ?_
    | split
    | dsimp only

/-- What `execThermSensorSample` may change. -/
def execThermSensorSample_fx : Fx := Chip.thermSample_fx
theorem execThermSensorSample_after (t : TileNo) (temp : BitVec 16) (lid : BitVec 16) (coreMv : BitVec 16) (mw : BitVec 32) (s : State) : AfterOut execThermSensorSample_fx s (execThermSensorSample t temp lid coreMv mw s) := by
  unfold execThermSensorSample
  refine State.run_after fun c => ?_
  try dsimp only
  repeat' first
    | with_reducible assumption
    | with_reducible exact .refl _ _
    | with_reducible refine Chip.thermSample_in ?_ (by decide +kernel)
    | with_reducible refine Within.ite ?_ ?_
    | split
    | dsimp only

/-- What `execThermTrip` may change. -/
def execThermTrip_fx : Fx := Chip.thermTripped_fx
theorem execThermTrip_after (t : TileNo) (s : State) : AfterOut execThermTrip_fx s (execThermTrip t s) := by
  unfold execThermTrip
  refine State.run_after fun c => ?_
  try dsimp only
  repeat' first
    | with_reducible assumption
    | with_reducible exact .refl _ _
    | with_reducible refine Chip.thermTripped_in ?_ (by decide +kernel)
    | with_reducible refine Within.ite ?_ ?_
    | split
    | dsimp only

/-- What `execVinMonitor` may change. -/
def execVinMonitor_fx : Fx := Chip.vinMonitor_fx
theorem execVinMonitor_after (mv : BitVec 16) (ma : BitVec 32) (mw : BitVec 32) (s : State) : AfterOut execVinMonitor_fx s (execVinMonitor mv ma mw s) := by
  unfold execVinMonitor
  refine State.run_after fun c => ?_
  try dsimp only
  repeat' first
    | with_reducible assumption
    | with_reducible exact .refl _ _
    | with_reducible refine Chip.vinMonitor_in ?_ (by decide +kernel)
    | with_reducible refine Within.ite ?_ ?_
    | split
    | dsimp only

end Sys2Proof.Machine
end

