-- ==== Sys2Proof/Laws/FrameExecSchedEvents.lean ====
section
/-!
SUPPORT. Frames of the commands of `Machine/SchedEvents.lean`: which parts and objects each may change.
-/
set_option Elab.async false
namespace Sys2Proof.Machine

/-- What `execStartDecision` may change. -/
def execStartDecision_fx : Fx := .union [Chip.choose_fx, Chip.judgeHeads_fx, Chip.passed_fx, Chip.startChosen_fx, .of [.sched] []]
theorem execStartDecision_after (p : PortNo) (pos : Nat) (ready : Bool) (s : State) : AfterOut execStartDecision_fx s (execStartDecision p pos ready s) := by
  unfold execStartDecision
  refine State.run_after fun c => ?_
  try dsimp only
  repeat' first
    | with_reducible assumption
    | with_reducible exact .refl _ _
    | with_reducible refine Chip.choose_in ?_ (by decide +kernel)
    | with_reducible refine Chip.judgeHeads_in ?_ (by decide +kernel)
    | with_reducible refine Chip.passed_in ?_ (by decide +kernel)
    | with_reducible refine Chip.startChosen_in ?_ (by decide +kernel)
    | with_reducible refine Within.setSch ?_ (by decide +kernel)
    | with_reducible refine Within.ite ?_ ?_
    | split
    | dsimp only

/-- What `execExpressDecision` may change. -/
def execExpressDecision_fx : Fx := .union [Chip.choose_fx, Chip.cutLive_fx, Chip.passed_fx, Chip.readLate_fx, Chip.start_fx, Chip.startChosen_fx, .of [.sched] []]
theorem execExpressDecision_after (p : PortNo) (pos : Nat) (ready : Bool) (s : State) : AfterOut execExpressDecision_fx s (execExpressDecision p pos ready s) := by
  unfold execExpressDecision
  refine State.run_after fun c => ?_
  try dsimp only
  repeat' first
    | with_reducible assumption
    | with_reducible exact .refl _ _
    | with_reducible refine Chip.choose_in ?_ (by decide +kernel)
    | with_reducible refine Chip.cutLive_in ?_ (by decide +kernel)
    | with_reducible refine Chip.passed_in ?_ (by decide +kernel)
    | with_reducible refine Chip.readLate_in ?_ (by decide +kernel)
    | with_reducible refine Chip.start_in ?_ (by decide +kernel)
    | with_reducible refine Chip.startChosen_in ?_ (by decide +kernel)
    | with_reducible refine Within.setSch ?_ (by decide +kernel)
    | with_reducible refine Within.ite ?_ ?_
    | split
    | dsimp only

/-- What `execLaunchReadComplete` may change. -/
def execLaunchReadComplete_fx : Fx := .union [Chip.corrected_fx, Chip.dropQueued_fx, Chip.endBegun_fx, Chip.qCount_fx, Chip.retire_fx, .of [.ev, .queues] [.QC_UE_COUNT]]
theorem execLaunchReadComplete_after (p : PortNo) (frame : Nat) (r : ReadResult) (s : State) : AfterOut execLaunchReadComplete_fx s (execLaunchReadComplete p frame r s) := by
  unfold execLaunchReadComplete
  refine State.run_after fun c => ?_
  try dsimp only
  repeat' first
    | with_reducible assumption
    | with_reducible exact .refl _ _
    | with_reducible refine Chip.corrected_in ?_ (by decide +kernel)
    | with_reducible refine Chip.dropQueued_in ?_ (by decide +kernel)
    | with_reducible refine Chip.endBegun_in ?_ (by decide +kernel)
    | with_reducible refine Chip.qCount_in ?_ (by decide +kernel)
    | with_reducible refine Chip.retire_in ?_ (by decide +kernel)
    | with_reducible refine Within.inc ?_ (by decide +kernel)
    | with_reducible refine Within.setQueue ?_ (by decide +kernel)
    | with_reducible refine Within.raise ?_ (by decide +kernel)
    | with_reducible refine Within.ite ?_ ?_
    | split
    | dsimp only

/-- What `execFrameEndOnWire` may change. -/
def execFrameEndOnWire_fx : Fx := .union [Chip.fragEnd_fx, Chip.lpiReplan_fx]
theorem execFrameEndOnWire_after (p : PortNo) (s : State) : AfterOut execFrameEndOnWire_fx s (execFrameEndOnWire p s) := by
  unfold execFrameEndOnWire
  refine State.run_after fun c => ?_
  try dsimp only
  repeat' first
    | with_reducible assumption
    | with_reducible exact .refl _ _
    | with_reducible refine Chip.fragEnd_in ?_ (by decide +kernel)
    | with_reducible refine Chip.lpiReplan_in ?_ (by decide +kernel)
    | with_reducible refine Within.ite ?_ ?_
    | split
    | dsimp only

/-- What `execQueueHeadJudge` may change. -/
def execQueueHeadJudge_fx : Fx := .union [Chip.judgeHeads_fx, Chip.lpiReplan_fx]
theorem execQueueHeadJudge_after (p : PortNo) (s : State) : AfterOut execQueueHeadJudge_fx s (execQueueHeadJudge p s) := by
  unfold execQueueHeadJudge
  refine State.run_after fun c => ?_
  try dsimp only
  repeat' first
    | with_reducible assumption
    | with_reducible exact .refl _ _
    | with_reducible refine Chip.judgeHeads_in ?_ (by decide +kernel)
    | with_reducible refine Chip.lpiReplan_in ?_ (by decide +kernel)
    | with_reducible refine Within.ite ?_ ?_
    | split
    | dsimp only

/-- What `execGateEdge` may change. -/
def execGateEdge_fx : Fx := .of [.sched] []
theorem execGateEdge_after (p : PortNo) (s : State) : AfterOut execGateEdge_fx s (execGateEdge p s) := by
  unfold execGateEdge
  refine State.run_after fun c => ?_
  try dsimp only
  repeat' first
    | with_reducible assumption
    | with_reducible exact .refl _ _
    | with_reducible refine Within.setSch ?_ (by decide +kernel)
    | with_reducible refine Within.ite ?_ ?_
    | split
    | dsimp only

/-- What `execGateSwapExecute` may change. -/
def execGateSwapExecute_fx : Fx := Chip.swapDue_fx
theorem execGateSwapExecute_after (p : PortNo) (s : State) : AfterOut execGateSwapExecute_fx s (execGateSwapExecute p s) := by
  unfold execGateSwapExecute
  refine State.run_after fun c => ?_
  try dsimp only
  repeat' first
    | with_reducible assumption
    | with_reducible exact .refl _ _
    | with_reducible refine Chip.swapDue_in ?_ (by decide +kernel)
    | with_reducible refine Within.ite ?_ ?_
    | split
    | dsimp only

/-- What `execQBlocksWrite` may change. -/
def execQBlocksWrite_fx : Fx := .union [Chip.writeQBlocks_fx, .of [.access] []]
theorem execQBlocksWrite_after (p : PortNo) (row : Nat) (v : BitVec 16) (s : State) : AfterOut execQBlocksWrite_fx s (execQBlocksWrite p row v s) := by
  unfold execQBlocksWrite
  refine State.runWr_after (by decide +kernel) fun c => ?_
  try dsimp only
  repeat' first
    | with_reducible assumption
    | with_reducible exact .refl _ _
    | with_reducible refine Chip.gatedRow_in (fun _ _ => ?_) ?_
    | with_reducible refine Chip.writeQBlocks_in ?_ (by decide +kernel)
    | with_reducible refine Within.ite ?_ ?_
    | split
    | dsimp only

/-- What `execQDefaultWrite` may change. -/
def execQDefaultWrite_fx : Fx := .union [Chip.writeQDefault_fx, .of [.access] []]
theorem execQDefaultWrite_after (p : PortNo) (v : BitVec 16) (s : State) : AfterOut execQDefaultWrite_fx s (execQDefaultWrite p v s) := by
  unfold execQDefaultWrite
  refine State.runWr_after (by decide +kernel) fun c => ?_
  try dsimp only
  repeat' first
    | with_reducible assumption
    | with_reducible exact .refl _ _
    | with_reducible refine Chip.gated_in (fun _ _ => ?_) ?_
    | with_reducible refine Chip.writeQDefault_in ?_ (by decide +kernel)
    | with_reducible refine Within.ite ?_ ?_
    | split
    | dsimp only

/-- What `execQFlush` may change. -/
def execQFlush_fx : Fx := .union [Chip.writeQFlush_fx, .of [.access] []]
theorem execQFlush_after (p : PortNo) (v : BitVec 8) (s : State) : AfterOut execQFlush_fx s (execQFlush p v s) := by
  unfold execQFlush
  refine State.runWr_after (by decide +kernel) fun c => ?_
  try dsimp only
  repeat' first
    | with_reducible assumption
    | with_reducible exact .refl _ _
    | with_reducible refine Chip.gated_in (fun _ _ => ?_) ?_
    | with_reducible refine Chip.writeQFlush_in ?_ (by decide +kernel)
    | with_reducible refine Within.ite ?_ ?_
    | split
    | dsimp only

/-- What `execQConfigWrite` may change. -/
def execQConfigWrite_fx : Fx := .union [Chip.writeQConfig_fx, .of [.access] []]
theorem execQConfigWrite_after (p : PortNo) (row : Nat) (v : BitVec 128) (s : State) : AfterOut execQConfigWrite_fx s (execQConfigWrite p row v s) := by
  unfold execQConfigWrite
  refine State.runWr_after (by decide +kernel) fun c => ?_
  try dsimp only
  repeat' first
    | with_reducible assumption
    | with_reducible exact .refl _ _
    | with_reducible refine Chip.gatedRow_in (fun _ _ => ?_) ?_
    | with_reducible refine Chip.writeQConfig_in ?_ (by decide +kernel)
    | with_reducible refine Within.ite ?_ ?_
    | split
    | dsimp only

/-- What `execShaperWrite` may change. -/
def execShaperWrite_fx : Fx := .union [Chip.writeShaperRow_fx, .of [.access] []]
theorem execShaperWrite_after (x : ShaperSel) (v : BitVec 64) (s : State) : AfterOut execShaperWrite_fx s (execShaperWrite x v s) := by
  unfold execShaperWrite
  refine State.runWr_after (by decide +kernel) fun c => ?_
  try dsimp only
  repeat' first
    | with_reducible assumption
    | with_reducible exact .refl _ _
    | with_reducible refine Chip.gated_in (fun _ _ => ?_) ?_
    | with_reducible refine Chip.writeShaperRow_in ?_ (by decide +kernel)
    | with_reducible refine Within.ite ?_ ?_
    | split
    | dsimp only

/-- What `execShaperDebtEnd` may change. -/
def execShaperDebtEnd_fx : Fx := Chip.debtEnd_fx
theorem execShaperDebtEnd_after (x : ShaperSel) (s : State) : AfterOut execShaperDebtEnd_fx s (execShaperDebtEnd x s) := by
  unfold execShaperDebtEnd
  refine State.run_after fun c => ?_
  try dsimp only
  repeat' first
    | with_reducible assumption
    | with_reducible exact .refl _ _
    | with_reducible refine Chip.debtEnd_in ?_ (by decide +kernel)
    | with_reducible refine Within.ite ?_ ?_
    | split
    | dsimp only

/-- What `execGateEnableTrue` may change. -/
def execGateEnableTrue_fx : Fx := .union [Chip.writeGateEnable_fx, .of [.access] []]
theorem execGateEnableTrue_after (p : PortNo) (s : State) : AfterOut execGateEnableTrue_fx s (execGateEnableTrue p s) := by
  unfold execGateEnableTrue
  refine State.runWr_after (by decide +kernel) fun c => ?_
  try dsimp only
  repeat' first
    | with_reducible assumption
    | with_reducible exact .refl _ _
    | with_reducible refine Chip.gated_in (fun _ _ => ?_) ?_
    | with_reducible refine Chip.writeGateEnable_in ?_ (by decide +kernel)
    | with_reducible refine Within.ite ?_ ?_
    | split
    | dsimp only

/-- What `execGateEnableFalse` may change. -/
def execGateEnableFalse_fx : Fx := .union [Chip.writeGateEnable_fx, .of [.access] []]
theorem execGateEnableFalse_after (p : PortNo) (s : State) : AfterOut execGateEnableFalse_fx s (execGateEnableFalse p s) := by
  unfold execGateEnableFalse
  refine State.runWr_after (by decide +kernel) fun c => ?_
  try dsimp only
  repeat' first
    | with_reducible assumption
    | with_reducible exact .refl _ _
    | with_reducible refine Chip.gated_in (fun _ _ => ?_) ?_
    | with_reducible refine Chip.writeGateEnable_in ?_ (by decide +kernel)
    | with_reducible refine Within.ite ?_ ?_
    | split
    | dsimp only

/-- What `execGateSwapRequest` may change. -/
def execGateSwapRequest_fx : Fx := .union [Chip.writeGateSwap_fx, .of [.access] []]
theorem execGateSwapRequest_after (p : PortNo) (v : BitVec 8) (s : State) : AfterOut execGateSwapRequest_fx s (execGateSwapRequest p v s) := by
  unfold execGateSwapRequest
  refine State.runWr_after (by decide +kernel) fun c => ?_
  try dsimp only
  repeat' first
    | with_reducible assumption
    | with_reducible exact .refl _ _
    | with_reducible refine Chip.gated_in (fun _ _ => ?_) ?_
    | with_reducible refine Chip.writeGateSwap_in ?_ (by decide +kernel)
    | with_reducible refine Within.ite ?_ ?_
    | split
    | dsimp only

/-- What `execGateSwapCancel` may change. -/
def execGateSwapCancel_fx : Fx := .union [Chip.writeGateSwap_fx, .of [.access] []]
theorem execGateSwapCancel_after (p : PortNo) (s : State) : AfterOut execGateSwapCancel_fx s (execGateSwapCancel p s) := by
  unfold execGateSwapCancel
  refine State.runWr_after (by decide +kernel) fun c => ?_
  try dsimp only
  repeat' first
    | with_reducible assumption
    | with_reducible exact .refl _ _
    | with_reducible refine Chip.gated_in (fun _ _ => ?_) ?_
    | with_reducible refine Chip.writeGateSwap_in ?_ (by decide +kernel)
    | with_reducible refine Within.ite ?_ ?_
    | split
    | dsimp only

/-- What `execMmEnableTrue` may change. -/
def execMmEnableTrue_fx : Fx := .union [Chip.writeMmEnable_fx, .of [.access] []]
theorem execMmEnableTrue_after (p : PortNo) (s : State) : AfterOut execMmEnableTrue_fx s (execMmEnableTrue p s) := by
  unfold execMmEnableTrue
  refine State.runWr_after (by decide +kernel) fun c => ?_
  try dsimp only
  repeat' first
    | with_reducible assumption
    | with_reducible exact .refl _ _
    | with_reducible refine Chip.gated_in (fun _ _ => ?_) ?_
    | with_reducible refine Chip.writeMmEnable_in ?_ (by decide +kernel)
    | with_reducible refine Within.ite ?_ ?_
    | split
    | dsimp only

/-- What `execMmEnableFalse` may change. -/
def execMmEnableFalse_fx : Fx := .union [Chip.writeMmEnable_fx, .of [.access] []]
theorem execMmEnableFalse_after (p : PortNo) (s : State) : AfterOut execMmEnableFalse_fx s (execMmEnableFalse p s) := by
  unfold execMmEnableFalse
  refine State.runWr_after (by decide +kernel) fun c => ?_
  try dsimp only
  repeat' first
    | with_reducible assumption
    | with_reducible exact .refl _ _
    | with_reducible refine Chip.gated_in (fun _ _ => ?_) ?_
    | with_reducible refine Chip.writeMmEnable_in ?_ (by decide +kernel)
    | with_reducible refine Within.ite ?_ ?_
    | split
    | dsimp only

/-- What `execMmVerifyTimer` may change. -/
def execMmVerifyTimer_fx : Fx := .of [.ev, .sched] [.MM_STATUS]
theorem execMmVerifyTimer_after (p : PortNo) (s : State) : AfterOut execMmVerifyTimer_fx s (execMmVerifyTimer p s) := by
  unfold execMmVerifyTimer
  refine State.run_after fun c => ?_
  try dsimp only
  repeat' first
    | with_reducible assumption
    | with_reducible exact .refl _ _
    | with_reducible refine Within.wr ?_ (by decide +kernel)
    | with_reducible refine Within.setSch ?_ (by decide +kernel)
    | with_reducible refine Within.raise ?_ (by decide +kernel)
    | with_reducible refine Within.ite ?_ ?_
    | split
    | dsimp only

/-- What `execMmVerifyReceived` may change. -/
def execMmVerifyReceived_fx : Fx := .union [Chip.lpiReplan_fx, .of [.sched] [.MM_STATUS]]
theorem execMmVerifyReceived_after (p : PortNo) (respond : Bool) (s : State) : AfterOut execMmVerifyReceived_fx s (execMmVerifyReceived p respond s) := by
  unfold execMmVerifyReceived
  refine State.run_after fun c => ?_
  try dsimp only
  repeat' first
    | with_reducible assumption
    | with_reducible exact .refl _ _
    | with_reducible refine Chip.lpiReplan_in ?_ (by decide +kernel)
    | with_reducible refine Within.wr ?_ (by decide +kernel)
    | with_reducible refine Within.setSch ?_ (by decide +kernel)
    | with_reducible refine Within.ite ?_ ?_
    | split
    | dsimp only

/-- What `execMtrConfigWrite` may change. -/
def execMtrConfigWrite_fx : Fx := .union [Chip.writeMeter_fx, .of [.access] []]
theorem execMtrConfigWrite_after (row : Nat) (v : BitVec 128) (s : State) : AfterOut execMtrConfigWrite_fx s (execMtrConfigWrite row v s) := by
  unfold execMtrConfigWrite
  refine State.runWr_after (by decide +kernel) fun c => ?_
  try dsimp only
  repeat' first
    | with_reducible assumption
    | with_reducible exact .refl _ _
    | with_reducible refine Chip.gatedRow_in (fun _ _ => ?_) ?_
    | with_reducible refine Chip.writeMeter_in ?_ (by decide +kernel)
    | with_reducible refine Within.ite ?_ ?_
    | split
    | dsimp only

/-- What `execRxMeterRangeWrite` may change. -/
def execRxMeterRangeWrite_fx : Fx := .union [Chip.writeMeterRange_fx, .of [.access] []]
theorem execRxMeterRangeWrite_after (p : PortNo) (count : Bool) (v : BitVec 16) (s : State) : AfterOut execRxMeterRangeWrite_fx s (execRxMeterRangeWrite p count v s) := by
  unfold execRxMeterRangeWrite
  refine State.runWr_after (by decide +kernel) fun c => ?_
  try dsimp only
  repeat' first
    | with_reducible assumption
    | with_reducible exact .refl _ _
    | with_reducible refine Chip.gated_in (fun _ _ => ?_) ?_
    | with_reducible refine Chip.writeMeterRange_in ?_ (by decide +kernel)
    | with_reducible refine Within.ite ?_ ?_
    | split
    | dsimp only

end Sys2Proof.Machine
end

