-- ==== Sys2Proof/Laws/FrameExecTimeEvents.lean ====
section
/-!
SUPPORT. Frames of the commands of `Machine/TimeEvents.lean`: which parts and objects each may change.
-/
set_option Elab.async false
namespace Sys2Proof.Machine

/-- What `execTimeSet` may change. -/
def execTimeSet_fx : Fx := .union [Chip.writeTimeSet_fx, .of [.access] []]
theorem execTimeSet_after (v : BitVec 96) (s : State) : AfterOut execTimeSet_fx s (execTimeSet v s) := by
  unfold execTimeSet
  refine State.runWr_after (by decide +kernel) fun c => ?_
  try dsimp only
  repeat' first
    | with_reducible assumption
    | with_reducible exact .refl _ _
    | with_reducible refine Chip.gated_in (fun _ _ => ?_) ?_
    | with_reducible refine Chip.writeTimeSet_in ?_ (by decide +kernel)
    | with_reducible refine Within.ite ?_ ?_
    | split
    | dsimp only

/-- What `execTimeStep` may change. -/
def execTimeStep_fx : Fx := .union [Chip.writeTimeStep_fx, .of [.access] []]
theorem execTimeStep_after (v : BitVec 64) (s : State) : AfterOut execTimeStep_fx s (execTimeStep v s) := by
  unfold execTimeStep
  refine State.runWr_after (by decide +kernel) fun c => ?_
  try dsimp only
  repeat' first
    | with_reducible assumption
    | with_reducible exact .refl _ _
    | with_reducible refine Chip.gated_in (fun _ _ => ?_) ?_
    | with_reducible refine Chip.writeTimeStep_in ?_ (by decide +kernel)
    | with_reducible refine Within.ite ?_ ?_
    | split
    | dsimp only

/-- What `execTimeSnapshot` may change. -/
def execTimeSnapshot_fx : Fx := .union [Chip.writeTimeSnapshot_fx, .of [.access] []]
theorem execTimeSnapshot_after (v : BitVec 8) (s : State) : AfterOut execTimeSnapshot_fx s (execTimeSnapshot v s) := by
  unfold execTimeSnapshot
  refine State.runWr_after (by decide +kernel) fun c => ?_
  try dsimp only
  repeat' first
    | with_reducible assumption
    | with_reducible exact .refl _ _
    | with_reducible refine Chip.gated_in (fun _ _ => ?_) ?_
    | with_reducible refine Chip.writeTimeSnapshot_in ?_ (by decide +kernel)
    | with_reducible refine Within.ite ?_ ?_
    | split
    | dsimp only

/-- What `execTimeServoInput` may change. -/
def execTimeServoInput_fx : Fx := .union [Chip.writeServoInput_fx, .of [.access] []]
theorem execTimeServoInput_after (v : BitVec 64) (s : State) : AfterOut execTimeServoInput_fx s (execTimeServoInput v s) := by
  unfold execTimeServoInput
  refine State.runWr_after (by decide +kernel) fun c => ?_
  try dsimp only
  repeat' first
    | with_reducible assumption
    | with_reducible exact .refl _ _
    | with_reducible refine Chip.gated_in (fun _ _ => ?_) ?_
    | with_reducible refine Chip.writeServoInput_in ?_ (by decide +kernel)
    | with_reducible refine Within.ite ?_ ?_
    | split
    | dsimp only

/-- What `execTimeValidWrite` may change. -/
def execTimeValidWrite_fx : Fx := .union [Chip.writeTimeValid_fx, .of [.access] []]
theorem execTimeValidWrite_after (v : BitVec 8) (s : State) : AfterOut execTimeValidWrite_fx s (execTimeValidWrite v s) := by
  unfold execTimeValidWrite
  refine State.runWr_after (by decide +kernel) fun c => ?_
  try dsimp only
  repeat' first
    | with_reducible assumption
    | with_reducible exact .refl _ _
    | with_reducible refine Chip.gated_in (fun _ _ => ?_) ?_
    | with_reducible refine Chip.writeTimeValid_in ?_ (by decide +kernel)
    | with_reducible refine Within.ite ?_ ?_
    | split
    | dsimp only

/-- What `execTimeSourceWrite` may change. -/
def execTimeSourceWrite_fx : Fx := .union [Chip.writeTimeSource_fx, .of [.access] []]
theorem execTimeSourceWrite_after (mode : Bool) (v : BitVec 8) (s : State) : AfterOut execTimeSourceWrite_fx s (execTimeSourceWrite mode v s) := by
  unfold execTimeSourceWrite
  refine State.runWr_after (by decide +kernel) fun c => ?_
  try dsimp only
  repeat' first
    | with_reducible assumption
    | with_reducible exact .refl _ _
    | with_reducible refine Chip.gated_in (fun _ _ => ?_) ?_
    | with_reducible refine Chip.writeTimeSource_in ?_ (by decide +kernel)
    | with_reducible refine Within.ite ?_ ?_
    | split
    | dsimp only

/-- What `execServoInputTimeout` may change. -/
def execServoInputTimeout_fx : Fx := Chip.servoTimeout_fx
theorem execServoInputTimeout_after  (s : State) : AfterOut execServoInputTimeout_fx s (execServoInputTimeout s) := by
  unfold execServoInputTimeout
  refine State.run_after fun c => ?_
  try dsimp only
  repeat' first
    | with_reducible assumption
    | with_reducible exact .refl _ _
    | with_reducible refine Chip.servoTimeout_in ?_ (by decide +kernel)
    | with_reducible refine Within.ite ?_ ?_
    | split
    | dsimp only

/-- What `execHoldoverValidExpire` may change. -/
def execHoldoverValidExpire_fx : Fx := Chip.setValid_fx
theorem execHoldoverValidExpire_after  (s : State) : AfterOut execHoldoverValidExpire_fx s (execHoldoverValidExpire s) := by
  unfold execHoldoverValidExpire
  refine State.run_after fun c => ?_
  try dsimp only
  repeat' first
    | with_reducible assumption
    | with_reducible exact .refl _ _
    | with_reducible refine Chip.setValid_in ?_ (by decide +kernel)
    | with_reducible refine Within.ite ?_ ?_
    | split
    | dsimp only

/-- What `execRootDisciplineWrite` may change. -/
def execRootDisciplineWrite_fx : Fx := .union [Chip.writeDiscipline_fx, .of [.access] []]
theorem execRootDisciplineWrite_after (v : BitVec 8) (s : State) : AfterOut execRootDisciplineWrite_fx s (execRootDisciplineWrite v s) := by
  unfold execRootDisciplineWrite
  refine State.runWr_after (by decide +kernel) fun c => ?_
  try dsimp only
  repeat' first
    | with_reducible assumption
    | with_reducible exact .refl _ _
    | with_reducible refine Chip.gated_in (fun _ _ => ?_) ?_
    | with_reducible refine Chip.writeDiscipline_in ?_ (by decide +kernel)
    | with_reducible refine Within.ite ?_ ?_
    | split
    | dsimp only

/-- What `execTrimResume` may change. -/
def execTrimResume_fx : Fx := Chip.trimBack_fx
theorem execTrimResume_after  (s : State) : AfterOut execTrimResume_fx s (execTrimResume s) := by
  unfold execTrimResume
  refine State.run_after fun c => ?_
  try dsimp only
  repeat' first
    | with_reducible assumption
    | with_reducible exact .refl _ _
    | with_reducible refine Chip.trimBack_in ?_ (by decide +kernel)
    | with_reducible refine Within.ite ?_ ?_
    | split
    | dsimp only

/-- What `execRefInLost` may change. -/
def execRefInLost_fx : Fx := Chip.refLost_fx
theorem execRefInLost_after  (s : State) : AfterOut execRefInLost_fx s (execRefInLost s) := by
  unfold execRefInLost
  refine State.run_after fun c => ?_
  try dsimp only
  repeat' first
    | with_reducible assumption
    | with_reducible exact .refl _ _
    | with_reducible refine Chip.refLost_in ?_ (by decide +kernel)
    | with_reducible refine Within.ite ?_ ?_
    | split
    | dsimp only

/-- What `execRefInPresent` may change. -/
def execRefInPresent_fx : Fx := Chip.refPresent_fx
theorem execRefInPresent_after  (s : State) : AfterOut execRefInPresent_fx s (execRefInPresent s) := by
  unfold execRefInPresent
  refine State.run_after fun c => ?_
  try dsimp only
  repeat' first
    | with_reducible assumption
    | with_reducible exact .refl _ _
    | with_reducible refine Chip.refPresent_in ?_ (by decide +kernel)
    | with_reducible refine Within.ite ?_ ?_
    | split
    | dsimp only

/-- What `execPpsInEdge` may change. -/
def execPpsInEdge_fx : Fx := Chip.ppsIn_fx
theorem execPpsInEdge_after (edge : PpsEdge) (s : State) : AfterOut execPpsInEdge_fx s (execPpsInEdge edge s) := by
  unfold execPpsInEdge
  refine State.run_after fun c => ?_
  try dsimp only
  repeat' first
    | with_reducible assumption
    | with_reducible exact .refl _ _
    | with_reducible refine Chip.ppsIn_in ?_ (by decide +kernel)
    | with_reducible refine Within.ite ?_ ?_
    | split
    | dsimp only

/-- What `execPpsOutPulse` may change. -/
def execPpsOutPulse_fx : Fx := Chip.ppsBegin_fx
theorem execPpsOutPulse_after  (s : State) : AfterOut execPpsOutPulse_fx s (execPpsOutPulse s) := by
  unfold execPpsOutPulse
  refine State.run_after fun c => ?_
  try dsimp only
  repeat' first
    | with_reducible assumption
    | with_reducible exact .refl _ _
    | with_reducible refine Chip.ppsBegin_in ?_ (by decide +kernel)
    | with_reducible refine Within.ite ?_ ?_
    | split
    | dsimp only

/-- What `execPpsOutEnd` may change. -/
def execPpsOutEnd_fx : Fx := Chip.ppsStop_fx
theorem execPpsOutEnd_after  (s : State) : AfterOut execPpsOutEnd_fx s (execPpsOutEnd s) := by
  unfold execPpsOutEnd
  refine State.run_after fun c => ?_
  try dsimp only
  repeat' first
    | with_reducible assumption
    | with_reducible exact .refl _ _
    | with_reducible refine Chip.ppsStop_in ?_ (by decide +kernel)
    | with_reducible refine Within.ite ?_ ?_
    | split
    | dsimp only

/-- What `execTaPost` may change. -/
def execTaPost_fx : Fx := .union [Chip.writeTa_fx, .of [.access] []]
theorem execTaPost_after (row : Nat) (v : BitVec 320) (path : Path) (src : BitVec 8) (s : State) : AfterOut execTaPost_fx s (execTaPost row v path src s) := by
  unfold execTaPost
  refine State.runWr_after (by decide +kernel) fun c => ?_
  try dsimp only
  repeat' first
    | with_reducible assumption
    | with_reducible exact .refl _ _
    | with_reducible refine Chip.gated_in (fun _ _ => ?_) ?_
    | with_reducible refine Chip.writeTa_in ?_ (by decide +kernel)
    | with_reducible refine Within.ite ?_ ?_
    | split
    | dsimp only

/-- What `execTaNone` may change. -/
def execTaNone_fx : Fx := .union [Chip.writeTa_fx, .of [.access] []]
theorem execTaNone_after (row : Nat) (v : BitVec 320) (s : State) : AfterOut execTaNone_fx s (execTaNone row v s) := by
  unfold execTaNone
  refine State.runWr_after (by decide +kernel) fun c => ?_
  try dsimp only
  repeat' first
    | with_reducible assumption
    | with_reducible exact .refl _ _
    | with_reducible refine Chip.gatedRow_in (fun _ _ => ?_) ?_
    | with_reducible refine Chip.writeTa_in ?_ (by decide +kernel)
    | with_reducible refine Within.ite ?_ ?_
    | split
    | dsimp only

/-- What `execTaWrite` may change. -/
def execTaWrite_fx : Fx := Chip.taRow_fx
theorem execTaWrite_after (row : Fin 256) (s : State) : AfterOut execTaWrite_fx s (execTaWrite row s) := by
  unfold execTaWrite
  refine State.run_after fun c => ?_
  try dsimp only
  repeat' first
    | with_reducible assumption
    | with_reducible exact .refl _ _
    | with_reducible refine Chip.taRow_in ?_ (by decide +kernel)
    | with_reducible refine Within.ite ?_ ?_
    | split
    | dsimp only

/-- What `execTaCommit` may change. -/
def execTaCommit_fx : Fx := Chip.taRow_fx
theorem execTaCommit_after (row : Fin 256) (s : State) : AfterOut execTaCommit_fx s (execTaCommit row s) := by
  unfold execTaCommit
  refine State.run_after fun c => ?_
  try dsimp only
  repeat' first
    | with_reducible assumption
    | with_reducible exact .refl _ _
    | with_reducible refine Chip.taRow_in ?_ (by decide +kernel)
    | with_reducible refine Within.ite ?_ ?_
    | split
    | dsimp only

/-- What `execTaMark` may change. -/
def execTaMark_fx : Fx := Chip.taRow_fx
theorem execTaMark_after (row : Fin 256) (s : State) : AfterOut execTaMark_fx s (execTaMark row s) := by
  unfold execTaMark
  refine State.run_after fun c => ?_
  try dsimp only
  repeat' first
    | with_reducible assumption
    | with_reducible exact .refl _ _
    | with_reducible refine Chip.taRow_in ?_ (by decide +kernel)
    | with_reducible refine Within.ite ?_ ?_
    | split
    | dsimp only

/-- What `execTaCancel` may change. -/
def execTaCancel_fx : Fx := .union [Chip.writeTaCancel_fx, .of [.access] []]
theorem execTaCancel_after (v : BitVec 16) (s : State) : AfterOut execTaCancel_fx s (execTaCancel v s) := by
  unfold execTaCancel
  refine State.runWr_after (by decide +kernel) fun c => ?_
  try dsimp only
  repeat' first
    | with_reducible assumption
    | with_reducible exact .refl _ _
    | with_reducible refine Chip.gated_in (fun _ _ => ?_) ?_
    | with_reducible refine Chip.writeTaCancel_in ?_ (by decide +kernel)
    | with_reducible refine Within.ite ?_ ?_
    | split
    | dsimp only

end Sys2Proof.Machine
end

