-- ==== Sys2Proof/Laws/FrameExecWaleEvents.lean ====
section
/-!
SUPPORT. Frames of the commands of `Machine/WaleEvents.lean`: which parts and objects each may change.
-/
set_option Elab.async false
namespace Sys2Proof.Machine

/-- What `execWlEnableWrite` may change. -/
def execWlEnableWrite_fx : Fx := .union [Chip.writeWlEnable_fx, .of [.access] []]
theorem execWlEnableWrite_after (w : Option WlNo) (v : BitVec 8) (s : State) : AfterOut execWlEnableWrite_fx s (execWlEnableWrite w v s) := by
  unfold execWlEnableWrite
  refine State.runWr_after (by decide +kernel) fun c => ?_
  try dsimp only
  repeat' first
    | with_reducible assumption
    | with_reducible exact .refl _ _
    | with_reducible refine Chip.gated_in (fun _ _ => ?_) ?_
    | with_reducible refine Chip.writeWlEnable_in ?_ (by decide +kernel)
    | with_reducible refine Within.ite ?_ ?_
    | split
    | dsimp only

/-- What `execWlHeaderLock` may change. -/
def execWlHeaderLock_fx : Fx := Chip.headerLock_fx
theorem execWlHeaderLock_after (w : WlNo) (pos : Fin 66) (s : State) : AfterOut execWlHeaderLock_fx s (execWlHeaderLock w pos s) := by
  unfold execWlHeaderLock
  refine State.run_after fun c => ?_
  try dsimp only
  repeat' first
    | with_reducible assumption
    | with_reducible exact .refl _ _
    | with_reducible refine Chip.headerLock_in ?_ (by decide +kernel)
    | with_reducible refine Within.ite ?_ ?_
    | split
    | dsimp only

/-- What `execWlHeaderLockLost` may change. -/
def execWlHeaderLockLost_fx : Fx := Chip.headerLost_fx
theorem execWlHeaderLockLost_after (w : WlNo) (invalid : Nat) (valid : Fin 65) (signal : Bool) (s : State) : AfterOut execWlHeaderLockLost_fx s (execWlHeaderLockLost w invalid valid signal s) := by
  unfold execWlHeaderLockLost
  refine State.run_after fun c => ?_
  try dsimp only
  repeat' first
    | with_reducible assumption
    | with_reducible exact .refl _ _
    | with_reducible refine Chip.headerLost_in ?_ (by decide +kernel)
    | with_reducible refine Within.ite ?_ ?_
    | split
    | dsimp only

/-- What `execWlAligned` may change. -/
def execWlAligned_fx : Fx := .of [] [.WL_STATE, .WL_STATUS]
theorem execWlAligned_after (w : WlNo) (inverted : Bool) (s : State) : AfterOut execWlAligned_fx s (execWlAligned w inverted s) := by
  unfold execWlAligned
  refine State.run_after fun c => ?_
  try dsimp only
  repeat' first
    | with_reducible assumption
    | with_reducible exact .refl _ _
    | with_reducible refine Within.wr ?_ (by decide +kernel)
    | with_reducible refine Within.setBit ?_ (by decide +kernel)
    | with_reducible refine Within.ite ?_ ?_
    | split
    | dsimp only

/-- What `execWlSlip` may change. -/
def execWlSlip_fx : Fx := .union [Chip.writeWlSlip_fx, .of [.access] []]
theorem execWlSlip_after (w : WlNo) (v : BitVec 8) (s : State) : AfterOut execWlSlip_fx s (execWlSlip w v s) := by
  unfold execWlSlip
  refine State.runWr_after (by decide +kernel) fun c => ?_
  try dsimp only
  repeat' first
    | with_reducible assumption
    | with_reducible exact .refl _ _
    | with_reducible refine Chip.gated_in (fun _ _ => ?_) ?_
    | with_reducible refine Chip.writeWlSlip_in ?_ (by decide +kernel)
    | with_reducible refine Within.ite ?_ ?_
    | split
    | dsimp only

/-- What `execWlHelloSend` may change. -/
def execWlHelloSend_fx : Fx := Chip.wlLocal_fx
theorem execWlHelloSend_after (w : WlNo) (s : State) : AfterOut execWlHelloSend_fx s (execWlHelloSend w s) := by
  unfold execWlHelloSend
  refine State.run_after fun c => ?_
  try dsimp only
  repeat' first
    | with_reducible assumption
    | with_reducible exact .refl _ _
    | with_reducible refine Chip.wlLocal_in ?_ (by decide +kernel)
    | with_reducible refine Within.ite ?_ ?_
    | split
    | dsimp only

/-- What `execHello` may change. -/
def execHello_fx : Fx := Chip.helloTake_fx
theorem execHello_after (w : WlNo) (payload : BitVec 256) (s : State) : AfterOut execHello_fx s (execHello w payload s) := by
  unfold execHello
  refine State.run_after fun c => ?_
  try dsimp only
  repeat' first
    | with_reducible assumption
    | with_reducible exact .refl _ _
    | with_reducible refine Chip.helloTake_in ?_ (by decide +kernel)
    | with_reducible refine Within.ite ?_ ?_
    | split
    | dsimp only

/-- What `execWlHelloTimeout` may change. -/
def execWlHelloTimeout_fx : Fx := Chip.wlDrop_fx
theorem execWlHelloTimeout_after (w : WlNo) (s : State) : AfterOut execWlHelloTimeout_fx s (execWlHelloTimeout w s) := by
  unfold execWlHelloTimeout
  refine State.run_after fun c => ?_
  try dsimp only
  repeat' first
    | with_reducible assumption
    | with_reducible exact .refl _ _
    | with_reducible refine Chip.wlDrop_in ?_ (by decide +kernel)
    | with_reducible refine Within.ite ?_ ?_
    | split
    | dsimp only

/-- What `execWlSquelchEnd` may change. -/
def execWlSquelchEnd_fx : Fx := .of [.wale] []
theorem execWlSquelchEnd_after (w : WlNo) (s : State) : AfterOut execWlSquelchEnd_fx s (execWlSquelchEnd w s) := by
  unfold execWlSquelchEnd
  refine State.run_after fun c => ?_
  try dsimp only
  repeat' first
    | with_reducible assumption
    | with_reducible exact .refl _ _
    | with_reducible refine Within.setWl ?_ (by decide +kernel)
    | with_reducible refine Within.ite ?_ ?_
    | split
    | dsimp only

/-- What `execWlQuietSearch` may change. -/
def execWlQuietSearch_fx : Fx := .of [.wale] []
theorem execWlQuietSearch_after (w : WlNo) (s : State) : AfterOut execWlQuietSearch_fx s (execWlQuietSearch w s) := by
  unfold execWlQuietSearch
  refine State.run_after fun c => ?_
  try dsimp only
  repeat' first
    | with_reducible assumption
    | with_reducible exact .refl _ _
    | with_reducible refine Within.setWl ?_ (by decide +kernel)
    | with_reducible refine Within.ite ?_ ?_
    | split
    | dsimp only

/-- What `execWlWakeSend` may change. -/
def execWlWakeSend_fx : Fx := .union [Chip.writeWlWake_fx, .of [.access] []]
theorem execWlWakeSend_after (w : WlNo) (v : BitVec 8) (s : State) : AfterOut execWlWakeSend_fx s (execWlWakeSend w v s) := by
  unfold execWlWakeSend
  refine State.runWr_after (by decide +kernel) fun c => ?_
  try dsimp only
  repeat' first
    | with_reducible assumption
    | with_reducible exact .refl _ _
    | with_reducible refine Chip.gated_in (fun _ _ => ?_) ?_
    | with_reducible refine Chip.writeWlWake_in ?_ (by decide +kernel)
    | with_reducible refine Within.ite ?_ ?_
    | split
    | dsimp only

/-- What `execWlPacketReceived` may change. -/
def execWlPacketReceived_fx : Fx := Chip.wlReceive_fx
theorem execWlPacketReceived_after (w : WlNo) (words : List WlWord) (s : State) : AfterOut execWlPacketReceived_fx s (execWlPacketReceived w words s) := by
  unfold execWlPacketReceived
  refine State.run_after fun c => ?_
  try dsimp only
  repeat' first
    | with_reducible assumption
    | with_reducible exact .refl _ _
    | with_reducible refine Chip.wlReceive_in ?_ (by decide +kernel)
    | with_reducible refine Within.ite ?_ ?_
    | split
    | dsimp only

/-- What `execWlPacketTransmit` may change. -/
def execWlPacketTransmit_fx : Fx := Chip.wlTransmit_fx
theorem execWlPacketTransmit_after (w : WlNo) (s : State) : AfterOut execWlPacketTransmit_fx s (execWlPacketTransmit w s) := by
  unfold execWlPacketTransmit
  refine State.run_after fun c => ?_
  try dsimp only
  repeat' first
    | with_reducible assumption
    | with_reducible exact .refl _ _
    | with_reducible refine Chip.wlTransmit_in ?_ (by decide +kernel)
    | with_reducible refine Within.ite ?_ ?_
    | split
    | dsimp only

/-- What `execLsa` may change. -/
def execLsa_fx : Fx := Chip.lsaTake_fx
theorem execLsa_after (w : WlNo) (payload : List Octet) (s : State) : AfterOut execLsa_fx s (execLsa w payload s) := by
  unfold execLsa
  refine State.run_after fun c => ?_
  try dsimp only
  repeat' first
    | with_reducible assumption
    | with_reducible exact .refl _ _
    | with_reducible refine Chip.lsaTake_in ?_ (by decide +kernel)
    | with_reducible refine Within.ite ?_ ?_
    | split
    | dsimp only

/-- What `execLsaOriginate` may change. -/
def execLsaOriginate_fx : Fx := Chip.originateNext_fx
theorem execLsaOriginate_after  (s : State) : AfterOut execLsaOriginate_fx s (execLsaOriginate s) := by
  unfold execLsaOriginate
  refine State.run_after fun c => ?_
  try dsimp only
  repeat' first
    | with_reducible assumption
    | with_reducible exact .refl _ _
    | with_reducible refine Chip.originateNext_in ?_ (by decide +kernel)
    | with_reducible refine Within.ite ?_ ?_
    | split
    | dsimp only

/-- What `execLsaRefresh` may change. -/
def execLsaRefresh_fx : Fx := Chip.originateNext_fx
theorem execLsaRefresh_after  (s : State) : AfterOut execLsaRefresh_fx s (execLsaRefresh s) := by
  unfold execLsaRefresh
  refine State.run_after fun c => ?_
  try dsimp only
  repeat' first
    | with_reducible assumption
    | with_reducible exact .refl _ _
    | with_reducible refine Chip.originateNext_in ?_ (by decide +kernel)
    | with_reducible refine Within.ite ?_ ?_
    | split
    | dsimp only

/-- What `execLsaAgeOut` may change. -/
def execLsaAgeOut_fx : Fx := .of [.wale] []
theorem execLsaAgeOut_after (id : BitVec 64) (s : State) : AfterOut execLsaAgeOut_fx s (execLsaAgeOut id s) := by
  unfold execLsaAgeOut
  refine State.run_after fun c => ?_
  try dsimp only
  repeat' first
    | with_reducible assumption
    | with_reducible exact .refl _ _
    | with_reducible refine Within.setWale ?_ (by decide +kernel)
    | with_reducible refine Within.ite ?_ ?_
    | split
    | dsimp only

/-- What `execRouteRecompute` may change. -/
def execRouteRecompute_fx : Fx := Chip.recompute_fx
theorem execRouteRecompute_after  (s : State) : AfterOut execRouteRecompute_fx s (execRouteRecompute s) := by
  unfold execRouteRecompute
  refine State.run_after fun c => ?_
  try dsimp only
  repeat' first
    | with_reducible assumption
    | with_reducible exact .refl _ _
    | with_reducible refine Chip.recompute_in ?_ (by decide +kernel)
    | with_reducible refine Within.ite ?_ ?_
    | split
    | dsimp only

/-- What `execWaleConverged` may change. -/
def execWaleConverged_fx : Fx := .of [] [.WALE_STATUS]
theorem execWaleConverged_after  (s : State) : AfterOut execWaleConverged_fx s (execWaleConverged s) := by
  unfold execWaleConverged
  refine State.run_after fun c => ?_
  try dsimp only
  repeat' first
    | with_reducible assumption
    | with_reducible exact .refl _ _
    | with_reducible refine Within.setBit ?_ (by decide +kernel)
    | with_reducible refine Within.ite ?_ ?_
    | split
    | dsimp only

/-- What `execAddressPersist` may change. -/
def execAddressPersist_fx : Fx := .of [.nv] []
theorem execAddressPersist_after  (s : State) : AfterOut execAddressPersist_fx s (execAddressPersist s) := by
  unfold execAddressPersist
  refine State.run_after fun c => ?_
  try dsimp only [Chip.fold_nv]
  repeat' first
    | with_reducible assumption
    | with_reducible exact .refl _ _
    | with_reducible refine Within.put_nv ?_ (by decide +kernel)
    | with_reducible refine Within.ite ?_ ?_
    | split
    | dsimp only

/-- What `execSync` may change. -/
def execSync_fx : Fx := Chip.syncAll_fx
theorem execSync_after  (s : State) : AfterOut execSync_fx s (execSync s) := by
  unfold execSync
  refine State.run_after fun c => ?_
  try dsimp only
  repeat' first
    | with_reducible assumption
    | with_reducible exact .refl _ _
    | with_reducible refine Chip.syncAll_in ?_ (by decide +kernel)
    | with_reducible refine Within.ite ?_ ?_
    | split
    | dsimp only

/-- What `execDreq` may change. -/
def execDreq_fx : Fx := Chip.dreqSend_fx
theorem execDreq_after  (s : State) : AfterOut execDreq_fx s (execDreq s) := by
  unfold execDreq
  refine State.run_after fun c => ?_
  try dsimp only
  repeat' first
    | with_reducible assumption
    | with_reducible exact .refl _ _
    | with_reducible refine Chip.dreqSend_in ?_ (by decide +kernel)
    | with_reducible refine Within.ite ?_ ?_
    | split
    | dsimp only

/-- What `execWcTs` may change. -/
def execWcTs_fx : Fx := Chip.tsTake_fx
theorem execWcTs_after (w : WlNo) (kind : BitVec 8) (seq : BitVec 16) (frac : Fin 16) (s : State) : AfterOut execWcTs_fx s (execWcTs w kind seq frac s) := by
  unfold execWcTs
  refine State.run_after fun c => ?_
  try dsimp only
  repeat' first
    | with_reducible assumption
    | with_reducible exact .refl _ _
    | with_reducible refine Chip.tsTake_in ?_ (by decide +kernel)
    | with_reducible refine Within.ite ?_ ?_
    | split
    | dsimp only

/-- What `execTime` may change. -/
def execTime_fx : Fx := Chip.timeTake_fx
theorem execTime_after (w : WlNo) (payload : BitVec 192) (s : State) : AfterOut execTime_fx s (execTime w payload s) := by
  unfold execTime
  refine State.run_after fun c => ?_
  try dsimp only
  repeat' first
    | with_reducible assumption
    | with_reducible exact .refl _ _
    | with_reducible refine Chip.timeTake_in ?_ (by decide +kernel)
    | with_reducible refine Within.ite ?_ ?_
    | split
    | dsimp only

/-- What `execTimeReportTimeout` may change. -/
def execTimeReportTimeout_fx : Fx := .of [.wale] []
theorem execTimeReportTimeout_after (w : WlNo) (dreq : Bool) (s : State) : AfterOut execTimeReportTimeout_fx s (execTimeReportTimeout w dreq s) := by
  unfold execTimeReportTimeout
  refine State.run_after fun c => ?_
  try dsimp only
  repeat' first
    | with_reducible assumption
    | with_reducible exact .refl _ _
    | with_reducible refine Within.setWl ?_ (by decide +kernel)
    | with_reducible refine Within.ite ?_ ?_
    | split
    | dsimp only

/-- What `execEvent` may change. -/
def execEvent_fx : Fx := .union [Chip.emitRec_fx, Chip.outcomeTake_fx]
theorem execEvent_after (src : BitVec 8) (records : List (BitVec 256)) (outcomes : List OutcomeIn) (s : State) : AfterOut execEvent_fx s (execEvent src records outcomes s) := by
  unfold execEvent
  refine State.run_after fun c => ?_
  try dsimp only
  repeat' first
    | with_reducible assumption
    | with_reducible exact .refl _ _
    | with_reducible refine Chip.emitRec_in ?_ (by decide +kernel)
    | with_reducible refine Chip.outcomeTake_in ?_ (by decide +kernel)
    | with_reducible refine Within.each (fun _ _ _ => ?_) ?_
    | with_reducible refine Within.ite ?_ ?_
    | split
    | dsimp only

/-- What `execEventPacketSend` may change. -/
def execEventPacketSend_fx : Fx := Chip.eventPacket_fx
theorem execEventPacketSend_after (batch : EventBatch) (s : State) : AfterOut execEventPacketSend_fx s (execEventPacketSend batch s) := by
  unfold execEventPacketSend
  refine State.run_after fun c => ?_
  try dsimp only
  repeat' first
    | with_reducible assumption
    | with_reducible exact .refl _ _
    | with_reducible refine Chip.eventPacket_in ?_ (by decide +kernel)
    | with_reducible refine Within.ite ?_ ?_
    | split
    | dsimp only

/-- What `execUpsettTagWrite` may change. -/
def execUpsettTagWrite_fx : Fx := .union [Chip.writeUpsettTag_fx, .of [.access] []]
theorem execUpsettTagWrite_after (v : BitVec 32) (s : State) : AfterOut execUpsettTagWrite_fx s (execUpsettTagWrite v s) := by
  unfold execUpsettTagWrite
  refine State.runWr_after (by decide +kernel) fun c => ?_
  try dsimp only
  repeat' first
    | with_reducible assumption
    | with_reducible exact .refl _ _
    | with_reducible refine Chip.gated_in (fun _ _ => ?_) ?_
    | with_reducible refine Chip.writeUpsettTag_in ?_ (by decide +kernel)
    | with_reducible refine Within.ite ?_ ?_
    | split
    | dsimp only

end Sys2Proof.Machine
end

