-- ==== Sys2Proof/Laws/Frames.lean ====
section
/-!
SUPPORT. From what a command's effect may change to the frame that statements speak of.
-/
namespace Sys2Proof.Machine
set_option Elab.async false

theorem foldl_bits_init {α : Type} (f : α → Nat) (l : List α) (n : Nat) :
    l.foldl (fun a x => a ||| 2 ^ f x) n = n ||| l.foldl (fun a x => a ||| 2 ^ f x) 0 := by
  induction l generalizing n with
  | nil => simp
  | cons x l ih =>
    rw [List.foldl_cons, List.foldl_cons, ih, ih (0 ||| 2 ^ f x)]
    simp [Nat.or_assoc]

/-- A bit of a set is a listed element's. -/
theorem foldl_bits_mem {α : Type} (f : α → Nat) (l : List α) (i : Nat)
    (h : (l.foldl (fun a x => a ||| 2 ^ f x) 0).testBit i = true) : ∃ x ∈ l, f x = i := by
  induction l with
  | nil => simp at h
  | cons x l ih =>
    rw [List.foldl_cons, foldl_bits_init] at h
    simp only [Nat.zero_or, Nat.testBit_or, Bool.or_eq_true, Nat.testBit_two_pow, decide_eq_true_eq] at h
    rcases h with h | h
    · exact ⟨x, by simp, h⟩
    · obtain ⟨y, hy, hf⟩ := ih h
      exact ⟨y, by simp [hy], hf⟩

theorem Part.ctorIdx_inj {p q : Part} (h : p.ctorIdx = q.ctorIdx) : p = q := by
  rw [← Part.ofNat_ctorIdx p, h, Part.ofNat_ctorIdx]

theorem Reg.ctorIdx_inj {p q : Reg} (h : p.ctorIdx = q.ctorIdx) : p = q := by
  rw [← Reg.ofNat_ctorIdx p, h, Reg.ofNat_ctorIdx]

/-- A part that a set of listed parts names is listed. -/
theorem Fx.hasPart_of {ps : List Part} {rs : List Reg} {p : Part} (h : (Fx.of ps rs).hasPart p = true) : p ∈ ps := by
  obtain ⟨q, hq, he⟩ := foldl_bits_mem Part.ctorIdx ps _ h
  exact Part.ctorIdx_inj he ▸ hq

/-- An object that a set of listed objects names is listed. -/
theorem Fx.hasReg_of {ps : List Part} {rs : List Reg} {r : Reg} (h : (Fx.of ps rs).hasReg r = true) : r ∈ rs := by
  obtain ⟨q, hq, he⟩ := foldl_bits_mem Reg.ctorIdx rs _ h
  exact Reg.ctorIdx_inj he ▸ hq

/-- The event engine's objects. -/
def Reg.eventRegs : List Reg :=
  [.EV_STATUS_DEV, .EV_STATUS_TILE, .EV_STATUS_QUAD, .EV_STATUS_PORT, .EV_STATUS_PE, .EV_STATUS_WL, .EV_STATUS_MGMT,
   .EV_STATUS_SPI, .EV_STATUS_HLANE, .EV_STATUS_QC, .EV_DROP, .EV_COALESCED_COUNT, .EV_OVERWRITTEN, .EV_READ_COUNT,
   .EV_WRITE_COUNT]

theorem Reg.ofEvents_of_mem {r : Reg} (h : r ∈ Reg.eventRegs) : r.ofEvents = true := by
  simp only [Reg.eventRegs, List.mem_cons, List.not_mem_nil, or_false] at h
  rcases h with h | h | h | h | h | h | h | h | h | h | h | h | h | h | h <;> subst h <;> rfl

theorem Part.same_bare {p : Part} {c d : Chip} (h : p.same c d) : p.same c.bare d.bare := by
  cases p <;> simp_all [Part.same, Chip.bare]

/-- The frame of a command from what its effect may change. -/
theorem Frames.of_after {i : Instr} {ps : List Part} {rs : List Reg} {x : Fx} (h : ∀ s, AfterOut x s (exec i s))
    (hx : x.le (Fx.of (.access :: .ev :: ps) (Reg.eventRegs ++ rs)) = true) : Frames i ps rs := by
  intro s t ht
  obtain ⟨t', ht', -, m, hm, hf⟩ := h s
  obtain rfl : t' = t := by rw [ht'] at ht; injection ht
  have hw := Fx.le_iff.1 hx
  constructor
  · intro p hp
    have key : p.same s.chip.bare m.bare := by
      by_cases ha : p = .access
      · subst ha; simp [Part.same, Chip.bare]
      by_cases he : p = .ev
      · subst he; simp [Part.same, Chip.bare]
      refine Part.same_bare (hm.part p ?_)
      refine Nat.testBit_of_land_eq hw.1 ?_
      refine Bool.eq_false_iff.2 fun hc => ?_
      have := Fx.hasPart_of (rs := Reg.eventRegs ++ rs) hc
      simp [ha, he, hp] at this
    have hb := hf.bare
    cases p <;> simp only [Part.same] at key ⊢ <;> rw [hb] <;> exact key
  · intro k hk hn
    rw [hf.cells k hk (by simp)]
    refine hm.cell k (Nat.testBit_of_land_eq hw.2 ?_)
    refine Bool.eq_false_iff.2 fun hc => ?_
    have := Fx.hasReg_of (ps := .access :: .ev :: ps) hc
    rw [List.mem_append] at this
    rcases this with h1 | h1
    · rw [Reg.ofEvents_of_mem h1] at hk; exact absurd hk (by simp)
    · exact hn h1

end Sys2Proof.Machine
end

