-- ==== Sys2Proof/Laws/Store.lean ====
section
/-!
SUPPORT. Laws of the coefficient store: reading a word after a write, and that a sealed store passes its retention check.
-/
namespace Sys2Proof.Machine
set_option Elab.async false

theorem PeSt.word_putWord (s : PeSt) (w j v : Nat) :
    (s.putWord w v).word j = if j = w then v % 65536 &&& wordMask w else s.word j := by
  unfold PeSt.putWord PeSt.word
  split
  · next h => subst h; simp
  · next h => rw [Tab.getD_set_other _ _ _ _ _ _ h]

theorem crc32Bit_lt (c : Nat) (b : Bool) (h : c < 2 ^ 32) : crc32Bit c b < 2 ^ 32 := by
  unfold crc32Bit
  simp only
  split
  · exact Nat.xor_lt_two_pow (by omega) (by omega)
  · omega

theorem crc32_lt (l : List Octet) : crc32 l < 2 ^ 32 := by
  have hb : ∀ (bs : List Bool) (c : Nat), c < 2 ^ 32 → bs.foldl crc32Bit c < 2 ^ 32 := by
    intro bs
    induction bs with
    | nil => exact fun c h => h
    | cons b bs ih => exact fun c h => ih _ (crc32Bit_lt c b h)
  have ho : ∀ (l : List Octet) (c : Nat), c < 2 ^ 32 →
      l.foldl (fun c o => (octetBits o).foldl crc32Bit c) c < 2 ^ 32 := by
    intro l
    induction l with
    | nil => exact fun c h => h
    | cons o l ih => exact fun c h => ih _ (hb _ c h)
  exact Nat.xor_lt_two_pow (ho l _ (by omega)) (by omega)

/-- Setting `SEALED` does not change what the check word covers. -/
theorem setBits_sealed : ∀ x < 4, setBits (withBit x 1 true % 65536 &&& wordMask 4) 1 0 0 = setBits x 1 0 0 := by decide

theorem testBit_sealed : ∀ x < 4, (withBit x 1 true % 65536 &&& wordMask 4).testBit 1 = true := by decide

/-- What the check word covers depends only on words 0, 1 and 4 to 0x16FF, and on word 4 without `SEALED`. -/
theorem PeSt.checkWord_congr (s t : PeSt) (h4 : setBits (s.word 4) 1 0 0 = setBits (t.word 4) 1 0 0)
    (h : ∀ w, w ≠ 2 → w ≠ 3 → w ≠ 4 → s.word w = t.word w) : s.checkWord = t.checkWord := by
  unfold PeSt.checkWord PeSt.checkOctets
  congr 1
  rw [List.flatMap_def, List.flatMap_def]
  congr 1
  apply List.map_congr_left
  intro w hw
  have : w ≠ 2 ∧ w ≠ 3 := by
    simp only [List.mem_append, List.mem_cons, List.not_mem_nil, List.mem_map, or_false] at hw
    rcases hw with (rfl | rfl) | ⟨k, -, rfl⟩ <;> omega
  by_cases e : w = 4
  · simp only [e, if_true, h4]
  · simp only [e, if_false, h w this.1 this.2 e]

/-- What sealing writes beside the check word (R113). -/
theorem PeSt.word_sealStore (s : PeSt) (j : Nat) (h2 : j ≠ 2) (h3 : j ≠ 3) :
    s.sealStore.word j = if j = 4 then withBit (s.writeBack.word 4) 1 true % 65536 &&& wordMask 4 else s.writeBack.word j := by
  unfold PeSt.sealStore
  simp only [PeSt.word_putWord, h2, h3, if_false, show (4 : Nat) ≠ 3 by decide, show (4 : Nat) ≠ 2 by decide]
  rfl

theorem PeSt.word_four_lt (s : PeSt) : s.word 4 < 4 := Nat.lt_of_le_of_lt Nat.and_le_right (by decide)

/-- R113: a store that was sealed passes its retention check. -/
theorem PeSt.retentionOk_sealStore (s : PeSt) : s.sealStore.retentionOk = true := by
  have hk := crc32_lt ({ s.writeBack with adapting := false } : PeSt).checkOctets
  have hw4 : ({ s.writeBack with adapting := false } : PeSt).word 4 < 4 := PeSt.word_four_lt _
  unfold PeSt.retentionOk PeSt.isSealed PeSt.checkHeld PeSt.sealStore
  generalize ({ s.writeBack with adapting := false } : PeSt) = a at *
  simp only [PeSt.word_putWord, if_true, Bool.and_eq_true, decide_eq_true_eq]
  refine ⟨testBit_sealed _ hw4, ?_⟩
  rw [PeSt.checkWord_congr _ a]
  · simp only [show (3 : Nat) ≠ 4 by decide, show (2 : Nat) ≠ 4 by decide, show (2 : Nat) ≠ 3 by decide, if_false,
      show wordMask 2 = 2 ^ 16 - 1 from rfl, show wordMask 3 = 2 ^ 16 - 1 from rfl, Nat.and_two_pow_sub_one_eq_mod]
    change crc32 _ = _
    unfold PeSt.checkWord
    omega
  · simp only [PeSt.word_putWord, if_true, show (4 : Nat) ≠ 3 by decide, show (4 : Nat) ≠ 2 by decide, if_false]
    exact setBits_sealed _ hw4
  · intro w h2 h3 h4
    simp only [PeSt.word_putWord, h2, h3, h4, if_false]
end Sys2Proof.Machine
end

