-- ==== Sys2Proof/Laws/Octets.lean ====
section
/-!
SUPPORT. Laws of octet strings: numbers and their octets, and the FCS of a frame that the device seals.
-/
namespace Sys2Proof.Machine
set_option Elab.async false

@[simp] theorem length_natToOctets (n v : Nat) : (natToOctets n v).length = n := by
  induction n with
  | zero => rfl
  | succ n ih => simp [natToOctets, ih]

theorem foldl_octets (l : List Octet) (a : Nat) :
    l.foldl (fun a o => a * 256 + o.toNat) a = a * 256 ^ l.length + octetsToNat l := by
  unfold octetsToNat
  induction l generalizing a with
  | nil => simp
  | cons o l ih =>
    simp only [List.foldl_cons, List.length_cons]
    rw [ih (a * 256 + o.toNat), ih (0 * 256 + o.toNat), pow_succ]
    ring

/-- The octets of a number spell it again, modulo their range. -/
theorem octetsToNat_natToOctets (n v : Nat) : octetsToNat (natToOctets n v) = v % 256 ^ n := by
  induction n with
  | zero => simp [natToOctets, octetsToNat, Nat.mod_one]
  | succ n ih =>
    unfold natToOctets octetsToNat
    rw [List.foldl_cons, foldl_octets, ih, length_natToOctets, BitVec.toNat_ofNat,
      show 256 ^ (n + 1) = 256 ^ n * 256 from pow_succ .., Nat.mod_mul, show 2 ^ 8 = 256 from rfl, Nat.zero_mul, Nat.zero_add,
      Nat.mul_comm, Nat.add_comm]

theorem octetsToNat_cons (o : Octet) (l : List Octet) :
    octetsToNat (o :: l) = o.toNat * 256 ^ l.length + octetsToNat l := by
  have := foldl_octets l (0 * 256 + o.toNat)
  simpa [octetsToNat] using this

theorem octetsToNat_lt (l : List Octet) : octetsToNat l < 256 ^ l.length := by
  induction l with
  | nil => simp [octetsToNat]
  | cons o l ih =>
    rw [octetsToNat_cons, List.length_cons, pow_succ]
    have ho : o.toNat < 256 := o.isLt
    have : o.toNat * 256 ^ l.length ≤ 255 * 256 ^ l.length := Nat.mul_le_mul_right _ (by omega)
    omega

theorem natToOctets_add (n a v : Nat) : natToOctets n (a * 256 ^ n + v) = natToOctets n v := by
  induction n generalizing a with
  | zero => rfl
  | succ n ih =>
    unfold natToOctets
    have e : a * 256 ^ (n + 1) + v = a * 256 * 256 ^ n + v := by rw [pow_succ]; ring
    rw [e, ih]
    congr 1
    apply BitVec.eq_of_toNat_eq
    rw [BitVec.toNat_ofNat, BitVec.toNat_ofNat, Nat.add_comm, Nat.add_mul_div_right _ _ (by positivity)]
    omega

/-- The number of octets is spelled by them again. -/
theorem natToOctets_octetsToNat (l : List Octet) : natToOctets l.length (octetsToNat l) = l := by
  induction l with
  | nil => rfl
  | cons o l ih =>
    rw [List.length_cons, octetsToNat_cons]
    unfold natToOctets
    rw [natToOctets_add, ih, Nat.add_comm, Nat.add_mul_div_right _ _ (by positivity), Nat.div_eq_of_lt (octetsToNat_lt l),
      Nat.zero_add]
    simp

theorem octs_append (l m : List Octet) : octs (l ++ m) l.length m.length = m := by
  simp [octs]

theorem octs_head (l m : List Octet) (n : Nat) (h : l.length = n) : octs (l ++ m) 0 n = l := by
  subst h; simp [octs]

/-- The FCS of a frame that the device seals agrees with its octets. -/
theorem fcsOk_sealFrame (l : List Octet) : fcsOk (sealFrame l) = true := by
  have h4 : ((natToOctets 4 (crc32 l)).reverse).length = 4 := by simp
  unfold fcsOk fcsOf sealFrame
  have hl : (l ++ (natToOctets 4 (crc32 l)).reverse).length - 4 = l.length := by simp
  rw [hl, List.take_left]
  have := octs_append l (natToOctets 4 (crc32 l)).reverse
  rw [h4] at this
  rw [this, List.reverse_reverse, octetsToNat_natToOctets, show 256 ^ 4 = 2 ^ 32 from rfl,
    Nat.mod_eq_of_lt (crc32_lt l)]
  simp

theorem dapMac_lt : dapMac < 2 ^ 48 := by unfold dapMac; omega

/-- A frame built with a destination address shows it. -/
theorem octNat_dapFrameOf (dest : Nat) (tags : List Octet) (ether : Nat) (msg : List Octet) (h : dest < 2 ^ 48) :
    octNat (dapFrameOf dest tags ether msg) 0 6 = dest := by
  unfold octNat dapFrameOf sealFrame padFrame
  simp only [List.append_assoc]
  rw [octs_head _ _ 6 (length_natToOctets 6 dest), octetsToNat_natToOctets]
  exact Nat.mod_eq_of_lt h
end Sys2Proof.Machine
end

