-- ==== Sys2Proof/Machine/Package.lean ====
section
/-!
DEFINITION. The package as chapter 18 fixes it: where each land lies (R411 to R413), and the power that the device draws at most in a
state (R418 to R420). No command acts on either.
-/
set_option Elab.async false
namespace Sys2Proof.Machine

/-- A land position, both numbers counted from 1 (R411). -/
structure Land where
  row : Nat
  col : Nat
deriving DecidableEq, Repr

/-- Groups of land positions (Table 18-2). -/
inductive LandGroup where
  | mdi | depop | chassis | host | wale | mgmt | se | led | vin | rsvd | gnd
deriving DecidableEq, Repr

/-- Global row of a local row of a tile's MDI field (Table 18-3). -/
def mdiRow (t r : Nat) : Nat := if t ≤ 7 then 1 + r else 88 - r

/-- The P land, or the N land, of a pair engine (Table 18-3). -/
def peLand (p : Nat) (n : Bool) : Land :=
  let j := p % 32
  ⟨mdiRow (p / 32) (1 + 3 * (j / 11) + b2n n), 11 * (p / 32 % 8) + 1 + j % 11⟩

/-- The P land, or the N land, of a direction of a host lane (Table 18-3). -/
def hostLand (h : Nat) (toDevice n : Bool) : Land :=
  let g := h / 32
  let i := h % 32
  ⟨13 + 16 * (g % 4) + 2 * (i / 8) + 8 * b2n toDevice, (if g ≤ 3 then 1 else 73) + 2 * (i % 8) + b2n n⟩

/-- The land of LED `k` of a quad (Table 18-3). -/
def ledLand (q k : Nat) : Land :=
  ⟨if q ≤ 63 then 13 + 2 * (q / 32) + k else 76 - 2 * ((q - 64) / 32) - k, 25 + q % 32⟩

/-- The P land, or the N land, of a direction of a Wale port (Table 18-3). -/
def waleLand (w : Nat) (rx n : Bool) : Land := ⟨if rx then 30 else 28, 20 + 4 * w + b2n n⟩

/-- The P land, or the N land, of a direction of the management port (Table 18-3). -/
def mgmtLand (rx n : Bool) : Land := ⟨if rx then 30 else 28, 46 + b2n n⟩

/-- The single-ended lands from column 20 on (Table 18-4). -/
def seLands : List String :=
  ["RESET_N", "INT_N", "FAULT_N", "PPS_IN", "PPS_OUT", "REF_IN", "SCLK", "CS_N", "IO0", "IO1", "IO2", "IO3", "TCK", "TMS", "TDI",
   "TDO", "TRST_N"]

/-- Group of a position in the MDI fields (Table 18-3): local row `r`, local column `c`. -/
def mdiGroup (r c : Nat) : LandGroup :=
  if r % 3 = 0 || (c = 10 && 7 ≤ r) then .depop else .mdi

/-- Group of a land position (Tables 18-2, 18-3). -/
def landGroup (l : Land) : LandGroup :=
  let within := fun (x a b : Nat) => decide (a ≤ x) && decide (x ≤ b)
  if l.row ≤ 9 then mdiGroup (l.row - 1) ((l.col - 1) % 11)
  else if 80 ≤ l.row then mdiGroup (88 - l.row) ((l.col - 1) % 11)
  else if l.row ≤ 11 || 78 ≤ l.row then .depop
  else if (l.row = 12 || l.row = 77) && within l.col 25 56 then .chassis
  else if within l.row 13 76 && (l.row - 13) % 2 = 0 && (within l.col 1 16 || within l.col 73 88) then .host
  else if (within l.row 13 16 || within l.row 73 76) && within l.col 25 56 then .led
  else if (l.row = 28 || l.row = 30) && within l.col 20 41 && (l.col - 20) % 4 ≤ 1 then .wale
  else if (l.row = 28 || l.row = 30) && within l.col 46 47 then .mgmt
  else if within l.row 35 52 && within l.col 37 52 then .vin
  else if l.row = 60 && within l.col 20 36 then .se
  else if l.row = 62 && within l.col 20 35 then .rsvd
  else .gnd

-- Power, in mW.

/-- A pair engine in a mode, at the levels from the slowest that the mode runs under back to PL0 (Table 18-8). -/
def LineMode.milliwatts : LineMode → List Nat
  | .w50 => [520]
  | .w25 => [380, 300]
  | .w12 => [260, 210, 170]
  | .t40g => [240, 190, 150]
  | .t25g => [210, 160, 120]
  | .t10g => [170, 130, 110, 90]
  | .t5g | .t2g5 => [150, 110, 90, 70]
  | .t1000 => [120, 80, 60, 50]
  | .t100 => [100, 60, 40, 30]

/-- A pair engine at most, by its state and its tile's level (R418, Table 18-8); a sleeping tile counts as one (Table 18-7). -/
def Chip.pePower (c : Chip) (e : Nat) : Rat :=
  let t := tileOf e
  let s := c.port (c.portOf e)
  if !c.tileRuns t then 0
  else if c.rd .BIST_STATE_PE e = 2 || s.link = .disabled || s.link = .held then 10
  else match s.link.clocked, s.mode with
    | true, some m =>
      let own : Nat := m.milliwatts.getD (c.tile t).level 0
      let extra : Rat := 140 * (mkRat 1 (c.quadDivider (quadOf e)) - mkRat 1 m.divider)
      let all : Rat := own + max 0 extra
      if s.lpi.state = .quiet then all / 4 else all
    | _, _ => (([60, 40, 30, 20].getD (c.tile t).level 0 : Nat) : Rat)

/-- Power at VIN at most (R418 to R420): `share` is the part of the buffer's bandwidth in use, `leds` the outputs that are on. -/
def Chip.vinPower (c : Chip) (share : Rat) (leds : Nat) : Rat :=
  match c.pwr.state with
  | .standby => 6000
  | .off => 400
  | .wakeFault => 20000
  | .active =>
    let pes := (List.range 512).foldl (fun (a : Rat) e => a + c.pePower e) 0
    let asleep : Nat := ((List.range 16).filter fun t => (c.tile t).st = .sleep || (c.tile t).st = .down).length
    let groups : Nat := ((List.range 8).filter fun g => c.pwr.hostPll && c.rdBit .LEGACY_GATE (8 + g)).length
    (pes + 70 * asleep + 300 * 32 * groups + 14000 + 26000 * share + 8000 + mkRat 264 10 * leds) / mkRat 9 10

end Sys2Proof.Machine
end

