-- ==== Sys2Proof/WellFormed.lean ====
section
/-!
DEFINITION. Which commands are well formed: the lists that come with a command have the lengths that the rules give them. A
meaning is total on every command; what it does with an ill-formed one stands for nothing on the hardware.
-/
set_option Elab.async false
namespace Sys2Proof.Machine

/-- No tile, calibration copy or stored record is named twice. -/
def BootInputs.wf (b : BootInputs) : Bool :=
  decide b.isolated.Nodup && decide b.calBad.Nodup && decide b.storedBad.Nodup

/-- Five losses (R159), and magnitudes that S0.15 holds. -/
def PairProbe.wf (x : PairProbe) : Bool := x.loss.length = 5 && x.bands.length = 64 && x.echoes.all fun y => y.rho.natAbs ≤ 32768

/-- One probe for each pair of a port, which has at most four (R28, R159). -/
def T0Probe.wf (r : T0Probe) : Bool := 0 < r.pairs.length && r.pairs.length ≤ 4 && r.pairs.all PairProbe.wf

/-- At most eight slots (R118), a phase below one symbol. -/
def WindowMeas.wf (m : WindowMeas) : Bool := m.slotGains.length ≤ 8 && m.phase < 65536

/-- `LDPC_ITER_HIST` has 18 rows (R171). -/
def StdCounts.wf (x : StdCounts) : Bool := x.hist.length = 18

/-- The six octets between the start block's control octet and the SFD (R189, R192). -/
def HostFrame.wf (f : HostFrame) : Bool := f.pre.length = 6

/-- The inputs of the start that may follow an entry are those of a start. -/
def EntryDone.wf : EntryDone → Bool
  | .tile _ => true
  | .device b => b.wf

/-- The numbers of elements of a pair engine (R353, Table 15-3). -/
def FgMeas.wf (m : FgMeas) : Bool :=
  m.adc.length = 18 && m.dac.length = 66 && m.cmp.length = 288 && m.sel.length = 18 && m.fe.length = 15 && m.delays.length = 10

end Sys2Proof.Machine

namespace Sys2Proof
open Sys2Proof.Machine

/-- A command whose operands the rules allow. -/
def Instr.wf (i : Instr) : Bool :=
  match i with
  | .vinGoodRise boot => boot.wf
  | .vinGoodFall => true
  | .resetNAssert => true
  | .resetNRelease boot => boot.wf
  | .deviceReset _ boot => boot.wf
  | .hwWatchdogReset boot => boot.wf
  | .fwWatchdogExpire _ trainings boot => boot.wf && decide trainings.Nodup
  | .basePagesExchanged _ _ => true
  | .nextPagesDone _ _ => true
  | .flpDetected _ => true
  | .parallelDetect _ => true
  | .t0TimerEnd _ r => r.wf
  | .t1Converged _ _ => true
  | .t1Timeout _ _ _ => true
  | .infofieldReceived _ _ _ _ => true
  | .t2Timeout _ => true
  | .countdownEnd _ => true
  | .t3VerifyPass _ _ => true
  | .t3Timeout _ _ => true
  | .partnerLost _ => true
  | .stdTrainComplete _ _ => true
  | .stdLinkFail _ => true
  | .linkBreakEnd _ => true
  | .linkFailEnd _ => true
  | .noEnergy2s _ => true
  | .wakePatternRetrain _ => true
  | .fastRetrainNoReply _ => true
  | .trainRestartFull _ => true
  | .trainRestartFast _ => true
  | .trainRestartRenegotiate _ => true
  | .portModeWrite _ _ => true
  | .portAbilityWrite _ _ => true
  | .portEnableWrite _ _ => true
  | .quadFormationWrite _ _ => true
  | .receiveCodeword _ _ _ _ => true
  | .uncorrectableRun _ _ => true
  | .auxcrcLimitExceeded _ _ => true
  | .marginWindowEnd _ m _ => m.wf
  | .mcPairDropReq _ _ _ => true
  | .mcPairDropAck _ _ => true
  | .pairDropSwitch _ _ => true
  | .mcLaneStatus _ _ => true
  | .mcPrecoder _ _ => true
  | .precoderUpdateStart _ taps _ => taps.length = 24 || taps.length = 32 || taps.length = 40
  | .precoderSwitch _ _ => true
  | .storeRefresh _ _ _ => true
  | .refreshSlowReturn _ => true
  | .coefWriteback _ words => decide (words.map Prod.fst).Nodup
  | .peCoefFreezeWrite _ _ => true
  | .coefFreezeExpire _ => true
  | .captureEqualised _ => true
  | .captureRaw _ => true
  | .captureDone _ samples => samples.length = 1024
  | .ancPassStart _ => true
  | .ancPassEnd _ ranked => decide (ranked.map Candidate.pe).Nodup
  | .probationEnd _ _ _ => true
  | .frozenThaw _ _ => true
  | .ancHoldExpire _ _ => true
  | .weaveMapCopyWrite => true
  | .ancSlotWrite _ _ _ => true
  | .ancEnableWrite _ _ => true
  | .ancMapClear _ => true
  | .ancMapPersistWrite _ => true
  | .lpiSleepRequest _ _ => true
  | .sleepReq _ _ _ => true
  | .sleepAck _ _ => true
  | .sleepNak _ _ => true
  | .lpiQuietPoint _ _ => true
  | .lpiRefreshStart _ => true
  | .lpiRefreshEnd _ => true
  | .partnerRefreshEnd _ margins => margins.length ≤ 4
  | .lpiWakeStart _ _ => true
  | .lpiPartnerChirp _ => true
  | .lpiWakeEnd _ _ => true
  | .heldAwakeEnd _ => true
  | .lpiEnableWrite _ _ => true
  | .rxLpi _ _ => true
  | .tdrStart _ _ => true
  | .tdrDone _ r => r.wf
  | .reflectCompute _ => true
  | .reflectBaselineSet _ => true
  | .reflectDone _ _ _ => true
  | .reflectWatchTick _ _ _ => true
  | .lqSecondEnd _ std => std.length ≤ 4 && std.all StdCounts.wf
  | .lqReset _ _ => true
  | .plantMapBuild _ => true
  | .plantMapDone => true
  | .ledLocateTick _ => true
  | .ledBlinkEnd _ => true
  | .frameFromHost _ f => f.wf
  | .hostPauseEnd _ => true
  | .hostLocalFaultRx _ _ => true
  | .pfcFrameSend _ => true
  | .pfcRefresh _ _ => true
  | .receiveFrame _ _ => true
  | .forwardToHost _ => true
  | .hlLaneUp _ => true
  | .hlLaneFault _ => true
  | .hlForceFailWrite _ _ => true
  | .lsMarkerReceived _ _ inProgress => decide inProgress.Nodup
  | .hlMapWrite _ _ _ => true
  | .hlPrbsGenWrite _ _ => true
  | .hlPrbsChkWrite _ _ => true
  | .pfcSettingWrite _ _ _ => true
  | .fecLockChange _ _ _ _ _ _ _ => true
  | .timeSet _ => true
  | .timeStep _ => true
  | .timeSnapshot _ => true
  | .timeServoInput _ => true
  | .timeValidWrite _ => true
  | .timeSourceWrite _ _ => true
  | .servoInputTimeout => true
  | .holdoverValidExpire => true
  | .rootDisciplineWrite _ => true
  | .trimResume => true
  | .refInLost => true
  | .ppsInEdge _ => true
  | .ppsOutPulse => true
  | .ppsOutEnd => true
  | .taPost _ _ _ _ => true
  | .taNone _ _ => true
  | .taWrite _ => true
  | .taCommit _ => true
  | .taMark _ => true
  | .taCancel _ => true
  | .refInPresent => true
  | .startDecision _ _ _ => true
  | .expressDecision _ _ _ => true
  | .launchReadComplete _ _ _ => true
  | .frameEndOnWire _ => true
  | .queueHeadJudge _ => true
  | .gateEdge _ => true
  | .gateSwapExecute _ => true
  | .qBlocksWrite _ _ _ => true
  | .qDefaultWrite _ _ => true
  | .qFlush _ _ => true
  | .qConfigWrite _ _ _ => true
  | .shaperWrite _ _ => true
  | .shaperDebtEnd _ => true
  | .gateEnableTrue _ => true
  | .gateEnableFalse _ => true
  | .gateSwapRequest _ _ => true
  | .gateSwapCancel _ => true
  | .mmEnableTrue _ => true
  | .mmEnableFalse _ => true
  | .mmVerifyTimer _ => true
  | .mmVerifyReceived _ _ => true
  | .mtrConfigWrite _ _ => true
  | .rxMeterRangeWrite _ _ _ => true
  | .admitCell _ _ _ => true
  | .scrubRead _ _ _ => true
  | .scrubWriteback _ _ => true
  | .qcRetire _ _ => true
  | .channelDrained _ => true
  | .bufReevaluate _ => true
  | .wlEnableWrite _ _ => true
  | .wlHeaderLock _ _ => true
  | .wlHeaderLockLost _ _ _ _ => true
  | .wlAligned _ _ => true
  | .wlSlip _ _ => true
  | .wlHelloSend _ => true
  | .hello _ _ => true
  | .wlHelloTimeout _ => true
  | .wlSquelchEnd _ => true
  | .wlQuietSearch _ => true
  | .wlWakeSend _ _ => true
  | .wlPacketReceived _ words => words.length ≤ 4096
  | .wlPacketTransmit _ => true
  | .lsa _ payload => payload.length ≤ 2048
  | .lsaOriginate => true
  | .lsaRefresh => true
  | .lsaAgeOut _ => true
  | .routeRecompute => true
  | .waleConverged => true
  | .addressPersist => true
  | .sync => true
  | .dreq => true
  | .wcTs _ _ _ _ => true
  | .time _ _ => true
  | .timeReportTimeout _ _ => true
  | .event _ records _ => records.length ≤ 32
  | .eventPacketSend _ => true
  | .upsettTagWrite _ => true
  | .statusClear _ _ _ => true
  | .dapRequest _ _ => true
  | .read _ _ _ => true
  | .write _ _ _ _ _ => true
  | .describe _ _ => true
  | .dapResponseReceived _ => true
  | .registerWrite _ _ _ _ => true
  | .snapshot _ _ => true
  | .spiReadStatus => true
  | .spiWriteReq _ _ _ => true
  | .spiReadResp _ => true
  | .mgmtAnComplete _ => true
  | .mgmtSyncLoss _ => true
  | .pwrRequestActive => true
  | .pwrRequestStandby => true
  | .pwrRequestOff => true
  | .pwrDirectActive => true
  | .pwrDirectStandby => true
  | .pwrDirectOff => true
  | .tileRequestRun _ => true
  | .tileRequestSleep _ => true
  | .handshakeAnswer _ _ => true
  | .handshakeBoundExpire _ _ => true
  | .powerEntryComplete entry => entry.wf
  | .wakeSource _ boot => boot.wf
  | .wakeStepDone _ _ _ => true
  | .wakeStepTimeout _ _ => true
  | .plLowerTimer _ => true
  | .plChangeComplete _ => true
  | .tilePlWrite _ _ _ => true
  | .legacyGateWrite _ => true
  | .clkswForce _ => true
  | .regulatorFailureInService _ => true
  | .rootPllLockLoss _ => true
  | .postStageEnd => true
  | .bistTestDone _ _ _ => true
  | .bistSliceStart _ => true
  | .bistSliceEnd _ _ _ => true
  | .bistRequest _ => true
  | .foregroundGroupStart => true
  | .foregroundCalDone _ m => m.wf
  | .calStart _ _ => true
  | .calRoundStart _ _ => true
  | .calVisitPhaseEnd _ _ results matched => decide (results.map Prod.fst).Nodup && decide (matched.map Prod.fst).Nodup
  | .calCorrectionUpdate _ => true
  | .calRecordStore _ => true
  | .imageWrite _ v => v.length = 1024
  | .imageErase _ => true
  | .imageVerify _ => true
  | .imageVerifyDone => true
  | .imageSelectNext _ => true
  | .imageConfirm _ => true
  | .ownerKeySubmit _ => true
  | .ownerPolicySubmit _ => true
  | .attestNonce _ => true
  | .attestReportDone => true
  | .cfgCandidateWrite _ v => v.length = 1024
  | .cfgCapture _ => true
  | .cfgLoadFactory _ => true
  | .cfgCheck _ => true
  | .cfgCheckDone => true
  | .cfgCommit _ => true
  | .cfgConfirm _ => true
  | .cfgConfirmDeadline => true
  | .cfgRollback _ => true
  | .coalesceWindowClose _ _ => true
  | .evReadCountWrite _ => true
  | .thermSensorSample _ _ _ _ _ => true
  | .thermTrip _ => true
  | .vinMonitor _ _ _ => true

end Sys2Proof
end

