-- ==== Sys2Proof/Tests/Slice0.lean ====
section
/-!
SUPPORT. Tests: for each clause of a statement with premises a state and operands that meet them, an ill-formed command for each
check of `Instr.wf`, and single commands with results worked out from the spec.
-/
set_option Elab.async false
open Sys2Proof Sys2Proof.Machine

/-- The device with an object's value. -/
def Sys2Proof.Machine.State.hold (s : State) (r : Reg) (i v : Nat) : State := { s with chip := s.chip.wr r i v }

/-- The device with a value in a row of an object. -/
def Sys2Proof.Machine.State.holdRow (s : State) (r : Reg) (i row v : Nat) : State := { s with chip := s.chip.wrRow r i row v }

namespace Sys2Proof.Tests
set_option maxRecDepth 100000
set_option Elab.async false

/-- A running device with tile 0 at level 0. -/
def wChip : Chip := { pwr := { rootOn := true, tiles := [(0, { st := .run, level := 0 })] }, boot := { phase := .running, applied := true } }

/-- The device with port 0 in a state. -/
def wPort (x : PortSt) : State := { chip := { wChip with ports := [(0, x)] } }

/-- The same at a root edge. -/
def wPortAt (r : Nat) (x : PortSt) : State := { chip := { (wPort x).chip with root := r } }

/-- Port 0 up in a W mode on four pairs. -/
def wUp : PortSt := { link := .up, mode := some .w25, lanes := [0, 1, 2, 3], rxLanes := [0, 1, 2, 3] }

/-- An infofield that carries segment 3, with its check. -/
def wSeg : BitVec 160 := ifSeal (BitVec.ofNat 160 (1 * 2 ^ 156 + 3 * 2 ^ 144 + 0x1234 * 2 ^ 16))

/-- A pair engine with retained coefficients of mode W25, not sealed. -/
def wRetained : PeSt := { store := [(0, 0x11), (1, 0x123), (4, 1)] }

/-- Port 0 disabled, with calibrated pair engines. -/
def wCal : State := { chip := { wChip with cal := [(0, { valid := true }), (1, { valid := true }), (2, { valid := true }), (3, { valid := true })] } }

/-- The device with both host lanes of port 0 up. -/
def wHost (x : PortSt := wUp) : State := (({ chip := { (wPort x).chip with pwr := { (wPort x).chip.pwr with hostPll := true } } } : State).hold .HL_STATUS 0 0xF).hold .HL_STATUS 1 0xF

/-- The device with its host PLL on. -/
def wLane : State := { chip := { (wPort {}).chip with pwr := { (wPort {}).chip.pwr with hostPll := true } } }

/-- The same with quad 0 formed as four ports, which share lanes. -/
def wShared : State := wLane.hold .QUAD_FORMATION 0 2

/-- A short frame with its FCS. -/
def wFrame : List Octet := sealFrame (padFrame (natToOctets 6 0x112233445566 ++ natToOctets 6 0xA0B0C0D0E0F0 ++ natToOctets 2 0x0800))

/-- A PAUSE frame of 5 quanta. -/
def wPause : List Octet := sealFrame (padFrame (natToOctets 6 0x0180C2000001 ++ natToOctets 6 5 ++ natToOctets 6 0x880800010005))

/-- A row of the timed-action table: kind, state, flags, target and value. -/
def wTaRow (kind st flags target value : Nat) : Nat :=
  setRowField 40 (setRowField 40 (setRowField 40 (setRowField 40 (setRowField 40 0 12 1 kind) 13 1 st) 14 2 flags) 20 5 target) 28 8 value

/-- The device with row 3 of the timed-action table. -/
def wTa (v : Nat) : State := { chip := { wChip with tb := 2 ^ 60 }.wrRow .TA_TABLE 0 3 v }

/-- A frame of port 0 in flow queue 0. -/
def wQd : Frame := { id := 7, port := 0, lq := 0, fq := 0, octets := wFrame, cells := [0], eligRoot := 0, read := true }

/-- Port 0 up with a frame that waits. -/
def wWait : State := { chip := { (wPort wUp).chip with queues := [(0, [wQd])], root := 1000000 } }

/-- A fragment on the wire. -/
def wFrag (pre : Bool) : Frag := { frame := wQd, start := 0, oct := 1000, total := 992, frag := 0, final := true, wire := 0, wireTb := 0, done := 9000, close := none, pre := pre }

/-- Wale port 0 in a state, with the fabric on. -/
def wWl (st : Nat) (x : WlSt := {}) (f : FabricSt := {}) : State :=
  (((({ chip := { wChip with wale := { f with ports := [(0, x)] } } } : State).hold .WL_STATE 0 st).hold .WALE_ENABLE 0 1).hold .WALE_ADDRESS 0 2)

/-- The words of a packet. -/
def wPk (dest src cls kind hops bseq : Nat) (payload : List Octet) : List WlWord := ({ dest := dest, src := src, cls := cls, kind := kind, hops := hops, bseq := bseq, payload := payload } : WlPacket).words

/-- The running device with the default protection map. -/
def wMap (x : PortSt := wUp) : State := { chip := { (wPort x).chip with boot := { wChip.boot with map := [0x40000FFF100012FF, 0xFC000FFF0000FFFF] } } }

/-- An address as an operand. -/
def wAddr (view : Nat) (r : Reg) (i : Nat) : BitVec 40 := BitVec.ofNat 40 (addrOf view r i)

/-- A DAP message of one operation. -/
def wMsg (txn head : Nat) (a : BitVec 40) (row : Nat) (v : List Octet := []) : List Octet :=
  natToOctets 2 0x1100 ++ natToOctets 2 txn ++ natToOctets 4 0x00000100 ++ natToOctets 2 (head * 256) ++ natToOctets 5 a.toNat ++ natToOctets 3 row
    ++ natToOctets 2 v.length ++ v ++ List.replicate (4 * cdiv v.length 4 - v.length) 0

/-- The device with a power state. -/
def wPwr (x : PowerSt) : State := { chip := { wChip with pwr := { x with tiles := (0, { st := .run, level := 0 }) :: x.tiles } } }

/-- The device with a tile's state, the root on. -/
def wTile (x : TileSt) : State := { chip := { wChip with pwr := { rootOn := true, tiles := [(0, x)] } } }

/-- A pair engine's calibration, on a device whose port 0 is up. -/
def wCalOf (x : CalSt) : State := { chip := { (wPort wUp).chip with cal := [(0, x)] } }

/-- A visit of sub-ADC 2 on port 0 up in W25. -/
def wVisit (ph : VisitPhase) (stand : Option Nat) : CalSt :=
  { valid := true, adc := { round := true, left := [3], visit := some { elem := 2, phase := ph, stand := stand, divider := (wPort wUp).chip.quadDivider 0 } } }

/-- Self-test in a state. -/
def wBist (x : BistSt) : State := { chip := { wChip with bist := x } }

/-- The configuration part in a state. -/
def wCfg (x : CfgSt) : State := { chip := { wChip with cfg := x } }

/-- The start-up part in a state, the device running. -/
def wBoot (x : BootSt) : State := { chip := { wChip with boot := { x with phase := .running, applied := true } } }

-- Premises of the statements, by statement and clause.

theorem test_laneFailureDropsOrBreaks :
    (let e : PeNo := 0
     let s : State := ({ chip := { wChip with pes := [(0, { uncorrRun := 16 })], ports := [(0, { link := .up, mode := some .w25, lanes := [0, 1, 2, 3], rxLanes := [0, 1, 2, 3] })] } } :
       State)
     let p := s.chip.portOf e
     s.chip.laneLive e = true ∧ (s.chip.port p).link = .up ∧ (s.chip.port p).lpi.partnerQuiet = false ∧
       (s.chip.port p).lpi.state = .awake ∧ 16 ≤ (s.chip.pe e).uncorrRun ∧ (s.chip.port p).downshiftAgreed = false) ∧
    (let e : PeNo := 0
     let s : State := (({ chip := { wChip with pes := [(0, { uncorrRun := 16 })], ports := [(0, { link := .up, mode := some .w25, lanes := [0, 1, 2, 3], rxLanes := [0, 1, 2, 3], downshiftAgreed := true })] } } :
       State)).hold .PORT_MIN_PAIRS 0 4
     let p := s.chip.portOf e
     let bad := (s.chip.port p).lanes.filter fun x => s.chip.criterion x
     let keep := (s.chip.port p).kept.filter fun x => !bad.contains x
     s.chip.laneLive e = true ∧ (s.chip.port p).link = .up ∧ (s.chip.port p).lpi.partnerQuiet = false ∧
       (s.chip.port p).lpi.state = .awake ∧ 16 ≤ (s.chip.pe e).uncorrRun ∧ (s.chip.port p).downshiftAgreed = true ∧ keep ≠ [] ∧
       keep.length < s.chip.rd .PORT_MIN_PAIRS p) ∧
    (let e : PeNo := 0
     let s : State := ({ chip := { wChip with pes := [(0, { uncorrRun := 16 })], ports := [(0, { link := .up, mode := some .w25, lanes := [0, 1, 2, 3], rxLanes := [0, 1, 2, 3], downshiftAgreed := true })] } } :
       State)
     let p := s.chip.portOf e
     let bad := (s.chip.port p).lanes.filter fun x => s.chip.criterion x
     let keep := (s.chip.port p).kept.filter fun x => !bad.contains x
     s.chip.laneLive e = true ∧ (s.chip.port p).link = .up ∧ (s.chip.port p).lpi.partnerQuiet = false ∧
       (s.chip.port p).lpi.state = .awake ∧ 16 ≤ (s.chip.pe e).uncorrRun ∧ e.val ∈ (s.chip.port p).kept ∧
       (s.chip.port p).downshiftAgreed = true ∧ keep ≠ [] ∧ s.chip.rd .PORT_MIN_PAIRS p ≤ keep.length) ∧
    (let e : PeNo := 0
     let r : Nat := 0
     let s : State := ({ chip := { wChip with pes := [(0, { auxAt := [5, 0] })], ports := [(0, { link := .up, mode := some .w25, lanes := [0, 1, 2, 3], rxLanes := [0, 1, 2, 3] })] } } :
       State).hold .AUXCRC_LIMIT 0 1
     let p := s.chip.portOf e
     s.chip.laneLive e = true ∧ (s.chip.port p).link = .up ∧ (s.chip.port p).lpi.partnerQuiet = false ∧
       (s.chip.port p).lpi.state = .awake ∧ (s.chip.pe e).auxAt[s.chip.rd .AUXCRC_LIMIT p]? = some r ∧
       s.chip.root < r + 16000000 ∧ (s.chip.port p).downshiftAgreed = false) ∧
    (let e : PeNo := 0
     let r : Nat := 0
     let s : State := (({ chip := { wChip with pes := [(0, { auxAt := [5, 0] })], ports := [(0, { link := .up, mode := some .w25, lanes := [0, 1, 2, 3], rxLanes := [0, 1, 2, 3], downshiftAgreed := true })] } } :
       State).hold .AUXCRC_LIMIT 0 1).hold .PORT_MIN_PAIRS 0 4
     let p := s.chip.portOf e
     let bad := (s.chip.port p).lanes.filter fun x => s.chip.criterion x
     let keep := (s.chip.port p).kept.filter fun x => !bad.contains x
     s.chip.laneLive e = true ∧ (s.chip.port p).link = .up ∧ (s.chip.port p).lpi.partnerQuiet = false ∧
       (s.chip.port p).lpi.state = .awake ∧ (s.chip.pe e).auxAt[s.chip.rd .AUXCRC_LIMIT p]? = some r ∧
       s.chip.root < r + 16000000 ∧ (s.chip.port p).downshiftAgreed = true ∧ keep ≠ [] ∧
       keep.length < s.chip.rd .PORT_MIN_PAIRS p) ∧
    (let e : PeNo := 0
     let r : Nat := 0
     let s : State := ({ chip := { wChip with pes := [(0, { auxAt := [5, 0] })], ports := [(0, { link := .up, mode := some .w25, lanes := [0, 1, 2, 3], rxLanes := [0, 1, 2, 3], downshiftAgreed := true })] } } :
       State).hold .AUXCRC_LIMIT 0 1
     let p := s.chip.portOf e
     let bad := (s.chip.port p).lanes.filter fun x => s.chip.criterion x
     let keep := (s.chip.port p).kept.filter fun x => !bad.contains x
     s.chip.laneLive e = true ∧ (s.chip.port p).link = .up ∧ (s.chip.port p).lpi.partnerQuiet = false ∧
       (s.chip.port p).lpi.state = .awake ∧ (s.chip.pe e).auxAt[s.chip.rd .AUXCRC_LIMIT p]? = some r ∧
       s.chip.root < r + 16000000 ∧ e.val ∈ (s.chip.port p).kept ∧ (s.chip.port p).downshiftAgreed = true ∧ keep ≠ [] ∧
       s.chip.rd .PORT_MIN_PAIRS p ≤ keep.length) := by
  refine ⟨?_, ?_, ?_, ?_, ?_, ?_⟩ <;> decide +kernel

theorem test_pairDropIsAgreedAndCarriedOut :
    (let e : PeNo := 0
     let msg : BitVec 128 := mgmtBuild 2 (7 * 2 ^ 96 + 3 * 2 ^ 92 + 9 * 2 ^ 80)
     let s : State := wPort { link := .up, mode := some .w25, lanes := [0, 1, 2, 3], rxLanes := [0, 1, 2, 3], downshiftAgreed := true }
     let p := s.chip.portOf e
     let f := dropFields msg
     let mine := (s.chip.port p).kept.filter fun x => !s.chip.criterion x
     let keep := (s.chip.keepIn p f.2.1).filter fun x => mine.contains x
     s.chip.laneLive e = true ∧ mgmtCheck msg = true ∧ mgmtType msg = 0x02 ∧ (s.chip.port p).lastReqIn ≠ some f.1 ∧
       (s.chip.port p).downshiftAgreed = true ∧ keep ≠ [] ∧ s.chip.rd .PORT_MIN_PAIRS p ≤ keep.length) ∧
    (let e : PeNo := 0
     let msg : BitVec 128 := mgmtBuild 2 (7 * 2 ^ 96 + 9 * 2 ^ 80)
     let s : State := wPort { link := .up, mode := some .w25, lanes := [0, 1, 2, 3], rxLanes := [0, 1, 2, 3], downshiftAgreed := true }
     let p := s.chip.portOf e
     let f := dropFields msg
     let mine := (s.chip.port p).kept.filter fun x => !s.chip.criterion x
     let keep := (s.chip.keepIn p f.2.1).filter fun x => mine.contains x
     s.chip.laneLive e = true ∧ (s.chip.port p).link = .up ∧ mgmtCheck msg = true ∧ mgmtType msg = 0x02 ∧
       (s.chip.port p).lastReqIn ≠ some f.1 ∧ keep.length < s.chip.rd .PORT_MIN_PAIRS p) ∧
    (let e : PeNo := 0
     let msg : BitVec 128 := mgmtBuild 3 (7 * 2 ^ 96 + 3 * 2 ^ 92 + 9 * 2 ^ 80)
     let r : DropReq := { id := 7, keep := [0, 1, 2], switchSeq := 70, cw := 70 }
     let s : State := wPort { link := .up, mode := some .w25, lanes := [0, 1, 2, 3], rxLanes := [0, 1, 2, 3], downshiftAgreed := true, dropReq := some { id := 7, keep := [0, 1, 2], switchSeq := 70, cw := 70 } }
     let p := s.chip.portOf e
     let f := dropFields msg
     let keep := (s.chip.keepIn p f.2.1).filter fun x => r.keep.contains x
     s.chip.laneLive e = true ∧ mgmtCheck msg = true ∧ mgmtType msg = 0x03 ∧ (s.chip.port p).dropReq = some r ∧
       (s.chip.port p).dropAcked = false ∧ r.id = f.1 ∧ keep ≠ [] ∧ s.chip.rd .PORT_MIN_PAIRS p ≤ keep.length) ∧
    (let p : PortNo := 0
     let r : DropReq := { id := 7, keep := [0, 1, 2], switchSeq := 70, cw := 70 }
     let s : State := wPort { link := .up, mode := some .w25, lanes := [0, 1, 2, 3], rxLanes := [0, 1, 2, 3], dropReq := some { id := 7, keep := [0, 1, 2], switchSeq := 70, cw := 70 }, dropAcked := true }
     ((s.chip.port p).link = .up ∨ (s.chip.port p).link = .trainT3) ∧ (s.chip.port p).dropReq = some r ∧
       (s.chip.port p).dropAns = none ∧ (s.chip.port p).dropAcked = true) ∧
    (let p : PortNo := 0
     let r : DropReq := { id := 7, keep := [0, 1, 2], switchSeq := 70, cw := 70 }
     let s : State := wPort { link := .up, mode := some .w25, lanes := [0, 1, 2, 3], rxLanes := [0, 1, 2, 3], dropAns := some { id := 7, keep := [0, 1, 2], switchSeq := 70, cw := 70 } }
     ((s.chip.port p).link = .up ∨ (s.chip.port p).link = .trainT3) ∧ (s.chip.port p).dropReq = none ∧ (s.chip.port p).dropAns =
       some r) ∧
    (let p : PortNo := 0
     let r : DropReq := { id := 7, keep := [0, 1, 2], switchSeq := 70, cw := 70 }
     let s : State := wPort { link := .up, mode := some .w25, lanes := [0, 1, 2, 3], rxLanes := [0, 1, 2, 3], dropReq := some { id := 7, keep := [0, 1, 2], switchSeq := 70, cw := 70 } }
     (s.chip.port p).link = .up ∧ (s.chip.port p).dropReq = some r ∧ (s.chip.port p).dropAns = none ∧
       (s.chip.port p).dropAcked = false) ∧
    (let p : PortNo := 0
     let r : DropReq := { id := 7, keep := [0, 1, 2], switchSeq := 70, cw := 70 }
     let s : State := wPort { link := .up, mode := some .w25, lanes := [0, 1, 2, 3], rxLanes := [0, 1, 2, 3], partnerDrop := some { id := 7, keep := [0, 1, 2], switchSeq := 70, cw := 70 } }
     ((s.chip.port p).link = .up ∨ (s.chip.port p).link = .trainT3) ∧ (s.chip.port p).partnerDrop = some r) := by
  refine ⟨?_, ?_, ?_, ?_, ?_, ?_, ?_⟩ <;> decide +kernel

theorem test_laneMessagesAndPrecoderUpdates :
    (let e : PeNo := 0
     let msg : BitVec 128 := mgmtBuild 1 (5 * 2 ^ 80)
     let s : State := wPort { link := .up, mode := some .w25, lanes := [0, 1, 2, 3], rxLanes := [0, 1, 2, 3] }
     s.chip.laneLive e = true ∧ mgmtCheck msg = true ∧ mgmtType msg = 0x01) ∧
    (let e : PeNo := 0
     let msg : BitVec 128 := mgmtBuild 4 (7 * 2 ^ 96 + 9)
     let u : PreOut := { id := 7, switchSeq := 9, acked := false }
     let s : State := ({ chip := { wChip with pes := [(0, { preOut := some { id := 7, switchSeq := 9, acked := false } })], ports := [(0, { link := .up, mode := some .w25, lanes := [0, 1, 2, 3], rxLanes := [0, 1, 2, 3] })] } } :
       State)
     s.chip.laneLive e = true ∧ mgmtCheck msg = true ∧ mgmtType msg = 0x04 ∧ bits msg.toNat 111 106 = 0 ∧ (s.chip.pe e).preOut =
       some u ∧ u.id = bits msg.toNat 119 112 ∧ u.switchSeq = bits msg.toNat 23 16) ∧
    (let e : PeNo := 0
     let msg : BitVec 128 := mgmtBuild 4 (7 * 2 ^ 96 + 31 * 2 ^ 90 + 0x1234 * 2 ^ 72 + 0x5678 * 2 ^ 56 + 9)
     let m : LineMode := .w25
     let s : State := wPort { link := .up, mode := some .w25, lanes := [0, 1, 2, 3], rxLanes := [0, 1, 2, 3] }
     let first := bits msg.toNat 111 106
     s.chip.laneLive e = true ∧ mgmtCheck msg = true ∧ mgmtType msg = 0x04 ∧ first ≠ 0 ∧ (s.chip.port (s.chip.portOf e)).mode =
       some m ∧ (s.chip.pe e).preIn = none) ∧
    (let e : PeNo := 0
     let taps : List (BitVec 16) := 17 :: List.replicate 31 0
     let m : LineMode := .w25
     let s : State := wPort { link := .up, mode := some .w25, lanes := [0, 1, 2, 3], rxLanes := [0, 1, 2, 3] }
     s.chip.up (s.chip.portOf e) = true ∧ s.chip.laneLive e = true ∧ (s.chip.pe e).dropped = false ∧
       (s.chip.port (s.chip.portOf e)).mode = some m ∧ taps.length = m.preTaps ∧ (s.chip.pe e).preOut = none ∧ (∀ r,
       (s.chip.pe e).preLast = some r → r + 16000000 ≤ s.chip.root) ∧ (∃ k, k < taps.length ∧
       16 < tapDiff ((taps.map BitVec.toNat).getD k 0) ((s.chip.pe e).reqTaps.getD k 0))) ∧
    (let e : PeNo := 0
     let u : PreIn := { id := 7, switchSeq := 9, taps := (List.range 32).map fun k => (k + 1, k) }
     let m : LineMode := .w25
     let s : State := ({ chip := { wChip with pes := [(0, { preIn := some { id := 7, switchSeq := 9, taps := (List.range 32).map fun k => (k + 1, k) } })], ports := [(0, { link := .up, mode := some .w25, lanes := [0, 1, 2, 3], rxLanes := [0, 1, 2, 3] })] } } :
       State)
     (s.chip.pe e).preIn = some u ∧ (s.chip.port (s.chip.portOf e)).mode = some m ∧ (u.taps.map Prod.fst =
       (List.range m.preTaps).map fun k => k + 1) ∧ s.chip.rdBool .PE_COEF_FREEZE e = false ∧ s.chip.up (s.chip.portOf e) = true) ∧
    (let e : PeNo := 0
     let u : PreIn := { id := 7, switchSeq := 9, taps := [] }
     let m : LineMode := .w25
     let s : State := ({ chip := { wChip with pes := [(0, { preIn := some { id := 7, switchSeq := 9, taps := [] } })], ports := [(0, { link := .up, mode := some .w25, lanes := [0, 1, 2, 3], rxLanes := [0, 1, 2, 3] })] } } :
       State)
     (s.chip.pe e).preIn = some u ∧ (s.chip.port (s.chip.portOf e)).mode = some m ∧ u.taps.length ≠ m.preTaps) ∧
    (let e : PeNo := 0
     let u : PreOut := { id := 7, switchSeq := 9, acked := true }
     let s : State := ({ chip := { wChip with pes := [(0, { preOut := some { id := 7, switchSeq := 9, acked := true }, newTaps := [1, 2] })], ports := [(0, { link := .up, mode := some .w25, lanes := [0, 1, 2, 3], rxLanes := [0, 1, 2, 3] })] } } :
       State)
     (s.chip.port (s.chip.portOf e)).mode ≠ none ∧ (s.chip.pe e).preOut = some u ∧ u.acked = true ∧ (s.chip.pe e).preSend = [] ∧
       s.chip.rdBool .PE_COEF_FREEZE e = false) ∧
    (let e : PeNo := 0
     let u : PreOut := { id := 7, switchSeq := 9, acked := false }
     let s : State := ({ chip := { wChip with pes := [(0, { preOut := some { id := 7, switchSeq := 9, acked := false }, newTaps := [1, 2] })], ports := [(0, { link := .up, mode := some .w25, lanes := [0, 1, 2, 3], rxLanes := [0, 1, 2, 3] })] } } :
       State)
     (s.chip.port (s.chip.portOf e)).mode ≠ none ∧ (s.chip.pe e).preOut = some u ∧ u.acked = false ∧
       s.chip.rdBool .PE_COEF_FREEZE e = false ∧ s.chip.up (s.chip.portOf e) = true) := by
  refine ⟨?_, ?_, ?_, ?_, ?_, ?_, ?_, ?_⟩ <;> decide +kernel

theorem test_coefficientStoreIsKept :
    (let e : PeNo := 0
     let s : State := wPort {}
     s.chip.refreshed e = true) ∧
    (let e : PeNo := 0
     let s : State := { chip := { wChip with pes := [(0, { store := [(4, 3), (5, 9)] })] } }
     s.chip.refreshed e = true) ∧
    (let t : TileNo := 0
     let s : State := (wPort {}).hold .PE_STORE_STATUS 1 15
     s.chip.rdInt .TILE_TEMP t ≤ 83 * 16) ∧
    (let e : PeNo := 0
     let w : BitVec 13 × BitVec 16 := (0x100, 77)
     let s : State := ({ chip := { wChip with pes := [(0, { adapting := true })], ports := [(0, { link := .up, mode := some .w25, lanes := [0, 1, 2, 3], rxLanes := [0, 1, 2, 3] })] } } :
       State)
     s.chip.adaptsWord e w.1.toNat = true) ∧
    (let e : PeNo := 0
     let v : BitVec 8 := 1
     let s : State := wPort { link := .up, mode := some .w25, lanes := [0, 1, 2, 3], rxLanes := [0, 1, 2, 3] }
     s.chip.asleep .PE_COEF_FREEZE e = false ∧ v.toNat ≤ 1 ∧ s.chip.up (s.chip.portOf e) = true) ∧
    (let e : PeNo := 0
     let v : BitVec 8 := 1
     let s : State := wPort {}
     s.chip.asleep .PE_COEF_FREEZE e = false ∧ v.toNat ≤ 1 ∧ s.chip.up (s.chip.portOf e) = false) ∧
    (let e : PeNo := 0
     let s : State := (wPort { link := .up, mode := some .w25, lanes := [0, 1, 2, 3], rxLanes := [0, 1, 2, 3] }).hold .PE_COEF_FREEZE 0 1
     s.chip.rdBool .PE_COEF_FREEZE e = true) := by
  refine ⟨?_, ?_, ?_, ?_, ?_, ?_, ?_⟩ <;> decide +kernel

theorem test_measurementsAndCapturesAreShown :
    (let e : PeNo := 0
     let m : WindowMeas := ⟨6000, 40, -300, 7, 9, -5, 12, 0, []⟩
     let k : LineMode := .w25
     let s : State := wPort { link := .up, mode := some .w25, lanes := [0, 1, 2, 3], rxLanes := [0, 1, 2, 3] }
     let p := s.chip.portOf e
     (s.chip.port p).link = .up ∧ (s.chip.port p).mode = some k ∧ (s.chip.port p).lanes.contains e.val = true ∧
       s.chip.rxQuiet p = false ∧ (k.refSnr ≤ m.snr ∨ (s.chip.pe e).lowWindows < 31)) ∧
    (let e : PeNo := 0
     let s : State := wPort { link := .up, mode := some .w25, lanes := [0, 1, 2, 3], rxLanes := [0, 1, 2, 3] }
     s.chip.asleep .PE_CAPTURE_TRIGGER e = false ∧ ((s.chip.port (s.chip.portOf e)).link =
       .trainT1 ∨ (s.chip.port (s.chip.portOf e)).link = .trainT2 ∨ (s.chip.port (s.chip.portOf e)).link =
       .trainT3 ∨ (s.chip.port (s.chip.portOf e)).link = .up) ∧ (s.chip.pe e).capturing = none) ∧
    (let e : PeNo := 0
     let s : State := wPort { link := .up, mode := some .w25, lanes := [0, 1, 2, 3], rxLanes := [0, 1, 2, 3] }
     s.chip.asleep .PE_CAPTURE_TRIGGER e = false ∧ ((s.chip.port (s.chip.portOf e)).link =
       .trainT1 ∨ (s.chip.port (s.chip.portOf e)).link = .trainT2 ∨ (s.chip.port (s.chip.portOf e)).link =
       .trainT3 ∨ (s.chip.port (s.chip.portOf e)).link = .up) ∧ (s.chip.pe e).capturing = none) ∧
    (let e : PeNo := 0
     let s : State := ({ chip := { wChip with pes := [(0, { capturing := some 1 })], ports := [(0, { link := .up, mode := some .w25, lanes := [0, 1, 2, 3], rxLanes := [0, 1, 2, 3] })] } } :
       State)
     s.chip.asleep .PE_CAPTURE_TRIGGER e = false ∧ ((s.chip.port (s.chip.portOf e)).link =
       .trainT1 ∨ (s.chip.port (s.chip.portOf e)).link = .trainT2 ∨ (s.chip.port (s.chip.portOf e)).link =
       .trainT3 ∨ (s.chip.port (s.chip.portOf e)).link = .up) ∧ (s.chip.pe e).capturing ≠ none) ∧
    (let e : PeNo := 0
     let k : Nat := 2
     let s : State := ({ chip := { wChip with pes := [(0, { capturing := some 2 })], ports := [(0, { link := .up, mode := some .w25, lanes := [0, 1, 2, 3], rxLanes := [0, 1, 2, 3] })] } } :
       State)
     (s.chip.pe e).capturing = some k) := by
  refine ⟨?_, ?_, ?_, ?_, ?_⟩ <;> decide +kernel

theorem test_negotiationAdvances :
    (let p : PortNo := 0
     let pg : BasePage := ⟨true, true⟩
     let s : State := wPort { link := .anAbility, proto := .dme }
     (s.chip.port p).link = .anAbility ∧ (s.chip.port p).proto = .dme ∧ pg.nextPage = true) ∧
    (let p : PortNo := 0
     let np : NextPages := { std := 8, w := .none, eee := false, ms := 1, seed := false }
     let m : LineMode := .t5g
     let s : State := wPort { link := .anNextPage }
     let partner := np.offered ((s.chip.port p).proto = .flp) (s.chip.rd .AN_PARTNER_ABILITY p)
     (s.chip.port p).link = .anNextPage ∧ (((s.chip.offers p).find? fun k => partner.testBit k.abilityBit) = some m) ∧ m.isW =
       false ∧ s.chip.levelInForce (tileOf p) m = true) ∧
    (let p : PortNo := 0
     let np : NextPages := { std := 0, w := .none, eee := false, ms := 1, seed := false }
     let s : State := wPort { link := .anNextPage }
     let partner := np.offered ((s.chip.port p).proto = .flp) (s.chip.rd .AN_PARTNER_ABILITY p)
     (s.chip.port p).link = .anNextPage ∧ (((s.chip.offers p).find? fun k => partner.testBit k.abilityBit) = none)) ∧
    (let p : PortNo := 0
     let s : State := (wPort { link := .anAbility, proto := .dme }).hold .QUAD_FORMATION 0 1
     (s.chip.port p).link = .anAbility ∧ s.chip.width p = 2 ∧ (s.chip.port p).proto = .dme ∧
       s.chip.rd .PORT_ABILITY p &&& 0x701 ≠ 0) ∧
    (let p : PortNo := 0
     let s : State := wPort { link := .anAbility }
     (s.chip.port p).link = .anAbility ∧ s.chip.mayRun p .t100 = true ∧ s.chip.levelInForce (tileOf p) .t100 = true) := by
  refine ⟨?_, ?_, ?_, ?_, ?_⟩ <;> decide +kernel

theorem test_trainingAdvances :
    (let p : PortNo := 0
     let m : LineMode := .w12
     let s : State := wPort { link := .trainT0, mode := some .w12, fast := true, lanes := [0, 1, 2, 3] }
     (s.chip.port p).link = .trainT0 ∧ (s.chip.port p).mode = some m ∧ ((s.chip.port p).fast =
       true ∨ s.chip.rdBool .TRAIN_CLASS_GATE p = false)) ∧
    (let p : PortNo := 0
     let r : T1Result := ⟨0, []⟩
     let s : State := wPort { link := .trainT1, mode := some .w25, lanes := [0, 1, 2, 3] }
     (s.chip.port p).link = .trainT1 ∧ (∀ e ∈ (s.chip.port p).lanes, (measOf r.meas p e).freq.natAbs ≤ 50000)) ∧
    (let p : PortNo := 0
     let conv : BitVec 4 := 15
     let r : T1Result := ⟨0, []⟩
     let s : State := wPort { link := .trainT1, mode := some .w25, lanes := [0, 1, 2, 3] }
     (s.chip.port p).link = .trainT1 ∧ (s.chip.port p).lanes ≠ [] ∧ (∀ e ∈ (s.chip.port p).lanes,
       conv.toNat.testBit (laneIndex p e) = true ∧ (measOf r.meas p e).freq.natAbs ≤ 50000)) ∧
    (let e : PeNo := 0
     let v : BitVec 160 := wSeg
     let s : State := wPort { link := .trainT2, mode := some .w25, lanes := [0, 1, 2, 3] }
     (s.chip.port (s.chip.portOf e)).link = .trainT2 ∧ (s.chip.port (s.chip.portOf e)).lanes.contains e.val = true ∧ ifCheck v =
       true ∧ ifField v 159 156 = 1 ∧ (s.chip.port (s.chip.portOf e)).ifAck = false) ∧
    (let e : PeNo := 0
     let v : BitVec 160 := ifBase false false false 0x12 4 0 false 15 0 3 77 9 1234 4
     let s : State := wPort { link := .trainT2, mode := some .w25, lanes := [0, 1, 2, 3], ownKeep := 15, nonce := 5 }
     let p := s.chip.portOf e
     (s.chip.port p).link = .trainT2 ∧ (s.chip.port p).lanes.contains e.val = true ∧ ifCheck v = true ∧ ifField v 159 156 = 0 ∧
       ifField v 155 154 = 2 ∧ (s.chip.port p).fast = false ∧ ifField v 63 52 ≠ 0 ∧ ifField v 138 138 = 0 ∧ ifField v 143 141 =
       s.chip.width p ∧ (∀ x ∈ (s.chip.port p).lanes, (s.chip.port p).ownKeep.testBit (laneIndex p x) = true) ∧
       ifField v 51 36 ≠ (s.chip.port p).nonce ∧ ifField v 153 153 = 0) ∧
    (let e : PeNo := 0
     let v : BitVec 160 := ifBase true true false 0x12 4 0 false 15 5 3 77 9 1234 4
     let s : State := wPort { link := .trainT3, mode := some .w25, lanes := [0, 1, 2, 3], rxLanes := [0, 1, 2, 3] }
     let p := s.chip.portOf e
     (s.chip.port p).link = .trainT3 ∧ (s.chip.port p).lanes.contains e.val = true ∧ ifCheck v = true ∧ ifField v 159 156 = 0 ∧
       ifField v 155 154 = 3 ∧ (ifField v 63 52 ≠ 0 ∨ (s.chip.port p).fast = true)) ∧
    (let p : PortNo := 0
     let s : State := wPort { link := .trainT3, mode := some .w25, lanes := [0, 1, 2, 3] }
     (s.chip.port p).link = .trainT3 ∧ (s.chip.port p).pam16 = false) ∧
    (let p : PortNo := 0
     let m : LineMode := .w25
     let r : Nat := 0
     let s : State := { chip := { wChip with ports := [(0, { link := .trainT3, pam16 := true, rxAt := some 0, mode := some .w25, lanes := [0, 1], rxLanes := [0, 1] })], pes := [(0, { t3Margin := some 800, t3Partner := some 768 }), (1, { t3Margin := some 900, t3Partner := some 768 })] } }
     (s.chip.port p).link = .trainT3 ∧ (s.chip.port p).pam16 = true ∧ (s.chip.port p).rxAt = some r ∧ r ≤ s.chip.root ∧
       (s.chip.port p).mode = some m ∧ (s.chip.port p).lanes ≠ [] ∧ (∀ e ∈ (s.chip.port p).lanes, (s.chip.pe e).t3Bad = false ∧
       (s.chip.rdInt .PE_RX_SKEW e).natAbs ≤ s.chip.frameEdges p ∧ ∃ a, a ∈ (s.chip.pe e).t3Margin ∧ 768 ≤ a) ∧
       (∀ e ∈ (s.chip.port p).lanes, ∃ b, b ∈ (s.chip.pe e).t3Partner ∧ 768 ≤ b)) ∧
    (let p : PortNo := 0
     let m : LineMode := .t10g
     let s : State := wPort { link := .stdTrain, mode := some .t10g }
     (s.chip.port p).link = .stdTrain ∧ (s.chip.port p).mode = some m) := by
  refine ⟨?_, ?_, ?_, ?_, ?_, ?_, ?_, ?_, ?_⟩ <;> decide +kernel

theorem test_failedTrainingIsCounted :
    (let p : PortNo := 0
     let s : State := wPort { link := .trainT2, gotBase := true, mode := some .w25, fast := true }
     (s.chip.port p).link = .trainT2 ∧ (s.chip.port p).gotBase = true ∧ (s.chip.port p).fast = true) ∧
    (let p : PortNo := 0
     let s : State := (wPort { link := .trainT2, gotBase := true, mode := some .w25, fast := false }).hold .DOWNSHIFT_ENABLE 0 0
     (s.chip.port p).link = .trainT2 ∧ (s.chip.port p).gotBase = true ∧ (s.chip.port p).fast = false ∧
       s.chip.rdBool .DOWNSHIFT_ENABLE p = false) ∧
    (let p : PortNo := 0
     let s : State := wPort { link := .trainT3, mode := some .w25, fast := true, lanes := [0, 1, 2, 3] }
     (s.chip.port p).link = .trainT3 ∧ (s.chip.port p).fast = true) ∧
    (let p : PortNo := 0
     let s : State := (wPort { link := .trainT3, mode := some .w25, fast := false, lanes := [0, 1, 2, 3] }).hold .DOWNSHIFT_ENABLE 0 0
     (s.chip.port p).link = .trainT3 ∧ (s.chip.port p).fast = false ∧ s.chip.rdBool .DOWNSHIFT_ENABLE p = false) ∧
    (let p : PortNo := 0
     let s : State := wPort { link := .trainT1, mode := some .w25, fast := true }
     ((s.chip.port p).link = .trainT1 ∨ (s.chip.port p).link = .trainT2 ∨ (s.chip.port p).link = .trainT3) ∧
       (s.chip.port p).fast = true) ∧
    (let p : PortNo := 0
     let s : State := (wPort { link := .trainT1, mode := some .w25, fast := false }).hold .DOWNSHIFT_ENABLE 0 0
     ((s.chip.port p).link = .trainT1 ∨ (s.chip.port p).link = .trainT2 ∨ (s.chip.port p).link = .trainT3) ∧
       (s.chip.port p).fast = false ∧ s.chip.rdBool .DOWNSHIFT_ENABLE p = false) ∧
    (let p : PortNo := 0
     let s : State := wPort { link := .trainT0, mode := some .w25, fast := true }
     (s.chip.port p).link = .trainT0 ∧ (s.chip.port p).fast = true) ∧
    (let p : PortNo := 0
     let s : State := (wPort { link := .stdTrain, mode := some .t10g }).hold .DOWNSHIFT_ENABLE 0 0
     (s.chip.port p).link = .stdTrain ∧ s.chip.rdBool .DOWNSHIFT_ENABLE p = false) := by
  refine ⟨?_, ?_, ?_, ?_, ?_, ?_, ?_, ?_⟩ <;> decide +kernel

theorem test_linkEndsAndStartsAgain :
    (let p : PortNo := 0
     let m : LineMode := .t10g
     let s : State := wPort { link := .up, mode := some .t10g, lanes := [0, 1, 2, 3] }
     (s.chip.port p).link = .up ∧ (s.chip.port p).mode = some m ∧ m.isW = false) ∧
    (let p : PortNo := 0
     let s : State := wPort { link := .brk, noFast := true }
     (s.chip.port p).link = .brk ∧ (s.chip.port p).noFast = true ∧ s.chip.forced p = none) ∧
    (let p : PortNo := 0
     let s : State := wPort { link := .fail }
     (s.chip.port p).link = .fail) := by
  refine ⟨?_, ?_, ?_⟩ <;> decide +kernel

theorem test_linkWritesAreCarriedOut :
    (let p : PortNo := 0
     let s : State := wPort { link := .anAbility }
     s.chip.asleep .TRAIN_RESTART p = false ∧ (s.chip.port p).link ≠ .disabled ∧ (s.chip.port p).link ≠ .held ∧
       (s.chip.port p).link ≠ .up) ∧
    (let p : PortNo := 0
     let s : State := wPort { link := .anAbility }
     s.chip.asleep .TRAIN_RESTART p = false ∧ (s.chip.port p).link ≠ .disabled ∧ (s.chip.port p).link ≠ .held ∧
       (s.chip.port p).link ≠ .up) ∧
    (let p : PortNo := 0
     let m : LineMode := .w25
     let s : State := { chip := { wChip with ports := [(0, { wUp with lanes := [0] })], pes := [(0, wRetained)] } }
     s.chip.asleep .TRAIN_RESTART p = false ∧ (s.chip.port p).link = .up ∧ (s.chip.port p).mode = some m ∧ m.isW = true ∧
       s.chip.holdsRetained p m = true ∧ s.chip.rdBool .FAST_RETRAIN_ENABLE p = true ∧ s.chip.levelInForce (tileOf p) m = true ∧
       (s.chip.port p).lanes ≠ [] ∧ (∀ e ∈ (s.chip.port p).lanes, e ∈ s.chip.pesOf p)) ∧
    (let p : PortNo := 0
     let v : BitVec 8 := 0x11
     let s : State := wPort { link := .anAbility }
     s.chip.asleep .PORT_MODE p = false ∧ ((v = 0 ∨ ∃ m ∈ LineMode.ranked, LineMode.ofCode v.toNat = some m ∧ (s.chip.width p =
       0 ∨ (m.runsOn (s.chip.width p) = true ∧ s.chip.levelAllows (tileOf p) m = true)))) ∧ (s.chip.port p).link ≠ .up ∧
       (s.chip.port p).link ≠ .held ∧ ((s.chip.port p).link = .disabled → (s.chip.port p).waitLevel = false)) ∧
    (let p : PortNo := 0
     let v : BitVec 8 := 0x13
     let s : State := wPort { link := .anAbility }
     s.chip.asleep .PORT_MODE p = false ∧ v ≠ 0 ∧ LineMode.ofCode v.toNat = none) ∧
    (let p : PortNo := 0
     let s : State := wPort { link := .disabled }
     s.chip.asleep .PORT_ABILITY p = false ∧ (s.chip.port p).link ≠ .up ∧ (s.chip.port p).link ≠ .held ∧ ((s.chip.port p).link =
       .disabled → (s.chip.port p).waitLevel = false)) ∧
    (let p : PortNo := 0
     let s : State := wPort wUp
     s.chip.asleep .PORT_ENABLE p = false ∧ s.chip.width p ≠ 0) ∧
    (let p : PortNo := 0
     let s : State := wCal
     s.chip.asleep .PORT_ENABLE p = false ∧ s.chip.width p ≠ 0 ∧ s.chip.gatesOn p = true ∧ (s.chip.port p).link = .disabled ∧
       s.chip.cfgApplied = true ∧ s.chip.calReady p = true ∧ s.chip.tileRuns (tileOf p) = true ∧ s.chip.forced p = none) ∧
    (let p : PortNo := 0
     let v : BitVec 8 := 2
     let s : State := wPort {}
     s.chip.asleep .PORT_ENABLE p = false ∧ 1 < v.toNat) ∧
    (let q : QuadNo := 0
     let v : BitVec 8 := 2
     let s : State := (wPort wUp).hold .PORT_ENABLE 0 0
     s.chip.asleep .QUAD_FORMATION q = false ∧ v.toNat ≤ 2 ∧ (∀ p ∈ s.chip.portsOfQuad q, s.chip.rdBool .PORT_ENABLE p = false)) := by
  refine ⟨?_, ?_, ?_, ?_, ?_, ?_, ?_, ?_, ?_, ?_⟩ <;> decide +kernel

theorem test_cancellerSlotsFollowTheirStates :
    (let v : PeNo := 0
     let s : State := ({ chip := { wChip with ports := [(0, wUp), (4, wUp)] } } : State)
     let p := s.chip.portOf v
     s.chip.up p = true ∧ s.chip.ancMode v = true ∧ s.chip.rdBool .ANC_ENABLE p = true ∧ s.chip.tileRuns (tileOf v) = true ∧
       (s.chip.port p).lanes.contains v.val = true ∧ (s.chip.ancOf v).passing = false ∧ (∀ r, (s.chip.ancOf v).startAt =
       some r → r + 16000 * (1000 * s.chip.rd .ANC_SCAN_PERIOD) ≤ s.chip.root)) ∧
    (let v : PeNo := 0
     let s : State := ({ chip := { wChip with ports := [(0, wUp), (4, wUp)], anc := [(0, { slots := [(2, {})], passing := true })] } } :
       State)
     (s.chip.ancOf v).passing = true) ∧
    (let v : PeNo := 0
     let x : Candidate := ⟨4, -100, 3⟩
     let s : State := ({ chip := { wChip with ports := [(0, wUp), (4, wUp)], anc := [(0, { passing := true })] } } : State)
     (s.chip.ancOf v).passing = true ∧ (s.chip.ancOf v).slots = [] ∧ s.chip.reach v x.pe = true ∧
       s.chip.rd .BIST_STATE_PE x.pe ≠ 2 ∧ (s.chip.tile (tileOf x.pe)).st ≠ .isolated ∧
       s.chip.rdInt .ANC_ADMIT ≤ contribution x.x) ∧
    (let v : PeNo := 0
     let k : Fin 8 := 2
     let x : Int := -100
     let s : State := ({ chip := { wChip with ports := [(0, wUp), (4, { wUp with lanes := [4, 5, 6, 7], rxLanes := [4, 5, 6, 7] })], anc := [(0, { slots := [(2, { state := .probation, neighbour := 4, mode := LineMode.code .w25 })] })] } } :
       State)
     ((s.chip.ancOf v).slot k).state = .probation ∧ s.chip.slotAdapts v k = true ∧ s.chip.rdInt .ANC_ADMIT ≤ contribution x) ∧
    (let v : PeNo := 0
     let k : Fin 8 := 2
     let x : Int := -30000
     let s : State := ({ chip := { wChip with ports := [(0, wUp), (4, { wUp with lanes := [4, 5, 6, 7], rxLanes := [4, 5, 6, 7] })], anc := [(0, { slots := [(2, { state := .probation, neighbour := 4, mode := LineMode.code .w25 })] })] } } :
       State)
     ((s.chip.ancOf v).slot k).state = .probation ∧ s.chip.slotAdapts v k = true ∧ contribution x < s.chip.rdInt .ANC_ADMIT ∧
       ((s.chip.ancOf v).slot k).pinned = false) ∧
    (let v : PeNo := 0
     let k : Fin 8 := 2
     let s : State := ({ chip := { wChip with ports := [(0, wUp), (4, { wUp with lanes := [4, 5, 6, 7] })], anc := [(0, { slots := [(2, { state := .frozen, neighbour := 4, mode := LineMode.code .w25 })] })] } } :
       State)
     let x := (s.chip.ancOf v).slot k
     x.state = .frozen ∧ s.chip.signals x.neighbour x.mode = true ∧ s.chip.up (s.chip.portOf x.neighbour) = true) ∧
    (let v : PeNo := 0
     let k : Fin 8 := 2
     let s : State := ({ chip := { wChip with ports := [(0, wUp)], anc := [(0, { slots := [(2, { state := .frozen, neighbour := 4 })] })] } } :
       State)
     let x := (s.chip.ancOf v).slot k
     x.state = .frozen ∧ s.chip.up (s.chip.portOf x.neighbour) = false ∧ s.chip.tileRuns (tileOf x.neighbour) = true ∧
       s.chip.pwr.state = .active ∧ x.pinned = false) := by
  refine ⟨?_, ?_, ?_, ?_, ?_, ?_, ?_⟩ <;> decide +kernel

theorem test_cancellerWritesAreCarriedOut :
    (let v : PeNo := 0
     let row : Nat := 2
     let x : BitVec 64 := BitVec.ofNat 64 (2 ^ 60 + 8 * 2 ^ 48)
     let s : State := ({ chip := { wChip with ports := [(0, wUp), (4, wUp)], anc := [(0, { slots := [(2, { state := .active, neighbour := 4 })] })] } } :
       State)
     let n := bits x.toNat 56 48
     row < 8 ∧ s.chip.asleep .ANC_SLOT v = false ∧ x.toNat.testBit 60 = true ∧ s.chip.reach v n = true ∧
       (∀ j ∈ (s.chip.ancOf v).naming n, j = row)) ∧
    (let v : PeNo := 0
     let row : Nat := 2
     let x : BitVec 64 := 0
     let s : State := ({ chip := { wChip with ports := [(0, wUp), (4, wUp)], anc := [(0, { slots := [(2, { state := .active, neighbour := 4, pinned := true })] })] } } :
       State)
     row < 8 ∧ s.chip.asleep .ANC_SLOT v = false ∧ x.toNat.testBit 60 = false) ∧
    (let row : Nat := 8
     8 ≤ row) ∧
    (let p : PortNo := 0
     let s : State := ({ chip := { wChip with ports := [(0, wUp), (4, wUp)] } } : State)
     s.chip.asleep .ANC_ENABLE p = false) ∧
    (let p : PortNo := 0
     let s : State := ({ chip := { wChip with ports := [(0, wUp), (4, wUp)], anc := [(0, { slots := [(2, { state := .active, neighbour := 4 })] })] } } :
       State)
     s.chip.asleep .ANC_ENABLE p = false) ∧
    (let s : State := ({ chip := { wChip with ports := [(0, wUp), (4, wUp)], anc := [(0, { slots := [(2, { state := .active, neighbour := 4 })] })] } } :
       State)
     s.chip.asleep .ANC_MAP_CLEAR 0 = false) ∧
    (let x : BitVec 8 := 0
     let s : State := ({ chip := { wChip with ports := [(0, wUp), (4, wUp)] } } : State)
     s.chip.asleep .ANC_MAP_PERSIST 0 = false ∧ x.toNat ≤ 1) ∧
    (let s : State := ({ chip := { wChip with ports := [(0, wUp), (4, wUp)], anc := [(0, { slots := [(2, { state := .active, neighbour := 4 })] })] } } :
       State).hold .ANC_MAP_STATUS 0 4
     s.chip.rdBool .ANC_MAP_PERSIST = true ∧ s.chip.rdBit .ANC_MAP_STATUS 2 = true) := by
  refine ⟨?_, ?_, ?_, ?_, ?_, ?_, ?_, ?_⟩ <;> decide +kernel

theorem test_sleepIsAgreedByMessages :
    (let p : PortNo := 0
     let s : State := ((wPortAt 16000000000 { wUp with mode := some .w25, lpi := { partnerW := true, partnerEee := true, localW := true, localEee := true } }).hold .LPI_ENABLE 0 1)
     s.chip.maySleep p = true ∧ (∀ r, (s.chip.port p).lpi.backFrom = some r → r + 1600000 ≤ s.chip.root) ∧ s.chip.runsW p = true) ∧
    (let p : PortNo := 0
     let s : State := ((wPortAt 16000000000 { wUp with mode := some .t10g, lpi := { partnerW := true, partnerEee := true, localW := true, localEee := true } }).hold .LPI_ENABLE 0 1)
     s.chip.maySleep p = true ∧ (∀ r, (s.chip.port p).lpi.backFrom = some r → r + 1600000 ≤ s.chip.root) ∧ s.chip.runsW p =
       false) ∧
    (let p : PortNo := 0
     let msg : BitVec 128 := mgmtBuild 5 (1 * 2 ^ 96 + 7 * 2 ^ 88 + 33 * 2 ^ 80 + LineMode.code .w25 * 2 ^ 72)
     let lane : Fin 4 := 3
     let s : State := wPort { wUp with mode := some .w25, lpi := { state := .sleep, asked := true } }
     s.chip.lpiMsgOk p msg 1 = true ∧ lane.val < (s.chip.port p).rxLanes.length ∧
       (s.chip.port p).lpi.reqIn ≠ some (lpiFields msg).2.1 ∧ (s.chip.port p).lpi.state = .sleep ∧ (s.chip.port p).lpi.asked =
       true) ∧
    (let p : PortNo := 0
     let msg : BitVec 128 := mgmtBuild 5 (1 * 2 ^ 96 + 7 * 2 ^ 88 + 33 * 2 ^ 80 + LineMode.code .w25 * 2 ^ 72)
     let lane : Fin 4 := 3
     let s : State := ((wPortAt 16000000000 { wUp with mode := some .w25, lpi := { partnerW := true, partnerEee := true, localW := true, localEee := true } }).hold .LPI_ENABLE 0 1)
     s.chip.lpiMsgOk p msg 1 = true ∧ lane.val < (s.chip.port p).rxLanes.length ∧
       (s.chip.port p).lpi.reqIn ≠ some (lpiFields msg).2.1 ∧ s.chip.maySleep p = true) ∧
    (let p : PortNo := 0
     let msg : BitVec 128 := mgmtBuild 5 (1 * 2 ^ 96 + 7 * 2 ^ 88 + 33 * 2 ^ 80 + LineMode.code .w25 * 2 ^ 72)
     let lane : Fin 4 := 3
     let s : State := wPort { wUp with mode := some .w25, lpi := {} }
     s.chip.lpiMsgOk p msg 1 = true ∧ lane.val < (s.chip.port p).rxLanes.length ∧
       (s.chip.port p).lpi.reqIn ≠ some (lpiFields msg).2.1 ∧ s.chip.maySleep p = false ∧ (s.chip.port p).lpi.state ≠ .sleep) ∧
    (let p : PortNo := 0
     let msg : BitVec 128 := mgmtBuild 5 (2 * 2 ^ 96 + 7 * 2 ^ 88 + 33 * 2 ^ 80 + LineMode.code .w25 * 2 ^ 72)
     let s : State := wPort { wUp with mode := some .w25, lpi := { state := .sleep, asked := true, reqId := 7 } }
     s.chip.lpiMsgOk p msg 2 = true ∧ (s.chip.port p).lpi.state = .sleep ∧ (s.chip.port p).lpi.asked = true ∧
       (s.chip.port p).lpi.reqId = (lpiFields msg).2.1) ∧
    (let p : PortNo := 0
     let msg : BitVec 128 := mgmtBuild 5 (3 * 2 ^ 96 + 7 * 2 ^ 88 + 33 * 2 ^ 80 + LineMode.code .w25 * 2 ^ 72)
     let s : State := wPort { wUp with mode := some .w25, lpi := { state := .sleep, asked := true, reqId := 7 } }
     s.chip.lpiMsgOk p msg 3 = true ∧ (s.chip.port p).lpi.state = .sleep ∧ (s.chip.port p).lpi.asked = true ∧
       (s.chip.port p).lpi.reqId = (lpiFields msg).2.1) ∧
    (let p : PortNo := 0
     let b : Bool := true
     let s : State := wPort { wUp with mode := some .t10g, lpi := {} }
     s.chip.up p = true ∧ s.chip.runsW p = false ∧ (b = true ∨ (s.chip.port p).mode ≠ some .t1000)) := by
  refine ⟨?_, ?_, ?_, ?_, ?_, ?_, ?_, ?_⟩ <;> decide +kernel

theorem test_lowPowerIdlePhasesFollow :
    (let p : PortNo := 0
     let s : State := wPort { wUp with mode := some .w25, lpi := { state := .sleep, asked := true, acked := true } }
     s.chip.up p = true ∧ (s.chip.port p).lpi.state = .sleep ∧ ((s.chip.port p).lpi.asked = false ∨ (s.chip.port p).lpi.acked =
       true) ∧ (s.chip.port p).lpi.due = none ∧ (s.chip.port p).lpi.plan = none ∧
       ((s.chip.port p).mode ≠ some .t1000 ∨ (s.chip.port p).lpi.partnerQuiet = true)) ∧
    (let p : PortNo := 0
     let s : State := wPort { wUp with mode := some .w25, lpi := { state := .sleep, asked := true } }
     s.chip.up p = true ∧ (s.chip.port p).lpi.state = .sleep ∧ (s.chip.port p).lpi.asked = true ∧ (s.chip.port p).lpi.acked =
       false) ∧
    (let p : PortNo := 0
     let q : Nat := 5
     let s : State := wPort { wUp with mode := some .w25, lpi := { partnerSeq := some 5 } }
     s.chip.up p = true ∧ (s.chip.port p).lpi.partnerSeq = some q ∧ (s.chip.port p).lpi.partnerQuiet = false) ∧
    (let p : PortNo := 0
     let s : State := wPort { wUp with mode := some .w25, lpi := { state := .quiet } }
     (s.chip.port p).lpi.state = .quiet ∧ (s.chip.port p).lpi.due = none ∧ (s.chip.port p).lpi.plan = none) ∧
    (let p : PortNo := 0
     let s : State := wPort { wUp with mode := some .w25, lpi := { state := .refresh } }
     (s.chip.port p).lpi.state = .refresh ∧ (s.chip.port p).lpi.charRun = false) ∧
    (let p : PortNo := 0
     let margins : List (Option Int) := [some 5000, some 5000, some 5000, some 5000]
     let s : State := wPort { wUp with mode := some .w25, lpi := { partnerQuiet := true, miss := 1 } }
     s.chip.up p = true ∧ (s.chip.port p).lpi.partnerQuiet = true ∧ margins.length = (s.chip.port p).lanes.length ∧
       (∀ m ∈ margins, ∃ x, m = some x ∧ 0 ≤ x ∧ s.chip.rdInt .LPI_REFRESH_MIN_MARGIN p ≤ x)) ∧
    (let p : PortNo := 0
     let margins : List (Option Int) := [some 5000, none, some 5000, some 5000]
     let s : State := wPort { wUp with mode := some .w25, lpi := { partnerQuiet := true, miss := 1 } }
     s.chip.up p = true ∧ (s.chip.port p).lpi.partnerQuiet = true ∧ margins.length = (s.chip.port p).lanes.length ∧
       none ∈ margins ∧ 1 ≤ (s.chip.port p).lpi.miss) ∧
    (let p : PortNo := 0
     let s : State := wPort { wUp with mode := some .w25, lpi := { state := .quiet } }
     s.chip.up p = true ∧ s.chip.runsW p = true ∧ ((s.chip.port p).lpi.state = .quiet ∨ (s.chip.port p).lpi.state = .refresh)) ∧
    (let p : PortNo := 0
     let s : State := wPort { wUp with mode := some .w25, lpi := { state := .quiet } }
     s.chip.up p = true ∧ s.chip.runsW p = true ∧ ((s.chip.port p).lpi.state = .quiet ∨ (s.chip.port p).lpi.state = .refresh)) ∧
    (let p : PortNo := 0
     let s : State := wPort { wUp with mode := some .w25, lpi := { state := .wake, asked := true } }
     s.chip.up p = true ∧ (s.chip.port p).lpi.state = .wake ∧ (s.chip.port p).lpi.failed = []) ∧
    (let p : PortNo := 0
     let s : State := wPort { wUp with mode := some .w25, lpi := { partnerQuiet := true } }
     s.chip.up p = true) ∧
    (let p : PortNo := 0
     let v : BitVec 8 := 0
     let s : State := wPort { wUp with mode := some .w25, lpi := { state := .quiet } }
     s.chip.asleep .LPI_ENABLE p = false ∧ v.toNat ≤ 1) := by
  refine ⟨?_, ?_, ?_, ?_, ?_, ?_, ?_, ?_, ?_, ?_, ?_, ?_⟩ <;> decide +kernel

theorem test_cableTestsGiveTheirResults :
    (let p : PortNo := 0
     let s : State := (wPort {}).hold .LEGACY_GATE 0 (2 ^ 32 - 1)
     s.chip.asleep .TDR_START p = false ∧ (s.chip.port p).link = .disabled ∧ s.chip.tileRuns (tileOf p) = true ∧
       s.chip.width p ≠ 0 ∧ s.chip.rdBit .LEGACY_GATE (16 + tileOf p) = true ∧ s.chip.diag.tdr.get? p.val = none) ∧
    (let p : PortNo := 0
     let s : State := wPort wUp
     s.chip.asleep .TDR_START p = false ∧ (s.chip.port p).link ≠ .disabled) ∧
    (let p : PortNo := 0
     let t : Nat := 7
     let s : State := ({ chip := { (wPort {}).chip with diag := { tdr := [(0, 7)] } } } : State)
     s.chip.diag.tdr.get? p.val = some t) ∧
    (let e : PeNo := 0
     let m : LineMode := .t10g
     let s : State := wPort { wUp with mode := some .t10g }
     s.chip.asleep .REFLECT_TRIGGER e = false ∧ s.chip.reflMode e = some m ∧ s.chip.diag.refl.get? e.val = none) ∧
    (let e : PeNo := 0
     let m : LineMode := .t10g
     let s : State := wPort { wUp with mode := some .t10g }
     s.chip.asleep .REFLECT_TRIGGER e = false ∧ s.chip.reflMode e = some m ∧ s.chip.diag.refl.get? e.val = none) ∧
    (let e : PeNo := 0
     let run : ReflRun := ⟨[], true⟩
     let m : LineMode := .t10g
     let s : State := ({ chip := { (wPort { wUp with mode := some .t10g }).chip with diag := { refl := [(0, ⟨[], true⟩)] } } } :
       State)
     s.chip.diag.refl.get? e.val = some run ∧ (s.chip.port (s.chip.portOf e)).mode = some m) ∧
    (let e : PeNo := 0
     let rows : List (BitVec 16) := []
     let run : ReflRun := ⟨[], true⟩
     let m : LineMode := .t10g
     let s : State := ({ chip := { (wPort { wUp with mode := some .t10g }).chip with diag := { refl := [(0, ⟨[], true⟩)] } } } :
       State)
     s.chip.diag.refl.get? e.val = some run ∧ (s.chip.port (s.chip.portOf e)).mode = some m ∧ rows.length ≠ m.echoTaps) ∧
    (let e : PeNo := 0
     let m : LineMode := .t10g
     let s : State := (wPortAt 160000000000 { wUp with mode := some .t10g }).hold .REFLECT_WATCH_PERIOD 0 10
     let p := s.chip.portOf e
     s.chip.reflMode e = some m ∧ s.chip.rd .REFLECT_WATCH_PERIOD p ≠ 0 ∧ s.chip.rdBool .PE_COEF_FREEZE e = false ∧
       (s.chip.port p).lpi.state = .awake ∧ s.chip.rxQuiet p = false ∧ (s.chip.port p).lpi.upFrom + 160000000000 ≤ s.chip.root ∧
       s.chip.diag.watched.contains e.val = false) := by
  refine ⟨?_, ?_, ?_, ?_, ?_, ?_, ?_, ?_⟩ <;> decide +kernel

theorem test_monitorsAndIndicatorsAreKept :
    (let p : PortNo := 0
     let m : LineMode := .w25
     let s : State := (wPort wUp).hold .CW_UNCORRECTABLE 1 100000
     s.chip.up p = true ∧ (s.chip.port p).mode = some m ∧ m.isW = true ∧ s.chip.rd .LQ_UNCORR_WARN p ≠ 0 ∧
       (∃ e ∈ (s.chip.port p).lanes,
       s.chip.rd .LQ_UNCORR_WARN p ≤ (s.chip.rd .CW_UNCORRECTABLE e + 2 ^ 32 - (s.chip.pe e).uncorrAt) % 2 ^ 32)) ∧
    (let p : PortNo := 0
     let s : State := wPort { wUp with mode := some .t100 }
     s.chip.up p = true ∧ (s.chip.port p).mode = some .t100 ∧ s.chip.width p ≠ 0) ∧
    (let p : PortNo := 0
     let s : State := (wPort wUp).hold .LQ_STATUS 0 0x1F
     s.chip.asleep .LQ_RESET p = false) ∧
    (let s : State := wPort wUp
     s.chip.asleep .PLANT_MAP_BUILD 0 = false ∧ s.chip.diag.plant = none) ∧
    (let s : State := ({ chip := { (wPort wUp).chip with diag := { plant := some ([5], 1) } } } : State)
     s.chip.asleep .PLANT_MAP_BUILD 0 = false ∧ s.chip.diag.plant ≠ none) ∧
    (let rows : List Nat := [5, 6]
     let ver : Nat := 3
     let s : State := ({ chip := { (wPort wUp).chip with diag := { plant := some ([5, 6], 3) } } } : State)
     s.chip.diag.plant = some (rows, ver)) := by
  refine ⟨?_, ?_, ?_, ?_, ?_, ?_⟩ <;> decide +kernel

theorem test_hostFramesAreTaken :
    (let p : PortNo := 0
     let f : HostFrame := ⟨[], wFrame, true, 0xD5⟩
     let s : State := wHost
     s.chip.hostUp p = true ∧ f.error = true) ∧
    (let p : PortNo := 0
     let f : HostFrame := ⟨[], wPause, false, 0xD5⟩
     let q : Nat := 5
     let s : State := (wHost).hold .HOST_PAUSE_HONOUR 0 1
     s.chip.hostUp p = true ∧ f.error = false ∧ octNat f.octets 12 2 = 0x8808 ∧ s.chip.rdBool .HOST_PAUSE_HONOUR p = true ∧
       pauseQuanta f.octets = some (some q)) ∧
    (let p : PortNo := 0
     let s : State := (wHost).hold .HL_PORT_STATUS 0 0x30
     (s.chip.hostOf p).pauseUntil ≤ s.chip.root) ∧
    (let p : PortNo := 0
     let s : State := wHost
     s.chip.hostUp p = true) := by
  refine ⟨?_, ?_, ?_, ?_⟩ <;> decide +kernel

theorem test_receivedFramesReachTheHost :
    (let p : PortNo := 0
     let f : LineFrame := ⟨wFrame, 1000, false, .express, false⟩
     let s : State := wHost
     s.chip.up p = true ∧ f.kind = .express ∧ (s.chip.rdBool .DAP_LINE_ENABLE p = false ∨ s.chip.isDap f.octets = false) ∧
       f.error = false ∧ f.full = false ∧ f.octets.length ≤ s.chip.rd .RX_MAX_FRAME p ∧
       s.chip.fifoOctets p + f.octets.length ≤ 32768 ∧ s.chip.rdBool .RX_RED_DISCARD p = false) ∧
    (let p : PortNo := 0
     let f : LineFrame := ⟨wFrame.set 3 0x77, 1000, false, .express, false⟩
     let s : State := wHost
     s.chip.up p = true ∧ f.kind = .express ∧ (s.chip.rdBool .DAP_LINE_ENABLE p = false ∨ s.chip.isDap f.octets = false) ∧
       f.error = false ∧ fcsOk f.octets = false ∧ f.full = false ∧ f.octets.length ≤ s.chip.rd .RX_MAX_FRAME p ∧
       s.chip.fifoOctets p + f.octets.length ≤ 32768) ∧
    (let p : PortNo := 0
     let f : LineFrame := ⟨wFrame, 1000, false, .express, false⟩
     let s : State := (wHost).hold .RX_MAX_FRAME 0 60
     s.chip.up p = true ∧ f.kind = .express ∧ (s.chip.rdBool .DAP_LINE_ENABLE p = false ∨ s.chip.isDap f.octets = false) ∧
       f.error = false ∧ f.full = false ∧ s.chip.rd .RX_MAX_FRAME p < f.octets.length ∧
       s.chip.fifoOctets p + f.octets.length ≤ 32768) ∧
    (let p : PortNo := 0
     let f : LineFrame := ⟨wFrame, 1000, true, .express, false⟩
     let s : State := wHost
     s.chip.up p = true ∧ f.kind = .express ∧ (s.chip.rdBool .DAP_LINE_ENABLE p = false ∨ s.chip.isDap f.octets = false) ∧
       f.error = false ∧ f.full = true) ∧
    (let p : PortNo := 0
     let x : RxFrame := ⟨wFrame, 7, false, 0⟩
     let l : List RxFrame := []
     let s : State := ({ chip := { (wHost).chip with host := [(0, { fifo := [⟨wFrame, 7, false, 0⟩] })] } } : State)
     s.chip.hostOut p = true ∧ s.chip.rdBit .HL_PORT_STATUS 4 p = false ∧ (s.chip.hostOf p).pfcNew = [] ∧
       (s.chip.hostOf p).dapOut = [] ∧ (s.chip.hostOf p).fifo = x :: l ∧ s.chip.up p = true ∧ x.correct = false) ∧
    (let p : PortNo := 0
     let x : RxFrame := ⟨wFrame, 7, false, 0⟩
     let l : List RxFrame := []
     let s : State := ({ chip := { (wHost).chip with host := [(0, { dapOut := [⟨wFrame, 7, false, 0⟩] })] } } : State)
     s.chip.hostOut p = true ∧ s.chip.rdBit .HL_PORT_STATUS 4 p = false ∧ (s.chip.hostOf p).pfcNew = [] ∧
       (s.chip.hostOf p).dapOut = x :: l) ∧
    (let p : PortNo := 0
     let s : State := ({ chip := { (wHost).chip with host := [(0, { pfcNew := [3] })] } } : State)
     s.chip.hostOut p = true ∧ (s.chip.hostOf p).pfcNew ≠ []) ∧
    (let p : PortNo := 0
     let prio : Fin 8 := 2
     let v : Fin 8 := 2
     let s : State := (wHost).hold .PFC_STATUS 0 4
     s.chip.rdBit .PFC_STATUS v p = true ∧ s.chip.pfcPrio p v = prio.val) := by
  refine ⟨?_, ?_, ?_, ?_, ?_, ?_, ?_, ?_⟩ <;> decide +kernel

theorem test_hostLanesFollowTheirConditions :
    (let h : LaneNo := 0
     let s : State := (wLane).hold .HL_STATUS 0 0x17
     s.chip.pwr.hostPll = true ∧ s.chip.laneLocked h = true ∧ s.chip.rdBool .HL_FORCE_FAIL h = false ∧
       s.chip.rd .BIST_STATE_HLANE h ≠ 2) ∧
    (let h : LaneNo := 0
     let s : State := (wLane).hold .HL_STATUS 0 1
     s.chip.pwr.hostPll = true ∧ s.chip.laneLocked h = false ∧ s.chip.laneFault h = false ∧ s.chip.rd .HL_PRBS_CHK h = 0) ∧
    (let h : LaneNo := 0
     let v : BitVec 8 := 1
     let s : State := wHost
     s.chip.asleep .HL_FORCE_FAIL h = false ∧ v.toNat ≤ 1) ∧
    (let s : State := wHost
     s.chip.pwr.hostPll = true) ∧
    (let h : LaneNo := 0
     let b : BitVec 66 := wShared.chip.lsMarker 0 9
     let s : State := wShared.hold .HL_STATUS 0 0x2F
     s.chip.laneShared h = true ∧ lsMarkerOk b = true ∧ (s.chip.rdBit .HL_STATUS 5 h = true ∨ (s.chip.laneOf h).period =
       some ((lsField b 18 8 + 255) % 256))) ∧
    (let h : LaneNo := 0
     let b : BitVec 66 := 5
     let s : State := wShared.hold .HL_STATUS 0 0x2F
     s.chip.laneShared h = true ∧ lsMarkerOk b = false ∧ s.chip.rdBit .HL_STATUS 5 h = true ∧ (s.chip.laneOf h).bad < 2) ∧
    (let h : LaneNo := 0
     let b : BitVec 66 := 5
     let s : State := ({ chip := { (wShared.hold .HL_STATUS 0 0x2F).chip with hlane := [(0, { bad := 2 })] } } : State)
     s.chip.laneShared h = true ∧ lsMarkerOk b = false ∧ s.chip.rdBit .HL_STATUS 5 h = true ∧ 2 ≤ (s.chip.laneOf h).bad) ∧
    (let p : PortNo := 0
     let entries : Bool := false
     let v : BitVec 32 := 0x40000100
     let s : State := (wHost).hold .PORT_ENABLE 0 0
     let m := if entries then s.chip.rd .HL_MAP p else v.toNat &&& 0xC0FFFF00
     let e := if entries then v.toNat else s.chip.rd .HL_ENTRIES p
     (s.chip.asleep (if entries then .HL_ENTRIES else .HL_MAP) p = false) ∧ mapShapeOk p m e = true ∧
       s.chip.rdBool .PORT_ENABLE p = false ∧ (∀ q ∈ s.chip.groupPorts (p / 64), q ≠ p.val → mapsAgree (m, e) (s.chip.running q,
       s.chip.rd .HL_ENTRIES q) = true) ∧ (mapKind m = 3 → ((s.chip.groupPorts (p / 64)).filter fun q => decide (q ≠ p.val ∧
       mapKind (s.chip.running q) = 3 ∧ mapA (s.chip.running q) = mapA m)).length ≤ 3)) ∧
    (let p : PortNo := 0
     let entries : Bool := false
     let v : BitVec 32 := 0x40000100
     let s : State := (wHost).hold .PORT_ENABLE 0 1
     let m := if entries then s.chip.rd .HL_MAP p else v.toNat &&& 0xC0FFFF00
     let e := if entries then v.toNat else s.chip.rd .HL_ENTRIES p
     (s.chip.asleep (if entries then .HL_ENTRIES else .HL_MAP) p = false) ∧ mapShapeOk p m e = true ∧
       s.chip.rdBool .PORT_ENABLE p = true) ∧
    (let h : LaneNo := 0
     let v : BitVec 8 := 1
     let s : State := (wHost).hold .LEGACY_GATE 0 (2 ^ 32 - 1)
     s.chip.asleep .HL_PRBS_GEN h = false ∧ v.toNat ≤ 2 ∧ (v = 0 ∨ s.chip.rdBit .LEGACY_GATE (8 + h / 32) = true)) ∧
    (let h : LaneNo := 0
     let v : BitVec 8 := 1
     let s : State := ((wHost).hold .LEGACY_GATE 0 (2 ^ 32 - 1)).hold .HL_PRBS_ERR 0 7
     s.chip.asleep .HL_PRBS_CHK h = false ∧ v.toNat ≤ 2 ∧ (v = 0 ∨ s.chip.rdBit .LEGACY_GATE (8 + h / 32) = true)) ∧
    (let h : LaneNo := 0
     let v : BitVec 8 := 3
     let s : State := wHost
     s.chip.asleep .HL_PRBS_CHK h = false ∧ 2 < v.toNat) ∧
    (let p : PortNo := 0
     let v : BitVec 32 := 300
     let s : State := wHost
     s.chip.asleep .PFC_QUANTA p = false ∧ 1 ≤ v.toNat ∧ v.toNat ≤ 65535) ∧
    (let p : PortNo := 0
     let v : BitVec 32 := 0
     let s : State := wHost
     s.chip.asleep .PFC_ENABLE p = false ∧ pfcFits s.chip p (v.toNat % 256) (s.chip.rd .PFC_HEADROOM p) = true) ∧
    (let p : PortNo := 0
     let v : BitVec 32 := 100
     let s : State := wHost
     s.chip.asleep .PFC_HEADROOM p = false ∧ 64 ≤ v.toNat ∧ v.toNat ≤ 262144 ∧
       pfcFits s.chip p (s.chip.rd .PFC_ENABLE p) v.toNat = true) ∧
    (let p : PortNo := 0
     let v : BitVec 32 := 0x01234567
     let s : State := wHost
     s.chip.asleep .PFC_PRIORITY_MAP p = false ∧ (∀ k, k < 8 → bits v.toNat (4 * k + 3) (4 * k) ≤ 7)) := by
  refine ⟨?_, ?_, ?_, ?_, ?_, ?_, ?_, ?_, ?_, ?_, ?_, ?_, ?_, ?_, ?_, ?_⟩ <;> decide +kernel

theorem test_timeBaseIsSetAndSteered :
    (let v : BitVec 96 := 5000 * 65536 + 3
     let s : State := wPort wUp
     s.chip.asleep .TIME_SET 0 = false ∧ time96Ok v.toNat = true ∧ s.chip.taArmed = []) ∧
    (let v : BitVec 96 := 1000000000 * 65536
     let s : State := wPort wUp
     s.chip.asleep .TIME_SET 0 = false ∧ time96Ok v.toNat = false) ∧
    (let s : State := wPort wUp
     s.chip.asleep .TIME_STEP 0 = false ∧ s.chip.taArmed = []) ∧
    (let s : State := wTa 0
     s.chip.asleep .TIME_SNAPSHOT 0 = false) ∧
    (let v : BitVec 64 := 5
     let s : State := (wPort wUp).hold .TIME_SERVO_STATE 0 1
     s.chip.asleep .TIME_SERVO_INPUT 0 = false ∧ s.chip.timeSource = .software ∧ s.chip.rd .TIME_SERVO_STATE = 1 ∧
       (toInt 64 v.toNat).natAbs ≤ s.chip.stepLimit ∧ (s.chip.time.good < 7 ∨ s.chip.validLimit < (toInt 64 v.toNat).natAbs)) ∧
    (let v : BitVec 64 := 5
     let s : State := ({ chip := { ((wPort wUp).hold .TIME_SERVO_STATE 0 1).chip with time := { good := 7 } } } : State)
     s.chip.asleep .TIME_SERVO_INPUT 0 = false ∧ s.chip.timeSource = .software ∧ s.chip.rd .TIME_SERVO_STATE = 1 ∧
       s.chip.time.good = 7 ∧ (toInt 64 v.toNat).natAbs ≤ s.chip.validLimit ∧ (toInt 64 v.toNat).natAbs ≤ s.chip.stepLimit) ∧
    (let v : BitVec 64 := 0x100000000000
     let s : State := (wTa 0).hold .TIME_SERVO_STATE 0 1
     s.chip.asleep .TIME_SERVO_INPUT 0 = false ∧ s.chip.timeSource = .software ∧ s.chip.rd .TIME_SERVO_STATE = 1 ∧
       s.chip.taArmed = [] ∧ s.chip.stepLimit < (toInt 64 v.toNat).natAbs ∧ s.chip.validLimit < (toInt 64 v.toNat).natAbs) ∧
    (let s : State := (wPort wUp).hold .TIME_SOURCE 0 3
     s.chip.asleep .TIME_SERVO_INPUT 0 = false ∧ s.chip.timeSource ≠ .software) ∧
    (let v : BitVec 8 := 1
     let s : State := (wPort wUp).hold .TIME_SERVO_MODE 0 0
     s.chip.asleep .TIME_VALID 0 = false ∧ v.toNat ≤ 1 ∧ s.chip.rd .TIME_SERVO_MODE = 0) ∧
    (let v : BitVec 8 := 1
     let s : State := (wPort wUp).hold .TIME_SERVO_MODE 0 1
     s.chip.asleep .TIME_VALID 0 = false ∧ v.toNat ≤ 1 ∧ s.chip.rd .TIME_SERVO_MODE ≠ 0) ∧
    (let v : BitVec 8 := 1
     let s : State := (wPort wUp).hold .TIME_SERVO_MODE 0 1
     s.chip.asleep .TIME_SOURCE 0 = false ∧ v.toNat ≤ 4) ∧
    (let v : BitVec 8 := 0
     let s : State := (wPort wUp).hold .TIME_VALID 0 1
     s.chip.asleep .TIME_SERVO_MODE 0 = false ∧ v.toNat ≤ 1) ∧
    (let s : State := (wPort wUp).hold .TIME_SERVO_STATE 0 2
     s.chip.rd .TIME_SERVO_STATE = 2) ∧
    (let s : State := ((wPort wUp).hold .TIME_SERVO_STATE 0 3).hold .TIME_VALID 0 1
     s.chip.rd .TIME_SERVO_STATE = 3) := by
  refine ⟨?_, ?_, ?_, ?_, ?_, ?_, ?_, ?_, ?_, ?_, ?_, ?_, ?_, ?_⟩ <;> decide +kernel

theorem test_timePinsAndRootDiscipline :
    (let v : BitVec 8 := 0
     let s : State := ((wPort wUp).hold .ROOT_DISCIPLINE 0 2).hold .ROOT_STATUS 0 2
     s.chip.asleep .ROOT_DISCIPLINE 0 = false ∧ v.toNat ≤ 3) ∧
    (let v : BitVec 8 := 4
     let s : State := wPort wUp
     s.chip.asleep .ROOT_DISCIPLINE 0 = false ∧ 3 < v.toNat) ∧
    (let r : Nat := 0
     let s : State := ({ chip := { ((wPort wUp).hold .ROOT_STATUS 0 2).chip with root := 10 ^ 12, time := { srcFrom := some 0 } } } :
       State)
     s.chip.rdBit .ROOT_STATUS 1 = true ∧ s.chip.trimSource = true ∧ s.chip.time.srcFrom = some r ∧
       r + rootUs 10000000 ≤ s.chip.root) ∧
    (let s : State := ((wPort wUp).hold .ROOT_STATUS 0 4).hold .ROOT_DISCIPLINE 0 2
     s.chip.pwr.rootOn = true) ∧
    (let s : State := (wPort wUp).hold .ROOT_STATUS 0 8
     s.chip.pwr.rootOn = true) ∧
    (let b : Bool := false
     let s : State := wTa 0
     s.chip.pwr.rootOn = true ∧ b = decide (s.chip.rd .PPS_IN_POLARITY = 1) ∧ s.chip.time.ppsLast = none) ∧
    (let r : Nat := 77
     let s : State := ({ chip := { ((wPort wUp).hold .PPS_OUT_MODE 0 2).chip with time := { ppsDue := some 77 } } } : State)
     s.chip.pwr.rootOn = true ∧ s.chip.time.ppsDue = some r ∧ (s.chip.rd .PPS_OUT_MODE = 2 ∨ (s.chip.rd .PPS_OUT_MODE = 1 ∧
       s.chip.rdBool .TIME_VALID = true))) ∧
    (let s : State := wPort wUp
     s.chip.time.ppsEnd ≤ s.chip.root) := by
  refine ⟨?_, ?_, ?_, ?_, ?_, ?_, ?_, ?_⟩ <;> decide +kernel

theorem test_timedActionsArePostedRunAndCancelled :
    (let row : Nat := 3
     let v : BitVec 320 := BitVec.ofNat 320 (setRowField 40 (wTaRow 3 0 0 0 0) 0 12 (2 ^ 48))
     let path : Path := .host
     let s : State := wTa 0
     row < 256 ∧ s.chip.permits path 0 Reg.TA_TABLE.info.idx Reg.TA_TABLE.info.sub = true ∧ s.chip.asleep .TA_TABLE 0 = false ∧
       taFieldsOk v.toNat = true ∧ s.chip.taIsArmed row = false ∧ rowField 40 v.toNat 12 1 = 3 ∧
       s.chip.tb < ofTime96 (rowField 40 v.toNat 0 12)) ∧
    (let row : Nat := 256
     256 ≤ row) ∧
    (let row : Nat := 3
     let v : BitVec 320 := BitVec.ofNat 320 (setRowField 40 (wTaRow 3 0 0 0 0) 16 4 1)
     let path : Path := .host
     let s : State := wTa 0
     row < 256 ∧ s.chip.permits path 0 Reg.TA_TABLE.info.idx Reg.TA_TABLE.info.sub = true ∧ s.chip.asleep .TA_TABLE 0 = false ∧
       taFieldsOk v.toNat = true ∧ s.chip.taIsArmed row = false ∧ rowField 40 v.toNat 12 1 = 3 ∧
       ofTime96 (rowField 40 v.toNat 0 12) + tbUs (rowField 40 v.toNat 16 4) < s.chip.tb ∧ rowField 40 v.toNat 16 4 ≠ 0) ∧
    (let row : Nat := 3
     let v : BitVec 320 := 5
     let s : State := wTa (wTaRow 3 2 0 0 0)
     row < 256 ∧ s.chip.asleep .TA_TABLE 0 = false ∧ taFieldsOk (setRowField 40 v.toNat 12 1 0) = true ∧ s.chip.taIsArmed row =
       false) ∧
    (let row : Fin 256 := 3
     let i : Nat := 4
     let s : State :=
       wTa (wTaRow 1 1 0 (Cls.port.addr 4 * 2 ^ 24 + Reg.DOWNSHIFT_ENABLE.info.idx * 2 ^ 8 + Reg.DOWNSHIFT_ENABLE.info.sub) 0)
     s.chip.pwr.rootOn = true ∧ s.chip.pwr.state = .active ∧ s.chip.taIsArmed row = true ∧ s.chip.taTime row ≤ s.chip.tb ∧
       ((s.chip.rdField .TA_TABLE 0 row 14 2).testBit 3 = false ∨ s.chip.rdBool .TIME_VALID = true) ∧
       s.chip.rdField .TA_TABLE 0 row 12 1 = 1 ∧ addrTarget (s.chip.rdField .TA_TABLE 0 row 20 5) = some (0, .DOWNSHIFT_ENABLE,
       i) ∧ taUnits (bits (s.chip.rdField .TA_TABLE 0 row 20 5) 35 24) (s.chip.rdField .TA_TABLE 0 row 25 2) = some [i] ∧
       s.chip.rdField .TA_TABLE 0 row 28 8 ≤ 1 ∧ s.chip.asleep .DOWNSHIFT_ENABLE i = false) ∧
    (let row : Fin 256 := 3
     let l : List (Key × Nat) := []
     let s : State := ({ chip := { (wTa (wTaRow 2 1 0 0 0)).chip with cfg := { staged := some [] } } } : State)
     s.chip.pwr.rootOn = true ∧ s.chip.pwr.state = .active ∧ s.chip.taIsArmed row = true ∧ s.chip.taTime row ≤ s.chip.tb ∧
       ((s.chip.rdField .TA_TABLE 0 row 14 2).testBit 3 = false ∨ s.chip.rdBool .TIME_VALID = true) ∧
       s.chip.rdField .TA_TABLE 0 row 12 1 = 2 ∧ s.chip.cfg.deadline = none ∧ s.chip.cfg.staged = some l ∧
       (s.chip.withValues l).bufReason = 0) ∧
    (let row : Fin 256 := 3
     let s : State := wTa (wTaRow 3 1 0 0 0)
     s.chip.pwr.rootOn = true ∧ s.chip.pwr.state = .active ∧ s.chip.taIsArmed row = true ∧ s.chip.taTime row ≤ s.chip.tb ∧
       ((s.chip.rdField .TA_TABLE 0 row 14 2).testBit 3 = false ∨ s.chip.rdBool .TIME_VALID = true) ∧
       s.chip.rdField .TA_TABLE 0 row 12 1 = 3) ∧
    (let v : BitVec 16 := 3
     let s : State := wTa (wTaRow 3 1 0 0 0)
     s.chip.asleep .TA_CANCEL 0 = false ∧ v.toNat ≤ 255 ∧ s.chip.taIsArmed v.toNat = true) ∧
    (let v : BitVec 16 := 3
     let s : State := wTa (wTaRow 3 2 0 0 0)
     s.chip.asleep .TA_CANCEL 0 = false ∧ v.toNat ≤ 255 ∧ s.chip.taIsArmed v.toNat = false) := by
  refine ⟨?_, ?_, ?_, ?_, ?_, ?_, ?_, ?_, ?_⟩ <;> decide +kernel

theorem test_framesStartAndEndOnTheWire :
    (let p : PortNo := 0
     let ready : Bool := true
     let g : Grid := ((wWait).chip.grid 0).getD ⟨true, 1, 1, 0, 0, 0⟩
     let x : Cand := ⟨{ wQd with read := true }, none⟩
     let k : Pick := ⟨8 + wFrame.length, wFrame.length, true⟩
     let b : Bool := false
     let s : State := wWait
     let pos := g.first (s.chip.decideFrom g p) (s.chip.sch p).free
     let c := (s.chip.setSch p fun st => { st with decided := g.instant pos }).judgeHeads p (g.instant pos)
     s.chip.grid p = some g ∧ s.chip.mayDecide p = true ∧ (c.choose g p pos false).1 = some (x, k, b) ∧ (ready =
       true ∨ x.cont.isSome = true ∨ x.frame.read = true)) ∧
    (let p : PortNo := 0
     let g : Grid := ((wPort wUp).chip.grid 0).getD ⟨true, 1, 1, 0, 0, 0⟩
     let s : State := wPort wUp
     let pos := g.first (s.chip.decideFrom g p) (s.chip.sch p).free
     let c := (s.chip.setSch p fun st => { st with decided := g.instant pos }).judgeHeads p (g.instant pos)
     s.chip.grid p = some g ∧ s.chip.mayDecide p = true ∧ (c.choose g p pos false).1.isNone = true) ∧
    (let p : PortNo := 0
     let ready : Bool := true
     let g : Grid := ((wWait).chip.grid 0).getD ⟨true, 1, 1, 0, 0, 0⟩
     let r : Frag := { wFrag true with frame := { wQd with id := 9 }, done := 200000, oct := 9008, total := 9000 }
     let x : Cand := ⟨wQd, none⟩
     let k : Pick := ⟨8 + wFrame.length, wFrame.length, true⟩
     let b : Bool := false
     let s : State := (({ chip := { (wPort wUp).chip with sched := [(0, { live := [{ wFrag true with frame := { wQd with id := 9 }, done := 200000, oct := 9008, total := 9000 }] })], queues := [(0, [wQd])], root := 500 } } :
       State)).hold .MM_STATUS 0 2
     let q := g.first (max r.wire (s.chip.decideFrom g p)) 0
     let e := g.instant q
     let c := s.chip.setSch p fun st => { st with decided := e }
     let cut := max (s.chip.leastCut p) (r.outBy g e)
     let pos := g.first e (g.after r.start (preOctets + cut + mcrcOctets - r.base))
     s.chip.grid p = some g ∧ (s.chip.sch p).running = some r ∧ s.chip.mayDecide p = true ∧ r.pre = true ∧ s.chip.mmActive p =
       true ∧ e < r.done ∧ cut + 64 ≤ (s.chip.sch p).whole r ∧ cut < r.total ∧ (c.choose g p pos true).1 = some (x, k, b) ∧
       x.cont = none ∧ k.final = true ∧ (ready = true ∨ x.frame.read = true)) ∧
    (let p : PortNo := 0
     let pos : Nat := 10 ^ 12
     let g : Grid := ((wPort wUp).chip.grid 0).getD ⟨true, 1, 1, 0, 0, 0⟩
     let s : State := wPort wUp
     s.chip.grid p = some g ∧ pos ≠ g.first (s.chip.decideFrom g p) (s.chip.sch p).free) ∧
    (let p : PortNo := 0
     let pos : Nat := 10 ^ 12
     let g : Grid := ((wWait).chip.grid 0).getD ⟨true, 1, 1, 0, 0, 0⟩
     let r : Frag := { wFrag true with done := 200000 }
     let s : State := ({ chip := { (wPort wUp).chip with sched := [(0, { live := [{ wFrag true with done := 200000 }] })] } } :
       State)
     s.chip.grid p = some g ∧ (s.chip.sch p).running = some r ∧ pos ≠ g.first (max r.wire (s.chip.decideFrom g p)) 0) ∧
    (let p : PortNo := 0
     let n : Nat := 7
     let f : Frame := { wQd with read := false }
     let s : State := ({ chip := { (wPort wUp).chip with queues := [(0, [{ wQd with read := false }])] } } : State)
     s.chip.findFrame p n = some f) ∧
    (let p : PortNo := 0
     let n : Nat := 7
     let f : Frame := wQd
     let s : State := wWait
     s.chip.findFrame p n = some f) ∧
    (let p : PortNo := 0
     let n : Nat := 7
     let h : QcNo := 0
     let f : Frame := { wQd with read := false }
     let s : State := (({ chip := { (wPort wUp).chip with queues := [(0, [{ wQd with read := false }])] } } :
       State)).hold .QC_STATE 0 3
     s.chip.findFrame p n = some f ∧ s.chip.rd .QC_STATE h = 3) ∧
    (let p : PortNo := 0
     let n : Nat := 7
     let x : Susp := { frame := wQd, rem := 100, frag := 1, wireTb := 0 }
     let s : State := ({ chip := { (wPort wUp).chip with sched := [(0, { susp := some { frame := wQd, rem := 100, frag := 1, wireTb := 0 } })] } } :
       State)
     s.chip.findFrame p n = none ∧ (s.chip.sch p).live = [] ∧ (s.chip.sch p).susp = some x ∧ x.frame.id = n) ∧
    (let p : PortNo := 0
     let r : Frag := wFrag false
     let l : List Frag := []
     let s : State := ({ chip := { (wPort wUp).chip with sched := [(0, { live := [wFrag false] })] } } : State)
     (s.chip.sch p).live = r :: l ∧ r.final = true) ∧
    (let p : PortNo := 0
     let r : Frag := { wFrag true with final := false }
     let l : List Frag := []
     let s : State := ({ chip := { (wPort wUp).chip with sched := [(0, { live := [{ wFrag true with final := false }] })] } } :
       State)
     (s.chip.sch p).live = r :: l ∧ r.final = false) ∧
    (let p : PortNo := 0
     let f : Frame := wQd
     let k : DropKind := .residence
     let e : EvName := .residenceDiscard
     let s : State := ({ chip := { (wPort wUp).chip with queues := [(0, [wQd])], root := 10 ^ 13 } } : State)
     s.chip.queues = [(f.fq, [f])] ∧ f.port = p.val ∧ s.chip.headFate f s.chip.root = some (k, e)) ∧
    (let f : Frame := wQd
     let l : List Frame := []
     let s : State := wWait
     s.chip.queues = [(f.fq, f :: l)] ∧ s.chip.headFate f s.chip.root = none) := by
  refine ⟨?_, ?_, ?_, ?_, ?_, ?_, ?_, ?_, ?_, ?_, ?_, ?_, ?_⟩ <;> decide +kernel

theorem test_gatesAndPreemptionFollowTheirWrites :
    (let p : PortNo := 0
     let w : Swap := ⟨1, 5⟩
     let s : State := ({ chip := { (wPort wUp).chip with sched := [(0, { swap := some ⟨1, 5⟩ })], tb := 9 } } : State)
     (s.chip.sch p).swap = some w ∧ w.instant ≤ s.chip.tb) ∧
    (let p : PortNo := 0
     let s : State := ((((wPort wUp).hold .GCL0_CYCLE 0 1000).hold .GCL0_LENGTH 0 1).hold .GCL0_ENTRY 0 (255 * 2 ^ 56 + 500))
     s.chip.asleep .GATE_ENABLE p = false ∧ s.chip.bankOk p (s.chip.sch p).bank = true) ∧
    (let p : PortNo := 0
     let s : State := wPort wUp
     s.chip.asleep .GATE_ENABLE p = false ∧ s.chip.bankOk p (s.chip.sch p).bank = false) ∧
    (let p : PortNo := 0
     let s : State :=
       (((((wPort wUp).hold .GCL0_CYCLE 0 1000).hold .GCL0_LENGTH 0 1).hold .GCL0_ENTRY 0 (255 * 2 ^ 56 + 500))).hold .GATE_ENABLE 0 1
     s.chip.asleep .GATE_ENABLE p = false) ∧
    (let p : PortNo := 0
     let v : BitVec 8 := 1
     let s : State := ((((wPort wUp).hold .GCL1_CYCLE 0 1000).hold .GCL1_LENGTH 0 1).hold .GCL1_ENTRY 0 (255 * 2 ^ 56 + 500))
     s.chip.asleep .GATE_SWAP p = false ∧ v.toNat ≤ 1 ∧ s.chip.bankOk p v.toNat = true ∧ v.toNat ≠ (s.chip.sch p).bank ∧
       (s.chip.sch p).swap = none) ∧
    (let p : PortNo := 0
     let w : Swap := ⟨1, 5⟩
     let s : State := ({ chip := { (wPort wUp).chip with sched := [(0, { swap := some ⟨1, 5⟩ })] } } : State)
     s.chip.asleep .GATE_SWAP p = false ∧ (s.chip.sch p).swap = some w) ∧
    (let p : PortNo := 0
     let s : State := wPort wUp
     s.chip.asleep .GATE_SWAP p = false ∧ (s.chip.sch p).swap = none) ∧
    (let p : PortNo := 0
     let s : State := wPort wUp
     s.chip.asleep .MM_ENABLE p = false) ∧
    (let p : PortNo := 0
     let s : State := ((wPort wUp).hold .MM_ENABLE 0 1).hold .MM_STATUS 0 2
     s.chip.asleep .MM_ENABLE p = false) ∧
    (let p : PortNo := 0
     let s : State := (wPort wUp).hold .MM_STATUS 0 1
     s.chip.rd .MM_STATUS p = 1 ∧ s.chip.up p = true ∧ (s.chip.sch p).verifies < 3) ∧
    (let p : PortNo := 0
     let s : State := (({ chip := { (wPort wUp).chip with sched := [(0, { verifies := 3 })] } } : State)).hold .MM_STATUS 0 1
     s.chip.rd .MM_STATUS p = 1 ∧ s.chip.up p = true ∧ 3 ≤ (s.chip.sch p).verifies) ∧
    (let p : PortNo := 0
     let s : State := (({ chip := { (wPort wUp).chip with sched := [(0, { verifies := 3 })] } } : State)).hold .MM_STATUS 0 1
     s.chip.up p = true ∧ s.chip.rd .MM_STATUS p = 1 ∧ (s.chip.sch p).verifies ≠ 0) ∧
    (let p : PortNo := 0
     let s : State := wPort wUp
     s.chip.up p = true) := by
  refine ⟨?_, ?_, ?_, ?_, ?_, ?_, ?_, ?_, ?_, ?_, ?_, ?_, ?_⟩ <;> decide +kernel

theorem test_queueAndShaperWritesAreCarriedOut :
    (let p : PortNo := 0
     let row : Nat := 1
     let v : BitVec 16 := 3
     let s : State := (((wPort {}).hold .PORT_ENABLE 0 0).holdRow .Q_BLOCK_OWNER 0 3 0xFFFF)
     let new := s.chip.blockRows p row v.toNat
     row < 8 ∧ s.chip.asleep .Q_BLOCKS p = false ∧ rowsPacked new = true ∧ (v.toNat = 0xFFFF ∨ (v.toNat ≤ 511 ∧
       (s.chip.rd .Q_BLOCK_OWNER 0 v.toNat = 0xFFFF ∨ s.chip.rd .Q_BLOCK_OWNER 0 v.toNat = p.val))) ∧
       s.chip.rdBool .PORT_ENABLE p = false ∧ (∀ b ∈ s.chip.rowsOf p, b ∉ new → b ≠ 0xFFFF → s.chip.blockHolds b = false) ∧
       ((new.filter fun b => b != 0xFFFF) = [] ∨ s.chip.rd .Q_DEFAULT p < 512 * (new.filter fun b => b != 0xFFFF).length)) ∧
    (let p : PortNo := 0
     let v : BitVec 16 := 5
     let s : State := wPort wUp
     s.chip.asleep .Q_DEFAULT p = false ∧ v.toNat ≤ 4095 ∧ (s.chip.blocks p = [] ∨ v.toNat < 512 * (s.chip.blocks p).length)) ∧
    (let p : PortNo := 0
     let s : State := wWait
     s.chip.asleep .Q_FLUSH p = false) ∧
    (let p : PortNo := 0
     let row : Nat := 9
     let v : BitVec 128 := BitVec.ofNat 128 (5 * 2 ^ 112 + 7 * 2 ^ 64 + 3)
     let s : State := wPort wUp
     row < 4096 ∧ s.chip.asleep .Q_CONFIG p = false ∧ qRowOk p v.toNat = true) ∧
    (let p : PortNo := 0
     let row : Nat := 9
     let v : BitVec 128 := 0
     let s : State := wPort wUp
     row < 4096 ∧ s.chip.asleep .Q_CONFIG p = false ∧ bits v.toNat 121 112 = 0) ∧
    (let x : ShaperSel := .svc 0 3
     let v : BitVec 64 := BitVec.ofNat 64 (1000 * 2 ^ 32 + 2000)
     let s : State := wWait
     s.chip.asleep x.obj.1 x.obj.2 = false ∧ shRate v.toNat ≤ 200000000 ∧ shBurst v.toNat ≤ 16777215) ∧
    (let x : ShaperSel := .port 0
     let v : BitVec 64 := BitVec.ofNat 64 (200000001 * 2 ^ 32)
     let s : State := wWait
     s.chip.asleep x.obj.1 x.obj.2 = false ∧ 200000000 < shRate v.toNat) ∧
    (let row : Nat := 5
     let v : BitVec 128 := BitVec.ofNat 128 (3 * 2 ^ 96 + 7 * 2 ^ 64 + 9 * 2 ^ 32 + 2)
     let s : State := wWait
     row < 65536 ∧ s.chip.asleep .MTR_CONFIG 0 = false ∧ bits v.toNat 95 64 ≤ 200000000 ∧
       bits v.toNat 127 96 ≤ bits v.toNat 95 64 ∧ bits v.toNat 63 32 ≤ 16777215 ∧ bits v.toNat 31 0 ≤ 16777215) ∧
    (let p : PortNo := 0
     let count : Bool := true
     let v : BitVec 16 := 5
     let s : State := wWait
     (s.chip.asleep (if count then .RX_METER_COUNT else .RX_METER_BASE) p = false) ∧
       ((if count then v.toNat else s.chip.rd .RX_METER_COUNT p) ≤ 4096) ∧ (meterRangesOk ((p.val,
       (if count then s.chip.rd .RX_METER_BASE p else v.toNat), (if count then v.toNat else s.chip.rd .RX_METER_COUNT p)) ::
       s.chip.meterRanges.filter fun x => x.1 != p.val) = true)) := by
  refine ⟨?_, ?_, ?_, ?_, ?_, ?_, ?_, ?_, ?_⟩ <;> decide +kernel

theorem test_cellsAreAdmittedAndChannelsRetired :
    (let p : PortNo := 0
     let h : QcNo := 0
     let fill : WriteFill := .low
     let f : Frame := { wQd with octets := wFrame ++ wFrame, cells := [] }
     let l : List Frame := []
     let s : State := ({ chip := { (wPort wUp).chip with sched := [(0, { arriving := [{ wQd with octets := wFrame ++ wFrame, cells := [] }] })] } } :
       State)
     let inP := if f.cells.isEmpty then s.chip.inProfileNow p (s.chip.svcOf f) else f.inProfile
     (s.chip.sch p).arriving = f :: l ∧ h.val = s.chip.chooseChannel f ∧ s.chip.admitCause p (s.chip.svcOf f) f inP fill =
       none ∧ 64 * (f.cells.length + 1) < f.len) ∧
    (let p : PortNo := 0
     let h : QcNo := 0
     let fill : WriteFill := .low
     let f : Frame := { wQd with cells := [] }
     let l : List Frame := []
     let s : State := ({ chip := { (wPort wUp).chip with sched := [(0, { arriving := [{ wQd with cells := [] }] })] } } : State)
     let inP := if f.cells.isEmpty then s.chip.inProfileNow p (s.chip.svcOf f) else f.inProfile
     (s.chip.sch p).arriving = f :: l ∧ h.val = s.chip.chooseChannel f ∧ s.chip.admitCause p (s.chip.svcOf f) f inP fill =
       none ∧ f.len ≤ 64 * (f.cells.length + 1)) ∧
    (let p : PortNo := 0
     let fill : WriteFill := .low
     let f : Frame := { wQd with cells := List.replicate 256 0 }
     let l : List Frame := []
     let k : BufCause := .limit
     let s : State := ({ chip := { (wPort wUp).chip with sched := [(0, { arriving := [{ wQd with cells := List.replicate 256 0 }] })] } } :
       State)
     let inP := if f.cells.isEmpty then s.chip.inProfileNow p (s.chip.svcOf f) else f.inProfile
     (s.chip.sch p).arriving = f :: l ∧ s.chip.admitCause p (s.chip.svcOf f) f inP fill = some k ∧ inP = false ∧ k ≠ .rate) ∧
    (let h : QcNo := 0
     let s : State := wWait.hold .LEGACY_GATE 0 0x1FFFF
     s.chip.rd .QC_STATE h ≠ 3 ∧ s.chip.pwr.rootOn = true ∧ s.chip.rdBit .LEGACY_GATE 4 = true ∧
       (((s.chip.buf.ces.getD h []).filter fun r => s.chip.root < r + rootUs 1000000).length < s.chip.rd .BUF_CE_LIMIT)) ∧
    (let h : QcNo := 0
     let s : State := (wWait.hold .LEGACY_GATE 0 0x1FFFF).hold .BUF_CE_LIMIT 0 0
     s.chip.rd .QC_STATE h = 0 ∧ s.chip.pwr.rootOn = true ∧ s.chip.rdBit .LEGACY_GATE 4 = true ∧
       (s.chip.rd .BUF_CE_LIMIT ≤ ((s.chip.buf.ces.getD h []).filter fun r => s.chip.root < r + rootUs 1000000).length)) ∧
    (let h : QcNo := 0
     let s : State := wWait.hold .LEGACY_GATE 0 0x1FFFF
     s.chip.rd .QC_STATE h = 0 ∧ s.chip.pwr.rootOn = true ∧ s.chip.rdBit .LEGACY_GATE 4 = true) ∧
    (let h : QcNo := 0
     let s : State := wWait
     s.chip.asleep .QC_RETIRE h = false ∧ s.chip.rd .QC_STATE h = 0) ∧
    (let h : QcNo := 33
     let s : State := wWait
     s.chip.asleep .QC_RETIRE h = false ∧ s.chip.rd .QC_STATE h ≠ 0) ∧
    (let h : QcNo := 0
     let s : State := (wPort wUp).hold .QC_STATE 0 2
     s.chip.rd .QC_STATE h = 2 ∧ s.chip.chUsed h = 0) ∧
    (let s : State := ((wPort wUp).hold .BUF_STATUS 0 3).holdRow .SVC_BUF 0 2 (5 * 2 ^ 96)
     s.chip.asleep .BUF_REEVALUATE 0 = false) := by
  refine ⟨?_, ?_, ?_, ?_, ?_, ?_, ?_, ?_, ?_, ?_⟩ <;> decide +kernel

theorem test_walePortsGainLoseAndEndLinks :
    (let w : WlNo := 0
     let s : State := wWl 0
     s.chip.asleep .WL_ENABLE w = false ∧ s.chip.wlState w = 0 ∧ s.chip.rdBool .WALE_ENABLE = true ∧
       s.chip.rd .BIST_STATE_WL w ≠ 2) ∧
    (let w : WlNo := 0
     let s : State := wWl 4
     s.chip.asleep .WL_ENABLE w = false ∧ s.chip.wlState w ≠ 0) ∧
    (let s : State := wWl 4
     s.chip.asleep .WALE_ENABLE 0 = false) ∧
    (let s : State := (wWl 0).hold .LEGACY_GATE 0 0
     s.chip.asleep .WALE_ENABLE 0 = false ∧ s.chip.rdBit .LEGACY_GATE 5 = false) ∧
    (let w : WlNo := 0
     let s : State := wWl 1
     s.chip.wlState w = 1) ∧
    (let w : WlNo := 0
     let s : State := wWl 4 { heard := some (5, 1) }
     2 ≤ s.chip.wlState w) ∧
    (let w : WlNo := 0
     let s : State := wWl 2
     s.chip.wlState w = 2) ∧
    (let w : WlNo := 0
     let s : State := (wWl 1).hold .WL_SLIP_MODE 0 1
     s.chip.asleep .WL_SLIP w = false ∧ s.chip.rd .WL_SLIP_MODE w = 1 ∧ (s.chip.wlState w = 1 ∨ s.chip.wlState w = 2)) ∧
    (let w : WlNo := 0
     let s : State := wWl 4
     s.chip.asleep .WL_SLIP w = false ∧ (s.chip.rd .WL_SLIP_MODE w ≠ 1 ∨ (s.chip.wlState w ≠ 1 ∧ s.chip.wlState w ≠ 2))) ∧
    (let w : WlNo := 0
     let s : State := wWl 3
     (s.chip.wlState w = 3 ∨ s.chip.wlState w = 4) ∧ (s.chip.wl w).queue 1 = []) ∧
    (let w : WlNo := 0
     let x : BitVec 256 := 0
     let s : State := wWl 4 { heard := some (5, 1) }
     let l := natToOctets 32 x.toNat
     s.chip.wlState w = 4 ∧ (s.chip.wl w).heard ≠ some (octNat l 0 8, octNat l 8 1)) ∧
    (let w : WlNo := 0
     let s : State := wWl 4
     (s.chip.wlState w = 3 ∨ s.chip.wlState w = 4)) ∧
    (let w : WlNo := 0
     let s : State := wWl 1
     s.chip.wlState w = 1) ∧
    (let w : WlNo := 0
     let s : State := wWl 1
     s.chip.asleep .WL_WAKE_SEND w = false ∧ s.chip.wlState w ≠ 0) ∧
    (let w : WlNo := 0
     let s : State := wWl 0
     s.chip.asleep .WL_WAKE_SEND w = false ∧ s.chip.wlState w = 0) := by
  refine ⟨?_, ?_, ?_, ?_, ?_, ?_, ?_, ?_, ?_, ?_, ?_, ?_, ?_, ?_, ?_⟩ <;> decide +kernel

theorem test_walePacketsAreCheckedTakenAndRelayed :
    (let w : WlNo := 0
     let l : List WlWord := (wPk 0 1 1 1 0 0 [1, 2]).dropLast ++ [wlCtrl 0x55 5]
     let r : WlRaw := (wlParse ((wPk 0 1 1 1 0 0 [1, 2]).dropLast ++ [wlCtrl 0x55 5])).getD ⟨0, [], 0, false⟩
     let s : State := wWl 4
     s.chip.wlState w = 4 ∧ wlParse l = some r ∧ r.good = false) ∧
    (let w : WlNo := 0
     let l : List WlWord := wPk 0 1 2 1 0 0 [1, 2]
     let r : WlRaw := (wlParse (wPk 0 1 2 1 0 0 [1, 2])).getD ⟨0, [], 0, false⟩
     let s : State := wWl 4
     s.chip.wlState w = 4 ∧ wlParse l = some r ∧ r.good = true ∧ (kindClasses r.packet.kind).contains r.packet.cls = false) ∧
    (let w : WlNo := 0
     let l : List WlWord := wPk 0 1 1 1 0 0 [1, 2]
     let r : WlRaw := (wlParse (wPk 0 1 1 1 0 0 [1, 2])).getD ⟨0, [], 0, false⟩
     let s : State := wWl 4
     s.chip.wlState w = 4 ∧ wlParse l = some r ∧ r.good = true ∧ (kindClasses r.packet.kind).contains r.packet.cls = true ∧
       (r.packet.dest = 0 ∨ (r.packet.dest ≠ 0xFF ∧ r.packet.dest = s.chip.rd .WALE_ADDRESS))) ∧
    (let w : WlNo := 0
     let l : List WlWord := wPk 9 1 1 1 32 0 [1, 2]
     let r : WlRaw := (wlParse (wPk 9 1 1 1 32 0 [1, 2])).getD ⟨0, [], 0, false⟩
     let s : State := wWl 4
     s.chip.wlState w = 4 ∧ wlParse l = some r ∧ r.good = true ∧ (kindClasses r.packet.kind).contains r.packet.cls = true ∧
       r.packet.dest ≠ 0 ∧ r.packet.dest ≠ 0xFF ∧ r.packet.dest ≠ s.chip.rd .WALE_ADDRESS ∧
       (32 ≤ r.packet.hops ∨ s.chip.wlRoute r.packet.dest = none)) ∧
    (let w : WlNo := 1
     let l : List WlWord := wPk 9 1 2 4 3 0 [1, 2]
     let r : WlRaw := (wlParse (wPk 9 1 2 4 3 0 [1, 2])).getD ⟨0, [], 0, false⟩
     let v : Nat := 0
     let s : State := (wWl 4 { addr := 9 }).hold .WL_STATE 1 4
     s.chip.wlState w = 4 ∧ wlParse l = some r ∧ r.good = true ∧ (kindClasses r.packet.kind).contains r.packet.cls = true ∧
       r.packet.dest ≠ 0 ∧ r.packet.dest ≠ 0xFF ∧ r.packet.dest ≠ s.chip.rd .WALE_ADDRESS ∧ r.packet.hops < 32 ∧
       s.chip.wlRoute r.packet.dest = some v ∧ (s.chip.wl v).queue r.packet.cls = []) ∧
    (let w : WlNo := 0
     let s : State := wWl 2
     s.chip.wlState w ≠ 4 ∧ s.chip.wlState w ≠ 3) ∧
    (let l : List WlWord := [⟨0, 5⟩, wcIdle]
     wlParse l = none) ∧
    (let w : WlNo := 0
     let x : WlPacket := ⟨1, 2, 0, 3, 0, 0, [5]⟩
     let l : List WlPacket := []
     let s : State := wWl 4 { queues := [(0, [⟨1, 2, 0, 3, 0, 0, [5]⟩]), (1, [⟨1, 2, 1, 2, 0, 0, [5]⟩])] }
     s.chip.wlState w = 4 ∧ (s.chip.wl w).squelch = false ∧ (s.chip.wl w).queue 0 = x :: l) ∧
    (let w : WlNo := 0
     let x : WlPacket := ⟨1, 2, 1, 2, 0, 0, [5]⟩
     let l : List WlPacket := []
     let s : State := wWl 4 { queues := [(1, [⟨1, 2, 1, 2, 0, 0, [5]⟩]), (2, [⟨1, 2, 2, 4, 0, 0, [5]⟩])], alarmRun := 3 }
     s.chip.wlState w = 4 ∧ (s.chip.wl w).squelch = false ∧ (s.chip.wl w).queue 0 = [] ∧ (s.chip.wl w).queue 1 = x :: l ∧
       ((s.chip.wl w).queue 2 = [] ∨ (s.chip.wl w).alarmRun < 7)) ∧
    (let w : WlNo := 0
     let x : WlPacket := ⟨1, 2, 2, 4, 0, 0, [5]⟩
     let l : List WlPacket := []
     let s : State := wWl 4 { queues := [(1, [⟨1, 2, 1, 2, 0, 0, [5]⟩]), (2, [⟨1, 2, 2, 4, 0, 0, [5]⟩])], alarmRun := 7 }
     s.chip.wlState w = 4 ∧ (s.chip.wl w).squelch = false ∧ (s.chip.wl w).queue 0 = [] ∧ (s.chip.wl w).queue 2 = x :: l ∧
       7 ≤ (s.chip.wl w).alarmRun) ∧
    (let v : Nat := 0
     let s : State := (wWl 4 { addr := 9 } { alarms := [⟨0, 0, .alarm, false, false, 0, 0, 0, 1, 0, 0⟩] }).hold .WALE_EVENT_DEST 0 9
     s.chip.wale.alarms ≠ [] ∧ s.chip.rd .WALE_EVENT_DEST ≠ 0 ∧ s.chip.rd .WALE_EVENT_DEST ≠ 0xFF ∧
       s.chip.rd .WALE_EVENT_DEST ≠ s.chip.rd .WALE_ADDRESS ∧ s.chip.wlRoute (s.chip.rd .WALE_EVENT_DEST) = some v ∧
       (s.chip.wl v).queue 1 = []) ∧
    (let t : BitVec 32 := 7
     let s : State := (wWl 4).hold .UPSETT_TAG 0 7
     s.chip.rd .UPSETT_TAG = t.toNat) ∧
    (let s : State := wWl 4
     s.chip.ev.raised = [] ∧ s.chip.rd .EV_RING_MODE = 0 ∧ s.chip.evFill < 3072) ∧
    (let s : State := (wWl 4).holdRow .UPSETT_REPORT 0 5 77
     s.chip.asleep .UPSETT_TAG 0 = false) := by
  refine ⟨?_, ?_, ?_, ?_, ?_, ?_, ?_, ?_, ?_, ?_, ?_, ?_, ?_, ?_⟩ <;> decide +kernel

theorem test_advertisementsRoutesAndAddressesFollow :
    (let s : State := wWl 4 {} { dirty := true }
     s.chip.boot.applied = true ∧ s.chip.pwr.rootOn = true ∧ s.chip.wale.dirty = true) ∧
    (let s : State := wWl 4
     s.chip.wale.dirty = false) ∧
    (let s : State := wWl 4
     s.chip.boot.applied = true ∧ s.chip.pwr.rootOn = true) ∧
    (let s : State := wWl 4 { heard := some (5, 1) } { own := { links := [⟨0, 1, 1, 5⟩] }, lsdb := [(5, { addr := 1, prio := 3, links := [⟨1, 0, 1, Config.deviceId.toNat⟩] })] }
     s.chip.boot.applied = true ∧ s.chip.pwr.rootOn = true) ∧
    (let s : State := wWl 4
     s.chip.rd .WALE_ADDRESS ≠ 0 ∧ s.chip.outclaimed (s.chip.rd .WALE_ADDRESS) = false ∧ s.chip.wlUps ≠ []) ∧
    (let s : State := wWl 4
     s.chip.rd .WALE_ADDRESS ≠ 0) := by
  refine ⟨?_, ?_, ?_, ?_, ?_, ?_⟩ <;> decide +kernel

theorem test_waleTimeExchangesGiveDelays :
    (let w : WlNo := 0
     let s : State := wWl 4
     s.chip.wlUps = [w.val] ∧ (s.chip.wl w).queue 0 = []) ∧
    (let w : WlNo := 0
     let s : State := (wWl 4).hold .WALE_UPSTREAM 0 0
     s.chip.upstreamUp = some w.val) ∧
    (let s : State := wWl 4
     s.chip.upstreamUp = none) ∧
    (let w : WlNo := 0
     let s : State := wWl 4
     s.chip.wlState w = 4) ∧
    (let w : WlNo := 0
     let s : State := wWl 4
     s.chip.wlState w = 4 ∧ (s.chip.wl w).queue 0 = []) ∧
    (let w : WlNo := 0
     let x : BitVec 192 := BitVec.ofNat 192 (9 * 2 ^ 176 + 2 * 2 ^ 168 + 5)
     let n : Nat := 9
     let t : Nat := 77
     let s : State := (wWl 4 { dreqOut := some (9, 77) }).hold .WALE_UPSTREAM 0 0
     let l := natToOctets 24 x.toNat
     s.chip.upstreamUp = some w.val ∧ octNat l 2 1 = 2 ∧ (s.chip.wl w).dreqOut = some (n, t) ∧ n = octNat l 0 2) ∧
    (let w : WlNo := 0
     let x : BitVec 192 := BitVec.ofNat 192 (9 * 2 ^ 176 + 1 * 2 ^ 168 + 5)
     let n : Nat := 9
     let t : Nat := 77
     let s : State := (wWl 4 { syncIn := some (9, 77) }).hold .WALE_UPSTREAM 0 0
     let l := natToOctets 24 x.toNat
     s.chip.upstreamUp = some w.val ∧ octNat l 2 1 = 1 ∧ (s.chip.wl w).syncIn = some (n, t) ∧ n = octNat l 0 2 ∧
       (s.chip.wl w).dreqDone = none) ∧
    (let w : WlNo := 0
     let x : BitVec 192 := BitVec.ofNat 192 (9 * 2 ^ 176 + 1 * 2 ^ 168 + 5)
     let n : Nat := 9
     let t : Nat := 77 * 2 ^ 60
     let t3 : Nat := 5
     let t4 : Nat := 2 ^ 60
     let s : State := (wWl 4 { syncIn := some (9, 77 * 2 ^ 60), dreqDone := some (5, 2 ^ 60) }).hold .WALE_UPSTREAM 0 0
     let l := natToOctets 24 x.toNat
     s.chip.upstreamUp = some w.val ∧ octNat l 2 1 = 1 ∧ (s.chip.wl w).syncIn = some (n, t) ∧ n = octNat l 0 2 ∧
       (s.chip.wl w).dreqDone = some (t3, t4) ∧ octNat l 3 1 % 2 = 0) ∧
    (let w : WlNo := 0
     let x : BitVec 192 := BitVec.ofNat 192 (9 * 2 ^ 176 + 1 * 2 ^ 168 + 5)
     let n : Nat := 8
     let t : Nat := 77
     let s : State := (wWl 4 { syncIn := some (8, 77) }).hold .WALE_UPSTREAM 0 0
     let l := natToOctets 24 x.toNat
     s.chip.upstreamUp = some w.val ∧ octNat l 2 1 = 1 ∧ (s.chip.wl w).syncIn = some (n, t) ∧ n ≠ octNat l 0 2) := by
  refine ⟨?_, ?_, ?_, ?_, ?_, ?_, ?_, ?_, ?_⟩ <;> decide +kernel

theorem test_readsAreCheckedInOrder :
    (let a : BitVec 40 := 0xF000000000
     addrTarget a.toNat = none) ∧
    (let a : BitVec 40 := wAddr 0 .PORT_MODE 0
     let w : Nat := 0
     let r : Reg := .PORT_MODE
     let i : Nat := 0
     addrTarget a.toNat = some (w, r, i) ∧ r.counts = false) ∧
    (let a : BitVec 40 := wAddr 0 .PORT_MODE 0
     let row : BitVec 24 := 1
     let b : Bool := false
     let w : Nat := 0
     let r : Reg := .PORT_MODE
     let i : Nat := 0
     addrTarget a.toNat = some (w, r, i) ∧ (b = true → r.counts = true) ∧ max 1 r.info.rows ≤ row.toNat) ∧
    (let a : BitVec 40 := wAddr 1 .HL_POLARITY 0
     let row : BitVec 24 := 0
     let b : Bool := false
     let w : Nat := 1
     let r : Reg := .HL_POLARITY
     let i : Nat := 0
     addrTarget a.toNat = some (w, r, i) ∧ (b = true → r.counts = true) ∧ row.toNat < max 1 r.info.rows ∧ (w ≠ 0 ∨ r.info.acc =
       .wo)) ∧
    (let a : BitVec 40 := wAddr 0 .PE_COEF 40
     let row : BitVec 24 := 0
     let w : Nat := 0
     let r : Reg := .PE_COEF
     let i : Nat := 40
     let s : State := wMap
     addrTarget a.toNat = some (w, r, i) ∧ row.toNat < max 1 r.info.rows ∧ w = 0 ∧ r.info.acc ≠ .wo ∧ s.chip.asleep r i = true) ∧
    (let a : BitVec 40 := wAddr 0 .PORT_MODE 0
     let row : BitVec 24 := 0
     let w : Nat := 0
     let r : Reg := .PORT_MODE
     let i : Nat := 0
     let s : State := wMap
     addrTarget a.toNat = some (w, r, i) ∧ row.toNat < max 1 r.info.rows ∧ w = 0 ∧ r.info.acc ≠ .wo ∧ s.chip.asleep r i = false) ∧
    (let a : BitVec 40 := wAddr 0 .LINK_DOWN_COUNT 0
     let row : BitVec 24 := 0
     let v : Nat := 7
     let w : Nat := 0
     let r : Reg := .LINK_DOWN_COUNT
     let i : Nat := 0
     let s : State := ({ chip := { wMap.chip with held := [(⟨.LINK_DOWN_COUNT, 0, 0⟩, some 7)] } } : State)
     addrTarget a.toNat = some (w, r, i) ∧ row.toNat < max 1 r.info.rows ∧ w = 0 ∧ r.counts = true ∧ r.info.acc ≠ .wo ∧
       s.chip.heldCopy r i row.toNat = some v) ∧
    (let a : BitVec 40 := wAddr 0 .LINK_DOWN_COUNT 0
     let row : BitVec 24 := 0
     let w : Nat := 0
     let r : Reg := .LINK_DOWN_COUNT
     let i : Nat := 0
     let s : State := ({ chip := { wMap.chip with held := [(⟨.LINK_DOWN_COUNT, 0, 0⟩, none)] } } : State)
     addrTarget a.toNat = some (w, r, i) ∧ row.toNat < max 1 r.info.rows ∧ w = 0 ∧ r.counts = true ∧ r.info.acc ≠ .wo ∧
       s.chip.heldCopy r i row.toNat = none) ∧
    (let a : BitVec 40 := wAddr 1 .HL_POLARITY 5
     let row : BitVec 24 := 0
     let w : Nat := 1
     let r : Reg := .HL_POLARITY
     let i : Nat := 5
     addrTarget a.toNat = some (w, r, i) ∧ row.toNat < max 1 r.info.rows) ∧
    (let a : BitVec 40 := 0xF000000000
     addrTarget a.toNat = none) := by
  refine ⟨?_, ?_, ?_, ?_, ?_, ?_, ?_, ?_, ?_, ?_⟩ <;> decide +kernel

theorem test_writesAreCheckedInOrder :
    (let a : BitVec 40 := 0xF000000000
     addrTarget a.toNat = none) ∧
    (let a : BitVec 40 := wAddr 0 .PORT_MODE 0
     let row : BitVec 24 := 1
     let w : Nat := 0
     let r : Reg := .PORT_MODE
     let i : Nat := 0
     addrTarget a.toNat = some (w, r, i) ∧ max 1 r.info.rows ≤ row.toNat) ∧
    (let a : BitVec 40 := wAddr 0 .LINK_STATE 0
     let row : BitVec 24 := 0
     let w : Nat := 0
     let r : Reg := .LINK_STATE
     let i : Nat := 0
     addrTarget a.toNat = some (w, r, i) ∧ row.toNat < max 1 r.info.rows ∧ (r.info.acc = .ro ∨ r.info.acc = .const)) ∧
    (let a : BitVec 40 := wAddr 0 .IMAGE_ERASE 0
     let row : BitVec 24 := 0
     let pa : Path := .line
     let w : Nat := 0
     let r : Reg := .IMAGE_ERASE
     let i : Nat := 0
     let s : State := wMap
     addrTarget a.toNat = some (w, r, i) ∧ row.toNat < max 1 r.info.rows ∧ r.info.acc ≠ .ro ∧ r.info.acc ≠ .const ∧
       s.chip.permits pa (r.info.cls.addr i) r.info.idx r.info.sub = false) ∧
    (let a : BitVec 40 := wAddr 0 .PORT_MODE 0
     let row : BitVec 24 := 0
     let v : List Octet := [0, 0]
     let pa : Path := .host
     let w : Nat := 0
     let r : Reg := .PORT_MODE
     let i : Nat := 0
     let s : State := wMap
     addrTarget a.toNat = some (w, r, i) ∧ row.toNat < max 1 r.info.rows ∧ r.info.acc ≠ .ro ∧ r.info.acc ≠ .const ∧
       s.chip.permits pa (r.info.cls.addr i) r.info.idx r.info.sub = true ∧ (v.length ≠ r.info.octets ∨ (r.isStatus = true ∧
       w ≠ 0))) ∧
    (let a : BitVec 40 := wAddr 0 .PORT_MODE 0
     let row : BitVec 24 := 0
     let v : List Octet := [0]
     let pa : Path := .host
     let w : Nat := 0
     let r : Reg := .PORT_MODE
     let i : Nat := 0
     let s : State := ({ chip := { wMap.chip with pwr := { wMap.chip.pwr with state := .standby } } } : State)
     addrTarget a.toNat = some (w, r, i) ∧ row.toNat < max 1 r.info.rows ∧ r.info.acc ≠ .ro ∧ r.info.acc ≠ .const ∧
       s.chip.permits pa (r.info.cls.addr i) r.info.idx r.info.sub = true ∧ v.length = r.info.octets ∧ (r.isStatus = true → w =
       0) ∧ s.chip.asleep r i = true) ∧
    (let a : BitVec 40 := wAddr 0 .TRAIN_RESTART 0
     let row : BitVec 24 := 0
     let v : List Octet := [0]
     let pa : Path := .host
     let w : Nat := 0
     let r : Reg := .TRAIN_RESTART
     let i : Nat := 0
     let s : State := wMap
     addrTarget a.toNat = some (w, r, i) ∧ row.toNat < max 1 r.info.rows ∧ r.info.acc ≠ .ro ∧ r.info.acc ≠ .const ∧
       s.chip.permits pa (r.info.cls.addr i) r.info.idx r.info.sub = true ∧ v.length = r.info.octets ∧ (r.isStatus = true → w =
       0) ∧ s.chip.asleep r i = false ∧ r.info.acc = .sc ∧ r ≠ .GATE_SWAP ∧ r ≠ .TA_CANCEL ∧ octetsToNat v = 0) ∧
    (let a : BitVec 40 := wAddr 3 .HL_POLARITY 5
     let row : BitVec 24 := 0
     let v : List Octet := [0, 2]
     let pa : Path := .host
     let w : Nat := 3
     let r : Reg := .HL_POLARITY
     let i : Nat := 5
     let s : State := wMap.hold .HL_POLARITY 5 1
     addrTarget a.toNat = some (w, r, i) ∧ row.toNat < max 1 r.info.rows ∧ r.info.acc ≠ .ro ∧ r.info.acc ≠ .const ∧
       s.chip.permits pa (r.info.cls.addr i) r.info.idx r.info.sub = true ∧ v.length = r.info.octets ∧ s.chip.asleep r i =
       false ∧ r = .HL_POLARITY) ∧
    (let a : BitVec 40 := wAddr 0 .EV_COALESCE_WINDOW 0
     let row : BitVec 24 := 0
     let v : List Octet := [0, 0, 0, 9]
     let pa : Path := .host
     let w : Nat := 0
     let r : Reg := .EV_COALESCE_WINDOW
     let i : Nat := 0
     let s : State := wMap
     addrTarget a.toNat = some (w, r, i) ∧ row.toNat < max 1 r.info.rows ∧ r.info.acc ≠ .ro ∧ r.info.acc ≠ .const ∧
       s.chip.permits pa (r.info.cls.addr i) r.info.idx r.info.sub = true ∧ v.length = r.info.octets ∧ s.chip.asleep r i =
       false ∧ r = .EV_COALESCE_WINDOW ∧ w = 0 ∧ 1 ≤ octetsToNat v ∧ octetsToNat v ≤ 1000) ∧
    (let a : BitVec 40 := wAddr 0 .EV_COALESCE_WINDOW 0
     let row : BitVec 24 := 0
     let v : List Octet := [0, 0, 9, 9]
     let pa : Path := .host
     let w : Nat := 0
     let r : Reg := .EV_COALESCE_WINDOW
     let i : Nat := 0
     let s : State := wMap
     addrTarget a.toNat = some (w, r, i) ∧ row.toNat < max 1 r.info.rows ∧ r.info.acc ≠ .ro ∧ r.info.acc ≠ .const ∧
       s.chip.permits pa (r.info.cls.addr i) r.info.idx r.info.sub = true ∧ v.length = r.info.octets ∧ s.chip.asleep r i =
       false ∧ r = .EV_COALESCE_WINDOW ∧ w = 0 ∧ (octetsToNat v = 0 ∨ 1000 < octetsToNat v)) ∧
    (let a : BitVec 40 := 0xF000000000
     addrTarget a.toNat = none) ∧
    (let a : BitVec 40 := wAddr 0 .PORT_MODE 0
     let row : BitVec 24 := 1
     let w : Nat := 0
     let r : Reg := .PORT_MODE
     let i : Nat := 0
     addrTarget a.toNat = some (w, r, i) ∧ max 1 r.info.rows ≤ row.toNat) ∧
    (let a : BitVec 40 := wAddr 0 .LINK_STATE 0
     let row : BitVec 24 := 0
     let w : Nat := 0
     let r : Reg := .LINK_STATE
     let i : Nat := 0
     addrTarget a.toNat = some (w, r, i) ∧ row.toNat < max 1 r.info.rows ∧ (r.info.acc = .ro ∨ r.info.acc = .const)) ∧
    (let a : BitVec 40 := wAddr 0 .IMAGE_ERASE 0
     let row : BitVec 24 := 0
     let pa : Path := .line
     let w : Nat := 0
     let r : Reg := .IMAGE_ERASE
     let i : Nat := 0
     let s : State := wMap
     addrTarget a.toNat = some (w, r, i) ∧ row.toNat < max 1 r.info.rows ∧ r.info.acc ≠ .ro ∧ r.info.acc ≠ .const ∧
       s.chip.permits pa (r.info.cls.addr i) r.info.idx r.info.sub = false) ∧
    (let a : BitVec 40 := wAddr 0 .PORT_MODE 0
     let row : BitVec 24 := 0
     let v : List Octet := [0, 0]
     let pa : Path := .host
     let w : Nat := 0
     let r : Reg := .PORT_MODE
     let i : Nat := 0
     let s : State := wMap
     addrTarget a.toNat = some (w, r, i) ∧ row.toNat < max 1 r.info.rows ∧ r.info.acc ≠ .ro ∧ r.info.acc ≠ .const ∧
       s.chip.permits pa (r.info.cls.addr i) r.info.idx r.info.sub = true ∧ (v.length ≠ r.info.octets ∨ (r.isStatus = true ∧
       w ≠ 0))) ∧
    (let a : BitVec 40 := wAddr 0 .PORT_MODE 0
     let row : BitVec 24 := 0
     let v : List Octet := [0]
     let pa : Path := .host
     let w : Nat := 0
     let r : Reg := .PORT_MODE
     let i : Nat := 0
     let s : State := ({ chip := { wMap.chip with pwr := { wMap.chip.pwr with state := .standby } } } : State)
     addrTarget a.toNat = some (w, r, i) ∧ row.toNat < max 1 r.info.rows ∧ r.info.acc ≠ .ro ∧ r.info.acc ≠ .const ∧
       s.chip.permits pa (r.info.cls.addr i) r.info.idx r.info.sub = true ∧ v.length = r.info.octets ∧ (r.isStatus = true → w =
       0) ∧ s.chip.asleep r i = true) ∧
    (let a : BitVec 40 := wAddr 0 .TRAIN_RESTART 0
     let row : BitVec 24 := 0
     let v : List Octet := [0]
     let pa : Path := .host
     let w : Nat := 0
     let r : Reg := .TRAIN_RESTART
     let i : Nat := 0
     let s : State := wMap
     addrTarget a.toNat = some (w, r, i) ∧ row.toNat < max 1 r.info.rows ∧ r.info.acc ≠ .ro ∧ r.info.acc ≠ .const ∧
       s.chip.permits pa (r.info.cls.addr i) r.info.idx r.info.sub = true ∧ v.length = r.info.octets ∧ (r.isStatus = true → w =
       0) ∧ s.chip.asleep r i = false ∧ r.info.acc = .sc ∧ r ≠ .GATE_SWAP ∧ r ≠ .TA_CANCEL ∧ octetsToNat v = 0) ∧
    (let a : BitVec 40 := wAddr 3 .HL_POLARITY 5
     let row : BitVec 24 := 0
     let v : List Octet := [0, 2]
     let pa : Path := .host
     let w : Nat := 3
     let r : Reg := .HL_POLARITY
     let i : Nat := 5
     let s : State := wMap.hold .HL_POLARITY 5 1
     addrTarget a.toNat = some (w, r, i) ∧ row.toNat < max 1 r.info.rows ∧ r.info.acc ≠ .ro ∧ r.info.acc ≠ .const ∧
       s.chip.permits pa (r.info.cls.addr i) r.info.idx r.info.sub = true ∧ v.length = r.info.octets ∧ s.chip.asleep r i =
       false ∧ r = .HL_POLARITY) ∧
    (let a : BitVec 40 := wAddr 0 .EV_COALESCE_WINDOW 0
     let row : BitVec 24 := 0
     let v : List Octet := [0, 0, 0, 9]
     let pa : Path := .host
     let w : Nat := 0
     let r : Reg := .EV_COALESCE_WINDOW
     let i : Nat := 0
     let s : State := wMap
     addrTarget a.toNat = some (w, r, i) ∧ row.toNat < max 1 r.info.rows ∧ r.info.acc ≠ .ro ∧ r.info.acc ≠ .const ∧
       s.chip.permits pa (r.info.cls.addr i) r.info.idx r.info.sub = true ∧ v.length = r.info.octets ∧ s.chip.asleep r i =
       false ∧ r = .EV_COALESCE_WINDOW ∧ w = 0 ∧ 1 ≤ octetsToNat v ∧ octetsToNat v ≤ 1000) ∧
    (let a : BitVec 40 := wAddr 0 .EV_COALESCE_WINDOW 0
     let row : BitVec 24 := 0
     let v : List Octet := [0, 0, 9, 9]
     let pa : Path := .host
     let w : Nat := 0
     let r : Reg := .EV_COALESCE_WINDOW
     let i : Nat := 0
     let s : State := wMap
     addrTarget a.toNat = some (w, r, i) ∧ row.toNat < max 1 r.info.rows ∧ r.info.acc ≠ .ro ∧ r.info.acc ≠ .const ∧
       s.chip.permits pa (r.info.cls.addr i) r.info.idx r.info.sub = true ∧ v.length = r.info.octets ∧ s.chip.asleep r i =
       false ∧ r = .EV_COALESCE_WINDOW ∧ w = 0 ∧ (octetsToNat v = 0 ∨ 1000 < octetsToNat v)) := by
  refine ⟨?_, ?_, ?_, ?_, ?_, ?_, ?_, ?_, ?_, ?_, ?_, ?_, ?_, ?_, ?_, ?_, ?_, ?_, ?_, ?_⟩ <;> decide +kernel

theorem test_statusObjectsAndSnapshotsFollow :
    (let x : BitVec 12 := BitVec.ofNat 12 (Cls.port.addr 5)
     let v : BitVec 64 := BitVec.ofNat 64 (7 * 2 ^ 48 + 9)
     let k : Cls := .port
     let i : Nat := 5
     let s : State := wMap.hold .EV_STATUS_PORT 5 (7 * 2 ^ 48 + 3)
     clsOf x.toNat = some (k, i) ∧ s.chip.asleep k.evStatus i = false ∧ statusSeq v.toNat = statusSeq (s.chip.rd k.evStatus i) ∧
       s.chip.rd k.evStatus i < 2 ^ 64) ∧
    (let x : BitVec 12 := BitVec.ofNat 12 (Cls.port.addr 5)
     let v : BitVec 64 := BitVec.ofNat 64 (7 * 2 ^ 48 + 9)
     let k : Cls := .port
     let i : Nat := 5
     let s : State := wMap.hold .EV_STATUS_PORT 5 (6 * 2 ^ 48 + 3)
     clsOf x.toNat = some (k, i) ∧ s.chip.asleep k.evStatus i = false ∧ statusSeq v.toNat ≠ statusSeq (s.chip.rd k.evStatus i)) ∧
    (let v : BitVec 64 := BitVec.ofNat 64 (7 * 2 ^ 48 + 9)
     let s : State := wMap.hold .BUF_MISS_STATUS 0 (7 * 2 ^ 48 + 3)
     s.chip.asleep .BUF_MISS_STATUS 0 = false ∧ statusSeq v.toNat = statusSeq (s.chip.rd .BUF_MISS_STATUS) ∧
       s.chip.rd .BUF_MISS_STATUS < 2 ^ 64) ∧
    (let x : BitVec 12 := BitVec.ofNat 12 (Cls.port.addr 5)
     let i : Nat := 5
     let s : State := wMap.hold .LINK_DOWN_COUNT 5 3
     clsOf x.toNat = some (.port, i) ∧ s.chip.asleep .SNAPSHOT_PORT i = false) ∧
    (let x : BitVec 12 := BitVec.ofNat 12 (Cls.port.addr 5)
     let k : Cls := .port
     let i : Nat := 5
     let r : Reg := .SNAPSHOT_PORT
     let s : State := wMap
     clsOf x.toNat = some (k, i) ∧ k.snapshotReg = some r ∧ s.chip.asleep r i = false) ∧
    (let x : BitVec 12 := BitVec.ofNat 12 (Cls.port.addr 5)
     let v : BitVec 8 := 2
     let k : Cls := .port
     let i : Nat := 5
     let r : Reg := .SNAPSHOT_PORT
     let s : State := wMap
     clsOf x.toNat = some (k, i) ∧ k.snapshotReg = some r ∧ s.chip.asleep r i = false ∧ 1 < v.toNat) := by
  refine ⟨?_, ?_, ?_, ?_, ?_, ?_⟩ <;> decide +kernel

theorem test_dapRequestsAreCarriedOutAndAnswered :
    (let l : List Octet := wMsg 5 1 (wAddr 0 .PORT_MODE 0) 0
     let m : DapMsg := ⟨0, 5, 0, 0, [⟨1, (wAddr 0 .PORT_MODE 0).toNat, 0, []⟩], wMsg 5 1 (wAddr 0 .PORT_MODE 0) 0⟩
     let o : DapOp := ⟨1, (wAddr 0 .PORT_MODE 0).toNat, 0, []⟩
     let s : State := wMap
     let x := (s.chip.inc .DAP_REQUESTS).readAddr o.addr o.row o.held
     s.chip.boot.phase ≠ .noPower ∧ s.chip.boot.phase ≠ .inReset ∧ s.chip.pwr.state ≠ .standby ∧ s.chip.pwr.state ≠ .off ∧
       s.chip.dap.spiBusy = false ∧ s.chip.dap.spiOut = none ∧ l.length ≤ 2000 ∧ dapParse 0x11 l = some m ∧ m.dest = 0 ∧ m.ops =
       [o] ∧ o.code = 1 ∧ (s.chip.dapKept .spi) = [] ∧ 8 + (o.result x.1 x.2).length ≤ 2000) ∧
    (let l : List Octet := wMsg 5 1 (wAddr 0 .PORT_MODE 0) 0
     let m : DapMsg := ⟨0, 5, 0, 0, [⟨1, (wAddr 0 .PORT_MODE 0).toNat, 0, []⟩], wMsg 5 1 (wAddr 0 .PORT_MODE 0) 0⟩
     let k : DapReply := ⟨0, 5, wMsg 5 1 (wAddr 0 .PORT_MODE 0) 0, [9], 0⟩
     let s : State := ({ chip := { wMap.chip with root := 9, dap := { wMap.chip.dap with kept := [(4, [⟨0, 5, wMsg 5 1 (wAddr 0 .PORT_MODE 0) 0, [9], 0⟩])] } } } :
       State)
     s.chip.boot.phase ≠ .noPower ∧ s.chip.boot.phase ≠ .inReset ∧ s.chip.pwr.state ≠ .standby ∧ s.chip.pwr.state ≠ .off ∧
       s.chip.dap.spiBusy = false ∧ s.chip.dap.spiOut = none ∧ l.length ≤ 2000 ∧ dapParse 0x11 l = some m ∧ m.dest = 0 ∧
       s.chip.dapKept .spi = [k] ∧ k.requester = 0 ∧ k.txn = m.txn ∧ k.request = m.raw) ∧
    (let n : BitVec 16 := 2
     let l : List Octet := [1, 2]
     let x : BitVec 32 := BitVec.ofNat 32 (crc32 [0, 2, 1, 2])
     let s : State := wMap
     s.chip.boot.phase ≠ .noPower ∧ s.chip.boot.phase ≠ .inReset ∧ s.chip.pwr.state ≠ .standby ∧ s.chip.pwr.state ≠ .off ∧
       s.chip.dap.spiBusy = false ∧ s.chip.dap.spiOut = none ∧ n.toNat = l.length ∧ crc32 (natToOctets 2 l.length ++ l) =
       x.toNat ∧ l.length ≤ 2000 ∧ dapParse 0x11 l = none) ∧
    (let n : BitVec 16 := 20
     let x : BitVec 32 := BitVec.ofNat 32 (crc32 (natToOctets 2 20 ++ wMsg 5 3 (wAddr 0 .PORT_MODE 0) 0))
     let l : List Octet := wMsg 5 3 (wAddr 0 .PORT_MODE 0) 0
     let m : DapMsg := ⟨0, 5, 0, 0, [⟨3, (wAddr 0 .PORT_MODE 0).toNat, 0, []⟩], wMsg 5 3 (wAddr 0 .PORT_MODE 0) 0⟩
     let o : DapOp := ⟨3, (wAddr 0 .PORT_MODE 0).toNat, 0, []⟩
     let s : State := wMap
     s.chip.boot.phase ≠ .noPower ∧ s.chip.boot.phase ≠ .inReset ∧ s.chip.pwr.state ≠ .standby ∧ s.chip.pwr.state ≠ .off ∧
       s.chip.dap.spiBusy = false ∧ s.chip.dap.spiOut = none ∧ n.toNat = l.length ∧ crc32 (natToOctets 2 l.length ++ l) =
       x.toNat ∧ l.length ≤ 2000 ∧ dapParse 0x11 l = some m ∧ m.dest = 0 ∧ m.ops = [o] ∧ o.code = 3 ∧ (s.chip.dapKept .spi) =
       [] ∧ s.chip.dap.spiCrcErr = false) ∧
    (let n : BitVec 16 := 2
     let l : List Octet := [1, 2]
     let x : BitVec 32 := 5
     let s : State := wMap
     s.chip.boot.phase ≠ .noPower ∧ s.chip.boot.phase ≠ .inReset ∧ s.chip.dap.spiBusy = false ∧ s.chip.dap.spiOut = none ∧
       (n.toNat ≠ l.length ∨ crc32 (natToOctets 2 n.toNat ++ l) ≠ x.toNat)) ∧
    (let m : List Octet := [7]
     let s : State := ({ chip := { wMap.chip with dap := { spiOut := some [7] } } } : State)
     s.chip.boot.phase ≠ .noPower ∧ s.chip.boot.phase ≠ .inReset ∧ s.chip.dap.spiOut = some m) ∧
    (let s : State := wMap
     s.chip.boot.phase ≠ .noPower ∧ s.chip.boot.phase ≠ .inReset) ∧
    (let l : List Octet := [7]
     let s : State := ({ chip := { wMap.chip with dap := { spiOut := some [7] } } } : State)
     s.chip.boot.phase ≠ .noPower ∧ s.chip.boot.phase ≠ .inReset ∧ s.chip.dap.spiOut = some l) ∧
    (let f : List Octet := []
     let s : State := wMap
     s.chip.pathOpen (.wale 0) = true ∧ dapParse 0x12 (frameBody f) = none) ∧
    (let f : List Octet := dapFrameOf 0 [] 0x88B5 ([0x12] ++ (wMsg 5 1 (wAddr 0 .PORT_MODE 0) 0).drop 1)
     let m : DapMsg := ⟨0, 5, 0, 0, [⟨1, (wAddr 0 .PORT_MODE 0).toNat, 0, []⟩],
       [0x12] ++ (wMsg 5 1 (wAddr 0 .PORT_MODE 0) 0).drop 1⟩
     let s : State := wMap
     s.chip.pathOpen (.wale 0) = true ∧ dapParse 0x12 (frameBody f) = some m ∧ s.chip.dap.relays = []) ∧
    (let f : List Octet := dapFrameOf 0 [] 0x88B5 ([0x12] ++ (wMsg 5 1 (wAddr 0 .PORT_MODE 0) 0).drop 1)
     let m : DapMsg := ⟨0, 5, 0, 0, [⟨1, (wAddr 0 .PORT_MODE 0).toNat, 0, []⟩],
       [0x12] ++ (wMsg 5 1 (wAddr 0 .PORT_MODE 0) 0).drop 1⟩
     let k : DapRelay := ⟨5, 0, .spi, 0, []⟩
     let s : State := ({ chip := { wMap.chip with dap := { relays := [⟨5, 0, .spi, 0, []⟩] } } } : State)
     s.chip.pathOpen (.wale 0) = true ∧ dapParse 0x12 (frameBody f) = some m ∧ s.chip.dap.relays = [k] ∧ k.txn = m.txn ∧
       k.dest = m.src ∧ k.via = .spi ∧ s.chip.dap.spiOut = none) ∧
    (let s : State := wMap.hold .MGMT_ENABLE 0 1
     s.chip.pathOpen .mgmt = true ∧ s.chip.rdBool .MGMT_ENABLE = true) ∧
    (let s : State := (wMap.hold .MGMT_ENABLE 0 1).hold .MGMT_STATUS 0 15
     s.chip.pathOpen .mgmt = true ∧ s.chip.rdBool .MGMT_ENABLE = true) ∧
    (let n : Nat := 5
     let e : EvName := .linkUp
     let x : Window := { inst := 5, ev := .linkUp }
     let s : State := ({ chip := { wMap.chip with ev := { windows := [{ inst := 5, ev := .linkUp }] } } } : State)
     s.chip.ev.windows = [x] ∧ x.inst = n ∧ x.ev = e ∧ x.folded = 0 ∧ s.chip.ev.raised = []) ∧
    (let n : Nat := 5
     let e : EvName := .linkUp
     let x : Window := { inst := 5, ev := .linkUp, folded := 3 }
     let s : State := ({ chip := { wMap.chip with ev := { windows := [{ inst := 5, ev := .linkUp, folded := 3 }] } } } :
       State).hold .WALE_EVENT_DEST 0 0
     s.chip.ev.windows = [x] ∧ x.inst = n ∧ x.ev = e ∧ x.folded ≠ 0 ∧ s.chip.ev.raised = [] ∧ s.chip.rd .EV_RING_MODE = 0 ∧
       s.chip.evFill < 3072 ∧ s.chip.rd .WALE_EVENT_DEST = 0) ∧
    (let v : BitVec 64 := 7
     let s : State := wMap.hold .EV_WRITE_COUNT 0 9
     s.chip.asleep .EV_READ_COUNT 0 = false ∧ s.chip.rd .EV_READ_COUNT ≤ v.toNat ∧ v.toNat ≤ s.chip.rd .EV_WRITE_COUNT ∧
       s.chip.ev.overflow = none) ∧
    (let v : BitVec 64 := 17
     let s : State := wMap.hold .EV_WRITE_COUNT 0 9
     s.chip.asleep .EV_READ_COUNT 0 = false ∧ (v.toNat < s.chip.rd .EV_READ_COUNT ∨ s.chip.rd .EV_WRITE_COUNT < v.toNat)) := by
  refine ⟨?_, ?_, ?_, ?_, ?_, ?_, ?_, ?_, ?_, ?_, ?_, ?_, ?_, ?_, ?_, ?_, ?_⟩ <;> decide +kernel

theorem test_powerRequestsStartOrWait :
    (let s : State := wPwr { rootOn := true }
     s.chip.asleep .PWR_REQUEST 0 = false ∧ s.chip.inTransition = false ∧ s.chip.pwr.state = .active) ∧
    (let s : State := wPwr { rootOn := true }
     s.chip.asleep .PWR_REQUEST 0 = false ∧ s.chip.inTransition = false ∧ s.chip.pwr.state = .active) ∧
    (let s : State := wPwr { rootOn := true, agreed := some [] }
     s.chip.asleep .PWR_REQUEST 0 = false ∧ s.chip.inTransition = true) ∧
    (let s : State := wPwr { rootOn := true, agreed := some [] }
     s.chip.asleep .PWR_REQUEST 0 = false ∧ s.chip.inTransition = true) ∧
    (let s : State := wPwr { rootOn := true, agreed := some [] }
     s.chip.asleep .PWR_REQUEST 0 = false ∧ s.chip.inTransition = true) ∧
    (let s : State := wPwr { rootOn := true }
     s.chip.asleep .PWR_REQUEST 0 = false ∧ s.chip.inTransition = false ∧ s.chip.pwr.state = .active) ∧
    (let s : State := wPwr { rootOn := true, state := .wakeFault }
     s.chip.asleep .PWR_REQUEST 0 = false ∧ s.chip.inTransition = false ∧ s.chip.pwr.state = .wakeFault) ∧
    (let s : State := wPwr { rootOn := true, state := .wakeFault }
     s.chip.asleep .PWR_DIRECT 0 = false ∧ s.chip.inTransition = false ∧ s.chip.pwr.state = .wakeFault) ∧
    (let s : State := ((wPwr { rootOn := true }).hold .PWR_TEST_MODE 0 1)
     s.chip.asleep .PWR_DIRECT 0 = false ∧ s.chip.rdBool .PWR_TEST_MODE = true ∧ s.chip.inTransition = false ∧
       s.chip.pwr.state = .active) ∧
    (let s : State := ((wPwr { rootOn := true }).hold .PWR_TEST_MODE 0 1)
     s.chip.asleep .PWR_DIRECT 0 = false ∧ s.chip.rdBool .PWR_TEST_MODE = true ∧ s.chip.inTransition = false ∧
       s.chip.pwr.state = .active) ∧
    (let s : State := wPwr { rootOn := true }
     s.chip.asleep .PWR_DIRECT 0 = false ∧ s.chip.directAllowed = false) ∧
    (let s : State := wPwr { rootOn := true }
     s.chip.asleep .PWR_DIRECT 0 = false ∧ s.chip.directAllowed = false) ∧
    (let s : State := wPwr { rootOn := true }
     s.chip.asleep .PWR_DIRECT 0 = false ∧ s.chip.directAllowed = false) ∧
    (let t : TileNo := 0
     let s : State := ({ chip := { (wTile { st := .sleep }).chip with bist := { slices := [(4096 + 3, 64)] } } } : State)
     s.chip.asleep .TILE_REQUEST t = false ∧ s.chip.inTransition = false ∧ s.chip.pwr.state = .active ∧ s.chip.tileBusy t =
       false ∧ ((s.chip.tile t).st = .sleep ∨ (s.chip.tile t).st = .down)) ∧
    (let t : TileNo := 0
     let s : State := wTile { st := .run }
     s.chip.asleep .TILE_REQUEST t = false ∧ s.chip.inTransition = false ∧ s.chip.pwr.state = .active ∧ s.chip.tileBusy t =
       false ∧ (s.chip.tile t).st = .run) ∧
    (let t : TileNo := 0
     let s : State := wTile { st := .isolated }
     s.chip.asleep .TILE_REQUEST t = false ∧ (s.chip.tile t).st = .isolated) ∧
    (let t : TileNo := 0
     let s : State := wTile { st := .isolated }
     s.chip.asleep .TILE_REQUEST t = false ∧ (s.chip.tile t).st = .isolated) ∧
    (let t : TileNo := 0
     let s : State := wTile { st := .sleep, waking := true }
     s.chip.asleep .TILE_REQUEST t = false ∧ (s.chip.tile t).st ≠ .isolated ∧ s.chip.tileBusy t = true) ∧
    (let t : TileNo := 0
     let s : State := wTile { st := .sleep, waking := true }
     s.chip.asleep .TILE_REQUEST t = false ∧ (s.chip.tile t).st ≠ .isolated ∧ s.chip.tileBusy t = true) := by
  refine ⟨?_, ?_, ?_, ?_, ?_, ?_, ?_, ?_, ?_, ?_, ?_, ?_, ?_, ?_, ?_, ?_, ?_, ?_, ?_⟩ <;> decide +kernel

theorem test_handshakesEntriesAndWakesFollowTheirSteps :
    (let b : Fin 11 := 2
     let l : List Nat := []
     let s : State := wPwr { rootOn := true, agreed := some [] }
     s.chip.pwr.agreed = some l ∧ (handshakeBlocks false).contains b.val = true ∧ l.contains b.val = false ∧
       s.chip.refusal b.val = 0) ∧
    (let t : TileNo := 0
     let b : Fin 11 := 6
     let l : List Nat := [1, 5]
     let s : State := wTile { st := .run, agreed := some [1, 5] }
     (s.chip.tile t).agreed = some l ∧ (handshakeBlocks true).contains b.val = true ∧ l.contains b.val = false ∧
       s.chip.refusal b.val = 0) ∧
    (let b : Fin 11 := 8
     let l : List Nat := [2]
     let s : State := ({ chip := { (wPwr { rootOn := true, agreed := some [2] }).chip with cfg := { deadline := some 5 } } } :
       State)
     s.chip.pwr.agreed = some l ∧ (handshakeBlocks false).contains b.val = true ∧ l.contains b.val = false ∧
       s.chip.refusal b.val ≠ 0 ∧ s.chip.pwr.pending = none) ∧
    (let b : Fin 11 := 8
     let l : List Nat := [2]
     let s : State := wPwr { rootOn := true, agreed := some [2] }
     s.chip.pwr.agreed = some l ∧ (handshakeBlocks false).contains b.val = true ∧ l.contains b.val = false ∧
       s.chip.pwr.pending = none) ∧
    (let s : State := wPwr { rootOn := true }
     s.chip.pwr.agreed = none) ∧
    (let s : State := wPwr { rootOn := true, entering := true, target := .standby }
     s.chip.pwr.entering = true ∧ s.chip.pwr.target = .standby ∧ s.chip.pwr.pending = none) ∧
    (let s : State := wPwr { rootOn := true, entering := true, target := .off }
     s.chip.pwr.entering = true ∧ s.chip.pwr.target = .off ∧ s.chip.pwr.pending ≠ some .active) ∧
    (let t : TileNo := 0
     let s : State := wTile { st := .run, entering := true }
     (s.chip.tile t).entering = true ∧ (s.chip.tile t).pending = none) ∧
    (let k : WakeKind := .spi
     let s : State := wPwr { state := .standby }
     s.chip.boot.phase ≠ .noPower ∧ s.chip.boot.phase ≠ .inReset ∧ s.chip.pwr.state = .standby ∧ s.chip.pwr.entering = false ∧
       s.chip.pwr.waking = none ∧ s.chip.wakeQualified k = true) ∧
    (let k : WakeKind := .mgmt
     let s : State := (wPwr { state := .standby }).hold .WAKE_SOURCES 0 0
     s.chip.pwr.state ≠ .off ∧ s.chip.wakeQualified k = false) ∧
    (let p : PortNo := 0
     let b : Bool := true
     let s : State := ((((wTile { st := .sleep }).hold .WAKE_SOURCES 0 0x31).hold .PORT_ENABLE 0 1).hold .WAKE_LINE_QUAL 0 1)
     s.chip.boot.phase ≠ .noPower ∧ s.chip.boot.phase ≠ .inReset ∧ s.chip.pwr.state = .active ∧ s.chip.pwr.entering = false ∧
       s.chip.wakeQualified (.line p b) = true ∧ (s.chip.tile (tileOf p)).st = .sleep ∧ s.chip.tileBusy (tileOf p) = false) ∧
    (let s : State := wPwr { state := .standby, waking := some .fro }
     s.chip.pwr.waking = some .fro ∧ s.chip.dap.spiHeld = none) ∧
    (let s : State := wPwr { state := .standby, waking := some .reference }
     s.chip.pwr.waking = some .reference ∧ s.chip.dap.spiHeld = none) ∧
    (let s : State := wPwr { state := .standby, waking := some .pll }
     s.chip.pwr.waking = some .pll ∧ s.chip.pwr.relock = false ∧ s.chip.dap.spiHeld = none) ∧
    (let s : State := ({ chip := { wChip with pwr := { state := .standby, rootOn := true, waking := some .domains } } } : State)
     s.chip.pwr.waking = some .domains ∧ s.chip.boot.applied = true ∧ s.chip.dap.spiHeld = none ∧ (s.chip.tile 0).st = .down) ∧
    (let t : TileNo := 0
     let s : State := wTile { st := .sleep, waking := true }
     s.chip.pwr.waking = none ∧ (s.chip.tile t).waking = true ∧ (s.chip.tile t).pending = none ∧ s.chip.dap.spiHeld = none ∧
       s.chip.pwr.rootOn = true) ∧
    (let s : State := wPwr { state := .standby, waking := some .reference, tries := 1 }
     s.chip.pwr.waking = some .reference ∧ s.chip.dap.spiHeld = none ∧ s.chip.pwr.tries < 2) ∧
    (let s : State := wPwr { state := .standby, waking := some .pll, tries := 2 }
     s.chip.pwr.waking = some .pll ∧ s.chip.dap.spiHeld = none ∧ 2 ≤ s.chip.pwr.tries ∧ s.chip.pwr.pending = none) ∧
    (let t : TileNo := 0
     let s : State := wTile { st := .sleep, waking := true }
     s.chip.pwr.waking = none ∧ (s.chip.tile t).waking = true ∧ s.chip.dap.spiHeld = none ∧ (s.chip.tile t).tries < 2) ∧
    (let t : TileNo := 0
     let s : State := wTile { st := .sleep, waking := true, tries := 2 }
     s.chip.pwr.waking = none ∧ (s.chip.tile t).waking = true ∧ (s.chip.tile t).st ≠ .isolated ∧ s.chip.dap.spiHeld = none ∧
       2 ≤ (s.chip.tile t).tries) := by
  refine ⟨?_, ?_, ?_, ?_, ?_, ?_, ?_, ?_, ?_, ?_, ?_, ?_, ?_, ?_, ?_, ?_, ?_, ?_, ?_, ?_⟩ <;> decide +kernel

theorem test_levelsClocksAndMonitorsFollow :
    (let t : TileNo := 0
     let s : State := wTile { st := .run, level := 0 }
     s.chip.levelManual t = false ∧ (s.chip.tile t).st = .run ∧ (s.chip.tile t).levelTarget = none ∧
       (s.chip.tile t).levelPending = none ∧ (s.chip.tile t).level < s.chip.tileNeed t) ∧
    (let t : TileNo := 0
     let s : State := wTile { st := .run, level := 3 }
     (s.chip.levelManual t = true ∨ s.chip.tileNeed t ≤ (s.chip.tile t).levelGoal)) ∧
    (let t : TileNo := 0
     let l : Nat := 2
     let s : State := wTile { st := .run, level := 0, levelTarget := some 2 }
     (s.chip.tile t).levelTarget = some l ∧ (s.chip.tile t).levelPending = none ∧ (∀ p ∈ s.chip.portsOfTile t,
       (s.chip.port p).waitLevel = false)) ∧
    (let t : TileNo := 0
     let v : BitVec 8 := 2
     let s : State := (wTile { st := .run, level := 0 }).hold .TILE_PL_MODE 0 1
     s.chip.asleep .TILE_PL_SET t = false ∧ v.toNat ≤ 3 ∧ s.chip.levelManual t = true ∧ s.chip.levelBreaks t v.toNat = false ∧
       s.chip.tileCalibrates t = false ∧ (s.chip.tile t).st = .run ∧ (s.chip.tile t).levelTarget = none ∧
       (s.chip.tile t).level ≠ v.toNat) ∧
    (let t : TileNo := 0
     let v : BitVec 8 := 2
     let s : State := wTile { st := .run, level := 0 }
     s.chip.asleep .TILE_PL_SET t = false ∧ v.toNat ≤ 3 ∧ (s.chip.levelManual t = false ∨ s.chip.levelBreaks t v.toNat = true)) ∧
    (let t : TileNo := 0
     let s : State := (wTile { st := .run, level := 0 }).hold .TILE_PL_MODE 0 1
     s.chip.asleep .TILE_PL_MODE t = false ∧ (s.chip.tile t).levelGoal ≤ s.chip.tileNeed t) ∧
    (let t : TileNo := 0
     let b : Bool := true
     let v : BitVec 8 := 4
     let s : State := wTile { st := .run, level := 0 }
     (s.chip.asleep (if b then .TILE_PL_SET else .TILE_PL_MODE) t = false) ∧ ((if b then 3 else 1) < v.toNat)) ∧
    (let v : BitVec 32 := 0xFFFFFFFF
     let s : State := wTile { st := .run, level := 0 }
     s.chip.asleep .LEGACY_GATE 0 = false ∧ s.chip.gatesLawful (v.toNat &&& 0xFFFFFF7F) = true) ∧
    (let v : BitVec 32 := 0x10001
     let b : Nat := 16
     let a : Nat := 1
     let s : State := wTile { st := .run, level := 0 }
     s.chip.asleep .LEGACY_GATE 0 = false ∧ gateBits.contains b = true ∧ gateParent b = some a ∧ v.toNat.testBit b = true ∧
       (v.toNat &&& 0xFFFFFF7F).testBit a = false) ∧
    (let t : TileNo := 0
     let s : State := wTile { st := .run }
     (s.chip.tile t).st = .run) ∧
    (let t : TileNo := 0
     let s : State := wTile { st := .sleep }
     (s.chip.tile t).st ≠ .run) ∧
    (let s : State := wTile { st := .run }
     s.chip.pwr.rootOn = true) ∧
    (let s : State := wPwr { state := .standby }
     s.chip.pwr.rootOn = false) ∧
    (let t : TileNo := 0
     let s : State := wTile { st := .run }
     (s.chip.tile t).st ≠ .isolated ∧ s.chip.pwr.waking = none) := by
  refine ⟨?_, ?_, ?_, ?_, ?_, ?_, ?_, ?_, ?_, ?_, ?_, ?_, ?_, ?_⟩ <;> decide +kernel

theorem test_calibrationRoundsVisitsAndRecords :
    (let e : PeNo := 0
     let s : State := wPort {}
     s.chip.asleep .CAL_START e = false ∧ (s.chip.calOf e).fg = false ∧ (s.chip.port (s.chip.portOf e)).link = .disabled ∧
       s.chip.tileRuns (tileOf e) = true ∧ s.chip.rdBit .LEGACY_GATE (16 + tileOf e) = true) ∧
    (let e : PeNo := 0
     let s : State := wCalOf { fg := true }
     s.chip.asleep .CAL_START e = false ∧ (s.chip.calOf e).fg = true) ∧
    (let e : PeNo := 0
     let s : State := wCalOf {}
     s.chip.asleep .CAL_START e = false ∧ (s.chip.calOf e).fg = false ∧
       ((s.chip.port (s.chip.portOf e)).link ≠ .disabled ∨ s.chip.tileRuns (tileOf e) =
       false ∨ s.chip.rdBit .LEGACY_GATE (16 + tileOf e) = false)) ∧
    (let g : Fin 4 := 0
     let l : List Nat := [2]
     let s : State := wBist { fgGroups := [0, 2] }
     s.chip.bist.fgGroups = g.val :: l) ∧
    (let s : State := wBist {}
     s.chip.bist.fgGroups = []) ∧
    (let e : PeNo := 0
     let m : FgMeas := ⟨[(5, 6, 7)], [(8, 9)], [3], [], [], [], 400⟩
     let s : State := ({ chip := { wChip with cal := [(0, { fg := true })] } } : State)
     (s.chip.calOf e).fg = true ∧ s.chip.tileRuns (tileOf e) = true ∧ recordUnusable (fgRecord (s.chip.calOf e).octets m).1 =
       false ∧ delayTooLong m = false ∧ (spareOf (fgRecord (s.chip.calOf e).octets m).1 false).isSome = true ∧
       (spareOf (fgRecord (s.chip.calOf e).octets m).1 true).isSome = true) ∧
    (let e : PeNo := 0
     let m : FgMeas := ⟨[(5, 6, 7)], [(8, 9)], [3], [], [], List.replicate 10 (2000000, 0), 400⟩
     let s : State := ({ chip := { wChip with cal := [(0, { fg := true })] } } : State)
     (s.chip.calOf e).fg = true ∧ s.chip.tileRuns (tileOf e) = true ∧ (recordUnusable (fgRecord (s.chip.calOf e).octets m).1 =
       true ∨ delayTooLong m = true)) ∧
    (let e : PeNo := 0
     let b : Bool := false
     let s : State := wCalOf { valid := true }
     (((List.range (elemCount b)).any fun n => elemState (s.chip.calOf e).octets b n != 2) = true) ∧
       (((s.chip.calOf e).rot b).from_ = 0 ∨ ((s.chip.calOf e).rot b).from_ + rootUs 10000 ≤ s.chip.root) ∧
       s.chip.rdBool .CAL_ENABLE = true ∧ ((s.chip.calOf e).rot b).round = false ∧ ((s.chip.calOf e).rot b).noSpare = false ∧
       (s.chip.calOf e).valid = true ∧ s.chip.rd .BIST_STATE_PE e ≠ 2) ∧
    (let e : PeNo := 0
     let b : Bool := false
     let s : State := wCalOf {}
     (s.chip.rdBool .CAL_ENABLE = false ∨ ((s.chip.calOf e).rot b).round = true ∨ (s.chip.calOf e).valid =
       false ∨ (((s.chip.calOf e).rot b).from_ ≠ 0 ∧ s.chip.root < ((s.chip.calOf e).rot b).from_ + rootUs 10000))) ∧
    (let e : PeNo := 0
     let b : Bool := false
     let v : Visit := (((wVisit .standIn (some 16)).adc.visit).getD ⟨0, .back, none, 0, []⟩)
     let t : Nat := 16
     let s : State := wCalOf (wVisit .standIn (some 16))
     ((s.chip.calOf e).rot b).visit = some v ∧ s.chip.visitStays e v = true ∧ v.phase = .standIn ∧ v.stand = some t) ∧
    (let e : PeNo := 0
     let b : Bool := false
     let x : Int := 9
     let v : Visit := (((wVisit .measure (some 16)).adc.visit).getD ⟨0, .back, none, 0, []⟩)
     let t : Nat := 16
     let s : State := wCalOf (wVisit .measure (some 16))
     ((s.chip.calOf e).rot b).visit = some v ∧ s.chip.visitStays e v = true ∧ v.phase = .measure ∧ v.stand = some t ∧
       (s.chip.calOf e).accepts b .gain v.elem x = true ∧ (s.chip.calOf e).rejects = []) ∧
    (let e : PeNo := 0
     let b : Bool := false
     let x : Int := 9999
     let v : Visit := (((wVisit .measure (some 16)).adc.visit).getD ⟨0, .back, none, 0, []⟩)
     let t : Nat := 16
     let s : State := wCalOf (wVisit .measure (some 16))
     ((s.chip.calOf e).rot b).visit = some v ∧ s.chip.visitStays e v = true ∧ v.phase = .measure ∧ v.stand = some t ∧
       (s.chip.calOf e).accepts b .gain v.elem x = false ∧ (s.chip.calOf e).rejects = []) ∧
    (let e : PeNo := 0
     let b : Bool := false
     let v : Visit := (((wVisit .back (some 16)).adc.visit).getD ⟨0, .back, none, 0, []⟩)
     let s : State := wCalOf (wVisit .back (some 16))
     ((s.chip.calOf e).rot b).visit = some v ∧ s.chip.visitStays e v = true ∧ v.phase = .back) ∧
    (let s : State := (wCalOf { target := [(116, 40)] }).hold .CAL_ENABLE 0 0
     s.chip.rdBool .CAL_ENABLE = false) ∧
    (let s : State := wCalOf { target := [(116, 40)] }
     s.chip.rdBool .CAL_ENABLE = true) ∧
    (let e : PeNo := 0
     let g : Nat := 4
     let t : Tab Nat Nat := []
     let s : State := ({ chip := { (wPort wUp).chip with cal := [(0, { valid := true, changed := true })], nv := { (wPort wUp).chip.nv with cal := [(0, (some ⟨4, []⟩, none))] } } } :
       State)
     (s.chip.calOf e).valid = true ∧ (s.chip.calOf e).changed = true ∧ s.chip.nv.cal.getD e (none, none) = (some ⟨g, t⟩, none)) ∧
    (let e : PeNo := 0
     let s : State := wCalOf {}
     ((s.chip.calOf e).valid = false ∨ (s.chip.calOf e).changed = false)) := by
  refine ⟨?_, ?_, ?_, ?_, ?_, ?_, ?_, ?_, ?_, ?_, ?_, ?_, ?_, ?_, ?_, ?_, ?_⟩ <;> decide +kernel

theorem test_selfTestRunsAndRecordsItsResults :
    (let k : Nat := 1
     let s : State := ({ chip := { wChip with bist := { post := some 1 }, boot := { wChip.boot with phase := .post, applied := false } } } :
       State)
     s.chip.bist.post = some k ∧ k < 4) ∧
    (let k : Nat := 4
     let s : State := ({ chip := { wChip with bist := { post := some 4 }, boot := { wChip.boot with phase := .post, applied := false } } } :
       State)
     s.chip.bist.post = some k ∧ 4 ≤ k) ∧
    (let t : TestOn := .hlane 3
     let r : Reg := .BIST_STATE_HLANE
     let l : Reg := .BIST_LAST_HLANE
     let i : Nat := 3
     let s : State := wBist { demand := some (0x15, Cls.hlane.addr 3) }
     s.chip.bist.demand = some (t.code, t.instNo) ∧ t.stateReg = some (r, l, i)) ∧
    (let e : PeNo := 0
     let s : State := wBist { demand := some (0x01, Cls.pe.addr 0) }
     s.chip.bist.demand = some (0x01, Cls.pe.addr e) ∧ s.chip.bist.rows.getD (TestOn.coefStore e).key 0 < 32 ∧
       s.chip.rd .BIST_STATE_PE e = 0) ∧
    (let s : State := ({ chip := { wChip with bist := { post := some 0, select := 31 }, boot := { wChip.boot with phase := .post, applied := false } } } :
       State)
     s.chip.bist.demand = none ∧ s.chip.bist.post = some 0 ∧ s.chip.bist.select.testBit 4 = true) ∧
    (let s : State := ({ chip := { wChip with boot := { wChip.boot with timed := true } } } : State)
     s.chip.bist.demand = none ∧ s.chip.bist.post = none ∧ s.chip.boot.timed = true) ∧
    (let e : PeNo := 0
     let s : State := wBist {}
     s.chip.mayRunSlice (.store e) = true ∧ s.chip.bist.slices.get? (TestOn.coefStore e).key = none ∧ s.chip.bist.post = none) ∧
    (let h : QcNo := 0
     let s : State := wBist {}
     s.chip.mayRunSlice (.cells h) = true ∧ s.chip.bist.slices.get? (TestOn.qdr h).key = none ∧ s.chip.bist.post = none) ∧
    (let t : SliceOn := .store 0
     let s : State := (wBist {}).hold .BIST_INSERVICE_ENABLE 0 0
     s.chip.mayRunSlice t = false) ∧
    (let t : SliceOn := .store 0
     let n : Nat := 64
     let s : State := wBist { slices := [((TestOn.coefStore 0).key, 64)] }
     s.chip.bist.slices.get? t.test.key = some n) ∧
    (let t : SliceOn := .store 0
     let n : Nat := 64
     let s : State := wBist { slices := [((TestOn.coefStore 0).key, 64)] }
     s.chip.bist.slices.get? t.test.key = some n) ∧
    (let v : BitVec 32 := BitVec.ofNat 32 (0x01 * 2 ^ 24 + Cls.pe.addr 0)
     let s : State := wBist {}
     s.chip.asleep .BIST_REQUEST 0 = false ∧ v.toNat ≠ 0 ∧ s.chip.demandOk (bits v.toNat 31 24) (bits v.toNat 11 0) = .ok ∧
       s.chip.bist.demand = none) ∧
    (let v : BitVec 32 := BitVec.ofNat 32 (0x01 * 2 ^ 24 + Cls.pe.addr 0)
     let s : State := wBist { demand := some (1, 2) }
     s.chip.asleep .BIST_REQUEST 0 = false ∧ v.toNat ≠ 0 ∧ s.chip.demandOk (bits v.toNat 31 24) (bits v.toNat 11 0) = .ok ∧
       s.chip.bist.demand ≠ none) ∧
    (let v : BitVec 32 := BitVec.ofNat 32 (0x10 * 2 ^ 24 + Cls.pe.addr 0)
     let e : PeNo := 0
     let s : State := wPort wUp
     s.chip.asleep .BIST_REQUEST 0 = false ∧ v.toNat = 0x10 * 2 ^ 24 + Cls.pe.addr e ∧
       (s.chip.port (s.chip.portOf e)).link ≠ .disabled) := by
  refine ⟨?_, ?_, ?_, ?_, ?_, ?_, ?_, ?_, ?_, ?_, ?_, ?_, ?_, ?_⟩ <;> decide +kernel

theorem test_supplyResetsAndWatchdogsStartTheDevice :
    (let b : BootInputs := { stages := 0 }
     let s : State := ({ chip := { boot := { vinGood := false, resetHigh := true, phase := .noPower } } } : State)
     s.chip.boot.vinGood = false ∧ s.chip.boot.resetHigh = true ∧ b.refFails = 0 ∧ b.pllFails = 0 ∧ s.chip.cfg.before = none) ∧
    (let s : State := ({ chip := { boot := { vinGood := false, resetHigh := false, phase := .noPower } } } : State)
     s.chip.boot.vinGood = false ∧ s.chip.boot.resetHigh = false) ∧
    (let s : State := wBoot { resetHigh := true }
     s.chip.boot.vinGood = true ∧ s.chip.cfg.before = none) ∧
    (let s : State := wBoot { resetHigh := true }
     s.chip.boot.vinGood = true ∧ s.chip.boot.resetHigh = true ∧ s.chip.cfg.before = none) ∧
    (let b : BootInputs := { stages := 0 }
     let s : State := State.reset
     s.chip.boot.vinGood = true ∧ s.chip.boot.resetHigh = false ∧ b.refFails = 0 ∧ b.pllFails = 0 ∧ s.chip.cfg.before = none) ∧
    (let b : BootInputs := { refFails := 3 }
     let s : State := State.reset
     s.chip.boot.vinGood = true ∧ s.chip.boot.resetHigh = false ∧ b.refFails = 3 ∧ s.chip.cfg.before = none) ∧
    (let b : BootInputs := { stages := 0 }
     let s : State := wBoot { resetHigh := true }
     s.chip.asleep .DEVICE_RESET 0 = false ∧ b.refFails = 0 ∧ b.pllFails = 0 ∧ s.chip.cfg.before = none) ∧
    (let s : State := wBoot { resetHigh := true }
     s.chip.asleep .DEVICE_RESET 0 = false ∧ s.chip.boot.resetDue = false) ∧
    (let b : BootInputs := { stages := 0 }
     let s : State := wBoot { resetHigh := true }
     s.chip.inReset = false ∧ b.refFails = 0 ∧ b.pllFails = 0 ∧ s.chip.cfg.before = none) ∧
    (let l : List PortNo := [3]
     let s : State := wBoot { firmware := true }
     s.chip.inReset = false ∧ s.chip.boot.firmware = true ∧ s.chip.pwr.restarts = [] ∧ (∀ p ∈ l, (s.chip.port p).link =
       .disabled)) ∧
    (let x : Fin 4 := 1
     let b : BootInputs := { stages := 0 }
     let s : State := ({ chip := { wChip with boot := { firmware := true, phase := .running, applied := true }, pwr := { wChip.pwr with restarts := [(0, 1), (0, 2)] } } } :
       State)
     s.chip.inReset = false ∧ s.chip.boot.firmware = true ∧ s.chip.watchdogResets x = true ∧ b.refFails = 0 ∧ b.pllFails = 0 ∧
       s.chip.cfg.before = none) := by
  refine ⟨?_, ?_, ?_, ?_, ?_, ?_, ?_, ?_, ?_, ?_, ?_⟩ <;> decide +kernel

theorem test_imagesAreWrittenCheckedTriedAndConfirmed :
    (let row : Nat := 3
     let v : List Octet := List.replicate 1024 7
     let s : State := wBoot {}
     row < 8192 ∧ v.length = 1024 ∧ s.chip.asleep .IMAGE_WRITE 0 = false ∧ s.chip.boot.verifying = false) ∧
    (let row : Nat := 8192
     8192 ≤ row) ∧
    (let s : State := wBoot { updating := true }
     s.chip.asleep .IMAGE_ERASE 0 = false) ∧
    (let s : State := wBoot {}
     s.chip.asleep .IMAGE_VERIFY 0 = false ∧ s.chip.boot.verifying = false) ∧
    (let s : State := wBoot { verifying := true }
     s.chip.asleep .IMAGE_VERIFY 0 = false ∧ s.chip.boot.verifying = true) ∧
    (let s : State := wBoot { verifying := true }
     s.chip.boot.verifying = true) ∧
    (let s : State := ({ chip := { wChip with nv := { imageB := { code := 0 } } } } : State)
     s.chip.asleep .IMAGE_SELECT_NEXT 0 = false ∧ s.chip.otherSlot.code = 0) ∧
    (let s : State := wBoot {}
     s.chip.asleep .IMAGE_SELECT_NEXT 0 = false ∧ s.chip.otherSlot.code ≠ 0) ∧
    (let s : State := wBoot { trialRunning := true, runningB := true }
     s.chip.asleep .IMAGE_CONFIRM 0 = false ∧ s.chip.boot.trialRunning = true) ∧
    (let s : State := wBoot {}
     s.chip.asleep .IMAGE_CONFIRM 0 = false ∧ s.chip.boot.trialRunning = false) ∧
    (let s : State := wBoot {}
     s.chip.asleep .OWNER_KEY_SUBMIT 0 = false) ∧
    (let q : List Octet := [5]
     let s : State := ({ chip := { wChip with nv := { ownerKey := some [5] } } } : State)
     s.chip.asleep .OWNER_POLICY_SUBMIT 0 = false ∧ s.chip.nv.ownerKey = some q ∧ s.chip.nv.policy = none) ∧
    (let s : State := wBoot {}
     s.chip.asleep .OWNER_POLICY_SUBMIT 0 = false ∧ s.chip.nv.ownerKey = none) ∧
    (let s : State := (wBoot {}).hold .ATTEST_STATUS 0 1
     s.chip.asleep .ATTEST_NONCE 0 = false ∧ s.chip.boot.attesting = none) ∧
    (let s : State := wBoot { attesting := some 3 }
     s.chip.asleep .ATTEST_NONCE 0 = false ∧ s.chip.boot.attesting ≠ none) ∧
    (let n : Nat := 3
     let s : State := wBoot { attesting := some 3 }
     s.chip.boot.attesting = some n) ∧
    (let s : State := wBoot {}
     s.chip.boot.attesting = none) := by
  refine ⟨?_, ?_, ?_, ?_, ?_, ?_, ?_, ?_, ?_, ?_, ?_, ?_, ?_, ?_, ?_, ?_, ?_⟩ <;> decide +kernel

theorem test_configurationsAreStagedCheckedCommittedAndReverted :
    (let row : Nat := 3
     let v : List Octet := List.replicate 1024 7
     let s : State := wCfg { staged := some [] }
     row < 2048 ∧ v.length = 1024 ∧ s.chip.asleep .CFG_CANDIDATE 0 = false ∧ s.chip.commitArmed = false) ∧
    (let row : Nat := 3
     let v : List Octet := List.replicate 1024 7
     let s : State := wTa (wTaRow 2 1 0 0 0)
     row < 2048 ∧ v.length = 1024 ∧ s.chip.asleep .CFG_CANDIDATE 0 = false ∧ s.chip.commitArmed = true) ∧
    (let s : State := (wCfg { staged := some [] }).hold .EV_COALESCE_WINDOW 0 20
     s.chip.asleep .CFG_CAPTURE 0 = false ∧ s.chip.commitArmed = false) ∧
    (let s : State := wCfg { staged := some [] }
     s.chip.asleep .CFG_LOAD_FACTORY 0 = false ∧ s.chip.commitArmed = false) ∧
    (let s : State := wCfg { staged := some [] }
     s.chip.asleep .CFG_CHECK 0 = false ∧ s.chip.commitArmed = false ∧ s.chip.cfg.checking = false) ∧
    (let s : State := wCfg { checking := true }
     s.chip.asleep .CFG_CHECK 0 = false ∧ s.chip.commitArmed = false ∧ s.chip.cfg.checking = true) ∧
    (let s : State := ({ chip := { wChip with cfg := { checking := true }, nv := { cfg := { candidate := { rows := some [] } } } } } :
       State)
     s.chip.cfg.checking = true ∧ s.chip.nv.cfg.candidate.records = none) ∧
    (let s : State := wCfg { checking := true }
     s.chip.cfg.checking = true) ∧
    (let s : State := wCfg {}
     s.chip.asleep .CFG_COMMIT 0 = false ∧ s.chip.commitArmed = false ∧ s.chip.cfg.deadline = none ∧ s.chip.cfg.staged = none) ∧
    (let n : Nat := 5
     let s : State := wCfg { deadline := some 5, staged := some [] }
     s.chip.asleep .CFG_COMMIT 0 = false ∧ s.chip.commitArmed = false ∧ s.chip.cfg.deadline = some n) ∧
    (let l : List (Key × Nat) := []
     let s : State := wCfg { staged := some [] }
     s.chip.asleep .CFG_COMMIT 0 = false ∧ s.chip.commitArmed = false ∧ s.chip.cfg.deadline = none ∧ s.chip.cfg.staged =
       some l ∧ (s.chip.withValues l).bufReason = 0) ∧
    (let v : BitVec 32 := 0
     let n : Nat := 5
     let s : State := wCfg { deadline := some 5 }
     s.chip.asleep .CFG_CONFIRM 0 = false ∧ s.chip.cfg.deadline = some n ∧ s.chip.cfg.upsett = none ∧ v.toNat =
       s.chip.nv.cfg.active.version) ∧
    (let v : BitVec 32 := 7
     let s : State := wCfg { deadline := some 5 }
     s.chip.asleep .CFG_CONFIRM 0 = false ∧ (s.chip.cfg.deadline = none ∨ v.toNat ≠ s.chip.nv.cfg.active.version)) ∧
    (let n : Nat := 5
     let s : State := ({ chip := { wChip with tb := 9, cfg := { deadline := some 5 } } } : State)
     s.chip.cfg.deadline = some n ∧ n ≤ s.chip.tb) ∧
    (let n : Nat := 15
     let s : State := ({ chip := { wChip with tb := 9, cfg := { deadline := some 15 } } } : State)
     s.chip.cfg.deadline = some n ∧ s.chip.tb < n) ∧
    (let n : Nat := 5
     let s : State := wCfg { deadline := some 5 }
     s.chip.asleep .CFG_ROLLBACK 0 = false ∧ s.chip.cfg.deadline = some n) := by
  refine ⟨?_, ?_, ?_, ?_, ?_, ?_, ?_, ?_, ?_, ?_, ?_, ?_, ?_, ?_, ?_, ?_⟩ <;> decide +kernel

theorem test_eventsReachStatusLimiterAndRing :
    (let x : BitVec 16 := 10000
     let s : State := (wPort wUp).hold .WALE_EVENT_DEST 0 0
     x.toNat < 10800 ∧ s.chip.rdBit .MON_STATUS 0 = false ∧ s.chip.ev.raised = [] ∧ s.chip.ev.windows = [] ∧
       s.chip.rd .EV_RING_MODE = 0 ∧ s.chip.evFill < 4032 ∧ s.chip.rd .WALE_EVENT_DEST = 0) ∧
    (let x : BitVec 16 := 10000
     let s : State := ({ chip := { (wPort wUp).chip with ev := { windows := [{ inst := 0, ev := .vinLow }] } } } : State)
     x.toNat < 10800 ∧ s.chip.rdBit .MON_STATUS 0 = false ∧ s.chip.ev.raised = [] ∧ s.chip.ev.windows = [{ inst := 0, ev := .vinLow }]) ∧
    (let x : BitVec 16 := 10000
     let s : State := (wPort wUp).hold .EV_WRITE_COUNT 0 4032
     x.toNat < 10800 ∧ s.chip.rdBit .MON_STATUS 0 = false ∧ s.chip.ev.raised = [] ∧ s.chip.ev.windows = [] ∧
       s.chip.rd .EV_RING_MODE = 0 ∧ 4032 ≤ s.chip.evFill) := by
  refine ⟨?_, ?_, ?_⟩ <;> decide +kernel


-- Premises that speak of the device's own identity, which the configuration leaves open.

/-- One of two device identities is another device's. -/
theorem other_id : ∃ i : Nat, (i = 5 ∨ i = 6) ∧ i ≠ Config.deviceId.toNat := by
  by_cases h : Config.deviceId.toNat = 5
  · exact ⟨6, .inr rfl, by omega⟩
  · exact ⟨5, .inl rfl, by omega⟩

theorem test_advertisementsRoutesAndAddressesFollow_0 : ∃ i : Nat,
    let a : Lsa := { seq := 9 }
    let b : Lsa := { seq := 3 }
    let s : State := wWl 4 {} { lsdb := [(i, b)] }
    s.chip.wlState 0 = 4 ∧ Lsa.ofOctets (a.octets i) = some (i, a) ∧ i ≠ s.chip.ownId ∧ s.chip.wale.lsdb.get? i = some b ∧
      b.seq < a.seq := by
  obtain ⟨i, rfl | rfl, hne⟩ := other_id
  · exact ⟨5, by decide +kernel, by decide +kernel, hne, by decide +kernel, by decide⟩
  · exact ⟨6, by decide +kernel, by decide +kernel, hne, by decide +kernel, by decide⟩

theorem test_advertisementsRoutesAndAddressesFollow_1 : ∃ i : Nat,
    let a : Lsa := { seq := 3 }
    let s : State := wWl 4 {} { lsdb := [(i, a)] }
    s.chip.wlState 0 = 4 ∧ Lsa.ofOctets (a.octets i) = some (i, a) ∧ i ≠ s.chip.ownId ∧ s.chip.wale.lsdb.get? i = some a ∧
      a.seq ≤ a.seq := by
  obtain ⟨i, rfl | rfl, hne⟩ := other_id
  · exact ⟨5, by decide +kernel, by decide +kernel, hne, by decide +kernel, by decide⟩
  · exact ⟨6, by decide +kernel, by decide +kernel, hne, by decide +kernel, by decide⟩

theorem test_advertisementsRoutesAndAddressesFollow_2 : ∃ i : Nat,
    let a : Lsa := { seq := 3 }
    let s : State := wWl 4
    s.chip.wlState 0 = 4 ∧ Lsa.ofOctets (a.octets i) = some (i, a) ∧ i ≠ s.chip.ownId ∧ s.chip.wale.lsdb.get? i = none ∧
      s.chip.wale.lsdb.length < 255 := by
  obtain ⟨i, rfl | rfl, hne⟩ := other_id
  · exact ⟨5, by decide +kernel, by decide +kernel, hne, by decide +kernel, by decide +kernel⟩
  · exact ⟨6, by decide +kernel, by decide +kernel, hne, by decide +kernel, by decide +kernel⟩

theorem test_walePortsGainLoseAndEndLinks_10 :
    let l := natToOctets 12 0 ++ (natToOctets 8 Config.deviceId.toNat ++ natToOctets 12 0)
    let s : State := wWl 3
    ∃ x : BitVec 256, natToOctets 32 x.toNat = l ∧ s.chip.wlState 0 = 3 ∧ octNat l 12 8 = s.chip.ownId ∧ octNat l 20 1 = 0 := by
  intro l s
  have hl : l.length = 32 := by simp [l]
  have hlt := octetsToNat_lt l
  rw [hl] at hlt
  have hx : (BitVec.ofNat 256 (octetsToNat l)).toNat = octetsToNat l := by
    rw [BitVec.toNat_ofNat]; exact Nat.mod_eq_of_lt (by simpa using hlt)
  refine ⟨BitVec.ofNat 256 (octetsToNat l), ?_, by decide +kernel, ?_, by decide +kernel⟩
  · rw [hx, ← hl]; exact natToOctets_octetsToNat l
  · have h := Config.deviceId.isLt
    have : octs l 12 8 = natToOctets 8 Config.deviceId.toNat := by simp [l, octs]
    rw [octNat, this, octetsToNat_natToOctets]
    exact Nat.mod_eq_of_lt h

/-- A frame of another EtherType is no DAP frame, whatever the device's address. -/
theorem isDap_of_ether (c : Chip) (f : List Octet) (h : frameEther f ≠ c.rd .DAP_ETHERTYPE) : c.isDap f = false := by
  simp [Chip.isDap, h]

theorem test_hostFramesAreTaken_0 :
    let f : HostFrame := { pre := natToOctets 6 0x555555555555, octets := wFrame, error := false }
    let s : State := wHost
    s.chip.hostUp 0 = true ∧ f.error = false ∧ octNat f.octets 12 2 ≠ 0x8808 ∧ s.chip.isDap f.octets = false ∧
      (s.chip.rdBool .TX_TAG_ENABLE 0 = false ∨ f.untagged = true) ∧ s.chip.flowQueue 0 (s.chip.rd .Q_DEFAULT 0) = some 0 :=
  ⟨by decide +kernel, rfl, by decide +kernel, isDap_of_ether _ _ (by decide +kernel), by decide +kernel, by decide +kernel⟩

theorem test_hostFramesAreTaken_1 :
    let f : HostFrame := { pre := natToOctets 6 0x100500000002, octets := wFrame, error := false }
    let s : State := (wHost).hold .TX_TAG_ENABLE 0 1
    s.chip.hostUp 0 = true ∧ f.error = false ∧ octNat f.octets 12 2 ≠ 0x8808 ∧ s.chip.isDap f.octets = false ∧
      s.chip.rdBool .TX_TAG_ENABLE 0 = true ∧ f.untagged = false ∧ bits f.tag 47 44 = 1 ∧
      s.chip.flowQueue 0 (bits f.tag 43 32) = some 5 :=
  ⟨by decide +kernel, rfl, by decide +kernel, isDap_of_ether _ _ (by decide +kernel), by decide +kernel, by decide +kernel,
    by decide +kernel, by decide +kernel⟩

theorem test_dapRequestsAreCarriedOutAndAnswered_0 :
    let f : List Octet := dapFrameOf dapMac [] 0x88B5 [1, 2]
    let s : State := wHost.hold .DAP_ETHERTYPE 0 0x88B5
    s.chip.pathOpen (.host 0) = true ∧ s.chip.hostUp 0 = true ∧ s.chip.isDap f = true ∧ s.chip.rdBool .DAP_HOST_ENABLE = true ∧
      dapParse 0x11 (frameBody f) = none := by
  refine ⟨by decide +kernel, by decide +kernel, ?_, by decide +kernel, by decide +kernel⟩
  simp only [Chip.isDap, Bool.and_eq_true, decide_eq_true_eq]
  exact ⟨⟨⟨fcsOk_sealFrame _, octNat_dapFrameOf _ _ _ _ dapMac_lt⟩, by decide +kernel⟩, by decide +kernel⟩

theorem test_linkEndsAndStartsAgain_4 :
    let s : State := { chip := { wChip with ports := [(0, { link := .anAbility, mode := some .w25, lanes := [0] })], pes := [(0, wRetained.sealStore)] } }
    (s.chip.port 0).link = .anAbility ∧ (s.chip.port 0).mode = some .w25 ∧ LineMode.w25.isW = true ∧
      s.chip.holdsRetained 0 .w25 = true ∧ ∀ e ∈ s.chip.laneSet 0, (s.chip.pe e).retentionOk = true := by
  intro s
  have hl : s.chip.laneSet 0 = [0] := by decide +kernel
  have hp : s.chip.pe 0 = wRetained.sealStore := rfl
  refine ⟨by decide +kernel, by decide +kernel, by decide, ?_, ?_⟩
  · unfold Chip.holdsRetained
    rw [hl]
    simp only [List.all_cons, List.all_nil, hp, PeSt.retained, PeSt.retMode]
    rw [PeSt.word_sealStore _ 4 (by decide) (by decide), PeSt.word_sealStore _ 0 (by decide) (by decide)]
    simp only [decide_true, Bool.and_true]
    decide +kernel
  · intro e he
    rw [hl, List.mem_singleton] at he
    subst he
    exact PeSt.retentionOk_sealStore _

theorem vendor_pages_are_ours (u : BitVec 32) :
    (WPages.dme (BitVec.ofNat 32 (Config.vendorOui.toNat * 256)) u).ours = true := by
  have h := Config.vendorOui.isLt
  have e : bits (BitVec.ofNat 32 (Config.vendorOui.toNat * 256)).toNat 31 8 = Config.vendorOui.toNat := by
    simp only [bits, BitVec.toNat_ofNat, Nat.shiftRight_eq_div_pow]
    omega
  simp only [WPages.ours, WPages.oui, e]
  rfl

theorem test_negotiationAdvances_2 :
    let np : NextPages := { std := 0, w := .dme (BitVec.ofNat 32 (Config.vendorOui.toNat * 256)) 0x70000, eee := false, ms := 0,
                            seed := false }
    let s : State := (wPort { link := .anNextPage }).hold .FAST_RETRAIN_ENABLE 0 0
    let partner := np.offered ((s.chip.port 0).proto = .flp) (s.chip.rd .AN_PARTNER_ABILITY 0)
    (s.chip.port 0).link = .anNextPage ∧
      ((s.chip.offers 0).find? fun k => partner.testBit k.abilityBit) = some .w50 ∧ LineMode.w50.isW = true ∧
      s.chip.levelInForce (tileOf 0) .w50 = true ∧ s.chip.rdBool .FAST_RETRAIN_ENABLE 0 = false := by
  intro np s partner
  have h : partner = 0x600 := by
    simp only [partner, NextPages.offered, np, vendor_pages_are_ours]
    decide +kernel
  refine ⟨by decide +kernel, ?_, by decide, by decide +kernel, by decide +kernel⟩
  rw [h]
  decide +kernel

-- Premises of the statements that range over commands, addresses or steps.

theorem test_emptyQueueCountsOneEdge :
    (wPort wUp).pending = [] ∧ (wPort wUp).chip.taArmed = [] ∧ (wPort wUp).chip.cfg.deadline = none ∧
      (wPort wUp).chip.pwr.rootOn = true ∧ State.reset.pending = [] ∧ State.reset.chip.taArmed = [] ∧
      State.reset.chip.cfg.deadline = none ∧ State.reset.chip.pwr.rootOn = false := by decide +kernel

theorem test_nonVolatileNumbersNeverFall :
    let s : State := { chip := { wChip with nv := { antiRollback := 7, ownerSeq := 3, revoked := 5 } }, pending := [.vinGoodFall] }
    s.chip.nv.AtLeast 7 3 5 ∧ ∃ t : State, step s = .next t :=
  ⟨by refine ⟨?_, ?_, ?_⟩ <;> decide +kernel, _, rfl⟩

theorem test_receivedCodewordIsTaken : (wPort wUp).chip.laneLive 0 = true := by decide +kernel

theorem test_codewordBuiltIsDecoded : (List.replicate 1625 true).length = 1625 := by decide +kernel

theorem test_addressesNameTheirObjects :
    511 < Reg.PORT_ENABLE.info.cls.count ∧ Reg.PORT_ENABLE.hasViews = false ∧ Reg.HL_POLARITY.hasViews = true ∧
      addrTarget 0x194A700002 = some (1, .HL_POLARITY, 74) := by decide +kernel

theorem test_rowsOutsideTheRangeAreRefused :
    addrTarget (wAddr 0 .PORT_MODE 511).toNat = some (0, .PORT_MODE, 511) ∧ Reg.PORT_MODE.info.rows = 0 ∧
      addrTarget (wAddr 0 .TA_TABLE 0).toNat = some (0, .TA_TABLE, 0) ∧ Reg.TA_TABLE.info.rows = 256 := by decide +kernel

theorem test_statusObjectsTakeOnlyViewZero :
    let s : State := wMap
    let r : Reg := .EV_STATUS_PORT
    addrTarget (wAddr 3 r 0).toNat = some (3, r, 0) ∧ r.isStatus = true ∧
      s.chip.permits .host (r.info.cls.addr 0) r.info.idx r.info.sub = true ∧ s.chip.asleep r 0 = false ∧
      statusSeq (octetsToNat (natToOctets 8 0)) = statusSeq (s.chip.rd r 0) := by decide +kernel

theorem test_spiAlwaysReachesTheImageObjects :
    addrTarget (wAddr 0 .DEVICE_RESET 0).toNat = some (0, .DEVICE_RESET, 0) := by decide +kernel

theorem test_framesSpeakOfNextStates : ∃ t : State, exec (.flpDetected 0) (wPort { link := .anAbility }) = .next t := ⟨_, rfl⟩

-- What well-formed commands exclude: one ill-formed command for each check.

theorem test_wf_tile_isolated_twice : (Instr.vinGoodRise { isolated := [3, 3] }).wf = false := by decide
theorem test_wf_copies_bad_twice : (Instr.resetNRelease { calBad := [(1, true), (1, true)] }).wf = false := by decide
theorem test_wf_stored_bad_twice : (Instr.deviceReset 1 { storedBad := [9, 9] }).wf = false := by decide
theorem test_wf_training_twice : (Instr.fwWatchdogExpire 0 [4, 4] {}).wf = false := by decide
theorem test_wf_four_losses :
    (Instr.tdrDone 0 ⟨[⟨[], 0, false, 0, [1, 2, 3, 4], List.replicate 64 0⟩], 0, false⟩).wf = false := by decide
theorem test_wf_sixty_three_bands :
    (Instr.tdrDone 0 ⟨[⟨[], 0, false, 0, [1, 2, 3, 4, 5], List.replicate 63 0⟩], 0, false⟩).wf = false := by decide
theorem test_wf_reflection_above_one :
    (Instr.tdrDone 0 ⟨[⟨[⟨10, 32769, false⟩], 0, false, 0, [1, 2, 3, 4, 5], List.replicate 64 0⟩], 0, false⟩).wf = false := by decide
theorem test_wf_no_pair_probed : (Instr.t0TimerEnd 0 ⟨[], 0, false⟩).wf = false := by decide
theorem test_wf_nine_slots :
    (Instr.marginWindowEnd 0 ⟨0, 0, 0, 0, 0, 0, 0, 0, [0, 0, 0, 0, 0, 0, 0, 0, 0]⟩ 0).wf = false := by decide
theorem test_wf_phase_of_one_symbol : (Instr.marginWindowEnd 0 ⟨0, 0, 0, 0, 65536, 0, 0, 0, []⟩ 0).wf = false := by decide
theorem test_wf_seventeen_histogram_rows : (Instr.lqSecondEnd 0 [⟨0, 0, 0, 0, List.replicate 17 0⟩]).wf = false := by decide
theorem test_wf_taps_of_no_mode : (Instr.precoderUpdateStart 0 (List.replicate 23 0) 0).wf = false := by decide
theorem test_wf_word_twice : (Instr.coefWriteback 0 [(5, 1), (5, 2)]).wf = false := by decide
theorem test_wf_short_capture : (Instr.captureDone 0 (List.replicate 1023 0)).wf = false := by decide
theorem test_wf_candidate_twice : (Instr.ancPassEnd 0 [⟨7, 1, 0⟩, ⟨7, 2, 0⟩]).wf = false := by decide
theorem test_wf_five_refresh_margins : (Instr.partnerRefreshEnd 0 [none, none, none, none, none]).wf = false := by decide
theorem test_wf_five_preamble_octets : (Instr.frameFromHost 0 { pre := [1, 2, 3, 4, 5], octets := [], error := false }).wf = false := by decide
theorem test_wf_frame_in_progress_twice : (Instr.lsMarkerReceived 0 0 [2, 2]).wf = false := by decide
theorem test_wf_payload_too_long : (Instr.lsa 0 (List.replicate 2049 0)).wf = false := by decide +kernel
theorem test_wf_packet_too_long : (Instr.wlPacketReceived 0 (List.replicate 4097 (wlCtrl 0x55 5))).wf = false := by decide +kernel
theorem test_wf_thirty_three_records : (Instr.event 2 (List.replicate 33 0) []).wf = false := by decide
theorem test_wf_group_of_no_engine : (Instr.foregroundCalDone 0 ⟨[], [], [], [], [], [], 0⟩).wf = false := by decide
theorem test_wf_result_twice :
    (Instr.calVisitPhaseEnd 0 false [(.gain, 1), (.gain, 2)] []).wf = false := by decide
theorem test_wf_short_image_row : (Instr.imageWrite 0 (List.replicate 1023 0)).wf = false := by decide
theorem test_wf_short_configuration_row : (Instr.cfgCandidateWrite 0 (List.replicate 1023 0)).wf = false := by decide
theorem test_wf_good : (Instr.frameFromHost 0 { pre := natToOctets 6 0, octets := [], error := false }).wf = true := by decide

-- Results worked out from the spec.

/-- The outcome is a next state whose device satisfies a test. -/
def after (o : Out) (f : Chip → Bool) : Bool :=
  match o with
  | .next t => f t.chip
  | _ => false

/-- The example of R311: software sets bit 1 of `HL_POLARITY` of host lane H074 through view 1. -/
theorem test_view_one_sets_one_bit :
    let s : State := (wMap.hold .HL_POLARITY 74 1)
    after (exec (.registerWrite 0x194A700002 0 [0x00, 0x02] .spi) s) (fun c => c.access.abort = .ok && c.rd .HL_POLARITY 74 = 3) := by
  decide +kernel

/-- R306: a row of an object without rows. -/
theorem test_row_one_of_a_scalar_is_refused :
    after (exec (.read (wAddr 0 .PORT_MODE 5) 1 false) wMap)
      (fun c => c.access.abort = .row) := by decide +kernel

/-- The example of chapter 0: port 150 stands on PE150, quad Q037, tile T04, and is dictionary instance 0x296. -/
theorem test_port_150 :
    Cls.port.addr 150 = 0x296 ∧ Cls.pe.addr 150 = 0x496 ∧ Cls.quad.addr 37 = 0x125 ∧ Cls.tile.addr 4 = 0x014 := by decide

/-- The example of R191: launch time 12 s + 345,678,901.25 ns in a tag, with queue 37 and a timestamp asked for, arriving 1 ms
before it. -/
theorem test_launch_time_of_the_example :
    let f : HostFrame := { pre := [0x20, 0x25, 0xF7, 0x07, 0x0D, 0x52], octets := [], error := false }
    bits f.tag 47 44 = 2 ∧ bits f.tag 43 32 = 37 ∧ bits f.tag 31 2 = 1036108628 ∧ bits f.tag 1 0 = 2 ∧
      launchOf ((197530862420 - 16000000) * 2 ^ 44) (16000000 * 2 ^ 44) (bits f.tag 31 2) = 197530862420 * 2 ^ 44 := by
  decide +kernel

/-- The CRC-32 of 802.3 over the digits 1 to 9. -/
theorem test_crc32_of_nine_digits :
    crc32 [0x31, 0x32, 0x33, 0x34, 0x35, 0x36, 0x37, 0x38, 0x39] = 0xCBF43926 := by decide +kernel

/-- R427, Table 17-4: with RESET_N low the device is in reset and FAULT_N is low. -/
theorem test_reset_asserted :
    after (exec .resetNAssert (wBoot { vinGood := true, resetHigh := true })) (fun c => c.faultLow && c.asleep .PORT_ENABLE 0 && !c.pwr.rootOn) := by decide +kernel

/-- R202: one edge of D33 takes eight root periods. -/
theorem test_an_idle_step_is_eight_root_edges :
    after (step (wPort wUp))
      (fun c => c.root = 8 && c.tb = 8 * 2 ^ 44) := by decide +kernel

/-- R83: port 0 is enabled, and starts to negotiate. -/
theorem test_port_enable_starts_negotiation :
    after (exec (.portEnableWrite 0 1) wCal)
      (fun c => (c.port 0).link != .disabled) := by decide +kernel

/-- R231: a flush empties the queue. -/
theorem test_flush_empties_a_queue :
    after (exec (.qFlush 0 1) wWait)
      (fun c => c.queues = [] && rowField 32 (c.rd .Q_COUNTERS 0 0) 28 4 = 1) := by decide +kernel

end Sys2Proof.Tests
end

section
/-!
PROOFS. Reading the per-unit records and the objects after an operation on another part, and the bits of a field that was replaced.
-/
set_option Elab.async false
namespace Sys2Proof.Machine

@[simp] theorem Chip.port_wrRow (c : Chip) (r : Reg) (i row v p : Nat) : (c.wrRow r i row v).port p = c.port p := by
  simp [Chip.port]
@[simp] theorem Chip.port_setPe (c : Chip) (e p : Nat) (f : PeSt → PeSt) : (c.setPe e f).port p = c.port p := rfl
@[simp] theorem Chip.port_raise (c : Chip) (n : EvName) (i d p : Nat) : (c.raise n i d).port p = c.port p := rfl
@[simp] theorem Chip.pe_wrRow (c : Chip) (r : Reg) (i row v e : Nat) : (c.wrRow r i row v).pe e = c.pe e := by
  simp [Chip.pe]
@[simp] theorem Chip.pe_setPort (c : Chip) (p e : Nat) (f : PortSt → PortSt) : (c.setPort p f).pe e = c.pe e := rfl
@[simp] theorem Chip.pe_raise (c : Chip) (n : EvName) (i d e : Nat) : (c.raise n i d).pe e = c.pe e := rfl

@[simp] theorem Chip.rd_setPort (c : Chip) (p : Nat) (f : PortSt → PortSt) (r : Reg) (i row : Nat) :
    (c.setPort p f).rd r i row = c.rd r i row := rfl
@[simp] theorem Chip.rd_setPe (c : Chip) (e : Nat) (f : PeSt → PeSt) (r : Reg) (i row : Nat) :
    (c.setPe e f).rd r i row = c.rd r i row := rfl
@[simp] theorem Chip.rd_raise (c : Chip) (n : EvName) (j d : Nat) (r : Reg) (i row : Nat) :
    (c.raise n j d).rd r i row = c.rd r i row := rfl

theorem testBit_withBit (v i j : Nat) (b : Bool) : (withBit v i b).testBit j = if j = i then b else v.testBit j := by
  unfold withBit setBits
  simp only [Nat.testBit_or, Nat.testBit_shiftLeft, Nat.testBit_shiftRight, Nat.testBit_mod_two_pow, ge_iff_le]
  rcases Nat.lt_trichotomy j i with h | rfl | h
  · simp [h, h.ne, show ¬ i + 1 ≤ j by omega, show ¬ i ≤ j by omega]
  · cases b <;> simp
  · simp [h.ne', show i + 1 ≤ j by omega, show i ≤ j by omega, show ¬ j < i by omega, show ¬ j - i < 1 by omega,
      show i + 1 + (j - (i + 1)) = j by omega]

/-- Setting one bit of an object leaves its other bits. -/
theorem Chip.rdBit_setBit_other (c : Chip) (r : Reg) (i b j : Nat) (x : Bool) (hj : j ≠ b) (hw : j < r.width) :
    (c.setBit r i b x).rdBit r j i = c.rdBit r j i := by
  simp [Chip.rdBit, Chip.setBit_eq, Chip.rd_wrRow_same, Nat.testBit_mod_two_pow, hw, testBit_withBit, hj]

/-- The link controllers are as before where they are not among the parts that may change. -/
theorem Within.port_eq {x : Fx} {c d : Chip} (h : Within x c d) (hx : x.hasPart .ports = false) (p : Nat) :
    d.port p = c.port p := congrArg (fun t => t.getD p {}) (h.part .ports hx)

/-- The pair engines are as before where they are not among the parts that may change. -/
theorem Within.pe_eq {x : Fx} {c d : Chip} (h : Within x c d) (hx : x.hasPart .pes = false) (e : Nat) : d.pe e = c.pe e :=
  congrArg (fun t => t.getD e {}) (h.part .pes hx)

theorem Answers.imp {i : Instr} {s : State} {P Q : Chip → Prop} (h : Answers i s P) (hPQ : ∀ d, P d → Q d) : Answers i s Q := by
  obtain ⟨t, he, hp, hP⟩ := h
  exact ⟨t, he, hp, hPQ _ hP⟩

end Sys2Proof.Machine
end

section
/-!
PROOFS. A codeword built by a transmitter and decoded by a receiver in step (R34 to R37, R40, R44).
-/
set_option Elab.async false
namespace Sys2Proof.Machine

/-! Numbers and their bits. -/

theorem testBit_bitsNat (l : List Bool) (i : Nat) : (bitsNat l).testBit i = l.getD i false := by
  induction l generalizing i with
  | nil => simp [bitsNat]
  | cons b l ih =>
    have hd : bitsNat (b :: l) = bitsNat l * 2 + (if b then 1 else 0) := rfl
    cases i with
    | zero => cases b <;> simp [hd, Nat.testBit_zero]
    | succ i =>
      have hh : bitsNat (b :: l) / 2 = bitsNat l := by rw [hd]; split <;> omega
      rw [Nat.testBit_succ, hh, ih, List.getD_cons_succ]

theorem msbNat_append_single (l : List Bool) (b : Bool) : msbNat (l ++ [b]) = 2 * msbNat l + b2n b := by
  simp [msbNat]

theorem msbBits_succ (n v : Nat) : msbBits (n + 1) v = msbBits n (v / 2) ++ [v.testBit 0] := by
  simp only [msbBits, List.range_succ, List.map_append, List.map_cons, List.map_nil]
  congr 1
  · refine List.map_congr_left fun k hk => ?_
    rw [show n + 1 - 1 - k = (n - 1 - k) + 1 by have := List.mem_range.1 hk; omega, Nat.testBit_succ]
  · simp

@[simp] theorem length_msbBits (n v : Nat) : (msbBits n v).length = n := by simp [msbBits]

theorem msbNat_msbBits (n v : Nat) : msbNat (msbBits n v) = v % 2 ^ n := by
  induction n generalizing v with
  | zero => simp [msbBits, msbNat, Nat.mod_one]
  | succ n ih =>
    have hb : b2n (v.testBit 0) = v % 2 := by
      rw [Nat.testBit_zero]; unfold b2n; split <;> simp_all
    rw [msbBits_succ, msbNat_append_single, ih, hb, pow_succ', Nat.mod_mul]
    omega

theorem crcBits_lt {w poly init : Nat} (hp : poly < 2 ^ w) (hi : init < 2 ^ w) (l : List Bool) :
    crcBits w poly init l < 2 ^ w := by
  unfold crcBits
  induction l generalizing init with
  | nil => exact hi
  | cons b l ih =>
    refine ih ?_
    have hm : init * 2 % 2 ^ w < 2 ^ w := Nat.mod_lt _ (by positivity)
    unfold crcBit
    dsimp only
    split
    · exact Nat.xor_lt_two_pow hm hp
    · exact hm

theorem auxCrc_lt (l : List Bool) : auxCrc l < 2 ^ 15 := crcBits_lt (by decide) (by decide) l

/-! The scrambler (R37). -/

@[simp] theorem length_scramble (s : BitVec 58) (l : List Bool) : (scramble s l).1.length = l.length := by
  induction l generalizing s with
  | nil => rfl
  | cons b l ih => simp [scramble, ih]

/-- The scrambler runs by itself, so that a second pass from the same state takes the first one off. -/
theorem scramble_scramble (s : BitVec 58) (l : List Bool) : scramble s (scramble s l).1 = (l, (scramble s l).2) := by
  induction l generalizing s with
  | nil => rfl
  | cons b l ih => simp [scramble, ih]

/-! Fields of a codeword of which a list of bits stands first. -/

theorem getLsbD_cwOfBits (l : List Bool) (i : Nat) (hi : i < 2048) : (cwOfBits l).getLsbD i = l.getD i false := by
  rw [cwOfBits, BitVec.getLsbD_ofNat, testBit_bitsNat, decide_eq_true hi, Bool.true_and]

/-- The codeword carries the list from c[0] on. -/
def Codeword.Carries (c : Codeword) (l : List Bool) : Prop := ∀ i, i < l.length → c.getLsbD i = l.getD i false

theorem Codeword.Carries.cwBits {c : Codeword} {l a m b : List Bool} (h : c.Carries l) (hl : l = a ++ m ++ b) :
    cwBits c a.length m.length = m := by
  subst hl
  refine List.ext_getElem (by simp [Machine.cwBits]) fun i h₁ h₂ => ?_
  have hi : a.length + i < (a ++ m ++ b).length := by simp only [List.length_append]; omega
  simp only [Machine.cwBits, List.getElem_map, List.getElem_range, h _ hi, List.getD_eq_getElem _ _ hi]
  simp [h₂]

/-! The encoder (R40): the information stays in its place, the parity blocks follow, and every check then holds. -/

theorem ldpcT_congr {c d : Codeword} (h : ∀ j < 26, cwBlock c j = cwBlock d j) (i : Nat) : ldpcT c i = ldpcT d i := by
  unfold ldpcT
  refine List.foldl_ext _ _ _ fun a j hj => ?_
  rw [h j (List.mem_range.1 hj)]

/-- Bits of a word to which blocks have been joined: those of the word, and from 1,664 on those of the blocks. -/
theorem getLsbD_joinBlocks (u : Codeword) (f : Nat → BitVec 64) (n i : Nat) (hi : i < 2048) :
    ((List.range n).foldl (fun (a : Codeword) k => a ||| ((f k).setWidth 2048 <<< (1664 + 64 * k))) u).getLsbD i
      = (u.getLsbD i || (decide (1664 ≤ i ∧ (i - 1664) / 64 < n) && (f ((i - 1664) / 64)).getLsbD ((i - 1664) % 64))) := by
  induction n with
  | zero => simp
  | succ n ih =>
    rw [List.range_succ, List.foldl_append, List.foldl_cons, List.foldl_nil, BitVec.getLsbD_or, ih, BitVec.getLsbD_shiftLeft,
      BitVec.getLsbD_setWidth]
    by_cases hn : (i - 1664) / 64 = n ∧ 1664 ≤ i
    · obtain ⟨hn, hle⟩ := hn
      have h1 : ¬ i < 1664 + 64 * n := by omega
      have h2 : i - (1664 + 64 * n) = (i - 1664) % 64 := by omega
      have h3 : (i - 1664) % 64 < 2048 := by omega
      simp [hn, hle, hi, h1, h2, h3]
    · have hb : (decide (i < 2048) && !decide (i < 1664 + 64 * n)
          && (decide (i - (1664 + 64 * n) < 2048) && (f n).getLsbD (i - (1664 + 64 * n)))) = false := by
        by_cases h : i < 1664 + 64 * n
        · simp [h]
        · rw [BitVec.getLsbD_of_ge (f n) _ (by omega)]; simp
      rw [hb, Bool.or_false]
      congr 2
      simp only [decide_eq_decide]
      omega

/-- The information bits of a word, c[0] to c[1663]. -/
def infoPart (c : Codeword) : Codeword := (c.setWidth 1664).setWidth 2048

theorem getLsbD_infoPart (c : Codeword) (i : Nat) : (infoPart c).getLsbD i = (c.getLsbD i && decide (i < 1664)) := by
  rw [infoPart, BitVec.getLsbD_setWidth, BitVec.getLsbD_setWidth]
  by_cases h : i < 1664
  · simp [h, show i < 2048 by omega]
  · simp [h]

theorem and_mask_eq_infoPart (c m : Codeword) (hm : ∀ i < 2048, m.getLsbD i = decide (i < 1664)) : c &&& m = infoPart c :=
  BitVec.eq_of_getLsbD_eq fun i hi => by rw [BitVec.getLsbD_and, getLsbD_infoPart, hm i hi]

theorem ldpcEncode_eq (c : Codeword) :
    ldpcEncode c = (List.range 6).foldl
      (fun a k => a ||| ((ldpcParity (infoPart c) k).setWidth 2048 <<< (1664 + 64 * k))) (infoPart c) := by
  rw [ldpcEncode, and_mask_eq_infoPart c _ fun i hi => ?_]
  rw [BitVec.getLsbD_ofNat, Nat.testBit_two_pow_sub_one, decide_eq_true hi, Bool.true_and]

theorem getLsbD_ldpcEncode_info (c : Codeword) (i : Nat) (hi : i < 1664) : (ldpcEncode c).getLsbD i = c.getLsbD i := by
  rw [ldpcEncode_eq, getLsbD_joinBlocks _ _ _ _ (by omega), getLsbD_infoPart]
  simp [hi, show ¬ 1664 ≤ i by omega]

theorem cwBlock_ldpcEncode_info (c : Codeword) (j : Nat) (hj : j < 26) :
    cwBlock (ldpcEncode c) j = cwBlock (infoPart c) j := by
  refine BitVec.eq_of_getLsbD_eq fun i hi => ?_
  have : 64 * j + i < 1664 := by omega
  simp only [cwBlock, BitVec.getLsbD_extractLsb', hi, getLsbD_ldpcEncode_info _ _ this, getLsbD_infoPart, this, decide_true,
    Bool.and_true]

theorem cwBlock_ldpcEncode_parity (c : Codeword) (k : Nat) (hk : k < 6) :
    cwBlock (ldpcEncode c) (26 + k) = ldpcParity (infoPart c) k := by
  refine BitVec.eq_of_getLsbD_eq fun i hi => ?_
  rw [ldpcEncode_eq, cwBlock, BitVec.getLsbD_extractLsb', getLsbD_joinBlocks _ _ _ _ (by omega), getLsbD_infoPart]
  have h1 : (64 * (26 + k) + i - 1664) / 64 = k := by omega
  have h2 : (64 * (26 + k) + i - 1664) % 64 = i := by omega
  simp [hi, h1, h2, hk, show ¬ 64 * (26 + k) + i < 1664 by omega, show 1664 ≤ 64 * (26 + k) + i by omega]

/-- Row k + 1 covers parity blocks k and k + 1, whose sum is the row's information part. -/
theorem ldpcSyndrome_ldpcEncode (c : Codeword) (i : Nat) (hi : i < 6) : ldpcSyndrome (ldpcEncode c) i = 0 := by
  have hT := ldpcT_congr (cwBlock_ldpcEncode_info c)
  cases i with
  | zero => simp [ldpcSyndrome, hT, cwBlock_ldpcEncode_parity c 0 (by decide), ldpcParity]
  | succ k =>
    have hp := cwBlock_ldpcEncode_parity c k (by omega)
    have hq := cwBlock_ldpcEncode_parity c (k + 1) hi
    rw [show 26 + k = 25 + (k + 1) by omega] at hp
    simp only [ldpcSyndrome, Nat.succ_ne_zero, if_false, hT, hp, hq, ldpcParity, BitVec.xor_assoc]
    rw [← BitVec.xor_assoc, BitVec.xor_comm, BitVec.xor_assoc]
    simp

theorem ldpcOk_ldpcEncode (c : Codeword) : ldpcOk (ldpcEncode c) = true := by
  simp only [ldpcOk, List.all_eq_true, List.mem_range, decide_eq_true_eq]
  exact fun i hi => ldpcSyndrome_ldpcEncode c i hi

theorem ldpcEncode_carries {l : List Bool} (hl : l.length ≤ 1664) : (ldpcEncode (cwOfBits l)).Carries l := fun i hi => by
  rw [getLsbD_ldpcEncode_info _ _ (by omega), getLsbD_cwOfBits _ _ (by omega)]

/-! What a transmitter builds. -/

section
variable (s seed : BitVec 58) (seq : Nat) (mgmt : BitVec 16) (blocks : List Bool)

/-- The bits of a codeword before its parity. -/
theorem cwBuild_carries (hb : blocks.length = 1625) :
    (cwBuild s seed seq mgmt blocks).1.Carries
      ((scramble (if seq % 256 = 0 then seed else s) blocks).1 ++ msbBits 8 seq ++ msbBits 16 mgmt.toNat
        ++ msbBits 15 (auxCrc blocks)) :=
  ldpcEncode_carries (by simp [hb])

theorem cwBits_cwBuild (hb : blocks.length = 1625) :
    cwBits (cwBuild s seed seq mgmt blocks).1 0 1625 = (scramble (if seq % 256 = 0 then seed else s) blocks).1 := by
  have h := (cwBuild_carries s seed seq mgmt blocks hb).cwBits (a := [])
    (m := (scramble (if seq % 256 = 0 then seed else s) blocks).1) (by simp only [List.append_assoc, List.nil_append]; rfl)
  rwa [length_scramble, hb] at h

theorem cwSeq_cwBuild (hb : blocks.length = 1625) : cwSeq (cwBuild s seed seq mgmt blocks).1 = seq % 256 := by
  have h := (cwBuild_carries s seed seq mgmt blocks hb).cwBits (m := msbBits 8 seq) (by simp only [List.append_assoc]; rfl)
  simp only [length_scramble, length_msbBits, hb] at h
  rw [cwSeq, h, msbNat_msbBits]; rfl

theorem cwMgmt_cwBuild (hb : blocks.length = 1625) : cwMgmt (cwBuild s seed seq mgmt blocks).1 = mgmt := by
  have h := (cwBuild_carries s seed seq mgmt blocks hb).cwBits (m := msbBits 16 mgmt.toNat) rfl
  simp only [length_scramble, length_msbBits, List.length_append, hb] at h
  rw [cwMgmt, h, msbNat_msbBits, Nat.mod_eq_of_lt mgmt.isLt, BitVec.ofNat_toNat, BitVec.setWidth_eq]

theorem cwAux_cwBuild (hb : blocks.length = 1625) : cwAux (cwBuild s seed seq mgmt blocks).1 = auxCrc blocks := by
  have h := (cwBuild_carries s seed seq mgmt blocks hb).cwBits (m := msbBits 15 (auxCrc blocks)) (List.append_nil _).symm
  simp only [length_scramble, length_msbBits, List.length_append, hb] at h
  rw [cwAux, h, msbNat_msbBits, Nat.mod_eq_of_lt (auxCrc_lt blocks)]

theorem decodeCw_cwBuild (expected : Nat) (hb : blocks.length = 1625) :
    decodeCw (cwBuild s seed seq mgmt blocks).1 true s seed expected
      = ⟨true, true, seq % 256, blocks, (cwBuild s seed seq mgmt blocks).2⟩ := by
  have hok : ldpcOk (cwBuild s seed seq mgmt blocks).1 = true := ldpcOk_ldpcEncode _
  unfold decodeCw
  simp only [hok, cwSeq_cwBuild s seed seq mgmt blocks hb, cwBits_cwBuild s seed seq mgmt blocks hb,
    cwAux_cwBuild s seed seq mgmt blocks hb, scramble_scramble]
  simp [cwBuild]

end
end Sys2Proof.Machine
end

section
set_option Elab.async false
open Sys2Proof Sys2Proof.Machine

/-- Settles O7: the fields stand where the receiver reads them, the parity blocks are made to satisfy every check, and the scrambler
is its own inverse. -/
theorem codewordBuiltIsDecoded : Obligations.CodewordBuiltIsDecoded := by
  unfold Obligations.CodewordBuiltIsDecoded
  intro scr seed seq mgmt blocks hb b r
  have hr : r = ⟨true, true, seq % 256, blocks, b.2⟩ := decodeCw_cwBuild scr seed seq mgmt blocks _ hb
  rw [hr]
  exact ⟨rfl, rfl, rfl, rfl, rfl, cwMgmt_cwBuild scr seed seq mgmt blocks hb⟩

end

section
/-!
PROOFS. A codeword that a live lane receives (R44, R46, R170, R171).
-/
set_option Elab.async false
namespace Sys2Proof.Machine

/-- Counters of a received codeword, as `execReceiveCodeword` keeps them (R170, R171). -/
def Chip.countCw (c : Chip) (e iterations corrected : Nat) (r : CwResult) : Chip :=
  let c := c.inc .CW_COUNT e
  let c := c.addRow .LDPC_ITER_HIST e (if r.converged then min iterations 16 else 17) 1
  let c := if r.converged then c.add .BITS_CORRECTED e corrected else c.inc .CW_UNCORRECTABLE e
  let c := if r.converged && r.auxOk && corrected > 0 then c.inc .CW_CORRECTED e else c
  if r.converged && !r.auxOk then c.inc .CW_AUXCRC_FAIL e else c

/-- What the lane keeps of a received codeword before its place in the sequence is judged (R37, R80). -/
def Chip.noteCw (c : Chip) (e : Nat) (r : CwResult) : Chip :=
  let c := c.setPe e fun x =>
    { x with uncorrRun := if r.converged then 0 else x.uncorrRun + 1, rxScr := r.scr,
             auxAt := if r.converged && !r.auxOk then (c.root :: x.auxAt).take 1025 else x.auxAt,
             t3Bad := x.t3Bad || !r.auxOk }
  if r.auxOk && r.seq = 0 then c.setBit .PE_LANE_STATUS e 3 false else c

/-- The codeword takes its place in the sequence and delivers its blocks (R44, R46). -/
def Chip.placeCw (c : Chip) (e : Nat) (r : CwResult) : Chip :=
  let c := if r.auxOk then c.alignTake e r.seq else c.setPe e fun x => { x with rxSeq := (x.rxSeq + 1) % 256 }
  let good := r.auxOk && !c.rdBit .PE_LANE_STATUS 1 e && !(c.pe e).dropped
  c.setPe e fun x => { x with blocks := if good then blocksOf r.blockBits else errorBlocks }

/-- What counting a codeword may change. -/
def Chip.countCw_fx : Fx :=
  .of [] [.CW_COUNT, .LDPC_ITER_HIST, .BITS_CORRECTED, .CW_UNCORRECTABLE, .CW_CORRECTED, .CW_AUXCRC_FAIL]

/-- What the rest of RECEIVE_CODEWORD may change. -/
def Chip.takeCw_fx : Fx := .of [.pes] [.PE_LANE_STATUS, .MGMT_DISCARD, .REALIGN_COUNT]

section
variable {X : Fx} {b c : Chip} (e iterations corrected : Nat) (r : CwResult)

theorem Chip.noteCw_in (h : Within X b c) (hX : Chip.takeCw_fx.le X = true) : Within X b (c.noteCw e r) := by
  refine h.trans (Within.mono hX ?_)
  unfold Chip.noteCw
  have hp : ∀ f, Within Chip.takeCw_fx c (c.setPe e f) := fun f => (Within.refl _ _).setPe (by decide +kernel)
  exact ((hp _).setBit (by decide +kernel)).ite (hp _)

theorem Chip.placeCw_in (h : Within X b c) (hX : Chip.takeCw_fx.le X = true) : Within X b (c.placeCw e r) := by
  refine h.trans (Within.mono hX ?_)
  unfold Chip.placeCw
  refine Within.setPe (Within.ite (Chip.alignTake_in (.refl _ _) ?_) ((Within.refl _ _).setPe ?_)) ?_ <;> decide +kernel

end

theorem Chip.rd_ite (p : Prop) [Decidable p] (c d : Chip) (r : Reg) (i row : Nat) :
    (if p then c else d).rd r i row = if p then c.rd r i row else d.rd r i row := by
  split <;> rfl

section
variable (c : Chip) (e iterations corrected : Nat) (r : CwResult)

theorem Chip.countCw_in : Within Chip.countCw_fx c (c.countCw e iterations corrected r) := by
  unfold Chip.countCw
  have h : Within Chip.countCw_fx c ((c.inc .CW_COUNT e).addRow .LDPC_ITER_HIST e
      (if r.converged then min iterations 16 else 17) 1) :=
    ((Within.refl _ _).inc (by decide +kernel)).addRow (by decide +kernel)
  have h := (h.add (r := .BITS_CORRECTED) (i := e) (n := corrected) (by decide +kernel)).ite (p := r.converged = true)
    (h.inc (r := .CW_UNCORRECTABLE) (i := e) (by decide +kernel))
  have h := (h.inc (r := .CW_CORRECTED) (i := e) (by decide +kernel)).ite (p := (r.converged && r.auxOk && corrected > 0) = true) h
  exact (h.inc (by decide +kernel)).ite h

theorem Chip.countCw_cwCount : Counts c (c.countCw e iterations corrected r) .CW_COUNT e 1 := by
  simp [Counts, Chip.countCw, Chip.inc_eq, Chip.addRow_eq, Chip.add_eq, Chip.rd_ite, Chip.rd_wrRow_same]

theorem Chip.countCw_iterHist {row : Nat} (h : row = if r.converged then min iterations 16 else 17) :
    (c.countCw e iterations corrected r).rd .LDPC_ITER_HIST e row
      = (c.rd .LDPC_ITER_HIST e row + 1) % 2 ^ Reg.width .LDPC_ITER_HIST := by
  subst h
  simp [Chip.countCw, Chip.inc_eq, Chip.addRow_eq, Chip.add_eq, Chip.rd_ite, Chip.rd_wrRow_same]

theorem Chip.countCw_converged (h : r.converged = true) :
    Counts c (c.countCw e iterations corrected r) .BITS_CORRECTED e corrected ∧
      Stays c (c.countCw e iterations corrected r) .CW_UNCORRECTABLE e := by
  simp [Counts, Stays, Chip.countCw, h, Chip.inc_eq, Chip.addRow_eq, Chip.add_eq, Chip.rd_ite, Chip.rd_wrRow_same]

theorem Chip.countCw_failed (h : r.converged = false) :
    Counts c (c.countCw e iterations corrected r) .CW_UNCORRECTABLE e 1 ∧
      Stays c (c.countCw e iterations corrected r) .BITS_CORRECTED e := by
  simp [Counts, Stays, Chip.countCw, h, Chip.inc_eq, Chip.addRow_eq, Chip.rd_wrRow_same]

theorem Chip.countCw_auxFail (h : r.converged = true) (ha : r.auxOk = false) :
    Counts c (c.countCw e iterations corrected r) .CW_AUXCRC_FAIL e 1 := by
  simp [Counts, Chip.countCw, h, ha, Chip.inc_eq, Chip.addRow_eq, Chip.add_eq, Chip.rd_wrRow_same]

theorem Chip.noteCw_pe : (c.noteCw e r).pe e =
    { c.pe e with
      uncorrRun := if r.converged then 0 else (c.pe e).uncorrRun + 1, rxScr := r.scr,
      auxAt := if r.converged && !r.auxOk then (c.root :: (c.pe e).auxAt).take 1025 else (c.pe e).auxAt,
      t3Bad := (c.pe e).t3Bad || !r.auxOk } := by
  unfold Chip.noteCw
  simp only [Chip.setBit_eq]
  split <;> simp

/-- Noting a codeword clears `SEED_RESYNC` at most: whether the lane is realigning is as before (R46). -/
theorem Chip.noteCw_realigning : (c.noteCw e r).rdBit .PE_LANE_STATUS 1 e = c.rdBit .PE_LANE_STATUS 1 e := by
  unfold Chip.noteCw
  dsimp only
  split
  · exact Chip.rdBit_setBit_other _ _ _ _ _ _ (by decide) (by decide)
  · rfl

/-- The management channel leaves what the lane's decoding and place rest on. -/
theorem Chip.mgmtTake_pe (q : Nat) (w : BitVec 16) (ok : Bool) :
    ((c.mgmtTake e q w ok).pe e).rxScr = (c.pe e).rxScr ∧ ((c.mgmtTake e q w ok).pe e).uncorrRun = (c.pe e).uncorrRun ∧
      ((c.mgmtTake e q w ok).pe e).rxSeq = (c.pe e).rxSeq ∧ ((c.mgmtTake e q w ok).pe e).dropped = (c.pe e).dropped := by
  unfold Chip.mgmtTake
  simp only [Chip.inc_eq]
  repeat' split
  all_goals simp

theorem Chip.alignTake_pe (q : Nat) :
    ((c.alignTake e q).pe e).rxScr = (c.pe e).rxScr ∧ ((c.alignTake e q).pe e).uncorrRun = (c.pe e).uncorrRun := by
  unfold Chip.alignTake
  simp only [Chip.inc_eq, Chip.setBit_eq]
  repeat' split
  all_goals simp

/-- A codeword in its place on an aligned lane only moves the lane on (R46). -/
theorem Chip.alignTake_inPlace {q : Nat} (ha : c.rdBit .PE_LANE_STATUS 1 e = false) (hq : q = (c.pe e).rxSeq) :
    c.alignTake e q = c.setPe e fun s => { s with seqMiss := 0, rxSeq := (q + 1) % 256 } := by
  simp [Chip.alignTake, ha, hq]

theorem Chip.placeCw_pe :
    ((c.placeCw e r).pe e).rxScr = (c.pe e).rxScr ∧ ((c.placeCw e r).pe e).uncorrRun = (c.pe e).uncorrRun := by
  unfold Chip.placeCw
  cases r.auxOk
  · simp
  · simpa using c.alignTake_pe e r.seq

theorem Chip.placeCw_failed (h : r.auxOk = false) :
    ((c.placeCw e r).pe e).blocks = errorBlocks ∧ ((c.placeCw e r).pe e).rxSeq = ((c.pe e).rxSeq + 1) % 256 := by
  simp [Chip.placeCw, h]

theorem Chip.placeCw_inPlace (h : r.auxOk = true) (hs : r.seq = (c.pe e).rxSeq) (ha : c.rdBit .PE_LANE_STATUS 1 e = false)
    (hd : (c.pe e).dropped = false) :
    ((c.placeCw e r).pe e).blocks = blocksOf r.blockBits ∧ ((c.placeCw e r).pe e).rxSeq = (r.seq + 1) % 256 := by
  have hb : (c.setPe e fun s => { s with seqMiss := 0, rxSeq := (r.seq + 1) % 256 }).rdBit .PE_LANE_STATUS 1 e = false := ha
  simp [Chip.placeCw, h, Chip.alignTake_inPlace c e ha hs, hb, hd]

end

/-- RECEIVE_CODEWORD on a live lane is the counting, the noting, the management channel and the placing, in this order. -/
theorem execReceiveCodeword_eq (e : PeNo) (cw : BitVec 2048) (iterations corrected : Nat) (s : State) :
    execReceiveCodeword e cw iterations corrected s = s.run fun c =>
      if !c.laneLive e then c
      else
        let st := c.pe e
        let r := decodeCw cw (iterations ≤ c.iterLimit e) st.rxScr (BitVec.ofNat 58 (c.rd .PE_RX_SCR_SEED e)) st.rxSeq
        ((((c.countCw e iterations corrected r).noteCw e r).mgmtTake e r.seq (cwMgmt cw) r.auxOk).placeCw e r) := rfl

/-- What follows the counting leaves the counters of the codeword. -/
theorem Chip.takeCw_in (c : Chip) (e : Nat) (r : CwResult) (w : BitVec 16) :
    Within Chip.takeCw_fx c (((c.noteCw e r).mgmtTake e r.seq w r.auxOk).placeCw e r) :=
  Chip.placeCw_in e r (Chip.mgmtTake_in (Chip.noteCw_in e r (.refl _ _) (by decide +kernel)) (by decide +kernel)) (by decide +kernel)

/-- The lane's own record after a codeword: the run of failures and the descrambler are those of the result. -/
theorem Chip.takeCw_pe (c : Chip) (e : Nat) (r : CwResult) (w : BitVec 16) :
    let x := (((c.noteCw e r).mgmtTake e r.seq w r.auxOk).placeCw e r).pe e
    x.rxScr = r.scr ∧ x.uncorrRun = if r.converged then 0 else (c.pe e).uncorrRun + 1 := by
  obtain ⟨hs, hu⟩ := ((c.noteCw e r).mgmtTake e r.seq w r.auxOk).placeCw_pe e r
  obtain ⟨hs', hu', -, -⟩ := (c.noteCw e r).mgmtTake_pe e r.seq w r.auxOk
  simp [hs, hs', hu, hu', Chip.noteCw_pe]

theorem Chip.takeCw_failed (c : Chip) (e : Nat) (r : CwResult) (w : BitVec 16) (h : r.auxOk = false) :
    let x := (((c.noteCw e r).mgmtTake e r.seq w r.auxOk).placeCw e r).pe e
    x.blocks = errorBlocks ∧ x.rxSeq = ((c.pe e).rxSeq + 1) % 256 := by
  obtain ⟨-, -, hq, -⟩ := (c.noteCw e r).mgmtTake_pe e r.seq w r.auxOk
  simpa [hq, Chip.noteCw_pe] using ((c.noteCw e r).mgmtTake e r.seq w r.auxOk).placeCw_failed e r h

theorem Chip.takeCw_inPlace (c : Chip) (e : Nat) (r : CwResult) (w : BitVec 16) (h : r.auxOk = true)
    (hs : r.seq = (c.pe e).rxSeq) (ha : c.rdBit .PE_LANE_STATUS 1 e = false) (hd : (c.pe e).dropped = false) :
    let x := (((c.noteCw e r).mgmtTake e r.seq w r.auxOk).placeCw e r).pe e
    x.blocks = blocksOf r.blockBits ∧ x.rxSeq = (r.seq + 1) % 256 := by
  obtain ⟨-, -, hq, hx⟩ := (c.noteCw e r).mgmtTake_pe e r.seq w r.auxOk
  have hl : ((c.noteCw e r).mgmtTake e r.seq w r.auxOk).rdBit .PE_LANE_STATUS 1 e = false := by
    rw [Chip.rdBit, (Chip.mgmtTake_in (.refl Chip.mgmtTake_fx _) (by decide +kernel)).rd (by decide +kernel) (by decide +kernel)]
    exact (c.noteCw_realigning e r).trans ha
  exact Chip.placeCw_inPlace _ e r h (by rw [hq, Chip.noteCw_pe, hs]) hl (by rw [hx, Chip.noteCw_pe, hd])

end Sys2Proof.Machine
end

section
set_option Elab.async false
open Sys2Proof Sys2Proof.Machine

/-- Settles O6: the counters are those of `countCw`, and the lane's record is that of the noting and the placing. -/
theorem receivedCodewordIsTaken : Obligations.ReceivedCodewordIsTaken := by
  unfold Obligations.ReceivedCodewordIsTaken
  intro e cw iterations corrected s hl st r row
  refine Answers.of_run (execReceiveCodeword_eq e cw iterations corrected s) fun d hd => ?_
  simp only [hl, Bool.not_true, Bool.false_eq_true, if_false] at hd
  change EvFrame ((((s.chip.countCw e iterations corrected r).noteCw e r).mgmtTake e r.seq (cwMgmt cw) r.auxOk).placeCw e r) d at hd
  have hin := s.chip.countCw_in e iterations corrected r
  have hpe : (s.chip.countCw e iterations corrected r).pe e = st := hin.pe_eq (by decide +kernel) e
  have hst : (s.chip.countCw e iterations corrected r).rdBit .PE_LANE_STATUS 1 e = s.chip.rdBit .PE_LANE_STATUS 1 e :=
    congrArg (Nat.testBit · 1) (hin.rd (by decide +kernel) (by decide +kernel) e 0)
  have hrd : ∀ g ∈ [Reg.CW_COUNT, .LDPC_ITER_HIST, .BITS_CORRECTED, .CW_UNCORRECTABLE, .CW_AUXCRC_FAIL], ∀ i row,
      d.rd g i row = (s.chip.countCw e iterations corrected r).rd g i row := fun g hg i row => by
    have hev : g.ofEvents = false := by revert g; decide
    have hfx : Chip.takeCw_fx.hasReg g = false := by revert g; decide +kernel
    rw [hd.rd g hev, (Chip.takeCw_in _ e r (cwMgmt cw)).rd hfx (by decide +kernel)]
  obtain ⟨hscr, hrun⟩ := Chip.takeCw_pe (s.chip.countCw e iterations corrected r) e r (cwMgmt cw)
  rw [hpe] at hrun
  unfold Counts Stays
  simp only [hrd, List.mem_cons, true_or, or_true, hd.pe_eq]
  refine ⟨Chip.countCw_cwCount .., Chip.countCw_iterHist _ _ _ _ _ rfl, hscr, fun hc => ?_, fun hc => ?_, fun ha => ?_,
    Chip.countCw_auxFail _ _ _ _ _, fun ha hs hal hdr => ?_⟩
  · obtain ⟨h₁, h₂⟩ := s.chip.countCw_converged e iterations corrected r hc
    exact ⟨h₁, h₂, by rw [hrun, if_pos hc]⟩
  · obtain ⟨h₁, h₂⟩ := s.chip.countCw_failed e iterations corrected r hc
    exact ⟨h₁, h₂, by rw [hrun, hc]; rfl⟩
  · simpa only [hpe] using Chip.takeCw_failed (s.chip.countCw e iterations corrected r) e r (cwMgmt cw) ha
  · exact Chip.takeCw_inPlace _ e r (cwMgmt cw) ha (by rw [hpe]; exact hs) (hst.trans hal) (by rw [hpe]; exact hdr)

end

section
/-!
PROOFS. The link goes down, and lanes that meet a link-down criterion are removed (R47 to R49, R80, R86).
-/
set_option Elab.async false
namespace Sys2Proof.Machine

section
variable (c : Chip) (p : Nat)

/-- `LINK_BREAK` changes the controller as leaving does, and then its state (R81). -/
theorem Chip.toBreak_port (noFast : Bool) :
    (c.toBreak p noFast).port p = { (c.leave p).port p with link := .brk, noFast := noFast } := by
  unfold Chip.toBreak
  rw [(Chip.sealPort_in (.refl Chip.sealPort_fx _) (by decide +kernel)).port_eq (by decide +kernel), Chip.setPort_same]

/-- Leaving `LINK_UP` counts one exit (R86). -/
theorem Chip.leaveUp_count : Counts c (c.leaveUp p) .LINK_DOWN_COUNT p 1 := by
  unfold Chip.leaveUp Counts
  dsimp only
  rw [Within.rd (x := .union [Chip.ancPortDown_fx, Chip.hostLinkDown_fx, Chip.lpiDown_fx, Chip.lqDown_fx, Chip.rootLineDown_fx,
      Chip.schedStop_fx])
    (Chip.hostLinkDown_in (Chip.lqDown_in (Chip.rootLineDown_in (Chip.ancPortDown_in (Chip.lpiDown_in (Chip.schedStop_in
      (.refl _ _) (by decide +kernel)) (by decide +kernel)) (by decide +kernel)) (by decide +kernel)) (by decide +kernel))
      (by decide +kernel)) (by decide +kernel) (by decide +kernel),
    Chip.inc_eq, Chip.rd_wrRow_same, Chip.rd_setPort,
    Within.rd (x := .of [.pes] [.PE_PRECODER_ABANDONED, .PE_COEF_FREEZE])
      (Within.each (fun _ _ h => ((h.add (by decide +kernel)).setPe (by decide +kernel)).wr (by decide +kernel)) (.refl _ _))
      (by decide +kernel) (by decide +kernel)]

theorem Chip.leave_count (h : c.up p = true) : Counts c (c.leave p) .LINK_DOWN_COUNT p 1 := by
  unfold Chip.leave Counts
  rw [if_pos h, Chip.rd_setPort]
  exact c.leaveUp_count p

theorem Chip.toBreak_count (noFast : Bool) (h : c.up p = true) : Counts c (c.toBreak p noFast) .LINK_DOWN_COUNT p 1 := by
  unfold Chip.toBreak Counts
  rw [(Chip.sealPort_in (.refl Chip.sealPort_fx _) (by decide +kernel)).rd (by decide +kernel) (by decide +kernel),
    Chip.rd_setPort]
  exact c.leave_count p h

end

/-- The port has gone to `LINK_BREAK` from `LINK_UP` with a cause, and one exit is counted (R80, R86). -/
def Chip.WentDown (c d : Chip) (p cause : Nat) (noFast : Bool) : Prop :=
  (d.port p).link = .brk ∧ d.rd .LINK_DOWN_CAUSE p = cause ∧ Counts c d .LINK_DOWN_COUNT p 1 ∧ (d.port p).noFast = noFast

theorem EvFrame.wentDown {b c d : Chip} {p cause : Nat} {noFast : Bool} (h : EvFrame c d) (hw : b.WentDown c p cause noFast) :
    b.WentDown d p cause noFast := by
  unfold Chip.WentDown Counts at *
  rwa [h.port_eq, h.rd _ rfl, h.rd _ rfl]

theorem Chip.linkDown_wentDown (c : Chip) (p cause : Nat) (noFast : Bool) (h : c.up p = true) (hc : cause < 256) :
    c.WentDown (c.linkDown p cause noFast) p cause noFast := by
  have hu : ((c.setCause p cause).raise .linkDown (Cls.port.addr p) cause).up p = true := by
    simpa [Chip.up, Chip.setCause, Chip.wr_eq] using h
  unfold Chip.linkDown
  refine ⟨by rw [Chip.toBreak_port], ?_, ?_, by rw [Chip.toBreak_port]⟩
  · rw [(Chip.toBreak_in (.refl Chip.toBreak_fx _) (by decide +kernel)).rd (by decide +kernel) (by decide +kernel), Chip.rd_raise,
      Chip.setCause, Chip.wr_eq, Chip.rd_wrRow_same]
    exact Nat.mod_eq_of_lt hc
  · have := Chip.toBreak_count _ p noFast hu
    simpa [Counts, Chip.setCause, Chip.wr_eq] using this

theorem Chip.goDown_wentDown (c : Chip) (p cause : Nat) (h : c.up p = true) (hc : cause < 256) :
    c.WentDown (c.goDown p cause) p cause false := by
  rw [Chip.goDown, if_pos h]
  exact c.linkDown_wentDown p cause false h hc

/-! Lanes that meet a criterion (R47 to R49). -/

/-- A live lane's port runs a W mode. -/
theorem Chip.mode_of_laneLive {c : Chip} {e : Nat} (h : c.laneLive e = true) :
    ∃ m, (c.port (c.portOf e)).mode = some m ∧ m.isW = true := by
  unfold Chip.laneLive at h
  simp only [Bool.and_eq_true] at h
  obtain ⟨-, hm⟩ := h
  split at hm
  · next m hs => exact ⟨m, hs, hm⟩
  · exact absurd hm (by simp)

theorem PortSt.kept_subset (s : PortSt) {e : Nat} (h : e ∈ s.kept) : e ∈ s.lanes := by
  unfold PortSt.kept at h
  simp only [List.foldl_cons, List.foldl_nil] at h
  have hf : ∀ (o : Option DropReq) (l : List Nat), e ∈ (match o with
      | some x => l.filter fun e => x.keep.contains e
      | none => l) → e ∈ l := by
    intro o l he
    cases o with
    | none => exact he
    | some x => exact List.mem_of_mem_filter he
  exact hf _ _ (hf _ _ (hf _ _ (hf _ _ h)))

section
variable {c : Chip} {p cause pick : Nat} {bad : List Nat} {m : LineMode} (hm : (c.port p).mode = some m)
include hm

theorem Chip.lanesFail_notAgreed (ha : (c.port p).downshiftAgreed = false) : c.lanesFail p bad cause pick = c.goDown p cause := by
  simp [Chip.lanesFail, hm, ha]

variable (hw : m.isW = true) (ha : (c.port p).downshiftAgreed = true) (hk : ((c.port p).kept.filter fun x => !bad.contains x) ≠ [])
include hw ha hk

theorem Chip.lanesFail_tooFew (hl : ((c.port p).kept.filter fun x => !bad.contains x).length < c.rd .PORT_MIN_PAIRS p) :
    c.lanesFail p bad cause pick = c.goDown p 0x04 := by
  have hk' := List.isEmpty_eq_false_iff.2 hk
  simp only [Chip.lanesFail, hm, hw, ha, hk', hl, Bool.not_true, Bool.false_or, Bool.false_eq_true, if_false, if_true]

theorem Chip.lanesFail_drops (hl : c.rd .PORT_MIN_PAIRS p ≤ ((c.port p).kept.filter fun x => !bad.contains x).length) {e : Nat}
    (he : e ∈ (c.port p).kept) (hb : e ∈ bad) :
    c.lanesFail p bad cause pick = c.requestDrop p ((c.port p).kept.filter fun x => !bad.contains x) pick := by
  have hk' := List.isEmpty_eq_false_iff.2 hk
  have hne : ((c.port p).kept.filter fun x => !bad.contains x) ≠ (c.port p).kept := fun h => by
    rw [← h] at he
    simp [hb] at he
  simp only [Chip.lanesFail, hm, hw, ha, hk', Nat.not_lt.2 hl, hne, Bool.not_true, Bool.false_or, Bool.false_eq_true, if_false]

end

/-- Both criteria of one lane that R80 names by a count, as the commands judge them. -/
theorem Chip.criterion_iff {c : Chip} {e : Nat} (hl : c.laneLive e = true) (hu : (c.port (c.portOf e)).link = .up)
    (hq : (c.port (c.portOf e)).lpi.partnerQuiet = false) :
    c.criterion e = true ↔ (c.pe e).lowWindows ≥ 32 ∨ (c.pe e).uncorrRun ≥ 16 ∨ c.auxOver e = true := by
  simp [Chip.criterion, Chip.up, hl, hu, hq, or_assoc]

theorem Chip.lanesJudge_awake {c : Chip} {e cause pick : Nat} (hc : c.criterion e = true)
    (ha : (c.port (c.portOf e)).lpi.state = .awake) :
    c.lanesJudge e cause pick = c.lanesFail (c.portOf e) ((c.port (c.portOf e)).lanes.filter fun x => c.criterion x) cause pick := by
  simp [Chip.lanesJudge, hc, ha]

theorem Chip.auxOver_of {c : Chip} {e r : Nat}
    (h : (c.pe e).auxAt[c.rd .AUXCRC_LIMIT (c.portOf e)]? = some r ∧ c.root < r + 16000000) : c.auxOver e = true := by
  obtain ⟨hr, ht⟩ := h
  simp only [Chip.auxOver, hr, rootUs]
  exact decide_eq_true (by omega)

/-- What a drop request leaves behind (R48). -/
theorem Chip.requestDrop_port (c : Chip) (p : Nat) (keep : List Nat) (pick : Nat) :
    let cw := c.msgCw p (c.port p).outDrop.length + 64 + pick % 65
    let id := ((c.port p).reqId + 1) % 256
    (c.requestDrop p keep pick).port p =
      { c.port p with dropReq := some ⟨id, keep, cw % 256, cw⟩, reqId := id, dropAcked := false,
                      outDrop := (c.port p).outDrop ++ [pairDropMsg false id (c.keepOut p keep) (cw % 256)] } := by
  simp [Chip.requestDrop, switchPoint]

/-- A command that finds a criterion met on a live lane of an awake port in `LINK_UP`, and judges the port's lanes. -/
structure Judges (i : Instr) (s : State) (e : PeNo) (cause : Nat) (pick : BitVec 8) : Prop where
  run : ∃ f : Chip → Chip, exec i s = s.run f ∧ f s.chip = s.chip.lanesJudge e cause pick.toNat
  live : s.chip.laneLive e = true
  up : (s.chip.port (s.chip.portOf e)).link = .up
  awake : (s.chip.port (s.chip.portOf e)).lpi.state = .awake
  met : s.chip.criterion e = true

theorem Judges.uncorrectableRun {e : PeNo} {pick : BitVec 8} {s : State} (hl : s.chip.laneLive e = true)
    (hu : (s.chip.port (s.chip.portOf e)).link = .up) (hq : (s.chip.port (s.chip.portOf e)).lpi.partnerQuiet = false)
    (ha : (s.chip.port (s.chip.portOf e)).lpi.state = .awake) (h : 16 ≤ (s.chip.pe e).uncorrRun) :
    Judges (.uncorrectableRun e pick) s e 0x02 pick where
  run := ⟨fun c => if (c.pe e).uncorrRun ≥ 16 then c.lanesJudge e 0x02 pick.toNat else c, rfl, if_pos h⟩
  live := hl
  up := hu
  awake := ha
  met := (Chip.criterion_iff hl hu hq).2 (.inr (.inl h))

theorem Judges.auxcrcLimitExceeded {e : PeNo} {pick : BitVec 8} {s : State} (hl : s.chip.laneLive e = true)
    (hu : (s.chip.port (s.chip.portOf e)).link = .up) (hq : (s.chip.port (s.chip.portOf e)).lpi.partnerQuiet = false)
    (ha : (s.chip.port (s.chip.portOf e)).lpi.state = .awake)
    (h : s.chip.auxOver e = true) :
    Judges (.auxcrcLimitExceeded e pick) s e 0x03 pick where
  run := ⟨fun c => if c.auxOver e then c.lanesJudge e 0x03 pick.toNat else c, rfl, if_pos h⟩
  live := hl
  up := hu
  awake := ha
  met := (Chip.criterion_iff hl hu hq).2 (.inr (.inr h))

section
variable {i : Instr} {s : State} {e : PeNo} {cause : Nat} {pick : BitVec 8} (j : Judges i s e cause pick)
include j

theorem Judges.answers {P : Chip → Prop}
    (h : ∀ d, EvFrame (s.chip.lanesFail (s.chip.portOf e)
      ((s.chip.port (s.chip.portOf e)).lanes.filter fun x => s.chip.criterion x) cause pick.toNat) d → P d) : Answers i s P := by
  obtain ⟨f, hf, he⟩ := j.run
  refine Answers.of_run hf fun d hd => h d ?_
  rwa [he, Chip.lanesJudge_awake j.met j.awake] at hd

theorem Judges.notAgreed (hc : cause < 256) (ha : (s.chip.port (s.chip.portOf e)).downshiftAgreed = false) :
    Answers i s fun d => s.chip.WentDown d (s.chip.portOf e) cause false := by
  obtain ⟨m, hm, -⟩ := Chip.mode_of_laneLive j.live
  refine j.answers fun d hd => ?_
  rw [Chip.lanesFail_notAgreed hm ha] at hd
  exact hd.wentDown (s.chip.goDown_wentDown _ _ (by simp [Chip.up, j.up]) hc)

theorem Judges.tooFew :
    let p := s.chip.portOf e
    let bad := (s.chip.port p).lanes.filter fun x => s.chip.criterion x
    let keep := (s.chip.port p).kept.filter fun x => !bad.contains x
    (s.chip.port p).downshiftAgreed = true → keep ≠ [] → keep.length < s.chip.rd .PORT_MIN_PAIRS p →
    Answers i s fun d => s.chip.WentDown d p 0x04 false := by
  intro p bad keep ha hk hl
  obtain ⟨m, hm, hw⟩ := Chip.mode_of_laneLive j.live
  refine j.answers fun d hd => ?_
  rw [Chip.lanesFail_tooFew hm hw ha hk hl] at hd
  exact hd.wentDown (s.chip.goDown_wentDown _ _ (by simp [Chip.up, j.up]) (by decide))

theorem Judges.drops :
    let p := s.chip.portOf e
    let bad := (s.chip.port p).lanes.filter fun x => s.chip.criterion x
    let keep := (s.chip.port p).kept.filter fun x => !bad.contains x
    let id := ((s.chip.port p).reqId + 1) % 256
    let cw := s.chip.msgCw p (s.chip.port p).outDrop.length + 64 + pick.toNat % 65
    e.val ∈ (s.chip.port p).kept → (s.chip.port p).downshiftAgreed = true → keep ≠ [] →
    s.chip.rd .PORT_MIN_PAIRS p ≤ keep.length →
    Answers i s fun d =>
      (d.port p).dropReq = some ⟨id, keep, cw % 256, cw⟩ ∧
      (d.port p).outDrop = (s.chip.port p).outDrop ++ [pairDropMsg false id (s.chip.keepOut p keep) (cw % 256)] ∧
      (d.port p).dropAcked = false ∧ (d.port p).link = (s.chip.port p).link ∧ (d.port p).lanes = (s.chip.port p).lanes ∧
      s.chip.Keeps d fun _ => False := by
  intro p bad keep id cw he ha hk hl
  obtain ⟨m, hm, hw⟩ := Chip.mode_of_laneLive j.live
  have hb : e.val ∈ bad := List.mem_filter.2 ⟨PortSt.kept_subset _ he, j.met⟩
  refine j.answers fun d hd => ?_
  rw [Chip.lanesFail_drops hm hw ha hk hl he hb] at hd
  rw [hd.port_eq, Chip.requestDrop_port]
  exact ⟨rfl, rfl, rfl, rfl, rfl, hd.cells⟩

end

end Sys2Proof.Machine
end

section
set_option Elab.async false
open Sys2Proof Sys2Proof.Machine

/-- Settles O8: both commands judge the port's lanes, which go down together or are left out of one request. -/
theorem laneFailureDropsOrBreaks : Obligations.LaneFailureDropsOrBreaks := by
  unfold Obligations.LaneFailureDropsOrBreaks
  refine ⟨?_, ?_, ?_, ?_, ?_, ?_⟩
  · intro e pick s p hl hu hq ha h hd
    exact (Judges.uncorrectableRun hl hu hq ha h).notAgreed (by decide) hd
  · intro e pick s p bad keep hl hu hq ha h hd hk hn
    exact ((Judges.uncorrectableRun hl hu hq ha h).tooFew hd hk hn).imp fun d ⟨hb, hc, ht, _⟩ => ⟨hb, hc, ht⟩
  · intro e pick s p bad keep id cw hl hu hq ha h he hd hk hn
    exact (Judges.uncorrectableRun hl hu hq ha h).drops he hd hk hn
  · intro e pick r s p hl hu hq ha h hd
    exact (Judges.auxcrcLimitExceeded hl hu hq ha (Chip.auxOver_of h)).notAgreed (by decide) hd
  · intro e pick r s p bad keep hl hu hq ha h hd hk hn
    exact ((Judges.auxcrcLimitExceeded hl hu hq ha (Chip.auxOver_of h)).tooFew hd hk hn).imp fun d ⟨hb, hc, ht, _⟩ => ⟨hb, hc, ht⟩
  · intro e pick r s p bad keep id cw hl hu hq ha h he hd hk hn
    exact (Judges.auxcrcLimitExceeded hl hu hq ha (Chip.auxOver_of h)).drops he hd hk hn

end

section
/-!
PROOFS. Pair drop: the messages that agree on the lanes kept, and the switch at the announced codewords (R48 to R50).
-/
set_option Elab.async false
namespace Sys2Proof.Machine

/-! A pair engine that is dropped. -/

/-- The pair engine is dropped and holds no retained coefficients (R50, R77). -/
def Chip.Gone (c : Chip) (e : Nat) : Prop := (c.pe e).dropped = true ∧ (c.pe e).retained = false

theorem PeSt.retained_invalidate (s : PeSt) : s.invalidate.retained = false := by
  rw [PeSt.retained, PeSt.invalidate, PeSt.word_putWord, if_pos rfl, Nat.testBit_and, show (65536 : Nat) = 2 ^ 16 from rfl,
    Nat.testBit_mod_two_pow, testBit_withBit, if_pos rfl, Bool.and_false, Bool.false_and]

/-- Emptying the taps of a slot touches neither `DROPPED` nor the marks of the store. -/
theorem Chip.reprobe_pe (c : Chip) (v k x : Nat) :
    ((c.reprobe v k).pe x).dropped = (c.pe x).dropped ∧ ((c.reprobe v k).pe x).retained = (c.pe x).retained := by
  unfold Chip.reprobe
  split
  · exact ⟨rfl, rfl⟩
  · unfold Chip.zeroTaps
    by_cases hx : x = v
    · subst hx
      have hp : (c.setSlot x k fun s => { s with state := .probation, gain := 0, below := false }).pe x = c.pe x := rfl
      rw [Chip.setPe_same, hp]
      refine ⟨rfl, ?_⟩
      have hk := Tab.get?_filter (c.pe x).store (fun n => !(0x700 + 0x80 * k ≤ n && n < 0x780 + 0x80 * k)) 4
      rw [if_pos (by simp only [Bool.not_eq_true', Bool.and_eq_false_iff, decide_eq_false_iff_not]; omega)] at hk
      simp only [PeSt.retained, PeSt.word, Tab.getD_def, hk]
    · rw [Chip.setPe_other _ _ _ _ hx]
      exact ⟨rfl, rfl⟩

theorem Chip.ancVictimReset_pe (c : Chip) (v x : Nat) :
    ((c.ancVictimReset v).pe x).dropped = (c.pe x).dropped ∧ ((c.ancVictimReset v).pe x).retained = (c.pe x).retained :=
  ⟨Chip.each_same (fun d => (d.pe x).dropped) _ (fun d k => (d.reprobe_pe v k x).1) _ c,
   Chip.each_same (fun d => (d.pe x).retained) _ (fun d k => (d.reprobe_pe v k x).2) _ c⟩

theorem Chip.invalidate_dropped (c : Chip) (e x : Nat) : ((c.invalidate e).pe x).dropped = (c.pe x).dropped := by
  have h : (((c.setPe e PeSt.invalidate).setBit .PE_TRAIN_STATUS e 5 false).pe x).dropped = (c.pe x).dropped := by
    rw [Chip.setBit_eq, Chip.pe_wrRow]
    by_cases hx : x = e
    · rw [hx, Chip.setPe_same]; rfl
    · rw [Chip.setPe_other _ _ _ _ hx]
  unfold Chip.invalidate
  dsimp only
  split
  · rw [(Chip.ancVictimReset_pe _ e x).1, h]
  · exact h

theorem Chip.invalidate_retained (c : Chip) (e x : Nat) :
    ((c.invalidate e).pe x).retained = if x = e then false else (c.pe x).retained := by
  have h : (((c.setPe e PeSt.invalidate).setBit .PE_TRAIN_STATUS e 5 false).pe x).retained
      = if x = e then false else (c.pe x).retained := by
    rw [Chip.setBit_eq, Chip.pe_wrRow]
    split
    · next hx => rw [hx, Chip.setPe_same, PeSt.retained_invalidate]
    · next hx => rw [Chip.setPe_other _ _ _ _ hx]
  unfold Chip.invalidate
  dsimp only
  split
  · rw [(Chip.ancVictimReset_pe _ e x).2, h]
  · exact h

theorem Chip.dropPe_pe (c : Chip) (e x : Nat) :
    ((c.dropPe e).pe x).dropped = (if x = e then true else (c.pe x).dropped) ∧
      ((c.dropPe e).pe x).retained = if x = e then false else (c.pe x).retained := by
  unfold Chip.dropPe
  dsimp only
  rw [(Chip.ancPeDown_in (.refl Chip.ancPeDown_fx _) (by decide +kernel)).pe_eq (by decide +kernel), Chip.invalidate_dropped,
    Chip.invalidate_retained, Chip.setBit_eq, Chip.pe_wrRow, Chip.add_eq]
  by_cases hx : x = e
  · subst hx; simp
  · simp [hx, Chip.setPe_other]

theorem Chip.dropPe_gone (c : Chip) (e : Nat) : (c.dropPe e).Gone e := by simp [Chip.Gone, Chip.dropPe_pe]

theorem Chip.Gone.dropPe {c : Chip} {x : Nat} (h : c.Gone x) (e : Nat) : (c.dropPe e).Gone x := by
  obtain ⟨hd, hr⟩ := h
  simp [Chip.Gone, Chip.dropPe_pe, hd, hr]

/-- What one turn of a loop establishes and every turn keeps holds after the loop. -/
theorem Chip.each_establishes {α : Type} {P : Chip → Prop} {f : Chip → α → Chip} {a : α} {l : List α}
    (hk : ∀ c b, P c → P (f c b)) (he : ∀ c, P (f c a)) (h : a ∈ l) (c : Chip) : P (c.each l f) := by
  unfold Chip.each
  induction l generalizing c with
  | nil => exact absurd h List.not_mem_nil
  | cons b l ih =>
    rcases List.mem_cons.1 h with rfl | h
    · exact Chip.each_keeps P f hk l _ (he c)
    · exact ih h _

/-! The switch (R50). -/

/-- A replanned wake changes the low-power-idle record of the controller alone. -/
theorem Chip.lpiReplan_port {β : Type} (g : PortSt → β) (hg : ∀ s l, g { s with lpi := l } = g s) (c : Chip) (p : Nat) :
    g ((c.lpiReplan p).port p) = g (c.port p) := by
  have hs : ∀ (c : Chip) f, g ((c.setLpi p f).port p) = g (c.port p) := fun c f => by
    rw [Chip.setLpi, Chip.setPort_same, hg]
  unfold Chip.lpiReplan
  split
  · rfl
  · dsimp only
    split
    · exact hs _ _
    · exact hs _ _
    · rw [Chip.wr_eq, Chip.port_wrRow, hs, hs]

theorem Chip.switchLanes_port (c : Chip) (p : Nat) (keep : List Nat) :
    (c.switchLanes p keep).port p = { c.port p with lanes := (c.port p).lanes.filter fun e => keep.contains e } := by
  have hd : ∀ (l : List Nat), (c.each l fun c e => c.dropPe e).port p = c.port p := fun l =>
    (Within.each (fun _ _ h => Chip.dropPe_in h (by decide +kernel)) (.refl Chip.dropPe_fx _)).port_eq (by decide +kernel) p
  unfold Chip.switchLanes
  dsimp only
  split
  · rw [Chip.setPort_same, hd]
  · rw [Chip.port_raise, Chip.setPort_same, hd]

theorem Chip.switchLanes_gone (c : Chip) (p : Nat) (keep : List Nat) {e : Nat} (he : e ∈ (c.port p).lanes) (hk : e ∉ keep) :
    (c.switchLanes p keep).Gone e := by
  have h : e ∈ (c.port p).lanes.filter fun e => !keep.contains e := List.mem_filter.2 ⟨he, by simp [hk]⟩
  have hg := Chip.each_establishes (P := fun d => d.Gone e) (fun c b h => h.dropPe b) (fun c => c.dropPe_gone e) h c
  unfold Chip.switchLanes
  dsimp only
  split <;> exact hg

/-- The transmit stream goes on over the new lanes: dealt anew from a codeword on, or laid from there (R50). -/
def Chip.regrid (c : Chip) (old : Option Grid) (p at_ : Nat) : Chip :=
  match old with
  | some g => c.redeal p g at_
  | none => c.gridStart p at_

theorem Chip.regrid_in (c : Chip) (old : Option Grid) (p at_ : Nat) : Within Chip.redeal_fx c (c.regrid old p at_) := by
  cases old with
  | some g => exact Chip.redeal_in (.refl _ _) (by decide +kernel)
  | none => exact Chip.gridStart_in (.refl _ _) (by decide +kernel)

/-- What a switch does to the lanes before low-power idle is replanned. -/
def Chip.redealt (c : Chip) (p : Nat) (keep : List Nat) (cw : Nat) : Chip :=
  let d := (c.switchLanes p keep).regrid (c.grid p) p ((c.port p).seqAt + cw * c.frameEdges p)
  if d.up p then d else d.each keep fun c e => c.setPe e PeSt.window

theorem Chip.switchTx_eq (c : Chip) (p : Nat) (keep : List Nat) (cw : Nat) :
    c.switchTx p keep cw = if (c.port p).lanes.all fun e => keep.contains e then c else (c.redealt p keep cw).lpiReplan p := rfl

section
variable (c : Chip) (p : Nat) (keep : List Nat) (cw : Nat)

/-- Redealing after the switch of the lanes leaves the controllers. -/
theorem Chip.redealt_port : (c.redealt p keep cw).port p = (c.switchLanes p keep).port p := by
  have hr := ((c.switchLanes p keep).regrid_in (c.grid p) p ((c.port p).seqAt + cw * c.frameEdges p)).port_eq (by decide +kernel) p
  unfold Chip.redealt
  dsimp only
  split
  · exact hr
  · rw [← hr]
    exact Chip.each_same (fun d => d.port p) (fun c e => c.setPe e PeSt.window) (fun _ _ => rfl) keep _

/-- Redealing after the switch of the lanes leaves a dropped pair engine as it is. -/
theorem Chip.redealt_gone {e : Nat} (h : (c.switchLanes p keep).Gone e) : (c.redealt p keep cw).Gone e := by
  have hw : ∀ d : Chip, d.Gone e → (d.each keep fun c e => c.setPe e PeSt.window).Gone e := fun d hd => by
    refine Chip.each_keeps (fun d => d.Gone e) _ (fun d x hx => ?_) _ _ hd
    unfold Chip.Gone
    by_cases he : e = x
    · subst he; rw [Chip.setPe_same]; exact hx
    · rw [Chip.setPe_other _ _ _ _ he]; exact hx
  have hr := ((c.switchLanes p keep).regrid_in (c.grid p) p ((c.port p).seqAt + cw * c.frameEdges p)).pe_eq (by decide +kernel) e
  have hg : ((c.switchLanes p keep).regrid (c.grid p) p ((c.port p).seqAt + cw * c.frameEdges p)).Gone e := by
    rw [Chip.Gone, hr]; exact h
  unfold Chip.redealt
  dsimp only
  split
  · exact hg
  · exact hw _ hg

/-- After a switch the kept lanes deal; beside the lanes only the low-power-idle record of the controller may be new. -/
theorem Chip.switchTx_port {β : Type} (g : PortSt → β) (hg : ∀ s l, g { s with lpi := l } = g s) :
    g ((c.switchTx p keep cw).port p) = g { c.port p with lanes := (c.port p).lanes.filter fun e => keep.contains e } := by
  rw [Chip.switchTx_eq]
  split
  · next h => rw [List.filter_eq_self.2 (List.all_eq_true.1 h)]
  · rw [Chip.lpiReplan_port g hg, Chip.redealt_port, Chip.switchLanes_port]

theorem Chip.switchTx_gone {e : Nat} (he : e ∈ (c.port p).lanes) (hk : e ∉ keep) : (c.switchTx p keep cw).Gone e := by
  rw [Chip.switchTx_eq, if_neg fun h => hk (by simpa using List.all_eq_true.1 h e he)]
  have hr := (Chip.lpiReplan_in (p := p) (.refl Chip.lpiReplan_fx (c.redealt p keep cw)) (by decide +kernel)).pe_eq
    (by decide +kernel) e
  rw [Chip.Gone, hr]
  exact c.redealt_gone p keep cw (c.switchLanes_gone p keep he hk)

end

/-! The messages (R48, R49). -/

/-- Pairs that a received `KEEP` names and the own view keeps (R48). -/
def Chip.bothKeep (c : Chip) (p keep : Nat) : List Nat :=
  (c.keepIn p keep).filter fun x => ((c.port p).kept.filter fun x => !c.criterion x).contains x

/-- The request with number `id` has been acted on (R39). -/
def Chip.heardDrop (c : Chip) (p id : Nat) : Chip := c.setPort p fun st => { st with lastReqIn := some id }

/-- The acknowledgement of a request: the switches announced so far shrink, and the own switch is announced (R48, R49). -/
def Chip.ackDrop (c : Chip) (p id partnerSeq : Nat) (keep : List Nat) (cw : Nat) (ack : BitVec 128) : Chip :=
  c.setPort p fun st =>
    { st.intersect keep with
      dropAns := some ⟨id, keep, cw % 256, cw⟩, partnerDrop := some ⟨id, keep, partnerSeq, 0⟩, outDrop := st.outDrop ++ [ack] }

theorem execMcPairDropReq_eq (e : PeNo) (msg : BitVec 128) (pick : BitVec 8) (s : State) :
    execMcPairDropReq e msg pick s = s.run fun c =>
      let p := c.portOf e
      let f := dropFields msg
      let keep := c.bothKeep p f.2.1
      let d := c.heardDrop p f.1
      let cw := switchPoint (d.msgCw p (c.port p).outDrop.length) pick.toNat
      if !c.laneLive e || !mgmtCheck msg || mgmtType msg ≠ 0x02 || (c.port p).lastReqIn = some f.1 then c
      else if d.tooFew p keep || !(c.port p).downshiftAgreed then d.goDown p 0x04
      else d.ackDrop p f.1 f.2.2 keep cw (pairDropMsg true f.1 (d.keepOut p keep) (cw % 256)) := rfl

theorem Chip.tooFew_of_lt {c : Chip} {p : Nat} {keep : List Nat} (h : keep.length < c.rd .PORT_MIN_PAIRS p) :
    c.tooFew p keep = true := by simp [Chip.tooFew, h]

theorem Chip.not_tooFew {c : Chip} {p : Nat} {keep : List Nat} (hk : keep ≠ []) (h : c.rd .PORT_MIN_PAIRS p ≤ keep.length) :
    c.tooFew p keep = false := by
  simp only [Chip.tooFew, List.isEmpty_eq_false_iff.2 hk, Bool.false_or, decide_eq_false_iff_not, Nat.not_lt]
  exact h

section
variable (c : Chip) (p id : Nat)

/-- Noting a request's number leaves what the answer is computed from. -/
theorem Chip.heardDrop_up : (c.heardDrop p id).up p = c.up p := by simp [Chip.up, Chip.heardDrop]

theorem Chip.heardDrop_keepOut (keep : List Nat) : (c.heardDrop p id).keepOut p keep = c.keepOut p keep := by
  simp [Chip.keepOut, Chip.heardDrop]

theorem Chip.heardDrop_msgCw (k : Nat) : (c.heardDrop p id).msgCw p k = c.msgCw p k := by
  simp [Chip.msgCw, Chip.txCw, Chip.frameEdges, Chip.heardDrop]

end

theorem execMcPairDropAck_eq (e : PeNo) (msg : BitVec 128) (s : State) :
    execMcPairDropAck e msg s = s.run fun c =>
      let p := c.portOf e
      let f := dropFields msg
      match (c.port p).dropReq with
      | some r =>
        let keep := (c.keepIn p f.2.1).filter fun x => r.keep.contains x
        if !c.laneLive e || !mgmtCheck msg || mgmtType msg ≠ 0x03 || r.id ≠ f.1 || (c.port p).dropAcked then c
        else if c.tooFew p keep then c.goDown p 0x04
        else c.setPort p fun st =>
          { st.intersect keep with dropAcked := true, partnerAns := some ⟨f.1, keep, f.2.2, 0⟩ }
      | none => c := rfl

theorem EvFrame.onlyPort {b c d : Chip} {p : Nat} (h : EvFrame c d) (ho : b.OnlyPort c p) : b.OnlyPort d p := by
  obtain ⟨hb, hp⟩ := ho
  exact ⟨by rw [h.bare, h.ports_eq, hb], fun q hq => (h.port_eq q).trans (hp q hq)⟩

/-- A change of one controller is a change of no other part. -/
theorem Chip.setPort_onlyPort (c : Chip) (p : Nat) (f : PortSt → PortSt) : c.OnlyPort (c.setPort p f) p :=
  ⟨rfl, fun _ hq => Chip.setPort_other _ _ _ _ hq⟩

/-! The switch commands. -/

/-- Carrying out an announced switch of the transmitter (R50). -/
theorem execPairDropSwitch_tx (p : PortNo) (s : State) :
    execPairDropSwitch p true s = s.run fun c =>
      if !((c.port p).link = .up || (c.port p).link = .trainT3) then c
      else match (c.port p).nextSwitch with
        | none => c
        | some (true, r) =>
          if (c.port p).dropAcked then (c.setPort p fun st => { st with dropReq := none, dropAcked := false }).switchTx p r.keep r.cw
          else c.goDown p 0x05
        | some (false, r) => (c.setPort p fun st => { st with dropAns := none }).switchTx p r.keep r.cw := rfl

/-- What a switch of the transmitter leaves: the kept lanes deal, the rest of the controller's pair drop and its state stay, and the
pair engines let go are dropped (R50). -/
theorem EvFrame.switched {c d : Chip} {p cw : Nat} {keep : List Nat} (h : EvFrame (c.switchTx p keep cw) d) :
    (d.port p).lanes = ((c.port p).lanes.filter fun e => keep.contains e) ∧ (d.port p).dropReq = (c.port p).dropReq ∧
      (d.port p).dropAcked = (c.port p).dropAcked ∧ (d.port p).dropAns = (c.port p).dropAns ∧ (d.port p).link = (c.port p).link ∧
      ∀ e ∈ (c.port p).lanes, e ∉ keep → (d.pe e).dropped = true ∧ (d.pe e).retained = false := by
  rw [h.port_eq]
  refine ⟨c.switchTx_port p keep cw (·.lanes) fun _ _ => rfl, c.switchTx_port p keep cw (·.dropReq) fun _ _ => rfl,
    c.switchTx_port p keep cw (·.dropAcked) fun _ _ => rfl, c.switchTx_port p keep cw (·.dropAns) fun _ _ => rfl,
    c.switchTx_port p keep cw (·.link) fun _ _ => rfl, fun e he hk => ?_⟩
  rw [h.pe_eq]
  exact c.switchTx_gone p keep cw he hk

/-- The receiver's dealing follows the partner's switch (R50). -/
theorem execPairDropSwitch_rx (p : PortNo) (s : State) :
    execPairDropSwitch p false s = s.run fun c =>
      let deal := fun (c : Chip) (r : DropReq) => c.setRxLanes p ((c.port p).rxLanes.filter fun e => r.keep.contains e)
      if !((c.port p).link = .up || (c.port p).link = .trainT3) then c
      else match (c.port p).partnerDrop, (c.port p).partnerAns with
        | some r, _ => deal (c.setPort p fun st => { st with partnerDrop := none }) r
        | none, some r => deal (c.setPort p fun st => { st with partnerAns := none }) r
        | none, none => c := rfl

theorem Chip.switchable {c : Chip} {p : Nat} (h : (c.port p).link = .up ∨ (c.port p).link = .trainT3) :
    ¬ (!(decide ((c.port p).link = .up) || decide ((c.port p).link = .trainT3))) = true := by
  rcases h with h | h <;> simp [h]

/-- Dealing anew to the receiver changes its controller's lanes, and the lane numbers that are shown. -/
theorem Chip.setRxLanes_shows (c : Chip) (p : Nat) (l : List Nat) :
    Within (.of [] [.PE_RX_LANE]) (c.setPort p fun s => { s with rxLanes := l }) (c.setRxLanes p l) :=
  Within.each (fun _ _ h => h.wr (by decide +kernel)) (.refl _ _)

theorem Chip.setRxLanes_port (c : Chip) (p : Nat) (l : List Nat) : (c.setRxLanes p l).port p = { c.port p with rxLanes := l } := by
  rw [(c.setRxLanes_shows p l).port_eq (by decide +kernel), Chip.setPort_same]

theorem Chip.bare_wrRow (c : Chip) (r : Reg) (i row v : Nat) : (c.wrRow r i row v).bare = c.bare := by
  unfold Chip.wrRow
  dsimp only
  split <;> rfl

theorem Chip.setRxLanes_onlyPort (c : Chip) (p : Nat) (f : PortSt → PortSt) (l : List Nat) :
    c.OnlyPort ((c.setPort p f).setRxLanes p l) p := by
  refine ⟨?_, fun q hq => ?_⟩
  · have hb : ((c.setPort p f).setRxLanes p l).bare = ((c.setPort p f).setPort p fun s => { s with rxLanes := l }).bare :=
      Chip.each_same Chip.bare _ (fun c x => c.bare_wrRow _ _ _ _) _ _
    have hp := ((c.setPort p f).setRxLanes_shows p l).part .ports (by decide +kernel)
    rw [hb, show ((c.setPort p f).setRxLanes p l).ports = _ from hp]
    rfl
  · rw [((c.setPort p f).setRxLanes_shows p l).port_eq (by decide +kernel), Chip.setPort_other _ _ _ _ hq,
      Chip.setPort_other _ _ _ _ hq]

end Sys2Proof.Machine
end

section
set_option Elab.async false
open Sys2Proof Sys2Proof.Machine

/-- Settles O9: each command is taken apart into its refusals, the answer that it sends, and the switch. -/
theorem pairDropIsAgreedAndCarriedOut : Obligations.PairDropIsAgreedAndCarriedOut := by
  unfold Obligations.PairDropIsAgreedAndCarriedOut
  refine ⟨?_, ?_, ?_, ?_, ?_, ?_, ?_⟩
  · intro e msg pick s p f mine keep cw hl hc ht hq ha hk hn
    refine Answers.of_run (execMcPairDropReq_eq e msg pick s) fun d hd => ?_
    have hf : (s.chip.heardDrop p f.1).tooFew p (s.chip.bothKeep p f.2.1) = false := Chip.not_tooFew hk hn
    dsimp only at hd
    rw [if_neg (by simpa [hl, hc, ht] using hq), hf, ha, if_neg (by decide), Chip.heardDrop_keepOut, Chip.heardDrop_msgCw] at hd
    rw [hd.port_eq, Chip.ackDrop, Chip.setPort_same, Chip.heardDrop, Chip.setPort_same]
    exact ⟨rfl, rfl, rfl, rfl, rfl, rfl, hd.cells⟩
  · intro e msg pick s p f mine keep hl hu hc ht hq hn
    refine Answers.of_run (execMcPairDropReq_eq e msg pick s) fun d hd => ?_
    have hf : (s.chip.heardDrop p f.1).tooFew p (s.chip.bothKeep p f.2.1) = true := Chip.tooFew_of_lt hn
    dsimp only at hd
    rw [if_neg (by simpa [hl, hc, ht] using hq), hf, Bool.true_or, if_pos rfl] at hd
    have hup : (s.chip.heardDrop p f.1).up p = true := by rw [Chip.heardDrop_up, Chip.up, hu]; rfl
    obtain ⟨hb, hca, hco, -⟩ := hd.wentDown ((s.chip.heardDrop p f.1).goDown_wentDown p 0x04 hup (by decide))
    exact ⟨hb, hca, hco⟩
  · intro e msg r s p f keep hl hc ht hr ha hi hk hn
    refine Answers.of_run (execMcPairDropAck_eq e msg s) fun d hd => ?_
    have hf : s.chip.tooFew p keep = false := Chip.not_tooFew hk hn
    dsimp only at hd
    rw [hr] at hd
    dsimp only at hd
    rw [if_neg (by simpa [hl, hc, ht, hi] using ⟨rfl, ha⟩), if_neg (by rw [hf]; decide)] at hd
    exact ⟨by rw [hd.port_eq, Chip.setPort_same], hd.onlyPort (Chip.setPort_onlyPort ..), hd.cells⟩
  · intro p r s hu hr ha hk
    refine Answers.of_run (execPairDropSwitch_tx p s) fun d hd => ?_
    rw [if_neg (Chip.switchable hu), PortSt.nextSwitch, hr, ha] at hd
    dsimp only at hd
    rw [if_pos hk] at hd
    obtain ⟨hlanes, hreq, hacked, -, hlink, hgone⟩ := hd.switched
    rw [Chip.setPort_same] at hlanes hreq hacked hlink hgone
    exact ⟨hlanes, hreq, hacked, hlink, hgone⟩
  · intro p r s hu hr ha
    refine Answers.of_run (execPairDropSwitch_tx p s) fun d hd => ?_
    rw [if_neg (Chip.switchable hu), PortSt.nextSwitch, hr, ha] at hd
    dsimp only at hd
    obtain ⟨hlanes, -, -, hans, hlink, hgone⟩ := hd.switched
    rw [Chip.setPort_same] at hlanes hans hlink hgone
    exact ⟨hlanes, hans, hlink, hgone⟩
  · intro p r s hu hr ha hk
    refine Answers.of_run (execPairDropSwitch_tx p s) fun d hd => ?_
    rw [if_neg (Chip.switchable (.inl hu)), PortSt.nextSwitch, hr, ha] at hd
    dsimp only at hd
    rw [if_neg (by simp [hk])] at hd
    obtain ⟨hb, hca, hco, -⟩ := hd.wentDown (s.chip.goDown_wentDown p 0x05 (by simp [Chip.up, hu]) (by decide))
    exact ⟨hb, hca, hco⟩
  · intro p r s hu hr
    refine Answers.of_run (execPairDropSwitch_rx p s) fun d hd => ?_
    dsimp only at hd
    rw [if_neg (Chip.switchable hu), hr] at hd
    dsimp only at hd
    refine ⟨by rw [hd.port_eq, Chip.setRxLanes_port, Chip.setPort_same], hd.onlyPort (Chip.setRxLanes_onlyPort ..),
      fun k hk hn => (hd.cells k hk id).trans ?_⟩
    refine (Chip.setRxLanes_shows ..).cell k (Bool.eq_false_iff.2 fun h => hn ?_)
    simpa using Fx.hasReg_of h

end

section
/-!
PROOFS. Writes that act on the link: the port's mode, ability and enable, the training restart, and a quad's formation (R28, R30,
R32, R64, R78, R83 to R85).
-/
set_option Elab.async false
namespace Sys2Proof.Machine

/-! Widths and formations. -/

theorem Chip.formation_eq_rd (c : Chip) (q : Nat) : c.formation q = c.rd .QUAD_FORMATION q := by
  rw [Chip.rd_eq, Chip.formation]
  cases c.raw .QUAD_FORMATION q 0 <;> rfl

/-- Where the formations may not change, the widths stay. -/
theorem Within.width_eq {x : Fx} {c d : Chip} (h : Within x c d) (hq : x.hasReg .QUAD_FORMATION = false) (p : Nat) :
    d.width p = c.width p := by
  rw [Chip.width, Chip.width, Chip.formation_eq_rd, Chip.formation_eq_rd, h.rd hq hq]

theorem Within.pesOf_eq {x : Fx} {c d : Chip} (h : Within x c d) (hq : x.hasReg .QUAD_FORMATION = false) (p : Nat) :
    d.pesOf p = c.pesOf p := by
  rw [Chip.pesOf, Chip.pesOf, h.width_eq hq]

/-- Where the power part may not change, the tiles stay. -/
theorem Within.tile_eq {x : Fx} {c d : Chip} (h : Within x c d) (hp : x.hasPart .pwr = false) (t : Nat) : d.tile t = c.tile t := by
  have hs : d.pwr = c.pwr := h.part .pwr hp
  rw [Chip.tile, Chip.tile, hs]

/-! An access that is turned away. -/

theorem EvFrame.turnedAway {c d : Chip} {a : Abort} (h : EvFrame { c with access := ⟨a, []⟩ } d) :
    d.access = ⟨a, []⟩ ∧ c.TurnedAway d a :=
  ⟨h.access, h.access, h.changesOnly rfl fun _ _ _ => rfl⟩

/-- A write that passes every check is accepted, and the controllers and the objects outside the event engine are as its effect
left them. -/
theorem Answers.of_accepted {i : Instr} {s : State} {r : Reg} {n : Nat} {f : Chip → Abort × Chip} {P : Chip → Prop} {m : Chip}
    (he : exec i s = s.runWr fun c => c.gated r n f) (hs : s.chip.asleep r n = false) (hf : f s.chip = (.ok, m))
    (h : ∀ d : Chip, d.accepted → (∀ p, d.port p = m.port p) → (∀ r, r.ofEvents = false → ∀ i row, d.rd r i row = m.rd r i row) →
      P d) : Answers i s P :=
  Answers.of_write m he hs hf fun d hd => h d hd.access (fun p => (hd.port_eq p).trans rfl) fun r hr i row => (hd.rd r hr i row).trans rfl

/-! The restart by software (R85). -/

section
variable (c : Chip) (p : Nat)

theorem Chip.softRestart_disabled (hl : (c.port p).link = .disabled) (hw : (c.port p).waitLevel = false) :
    c.softRestart p = c := by
  simp [Chip.softRestart, hl, hw]

theorem Chip.softRestart_breaks (hd : (c.port p).link ≠ .disabled) (hh : (c.port p).link ≠ .held) (hu : (c.port p).link ≠ .up) :
    c.softRestart p = (c.setCause p 0x08).toBreak p true := by
  unfold Chip.softRestart
  dsimp only
  split
  · next h => exact absurd h hd
  · next h => exact absurd h hh
  · next h => exact absurd h hu
  · rfl

/-- The port is in `LINK_BREAK` by software, without a fast retrain. -/
def Chip.Restarted (d : Chip) (p : Nat) : Prop :=
  (d.port p).link = .brk ∧ (d.port p).noFast = true ∧ d.rd .LINK_DOWN_CAUSE p = 0x08

theorem Chip.softRestart_restarted (hd : (c.port p).link ≠ .disabled) (hh : (c.port p).link ≠ .held)
    (hu : (c.port p).link ≠ .up) : (c.softRestart p).Restarted p := by
  rw [Chip.softRestart_breaks c p hd hh hu, Chip.Restarted, Chip.toBreak_port,
    (Chip.toBreak_in (.refl Chip.toBreak_fx _) (by decide +kernel)).rd (by decide +kernel) (by decide +kernel), Chip.setCause,
    Chip.wr_eq, Chip.rd_wrRow_same]
  exact ⟨rfl, rfl, rfl⟩

/-- A disabled port that does not wait stays disabled; one in another state but `LINK_HELD` and `LINK_UP` restarts. -/
theorem Chip.softRestart_link (hu : (c.port p).link ≠ .up) (hh : (c.port p).link ≠ .held)
    (hw : (c.port p).link = .disabled → (c.port p).waitLevel = false) :
    ((c.softRestart p).port p).link = if (c.port p).link = .disabled then .disabled else .brk := by
  split
  · next hl => rw [c.softRestart_disabled p hl (hw hl), hl]
  · next hl => exact (c.softRestart_restarted p hl hh hu).1

theorem Chip.ceilingReset_rd : (c.ceilingReset p).rd .DOWNSHIFT_CEILING p = 0xFF := by
  rw [Chip.ceilingReset, Chip.wr_eq, Chip.rd_wrRow_same]
  rfl

theorem Chip.ceilingReset_port (x : Nat) : (c.ceilingReset p).port x = c.port x := by
  rw [Chip.ceilingReset, Chip.wr_eq, Chip.port_wrRow]

theorem Chip.invalidatePort_port (x : Nat) : (c.invalidatePort p).port x = c.port x :=
  (Chip.invalidatePort_in (.refl Chip.invalidatePort_fx c) (by decide +kernel)).port_eq (by decide +kernel) x

/-- A restart leaves the ceiling as it was reset, and the objects that are written. -/
theorem Chip.softRestart_rd {r : Reg} (hr : r ∈ [Reg.DOWNSHIFT_CEILING, .PORT_MODE, .PORT_ABILITY]) (i row : Nat) :
    (c.softRestart p).rd r i row = c.rd r i row :=
  (Chip.softRestart_in (.refl Chip.softRestart_fx c) (by decide +kernel)).rd (by revert r; decide +kernel) (by decide +kernel) i row

end

/-- A write that restarted the link by software was accepted, with the ceiling reset and `PORT_MODE` as before (R83, R85). -/
def Chip.RestartAccepted (c d : Chip) (p : Nat) : Prop :=
  d.accepted ∧ (d.port p).link = .brk ∧ (d.port p).noFast = true ∧ d.rd .LINK_DOWN_CAUSE p = 0x08 ∧
    d.rd .DOWNSHIFT_CEILING p = 0xFF ∧ Stays c d .PORT_MODE p

/-- An accepted write of `TRAIN_RESTART` 1 or 3 in a state that is neither `LINK_DISABLED`, `LINK_HELD` nor `LINK_UP` (R85). -/
theorem trainRestart_answers {i : Instr} {p : PortNo} {v : Nat} {s : State} (hv : v = 1 ∨ v = 3)
    (he : exec i s = s.runWr fun c => c.gated .TRAIN_RESTART p fun c => c.writeTrainRestart p v)
    (ha : s.chip.asleep .TRAIN_RESTART p = false) (hd : (s.chip.port p).link ≠ .disabled) (hh : (s.chip.port p).link ≠ .held)
    (hu : (s.chip.port p).link ≠ .up) :
    Answers i s fun d => s.chip.RestartAccepted d p := by
  have key : ∀ c : Chip, (∀ x, c.port x = s.chip.port x) → Stays s.chip c .PORT_MODE p →
      s.chip.writeTrainRestart p v = (.ok, (c.ceilingReset p).softRestart p) →
      Answers i s fun d => s.chip.RestartAccepted d p := by
    intro c hp hm hw
    refine Answers.of_accepted he ha hw fun d hacc hport hrd => ?_
    obtain ⟨hb, hn, hc⟩ := (c.ceilingReset p).softRestart_restarted p (by rwa [Chip.ceilingReset_port, hp])
      (by rwa [Chip.ceilingReset_port, hp]) (by rwa [Chip.ceilingReset_port, hp])
    refine ⟨hacc, by rw [hport]; exact hb, by rw [hport]; exact hn, by rw [hrd _ rfl]; exact hc, ?_, ?_⟩
    · rw [hrd _ rfl]
      exact ((c.ceilingReset p).softRestart_rd p (by decide) p 0).trans (c.ceilingReset_rd p)
    · rw [Stays, hrd _ rfl]
      refine ((c.ceilingReset p).softRestart_rd p (by decide) p 0).trans ?_
      rw [Chip.ceilingReset, Chip.wr_eq, Chip.rd_wrRow_reg _ _ _ _ _ _ _ _ (by decide) (by decide)]
      exact hm
  rcases hv with rfl | rfl
  · refine key (s.chip.invalidatePort p) (s.chip.invalidatePort_port p) ?_ (by simp [Chip.writeTrainRestart, hd])
    exact (Chip.invalidatePort_in (.refl Chip.invalidatePort_fx _) (by decide +kernel)).rd (by decide +kernel) (by decide +kernel) _ _
  · exact key s.chip (fun _ => rfl) rfl (by simp [Chip.writeTrainRestart, hd])

/-! The fast retrain (R78, R113). -/

/-- The retention checks of pair engines that hold what was sealed all pass, and show it in the stores' status. -/
theorem Chip.retentionChecks_pass (l : List Nat) (c : Chip) (h : ∀ e ∈ l, (c.pe e).retentionOk = true) :
    ∃ d, l.foldl (fun (a : Bool × Chip) e => let k := a.2.retentionCheck e; (a.1 && k.1, k.2)) (true, c) = (true, d) ∧
      Within (.of [] [.PE_STORE_STATUS]) c d := by
  induction l generalizing c with
  | nil => exact ⟨c, rfl, .refl _ _⟩
  | cons e l ih =>
    have he : c.retentionCheck e = (true, c.setBit .PE_STORE_STATUS e 2 true) := by
      simp [Chip.retentionCheck, h e List.mem_cons_self]
    obtain ⟨d, hd, hw⟩ := ih (c.setBit .PE_STORE_STATUS e 2 true) fun x hx => by
      rw [Chip.setBit_eq, Chip.pe_wrRow]
      exact h x (List.mem_cons_of_mem _ hx)
    refine ⟨d, ?_, ((Within.refl _ c).setBit (by decide +kernel)).trans hw⟩
    rw [List.foldl_cons, he]
    exact hd

/-- A pair engine of a sealed port passes its retention check. -/
theorem Chip.sealPort_retentionOk (c : Chip) (p : Nat) {e : Nat} (he : e ∈ c.pesOf p) :
    ((c.sealPort p).pe e).retentionOk = true := by
  refine Chip.each_establishes (P := fun d => (d.pe e).retentionOk = true) (fun d b hd => ?_) (fun d => ?_) he c
  · rw [Chip.setBit_eq, Chip.setBit_eq, Chip.pe_wrRow, Chip.pe_wrRow]
    by_cases hb : e = b
    · subst hb
      rw [Chip.setPe_same]
      exact PeSt.retentionOk_sealStore _
    · rwa [Chip.setPe_other _ _ _ _ hb]
  · rw [Chip.setBit_eq, Chip.setBit_eq, Chip.pe_wrRow, Chip.pe_wrRow, Chip.setPe_same]
    exact PeSt.retentionOk_sealStore _

/-- A training starts in `TRAIN_T0`, as the kind that was asked for. -/
theorem Chip.trainStart_port (c : Chip) (p : Nat) (fast : Bool) (lanes : List Nat) :
    ((c.trainStart p fast lanes).port p).link = .trainT0 ∧ ((c.trainStart p fast lanes).port p).fast = fast := by
  unfold Chip.trainStart
  dsimp only
  rw [Within.port_eq (x := .union [Chip.ancVictimReset_fx, .of [.pes] [.PE_LANE_STATUS, .PE_TRAIN_PHASE, .PE_TRAIN_STATUS]])
    (Within.each (fun d e h => ?_) (.refl _ _)) (by decide +kernel), Chip.setPort_same]
  · exact ⟨rfl, rfl⟩
  · refine Within.ite ?_ (Chip.ancVictimReset_in ?_ (by decide +kernel))
    all_goals exact (((h.setPe (by decide +kernel)).wr (by decide +kernel)).wr (by decide +kernel)).setBit (by decide +kernel)

/-- A fast retrain of a port in `LINK_UP` whose pair engines pass their retention checks starts `TRAIN_T0`, and is counted with the
exit (R78, R86). -/
theorem Chip.fastStart_starts (c : Chip) (p : Nat) (hu : c.up p = true) (hr : ∀ e ∈ c.laneSet p, (c.pe e).retentionOk = true) :
    let d := c.fastStart p
    (d.port p).link = .trainT0 ∧ (d.port p).fast = true ∧ Counts c d .FAST_COUNT p 1 ∧ Counts c d .LINK_DOWN_COUNT p 1 ∧
      Stays c d .LINK_DOWN_CAUSE p := by
  have hset : (c.inc .FAST_COUNT p).laneSet p = c.laneSet p := by
    have hw : Within (.of [] [.FAST_COUNT]) c (c.inc .FAST_COUNT p) := (Within.refl _ _).inc (by decide +kernel)
    simp only [Chip.laneSet, Chip.usablePes, hw.port_eq (by decide +kernel), hw.pesOf_eq (by decide +kernel),
      hw.rd (show Fx.hasReg _ .BIST_STATE_PE = false by decide +kernel) (by decide +kernel)]
  obtain ⟨d, hd, hw⟩ := (c.inc .FAST_COUNT p).retentionChecks_pass (c.laneSet p) fun e he => by
    rw [Chip.inc_eq, Chip.pe_wrRow]; exact hr e he
  have hstart : c.fastStart p = (((d.leave p).trainStart p true (c.laneSet p)).wr .TRAIN_SOURCE p 1).wr .TRAIN_CLASS p 0 := by
    unfold Chip.fastStart
    dsimp only
    rw [hset, hd, if_pos rfl]
  have hup : d.up p = true := by rw [Chip.up, hw.port_eq (by decide +kernel), Chip.inc_eq, Chip.port_wrRow]; exact hu
  have htail : Within (.union [Chip.trainStart_fx, .of [] [.TRAIN_SOURCE, .TRAIN_CLASS]]) (d.leave p) (c.fastStart p) := by
    rw [hstart]
    exact ((Chip.trainStart_in (.refl _ _) (by decide +kernel)).wr (by decide +kernel)).wr (by decide +kernel)
  have hleave : Within Chip.leave_fx d (d.leave p) := Chip.leave_in (.refl _ _) (by decide +kernel)
  obtain ⟨hl, hf⟩ := (d.leave p).trainStart_port p true (c.laneSet p)
  unfold Counts Stays
  refine ⟨?_, ?_, ?_, ?_, ?_⟩
  · rw [hstart, Chip.wr_eq, Chip.wr_eq, Chip.port_wrRow, Chip.port_wrRow, hl]
  · rw [hstart, Chip.wr_eq, Chip.wr_eq, Chip.port_wrRow, Chip.port_wrRow, hf]
  · rw [htail.rd (by decide +kernel) (by decide +kernel), hleave.rd (by decide +kernel) (by decide +kernel),
      hw.rd (by decide +kernel) (by decide +kernel), Chip.inc_eq, Chip.rd_wrRow_same]
  · rw [htail.rd (by decide +kernel) (by decide +kernel), d.leave_count p hup, hw.rd (by decide +kernel) (by decide +kernel),
      Chip.inc_eq, Chip.rd_wrRow_reg _ _ _ _ _ _ _ _ (by decide) (by decide)]
  · rw [htail.rd (by decide +kernel) (by decide +kernel), hleave.rd (by decide +kernel) (by decide +kernel),
      hw.rd (by decide +kernel) (by decide +kernel), Chip.inc_eq, Chip.rd_wrRow_reg _ _ _ _ _ _ _ _ (by decide) (by decide)]

/-- The port as sealed for a fast retrain by software (R78, R85). -/
def Chip.sealedForRetrain (c : Chip) (p : Nat) : Chip :=
  ((c.setCause p 0x08).raise .linkDown (Cls.port.addr p) 0x08).sealPort p

/-- What the sealing for a fast retrain leaves to the start of the training. -/
theorem Chip.sealedForRetrain_in (c : Chip) (p : Nat) :
    Within (.union [Chip.sealPort_fx, .of [.ev] [.LINK_DOWN_CAUSE]]) c (c.sealedForRetrain p) :=
  Chip.sealPort_in (((Within.refl _ _).wr (by decide +kernel)).raise (by decide +kernel)) (by decide +kernel)

/-- The write of 2 to `TRAIN_RESTART` seals the port and starts the fast retrain where the tile's level runs the mode (R27, R78). -/
theorem Chip.writeTrainRestart_fast (c : Chip) (p : Nat) {m : LineMode} (hu : (c.port p).link = .up)
    (hm : (c.port p).mode = some m) (hw : m.isW = true) (hr : c.holdsRetained p m = true)
    (hf : c.rdBool .FAST_RETRAIN_ENABLE p = true) (hl : c.levelInForce (tileOf p) m = true) :
    c.writeTrainRestart p 2 =
      (.ok, ((c.sealedForRetrain p).setPort p fun s => { s with mode := some m }).fastStart p) := by
  have hin := c.sealedForRetrain_in p
  have hl' : ((c.sealedForRetrain p).setPort p fun s => { s with mode := some m }).levelInForce (tileOf p) m = true := by
    have ht : ((c.sealedForRetrain p).setPort p fun s => { s with mode := some m }).tile (tileOf p) = c.tile (tileOf p) :=
      hin.tile_eq (by decide +kernel) _
    rwa [Chip.levelInForce, ht]
  have hc : (c.up p && m.isW && c.holdsRetained p m && c.rdBool .FAST_RETRAIN_ENABLE p) = true := by
    simp [Chip.up, hu, hw, hr, hf]
  have hb : (c.sealedForRetrain p).begin_ p m true
      = ((c.sealedForRetrain p).setPort p fun s => { s with mode := some m }).fastStart p := by
    simp [Chip.begin_, hl', Chip.trainNow, hw]
  rw [← hb]
  simp only [Chip.writeTrainRestart, hu, hm, hc]
  rfl

theorem Chip.sealedForRetrain_cause (c : Chip) (p : Nat) : (c.sealedForRetrain p).rd .LINK_DOWN_CAUSE p = 0x08 := by
  rw [Chip.sealedForRetrain, (Chip.sealPort_in (.refl Chip.sealPort_fx _) (by decide +kernel)).rd (by decide +kernel)
    (by decide +kernel), Chip.rd_raise, Chip.setCause, Chip.wr_eq, Chip.rd_wrRow_same]
  rfl

/-- TRAIN_RESTART_FAST in `LINK_UP` with retained coefficients starts a fast retrain (R78). -/
theorem Chip.fastStart_sealed (c : Chip) (p : Nat) (m : LineMode) (hu : (c.port p).link = .up) (hl : (c.port p).lanes ≠ [])
    (hs : ∀ e ∈ (c.port p).lanes, e ∈ c.pesOf p) :
    let d := ((c.sealedForRetrain p).setPort p fun s => { s with mode := some m }).fastStart p
    (d.port p).link = .trainT0 ∧ (d.port p).fast = true ∧ d.rd .LINK_DOWN_CAUSE p = 0x08 ∧ Counts c d .FAST_COUNT p 1 ∧
      Counts c d .LINK_DOWN_COUNT p 1 := by
  have hin := c.sealedForRetrain_in p
  have hport : ((c.sealedForRetrain p).setPort p fun s => { s with mode := some m }).port p = { c.port p with mode := some m } := by
    rw [Chip.setPort_same, hin.port_eq (by decide +kernel)]
  have hset : ((c.sealedForRetrain p).setPort p fun s => { s with mode := some m }).laneSet p = (c.port p).lanes := by
    rw [Chip.laneSet, hport, if_neg (by simpa using hl)]
  obtain ⟨h0, hf, hc, hd, hk⟩ := Chip.fastStart_starts ((c.sealedForRetrain p).setPort p fun s => { s with mode := some m }) p
    (by rw [Chip.up, hport]; simpa using hu) fun e he => by
      rw [hset] at he
      rw [Chip.pe_setPort]
      refine Chip.sealPort_retentionOk _ p ?_
      have hw : Within (.of [.ev] [.LINK_DOWN_CAUSE]) c ((c.setCause p 0x08).raise .linkDown (Cls.port.addr p) 0x08) :=
        ((Within.refl _ _).wr (by decide +kernel)).raise (by decide +kernel)
      rw [hw.pesOf_eq (by decide +kernel)]
      exact hs e he
  unfold Counts Stays at *
  rw [Chip.rd_setPort] at hc hd hk
  refine ⟨h0, hf, hk.trans (c.sealedForRetrain_cause p), ?_, ?_⟩
  · rw [hc, hin.rd (by decide +kernel) (by decide +kernel)]
  · rw [hd, hin.rd (by decide +kernel) (by decide +kernel)]

/-! The port's mode and ability (R27, R32, R64, R85). -/

/-- A value that `PORT_MODE` takes on this port is carried out. -/
theorem Chip.writePortMode_ok {c : Chip} {p v : Nat} (h : v = 0 ∨ ∃ m ∈ LineMode.ranked, LineMode.ofCode v = some m ∧
    (c.width p = 0 ∨ (m.runsOn (c.width p) = true ∧ c.levelAllows (tileOf p) m = true))) :
    c.writePortMode p v = (.ok, c.applyPortMode p v) := by
  unfold Chip.writePortMode
  rcases h with rfl | ⟨m, -, hm, hw⟩
  · rfl
  · split
    · next hv => rw [hv]
    · simp only [hm]
      exact if_pos (by simpa only [Bool.or_eq_true, Bool.and_eq_true, decide_eq_true_eq] using hw)

theorem Chip.applyPortMode_rd (c : Chip) (p v : Nat) (hv : v < 256) :
    (c.applyPortMode p v).rd .PORT_MODE p = v ∧ (c.applyPortMode p v).rd .DOWNSHIFT_CEILING p = 0xFF := by
  unfold Chip.applyPortMode
  rw [Chip.softRestart_rd _ p (by decide), Chip.softRestart_rd _ p (by decide), Chip.ceilingReset_rd, Chip.ceilingReset, Chip.wr_eq,
    Chip.rd_wrRow_reg _ _ _ _ _ _ _ _ (by decide) (by decide),
    (Chip.invalidatePort_in (.refl Chip.invalidatePort_fx _) (by decide +kernel)).rd (by decide +kernel) (by decide +kernel),
    Chip.wr_eq, Chip.rd_wrRow_same]
  exact ⟨Nat.mod_eq_of_lt hv, rfl⟩

section
variable (c : Chip) (p v : Nat) (hu : (c.port p).link ≠ .up) (hh : (c.port p).link ≠ .held)
  (hw : (c.port p).link = .disabled → (c.port p).waitLevel = false)
include hu hh hw

theorem Chip.applyPortMode_link :
    ((c.applyPortMode p v).port p).link = if (c.port p).link = .disabled then .disabled else .brk := by
  have hp : (((c.wr .PORT_MODE p v).invalidatePort p).ceilingReset p).port p = c.port p := by
    rw [Chip.ceilingReset_port, Chip.invalidatePort_port, Chip.wr_eq, Chip.port_wrRow]
  have := Chip.softRestart_link (((c.wr .PORT_MODE p v).invalidatePort p).ceilingReset p) p (by rwa [hp]) (by rwa [hp]) (by rwa [hp])
  rwa [hp] at this

theorem Chip.applyPortAbility_link :
    ((c.applyPortAbility p v).port p).link = if (c.port p).link = .disabled then .disabled else .brk := by
  have hp : ((c.wr .PORT_ABILITY p (v &&& 0x77F)).ceilingReset p).port p = c.port p := by
    rw [Chip.ceilingReset_port, Chip.wr_eq, Chip.port_wrRow]
  have := Chip.softRestart_link ((c.wr .PORT_ABILITY p (v &&& 0x77F)).ceilingReset p) p (by rwa [hp]) (by rwa [hp]) (by rwa [hp])
  rw [Chip.applyPortAbility, (Chip.undersizedEval_in (.refl Chip.undersizedEval_fx _) (by decide +kernel)).port_eq
    (by decide +kernel)]
  rwa [hp] at this

end

theorem Chip.applyPortAbility_rd (c : Chip) (p v : Nat) :
    (c.applyPortAbility p v).rd .PORT_ABILITY p = v &&& 0x77F ∧ (c.applyPortAbility p v).rd .DOWNSHIFT_CEILING p = 0xFF := by
  have hin := Chip.undersizedEval_in (p := p)
    (.refl Chip.undersizedEval_fx (((c.wr .PORT_ABILITY p (v &&& 0x77F)).ceilingReset p).softRestart p)) (by decide +kernel)
  unfold Chip.applyPortAbility
  rw [hin.rd (by decide +kernel) (by decide +kernel), hin.rd (by decide +kernel) (by decide +kernel),
    Chip.softRestart_rd _ p (by decide), Chip.softRestart_rd _ p (by decide), Chip.ceilingReset_rd, Chip.ceilingReset, Chip.wr_eq,
    Chip.rd_wrRow_reg _ _ _ _ _ _ _ _ (by decide) (by decide), Chip.wr_eq, Chip.rd_wrRow_same]
  exact ⟨Nat.mod_eq_of_lt (Nat.lt_of_le_of_lt Nat.and_le_right (by decide)), rfl⟩

/-! The port's enable (R83, R84). -/

/-- The ceiling and `PORT_ENABLE` as a write leaves them before it acts on the link. -/
def Chip.enableSet (c : Chip) (p : Nat) (v : Bool) : Chip := (c.wrBool .PORT_ENABLE p v).ceilingReset p

theorem Chip.enableSet_in (c : Chip) (p : Nat) (v : Bool) :
    Within (.of [] [.PORT_ENABLE, .DOWNSHIFT_CEILING]) c (c.enableSet p v) :=
  Chip.ceilingReset_in ((Within.refl _ _).wrBool (by decide +kernel)) (by decide +kernel)

theorem Chip.enableSet_rd (c : Chip) (p : Nat) (v : Bool) :
    (c.enableSet p v).rd .PORT_ENABLE p = b2n v ∧ (c.enableSet p v).rd .DOWNSHIFT_CEILING p = 0xFF := by
  refine ⟨?_, Chip.ceilingReset_rd _ p⟩
  rw [Chip.enableSet, Chip.ceilingReset, Chip.wr_eq, Chip.rd_wrRow_reg _ _ _ _ _ _ _ _ (by decide) (by decide), Chip.wrBool_eq,
    Chip.rd_wrRow_same]
  cases v <;> rfl

theorem Chip.applyPortEnable_false {c : Chip} {p : Nat} (hw : c.width p ≠ 0) :
    c.applyPortEnable p false = ((c.enableSet p false).leave p).setLink p .disabled := by
  have hw' : (c.enableSet p false).width p ≠ 0 := by rwa [(c.enableSet_in p false).width_eq (by decide +kernel)]
  unfold Chip.applyPortEnable
  exact if_neg hw'

/-- What an enabled port has been prepared by when it starts: a moved host mapping returns, and a cable test is aborted (R84, R184). -/
def Chip.readied (c : Chip) (p : Nat) : Chip :=
  let d := c.enableSet p true
  (if c.rdBool .PORT_ENABLE p then d else d.mapReturn p).tdrAbort p

def Chip.readied_fx : Fx := .union [Chip.mapReturn_fx, Chip.tdrAbort_fx, .of [] [.PORT_ENABLE, .DOWNSHIFT_CEILING]]

/-- The preparation after `PORT_ENABLE` was written. -/
theorem Chip.readied_after (c : Chip) (p : Nat) :
    Within (.union [Chip.mapReturn_fx, Chip.tdrAbort_fx]) (c.enableSet p true) (c.readied p) :=
  Chip.tdrAbort_in ((Within.refl _ _).ite (Chip.mapReturn_in (.refl _ _) (by decide +kernel))) (by decide +kernel)

theorem Chip.readied_in (c : Chip) (p : Nat) : Within Chip.readied_fx c (c.readied p) :=
  ((c.enableSet_in p true).mono (by decide +kernel)).trans ((c.readied_after p).mono (by decide +kernel))

theorem Chip.applyPortEnable_true {c : Chip} {p : Nat} (hw : c.width p ≠ 0) (hl : (c.port p).link = .disabled) :
    c.applyPortEnable p true = (c.readied p).startEnabled p := by
  have hw' : (c.enableSet p true).width p ≠ 0 := by rwa [(c.enableSet_in p true).width_eq (by decide +kernel)]
  have hp : ((if c.rdBool .PORT_ENABLE p then c.enableSet p true else (c.enableSet p true).mapReturn p).port p).link = .disabled := by
    have hin : Within (.union [Chip.mapReturn_fx, .of [] [.PORT_ENABLE, .DOWNSHIFT_CEILING]]) c
        (if c.rdBool .PORT_ENABLE p then c.enableSet p true else (c.enableSet p true).mapReturn p) :=
      ((c.enableSet_in p true).mono (by decide +kernel)).ite
        (Chip.mapReturn_in ((c.enableSet_in p true).mono (by decide +kernel)) (by decide +kernel))
    rw [hin.port_eq (by decide +kernel), hl]
  unfold Chip.applyPortEnable
  exact (if_neg hw').trans ((if_pos rfl).trans (if_neg (not_not_intro hp)))

/-- A port without a forced mode starts by negotiating (R56, R84). -/
theorem Chip.negotiate_link (c : Chip) (p : Nat) : ((c.negotiate p).port p).link = .anAbility := by
  unfold Chip.negotiate
  simp [Chip.wr_eq]

theorem Chip.startEnabled_negotiates {c : Chip} {p : Nat} (ha : c.cfgApplied = true) (hc : c.calReady p = true)
    (ht : c.tileRuns (tileOf p) = true) (hf : c.forced p = none) : c.startEnabled p = c.negotiate p := by
  simp [Chip.startEnabled, ha, hc, ht, Chip.startLink, hf]

theorem Within.calReady_eq {x : Fx} {c d : Chip} (h : Within x c d) (hp : x.hasPart .cal = false)
    (hb : x.hasReg .BIST_STATE_PE = false) (hq : x.hasReg .QUAD_FORMATION = false) (p : Nat) : d.calReady p = c.calReady p := by
  have hs : d.cal = c.cal := h.part .cal hp
  simp only [Chip.calReady, Chip.calOf, hs, h.pesOf_eq hq, h.rd hb hq]

theorem Chip.readied_startEnabled {c : Chip} {p : Nat} (ha : c.cfgApplied = true) (hc : c.calReady p = true)
    (ht : c.tileRuns (tileOf p) = true) (hf : c.forced p = none) : (c.readied p).startEnabled p = (c.readied p).negotiate p := by
  have h := c.readied_in p
  have hboot : (c.readied p).boot = c.boot := h.part .boot (by decide +kernel)
  have hpwr : (c.readied p).pwr = c.pwr := h.part .pwr (by decide +kernel)
  refine Chip.startEnabled_negotiates ?_ ?_ ?_ ?_
  · rwa [Chip.cfgApplied, hboot]
  · rwa [h.calReady_eq (by decide +kernel) (by decide +kernel) (by decide +kernel)]
  · rwa [Chip.tileRuns, h.tile_eq (by decide +kernel), hpwr]
  · rwa [Chip.forced, h.rd (by decide +kernel) (by decide +kernel)]

theorem Chip.writePortEnable_off (c : Chip) (p : Nat) : c.writePortEnable p (0 : BitVec 8).toNat = (.ok, c.applyPortEnable p false) := by
  simp [Chip.writePortEnable]

theorem Chip.writePortEnable_on {c : Chip} {p : Nat} (hg : c.gatesOn p = true) :
    c.writePortEnable p (1 : BitVec 8).toNat = (.ok, c.applyPortEnable p true) := by
  simp [Chip.writePortEnable, hg]

/-- A port that is disabled by a write (R83, R85). -/
theorem Chip.applyPortEnable_disables {c : Chip} {p : Nat} (hw : c.width p ≠ 0) :
    let d := c.applyPortEnable p false
    d.rd .PORT_ENABLE p = 0 ∧ d.rd .DOWNSHIFT_CEILING p = 0xFF ∧ (d.port p).link = .disabled := by
  obtain ⟨he, hc⟩ := c.enableSet_rd p false
  have hin : Within Chip.leave_fx (c.enableSet p false) ((c.enableSet p false).leave p) := Chip.leave_in (.refl _ _) (by decide +kernel)
  rw [Chip.applyPortEnable_false hw]
  unfold Chip.setLink
  dsimp only
  rw [Chip.rd_setPort, Chip.rd_setPort, Chip.setPort_same, hin.rd (by decide +kernel) (by decide +kernel),
    hin.rd (by decide +kernel) (by decide +kernel)]
  exact ⟨he, hc, rfl⟩

/-- A port that is enabled by a write, and that nothing holds back, negotiates (R84). -/
theorem Chip.applyPortEnable_negotiates {c : Chip} {p : Nat} (hw : c.width p ≠ 0) (hl : (c.port p).link = .disabled)
    (ha : c.cfgApplied = true) (hc : c.calReady p = true) (ht : c.tileRuns (tileOf p) = true) (hf : c.forced p = none) :
    let d := c.applyPortEnable p true
    d.rd .PORT_ENABLE p = 1 ∧ (d.port p).link = .anAbility := by
  have hin : Within Chip.negotiate_fx (c.readied p) ((c.readied p).negotiate p) := Chip.negotiate_in (.refl _ _) (by decide +kernel)
  rw [Chip.applyPortEnable_true hw hl, Chip.readied_startEnabled ha hc ht hf]
  dsimp only
  rw [Chip.negotiate_link, hin.rd (by decide +kernel) (by decide +kernel),
    (c.readied_after p).rd (by decide +kernel) (by decide +kernel)]
  exact ⟨(c.enableSet_rd p true).1, rfl⟩

/-! The formation of a quad (R28, R30). -/

theorem Chip.writeFormation_ok {c : Chip} {q v : Nat} (hv : v ≤ 2) (he : ∀ p ∈ c.portsOfQuad q, c.rdBool .PORT_ENABLE p = false) :
    c.writeFormation q v = (.ok, c.applyFormation q v) := by
  have ha : ((c.portsOfQuad q).any fun p => c.rdBool .PORT_ENABLE p) = false := List.any_eq_false.2 fun p hp => by simp [he p hp]
  simp [Chip.writeFormation, Nat.not_lt.2 hv, ha]

/-- The loop that gives a quad fresh ports. -/
def Chip.freshPorts (c : Chip) (q : Nat) : Chip :=
  c.each (List.range 4) fun c k =>
    let p := 4 * q + k
    let c := c.setPort p fun _ => {}
    let c := (c.clr .HL_MAP p 0).clr .HL_ENTRIES p 0
    c.setPe p fun s => { s with dropped := false, ifLane := none }

theorem Chip.applyFormation_eq (c : Chip) (q v : Nat) :
    c.applyFormation q v = ((((c.each (List.range 4) fun c k => c.invalidate (4 * q + k)).wr .QUAD_FORMATION q v).freshPorts q).hostMapReset
      q).ancFormation q := rfl

theorem Chip.freshPorts_in (c : Chip) (q : Nat) : Within (.of [.ports, .pes] [.HL_MAP, .HL_ENTRIES]) c (c.freshPorts q) :=
  Within.each (fun _ _ h => (((h.setPort (by decide +kernel)).clr (by decide +kernel)).clr (by decide +kernel)).setPe
    (by decide +kernel)) (.refl _ _)

theorem Chip.freshPorts_turn (c : Chip) (p x : Nat) :
    ((((c.setPort p fun _ => {}).clr .HL_MAP p 0).clr .HL_ENTRIES p 0).setPe p fun s =>
      { s with dropped := false, ifLane := none }).port x = if x = p then {} else c.port x := by
  rw [Chip.port_setPe]
  change (c.setPort p fun _ => {}).port x = _
  split
  · next h => rw [h, Chip.setPort_same]
  · next h => exact Chip.setPort_other _ _ _ _ h

theorem Chip.freshPorts_fresh (c : Chip) (q k : Nat) (hk : k < 4) : (c.freshPorts q).port (4 * q + k) = {} := by
  refine Chip.each_establishes (P := fun d => d.port (4 * q + k) = ({} : PortSt)) (fun d b hd => ?_) (fun d => ?_)
    (List.mem_range.2 hk) c
  · dsimp only
    rw [Chip.freshPorts_turn, hd, ite_self]
  · dsimp only
    rw [Chip.freshPorts_turn, if_pos rfl]

/-- What every turn over a member of the list keeps holds after the loop. -/
theorem Chip.each_keeps_mem {α : Type} {P : Chip → Prop} {f : Chip → α → Chip} {l : List α}
    (hf : ∀ c, ∀ a ∈ l, P c → P (f c a)) {c : Chip} (hc : P c) : P (c.each l f) := by
  unfold Chip.each
  induction l generalizing c with
  | nil => exact hc
  | cons a l ih => exact ih (fun c b hb => hf c b (List.mem_cons_of_mem _ hb)) (hf c a List.mem_cons_self hc)

theorem Chip.freshPorts_other (c : Chip) (q p : Nat) (hp : quadOf p ≠ q) : (c.freshPorts q).port p = c.port p := by
  refine Chip.each_keeps_mem (P := fun d => d.port p = c.port p) (fun d k hk hd => ?_) rfl
  have hne : p ≠ 4 * q + k := fun h => hp (by have := List.mem_range.1 hk; unfold quadOf; omega)
  dsimp only
  rw [Chip.freshPorts_turn, if_neg hne, hd]

section
variable (c : Chip) (q v : Nat)

theorem Chip.formed_in : Within (.union [Chip.hostMapReset_fx, Chip.ancFormation_fx])
    (((c.each (List.range 4) fun c k => c.invalidate (4 * q + k)).wr .QUAD_FORMATION q v).freshPorts q) (c.applyFormation q v) := by
  rw [Chip.applyFormation_eq]
  exact Chip.ancFormation_in (Chip.hostMapReset_in (.refl _ _) (by decide +kernel)) (by decide +kernel)

theorem Chip.applyFormation_formation (hv : v < 256) : (c.applyFormation q v).rd .QUAD_FORMATION q = v := by
  rw [(c.formed_in q v).rd (by decide +kernel) (by decide +kernel), (Chip.freshPorts_in _ q).rd (by decide +kernel) (by decide +kernel),
    Chip.wr_eq, Chip.rd_wrRow_same]
  exact Nat.mod_eq_of_lt hv

theorem Chip.applyFormation_fresh (k : Nat) (hk : k < 4) : (c.applyFormation q v).port (4 * q + k) = {} := by
  rw [(c.formed_in q v).port_eq (by decide +kernel), Chip.freshPorts_fresh _ q k hk]

theorem Chip.applyFormation_other (p : Nat) (hp : quadOf p ≠ q) : (c.applyFormation q v).port p = c.port p := by
  rw [(c.formed_in q v).port_eq (by decide +kernel), Chip.freshPorts_other _ q p hp, Chip.wr_eq, Chip.port_wrRow]
  exact (Within.each (fun _ _ h => Chip.invalidate_in h (by decide +kernel)) (.refl Chip.invalidate_fx c)).port_eq
    (by decide +kernel) p

end

end Sys2Proof.Machine
end

section
set_option Elab.async false
open Sys2Proof Sys2Proof.Machine

/-- Settles O17: each write is taken through its checks to the operation that acts on the link. -/
theorem linkWritesAreCarriedOut : Obligations.LinkWritesAreCarriedOut := by
  unfold Obligations.LinkWritesAreCarriedOut
  refine ⟨?_, ?_, ?_, ?_, ?_, ?_, ?_, ?_, ?_, ?_⟩
  · exact fun p s ha hd hh hu => trainRestart_answers (.inl rfl) rfl ha hd hh hu
  · exact fun p s ha hd hh hu => trainRestart_answers (.inr rfl) rfl ha hd hh hu
  · intro p m s ha hu hm hw hr hf hl hn hs
    refine Answers.of_accepted (execTrainRestartFast.eq_1 p s) ha (s.chip.writeTrainRestart_fast p hu hm hw hr hf hl) fun d hacc hport hrd => ?_
    obtain ⟨h0, hfa, hc, hfc, hdc⟩ := s.chip.fastStart_sealed p m hu hn hs
    unfold Counts at *
    rw [hport, hrd _ rfl, hrd _ rfl, hrd _ rfl]
    exact ⟨hacc, h0, hfa, hc, hfc, hdc⟩
  · intro p v s ha hv hu hh hw
    refine Answers.of_accepted (execPortModeWrite.eq_1 p v s) ha (Chip.writePortMode_ok ?_) fun d hacc hport hrd => ?_
    · exact hv.imp (fun h => by rw [h]; rfl) id
    · obtain ⟨hm, hc⟩ := s.chip.applyPortMode_rd p v.toNat v.isLt
      rw [hport, hrd _ rfl, hrd _ rfl]
      exact ⟨hacc, hm, hc, s.chip.applyPortMode_link p v.toNat hu hh hw⟩
  · intro p v s ha hv hm
    refine Answers.of_abort (a := .range) (m := s.chip) (execPortModeWrite.eq_1 p v s) ?_ (by decide) (by decide) fun d hd =>
      hd.turnedAway
    have hz : v.toNat ≠ 0 := fun h => hv (BitVec.eq_of_toNat_eq h)
    simp [Chip.gated, ha, Chip.writePortMode, hz, hm]
  · intro p v s ha hu hh hw
    refine Answers.of_accepted (execPortAbilityWrite.eq_1 p v s) ha rfl fun d hacc hport hrd => ?_
    obtain ⟨hm, hc⟩ := s.chip.applyPortAbility_rd p v.toNat
    rw [hport, hrd _ rfl, hrd _ rfl]
    exact ⟨hacc, hm, hc, s.chip.applyPortAbility_link p v.toNat hu hh hw⟩
  · intro p s ha hw
    refine Answers.of_accepted (execPortEnableWrite.eq_1 p 0 s) ha (s.chip.writePortEnable_off p) fun d hacc hport hrd => ?_
    obtain ⟨he, hc, hl⟩ := Chip.applyPortEnable_disables hw
    rw [hport, hrd _ rfl, hrd _ rfl]
    exact ⟨hacc, he, hc, hl⟩
  · intro p s ha hw hg hl hca hcr ht hf
    refine Answers.of_accepted (execPortEnableWrite.eq_1 p 1 s) ha (Chip.writePortEnable_on hg) fun d hacc hport hrd => ?_
    obtain ⟨he, hn⟩ := Chip.applyPortEnable_negotiates hw hl hca hcr ht hf
    rw [hport, hrd _ rfl]
    exact ⟨hacc, he, hn⟩
  · intro p v s ha hv
    refine Answers.of_abort (a := .range) (m := s.chip) (execPortEnableWrite.eq_1 p v s) ?_ (by decide) (by decide) fun d hd =>
      hd.turnedAway
    simp [Chip.gated, ha, Chip.writePortEnable, hv]
  · intro q v s ha hv he
    refine Answers.of_accepted (execQuadFormationWrite.eq_1 q v s) ha (Chip.writeFormation_ok hv he) fun d hacc hport hrd => ?_
    have hform : d.formation q = v.toNat := by
      rw [Chip.formation_eq_rd, hrd _ rfl]
      exact s.chip.applyFormation_formation q v.toNat v.isLt
    refine ⟨hacc, hform, fun k => ?_, fun k => ?_, fun p hp => ?_⟩
    · rw [hport]
      exact s.chip.applyFormation_fresh q v.toNat k k.isLt
    · rw [Chip.width, show quadOf (4 * q.val + k.val) = q.val by unfold quadOf; omega, hform]
    · rw [hport]
      exact s.chip.applyFormation_other q v.toNat p hp

end

section
/-!
PROOFS. More rules of the state: one bit that was set, a level or a pair that an operation does not touch, the cells that are kept, and
a port that leaves a state other than `LINK_UP`.
-/
set_option Elab.async false
namespace Sys2Proof.Machine

theorem Chip.rdBit_setBit_same (c : Chip) (r : Reg) (i b : Nat) (x : Bool) (hb : b < r.width) : (c.setBit r i b x).rdBit r b i = x := by
  simp [Chip.rdBit, Chip.setBit_eq, Chip.rd_wrRow_same, Nat.testBit_mod_two_pow, hb, testBit_withBit]

theorem Within.rdBit {x : Fx} {c d : Chip} (h : Within x c d) {r : Reg} (hr : x.hasReg r = false) (hq : x.hasReg .QUAD_FORMATION = false)
    (b i : Nat) : d.rdBit r b i = c.rdBit r b i := congrArg (Nat.testBit · b) (h.rd hr hq i 0)

theorem Within.rdBool {x : Fx} {c d : Chip} (h : Within x c d) {r : Reg} (hr : x.hasReg r = false) (hq : x.hasReg .QUAD_FORMATION = false)
    (i : Nat) : d.rdBool r i = c.rdBool r i := congrArg (· != 0) (h.rd hr hq i 0)

theorem EvFrame.rdBit {c d : Chip} (h : EvFrame c d) (r : Reg) (hr : r.ofEvents = false) (b i : Nat) : d.rdBit r b i = c.rdBit r b i :=
  congrArg (Nat.testBit · b) (h.rd r hr i 0)

theorem Within.levelInForce_eq {x : Fx} {c d : Chip} (h : Within x c d) (hp : x.hasPart .pwr = false) (t : Nat) (m : LineMode) :
    d.levelInForce t m = c.levelInForce t m := by
  rw [Chip.levelInForce, Chip.levelInForce, h.tile_eq hp]

theorem Within.usablePes_eq {x : Fx} {c d : Chip} (h : Within x c d) (hb : x.hasReg .BIST_STATE_PE = false)
    (hq : x.hasReg .QUAD_FORMATION = false) (p : Nat) : d.usablePes p = c.usablePes p := by
  simp only [Chip.usablePes, h.pesOf_eq hq, h.rd hb hq]

/-! Cells that are kept. -/

theorem Chip.Keeps.wrRow {b c : Chip} {P : Key → Prop} (h : b.Keeps c P) {r : Reg} {i row v : Nat} (hP : P ⟨r, i, row⟩) :
    b.Keeps (c.wrRow r i row v) P := fun k hk hn =>
  (Chip.raw_wrRow_other c r k.reg i k.inst row k.row v fun he => hn (by rwa [← he] at hP)).trans (h k hk hn)

theorem EvFrame.keeps {b c d : Chip} {P : Key → Prop} (h : EvFrame c d) (hk : b.Keeps c P) : b.Keeps d P := fun k he hn =>
  (h.cells k he id).trans (hk k he hn)

theorem Chip.OnlyPort.wrRow {b c : Chip} {p : Nat} (h : b.OnlyPort c p) (r : Reg) (i row v : Nat) : b.OnlyPort (c.wrRow r i row v) p := by
  obtain ⟨hb, hp⟩ := h
  exact ⟨by rw [Chip.bare_wrRow, hb, Chip.wrRow_ports], fun q hq => (Chip.port_wrRow ..).trans (hp q hq)⟩

theorem Chip.OnlyPort.setPort {b c : Chip} {p : Nat} (h : b.OnlyPort c p) (f : PortSt → PortSt) : b.OnlyPort (c.setPort p f) p := by
  obtain ⟨hb, hp⟩ := h
  refine ⟨?_, fun q hq => (Chip.setPort_other _ _ _ _ hq).trans (hp q hq)⟩
  change ({ c.bare with ports := (c.setPort p f).ports } : Chip) = _
  rw [hb]

theorem Chip.OnlyPort.refl (c : Chip) (p : Nat) : c.OnlyPort c p := ⟨rfl, fun _ _ => rfl⟩

/-! Leaving a state other than `LINK_UP` ends a wait for the tile's level and what `TRAIN_T3` has begun. -/

/-- The controller of a port that leaves its state. -/
def PortSt.left (s : PortSt) : PortSt := { s with waitLevel := false, waitFast := false, pam16 := false, rxAt := none }

theorem Chip.leave_notUp {c : Chip} {p : Nat} (h : (c.port p).link ≠ .up) : c.leave p = c.setPort p PortSt.left := by
  have hu : ¬ c.up p = true := by simpa [Chip.up] using h
  unfold Chip.leave
  exact congrArg (Chip.setPort · p PortSt.left) (if_neg hu)

end Sys2Proof.Machine
end

section
/-!
PROOFS. A training or a fast retrain that fails is counted and breaks the link (R73, R75, R78, R82, R86).
-/
set_option Elab.async false
namespace Sys2Proof.Machine

theorem Chip.failCause_rd (c : Chip) (p code : Nat) (r : Reg) (i row : Nat) :
    (c.failCause p code).rd r i row = (c.setCause p code).rd r i row := by
  unfold Chip.failCause
  dsimp only
  split <;> rfl

/-- The port has gone to `LINK_BREAK` with a cause, and the failure is counted by one counter (R86). -/
def Chip.BrokeCounted (c d : Chip) (p cause : Nat) (counter : Reg) : Prop :=
  (d.port p).link = .brk ∧ d.rd .LINK_DOWN_CAUSE p = cause ∧ Counts c d counter p 1

/-- A failed fast retrain is not followed by another and does not count as a failed training (R78). -/
def Chip.FastFailed (c d : Chip) (p cause : Nat) : Prop :=
  (d.port p).link = .brk ∧ (d.port p).noFast = true ∧ d.rd .LINK_DOWN_CAUSE p = cause ∧ Counts c d .FAST_FAIL_COUNT p 1 ∧
    Stays c d .TRAIN_FAIL_COUNT p

/-- A failed full training that does not lower the ceiling (R82). -/
def Chip.FullFailed (c d : Chip) (p cause : Nat) : Prop :=
  (d.port p).link = .brk ∧ d.rd .LINK_DOWN_CAUSE p = cause ∧ Counts c d .TRAIN_FAIL_COUNT p 1 ∧ Stays c d .DOWNSHIFT_CEILING p

section
variable (c : Chip) (p cause : Nat)

/-- An object that neither `LINK_BREAK` nor the record of the cause touches, in a break that is counted by one counter. -/
theorem Chip.countedBreak_rd (counter : Reg) (noFast : Bool) {r : Reg} (hr : Chip.toBreak_fx.hasReg r = false) (i : Nat) :
    (((c.failCause p cause).inc counter p).toBreak p noFast).rd r i = ((c.failCause p cause).inc counter p).rd r i :=
  (Chip.toBreak_in (.refl Chip.toBreak_fx _) (by decide +kernel)).rd hr (by decide +kernel) i 0

theorem Chip.countedBreak (noFast : Bool) {counter : Reg} (hc : counter = .FAST_FAIL_COUNT ∨ counter = .TRAIN_FAIL_COUNT)
    (hlt : cause < 256) : c.BrokeCounted (((c.failCause p cause).inc counter p).toBreak p noFast) p cause counter := by
  refine ⟨by rw [Chip.toBreak_port], ?_, ?_⟩
  · rw [Chip.countedBreak_rd _ _ _ _ _ (by decide +kernel), Chip.inc_eq, Chip.rd_wrRow_reg, Chip.failCause_rd, Chip.setCause,
      Chip.wr_eq, Chip.rd_wrRow_same]
    · exact Nat.mod_eq_of_lt hlt
    all_goals rcases hc with rfl | rfl <;> decide
  · have hfx : Chip.toBreak_fx.hasReg counter = false := by rcases hc with rfl | rfl <;> decide +kernel
    have hne : counter ≠ .LINK_DOWN_CAUSE := by rcases hc with rfl | rfl <;> decide
    rw [Counts, Chip.countedBreak_rd _ _ _ _ _ hfx, Chip.inc_eq, Chip.rd_wrRow_same, Chip.failCause_rd, Chip.setCause, Chip.wr_eq,
      Chip.rd_wrRow_reg _ _ _ _ _ _ _ _ hne (by decide)]

/-- An object that is neither the cause nor the counter stays through a counted break. -/
theorem Chip.countedBreak_stays (noFast : Bool) {counter r : Reg} (hfx : Chip.toBreak_fx.hasReg r = false) (hr : r ≠ counter)
    (hl : r ≠ .LINK_DOWN_CAUSE) (hq : counter ≠ .QUAD_FORMATION) :
    Stays c (((c.failCause p cause).inc counter p).toBreak p noFast) r p := by
  rw [Stays, Chip.countedBreak_rd _ _ _ _ _ hfx, Chip.inc_eq, Chip.rd_wrRow_reg _ _ _ _ _ _ _ _ hr hq, Chip.failCause_rd,
    Chip.setCause, Chip.wr_eq, Chip.rd_wrRow_reg _ _ _ _ _ _ _ _ hl (by decide)]

theorem Chip.fastFail_failed (hc : cause < 256) : c.FastFailed (c.fastFail p cause) p cause := by
  obtain ⟨hl, hd, hn⟩ := c.countedBreak p cause true (.inl rfl) hc
  exact ⟨hl, by rw [Chip.fastFail, Chip.toBreak_port], hd, hn,
    c.countedBreak_stays p cause true (by decide +kernel) (by decide) (by decide) (by decide)⟩

/-- With downshift disabled a failed full training leads to `LINK_BREAK`, whatever the mode. -/
theorem Chip.fullFail_breaks (h : c.rdBool .DOWNSHIFT_ENABLE p = false) :
    ∃ noFast, c.fullFail p cause = ((c.failCause p cause).inc .TRAIN_FAIL_COUNT p).toBreak p noFast := by
  have hd : ((c.failCause p cause).inc .TRAIN_FAIL_COUNT p).rdBool .DOWNSHIFT_ENABLE p = false := by
    have hin : Within (.union [Chip.failCause_fx, .of [] [.TRAIN_FAIL_COUNT]]) c ((c.failCause p cause).inc .TRAIN_FAIL_COUNT p) :=
      (Chip.failCause_in (.refl _ _) (by decide +kernel)).inc (by decide +kernel)
    rw [hin.rdBool (by decide +kernel) (by decide +kernel), h]
  unfold Chip.fullFail
  dsimp only
  split
  · exact ⟨_, rfl⟩
  · exact ⟨_, by rw [hd, Bool.not_false, Bool.true_or, if_pos rfl]⟩

theorem Chip.fullFail_failed (h : c.rdBool .DOWNSHIFT_ENABLE p = false) (hc : cause < 256) :
    c.FullFailed (c.fullFail p cause) p cause := by
  obtain ⟨noFast, he⟩ := c.fullFail_breaks p cause h
  rw [he]
  obtain ⟨hl, hd, hn⟩ := c.countedBreak p cause noFast (.inr rfl) hc
  exact ⟨hl, hd, hn, c.countedBreak_stays p cause noFast (by decide +kernel) (by decide) (by decide) (by decide)⟩

variable {c p}

theorem Chip.trainFail_fast (h : (c.port p).fast = true) : c.trainFail p cause = c.fastFail p 0x0F := if_pos h

theorem Chip.trainFail_full (h : (c.port p).fast = false) : c.trainFail p cause = c.fullFail p cause := if_neg (by simp [h])

end

section
variable {i : Instr} {s : State} {f : Chip → Chip} {p : Nat} {P : Chip → Prop} (b : Chip) (he : exec i s = s.run f)
  (hb : Within (.of [] [.PE_TRAIN_STATUS]) s.chip b)
include he hb

/-- A command that ends in a failed fast retrain, after it has at most marked pairs. -/
theorem fastFail_answers (hf : f s.chip = b.fastFail p 0x0F) (h : ∀ d, s.chip.FastFailed d p 0x0F → P d) : Answers i s P := by
  obtain ⟨hl, hx, hc, hn, ht⟩ := b.fastFail_failed p 0x0F (by decide)
  unfold Counts at hn
  unfold Stays at ht
  rw [hb.rd (by decide +kernel) (by decide +kernel)] at hn ht
  refine Answers.of_run he fun d hd => h d ?_
  rw [hf] at hd
  unfold Chip.FastFailed Counts Stays
  rw [hd.port_eq, hd.rd _ rfl, hd.rd _ rfl, hd.rd _ rfl]
  exact ⟨hl, hx, hc, hn, ht⟩

/-- A command that ends in a failed full training with downshift disabled, after it has at most marked pairs. -/
theorem fullFail_answers {cause : Nat} (hf : f s.chip = b.fullFail p cause) (hd : s.chip.rdBool .DOWNSHIFT_ENABLE p = false)
    (hlt : cause < 256) (h : ∀ d, s.chip.FullFailed d p cause → P d) : Answers i s P := by
  obtain ⟨hl, hc, hn, ht⟩ := b.fullFail_failed p cause (by rwa [hb.rdBool (by decide +kernel) (by decide +kernel)]) hlt
  unfold Counts at hn
  unfold Stays at ht
  rw [hb.rd (by decide +kernel) (by decide +kernel)] at hn ht
  refine Answers.of_run he fun d hd => h d ?_
  rw [hf] at hd
  unfold Chip.FullFailed Counts Stays
  rw [hd.port_eq, hd.rd _ rfl, hd.rd _ rfl, hd.rd _ rfl]
  exact ⟨hl, hc, hn, ht⟩

end

/-- What a timeout of `TRAIN_T3` marks before the training fails. -/
def Chip.t3Marked (c : Chip) (p : Nat) (failed : BitVec 4) : Chip :=
  c.each ((c.port p).lanes.filter fun e => failed.toNat.testBit (laneIndex p e) || !c.t3Pass p e) fun c e =>
    c.setBit .PE_TRAIN_STATUS e 4 true

theorem Chip.t3Marked_in (c : Chip) (p : Nat) (failed : BitVec 4) : Within (.of [] [.PE_TRAIN_STATUS]) c (c.t3Marked p failed) :=
  Within.each (fun _ _ h => h.setBit (by decide +kernel)) (.refl _ _)

theorem execT3Timeout_eq (p : PortNo) (failed : BitVec 4) (s : State) :
    execT3Timeout p failed s = s.run fun c => if (c.port p).link ≠ .trainT3 then c else (c.t3Marked p failed).trainFail p 0x0C := rfl

/-- PARTNER_LOST in `TRAIN_T1` to `TRAIN_T3`. -/
theorem execPartnerLost_fails (p : PortNo) (s : State)
    (h : (s.chip.port p).link = .trainT1 ∨ (s.chip.port p).link = .trainT2 ∨ (s.chip.port p).link = .trainT3) :
    ∃ f, execPartnerLost p s = s.run f ∧ f s.chip = s.chip.trainFail p 0x0D := by
  refine ⟨_, rfl, ?_⟩
  rcases h with h | h | h <;> simp only [h]

end Sys2Proof.Machine
end

section
set_option Elab.async false
open Sys2Proof Sys2Proof.Machine

/-- Settles O15: each command ends in a failed fast retrain or in a failed full training; the cause of a failed clause training is the
model's choice of log entry 19. -/
theorem failedTrainingIsCounted : Obligations.FailedTrainingIsCounted := by
  unfold Obligations.FailedTrainingIsCounted
  refine ⟨?_, ?_, ?_, ?_, ?_, ?_, ?_, ?_⟩
  · intro p s hl hg hf
    exact fastFail_answers s.chip (execT2Timeout.eq_1 p s) (.refl _ _) (by simp [hl, hg, Chip.trainFail_fast _ hf]) fun _ h => h
  · intro p s hl hg hf hd
    exact fullFail_answers s.chip (execT2Timeout.eq_1 p s) (.refl _ _) (by simp [hl, hg, Chip.trainFail_full _ hf]) hd (by decide)
      fun _ h => h
  · intro p failed s hl hf
    have hin := s.chip.t3Marked_in p failed
    refine fastFail_answers _ (execT3Timeout_eq p failed s) hin ?_ fun _ h => h
    rw [if_neg (not_not_intro hl), Chip.trainFail_fast _ (by rwa [hin.port_eq (by decide +kernel)])]
  · intro p failed s hl hf hd
    have hin := s.chip.t3Marked_in p failed
    refine fullFail_answers _ (execT3Timeout_eq p failed s) hin ?_ hd (by decide) fun _ h => h
    rw [if_neg (not_not_intro hl), Chip.trainFail_full _ (by rwa [hin.port_eq (by decide +kernel)])]
  · intro p s hl hf
    obtain ⟨f, he, ht⟩ := execPartnerLost_fails p s hl
    exact fastFail_answers s.chip he (.refl _ _) (ht.trans (Chip.trainFail_fast _ hf)) fun _ h => h
  · intro p s hl hf hd
    obtain ⟨f, he, ht⟩ := execPartnerLost_fails p s hl
    exact fullFail_answers s.chip he (.refl _ _) (ht.trans (Chip.trainFail_full _ hf)) hd (by decide) fun _ h => h
  · intro p s hl hf
    exact fastFail_answers (p := p) s.chip (execFastRetrainNoReply.eq_1 p s) (.refl _ _) (by simp [hl, hf])
      fun _ ⟨hb, hx, hc, hn, _⟩ => ⟨hb, hx, hc, hn⟩
  · intro p s hl hd
    exact fullFail_answers (p := p) (cause := 0x07) s.chip (execStdTrainComplete.eq_1 p false s) (.refl _ _) (by simp [hl]) hd
      (by decide) fun _ ⟨hb, hc, hn, _⟩ => ⟨hb, hc, hn⟩

end

section
/-!
PROOFS. A link that has ended negotiates anew, or joins a fast retrain (R56, R78, R81 to R84).
-/
set_option Elab.async false
namespace Sys2Proof.Machine

/-- Protocol with which negotiation starts, and what `AN_STATUS` shows of it (R56). -/
def startProto (width : Nat) : AnProto := if width = 4 then .flp else .dme
@[inherit_doc startProto]
def startStatus (width : Nat) : Nat := if width = 4 then 0 else 4

/-- The controller of a port of a width as negotiation starts. -/
def PortSt.atAbility (width : Nat) (s : PortSt) : PortSt := { s with link := .anAbility, proto := startProto width }

theorem Chip.negotiate_eq {c : Chip} {p : Nat} (h : (c.port p).link ≠ .up) :
    c.negotiate p =
      ((((c.setPort p PortSt.left).setPort p (.atAbility (c.width p))).wrRow .AN_STATUS p 0 (startStatus (c.width p))).wrRow
        .AN_PARTNER_ABILITY p 0 0).wrRow .AN_PARTNER_WA p 0 0 := by
  unfold Chip.negotiate
  rw [Chip.leave_notUp h]
  rfl

/-- The port negotiates from the start, and nothing is known of the partner (R56). -/
structure Chip.Negotiates (c d : Chip) (p : Nat) : Prop where
  link : (d.port p).link = .anAbility
  proto : (d.port p).proto = startProto (c.width p)
  ability : d.rd .AN_PARTNER_ABILITY p = 0
  wa : d.rd .AN_PARTNER_WA p = 0
  status : d.rd .AN_STATUS p = startStatus (c.width p)

/-- Cells that the start of negotiation writes. -/
def anCells (p : Nat) (k : Key) : Prop := k.inst = p ∧ (k.reg = .AN_STATUS ∨ k.reg = .AN_PARTNER_ABILITY ∨ k.reg = .AN_PARTNER_WA)

section
variable {c : Chip} {p : Nat} (h : (c.port p).link ≠ .up)
include h

theorem Chip.negotiate_negotiates : c.Negotiates (c.negotiate p) p := by
  have hs : startStatus (c.width p) % 2 ^ Reg.width .AN_STATUS = startStatus (c.width p) := by
    unfold startStatus
    split <;> rfl
  rw [Chip.negotiate_eq h]
  constructor
  · simp [PortSt.atAbility]
  · simp [PortSt.atAbility]
  · rw [Chip.rd_wrRow_reg _ _ _ _ _ _ _ _ (by decide) (by decide), Chip.rd_wrRow_same]; rfl
  · rw [Chip.rd_wrRow_same]; rfl
  · rw [Chip.rd_wrRow_reg _ _ _ _ _ _ _ _ (by decide) (by decide), Chip.rd_wrRow_reg _ _ _ _ _ _ _ _ (by decide) (by decide),
      Chip.rd_wrRow_same, hs]

theorem Chip.negotiate_onlyPort {b : Chip} (ho : b.OnlyPort c p) : b.OnlyPort (c.negotiate p) p := by
  rw [Chip.negotiate_eq h]
  exact ((((ho.setPort _).setPort _).wrRow ..).wrRow ..).wrRow ..

theorem Chip.negotiate_keeps : c.Keeps (c.negotiate p) (anCells p) := by
  rw [Chip.negotiate_eq h]
  refine Chip.Keeps.wrRow (Chip.Keeps.wrRow (Chip.Keeps.wrRow ?_ ⟨rfl, .inl rfl⟩) ⟨rfl, .inr (.inl rfl)⟩) ⟨rfl, .inr (.inr rfl)⟩
  exact fun _ _ _ => rfl

end

theorem EvFrame.negotiates {b c d : Chip} {p : Nat} (h : EvFrame c d) (hn : b.Negotiates c p) : b.Negotiates d p where
  link := by rw [h.port_eq, hn.link]
  proto := by rw [h.port_eq, hn.proto]
  ability := by rw [h.rd _ rfl, hn.ability]
  wa := by rw [h.rd _ rfl, hn.wa]
  status := by rw [h.rd _ rfl, hn.status]

/-- A port that is not to retrain fast, and that no mode is forced on, negotiates when it starts again (R81, R84). -/
theorem Chip.resumeLink_negotiates {c : Chip} {p : Nat} (hn : (c.port p).noFast = true) (hf : c.forced p = none) :
    c.resumeLink p = c.negotiate p := by
  have hs : c.startLink p = c.negotiate p := by simp only [Chip.startLink, hf]
  unfold Chip.resumeLink
  split
  · rw [hn, if_neg (by simp), hs]
  · exact hs

/-! The fast retrain that a wake pattern starts (R78). -/

/-- The link controller at the start of a training: its lanes are those given, its mode stays. -/
theorem Chip.trainStart_lanes (c : Chip) (p : Nat) (fast : Bool) (lanes : List Nat) :
    ((c.trainStart p fast lanes).port p).lanes = lanes ∧ ((c.trainStart p fast lanes).port p).mode = (c.port p).mode := by
  unfold Chip.trainStart
  dsimp only
  rw [Within.port_eq (x := .union [Chip.ancVictimReset_fx, .of [.pes] [.PE_LANE_STATUS, .PE_TRAIN_PHASE, .PE_TRAIN_STATUS]])
    (Within.each (fun d e h => ?_) (.refl _ _)) (by decide +kernel), Chip.setPort_same]
  · exact ⟨rfl, rfl⟩
  · refine Within.ite ?_ (Chip.ancVictimReset_in ?_ (by decide +kernel))
    all_goals exact (((h.setPe (by decide +kernel)).wr (by decide +kernel)).wr (by decide +kernel)).setBit (by decide +kernel)

theorem Within.laneSet_eq {x : Fx} {c d : Chip} (h : Within x c d) (hp : x.hasPart .ports = false)
    (hb : x.hasReg .BIST_STATE_PE = false) (hq : x.hasReg .QUAD_FORMATION = false) (p : Nat) : d.laneSet p = c.laneSet p := by
  rw [Chip.laneSet, Chip.laneSet, h.port_eq hp, h.usablePes_eq hb hq]

/-- A fast retrain whose retention checks pass is counted and starts a training with the port's lane set (R78, R113). -/
theorem Chip.fastStart_eq (c : Chip) (p : Nat) (hr : ∀ e ∈ c.laneSet p, (c.pe e).retentionOk = true) :
    ∃ d, Within (.of [] [.FAST_COUNT, .PE_STORE_STATUS]) c d ∧ Counts c d .FAST_COUNT p 1 ∧
      c.fastStart p = (((d.leave p).trainStart p true (c.laneSet p)).wr .TRAIN_SOURCE p 1).wr .TRAIN_CLASS p 0 := by
  have hi : Within (.of [] [.FAST_COUNT]) c (c.inc .FAST_COUNT p) := (Within.refl _ _).inc (by decide +kernel)
  have hset : (c.inc .FAST_COUNT p).laneSet p = c.laneSet p :=
    hi.laneSet_eq (by decide +kernel) (by decide +kernel) (by decide +kernel) p
  obtain ⟨d, hd, hw⟩ := (c.inc .FAST_COUNT p).retentionChecks_pass (c.laneSet p) fun e he => by
    rw [hi.pe_eq (by decide +kernel)]
    exact hr e he
  refine ⟨d, (hi.mono (by decide +kernel)).trans (hw.mono (by decide +kernel)), ?_, ?_⟩
  · rw [Counts, hw.rd (by decide +kernel) (by decide +kernel), Chip.inc_eq, Chip.rd_wrRow_same]
  · unfold Chip.fastStart
    dsimp only
    rw [hset, hd, if_pos rfl]

/-- The port has begun a fast retrain with these lanes, which is counted as such (R78). -/
def Chip.Retrains (c d : Chip) (p : Nat) (lanes : List Nat) : Prop :=
  (d.port p).link = .trainT0 ∧ (d.port p).fast = true ∧ (d.port p).lanes = lanes ∧ d.rd .TRAIN_SOURCE p = 1 ∧ d.rd .TRAIN_CLASS p = 0 ∧
    Counts c d .FAST_COUNT p 1 ∧ Stays c d .TRAIN_COUNT p

theorem EvFrame.retrains {b c d : Chip} {p : Nat} {lanes : List Nat} (h : EvFrame c d) (hr : b.Retrains c p lanes) :
    b.Retrains d p lanes := by
  unfold Chip.Retrains Counts Stays at *
  rwa [h.port_eq, h.rd _ rfl, h.rd _ rfl, h.rd _ rfl, h.rd _ rfl]

theorem Chip.fastStart_retrains (c : Chip) (p : Nat) (hr : ∀ e ∈ c.laneSet p, (c.pe e).retentionOk = true) :
    c.Retrains (c.fastStart p) p (c.laneSet p) := by
  obtain ⟨d, hd, hc, he⟩ := c.fastStart_eq p hr
  obtain ⟨hl, hf⟩ := (d.leave p).trainStart_port p true (c.laneSet p)
  obtain ⟨hs, -⟩ := (d.leave p).trainStart_lanes p true (c.laneSet p)
  have hin : Within (.union [Chip.leave_fx, Chip.trainStart_fx]) d ((d.leave p).trainStart p true (c.laneSet p)) :=
    Chip.trainStart_in (Chip.leave_in (.refl _ _) (by decide +kernel)) (by decide +kernel)
  have hrd : ∀ r ∈ [Reg.FAST_COUNT, .TRAIN_COUNT], ∀ i, (c.fastStart p).rd r i = d.rd r i := fun r hr i => by
    rw [he, Chip.wr_eq, Chip.wr_eq, Chip.rd_wrRow_reg _ _ _ _ _ _ _ _ (by revert r; decide) (by decide),
      Chip.rd_wrRow_reg _ _ _ _ _ _ _ _ (by revert r; decide) (by decide), hin.rd (by revert r; decide +kernel) (by decide +kernel)]
  have hport : (c.fastStart p).port p = ((d.leave p).trainStart p true (c.laneSet p)).port p := by
    rw [he, Chip.wr_eq, Chip.wr_eq, Chip.port_wrRow, Chip.port_wrRow]
  refine ⟨by rw [hport, hl], by rw [hport, hf], by rw [hport, hs], ?_, ?_, ?_, ?_⟩
  · rw [he, Chip.wr_eq, Chip.wr_eq, Chip.rd_wrRow_reg _ _ _ _ _ _ _ _ (by decide) (by decide), Chip.rd_wrRow_same]; rfl
  · rw [he, Chip.wr_eq, Chip.rd_wrRow_same]; rfl
  · rw [Counts, hrd _ (by decide), hc]
  · rw [Stays, hrd _ (by decide), hd.rd (by decide +kernel) (by decide +kernel)]

/-- The controller takes the mode. -/
def Chip.setMode (c : Chip) (p : Nat) (m : LineMode) : Chip := c.setPort p fun s => { s with mode := some m }

theorem Chip.setMode_port (c : Chip) (p : Nat) (m : LineMode) : (c.setMode p m).port p = { c.port p with mode := some m } :=
  Chip.setPort_same ..

/-- A training whose mode the tile's level runs begins at once (R27). -/
theorem Chip.begin_inForce {c : Chip} {p : Nat} {m : LineMode} (h : c.levelInForce (tileOf p) m = true) (fast : Bool) :
    c.begin_ p m fast = (c.setMode p m).trainNow p m fast := if_pos h

theorem Chip.begin_fastStart {c : Chip} {p : Nat} {m : LineMode} (hw : m.isW = true) (h : c.levelInForce (tileOf p) m = true) :
    c.begin_ p m true = (c.setMode p m).fastStart p := by
  rw [Chip.begin_inForce h, Chip.trainNow, hw]
  rfl

theorem Chip.setMode_laneSet (c : Chip) (p : Nat) (m : LineMode) : (c.setMode p m).laneSet p = c.laneSet p := by
  rw [Chip.laneSet, Chip.laneSet, Chip.setMode_port]
  rfl

end Sys2Proof.Machine
end

section
set_option Elab.async false
open Sys2Proof Sys2Proof.Machine

/-- Settles O16: the break is that of R80, and the starts are the negotiation and the fast retrain; that a wake pattern starts one
whatever `FAST_RETRAIN_ENABLE` holds is the model's choice of log entry 84. -/
theorem linkEndsAndStartsAgain : Obligations.LinkEndsAndStartsAgain := by
  unfold Obligations.LinkEndsAndStartsAgain
  refine ⟨?_, ?_, ?_, ?_, ?_⟩
  · intro p m s hu hm hw
    refine Answers.of_run (execStdLinkFail.eq_1 p s) fun d hd => ?_
    simp only [hu, hm, hw, Bool.false_eq_true, if_false] at hd
    obtain ⟨hb, hc, hk, hn⟩ := hd.wentDown (s.chip.linkDown_wentDown p 0x07 false (by simp [Chip.up, hu]) (by decide))
    exact ⟨hb, hn, hc, hk⟩
  · intro p s hl hn hf
    have hu : (s.chip.port p).link ≠ .up := by simp [hl]
    refine Answers.of_run (execLinkBreakEnd.eq_1 p s) fun d hd => ?_
    rw [if_neg (not_not_intro hl), Chip.resumeLink_negotiates hn hf] at hd
    have h := hd.negotiates (Chip.negotiate_negotiates hu)
    exact ⟨h.link, h.proto, h.ability, h.wa, h.status, hd.onlyPort (Chip.negotiate_onlyPort hu (.refl _ _)),
      hd.keeps (Chip.negotiate_keeps hu)⟩
  · intro p s hl
    have hu : ((s.chip.ceilingReset p).port p).link ≠ .up := by simp [Chip.ceilingReset_port, hl]
    refine Answers.of_run (execLinkFailEnd.eq_1 p s) fun d hd => ?_
    rw [if_neg (not_not_intro hl)] at hd
    have h := hd.negotiates (Chip.negotiate_negotiates hu)
    refine ⟨h.link, ?_, h.ability, hd.onlyPort (Chip.negotiate_onlyPort hu ((Chip.OnlyPort.refl _ _).wrRow ..))⟩
    rw [hd.rd _ rfl, (Chip.negotiate_in (.refl Chip.negotiate_fx _) (by decide +kernel)).rd (by decide +kernel) (by decide +kernel),
      Chip.ceilingReset_rd]
  · intro p s
    refine Answers.of_run (execNoEnergy2s.eq_1 p s) fun d hd => ⟨?_, ?_⟩
    · rw [hd.rd _ rfl, Chip.ceilingReset_rd]
    · exact hd.changesOnly (Chip.bare_wrRow ..) (Chip.Keeps.wrRow (fun _ _ _ => rfl) rfl)
  · intro p m s hl hm hw hr ha hf hk
    refine Answers.of_run (execWakePatternRetrain.eq_1 p s) fun d hd => ?_
    simp only [hl, hm, hw, hr, ha, Bool.and_self, if_true, Chip.begin_fastStart hw hf] at hd
    rw [← s.chip.setMode_laneSet p m] at hk ⊢
    exact hd.retrains ((s.chip.setMode p m).fastStart_retrains p hk)

end

section
/-!
PROOFS. Negotiation goes on to next pages, to a common mode or to none, and the training of the mode starts (R56 to R63).
-/
set_option Elab.async false
namespace Sys2Proof.Machine

/-! What the partner's pages change of the link controller (R140). -/

theorem Chip.setLpi_port (c : Chip) (p : Nat) (f : LpiSt → LpiSt) :
    (c.setLpi p f).port p = { c.port p with lpi := f (c.port p).lpi } := by
  rw [Chip.setLpi, Chip.setPort_same]

/-- What the partner offers for low-power idle is new, the rest of the controller stays. -/
theorem Chip.lpiPartner_port (c : Chip) (p : Nat) (w eee : Bool) :
    ∃ l, (c.lpiPartner p w eee).port p = { c.port p with lpi := l } ∧ l.partnerW = w ∧ l.partnerEee = eee :=
  ⟨_, Chip.setLpi_port .., rfl, rfl⟩

theorem Chip.lpiPartner_onlyPort {b c : Chip} {p : Nat} (h : b.OnlyPort c p) (w eee : Bool) : b.OnlyPort (c.lpiPartner p w eee) p :=
  h.setPort _

/-! Modes that may be offered. -/

/-- Objects on which the modes that a port offers depend (R27, R29, R47, R61, R64, R82). -/
def offerRegs : List Reg :=
  [.QUAD_FORMATION, .PORT_ABILITY, .PORT_MODE, .TILE_PL_MODE, .TILE_PL_SET, .DOWNSHIFT_CEILING, .BIST_STATE_PE, .PORT_PAIR_DOWNSHIFT,
    .PORT_MIN_PAIRS]

theorem Within.mayRun_eq {x : Fx} {c d : Chip} (h : Within x c d) (hx : ∀ r ∈ offerRegs, x.hasReg r = false) (p : Nat) (m : LineMode) :
    d.mayRun p m = c.mayRun p m := by
  have hq := hx .QUAD_FORMATION (by decide)
  have hrd : ∀ r ∈ offerRegs, ∀ i, d.rd r i = c.rd r i := fun r hr i => h.rd (hx r hr) hq i 0
  simp only [Chip.mayRun, Chip.forced, Chip.levelAllows, Chip.levelManual, Chip.underCeiling, Chip.pairsCarry, Chip.rdBool,
    h.width_eq hq, h.usablePes_eq (hx .BIST_STATE_PE (by decide)) hq, hrd .PORT_ABILITY (by decide), hrd .PORT_MODE (by decide),
    hrd .TILE_PL_MODE (by decide), hrd .TILE_PL_SET (by decide), hrd .DOWNSHIFT_CEILING (by decide), hrd .BIST_STATE_PE (by decide),
    hrd .PORT_PAIR_DOWNSHIFT (by decide), hrd .PORT_MIN_PAIRS (by decide)]

theorem Within.offers_eq {x : Fx} {c d : Chip} (h : Within x c d) (hx : ∀ r ∈ offerRegs, x.hasReg r = false) {p : Nat}
    (hp : (d.port p).proto = (c.port p).proto) : d.offers p = c.offers p := by
  simp only [Chip.offers, h.mayRun_eq hx, hp]

/-! The trainings that negotiation starts. -/

/-- The port has begun the clause training of a standard mode (R82). -/
def Chip.StdTrains (c d : Chip) (p : Nat) (m : LineMode) : Prop :=
  (d.port p).link = .stdTrain ∧ (d.port p).mode = some m ∧ (d.port p).fast = false ∧
    (d.port p).lanes = (if m = .t100 then [p, p + 1] else c.pesOf p) ∧ d.rd .TRAIN_SOURCE p = 4 ∧ Counts c d .TRAIN_COUNT p 1

/-- The port has begun the full training of a W mode (R71, R82). -/
def Chip.FullTrains (c d : Chip) (p : Nat) (m : LineMode) : Prop :=
  (d.port p).link = .trainT0 ∧ (d.port p).mode = some m ∧ (d.port p).fast = false ∧ (d.port p).lanes = c.usablePes p ∧
    Counts c d .TRAIN_COUNT p 1

/-- The controller of a port whose clause training begins. -/
def PortSt.clauseTraining (m : LineMode) (lanes : List Nat) (root : Nat) (s : PortSt) : PortSt :=
  { s with link := .stdTrain, mode := some m, fast := false, lanes := lanes, rxLanes := lanes, t0Root := root }

/-- The port has left its state for the clause training, and its victims' slots are reset (R128). -/
def Chip.stdEntered (c : Chip) (p : Nat) (m : LineMode) : Chip :=
  let d := (c.leave p).setPort p (.clauseTraining m (if m = .t100 then [p, p + 1] else c.pesOf p) c.root)
  d.each (d.pesOf p) fun c e => c.ancVictimReset e

theorem Chip.stdStart_eq (c : Chip) (p : Nat) (m : LineMode) :
    c.stdStart p m = (((c.stdEntered p m).wr .TRAIN_SOURCE p 4).inc .TRAIN_COUNT p).ancPortDrives p := rfl

theorem Chip.stdEntered_port (c : Chip) (p : Nat) (m : LineMode) :
    (c.stdEntered p m).port p =
      ((c.leave p).port p).clauseTraining m (if m = .t100 then [p, p + 1] else c.pesOf p) c.root := by
  unfold Chip.stdEntered
  dsimp only
  rw [Within.port_eq (x := Chip.ancVictimReset_fx)
    (Within.each (fun _ _ h => Chip.ancVictimReset_in h (by decide +kernel)) (.refl _ _)) (by decide +kernel), Chip.setPort_same]

theorem Chip.stdEntered_in (c : Chip) (p : Nat) (m : LineMode) :
    Within (.union [Chip.leave_fx, Chip.ancVictimReset_fx, .of [.ports] []]) c (c.stdEntered p m) :=
  Within.each (fun _ _ h => Chip.ancVictimReset_in h (by decide +kernel))
    ((Chip.leave_in (.refl _ _) (by decide +kernel)).setPort (by decide +kernel))

theorem Chip.stdStart_trains (c : Chip) (p : Nat) (m : LineMode) : c.StdTrains (c.stdStart p m) p m := by
  have hd : Within Chip.ancPortDrives_fx (((c.stdEntered p m).wr .TRAIN_SOURCE p 4).inc .TRAIN_COUNT p) (c.stdStart p m) := by
    rw [Chip.stdStart_eq]
    exact Chip.ancPortDrives_in (.refl _ _) (by decide +kernel)
  have hport : (c.stdStart p m).port p = (c.stdEntered p m).port p := by
    rw [hd.port_eq (by decide +kernel), Chip.inc_eq, Chip.wr_eq, Chip.port_wrRow, Chip.port_wrRow]
  unfold Chip.StdTrains
  rw [hport, Chip.stdEntered_port]
  refine ⟨rfl, rfl, rfl, rfl, ?_, ?_⟩
  · rw [hd.rd (by decide +kernel) (by decide +kernel), Chip.inc_eq, Chip.rd_wrRow_reg _ _ _ _ _ _ _ _ (by decide) (by decide),
      Chip.wr_eq, Chip.rd_wrRow_same]
    rfl
  · rw [Counts, hd.rd (by decide +kernel) (by decide +kernel), Chip.inc_eq, Chip.rd_wrRow_same, Chip.wr_eq,
      Chip.rd_wrRow_reg _ _ _ _ _ _ _ _ (by decide) (by decide), (c.stdEntered_in p m).rd (by decide +kernel) (by decide +kernel)]

theorem Chip.fullStart_trains {c : Chip} {p : Nat} {m : LineMode} (hu : (c.port p).link ≠ .up) (hm : (c.port p).mode = some m) :
    c.FullTrains (c.fullStart p) p m := by
  have he : c.fullStart p = ((c.setPort p PortSt.left).trainStart p false (c.usablePes p)).inc .TRAIN_COUNT p := by
    rw [Chip.fullStart, Chip.leave_notUp hu]
    rfl
  obtain ⟨hl, hf⟩ := (c.setPort p PortSt.left).trainStart_port p false (c.usablePes p)
  obtain ⟨hs, hk⟩ := (c.setPort p PortSt.left).trainStart_lanes p false (c.usablePes p)
  have hin : Within Chip.trainStart_fx (c.setPort p PortSt.left) ((c.setPort p PortSt.left).trainStart p false (c.usablePes p)) :=
    Chip.trainStart_in (.refl _ _) (by decide +kernel)
  unfold Chip.FullTrains
  rw [he, Chip.inc_eq, Chip.port_wrRow]
  refine ⟨hl, ?_, hf, hs, ?_⟩
  · rw [hk, Chip.setPort_same]
    exact hm
  · rw [Counts, Chip.rd_wrRow_same, hin.rd (by decide +kernel) (by decide +kernel), Chip.rd_setPort]

theorem Chip.trainNow_std {m : LineMode} (hw : m.isW = false) (c : Chip) (p : Nat) (fast : Bool) :
    c.trainNow p m fast = c.stdStart p m := by simp [Chip.trainNow, hw]

theorem Chip.trainNow_full {m : LineMode} (hw : m.isW = true) (c : Chip) (p : Nat) : c.trainNow p m false = c.fullStart p := by
  simp [Chip.trainNow, hw]

section
variable {c : Chip} {p : Nat} {m : LineMode} (hl : c.levelInForce (tileOf p) m = true)
include hl

theorem Chip.beginStd_trains (hw : m.isW = false) : c.StdTrains (c.beginStd p m) p m := by
  have hb : c.begin_ p m false = (c.setMode p m).stdStart p m := by
    rw [Chip.begin_inForce hl, Chip.trainNow_std hw]
  have hr : Within Chip.needRaised_fx (c.begin_ p m false) (c.beginStd p m) := Chip.needRaised_in (.refl _ _) (by decide +kernel)
  obtain ⟨h0, hm, hf, hs, ht, hc⟩ := (c.setMode p m).stdStart_trains p m
  unfold Chip.StdTrains Counts at *
  rw [hr.port_eq (by decide +kernel), hr.rd (by decide +kernel) (by decide +kernel), hr.rd (by decide +kernel) (by decide +kernel), hb]
  exact ⟨h0, hm, hf, hs, ht, hc⟩

theorem Chip.begin_fullTrains (hw : m.isW = true) (hu : (c.port p).link ≠ .up) : c.FullTrains (c.begin_ p m false) p m := by
  have hb : c.begin_ p m false = (c.setMode p m).fullStart p := by
    rw [Chip.begin_inForce hl, Chip.trainNow_full hw]
  obtain ⟨h0, hm, hf, hs, hc⟩ := Chip.fullStart_trains (c := c.setMode p m) (m := m) (by rwa [Chip.setMode_port])
    (by rw [Chip.setMode_port])
  rw [hb]
  exact ⟨h0, hm, hf, hs, hc⟩

end

/-! Resolution (R61, R63). -/

/-- What the partner offers is recorded, and negotiation is complete. -/
def Chip.resolved (c : Chip) (p partner : Nat) : Chip := (c.wr .AN_PARTNER_ABILITY p partner).setBit .AN_STATUS p 0 true

/-- The mode is found, and with it the master-slave result is recorded. -/
def Chip.settled (c : Chip) (p partner ms : Nat) : Chip := (c.resolved p partner).wr .MS_RESULT p ms

section
variable (c : Chip) (p partner ms : Nat)

theorem Chip.resolved_in : Within (.of [] [.AN_PARTNER_ABILITY, .AN_STATUS]) c (c.resolved p partner) :=
  ((Within.refl _ _).wr (by decide +kernel)).setBit (by decide +kernel)

theorem Chip.settled_in : Within (.of [] [.AN_PARTNER_ABILITY, .AN_STATUS, .MS_RESULT]) c (c.settled p partner ms) :=
  ((c.resolved_in p partner).mono (by decide +kernel)).wr (by decide +kernel)

theorem Chip.resolved_offers : (c.resolved p partner).offers p = c.offers p :=
  (c.resolved_in p partner).offers_eq (by decide +kernel) (by rw [(c.resolved_in p partner).port_eq (by decide +kernel)])

theorem Chip.resolved_ability : (c.resolved p partner).rd .AN_PARTNER_ABILITY p = partner % 65536 := by
  rw [Chip.resolved, Chip.setBit_eq, Chip.rd_wrRow_reg _ _ _ _ _ _ _ _ (by decide) (by decide), Chip.wr_eq, Chip.rd_wrRow_same]
  rfl

/-- What the resolution shows: `COMPLETE`, what the partner offers, and the master-slave result. -/
theorem Chip.settled_shows : (c.settled p partner ms).rdBit .AN_STATUS 0 p = true ∧
    (c.settled p partner ms).rd .AN_PARTNER_ABILITY p = partner % 65536 ∧ (c.settled p partner ms).rd .MS_RESULT p = ms % 256 := by
  have hw : Within (.of [] [.MS_RESULT]) (c.resolved p partner) (c.settled p partner ms) := (Within.refl _ _).wr (by decide +kernel)
  refine ⟨?_, ?_, ?_⟩
  · rw [hw.rdBit (by decide +kernel) (by decide +kernel)]
    exact Chip.rdBit_setBit_same _ _ _ _ _ (by decide)
  · rw [hw.rd (by decide +kernel) (by decide +kernel), Chip.resolved_ability]
  · rw [Chip.settled, Chip.wr_eq, Chip.rd_wrRow_same]
    rfl

variable {c p partner ms} {m : LineMode}

theorem Chip.resolve_none (h : ((c.offers p).find? fun k => partner.testBit k.abilityBit) = none) :
    c.resolve p partner ms = (((c.resolved p partner).setCause p 0x0A).leave p).setLink p .fail := by
  rw [← c.resolved_offers p partner] at h
  unfold Chip.resolve
  dsimp only
  split
  · rfl
  · next k hk => exact absurd (hk.symm.trans h) (by simp)

variable (hm : ((c.offers p).find? fun k => partner.testBit k.abilityBit) = some m)
include hm

theorem Chip.resolve_std (hw : m.isW = false) :
    c.resolve p partner ms = (c.settled p partner (if m = .t100 then 0 else ms)).beginStd p m := by
  rw [← c.resolved_offers p partner] at hm
  unfold Chip.resolve
  dsimp only
  split
  · next hn => exact absurd (hm.symm.trans hn) (by simp)
  · next k hk =>
    obtain rfl : k = m := Option.some.inj (hk.symm.trans hm)
    simp only [hw, Bool.false_or, decide_eq_true_eq, Bool.false_eq_true, if_false]
    rfl

theorem Chip.resolve_full (hw : m.isW = true) (hf : c.rdBool .FAST_RETRAIN_ENABLE p = false) :
    c.resolve p partner ms = (c.settled p partner 0).begin_ p m false := by
  have hf' : (c.settled p partner 0).rdBool .FAST_RETRAIN_ENABLE p = false := by
    rw [(c.settled_in p partner 0).rdBool (by decide +kernel) (by decide +kernel), hf]
  rw [← c.resolved_offers p partner] at hm
  unfold Chip.resolve
  dsimp only
  split
  · next hn => exact absurd (hm.symm.trans hn) (by simp)
  · next k hk =>
    obtain rfl : k = m := Option.some.inj (hk.symm.trans hm)
    unfold Chip.settled Chip.resolved at hf'
    simp only [hw, Bool.true_or, if_true, hf', Bool.false_and, Bool.false_eq_true, if_false]
    rfl

end

/-- The start of a training leaves what the resolution shows. -/
theorem EvFrame.settled_shows {c e d : Chip} {p partner ms : Nat} (h : EvFrame e d)
    (he : Within Chip.beginStd_fx (c.settled p partner ms) e) :
    d.rdBit .AN_STATUS 0 p = true ∧ d.rd .AN_PARTNER_ABILITY p = partner % 65536 ∧ d.rd .MS_RESULT p = ms % 256 := by
  rw [h.rdBit _ rfl, h.rd _ rfl, h.rd _ rfl, he.rdBit (by decide +kernel) (by decide +kernel),
    he.rd (by decide +kernel) (by decide +kernel), he.rd (by decide +kernel) (by decide +kernel)]
  exact c.settled_shows p partner ms

/-! The commands. -/

/-- What the pages of a complete exchange leave before the resolution (R58 to R61). -/
def Chip.notePages (c : Chip) (p : Nat) (np : NextPages) : Chip :=
  let w := np.w.ours && bits np.w.wa 19 18 != 0
  let c := c.wr .AN_PARTNER_WA p (if np.w.ours then np.w.wa else 0)
  let c := c.setBit .AN_STATUS p 3 w
  let c := c.setBit .AN_STATUS p 4 (w && bits np.w.wa 13 13 = 1)
  let c := c.setBit .AN_STATUS p 5 (w && bits np.w.wa 11 0 != 0 && bits np.w.wa 11 0 = c.heldEpoch p)
  c.lpiPartner p (w && bits np.w.wa 14 14 = 1) np.eee

theorem execNextPagesDone_eq (p : PortNo) (np : NextPages) (s : State) :
    execNextPagesDone p np s = s.run fun c =>
      if (c.port p).link ≠ .anNextPage then c
      else (c.notePages p np).resolve p (np.offered ((c.port p).proto = .flp) (c.rd .AN_PARTNER_ABILITY p))
        (msResolve ((c.notePages p np).rd .MS_CONFIG p) np.ms.val np.seed) := rfl

section
variable (c : Chip) (p : Nat) (np : NextPages)

theorem Chip.notePages_in : Within (.of [.ports] [.AN_PARTNER_WA, .AN_STATUS]) c (c.notePages p np) :=
  Chip.lpiPartner_in (((((Within.refl _ _).wr (by decide +kernel)).setBit (by decide +kernel)).setBit (by decide +kernel)).setBit
    (by decide +kernel)) (by decide +kernel)

theorem Chip.notePages_port : ∃ l, (c.notePages p np).port p = { c.port p with lpi := l } := by
  unfold Chip.notePages
  dsimp only
  obtain ⟨l, hl, -⟩ := Chip.lpiPartner_port _ p _ _
  refine ⟨l, hl.trans ?_⟩
  simp only [Chip.setBit_eq, Chip.wr_eq, Chip.port_wrRow]

theorem Chip.notePages_link : ((c.notePages p np).port p).link = (c.port p).link := by
  obtain ⟨l, hl⟩ := c.notePages_port p np
  rw [hl]

theorem Chip.notePages_offers : (c.notePages p np).offers p = c.offers p := by
  obtain ⟨l, hl⟩ := c.notePages_port p np
  exact (c.notePages_in p np).offers_eq (by decide +kernel) (by rw [hl])

/-- What the pages leave once the mode is found. -/
theorem Chip.notePages_settled_in (partner ms : Nat) :
    Within (.of [.ports] [.AN_PARTNER_WA, .AN_STATUS, .AN_PARTNER_ABILITY, .MS_RESULT]) c ((c.notePages p np).settled p partner ms) :=
  ((c.notePages_in p np).mono (by decide +kernel)).trans (((c.notePages p np).settled_in p partner ms).mono (by decide +kernel))

end

/-- The base pages are recorded (R56, R140). -/
def Chip.noteBase (c : Chip) (p : Nat) (pg : BasePage) : Chip :=
  (c.wr .AN_PARTNER_ABILITY p (b2n (pg.tx100 && (c.port p).proto = .flp))).lpiPartner p false false

theorem execBasePagesExchanged_eq (p : PortNo) (pg : BasePage) (s : State) :
    execBasePagesExchanged p pg s = s.run fun c =>
      if (c.port p).link ≠ .anAbility then c
      else if ((c.port p).proto = .dme || (c.offers p).any fun m => m ≠ .t100) && pg.nextPage then
        (c.noteBase p pg).setLink p .anNextPage
      else (c.noteBase p pg).resolve p (b2n (pg.tx100 && (c.port p).proto = .flp)) 0 := rfl

/-- 100BASE-TX idle is recorded (R57). -/
def Chip.noteIdle (c : Chip) (p : Nat) : Chip :=
  (((c.setBit .AN_STATUS p 1 true).wr .AN_PARTNER_ABILITY p 1).wr .MS_RESULT p 0).lpiPartner p false false

theorem execParallelDetect_eq (p : PortNo) (s : State) :
    execParallelDetect p s = s.run fun c =>
      if (c.port p).link = .anAbility && c.mayRun p .t100 then (c.noteIdle p).beginStd p .t100 else c := rfl

theorem Chip.noteIdle_in (c : Chip) (p : Nat) :
    Within (.of [.ports] [.AN_STATUS, .AN_PARTNER_ABILITY, .MS_RESULT]) c (c.noteIdle p) :=
  Chip.lpiPartner_in ((((Within.refl _ _).setBit (by decide +kernel)).wr (by decide +kernel)).wr (by decide +kernel)) (by decide +kernel)

theorem Chip.noteIdle_shows (c : Chip) (p : Nat) :
    (c.noteIdle p).rdBit .AN_STATUS 1 p = true ∧ (c.noteIdle p).rd .AN_PARTNER_ABILITY p = 1 ∧ (c.noteIdle p).rd .MS_RESULT p = 0 := by
  have hp : Within (.of [.ports] [])
      (((c.setBit .AN_STATUS p 1 true).wr .AN_PARTNER_ABILITY p 1).wr .MS_RESULT p 0) (c.noteIdle p) :=
    Chip.lpiPartner_in (.refl _ _) (by decide +kernel)
  have hw : Within (.of [] [.AN_PARTNER_ABILITY, .MS_RESULT]) (c.setBit .AN_STATUS p 1 true)
      (((c.setBit .AN_STATUS p 1 true).wr .AN_PARTNER_ABILITY p 1).wr .MS_RESULT p 0) :=
    ((Within.refl _ _).wr (by decide +kernel)).wr (by decide +kernel)
  refine ⟨?_, ?_, ?_⟩
  · rw [hp.rdBit (by decide +kernel) (by decide +kernel), hw.rdBit (by decide +kernel) (by decide +kernel)]
    exact Chip.rdBit_setBit_same _ _ _ _ _ (by decide)
  · rw [hp.rd (by decide +kernel) (by decide +kernel), Chip.wr_eq, Chip.rd_wrRow_reg _ _ _ _ _ _ _ _ (by decide) (by decide), Chip.wr_eq,
      Chip.rd_wrRow_same]
    rfl
  · rw [hp.rd (by decide +kernel) (by decide +kernel), Chip.wr_eq, Chip.rd_wrRow_same]
    rfl

end Sys2Proof.Machine
end

section
set_option Elab.async false
open Sys2Proof Sys2Proof.Machine

/-- Settles O13: each command records what the partner sent, and then leaves `AN_ABILITY` or `AN_NEXT_PAGE` as the resolution says; the
master-slave result is that of `msResolve`, the model's choice of log entry 80. -/
theorem negotiationAdvances : Obligations.NegotiationAdvances := by
  unfold Obligations.NegotiationAdvances
  refine ⟨?_, ?_, ?_, ?_, ?_, ?_⟩
  · intro p pg s hl hp hn
    refine Answers.of_run (execBasePagesExchanged_eq p pg s) fun d hd => ?_
    rw [if_neg (not_not_intro hl), if_pos (by simp [hp, hn])] at hd
    obtain ⟨l, hpl, hw, he⟩ := Chip.lpiPartner_port (s.chip.wr .AN_PARTNER_ABILITY p (b2n (pg.tx100 && (s.chip.port p).proto = .flp)))
      p false false
    have hport : d.port p = { s.chip.port p with link := .anNextPage, lpi := l } := by
      rw [hd.port_eq, Chip.setLink, Chip.setPort_same, Chip.noteBase, hpl, Chip.wr_eq, Chip.port_wrRow]
    refine ⟨by rw [hport], by rw [hport, hw], by rw [hport, he], ?_, ?_, ?_⟩
    · rw [hd.rd _ rfl, Chip.setLink, Chip.rd_setPort, Chip.noteBase, Chip.lpiPartner, Chip.setLpi, Chip.rd_setPort, Chip.wr_eq,
        Chip.rd_wrRow_same, hp]
      simp [b2n]
    · exact hd.onlyPort ((Chip.lpiPartner_onlyPort ((Chip.OnlyPort.refl _ _).wrRow ..) _ _).setPort _)
    · refine hd.keeps ?_
      exact Chip.Keeps.wrRow (c := s.chip) (fun _ _ _ => rfl) rfl
  · intro p np m s partner hl hf hw hlv
    refine Answers.of_run (execNextPagesDone_eq p np s) fun d hd => ?_
    rw [← s.chip.notePages_offers p np] at hf
    rw [if_neg (not_not_intro hl), Chip.resolve_std hf hw] at hd
    have hin := s.chip.notePages_settled_in p np partner
      (if m = .t100 then 0 else msResolve ((s.chip.notePages p np).rd .MS_CONFIG p) np.ms.val np.seed)
    rw [← hin.levelInForce_eq (by decide +kernel)] at hlv
    obtain ⟨h0, hm, hfa, -, hts, hc⟩ := Chip.beginStd_trains hlv hw
    obtain ⟨hst, hab, hms⟩ := hd.settled_shows (Chip.beginStd_in (.refl _ _) (by decide +kernel))
    rw [hd.port_eq, hd.rd .TRAIN_SOURCE rfl]
    refine ⟨h0, hm, hfa, hts, hab, ?_, hst, ?_⟩
    · rw [hms, (s.chip.notePages_in p np).rd (by decide +kernel) (by decide +kernel)]
      split <;> rfl
    · rw [Counts, hd.rd _ rfl, hc, hin.rd (by decide +kernel) (by decide +kernel)]
  · intro p np m s partner hl hf hw hlv hfr
    refine Answers.of_run (execNextPagesDone_eq p np s) fun d hd => ?_
    rw [← s.chip.notePages_offers p np] at hf
    rw [← (s.chip.notePages_in p np).rdBool (by decide +kernel) (by decide +kernel)] at hfr
    rw [if_neg (not_not_intro hl), Chip.resolve_full hf hw hfr] at hd
    have hin := s.chip.notePages_settled_in p np partner 0
    rw [← hin.levelInForce_eq (by decide +kernel)] at hlv
    have hu : (((s.chip.notePages p np).settled p partner 0).port p).link ≠ .up := by
      rw [((s.chip.notePages p np).settled_in p partner 0).port_eq (by decide +kernel), Chip.notePages_link, hl]
      decide
    obtain ⟨h0, hm, hfa, hs, hc⟩ := Chip.begin_fullTrains hlv hw hu
    obtain ⟨hst, -, hms⟩ := hd.settled_shows (Chip.begin__in (.refl _ _) (by decide +kernel))
    rw [hin.usablePes_eq (by decide +kernel) (by decide +kernel)] at hs
    rw [hd.port_eq]
    refine ⟨h0, hm, hfa, hs, hms, hst, ?_⟩
    rw [Counts, hd.rd _ rfl, hc, hin.rd (by decide +kernel) (by decide +kernel)]
  · intro p np s partner hl hf
    refine Answers.of_run (execNextPagesDone_eq p np s) fun d hd => ?_
    rw [← s.chip.notePages_offers p np] at hf
    rw [if_neg (not_not_intro hl), Chip.resolve_none hf] at hd
    have hv : Within Chip.leave_fx (((s.chip.notePages p np).resolved p partner).setCause p 0x0A) _ :=
      Chip.leave_in (p := p) (.refl _ _) (by decide +kernel)
    rw [hd.port_eq, hd.rd _ rfl, hd.rd _ rfl, Chip.setLink, Chip.setPort_same, Chip.rd_setPort, Chip.rd_setPort,
      hv.rd (by decide +kernel) (by decide +kernel), hv.rd (by decide +kernel) (by decide +kernel), Chip.setCause, Chip.wr_eq,
      Chip.rd_wrRow_same, Chip.rd_wrRow_reg _ _ _ _ _ _ _ _ (by decide) (by decide), Chip.resolved_ability]
    exact ⟨rfl, rfl, rfl⟩
  · intro p s hl hw hp ha
    refine Answers.of_run (execFlpDetected.eq_1 p s) fun d hd => ?_
    rw [if_pos (by simp [hl, hw, hp, ha])] at hd
    refine ⟨?_, ?_, ?_, ?_⟩
    · rw [hd.port_eq, Chip.setBit_eq, Chip.port_wrRow, Chip.setPort_same]
    · rw [hd.rdBit _ rfl]
      exact Chip.rdBit_setBit_same _ _ _ _ _ (by decide)
    · exact hd.onlyPort (((Chip.OnlyPort.refl _ _).setPort _).wrRow ..)
    · refine hd.keeps ?_
      exact Chip.Keeps.wrRow (fun _ _ _ => rfl) rfl
  · intro p s hl hr hlv
    refine Answers.of_run (execParallelDetect_eq p s) fun d hd => ?_
    rw [if_pos (by simp [hl, hr])] at hd
    have hin := s.chip.noteIdle_in p
    rw [← hin.levelInForce_eq (by decide +kernel)] at hlv
    obtain ⟨h0, hm, -, hs, hts, hc⟩ := Chip.beginStd_trains hlv rfl
    obtain ⟨hst, hab, hms⟩ := s.chip.noteIdle_shows p
    have hb : Within Chip.beginStd_fx (s.chip.noteIdle p) ((s.chip.noteIdle p).beginStd p .t100) :=
      Chip.beginStd_in (.refl _ _) (by decide +kernel)
    rw [hd.port_eq, hd.rdBit _ rfl, hd.rd _ rfl, hd.rd _ rfl, hd.rd _ rfl, hb.rdBit (by decide +kernel) (by decide +kernel),
      hb.rd (r := .AN_PARTNER_ABILITY) (by decide +kernel) (by decide +kernel),
      hb.rd (r := .MS_RESULT) (by decide +kernel) (by decide +kernel)]
    refine ⟨h0, hm, hs, hst, hab, hms, hts, ?_⟩
    rw [Counts, hd.rd _ rfl, hc, hin.rd (by decide +kernel) (by decide +kernel)]

end

section
/-!
PROOFS. `TRAIN_T0` and `TRAIN_T1` end: the source of the initial values, the nonce and the epoch (R69 to R71, R75, R76, R434).
-/
set_option Elab.async false
namespace Sys2Proof.Machine

/-! The end of `TRAIN_T0`. -/

/-- The controller of a port as `TRAIN_T1` begins. -/
def PortSt.atT1 (root : Nat) (s : PortSt) : PortSt := { s with link := .trainT1, t1Root := root }

theorem Chip.enterT1_port (c : Chip) (p : Nat) : (c.enterT1 p).port p = (c.port p).atT1 c.root := by
  have hin : Within (.union [Chip.resumeAll_fx, Chip.phase_fx, Chip.ancPortDrives_fx]) (c.setPort p (.atT1 c.root)) (c.enterT1 p) :=
    Chip.ancPortDrives_in (Chip.phase_in (Chip.resumeAll_in (.refl _ _) (by decide +kernel)) (by decide +kernel)) (by decide +kernel)
  rw [hin.port_eq (by decide +kernel), Chip.setPort_same]

/-- The initial values of a full training, once the class is decided (R76, R77, R110). -/
def Chip.t0Source (c : Chip) (p : Nat) (r : T0Probe) (m : LineMode) : Chip :=
  let bad := fun e : Nat => r.badStored.toNat.testBit (laneIndex p e)
  let d := c.each (c.port p).lanes fun c e => c.checkStored e (bad e)
  let hit := (d.port p).lanes.all fun e => d.storedFits e m (c.rd .TRAIN_CLASS p) (bad e)
  let d := (d.wr .TRAIN_SOURCE p (if hit then 2 else 3)).invalidatePort p
  d.each (d.port p).lanes fun x e => x.loadInitial e m (c.rd .TRAIN_CLASS p) hit

section
variable (c : Chip) (p : Nat) (r : T0Probe) (m : LineMode)

theorem Chip.t0Source_in :
    Within (.union [Chip.checkStored_fx, Chip.invalidatePort_fx, Chip.loadInitial_fx, .of [] [.TRAIN_SOURCE]]) c (c.t0Source p r m) :=
  Within.each (fun _ _ h => Chip.loadInitial_in h (by decide +kernel))
    (Chip.invalidatePort_in ((Within.each (fun _ _ h => Chip.checkStored_in h (by decide +kernel)) (.refl _ _)).wr (by decide +kernel))
      (by decide +kernel))

theorem Chip.t0Source_source : (c.t0Source p r m).rd .TRAIN_SOURCE p = 2 ∨ (c.t0Source p r m).rd .TRAIN_SOURCE p = 3 := by
  unfold Chip.t0Source
  dsimp only
  rw [Within.rd (x := .union [Chip.invalidatePort_fx, Chip.loadInitial_fx])
    (Within.each (fun _ _ h => Chip.loadInitial_in h (by decide +kernel)) (Chip.invalidatePort_in (.refl _ _) (by decide +kernel)))
    (by decide +kernel) (by decide +kernel), Chip.wr_eq, Chip.rd_wrRow_same]
  split
  · exact .inl rfl
  · exact .inr rfl

end

/-- T0_TIMER_END in `TRAIN_T0`, by the kind of the training. -/
theorem execT0TimerEnd_run {p : PortNo} {r : T0Probe} {m : LineMode} {s : State} (hl : (s.chip.port p).link = .trainT0)
    (hm : (s.chip.port p).mode = some m) :
    ∃ f, execT0TimerEnd p r s = s.run f ∧ f s.chip =
      if (s.chip.port p).fast then (s.chip.each (s.chip.port p).lanes fun c e => c.feTrims e).enterT1 p
      else if (s.chip.classDecision p r).rdBool .TRAIN_CLASS_GATE p
          && !classAllows ((s.chip.classDecision p r).rd .TRAIN_CLASS p) m then (s.chip.classDecision p r).trainFail p 0x0B
      else ((s.chip.classDecision p r).t0Source p r m).enterT1 p := by
  refine ⟨_, rfl, ?_⟩
  rw [hl, hm]
  rfl

/-! The end of `TRAIN_T1`. -/

theorem getD_mem_or_default {α : Type} (l : List α) (i : Nat) (a : α) : l.getD i a ∈ l ∨ l.getD i a = a := by
  by_cases h : i < l.length
  · rw [List.getD_eq_getElem _ _ h]
    exact .inl (List.getElem_mem h)
  · exact .inr (List.getD_eq_default _ _ (Nat.le_of_not_lt h))

/-- An epoch drawn from what is not barred is from 1 to 4095 (R70). -/
theorem drawnEpoch_range (bar : List Nat) (i : Nat) :
    1 ≤ ((List.range 4096).filter fun x => x != 0 && !bar.contains x).getD i 1 ∧
      ((List.range 4096).filter fun x => x != 0 && !bar.contains x).getD i 1 ≤ 4095 := by
  rcases getD_mem_or_default ((List.range 4096).filter fun x => x != 0 && !bar.contains x) i 1 with h | h
  · obtain ⟨hr, hb⟩ := List.mem_filter.1 h
    have hlt := List.mem_range.1 hr
    have hne : ((List.range 4096).filter fun x => x != 0 && !bar.contains x).getD i 1 ≠ 0 := by
      simpa using (Bool.and_eq_true_iff.1 hb).1
    omega
  · omega

/-- The controller of a port in `TRAIN_T2` with the pairs `keep` converged and `lanes` training. -/
def PortSt.AtT2 (s : PortSt) (keep : Nat) (lanes : List Nat) : Prop :=
  s.link = .trainT2 ∧ s.ownKeep = keep ∧ s.nonce < 65536 ∧ s.gotBase = false ∧ s.lanes = lanes

theorem Chip.toT2_atT2 (c : Chip) (p keep : Nat) :
    ((c.toT2 p keep).port p).AtT2 keep (c.port p).lanes ∧
      ((c.port p).fast = false → 1 ≤ ((c.toT2 p keep).port p).epoch ∧ ((c.toT2 p keep).port p).epoch ≤ 4095) := by
  unfold Chip.toT2
  dsimp only
  rw [(Chip.phase_in (.refl Chip.phase_fx _) (by decide +kernel)).port_eq (by decide +kernel), Chip.setPort_same]
  refine ⟨⟨rfl, rfl, Nat.mod_lt _ (by decide), rfl, rfl⟩, fun hf => ?_⟩
  simp only [hf, Bool.false_eq_true, if_false]
  exact drawnEpoch_range _ _

/-- The mask of a list of pairs (R73). -/
def pairMask (p : Nat) (l : List Nat) : Nat := l.foldl (fun a e => a ||| 2 ^ laneIndex p e) 0

/-- What `TRAIN_T1` records of its pairs leaves the controllers. -/
theorem Chip.t1Recorded_port (c : Chip) (p mask b map x : Nat) (meas : List T1Meas) :
    ((c.t1Done p mask meas).markPairs p b map).port x = c.port x :=
  (Chip.markPairs_in (Chip.t1Done_in (.refl (.union [Chip.t1Done_fx, Chip.markPairs_fx]) _) (by decide +kernel))
    (by decide +kernel)).port_eq (by decide +kernel) x

theorem execT1Converged_run {p : PortNo} {r : T1Result} {s : State} (hl : (s.chip.port p).link = .trainT1)
    (ht : ∀ e ∈ (s.chip.port p).lanes, (measOf r.meas p e).freq.natAbs ≤ 50000) :
    let keep := pairMask p (s.chip.port p).lanes
    ∃ f, execT1Converged p r s = s.run f ∧
      f s.chip = ((s.chip.t1Done p keep r.meas).markPairs p 2 r.inverted.toNat).toT2 p keep := by
  have hall : ((s.chip.port p).lanes.all fun e => (measOf r.meas p e).tracked) = true :=
    List.all_eq_true.2 fun e he => decide_eq_true (ht e he)
  exact ⟨_, rfl, if_neg (by simp [hl, hall])⟩

theorem foldl_unmarked {p : Nat} {ok : Nat → Bool} {l : List Nat} (h : ∀ e ∈ l, ok e = true) :
    l.foldl (fun a e => if ok e then a else a ||| 2 ^ laneIndex p e) 0 = 0 := by
  induction l with
  | nil => rfl
  | cons e l ih =>
    rw [List.foldl_cons, if_pos (h e List.mem_cons_self)]
    exact ih fun x hx => h x (List.mem_cons_of_mem _ hx)

/-- T1_TIMEOUT with every pair converged goes on as at the exit condition (R434). -/
theorem execT1Timeout_run {p : PortNo} {conv : BitVec 4} {r : T1Result} {s : State} (hl : (s.chip.port p).link = .trainT1)
    (hc : ∀ e ∈ (s.chip.port p).lanes,
      conv.toNat.testBit (laneIndex p e) = true ∧ (measOf r.meas p e).freq.natAbs ≤ 50000) :
    let keep := pairMask p ((s.chip.port p).lanes.filter fun e => conv.toNat.testBit (laneIndex p e) && (measOf r.meas p e).tracked)
    ∃ f, execT1Timeout p conv r s = s.run f ∧
      f s.chip = (((s.chip.t1Done p keep r.meas).markPairs p 2 r.inverted.toNat).markPairs p 3 0).toT2 p keep := by
  have hok : ∀ e ∈ (s.chip.port p).lanes, (conv.toNat.testBit (laneIndex p e) && (measOf r.meas p e).tracked) = true := fun e he => by
    obtain ⟨h1, h2⟩ := hc e he
    rw [h1, Bool.true_and]
    exact decide_eq_true h2
  refine ⟨_, rfl, ?_⟩
  simp only [hl]
  rw [foldl_unmarked hok]
  exact if_pos rfl

end Sys2Proof.Machine
end

section
/-!
PROOFS. Infofields in `TRAIN_T2` and `TRAIN_T3`: a segment, a base infofield and a countdown frame (R66 to R74, R101).
-/
set_option Elab.async false
namespace Sys2Proof.Machine

theorem ifMajority_self (v : BitVec 160) : ifMajority v v v = v := by simp [ifMajority]

theorem bits_lt (v hi lo : Nat) : bits v hi lo < 2 ^ (hi + 1 - lo) := Nat.mod_lt _ (by positivity)

/-- INFOFIELD_RECEIVED with three alike copies of an infofield that passes its check, by its type. -/
theorem execInfofieldReceived_run {e : PeNo} {v : BitVec 160} {s : State}
    (hl : (s.chip.port (s.chip.portOf e)).link = .trainT2 ∨ (s.chip.port (s.chip.portOf e)).link = .trainT3)
    (hc : (s.chip.port (s.chip.portOf e)).lanes.contains e.val = true) (hk : ifCheck v = true) :
    ∃ f, execInfofieldReceived e v v v s = s.run f ∧
      (ifField v 159 156 = 0 → f s.chip = s.chip.baseIn (s.chip.portOf e) e v) ∧
      (ifField v 159 156 = 1 → (s.chip.port (s.chip.portOf e)).link = .trainT2 →
        f s.chip = (s.chip.setPe e fun x => x.takeSeg (ifField v 151 144) (ifField v 143 16)).tryT3 (s.chip.portOf e)) := by
  have hg : ¬ (!(decide ((s.chip.port (s.chip.portOf e)).link = .trainT2) || decide ((s.chip.port (s.chip.portOf e)).link = .trainT3))
      || !(s.chip.port (s.chip.portOf e)).lanes.contains e.val || !ifCheck v) = true := by
    rw [hc, hk]
    rcases hl with h | h <;> simp [h]
  refine ⟨_, rfl, fun ht => ?_, fun ht h2 => ?_⟩
  · simp only [ifMajority_self]
    rw [if_neg hg, ht]
    rfl
  · simp only [ifMajority_self]
    rw [if_neg hg, ht]
    exact if_pos h2

/-- The controller with the acknowledgement that it sends. -/
def PortSt.acks (a : Bool) (s : PortSt) : PortSt := { s with ackSent := a }

/-- While the partner has not acknowledged, `TRAIN_T2` goes on (Table 3-7). -/
theorem Chip.tryT3_waits {c : Chip} {p : Nat} (h : (c.port p).ifAck = false) :
    ∃ a, c.tryT3 p = c.setPort p (.acks a) := by
  unfold Chip.tryT3
  dsimp only
  rw [h, Bool.and_false]
  exact ⟨_, if_neg (by simp)⟩

/-! A base infofield (Table 3-5, R66 to R70). -/

/-- The controller after a base infofield of the partner, with pair-loss downshift agreed or not. -/
def PortSt.withBase (v : BitVec 160) (agreed : Bool) (s : PortSt) : PortSt :=
  { s with gotBase := true, ifMode := ifField v 151 144, ifNonce := ifField v 51 36, ifEpoch := ifField v 63 52,
           ifKeep := ifField v 137 134, ifWidth := ifField v 143 141, ifDownshift := (ifField v 138 138 = 1),
           ifAck := (ifField v 153 153 = 1), downshiftAgreed := agreed }

/-- The pair engine after a base infofield. -/
def PeSt.withBase (v : BitVec 160) (x : PeSt) : PeSt :=
  { x with ifLane := some (ifField v 140 139), ifSeed := ifField v 121 64, ifClass := ifField v 129 122, gotIf := true,
           segCount := ifField v 35 28, segsNew := [] }

section
variable (c : Chip) (p e : Nat) (v : BitVec 160)

theorem Chip.storeBase_eq :
    ∃ lane agreed, (ifField v 138 138 = 0 → agreed = false) ∧
      c.storeBase p e v = (((c.setPe e (.withBase v)).wrRow .PE_RX_SCR_SEED e 0 (ifField v 121 64)).wrRow .PE_RX_LANE e 0 lane).setPort p
        (.withBase v agreed) :=
  ⟨_, _, fun h => by rw [h]; rfl, rfl⟩

variable {p v} (hd : ifField v 138 138 = 0)
include hd

theorem Chip.storeBase_port : (c.storeBase p e v).port p = (c.port p).withBase v false := by
  obtain ⟨lane, agreed, ha, hs⟩ := c.storeBase_eq p e v
  rw [hs, Chip.setPort_same, Chip.port_wrRow, Chip.port_wrRow, Chip.port_setPe, ha hd]

/-- A base infofield that meets no cause for a failure, and comes before the partner's acknowledgement, is kept (R66 to R70). -/
theorem Chip.takeBase_keeps (hf : (c.port p).fast = false) (hw : ifField v 143 141 = c.width p)
    (hl : ∀ x ∈ (c.port p).lanes, (c.port p).ownKeep.testBit (laneIndex p x) = true) (hn : ifField v 51 36 ≠ (c.port p).nonce)
    (ha : ifField v 153 153 = 0) : ∃ a, c.takeBase p e v = (c.storeBase p e v).setPort p (.acks a) := by
  have hp := c.storeBase_port (p := p) e hd
  have hin : Within Chip.storeBase_fx c (c.storeBase p e v) := Chip.storeBase_in (.refl _ _) (by decide +kernel)
  have hall : ((c.port p).lanes.all fun x => (c.port p).ownKeep.testBit (laneIndex p x)) = true := List.all_eq_true.2 hl
  have hag : ((c.storeBase p e v).port p).downshiftAgreed = false := by rw [hp]; rfl
  have ht : c.takeBase p e v = (c.storeBase p e v).tryT3 p := by
    unfold Chip.takeBase
    dsimp only
    rw [hf, hag, hall, hin.width_eq (by decide +kernel), if_neg (by simp), if_neg (by simp [hw]), if_neg (by simp), if_neg hn]
  rw [ht]
  exact Chip.tryT3_waits (by rw [hp, PortSt.withBase, ha]; rfl)

end

/-- A base infofield of `TRAIN_T2` that is no countdown frame. -/
theorem Chip.baseIn_base {c : Chip} {p e : Nat} {v : BitVec 160} (hl : (c.port p).link = .trainT2) (hp : ifField v 155 154 = 2)
    (he : ifField v 63 52 ≠ 0) : c.baseIn p e v = c.takeBase p e v := by
  unfold Chip.baseIn
  simp [hp, he, hl]

/-! A countdown frame (R72). -/

/-- A countdown frame in `TRAIN_T3`. -/
theorem Chip.baseIn_countdown {c : Chip} {p e : Nat} {v : BitVec 160} (hl : (c.port p).link = .trainT3) (hp : ifField v 155 154 = 3)
    (he : ifField v 63 52 ≠ 0 ∨ (c.port p).fast = true) : c.baseIn p e v = c.takeCountdown p (ifField v 133 130) := by
  unfold Chip.baseIn
  rcases he with he | he <;> simp [hp, he, hl]

/-- The pair engine as it awaits the partner's first codeword. -/
def PeSt.counted (x : PeSt) : PeSt := { x with rxScr := BitVec.ofNat 58 x.ifSeed, rxSeq := 0, mgmtWords := [], mgmtOk := true }

/-- The lane awaits the partner's codeword with `SEQ` 0, descrambled from the partner's seed. -/
def Chip.Awaits (c : Chip) (x : Nat) : Prop :=
  (c.pe x).rxScr = BitVec.ofNat 58 (c.pe x).ifSeed ∧ (c.pe x).rxSeq = 0 ∧ c.rd .PE_LANE_STATUS x = 1

theorem Chip.takeCountdown_eq (c : Chip) (p n : Nat) :
    c.takeCountdown p n = (c.setPort p fun s => { s with rxAt := some (c.root + n * c.frameEdges p) }).each
      ((c.setPort p fun s => { s with rxAt := some (c.root + n * c.frameEdges p) }).port p).rxLanes
      fun c e => (c.setPe e .counted).wrRow .PE_LANE_STATUS e 0 1 := rfl

theorem Chip.counted_awaits (c : Chip) (x : Nat) : ((c.setPe x .counted).wrRow .PE_LANE_STATUS x 0 1).Awaits x := by
  rw [Chip.Awaits, Chip.pe_wrRow, Chip.setPe_same, Chip.rd_wrRow_same]
  exact ⟨rfl, rfl, rfl⟩

theorem Chip.Awaits.counted {c : Chip} {x : Nat} (h : c.Awaits x) (e : Nat) :
    ((c.setPe e .counted).wrRow .PE_LANE_STATUS e 0 1).Awaits x := by
  by_cases hx : x = e
  · rw [hx]
    exact c.counted_awaits e
  · rwa [Chip.Awaits, Chip.pe_wrRow, Chip.setPe_other _ _ _ _ hx, Chip.rd_wrRow_other _ _ _ _ _ _ _ _ (by simp [hx]) (.inl (by decide))]

section
variable (c : Chip) (p n : Nat)

theorem Chip.takeCountdown_port :
    (c.takeCountdown p n).port p = { c.port p with rxAt := some (c.root + n * c.frameEdges p) } := by
  rw [Chip.takeCountdown_eq, Chip.each_same (fun d => d.port p) _ fun _ _ => ?_]
  · exact Chip.setPort_same ..
  · rw [Chip.port_wrRow, Chip.port_setPe]

theorem Chip.takeCountdown_ifSeed (x : Nat) : ((c.takeCountdown p n).pe x).ifSeed = (c.pe x).ifSeed := by
  rw [Chip.takeCountdown_eq, Chip.each_same (fun d => (d.pe x).ifSeed) _ fun d e => ?_]
  · rfl
  · rw [Chip.pe_wrRow]
    by_cases hx : x = e
    · rw [hx, Chip.setPe_same]; rfl
    · rw [Chip.setPe_other _ _ _ _ hx]

theorem Chip.takeCountdown_awaits {x : Nat} (hx : x ∈ (c.port p).rxLanes) : (c.takeCountdown p n).Awaits x := by
  rw [Chip.takeCountdown_eq]
  refine Chip.each_establishes (P := fun d => d.Awaits x) (fun _ e h => h.counted e) (fun d => d.counted_awaits x) ?_ _
  rwa [Chip.setPort_same]

end

/-! The own countdown ends (R35, R43, R72, R94). -/

/-- The pair engine as it starts PAM-16. -/
def PeSt.fresh16 (x : PeSt) : PeSt := { x with hist := [], msgOut := none }

/-- The controller as it starts PAM-16 at a root edge. -/
def PortSt.atPam16 (edge : Nat) (s : PortSt) : PortSt := { s with pam16 := true, seqAt := edge }

/-- What COUNTDOWN_END does in `TRAIN_T3` before PAM-16. -/
def Chip.startPam16 (c : Chip) (p : Nat) : Chip :=
  let d := (c.setPort p (.atPam16 (c.pamEdge p))).gridStart p (c.pamEdge p)
  d.each (d.port p).lanes fun c e => c.setPe e .fresh16

theorem execCountdownEnd_eq (p : PortNo) (s : State) :
    execCountdownEnd p s = s.run fun c => if (c.port p).link ≠ .trainT3 || (c.port p).pam16 then c else c.startPam16 p := rfl

section
variable (c : Chip) (p : Nat)

theorem Chip.startPam16_port : (c.startPam16 p).port p = (c.port p).atPam16 (c.pamEdge p) := by
  unfold Chip.startPam16
  dsimp only
  rw [Chip.each_same (fun d => d.port p) (fun c e => c.setPe e .fresh16) fun _ _ => rfl,
    (Chip.gridStart_in (.refl Chip.gridStart_fx _) (by decide +kernel)).port_eq (by decide +kernel), Chip.setPort_same]

theorem Chip.startPam16_dict : (c.startPam16 p).dict = c.dict := by
  unfold Chip.startPam16
  exact Chip.each_same Chip.dict (fun c e => c.setPe e .fresh16) (fun _ _ => rfl) _ _

theorem Chip.startPam16_pe {e : Nat} (he : e ∈ (c.port p).lanes) :
    ((c.startPam16 p).pe e).hist = [] ∧ ((c.startPam16 p).pe e).msgOut = none := by
  unfold Chip.startPam16
  dsimp only
  refine Chip.each_establishes (a := e) (P := fun d => (d.pe e).hist = [] ∧ (d.pe e).msgOut = none) (fun d x h => ?_) (fun d => ?_) ?_ _
  · by_cases hx : e = x
    · rw [hx, Chip.setPe_same]
      exact ⟨rfl, rfl⟩
    · rwa [Chip.setPe_other _ _ _ _ hx]
  · rw [Chip.setPe_same]
    exact ⟨rfl, rfl⟩
  · rwa [(Chip.gridStart_in (.refl Chip.gridStart_fx _) (by decide +kernel)).port_eq (by decide +kernel), Chip.setPort_same]

end

end Sys2Proof.Machine
end

section
/-!
PROOFS. The entry to `LINK_UP`: after a passed verification, or a completed clause training (R71, R73, R79).
-/
set_option Elab.async false
namespace Sys2Proof.Machine

/-- The controller of a port that enters `LINK_UP`. -/
def PortSt.entered (s : PortSt) : PortSt := { s with link := .up, noFast := false }

/-- The port has entered `LINK_UP`, and the time of the entry is kept (R79). -/
def Chip.enteredUp (c : Chip) (p : Nat) : Chip := (c.setPort p .entered).wr .TIME_LAST_UP p c.now96

/-- What the entry does then to the stores and the records of the controller's lanes (R76, R79). -/
def Chip.upStores (c : Chip) (p : Nat) (m : LineMode) (s : PortSt) (epoch cls : Nat) : Chip :=
  let c := c.wr .TRAIN_TIME p ((c.root - s.t0Root) / 16000)
  let c := c.each s.lanes fun c e => c.retain e m epoch cls
  let c := if !s.fast && m.isW then (c.each s.lanes fun c e => c.storeRecord e m epoch cls).wr .LINK_EPOCH p epoch else c
  ((c.resumeAll s.lanes).phase p 4).raise .linkUp (Cls.port.addr p) m.code

/-- What the entry starts at last, beside low-power idle. -/
def Chip.upStarts (c : Chip) (p : Nat) (print : Bool) : Chip :=
  let c := ((c.ancPortDrives p).schedUp p).lqLinkUp p
  if print then c.fpStore p else c

theorem Chip.enterUp_eq {c : Chip} {p : Nat} {m : LineMode} (hm : (c.port p).mode = some m) :
    ∃ epoch print, c.enterUp p =
      (((c.enteredUp p).upStores p m (c.port p) epoch (c.rd .TRAIN_CLASS p)).lpiUp p).upStarts p print := by
  unfold Chip.enterUp
  dsimp only
  rw [hm]
  exact ⟨_, _, rfl⟩

/-- What the work on the stores may change. -/
def Chip.upStores_fx : Fx :=
  .union [Chip.retain_fx, Chip.storeRecord_fx, Chip.resumeAll_fx, Chip.phase_fx, .of [.ev] [.TRAIN_TIME, .LINK_EPOCH]]

theorem Chip.upStores_in (c : Chip) (p : Nat) (m : LineMode) (s : PortSt) (epoch cls : Nat) :
    Within Chip.upStores_fx c (c.upStores p m s epoch cls) := by
  unfold Chip.upStores
  have h : Within Chip.upStores_fx c ((c.wr .TRAIN_TIME p ((c.root - s.t0Root) / 16000)).each s.lanes
      fun c e => c.retain e m epoch cls) :=
    Within.each (fun _ _ h => Chip.retain_in h (by decide +kernel)) ((Within.refl _ _).wr (by decide +kernel))
  exact Within.raise (Chip.phase_in (Chip.resumeAll_in (Within.ite (Within.wr (Within.each (fun _ _ h =>
    Chip.storeRecord_in h (by decide +kernel)) h) (by decide +kernel)) h) (by decide +kernel)) (by decide +kernel)) (by decide +kernel)

/-- What the last starts may change. -/
def Chip.upStarts_fx : Fx := .union [Chip.ancPortDrives_fx, Chip.schedUp_fx, Chip.lqLinkUp_fx, Chip.fpStore_fx]

theorem Chip.upStarts_in (c : Chip) (p : Nat) (print : Bool) : Within Chip.upStarts_fx c (c.upStarts p print) := by
  have h : Within Chip.upStarts_fx c (((c.ancPortDrives p).schedUp p).lqLinkUp p) :=
    Chip.lqLinkUp_in (Chip.schedUp_in (Chip.ancPortDrives_in (.refl _ _) (by decide +kernel)) (by decide +kernel)) (by decide +kernel)
  exact (Chip.fpStore_in h (by decide +kernel)).ite h

theorem Chip.lpiUp_port (c : Chip) (p : Nat) : ∃ l, (c.lpiUp p).port p = { c.port p with lpi := l } :=
  ⟨_, by rw [Chip.lpiUp, Chip.wr_eq, Chip.wr_eq, Chip.port_wrRow, Chip.port_wrRow, Chip.setLpi_port]⟩

/-- A port that has a mode enters `LINK_UP` in it, and the time of the entry is kept (R79). -/
theorem Chip.enterUp_up {c : Chip} {p : Nat} {m : LineMode} (hm : (c.port p).mode = some m) :
    let d := c.enterUp p
    (d.port p).link = .up ∧ (d.port p).noFast = false ∧ (d.port p).mode = some m ∧ d.rd .TIME_LAST_UP p = c.now96 % 2 ^ 96 ∧
      Stays c d .T3_MARGIN_MIN p := by
  obtain ⟨epoch, print, he⟩ := Chip.enterUp_eq hm
  have ha := (c.enteredUp p).upStores_in p m (c.port p) epoch (c.rd .TRAIN_CLASS p)
  obtain ⟨l, hl⟩ := ((c.enteredUp p).upStores p m (c.port p) epoch (c.rd .TRAIN_CLASS p)).lpiUp_port p
  have hi : Within Chip.lpiUp_fx ((c.enteredUp p).upStores p m (c.port p) epoch (c.rd .TRAIN_CLASS p)) _ :=
    Chip.lpiUp_in (p := p) (.refl _ _) (by decide +kernel)
  have hd := Chip.upStarts_in (((c.enteredUp p).upStores p m (c.port p) epoch (c.rd .TRAIN_CLASS p)).lpiUp p) p print
  rw [← he] at hd
  have hport : (c.enterUp p).port p = { (c.port p).entered with lpi := l } := by
    rw [hd.port_eq (by decide +kernel), hl, ha.port_eq (by decide +kernel), Chip.enteredUp, Chip.wr_eq, Chip.port_wrRow,
      Chip.setPort_same]
  have hrd : ∀ r ∈ [Reg.TIME_LAST_UP, .T3_MARGIN_MIN], (c.enterUp p).rd r p = (c.enteredUp p).rd r p := fun r hr => by
    rw [hd.rd (by revert r; decide +kernel) (by decide +kernel), hi.rd (by revert r; decide +kernel) (by decide +kernel),
      ha.rd (by revert r; decide +kernel) (by decide +kernel)]
  dsimp only
  rw [hport, Stays, hrd _ (by decide), hrd _ (by decide), Chip.enteredUp, Chip.wr_eq, Chip.rd_wrRow_same,
    Chip.rd_wrRow_reg _ _ _ _ _ _ _ _ (by decide) (by decide), Chip.rd_setPort]
  exact ⟨rfl, rfl, hm, rfl, rfl⟩

/-! A verification window ends (R71, R73, R108). -/

/-- The margin of each lane is shown. -/
def Chip.t3Shown (c : Chip) (p : Nat) : Chip :=
  c.each (c.port p).lanes fun c e => match (c.pe e).t3Margin with
    | some m => c.wrInt .PE_T3_MARGIN e m
    | none => c

/-- The margins of a window are shown: that of each lane, and the lowest. -/
def Chip.t3Measured (c : Chip) (p : Nat) : Chip :=
  let d := c.t3Shown p
  let ms := (c.port p).lanes.filterMap fun e => (d.pe e).t3Margin
  if ms = [] then d else d.wrInt .T3_MARGIN_MIN p (ms.foldl min (ms.headD 0))

/-- A window that every lane has passed: the margins are shown, and `T3_PASS` of each lane. -/
def Chip.t3Verified (c : Chip) (p : Nat) : Chip :=
  (c.t3Measured p).each (c.port p).lanes fun c e => c.setBit .PE_TRAIN_STATUS e 1 true

/-- T3_VERIFY_PASS when every lane has passed. -/
theorem execT3VerifyPass_passed {p : PortNo} {pick : BitVec 8} {s : State} (hl : (s.chip.port p).link = .trainT3)
    (hp : (s.chip.port p).pam16 = true) (hr : (s.chip.port p).rxAt.any (fun r => r ≤ s.chip.root) = true)
    (hn : (s.chip.port p).lanes ≠ []) (hb : ∀ e ∈ (s.chip.port p).lanes, (s.chip.t3Measured p).t3Pass p e = true) :
    ∃ f, execT3VerifyPass p pick s = s.run f ∧
      f s.chip = (s.chip.t3Verified p).enterUp p := by
  have hbad : ((s.chip.port p).lanes.filter fun e => !(s.chip.t3Measured p).t3Pass p e) = [] :=
    List.filter_eq_nil_iff.2 fun e he => by simp [hb e he]
  have hg : ¬ (decide ((s.chip.port p).link ≠ .trainT3) || !(s.chip.port p).pam16
      || !(s.chip.port p).rxAt.any (fun r => r ≤ s.chip.root) || decide ((s.chip.port p).lanes = [])) = true := by
    rw [hp, hr]
    simp [hl, hn]
  exact ⟨_, rfl, (if_neg hg).trans (if_pos hbad)⟩

/-- Where the controllers may not change, a frame lasts as long as before. -/
theorem Within.frameEdges_eq {x : Fx} {c d : Chip} (h : Within x c d) (hp : x.hasPart .ports = false) (p : Nat) :
    d.frameEdges p = c.frameEdges p := by
  rw [Chip.frameEdges, Chip.frameEdges, h.port_eq hp]

theorem ofInt_lt (w : Nat) (x : Int) : ofInt w x < 2 ^ w := by
  have h := Int.emod_lt_of_pos x (show (0 : Int) < 2 ^ w by positivity)
  have h0 := Int.emod_nonneg x (show ((2 : Int) ^ w) ≠ 0 by positivity)
  unfold ofInt
  have hc : ((2 ^ w : Nat) : Int) = 2 ^ w := by push_cast; rfl
  omega

section
variable (c : Chip) (p : Nat)

theorem Chip.t3Shown_in : Within (.of [] [.PE_T3_MARGIN]) c (c.t3Shown p) :=
  Within.each (fun _ _ h => by
    split
    · exact h.wrInt (by decide +kernel)
    · exact h) (.refl _ _)

theorem Chip.t3Measured_in : Within (.of [] [.PE_T3_MARGIN, .T3_MARGIN_MIN]) c (c.t3Measured p) := by
  have h := (c.t3Shown_in p).mono (y := .of [] [.PE_T3_MARGIN, .T3_MARGIN_MIN]) (by decide +kernel)
  exact h.ite (h.wrInt (by decide +kernel))

/-- Showing the margins leaves what a lane's verification is judged by. -/
theorem Chip.t3Measured_pass (e : Nat) : (c.t3Measured p).t3Pass p e = c.t3Pass p e := by
  have hin := c.t3Measured_in p
  rw [Chip.t3Pass, Chip.t3Pass, Chip.skewOk, Chip.skewOk, Chip.rdInt, Chip.rdInt, hin.pe_eq (by decide +kernel),
    hin.frameEdges_eq (by decide +kernel), hin.rd (by decide +kernel) (by decide +kernel)]

theorem Chip.t3Measured_min {ms : List Int} (hms : ((c.port p).lanes.filterMap fun e => (c.pe e).t3Margin) = ms) (hn : ms ≠ []) :
    (c.t3Measured p).rd .T3_MARGIN_MIN p = ofInt (Reg.width .T3_MARGIN_MIN) (ms.foldl min (ms.headD 0)) := by
  unfold Chip.t3Measured
  simp only [(c.t3Shown_in p).pe_eq (show Fx.hasPart _ .pes = false by decide +kernel)]
  rw [hms, if_neg hn, Chip.wrInt_eq, Chip.rd_wrRow_same]
  exact Nat.mod_eq_of_lt (ofInt_lt _ _)

/-- A verified port that has a mode enters `LINK_UP` with its lowest margin shown (R71, R79). -/
theorem Chip.t3Verified_up {m : LineMode} {ms : List Int} (hm : (c.port p).mode = some m)
    (hms : ((c.port p).lanes.filterMap fun e => (c.pe e).t3Margin) = ms) (hn : ms ≠ []) :
    let d := (c.t3Verified p).enterUp p
    (d.port p).link = .up ∧ (d.port p).noFast = false ∧
      d.rd .T3_MARGIN_MIN p = ofInt (Reg.width .T3_MARGIN_MIN) (ms.foldl min (ms.headD 0)) ∧
      d.rd .TIME_LAST_UP p = c.now96 % 2 ^ 96 := by
  have hin := c.t3Measured_in p
  have hmark : Within (.of [] [.PE_TRAIN_STATUS]) (c.t3Measured p) (c.t3Verified p) :=
    Within.each (fun _ _ h => h.setBit (by decide +kernel)) (.refl _ _)
  have htb : (c.t3Verified p).tb = c.tb :=
    (hmark.part .tb (by decide +kernel) : (c.t3Verified p).tb = (c.t3Measured p).tb).trans (hin.part .tb (by decide +kernel))
  obtain ⟨hu, hx, -, hti, hmi⟩ := Chip.enterUp_up (c := c.t3Verified p) (p := p) (m := m)
    (by rw [hmark.port_eq (by decide +kernel), hin.port_eq (by decide +kernel), hm])
  refine ⟨hu, hx, ?_, ?_⟩
  · rw [hmi, hmark.rd (by decide +kernel) (by decide +kernel), c.t3Measured_min p hms hn]
  · rw [hti, Chip.now96, htb]
    rfl

end

/-- A lane with both margins of at least 3 dB, no failed codeword and a skew in range passes (Table 3-7). -/
theorem Chip.t3Pass_of {c : Chip} {p e : Nat} {a b : Int} (hb : (c.pe e).t3Bad = false)
    (hs : (c.rdInt .PE_RX_SKEW e).natAbs ≤ c.frameEdges p) (ha : (c.pe e).t3Margin = some a) (ha' : 768 ≤ a)
    (hq : (c.pe e).t3Partner = some b) (hq' : 768 ≤ b) : c.t3Pass p e = true := by
  simp [Chip.t3Pass, Chip.skewOk, hb, hs, ha, ha', hq, hq']

end Sys2Proof.Machine
end

section
set_option Elab.async false
open Sys2Proof Sys2Proof.Machine

/-- Settles O14: each command is taken to the phase that it begins, and to what it records on the way. -/
theorem trainingAdvances : Obligations.TrainingAdvances := by
  unfold Obligations.TrainingAdvances
  refine ⟨?_, ?_, ?_, ?_, ?_, ?_, ?_, ?_, ?_⟩
  · intro p r m s hl hm hg
    obtain ⟨f, he, hf⟩ := execT0TimerEnd_run (r := r) hl hm
    refine Answers.of_run he fun d hd => ?_
    rw [hf] at hd
    by_cases hfa : (s.chip.port p).fast = true
    · rw [if_pos hfa] at hd
      rw [hd.port_eq, Chip.enterT1_port, Within.port_eq (x := Chip.feTrims_fx)
        (Within.each (fun _ _ h => Chip.feTrims_in h (by decide +kernel)) (.refl _ _)) (by decide +kernel)]
      exact ⟨rfl, hm, rfl, fun h => absurd hfa (by simp [h])⟩
    · have hgate := hg.resolve_left hfa
      have hc : Within Chip.classDecision_fx s.chip (s.chip.classDecision p r) := Chip.classDecision_in (.refl _ _) (by decide +kernel)
      have hs := (s.chip.classDecision p r).t0Source_in p r m
      have ht : Within Chip.enterT1_fx ((s.chip.classDecision p r).t0Source p r m) _ :=
        Chip.enterT1_in (p := p) (.refl _ _) (by decide +kernel)
      rw [if_neg hfa, hc.rdBool (by decide +kernel) (by decide +kernel), hgate, Bool.false_and, if_neg (by decide)] at hd
      rw [hd.port_eq, Chip.enterT1_port, hs.port_eq (by decide +kernel), hc.port_eq (by decide +kernel), hd.rd _ rfl,
        ht.rd (by decide +kernel) (by decide +kernel)]
      exact ⟨rfl, hm, rfl, fun _ => (s.chip.classDecision p r).t0Source_source p r m⟩
  · intro p r s hl ht
    obtain ⟨f, he, hf⟩ := execT1Converged_run hl ht
    refine Answers.of_run he fun d hd => ?_
    rw [hf] at hd
    obtain ⟨⟨h2, hk, hn, hg, -⟩, hep⟩ := Chip.toT2_atT2
      ((s.chip.t1Done p (pairMask p (s.chip.port p).lanes) r.meas).markPairs p 2 r.inverted.toNat) p (pairMask p (s.chip.port p).lanes)
    rw [Chip.t1Recorded_port] at hep
    rw [hd.port_eq]
    exact ⟨h2, hk, hn, hg, hep⟩
  · intro p conv r s hl _ hc
    obtain ⟨f, he, hf⟩ := execT1Timeout_run hl hc
    refine Answers.of_run he fun d hd => ?_
    rw [hf] at hd
    obtain ⟨⟨h2, -, -, hg, hs⟩, -⟩ := Chip.toT2_atT2 _ p _
    rw [(Chip.markPairs_in (.refl Chip.markPairs_fx _) (by decide +kernel)).port_eq (by decide +kernel), Chip.t1Recorded_port] at hs
    rw [hd.port_eq]
    exact ⟨h2, hg, hs⟩
  · intro e v s hl hc hk ht ha
    obtain ⟨f, he, -, hf⟩ := execInfofieldReceived_run (.inl hl) hc hk
    obtain ⟨a, hw⟩ := Chip.tryT3_waits (c := s.chip.setPe e fun x => x.takeSeg (ifField v 151 144) (ifField v 143 16)) ha
    refine Answers.of_run he fun d hd => ?_
    rw [hf ht hl, hw] at hd
    refine ⟨?_, ?_, hd.cells⟩
    · rw [hd.pe_eq, Chip.pe_setPort, Chip.setPe_same]
    · rw [hd.port_eq, Chip.setPort_same]
      exact hl
  · intro e v s p hl hc hk ht hph hf hep hdn hw hall hno hack
    obtain ⟨f, he, hfb, -⟩ := execInfofieldReceived_run (.inl hl) hc hk
    obtain ⟨a, ha⟩ := s.chip.takeBase_keeps e hdn hf hw hall hno hack
    obtain ⟨lane, agreed, -, hst⟩ := s.chip.storeBase_eq p e v
    refine Answers.of_run he fun d hd => ?_
    rw [hfb ht, Chip.baseIn_base hl hph hep, ha] at hd
    have hport : d.port p = ((s.chip.port p).withBase v false).acks a := by
      rw [hd.port_eq, Chip.setPort_same, Chip.storeBase_port _ _ hdn]
    have hpe : d.pe e = (s.chip.pe e).withBase v := by
      rw [hd.pe_eq, Chip.pe_setPort, hst, Chip.pe_setPort, Chip.pe_wrRow, Chip.pe_wrRow, Chip.setPe_same]
    rw [hport, hpe]
    refine ⟨hl, rfl, rfl, rfl, rfl, rfl, rfl, rfl, ?_, rfl, hd.keeps ?_⟩
    · rw [hd.rd _ rfl, Chip.rd_setPort, hst, Chip.rd_setPort, Chip.rd_wrRow_reg _ _ _ _ _ _ _ _ (by decide) (by decide),
        Chip.rd_wrRow_same]
      exact Nat.mod_eq_of_lt ((bits_lt _ _ _).trans_le (by decide))
    · rw [hst]
      refine Chip.Keeps.wrRow (c := (s.chip.setPe e _).wrRow .PE_RX_SCR_SEED e 0 _) (Chip.Keeps.wrRow ?_ (.inl rfl)) (.inr rfl)
      exact fun _ _ _ => rfl
  · intro e v s p hl hc hk ht hph hep
    obtain ⟨f, he, hfb, -⟩ := execInfofieldReceived_run (.inr hl) hc hk
    refine Answers.of_run he fun d hd => ?_
    rw [hfb ht, Chip.baseIn_countdown hl hph hep] at hd
    refine ⟨by rw [hd.port_eq, Chip.takeCountdown_port], fun x hx => ?_, fun k hk hn => (hd.cells k hk id).trans ?_⟩
    · obtain ⟨hscr, hseq, hls⟩ := s.chip.takeCountdown_awaits p (ifField v 133 130) hx
      rw [hd.pe_eq, hd.rd _ rfl]
      exact ⟨hscr.trans (by rw [Chip.takeCountdown_ifSeed]), hseq, hls⟩
    · refine (Chip.takeCountdown_in (.refl Chip.takeCountdown_fx _) (by decide +kernel)).cell k (Bool.eq_false_iff.2 fun h => hn ?_)
      simpa using Fx.hasReg_of h
  · intro p s hl hp
    refine Answers.of_run (execCountdownEnd_eq p s) fun d hd => ?_
    rw [if_neg (by simp [hl, hp])] at hd
    refine ⟨by rw [hd.port_eq, Chip.startPam16_port]; rfl, fun e he => ?_, hd.keeps fun k _ _ => ?_⟩
    · rw [hd.pe_eq]
      exact s.chip.startPam16_pe p he
    · rw [Chip.startPam16_dict]
  · intro p pick m r s ms hl hp hr hrt hm hn hown hpart
    have hpass : ∀ e ∈ (s.chip.port p).lanes, (s.chip.t3Measured p).t3Pass p e = true := fun e he => by
      obtain ⟨hb, hs, a, ha, ha'⟩ := hown e he
      obtain ⟨b, hq, hq'⟩ := hpart e he
      rw [Chip.t3Measured_pass]
      exact Chip.t3Pass_of hb hs ha ha' hq hq'
    have hms : ms ≠ [] := by
      obtain ⟨e, he⟩ := List.exists_mem_of_ne_nil _ hn
      obtain ⟨-, -, a, ha, -⟩ := hown e he
      have hmem : a ∈ ms := List.mem_filterMap.2 ⟨e, he, ha⟩
      exact List.ne_nil_of_mem hmem
    obtain ⟨f, he, hf⟩ := execT3VerifyPass_passed (pick := pick) hl hp (by simp [hr, hrt]) hn hpass
    refine Answers.of_run he fun d hd => ?_
    rw [hf] at hd
    rw [hd.port_eq, hd.rd _ rfl, hd.rd _ rfl]
    exact s.chip.t3Verified_up p hm rfl hms
  · intro p m s hl hm
    refine Answers.of_run (execStdTrainComplete.eq_1 p true s) fun d hd => ?_
    rw [if_neg (not_not_intro hl), if_pos rfl] at hd
    obtain ⟨hu, -, hmo, hti, -⟩ := Chip.enterUp_up hm
    rw [hd.port_eq, hd.rd _ rfl]
    exact ⟨hu, hmo, hti⟩

end

section
/-!
PROOFS. Rules of the state for commands on one pair engine: what stays beside it.
-/
set_option Elab.async false
namespace Sys2Proof.Machine

theorem Chip.Keeps.refl (c : Chip) (P : Key → Prop) : c.Keeps c P := fun _ _ _ => rfl

theorem Chip.Keeps.setPe {b c : Chip} {P : Key → Prop} (h : b.Keeps c P) (e : Nat) (f : PeSt → PeSt) : b.Keeps (c.setPe e f) P := h

theorem Chip.OnlyPe.refl (c : Chip) (e : Nat) : c.OnlyPe c e := ⟨rfl, fun _ _ => rfl⟩

theorem Chip.OnlyPe.setPe {b c : Chip} {e : Nat} (h : b.OnlyPe c e) (f : PeSt → PeSt) : b.OnlyPe (c.setPe e f) e := by
  obtain ⟨hb, he⟩ := h
  refine ⟨?_, fun q hq => (Chip.setPe_other _ _ _ _ hq).trans (he q hq)⟩
  change ({ c.bare with pes := (c.setPe e f).pes } : Chip) = _
  rw [hb]

theorem Chip.OnlyPe.wrRow {b c : Chip} {e : Nat} (h : b.OnlyPe c e) (r : Reg) (i row v : Nat) : b.OnlyPe (c.wrRow r i row v) e := by
  obtain ⟨hb, he⟩ := h
  exact ⟨by rw [Chip.bare_wrRow, hb, Chip.wrRow_pes], fun q hq => (Chip.pe_wrRow ..).trans (he q hq)⟩

theorem Chip.OnlyPe.access {b c : Chip} {e : Nat} (h : b.OnlyPe c e) (a : Access) : b.OnlyPe { c with access := a } e := h

theorem EvFrame.onlyPe {b c d : Chip} {e : Nat} (h : EvFrame c d) (ho : b.OnlyPe c e) : b.OnlyPe d e := by
  obtain ⟨hb, he⟩ := ho
  exact ⟨by rw [h.bare, h.pes_eq, hb], fun q hq => (h.pe_eq q).trans (he q hq)⟩

/-- A command whose effect on this block is known answers a next state with whatever that effect makes true. -/
theorem Answers.of_runs {i : Instr} {s : State} {c : Chip} {P : Chip → Prop} (h : ∃ f, exec i s = s.run f ∧ f s.chip = c)
    (hP : ∀ d, EvFrame c d → P d) : Answers i s P := by
  obtain ⟨f, he, rfl⟩ := h
  exact Answers.of_run he hP

end Sys2Proof.Machine
end

section
/-!
PROOFS. The management messages of lane status and of the precoder, and the precoder updates (R102 to R106).
-/
set_option Elab.async false
namespace Sys2Proof.Machine

/-! Tap sets. -/

/-- Writing the places from `first` on that do not lie above `n`: each place in reach then holds its value, and the others stay. -/
theorem Tab.getD_putFrom (g : Nat → Nat) (first n m : Nat) (t : Tab Nat Nat) (k : Nat) :
    Tab.getD ((List.range m).foldl (fun t i => if first + i ≤ n then t.put (first + i) (g i) else t) t) (first + k) 0
      = if k < m ∧ first + k ≤ n then g k else t.getD (first + k) 0 := by
  induction m with
  | zero => simp
  | succ m ih =>
    rw [List.range_succ, List.foldl_append, List.foldl_cons, List.foldl_nil]
    rcases eq_or_ne k m with rfl | hk
    · by_cases hn : first + k ≤ n
      · simp [hn, Tab.getD_def]
      · simpa [hn] using ih
    · have hlt : (k < m + 1 ∧ first + k ≤ n) ↔ (k < m ∧ first + k ≤ n) := by omega
      simp only [hlt, ← ih]
      split
      · rw [Tab.getD_def, Tab.getD_def, Tab.get?_put_other _ _ _ _ (by omega)]
      · rfl

/-- The words at base `b` of the places that a set of taps names, written one after another (R104). -/
def PeSt.putWords (b : Nat) (l : Tab Nat Nat) (x : PeSt) : PeSt := l.foldl (fun a t => a.putWord (b + t.1) t.2) x

/-- Words at places that the set does not name stay. -/
theorem PeSt.word_putWords_other (b : Nat) (l : Tab Nat Nat) (x : PeSt) (k : Nat) (h : k ∉ l.map Prod.fst) :
    (x.putWords b l).word (b + k) = x.word (b + k) := by
  induction l generalizing x with
  | nil => rfl
  | cons t l ih =>
    rw [List.map_cons, List.mem_cons, not_or] at h
    obtain ⟨ht, hl⟩ := h
    refine (ih _ hl).trans ?_
    rw [PeSt.word_putWord, if_neg (by omega)]

/-- Where the set names each place once, the word at a place it names takes the set's value. -/
theorem PeSt.word_putWords (b : Nat) (l : Tab Nat Nat) (x : PeSt) (k : Nat) (hd : (l.map Prod.fst).Nodup)
    (h : k ∈ l.map Prod.fst) : (x.putWords b l).word (b + k) = l.getD k 0 % 65536 &&& wordMask (b + k) := by
  induction l generalizing x with
  | nil => exact absurd h List.not_mem_nil
  | cons t l ih =>
    rw [List.map_cons, List.nodup_cons] at hd
    obtain ⟨ht, hl⟩ := hd
    rw [Tab.getD_def, Tab.get?_cons]
    by_cases hk : k = t.1
    · subst hk
      rw [if_pos rfl]
      refine (PeSt.word_putWords_other b l _ _ ht).trans ?_
      rw [PeSt.word_putWord, if_pos rfl]
      rfl
    · rw [if_neg hk, ← Tab.getD_def]
      exact ih _ hl ((List.mem_cons.1 h).resolve_left hk)

theorem LineMode.preTaps_le (m : LineMode) : m.preTaps ≤ 40 := by cases m <;> decide

/-- The store holds every bit of the precoder's words (Table 4-7). -/
theorem wordMask_precoder {k : Nat} (h : k < 40) : wordMask (0x90 + k) = 0xFFFF := by
  have hs : 0x80 ≤ 0x90 + k ∧ 0x90 + k < 0xB8 := by omega
  have hr : ∀ j ≤ 5, 0x90 + k ≠ j := fun j hj => by omega
  simp only [wordMask, hr, hs, Nat.le_refl, Nat.reduceLeDiff, decide_false, decide_true, Bool.or_false, Bool.and_true, Bool.or_true,
    Bool.true_or, Bool.false_eq_true, if_false, if_true]

/-- A set of K taps, numbered 1 to K, stands in the K words of the precoder once it is written (R104). -/
theorem PeSt.word_applied {u : PreIn} {m : LineMode} (x : PeSt) (hu : u.taps.map Prod.fst = (List.range m.preTaps).map fun k => k + 1)
    {k : Nat} (hk : k < m.preTaps) : (x.putWords 0x8F u.taps).word (0x90 + k) = u.taps.getD (k + 1) 0 % 65536 := by
  have hd : (u.taps.map Prod.fst).Nodup := by
    rw [hu]
    exact List.nodup_range.map fun a b h => Nat.succ.inj h
  have hmem : k + 1 ∈ u.taps.map Prod.fst := by
    rw [hu]
    exact List.mem_map.2 ⟨k, List.mem_range.2 hk, rfl⟩
  rw [show 0x90 + k = 0x8F + (k + 1) by omega, PeSt.word_putWords _ _ _ _ hd hmem, show 0x8F + (k + 1) = 0x90 + k by omega,
    wordMask_precoder (hk.trans_le m.preTaps_le)]
  exact (Nat.and_two_pow_sub_one_eq_mod _ 16).trans (Nat.mod_mod _ _)

/-! The messages (R102, R104). -/

/-- The taps of an update's message are added to those already collected: five from the first on, up to tap K (Table 4-4). -/
def collectTaps (v n : Nat) (t : Tab Nat Nat) : Tab Nat Nat :=
  (List.range 5).foldl (fun t k =>
    if bits v 111 106 + k ≤ n then t.put (bits v 111 106 + k) (bits v (103 - 16 * k) (88 - 16 * k)) else t) t

theorem getD_collectTaps (v n : Nat) (t : Tab Nat Nat) {k : Nat} (hk : k < 5) :
    (collectTaps v n t).getD (bits v 111 106 + k) 0
      = if bits v 111 106 + k ≤ n then bits v (103 - 16 * k) (88 - 16 * k) else t.getD (bits v 111 106 + k) 0 := by
  refine (Tab.getD_putFrom (fun k => bits v (103 - 16 * k) (88 - 16 * k)) _ _ _ _ _).trans ?_
  simp only [hk, true_and]

/-- An acknowledgement marks the own update that it names (R104). -/
def PeSt.takeAck (x : PeSt) (id switchSeq : Nat) : PeSt :=
  { x with preOut := x.preOut.map fun u => if u.id = id && u.switchSeq = switchSeq then { u with acked := true } else u }

/-- The update that a message with this number belongs to: the one being collected, or a new one (R104). -/
def PeSt.updateFor (x : PeSt) (id switchSeq : Nat) : PreIn :=
  match x.preIn with
  | some u => if u.id = id then u else ⟨id, switchSeq, []⟩
  | none => ⟨id, switchSeq, []⟩

/-- A message of an update is collected (R104). -/
def PeSt.takeTaps (x : PeSt) (id switchSeq v n : Nat) : PeSt :=
  { x with preIn := some { x.updateFor id switchSeq with taps := collectTaps v n (x.updateFor id switchSeq).taps } }

/-- MC_PRECODER with a sound message on a live lane (R102, R104). -/
theorem execMcPrecoder_run {e : PeNo} {msg : BitVec 128} {m : LineMode} {s : State}
    (hm : (s.chip.port (s.chip.portOf e)).mode = some m) (hl : s.chip.laneLive e = true) (hc : mgmtCheck msg = true)
    (ht : mgmtType msg = 0x04) :
    ∃ f, execMcPrecoder e msg s = s.run f ∧
      f s.chip = if bits msg.toNat 111 106 = 0
        then s.chip.setPe e fun x => x.takeAck (bits msg.toNat 119 112) (bits msg.toNat 23 16)
        else s.chip.setPe e fun x => x.takeTaps (bits msg.toNat 119 112) (bits msg.toNat 23 16) msg.toNat m.preTaps := by
  refine ⟨_, execMcPrecoder.eq_1 e msg s, ?_⟩
  simp only [hm, hl, hc, ht]
  rfl

/-! The start of an update (R102, R103). -/

theorem Chip.startUpdate_pe (c : Chip) (e k : Nat) (taps : List Nat) (pick : Nat) :
    (c.startUpdate e k taps pick).pe e =
      { c.pe e with
        preOut := some ⟨((c.pe e).preId + 1) % 256, ((c.pe e).rxSeq + 255 + 112 + pick % 81) % 256, false⟩
        preId := ((c.pe e).preId + 1) % 256, newTaps := taps, preSend := precoderFirsts k } :=
  Chip.setPe_same ..

theorem tapsMoved_of {new old : List Nat} (h : ∃ k, k < new.length ∧ 16 < tapDiff (new.getD k 0) (old.getD k 0)) :
    tapsMoved new old = true := by
  obtain ⟨k, hk, hd⟩ := h
  exact List.any_eq_true.2 ⟨k, List.mem_range.2 hk, decide_eq_true hd⟩

/-- A computed set that passes every check of R103 starts an update. -/
theorem execPrecoderUpdateStart_starts {e : PeNo} {taps : List (BitVec 16)} {pick : BitVec 8} {m : LineMode} {s : State}
    (hu : s.chip.up (s.chip.portOf e) = true) (hl : s.chip.laneLive e = true) (hd : (s.chip.pe e).dropped = false)
    (hm : (s.chip.port (s.chip.portOf e)).mode = some m) (hn : taps.length = m.preTaps) (ho : (s.chip.pe e).preOut = none)
    (hr : ∀ r, (s.chip.pe e).preLast = some r → r + 16000000 ≤ s.chip.root)
    (ht : tapsMoved (taps.map BitVec.toNat) (s.chip.pe e).reqTaps = true) :
    ∃ f, execPrecoderUpdateStart e taps pick s = s.run f ∧
      f s.chip = s.chip.startUpdate e m.preTaps (taps.map BitVec.toNat) pick.toNat := by
  have hlast : (s.chip.pe e).preLast.any (fun r => decide (s.chip.root < r + rootUs 1000)) = false := by
    rw [Option.any_eq_false]
    intro r hp
    have h := hr r hp
    refine decide_eq_false ?_
    rw [rootUs]
    omega
  refine ⟨_, execPrecoderUpdateStart.eq_1 e taps pick s, ?_⟩
  simp [hm, hu, hl, hd, ho, hn, ht, hlast]

/-! The switch (R104 to R106). -/

/-- Where the formations may not change, a pair engine stays with its port. -/
theorem Within.portOf_eq {x : Fx} {c d : Chip} (h : Within x c d) (hq : x.hasReg .QUAD_FORMATION = false) (e : Nat) :
    d.portOf e = c.portOf e := by
  rw [Chip.portOf, Chip.portOf, Chip.formation_eq_rd, Chip.formation_eq_rd, h.rd hq hq]

/-- The transmitter's switch codeword comes (R104). -/
theorem execPrecoderSwitch_tx {e : PeNo} {u : PreIn} {m : LineMode} {s : State}
    (hm : (s.chip.port (s.chip.portOf e)).mode = some m) (hi : (s.chip.pe e).preIn = some u) :
    ∃ f, execPrecoderSwitch e true s = s.run f ∧ f s.chip = s.chip.preApply e u m := by
  refine ⟨_, execPrecoderSwitch.eq_1 e true s, ?_⟩
  simp only [hm, hi, if_true]

/-- The requester's switch codeword comes (R105). -/
theorem execPrecoderSwitch_rx {e : PeNo} {u : PreOut} {m : LineMode} {s : State}
    (hm : (s.chip.port (s.chip.portOf e)).mode = some m) (ho : (s.chip.pe e).preOut = some u) :
    ∃ f, execPrecoderSwitch e false s = s.run f ∧ f s.chip = s.chip.preAdjust e u m := by
  refine ⟨_, execPrecoderSwitch.eq_1 e false s, ?_⟩
  simp only [hm, ho, Bool.false_eq_true, if_false]

section
variable {c : Chip} {e : Nat} {m : LineMode}

/-- A complete update that no freeze and no link state holds back is applied (R104). -/
theorem Chip.preApply_complete {u : PreIn} (hn : u.taps.length = m.preTaps) (hf : c.rdBool .PE_COEF_FREEZE e = false)
    (hu : c.up (c.portOf e) = true) :
    c.preApply e u m = (c.setPe e fun x => { x.putWords 0x8F u.taps with preIn := none }).inc .PE_PRECODER_APPLIED e :=
  if_pos (by simp [hn, hf, hu])

theorem Chip.preApply_incomplete {u : PreIn} (hn : u.taps.length ≠ m.preTaps) :
    c.preApply e u m = (c.setPe e fun x => { x with preIn := none }).inc .PE_PRECODER_ABANDONED e :=
  if_neg (by simp [hn])

/-- The requester no longer waits for its update (R105). -/
def Chip.updateOver (c : Chip) (e : Nat) : Chip :=
  c.setPe e fun x => { x with preOut := none, preSend := [], preLast := some c.root }

theorem Chip.preAdjust_acked {u : PreOut} (ha : u.acked = true) (hs : (c.pe e).preSend = [])
    (hf : c.rdBool .PE_COEF_FREEZE e = false) :
    c.preAdjust e u m = (c.updateOver e).setPe e fun x => { x with reqTaps := x.newTaps } :=
  if_pos (by simp [ha, hs, hf])

/-- Without an acknowledgement the update is counted as abandoned, and a new one follows with a free switch point (R105). -/
theorem Chip.preAdjust_unacked {u : PreOut} (ha : u.acked = false) (hf : c.rdBool .PE_COEF_FREEZE e = false)
    (hu : c.up (c.portOf e) = true) :
    ∃ pick, c.preAdjust e u m =
      ((c.updateOver e).inc .PE_PRECODER_ABANDONED e).draw.2.startUpdate e m.preTaps (c.pe e).newTaps pick := by
  have hin : Within (.of [.pes] [.PE_PRECODER_ABANDONED]) c ((c.updateOver e).inc .PE_PRECODER_ABANDONED e) :=
    ((Within.refl _ _).setPe (by decide +kernel)).inc (by decide +kernel)
  have hq := hin.portOf_eq (by decide +kernel) e
  have hup : ((c.updateOver e).inc .PE_PRECODER_ABANDONED e).up (c.portOf e) = true := by
    rw [Chip.up, hin.port_eq (by decide +kernel)]
    exact hu
  refine ⟨_, (if_neg (by simp [ha])).trans (if_neg ?_)⟩
  change ¬ (u.acked || c.rdBool .PE_COEF_FREEZE e || !((c.updateOver e).inc .PE_PRECODER_ABANDONED e).up
    (((c.updateOver e).inc .PE_PRECODER_ABANDONED e).portOf e)) = true
  simp [ha, hf, hq, hup]

end

end Sys2Proof.Machine
end

section
set_option Elab.async false
open Sys2Proof Sys2Proof.Machine

/-- Settles O10: each message and each switch is taken to what it makes of the pair engine's record, and the words of a set of taps
numbered 1 to K are read back one by one. -/
theorem laneMessagesAndPrecoderUpdates : Obligations.LaneMessagesAndPrecoderUpdates := by
  unfold Obligations.LaneMessagesAndPrecoderUpdates
  refine ⟨?_, ?_, ?_, ?_, ?_, ?_, ?_, ?_⟩
  · intro e msg s hl hc ht
    refine Answers.of_run (execMcLaneStatus.eq_1 e msg s) fun d hd => ?_
    rw [if_pos (by simp [hl, hc, ht])] at hd
    exact ⟨by rw [hd.pe_eq, Chip.setPe_same], hd.onlyPe ((Chip.OnlyPe.refl ..).setPe _), hd.cells⟩
  · intro e msg u s hl hc ht hf hu hi hs
    obtain ⟨m, hm, -⟩ := Chip.mode_of_laneLive hl
    refine Answers.of_runs (execMcPrecoder_run hm hl hc ht) fun d hd => ?_
    rw [if_pos hf] at hd
    refine ⟨?_, hd.onlyPe ((Chip.OnlyPe.refl ..).setPe _), hd.cells⟩
    rw [hd.pe_eq, Chip.setPe_same, PeSt.takeAck, hu, Option.map_some, if_pos (by simp [hi, hs])]
  · intro e msg m s first hl hc ht hf hm hi
    refine Answers.of_runs (execMcPrecoder_run hm hl hc ht) fun d hd => ?_
    rw [if_neg hf] at hd
    refine ⟨⟨⟨bits msg.toNat 119 112, bits msg.toNat 23 16, collectTaps msg.toNat m.preTaps []⟩, ?_, rfl, rfl, fun k => ?_⟩,
      hd.onlyPe ((Chip.OnlyPe.refl ..).setPe _), hd.cells⟩
    · rw [hd.pe_eq, Chip.setPe_same, PeSt.takeTaps, PeSt.updateFor, hi]
    · rw [getD_collectTaps _ _ _ k.isLt]
      rfl
  · intro e taps pick m s hu hl hd hm hn ho hr ht
    have hmoved := tapsMoved_of (new := taps.map BitVec.toNat) (by simpa using ht)
    refine Answers.of_runs (execPrecoderUpdateStart_starts hu hl hd hm hn ho hr hmoved) fun d hd => ?_
    rw [hd.pe_eq, Chip.startUpdate_pe]
    exact ⟨rfl, rfl, rfl, rfl, hd.cells⟩
  · intro e u m s hi hm hk hf hu
    refine Answers.of_runs (execPrecoderSwitch_tx hm hi) fun d hd => ?_
    rw [Chip.preApply_complete (by simpa using congrArg List.length hk) hf hu] at hd
    refine ⟨fun k hkm => ?_, ?_, ?_, ?_, hd.onlyPe (((Chip.OnlyPe.refl ..).setPe _).wrRow ..),
      hd.keeps (((Chip.Keeps.refl _ _).setPe _ _).wrRow rfl)⟩
    · rw [hd.pe_eq, Chip.inc_eq, Chip.pe_wrRow, Chip.setPe_same]
      exact PeSt.word_applied _ hk hkm
    · rw [hd.pe_eq, Chip.inc_eq, Chip.pe_wrRow, Chip.setPe_same]
    · rw [Counts, hd.rd _ rfl, Chip.inc_eq, Chip.rd_wrRow_same, Chip.rd_setPe]
    · rw [Stays, hd.rd _ rfl, Chip.inc_eq, Chip.rd_wrRow_reg _ _ _ _ _ _ _ _ (by decide) (by decide), Chip.rd_setPe]
  · intro e u m s hi hm hn
    refine Answers.of_runs (execPrecoderSwitch_tx hm hi) fun d hd => ?_
    rw [Chip.preApply_incomplete hn] at hd
    refine ⟨?_, ?_, hd.onlyPe (((Chip.OnlyPe.refl ..).setPe _).wrRow ..), hd.keeps (((Chip.Keeps.refl _ _).setPe _ _).wrRow rfl)⟩
    · rw [hd.pe_eq, Chip.inc_eq, Chip.pe_wrRow, Chip.setPe_same]
    · rw [Counts, hd.rd _ rfl, Chip.inc_eq, Chip.rd_wrRow_same, Chip.rd_setPe]
  · intro e u s hm ho ha hs hf
    obtain ⟨m, hm⟩ := Option.ne_none_iff_exists'.1 hm
    refine Answers.of_runs (execPrecoderSwitch_rx hm ho) fun d hd => ?_
    rw [Chip.preAdjust_acked ha hs hf] at hd
    refine ⟨?_, hd.onlyPe (((Chip.OnlyPe.refl ..).setPe _).setPe _), hd.cells⟩
    rw [hd.pe_eq, Chip.setPe_same, Chip.updateOver, Chip.setPe_same]
    exact congrArg (fun l => { s.chip.pe e with
      preOut := none, preSend := l, preLast := some s.chip.root, reqTaps := (s.chip.pe e).newTaps }) hs.symm
  · intro e u s hm ho ha hf hu
    obtain ⟨m, hm⟩ := Option.ne_none_iff_exists'.1 hm
    refine Answers.of_runs (execPrecoderSwitch_rx hm ho) fun d hd => ?_
    obtain ⟨pick, hp⟩ := Chip.preAdjust_unacked (m := m) ha hf hu
    rw [hp] at hd
    have hpe : ((s.chip.updateOver e).inc .PE_PRECODER_ABANDONED e).draw.2.pe e = (s.chip.updateOver e).pe e :=
      Chip.pe_wrRow ..
    rw [hd.pe_eq, Chip.startUpdate_pe, hpe, Chip.updateOver, Chip.setPe_same]
    exact ⟨rfl, rfl, ⟨pick % 81, by omega, rfl⟩,
      hd.keeps (((Chip.Keeps.refl _ _).setPe _ _).wrRow (c := s.chip.updateOver e) rfl)⟩

end

section
/-!
PROOFS. A write of a table changes the first entry of a key, and the write-back of register copies ends with the last (R109).
-/
set_option Elab.async false
namespace Sys2Proof.Machine

/-- What a command is said to leave holds of a block that is as its own effect left it. -/
theorem Answers.effect {i : Instr} {s : State} {f : Chip → Chip} {P : Chip → Prop} (h : Answers i s P) (he : exec i s = s.run f) :
    ∃ d, EvFrame (f s.chip) d ∧ P d := by
  obtain ⟨t, ht, -, hP⟩ := h
  obtain ⟨u, hu, -, hf⟩ := State.run_answers s f
  obtain rfl : t = u := Host.Outcome.next.inj (ht.symm.trans (he.trans hu))
  exact ⟨_, hf, hP⟩

/-- Pair engine 0 adapts in 50GBASE-W, and its table of register copies names word 0x0010 twice: `Tab` is a plain list, and nothing
in `State` keeps it free of a second entry. -/
def twiceCopied : State :=
  { chip := { ports := [(0, { mode := some .w50 })], pes := [(0, { adapting := true, copies := [(0x10, 1), (0x10, 2)] })] } }

theorem twiceCopied_adapts : twiceCopied.chip.adaptsWord 0 0x10 = true := by decide

end Sys2Proof.Machine
end

section
set_option Elab.async false
open Sys2Proof Sys2Proof.Machine

/-- Refutes O11, by its clause on COEF_WRITEBACK: a state may hold a table of register copies that names a word twice. The command then
replaces the first entry of word 0x0010 by 3, the write-back puts the entries into the store in turn, and the store ends with the
second entry, 2. -/
theorem not_coefficientStoreIsKept : ¬ Obligations.CoefficientStoreIsKept := by
  unfold Obligations.CoefficientStoreIsKept
  rintro ⟨-, -, -, -, hback, -⟩
  obtain ⟨d, hd, hword, -⟩ := (hback 0 (0x10, 3) twiceCopied twiceCopied_adapts).effect (execCoefWriteback.eq_1 0 [(0x10, 3)] _)
  rw [hd.pe_eq] at hword
  exact absurd hword (by decide)

end

section
/-!
PROOFS. What a margin window shows, and captures (R80, R108, R117, R172).
-/
set_option Elab.async false
namespace Sys2Proof.Machine

/-! A margin window (R108). -/

/-- The window's measurements are shown, and copied where the pair engine adapts (R108, R109). -/
def Chip.windowShown (c : Chip) (e : Nat) (m : WindowMeas) (md : LineMode) : Chip :=
  let phase := m.phase % 65536 / 1024 * 1024
  let freq := max (-md.freqRange) (min md.freqRange m.freq)
  let c := ((c.wrInt .PE_SNR e m.snr).wrInt .PE_MARGIN e (m.snr - md.refSnr)).wrInt .PE_ECHO_RESIDUAL e m.echo
  let c := ((c.wr .PE_PGA_GAIN e m.pga).wr .PE_TIMING_PHASE e phase).wrInt .PE_FREQ_OFFSET e freq
  let c := c.setPe e fun x =>
    { x.copyWindow { m with phase := phase } freq with
      t3Margin := some (match x.t3Margin with
        | some y => min y (m.snr - md.refSnr)
        | none => m.snr - md.refSnr) }
  (c.wr .PE_LDPC_ITER_MEAN e m.iterMean).wrInt .PE_RX_SKEW e m.skew

/-- The window is then taken by the canceller's gains, the link quality and low-power idle (R141, R172). -/
def Chip.windowTaken (c : Chip) (p e : Nat) (m : WindowMeas) (margin : Int) : Chip :=
  ((c.ancGains e m.ancGain m.slotGains).lqWindow p e margin).lpiWindow p e margin

/-- Windows below 0 dB in a row, after one with this margin (R80). -/
def PeSt.lowRun (x : PeSt) (margin : Int) : Nat := if margin < 0 then x.lowWindows + 1 else 0

/-- A window of an active lane that does not complete a run of 32 below 0 dB (R80, R108). -/
theorem execMarginWindowEnd_run {e : PeNo} {m : WindowMeas} {pick : BitVec 8} {md : LineMode} {s : State}
    (hl : (s.chip.port (s.chip.portOf e)).link = .up) (hm : (s.chip.port (s.chip.portOf e)).mode = some md)
    (he : (s.chip.port (s.chip.portOf e)).lanes.contains e.val = true) (hq : s.chip.rxQuiet (s.chip.portOf e) = false)
    {d : Chip} (hd : d = (s.chip.windowShown e m md).windowTaken (s.chip.portOf e) e m (m.snr - md.refSnr))
    (hr : (d.pe e).lowRun (m.snr - md.refSnr) < 32) :
    ∃ f, execMarginWindowEnd e m pick s = s.run f ∧
      f s.chip = d.setPe e fun x => { x with lowWindows := (d.pe e).lowRun (m.snr - md.refSnr) } := by
  subst hd
  refine ⟨_, execMarginWindowEnd.eq_1 e m pick s, ?_⟩
  dsimp only
  rw [hm]
  refine (if_neg (by rw [he, hq, hl]; decide)).trans (if_neg ?_)
  exact fun h => absurd (of_decide_eq_true (Bool.and_eq_true_iff.1 h).1) (Nat.not_le.2 hr)

theorem Chip.pe_ite (p : Prop) [Decidable p] (c d : Chip) (e : Nat) : (if p then c else d).pe e = if p then c.pe e else d.pe e := by
  split <;> rfl

section
variable (c : Chip) (p e : Nat) (m : WindowMeas) (md : LineMode) (margin : Int)

/-- The objects that a window sets (R108). -/
def windowRegs : List Reg :=
  [.PE_SNR, .PE_MARGIN, .PE_ECHO_RESIDUAL, .PE_PGA_GAIN, .PE_TIMING_PHASE, .PE_FREQ_OFFSET, .PE_LDPC_ITER_MEAN, .PE_RX_SKEW]

theorem Chip.windowShown_rd :
    let d := c.windowShown e m md
    d.rd .PE_SNR e = ofInt (Reg.width .PE_SNR) m.snr ∧
    d.rd .PE_MARGIN e = ofInt (Reg.width .PE_MARGIN) (m.snr - md.refSnr) ∧
    d.rd .PE_ECHO_RESIDUAL e = ofInt (Reg.width .PE_ECHO_RESIDUAL) m.echo ∧
    d.rd .PE_PGA_GAIN e = m.pga % 2 ^ Reg.width .PE_PGA_GAIN ∧
    d.rd .PE_TIMING_PHASE e = m.phase % 65536 / 1024 * 1024 ∧
    d.rd .PE_FREQ_OFFSET e = ofInt (Reg.width .PE_FREQ_OFFSET) (max (-md.freqRange) (min md.freqRange m.freq)) ∧
    d.rd .PE_LDPC_ITER_MEAN e = m.iterMean % 2 ^ Reg.width .PE_LDPC_ITER_MEAN ∧
    d.rd .PE_RX_SKEW e = ofInt (Reg.width .PE_RX_SKEW) m.skew := by
  have hphase : m.phase % 65536 / 1024 * 1024 % 2 ^ Reg.width .PE_TIMING_PHASE = m.phase % 65536 / 1024 * 1024 :=
    Nat.mod_eq_of_lt (by rw [show Reg.width .PE_TIMING_PHASE = 16 from rfl]; omega)
  simp [Chip.windowShown, Chip.wrInt_eq, Chip.wr_eq, Chip.rd_wrRow_same, Nat.mod_eq_of_lt (ofInt_lt _ _), hphase]

theorem Chip.windowShown_port (q : Nat) : (c.windowShown e m md).port q = c.port q := by
  simp [Chip.windowShown, Chip.wrInt_eq, Chip.wr_eq]

/-- Copying the words of a window leaves the run of low windows. -/
theorem PeSt.copyWindow_lowWindows (x : PeSt) (freq : Int) : (x.copyWindow m freq).lowWindows = x.lowWindows := by
  unfold PeSt.copyWindow
  split <;> rfl

theorem Chip.windowShown_lowWindows : ((c.windowShown e m md).pe e).lowWindows = (c.pe e).lowWindows := by
  simp [Chip.windowShown, Chip.wrInt_eq, Chip.wr_eq, PeSt.copyWindow_lowWindows]

/-- Link quality counts a window without touching the run of low windows. -/
theorem Chip.lqWindow_lowWindows : ((c.lqWindow p e margin).pe e).lowWindows = (c.pe e).lowWindows := by
  have hs : ∀ (d : Chip) (b : Nat) (n : EvName), (d.lqSet p b n).pe e = d.pe e := fun d b n =>
    (Chip.lqSet_in (.refl Chip.lqSet_fx d) (by decide +kernel)).pe_eq (by decide +kernel) e
  have hc : ∀ (d : Chip) (b : Nat) (n : EvName), (d.lqClear p b n).pe e = d.pe e := fun d b n =>
    (Chip.lqClear_in (.refl Chip.lqClear_fx d) (by decide +kernel)).pe_eq (by decide +kernel) e
  unfold Chip.lqWindow
  dsimp only
  split <;> simp [Chip.pe_ite, Chip.wr_eq, Chip.wrInt_eq, hs, hc]

/-- A window ends a characterisation at most: the controller's state stays (R141). -/
theorem Chip.lpiWindow_link : ((c.lpiWindow p e margin).port p).link = (c.port p).link := by
  unfold Chip.lpiWindow Chip.charEnd
  dsimp only
  repeat' split
  all_goals simp [Chip.setBit_eq, Chip.setLpi_port]

/-- What taking a window may change. -/
def Chip.windowTaken_fx : Fx := .union [Chip.ancGains_fx, Chip.lqWindow_fx, Chip.lpiWindow_fx]

theorem Chip.windowTaken_in : Within Chip.windowTaken_fx c (c.windowTaken p e m margin) :=
  Chip.lpiWindow_in (Chip.lqWindow_in (Chip.ancGains_in (.refl _ _) (by decide +kernel)) (by decide +kernel)) (by decide +kernel)

theorem Chip.windowTaken_lowWindows : ((c.windowTaken p e m margin).pe e).lowWindows = (c.pe e).lowWindows := by
  unfold Chip.windowTaken
  rw [(Chip.lpiWindow_in (.refl Chip.lpiWindow_fx _) (by decide +kernel)).pe_eq (by decide +kernel), Chip.lqWindow_lowWindows,
    (Chip.ancGains_in (.refl Chip.ancGains_fx _) (by decide +kernel)).pe_eq (by decide +kernel)]

theorem Chip.windowTaken_link : ((c.windowTaken p e m margin).port p).link = (c.port p).link := by
  unfold Chip.windowTaken
  rw [Chip.lpiWindow_link, (Chip.lqWindow_in (.refl Chip.lqWindow_fx _) (by decide +kernel)).port_eq (by decide +kernel),
    (Chip.ancGains_in (.refl Chip.ancGains_fx _) (by decide +kernel)).port_eq (by decide +kernel)]

end

/-! Captures (R117). -/

/-- The link states in which a capture may start (R117). -/
def LinkState.captures (l : LinkState) : Prop := l = .trainT1 ∨ l = .trainT2 ∨ l = .trainT3 ∨ l = .up

/-- In these states a trigger starts a capture unless one runs (R117). -/
theorem Chip.writeCapture_eq {c : Chip} {e v : Nat} (hv : v = 1 ∨ v = 2) (hl : (c.port (c.portOf e)).link.captures) :
    c.writeCapture e v =
      if (c.pe e).capturing.isSome then (.busy, c) else (.ok, c.setPe e fun x => { x with capturing := some v }) := by
  have hg : ¬ (!((c.port (c.portOf e)).link = .trainT1 || (c.port (c.portOf e)).link = .trainT2
      || (c.port (c.portOf e)).link = .trainT3 || (c.port (c.portOf e)).link = .up)) = true := by
    rcases hl with h | h | h | h <;> simp [h]
  unfold Chip.writeCapture
  rw [if_neg (by omega), if_neg (by omega)]
  exact if_neg hg

section
variable {i : Instr} {e : PeNo} {v : Nat} {s : State} (hv : v = 1 ∨ v = 2)
  (he : exec i s = s.runWr fun c => c.gated .PE_CAPTURE_TRIGGER e fun c => c.writeCapture e v)
  (hs : s.chip.asleep .PE_CAPTURE_TRIGGER e = false) (hl : (s.chip.port (s.chip.portOf e)).link.captures)
include hv he hs hl

theorem captureTrigger_starts (hc : (s.chip.pe e).capturing = none) :
    Answers i s fun d =>
      d.accepted ∧ d.pe e = { s.chip.pe e with capturing := some v } ∧ s.chip.OnlyPe d e ∧ s.chip.Keeps d fun _ => False := by
  have hw : s.chip.writeCapture e v = (.ok, s.chip.setPe e fun x => { x with capturing := some v }) := by
    rw [Chip.writeCapture_eq hv hl, hc]
    rfl
  refine Answers.of_write _ he hs hw fun d hd => ⟨hd.access, ?_, hd.onlyPe (((Chip.OnlyPe.refl ..).setPe _).access _), hd.cells⟩
  exact (hd.pe_eq e).trans (Chip.setPe_same s.chip e fun x => { x with capturing := some v })

theorem captureTrigger_busy (hc : (s.chip.pe e).capturing ≠ none) : Answers i s fun d => s.chip.TurnedAway d .busy := by
  have hw : s.chip.writeCapture e v = (.busy, s.chip) := by
    rw [Chip.writeCapture_eq hv hl, if_pos (Option.isSome_iff_ne_none.2 hc)]
  refine Answers.of_abort he (a := .busy) (m := s.chip) ?_ (by decide) (by decide) fun d hd => hd.turnedAway.2
  rw [Chip.gated, hs, hw]
  rfl

end

/-- The code of a captured sample: a raw one is the sign extension of 8 bits (Table 4-8). -/
def sampleCode (k : Nat) (x : BitVec 16) : Nat := if k = 2 then ofInt 16 (toInt 8 (x.toNat % 256)) else x.toNat

theorem sampleCode_lt (k : Nat) (x : BitVec 16) : sampleCode k x < 2 ^ 16 := by
  unfold sampleCode
  split
  · exact ofInt_lt _ _
  · exact x.isLt

/-- The rows of a capture are written. -/
def Chip.showCapture (c : Chip) (e k n : Nat) (samples : List (BitVec 16)) : Chip :=
  c.each (List.range n) fun c i => c.wrRow .PE_CAPTURE e i (sampleCode k (samples.getD i 0))

theorem execCaptureDone_run {e : PeNo} {samples : List (BitVec 16)} {k : Nat} {s : State} (hc : (s.chip.pe e).capturing = some k) :
    ∃ f, execCaptureDone e samples s = s.run f ∧
      f s.chip = (s.chip.setPe e fun x => { x with capturing := none }).showCapture e k 1024 samples := by
  refine ⟨_, execCaptureDone.eq_1 e samples s, ?_⟩
  rw [hc]
  rfl

section
variable (c : Chip) (e k n : Nat) (samples : List (BitVec 16))

theorem Chip.showCapture_succ : c.showCapture e k (n + 1) samples
    = (c.showCapture e k n samples).wrRow .PE_CAPTURE e n (sampleCode k (samples.getD n 0)) := by
  simp [Chip.showCapture, Chip.each, List.range_succ]

theorem Chip.showCapture_rd {j : Nat} (hj : j < n) :
    (c.showCapture e k n samples).rd .PE_CAPTURE e j = sampleCode k (samples.getD j 0) := by
  induction n with
  | zero => exact absurd hj (Nat.not_lt_zero j)
  | succ n ih =>
    rw [Chip.showCapture_succ]
    rcases Nat.lt_succ_iff_lt_or_eq.1 hj with hn | rfl
    · rw [Chip.rd_wrRow_other _ _ _ _ _ _ _ _ (by simp [hn.ne]) (.inl (by decide)), ih hn]
    · rw [Chip.rd_wrRow_same]
      exact Nat.mod_eq_of_lt (sampleCode_lt _ _)

theorem Chip.showCapture_in : Within (.of [] [.PE_CAPTURE]) c (c.showCapture e k n samples) :=
  Within.each (fun _ _ h => h.wrRow (by decide +kernel)) (.refl _ _)

end

theorem Chip.OnlyPe.showCapture {b c : Chip} {e : Nat} (h : b.OnlyPe c e) (k n : Nat) (samples : List (BitVec 16)) :
    b.OnlyPe (c.showCapture e k n samples) e :=
  Chip.each_keeps (fun d => b.OnlyPe d e) _ (fun _ _ hd => hd.wrRow ..) _ _ h

theorem Chip.Keeps.showCapture {b c : Chip} {P : Key → Prop} (h : b.Keeps c P) {e : Nat} (hP : ∀ i, P ⟨.PE_CAPTURE, e, i⟩)
    (k n : Nat) (samples : List (BitVec 16)) : b.Keeps (c.showCapture e k n samples) P :=
  Chip.each_keeps (fun d => b.Keeps d P) _ (fun _ _ hd => hd.wrRow (hP _)) _ _ h

end Sys2Proof.Machine
end

section
set_option Elab.async false
open Sys2Proof Sys2Proof.Machine

/-- Settles O12: what follows the showing of a window changes none of its objects, and the triggers and the end of a capture act on one
pair engine. -/
theorem measurementsAndCapturesAreShown : Obligations.MeasurementsAndCapturesAreShown := by
  unfold Obligations.MeasurementsAndCapturesAreShown
  refine ⟨?_, ?_, ?_, ?_, ?_⟩
  · intro e pick m k s p hl hm he hq hlow
    have hin := (s.chip.windowShown e m k).windowTaken_in p e m (m.snr - k.refSnr)
    have hrun : (((s.chip.windowShown e m k).windowTaken p e m (m.snr - k.refSnr)).pe e).lowRun (m.snr - k.refSnr)
        = if m.snr < k.refSnr then (s.chip.pe e).lowWindows + 1 else 0 := by
      rw [PeSt.lowRun, Chip.windowTaken_lowWindows, Chip.windowShown_lowWindows]
      simp only [sub_neg]
    refine Answers.of_runs (execMarginWindowEnd_run hl hm he hq rfl (by rw [hrun]; split <;> omega)) fun d hd => ?_
    rw [hrun] at hd
    have hrd : ∀ r ∈ windowRegs, d.rd r e = (s.chip.windowShown e m k).rd r e := fun r hr => by
      rw [hd.rd r (by revert r; decide), Chip.rd_setPe, hin.rd (by revert r; decide +kernel) (by decide +kernel)]
    obtain ⟨hsnr, hmargin, hecho, hpga, hphase, hfreq, hiter, hskew⟩ := s.chip.windowShown_rd e m k
    refine ⟨(hrd _ (by decide)).trans hsnr, (hrd _ (by decide)).trans hmargin, (hrd _ (by decide)).trans hecho,
      (hrd _ (by decide)).trans hpga, (hrd _ (by decide)).trans hphase, (hrd _ (by decide)).trans hfreq,
      (hrd _ (by decide)).trans hiter, (hrd _ (by decide)).trans hskew, ?_, ?_⟩
    · rw [hd.pe_eq, Chip.setPe_same]
    · rw [hd.port_eq, Chip.port_setPe, Chip.windowTaken_link, Chip.windowShown_port, hl]
  · intro e s hs hl hc
    exact captureTrigger_starts (.inl rfl) (execCaptureEqualised.eq_1 e s) hs hl hc
  · intro e s hs hl hc
    exact captureTrigger_starts (.inr rfl) (execCaptureRaw.eq_1 e s) hs hl hc
  · intro e s hs hl hc
    exact captureTrigger_busy (.inr rfl) (execCaptureRaw.eq_1 e s) hs hl hc
  · intro e samples k s hc
    refine Answers.of_runs (execCaptureDone_run (samples := samples) hc) fun d hd => ?_
    refine ⟨?_, fun i => ?_, hd.onlyPe (((Chip.OnlyPe.refl ..).setPe _).showCapture ..),
      hd.keeps (((Chip.Keeps.refl _ _).setPe _ _).showCapture (fun _ => ⟨rfl, rfl⟩) _ _ _)⟩
    · rw [hd.pe_eq, (Chip.showCapture_in ..).pe_eq (by decide +kernel), Chip.setPe_same]
    · rw [hd.rd _ rfl, Chip.showCapture_rd _ _ _ _ _ i.isLt]
      rfl

end

section
/-!
PROOFS. Rules of the state for the alien-NEXT cancellers: what a canceller, its slots, its taps and its counters are after an
operation on one slot (R122, R126, R132, R134).
-/
set_option Elab.async false
namespace Sys2Proof.Machine

/-! The cancellers. -/

@[simp] theorem Chip.ancOf_wrRow (c : Chip) (r : Reg) (i row v w : Nat) : (c.wrRow r i row v).ancOf w = c.ancOf w := by
  simp [Chip.ancOf]
@[simp] theorem Chip.ancOf_raise (c : Chip) (n : EvName) (i d w : Nat) : (c.raise n i d).ancOf w = c.ancOf w := rfl
@[simp] theorem Chip.ancOf_zeroTaps (c : Chip) (v k w : Nat) : (c.zeroTaps v k).ancOf w = c.ancOf w := rfl
@[simp] theorem Chip.rd_setAnc (c : Chip) (v : Nat) (f : AncSt → AncSt) (r : Reg) (i row : Nat) :
    (c.setAnc v f).rd r i row = c.rd r i row := rfl
@[simp] theorem Chip.rd_setSlot (c : Chip) (v k : Nat) (f : Slot → Slot) (r : Reg) (i row : Nat) :
    (c.setSlot v k f).rd r i row = c.rd r i row := rfl
@[simp] theorem Chip.rd_zeroTaps (c : Chip) (v k : Nat) (r : Reg) (i row : Nat) : (c.zeroTaps v k).rd r i row = c.rd r i row := rfl

/-- The cancellers are as before where they are not among the parts that may change. -/
theorem Within.ancOf_eq {x : Fx} {c d : Chip} (h : Within x c d) (hx : x.hasPart .anc = false) (v : Nat) : d.ancOf v = c.ancOf v :=
  congrArg (fun t => t.getD v {}) (h.part .anc hx)

theorem EvFrame.ancOf_eq {c d : Chip} (h : EvFrame c d) (v : Nat) : d.ancOf v = c.ancOf v := by simp [Chip.ancOf, h.anc_eq]

theorem Chip.setAnc_ancOf (c : Chip) (v w : Nat) (f : AncSt → AncSt) :
    (c.setAnc v f).ancOf w = if w = v then f (c.ancOf w) else c.ancOf w := by
  split
  · next h => subst h; exact Tab.getD_upd_same ..
  · next h => exact Tab.getD_upd_other _ _ _ _ _ _ h

@[simp] theorem Chip.ancOf_memberChange (c : Chip) (v k w : Nat) : (c.memberChange v k).ancOf w = c.ancOf w :=
  (Chip.memberChange_in (.refl Chip.memberChange_fx c) (by decide +kernel)).ancOf_eq (by decide +kernel) w

/-- Of the parts beside the dictionary only the canceller of one victim has changed. -/
def Chip.OnlyAnc (c d : Chip) (v : Nat) : Prop := d.bare = { c.bare with anc := d.anc } ∧ ∀ w, w ≠ v → d.ancOf w = c.ancOf w

theorem Chip.OnlyAnc.refl (c : Chip) (v : Nat) : c.OnlyAnc c v := ⟨rfl, fun _ _ => rfl⟩

theorem Chip.OnlyAnc.setAnc {b c : Chip} {v : Nat} (h : b.OnlyAnc c v) (f : AncSt → AncSt) : b.OnlyAnc (c.setAnc v f) v := by
  obtain ⟨hb, hw⟩ := h
  refine ⟨?_, fun w hne => by rw [Chip.setAnc_ancOf, if_neg hne, hw w hne]⟩
  change ({ c.bare with anc := (c.setAnc v f).anc } : Chip) = _
  rw [hb]

theorem Chip.OnlyAnc.setSlot {b c : Chip} {v : Nat} (h : b.OnlyAnc c v) (k : Nat) (f : Slot → Slot) : b.OnlyAnc (c.setSlot v k f) v :=
  h.setAnc _

theorem Chip.OnlyAnc.wrRow {b c : Chip} {v : Nat} (h : b.OnlyAnc c v) (r : Reg) (i row x : Nat) : b.OnlyAnc (c.wrRow r i row x) v := by
  obtain ⟨hb, hw⟩ := h
  exact ⟨by rw [Chip.bare_wrRow, hb, Chip.wrRow_anc], fun w hne => (Chip.ancOf_wrRow ..).trans (hw w hne)⟩

theorem Chip.Keeps.setSlot {b c : Chip} {P : Key → Prop} (h : b.Keeps c P) (v k : Nat) (f : Slot → Slot) :
    b.Keeps (c.setSlot v k f) P := h

theorem EvFrame.onlyAnc {b c d : Chip} {v : Nat} (h : EvFrame c d) (ho : b.OnlyAnc c v) : b.OnlyAnc d v := by
  obtain ⟨hb, hw⟩ := ho
  exact ⟨by rw [h.bare, h.anc_eq, hb], fun w hne => (h.ancOf_eq w).trans (hw w hne)⟩

/-! Slots. -/

theorem Chip.setSlot_slot (c : Chip) (v k w j : Nat) (f : Slot → Slot) :
    ((c.setSlot v k f).ancOf w).slot j = if w = v ∧ j = k then f ((c.ancOf w).slot j) else (c.ancOf w).slot j := by
  rw [Chip.setSlot, Chip.setAnc_ancOf]
  by_cases hw : w = v
  · rw [if_pos hw]
    by_cases hj : j = k
    · rw [if_pos ⟨hw, hj⟩, hj]
      exact Tab.getD_upd_same ..
    · rw [if_neg fun h => hj h.2]
      exact Tab.getD_upd_other _ _ _ _ _ _ hj
  · rw [if_neg hw, if_neg fun h => hw h.1]

/-- A change of a canceller that leaves its slots leaves every slot. -/
theorem Chip.setAnc_slot {f : AncSt → AncSt} (hf : ∀ a, (f a).slots = a.slots) (c : Chip) (v w j : Nat) :
    ((c.setAnc v f).ancOf w).slot j = (c.ancOf w).slot j := by
  rw [Chip.setAnc_ancOf]
  split
  · rw [AncSt.slot, hf]; rfl
  · rfl

/-- A slot in `PROBATION` is emptied without a count of its own (R126). -/
theorem Chip.emptySlot_probation {c : Chip} {v k : Nat} (h : ((c.ancOf v).slot k).state = .probation) :
    c.emptySlot v k = ((c.setSlot v k fun _ => {}).zeroTaps v k).memberChange v k := by
  simp [Chip.emptySlot, h]

/-- An occupied slot beyond `PROBATION` is emptied and counted (R126). -/
theorem Chip.emptySlot_counted {c : Chip} {v k : Nat} (h : ((c.ancOf v).slot k).state ≠ .empty)
    (hp : ((c.ancOf v).slot k).state ≠ .probation) :
    c.emptySlot v k = (((c.inc .ANC_DROP_COUNT v).setSlot v k fun _ => {}).zeroTaps v k).memberChange v k := by
  simp [Chip.emptySlot, h, hp]

theorem Chip.emptySlot_slot (c : Chip) (v k w j : Nat) :
    ((c.emptySlot v k).ancOf w).slot j =
      if w = v ∧ j = k ∧ ((c.ancOf v).slot k).state ≠ .empty then {} else (c.ancOf w).slot j := by
  by_cases h : ((c.ancOf v).slot k).state = .empty
  · simp [Chip.emptySlot, h]
  · by_cases hp : ((c.ancOf v).slot k).state = .probation
    · simp [Chip.emptySlot_probation hp, hp, Chip.setSlot_slot]
    · simp [Chip.emptySlot_counted h hp, h, Chip.setSlot_slot, Chip.inc_eq]

/-- Emptying a slot leaves it `EMPTY`, whatever it was. -/
theorem Chip.emptySlot_state (c : Chip) (v k : Nat) : (((c.emptySlot v k).ancOf v).slot k).state = .empty := by
  rw [Chip.emptySlot_slot]
  split
  · rfl
  · next h => simpa using h

/-- What a slot holds as it is filled: `NEIGHBOUR_MODE` is that of a neighbour that drives a signal (R126, R133). -/
def Chip.filled (c : Chip) (s : Slot) : Slot :=
  { s with state := .probation, mode := if s.mode = 0 then ((c.drives s.neighbour).map LineMode.code).getD 0 else s.mode }

theorem Chip.fillSlot_eq (c : Chip) (v k : Nat) (s : Slot) :
    c.fillSlot v k s = ((c.setSlot v k fun _ => c.filled s).zeroTaps v k).memberChange v k := by
  unfold Chip.fillSlot Chip.filled
  cases c.drives s.neighbour <;> rfl

theorem Chip.fillSlot_slot (c : Chip) (v k : Nat) (s : Slot) (w j : Nat) :
    ((c.fillSlot v k s).ancOf w).slot j = if w = v ∧ j = k then c.filled s else (c.ancOf w).slot j := by
  rw [Chip.fillSlot_eq, Chip.ancOf_memberChange, Chip.ancOf_zeroTaps, Chip.setSlot_slot]

/-! The rest of a canceller. -/

/-- A canceller without its slots. -/
def AncSt.rest (a : AncSt) : AncSt := { a with slots := [] }

theorem AncSt.cleared_of_rest {a b : AncSt} (h : a.rest = b.rest) : a.cleared = b.cleared := by
  change a.rest.cleared = b.rest.cleared
  rw [h]

theorem Chip.setSlot_rest (c : Chip) (v k w : Nat) (f : Slot → Slot) : ((c.setSlot v k f).ancOf w).rest = (c.ancOf w).rest := by
  rw [Chip.setSlot, Chip.setAnc_ancOf]
  split <;> rfl

theorem Chip.emptySlot_rest (c : Chip) (v k w : Nat) : ((c.emptySlot v k).ancOf w).rest = (c.ancOf w).rest := by
  by_cases h : ((c.ancOf v).slot k).state = .empty
  · simp [Chip.emptySlot, h]
  · by_cases hp : ((c.ancOf v).slot k).state = .probation
    · simp [Chip.emptySlot_probation hp, Chip.setSlot_rest]
    · simp [Chip.emptySlot_counted h hp, Chip.setSlot_rest, Chip.inc_eq]

theorem Chip.fillSlot_rest (c : Chip) (v k : Nat) (s : Slot) (w : Nat) : ((c.fillSlot v k s).ancOf w).rest = (c.ancOf w).rest := by
  rw [Chip.fillSlot_eq, Chip.ancOf_memberChange, Chip.ancOf_zeroTaps, Chip.setSlot_rest]

/-! Taps and counters. -/

/-- The taps of a slot are zero (Table 4-7). -/
def PeSt.NoTaps (x : PeSt) (k : Nat) : Prop := ∀ w, 0x700 + 0x80 * k ≤ w → w < 0x780 + 0x80 * k → x.word w = 0

theorem Chip.zeroTaps_noTaps (c : Chip) (v k : Nat) : ((c.zeroTaps v k).pe v).NoTaps k := fun w hlo hhi => by
  have hw := Tab.get?_filter (c.pe v).store (fun n => !(0x700 + 0x80 * k ≤ n && n < 0x780 + 0x80 * k)) w
  rw [if_neg (by simp [hlo, hhi])] at hw
  rw [Chip.zeroTaps, Chip.setPe_same, PeSt.word, Tab.getD_def, hw]
  exact Nat.zero_and _

theorem Chip.memberChange_noTaps {c : Chip} {e k : Nat} (h : (c.pe e).NoTaps k) (v j : Nat) : ((c.memberChange v j).pe e).NoTaps k := by
  rwa [(Chip.memberChange_in (.refl Chip.memberChange_fx c) (by decide +kernel)).pe_eq (by decide +kernel)]

/-- A counter counts from what it read before a change that left it. -/
theorem Counts.after {b c d : Chip} {r : Reg} {i n : Nat} (h : Counts c d r i n) (hb : c.rd r i = b.rd r i) : Counts b d r i n := by
  rw [Counts, ← hb]
  exact h

theorem Chip.memberChange_counts (c : Chip) (v k : Nat) : Counts c (c.memberChange v k) .ANC_MAP_VERSION 0 1 := by
  unfold Counts Chip.memberChange
  simp [Chip.rd_ite, Chip.setBit_eq, Chip.inc_eq, Chip.rd_wrRow_same]

/-! An occupied slot is emptied. -/

section
variable {c : Chip} {v k : Nat} (h : ((c.ancOf v).slot k).state ≠ .empty)
include h

theorem Chip.emptySlot_same : ((c.emptySlot v k).ancOf v).slot k = {} := by rw [Chip.emptySlot_slot, if_pos ⟨rfl, rfl, h⟩]

theorem Chip.emptySlot_noTaps : ((c.emptySlot v k).pe v).NoTaps k := by
  unfold Chip.emptySlot
  dsimp only
  rw [if_neg h]
  exact Chip.memberChange_noTaps (Chip.zeroTaps_noTaps _ v k) v k

theorem Chip.emptySlot_counts : Counts c (c.emptySlot v k) .ANC_MAP_VERSION 0 1 := by
  by_cases hp : ((c.ancOf v).slot k).state = .probation
  · rw [Chip.emptySlot_probation hp]
    exact (Chip.memberChange_counts _ v k).after (by simp)
  · rw [Chip.emptySlot_counted h hp]
    exact (Chip.memberChange_counts _ v k).after (by simp [Chip.inc_eq])

end

theorem Chip.memberChange_drops (c : Chip) (v k e : Nat) : (c.memberChange v k).rd .ANC_DROP_COUNT e = c.rd .ANC_DROP_COUNT e :=
  (Chip.memberChange_in (.refl Chip.memberChange_fx c) (by decide +kernel)).rd (by decide +kernel) (by decide +kernel) ..

theorem Chip.emptySlot_stays {c : Chip} {v k : Nat} (h : ((c.ancOf v).slot k).state = .probation) :
    Stays c (c.emptySlot v k) .ANC_DROP_COUNT v := by
  rw [Chip.emptySlot_probation h]
  exact Chip.memberChange_drops ..

theorem Chip.emptySlot_drops {c : Chip} {v k : Nat} (h : ((c.ancOf v).slot k).state ≠ .empty)
    (hp : ((c.ancOf v).slot k).state ≠ .probation) : Counts c (c.emptySlot v k) .ANC_DROP_COUNT v 1 := by
  rw [Chip.emptySlot_counted h hp, Counts, Chip.memberChange_drops, Chip.rd_zeroTaps, Chip.rd_setSlot, Chip.inc_eq, Chip.rd_wrRow_same]

end Sys2Proof.Machine
end

section
/-!
PROOFS. The learning passes of a victim and the states of its slots (R124 to R127, R131, Tables 5-2 and 5-3).
-/
set_option Elab.async false
namespace Sys2Proof.Machine

/-! The start of a pass (R125). -/

/-- The canceller of a victim whose pass starts. -/
def AncSt.started (root : Nat) (a : AncSt) : AncSt :=
  { a with passing := true, passFirst := !a.firstDone, cleared := false, startAt := some root }

theorem Chip.passDue_of {c : Chip} {v : Nat}
    (h : ∀ r, (c.ancOf v).startAt = some r → r + 16000 * (1000 * c.rd .ANC_SCAN_PERIOD) ≤ c.root) : c.passDue v = true := by
  unfold Chip.passDue
  split
  · next r hr =>
    have := h r hr
    exact decide_eq_true (by rw [rootUs]; omega)
  · rfl

theorem execAncPassStart_run {v : PeNo} {s : State} (hu : s.chip.up (s.chip.portOf v) = true) (hm : s.chip.ancMode v = true)
    (he : s.chip.rdBool .ANC_ENABLE (s.chip.portOf v) = true) (ht : s.chip.tileRuns (tileOf v) = true)
    (hl : (s.chip.port (s.chip.portOf v)).lanes.contains v.val = true) (hp : (s.chip.ancOf v).passing = false)
    (hd : s.chip.passDue v = true) :
    ∃ f, execAncPassStart v s = s.run f ∧ f s.chip = s.chip.setAnc v (AncSt.started s.chip.root) := by
  refine ⟨_, execAncPassStart.eq_1 v s, if_pos ?_⟩
  rw [hu, hm, he, ht, hl, hp, hd]
  rfl

/-! The end of a pass (R125, R126). -/

/-- What the end of a pass makes of slot `k`, with the ranked candidates and `ANC_DROP`: its contribution is noted, and an `ACTIVE`
slot that was below `ANC_DROP` twice is emptied. -/
def Chip.passSlot (c : Chip) (v : Nat) (l : List Candidate) (drop : Int) (k : Nat) : Chip :=
  let s := (c.ancOf v).slot k
  if s.state = .empty then c
  else match l.find? fun x => x.pe.val = s.neighbour with
    | some x =>
      if s.state = .active && !s.pinned && x.x < drop && s.below then c.emptySlot v k
      else c.setSlot v k fun s => { s with x := x.x, below := x.x < drop }
    | none => c.setSlot v k fun s => { s with below := false }

/-- Every slot is measured, then those candidates that want a slot take one. -/
def Chip.passSlots (c : Chip) (v : Nat) (l : List Candidate) (drop : Int) : Chip :=
  let c := c.each (List.range 8) fun c k => c.passSlot v l drop k
  c.each (c.wanting v l) fun c x => c.takeSlot v x

/-- The canceller of a victim whose pass ends. -/
def AncSt.ended (full : Bool) (a : AncSt) : AncSt := { a with passing := false, firstDone := !a.cleared, cleared := false, full := full }

/-- The pass is reported: `SLOTS_FULL` when a candidate is left without a slot, and the count of passes. -/
def Chip.passReport (c : Chip) (v : Nat) (full : Bool) : Chip :=
  let c := c.setAnc v (AncSt.ended full)
  let c := if full then c.raise .slotsFull (Cls.pe.addr v) else c
  c.inc .ANC_PASS_COUNT v

theorem Chip.passEnd_eq (c : Chip) (v : Nat) (ranked : List Candidate) :
    c.passEnd v ranked =
      let l := c.ranked v ranked
      let d := c.passSlots v l (c.rdInt .ANC_DROP)
      d.passReport v !(d.wanting v l).isEmpty := rfl

theorem execAncPassEnd_run {v : PeNo} {ranked : List Candidate} {s : State} (hp : (s.chip.ancOf v).passing = true) :
    ∃ f, execAncPassEnd v ranked s = s.run f ∧ f s.chip = s.chip.passEnd v ranked :=
  ⟨_, execAncPassEnd.eq_1 v ranked s, if_pos hp⟩

section
variable (c : Chip) (v : Nat)

theorem Chip.passReport_ancOf (full : Bool) : (c.passReport v full).ancOf v = (c.ancOf v).ended full := by
  cases full <;> simp [Chip.passReport, Chip.inc_eq, Chip.setAnc_ancOf]

theorem Chip.passReport_slot (full : Bool) (k : Nat) : ((c.passReport v full).ancOf v).slot k = (c.ancOf v).slot k := by
  rw [Chip.passReport_ancOf]
  rfl

theorem Chip.passReport_counts (full : Bool) : Counts c (c.passReport v full) .ANC_PASS_COUNT v 1 := by
  cases full <;> simp [Counts, Chip.passReport, Chip.inc_eq, Chip.rd_wrRow_same]

theorem Chip.passReport_in (full : Bool) : Within (.of [.anc, .ev] [.ANC_PASS_COUNT]) c (c.passReport v full) :=
  Within.inc (Within.ite ((Within.setAnc (.refl _ _) (by decide +kernel)).raise (by decide +kernel))
    (Within.setAnc (.refl _ _) (by decide +kernel))) (by decide +kernel)

/-- What measuring the slots and filling them may change. -/
def Chip.passSlots_fx : Fx := .union [Chip.emptySlot_fx, Chip.setSlot_fx, Chip.takeSlot_fx]

theorem Chip.passSlot_in {x : Fx} {b d : Chip} (h : Within x b d) (hx : Chip.passSlots_fx.le x = true) (l : List Candidate) (drop : Int)
    (k : Nat) : Within x b (d.passSlot v l drop k) := by
  refine h.trans (Within.mono hx ?_)
  unfold Chip.passSlot
  dsimp only
  split
  · exact .refl _ _
  · split
    · exact Within.ite (Chip.emptySlot_in (.refl _ _) (by decide +kernel)) (Chip.setSlot_in (.refl _ _) (by decide +kernel))
    · exact Chip.setSlot_in (.refl _ _) (by decide +kernel)

theorem Chip.passSlots_in (l : List Candidate) (drop : Int) : Within Chip.passSlots_fx c (c.passSlots v l drop) :=
  Within.each (fun _ _ h => Chip.takeSlot_in h (by decide +kernel))
    (Within.each (fun _ _ h => Chip.passSlot_in v h (by decide +kernel) ..) (.refl _ _))

theorem Chip.passSlot_rest (l : List Candidate) (drop : Int) (k : Nat) :
    ((c.passSlot v l drop k).ancOf v).rest = (c.ancOf v).rest := by
  unfold Chip.passSlot
  dsimp only
  split
  · rfl
  · split
    · split
      · exact c.emptySlot_rest ..
      · exact c.setSlot_rest ..
    · exact c.setSlot_rest ..

theorem Chip.takeSlot_rest (x : Candidate) : ((c.takeSlot v x).ancOf v).rest = (c.ancOf v).rest := by
  unfold Chip.takeSlot
  dsimp only
  split
  · exact c.fillSlot_rest ..
  · split
    · split
      · exact (Chip.fillSlot_rest ..).trans (c.emptySlot_rest ..)
      · rfl
    · rfl

theorem Chip.passSlots_rest (l : List Candidate) (drop : Int) : ((c.passSlots v l drop).ancOf v).rest = (c.ancOf v).rest :=
  (Chip.each_same (fun d => (d.ancOf v).rest) _ (fun d x => d.takeSlot_rest v x) _ _).trans
    (Chip.each_same (fun d => (d.ancOf v).rest) _ (fun d k => d.passSlot_rest v l drop k) _ _)

theorem Chip.passEnd_ends (ranked : List Candidate) :
    ((c.passEnd v ranked).ancOf v).passing = false ∧ ((c.passEnd v ranked).ancOf v).firstDone = !(c.ancOf v).cleared := by
  rw [Chip.passEnd_eq]
  dsimp only
  rw [Chip.passReport_ancOf]
  exact ⟨rfl, congrArg not (AncSt.cleared_of_rest (c.passSlots_rest v ..))⟩

theorem Chip.passEnd_counts (ranked : List Candidate) : Counts c (c.passEnd v ranked) .ANC_PASS_COUNT v 1 := by
  rw [Chip.passEnd_eq]
  refine (Chip.passReport_counts ..).trans ?_
  rw [(c.passSlots_in v ..).rd (by decide +kernel) (by decide +kernel)]

end

/-! A candidate finds every slot `EMPTY` (R126). -/

/-- The candidate with its contribution as R124 has it. -/
def Candidate.bounded (x : Candidate) : Candidate := { x with x := contribution x.x }

/-- The slot of a candidate that takes it. -/
def Candidate.asSlot (x : Candidate) : Slot := { neighbour := x.pe, lag := x.lag, x := x.x }

section
variable {c : Chip} {v : Nat} {x : Candidate} (hs : (c.ancOf v).slots = [])
include hs

theorem Chip.slot_of_noSlots (k : Nat) : (c.ancOf v).slot k = {} := by rw [AncSt.slot, hs]; rfl

theorem Chip.passSlot_noSlots (l : List Candidate) (drop : Int) (k : Nat) : c.passSlot v l drop k = c := by
  rw [Chip.passSlot, Chip.slot_of_noSlots hs, if_pos rfl]

theorem Chip.takeSlot_noSlots : c.takeSlot v x = c.fillSlot v 0 x.asSlot := by
  unfold Chip.takeSlot
  simp only [Chip.slot_of_noSlots hs]
  rfl

theorem Chip.wanting_noSlots (h : c.rdInt .ANC_ADMIT ≤ x.x) : c.wanting v [x] = [x] := by
  have hn : (c.ancOf v).naming x.pe = [] := by simp [AncSt.naming, Chip.slot_of_noSlots hs]
  simp [Chip.wanting, hn, h]

/-- The only candidate takes slot 0. -/
theorem Chip.passSlots_noSlots (h : c.rdInt .ANC_ADMIT ≤ x.x) (drop : Int) : c.passSlots v [x] drop = c.fillSlot v 0 x.asSlot := by
  have hid : (c.each (List.range 8) fun c k => c.passSlot v [x] drop k) = c := List.foldl_fixed' (Chip.passSlot_noSlots hs [x] drop) _
  rw [Chip.passSlots, hid, Chip.wanting_noSlots hs h]
  exact Chip.takeSlot_noSlots hs

end

theorem Chip.ranked_single {c : Chip} {v : Nat} {x : Candidate} (hr : c.reach v x.pe = true) (hb : c.rd .BIST_STATE_PE x.pe ≠ 2)
    (ht : (c.tile (tileOf x.pe)).st ≠ .isolated) : c.ranked v [x] = [x.bounded] := by
  have hf : [x].filter (fun x => c.reach v x.pe && c.rd .BIST_STATE_PE x.pe != 2 && (c.tile (tileOf x.pe)).st != .isolated) = [x] :=
    List.filter_eq_self.2 (by simp [hr, hb, ht])
  rw [Chip.ranked, hf]
  rfl

/-- A candidate that holds a slot wants none. -/
theorem Chip.wanting_of_held {c : Chip} {v k : Nat} {x : Candidate} (hk : k < 8) (he : ((c.ancOf v).slot k).state ≠ .empty)
    (hn : ((c.ancOf v).slot k).neighbour = x.pe.val) : c.wanting v [x] = [] := by
  have hm : k ∈ (c.ancOf v).naming x.pe := List.mem_filter.2 ⟨List.mem_range.2 hk, by simp [he, hn]⟩
  have hne : ((c.ancOf v).naming x.pe).isEmpty = false := List.isEmpty_eq_false_iff.2 (List.ne_nil_of_mem hm)
  simp [Chip.wanting, hne]

theorem Chip.fillSlot_counts (c : Chip) (v k : Nat) (s : Slot) : Counts c (c.fillSlot v k s) .ANC_MAP_VERSION 0 1 := by
  rw [Chip.fillSlot_eq]
  exact (Chip.memberChange_counts _ v k).after (by simp)

/-- A pass without a held slot and with one qualifying candidate fills slot 0 with it, and leaves none wanting (R126). -/
theorem Chip.passEnd_first {c : Chip} {v : Nat} {x : Candidate} (hs : (c.ancOf v).slots = []) (hr : c.reach v x.pe = true)
    (hb : c.rd .BIST_STATE_PE x.pe ≠ 2) (ht : (c.tile (tileOf x.pe)).st ≠ .isolated) (ha : c.rdInt .ANC_ADMIT ≤ contribution x.x) :
    c.passEnd v [x] = (c.fillSlot v 0 x.bounded.asSlot).passReport v false := by
  have hslot := c.fillSlot_slot v 0 x.bounded.asSlot v 0
  rw [if_pos ⟨rfl, rfl⟩] at hslot
  have hw : (c.fillSlot v 0 x.bounded.asSlot).wanting v [x.bounded] = [] :=
    Chip.wanting_of_held (k := 0) (by decide) (by rw [hslot]; exact SlotState.noConfusion) (by rw [hslot]; rfl)
  rw [Chip.passEnd_eq]
  dsimp only
  rw [Chip.ranked_single hr hb ht, Chip.passSlots_noSlots hs ha, hw]
  rfl

/-! The end of probation (R127, Table 5-2). -/

/-- A slot in `PROBATION` that is admitted. -/
def Slot.admitted (x : Int) (s : Slot) : Slot := { s with state := .active, x := contribution x, below := false }

section
variable {v : PeNo} {k : Fin 8} {x : Int} {s : State} (hp : ((s.chip.ancOf v).slot k).state = .probation)
  (ha : s.chip.slotAdapts v k = true)
include hp ha

theorem execProbationEnd_admits (hx : s.chip.rdInt .ANC_ADMIT ≤ contribution x) :
    ∃ f, execProbationEnd v k x s = s.run f ∧
      f s.chip = (((s.chip.setSlot v k fun s => { s with x := contribution x }).setSlot v k
        fun s => { s with state := .active, below := false }).inc .ANC_ADMIT_COUNT v) := by
  refine ⟨_, execProbationEnd.eq_1 v k x s, ?_⟩
  rw [Chip.probationEnd, if_neg (by simp [hp, ha])]
  exact if_pos hx

theorem execProbationEnd_empties (hx : contribution x < s.chip.rdInt .ANC_ADMIT) (hn : ((s.chip.ancOf v).slot k).pinned = false) :
    ∃ f, execProbationEnd v k x s = s.run f ∧
      f s.chip = (s.chip.setSlot v k fun s => { s with x := contribution x }).emptySlot v k := by
  refine ⟨_, execProbationEnd.eq_1 v k x s, ?_⟩
  rw [Chip.probationEnd, if_neg (by simp [hp, ha])]
  refine (if_neg (Int.not_le.2 hx)).trans ?_
  refine if_neg ?_
  simp [Chip.setSlot_slot, hn]

end

/-! Frozen slots (R127, R131). -/

theorem execFrozenThaw_run {v : PeNo} {k : Fin 8} {s : State} (hf : ((s.chip.ancOf v).slot k).state = .frozen)
    (hs : s.chip.signals ((s.chip.ancOf v).slot k).neighbour ((s.chip.ancOf v).slot k).mode = true)
    (hu : s.chip.up (s.chip.portOf ((s.chip.ancOf v).slot k).neighbour) = true) :
    ∃ f, execFrozenThaw v k s = s.run f ∧
      f s.chip = (s.chip.setSlot v k fun s => { s with state := .active }).inc .ANC_ADMIT_COUNT v := by
  refine ⟨_, execFrozenThaw.eq_1 v k s, if_pos ?_⟩
  rw [hf, hs, hu]
  rfl

theorem execAncHoldExpire_run {v : PeNo} {k : Fin 8} {s : State} (hf : ((s.chip.ancOf v).slot k).state = .frozen)
    (hu : s.chip.up (s.chip.portOf ((s.chip.ancOf v).slot k).neighbour) = false)
    (ht : s.chip.tileRuns (tileOf ((s.chip.ancOf v).slot k).neighbour) = true) (ha : s.chip.pwr.state = .active)
    (hn : ((s.chip.ancOf v).slot k).pinned = false) :
    ∃ f, execAncHoldExpire v k s = s.run f ∧ f s.chip = s.chip.emptySlot v k := by
  refine ⟨_, execAncHoldExpire.eq_1 v k s, ?_⟩
  dsimp only
  rw [if_pos (by rw [hf, hu, ht, ha]; rfl), Chip.releaseSlot, hn]
  rfl

end Sys2Proof.Machine
end

section
set_option Elab.async false
open Sys2Proof Sys2Proof.Machine

/-- Settles O18: a pass touches slots and then reports, an admitted or thawed slot changes its victim's canceller alone, and a slot
that is let go is emptied with its taps. -/
theorem cancellerSlotsFollowTheirStates : Obligations.CancellerSlotsFollowTheirStates := by
  unfold Obligations.CancellerSlotsFollowTheirStates
  refine ⟨?_, ?_, ?_, ?_, ?_, ?_, ?_⟩
  · intro v s p hu hm he ht hl hp hd
    refine Answers.of_runs (execAncPassStart_run hu hm he ht hl hp (Chip.passDue_of hd)) fun d hd => ?_
    refine ⟨?_, hd.onlyAnc ((Chip.OnlyAnc.refl ..).setAnc _), hd.keeps fun _ _ _ => rfl⟩
    rw [hd.ancOf_eq, Chip.setAnc_ancOf, if_pos rfl]
    rfl
  · intro v ranked s hp
    refine Answers.of_runs (execAncPassEnd_run hp) fun d hd => ?_
    rw [hd.ancOf_eq, Counts, hd.rd _ rfl]
    obtain ⟨hend, hfirst⟩ := s.chip.passEnd_ends v ranked
    exact ⟨hend, hfirst, s.chip.passEnd_counts v ranked⟩
  · intro v x s hp hs hr hb ht ha
    refine Answers.of_runs (execAncPassEnd_run hp) fun d hd => ?_
    rw [Chip.passEnd_first hs hr hb ht ha] at hd
    have hslot : (d.ancOf v).slot 0 = s.chip.filled x.bounded.asSlot := by
      rw [hd.ancOf_eq, Chip.passReport_slot, Chip.fillSlot_slot, if_pos ⟨rfl, rfl⟩]
    rw [hslot, Counts, hd.rd _ rfl, (Chip.passReport_in ..).rd (by decide +kernel) (by decide +kernel)]
    refine ⟨rfl, rfl, rfl, rfl, rfl, ?_, s.chip.fillSlot_counts v 0 _⟩
    rw [hd.ancOf_eq, Chip.passReport_ancOf]
    rfl
  · intro v k x s hp ha hx
    refine Answers.of_runs (execProbationEnd_admits hp ha hx) fun d hd => ?_
    rw [Chip.inc_eq] at hd
    have hslot : ∀ j, (d.ancOf v).slot j = if j = k.val then ((s.chip.ancOf v).slot j).admitted x else (s.chip.ancOf v).slot j :=
      fun j => by
        rw [hd.ancOf_eq, Chip.ancOf_wrRow]
        simp only [Chip.setSlot_slot, true_and]
        split <;> rfl
    refine ⟨(hslot k).trans (if_pos rfl), fun j hj => (hslot j).trans (if_neg hj), ?_,
      hd.onlyAnc ((((Chip.OnlyAnc.refl ..).setSlot ..).setSlot ..).wrRow ..),
      hd.keeps ((((Chip.Keeps.refl _ _).setSlot _ _ _).setSlot _ _ _).wrRow rfl)⟩
    rw [Counts, hd.rd _ rfl, Chip.rd_wrRow_same, Chip.rd_setSlot, Chip.rd_setSlot]
  · intro v k x s hp ha hx hn
    refine Answers.of_runs (execProbationEnd_empties hp ha hx hn) fun d hd => ?_
    have hst : (((s.chip.setSlot v k fun s => { s with x := contribution x }).ancOf v).slot k).state = .probation := by
      rw [Chip.setSlot_slot, if_pos ⟨rfl, rfl⟩, ← hp]
    have hne : ((((s.chip.setSlot v k fun s => { s with x := contribution x }).ancOf v).slot k)).state ≠ .empty := by
      rw [hst]
      exact SlotState.noConfusion
    rw [hd.ancOf_eq, hd.pe_eq, Counts, hd.rd _ rfl, Stays, hd.rd _ rfl]
    exact ⟨Chip.emptySlot_same hne, Chip.emptySlot_noTaps hne, Chip.emptySlot_counts hne, Chip.emptySlot_stays hst⟩
  · intro v k s x hf hs hu
    refine Answers.of_runs (execFrozenThaw_run hf hs hu) fun d hd => ?_
    rw [Chip.inc_eq] at hd
    refine ⟨?_, ?_, hd.onlyAnc (((Chip.OnlyAnc.refl ..).setSlot ..).wrRow ..),
      hd.keeps (((Chip.Keeps.refl _ _).setSlot _ _ _).wrRow rfl)⟩
    · rw [hd.ancOf_eq, Chip.ancOf_wrRow, Chip.setSlot_slot, if_pos ⟨rfl, rfl⟩]
    · rw [Counts, hd.rd _ rfl, Chip.rd_wrRow_same, Chip.rd_setSlot]
  · intro v k s x hf hu ht ha hn
    refine Answers.of_runs (execAncHoldExpire_run hf hu ht ha hn) fun d hd => ?_
    have hst : ((s.chip.ancOf v).slot k).state = .frozen := hf
    have hne : ((s.chip.ancOf v).slot k).state ≠ .empty := by rw [hst]; exact SlotState.noConfusion
    have hnp : ((s.chip.ancOf v).slot k).state ≠ .probation := by rw [hst]; exact SlotState.noConfusion
    rw [hd.ancOf_eq, Counts, hd.rd _ rfl, Counts, hd.rd _ rfl]
    exact ⟨Chip.emptySlot_same hne, Chip.emptySlot_drops hne hnp, Chip.emptySlot_counts hne⟩

end

section
/-!
PROOFS. The writes of bundle cancellation: slots, the enable, the map's clear, its persistence and its copy (R128, R132, R134, R136).
-/
set_option Elab.async false
namespace Sys2Proof.Machine

/-! What stands after an accepted write: the access result hides no other part. -/

section
variable {c d : Chip} {a : Access} (h : EvFrame { c with access := a } d)
include h

theorem EvFrame.written_ancOf (v : Nat) : d.ancOf v = c.ancOf v := h.ancOf_eq v

theorem EvFrame.written_nv : d.nv = c.nv := h.nv_eq

theorem EvFrame.written_rd {r : Reg} (hr : r.ofEvents = false) (i row : Nat) : d.rd r i row = c.rd r i row := h.rd r hr i row

theorem EvFrame.written_keeps {b : Chip} {P : Key → Prop} (hk : b.Keeps c P) : b.Keeps d P := h.keeps hk

end

/-! A write of a slot (R134). -/

/-- A row in range leaves the domain check and what follows it. -/
theorem Chip.gatedRow_of_lt {r : Reg} {row : Nat} (h : row < max 1 r.info.rows) (c : Chip) (i : Nat) (f : Chip → Abort × Chip) :
    c.gatedRow r i row f = c.gated r i f := if_neg (Nat.not_le.2 h)

theorem Chip.gatedRow_of_le {r : Reg} {row : Nat} (h : max 1 r.info.rows ≤ row) (c : Chip) (i : Nat) (f : Chip → Abort × Chip) :
    c.gatedRow r i row f = (.row, c) := if_pos h

theorem execAncSlotWrite_gated {v : PeNo} {row : Nat} (h : row < 8) (x : BitVec 64) (s : State) :
    execAncSlotWrite v row x s = s.runWr fun c => c.gated .ANC_SLOT v fun c => c.writeAncSlot v row x.toNat := by
  rw [execAncSlotWrite]
  exact congrArg s.runWr (funext fun c => Chip.gatedRow_of_lt h c v _)

/-- The slot of a neighbour that software pins (R134). -/
def pinnedSlot (n : Nat) : Slot := { neighbour := n, pinned := true }

theorem Chip.writeAncSlot_pins {c : Chip} {v k x : Nat} (hx : x.testBit 60 = true) (hr : c.reach v (bits x 56 48) = true)
    (hn : ∀ j ∈ (c.ancOf v).naming (bits x 56 48), j = k) :
    c.writeAncSlot v k x = (.ok, (c.emptySlot v k).fillSlot v k (pinnedSlot (bits x 56 48))) := by
  have ha : (((c.ancOf v).naming (bits x 56 48)).any fun j => j != k) = false := by simpa using hn
  unfold Chip.writeAncSlot
  dsimp only
  rw [if_pos hx, hr, ha]
  rfl

theorem Chip.writeAncSlot_empties {c : Chip} {v k x : Nat} (hx : x.testBit 60 = false) :
    c.writeAncSlot v k x = (.ok, c.emptySlot v k) := by
  unfold Chip.writeAncSlot
  dsimp only
  rw [hx]
  rfl

/-! Victims whose unpinned slots are emptied (R128, R136). -/

/-- The unpinned slots of a victim are emptied. -/
def Chip.emptyUnpinned (c : Chip) (v : Nat) : Chip :=
  c.each (List.range 8) fun c k => if ((c.ancOf v).slot k).pinned then c else c.emptySlot v k

/-- What emptied slots satisfy and a slot satisfied before, it satisfies after the unpinned slots of some victim were emptied. -/
theorem Chip.emptyUnpinned_keeps {P : Slot → Prop} (h0 : P {}) {c : Chip} {w j : Nat} (h : P ((c.ancOf w).slot j)) (v : Nat) :
    P (((c.emptyUnpinned v).ancOf w).slot j) := by
  refine Chip.each_keeps (fun d => P ((d.ancOf w).slot j)) _ (fun d k hd => ?_) _ c h
  split
  · exact hd
  · rw [Chip.emptySlot_slot]
    split
    · exact h0
    · exact hd

/-- The slot is `EMPTY` unless it is pinned. -/
def Slot.Released (s : Slot) : Prop := s.pinned = false → s.state = .empty

theorem Slot.released_empty : Slot.Released {} := fun _ => rfl

theorem Chip.emptyUnpinned_released (c : Chip) (v : Nat) {k : Nat} (hk : k < 8) : (((c.emptyUnpinned v).ancOf v).slot k).Released := by
  refine Chip.each_establishes (a := k) (P := fun d => ((d.ancOf v).slot k).Released) (fun d j hd => ?_) (fun d => ?_)
    (List.mem_range.2 hk) c
  · split
    · exact hd
    · rw [Chip.emptySlot_slot]
      split
      · exact Slot.released_empty
      · exact hd
  · split
    · next hp => exact fun hn => absurd hp (by simp [hn])
    · exact fun _ => d.emptySlot_state v k

theorem Chip.emptyUnpinned_rest (c : Chip) (v w : Nat) : ((c.emptyUnpinned v).ancOf w).rest = (c.ancOf w).rest := by
  refine Chip.each_same (fun d => (d.ancOf w).rest) _ (fun d k => ?_) _ c
  split
  · rfl
  · exact d.emptySlot_rest v k w

/-- The unpinned slots of a victim are emptied, and the rest of its canceller changes. -/
def Chip.releaseVictim (f : AncSt → AncSt) (c : Chip) (v : Nat) : Chip := (c.emptyUnpinned v).setAnc v f

section
variable {f : AncSt → AncSt} (hf : ∀ a, (f a).slots = a.slots)
include hf

theorem Chip.releaseVictim_keeps {P : Slot → Prop} (h0 : P {}) {c : Chip} {w j : Nat} (h : P ((c.ancOf w).slot j)) (v : Nat) :
    P (((c.releaseVictim f v).ancOf w).slot j) := by
  rw [Chip.releaseVictim, Chip.setAnc_slot hf]
  exact Chip.emptyUnpinned_keeps h0 h v

/-- After a loop that releases victims, an unpinned slot of one of them is `EMPTY`; so is one that was `EMPTY` before. -/
theorem Chip.each_releaseVictim_empty {α : Type} {key : α → Nat} {l : List α} {c : Chip} {v k : Nat} (hk : k < 8)
    (hv : (∃ a ∈ l, key a = v) ∨ ((c.ancOf v).slot k).state = .empty) (hp : ((c.ancOf v).slot k).pinned = false) :
    (((c.each l fun c a => c.releaseVictim f (key a)).ancOf v).slot k).state = .empty := by
  have hkeep : ∀ (d : Chip) (a : α), ((d.ancOf v).slot k).Released → (((d.releaseVictim f (key a)).ancOf v).slot k).Released :=
    fun d a hd => Chip.releaseVictim_keeps hf (P := Slot.Released) Slot.released_empty hd (key a)
  have hreleased : (((c.each l fun c a => c.releaseVictim f (key a)).ancOf v).slot k).Released := by
    rcases hv with ⟨a, ha, rfl⟩ | he
    · refine Chip.each_establishes (P := fun d => ((d.ancOf (key a)).slot k).Released) hkeep (fun d => ?_) ha c
      rw [Chip.releaseVictim, Chip.setAnc_slot hf]
      exact d.emptyUnpinned_released (key a) hk
    · exact Chip.each_keeps (fun d => ((d.ancOf v).slot k).Released) _ hkeep l c fun _ => he
  exact hreleased (Chip.each_keeps (fun d => ((d.ancOf v).slot k).pinned = false) _
    (fun d a hd => Chip.releaseVictim_keeps hf (P := fun s => s.pinned = false) rfl hd (key a)) l c hp)

end

/-- After a loop that releases victims, what the change of the rest sets holds of each of them; so it does where it held before. -/
theorem Chip.each_releaseVictim_rest {α : Type} {key : α → Nat} {l : List α} {c : Chip} {v : Nat} {f : AncSt → AncSt}
    {P : AncSt → Prop} (hP : ∀ {a b : AncSt}, a.rest = b.rest → P a → P b) (hf : ∀ a, P (f a)) (hv : (∃ a ∈ l, key a = v) ∨ P (c.ancOf v)) :
    P ((c.each l fun c a => c.releaseVictim f (key a)).ancOf v) := by
  have hturn : ∀ (d : Chip) (w : Nat), w = v ∨ P (d.ancOf v) → P ((d.releaseVictim f w).ancOf v) := fun d w h => by
    rw [Chip.releaseVictim, Chip.setAnc_ancOf]
    split
    · exact hf _
    · next hne => exact hP (d.emptyUnpinned_rest w v).symm (h.resolve_left fun h => hne h.symm)
  rcases hv with ⟨a, ha, hav⟩ | h
  · exact Chip.each_establishes (P := fun d => P (d.ancOf v)) (fun d b hd => hturn d _ (.inr hd)) (fun d => hturn d _ (.inl hav)) ha c
  · exact Chip.each_keeps (fun d => P (d.ancOf v)) _ (fun d b hd => hturn d _ (.inr hd)) l c h

/-! The enable (R128). -/

/-- A canceller whose passes stop. -/
def AncSt.stopped (a : AncSt) : AncSt := { a with passing := false }

/-- The pair engines of a port release their slots, as victims. -/
def Chip.releasePort (c : Chip) (p : Nat) : Chip := c.each (c.pesOf p) fun c v => c.releaseVictim AncSt.stopped v

theorem Chip.writeAncEnable_zero (c : Chip) (p : Nat) : c.writeAncEnable p 0 = (.ok, (c.wr .ANC_ENABLE p 0).releasePort p) := rfl

theorem Chip.pesOf_wr (c : Chip) (r : Reg) (i v p : Nat) (hr : r ≠ .QUAD_FORMATION) : (c.wr r i v).pesOf p = c.pesOf p := by
  rw [Chip.pesOf, Chip.pesOf, Chip.width, Chip.width, Chip.formation_eq_rd, Chip.formation_eq_rd, Chip.wr_eq,
    Chip.rd_wrRow_reg _ _ _ _ _ _ _ _ hr.symm hr]

theorem Chip.releasePort_enable (c : Chip) (p i : Nat) : (c.releasePort p).rd .ANC_ENABLE i = c.rd .ANC_ENABLE i := by
  have hin : Within (.union [Chip.emptySlot_fx, .of [.anc] []]) c (c.releasePort p) := by
    refine Within.each (fun _ _ h => Within.setAnc (Within.each (fun _ _ h => ?_) h) (by decide +kernel)) (.refl _ _)
    exact Within.ite h (Chip.emptySlot_in h (by decide +kernel))
  exact hin.rd (by decide +kernel) (by decide +kernel) ..

section
variable {c : Chip} {p v : Nat} (hv : v ∈ c.pesOf p)
include hv

theorem Chip.releasePort_passing : ((c.releasePort p).ancOf v).passing = false :=
  Chip.each_releaseVictim_rest (key := id) (P := fun a => a.passing = false)
    (fun h ha => (congrArg AncSt.passing h).symm.trans ha) (fun _ => rfl) (.inl ⟨v, hv, rfl⟩)

theorem Chip.releasePort_empty {k : Nat} (hk : k < 8) (hp : ((c.ancOf v).slot k).pinned = false) :
    (((c.releasePort p).ancOf v).slot k).state = .empty :=
  Chip.each_releaseVictim_empty (f := AncSt.stopped) (key := id) (fun _ => rfl) hk (.inl ⟨v, hv, rfl⟩) hp

end

/-! The map's clear (R136). -/

/-- A canceller whose map is cleared: no first pass has completed, and a pass in progress has seen the clear. -/
def AncSt.forgotten (a : AncSt) : AncSt := { a with firstDone := false, cleared := a.passing }

/-- Every canceller releases its slots, in the order of the table. -/
def Chip.releaseAll (c : Chip) : Chip := c.each c.anc fun c e => c.releaseVictim AncSt.forgotten e.1

theorem Chip.writeMapClear_one (c : Chip) :
    c.writeMapClear 1 = (.ok, if c.releaseAll.rdBool .ANC_MAP_PERSIST then c.releaseAll.weaveCopy else c.releaseAll) := rfl

/-- A victim that the table of cancellers does not list has a canceller at rest. -/
theorem Chip.ancOf_unlisted {c : Chip} {v : Nat} (h : ¬ ∃ e ∈ c.anc, e.1 = v) : c.ancOf v = {} := by
  have hnone : ∀ t : Tab Nat AncSt, (¬ ∃ e ∈ t, e.1 = v) → t.get? v = none := fun t => by
    induction t with
    | nil => exact fun _ => rfl
    | cons e t ih =>
      intro ht
      rw [Tab.get?_cons, if_neg fun he => ht ⟨e, List.mem_cons_self, he.symm⟩]
      exact ih fun ⟨x, hx, hv⟩ => ht ⟨x, List.mem_cons_of_mem _ hx, hv⟩
  rw [Chip.ancOf, Tab.getD_def, hnone _ h]
  rfl

theorem Chip.weaveCopy_ancOf (c : Chip) (v : Nat) : c.weaveCopy.ancOf v = c.ancOf v :=
  (Chip.weaveCopy_in (.refl Chip.weaveCopy_fx c) (by decide +kernel)).ancOf_eq (by decide +kernel) v

theorem Chip.releaseAll_empty {c : Chip} {v k : Nat} (hk : k < 8) (hp : ((c.ancOf v).slot k).pinned = false) :
    ((c.releaseAll.ancOf v).slot k).state = .empty := by
  refine Chip.each_releaseVictim_empty (f := AncSt.forgotten) (fun _ => rfl) hk ?_ hp
  by_cases hv : ∃ e ∈ c.anc, e.1 = v
  · exact .inl hv
  · exact .inr (by rw [Chip.ancOf_unlisted hv]; rfl)

theorem Chip.releaseAll_firstDone (c : Chip) (v : Nat) : (c.releaseAll.ancOf v).firstDone = false := by
  refine Chip.each_releaseVictim_rest (P := fun a => a.firstDone = false)
    (fun h ha => (congrArg AncSt.firstDone h).symm.trans ha) (fun _ => rfl) ?_
  by_cases hv : ∃ e ∈ c.anc, e.1 = v
  · exact .inl hv
  · exact .inr (by rw [Chip.ancOf_unlisted hv])

/-! The copy of the map (R132, R136). -/

/-- The MRAM copy is replaced or erased, and no change waits to be copied. -/
def Chip.setWeave (c : Chip) (w : Option (List WeaveEntry)) : Chip :=
  ({ c with nv := { c.nv with weave := w } }).setBit .ANC_MAP_STATUS 0 2 false

theorem Chip.weaveCopy_eq (c : Chip) : c.weaveCopy = c.setWeave (some c.weaveEntries) := rfl

theorem Chip.writeMapPersist_eq {c : Chip} {x : Nat} (hx : x ≤ 1) :
    c.writeMapPersist x = (.ok, if x = 0 then (c.wr .ANC_MAP_PERSIST 0 x).setWeave none else c.wr .ANC_MAP_PERSIST 0 x) :=
  if_neg (Nat.not_lt.2 hx)

section
variable (c : Chip) (w : Option (List WeaveEntry))

theorem Chip.setWeave_nv : (c.setWeave w).nv = { c.nv with weave := w } := Chip.wrRow_nv ..

theorem Chip.setWeave_bare : (c.setWeave w).bare = { c.bare with nv := { c.nv with weave := w } } := Chip.bare_wrRow ..

theorem Chip.setWeave_current : (c.setWeave w).rdBit .ANC_MAP_STATUS 2 = false := Chip.rdBit_setBit_same _ _ _ _ _ (by decide)

theorem Chip.Keeps.setWeave {b c : Chip} {P : Key → Prop} (h : b.Keeps c P) (hP : P ⟨.ANC_MAP_STATUS, 0, 0⟩)
    (w : Option (List WeaveEntry)) : b.Keeps (c.setWeave w) P :=
  Chip.Keeps.wrRow (c := { c with nv := { c.nv with weave := w } }) h hP

theorem Chip.setWeave_persist : (c.setWeave w).rd .ANC_MAP_PERSIST = c.rd .ANC_MAP_PERSIST :=
  Chip.rd_wrRow_reg _ _ _ _ _ _ _ _ (by decide) (by decide)

end

theorem execWeaveMapCopyWrite_run {s : State} (hp : s.chip.rdBool .ANC_MAP_PERSIST = true)
    (hd : s.chip.rdBit .ANC_MAP_STATUS 2 = true) :
    ∃ f, execWeaveMapCopyWrite s = s.run f ∧ f s.chip = s.chip.setWeave (some s.chip.weaveEntries) := by
  refine ⟨_, execWeaveMapCopyWrite.eq_1 s, (if_pos ?_).trans s.chip.weaveCopy_eq⟩
  rw [hp, hd]
  rfl

end Sys2Proof.Machine
end

section
set_option Elab.async false
open Sys2Proof Sys2Proof.Machine

/-- Settles O19: a slot is emptied and filled by its write, the loops over victims release every unpinned slot they meet, and the copy
of the map is one field and one bit. -/
theorem cancellerWritesAreCarriedOut : Obligations.CancellerWritesAreCarriedOut := by
  unfold Obligations.CancellerWritesAreCarriedOut
  refine ⟨?_, ?_, ?_, ?_, ?_, ?_, ?_, ?_⟩
  · intro v row x s n hrow hs hx hr hn
    refine Answers.of_write _ (execAncSlotWrite_gated hrow x s) hs (Chip.writeAncSlot_pins hx hr hn) fun d hd => ?_
    have hslot : ∀ j, (d.ancOf v).slot j
        = if j = row then (s.chip.emptySlot v row).filled (pinnedSlot n) else (s.chip.ancOf v).slot j := fun j => by
      rw [hd.written_ancOf, Chip.fillSlot_slot]
      by_cases hj : j = row
      · rw [if_pos ⟨rfl, hj⟩, if_pos hj]
      · rw [if_neg fun h => hj h.2, if_neg hj, Chip.emptySlot_slot, if_neg fun h => hj h.2.1]
    rw [hslot row, if_pos rfl]
    exact ⟨hd.access, rfl, rfl, rfl, fun j hj => (hslot j).trans (if_neg hj)⟩
  · intro v row x s hrow hs hx
    refine Answers.of_write _ (execAncSlotWrite_gated hrow x s) hs (Chip.writeAncSlot_empties hx) fun d hd => ?_
    rw [hd.written_ancOf]
    refine ⟨hd.access, s.chip.emptySlot_state v row, fun j hj => ?_⟩
    rw [Chip.emptySlot_slot, if_neg fun h => hj h.2.1]
  · intro v row x s hrow
    exact Answers.of_abort (execAncSlotWrite.eq_1 v row x s) (Chip.gatedRow_of_le hrow s.chip v _) (by decide) (by decide)
      fun d hd => hd.turnedAway.2
  · intro p s hs
    refine Answers.of_write (s.chip.wr .ANC_ENABLE p 1) (execAncEnableWrite.eq_1 p 1 s) hs rfl fun d hd => ?_
    refine ⟨hd.access, ?_, hd.written_keeps ((Chip.Keeps.refl _ _).wrRow rfl)⟩
    rw [hd.written_rd rfl, Chip.wr_eq, Chip.rd_wrRow_same]
    rfl
  · intro p s hs
    refine Answers.of_write _ (execAncEnableWrite.eq_1 p 0 s) hs (s.chip.writeAncEnable_zero p) fun d hd => ?_
    refine ⟨hd.access, ?_, fun v hv => ?_⟩
    · rw [hd.written_rd rfl, Chip.releasePort_enable, Chip.wr_eq, Chip.rd_wrRow_same]
      rfl
    · rw [← Chip.pesOf_wr s.chip .ANC_ENABLE p 0 p (by decide)] at hv
      rw [hd.written_ancOf]
      exact ⟨Chip.releasePort_passing hv, fun k hk hp => Chip.releasePort_empty hv hk (by rwa [Chip.wr_eq, Chip.ancOf_wrRow])⟩
  · intro s hs
    refine Answers.of_write _ (execAncMapClear.eq_1 1 s) hs s.chip.writeMapClear_one fun d hd => ?_
    have hanc : ∀ v, d.ancOf v = s.chip.releaseAll.ancOf v := fun v => by
      rw [hd.written_ancOf]
      split
      · exact s.chip.releaseAll.weaveCopy_ancOf v
      · rfl
    refine ⟨hd.access, fun v k hk hp => ?_, fun v => ?_⟩
    · rw [hanc]
      exact Chip.releaseAll_empty hk hp
    · rw [hanc]
      exact s.chip.releaseAll_firstDone v
  · intro x s hs hx
    refine Answers.of_write _ (execAncMapPersistWrite.eq_1 x s) hs (Chip.writeMapPersist_eq hx) fun d hd => ?_
    have hwr : (s.chip.wr .ANC_MAP_PERSIST 0 x.toNat).rd .ANC_MAP_PERSIST = x.toNat :=
      (Chip.rd_wrRow_same ..).trans (Nat.mod_eq_of_lt x.isLt)
    have hkeep : s.chip.Keeps (s.chip.wr .ANC_MAP_PERSIST 0 x.toNat)
        fun k => k = ⟨.ANC_MAP_PERSIST, 0, 0⟩ ∨ k = ⟨.ANC_MAP_STATUS, 0, 0⟩ := (Chip.Keeps.refl _ _).wrRow (.inl rfl)
    by_cases h0 : x = 0
    · have hz : x.toNat = 0 := by rw [h0]; rfl
      rw [if_pos hz] at hd
      rw [if_pos h0, hd.written_rd rfl, hd.written_nv, Chip.setWeave_persist, Chip.setWeave_nv]
      exact ⟨hd.access, hwr, rfl, hd.written_keeps (hkeep.setWeave (.inr rfl) none)⟩
    · have hz : x.toNat ≠ 0 := fun h => h0 (BitVec.eq_of_toNat_eq h)
      rw [if_neg hz] at hd
      rw [if_neg h0, hd.written_rd rfl, hd.written_nv, hwr, Chip.wr_eq, Chip.wrRow_nv]
      exact ⟨hd.access, rfl, rfl, hd.written_keeps hkeep⟩
  · intro s hp hb
    refine Answers.of_runs (execWeaveMapCopyWrite_run hp hb) fun d hd => ?_
    have hkeep : s.chip.Keeps s.chip fun k => k = ⟨.ANC_MAP_STATUS, 0, 0⟩ := .refl _ _
    refine ⟨?_, ?_, hd.bare.trans (Chip.setWeave_bare ..), hd.keeps (hkeep.setWeave rfl _)⟩
    · rw [hd.nv_eq, Chip.setWeave_nv]
    · rw [Chip.rdBit, hd.rd _ rfl]
      exact s.chip.setWeave_current _

end

section
/-!
PROOFS. The next needed instant of a port (R150) depends on the port's grid alone of what the link controllers hold. `Chip.put_ports`
puts other controllers in their place; the scheduler's decision discards and marks frames on the way, so it is followed through with
the block that it leaves.
-/
set_option Elab.async false
namespace Sys2Proof.Machine

theorem Chip.put_ports_ite (a : Prop) [Decidable a] (c d : Chip) (v : Tab Nat PortSt) :
    (if a then c else d).put_ports v = if a then c.put_ports v else d.put_ports v := apply_ite (Chip.put_ports · v) a c d

section
variable (c : Chip) (v : Tab Nat PortSt)

/-! What a decision changes is the same, whatever the controllers hold. -/

theorem Chip.put_ports_wrRow (r : Reg) (i row x : Nat) : (c.put_ports v).wrRow r i row x = (c.wrRow r i row x).put_ports v :=
  (Chip.put_ports_ite _ { c with dict := c.dict.del ⟨r, i, row⟩ }
    { c with dict := c.dict.put ⟨r, i, row⟩ (x % 2 ^ r.width) } v).symm

theorem Chip.put_ports_pfcEval (p : Nat) : (c.put_ports v).pfcEval p = (c.pfcEval p).put_ports v := by
  have hloop (f : Chip → Nat → Chip) (hf : ∀ d k, f (d.put_ports v) k = (f d k).put_ports v) :
      (c.put_ports v).each (List.range 8) f = (c.each (List.range 8) f).put_ports v :=
    List.foldl_hom (fun d : Chip => d.put_ports v) hf
  unfold Chip.pfcEval
  rw [Chip.put_ports_ite, hloop]
  · rfl
  · intro d k
    simp only [Chip.put_ports_ite, Chip.setBit_eq, Chip.put_ports_wrRow]
    rfl

theorem Chip.put_ports_countHeld (f : Frame) (close : Nat) :
    (c.put_ports v).countHeld f close = (c.countHeld f close).put_ports v := by
  unfold Chip.countHeld
  rw [Chip.put_ports_ite]
  exact congrArg (ite _ _) (Chip.put_ports_wrRow (c.setQueue ..) ..)

theorem Chip.put_ports_dropQueued (f : Frame) (k : DropKind) : (c.put_ports v).dropQueued f k = (c.dropQueued f k).put_ports v :=
  (congrArg (Chip.pfcEval · f.port) (Chip.put_ports_wrRow (c.setQueue ..) ..)).trans (Chip.put_ports_pfcEval ..)

/-! The decision (R239). -/

/-- What the judgement of a candidate and the choice among candidates read outside the queues. -/
theorem Chip.put_ports_reads :
    (c.put_ports v).svcOf = c.svcOf ∧ (c.put_ports v).isPre = c.isPre ∧ (c.put_ports v).qTimed = c.qTimed ∧
      (c.put_ports v).gateOpen = c.gateOpen ∧ (c.put_ports v).gateClose = c.gateClose ∧
      (c.put_ports v).shapersOk = c.shapersOk ∧ (c.put_ports v).longestWindow = c.longestWindow ∧
      (c.put_ports v).minWire = c.minWire ∧ (c.put_ports v).inc1 = c.inc1 ∧ (c.put_ports v).latestCut = c.latestCut :=
  ⟨rfl, rfl, rfl, rfl, rfl, rfl, rfl, rfl, rfl, rfl⟩

theorem Chip.put_ports_judge (g : Grid) (p pos : Nat) (x : Cand) (r : Option Nat) :
    (c.put_ports v).judge g p pos x r = Prod.map id (Chip.put_ports · v) (c.judge g p pos x r) := by
  have hnever : ((c.put_ports v).dropQueued x.frame .other).addField .SVC_COUNTERS p (c.svcOf x.frame) 12 4 1
      = ((c.dropQueued x.frame .other).addField .SVC_COUNTERS p (c.svcOf x.frame) 12 4 1).put_ports v := by
    rw [Chip.put_ports_dropQueued]
    exact Chip.put_ports_wrRow ..
  unfold Chip.judge
  simp only [c.put_ports_reads v, hnever, Chip.put_ports_countHeld]
  repeat' split
  all_goals rfl

theorem Chip.put_ports_tryAll (g : Grid) (p pos : Nat) (r : Option Nat) (pass : Bool) (l : List (Cand × Bool)) :
    (c.put_ports v).tryAll g p pos r pass l
      = Prod.map id (Prod.map id (Chip.put_ports · v)) (c.tryAll g p pos r pass l) := by
  induction l generalizing c pass with
  | nil => rfl
  | cons x l ih =>
    unfold Chip.tryAll
    rw [Chip.put_ports_judge]
    dsimp only [Prod.map, id]
    split
    · rfl
    · exact ih ..

theorem Chip.put_ports_dueTimed : (c.put_ports v).dueTimed = c.dueTimed := by
  have hins : (c.put_ports v).dueInsert = c.dueInsert := by
    funext x l
    induction l with
    | nil => rfl
    | cons y l ih =>
      unfold Chip.dueInsert
      rw [ih]
      rfl
  funext p s
  unfold Chip.dueTimed
  rw [hins]
  rfl

theorem Chip.put_ports_choose (g : Grid) (p pos : Nat) (express : Bool) :
    (c.put_ports v).choose g p pos express = Prod.map id (Chip.put_ports · v) (c.choose g p pos express) := by
  unfold Chip.choose
  simp only [c.put_ports_reads v, show (c.put_ports v).sch = c.sch from rfl, Chip.put_ports_dueTimed, Chip.put_ports_tryAll,
    Prod.map, id]
  split
  · rfl
  · simp only [fun d : Chip => d.put_ports_reads v, show ∀ d : Chip, (d.put_ports v).reservation = d.reservation from fun _ => rfl,
      show ∀ d : Chip, (d.put_ports v).classCands = d.classCands from fun _ => rfl]

/-! The instant (R150). -/

theorem Chip.put_ports_firstFit (g : Grid) (p : Nat) (x : Cand) (n e : Nat) :
    (c.put_ports v).firstFit g p x n e = c.firstFit g p x n e := by
  induction n generalizing e with
  | zero => rfl
  | succ n ih =>
    unfold Chip.firstFit
    simp only [ih]
    rfl

theorem Chip.put_ports_neededFrom (g : Grid) (p : Nat) (l : List Cand) (n e : Nat) :
    (c.put_ports v).neededFrom g p l n e = c.neededFrom g p l n e := by
  induction n generalizing e with
  | zero => rfl
  | succ n ih =>
    unfold Chip.neededFrom
    simp only [ih, Chip.put_ports_firstFit, Chip.put_ports_choose, Prod.map_fst, id]
    rfl

end

section
variable {c : Chip} {v : Tab Nat PortSt} {p : Nat} (h : (c.put_ports v).grid p = c.grid p)
include h

theorem Chip.put_ports_nextNeeded : (c.put_ports v).nextNeeded p = c.nextNeeded p := by
  unfold Chip.nextNeeded
  rw [h]
  simp only [Chip.put_ports_neededFrom]
  rfl

theorem Chip.put_ports_wireIdle : (c.put_ports v).wireIdle p = c.wireIdle p := by
  unfold Chip.wireIdle
  rw [h]
  rfl

end

end Sys2Proof.Machine
end

section
/-!
PROOFS. The operations of low-power idle: what each leaves in the port's record, in the pair engines and in the objects
(R140 to R152).
-/
set_option Elab.async false
namespace Sys2Proof.Machine

/-! Frames without objects, and loops over pair engines. -/

/-- An operation that touches no object keeps every cell. -/
theorem Chip.Keeps.within {b c d : Chip} {P : Key → Prop} {x : Fx} (h : b.Keeps c P) (hw : Within x c d) (hx : x.regs = 0) :
    b.Keeps d P := fun k hk hn => (hw.cell k (by rw [Fx.hasReg, hx, Nat.zero_testBit])).trans (h k hk hn)

/-- A part of a pair engine that a change leaves alone is as before, whichever engine changes. -/
theorem Chip.setPe_part {β : Type} {g : PeSt → β} {f : PeSt → PeSt} (hg : ∀ x, g (f x) = g x) (c : Chip) (v e : Nat) :
    g ((c.setPe v f).pe e) = g (c.pe e) := by
  by_cases h : e = v
  · rw [h, Chip.setPe_same, hg]
  · rw [Chip.setPe_other _ _ _ _ h]

/-- A loop that changes pair engines leaves each engine that it names as every change of it makes it. -/
theorem Chip.each_setPe {α : Type} {l : List α} {key : α → Nat} {f : α → PeSt → PeSt} {P : PeSt → Prop}
    (hf : ∀ a ∈ l, ∀ x, P (f a x)) {c : Chip} {e : Nat} (he : (∃ a ∈ l, key a = e) ∨ P (c.pe e)) :
    P ((c.each l fun c a => c.setPe (key a) (f a)).pe e) := by
  induction l generalizing c with
  | nil => exact he.resolve_left (by simp)
  | cons a l ih =>
    refine ih (fun b hb => hf b (List.mem_cons_of_mem _ hb)) (c := c.setPe (key a) (f a)) ?_
    by_cases hae : key a = e
    · exact .inr (by rw [hae, Chip.setPe_same]; exact hf a List.mem_cons_self _)
    · rw [Chip.setPe_other _ _ _ _ (Ne.symm hae)]
      refine he.imp_left fun ⟨b, hb, hbe⟩ => ⟨b, (List.mem_cons.1 hb).resolve_left ?_, hbe⟩
      rintro rfl
      exact hae hbe

/-- Neighbours that begin to drive a signal do not touch the history of a precoder. -/
theorem Chip.ancPortDrives_hist (c : Chip) (p e : Nat) : ((c.ancPortDrives p).pe e).hist = (c.pe e).hist := by
  have hreprobe : ∀ (c : Chip) v k, ((c.reprobe v k).pe e).hist = (c.pe e).hist := fun c v k => by
    unfold Chip.reprobe
    split
    · rfl
    · refine (Chip.setPe_part (g := PeSt.hist) ?_ _ v e).trans rfl
      exact fun _ => rfl
  refine Chip.each_same (fun d => (d.pe e).hist) _ (fun c n => ?_) _ _
  split
  · refine Chip.each_same (fun d => (d.pe e).hist) _ (fun c a => ?_) _ _
    refine Chip.each_same (fun d => (d.pe e).hist) _ (fun c k => ?_) _ _
    dsimp only
    split
    · rfl
    · split
      · rfl
      · rw [Chip.pe_raise, Chip.inc_eq, Chip.pe_wrRow]
        exact hreprobe c a.1 k
  · rfl

/-! The phases (Table 6-1). -/

/-- The record of a port that enters a phase: time spent quiet adds up (R154). -/
def LpiSt.enter (st : LpiState) (root cw : Nat) (l : LpiSt) : LpiSt :=
  { l with
    state := st, phaseCw := cw, quietFrom := if st = .quiet then root else l.quietFrom
    quietEdges := if l.state = .quiet && st ≠ .quiet then l.quietEdges + (root - l.quietFrom) else l.quietEdges }

/-- The record of a port that has entered sleep (R141, R145). -/
def LpiSt.slept (q : Nat) (asked acked : Bool) (op : Nat) (run : Bool) (l : LpiSt) : LpiSt :=
  { l with
    quietSeq := q, asked := asked, acked := acked, sent := op, due := none, charRun := run, charOk := none, charWoke := false,
    charLeft := [], miss := 0, failed := [] }

/-- The record of a port whose wake has started. -/
def LpiSt.waking (l : LpiSt) : LpiSt := { l with due := none, plan := none, charRun := l.charRun && l.charWoke }

section
variable (c : Chip) (p : Nat)

theorem Chip.lpiEnter_eq (st : LpiState) :
    c.lpiEnter p st = (if (c.port p).lpi.state = .awake && st ≠ .awake then c.markSlept p else c).setLpi p
      (.enter st c.root (c.boundaryCw p)) := by
  unfold Chip.lpiEnter
  split
  all_goals
    refine congrArg (Chip.setLpi _ p) (funext fun l => ?_)
    dsimp only [LpiSt.enter]
    split <;> rfl

theorem Chip.lpiEnter_port (st : LpiState) :
    (c.lpiEnter p st).port p = { c.port p with lpi := (c.port p).lpi.enter st c.root (c.boundaryCw p) } := by
  rw [Chip.lpiEnter_eq, Chip.setLpi_port]
  split <;> rfl

/-- Back to `LPI_AWAKE` no frame is marked. -/
theorem Chip.lpiEnter_awake : c.lpiEnter p .awake = c.setLpi p (.enter .awake c.root (c.boundaryCw p)) := by
  rw [Chip.lpiEnter_eq, if_neg (by simp)]

theorem Chip.Keeps.setLpi {b c : Chip} {P : Key → Prop} (h : b.Keeps c P) (p : Nat) (f : LpiSt → LpiSt) :
    b.Keeps (c.setLpi p f) P := h

theorem Chip.lpiReplan_record : ∃ n k x,
    (c.lpiReplan p).port p = { c.port p with lpi := { (c.port p).lpi with next := n, known := k, plan := x } } := by
  unfold Chip.lpiReplan
  split
  · exact ⟨_, _, _, rfl⟩
  · dsimp only
    have hnext : ∀ n, ∃ k, (if (c.port p).lpi.next = n then (c.port p).lpi else { (c.port p).lpi with next := n, known := c.tb })
        = { (c.port p).lpi with next := n, known := k } := fun n => by
      split
      · next h => exact ⟨_, by rw [← h]⟩
      · exact ⟨_, rfl⟩
    obtain ⟨k, hk⟩ := hnext (c.nextNeeded p)
    split
    · exact ⟨_, k, _, by rw [Chip.setLpi_port, hk]⟩
    · exact ⟨_, k, _, by rw [Chip.setLpi_port, hk]⟩
    · exact ⟨_, k, _, by rw [Chip.wr_eq, Chip.port_wrRow, Chip.setLpi_port, Chip.setLpi_port, hk]⟩

theorem Chip.Keeps.lpiReplan {b c : Chip} {P : Key → Prop} {p : Nat} (h : b.Keeps c P) (hP : P ⟨.LPI_NEXT_WAKE, p, 0⟩) :
    b.Keeps (c.lpiReplan p) P := by
  unfold Chip.lpiReplan
  split
  · exact h
  · dsimp only
    split
    · exact h.setLpi p _
    · exact h.setLpi p _
    · exact Chip.Keeps.wrRow ((h.setLpi p _).setLpi p _) hP

/-! Sleep (R141, R145). -/

/-- The pairs of a port stop as neighbours: the slots that they serve freeze (Table 5-3). -/
def Chip.pairsStop : Chip := c.each (c.pesOf p) fun c e => c.ancStops e

theorem Chip.pairsStop_in : Within Chip.ancStops_fx c (c.pairsStop p) :=
  Within.each (fun _ _ h => Chip.ancStops_in h (by decide +kernel)) (.refl _ _)

theorem Chip.pairsStop_enter (st : LpiState) : ∃ cw,
    ((c.pairsStop p).lpiEnter p st).port p = { c.port p with lpi := (c.port p).lpi.enter st c.root cw } := by
  rw [Chip.lpiEnter_port, (c.pairsStop_in p).port_eq (by decide +kernel),
    show (c.pairsStop p).root = c.root from (c.pairsStop_in p).part .root (by decide +kernel)]
  exact ⟨_, rfl⟩

/-- A port that has fallen asleep and has not planned its wake yet. -/
def Chip.fallAsleep (q : Nat) (asked acked : Bool) (op : Nat) : Chip :=
  let d := ((c.pairsStop p).lpiEnter p .sleep).setLpi p (.slept q asked acked op !c.rdBit .LPI_STATUS 2 p)
  d.each (d.pesOf p) fun d e => d.setPe e fun x => { x with lpiLow := 0 }

variable (q : Nat) (asked acked : Bool) (op : Nat)

theorem Chip.lpiSleep_eq : c.lpiSleep p q asked acked op = (c.fallAsleep p q asked acked op).lpiReplan p := rfl

theorem Chip.fallAsleep_in :
    Within (.union [Chip.ancStops_fx, Chip.lpiEnter_fx, Chip.setLpi_fx, .of [.pes] []]) c (c.fallAsleep p q asked acked op) :=
  Within.each (fun _ _ h => h.setPe (by decide +kernel)) (Chip.setLpi_in (Chip.lpiEnter_in
    ((c.pairsStop_in p).mono (by decide +kernel)) (by decide +kernel)) (by decide +kernel))

theorem Chip.fallAsleep_port : ∃ cw run, (c.fallAsleep p q asked acked op).port p
    = { c.port p with lpi := ((c.port p).lpi.enter .sleep c.root cw).slept q asked acked op run } := by
  obtain ⟨cw, he⟩ := c.pairsStop_enter p .sleep
  refine ⟨cw, !c.rdBit .LPI_STATUS 2 p, ?_⟩
  refine (Chip.each_same (fun d => d.port p) _ ?_ _ _).trans ?_
  · exact fun _ _ => rfl
  · rw [Chip.setLpi_port, he]

/-- A port that falls asleep keeps its link, and its record has the given quiet point, parts and message (R145). -/
theorem Chip.lpiSleep_record : ∃ l, (c.lpiSleep p q asked acked op).port p = { c.port p with lpi := l } ∧ l.state = .sleep ∧
    l.asked = asked ∧ l.acked = acked ∧ l.sent = op ∧ l.quietSeq = q ∧ l.reqId = (c.port p).lpi.reqId ∧
    l.reqIn = (c.port p).lpi.reqIn := by
  obtain ⟨cw, run, hf⟩ := c.fallAsleep_port p q asked acked op
  obtain ⟨n, k, x, hr⟩ := (c.fallAsleep p q asked acked op).lpiReplan_record p
  rw [hf] at hr
  exact ⟨_, hr, rfl, rfl, rfl, rfl, rfl, rfl, rfl⟩

theorem Chip.lpiSleep_keeps {b : Chip} {P : Key → Prop} (h : b.Keeps c P) (hP : P ⟨.LPI_NEXT_WAKE, p, 0⟩) :
    b.Keeps (c.lpiSleep p q asked acked op) P := by
  rw [Chip.lpiSleep_eq]
  exact (h.within (c.fallAsleep_in p q asked acked op) (by decide +kernel)).lpiReplan hP

end

/-! Quiet (R142). -/

theorem Chip.lpiGoQuiet_port (c : Chip) (p : Nat) : ∃ cw,
    (c.lpiGoQuiet p).port p = { c.port p with lpi := (c.port p).lpi.enter .quiet c.root cw } :=
  c.pairsStop_enter p .quiet

/-- No wake is due and none is planned. -/
theorem Chip.dueCause_none {c : Chip} {p : Nat} (hd : (c.port p).lpi.due = none) (hp : (c.port p).lpi.plan = none) :
    c.dueCause p = none := by
  unfold Chip.dueCause
  dsimp only
  rw [hd, hp]

/-! The wake (R148, R151, R152). -/

/-- A W-mode port counts the cause of its wake. -/
def Chip.wakeCounted (c : Chip) (p : Nat) (w : WakeCause) : Chip := if c.runsW p then c.inc w.counter p else c

section
variable (c : Chip) (p : Nat) (w : WakeCause)

/-- The wake has started and is planned no more. -/
def Chip.wakeStarted : Chip := (((c.wakeCounted p w).lpiEnter p .wake).setLpi p LpiSt.waking).wr .LPI_NEXT_WAKE p (2 ^ 96 - 1)

theorem Chip.lpiWake_eq : c.lpiWake p w = (c.wakeStarted p w).ancPortDrives p := rfl

theorem Chip.lpiWake_after : Within Chip.ancPortDrives_fx (c.wakeStarted p w) (c.lpiWake p w) := by
  rw [Chip.lpiWake_eq]
  exact Chip.ancPortDrives_in (.refl _ _) (by decide +kernel)

theorem Chip.lpiWake_state : ((c.lpiWake p w).port p).lpi.state = .wake := by
  rw [(c.lpiWake_after p w).port_eq (by decide +kernel), Chip.wakeStarted, Chip.wr_eq, Chip.port_wrRow, Chip.setLpi_port,
    Chip.lpiEnter_port]
  rfl

theorem Chip.lpiWake_nextWake : (c.lpiWake p w).rd .LPI_NEXT_WAKE p = 2 ^ 96 - 1 := by
  rw [(c.lpiWake_after p w).rd (by decide +kernel) (by decide +kernel), Chip.wakeStarted, Chip.wr_eq, Chip.rd_wrRow_same]
  rfl

/-- An object that the start of a wake does not name reads as its count left it. -/
theorem Chip.lpiWake_rd {r : Reg} (hr : Chip.ancPortDrives_fx.hasReg r = false) (hn : r ≠ .LPI_NEXT_WAKE) (i : Nat) :
    (c.lpiWake p w).rd r i = (c.wakeCounted p w).rd r i := by
  rw [(c.lpiWake_after p w).rd hr (by decide +kernel), Chip.wakeStarted, Chip.wr_eq, Chip.rd_wrRow_reg _ _ _ _ _ _ _ _ hn (by decide),
    (Chip.setLpi_in (Chip.lpiEnter_in (.refl (.of [.ports, .queues] []) _) (by decide +kernel)) (by decide +kernel)).rd
      (Nat.zero_testBit _) (Nat.zero_testBit _)]

theorem Chip.lpiWake_counts (hw : c.runsW p = true) : Counts c (c.lpiWake p w) w.counter p 1 := by
  rw [Counts, Chip.lpiWake_rd _ _ _ (by cases w <;> decide +kernel) (by cases w <;> decide), Chip.wakeCounted, if_pos hw, Chip.inc_eq,
    Chip.rd_wrRow_same]

theorem Chip.lpiWake_stays {r : Reg} (hr : Chip.ancPortDrives_fx.hasReg r = false) (hn : r ≠ .LPI_NEXT_WAKE) (hc : r ≠ w.counter) :
    Stays c (c.lpiWake p w) r p := by
  rw [Stays, Chip.lpiWake_rd _ _ _ hr hn, Chip.wakeCounted]
  split
  · exact Chip.rd_wrRow_reg _ _ _ _ _ _ _ _ hc (by cases w <;> decide)
  · rfl

end

/-- In quiet or refresh a wake starts at once (R148). -/
theorem Chip.lpiWakeNow_idle {c : Chip} {p : Nat} (h : (c.port p).lpi.state = .quiet ∨ (c.port p).lpi.state = .refresh)
    (w : WakeCause) : c.lpiWakeNow p w = c.lpiWake p w := by
  unfold Chip.lpiWakeNow
  rcases h with h | h <;> rw [h]

end Sys2Proof.Machine
end

section
/-!
PROOFS. The exchange of `MC_LPI` messages by which the ends of a link agree on sleep, and the partner's state in a standard mode
(R144, R145, R149, R150).
-/
set_option Elab.async false
namespace Sys2Proof.Machine

theorem Chip.setLpi_onlyPort (c : Chip) (p : Nat) (f : LpiSt → LpiSt) : c.OnlyPort (c.setLpi p f) p := c.setPort_onlyPort p _

theorem Chip.mode_of_runsW {c : Chip} {p : Nat} (h : c.runsW p = true) : ∃ m, (c.port p).mode = some m := by
  unfold Chip.runsW at h
  split at h
  · exact ⟨_, ‹_›⟩
  · exact absurd h (by decide)

theorem Chip.up_of_lpiAllowed {c : Chip} {p : Nat} (h : c.lpiAllowed p = true) : (c.port p).link = .up := by
  cases hu : c.up p with
  | true => exact of_decide_eq_true hu
  | false => simp [Chip.lpiAllowed, hu] at h

theorem Chip.maySleep_awake {c : Chip} {p : Nat} (h : c.maySleep p = true) :
    (c.port p).link = .up ∧ (c.port p).lpi.state = .awake := by
  simp only [Chip.maySleep, Bool.and_eq_true, decide_eq_true_eq] at h
  obtain ⟨⟨⟨hallowed, hawake⟩, -⟩, -⟩ := h
  exact ⟨Chip.up_of_lpiAllowed hallowed, hawake⟩

theorem Chip.mayAsk_of {c : Chip} {p : Nat} (h : ∀ r, (c.port p).lpi.backFrom = some r → r + 1600000 ≤ c.root) :
    c.mayAsk p = true := by
  have hus : rootUs 100 = 1600000 := rfl
  rw [Chip.mayAsk, Option.all_eq_true]
  intro r hr
  rw [decide_eq_true_eq, hus]
  exact h r hr

theorem Chip.mode_of_lpiMsgOk {c : Chip} {p op : Nat} {msg : BitVec 128} (h : c.lpiMsgOk p msg op = true) :
    ∃ m, (c.port p).mode = some m ∧ (lpiFields msg).2.2.2 = m.code := by
  simp only [Chip.lpiMsgOk, Bool.and_eq_true] at h
  obtain ⟨-, hm⟩ := h
  split at hm
  · obtain ⟨-, hcode⟩ := (Bool.and_eq_true ..).mp hm
    exact ⟨_, ‹_›, of_decide_eq_true hcode⟩
  · exact absurd hm (by decide)

/-- A message is queued for every lane, and its operation noted. -/
theorem Chip.sendLpi_port {c : Chip} {p : Nat} {m : LineMode} (hm : (c.port p).mode = some m) (op id seq : Nat) :
    (c.sendLpi p op id seq).port p = { c.port p with
      outLpi := (c.port p).outLpi ++ [lpiMsg op id seq m.code], lpi := { (c.port p).lpi with sent := op } } := by
  unfold Chip.sendLpi
  rw [hm]
  exact Chip.setPort_same ..

/-- `SEQ` of the first quiet codeword, for a message that is queued now (R145). -/
def Chip.quietPoint (c : Chip) (p : Nat) : Nat := (c.lpiCw p + c.sleepCws p) % 256

/-! A request is noted once (R39). -/

/-- The number of the partner's latest request is kept. -/
def Chip.heardReq (c : Chip) (p id : Nat) : Chip := c.setLpi p fun l => { l with reqIn := some id }

section
variable (c : Chip) (p id : Nat)

theorem Chip.heardReq_port : (c.heardReq p id).port p = { c.port p with lpi := { (c.port p).lpi with reqIn := some id } } :=
  c.setLpi_port p _

/-- The number of a request bears neither on the port's grid nor on anything else that a sleep depends on (R150). -/
theorem Chip.heardReq_maySleep : (c.heardReq p id).maySleep p = c.maySleep p := by
  have hport := c.heardReq_port p id
  have hput : c.heardReq p id = c.put_ports (c.heardReq p id).ports := rfl
  have hgrid : (c.put_ports (c.heardReq p id).ports).grid p = c.grid p := by
    rw [← hput]
    unfold Chip.grid
    rw [hport]
    rfl
  have hallowed : (c.heardReq p id).lpiAllowed p = c.lpiAllowed p := by
    simp only [Chip.lpiAllowed, Chip.up, Chip.lpiOffered, Chip.lpiCapable, Chip.runsW, hport]
    rfl
  have hlen : (c.heardReq p id).sleepLen p = c.sleepLen p ∧ (c.heardReq p id).wakeLen p = c.wakeLen p := by
    simp only [Chip.sleepLen, Chip.wakeLen, Chip.wholeCw, Chip.runsW, hport]
    exact ⟨rfl, rfl⟩
  have hnext : (c.heardReq p id).nextNeeded p = c.nextNeeded p := by rw [hput, Chip.put_ports_nextNeeded hgrid]
  have hidle : (c.heardReq p id).wireIdle p = c.wireIdle p := by rw [hput, Chip.put_ports_wireIdle hgrid]
  unfold Chip.maySleep
  rw [hallowed, hnext, hidle, hlen.1, hlen.2, hport]
  rfl

theorem Chip.heardReq_quietPoint : (c.heardReq p id).quietPoint p = c.quietPoint p := by
  simp only [Chip.quietPoint, Chip.lpiCw, Chip.msgCw, Chip.txCw, Chip.frameEdges, Chip.sleepCws, Chip.phaseCws, Chip.heardReq_port]
  rfl

end

/-! The sleeps that messages begin (R145). -/

/-- A W-mode port asks for sleep. -/
def Chip.askSleep (c : Chip) (p id : Nat) : Chip :=
  ((c.sendLpi p 1 id (c.quietPoint p)).setLpi p fun l => { l with reqId := id }).lpiSleep p (c.quietPoint p) true false 1

/-- A port accepts the partner's request, whose quiet point is `seq`. -/
def Chip.acceptSleep (c : Chip) (p id seq : Nat) : Chip :=
  (((c.heardReq p id).sendLpi p 2 id (c.quietPoint p)).lpiSleep p (c.quietPoint p) false true 2).setLpi p
    fun l => { l with partnerSeq := some seq }

section
variable {c : Chip} {p : Nat} {m : LineMode} (hm : (c.port p).mode = some m) (id : Nat)
include hm

theorem Chip.heardReq_sendLpi (op seq : Nat) : ((c.heardReq p id).sendLpi p op id seq).port p = { c.port p with
    outLpi := (c.port p).outLpi ++ [lpiMsg op id seq m.code], lpi := { (c.port p).lpi with reqIn := some id, sent := op } } := by
  have hmode : ((c.heardReq p id).port p).mode = some m := by rw [Chip.heardReq_port]; exact hm
  rw [Chip.sendLpi_port hmode, Chip.heardReq_port]

theorem Chip.askSleep_record : ∃ l, (c.askSleep p id).port p =
      { c.port p with outLpi := (c.port p).outLpi ++ [lpiMsg 1 id (c.quietPoint p) m.code], lpi := l } ∧
    l.state = .sleep ∧ l.asked = true ∧ l.acked = false ∧ l.sent = 1 ∧ l.quietSeq = c.quietPoint p ∧ l.reqId = id := by
  obtain ⟨l, hport, hstate, hasked, hacked, hsent, hquiet, hid, -⟩ := Chip.lpiSleep_record
    ((c.sendLpi p 1 id (c.quietPoint p)).setLpi p fun l => { l with reqId := id }) p (c.quietPoint p) true false 1
  rw [Chip.setLpi_port, Chip.sendLpi_port hm] at hport hid
  exact ⟨l, hport, hstate, hasked, hacked, hsent, hquiet, hid⟩

theorem Chip.acceptSleep_record (seq : Nat) : ∃ l, (c.acceptSleep p id seq).port p =
      { c.port p with outLpi := (c.port p).outLpi ++ [lpiMsg 2 id (c.quietPoint p) m.code], lpi := l } ∧
    l.state = .sleep ∧ l.asked = false ∧ l.acked = true ∧ l.sent = 2 ∧ l.quietSeq = c.quietPoint p ∧ l.reqIn = some id ∧
    l.partnerSeq = some seq := by
  obtain ⟨l, hport, hstate, hasked, hacked, hsent, hquiet, -, hin⟩ := Chip.lpiSleep_record
    ((c.heardReq p id).sendLpi p 2 id (c.quietPoint p)) p (c.quietPoint p) false true 2
  rw [Chip.heardReq_sendLpi hm] at hport hin
  refine ⟨{ l with partnerSeq := some seq }, ?_, hstate, hasked, hacked, hsent, hquiet, hin, rfl⟩
  rw [Chip.acceptSleep, Chip.setLpi_port, hport]

end

/-! The commands. -/

/-- The effect of a valid request that has not been acted on. -/
theorem execSleepReq_run {p : PortNo} {msg : BitVec 128} {lane : Fin 4} {s : State} (hm : s.chip.lpiMsgOk p msg 1 = true)
    (hl : lane.val < (s.chip.port p).rxLanes.length) (hr : (s.chip.port p).lpi.reqIn ≠ some (lpiFields msg).2.1) :
    ∃ f, execSleepReq p msg lane s = s.run f ∧ f s.chip =
      if (s.chip.port p).lpi.state = .sleep && (s.chip.port p).lpi.asked then
        (s.chip.heardReq p (lpiFields msg).2.1).setLpi p fun l =>
          { l with acked := true, partnerSeq := some (lpiFields msg).2.2.1 }
      else if s.chip.maySleep p then s.chip.acceptSleep p (lpiFields msg).2.1 (lpiFields msg).2.2.1
      else (s.chip.heardReq p (lpiFields msg).2.1).sendLpi p 3 (lpiFields msg).2.1 0 := by
  refine ⟨_, execSleepReq.eq_1 p msg lane s, ?_⟩
  rw [← s.chip.heardReq_maySleep p (lpiFields msg).2.1, Chip.acceptSleep, ← s.chip.heardReq_quietPoint p (lpiFields msg).2.1]
  refine if_neg ?_
  simp [hm, hr, hl]

theorem execLpiSleepRequest_run {p : PortNo} {id : BitVec 8} {s : State} (hs : s.chip.maySleep p = true)
    (hb : ∀ r, (s.chip.port p).lpi.backFrom = some r → r + 1600000 ≤ s.chip.root) :
    ∃ f, execLpiSleepRequest p id s = s.run f ∧ f s.chip =
      if s.chip.runsW p then
        s.chip.askSleep p (if id.toNat = (s.chip.port p).lpi.reqId then (id.toNat + 1) % 256 else id.toNat)
      else s.chip.lpiSleep p 0 true true 0 := by
  refine ⟨_, execLpiSleepRequest.eq_1 p id s, if_neg ?_⟩
  simp [hs, Chip.mayAsk_of hb]

/-- An answer to the own request is taken (R145). -/
theorem ownAnswer_taken {c d : Chip} {p op : Nat} {msg : BitVec 128} (hm : c.lpiMsgOk p msg op = true)
    (hs : (c.port p).lpi.state = .sleep) (ha : (c.port p).lpi.asked = true) (hi : (c.port p).lpi.reqId = (lpiFields msg).2.1) :
    (if c.lpiMsgOk p msg op && (c.port p).lpi.state = .sleep && (c.port p).lpi.asked
        && (c.port p).lpi.reqId = (lpiFields msg).2.1 then d else c) = d :=
  if_pos (by simp [hm, hs, ha, hi])

/-- A command that changes the record of low-power idle and nothing else. -/
theorem Answers.of_setLpi {i : Instr} {s : State} {p : Nat} {g : LpiSt → LpiSt}
    (h : ∃ f, exec i s = s.run f ∧ f s.chip = s.chip.setLpi p g) :
    Answers i s fun d => d.port p = { s.chip.port p with lpi := g (s.chip.port p).lpi } ∧ s.chip.OnlyPort d p ∧
      s.chip.Keeps d fun _ => False :=
  Answers.of_runs h fun _ hd =>
    ⟨(hd.port_eq p).trans (s.chip.setLpi_port p g), hd.onlyPort (s.chip.setLpi_onlyPort p g), hd.keeps (Chip.Keeps.refl _ _)⟩

end Sys2Proof.Machine
end

section
set_option Elab.async false
open Sys2Proof Sys2Proof.Machine

/-- Settles O20: each message is checked, noted and answered by one change of the port's record, and the sleep that follows an own or
an accepted request leaves the message queue alone. -/
theorem sleepIsAgreedByMessages : Obligations.SleepIsAgreedByMessages := by
  unfold Obligations.SleepIsAgreedByMessages
  refine ⟨?_, ?_, ?_, ?_, ?_, ?_, ?_, ?_⟩
  · intro p id s nid hs hb hw
    obtain ⟨hup, -⟩ := Chip.maySleep_awake hs
    obtain ⟨m, hm⟩ := Chip.mode_of_runsW hw
    obtain ⟨l, hport, hstate, hasked, hacked, hsent, hquiet, hid⟩ := Chip.askSleep_record hm nid
    refine Answers.of_runs (execLpiSleepRequest_run hs hb) fun d hd => ?_
    rw [if_pos hw] at hd
    rw [hd.port_eq, hport]
    exact ⟨hstate, hasked, hacked, hid, hquiet, hsent, ⟨m, hm, rfl⟩, hup,
      hd.keeps (Chip.lpiSleep_keeps _ _ _ _ _ _ (Chip.Keeps.refl _ _) rfl)⟩
  · intro p id s hs hb hw
    obtain ⟨l, hport, hstate, hasked, hacked, -⟩ := s.chip.lpiSleep_record p 0 true true 0
    refine Answers.of_runs (execLpiSleepRequest_run hs hb) fun d hd => ?_
    rw [if_neg (by simp [hw])] at hd
    rw [hd.port_eq, hport]
    exact ⟨hstate, hasked, hacked, hd.keeps (Chip.lpiSleep_keeps _ _ _ _ _ _ (Chip.Keeps.refl _ _) rfl)⟩
  · intro p msg lane s hm hl hr hs ha
    refine Answers.of_runs (execSleepReq_run hm hl hr) fun d hd => ?_
    rw [if_pos (by simp [hs, ha])] at hd
    refine ⟨?_, hd.onlyPort (Chip.OnlyPort.setPort (s.chip.setLpi_onlyPort p _) _), hd.keeps (Chip.Keeps.refl _ _)⟩
    rw [hd.port_eq, Chip.setLpi_port, Chip.heardReq_port]
  · intro p msg lane s hm hl hr hs
    obtain ⟨m, hmode, hcode⟩ := Chip.mode_of_lpiMsgOk hm
    obtain ⟨-, hawake⟩ := Chip.maySleep_awake hs
    obtain ⟨l, hport, hstate, hasked, hacked, hsent, hquiet, hin, hseq⟩ :=
      Chip.acceptSleep_record hmode (lpiFields msg).2.1 (lpiFields msg).2.2.1
    refine Answers.of_runs (execSleepReq_run hm hl hr) fun d hd => ?_
    rw [if_neg (by simp [hawake]), if_pos hs] at hd
    rw [hd.port_eq, hport, hcode]
    exact ⟨hstate, hasked, hacked, hsent, hin, hseq, hquiet, rfl⟩
  · intro p msg lane s hm hl hr hs hn
    obtain ⟨m, hmode, hcode⟩ := Chip.mode_of_lpiMsgOk hm
    refine Answers.of_runs (execSleepReq_run hm hl hr) fun d hd => ?_
    rw [if_neg (by simp [hn]), if_neg (by simp [hs])] at hd
    refine ⟨?_, hd.onlyPort (Chip.OnlyPort.setPort (s.chip.setLpi_onlyPort p _) _), hd.keeps (Chip.Keeps.refl _ _)⟩
    rw [hd.port_eq, Chip.heardReq_sendLpi hmode, hcode]
  · intro p msg s hm hs ha hi
    exact Answers.of_setLpi (g := fun l => { l with acked := true, partnerSeq := some (lpiFields msg).2.2.1 })
      ⟨_, execSleepAck.eq_1 p msg s, ownAnswer_taken hm hs ha hi⟩
  · intro p msg s hm hs ha hi
    exact Answers.of_setLpi (g := fun l => { l with acked := false, partnerSeq := none, backFrom := some s.chip.root })
      ⟨_, execSleepNak.eq_1 p msg s, ownAnswer_taken hm hs ha hi⟩
  · intro p b s hu hw hb
    refine Answers.of_setLpi (g := fun l => { l with partnerQuiet := b }) ⟨_, execRxLpi.eq_1 p b s,
      (if_pos (by simp [hu, hw])).trans (if_neg ?_)⟩
    rcases hb with hb | hb
    · simp [hb]
    · simp [Chip.quietAlone, Chip.setLpi_port, hb]

end

section
/-!
PROOFS. The phases of low-power idle: the quiet point, refreshes and what the partner's refreshes tell, wakes and their ends
(R141, R142, R145 to R148, R151, R152).
-/
set_option Elab.async false
namespace Sys2Proof.Machine

/-! The quiet point (R142, R145). -/

section
variable {p : PortNo} {s : State} (hu : s.chip.up p = true) (hs : (s.chip.port p).lpi.state = .sleep)
include hu hs

/-- A port that has agreed on sleep abandons its updates and goes quiet. -/
theorem execLpiQuietPoint_quiet (ha : (s.chip.port p).lpi.asked = false ∨ (s.chip.port p).lpi.acked = true)
    (hd : (s.chip.port p).lpi.due = none) (hp : (s.chip.port p).lpi.plan = none)
    (hq : (s.chip.port p).mode ≠ some .t1000 ∨ (s.chip.port p).lpi.partnerQuiet = true) :
    ∃ f, execLpiQuietPoint p false s = s.run f ∧
      f s.chip = ((s.chip.abandonUpdates p).lpiGoQuiet p).inc .LPI_ENTRY_COUNT p := by
  have hport : (s.chip.abandonUpdates p).port p = s.chip.port p :=
    (Chip.abandonUpdates_in (.refl Chip.abandonUpdates_fx _) (by decide +kernel)).port_eq (by decide +kernel) p
  have hcause : (s.chip.abandonUpdates p).dueCause p = none := Chip.dueCause_none (by rw [hport, hd]) (by rw [hport, hp])
  have halone : (s.chip.abandonUpdates p).quietAlone p = true := by
    rw [Chip.quietAlone, hport]
    simpa using hq
  have hagreed : ¬ ((s.chip.port p).lpi.asked && !(s.chip.port p).lpi.acked) = true := by
    rcases ha with h | h <;> simp [h]
  refine ⟨_, execLpiQuietPoint.eq_1 p false s, ?_⟩
  dsimp only
  rw [if_neg (by simp [hu]), if_neg (by decide), if_neg (by simp [hs]), if_neg hagreed, hcause]
  exact if_pos halone

/-- A port whose request nobody acknowledged stays awake. -/
theorem execLpiQuietPoint_stays (ha : (s.chip.port p).lpi.asked = true) (hk : (s.chip.port p).lpi.acked = false) :
    ∃ f, execLpiQuietPoint p false s = s.run f ∧
      f s.chip = (((s.chip.setLpi p (.enter .awake s.chip.root (s.chip.boundaryCw p))).setLpi p fun l =>
        { l with asked := false, charRun := false, due := none, plan := none, backFrom := some s.chip.root }).wr .LPI_NEXT_WAKE p
          (2 ^ 96 - 1)) := by
  refine ⟨_, execLpiQuietPoint.eq_1 p false s, ?_⟩
  dsimp only
  rw [if_neg (by simp [hu]), if_neg (by decide), if_neg (by simp [hs]), if_pos (by simp [ha, hk]), Chip.lpiEnter_awake]

end

theorem execLpiQuietPoint_partner {p : PortNo} {q : Nat} {s : State} (hu : s.chip.up p = true)
    (hp : (s.chip.port p).lpi.partnerSeq = some q) (hq : (s.chip.port p).lpi.partnerQuiet = false) :
    ∃ f, execLpiQuietPoint p true s = s.run f ∧
      f s.chip = s.chip.setLpi p fun l => { l with partnerQuiet := true, partnerAt := s.chip.root } := by
  refine ⟨_, execLpiQuietPoint.eq_1 p true s, ?_⟩
  dsimp only
  rw [if_neg (by simp [hu]), if_pos rfl, if_pos (by simp [hp, hq])]

/-! The own refresh (R142, R148). -/

/-- The precoders of a port start with zero history. -/
def Chip.clearHist (c : Chip) (p : Nat) : Chip := c.each (c.port p).lanes fun c e => c.setPe e fun x => { x with hist := [] }

theorem Chip.clearHist_in (c : Chip) (p : Nat) : Within (.of [.pes] []) c (c.clearHist p) :=
  Within.each (fun _ _ h => h.setPe (by decide +kernel)) (.refl _ _)

theorem Chip.clearHist_hist (c : Chip) (p : Nat) {e : Nat} (he : e ∈ (c.port p).lanes) : ((c.clearHist p).pe e).hist = [] :=
  Chip.each_setPe (P := fun x => x.hist = []) (key := id) (f := fun _ x => { x with hist := [] }) (fun _ _ _ => rfl)
    (.inl ⟨e, he, rfl⟩)

theorem execLpiRefreshStart_run {p : PortNo} {s : State} (hs : (s.chip.port p).lpi.state = .quiet)
    (hd : (s.chip.port p).lpi.due = none) (hp : (s.chip.port p).lpi.plan = none) :
    ∃ f, execLpiRefreshStart p s = s.run f ∧ f s.chip = ((s.chip.clearHist p).lpiEnter p .refresh).ancPortDrives p := by
  refine ⟨_, execLpiRefreshStart.eq_1 p s, ?_⟩
  dsimp only
  rw [if_pos hs, Chip.dueCause_none hd hp]
  rfl

theorem execLpiRefreshEnd_run {p : PortNo} {s : State} (hs : (s.chip.port p).lpi.state = .refresh)
    (hc : (s.chip.port p).lpi.charRun = false) : ∃ f, execLpiRefreshEnd p s = s.run f ∧ f s.chip = s.chip.lpiGoQuiet p := by
  refine ⟨_, execLpiRefreshEnd.eq_1 p s, ?_⟩
  rw [if_neg (not_not.2 hs), if_neg (by simp [hc])]

/-! The partner's refresh (R146). -/

/-- No signal came in the partner's refresh. -/
def refreshMissing : Option Int → Bool
  | some x => x < 0
  | none => true

/-- The refresh margin of a lane is too low. -/
def Chip.refreshLow (c : Chip) (p : Nat) : Option Int → Bool
  | some x => x < c.rdInt .LPI_REFRESH_MIN_MARGIN p
  | none => true

/-- A lane counts its refreshes with too low a margin in a row. -/
def PeSt.countLow (low : Bool) (x : PeSt) : PeSt := { x with lpiLow := if low then x.lpiLow + 1 else 0 }

/-- A port counts the missing refreshes in a row, and a characterisation its first. -/
def LpiSt.countMiss (missing good : Bool) (l : LpiSt) : LpiSt :=
  { l with
    miss := if missing then l.miss + 1 else 0
    charOk := if l.charRun && l.charOk.isNone then some good else l.charOk }

/-- The margins of lanes are shown. -/
def Chip.showRefresh (c : Chip) (l : List (Nat × Option Int)) : Chip :=
  c.each l fun c em => match em.2 with
    | some m => c.wrInt .PE_LPI_REFRESH_MARGIN em.1 m
    | none => c

section
variable (c : Chip) (p : Nat) (margins : List (Option Int))

/-- Each lane's margin is shown and judged. -/
def Chip.judgeLanes : Chip :=
  (c.showRefresh ((c.port p).lanes.zip margins)).each ((c.port p).lanes.zip margins) fun d em =>
    d.setPe em.1 (.countLow (c.refreshLow p em.2))

/-- The partner's refresh has been judged. -/
def Chip.judgeRefresh : Chip :=
  (c.judgeLanes p margins).setLpi p (.countMiss (margins.any refreshMissing) !margins.any (c.refreshLow p))

theorem Chip.showRefresh_in (l : List (Nat × Option Int)) : Within (.of [] [.PE_LPI_REFRESH_MARGIN]) c (c.showRefresh l) := by
  refine Within.each (fun d em h => ?_) (.refl _ _)
  split
  · exact h.wrInt (by decide +kernel)
  · exact h

theorem Chip.judgeLanes_in : Within (.of [.pes] [.PE_LPI_REFRESH_MARGIN]) c (c.judgeLanes p margins) :=
  Within.each (fun _ _ h => h.setPe (by decide +kernel)) ((c.showRefresh_in _).mono (by decide +kernel))

theorem Chip.judgeRefresh_in : Within (.of [.pes, .ports] [.PE_LPI_REFRESH_MARGIN]) c (c.judgeRefresh p margins) :=
  Chip.setLpi_in ((c.judgeLanes_in p margins).mono (by decide +kernel)) (by decide +kernel)

theorem Chip.judgeRefresh_port : (c.judgeRefresh p margins).port p = { c.port p with
    lpi := (c.port p).lpi.countMiss (margins.any refreshMissing) !margins.any (c.refreshLow p) } := by
  rw [Chip.judgeRefresh, Chip.setLpi_port, (c.judgeLanes_in p margins).port_eq (by decide +kernel)]

theorem Chip.judgeRefresh_keeps : c.Keeps (c.judgeRefresh p margins) fun k => k.reg = .PE_LPI_REFRESH_MARGIN := by
  refine Chip.Keeps.setLpi ?_ p _
  refine Chip.each_keeps (fun d => c.Keeps d _) _ (fun _ (em : Nat × Option Int) h => h.setPe em.1 _) _ _ ?_
  refine Chip.each_keeps (fun d => c.Keeps d _) _ (fun d em h => ?_) _ _ (Chip.Keeps.refl _ _)
  split
  · exact Chip.Keeps.wrRow h rfl
  · exact h

theorem Chip.judgeRefresh_miss : ((c.judgeRefresh p margins).port p).lpi.miss
    = if margins.any refreshMissing then (c.port p).lpi.miss + 1 else 0 := by
  rw [Chip.judgeRefresh_port]
  rfl

/-- A lane whose margin is not too low starts its count again. -/
theorem Chip.judgeRefresh_notLow (hl : margins.length = (c.port p).lanes.length)
    (hm : ∀ m ∈ margins, c.refreshLow p m = false) {e : Nat} (he : e ∈ (c.port p).lanes) :
    ((c.judgeRefresh p margins).pe e).lpiLow = 0 := by
  have hkey : ∃ a ∈ (c.port p).lanes.zip margins, a.1 = e := by
    rw [← List.map_fst_zip hl.ge] at he
    exact List.mem_map.1 he
  refine Chip.each_setPe (P := fun x => x.lpiLow = 0) (key := Prod.fst)
    (f := fun em => .countLow (c.refreshLow p em.2)) (fun em hem x => ?_) (.inl hkey)
  rw [PeSt.countLow, hm _ (List.of_mem_zip hem).2]
  rfl

end

/-- The margin came, and it is high enough. -/
def Chip.refreshFits (c : Chip) (p : Nat) (m : Option Int) : Prop :=
  ∃ x, m = some x ∧ 0 ≤ x ∧ c.rdInt .LPI_REFRESH_MIN_MARGIN p ≤ x

theorem Chip.refreshFits.judged {c : Chip} {p : Nat} {m : Option Int} (h : c.refreshFits p m) :
    refreshMissing m = false ∧ c.refreshLow p m = false := by
  obtain ⟨x, rfl, hx, hlow⟩ := h
  exact ⟨decide_eq_false (not_lt.2 hx), decide_eq_false (not_lt.2 hlow)⟩

/-- Where every margin fits, nothing is missing and every count of low margins starts again. -/
theorem Chip.judgeRefresh_fits {c : Chip} {p : Nat} {margins : List (Option Int)} (hl : margins.length = (c.port p).lanes.length)
    (hm : ∀ m ∈ margins, c.refreshFits p m) : ((c.judgeRefresh p margins).port p).lpi.miss = 0 ∧
      ∀ e ∈ (c.port p).lanes, ((c.judgeRefresh p margins).pe e).lpiLow = 0 := by
  have hmissing : ¬ margins.any refreshMissing = true := by
    rw [List.any_eq_true]
    rintro ⟨m, hmem, h⟩
    exact absurd h (by simp [(hm m hmem).judged])
  exact ⟨by rw [Chip.judgeRefresh_miss, if_neg hmissing],
    fun e he => c.judgeRefresh_notLow p margins hl (fun m hmem => (hm m hmem).judged.2) he⟩

section
variable {p : PortNo} {margins : List (Option Int)} {s : State} (hu : s.chip.up p = true)
  (hq : (s.chip.port p).lpi.partnerQuiet = true) (hl : margins.length = (s.chip.port p).lanes.length)
include hu hq hl

theorem execPartnerRefreshEnd_run :
    ∃ f, execPartnerRefreshEnd p margins s = s.run f ∧ f s.chip =
      let d := s.chip.judgeRefresh p margins
      if (d.port p).lpi.miss ≥ 2 then d.linkDown p 0x01
      else if (s.chip.port p).lanes.any fun e => (d.pe e).lpiLow ≥ 2 then
        let d := d.each (s.chip.port p).lanes fun d e => d.setPe e fun x => { x with lpiLow := 0 }
        ((d.inc .LPI_REFRESH_FAIL_COUNT p).raise .refreshFailed (Cls.port.addr p)).lpiHold p
      else d := by
  refine ⟨_, execPartnerRefreshEnd.eq_1 p margins s, ?_⟩
  dsimp only
  rw [if_neg (by simp [hu, hq, hl])]
  rfl

theorem execPartnerRefreshEnd_fits (hm : ∀ m ∈ margins, s.chip.refreshFits p m) :
    ∃ f, execPartnerRefreshEnd p margins s = s.run f ∧ f s.chip = s.chip.judgeRefresh p margins := by
  obtain ⟨f, he, hf⟩ := execPartnerRefreshEnd_run hu hq hl
  obtain ⟨hmiss, hlow⟩ := Chip.judgeRefresh_fits hl hm
  have hnone : ¬ ((s.chip.port p).lanes.any fun e => ((s.chip.judgeRefresh p margins).pe e).lpiLow ≥ 2) = true := by
    rw [List.any_eq_true]
    rintro ⟨e, he, h⟩
    exact absurd h (by simp [hlow e he])
  refine ⟨f, he, hf.trans ?_⟩
  dsimp only
  rw [if_neg (by rw [hmiss]; decide), if_neg hnone]

/-- The second missing refresh in a row takes the link down. -/
theorem execPartnerRefreshEnd_missing (hn : none ∈ margins) (hm : 1 ≤ (s.chip.port p).lpi.miss) :
    ∃ f, execPartnerRefreshEnd p margins s = s.run f ∧ f s.chip = (s.chip.judgeRefresh p margins).linkDown p 0x01 := by
  obtain ⟨f, he, hf⟩ := execPartnerRefreshEnd_run hu hq hl
  refine ⟨f, he, hf.trans (if_pos ?_)⟩
  rw [Chip.judgeRefresh_miss, if_pos (List.any_eq_true.2 ⟨none, hn, rfl⟩)]
  exact Nat.succ_le_succ hm

end

/-! The end of a wake (R145, R147, R148). -/

/-- Taps of the precoder that a port's mode uses. -/
def Chip.modeTaps (c : Chip) (p : Nat) : Nat :=
  match (c.port p).mode with
  | some m => m.preTaps
  | none => 0

/-- The precoders of a port hold the wake pattern. -/
def Chip.wakeHists (c : Chip) (p : Nat) : Chip :=
  c.each (c.port p).lanes fun d e => d.setPe e fun x => { x with hist := wakeHist (c.modeTaps p) }

theorem Chip.wakeHists_in (c : Chip) (p : Nat) : Within (.of [.pes] []) c (c.wakeHists p) :=
  Within.each (fun _ _ h => h.setPe (by decide +kernel)) (.refl _ _)

theorem Chip.wakeHists_hist {c : Chip} {p : Nat} {m : LineMode} (hm : (c.port p).mode = some m) {e : Nat}
    (he : e ∈ (c.port p).lanes) : ((c.wakeHists p).pe e).hist = wakeHist m.preTaps := by
  have hk : c.modeTaps p = m.preTaps := by rw [Chip.modeTaps, hm]
  rw [← hk]
  exact Chip.each_setPe (P := fun x => x.hist = wakeHist (c.modeTaps p)) (key := id)
    (f := fun _ x => { x with hist := wakeHist (c.modeTaps p) }) (fun _ _ _ => rfl) (.inl ⟨e, he, rfl⟩)

/-- No lane failed in the meantime, and the port is awake. -/
theorem execLpiWakeEnd_own {p : PortNo} {s : State} (hu : s.chip.up p = true) (hs : (s.chip.port p).lpi.state = .wake)
    (hf : (s.chip.port p).lpi.failed = []) : ∃ f, execLpiWakeEnd p false s = s.run f ∧ f s.chip =
      ((s.chip.wakeHists p).lpiEnter p .awake).setLpi p fun l => { l with asked := false, acked := false, failed := [] } := by
  refine ⟨_, execLpiWakeEnd.eq_1 p false s, ?_⟩
  dsimp only
  rw [if_neg (by simp [hu]), if_neg (by decide), if_pos hs, if_pos (by rw [hf]; rfl)]
  rfl

theorem execLpiWakeEnd_partner {p : PortNo} {s : State} (hu : s.chip.up p = true) : ∃ f, execLpiWakeEnd p true s = s.run f ∧
    f s.chip = (if s.chip.runsW p && (s.chip.port p).lpi.partnerQuiet then s.chip.resumeRx p else s.chip).setLpi p
      fun l => { l with partnerQuiet := false, partnerSeq := none } := by
  refine ⟨_, execLpiWakeEnd.eq_1 p true s, ?_⟩
  dsimp only
  rw [if_neg (by simp [hu]), if_pos rfl]

/-! A write of `LPI_ENABLE` (R152). -/

/-- What follows a write of `LPI_ENABLE`. -/
def Chip.lpiEnabled (c : Chip) (p v : Nat) : Chip := if v = 0 && c.up p then c.lpiWakeNow p .other else c.lpiReplan p

theorem Chip.writeLpiEnable_ok {v : Nat} (hv : v ≤ 1) (c : Chip) (p : Nat) :
    c.writeLpiEnable p v = (.ok, (c.wr .LPI_ENABLE p v).lpiEnabled p v) := if_neg (Nat.not_lt.2 hv)

theorem Chip.lpiEnabled_in (c : Chip) (p v : Nat) : Within (.union [Chip.lpiWakeNow_fx, Chip.lpiReplan_fx]) c (c.lpiEnabled p v) :=
  .ite (Chip.lpiWakeNow_in (.refl _ _) (by decide +kernel)) (Chip.lpiReplan_in (.refl _ _) (by decide +kernel))

end Sys2Proof.Machine
end

section
set_option Elab.async false
open Sys2Proof Sys2Proof.Machine

/-- Settles O21: each phase is one entry of the port's record, with what goes before and after it in the pair engines and counters. -/
theorem lowPowerIdlePhasesFollow : Obligations.LowPowerIdlePhasesFollow := by
  unfold Obligations.LowPowerIdlePhasesFollow
  refine ⟨?_, ?_, ?_, ?_, ?_, ?_, ?_, ?_, ?_, ?_, ?_, ?_, ?_⟩
  · intro p s hu hs ha hd hp hq
    refine Answers.of_runs (execLpiQuietPoint_quiet hu hs ha hd hp hq) fun d hd => ?_
    have hin := Chip.abandonUpdates_in (c := s.chip) (p := p) (.refl Chip.abandonUpdates_fx _) (by decide +kernel)
    have hroot : (s.chip.abandonUpdates p).root = s.chip.root := hin.part .root (by decide +kernel)
    obtain ⟨cw, hport⟩ := (s.chip.abandonUpdates p).lpiGoQuiet_port p
    rw [hd.port_eq, Chip.inc_eq, Chip.port_wrRow, hport, hroot, Counts, hd.rd _ rfl, Chip.inc_eq, Chip.rd_wrRow_same,
      (Chip.lpiGoQuiet_in (.refl Chip.lpiGoQuiet_fx _) (by decide +kernel)).rd (by decide +kernel) (by decide +kernel),
      hin.rd (by decide +kernel) (by decide +kernel)]
    exact ⟨rfl, rfl, rfl⟩
  · intro p s hu hs ha hk
    refine Answers.of_runs (execLpiQuietPoint_stays hu hs ha hk) fun d hd => ?_
    rw [Chip.wr_eq] at hd
    rw [hd.port_eq, Chip.port_wrRow, Chip.setLpi_port, hd.rd _ rfl, Chip.rd_wrRow_same]
    exact ⟨by rw [Chip.setLpi_port]; rfl, rfl, rfl, rfl,
      hd.onlyPort (Chip.OnlyPort.wrRow (Chip.OnlyPort.setPort (s.chip.setLpi_onlyPort p _) _) ..),
      hd.keeps (Chip.Keeps.wrRow (((Chip.Keeps.refl _ _).setLpi p _).setLpi p _) rfl)⟩
  · intro p q s hu hp hq
    exact Answers.of_setLpi (g := fun l => { l with partnerQuiet := true, partnerAt := s.chip.root })
      (execLpiQuietPoint_partner hu hp hq)
  · intro p s hs hd hp
    refine Answers.of_runs (execLpiRefreshStart_run hs hd hp) fun d hd => ?_
    have hroot : (s.chip.clearHist p).root = s.chip.root := (s.chip.clearHist_in p).part .root (by decide +kernel)
    have hport : d.port p = ((s.chip.clearHist p).lpiEnter p .refresh).port p := (hd.port_eq p).trans
      ((Chip.ancPortDrives_in (.refl Chip.ancPortDrives_fx _) (by decide +kernel)).port_eq (by decide +kernel) p)
    rw [hport, Chip.lpiEnter_port, (s.chip.clearHist_in p).port_eq (by decide +kernel), hroot]
    refine ⟨rfl, fun e he => ?_, if_pos (by simp [hs])⟩
    rw [hd.pe_eq, Chip.ancPortDrives_hist,
      (Chip.lpiEnter_in (.refl Chip.lpiEnter_fx _) (by decide +kernel)).pe_eq (by decide +kernel), Chip.clearHist_hist _ _ he]
  · intro p s hs hc
    refine Answers.of_runs (execLpiRefreshEnd_run hs hc) fun d hd => ?_
    obtain ⟨cw, hport⟩ := s.chip.lpiGoQuiet_port p
    rw [hd.port_eq, hport]
    exact ⟨rfl, rfl⟩
  · intro p margins s hu hq hl hm
    obtain ⟨hmiss, hlow⟩ := Chip.judgeRefresh_fits hl hm
    refine Answers.of_runs (execPartnerRefreshEnd_fits hu hq hl hm) fun d hd => ?_
    refine ⟨fun e he => ?_, ?_, ?_, hd.keeps (s.chip.judgeRefresh_keeps p margins)⟩
    · rw [hd.pe_eq, hlow e he]
    · rw [hd.port_eq, hmiss]
    · rw [hd.port_eq, Chip.judgeRefresh_port]
      exact of_decide_eq_true hu
  · intro p margins s hu hq hl hn hm
    have hup : (s.chip.judgeRefresh p margins).up p = true := by
      rw [Chip.up, Chip.judgeRefresh_port]
      exact hu
    refine Answers.of_runs (execPartnerRefreshEnd_missing hu hq hl hn hm) fun d hd => ?_
    obtain ⟨hlink, hcause, hcount, -⟩ := hd.wentDown (Chip.linkDown_wentDown _ p 0x01 _ hup (by decide))
    exact ⟨hlink, hcause, hcount.after ((s.chip.judgeRefresh_in p margins).rd (by decide +kernel) (by decide +kernel) p 0)⟩
  · intro p s hu hw hs
    refine Answers.of_runs ⟨_, execLpiWakeStart.eq_1 p false s, (if_neg (by simp [hu])).trans (Chip.lpiWakeNow_idle hs _)⟩
      fun d hd => ?_
    rw [hd.port_eq, Counts, Stays, hd.rd _ rfl, hd.rd _ rfl, hd.rd _ rfl]
    exact ⟨s.chip.lpiWake_state p .other, s.chip.lpiWake_counts p .other hw,
      s.chip.lpiWake_stays p .other (by decide +kernel) (by decide) (by decide), s.chip.lpiWake_nextWake p .other⟩
  · intro p s hu hw hs
    refine Answers.of_runs ⟨_, execLpiPartnerChirp.eq_1 p s, (if_pos (by simp [hu, hw])).trans (Chip.lpiWakeNow_idle hs _)⟩
      fun d hd => ?_
    rw [hd.port_eq, Counts, Stays, hd.rd _ rfl, hd.rd _ rfl]
    exact ⟨s.chip.lpiWake_state p .partner, s.chip.lpiWake_counts p .partner hw,
      s.chip.lpiWake_stays p .partner (by decide +kernel) (by decide) (by decide)⟩
  · intro p s hu hs hf
    refine Answers.of_runs (execLpiWakeEnd_own hu hs hf) fun d hd => ?_
    rw [Chip.lpiEnter_awake] at hd
    rw [hd.port_eq, Chip.setLpi_port]
    refine ⟨by rw [Chip.setLpi_port]; rfl, rfl, rfl, fun m hm e he => ?_,
      hd.keeps ((((Chip.Keeps.refl _ _).within (s.chip.wakeHists_in p) (by decide +kernel)).setLpi p _).setLpi p _)⟩
    rw [hd.pe_eq]
    exact Chip.wakeHists_hist hm he
  · intro p s hu
    refine Answers.of_runs (execLpiWakeEnd_partner hu) fun d hd => ?_
    have hin : Within Chip.resumeRx_fx s.chip
        (if s.chip.runsW p && (s.chip.port p).lpi.partnerQuiet then s.chip.resumeRx p else s.chip) :=
      .ite (Chip.resumeRx_in (.refl _ _) (by decide +kernel)) (.refl _ _)
    refine ⟨?_, fun q hq => ?_, hd.keeps (((Chip.Keeps.refl _ _).within hin (by decide +kernel)).setLpi p _)⟩
    · rw [hd.port_eq, Chip.setLpi_port, hin.port_eq (by decide +kernel)]
    · rw [hd.port_eq, Chip.setLpi, Chip.setPort_other _ _ _ _ hq, hin.port_eq (by decide +kernel)]
  · intro p s
    refine Answers.of_runs ⟨_, execHeldAwakeEnd.eq_1 p s, rfl⟩ fun d hd => ?_
    refine ⟨?_, fun b hb hw => ?_, hd.bare.trans (Chip.bare_wrRow ..), hd.keeps (Chip.Keeps.wrRow (Chip.Keeps.refl _ _) rfl)⟩
    · rw [hd.rdBit _ rfl, Chip.rdBit_setBit_same _ _ _ _ _ (by decide)]
    · rw [hd.rdBit _ rfl, Chip.rdBit_setBit_other _ _ _ _ _ _ hb hw]
  · intro p v s ha hv
    refine Answers.of_accepted (execLpiEnableWrite.eq_1 p v s) ha (Chip.writeLpiEnable_ok hv s.chip p) fun d hacc hport hrd => ?_
    refine ⟨hacc, ?_, fun h0 hu hs => ?_⟩
    · rw [hrd _ rfl, (Chip.lpiEnabled_in _ p _).rd (by decide +kernel) (by decide +kernel), Chip.wr_eq, Chip.rd_wrRow_same]
      exact Nat.mod_eq_of_lt v.isLt
    · have hp : (s.chip.wr .LPI_ENABLE p v.toNat).port p = s.chip.port p := Chip.port_wrRow ..
      have hwakes : (v.toNat = 0 && (s.chip.wr .LPI_ENABLE p v.toNat).up p) = true := by
        rw [Chip.up, hp]
        simpa [h0] using of_decide_eq_true hu
      rw [hport, Chip.lpiEnabled, if_pos hwakes, Chip.lpiWakeNow_idle (.inl (by rw [hp, hs])), Chip.lpiWake_state]

end

section
/-!
PROOFS. Operations that touch, beside objects, only what diagnostics keep; tables that are forgotten or written row by row; and loops
over units whose turns read the block.
-/
set_option Elab.async false
namespace Sys2Proof.Machine

/-! What diagnostics keep. -/

/-- Of the parts beside the dictionary only what diagnostics keep has changed. -/
def Chip.OnlyDiag (c d : Chip) : Prop := d.bare = { c.bare with diag := d.diag }

theorem Chip.OnlyDiag.refl (c : Chip) : c.OnlyDiag c := rfl

theorem Chip.OnlyDiag.setDiag {b c : Chip} (h : b.OnlyDiag c) (f : DiagSt → DiagSt) : b.OnlyDiag (c.setDiag f) := by
  change ({ c.bare with diag := (c.setDiag f).diag } : Chip) = _
  rw [h]

theorem Chip.OnlyDiag.wrRow {b c : Chip} (h : b.OnlyDiag c) (r : Reg) (i row v : Nat) : b.OnlyDiag (c.wrRow r i row v) := by
  rw [Chip.OnlyDiag, Chip.bare_wrRow, h, Chip.wrRow_diag]

theorem Chip.OnlyDiag.clrAll {b c : Chip} (h : b.OnlyDiag c) (r : Reg) (i : Nat) : b.OnlyDiag (c.clrAll r i) := h

theorem Chip.OnlyDiag.each {α : Type} {b c : Chip} (h : b.OnlyDiag c) {f : Chip → α → Chip} (hf : ∀ d a, b.OnlyDiag d → b.OnlyDiag (f d a))
    (l : List α) : b.OnlyDiag (c.each l f) := Chip.each_keeps _ f hf l c h

theorem Chip.OnlyDiag.access {b c : Chip} (h : b.OnlyDiag c) (a : Access) : b.OnlyDiag { c with access := a } := h

theorem EvFrame.onlyDiag {b c d : Chip} (h : EvFrame c d) (ho : b.OnlyDiag c) : b.OnlyDiag d := by
  rw [Chip.OnlyDiag, h.bare, h.diag_eq, ho]

theorem EvFrame.written_rdBit {c d : Chip} {a : Access} (h : EvFrame { c with access := a } d) {r : Reg} (hr : r.ofEvents = false) (b i : Nat) :
    d.rdBit r b i = c.rdBit r b i := h.rdBit r hr b i

theorem Within.diag_eq {x : Fx} {c d : Chip} (h : Within x c d) (hx : x.hasPart .diag = false) : d.diag = c.diag := h.part .diag hx

theorem Chip.Keeps.setDiag {b c : Chip} {P : Key → Prop} (h : b.Keeps c P) (f : DiagSt → DiagSt) : b.Keeps (c.setDiag f) P := h

/-! Tables. -/

theorem Chip.raw_clrAll (c : Chip) (r r' : Reg) (i i' row : Nat) :
    (c.clrAll r i).raw r' i' row = if r' = r ∧ i' = i then none else c.raw r' i' row := by
  rw [Chip.raw, Chip.clrAll, Tab.get?_filter _ (fun k : Key => !(decide (k.reg = r ∧ k.inst = i)))]
  by_cases h : r' = r ∧ i' = i <;> simp [h, Chip.raw]

/-- A table that was forgotten reads its default. -/
theorem Chip.rd_clrAll_same (c : Chip) {r : Reg} (hr : r.formDependent = false) (i row : Nat) :
    (c.clrAll r i).rd r i row = c.dflt r i row := by
  rw [Chip.rd_eq, Chip.raw_clrAll, if_pos ⟨rfl, rfl⟩]
  exact Chip.dflt_fixed c _ r hr i row

/-- Forgetting the table of one unit leaves another's as it was. -/
theorem Chip.rd_clrAll_inst (c : Chip) {r : Reg} (hr : r.formDependent = false) {i j : Nat} (h : j ≠ i) (row : Nat) :
    (c.clrAll r i).rd r j row = c.rd r j row := by
  rw [Chip.rd_eq, Chip.rd_eq, Chip.raw_clrAll, if_neg fun hk => h hk.2, Chip.dflt_fixed c _ r hr j row]

/-- Forgetting a table leaves another object as it was. -/
theorem Chip.rd_clrAll_reg (c : Chip) {r r' : Reg} (h : r' ≠ r) (hq : r ≠ .QUAD_FORMATION) (i i' row : Nat) :
    (c.clrAll r i).rd r' i' row = c.rd r' i' row := by
  have hf : ∀ q, (c.clrAll r i).formation q = c.formation q := fun q => by
    rw [Chip.formation, Chip.formation, Chip.raw_clrAll, if_neg fun hk => hq hk.1.symm]
  rw [Chip.rd_eq, Chip.rd_eq, Chip.raw_clrAll, if_neg fun hk => h hk.1, Chip.dflt_congr c _ hf]

theorem Chip.Keeps.clrAll {b c : Chip} {P : Key → Prop} (h : b.Keeps c P) {r : Reg} {i : Nat} (hP : ∀ row, P ⟨r, i, row⟩) :
    b.Keeps (c.clrAll r i) P := fun k hk hn =>
  ((c.raw_clrAll r k.reg i k.inst k.row).trans (if_neg fun ⟨hr, hi⟩ => hn (by
    obtain ⟨r', i', row⟩ := k; subst hr hi; exact hP row))).trans (h k hk hn)

theorem Chip.pe_clrAll (c : Chip) (r : Reg) (i e : Nat) : (c.clrAll r i).pe e = c.pe e := rfl

/-- A table whose rows a loop writes reads in each row the value that the loop gives it. -/
theorem Chip.rd_each_wrRow (c : Chip) {r : Reg} (hr : r ≠ .QUAD_FORMATION) (i : Nat) (g : Nat → Nat) {l : List Nat} {k : Nat}
    (hk : k ∈ l) : (c.each l fun c k => c.wrRow r i k (g k)).rd r i k = g k % 2 ^ r.width := by
  refine Chip.each_establishes (P := fun d => d.rd r i k = g k % 2 ^ r.width) (fun d j hd => ?_) (a := k)
    (fun d => Chip.rd_wrRow_same ..) hk c
  by_cases hj : k = j
  · rw [hj, Chip.rd_wrRow_same]
  · rw [Chip.rd_wrRow_other _ _ _ _ _ _ _ _ (by simp [hj]) (.inl hr), hd]

/-- The same as `each_establishes`, where every turn also keeps what the turns read. -/
theorem Chip.each_establishes_under {α : Type} {I P : Chip → Prop} {f : Chip → α → Chip} {a : α} {l : List α}
    (hI : ∀ c b, I c → I (f c b)) (hk : ∀ c b, I c → P c → P (f c b)) (he : ∀ c, I c → P (f c a)) (h : a ∈ l) {c : Chip} (hc : I c) :
    P (c.each l f) := by
  unfold Chip.each
  induction l generalizing c with
  | nil => exact absurd h List.not_mem_nil
  | cons b l ih =>
    rcases List.mem_cons.1 h with rfl | h
    · have hboth := Chip.each_keeps (fun d => I d ∧ P d) f (fun d b hd => ⟨hI d b hd.1, hk d b hd.1 hd.2⟩) l _ ⟨hI c a hc, he c hc⟩
      exact hboth.2
    · exact ih h (hI c b hc)

end Sys2Proof.Machine
end

section
/-!
PROOFS. The standalone cable test and the reflectogram: what their triggers begin, and what their ends leave (R159 to R169).
-/
set_option Elab.async false
namespace Sys2Proof.Machine

/-! The standalone test (R162). -/

theorem Chip.writeTdrStart_starts {c : Chip} {p : Nat} (hl : (c.port p).link = .disabled) (ht : c.tileRuns (tileOf p) = true)
    (hw : c.width p ≠ 0) (hg : c.rdBit .LEGACY_GATE (16 + tileOf p) = true) (hn : c.diag.tdr.get? p = none) :
    c.writeTdrStart p 1 = (.ok, (c.setDiag fun d => { d with tdr := d.tdr.put p c.root }).setBit .TDR_STATUS p 0 true) := by
  simp [Chip.writeTdrStart, hl, ht, hw, hg, hn]

theorem Chip.writeTdrStart_enabled {c : Chip} {p : Nat} (hl : (c.port p).link ≠ .disabled) : c.writeTdrStart p 1 = (.state, c) := by
  simp [Chip.writeTdrStart, hl]

/-- The events of a pair at the velocity and the origin of a port (R159). -/
def Chip.pairSeen (c : Chip) (p : Nat) (x : PairProbe) : List TdrEvent := pairEvents (c.rd .TDR_NVP p) (c.rd .TDR_ORIGIN p) x

/-- The rows of a pair's events are written (Table 7-3). -/
def Chip.showEvents (c : Chip) (e : Nat) (l : List TdrEvent) : Chip :=
  c.each (List.range 8) fun c k => c.wrRow .TDR_RESULT e k (((l.map TdrEvent.row)[k]?).getD 0)

/-- The results of one pair replace the previous ones. -/
def Chip.showPair (c : Chip) (e : Nat) (l : List TdrEvent) (noise : Int) : Chip :=
  (((c.showEvents e l).wr .TDR_FAULT e (tdrFault l).1).wr .TDR_FAULT_DIST e (tdrFault l).2).wrInt .TDR_NOISE e noise

/-- The block shows the fault, its distance and the noise of a pair (R160). -/
def Chip.ShowsPair (d : Chip) (e : Nat) (l : List TdrEvent) (noise : Int) : Prop :=
  d.rd .TDR_FAULT e = (tdrFault l).1 % 2 ^ Reg.width .TDR_FAULT ∧
  d.rd .TDR_FAULT_DIST e = (tdrFault l).2 % 2 ^ Reg.width .TDR_FAULT_DIST ∧
  d.rd .TDR_NOISE e = ofInt (Reg.width .TDR_NOISE) noise

/-- The results of one pair of a probe. -/
def Chip.tdrPair (c : Chip) (p : Nat) (r : T0Probe) (e : Nat) : Chip :=
  c.showPair e (c.pairSeen p (r.pair (e - p))) (r.pair (e - p)).noise

theorem Chip.tdrResults_eq (c : Chip) (p : Nat) (r : T0Probe) : c.tdrResults p r = c.each (c.pesOf p) fun c e => c.tdrPair p r e := rfl

section
variable (c : Chip) (e : Nat) (l : List TdrEvent) (noise : Int)

theorem Chip.showEvents_in : Within (.of [] [.TDR_RESULT]) c (c.showEvents e l) :=
  Within.each (fun _ _ h => h.wrRow (by decide +kernel)) (.refl _ _)

theorem Chip.showPair_in : Within Chip.tdrResults_fx c (c.showPair e l noise) :=
  ((((c.showEvents_in e l).mono (by decide +kernel)).wr (by decide +kernel)).wr (by decide +kernel)).wrInt (by decide +kernel)

theorem Chip.showPair_shows : (c.showPair e l noise).ShowsPair e l noise := by
  refine ⟨?_, ?_, ?_⟩
  · simp [Chip.showPair, Chip.wr_eq, Chip.wrInt_eq, Chip.rd_wrRow_same]
  · simp [Chip.showPair, Chip.wr_eq, Chip.wrInt_eq, Chip.rd_wrRow_same]
  · rw [Chip.showPair, Chip.wrInt_eq, Chip.rd_wrRow_same]
    exact Nat.mod_eq_of_lt (ofInt_lt _ _)

/-- The results of a pair leave those of another. -/
theorem Chip.ShowsPair.showPair {c : Chip} {j : Nat} {k : List TdrEvent} {x : Int} (h : c.ShowsPair j k x) (hj : j ≠ e) :
    (c.showPair e l noise).ShowsPair j k x := by
  have hrd : ∀ r ∈ [Reg.TDR_FAULT, .TDR_FAULT_DIST, .TDR_NOISE], (c.showPair e l noise).rd r j = c.rd r j := fun r hr => by
    rw [Chip.showPair, Chip.wrInt_eq, Chip.wr_eq, Chip.wr_eq, Chip.rd_wrRow_other _ _ _ _ _ _ _ _ (by simp [hj]) (.inl (by decide)),
      Chip.rd_wrRow_other _ _ _ _ _ _ _ _ (by simp [hj]) (.inl (by decide)),
      Chip.rd_wrRow_other _ _ _ _ _ _ _ _ (by simp [hj]) (.inl (by decide)),
      (c.showEvents_in e l).rd (by revert r; decide +kernel) (by decide +kernel)]
  obtain ⟨hf, hd, hn⟩ := h
  exact ⟨(hrd _ (by decide)).trans hf, (hrd _ (by decide)).trans hd, (hrd _ (by decide)).trans hn⟩

theorem Chip.OnlyDiag.showPair {b c : Chip} (h : b.OnlyDiag c) : b.OnlyDiag (c.showPair e l noise) :=
  (((h.each (fun _ _ hd => hd.wrRow ..) _).wrRow ..).wrRow ..).wrRow ..

end

theorem Within.pairSeen_eq {c d : Chip} (h : Within Chip.tdrResults_fx c d) (p : Nat) (x : PairProbe) : d.pairSeen p x = c.pairSeen p x := by
  rw [Chip.pairSeen, Chip.pairSeen, h.rd (by decide +kernel) (by decide +kernel), h.rd (by decide +kernel) (by decide +kernel)]

/-- The results of a probe show every pair of the port. -/
theorem Chip.tdrResults_shows (c : Chip) (p : Nat) (r : T0Probe) {e : Nat} (he : e ∈ c.pesOf p) :
    (c.tdrResults p r).ShowsPair e (c.pairSeen p (r.pair (e - p))) (r.pair (e - p)).noise := by
  have hturn : ∀ d, Within Chip.tdrResults_fx c d →
      (d.tdrPair p r e).ShowsPair e (c.pairSeen p (r.pair (e - p))) (r.pair (e - p)).noise := fun d hd => by
    rw [← hd.pairSeen_eq]
    exact d.showPair_shows ..
  rw [Chip.tdrResults_eq]
  refine Chip.each_establishes_under (I := Within Chip.tdrResults_fx c) (f := fun c e => c.tdrPair p r e) (P := fun d => d.ShowsPair e _ _)
    (fun d j hd => hd.trans (d.showPair_in ..)) (fun d j hd hp => ?_) hturn he (.refl _ _)
  by_cases hj : e = j
  · rw [← hj]
    exact hturn d hd
  · exact hp.showPair _ _ _ hj

theorem Chip.tdrFinish_running {c : Chip} {p t : Nat} (h : c.diag.tdr.get? p = some t) (r : T0Probe) :
    c.tdrFinish p r = ((c.setDiag fun d => { d with tdr := d.tdr.del p }).tdrResults p r).wr .TDR_STATUS p 2 := by
  simp [Chip.tdrFinish, h]

/-! The reflectogram (R167, R168). -/

theorem Chip.writeReflect_starts {c : Chip} {e v : Nat} {m : LineMode} (hv : v = 1 ∨ v = 2) (hm : c.reflMode e = some m)
    (hn : c.diag.refl.get? e = none) :
    c.writeReflect e v = (.ok, c.setDiag fun d => { d with refl := d.refl.put e ⟨c.reflTaps e m, v = 2⟩ }) := by
  rcases hv with rfl | rfl <;> simp [Chip.writeReflect, hm, hn]

/-- A write of 1 or 2 to `REFLECT_TRIGGER` starts a computation. -/
theorem reflectTrigger_starts {i : Instr} {s : State} {e : PeNo} {v : Nat} {m : LineMode} (hv : v = 1 ∨ v = 2)
    (he : exec i s = s.runWr fun c => c.gated .REFLECT_TRIGGER e fun c => c.writeReflect e v)
    (ha : s.chip.asleep .REFLECT_TRIGGER e = false) (hm : s.chip.reflMode e = some m) (hn : s.chip.diag.refl.get? e.val = none) :
    Answers i s fun d =>
      d.accepted ∧ ((d.diag.refl.get? e.val).map (fun r => r.base) = some (decide (v = 2))) ∧ s.chip.OnlyDiag d ∧
        s.chip.Keeps d fun _ => False := by
  refine Answers.of_write _ he ha (Chip.writeReflect_starts hv hm hn) fun d hd => ⟨hd.access, ?_,
    hd.onlyDiag (((Chip.OnlyDiag.refl _).setDiag _).access _), hd.written_keeps ((Chip.Keeps.refl _ _).setDiag _)⟩
  rw [hd.diag_eq]
  simp [Chip.setDiag]

theorem reflAgrees_own (taps : List Nat) (m : LineMode) (e : Nat) : reflAgrees (reflWords taps m e) (reflStart m e) taps m e = true := by
  simp [reflAgrees]

theorem reflAgrees_length {rows : List (BitVec 16)} {origin : Nat} {taps : List Nat} {m : LineMode} {e : Nat}
    (h : reflAgrees rows origin taps m e = true) : rows.length = m.echoTaps := by
  simp only [reflAgrees, Bool.and_eq_true, decide_eq_true_eq] at h
  rw [h.1, reflWords, List.length_map, List.length_range]

theorem reflRows_getD (taps : List Nat) (m : LineMode) (e : Nat) {k : Nat} (hk : k < m.echoTaps) :
    (reflRows taps m e).getD k 0 = (Config.reflRow taps m.code e k).toInt := by
  simp [reflRows, reflWords, List.getD, hk]

section
variable (c : Chip) (e : Nat) (m : LineMode) (rows : List Int)

/-- The rows of the mode are written, those beyond them forgotten. -/
def Chip.reflTable : Chip :=
  (c.clrAll .REFLECTOGRAM e).each (List.range m.echoTaps) fun c k => c.wrRow .REFLECTOGRAM e k (ofInt 16 (rows.getD k 0))

theorem Chip.reflWrite_eq : c.reflWrite e m rows =
    ((c.reflTable e m rows).wr .REFLECT_BIN e (m.reflBin ((c.reflTable e m rows).rd .TDR_NVP ((c.reflTable e m rows).portOf e)))).wr
      .REFLECT_ORIGIN e (reflStart m e) := rfl

theorem Chip.reflTable_in : Within (.of [] [.REFLECTOGRAM]) c (c.reflTable e m rows) :=
  Within.each (fun _ _ h => h.wrRow (by decide +kernel)) ((Within.refl _ _).clrAll (by decide +kernel))

theorem Chip.reflWrite_row {k : Nat} (hk : k < m.echoTaps) : (c.reflWrite e m rows).rd .REFLECTOGRAM e k = ofInt 16 (rows.getD k 0) := by
  rw [Chip.reflWrite_eq, Chip.wr_eq, Chip.wr_eq, Chip.rd_wrRow_reg _ _ _ _ _ _ _ _ (by decide) (by decide),
    Chip.rd_wrRow_reg _ _ _ _ _ _ _ _ (by decide) (by decide), Chip.reflTable,
    Chip.rd_each_wrRow _ (by decide) e (fun k => ofInt 16 (rows.getD k 0)) (List.mem_range.2 hk)]
  exact Nat.mod_eq_of_lt (ofInt_lt 16 _)

theorem Chip.reflWrite_origin : (c.reflWrite e m rows).rd .REFLECT_ORIGIN e = reflStart m e := by
  rw [Chip.reflWrite_eq, Chip.wr_eq, Chip.rd_wrRow_same]
  exact Nat.mod_mod _ _

theorem Chip.reflWrite_bin :
    (c.reflWrite e m rows).rd .REFLECT_BIN e = m.reflBin (c.rd .TDR_NVP (c.portOf e)) % 2 ^ Reg.width .REFLECT_BIN := by
  have hin := c.reflTable_in e m rows
  rw [Chip.reflWrite_eq, Chip.wr_eq, Chip.rd_wrRow_reg _ _ _ _ _ _ _ _ (by decide) (by decide), Chip.wr_eq, Chip.rd_wrRow_same,
    hin.portOf_eq (by decide +kernel), hin.rd (by decide +kernel) (by decide +kernel)]

theorem Chip.OnlyDiag.reflWrite {b c : Chip} (h : b.OnlyDiag c) : b.OnlyDiag (c.reflWrite e m rows) :=
  (((h.clrAll _ _).each (fun _ _ hd => hd.wrRow ..) _).wrRow ..).wrRow ..

/-- The cells of a pair engine's reflectogram. -/
def reflCells (k : Key) : Prop := k.inst = e ∧ (k.reg = .REFLECTOGRAM ∨ k.reg = .REFLECT_ORIGIN ∨ k.reg = .REFLECT_BIN)

theorem Chip.Keeps.reflWrite {b c : Chip} (h : b.Keeps c (reflCells e)) : b.Keeps (c.reflWrite e m rows) (reflCells e) := by
  have htable : b.Keeps (c.reflTable e m rows) (reflCells e) :=
    Chip.each_keeps (fun d => b.Keeps d (reflCells e)) _ (fun _ _ hd => hd.wrRow ⟨rfl, .inl rfl⟩) _ _ (h.clrAll fun _ => ⟨rfl, .inl rfl⟩)
  exact (htable.wrRow ⟨rfl, .inr (.inr rfl)⟩).wrRow ⟨rfl, .inr (.inl rfl)⟩

end

/-- The rows of a reflectogram become the baseline of its pair engine, or not. -/
def Chip.keepBaseline (c : Chip) (e : Nat) (l : List Int) (b : Bool) : Chip :=
  if b then c.setDiag fun d => { d with base := d.base.put e l } else c

/-- A computation is over. -/
def Chip.reflEnded (c : Chip) (e : Nat) : Chip := c.setDiag fun d => { d with refl := d.refl.del e }

section
variable (c : Chip) (e : Nat) (l : List Int) (b : Bool)

theorem Chip.keepBaseline_in : Within (.of [.diag] []) c (c.keepBaseline e l b) :=
  .ite ((Within.refl _ _).setDiag (by decide +kernel)) (.refl _ _)

theorem Chip.OnlyDiag.keepBaseline {a c : Chip} (h : a.OnlyDiag c) : a.OnlyDiag (c.keepBaseline e l b) := by
  unfold Chip.keepBaseline
  split
  · exact h.setDiag _
  · exact h

theorem Chip.keepBaseline_refl : (c.keepBaseline e l b).diag.refl = c.diag.refl := by cases b <;> rfl

theorem Chip.keepBaseline_base : (c.keepBaseline e l true).diag.base.get? e = some l := Tab.get?_put_same ..

end

theorem execReflectDone_run {e : PeNo} {run : ReflRun} {m : LineMode} {s : State} (hr : s.chip.diag.refl.get? e.val = some run)
    (hm : (s.chip.port (s.chip.portOf e)).mode = some m) :
    ∃ f, execReflectDone e (reflWords run.taps m e) (reflStart m e) s = s.run f ∧
      f s.chip = ((s.chip.reflEnded e).reflWrite e m (reflRows run.taps m e)).keepBaseline e (reflRows run.taps m e)
        (run.base && s.chip.up (s.chip.portOf e)) := by
  refine ⟨_, execReflectDone.eq_1 e _ _ s, ?_⟩
  have hin := Chip.reflWrite_in (m := m) (e := e) (rows := reflRows run.taps m e) (.refl Chip.reflWrite_fx (s.chip.reflEnded e))
    (by decide +kernel)
  have hp : ((s.chip.reflEnded e).reflWrite e m (reflRows run.taps m e)).portOf e = s.chip.portOf e := hin.portOf_eq (by decide +kernel) e
  have hu : ((s.chip.reflEnded e).reflWrite e m (reflRows run.taps m e)).up (s.chip.portOf e) = s.chip.up (s.chip.portOf e) := by
    rw [Chip.up, hin.port_eq (by decide +kernel)]
    rfl
  simp only [hr, hm, reflAgrees_own, Bool.not_true, Bool.false_eq_true, if_false]
  rw [← hu, ← hp]
  rfl

theorem execReflectDone_other {e : PeNo} {rows : List (BitVec 16)} {origin : Nat} {run : ReflRun} {m : LineMode} {s : State}
    (hr : s.chip.diag.refl.get? e.val = some run) (hm : (s.chip.port (s.chip.portOf e)).mode = some m) (hl : rows.length ≠ m.echoTaps) :
    ∃ f, execReflectDone e rows origin s = s.run f ∧ f s.chip = s.chip := by
  have hn : reflAgrees rows origin run.taps m e = false := Bool.eq_false_iff.2 fun h => hl (reflAgrees_length h)
  refine ⟨_, execReflectDone.eq_1 e rows origin s, ?_⟩
  simp [hr, hm, hn]

/-! The watch (R169). -/

/-- The baseline that the watch takes. -/
def Chip.watchBaseline (c : Chip) (e : Nat) (l : List Int) : Chip :=
  c.setDiag fun d => { d with base := d.base.put e l, watched := d.watched ++ [e] }

theorem execReflectWatchTick_first {e : PeNo} {m : LineMode} {s : State} (hm : s.chip.reflMode e = some m)
    (hp : s.chip.rd .REFLECT_WATCH_PERIOD (s.chip.portOf e) ≠ 0) (hf : s.chip.rdBool .PE_COEF_FREEZE e = false)
    (ha : (s.chip.port (s.chip.portOf e)).lpi.state = .awake) (hq : s.chip.rxQuiet (s.chip.portOf e) = false)
    (ht : (s.chip.port (s.chip.portOf e)).lpi.upFrom + 160000000000 ≤ s.chip.root) (hw : s.chip.diag.watched.contains e.val = false) :
    ∃ f, execReflectWatchTick e (reflWords (s.chip.reflTaps e m) m e) (reflStart m e) s = s.run f ∧
      f s.chip = (s.chip.reflWrite e m (reflRows (s.chip.reflTaps e m) m e)).watchBaseline e (reflRows (s.chip.reflTaps e m) m e) := by
  refine ⟨_, execReflectWatchTick.eq_1 e _ _ s, ?_⟩
  have hten : s.chip.upTenSeconds (s.chip.portOf e) = true := decide_eq_true ht
  have hnew : (s.chip.reflWrite e m (reflRows (s.chip.reflTaps e m) m e)).diag = s.chip.diag :=
    (Chip.reflWrite_in (.refl Chip.reflWrite_fx _) (by decide +kernel)).diag_eq (by decide +kernel)
  simp only [hm, hp, hf, ha, hq, hten, reflAgrees_own, hnew, hw]
  rfl

end Sys2Proof.Machine
end

section
set_option Elab.async false
open Sys2Proof Sys2Proof.Machine

/-- Settles O22: each trigger is one change of what diagnostics keep, and each end writes the objects of its pair engines. -/
theorem cableTestsGiveTheirResults : Obligations.CableTestsGiveTheirResults := by
  unfold Obligations.CableTestsGiveTheirResults
  refine ⟨?_, ?_, ?_, ?_, ?_, ?_, ?_, ?_⟩
  · intro p s ha hl ht hw hg hn
    refine Answers.of_write _ (execTdrStart.eq_1 p 1 s) ha (Chip.writeTdrStart_starts hl ht hw hg hn) fun d hd => ?_
    rw [Chip.setBit_eq] at hd
    refine ⟨hd.access, ?_, ?_, hd.onlyDiag ((((Chip.OnlyDiag.refl _).setDiag _).wrRow ..).access _),
      hd.written_keeps (((Chip.Keeps.refl _ _).setDiag _).wrRow rfl)⟩
    · rw [hd.diag_eq]
      simp [Chip.setDiag]
    · rw [hd.rdBit _ rfl]
      exact Chip.rdBit_setBit_same _ .TDR_STATUS p 0 true (by decide)
  · intro p s ha hl
    refine Answers.of_abort (execTdrStart.eq_1 p 1 s) (a := .state) (m := s.chip) ?_ (by decide) (by decide) fun d hd => hd.turnedAway.2
    rw [Chip.gated, ha]
    exact Chip.writeTdrStart_enabled hl
  · intro p r t s ht
    refine Answers.of_runs ⟨_, execTdrDone.eq_1 p r s, Chip.tdrFinish_running ht r⟩ fun d hd => ?_
    rw [Chip.wr_eq] at hd
    have hin := Chip.tdrResults_in (c := s.chip.setDiag fun d => { d with tdr := d.tdr.del p.val }) (p := p) (r := r)
      (.refl Chip.tdrResults_fx _) (by decide +kernel)
    refine ⟨?_, ?_, fun e he => ?_, hd.onlyDiag ?_⟩
    · rw [hd.diag_eq, Chip.wrRow_diag, hin.diag_eq (by decide +kernel)]
      exact Tab.get?_del_same ..
    · rw [hd.rd _ rfl, Chip.rd_wrRow_same]
      rfl
    · obtain ⟨hfault, hdist, hnoise⟩ := Chip.tdrResults_shows (s.chip.setDiag fun d => { d with tdr := d.tdr.del p.val }) p r he
      rw [hd.rd _ rfl, hd.rd _ rfl, hd.rd _ rfl, Chip.rd_wrRow_reg _ _ _ _ _ _ _ _ (by decide) (by decide),
        Chip.rd_wrRow_reg _ _ _ _ _ _ _ _ (by decide) (by decide), Chip.rd_wrRow_reg _ _ _ _ _ _ _ _ (by decide) (by decide)]
      exact ⟨hfault, hdist, hnoise⟩
    · exact (((Chip.OnlyDiag.refl _).setDiag _).each (fun _ _ hb => hb.showPair ..) _).wrRow ..
  · intro e m s ha hm hn
    exact reflectTrigger_starts (.inl rfl) (execReflectCompute.eq_1 e s) ha hm hn
  · intro e m s ha hm hn
    exact reflectTrigger_starts (.inr rfl) (execReflectBaselineSet.eq_1 e s) ha hm hn
  · intro e run m s rows origin hr hm
    refine Answers.of_runs (execReflectDone_run hr hm) fun d hd => ?_
    have hin := ((s.chip.reflEnded e).reflWrite e m (reflRows run.taps m e)).keepBaseline_in e (reflRows run.taps m e)
      (run.base && s.chip.up (s.chip.portOf e))
    have hdiag : ((s.chip.reflEnded e).reflWrite e m (reflRows run.taps m e)).diag = (s.chip.reflEnded e).diag :=
      (Chip.reflWrite_in (.refl Chip.reflWrite_fx _) (by decide +kernel)).diag_eq (by decide +kernel)
    refine ⟨?_, fun k hk => ?_, ?_, ?_, fun hb hu => ?_,
      hd.onlyDiag ((((Chip.OnlyDiag.refl _).setDiag _).reflWrite ..).keepBaseline ..),
      hd.keeps ((((Chip.Keeps.refl _ _).setDiag _).reflWrite e m _).within hin (by decide +kernel))⟩
    · rw [hd.diag_eq, Chip.keepBaseline_refl, hdiag]
      exact Tab.get?_del_same ..
    · rw [hd.rd _ rfl, hin.rd (by decide +kernel) (by decide +kernel), Chip.reflWrite_row _ _ _ _ hk, reflRows_getD _ _ _ hk]
    · rw [hd.rd _ rfl, hin.rd (by decide +kernel) (by decide +kernel), Chip.reflWrite_origin]
      rfl
    · rw [hd.rd _ rfl, hin.rd (by decide +kernel) (by decide +kernel), Chip.reflWrite_bin]
      rfl
    · rw [hd.diag_eq, hb, hu]
      exact Chip.keepBaseline_base ..
  · intro e rows origin run m s hr hm hl
    exact Answers.of_runs (execReflectDone_other hr hm hl) fun d hd => ⟨hd.bare, hd.cells⟩
  · intro e m s p rows origin hm hp hf ha hq ht hw
    refine Answers.of_runs (execReflectWatchTick_first hm hp hf ha hq ht hw) fun d hd => ?_
    refine ⟨?_, ?_, ?_, hd.onlyDiag (((Chip.OnlyDiag.refl _).reflWrite ..).setDiag _)⟩
    · rw [hd.diag_eq]
      exact Tab.get?_put_same ..
    · rw [hd.diag_eq]
      simp [Chip.watchBaseline, Chip.setDiag]
    · rw [Stays, hd.rd _ rfl]
      exact (Chip.reflWrite_in (.refl Chip.reflWrite_fx _) (by decide +kernel)).rd (by decide +kernel) (by decide +kernel) _ 0

end

section
/-!
PROOFS. Link-quality seconds and resets, the counts of standard modes, the plant map, and the activity blink (R170 to R176).
-/
set_option Elab.async false
namespace Sys2Proof.Machine

/-! Flags of `LQ_STATUS` (R173). -/

theorem Chip.lqSet_flag (c : Chip) (p b : Nat) (n : EvName) (hb : b < Reg.width .LQ_STATUS) :
    (c.lqSet p b n).rdBit .LQ_STATUS b p = true := by
  unfold Chip.lqSet
  split
  · assumption
  · exact Chip.rdBit_setBit_same _ _ _ _ _ hb

theorem Chip.Keeps.lqSet {a c : Chip} {P : Key → Prop} (h : a.Keeps c P) {p : Nat} (hP : P ⟨.LQ_STATUS, p, 0⟩) (b : Nat) (n : EvName) :
    a.Keeps (c.lqSet p b n) P := by
  unfold Chip.lqSet
  split
  · exact h
  · exact h.wrRow hP

/-! The second (R173). -/

/-- A pair engine notes its count of uncorrectable codewords. -/
def Chip.markPe (c : Chip) (e : Nat) : Chip := c.setPe e fun x => { x with uncorrAt := c.rd .CW_UNCORRECTABLE e }

/-- Every pair engine of a port notes its count. -/
def Chip.markSecond (c : Chip) (p : Nat) : Chip := c.each (c.pesOf p) Chip.markPe

section
variable (c : Chip) (p : Nat)

theorem Chip.markSecond_in : Within (.of [.pes] []) c (c.markSecond p) :=
  Within.each (fun _ _ h => h.setPe (by decide +kernel)) (.refl _ _)

theorem Chip.markSecond_noted {e : Nat} (he : e ∈ c.pesOf p) : ((c.markSecond p).pe e).uncorrAt = c.rd .CW_UNCORRECTABLE e := by
  refine Chip.each_establishes_under (I := fun d => d.rd .CW_UNCORRECTABLE e = c.rd .CW_UNCORRECTABLE e)
    (P := fun d => (d.pe e).uncorrAt = c.rd .CW_UNCORRECTABLE e) (f := Chip.markPe) (fun _ _ hd => hd) (fun d j hd hp => ?_) (fun d hd => ?_) he rfl
  · by_cases hj : e = j
    · rw [← hj, Chip.markPe, Chip.setPe_same, hd]
    · rw [Chip.markPe, Chip.setPe_other _ _ _ _ hj, hp]
  · rw [Chip.markPe, Chip.setPe_same, hd]

end

/-- A lane with at least the limit's uncorrectable codewords of the second sets the flag. -/
theorem Chip.lqSecond_high {c : Chip} {p : Nat} (hu : c.up p = true) (hl : c.rd .LQ_UNCORR_WARN p ≠ 0)
    (h : ∃ e ∈ (c.port p).lanes, c.rd .LQ_UNCORR_WARN p ≤ (c.rd .CW_UNCORRECTABLE e + 2 ^ 32 - (c.pe e).uncorrAt) % 2 ^ 32) :
    c.lqSecond p = (c.markSecond p).lqSet p 1 .uncorrHigh := by
  have hup : ¬ (!(c.markSecond p).up p) = true := by
    rw [Chip.up, (c.markSecond_in p).port_eq (by decide +kernel), ← Chip.up, hu]
    decide
  obtain ⟨e, he, hw⟩ := h
  refine (if_neg hup).trans (if_pos ?_)
  rw [Bool.and_eq_true, List.any_map, List.any_eq_true]
  exact ⟨bne_iff_ne.2 hl, e, he, decide_eq_true hw⟩

/-! The counts of a standard mode (R170). -/

theorem Chip.stdCounts_isW {c : Chip} {p : Nat} {m : LineMode} (hm : (c.port p).mode = some m) (hw : m.isW = true) (l : List StdCounts) :
    c.stdCounts p l = c := by
  unfold Chip.stdCounts
  split
  · next m' _ hm' =>
    obtain rfl : m' = m := Option.some.inj (hm'.symm.trans hm)
    exact Chip.each_keeps (fun d => d = c) _ (fun d x hd => (if_pos hw).trans hd) _ _ rfl
  · rfl

theorem execLqSecondEnd_high {p : PortNo} {std : List StdCounts} {m : LineMode} {s : State} (hu : s.chip.up p = true)
    (hm : (s.chip.port p).mode = some m) (hw : m.isW = true) (hl : s.chip.rd .LQ_UNCORR_WARN p ≠ 0)
    (h : ∃ e ∈ (s.chip.port p).lanes,
      s.chip.rd .LQ_UNCORR_WARN p ≤ (s.chip.rd .CW_UNCORRECTABLE e + 2 ^ 32 - (s.chip.pe e).uncorrAt) % 2 ^ 32) :
    ∃ f, execLqSecondEnd p std s = s.run f ∧ f s.chip = (s.chip.markSecond p).lqSet p 1 .uncorrHigh := by
  refine ⟨_, execLqSecondEnd.eq_1 p std s, ?_⟩
  rw [Chip.stdCounts_isW hm hw, Chip.lqSecond_high hu hl h]

/-- The pair engines of a port that exists: that of its own number, and others. -/
theorem Chip.pesOf_formed {c : Chip} {p : Nat} (hw : c.width p ≠ 0) : ∃ l, c.pesOf p = p :: l ∧ p ∉ l := by
  obtain ⟨w, hw⟩ := Nat.exists_eq_succ_of_ne_zero hw
  refine ⟨(List.range w).map fun k => p + (k + 1), ?_, by simp⟩
  rw [Chip.pesOf, hw, List.range_succ_eq_map]
  simp [Function.comp_def]

theorem Chip.stdCount_t100 (c : Chip) (e : Nat) (x : StdCounts) : c.stdCount .t100 e x = c.add .SYMBOL_ERR_COUNT e x.symbol := by
  simp [Chip.stdCount, LineMode.isW]

/-- The symbol errors of the first pair add up, whatever the other pairs count. -/
theorem Chip.stdCounts_symbol {c : Chip} {p : Nat} (hu : c.up p = true) (hm : (c.port p).mode = some .t100) (hw : c.width p ≠ 0)
    (x : StdCounts) (l : List StdCounts) : Counts c (c.stdCounts p (x :: l)) .SYMBOL_ERR_COUNT p x.symbol := by
  obtain ⟨es, hes, hp⟩ := Chip.pesOf_formed hw
  have hrun : c.stdCounts p (x :: l) = (c.add .SYMBOL_ERR_COUNT p x.symbol).each (es.zip l) fun c y => c.add .SYMBOL_ERR_COUNT y.1 y.2.symbol := by
    simp [Chip.stdCounts, hu, hm, hes, Chip.stdCount_t100, Chip.each]
  rw [hrun, Counts]
  refine Chip.each_keeps_mem (P := fun d => d.rd .SYMBOL_ERR_COUNT p = (c.rd .SYMBOL_ERR_COUNT p + x.symbol) % 2 ^ Reg.width .SYMBOL_ERR_COUNT)
    (fun d y hy hd => ?_) (by rw [Chip.add_eq, Chip.rd_wrRow_same])
  have hne : p ≠ y.1 := fun h => hp (h ▸ (List.of_mem_zip (a := y.1) (b := y.2) hy).1)
  rw [Chip.add_eq, Chip.rd_wrRow_other _ _ _ _ _ _ _ _ (by simp [hne]) (.inl (by decide)), hd]

/-! The reset (R172). -/

/-- The extremes and the histogram of a pair engine restart. -/
def Chip.lqForget (c : Chip) (e : Nat) : Chip := (c.lqRestart e).clrAll .LDPC_ITER_HIST e

/-- The extremes and the histogram of a pair engine are as at the start. -/
def Chip.LqFresh (d : Chip) (e : Nat) : Prop :=
  d.rd .PE_MARGIN_MIN e = 0 ∧ d.rd .PE_MARGIN_MAX e = 0 ∧ (d.pe e).lqSeen = false ∧ ∀ k, d.rd .LDPC_ITER_HIST e k = 0

/-- The extremes and histograms of a port restart. -/
def Chip.lqRestarted (c : Chip) (p : Nat) : Chip := c.each (c.pesOf p) fun c e => c.lqForget e

theorem Chip.writeLqReset_one (c : Chip) (p : Nat) :
    c.writeLqReset p 1 = (.ok, (((c.lqRestarted p).wr .SKEW_SPAN_MAX p 0).setBit .LQ_STATUS p 3 false).setBit .LQ_STATUS p 4 false) := rfl

theorem Chip.lqForget_pe (c : Chip) (e x : Nat) :
    (c.lqForget e).pe x = if x = e then { c.pe e with lqSeen := false } else c.pe x := by
  rw [Chip.lqForget, Chip.pe_clrAll, Chip.lqRestart]
  by_cases h : x = e
  · rw [h, if_pos rfl, Chip.setPe_same, Chip.wr_eq, Chip.wr_eq, Chip.pe_wrRow, Chip.pe_wrRow]
  · rw [if_neg h, Chip.setPe_other _ _ _ _ h, Chip.wr_eq, Chip.wr_eq, Chip.pe_wrRow, Chip.pe_wrRow]

theorem Chip.lqForget_fresh (c : Chip) (e : Nat) : (c.lqForget e).LqFresh e := by
  refine ⟨?_, ?_, ?_, fun k => Chip.rd_clrAll_same _ rfl e k⟩
  · rw [Chip.lqForget, Chip.rd_clrAll_reg _ (by decide) (by decide)]
    simp [Chip.lqRestart, Chip.wr_eq, Chip.rd_wrRow_same]
  · rw [Chip.lqForget, Chip.rd_clrAll_reg _ (by decide) (by decide)]
    simp [Chip.lqRestart, Chip.wr_eq, Chip.rd_wrRow_same]
  · rw [Chip.lqForget_pe, if_pos rfl]

theorem Chip.LqFresh.lqForget {c : Chip} {e : Nat} (h : c.LqFresh e) (j : Nat) : (c.lqForget j).LqFresh e := by
  by_cases hj : e = j
  · rw [← hj]
    exact c.lqForget_fresh e
  obtain ⟨hmin, hmax, hseen, hhist⟩ := h
  have hlow : ∀ r ∈ [Reg.PE_MARGIN_MIN, .PE_MARGIN_MAX], (c.lqForget j).rd r e = c.rd r e := fun r hr => by
    rw [Chip.lqForget, Chip.rd_clrAll_reg _ (by revert r; decide) (by decide), Chip.lqRestart, Chip.rd_setPe, Chip.wr_eq, Chip.wr_eq,
      Chip.rd_wrRow_other _ _ _ _ _ _ _ _ (by simp [hj]) (.inl (by decide)),
      Chip.rd_wrRow_other _ _ _ _ _ _ _ _ (by simp [hj]) (.inl (by decide))]
  refine ⟨(hlow _ (by decide)).trans hmin, (hlow _ (by decide)).trans hmax, ?_, fun k => ?_⟩
  · rw [Chip.lqForget_pe, if_neg hj, hseen]
  · rw [Chip.lqForget, Chip.rd_clrAll_inst _ rfl hj, ← hhist k]
    simp [Chip.lqRestart, Chip.wr_eq]

theorem Chip.lqRestarted_fresh {c : Chip} {p e : Nat} (he : e ∈ c.pesOf p) : (c.lqRestarted p).LqFresh e :=
  Chip.each_establishes (P := fun d => d.LqFresh e) (fun _ j hd => hd.lqForget j) (fun d => d.lqForget_fresh e) he c

theorem Chip.lqRestarted_in (c : Chip) (p : Nat) : Within (.union [Chip.lqRestart_fx, .of [] [.LDPC_ITER_HIST, .SKEW_SPAN_MAX]]) c (c.lqRestarted p) :=
  Within.each (fun _ _ h => (Chip.lqRestart_in h (by decide +kernel)).clrAll (by decide +kernel)) (.refl _ _)

theorem Within.lqFresh {x : Fx} {c d : Chip} (h : Within x c d) (hp : x.hasPart .pes = false)
    (hr : ∀ r ∈ [Reg.PE_MARGIN_MIN, .PE_MARGIN_MAX, .LDPC_ITER_HIST, .QUAD_FORMATION], x.hasReg r = false) {e : Nat} (hf : c.LqFresh e) :
    d.LqFresh e := by
  obtain ⟨hmin, hmax, hseen, hhist⟩ := hf
  have hrd : ∀ r ∈ [Reg.PE_MARGIN_MIN, .PE_MARGIN_MAX, .LDPC_ITER_HIST, .QUAD_FORMATION], ∀ k, d.rd r e k = c.rd r e k := fun r hm k =>
    h.rd (hr r hm) (hr _ (by decide)) e k
  exact ⟨(hrd _ (by decide) 0).trans hmin, (hrd _ (by decide) 0).trans hmax, (congrArg PeSt.lqSeen (h.pe_eq hp e)).trans hseen,
    fun k => (hrd _ (by decide) k).trans (hhist k)⟩

theorem EvFrame.lqFresh {c d : Chip} (h : EvFrame c d) {e : Nat} (hf : c.LqFresh e) : d.LqFresh e := by
  obtain ⟨hmin, hmax, hseen, hhist⟩ := hf
  exact ⟨(h.rd _ rfl e 0).trans hmin, (h.rd _ rfl e 0).trans hmax, (congrArg PeSt.lqSeen (h.pe_eq e)).trans hseen,
    fun k => (h.rd _ rfl e k).trans (hhist k)⟩

/-! The plant map (R174). -/

theorem Chip.writePlantBuild_starts {c : Chip} (h : c.diag.plant = none) : c.writePlantBuild 1
    = (.ok, c.setDiag fun d => { d with plant := some (c.plantRows.take 4096, c.rd .ANC_MAP_VERSION) }) := by
  simp [Chip.writePlantBuild, h]

theorem Chip.writePlantBuild_busy {c : Chip} (h : c.diag.plant ≠ none) : c.writePlantBuild 1 = (.busy, c) := by
  simp [Chip.writePlantBuild, Option.isSome_iff_ne_none, h]

/-- The build is over, and the old rows are forgotten. -/
def Chip.plantCleared (c : Chip) : Chip := (c.setDiag fun d => { d with plant := none }).clrAll .PLANT_MAP 0

/-- The rows of a plant map are written. -/
def Chip.showPlant (c : Chip) (rows : List Nat) : Chip :=
  c.each (List.range rows.length) fun c k => c.wrRow .PLANT_MAP 0 k (rows.getD k 0)

theorem zip_range_length (rows : List Nat) : (List.range rows.length).zip rows = (List.range rows.length).map fun k => (k, rows.getD k 0) := by
  refine List.ext_getElem (by simp) fun k hk hk' => ?_
  have hr : k < rows.length := by simpa using hk
  simp [List.getD, hr]

theorem Chip.plantDone_eq {c : Chip} {rows : List Nat} {ver : Nat} (h : c.diag.plant = some (rows, ver)) :
    c.plantDone = ((c.plantCleared.showPlant rows).wrDev .PLANT_MAP_ROWS rows.length).wrDev .PLANT_MAP_VERSION ver := by
  simp only [Chip.plantDone, h, zip_range_length, Chip.each, List.foldl_map]
  rfl

theorem Chip.showPlant_in (c : Chip) (rows : List Nat) : Within (.of [] [.PLANT_MAP]) c (c.showPlant rows) :=
  Within.each (fun _ _ h => h.wrRow (by decide +kernel)) (.refl _ _)

theorem Chip.showPlant_row (c : Chip) (rows : List Nat) {k : Nat} (hk : k < rows.length) :
    (c.showPlant rows).rd .PLANT_MAP 0 k = rows.getD k 0 % 2 ^ Reg.width .PLANT_MAP :=
  Chip.rd_each_wrRow c (by decide) 0 (fun k => rows.getD k 0) (List.mem_range.2 hk)

end Sys2Proof.Machine
end

section
set_option Elab.async false
open Sys2Proof Sys2Proof.Machine

/-- Settles O23: a second and a reset are loops over the port's pair engines and then flags of `LQ_STATUS`, the plant map is built in
what diagnostics keep and shown row by row, and the LED commands are single changes. -/
theorem monitorsAndIndicatorsAreKept : Obligations.MonitorsAndIndicatorsAreKept := by
  unfold Obligations.MonitorsAndIndicatorsAreKept
  refine ⟨?_, ?_, ?_, ?_, ?_, ?_, ?_, ?_⟩
  · intro p std m s hu hm hw hl h
    refine Answers.of_runs (execLqSecondEnd_high hu hm hw hl h) fun d hd => ?_
    have hin := Chip.lqSet_in (c := s.chip.markSecond p) (p := p) (b := 1) (e := .uncorrHigh) (.refl Chip.lqSet_fx _) (by decide +kernel)
    have hkeep : s.chip.Keeps (s.chip.markSecond p) fun k => k = ⟨.LQ_STATUS, p, 0⟩ :=
      (Chip.Keeps.refl _ _).within (s.chip.markSecond_in p) (by decide +kernel)
    refine ⟨?_, fun e he => ?_, hd.keeps (hkeep.lqSet rfl _ _)⟩
    · rw [hd.rdBit _ rfl, Chip.lqSet_flag _ _ _ _ (by decide)]
    · rw [hd.pe_eq, hin.pe_eq (by decide +kernel), Chip.markSecond_noted _ _ he]
  · intro p x l s hu hm hw
    refine Answers.of_runs ⟨_, execLqSecondEnd.eq_1 p _ s, rfl⟩ fun d hd => ?_
    rw [Counts, hd.rd _ rfl, (Chip.lqSecond_in (.refl Chip.lqSecond_fx _) (by decide +kernel)).rd (by decide +kernel) (by decide +kernel)]
    exact Chip.stdCounts_symbol hu hm hw x l
  · intro p s ha
    refine Answers.of_write _ (execLqReset.eq_1 p 1 s) ha (s.chip.writeLqReset_one p) fun d hd => ?_
    have hin : Within (.of [] [.SKEW_SPAN_MAX, .LQ_STATUS]) (s.chip.lqRestarted p)
        ((((s.chip.lqRestarted p).wr .SKEW_SPAN_MAX p 0).setBit .LQ_STATUS p 3 false).setBit .LQ_STATUS p 4 false) :=
      (((Within.refl _ _).wr (by decide +kernel)).setBit (by decide +kernel)).setBit (by decide +kernel)
    refine ⟨hd.access, fun e he => EvFrame.lqFresh hd (hin.lqFresh (by decide +kernel) (by decide +kernel) (Chip.lqRestarted_fresh he)),
      ?_, ?_, ?_, ?_⟩
    · rw [hd.written_rd rfl, Chip.setBit_eq, Chip.setBit_eq, Chip.rd_wrRow_reg _ _ _ _ _ _ _ _ (by decide) (by decide),
        Chip.rd_wrRow_reg _ _ _ _ _ _ _ _ (by decide) (by decide), Chip.wr_eq, Chip.rd_wrRow_same]
      rfl
    · rw [hd.written_rdBit rfl, Chip.rdBit_setBit_other _ _ _ _ _ _ (by decide) (by decide), Chip.rdBit_setBit_same _ _ _ _ _ (by decide)]
    · rw [hd.written_rdBit rfl, Chip.rdBit_setBit_same _ _ _ _ _ (by decide)]
    · rw [hd.written_rdBit rfl, Chip.rdBit_setBit_other _ _ _ _ _ _ (by decide) (by decide),
        Chip.rdBit_setBit_other _ _ _ _ _ _ (by decide) (by decide)]
      exact ((s.chip.lqRestarted_in p).wr (by decide +kernel)).rdBit (x := .union [Chip.lqRestart_fx, .of [] [.LDPC_ITER_HIST, .SKEW_SPAN_MAX]])
        (by decide +kernel) (by decide +kernel) ..
  · intro s ha hn
    refine Answers.of_write _ (execPlantMapBuild.eq_1 1 s) ha (Chip.writePlantBuild_starts hn) fun d hd => ?_
    exact ⟨hd.access, by rw [hd.diag_eq]; rfl, hd.onlyDiag (((Chip.OnlyDiag.refl _).setDiag _).access _),
      hd.written_keeps ((Chip.Keeps.refl _ _).setDiag _)⟩
  · intro s ha hn
    refine Answers.of_abort (execPlantMapBuild.eq_1 1 s) (a := .busy) (m := s.chip) ?_ (by decide) (by decide) fun d hd => hd.turnedAway.2
    rw [Chip.gated, ha]
    exact Chip.writePlantBuild_busy hn
  · intro rows ver s h
    refine Answers.of_runs ⟨_, execPlantMapDone.eq_1 s, Chip.plantDone_eq h⟩ fun d hd => ?_
    rw [Chip.wrDev_eq, Chip.wrDev_eq] at hd
    refine ⟨?_, ?_, ?_, fun k hk => ?_, hd.onlyDiag ?_⟩
    · rw [hd.diag_eq, Chip.wrRow_diag, Chip.wrRow_diag, (Chip.showPlant_in _ _).diag_eq (by decide +kernel)]
      rfl
    · rw [hd.rd _ rfl, Chip.rd_wrRow_reg _ _ _ _ _ _ _ _ (by decide) (by decide), Chip.rd_wrRow_same]
    · rw [hd.rd _ rfl, Chip.rd_wrRow_same]
    · rw [hd.rd _ rfl, Chip.rd_wrRow_reg _ _ _ _ _ _ _ _ (by decide) (by decide), Chip.rd_wrRow_reg _ _ _ _ _ _ _ _ (by decide) (by decide),
        Chip.showPlant_row _ _ hk]
    · exact (((((Chip.OnlyDiag.refl _).setDiag _).clrAll ..).each (fun _ _ hb => hb.wrRow ..) _).wrRow ..).wrRow ..
  · intro q s
    refine Answers.of_runs ⟨_, execLedLocateTick.eq_1 q s, rfl⟩ fun d hd => ?_
    refine ⟨?_, hd.bare.trans (Chip.bare_wrRow ..), hd.keeps (Chip.Keeps.wrRow (Chip.Keeps.refl _ _) rfl)⟩
    rw [hd.rd _ rfl, Chip.wr_eq, Chip.rd_wrRow_same]
  · intro p s
    refine Answers.of_runs ⟨_, execLedBlinkEnd.eq_1 p s, rfl⟩ fun d hd => ?_
    refine ⟨?_, fun q hq => ?_, hd.onlyDiag ((Chip.OnlyDiag.refl _).setDiag _), hd.keeps ((Chip.Keeps.refl _ _).setDiag _)⟩
    · rw [hd.diag_eq]
      simp [Chip.setDiag]
    · rw [hd.diag_eq]
      simp [Chip.setDiag, hq]

end

section
/-!
PROOFS. `HOST_PAUSE_HONOUR` is an object of the device (`DEV.7000.03`, R194), which a port's number does not name.
-/
set_option Elab.async false
namespace Sys2Proof.Machine

/-- A PAUSE frame of 5 quanta from the host. -/
def pauseOf5 : HostFrame where
  pre := natToOctets 6 0x555555555555
  octets := natToOctets 6 0x0180C2000001 ++ natToOctets 6 dapMac ++ natToOctets 2 0x8808 ++ natToOctets 2 1 ++ natToOctets 2 5
  error := false

/-- The device has `HOST_PAUSE_HONOUR` false, and the lanes 2 and 3 of port 4 are up. -/
def pauseUnheeded : State where
  chip := ((({} : Chip).wrDev .HOST_PAUSE_HONOUR 0).wr .HL_STATUS 2 8).wr .HL_STATUS 3 8

/-- The device discards the frame and counts it, as R194 asks. -/
theorem pauseUnheeded_discards :
    pauseUnheeded.chip.hostFrame (4 : PortNo) pauseOf5 = pauseUnheeded.chip.inc .MAC_CTRL_DISCARD (4 : PortNo) := by decide +kernel

end Sys2Proof.Machine
end

section
set_option Elab.async false
open Sys2Proof Sys2Proof.Machine

/-- Refutes O24, by its clause on PAUSE: the clause asks for the object `HOST_PAUSE_HONOUR` of number `p`, where the dictionary holds
one for the device, of number 0. Where that one is false, the frame that comes for port 4 meets the clause's conditions, since number 4
is never written and reads the default, true; the device discards the frame, and `HOST_PAUSED` stays clear. -/
theorem not_hostFramesAreTaken : ¬ Obligations.HostFramesAreTaken := by
  unfold Obligations.HostFramesAreTaken
  rintro ⟨-, -, -, hpause, -⟩
  obtain ⟨d, hd, hset, -⟩ := (hpause 4 pauseOf5 5 pauseUnheeded (by decide +kernel) (by decide) (by decide +kernel) (by decide +kernel)
    (by decide +kernel)).effect (execFrameFromHost.eq_1 4 pauseOf5 _)
  rw [hd.rdBit _ rfl, pauseUnheeded_discards] at hset
  exact absurd hset (by decide +kernel)

end

section
/-!
PROOFS. Rules of the state for the host side: what a port's host side or a lane reads after an operation, and which parts stay.
-/
set_option Elab.async false
namespace Sys2Proof.Machine

/-! The per-unit records. -/

@[simp] theorem Chip.setHost_same (c : Chip) (p : Nat) (f : HostSt → HostSt) : (c.setHost p f).hostOf p = f (c.hostOf p) := Tab.getD_upd_same ..

theorem Chip.setHost_other (c : Chip) (p q : Nat) (f : HostSt → HostSt) (h : q ≠ p) : (c.setHost p f).hostOf q = c.hostOf q :=
  Tab.getD_upd_other _ _ _ _ _ _ h

@[simp] theorem Chip.setLane_same (c : Chip) (h : Nat) (f : LaneSt → LaneSt) : (c.setLane h f).laneOf h = f (c.laneOf h) := Tab.getD_upd_same ..

theorem Chip.setLane_other (c : Chip) (h j : Nat) (f : LaneSt → LaneSt) (hj : j ≠ h) : (c.setLane h f).laneOf j = c.laneOf j :=
  Tab.getD_upd_other _ _ _ _ _ _ hj

@[simp] theorem Chip.hostOf_wrRow (c : Chip) (r : Reg) (i row v p : Nat) : (c.wrRow r i row v).hostOf p = c.hostOf p := by
  simp [Chip.hostOf]

@[simp] theorem Chip.laneOf_wrRow (c : Chip) (r : Reg) (i row v h : Nat) : (c.wrRow r i row v).laneOf h = c.laneOf h := by
  simp [Chip.laneOf]

section
variable {c d : Chip}

theorem EvFrame.hostOf_eq (h : EvFrame c d) (p : Nat) : d.hostOf p = c.hostOf p := by simp [Chip.hostOf, h.host_eq]

theorem EvFrame.laneOf_eq (h : EvFrame c d) (j : Nat) : d.laneOf j = c.laneOf j := by simp [Chip.laneOf, h.hlane_eq]

theorem Within.hostOf_eq {x : Fx} (h : Within x c d) (hx : x.hasPart .host = false) (p : Nat) : d.hostOf p = c.hostOf p :=
  congrArg (fun t => t.getD p {}) (h.part .host hx)

theorem Within.laneOf_eq {x : Fx} (h : Within x c d) (hx : x.hasPart .hlane = false) (j : Nat) : d.laneOf j = c.laneOf j :=
  congrArg (fun t => t.getD j {}) (h.part .hlane hx)

end

/-! Cells that are written and cells that are kept. -/

/-- A cell reads a value that its object is wide enough to hold. -/
theorem Chip.rd_wrRow_fits {r : Reg} {v : Nat} (hv : v < 2 ^ r.width) (c : Chip) (i row : Nat) : (c.wrRow r i row v).rd r i row = v := by
  rw [Chip.rd_wrRow_same, Nat.mod_eq_of_lt hv]

section
variable {b c : Chip} {P : Key → Prop} (h : b.Keeps c P)
include h

theorem Chip.Keeps.setHost (p : Nat) (f : HostSt → HostSt) : b.Keeps (c.setHost p f) P := h

theorem Chip.Keeps.setLane (j : Nat) (f : LaneSt → LaneSt) : b.Keeps (c.setLane j f) P := h

theorem Chip.Keeps.raise (n : EvName) (i d : Nat) : b.Keeps (c.raise n i d) P := h

theorem Chip.Keeps.each {α : Type} {f : Chip → α → Chip} {l : List α} (hf : ∀ d, ∀ a ∈ l, b.Keeps d P → b.Keeps (f d a) P) :
    b.Keeps (c.each l f) P := Chip.each_keeps_mem (P := fun d => b.Keeps d P) (fun d a ha hd => hf d a ha hd) h

end

/-! Parts that stay. -/

/-- An operation of the host side changes, beside the objects, the ports' host sides, the lanes, diagnostics and the meters. -/
theorem Within.bare_hostSide {x : Fx} {c d : Chip} (h : Within x c d)
    (hx : x.le (.everyReg [.access, .ev, .host, .hlane, .diag, .meters]) = true) :
    d.bare = { c.bare with host := d.host, hlane := d.hlane, diag := d.diag, meters := d.meters } := by
  have hp := (h.mono hx).part
  have hwale : d.wale = c.wale := hp .wale (by decide +kernel)
  have hpwr : d.pwr = c.pwr := hp .pwr (by decide +kernel)
  have hcal : d.cal = c.cal := hp .cal (by decide +kernel)
  simp only [Chip.bare, hwale, hpwr, hcal, Chip.mk.injEq, true_and]
  exact ⟨hp .held (by decide +kernel), hp .draws (by decide +kernel), hp .root (by decide +kernel), hp .tb (by decide +kernel),
    hp .ports (by decide +kernel), hp .pes (by decide +kernel), hp .anc (by decide +kernel), hp .time (by decide +kernel),
    hp .sched (by decide +kernel), hp .queues (by decide +kernel), hp .frameNo (by decide +kernel), hp .flowSh (by decide +kernel),
    hp .svcSh (by decide +kernel), hp .portSh (by decide +kernel), hp .buf (by decide +kernel), hp .dap (by decide +kernel),
    hp .bist (by decide +kernel), hp .boot (by decide +kernel), hp .cfg (by decide +kernel), hp .nv (by decide +kernel)⟩

section
variable {x : Fx} {c m d : Chip} (h : Within x c m) (hd : d.bare = m.bare)
include h hd

/-- A command whose own effect changes no part but the lanes. -/
theorem Within.bare_hlane (hx : x.le (.everyReg [.access, .ev, .hlane]) = true) : d.bare = { c.bare with hlane := d.hlane } := by
  have hw := h.mono hx
  have hhost : m.host = c.host := hw.part .host (by decide +kernel)
  have hdiag : m.diag = c.diag := hw.part .diag (by decide +kernel)
  have hmeters : m.meters = c.meters := hw.part .meters (by decide +kernel)
  have hhlane : d.bare.hlane = m.bare.hlane := congrArg Chip.hlane hd
  rw [hd, show d.hlane = m.hlane from hhlane, hw.bare_hostSide (by decide +kernel), hhost, hdiag, hmeters]
  rfl

/-- A command whose own effect changes no part but the ports' host sides, diagnostics and the meters. -/
theorem Within.bare_rx (hx : x.le (.everyReg [.access, .ev, .host, .diag, .meters]) = true) :
    d.bare = { c.bare with host := d.host, diag := d.diag, meters := d.meters } := by
  have hw := h.mono hx
  have hhlane : m.hlane = c.hlane := hw.part .hlane (by decide +kernel)
  have hm : m.bare = { c.bare with host := m.bare.host, diag := m.bare.diag, meters := m.bare.meters } := by
    rw [hw.bare_hostSide (by decide +kernel), hhlane]
    rfl
  rw [← hd] at hm
  exact hm

/-- A command whose own effect changes no part but the ports' host sides and the lanes. -/
theorem Within.bare_host_hlane (hx : x.le (.everyReg [.access, .ev, .host, .hlane]) = true) :
    d.bare = { c.bare with host := d.host, hlane := d.hlane } := by
  have hw := h.mono hx
  have hdiag : m.diag = c.diag := hw.part .diag (by decide +kernel)
  have hmeters : m.meters = c.meters := hw.part .meters (by decide +kernel)
  have hhost : d.bare.host = m.bare.host := congrArg Chip.host hd
  have hhlane : d.bare.hlane = m.bare.hlane := congrArg Chip.hlane hd
  rw [hd, show d.host = m.host from hhost, show d.hlane = m.hlane from hhlane, hw.bare_hostSide (by decide +kernel), hdiag, hmeters]
  rfl

end

/-- Of the parts beside the dictionary only the host side of a port has changed. -/
def Chip.OnlyHost (c d : Chip) (p : Nat) : Prop := d.bare = { c.bare with host := d.host } ∧ ∀ q, q ≠ p → d.hostOf q = c.hostOf q

theorem Chip.OnlyHost.refl (c : Chip) (p : Nat) : c.OnlyHost c p := ⟨rfl, fun _ _ => rfl⟩

theorem Chip.OnlyHost.setHost {b c : Chip} {p : Nat} (h : b.OnlyHost c p) (f : HostSt → HostSt) : b.OnlyHost (c.setHost p f) p := by
  obtain ⟨hb, hp⟩ := h
  refine ⟨?_, fun q hq => (Chip.setHost_other _ _ _ _ hq).trans (hp q hq)⟩
  change ({ c.bare with host := (c.setHost p f).host } : Chip) = _
  rw [hb]

theorem Chip.OnlyHost.wrRow {b c : Chip} {p : Nat} (h : b.OnlyHost c p) (r : Reg) (i row v : Nat) : b.OnlyHost (c.wrRow r i row v) p := by
  obtain ⟨hb, hp⟩ := h
  exact ⟨by rw [Chip.bare_wrRow, hb, Chip.wrRow_host], fun q hq => (Chip.hostOf_wrRow ..).trans (hp q hq)⟩

theorem EvFrame.onlyHost {b c d : Chip} {p : Nat} (h : EvFrame c d) (ho : b.OnlyHost c p) : b.OnlyHost d p := by
  obtain ⟨hb, hp⟩ := ho
  exact ⟨by rw [h.bare, h.host_eq, hb], fun q hq => (h.hostOf_eq q).trans (hp q hq)⟩

end Sys2Proof.Machine
end

section
/-!
PROOFS. Frames from the line into the receive FIFO, and what leaves for the host (R17, R188, R193 to R198).
-/
set_option Elab.async false
namespace Sys2Proof.Machine

/-! The frame's length and kind (R195). -/

/-- An octet's activity changes what diagnostics keep and nothing else. -/
theorem Chip.blink_eq (c : Chip) (p : Nat) : c.blink p = c.setDiag fun _ => (c.blink p).diag := by
  unfold Chip.blink
  split
  · rfl
  · split
    · split <;> rfl
    · rfl

section
variable {c : Chip} {p : Nat} {f : LineFrame} (hu : c.up p = true) (hk : f.kind = .express) (he : f.error = false)
  (hd : c.rdBool .DAP_LINE_ENABLE p = false ∨ c.isDap f.octets = false)
include hu hk he hd

/-- An express frame without error that is no message is judged by the FIFO's space, then by its length. -/
theorem Chip.lineFrame_express : c.lineFrame p f =
    if f.full || (f.octets.length > 32768 - c.fifoOctets p && 32768 - c.fifoOctets p ≤ c.rd .RX_MAX_FRAME p) then
      (c.blink p).inc .RX_FIFO_DROP p
    else if f.octets.length > c.rd .RX_MAX_FRAME p then (c.blink p).inc .RX_OVERSIZE p
    else (c.blink p).rxStore p f.octets (c.rxTime p f.stamp) := by
  have hdap : (c.rdBool .DAP_LINE_ENABLE p && c.isDap f.octets) = false := by rcases hd with h | h <;> simp [h]
  rw [Chip.lineFrame, hu, hk, he, Chip.blink_eq]
  generalize (fun _ => (c.blink p).diag) = g
  have hmsg : ((c.setDiag g).rdBool .DAP_LINE_ENABLE p && (c.setDiag g).isDap f.octets) = false := hdap
  simp only [Chip.rxKind, Bool.not_true, Bool.false_eq_true, if_false, hmsg, Bool.false_and, Bool.not_false, Bool.true_and]
  rfl

theorem Chip.lineFrame_full (hf : f.full = true) : c.lineFrame p f = (c.blink p).inc .RX_FIFO_DROP p := by
  rw [Chip.lineFrame_express hu hk he hd, hf]
  rfl

section
variable (hf : f.full = false) (hr : c.fifoOctets p + f.octets.length ≤ 32768)
include hf hr

theorem Chip.lineFrame_long (hm : c.rd .RX_MAX_FRAME p < f.octets.length) : c.lineFrame p f = (c.blink p).inc .RX_OVERSIZE p := by
  have hroom : ¬ f.octets.length > 32768 - c.fifoOctets p := by omega
  rw [Chip.lineFrame_express hu hk he hd, if_neg (by simp [hf, hroom]), if_pos hm]

theorem Chip.lineFrame_stored (hm : f.octets.length ≤ c.rd .RX_MAX_FRAME p) :
    c.lineFrame p f = (c.blink p).rxStore p f.octets (c.rxTime p f.stamp) := by
  have hroom : ¬ f.octets.length > 32768 - c.fifoOctets p := by omega
  rw [Chip.lineFrame_express hu hk he hd, if_neg (by simp [hf, hroom]), if_neg (Nat.not_lt.2 hm)]

end

end

/-- A frame that is dropped is counted, beside the port's activity. -/
theorem Answers.of_dropped {i : Instr} {s : State} {p : Nat} {r : Reg} (hr : r.ofEvents = false)
    (h : ∃ f, exec i s = s.run f ∧ f s.chip = (s.chip.blink p).inc r p) :
    Answers i s fun d => Counts s.chip d r p 1 ∧ d.bare = { s.chip.bare with diag := d.diag } ∧ s.chip.Keeps d fun k => k = ⟨r, p, 0⟩ := by
  refine Answers.of_runs h fun d hd => ?_
  rw [Chip.blink_eq, Chip.inc_eq] at hd
  refine ⟨?_, hd.onlyDiag (((Chip.OnlyDiag.refl _).setDiag _).wrRow ..), hd.keeps (((Chip.Keeps.refl _ _).setDiag _).wrRow rfl)⟩
  rw [Counts, hd.rd _ hr, Chip.rd_wrRow_same]
  rfl

/-! A whole frame enters the FIFO (R17, R193, R254). -/

/-- A frame with a bad FCS is counted. -/
def Chip.fcsCounted (c : Chip) (p : Nat) (f : List Octet) : Chip :=
  if fcsOk f then c else c.setHost p fun h => { h with fcsBad := h.fcsBad + 1 }

/-- The colour of a frame, and the block that has metered it. -/
def Chip.rxMetered (c : Chip) (p : Nat) (f : List Octet) (t : Nat) : Nat × Chip :=
  if fcsOk f then (c.fcsCounted p f).meterFrame p (flowIndex ((c.fcsCounted p f).rd .RX_FLOW_SELECT p) f) f.length t
  else (3, c.fcsCounted p f)

/-- A recognised PTP message is counted. -/
def Chip.ptpCounted (c : Chip) (p : Nat) (f : List Octet) : Chip :=
  if (if fcsOk f && c.rdBool .PTP_ENABLE p then ptpFind f else none).isSome then c.inc .PTP_RX_COUNT p else c

/-- The host side of a port that a frame has entered. -/
def HostSt.received (h : HostSt) (good : Bool) (x : RxFrame) : HostSt :=
  { h with fcsBad := h.fcsBad + if good then 0 else 1, fifo := h.fifo ++ [x] }

/-- Cells that the receive side of a port writes for a frame that it takes. -/
def rxCells (p : Nat) (k : Key) : Prop := k = ⟨.PTP_RX_COUNT, p, 0⟩ ∨ k.reg = .MTR_COUNTS

section
variable {c : Chip} (p : Nat) (f : List Octet) (t : Nat)

theorem Chip.rxStore_enters (hr : c.rdBool .RX_RED_DISCARD p = false) : ∃ tag correct inst, c.rxStore p f t
    = ((c.rxMetered p f t).2.ptpCounted p f).setHost p fun h => { h with fifo := h.fifo ++ [⟨f, tag, correct, inst⟩] } := by
  have hred : (c.rxMetered p f t).2.rdBool .RX_RED_DISCARD p = false := by
    rw [← hr]
    unfold Chip.rxMetered Chip.fcsCounted
    split
    · exact (Chip.meterFrame_in (.refl Chip.meterFrame_fx c) (by decide +kernel)).rdBool (by decide +kernel) (by decide +kernel) p
    · rfl
  have hkept : ¬ ((c.rxMetered p f t).1 = 2 && (c.rxMetered p f t).2.rdBool .RX_RED_DISCARD p) = true := by
    rw [hred, Bool.and_false]
    decide
  exact ⟨_, _, _, if_neg hkept⟩

theorem Chip.rxMetered_in (c : Chip) : Within Chip.meterFrame_fx (c.fcsCounted p f) (c.rxMetered p f t).2 := by
  unfold Chip.rxMetered
  split
  · exact Chip.meterFrame_in (.refl _ _) (by decide +kernel)
  · exact .refl _ _

theorem Chip.ptpCounted_in (c : Chip) : Within (.of [] [.PTP_RX_COUNT]) c (c.ptpCounted p f) :=
  Within.ite ((Within.refl _ _).inc (by decide +kernel)) (.refl _ _)

theorem Chip.fcsCounted_hostOf (c : Chip) :
    (c.fcsCounted p f).hostOf p = { c.hostOf p with fcsBad := (c.hostOf p).fcsBad + if fcsOk f then 0 else 1 } := by
  unfold Chip.fcsCounted
  split <;> simp

theorem Chip.fcsCounted_other {q : Nat} (hq : q ≠ p) : (c.fcsCounted p f).hostOf q = c.hostOf q := by
  unfold Chip.fcsCounted
  split
  · rfl
  · exact Chip.setHost_other _ _ _ _ hq

/-- The FIFO of the port holds one frame more, and a frame with a bad FCS is counted. -/
theorem Chip.rxStore_hostOf (hr : c.rdBool .RX_RED_DISCARD p = false) :
    ∃ x : RxFrame, x.octets = f ∧ (c.rxStore p f t).hostOf p = (c.hostOf p).received (fcsOk f) x := by
  obtain ⟨tag, correct, inst, hx⟩ := Chip.rxStore_enters p f t hr
  refine ⟨⟨f, tag, correct, inst⟩, rfl, ?_⟩
  rw [hx, Chip.setHost_same, (Chip.ptpCounted_in p f _).hostOf_eq (by decide +kernel), (Chip.rxMetered_in p f t c).hostOf_eq (by decide +kernel),
    Chip.fcsCounted_hostOf]
  rfl

theorem Chip.rxStore_other (hr : c.rdBool .RX_RED_DISCARD p = false) {q : Nat} (hq : q ≠ p) :
    (c.rxStore p f t).hostOf q = c.hostOf q := by
  obtain ⟨tag, correct, inst, hx⟩ := Chip.rxStore_enters p f t hr
  rw [hx, Chip.setHost_other _ _ _ _ hq, (Chip.ptpCounted_in p f _).hostOf_eq (by decide +kernel),
    (Chip.rxMetered_in p f t c).hostOf_eq (by decide +kernel), Chip.fcsCounted_other p f hq]

theorem Chip.Keeps.meterFrame {b c : Chip} {P : Key → Prop} (h : b.Keeps c P) (hP : ∀ k : Key, k.reg = .MTR_COUNTS → P k)
    (index n : Nat) : b.Keeps (c.meterFrame p index n t).2 P := by
  unfold Chip.meterFrame
  split
  · exact h
  · dsimp only
    rw [Chip.addField_eq]
    refine Chip.Keeps.wrRow ?_ (hP _ rfl)
    exact h

theorem Chip.rxStore_keeps (hr : c.rdBool .RX_RED_DISCARD p = false) : c.Keeps (c.rxStore p f t) (rxCells p) := by
  obtain ⟨tag, correct, inst, hx⟩ := Chip.rxStore_enters p f t hr
  have hcounted : c.Keeps (c.fcsCounted p f) (rxCells p) := by
    unfold Chip.fcsCounted
    split <;> exact Chip.Keeps.refl _ _
  have hmetered : c.Keeps (c.rxMetered p f t).2 (rxCells p) := by
    unfold Chip.rxMetered
    split
    · exact hcounted.meterFrame p t (fun _ => .inr) _ _
    · exact hcounted
  rw [hx]
  refine Chip.Keeps.setHost ?_ _ _
  exact iteInduction (motive := fun d => c.Keeps d (rxCells p)) (fun _ => hmetered.wrRow (.inl rfl)) fun _ => hmetered

/-- The block that a frame has entered after the port's activity was noted. -/
theorem Chip.blink_rxStore_in (c : Chip) :
    Within (.union [Chip.blink_fx, Chip.rxStore_fx]) c ((c.setDiag fun _ => (c.blink p).diag).rxStore p f t) := by
  rw [← Chip.blink_eq]
  exact Chip.rxStore_in (Chip.blink_in (.refl _ _) (by decide +kernel)) (by decide +kernel)

/-- A frame with a bad FCS is neither metered nor looked into: it enters as it is, with type 0xA (R17, R193). -/
theorem Chip.rxStore_bad (hg : fcsOk f = false) : c.rxStore p f t
    = (c.setHost p fun h => { h with fcsBad := h.fcsBad + 1 }).setHost p fun h => { h with fifo := h.fifo ++
        [⟨f, 0xA * 2 ^ 44 + tagTime t * 2 ^ 14 + 3 * 2 ^ 12 + flowIndex (c.rd .RX_FLOW_SELECT p) f % 4096, false, c.msgInstant p t⟩] } := by
  simp only [Chip.rxStore, hg]
  rfl

end

/-! What leaves for the host (R188, R193, R194, R198). -/

section
variable {c : Chip} {p : Nat}

theorem Chip.running_setHost (q : Nat) {g : HostSt → HostSt} (hg : ∀ h, (g h).moved = h.moved) : (c.setHost p g).running q = c.running q := by
  have hm : ((c.setHost p g).hostOf q).moved = (c.hostOf q).moved := by
    by_cases hq : q = p
    · rw [hq, Chip.setHost_same, hg]
    · rw [Chip.setHost_other _ _ _ _ hq]
  rw [Chip.running, hm]
  rfl

/-- A port's place in its to-host stream is not moved by what its host side keeps. -/
theorem Chip.streamNow_setHost {g : HostSt → HostSt} (hg : ∀ h, (g h).moved = h.moved) : (c.setHost p g).streamNow p = c.streamNow p := by
  rw [Chip.streamNow, Chip.streamNow, Chip.capacity1024, Chip.capacity1024, Chip.running_setHost p hg]
  rfl

/-- Where the FIFO stays, so does the gap. -/
theorem Chip.hostGap_setHost {g : HostSt → HostSt} (hm : ∀ h, (g h).moved = h.moved) (hf : ∀ h, (g h).fifo = h.fifo) :
    (c.setHost p g).hostGap p = c.hostGap p := by
  simp only [Chip.hostGap, Chip.fifoOctets, Chip.running_setHost p hm, Chip.setHost_same, hf]
  rfl

theorem Chip.sendToHost_hostOf (tag : Nat) (l : List Octet) : (c.sendToHost p tag l).hostOf p =
    { c.hostOf p with
      toHost := withPreamble tag l, toHostAt := c.toHostStart p, streamEnd := c.toHostStart p + (withPreamble tag l).length } :=
  Chip.setHost_same ..

theorem Chip.OnlyHost.sendToHost {b : Chip} (h : b.OnlyHost c p) (tag : Nat) (l : List Octet) : b.OnlyHost (c.sendToHost p tag l) p :=
  h.setHost _

theorem Chip.Keeps.sendToHost {b : Chip} {P : Key → Prop} (h : b.Keeps c P) (tag : Nat) (l : List Octet) : b.Keeps (c.sendToHost p tag l) P := h

section
variable (ho : c.hostOut p = true) (hp : c.rdBit .HL_PORT_STATUS 4 p = false) (hn : (c.hostOf p).pfcNew = [])
include ho hp hn

/-- DAP responses leave before received frames, by the choice of log entry 33. -/
theorem Chip.forward_dap {x : RxFrame} {l : List RxFrame} (hd : (c.hostOf p).dapOut = x :: l) :
    c.forward p = (c.setHost p fun h => { h with dapOut := l }).sendToHost p (c.rxTag p x.tag) x.octets := by
  simp only [Chip.forward, ho, hp, hn, hd]
  rfl

/-- A received frame that needs no correction leaves as it is. -/
theorem Chip.forward_fifo {x : RxFrame} {l : List RxFrame} (hd : (c.hostOf p).dapOut = []) (hf : (c.hostOf p).fifo = x :: l)
    (hu : c.up p = true) (hx : x.correct = false) :
    c.forward p = (c.setHost p fun h => { h with fifo := l }).sendToHost p (c.rxTag p x.tag) x.octets := by
  simp only [Chip.forward, ho, hp, hn, hd, hf, hu, Chip.rxLeave, hx]
  rfl

end

theorem Chip.pfcSend_sends (hn : (c.hostOf p).pfcNew ≠ []) : c.pfcSend p =
    ((c.sendToHost p 0x555555555555 (c.pfcFrame p (c.hostOf p).pfcNew)).setHost p fun h => { h with pfcNew := [] }).inc .PFC_FRAME_COUNT p :=
  if_neg (by simpa using hn)

/-- A priority waits for the next PFC frame, once. -/
theorem Chip.pfcQueue_waits (c : Chip) (p prio : Nat) : ((c.pfcQueue p prio).hostOf p).pfcNew.contains prio = true ∧
    ((c.pfcQueue p prio).hostOf p).fifo = (c.hostOf p).fifo := by
  rw [Chip.pfcQueue, Chip.setHost_same]
  split
  · next h => exact ⟨h, rfl⟩
  · simp

end

end Sys2Proof.Machine
end

section
set_option Elab.async false
open Sys2Proof Sys2Proof.Machine

/-- Settles O25: a frame from the line is judged by the FIFO's space and its length and then enters behind the others, and what leaves
is one frame of the port's to-host stream after its gap. -/
theorem receivedFramesReachTheHost : Obligations.ReceivedFramesReachTheHost := by
  unfold Obligations.ReceivedFramesReachTheHost
  refine ⟨?_, ?_, ?_, ?_, ?_, ?_, ?_, ?_⟩
  · intro p f s hu hk hdap he hf hm hr hred
    refine Answers.of_runs ⟨_, execReceiveFrame.eq_1 p f s, Chip.lineFrame_stored hu hk he hdap hf hr hm⟩ fun d hd => ?_
    have hin := s.chip.blink_rxStore_in p f.octets (s.chip.rxTime p f.stamp)
    rw [Chip.blink_eq] at hd
    obtain ⟨x, hx, hhost⟩ := Chip.rxStore_hostOf (c := s.chip.setDiag fun _ => (s.chip.blink p).diag) p f.octets (s.chip.rxTime p f.stamp) hred
    refine ⟨?_, ?_, ?_, ?_, ⟨hin.bare_rx hd.bare (by decide +kernel), fun q hq => ?_⟩, hd.keeps (Chip.rxStore_keeps (c := s.chip.setDiag _) _ _ _ hred)⟩
    · rw [hd.hostOf_eq, hhost, HostSt.received, List.map_append, List.map_singleton, hx]
      rfl
    · rw [hd.hostOf_eq, hhost]
      rfl
    · rw [hd.hostOf_eq, hhost]
      rfl
    · rw [hd.hostOf_eq, hhost]
      rfl
    · exact (hd.hostOf_eq q).trans (Chip.rxStore_other (c := s.chip.setDiag _) _ _ _ hred hq)
  · intro p f s hu hk hdap he hg hf hm hr
    refine Answers.of_runs ⟨_, execReceiveFrame.eq_1 p f s, Chip.lineFrame_stored hu hk he hdap hf hr hm⟩ fun d hd => ?_
    have hin := s.chip.blink_rxStore_in p f.octets (s.chip.rxTime p f.stamp)
    rw [Chip.blink_eq] at hd
    refine ⟨?_, ⟨hin.bare_rx hd.bare (by decide +kernel), fun q hq => ?_⟩, hd.keeps ?_⟩
    · rw [hd.hostOf_eq, Chip.rxStore_bad _ _ _ hg, Chip.setHost_same, Chip.setHost_same]
      rfl
    · rw [hd.hostOf_eq, Chip.rxStore_bad _ _ _ hg, Chip.setHost_other _ _ _ _ hq, Chip.setHost_other _ _ _ _ hq]
      rfl
    · rw [Chip.rxStore_bad _ _ _ hg]
      exact Chip.Keeps.refl _ _
  · intro p f s hu hk hdap he hf hm hr
    exact Answers.of_dropped rfl ⟨_, execReceiveFrame.eq_1 p f s, Chip.lineFrame_long hu hk he hdap hf hr hm⟩
  · intro p f s hu hk hdap he hf
    exact Answers.of_dropped rfl ⟨_, execReceiveFrame.eq_1 p f s, Chip.lineFrame_full hu hk he hdap hf⟩
  · intro p x l s ho hp hn hdap hf hu hx
    refine Answers.of_runs ⟨_, execForwardToHost.eq_1 p s, Chip.forward_fifo ho hp hn hdap hf hu hx⟩ fun d hd => ?_
    refine ⟨?_, hd.onlyHost (((Chip.OnlyHost.refl _ _).setHost _).sendToHost _ _), hd.keeps (((Chip.Keeps.refl _ _).setHost _ _).sendToHost _ _)⟩
    rw [hd.hostOf_eq, Chip.sendToHost_hostOf, Chip.toHostStart, Chip.streamNow_setHost, Chip.setHost_same]
    · rfl
    · exact fun _ => rfl
  · intro p x l s ho hp hn hdap
    refine Answers.of_runs ⟨_, execForwardToHost.eq_1 p s, Chip.forward_dap ho hp hn hdap⟩ fun d hd => ?_
    refine ⟨?_, hd.onlyHost (((Chip.OnlyHost.refl _ _).setHost _).sendToHost _ _), hd.keeps (((Chip.Keeps.refl _ _).setHost _ _).sendToHost _ _)⟩
    rw [hd.hostOf_eq, Chip.sendToHost_hostOf, Chip.toHostStart, Chip.streamNow_setHost, Chip.hostGap_setHost, Chip.setHost_same]
    · rfl
    · exact fun _ => rfl
    · exact fun _ => rfl
    · exact fun _ => rfl
  · intro p s ho hn
    refine Answers.of_runs ⟨_, execPfcFrameSend.eq_1 p s, (if_pos ho).trans (Chip.pfcSend_sends hn)⟩ fun d hd => ?_
    rw [Chip.inc_eq] at hd
    refine ⟨?_, ?_, hd.onlyHost ((((Chip.OnlyHost.refl _ _).sendToHost _ _).setHost _).wrRow ..),
      hd.keeps ((((Chip.Keeps.refl _ _).sendToHost _ _).setHost _ _).wrRow rfl)⟩
    · rw [hd.hostOf_eq, Chip.hostOf_wrRow, Chip.setHost_same, Chip.sendToHost_hostOf]
    · rw [Counts, hd.rd _ rfl, Chip.rd_wrRow_same]
      rfl
  · intro p prio v s hv hprio
    have hany : ((List.range 8).any fun k => s.chip.rdBit .PFC_STATUS k p && decide (s.chip.pfcPrio p k = prio)) = true :=
      List.any_eq_true.2 ⟨v, List.mem_range.2 v.isLt, by simp [hv, hprio]⟩
    refine Answers.of_runs ⟨_, execPfcRefresh.eq_1 p prio s, if_pos hany⟩ fun d hd => ?_
    obtain ⟨hwaits, hfifo⟩ := s.chip.pfcQueue_waits p prio
    exact ⟨by rw [hd.hostOf_eq, hwaits], by rw [hd.hostOf_eq, hfifo], hd.onlyHost ((Chip.OnlyHost.refl _ _).setHost _), hd.keeps (Chip.Keeps.refl _ _)⟩

end

section
/-!
PROOFS. Host lanes: locks, faults, and the markers of a shared lane (R178, R179, R184, R186, R187).
-/
set_option Elab.async false
namespace Sys2Proof.Machine

/-! A lane that is no longer shared (R187). -/

/-- What a lane-sharing receiver held ends. -/
def Chip.lsForget (c : Chip) (h : Nat) : Chip :=
  ((c.setBit .HL_STATUS h 5 false).setBit .HL_STATUS h 6 false).setLane h fun l => { l with period := none, bad := 0 }

section
variable (c : Chip)

theorem Chip.lsSettle_eq (g : Nat) : ∃ l : List Nat, (∀ h ∈ l, h / 32 = g) ∧ c.lsSettle g = c.each l Chip.lsForget := by
  refine ⟨_, fun h hh => ?_, rfl⟩
  obtain ⟨k, hk, rfl⟩ := List.mem_map.1 (List.mem_of_mem_filter hh)
  have := List.mem_range.1 hk
  omega

theorem Chip.lsForget_bit {b : Nat} (hw : b < Reg.width .HL_STATUS) (h5 : b ≠ 5) (h6 : b ≠ 6) (j h : Nat) :
    (c.lsForget j).rdBit .HL_STATUS b h = c.rdBit .HL_STATUS b h := by
  change ((c.setBit .HL_STATUS j 5 false).setBit .HL_STATUS j 6 false).rdBit .HL_STATUS b h = _
  by_cases hj : h = j
  · rw [hj, Chip.rdBit_setBit_other _ _ _ _ _ _ h6 hw, Chip.rdBit_setBit_other _ _ _ _ _ _ h5 hw]
  · rw [Chip.rdBit, Chip.setBit_eq, Chip.setBit_eq, Chip.rd_wrRow_other _ _ _ _ _ _ _ _ (by simp [hj]) (.inl (by decide)),
      Chip.rd_wrRow_other _ _ _ _ _ _ _ _ (by simp [hj]) (.inl (by decide))]
    rfl

/-- Only the marks of the receiver go. -/
theorem Chip.lsSettle_bit {b : Nat} (hw : b < Reg.width .HL_STATUS) (h5 : b ≠ 5) (h6 : b ≠ 6) (g h : Nat) :
    (c.lsSettle g).rdBit .HL_STATUS b h = c.rdBit .HL_STATUS b h := by
  obtain ⟨l, -, hl⟩ := c.lsSettle_eq g
  rw [hl]
  exact Chip.each_same (Chip.rdBit · .HL_STATUS b h) _ (fun d j => d.lsForget_bit hw h5 h6 j h) _ _

theorem Chip.lsSettle_lockFault (g h : Nat) : ((c.lsSettle g).laneOf h).lockFault = (c.laneOf h).lockFault := by
  obtain ⟨l, -, hl⟩ := c.lsSettle_eq g
  rw [hl]
  refine Chip.each_same (fun d => (d.laneOf h).lockFault) _ (fun d j => ?_) _ _
  rw [Chip.lsForget, Chip.setBit_eq, Chip.setBit_eq]
  by_cases hj : h = j
  · rw [hj, Chip.setLane_same, Chip.laneOf_wrRow, Chip.laneOf_wrRow]
  · rw [Chip.setLane_other _ _ _ _ hj, Chip.laneOf_wrRow, Chip.laneOf_wrRow]

end

theorem Chip.Keeps.lsSettle {b c : Chip} {P : Key → Prop} (h : b.Keeps c P) {g : Nat} (hP : ∀ j, j / 32 = g → P ⟨.HL_STATUS, j, 0⟩) :
    b.Keeps (c.lsSettle g) P := by
  obtain ⟨l, hg, hl⟩ := c.lsSettle_eq g
  rw [hl]
  exact h.each fun d j hj hd => ((hd.wrRow (hP j (hg j hj))).wrRow (hP j (hg j hj))).setLane _ _

/-! A lane's fault follows its conditions (R179). -/

section
variable {c : Chip} {h : Nat}

theorem Chip.laneBad_eq_false (hl : (c.laneOf h).lockFault = false) (hf : c.rdBool .HL_FORCE_FAIL h = false)
    (hb : c.rd .BIST_STATE_HLANE h ≠ 2) : c.laneBad h = false := by
  simp [Chip.laneBad, hl, hf, hb]

section
variable (hb : c.laneBad h = false)
include hb

/-- Without a cause a lane is out of fault. -/
theorem Chip.laneEval_good :
    c.laneEval h = if c.laneFault h then (c.setBit .HL_STATUS h 4 false).raise .laneLeftFault (Cls.hlane.addr h) else c :=
  if_neg (by simp [hb])

theorem Chip.laneEval_good_fault : (c.laneEval h).laneFault h = false := by
  rw [Chip.laneEval_good hb]
  split
  · exact Chip.rdBit_setBit_same _ .HL_STATUS _ _ _ (by decide)
  · simp_all

theorem Chip.laneEval_good_bit {b : Nat} (hw : b < Reg.width .HL_STATUS) (h4 : b ≠ 4) :
    (c.laneEval h).rdBit .HL_STATUS b h = c.rdBit .HL_STATUS b h := by
  rw [Chip.laneEval_good hb]
  split
  · exact Chip.rdBit_setBit_other _ .HL_STATUS _ _ _ _ h4 hw
  · rfl

theorem Chip.laneEval_good_in : Within (.of [.ev] [.HL_STATUS]) c (c.laneEval h) := by
  rw [Chip.laneEval_good hb]
  exact Within.ite (((Within.refl _ _).setBit (by decide +kernel)).raise (by decide +kernel)) (.refl _ _)

theorem Chip.Keeps.laneEval_good {b : Chip} {P : Key → Prop} (hk : b.Keeps c P) (hP : P ⟨.HL_STATUS, h, 0⟩) : b.Keeps (c.laneEval h) P := by
  rw [Chip.laneEval_good hb]
  exact iteInduction (motive := fun d => b.Keeps d P) (fun _ => Chip.Keeps.raise (hk.wrRow hP) _ _ _) fun _ => hk

end

/-- The lane has been in lock for 1 ms. -/
def Chip.laneRisen (c : Chip) (h : Nat) : Chip :=
  (c.setBit .HL_STATUS h 3 true).setLane h fun l => { l with upFrom := some c.root, lockFault := false }

theorem Chip.laneRisen_in (c : Chip) (h : Nat) : Within (.of [.hlane] [.HL_STATUS]) c (c.laneRisen h) :=
  ((Within.refl _ _).setBit (by decide +kernel)).setLane (by decide +kernel)

theorem Chip.laneRisen_laneOf (c : Chip) (h : Nat) :
    (c.laneRisen h).laneOf h = { c.laneOf h with upFrom := some c.root, lockFault := false } := by
  rw [Chip.laneRisen, Chip.setLane_same, Chip.setBit_eq, Chip.laneOf_wrRow]

/-- A lane in lock is in fault only where it is forced, or its self-test has failed. -/
theorem Chip.laneRisen_good (hf : c.rdBool .HL_FORCE_FAIL h = false) (hb : c.rd .BIST_STATE_HLANE h ≠ 2) : (c.laneRisen h).laneBad h = false := by
  have hin := c.laneRisen_in h
  refine Chip.laneBad_eq_false ?_ ?_ ?_
  · rw [Chip.laneRisen_laneOf]
  · rw [hin.rdBool (by decide +kernel) (by decide +kernel), hf]
  · rwa [hin.rd (by decide +kernel) (by decide +kernel)]

theorem Chip.laneEval_bad (hb : c.laneBad h = true) : c.laneEval h = c.laneFaultEnter h := if_pos hb

variable (c h)

/-- A lane shows its fault, counted. -/
def Chip.faultShown : Chip := (c.setBit .HL_STATUS h 4 true).inc .HL_FAULT_COUNT h

/-- A new fault is shown and counted; then the ports of the lane move or are told, and the lanes that no longer share end that. -/
theorem Chip.laneFaultEnter_new (hf : c.laneFault h = false) :
    ∃ m, Within (.of [.ev, .host] []) (c.faultShown h) m ∧ (c.laneFaultEnter h = m ∨ c.laneFaultEnter h = m.lsSettle (h / 32)) := by
  have hnot : ¬ c.laneFault h = true := by simp [hf]
  rw [Chip.laneFaultEnter, if_neg hnot]
  dsimp only
  split
  · exact ⟨_, .refl _ _, .inl rfl⟩
  · split
    · exact ⟨_, Within.each (fun _ _ hd => (hd.setHost (by decide +kernel)).raise (by decide +kernel)) (.refl _ _), .inr rfl⟩
    · exact ⟨_, Within.each (fun _ _ hd => hd.raise (by decide +kernel)) (.refl _ _), .inl rfl⟩

theorem Chip.laneFaultEnter_fault : (c.laneFaultEnter h).laneFault h = true := by
  cases hf : c.laneFault h with
  | true => rw [Chip.laneFaultEnter, if_pos hf, hf]
  | false =>
    obtain ⟨m, hm, he⟩ := c.laneFaultEnter_new h hf
    have hbit : m.laneFault h = true := by
      rw [Chip.laneFault, hm.rdBit (by decide +kernel) (by decide +kernel), Chip.faultShown, Chip.inc_eq, Chip.rdBit,
        Chip.rd_wrRow_reg _ _ _ _ _ _ _ _ (by decide) (by decide)]
      exact Chip.rdBit_setBit_same _ .HL_STATUS _ _ _ (by decide)
    rcases he with he | he
    · rw [he, hbit]
    · rw [he, Chip.laneFault, Chip.lsSettle_bit _ (by decide) (by decide) (by decide)]
      exact hbit

theorem Chip.laneEval_bad_fault {c : Chip} {h : Nat} (hb : c.laneBad h = true) : (c.laneEval h).laneFault h = true := by
  rw [Chip.laneEval_bad hb, Chip.laneFaultEnter_fault]

theorem Chip.laneFaultEnter_counts (hf : c.laneFault h = false) : Counts c (c.laneFaultEnter h) .HL_FAULT_COUNT h 1 := by
  obtain ⟨m, hm, he⟩ := c.laneFaultEnter_new h hf
  have hcount : Counts c m .HL_FAULT_COUNT h 1 := by
    rw [Counts, hm.rd (by decide +kernel) (by decide +kernel), Chip.faultShown, Chip.inc_eq, Chip.rd_wrRow_same, Chip.setBit_eq,
      Chip.rd_wrRow_reg _ _ _ _ _ _ _ _ (by decide) (by decide)]
  rcases he with he | he
  · rwa [he]
  · rwa [he, Counts, (Chip.lsSettle_in (.refl Chip.lsSettle_fx m) (by decide +kernel)).rd (by decide +kernel) (by decide +kernel)]

theorem Chip.laneFaultEnter_lockFault : ((c.laneFaultEnter h).laneOf h).lockFault = (c.laneOf h).lockFault := by
  cases hf : c.laneFault h with
  | true => rw [Chip.laneFaultEnter, if_pos hf]
  | false =>
    obtain ⟨m, hm, he⟩ := c.laneFaultEnter_new h hf
    have hlane : m.laneOf h = c.laneOf h := by
      rw [hm.laneOf_eq (by decide +kernel), Chip.faultShown, Chip.inc_eq, Chip.setBit_eq, Chip.laneOf_wrRow, Chip.laneOf_wrRow]
    rcases he with he | he
    · rw [he, hlane]
    · rw [he, Chip.lsSettle_lockFault, hlane]

end

/-! Signal and locks (R178, R179, R199). -/

theorem Chip.rdBit_setBit (c : Chip) (r : Reg) (i b j : Nat) (x : Bool) (hw : j < r.width) :
    (c.setBit r i b x).rdBit r j i = if j = b then x else c.rdBit r j i := by
  split
  · next h => rw [h, Chip.rdBit_setBit_same _ _ _ _ _ (h ▸ hw)]
  · next h => exact Chip.rdBit_setBit_other _ _ _ _ _ _ h hw

section
variable (c : Chip) (h : Nat) (signal fec am : Bool) (corrected uncorrected prbs : Nat)

/-- The bits of signal and locks are shown. -/
def Chip.signalShown : Chip := ((c.setBit .HL_STATUS h 0 signal).setBit .HL_STATUS h 1 fec).setBit .HL_STATUS h 2 am

/-- What the decoder has counted adds up. -/
def Chip.decoderCounted : Chip := (c.add .HL_FEC_CORRECTED h corrected).add .HL_FEC_UNCORR h uncorrected

/-- What the checker has counted adds up while it checks a pattern. -/
def Chip.checkerCounted : Chip := if c.rd .HL_PRBS_CHK h = 0 then c else c.add .HL_PRBS_ERR h prbs

/-- What a lock change shows. -/
def Chip.locksShown : Chip := ((c.signalShown h signal fec am).decoderCounted h corrected uncorrected).checkerCounted h prbs

/-- A lane out of lock is not up. -/
def Chip.lockLost : Chip := (c.setBit .HL_STATUS h 3 false).setLane h fun l => { l with upFrom := none }

theorem Chip.laneLocks_eq : c.laneLocks h signal fec am corrected uncorrected prbs =
    if fec && am then c.locksShown h signal fec am corrected uncorrected prbs
    else (c.locksShown h signal fec am corrected uncorrected prbs).lockLost h := rfl

theorem Chip.checkerCounted_in : Within (.of [] [.HL_PRBS_ERR]) c (c.checkerCounted h prbs) :=
  Within.ite (.refl _ _) ((Within.refl _ _).add (by decide +kernel))

theorem Chip.decoderCounted_in : Within (.of [] [.HL_FEC_CORRECTED, .HL_FEC_UNCORR]) c (c.decoderCounted h corrected uncorrected) :=
  ((Within.refl _ _).add (by decide +kernel)).add (by decide +kernel)

theorem Chip.signalShown_in : Within (.of [] [.HL_STATUS]) c (c.signalShown h signal fec am) :=
  (((Within.refl _ _).setBit (by decide +kernel)).setBit (by decide +kernel)).setBit (by decide +kernel)

theorem Chip.lockLost_in : Within (.of [.hlane] [.HL_STATUS]) c (c.lockLost h) :=
  ((Within.refl _ _).setBit (by decide +kernel)).setLane (by decide +kernel)

theorem Chip.laneLocks_hlane : Within (.everyReg [.hlane]) c (c.laneLocks h signal fec am corrected uncorrected prbs) := by
  rw [Chip.laneLocks_eq]
  have hshown := (((c.signalShown_in h signal fec am).mono (by decide +kernel)).trans
    ((Chip.decoderCounted_in _ h corrected uncorrected).mono (by decide +kernel))).trans
    ((Chip.checkerCounted_in _ h prbs).mono (by decide +kernel) : Within (.everyReg [.hlane]) _ _)
  exact Within.ite hshown (hshown.trans ((Chip.lockLost_in _ h).mono (by decide +kernel)))

theorem Chip.locksShown_bit {j : Nat} (hw : j < Reg.width .HL_STATUS) :
    (c.locksShown h signal fec am corrected uncorrected prbs).rdBit .HL_STATUS j h
      = if j = 2 then am else if j = 1 then fec else if j = 0 then signal else c.rdBit .HL_STATUS j h := by
  rw [Chip.locksShown, (Chip.checkerCounted_in _ h prbs).rdBit (by decide +kernel) (by decide +kernel),
    (Chip.decoderCounted_in _ h corrected uncorrected).rdBit (by decide +kernel) (by decide +kernel), Chip.signalShown,
    Chip.rdBit_setBit _ _ _ _ _ _ hw, Chip.rdBit_setBit _ _ _ _ _ _ hw, Chip.rdBit_setBit _ _ _ _ _ _ hw]

/-- A loss of lock leaves the lane's other bits and its counters. -/
theorem Chip.laneLocks_bit {j : Nat} (hw : j < Reg.width .HL_STATUS) (h3 : j ≠ 3) :
    (c.laneLocks h signal fec am corrected uncorrected prbs).rdBit .HL_STATUS j h
      = (c.locksShown h signal fec am corrected uncorrected prbs).rdBit .HL_STATUS j h := by
  rw [Chip.laneLocks_eq]
  split
  · rfl
  · exact Chip.rdBit_setBit_other _ .HL_STATUS _ _ _ _ h3 hw

/-- The signal and the locks are shown. -/
theorem Chip.laneLocks_signal : (c.laneLocks h signal fec am corrected uncorrected prbs).rdBit .HL_STATUS 0 h = signal ∧
    (c.laneLocks h signal fec am corrected uncorrected prbs).rdBit .HL_STATUS 1 h = fec ∧
    (c.laneLocks h signal fec am corrected uncorrected prbs).rdBit .HL_STATUS 2 h = am := by
  have hshown : ∀ {j : Nat}, j < 3 → (c.laneLocks h signal fec am corrected uncorrected prbs).rdBit .HL_STATUS j h
      = if j = 2 then am else if j = 1 then fec else if j = 0 then signal else c.rdBit .HL_STATUS j h := fun {j} hj => by
    have hw : j < Reg.width .HL_STATUS := hj.trans (by decide)
    rw [Chip.laneLocks_bit _ _ _ _ _ _ _ _ hw (by omega), Chip.locksShown_bit _ _ _ _ _ _ _ _ hw]
  exact ⟨hshown (by decide), hshown (by decide), hshown (by decide)⟩

theorem Chip.laneLocks_rd {r : Reg} (hr : r ≠ .HL_STATUS) :
    (c.laneLocks h signal fec am corrected uncorrected prbs).rd r h = (c.locksShown h signal fec am corrected uncorrected prbs).rd r h := by
  rw [Chip.laneLocks_eq]
  split
  · rfl
  · exact Chip.rd_wrRow_reg _ _ _ _ _ _ _ _ hr (by decide)

theorem Chip.laneLocks_lost (hl : fec = false ∨ am = false) :
    (c.laneLocks h signal fec am corrected uncorrected prbs).rdBit .HL_STATUS 3 h = false ∧
      ((c.laneLocks h signal fec am corrected uncorrected prbs).laneOf h).upFrom = none := by
  have hnot : ¬ (fec && am) = true := by rcases hl with hl | hl <;> simp [hl]
  rw [Chip.laneLocks_eq, if_neg hnot, Chip.lockLost, Chip.setLane_same]
  exact ⟨Chip.rdBit_setBit_same _ .HL_STATUS _ _ _ (by decide), rfl⟩

theorem Chip.laneLocks_corrected : Counts c (c.laneLocks h signal fec am corrected uncorrected prbs) .HL_FEC_CORRECTED h corrected := by
  rw [Counts, Chip.laneLocks_rd _ _ _ _ _ _ _ _ (by decide), Chip.locksShown,
    (Chip.checkerCounted_in _ h prbs).rd (by decide +kernel) (by decide +kernel), Chip.decoderCounted, Chip.add_eq, Chip.add_eq,
    Chip.rd_wrRow_reg _ _ _ _ _ _ _ _ (by decide) (by decide), Chip.rd_wrRow_same,
    (c.signalShown_in h signal fec am).rd (by decide +kernel) (by decide +kernel)]

theorem Chip.laneLocks_uncorrected : Counts c (c.laneLocks h signal fec am corrected uncorrected prbs) .HL_FEC_UNCORR h uncorrected := by
  rw [Counts, Chip.laneLocks_rd _ _ _ _ _ _ _ _ (by decide), Chip.locksShown,
    (Chip.checkerCounted_in _ h prbs).rd (by decide +kernel) (by decide +kernel), Chip.decoderCounted, Chip.add_eq, Chip.rd_wrRow_same,
    Chip.add_eq, Chip.rd_wrRow_reg _ _ _ _ _ _ _ _ (by decide) (by decide),
    (c.signalShown_in h signal fec am).rd (by decide +kernel) (by decide +kernel)]

theorem Chip.laneLocks_prbs (hc : c.rd .HL_PRBS_CHK h ≠ 0) :
    Counts c (c.laneLocks h signal fec am corrected uncorrected prbs) .HL_PRBS_ERR h prbs := by
  have hin : Within (.of [] [.HL_STATUS, .HL_FEC_CORRECTED, .HL_FEC_UNCORR]) c
      ((c.signalShown h signal fec am).decoderCounted h corrected uncorrected) :=
    ((c.signalShown_in h signal fec am).mono (by decide +kernel)).trans
      ((Chip.decoderCounted_in _ h corrected uncorrected).mono (by decide +kernel))
  rw [Counts, Chip.laneLocks_rd _ _ _ _ _ _ _ _ (by decide), Chip.locksShown, Chip.checkerCounted,
    if_neg (by rwa [hin.rd (by decide +kernel) (by decide +kernel)]), Chip.add_eq, Chip.rd_wrRow_same,
    hin.rd (by decide +kernel) (by decide +kernel)]

end

/-- The cells of a lane that a lock change writes. -/
def lockCells (h : Nat) (k : Key) : Prop :=
  k.inst = h ∧ (k.reg = .HL_STATUS ∨ k.reg = .HL_FEC_CORRECTED ∨ k.reg = .HL_FEC_UNCORR ∨ k.reg = .HL_PRBS_ERR)

theorem Chip.laneLocks_keeps (c : Chip) (h : Nat) (signal fec am : Bool) (corrected uncorrected prbs : Nat) :
    c.Keeps (c.laneLocks h signal fec am corrected uncorrected prbs) (lockCells h) := by
  have hstatus : ∀ row, lockCells h ⟨.HL_STATUS, h, row⟩ := fun _ => ⟨rfl, .inl rfl⟩
  have hsignal : c.Keeps (c.signalShown h signal fec am) (lockCells h) :=
    (((Chip.Keeps.refl _ _).wrRow (hstatus 0)).wrRow (hstatus 0)).wrRow (hstatus 0)
  have hdecoder : c.Keeps ((c.signalShown h signal fec am).decoderCounted h corrected uncorrected) (lockCells h) :=
    (hsignal.wrRow ⟨rfl, .inr (.inl rfl)⟩).wrRow ⟨rfl, .inr (.inr (.inl rfl))⟩
  have hshown : c.Keeps (c.locksShown h signal fec am corrected uncorrected prbs) (lockCells h) :=
    iteInduction (motive := fun d => c.Keeps d (lockCells h)) (fun _ => hdecoder) fun _ => hdecoder.wrRow ⟨rfl, .inr (.inr (.inr rfl))⟩
  rw [Chip.laneLocks_eq]
  exact iteInduction (motive := fun d => c.Keeps d (lockCells h)) (fun _ => hshown) fun _ => Chip.Keeps.setLane (hshown.wrRow (hstatus 0)) _ _

/-! Markers of a shared lane (R186, R187). -/

/-- The digest follows the mappings and the entries alone. -/
theorem Within.lsDigest_eq {x : Fx} {c d : Chip} (h : Within x c d) (hp : x.hasPart .host = false)
    (hr : ∀ r ∈ [Reg.QUAD_FORMATION, .HL_MAP, .HL_ENTRIES], x.hasReg r = false) (j : Nat) : d.lsDigest j = c.lsDigest j := by
  have hq : x.hasReg .QUAD_FORMATION = false := hr _ (by decide)
  have hmap : x.hasReg .HL_MAP = false := hr _ (by decide)
  have hent : x.hasReg .HL_ENTRIES = false := hr _ (by decide)
  simp only [Chip.lsDigest, Chip.lsOwner, Chip.laneUsers, Chip.groupPorts, Chip.running, h.width_eq hq, h.hostOf_eq hp, h.rd hmap hq,
    h.rd hent hq]

section
variable {c : Chip} {h : Nat} {b : BitVec 66} {l : List Nat}

/-- The receiver has taken a marker's period, and is in lock. -/
def Chip.markerTaken (c : Chip) (h n : Nat) : Chip :=
  let d := c.setLane h fun l => { l with period := some n, bad := 0 }
  if c.rdBit .HL_STATUS 5 h then d else d.setBit .HL_STATUS h 5 true

/-- Whether the calendars differ is shown; a new difference raises a WARNING. -/
def Chip.digestShown (c : Chip) (h : Nat) (diff : Bool) : Chip :=
  (if diff && !c.rdBit .HL_STATUS 6 h then c.raise .lsCalMismatch (Cls.hlane.addr h) else c).setBit .HL_STATUS h 6 diff

theorem Chip.markerTaken_in (n : Nat) : Within (.of [.hlane] [.HL_STATUS]) c (c.markerTaken h n) :=
  Within.ite ((Within.refl _ _).setLane (by decide +kernel)) (((Within.refl _ _).setLane (by decide +kernel)).setBit (by decide +kernel))

theorem Chip.markerTaken_lock (n : Nat) : (c.markerTaken h n).rdBit .HL_STATUS 5 h = true := by
  unfold Chip.markerTaken
  dsimp only
  split
  · assumption
  · exact Chip.rdBit_setBit_same _ .HL_STATUS _ _ _ (by decide)

theorem Chip.markerTaken_laneOf (n : Nat) : (c.markerTaken h n).laneOf h = { c.laneOf h with period := some n, bad := 0 } := by
  unfold Chip.markerTaken
  dsimp only
  split
  · exact Chip.setLane_same ..
  · rw [Chip.setBit_eq, Chip.laneOf_wrRow, Chip.setLane_same]

theorem Chip.digestShown_in (diff : Bool) : Within (.of [.ev] [.HL_STATUS]) c (c.digestShown h diff) :=
  Within.setBit (Within.ite ((Within.refl _ _).raise (by decide +kernel)) (.refl _ _)) (by decide +kernel)

theorem Chip.digestShown_bit (diff : Bool) {j : Nat} (hw : j < Reg.width .HL_STATUS) :
    (c.digestShown h diff).rdBit .HL_STATUS j h = if j = 6 then diff else c.rdBit .HL_STATUS j h := by
  rw [Chip.digestShown, Chip.rdBit_setBit _ _ _ _ _ _ hw]
  split
  · rfl
  · split <;> rfl

theorem Chip.Keeps.markerTaken {a : Chip} {P : Key → Prop} (hk : a.Keeps c P) (hP : P ⟨.HL_STATUS, h, 0⟩) (n : Nat) :
    a.Keeps (c.markerTaken h n) P :=
  iteInduction (motive := fun d => a.Keeps d P) (fun _ => hk.setLane _ _) fun _ => Chip.Keeps.wrRow (hk.setLane _ _) hP

theorem Chip.Keeps.digestShown {a : Chip} {P : Key → Prop} (hk : a.Keeps c P) (hP : P ⟨.HL_STATUS, h, 0⟩) (diff : Bool) :
    a.Keeps (c.digestShown h diff) P :=
  Chip.Keeps.wrRow (iteInduction (motive := fun d => a.Keeps d P) (fun _ => hk.raise _ _ _) fun _ => hk) hP

/-- A valid marker is taken in lock, or in sequence, which gives lock. -/
theorem Chip.lsMarkerTake_good (hm : lsMarkerOk b = true)
    (hn : c.rdBit .HL_STATUS 5 h = true ∨ (c.laneOf h).period = some ((lsField b 18 8 + 255) % 256)) :
    c.lsMarkerTake h b l
      = (c.markerTaken h (lsField b 18 8)).digestShown h (bits (lsField b 38 28) 27 12 != c.lsDigest h) := by
  rw [← (Chip.markerTaken_in (c := c) (h := h) (lsField b 18 8)).lsDigest_eq (by decide +kernel) (by decide +kernel)]
  cases hl : c.rdBit .HL_STATUS 5 h with
  | true => simp [Chip.lsMarkerTake, hm, hl, Chip.markerTaken, Chip.digestShown]
  | false => simp [Chip.lsMarkerTake, hm, hl, Chip.markerTaken, Chip.digestShown, hn.resolve_left (by simp [hl])]

section
variable (hm : lsMarkerOk b = false) (hl : c.rdBit .HL_STATUS 5 h = true)
include hm hl

/-- A first or second bad marker is counted, and the receiver goes on to the next period. -/
theorem Chip.lsMarkerTake_miss (hb : (c.laneOf h).bad < 2) : c.lsMarkerTake h b l
    = (c.inc .HL_LS_MARKER_ERR h).setLane h fun x => { x with bad := x.bad + 1, period := x.period.map fun n => (n + 1) % 256 } := by
  have hnot : ¬ (c.laneOf h).bad + 1 ≥ 3 := by omega
  simp [Chip.lsMarkerTake, hm, hl, hnot]

/-- The third bad marker in a row ends the lock. -/
theorem Chip.lsMarkerTake_third (hb : 2 ≤ (c.laneOf h).bad) : c.lsMarkerTake h b l = (c.inc .HL_LS_MARKER_ERR h).lsUnlock h l := by
  have hthird : (c.laneOf h).bad + 1 ≥ 3 := by omega
  simp [Chip.lsMarkerTake, hm, hl, hthird]

end

/-- The receiver of a lane is out of lock. -/
def Chip.unlocked (c : Chip) (h : Nat) : Chip := (c.setBit .HL_STATUS h 5 false).setLane h fun x => { x with bad := 0, period := none }

/-- The loss of lock counts the frames in progress and changes no more. -/
theorem Chip.lsUnlock_in_unlocked : Within (.of [] [.HOST_RX_ERROR]) (c.unlocked h) (c.lsUnlock h l) :=
  Within.ite (Within.each (fun _ _ hd => hd.inc (by decide +kernel)) (.refl _ _)) (.refl _ _)

theorem Chip.Keeps.lsUnlock {a : Chip} {P : Key → Prop} (hk : a.Keeps c P) (hs : P ⟨.HL_STATUS, h, 0⟩) (he : ∀ p, P ⟨.HOST_RX_ERROR, p, 0⟩) :
    a.Keeps (c.lsUnlock h l) P := by
  have hu : a.Keeps (c.unlocked h) P := (hk.wrRow hs).setLane _ _
  exact iteInduction (motive := fun d => a.Keeps d P) (fun _ => hu.each fun d p _ hd => hd.wrRow (he p)) fun _ => hu

end

end Sys2Proof.Machine
end

section
/-!
PROOFS. Writes of the host side: the mapping, forced faults and test patterns of lanes, and the PFC settings (R179, R182, R197, R199).
-/
set_option Elab.async false
namespace Sys2Proof.Machine

/-! A value that is stored as it is (R308, R312). -/

/-- A range that starts at 0. -/
theorem Reg.inRange_upTo {r : Reg} {n : Nat} (hr : r.info.range = some (0, (n : Int))) (hs : r.info.ty.signed = false)
    (ht : r.info.ty ≠ .time96) (v : Nat) : r.inRange v = decide (v ≤ n) := by
  simp [Reg.inRange, hr, hs, ht]

theorem Chip.storedValue_plain {r : Reg} (hf : r.info.fields = none) (hl : r ≠ .LED_CONFIG) (hb : r.fixedBits = 0) (c : Chip) (i row v : Nat) :
    c.storedValue r i row v = v := by
  simp [Chip.storedValue, hf, hl, hb]

/-- The objects by which software drives a host lane. -/
def Reg.drivesLane (r : Reg) : Prop := r = .HL_FORCE_FAIL ∨ r = .HL_PRBS_GEN ∨ r = .HL_PRBS_CHK

theorem Chip.writeBase_lane {r : Reg} (hr : r.drivesLane) (c : Chip) (h v : Nat) : c.writeBase stepAll r h 0 v = c.store r h 0 v := by
  rcases hr with rfl | rfl | rfl <;> exact if_neg (by decide)

/-- A value in range that the device's state admits is stored, with what follows it. -/
theorem Chip.writeBase_lane_ok {r : Reg} (hr : r.drivesLane) {c : Chip} {h v : Nat} (hv : r.inRange v = true)
    (hs : c.stateRule r h v = true) : c.writeBase stepAll r h 0 v = (.ok, (c.wrRow r h 0 v).afterStore r h v) := by
  have hrange : c.rangeRule r h v = true := by rcases hr with rfl | rfl | rfl <;> rfl
  have hplain : c.storedValue r h 0 v = v := by
    rcases hr with rfl | rfl | rfl <;> exact Chip.storedValue_plain rfl (by decide) rfl ..
  rw [Chip.writeBase_lane hr, Chip.store, hv, hrange, hs, hplain]
  rfl

theorem Chip.writeBase_lane_range {r : Reg} (hr : r.drivesLane) {c : Chip} {h v : Nat} (hv : r.inRange v = false) :
    c.writeBase stepAll r h 0 v = (.range, c) := by
  rw [Chip.writeBase_lane hr, Chip.store, hv]
  rfl

/-- The mark of a test follows the selectors. -/
theorem Chip.laneTestSet_test (c : Chip) (h : Nat) :
    (c.laneTestSet h).rdBit .HL_STATUS 7 h = decide (c.rd .HL_PRBS_GEN h ≠ 0 ∨ c.rd .HL_PRBS_CHK h ≠ 0) := by
  rw [Chip.laneTestSet, Chip.rdBit_setBit_same _ _ _ _ _ (by decide)]
  simp [Bool.decide_or, bne, Bool.beq_eq_decide_eq]

theorem Chip.forced_bad (c : Chip) (h : Nat) {v : BitVec 8} (hv : v = 1) : (c.wrRow .HL_FORCE_FAIL h 0 v.toNat).laneBad h = true := by
  rw [Chip.laneBad, Chip.rdBool, Chip.rd_wrRow_fits v.isLt, hv]
  simp

theorem Chip.forced_good {c : Chip} {h : Nat} {v : BitVec 8} (hv : v = 0) (hl : (c.laneOf h).lockFault = false)
    (hb : c.rd .BIST_STATE_HLANE h ≠ 2) : (c.wrRow .HL_FORCE_FAIL h 0 v.toNat).laneBad h = false := by
  refine Chip.laneBad_eq_false ?_ ?_ ?_
  · rw [Chip.laneOf_wrRow, hl]
  · rw [Chip.rdBool, Chip.rd_wrRow_fits v.isLt, hv]
    rfl
  · rwa [Chip.rd_wrRow_reg _ _ _ _ _ _ _ _ (by decide) (by decide)]

/-- A selector is written to a lane whose group is not gated. -/
theorem Chip.stateRule_prbs {r : Reg} (hr : r = .HL_PRBS_GEN ∨ r = .HL_PRBS_CHK) {c : Chip} {h : Nat} {v : BitVec 8}
    (hg : v = 0 ∨ c.rdBit .LEGACY_GATE (8 + h / 32) = true) : c.stateRule r h v.toNat = true := by
  have hok : (decide (v.toNat = 0) || c.rdBit .LEGACY_GATE (8 + h / 32)) = true := by
    rcases hg with rfl | hg
    · rfl
    · rw [hg, Bool.or_true]
  rcases hr with rfl | rfl <;> exact hok

/-! The mapping (R182). -/

/-- The value is stored. -/
def Chip.mapStored (c : Chip) (p : Nat) (entries : Bool) (m e : Nat) : Chip := if entries then c.wr .HL_ENTRIES p e else c.wr .HL_MAP p m

/-- The value is in force, and what depends on it is judged anew. -/
def Chip.mapTaken (c : Chip) (p : Nat) (entries : Bool) (m e : Nat) : Chip :=
  ((c.mapStored p entries m e).lsSettle (p / 64)).undersizedEval p

section
variable {c : Chip} {p : Nat} {entries : Bool} {v m e : Nat} (hm : m = if entries then c.rd .HL_MAP p else v &&& 0xC0FFFF00)
  (he : e = if entries then v else c.rd .HL_ENTRIES p) (hs : mapShapeOk p m e = true)
include hm he hs

theorem Chip.writeHlMap_enabled (hp : c.rdBool .PORT_ENABLE p = true) : c.writeHlMap p entries v = (.state, c) := by
  subst hm he
  simp [Chip.writeHlMap, hs, hp]

/-- A mapping of a disabled port that agrees with the group's other ports is taken. -/
theorem Chip.writeHlMap_agrees (hp : c.rdBool .PORT_ENABLE p = false)
    (ha : ∀ q ∈ c.groupPorts (p / 64), q ≠ p → mapsAgree (m, e) (c.running q, c.rd .HL_ENTRIES q) = true)
    (hn : mapKind m = 3 → ((c.groupPorts (p / 64)).filter fun q =>
      decide (q ≠ p ∧ mapKind (c.running q) = 3 ∧ mapA (c.running q) = mapA m)).length ≤ 3) :
    c.writeHlMap p entries v = (.ok, c.mapTaken p entries m e) := by
  have hagree : ((((c.groupPorts (p / 64)).filter fun x => x != p).map fun x => (x, c.running x, c.rd .HL_ENTRIES x)).any
      fun y => !mapsAgree (m, e) y.2) = false := by
    simpa [List.any_eq_false] using ha
  have hfew : (decide (mapKind m = 3) && decide (((((c.groupPorts (p / 64)).filter fun x => x != p).map
      fun x => (x, c.running x, c.rd .HL_ENTRIES x)).filter fun y => decide (mapKind y.2.1 = 3) && decide (mapA y.2.1 = mapA m)).length > 3))
        = false := by
    rw [List.filter_map, List.length_map, List.filter_filter, Bool.and_eq_false_imp]
    intro hk
    refine decide_eq_false (Nat.not_lt.2 (le_trans (le_of_eq (congrArg List.length (List.filter_congr fun q _ => ?_))) (hn (of_decide_eq_true hk))))
    rw [Bool.eq_iff_iff]
    simp only [Function.comp_apply, Bool.and_eq_true, decide_eq_true_eq, bne_iff_ne]
    tauto
  subst hm he
  simp only [Chip.writeHlMap, hs, hp, hagree, hfew]
  simp [Chip.mapTaken, Chip.mapStored]

end

theorem Chip.undersizedEval_moved (c : Chip) (p : Nat) : ((c.undersizedEval p).hostOf p).moved = (c.hostOf p).moved := by
  have hset : ∀ b, ((c.setHost p fun h => { h with undersized := b }).hostOf p).moved = (c.hostOf p).moved := fun b => by
    rw [Chip.setHost_same]
  unfold Chip.undersizedEval
  split
  · rfl
  · split
    · exact hset _
    · split
      · split
        · rfl
        · exact hset _
      · exact hset _

section
variable (c : Chip) (p : Nat) (entries : Bool) (m e : Nat)

theorem Chip.mapStored_in : Within (.of [] [.HL_ENTRIES, .HL_MAP]) c (c.mapStored p entries m e) :=
  Within.ite ((Within.refl _ _).wr (by decide +kernel)) ((Within.refl _ _).wr (by decide +kernel))

/-- What is judged anew after a mapping is stored. -/
theorem Chip.mapTaken_in_mapStored :
    Within (.union [Chip.lsSettle_fx, Chip.undersizedEval_fx]) (c.mapStored p entries m e) (c.mapTaken p entries m e) :=
  Chip.undersizedEval_in (Chip.lsSettle_in (.refl _ _) (by decide +kernel)) (by decide +kernel)

theorem Chip.mapTaken_in : Within Chip.writeHlMap_fx c (c.mapTaken p entries m e) :=
  ((c.mapStored_in p entries m e).mono (by decide +kernel)).trans ((c.mapTaken_in_mapStored p entries m e).mono (by decide +kernel))

theorem Chip.mapTaken_moved : ((c.mapTaken p entries m e).hostOf p).moved = (c.hostOf p).moved := by
  rw [Chip.mapTaken, Chip.undersizedEval_moved, (Chip.lsSettle_in (.refl Chip.lsSettle_fx _) (by decide +kernel)).hostOf_eq (by decide +kernel),
    (c.mapStored_in p entries m e).hostOf_eq (by decide +kernel)]

theorem Chip.mapTaken_map (h : entries = false) : (c.mapTaken p entries m e).rd .HL_MAP p = m % 2 ^ 32 := by
  rw [(c.mapTaken_in_mapStored p entries m e).rd (by decide +kernel) (by decide +kernel), Chip.mapStored, if_neg (by simp [h]), Chip.wr_eq,
    Chip.rd_wrRow_same]
  rfl

theorem Chip.mapTaken_entries (h : entries = true) : (c.mapTaken p entries m e).rd .HL_ENTRIES p = e % 2 ^ 32 := by
  rw [(c.mapTaken_in_mapStored p entries m e).rd (by decide +kernel) (by decide +kernel), Chip.mapStored, if_pos h, Chip.wr_eq,
    Chip.rd_wrRow_same]
  rfl

end

/-- The cells that a write of a port's mapping may change: its own, and the marks of the lanes of its group. -/
def mapCells (p : Nat) (k : Key) : Prop :=
  k.inst = p ∧ (k.reg = .HL_MAP ∨ k.reg = .HL_ENTRIES) ∨ k.reg = .HL_STATUS ∧ k.inst / 32 = p / 64

theorem Chip.mapTaken_keeps (c : Chip) (p : Nat) (entries : Bool) (m e : Nat) : c.Keeps (c.mapTaken p entries m e) (mapCells p) := by
  have hstored : c.Keeps (c.mapStored p entries m e) (mapCells p) :=
    iteInduction (motive := fun d => c.Keeps d (mapCells p)) (fun _ => (Chip.Keeps.refl _ _).wrRow (.inl ⟨rfl, .inr rfl⟩))
      fun _ => (Chip.Keeps.refl _ _).wrRow (.inl ⟨rfl, .inl rfl⟩)
  exact Chip.Keeps.within (hstored.lsSettle fun j hj => .inr ⟨rfl, hj⟩)
    (Chip.undersizedEval_in (.refl Chip.undersizedEval_fx _) (by decide +kernel)) rfl

/-! The PFC settings (R197). -/

theorem Chip.Keeps.pfcEval {b c : Chip} {P : Key → Prop} (h : b.Keeps c P) {p : Nat} (hP : P ⟨.PFC_STATUS, p, 0⟩) :
    b.Keeps (c.pfcEval p) P := by
  unfold Chip.pfcEval
  split
  · exact h
  · refine h.each fun d k _ hd => ?_
    have hset : ∀ on n, b.Keeps ((d.setBit .PFC_STATUS p k on).pfcQueue p n) P := fun on n => Chip.Keeps.setHost (hd.wrRow hP) _ _
    dsimp only
    split
    · exact hd
    · split
      · split
        · exact hset _ _
        · exact hd
      · split
        · exact hset _ _
        · exact hd

theorem Chip.pfcRemap_in_wr (c : Chip) (p v : Nat) : Within (.of [.host] []) (c.wr .PFC_PRIORITY_MAP p v) (c.pfcRemap p v) :=
  Within.each (fun _ _ hd => Chip.pfcQueue_in (Within.ite hd (Chip.pfcQueue_in hd (by decide +kernel))) (by decide +kernel)) (.refl _ _)

section
variable {c : Chip} {p v : Nat}

theorem Chip.writePfc_quanta (hl : 1 ≤ v) (hu : v ≤ 65535) : c.writePfc p .quanta v = (.ok, c.wr .PFC_QUANTA p v) :=
  if_neg (by omega)

theorem Chip.writePfc_enable (hf : pfcFits c p (v % 256) (c.rd .PFC_HEADROOM p) = true) :
    c.writePfc p .enable v = (.ok, (c.wr .PFC_ENABLE p (v % 256)).pfcEval p) := by
  simp [Chip.writePfc, hf]

theorem Chip.writePfc_headroom (hl : 64 ≤ v) (hu : v ≤ 262144) (hf : pfcFits c p (c.rd .PFC_ENABLE p) v = true) :
    c.writePfc p .headroom v = (.ok, (c.wr .PFC_HEADROOM p v).pfcEval p) := by
  have hrange : ¬ (v < 64 ∨ v > 262144) := by omega
  simp [Chip.writePfc, hrange, hf]

theorem Chip.writePfc_priorityMap (hv : ∀ k, k < 8 → bits v (4 * k + 3) (4 * k) ≤ 7) :
    c.writePfc p .priorityMap v = (.ok, c.pfcRemap p v) :=
  if_neg (by simpa using hv)

end

end Sys2Proof.Machine
end

section
set_option Elab.async false
open Sys2Proof Sys2Proof.Machine

/-- Settles O26: a lane's fault follows its causes, a lock change and a marker are the bits and the counts that they show, and each
write is its check, the value it stores, and what is judged anew after it. -/
theorem hostLanesFollowTheirConditions : Obligations.HostLanesFollowTheirConditions := by
  unfold Obligations.HostLanesFollowTheirConditions
  refine ⟨?_, ?_, ?_, ?_, ?_, ?_, ?_, ?_, ?_, ?_, ?_, ?_, ?_, ?_, ?_, ?_⟩
  · intro h s hpll hlock hforce hbist
    have hlocked : ¬ (!s.chip.laneLocked h || !s.chip.pwr.hostPll) = true := by simp [hpll, hlock]
    refine Answers.of_runs (c := (s.chip.laneRisen h).laneEval h) ⟨_, execHlLaneUp.eq_1 h s, if_neg hlocked⟩ fun d hd => ?_
    have hgood := Chip.laneRisen_good hforce hbist
    have heval := Chip.laneEval_good_in hgood
    have hin := ((s.chip.laneRisen_in h).mono (y := .of [.ev, .hlane] [.HL_STATUS]) (by decide +kernel)).trans (heval.mono (by decide +kernel))
    refine ⟨?_, ?_, ?_, hin.bare_hlane hd.bare (by decide +kernel), hd.keeps (Chip.Keeps.laneEval_good hgood (Chip.Keeps.setLane ?_ _ _) rfl)⟩
    · rw [hd.rdBit _ rfl, Chip.laneEval_good_bit hgood (by decide) (by decide)]
      exact Chip.rdBit_setBit_same _ .HL_STATUS _ _ _ (by decide)
    · rw [hd.rdBit _ rfl]
      exact Chip.laneEval_good_fault hgood
    · rw [hd.laneOf_eq, heval.laneOf_eq (by decide +kernel), Chip.laneRisen_laneOf]
    · exact (Chip.Keeps.refl _ _).wrRow rfl
  · intro h s hpll hlock hfault hchk
    have hout : ¬ (s.chip.laneLocked h || s.chip.rd .HL_PRBS_CHK h != 0 || !s.chip.pwr.hostPll) = true := by simp [hpll, hlock, hchk]
    refine Answers.of_runs ⟨_, execHlLaneFault.eq_1 h s, if_neg hout⟩ fun d hd => ?_
    have hlane : ((s.chip.setLane h fun l => { l with lockFault := true }).laneOf h).lockFault = true := by rw [Chip.setLane_same]
    rw [Chip.laneEval_bad (by rw [Chip.laneBad, hlane]; rfl)] at hd
    refine ⟨?_, ?_, ?_⟩
    · rw [hd.rdBit _ rfl]
      exact Chip.laneFaultEnter_fault _ _
    · rw [Counts, hd.rd _ rfl]
      exact Chip.laneFaultEnter_counts _ _ hfault
    · rw [hd.laneOf_eq, Chip.laneFaultEnter_lockFault, hlane]
  · intro h v s ha hv
    refine Answers.of_write _ (execHlForceFailWrite.eq_1 h v s) ha
      (Chip.writeBase_lane_ok (.inl rfl) ((Reg.inRange_upTo (n := 1) rfl rfl (by decide) _).trans (decide_eq_true hv)) rfl) fun d hd => ?_
    refine ⟨hd.access, ?_, fun h1 => ?_, fun h0 hlock hbist => ?_⟩
    · rw [hd.written_rd rfl]
      exact ((Chip.laneEval_in (.refl Chip.laneEval_fx _) (by decide +kernel)).rd (by decide +kernel) (by decide +kernel) _ _).trans
        (Chip.rd_wrRow_fits v.isLt ..)
    · rw [hd.written_rdBit rfl]
      exact Chip.laneEval_bad_fault (Chip.forced_bad s.chip h h1)
    · rw [hd.written_rdBit rfl]
      exact Chip.laneEval_good_fault (Chip.forced_good h0 hlock hbist)
  · intro h a b m x y z s hpll
    have hon : ¬ (!s.chip.pwr.hostPll) = true := by simp [hpll]
    refine Answers.of_runs ⟨_, execFecLockChange.eq_1 h a b m x y z s, if_neg hon⟩ fun d hd => ?_
    obtain ⟨hsignal, hfec, ham⟩ := s.chip.laneLocks_signal h a b m x y z
    refine ⟨?_, ?_, ?_, fun hl => ?_, ?_, ?_, fun hc => ?_, (Chip.laneLocks_hlane ..).bare_hlane hd.bare (by decide +kernel),
      hd.keeps (Chip.laneLocks_keeps _ _ _ _ _ _ _ _)⟩
    · rw [hd.rdBit _ rfl, hsignal]
    · rw [hd.rdBit _ rfl, hfec]
    · rw [hd.rdBit _ rfl, ham]
    · rw [hd.rdBit _ rfl, hd.laneOf_eq]
      exact Chip.laneLocks_lost _ _ _ _ _ _ _ _ hl
    · rw [Counts, hd.rd _ rfl]
      exact Chip.laneLocks_corrected ..
    · rw [Counts, hd.rd _ rfl]
      exact Chip.laneLocks_uncorrected ..
    · rw [Counts, hd.rd _ rfl]
      exact Chip.laneLocks_prbs _ _ _ _ _ _ _ _ hc
  · intro h b l s hsh hm hn
    refine Answers.of_runs ⟨_, execLsMarkerReceived.eq_1 h b l s, (if_pos hsh).trans (Chip.lsMarkerTake_good hm hn)⟩ fun d hd => ?_
    have hshown := Chip.digestShown_in (c := s.chip.markerTaken h (lsField b 18 8)) (h := h) (bits (lsField b 38 28) 27 12 != s.chip.lsDigest h)
    have hin := ((Chip.markerTaken_in (c := s.chip) (h := h) (lsField b 18 8)).mono (y := .of [.ev, .hlane] [.HL_STATUS])
      (by decide +kernel)).trans (hshown.mono (by decide +kernel))
    have hlane : d.laneOf h = { s.chip.laneOf h with period := some (lsField b 18 8), bad := 0 } := by
      rw [hd.laneOf_eq, hshown.laneOf_eq (by decide +kernel), Chip.markerTaken_laneOf]
    refine ⟨by rw [hlane], by rw [hlane], ?_, ?_, hin.bare_hlane hd.bare (by decide +kernel),
      hd.keeps ?_⟩
    · rw [hd.rdBit _ rfl, Chip.digestShown_bit _ (by decide), if_neg (by decide), Chip.markerTaken_lock]
    · rw [hd.rdBit _ rfl, Chip.digestShown_bit _ (by decide), if_pos rfl, bne, Bool.beq_eq_decide_eq, ← decide_not]
    · have htaken : s.chip.Keeps (s.chip.markerTaken h (lsField b 18 8)) fun k => k = ⟨.HL_STATUS, h, 0⟩ :=
        Chip.Keeps.markerTaken (Chip.Keeps.refl _ _) (P := fun k => k = ⟨.HL_STATUS, h, 0⟩) rfl _
      exact htaken.digestShown rfl _
  · intro h b l s hsh hm hl hb
    refine Answers.of_runs ⟨_, execLsMarkerReceived.eq_1 h b l s, (if_pos hsh).trans (Chip.lsMarkerTake_miss hm hl hb)⟩ fun d hd => ?_
    rw [Chip.inc_eq] at hd
    have hin : Within (.of [.hlane] [.HL_LS_MARKER_ERR]) s.chip _ :=
      ((Within.refl _ _).inc (r := .HL_LS_MARKER_ERR) (i := h) (by decide +kernel)).setLane
        (p := h) (f := fun x => { x with bad := x.bad + 1, period := x.period.map fun n => (n + 1) % 256 }) (by decide +kernel)
    refine ⟨?_, ?_, ?_, hin.bare_hlane hd.bare (by decide +kernel), hd.keeps (Chip.Keeps.setLane ?_ _ _)⟩
    · rw [Counts, hd.rd _ rfl]
      exact Chip.rd_wrRow_same ..
    · rw [hd.rdBit _ rfl]
      exact (hin.rdBit (by decide +kernel) (by decide +kernel) _ _).trans hl
    · rw [hd.laneOf_eq, Chip.setLane_same, Chip.laneOf_wrRow]
    · exact (Chip.Keeps.refl _ _).wrRow rfl
  · intro h b l s hsh hm hl hb
    refine Answers.of_runs ⟨_, execLsMarkerReceived.eq_1 h b l s, (if_pos hsh).trans (Chip.lsMarkerTake_third hm hl hb)⟩ fun d hd => ?_
    have hun := Chip.lsUnlock_in_unlocked (c := s.chip.inc .HL_LS_MARKER_ERR h) (h := h) (l := l.map fun p => p.val)
    have hin : Within (.of [.hlane] [.HL_LS_MARKER_ERR, .HL_STATUS, .HOST_RX_ERROR]) s.chip _ :=
      (((Within.refl _ _).inc (by decide +kernel)).setBit (by decide +kernel)).setLane (by decide +kernel) |>.trans
        (hun.mono (by decide +kernel))
    refine ⟨?_, ?_, ?_, hin.bare_hlane hd.bare (by decide +kernel), hd.keeps (Chip.Keeps.lsUnlock ((Chip.Keeps.refl _ _).wrRow (.inl rfl))
      (.inr (.inl rfl)) fun _ => .inr (.inr rfl))⟩
    · rw [Counts, hd.rd _ rfl, hun.rd (by decide +kernel) (by decide +kernel)]
      exact (Chip.rd_wrRow_reg _ _ _ _ _ _ _ _ (by decide) (by decide)).trans (Chip.rd_wrRow_same ..)
    · rw [hd.rdBit _ rfl, hun.rdBit (by decide +kernel) (by decide +kernel)]
      exact Chip.rdBit_setBit_same _ .HL_STATUS _ _ _ (by decide)
    · rw [hd.laneOf_eq, hun.laneOf_eq (by decide +kernel), Chip.unlocked, Chip.setLane_same]
  · intro p entries v s m e ha hs hp hagree hfew
    refine Answers.of_write _ (execHlMapWrite.eq_1 p entries v s) ha (Chip.writeHlMap_agrees rfl rfl hs hp hagree hfew) fun d hd => ?_
    refine ⟨hd.access, fun h => ?_, fun h => ?_, (congrArg HostSt.moved (hd.hostOf_eq p)).trans (Chip.mapTaken_moved ..),
      (Chip.mapTaken_in ..).bare_host_hlane hd.bare (by decide +kernel), hd.written_keeps (Chip.mapTaken_keeps _ _ _ _ _)⟩
    · rw [hd.written_rd rfl]
      exact Chip.mapTaken_map _ _ _ _ _ h
    · rw [hd.written_rd rfl]
      exact Chip.mapTaken_entries _ _ _ _ _ h
  · intro p entries v s m e ha hs hp
    refine Answers.of_abort (execHlMapWrite.eq_1 p entries v s) (a := .state) (m := s.chip) ?_ (by decide) (by decide)
      fun d hd => hd.turnedAway.2
    rw [Chip.gated, ha]
    exact Chip.writeHlMap_enabled rfl rfl hs hp
  · intro h v s ha hv hg
    refine Answers.of_write _ (execHlPrbsGenWrite.eq_1 h v s) ha (Chip.writeBase_lane_ok (.inr (.inl rfl))
      ((Reg.inRange_upTo (n := 2) rfl rfl (by decide) _).trans (decide_eq_true hv)) (Chip.stateRule_prbs (.inl rfl) hg)) fun d hd => ?_
    refine ⟨hd.access, ?_, ?_, hd.bare.trans ((Chip.bare_wrRow ..).trans (Chip.bare_wrRow ..)),
      hd.written_keeps (((Chip.Keeps.refl _ _).wrRow (.inl rfl)).wrRow (.inr rfl))⟩
    · rw [hd.written_rd rfl]
      exact (Chip.rd_wrRow_reg _ _ _ _ _ _ _ _ (by decide) (by decide)).trans (Chip.rd_wrRow_fits v.isLt ..)
    · rw [hd.written_rdBit rfl]
      refine (Chip.laneTestSet_test _ _).trans (decide_eq_decide.2 ?_)
      rw [Chip.rd_wrRow_fits v.isLt, Chip.rd_wrRow_reg _ _ _ _ _ _ _ _ (by decide) (by decide), BitVec.toNat_ne]
      rfl
  · intro h v s ha hv hg
    refine Answers.of_write _ (execHlPrbsChkWrite.eq_1 h v s) ha (Chip.writeBase_lane_ok (.inr (.inr rfl))
      ((Reg.inRange_upTo (n := 2) rfl rfl (by decide) _).trans (decide_eq_true hv)) (Chip.stateRule_prbs (.inr rfl) hg)) fun d hd => ?_
    have hread : ((s.chip.wrRow .HL_PRBS_CHK h 0 v.toNat).wrRow .HL_PRBS_ERR h 0 0).rd .HL_PRBS_CHK h = v.toNat :=
      (Chip.rd_wrRow_reg _ _ _ _ _ _ _ _ (by decide) (by decide)).trans (Chip.rd_wrRow_fits v.isLt ..)
    refine ⟨hd.access, ?_, ?_, ?_, hd.written_keeps ((((Chip.Keeps.refl _ _).wrRow ⟨rfl, .inl rfl⟩).wrRow
      ⟨rfl, .inr (.inl rfl)⟩).wrRow ⟨rfl, .inr (.inr rfl)⟩)⟩
    · rw [hd.written_rd rfl]
      exact (Chip.rd_wrRow_reg _ _ _ _ _ _ _ _ (by decide) (by decide)).trans hread
    · rw [hd.written_rd rfl]
      exact (Chip.rd_wrRow_reg _ _ _ _ _ _ _ _ (by decide) (by decide)).trans (Chip.rd_wrRow_same ..)
    · rw [hd.written_rdBit rfl]
      refine (Chip.laneTestSet_test _ _).trans (decide_eq_decide.2 ?_)
      rw [Chip.wr_eq, hread, Chip.rd_wrRow_reg _ _ _ _ _ _ _ _ (by decide) (by decide),
        Chip.rd_wrRow_reg _ _ _ _ _ _ _ _ (by decide) (by decide), BitVec.toNat_ne]
      rfl
  · intro h v s ha hv
    refine Answers.of_abort (execHlPrbsChkWrite.eq_1 h v s) (a := .range) (m := s.chip) ?_ (by decide) (by decide)
      fun d hd => hd.turnedAway.2
    rw [Chip.gated, ha]
    exact Chip.writeBase_lane_range (.inr (.inr rfl)) ((Reg.inRange_upTo (n := 2) rfl rfl (by decide) _).trans (decide_eq_false (Nat.not_le.2 hv)))
  · intro p v s ha hl hu
    refine Answers.of_write _ (execPfcSettingWrite.eq_4 p v s) ha (Chip.writePfc_quanta hl hu) fun d hd => ?_
    refine ⟨hd.access, ?_, hd.written_keeps ((Chip.Keeps.refl _ _).wrRow rfl)⟩
    rw [hd.written_rd rfl]
    exact Chip.rd_wrRow_fits (Nat.lt_succ_of_le hu) ..
  · intro p v s ha hf
    refine Answers.of_write _ (execPfcSettingWrite.eq_1 p v s) ha (Chip.writePfc_enable hf) fun d hd => ?_
    refine ⟨hd.access, ?_, hd.written_keeps (Chip.Keeps.pfcEval ((Chip.Keeps.refl _ _).wrRow ⟨rfl, .inl rfl⟩) ⟨rfl, .inr rfl⟩)⟩
    rw [hd.written_rd rfl, (Chip.pfcEval_in (.refl Chip.pfcEval_fx _) (by decide +kernel)).rd (by decide +kernel) (by decide +kernel)]
    exact Chip.rd_wrRow_fits ((Nat.mod_lt _ (by decide)).trans (by decide)) ..
  · intro p v s ha hl hu hf
    refine Answers.of_write _ (execPfcSettingWrite.eq_3 p v s) ha (Chip.writePfc_headroom hl hu hf) fun d hd => ?_
    refine ⟨hd.access, ?_, hd.written_keeps (Chip.Keeps.pfcEval ((Chip.Keeps.refl _ _).wrRow ⟨rfl, .inl rfl⟩) ⟨rfl, .inr rfl⟩)⟩
    rw [hd.written_rd rfl, (Chip.pfcEval_in (.refl Chip.pfcEval_fx _) (by decide +kernel)).rd (by decide +kernel) (by decide +kernel)]
    exact Chip.rd_wrRow_fits v.isLt ..
  · intro p v s ha hv
    refine Answers.of_write _ (execPfcSettingWrite.eq_2 p v s) ha (Chip.writePfc_priorityMap hv) fun d hd => ?_
    have hin := s.chip.pfcRemap_in_wr p v.toNat
    refine ⟨hd.access, ?_, hd.written_keeps (Chip.Keeps.within ((Chip.Keeps.refl _ _).wrRow rfl) hin rfl)⟩
    rw [hd.written_rd rfl, hin.rd (by decide +kernel) (by decide +kernel), Chip.wr_eq, Chip.rd_wrRow_same]

end

section
/-!
PROOFS. Fields of a row value and the signed reading of a raw value (R5), what reading finds after a write of either, and loops without effect.
-/
set_option Elab.async false
namespace Sys2Proof.Machine

theorem testBit_bits (v hi lo j : Nat) : (bits v hi lo).testBit j = (decide (j < hi + 1 - lo) && v.testBit (lo + j)) := by
  rw [bits, Nat.testBit_mod_two_pow, Nat.testBit_shiftRight]

theorem testBit_setBits {hi lo : Nat} (h : lo ≤ hi) (v x j : Nat) :
    (setBits v hi lo x).testBit j = if lo ≤ j ∧ j ≤ hi then x.testBit (j - lo) else v.testBit j := by
  unfold setBits
  simp only [Nat.testBit_or, Nat.testBit_shiftLeft, Nat.testBit_shiftRight, Nat.testBit_mod_two_pow, ge_iff_le]
  rcases Nat.lt_or_ge j lo with hj | hj
  · simp [show ¬ hi + 1 ≤ j by omega, show ¬ lo ≤ j by omega, hj]
  rcases Nat.lt_or_ge hi j with hk | hk
  · simp [show ¬ j - lo < hi + 1 - lo by omega, show ¬ j < lo by omega, show ¬ j ≤ hi by omega, show hi + 1 ≤ j by omega]
  · simp [show ¬ hi + 1 ≤ j by omega, hj, hk, show j - lo < hi + 1 - lo by omega, show ¬ j < lo by omega]

section
variable {t i n : Nat} (hn : 0 < n) (hi : i + n ≤ t)
include hn hi

/-- A field of a row reads what was put into it, at the field's width. -/
theorem rowField_setRowField_same (v x : Nat) : rowField t (setRowField t v i n x) i n = x % 2 ^ (8 * n) := by
  refine Nat.eq_of_testBit_eq fun j => ?_
  rw [rowField, setRowField, testBit_bits, testBit_setBits (by omega), Nat.testBit_mod_two_pow,
    show 8 * (t - i) - 1 + 1 - 8 * (t - i - n) = 8 * n by omega, Nat.add_sub_cancel_left]
  by_cases hj : j < 8 * n
  · rw [if_pos ⟨by omega, by omega⟩]
  · simp [hj]

/-- A field of a row reads no bit above the row's width. -/
theorem rowField_mod (v : Nat) : rowField t (v % 2 ^ (8 * t)) i n = rowField t v i n := by
  refine Nat.eq_of_testBit_eq fun j => ?_
  rw [rowField, rowField, testBit_bits, testBit_bits, Nat.testBit_mod_two_pow]
  by_cases hj : j < 8 * (t - i) - 1 + 1 - 8 * (t - i - n)
  · rw [show decide (8 * (t - i - n) + j < 8 * t) = true from decide_eq_true (by omega), Bool.true_and]
  · simp [hj]

/-- A field of a row that lies apart from the one replaced reads as before. -/
theorem rowField_setRowField_other {j m : Nat} (hm : 0 < m) (hj : j + m ≤ t) (h : i + n ≤ j ∨ j + m ≤ i) (v x : Nat) :
    rowField t (setRowField t v i n x) j m = rowField t v j m := by
  refine Nat.eq_of_testBit_eq fun k => ?_
  rw [rowField, rowField, setRowField, testBit_bits, testBit_bits, testBit_setBits (by omega)]
  by_cases hk : k < 8 * (t - j) - 1 + 1 - 8 * (t - j - m)
  · rw [if_neg (by omega)]
  · simp [hk]

end

/-- The raw value of a signed reading is the raw value. -/
theorem ofInt_toInt {w v : Nat} (hv : v < 2 ^ w) : ofInt w (toInt w v) = v := by
  have hc : ((2 : Int) ^ w) = ((2 ^ w : Nat) : Int) := by push_cast; rfl
  rw [ofInt, toInt, hc]
  split
  · rw [Int.sub_emod_right, ← Int.natCast_emod, Nat.mod_eq_of_lt hv]
    rfl
  · rw [← Int.natCast_emod, Nat.mod_eq_of_lt hv]
    rfl

theorem toInt_bounds {w v : Nat} (hw : 0 < w) (hv : v < 2 ^ w) : -(2 ^ (w - 1)) ≤ toInt w v ∧ toInt w v < 2 ^ (w - 1) := by
  obtain ⟨n, rfl⟩ : ∃ n, w = n + 1 := ⟨w - 1, by omega⟩
  rw [Nat.add_sub_cancel, toInt, Nat.add_sub_cancel]
  have hp : (2 : Int) ^ (n + 1) = 2 ^ n + 2 ^ n := by ring
  have hc : ((2 ^ n : Nat) : Int) = 2 ^ n := by push_cast; rfl
  rw [Nat.pow_succ] at hv
  have hpos := Nat.two_pow_pos n
  split
  · next h =>
    have := Nat.ge_two_pow_of_testBit h
    omega
  · next h =>
    have : v < 2 ^ n := by
      refine Nat.lt_of_not_le fun hle => h ?_
      rw [Nat.testBit_eq_decide_div_mod_eq, Nat.div_eq_of_lt_le (k := 1) (by omega) (by omega)]
      rfl
    omega

section
variable {r : Reg} {i row : Nat} {c : Chip}

theorem Chip.rdField_wrRow_same {o n : Nat} (hn : 0 < n) (ho : o + n ≤ r.info.octets) (v : Nat) :
    (c.wrRow r i row v).rdField r i row o n = rowField r.info.octets v o n := by
  rw [Chip.rdField, Chip.rd_wrRow_same, Reg.width, rowField_mod hn ho]

theorem Chip.rdField_wrField_same {o n : Nat} (hn : 0 < n) (ho : o + n ≤ r.info.octets) (x : Nat) :
    (c.wrField r i row o n x).rdField r i row o n = x % 2 ^ (8 * n) := by
  rw [Chip.wrField_eq, Chip.rdField_wrRow_same hn ho, rowField_setRowField_same hn ho]

/-- A field of a row apart from the one written reads as before. -/
theorem Chip.rdField_wrField_other {o n o' n' : Nat} (hn : 0 < n) (ho : o + n ≤ r.info.octets) (hn' : 0 < n') (ho' : o' + n' ≤ r.info.octets)
    (h : o + n ≤ o' ∨ o' + n' ≤ o) (x : Nat) : (c.wrField r i row o n x).rdField r i row o' n' = c.rdField r i row o' n' := by
  rw [Chip.wrField_eq, Chip.rdField_wrRow_same hn' ho', rowField_setRowField_other hn ho hn' ho' h]
  rfl

end

theorem Within.rdField {x : Fx} {c d : Chip} (h : Within x c d) {r : Reg} (hr : x.hasReg r = false) (hq : x.hasReg .QUAD_FORMATION = false)
    (i row o n : Nat) : d.rdField r i row o n = c.rdField r i row o n := congrArg (rowField r.info.octets · o n) (h.rd hr hq i row)

theorem EvFrame.rdField {c d : Chip} (h : EvFrame c d) {r : Reg} (hr : r.ofEvents = false) (i row o n : Nat) :
    d.rdField r i row o n = c.rdField r i row o n := congrArg (rowField r.info.octets · o n) (h.rd r hr i row)

theorem EvFrame.rdBool {c d : Chip} (h : EvFrame c d) (r : Reg) (hr : r.ofEvents = false) (i : Nat) : d.rdBool r i = c.rdBool r i :=
  congrArg (· != 0) (h.rd r hr i 0)

theorem Chip.rdBool_wrBool {r : Reg} (hr : 0 < r.width) (c : Chip) (i : Nat) (b : Bool) : (c.wrBool r i b).rdBool r i = b := by
  have h2 : b2n b < 2 ^ r.width := (show b2n b < 2 ^ 1 by cases b <;> decide).trans_le (Nat.pow_le_pow_right (by decide) hr)
  rw [Chip.rdBool, Chip.wrBool_eq, Chip.rd_wrRow_fits h2]
  cases b <;> rfl

section
variable {c d : Chip} {a : Access} (h : EvFrame { c with access := a } d)
include h

theorem EvFrame.written_bare : d.bare = c.bare := h.bare

theorem EvFrame.written_tb : d.tb = c.tb := h.tb_eq

theorem EvFrame.written_time : d.time = c.time := h.time_eq

theorem EvFrame.written_rdBool {r : Reg} (hr : r.ofEvents = false) (i : Nat) : d.rdBool r i = c.rdBool r i := h.rdBool r hr i

end

/-- A cell reads what was written to it, at a width that is known. -/
theorem Chip.rd_wrRow_width {r : Reg} {w : Nat} (hw : r.width = w) (c : Chip) (i row v : Nat) :
    (c.wrRow r i row v).rd r i row = v % 2 ^ w := hw ▸ Chip.rd_wrRow_same ..

theorem Chip.rd_setTime (c : Chip) (f : TimeSt → TimeSt) (r : Reg) (i row : Nat) : (c.setTime f).rd r i row = c.rd r i row := rfl

theorem Chip.rdBool_setTime (c : Chip) (f : TimeSt → TimeSt) (r : Reg) (i : Nat) : (c.setTime f).rdBool r i = c.rdBool r i := rfl

theorem Chip.setTime_time (c : Chip) (f : TimeSt → TimeSt) : (c.setTime f).time = f c.time := rfl

section
variable {x : Fx} {c d : Chip} (h : Within x c d)
include h

theorem Within.tb_eq (hx : x.hasPart .tb = false) : d.tb = c.tb := h.part .tb hx

theorem Within.time_eq (hx : x.hasPart .time = false) : d.time = c.time := h.part .time hx

end

theorem Tab.mem_of_get? {κ α : Type} [DecidableEq κ] {t : Tab κ α} {k : κ} {v : α} (h : t.get? k = some v) : (k, v) ∈ t := by
  induction t with
  | nil => simp at h
  | cons e t ih =>
    rw [Tab.get?_cons] at h
    split at h
    · next he => cases h; rw [he]; exact List.mem_cons_self
    · exact List.mem_cons_of_mem _ (ih h)

/-- A loop each of whose turns would change nothing changes nothing. -/
theorem Chip.each_skips {α : Type} {f : Chip → α → Chip} {c : Chip} (h : ∀ a, f c a = c) (l : List α) : c.each l f = c :=
  Chip.each_keeps_mem (P := (· = c)) (fun _ a _ hd => by rw [hd, h]) rfl

end Sys2Proof.Machine
end

section
/-!
PROOFS. Steps of the time base while no timed action is armed (R204, R226).
-/
set_option Elab.async false
namespace Sys2Proof.Machine

section
variable (c : Chip) (new : Nat) (amount : Int)

/-- The time base after a step, with the step's amount and count shown. -/
def Chip.stepShown : Chip :=
  ({ (c.lastStep amount).2 with tb := new }.wrDev .TIME_LAST_STEP (c.lastStep amount).1).inc .TIME_STEP_COUNT

theorem Chip.lastStep_rd (r : Reg) (i row : Nat) : (c.lastStep amount).2.rd r i row = c.rd r i row := by
  unfold Chip.lastStep
  split <;> rfl

theorem Chip.lastStep_time : (c.lastStep amount).2.time = c.time := by
  unfold Chip.lastStep
  split <;> rfl

/-- After the step is shown, the servo and the latest pulse take it, gates move, swaps fall due and wakes are planned anew. -/
theorem Chip.stepTo_after_shown : ∃ f : TimeSt → TimeSt, Within (.union [Chip.gateMoved_fx, Chip.swapDue_fx, Chip.replanAll_fx, .of [.ev] []])
    ((c.stepShown new amount).setTime f) (c.stepTo new amount) ∧ ∀ t, (f t).good = t.good :=
  ⟨_, Chip.replanAll_in (Within.each (fun _ _ h => Chip.swapDue_in (Chip.gateMoved_in h (by decide +kernel)) (by decide +kernel))
    ((Within.refl _ _).raise (by decide +kernel))) (by decide +kernel), fun _ => rfl⟩

theorem Chip.stepTo_in_shown : Within (.union [Chip.gateMoved_fx, Chip.swapDue_fx, Chip.replanAll_fx, .of [.time, .ev] []])
    (c.stepShown new amount) (c.stepTo new amount) := by
  obtain ⟨f, hw, -⟩ := c.stepTo_after_shown new amount
  exact ((Within.refl _ _).setTime (by decide +kernel)).trans (hw.mono (by decide +kernel))

theorem Chip.stepTo_tb : (c.stepTo new amount).tb = new := by
  have h : (c.stepTo new amount).tb = (c.stepShown new amount).tb := (c.stepTo_in_shown new amount).part .tb (by decide +kernel)
  simp [h, Chip.stepShown, Chip.inc_eq, Chip.wrDev_eq]

theorem Chip.stepTo_good : (c.stepTo new amount).time.good = c.time.good := by
  obtain ⟨f, hw, hf⟩ := c.stepTo_after_shown new amount
  have ht : (c.stepTo new amount).time = f (c.stepShown new amount).time := hw.part .time (by decide +kernel)
  rw [ht, hf]
  simp [Chip.stepShown, Chip.inc_eq, Chip.wrDev_eq, c.lastStep_time amount]

theorem Chip.stepTo_counts : Counts c (c.stepTo new amount) .TIME_STEP_COUNT 0 1 := by
  rw [Counts, (c.stepTo_in_shown new amount).rd (by decide +kernel) (by decide +kernel), Chip.stepShown, Chip.inc_eq,
    Chip.rd_wrRow_same, Chip.wrDev_eq, Chip.rd_wrRow_reg _ _ _ _ _ _ _ _ (by decide) (by decide), ← c.lastStep_rd amount]
  rfl

theorem Chip.stepTo_amount (hl : -(2 ^ 63) ≤ amount) (hu : amount < 2 ^ 63) :
    (c.stepTo new amount).rd .TIME_LAST_STEP = ofInt 64 amount := by
  have hs : (c.lastStep amount).1 = ofInt 64 amount := by rw [Chip.lastStep, if_pos ⟨hl, hu⟩]
  rw [(c.stepTo_in_shown new amount).rd (by decide +kernel) (by decide +kernel), Chip.stepShown, Chip.inc_eq,
    Chip.rd_wrRow_reg _ _ _ _ _ _ _ _ (by decide) (by decide), Chip.wrDev_eq, hs]
  exact Chip.rd_wrRow_fits (ofInt_lt 64 amount) ..

end

/-- A row that is not in the list of the armed rows is not armed. -/
theorem Chip.taIsArmed_of_taArmed {c : Chip} (h : c.taArmed = []) (r : Nat) : c.taIsArmed r = false := by
  rw [Chip.taIsArmed, Chip.rdField, Chip.rd_eq]
  refine decide_eq_false fun ha => ?_
  cases hr : c.raw .TA_TABLE 0 r with
  | none => rw [hr] at ha; exact absurd (show rowField 40 0 13 1 = 1 from ha) (by decide)
  | some v =>
    rw [hr] at ha
    have hm : (⟨.TA_TABLE, 0, r⟩, v) ∈ c.dict.filter fun e : Key × Nat => e.1.reg = .TA_TABLE && rowField 40 e.2 13 1 = 1 :=
      List.mem_filter.2 ⟨Tab.mem_of_get? hr, by simpa using show rowField 40 v 13 1 = 1 from ha⟩
    rw [List.map_eq_nil_iff.1 h] at hm
    exact absurd hm List.not_mem_nil

theorem Chip.stepN_succ (n : Nat) (c : Chip) (new : Nat) (amount : Int) : Chip.stepN (n + 1) c new amount =
    let d := (c.each c.taArmed fun c r => c.taDue (Chip.stepN n) r)
    let e := d.stepTo new amount
    e.each (e.taArmed.filter fun r => d.tb < e.taTime r && e.taTime r ≤ e.tb) fun c r => c.taPassed (Chip.stepN n) r := rfl

/-- A step with no timed action armed is the step alone. -/
theorem Chip.stepN_idle {c : Chip} (h : ∀ r, c.taIsArmed r = false) (n new : Nat) (amount : Int) :
    Chip.stepN n c new amount = c.stepTo new amount := by
  cases n with
  | zero => rfl
  | succ n =>
    have hafter : ∀ r, (c.stepTo new amount).taIsArmed r = false := fun r => by
      rw [Chip.taIsArmed, (Chip.stepTo_in (.refl Chip.stepTo_fx c) (by decide +kernel)).rdField (by decide +kernel) (by decide +kernel)]
      exact h r
    have hdue : ∀ r, c.taDue (Chip.stepN n) r = c := fun r => if_neg (by simp [h r])
    have hpassed : ∀ r, (c.stepTo new amount).taPassed (Chip.stepN n) r = c.stepTo new amount := fun r => if_pos (by simp [hafter r])
    rw [Chip.stepN_succ, Chip.each_skips (f := fun c r => c.taDue (Chip.stepN n) r) hdue]
    exact Chip.each_skips (f := fun c r => c.taPassed (Chip.stepN n) r) hpassed _

theorem stepAll_idle {c : Chip} (h : ∀ r, c.taIsArmed r = false) (new : Nat) (amount : Int) :
    stepAll c new amount = c.stepTo new amount := Chip.stepN_idle h 257 new amount

end Sys2Proof.Machine
end

section
/-!
PROOFS. The validity of the time, the servo's states and its corrections, and the writes of the time base (R203, R204, R207 to R210, Table 9-4).
-/
set_option Elab.async false
namespace Sys2Proof.Machine

/-! `TIME_VALID` (R208). -/

theorem Chip.setValid_shows (c : Chip) (b : Bool) : (c.setValid b).rdBool .TIME_VALID = b := by
  unfold Chip.setValid
  split
  · assumption
  · rw [(Chip.replanAll_in (.refl Chip.replanAll_fx _) (by decide +kernel)).rdBool (by decide +kernel) (by decide +kernel)]
    exact Chip.rdBool_wrBool (by decide) c 0 b

theorem Chip.setValid_within (c : Chip) (b : Bool) : Within Chip.setValid_fx c (c.setValid b) := Chip.setValid_in (.refl _ _) (by decide +kernel)

/-! Holdover and the servo's states (R210, Table 9-4). -/

/-- Of the servo's record the entry to holdover changes the mean that is held and the time of the source's return. -/
theorem Chip.trimHold_time (c : Chip) : ∃ m r, c.trimHold.time = { c.time with held := m, srcFrom := r } := by
  unfold Chip.trimHold
  split
  · exact ⟨_, _, rfl⟩
  · dsimp only
    refine ⟨c.trimMean, none, ?_⟩
    split
    · exact Chip.wrRow_time ..
    · exact (Chip.raise_time ..).trans (Chip.wrRow_time ..)

section
variable (c : Chip) (k : Nat)

/-- The state is shown, and the measurements that count toward the next one are forgotten. -/
def Chip.servoShown : Chip := (c.wrDev .TIME_SERVO_STATE k).setTime fun t => { t with good := 0, bad := 0 }

/-- Where the time base runs from the root alone no rate is set. -/
def Chip.servoRated : Chip := if k = 0 then (c.servoShown k).setRate 0 else c.servoShown k

theorem Chip.servoEnter_eq : c.servoEnter k =
    if (c.servoRated k).rd .ROOT_DISCIPLINE = 1 && (k = 0 || k = 3 || k = 4) then (c.servoRated k).trimHold else c.servoRated k := rfl

theorem Chip.servoRated_in_shown : Within Chip.setRate_fx (c.servoShown k) (c.servoRated k) :=
  Within.ite (Chip.setRate_in (.refl _ _) (by decide +kernel)) (.refl _ _)

theorem Chip.servoEnter_in_shown : Within (.union [Chip.setRate_fx, Chip.trimHold_fx]) (c.servoShown k) (c.servoEnter k) := by
  have hrated := (c.servoRated_in_shown k).mono (y := .union [Chip.setRate_fx, Chip.trimHold_fx]) (by decide +kernel)
  exact Within.ite (Chip.trimHold_in hrated (by decide +kernel)) hrated

theorem Chip.servoEnter_within : Within Chip.servoEnter_fx c (c.servoEnter k) := Chip.servoEnter_in (.refl _ _) (by decide +kernel)

theorem Chip.servoEnter_state (hk : k < 256) : (c.servoEnter k).rd .TIME_SERVO_STATE = k := by
  rw [(c.servoEnter_in_shown k).rd (by decide +kernel) (by decide +kernel)]
  exact Chip.rd_wrRow_fits hk ..

theorem Chip.servoEnter_counts : (c.servoEnter k).time.good = 0 ∧ (c.servoEnter k).time.bad = 0 := by
  have hrated : (c.servoRated k).time = (c.servoShown k).time := (c.servoRated_in_shown k).part .time (by decide +kernel)
  rw [Chip.servoEnter_eq]
  split
  · obtain ⟨m, r, ht⟩ := (c.servoRated k).trimHold_time
    rw [ht, hrated]
    exact ⟨rfl, rfl⟩
  · rw [hrated]
    exact ⟨rfl, rfl⟩

end

section
variable (c : Chip)

theorem Chip.timeSource_setValid (b : Bool) : (c.setValid b).timeSource = c.timeSource := by
  have hw := c.setValid_within b
  rw [Chip.timeSource, Chip.timeSource, Chip.rdBit, Chip.rdBit, hw.rd (r := .TIME_SOURCE) (by decide +kernel) (by decide +kernel),
    hw.rd (r := .WALE_STATUS) (by decide +kernel) (by decide +kernel)]
  simp only [hw.rd (r := .WL_STATE) (by decide +kernel) (by decide +kernel)]

/-- The servo starts without a valid time, in the state that the mode and the source give it (R207). -/
theorem Chip.servoRestart_eq : c.servoRestart = (c.setValid false).servoEnter
    (if c.rd .TIME_SERVO_MODE = 0 then 4 else if c.timeSource = .free then 0 else 1) := by
  have hmode : (c.setValid false).rd .TIME_SERVO_MODE = c.rd .TIME_SERVO_MODE :=
    (c.setValid_within false).rd (by decide +kernel) (by decide +kernel) ..
  unfold Chip.servoRestart
  dsimp only
  rw [hmode, c.timeSource_setValid]
  split
  · rfl
  · split <;> rfl

/-- `FREE` applies exactly where `TIME_SOURCE` selects it (Table 9-3). -/
theorem Chip.timeSource_free : c.timeSource = .free ↔ c.rd .TIME_SOURCE = 1 := by
  unfold Chip.timeSource
  split
  · next h => simp [h]
  · next h => simp [h]
  · next h => simp [h]
  · next h => simp [h]
  · next h _ _ _ =>
    refine ⟨fun hf => ?_, fun hf => absurd hf h⟩
    split at hf <;> cases hf

/-! Corrections (R207, R209, Table 9-4). -/

/-- Of the servo's record a correction by rate changes the frequency estimate, within the range of the rate. -/
theorem Chip.servoRate_time : ∃ f : Int, f.natAbs ≤ 80000000 ∧ c.servoRate.time = { c.time with freq := f } := by
  refine ⟨(c.draw.1 % 160000001 : Nat) - 80000000, ?_,
    (Chip.carryRate_in (.refl Chip.carryRate_fx _) (by decide +kernel)).part .time (by decide +kernel)⟩
  have := Nat.mod_lt c.draw.1 (show 0 < 160000001 by decide)
  omega

theorem Chip.servoRate_within : Within Chip.servoRate_fx c c.servoRate := Chip.servoRate_in (.refl _ _) (by decide +kernel)

end

section
variable {c : Chip} {x : Int} (st : Stepper)

theorem Chip.servoCorrect_rates (h : x.natAbs ≤ c.stepLimit) : c.servoCorrect st x = c.servoRate := if_neg (Nat.not_lt.2 h)

theorem Chip.servoCorrect_steps (h : c.stepLimit < x.natAbs) : c.servoCorrect st x = c.stepBy st (-x) := if_pos h

/-- Before the eighth good measurement, acquisition corrects and counts (Table 9-4). -/
theorem Chip.servoAcquire_counts (h : c.time.good < 7 ∨ c.validLimit < x.natAbs) :
    c.servoAcquire st x = (c.servoCorrect st x).setTime fun t => { t with good := c.servoGood x } := by
  have hgood : ¬ c.servoGood x ≥ 8 := by
    unfold Chip.servoGood
    split <;> omega
  exact if_neg hgood

/-- The eighth good measurement ends acquisition (Table 9-4). -/
theorem Chip.servoAcquire_tracks (hg : c.time.good = 7) (h : x.natAbs ≤ c.validLimit) :
    c.servoAcquire st x = ((c.servoEnter 2).setValid true).servoTrack st x := by
  have hgood : c.servoGood x ≥ 8 := by rw [Chip.servoGood, if_pos h, hg]
  exact if_pos hgood

/-- A good measurement within the step limit is corrected by rate in tracking (Table 9-4). -/
theorem Chip.servoTrack_rates (hv : x.natAbs ≤ c.validLimit) (hs : x.natAbs ≤ c.stepLimit) :
    c.servoTrack st x = (c.setTime fun t => { t with bad := 0 }).servoRate := by
  have hbad : ¬ x.natAbs > 4 * c.validLimit := by omega
  have hstep : ¬ x.natAbs > c.stepLimit := by omega
  simp [Chip.servoTrack, hbad, hstep]

/-- What a measurement shows as it is taken (R207). -/
def Chip.measured (c : Chip) (x : Int) : Chip := (c.wrInt .TIME_OFFSET_LAST 0 x).setTime fun t => { t with phase := x }

theorem Chip.measured_rd {r : Reg} (h : r ≠ .TIME_OFFSET_LAST) (i row : Nat) : (c.measured x).rd r i row = c.rd r i row :=
  Chip.rd_wrRow_reg _ _ _ _ _ _ _ _ h (by decide)

theorem Chip.measured_offset {v : Nat} (h : v < 2 ^ 64) : (c.measured (toInt 64 v)).rd .TIME_OFFSET_LAST = v :=
  (Chip.rd_wrRow_fits (ofInt_lt _ _) ..).trans (ofInt_toInt h)

theorem Chip.servoTake_acquires (h : c.rd .TIME_SERVO_STATE = 1) : c.servoTake st x = (c.measured x).servoAcquire st x := by
  have hs : (c.measured x).rd .TIME_SERVO_STATE = 1 := (Chip.measured_rd (by decide) 0 0).trans h
  unfold Chip.servoTake
  dsimp only
  split
  · rfl
  · next h2 => exact absurd (hs.symm.trans h2) (by decide)
  · next h3 => exact absurd (hs.symm.trans h3) (by decide)
  · next h1 _ _ => exact absurd hs h1

end

/-! Writes (R203, R204, R207, R208). -/

section
variable {c : Chip} {v : Nat}

theorem Chip.writeTimeSet_sets (hv : time96Ok v = true) (ha : c.taArmed = []) :
    c.writeTimeSet stepAll v = (.ok, c.stepTo (ofTime96 v) (tbDiff (ofTime96 v) c.tb)) := by
  rw [Chip.writeTimeSet, hv, stepAll_idle (Chip.taIsArmed_of_taArmed ha)]
  rfl

theorem Chip.stepBy_idle (h : ∀ r, c.taIsArmed r = false) (x : Int) : c.stepBy stepAll x = c.stepTo (c.steppedTb x) x :=
  stepAll_idle h ..

theorem Chip.writeTimeStep_steps (ha : c.taArmed = []) :
    c.writeTimeStep stepAll v = (.ok, c.stepTo (c.steppedTb (toInt 64 v)) (toInt 64 v)) := by
  rw [Chip.writeTimeStep, Chip.stepBy_idle (Chip.taIsArmed_of_taArmed ha)]

theorem Chip.writeServoInput_takes (h : c.timeSource = .software) (hs : c.rd .TIME_SERVO_STATE = 1) :
    c.writeServoInput stepAll v = (.ok, (c.measured (toInt 64 v)).servoAcquire stepAll (toInt 64 v)) := by
  rw [Chip.writeServoInput, if_pos h, Chip.servoTake_acquires _ hs]

theorem Chip.writeServoInput_ignored (h : c.timeSource ≠ .software) : c.writeServoInput stepAll v = (.ok, c) := by
  rw [Chip.writeServoInput, if_neg h]

theorem Chip.writeTimeValid_sets (hv : v ≤ 1) (hm : c.rd .TIME_SERVO_MODE = 0) :
    c.writeTimeValid v = (.ok, c.setValid (v = 1)) := by
  rw [Chip.writeTimeValid, if_neg (Nat.not_lt.2 hv), if_neg (not_not.2 hm)]

theorem Chip.writeTimeValid_auto (hv : v ≤ 1) (hm : c.rd .TIME_SERVO_MODE ≠ 0) : c.writeTimeValid v = (.state, c) := by
  rw [Chip.writeTimeValid, if_neg (Nat.not_lt.2 hv), if_pos hm]

theorem Chip.writeTimeSource_source (hv : v ≤ 4) :
    c.writeTimeSource false v = (.ok, (c.wrDev .TIME_SOURCE v).servoRestart) := if_neg (Nat.not_lt.2 hv)

theorem Chip.writeTimeSource_manual (c : Chip) : c.writeTimeSource true 0 = (.ok, (c.wrDev .TIME_SERVO_MODE 0).servoRestart) := rfl

/-- Automatic mode leaves `SERVO_MANUAL` for `SERVO_ACQUIRE` (Table 9-4), and starts the servo from any other state. -/
theorem Chip.writeTimeSource_auto (c : Chip) : c.writeTimeSource true 1 = (.ok,
    if c.rd .TIME_SERVO_STATE = 4 then ((c.wrDev .TIME_SERVO_MODE 1).setValid false).servoEnter 1
    else (c.wrDev .TIME_SERVO_MODE 1).servoRestart) := by
  simp [Chip.writeTimeSource]

end

section
variable (c : Chip) (k : Nat)

/-- The time is not valid where the servo enters a state after it was invalidated. -/
theorem Chip.invalid_servoEnter : ((c.setValid false).servoEnter k).rdBool .TIME_VALID = false := by
  rw [((c.setValid false).servoEnter_within k).rdBool (by decide +kernel) (by decide +kernel), Chip.setValid_shows]

theorem Chip.servoRestart_invalid : c.servoRestart.rdBool .TIME_VALID = false := by
  rw [Chip.servoRestart_eq, Chip.invalid_servoEnter]

theorem Chip.servoRestart_good : c.servoRestart.time.good = 0 := by
  rw [Chip.servoRestart_eq]
  exact (Chip.servoEnter_counts _ _).1

theorem Chip.servoRestart_state : c.servoRestart.rd .TIME_SERVO_STATE =
    if c.rd .TIME_SERVO_MODE = 0 then 4 else if c.rd .TIME_SOURCE = 1 then 0 else 1 := by
  have hk : (if c.rd .TIME_SERVO_MODE = 0 then 4 else if c.rd .TIME_SOURCE = 1 then 0 else 1) < 256 := by
    split
    · decide
    · split <;> decide
  simp only [Chip.servoRestart_eq, Chip.timeSource_free]
  exact Chip.servoEnter_state _ _ hk

theorem Chip.writeTimeSnapshot_one : c.writeTimeSnapshot 1 = (.ok, c.wrRow .TIME_SNAPSHOT_VALUE 0 0 c.now96) := rfl

theorem Chip.snapshot_shows : (c.wrRow .TIME_SNAPSHOT_VALUE 0 0 c.now96).rd .TIME_SNAPSHOT_VALUE = c.now96 % 2 ^ 96 :=
  Chip.rd_wrRow_width rfl c 0 0 c.now96

theorem Chip.servoRestart_within : Within Chip.servoRestart_fx c c.servoRestart := Chip.servoRestart_in (.refl _ _) (by decide +kernel)

/-- The servo started for automatic mode: in `SERVO_ACQUIRE` where it was manual (Table 9-4), and in no case with a valid time. -/
theorem Chip.auto_starts (m : Prop) [Decidable m] (e : Chip) (he : e = if m then (c.setValid false).servoEnter 1 else c.servoRestart) :
    e.rd .TIME_SERVO_MODE = c.rd .TIME_SERVO_MODE ∧ e.rdBool .TIME_VALID = false ∧ (m → e.rd .TIME_SERVO_STATE = 1) := by
  subst he
  split
  · next hm =>
    refine ⟨?_, Chip.invalid_servoEnter _ _, fun _ => Chip.servoEnter_state _ _ (by decide)⟩
    rw [((c.setValid false).servoEnter_within 1).rd (by decide +kernel) (by decide +kernel),
      (c.setValid_within false).rd (by decide +kernel) (by decide +kernel)]
  · next hm => exact ⟨c.servoRestart_within.rd (by decide +kernel) (by decide +kernel) .., c.servoRestart_invalid, fun h => absurd h hm⟩

end

section
variable {c : Chip} {x : Int}

theorem Chip.measured_tb (c : Chip) (x : Int) : (c.measured x).tb = c.tb := Chip.wrRow_tb ..

/-- What acquisition makes of a measurement depends on what was read before it was shown. -/
theorem Chip.measured_limits (c : Chip) (x : Int) : (c.measured x).validLimit = c.validLimit ∧ (c.measured x).stepLimit = c.stepLimit ∧
    (c.measured x).time.good = c.time.good := by
  refine ⟨congrArg (· * 65536) (Chip.measured_rd (by decide) ..), congrArg (· * 65536) (Chip.measured_rd (by decide) ..), ?_⟩
  change (c.wrInt .TIME_OFFSET_LAST 0 x).time.good = _
  rw [Chip.wrInt_eq, Chip.wrRow_time]

theorem Chip.measured_servoGood (c : Chip) (x y : Int) : (c.measured x).servoGood y = c.servoGood y := by
  obtain ⟨hv, -, hg⟩ := c.measured_limits x
  rw [Chip.servoGood, Chip.servoGood, hv, hg]

/-- A measurement within the step limit is corrected by rate, and counts toward the eight (Table 9-4). -/
theorem Chip.measured_acquires_rates (hs : x.natAbs ≤ c.stepLimit) (hg : c.time.good < 7 ∨ c.validLimit < x.natAbs) :
    (c.measured x).servoAcquire stepAll x = (c.measured x).servoRate.setTime fun t => { t with good := c.servoGood x } := by
  obtain ⟨hv', hs', hg'⟩ := c.measured_limits x
  rw [Chip.servoAcquire_counts _ (hg.imp hg'.trans_lt hv'.trans_lt), Chip.servoCorrect_rates _ (hs.trans_eq hs'.symm), Chip.measured_servoGood]

/-- Tracking is entered with the time valid. -/
def Chip.tracking (c : Chip) : Chip := ((c.servoEnter 2).setValid true).setTime fun t => { t with bad := 0 }

theorem Chip.tracking_within (c : Chip) : Within (.union [Chip.servoEnter_fx, Chip.setValid_fx, .of [.time] []]) c c.tracking :=
  (Chip.setValid_in (Chip.servoEnter_in (.refl _ _) (by decide +kernel)) (by decide +kernel)).setTime (by decide +kernel)

theorem Chip.tracking_shows (c : Chip) : c.tracking.rd .TIME_SERVO_STATE = 2 ∧ c.tracking.rdBool .TIME_VALID = true ∧ c.tracking.time.good = 0 := by
  have hw := (c.servoEnter 2).setValid_within true
  refine ⟨?_, ?_, ?_⟩
  · rw [Chip.tracking, Chip.rd_setTime, hw.rd (by decide +kernel) (by decide +kernel), Chip.servoEnter_state _ _ (by decide)]
  · rw [Chip.tracking, Chip.rdBool_setTime, Chip.setValid_shows]
  · rw [Chip.tracking, Chip.setTime_time, hw.time_eq (by decide +kernel)]
    exact (Chip.servoEnter_counts _ _).1

/-- The eighth good measurement enters tracking with the time valid, and is corrected there by rate (R207, Table 9-4). -/
theorem Chip.measured_acquires_tracks (hs : x.natAbs ≤ c.stepLimit) (hg : c.time.good = 7) (hv : x.natAbs ≤ c.validLimit) :
    (c.measured x).servoAcquire stepAll x = (c.measured x).tracking.servoRate := by
  obtain ⟨hv', hs', hg'⟩ := c.measured_limits x
  have he := (c.measured x).servoEnter_within 2
  have ht := ((c.measured x).servoEnter 2).setValid_within true
  have hvalid : (((c.measured x).servoEnter 2).setValid true).validLimit = c.validLimit := by
    rw [← hv']
    exact congrArg (· * 65536) ((ht.rd (by decide +kernel) (by decide +kernel) ..).trans (he.rd (by decide +kernel) (by decide +kernel) ..))
  have hstep : (((c.measured x).servoEnter 2).setValid true).stepLimit = c.stepLimit := by
    rw [← hs']
    exact congrArg (· * 65536) ((ht.rd (by decide +kernel) (by decide +kernel) ..).trans (he.rd (by decide +kernel) (by decide +kernel) ..))
  rw [Chip.tracking, Chip.servoAcquire_tracks _ (hg'.trans hg) (hv.trans_eq hv'.symm), Chip.servoTrack_rates _ (hv.trans_eq hvalid.symm) (hs.trans_eq hstep.symm)]

/-- A measurement beyond both limits is removed by a step, and counting toward the eight begins anew (Table 9-4). -/
theorem Chip.measured_acquires_steps (ha : c.taArmed = []) (hs : c.stepLimit < x.natAbs) (hv : c.validLimit < x.natAbs) :
    (c.measured x).servoAcquire stepAll x =
      ((c.measured x).stepTo (c.steppedTb (-x)) (-x)).setTime fun t => { t with good := 0 } := by
  obtain ⟨hv', hs', -⟩ := c.measured_limits x
  have harm : ∀ r, (c.measured x).taIsArmed r = false := fun r => by
    rw [← Chip.taIsArmed_of_taArmed ha r]
    exact congrArg (fun v => decide (rowField 40 v 13 1 = taArmedState)) (Chip.measured_rd (by decide) 0 r)
  have hgood : (c.measured x).servoGood x = 0 := by
    rw [Chip.measured_servoGood]
    exact if_neg (Nat.not_le.2 hv)
  have htb : (c.measured x).steppedTb (-x) = c.steppedTb (-x) := by rw [Chip.steppedTb, Chip.steppedTb, Chip.measured_tb]
  rw [Chip.servoAcquire_counts _ (.inr (hv'.trans_lt hv)), Chip.servoCorrect_steps _ (hs'.trans_lt hs), hgood, Chip.stepBy_idle harm, htb]

end

end Sys2Proof.Machine
end

section
set_option Elab.async false
open Sys2Proof Sys2Proof.Machine

/-- Settles O27: with no action armed a step is the step alone, a measurement is taken to the state that it finds the servo in, and the
writes that start the servo make the time not valid and then enter a state. -/
theorem timeBaseIsSetAndSteered : Obligations.TimeBaseIsSetAndSteered := by
  unfold Obligations.TimeBaseIsSetAndSteered
  refine ⟨?_, ?_, ?_, ?_, ?_, ?_, ?_, ?_, ?_, ?_, ?_, ?_, ?_, ?_⟩
  · intro v s ha hv harm
    refine Answers.of_write _ (execTimeSet.eq_1 v s) ha (Chip.writeTimeSet_sets hv harm) fun d hd => ?_
    refine ⟨hd.access, hd.written_tb.trans (Chip.stepTo_tb ..), ?_, fun hl hu => ?_⟩
    · rw [Counts, hd.written_rd rfl]
      exact Chip.stepTo_counts ..
    · rw [hd.written_rd rfl]
      exact Chip.stepTo_amount _ _ _ hl hu
  · intro v s ha hv
    refine Answers.of_abort (execTimeSet.eq_1 v s) (a := .range) (m := s.chip) ?_ (by decide) (by decide)
      fun d hd => hd.turnedAway.2
    rw [Chip.gated, ha, Chip.writeTimeSet, hv]
    rfl
  · intro v s ha harm
    refine Answers.of_write _ (execTimeStep.eq_1 v s) ha (Chip.writeTimeStep_steps harm) fun d hd => ?_
    refine ⟨hd.access, hd.written_tb.trans (Chip.stepTo_tb ..), ?_, ?_⟩
    · rw [Counts, hd.written_rd rfl]
      exact Chip.stepTo_counts ..
    · rw [hd.written_rd rfl, Chip.stepTo_amount _ _ _ (toInt_bounds (by decide) v.isLt).1 (toInt_bounds (by decide) v.isLt).2, ofInt_toInt v.isLt]
  · intro s ha
    refine Answers.of_write _ (execTimeSnapshot.eq_1 1 s) ha (Chip.writeTimeSnapshot_one s.chip) fun d hd => ?_
    refine ⟨hd.access, ?_, hd.written_bare.trans (Chip.bare_wrRow ..), hd.written_keeps ((Chip.Keeps.refl _ _).wrRow rfl)⟩
    rw [hd.written_rd rfl, Chip.snapshot_shows]
  · intro v s ha hsrc hst hstep hgood
    have hrates := Chip.measured_acquires_rates (c := s.chip) hstep hgood
    refine Answers.of_write _ (execTimeServoInput.eq_1 v s) ha ((Chip.writeServoInput_takes hsrc hst).trans
      (congrArg (Prod.mk Abort.ok) hrates)) fun d hd => ?_
    obtain ⟨f, hf, ht⟩ := ((s.chip.measured (toInt 64 v.toNat)).servoRate_time)
    have hw := (s.chip.measured (toInt 64 v.toNat)).servoRate_within
    have htime := hd.written_time.trans (congrArg (fun t : TimeSt => { t with good := s.chip.servoGood (toInt 64 v.toNat) }) ht)
    refine ⟨hd.access, ?_, ?_, ?_, ?_, ?_, ?_⟩
    · rw [hd.written_tb]
      exact (hw.tb_eq (by decide +kernel)).trans (Chip.measured_tb ..)
    · rw [hd.written_rd rfl]
      exact (hw.rd (by decide +kernel) (by decide +kernel) ..).trans (Chip.measured_offset v.isLt)
    · rw [htime]
      rfl
    · rw [htime]
      rfl
    · rw [htime]
      exact hf
    · rw [Stays, hd.written_rd rfl]
      exact (hw.rd (by decide +kernel) (by decide +kernel) ..).trans (Chip.measured_rd (by decide) ..)
  · intro v s ha hsrc hst hgood hvalid hstep
    refine Answers.of_write _ (execTimeServoInput.eq_1 v s) ha ((Chip.writeServoInput_takes hsrc hst).trans
      (congrArg (Prod.mk Abort.ok) (Chip.measured_acquires_tracks hstep hgood hvalid))) fun d hd => ?_
    have ht := (s.chip.measured (toInt 64 v.toNat)).tracking_within
    have hr := (s.chip.measured (toInt 64 v.toNat)).tracking.servoRate_within
    obtain ⟨hstate, htrue, hzero⟩ := (s.chip.measured (toInt 64 v.toNat)).tracking_shows
    refine ⟨hd.access, ?_, ?_, ?_, ?_, ?_⟩
    · rw [hd.written_tb, hr.tb_eq (by decide +kernel), ht.tb_eq (by decide +kernel), Chip.measured_tb]
    · rw [hd.written_rd rfl, hr.rd (by decide +kernel) (by decide +kernel), ht.rd (by decide +kernel) (by decide +kernel),
        Chip.measured_offset v.isLt]
    · rw [hd.written_rd rfl, hr.rd (by decide +kernel) (by decide +kernel), hstate]
    · rw [hd.written_rdBool rfl, hr.rdBool (by decide +kernel) (by decide +kernel), htrue]
    · obtain ⟨f, -, hf⟩ := (s.chip.measured (toInt 64 v.toNat)).tracking.servoRate_time
      rw [hd.written_time, hf]
      exact hzero
  · intro v s ha hsrc hst harm hstep hvalid
    refine Answers.of_write _ (execTimeServoInput.eq_1 v s) ha ((Chip.writeServoInput_takes hsrc hst).trans
      (congrArg (Prod.mk Abort.ok) (Chip.measured_acquires_steps harm hstep hvalid))) fun d hd => ?_
    have hw := Chip.stepTo_in (c := s.chip.measured (toInt 64 v.toNat)) (new := s.chip.steppedTb (-toInt 64 v.toNat))
      (amount := -toInt 64 v.toNat) (.refl Chip.stepTo_fx _) (by decide +kernel)
    refine ⟨hd.access, ?_, ?_, ?_, ?_⟩
    · rw [hd.written_tb, Chip.setTime_tb, Chip.stepTo_tb]
    · rw [Counts, hd.written_rd rfl, Chip.rd_setTime]
      exact (Chip.stepTo_counts ..).after (Chip.measured_rd (by decide) ..)
    · rw [Stays, hd.written_rd rfl, Chip.rd_setTime, hw.rd (by decide +kernel) (by decide +kernel), Chip.measured_rd (by decide)]
    · rw [hd.written_time, Chip.setTime_time]
  · intro v s ha hsrc
    refine Answers.of_write s.chip (execTimeServoInput.eq_1 v s) ha (Chip.writeServoInput_ignored hsrc) fun d hd => ?_
    exact ⟨hd.access, hd.bare, hd.written_keeps (.refl _ _)⟩
  · intro v s ha hv hm
    refine Answers.of_write _ (execTimeValidWrite.eq_1 v s) ha (Chip.writeTimeValid_sets hv hm) fun d hd => ?_
    refine ⟨hd.access, ?_⟩
    rw [hd.rdBool _ rfl]
    refine (Chip.setValid_shows _ _).trans (decide_eq_decide.2 ?_)
    exact ⟨fun h => BitVec.eq_of_toNat_eq h, fun h => h ▸ rfl⟩
  · intro v s ha hv hm
    refine Answers.of_abort (execTimeValidWrite.eq_1 v s) (a := .state) (m := s.chip) ?_ (by decide) (by decide)
      fun d hd => hd.turnedAway.2
    rw [Chip.gated, ha]
    exact Chip.writeTimeValid_auto hv hm
  · intro v s ha hv
    refine Answers.of_write _ (execTimeSourceWrite.eq_1 false v s) ha (Chip.writeTimeSource_source hv) fun d hd => ?_
    have hsource : (s.chip.wrDev .TIME_SOURCE v.toNat).rd .TIME_SOURCE = v.toNat := Chip.rd_wrRow_fits v.isLt ..
    refine ⟨hd.access, ?_, ?_, ?_, ?_⟩
    · rw [hd.written_rd rfl]
      exact ((Chip.servoRestart_within _).rd (by decide +kernel) (by decide +kernel) ..).trans hsource
    · rw [hd.written_rdBool rfl]
      exact Chip.servoRestart_invalid _
    · rw [hd.written_time]
      exact Chip.servoRestart_good _
    · rw [hd.written_rd rfl, Chip.servoRestart_state, hsource, Chip.wrDev_eq, Chip.rd_wrRow_reg _ _ _ _ _ _ _ _ (by decide) (by decide)]
      exact if_congr Iff.rfl rfl (if_congr ⟨fun h => BitVec.eq_of_toNat_eq h, fun h => h ▸ rfl⟩ rfl rfl)
  · intro v s ha hv
    obtain rfl | rfl : v = 0 ∨ v = 1 := by
      rcases Nat.le_one_iff_eq_zero_or_eq_one.1 hv with h | h
      · exact .inl (BitVec.eq_of_toNat_eq h)
      · exact .inr (BitVec.eq_of_toNat_eq h)
    · refine Answers.of_write _ (execTimeSourceWrite.eq_1 true 0 s) ha (Chip.writeTimeSource_manual s.chip) fun d hd => ?_
      have hmode : (s.chip.wrDev .TIME_SERVO_MODE 0).rd .TIME_SERVO_MODE = 0 := Chip.rd_wrRow_fits (by decide) ..
      refine ⟨hd.access, ?_, ?_, fun _ => ?_, fun h => absurd h (by decide)⟩
      · rw [hd.written_rd rfl, (Chip.servoRestart_within _).rd (by decide +kernel) (by decide +kernel), hmode]
        rfl
      · rw [hd.written_rdBool rfl, Chip.servoRestart_invalid]
      · rw [hd.written_rd rfl, Chip.servoRestart_state, if_pos hmode]
    · refine Answers.of_write _ (execTimeSourceWrite.eq_1 true 1 s) ha (Chip.writeTimeSource_auto s.chip) fun d hd => ?_
      have hmode : (s.chip.wrDev .TIME_SERVO_MODE 1).rd .TIME_SERVO_MODE = 1 := Chip.rd_wrRow_fits (by decide) ..
      obtain ⟨hm, hv, hs⟩ := (s.chip.wrDev .TIME_SERVO_MODE 1).auto_starts (s.chip.rd .TIME_SERVO_STATE = 4) _ rfl
      refine ⟨hd.access, ?_, ?_, fun h => absurd h (by decide), fun _ h => ?_⟩
      · rw [hd.written_rd rfl, hm, hmode]
        rfl
      · rw [hd.written_rdBool rfl, hv]
      · rw [hd.written_rd rfl, hs h]
  · intro s hs
    refine Answers.of_run (execServoInputTimeout.eq_1 s) fun d hd => ?_
    have htrack : s.chip.servoTimeout = s.chip.servoEnter 3 := if_pos hs
    rw [htrack] at hd
    rw [hd.rd _ rfl, hd.time_eq]
    exact ⟨Chip.servoEnter_state _ _ (by decide), (Chip.servoEnter_counts ..).1, (Chip.servoEnter_counts ..).2⟩
  · intro s hs
    refine Answers.of_runs ⟨_, execHoldoverValidExpire.eq_1 s, if_pos hs⟩ fun d hd => ⟨?_, ?_⟩
    · rw [hd.rdBool _ rfl]
      exact Chip.setValid_shows ..
    · rw [Stays, hd.rd _ rfl]
      exact (Chip.setValid_within ..).rd (by decide +kernel) (by decide +kernel) ..

end

section
/-!
PROOFS. The root's discipline and the time pins (R210 to R213).
-/
set_option Elab.async false
namespace Sys2Proof.Machine

/-- Of the parts beside the dictionary only the servo's record has changed. -/
def Chip.OnlyTime (c d : Chip) : Prop := d.bare = { c.bare with time := d.time }

section
variable {b c d : Chip}

theorem Chip.OnlyTime.refl (c : Chip) : c.OnlyTime c := rfl

theorem Chip.OnlyTime.setTime (h : b.OnlyTime c) (f : TimeSt → TimeSt) : b.OnlyTime (c.setTime f) := by
  change ({ c.bare with time := f c.time } : Chip) = _
  rw [h]
  rfl

theorem Chip.OnlyTime.wrRow (h : b.OnlyTime c) (r : Reg) (i row v : Nat) : b.OnlyTime (c.wrRow r i row v) := by
  rw [Chip.OnlyTime, Chip.bare_wrRow, h, Chip.wrRow_time]

theorem Chip.OnlyTime.setBit (h : b.OnlyTime c) (r : Reg) (i k : Nat) (x : Bool) : b.OnlyTime (c.setBit r i k x) := h.wrRow ..

theorem Chip.OnlyTime.raise (h : b.OnlyTime c) (n : EvName) (i k : Nat) : b.OnlyTime (c.raise n i k) := h

theorem Chip.OnlyTime.ite {p : Prop} [Decidable p] (h : b.OnlyTime c) (g : b.OnlyTime d) : b.OnlyTime (if p then c else d) := by
  split <;> assumption

theorem EvFrame.onlyTime (h : EvFrame c d) (ho : b.OnlyTime c) : b.OnlyTime d := by
  rw [Chip.OnlyTime, h.bare, h.time_eq, ho]

theorem Chip.Keeps.setTime {P : Key → Prop} (h : b.Keeps c P) (f : TimeSt → TimeSt) : b.Keeps (c.setTime f) P := h

theorem Chip.Keeps.setBit {P : Key → Prop} (h : b.Keeps c P) {r : Reg} {i : Nat} (hP : P ⟨r, i, 0⟩) (k : Nat) (x : Bool) :
    b.Keeps (c.setBit r i k x) P := h.wrRow hP

theorem Chip.Keeps.ite {P : Key → Prop} {p : Prop} [Decidable p] (h : b.Keeps c P) (g : b.Keeps d P) : b.Keeps (if p then c else d) P := by
  split <;> assumption

end

/-! Holdover (R210). -/

section
variable {b : Chip} (c : Chip)

/-- The trim's mean is held, and the mark of holdover set. -/
def Chip.trimHeld : Chip := (c.setTime fun t => { t with held := c.trimMean, srcFrom := none }).setBit .ROOT_STATUS 0 1 true

theorem Chip.trimHold_eq : c.trimHold =
    if c.rdBit .ROOT_STATUS 1 then c.setTime fun t => { t with srcFrom := none }
    else if c.trimHeld.rd .ROOT_DISCIPLINE = 1 then c.trimHeld else c.trimHeld.raise .trimHoldover 0 := rfl

theorem Chip.trimHeld_bit (j : Nat) (hj : j < 16) : c.trimHeld.rdBit .ROOT_STATUS j = if j = 1 then true else c.rdBit .ROOT_STATUS j :=
  Chip.rdBit_setBit _ _ _ _ _ _ hj

/-- In holdover its mark stands; the other marks stay. -/
theorem Chip.trimHold_bit (j : Nat) (hj : j < 16) : c.trimHold.rdBit .ROOT_STATUS j = if j = 1 then true else c.rdBit .ROOT_STATUS j := by
  rw [Chip.trimHold_eq]
  split
  · next h =>
    split
    · next hj => exact hj ▸ h
    · rfl
  · split <;> exact c.trimHeld_bit j hj

theorem Chip.trimHold_held (h : c.rdBit .ROOT_STATUS 1 = false) : c.trimHold.time.held = c.trimMean := by
  have ht : c.trimHeld.time.held = c.trimMean := congrArg TimeSt.held (Chip.wrRow_time ..)
  rw [Chip.trimHold_eq, if_neg (by simp [h])]
  split <;> exact ht

theorem Chip.OnlyTime.trimHold {c : Chip} (h : b.OnlyTime c) : b.OnlyTime c.trimHold := by
  have hheld : b.OnlyTime c.trimHeld := (h.setTime _).setBit ..
  exact (h.setTime _).ite (hheld.ite (hheld.raise ..))

theorem Chip.Keeps.trimHold {c : Chip} {P : Key → Prop} (h : b.Keeps c P) (hP : P ⟨.ROOT_STATUS, 0, 0⟩) : b.Keeps c.trimHold P := by
  have hheld : b.Keeps c.trimHeld P := (h.setTime _).setBit hP _ _
  exact (h.setTime _).ite (hheld.ite (hheld.raise _ _ _))

end

/-! The discipline (R210). -/

section
variable (c : Chip)

/-- `ROOT_DISCIPLINE` is written, and holdover ended. -/
def Chip.disciplined (v : Nat) : Chip := (c.wrDev .ROOT_DISCIPLINE v).setBit .ROOT_STATUS 0 1 false

theorem Chip.writeDiscipline_ok {v : Nat} (hv : v ≤ 3) : c.writeDiscipline v =
    (.ok, if (c.disciplined v).trimSource then c.disciplined v else (c.disciplined v).trimHold) := if_neg (Nat.not_lt.2 hv)

theorem Chip.disciplined_rd {v : Nat} (hv : v ≤ 3) : (c.disciplined v).rd .ROOT_DISCIPLINE = v := by
  rw [Chip.disciplined, Chip.setBit_eq, Chip.rd_wrRow_reg _ _ _ _ _ _ _ _ (by decide) (by decide)]
  exact Chip.rd_wrRow_fits (hv.trans_lt (by decide)) ..

theorem Chip.trimSource_free {c : Chip} (h : c.rd .ROOT_DISCIPLINE = 0) : c.trimSource = true := by
  unfold Chip.trimSource
  split
  · rfl
  · next h' => exact absurd (h.symm.trans h') (by decide)
  · next h' => exact absurd (h.symm.trans h') (by decide)
  · next h' _ _ => exact absurd h h'

theorem Chip.trimBack_resumes {c : Chip} {r : Nat} (hb : c.rdBit .ROOT_STATUS 1 = true) (hs : c.trimSource = true)
    (hf : c.time.srcFrom = some r) (hr : r + rootUs 10000000 ≤ c.root) :
    c.trimBack = (c.setTime fun t => { t with srcFrom := none }).setBit .ROOT_STATUS 0 1 false := by
  simp [Chip.trimBack, hf, hb, hs, hr]

/-! REF_IN (R211). -/

/-- The bits that show REF_IN lost or present. -/
def Chip.refShown (present : Bool) : Chip := (c.setBit .ROOT_STATUS 0 2 present).setBit .ROOT_STATUS 0 3 !present

theorem Chip.refShown_bit (present : Bool) (j : Nat) (hj : j < 16) : (c.refShown present).rdBit .ROOT_STATUS j =
    if j = 3 then !present else if j = 2 then present else c.rdBit .ROOT_STATUS j := by
  rw [Chip.refShown, Chip.rdBit_setBit _ _ _ _ _ _ hj, Chip.rdBit_setBit _ _ _ _ _ _ hj]

theorem Chip.refLost_eq : c.refLost =
    if c.rd .ROOT_DISCIPLINE = 2 then ((c.refShown false).raise .refInLost 0).trimHold else (c.refShown false).raise .refInLost 0 := by
  have hd : ((c.refShown false).raise .refInLost 0).rd .ROOT_DISCIPLINE = c.rd .ROOT_DISCIPLINE := by
    simp [Chip.refShown, Chip.setBit_eq]
  rw [← hd]
  rfl

/-- The trim's mean does not rest on the marks of REF_IN. -/
theorem Chip.trimMean_refShown (present : Bool) : (c.refShown present).trimMean = c.trimMean := by
  have ht : (c.refShown present).time = c.time := by simp [Chip.refShown, Chip.setBit_eq]
  have hr : (c.refShown present).root = c.root := by simp [Chip.refShown, Chip.setBit_eq]
  have hm : (c.refShown present).rdInt .ROOT_TRIM = c.rdInt .ROOT_TRIM := by simp [Chip.rdInt, Chip.refShown, Chip.setBit_eq]
  rw [Chip.trimMean, Chip.trimMean, ht, hr, hm]

/-! The pulse pins (R212, R213). -/

/-- The time of a PPS_IN edge `sub` root edges after the present D33 edge, less the delay of the pin (R212). -/
def Chip.ppsStamp (sub : Nat) : Nat :=
  (((c.tb : Int) + sub * c.inc1 - idiv (c.rdInt .PPS_IN_DELAY * 2 ^ 48) 1000) % (tbCycle : Int)).toNat

/-- An edge is stamped with a `TIME96` value and counted. -/
def Chip.ppsStamped (v : Nat) : Chip := (c.wrDev .PPS_IN_TIME v).inc .PPS_IN_COUNT

/-- Here the definition is put in place as a function: comparing one of its values with its unfolded form would have the kernel
evaluate the stamp, a number of 96 bits, to learn whether the write changes the servo's record. -/
theorem Chip.ppsIn_first {c : Chip} (st : Stepper) (sub : Nat) (h : c.time.ppsLast = none) : c.ppsIn st sub =
    (c.ppsStamped (time96 (c.ppsStamp sub))).setTime fun s => { s with ppsLast := some (c.ppsStamp sub) } := by
  have hlast : ∀ v, ((c.wrDev .PPS_IN_TIME v).inc .PPS_IN_COUNT).time.ppsLast = none := fun v => by
    rw [← h]
    simp [Chip.inc_eq, Chip.wrDev_eq]
  generalize hF : @Chip.ppsIn = F
  delta Chip.ppsIn at hF
  subst hF
  beta_reduce
  extract_lets -lift +onlyGivenNames t0 t
  have ht : t = c.ppsStamp sub := rfl
  clear_value t
  have hd := hlast (time96 t)
  generalize hstamped : (c.wrDev .PPS_IN_TIME (time96 t)).inc .PPS_IN_COUNT = d at hd ⊢
  extract_lets -lift +onlyGivenNames e
  have he : e = d := rfl
  clear_value e
  subst he
  rw [hd, ← hstamped, ht, Chip.ppsStamped]

theorem Chip.ppsStamped_count (v : Nat) : Counts c (c.ppsStamped v) .PPS_IN_COUNT 0 1 := by
  rw [Counts, Chip.ppsStamped, Chip.inc_eq, Chip.rd_wrRow_same, Chip.wrDev_eq, Chip.rd_wrRow_reg _ _ _ _ _ _ _ _ (by decide) (by decide)]

theorem Chip.ppsStamped_time (v : Nat) : (c.ppsStamped v).rd .PPS_IN_TIME = v % 2 ^ 96 := by
  rw [Chip.ppsStamped, Chip.inc_eq, Chip.rd_wrRow_reg _ _ _ _ _ _ _ _ (by decide) (by decide), Chip.wrDev_eq]
  exact Chip.rd_wrRow_width rfl c 0 0 _

theorem Chip.ppsBegin_pulses {c : Chip} {r : Nat} (hr : c.time.ppsDue = some r)
    (hm : c.rd .PPS_OUT_MODE = 2 ∨ (c.rd .PPS_OUT_MODE = 1 ∧ c.rdBool .TIME_VALID = true)) :
    c.ppsBegin = (c.setTime fun t => { t with ppsDue := none }).setTime fun t =>
      { t with ppsOut := true, ppsEnd := r + 16000 * c.rd .PPS_OUT_WIDTH } := by
  have hcond : (c.rd .PPS_OUT_MODE = 2 || (c.rd .PPS_OUT_MODE = 1 && c.rdBool .TIME_VALID)) = true := by simpa using hm
  rw [Chip.ppsBegin, hr]
  exact if_pos hcond

end

end Sys2Proof.Machine
end

section
set_option Elab.async false
open Sys2Proof Sys2Proof.Machine

/-- Settles O28: the discipline, REF_IN and the pulse pins act on the marks of `ROOT_STATUS` and on the servo's record, and on no other
part of the block. -/
theorem timePinsAndRootDiscipline : Obligations.TimePinsAndRootDiscipline := by
  unfold Obligations.TimePinsAndRootDiscipline
  refine ⟨?_, ?_, ?_, ?_, ?_, ?_, ?_, ?_, ?_⟩
  · intro v s ha hv
    refine Answers.of_write _ (execRootDisciplineWrite.eq_1 v s) ha (s.chip.writeDiscipline_ok hv) fun d hd => ?_
    have honly : s.chip.OnlyTime (s.chip.disciplined v.toNat) := ((Chip.OnlyTime.refl _).wrRow ..).setBit ..
    have hkeeps : s.chip.Keeps (s.chip.disciplined v.toNat) fun k => k = ⟨.ROOT_DISCIPLINE, 0, 0⟩ ∨ k = ⟨.ROOT_STATUS, 0, 0⟩ :=
      ((Chip.Keeps.refl _ _).wrRow (.inl rfl)).setBit (.inr rfl) _ _
    refine ⟨hd.access, ?_, fun h0 => ?_, hd.onlyTime (honly.ite honly.trimHold), hd.written_keeps (hkeeps.ite (hkeeps.trimHold (.inr rfl)))⟩
    · rw [hd.written_rd rfl, Chip.rd_ite, (Chip.trimHold_in (.refl Chip.trimHold_fx _) (by decide +kernel)).rd (by decide +kernel)
        (by decide +kernel), ite_self, Chip.disciplined_rd _ hv]
    · have hfree : (s.chip.disciplined v.toNat).trimSource = true := Chip.trimSource_free ((Chip.disciplined_rd _ hv).trans (by rw [h0]; rfl))
      rw [hd.written_rdBit rfl, if_pos hfree]
      exact Chip.rdBit_setBit_same _ _ _ _ _ (by decide)
  · intro v s ha hv
    refine Answers.of_abort (execRootDisciplineWrite.eq_1 v s) (a := .range) (m := s.chip) ?_ (by decide) (by decide)
      fun d hd => hd.turnedAway.2
    rw [Chip.gated, ha]
    exact if_pos hv
  · intro r s hb hs hf hr
    refine Answers.of_runs ⟨_, execTrimResume.eq_1 s, Chip.trimBack_resumes hb hs hf hr⟩ fun d hd => ?_
    refine ⟨?_, ?_, hd.onlyTime (((Chip.OnlyTime.refl _).setTime _).setBit ..), hd.keeps (((Chip.Keeps.refl _ _).setTime _).setBit (by rfl) _ _)⟩
    · rw [hd.rdBit _ rfl, Chip.rdBit_setBit_same _ _ _ _ _ (by decide)]
    · rw [hd.time_eq, Chip.setBit_eq, Chip.wrRow_time, Chip.setTime_time]
  · intro s hr
    refine Answers.of_runs ⟨_, execRefInLost.eq_1 s, if_pos hr⟩ fun d hd => ?_
    have honly : s.chip.OnlyTime ((s.chip.refShown false).raise .refInLost 0) := (((Chip.OnlyTime.refl _).setBit ..).setBit ..).raise ..
    have hkeeps : s.chip.Keeps ((s.chip.refShown false).raise .refInLost 0) (fun k => k = ⟨.ROOT_STATUS, 0, 0⟩) :=
      (((Chip.Keeps.refl _ _).setBit (by rfl) _ _).setBit (by rfl) _ _).raise _ _ _
    have hbit : ∀ j < 16, j ≠ 1 → s.chip.refLost.rdBit .ROOT_STATUS j = (s.chip.refShown false).rdBit .ROOT_STATUS j := fun j hj h1 => by
      rw [Chip.refLost_eq]
      split
      · exact (Chip.trimHold_bit _ j hj).trans (if_neg h1)
      · rfl
    refine ⟨?_, ?_, fun h2 => ?_, fun h2 h1 => ?_, hd.onlyTime ?_, hd.keeps ?_⟩
    · rw [hd.rdBit _ rfl, hbit 2 (by decide) (by decide), Chip.refShown_bit _ _ _ (by decide)]
      rfl
    · rw [hd.rdBit _ rfl, hbit 3 (by decide) (by decide), Chip.refShown_bit _ _ _ (by decide)]
      rfl
    · rw [hd.rdBit _ rfl, Chip.refLost_eq, if_pos h2]
      exact Chip.trimHold_bit _ 1 (by decide)
    · rw [hd.time_eq, Chip.refLost_eq, if_pos h2, ← Chip.trimMean_refShown _ false]
      exact Chip.trimHold_held _ ((Chip.refShown_bit _ _ 1 (by decide)).trans h1)
    · rw [Chip.refLost_eq]
      exact honly.trimHold.ite honly
    · rw [Chip.refLost_eq]
      exact (hkeeps.trimHold rfl).ite hkeeps
  · intro s hr
    refine Answers.of_runs (c := s.chip.refShown true) ⟨_, execRefInPresent.eq_1 s, if_pos hr⟩ fun d hd => ?_
    refine ⟨?_, ?_, hd.bare.trans ((Chip.bare_wrRow ..).trans (Chip.bare_wrRow ..)), hd.keeps (((Chip.Keeps.refl _ _).setBit (by rfl) _ _).setBit (by rfl) _ _)⟩
    · rw [hd.rdBit _ rfl, Chip.refShown_bit _ _ _ (by decide)]
      rfl
    · rw [hd.rdBit _ rfl, Chip.refShown_bit _ _ _ (by decide)]
      rfl
  · intro b sub s t hr hb hl
    have hedge : (s.chip.pwr.rootOn && decide ((s.chip.rd .PPS_IN_POLARITY = 1) = (b = true)) && !false) = true := by
      simp [hr, hb]
    refine Answers.of_runs ⟨_, execPpsInEdge.eq_1 ⟨b, false, sub⟩ s, (if_pos hedge).trans (Chip.ppsIn_first _ _ hl)⟩ fun d hd => ?_
    have honly : s.chip.OnlyTime (s.chip.ppsStamped (time96 t)) := ((Chip.OnlyTime.refl _).wrRow ..).wrRow ..
    refine ⟨?_, ?_, ?_, hd.onlyTime (honly.setTime _), hd.keeps ((((Chip.Keeps.refl _ _).wrRow (.inr rfl)).wrRow (.inl rfl)).setTime _)⟩
    · rw [Counts, hd.rd _ rfl, Chip.rd_setTime, Chip.ppsStamped_count]
    · rw [hd.rd _ rfl, Chip.rd_setTime, Chip.ppsStamped_time]
      rfl
    · rw [hd.time_eq, Chip.setTime_time]
      rfl
  · intro b sub s
    have hshort : ¬ (s.chip.pwr.rootOn && decide ((s.chip.rd .PPS_IN_POLARITY = 1) = (b = true)) && !true) = true := by simp
    refine Answers.of_runs ⟨_, execPpsInEdge.eq_1 ⟨b, true, sub⟩ s, if_neg hshort⟩ fun d hd => ?_
    exact ⟨hd.bare, hd.keeps (.refl _ _)⟩
  · intro r s hr hdue hm
    refine Answers.of_runs ⟨_, execPpsOutPulse.eq_1 s, (if_pos hr).trans (Chip.ppsBegin_pulses hdue hm)⟩ fun d hd => ?_
    refine ⟨?_, hd.onlyTime (((Chip.OnlyTime.refl _).setTime _).setTime _), hd.keeps (((Chip.Keeps.refl _ _).setTime _).setTime _)⟩
    rw [hd.time_eq, Chip.setTime_time, Chip.setTime_time]
  · intro s he
    refine Answers.of_runs ⟨_, execPpsOutEnd.eq_1 s, if_neg (Nat.not_lt.2 he)⟩ fun d hd => ?_
    refine ⟨?_, hd.onlyTime ((Chip.OnlyTime.refl _).setTime _), hd.keeps ((Chip.Keeps.refl _ _).setTime _)⟩
    rw [hd.time_eq, Chip.setTime_time]

end

section
/-!
PROOFS. Rows of `TA_TABLE` (R222 to R225): what a post leaves of them, and how one that is due runs.
-/
set_option Elab.async false
namespace Sys2Proof.Machine

/-- What a write leaves rests on what it does to the block as it is. -/
theorem State.runWr_congr {s : State} {f g : Chip → Abort × Chip} (h : f s.chip = g s.chip) : s.runWr f = s.runWr g := by
  simp only [State.runWr, State.run, h]

/-- The domain check rests on the power management's record and on the start. -/
theorem Chip.asleep_congr {c d : Chip} (hb : d.boot = c.boot) (hp : d.pwr = c.pwr) (r : Reg) (i : Nat) : d.asleep r i = c.asleep r i := by
  unfold Chip.asleep Chip.tileRuns Chip.tile
  rw [hb, hp]

section
variable {c : Chip} {r : Nat}

/-- A field of a row does not rest on another object. -/
theorem Chip.rdField_wrRow_reg {r r' : Reg} (h : r' ≠ r) (hq : r ≠ .QUAD_FORMATION) (c : Chip) (i row v i' row' o n : Nat) :
    (c.wrRow r i row v).rdField r' i' row' o n = c.rdField r' i' row' o n :=
  congrArg (rowField r'.info.octets · o n) (Chip.rd_wrRow_reg _ _ _ _ _ _ _ _ h hq)

theorem Chip.rdField_raise (c : Chip) (n : EvName) (j k : Nat) (r : Reg) (i row o m : Nat) :
    (c.raise n j k).rdField r i row o m = c.rdField r i row o m := rfl

theorem Chip.bare_raise (c : Chip) (n : EvName) (j k : Nat) : (c.raise n j k).bare = c.bare := rfl

theorem Chip.Keeps.wrField {b c : Chip} {P : Key → Prop} (h : b.Keeps c P) {r : Reg} {i row : Nat} (hP : P ⟨r, i, row⟩) (o n x : Nat) :
    b.Keeps (c.wrField r i row o n x) P := h.wrRow hP

theorem EvFrame.written_rdField {d : Chip} {a : Access} (h : EvFrame { c with access := a } d) {r : Reg} (hr : r.ofEvents = false)
    (i row o n : Nat) : d.rdField r i row o n = c.rdField r i row o n := h.rdField hr i row o n

/-! Posting a row. -/

/-- The octets of a row that the device does not set itself. -/
def taPlain (o n : Nat) : Prop := o + n ≤ 13 ∨ (16 ≤ o ∧ o + n ≤ 27) ∨ (28 ≤ o ∧ o + n ≤ 40)

theorem rowField_taStored {o n : Nat} (hn : 0 < n) (h : taPlain o n) (v : Nat) (fabric : Bool) :
    rowField 40 (taStored v fabric) o n = rowField 40 v o n := by
  unfold taPlain at h
  rw [taStored, rowField_setRowField_other (by decide) (by decide) hn (by omega) (by omega),
    rowField_setRowField_other (by decide) (by decide) hn (by omega) (by omega),
    rowField_setRowField_other (by decide) (by decide) hn (by omega) (by omega)]

theorem taStored_state (v : Nat) (fabric : Bool) : rowField 40 (taStored v fabric) 13 1 = 0 := by
  rw [taStored, rowField_setRowField_other (by decide) (by decide) (by decide) (by decide) (by decide),
    rowField_setRowField_other (by decide) (by decide) (by decide) (by decide) (by decide),
    rowField_setRowField_same (by decide) (by decide)]
  rfl

/-- The block with a row posted, before the row is judged. -/
def Chip.taPosted (c : Chip) (row v : Nat) (path : Path) (src : Nat) : Chip :=
  { c.wrRow .TA_TABLE 0 row (taStored v (path = .wale)) with cfg := { c.cfg with
      posters := if path = .wale then c.cfg.posters.set row src 0 else c.cfg.posters.del row } }

section
variable {row v src : Nat} {path : Path}

theorem Chip.taPosted_field {o n : Nat} (hn : 0 < n) (h : taPlain o n) :
    (c.taPosted row v path src).rdField .TA_TABLE 0 row o n = rowField 40 v o n := by
  rw [← rowField_taStored hn h v (path = .wale)]
  unfold taPlain at h
  exact Chip.rdField_wrRow_same hn (show o + n ≤ 40 by omega) _

theorem Chip.taPosted_rd {r : Reg} (h : r ≠ .TA_TABLE) (i j : Nat) : (c.taPosted row v path src).rd r i j = c.rd r i j :=
  Chip.rd_wrRow_reg _ _ _ _ _ _ _ _ h (by decide)

theorem Chip.taPosted_keeps : c.Keeps (c.taPosted row v path src) fun k => k = ⟨.TA_TABLE, 0, row⟩ :=
  (Chip.Keeps.refl _ _).wrRow (by rfl)

theorem Chip.writeTa_mark (hf : taFieldsOk v = true) (ha : c.taIsArmed row = false) (hk : rowField 40 v 12 1 = 3) :
    c.writeTa row v path src = (.ok, (c.taPosted row v path src).taJudge stepAll row) := by
  simp [Chip.writeTa, hf, ha, hk, Chip.taKind, Chip.taPosted]

theorem Chip.writeTa_none (hf : taFieldsOk v = true) (ha : c.taIsArmed row = false) (hk : rowField 40 v 12 1 = 0) :
    c.writeTa row v path src = (.ok, c.wrRow .TA_TABLE 0 row (taStored v (path = .wale))) := by
  simp [Chip.writeTa, hf, ha, hk]

end

theorem execTaPost_gated {row : Nat} {path : Path} {s : State} (hr : row < 256)
    (hp : s.chip.permits path 0 Reg.TA_TABLE.info.idx Reg.TA_TABLE.info.sub = true) (v : BitVec 320) (src : BitVec 8) :
    execTaPost row v path src s = s.runWr fun c => c.gated .TA_TABLE 0 fun c => c.writeTa row v.toNat path src.toNat := by
  refine State.runWr_congr ?_
  rw [if_neg (Nat.not_le.2 hr), hp]
  rfl

theorem execTaNone_gated {row : Nat} (hr : row < 256) (v : BitVec 320) (s : State) :
    execTaNone row v s = s.runWr fun c => c.gated .TA_TABLE 0 fun c => c.writeTa row (setRowField 40 v.toNat 12 1 0) .host 0 :=
  State.runWr_congr (Chip.gatedRow_of_lt (r := .TA_TABLE) hr ..)

/-! Judging a row. -/

theorem Chip.taJudge_future (st : Stepper) (h : c.tb < c.taTime r) : c.taJudge st r = c.wrField .TA_TABLE 0 r 13 1 taArmedState :=
  if_pos h

theorem Chip.taJudge_late (st : Stepper) (ht : c.taTime r ≤ c.tb) (h : c.taWindow r < c.tb - c.taTime r) :
    c.taJudge st r = (c.taRefuse r 1).taTell r 3 1 :=
  (if_neg (Nat.not_lt.2 ht)).trans (if_neg (Nat.not_le.2 h))

/-- Only a commit's poster hears how its row ended. -/
theorem Chip.taTell_silent (h : c.rdField .TA_TABLE 0 r 12 1 ≠ 2) (state cause : Nat) : c.taTell r state cause = c := if_neg h

/-- A row as it ends refused. -/
def Chip.taEnded (c : Chip) (r cause : Nat) : Chip := (c.wrField .TA_TABLE 0 r 13 1 taRefused).wrField .TA_TABLE 0 r 27 1 cause

theorem Chip.taEnded_field {o n : Nat} (hn : 0 < n) (h : taPlain o n) (cause : Nat) :
    (c.taEnded r cause).rdField .TA_TABLE 0 r o n = c.rdField .TA_TABLE 0 r o n := by
  unfold taPlain at h
  have ho : o + n ≤ Reg.TA_TABLE.info.octets := show o + n ≤ 40 by omega
  rw [Chip.taEnded, Chip.rdField_wrField_other (by decide) (by decide) hn ho (by omega),
    Chip.rdField_wrField_other (by decide) (by decide) hn ho (by omega)]

theorem Chip.taRefuse_eq (cause : Nat) : c.taRefuse r cause =
    ((c.taEnded r cause).inc .TA_REFUSED_COUNT).raise .taRefused 0 ((c.taEnded r cause).taTag r) := rfl

theorem Chip.taRefuse_rdField (cause o n : Nat) :
    (c.taRefuse r cause).rdField .TA_TABLE 0 r o n = (c.taEnded r cause).rdField .TA_TABLE 0 r o n := by
  rw [Chip.taRefuse_eq, Chip.rdField_raise, Chip.inc_eq, Chip.rdField_wrRow_reg (by decide) (by decide)]

theorem Chip.taRefuse_count (cause : Nat) : Counts c (c.taRefuse r cause) .TA_REFUSED_COUNT 0 1 := by
  have hrow : (c.taEnded r cause).rd .TA_REFUSED_COUNT = c.rd .TA_REFUSED_COUNT := by
    rw [Chip.taEnded, Chip.wrField_eq, Chip.rd_wrRow_reg _ _ _ _ _ _ _ _ (by decide) (by decide), Chip.wrField_eq,
      Chip.rd_wrRow_reg _ _ _ _ _ _ _ _ (by decide) (by decide)]
  rw [Counts, Chip.taRefuse_eq, Chip.rd_raise, Chip.inc_eq, Chip.rd_wrRow_same, hrow]

theorem Chip.taRefuse_state (cause : Nat) : (c.taRefuse r cause).rdField .TA_TABLE 0 r 13 1 = 4 := by
  rw [Chip.taRefuse_rdField, Chip.taEnded, Chip.rdField_wrField_other (by decide) (by decide) (by decide) (by decide) (by decide),
    Chip.rdField_wrField_same (by decide) (by decide)]
  rfl

theorem Chip.taRefuse_cause (cause : Nat) : (c.taRefuse r cause).rdField .TA_TABLE 0 r 27 1 = cause % 256 := by
  rw [Chip.taRefuse_rdField, Chip.taEnded, Chip.rdField_wrField_same (by decide) (by decide)]
  rfl

theorem Chip.taRefuse_silent (cause : Nat) (h : c.rdField .TA_TABLE 0 r 12 1 ≠ 2) (state x : Nat) :
    (c.taRefuse r cause).taTell r state x = c.taRefuse r cause := by
  refine Chip.taTell_silent ?_ ..
  rwa [Chip.taRefuse_rdField, Chip.taEnded_field (by decide) (.inl (by decide))]

/-! Running a row. -/

/-- A row as it is marked, in time, before it acts. -/
def Chip.taBegun (c : Chip) (r : Nat) : Chip :=
  (c.wrField .TA_TABLE 0 r 14 2 (withBit (withBit (c.rdField .TA_TABLE 0 r 14 2) 0 false) 1 false)).wrField .TA_TABLE 0 r 13 1 taDone

theorem Chip.taBegun_field {o n : Nat} (hn : 0 < n) (h : o + n ≤ 13 ∨ 16 ≤ o ∧ o + n ≤ 40) :
    (c.taBegun r).rdField .TA_TABLE 0 r o n = c.rdField .TA_TABLE 0 r o n := by
  have ho : o + n ≤ Reg.TA_TABLE.info.octets := show o + n ≤ 40 by omega
  rw [Chip.taBegun, Chip.rdField_wrField_other (by decide) (by decide) hn ho (by omega),
    Chip.rdField_wrField_other (by decide) (by decide) hn ho (by omega)]

theorem Chip.taBegun_state : (c.taBegun r).rdField .TA_TABLE 0 r 13 1 = 2 := by
  rw [Chip.taBegun, Chip.rdField_wrField_same (by decide) (by decide)]
  rfl

theorem Chip.taBegun_bare : (c.taBegun r).bare = c.bare := (Chip.bare_wrRow ..).trans (Chip.bare_wrRow ..)

theorem Chip.taBegun_keeps : c.Keeps (c.taBegun r) fun k => k = ⟨.TA_TABLE, 0, r⟩ :=
  ((Chip.Keeps.refl _ _).wrRow (by rfl)).wrRow (by rfl)

theorem Chip.taBegun_within : Within (.of [] [.TA_TABLE]) c (c.taBegun r) :=
  ((Within.refl _ c).wrRow (by decide +kernel)).wrRow (by decide +kernel)

/-- A row that does not want a valid time, or has one, runs when its time has come. -/
theorem Chip.taRow_runs {kind : Nat} {d : Chip} (hroot : c.pwr.rootOn = true) (hact : c.pwr.state = .active) (harm : c.taIsArmed r = true)
    (ht : c.taTime r ≤ c.tb) (hvalid : (c.rdField .TA_TABLE 0 r 14 2).testBit 3 = false ∨ c.rdBool .TIME_VALID = true)
    (hkind : c.rdField .TA_TABLE 0 r 12 1 = kind) (hok : (c.taBegun r).taAct stepAll r = (.ok, d)) :
    c.taRow r kind = (d.raise .taDone 0 (c.taTag r)).taTell r 1 0 := by
  have hdue : (c.taIsArmed r && decide (c.taTime r ≤ c.tb)) = true := by simp [harm, ht]
  have hrow : (c.pwr.rootOn && decide (c.pwr.state = .active) && decide (c.rdField .TA_TABLE 0 r 12 1 = kind)) = true := by
    simp [hroot, hact, hkind]
  have hgo : ¬ ((c.rdField .TA_TABLE 0 r 14 2).testBit 3 && !c.rdBool .TIME_VALID) = true := by
    rcases hvalid with h | h <;> simp [h]
  refine (if_pos hrow).trans ((if_pos hdue).trans ((if_neg hgo).trans ?_))
  generalize stepAll = st at hok
  change (match (c.taBegun r).taAct st r with | (.ok, c') => _ | (a, c') => _) = _
  rw [hok]
  rfl

theorem Chip.taAct_mark (st : Stepper) (h : c.rdField .TA_TABLE 0 r 12 1 = 3) : c.taAct st r = (.ok, c.raise .taMark 0 (c.taTag r)) := by
  rw [Chip.taAct, h]
  rfl

end

/-! A timed write of `DOWNSHIFT_ENABLE`. -/

theorem Chip.writeBase_downshiftEnable {v : Nat} (hv : v ≤ 1) (c : Chip) (st : Stepper) (i : Nat) :
    c.writeBase st .DOWNSHIFT_ENABLE i 0 v = (.ok, c.wrRow .DOWNSHIFT_ENABLE i 0 v) := by
  have hin : Reg.DOWNSHIFT_ENABLE.inRange v = true :=
    (Reg.inRange_upTo (n := 1) rfl rfl (by decide) v).trans (decide_eq_true hv)
  have hstore : c.writeBase st .DOWNSHIFT_ENABLE i 0 v = c.store .DOWNSHIFT_ENABLE i 0 v := if_neg (by decide)
  rw [hstore, Chip.store, hin, Chip.storedValue_plain rfl (by decide) rfl]
  rfl

theorem Chip.taEffect_downshiftEnable {v : Nat} (hv : v ≤ 1) (c : Chip) (st : Stepper) (i : Nat) :
    c.taEffect st 0 .DOWNSHIFT_ENABLE i v = (.ok, c.wrRow .DOWNSHIFT_ENABLE i 0 v) := by
  have hfits : v % 2 ^ Reg.DOWNSHIFT_ENABLE.width = v := Nat.mod_eq_of_lt (hv.trans_lt (by decide))
  rw [← Chip.writeBase_downshiftEnable hv c st i]
  unfold Chip.taEffect
  rw [hfits]
  rfl

theorem Chip.taAct_downshiftEnable {c : Chip} {r i : Nat} (st : Stepper) (hk : c.rdField .TA_TABLE 0 r 12 1 = 1)
    (ht : addrTarget (c.rdField .TA_TABLE 0 r 20 5) = some (0, .DOWNSHIFT_ENABLE, i))
    (hu : taUnits (bits (c.rdField .TA_TABLE 0 r 20 5) 35 24) (c.rdField .TA_TABLE 0 r 25 2) = some [i])
    (hv : c.rdField .TA_TABLE 0 r 28 8 ≤ 1) (hs : c.asleep .DOWNSHIFT_ENABLE i = false) :
    c.taAct st r = (.ok, c.wrRow .DOWNSHIFT_ENABLE i 0 (c.rdField .TA_TABLE 0 r 28 8)) := by
  have hg : (c.gated .DOWNSHIFT_ENABLE i fun c' => c'.taEffect st 0 .DOWNSHIFT_ENABLE i (c.rdField .TA_TABLE 0 r 28 8)) =
      (.ok, c.wrRow .DOWNSHIFT_ENABLE i 0 (c.rdField .TA_TABLE 0 r 28 8)) := by
    rw [Chip.gated, hs]
    exact Chip.taEffect_downshiftEnable hv c st i
  simp [Chip.taAct, hk, ht, hu, hg]

/-! Cancelling a row. -/

theorem Chip.writeTaCancel_armed {c : Chip} {v : Nat} (hv : v ≤ 255) (ha : c.taIsArmed v = true) :
    c.writeTaCancel v = (.ok, c.wrField .TA_TABLE 0 v 13 1 taCancelled) := by
  simp [Chip.writeTaCancel, Nat.not_lt.2 hv, ha]

theorem Chip.writeTaCancel_other {c : Chip} {v : Nat} (hv : v ≤ 255) (ha : c.taIsArmed v = false) :
    c.writeTaCancel v = (.state, c) := by
  simp [Chip.writeTaCancel, Nat.not_lt.2 hv, ha]

end Sys2Proof.Machine
end

section
/-!
PROOFS. A timed commit (R393, R396): the configuration that it puts in force leaves the rows of `TA_TABLE` and their posters alone.
-/
set_option Elab.async false
namespace Sys2Proof.Machine

/-- Every part of the block but the configuration's own, and every object but `TA_TABLE`. -/
def Fx.besideTa : Fx := ⟨(2 ^ 64 - 1) ^^^ 2 ^ Part.cfg.ctorIdx, (2 ^ 1024 - 1) ^^^ 2 ^ Reg.TA_TABLE.ctorIdx⟩

theorem Fx.of_le_besideTa {r : Reg} (h : r ≠ .TA_TABLE) : (Fx.of [] [r]).le .besideTa = true := by
  have hne : ¬ Reg.TA_TABLE.ctorIdx = r.ctorIdx := fun he => h (Reg.ctorIdx_inj he).symm
  refine Fx.le_iff.2 ⟨by simp [Fx.of], Nat.eq_of_testBit_eq fun j => ?_⟩
  simp only [Fx.of, Fx.besideTa, List.foldl, Nat.zero_or, Nat.testBit_and, Nat.testBit_xor, Nat.testBit_two_pow_sub_one, Nat.testBit_two_pow]
  by_cases hj : r.ctorIdx = j
  · subst hj
    simp [r.idx_lt, hne]
  · simp [hj]

/-- The posters of timed actions and the rows of `TA_TABLE` are as before. -/
structure Chip.KeepsTa (c d : Chip) : Prop where
  posters : d.cfg.posters = c.cfg.posters
  rows : ∀ i row, d.dict.get? ⟨.TA_TABLE, i, row⟩ = c.dict.get? ⟨.TA_TABLE, i, row⟩

section
variable {b c d : Chip}

theorem Chip.KeepsTa.trans (h : b.KeepsTa c) (g : c.KeepsTa d) : b.KeepsTa d :=
  ⟨g.posters.trans h.posters, fun i row => (g.rows i row).trans (h.rows i row)⟩

theorem Within.keepsTa (h : Within .besideTa c d) : c.KeepsTa d :=
  ⟨congrArg CfgSt.posters (h.part .cfg (by decide +kernel)), fun i row => h.cell ⟨.TA_TABLE, i, row⟩
    (show Fx.besideTa.hasReg .TA_TABLE = false by decide +kernel)⟩

theorem Chip.KeepsTa.rdField (h : c.KeepsTa d) (i row o n : Nat) : d.rdField .TA_TABLE i row o n = c.rdField .TA_TABLE i row o n := by
  have hrd : d.rd .TA_TABLE i row = c.rd .TA_TABLE i row := by
    rw [Chip.rd_eq, Chip.rd_eq, Chip.dflt_fixed c d .TA_TABLE rfl, Chip.raw, Chip.raw, h.rows]
  rw [Chip.rdField, Chip.rdField, hrd]

theorem Chip.KeepsTa.taTag (h : c.KeepsTa d) (r : Nat) : d.taTag r = c.taTag r := h.rdField ..

end

/-! The effect of one persistent value. -/

/-- A check of a write that leaves a block either way. -/
theorem Within.ite_write {x : Fx} {b : Chip} {p : Prop} [Decidable p] {y z : Abort × Chip} (hy : Within x b y.2) (hz : Within x b z.2) :
    Within x b (if p then y else z).2 := by
  split <;> assumption

theorem Reg.persistent_not_ta {r : Reg} (h : r.info.pers = .persistent) : r ≠ .TA_TABLE := by
  rintro rfl
  exact absurd h (by decide)

theorem Reg.persistent_not_status (r : Reg) (h : r.info.pers = .persistent) : r.isStatus = false := by
  revert h
  cases r <;> decide

section
variable {b c : Chip} {r : Reg} (hr : r ≠ .TA_TABLE)
include hr

theorem Within.wrRow_besideTa (h : Within .besideTa b c) (i row v : Nat) : Within .besideTa b (c.wrRow r i row v) :=
  h.wrRow (Fx.of_le_besideTa hr)

theorem Chip.store_besideTa (i row v : Nat) : Within .besideTa c (c.store r i row v).2 :=
  .ite_write (.refl _ _) (.ite_write (.refl _ _) (Chip.afterStore_in ((Within.refl _ c).wrRow_besideTa hr ..) (by decide +kernel)))

theorem Chip.writeGcl_besideTa (bank p row v : Nat) : Within .besideTa c (c.writeGcl r bank p row v).2 :=
  .ite_write (.refl _ _) (.ite_write (.refl _ _) ((Within.refl _ c).wrRow_besideTa hr ..))

end

theorem Chip.writeBase_besideTa {r : Reg} (hp : r.info.pers = .persistent) (c : Chip) (st : Stepper) (i row v : Nat) :
    Within .besideTa c (c.writeBase st r i row v).2 := by
  have hr := Reg.persistent_not_ta hp
  unfold Chip.writeBase
  rw [if_neg (by simp [Reg.persistent_not_status r hp])]
  split
  case h_5 | h_6 | h_7 | h_9 | h_13 | h_14 | h_15 | h_16 | h_23 | h_24 | h_25 | h_26 | h_27 | h_30 | h_35 | h_42 | h_55 | h_57 |
      h_62 | h_64 | h_65 | h_66 | h_67 | h_70 | h_71 | h_72 | h_73 | h_74 | h_75 | h_76 | h_77 | h_78 | h_79 | h_80 =>
    exact absurd hp (by decide)
  case h_43 | h_44 | h_45 | h_46 | h_47 | h_48 | h_49 | h_50 =>
    exact Chip.writeGcl_besideTa hr ..
  · exact Chip.writeFormation_in (.refl _ _) (by decide +kernel)
  · exact Chip.writePortMode_in (.refl _ _) (by decide +kernel)
  · exact Chip.writePortEnable_in (.refl _ _) (by decide +kernel)
  · exact Chip.applyPortAbility_in (.refl _ _) (by decide +kernel)
  · exact Chip.writeMapPersist_in (.refl _ _) (by decide +kernel)
  · exact Chip.writeAncEnable_in (.refl _ _) (by decide +kernel)
  · exact Chip.writeAncSlot_in (.refl _ _) (by decide +kernel)
  · exact Chip.writeLpiEnable_in (.refl _ _) (by decide +kernel)
  · exact Chip.writeHlMap_in (.refl _ _) (by decide +kernel)
  · exact Chip.writeHlMap_in (.refl _ _) (by decide +kernel)
  · exact Chip.writePfc_in (.refl _ _) (by decide +kernel)
  · exact Chip.writePfc_in (.refl _ _) (by decide +kernel)
  · exact Chip.writePfc_in (.refl _ _) (by decide +kernel)
  · exact Chip.writePfc_in (.refl _ _) (by decide +kernel)
  · exact Chip.writeTimeSource_in (.refl _ _) (by decide +kernel)
  · exact Chip.writeTimeSource_in (.refl _ _) (by decide +kernel)
  · exact Chip.writeDiscipline_in (.refl _ _) (by decide +kernel)
  · exact Chip.writeRootPort_in (.refl _ _) (by decide +kernel)
  · exact Chip.writeQBlocks_in (.refl _ _) (by decide +kernel)
  · exact Chip.writeQDefault_in (.refl _ _) (by decide +kernel)
  · exact Chip.writeQConfig_in (.refl _ _) (by decide +kernel)
  · exact Chip.writeSvcConfig_in (.refl _ _) (by decide +kernel)
  · exact Chip.writeShaperRow_in (.refl _ _) (by decide +kernel)
  · exact Chip.writeShaperRow_in (.refl _ _) (by decide +kernel)
  · exact Chip.writeShaperRow_in (.refl _ _) (by decide +kernel)
  · exact Chip.writeGateEnable_in (.refl _ _) (by decide +kernel)
  · exact Chip.writeMmEnable_in (.refl _ _) (by decide +kernel)
  · exact Chip.writeMeter_in (.refl _ _) (by decide +kernel)
  · exact Chip.writeMeterRange_in (.refl _ _) (by decide +kernel)
  · exact Chip.writeMeterRange_in (.refl _ _) (by decide +kernel)
  · split <;> exact .refl _ _
  · exact Chip.writeWlEnable_in (.refl _ _) (by decide +kernel)
  · exact Chip.writeWlEnable_in (.refl _ _) (by decide +kernel)
  · exact Chip.writeRootPriority_in (.refl _ _) (by decide +kernel)
  · exact Chip.writeAddrRequest_in (.refl _ _) (by decide +kernel)
  · exact Chip.writeWlCost_in (.refl _ _) (by decide +kernel)
  · exact Chip.writeTilePl_in (.refl _ _) (by decide +kernel)
  · exact Chip.writeTilePl_in (.refl _ _) (by decide +kernel)
  · exact Chip.store_besideTa hr ..

theorem Chip.applyCell_besideTa {k : Key} (hp : k.reg.info.pers = .persistent) (c : Chip) (st : Stepper) (v : Nat) :
    Within .besideTa c (c.applyCell st k v) := by
  have hr := Reg.persistent_not_ta hp
  unfold Chip.applyCell
  split
  · exact Chip.applyFormation_in (Within.each (fun _ _ hd => Chip.setLink_in (Chip.leave_in hd (by decide +kernel)) (by decide +kernel))
      (.refl _ _)) (by decide +kernel)
  · exact Chip.applyPortEnable_in (.refl _ _) (by decide +kernel)
  · exact Chip.applyPortMode_in (.refl _ _) (by decide +kernel)
  · exact (Within.refl _ c).wrRow_besideTa hr ..
  · exact (Within.refl _ c).wrRow_besideTa hr ..
  · have hset : Within .besideTa c (c.wr .TILE_PL_SET k.inst v) := (Within.refl _ c).wr (by decide +kernel)
    exact .ite (Chip.changeLevel_in hset (by decide +kernel)) hset
  · exact Chip.pfcEval_in ((Within.refl _ c).wrRow (by decide +kernel)) (by decide +kernel)
  · exact Chip.pfcEval_in ((Within.refl _ c).wrRow_besideTa hr ..) (by decide +kernel)
  · exact Chip.pfcEval_in ((Within.refl _ c).wrRow_besideTa hr ..) (by decide +kernel)
  · exact (Within.refl _ c).wrRow_besideTa hr ..
  · exact (Within.refl _ c).wrRow_besideTa hr ..
  · exact (Within.refl _ c).wrRow_besideTa hr ..
  · split
    · exact (Within.refl _ c).wrRow_besideTa hr ..
    · have hbase := Chip.writeBase_besideTa hp c st k.inst k.row v
      split
      · next heq => rwa [heq] at hbase
      · exact (Within.refl _ c).wrRow_besideTa hr ..

theorem Chip.applyKey_besideTa {b c : Chip} {k : Key} (h : Within .besideTa b c) (hp : k.reg.info.pers = .persistent) (st : Stepper)
    (named : List (Key × Nat)) (new : Chip) : Within .besideTa b (c.applyKey st named new k) := by
  have hcell : Within .besideTa b (if c.rd k.reg k.inst k.row = new.rd k.reg k.inst k.row then c
      else c.applyCell st k (new.rd k.reg k.inst k.row)) := .ite h (h.trans (Chip.applyCell_besideTa hp ..))
  exact .ite hcell (.ite (hcell.clr (Fx.of_le_besideTa (Reg.persistent_not_ta hp))) hcell)

/-! A configuration in force. -/

theorem Chip.persistentKeys_persistent {c : Chip} {k : Key} (h : k ∈ c.persistentKeys) : k.reg.info.pers = .persistent := by
  simp only [Chip.persistentKeys, List.mem_map, List.mem_filter, decide_eq_true_eq] at h
  obtain ⟨e, ⟨-, hp⟩, rfl⟩ := h
  exact hp

/-- Persistent cells, phase by phase, take their values. -/
theorem Chip.applyPhases_besideTa {b c new : Chip} {keys : List Key} (h : Within .besideTa b c)
    (hk : ∀ k ∈ keys, k.reg.info.pers = .persistent) (st : Stepper) (named : List (Key × Nat)) (phases : List Nat) :
    Within .besideTa b (c.each phases fun c ph =>
      c.each (keys.filter fun k => applyPhase k.reg (new.rd k.reg k.inst k.row) = ph) fun c k => c.applyKey st named new k) :=
  .each (fun _ _ hd => Chip.each_keeps_mem (P := Within .besideTa b)
    (fun _ k hkeys he => Chip.applyKey_besideTa he (hk k (List.mem_of_mem_filter hkeys)) ..) hd) h

theorem Chip.KeepsTa.applying {b c : Chip} (h : b.KeepsTa c) (x : Bool) : b.KeepsTa { c with cfg := { c.cfg with applying := x } } :=
  ⟨h.posters, h.rows⟩

theorem Chip.applyValues_keepsTa (c : Chip) (st : Stepper) (l : List (Key × Nat)) : c.KeepsTa (c.applyValues st l) := by
  unfold Chip.applyValues
  extract_lets new moved blocks cfg c₀ keys changed formed c₁ c₂ c₃ c₄ c₅ c₆ cfg' c₇ ports c₈
  have hk : ∀ k ∈ keys, k.reg.info.pers = .persistent := fun k hk => by
    simp only [keys, List.mem_eraseDups, List.mem_filter, List.mem_append] at hk
    exact hk.1.elim Chip.persistentKeys_persistent Chip.persistentKeys_persistent
  have h₁ : Within .besideTa c₀ c₁ := Chip.applyPhases_besideTa (.refl _ _) hk ..
  have h₂ : Within .besideTa c₀ c₂ := Chip.applyPinned_in (Chip.applyBlocks_in h₁ (by decide +kernel)) (by decide +kernel)
  have h₃ : Within .besideTa c₀ c₃ := Chip.applyPhases_besideTa h₂ hk ..
  have h₄ : Within .besideTa c₀ c₄ :=
    .each (fun _ _ hd => .each (fun _ _ he => .ite (Chip.startEnabled_in he (by decide +kernel)) he) hd) h₃
  have h₅ : Within .besideTa c₀ c₅ := .each (fun _ _ hd => Chip.gateOn_in hd (by decide +kernel)) h₄
  have h₆ : Within .besideTa c₀ c₆ := .each (fun _ _ hd => Chip.mapReturn_in hd (by decide +kernel)) h₅
  have h₈ : Within .besideTa c₇ c₈ := .each (fun _ _ hd => Chip.pfcEval_in (Chip.undersizedEval_in
    (Chip.lsSettle_in hd (by decide +kernel)) (by decide +kernel)) (by decide +kernel)) (.refl _ _)
  have h₀ : c.KeepsTa c₀ := Chip.KeepsTa.applying ⟨rfl, fun _ _ => rfl⟩ true
  have h₇ : c.KeepsTa c₇ := (h₀.trans h₆.keepsTa).applying false
  exact h₇.trans (Within.keepsTa (Chip.replanAll_in (Chip.reevaluate_in h₈ (by decide +kernel)) (by decide +kernel)))

/-! The judging of a configuration starts from no row of `TA_TABLE`. -/

theorem Tab.filter_put {κ α : Type} [DecidableEq κ] [Ord κ] {P : κ → Bool} {k : κ} (h : P k = false) (t : Tab κ α) (v : α) :
    (t.put k v).filter (fun e => P e.1) = t.filter fun e => P e.1 := by
  induction t with
  | nil => simp [Tab.put, h]
  | cons e t ih =>
    obtain ⟨j, w⟩ := e
    rw [Tab.put]
    split
    · next hj => simp [← hj, h]
    · split
      · simp [h]
      · simp only [List.filter_cons, ih]

theorem Tab.filter_del {κ α : Type} [DecidableEq κ] {P : κ → Bool} {k : κ} (h : P k = false) (t : Tab κ α) :
    (t.del k).filter (fun e => P e.1) = t.filter fun e => P e.1 := by
  induction t with
  | nil => rfl
  | cons e t ih =>
    obtain ⟨j, w⟩ := e
    rw [Tab.del]
    split
    · next hj => simp [← hj, h, ih]
    · simp only [List.filter_cons, ih]

/-- The cells that stay in the block on which a configuration is judged. -/
def Key.ofQueueChannel (k : Key) : Bool := k.reg = .QC_STATE

theorem Chip.blank_wrRow {r : Reg} (hr : r ≠ .QC_STATE) (c : Chip) (i row v : Nat) : (c.wrRow r i row v).blank = c.blank := by
  have hP : Key.ofQueueChannel ⟨r, i, row⟩ = false := decide_eq_false hr
  have hdict : (c.wrRow r i row v).dict.filter (fun e => e.1.reg = .QC_STATE) = c.dict.filter fun e => e.1.reg = .QC_STATE := by
    unfold Chip.wrRow
    dsimp only
    split
    · exact Tab.filter_del hP _
    · exact Tab.filter_put hP ..
  rw [Chip.blank, Chip.blank, hdict, Chip.wrRow_boot]

theorem Chip.withValues_wrRow {r : Reg} (hr : r ≠ .QC_STATE) (c : Chip) (i row v : Nat) (l : List (Key × Nat)) :
    (c.wrRow r i row v).withValues l = c.withValues l := by
  rw [Chip.withValues, Chip.withValues, Chip.blank_wrRow hr]

/-! The commit. -/

section
variable {c : Chip} {st : Stepper} {l : List (Key × Nat)}

/-- The block once the slots have moved and the values are in force, before the results of the check are cleared. -/
def Chip.moved (c : Chip) (st : Stepper) (l : List (Key × Nat)) : Chip :=
  { c.applyValues st l with
    nv := { (c.applyValues st l).nv with cfg := { active := { c.nv.cfg.candidate with confirmed := false }, previous := c.nv.cfg.active,
                                                  candidate := c.nv.cfg.previous } }
    cfg := { (c.applyValues st l).cfg with staged := none, deadline := some ((c.applyValues st l).tb + c.rd .CFG_CONFIRM_TIMEOUT * tbSecond),
                                           upsett := none, before := some (c.nv.cfg, (c.applyValues st l).root) } }

theorem Chip.takeStaged_eq : c.takeStaged st l =
    ((((c.moved st l).wrDev .CFG_CHECK_RESULT 0).setReason 0 0).wrDev .BUF_COMMIT_REASON 0).wrDev .CFG_STATE 0 := rfl

theorem Chip.takeStaged_within : Within (.union [Chip.setReason_fx, .of [] [.CFG_CHECK_RESULT, .BUF_COMMIT_REASON, .CFG_STATE]])
    (c.moved st l) (c.takeStaged st l) :=
  Chip.takeStaged_eq ▸ ((Chip.setReason_in ((Within.refl _ _).wrDev (by decide +kernel)) (by decide +kernel)).wrDev (by decide +kernel)).wrDev
    (by decide +kernel)

theorem Chip.takeStaged_nv : (c.takeStaged st l).nv.cfg =
    { active := { c.nv.cfg.candidate with confirmed := false }, previous := c.nv.cfg.active, candidate := c.nv.cfg.previous } := by
  rw [Chip.takeStaged_within.part .nv (by decide +kernel)]
  rfl

theorem Chip.takeStaged_cfg : (c.takeStaged st l).cfg.staged = none ∧ (c.takeStaged st l).cfg.deadline.isSome = true := by
  rw [Chip.takeStaged_within.part .cfg (by decide +kernel)]
  exact ⟨rfl, rfl⟩

theorem Chip.takeStaged_keepsTa : c.KeepsTa (c.takeStaged st l) := by
  have hmoved : (c.applyValues st l).KeepsTa (c.moved st l) := ⟨rfl, fun _ _ => rfl⟩
  have hcleared : (c.moved st l).KeepsTa (c.takeStaged st l) :=
    ⟨congrArg CfgSt.posters (Chip.takeStaged_within.part .cfg (by decide +kernel)), fun i row => Chip.takeStaged_within.cell ⟨.TA_TABLE, i, row⟩
      (show Fx.hasReg _ .TA_TABLE = false by decide +kernel)⟩
  exact ((Chip.applyValues_keepsTa c st l).trans hmoved).trans hcleared

theorem Chip.commit_takes (hd : c.cfg.deadline = none) (hs : c.cfg.staged = some l) (hb : (c.withValues l).bufReason = 0) :
    c.commit st = (.ok, c.takeStaged st l) := by
  simp [Chip.commit, hd, hs, hb]

/-- The poster of the commit in force, with the tag of its row. -/
def Chip.upsettBy (c : Chip) (x : Nat × Nat) : Chip := { c with cfg := { c.cfg with upsett := some x } }

theorem Chip.upsettBy_nv (c : Chip) (x : Nat × Nat) : (c.upsettBy x).nv = c.nv := rfl

theorem Chip.upsettBy_staged (c : Chip) (x : Nat × Nat) : (c.upsettBy x).cfg.staged = c.cfg.staged := rfl

theorem Chip.upsettBy_deadline (c : Chip) (x : Nat × Nat) : (c.upsettBy x).cfg.deadline = c.cfg.deadline := rfl

theorem Chip.upsettBy_upsett (c : Chip) (x : Nat × Nat) : (c.upsettBy x).cfg.upsett = some x := rfl

/-- The block after a timed commit: the row's poster will hear of the outcome. -/
def Chip.taCommitted (c : Chip) (st : Stepper) (r : Nat) (l : List (Key × Nat)) : Chip :=
  (c.takeStaged st l).upsettBy ((c.takeStaged st l).cfg.posters.getD r 0, (c.takeStaged st l).taTag r)

theorem Chip.taAct_commit {r : Nat} (hk : c.rdField .TA_TABLE 0 r 12 1 = 2) (hd : c.cfg.deadline = none) (hs : c.cfg.staged = some l)
    (hb : (c.withValues l).bufReason = 0) : c.taAct st r = (.ok, c.taCommitted st r l) := by
  rw [Chip.taAct, hk]
  dsimp only
  rw [Chip.commit_takes hd hs hb]
  rfl

theorem Chip.taCommitted_nv (r : Nat) : (c.taCommitted st r l).nv.cfg =
    { active := { c.nv.cfg.candidate with confirmed := false }, previous := c.nv.cfg.active, candidate := c.nv.cfg.previous } := by
  rw [Chip.taCommitted, Chip.upsettBy_nv, Chip.takeStaged_nv]

theorem Chip.taCommitted_cfg (r : Nat) : (c.taCommitted st r l).cfg.staged = none ∧ (c.taCommitted st r l).cfg.deadline.isSome = true := by
  rw [Chip.taCommitted, Chip.upsettBy_staged, Chip.upsettBy_deadline]
  exact Chip.takeStaged_cfg

theorem Chip.taCommitted_upsett (r : Nat) : (c.taCommitted st r l).cfg.upsett = some (c.cfg.posters.getD r 0, c.taTag r) := by
  have h := Chip.takeStaged_keepsTa (c := c) (st := st) (l := l)
  rw [Chip.taCommitted, Chip.upsettBy_upsett, h.posters, h.taTag]

end

section
variable {c : Chip} {r : Nat}

theorem Chip.taBegun_cfg : (c.taBegun r).cfg = c.cfg := Chip.taBegun_within.part .cfg (by decide +kernel)

theorem Chip.taBegun_nv : (c.taBegun r).nv = c.nv := Chip.taBegun_within.part .nv (by decide +kernel)

/-- What follows an action that was carried out: its event, and the word to its poster. -/
theorem Chip.taTold_within (c : Chip) (r tag : Nat) :
    Within (.union [Chip.taTell_fx, .of [.ev] []]) c ((c.raise .taDone 0 tag).taTell r 1 0) :=
  Chip.taTell_in ((Within.refl _ c).raise (by decide +kernel)) (by decide +kernel)

theorem Chip.taBegun_withValues (l : List (Key × Nat)) : (c.taBegun r).withValues l = c.withValues l := by
  rw [Chip.taBegun, Chip.wrField_eq, Chip.withValues_wrRow (by decide), Chip.wrField_eq, Chip.withValues_wrRow (by decide)]

end

end Sys2Proof.Machine
end

section
set_option Elab.async false
open Sys2Proof Sys2Proof.Machine

/-- Settles O29: a row that is posted or that runs is marked in its own fields, and what it does meets a block that differs from the one
before in that row alone; a commit leaves the row and its poster for the outcome that is told after it. -/
theorem timedActionsArePostedRunAndCancelled : Obligations.TimedActionsArePostedRunAndCancelled := by
  unfold Obligations.TimedActionsArePostedRunAndCancelled
  refine ⟨?_, ?_, ?_, ?_, ?_, ?_, ?_, ?_, ?_⟩
  · intro row v path src s hrow hperm hs hf ha hk ht
    have htime : ∀ c : Chip, (c.taPosted row v.toNat path src.toNat).taTime row = ofTime96 (rowField 40 v.toNat 0 12) := fun c =>
      congrArg ofTime96 (Chip.taPosted_field (by decide) (.inl (by decide)))
    have hfuture : (s.chip.taPosted row v.toNat path src.toNat).tb < (s.chip.taPosted row v.toNat path src.toNat).taTime row := by
      rw [htime, show (s.chip.taPosted row v.toNat path src.toNat).tb = s.chip.tb from Chip.wrRow_tb ..]
      exact ht
    have hwrite := Chip.writeTa_mark (path := path) (src := src.toNat) hf ha hk
    rw [Chip.taJudge_future _ hfuture] at hwrite
    refine Answers.of_write _ (execTaPost_gated hrow hperm v src) hs hwrite fun d hd => ?_
    have hfield : ∀ {o n : Nat}, 0 < n → o + n ≤ 13 ∨ 28 ≤ o → o + n ≤ 40 →
        d.rdField .TA_TABLE 0 row o n = rowField 40 v.toNat o n := fun {o n} hn h ho => by
      rw [hd.written_rdField rfl, Chip.rdField_wrField_other (by decide) (by decide) hn ho (by omega),
        Chip.taPosted_field hn (by unfold taPlain; omega)]
    refine ⟨hd.access, ?_, hfield (by decide) (.inl (by decide)) (by decide), hfield (by decide) (.inr (by decide)) (by decide),
      hd.written_keeps (Chip.taPosted_keeps.wrField (by rfl) _ _ _)⟩
    rw [Chip.taIsArmed, hd.written_rdField rfl, Chip.rdField_wrField_same (by decide) (by decide)]
    rfl
  · intro row v path src s hrow
    exact Answers.of_abort (execTaPost.eq_1 row v path src s) (if_pos hrow) (by decide) (by decide) fun d hd => hd.turnedAway.2
  · intro row v path src s hrow hperm hs hf ha hk ht hw
    have hfield : ∀ {o n : Nat}, 0 < n → taPlain o n →
        (s.chip.taPosted row v.toNat path src.toNat).rdField .TA_TABLE 0 row o n = rowField 40 v.toNat o n := Chip.taPosted_field
    have htime : (s.chip.taPosted row v.toNat path src.toNat).taTime row = ofTime96 (rowField 40 v.toNat 0 12) :=
      congrArg ofTime96 (hfield (by decide) (.inl (by decide)))
    have htb : (s.chip.taPosted row v.toNat path src.toNat).tb = s.chip.tb := Chip.wrRow_tb ..
    have hwindow : (s.chip.taPosted row v.toNat path src.toNat).taWindow row = tbUs (rowField 40 v.toNat 16 4) := by
      rw [Chip.taWindow, hfield (by decide) (.inr (.inl (by decide)))]
      exact congrArg tbUs (if_neg hw)
    have hkind : (s.chip.taPosted row v.toNat path src.toNat).rdField .TA_TABLE 0 row 12 1 ≠ 2 := by
      rw [hfield (by decide) (.inl (by decide)), hk]
      decide
    have hwrite := Chip.writeTa_mark (path := path) (src := src.toNat) hf ha hk
    rw [Chip.taJudge_late _ (by rw [htime, htb]; omega) (by rw [htime, htb, hwindow]; omega), Chip.taRefuse_silent _ hkind] at hwrite
    refine Answers.of_write _ (execTaPost_gated hrow hperm v src) hs hwrite fun d hd => ?_
    refine ⟨hd.access, ?_, ?_, ?_⟩
    · rw [hd.written_rdField rfl, Chip.taRefuse_state]
    · rw [hd.written_rdField rfl, Chip.taRefuse_cause]
    · rw [Counts, hd.written_rd rfl, Chip.taRefuse_count, Chip.taPosted_rd (by decide)]
  · intro row v s hrow hs hf ha
    have hk : rowField 40 (setRowField 40 v.toNat 12 1 0) 12 1 = 0 := rowField_setRowField_same (by decide) (by decide) ..
    refine Answers.of_write _ (execTaNone_gated hrow v s) hs (Chip.writeTa_none hf ha hk) fun d hd => ?_
    refine ⟨hd.access, ?_, ?_, hd.written_bare.trans (Chip.bare_wrRow ..), hd.written_keeps ((Chip.Keeps.refl _ _).wrRow (by rfl))⟩
    · rw [hd.written_rdField rfl, Chip.rdField_wrRow_same (by decide) (by decide)]
      exact (rowField_taStored (by decide) (.inl (by decide)) ..).trans hk
    · rw [hd.written_rdField rfl, Chip.rdField_wrRow_same (by decide) (by decide)]
      exact taStored_state ..
  · intro row i s hroot hact harm ht hvalid hk htarget hunits hv hs
    have hfield : ∀ {o n : Nat}, 0 < n → o + n ≤ 13 ∨ 16 ≤ o ∧ o + n ≤ 40 →
        (s.chip.taBegun row).rdField .TA_TABLE 0 row o n = s.chip.rdField .TA_TABLE 0 row o n := Chip.taBegun_field
    have hasleep : (s.chip.taBegun row).asleep .DOWNSHIFT_ENABLE i = false :=
      (Chip.asleep_congr (Chip.taBegun_within.part .boot (by decide +kernel)) (Chip.taBegun_within.part .pwr (by decide +kernel)) ..).trans hs
    have hdone := Chip.taAct_downshiftEnable (c := s.chip.taBegun row) (r := row) (i := i) stepAll
      ((hfield (by decide) (.inl (by decide))).trans hk) (by rw [hfield (by decide) (by decide), htarget])
      (by rw [hfield (by decide) (by decide), hfield (by decide) (by decide), hunits]) (by rwa [hfield (by decide) (by decide)]) hasleep
    rw [hfield (by decide) (by decide)] at hdone
    have hruns := Chip.taRow_runs hroot hact harm ht hvalid hk hdone
    have hkind : (((s.chip.taBegun row).wrRow .DOWNSHIFT_ENABLE i 0 (s.chip.rdField .TA_TABLE 0 row 28 8)).raise .taDone 0
        (s.chip.taTag row)).rdField .TA_TABLE 0 row 12 1 ≠ 2 := by
      rw [Chip.rdField_raise, Chip.rdField_wrRow_reg (by decide) (by decide), hfield (by decide) (by decide), hk]
      decide
    rw [Chip.taTell_silent hkind] at hruns
    refine Answers.of_runs ⟨_, execTaWrite.eq_1 row s, hruns⟩ fun d hd => ⟨?_, ?_, hd.keeps ?_⟩
    · rw [hd.rd _ rfl, Chip.rd_raise]
      exact Chip.rd_wrRow_fits (hv.trans_lt (by decide)) ..
    · rw [hd.rdField rfl, Chip.rdField_raise, Chip.rdField_wrRow_reg (by decide) (by decide), Chip.taBegun_state]
    · exact ((((Chip.Keeps.refl _ _).wrRow (.inl rfl)).wrRow (.inl rfl)).wrRow (.inr rfl)).raise _ _ _
  · intro row l s hroot hact harm ht hvalid hk hdead hstaged hbuf
    have hdone := Chip.taAct_commit (c := s.chip.taBegun row) (st := stepAll) (r := row) (l := l)
      ((Chip.taBegun_field (by decide) (by decide)).trans hk) (by rw [Chip.taBegun_cfg, hdead]) (by rw [Chip.taBegun_cfg, hstaged])
      (by rw [Chip.taBegun_withValues, hbuf])
    have hruns := Chip.taRow_runs hroot hact harm ht hvalid hk hdone
    have htag : (s.chip.taBegun row).taTag row = s.chip.taTag row := Chip.taBegun_field (by decide) (by decide)
    refine Answers.of_runs ⟨_, execTaCommit.eq_1 row s, hruns⟩ fun d hd => ?_
    have hwithin := Chip.taTold_within ((s.chip.taBegun row).taCommitted stepAll row l) row (s.chip.taTag row)
    have hcfg := hd.cfg_eq.trans (hwithin.part .cfg (by decide +kernel))
    have hnv := hd.nv_eq.trans (hwithin.part .nv (by decide +kernel))
    obtain ⟨hnone, hsome⟩ := (s.chip.taBegun row).taCommitted_cfg (st := stepAll) (l := l) row
    rw [hcfg, hnv]
    refine ⟨?_, hnone, hsome, ?_⟩
    · rw [Chip.taCommitted_nv, Chip.taBegun_nv]
    · rw [Chip.taCommitted_upsett, Chip.taBegun_cfg, htag]
  · intro row s hroot hact harm ht hvalid hk
    have hdone := Chip.taAct_mark (c := s.chip.taBegun row) (r := row) stepAll ((Chip.taBegun_field (by decide) (by decide)).trans hk)
    have hruns := Chip.taRow_runs hroot hact harm ht hvalid hk hdone
    have hkind : (((s.chip.taBegun row).raise .taMark 0 ((s.chip.taBegun row).taTag row)).raise .taDone 0
        (s.chip.taTag row)).rdField .TA_TABLE 0 row 12 1 ≠ 2 := by
      rw [Chip.rdField_raise, Chip.rdField_raise, Chip.taBegun_field (by decide) (by decide), hk]
      decide
    rw [Chip.taTell_silent hkind] at hruns
    refine Answers.of_runs ⟨_, execTaMark.eq_1 row s, hruns⟩ fun d hd => ?_
    have hbare : d.bare = s.chip.bare := by rw [hd.bare, Chip.bare_raise, Chip.bare_raise, Chip.taBegun_bare]
    refine ⟨?_, ?_, hbare, hbare, hd.keeps ((Chip.taBegun_keeps.raise _ _ _).raise _ _ _)⟩
    · rw [hd.rdField rfl, Chip.rdField_raise, Chip.rdField_raise, Chip.taBegun_state]
    · rw [Chip.taTag, hd.rdField rfl, Chip.rdField_raise, Chip.rdField_raise]
      exact Chip.taBegun_field (by decide) (by decide)
  · intro v s hs hv ha
    refine Answers.of_write _ (execTaCancel.eq_1 v s) hs (Chip.writeTaCancel_armed hv ha) fun d hd => ?_
    refine ⟨hd.access, ?_, hd.written_bare.trans (Chip.bare_wrRow ..), hd.written_keeps ((Chip.Keeps.refl _ _).wrField (by rfl) _ _ _)⟩
    rw [hd.written_rdField rfl, Chip.rdField_wrField_same (by decide) (by decide)]
    rfl
  · intro v s hs hv ha
    have hgate : s.chip.gated .TA_CANCEL 0 (fun c => c.writeTaCancel v.toNat) = (.state, s.chip) := by
      rw [Chip.gated, hs]
      exact Chip.writeTaCancel_other hv ha
    exact Answers.of_abort (execTaCancel.eq_1 v s) hgate (by decide) (by decide) fun d hd => hd.turnedAway.2

end

section
/-!
PROOFS. Rules of the state for the scheduler: what a port's record or a flow queue holds after an operation, and which parts stay.
-/
set_option Elab.async false
namespace Sys2Proof.Machine

@[simp] theorem Chip.setSch_same (c : Chip) (p : Nat) (f : SchedSt → SchedSt) : (c.setSch p f).sch p = f (c.sch p) := Tab.getD_upd_same ..

theorem Chip.setSch_other (c : Chip) (p q : Nat) (f : SchedSt → SchedSt) (h : q ≠ p) : (c.setSch p f).sch q = c.sch q :=
  Tab.getD_upd_other _ _ _ _ _ _ h

@[simp] theorem Chip.sch_wrRow (c : Chip) (r : Reg) (i row v p : Nat) : (c.wrRow r i row v).sch p = c.sch p := by
  rw [Chip.sch, Chip.wrRow_sched]; rfl

@[simp] theorem Chip.setQueue_same (c : Chip) (q : Nat) (l : List Frame) : (c.setQueue q l).queue q = l := Tab.getD_set_same ..

section
variable {c d : Chip}

theorem Within.sch_eq {x : Fx} (h : Within x c d) (hx : x.hasPart .sched = false) (p : Nat) : d.sch p = c.sch p :=
  congrArg (fun t : Tab Nat SchedSt => t.getD p {}) (h.part .sched hx)

theorem EvFrame.sch_eq (h : EvFrame c d) (p : Nat) : d.sch p = c.sch p := congrArg (fun t : Tab Nat SchedSt => t.getD p {}) h.sched_eq

theorem Within.queue_eq {x : Fx} (h : Within x c d) (hx : x.hasPart .queues = false) (q : Nat) : d.queue q = c.queue q :=
  congrArg (fun t : Tab Nat (List Frame) => t.getD q []) (h.part .queues hx)

theorem EvFrame.queue_eq (h : EvFrame c d) (q : Nat) : d.queue q = c.queue q :=
  congrArg (fun t : Tab Nat (List Frame) => t.getD q []) h.queues_eq

/-- The same after an accepted write. -/
theorem EvFrame.written_sch {a : Access} (h : EvFrame { c with access := a } d) (p : Nat) : d.sch p = c.sch p := h.sch_eq p

end

/-- Of the parts beside the dictionary only the scheduler's record of a port has changed. -/
def Chip.OnlySch (c d : Chip) (p : Nat) : Prop := d.bare = { c.bare with sched := d.sched } ∧ ∀ q, q ≠ p → d.sch q = c.sch q

theorem Chip.setSch_onlySch (c : Chip) (p : Nat) (f : SchedSt → SchedSt) : c.OnlySch (c.setSch p f) p :=
  ⟨rfl, fun q hq => Chip.setSch_other c p q f hq⟩

theorem EvFrame.onlySch {b c d : Chip} {p : Nat} (h : EvFrame c d) (ho : b.OnlySch c p) : b.OnlySch d p := by
  obtain ⟨hb, hp⟩ := ho
  exact ⟨by rw [h.bare, h.sched_eq, hb], fun q hq => (h.sch_eq q).trans (hp q hq)⟩

section
variable (c : Chip) (p : Nat)

theorem Chip.lpiReplan_within : Within Chip.lpiReplan_fx c (c.lpiReplan p) := Chip.lpiReplan_in (.refl _ _) (by decide +kernel)

theorem Chip.lpiReplan_sch (q : Nat) : (c.lpiReplan p).sch q = c.sch q := (c.lpiReplan_within p).sch_eq (by decide +kernel) q

theorem Chip.lpiReplan_rd {r : Reg} (hr : Chip.lpiReplan_fx.hasReg r = false) (i row : Nat) : (c.lpiReplan p).rd r i row = c.rd r i row :=
  (c.lpiReplan_within p).rd hr (by decide +kernel) i row

end

end Sys2Proof.Machine
end

section
/-!
PROOFS. Gating, bank swaps and the verification of preemption (R246 to R250): what each operation leaves in the scheduler's record.
-/
set_option Elab.async false
namespace Sys2Proof.Machine

/-! The gates (R246 to R249). -/

/-- What gating keeps of a port: its bank, the start instant, a pending swap, and the gate states. -/
def SchedSt.gating (s : SchedSt) : Nat × Nat × Option Swap × Nat := (s.bank, s.gateFrom, s.swap, s.gates)

/-- The gates of a port change otherwise than by its bank, and the planned wake follows. -/
def Chip.gatesMove (c : Chip) (p : Nat) : Chip := (c.gateMoved p).lpiReplan p

section
variable (c : Chip) (p : Nat)

/-- A cut of what is on the wire leaves gating alone. -/
theorem Chip.recut_gating : ((c.recut p).sch p).gating = (c.sch p).gating := by
  have hcut : ∀ g r d, ((c.cutLive g p r d).sch p).gating = (c.sch p).gating := fun g r d => by
    rw [Chip.cutLive, Chip.setSch_same]
    rfl
  unfold Chip.recut
  split
  · split
    · rfl
    · dsimp only
      split
      · rfl
      · split
        · exact hcut ..
        · rfl
  · rfl

theorem Chip.gatesMove_gating :
    ((c.gatesMove p).sch p).gating = ((c.sch p).bank, (c.sch p).gateFrom, (c.sch p).swap, c.gatesAt p c.tb) := by
  rw [Chip.gatesMove, Chip.lpiReplan_sch, Chip.gateMoved, Chip.recut_gating, Chip.setSch_same]
  rfl

theorem Chip.gatesMove_bank : ((c.gatesMove p).sch p).bank = (c.sch p).bank := congrArg (·.1) (c.gatesMove_gating p)

theorem Chip.gatesMove_gateFrom : ((c.gatesMove p).sch p).gateFrom = (c.sch p).gateFrom := congrArg (·.2.1) (c.gatesMove_gating p)

theorem Chip.gatesMove_swap : ((c.gatesMove p).sch p).swap = (c.sch p).swap := congrArg (·.2.2.1) (c.gatesMove_gating p)

/-- Where the gates move, their states are those of the schedule. -/
theorem Chip.gatesMove_gates : ((c.gatesMove p).sch p).gates = c.gatesAt p c.tb := congrArg (·.2.2.2) (c.gatesMove_gating p)

theorem Chip.gatesMove_within : Within (.union [Chip.gateMoved_fx, Chip.lpiReplan_fx]) c (c.gatesMove p) :=
  Chip.lpiReplan_in (Chip.gateMoved_in (.refl _ _) (by decide +kernel)) (by decide +kernel)

/-- With gating off every gate is open. -/
theorem Chip.gatesAt_off {c : Chip} {p : Nat} (h : c.rdBool .GATE_ENABLE p = false) (t : Nat) : c.gatesAt p t = 0xFF := by
  simp [Chip.gatesAt, Chip.gateLine, h]

/-! Writes of `GATE_ENABLE` (R247). -/

/-- `GATE_ENABLE` is written, and gating counts from an instant on. -/
def Chip.gatingSet (b : Bool) (t : Nat) : Chip := (c.wrBool .GATE_ENABLE p b).setSch p fun s => { s with gateFrom := t }

theorem Chip.gatingSet_enable (b : Bool) (t : Nat) : (c.gatingSet p b t).rdBool .GATE_ENABLE p = b :=
  Chip.rdBool_wrBool (by decide) c p b

theorem Chip.gatingSet_moves (b : Bool) (t : Nat) :
    ((c.gatingSet p b t).gatesMove p).rdBool .GATE_ENABLE p = b ∧ (((c.gatingSet p b t).gatesMove p).sch p).gateFrom = t := by
  refine ⟨?_, ?_⟩
  · rw [(Chip.gatesMove_within _ p).rdBool (by decide +kernel) (by decide +kernel), Chip.gatingSet_enable]
  · rw [Chip.gatesMove_gateFrom, Chip.gatingSet, Chip.setSch_same]

theorem Chip.gatingSet_false_gates (t : Nat) : (((c.gatingSet p false t).gatesMove p).sch p).gates = 0xFF := by
  rw [Chip.gatesMove_gates, Chip.gatesAt_off (Chip.gatingSet_enable ..)]

theorem Chip.writeGateEnable_false : c.writeGateEnable p 0 = (.ok, (c.gatingSet p false 0).gatesMove p) := rfl

variable {c p}

theorem Chip.writeGateEnable_true (h : c.bankOk p (c.sch p).bank = true) :
    c.writeGateEnable p 1 = (.ok, (c.gatingSet p true (c.bankStart p (c.sch p).bank c.tb)).gatesMove p) := by
  simp only [Chip.writeGateEnable, Chip.gateOn, h]
  rfl

theorem Chip.writeGateEnable_badBank (h : c.bankOk p (c.sch p).bank = false) : c.writeGateEnable p 1 = (.range, c) := by
  simp only [Chip.writeGateEnable, Chip.gateOn, h]
  rfl

/-! Bank swaps (R248). -/

/-- A swap is pending with its instant. -/
def Chip.swapRequested (c : Chip) (p b : Nat) : Chip :=
  (c.setSch p fun s => { s with swap := some ⟨b, c.bankStart p b c.tb⟩ }).wr .GATE_SWAP_TIME p (time96 (c.bankStart p b c.tb))

/-- No swap is pending. -/
def Chip.swapCancelled (c : Chip) (p : Nat) : Chip := c.setSch p fun s => { s with swap := none }

/-- The bank of a swap runs. -/
def Chip.swapDone (c : Chip) (p : Nat) (w : Swap) : Chip :=
  c.setSch p fun s => { s with bank := w.bank, swap := none, gateFrom := min s.gateFrom w.instant }

theorem Chip.swapDue_swaps {w : Swap} (hs : (c.sch p).swap = some w) (ht : w.instant ≤ c.tb) :
    c.swapDue p = (c.swapDone p w).gatesMove p := by
  simp only [Chip.swapDue, Chip.swapExec, hs, ge_iff_le, ht, if_true]
  rfl

theorem Chip.writeGateSwap_requests {v : Nat} (hv : v ≤ 1) (hb : c.bankOk p v = true) (hn : v ≠ (c.sch p).bank)
    (hs : (c.sch p).swap = none) :
    c.writeGateSwap p v = (.ok, (c.swapRequested p v).gatesMove p) := by
  simp only [Chip.writeGateSwap, show v ≠ 0xFF by omega, Nat.not_lt.2 hv, hb, hn, hs, if_false]
  rfl

theorem Chip.writeGateSwap_cancels {w : Swap} (hs : (c.sch p).swap = some w) :
    c.writeGateSwap p 0xFF = (.ok, (c.swapCancelled p).gatesMove p) := by
  simp only [Chip.writeGateSwap, hs]
  rfl

theorem Chip.writeGateSwap_nothing (hs : (c.sch p).swap = none) : c.writeGateSwap p 0xFF = (.state, c) := by
  simp only [Chip.writeGateSwap, hs]
  rfl

theorem Chip.swapRequested_shows (b : Nat) :
    (((c.swapRequested p b).gatesMove p).sch p).swap = some ⟨b, c.bankStart p b c.tb⟩ ∧
      ((c.swapRequested p b).gatesMove p).rd .GATE_SWAP_TIME p = time96 (c.bankStart p b c.tb) % 2 ^ 96 ∧
      (((c.swapRequested p b).gatesMove p).sch p).bank = (c.sch p).bank := by
  refine ⟨?_, ?_, ?_⟩
  · rw [Chip.gatesMove_swap, Chip.swapRequested, Chip.wr_eq, Chip.sch_wrRow, Chip.setSch_same]
  · rw [(Chip.gatesMove_within _ p).rd (by decide +kernel) (by decide +kernel)]
    exact Chip.rd_wrRow_same ..
  · rw [Chip.gatesMove_bank, Chip.swapRequested, Chip.wr_eq, Chip.sch_wrRow, Chip.setSch_same]

/-! Verification of preemption (R250). -/

theorem Chip.mmOn_enable : (c.mmOn p).rdBool .MM_ENABLE p = true := by
  have hset : (c.wrBool .MM_ENABLE p true).rdBool .MM_ENABLE p = true := Chip.rdBool_wrBool (by decide) ..
  unfold Chip.mmOn
  dsimp only
  split
  · rw [(Chip.mmStart_in (.refl Chip.mmStart_fx _) (by decide +kernel)).rdBool (by decide +kernel) (by decide +kernel), hset]
  · exact hset

/-- On a port that is up, verification starts. -/
theorem Chip.mmOn_verifies (hu : c.up p = true) : (c.mmOn p).rd .MM_STATUS p = 1 ∧ ((c.mmOn p).sch p).verifies = 0 := by
  have hup : (c.wrBool .MM_ENABLE p true).up p = true := by rw [Chip.up, Chip.wrBool_eq, Chip.port_wrRow]; exact hu
  have hset : (c.wrBool .MM_ENABLE p true).rdBool .MM_ENABLE p = true := Chip.rdBool_wrBool (by decide) ..
  unfold Chip.mmOn
  dsimp only
  rw [if_pos hup, Chip.mmStart, if_pos hset]
  exact ⟨Chip.rd_wrRow_same .., by rw [Chip.wr_eq, Chip.sch_wrRow, Chip.setSch_same]⟩

theorem Chip.mmOff_ends :
    (c.mmOff p).rdBool .MM_ENABLE p = false ∧ (c.mmOff p).rd .MM_STATUS p = 0 ∧ ((c.mmOff p).sch p).verifies = 0 := by
  unfold Chip.mmOff
  refine ⟨?_, Chip.rd_wrRow_same .., by rw [Chip.wr_eq, Chip.sch_wrRow, Chip.setSch_same]⟩
  rw [Chip.rdBool, Chip.wr_eq, Chip.rd_wrRow_reg _ _ _ _ _ _ _ _ (by decide) (by decide)]
  exact Chip.rdBool_wrBool (r := .MM_ENABLE) (by decide) ..

/-- The next verify frame goes out. -/
def SchedSt.verifySent (s : SchedSt) : SchedSt := { s with verifies := s.verifies + 1, mmOut := 1 }

section
variable {p : PortNo} {s : State}

theorem execMmVerifyTimer_sends (hm : s.chip.rd .MM_STATUS p = 1) (hu : s.chip.up p = true) (hv : (s.chip.sch p).verifies < 3) :
    ∃ f, exec (.mmVerifyTimer p) s = s.run f ∧ f s.chip = s.chip.setSch p .verifySent := by
  refine ⟨_, execMmVerifyTimer.eq_1 p s, ?_⟩
  simp only [hm, hu, hv, ne_eq, not_true, decide_false, Bool.not_true, Bool.or_self, if_true]
  rfl

theorem execMmVerifyTimer_fails (hm : s.chip.rd .MM_STATUS p = 1) (hu : s.chip.up p = true) (hv : 3 ≤ (s.chip.sch p).verifies) :
    ∃ f, exec (.mmVerifyTimer p) s = s.run f ∧ f s.chip = (s.chip.wr .MM_STATUS p 3).raise .mmFailed (Cls.port.addr p) := by
  refine ⟨_, execMmVerifyTimer.eq_1 p s, ?_⟩
  simp only [hm, hu, Nat.not_lt.2 hv, ne_eq, not_true, decide_false, Bool.not_true, Bool.or_self, if_false]
  rfl

theorem execMmVerifyReceived_completes (hu : s.chip.up p = true) (hm : s.chip.rd .MM_STATUS p = 1) (hv : (s.chip.sch p).verifies ≠ 0) :
    ∃ f, exec (.mmVerifyReceived p true) s = s.run f ∧ f s.chip = (s.chip.wr .MM_STATUS p 2).lpiReplan p := by
  refine ⟨_, execMmVerifyReceived.eq_1 p true s, ?_⟩
  simp [hm, hu, hv]

theorem execMmVerifyReceived_answers (hu : s.chip.up p = true) :
    ∃ f, exec (.mmVerifyReceived p false) s = s.run f ∧ f s.chip = s.chip.setSch p fun st => { st with mmOut := 2 } := by
  refine ⟨_, execMmVerifyReceived.eq_1 p false s, ?_⟩
  simp [hu]

end

end

end Sys2Proof.Machine
end

section
set_option Elab.async false
open Sys2Proof Sys2Proof.Machine

/-- Settles O31: where the gates move, the gating fields of the scheduler's record are those that the write or the swap set and the
states are those of the schedule; verification is a count of verify frames beside `MM_STATUS`. -/
theorem gatesAndPreemptionFollowTheirWrites : Obligations.GatesAndPreemptionFollowTheirWrites := by
  unfold Obligations.GatesAndPreemptionFollowTheirWrites
  refine ⟨?_, ?_, ?_, ?_, ?_, ?_, ?_, ?_, ?_, ?_, ?_, ?_, ?_, ?_⟩
  · intro p s
    refine Answers.of_run (execGateEdge.eq_1 p s) fun d hd => ⟨?_, hd.onlySch (Chip.setSch_onlySch ..), hd.keeps (Chip.Keeps.refl _ _)⟩
    rw [hd.sch_eq, Chip.setSch_same]
  · intro p w s hs ht
    refine Answers.of_runs ⟨_, execGateSwapExecute.eq_1 p s, Chip.swapDue_swaps hs ht⟩ fun d hd => ?_
    rw [hd.sch_eq, Chip.gatesMove_bank, Chip.gatesMove_swap, Chip.swapDone, Chip.setSch_same]
    exact ⟨rfl, rfl⟩
  · intro p s hs hb
    obtain ⟨henable, hfrom⟩ := s.chip.gatingSet_moves p true (s.chip.bankStart p (s.chip.sch p).bank s.chip.tb)
    refine Answers.of_write _ (execGateEnableTrue.eq_1 p s) hs (Chip.writeGateEnable_true hb) fun d hd => ⟨hd.access, ?_, ?_⟩
    · rw [hd.written_rdBool rfl, henable]
    · rw [hd.written_sch, hfrom]
  · intro p s hs hb
    have hgate : s.chip.gated .GATE_ENABLE p (fun c => c.writeGateEnable p 1) = (.range, s.chip) := by
      rw [Chip.gated, hs]
      exact Chip.writeGateEnable_badBank hb
    exact Answers.of_abort (execGateEnableTrue.eq_1 p s) hgate (by decide) (by decide) fun d hd => hd.turnedAway.2
  · intro p s hs
    obtain ⟨henable, hfrom⟩ := s.chip.gatingSet_moves p false 0
    refine Answers.of_write _ (execGateEnableFalse.eq_1 p s) hs (Chip.writeGateEnable_false _ p) fun d hd => ⟨hd.access, ?_, ?_, ?_⟩
    · rw [hd.written_rdBool rfl, henable]
    · rw [hd.written_sch, hfrom]
    · rw [hd.written_sch, Chip.gatingSet_false_gates]
  · intro p v s hs hv hb hn hw
    obtain ⟨hswap, htime, hbank⟩ := Chip.swapRequested_shows (c := s.chip) (p := p) v.toNat
    refine Answers.of_write _ (execGateSwapRequest.eq_1 p v s) hs (Chip.writeGateSwap_requests hv hb hn hw) fun d hd =>
      ⟨hd.access, ?_, ?_, ?_⟩
    · rw [hd.written_sch, hswap]
    · rw [hd.written_rd rfl, htime]
    · rw [hd.written_sch, hbank]
  · intro p w s hs hw
    refine Answers.of_write _ (execGateSwapCancel.eq_1 p s) hs (Chip.writeGateSwap_cancels hw) fun d hd => ⟨hd.access, ?_⟩
    rw [hd.written_sch, Chip.gatesMove_swap, Chip.gatesMove_bank, Chip.swapCancelled, Chip.setSch_same]
    exact ⟨rfl, rfl⟩
  · intro p s hs hw
    have hgate : s.chip.gated .GATE_SWAP p (fun c => c.writeGateSwap p 0xFF) = (.state, s.chip) := by
      rw [Chip.gated, hs]
      exact Chip.writeGateSwap_nothing hw
    exact Answers.of_abort (execGateSwapCancel.eq_1 p s) hgate (by decide) (by decide) fun d hd => hd.turnedAway.2
  · intro p s hs
    refine Answers.of_write (s.chip.mmOn p) (execMmEnableTrue.eq_1 p s) hs rfl fun d hd => ⟨hd.access, ?_, fun hu => ?_⟩
    · rw [hd.written_rdBool rfl, Chip.mmOn_enable]
    · rw [hd.written_rd rfl, hd.written_sch]
      exact Chip.mmOn_verifies hu
  · intro p s hs
    refine Answers.of_write (s.chip.mmOff p) (execMmEnableFalse.eq_1 p s) hs rfl fun d hd => ⟨hd.access, ?_⟩
    rw [hd.written_rdBool rfl, hd.written_rd rfl, hd.written_sch]
    exact Chip.mmOff_ends
  · intro p s hm hu hv
    refine Answers.of_runs (execMmVerifyTimer_sends hm hu hv) fun d hd =>
      ⟨?_, hd.onlySch (Chip.setSch_onlySch ..), hd.keeps (Chip.Keeps.refl _ _)⟩
    rw [hd.sch_eq, Chip.setSch_same, SchedSt.verifySent]
  · intro p s hm hu hv
    refine Answers.of_runs (execMmVerifyTimer_fails hm hu hv) fun d hd =>
      ⟨?_, hd.bare.trans (Chip.bare_wrRow ..), hd.keeps (Chip.Keeps.wrRow (.refl _ _) ?_)⟩
    · rw [hd.rd _ rfl]
      exact Chip.rd_wrRow_same ..
    · rfl
  · intro p s hu hm hv
    refine Answers.of_runs (execMmVerifyReceived_completes hu hm hv) fun d hd =>
      ⟨?_, hd.keeps (Chip.Keeps.lpiReplan ((Chip.Keeps.refl _ _).wrRow (.inl rfl)) (.inr rfl))⟩
    rw [hd.rd _ rfl, Chip.lpiReplan_rd _ _ (by decide +kernel)]
    exact Chip.rd_wrRow_same ..
  · intro p s hu
    refine Answers.of_runs (execMmVerifyReceived_answers hu) fun d hd =>
      ⟨?_, hd.onlySch (Chip.setSch_onlySch ..), hd.keeps (Chip.Keeps.refl _ _)⟩
    rw [hd.sch_eq, Chip.setSch_same]

end

section
/-!
PROOFS. Start decisions (R239, R251): what a frame that starts, or that is cut for an express frame, leaves in the scheduler's record.
-/
set_option Elab.async false
namespace Sys2Proof.Machine

/-! What starts (R239). -/

/-- The scheduler's record of a port without its rounds (R242). -/
def SchedSt.unrounded (s : SchedSt) : SchedSt := { s with svc := {}, queues := [] }

theorem SchedSt.of_unrounded {s t : SchedSt} (h : s.unrounded = t.unrounded) :
    s.live = t.live ∧ s.susp = t.susp ∧ s.decided = t.decided := by
  have hlive := congrArg SchedSt.live h
  have hsusp := congrArg SchedSt.susp h
  have hdecided := congrArg SchedSt.decided h
  exact ⟨hlive, hsusp, hdecided⟩

/-- A frame or fragment is the latest on the wire. -/
def SchedSt.onWire (s : SchedSt) (fr : Frag) (free : Nat) (susp : Option Susp) (smd : Nat) : SchedSt :=
  { s with live := s.live ++ [fr], free := free, susp := susp, smdNext := smd, lineOut := fr.content }

/-- A frame of a number has started at a position, and the port is free again from another on. -/
structure SchedSt.Starts (s t : SchedSt) (id pos free : Nat) : Prop where
  last : t.live.getLast?.map (fun y => (y.frame.id, y.start)) = some (id, pos)
  length : t.live.length = s.live.length + 1
  free : t.free = free
  decided : t.decided = s.decided

/-- A queue head leaves its queue, and the rounds follow (R242). -/
def Chip.unqueued (c : Chip) (p : Nat) (f : Frame) (vs : List Nat) (passed : Bool) : Chip :=
  let c := if c.qTimed p f.lq then c else c.commitRounds p f vs passed
  (c.setQueue f.fq ((c.queue f.fq).filter fun y => y.id != f.id)).emptiedRounds p

/-- The shapers of a frame that starts are charged, and a late launch is counted (R235, R243). -/
def Chip.charged (c : Chip) (p : Nat) (f : Frame) (v s n : Nat) (timed late : Bool) : Chip :=
  let c := if c.qShaped p f.lq && !timed then c.shTake (.flow (c.qShaper p f.lq)) s n else c
  let c := (c.shTake (.svc p v) s n).shTake (.port p) s n
  let c := if late then c.qCount p f.lq 16 4 1 else c
  if late && f.slept then c.inc .LPI_LATE_WAKE_COUNT p else c

section
variable {c : Chip} {p : Nat}

theorem Chip.commitRounds_unrounded (f : Frame) (vs : List Nat) (passed : Bool) :
    ((c.commitRounds p f vs passed).sch p).unrounded = (c.sch p).unrounded := by
  rw [Chip.commitRounds, Chip.setSch_same]
  rfl

theorem Chip.emptiedRounds_unrounded : ((c.emptiedRounds p).sch p).unrounded = (c.sch p).unrounded := by
  rw [Chip.emptiedRounds, Chip.setSch_same]
  rfl

theorem Chip.unqueued_unrounded (f : Frame) (vs : List Nat) (passed : Bool) :
    ((c.unqueued p f vs passed).sch p).unrounded = (c.sch p).unrounded := by
  refine Chip.emptiedRounds_unrounded.trans ?_
  split
  · rfl
  · exact Chip.commitRounds_unrounded ..

def Chip.charged_fx : Fx := .union [Chip.shTake_fx, Chip.qCount_fx, .of [] [.LPI_LATE_WAKE_COUNT]]

theorem Chip.charged_in (f : Frame) (v s n : Nat) (timed late : Bool) : Within Chip.charged_fx c (c.charged p f v s n timed late) := by
  have hflow : ∀ {d : Chip} (r : ShRef), Within Chip.charged_fx c d → Within Chip.charged_fx c (d.shTake r s n) :=
    fun r h => Chip.shTake_in h (by decide +kernel)
  have hqueue := Within.ite (p := (c.qShaped p f.lq && !timed) = true) (hflow (.flow (c.qShaper p f.lq)) (.refl _ c)) (.refl _ c)
  have hshapers := hflow (.port p) (hflow (.svc p v) hqueue)
  have hcount := Chip.qCount_in (p := p) (lq := f.lq) (o := 16) (n := 4) (k := 1) hshapers (by decide +kernel)
  have hlate := Within.ite (p := late = true) hcount hshapers
  exact .ite (hlate.inc (by decide +kernel)) hlate

/-- What starts is the latest on the wire; beside that and the rounds, the record changes in what it holds of suspension alone. -/
theorem Chip.startCand_sch (g : Grid) (pos : Nat) (x : Cand) (k : Pick) (passed : Bool) :
    ∃ (m : SchedSt) (fr : Frag) (susp : Option Susp) (smd : Nat),
      (c.startCand g p pos x k passed).sch p = m.onWire fr (g.after pos k.oct) susp smd ∧ m.unrounded = (c.sch p).unrounded ∧
      fr.frame.id = x.frame.id ∧ fr.start = pos ∧ (x.cont = none → k.final = true → susp = m.susp) := by
  unfold Chip.startCand
  cases hx : x.cont with
  | some y => exact ⟨c.sch p, _, _, _, Chip.setSch_same .., rfl, rfl, rfl, by simp⟩
  | none =>
    refine ⟨_, _, _, _, Chip.setSch_same .., ?_, rfl, rfl, fun _ hk => if_pos hk⟩
    change ((((c.unqueued p x.frame _ passed).charged p x.frame _ _ _ _ _).ptpLaunch x.frame _).2.2.sch p).unrounded = _
    rw [(Chip.ptpLaunch_in (.refl Chip.ptpLaunch_fx _) (by decide +kernel)).sch_eq (by decide +kernel),
      (Chip.charged_in ..).sch_eq (by decide +kernel), Chip.unqueued_unrounded]

theorem Chip.startCand_starts (g : Grid) (pos : Nat) (x : Cand) (k : Pick) (passed : Bool) :
    (c.sch p).Starts ((c.startCand g p pos x k passed).sch p) x.frame.id pos (g.after pos k.oct) := by
  obtain ⟨m, fr, susp, smd, hsch, hm, hid, hpos, -⟩ := c.startCand_sch (p := p) g pos x k passed
  obtain ⟨hlive, -, hdecided⟩ := SchedSt.of_unrounded hm
  rw [hsch]
  exact
    { last := by simp [SchedSt.onWire, hid, hpos]
      length := by simp [SchedSt.onWire, hlive]
      free := rfl
      decided := hdecided }

/-- A whole frame that starts leaves a suspended one suspended. -/
theorem Chip.startCand_susp {x : Cand} {k : Pick} (hx : x.cont = none) (hk : k.final = true) (g : Grid) (pos : Nat) (passed : Bool) :
    ((c.startCand g p pos x k passed).sch p).susp = (c.sch p).susp := by
  obtain ⟨m, fr, susp, smd, hsch, hm, -, -, hsusp⟩ := c.startCand_sch (p := p) g pos x k passed
  rw [hsch]
  exact (hsusp hx hk).trans (SchedSt.of_unrounded hm).2.1

/-! The decision (R239, R265). -/

theorem Chip.startChosen_reads {x : Cand} {ready : Bool} (h : ready = true ∨ x.cont.isSome = true ∨ x.frame.read = true)
    (g : Grid) (pos : Nat) (k : Pick) (passed : Bool) :
    c.startChosen g p pos x k passed ready = ((c.startCand g p pos x k passed).blink p).lpiReplan p := by
  refine if_neg ?_
  rcases h with h | h | h
  · simp [h]
  · cases hx : x.cont <;> simp_all
  · simp [h]

theorem Chip.startChosen_sch {x : Cand} {ready : Bool} (h : ready = true ∨ x.cont.isSome = true ∨ x.frame.read = true)
    (g : Grid) (pos : Nat) (k : Pick) (passed : Bool) :
    (c.startChosen g p pos x k passed ready).sch p = (c.startCand g p pos x k passed).sch p := by
  rw [Chip.startChosen_reads h, Chip.lpiReplan_sch, (Chip.blink_in (.refl Chip.blink_fx _) (by decide +kernel)).sch_eq (by decide +kernel)]

/-- Judging and choosing among the candidates leave the scheduler's record. -/
theorem Chip.choose_sch (g : Grid) (pos : Nat) (express : Bool) (q : Nat) : (c.choose g p pos express).2.sch q = c.sch q :=
  (Chip.choose_in (.refl Chip.choose_fx c) (by decide +kernel)).sch_eq (by decide +kernel) q

end

/-- A start point is decided, with the heads judged before. -/
def Chip.decided (c : Chip) (g : Grid) (p pos : Nat) : Chip :=
  (c.setSch p fun st => { st with decided := g.instant pos }).judgeHeads p (g.instant pos)

/-- The first start point still to be decided. -/
def Chip.nextDecision (c : Chip) (g : Grid) (p : Nat) : Nat := g.first (c.decideFrom g p) (c.sch p).free

theorem Chip.decided_sch (c : Chip) (g : Grid) (p pos : Nat) : (c.decided g p pos).sch p = { c.sch p with decided := g.instant pos } := by
  rw [Chip.decided, (Chip.judgeHeads_in (.refl Chip.judgeHeads_fx _) (by decide +kernel)).sch_eq (by decide +kernel), Chip.setSch_same]

section
variable {p : PortNo} {ready : Bool} {g : Grid} {s : State} (hg : s.chip.grid p = some g)
include hg

theorem execStartDecision_other {pos : Nat} (h : pos ≠ s.chip.nextDecision g p) :
    ∃ f, exec (.startDecision p pos ready) s = s.run f ∧ f s.chip = s.chip := by
  refine ⟨_, execStartDecision.eq_1 p pos ready s, ?_⟩
  simp only [hg]
  exact if_pos (by rw [Bool.or_eq_true]; exact .inr (decide_eq_true h))

theorem execExpressDecision_other {pos : Nat} {r : Frag} (hr : (s.chip.sch p).running = some r)
    (h : pos ≠ g.first (max r.wire (s.chip.decideFrom g p)) 0) :
    ∃ f, exec (.expressDecision p pos ready) s = s.run f ∧ f s.chip = s.chip := by
  refine ⟨_, execExpressDecision.eq_1 p pos ready s, ?_⟩
  simp only [hg, hr]
  exact if_pos (by simp [h])

variable (hm : s.chip.mayDecide p = true)
include hm

theorem execStartDecision_starts {x : Cand} {k : Pick} {b : Bool}
    (hc : ((s.chip.decided g p (s.chip.nextDecision g p)).choose g p (s.chip.nextDecision g p) false).1 = some (x, k, b)) :
    ∃ f, exec (.startDecision p (s.chip.nextDecision g p) ready) s = s.run f ∧ f s.chip =
      ((s.chip.decided g p (s.chip.nextDecision g p)).choose g p (s.chip.nextDecision g p) false).2.startChosen g p
        (s.chip.nextDecision g p) x k b ready := by
  refine ⟨_, execStartDecision.eq_1 p _ ready s, ?_⟩
  simp only [hg]
  rw [if_neg (by simp [hm, Chip.nextDecision])]
  simp only [Chip.decided] at hc
  simp only [hc]
  rfl

theorem execStartDecision_idle
    (hc : ((s.chip.decided g p (s.chip.nextDecision g p)).choose g p (s.chip.nextDecision g p) false).1 = none) :
    ∃ f, exec (.startDecision p (s.chip.nextDecision g p) ready) s = s.run f ∧ f s.chip =
      ((s.chip.decided g p (s.chip.nextDecision g p)).choose g p (s.chip.nextDecision g p) false).2 := by
  refine ⟨_, execStartDecision.eq_1 p _ ready s, ?_⟩
  simp only [hg]
  rw [if_neg (by simp [hm, Chip.nextDecision])]
  simp only [Chip.decided] at hc
  simp only [hc]
  rfl

end

/-! The cut for an express frame (R251). -/

theorem Chip.cutLive_sch (c : Chip) (g : Grid) (p : Nat) (r : Frag) (d : Nat) :
    ((c.cutLive g p r d).sch p).susp.map (fun y => (y.frame.id, y.frag)) = some (r.frame.id, r.frag + 1) ∧
      ((c.cutLive g p r d).sch p).decided = (c.sch p).decided := by
  rw [Chip.cutLive, Chip.setSch_same]
  exact ⟨rfl, rfl⟩

/-- The start point that EXPRESS_DECISION decides. -/
def Chip.nextExpress (c : Chip) (g : Grid) (p : Nat) (r : Frag) : Nat := g.first (max r.wire (c.decideFrom g p)) 0

/-- Octets of a running fragment's frame after which a cut is decided at a start point. -/
def Chip.cutAt (c : Chip) (g : Grid) (p : Nat) (r : Frag) (q : Nat) : Nat := max (c.leastCut p) (r.outBy g (g.instant q))

/-- Where an express frame starts after a cut. -/
def afterCut (g : Grid) (r : Frag) (q d : Nat) : Nat := g.first (g.instant q) (g.after r.start (preOctets + d + mcrcOctets - r.base))

theorem execExpressDecision_cuts {p : PortNo} {ready : Bool} {g : Grid} {r : Frag} {x : Cand} {k : Pick} {b : Bool} {q : Nat} {s : State}
    (hg : s.chip.grid p = some g) (hr : (s.chip.sch p).running = some r) (hq : q = s.chip.nextExpress g p r)
    (hm : s.chip.mayDecide p = true) (hpre : r.pre = true) (hact : s.chip.mmActive p = true) (hdone : g.instant q < r.done)
    (hrest : s.chip.cutAt g p r q + 64 ≤ (s.chip.sch p).whole r) (htotal : s.chip.cutAt g p r q < r.total)
    (hc : ((s.chip.setSch p fun st => { st with decided := g.instant q }).choose g p (afterCut g r q (s.chip.cutAt g p r q)) true).1
      = some (x, k, b)) (hready : ready = true ∨ x.frame.read = true) :
    ∃ f, exec (.expressDecision p q ready) s = s.run f ∧ f s.chip =
      (((s.chip.setSch p fun st => { st with decided := g.instant q }).choose g p (afterCut g r q (s.chip.cutAt g p r q)) true).2.cutLive
        g p r (s.chip.cutAt g p r q)).startChosen g p (afterCut g r q (s.chip.cutAt g p r q)) x k b ready := by
  have hwhole : ((s.chip.setSch p fun st => { st with decided := g.instant q }).sch p).whole r = (s.chip.sch p).whole r := by
    rw [Chip.setSch_same]
    rfl
  have hpos : g.first (max r.wire (s.chip.decideFrom g p)) 0 = q := hq.symm
  have hread : (x.cont.isNone && !x.frame.read && !ready) = false := by rcases hready with h | h <;> simp [h]
  have hcuts : ¬((s.chip.sch p).whole r < s.chip.cutAt g p r q + 64 ∨ r.total ≤ s.chip.cutAt g p r q) :=
    not_or.2 ⟨Nat.not_lt.2 hrest, Nat.not_le.2 htotal⟩
  refine ⟨_, execExpressDecision.eq_1 p q ready s, ?_⟩
  simp only [hg, hr]
  rw [if_neg (by simp [hm, hpre, hact, hdone, hpos])]
  rw [if_neg (by rw [hwhole, Bool.or_eq_true, decide_eq_true_eq, decide_eq_true_eq]; exact hcuts)]
  split
  · next hnone => exact absurd (hnone.symm.trans hc) (by simp)
  · next y l a hsome =>
    obtain ⟨rfl, rfl, rfl⟩ : y = x ∧ l = k ∧ a = b := by simpa using hsome.symm.trans hc
    exact if_neg (by rw [hread]; decide)

end Sys2Proof.Machine
end

section
/-!
PROOFS. Launch reads, ends of frames on the wire, and the judging of heads (R243, R249, R271, R274).
-/
set_option Elab.async false
namespace Sys2Proof.Machine

/-! Counters of a queue (Table 10-8). -/

section
variable {c : Chip}

/-- A counter of a queue goes up by what is counted, at its width. -/
theorem Chip.qCount_counts {o n : Nat} (hn : 0 < n) (ho : o + n ≤ 32) (c : Chip) (p lq k : Nat) :
    (c.qCount p lq o n k).rdField .Q_COUNTERS p lq o n = (c.rdField .Q_COUNTERS p lq o n + k) % 2 ^ (8 * n) :=
  Chip.rdField_wrField_same (r := .Q_COUNTERS) hn ho _

theorem Chip.qCount_other {o n o' n' : Nat} (hn : 0 < n) (ho : o + n ≤ 32) (hn' : 0 < n') (ho' : o' + n' ≤ 32)
    (h : o + n ≤ o' ∨ o' + n' ≤ o) (c : Chip) (p lq k : Nat) :
    (c.qCount p lq o n k).rdField .Q_COUNTERS p lq o' n' = c.rdField .Q_COUNTERS p lq o' n' :=
  Chip.rdField_wrField_other (r := .Q_COUNTERS) hn ho hn' ho' h _

theorem DropKind.offset_le (k : DropKind) : k.offset + 4 ≤ 32 := by cases k <;> decide

/-- A discarded frame is counted once in its queue's counter of the kind. -/
theorem Chip.dropQueued_counts (c : Chip) (f : Frame) (k : DropKind) :
    (c.dropQueued f k).rdField .Q_COUNTERS f.port f.lq k.offset 4 = (c.rdField .Q_COUNTERS f.port f.lq k.offset 4 + 1) % 2 ^ 32 := by
  rw [Chip.dropQueued, (Chip.pfcEval_in (.refl Chip.pfcEval_fx _) (by decide +kernel)).rdField (by decide +kernel) (by decide +kernel)]
  exact Chip.qCount_counts (by decide) k.offset_le ..

/-- A discarded frame leaves its queue. -/
theorem Chip.dropQueued_queue (c : Chip) (f : Frame) (k : DropKind) :
    (c.dropQueued f k).queue f.fq = (c.queue f.fq).filter fun x => x.id != f.id := by
  rw [Chip.dropQueued, (Chip.pfcEval_in (Chip.qCount_in (.refl (.union [Chip.pfcEval_fx, Chip.qCount_fx]) _) (by decide +kernel))
    (by decide +kernel)).queue_eq (by decide +kernel), Chip.setQueue_same]

theorem Chip.dropQueued_gone (c : Chip) (f : Frame) (k : DropKind) :
    ∀ x ∈ (c.dropQueued f k).queue f.fq, x.id ≠ f.id := fun x hx => by
  rw [Chip.dropQueued_queue] at hx
  simpa using (List.mem_filter.1 hx).2

/-! Channels (R271). -/

/-- A channel that is not in use has nothing to retire. -/
theorem Chip.retire_unused {h : Nat} (hs : c.rd .QC_STATE h ≠ 0) : c.retire h = c := if_pos hs

/-- A spare that takes a channel's place is another channel. -/
theorem Chip.replaced_state {h : Nat} (hs : c.rd .QC_STATE h ≠ 1) : (c.replaced h).rd .QC_STATE h = c.rd .QC_STATE h := by
  unfold Chip.replaced
  split
  · next x hx =>
    have hspare : c.rd .QC_STATE x = 1 := by simpa using List.find?_some hx
    have hne : h ≠ x := by rintro rfl; exact hs hspare
    rw [Chip.rd_raise, Chip.wr_eq, Chip.rd_wrRow_reg _ _ _ _ _ _ _ _ (by decide) (by decide), Chip.wr_eq,
      Chip.rd_wrRow_other _ _ _ _ _ _ _ _ (by simpa using hne) (.inl (by decide))]
  · rw [(Chip.missPredict_in (.refl Chip.missPredict_fx _) (by decide +kernel)).rd (by decide +kernel) (by decide +kernel), Chip.rd_raise,
      Chip.setBit_eq, Chip.rd_wrRow_reg _ _ _ _ _ _ _ _ (by decide) (by decide)]

theorem Chip.retire_leaves {h : Nat} (hs : c.rd .QC_STATE h = 0) : (c.retire h).rd .QC_STATE h ≠ 0 := by
  have hset : ∀ v, v = 3 ∨ v = 2 → ((c.wr .QC_STATE h v).replaced h).rd .QC_STATE h ≠ 0 := fun v hv => by
    have hrd : (c.wr .QC_STATE h v).rd .QC_STATE h = v := Chip.rd_wrRow_fits (by rcases hv with rfl | rfl <;> decide) ..
    rw [Chip.replaced_state] <;> rw [hrd] <;> omega
  rw [Chip.retire, if_neg (by simp [hs])]
  refine hset _ ?_
  split
  · exact .inl rfl
  · exact .inr rfl

/-- An uncorrectable error of a channel is counted and retires the channel. -/
def Chip.uncorrectable (c : Chip) (h : Nat) : Chip := (c.inc .QC_UE_COUNT h).retire h

theorem Chip.uncorrectable_within (c : Chip) (h : Nat) : Within (.union [Chip.retire_fx, .of [] [.QC_UE_COUNT]]) c (c.uncorrectable h) :=
  Chip.retire_in (Within.inc (.refl _ _) (by decide +kernel)) (by decide +kernel)

theorem Chip.uncorrectable_counts (c : Chip) (h : Nat) : Counts c (c.uncorrectable h) .QC_UE_COUNT h 1 := by
  rw [Counts, Chip.uncorrectable, (Chip.retire_in (.refl Chip.retire_fx _) (by decide +kernel)).rd (by decide +kernel) (by decide +kernel)]
  exact Chip.rd_wrRow_same ..

theorem Chip.uncorrectable_retires {h : Nat} (hs : c.rd .QC_STATE h = 0) : (c.uncorrectable h).rd .QC_STATE h ≠ 0 :=
  Chip.retire_leaves (by rw [Chip.inc_eq, Chip.rd_wrRow_reg _ _ _ _ _ _ _ _ (by decide) (by decide), hs])

/-- A corrected error of a channel is counted and kept with its instant. -/
def Chip.correctedNoted (c : Chip) (h : Nat) : Chip :=
  let d := c.inc .QC_CE_COUNT h
  { d with buf := { d.buf with
      ces := d.buf.ces.set h (c.root :: (c.buf.ces.getD h []).filter fun r => c.root < r + rootUs 1000000) [] } }

theorem Chip.correctedNoted_state (c : Chip) (h : Nat) : (c.correctedNoted h).rd .QC_STATE h = c.rd .QC_STATE h :=
  Chip.rd_wrRow_reg _ _ _ _ _ _ _ _ (by decide) (by decide)

/-- An unusable channel is not retired again. -/
theorem Chip.corrected_unusable {h : Nat} (hs : c.rd .QC_STATE h = 3) : c.corrected h = c.correctedNoted h := by
  have hstate : (c.correctedNoted h).rd .QC_STATE h ≠ 0 := by rw [Chip.correctedNoted_state, hs]; decide
  unfold Chip.corrected
  dsimp only
  split
  · exact Chip.retire_unused hstate
  · rfl

theorem Chip.correctedNoted_counts (c : Chip) (h : Nat) : Counts c (c.correctedNoted h) .QC_CE_COUNT h 1 := Chip.rd_wrRow_same ..

/-- Noting a corrected error writes its counter alone. -/
theorem Chip.correctedNoted_keeps (c : Chip) (h : Nat) :
    c.Keeps (c.correctedNoted h) (· = ⟨.QC_CE_COUNT, h, 0⟩) := .wrRow (.refl c _) rfl

theorem Chip.correctedNoted_queues (c : Chip) (h : Nat) : (c.correctedNoted h).queues = c.queues := Chip.wrRow_queues ..

/-! Launch reads (R265, R274). -/

/-- The frame of a number is marked in a queue as read. -/
def Chip.markRead (c : Chip) (fq n : Nat) : Chip :=
  c.setQueue fq ((c.queue fq).map fun x => if x.id = n then { x with read := true } else x)

theorem Chip.markRead_queue (c : Chip) (fq n : Nat) :
    (c.markRead fq n).queue fq = (c.queue fq).map fun x => if x.id = n then { x with read := true } else x := Chip.setQueue_same ..

@[simp] theorem Chip.rd_markRead (c : Chip) (fq n : Nat) (r : Reg) (i row : Nat) : (c.markRead fq n).rd r i row = c.rd r i row := rfl

theorem Chip.Keeps.markRead {b : Chip} {P : Key → Prop} (h : b.Keeps c P) (fq n : Nat) : b.Keeps (c.markRead fq n) P := h

/-- Which frame waits under a number rests on the queues. -/
theorem Chip.findFrame_congr {d : Chip} (h : d.queues = c.queues) (p n : Nat) : d.findFrame p n = c.findFrame p n := by
  rw [Chip.findFrame, h]
  rfl

section
variable {p : PortNo} {n : Nat} {h : QcNo} {s : State}

theorem execLaunchReadComplete_clean {f : Frame} (hf : s.chip.findFrame p n = some f) :
    ∃ g, exec (.launchReadComplete p n .clean) s = s.run g ∧ g s.chip = s.chip.markRead f.fq n := by
  refine ⟨_, execLaunchReadComplete.eq_1 p n .clean s, ?_⟩
  simp only [hf]
  rfl

theorem execLaunchReadComplete_corrected {f : Frame} (hf : s.chip.findFrame p n = some f) (hs : s.chip.rd .QC_STATE h = 3) :
    ∃ g, exec (.launchReadComplete p n (.corrected h)) s = s.run g ∧ g s.chip = (s.chip.correctedNoted h).markRead f.fq n := by
  refine ⟨_, execLaunchReadComplete.eq_1 p n (.corrected h) s, ?_⟩
  have hfind : (s.chip.correctedNoted h).findFrame p n = some f :=
    (Chip.findFrame_congr (s.chip.correctedNoted_queues h) p n).trans hf
  simp only [Chip.corrected_unusable hs, hfind]
  rfl

theorem execLaunchReadComplete_waiting {f : Frame} (hf : s.chip.findFrame p n = some f) :
    ∃ g, exec (.launchReadComplete p n (.uncorrectable h)) s = s.run g ∧
      g s.chip = ((s.chip.uncorrectable h).dropQueued f .other).raise .readDiscard (Cls.port.addr p) f.lq := by
  refine ⟨_, execLaunchReadComplete.eq_1 p n (.uncorrectable h) s, ?_⟩
  have hfind : ((s.chip.inc .QC_UE_COUNT h).retire h).findFrame p n = some f :=
    (Chip.findFrame_congr ((s.chip.uncorrectable_within h).part .queues (by decide +kernel)) p n).trans hf
  simp only [hfind]
  rfl

theorem execLaunchReadComplete_suspended {x : Susp} (hf : s.chip.findFrame p n = none) (hl : (s.chip.sch p).live = [])
    (hx : (s.chip.sch p).susp = some x) (hn : x.frame.id = n) :
    ∃ g, exec (.launchReadComplete p n (.uncorrectable h)) s = s.run g ∧
      g s.chip = ((s.chip.uncorrectable h).qCount p x.frame.lq 28 4 1).endBegun p n := by
  refine ⟨_, execLaunchReadComplete.eq_1 p n (.uncorrectable h) s, ?_⟩
  have hfind : ((s.chip.inc .QC_UE_COUNT h).retire h).findFrame p n = none :=
    (Chip.findFrame_congr ((s.chip.uncorrectable_within h).part .queues (by decide +kernel)) p n).trans hf
  simp [hfind, hl, hx, hn]
  rfl

end

end

/-! A suspended frame that is found bad (R274). -/

theorem Chip.endBegun_susp {c : Chip} {p n : Nat} {x : Susp} (hx : (c.sch p).susp = some x) (hn : x.frame.id = n) :
    ((c.endBegun p n).sch p).susp = none := by
  rw [Chip.endBegun, (Chip.pfcEval_in (.refl Chip.pfcEval_fx _) (by decide +kernel)).sch_eq (by decide +kernel), Chip.setSch_same, hx]
  simp [hn]

/-! The end of a frame or fragment on the wire (R12, R249, R250). -/

/-- A change of what a port counts of its reports leaves what is on the wire. -/
theorem Chip.setReports_live (c : Chip) (p q n : Nat) : ((c.setSch q fun s => { s with reports := n }).sch p).live = (c.sch p).live := by
  by_cases h : p = q
  · rw [h, Chip.setSch_same]
  · rw [Chip.setSch_other _ _ _ _ h]

section
variable (c : Chip) (p : Nat) (r : Frag)

/-- The oldest frame or fragment is off the wire. -/
def Chip.offWire : Chip := c.setSch p fun s => { s with live := s.live.drop 1, ended := s.ended ++ [r] }

/-- An end past the gate's close is counted (R249). -/
def Chip.overrunNoted : Chip :=
  let past := match r.close with
    | some cl => decide (r.done > cl)
    | none => false
  if past then (c.inc .GATE_OVERRUN_COUNT p).raise .gateOverrun (Cls.port.addr p) (c.svcOf r.frame) else c

/-- A fragment is counted (R250). -/
def Chip.fragCounted : Chip := if r.frag != 0 || !r.final then c.inc .MM_FRAG_TX p else c

/-- A whole frame is counted in its queue's counters (Table 10-8). -/
def Chip.frameCounted : Chip := (c.qCount p r.frame.lq 0 8 1).qCount p r.frame.lq 8 8 r.frame.len

/-- What follows the count of a whole frame: its service's counter, its timestamp report, and flow control (R12, R197, R221). -/
def Chip.frameReported : Chip :=
  let c := c.addField .SVC_COUNTERS p (c.svcOf r.frame) 0 8 1
  (if r.frame.tsReq then c.txReport r else c).pfcEval p

/-- Preemption that was to end does so with the last preemptable frame (R250). -/
def Chip.drainEnds : Chip := c.setSch p fun s =>
  if s.draining && s.susp.isNone && !(s.live.any fun x => x.pre) then { s with draining := false } else s

theorem Chip.fragEnd_eq : c.fragEnd p r =
    (let d := ((c.offWire p r).overrunNoted p r).fragCounted p r
     if !r.final then d else (d.frameCounted p r).frameReported p r).drainEnds p := rfl

theorem Chip.fragEnd_final (h : r.final = true) :
    c.fragEnd p r = (((((c.offWire p r).overrunNoted p r).fragCounted p r).frameCounted p r).frameReported p r).drainEnds p :=
  (c.fragEnd_eq p r).trans (congrArg (Chip.drainEnds · p) (if_neg (by rw [h]; decide)))

theorem Chip.fragEnd_fragment (h : r.final = false) :
    c.fragEnd p r = (((c.offWire p r).overrunNoted p r).fragCounted p r).drainEnds p :=
  (c.fragEnd_eq p r).trans (congrArg (Chip.drainEnds · p) (if_pos (by rw [h]; decide)))

/-- What an end counts before the frame's own counters. -/
def Chip.endCounts_fx : Fx := .of [.ev] [.GATE_OVERRUN_COUNT, .MM_FRAG_TX]

theorem Chip.overrunNoted_in : Within (.of [.ev] [.GATE_OVERRUN_COUNT]) c (c.overrunNoted p r) :=
  .ite (Within.raise (.inc (.refl _ c) (by decide +kernel)) (by decide +kernel)) (.refl _ c)

theorem Chip.endCounts_in : Within Chip.endCounts_fx c ((c.overrunNoted p r).fragCounted p r) :=
  have hover := (c.overrunNoted_in p r).mono (y := Chip.endCounts_fx) (by decide +kernel)
  .ite (hover.inc (by decide +kernel)) hover

theorem Chip.frameReported_in :
    Within (.union [Chip.txReport_fx, Chip.pfcEval_fx, .of [] [.SVC_COUNTERS]]) c (c.frameReported p r) :=
  have hcount := Within.addField (.refl (.union [Chip.txReport_fx, Chip.pfcEval_fx, .of [] [.SVC_COUNTERS]]) c) (by decide +kernel)
  Chip.pfcEval_in (.ite (Chip.txReport_in hcount (by decide +kernel)) hcount) (by decide +kernel)

theorem Chip.offWire_live : ((c.offWire p r).sch p).live = (c.sch p).live.drop 1 := by rw [Chip.offWire, Chip.setSch_same]

theorem Chip.drainEnds_live : ((c.drainEnds p).sch p).live = (c.sch p).live := by
  rw [Chip.drainEnds, Chip.setSch_same]
  split <;> rfl

/-- A timestamp report changes its port's record in the number of reports alone. -/
theorem Chip.txReport_live : ((c.txReport r).sch p).live = (c.sch p).live := by
  rw [Chip.txReport, Chip.setReports_live]
  refine congrArg SchedSt.live ?_
  rw [Chip.wr_eq, Chip.sch_wrRow, Chip.sch_wrRow]
  split <;> rfl

theorem Chip.frameReported_live : ((c.frameReported p r).sch p).live = (c.sch p).live := by
  have hcount : (c.addField .SVC_COUNTERS p (c.svcOf r.frame) 0 8 1).sch p = c.sch p := Chip.sch_wrRow ..
  rw [Chip.frameReported, (Chip.pfcEval_in (.refl Chip.pfcEval_fx _) (by decide +kernel)).sch_eq (by decide +kernel), ← hcount]
  split
  · exact Chip.txReport_live ..
  · rfl

theorem Chip.fragEnd_live : ((c.fragEnd p r).sch p).live = (c.sch p).live.drop 1 := by
  have hbefore : ((((c.offWire p r).overrunNoted p r).fragCounted p r).sch p).live = (c.sch p).live.drop 1 := by
    rw [(Chip.endCounts_in ..).sch_eq (by decide +kernel), Chip.offWire_live]
  cases h : r.final with
  | false => rw [Chip.fragEnd_fragment _ _ _ h, Chip.drainEnds_live, hbefore]
  | true =>
    rw [Chip.fragEnd_final _ _ _ h, Chip.drainEnds_live, Chip.frameReported_live, ← hbefore, Chip.frameCounted]
    exact congrArg SchedSt.live ((Chip.qCount_in (Chip.qCount_in (.refl Chip.qCount_fx _) (by decide +kernel)) (by decide +kernel)).sch_eq
      (by decide +kernel) p)

variable {c p r}

/-- A whole frame that ends is counted with its octets. -/
theorem Chip.fragEnd_counts (h : r.final = true) :
    (c.fragEnd p r).rdField .Q_COUNTERS p r.frame.lq 0 8 = (c.rdField .Q_COUNTERS p r.frame.lq 0 8 + 1) % 2 ^ 64 ∧
      (c.fragEnd p r).rdField .Q_COUNTERS p r.frame.lq 8 8 = (c.rdField .Q_COUNTERS p r.frame.lq 8 8 + r.frame.len) % 2 ^ 64 := by
  have hbefore : ∀ o, (((c.offWire p r).overrunNoted p r).fragCounted p r).rdField .Q_COUNTERS p r.frame.lq o 8
      = c.rdField .Q_COUNTERS p r.frame.lq o 8 := fun o =>
    (Chip.endCounts_in ..).rdField (by decide +kernel) (by decide +kernel) ..
  have hafter : ∀ (d : Chip) o, ((d.frameReported p r).drainEnds p).rdField .Q_COUNTERS p r.frame.lq o 8
      = d.rdField .Q_COUNTERS p r.frame.lq o 8 := fun d o =>
    (d.frameReported_in p r).rdField (by decide +kernel) (by decide +kernel) ..
  rw [Chip.fragEnd_final _ _ _ h, hafter, hafter, ← hbefore, ← hbefore, Chip.frameCounted]
  constructor
  · rw [Chip.qCount_other (by decide) (by decide) (by decide) (by decide) (.inr (by decide))]
    exact Chip.qCount_counts (by decide) (by decide) ..
  · rw [Chip.qCount_counts (by decide) (by decide), Chip.qCount_other (by decide) (by decide) (by decide) (by decide) (.inl (by decide))]

theorem Chip.fragEnd_fragments (h : r.final = false) : Counts c (c.fragEnd p r) .MM_FRAG_TX p 1 := by
  have hover : ((c.offWire p r).overrunNoted p r).rd .MM_FRAG_TX p = c.rd .MM_FRAG_TX p :=
    (Chip.overrunNoted_in ..).rd (by decide +kernel) (by decide +kernel) ..
  rw [Counts, Chip.fragEnd_fragment _ _ _ h, ← hover, Chip.fragCounted, if_pos (by simp [h])]
  exact Chip.rd_wrRow_same ..

theorem Chip.fragEnd_queues : (c.fragEnd p r).queues = c.queues :=
  (Chip.fragEnd_in (.refl Chip.fragEnd_fx c) (by decide +kernel)).part .queues (by decide +kernel)

end

theorem execFrameEndOnWire_ends {p : PortNo} {r : Frag} {l : List Frag} {s : State} (hl : (s.chip.sch p).live = r :: l) :
    ∃ f, exec (.frameEndOnWire p) s = s.run f ∧ f s.chip = (s.chip.fragEnd p r).lpiReplan p := by
  refine ⟨_, execFrameEndOnWire.eq_1 p s, ?_⟩
  simp only [hl]

/-! The judging of heads (R243, R244). -/

/-- A single head with a reason is discarded. -/
theorem Chip.judgeHeads_discards {c : Chip} {p e : Nat} {f : Frame} {k : DropKind} {n : EvName} (hq : c.queues = [(f.fq, [f])])
    (hp : f.port = p) (hf : c.headFate f e = some (k, n)) :
    c.judgeHeads p e = (c.dropQueued f k).raise n (Cls.port.addr f.port) f.lq := by
  simp only [Chip.judgeHeads, hq, Chip.each, List.any_cons, List.any_nil, Bool.or_false, hp, decide_true, List.filter_cons_of_pos,
    List.filter_nil, List.foldl_cons, List.foldl_nil, Chip.judgeQueue, hf]

/-- A head without a reason is kept, and with it what waits behind it. -/
theorem Chip.judgeHeads_keeps {c : Chip} {p e : Nat} {f : Frame} {l : List Frame} (hq : c.queues = [(f.fq, f :: l)])
    (hf : c.headFate f e = none) : c.judgeHeads p e = c := by
  have hhead : c.judgeQueue e (f :: l) = c := by rw [Chip.judgeQueue, hf]
  rw [Chip.judgeHeads, hq, List.filter_cons]
  split
  · exact hhead
  · rfl

end Sys2Proof.Machine
end

section
set_option Elab.async false
open Sys2Proof Sys2Proof.Machine

/-- Settles O30: judging and choosing leave the scheduler's record to what starts, which goes to the end of what is on the wire; a launch
read, an end on the wire and a judgement are followed through the frames of the operations beside them. -/
theorem framesStartAndEndOnTheWire : Obligations.FramesStartAndEndOnTheWire := by
  unfold Obligations.FramesStartAndEndOnTheWire
  refine ⟨?_, ?_, ?_, ?_, ?_, ?_, ?_, ?_, ?_, ?_, ?_, ?_, ?_⟩
  · intro p ready g x k b s pos c hg hm hc hready
    refine Answers.of_runs (execStartDecision_starts hg hm hc) fun d hd => ?_
    have hsch := (Chip.choose_sch (c := c) (p := p) g pos false p).trans (s.chip.decided_sch g p pos)
    obtain ⟨hlast, hlength, hfree, hdecided⟩ := Chip.startCand_starts (c := (c.choose g p pos false).2) (p := p) g pos x k b
    rw [hsch] at hlength hdecided
    rw [hd.sch_eq, Chip.startChosen_sch hready]
    exact ⟨hlast, hlength, hfree, hdecided⟩
  · intro p ready g s pos c hg hm hc
    refine Answers.of_runs (execStartDecision_idle hg hm (Option.isNone_iff_eq_none.1 hc)) fun d hd => ?_
    rw [hd.sch_eq, Chip.choose_sch, Chip.decided_sch]
    exact ⟨rfl, rfl, rfl⟩
  · intro p ready g r x k b s q e c cut pos hg hr hm hpre hact hdone hrest htotal hc hx hk hready
    refine Answers.of_runs (execExpressDecision_cuts hg hr rfl hm hpre hact hdone hrest htotal hc hready) fun d hd => ?_
    have hready' : ready = true ∨ x.cont.isSome = true ∨ x.frame.read = true := hready.imp_right .inr
    obtain ⟨hsusp, hcut⟩ := (c.choose g p pos true).2.cutLive_sch g p r cut
    have hstarts := Chip.startCand_starts (c := (c.choose g p pos true).2.cutLive g p r cut) (p := p) g pos x k b
    rw [hd.sch_eq, Chip.startChosen_sch hready']
    refine ⟨hstarts.last, ?_, hstarts.free, ?_⟩
    · exact (congrArg _ (Chip.startCand_susp hx hk g pos b)).trans hsusp
    · refine hstarts.decided.trans (hcut.trans ?_)
      rw [Chip.choose_sch, Chip.setSch_same]
  · intro p pos ready g s hg hpos
    exact Answers.of_runs (execStartDecision_other hg hpos) fun d hd => ⟨hd.bare, hd.keeps (Chip.Keeps.refl _ _)⟩
  · intro p pos ready g r s hg hr hpos
    exact Answers.of_runs (execExpressDecision_other hg hr hpos) fun d hd => ⟨hd.bare, hd.keeps (Chip.Keeps.refl _ _)⟩
  · intro p n f s hf
    refine Answers.of_runs (execLaunchReadComplete_clean hf) fun d hd => ⟨?_, ?_, hd.keeps (Chip.Keeps.refl _ _)⟩
    · rw [hd.queue_eq, Chip.markRead_queue]
    · rw [hd.bare, hd.queues_eq]
      rfl
  · intro p n h f s hf
    refine Answers.of_runs (execLaunchReadComplete_waiting hf) fun d hd => ?_
    have hdrop := Chip.dropQueued_in (c := s.chip.uncorrectable h) (f := f) (k := .other) (.refl Chip.dropQueued_fx _) (by decide +kernel)
    refine ⟨?_, ?_, fun hs => ?_⟩
    · rw [hd.queue_eq]
      exact (s.chip.uncorrectable h).dropQueued_gone f .other
    · rw [Counts, hd.rd _ rfl, Chip.rd_raise, hdrop.rd (by decide +kernel) (by decide +kernel)]
      exact Chip.uncorrectable_counts ..
    · rw [hd.rd _ rfl, Chip.rd_raise, hdrop.rd (by decide +kernel) (by decide +kernel)]
      exact Chip.uncorrectable_retires hs
  · intro p n h f s hf hs
    refine Answers.of_runs (execLaunchReadComplete_corrected hf hs) fun d hd =>
      ⟨?_, ?_, hd.keeps ((s.chip.correctedNoted_keeps h).markRead f.fq n)⟩
    · rw [hd.queue_eq, Chip.markRead_queue, Chip.queue, Chip.correctedNoted_queues]
      rfl
    · rw [Counts, hd.rd _ rfl, Chip.rd_markRead]
      exact s.chip.correctedNoted_counts h
  · intro p n h x s hf hl hx hn
    refine Answers.of_runs (execLaunchReadComplete_suspended hf hl hx hn) fun d hd => ?_
    have hbefore := s.chip.uncorrectable_within h
    have hcount := Chip.qCount_in (c := s.chip.uncorrectable h) (p := p) (lq := x.frame.lq) (o := 28) (n := 4) (k := 1)
      (.refl Chip.qCount_fx _) (by decide +kernel)
    have hend := Chip.endBegun_in (c := (s.chip.uncorrectable h).qCount p x.frame.lq 28 4 1) (p := p) (id := n) (.refl Chip.endBegun_fx _)
      (by decide +kernel)
    refine ⟨?_, ?_, ?_⟩
    · rw [hd.sch_eq]
      exact Chip.endBegun_susp (by rw [hcount.sch_eq (by decide +kernel), hbefore.sch_eq (by decide +kernel), hx]) hn
    · rw [Counts, hd.rd _ rfl, hend.rd (by decide +kernel) (by decide +kernel), hcount.rd (by decide +kernel) (by decide +kernel)]
      exact Chip.uncorrectable_counts ..
    · rw [hd.rdField rfl, hend.rdField (by decide +kernel) (by decide +kernel), Chip.qCount_counts (by decide) (by decide),
        hbefore.rdField (by decide +kernel) (by decide +kernel)]
  · intro p r l s hl hfinal
    refine Answers.of_runs (execFrameEndOnWire_ends hl) fun d hd => ?_
    have hplan := (s.chip.fragEnd p r).lpiReplan_within p
    rw [hd.sch_eq, hd.rdField rfl, hd.rdField rfl, Chip.lpiReplan_sch, hplan.rdField (by decide +kernel) (by decide +kernel),
      hplan.rdField (by decide +kernel) (by decide +kernel), Chip.fragEnd_live, hl]
    exact ⟨rfl, Chip.fragEnd_counts hfinal⟩
  · intro p r l s hl hfinal
    refine Answers.of_runs (execFrameEndOnWire_ends hl) fun d hd => ⟨?_, ?_, ?_⟩
    · rw [hd.sch_eq, Chip.lpiReplan_sch, Chip.fragEnd_live, hl]
      rfl
    · rw [Counts, hd.rd _ rfl, Chip.lpiReplan_rd _ _ (by decide +kernel)]
      exact Chip.fragEnd_fragments hfinal
    · rw [hd.queues_eq]
      exact (((s.chip.fragEnd p r).lpiReplan_within p).part .queues (by decide +kernel)).trans Chip.fragEnd_queues
  · intro p f k e s hq hp hf
    refine Answers.of_run (execQueueHeadJudge.eq_1 p s) fun d hd => ?_
    rw [Chip.judgeHeads_discards hq hp hf] at hd
    have hplan := ((s.chip.dropQueued f k).raise e (Cls.port.addr f.port) f.lq).lpiReplan_within p
    have hqueue : s.chip.queue f.fq = [f] := by simp [Chip.queue, hq, Tab.getD_def, Tab.get?_cons]
    refine ⟨?_, ?_⟩
    · rw [hd.queue_eq, hplan.queue_eq (by decide +kernel)]
      refine (s.chip.dropQueued_queue f k).trans ?_
      simp [hqueue]
    · rw [hd.rdField rfl, hplan.rdField (by decide +kernel) (by decide +kernel), Chip.rdField_raise, ← hp]
      exact Chip.dropQueued_counts ..
  · intro p f l s hq hf
    refine Answers.of_run (execQueueHeadJudge.eq_1 p s) fun d hd => ?_
    rw [Chip.judgeHeads_keeps hq hf] at hd
    refine ⟨?_, hd.keeps (Chip.Keeps.lpiReplan (.refl _ _) rfl)⟩
    rw [hd.queues_eq]
    exact (s.chip.lpiReplan_within p).part .queues (by decide +kernel)

end

section
/-!
PROOFS. A write of `Q_BLOCKS` that gives a waiting frame another port-local number gives it another service (R11, R232), and PFC follows
the services' occupancy (R197).
-/
set_option Elab.async false
namespace Sys2Proof.Machine

/-- A frame of 65 cells that waits in the first queue of block 1, the port's second block. -/
def frameOfBlock1 : Frame := { id := 7, port := 0, lq := 512, fq := 512, octets := [], cells := List.replicate 65 0 }

/-- Port 0 is disabled and holds blocks 0 and 1. Its queue 0 is of service 1 and its queue 512 of service 0, which has a limit of 129
cells and a headroom of 64, and is in XOFF because of a frame of 65 cells in queue 512. -/
def secondBlockInXoff : State where
  chip :=
    let c : Chip := { pwr := { rootOn := true }, boot := { phase := .running, applied := true }, queues := [(512, [frameOfBlock1])] }
    ((((((c.wr .PORT_ENABLE 0 0).wrRow .Q_BLOCKS 0 1 1).wrRow .Q_BLOCK_OWNER 0 1 0).wrRow .Q_CONFIG 0 0
      (1 * 2 ^ 125 + 16 * 2 ^ 112 + 100000 * 2 ^ 64 + 1000 * 2 ^ 48)).wr .PFC_HEADROOM 0 64).wrRow .SVC_BUF 0 0
      (64 * 2 ^ 80 + 256 * 2 ^ 64 + 129)).wr .PFC_STATUS 0 1

/-- The flow control of the port stands as its occupancy asks. -/
theorem secondBlockInXoff_pfc : secondBlockInXoff.chip.pfcEval 0 = secondBlockInXoff.chip := by decide +kernel

/-- The write is one that R230 accepts. -/
theorem secondBlockInXoff_accepts : (secondBlockInXoff.chip.writeQBlocks 0 0 1).1 = .ok := by decide +kernel

end Sys2Proof.Machine
end

section
set_option Elab.async false
open Sys2Proof Sys2Proof.Machine

/-- Refutes O32, by its clause on `Q_BLOCKS`: the clause lets no other object change than `Q_BLOCKS` and `Q_BLOCK_OWNER`. Port 0 holds
blocks 0 and 1 and writes block 1, which it holds already, over its row 0. The frame in queue 512 is then one of queue 0 and of
service 1, service 0 is empty, and the device releases its XOFF, as R197 asks: bit 0 of `PFC_STATUS` falls. -/
theorem not_queueAndShaperWritesAreCarriedOut : ¬ Obligations.QueueAndShaperWritesAreCarriedOut := by
  unfold Obligations.QueueAndShaperWritesAreCarriedOut
  rintro ⟨hblocks, -⟩
  obtain ⟨d, hd, -, -, -, hkeeps⟩ := (hblocks 0 0 1 secondBlockInXoff (by decide) (by decide +kernel) (by decide +kernel)
    (by decide +kernel) (by decide +kernel) (by decide +kernel) (by decide +kernel)).effect (execQBlocksWrite.eq_1 0 0 1 _)
  have hstatus := hkeeps ⟨.PFC_STATUS, 0, 0⟩ rfl (by decide)
  rw [hd.cells _ rfl id] at hstatus
  exact absurd hstatus (by decide +kernel)

end

section
/-!
PROOFS. Cells of arriving frames (R233, R257 to R261): a cell that its channel takes, a frame whose last cell is written, and a frame that
is discarded under a cause.
-/
set_option Elab.async false
namespace Sys2Proof.Machine

/-! A frame that is no longer among those that arrive. -/

/-- A frame leaves the port's arriving frames. -/
def Chip.endArrival (c : Chip) (p : Nat) (f : Frame) : Chip :=
  c.setSch p fun s => { s with arriving := s.arriving.filter fun x => x.id != f.id }

theorem Chip.endArrival_gone {c : Chip} {p : Nat} {f : Frame} : ∀ x ∈ ((c.endArrival p f).sch p).arriving, x.id ≠ f.id := fun x hx => by
  rw [Chip.endArrival, Chip.setSch_same] at hx
  simpa using (List.mem_filter.1 hx).2

/-! A frame that becomes eligible (R233). -/

section
variable (c : Chip) (p v : Nat) (f : Frame)

/-- A frame that is due before the one ahead of it is counted. -/
def Chip.orderNoted : Chip :=
  if c.qTimed p f.lq && (match (c.queue f.fq).getLast?, f.launch with
    | some y, some l => decide (l < y.due)
    | _, _ => false) then c.inc .Q_OOO_COUNT p else c

/-- The frame as it stands at the tail of its queue: eligible at this instant. -/
def Chip.markEligible : Frame := { f with elig := c.tb, eligRoot := c.root, slept := (c.port p).lpi.state != .awake }

/-- The frame joins the tail of its queue. -/
def Chip.joinQueue : Chip := c.setQueue f.fq (c.queue f.fq ++ [f])

/-- What follows a frame that has joined its queue: the guarantee is charged, the size is seen, and sleep is planned anew. -/
def Chip.joined : Chip :=
  let c := c.guaranteeCharge p v f.len
  (if f.inProfile then c.sizeSeen p v f.len else c).lpiReplan p

theorem Chip.frameEligible_eq :
    c.frameEligible p v f = (((c.orderNoted p f).endArrival p f).joinQueue (c.markEligible p f)).joined p v (c.markEligible p f) := rfl

theorem Chip.orderNoted_in : Within (.of [] [.Q_OOO_COUNT]) c (c.orderNoted p f) := .ite (.inc (.refl _ c) (by decide +kernel)) (.refl _ c)

theorem Chip.joined_in : Within (.union [Chip.guaranteeCharge_fx, Chip.sizeSeen_fx, Chip.lpiReplan_fx]) c (c.joined p v f) :=
  have hcharge := Chip.guaranteeCharge_in (.refl (.union [Chip.guaranteeCharge_fx, Chip.sizeSeen_fx, Chip.lpiReplan_fx]) c)
    (by decide +kernel)
  Chip.lpiReplan_in (.ite (Chip.sizeSeen_in hcharge (by decide +kernel)) hcharge) (by decide +kernel)

/-- A frame whose last cell is written waits at the tail of its queue, eligible at this instant. -/
theorem Chip.frameEligible_queue : (c.frameEligible p v f).queue f.fq = c.queue f.fq ++ [c.markEligible p f] := by
  rw [Chip.frameEligible_eq, (Chip.joined_in ..).queue_eq (by decide +kernel), ← (c.orderNoted_in p f).queue_eq (by decide +kernel)]
  exact Chip.setQueue_same ..

/-- It is no longer among the frames that arrive. -/
theorem Chip.frameEligible_gone : ∀ x ∈ ((c.frameEligible p v f).sch p).arriving, x.id ≠ f.id := by
  rw [Chip.frameEligible_eq, (Chip.joined_in ..).sch_eq (by decide +kernel)]
  exact Chip.endArrival_gone

end

/-! A cell that is taken (R258). -/

section
variable {c : Chip} {p h : Nat} {f : Frame} {l : List Frame} {inP : Bool}

/-- The frame with a further cell. -/
def Frame.withCell (f : Frame) (h : Nat) (inP : Bool) : Frame := { f with cells := h :: f.cells, inProfile := inP }

/-- The cell's write waits at the channel, and the arriving frame holds the cell. -/
def Chip.takeCell (c : Chip) (p h : Nat) (f : Frame) (inP : Bool) : Chip :=
  let c : Chip := { c with buf := { c.buf with
    writes := c.buf.writes.set h (c.buf.writes.getD h [] ++ [⟨1, inP || c.qTimed p f.lq⟩]) [] } }
  c.setSch p fun st => { st with arriving := st.arriving.map fun x => if x.id = f.id then f.withCell h inP else x }

theorem Chip.takeCell_head (hl : (c.sch p).arriving = f :: l) :
    ((c.takeCell p h f inP).sch p).arriving.head? = some (f.withCell h inP) := by
  have harriving : ((c.takeCell p h f inP).sch p).arriving
      = (c.sch p).arriving.map fun x => if x.id = f.id then f.withCell h inP else x := congrArg SchedSt.arriving (Chip.setSch_same ..)
  rw [harriving, hl, List.map_cons, List.head?_cons, if_pos rfl]

theorem Chip.takeCell_writes : ((c.takeCell p h f inP).buf.writes.getD h []).length = (c.buf.writes.getD h []).length + 1 := by
  have hwrites : (c.takeCell p h f inP).buf.writes.getD h [] = c.buf.writes.getD h [] ++ [⟨1, inP || c.qTimed p f.lq⟩] :=
    Tab.getD_set_same ..
  rw [hwrites, List.length_append, List.length_singleton]

end

/-! A frame that is discarded (R261). -/

theorem BufCause.offset_le (k : BufCause) : k.offset + 4 ≤ 32 := by cases k <;> decide

section
variable {c : Chip} {p v : Nat} {f : Frame} {k : BufCause}

theorem Chip.dropArriving_eq : c.dropArriving p f v k false =
    (((c.endArrival p f).qCount p f.lq 28 4 1).addField .SVC_BUF_STATE p v k.offset 4 1).pfcEval p := rfl

/-- A discard leaves everything but the arriving frames, the counters and flow control. -/
theorem Chip.dropArriving_within :
    Within (.union [Chip.qCount_fx, Chip.pfcEval_fx, .of [] [.SVC_BUF_STATE]]) (c.endArrival p f) (c.dropArriving p f v k false) :=
  Chip.pfcEval_in (Within.addField (Chip.qCount_in (.refl _ _) (by decide +kernel)) (by decide +kernel)) (by decide +kernel)

theorem Chip.dropArriving_gone : ∀ x ∈ ((c.dropArriving p f v k false).sch p).arriving, x.id ≠ f.id := by
  rw [Chip.dropArriving_within.sch_eq (by decide +kernel)]
  exact Chip.endArrival_gone

theorem Chip.dropArriving_queues : (c.dropArriving p f v k false).queues = c.queues :=
  Chip.dropArriving_within.part .queues (by decide +kernel)

/-- The cause is counted for the service. -/
theorem Chip.dropArriving_cause :
    (c.dropArriving p f v k false).rdField .SVC_BUF_STATE p v k.offset 4 = (c.rdField .SVC_BUF_STATE p v k.offset 4 + 1) % 2 ^ 32 := by
  rw [Chip.dropArriving_eq, (Chip.pfcEval_in (.refl Chip.pfcEval_fx _) (by decide +kernel)).rdField (by decide +kernel) (by decide +kernel),
    Chip.addField, Chip.rdField_wrField_same (by decide) k.offset_le,
    (Chip.qCount_in (.refl Chip.qCount_fx _) (by decide +kernel)).rdField (by decide +kernel) (by decide +kernel)]
  rfl

/-- The frame is counted in its queue's counter of the other discards. -/
theorem Chip.dropArriving_counts :
    (c.dropArriving p f v k false).rdField .Q_COUNTERS p f.lq 28 4 = (c.rdField .Q_COUNTERS p f.lq 28 4 + 1) % 2 ^ 32 := by
  rw [Chip.dropArriving_eq, (Chip.pfcEval_in (.refl Chip.pfcEval_fx _) (by decide +kernel)).rdField (by decide +kernel) (by decide +kernel),
    Chip.addField_eq, Chip.rdField_wrRow_reg (by decide) (by decide), Chip.qCount_counts (by decide) (by decide)]
  rfl

end

/-! ADMIT_CELL. -/

/-- Whether the frame of a cell is in-profile: its first cell decides (R260). -/
def Chip.cellInProfile (c : Chip) (p : Nat) (f : Frame) : Bool := if f.cells.isEmpty then c.inProfileNow p (c.svcOf f) else f.inProfile

section
variable {p : PortNo} {h : QcNo} {fill : WriteFill} {f : Frame} {l : List Frame} {s : State} (hl : (s.chip.sch p).arriving = f :: l)
include hl

section
variable (hh : h.val = s.chip.chooseChannel f) (hk : s.chip.admitCause p (s.chip.svcOf f) f (s.chip.cellInProfile p f) fill = none)
include hh hk

theorem execAdmitCell_takes : ∃ g, exec (.admitCell p h fill) s = s.run g ∧ g s.chip =
    (let d := s.chip.takeCell p h f (s.chip.cellInProfile p f)
     if 64 * (f.cells.length + 1) ≥ f.len then d.frameEligible p (s.chip.svcOf f) (f.withCell h (s.chip.cellInProfile p f)) else d).pfcEval p := by
  refine ⟨_, execAdmitCell.eq_1 p h fill s, ?_⟩
  unfold Chip.cellInProfile at hk ⊢
  simp only [hl, hk, ne_eq, hh, not_true_eq_false, if_false]
  rfl

theorem execAdmitCell_more (hlen : 64 * (f.cells.length + 1) < f.len) : ∃ g, exec (.admitCell p h fill) s = s.run g ∧
    g s.chip = (s.chip.takeCell p h f (s.chip.cellInProfile p f)).pfcEval p := by
  obtain ⟨g, he, hg⟩ := execAdmitCell_takes hl hh hk
  exact ⟨g, he, hg.trans (congrArg (Chip.pfcEval · p) (if_neg (by omega)))⟩

theorem execAdmitCell_last (hlen : f.len ≤ 64 * (f.cells.length + 1)) : ∃ g, exec (.admitCell p h fill) s = s.run g ∧
    g s.chip = ((s.chip.takeCell p h f (s.chip.cellInProfile p f)).frameEligible p (s.chip.svcOf f)
      (f.withCell h (s.chip.cellInProfile p f))).pfcEval p := by
  obtain ⟨g, he, hg⟩ := execAdmitCell_takes hl hh hk
  exact ⟨g, he, hg.trans (congrArg (Chip.pfcEval · p) (if_pos hlen))⟩

end

theorem execAdmitCell_drops {k : BufCause} (hk : s.chip.admitCause p (s.chip.svcOf f) f (s.chip.cellInProfile p f) fill = some k)
    (hin : s.chip.cellInProfile p f = false) (hrate : k ≠ .rate) : ∃ g, exec (.admitCell p h fill) s = s.run g ∧
      g s.chip = s.chip.dropArriving p f (s.chip.svcOf f) k false := by
  refine ⟨_, execAdmitCell.eq_1 p h fill s, ?_⟩
  rw [hin] at hk
  unfold Chip.cellInProfile at hin
  simp only [hl, hk, hin, hrate, decide_false, Bool.false_and, Bool.false_eq_true, if_false]

end

end Sys2Proof.Machine
end

section
/-!
PROOFS. Scrubbing and the retirement of channels (R271, R273, R274, Table 11-6), and re-evaluation (R270).
-/
set_option Elab.async false
namespace Sys2Proof.Machine

/-! Retirement. -/

section
variable {c d : Chip} {h : Nat}

/-- The cells that a channel's frames hold rest on the queues and on the scheduler's records. -/
theorem Within.chUsed_eq {x : Fx} (hw : Within x c d) (hq : x.hasPart .queues = false) (hs : x.hasPart .sched = false) (h : Nat) :
    d.chUsed h = c.chUsed h := by
  have hqueues : d.queues = c.queues := hw.part .queues hq
  have hsched : d.sched = c.sched := hw.part .sched hs
  rw [Chip.chUsed, Chip.frames, hqueues, hsched]
  rfl

/-- An active channel that is retired drains while frames hold its cells, and is unusable without any. -/
theorem Chip.retire_state (hs : c.rd .QC_STATE h = 0) : (c.retire h).rd .QC_STATE h = if c.chUsed h = 0 then 3 else 2 := by
  have hset : ∀ v, v = 3 ∨ v = 2 → ((c.wr .QC_STATE h v).replaced h).rd .QC_STATE h = v := fun v hv => by
    have hrd : (c.wr .QC_STATE h v).rd .QC_STATE h = v := Chip.rd_wrRow_fits (by rcases hv with rfl | rfl <;> decide) ..
    rw [Chip.replaced_state (by rw [hrd]; omega), hrd]
  rw [Chip.retire, if_neg (not_not_intro hs)]
  exact hset _ (ite_eq_or_eq ..)

theorem Chip.uncorrectable_state (hs : c.rd .QC_STATE h = 0) :
    (c.uncorrectable h).rd .QC_STATE h = if c.chUsed h = 0 then 3 else 2 := by
  have hcount : Within (.of [] [.QC_UE_COUNT]) c (c.inc .QC_UE_COUNT h) := .inc (.refl _ c) (by decide +kernel)
  rw [Chip.uncorrectable, Chip.retire_state ((hcount.rd (by decide +kernel) (by decide +kernel) ..).trans hs),
    hcount.chUsed_eq (by decide +kernel) (by decide +kernel)]

/-! Corrected errors (R274). -/

/-- Corrected errors of a channel in the second up to now, without the present one. -/
def Chip.recentCes (c : Chip) (h : Nat) : List Nat := (c.buf.ces.getD h []).filter fun r => c.root < r + rootUs 1000000

theorem Chip.correctedNoted_ces : (c.correctedNoted h).buf.ces.getD h [] = c.root :: c.recentCes h := by
  rw [Chip.correctedNoted, Tab.getD_set_same, Chip.recentCes]

/-- Of the parts beside the objects, noting a corrected error changes the errors kept of the channels alone. -/
theorem Chip.correctedNoted_buf : (c.correctedNoted h).buf = { c.buf with ces := (c.correctedNoted h).buf.ces } := by
  rw [Chip.correctedNoted, Chip.inc_eq, Chip.wrRow_buf]

theorem Chip.correctedNoted_bare : (c.correctedNoted h).bare = { c.bare with buf := (c.correctedNoted h).buf } :=
  congrArg (fun b : Chip => { b with buf := (c.correctedNoted h).buf }) (Chip.bare_wrRow c .QC_CE_COUNT h 0 _)

theorem Chip.correctedNoted_rd {r : Reg} (hr : r ≠ .QC_CE_COUNT) (i row : Nat) : (c.correctedNoted h).rd r i row = c.rd r i row :=
  Chip.rd_wrRow_reg _ _ _ _ _ _ _ _ hr (by decide)

theorem Chip.corrected_eq : c.corrected h =
    if c.rd .BUF_CE_LIMIT < (c.recentCes h).length + 1 then (c.correctedNoted h).retire h else c.correctedNoted h := by
  rw [← c.correctedNoted_rd (h := h) (r := .BUF_CE_LIMIT) (by decide)]
  rfl

/-- Up to the limit a corrected error is noted alone. -/
theorem Chip.corrected_within (hn : (c.recentCes h).length < c.rd .BUF_CE_LIMIT) : c.corrected h = c.correctedNoted h :=
  Chip.corrected_eq.trans (if_neg (by omega))

/-- Past the limit it retires the channel. -/
theorem Chip.corrected_past (hn : c.rd .BUF_CE_LIMIT ≤ (c.recentCes h).length) : c.corrected h = (c.correctedNoted h).retire h :=
  Chip.corrected_eq.trans (if_pos (by omega))

theorem Chip.corrected_past_counts (hn : c.rd .BUF_CE_LIMIT ≤ (c.recentCes h).length) : Counts c (c.corrected h) .QC_CE_COUNT h 1 := by
  rw [Counts, Chip.corrected_past hn, (Chip.retire_in (.refl Chip.retire_fx _) (by decide +kernel)).rd (by decide +kernel) (by decide +kernel)]
  exact c.correctedNoted_counts h

theorem Chip.corrected_past_state (hn : c.rd .BUF_CE_LIMIT ≤ (c.recentCes h).length) (hs : c.rd .QC_STATE h = 0) :
    (c.corrected h).rd .QC_STATE h = if c.chUsed h = 0 then 3 else 2 := by
  have hnoted : Within (.of [.buf] [.QC_CE_COUNT]) c (c.correctedNoted h) :=
    (Within.inc (.refl _ c) (by decide +kernel)).upd_buf (by decide +kernel)
  rw [Chip.corrected_past hn, Chip.retire_state (by rw [Chip.correctedNoted_state, hs]),
    hnoted.chUsed_eq (by decide +kernel) (by decide +kernel)]

end

/-! SCRUB_READ. -/

/-- A word waits for its write-back (R273). -/
def Chip.writeBackWaits (c : Chip) (h cell : Nat) : Chip := { c with buf := { c.buf with writeBack := c.buf.writeBack ++ [(h, cell)] } }

/-- The frame of a number that holds a cell of a channel is marked bad (R274). -/
def Chip.markBad (c : Chip) (h : Nat) : Option Nat → Chip
  | none => c
  | some id => { c with queues := c.queues.map fun e =>
      (e.1, e.2.map fun f => if f.id = id && f.cells.contains h then { f with bad := true } else f) }

theorem Chip.rd_markBad (c : Chip) (h : Nat) (n : Option Nat) (r : Reg) (i row : Nat) : (c.markBad h n).rd r i row = c.rd r i row := by
  cases n <;> rfl

section
variable {h : QcNo} {cell : Fin 65536} {s : State}

/-- A read that finds nothing to correct has no effect. -/
theorem execScrubRead_clean : ∃ g, exec (.scrubRead h cell .clean) s = s.run g ∧ g s.chip = s.chip :=
  ⟨_, execScrubRead.eq_1 h cell .clean s, ite_self _⟩

section
variable (hs : s.chip.rd .QC_STATE h ≠ 3) (hroot : s.chip.pwr.rootOn = true) (hgate : s.chip.rdBit .LEGACY_GATE 4 = true)
include hs hroot hgate

theorem execScrubRead_corrected : ∃ g, exec (.scrubRead h cell .corrected) s = s.run g ∧
    g s.chip = (s.chip.writeBackWaits h cell).corrected h :=
  ⟨_, execScrubRead.eq_1 h cell .corrected s, if_neg (by simp [hs, hroot, hgate])⟩

theorem execScrubRead_uncorrectable (n : Option Nat) : ∃ g, exec (.scrubRead h cell (.uncorrectable n)) s = s.run g ∧
    g s.chip = (s.chip.uncorrectable h).markBad h n := by
  refine ⟨_, execScrubRead.eq_1 h cell (.uncorrectable n) s, (if_neg (by simp [hs, hroot, hgate])).trans ?_⟩
  cases n <;> rfl

end

end

/-! Re-evaluation (R270). -/

section
variable {c : Chip}

/-- The least size seen of a service does not rest on another service's row. -/
theorem Chip.wrField_minSeen_row {i row p v : Nat} (hk : ¬(p = i ∧ v = row)) (c : Chip) (o n x : Nat) :
    (c.wrField .SVC_BUF_STATE i row o n x).ssMinSeen p v = c.ssMinSeen p v := by
  have hcell : (⟨.SVC_BUF_STATE, p, v⟩ : Key) ≠ ⟨.SVC_BUF_STATE, i, row⟩ := by simpa using hk
  rw [Chip.ssMinSeen, Chip.rdField, Chip.wrField_eq, Chip.rd_wrRow_other _ _ _ _ _ _ _ _ hcell (.inl (by decide))]
  rfl

/-- The least size seen of a service does not rest on the fields that lie apart from it. -/
theorem Chip.wrField_minSeen {o n : Nat} (hn : 0 < n) (ho : o + n ≤ 32) (hapart : o + n ≤ 12 ∨ 14 ≤ o) (c : Chip) (i row x p v : Nat) :
    (c.wrField .SVC_BUF_STATE i row o n x).ssMinSeen p v = c.ssMinSeen p v := by
  by_cases hk : p = i ∧ v = row
  · obtain ⟨rfl, rfl⟩ := hk
    exact Chip.rdField_wrField_other hn ho (by decide) (by decide) hapart x
  · exact Chip.wrField_minSeen_row hk ..

theorem Chip.setEffective_minSeen (c : Chip) (i row g p v : Nat) : (c.setEffective i row g).ssMinSeen p v = c.ssMinSeen p v := by
  unfold Chip.setEffective
  split
  · rfl
  · exact Chip.wrField_minSeen (by decide) (by decide) (.inl (by decide)) c i row g p v

theorem Chip.scaleService_minSeen (c : Chip) (w : Nat) (k : Rat) (p v : Nat) : (c.scaleService w k).ssMinSeen p v = c.ssMinSeen p v :=
  Chip.each_same (fun d : Chip => d.ssMinSeen p v) _ (fun d x =>
    (Chip.wrField_minSeen (by decide) (by decide) (.inr (by decide)) ..).trans (d.setEffective_minSeen ..)) _ c

theorem Chip.reduceOver_minSeen (l : List Nat) (c : Chip) (t : Rat) (last : Option (Nat × Rat)) (p v : Nat) :
    (c.reduceOver t last l).1.ssMinSeen p v = c.ssMinSeen p v := by
  induction l generalizing c last with
  | nil => rfl
  | cons w l ih =>
    unfold Chip.reduceOver
    dsimp only
    split
    · rfl
    · split
      · exact ih ..
      · exact (ih ..).trans (c.scaleService_minSeen ..)

/-- What a reduction shows beside the guarantees: that one stands. -/
def Chip.reductionShown (c : Chip) : Option (Nat × Rat) → Chip
  | none => c
  | some (v, k) => (c.setBit .BUF_STATUS 0 0 true).raise .guaranteeReduced 0 (Config.pack v (k * 1000).floor.toNat)

theorem Chip.reduce_eq (c : Chip) : c.reduce =
    (c.reduceOver c.demandLimit none (List.range 8)).1.reductionShown (c.reduceOver c.demandLimit none (List.range 8)).2 := rfl

theorem Chip.reductionShown_minSeen (c : Chip) (x : Option (Nat × Rat)) (p v : Nat) : (c.reductionShown x).ssMinSeen p v = c.ssMinSeen p v := by
  cases x with
  | none => rfl
  | some => exact Chip.rdField_wrRow_reg (by decide) (by decide) ..

/-- A reduction keeps the least sizes seen. -/
theorem Chip.reduce_minSeen (c : Chip) (p v : Nat) : c.reduce.ssMinSeen p v = c.ssMinSeen p v := by
  rw [Chip.reduce_eq, Chip.reductionShown_minSeen, Chip.reduceOver_minSeen]

theorem Chip.reductionShown_breach (c : Chip) (x : Option (Nat × Rat)) : (c.reductionShown x).rdBit .BUF_STATUS 1 = c.rdBit .BUF_STATUS 1 := by
  cases x with
  | none => rfl
  | some => exact Chip.rdBit_setBit_other _ _ _ _ _ _ (by decide) (by decide)

/-- A reduction leaves the breach that is shown. -/
theorem Chip.reduce_breach (c : Chip) : c.reduce.rdBit .BUF_STATUS 1 = c.rdBit .BUF_STATUS 1 := by
  rw [Chip.reduce_eq, Chip.reductionShown_breach,
    (Chip.reduceOver_in (.refl Chip.reduceOver_fx _) (by decide +kernel)).rdBit (by decide +kernel) (by decide +kernel)]

/-- A service starts afresh: no size seen, no breach, and the guarantee that is configured. -/
def Chip.restartService (c : Chip) (x : Nat × Nat) : Chip :=
  let c := (c.wrField .SVC_BUF_STATE x.1 x.2 12 2 0xFFFF).wrField .SVC_BUF_STATE x.1 x.2 14 2 0
  c.setEffective x.1 x.2 (if c.width x.1 = 0 then 0 else c.sbGuarantee x.1 x.2)

/-- The services that a re-evaluation starts afresh. -/
def Chip.evaluated (c : Chip) : List (Nat × Nat) :=
  (c.guaranteed ++ (c.dict.filter fun e => e.1.reg = .SVC_BUF_STATE).map fun e => (e.1.inst, e.1.row)).eraseDups

/-- The block as a re-evaluation judges it. -/
def Chip.restarted (c : Chip) : Chip :=
  ((c.each c.evaluated Chip.restartService).setBit .BUF_STATUS 0 0 false).setBit .BUF_STATUS 0 1 false

theorem Chip.reevaluate_eq (c : Chip) :
    c.reevaluate = if c.restarted.demand > c.restarted.demandLimit then c.restarted.reduce else c.restarted := rfl

theorem Chip.restartService_after (c : Chip) (x : Nat × Nat) (p v : Nat) :
    (c.restartService x).ssMinSeen p v = (c.wrField .SVC_BUF_STATE x.1 x.2 12 2 0xFFFF).ssMinSeen p v :=
  (Chip.setEffective_minSeen ..).trans (Chip.wrField_minSeen (by decide) (by decide) (.inr (by decide)) ..)

theorem Chip.restartService_own (c : Chip) (x : Nat × Nat) : (c.restartService x).ssMinSeen x.1 x.2 = 0xFFFF :=
  (c.restartService_after x x.1 x.2).trans (Chip.rdField_wrField_same (by decide) (by decide) _)

/-- A service that starts afresh leaves another as it was. -/
theorem Chip.restartService_other (c : Chip) {x y : Nat × Nat} (h : y ≠ x) :
    (c.restartService x).ssMinSeen y.1 y.2 = c.ssMinSeen y.1 y.2 :=
  (c.restartService_after ..).trans (Chip.wrField_minSeen_row (fun ⟨hport, hrow⟩ => h (Prod.ext hport hrow)) ..)

theorem Chip.restarted_minSeen {x : Nat × Nat} (hx : x ∈ c.guaranteed) : c.restarted.ssMinSeen x.1 x.2 = 0xFFFF := by
  have hmem : x ∈ c.evaluated := List.mem_eraseDups.2 (List.mem_append_left _ hx)
  have hshown : c.restarted.ssMinSeen x.1 x.2 = (c.each c.evaluated Chip.restartService).ssMinSeen x.1 x.2 :=
    (Chip.rdField_wrRow_reg (by decide) (by decide) ..).trans (Chip.rdField_wrRow_reg (by decide) (by decide) ..)
  refine hshown.trans (Chip.each_establishes (P := fun d => d.ssMinSeen x.1 x.2 = 0xFFFF) (fun d y hd => ?_)
    (fun d => d.restartService_own x) hmem c)
  by_cases hy : x = y
  · rw [hy]
    exact d.restartService_own y
  · exact (d.restartService_other hy).trans hd

/-- Re-evaluation forgets the sizes seen of the services that have a guarantee. -/
theorem Chip.reevaluate_minSeen {x : Nat × Nat} (hx : x ∈ c.guaranteed) : c.reevaluate.ssMinSeen x.1 x.2 = 0xFFFF := by
  rw [Chip.reevaluate_eq]
  split
  · rw [Chip.reduce_minSeen, Chip.restarted_minSeen hx]
  · exact Chip.restarted_minSeen hx

/-- Re-evaluation clears the breach that is shown. -/
theorem Chip.reevaluate_breach : c.reevaluate.rdBit .BUF_STATUS 1 = false := by
  have hcleared : c.restarted.rdBit .BUF_STATUS 1 = false := Chip.rdBit_setBit_same _ _ _ _ _ (by decide)
  rw [Chip.reevaluate_eq]
  split
  · rw [Chip.reduce_breach, hcleared]
  · exact hcleared

end

end Sys2Proof.Machine
end

section
set_option Elab.async false
open Sys2Proof Sys2Proof.Machine

/-- Settles O33: a cell is followed through what admission leaves beside the frames that arrive and the queues; a retired channel keeps
the state that its cells give it, since a spare that takes its place is another one; and a reduction after a re-evaluation touches neither
the sizes seen nor the breach shown. That a cell counts as written with its command, and that a command naming another channel than the
one of R258 writes nothing, are choices of the model (log entries 118 and 127). -/
theorem cellsAreAdmittedAndChannelsRetired : Obligations.CellsAreAdmittedAndChannelsRetired := by
  unfold Obligations.CellsAreAdmittedAndChannelsRetired
  refine ⟨?_, ?_, ?_, ?_, ?_, ?_, ?_, ?_, ?_, ?_, ?_, ?_⟩
  · intro p h fill f l s inP hl hh hk hlen
    refine Answers.of_runs (execAdmitCell_more hl hh hk hlen) fun d hd => ?_
    have hpfc := Chip.pfcEval_in (p := p) (.refl Chip.pfcEval_fx (s.chip.takeCell p h f (s.chip.cellInProfile p f))) (by decide +kernel)
    have hbuf := hd.buf_eq.trans (hpfc.part .buf (by decide +kernel))
    rw [hd.sch_eq, hpfc.sch_eq (by decide +kernel), hd.queues_eq, hbuf]
    exact ⟨Chip.takeCell_head hl, hpfc.part .queues (by decide +kernel), Chip.takeCell_writes⟩
  · intro p h fill f l s inP hl hh hk hlen
    refine Answers.of_runs (execAdmitCell_last hl hh hk hlen) fun d hd => ?_
    have hpfc := Chip.pfcEval_in (p := p) (.refl Chip.pfcEval_fx ((s.chip.takeCell p h f (s.chip.cellInProfile p f)).frameEligible p
      (s.chip.svcOf f) (f.withCell h (s.chip.cellInProfile p f)))) (by decide +kernel)
    have hqueue : d.queue f.fq = s.chip.queue f.fq ++ [s.chip.markEligible p (f.withCell h inP)] :=
      (hd.queue_eq _).trans ((hpfc.queue_eq (by decide +kernel) _).trans (Chip.frameEligible_queue ..))
    refine ⟨?_, ?_, ?_⟩
    · rw [hqueue, List.getLast?_concat]
      rfl
    · rw [hqueue, List.length_append, List.length_singleton]
    · rw [hd.sch_eq, hpfc.sch_eq (by decide +kernel)]
      exact Chip.frameEligible_gone _ _ _ (f.withCell h (s.chip.cellInProfile p f))
  · intro p h fill f l k s inP hl hk hin hrate
    refine Answers.of_runs (execAdmitCell_drops hl hk hin hrate) fun d hd => ?_
    rw [hd.sch_eq, hd.queues_eq, hd.rdField rfl, hd.rdField rfl]
    exact ⟨Chip.dropArriving_gone, Chip.dropArriving_queues, Chip.dropArriving_cause, Chip.dropArriving_counts⟩
  · intro h x s
    exact Answers.of_runs execScrubRead_clean fun d hd => ⟨hd.bare, hd.keeps (.refl _ _)⟩
  · intro h x s hs hroot hgate hn
    refine Answers.of_runs (execScrubRead_corrected hs hroot hgate) fun d hd => ?_
    rw [Chip.corrected_within (c := s.chip.writeBackWaits h x) hn] at hd
    refine ⟨?_, ?_, ?_, ?_, ?_⟩
    · rw [Counts, hd.rd _ rfl]
      exact Chip.correctedNoted_counts ..
    · rw [hd.buf_eq]
      exact Chip.correctedNoted_buf (c := s.chip.writeBackWaits h x)
    · rw [hd.buf_eq, Chip.correctedNoted_ces]
      rfl
    · rw [hd.bare, hd.buf_eq]
      exact Chip.correctedNoted_bare (c := s.chip.writeBackWaits h x)
    · exact hd.keeps ((s.chip.writeBackWaits h x).correctedNoted_keeps h)
  · intro h x s hs hroot hgate hn
    refine Answers.of_runs (execScrubRead_corrected (by rw [hs]; decide) hroot hgate) fun d hd => ?_
    rw [Counts, hd.rd _ rfl, hd.rd _ rfl]
    exact ⟨Chip.corrected_past_counts (c := s.chip.writeBackWaits h x) hn, Chip.corrected_past_state (c := s.chip.writeBackWaits h x) hn hs⟩
  · intro h x n s hs hroot hgate
    refine Answers.of_runs (execScrubRead_uncorrectable (by rw [hs]; decide) hroot hgate n) fun d hd => ?_
    rw [Counts, hd.rd _ rfl, hd.rd _ rfl, Chip.rd_markBad, Chip.rd_markBad]
    exact ⟨Chip.uncorrectable_counts .., Chip.uncorrectable_state hs⟩
  · intro h x s
    refine Answers.of_run (execScrubWriteback.eq_1 h x s) fun d hd => ⟨hd.buf_eq, ?_, hd.keeps (Chip.Keeps.refl s.chip _)⟩
    rw [hd.bare, hd.buf_eq]
    rfl
  · intro h s ha hs
    refine Answers.of_write (s.chip.retire h) (execQcRetire.eq_1 h 1 s) ha ?_ fun d hd => ⟨hd.access, ?_⟩
    · exact if_neg (not_not_intro hs)
    · rw [hd.written_rd rfl, Chip.retire_state hs]
  · intro h s ha hs
    refine Answers.of_abort (execQcRetire.eq_1 h 1 s) (a := .state) (m := s.chip) ?_ (by decide) (by decide) fun d hd => hd.turnedAway.2
    rw [Chip.gated, ha]
    exact if_pos hs
  · intro h s hs hu
    have hdrained : s.chip.drained h = s.chip.wr .QC_STATE h 3 := if_pos ⟨hs, hu⟩
    refine Answers.of_run (execChannelDrained.eq_1 h s) fun d hd => ?_
    rw [hdrained] at hd
    refine ⟨?_, hd.bare.trans (Chip.bare_wrRow ..), hd.keeps ((Chip.Keeps.refl _ _).wrRow rfl)⟩
    rw [hd.rd _ rfl]
    exact Chip.rd_wrRow_fits (by decide) ..
  · intro s ha
    refine Answers.of_write s.chip.reevaluate (execBufReevaluate.eq_1 1 s) ha rfl fun d hd => ⟨hd.access, ?_, fun x hx => ?_⟩
    · rw [hd.written_rdBit rfl, Chip.reevaluate_breach]
    · rw [Chip.ssMinSeen, hd.written_rdField rfl]
      exact Chip.reevaluate_minSeen hx

end

section
/-!
PROOFS. Wale ports (chapter 12): their records after a change, and what a packet that joins its class queue leaves as it was.
-/
set_option Elab.async false
namespace Sys2Proof.Machine

/-! The records of the ports, and the rest of the fabric. -/

section
variable {b c d : Chip} {w k : Nat} {f : WlSt → WlSt}

@[simp] theorem Chip.setWl_same : (c.setWl w f).wl w = f (c.wl w) := Tab.getD_upd_same ..

theorem Chip.setWl_other (h : k ≠ w) : (c.setWl w f).wl k = c.wl k := Tab.getD_upd_other _ _ _ _ _ _ h

@[simp] theorem Chip.wl_wrRow (r : Reg) (i row v : Nat) : (c.wrRow r i row v).wl w = c.wl w := by simp [Chip.wl]

@[simp] theorem Chip.wl_raise (n : EvName) (i v : Nat) : (c.raise n i v).wl w = c.wl w := rfl

@[simp] theorem Chip.rd_setWl (r : Reg) (i row : Nat) : (c.setWl w f).rd r i row = c.rd r i row := rfl

@[simp] theorem Chip.rd_setWale (g : FabricSt → FabricSt) (r : Reg) (i row : Nat) : (c.setWale g).rd r i row = c.rd r i row := rfl

theorem Chip.rd_wr_reg {r r' : Reg} (h : r' ≠ r) (hq : r ≠ .QUAD_FORMATION) (c : Chip) (i v i' row' : Nat) :
    (c.wr r i v).rd r' i' row' = c.rd r' i' row' := Chip.rd_wrRow_reg _ _ _ _ _ _ _ _ h hq

theorem Chip.rd_setBit_reg {r r' : Reg} (h : r' ≠ r) (hq : r ≠ .QUAD_FORMATION) (c : Chip) (i b i' row' : Nat) (x : Bool) :
    (c.setBit r i b x).rd r' i' row' = c.rd r' i' row' := Chip.rd_wrRow_reg _ _ _ _ _ _ _ _ h hq

@[simp] theorem Chip.rd_lsaDue (r : Reg) (i row : Nat) : c.lsaDue.rd r i row = c.rd r i row := rfl

@[simp] theorem Chip.wl_lsaDue : c.lsaDue.wl w = c.wl w := rfl

theorem Within.wl_eq {x : Fx} (h : Within x c d) (hx : x.hasPart .wale = false) (k : Nat) : d.wl k = c.wl k :=
  congrArg (fun t : FabricSt => t.ports.getD k {}) (h.part .wale hx)

theorem EvFrame.wl_eq (h : EvFrame c d) (k : Nat) : d.wl k = c.wl k := by rw [Chip.wl, Chip.wl, h.walePorts_eq]

theorem Chip.Keeps.setWl {P : Key → Prop} (h : b.Keeps c P) : b.Keeps (c.setWl w f) P := h

end

/-! One port's record is new, and nothing else. -/

/-- Of the block only the record of a port is new, and what it is. -/
structure Chip.WlSet (c d : Chip) (w : Nat) (x : WlSt) : Prop where
  own : d.wl w = x
  others : ∀ k : Nat, k ≠ w → d.wl k = c.wl k
  bare : d.bare = { c.bare with wale := d.bare.wale }
  wale : d.bare.wale = { c.bare.wale with ports := d.bare.wale.ports }
  keeps : c.Keeps d fun _ => False

section
variable {c d m : Chip} {w : Nat} {x : WlSt}

theorem Chip.setWl_wlSet (c : Chip) (w : Nat) (f : WlSt → WlSt) : c.WlSet (c.setWl w f) w (f (c.wl w)) :=
  ⟨Chip.setWl_same, fun _ hk => Chip.setWl_other hk, rfl, rfl, .refl _ _⟩

theorem Chip.WlSet.setWl (h : c.WlSet d w x) (f : WlSt → WlSt) : c.WlSet (d.setWl w f) w (f x) where
  own := by rw [Chip.setWl_same, h.own]
  others k hk := (Chip.setWl_other hk).trans (h.others k hk)
  bare := by
    change ({ d.bare with wale := (d.setWl w f).bare.wale } : Chip) = _
    rw [h.bare]
  wale := by
    change ({ d.bare.wale with ports := (d.setWl w f).bare.wale.ports } : FabricSt) = _
    rw [h.wale]
  keeps := h.keeps

theorem EvFrame.wlSet (h : EvFrame m d) (hs : c.WlSet m w x) : c.WlSet d w x where
  own := (h.wl_eq w).trans hs.own
  others k hk := (h.wl_eq k).trans (hs.others k hk)
  bare := by rw [h.bare, ← hs.bare]
  wale := by rw [h.bare, ← hs.wale]
  keeps := h.keeps hs.keeps

theorem Chip.WlSet.access (h : c.WlSet d w x) (a : Access) : c.WlSet { d with access := a } w x := ⟨h.own, h.others, h.bare, h.wale, h.keeps⟩

end

/-! A packet joins its class queue (R287). -/

/-- A port with another queue of a class. -/
def WlSt.withQueue (s : WlSt) (k : Nat) (l : List WlPacket) : WlSt := { s with queues := s.queues.set k l [] }

@[simp] theorem WlSt.withQueue_same (s : WlSt) (k : Nat) (l : List WlPacket) : (s.withQueue k l).queue k = l := Tab.getD_set_same ..

theorem WlSt.withQueue_other {j k : Nat} (h : j ≠ k) (s : WlSt) (l : List WlPacket) : (s.withQueue k l).queue j = s.queue j :=
  Tab.getD_set_other _ _ _ _ _ _ h

section
variable {c : Chip} {w : Nat} {p : WlPacket}

/-- A packet that fits joins an empty queue. -/
theorem Chip.wlQueue_empty (hq : (c.wl w).queue p.cls = []) (hp : p.octets ≤ classSpace p.cls) :
    c.wlQueue w p = c.setWl w fun s => s.withQueue p.cls [p] := by
  rw [Chip.wlQueue, hq]
  exact if_neg (by rw [List.foldl_nil, Nat.zero_add]; exact Nat.not_lt.2 hp)

/-- A packet of the device for the other end of a link joins an empty queue. -/
theorem Chip.wlLocal_empty {cls kind : Nat} {l : List Octet} (hq : (c.wl w).queue cls = []) (hl : 8 * (2 + cdiv l.length 8) ≤ classSpace cls) :
    c.wlLocal w cls kind l
      = c.setWl w fun s => s.withQueue cls [{ dest := 0, src := c.rd .WALE_ADDRESS, cls := cls, kind := kind, payload := l }] :=
  Chip.wlQueue_empty (p := { dest := 0, src := c.rd .WALE_ADDRESS, cls := cls, kind := kind, payload := l }) hq hl

end

end Sys2Proof.Machine
end

section
/-!
PROOFS. Packets that join queues of ports leave the rest of the fabric (R287, R289).
-/
set_option Elab.async false
namespace Sys2Proof.Machine

/-- Packets have joined queues of some of the ports, or were discarded for want of space. -/
structure Chip.Queued (c d : Chip) (ws : Nat → Prop) : Prop where
  wale : d.wale = { c.wale with ports := d.wale.ports }
  ports : ∀ k : Nat, ∃ q, d.wl k = { c.wl k with queues := q }
  others : ∀ k : Nat, ¬ ws k → d.wl k = c.wl k

section
variable {b c d : Chip} {ws : Nat → Prop}

theorem Chip.Queued.refl (c : Chip) (ws : Nat → Prop) : c.Queued c ws := ⟨rfl, fun _ => ⟨_, rfl⟩, fun _ _ => rfl⟩

theorem Chip.Queued.trans (h : b.Queued c ws) (g : c.Queued d ws) : b.Queued d ws where
  wale := by rw [g.wale, h.wale]
  ports k := by
    obtain ⟨q, hq⟩ := g.ports k
    obtain ⟨r, hr⟩ := h.ports k
    exact ⟨q, by rw [hq, hr]⟩
  others k hk := (g.others k hk).trans (h.others k hk)

theorem Chip.Queued.mono {vs : Nat → Prop} (h : c.Queued d vs) (hv : ∀ k, vs k → ws k) : c.Queued d ws :=
  ⟨h.wale, h.ports, fun k hk => h.others k fun hkv => hk (hv k hkv)⟩

theorem Chip.Queued.heard (h : c.Queued d ws) (k : Nat) : (d.wl k).heard = (c.wl k).heard := by
  obtain ⟨q, hq⟩ := h.ports k
  rw [hq]

theorem Chip.wlQueue_queued (c : Chip) (w : Nat) (p : WlPacket) : c.Queued (c.wlQueue w p) (· = w) := by
  unfold Chip.wlQueue
  dsimp only
  split
  · exact ⟨by rw [Chip.addRow_eq, Chip.wrRow_wale], fun k => ⟨_, Chip.wl_wrRow ..⟩, fun k _ => Chip.wl_wrRow ..⟩
  · refine ⟨rfl, fun k => ?_, fun k hk => Chip.setWl_other hk⟩
    by_cases hk : k = w
    · rw [hk]
      exact ⟨_, Chip.setWl_same⟩
    · exact ⟨_, Chip.setWl_other hk⟩

theorem Chip.Queued.each {α : Type} {f : Chip → α → Chip} {l : List α} (hf : ∀ c : Chip, ∀ a ∈ l, c.Queued (f c a) ws) (c : Chip) :
    c.Queued (c.each l f) ws :=
  Chip.each_keeps_mem (P := fun d => c.Queued d ws) (fun d a ha hd => hd.trans (hf d a ha)) (.refl c ws)

/-- An advertisement that goes out joins queues of the ports listed. -/
theorem Chip.flood_queued (c : Chip) (l : List Nat) (id : Nat) (a : Lsa) : c.Queued (c.flood l id a) (· ∈ l) :=
  Chip.Queued.each (fun d w hw => (d.wlQueue_queued w _).mono fun _ hk => hk ▸ hw) c

theorem Chip.flood_within (c : Chip) (l : List Nat) (id : Nat) (a : Lsa) : Within Chip.flood_fx c (c.flood l id a) :=
  Chip.flood_in (.refl _ _) (by decide +kernel)

end

end Sys2Proof.Machine
end

section
/-!
PROOFS. A Wale port that leaves its link, follows its enables, or comes up (R280 to R284, R288, Table 12-3).
-/
set_option Elab.async false
namespace Sys2Proof.Machine

/-! A port leaves its link. -/

/-- The partner is forgotten. -/
def WlSt.forget (s : WlSt) : WlSt := { s with heard := none, addr := 0 }

/-- A port in another state, without its lock on words; its transmitter is squelched where it leaves a link for a search (R284). -/
def Chip.wlStopped (c : Chip) (w dest : Nat) : Chip :=
  (((c.setWl w fun s => { s with squelch := dest = wlSearch && (c.wlState w = wlUp || c.wlState w = wlHello), quiet := false }).wr
    .WL_STATE w dest).setBit .WL_STATUS w 1 false).setBit .WL_STATUS w 2 false

/-- A port that was up counts its loss, and shows no partner any more. -/
def Chip.wlParted (c : Chip) (w : Nat) : Chip :=
  let c := ((c.setBit .WL_STATUS w 3 false).inc .WL_LINK_DOWN_COUNT w).wr .WL_PARTNER_ID w 0
  (c.wr .WL_PARTNER_PORT w 0xFF).setWl w WlSt.forget

/-- What the loss is to the device: the upstream port is lost, and without a port that is up convergence ends (R301). -/
def Chip.lossShown (c : Chip) (w : Nat) (upstream : Prop) [Decidable upstream] : Chip :=
  let c := if upstream then c.raise .upstreamLost (Cls.wl.addr w) else c
  if c.wlUps.isEmpty then c.setBit .WALE_STATUS 0 0 false else c

section
variable {c : Chip} {w k dest : Nat}

theorem Chip.wlDrop_down (h : c.wlState w ≠ 4) : c.wlDrop w dest = (c.wlStopped w dest).setWl w WlSt.forget := if_pos h

theorem Chip.wlDrop_up (h : c.wlState w = 4) : c.wlDrop w dest =
    ((((c.wlStopped w dest).wlParted w).lossShown w ((c.wlStopped w dest).rd .WALE_UPSTREAM = w)).exchangeReset w).lsaDue :=
  if_neg (not_not_intro h)

theorem Chip.wlDrop_within (c : Chip) (w dest : Nat) : Within Chip.wlDrop_fx c (c.wlDrop w dest) := Chip.wlDrop_in (.refl _ _) (by decide +kernel)

theorem Chip.lossShown_in (c : Chip) (w : Nat) (upstream : Prop) [Decidable upstream] :
    Within (.of [.ev] [.WALE_STATUS]) c (c.lossShown w upstream) :=
  have hlost : Within (.of [.ev] [.WALE_STATUS]) c (if upstream then c.raise .upstreamLost (Cls.wl.addr w) else c) :=
    .ite (.raise (.refl _ c) (by decide +kernel)) (.refl _ c)
  .ite (hlost.setBit (by decide +kernel)) hlost

/-! The port's objects. -/

theorem Chip.wlStopped_state (hd : dest < 256) : (c.wlStopped w dest).rd .WL_STATE w = dest := by
  have hset : ((c.setWl w fun s => { s with squelch := dest = wlSearch && (c.wlState w = wlUp || c.wlState w = wlHello), quiet := false }).wr
      .WL_STATE w dest).rd .WL_STATE w = dest := Chip.rd_wrRow_fits hd ..
  simpa [Chip.wlStopped, Chip.setBit_eq] using hset

theorem Chip.wlStopped_unlocked : (c.wlStopped w dest).rdBit .WL_STATUS 1 w = false := by
  rw [Chip.wlStopped, Chip.rdBit_setBit_other _ _ _ _ _ _ (by decide) (by decide)]
  exact Chip.rdBit_setBit_same _ _ _ _ _ (by decide)

theorem Chip.wlStopped_in (c : Chip) (w dest : Nat) : Within (.of [.wale] [.WL_STATE, .WL_STATUS]) c (c.wlStopped w dest) := by
  refine .setBit (.setBit (.wr (.setWl (.refl _ c) ?_) ?_) ?_) ?_ <;> decide +kernel

theorem Chip.wlParted_in (c : Chip) (w : Nat) :
    Within (.of [.wale] [.WL_STATUS, .WL_LINK_DOWN_COUNT, .WL_PARTNER_ID, .WL_PARTNER_PORT]) c (c.wlParted w) := by
  refine .setWl (.wr (.wr (.inc (.setBit (.refl _ c) ?_) ?_) ?_) ?_) ?_ <;> decide +kernel

theorem Chip.wlParted_status {j : Nat} (hj : j ≠ 3) (hw : j < 16) : (c.wlParted w).rdBit .WL_STATUS j w = c.rdBit .WL_STATUS j w := by
  rw [← Chip.rdBit_setBit_other c .WL_STATUS w 3 j false hj hw]
  simp [Chip.wlParted, Chip.rdBit, Chip.wr_eq, Chip.inc_eq]

theorem Chip.wlParted_counts : Counts c (c.wlParted w) .WL_LINK_DOWN_COUNT w 1 := by
  simp [Counts, Chip.wlParted, Chip.wr_eq, Chip.inc_eq, Chip.setBit_eq, Chip.rd_wrRow_same]

theorem Chip.wlParted_partner : (c.wlParted w).rd .WL_PARTNER_ID w = 0 := by
  simp [Chip.wlParted, Chip.wr_eq, Chip.rd_wrRow_same]

theorem Chip.wlParted_partnerPort : (c.wlParted w).rd .WL_PARTNER_PORT w = 0xFF := by
  rw [Chip.wlParted, Chip.rd_setWl]
  exact Chip.rd_wrRow_fits (by decide) ..

/-- A port that was not up forgets its partner besides. -/
theorem Chip.wlDrop_in_down (h : c.wlState w ≠ 4) : Within (.of [.wale] []) (c.wlStopped w dest) (c.wlDrop w dest) := by
  rw [Chip.wlDrop_down h]
  exact .setWl (.refl _ _) (by decide +kernel)

/-- What follows the loss of a link that was up leaves the port's objects. -/
theorem Chip.wlDrop_in_up (h : c.wlState w = 4) :
    Within (.of [.ev, .wale] [.WALE_STATUS]) ((c.wlStopped w dest).wlParted w) (c.wlDrop w dest) := by
  rw [Chip.wlDrop_up h]
  exact Chip.lsaDue_in (Chip.exchangeReset_in ((Chip.lossShown_in ..).mono (by decide +kernel)) (by decide +kernel)) (by decide +kernel)

theorem Chip.wlDrop_state (hd : dest < 256) : (c.wlDrop w dest).wlState w = dest := by
  refine Eq.trans ?_ (Chip.wlStopped_state (c := c) (w := w) hd)
  by_cases hup : c.wlState w = 4
  · exact ((Chip.wlDrop_in_up hup).rd (by decide +kernel) (by decide +kernel) ..).trans
      ((Chip.wlParted_in ..).rd (by decide +kernel) (by decide +kernel) ..)
  · exact (Chip.wlDrop_in_down hup).rd (by decide +kernel) (by decide +kernel) ..

theorem Chip.wlDrop_unlocked : (c.wlDrop w dest).rdBit .WL_STATUS 1 w = false := by
  refine Eq.trans ?_ (Chip.wlStopped_unlocked (c := c) (w := w) (dest := dest))
  by_cases hup : c.wlState w = 4
  · exact ((Chip.wlDrop_in_up hup).rdBit (by decide +kernel) (by decide +kernel) ..).trans
      (Chip.wlParted_status (by decide) (by decide))
  · exact (Chip.wlDrop_in_down hup).rdBit (by decide +kernel) (by decide +kernel) ..

/-- The loss of a link that was up is counted, and the partner is shown no more. -/
theorem Chip.wlDrop_loss (h : c.wlState w = 4) : Counts c (c.wlDrop w dest) .WL_LINK_DOWN_COUNT w 1 ∧
    (c.wlDrop w dest).rd .WL_PARTNER_ID w = 0 ∧ (c.wlDrop w dest).rd .WL_PARTNER_PORT w = 0xFF := by
  have hcount : (c.wlStopped w dest).rd .WL_LINK_DOWN_COUNT w = c.rd .WL_LINK_DOWN_COUNT w :=
    (c.wlStopped_in w dest).rd (by decide +kernel) (by decide +kernel) ..
  have hlater := Chip.wlDrop_in_up (dest := dest) h
  rw [Counts, hlater.rd (by decide +kernel) (by decide +kernel), hlater.rd (by decide +kernel) (by decide +kernel),
    hlater.rd (by decide +kernel) (by decide +kernel)]
  exact ⟨Chip.wlParted_counts.after hcount, Chip.wlParted_partner, Chip.wlParted_partnerPort⟩

/-! The port's record. -/

theorem Chip.lossShown_wl (c : Chip) (w k : Nat) (upstream : Prop) [Decidable upstream] : (c.lossShown w upstream).wl k = c.wl k :=
  (Chip.lossShown_in ..).wl_eq (by decide +kernel) k

theorem Chip.wlStopped_wl (c : Chip) (w dest k : Nat) : (c.wlStopped w dest).wl k = if k = w then
    { c.wl w with squelch := dest = wlSearch && (c.wlState w = wlUp || c.wlState w = wlHello), quiet := false } else c.wl k := by
  simp only [Chip.wlStopped, Chip.setBit_eq, Chip.wr_eq, Chip.wl_wrRow]
  split
  · next h => rw [h, Chip.setWl_same]
  · next h => exact Chip.setWl_other h

/-- A port that leaves its link forgets its partner, and is squelched where it was with one and searches. -/
theorem Chip.wlDrop_forgets (c : Chip) (w dest : Nat) : ((c.wlDrop w dest).wl w).heard = none ∧
    ((c.wlDrop w dest).wl w).squelch = (dest = wlSearch && (c.wlState w = wlUp || c.wlState w = wlHello)) := by
  by_cases hup : c.wlState w = 4
  · have hwl : (c.wlDrop w dest).wl w = { ((c.wlStopped w dest).wl w).forget with syncIn := none, dreqOut := none, dreqDone := none } := by
      rw [Chip.wlDrop_up hup, Chip.wl_lsaDue, Chip.exchangeReset, Chip.setWl_same, Chip.lossShown_wl, Chip.wlParted, Chip.setWl_same]
      simp only [Chip.wr_eq, Chip.inc_eq, Chip.setBit_eq, Chip.wl_wrRow]
    rw [hwl, Chip.wlStopped_wl, if_pos rfl]
    exact ⟨rfl, rfl⟩
  · rw [Chip.wlDrop_down hup, Chip.setWl_same, Chip.wlStopped_wl, if_pos rfl]
    exact ⟨rfl, rfl⟩

/-- It leaves the records of the other ports. -/
theorem Chip.wlDrop_others (hk : k ≠ w) : (c.wlDrop w dest).wl k = c.wl k := by
  refine Eq.trans ?_ ((c.wlStopped_wl w dest k).trans (if_neg hk))
  by_cases hup : c.wlState w = 4
  · rw [Chip.wlDrop_up hup, Chip.wl_lsaDue, Chip.exchangeReset, Chip.setWl_other hk, Chip.lossShown_wl, Chip.wlParted, Chip.setWl_other hk]
    simp only [Chip.wr_eq, Chip.inc_eq, Chip.setBit_eq, Chip.wl_wrRow]
  · rw [Chip.wlDrop_down hup, Chip.setWl_other hk]

theorem Chip.wlDrop_stateOther (hk : k ≠ w) : (c.wlDrop w dest).wlState k = c.wlState k := by
  have hstopped : (c.wlStopped w dest).rd .WL_STATE k = c.rd .WL_STATE k := by
    rw [Chip.wlStopped, Chip.rd_setBit_reg (by decide) (by decide), Chip.rd_setBit_reg (by decide) (by decide), Chip.wr_eq,
      Chip.rd_wrRow_other _ _ _ _ _ _ _ _ (by simp [hk]) (.inl (by decide)), Chip.rd_setWl]
  refine Eq.trans ?_ hstopped
  by_cases hup : c.wlState w = 4
  · exact ((Chip.wlDrop_in_up hup).rd (by decide +kernel) (by decide +kernel) ..).trans
      ((Chip.wlParted_in ..).rd (by decide +kernel) (by decide +kernel) ..)
  · exact (Chip.wlDrop_in_down hup).rd (by decide +kernel) (by decide +kernel) ..

end

/-! A port follows its enables (R283). -/

section
variable {c : Chip} {w k : Nat}

theorem Chip.wlFollow_starts (hr : c.wlMayRun w = true) (hs : c.wlState w = 0) : c.wlFollow w = c.wr .WL_STATE w 1 :=
  (if_pos hr).trans (if_pos hs)

theorem Chip.wlFollow_rests (hr : c.wlMayRun w = false) (hs : c.wlState w = 0) : c.wlFollow w = c :=
  (if_neg (by rw [hr]; decide)).trans (if_pos hs)

theorem Chip.wlFollow_stops (hr : c.wlMayRun w = false) (hs : c.wlState w ≠ 0) : c.wlFollow w = (c.wlDrop w 0).wr .WL_STATUS w 0 :=
  (if_neg (by rw [hr]; decide)).trans (if_neg hs)

theorem Chip.wlFollow_off (hr : c.wlMayRun w = false) : (c.wlFollow w).wlState w = 0 := by
  by_cases hs : c.wlState w = 0
  · rw [Chip.wlFollow_rests hr hs, hs]
  · rw [Chip.wlFollow_stops hr hs, Chip.wlState, Chip.rd_wr_reg (by decide) (by decide)]
    exact Chip.wlDrop_state (by decide)

/-- A port that stops leaves the states of the others. -/
theorem Chip.wlFollow_stateOther (hr : c.wlMayRun w = false) (hk : k ≠ w) : (c.wlFollow w).wlState k = c.wlState k := by
  by_cases hs : c.wlState w = 0
  · rw [Chip.wlFollow_rests hr hs]
  · rw [Chip.wlFollow_stops hr hs, Chip.wlState, Chip.rd_wr_reg (by decide) (by decide)]
    exact Chip.wlDrop_stateOther hk

theorem Chip.wlFollow_enable (c : Chip) (w : Nat) : (c.wlFollow w).rdBool .WALE_ENABLE = c.rdBool .WALE_ENABLE :=
  (Chip.wlFollow_in (.refl Chip.wlFollow_fx c) (by decide +kernel)).rdBool (by decide +kernel) (by decide +kernel) 0

theorem Chip.wlMayRun_disabled (he : c.rdBool .WALE_ENABLE = false) : c.wlMayRun w = false := by rw [Chip.wlMayRun, he]; rfl

/-- With the fabric disabled every port stops. -/
theorem Chip.wlStartAll_off (he : c.rdBool .WALE_ENABLE = false) (hk : k < 6) : c.wlStartAll.wlState k = 0 := by
  refine Chip.each_establishes_under (I := fun d => d.rdBool .WALE_ENABLE = false) (P := fun d => d.wlState k = 0)
    (f := fun d w => d.wlFollow w) (fun d w hd => (d.wlFollow_enable w).trans hd) (fun d w hd hk0 => ?_)
    (fun d hd => Chip.wlFollow_off (Chip.wlMayRun_disabled hd)) (List.mem_range.2 hk) he
  by_cases hkw : k = w
  · rw [hkw]
    exact Chip.wlFollow_off (Chip.wlMayRun_disabled hd)
  · rw [Chip.wlFollow_stateOther (Chip.wlMayRun_disabled hd) hkw, hk0]

end

end Sys2Proof.Machine
end

section
/-!
PROOFS. Header lock, slipping and `HELLO` packets of a Wale port (R280 to R284, R288).
-/
set_option Elab.async false
namespace Sys2Proof.Machine

/-! Header lock is gained (R280, R281). -/

/-- A port that has gained header lock, at the boundary found where the search is automatic. -/
def Chip.lockGained (c : Chip) (w pos : Nat) : Chip :=
  let c := if c.rd .WL_SLIP_MODE w = 0 then c.wr .WL_SLIP_POS w pos else c
  let c := ((c.wr .WL_STATE w wlAlign).setBit .WL_STATUS w 0 true).setBit .WL_STATUS w 1 true
  (c.wr .WL_HDR_VALID w 64).setWl w fun s => { s with quiet := false }

/-- The cells of a port that show its lock. -/
def wlLockCells (w : Nat) (k : Key) : Prop :=
  k = ⟨.WL_STATE, w, 0⟩ ∨ k = ⟨.WL_STATUS, w, 0⟩ ∨ k = ⟨.WL_HDR_VALID, w, 0⟩ ∨ k = ⟨.WL_SLIP_POS, w, 0⟩

section
variable {c : Chip} {w pos : Nat}

theorem Chip.headerLock_gains (h : c.wlState w = 1) : c.headerLock w pos = c.lockGained w pos := if_neg (not_not_intro h)

theorem Chip.lockGained_state : (c.lockGained w pos).wlState w = 2 := by
  simp [Chip.lockGained, Chip.wlState, Chip.wr_eq, Chip.setBit_eq, Chip.rd_wrRow_same]
  decide

theorem Chip.lockGained_locked : (c.lockGained w pos).rdBit .WL_STATUS 1 w = true := by
  rw [Chip.lockGained, Chip.rdBit, Chip.rd_setWl, Chip.rd_wr_reg (by decide) (by decide)]
  exact Chip.rdBit_setBit_same _ _ _ _ _ (by decide)

theorem Chip.lockGained_valid : (c.lockGained w pos).rd .WL_HDR_VALID w = 64 := by
  rw [Chip.lockGained, Chip.rd_setWl]
  exact Chip.rd_wrRow_fits (by decide) ..

theorem Chip.lockGained_position (hp : pos < 66) :
    (c.lockGained w pos).rd .WL_SLIP_POS w = if c.rd .WL_SLIP_MODE w = 0 then pos else c.rd .WL_SLIP_POS w := by
  have hset : (c.wr .WL_SLIP_POS w pos).rd .WL_SLIP_POS w = pos := Chip.rd_wrRow_fits (Nat.lt_trans hp (by decide)) ..
  have hlater : (c.lockGained w pos).rd .WL_SLIP_POS w =
      (if c.rd .WL_SLIP_MODE w = 0 then c.wr .WL_SLIP_POS w pos else c).rd .WL_SLIP_POS w := by
    simp [Chip.lockGained, Chip.wr_eq _ .WL_STATE, Chip.wr_eq _ .WL_HDR_VALID, Chip.setBit_eq]
  rw [hlater, Chip.rd_ite, hset]

theorem Chip.lockGained_keeps : c.Keeps (c.lockGained w pos) (wlLockCells w) := by
  have hslip : c.Keeps (if c.rd .WL_SLIP_MODE w = 0 then c.wr .WL_SLIP_POS w pos else c) (wlLockCells w) :=
    .ite ((Chip.Keeps.refl c _).wrRow (.inr (.inr (.inr rfl)))) (.refl c _)
  have hshown := ((hslip.wrRow (v := wlAlign) (.inl rfl)).setBit (.inr (.inl rfl)) 0 true).setBit (.inr (.inl rfl)) 1 true
  exact Chip.Keeps.setWl (hshown.wrRow (.inr (.inr (.inl rfl))))

theorem Chip.lockGained_others {k : Nat} (hk : k ≠ w) : (c.lockGained w pos).wl k = c.wl k := by
  rw [Chip.lockGained, Chip.setWl_other hk]
  simp only [Chip.wr_eq, Chip.setBit_eq, Chip.wl_wrRow]
  split
  · exact Chip.wl_wrRow ..
  · rfl

end

/-! Header lock is lost (R280, R284). -/

/-- What is shown of the lock that has ended: its invalid headers, and how many of the last 64 were valid. -/
def Chip.lockEnded (c : Chip) (w invalid valid : Nat) : Chip := (c.add .WL_HDR_ERR w invalid).wr .WL_HDR_VALID w valid

section
variable {c : Chip} {w n v : Nat} {b : Bool}

theorem Chip.headerLost_drops (h : 2 ≤ c.wlState w) :
    c.headerLost w n v b = ((c.lockEnded w n v).wlDrop w 1).setBit .WL_STATUS w 0 b := by
  have hlocked : c.wlLocked w = true := decide_eq_true h
  exact if_neg (by rw [hlocked]; decide)

theorem Chip.lockEnded_in (c : Chip) (w n v : Nat) : Within (.of [] [.WL_HDR_ERR, .WL_HDR_VALID]) c (c.lockEnded w n v) :=
  .wr (.add (.refl _ c) (by decide +kernel)) (by decide +kernel)

theorem Chip.lockEnded_state : (c.lockEnded w n v).wlState w = c.wlState w :=
  (Chip.lockEnded_in ..).rd (by decide +kernel) (by decide +kernel) ..

theorem Chip.lockEnded_errors : Counts c (c.lockEnded w n v) .WL_HDR_ERR w n := by
  simp [Counts, Chip.lockEnded, Chip.wr_eq, Chip.add_eq, Chip.rd_wrRow_same]

theorem Chip.lockEnded_valid (hv : v < 65) : (c.lockEnded w n v).rd .WL_HDR_VALID w = v :=
  Chip.rd_wrRow_fits (Nat.lt_trans hv (by decide)) ..

end

/-! A slip (R281). -/

/-- The boundary one bit further; how many headers are valid there is yet to be seen. -/
def Chip.slipped (c : Chip) (w : Nat) : Chip :=
  let d := (c.wr .WL_SLIP_POS w ((c.rd .WL_SLIP_POS w + 1) % 66)).draw
  d.2.wr .WL_HDR_VALID w (d.1 % 65)

section
variable {c : Chip} {w : Nat}

theorem Chip.writeWlSlip_slips (hm : c.rd .WL_SLIP_MODE w = 1) (hs : c.wlState w = 1 ∨ c.wlState w = 2) :
    c.writeWlSlip w 1 = (.ok, c.slipped w) := by
  have hcond : (c.rd .WL_SLIP_MODE w ≠ 1 || !(c.wlState w = wlSearch || c.wlState w = wlAlign)) = false := by
    rcases hs with hs | hs <;> simp [hm, hs, wlSearch, wlAlign]
  rw [Chip.writeWlSlip, if_neg (by decide), if_neg (by decide), if_neg (by rw [hcond]; decide)]
  rfl

theorem Chip.writeWlSlip_state (h : c.rd .WL_SLIP_MODE w ≠ 1 ∨ (c.wlState w ≠ 1 ∧ c.wlState w ≠ 2)) :
    c.writeWlSlip w 1 = (.state, c) := by
  have hcond : (c.rd .WL_SLIP_MODE w ≠ 1 || !(c.wlState w = wlSearch || c.wlState w = wlAlign)) = true := by
    rcases h with hm | ⟨hsearch, halign⟩
    · simp [hm]
    · simp [hsearch, halign, wlSearch, wlAlign]
  rw [Chip.writeWlSlip, if_neg (by decide), if_neg (by decide), if_pos hcond]

theorem Chip.slipped_position : (c.slipped w).rd .WL_SLIP_POS w = (c.rd .WL_SLIP_POS w + 1) % 66 := by
  have hfits : (c.rd .WL_SLIP_POS w + 1) % 66 < 2 ^ Reg.width .WL_SLIP_POS :=
    Nat.lt_trans (Nat.mod_lt _ (by decide)) (show 66 < 2 ^ Reg.width .WL_SLIP_POS by decide)
  rw [Chip.slipped, Chip.rd_wr_reg (by decide) (by decide)]
  exact Chip.rd_wrRow_fits hfits ..

theorem Chip.slipped_valid : (c.slipped w).rd .WL_HDR_VALID w ≤ 64 := by
  rw [Chip.slipped, Chip.wr_eq, Chip.rd_wrRow_same]
  exact Nat.le_trans (Nat.mod_le _ _) (Nat.le_of_lt_succ (Nat.mod_lt _ (by decide)))

theorem Chip.slipped_keeps : c.Keeps (c.slipped w) fun k => k = ⟨.WL_SLIP_POS, w, 0⟩ ∨ k = ⟨.WL_HDR_VALID, w, 0⟩ := by
  have hmoved : c.Keeps (c.wr .WL_SLIP_POS w ((c.rd .WL_SLIP_POS w + 1) % 66)).draw.2
      fun k => k = ⟨.WL_SLIP_POS, w, 0⟩ ∨ k = ⟨.WL_HDR_VALID, w, 0⟩ := (Chip.Keeps.refl c _).wrRow (.inl rfl)
  exact hmoved.wrRow (.inr rfl)

end

/-! `HELLO` packets (R283, R288). -/

/-- A port with what a `HELLO` says of its partner. -/
def WlSt.hears (s : WlSt) (l : List Octet) : WlSt :=
  { s with heard := some (octNat l 0 8, octNat l 8 1), addr := octNat l 9 1, prio := octNat l 10 1, cost := octNat l 11 1 }

/-- A port that is up, with its partner; the advertisements held have yet to go out on it. -/
def Chip.wlEntered (c : Chip) (w id port : Nat) : Chip :=
  let c := ((c.wr .WL_STATE w wlUp).setBit .WL_STATUS w 3 true).wr .WL_PARTNER_ID w id
  (c.wr .WL_PARTNER_PORT w port).lsaDue

section
variable {c : Chip} {w id port : Nat} {l : List Octet}

/-- A port that exchanges `HELLO` packets. -/
theorem Chip.wlLinked (h : c.wlState w = 3 ∨ c.wlState w = 4) :
    (decide (c.wlState w = wlHello) || decide (c.wlState w = wlUp)) = true := by
  rcases h with h | h <;> rw [h] <;> rfl

theorem Chip.length_helloOctets : (c.helloOctets w).length = 32 := by simp [Chip.helloOctets]

/-- A `HELLO` packet fits into an empty queue of its class. -/
theorem Chip.wlLocal_hello (hq : (c.wl w).queue 1 = []) : c.wlLocal w 1 1 (c.helloOctets w) = c.setWl w fun s => s.withQueue 1
    [{ dest := 0, src := c.rd .WALE_ADDRESS, cls := 1, kind := 1, payload := c.helloOctets w }] :=
  Chip.wlLocal_empty hq (by rw [Chip.length_helloOctets]; decide)

theorem Chip.helloTake_enters (hs : c.wlState w = 3) (hid : octNat l 12 8 = c.ownId) (hport : octNat l 20 1 = w) :
    c.helloTake w l = (c.setWl w fun s => s.hears l).wlEnterUp w (octNat l 0 8) (octNat l 8 1) :=
  (if_pos hs).trans (if_pos ⟨hid, hport⟩)

/-- Another partner than before ends the link. -/
theorem Chip.helloTake_drops (hs : c.wlState w = 4) (hh : (c.wl w).heard ≠ some (octNat l 0 8, octNat l 8 1)) :
    c.helloTake w l = c.wlDrop w 1 :=
  (if_neg (by rw [hs]; decide)).trans ((if_pos hs).trans (if_pos (.inl hh)))

theorem Chip.wlEnterUp_queued (c : Chip) (w id port : Nat) : (c.wlEntered w id port).Queued (c.wlEnterUp w id port) (· = w) :=
  Chip.Queued.each (fun d e _ => (d.flood_queued [w] e.1 e.2).mono fun _ hk => List.mem_singleton.1 hk) _

theorem Chip.wlEnterUp_in_entered (c : Chip) (w id port : Nat) : Within Chip.flood_fx (c.wlEntered w id port) (c.wlEnterUp w id port) :=
  Within.each (fun _ _ hd => Chip.flood_in hd (by decide +kernel)) (.refl _ _)

theorem Chip.wlEntered_state : (c.wlEntered w id port).wlState w = 4 := by
  simp [Chip.wlEntered, Chip.wlState, Chip.wr_eq, Chip.setBit_eq, Chip.rd_wrRow_same]
  decide

theorem Chip.wlEntered_up : (c.wlEntered w id port).rdBit .WL_STATUS 3 w = true := by
  rw [Chip.wlEntered, Chip.rdBit, Chip.rd_lsaDue, Chip.rd_wr_reg (by decide) (by decide), Chip.rd_wr_reg (by decide) (by decide)]
  exact Chip.rdBit_setBit_same _ _ _ _ _ (by decide)

theorem Chip.wlEntered_partner (h : id < 2 ^ 64) : (c.wlEntered w id port).rd .WL_PARTNER_ID w = id := by
  rw [Chip.wlEntered, Chip.rd_lsaDue, Chip.rd_wr_reg (by decide) (by decide)]
  exact Chip.rd_wrRow_fits h ..

theorem Chip.wlEntered_partnerPort (h : port < 256) : (c.wlEntered w id port).rd .WL_PARTNER_PORT w = port := by
  rw [Chip.wlEntered, Chip.rd_lsaDue]
  exact Chip.rd_wrRow_fits h ..

theorem Chip.wlEntered_wl (k : Nat) : (c.wlEntered w id port).wl k = c.wl k := by
  simp [Chip.wlEntered, Chip.wr_eq, Chip.setBit_eq]

end

theorem octNat_lt (l : List Octet) (i n : Nat) : octNat l i n < 256 ^ n := by
  have hlen : (octs l i n).length = n := by
    simp only [octs, List.length_append, List.length_replicate, List.length_take]
    omega
  have hlt := octetsToNat_lt (octs l i n)
  rwa [hlen] at hlt

/-! The enables. -/

section
variable {c : Chip} {w : Nat}

theorem execWlEnableWrite_port (w : WlNo) (v : BitVec 8) (s : State) : exec (.wlEnableWrite (some w) v) s
    = s.runWr fun c => c.gated .WL_ENABLE w fun c => c.writeWlEnable (some w.val) v.toNat := rfl

theorem execWlEnableWrite_fabric (v : BitVec 8) (s : State) : exec (.wlEnableWrite none v) s
    = s.runWr fun c => c.gated .WALE_ENABLE 0 fun c => c.writeWlEnable none v.toNat := rfl

theorem Chip.wlEnabled_shows : (c.wr .WL_ENABLE w 1).rdBool .WL_ENABLE w = true :=
  congrArg (· != 0) (Chip.rd_wrRow_fits (r := .WL_ENABLE) (v := 1) (by decide) ..)

theorem Chip.wlDisabled_shows : (c.wr .WL_ENABLE w 0).rdBool .WL_ENABLE w = false :=
  congrArg (· != 0) (Chip.rd_wrRow_fits (r := .WL_ENABLE) (v := 0) (by decide) ..)

theorem Chip.wlEnabling_in (v : Nat) : Within (.of [] [.WL_ENABLE]) c (c.wr .WL_ENABLE w v) := .wr (.refl _ c) (by decide +kernel)

theorem Chip.wlEnabling_state (v : Nat) : (c.wr .WL_ENABLE w v).wlState w = c.wlState w :=
  (Chip.wlEnabling_in v).rd (by decide +kernel) (by decide +kernel) ..

theorem Chip.wlEnabled_mayRun (he : c.rdBool .WALE_ENABLE = true) (hb : c.rd .BIST_STATE_WL w ≠ 2) :
    (c.wr .WL_ENABLE w 1).wlMayRun w = true := by
  rw [Chip.wlMayRun, Chip.wlEnabled_shows, (Chip.wlEnabling_in 1).rdBool (by decide +kernel) (by decide +kernel), he,
    (Chip.wlEnabling_in 1).rd (by decide +kernel) (by decide +kernel)]
  simpa using hb

theorem Chip.wlDisabled_mayRun : (c.wr .WL_ENABLE w 0).wlMayRun w = false := by
  rw [Chip.wlMayRun, Chip.wlDisabled_shows, Bool.and_false, Bool.false_and]

/-- The fabric is not enabled while its leaf gate is off (R335). -/
theorem Chip.writeWlEnable_gated (hg : c.rdBit .LEGACY_GATE 5 = false) : c.writeWlEnable none 1 = (.state, c) := by
  rw [Chip.writeWlEnable, if_neg (by decide)]
  exact if_pos (by rw [hg]; rfl)

/-- An enabled port that was off searches. -/
theorem Chip.writeWlEnable_on (hs : c.wlState w = 0) (he : c.rdBool .WALE_ENABLE = true) (hb : c.rd .BIST_STATE_WL w ≠ 2) :
    c.writeWlEnable (some w) 1 = (.ok, (c.wr .WL_ENABLE w 1).wr .WL_STATE w 1) :=
  congrArg (Prod.mk Abort.ok) (Chip.wlFollow_starts (Chip.wlEnabled_mayRun he hb) ((Chip.wlEnabling_state 1).trans hs))

/-- A port that is disabled leaves its link. -/
theorem Chip.writeWlEnable_off (hs : c.wlState w ≠ 0) :
    c.writeWlEnable (some w) 0 = (.ok, ((c.wr .WL_ENABLE w 0).wlDrop w 0).wr .WL_STATUS w 0) :=
  congrArg (Prod.mk Abort.ok) (Chip.wlFollow_stops Chip.wlDisabled_mayRun (by rwa [Chip.wlEnabling_state]))

end

end Sys2Proof.Machine
end

section
set_option Elab.async false
open Sys2Proof Sys2Proof.Machine

/-- Settles O34: a port that leaves its link is stopped, then parted from its partner where it was up, then what rests on the link is
ended, and only the first two touch its own objects. That the fabric's disable stops every port is by each port's turn, which the turns of
the others leave. -/
theorem walePortsGainLoseAndEndLinks : Obligations.WalePortsGainLoseAndEndLinks := by
  unfold Obligations.WalePortsGainLoseAndEndLinks
  refine ⟨?_, ?_, ?_, ?_, ?_, ?_, ?_, ?_, ?_, ?_, ?_, ?_, ?_, ?_, ?_, ?_, ?_⟩
  · intro w s ha hs he hb
    refine Answers.of_write _ (execWlEnableWrite_port w 1 s) ha (Chip.writeWlEnable_on hs he hb) fun d hd => ⟨hd.access, ?_, ?_, ?_, ?_⟩
    · rw [hd.written_rdBool rfl, Chip.rdBool, Chip.rd_wr_reg (by decide) (by decide)]
      exact Chip.wlEnabled_shows
    · exact (hd.written_rd rfl ..).trans (Chip.rd_wrRow_fits (by decide) ..)
    · exact hd.written_bare.trans ((Chip.bare_wrRow ..).trans (Chip.bare_wrRow ..))
    · exact hd.written_keeps (((Chip.Keeps.refl _ _).wrRow (.inl rfl)).wrRow (.inr rfl))
  · intro w s ha hs
    have hdrop := (s.chip.wr .WL_ENABLE w 0).wlDrop_within w 0
    refine Answers.of_write _ (execWlEnableWrite_port w 0 s) ha (Chip.writeWlEnable_off hs) fun d hd => ⟨hd.access, ?_, ?_, ?_, fun hup => ?_⟩
    · rw [hd.written_rdBool rfl, Chip.rdBool, Chip.rd_wr_reg (by decide) (by decide)]
      exact (hdrop.rdBool (by decide +kernel) (by decide +kernel) _).trans Chip.wlDisabled_shows
    · rw [Chip.wlState, hd.written_rd rfl, Chip.rd_wr_reg (by decide) (by decide)]
      exact Chip.wlDrop_state (by decide)
    · exact (hd.written_rd rfl ..).trans (Chip.rd_wrRow_fits (by decide) ..)
    · obtain ⟨hcount, hpartner, hport⟩ := Chip.wlDrop_loss (w := w.val) (dest := 0) ((Chip.wlEnabling_state (c := s.chip) (w := w) 0).trans hup)
      rw [hd.written_rd rfl, hd.written_rd rfl, hd.written_rd rfl, Chip.rd_wr_reg (by decide) (by decide),
        Chip.rd_wr_reg (by decide) (by decide), Chip.rd_wr_reg (by decide) (by decide)]
      exact ⟨hcount.after ((Chip.wlEnabling_in 0).rd (by decide +kernel) (by decide +kernel) ..), hpartner, hport⟩
  · intro s ha
    have hoff : (s.chip.wrDev .WALE_ENABLE 0).rdBool .WALE_ENABLE = false :=
      congrArg (· != 0) (Chip.rd_wrRow_fits (r := .WALE_ENABLE) (v := 0) (by decide) ..)
    refine Answers.of_write (s.chip.wrDev .WALE_ENABLE 0).wlStartAll (execWlEnableWrite_fabric 0 s) ha rfl fun d hd => ⟨hd.access, ?_, fun w => ?_⟩
    · rw [hd.written_rdBool rfl, (Chip.wlStartAll_in (.refl Chip.wlStartAll_fx _) (by decide +kernel)).rdBool (by decide +kernel) (by decide +kernel),
        hoff]
    · exact (hd.written_rd rfl ..).trans (Chip.wlStartAll_off hoff w.isLt)
  · intro s ha hg
    refine Answers.of_abort (execWlEnableWrite_fabric 1 s) (a := .state) (m := s.chip) ?_ (by decide) (by decide) fun d hd => hd.turnedAway.2
    rw [Chip.gated, ha]
    exact Chip.writeWlEnable_gated hg
  · intro w x s hs
    refine Answers.of_runs ⟨_, execWlHeaderLock.eq_1 w x s, Chip.headerLock_gains hs⟩ fun d hd => ?_
    rw [Chip.wlState, hd.rd _ rfl, hd.rdBit _ rfl, hd.rd _ rfl, hd.rd _ rfl]
    exact ⟨Chip.lockGained_state, Chip.lockGained_locked, Chip.lockGained_valid, Chip.lockGained_position x.isLt,
      hd.keeps Chip.lockGained_keeps, fun k hk => (hd.wl_eq k).trans (Chip.lockGained_others hk)⟩
  · intro w n v b s hs
    have hstate := Chip.lockEnded_state (c := s.chip) (w := w) (n := n) (v := v)
    have hended := s.chip.lockEnded_in w n v
    have hdrop := (s.chip.lockEnded w n v).wlDrop_within w 1
    obtain ⟨-, hsquelch⟩ := (s.chip.lockEnded w n v).wlDrop_forgets w 1
    refine Answers.of_runs ⟨_, execWlHeaderLockLost.eq_1 w n v b s, Chip.headerLost_drops hs⟩ fun d hd => ?_
    rw [Chip.wlState, hd.rd _ rfl, hd.rdBit _ rfl, hd.rdBit _ rfl, Counts, hd.rd _ rfl, hd.rd _ rfl, hd.rd _ rfl, hd.wl_eq]
    refine ⟨?_, ?_, Chip.rdBit_setBit_same _ _ _ _ _ (by decide), ?_, ?_, ?_, fun hup => ?_, fun k hk => ?_⟩
    · rw [Chip.rd_setBit_reg (by decide) (by decide)]
      exact Chip.wlDrop_state (by decide)
    · rw [Chip.rdBit_setBit_other _ _ _ _ _ _ (by decide) (by decide), Chip.wlDrop_unlocked]
    · rw [Chip.rd_setBit_reg (by decide) (by decide), hdrop.rd (by decide +kernel) (by decide +kernel)]
      exact Chip.lockEnded_errors
    · rw [Chip.rd_setBit_reg (by decide) (by decide), hdrop.rd (by decide +kernel) (by decide +kernel)]
      exact Chip.lockEnded_valid v.isLt
    · rw [Chip.setBit_eq, Chip.wl_wrRow, hsquelch, hstate]
      rfl
    · obtain ⟨hcount, -, -⟩ := Chip.wlDrop_loss (dest := 1) (hstate.trans hup)
      rw [Chip.rd_setBit_reg (by decide) (by decide)]
      exact hcount.after (hended.rd (by decide +kernel) (by decide +kernel) ..)
    · rw [hd.wl_eq, Chip.setBit_eq, Chip.wl_wrRow, Chip.wlDrop_others hk, hended.wl_eq (by decide +kernel)]
  · intro w b s hs
    refine Answers.of_runs ⟨_, execWlAligned.eq_1 w b s, if_neg (not_not_intro hs)⟩ fun d hd => ⟨?_, ?_, ?_, ?_⟩
    · rw [Chip.wlState, hd.rd _ rfl, Chip.rd_setBit_reg (by decide) (by decide)]
      exact Chip.rd_wrRow_fits (by decide) ..
    · exact (hd.rdBit _ rfl ..).trans (Chip.rdBit_setBit_same _ _ _ _ _ (by decide))
    · exact hd.bare.trans ((Chip.bare_wrRow ..).trans (Chip.bare_wrRow ..))
    · exact hd.keeps (((Chip.Keeps.refl _ _).wrRow (.inl rfl)).wrRow (.inr rfl))
  · intro w s ha hm hs
    refine Answers.of_write _ (execWlSlip.eq_1 w 1 s) ha (Chip.writeWlSlip_slips hm hs) fun d hd => ?_
    rw [hd.written_rd rfl, hd.written_rd rfl]
    exact ⟨hd.access, Chip.slipped_position, Chip.slipped_valid, hd.written_keeps Chip.slipped_keeps⟩
  · intro w s ha h
    refine Answers.of_abort (execWlSlip.eq_1 w 1 s) (a := .state) (m := s.chip) ?_ (by decide) (by decide) fun d hd => hd.turnedAway.2
    rw [Chip.gated, ha]
    exact Chip.writeWlSlip_state h
  · intro w s hs hq
    refine Answers.of_runs ⟨_, execWlHelloSend.eq_1 w s, (if_pos (Chip.wlLinked hs)).trans (Chip.wlLocal_hello hq)⟩ fun d hd => ?_
    obtain ⟨hown, hothers, hbare, -, hkeeps⟩ := hd.wlSet (s.chip.setWl_wlSet w _)
    rw [hown]
    exact ⟨WlSt.withQueue_same .., hbare, hothers, hkeeps⟩
  · intro w x s l hs hid hport
    have hqueued := (s.chip.setWl w fun t => t.hears l).wlEnterUp_queued w (octNat l 0 8) (octNat l 8 1)
    have hin := (s.chip.setWl w fun t => t.hears l).wlEnterUp_in_entered w (octNat l 0 8) (octNat l 8 1)
    refine Answers.of_runs ⟨_, execHello.eq_1 w x s, Chip.helloTake_enters hs hid hport⟩ fun d hd => ?_
    rw [Chip.wlState, hd.rd _ rfl, hd.rdBit _ rfl, hd.rd _ rfl, hd.rd _ rfl, hd.wl_eq, hin.rd (by decide +kernel) (by decide +kernel),
      hin.rdBit (by decide +kernel) (by decide +kernel), hin.rd (by decide +kernel) (by decide +kernel),
      hin.rd (by decide +kernel) (by decide +kernel), hqueued.heard, Chip.wlEntered_wl, Chip.setWl_same]
    refine ⟨Chip.wlEntered_state, Chip.wlEntered_up, Chip.wlEntered_partner (octNat_lt ..), Chip.wlEntered_partnerPort (octNat_lt ..), rfl, ?_⟩
    rw [hd.part (fun e => e.wale.dirty) fun _ => rfl, hqueued.wale]
    rfl
  · intro w x s l hs hh
    obtain ⟨hcount, hpartner, -⟩ := Chip.wlDrop_loss (dest := 1) hs
    refine Answers.of_runs ⟨_, execHello.eq_1 w x s, Chip.helloTake_drops hs hh⟩ fun d hd => ?_
    rw [Chip.wlState, Counts, hd.rd _ rfl, hd.rd _ rfl, hd.rd _ rfl, hd.wl_eq]
    exact ⟨Chip.wlDrop_state (by decide), hpartner, (s.chip.wlDrop_forgets w 1).1, hcount⟩
  · intro w s hs
    obtain ⟨hheard, hsquelch⟩ := s.chip.wlDrop_forgets w 1
    refine Answers.of_runs ⟨_, execWlHelloTimeout.eq_1 w s, if_pos (Chip.wlLinked hs)⟩ fun d hd => ?_
    rw [Chip.wlState, hd.rd _ rfl, hd.rd _ rfl, hd.wl_eq]
    refine ⟨Chip.wlDrop_state (by decide), hheard, ?_, fun hup => (Chip.wlDrop_loss hup).1⟩
    exact hsquelch.trans (by rw [Bool.or_comm, Chip.wlLinked hs]; rfl)
  · intro w s
    refine Answers.of_runs ⟨_, execWlSquelchEnd.eq_1 w s, rfl⟩ fun d hd => ?_
    obtain ⟨hown, hothers, hbare, hwale, hkeeps⟩ := hd.wlSet (s.chip.setWl_wlSet w _)
    exact ⟨hown, hothers, hbare, hwale, hkeeps⟩
  · intro w s hs
    refine Answers.of_runs ⟨_, execWlQuietSearch.eq_1 w s, if_pos hs⟩ fun d hd => ?_
    obtain ⟨hown, hothers, hbare, hwale, hkeeps⟩ := hd.wlSet (s.chip.setWl_wlSet w _)
    exact ⟨hown, hothers, hbare, hwale, hkeeps⟩
  · intro w s ha hs
    have hset : s.chip.writeWlWake w 1 = (.ok, s.chip.setWl w fun t => { t with wakeFrom := some s.chip.root }) := if_neg hs
    refine Answers.of_write _ (execWlWakeSend.eq_1 w 1 s) ha hset fun d hd => ?_
    obtain ⟨hown, hothers, -, -, hkeeps⟩ := hd.wlSet ((s.chip.setWl_wlSet w _).access _)
    exact ⟨hd.access, hown, hothers, hkeeps⟩
  · intro w s ha hs
    refine Answers.of_abort (execWlWakeSend.eq_1 w 1 s) (a := .state) (m := s.chip) ?_ (by decide) (by decide) fun d hd => hd.turnedAway.2
    rw [Chip.gated, ha]
    exact if_pos hs

end

section
/-!
PROOFS. The link-state database, the device's own advertisement, and what a recomputation shows (R289 to R293, R298, R301).
-/
set_option Elab.async false
namespace Sys2Proof.Machine

theorem EvFrame.lsdb_eq {c d : Chip} (h : EvFrame c d) : d.wale.lsdb = c.wale.lsdb := h.part (fun e => e.wale.lsdb) fun _ => rfl

theorem Chip.Queued.lsdb {c d : Chip} {ws : Nat → Prop} (h : c.Queued d ws) : d.wale.lsdb = c.wale.lsdb := by rw [h.wale]

/-! A received advertisement (R289). -/

/-- The database with a device's advertisement. -/
def Chip.lsaHeld (c : Chip) (id : Nat) (a : Lsa) : Chip := c.setWale fun x => { x with lsdb := x.lsdb.put id a }

/-- Ports that are up, but the one on which an advertisement came. -/
def Chip.wlOthers (c : Chip) (w : Nat) : List Nat := c.wlUps.filter fun k => k != w

section
variable {c d : Chip} {w id : Nat} {a b : Lsa}

theorem Chip.lsaTake_newer (hid : id ≠ c.ownId) (hb : c.wale.lsdb.get? id = some b) (hs : b.seq < a.seq) :
    c.lsaTake w id a = (c.lsaHeld id a).flood (c.wlOthers w) id a := by
  rw [Chip.lsaTake, if_neg hid, hb]
  exact if_pos hs

theorem Chip.lsaTake_older (hid : id ≠ c.ownId) (hb : c.wale.lsdb.get? id = some b) (hs : a.seq ≤ b.seq) :
    c.lsaTake w id a = c := by
  rw [Chip.lsaTake, if_neg hid, hb]
  exact if_neg (Nat.not_lt.2 hs)

theorem Chip.lsaTake_first (hid : id ≠ c.ownId) (hb : c.wale.lsdb.get? id = none) (hn : c.wale.lsdb.length < 255) :
    c.lsaTake w id a = (c.lsaHeld id a).flood (c.wlOthers w) id a := by
  rw [Chip.lsaTake, if_neg hid, hb]
  exact if_pos hn

/-- An advertisement that is held goes on to the other ports. -/
theorem EvFrame.lsaHeld (h : EvFrame ((c.lsaHeld id a).flood (c.wlOthers w) id a) d) : d.wale.lsdb.get? id = some a ∧
    (∀ j, j ≠ id → d.wale.lsdb.get? j = c.wale.lsdb.get? j) ∧ d.wl w = c.wl w := by
  have hqueued := (c.lsaHeld id a).flood_queued (c.wlOthers w) id a
  have hlsdb : d.wale.lsdb = c.wale.lsdb.put id a := h.lsdb_eq.trans hqueued.lsdb
  have hw : w ∉ c.wlOthers w := fun hw => by simpa using (List.mem_filter.1 hw).2
  rw [hlsdb]
  exact ⟨Tab.get?_put_same .., fun j hj => Tab.get?_put_other _ _ _ _ hj, (h.wl_eq w).trans (hqueued.others w hw)⟩

theorem execLsa_takes {w : WlNo} {l : List Octet} {s : State} {m : Chip} (hs : s.chip.wlState w = 4) (hl : Lsa.ofOctets l = some (id, a))
    (hm : s.chip.lsaTake w id a = m) : ∃ f, exec (.lsa w l) s = s.run f ∧ f s.chip = m := by
  refine ⟨_, execLsa.eq_1 w l s, (if_neg (not_not_intro hs)).trans ?_⟩
  rw [hl]
  exact hm

end

/-! The device's own advertisement (R289). -/

/-- The next advertisement of the device. -/
def Chip.nextLsa (c : Chip) : Lsa :=
  { addr := c.rd .WALE_ADDRESS, prio := c.rd .WALE_ROOT_PRIORITY, seq := (c.rd .WALE_LSA_SEQ + 1) % 2 ^ 32, links := c.ownLinks }

/-- The device with its next advertisement, which has yet to go out. -/
def Chip.advertised (c : Chip) : Chip :=
  (c.wrDev .WALE_LSA_SEQ (c.rd .WALE_LSA_SEQ + 1)).setWale fun x => { x with own := c.nextLsa, dirty := false }

section
variable {c d : Chip}

theorem Chip.originateNext_eq (c : Chip) : c.originateNext c.ownLinks = c.advertised.flood c.advertised.wlUps c.ownId c.nextLsa := rfl

theorem Chip.advertised_seq : c.advertised.rd .WALE_LSA_SEQ = (c.rd .WALE_LSA_SEQ + 1) % 2 ^ 32 := Chip.rd_wrRow_same ..

theorem Chip.advertised_wale : c.advertised.wale = { c.wale with own := c.nextLsa, dirty := false } := by
  rw [Chip.advertised, Chip.setWale, Chip.wrDev_eq, Chip.wrRow_wale]

theorem EvFrame.originated (h : EvFrame (c.originateNext c.ownLinks) d) : d.wale.own = c.nextLsa ∧
    d.rd .WALE_LSA_SEQ = (c.rd .WALE_LSA_SEQ + 1) % 2 ^ 32 ∧ d.wale.dirty = false ∧ d.wale.lsdb = c.wale.lsdb := by
  rw [c.originateNext_eq] at h
  have hqueued := c.advertised.flood_queued c.advertised.wlUps c.ownId c.nextLsa
  have hin := c.advertised.flood_within c.advertised.wlUps c.ownId c.nextLsa
  rw [h.rd _ rfl, hin.rd (by decide +kernel) (by decide +kernel), h.part (fun e => e.wale.own) fun _ => rfl,
    h.part (fun e => e.wale.dirty) fun _ => rfl, h.lsdb_eq, hqueued.wale, Chip.advertised_wale]
  exact ⟨rfl, Chip.advertised_seq, rfl, rfl⟩

theorem Chip.waleRuns_of (ha : c.boot.applied = true) (hr : c.pwr.rootOn = true) : c.waleRuns = true := by rw [Chip.waleRuns, ha, hr]; rfl

theorem execLsaOriginate_sends {s : State} (hr : s.chip.waleRuns = true) (hd : s.chip.wale.dirty = true) :
    ∃ f, exec .lsaOriginate s = s.run f ∧ f s.chip = s.chip.originateNext s.chip.ownLinks :=
  ⟨_, execLsaOriginate.eq_1 s, if_pos (by rw [hr, hd]; rfl)⟩

theorem execLsaOriginate_rests {s : State} (hd : s.chip.wale.dirty = false) : ∃ f, exec .lsaOriginate s = s.run f ∧ f s.chip = s.chip :=
  ⟨_, execLsaOriginate.eq_1 s, if_neg (by rw [hd, Bool.and_false]; decide)⟩

end

/-! The recomputation (R290 to R293, R298, R301). -/

section
variable (c : Chip)

/-- The root, the number of devices and the routes, as the database gives them. -/
def Chip.routesShown : Chip :=
  let paths := c.paths
  let near := c.reachable
  let root := c.rootOf
  let d := ((c.wrDev .WALE_ROOT_ID root).wrDev .WALE_DEVICE_COUNT (near.length + 1)).setBit .WALE_STATUS 0 1 (root = c.ownId)
  d.each (List.range 256) fun d a => d.wrRow .WALE_ROUTES 0 a (if a = 0 ∨ a = 0xFF then 0xFFFF else routeRow paths near a)

/-- Hops to the root. -/
def Chip.rootDistance : Nat :=
  if c.rootOf = c.ownId then 0 else match c.paths.get? c.rootOf with
    | some x => min 255 x.2.2
    | none => 0xFF

/-- The distance to the root, and whether it is too far (R298). -/
def Chip.distanceShown (dist : Nat) : Chip :=
  let c := c.wrDev .WALE_ROOT_DISTANCE dist
  let far := 16 < dist && dist != 0xFF
  let c := if far && !c.rdBit .WALE_STATUS 3 then c.raise .tooFar 0 dist else c
  c.setBit .WALE_STATUS 0 3 far

/-- The first hop of the route to the root. -/
def Chip.upstreamPort (isRoot : Bool) : Nat :=
  let r1 := c.rd .WALE_ROUTES 0 1
  if isRoot || r1 = 0xFFFF then 0xFF else r1 % 256

theorem Chip.recompute_eq : c.recompute =
    let d := (c.routesShown.distanceShown c.rootDistance).claim
    (d.setUpstream (d.upstreamPort (c.rootOf = c.ownId))).replace := rfl

end

section
variable {c : Chip}

theorem Chip.distanceShown_in (c : Chip) (dist : Nat) : Within (.of [.ev] [.WALE_ROOT_DISTANCE, .WALE_STATUS]) c (c.distanceShown dist) :=
  have hwritten : Within (.of [.ev] [.WALE_ROOT_DISTANCE, .WALE_STATUS]) c (c.wrDev .WALE_ROOT_DISTANCE dist) :=
    .wrDev (.refl _ c) (by decide +kernel)
  .setBit (.ite (hwritten.raise (by decide +kernel)) hwritten) (by decide +kernel)

theorem Chip.distanceShown_distance {dist : Nat} (h : dist < 256) : (c.distanceShown dist).rd .WALE_ROOT_DISTANCE = dist := by
  have hwritten : (c.wrDev .WALE_ROOT_DISTANCE dist).rd .WALE_ROOT_DISTANCE = dist := Chip.rd_wrRow_fits h ..
  rw [Chip.distanceShown, Chip.rd_setBit_reg (by decide) (by decide), Chip.rd_ite, Chip.rd_raise, ite_self, hwritten]

theorem Chip.distanceShown_isRoot {dist : Nat} : (c.distanceShown dist).rdBit .WALE_STATUS 1 = c.rdBit .WALE_STATUS 1 := by
  rw [Chip.distanceShown, Chip.rdBit_setBit_other _ _ _ _ _ _ (by decide) (by decide)]
  simp [Chip.rdBit, Chip.rd_ite, Chip.wrDev_eq]

theorem Chip.claim_within (c : Chip) : Within Chip.claim_fx c c.claim := Chip.claim_in (.refl _ _) (by decide +kernel)

theorem Chip.rdBit_ite (p : Prop) [Decidable p] (c d : Chip) (r : Reg) (b i : Nat) :
    (if p then c else d).rdBit r b i = if p then c.rdBit r b i else d.rdBit r b i := by split <;> rfl

/-- A claim leaves the mark of the root. -/
theorem Chip.claim_isRoot : c.claim.rdBit .WALE_STATUS 1 = c.rdBit .WALE_STATUS 1 := by
  have hbit : ∀ (d : Chip) (k : Nat) (x : Bool), 1 ≠ k → (d.setBit .WALE_STATUS 0 k x).rdBit .WALE_STATUS 1 = d.rdBit .WALE_STATUS 1 :=
    fun d k x hk => Chip.rdBit_setBit_other _ _ _ _ _ _ hk (by decide)
  have hreg : ∀ (d : Chip) (r : Reg) (v : Nat), .WALE_STATUS ≠ r → r ≠ .QUAD_FORMATION →
      (d.wrRow r 0 0 v).rdBit .WALE_STATUS 1 = d.rdBit .WALE_STATUS 1 :=
    fun d r v hr hq => congrArg (Nat.testBit · 1) (Chip.rd_wrRow_reg d r .WALE_STATUS 0 0 0 0 v hr hq)
  have hraise : ∀ (d : Chip) (n : EvName) (v : Nat), (d.raise n 0 v).rdBit .WALE_STATUS 1 = d.rdBit .WALE_STATUS 1 := fun _ _ _ => rfl
  have hdue : ∀ d : Chip, d.lsaDue.rdBit .WALE_STATUS 1 = d.rdBit .WALE_STATUS 1 := fun _ => rfl
  have hclaimed : (c.setWale fun x => { x with claimed := true }).rdBit .WALE_STATUS 1 = c.rdBit .WALE_STATUS 1 := rfl
  unfold Chip.claim
  dsimp only
  simp [Chip.rdBit_ite, Chip.wrDev_eq, Chip.inc_eq, hbit, hreg, hraise, hdue, hclaimed]

theorem Chip.lsdb_ite (p : Prop) [Decidable p] (c d : Chip) :
    (if p then c else d).wale.lsdb = if p then c.wale.lsdb else d.wale.lsdb := by split <;> rfl

theorem Chip.claim_lsdb : c.claim.wale.lsdb = c.wale.lsdb := by
  have hdue : ∀ d : Chip, d.lsaDue.wale.lsdb = d.wale.lsdb := fun _ => rfl
  have hclaimed : (c.setWale fun x => { x with claimed := true }).wale.lsdb = c.wale.lsdb := rfl
  unfold Chip.claim
  dsimp only
  simp only [Chip.lsdb_ite, hdue, hclaimed, Chip.inc_eq, Chip.wrDev_eq, Chip.setBit_eq, Chip.wrRow_wale, Chip.raise_wale, ite_self]

theorem Chip.setUpstream_within (c : Chip) (u : Nat) : Within Chip.setUpstream_fx c (c.setUpstream u) :=
  Chip.setUpstream_in (.refl _ _) (by decide +kernel)

theorem Chip.setUpstream_shows {u : Nat} (h : u < 256) : (c.setUpstream u).rd .WALE_UPSTREAM = u := by
  have hwritten : (c.wrDev .WALE_UPSTREAM u).rd .WALE_UPSTREAM = u := Chip.rd_wrRow_fits h ..
  unfold Chip.setUpstream
  split
  · assumption
  · refine (Chip.each_same (fun d : Chip => d.rd .WALE_UPSTREAM) _ (fun d w => ?_) _ _).trans hwritten
    exact Chip.rd_wrRow_reg _ _ _ _ _ _ _ _ (by decide) (by decide)

theorem Chip.setUpstream_lsdb (u : Nat) : (c.setUpstream u).wale.lsdb = c.wale.lsdb := by
  unfold Chip.setUpstream
  split
  · rfl
  · refine (Chip.each_same (fun d : Chip => d.wale.lsdb) _ (fun d w => ?_) _ _).trans (congrArg FabricSt.lsdb (Chip.wrRow_wale ..))
    have hreset : ∀ e : Chip, (e.exchangeReset w).wale.lsdb = e.wale.lsdb := fun _ => rfl
    rw [hreset, Chip.setBit_eq, Chip.wrRow_wale]

theorem Chip.replace_within (c : Chip) : Within Chip.replace_fx c c.replace := Chip.replace_in (.refl _ _) (by decide +kernel)

theorem Chip.wlForward_lsdb (p : WlPacket) : (c.wlForward p).wale.lsdb = c.wale.lsdb := by
  unfold Chip.wlForward
  split
  · exact (Chip.wlQueue_queued ..).lsdb
  · exact congrArg FabricSt.lsdb (Chip.wrRow_wale ..)

theorem Chip.replace_lsdb : c.replace.wale.lsdb = c.wale.lsdb := by
  refine Chip.each_same (fun d : Chip => d.wale.lsdb) _ (fun d w => ?_) _ _
  refine (Chip.each_same (fun d : Chip => d.wale.lsdb) _ (fun e p => ?_) _ _).trans rfl
  rw [Chip.lsdb_ite, Chip.wlForward_lsdb, Chip.inc_eq, Chip.wrRow_wale, ite_self]

theorem Chip.rootDistance_lt : c.rootDistance < 256 := by
  unfold Chip.rootDistance
  split
  · decide
  · split <;> omega

theorem Chip.upstreamPort_lt (isRoot : Bool) : c.upstreamPort isRoot < 256 := by
  unfold Chip.upstreamPort
  dsimp only
  split
  · decide
  · exact Nat.mod_lt _ (by decide)

/-! What the database gives. -/

theorem Chip.routesShown_rd {r : Reg} (hr : r ≠ .WALE_ROUTES) (i row : Nat) : c.routesShown.rd r i row =
    (((c.wrDev .WALE_ROOT_ID c.rootOf).wrDev .WALE_DEVICE_COUNT (c.reachable.length + 1)).setBit .WALE_STATUS 0 1 (c.rootOf = c.ownId)).rd r i row :=
  Chip.each_same (fun d : Chip => d.rd r i row) _ (fun _ _ => Chip.rd_wrRow_reg _ _ _ _ _ _ _ _ hr (by decide)) _ _

theorem Chip.routesShown_root : c.routesShown.rd .WALE_ROOT_ID = c.rootOf % 2 ^ 64 := by
  rw [Chip.routesShown_rd (by decide), Chip.rd_setBit_reg (by decide) (by decide), Chip.wrDev_eq _ .WALE_DEVICE_COUNT,
    Chip.rd_wrRow_reg _ _ _ _ _ _ _ _ (by decide) (by decide)]
  exact Chip.rd_wrRow_same ..

theorem Chip.routesShown_count : c.routesShown.rd .WALE_DEVICE_COUNT = (c.reachable.length + 1) % 2 ^ 16 := by
  rw [Chip.routesShown_rd (by decide), Chip.rd_setBit_reg (by decide) (by decide)]
  exact Chip.rd_wrRow_same ..

theorem Chip.routesShown_isRoot : c.routesShown.rdBit .WALE_STATUS 1 = decide (c.rootOf = c.ownId) := by
  rw [Chip.rdBit, Chip.routesShown_rd (by decide)]
  exact Chip.rdBit_setBit_same _ _ _ _ _ (by decide)

theorem Chip.routesShown_routes (a : Fin 256) : c.routesShown.rd .WALE_ROUTES 0 a =
    if a.val = 0 ∨ a.val = 0xFF then 0xFFFF else routeRow c.paths c.reachable a.val % 2 ^ 16 := by
  refine (Chip.rd_each_wrRow _ (by decide) 0 _ (List.mem_range.2 a.isLt)).trans ?_
  split <;> rfl

theorem Chip.routesShown_lsdb : c.routesShown.wale.lsdb = c.wale.lsdb := by
  refine (Chip.each_same (fun d : Chip => d.wale.lsdb) _ (fun d a => congrArg FabricSt.lsdb (Chip.wrRow_wale ..)) _ _).trans ?_
  simp only [Chip.setBit_eq, Chip.wrDev_eq, Chip.wrRow_wale]

/-! What the recomputation shows. -/

/-- The claim, the upstream port and the packets placed anew leave what the database gives. -/
theorem Chip.recompute_in_shown (c : Chip) : Within (.union [Chip.claim_fx, Chip.setUpstream_fx, Chip.replace_fx])
    (c.routesShown.distanceShown c.rootDistance) c.recompute :=
  Chip.replace_in (Chip.setUpstream_in (Chip.claim_in (.refl _ _) (by decide +kernel)) (by decide +kernel)) (by decide +kernel)

theorem Chip.recompute_rd_shown {r : Reg} (hr : (Fx.union [Chip.claim_fx, Chip.setUpstream_fx, Chip.replace_fx]).hasReg r = false)
    (hd : (Fx.of [.ev] [.WALE_ROOT_DISTANCE, .WALE_STATUS]).hasReg r = false) (i row : Nat) :
    c.recompute.rd r i row = c.routesShown.rd r i row :=
  (c.recompute_in_shown.rd hr (by decide +kernel) i row).trans ((c.routesShown.distanceShown_in _).rd hd (by decide +kernel) i row)

theorem Chip.recompute_isRoot : c.recompute.rdBit .WALE_STATUS 1 = decide (c.rootOf = c.ownId) := by
  rw [Chip.recompute_eq, (Chip.replace_within _).rdBit (by decide +kernel) (by decide +kernel),
    (Chip.setUpstream_within _ _).rdBit (by decide +kernel) (by decide +kernel), Chip.claim_isRoot, Chip.distanceShown_isRoot,
    Chip.routesShown_isRoot]

/-- The root is at no distance from itself, and has no upstream port. -/
theorem Chip.recompute_root (h : c.rootOf = c.ownId) : c.recompute.rd .WALE_ROOT_DISTANCE = 0 ∧ c.recompute.rd .WALE_UPSTREAM = 0xFF := by
  constructor
  · have hdist : c.rootDistance = 0 := if_pos h
    rw [c.recompute_in_shown.rd (by decide +kernel) (by decide +kernel), Chip.distanceShown_distance Chip.rootDistance_lt, hdist]
  · have hport : (c.routesShown.distanceShown c.rootDistance).claim.upstreamPort (c.rootOf = c.ownId) = 0xFF := by
      rw [Chip.upstreamPort, decide_eq_true h]
      rfl
    rw [Chip.recompute_eq, (Chip.replace_within _).rd (by decide +kernel) (by decide +kernel),
      Chip.setUpstream_shows (Chip.upstreamPort_lt _), hport]

theorem Chip.recompute_lsdb : c.recompute.wale.lsdb = c.wale.lsdb := by
  have hdist : ∀ (d : Chip) (n : Nat), (d.distanceShown n).wale.lsdb = d.wale.lsdb := fun d n =>
    congrArg FabricSt.lsdb ((d.distanceShown_in n).part .wale (by decide +kernel))
  rw [Chip.recompute_eq, Chip.replace_lsdb, Chip.setUpstream_lsdb, Chip.claim_lsdb, hdist, Chip.routesShown_lsdb]

end

end Sys2Proof.Machine
end

section
set_option Elab.async false
open Sys2Proof Sys2Proof.Machine

/-- Settles O36: an advertisement that is held or issued goes on by the queues of ports alone; and a recomputation first shows what the
database gives, which the claim, the upstream port and the packets placed anew then leave. -/
theorem advertisementsRoutesAndAddressesFollow : Obligations.AdvertisementsRoutesAndAddressesFollow := by
  unfold Obligations.AdvertisementsRoutesAndAddressesFollow
  refine ⟨?_, ?_, ?_, ?_, ?_, ?_, ?_, ?_, ?_, ?_⟩
  · intro w l i a b s hs hl hi hb hseq
    exact Answers.of_runs (execLsa_takes hs hl (Chip.lsaTake_newer hi hb hseq)) fun d hd => hd.lsaHeld
  · intro w l i a b s hs hl hi hb hseq
    exact Answers.of_runs (execLsa_takes hs hl (Chip.lsaTake_older hi hb hseq)) fun d hd => ⟨hd.bare, hd.keeps (.refl _ _)⟩
  · intro w l i a s hs hl hi hb hn
    refine Answers.of_runs (execLsa_takes hs hl (Chip.lsaTake_first hi hb hn)) fun d hd => ?_
    obtain ⟨hheld, hothers, -⟩ := hd.lsaHeld
    exact ⟨hheld, hothers⟩
  · intro s ha hr hdirty
    exact Answers.of_runs (execLsaOriginate_sends (Chip.waleRuns_of ha hr) hdirty) fun d hd => hd.originated
  · intro s hdirty
    exact Answers.of_runs (execLsaOriginate_rests hdirty) fun d hd => ⟨hd.bare, hd.keeps (.refl _ _)⟩
  · intro s ha hr
    refine Answers.of_runs ⟨_, execLsaRefresh.eq_1 s, if_pos (Chip.waleRuns_of ha hr)⟩ fun d hd => ?_
    obtain ⟨hown, hseq, -, hlsdb⟩ := hd.originated
    exact ⟨hown, hseq, hlsdb⟩
  · intro x s
    refine Answers.of_runs ⟨_, execLsaAgeOut.eq_1 x s, rfl⟩ fun d hd => ?_
    rw [hd.lsdb_eq, hd.bare]
    exact ⟨Tab.get?_del_same .., fun j hj => Tab.get?_del_other _ _ _ hj, rfl, fun k => hd.wl_eq k, hd.keeps (.refl _ _)⟩
  · intro s ha hr
    refine Answers.of_runs ⟨_, execRouteRecompute.eq_1 s, if_pos (Chip.waleRuns_of ha hr)⟩ fun d hd => ?_
    rw [hd.rd _ rfl, hd.rd _ rfl, hd.rdBit _ rfl, hd.rd _ rfl, hd.rd _ rfl, hd.lsdb_eq]
    refine ⟨?_, ?_, fun a => ?_, Chip.recompute_isRoot, Chip.recompute_root, Chip.recompute_lsdb⟩
    · exact (Chip.recompute_rd_shown (by decide +kernel) (by decide +kernel) ..).trans Chip.routesShown_root
    · exact (Chip.recompute_rd_shown (by decide +kernel) (by decide +kernel) ..).trans Chip.routesShown_count
    · rw [hd.rd _ rfl, Chip.recompute_rd_shown (by decide +kernel) (by decide +kernel), Chip.routesShown_routes]
  · intro s ha hclaim hup
    have hcond : (s.chip.rd .WALE_ADDRESS ≠ 0 && !s.chip.outclaimed (s.chip.rd .WALE_ADDRESS) && !s.chip.wlUps.isEmpty) = true := by
      simp [ha, hclaim, hup]
    refine Answers.of_runs ⟨_, execWaleConverged.eq_1 s, if_pos hcond⟩ fun d hd => ⟨?_, hd.bare.trans (Chip.bare_wrRow ..), ?_⟩
    · exact (hd.rdBit _ rfl ..).trans (Chip.rdBit_setBit_same _ _ _ _ _ (by decide))
    · exact hd.keeps ((Chip.Keeps.refl _ _).wrRow rfl)
  · intro s ha
    refine Answers.of_runs ⟨_, execAddressPersist.eq_1 s, if_neg ha⟩ fun d hd => ?_
    rw [hd.bare, hd.nv_eq]
    exact ⟨rfl, rfl, hd.keeps (.refl _ _)⟩

end

section
/-!
PROOFS. Time transport over Wale (R296, R297): the words sent and received, and the packets that complete their exchanges.
-/
set_option Elab.async false
namespace Sys2Proof.Machine

section
variable {c : Chip} {w : Nat}

theorem Chip.length_timeOctets (seq kind t : Nat) : (c.timeOctets seq kind t).length = 24 := by simp [Chip.timeOctets]

/-- A `TIME` packet fits into an empty queue of its class. -/
theorem Chip.wlLocal_time (hq : (c.wl w).queue 0 = []) (seq kind t : Nat) :
    c.wlLocal w 0 3 (c.timeOctets seq kind t) = c.setWl w fun s => s.withQueue 0
      [{ dest := 0, src := c.rd .WALE_ADDRESS, cls := 0, kind := 3, payload := c.timeOctets seq kind t }] :=
  Chip.wlLocal_empty hq (by rw [Chip.length_timeOctets]; decide)

/-- With one port up, the `SYNC` word goes out on it with its follow-up. -/
theorem Chip.syncAll_one (hu : c.wlUps = [w]) (hq : (c.wl w).queue 0 = []) :
    c.syncAll = (c.setWl w fun s => { s with syncSeq := ((c.wl w).syncSeq + 1) % 65536 }).setWl w fun s => s.withQueue 0
      [{ dest := 0, src := c.rd .WALE_ADDRESS, cls := 0, kind := 3,
         payload := c.timeOctets (((c.wl w).syncSeq + 1) % 65536) 1 (c.tsOut w) }] := by
  rw [Chip.syncAll, hu]
  refine Chip.wlLocal_empty ?_ (by rw [Chip.length_timeOctets]; decide)
  rw [Chip.setWl_same]
  exact hq

end

/-! `DREQ` words, and words that arrive. -/

section
variable {c : Chip} {w : Nat}

/-- Without an upstream port that is up, no `DREQ` word goes out. -/
theorem Chip.dreqSend_none (h : c.upstreamUp = none) : c.dreqSend = c := by rw [Chip.dreqSend, h]

theorem Chip.dreqSend_up (h : c.upstreamUp = some w) : c.dreqSend = c.setWl w fun s =>
    { s with dreqSeq := ((c.wl w).dreqSeq + 1) % 65536, dreqOut := some (((c.wl w).dreqSeq + 1) % 65536, c.tsOut w) } := by
  rw [Chip.dreqSend, h]

theorem Chip.tsTake_sync (h : c.wlState w = 4) (seq frac : Nat) :
    c.tsTake w 1 seq frac = c.setWl w fun s => { s with syncIn := some (seq, c.tsIn w frac) } :=
  (if_neg (not_not_intro h)).trans (if_pos rfl)

theorem Chip.tsTake_dreq (h : c.wlState w = 4) (seq frac : Nat) :
    c.tsTake w 2 seq frac = c.wlLocal w 0 3 (c.timeOctets seq 2 (c.tsIn w frac)) :=
  (if_neg (not_not_intro h)).trans ((if_neg (by decide)).trans (if_pos rfl))

end

/-! `TIME` packets. -/

section
variable {c : Chip} {st : Stepper} {w n t : Nat} {l : List Octet} (hu : c.upstreamUp = some w)
include hu

theorem Chip.timeTake_dreq (hk : octNat l 2 1 = 2) (hd : (c.wl w).dreqOut = some (n, t)) (hn : n = octNat l 0 2) :
    c.timeTake st w l = c.setWl w fun s => { s with dreqOut := none, dreqDone := some (t, ofTime96 (octNat l 12 12)) } := by
  simp [Chip.timeTake, hu, hk, hd, hn]

theorem Chip.timeTake_sync (hk : octNat l 2 1 = 1) (hs : (c.wl w).syncIn = some (n, t)) (hn : n = octNat l 0 2) :
    c.timeTake st w l =
      (c.setWl w fun s => { s with syncIn := none }).exchange st w (ofTime96 (octNat l 12 12)) t (octNat l 3 1) := by
  simp [Chip.timeTake, hu, hk, hs, hn]

/-- A packet with another number completes no exchange. -/
theorem Chip.timeTake_other (hk : octNat l 2 1 = 1) (hs : (c.wl w).syncIn = some (n, t)) (hn : n ≠ octNat l 0 2) :
    c.timeTake st w l = c := by
  simp [Chip.timeTake, hu, hk, hs, hn]

end

section
variable {c : Chip} {w : Nat}

/-- Without a complete `DREQ` exchange a `SYNC` exchange gives no delay. -/
theorem Chip.exchange_none (h : (c.wl w).dreqDone = none) (st : Stepper) (t1 t2 flags : Nat) : c.exchange st w t1 t2 flags = c := by
  rw [Chip.exchange, h]

/-- The delay of a link by the four instants of its two exchanges (R297). -/
def wlLinkDelay (t1 t2 t3 t4 : Nat) : Nat :=
  ((idiv (idiv (((t2 : Int) - t1) + ((t4 : Int) - t3)) 2 * 1000) (2 ^ 48)) % 2 ^ 32).toNat

theorem wlLinkDelay_lt (t1 t2 t3 t4 : Nat) : wlLinkDelay t1 t2 t3 t4 < 2 ^ 32 := by
  unfold wlLinkDelay
  omega

/-- An exchange from a device whose time is not valid gives a delay and no offset. -/
theorem Chip.exchange_invalid {t3 t4 flags : Nat} (h : (c.wl w).dreqDone = some (t3, t4)) (hf : flags % 2 = 0) (st : Stepper) (t1 t2 : Nat) :
    c.exchange st w t1 t2 flags = c.wrRow .WL_LINK_DELAY w 0 (wlLinkDelay t1 t2 t3 t4) := by
  simp only [Chip.exchange, h, hf, decide_true, Bool.or_true, Bool.true_or, if_true]
  rfl

end

end Sys2Proof.Machine
end

section
set_option Elab.async false
open Sys2Proof Sys2Proof.Machine

/-- Settles O37: each command changes the record of one port alone, but for the exchange that gives a delay. -/
theorem waleTimeExchangesGiveDelays : Obligations.WaleTimeExchangesGiveDelays := by
  unfold Obligations.WaleTimeExchangesGiveDelays
  refine ⟨?_, ?_, ?_, ?_, ?_, ?_, ?_, ?_, ?_, ?_⟩
  · intro w s hu hq
    refine Answers.of_runs ⟨_, execSync.eq_1 s, Chip.syncAll_one hu hq⟩ fun d hd => ?_
    obtain ⟨hown, hothers, -, -, hkeeps⟩ := hd.wlSet ((s.chip.setWl_wlSet w _).setWl _)
    rw [hown]
    exact ⟨rfl, WlSt.withQueue_same .., hothers, hkeeps⟩
  · intro w s hu
    refine Answers.of_runs ⟨_, execDreq.eq_1 s, Chip.dreqSend_up hu⟩ fun d hd => ?_
    obtain ⟨hown, hothers, hbare, hwale, hkeeps⟩ := hd.wlSet (s.chip.setWl_wlSet w _)
    exact ⟨hown, hothers, hbare, hwale, hkeeps⟩
  · intro s hu
    exact Answers.of_runs ⟨_, execDreq.eq_1 s, Chip.dreqSend_none hu⟩ fun d hd => ⟨hd.bare, hd.keeps (.refl _ _)⟩
  · intro w q f s hs
    refine Answers.of_runs ⟨_, execWcTs.eq_1 w 1 q f s, Chip.tsTake_sync hs _ _⟩ fun d hd => ?_
    obtain ⟨hown, hothers, hbare, hwale, hkeeps⟩ := hd.wlSet (s.chip.setWl_wlSet w _)
    exact ⟨hown, hothers, hbare, hwale, hkeeps⟩
  · intro w q f s hs hq
    refine Answers.of_runs ⟨_, execWcTs.eq_1 w 2 q f s, (Chip.tsTake_dreq hs _ _).trans (Chip.wlLocal_time hq ..)⟩ fun d hd => ?_
    obtain ⟨hown, hothers, -, -, hkeeps⟩ := hd.wlSet (s.chip.setWl_wlSet w _)
    rw [hown]
    exact ⟨WlSt.withQueue_same .., hothers, hkeeps⟩
  · intro w x n t s l hu hk ho hn
    refine Answers.of_runs ⟨_, execTime.eq_1 w x s, Chip.timeTake_dreq hu hk ho hn⟩ fun d hd => ?_
    obtain ⟨hown, hothers, hbare, -, hkeeps⟩ := hd.wlSet (s.chip.setWl_wlSet w _)
    exact ⟨hown, hothers, hbare, hkeeps⟩
  · intro w x n t s l hu hk hs hn hdone
    refine Answers.of_runs ⟨_, execTime.eq_1 w x s, (Chip.timeTake_sync hu hk hs hn).trans (Chip.exchange_none ?_ ..)⟩ fun d hd => ?_
    · rw [Chip.setWl_same, hdone]
    · obtain ⟨hown, hothers, hbare, -, hkeeps⟩ := hd.wlSet (s.chip.setWl_wlSet w _)
      exact ⟨hown, hothers, hbare, hkeeps⟩
  · intro w x n t t3 t4 s l hu hk hs hn hdone hflags
    refine Answers.of_runs ⟨_, execTime.eq_1 w x s, (Chip.timeTake_sync hu hk hs hn).trans
      (Chip.exchange_invalid (t3 := t3) (t4 := t4) ?_ hflags ..)⟩ fun d hd => ⟨?_, ?_, ?_⟩
    · rw [Chip.setWl_same, hdone]
    · rw [hd.rd _ rfl, Chip.rd_wrRow_fits (wlLinkDelay_lt ..)]
      rfl
    · rw [hd.wl_eq, Chip.wl_wrRow, Chip.setWl_same]
    · exact hd.keeps (.wrRow (Chip.Keeps.refl _ _).setWl rfl)
  · intro w x n t s l hu hk hs hn
    exact Answers.of_runs ⟨_, execTime.eq_1 w x s, Chip.timeTake_other hu hk hs hn⟩ fun d hd => ⟨hd.bare, hd.keeps (.refl _ _)⟩
  · intro w b s
    refine Answers.of_runs ⟨_, execTimeReportTimeout.eq_1 w b s, rfl⟩ fun d hd => ?_
    obtain ⟨hown, hothers, hbare, -, hkeeps⟩ := hd.wlSet (s.chip.setWl_wlSet w _)
    exact ⟨hown, hothers, hbare, hkeeps⟩

end

section
/-!
PROOFS. An ALARM record that comes to wait while the waiting ones go into an `EVENT` packet (R300, R399).
-/
set_option Elab.async false
namespace Sys2Proof.Machine

/-- An ALARM record of the device, `NO_ADDRESS`. -/
def noAddressRecord : EvRec :=
  { seq := 0, time := 0, sev := .alarm, coalesced := false, timeValid := false, inst := 0, code := 0x0401, data := 0, count := 1, last := 0,
    src := 0 }

/-- Port 0 is up, its neighbour holds address 1, to which the device sends its records, and one ALARM record waits for a packet. The event
engine has yet to take an occurrence of `NO_ADDRESS`: nothing in `State` keeps that list empty before a command. -/
def alarmComes : State :=
  { chip :=
    { dict := [(⟨.WL_STATE, 0, 0⟩, 4)], wale := { ports := [(0, { addr := 1 })], alarms := [noAddressRecord] },
      ev := { raised := [⟨0, .noAddress, 0⟩] } } }

/-- The record of that occurrence waits after the command. -/
theorem alarmComes_waits : ∃ t, exec (.eventPacketSend .alarms) alarmComes = .next t ∧ t.chip.wale.alarms.length = 1 :=
  ⟨_, rfl, by decide +kernel⟩

end Sys2Proof.Machine
end

section
set_option Elab.async false
open Sys2Proof Sys2Proof.Machine

/-- Refutes O35, by its clause on EVENT_PACKET_SEND: after the command the waiting ALARM records are said to be the former ones without their
first 32, with no word on occurrences that the event engine has yet to take (the clause on EVENT has such a premise). The engine takes them at
the end of every command, and the record of an ALARM joins those that wait for a packet (R300). One record waits and goes into the packet,
and the record of the occurrence waits in its place. Every step ends with the engine's turn, so no run of the model from reset comes to
such a state; the statement speaks of every state. -/
theorem not_walePacketsAreCheckedTakenAndRelayed : ¬ Obligations.WalePacketsAreCheckedTakenAndRelayed := by
  unfold Obligations.WalePacketsAreCheckedTakenAndRelayed
  rintro ⟨-, -, -, -, -, -, -, -, -, -, halarms, -⟩
  obtain ⟨t, ht, -, hdrop, -⟩ := halarms 0 alarmComes (by decide +kernel) (by decide +kernel) (by decide +kernel) (by decide +kernel)
    (by decide +kernel) (by decide +kernel)
  obtain ⟨u, hu, hwaits⟩ := alarmComes_waits
  obtain rfl : t = u := Host.Outcome.next.inj (ht.symm.trans hu)
  rw [hdrop] at hwaits
  exact absurd hwaits (by decide +kernel)

end
